-- ==== Sys2Proof/Word.lean ====
section
/-!
DEFINITION. The word types of the AK4800 model and the sparse table that every register file, memory and
per-unit record of the package is kept in. Multi-byte values are little-endian and bit 0 is the least
significant bit (R6).
-/

namespace Sys2Proof

/-- One byte (R6). -/
abbrev Byte := BitVec 8
/-- A status code of Table 0.5 (R11). -/
abbrev Code := BitVec 8
/-- A global core number, 0 to 255 (R21). -/
abbrev Core := Fin 256
/-- A tower number, 0 to 7 (R21). -/
abbrev Tower := Fin 8
/-- A Span port or module power channel number, 0 to 17 (R21). -/
abbrev Port := Fin 18
/-- An HBM channel number, 0 to 511 (R21). -/
abbrev HCh := Fin 512
/-- A queue number, 0 to 16,383 (R182). -/
abbrev QId := Fin 16384
/-- A context number, 0 to 4,095 (R182). -/
abbrev CtxId := Fin 4096
/-- A block pool number, 0 to 255 (R240). -/
abbrev PoolId := Fin 256
/-- A mailbox number, M0 to M3 (R398). -/
abbrev Mb := Fin 4

/-- A sparse table: pairs of a key and a value, keys strictly rising, no pair equal to what an unlisted
key reads as. -/
abbrev Tab (α : Type) := List (Nat × α)

end Sys2Proof
end

