-- ==== Sys2Proof/Syntax.lean ====
section
/-!
DEFINITION. The commands of the AK4800: one constructor per row of the table of operations and events, with
the row's operands. A sequencer instruction carries the core that issues it and its bits below the opcode
(Table 5.2); an event carries the unit it happens to and what comes from outside the package.
-/

namespace Sys2Proof

/-- The two views of the hub register block (R347, R348). -/
inductive View where
  | mason
  | pcie
deriving DecidableEq, Repr

/-- Which outstanding sequencer access a reply belongs to: the instruction fetch at pc, or the numbered entry
of the core's outstanding accesses (R148). -/
inductive SeqAcc where
  | fetch
  | data (i : Nat)
deriving DecidableEq, Repr

/-- How an access is answered: by this package's own homes, by an agent outside the package with its bytes,
or with a status code of Table 0.5 from outside the package. (DESIGN CHOICE: log entry 5.) -/
inductive Reply where
  | home
  | ok (data : List Byte)
  | fail (code : Code)
deriving DecidableEq, Repr

/-- A requester that searches a Range Table (R250, R252). -/
inductive XUser where
  | fetch (c : Core)
  | seq (c : Core) (i : Nat)
  | dma (c : Core) (ch : Fin 4)
  | hub (x : CtxId) (va : BitVec 64)
deriving DecidableEq, Repr

/-- Why a channel recalibrates (R291). -/
inductive RecalWhy where
  | period
  | temperature
  | request
  | offline
deriving DecidableEq, Repr

/-- A requester of the RLC; `other` never allocates (R300). -/
inductive RlcUser where
  | fetch (c : Core)
  | seq (c : Core)
  | dma (c : Core) (ch : Fin 4)
  | other
deriving DecidableEq, Repr

/-- Why a Span lane leaves the width (R317). -/
inductive LaneWhy where
  | clockLock
  | markerLock
  | symbols
deriving DecidableEq, Repr

/-- The header of the configuration space: bits 63:26 and 63:28 of the two BAR addresses, Memory Space Enable and Bus Master Enable
(R346, R354). (PRESUMED: log entry 79.) -/
structure PcieCmd where
  bar0 : BitVec 38 := 0
  bar2 : BitVec 36 := 0
  mse : Bool := false
  bme : Bool := false
deriving DecidableEq, Repr

/-- Its Device Control words: the coded payload and read-request sizes, the Completion Timeout Value and Disable (Table 11.1, R353).
(PRESUMED: log entry 79.) -/
structure PcieDev where
  mps : BitVec 3 := 0
  mrrs : BitVec 3 := 2
  cto : BitVec 4 := 0
  ctoOff : Bool := false
deriving DecidableEq, Repr

/-- Its MSI-X Enable and D3hot (Table 11.1). (PRESUMED: log entry 79.) -/
structure PcieCap where
  msixEn : Bool := false
  d3 : Bool := false
deriving DecidableEq, Repr

/-- The status, mask and severity words of its Advanced Error Reporting (Table 11.1). (PRESUMED: log entry 79.) -/
structure PcieAer where
  corStat : BitVec 32 := 0
  corMask : BitVec 32 := 0x2000
  uncStat : BitVec 32 := 0
  uncMask : BitVec 32 := 0x00400000
  uncSev : BitVec 32 := 0x00462030
deriving DecidableEq, Repr

/-- The writable fields of the configuration space (Table 11.1, R346, R354). (PRESUMED: log entry 79.) -/
structure PcieCfg extends PcieCmd, PcieDev, PcieCap, PcieAer
deriving DecidableEq, Repr

/-- What training, and link control after it, tell of the other end of a Span link (R311, R317, R338, Table 10.7); bit `i` of `good`
is set where its lane `i` is ACTIVE or IDLE. -/
structure PeerInfo where
  impl : BitVec 8
  maxw : BitVec 2
  good : BitVec 8
  valid : Bool
  domain : BitVec 9
  package : BitVec 8
  port : BitVec 5
  locked : Bool
  plumb : BitVec 64
deriving DecidableEq, Repr

/-- What comes with a flit beside its bits: the sixteenth of a nanosecond of its arrival (R340), and what link control in it tells of
the neighbour. -/
structure Arrival where
  sub : Fin 16
  told : Option PeerInfo
deriving DecidableEq, Repr

/-- Where a packet waits at this package (R325): at an output, in the input buffer of a port, or for a route at its source. -/
inductive WaitAt where
  | out (p : Port)
  | inbox (p : Port)
  | source
deriving DecidableEq, Repr

/-- The outcome of an outbound request at the host port (R353). -/
inductive OutOutcome where
  | success (data : List Byte)
  | refused
  | timeout
deriving DecidableEq, Repr

/-- What a Mason core does at a physical address (R355, R356). -/
inductive MasonKind where
  | load
  | ifetch
  | store
  | writeback
deriving DecidableEq, Repr

/-- Which Mason core makes an access, and of which kind. -/
structure MasonOp where
  core : Fin 144
  kind : MasonKind
deriving DecidableEq, Repr

/-- A corrected read of an HBM channel: its offset, and whether it belongs to a new activation of its row (Table 9.8). -/
structure HbmRead where
  off : Nat
  newAct : Bool
deriving DecidableEq, Repr

/-- What the power controller measures over one 1 ms interval (R370 to R376): `pRest` and `pkgW` in W,
and the 74 sensors of Table 12.11 in sixteenths of a degree. -/
structure PowerMeas where
  pRest : Nat
  pkgW : Nat
  masonW : Nat
  sensors : List Int
deriving DecidableEq, Repr

/-- A register of the power controller's block or of the Keystone register space (chapters 12 and 13). -/
inductive KeyReg where
  | pwrCap
  | pwrFreq
  | pwrTwr (t : Tower)
  | pwrStat
  | pwrDomstat (d : Fin 108)
  | modCtl (k : Port)
  | modStat (k : Port)
  | rstCause0
  | rstCause1
  | rstStat
deriving DecidableEq, Repr

/-- Where a register write lands: a hub register block offset in a view (R347), a byte offset of a mailbox
page (R399), or a register that only Keystone reaches. -/
inductive RegTarget where
  | hub (view : View) (off : Nat)
  | mailbox (m : Mb) (off : Nat)
  | key (r : KeyReg)
deriving DecidableEq, Repr

/-- What Keystone finds as it starts: whether the flash answers, whether the activation journal, the settings areas, the user
calibration and the unit records can be read, whether the signature of the factory layer holds (R395, R416), whether every
field of a settings record that the image converts lies in the range that it allows (R414), and which Lintel lanes fail their
training in step 5 (R31, R390). -/
structure BootRead where
  flash : Bool
  journal : Bool
  setA : Bool
  setB : Bool
  cal : Bool
  units : Bool
  factory : Bool
  conv : Bool
  lanes : List (Fin 24 × Fin 18)
deriving DecidableEq, Repr

/-- A Span packet (Tables 10.12 and 10.13); `data` holds its bytes without the padding. -/
structure SpanPkt where
  op : BitVec 8
  vc : BitVec 3
  path : BitVec 2
  ep : Bool
  lenM1 : BitVec 8
  func : BitVec 4
  asz : Bool
  tag : BitVec 18
  ctx : BitVec 12
  srcPkg : BitVec 8
  srcDom : BitVec 9
  status : BitVec 8
  addr : BitVec 64
  data : List Byte
deriving DecidableEq, Repr

/-- The commands and events of the AK4800, in the order of the table. (DESIGN CHOICE: log entry 9.) (DESIGN CHOICE: log entry 10.) -/
inductive Instr where
  /-- Sequencer instruction that does nothing. (R136) -/
  | nop (c : Core) (w : BitVec 56)
  /-- Sets sd to sa plus sb, wrapping on overflow. (R136) -/
  | add (c : Core) (w : BitVec 56)
  /-- Sets sd to sa minus sb. (R136) -/
  | sub (c : Core) (w : BitVec 56)
  /-- Sets sd to the bitwise AND of sa and sb. (R136) -/
  | and_ (c : Core) (w : BitVec 56)
  /-- Sets sd to the bitwise OR of sa and sb. (R136) -/
  | or_ (c : Core) (w : BitVec 56)
  /-- Sets sd to the bitwise XOR of sa and sb. (R136) -/
  | xor (c : Core) (w : BitVec 56)
  /-- Shifts sa left by sb[5:0] into sd. (R136) -/
  | sll (c : Core) (w : BitVec 56)
  /-- Shifts sa right logically by sb[5:0] into sd. (R136) -/
  | srl (c : Core) (w : BitVec 56)
  /-- Shifts sa right arithmetically by sb[5:0] into sd. (R136) -/
  | sra (c : Core) (w : BitVec 56)
  /-- Sets sd to the low 64 bits of sa times sb. (R136) -/
  | mul (c : Core) (w : BitVec 56)
  /-- Sets sd to the high 64 bits of the unsigned 128-bit product. (R136) -/
  | mulhu (c : Core) (w : BitVec 56)
  /-- Sets sd to 1 if sa is less than sb as signed values, else 0. (R136) -/
  | slt (c : Core) (w : BitVec 56)
  /-- Sets sd to 1 if sa is less than sb as unsigned values, else 0. (R136) -/
  | sltu (c : Core) (w : BitVec 56)
  /-- Sets sd to the signed minimum of sa and sb. (R136) -/
  | min (c : Core) (w : BitVec 56)
  /-- Sets sd to the signed maximum of sa and sb. (R136) -/
  | max (c : Core) (w : BitVec 56)
  /-- Adds the sign-extended IMM to sa into sd. (R136) -/
  | addi (c : Core) (w : BitVec 56)
  /-- ANDs sa with IMM into sd. (R136) -/
  | andi (c : Core) (w : BitVec 56)
  /-- ORs sa with IMM into sd. (R136) -/
  | ori (c : Core) (w : BitVec 56)
  /-- XORs sa with IMM into sd. (R136) -/
  | xori (c : Core) (w : BitVec 56)
  /-- Shifts sa left by IMM into sd. (R136) -/
  | slli (c : Core) (w : BitVec 56)
  /-- Shifts sa right logically by IMM into sd. (R136) -/
  | srli (c : Core) (w : BitVec 56)
  /-- Shifts sa right arithmetically by IMM into sd. (R136) -/
  | srai (c : Core) (w : BitVec 56)
  /-- Compares sa with IMM as signed values into sd. (R136) -/
  | slti (c : Core) (w : BitVec 56)
  /-- Compares sa with IMM as unsigned values into sd. (R136) -/
  | sltiu (c : Core) (w : BitVec 56)
  /-- Loads the sign-extended IMM into sd. (R136) -/
  | li (c : Core) (w : BitVec 56)
  /-- Sets the upper 32 bits of sd from IMM and the lower 32 bits from sa. (R136) -/
  | lih (c : Core) (w : BitVec 56)
  /-- Branches if sa equals sb, with prediction under SPEC. (R141) -/
  | beq (c : Core) (w : BitVec 56)
  /-- Branches if sa differs from sb. (R141) -/
  | bne (c : Core) (w : BitVec 56)
  /-- Branches if sa is less than sb as signed values. (R141) -/
  | blt (c : Core) (w : BitVec 56)
  /-- Branches if sa is greater than or equal to sb as signed values. (R141) -/
  | bge (c : Core) (w : BitVec 56)
  /-- Branches if sa is less than sb as unsigned values. (R141) -/
  | bltu (c : Core) (w : BitVec 56)
  /-- Branches if sa is greater than or equal to sb as unsigned values. (R141) -/
  | bgeu (c : Core) (w : BitVec 56)
  /-- Links the return address into sd and jumps by OFF. (R136) -/
  | jal (c : Core) (w : BitVec 56)
  /-- Links the return address into sd and jumps to sa plus IMM. (R136) -/
  | jr (c : Core) (w : BitVec 56)
  /-- Starts hardware loop LC over the following body. (R144) -/
  | loop (c : Core) (w : BitVec 56)
  /-- Reads the index of a loop counter into sd. (R144) -/
  | mvlc (c : Core) (w : BitVec 56)
  /-- Copies an address register into sd. (R136) -/
  | mvsa (c : Core) (w : BitVec 56)
  /-- Sets an address register to a[AA] plus s[SB] plus IMM. (R136) -/
  | adda (c : Core) (w : BitVec 56)
  /-- Loads from the scratchpad into sd. (R146) -/
  | lds (c : Core) (w : BitVec 56)
  /-- Stores sd to the scratchpad. (R146) -/
  | sts (c : Core) (w : BitVec 56)
  /-- Loads from translated virtual memory into sd. (R146) -/
  | ld (c : Core) (w : BitVec 56)
  /-- Stores sd to translated virtual memory. (R146) -/
  | st (c : Core) (w : BitVec 56)
  /-- Performs an atomic at the memory home and returns the old value. (R137) -/
  | amo (c : Core) (w : BitVec 56)
  /-- The reply or fault of a sequencer LD, ST, AMO or fetch returns. (R149) -/
  | seqAccessComplete (c : Core) (a : SeqAcc) (r : Reply)
  /-- Starts a wait until earlier stores and atomics are performed. (R147) -/
  | fence (c : Core) (w : BitVec 56)
  /-- Every earlier ST and AMO has been performed, so issue resumes. (R147) -/
  | fenceComplete (c : Core)
  /-- Reads a core register into sd. (R168) -/
  | rdcr (c : Core) (w : BitVec 56)
  /-- Writes sa[31:0] to a core register. (R168) -/
  | wrcr (c : Core) (w : BitVec 56)
  /-- Issues an Ashlar operation into its unit's hold slot. (R80) -/
  | amm (c : Core) (w : BitVec 56) (w1 : BitVec 64)
  /-- The Ashlar engine accepts a held operation, makes its tile claims and runs its dispatch checks. (R98) -/
  | ammAccept (c : Core) (e : Fin 4)
  /-- The first array cycle issues once every named tile is free of earlier claims. (R78) -/
  | ammFirstArrayCycle (c : Core) (e : Fin 4)
  /-- A finished tile drains to the scratchpad once the drain is free. (R100) -/
  | ammTileDrain (c : Core) (e : Fin 4)
  /-- The operation's last write lands, so completion is reported and claims are released. (R99) -/
  | ammComplete (c : Core) (e : Fin 4)
  /-- A corrected error in Ashlar storage, which retires the core at the threshold. (R105) -/
  | ashlarSingleBitError (c : Core) (e : Fin 4) (loc : Fin 10)
  /-- A double-bit error in Ashlar storage retires the core at once. (R105) -/
  | ashlarDoubleBitError (c : Core) (e : Fin 4)
  /-- Issues a Chisel chain operation into the hold slot. (R109) -/
  | chn (c : Core) (w : BitVec 56)
  /-- Chisel accepts an operation, reads its descriptors and runs its checks. (R132) -/
  | chiselAccept (c : Core)
  /-- The first beat enters once claims, SER and the previous entry end allow. (R116) -/
  | chnFirstBeat (c : Core)
  /-- The chain operation's last write lands and its completion is reported. (R132) -/
  | chnComplete (c : Core)
  /-- Issues a sliced FP64 recombination. (R129) -/
  | cfold (c : Core) (w : BitVec 56)
  /-- The first CFOLD row enters after earlier Chisel operations and the tile claims end. (R437) -/
  | cfoldFirstRow (c : Core)
  /-- CFOLD writes its last FP64 output and reports its code. (R129) -/
  | cfoldComplete (c : Core)
  /-- Issues a function table load into a shadow slot. (R119) -/
  | ctbl (c : Core) (w : BitVec 56)
  /-- The table image has been copied into the shadow slot. (R132) -/
  | ctblComplete (c : Core)
  /-- A corrected or double-bit error occurs in Chisel storage. (R105) -/
  | chiselEccError (c : Core) (double : Bool) (loc : Fin 3)
  /-- Keystone starts a direct stream-mode Chisel operation on a core that holds no context. (R128) -/
  | chsDirectGo (c : Core) (v : BitVec 32)
  /-- Copies a DMA descriptor into a channel queue. (R162) -/
  | dma (c : Core) (w : BitVec 56)
  /-- A channel starts its head descriptor. (R164) -/
  | dmaDescriptorStart (c : Core) (ch : Fin 4)
  /-- The sampled Plumb count reaches AT, releasing a TIMED descriptor. (R165) -/
  | dmaTimedRelease (c : Core) (ch : Fin 4)
  /-- A DMA line's read or write completes, or faults. (R167) -/
  | dmaLineComplete (c : Core) (ch : Fin 4) (r : Reply)
  /-- Every write of the descriptor has been performed, so the signal atomic is issued. (R164) -/
  | dmaDescriptorComplete (c : Core) (ch : Fin 4)
  /-- The signal atomic completes, so DONE increments. (R167) -/
  | dmaSignalDone (c : Core) (ch : Fin 4) (r : Reply)
  /-- Starts a wait on the engine and DMA units named in MASK. (R153) -/
  | waite (c : Core) (w : BitVec 56)
  /-- Every masked unit has DISP minus DONE at or below N, so issue resumes. (R153) -/
  | waiteComplete (c : Core)
  /-- Starts a wait on a memory flag with an optional deadline. (R155) -/
  | waitf (c : Core) (w : BitVec 56)
  /-- The flag is re-read after a home write or at the 1 µs poll. (R156) -/
  | waitfEvaluate (c : Core) (r : Reply)
  /-- The Plumb count reaches the deadline, so the WAITF returns 1. (R156) -/
  | waitfDeadline (c : Core)
  /-- Starts a wait until the sampled Plumb count reaches sa. (R157) -/
  | waitp (c : Core) (w : BitVec 56)
  /-- The sampled Plumb count reaches the target, releasing a WAITP. (R33) -/
  | plumbWaitRelease (c : Core)
  /-- Returns the sampled Plumb count. (R157) -/
  | rdplumb (c : Core) (w : BitVec 56)
  /-- Stops issue of the kernel. (R173) -/
  | end_ (c : Core) (w : BitVec 56)
  /-- The node ends with OK once units, stores and signals are all done. (R173) -/
  | nodeEnd (c : Core)
  /-- After a kernel-ending fault, the kernel ends once its operations and accesses drain. (R174) -/
  | kernelFaultEnd (c : Core)
  /-- A kernel starts on a core in its defined start state. (R171) -/
  | nodeStart (c : Core)
  /-- A corrected or double-bit scratchpad error occurs. (R161) -/
  | spadEccError (c : Core) (double : Bool) (bank : Fin 64)
  /-- A write of GO requests that every shadow copy be committed. (R169) -/
  | coreCommit (c : Core) (v : BitVec 32)
  /-- Once earlier operations are accepted, shadow copies become active and the generators reseed. (R169) -/
  | commitApply (c : Core)
  /-- Clears NBAD, FIRST and FSEQ of a unit. (R170) -/
  | ecodeClr (c : Core) (u : Fin 9)
  /-- Writes 0 to every vector register of a core that holds no context. (R180) -/
  | vclr (c : Core)
  /-- Starts a direct kernel from the scratchpad on a core that holds no context. (R181) -/
  | directKernelGo (c : Core) (v : BitVec 32)
  /-- A Mortar beat fails its CRC and is replayed, and at the threshold the group is steered to a spare. (R24) -/
  | mortarCrcFail (f : Fin 264) (grp : Nat) (replaysFailed : Bool)
  /-- The steering stall ends, the beat replays on the spare group and LINK_DEGRADED is reported. (R25) -/
  | mortarSteerDone (f : Fin 264)
  /-- A Lintel flit fails its CRC and is replayed from the retry buffer. (R27) -/
  | lintelFlitCrcFail (l : Fin 24) (lane : Option (Fin 18)) (replaysFailed : Bool)
  /-- A Lintel lane loses its forwarded-clock lock and becomes permanently bad. (R27) -/
  | lintelClockLockLoss (l : Fin 24) (lane : Fin 18)
  /-- A whole-link retraining ends. (R27) -/
  | lintelRetrainDone (l : Fin 24) (failed : List (Fin 18))
  /-- A lane remap hold ends, so the link is released and the retirement is reported. (R28) -/
  | lintelRemapDone (l : Fin 24)
  /-- A doorbell write pushes entries onto a queue or is rejected. (R186) -/
  | qdbPush (q : QId) (v : BitVec 32)
  /-- A write to QCTL enables or disables a queue, or configures it. (R184) -/
  | qctlWrite (q : QId) (view : View) (v : BitVec 32)
  /-- Clears GUILTY when no queue reset runs. (R217) -/
  | gclr (q : QId)
  /-- The front end pops one entry from the chosen queue and checks it. (R219) -/
  | queuePop (r : Reply)
  /-- The constant copy is done, so the entry's buffer or graph starts. (R190) -/
  | entryStart (q : QId) (r : Reply)
  /-- A packet issues once its order, its wait slots, BAR and its release instant allow. (R192) -/
  | packetIssue (q : QId) (node : Nat) (r : Reply)
  /-- A NOP packet completes at issue. (R194) -/
  | packetNop (q : QId) (node : Nat) (off : Nat)
  /-- Runs a kernel on CORES_M1 plus 1 cores of the context. (R196) -/
  | dispatch (q : QId) (node : Nat) (off : Nat)
  /-- Stores the packet's inline data to memory. (R197) -/
  | write (q : QId) (node : Nat) (off : Nat) (r : Reply)
  /-- Performs one 64-bit atomic. (R198) -/
  | signal (q : QId) (node : Nat) (off : Nat) (r : Reply)
  /-- Waits on a memory word with an optional deadline. (R199) -/
  | waitmem (q : QId) (node : Nat) (off : Nat) (r : Reply)
  /-- The WAITMEM flag is re-evaluated, or its deadline is reached. (R199) -/
  | waitmemEvaluate (q : QId) (node : Nat) (off : Nat) (r : Reply)
  /-- Asks a block pool for COUNT blocks. (R200) -/
  | poolAlloc (q : QId) (node : Nat) (off : Nat)
  /-- Returns COUNT blocks to a block pool. (R243) -/
  | poolFree (q : QId) (node : Nat) (off : Nat)
  /-- Pushes one entry onto a device queue. (R201) -/
  | enq (q : QId) (node : Nat) (off : Nat) (r : Reply)
  /-- An FWAIT ENQ retries its rejected push in a later cycle. (R201) -/
  | enqRetry (q : QId) (node : Nat) (off : Nat) (r : Reply)
  /-- Checks a version image and makes it a live graph. (R203) -/
  | ginit (q : QId) (node : Nat) (off : Nat)
  /-- Copies and patches the current version and switches the handle to it. (R204) -/
  | gpatch (q : QId) (node : Nat) (off : Nat)
  /-- Retires a graph handle. (R206) -/
  | gretire (q : QId) (node : Nat) (off : Nat)
  /-- All effects of a packet are performed, posting its slot. (R194) -/
  | packetComplete (q : QId) (node : Nat) (off : Nat)
  /-- A graph node whose edges are met starts as a buffer. (R207) -/
  | nodeReady (q : QId) (node : Nat)
  /-- The entry completes with its flush, record, signal and interrupt in order. (R209) -/
  | entryComplete (q : QId)
  /-- An entry's hang time exceeds HANG_MS, so it is hung. (R212) -/
  | hangDetect (q : QId)
  /-- Once the stopped kernels and packets end, the record is written and RESETTING clears. (R216) -/
  | queueResetFinish (q : QId)
  /-- A write to CEVCTL enables the event ring and resets its pointers. (R218) -/
  | cevctlWrite (x : CtxId) (view : View) (v : BitVec 32)
  /-- A write of RPTR is taken only within the ring bound. (R218) -/
  | cevptrWrite (x : CtxId) (view : View) (v : BitVec 32)
  /-- Free cores are granted to the waiting DISPATCH of highest rank. (R222) -/
  | coreGrant
  /-- At T minus LEAD_US, a TIMED DISPATCH's cores are granted, cleared and set up. (R225) -/
  | timedPrepare (g : Nat)
  /-- A prepared TIMED DISPATCH's kernels issue when the Plumb count reaches T. (R226) -/
  | timedRelease (g : Nat)
  /-- A waiting DISPATCH chooses victim gangs and sends the notice. (R229) -/
  | preempt (g : Nat)
  /-- A core's save machine finishes writing its image. (R176) -/
  | coreSaveDone (c : Core)
  /-- A saved image is restored onto a free core, which then resumes. (R178) -/
  | restore (g : Nat)
  /-- A core retired while holding a kernel loses it, and its gang stops. (R234) -/
  | coreFailure (c : Core)
  /-- At each 1 ms Plumb epoch, returned and claimed cores change pools. (R238) -/
  | schedulerEpoch
  /-- A write to POOLCTL enables or disables a pool, or configures it. (R241) -/
  | poolctlWrite (p : PoolId) (view : View) (v : BitVec 32)
  /-- The metadata area is written, so FREE is set and BUSY clears. (R241) -/
  | poolEnableDone (p : PoolId)
  /-- At a node boundary or after 20 µs, each pool retires its frees and then grants its allocations. (R242) -/
  | poolEpochEnd
  /-- A lookaside miss runs the binary search of the Range Table. (R250) -/
  | tableSearch (x : XUser)
  /-- The search ends with a hit that is filled, or with XLATE_MISS. (R250) -/
  | tableSearchDone (x : XUser)
  /-- Starts the invalidation of a context's translations. (R256) -/
  | xctlInv (x : CtxId) (view : View)
  /-- Sets or clears EN of XCTL; clearing it also invalidates. (R257) -/
  | xctlEn (x : CtxId) (view : View) (v : BitVec 32)
  /-- The dropped translations' accesses are done, so INVBUSY clears. (R256) -/
  | invalidationDone (x : CtxId)
  /-- Starts writing an ownership entry into a span of granules. (R260) -/
  | owncmd (view : View) (v : BitVec 64)
  /-- Every home has the new entry and copies are dropped, so BUSY clears. (R260) -/
  | owncmdDone
  /-- A host BAR2 access is converted and checked through the window context. (R264) -/
  | bar2Access (off : Nat) (size : Nat) (wr : Option (List Byte))
  /-- The page copy is written, so it becomes LOCAL and waiters are signalled. (R268) -/
  | migrationComplete (i : Nat) (r : Reply)
  /-- A source read fails, so the page returns to AWAY and waiters fail. (R269) -/
  | migrationFail (i : Nat) (code : BitVec 8)
  /-- A waiting access re-reads the page state every 10 µs. (R268) -/
  | migratePendingRecheck (x : XUser)
  /-- A read is corrected and rewritten, with a row remap at the threshold. (R280) -/
  | hbmCorrectableRead (ch : HCh) (y : HbmRead)
  /-- A detected error is re-read, and if every read fails the line is lost. (R280) -/
  | hbmUncorrectableRead (ch : HCh) (y : Nat) (allFail : Bool)
  /-- A write CRC or command parity error is retried, with retraining at the threshold. (R280) -/
  | hbmLinkError (ch : HCh) (retriesFailed : Bool)
  /-- A channel retraining ends, or fails into retirement. (R280) -/
  | hbmRetrainDone (ch : HCh) (ok : Bool)
  /-- The row is copied to a spare row, its bank released, and ROW_REMAPPED reported. (R281) -/
  | rowRemap (ch : HCh) (pc : Fin 2) (bank : Fin 32) (row : Fin 18432) (bad : List (Fin 16))
  /-- A channel is retired and its span spilled, with accesses re-issued. (R286) -/
  | channelRetire (ch : HCh)
  /-- A channel begins recalibration by period, by temperature or by request. (R291) -/
  | recalStart (ch : HCh) (why : RecalWhy)
  /-- One recalibration step runs in a refresh window. (R291) -/
  | recalStep (ch : HCh) (ok : Bool)
  /-- A Quarry unit changes kind, dropping lines and clearing scratch. (R297) -/
  | quarryKindChange (t : Tower) (u : Fin 8)
  /-- A Quarry SECDED error is corrected, drops a line or retires the unit. (R298) -/
  | quarryEccError (t : Tower) (u : Fin 8) (double : Bool) (line : Nat)
  /-- A read reaches the RLC, hitting, filling or prefetching. (R300) -/
  | rlcRead (t : Tower) (rq : RlcUser) (addr : BitVec 64) (ctx : CtxId) (nc : Bool) (ext ext2 : Option (BitVec 512))
  /-- A write reaches the RLC, merging, allocating or streaming past it. (R300) -/
  | rlcWrite (t : Tower) (rq : RlcUser) (addr : BitVec 64) (ctx : CtxId) (nc : Bool) (off : Nat) (data : List Byte) (ext : Option (BitVec 512))
  /-- Dirty RLC lines of a context are written back in every tower. (R303) -/
  | releaseFlush (x : CtxId)
  /-- A flush pass ends and any merged further pass begins. (R358) -/
  | releaseFlushDone (x : CtxId)
  /-- An RLC SECDED error drops a line, loses dirty data or retires a way. (R304) -/
  | rlcEccError (t : Tower) (way : Fin 16) (double : Bool) (line : Option (BitVec 64))
  /-- A received flit is accepted or discarded with a NAK, and stamped for Plumb. (R315) -/
  | flitReceive (p : Port) (h : BitVec 64) (ok : Bool) (body : List SpanPkt) (arrival : Arrival)
  /-- A Span lane loses lock or has excess corrections and leaves the width. (R317) -/
  | laneLeave (p : Port) (l : Fin 8) (why : LaneWhy)
  /-- A port hold ends at a re-formed width and the retry buffer replays. (R317) -/
  | portHoldEnd (p : Port)
  /-- A lane retraining attempt ends, leaving the lane IDLE, retrying or RETIRED. (R318) -/
  | laneRetrainAttemptEnd (p : Port) (l : Fin 8) (ok : Bool)
  /-- A whole-port retrain attempt ends, returning to UP or going DOWN. (R320) -/
  | portRetrainAttemptEnd (p : Port) (ok : Bool) (failed : List (Fin 8))
  /-- A DOWN port with a powered module tries training again every 1 s. (R320) -/
  | portDownRetry (p : Port)
  /-- Training completes, so the port is HELD or MISMATCH with its PVER. (R338) -/
  | portTrained (p : Port) (peer : PeerInfo) (failed : List (Fin 8))
  /-- COMMIT makes every SPAN_PCFG and PLUMB_CFG shadow active. (R312) -/
  | spanCommit (view : View)
  /-- Sets or clears ROUTE_EN, dropping queued packets on clear. (R332) -/
  | routeEnWrite (view : View) (en : Bool)
  /-- Sets the protocol version of injected packets. (R339) -/
  | protoActWrite (view : View) (v : BitVec 8)
  /-- Writes the package's Span identity, ignored while ROUTE_EN is 1. (R307) -/
  | spanIdWrite (view : View) (v : BitVec 32)
  /-- Commits the pending route bank for a switch at SPAN_RAT. (R329) -/
  | routeGo (view : View)
  /-- At AT, ACTEP flips and HELD ports become UP. (R329) -/
  | routeSwitch
  /-- 25 ms after a switch, the old bank becomes idle and RTBUSY clears. (R330) -/
  | routeDrainEnd
  /-- A packet is delivered, forwarded, held or dropped by the route tables. (R324) -/
  | packetRoute (src : Option Port) (k : SpanPkt)
  /-- A packet that waits more than 5 ms at one package is dropped. (R325) -/
  | packetStaleDrop (w : WaitAt) (i : Nat)
  /-- The home performs a remote request and returns its STATUS. (R337) -/
  | remoteRequestServe (k : SpanPkt)
  /-- A response arrives and completes its request with STATUS. (R337) -/
  | remoteResponse (k : SpanPkt)
  /-- A remote request exceeds its level timeout and completes with REMOTE_TIMEOUT. (R336) -/
  | remoteTimeout (tag : BitVec 18)
  /-- A MGMT packet performs a read or write on the M3 page. (R406) -/
  | mgmtAccess (k : SpanPkt)
  /-- Every 1 µs, a following package forms theta and steers or steps its count. (R340) -/
  | plumbInterval (d2 : Int) (nbrCount : BitVec 64) (nbrLocked : Bool)
  /-- A root sets LOCKED 100 ms after HELD or release step 8 with no locked neighbour. (R342) -/
  | plumbRootLockTimeout
  /-- A PCIe completion or timeout completes an outbound request. (R353) -/
  | outboundCompletion (id : Nat) (o : OutOutcome)
  /-- Hot reset, link-down, disable or perst_n resets only the PCIe state. (R354) -/
  | pcieLinkReset
  /-- Unmasking an entry sends its pending interrupt once. (R351) -/
  | msixUnmask (v : Fin 2048)
  /-- A Mason access completes, raises an access fault or is dropped. (R356) -/
  | masonAccess (addr : Nat) (size : Nat) (k : MasonOp) (wr : List Byte)
  /-- VMOD below 10.8 V turns every module channel off without latch. (R362) -/
  | vmodLoss
  /-- VMOD returns, so enabled channels start soft start again. (R362) -/
  | vmodReturn
  /-- A power domain transition completes and any opposite target starts. (R364) -/
  | domainTransitionDone (d : Fin 108)
  /-- With no engine operation in progress, a core group's clock moves to its target. (R368) -/
  | clockChangeApply (g : Fin 64)
  /-- A VCORE regulator reports its new set point. (R361) -/
  | regulatorSettled (t : Tower)
  /-- A regulator misses three transactions and is treated as a Buttress alert. (R428) -/
  | avsSilent (t : Tower)
  /-- Every 1 ms, the controller measures power, caps Mason and shifts tower budgets. (R370) -/
  | powerInterval (m : PowerMeas)
  /-- Every 50 µs, each core group sets its target step from its power share. (R371) -/
  | groupFreqStep (p : List Nat)
  /-- buttress_n low for 50 ns forces the lowest operating point. (R373) -/
  | buttressEntered
  /-- buttress_n high for 1 ms ends Buttress and capping resumes. (R374) -/
  | buttressEnd
  /-- A sensor at its trip limit forces Buttress. (R375) -/
  | thermalTrip (sensor : Fin 74)
  /-- A sensor still tripped 10 ms later shuts the package down. (R375) -/
  | thermalShutdown
  /-- Coolant values older than 5 s are replaced by defaults and STALE is set. (R376) -/
  | coolantStale
  /-- Setting EN queues a module channel, and clearing it turns the channel off. (R377) -/
  | modEnWrite (k : Port) (en : Bool)
  /-- A queued channel enters RAMP when a place in its group is free. (R377) -/
  | modRampStart (k : Port)
  /-- The output holds at 90 % of VMOD for 100 µs, so the channel is ON. (R377) -/
  | modOn (k : Port)
  /-- At the end of the window, a low or slow channel latches with MOD_SHORT. (R378) -/
  | modWindowEnd (k : Port) (vout : BitVec 12)
  /-- A channel enters or leaves current limit, pausing or resuming its group's ramps. (R379) -/
  | modCurrentLimit (k : Port) (enter : Bool)
  /-- Current limit for 1 ms latches the channel with MOD_SHORT or retires it. (R378) -/
  | modLimitLatch (k : Port)
  /-- 100 ms after a latch, soft start begins again. (R378) -/
  | modRetry (k : Port)
  /-- After 10 s ON, RETRIES clears. (R378) -/
  | modRetriesClear (k : Port)
  /-- The CLR bit clears a retired channel and its record. (R380) -/
  | modCtlClr (k : Port)
  /-- VAON rising through 0.60 V asserts reset. (R381) -/
  | powerOnReset
  /-- A rail below its threshold for 1 µs asserts reset. (R381) -/
  | brownOutReset (rail : Fin 14)
  /-- reset_n low for 1 µs asserts reset. (R381) -/
  | pinReset
  /-- An unserviced Keystone watchdog asserts reset after 2 s. (R381) -/
  | watchdogReset
  /-- 10 µs after a SYS.RESET reply, reset is asserted. (R382) -/
  | softwareReset
  /-- PKG_RESET on the enabled debug port asserts reset. (R434) -/
  | debugReset
  /-- A missing or off-frequency reference clock asserts reset. (R381) -/
  | refclkFailureReset
  /-- A lockstep mismatch or a 1 ms bus stall asserts reset. (R381) -/
  | keystoneLockupReset (stall : Bool)
  /-- The last active source ends and release begins. (R381) -/
  | resetSourceEnd (src : Fin 8)
  /-- A clock domain leaves reset in the release order. (R387) -/
  | resetReleaseStep (b : BootRead)
  /-- Start-up training, test, repair, remap and clearing of HBM4 complete. (R391) -/
  | memoryStepsDone (failed : List HCh) (repaired : List (HCh × Nat))
  /-- DONE is set and readiness is reported to every mailbox. (R392) -/
  | startupDone
  /-- A persistent-store journal update completes or fails. (R395) -/
  | storeUpdateDone (ok : Bool)
  /-- A write of GO to MB_CMD submits a mailbox order. (R400) -/
  | mbGo (m : Mb) (v : BitVec 64)
  /-- Every 10 µs Keystone takes pending orders and runs them as one batch. (R404) -/
  | arbitrationSlot
  /-- Returns part, firmware and reset status. (R408) -/
  | sysInfo
  /-- Returns the reset-cause record and clears SEEN bits. (R385) -/
  | sysCause
  /-- Orders a software reset. (R382) -/
  | sysReset
  /-- Stops or resumes the package. (R411) -/
  | sysOffline
  /-- After running entries finish or 100 ms pass, the package is stopped. (R411) -/
  | packageStop
  /-- Persists which view is the driver for the next reset. (R348) -/
  | sysDrv
  /-- Sets whether M3 may issue W orders. (R401) -/
  | sysM3
  /-- Returns a settings record. (R409) -/
  | sysSetread
  /-- Sets CAP_W, MASON_W and SHIFT_EN. (R369) -/
  | pwrCap
  /-- Sets FMIN and FMAX. (R371) -/
  | pwrFreq
  /-- Sets the target state of a power domain. (R363) -/
  | pwrDomain
  /-- Returns power and domain status. (R408) -/
  | pwrStatus
  /-- Supplies coolant inlet temperature and flow. (R376) -/
  | thmCoolant
  /-- Returns sensor and coolant values. (R408) -/
  | thmStatus
  /-- Persists the interleave mode for the next reset. (R277) -/
  | memIntlv
  /-- Orders a Quarry unit to change kind. (R297) -/
  | memQkind
  /-- Returns memory configuration and channel status. (R408) -/
  | memStatus
  /-- Writes SPAN_ID with VALID set. (R307) -/
  | spanId
  /-- Writes port configuration shadows and commits them. (R312) -/
  | spanPorts
  /-- Writes the Plumb tree configuration and commits it. (R342) -/
  | spanPlumb
  /-- Clears a port's retired-lane records. (R321) -/
  | spanPortclr
  /-- Sends one M3 access to another package and waits for its response. (R407) -/
  | spanSend
  /-- Writes entries of a pending route bank. (R329) -/
  | spanRoute
  /-- Writes SPAN_RAT and GO for a route switch. (R329) -/
  | spanSwitch
  /-- Sets ROUTE_EN and PROTO_ACT. (R332) -/
  | spanCtl
  /-- Returns Span and port status. (R408) -/
  | spanStatus
  /-- Returns a calibration layer. (R415) -/
  | calRead
  /-- Sets a tower's user VCORE offset. (R415) -/
  | calVoff
  /-- Sets a port's user PLUMB_ASYM value. (R415) -/
  | calAsym
  /-- Starts recalibration of HBM channels. (R291) -/
  | calHbm
  /-- Every named channel has recalibrated, so the order completes. (R291) -/
  | calHbmDone
  /-- Empties the user calibration layer. (R415) -/
  | calClear
  /-- Writes data into the body of the inactive slot. (R412) -/
  | fwWrite (ok : Bool)
  /-- Checks and writes the slot header. (R412) -/
  | fwSeal (digestOk sigOk ok : Bool)
  /-- Names a slot for trial in RESET or LIVE mode. (R413) -/
  | fwActivate
  /-- A live handover ends with the new image running or falling back. (R414) -/
  | fwHandoverDone (convOk : Bool)
  /-- Commits the running trial slot and its converted settings. (R413) -/
  | fwCommit
  /-- An AUTO image commits itself at DONE or 1 s after handover. (R413) -/
  | fwAutoCommit
  /-- Returns slot headers and the activation journal. (R408) -/
  | fwStatus
  /-- Returns RAS state of units. (R408) -/
  | rasRead
  /-- Retires a unit as if its threshold were crossed. (R420) -/
  | rasRetire
  /-- Removes a unit's retirement record for the next reset. (R420) -/
  | rasClear
  /-- Sets the rolling self-test period and class mask. (R417) -/
  | testCfg
  /-- Queues a unit for self-test ahead of the rotation. (R417) -/
  | testRun
  /-- Returns the self-test state and recent outcomes. (R408) -/
  | testStatus
  /-- Every PERIOD ms, Keystone takes the next unit into test. (R417) -/
  | selfTestRotation
  /-- A unit's test ends with pass, return or retirement. (R418) -/
  | selfTestDone (pass : Bool)
  /-- Sets a module channel's EN and ILIM. (R377) -/
  | modSet
  /-- Writes CLR for a module channel. (R380) -/
  | modClr
  /-- Returns the control and status of every module channel. (R408) -/
  | modStatus
  /-- A write of RPTR is taken only within the ring bound. (R421) -/
  | mbRasRptrWrite (m : Mb) (v : BitVec 16)
  /-- An I3C private write sets the page offset and writes mailbox words. (R431) -/
  | i3cPrivateWrite (data : List Byte)
  /-- An I3C private read returns page bytes from the offset. (R431) -/
  | i3cPrivateRead (n : Nat)
  /-- JTAG instruction that returns the identification code. (R434) -/
  | idcode
  /-- JTAG bypass instruction. (R434) -/
  | bypass
  /-- JTAG boundary sample instruction. (R434) -/
  | sample
  /-- Boundary scan of pads while reset_n is low. (R434) -/
  | extest (pads : List (Nat × Bool))
  /-- Halts both Keystone cores and the watchdog. (R434) -/
  | dbgHalt
  /-- dbg_en falling ends a debug halt. (R434) -/
  | dbgEnFall
  /-- A write to a register that has no row of its own updates its fields by access type. (R7) -/
  | registerWrite (t : RegTarget) (size : Nat) (v : BitVec 64)
  /-- VAON falls below 0.60 V, so the package loses all state including the reset-cause record, and the next rise is a power-on. (R381) -/
  | powerLoss
  /-- buttress_n returns high, clearing ALERT and starting the 1 ms that ends Buttress. (R374) -/
  | buttressNRise
  /-- dbg_en rises and enables the debug port's PKG_RESET and DBG_HALT instructions. (R434) -/
  | dbgEnRise
  /-- PCIe link training completes, so HOST_CFG LINK becomes 1 and outbound requests may be issued again. (R345) -/
  | pcieLinkUp
  /-- A host configuration write sets Bus Master Enable, MSI-X Enable, the Completion Timeout Value or the D-state of the endpoint. (R353) -/
  | pcieConfigWrite (cmd : PcieCmd) (dev : PcieDev) (cap : PcieCap) (aer : PcieAer)
  /-- The Mason OS stops all 18 harts of a cluster, so a WAITING Mason cluster domain enters POWERING_DOWN. (R363) -/
  | masonHartsStopped (m : Fin 8)
  /-- The I3C controller assigns the target its dynamic address by SETDASA or ENTDAA. (R430) -/
  | dynamicAddressAssignment (a : BitVec 7)
deriving DecidableEq, Repr

end Sys2Proof
end

