-- ==== Sys2Proof/Decode.lean ====
section
/-!
DEFINITION. The words of commands. The table of operations and events gives no row any bits, so no word spells a command: commands
come from the queue of State as they are.
-/

namespace Sys2Proof

/-- The command that a word of the table spells: none, since the table gives bits to no row. -/
def decodeTableWord (_nbits _w : Nat) : Option Instr := none

end Sys2Proof
end

