-- ==== Sys2Proof/Config.lean ====
section
/-!
DEFINITION. What the manual leaves open. Every constant of this file is opaque: it has no body, so a
theorem about the model holds for every value it could have.
-/

namespace Sys2Proof.Config

/-- The free values: where the manual leaves a value undefined and the part goes on (R5), the step takes
`freeBits w k` for the current value `k` of the free-value counter of State (log entry 3). -/
opaque freeBits (w : Nat) : Nat → BitVec w

/-- The set function `h` of the HOME and VICTIM units, "a fixed function that spreads consecutive lines over
all sets" (R294). The manual gives no formula. (DESIGN CHOICE: log entry 24.) -/
opaque quarryHash : Nat → Nat

/-- The set of an RLC line, of 32,768 (R299 names the number of sets and no function). (DESIGN CHOICE: log entry 24.) -/
opaque rlcSet : Nat → Nat

/-- How long after GO, given in ns, a granule changes to the entry of an OWNCMD at the homes of a tower (R260: an instant
between GO and the clearing of BUSY, in no fixed order). (DESIGN CHOICE: log entry 27.) -/
opaque ownDelay (granule tower go : Nat) : Nat

/-- The factor `1 - exp (-x)` of the thermal model for x in thousandths (R376): the manual gives the real
function, not the rounding of the controller's arithmetic. (DESIGN CHOICE: log entry 29.) -/
opaque thermalStep : Rat → Rat

/-- The temperature that the thermal model gives to the hottest compute sensors, from its plate state, the coolant rise and
the inlet (R376 moves the plate toward the sensors by 1/64 of "the difference" and gives no formula for it). (DESIGN CHOICE: log entry 29.) -/
opaque modelSensor (plate rise inlet : Rat) : Rat

/-- The change of rate, in parts per million, by which a following package steers its count for an offset in sixteenths of a
nanosecond; R341 gives its bound of 200 and no law. (DESIGN CHOICE: log entry 30.) -/
opaque plumbSteer : Rat → Int

/-- The rounding of an offset to the units of PLUMB_STAT OFFSET (R340, Table 10.21 give none). (DESIGN CHOICE: log entry 30.) -/
opaque offsetRound : Rat → Int

/-- The bytes of a flit's body that no packet fills, by SEQ and position, and the sixteenth of a nanosecond at which a flit
leaves within a nanosecond of the count (R313, Table 10.9 give neither). (DESIGN CHOICE: log entry 40.) -/
opaque flitFill : BitVec 16 → Nat → BitVec 8
opaque flitPart : BitVec 64 → BitVec 4

/-- The bytes of the header of the factory image, but for its PROTO (R339, Table 14.21). (DESIGN CHOICE: log entry 86.) -/
opaque factoryHeader : Nat → BitVec 8

/-- Factory calibration, read-only (R415): measured values that the manual does not fix. -/
opaque factoryVoff : Nat → Int
opaque thetaJc : Nat → Rat
opaque thetaCp : Rat
opaque tauCp : Rat
opaque serialNumber : BitVec 64
/-- The bytes of an order's result whose contents a command table lists without a layout (R408): byte `i` of result `verb` of
`group` for the listed values, and the length of a result of no stated length. (DESIGN CHOICE: log entry 34.) -/
opaque resultByte (group verb : Nat) (vals : List Nat) (i : Nat) : BitVec 8
opaque resultLen (group verb : Nat) (vals : List Nat) : Nat
/-- The IEEE 1149.1 identification code (R434 gives none). -/
opaque idcode : BitVec 32
/-- Fields of the running and stored firmware images that the manual leaves to the image. -/
opaque partAndStepping : BitVec 64

end Sys2Proof.Config
end

