-- ==== Sys2Proof/Machine/State.lean ====
section
/-!
DEFINITION. The state of the AK4800: every register, memory, buffer, queue, counter, mode and pin that the
manual gives the package, the queue of waiting commands, and the model's own clock and free-value counter.
A default value of a field is the field's value right after reset. A `Tab` lists only the entries that differ
from the reset value of one entry.
-/

namespace Sys2Proof.Machine

/-! ## The core (chapters 2 to 5) -/

/-- A hardware loop register (Table 5.1, R144); `start` is the address of the first body word, implied. (DEDUCED: log entry 16.) -/
structure LoopReg where
  active : Bool := false
  index : BitVec 32 := 0
  count : BitVec 32 := 0
  start : BitVec 64 := 0
  last : BitVec 64 := 0
deriving DecidableEq, Repr

/-- The sequencer registers of Table 5.1. s0 and a0 are never listed. (DESIGN CHOICE: log entry 1.) -/
structure SeqRegs where
  s : Tab (BitVec 64) := []
  a : Tab (BitVec 64) := []
  lc : Tab LoopReg := []
  pc : BitVec 64 := 0
  began : Bool := false
deriving DecidableEq, Repr

/-- A function table slot's image (R119, Table 4.12): `bytes` are the image bytes from offset 0. -/
structure FTable where
  ib : BitVec 4
  bytes : List Byte
deriving DecidableEq, Repr

/-- A shadow slot: loading from a scratchpad offset, or loaded and awaiting COMMIT (R119, R169). -/
structure FShadow where
  src : BitVec 22
  ib : BitVec 4
  loaded : Option FTable
deriving DecidableEq, Repr

/-- The storage of a core: scratchpad bytes, accumulator words (key 4,096 q + 64 i + j), vector register lanes
(key 256 r + lane), generator states that have moved from their seed, and function tables. -/
structure CoreMem where
  spad : List Host.Cell := []
  acc : Tab (BitVec 32) := []
  vreg : Tab (BitVec 64) := []
  genSeed : BitVec 16 := 0
  gens : Tab (BitVec 16) := []
  tables : Tab (Option FTable) := []
  shadow : Tab (Option FShadow) := []
deriving DecidableEq, Repr

/-- The core register block of Table 5.10. CORE_ID is computed from the core number. -/
structure CoreRegs where
  cfg : BitVec 32 := 0x3
  cfgShadow : BitVec 32 := 0x3
  seed : BitVec 32 := 0
  seedShadow : BitVec 32 := 0
  commitPend : Bool := false
  fpstat : BitVec 32 := 0
  waitcyc : BitVec 32 := 0
  spadErr : BitVec 32 := 0
  fault0 : BitVec 32 := 0
  fault1 : BitVec 32 := 0
  fault2 : BitVec 32 := 0
  fault3 : BitVec 32 := 0
  fault4 : BitVec 32 := 0
  ashErr : Tab (BitVec 32) := []
  chsErr : BitVec 32 := 0
  chsFault0 : BitVec 32 := 0
  chsFault1 : BitVec 32 := 0
  chsFault2 : BitVec 32 := 0
  chsDirect : BitVec 32 := 0
  coreDirect : BitVec 32 := 0
  ecode : Tab (BitVec 32) := []
  ucnt : Tab (BitVec 32) := []
deriving DecidableEq, Repr

/-- The engine instructions, as held operations name them. -/
inductive EngKind where
  | amm
  | chn
  | cfold
  | ctbl
deriving DecidableEq, Repr

/-- An operation in a hold slot (R150, Table 5.24 at 0x400): its words, its dispatch number, the address of its
instruction, and the register values read at issue in the order the instruction names them. -/
structure HeldOp where
  kind : EngKind
  w0 : BitVec 64
  w1 : BitVec 64
  disp : Nat
  pc : BitVec 64
  vals : List (BitVec 64)
  direct : Bool
deriving DecidableEq, Repr

/-- How far an accepted operation has come. -/
inductive OpStage where
  | checked
  | running
  | finished
deriving DecidableEq, Repr

/-- An accepted engine operation (R78, R81, R98, R111): what the engine read at acceptance, the accumulator
tiles it still claims, the tiles it has still to drain (positions in processing order), its code, and the scratchpad as it
stood then (`seen`), from which what was written meanwhile is told (R62, R111). (DESIGN CHOICE: log entry 14.) -/
structure RunOp where
  op : HeldOp
  stage : OpStage
  tiles : List Nat
  drains : List Nat
  code : Code
  desc : List Byte
  ofds : List (BitVec 128)
  luts : List (List Byte)
  skips : List (BitVec 64)
  tables : List (Option FTable)
  epoch : Nat
  seen : List Host.Cell := []
deriving DecidableEq, Repr

/-- Where a translated access goes (R247, R306): a local offset, a global address of another package, or a
PCIe bus address. -/
inductive Target where
  | loc (off : Nat)
  | remote (ga : BitVec 64)
  | bus (addr : Nat)
deriving DecidableEq, Repr

/-- The translation of an access (R250 to R254, R268). A search in progress holds the RTBASE, EN and MDBASE it began
with (R257). -/
inductive XSt where
  | miss
  | searching (base : Nat) (log2n : Nat) (en : Bool) (md : BitVec 64)
  | target (t : Target) (nc : Bool)
  | page (t : Target) (nc : Bool) (md : Nat) (pg : Nat)
  | fault (code : Code) (cause : BitVec 3)
deriving DecidableEq, Repr

/-- The kinds of sequencer access (R146). -/
inductive AccKind where
  | fetch
  | load
  | store
  | atomic
  | flag
deriving DecidableEq, Repr

/-- An outstanding sequencer access (R148): its number, register, operands and translation. -/
structure Access where
  id : Nat
  kind : AccKind
  va : BitVec 64
  size : Nat
  sd : BitVec 5
  sx : Bool
  func : BitVec 4
  data : BitVec 64
  cmp : BitVec 64
  pc : BitVec 64
  x : XSt
  issued : Nat
deriving DecidableEq, Repr

/-- A line of the combining buffer (R301): its global line address, the bytes stored by byte offset, and the
instruction and virtual address of its first store. -/
structure CombLine where
  line : BitVec 64
  bytes : Tab (Option Byte)
  nc : Bool
  pc : BitVec 64
  va : BitVec 64
deriving DecidableEq, Repr

/-- A queued DMA descriptor (Table 5.7), its dispatch number and the address of its DMA instruction. -/
structure DmaDesc where
  raw : BitVec 512
  disp : Nat
  pc : BitVec 64
deriving DecidableEq, Repr

/-- What a DMA channel does with its head descriptor (R164, R165). -/
inductive DmaPhase where
  | idle
  | timed
  | moving
  | signalling
  | stopped
deriving DecidableEq, Repr

/-- The value that the scratchpad gave an LDS ahead of it, on the predicted path of a branch (R142). -/
structure Prefetched where
  pc : BitVec 64
  word : BitVec 56
  value : BitVec 64
deriving DecidableEq, Repr

/-- A DMA channel (R162): its queue, head first, and the progress (plane, row, byte) of the head; `xs` is the search
it waits for, `xw` the page on its way that it waits for. -/
structure DmaChan where
  queue : List DmaDesc := []
  phase : DmaPhase := .idle
  plane : Nat := 0
  row : Nat := 0
  byte : Nat := 0
  xs : XSt := .miss
  xw : XSt := .miss
  code : Code := 0
  seen : List Host.Cell := []
deriving DecidableEq, Repr

/-- A wait that has stopped issue (R140, R147, R153, R155, R157). -/
inductive WaitSt where
  | fence
  | waite (mask : BitVec 9) (n : BitVec 2)
  | waitf (word : BitVec 64) (acc : Access) (seen : Bool) (sd : BitVec 5) (cond : BitVec 3) (w64 : Bool) (value deadline : BitVec 64) (hasDl : Bool)
  | waitp (word target : BitVec 64)
deriving DecidableEq, Repr

/-- The stream detector of one RLC requester (R300). -/
structure Stream where
  last : BitVec 64 := 0
  run : Nat := 0
deriving DecidableEq, Repr

/-- A lookaside buffer entry (R251): the range entry, its CTX, its table index, and for MIG = 1 the migration
descriptor, the MDCNT_M1 of its search and up to 8 pages seen LOCAL, the newest first. -/
structure LbEntry where
  ctx : Nat
  idx : Nat
  entry : BitVec 256
  desc : BitVec 256
  mdc : Nat
  pages : List Nat
deriving DecidableEq, Repr

/-- What a core is doing for the scheduler (R180, R222, R225, R230, R238, R239, R365). -/
inductive CorePhase where
  | free
  | granted
  | prepared
  | running
  | saving
  | restoring
  | testing
  | powerClaimed
  | returning
deriving DecidableEq, Repr

/-- The kernel-ending fault pending on a core (R174): code, source, unit, instruction address, address. -/
structure KFault where
  code : Code
  src : BitVec 3
  unit : BitVec 2
  pc : BitVec 64
  addr : BitVec 64
deriving DecidableEq, Repr

/-- One core. `genEpoch` counts the COMMITs, so that an operation accepted before one finishes on the generator
states it began with, which `oldGens` keeps (R49). `errs` lists the corrected errors of the last second as a source
(an Ashlar engine, 4 for Chisel, 8 + a scratchpad bank) and a time (R105, R161). (DESIGN CHOICE: log entry 1.) (DESIGN CHOICE: log entry 22.) -/
structure CoreSt where
  regs : SeqRegs := {}
  mem : CoreMem := {}
  cr : CoreRegs := {}
  dispNo : Nat := 0
  hold : Tab (Option HeldOp) := []
  ops : Tab (List RunOp) := []
  dma : Tab DmaChan := []
  accs : List Access := []
  nextAcc : Nat := 0
  fetchX : XSt := .miss
  comb : List CombLine := []
  wait : Option WaitSt := none
  streams : Tab Stream := []
  genEpoch : Nat := 0
  oldGens : List (Nat × BitVec 16 × Tab (BitVec 16)) := []
  rlb : List LbEntry := []
  prefetch : List Prefetched := []
  phase : CorePhase := .free
  gang : Option Nat := none
  ctx : Nat := 0
  lastCtx : Option Nat := none
  ended : Bool := false
  fault : Option KFault := none
  stop : Bool := false
  retired : Bool := false
  retireDue : Bool := false
  retiredAgain : Bool := false
  mortarGone : Bool := false
  errs : List (Nat × Nat) := []
deriving DecidableEq, Repr

/-! ## Queues, entries and packets (chapter 6) -/

/-- What an issued packet is doing. -/
inductive PktSt where
  | issued
  | dispatched (gang : Nat)
  | waiting
  | pooled
  | retrying
  | performed (code : Code)
  | done
deriving DecidableEq, Repr

/-- An issued packet of a running buffer: byte offset, opcode, slot, its bytes, when it reached the head of issue, its
stage and when it issued. -/
structure PktRun where
  off : Nat
  op : BitVec 8
  slot : Nat
  raw : List Byte
  issued : Nat
  st : PktSt
  since : Nat := 0
deriving DecidableEq, Repr

/-- The stages of a node of an entry (R207); a node that lost a core and may run again is `restarting` (R235). -/
inductive NodeSt where
  | pending
  | running
  | restarting
  | done
deriving DecidableEq, Repr

/-- One node of a running entry: its record (Table 6.22), its progress, the slots named and posted, and when the packet
at the head of issue reached it (R220). -/
structure NodeRun where
  idx : Nat
  buf : BitVec 64
  len : Nat
  atOff : BitVec 64
  restart : Bool
  st : NodeSt
  next : Nat
  named : BitVec 32
  posted : BitVec 32
  pkts : List PktRun
  first : Bool
  redisp : Nat
  headAt : Option Nat
deriving DecidableEq, Repr

/-- The first fault of an entry (R211, Table 6.25). -/
structure EntryFault where
  code : Code
  node : BitVec 16
  poff : BitVec 32
  unit : BitVec 32
  regs : List (BitVec 32)
deriving DecidableEq, Repr

/-- The running entry of a queue (R188, R190). -/
structure EntryRun where
  raw : List Byte
  readable : Bool
  idx : BitVec 16
  tStart : BitVec 64
  started : Bool
  nodes : List NodeRun
  edges : List (Nat × Nat × Bool)
  handle : BitVec 64
  image : BitVec 64
  verno : BitVec 32
  pinned : Bool
  hang : Nat
  fault : Option EntryFault
  checkFailed : Bool
deriving DecidableEq, Repr

/-- A queue (Tables 6.2 to 6.8). QCTL resets to PRIO 0b10 and LOG2SZ 4. -/
structure Queue where
  ctl : BitVec 32 := 0x24000000
  hang : BitVec 32 := 0
  base : BitVec 64 := 0
  cst : BitVec 64 := 0
  wptr : BitVec 16 := 0
  rptr : BitVec 16 := 0
  guilty : Bool := false
  resetting : Bool := false
  fullrej : Bool := false
  grej : Bool := false
  cause : Code := 0
  run : Option EntryRun := none
deriving DecidableEq, Repr

/-- A context's registers: event block, save area, translation block (Tables 6.26 to 6.28, 7.2, 8.4 to 8.8,
8.12), the image slots in use, a second invalidation asked for, and when the one in progress began (R256). -/
structure Ctx where
  cevctl : BitVec 32 := 0x04000000
  cevptr : BitVec 32 := 0
  cevbase : BitVec 64 := 0
  csave : BitVec 64 := 0
  rtbase : BitVec 64 := 0
  mdbase : BitVec 64 := 0
  xctl : BitVec 32 := 0
  inv2 : Bool := false
  invAt : Nat := 0
  xfault0 : BitVec 32 := 0
  xfault1 : BitVec 64 := 0
  migstat : BitVec 32 := 0
  slots : List Nat := []
deriving DecidableEq, Repr

/-! ## Scheduling and pools (chapter 7) -/

/-- The stages of a gang, all kernels of one DISPATCH (R222, R225, R230). -/
inductive GangSt where
  | waiting
  | granted
  | prepared
  | running
  | saving
  | saved
  | restoring
  | stopped
deriving DecidableEq, Repr

/-- What a save image has no bytes for, kept beside the gang (log entry 12): the starts of the loops, the dispatch
numbers and instruction addresses of the queued DMA descriptors, and the instruction addresses of held operations. -/
structure Hidden where
  starts : List (BitVec 64)
  dma : List (List (Nat × BitVec 64))
  holds : List (BitVec 64)
  commit : Bool
deriving DecidableEq, Repr

/-- One DISPATCH from its issue to its completion. `cores` lists rank and core (R223), `ended` the ranks whose kernel
has ended with its code, `slots` rank and image slot, `hidden` rank and what the image leaves out, and `pkt` the packet. (DESIGN CHOICE: log entry 22.) -/
structure Gang where
  id : Nat
  queue : Nat
  ctx : Nat
  node : Nat
  off : Nat
  want : Nat
  entry : BitVec 64
  inl : List Byte
  inlOff : BitVec 22
  sregs : List (Nat × BitVec 64)
  reach : Nat
  release : Option (BitVec 64)
  st : GangSt
  cores : List (Nat × Nat)
  started : Nat
  ended : List (Nat × Code)
  slots : List (Nat × Nat)
  hidden : List (Nat × Hidden)
  pkt : List Byte
deriving DecidableEq, Repr

/-- A pool packet waiting for its epoch (R242 to R244). -/
structure PoolReq where
  queue : Nat
  node : Nat
  off : Nat
  alloc : Bool
  wait : Bool
  count : Nat
  addr : BitVec 64
  res : BitVec 64
  issued : Nat
  since : Nat := 0
deriving DecidableEq, Repr

/-- A block pool (Tables 7.6 to 7.10). POOLCTL resets to LOG2BS 0x0E. `steps` lists the epochs that have ended and whose steps
are still to run, each with how many requests at the head of `reqs` it has and whether the pool closes with it (R241, R242). -/
structure Pool where
  ctl : BitVec 32 := 0x0E000000
  cnt : BitVec 32 := 0
  base : BitVec 64 := 0
  pmeta : BitVec 64 := 0
  busy : Bool := false
  free : BitVec 21 := 0
  closing : Bool := false
  reqs : List PoolReq := []
  steps : List (Nat × Bool) := []
deriving DecidableEq, Repr

/-! ## Memory (chapters 8 and 9) -/

/-- The two markers of a lost line (R272, R283). -/
inductive Lost where
  | row
  | channel
deriving DecidableEq, Repr

/-- A page in migration (R268, R269); `va` is the first virtual address of the page. -/
structure Migr where
  tower : Nat
  ctx : Nat
  src : Target
  dest : Nat
  mapWord : Nat
  page : Nat
  va : BitVec 64
deriving DecidableEq, Repr

/-- A row remap entry of a channel (R281). -/
structure Remap where
  pc : Nat
  bank : Nat
  row : Nat
  spare : Nat
deriving DecidableEq, Repr

/-- An HBM channel (Table 9.9 and the histories of Table 9.8). `noStore` marks a span that received no slot
and `targets` the spill targets; `runLost` says that the span was lost at run time, and `winKept` that the channel was
retired after its return, so that its window stays, without storage, until the next reset (R288, R289). -/
structure HbmChan where
  stat : BitVec 32 := 0
  remaps : List Remap := []
  rowErrs : List (Nat × Nat) := []
  uncErrs : List (Nat × Nat) := []
  linkErrs : List Nat := []
  needRemap : List Nat := []
  retraining : Bool := false
  attempts : Nat := 0
  recal : Nat := 0
  recalTry : Nat := 0
  recalWait : Bool := false
  lastRecal : Nat := 0
  lastTemp : Int := 0
  offline : Bool := false
  targets : List Nat := []
  runLost : Bool := false
  noStore : Bool := false
  winKept : Bool := false
  retireDue : Bool := false
deriving DecidableEq, Repr

/-- A line held in a HOME or VICTIM unit (R294, R295) with the CTX and MODE of its fill (R261). -/
structure QLine where
  line : BitVec 64
  data : BitVec 512
  lost : Option Lost
  ctx : Nat
  own : BitVec 16
deriving DecidableEq, Repr

/-- A line of a Remote Line Cache (R299 to R301, R261) and the way of its set that holds it (R304). -/
structure RlcLine where
  line : BitVec 64
  way : Nat
  data : BitVec 512
  lost : Option Lost
  dirty : Bool
  pf : Bool
  ctx : Nat
  own : BitVec 16
deriving DecidableEq, Repr

/-- A tower: its Quarry units, its RLC (every line list is in order of use, latest first), the ways retired,
the corrected-error histories and its power registers. -/
structure TowerSt where
  part : BitVec 32 := 0x0000FFFF
  changing : List (Nat × Nat) := []
  home : List QLine := []
  victim : List QLine := []
  unitErrs : List (Nat × Nat) := []
  rlcCtl : BitVec 32 := 0xC0100000
  rlc : List RlcLine := []
  waysOff : List Nat := []
  wayErrs : List (Nat × Nat) := []
  retired : Bool := false
  budget : Rat := 0
  throttle : Rat := 1
  limit : Rat := 3000
  waitReg : BitVec 10 := 0
  vset : Nat := 750
  vtarget : Nat := 750
  silent : Bool := false
  coreCyc : Nat := 0
  busyCyc : Nat := 0
deriving DecidableEq, Repr

/-! ## Lintel and Mortar (chapter 1) -/

/-- A Mortar field: groups steered to spares, as (group, spare), spares not available, CRC failures, and a
group whose steering stall runs. -/
structure Mortar where
  steered : List (Nat × Nat) := []
  fails : List (Nat × Nat) := []
  steering : Option Nat := none
  gone : Bool := false
deriving DecidableEq, Repr

/-- A Lintel link (R27 to R31): lanes lost, spares in use as (lane, spare), whether it runs on 8 lanes, is held
for a remap, retrains, or is retired; `replay` lists, as core and access number, the requests that waited in its retry
buffer when it was retired and go first on their new route (R30). -/
structure Lintel where
  bad : List Nat := []
  mapped : List (Nat × Nat) := []
  errs : List (Nat × Nat) := []
  pendRemap : List Nat := []
  retraining : Bool := false
  holding : Bool := false
  half : Bool := false
  retired : Bool := false
  replay : List (Nat × Nat) := []
deriving DecidableEq, Repr

/-! ## The Span (chapter 10) -/

/-- The states of a port (Table 10.4). -/
inductive PortState where
  | disabled
  | training
  | held
  | up
  | retrain
  | down
  | mismatch
deriving DecidableEq, Repr

/-- The states of a lane (Table 10.6), with the number of attempts made in RETRAIN. -/
inductive LaneSt where
  | active
  | idle
  | retrain (attempts : Nat)
  | retired
deriving DecidableEq, Repr

/-- A flit kept for replay (R315): its packet bytes, and the packets that end in it. -/
structure Flit where
  seq : BitVec 16
  resent : Nat
  body : List Byte
  pkts : List SpanPkt
deriving DecidableEq, Repr

/-- A flit as it left a port (R313, Table 10.9): its header, the 240 bytes of its body and its CRC. -/
structure WireFlit where
  hdr : BitVec 64
  body : List Byte
  crc : BitVec 64
deriving DecidableEq, Repr

/-- A Span port (Tables 10.5 to 10.8, 10.22) with its link-level state. `outq` holds each packet that waits at the output with the
instant since which it waits at this package and the input that it came by, 18 for this package; `inbox` the packets received,
with their instants; `rr` the input served last of each VC, and `owed` the credits to return (R316); `sent` the flits that
left; `leaving` the lanes that leave in the hold begun at `holdAt`, and `pendLeave` those that each need a hold of their own
(R319); `ret` the sum and number of the stamps whose mean was last returned to the neighbour (R340). -/
structure PortSt where
  cfg : BitVec 32 := 0
  cfgShadow : BitVec 32 := 0
  st : PortState := .disabled
  width : BitVec 2 := 0
  dcause : BitVec 3 := 0
  pver : BitVec 8 := 0
  lanes : Tab LaneSt := []
  peer : Option PeerInfo := none
  replays : BitVec 16 := 0
  uncorr : BitVec 8 := 0
  drops : BitVec 8 := 0
  asym : BitVec 16 := 0
  rxNext : BitVec 16 := 0
  rxNak : Bool := false
  txNext : BitVec 16 := 0
  retry : List Flit := []
  credits : Tab Nat := []
  holding : Bool := false
  leaving : List Nat := []
  pendLeave : List Nat := []
  attempts : Nat := 0
  wasHeld : Bool := false
  downAt : Nat := 0
  leaves : List (Nat × Nat) := []
  outq : List (SpanPkt × Nat × Nat) := []
  stampSum : Int := 0
  stampCnt : Nat := 0
  inbox : List (SpanPkt × Nat) := []
  rr : Tab Nat := []
  owed : Tab Nat := []
  sent : List WireFlit := []
  holdAt : Nat := 0
  ret : Option (Int × Nat) := none
deriving DecidableEq, Repr

/-- Who waits for a request that left the package (R336, R353): a sequencer access by its number, a store that
left the combining buffer, a DMA channel, the SPAN.SEND of a mailbox, a Mason core, the write-back of a dirty line of
a context (R303), or nobody, where the request was answered by the command that made it (log entry 5). -/
inductive RemUser where
  | seq (c : Core) (id : Nat)
  | store (c : Core) (pc va : BitVec 64)
  | dma (c : Core) (ch : Fin 4) (va : BitVec 64)
  | send (mb : Nat)
  | mason (write : Bool) (addr : Nat)
  | wback (x : Nat)
  | answered
deriving DecidableEq, Repr

/-- A request in flight to another package (R336); `port` is the output that it left by, once it has left. -/
structure RemReq where
  tag : BitVec 18
  user : RemUser
  hall : Bool
  issued : Nat
  pkt : SpanPkt
  port : Option Nat
deriving DecidableEq, Repr

/-- The Span registers of the package and its route tables (Tables 10.2, 10.14 to 10.18). DROUTE has key
256 bank + package, HROUTE 512 bank + domain. -/
structure SpanSt where
  id : BitVec 32 := 0
  routeEn : Bool := false
  protoAct : BitVec 8 := 0
  protoImpl : BitVec 8 := 0
  rtbusy : Bool := false
  pend : Bool := false
  actep : Bool := false
  rat : BitVec 64 := 0
  drainFrom : Option Nat := none
  droute : Tab (BitVec 32) := []
  hroute : Tab (BitVec 32) := []
  ports : Tab PortSt := []
  reqs : List RemReq := []
  nextTag : BitVec 18 := 0
  sent : List (SpanPkt × Nat) := []
  delivered : List SpanPkt := []
deriving DecidableEq, Repr

/-- Plumb time (Tables 10.20, 10.21; R340 to R342). -/
structure PlumbSt where
  count : BitVec 64 := 0
  running : Bool := false
  cfg : BitVec 32 := 0x7FE00000
  cfgShadow : BitVec 32 := 0x7FE00000
  locked : Bool := false
  holdover : Bool := false
  src : Bool := false
  stepped : Bool := false
  offset : BitVec 16 := 0
  everLocked : Bool := false
  stuck : Bool := false
  goodSince : Option Nat := none
  badSince : Option Nat := none
  firstHeld : Option Nat := none
  step8 : Option Nat := none
  rate : Int := 0
  frac : Int := 0
deriving DecidableEq, Repr

/-! ## The host port and Mason (chapter 11) -/

/-- An interrupt message that left the package (R351): the vector and the entry it used. -/
structure IrqMsg where
  vec : BitVec 11
  addr : BitVec 64
  data : BitVec 32
deriving DecidableEq, Repr

/-- An outbound request at the host port (R352, R353), with its context and when it was issued. -/
structure OutReq where
  id : Nat
  ctx : Nat
  issued : Nat
  addr : Nat
  write : Option (List Byte)
  len : Nat
  user : RemUser
deriving DecidableEq, Repr

/-- A posted write of the host that waits at the port (R350): to BAR2, with the HOST_WIN value at its arrival (R349), or to BAR0. (DESIGN CHOICE: log entry 92.) -/
inductive Posted where
  | window (win : BitVec 64) (off : Nat) (bs : List Byte)
  | register (off size : Nat) (v : BitVec 64)
deriving DecidableEq, Repr

/-- The host port and the Mason complex (Tables 11.1, 11.3, 11.4; R351, R355). A vector table entry is the
16-byte MSI-X entry; its reset value is masked (log entry 7). (DESIGN CHOICE: log entry 77.) -/
structure HostSt where
  drv : Bool := false
  link : Bool := false
  cfg : PcieCfg := {}
  cfgReady : Bool := false
  win : BitVec 64 := 0
  msix : Tab (BitVec 128) := []
  pba : Tab Bool := []
  mason : Tab (BitVec 128) := []
  masonPend : Tab Bool := []
  sent : List IrqMsg := []
  outs : List OutReq := []
  nextOut : Nat := 0
  imsic : Tab (BitVec 32) := []
  bar2Data : List Byte := []
  posted : List Posted := []
  masonData : List Byte := []
  masonFault : Bool := false
deriving DecidableEq, Repr

/-! ## Power (chapter 12) -/

/-- The states of a power domain (Table 12.3). -/
inductive DomState where
  | off
  | poweringUp
  | on
  | poweringDown
  | waiting
deriving DecidableEq, Repr

/-- A power domain (Table 12.3) with what it saved at power-down. -/
structure Dom where
  st : DomState := .on
  target : Bool := true
  count : BitVec 16 := 0
  saved : List (BitVec 32) := []
deriving DecidableEq, Repr

/-- A core group's clock (R367, R368, R373). -/
structure GroupClk where
  step : Nat := 0
  target : Nat := 0
  blocked : Bool := false
  soft : Bool := false
  lastChange : Option Nat := none
deriving DecidableEq, Repr

/-- The states of a module channel (Table 12.13). -/
inductive ModState where
  | off
  | queued
  | ramp
  | on
  | latched
  | retired
deriving DecidableEq, Repr

/-- A module power channel (Tables 12.12, 12.13; R377 to R380). -/
structure Mod where
  en : Bool := false
  ilim : BitVec 8 := 0x78
  st : ModState := .off
  retries : Nat := 0
  cause : BitVec 2 := 0
  paused : Bool := false
  rampAt : Nat := 0
  windowEnd : Nat := 0
  extended : Bool := false
  inLimit : Bool := false
  limitSince : Nat := 0
  pausedAt : Nat := 0
  latchedAt : Nat := 0
  onAt : Nat := 0
  driven : Bool := false
deriving DecidableEq, Repr

/-- The power controller (Tables 12.6 to 12.9; R373 to R376). (DESIGN CHOICE: log entry 76.) -/
structure PowerSt where
  cap : BitVec 32 := 0xBB8DC800
  capNext : BitVec 32 := 0xBB8DC800
  freq : BitVec 32 := 0x3000
  freqNext : BitVec 32 := 0x3000
  buttress : Bool := false
  alert : Bool := false
  throttle : Bool := false
  stale : Bool := false
  pkgW : BitVec 16 := 0
  budgetOld : Rat := 0
  masonEff : Rat := 220
  highSince : Option Nat := none
  trips : List (Nat × Nat) := []
  inlet : Nat := 720
  flow : Nat := 300
  coolantAt : Nat := 0
  plate : Rat := 0
  sensors : List Int := []
  vmodOk : Bool := true
  masonSlow : Bool := false
  hbmSlow : Bool := false
  groups : Tab GroupClk := []
  doms : Tab Dom := []
  mods : Tab Mod := []
deriving DecidableEq, Repr

/-! ## Reset (chapter 13) -/

/-- Reset and start-up (Tables 13.1 to 13.5); `since` says when each active source was recognised. -/
structure ResetSt where
  active : List Nat := []
  since : List (Nat × Nat) := []
  cause0 : BitVec 32 := 0x01000001
  cause1 : BitVec 32 := 0
  done : Bool := false
  slot : Bool := false
  stage : Nat := 0
  memDone : Bool := false
  recovery : Bool := false
  off : Bool := false
  softDue : Option Nat := none
  softMb : Nat := 0
  railsUp : Bool := true
  late : List (Code × Nat × BitVec 32 × Nat) := []
deriving DecidableEq, Repr

/-! ## Keystone (chapter 14) -/

/-- An order taken from a mailbox (R400 to R405) and its answer so far; `since` is when it started, `busy` says that it waits for
an event, and `wrote` lists the targets it wrote with the values it wrote. -/
structure Order where
  mb : Nat
  group : BitVec 8
  verb : BitVec 8
  persist : Bool
  offline : Bool
  seq : BitVec 16
  args : List Byte
  busy : Bool
  started : Bool
  since : Nat
  code : Code
  refuse : BitVec 8
  res : List Byte
  wrote : List (Nat × Nat)
deriving DecidableEq, Repr

/-- A mailbox page (Table 14.2): the registers, and the bytes of ARG, RES and the RAS ring by page offset; `snap` holds the page
as GO found it (R400). -/
structure Mbox where
  cmd : BitVec 64 := 0
  rsp : BitVec 64 := 0
  ras : BitVec 32 := 0
  rasx : BitVec 32 := 0
  irq : BitVec 32 := 0
  page : List Host.Cell := []
  snap : List Host.Cell := []
deriving DecidableEq, Repr

/-- The settings of Table 14.20. -/
structure Settings where
  drv : Bool := false
  m3w : Bool := true
  cap : BitVec 32 := 0xBB8DC800
  freq : BitVec 32 := 0x3000
  tower : Bool := false
  kinds : Tab (BitVec 16) := []
  spanId : BitVec 32 := 0
  ports : Tab (BitVec 8) := []
  plumb : BitVec 32 := 0x7FE00000
  proto : Option (BitVec 8) := none
  mods : Tab (BitVec 16) := []
  period : Nat := 1000
  mask : BitVec 4 := 0xF
deriving DecidableEq, Repr

/-- A settings record (R409): format version, write count and fields. -/
structure SetRec where
  sver : BitVec 16
  gen : BitVec 32
  val : Settings
deriving DecidableEq, Repr

/-- The activation journal (R396, R413). -/
structure Journal where
  committed : Bool := false
  trial : Option Bool := none
  count : Nat := 0
  auto : Bool := false
deriving DecidableEq, Repr

/-- A firmware slot (R412, Table 14.21): its header, its body and the sectors erased since the header was. -/
structure FwSlot where
  header : Option (List Byte) := none
  sealedOk : Bool := false
  body : List Host.Cell := []
  erased : List Nat := []
deriving DecidableEq, Repr

/-- A two-copy journal (R394): sequence number and payload of each copy; a copy that is being written or
failed is `none`. -/
structure TwoCopy (α : Type) where
  a : Option (BitVec 32 × α) := none
  b : Option (BitVec 32 × α) := none
deriving DecidableEq, Repr

/-- User calibration (Table 14.23). -/
structure UserCal where
  voff : Tab Int := []
  asym : Tab (BitVec 16) := []
deriving DecidableEq, Repr

/-- The retirement, steering and remap records (R26, R281, R394): a retired unit is 2,048 × class + index of its
UNIT_ID, once for each retirement recorded; `returned` are the channels that returned since (R289). -/
structure UnitRecs where
  retired : List Nat := []
  steered : List (Nat × Nat × Nat) := []
  remaps : List (Nat × Remap) := []
  returned : List Nat := []
deriving DecidableEq, Repr

/-- The record that an update of the store writes (R394). -/
inductive StoreOp where
  | settings (slotB : Bool) (r : SetRec)
  | journal (j : Journal)
  | cal (c : UserCal)
  | units (u : UnitRecs)
deriving DecidableEq, Repr

/-- An update of the store in progress or waiting, and the mailbox whose order waits for it (R395, R410). -/
structure StoreUpd where
  op : StoreOp
  order : Option Nat
deriving DecidableEq, Repr

/-- The header of the factory image, which carries Span protocol version 0x01 (R339, Table 14.21). (DESIGN CHOICE: log entry 86.) -/
def factoryHeader : List Byte :=
  (List.range 160).map fun i => if i = 12 then 1 else if 13 ≤ i ∧ i ≤ 15 then 0 else Config.factoryHeader i

/-- The persistent store (Table 15.5, R394): it survives every reset, an update in progress apart. `sincePwr` counts
the retirements of a unit since power-on (R419). Slot A holds the factory image. (DESIGN CHOICE: log entry 86.) -/
structure StoreSt where
  slotA : FwSlot := { header := some factoryHeader, sealedOk := true }
  slotB : FwSlot := {}
  journal : TwoCopy Journal := {}
  setA : TwoCopy SetRec := {}
  setB : TwoCopy SetRec := {}
  cal : TwoCopy UserCal := {}
  units : TwoCopy UnitRecs := {}
  sincePwr : Tab Nat := []
  pend : List StoreUpd := []
  flashOk : Bool := true
deriving DecidableEq, Repr

/-- The rolling self-test (R417); `wasOut` says that the unit under test was retired when it was taken. -/
structure TestSt where
  period : Nat := 1000
  mask : BitVec 4 := 0xF
  pos : Nat := 0
  under : Option Nat := none
  wasOut : Bool := false
  offline : Bool := false
  queued : List (Nat × Bool) := []
  passed : List Nat := []
  outcomes : List (Bool × BitVec 32 × BitVec 64) := []
  orders : List (Nat × Nat) := []
  due : Nat := 0
deriving DecidableEq, Repr

/-- Keystone (chapter 14). `sets` is the settings record as last read or written, `m3w` the M3_W in force, `recs` the unit records in force, and `batch` holds the orders of the running batch in execution order (R404);
`slotAt` is the latest slot that took an order. -/
structure KeySt where
  mb : Tab Mbox := []
  slotAt : Option Nat := none
  batch : List Order := []
  pending : List Order := []
  batchDone : List Order := []
  rseq : BitVec 32 := 0
  sets : Settings := {}
  m3w : Bool := true
  sver : BitVec 16 := 1
  stopping : Bool := false
  stopped : Bool := false
  stopHeld : Bool := false
  stopSince : Nat := 0
  trial : Bool := false
  handover : Bool := false
  autoAt : Option Nat := none
  cal : UserCal := {}
  recs : UnitRecs := {}
  test : TestSt := {}
  halted : Bool := false
  hubIsolated : Bool := false
  masonGone : List Nat := []
  calDefault : Bool := false
deriving DecidableEq, Repr

/-- The pins and serial interfaces of chapter 15. (DESIGN CHOICE: log entry 76.) -/
structure PinSt where
  dbgEn : Bool := false
  jtagIr : BitVec 4 := 0
  jtagOut : List Bool := []
  padDrive : List (Nat × Bool) := []
  i3cAddr : Option (BitVec 7) := none
  i3cStrap : BitVec 2 := 0
  i3cOff : Nat := 0
  i3cOut : List Byte := []
  ibi : List Byte := []
  butLow : Bool := false
  resetLow : Bool := false
deriving DecidableEq, Repr

/-! ## The package -/

/-- The state of the package. `now` counts nanoseconds of the model's clock, `free` is the free-value counter
(log entry 3), `schEpoch` the number of the
latest scheduler epoch, `epochDue` a node boundary since the pool epoch began, `lateEv` the event records that wait for their
page, `ownAt` when
OWNCMD was last started, and `pending` the commands that wait, first in, first out. (DESIGN CHOICE: log entry 22.) (DESIGN CHOICE: log entry 78.) -/
structure State where
  now : Nat
  free : Nat
  cores : Tab CoreSt
  queues : Tab Queue
  ctxs : Tab Ctx
  lastPop : Tab Nat
  gangs : List Gang
  nextGang : Nat
  schEpoch : Nat
  schCfg : BitVec 32
  pools : Tab Pool
  poolEpoch : Nat
  epochDue : Bool
  lateEv : List (Nat × List Byte)
  mem : List Host.Cell
  lost : Tab (Option Lost)
  restored : List Nat
  owner : Tab (BitVec 16)
  ownCmd : BitVec 64
  ownAt : Nat
  hlb : List LbEntry
  hubX : List (Nat × BitVec 64 × XSt)
  migr : List Migr
  hbm : Tab HbmChan
  memcfg : BitVec 32
  towers : Tab TowerSt
  flush : List (Nat × Bool)
  mortar : Tab Mortar
  lintel : Tab Lintel
  span : SpanSt
  plumb : PlumbSt
  host : HostSt
  power : PowerSt
  rst : ResetSt
  store : StoreSt
  key : KeySt
  pins : PinSt
  pending : List Instr
deriving DecidableEq, Repr

/-- Why the machine stops with a fault: it never does, since every command of the table has an effect that the manual gives. (DESIGN CHOICE: log entry 70.) -/
inductive Fault where
deriving DecidableEq, Repr

/-- Why the machine refuses a command. (DESIGN CHOICE: log entry 70.) -/
inductive Refusal where
  /-- Raised by `exec` for a command whose meaning the model does not have. Safe. -/
  | notModelled (mnemonic : String)
deriving DecidableEq, Repr

/-- The package right after a power-on reset: every field at its reset value, no reset source active, release
not begun (log entry 1 names the values the manual does not give). -/
def State.reset : State where
  now := 0
  free := 0
  cores := []
  queues := []
  ctxs := []
  lastPop := []
  gangs := []
  nextGang := 0
  schEpoch := 0
  schCfg := 0x1F432200
  pools := []
  poolEpoch := 0
  epochDue := false
  lateEv := []
  mem := []
  lost := []
  restored := []
  owner := []
  ownCmd := 0
  ownAt := 0
  hlb := []
  hubX := []
  migr := []
  hbm := []
  memcfg := 0
  towers := []
  flush := []
  mortar := []
  lintel := []
  span := {}
  plumb := {}
  host := {}
  power := {}
  rst := {}
  store := {}
  key := {}
  pins := {}
  pending := []

end Sys2Proof.Machine
end

