-- ==== Sys2Proof/Machine/Ops.lean ====
section
/-!
DEFINITION. The named operations of the model: sparse tables, bit fields, bytes, the parts of State, free
values, local memory at its homes, status records and interrupts.
-/

namespace Sys2Proof.Machine

/-- The outcome of a command. -/
abbrev Res := Host.Outcome State Fault Refusal

/-! ## Sparse tables -/

/-- Reads key `k`; an unlisted key reads as `d`. -/
def tget {α : Type} (d : α) : Tab α → Nat → α
  | [], _ => d
  | (j, x) :: t, k => if k = j then x else if k < j then d else tget d t k

/-- Writes key `k`, keeping keys rising and dropping an entry equal to `d` (the entries after it with it, up to a larger key: none,
where the keys rise). -/
def tset {α : Type} [DecidableEq α] (d : α) : Tab α → Nat → α → Tab α
  | [], k, v => if v = d then [] else [(k, v)]
  | (j, x) :: t, k, v =>
    if k < j then (if v = d then (j, x) :: t else (k, v) :: (j, x) :: t)
    else if k = j then (if v = d then t.dropWhile (fun e => decide (e.1 ≤ k)) else (k, v) :: t)
    else (j, x) :: tset d t k v

/-- The canonical form of a table: keys strictly rising from `lo` on, no entry equal to `d`. -/
def tabWfFrom {α : Type} [DecidableEq α] (d : α) : Nat → Tab α → Bool
  | _, [] => true
  | lo, (j, x) :: t => decide (lo ≤ j) && (decide (x ≠ d) && tabWfFrom d (j + 1) t)

/-- The canonical form of a table. -/
def tabWf {α : Type} [DecidableEq α] (d : α) (t : Tab α) : Bool := tabWfFrom d 0 t

/-- The canonical form of local memory: strictly rising addresses, and no cell equal to the 0 that an unlisted
address reads as (R276, log entry 4). -/
def Memory.wf (m : List Host.Cell) : Bool := tabWf (0 : Byte) m

/-- Drops the entries with keys in `lo` to `lo + n - 1`. -/
def tclear {α : Type} (lo n : Nat) (t : Tab α) : Tab α :=
  t.filter fun e => decide (e.1 < lo ∨ lo + n ≤ e.1)

/-! ## Bit fields and bytes -/

/-- Bits [hi:lo] of `x` as a number. -/
def bf {w : Nat} (x : BitVec w) (hi lo : Nat) : Nat := x.toNat / 2 ^ lo % 2 ^ (hi + 1 - lo)

/-- Bit `i` of `x`. -/
def bt {w : Nat} (x : BitVec w) (i : Nat) : Bool := x.getLsbD i

/-- The mask of bits [hi:lo]. -/
def maskOf (w hi lo : Nat) : BitVec w := BitVec.ofNat w ((2 ^ (hi + 1 - lo) - 1) * 2 ^ lo)

/-- `x` with bits [hi:lo] set to the low bits of `v`. -/
def sf {w : Nat} (x : BitVec w) (hi lo : Nat) (v : Nat) : BitVec w :=
  (x &&& ~~~ maskOf w hi lo) ||| (BitVec.ofNat w (v % 2 ^ (hi + 1 - lo) * 2 ^ lo))

/-- `x` with bit `i` set to `b`. -/
def sb {w : Nat} (x : BitVec w) (i : Nat) (b : Bool) : BitVec w := sf x i i (if b then 1 else 0)

/-- The bits of `new` under `m`, the bits of `old` elsewhere. -/
def mergeMask {w : Nat} (m old new : BitVec w) : BitVec w := (old &&& ~~~ m) ||| (new &&& m)

/-- The little-endian number of a list of bytes (R6). -/
def leNat : List Byte → Nat
  | [] => 0
  | b :: t => b.toNat + 256 * leNat t

/-- The `n` little-endian bytes of a number (R6). -/
def toLe : Nat → Nat → List Byte
  | 0, _ => []
  | n + 1, v => BitVec.ofNat 8 v :: toLe n (v / 256)

/-- Bytes `off` to `off + n - 1` of a byte list; a byte past the end reads 0. -/
def slice (bs : List Byte) (off n : Nat) : List Byte :=
  let t := (bs.drop off).take n
  t ++ List.replicate (n - t.length) 0

/-- The little-endian field of `n` bytes at byte `off`. -/
def fieldLe (bs : List Byte) (off n : Nat) : Nat := leNat (slice bs off n)

/-- Whether every byte of `n` bytes at `off` is 0. -/
def zeros (bs : List Byte) (off n : Nat) : Bool := (slice bs off n).all (· == 0)

/-- Sign extension of the low `n` bits of a number to a 64-bit word. -/
def sext64 (n : Nat) (v : Nat) : BitVec 64 := (BitVec.ofNat n v).signExtend 64

/-- The signed value of an `n`-bit number. -/
def toInt (n : Nat) (v : Nat) : Int := (BitVec.ofNat n v).toInt

/-- A saturating count: `x + 1`, held at the largest value of its width. -/
def satInc {w : Nat} (x : BitVec w) : BitVec w := if x = BitVec.allOnes w then x else x + 1

/-! ## Byte memories -/

/-- One byte of a byte memory; an unlisted address reads 0. (DEDUCED: log entry 4.) -/
def rd8 (m : List Host.Cell) (a : Nat) : Byte := tget (0 : Byte) m a

/-- A byte memory with one byte written. -/
def wr8 (m : List Host.Cell) (a : Nat) (b : Byte) : List Host.Cell := tset (0 : Byte) m a b

/-- `n` bytes from address `a`. (DEDUCED: log entry 4.) -/
def rdN (m : List Host.Cell) (a n : Nat) : List Byte := (List.range n).map fun i => rd8 m (a + i)

/-- Writes bytes from address `a` on. -/
def wrN : List Host.Cell → Nat → List Byte → List Host.Cell
  | m, _, [] => m
  | m, a, b :: t => wrN (wr8 m a b) (a + 1) t

/-- The size of a scratchpad, 4 MiB. -/
def spadSize : Nat := 4194304

/-- `n` scratchpad bytes from offset `a`; every address wraps modulo 4 MiB (R75, R146). -/
def spadRd (m : List Host.Cell) (a n : Nat) : List Byte :=
  (List.range n).map fun i => rd8 m ((a + i) % spadSize)

/-- Writes scratchpad bytes from offset `a` on, wrapping modulo 4 MiB. -/
def spadWr : List Host.Cell → Nat → List Byte → List Host.Cell
  | m, _, [] => m
  | m, a, b :: t => spadWr (wr8 m (a % spadSize) b) (a + 1) t

/-! ## Status codes (Table 0.5) -/

namespace St
def ok : Code := 0x00
def illegalOp : Code := 0x01
def cmdReserved : Code := 0x02
def fmtReserved : Code := 0x03
def spreadExceeded : Code := 0x04
def xlateMiss : Code := 0x05
def xlateFault : Code := 0x06
def ctxDenied : Code := 0x07
def migratePending : Code := 0x08
def gatherFault : Code := 0x09
def poolEmpty : Code := 0x0A
def queueFull : Code := 0x0B
def queueGuilty : Code := 0x0C
def remoteTimeout : Code := 0x0D
def linkDegraded : Code := 0x0E
def laneRetired : Code := 0x0F
def rowRemapped : Code := 0x10
def channelRetired : Code := 0x11
def modShort : Code := 0x12
def modRetired : Code := 0x13
def superseded : Code := 0x14
def unsupported : Code := 0x15
def fwFallback : Code := 0x16
def buttressEntered : Code := 0x17
end St

/-! ## The parts of State -/

def getCore (s : State) (c : Nat) : CoreSt := tget {} s.cores c
def setCore (s : State) (c : Nat) (k : CoreSt) : State := { s with cores := tset {} s.cores c k }
def modCore (s : State) (c : Nat) (f : CoreSt → CoreSt) : State := setCore s c (f (getCore s c))

def getQueue (s : State) (q : Nat) : Queue := tget {} s.queues q
def setQueue (s : State) (q : Nat) (k : Queue) : State := { s with queues := tset {} s.queues q k }
def modQueue (s : State) (q : Nat) (f : Queue → Queue) : State := setQueue s q (f (getQueue s q))

def getCtx (s : State) (x : Nat) : Ctx := tget {} s.ctxs x
def setCtx (s : State) (x : Nat) (k : Ctx) : State := { s with ctxs := tset {} s.ctxs x k }
def modCtx (s : State) (x : Nat) (f : Ctx → Ctx) : State := setCtx s x (f (getCtx s x))

def getPool (s : State) (p : Nat) : Pool := tget {} s.pools p
def setPool (s : State) (p : Nat) (k : Pool) : State := { s with pools := tset {} s.pools p k }
def modPool (s : State) (p : Nat) (f : Pool → Pool) : State := setPool s p (f (getPool s p))

def getHbm (s : State) (c : Nat) : HbmChan := tget {} s.hbm c
def setHbm (s : State) (c : Nat) (k : HbmChan) : State := { s with hbm := tset {} s.hbm c k }
def modHbm (s : State) (c : Nat) (f : HbmChan → HbmChan) : State := setHbm s c (f (getHbm s c))

def getTower (s : State) (t : Nat) : TowerSt := tget {} s.towers t
def setTower (s : State) (t : Nat) (k : TowerSt) : State := { s with towers := tset {} s.towers t k }
def modTower (s : State) (t : Nat) (f : TowerSt → TowerSt) : State := setTower s t (f (getTower s t))

def getMortar (s : State) (f : Nat) : Mortar := tget {} s.mortar f

/-- Whether a steering stall of a core's scratchpad field or of its tower's network field runs (R25). -/
def fieldStalls (s : State) (c : Nat) : Bool :=
  decide ((getMortar s c).steering ≠ none ∨ (getMortar s (256 + c / 32)).steering ≠ none)

def setMortar (s : State) (f : Nat) (k : Mortar) : State := { s with mortar := tset {} s.mortar f k }

def getLintel (s : State) (l : Nat) : Lintel := tget {} s.lintel l
def setLintel (s : State) (l : Nat) (k : Lintel) : State := { s with lintel := tset {} s.lintel l k }

def withSpan (s : State) (k : SpanSt) : State := { s with span := k }
def withPlumb (s : State) (k : PlumbSt) : State := { s with plumb := k }
def withHost (s : State) (k : HostSt) : State := { s with host := k }
def withPower (s : State) (k : PowerSt) : State := { s with power := k }
def withRst (s : State) (k : ResetSt) : State := { s with rst := k }
def withStore (s : State) (k : StoreSt) : State := { s with store := k }
def withKey (s : State) (k : KeySt) : State := { s with key := k }
def withPins (s : State) (k : PinSt) : State := { s with pins := k }
def withMem (s : State) (m : List Host.Cell) : State := { s with mem := m }

def getPort (s : State) (p : Nat) : PortSt := tget {} s.span.ports p
def setPort (s : State) (p : Nat) (k : PortSt) : State :=
  withSpan s { s.span with ports := tset {} s.span.ports p k }
def modPort (s : State) (p : Nat) (f : PortSt → PortSt) : State := setPort s p (f (getPort s p))

def getDom (s : State) (d : Nat) : Dom := tget {} s.power.doms d
def setDom (s : State) (d : Nat) (k : Dom) : State :=
  withPower s { s.power with doms := tset {} s.power.doms d k }
def getGroup (s : State) (g : Nat) : GroupClk := tget {} s.power.groups g
def setGroup (s : State) (g : Nat) (k : GroupClk) : State :=
  withPower s { s.power with groups := tset {} s.power.groups g k }
def getMod (s : State) (k : Nat) : Mod := tget {} s.power.mods k
def setMod (s : State) (k : Nat) (m : Mod) : State :=
  withPower s { s.power with mods := tset {} s.power.mods k m }
def getMbox (s : State) (m : Nat) : Mbox := tget {} s.key.mb m
def setMbox (s : State) (m : Nat) (k : Mbox) : State :=
  withKey s { s.key with mb := tset {} s.key.mb m k }

/-- Runs a state change for each element of a list, in order. -/
def forEach {α : Type} (s : State) : List α → (State → α → State) → State
  | [], _ => s
  | a :: t, f => forEach (f s a) t f

/-! ## Free values (R5, log entry 3) -/

/-- A fresh free value and the state after it. (DESIGN CHOICE: log entry 3.) -/
def freshBits (s : State) (w : Nat) : BitVec w × State := (Config.freeBits w s.free, { s with free := s.free + 1 })

/-- `n` fresh free bytes. (DESIGN CHOICE: log entry 3.) -/
def freshBytes (s : State) (n : Nat) : List Byte × State :=
  (((List.range n).map fun i => Config.freeBits 8 (s.free + i)), { s with free := s.free + n })

/-! ## Bytes that two units of a core touch at once (R62, R111, R154) -/

/-- Offsets at which two scratchpads differ. -/
def changed (m n : List Host.Cell) : List Nat := ((m ++ n).map (·.1)).filter fun a => decide (rd8 m a ≠ rd8 n a)

/-- Scratchpad `m` as it is read by an operation that began when it was `seen`: a byte that has changed since is free.
(DESIGN CHOICE: log entry 14.) -/
def racedView (s : State) (seen m : List Host.Cell) : List Host.Cell × State :=
  if seen = m then (m, s)
  else match freshBytes s (changed seen m).length with
    | (bs, s1) => (((changed seen m).zip bs).foldl (fun x p => wr8 x p.1 p.2) m, s1)

/-- `seen` after a change of the scratchpad from `old` to `new` that the operation must see. -/
def seeChange (old new seen : List Host.Cell) : List Host.Cell :=
  if old = new then seen else (changed old new).foldl (fun x a => wr8 x a (rd8 new a)) seen

/-! ## Units (R21, R22) -/

/-- The domain and package that records report: 0 while SPAN_ID VALID = 0 (R306, R307). -/
def ownDomain (s : State) : Nat := if bt s.span.id 31 then bf s.span.id 24 16 else 0
def ownPackage (s : State) : Nat := if bt s.span.id 31 then bf s.span.id 7 0 else 0

/-- The UNIT_ID of class `cls` and index `i` (Tables 1.5 and 1.6). -/
def unitId (s : State) (cls i : Nat) : BitVec 32 :=
  BitVec.ofNat 32 (cls % 16 * 2 ^ 28 + ownDomain s % 512 * 2 ^ 19 + ownPackage s % 256 * 2 ^ 11 + i % 2048)

/-! ## RAS records (R421) -/

/-- The 32 bytes of a RAS record (Table 14.26). -/
def rasBytes (s : State) (code : Code) (kind : Nat) (queue : Nat) (unit : BitVec 32) (ctx : Nat) (detail : Nat) :
    List Byte :=
  [code] ++ toLe 1 kind ++ toLe 2 queue ++ toLe 4 unit.toNat ++ toLe 8 s.plumb.count.toNat ++ toLe 2 ctx
    ++ toLe 2 0 ++ toLe 4 s.key.rseq.toNat ++ toLe 8 detail

/-- Raises the interrupt byte of M0 (R431) while MB_IRQ EN = 1. -/
def m0Irq (s : State) (b : Byte) : State :=
  if bt (getMbox s 0).irq 31 ∧ b ∉ s.pins.ibi then
    withPins s { s.pins with ibi := if b = 1 then b :: s.pins.ibi else s.pins.ibi ++ [b] }
  else s

/-! ## Interrupt delivery (R351) -/

/-- A vector table entry right after reset: masked, address and data 0 (log entry 7). -/
def vecReset : BitVec 128 := BitVec.ofNat 128 (2 ^ 96)

/-- Sends the message of a vector table entry as a posted write. (DESIGN CHOICE: log entry 64.) -/
def sendMsg (s : State) (v : Nat) (e : BitVec 128) : State :=
  withHost s { s.host with sent := s.host.sent ++ [⟨BitVec.ofNat 11 v, BitVec.ofNat 64 (bf e 63 0), BitVec.ofNat 32 (bf e 95 64)⟩] }

/-- Whether an address lies in the Mason interrupt files (Table 11.5). (DESIGN CHOICE: log entry 64.) -/
def inImsic (a : Nat) : Bool := decide (0x030000000000 ≤ a ∧ a ≤ 0x030000FFFFFF)

/-- Delivers vector `v` (R351): below 1,024 through the MSI-X table, from there through the Mason table. (DESIGN CHOICE: log entry 64.) -/
def interrupt (s : State) (v : Nat) : State :=
  if v < 1024 then
    if s.host.cfg.msixEn && s.host.link && s.host.cfg.bme && !s.host.cfg.d3 then
      let e := tget vecReset s.host.msix v
      if bt e 96 then withHost s { s.host with pba := tset false s.host.pba v true } else sendMsg s v e
    else s
  else
    let i := v - 1024
    let e := tget vecReset s.host.mason i
    if bt e 96 then withHost s { s.host with masonPend := tset false s.host.masonPend i true }
    else if inImsic (bf e 63 0) then
      let s' := sendMsg s v e
      withHost s' { s'.host with imsic := tset 0 s'.host.imsic (bf e 63 0) (BitVec.ofNat 32 (bf e 95 64)) }
    else s

/-- Raises a mailbox's interrupt (Table 14.1); `b` is the I3C byte of R431. -/
def mbIrq (s : State) (m : Nat) (b : Byte) : State :=
  let k := getMbox s m
  if bt k.irq 31 then
    if m = 0 then m0Irq s b
    else if m = 3 then s
    else interrupt s (bf k.irq 10 0)
  else s

/-- Writes one record to one mailbox ring, or drops it (R421). (DEDUCED: log entry 67.) -/
def rasToRing (s : State) (m : Nat) (r : List Byte) : State :=
  let k := getMbox s m
  let wp := bf k.ras 31 16
  let rp := bf k.ras 15 0
  if (wp + 65536 - rp) % 65536 ≥ 32 then
    setMbox s m { k with rasx := sb (sf k.rasx 15 0 (satInc (BitVec.ofNat 16 (bf k.rasx 15 0))).toNat) 31 true }
  else
    let k' := { k with page := wrN k.page (0xC00 + 32 * (wp % 32)) r, ras := sf k.ras 31 16 (wp + 1) }
    mbIrq (setMbox s m k') m 2

/-- One RAS record to the rings of the mailboxes `ms` (R421); the package sequence number advances. (DEDUCED: log entry 67.) -/
def rasTo (s : State) (ms : List Nat) (code : Code) (kind : Nat) (queue : Nat) (unit : BitVec 32) (ctx : Nat)
    (detail : Nat) : State :=
  let r := rasBytes s code kind queue unit ctx detail
  let s := forEach s ms fun s m => rasToRing s m r
  withKey s { s.key with rseq := s.key.rseq + 1 }

/-- One RAS record to all four mailboxes. (DEDUCED: log entry 67.) -/
def ras (s : State) (code : Code) (kind : Nat) (unit : BitVec 32) (detail : Nat) : State :=
  rasTo s [0, 1, 2, 3] code kind 0xFFFF unit 0xFFFF detail

/-! ## Local memory at its homes (R259, R274 to R288) -/

/-- The state of an HBM channel: 0 IN_SERVICE, 1 RETIRED, 2 RETURNED (Table 9.9). -/
def chState (s : State) (c : Nat) : Nat := bf (getHbm s c).stat 31 30

/-- The kind of Quarry unit `u` of tower `t`: 0 HOME, 1 VICTIM, 2 SCRATCH, 3 OFF (Table 9.10). -/
def qKind (s : State) (t u : Nat) : Nat :=
  let p := (getTower s t).part
  if bt p (16 + u) then 3 else bf p (2 * u + 1) (2 * u)

/-- Whether a local offset is present (Table 9.2, R275). The window of a channel retired after its return stays
present, without storage, until the next reset (R288). -/
def present (s : State) (x : Nat) : Bool :=
  if x < 0x8600000000 then true
  else if 0xC000000000 ≤ x ∧ x < 0xC080000000 then
    let u := (x - 0xC000000000) / 0x2000000
    decide (qKind s (u / 8) (u % 8) = 2) && (getTower s (u / 8)).changing.all fun p => decide (p.1 ≠ u % 8)
  else if 0x10000000000 ≤ x ∧ x < 0x20000000000 then
    let r := x - 0x10000000000
    decide (r % 0x80000000 < 0x43000000) && (decide (chState s (r / 0x80000000) = 2) || (getHbm s (r / 0x80000000)).winKept)
  else false

/-- The channel of an HBM span offset and the offset in the channel (Table 9.3); MEMCFG names the mode. -/
def interleave (s : State) (x : Nat) : Nat × Nat :=
  let b := BitVec.ofNat 41 x
  if bf s.memcfg 31 30 = 1 then
    let t := x / 0x10C0000000
    let r := x % 0x10C0000000
    let rb := BitVec.ofNat 41 r
    (64 * t + (bf rb 13 8 ^^^ bf rb 19 14), r / 2 ^ 14 * 256 + r % 256)
  else (bf b 16 8 ^^^ bf b 25 17 ^^^ bf b 34 26, x / 2 ^ 17 * 256 + x % 256)

/-- The channel and channel offset behind a local offset, where there is one (R274, R277). -/
def chanOf (s : State) (x : Nat) : Option (Nat × Nat) :=
  if x < 0x8600000000 then some (interleave s x)
  else if 0x10000000000 ≤ x ∧ x < 0x20000000000 then
    some ((x - 0x10000000000) / 0x80000000, (x - 0x10000000000) % 0x80000000)
  else none

/-- The tower that homes a local offset (R277, Table 9.2). -/
def homeTower (s : State) (x : Nat) : Nat :=
  match chanOf s x with
  | some (c, _) => c / 64
  | none => (x - 0xC000000000) / 0x2000000 / 8

/-- Where a spilled unit of channel `c` lies: the target channel and channel offset (R287). -/
def spillOf (h : HbmChan) (y : Nat) : Option (Nat × Nat) :=
  if h.targets.length = 0 then none
  else
    let k := y / 256
    let n := h.targets.length
    (h.targets[k % n]?).map fun t => (t, 0x43000000 + bf h.stat 28 27 * 0x1300000 + k / n * 256 + y % 256)

/-- Whether a line of a span or returned-channel window has no storage (R288). (DEDUCED: log entry 49.) -/
def noStorage (s : State) (x : Nat) : Bool :=
  match chanOf s x with
  | none => false
  | some (c, y) =>
    let h := getHbm s c
    if x < 0x8600000000 then
      h.noStore || (bt h.stat 29 && (match spillOf h y with
        | some (t, _) => decide (chState s t ≠ 0)
        | none => true))
    else decide (chState s c ≠ 2)

/-- The marker of a line: explicit, or that of a span lost at run time and not written since (R286, R287). -/
def marker (s : State) (x : Nat) : Option Lost :=
  let ln := x / 64
  match tget none s.lost ln with
  | some m => some m
  | none =>
    match chanOf s x with
    | some (c, _) =>
      if x < 0x8600000000 ∧ (getHbm s c).runLost ∧ ¬ s.restored.contains ln then some .channel else none
    | none => none

/-- The code of a lost line (R283). (DEDUCED: log entry 49.) -/
def lostCode : Lost → Code
  | .row => St.rowRemapped
  | .channel => St.channelRetired

/-- The line with its marker removed: a write of a whole line restores it (R284). -/
def clearMarker (s : State) (x : Nat) : State :=
  let ln := x / 64
  { s with lost := tset none s.lost ln none,
           restored := if (marker { s with lost := tset none s.lost ln none } x).isSome then ln :: s.restored else s.restored }

/-- The ownership entry of the granule of a local offset (R259). While OWNCMD runs, a granule of its span changes at an
instant that the manual leaves open (R260). -/
def ownEntry (s : State) (x : Nat) : BitVec 16 :=
  let g := x / 0x200000
  let o := s.ownCmd
  if bt o 62 ∧ bf o 57 38 ≤ g ∧ g ≤ bf o 57 38 + bf o 37 18 ∧ s.ownAt + Config.ownDelay g (homeTower s x) s.ownAt ≤ s.now then
    BitVec.ofNat 16 (bf o 15 0)
  else tget 0 s.owner g

/-- The ownership check at the home (R259): SYS passes, else OPEN, or OWNED by the request's CTX. -/
def ownOk (s : State) (sys : Bool) (ctx x : Nat) : Bool :=
  let e := ownEntry s x
  sys || decide (bf e 15 14 = 2) || (decide (bf e 15 14 = 1) && decide (bf e 11 0 = ctx))

/-- The checks of a request at its home before the data: absent offset, ownership (R254, R259, R275). -/
def homeCheck (s : State) (sys : Bool) (ctx x : Nat) : Code :=
  if !present s x then St.ctxDenied else if !ownOk s sys ctx x then St.ctxDenied else St.ok

/-- Whether tower `t` has HOME units, and whether a HOME line of the tower holds `x` (R294). -/
def homeUnits (s : State) (t : Nat) : Nat := ((List.range 8).filter fun u => qKind s t u = 0).length

/-- The global address of a local offset (Table 10.1). -/
def gaOf (s : State) (x : Nat) : Nat := ownDomain s * 2 ^ 49 + ownPackage s * 2 ^ 41 + x

/-- The key of a line in the caches: its global line address. -/
def lineKey (s : State) (x : Nat) : BitVec 64 := BitVec.ofNat 64 (gaOf s (x / 64 * 64))

/-- A line of a HOME unit, if one holds it: only lines homed on the stacks are cached there (R294). -/
def homeFind (s : State) (x : Nat) : Option QLine :=
  if (chanOf s x).isNone then none else (getTower s (homeTower s x)).home.find? fun l => l.line = lineKey s x

/-- The 64 bytes of a line as a number, and back. -/
def lineOf (bs : List Byte) : BitVec 512 := BitVec.ofNat 512 (leNat bs)
def bytesOf (l : BitVec 512) : List Byte := toLe 64 l.toNat

/-- Keeps the lines of a cache within 16 to a set, dropping the least recently used of the set of the line
just placed. The set is known only where more than 16 lines stand (R294). -/
def trimSet {α : Type} (setOf : α → Nat) (ways : Nat) (l : List α) : List α × Option α :=
  match l with
  | [] => ([], none)
  | x :: t =>
    if t.length < ways then (l, none)
    else
      let same := t.filter fun y => setOf y = setOf x
      if same.length < ways then (l, none)
      else
        match same.getLast? with
        | none => (l, none)
        | some _ =>
          let r := t.reverse
          let i := r.findIdx fun y => setOf y = setOf x
          (x :: (r.eraseIdx i).reverse, r[i]?)

/-- The set of a HOME line: h(a) mod S (R294). (DESIGN CHOICE: log entry 24.) -/
def homeSet (s : State) (t : Nat) (l : QLine) : Nat := Config.quarryHash (l.line.toNat / 64) % (32768 * homeUnits s t)

/-- A line leaves the HOME units: one of a span lost at run time is written to its spill location even if clean (R286). -/
def homeLeave (s : State) (v : QLine) : State :=
  let vx := v.line.toNat % 2 ^ 41
  if v.lost = none ∧ (marker s vx).isSome ∧ !noStorage s vx then
    withMem (clearMarker s vx) (wrN s.mem vx (bytesOf v.data))
  else s

/-- Places a line in the HOME units of its tower as most recently used (R294). -/
def homePlace (s : State) (x : Nat) (l : QLine) : State :=
  let t := homeTower s x
  if homeUnits s t = 0 ∨ (chanOf s x).isNone then s
  else
    let tw := getTower s t
    let (ls, out) := trimSet (homeSet s t) 16 (l :: tw.home.filter fun y => y.line ≠ l.line)
    let s := setTower s t { tw with home := ls }
    match out with
    | none => s
    | some v => homeLeave s v

/-- The channel that stores a local offset: its own, or a target of its spill (R277, R287). -/
def storedOn (s : State) (x : Nat) : Option Nat :=
  match chanOf s x with
  | none => none
  | some (c, y) =>
    let ts := (getHbm s c).targets
    if chState s c = 1 ∧ ts ≠ [] then ts[y / 256 % ts.length]? else some c

/-- Whether a channel under OFFLINE retraining or test holds the accesses to a local offset that no HOME unit serves (R411). -/
def chanHeld (s : State) (x : Nat) : Bool :=
  match storedOn s x with
  | none => false
  | some c =>
    (((getHbm s c).offline && decide ((getHbm s c).recal ≠ 0))
      || (s.key.test.offline && decide (s.key.test.under = some (2048 * 5 + c)))) && (homeFind s x).isNone

/-- The read of one line's bytes at the home, through the HOME units unless the range is NC (R294): the
code, the line's bytes and the state after the fill. A line without storage gives CHANNEL_RETIRED (R288). -/
def homeLine (s : State) (ctx x : Nat) (nc : Bool) : Code × List Byte × State :=
  let b := x / 64 * 64
  if noStorage s b then (St.channelRetired, [], s)
  else
    match (if nc then none else homeFind s x) with
    | some l =>
      let s' := homePlace s x l
      match l.lost with
      | some m => (lostCode m, [], s')
      | none => (St.ok, bytesOf l.data, s')
    | none =>
      let bs := rdN s.mem b 64
      match marker s b with
      | some m => (lostCode m, [], s)
      | none =>
        (St.ok, bs, if nc then s else homePlace s x ⟨lineKey s x, lineOf bs, none, ctx, ownEntry s x⟩)

/-- Reads `n` bytes of one line at the home after the checks (R254, R259, R275, R283). -/
def homeRead (s : State) (sys : Bool) (ctx x n : Nat) (nc : Bool) : Code × List Byte × State :=
  let c := homeCheck s sys ctx x
  if c ≠ St.ok then (c, [], s)
  else
    match homeLine s ctx x nc with
    | (c, bs, s') => (c, slice bs (x % 64) n, s')

/-- `old` with the bytes `bs` at byte offset `off` of the line. -/
def mergeLine (old : BitVec 512) (off : Nat) (bs : List Byte) : BitVec 512 :=
  let l := bytesOf old
  lineOf (l.take off ++ bs ++ l.drop (off + bs.length))

/-- Updates a present HOME copy after a write, and fills an absent line on a whole-line write (R294). -/
def homeUpdate (s : State) (ctx x : Nat) (bs : List Byte) (whole nc : Bool) : State :=
  match homeFind s x with
  | some l => homePlace s x { l with data := mergeLine l.data (x % 64) bs, lost := if whole then none else l.lost }
  | none =>
    if whole ∧ !nc then homePlace s x ⟨lineKey s x, lineOf bs, none, ctx, ownEntry s x⟩ else s

/-- Writes bytes within one line at the home after the checks; a whole-line write restores a lost line, a
partial write leaves it lost (R284); a line without storage changes nothing (R288). -/
def homeWrite (s : State) (sys : Bool) (ctx x : Nat) (bs : List Byte) (nc : Bool) : Code × State :=
  let c := homeCheck s sys ctx x
  if c ≠ St.ok then (c, s)
  else if noStorage s x then (St.channelRetired, s)
  else
    let whole := decide (bs.length = 64 ∧ x % 64 = 0)
    let s1 := if whole then clearMarker s x else s
    (St.ok, homeUpdate (withMem s1 (wrN s1.mem x bs)) ctx x bs whole nc)

/-- The new value of an atomic (Table 5.4) on `n`-byte operands; an undefined function keeps the old value. -/
def amoNew (func n : Nat) (old b c : Nat) : Nat :=
  let w := 8 * n
  let o := BitVec.ofNat w old
  let x := BitVec.ofNat w b
  match func with
  | 0 => (o + x).toNat
  | 1 => (o &&& x).toNat
  | 2 => (o ||| x).toNat
  | 3 => (o ^^^ x).toNat
  | 4 => if o.toInt ≤ x.toInt then o.toNat else x.toNat
  | 5 => if o.toInt ≤ x.toInt then x.toNat else o.toNat
  | 6 => if o.toNat ≤ x.toNat then o.toNat else x.toNat
  | 7 => if o.toNat ≤ x.toNat then x.toNat else o.toNat
  | 8 => x.toNat
  | 9 => if o = BitVec.ofNat w c then x.toNat else o.toNat
  | _ => o.toNat

/-- An atomic at the home (R137): the code, the old value and the state after it. -/
def homeAtomic (s : State) (sys : Bool) (ctx x n func b c : Nat) (nc : Bool) : Code × Nat × State :=
  match homeRead s sys ctx x n nc with
  | (code, bs, s1) =>
    if code ≠ St.ok then (code, 0, s1)
    else
      match homeWrite s1 sys ctx x (toLe n (amoNew func n (leNat bs) b c)) nc with
      | (code2, s2) => (code2, leNat bs, s2)

/-- Splits a run of `n` bytes at `x` into (start, length) pieces that do not cross a multiple of `m`. -/
def pieces (m : Nat) : Nat → Nat → Nat → List (Nat × Nat)
  | 0, _, _ => []
  | f + 1, x, n =>
    if n = 0 then []
    else
      let k := min n (m - x % m)
      (x, k) :: pieces m f (x + k) (n - k)

end Sys2Proof.Machine
end

