-- ==== Sys2Proof/Machine/Flags.lean ====
section
/-!
DEFINITION. The number formats, rounding, conversion, and the CORE_FPSTAT bits they set (R35 to R56, R60, R65
to R69, R436).
-/

namespace Sys2Proof.Machine

/-! ## CORE_FPSTAT bits (Table 2.8) -/

abbrev FpBits := BitVec 8
def fNX : FpBits := 0x01
def fUF : FpBits := 0x02
def fOF : FpBits := 0x04
def fNV : FpBits := 0x08
def fSATD : FpBits := 0x10
def fNANLOST : FpBits := 0x20
def fIOVF : FpBits := 0x40
def fSPREAD : FpBits := 0x80

/-- A flag when a condition holds. -/
def fIf (b : Bool) (f : FpBits) : FpBits := if b then f else 0

/-! ## Values -/

/-- An exact value: NaN, an infinity, or (−1)^s · m · 2^e. -/
inductive Num where
  | nan
  | inf (s : Bool)
  | fin (s : Bool) (m : Nat) (e : Int)
deriving DecidableEq, Repr

/-- The layout of a floating-point format (Tables 2.3 and 2.4): exponent and fraction bits, bias, the code of the
largest finite magnitude, whether it has infinities, and its canonical NaN. -/
structure FpFmt where
  wE : Nat
  wM : Nat
  bias : Nat
  maxCode : Nat
  hasInf : Bool
  nan : Option Nat
deriving DecidableEq, Repr

namespace Fm
def fp32 : Nat := 0
def bf16 : Nat := 1
def fp16 : Nat := 2
def fp64 : Nat := 3
def e4m3 : Nat := 4
def e5m2 : Nat := 5
def e3m2 : Nat := 6
def e2m3 : Nat := 7
def e2m1 : Nat := 8
def int8 : Nat := 9
def uint8 : Nat := 10
def int4 : Nat := 11
def int32 : Nat := 12
def e8m0 : Nat := 13
end Fm

/-- The layouts of Table 2.3. -/
def fpFmt : Nat → Option FpFmt
  | 0 => some ⟨8, 23, 127, 0x7F7FFFFF, true, some 0x7FC00000⟩
  | 1 => some ⟨8, 7, 127, 0x7F7F, true, some 0x7FC0⟩
  | 2 => some ⟨5, 10, 15, 0x7BFF, true, some 0x7E00⟩
  | 3 => some ⟨11, 52, 1023, 0x7FEFFFFFFFFFFFFF, true, some 0x7FF8000000000000⟩
  | 4 => some ⟨4, 3, 7, 0x7E, false, some 0x7F⟩
  | 5 => some ⟨5, 2, 15, 0x7B, true, some 0x7E⟩
  | 6 => some ⟨3, 2, 3, 0x1F, false, none⟩
  | 7 => some ⟨2, 3, 1, 0x1F, false, none⟩
  | 8 => some ⟨2, 1, 1, 0x7, false, none⟩
  | _ => none

/-- Bits per element (Table 2.1). -/
def fmtBits : Nat → Nat
  | 0 => 32
  | 1 => 16
  | 2 => 16
  | 3 => 64
  | 4 => 8
  | 5 => 8
  | 6 => 6
  | 7 => 6
  | 8 => 4
  | 9 => 8
  | 10 => 8
  | 11 => 4
  | 12 => 32
  | 13 => 8
  | _ => 8

/-- Whether a code is an integer format, and its range (R43). -/
def isInt (f : Nat) : Bool := decide (9 ≤ f ∧ f ≤ 12)

/-- The largest and least value of an integer format. -/
def intHi : Nat → Int
  | 9 => 127
  | 10 => 255
  | 11 => 7
  | _ => 2147483647
def intLo : Nat → Int
  | 9 => -128
  | 10 => 0
  | 11 => -8
  | _ => -2147483648

/-- The value of a floating-point encoding (R39). -/
def decodeFp (f : FpFmt) (bits : Nat) : Num :=
  let s := decide (bits / 2 ^ (f.wE + f.wM) % 2 = 1)
  let mag := bits % 2 ^ (f.wE + f.wM)
  let e := mag / 2 ^ f.wM
  let m := mag % 2 ^ f.wM
  if mag > f.maxCode then (if f.hasInf && decide (m = 0) then .inf s else .nan)
  else if e = 0 then .fin s m (1 - (f.bias : Int) - f.wM)
  else .fin s (2 ^ f.wM + m) ((e : Int) - f.bias - f.wM)

/-- The integer of an integer encoding (R43). -/
def decodeInt (f bits : Nat) : Int :=
  match f with
  | 9 => toInt 8 bits
  | 10 => (bits % 256 : Nat)
  | 11 => toInt 4 bits
  | _ => toInt 32 bits

/-- An integer as an exact value. -/
def Num.ofInt (i : Int) : Num := .fin (decide (i < 0)) i.natAbs 0

/-- The value of an encoding in any format (R39, R43). -/
def decodeNum (f bits : Nat) : Num :=
  match fpFmt f with
  | some l => decodeFp l bits
  | none =>
    if f = Fm.e8m0 then (if bits % 256 = 255 then .nan else .fin false 1 ((bits % 256 : Nat) - 127 : Int))
    else Num.ofInt (decodeInt f bits)

/-- The canonical NaN of a format (R41); formats without NaN give 0. -/
def canonNan (f : Nat) : Nat :=
  match fpFmt f with
  | some l => l.nan.getD 0
  | none => if f = Fm.e8m0 then 255 else 0

/-! ## Exact arithmetic -/

def Num.neg : Num → Num
  | .nan => .nan
  | .inf s => .inf !s
  | .fin s m e => .fin (!s) m e

def Num.abs : Num → Num
  | .nan => .nan
  | .inf _ => .inf false
  | .fin _ m e => .fin false m e

def Num.isNan : Num → Bool
  | .nan => true
  | _ => false

def Num.isInf : Num → Bool
  | .inf _ => true
  | _ => false

def Num.sign : Num → Bool
  | .nan => false
  | .inf s => s
  | .fin s _ _ => s

def Num.isZero : Num → Bool
  | .fin _ 0 _ => true
  | _ => false

/-- The value scaled by a power of 2, exactly. -/
def Num.scale : Num → Int → Num
  | .fin s m e, k => .fin s m (e + k)
  | x, _ => x

/-- The exact product; infinity times zero is NaN. -/
def Num.mul : Num → Num → Num
  | .nan, _ => .nan
  | _, .nan => .nan
  | .inf s, .inf t => .inf (s != t)
  | .inf s, .fin t m _ => if m = 0 then .nan else .inf (s != t)
  | .fin s m _, .inf t => if m = 0 then .nan else .inf (s != t)
  | .fin s m e, .fin t n f => .fin (s != t) (m * n) (e + f)

/-- The signed significand of a value brought to exponent `e0`, which is at most its own. -/
def sigAt (s : Bool) (m : Nat) (e e0 : Int) : Int :=
  let v : Int := (m * 2 ^ (e - e0).toNat : Nat)
  if s then -v else v

/-- The exact sum. Opposite infinities give NaN; a zero sum is +0 unless both are −0 (R42). -/
def Num.add : Num → Num → Num
  | .nan, _ => .nan
  | _, .nan => .nan
  | .inf s, .inf t => if s = t then .inf s else .nan
  | .inf s, .fin _ _ _ => .inf s
  | .fin _ _ _, .inf t => .inf t
  | .fin s m e, .fin t n f =>
    let e0 := if e ≤ f then e else f
    let v := sigAt s m e e0 + sigAt t n f e0
    if v = 0 then .fin (s && t) 0 e0 else .fin (decide (v < 0)) v.natAbs e0

/-- Whether a sum or product of values without a NaN among them is NaN (NV). -/
def madeNan (args : List Num) (r : Num) : Bool := r.isNan && args.all fun a => !a.isNan

/-- Comparison of finite or infinite values: the sign of a − b as −1, 0, 1. -/
def Num.cmp : Num → Num → Int
  | .inf s, .inf t => if s = t then 0 else if s then -1 else 1
  | .inf s, _ => if s then -1 else 1
  | _, .inf t => if t then 1 else -1
  | .fin s m e, .fin t n f =>
    let e0 := if e ≤ f then e else f
    let v := sigAt s m e e0 - sigAt t n f e0
    if v < 0 then -1 else if v = 0 then 0 else 1
  | _, _ => 0

/-- floor(log2 |x|) of a non-zero finite value. -/
def Num.log2 : Num → Int
  | .fin _ m e => (Nat.log2 m : Int) + e
  | _ => 0

/-! ## Rounding (R45, R46, R51) -/

/-- The rounding modes of Table 2.5. -/
inductive RM where
  | rne
  | rtz
  | sr
deriving DecidableEq, Repr

/-- RM of a conversion control; the reserved code never reaches a conversion (R83, R124). -/
def rmOf (cvt : Nat) : RM :=
  match cvt % 4 with
  | 0 => .rne
  | 1 => .rtz
  | _ => .sr

/-- SAT of a conversion control. -/
def satOf (cvt : Nat) : Bool := decide (cvt / 4 % 2 = 1)

/-- Rounds the magnitude m · 2^e, plus a part of the last unit of m where `sticky`, to a multiple of 2^q: the
multiple and whether it is inexact. `r` is the generator output of SR (R46). -/
def roundMag (rm : RM) (r m : Nat) (e q : Int) (sticky : Bool) : Nat × Bool :=
  if q ≤ e then (m * 2 ^ (e - q).toNat, sticky)
  else
    let d := 2 ^ (q - e).toNat
    let k := m / d
    let rem := m % d
    let inexact := decide (rem ≠ 0) || sticky
    let up := match rm with
      | .rtz => false
      | .rne => decide (rem * 2 > d) || (decide (rem * 2 = d) && (sticky || decide (k % 2 = 1)))
      | .sr => decide (rem * 65536 / d + r ≥ 65536)
    (if up then k + 1 else k, inexact)

/-- A code with its sign bit. -/
def withSign (f : FpFmt) (s : Bool) (code : Nat) : Nat := (if s then 2 ^ (f.wE + f.wM) else 0) + code

/-- The largest finite value of a format with a sign. -/
def maxFin (f : FpFmt) (s : Bool) : Nat := withSign f s f.maxCode

/-- An overflow (R52, Table 2.7, R436): the result and the bits it sets besides OF and NX. -/
def overflowRes (f : FpFmt) (sat s : Bool) : Nat × FpBits :=
  match f.nan with
  | none => (maxFin f s, fSATD)
  | some n =>
    if sat then (maxFin f s, fSATD)
    else if f.hasInf then (withSign f s (f.maxCode + 1), 0)
    else (n, fNV)

/-- Rounds an exact value to a floating-point format (R46, R51, R52, R436). -/
def roundFp (f : FpFmt) (rm : RM) (sat : Bool) (r : Nat) (x : Num) (sticky : Bool) : Nat × FpBits :=
  match x with
  | .nan => match f.nan with
    | some n => (n, 0)
    | none => (0, fNANLOST)
  | .inf s => match f.nan with
    | none => (maxFin f s, fSATD)
    | some n =>
      if f.hasInf then (withSign f s (f.maxCode + 1), 0)
      else if sat then (maxFin f s, fSATD) else (n, fNV)
  | .fin s m e =>
    if m = 0 then (withSign f s 0, if sticky then fNX ||| fUF else 0)
    else
      let emin : Int := 1 - f.bias
      let top : Int := (Nat.log2 m : Int) + e
      let q : Int := (if top < emin then emin else top) - f.wM
      match roundMag rm r m e q sticky with
      | (k, inexact) =>
        let code := ((q + f.wM + f.bias - 1) * 2 ^ f.wM + (k : Int)).toNat
        if code > f.maxCode then
          if rm = .rtz then (maxFin f s, fNX)
          else match overflowRes f sat s with
            | (v, b) => (v, b ||| fOF ||| fNX)
        else (withSign f s code, fIf inexact fNX ||| fIf (inexact && decide (top < emin)) fUF)

/-- Rounds an exact value to an integer format: rounded, then clamped (R52, R436). -/
def roundInt (f : Nat) (rm : RM) (r : Nat) (x : Num) : Nat × FpBits :=
  let w := fmtBits f
  let enc : Int → Nat := fun i => (i % (2 ^ w : Nat)).toNat
  match x with
  | .nan => (0, fNANLOST)
  | .inf s => (enc (if s then intLo f else intHi f), fIOVF)
  | .fin s m e =>
    match roundMag rm r m e 0 false with
    | (k, inexact) =>
      let v : Int := if s then -(k : Int) else k
      if v > intHi f then (enc (intHi f), fNX ||| fIOVF)
      else if v < intLo f then (enc (intLo f), fNX ||| fIOVF)
      else (enc v, fIf inexact fNX)

/-- Conversion to E8M0 (R54). -/
def toE8m0 (x : Num) : Nat × FpBits :=
  match x with
  | .nan => (255, 0)
  | .inf _ => (255, fNV)
  | .fin _ m e =>
    if m = 0 then (0, 0)
    else
      let v := (Nat.log2 m : Int) + e + 127
      (if v < 0 then 0 else if v > 254 then 254 else v.toNat, 0)

/-- Narrows an exact integer to an integer format (R53). -/
def narrowInt (f : Nat) (wrap : Bool) (v : Int) : Nat × FpBits :=
  let w := fmtBits f
  let enc : Int → Nat := fun i => (i % (2 ^ w : Nat)).toNat
  if intLo f ≤ v ∧ v ≤ intHi f then (enc v, 0)
  else if wrap then (enc v, fIOVF)
  else (enc (if v > intHi f then intHi f else intLo f), fIOVF)

/-- Rounds an exact value to any format under a conversion control; `isIntSrc` names an integer value, whose
narrowing follows R53 under `wrap`. -/
def roundNum (dst cvt r : Nat) (isIntSrc wrap : Bool) (x : Num) : Nat × FpBits :=
  match fpFmt dst with
  | some f => roundFp f (rmOf cvt) (satOf cvt) r x false
  | none =>
    if dst = Fm.e8m0 then toE8m0 x
    else if isIntSrc then
      match x with
      | .fin s m e => narrowInt dst wrap (sigAt s m e 0)
      | _ => (0, 0)
    else roundInt dst (rmOf cvt) r x

/-- Converts an encoding of one format to another (R52 to R54). -/
def convertBits (src dst cvt r : Nat) (wrap : Bool) (raw : Nat) : Nat × FpBits :=
  roundNum dst cvt r (isInt src) wrap (decodeNum src raw)

/-- Whether a destination takes stochastic rounding (R47). (DEDUCED: log entry 20.) -/
def srDest (f : Nat) : Bool := decide (f = 1 ∨ f = 2 ∨ (4 ≤ f ∧ f ≤ 11))

/-! ## Generators (R48, R49) -/

/-- One step of a generator. -/
def genStep (g : BitVec 16) : BitVec 16 := if bt g 0 then (g >>> 1) ^^^ 0xB400 else g >>> 1

/-- The fresh state of generator `i` from a seed (R49). -/
def genFresh (seed : BitVec 16) (i : Nat) : BitVec 16 :=
  let v := seed ^^^ BitVec.ofNat 16 (0x9E37 * (i + 1))
  if v = 0 then 0xACE1 else v

/-- The state of generator `i` of a core: its fresh state until it moves. -/
def genGet (m : CoreMem) (i : Nat) : BitVec 16 := tget (genFresh m.genSeed i) m.gens i

/-- Advances generator `i`: its output and the storage after the step. -/
def genNext (m : CoreMem) (i : Nat) : Nat × CoreMem :=
  let g := genStep (genGet m i)
  (g.toNat, { m with gens := tset (genFresh m.genSeed i) m.gens i g })

/-- Seeds every generator (R49). -/
def genSeedAll (m : CoreMem) (seed : BitVec 16) : CoreMem := { m with genSeed := seed, gens := [] }

/-! ## Block scales (R56, R60) -/

/-- The exponent of an E8M0 scale byte, or `none` for the NaN byte. -/
def scaleExp (b : Nat) : Option Int := if b % 256 = 255 then none else some ((b % 256 : Nat) - 127 : Int)

/-- A value times its block scale (R56). -/
def scaled (x : Num) (b : Nat) : Num :=
  match scaleExp b with
  | none => .nan
  | some k => x.scale k

/-- emax of an element format (R60). -/
def emaxOf : Nat → Int
  | 4 => 8
  | 5 => 15
  | 6 => 4
  | 7 => 2
  | 8 => 2
  | 9 => 6
  | 10 => 7
  | _ => 2

/-- The larger of two magnitudes. -/
def maxMag (a b : Num) : Num := if Num.cmp a.abs b.abs < 0 then b.abs else a.abs

/-- The derived scale of a block (R60). -/
def deriveScale (elem : Nat) (xs : List Num) : Nat :=
  if xs.any fun x => x.isNan || x.isInf then 255
  else
    let amax := xs.foldl maxMag (.fin false 0 0)
    if amax.isZero then 0
    else
      let v := amax.log2 - emaxOf elem + 127
      if v < 0 then 0 else if v > 254 then 254 else v.toNat

/-! ## Sliced FP64 (R65 to R69) -/

/-- The shared exponent of a row or column: the largest e over its non-zero elements. -/
def sharedExp (xs : List Num) : Option Int :=
  xs.foldl (fun acc x => match x with
    | .fin _ m _ => if m = 0 then acc else match acc with
      | none => some x.log2
      | some e => some (if e < x.log2 then x.log2 else e)
    | _ => acc) none

/-- Whether a row or column raises SPREAD_EXCEEDED (R67). -/
def spreadBad (xs : List Num) : Bool :=
  xs.any (fun x => x.isNan || x.isInf)
  || (match sharedExp xs with
    | none => false
    | some e => xs.any fun x => !x.isZero && decide (e - x.log2 > 48))

/-- The integer X of an element (R66); an infinity, a NaN or a zero gives 0. -/
def sliceInt (e : Int) (x : Num) : Int :=
  match x with
  | .fin s m k =>
    match roundMag .rne 0 m (k + 53 - e) 0 false with
    | (v, _) => if s then -(v : Int) else v
  | _ => 0

/-- The slices s[0] to s[6] of X by balanced recoding (R66). -/
def slicesOf (x : Int) : List Int :=
  let rec go : Nat → Int → List Int → List Int
    | 0, _, acc => acc
    | n + 1, x, acc =>
      let dig := ((x % 256) + 128) % 256 - 128
      go n ((x - dig) / 256) (dig :: acc)
  go 7 x []

/-! ## Packed elements (R44, R75) -/

/-- Element `i` of a packed run at byte offset `base` of a scratchpad. (DESIGN CHOICE: log entry 14.) -/
def rdElem (m : List Host.Cell) (base f i : Nat) : Nat :=
  match fmtBits f with
  | 4 => leNat (spadRd m (base + i / 2) 1) / 2 ^ (4 * (i % 2)) % 16
  | 6 => leNat (spadRd m (base + i / 4 * 3) 3) / 2 ^ (6 * (i % 4)) % 64
  | b => leNat (spadRd m (base + i * (b / 8)) (b / 8))

/-- Splits a list into groups of `n` (the last may be shorter). -/
def groupsOf {α : Type} (n : Nat) : Nat → List α → List (List α)
  | 0, _ => []
  | _ + 1, [] => []
  | f + 1, l => l.take n :: groupsOf n f (l.drop n)

/-- The bytes of a packed run of elements; unused bits of the last byte or group are 0 (R44). -/
def packElems (f : Nat) (xs : List Nat) : List Byte :=
  match fmtBits f with
  | 4 => (groupsOf 2 xs.length xs).flatMap fun g =>
      toLe 1 (g.zipIdx.foldl (fun a p => a + p.1 % 16 * 2 ^ (4 * p.2)) 0)
  | 6 => (groupsOf 4 xs.length xs).flatMap fun g =>
      toLe 3 (g.zipIdx.foldl (fun a p => a + p.1 % 64 * 2 ^ (6 * p.2)) 0)
  | b => xs.flatMap fun x => toLe (b / 8) x

end Sys2Proof.Machine
end

