-- ==== Sys2Proof/Machine/Operands.lean ====
section
/-!
DEFINITION. The operands of the sequencer instructions (Tables 5.1 and 5.2): the fields below the opcode, the
scalar and address registers, and the addresses they form.
-/

namespace Sys2Proof.Machine

/-- A Bool as a bit. -/
def bit (b : Bool) : Nat := if b then 1 else 0

/-- The bits of an instruction word below its opcode (Table 5.2). (DESIGN CHOICE: log entry 10.) -/
abbrev Bits := BitVec 56

/-! ## Registers (R135) -/

/-- Scalar register `i`; s0 reads 0. -/
def sreg (k : CoreSt) (i : Nat) : BitVec 64 := if i = 0 then 0 else tget 0 k.regs.s i

/-- Writes scalar register `i`; a write of s0 is discarded. -/
def setS (k : CoreSt) (i : Nat) (v : BitVec 64) : CoreSt :=
  if i = 0 then k else { k with regs := { k.regs with s := tset 0 k.regs.s i v } }

/-- Address register `i`; a0 reads 0. -/
def areg (k : CoreSt) (i : Nat) : BitVec 64 := if i = 0 then 0 else tget 0 k.regs.a i

/-- Writes address register `i`; a write of a0 is discarded. -/
def setA (k : CoreSt) (i : Nat) (v : BitVec 64) : CoreSt :=
  if i = 0 then k else { k with regs := { k.regs with a := tset 0 k.regs.a i v } }

/-- Moves pc, as an instruction that completes does: its kernel has begun (R230). -/
def setPc (k : CoreSt) (v : BitVec 64) : CoreSt := { k with regs := { k.regs with pc := v, began := true } }

/-- Loop register `i`. -/
def lreg (k : CoreSt) (i : Nat) : LoopReg := tget {} k.regs.lc i

/-- Writes loop register `i`. -/
def setL (k : CoreSt) (i : Nat) (v : LoopReg) : CoreSt :=
  { k with regs := { k.regs with lc := tset {} k.regs.lc i v } }

/-! ## Fields (Table 5.2) -/

/-- SD of the formats R, I, J, V, S, M, A, C and F. -/
def fSD (w : Bits) : Nat := bf w 55 51
/-- SA of the formats R, I and C. -/
def fSA (w : Bits) : Nat := bf w 50 46
/-- SB of format R. -/
def fSB (w : Bits) : Nat := bf w 45 41
/-- The sign-extended IMM of the formats I, AD and M. -/
def fImm (w : Bits) : BitVec 64 := sext64 32 (bf w 31 0)
/-- The byte distance 8 × OFF of the formats B and J. -/
def fOff (w : Bits) : BitVec 64 := sext64 32 (bf w 31 0) * 8
/-- SA of format B. -/
def bSA (w : Bits) : Nat := bf w 55 51
/-- SB of format B. -/
def bSB (w : Bits) : Nat := bf w 50 46
/-- The fields of format L. -/
def lLC (w : Bits) : Nat := bf w 55 54
def lCI (w : Bits) : Bool := bt w 53
def lCS (w : Bits) : Nat := bf w 52 48
def lCimm (w : Bits) : Nat := bf w 47 32
def lBlen (w : Bits) : Nat := bf w 15 0 + 1
/-- LC of format V. -/
def vLC (w : Bits) : Nat := bf w 50 49
/-- AA of format S. -/
def sAA (w : Bits) : Nat := bf w 50 48
/-- The fields of format AD. -/
def adAD (w : Bits) : Nat := bf w 55 53
def adAA (w : Bits) : Nat := bf w 52 50
def adSB (w : Bits) : Nat := bf w 49 45
/-- AR, SIZE and SX of the formats M and A. -/
def mAR (w : Bits) : Nat := bf w 50 48
def mSize (w : Bits) : Nat := bf w 47 45
def mSX (w : Bits) : Bool := bt w 44
/-- FUNC, SB and SC of format A. -/
def amFunc (w : Bits) : Nat := bf w 44 41
def amSB (w : Bits) : Nat := bf w 40 36
def amSC (w : Bits) : Nat := bf w 35 31
/-- IDX of format C. -/
def cIdx (w : Bits) : Nat := bf w 11 0
/-- CH and DAR of format D. -/
def dCH (w : Bits) : Nat := bf w 55 54
def dDAR (w : Bits) : Nat := bf w 53 51
/-- MASK and N of format E. -/
def eMask (w : Bits) : Nat := bf w 55 47
def eN (w : Bits) : Nat := bf w 46 45
/-- COND, W64, SV and ST of format F. -/
def fCond (w : Bits) : Nat := bf w 47 45
def fW64 (w : Bits) : Bool := bt w 44
def fSV (w : Bits) : Nat := bf w 43 39
def fST (w : Bits) : Nat := bf w 38 34

/-! ## Reserved fields (R138) -/

def legalN (w : Bits) : Bool := decide (w = 0)
def legalR (w : Bits) : Bool := decide (bf w 40 0 = 0)
def legalI (w : Bits) : Bool := decide (bf w 45 32 = 0)
def legalB (w : Bits) : Bool := decide (bf w 45 32 = 0)
def legalJ (w : Bits) : Bool := decide (bf w 50 32 = 0)
/-- Format L: the reserved bits, and CS or CIMM 0 by CI (R144). -/
def legalL (w : Bits) : Bool := decide (bf w 31 16 = 0) && (if lCI w then decide (lCS w = 0) else decide (lCimm w = 0))
def legalV (w : Bits) : Bool := decide (bf w 48 0 = 0)
def legalS (w : Bits) : Bool := decide (bf w 47 0 = 0)
def legalAD (w : Bits) : Bool := decide (bf w 44 32 = 0)
/-- Format M: SIZE 0 to 3, and SX 0 in a store. -/
def legalM (w : Bits) (store : Bool) : Bool := decide (bf w 43 32 = 0 ∧ mSize w ≤ 3) && !(store && mSX w)
/-- Format A (R137): SIZE 2 or 3, a defined FUNC, and SC s0 except under CAS. -/
def legalA (w : Bits) : Bool :=
  decide (bf w 30 0 = 0 ∧ (mSize w = 2 ∨ mSize w = 3) ∧ amFunc w ≤ 9 ∧ (amFunc w = 9 ∨ amSC w = 0))
def legalC (w : Bits) : Bool := decide (bf w 45 12 = 0)
def legalD (w : Bits) : Bool := decide (bf w 50 0 = 0)
def legalE (w : Bits) : Bool := decide (bf w 44 0 = 0 ∧ eMask w ≠ 0)
def legalF (w : Bits) : Bool := decide (bf w 33 0 = 0 ∧ fCond w ≤ 5)
/-- A shift by IMM must be by 0 to 63. -/
def legalShift (w : Bits) : Bool := legalI w && decide (bf w 31 0 ≤ 63)

/-! ## Addresses (R146) -/

/-- An address with its low log2(size) bits cleared. -/
def alignTo (a : BitVec 64) (size : Nat) : BitVec 64 := BitVec.ofNat 64 (a.toNat / size * size)

/-- The bytes that SIZE selects. -/
def accBytes (w : Bits) : Nat := 2 ^ mSize w

/-- The scratchpad offset of LDS and STS. -/
def spadEa (k : CoreSt) (w : Bits) : Nat := (alignTo (areg k (mAR w) + fImm w) (accBytes w)).toNat % spadSize

/-- The virtual address of LD and ST. -/
def virtEa (k : CoreSt) (w : Bits) : BitVec 64 := alignTo (areg k (mAR w) + fImm w) (accBytes w)

/-- The value a load of `size` bytes gives its register (SX sign-extends). -/
def loadVal (size : Nat) (sx : Bool) (bs : List Byte) : BitVec 64 :=
  if sx then sext64 (8 * size) (leNat (bs.take size)) else BitVec.ofNat 64 (leNat (bs.take size))

end Sys2Proof.Machine
end

