-- ==== Sys2Proof/Machine/Issue.lean ====
section
/-!
DEFINITION. Issue of a sequencer instruction: when a core issues, decode faults and kernel-ending faults (R138,
R174), the end of a loop body and taken branches (R144, R145).
-/

namespace Sys2Proof.Machine

/-- Whether the core runs a direct kernel: BUSY of CORE_DIRECT (R181). -/
def isDirect (k : CoreSt) : Bool := bt k.cr.coreDirect 29

/-- Whether a retirement keeps a core from working: a direct kernel runs on a retired core under test (R181, Table 14.24). -/
def outOfUse (k : CoreSt) : Bool := k.retired && !isDirect k

/-- Whether a core issues instructions: it runs a kernel or a direct kernel, no wait or END or fault has
stopped issue, no COMMIT is held, and neither the scheduler nor a retirement has stopped the core (R140, R169,
R173, R174, R176). (DEDUCED: log entry 13.) -/
def canIssue (k : CoreSt) : Bool :=
  (decide (k.phase = .running) || isDirect k) && decide (k.wait = none ∧ k.fault = none)
  && !k.ended && !k.stop && !outOfUse k && !k.cr.commitPend

/-- An instruction address: a scratchpad offset modulo 4 MiB in a direct kernel (R181). -/
def normPc (k : CoreSt) (a : BitVec 64) : BitVec 64 := if isDirect k then BitVec.ofNat 64 (a.toNat % spadSize) else a

/-- Records the first kernel-ending fault: issue stops, held operations are discarded, and every DMA channel stops
its descriptor and discards its queue (R174 steps 1, 2 and 4). -/
def kernelFault (k : CoreSt) (code : Code) (src unit : Nat) (pc addr : BitVec 64) : CoreSt :=
  if k.fault = none then
    { k with
      fault := some ⟨code, BitVec.ofNat 3 src, BitVec.ofNat 2 unit, pc, addr⟩, wait := none, hold := [], dma := [] }
  else k

/-- The opcodes of Table 5.3. -/
def definedOpcode (n : Nat) : Bool :=
  decide (n ≤ 0x0E ∨ n = 0x11 ∨ (0x13 ≤ n ∧ n ≤ 0x18) ∨ n = 0x1B ∨ n = 0x1C ∨ n = 0x1E ∨ n = 0x1F
    ∨ (0x20 ≤ n ∧ n ≤ 0x29) ∨ n = 0x2D ∨ n = 0x2E ∨ (0x30 ≤ n ∧ n ≤ 0x35) ∨ n = 0x38 ∨ n = 0x39 ∨ n = 0x40
    ∨ (0x48 ≤ n ∧ n ≤ 0x4A) ∨ n = 0x50 ∨ (0x60 ≤ n ∧ n ≤ 0x63) ∨ n = 0x7F)

/-- The value that the scratchpad gives an LDS now. -/
def ldsNow (k : CoreSt) (w : Bits) : BitVec 64 := loadVal (accBytes w) (mSX w) (spadRd k.mem.spad (spadEa k w) (accBytes w))

/-- The value that the prefetch buffer holds for the LDS at pc (R143). -/
def prefetched (k : CoreSt) (w : Bits) : Option Prefetched :=
  k.prefetch.find? fun p => decide (p.pc = normPc k k.regs.pc ∧ p.word = w)

/-- The prefetch buffer without the entry of the LDS at pc. -/
def dropPrefetched (k : CoreSt) (w : Bits) : CoreSt :=
  { k with prefetch := k.prefetch.filter fun p => !decide (p.pc = normPc k k.regs.pc ∧ p.word = w) }

/-- ILLEGAL_OP at decode: the instruction has no effect and the kernel ends (R138). -/
def illegalOp (k : CoreSt) : CoreSt := kernelFault k St.illegalOp 0 0 k.regs.pc 0

/-- Whether a load, atomic or flag read that is outstanding will write scalar register `i`, so that an
instruction that names it waits (R140). (DEDUCED: log entry 13.) -/
def busyReg (k : CoreSt) (i : Nat) : Bool :=
  decide (i ≠ 0) && k.accs.any fun a => decide (a.sd.toNat = i ∧ (a.kind = .load ∨ a.kind = .atomic))

/-- Issues an instruction of core `c`: nothing happens while the core does not issue or a named register is
not ready; an illegal word ends the kernel; else `body` acts on the core. (DESIGN CHOICE: log entry 11.) (DEDUCED: log entry 13.) -/
def issueCore (s : State) (c : Nat) (legal : Bool) (regs : List Nat) (body : CoreSt → CoreSt) : State :=
  let k := getCore s c
  if !canIssue k then s
  else if !legal then setCore s c (illegalOp k)
  else if regs.any (busyReg k) then s
  else setCore s c (body k)

/-! ## Loops (R144, R145) -/

/-- The distance from `b` to `a` in bytes, in the address space that pc walks. -/
def addrDist (k : CoreSt) (a b : BitVec 64) : Nat := (normPc k (a - b)).toNat

/-- Whether `a` lies in the body of a loop. -/
def inBody (k : CoreSt) (l : LoopReg) (a : BitVec 64) : Bool := decide (addrDist k a l.start ≤ addrDist k l.last l.start)

/-- The innermost active loop whose last body word is `a`: the one with the shortest body. -/
def innerLoop (k : CoreSt) (a : BitVec 64) : Option Nat :=
  ((List.range 4).filter fun i => (lreg k i).active && decide ((lreg k i).last = a)).foldl
    (fun best i => match best with
      | none => some i
      | some j => if addrDist k a (lreg k i).start < addrDist k a (lreg k j).start then some i else some j) none

/-- The end-of-body step of the loops that end on the word at `a`, innermost first (R144, R145). -/
def endBody : Nat → CoreSt → BitVec 64 → CoreSt
  | 0, k, a => setPc k (normPc k (a + 8))
  | n + 1, k, a =>
    match innerLoop k a with
    | none => setPc k (normPc k (a + 8))
    | some i =>
      let l := lreg k i
      if l.index.toNat + 1 < l.count.toNat then setPc (setL k i { l with index := l.index + 1 }) l.start
      else endBody n (setL k i { l with active := false }) a

/-- Completes an instruction of `n` words without a taken branch: its last word may end loop bodies. (DESIGN CHOICE: log entry 11.) -/
def advance (k : CoreSt) (n : Nat) : CoreSt := endBody 4 k (normPc k (k.regs.pc + BitVec.ofNat 64 (8 * (n - 1))))

/-- A taken branch or jump to `t`: it ends every loop whose body it leaves (R145). -/
def jump (k : CoreSt) (t : BitVec 64) : CoreSt :=
  let t := normPc k t
  let k1 := (List.range 4).foldl (fun k i =>
    if (lreg k i).active && !inBody k (lreg k i) t then setL k i { lreg k i with active := false } else k) k
  setPc k1 t

end Sys2Proof.Machine
end

