-- ==== Sys2Proof/Machine/Engine.lean ====
section
/-!
DEFINITION. What the five engines of a core share: hold slots, dispatch numbers, acceptance order, tile claims,
completion and its codes (R78, R150 to R152), and the operand format descriptor (R57 to R59).
-/

namespace Sys2Proof.Machine

/-! ## Hold slots and operations -/

/-- The hold slot of unit `u` (R150). -/
def holdOf (k : CoreSt) (u : Nat) : Option HeldOp := tget none k.hold u

/-- The accepted operations of unit `u`, oldest first. (DEDUCED: log entry 21.) -/
def opsOf (k : CoreSt) (u : Nat) : List RunOp := tget [] k.ops u

def setHold (k : CoreSt) (u : Nat) (h : Option HeldOp) : CoreSt := { k with hold := tset none k.hold u h }
def setOps (k : CoreSt) (u : Nat) (l : List RunOp) : CoreSt := { k with ops := tset [] k.ops u l }

/-- UCNT of unit `u` with DISP advanced (Table 5.22). -/
def bumpDisp (k : CoreSt) (u : Nat) : CoreSt :=
  let c := tget 0 k.cr.ucnt u
  { k with cr := { k.cr with ucnt := tset 0 k.cr.ucnt u (sf c 31 16 (bf c 31 16 + 1)) }, dispNo := k.dispNo + 1 }

/-- Puts an engine instruction into its unit's hold slot with the next dispatch number (R150). -/
def dispatchEngine (k : CoreSt) (u : Nat) (kind : EngKind) (w0 w1 : BitVec 64) (vals : List (BitVec 64)) : CoreSt :=
  bumpDisp (setHold k u (some ⟨kind, w0, w1, k.dispNo, k.regs.pc, vals, false⟩)) u

/-- ECODE after a completion with `code` (R152, Table 5.21). -/
def ecodeAfter (e : BitVec 32) (code : Code) (disp : Nat) : BitVec 32 :=
  if code = St.ok then e
  else
    let n := bf e 30 24
    let e1 := sf e 30 24 (if n = 127 then 127 else n + 1)
    if n = 0 then sf (sf e1 23 16 code.toNat) 15 0 disp else e1

/-- Records the completion of an operation dispatched by the sequencer: DONE and ECODE (R152). -/
def completeUnit (k : CoreSt) (u : Nat) (code : Code) (disp : Nat) : CoreSt :=
  let c := tget 0 k.cr.ucnt u
  { k with cr := { k.cr with
      ucnt := tset 0 k.cr.ucnt u (sf c 15 0 (bf c 15 0 + 1)),
      ecode := tset 0 k.cr.ecode u (ecodeAfter (tget 0 k.cr.ecode u) code disp) } }

/-- Sets bits of CORE_FPSTAT (R55). -/
def setFp (k : CoreSt) (b : FpBits) : CoreSt := { k with cr := { k.cr with fpstat := k.cr.fpstat ||| b.setWidth 32 } }

/-- The completion of an engine operation: of one that the sequencer dispatched by R152, of a direct stream
operation by CHS_DIRECT (R128). FMT_RESERVED ends the kernel. -/
def finishOp (k : CoreSt) (u : Nat) (o : HeldOp) (code : Code) : CoreSt :=
  if o.direct then { k with cr := { k.cr with chsDirect := sf (sb k.cr.chsDirect 30 false) 29 22 code.toNat } }
  else
    let k1 := completeUnit k u code o.disp
    if code = St.fmtReserved then kernelFault k1 code (if u = 4 then 4 else 3) (if u = 4 then 0 else u) o.pc 0 else k1

/-! ## The values read at issue (R81, R111) -/

/-- The instruction word whose bits below the opcode are `w`. -/
def word0 (opcode : Nat) (w : Bits) : BitVec 64 := BitVec.ofNat 64 (opcode * 2 ^ 56 + w.toNat)

/-- An offset or pitch named through a register: bits [21:4] (R75). -/
def off16 (v : BitVec 64) : Nat := v.toNat % spadSize / 16 * 16

/-- The value read at issue for the `i`th register the instruction names. -/
def opVal (o : HeldOp) (i : Nat) : BitVec 64 := o.vals.getD i 0

/-! ## Acceptance and claims (R78, R98, R151) -/

/-- Whether an operation was dispatched before another; a direct stream operation comes before the next one. -/
def dispatchedBefore (a b : HeldOp) : Bool := decide (a.disp < b.disp) || (decide (a.disp = b.disp) && a.direct && !b.direct)

/-- Whether two tile lists share a tile. -/
def meets (a b : List Nat) : Bool := a.any fun t => b.contains t

/-- Whether every tile is free of the claims of operations dispatched before `o` (R78). (DEDUCED: log entry 21.) -/
def tilesFree (k : CoreSt) (o : HeldOp) (tiles : List Nat) : Bool :=
  (List.range 5).all fun u => (opsOf k u).all fun r => !(dispatchedBefore r.op o && meets r.tiles tiles)

/-- Whether an operation accepted by unit `u` still waits for its first cycle. -/
def entryBusy (k : CoreSt) (u : Nat) : Bool := (opsOf k u).any fun r => decide (r.stage = .checked)

/-- Whether a hold slot may release its operation: not while a save runs, nor after a retirement or a fault
(R174, R176), nor once an error has become permanent (R105, R161). -/
def mayAccept (k : CoreSt) : Bool :=
  (decide (k.phase = .running) || isDirect k) && decide (k.fault = none) && !k.stop && !k.retireDue && !outOfUse k

/-! ## Generators across a COMMIT (R49) -/

/-- Runs `f` with the generator states of epoch `e` in place, and puts the current ones back. -/
def withEpoch (k : CoreSt) (e : Nat) (f : CoreSt → CoreSt) : CoreSt :=
  match k.oldGens.find? fun p => p.1 = e with
  | none => f k
  | some (_, sd, gs) =>
    let k1 := f { k with mem := { k.mem with genSeed := sd, gens := gs } }
    { k1 with
      oldGens := k1.oldGens.map fun p => if p.1 = e then (e, k1.mem.genSeed, k1.mem.gens) else p,
      mem := { k1.mem with genSeed := k.mem.genSeed, gens := k.mem.gens } }

/-! ## Operand format descriptors (Table 2.9) -/

abbrev Ofd := BitVec 128
def ofElem (o : Ofd) : Nat := bf o 3 0
def ofDir (o : Ofd) : Nat := bf o 5 4
def ofB0 (o : Ofd) : Nat := bf o 9 6
def ofB1 (o : Ofd) : Nat := bf o 13 10
def ofExpand (o : Ofd) : Nat := bf o 19 18
def ofExpFmt (o : Ofd) : Nat := bf o 23 20
def ofScaleOff (o : Ofd) : Nat := bf o 53 32
def ofScalePitch (o : Ofd) : Nat := bf o 85 64
def ofLutOff (o : Ofd) : Nat := bf o 107 86
def ofSlice (o : Ofd) : Nat := bf o 111 108

/-- Formats marked "Block-scaled element" in Table 2.2. -/
def blockScaled (f : Nat) : Bool := decide (4 ≤ f ∧ f ≤ 11)

/-- Formats marked "Expansion result" in Table 2.2. -/
def expansionResult (f : Nat) : Bool := decide (f = 1 ∨ f = 2 ∨ f = 4 ∨ f = 5)

/-- Formats marked "Expansion source" in Table 2.2. -/
def expansionSource (f : Nat) : Bool := decide (9 ≤ f ∧ f ≤ 11)

/-- The checks of R57 and R58 on a descriptor; `ashlar` names an Ashlar operand. -/
def ofdOk (o : Ofd) (ashlar : Bool) : Bool :=
  decide (bf o 127 112 = 0 ∧ bf o 63 54 = 0 ∧ bf o 31 24 = 0 ∧ bf o 17 14 = 0 ∧ ofElem o ≤ 13)
  && (match ofDir o with
    | 0 => decide (ofScaleOff o = 0 ∧ ofScalePitch o = 0 ∧ ofB0 o = 0 ∧ ofB1 o = 0)
    | 3 => decide (1 ≤ ofB0 o ∧ ofB0 o ≤ 4 ∧ 1 ≤ ofB1 o ∧ ofB1 o ≤ 4 ∧ 3 ≤ ofB0 o + ofB1 o) && blockScaled (ofElem o)
    | _ => decide (3 ≤ ofB0 o ∧ ofB0 o ≤ 8 ∧ ofB1 o = 0) && blockScaled (ofElem o))
  && (match ofExpand o with
    | 0 => decide (ofExpFmt o = 0 ∧ ofLutOff o = 0)
    | 1 => expansionSource (ofElem o) && expansionResult (ofExpFmt o) && decide (ofLutOff o % 2 = 0)
    | 2 => expansionSource (ofElem o) && expansionResult (ofExpFmt o)
        && decide (ofDir o ≠ 0 ∧ ofScaleOff o % 4 = 0 ∧ ofScalePitch o % 4 = 0 ∧ ofLutOff o = 0)
    | _ => false)
  && (if ofSlice o = 0 then !(ashlar && decide (ofElem o = Fm.fp64))
    else ashlar && decide (6 ≤ ofSlice o ∧ ofSlice o ≤ 12 ∧ ofElem o = Fm.fp64 ∧ ofDir o = 0 ∧ ofExpand o = 0))

/-- The address of the scale record of element (row, col) with record size `z` (Table 2.10). -/
def scaleAddr (o : Ofd) (row col z : Nat) : Nat :=
  match ofDir o with
  | 1 => ofScaleOff o + row * ofScalePitch o + col / 2 ^ ofB0 o * z
  | 2 => ofScaleOff o + row / 2 ^ ofB0 o * ofScalePitch o + col * z
  | _ => ofScaleOff o + row / 2 ^ ofB0 o * ofScalePitch o + col / 2 ^ ofB1 o * z

/-- A descriptor read from a scratchpad; bits [3:0] of the offset are ignored (R57). -/
def rdOfd (m : List Host.Cell) (off : Nat) : Ofd := BitVec.ofNat 128 (leNat (spadRd m (off % spadSize / 16 * 16) 16))

/-- The block-scaled value of an element without expansion (R56). -/
def ofdValue (m : List Host.Cell) (o : Ofd) (row col raw : Nat) : Num :=
  let x := decodeNum (ofElem o) raw
  if ofDir o = 0 then x else scaled x (leNat (spadRd m (scaleAddr o row col 1) 1))

/-! ## The accumulator file (R77) -/

/-- Word (i, j) of accumulator tile `q`. -/
def accGet (m : CoreMem) (q i j : Nat) : Nat := (tget 0 m.acc (4096 * q + 64 * i + j)).toNat

/-- Writes word (i, j) of accumulator tile `q`. -/
def accSet (m : CoreMem) (q i j v : Nat) : CoreMem := { m with acc := tset 0 m.acc (4096 * q + 64 * i + j) (BitVec.ofNat 32 v) }

end Sys2Proof.Machine
end

