-- ==== Sys2Proof/Machine/Ashlar.lean ====
section
/-!
DEFINITION. The arithmetic of an Ashlar operation (chapter 3): the fields of AMM, its checks, its operands, its
accumulation, its drain and the sliced FP64 mode.
-/

namespace Sys2Proof.Machine

/-! ## Fields of AMM (Tables 3.5 and 3.6) -/

def amEng (w : BitVec 64) : Nat := bf w 55 54
def amMode (w : BitVec 64) : Nat := bf w 53 52
def amStat (w : BitVec 64) : Bool := bt w 51
def amAcc (w : BitVec 64) : Bool := bt w 50
def amOvf (w : BitVec 64) : Bool := bt w 49
def amCvt (w : BitVec 64) : Nat := bf w 48 46
def amTile0 (w : BitVec 64) : Nat := bf w 45 43
def amMT (w : BitVec 64) : Nat := bf w 42 40 + 1
def amNT (w : BitVec 64) : Nat := bf w 39 37 + 1
def amMlast (w : BitVec 64) : Nat := bf w 36 31 + 1
def amNlast (w : BitVec 64) : Nat := bf w 30 25 + 1
def amK (w : BitVec 64) : Nat := bf w 24 15 * 8
def amSkip (w : BitVec 64) : Bool := bt w 14
def amOut (w : BitVec 64) : Bool := bt w 13
def amOutFmt (w : BitVec 64) : Nat := bf w 12 9

/-- The rows of A and the columns of B. -/
def amM (w : BitVec 64) : Nat := (amMT w - 1) * 64 + amMlast w
def amN (w : BitVec 64) : Nat := (amNT w - 1) * 64 + amNlast w

/-- Register numbers of word 1, in the order of Table 3.6: four address registers, then five scalar registers. -/
def amAregs (w1 : BitVec 64) : List Nat := [bf w1 63 61, bf w1 60 58, bf w1 57 55, bf w1 54 52]
def amSregs (w1 : BitVec 64) : List Nat := [bf w1 51 47, bf w1 46 42, bf w1 41 37, bf w1 36 32, bf w1 31 27]
def amAT (w1 : BitVec 64) : Bool := bt w1 26
def amBT (w1 : BitVec 64) : Bool := bt w1 25

/-- The decode conditions of R82. -/
def amLegal (w0 w1 : BitVec 64) : Bool :=
  decide (bf w0 8 0 = 0 ∧ bf w1 24 0 = 0)
  && decide (amMode w0 ≠ 3)
  && decide (1 ≤ bf w0 24 15 ∧ bf w0 24 15 ≤ 512)
  && decide (amMT w0 * amNT w0 ≤ 8 ∧ amTile0 w0 + amMT w0 * amNT w0 ≤ 8)
  && (amSkip w0 || decide (bf w1 54 52 = 0))
  && (amOut w0 || decide (amOutFmt w0 = 0 ∧ bf w1 31 27 = 0 ∧ (amMode w0 = 2 ∨ bf w1 57 55 = 0)))
  && !(decide (amMode w0 ≠ 0) && amSkip w0)
  && (decide (amMode w0 ≠ 2) || (decide (amMT w0 = 1 ∧ amNT w0 = 1 ∧ amTile0 w0 ≤ 1) && !amOut w0))

/-! ## The values read at issue (R75, R81) -/

def amAoff (o : HeldOp) : Nat := off16 (opVal o 0)
def amBoff (o : HeldOp) : Nat := off16 (opVal o 1)
def amCoff (o : HeldOp) : Nat := off16 (opVal o 2)
def amSkoff (o : HeldOp) : Nat := off16 (opVal o 3)
def amApitch (o : HeldOp) : Nat := off16 (opVal o 6)
def amBpitch (o : HeldOp) : Nat := off16 (opVal o 7)
def amCpitch (o : HeldOp) : Nat := off16 (opVal o 8)

/-- The tiles that an AMM names, as tiles of the core (R77, R96). -/
def amTiles (w0 : BitVec 64) : List Nat :=
  (List.range (if amMode w0 = 2 then 7 else amMT w0 * amNT w0)).map fun x => 8 * amEng w0 + amTile0 w0 + x

/-! ## Dispatch checks (R83) -/

/-- The format an operand has in the array (R37). -/
def arrayFmt (o : Ofd) : Nat := if ofExpand o = 0 then ofElem o else ofExpFmt o

/-- The floating-point and integer array formats of R37. -/
def arrayFp (f : Nat) : Bool := decide (f = 1 ∨ f = 2 ∨ (4 ≤ f ∧ f ≤ 8))
def arrayInt (f : Nat) : Bool := decide (9 ≤ f ∧ f ≤ 11)

/-- Whether a NORMAL operation is an integer one. -/
def amIsInt (a : Ofd) : Bool := arrayInt (arrayFmt a)

/-- K_max of a stored format: the largest multiple of 8 with K · b ≤ 8,192 (R74). -/
def kMax (f : Nat) : Nat := 8192 / fmtBits f / 8 * 8

/-- Every check of R83 passes. -/
def amChecks (w0 : BitVec 64) (a b : Ofd) : Bool :=
  let fa := arrayFmt a
  let fb := arrayFmt b
  let rm := amCvt w0 % 4
  let out := amOutFmt w0
  ofdOk a true && ofdOk b true
  && (match amMode w0 with
    | 0 => ((arrayFp fa && arrayFp fb) || (arrayInt fa && arrayInt fb))
        && !(arrayInt fa && decide (ofDir a ≠ 0)) && !(arrayInt fb && decide (ofDir b ≠ 0))
    | 1 => decide (fa = Fm.fp32 ∧ fb = Fm.fp32)
    | _ => decide (fa = Fm.fp64 ∧ fb = Fm.fp64 ∧ ofSlice a = ofSlice b))
  && (decide (amMode w0 = 2) || (decide (rm ≠ 3)
      && (decide (rm ≠ 2) || (amOut w0 && decide (out = 1 ∨ out = 2 ∨ out = 4 ∨ out = 5 ∨ out = 9 ∨ out = 10)))))
  && (!amOut w0 || (match amMode w0 with
    | 0 => if arrayInt fa then decide (out = 12 ∨ out = 9 ∨ out = 10)
        else decide (out = 0 ∨ out = 1 ∨ out = 2 ∨ out = 4 ∨ out = 5)
    | _ => decide (out = 0 ∨ out = 1)))
  && (if amMode w0 = 2 then decide (amK w0 = 2 ^ ofSlice a)
    else decide (amK w0 ≤ kMax (ofElem (if amStat w0 then b else a))))

/-- The bytes of an operand's lookup table, copied at acceptance (R63, R81). -/
def lutBytes (m : List Host.Cell) (o : Ofd) : List Byte :=
  if ofExpand o = 1 then spadRd m (ofLutOff o) (2 ^ fmtBits (ofElem o) * (fmtBits (ofExpFmt o) / 8)) else []

/-! ## Operand elements (R63, R64, R75) -/

/-- The value of an element as it enters the array and the bits its expansion sets. (DESIGN CHOICE: log entry 14.) -/
def operandValue (m : List Host.Cell) (o : Ofd) (lut : List Byte) (row col raw : Nat) : Num × FpBits :=
  match ofExpand o with
  | 1 =>
    let n := fmtBits (ofExpFmt o) / 8
    let x := decodeNum (ofExpFmt o) (fieldLe lut (raw * n) n)
    (if ofDir o = 0 then x else scaled x (leNat (spadRd m (scaleAddr o row col 1) 1)), 0)
  | 2 =>
    let r := spadRd m (scaleAddr o row col 4) 4
    let s := decodeNum Fm.bf16 (fieldLe r 0 2)
    let f := ofExpFmt o
    if s.isNan || s.isInf then (.nan, fNV)
    else
      let d := decodeInt (ofElem o) raw - toInt 8 (fieldLe r 2 1)
      match roundNum f 4 0 false false ((Num.ofInt d).mul s) with
      | (v, b) => (decodeNum f v, b)
  | _ => (ofdValue m o row col raw, 0)

/-- Element (r, c) of A or B as Table 3.3 stores it: `t` swaps the stored row and column. -/
def operandAt (m : List Host.Cell) (o : Ofd) (lut : List Byte) (off pitch : Nat) (t : Bool) (r c : Nat) : Num × FpBits :=
  let row := if t then c else r
  let col := if t then r else c
  operandValue m o lut row col (rdElem m (off + row * pitch) (ofElem o) col)

/-- The rate group of an array format (Table 3.1). -/
def gOp (f : Nat) : Nat := if f = 1 ∨ f = 2 then 1 else if f = 8 ∨ f = 11 then 4 else 2

/-! ## Accumulation (R85 to R87, R93) -/

/-- RM and SAT of the accumulation (R86). -/
def accCvt (cvt : Nat) : Nat := cvt / 4 * 4 + (if cvt % 4 = 1 then 1 else 0)

/-- One array cycle of a floating-point operation: the FP32 accumulator plus the exact products, rounded once. -/
def fpCycle (cvt : Nat) (acc : Nat) (terms : List (Num × Num)) : Nat × FpBits :=
  let ps := terms.map fun p => (p.1.mul p.2, madeNan [p.1, p.2] (p.1.mul p.2))
  let a := decodeNum Fm.fp32 acc
  let sum := ps.foldl (fun x p => x.add p.1) a
  let nv := (ps.any fun p => p.2) || madeNan (a :: ps.map fun p => p.1) sum
  match roundNum Fm.fp32 (accCvt cvt) 0 false false sum with
  | (v, b) => (v, b ||| fIf nv fNV)

/-- One array cycle of an integer operation. -/
def intCycle (wrap : Bool) (acc : Nat) (terms : List (Num × Num)) : Nat × FpBits :=
  let sum := terms.foldl (fun x p => x.add (p.1.mul p.2)) (decodeNum Fm.int32 acc)
  match sum with
  | .fin s m e => narrowInt Fm.int32 wrap (sigAt s m e 0)
  | _ => (acc, 0)

/-- The BF16 halves of an FP32 element (R93). -/
def splitHalves (x : Num) : Num × Num :=
  let hi := decodeNum Fm.bf16 (roundNum Fm.bf16 4 0 false false x).1
  let lo := decodeNum Fm.bf16 (roundNum Fm.bf16 4 0 false false (x.add hi.neg)).1
  (hi, lo)

/-- The products of one k of SPLIT32 (R93). -/
def splitTerms (a b : Num) : List (Num × Num) :=
  if a.isNan || a.isInf || b.isNan || b.isInf then [(a, b)]
  else
    let ha := splitHalves a
    let hb := splitHalves b
    [(ha.1, hb.1), (ha.1, hb.2), (ha.2, hb.1)]

/-- Where the operands of a running operation stand. -/
structure AmCtx where
  o : HeldOp
  a : Ofd
  b : Ofd
  la : List Byte
  lb : List Byte
  skips : List (BitVec 64)

def amCtx (r : RunOp) : AmCtx :=
  ⟨r.op, r.ofds.getD 0 0, r.ofds.getD 1 0, r.luts.getD 0 [], r.luts.getD 1 [], r.skips⟩

def AmCtx.aAt (x : AmCtx) (m : List Host.Cell) (i k : Nat) : Num × FpBits :=
  operandAt m x.a x.la (amAoff x.o) (amApitch x.o) (amAT x.o.w1) i k

def AmCtx.bAt (x : AmCtx) (m : List Host.Cell) (k j : Nat) : Num × FpBits :=
  operandAt m x.b x.lb (amBoff x.o) (amBpitch x.o) (amBT x.o.w1) k j

/-- The rate group g of a NORMAL operation (R72); one k of SPLIT32 is rounded by itself. -/
def AmCtx.g (x : AmCtx) : Nat :=
  if amMode x.o.w0 = 1 then 1
  else
    let ga := gOp (arrayFmt x.a)
    let gb := gOp (arrayFmt x.b)
    if ga ≤ gb then ga else gb

/-- Whether output tile `t` leaves out the block of k (R91). -/
def AmCtx.skipped (x : AmCtx) (t k : Nat) : Bool := amSkip x.o.w0 && bt (x.skips.getD t 0) (k / 64)

/-- The array cycles of output element (i, j) of output tile `t`, from cycle `c` on. -/
def amCycles (x : AmCtx) (m : List Host.Cell) (t i j : Nat) : Nat → Nat → Nat → FpBits → Nat × FpBits
  | 0, _, acc, fl => (acc, fl)
  | n + 1, c, acc, fl =>
    if x.skipped t (c * x.g) then amCycles x m t i j n (c + 1) acc fl
    else
      let els := (List.range x.g).map fun d => (x.aAt m i (c * x.g + d), x.bAt m (c * x.g + d) j)
      let fe := els.foldl (fun f e => f ||| e.1.2 ||| e.2.2) 0
      let terms := if amMode x.o.w0 = 1 then els.flatMap fun e => splitTerms e.1.1 e.2.1
        else els.map fun e => (e.1.1, e.2.1)
      match (if amMode x.o.w0 = 0 && amIsInt x.a then intCycle (amOvf x.o.w0) acc terms
        else fpCycle (amCvt x.o.w0) acc terms) with
      | (acc', f) => amCycles x m t i j n (c + 1) acc' (fl ||| fe ||| f)

/-- The processing order of the output tiles, as (m-tile, n-tile) (R73). -/
def amOrder (w0 : BitVec 64) : List (Nat × Nat) :=
  if amStat w0 then (List.range (amNT w0)).flatMap fun n => (List.range (amMT w0)).map fun m => (m, n)
  else (List.range (amMT w0)).flatMap fun m => (List.range (amNT w0)).map fun n => (m, n)

/-- The output tile index x of (m-tile, n-tile) (R77). -/
def tileIdx (w0 : BitVec 64) (p : Nat × Nat) : Nat := p.1 * amNT w0 + p.2

/-- The positions (i, j) of a tile, in row order. -/
def tileCells : List (Nat × Nat) := (List.range 64).flatMap fun i => (List.range 64).map fun j => (i, j)

/-- The accumulator tile of output tile `p` of an operation, as a tile of the core (R77). -/
def amTileNo (w0 : BitVec 64) (p : Nat × Nat) : Nat := 8 * amEng w0 + amTile0 w0 + tileIdx w0 p

/-- Whether position `c` of output tile `p` lies in M × N (R79). -/
def amInside (w0 : BitVec 64) (p c : Nat × Nat) : Bool := decide (64 * p.1 + c.1 < amM w0 ∧ 64 * p.2 + c.2 < amN w0)

/-- Computes position `c` of output tile `p` from the operands in scratchpad `sp` (R79, R85, R87). -/
def amCell (x : AmCtx) (sp : List Host.Cell) (p : Nat × Nat) (k : CoreSt) (c : Nat × Nat) : CoreSt :=
  let w0 := x.o.w0
  let q := amTileNo w0 p
  if amInside w0 p c then
    let r := amCycles x sp (tileIdx w0 p) (64 * p.1 + c.1) (64 * p.2 + c.2) (amK w0 / x.g) 0
      (if amAcc w0 then accGet k.mem q c.1 c.2 else 0) 0
    setFp { k with mem := accSet k.mem q c.1 c.2 r.1 } r.2
  else if amAcc w0 then k else { k with mem := accSet k.mem q c.1 c.2 0 }

/-- Computes one output tile in its accumulator tile, from the operands in scratchpad `m`. -/
def amTile (x : AmCtx) (m : List Host.Cell) (k : CoreSt) (p : Nat × Nat) : CoreSt := tileCells.foldl (amCell x m p) k

/-- Drains position `c` of output tile `p` to the scratchpad (R89). -/
def drainCell (x : AmCtx) (p : Nat × Nat) (k : CoreSt) (c : Nat × Nat) : CoreSt :=
  let w0 := x.o.w0
  let src := if amMode w0 = 0 ∧ amIsInt x.a then Fm.int32 else Fm.fp32
  let dst := amOutFmt w0
  let n := fmtBits dst / 8
  if amInside w0 p c then
    let raw := accGet k.mem (amTileNo w0 p) c.1 c.2
    let g := if amCvt w0 % 4 = 2 then genNext k.mem (256 + 64 * amEng w0 + c.2) else (0, k.mem)
    let r := if src = dst then (raw, (0 : FpBits)) else convertBits src dst (amCvt w0) g.1 (amOvf w0) raw
    let at0 := amCoff x.o + (64 * p.1 + c.1) * amCpitch x.o + (64 * p.2 + c.2) * n
    setFp { k with mem := { g.2 with spad := spadWr g.2.spad at0 (toLe n r.1) } } r.2
  else k

/-- Drains one tile to the scratchpad. -/
def amDrain (x : AmCtx) (k : CoreSt) (p : Nat × Nat) : CoreSt := tileCells.foldl (drainCell x p) k

/-! ## SLICED64 (R95 to R97) -/

/-- The elements of row i of A, or column j of B, over the reduction block; beyond MLAST or NLAST none. -/
def sliceRow (x : AmCtx) (m : List Host.Cell) (i : Nat) : List Num :=
  if i < amMlast x.o.w0 then (List.range (amK x.o.w0)).map fun k => (x.aAt m i k).1 else []
def sliceCol (x : AmCtx) (m : List Host.Cell) (j : Nat) : List Num :=
  if j < amNlast x.o.w0 then (List.range (amK x.o.w0)).map fun k => (x.bAt m k j).1 else []

/-- An entry of the exponent record (Table 3.8). -/
def expEntry (xs : List Num) : Nat :=
  if spreadBad xs then 0x7FFFFFFF
  else match sharedExp xs with
    | none => 0x80000000
    | some e => (e % 2 ^ 32).toNat

/-- The scan: the exponent record at C_OFF, and whether SPREAD_EXCEEDED is raised (R96, R97). -/
def slicedScan (x : AmCtx) (k : CoreSt) : CoreSt × Bool :=
  let m := k.mem.spad
  let es := ((List.range 64).map fun i => expEntry (sliceRow x m i)) ++ ((List.range 64).map fun j => expEntry (sliceCol x m j))
  let bad := es.any fun e => decide (e = 0x7FFFFFFF)
  let k1 := { k with mem := { k.mem with spad := spadWr m (amCoff x.o) (es.flatMap fun e => toLe 4 e) } }
  (if bad then setFp k1 fSPREAD else k1, bad)

/-- The slices of every element of a row or column (R66, R96). R65 defines no shared exponent for the finite elements of one that
holds an infinity or a NaN: it is the largest over its finite non-zero elements. (DESIGN CHOICE: log entry 87.) -/
def slicesOfRun (xs : List Num) : List (List Int) :=
  match sharedExp xs with
  | none => xs.map fun _ => []
  | some e => xs.map fun v => slicesOf (sliceInt e v)

/-- The diagonal sum D[s] of one row of A and one column of B (R68, R96). -/
def diagSum (a b : List (List Int)) (s : Nat) : Int :=
  (a.zip b).foldl (fun acc p =>
    acc + ((List.range (s + 1)).foldl (fun t i => t + p.1.getD i 0 * p.2.getD (s - i) 0) 0)) 0

/-- The passes: D[s] in tile TILE0 + s for every cell (R96). -/
def slicedPasses (x : AmCtx) (m : List Host.Cell) (k : CoreSt) : CoreSt :=
  let rows := (List.range 64).map fun i => slicesOfRun (sliceRow x m i)
  let cols := (List.range 64).map fun j => slicesOfRun (sliceCol x m j)
  let q := 8 * amEng x.o.w0 + amTile0 x.o.w0
  (List.range 7).foldl (fun k s =>
    tileCells.foldl (fun k c =>
      { k with mem := accSet k.mem (q + s) c.1 c.2 ((diagSum (rows.getD c.1 []) (cols.getD c.2 []) s) % 2 ^ 32).toNat }) k) k

/-- What the array does from the first array cycle of an operation on, with operands as scratchpad `m` holds them: every tile, or
every diagonal sum. -/
def amRun (x : AmCtx) (m : List Host.Cell) (k : CoreSt) : CoreSt :=
  if amMode x.o.w0 = 2 then slicedPasses x m k else (amOrder x.o.w0).foldl (amTile x m) k

end Sys2Proof.Machine
end

