-- ==== Sys2Proof/Machine/ChainDesc.lean ====
section
/-!
DEFINITION. The chain descriptor of a Chisel operation: its fields (Tables 4.2 to 4.15), its restart granule (R110),
the tiles it names (R116) and its dispatch checks (R124, R127).
-/

namespace Sys2Proof.Machine

/-- A 64-bit word of a descriptor. -/
def descWord (d : List Byte) (off : Nat) : BitVec 64 := BitVec.ofNat 64 (fieldLe d off 8)

/-! ## Header and stage words -/

def hdr (d : List Byte) : BitVec 64 := descWord d 0
def hLen (d : List Byte) : Nat := bf (hdr d) 63 44 + 1
def hW (d : List Byte) : Nat := bf (hdr d) 43 40
def hSer (d : List Byte) : Bool := bt (hdr d) 39
def hMz (d : List Byte) : Bool := bt (hdr d) 38
def hMinv (d : List Byte) : Bool := bt (hdr d) 37
/-- Slot enables: 0 to 2 inputs, 3 mask, 4 and 5 outputs. -/
def hSlot (d : List Byte) (i : Nat) : Bool := bt (hdr d) (31 + i)
/-- Stage enables: 0 FMA-A, 1 Function, 2 FMA-B, 3 Permute/Reduce. -/
def hStage (d : List Byte) (i : Nat) : Bool := bt (hdr d) (27 + i)

def wIn (d : List Byte) : BitVec 64 := descWord d 8
def wUnp (d : List Byte) : BitVec 64 := descWord d 16
def wFmaA (d : List Byte) : BitVec 64 := descWord d 24
def wFn (d : List Byte) : BitVec 64 := descWord d 32
def wFmaB (d : List Byte) : BitVec 64 := descWord d 40
def wPerm (d : List Byte) : BitVec 64 := descWord d 48
def wPack (d : List Byte) : BitVec 64 := descWord d 56

/-- The source of operand 0, 1 or 2 (X, Y, Z), its vector register and its unpack mode (Tables 4.7 and 4.8). -/
def srcOf (d : List Byte) (i : Nat) : Nat := bf (wIn d) (63 - 3 * i) (61 - 3 * i)
def srcVr (d : List Byte) (i : Nat) : Nat := bf (wIn d) (54 - 4 * i) (51 - 4 * i)
def unpOf (d : List Byte) (i : Nat) : Nat := bf (wUnp d) (63 - 2 * i) (62 - 2 * i)
def ucvt (d : List Byte) : Nat := bf (wUnp d) 57 55

/-- Fields of the FMA words (Table 4.9). -/
def fmOp (w : BitVec 64) : Nat := bf w 63 60
def fmA (w : BitVec 64) : Nat := bf w 59 57
def fmB (w : BitVec 64) : Nat := bf w 56 54
def fmC (w : BitVec 64) : Nat := bf w 53 51
def fmNA (w : BitVec 64) : Bool := bt w 50
def fmNC (w : BitVec 64) : Bool := bt w 49
def fmVr (w : BitVec 64) : Nat := bf w 48 45
/-- RM and SAT as a conversion control. -/
def fmCvt (w : BitVec 64) : Nat := bf w 44 43 + 4 * bf w 42 42
def fmOvf (w : BitVec 64) : Bool := bt w 41
def fmK (w : BitVec 64) : Nat := bf w 31 0

/-- Fields of the Function word (Table 4.11). -/
def fnFrac (d : List Byte) : Bool := decide (bf (wFn d) 63 62 = 1)
def fnTbl (d : List Byte) : Nat := bf (wFn d) 61 60
def fnPost (d : List Byte) : Nat := bf (wFn d) 59 58
def fnSgn (d : List Byte) : Nat := bf (wFn d) 57 56

/-- Fields of the Permute/Reduce word (Table 4.14). -/
def pmode (d : List Byte) : Nat := bf (wPerm d) 63 62
def pVr (d : List Byte) : Nat := bf (wPerm d) 61 58
def shufOp (d : List Byte) : Nat := bf (wPerm d) 57 56
def shufD (d : List Byte) : Nat := bf (wPerm d) 55 48
def redOp (d : List Byte) : Nat := bf (wPerm d) 47 46
def redG (d : List Byte) : Nat := 2 ^ (bf (wPerm d) 45 43 + 1)
def redRm (d : List Byte) : Nat := bf (wPerm d) 42 41
def redOvf (d : List Byte) : Bool := bt (wPerm d) 40

/-- Whether Permute/Reduce runs in mode `m`. -/
def permIs (d : List Byte) (m : Nat) : Bool := hStage d 3 && decide (pmode d = m)

/-- Fields of the Pack/Store word (Table 4.15). -/
def pk (d : List Byte) : Nat := bf (wPack d) 63 62
def pkSrc (d : List Byte) (i : Nat) : Nat := if i = 0 then bf (wPack d) 61 60 else bf (wPack d) 59 58
def pkCvt (d : List Byte) (i : Nat) : Nat := if i = 0 then bf (wPack d) 57 55 else bf (wPack d) 54 52
def pkOvf (d : List Byte) : Bool := bt (wPack d) 51
def pkVrw (d : List Byte) : Bool := bt (wPack d) 50
def pkVrd (d : List Byte) : Nat := bf (wPack d) 49 46

/-! ## Stream descriptors (Table 4.5) -/

/-- The 16-byte stream descriptor of slot `i`. -/
def strm (d : List Byte) (i : Nat) : BitVec 128 := BitVec.ofNat 128 (fieldLe d (64 + 16 * i) 16)
def stKind (x : BitVec 128) : Nat := bf x 3 0
def stFmt (x : BitVec 128) : Nat := bf x 7 4
def stBase (x : BitVec 128) : Nat := bf x 29 8
def stPitch (x : BitVec 128) : Nat := bf x 51 30
def stRow (x : BitVec 128) : Nat := bf x 71 52 + 1
def stWin (x : BitVec 128) : Nat := bf x 93 72
def stOfdOff (x : BitVec 128) : Nat := bf x 115 94
def stOfdEn (x : BitVec 128) : Bool := bt x 116
def stIdxSrc (x : BitVec 128) : Nat := bf x 118 117
def stIdxLog2 (x : BitVec 128) : Nat := bf x 121 119
def stTile (x : BitVec 128) : Nat := bf x 126 122

/-- Whether an operand reads input slot `i` through DEINT. -/
def deint (d : List Byte) (i : Nat) : Bool :=
  (List.range 3).any fun o => decide (srcOf d o = i + 1 ∧ unpOf d o ≠ 0)

/-- The group size of outputs: G under REDUCE, else 1. -/
def outGroup (d : List Byte) : Nat := if permIs d 2 then redG d else 1

/-- Whether output slot `i` is written through INTERLEAVE. -/
def interleaved (d : List Byte) (i : Nat) : Bool := decide (pk d = 1 ∧ i = 4)

/-- The number of stream elements of slot `i` (R113). -/
def streamLen (d : List Byte) (i : Nat) : Nat :=
  if i < 3 then (if deint d i then 2 * hLen d else hLen d)
  else if i = 3 then hLen d
  else
    let n := (hLen d + outGroup d - 1) / outGroup d
    if interleaved d i then 2 * n else n

/-- The tiles that the enabled ACCTILE streams name (R116). -/
def chainTiles (d : List Byte) : List Nat :=
  (List.range 6).flatMap fun i =>
    if hSlot d i && decide (stKind (strm d i) = 4) then
      (List.range ((streamLen d i - 1) / 4096 + 1)).map fun n => stTile (strm d i) + n
    else []

/-! ## The restart granule (R110) -/

/-- The block length that SCALE derives, from the OFD of OUT0. -/
def scaleBlock (ofds : List Ofd) : Nat := 2 ^ ofB0 (ofds.getD 4 0)

/-- Gr. -/
def granule (d : List Byte) (ofds : List Ofd) : Nat :=
  let outs := ([4, 5].filter fun i => hSlot d i).flatMap fun i =>
    let x := strm d i
    if stKind x = 5 then [8] else if fmtBits (stFmt x) = 4 then [2] else if fmtBits (stFmt x) = 6 then [4] else [1]
  let xs := [1, if permIs d 0 || permIs d 1 then 256 else 1, outGroup d, if pk d = 2 then scaleBlock ofds else 1] ++ outs
  xs.foldl (fun a b => if a ≤ b then b else a) 1

/-- START rounded down to the granule. -/
def startAt (d : List Byte) (ofds : List Ofd) (start : Nat) : Nat := start / granule d ofds * granule d ofds

/-! ## Dispatch checks (R124) -/

/-- Reserved values and zero fields of the header and the stage words that run (item 1). -/
def wordsOk (d : List Byte) : Bool :=
  decide (bf (hdr d) 26 0 = 0 ∧ (hW d = 0 ∨ hW d = 3 ∨ hW d = 12))
  && decide (bf (wIn d) 42 0 = 0) && ((List.range 3).all fun i => decide (srcOf d i ≤ 5))
  && decide (bf (wUnp d) 54 0 = 0 ∧ ucvt d % 4 ≤ 1) && ((List.range 3).all fun i => decide (unpOf d i ≠ 3))
  && (!hStage d 1 || (decide (bf (wFn d) 55 0 = 0 ∧ bf (wFn d) 63 62 ≤ 1 ∧ fnSgn d ≠ 3)
      && (!fnFrac d || decide (fnPost d ≤ 1 ∧ fnSgn d = 0))))
  && (!hStage d 3 || (decide (bf (wPerm d) 39 0 = 0 ∧ redRm d ≤ 1)
      && (decide (pmode d ≠ 1) || (match shufOp d with
        | 0 => decide (1 ≤ shufD d)
        | 1 => true
        | 2 => decide (1 ≤ shufD d ∧ shufD d ≤ 8)
        | _ => decide (shufD d = 0)))))
  && decide (bf (wPack d) 45 0 = 0 ∧ pk d ≠ 3 ∧ pkCvt d 0 % 4 ≠ 3 ∧ pkCvt d 1 % 4 ≠ 3)

/-- An FMA word of an enabled stage; `first` is FMA-A (items 1, 5 and 7). -/
def fmaOk (d : List Byte) (w : BitVec 64) (first : Bool) : Bool :=
  decide (bf w 40 32 = 0 ∧ fmOp w ≤ 11 ∧ bf w 44 43 ≤ 1)
  && (decide (fmOp w < 8) || decide (hW d = 12))
  && !(first && decide (fmA w = 4 ∨ fmB w = 4 ∨ fmC w = 4))

/-- Operand selections (item 5, R117). -/
def sourcesOk (d : List Byte) : Bool :=
  (List.range 3).all fun o =>
    let s := srcOf d o
    if 1 ≤ s ∧ s ≤ 3 then
      hSlot d (s - 1)
      && (decide (unpOf d o = 0) || decide (fmtBits (stFmt (strm d (s - 1))) ≤ 32))
      && ((List.range 3).all fun p => decide (srcOf d p ≠ s) || (decide (unpOf d p = 0) == decide (unpOf d o = 0)))
    else decide (unpOf d o = 0)

/-- A stream descriptor of an enabled slot (items 1, 3, 4 and 9, Table 4.6). The spec does not say whether OFD_OFF is an unused
field while OFD_EN = 0: any value of it is accepted. (DESIGN CHOICE: log entry 87.) -/
def streamOk (d : List Byte) (i : Nat) : Bool :=
  let x := strm d i
  let b := fmtBits (stFmt x)
  decide (bf x 127 127 = 0 ∧ stFmt x ≤ 13)
  && (match stKind x with
    | 1 => decide (i ≠ 3 ∧ stTile x = 0 ∧ stIdxLog2 x = 0 ∧ stIdxSrc x = 0 ∧ stWin x = 0)
        && (if b = 4 then decide (stRow x % 2 = 0)
          else if b = 6 then decide (stPitch x % 3 = 0 ∧ stRow x % 4 = 0)
          else decide (stBase x % (b / 8) = 0 ∧ stPitch x % (b / 8) = 0))
    | 2 => decide (i < 3)
    | 3 => decide (i = 4 ∨ i = 5)
    | 4 => decide (i ≠ 3 ∧ (stFmt x = 0 ∨ stFmt x = 12) ∧ stIdxLog2 x = 0 ∧ stIdxSrc x = 0 ∧ stWin x = 0
        ∧ stPitch x = 0 ∧ stRow x = 1 ∧ stBase x = 0 ∧ stTile x + (streamLen d i - 1) / 4096 ≤ 31)
    | 5 => decide (stFmt x = 0 ∧ stTile x = 0 ∧ stIdxLog2 x = 0 ∧ stIdxSrc x = 0 ∧ stWin x = 0) && !stOfdEn x
    | _ => false)
  && (decide (stKind x ≠ 2 ∧ stKind x ≠ 3)
    || (decide (stTile x = 0 ∧ stPitch x = 0 ∧ stRow x = 1 ∧ 8 ≤ b ∧ hLen d ≤ (if deint d i ∨ interleaved d i then 131072 else 262144)
        ∧ stIdxSrc x ≠ 3)
      && hSlot d (stIdxSrc x)
      && decide (stKind (strm d (stIdxSrc x)) = 1 ∧ stFmt (strm d (stIdxSrc x)) = 12)
      && !stOfdEn (strm d (stIdxSrc x))))

/-- The OFD rules of an enabled slot (item 2, R122). -/
def streamOfdOk (d : List Byte) (i : Nat) (o : Ofd) : Bool :=
  let x := strm d i
  if !stOfdEn x then true
  else
    ofdOk o false && decide (ofElem o = stFmt x ∧ ofExpand o = 0)
    && (decide (ofDir o = 0) || decide (stKind x = 1))
    && (decide (i < 3) || (decide (i = 4 ∧ pk d = 2)))

/-- SCALE, INTERLEAVE and the values that REDUCE writes (items 8 and 11, R122). (DEDUCED: log entry 20.) -/
def packOk (d : List Byte) (ofds : List Ofd) : Bool :=
  (decide (pk d ≠ 1) || !hSlot d 5)
  && (decide (pk d ≠ 2) || (hSlot d 4 && stOfdEn (strm d 4) && blockScaled (stFmt (strm d 4))
      && decide (stKind (strm d 4) = 1 ∧ ofDir (ofds.getD 4 0) = 1 ∧ hW d ≠ 12)))
  && (!permIs d 2 || ((!hSlot d 4 || decide (pkSrc d 0 = 0)) && (!hSlot d 5 || decide (pkSrc d 1 = 0))
      && (decide (pk d ≠ 1) || !hSlot d 4 || decide (pkSrc d 1 = 0))))
  && (!hSlot d 4 || decide (pkCvt d 0 % 4 ≠ 2) || srDest (stFmt (strm d 4)))
  && (!hSlot d 5 || decide (pkCvt d 1 % 4 ≠ 2) || srDest (stFmt (strm d 5)))

/-- Stream mode (R127). -/
def streamModeOk (d : List Byte) : Bool :=
  ((List.range 3).all fun o => decide (srcOf d o ≠ 4))
  && (!hStage d 0 || decide (fmA (wFmaA d) ≠ 6 ∧ fmB (wFmaA d) ≠ 6 ∧ fmC (wFmaA d) ≠ 6))
  && (!hStage d 2 || decide (fmA (wFmaB d) ≠ 6 ∧ fmB (wFmaB d) ≠ 6 ∧ fmC (wFmaB d) ≠ 6))
  && !hStage d 1 && !permIs d 0 && !permIs d 3 && !pkVrw d

/-- The Function stage (item 6). -/
def functionOk (d : List Byte) (tables : List (Option FTable)) : Bool :=
  !hStage d 1 || (decide (hW d = 0) && (match tables.getD (fnTbl d) none with
    | none => false
    | some t => !(!fnFrac d && decide (fnPost d = 3) && decide (t.ib = 0))))

/-- Every check of R124 passes. -/
def chnChecks (stream : Bool) (d : List Byte) (ofds : List Ofd) (tables : List (Option FTable)) : Bool :=
  wordsOk d
  && (!hStage d 0 || fmaOk d (wFmaA d) true) && (!hStage d 2 || fmaOk d (wFmaB d) false)
  && sourcesOk d
  && ((List.range 6).all fun i => !hSlot d i || (streamOk d i && streamOfdOk d i (ofds.getD i 0)))
  && packOk d ofds && functionOk d tables && (!stream || streamModeOk d)

end Sys2Proof.Machine
end

