-- ==== Sys2Proof/Machine/Chisel.lean ====
section
/-!
DEFINITION. The arithmetic of a Chisel chain operation and of CFOLD (R106 to R125, R129). Every input is read from
the storage as it stands at the first beat; outputs land in element order.
-/

namespace Sys2Proof.Machine

/-! ## Values in the working format (R107) -/

/-- A value of the working format, as its bits. -/
abbrev WVal := Nat

/-- A result with a NaN made canonical (R41). -/
def canonW (w : Nat) (x : WVal) : WVal := if (decodeNum w x).isNan then canonNan w else x

/-- The sign bit of a floating-point working format. -/
def signBit (w : Nat) : Nat := if w = 3 then 2 ^ 63 else 2 ^ 31

/-- The value with its sign changed; a NaN is unaffected in effect. -/
def negBits (w : Nat) (x : WVal) : WVal := if x / signBit w % 2 = 1 then x - signBit w else x + signBit w

/-- The constant 1 in the working format. -/
def oneW (w : Nat) : WVal := if w = 3 then 0x3FF0000000000000 else if w = 12 then 1 else 0x3F800000

/-- The element number in the working format, exact. -/
def elemW (w e : Nat) : WVal := (roundNum w 0 0 true false (Num.ofInt e)).1

/-- The value of a lane of a vector register in the working format (R108). -/
def vregGet (m : CoreMem) (w r lane : Nat) : WVal :=
  let v := (tget 0 m.vreg (256 * r + lane)).toNat
  if w = 3 then v else v % 2 ^ 32

/-- Writes a lane of a vector register; a 32-bit write clears bits [63:32] (R108). -/
def vregSet (m : CoreMem) (r lane : Nat) (v : WVal) : CoreMem :=
  { m with vreg := tset 0 m.vreg (256 * r + lane) (BitVec.ofNat 64 v) }

/-- Whether a value counts as not zero (R113, R118). -/
def nonZero (w : Nat) (x : WVal) : Bool := !(decodeNum w x).isZero

/-! ## FMA-A and FMA-B (R118) -/

/-- The five values of an element. -/
structure Elt where
  x : WVal
  y : WVal
  z : WVal
  v : WVal
  p : WVal
  act : Bool

/-- MIN or MAX: a NaN operand yields the other, two give the canonical NaN, −0 lies below +0. -/
def minMax (w : Nat) (wantMax : Bool) (a b : WVal) : WVal :=
  let x := decodeNum w a
  let y := decodeNum w b
  if x.isNan then (if y.isNan then canonNan w else b)
  else if y.isNan then a
  else
    let c := Num.cmp x y
    let aLess := decide (c < 0) || (decide (c = 0) && x.sign && !y.sign)
    if wantMax then (if aLess then b else a) else (if aLess || decide (a = b) then a else b)

/-- A selected operand: `isC` takes ZERO for code 7. -/
def fmSel (d : List Byte) (m : CoreMem) (wd : BitVec 64) (lane code : Nat) (isC : Bool) (e : Elt) : WVal :=
  match code with
  | 0 => e.x
  | 1 => e.y
  | 2 => e.z
  | 3 => e.v
  | 4 => e.p
  | 5 => if hW d = 3 then (convertBits 0 3 0 0 false (fmK wd)).1 else fmK wd
  | 6 => vregGet m (hW d) (fmVr wd) lane
  | _ => if isC then 0 else oneW (hW d)

/-- The floating-point operations 0x0 to 0x7 of Table 4.10. -/
def fpFma (w op cvt : Nat) (a b c : WVal) : WVal × FpBits :=
  let x := decodeNum w a
  let y := decodeNum w b
  let z := decodeNum w c
  let bool : Bool → WVal × FpBits := fun t => (if t then oneW w else 0, 0)
  let num := !x.isNan && !y.isNan
  match op with
  | 0 =>
    let r := (x.mul y).add z
    match roundNum w cvt 0 false false r with
    | (v, f) => (v, f ||| fIf (madeNan [x, y, z] r) fNV)
  | 1 => (canonW w (minMax w false a b), 0)
  | 2 => (canonW w (minMax w true a b), 0)
  | 3 => bool (num && decide (Num.cmp x y < 0))
  | 4 => bool (num && decide (Num.cmp x y = 0))
  | 5 => bool (num && decide (Num.cmp x y ≤ 0))
  | 6 => (canonW w (if z.isZero then b else a), 0)
  | _ => (canonW w (if x.sign then negBits w a else a), 0)

/-- The INT32 operations of Table 4.10 on exact integers, NA and NC applied exactly. -/
def intFma (wrap : Bool) (op : Nat) (a b c : Int) : WVal × FpBits :=
  let bool : Bool → WVal × FpBits := fun t => (if t then 1 else 0, 0)
  match op with
  | 0 => narrowInt 12 wrap (a * b + c)
  | 1 => narrowInt 12 wrap (if a ≤ b then a else b)
  | 2 => narrowInt 12 wrap (if a ≤ b then b else a)
  | 3 => bool (decide (a < b))
  | 4 => bool (decide (a = b))
  | 5 => bool (decide (a ≤ b))
  | 6 => narrowInt 12 wrap (if c = 0 then b else a)
  | _ => narrowInt 12 wrap (a.natAbs : Int)

/-- The operations 0x8 to 0xB on 32-bit patterns. -/
def bitFma (op : Nat) (a b : BitVec 32) : WVal :=
  match op with
  | 8 => (a &&& b).toNat
  | 9 => (a ||| b).toNat
  | 10 => (a ^^^ b).toNat
  | _ =>
    let n := b.toInt
    if 0 ≤ n then (if n < 32 then (a <<< n.toNat).toNat else 0) else (a.sshiftRight n.natAbs).toNat

/-- One FMA stage on an element. -/
def fmaStage (d : List Byte) (m : CoreMem) (wd : BitVec 64) (lane : Nat) (e : Elt) : WVal × FpBits :=
  let w := hW d
  let a := fmSel d m wd lane (fmA wd) false e
  let b := fmSel d m wd lane (fmB wd) false e
  let c := fmSel d m wd lane (fmC wd) true e
  if w = 12 then
    if fmOp wd < 8 then
      let ia := decodeInt 12 a
      let ic := decodeInt 12 c
      intFma (fmOvf wd) (fmOp wd) (if fmNA wd then -ia else ia) (decodeInt 12 b) (if fmNC wd then -ic else ic)
    else
      let ba := BitVec.ofNat 32 a
      (bitFma (fmOp wd) (if fmNA wd then -ba else ba) (BitVec.ofNat 32 b), 0)
  else
    fpFma w (fmOp wd) (fmCvt wd) (if fmNA wd then negBits w a else a) b (if fmNC wd then negBits w c else c)

/-! ## The Function stage (R120) -/

/-- A fused multiply-add of FP32 values, rounded once under RNE. -/
def fma32 (a b c : Num) : Num × FpBits :=
  let r := (a.mul b).add c
  match roundNum 0 0 0 false false r with
  | (v, f) => (decodeNum 0 v, f ||| fIf (madeNan [a, b, c] r) fNV)

/-- An FP32 rounding under RNE. -/
def rnd32 (x : Num) : Num × FpBits :=
  match roundNum 0 0 0 false false x with
  | (v, f) => (decodeNum 0 v, f)

/-- A value as FP32 bits, which hold it exactly. -/
def bits32 (x : Num) : WVal := (roundNum 0 0 0 false false x).1

/-- floor of an exact finite value. -/
def floorNum : Num → Int
  | .fin s m e =>
    if 0 ≤ e then sigAt s m e 0 else (sigAt s m e e) / (2 ^ (-e).toNat : Nat)
  | _ => 0

/-- Coefficient `i` of segment `sgm`. -/
def coef (t : FTable) (sgm i : Nat) : Num := decodeNum 0 (fieldLe t.bytes (64 + 16 * sgm + 4 * i) 4)

/-- The polynomial of the segment that holds `u` in [0, 1). -/
def polyAt (t : FTable) (u : Num) : Num × FpBits :=
  let su := u.scale t.ib.toNat
  let sgm := floorNum su
  let r := su.add (Num.ofInt (-sgm))
  let n := sgm.toNat
  match fma32 (coef t n 3) r (coef t n 2) with
  | (p1, f1) => match fma32 p1 r (coef t n 1) with
    | (p2, f2) => match fma32 p2 r (coef t n 0) with
      | (p3, f3) => (p3, f1 ||| f2 ||| f3)

/-- The MANT procedure for a positive finite non-zero x = m · 2^e. -/
def mantEval (t : FTable) (post : Nat) (x : Num) : Num × FpBits :=
  let e := x.log2
  let frac := (x.scale (-e)).add (Num.ofInt (-1))
  let u := if post = 3 then ((Num.ofInt (e % 2)).add frac).scale (-1) else frac
  match polyAt t u with
  | (p, f) =>
    match post with
    | 0 => (p, f)
    | 1 => match rnd32 (p.add (Num.ofInt e)) with
      | (y, g) => (y, f ||| g)
    | 2 => match rnd32 (p.scale (-e)) with
      | (y, g) => (y, f ||| g)
    | _ => match rnd32 (p.scale (-(e / 2))) with
      | (y, g) => (y, f ||| g)

/-- The FRAC procedure for a finite x. -/
def fracEval (t : FTable) (post : Nat) (x : Num) : WVal × FpBits :=
  let n0 := floorNum x
  match rnd32 (x.add (Num.ofInt (-n0))) with
  | (f0, g0) =>
    let up := decide (Num.cmp f0 (Num.ofInt 1) = 0)
    let n := if up then n0 + 1 else n0
    let f := if up then Num.fin false 0 0 else f0
    if n > toInt 16 (fieldLe t.bytes 24 2) then (fieldLe t.bytes 16 4, g0)
    else if n < toInt 16 (fieldLe t.bytes 26 2) then (fieldLe t.bytes 20 4, g0)
    else
      match polyAt t f with
      | (p, g1) =>
        if post = 1 then match rnd32 (p.scale n) with
          | (y, g2) => (bits32 y, g0 ||| g1 ||| g2)
        else (bits32 p, g0 ||| g1)

/-- The Function stage: FP32 bits to FP32 bits. -/
def funcEval (d : List Byte) (t : FTable) (v : WVal) : WVal × FpBits :=
  let x := decodeNum 0 v
  if x.isNan then (canonNan 0, 0)
  else if fnFrac d then
    match x with
    | .inf s => (canonW 0 (if s then fieldLe t.bytes 8 4 else fieldLe t.bytes 4 4), 0)
    | _ => match fracEval t (fnPost d) x with
      | (y, f) => (canonW 0 y, f)
  else if fnSgn d = 2 ∧ x.sign ∧ !x.isZero then (canonW 0 (fieldLe t.bytes 12 4), 0)
  else
    match (if x.isZero then (fieldLe t.bytes 0 4, (0 : FpBits))
      else if x.isInf then (fieldLe t.bytes 4 4, 0)
      else match mantEval t (fnPost d) x.abs with
        | (y, f) => (bits32 y, f)) with
    | (y, f) => (canonW 0 (if fnSgn d = 1 ∧ x.sign then negBits 0 y else y), f)

/-! ## Streams (R113, R114) -/

/-- The row and column of element `j` of a LINEAR or MASKBITS stream. -/
def rowCol (x : BitVec 128) (j : Nat) : Nat × Nat := (j / stRow x, j % stRow x)

/-- The byte address of the row of element `j`. -/
def rowBase (x : BitVec 128) (j : Nat) : Nat := stBase x + j / stRow x * stPitch x

/-- The byte offset r of element `j` of a GATHER or SCATTER stream, exactly (R114). -/
def indexOff (d : List Byte) (m : CoreMem) (x : BitVec 128) (j : Nat) : Int :=
  let ix := strm d (stIdxSrc x)
  decodeInt 12 (rdElem m.spad (rowBase ix j) 12 (j % stRow ix)) * (2 ^ stIdxLog2 x : Nat)

/-- The cause of a fault of offset r: 0 none, 1 BOUND, 2 ALIGN. -/
def offFault (x : BitVec 128) (r : Int) : Nat :=
  let z : Int := (fmtBits (stFmt x) / 8 : Nat)
  if r < 0 ∨ r + z - 1 > stWin x then 1 else if r % z ≠ 0 then 2 else 0

/-- The scratchpad address of offset r. -/
def offAddr (x : BitVec 128) (r : Int) : Nat := (((stBase x : Int) + r) % (spadSize : Int)).toNat

/-- Bit `c` of a MASKBITS row. -/
def maskBit (m : CoreMem) (base c : Nat) : Nat := leNat (spadRd m.spad (base + c / 8) 1) / 2 ^ (c % 8) % 2

/-- The exact value of stream element `j` of input slot `i`, and whether it is an integer value (R113, R117). (DESIGN CHOICE: log entry 14.) -/
def inputVal (d : List Byte) (ofds : List Ofd) (m : CoreMem) (i j : Nat) : Num × Bool :=
  let x := strm d i
  match stKind x with
  | 5 => (Num.ofInt (maskBit m (rowBase x j) (j % stRow x)), true)
  | 4 => (decodeNum (stFmt x) (accGet m (stTile x + j / 4096) (j / 64 % 64) (j % 64)), isInt (stFmt x))
  | 2 => (decodeNum (stFmt x) (leNat (spadRd m.spad (offAddr x (indexOff d m x j)) (fmtBits (stFmt x) / 8))),
      isInt (stFmt x))
  | _ =>
    let raw := rdElem m.spad (rowBase x j) (stFmt x) (j % stRow x)
    if stOfdEn x then
      (ofdValue m.spad (ofds.getD i 0) (j / stRow x) (j % stRow x) raw,
        isInt (stFmt x) && decide (ofDir (ofds.getD i 0) = 0))
    else (decodeNum (stFmt x) raw, isInt (stFmt x))

/-- Operand `o` (X, Y or Z) of element `e` (R107, R117). -/
def operandW (d : List Byte) (ofds : List Ofd) (m : CoreMem) (e o : Nat) : WVal × FpBits :=
  match srcOf d o with
  | 0 => (0, 0)
  | 4 => (vregGet m (hW d) (srcVr d o) (e % 256), 0)
  | 5 => (elemW (hW d) e, 0)
  | n =>
    let j := if unpOf d o = 0 then e else 2 * e + unpOf d o - 1
    match inputVal d ofds m (n - 1) j with
    | (v, int) => roundNum (hW d) (ucvt d) 0 int false v

/-- Whether element `e` is active (R123). -/
def activeAt (d : List Byte) (m : CoreMem) (e : Nat) : Bool :=
  !hSlot d 3 || ((maskBit m (rowBase (strm d 3) e) (e % stRow (strm d 3)) == 1) != hMinv d)

/-! ## Faults and RESUME (R125) -/

/-- The stream elements of slot `i` that chain element `e` reads or writes: for an output under REDUCE those of
its group, at the group's first element. -/
def elemsOf (d : List Byte) (i e : Nat) : List Nat :=
  if i < 3 then (if deint d i then [2 * e, 2 * e + 1] else [e])
  else
    let g := e / outGroup d
    if interleaved d i then [2 * g, 2 * g + 1] else [g]

/-- Whether slot `i` is checked at element `e`: the element, or under REDUCE some element of its group, is active. -/
def checkedAt (d : List Byte) (m : CoreMem) (i e : Nat) : Bool :=
  if i < 3 ∨ outGroup d = 1 then activeAt d m e
  else decide (e % outGroup d = 0)
    && (List.range (outGroup d)).any fun n => decide (e + n < hLen d) && activeAt d m (e + n)

/-- A fault of element `e`: the lowest slot, with its cause and address. -/
def faultAt (d : List Byte) (m : CoreMem) (e : Nat) : Option (Nat × Nat × Nat) :=
  ([0, 1, 2, 4, 5].flatMap fun i =>
    let x := strm d i
    if hSlot d i && decide (stKind x = 2 ∨ stKind x = 3) && checkedAt d m i e then
      (elemsOf d i e).filterMap fun j =>
        let r := indexOff d m x j
        if offFault x r = 0 then none else some (i, offFault x r, offAddr x r)
    else []).head?

/-- The first fault among `n` elements from `e` on. -/
def firstFault (d : List Byte) (m : CoreMem) : Nat → Nat → Option (Nat × Nat × Nat × Nat)
  | 0, _ => none
  | n + 1, e =>
    match faultAt d m e with
    | some f => some (e, f)
    | none => firstFault d m n (e + 1)

/-! ## The chain up to FMA-B -/

/-- An inactive element: every value +0. -/
def idleElt : Elt := ⟨0, 0, 0, 0, 0, false⟩

/-- Stream-In to FMA-B for one element. -/
def frontOf (d : List Byte) (ofds : List Ofd) (tables : List (Option FTable)) (m : CoreMem) (e : Nat) : Elt × FpBits :=
  if !activeAt d m e then (idleElt, 0)
  else
    match operandW d ofds m e 0, operandW d ofds m e 1, operandW d ofds m e 2 with
    | (x, f0), (y, f1), (z, f2) =>
      let e0 : Elt := ⟨x, y, z, x, x, true⟩
      match (if hStage d 0 then fmaStage d m (wFmaA d) (e % 256) e0 else (e0.v, 0)) with
      | (va, f3) =>
        match (if hStage d 1 then (match tables.getD (fnTbl d) none with
            | some t => funcEval d t va
            | none => (va, 0)) else (va, 0)) with
        | (vf, f4) =>
          let e1 : Elt := { e0 with v := vf, p := va }
          match (if hStage d 2 then fmaStage d m (wFmaB d) (e % 256) e1 else (vf, 0)) with
          | (vb, f5) => ({ e1 with v := vb }, f0 ||| f1 ||| f2 ||| f3 ||| f4 ||| f5)

/-! ## Permute/Reduce (R121) -/

/-- The lane that lane `i` takes under PERM or SHUF. -/
def sourceLane (d : List Byte) (m : CoreMem) (i : Nat) : Nat :=
  if pmode d = 0 then (tget 0 m.vreg (256 * pVr d + i)).toNat % 256
  else match shufOp d with
    | 0 => (BitVec.ofNat 8 i ^^^ BitVec.ofNat 8 (shufD d)).toNat
    | 1 => (i + shufD d) % 256
    | 2 => (BitVec.ofNat 8 i ^^^ BitVec.ofNat 8 (2 ^ shufD d - 1)).toNat
    | _ => i % 16 * 16 + i / 16

/-- The identity of RED_OP. -/
def redIdent (d : List Byte) : WVal :=
  let w := hW d
  if w = 12 then
    match redOp d with
    | 1 => 0x80000000
    | 2 => 0x7FFFFFFF
    | _ => 0
  else match redOp d with
    | 0 => signBit w
    | 1 => if w = 3 then 0xFFF0000000000000 else 0xFF800000
    | 2 => if w = 3 then 0x7FF0000000000000 else 0x7F800000
    | _ => 0

/-- One step of RED_OP. -/
def redStep (d : List Byte) (a b : WVal) : WVal × FpBits :=
  let w := hW d
  if w = 12 then
    let x := decodeInt 12 a
    let y := decodeInt 12 b
    match redOp d with
    | 0 => narrowInt 12 (redOvf d) (x + y)
    | 1 => (if x ≤ y then b else a, 0)
    | 2 => (if x ≤ y then a else b, 0)
    | _ => narrowInt 12 (redOvf d) (if x.natAbs ≤ y.natAbs then y.natAbs else x.natAbs : Nat)
  else match redOp d with
    | 0 =>
      let r := (decodeNum w a).add (decodeNum w b)
      match roundNum w (redRm d) 0 false false r with
      | (v, f) => (v, f ||| fIf (madeNan [decodeNum w a, decodeNum w b] r) fNV)
    | 1 => (canonW w (minMax w true a b), 0)
    | 2 => (canonW w (minMax w false a b), 0)
    | _ => (canonW w (minMax w true (a % signBit w) (b % signBit w)), 0)

/-- One level of the reduction tree. -/
def redLevel (d : List Byte) : List WVal → List WVal × FpBits
  | a :: b :: t =>
    match redStep d a b, redLevel d t with
    | (v, f), (l, g) => (v :: l, f ||| g)
  | l => (l, 0)

/-- The reduction tree over a group. -/
def redTree (d : List Byte) : Nat → List WVal → FpBits → WVal × FpBits
  | 0, l, f => (l.headD 0, f)
  | n + 1, l, f =>
    match l with
    | [v] => (v, f)
    | _ => match redLevel d l with
      | (l', g) => redTree d n l' (f ||| g)

/-- A value on its way to Pack/Store: the element number, or under REDUCE the group's first element. -/
structure Item where
  e : Nat
  v : Elt

/-- Permute/Reduce and the LANEACC and VRW register writes of one beat, whose elements start at `lo`. -/
def permBeat (d : List Byte) (lo : Nat) (es : List Elt) (mem : CoreMem) : List Item × CoreMem × FpBits :=
  let items := es.zipIdx.map fun p => (⟨lo + p.2, p.1⟩ : Item)
  if !hStage d 3 then (items, mem, 0)
  else match pmode d with
    | 2 =>
      (groupsOf (redG d) es.length es).zipIdx.foldl (fun acc gp =>
        match acc with
        | (is, mm, f) =>
          if gp.1.any (·.act) then
            let ws := (gp.1.map fun x => if x.act then x.v else redIdent d)
              ++ List.replicate (redG d - gp.1.length) (redIdent d)
            match redTree d 8 ws 0 with
            | (v, g) => (is ++ [⟨lo + gp.2 * redG d, ⟨v, v, v, v, v, true⟩⟩], mm, f ||| g)
          else (is, mm, f)) ([], mem, 0)
    | 3 =>
      items.foldl (fun acc it =>
        match acc with
        | (is, mm, f) =>
          if it.v.act then
            let lane := it.e % 256
            match redStep d (vregGet mm (hW d) (pVr d) lane) it.v.v with
            | (v, g) => (is ++ [it], vregSet mm (pVr d) lane v, f ||| g)
          else (is ++ [it], mm, f)) ([], mem, 0)
    | _ =>
      let b0 := lo / 256 * 256
      let vOf : Nat → WVal := fun lane =>
        if b0 + lane < lo then 0 else ((es[b0 + lane - lo]?).map fun x => x.v).getD 0
      (items.map fun it => { it with v := { it.v with v := vOf (sourceLane d mem (it.e % 256)) } }, mem, 0)

/-! ## Pack/Store (R122, R123) -/

/-- The value that SRC0 or SRC1 selects. -/
def pickSrc (src : Nat) (x : Elt) : WVal :=
  match src with
  | 0 => x.v
  | 1 => x.p
  | 2 => x.x
  | _ => x.y

/-- Writes element `i` of a packed run at `base`. -/
def wrElem (m : List Host.Cell) (base f i raw : Nat) : List Host.Cell :=
  match fmtBits f with
  | 4 =>
    let a := base + i / 2
    let old := BitVec.ofNat 8 (leNat (spadRd m a 1))
    spadWr m a [sf old (4 * (i % 2) + 3) (4 * (i % 2)) raw]
  | 6 =>
    let a := base + i / 4 * 3
    let old := BitVec.ofNat 24 (leNat (spadRd m a 3))
    spadWr m a (toLe 3 (sf old (6 * (i % 4) + 5) (6 * (i % 4)) raw).toNat)
  | b => spadWr m (base + i * (b / 8)) (toLe (b / 8) raw)

/-- Writes one bit of a MASKBITS stream. -/
def wrMask (m : List Host.Cell) (base c : Nat) (b : Bool) : List Host.Cell :=
  let old := BitVec.ofNat 8 (leNat (spadRd m (base + c / 8) 1))
  spadWr m (base + c / 8) [sb old (c % 8) b]

/-- Stores `raw` as element `j` of output slot `i`; `m0` holds the indices. -/
def storeOut (d : List Byte) (m0 : CoreMem) (i j raw : Nat) (mem : CoreMem) : CoreMem :=
  let x := strm d i
  match stKind x with
  | 5 => { mem with spad := wrMask mem.spad (rowBase x j) (j % stRow x) (decide (raw ≠ 0)) }
  | 4 => accSet mem (stTile x + j / 4096) (j / 64 % 64) (j % 64) raw
  | 3 => { mem with spad := spadWr mem.spad (offAddr x (indexOff d m0 x j)) (toLe (fmtBits (stFmt x) / 8) raw) }
  | _ => { mem with spad := wrElem mem.spad (rowBase x j) (stFmt x) (j % stRow x) raw }

/-- The block of OUT0 that stream element `j` belongs to under SCALE. -/
def blockOf (d : List Byte) (ofds : List Ofd) (j : Nat) : Nat × Nat :=
  let x := strm d 4
  (j / stRow x, j % stRow x / scaleBlock ofds)

/-- The derived scale of the block of stream element `j` over the active items (R60, R122). -/
def blockScale (d : List Byte) (ofds : List Ofd) (items : List Item) (j : Nat) : Nat :=
  deriveScale (stFmt (strm d 4)) ((items.filter fun it =>
    it.v.act && decide (blockOf d ofds (it.e / outGroup d) = blockOf d ofds j)).map fun it =>
      decodeNum (hW d) (pickSrc (pkSrc d 0) it.v))

/-- Converts and stores one value of an item in output slot `i` as stream element `j`; `scale` multiplies it
by 2^(127 − s) first. -/
def putOut (d : List Byte) (m0 : CoreMem) (i j src cvt : Nat) (scale : Option Nat) (it : Item) (mem : CoreMem) :
    CoreMem × FpBits :=
  let x := strm d i
  if !hSlot d i then (mem, 0)
  else if !it.v.act then
    (if hMz d && decide (stKind x ≠ 3) && !permIs d 2 then storeOut d m0 i j 0 mem else mem, 0)
  else
    let v := pickSrc src it.v
    if stKind x = 5 then (storeOut d m0 i j (if nonZero (hW d) v then 1 else 0) mem, 0)
    else
      match (if cvt % 4 = 2 then genNext mem (it.e % 256) else (0, mem)) with
      | (r, mem1) =>
        let n := decodeNum (hW d) v
        let n := match scale with
          | some s => n.scale (127 - (s : Int))
          | none => n
        match roundNum (stFmt x) cvt r (decide (hW d = 12)) (pkOvf d) n with
        | (raw, f) => (storeOut d m0 i j raw mem1, f)

/-- Pack/Store of one item. -/
def packItem (d : List Byte) (ofds : List Ofd) (m0 : CoreMem) (items : List Item) (mem : CoreMem) (it : Item) :
    CoreMem × FpBits :=
  let j := it.e / outGroup d
  match pk d with
  | 1 =>
    match putOut d m0 4 (2 * j) (pkSrc d 0) (pkCvt d 0) none it mem with
    | (m1, f1) => match putOut d m0 4 (2 * j + 1) (pkSrc d 1) (pkCvt d 0) none it m1 with
      | (m2, f2) => (m2, f1 ||| f2)
  | n =>
    let s := if n = 2 ∧ it.v.act then some (blockScale d ofds items j) else none
    let mem := match s with
      | some v =>
        let x := strm d 4
        { mem with spad := spadWr mem.spad (scaleAddr (ofds.getD 4 0) (j / stRow x) (j % stRow x) 1) (toLe 1 v) }
      | none => mem
    match putOut d m0 4 j (pkSrc d 0) (pkCvt d 0) s it mem with
    | (m1, f1) => match putOut d m0 5 j (pkSrc d 1) (pkCvt d 1) none it m1 with
      | (m2, f2) => (m2, f1 ||| f2)

/-- Clears the unused bits of the last byte or group of a sub-byte output stream (R44). R44 speaks of sub-byte formats alone: the
unused bits of the last byte of a MASKBITS output stay as they are. (DESIGN CHOICE: log entry 87.) -/
def zeroTail (d : List Byte) (i : Nat) (mem : CoreMem) : CoreMem :=
  let x := strm d i
  let b := fmtBits (stFmt x)
  if hSlot d i && decide (stKind x = 1 ∧ b < 8) then
    let n := if b = 4 then 2 else 4
    let j := streamLen d i - 1
    let c := j % stRow x
    { mem with spad := (List.range (n - 1 - c % n)).foldl (fun m t => wrElem m (rowBase x j) (stFmt x) (c + 1 + t) 0) mem.spad }
  else mem

/-! ## A whole chain operation -/

/-- The write of VRD by one item (VRW, R122): lane e mod 256. Under REDUCE the spec does not say which lane takes the V of a group:
it is that of the group's first element. (DESIGN CHOICE: log entry 87.) -/
def vrwItem (d : List Byte) (mem : CoreMem) (it : Item) : CoreMem :=
  if pkVrw d && it.v.act then vregSet mem (pkVrd d) (it.e % 256) it.v.v else mem

/-- Beats from element `lo` up to `lim`: items, register writes and flags. Each beat reads the vector registers as the beats
before it left them, so that an operation reissued at RESUME repeats the rest of it (R126). Where LANEACC and VRW write
one register the spec does not order the two writes: the LANEACC of a beat comes before its VRW. (DESIGN CHOICE: log entry 87.) -/
def beats (d : List Byte) (ofds : List Ofd) (tables : List (Option FTable)) (lim : Nat) :
    Nat → Nat → List Item → CoreMem → FpBits → List Item × CoreMem × FpBits
  | 0, _, is, mem, f => (is, mem, f)
  | n + 1, lo, is, mem, f =>
    if lim ≤ lo then (is, mem, f)
    else
      let hi := if lo / 256 * 256 + 256 ≤ lim then lo / 256 * 256 + 256 else lim
      let fs := (List.range (hi - lo)).map fun t => frontOf d ofds tables mem (lo + t)
      let g := fs.foldl (fun a p => a ||| p.2) f
      match permBeat d lo (fs.map fun p => p.1) mem with
      | (its, mem1, g1) => beats d ofds tables lim n hi (is ++ its) (its.foldl (vrwItem d) mem1) (g ||| g1)

/-- The record of a fault in CHS_FAULT0 to CHS_FAULT2 (R125). -/
def chsFault (k : CoreSt) (e slot cause addr resume : Nat) : CoreSt :=
  if bt k.cr.chsFault0 31 then { k with cr := { k.cr with chsFault0 := sb k.cr.chsFault0 30 true } }
  else
    { k with cr := { k.cr with
        chsFault0 := BitVec.ofNat 32 (2 ^ 31 + bf k.cr.chsFault0 30 30 * 2 ^ 30 + cause * 2 ^ 28 + slot * 2 ^ 25 + e % 2 ^ 20),
        chsFault1 := BitVec.ofNat 32 (addr % 2 ^ 22),
        chsFault2 := BitVec.ofNat 32 (resume % 2 ^ 20) } }

/-- Runs a chain operation from START′ on, with its inputs as scratchpad `m` holds them: the core after it and its code (R110,
R125). -/
def chnRun (r : RunOp) (m : List Host.Cell) (k : CoreSt) : CoreSt × Code :=
  let d := r.desc
  let s0 := startAt d r.ofds ((opVal r.op 1).toNat % 2 ^ 20)
  let m0 := { k.mem with spad := m }
  let len := hLen d
  let flt := firstFault d m0 (len - s0) s0
  let lim := match flt with
    | some (f, _) => f / granule d r.ofds * granule d r.ofds
    | none => len
  match beats d r.ofds r.tables lim (len / 256 + 2) s0 [] m0 0 with
  | (items, mem1, f1) =>
    match items.foldl (fun acc it => match acc with
      | (m, f) => match packItem d r.ofds m0 items m it with
        | (m', g) => (m', f ||| g)) ({ mem1 with spad := k.mem.spad }, f1) with
    | (mem2, f2) =>
      match flt with
      | some (f, slot, cause, addr) =>
        (chsFault (setFp { k with mem := mem2 } f2) f slot cause addr lim, St.gatherFault)
      | none => (setFp { k with mem := zeroTail d 5 (zeroTail d 4 mem2) } f2, St.ok)

/-! ## CFOLD (R129) -/

def cfEng (w : BitVec 64) : Nat := bf w 55 54
def cfTile0 (w : BitVec 64) : Nat := bf w 53 53
def cfAcc (w : BitVec 64) : Bool := bt w 52
def cfCvt (w : BitVec 64) : Nat := bf w 51 49
def cfM (w : BitVec 64) : Nat := bf w 37 32 + 1
def cfN (w : BitVec 64) : Nat := bf w 31 26 + 1

/-- The tiles a CFOLD names. -/
def cfTiles (w : BitVec 64) : List Nat := (List.range 7).map fun s => 8 * cfEng w + cfTile0 w + s

/-- Offset and pitch of CFOLD, bits [2:0] ignored. -/
def off8 (v : BitVec 64) : Nat := v.toNat % spadSize / 8 * 8

/-- Output (i, j) of a CFOLD: the FP64 bits, the flags, and whether it used an entry 0x7FFF_FFFF. -/
def cfoldOut (o : HeldOp) (m : CoreMem) (old ea eb i j : Nat) : Nat × FpBits × Bool :=
  let w := o.w0
  if ea = 0x7FFFFFFF ∨ eb = 0x7FFFFFFF then (canonNan 3, 0, true)
  else
    match (if ea = 0x80000000 ∨ eb = 0x80000000 then (0, (0 : FpBits))
      else
        let p : Int := (List.range 7).foldl (fun acc s =>
          acc + decodeInt 12 (accGet m (8 * cfEng w + cfTile0 w + s) i j) * (2 ^ (96 - 8 * s) : Nat)) 0
        roundNum 3 (cfCvt w) 0 false false ((Num.ofInt p).scale (toInt 32 ea + toInt 32 eb - 106))) with
    | (v, f) =>
      if cfAcc w then
        let x := decodeNum 3 old
        let y := decodeNum 3 v
        match roundNum 3 (cfCvt w) 0 false false (x.add y) with
        | (u, g) => (u, f ||| g ||| fIf (madeNan [x, y] (x.add y)) fNV, false)
      else (v, f, false)

/-- A whole CFOLD, with its inputs as scratchpad `sp` holds them: values 0, 1 and 2 are the record offset, the output offset and the
pitch. -/
def cfoldRun (o : HeldOp) (sp : List Host.Cell) (k : CoreSt) : CoreSt × Code :=
  let w := o.w0
  let m0 := { k.mem with spad := sp }
  let rec0 := spadRd m0.spad (off16 (opVal o 0)) 512
  let cells := (List.range (cfM w)).flatMap fun i => (List.range (cfN w)).map fun j => (i, j)
  match cells.foldl (fun acc c => match acc with
    | (m, f, bad) =>
      let a := off8 (opVal o 1) + c.1 * off8 (opVal o 2) + 8 * c.2
      match cfoldOut o m0 (leNat (spadRd m0.spad a 8)) (fieldLe rec0 (4 * c.1) 4) (fieldLe rec0 (256 + 4 * c.2) 4) c.1 c.2 with
      | (v, g, b) => ({ m with spad := spadWr m.spad a (toLe 8 v) }, f ||| g, bad || b)) (k.mem, (0 : FpBits), false) with
  | (m, f, bad) =>
    let k1 := setFp { k with mem := m } f
    if bad then (setFp k1 fSPREAD, St.spreadExceeded) else (k1, St.ok)

end Sys2Proof.Machine
end

