-- ==== Sys2Proof/Machine/Routes.lean ====
section
/-!
DEFINITION. The dies of the package, the Lintel links between them and the routes that traffic takes (R20, R30, R31).
-/

namespace Sys2Proof.Machine

/-- The dies: towers 0 to 7, the hub die 8, Mason dies 9 and 10. (DEDUCED: log entry 52.) -/
def hubDie : Nat := 8

/-- The two ends of a link (Table 1.3). -/
def lintelEnds (l : Nat) : Nat × Nat :=
  if l < 3 then (l, l + 1)
  else if l < 6 then (l + 1, l + 2)
  else if l < 10 then (l - 6, l - 2)
  else if l < 18 then (hubDie, l - 10)
  else if l < 20 then (9, 4 * (l - 18))
  else if l < 22 then (10, 4 * (l - 20) + 3)
  else (hubDie, l - 13)

/-- The link between two dies, where Table 1.3 has one. -/
def linkOf (a b : Nat) : Option Nat :=
  (List.range 24).find? fun l => decide (lintelEnds l = (a, b)) || decide (lintelEnds l = (b, a))

/-- The links of a route, which is a list of dies. -/
def routeLinks : List Nat → List Nat
  | a :: b :: t => (linkOf a b).toList ++ routeLinks (b :: t)
  | _ => []

/-- Whether two dies have a link in service, and whether a route has all of its links in service. -/
def hopUp (s : State) (a b : Nat) : Bool := ((linkOf a b).map fun l => !(getLintel s l).retired).getD false
def routeUp (s : State) : List Nat → Bool
  | a :: b :: t => hopUp s a b && routeUp s (b :: t)
  | _ => true

/-- The columns from `i` to `j`, both included. -/
def colsTo (i j : Nat) : List Nat :=
  if i ≤ j then (List.range (j - i + 1)).map fun k => i + k else (List.range (i - j + 1)).map fun k => i - k

/-- The minimal route between two towers that changes rows in column `j`: the towers stand in two rows of four. -/
def viaColumn (a b j : Nat) : List Nat :=
  (colsTo (a % 4) j).map (fun c => 4 * (a / 4) + c)
    ++ (if a / 4 = b / 4 then [] else (colsTo j (b % 4)).map fun c => 4 * (b / 4) + c)

/-- The minimal routes between two towers, first the one that leaves the horizontal links first and crosses the vertical
link last (R20). (DEDUCED: log entry 82.) -/
def minimalRoutes (a b : Nat) : List (List Nat) :=
  if a / 4 = b / 4 then [viaColumn a b (b % 4)] else (colsTo (b % 4) (a % 4)).map (viaColumn a b)

/-- One step of the search for a shortest route: every die not yet seen that a link in service reaches from the last step,
each by one route, the lowest die first. -/
def widen (s : State) (seen : List Nat) (front : List (List Nat)) : List (List Nat) :=
  (List.range 11).filterMap fun d =>
    if seen.contains d then none
    else (front.find? fun p => ((p.head?).map fun a => hopUp s a d).getD false).map fun p => d :: p

/-- The search for a shortest route to die `b`; routes are held last die first. -/
def shortest (s : State) (b : Nat) : Nat → List Nat → List (List Nat) → Option (List Nat)
  | 0, _, _ => none
  | n + 1, seen, front =>
    match front.find? fun p => decide (p.head? = some b) with
    | some p => some p.reverse
    | none =>
      let next := widen s seen front
      shortest s b n (seen ++ next.filterMap List.head?) next

/-- A shortest route between two dies over the links in service. -/
def shortestRoute (s : State) (a b : Nat) : Option (List Nat) := shortest s b 11 [a] [[a]]

/-- The shortest route between two dies that passes the hub die (R30). -/
def hubRoute (s : State) (a b : Nat) : Option (List Nat) :=
  match shortestRoute s a hubDie, shortestRoute s hubDie b with
  | some p, some q => some (p ++ q.drop 1)
  | _, _ => none

/-- The routes with which R20 serves two dies, in order of preference: the minimal routes between towers; the direct link
of a Mason die or of the hub die; else through the hub die. -/
def plannedRoutes (a b : Nat) : List (List Nat) :=
  if a < 8 ∧ b < 8 then minimalRoutes a b
  else if (linkOf a b).isSome then [[a, b]] else [[a, hubDie, b]]

/-- The route that traffic takes from die `a` to die `b`: as R20 plans it; where a link of it is retired, the other minimal
route, then the shortest route through the hub die, then the shortest that is left, which for a lost link of the hub
or of a Mason die passes a neighbouring tower (R30). `none` where no route is left (R31). (DEDUCED: log entry 82.) -/
def dieRoute (s : State) (a b : Nat) : Option (List Nat) :=
  if a = b then some [a]
  else match (plannedRoutes a b).find? (routeUp s) with
    | some p => some p
    | none =>
      match (if a < 8 ∧ b < 8 then hubRoute s a b else none) with
      | some p => some p
      | none => shortestRoute s a b

/-- Whether traffic has a route between two dies. -/
def routed (s : State) (a b : Nat) : Bool := (dieRoute s a b).isSome

/-- Whether a link of the route between two dies holds its traffic, for a retraining or a remap (R27, R28). -/
def routeHolds (s : State) (a b : Nat) : Bool :=
  match dieRoute s a b with
  | none => false
  | some p => (routeLinks p).any fun l => (getLintel s l).retraining || (getLintel s l).holding

/-- The code of a request between two dies: REMOTE_TIMEOUT where it has no route (R31). -/
def dieCode (s : State) (a b : Nat) : Code := if routed s a b then St.ok else St.remoteTimeout

end Sys2Proof.Machine
end

