-- ==== Sys2Proof/Machine/Translate.lean ====
section
/-!
DEFINITION. Translation (R246 to R258, R267, R268), requests to other packages and to the host port, the
Remote Line Cache procedures (R299 to R301), and the accesses that the front end, the graph engine, the pool
engine, the save machines and the BAR2 window make through them.
-/

namespace Sys2Proof.Machine

/-! ## Range entries (Table 8.2) -/

def reTarget (e : BitVec 256) : Nat := bf e 255 204 * 4096
def reTkind (e : BitVec 256) : Nat := bf e 193 192
def reLenM1 (e : BitVec 256) : Nat := bf e 191 157
def reMigIdx (e : BitVec 256) : Nat := bf e 137 128
def reStart (e : BitVec 256) : Nat := bf e 127 76
def reNc (e : BitVec 256) : Bool := bt e 7
def reMig (e : BitVec 256) : Bool := bt e 6
def reAt (e : BitVec 256) : Bool := bt e 5
def reX (e : BitVec 256) : Bool := bt e 4
def reW (e : BitVec 256) : Bool := bt e 3
def reR (e : BitVec 256) : Bool := bt e 2
def reValid (e : BitVec 256) : Bool := bt e 0

/-- Whether an entry covers the page of a virtual address (R247, R250). -/
def reCovers (e : BitVec 256) (vp : Nat) : Bool :=
  reValid e && decide (reStart e ≤ vp) && decide (vp ≤ reStart e + reLenM1 e)

/-- Pages of 64 KiB of a range. -/
def rePages (e : BitVec 256) : Nat := (reLenM1 e + 1 + 15) / 16

/-! Migration descriptor fields (Table 8.11). -/

def mdLocal (d : BitVec 256) : Nat := bf d 63 0
def mdMap (d : BitVec 256) : Nat := bf d 127 64
def mdPages (d : BitVec 256) : Nat := bf d 159 128

/-- Whether a migration descriptor is malformed for a range (R267). -/
def mdMalformed (d e : BitVec 256) : Bool :=
  decide (mdLocal d % 65536 ≠ 0 ∨ mdMap d % 8 ≠ 0 ∨ mdPages d < rePages e ∨ bf d 255 160 ≠ 0)

/-- Whether a VALID entry is malformed (R248). `d` is the descriptor it names and `mdc` the MDCNT_M1 of its search. -/
def reMalformed (s : State) (mdc : Nat) (e d : BitVec 256) : Bool :=
  decide (bf e 203 194 ≠ 0 ∨ bf e 156 138 ≠ 0 ∨ bf e 75 8 ≠ 0 ∨ bf e 1 1 ≠ 0 ∨ reTkind e ≥ 2)
  || (!reMig e && decide (reMigIdx e ≠ 0))
  || decide (reStart e * 4096 + 4096 * (reLenM1 e + 1) > 2 ^ 64 ∨ reTarget e + 4096 * (reLenM1 e + 1) > 2 ^ 64)
  || (reAt e && decide (reTkind e = 1))
  || (reMig e && (decide (reStart e % 16 ≠ 0 ∨ (reLenM1 e + 1) % 16 ≠ 0 ∨ reTarget e % 65536 ≠ 0
      ∨ reMigIdx e > mdc) || mdMalformed d e
      || decide (reTkind e = 0 ∧ reTarget e / 2 ^ 41 = ownDomain s * 256 + ownPackage s)))

/-! ## Attributes (Table 8.3) -/

/-- What an access does, for its attributes. -/
inductive Need where
  | fetch
  | read
  | write
  | atomic
  | both
  | readBoth
deriving DecidableEq, Repr

/-- Whether the entry has the attributes that the access needs (R253). -/
def permits (e : BitVec 256) : Need → Bool
  | .fetch => reX e
  | .read => reR e
  | .write => reW e
  | .atomic => reR e && reW e && reAt e
  | .both | .readBoth => reR e && reW e

/-- The ACC field of XFAULT0 (Table 8.7). -/
def accField : Need → Nat
  | .fetch => 3
  | .read => 0
  | .write => 1
  | .atomic => 2
  | .both => 1
  | .readBoth => 0

/-- Records a translation, ownership or migration fault of context `x` (R258, Tables 8.7 and 8.8). -/
def xfault (s : State) (x : Nat) (code : Code) (cause : Nat) (need : Need) (src core : Nat) (va : BitVec 64) : State :=
  modCtx s x fun k =>
    if bt k.xfault0 31 then { k with xfault0 := sb k.xfault0 30 true }
    else
      { k with
        xfault0 := BitVec.ofNat 32 (2 ^ 31 + bf k.xfault0 30 30 * 2 ^ 30 + cause % 8 * 2 ^ 25 + accField need * 2 ^ 23
          + src % 8 * 2 ^ 20 + code.toNat * 2 ^ 12 + core % 256),
        xfault1 := va }

/-! ## Requests to other packages and to the host port -/

/-- The level of a global address: 0 this package, 1 domain, 2 hall (R306). -/
def levelOf (s : State) (ga : Nat) : Nat :=
  if ga / 2 ^ 41 % 2 ^ 17 = ownDomain s * 256 + ownPackage s then 0
  else if ga / 2 ^ 49 % 512 = ownDomain s then 1 else 2

/-- A request packet (R322): the level of its address gives its VC, and MGMT takes the request VC of its level as well
(Table 10.10). -/
def requestPkt (s : State) (op : BitVec 8) (ga : Nat) (ctx n func : Nat) (asz : Bool) (data : List Byte) : SpanPkt :=
  { op := op, vc := if levelOf s ga = 2 ∨ op = 0x10 then 4 else 0, path := 0, ep := s.span.actep, lenM1 := BitVec.ofNat 8 (n - 1),
    func := BitVec.ofNat 4 func, asz := asz, tag := s.span.nextTag, ctx := BitVec.ofNat 12 ctx,
    srcPkg := BitVec.ofNat 8 (ownPackage s), srcDom := BitVec.ofNat 9 (ownDomain s), status := 0,
    addr := BitVec.ofNat 64 ga, data := data }

/-- The timeout of a level in ns (Table 1.1). -/
def levelTimeout (hall : Bool) : Nat := if hall then 20000000 else 2000000

/-- Issues a request of `user` toward the Span (R322, R336): it takes a tag and waits for its response. -/
def remoteSend (s : State) (user : RemUser) (op : BitVec 8) (ga : Nat) (ctx n func : Nat) (asz : Bool)
    (data : List Byte) : State :=
  let k := requestPkt s op ga ctx n func asz data
  withSpan s { s.span with
    nextTag := s.span.nextTag + 1,
    reqs := s.span.reqs ++ [⟨s.span.nextTag, user, decide (levelOf s ga = 2), s.now, k, none⟩],
    sent := s.span.sent ++ [(k, s.now)] }

/-- Issues a request whose answer the command that makes it brings: its packet leaves, and the response that follows it finds
no request. (DESIGN CHOICE: log entry 5.) -/
def remoteAsk (s : State) (op : BitVec 8) (ga : Nat) (ctx n func : Nat) (asz : Bool) (data : List Byte) : State :=
  withSpan s { s.span with nextTag := s.span.nextTag + 1, sent := s.span.sent ++ [(requestPkt s op ga ctx n func asz data, s.now)] }

/-- Whether the host port may issue an outbound request (R352); an isolated hub die cannot (R31). -/
def outReady (s : State) : Bool := s.host.link && s.host.cfg.bme && !s.host.cfg.d3 && !s.key.hubIsolated

/-- Issues an outbound request of `user` in a context (R352). -/
def outSend (s : State) (user : RemUser) (ctx addr : Nat) (write : Option (List Byte)) (n : Nat) : State :=
  withHost s { s.host with
    outs := s.host.outs ++ [⟨s.host.nextOut, ctx, s.now, addr, write, n, user⟩], nextOut := s.host.nextOut + 1 }

/-! ## Route entries (Tables 10.14, 10.15) -/

/-- A domain entry: whether it is valid, VCUP, PORT and ALT. -/
def drouteOk (e : BitVec 32) : Bool :=
  bt e 31 && decide (bf e 19 0 = 0 ∧ bf e 29 25 ≤ 17 ∧ (bf e 24 20 ≤ 17 ∨ bf e 24 20 = 0x1F))
/-- The ways of a hall entry. -/
def ways (e : BitVec 32) : List Nat := [bf e 29 25, bf e 24 20, bf e 19 15, bf e 14 10]
def hrouteOk (e : BitVec 32) : Bool :=
  bt e 31 && decide (bf e 9 0 = 0 ∧ bf e 29 25 ≤ 17) && (ways e).all fun w => decide (w ≤ 17 ∨ w = 0x1F)

def drouteAt (s : State) (b : Bool) (pkg : Nat) : BitVec 32 := tget 0 s.span.droute ((if b then 256 else 0) + pkg)
def hrouteAt (s : State) (b : Bool) (dom : Nat) : BitVec 32 := tget 0 s.span.hroute ((if b then 512 else 0) + dom)

/-- Whether the Span of this package has a route to a global address: an identity, ROUTE_EN, a hub die that is not isolated,
and a valid entry of the bank in use (R31, R306, R324, R332). -/
def spanReach (s : State) (ga : Nat) : Bool :=
  bt s.span.id 31 && s.span.routeEn && !s.key.hubIsolated
  && (if ga / 2 ^ 49 % 512 = ownDomain s then drouteOk (drouteAt s s.span.actep (ga / 2 ^ 41 % 256))
      else hrouteOk (hrouteAt s s.span.actep (ga / 2 ^ 49 % 512)))

/-! ## Answers from outside the package (R336, R337, R353) -/

/-- A failing answer of another package: a STATUS of R337, or REMOTE_TIMEOUT where no such response comes.
(DESIGN CHOICE: log entry 5.) -/
def spanFail (c : Code) : Code :=
  if c = St.ctxDenied ∨ c = St.rowRemapped ∨ c = St.channelRetired then c else St.remoteTimeout

/-- A failing outcome at the host port (R353). -/
def busFail (c : Code) : Code := if c = St.ctxDenied then c else St.remoteTimeout

/-- The code of a free answer: OK or any failing one. -/
def freeCode (v : BitVec 8) : Code :=
  match v.toNat % 5 with
  | 0 => St.ok
  | 1 => St.ctxDenied
  | 2 => St.rowRemapped
  | 3 => St.channelRetired
  | _ => St.remoteTimeout

/-- An answer that no operand of the command brings: its code is free among those that `fail` allows, and so are its
bytes. (DESIGN CHOICE: log entry 5.) -/
def freeAnswer (s : State) (fail : Code → Code) (n : Nat) : Code × List Byte × State :=
  match freshBits s 8 with
  | (v, s1) =>
    if freeCode v = St.ok then
      match freshBytes s1 n with
      | (bs, s2) => (St.ok, bs, s2)
    else (fail (freeCode v), [], s1)

/-- The answer of another package to a request for `n` bytes, from the reply that a command carries, `skip` bytes of which
have been used: REMOTE_TIMEOUT where the address has no route (R306, R336), free where the reply is `home`. -/
def spanAnswer (s : State) (ga : Nat) (r : Reply) (skip n : Nat) : Code × List Byte × State :=
  if !spanReach s ga then (St.remoteTimeout, [], s)
  else match r with
    | .home => freeAnswer s spanFail n
    | .ok d => (St.ok, slice d skip n, s)
    | .fail c => (spanFail c, [], s)

/-- The outcome of an outbound request that the port may issue, from the reply that a command carries. -/
def busAnswer (s : State) (r : Reply) (skip n : Nat) : Code × List Byte × State :=
  match r with
  | .home => freeAnswer s busFail n
  | .ok d => (St.ok, slice d skip n, s)
  | .fail c => (busFail c, [], s)

/-! ## The Remote Line Cache (R299 to R301) -/

/-- The RLC line of a key in tower `t`. (DEDUCED: log entry 68.) -/
def rlcFind (s : State) (t : Nat) (key : BitVec 64) : Option RlcLine := (getTower s t).rlc.find? fun l => l.line = key

/-- Whether a global line address belongs to this package. -/
def keyHere (s : State) (key : BitVec 64) : Bool := decide (levelOf s key.toNat = 0)

/-- Whether the home channel of a line of this package was retired at run time (R286). -/
def homeRunRetired (s : State) (x : Nat) : Bool :=
  match chanOf s x with
  | some (c, _) => (getHbm s c).runLost && decide (x < 0x8600000000)
  | none => false

/-- Writes an RLC line back to its home (R300 home_write, R286, R301). -/
def writeBack (s : State) (l : RlcLine) : State :=
  if keyHere s l.line then
    let x := l.line.toNat % 2 ^ 41
    match l.lost with
    | some _ => s
    | none => (homeWrite s true l.ctx x (bytesOf l.data) false).2
  else remoteSend s (.wback l.ctx) 0x02 l.line.toNat l.ctx 64 0 false (bytesOf l.data)

/-- Whether the intake queue of the Quarry unit that a line is offered to holds 48 or more of its 64 entries: how full it is
depends on timing that the model does not hold, so the answer is free (R296). (DESIGN CHOICE: log entry 83.) -/
def intakeFull (s : State) : Bool × State :=
  match freshBits s 1 with
  | (v, s1) => (decide (v = 1), s1)

/-- Offers an evicted clean line homed in another package to the VICTIM units (R295, R296). -/
def offerVictim (s : State) (t : Nat) (l : RlcLine) : State :=
  let n := ((List.range 8).filter fun u => qKind s t u = 1).length
  if n = 0 ∨ l.pf then s
  else match intakeFull s with
  | (true, s) => s
  | (false, s) =>
    let tw := getTower s t
    let q : QLine := ⟨l.line, l.data, l.lost, l.ctx, l.own⟩
    setTower s t { tw with victim :=
      (trimSet (fun y : QLine => Config.quarryHash (y.line.toNat / 64) % (32768 * n)) 16
        (q :: tw.victim.filter fun y => y.line ≠ l.line)).1 }

/-- What becomes of an evicted line (R300 evict). -/
def rlcEvicted (s : State) (t : Nat) (l : RlcLine) : State :=
  let x := l.line.toNat % 2 ^ 41
  if l.dirty then writeBack s l
  else if keyHere s l.line then
    if homeRunRetired s x then writeBack s l
    else if l.pf ∨ homeUnits s (homeTower s x) = 0 then s
    else match intakeFull s with
      | (true, s) => s
      | (false, s) => homePlace s x ⟨l.line, l.data, l.lost, l.ctx, l.own⟩
  else offerVictim s t l

/-- The set of an RLC line, of 32,768 (R299). (DESIGN CHOICE: log entry 24.) -/
def rlcSetOf (l : RlcLine) : Nat := Config.rlcSet (l.line.toNat / 64) % 32768

/-- Places a line in the RLC of tower `t`; `lru` puts it last in its set's order. -/
def rlcPut (s : State) (t : Nat) (rest : List RlcLine) (l : RlcLine) (lru : Bool) : State :=
  modTower s t fun w => { w with rlc := if lru then rest ++ [l] else l :: rest }

/-- Installs a line in the RLC of tower `t`: in a way of its set that is free and in service, else in the place of the least
recently used line of the set, which is evicted (R300 install). With every way retired the line is not kept. (DESIGN CHOICE: log entry 26.) -/
def rlcInstall (s : State) (t : Nat) (l : RlcLine) (lru : Bool) : State :=
  let tw := getTower s t
  let rest := tw.rlc.filter fun y => y.line ≠ l.line
  let same := rest.filter fun y => rlcSetOf y = rlcSetOf l
  match (List.range 16).find? fun w => !tw.waysOff.contains w && same.all fun y => decide (y.way ≠ w) with
  | some w => rlcPut s t rest { l with way := w } lru
  | none =>
    match same.getLast? with
    | none => s
    | some v => rlcEvicted (rlcPut s t (rest.filter fun y => y.line ≠ v.line) { l with way := v.way } lru) t v

/-- The directory's recall before an accelerator-side access by a requester of tower `keep` (8 for none): a dirty
copy is written back; a write also invalidates every other copy (R299). -/
def recallLine (s : State) (key : BitVec 64) (write : Bool) (keep : Nat) : State :=
  forEach s (List.range 8) fun s t =>
    if t = keep then s
    else
      match rlcFind s t key with
      | none => s
      | some l =>
        let s := if l.dirty || (write && homeRunRetired s (key.toNat % 2 ^ 41)) then writeBack s l else s
        let tw := getTower s t
        setTower s t { tw with rlc := if write then (tw.rlc.filter fun y => y.line ≠ key)
          else (tw.rlc.map fun y => if y.line = key then { y with dirty := false } else y) }

/-- Whether a request may allocate in the RLC of tower `t` (Table 9.11, R300). (DESIGN CHOICE: log entry 26.) -/
def allocatable (s : State) (t : Nat) (key : BitVec 64) (rq : RlcUser) (nc : Bool) : Bool :=
  match rq with
  | .other => false
  | _ =>
    !nc && (match levelOf s key.toNat with
      | 0 => decide (homeTower s (key.toNat % 2 ^ 41) ≠ t) && present s (key.toNat % 2 ^ 41)
      | 1 => true
      | _ => false)

/-- Whether a copy filled for `own` and `ctx` serves a request of context `x` (R261). (DEDUCED: log entry 68.) -/
def copyServes (own : BitVec 16) (ctx x : Nat) : Bool := decide (bf own 15 14 = 2) || decide (ctx = x)

/-- The code of a request from die `d` to the home of a local offset: its route, then the checks of the home (R31, R254). -/
def hereCheck (s : State) (d : Nat) (sys : Bool) (ctx x : Nat) : Code :=
  if homeCheck s sys ctx x ≠ St.ok then homeCheck s sys ctx x else dieCode s d (homeTower s x)

/-- The home side of a read of a line of this package by an accelerator requester of die `d`: the directory recalls a dirty
copy from every RLC (R299). -/
def hereRead (s : State) (d : Nat) (sys : Bool) (ctx x n : Nat) (nc : Bool) : Code × List Byte × State :=
  if hereCheck s d sys ctx x ≠ St.ok then (hereCheck s d sys ctx x, [], s)
  else homeRead (recallLine s (lineKey s x) false 8) sys ctx x n nc

/-- The home side of a write of a line of this package: the directory invalidates the copy of every RLC (R299). (DEDUCED: log entry 25.) -/
def hereWrite (s : State) (d : Nat) (sys : Bool) (ctx x : Nat) (bs : List Byte) (nc : Bool) : Code × State :=
  if hereCheck s d sys ctx x ≠ St.ok then (hereCheck s d sys ctx x, s)
  else homeWrite (recallLine s (lineKey s x) true 8) sys ctx x bs nc

/-- The home side of an atomic on a line of this package. -/
def hereAtomic (s : State) (d : Nat) (ctx x n func b c : Nat) (nc : Bool) : Code × Nat × State :=
  if hereCheck s d false ctx x ≠ St.ok then (hereCheck s d false ctx x, 0, s)
  else homeAtomic (recallLine s (lineKey s x) true 8) false ctx x n func b c nc

/-- A read of a line of this package that the RLC of tower `t` places. -/
def fetchHere (s : State) (t : Nat) (ctx x : Nat) (nc : Bool) : Code × List Byte × State := hereRead s t false ctx x 64 nc

/-- The CTX and MODE of a line that another package sent: its response does not tell the MODE under which the check passed, so
it is free (R261). (DESIGN CHOICE: log entry 91.) -/
def remoteMode (s : State) (ctx : Nat) : BitVec 16 × State :=
  match freshBits s 1 with
  | (v, s1) => (if v = 1 then 0x8000 else BitVec.ofNat 16 (0x4000 + ctx % 4096), s1)

/-- Asks another package for the line of `key` in context `ctx`, and its answer: `ext` where the command brings the line,
else free. -/
def fetchRemote (s : State) (key : BitVec 64) (ctx : Nat) (ext : Option (BitVec 512)) : Code × List Byte × State :=
  match ext with
  | some d => (St.ok, bytesOf d, s)
  | none => spanAnswer (remoteAsk s 0x01 key.toNat ctx 64 0 false []) key.toNat .home 0 64

/-- Installs a line with the CTX and MODE of the check it passed (R261). -/
def rlcFill (s : State) (t : Nat) (key : BitVec 64) (ctx : Nat) (d : BitVec 512) (dirty pf lru : Bool) : State :=
  if keyHere s key then rlcInstall s t ⟨key, 0, d, none, dirty, pf, ctx, ownEntry s (key.toNat % 2 ^ 41)⟩ lru
  else match remoteMode s ctx with
    | (m, s1) => rlcInstall s1 t ⟨key, 0, d, none, dirty, pf, ctx, m⟩ lru

/-- Fetches a line from its home for the RLC of tower `t` (R300 fetch). -/
def rlcFetch (s : State) (t : Nat) (key : BitVec 64) (ctx : Nat) (nc : Bool) (ext : Option (BitVec 512)) : Code × List Byte × State :=
  if keyHere s key then fetchHere s t ctx (key.toNat % 2 ^ 41) nc else fetchRemote s key ctx ext

/-- Next-line prefetch (R300): faults are dropped unreported. (DESIGN CHOICE: log entry 26.) -/
def rlcPrefetch (s : State) (t : Nat) (key : BitVec 64) (rq : RlcUser) (ctx : Nat) (nc : Bool)
    (ext2 : Option (BitVec 512)) : State :=
  let b := key + 64
  if bt (getTower s t).rlcCtl 31 ∧ b.toNat / 4096 = key.toNat / 4096 ∧ (rlcFind s t b).isNone ∧ allocatable s t b rq nc then
    match rlcFetch s t b ctx nc ext2 with
    | (c, bs, s') => if c = St.ok then rlcFill s' t b ctx (lineOf bs) false true true else s'
  else s

/-- Drops the copy of a line in the RLC of tower `t`, a dirty one once it is written back. -/
def rlcDrop (s : State) (t : Nat) (key : BitVec 64) : State :=
  match rlcFind s t key with
  | none => s
  | some l => modTower (if l.dirty then writeBack s l else s) t fun w => { w with rlc := w.rlc.filter fun y => y.line ≠ key }

/-- Drops the copy of a line in the VICTIM units of tower `t`. -/
def victimDrop (s : State) (t : Nat) (key : BitVec 64) : State :=
  modTower s t fun w => { w with victim := w.victim.filter fun y => y.line ≠ key }

/-- Writes back a dirty copy of a line homed in another package and drops the copies of the tower, before a request that
does not allocate (R300). (DEDUCED: log entry 68.) -/
def rlcBypass (s : State) (t : Nat) (key : BitVec 64) : State := victimDrop (rlcDrop s t key) t key

/-- A line of another package that a tower's VICTIM units give back (R295). -/
def victimHit (s : State) (t : Nat) (key : BitVec 64) (ctx : Nat) : Option QLine :=
  (getTower s t).victim.find? fun v => v.line = key ∧ copyServes v.own v.ctx ctx

/-- Whether a line of this package has no storage, so that every access to it gives CHANNEL_RETIRED (R288). -/
def keyLost (s : State) (key : BitVec 64) : Bool := keyHere s key && noStorage s (key.toNat % 2 ^ 41)

/-- The RLC's copy of a line that serves a request of a context (R261). -/
def rlcHit (s : State) (t : Nat) (key : BitVec 64) (ctx : Nat) : Option RlcLine :=
  (rlcFind s t key).filter fun l => copyServes l.own l.ctx ctx

/-- The RLC's read procedure (R300): the code, the 64 bytes of the line and the state after it. `ext` and `ext2`
bring the line and the next line where their home is another package. -/
def rlcRead (s : State) (t : Nat) (rq : RlcUser) (key : BitVec 64) (ctx : Nat) (nc : Bool)
    (ext ext2 : Option (BitVec 512)) : Code × List Byte × State :=
  let x := key.toNat % 2 ^ 41
  if keyLost s key then (if homeCheck s false ctx x ≠ St.ok then homeCheck s false ctx x else St.channelRetired, [], s)
  else if !allocatable s t key rq nc then
    if keyHere s key then hereRead s t false ctx x 64 nc else fetchRemote (rlcBypass s t key) key ctx ext
  else
    match rlcHit s t key ctx with
    | some l =>
      let s := modTower s t fun w => { w with rlc := { l with pf := false } :: w.rlc.filter fun y => y.line ≠ key }
      match l.lost with
      | some m => (lostCode m, [], s)
      | none => (St.ok, bytesOf l.data, s)
    | none =>
      match (if keyHere s key then none else victimHit s t key ctx) with
      | some v =>
        let s := rlcInstall (victimDrop (rlcDrop s t key) t key) t ⟨key, 0, v.data, v.lost, false, false, v.ctx, v.own⟩ false
        (match v.lost with
          | some m => lostCode m
          | none => St.ok, bytesOf v.data, rlcPrefetch s t key rq ctx nc ext2)
      | none =>
        match rlcFetch (rlcDrop s t key) t key ctx nc ext with
        | (c, bs, s') =>
          if c ≠ St.ok then (c, [], s')
          else (St.ok, bs, rlcPrefetch (rlcFill s' t key ctx (lineOf bs) false false false) t key rq ctx nc ext2)

/-- The key of a requester's stream detector in its core: 0 the sequencer, 1 to 4 its DMA channels. -/
def streamOf : RlcUser → Option (Nat × Nat)
  | .seq c => some (c.val, 0)
  | .fetch c => some (c.val, 0)
  | .dma c ch => some (c.val, ch.val + 1)
  | .other => none

/-- Advances the requester's stream detector by a write to line `key`, and gives its run (R300). -/
def streamStep (s : State) (rq : RlcUser) (key : BitVec 64) : State × Nat :=
  match streamOf rq with
  | none => (s, 0)
  | some (c, i) =>
    let k := getCore s c
    let st := tget {} k.streams i
    if key = st.last then (s, st.run)
    else
      let run := if key = st.last + 64 then st.run + 1 else 1
      (setCore s c { k with streams := tset {} k.streams i ⟨key, run⟩ }, run)

/-- Whether an outcome of a read says that the line is lost. -/
def isLost (c : Code) : Bool := decide (c = St.rowRemapped ∨ c = St.channelRetired)

/-- Takes every other copy of a line away before a write that allocates in the RLC of tower `t`: the directory for a line of
the package (R299), the tower's own older copies for another package's (R295). -/
def rlcClear (s : State) (t : Nat) (key : BitVec 64) : State :=
  if keyHere s key then recallLine s key true 8 else rlcBypass s t key

/-- The write of R300 where it allocates: `none` says that the write goes to its home instead. A line in a VICTIM unit is
the fetch of a write miss (R295). -/
def rlcTryWrite (s : State) (t : Nat) (run : Nat) (rq : RlcUser) (key : BitVec 64) (ctx : Nat) (nc : Bool) (off : Nat)
    (bs : List Byte) (ext : Option (BitVec 512)) : Option (Code × State) :=
  let x := key.toNat % 2 ^ 41
  let whole := decide (off = 0 ∧ bs.length = 64)
  let check := if keyHere s key then hereCheck s t false ctx x else St.ok
  if keyLost s key then some (if homeCheck s false ctx x ≠ St.ok then homeCheck s false ctx x else St.channelRetired, s)
  else if !allocatable s t key rq nc then none
  else
    match rlcHit s t key ctx with
    | some l =>
      let s := if keyHere s key then recallLine s key true t else s
      let l' := { l with data := mergeLine l.data off bs, dirty := true, pf := false, ctx := ctx,
                         lost := if whole then none else l.lost }
      some (St.ok, modTower s t fun w => { w with rlc := l' :: w.rlc.filter fun y => y.line ≠ key })
    | none =>
      let ctl := (getTower s t).rlcCtl
      if bt ctl 30 ∧ run ≥ bf ctl 23 16 then none
      else if check ≠ St.ok then some (check, s)
      else if whole then some (St.ok, rlcFill (rlcClear s t key) t key ctx (lineOf bs) true false false)
      else
        match (if keyHere s key then none else (victimHit s t key ctx).filter fun v => decide (v.lost = none)) with
        | some v => some (St.ok, rlcFill (rlcClear s t key) t key ctx (mergeLine v.data off bs) true false false)
        | none =>
          match rlcFetch (rlcClear s t key) t key ctx nc ext with
          | (c, old, s') =>
            if isLost c then none
            else if c ≠ St.ok then some (c, s')
            else some (St.ok, rlcFill s' t key ctx (mergeLine (lineOf old) off bs) true false false)

/-- A home_write of bytes within one line by tower `t` (R300, R301): at once for a line of the package, as a
request of `user` for another package. -/
def homeWriteFrom (s : State) (t : Nat) (user : RemUser) (key : BitVec 64) (ctx : Nat) (nc : Bool) (off : Nat)
    (bs : List Byte) : Code × State :=
  if keyHere s key then hereWrite s t false ctx (key.toNat % 2 ^ 41 + off) bs nc
  else (St.ok, remoteSend (rlcBypass s t key) user 0x02 (key.toNat + off) ctx bs.length 0 false bs)

/-- The RLC's write procedure (R300) for bytes within one line. -/
def rlcWrite (s : State) (t : Nat) (rq : RlcUser) (key : BitVec 64) (ctx : Nat) (nc : Bool) (off : Nat) (bs : List Byte)
    (ext : Option (BitVec 512)) : Code × State :=
  match streamStep s rq key with
  | (s, run) =>
    match rlcTryWrite s t run rq key ctx nc off bs ext with
    | some r => r
    | none => homeWriteFrom s t (.wback ctx) key ctx nc off bs

/-! ## The search of a Range Table (R250) -/

/-- A SYS read by die `d` of a table, descriptor or map (R250): its code, its value and the state, since the line passes
through Quarry like other local lines. No memory lies past the local offsets. -/
def sysRead (s : State) (d x n : Nat) : Code × Nat × State :=
  if 2 ^ 41 ≤ x then (St.ctxDenied, 0, s)
  else match hereRead s d true 0 x n false with
    | (c, bs, s1) => (c, leNat bs, s1)

/-- A SYS write by die `d` of bytes within one line. -/
def sysWrite (s : State) (d x : Nat) (bs : List Byte) : Code × State :=
  if 2 ^ 41 ≤ x then (St.ctxDenied, s) else hereWrite s d true 0 x bs false

/-- The binary search: `i` and the entry already read, from `step` = 2^k / 2 down. -/
def searchLoop (d base vp : Nat) : Nat → State → Nat → Option (BitVec 256) → Code × Nat × Option (BitVec 256) × State
  | 0, s, i, e => (St.ok, i, e, s)
  | k + 1, s, i, e =>
    match sysRead s d (base + 32 * (i + 2 ^ k)) 32 with
    | (c, v, s1) =>
      if c ≠ St.ok then (c, i, none, s1)
      else if reStart (BitVec.ofNat 256 v) ≤ vp then searchLoop d base vp k s1 (i + 2 ^ k) (some (BitVec.ofNat 256 v))
      else searchLoop d base vp k s1 i e

/-- The result of a search: a hit with its index and entry, or the code and XFAULT cause of a miss or of a
failed table read. -/
inductive Found where
  | hit (idx : Nat) (e : BitVec 256)
  | bad (code : Code) (cause : Nat)
deriving DecidableEq, Repr

/-- A whole search by die `d` for the page `vp` (R250). -/
def search (s : State) (d base log2n : Nat) (en : Bool) (vp : Nat) : Found × State :=
  if !en then (.bad St.xlateMiss 1, s)
  else
    match searchLoop d base vp log2n s 0 none with
    | (c, i, e, s1) =>
      if c ≠ St.ok then (.bad c 6, s1)
      else
        match (match e with
          | some e => (St.ok, e.toNat, s1)
          | none => sysRead s1 d base 32) with
        | (c, v, s2) =>
          if c ≠ St.ok then (.bad c 6, s2)
          else if reCovers (BitVec.ofNat 256 v) vp then (.hit i (BitVec.ofNat 256 v), s2) else (.bad St.xlateMiss 1, s2)

/-- Fields of RTBASE (Table 8.4): the table's local offset and LOG2N, 0xF taken as 15. -/
def rtBase (k : Ctx) : Nat := bf k.rtbase 63 12 * 4096
def rtLog2 (k : Ctx) : Nat := bf k.rtbase 3 0
def xctlEn (k : Ctx) : Bool := bt k.xctl 31

/-- The descriptor that a migratable entry names (R267), in the table of MDBASE `md`: code, value and state. -/
def descOf (s : State) (d : Nat) (md : BitVec 64) (e : BitVec 256) : Code × BitVec 256 × State :=
  if reMig e ∧ reMigIdx e ≤ bf md 9 0 then
    match sysRead s d (bf md 63 12 * 4096 + 32 * reMigIdx e) 32 with
    | (c, v, s1) => (c, BitVec.ofNat 256 v, s1)
  else (St.ok, 0, s)

/-- Finds the entry of a context that covers a page in a lookaside buffer (R251). -/
def lbFind (lb : List LbEntry) (x vp : Nat) : Option LbEntry := lb.find? fun l => l.ctx = x ∧ reCovers l.entry vp

/-- Puts an entry that was hit first in its buffer, with what the access changed in it (R251). -/
def lbTouch (lb : List LbEntry) (old new : LbEntry) : List LbEntry := new :: lb.erase old

/-- Fills an entry into a buffer of `n` entries, replacing the least recently used (R251). -/
def lbFill (n : Nat) (lb : List LbEntry) (l : LbEntry) : List LbEntry := (l :: lb).take n

/-- One search by die `d` and its descriptor read, as a new lookaside entry. -/
def searchFill (s : State) (d x base log2n : Nat) (en : Bool) (md : BitVec 64) (vp : Nat) : (LbEntry ⊕ (Code × Nat)) × State :=
  match search s d base log2n en vp with
  | (.bad c k, s1) => (.inr (c, k), s1)
  | (.hit i e, s1) =>
    match descOf s1 d md e with
    | (c, desc, s2) => if c ≠ St.ok then (.inr (c, 6), s2) else (.inl ⟨x, i, e, desc, bf md 9 0, []⟩, s2)

/-- Adds 1 to WAITS of MIGSTAT (R269). -/
def countWait (s : State) (x : Nat) : State :=
  modCtx s x fun k => { k with migstat := sf k.migstat 15 0 (satInc (BitVec.ofNat 16 (bf k.migstat 15 0))).toNat }

/-- The state bits of page `p` (R267): 0 AWAY, 1 MOVING, 2 LOCAL; 3 is treated as AWAY. -/
def pageState (word p : Nat) : Nat := let b := word / 2 ^ (2 * (p % 32)) % 4; if b = 3 then 0 else b

/-- The map word with page `p` set to `v`. -/
def setPage (word p v : Nat) : Nat :=
  word - word / 2 ^ (2 * (p % 32)) % 4 * 2 ^ (2 * (p % 32)) + v * 2 ^ (2 * (p % 32))

/-- The source of page `p` of a migratable range (R268). -/
def migSource (e : BitVec 256) (p : Nat) : Target :=
  let a := reTarget e + 65536 * p
  if reTkind e = 1 then .bus a else .remote (BitVec.ofNat 64 a)

/-- A place in local memory as a translation; no memory lies past the local offsets, so CTX_DENIED there (R275). -/
def locTarget (o : Nat) (nc : Bool) : XSt := if 2 ^ 41 ≤ o then .fault St.ctxDenied 4 else .target (.loc o) nc

/-- The requests with which an engine reads the source of a page (R268 step 5): 256 reads of 256 bytes in the context, after
the engine's tower has written back and dropped its own copies of the page's lines (R300). Their answer comes with the
command that ends the migration. (DESIGN CHOICE: log entry 28.) -/
def migrIssue (s : State) (m : Migr) : State :=
  match m.src with
  | .remote ga =>
    if ga.toNat / 2 ^ 58 ≠ 0 then s
    else
      let s1 := forEach s ((getTower s m.tower).rlc.filter fun l => decide (l.line.toNat / 65536 = ga.toNat / 65536)) fun s l =>
        rlcDrop s m.tower l.line
      forEach s1 (List.range 256) fun s i => remoteAsk s 0x01 (ga.toNat + 256 * i) m.ctx 256 0 false []
  | .bus a =>
    if !outReady s then s else forEach s (List.range 256) fun s i => outSend s .answered m.ctx (a + 256 * i) none 256
  | .loc _ => s

/-- Whether a migration is one of the 16 that its tower's engine works on. (DESIGN CHOICE: log entry 28.) -/
def migrActive (s : State) (i : Nat) (m : Migr) : Bool :=
  decide (((s.migr.take i).filter fun n => n.tower = m.tower).length < 16)

/-- Hands a page to its tower's engine, which reads the source at once while it works on fewer than 16 (R268 steps 4 and 5). -/
def migrHand (s : State) (m : Migr) : State :=
  let s1 := if migrActive s s.migr.length m then migrIssue s m else s
  { s1 with migr := s1.migr ++ [m] }

/-- The translation of an access that a lookaside entry covers, checks 2 to 4 of R254 and the level rules that
refuse (R306, R333). `d` is the die that translates, whose engine takes a migrated page (tower 0's for the hub die);
`hallRefuses` says that the hall level refuses the access. Gives the translation, the entry with its page list, and
the state. -/
def resolve (s : State) (x : Nat) (l : LbEntry) (va : BitVec 64) (need : Need) (hallRefuses : Bool) (d : Nat) :
    XSt × LbEntry × State :=
  let e := l.entry
  if reMalformed s l.mdc e l.desc then (.fault St.xlateFault 3, l, s)
  else if !permits e need then (.fault St.xlateFault 2, l, s)
  else
    let o := va.toNat - reStart e * 4096
    if reMig e then
      let p := o / 65536
      let a := mdLocal l.desc + o
      if l.pages.contains p then (locTarget a (reNc e), l, s)
      else
        let w := mdMap l.desc + 8 * (p / 32)
        match sysRead s d w 8 with
        | (c, v, s0) =>
          if c ≠ St.ok then (.fault c 6, l, s0)
          else
            match pageState v p with
            | 2 => (locTarget a (reNc e), { l with pages := (p :: l.pages).take 8 }, s0)
            | 1 => (.page (.loc a) (reNc e) w p, l, s0)
            | _ =>
              match sysWrite s0 d w (toLe 8 (setPage v p 1)) with
              | (_, s1) =>
                (.page (.loc a) (reNc e) w p, l,
                  migrHand s1 ⟨if d < 8 then d else 0, x, migSource e p, mdLocal l.desc + 65536 * p, w, p,
                    BitVec.ofNat 64 (reStart e * 4096 + 65536 * p)⟩)
    else
      let a := reTarget e + o
      if reTkind e = 1 then (.target (.bus a) (reNc e), l, s)
      else if a / 2 ^ 58 ≠ 0 then (.fault St.ctxDenied 4, l, s)
      else if levelOf s a = 0 then (.target (.loc (a % 2 ^ 41)) (reNc e), l, s)
      else if levelOf s a = 2 ∧ hallRefuses then (.fault St.xlateFault 2, l, s)
      else (.target (.remote (BitVec.ofNat 64 a)) (reNc e), l, s)

/-- Whether a waiting hub translation is that of an access. -/
def hubWaits (x : Nat) (va : BitVec 64) (h : Nat × BitVec 64 × XSt) : Bool := decide (h.1 = x ∧ h.2.1 = va)

/-- The hub lookaside entry that covers an address of a context, filled by a search within the step where none does
(log entry 6); else the fault of the search. -/
def hubEntry (s : State) (x : Nat) (va : BitVec 64) : (LbEntry ⊕ (Code × Nat)) × State :=
  let k := getCtx s x
  match lbFind s.hlb x (va.toNat / 4096) with
  | some l => (.inl l, s)
  | none =>
    match searchFill s hubDie x (rtBase k) (rtLog2 k) (xctlEn k) k.mdbase (va.toNat / 4096) with
    | (.inl l, s1) => (.inl l, { s1 with hlb := lbFill 1024 s1.hlb l })
    | r => r

/-- Translation through the hub lookaside buffer. An access that meets a page on its way is listed as waiting, so that the
outcome of the migration reaches it (R268, R269). -/
def hubXlate (s : State) (x : Nat) (va : BitVec 64) (need : Need) (hallRefuses : Bool) : XSt × State :=
  match s.hubX.find? (hubWaits x va) with
  | some (_, _, .fault c k) => (.fault c k, { s with hubX := s.hubX.filter fun h => !hubWaits x va h })
  | w =>
    match hubEntry s x va with
    | (.inr (c, k), s1) => (.fault c (BitVec.ofNat 3 k), s1)
    | (.inl l, s1) =>
      match resolve s1 x l va need hallRefuses hubDie with
      | (t, l', s') =>
        let s' := { s' with hlb := lbTouch s'.hlb l l' }
        match t with
        | .page _ _ _ _ =>
          if w.isSome then (t, s') else (t, { countWait s' x with hubX := s'.hubX ++ [(x, va, t)] })
        | _ => (t, { s' with hubX := s'.hubX.filter fun h => !hubWaits x va h })

/-! ## Hub accesses -/

/-- What a hub access gives: its code (MIGRATE_PENDING says that it still waits), its bytes and the state. -/
structure Acc where
  code : Code
  bytes : List Byte
  s : State

/-- Records the fault of a hub access at its home: an ownership refusal, and for BAR2 (`src` 4) every failed check, with the
code it failed with (R258, R266). (DESIGN CHOICE: log entry 84.) -/
def ownFault (s : State) (x : Nat) (code : Code) (need : Need) (src : Nat) (va : BitVec 64) : State :=
  if code = St.ctxDenied ∨ (src = 4 ∧ code ≠ St.ok ∧ code ≠ St.rowRemapped ∧ code ≠ St.channelRetired) then
    xfault s x code 4 need (src % 8) (src / 8) va
  else s

/-- A hub access to a local offset. A BAR2 read (`src` 4) takes the home image without a recall (R299). -/
def hubLocal (s : State) (x src o : Nat) (nc : Bool) (va : BitVec 64) (need : Need) (n : Nat) (bs : List Byte)
    (func b c : Nat) : Acc :=
  match need with
  | .atomic =>
    match hereAtomic s hubDie x o n func b c nc with
    | (code, old, s) => ⟨code, if code = St.ok then toLe n old else [], ownFault s x code need src va⟩
  | .write | .both =>
    match hereWrite s hubDie false x o bs nc with
    | (code, s) => ⟨code, [], ownFault s x code need src va⟩
  | _ =>
    match (if src = 4 then (if hereCheck s hubDie false x o ≠ St.ok then (hereCheck s hubDie false x o, [], s)
        else homeRead s false x o n nc) else hereRead s hubDie false x o n nc) with
    | (code, d, s) => ⟨code, d, ownFault s x code need src va⟩

/-- The tower's copies of a line that a save machine's request to another package writes back and drops first (R300); the hub
die has no RLC. -/
def hubBypass (s : State) (src : Nat) (ga : BitVec 64) : State :=
  if src % 8 = 3 then rlcBypass s (src / 8 / 32) (BitVec.ofNat 64 (ga.toNat / 64 * 64)) else s

/-- A hub access to another package. -/
def hubRemote (s : State) (x src : Nat) (ga : BitVec 64) (va : BitVec 64) (need : Need) (n : Nat) (bs : List Byte)
    (func b c : Nat) (r : Reply) (skip : Nat) : Acc :=
  let s := hubBypass s src ga
  match (match need with
    | .atomic => spanAnswer (remoteAsk s 0x03 ga.toNat x 16 func (decide (n = 8)) (toLe 8 b ++ toLe 8 c)) ga.toNat r skip n
    | .write | .both => spanAnswer (remoteAsk s 0x02 ga.toNat x bs.length 0 false bs) ga.toNat r 0 0
    | _ => spanAnswer (remoteAsk s 0x01 ga.toNat x n 0 false []) ga.toNat r skip n) with
  | (code, d, s) => ⟨code, d, ownFault s x code need src va⟩

/-- A hub access to a bus address (R352, R353). -/
def hubBus (s : State) (x src a : Nat) (va : BitVec 64) (need : Need) (n : Nat) (bs : List Byte) (r : Reply) (skip : Nat) : Acc :=
  if !outReady s then ⟨St.ctxDenied, [], if src = 4 then ownFault s x St.ctxDenied need src va else s⟩
  else
    match (match need with
      | .write | .both => busAnswer (outSend s .answered x a (some bs) bs.length) r 0 0
      | _ => busAnswer (outSend s .answered x a none n) r skip n) with
    | (code, d, s) => ⟨code, d, if src = 4 then ownFault s x code need src va else s⟩

/-- One hub access of context `x` within a 64-byte line: a read of `n` bytes, a write of `bs`, or an atomic of `n`
bytes. `r` answers an access outside the package; `src` is the SRC of the fault record, plus 8 times its CORE. (DESIGN CHOICE: log entry 6.) -/
def hubAccess (s : State) (x src : Nat) (va : BitVec 64) (need : Need) (n : Nat) (bs : List Byte) (func b c : Nat)
    (r : Reply) (skip : Nat) (hallRefuses : Bool) : Acc :=
  match hubXlate s x va need hallRefuses with
  | (.fault code cause, s) => ⟨code, [], xfault s x code cause.toNat need (src % 8) (src / 8) va⟩
  | (.target (.loc o) nc, s) => if chanHeld s o then ⟨St.migratePending, [], s⟩ else hubLocal s x src o nc va need n bs func b c
  | (.target (.remote ga) _, s) => hubRemote s x src ga va need n bs func b c r skip
  | (.target (.bus a) _, s) => hubBus s x src a va need n bs r skip
  | (_, s) => ⟨St.migratePending, [], s⟩

/-- Reads `n` bytes of context `x` at `va` by the hub, line by line; the first failing line gives the code. -/
def hubReadLoop (x src : Nat) (need : Need) (hall : Bool) (r : Reply) : List (Nat × Nat) → Nat → State → List Byte → Acc
  | [], _, s, acc => ⟨St.ok, acc, s⟩
  | (a, k) :: t, skip, s, acc =>
    match hubAccess s x src (BitVec.ofNat 64 a) need k [] 0 0 0 r skip hall with
    | ⟨c, d, s'⟩ => if c ≠ St.ok then ⟨c, [], s'⟩ else hubReadLoop x src need hall r t (skip + k) s' (acc ++ d)

/-- A read of pool metadata, which needs R and W (Table 8.3). -/
def hubReadBoth (s : State) (x src : Nat) (va : BitVec 64) (n : Nat) (r : Reply) : Acc :=
  hubReadLoop x src .readBoth false r (pieces 64 (n / 64 + 2) va.toNat n) 0 s []

/-- A hub read. (DESIGN CHOICE: log entry 6.) -/
def hubRead (s : State) (x src : Nat) (va : BitVec 64) (n : Nat) (r : Reply) : Acc :=
  hubReadLoop x src .read false r (pieces 64 (n / 64 + 2) va.toNat n) 0 s []

/-- The flag read of a WAITMEM, refused at hall level (R333). -/
def hubFlag (s : State) (x src : Nat) (va : BitVec 64) (n : Nat) (r : Reply) : Acc :=
  hubReadLoop x src .read true r (pieces 64 (n / 64 + 2) va.toNat n) 0 s []

/-- Writes bytes of context `x` at `va` by the hub, line by line; a failing line stops the write. -/
def hubWriteLoop (x src : Nat) (need : Need) (r : Reply) : List (Nat × Nat) → State → List Byte → Acc
  | [], s, _ => ⟨St.ok, [], s⟩
  | (a, k) :: t, s, bs =>
    match hubAccess s x src (BitVec.ofNat 64 a) need k (bs.take k) 0 0 0 r 0 false with
    | ⟨c, _, s'⟩ => if c ≠ St.ok then ⟨c, [], s'⟩ else hubWriteLoop x src need r t s' (bs.drop k)

/-- A hub write. -/
def hubWrite (s : State) (x src : Nat) (va : BitVec 64) (need : Need) (bs : List Byte) (r : Reply) : Acc :=
  hubWriteLoop x src need r (pieces 64 (bs.length / 64 + 2) va.toNat bs.length) s bs

/-- An atomic of context `x` by the hub (R198, R209). -/
def hubAtomic (s : State) (x src : Nat) (va : BitVec 64) (n func b c : Nat) (r : Reply) : Acc :=
  hubAccess s x src va .atomic n [] func b c r 0 false

/-- Whether one of several hub accesses must wait for a page: the answer, and the state in which the waits are listed.
A step of several accesses begins only when none waits. -/
def hubProbe (x : Nat) : List (BitVec 64 × Need) → State → Bool × State
  | [], s => (false, s)
  | (va, need) :: t, s =>
    if s.hubX.any (fun h => hubWaits x va h && (match h.2.2 with
      | .fault _ _ => true
      | _ => false)) then hubProbe x t s
    else
      match hubXlate s x va need false with
      | (.page _ _ _ _, s') => (true, s')
      | (_, s') => hubProbe x t s'

/-- The accesses of a run of bytes, one for each line it touches. -/
def linesOf (va : BitVec 64) (n : Nat) (need : Need) : List (BitVec 64 × Need) :=
  (pieces 64 (n / 64 + 2) va.toNat n).map fun p => (BitVec.ofNat 64 p.1, need)

end Sys2Proof.Machine
end

