-- ==== Sys2Proof/Machine/CoreAccess.lean ====
section
/-!
DEFINITION. Accesses of a core to memory: translation through its Range Lookaside Buffer (R251, R252, R254), the
combining buffer (R301), and the completion of sequencer accesses (R137, R147 to R149).
-/

namespace Sys2Proof.Machine

/-- The tower of a core (Table 1.4). -/
def towerOf (c : Nat) : Nat := c / 32

/-- Translates an access of core `c` through its RLB: `none` on a miss. -/
def rlbXlate (s : State) (c : Nat) (va : BitVec 64) (need : Need) (hallRefuses : Bool) : Option (XSt × State) :=
  let k := getCore s c
  match lbFind k.rlb k.ctx (va.toNat / 4096) with
  | none => none
  | some l =>
    match resolve s k.ctx l va need hallRefuses (towerOf c) with
    | (t, l', s') => some (t, modCore s' c fun k => { k with rlb := lbTouch k.rlb l l' })

/-- Counts an access that starts to wait for a page (R269). -/
def countIfPage (s : State) (c : Nat) (t : XSt) : State :=
  match t with
  | .page _ _ _ _ => countWait s (getCore s c).ctx
  | _ => s

/-- A search that ends (R250): a hit is filled into the RLB and translates the access; a miss or a failed read is
its fault. `st` holds the table that the search began with. -/
def searchEnd (s : State) (c : Nat) (st : XSt) (va : BitVec 64) (need : Need) (hallRefuses : Bool) : XSt × State :=
  match st with
  | .searching base n en md =>
    match searchFill s (towerOf c) (getCore s c).ctx base n en md (va.toNat / 4096) with
    | (.inr (code, cause), s1) => (.fault code (BitVec.ofNat 3 cause), s1)
    | (.inl l, s1) =>
      let s2 := modCore s1 c fun k => { k with rlb := lbFill 256 k.rlb l }
      match rlbXlate s2 c va need hallRefuses with
      | some r => r
      | none => (.miss, s2)
  | t => (t, s)

/-- Lists a page as seen LOCAL in the RLB entry that covers an address (R268 step 2). -/
def pageSeen (s : State) (c : Nat) (va : BitVec 64) (p : Nat) : State :=
  modCore s c fun k =>
    match lbFind k.rlb k.ctx (va.toNat / 4096) with
    | none => k
    | some l => { k with rlb := lbTouch k.rlb l { l with pages := if l.pages.contains p then l.pages else (p :: l.pages).take 8 } }

/-- Re-reads the state of a page that an access waits for (R268 steps 2 and 7). -/
def pageAgain (s : State) (c : Nat) (t : XSt) (va : BitVec 64) (need : Need) (hallRefuses : Bool) : XSt × State :=
  match t with
  | .page tg nc w p =>
    match sysRead s (towerOf c) w 8 with
    | (code, v, s1) =>
      if code ≠ St.ok then (.fault code 6, s1)
      else if pageState v p = 2 then
        (match tg with
          | .loc o => locTarget o nc
          | tg => .target tg nc, pageSeen s1 c va p)
      else if pageState v p = 1 then (t, s1)
      else
        -- The page returned to AWAY: the entry starts a new migration.
        match rlbXlate s1 c va need hallRefuses with
        | none => (.miss, s1)
        | some r => r
  | _ => (t, s)

/-! ## The combining buffer (R301) -/

/-- Writes a combined line to its home, byte run by byte run; a failed write is a fault of the store (R149). -/
def combFlushLine (s : State) (c : Nat) (l : CombLine) : State :=
  let ctx := (getCore s c).ctx
  let user : RemUser := .store (BitVec.toFin (BitVec.ofNat 8 c)) l.pc l.va
  let whole := decide (l.bytes.length = 64)
  let runs : List (Nat × List Byte) :=
    if whole then [(0, l.bytes.map fun e => e.2.getD 0)]
    else l.bytes.map fun e => (e.1, [e.2.getD 0])
  forEach s runs fun s r =>
    match homeWriteFrom s (towerOf c) user l.line ctx l.nc r.1 r.2 with
    | (code, s') =>
      if code = St.ok then s'
      else
        let s' := if code = St.ctxDenied then xfault s' ctx code 4 .write 0 c l.va else s'
        modCore s' c fun k => kernelFault k code 2 0 l.pc l.va

/-- Writes every line of the combining buffer to its home. -/
def combFlush (s : State) (c : Nat) : State :=
  let ls := (getCore s c).comb
  forEach (modCore s c fun k => { k with comb := [] }) ls fun s l => combFlushLine s c l

/-- Writes the combining buffer's line of a key to its home, if the buffer holds one. -/
def combFlushOf (s : State) (c : Nat) (key : BitVec 64) : State :=
  match (getCore s c).comb.find? fun l => l.line = key with
  | none => s
  | some l => combFlushLine (modCore s c fun k => { k with comb := k.comb.filter fun y => y.line ≠ key }) c l

/-- Bytes of a line merged into the entries of a combining buffer line. -/
def combBytes (t : Tab (Option Byte)) (off : Nat) (bs : List Byte) : Tab (Option Byte) :=
  bs.zipIdx.foldl (fun t p => tset none t (off + p.2) (some p.1)) t

/-- A sequencer write that does not allocate: into its line of the buffer; a complete line, and the oldest when a
fifth is needed, go to their homes (R301). -/
def combStore (s : State) (c : Nat) (key : BitVec 64) (nc : Bool) (off : Nat) (bs : List Byte) (pc va : BitVec 64) : State :=
  let k := getCore s c
  match k.comb.find? fun l => l.line = key with
  | some l =>
    let l' := { l with bytes := combBytes l.bytes off bs }
    if l'.bytes.length = 64 then combFlushLine (setCore s c { k with comb := k.comb.filter fun y => y.line ≠ key }) c l'
    else setCore s c { k with comb := k.comb.map fun y => if y.line = key then l' else y }
  | none =>
    let l : CombLine := ⟨key, combBytes [] off bs, nc, pc, va⟩
    match k.comb with
    | a :: b :: d :: e :: t => combFlushLine (setCore s c { k with comb := b :: d :: e :: t ++ [l] }) c a
    | ls => setCore s c { k with comb := ls ++ [l] }

/-- Bytes of a line with those that the combining buffer holds for it. -/
def combOver (k : CoreSt) (key : BitVec 64) (bs : List Byte) : List Byte :=
  match k.comb.find? fun l => l.line = key with
  | none => bs
  | some l => bs.zipIdx.map fun p => (tget none l.bytes p.2).getD p.1

/-! ## Sequencer accesses -/

/-- What a sequencer access needs (Table 8.3), and whether the hall level refuses it (R333). -/
def accNeed : AccKind → Need
  | .fetch => .fetch
  | .load => .read
  | .store => .write
  | .atomic => .atomic
  | .flag => .read

def accHall : AccKind → Bool
  | .atomic => false
  | _ => true

/-- Records the fault of a translation (R258); `src` is 0 for the sequencer and 1 for DMA. -/
def recordX (s : State) (c src : Nat) (need : Need) (va : BitVec 64) (t : XSt) : State :=
  match t with
  | .fault code cause => xfault s (getCore s c).ctx code cause.toNat need src c va
  | _ => s

/-- Whether an earlier access to the same bytes is outstanding (R147). -/
def blockedBy (l : List Access) (a : Access) : Bool :=
  (l.takeWhile fun b => decide (b.id ≠ a.id)).any fun b =>
    decide (b.va.toNat < a.va.toNat + a.size ∧ a.va.toNat < b.va.toNat + b.size)

/-- The sequencer of core `c` as an RLC requester and as the user of a request. -/
def seqUser (c : Nat) : RlcUser := .seq (BitVec.toFin (BitVec.ofNat 8 c))
def accUser (c id : Nat) : RemUser := .seq (BitVec.toFin (BitVec.ofNat 8 c)) id

/-- The line key of a global address. -/
def keyOf (ga : Nat) : BitVec 64 := BitVec.ofNat 64 (ga / 64 * 64)

/-- Whether an RLC or VICTIM copy in tower `t` serves a read of context `ctx` (R261, R295, R300). -/
def copyHere (s : State) (t : Nat) (rq : RlcUser) (key : BitVec 64) (ctx : Nat) (nc : Bool) : Bool :=
  allocatable s t key rq nc && ((rlcHit s t key ctx).isSome || (victimHit s t key ctx).isSome)

/-- Whether a store to a line of another package fetches the line first: it allocates, covers part of it, and finds no copy
(R300). -/
def storeFetches (s : State) (c : Nat) (ga : Nat) (nc : Bool) (n : Nat) : Bool :=
  let t := towerOf c
  allocatable s t (keyOf ga) (seqUser c) nc && !copyHere s t (seqUser c) (keyOf ga) (getCore s c).ctx nc && decide (n < 64)
  && !(bt (getTower s t).rlcCtl 30 && decide (bf (getTower s t).rlcCtl 23 16 ≤ (streamStep s (seqUser c) (keyOf ga)).2))

/-- Whether a settled access needs an answer from outside the package. -/
def needsOutside (s : State) (c : Nat) (a : Access) : Bool :=
  match a.x with
  | .target (.remote ga) nc =>
    match a.kind with
    | .store => storeFetches s c ga.toNat nc a.size
    | .atomic => true
    | _ => !copyHere s (towerOf c) (seqUser c) (keyOf ga.toNat) (getCore s c).ctx nc
  | .target (.bus _) _ => decide (a.kind ≠ .store)
  | _ => false

/-- Sends the request of an access that needs an answer from outside the package (R322, R336, R352). -/
def accSend (s : State) (c : Nat) (a : Access) : State :=
  let ctx := (getCore s c).ctx
  match a.x with
  | .target (.remote ga) _ =>
    match a.kind with
    | .atomic =>
      remoteSend (rlcBypass (combFlush s c) (towerOf c) (keyOf ga.toNat)) (accUser c a.id) 0x03 ga.toNat ctx 16 a.func.toNat
        (decide (a.size = 8)) (toLe 8 a.data.toNat ++ toLe 8 a.cmp.toNat)
    | _ => remoteSend s (accUser c a.id) 0x01 (ga.toNat / 64 * 64) ctx 64 0 false []
  | .target (.bus b) _ => outSend s (accUser c a.id) ctx b none a.size
  | _ => s

/-- Whether the request of an access is out. -/
def accOut (s : State) (c id : Nat) : Bool :=
  (s.span.reqs.any fun r => decide (r.user = accUser c id)) || s.host.outs.any fun o => decide (o.user = accUser c id)

/-- The request of an access, sent unless it is out already. -/
def accAsk (s : State) (c : Nat) (a : Access) : State := if accOut s c a.id then s else accSend s c a

/-- Sends the request of an access once its translation leads outside the package and no earlier access to its bytes holds it.
A bus access that may not be issued completes with CTX_DENIED (R352). -/
def launchAcc (s : State) (c : Nat) (a : Access) : XSt × State :=
  match a.x with
  | .target (.bus _) _ =>
    if !outReady s then (.fault St.ctxDenied 0, s)
    else (a.x, if needsOutside s c a && !blockedBy (getCore s c).accs a then accSend s c a else s)
  | t => (t, if needsOutside s c a && !blockedBy (getCore s c).accs a then accSend s c a else s)

/-- Whether a translation is settled: the access goes to a home, leaves the package, or fails. -/
def settled : XSt → Bool
  | .target _ _ => true
  | .fault _ _ => true
  | _ => false

/-- Gives access `a` of core `c` its translation, and sends its request where it leaves the package. -/
def settleAcc (s : State) (c : Nat) (a : Access) (t : XSt) : State :=
  let s := countIfPage (recordX s c 0 (accNeed a.kind) a.va t) c t
  match launchAcc s c { a with x := t } with
  | (t', s') => modCore s' c fun k => { k with accs := k.accs.map fun b => if b.id = a.id then { a with x := t' } else b }

/-- Whether an access waits for a search, or for one to begin. -/
def unsettled : XSt → Bool
  | .miss | .searching _ _ _ _ => true
  | _ => false

/-- Whether a search is in progress. -/
def isSearching : XSt → Bool
  | .searching _ _ _ _ => true
  | _ => false

/-- Adds an access to the outstanding ones of the sequencer and translates it, unless an earlier access, the fetch among
them, still waits for its search (R252). -/
def startAcc (s : State) (c : Nat) (a : Access) : State :=
  let held := isSearching (getCore s c).fetchX || (getCore s c).accs.any fun b => unsettled b.x
  let s := modCore s c fun k => { k with accs := k.accs ++ [a], nextAcc := k.nextAcc + 1 }
  if held then s
  else match rlbXlate s c a.va (accNeed a.kind) (accHall a.kind) with
    | none => s
    | some (t, s') => settleAcc s' c a t

/-- Requests of core `c` that a test of users holds for, at the Span and at the host port. -/
def usersOut (s : State) (f : RemUser → Bool) : Nat :=
  (s.span.reqs.filter fun r => f r.user).length + (s.host.outs.filter fun o => f o.user).length

/-- Whether a request is a store of core `c` that left its combining buffer, or a write of one of its DMA channels. -/
def storeUser (c : Nat) : RemUser → Bool
  | .store d _ _ => decide (d.val = c)
  | _ => false
def dmaUser (c : Nat) : RemUser → Bool
  | .dma d _ _ => decide (d.val = c)
  | _ => false

/-- The requests that the sequencer of a core has outstanding, of the 16 that it may have: its accesses, a fetch, the flag
read of a WAITF, and the stores that left the combining buffer (R148). -/
def seqOut (s : State) (c : Nat) : Nat :=
  let k := getCore s c
  k.accs.length + (if k.fetchX = .miss then 0 else 1) + (match k.wait with
    | some (.waitf _ _ _ _ _ _ _ _ _) => 1
    | _ => 0) + usersOut s (storeUser c)

/-- The requests that a core has outstanding, of the 1,024 that it tracks (R148). -/
def coreOut (s : State) (c : Nat) : Nat := seqOut s c + usersOut s (dmaUser c)

/-- Ends an access with a fault: the kernel ends with the code (R149, R174). -/
def failAcc (s : State) (c : Nat) (a : Access) (code : Code) : State :=
  modCore s c fun k =>
    kernelFault { k with accs := k.accs.filter fun b => b.id ≠ a.id } code 2 0 a.pc a.va

/-- Ends an access with a value for its register. -/
def doneAcc (s : State) (c : Nat) (a : Access) (v : Option (BitVec 64)) : State :=
  modCore s c fun k =>
    let k1 := { k with accs := k.accs.filter fun b => b.id ≠ a.id }
    match v with
    | none => k1
    | some x => setS k1 a.sd.toNat x

/-- Drops the requests of an access that another event has answered. -/
def dropReqs (s : State) (c id : Nat) : State :=
  let mine : RemUser → Bool := fun u => match u with
    | .seq d i => decide (d.val = c ∧ i = id)
    | _ => false
  let s := withSpan s { s.span with reqs := s.span.reqs.filter fun r => !mine r.user }
  withHost s { s.host with outs := s.host.outs.filter fun o => !mine o.user }

/-- The 64-byte line that a reply to a remote read brings, if it does. (DESIGN CHOICE: log entry 5.) -/
def replyLine (r : Reply) : Option (BitVec 512) :=
  match r with
  | .ok d => some (lineOf (slice d 0 64))
  | _ => none

/-- The failing answer of a reply for an access to another package, if it is one. -/
def replyFail (r : Reply) : Option Code :=
  match r with
  | .fail c => some (spanFail c)
  | _ => none

/-- The bytes of a line that a load or fetch of the core finds through the RLC, with those that wait in its combining buffer over
them; `ext` is the line that a fetch brought (R147, R301). -/
def loadLine (s : State) (c : Nat) (rq : RlcUser) (key : BitVec 64) (nc : Bool) (ext : Option (BitVec 512)) (off n : Nat) :
    Code × List Byte × State :=
  match rlcRead s (towerOf c) rq key (getCore s c).ctx nc ext none with
  | (code, l, s') => (code, slice (combOver (getCore s' c) key l) off n, s')

/-- Performs a load or fetch at its target: the code, the bytes, and the state. -/
def loadAt (s : State) (c : Nat) (rq : RlcUser) (a : Access) (r : Reply) : Code × List Byte × State :=
  match a.x with
  | .target (.loc o) nc => loadLine s c rq (lineKey s o) nc none (o % 64) a.size
  | .target (.remote ga) nc =>
    match (if copyHere s (towerOf c) rq (keyOf ga.toNat) (getCore s c).ctx nc then none else replyFail r) with
    | some code => (code, [], s)
    | none => loadLine s c rq (keyOf ga.toNat) nc (replyLine r) (ga.toNat % 64) a.size
  | .target (.bus _) _ => busAnswer s r 0 a.size
  | _ => (St.xlateMiss, [], s)

/-- Stores bytes of one line through the RLC of the core's tower, or in its combining buffer, whose older bytes of the line go
first (R147, R300, R301). `ext` is the line that a fetch brought. -/
def storeLine (s : State) (c : Nat) (ga : Nat) (nc : Bool) (bs : List Byte) (pc va : BitVec 64) (ext : Option (BitVec 512)) :
    Code × State :=
  let ctx := (getCore s c).ctx
  match streamStep s (seqUser c) (keyOf ga) with
  | (s1, run) =>
    let s2 := if (rlcTryWrite s1 (towerOf c) run (seqUser c) (keyOf ga) ctx nc (ga % 64) bs ext).isSome
      then combFlushOf s1 c (keyOf ga) else s1
    match rlcTryWrite s2 (towerOf c) run (seqUser c) (keyOf ga) ctx nc (ga % 64) bs ext with
    | some r => r
    | none => (St.ok, combStore s2 c (keyOf ga) nc (ga % 64) bs pc va)

/-- Performs a store at its target (R265, R300, R301). -/
def storeAt (s : State) (c : Nat) (a : Access) (r : Reply) : Code × State :=
  let bs := toLe a.size a.data.toNat
  match a.x with
  | .target (.loc o) nc =>
    if homeCheck s false (getCore s c).ctx o ≠ St.ok then (St.ctxDenied, s) else storeLine s c (gaOf s o) nc bs a.pc a.va none
  | .target (.remote ga) nc =>
    match (if storeFetches s c ga.toNat nc a.size then replyFail r else none) with
    | some code => (code, s)
    | none => storeLine s c ga.toNat nc bs a.pc a.va (replyLine r)
  | .target (.bus b) _ =>
    if !outReady s then (St.ctxDenied, s)
    else (St.ok, outSend s (.store (BitVec.toFin (BitVec.ofNat 8 c)) a.pc a.va) (getCore s c).ctx b (some bs) a.size)
  | _ => (St.xlateMiss, s)

/-- Performs an atomic at its target (R137). -/
def atomicAt (s : State) (c : Nat) (a : Access) (r : Reply) : Code × Nat × State :=
  let s := combFlush s c
  match a.x with
  | .target (.loc o) nc => hereAtomic s (towerOf c) (getCore s c).ctx o a.size a.func.toNat a.data.toNat a.cmp.toNat nc
  | _ =>
    match r with
    | .ok d => (St.ok, leNat (slice d 0 a.size), s)
    | .fail code => (spanFail code, 0, s)
    | .home => (St.remoteTimeout, 0, s)

/-- Reads a flag at its target, without allocation in the RLC (R155, R300). -/
def flagAt (s : State) (c : Nat) (a : Access) (r : Reply) : Code × Nat × State :=
  let ctx := (getCore s c).ctx
  match (match a.x with
    | .target (.loc o) nc => hereRead s (towerOf c) false ctx o a.size nc
    | .target (.remote ga) _ =>
      spanAnswer (remoteAsk (rlcBypass s (towerOf c) (keyOf ga.toNat)) 0x01 ga.toNat ctx a.size 0 false []) ga.toNat r 0 a.size
    | .target (.bus b) _ =>
      if !outReady s then (St.ctxDenied, [], s) else busAnswer (outSend s .answered ctx b none a.size) r 0 a.size
    | _ => (St.xlateMiss, [], s)) with
  | (code, d, s') => (code, leNat d, s')

/-- Records an ownership refusal at a home (R258); a refusal at the host port leaves no record. -/
def homeRefusal (s : State) (c : Nat) (a : Access) (code : Code) : State :=
  match a.x with
  | .target (.bus _) _ => s
  | _ => if code = St.ctxDenied then xfault s (getCore s c).ctx code 4 (accNeed a.kind) 0 c a.va else s

/-- The timeout of the package level (Table 1.1). -/
def packageTimeout : Nat := 100000

/-- The home tower of an access to local memory, if it is one. -/
def accHome (s : State) (a : Access) : Option Nat :=
  match a.x with
  | .target (.loc o) _ => some (homeTower s o)
  | _ => none

/-- Whether a request of the same core to the same home that waited in the retry buffer of a retired link goes first on the
new route (R30). -/
def replayFirst (s : State) (c : Nat) (a : Access) : Bool :=
  (List.range 24).any fun l => (getLintel s l).replay.any fun p =>
    decide (p.1 = c ∧ p.2 < a.id) && ((getCore s c).accs.any fun b => decide (b.id = p.2) && decide (accHome s b = accHome s a))

/-- Whether an access to local memory times out at the package level: it has no route, or the command says that no reply
came, and 100 µs have passed (R15, R31). -/
def timedOut (s : State) (c : Nat) (a : Access) (r : Reply) : Bool :=
  match accHome s a with
  | none => false
  | some h => (!routed s (towerOf c) h || decide (r = .fail St.remoteTimeout)) && decide (a.issued + packageTimeout ≤ s.now)

/-- Whether the channel of an access to local memory holds it, with no copy in the core's tower to serve it (R411). -/
def accHeld (s : State) (c : Nat) (a : Access) : Bool :=
  match a.x with
  | .target (.loc o) nc => chanHeld s o && !(decide (a.kind = .load) && copyHere s (towerOf c) (seqUser c) (lineKey s o) (getCore s c).ctx nc)
  | _ => false

/-- Whether an access to local memory is on its way: it has no route, a link of its route holds, or an earlier request is
replayed first, or its channel holds it (R27, R28, R30, R31, R411). -/
def onItsWay (s : State) (c : Nat) (a : Access) : Bool :=
  match accHome s a with
  | none => false
  | some h => !routed s (towerOf c) h || routeHolds s (towerOf c) h || replayFirst s c a || accHeld s c a

/-- Performs an access whose answer, where it needs one, has come: its effect, or the end of the kernel with its code
(R149). -/
def performAcc (s : State) (c : Nat) (a : Access) (r : Reply) : State :=
  match a.kind with
  | .store =>
    match storeAt s c a r with
    | (code, s') => if code = St.ok then doneAcc s' c a none
      else failAcc (homeRefusal s' c a code) c a code
  | .atomic =>
    match atomicAt s c a r with
    | (code, old, s') => if code = St.ok then doneAcc s' c a (some (BitVec.ofNat 64 (old % 2 ^ (8 * a.size))))
      else failAcc (homeRefusal s' c a code) c a code
  | _ =>
    match loadAt s c (seqUser c) a r with
    | (code, bs, s') => if code = St.ok then doneAcc s' c a (some (loadVal a.size a.sx bs))
      else failAcc (homeRefusal s' c a code) c a code

/-- Completes a settled access that no earlier access to the same bytes holds back: its effect, or the end of the
kernel with its code (R147, R149). An access that needs an answer from outside waits for one. -/
def completeAcc (s : State) (c : Nat) (a : Access) (r : Reply) : State :=
  let k := getCore s c
  match a.x with
  | .fault code _ => failAcc s c a code
  | .target _ _ =>
    if blockedBy k.accs a then s
    else if timedOut s c a r then failAcc s c a St.remoteTimeout
    else if onItsWay s c a then s
    else if needsOutside s c a then
      (match r with
        | .home => accAsk s c a
        | r => performAcc (dropReqs (accAsk s c a) c a.id) c a r)
    else performAcc (dropReqs s c a.id) c a r
  | _ => s

/-- A word of instruction memory as the core would fetch it, without any effect: `none` where neither this package's memory
nor the RLC of the core's tower holds it (the LOOP test of R145). (DESIGN CHOICE: log entry 15.) -/
def peekWord (s : State) (c : Nat) (va : BitVec 64) : Option Nat :=
  let k := getCore s c
  if isDirect k then some (leNat (spadRd k.mem.spad (va.toNat % spadSize) 8))
  else
    let x := getCtx s k.ctx
    match (match lbFind k.rlb k.ctx (va.toNat / 4096) with
      | some l => Sum.inl l
      | none => (searchFill s (towerOf c) k.ctx (rtBase x) (rtLog2 x) (xctlEn x) x.mdbase (va.toNat / 4096)).1) with
    | .inr _ => none
    | .inl l =>
      match (resolve s k.ctx l va .fetch true (towerOf c)).1 with
      | .target (.loc o) nc =>
        match rlcRead s (towerOf c) .other (lineKey s o) k.ctx nc none none with
        | (code, bs, _) => if code = St.ok then some (fieldLe bs (o % 64) 8) else none
      | .target (.remote ga) nc =>
        if copyHere s (towerOf c) (seqUser c) (keyOf ga.toNat) k.ctx nc then
          match rlcRead s (towerOf c) (seqUser c) (keyOf ga.toNat) k.ctx nc none none with
          | (code, bs, _) => if code = St.ok then some (fieldLe bs (ga.toNat % 64) 8) else none
        else none
      | _ => none

end Sys2Proof.Machine
end

