-- ==== Sys2Proof/Machine/Report.lean ====
section
/-!
DEFINITION. Reports: context events (R218), RAS events to a context, reports of retirements and errors (R14), unit
records of the persistent store (R394), the guilt of a queue and the start of its reset (R211 to R216), and the retirement
of a core (R18, R105, R234, R236).
-/

namespace Sys2Proof.Machine

/-! ## Context events (Tables 6.26 to 6.29) -/

/-- The 32 bytes of an event record. -/
def eventBytes (s : State) (ty : Nat) (code : Code) (q : Nat) (unit : BitVec 32) (addr : BitVec 64) (entry : Nat) : List Byte :=
  toLe 1 ty ++ [code] ++ toLe 2 q ++ toLe 4 unit.toNat ++ toLe 8 s.plumb.count.toNat ++ toLe 8 addr.toNat ++ toLe 2 entry
    ++ toLe 6 0

/-- Marks OVF of a context's event ring. -/
def eventDropped (s : State) (x : Nat) : State := modCtx s x fun k => { k with cevctl := sb k.cevctl 30 true }

/-- Whether an event ring is full (R218). -/
def eventFull (k : Ctx) : Bool :=
  decide ((bf k.cevptr 31 16 + 65536 - bf k.cevptr 15 0) % 65536 = 2 ^ bf k.cevctl 27 24)

/-- Writes one event record, or drops it (R218): `none` where the record's page is on its way, so that it waits. (DEDUCED: log entry 43.) -/
def eventTry (s : State) (x : Nat) (r : List Byte) : Option State :=
  let k := getCtx s x
  if !bt k.cevctl 31 || eventFull k then some (eventDropped s x)
  else
    let a := bf k.cevbase 63 12 * 4096 + 32 * (bf k.cevptr 31 16 % 2 ^ bf k.cevctl 27 24)
    match hubWrite s x 2 (BitVec.ofNat 64 a) .write r .home with
    | ⟨c, _, s1⟩ =>
      if c = St.migratePending then none
      else if c ≠ St.ok then some (eventDropped s1 x)
      else
        let s2 := modCtx s1 x fun k => { k with cevptr := sf k.cevptr 31 16 (bf k.cevptr 31 16 + 1) }
        some (if bt k.cevctl 11 then interrupt s2 (bf k.cevctl 10 0) else s2)

/-- Sends an event record to a context. A record whose page is on its way, or that follows one that waits, is kept. (DEDUCED: log entry 43.) -/
def event (s : State) (x : Nat) (r : List Byte) : State :=
  let wait : State := { s with lateEv := s.lateEv ++ [(x, r)] }
  if s.lateEv.any (fun e => decide (e.1 = x)) then wait
  else match eventTry s x r with
    | some s' => s'
    | none => wait

/-- Sends the event records that waited for a page, in order. (DEDUCED: log entry 43.) -/
def lateEvents (s : State) : State := forEach { s with lateEv := [] } s.lateEv fun s e => event s e.1 e.2

/-- A RAS event to a context (TYPE 3). -/
def rasCtx (s : State) (x : Nat) (code : Code) (q : Nat) (unit : BitVec 32) : State :=
  event s x (eventBytes s 3 code q unit 0 0)

/-- A report to the owning contexts and to all four mailboxes (R14). -/
def report (s : State) (xs : List Nat) (code : Code) (kind : Nat) (unit : BitVec 32) (detail : Nat) : State :=
  let s := forEach s xs fun s x => rasCtx s x code 0xFFFF unit
  rasTo s [0, 1, 2, 3] code kind 0xFFFF unit (xs.headD 0xFFFF) detail

/-! ## Unit records (R394 to R397, R419) -/

/-- The code of a unit in the retirement records. -/
def unitCode (cls i : Nat) : Nat := 2048 * cls + i

/-- Starts an update of the persistent store; it completes at STORE_UPDATE_DONE (R395). The copy to be written is
erased as the update begins. -/
def eraseCopy {α : Type} (t : TwoCopy α) : TwoCopy α :=
  match t.a, t.b with
  | none, _ => t
  | _, none => t
  | some (na, _), some (nb, _) => if (na - nb).toInt < 0 then { t with a := none } else { t with b := none }

/-- Begins the first waiting update. -/
def storeBegin (p : StoreSt) : StoreSt :=
  match p.pend with
  | [] => p
  | u :: _ =>
    match u.op with
    | .settings false _ => { p with setA := eraseCopy p.setA }
    | .settings true _ => { p with setB := eraseCopy p.setB }
    | .journal _ => { p with journal := eraseCopy p.journal }
    | .cal _ => { p with cal := eraseCopy p.cal }
    | .units _ => { p with units := eraseCopy p.units }

/-- Adds an update; it begins at once when no other is in progress. -/
def storePush (s : State) (op : StoreOp) (order : Option Nat) : State :=
  let p := s.store
  let p' := { p with pend := p.pend ++ [⟨op, order⟩] }
  withStore s (if p.pend = [] then storeBegin p' else p')

/-- Changes the unit records in force and writes them to the store for Keystone itself. -/
def recUnits (s : State) (f : UnitRecs → UnitRecs) (order : Option Nat) : State :=
  let s := withKey s { s.key with recs := f s.key.recs }
  storePush s (.units s.key.recs) order

/-- Records the retirement of a unit: one more since power-on, and a record in the store. -/
def recRetire (s : State) (u : Nat) (order : Option Nat) : State :=
  let s := withStore s { s.store with sincePwr := tset 0 s.store.sincePwr u (tget 0 s.store.sincePwr u + 1) }
  recUnits s (fun r => { r with retired := r.retired ++ [u] }) order

/-- Retirements of a unit since power-on, and retirements recorded. -/
def retiredSince (s : State) (u : Nat) : Nat := tget 0 s.store.sincePwr u
def retiredRecorded (s : State) (u : Nat) : Nat := (s.key.recs.retired.filter fun v => v = u).length

/-! ## Error histories -/

/-- Adds an error of source `src` at time `now` and drops those older than `span` ns: the history and how many of the
source it holds. (DEDUCED: log entry 50.) -/
def histAdd (h : List (Nat × Nat)) (src now span : Nat) : List (Nat × Nat) × Nat :=
  let h' := (h.filter fun e => decide (now < e.2 + span)) ++ [(src, now)]
  (h', (h'.filter fun e => e.1 = src).length)

/-- Lexicographic order of ranks. (DEDUCED: log entry 50.) -/
def rankLe (a b : Nat × Nat × Nat) : Bool :=
  decide (a.1 < b.1) || (decide (a.1 = b.1) && (decide (a.2.1 < b.2.1) || (decide (a.2.1 = b.2.1) && decide (a.2.2 ≤ b.2.2))))

/-! ## Gangs and the guilt of a queue -/

/-- The gang of a number. -/
def gangOf (s : State) (g : Nat) : Option Gang := s.gangs.find? fun x => x.id = g

/-- Replaces a gang. -/
def setGang (s : State) (x : Gang) : State := { s with gangs := s.gangs.map fun y => if y.id = x.id then x else y }

/-- Frees the image slots of a gang. -/
def freeSlots (s : State) (x : Gang) : State :=
  modCtx s x.ctx fun k => { k with slots := k.slots.filter fun n => ¬ (x.slots.map Prod.snd).contains n }

/-- A core that goes back to the free pool; one that is retired stays out by its flag. -/
def coreFreed (k : CoreSt) : CoreSt :=
  { k with phase := .free, gang := none, stop := false, wait := none, ended := false, fault := none, accs := [], comb := [],
           fetchX := .miss, hold := [], dma := [], ops := [] }

/-- Removes a gang, freeing its image slots and the cores that hold none of its kernels. -/
def dropGang (s : State) (x : Gang) : State :=
  let s := freeSlots s x
  let s := { s with gangs := s.gangs.filter fun y => y.id ≠ x.id }
  forEach s x.cores fun s c => modCore s c.2 coreFreed

/-- Changes one issued packet of a running entry. -/
def modPkt (s : State) (q node off : Nat) (f : PktRun → PktRun) : State :=
  modQueue s q fun k => { k with run := k.run.map fun r => { r with nodes := r.nodes.map fun n =>
    if n.idx = node then { n with pkts := n.pkts.map fun p => if p.off = off then f p else p } else n } }

/-- The node of a running entry, and one of its packets. -/
def nodeOf (s : State) (q node : Nat) : Option NodeRun :=
  (getQueue s q).run.bind fun r => r.nodes.find? fun n => n.idx = node
def pktOf (s : State) (q node off : Nat) : Option PktRun := (nodeOf s q node).bind fun n => n.pkts.find? fun p => p.off = off

/-- Stops a kernel by steps 1 to 5 of R174; SRC 7 marks that nothing is recorded. -/
def stopKernel (k : CoreSt) (code : Code) : CoreSt := kernelFault { k with stop := false } code 7 0 0 0

/-- Whether a kernel of the gang stands on its cores. -/
def gangOnCores (x : Gang) : Bool :=
  match x.st with
  | .running | .saving | .restoring | .stopped => true
  | .waiting | .granted | .prepared | .saved => false

/-- Whether a core holds a kernel. -/
def holdsKernel (k : CoreSt) : Bool := decide (k.phase = .running ∨ k.phase = .saving) && !k.retired

/-- Stops every kernel of a gang (R216 step 3, R234); its cores without a kernel are freed, and a gang that has no
kernel on a core is dropped. -/
def stopGang (s : State) (x : Gang) : State :=
  let held := x.cores.filter fun c => holdsKernel (getCore s c.2)
  if !gangOnCores x || decide (held = []) then dropGang s x
  else
    let s := forEach s (x.cores.filter fun c => !holdsKernel (getCore s c.2)) fun s c => modCore s c.2 coreFreed
    let s := setGang s { x with st := .stopped, cores := held }
    forEach s held fun s c => modCore s c.2 fun k => stopKernel k St.queueGuilty

/-- A packet abandoned by a queue reset (R216 step 2). -/
def abandon (s : State) (p : PktRun) : PktRun :=
  match p.st with
  | .waiting | .pooled | .retrying => { p with st := .done }
  | .dispatched g => if ((gangOf s g).map gangOnCores).getD false then p else { p with st := .done }
  | .issued => if p.op = 1 ∨ p.op = 4 ∨ p.op = 5 ∨ p.op = 6 ∨ p.op = 7 then { p with st := .done } else p
  | .performed _ | .done => p

/-- The sizes of the steps of a pool once only the requests that `keep` holds of remain. -/
def stepsKept (keep : PoolReq → Bool) : List (Nat × Bool) → List PoolReq → List (Nat × Bool)
  | [], _ => []
  | (n, b) :: t, l => (((l.take n).filter keep).length, b) :: stepsKept keep t (l.drop n)

/-- Drops the requests of a queue from a pool, those of steps still to run among them (R216, R245). -/
def dropPoolReqs (s : State) (p q : Nat) : State :=
  let k := getPool s p
  let keep : PoolReq → Bool := fun r => decide (r.queue ≠ q)
  setPool s p { k with reqs := k.reqs.filter keep, steps := stepsKept keep k.steps k.reqs }

/-- Marks a queue GUILTY and begins its reset, steps 1 to 3 (R213, R216); a queue that already resets keeps its first
fault. (DEDUCED: log entry 42.) -/
def guilty (s : State) (q : Nat) (code : Code) (f : Option EntryFault) (checkFailed : Bool) : State :=
  let k := getQueue s q
  if k.resetting then s
  else
    let s := setQueue s q { k with
      guilty := true, resetting := true, cause := code,
      run := k.run.map fun r => { r with fault := f, checkFailed := checkFailed } }
    let s := forEach s (s.pools.map Prod.fst) fun s p => dropPoolReqs s p q
    let s := forEach s (s.gangs.filter fun x => x.queue = q) stopGang
    modQueue s q fun k => { k with run := k.run.map fun r => { r with nodes := r.nodes.map fun n =>
      { n with pkts := n.pkts.map (abandon s) } } }

/-- A fault of the running entry at a packet (R211). -/
def entryFault (s : State) (q : Nat) (code : Code) (node off : Nat) : State :=
  guilty s q code (some ⟨code, BitVec.ofNat 16 node, BitVec.ofNat 32 off, 0, []⟩) false

/-- Marks every queue of a context GUILTY with CAUSE QUEUE_GUILTY (R26, R286, R304). A queue with no entry running is
reset as well. -/
def guiltyCtx (s : State) (x : Nat) : State :=
  forEach s ((s.queues.filter fun q => decide (bf q.2.ctl 23 12 = x)).map Prod.fst) fun s q =>
    guilty s q St.queueGuilty (some ⟨St.queueGuilty, 0xFFFF, 0xFFFFFFFF, 0, []⟩) false

/-! ## Retirement of a core -/

/-- Cores in service (R224). -/
def coresInService (s : State) : Nat := ((List.range 256).filter fun c => !(getCore s c).retired).length

/-- The node of a gang's DISPATCH. -/
def gangNode (s : State) (x : Gang) : Option NodeRun := nodeOf s x.queue x.node

/-- RESTART_MAX of SCH_CFG. -/
def restartMax (s : State) : Nat := bf s.schCfg 9 8

/-- Whether a node may run again after a loss (R235). -/
def mayRestart (s : State) (n : NodeRun) : Bool := n.restart && decide (n.redisp < restartMax s)

/-- DISPATCHes that have not started and ask for more cores than are in service give CMD_RESERVED (R224), and saved gangs
that can never be restored make their entries faulty (R237); of one cycle, the lower node index comes first (R211). -/
def tooLarge (s : State) : State :=
  let big := (s.gangs.filter fun x => decide (coresInService s < x.want - x.ended.length)).insertionSort fun a b => a.node ≤ b.node
  forEach s big fun s x =>
    match x.st with
    | .waiting | .granted | .prepared => entryFault s x.queue St.cmdReserved x.node x.off
    | .saved => guilty s x.queue St.queueGuilty (some ⟨St.queueGuilty, BitVec.ofNat 16 x.node, BitVec.ofNat 32 x.off, 0, []⟩) false
    | _ => s

/-- Retires a core: it leaves service, the retirement is recorded and reported with the code of R236. What becomes of
its kernel is CORE_FAILURE. -/
def retireCore (s : State) (c : Nat) (withField : Bool) : State :=
  let k := getCore s c
  if k.retired then s
  else
    let x := k.gang.bind (gangOf s)
    let code : Code := match x with
      | none => St.ok
      | some x => if gangOnCores x && !(((gangNode s x).map (mayRestart s)).getD true) then St.queueGuilty else St.ok
    let owner := match x with
      | some x => if gangOnCores x then [x.ctx] else []
      | none => []
    let u := unitCode 2 c
    let again := decide (1 ≤ retiredSince s u)
    let s := modCore s c fun k =>
      { k with retired := true, retireDue := false, retiredAgain := again, mortarGone := k.mortarGone || withField,
               hold := [], ops := [], dma := [], accs := [], comb := [], wait := none, rlb := [],
               cr := { k.cr with coreDirect := sb k.cr.coreDirect 29 false, chsDirect := sb k.cr.chsDirect 30 false } }
    let s := recRetire s u none
    let s := report s owner code 1 (unitId s 2 c) 0
    tooLarge s

/-- Whether a core runs no engine operation. -/
def enginesIdle (k : CoreSt) : Bool := (List.range 5).all fun u => decide (tget [] k.ops u = [])

/-- Retires a core whose error became permanent once its running operations have completed (R105, R161). -/
def retireIfDue (s : State) (c : Nat) : State :=
  if (getCore s c).retireDue && enginesIdle (getCore s c) then retireCore s c false else s

/-! ## The end of a node -/

/-- Whether every issued packet of a node has completed. -/
def pktsDone (n : NodeRun) : Bool := n.pkts.all fun p => decide (p.st = .done)

/-- Puts a node at its first packet with its wait slots cleared. -/
def nodeFresh (n : NodeRun) : NodeRun := { n with st := .running, next := 0, named := 0, posted := 0, pkts := [], headAt := none }

/-- The end of a node whose packets have all completed (R194), or its new run after a loss (R235). Both are node
boundaries (R242). (DESIGN CHOICE: log entry 73.) -/
def nodeSettle (s : State) (q node : Nat) : State :=
  let put : NodeRun → State := fun n' => { modQueue s q fun k => { k with run := k.run.map fun r =>
    { r with nodes := r.nodes.map fun n => if n.idx = node then n' else n } } with epochDue := true }
  match nodeOf s q node with
  | none => s
  | some n =>
    if !pktsDone n then s
    else match n.st with
      | .running => if n.len ≤ n.next ∧ (getQueue s q).resetting = false then put { n with st := .done } else s
      | .restarting => put { nodeFresh n with redisp := n.redisp + 1 }
      | .pending | .done => s

/-! ## Acquire and release flush (R302, R303, R358) -/

/-- The acquire of a tower: its RLC drops every clean line homed in another package and its VICTIM units every line. -/
def acquire (s : State) (t : Nat) : State :=
  modTower s t fun w => { w with rlc := w.rlc.filter fun l => l.dirty || keyHere s l.line, victim := [] }

/-- One pass of a release flush: every dirty RLC line of the context is written back in every tower and stays clean. -/
def flushPass (s : State) (x : Nat) : State :=
  forEach s (List.range 8) fun s t =>
    let ls := (getTower s t).rlc.filter fun l => l.dirty && decide (l.ctx = x)
    let s := forEach s ls writeBack
    modTower s t fun w => { w with rlc := w.rlc.map fun l => if l.ctx = x then { l with dirty := false } else l }

/-- Whether a line of the context that a flush wrote back to another package has not been performed at its home. -/
def backsOut (s : State) (x : Nat) : Bool := decide (usersOut s (fun u => decide (u = .wback x)) ≠ 0)

end Sys2Proof.Machine
end

