-- ==== Sys2Proof/Machine/AshlarOps.lean ====
section
/-!
DEFINITION. The commands of the Ashlar engines: issue, acceptance, first array cycle, drain and completion of an
AMM (R80 to R84, R96 to R100).
-/

namespace Sys2Proof.Machine

/-- AMM: two words, into the hold slot of engine ENG (R80, R150). -/
def execAmm (c : Core) (w : Bits) (w1 : BitVec 64) (s : State) : Res :=
  let k := getCore s c.val
  let w0 := word0 0x40 w
  .next (if canIssue k && amLegal w0 w1 && (holdOf k (amEng w0)).isSome then s
    else issueCore s c.val (amLegal w0 w1) (amSregs w1) fun k =>
      advance (dispatchEngine k (amEng w0) .amm w0 w1
        ((amAregs w1).map (areg k) ++ (amSregs w1).map (sreg k))) 2)

/-- The chain descriptor that a held or direct CHN names. -/
def chainDesc (k : CoreSt) (o : HeldOp) : List Byte := spadRd k.mem.spad (off16 (opVal o 0)) 160

/-- The accumulator tiles that a held operation names. -/
def heldTiles (k : CoreSt) (o : HeldOp) : List Nat :=
  match o.kind with
  | .amm => amTiles o.w0
  | .cfold => cfTiles o.w0
  | .chn => chainTiles (chainDesc k o)
  | .ctbl => []

/-- Whether every earlier-dispatched held operation leaves the tiles of `o` alone (R151). -/
def heldAllows (k : CoreSt) (o : HeldOp) : Bool :=
  (List.range 5).all fun u => match holdOf k u with
    | none => true
    | some h => !(dispatchedBefore h o && meets (heldTiles k h) (heldTiles k o))

/-- AMM_ACCEPT: the engine takes the held operation, reads its descriptors, makes its claims and checks it; a
SLICED64 operation scans its block and writes its exponent record (R81, R83, R96 to R98). (DEDUCED: log entry 21.) -/
def execAmmAccept (c : Core) (e : Fin 4) (s : State) : Res :=
  let k := getCore s c.val
  match holdOf k e.val with
  | none => .next s
  | some o =>
    if !(mayAccept k && !entryBusy k e.val && heldAllows k o) || (getGroup s (c.val / 4)).blocked then .next s
    else
      let m := k.mem.spad
      let a := rdOfd m (opVal o 4).toNat
      let b := rdOfd m (opVal o 5).toNat
      let k1 := setHold k e.val none
      if !amChecks o.w0 a b then .next (setCore s c.val (finishOp k1 e.val o St.fmtReserved))
      else
        let skips := if amSkip o.w0 then (List.range (amMT o.w0 * amNT o.w0)).map fun x =>
          BitVec.ofNat 64 (leNat (spadRd m (amSkoff o + 8 * x) 8)) else []
        let r : RunOp := ⟨o, .checked, amTiles o.w0, [], St.ok, [], [a, b], [lutBytes m a, lutBytes m b], skips, [], k.genEpoch, m⟩
        if amMode o.w0 = 2 then
          match slicedScan (amCtx r) k1 with
          | (k2, bad) =>
            .next (setCore s c.val (setOps k2 e.val (opsOf k2 e.val ++ [{ r with code := if bad then St.spreadExceeded else St.ok, seen := k2.mem.spad }])))
        else .next (setCore s c.val (setOps k1 e.val (opsOf k1 e.val ++ [r])))

/-- The operation of a unit that waits for its first cycle, and its position. -/
def waitingOp (k : CoreSt) (u : Nat) : Option (Nat × RunOp) :=
  let i := (opsOf k u).findIdx fun r => decide (r.stage = .checked)
  ((opsOf k u)[i]?).map fun r => (i, r)

/-- AMM_FIRST_ARRAY_CYCLE: once every named tile is free of earlier claims, the array forms every tile. With
OUT = 1 the tiles wait for the drain in processing order (R78, R85, R100). -/
def execAmmFirstArrayCycle (c : Core) (e : Fin 4) (s : State) : Res :=
  let k := getCore s c.val
  match waitingOp k e.val with
  | none => .next s
  | some (i, r) =>
    if !tilesFree k r.op r.tiles then .next s
    else
      match racedView s r.seen k.mem.spad with
      | (m, s1) =>
        let k1 := amRun (amCtx r) m k
        let r1 := if amOut r.op.w0 then { r with stage := OpStage.running, drains := List.range (amOrder r.op.w0).length }
          else { r with stage := OpStage.finished }
        .next (setCore s1 c.val (setOps k1 e.val ((opsOf k1 e.val).set i r1)))

/-- AMM_TILE_DRAIN: the next tile of the earliest operation that drains goes to the scratchpad, and its claim ends
(R89, R100). -/
def execAmmTileDrain (c : Core) (e : Fin 4) (s : State) : Res :=
  let k := getCore s c.val
  let i := (opsOf k e.val).findIdx fun r => decide (r.stage = .running)
  match (opsOf k e.val)[i]? with
  | none => .next s
  | some r =>
    match r.drains with
    | [] => .next s
    | d :: ds =>
      match (amOrder r.op.w0)[d]? with
      | none => .next s
      | some p =>
        let k1 := withEpoch k r.epoch fun k => amDrain (amCtx r) k p
        let q := amTileNo r.op.w0 p
        let r1 := { r with drains := ds, tiles := r.tiles.filter fun t => t ≠ q,
                           stage := if ds = [] then OpStage.finished else OpStage.running }
        .next (setCore s c.val (setOps k1 e.val ((opsOf k1 e.val).set i r1)))

/-- AMM_COMPLETE: the oldest operation whose last write has landed reports its code and releases its claims; one with OUT = 0
does not wait for an earlier one that drains (R78, R99, Table 3.11). A core whose error became permanent retires once its
operations have completed (R105). -/
def execAmmComplete (c : Core) (e : Fin 4) (s : State) : Res :=
  let k := getCore s c.val
  let i := (opsOf k e.val).findIdx fun r => decide (r.stage = .finished)
  match (opsOf k e.val)[i]? with
  | none => .next s
  | some r => .next (retireIfDue (setCore s c.val (finishOp (setOps k e.val ((opsOf k e.val).eraseIdx i)) e.val r.op r.code)) c.val)

end Sys2Proof.Machine
end

