-- ==== Sys2Proof/Machine/ChiselOps.lean ====
section
/-!
DEFINITION. The commands of the Chisel engine: CHN, CFOLD, CTBL, their acceptance, first beat or row and completion,
and the direct stream operation of Keystone (R109 to R132, R437).
-/

namespace Sys2Proof.Machine

/-- Issues a Chisel instruction into the hold slot of unit 4 (R150). -/
def issueChisel (c : Core) (s : State) (legal : Bool) (regs : List Nat) (kind : EngKind) (w0 : BitVec 64)
    (vals : CoreSt → List (BitVec 64)) : State :=
  let k := getCore s c.val
  if canIssue k && legal && (holdOf k 4).isSome then s
  else issueCore s c.val legal regs fun k => advance (dispatchEngine k 4 kind w0 0 (vals k)) 1

/-- CHN (R109): the values are the descriptor offset and START. -/
def execChn (c : Core) (w : Bits) (s : State) : Res :=
  .next (issueChisel c s (decide (bf w 46 0 = 0)) [bf w 51 47] .chn (word0 0x48 w)
    fun k => [areg k (bf w 54 52), sreg k (bf w 51 47)])

/-- CFOLD (R129): the values are the record offset, the output offset and the pitch. -/
def execCfold (c : Core) (w : Bits) (s : State) : Res :=
  .next (issueChisel c s (decide (bf w 25 0 = 0)) [bf w 42 38] .cfold (word0 0x49 w)
    fun k => [areg k (bf w 48 46), areg k (bf w 45 43), sreg k (bf w 42 38)])

/-- CTBL (R119): the value is the image offset. -/
def execCtbl (c : Core) (w : Bits) (s : State) : Res :=
  .next (issueChisel c s (decide (bf w 46 0 = 0 ∧ bf w 53 50 ≤ 10)) [] .ctbl (word0 0x4A w)
    fun k => [areg k (bf w 49 47)])

/-- The active function tables of a core, slots 0 to 3. -/
def activeTables (k : CoreSt) : List (Option FTable) := (List.range 4).map fun n => tget none k.mem.tables n

/-- Accepts a chain operation: its descriptor, OFDs and tables are read and checked; one that starts at or above
LEN ends at once (R110, R111, R119, R124). -/
def acceptChn (k : CoreSt) (o : HeldOp) (stream : Bool) : CoreSt :=
  let d := chainDesc k o
  let ofds := (List.range 6).map fun i =>
    if hSlot d i && stOfdEn (strm d i) then rdOfd k.mem.spad (stOfdOff (strm d i)) else 0
  let ts := activeTables k
  if !chnChecks stream d ofds ts then finishOp k 4 o St.fmtReserved
  else if hLen d ≤ startAt d ofds ((opVal o 1).toNat % 2 ^ 20) then finishOp k 4 o St.ok
  else setOps k 4 (opsOf k 4 ++ [⟨o, .checked, chainTiles d, [], St.ok, d, ofds, [], [], ts, k.genEpoch, k.mem.spad⟩])

/-- Accepts a CFOLD: RM must be RNE or RTZ (R129). -/
def acceptCfold (k : CoreSt) (o : HeldOp) : CoreSt :=
  if cfCvt o.w0 % 4 ≤ 1 then setOps k 4 (opsOf k 4 ++ [⟨o, .checked, cfTiles o.w0, [], St.ok, [], [], [], [], [], k.genEpoch, k.mem.spad⟩])
  else finishOp k 4 o St.fmtReserved

/-- CHISEL_ACCEPT: the hold slot releases its operation once the previous one has passed its entry end
(R111, R132, R151). -/
def execChiselAccept (c : Core) (s : State) : Res :=
  let k := getCore s c.val
  match holdOf k 4 with
  | none => .next s
  | some o =>
    if !(mayAccept k && !entryBusy k 4 && heldAllows k o) || (getGroup s (c.val / 4)).blocked then .next s
    else
      let k1 := setHold k 4 none
      .next (setCore s c.val (match o.kind with
        | .chn => acceptChn k1 o (bt o.w0 55)
        | .cfold => acceptCfold k1 o
        | _ => setOps k1 4 (opsOf k1 4 ++ [⟨o, .running, [], [], St.ok, [], [], [], [], [], k.genEpoch, k.mem.spad⟩])))

/-- The operations of a list behind position `i` that see what the one at `i` wrote: those under SER, and CFOLD (R437). -/
def seeWrites (old new : List Host.Cell) (i : Nat) (l : List RunOp) : List RunOp :=
  l.mapIdx fun j q => if i < j ∧ (q.op.kind = .cfold ∨ (q.op.kind = .chn ∧ hSer q.desc = true)) then { q with seen := seeChange old new q.seen }
    else q

/-- CHN_FIRST_BEAT: with its tiles free, no earlier CTBL still reading its image, and under SER every earlier Chisel operation
complete, the operation enters and its beats run (R116, R125, R132, R437). -/
def execChnFirstBeat (c : Core) (s : State) : Res :=
  let k := getCore s c.val
  match waitingOp k 4 with
  | none => .next s
  | some (i, r) =>
    if !(decide (r.op.kind = .chn) && tilesFree k r.op r.tiles && (!hSer r.desc || decide (i = 0))
        && ((opsOf k 4).take i).all fun q => decide (q.op.kind ≠ .ctbl)) then .next s
    else
      match racedView s r.seen k.mem.spad with
      | (m, s1) =>
        .next (setCore s1 c.val (withEpoch k r.epoch fun k => match chnRun r m k with
          | (k1, code) => setOps k1 4 (seeWrites k.mem.spad k1.mem.spad i
              ((opsOf k1 4).set i { r with stage := OpStage.finished, code := code }))))

/-- Completes the oldest operation of unit 4 of one kind, once it has finished. -/
def completeChisel (c : Core) (s : State) (kind : EngKind) : State :=
  let k := getCore s c.val
  let i := (opsOf k 4).findIdx fun r => decide (r.op.kind = kind)
  match (opsOf k 4)[i]? with
  | none => s
  | some r =>
    if r.stage ≠ .finished then s
    else retireIfDue (setCore s c.val (finishOp (setOps k 4 ((opsOf k 4).eraseIdx i)) 4 r.op r.code)) c.val

/-- CHN_COMPLETE: the last write has landed; the claims end and the code is reported (R132, R134). -/
def execChnComplete (c : Core) (s : State) : Res := .next (completeChisel c s .chn)

/-- CFOLD_FIRST_ROW: after every earlier Chisel operation of the core and every earlier claim (R116, R129, R437). -/
def execCfoldFirstRow (c : Core) (s : State) : Res :=
  let k := getCore s c.val
  match waitingOp k 4 with
  | none => .next s
  | some (i, r) =>
    if !(decide (r.op.kind = .cfold ∧ i = 0) && tilesFree k r.op r.tiles) then .next s
    else
      match racedView s r.seen k.mem.spad with
      | (m, s1) =>
        match cfoldRun r.op m k with
        | (k1, code) => .next (setCore s1 c.val (setOps k1 4 (seeWrites k.mem.spad k1.mem.spad i
            ((opsOf k1 4).set i { r with stage := OpStage.finished, code := code }))))

/-- CFOLD_COMPLETE. -/
def execCfoldComplete (c : Core) (s : State) : Res := .next (completeChisel c s .cfold)

/-- CTBL_COMPLETE: the image stands in the shadow copy; non-zero bytes 28 to 63 report FMT_RESERVED and leave
the slot unchanged (R119). -/
def execCtblComplete (c : Core) (s : State) : Res :=
  let k := getCore s c.val
  let i := (opsOf k 4).findIdx fun r => decide (r.op.kind = .ctbl)
  match (opsOf k 4)[i]? with
  | none => .next s
  | some r =>
    match racedView s r.seen k.mem.spad with
    | (m, s) =>
      let ib := bf r.op.w0 53 50
      let img := spadRd m (off16 (opVal r.op 0)) (64 + 16 * 2 ^ ib)
      let k1 := setOps k 4 ((opsOf k 4).eraseIdx i)
      if !zeros img 28 36 then .next (retireIfDue (setCore s c.val (finishOp k1 4 r.op St.fmtReserved)) c.val)
      else
        let sh : FShadow := ⟨BitVec.ofNat 22 (off16 (opVal r.op 0)), BitVec.ofNat 4 ib, some ⟨BitVec.ofNat 4 ib, img⟩⟩
        let k2 := { k1 with mem := { k1.mem with shadow := tset none k1.mem.shadow (bf r.op.w0 55 54) (some sh) } }
        .next (retireIfDue (setCore s c.val (finishOp k2 4 r.op St.ok)) c.val)

/-- Whether a core holds no context: from the end of its last kernel or save to the first issue of the next
kernel (R180). -/
def holdsNone (k : CoreSt) : Bool :=
  match k.phase with
  | .running | .saving => false
  | .free | .granted | .prepared | .restoring | .testing | .powerClaimed | .returning => true

/-- A write of CHS_DIRECT (R128, Table 4.21): CD_OFF is written; GO starts a direct stream operation while BUSY is 0
and the core holds no context. -/
def chsDirectWrite (k : CoreSt) (v : BitVec 32) : CoreSt :=
  let k1 := { k with cr := { k.cr with chsDirect := sf k.cr.chsDirect 21 0 (bf v 21 0) } }
  if bt v 31 && !bt k.cr.chsDirect 30 && holdsNone k then
    let k2 := { k1 with cr := { k1.cr with chsDirect := sb k1.cr.chsDirect 30 true } }
    acceptChn k2 ⟨.chn, 0, 0, k.dispNo, 0, [BitVec.ofNat 64 (bf v 21 0), 0], true⟩ true
  else k1

/-- CHS_DIRECT_GO: Keystone writes CHS_DIRECT. -/
def execChsDirectGo (c : Core) (v : BitVec 32) (s : State) : Res := .next (modCore s c.val fun k => chsDirectWrite k v)

end Sys2Proof.Machine
end

