-- ==== Sys2Proof/Machine/Control.lean ====
section
/-!
DEFINITION. Branches, jumps and hardware loops (R136, R141, R144, R145). A branch resolves as it issues, and
the reads of the scratchpad on its predicted path (R142) are made then.
-/

namespace Sys2Proof.Machine

/-- Whether the read-ahead of LDS ends behind a word: at what R143 names (STS, FENCE, WAITE, WAITF), and where the path behind it is
not the next word's (branches, jumps, LOOP, END, no opcode). (DESIGN CHOICE: log entry 11.) -/
def endsAhead (op : Nat) : Bool :=
  !definedOpcode op || decide ((0x20 ≤ op ∧ op ≤ 0x28) ∨ op = 0x31 ∨ op = 0x35 ∨ op = 0x60 ∨ op = 0x61 ∨ op = 0x7F)

/-- The LDS instructions of up to `n` words from `a`, with what the scratchpad holds for them now. `as` lists the address
registers that a word before them writes: an LDS at one of these is not read ahead. (DESIGN CHOICE: log entry 11.) -/
def ldsAhead (s : State) (c : Nat) : Nat → BitVec 64 → List Nat → List Prefetched
  | 0, _, _ => []
  | n + 1, a, as =>
    let k := getCore s c
    match peekWord s c a with
    | none => []
    | some v =>
      let op := v / 2 ^ 56 % 256
      let w : Bits := BitVec.ofNat 56 v
      let last := normPc k (if op = 0x40 then a + 8 else a)
      let here := if op = 0x30 ∧ legalM w false = true ∧ mAR w ∉ as then [{ pc := a, word := w, value := ldsNow k w }] else []
      if endsAhead op ∨ (innerLoop k last).isSome then here
      else here ++ ldsAhead s c n (normPc k (last + 8)) (if op = 0x2E then adAD w :: as else as)

/-- The reads ahead on the path from pc: a core may make each of the first four or not (R142). (DESIGN CHOICE: log entry 11.) -/
def readAhead (s : State) (c : Nat) : State :=
  match (ldsAhead s c 16 (getCore s c).regs.pc []).take 4 with
  | [] => s
  | l => match freshBits s 4 with
    | (b, s1) => modCore s1 c fun k => { k with prefetch := (l.zipIdx.filter fun p => b.getLsbD p.2).map (·.1) }

/-- Whether a branch goes where SPEC predicts it, with PF = 1: backward it is predicted taken, forward not taken (R141, R142). -/
def readsAhead (k : CoreSt) (w : Bits) (taken : Bool) : Bool := decide (bf k.cr.cfg 1 0 = 3) && (bt w 31 == taken)

/-- A conditional branch of format B. What it had read ahead on a path that it does not take is discarded (R142). -/
def branchOp (c : Core) (w : Bits) (s : State) (f : BitVec 64 → BitVec 64 → Bool) : Res :=
  let k := getCore s c.val
  let taken := f (sreg k (bSA w)) (sreg k (bSB w))
  let t := issueCore s c.val (legalB w) [bSA w, bSB w] fun k =>
    { (if taken then jump k (k.regs.pc + fOff w) else advance k 1) with prefetch := [] }
  .next (if canIssue k && legalB w && !busyReg k (bSA w) && !busyReg k (bSB w) && readsAhead k w taken then readAhead t c.val else t)

def execBeq (c : Core) (w : Bits) (s : State) : Res := branchOp c w s fun a b => decide (a = b)
def execBne (c : Core) (w : Bits) (s : State) : Res := branchOp c w s fun a b => decide (a ≠ b)
def execBlt (c : Core) (w : Bits) (s : State) : Res := branchOp c w s fun a b => decide (a.toInt < b.toInt)
def execBge (c : Core) (w : Bits) (s : State) : Res := branchOp c w s fun a b => decide (b.toInt ≤ a.toInt)
def execBltu (c : Core) (w : Bits) (s : State) : Res := branchOp c w s fun a b => decide (a.toNat < b.toNat)
def execBgeu (c : Core) (w : Bits) (s : State) : Res := branchOp c w s fun a b => decide (b.toNat ≤ a.toNat)

/-- JAL. -/
def execJal (c : Core) (w : Bits) (s : State) : Res :=
  .next (issueCore s c.val (legalJ w) [fSD w] fun k =>
    jump (setS k (fSD w) (k.regs.pc + 8)) (k.regs.pc + fOff w))

/-- JR: the target is formed before SD is written. -/
def execJr (c : Core) (w : Bits) (s : State) : Res :=
  .next (issueCore s c.val (legalI w) [fSD w, fSA w] fun k =>
    jump (setS k (fSD w) (k.regs.pc + 8)) (alignTo (sreg k (fSA w) + fImm w) 8))

/-! ## LOOP -/

/-- The count of a LOOP (R144). -/
def loopCount (k : CoreSt) (w : Bits) : BitVec 32 :=
  if lCI w then BitVec.ofNat 32 (lCimm w) else (sreg k (lCS w)).setWidth 32

/-- The address of the last body word of a LOOP at pc. (DEDUCED: log entry 16.) -/
def loopLast (k : CoreSt) (w : Bits) : BitVec 64 := normPc k (k.regs.pc + BitVec.ofNat 64 (8 * lBlen w))

/-- Whether the body ends at or before the last word of every other active loop that holds pc (R145). -/
def loopNests (k : CoreSt) (w : Bits) : Bool :=
  (List.range 4).all fun i =>
    decide (i = lLC w) || !(lreg k i).active || !inBody k (lreg k i) k.regs.pc
      || decide (addrDist k (loopLast k w) (lreg k i).start ≤ addrDist k (lreg k i).last (lreg k i).start)

/-- Starts a loop, or moves past its body where the count is 0 (R144). An old loop on the counter is abandoned
(R145). (DEDUCED: log entry 16.) -/
def loopStart (k : CoreSt) (w : Bits) : CoreSt :=
  let l := lreg k (lLC w)
  let n := loopCount k w
  if n = 0 then endBody 4 (setL k (lLC w) { l with active := false }) (loopLast k w)
  else
    setPc (setL k (lLC w) ⟨true, 0, n, normPc k (k.regs.pc + 8), loopLast k w⟩) (normPc k (k.regs.pc + 8))

/-- Whether the word at the body's last address holds the AMM opcode in its top byte; a word that this package's
memory does not give is free (log entry 3), and the test then takes a free value. (DESIGN CHOICE: log entry 15.) -/
def loopEndsOnAmm (s : State) (c : Nat) (w : Bits) : Bool × State :=
  let a := loopLast (getCore s c) w
  match peekWord s c a with
  | some v => (decide (v / 2 ^ 56 % 256 = 0x40), s)
  | none => match freshBits s 8 with
    | (b, s') => (decide (b = 0x40), s')

/-- LOOP (R144, R145). (DESIGN CHOICE: log entry 15.) -/
def execLoop (c : Core) (w : Bits) (s : State) : Res :=
  let k := getCore s c.val
  let regs := if lCI w then [] else [lCS w]
  if canIssue k && legalL w && loopNests k w && !regs.any (busyReg k) then
    match loopEndsOnAmm s c.val w with
    | (amm, s1) => .next (setCore s1 c.val (if amm then illegalOp k else loopStart k w))
  else .next (issueCore s c.val (legalL w && loopNests k w) regs fun k => k)

end Sys2Proof.Machine
end

