-- ==== Sys2Proof/Machine/CoreErr.lean ====
section
/-!
DEFINITION. Memory errors inside a core (R105, R161) in the Ashlar engines, the Chisel engine and the scratchpad.
-/

namespace Sys2Proof.Machine

/-- Corrected errors that make an error permanent within 1 s. -/
def ceLimit : Nat := 16

/-- An error record after a corrected error: CE_COUNT saturates, and the location field [hi:lo] takes `loc`. -/
def ceRecord (e : BitVec 32) (hi lo loc : Nat) : BitVec 32 :=
  sf (sf e 15 0 (satInc (BitVec.ofNat 16 (bf e 15 0))).toNat) hi lo loc

/-- Counts a corrected error of source `src`; the sixteenth within 1 s makes the core due for retirement once its running
operations complete. (DEDUCED: log entry 50.) -/
def countCe (s : State) (c src : Nat) : State :=
  let k := getCore s c
  match histAdd k.errs src s.now 1000000000 with
  | (h, n) => retireIfDue (setCore s c { k with errs := h, retireDue := k.retireDue || decide (ceLimit ≤ n) }) c

/-- ASHLAR_SINGLE_BIT_ERROR in engine `e` at location `loc` (Table 3.13). -/
def execAshlarSingleBitError (c : Core) (e : Fin 4) (loc : Fin 10) (s : State) : Res :=
  .next (countCe (modCore s c.val fun k =>
    { k with cr := { k.cr with ashErr := tset 0 k.cr.ashErr e.val (ceRecord (tget 0 k.cr.ashErr e.val) 27 24 loc.val) } }) c.val e.val)

/-- ASHLAR_DOUBLE_BIT_ERROR: the core is retired at once. -/
def execAshlarDoubleBitError (c : Core) (e : Fin 4) (s : State) : Res :=
  .next (retireCore (modCore s c.val fun k =>
    { k with cr := { k.cr with ashErr := tset 0 k.cr.ashErr e.val (sb (tget 0 k.cr.ashErr e.val) 31 true) } }) c.val false)

/-- CHISEL_ECC_ERROR (Table 4.28). -/
def execChiselEccError (c : Core) (double : Bool) (loc : Fin 3) (s : State) : Res :=
  .next (if double then retireCore (modCore s c.val fun k => { k with cr := { k.cr with chsErr := sb k.cr.chsErr 31 true } }) c.val false
    else countCe (modCore s c.val fun k => { k with cr := { k.cr with chsErr := ceRecord k.cr.chsErr 27 24 loc.val } }) c.val 4)

/-- SPAD_ECC_ERROR in a bank (Table 5.15). -/
def execSpadEccError (c : Core) (double : Bool) (bank : Fin 64) (s : State) : Res :=
  .next (if double then retireCore (modCore s c.val fun k => { k with cr := { k.cr with spadErr := sb k.cr.spadErr 31 true } }) c.val false
    else countCe (modCore s c.val fun k => { k with cr := { k.cr with spadErr := ceRecord k.cr.spadErr 21 16 bank.val } }) c.val (8 + bank.val))

end Sys2Proof.Machine
end

