-- ==== Sys2Proof/Machine/CoreRegs.lean ====
section
/-!
DEFINITION. The core register block (Table 5.10): RDCR and WRCR, COMMIT (R169), ECODE CLR (R170) and VCLR (R180).
-/

namespace Sys2Proof.Machine

/-! ## Kernel start state (R171) -/

/-- The state in which a kernel or a direct kernel starts, but for its registers and pc: scratchpad, accumulator file
and the per-core error records stay. -/
def startState (k : CoreSt) : CoreSt :=
  { k with
    regs := {},
    mem := { k.mem with vreg := [], genSeed := 0, gens := [], tables := [], shadow := [] },
    cr := { k.cr with
      cfg := 0x3, cfgShadow := 0x3, seed := 0, seedShadow := 0, commitPend := false, fpstat := 0, waitcyc := 0,
      fault0 := 0, fault1 := 0, fault2 := 0, fault3 := 0, fault4 := 0, chsFault0 := 0, chsFault1 := 0, chsFault2 := 0,
      ecode := [], ucnt := [] },
    dispNo := 0, hold := [], dma := [], accs := [], comb := [], wait := none, prefetch := [], genEpoch := 0, oldGens := [],
    ended := false, fault := none, stop := false }

/-! ## Register writes -/

/-- ECODE with NBAD, FIRST and FSEQ cleared. -/
def ecodeClear (k : CoreSt) (u : Nat) : CoreSt := { k with cr := { k.cr with ecode := tset 0 k.cr.ecode u 0 } }

/-- A write of CORE_DIRECT (R180, R181): ignored while the core holds a context; GO and VCLR are ignored while BUSY. -/
def coreDirectWrite (k : CoreSt) (v : BitVec 32) : CoreSt :=
  if !holdsNone k then k
  else
    let busy := bt k.cr.coreDirect 29
    let k1 := { k with cr := { k.cr with coreDirect := sf k.cr.coreDirect 18 0 (bf v 18 0) } }
    let k2 := if bt v 30 && !busy then { k1 with mem := { k1.mem with vreg := [] } } else k1
    if bt v 31 && !busy then
      let k3 := startState k2
      setPc { k3 with cr := { k3.cr with coreDirect := sb k3.cr.coreDirect 29 true } }
        (BitVec.ofNat 64 (8 * bf v 18 0 % spadSize))
    else k2

/-- Clears the bits of `old` that are 1 in `v`, within `mask` (W1C). -/
def w1c (old v mask : BitVec 32) : BitVec 32 := old &&& ~~~ (v &&& mask)

/-- A 32-bit write of core register `idx` (Table 5.10); an index without an entry is ignored (R138). -/
def crWrite (k : CoreSt) (idx : Nat) (v : BitVec 32) : CoreSt :=
  if idx = 0x001 then { k with cr := { k.cr with cfgShadow := v &&& 0x3 } }
  else if idx = 0x002 then (if bt v 0 then { k with cr := { k.cr with commitPend := true } } else k)
  else if idx = 0x003 then { k with cr := { k.cr with seedShadow := v &&& 0xFFFF } }
  else if idx = 0x004 then { k with cr := { k.cr with fpstat := w1c k.cr.fpstat v 0xFF } }
  else if idx = 0x006 then { k with cr := { k.cr with spadErr := w1c k.cr.spadErr v 0x80000000 } }
  else if 0x010 ≤ idx ∧ idx ≤ 0x013 then
    { k with cr := { k.cr with
        ashErr := tset 0 k.cr.ashErr (idx - 0x010) (w1c (tget 0 k.cr.ashErr (idx - 0x010)) v 0x80000000) } }
  else if idx = 0x014 then { k with cr := { k.cr with chsErr := w1c k.cr.chsErr v 0x80000000 } }
  else if idx = 0x018 then { k with cr := { k.cr with chsFault0 := w1c k.cr.chsFault0 v 0xC0000000 } }
  else if idx = 0x01B then chsDirectWrite k v
  else if idx = 0x01C then coreDirectWrite k v
  else if 0x020 ≤ idx ∧ idx ≤ 0x028 ∧ bt v 31 then ecodeClear k (idx - 0x020)
  else k

/-- Whether a function table is loading, or loaded and awaiting COMMIT (TPEND, Table 5.13). -/
def tablePending (k : CoreSt) : Bool := decide (k.mem.shadow ≠ []) || (opsOf k 4).any fun r => decide (r.op.kind = .ctbl)

/-- A read of core register `idx`; WO fields read 0, a double-buffered register reads its shadow (R169). -/
def crRead (c : Nat) (k : CoreSt) (idx : Nat) : BitVec 32 :=
  if idx = 0x000 then BitVec.ofNat 32 c
  else if idx = 0x001 then k.cr.cfgShadow
  else if idx = 0x002 then (if tablePending k then 2 else 0)
  else if idx = 0x003 then k.cr.seedShadow
  else if idx = 0x004 then k.cr.fpstat
  else if idx = 0x005 then k.cr.waitcyc
  else if idx = 0x006 then k.cr.spadErr
  else if idx = 0x008 then k.cr.fault0
  else if idx = 0x009 then k.cr.fault1
  else if idx = 0x00A then k.cr.fault2
  else if idx = 0x00B then k.cr.fault3
  else if idx = 0x00C then k.cr.fault4
  else if 0x010 ≤ idx ∧ idx ≤ 0x013 then tget 0 k.cr.ashErr (idx - 0x010)
  else if idx = 0x014 then k.cr.chsErr
  else if idx = 0x018 then k.cr.chsFault0
  else if idx = 0x019 then k.cr.chsFault1
  else if idx = 0x01A then k.cr.chsFault2
  else if idx = 0x01B then k.cr.chsDirect
  else if idx = 0x01C then k.cr.coreDirect
  else if 0x020 ≤ idx ∧ idx ≤ 0x028 then tget 0 k.cr.ecode (idx - 0x020)
  else if 0x030 ≤ idx ∧ idx ≤ 0x038 then tget 0 k.cr.ucnt (idx - 0x030)
  else 0

/-! ## The commands -/

/-- RDCR: SA must be 0 (R168). -/
def execRdcr (c : Core) (w : Bits) (s : State) : Res :=
  .next (issueCore s c.val (legalC w && decide (fSA w = 0)) [fSD w] fun k =>
    advance (setS k (fSD w) ((crRead c.val k (cIdx w)).setWidth 64)) 1)

/-- WRCR: SD must be 0 (R168). A write of CORE_DIRECT or CHS_DIRECT acts before pc moves on. -/
def execWrcr (c : Core) (w : Bits) (s : State) : Res :=
  .next (issueCore s c.val (legalC w && decide (fSD w = 0)) [fSA w] fun k =>
    crWrite (advance k 1) (cIdx w) ((sreg k (fSA w)).setWidth 32))

/-- CORE_COMMIT: a write of the register; GO is held until COMMIT_APPLY (R169). -/
def execCoreCommit (c : Core) (v : BitVec 32) (s : State) : Res := .next (modCore s c.val fun k => crWrite k 0x002 v)

/-- Whether a CTBL that has been accepted still loads slot `n`. -/
def slotLoading (k : CoreSt) (n : Nat) : Bool := (opsOf k 4).any fun r => decide (r.op.kind = .ctbl ∧ bf r.op.w0 55 54 = n)

/-- Makes every shadow copy active: CORE_CFG, SR_SEED with fresh generators, and every table whose CTBL has
completed, while a slot that still loads stays pending; operations in progress keep the generators they began with (R49,
R119, R169). -/
def applyCommit (k : CoreSt) : CoreSt :=
  let live := (List.range 5).any fun u => decide (opsOf k u ≠ [])
  let old := k.oldGens.filter fun p => (List.range 5).any fun u => (opsOf k u).any fun r => decide (r.epoch = p.1)
  let tables := (List.range 4).foldl (fun t n => match tget none k.mem.shadow n with
    | none => t
    | some f => if slotLoading k n then t else tset none t n f.loaded) k.mem.tables
  { k with
    oldGens := if live then old ++ [(k.genEpoch, k.mem.genSeed, k.mem.gens)] else [],
    genEpoch := k.genEpoch + 1,
    mem := genSeedAll { k.mem with tables := tables, shadow := k.mem.shadow.filter fun e => slotLoading k e.1 } (BitVec.ofNat 16 (bf k.cr.seedShadow 15 0)),
    cr := { k.cr with cfg := k.cr.cfgShadow, seed := k.cr.seedShadow, commitPend := false } }

/-- COMMIT_APPLY: once every operation dispatched before the COMMIT has been accepted (R169). -/
def execCommitApply (c : Core) (s : State) : Res :=
  let k := getCore s c.val
  if k.cr.commitPend && (List.range 5).all fun u => (holdOf k u).isNone then .next (setCore s c.val (applyCommit k))
  else .next s

/-- ECODE_CLR: a write of 1 to CLR of unit `u` (R170, Table 5.21). -/
def execEcodeClr (c : Core) (u : Fin 9) (s : State) : Res := .next (modCore s c.val fun k => ecodeClear k u.val)

/-- VCLR: a write of 1 to VCLR of CORE_DIRECT with GO = 0 and ENTRY_W kept (R180). -/
def execVclr (c : Core) (s : State) : Res :=
  .next (modCore s c.val fun k => coreDirectWrite k (BitVec.ofNat 32 (2 ^ 30 + bf k.cr.coreDirect 18 0)))

end Sys2Proof.Machine
end

