-- ==== Sys2Proof/Machine/Waits.lean ====
section
/-!
DEFINITION. WAITE, WAITF, WAITP and RDPLUMB (R153 to R157, R33).
-/

namespace Sys2Proof.Machine

/-- WAITE stops issue until the masked units are done; MASK must be non-zero (R153). -/
def execWaite (c : Core) (w : Bits) (s : State) : Res :=
  .next (issueCore s c.val (legalE w) [] fun k =>
    { k with wait := some (.waite (BitVec.ofNat 9 (eMask w)) (BitVec.ofNat 2 (eN w))) })

/-- Whether every masked unit has DISP − DONE at or below N, modulo 2^16 (R153). -/
def unitsDone (k : CoreSt) (mask : BitVec 9) (n : BitVec 2) : Bool :=
  (List.range 9).all fun u =>
    let c := tget 0 k.cr.ucnt u
    !bt mask u || decide ((bf c 31 16 + 65536 - bf c 15 0) % 65536 ≤ n.toNat)

/-- WAITE_COMPLETE: issue resumes after the WAITE. -/
def execWaiteComplete (c : Core) (s : State) : Res :=
  let k := getCore s c.val
  match k.wait with
  | some (.waite mask n) =>
    if unitsDone k mask n && decide (k.fault = none) && !k.stop then .next (setCore s c.val (advance { k with wait := none } 1))
    else .next s
  | _ => .next s

/-- WAITF: the flag access is translated at once where the RLB holds its entry (R155). -/
def execWaitf (c : Core) (w : Bits) (s : State) : Res :=
  let k := getCore s c.val
  let size := if fW64 w then 8 else 4
  let va := alignTo (areg k (mAR w)) size
  let a : Access := { id := k.nextAcc, kind := .flag, va := va, size := size, sd := BitVec.ofNat 5 (fSD w), sx := false, func := 0,
                      data := 0, cmp := 0, pc := k.regs.pc, x := .miss, issued := s.now }
  .next (issueCore s c.val (legalF w) [fSD w, fSV w, fST w] fun k =>
    if isDirect k then kernelFault k St.xlateMiss 2 0 k.regs.pc va
    else
      { k with
        wait := some (.waitf (word0 0x61 w) a false (BitVec.ofNat 5 (fSD w)) (BitVec.ofNat 3 (fCond w)) (fW64 w) (sreg k (fSV w))
          (sreg k (fST w)) (decide (fST w ≠ 0))),
        nextAcc := k.nextAcc + 1 })

/-- The comparison COND of a flag with a value of the same width (R155). -/
def condHolds (cond w : Nat) (flag value : Nat) : Bool :=
  let f := BitVec.ofNat w flag
  let v := BitVec.ofNat w value
  match cond with
  | 0 => decide (f = v)
  | 1 => decide (f ≠ v)
  | 2 => decide (v.toInt ≤ f.toInt)
  | 3 => decide (v.toNat ≤ f.toNat)
  | 4 => decide (f.toInt < v.toInt)
  | 5 => decide (f.toNat < v.toNat)
  | _ => false

/-- Ends a wait with a value for SD. -/
def endWait (k : CoreSt) (sd : BitVec 5) (v : BitVec 64) : CoreSt := advance (setS { k with wait := none } sd.toNat v) 1

/-- The translation of a WAITF's access, as far as it has come. -/
def waitfXlate (s : State) (c : Nat) (a : Access) : Option (XSt × State) :=
  match a.x with
  | .miss => rlbXlate s c a.va .read true
  | t => some (t, s)

/-- The outcome of one read of the flag: 0 when the condition holds, else 1 at a deadline reached, else `again` (R155, R156). -/
def flagRead (s : State) (c : Nat) (a : Access) (code : Code) (flag : Nat) (sd : BitVec 5) (cond : BitVec 3) (w64 : Bool)
    (value dl : BitVec 64) (hasDl : Bool) (again : WaitSt) : State :=
  if code ≠ St.ok then modCore (homeRefusal s c a code) c fun k => kernelFault k code 2 0 a.pc a.va
  else if (getCore s c).fault ≠ none then s
  else if condHolds cond.toNat (if w64 then 64 else 32) flag value.toNat then modCore s c fun k => endWait k sd 0
  else if hasDl && decide (dl.toNat ≤ s.plumb.count.toNat) then modCore s c fun k => endWait k sd 1
  else modCore s c fun k => { k with wait := some again }

/-- WAITF_EVALUATE: the flag is read, after the core's own earlier accesses to its bytes and with the combining
buffer written out (R155, R156, R301). Each read is translated on its own. (DEDUCED: log entry 17.) -/
def execWaitfEvaluate (c : Core) (r : Reply) (s : State) : Res :=
  let k := getCore s c.val
  match k.wait with
  | some (.waitf word a seen sd cond w64 value dl hasDl) =>
    if decide (k.fault ≠ none) || k.stop || blockedBy (k.accs ++ [a]) a then .next s
    else
      match waitfXlate s c.val a with
      | none => .next s
      | some (t, s1) =>
        let s2 := if a.x = .miss then countIfPage (recordX s1 c.val 0 .read a.va t) c.val t else s1
        let a' := { a with x := t }
        match t with
        | .fault code _ => .next (modCore s2 c.val fun k => kernelFault k code 2 0 a.pc a.va)
        | .target _ _ =>
          match flagAt (combFlush s2 c.val) c.val a' r with
          | (code, flag, s3) =>
            .next (flagRead s3 c.val a' code flag sd cond w64 value dl hasDl
              (.waitf word { a with x := .miss } true sd cond w64 value dl hasDl))
        | _ => .next (modCore s2 c.val fun k => { k with wait := some (.waitf word a' seen sd cond w64 value dl hasDl) })
  | _ => .next s

/-- WAITF_DEADLINE: after the first evaluation, the Plumb count at the deadline gives 1 (R156). (DEDUCED: log entry 17.) -/
def execWaitfDeadline (c : Core) (s : State) : Res :=
  let k := getCore s c.val
  match k.wait with
  | some (.waitf _ _ seen sd _ _ _ dl hasDl) =>
    if seen && hasDl && decide (dl.toNat ≤ s.plumb.count.toNat) && decide (k.fault = none) && !k.stop then
      .next (setCore s c.val (endWait k sd 1))
    else .next s
  | _ => .next s

/-- WAITP: SD and SB must be 0 (R157). -/
def execWaitp (c : Core) (w : Bits) (s : State) : Res :=
  .next (issueCore s c.val (legalR w && decide (fSD w = 0 ∧ fSB w = 0)) [fSA w] fun k =>
    { k with wait := some (.waitp (word0 0x62 w) (sreg k (fSA w))) })

/-- PLUMB_WAIT_RELEASE: the sampled count is at or past the target of a WAITP (R33, R157). -/
def execPlumbWaitRelease (c : Core) (s : State) : Res :=
  let k := getCore s c.val
  match k.wait with
  | some (.waitp _ t) =>
    if decide (t.toNat ≤ s.plumb.count.toNat ∧ k.fault = none) && !k.stop then
      .next (setCore s c.val (advance { k with wait := none } 1))
    else .next s
  | _ => .next s

/-- RDPLUMB: SA and SB must be 0 (R157). -/
def execRdplumb (c : Core) (w : Bits) (s : State) : Res :=
  .next (issueCore s c.val (legalR w && decide (fSA w = 0 ∧ fSB w = 0)) [fSD w] fun k =>
    advance (setS k (fSD w) s.plumb.count) 1)

end Sys2Proof.Machine
end

