-- ==== Sys2Proof/Machine/Dma.lean ====
section
/-!
DEFINITION. Core DMA (R162 to R167).
-/

namespace Sys2Proof.Machine

/-! ## The descriptor (Tables 5.7 and 5.8) -/

def dSrc (d : DmaDesc) : Nat := bf d.raw 63 0
def dDst (d : DmaDesc) : Nat := bf d.raw 127 64
def dXlen (d : DmaDesc) : Nat := bf d.raw 159 128 + 1
def dYcnt (d : DmaDesc) : Nat := bf d.raw 175 160 + 1
def dZcnt (d : DmaDesc) : Nat := bf d.raw 191 176 + 1
def dSrcYp (d : DmaDesc) : Int := toInt 32 (bf d.raw 223 192)
def dDstYp (d : DmaDesc) : Int := toInt 32 (bf d.raw 255 224)
def dSrcZp (d : DmaDesc) : Int := toInt 32 (bf d.raw 287 256)
def dDstZp (d : DmaDesc) : Int := toInt 32 (bf d.raw 319 288)
def dSigEn (d : DmaDesc) : Bool := bt d.raw 323
def dTimed (d : DmaDesc) : Bool := bt d.raw 322
def dDstSpad (d : DmaDesc) : Bool := bt d.raw 321
def dSrcSpad (d : DmaDesc) : Bool := bt d.raw 320
def dAt (d : DmaDesc) : Nat := bf d.raw 447 384
def dSig (d : DmaDesc) : BitVec 64 := BitVec.ofNat 64 (bf d.raw 511 448)

/-- The fields keep Tables 5.7 and 5.8 (R163). -/
def descOk (d : DmaDesc) : Bool :=
  decide (bf d.raw 159 152 = 0 ∧ bf d.raw 383 324 = 0 ∧ (dTimed d ∨ dAt d = 0) ∧ bf d.raw 450 448 = 0
    ∧ (dSigEn d ∨ dSig d = 0))

/-- Byte `b` of row `y` of plane `z` from a base (R163). -/
def dmaAddr (base : Nat) (zp yp : Int) (z y b : Nat) : BitVec 64 := BitVec.ofInt 64 ((base : Int) + z * zp + y * yp + b)

/-! ## Channels -/

def chanAt (k : CoreSt) (ch : Nat) : DmaChan := tget {} k.dma ch
def setChan (k : CoreSt) (ch : Nat) (d : DmaChan) : CoreSt := { k with dma := tset {} k.dma ch d }

/-- Whether a channel may act: no fault has ended the kernel, and no save or retirement has stopped it. -/
def dmaRuns (k : CoreSt) : Bool := decide (k.fault = none) && !k.stop && !outOfUse k

/-- DMA: copies the descriptor into the queue of CH; a broken field reports FMT_RESERVED and ends the kernel; a full
queue makes issue wait (R162, R163). (DESIGN CHOICE: log entry 19.) -/
def execDma (c : Core) (w : Bits) (s : State) : Res :=
  let k := getCore s c.val
  if canIssue k && legalD w && decide (128 ≤ (chanAt k (dCH w)).queue.length) then .next s
  else
    .next (issueCore s c.val (legalD w) [] fun k =>
      let off := (areg k (dDAR w)).toNat % spadSize / 64 * 64
      let d : DmaDesc := ⟨BitVec.ofNat 512 (leNat (spadRd k.mem.spad off 64)), k.dispNo, k.regs.pc⟩
      if !descOk d then kernelFault k St.fmtReserved 5 (dCH w) k.regs.pc 0
      else
        let ch := chanAt k (dCH w)
        advance (bumpDisp (setChan k (dCH w) { ch with queue := ch.queue ++ [d] }) (5 + dCH w)) 1)

/-- Starts the head descriptor of a channel at its first byte, over scratchpad `m`. -/
def chanStart (m : List Host.Cell) (d : DmaChan) : DmaChan :=
  { d with phase := .moving, xs := .miss, xw := .miss, code := St.ok, seen := m }

/-- DMA_DESCRIPTOR_START: a TIMED descriptor whose AT lies ahead waits at the head; any other starts (R164, R165). -/
def execDmaDescriptorStart (c : Core) (ch : Fin 4) (s : State) : Res :=
  let k := getCore s c.val
  let d := chanAt k ch.val
  match d.queue with
  | [] => .next s
  | h :: _ =>
    if !(dmaRuns k && decide (d.phase = .idle)) then .next s
    else if dTimed h && decide (s.plumb.count.toNat < dAt h) then .next (setCore s c.val (setChan k ch.val { d with phase := .timed }))
    else .next (setCore s c.val (setChan k ch.val (chanStart k.mem.spad d)))

/-- DMA_TIMED_RELEASE: the sampled Plumb count is at or past AT (R165). -/
def execDmaTimedRelease (c : Core) (ch : Fin 4) (s : State) : Res :=
  let k := getCore s c.val
  let d := chanAt k ch.val
  match d.queue with
  | [] => .next s
  | h :: _ =>
    if dmaRuns k && decide (d.phase = .timed ∧ dAt h ≤ s.plumb.count.toNat) then
      .next (setCore s c.val (setChan k ch.val (chanStart k.mem.spad d)))
    else .next s

/-- Pops the head of a channel with its completion code (R152, R167). -/
def chanFinish (k : CoreSt) (ch : Nat) (code : Code) : CoreSt :=
  let d := chanAt k ch
  match d.queue with
  | [] => k
  | h :: t => completeUnit (setChan k ch { queue := t }) (5 + ch) code h.disp

/-- Requests of a channel whose descriptor has timed out no longer concern it. -/
def forgetDma (s : State) (c ch : Nat) : State :=
  let f : RemUser → RemUser := fun u => match u with
    | .dma d e _ => if d.val = c ∧ e.val = ch then .answered else u
    | _ => u
  let s := withSpan s { s.span with reqs := s.span.reqs.map fun r => { r with user := f r.user } }
  withHost s { s.host with outs := s.host.outs.map fun o => { o with user := f o.user } }

/-- A fault of a channel at virtual address `va`: REMOTE_TIMEOUT completes the descriptor with that code; any other
code ends the kernel (R167, R283). -/
def chanFault (s : State) (c ch : Nat) (code : Code) (va : BitVec 64) : State :=
  modCore (if code = St.remoteTimeout then forgetDma s c ch else s) c fun k =>
    if code = St.remoteTimeout then chanFinish k ch code
    else match (chanAt k ch).queue with
      | [] => k
      | h :: _ => kernelFault k code 5 ch h.pc va

/-! ## Lines -/

/-- The chunk of the head descriptor at the channel's progress: destination, source and length of a line aligned
on the destination (R164). -/
def chunkOf (d : DmaChan) (h : DmaDesc) : BitVec 64 × BitVec 64 × Nat :=
  let dst := dmaAddr (dDst h) (dDstZp h) (dDstYp h) d.plane d.row d.byte
  let src := dmaAddr (dSrc h) (dSrcZp h) (dSrcYp h) d.plane d.row d.byte
  let room := 64 - dst.toNat % 64
  let left := dXlen h - d.byte
  (dst, src, if room ≤ left then room else left)

/-- Whether every byte of the head descriptor has moved. -/
def chanAllMoved (d : DmaChan) (h : DmaDesc) : Bool := decide (dZcnt h ≤ d.plane)

/-- The progress after a chunk of `n` bytes: lines move in increasing plane, row and byte order. (DESIGN CHOICE: log entry 87.) -/
def chanStep (d : DmaChan) (h : DmaDesc) (n : Nat) : DmaChan :=
  if d.byte + n < dXlen h then { d with byte := d.byte + n }
  else if d.row + 1 < dYcnt h then { d with byte := 0, row := d.row + 1 }
  else { d with byte := 0, row := 0, plane := d.plane + 1 }

/-- The virtual addresses of a chunk in the order they are translated: each source line, then the destination. -/
def chunkAddrs (d : DmaChan) (h : DmaDesc) : List (BitVec 64 × Need) :=
  match chunkOf d h with
  | (dst, src, n) =>
    (if dSrcSpad h then [] else (pieces 64 3 src.toNat n).map fun p => (BitVec.ofNat 64 p.1, Need.read))
    ++ (if dDstSpad h then [] else [(dst, Need.write)])

/-- The addresses that a channel translates next: those of its chunk, or its signal word. -/
def chanAddrs (d : DmaChan) : List (BitVec 64 × Need) :=
  match d.queue with
  | [] => []
  | h :: _ =>
    match d.phase with
    | .signalling => [(dSig h, .atomic)]
    | .moving => if chanAllMoved d h then [] else chunkAddrs d h
    | _ => []

/-- The outcome of translating a list of addresses through the RLB: all targets, the first miss, the first fault,
or a page that is on its way, with the address that met it. -/
inductive Xlated where
  | all (l : List (Target × Bool))
  | missed (va : BitVec 64) (need : Need)
  | failed (code : Code) (va : BitVec 64)
  | pending (x : XSt)
  deriving DecidableEq, Repr

/-- Translates addresses in order. -/
def xlateList (c : Nat) : List (BitVec 64 × Need) → State → List (Target × Bool) → Xlated × State
  | [], s, acc => (.all acc, s)
  | (va, need) :: t, s, acc =>
    match rlbXlate s c va need false with
    | none => (.missed va need, s)
    | some (.target tg nc, s') => xlateList c t s' (acc ++ [(tg, nc)])
    | some (.fault code cause, s') => (.failed code va, recordX s' c 1 need va (.fault code cause))
    | some (x, s') => (.pending x, s')

/-- The address of a list that waits first: the first that misses the RLB, or the first whose page is on its way. -/
def firstWait (c : Nat) : List (BitVec 64 × Need) → State → Option (BitVec 64 × Need)
  | [], _ => none
  | (va, need) :: t, s =>
    match rlbXlate s c va need false with
    | some (.target _ _, s') => firstWait c t s'
    | _ => some (va, need)

/-- The address whose search or migration a channel waits for, by which its failure is reported (R174, R258). -/
def chanWaits (s : State) (c ch : Nat) : BitVec 64 × Need := (firstWait c (chanAddrs (chanAt (getCore s c) ch)) s).getD (0, .read)

/-- Translates what a channel needs next, with the result of its search and the outcome of a page it waits for. -/
def chanXlate (s : State) (c ch : Nat) : Xlated × State :=
  let d := chanAt (getCore s c) ch
  let w := chanWaits s c ch
  match d.xs, d.xw with
  | .fault code cause, _ => (.failed code w.1, recordX s c 1 w.2 w.1 (.fault code cause))
  | _, .fault code cause => (.failed code w.1, recordX s c 1 w.2 w.1 (.fault code cause))
  | _, _ =>
    match xlateList c (chanAddrs d) s [] with
    | (.pending x, s') =>
      let s' := if d.xw = x then s' else countIfPage s' c x
      (.pending x, modCore s' c fun k => setChan k ch { chanAt k ch with xw := x })
    | r => r

/-- A DMA channel as an RLC requester. -/
def chanRlc (c : Nat) (ch : Fin 4) : RlcUser := .dma (BitVec.toFin (BitVec.ofNat 8 c)) ch

/-- The line around `n` bytes that another package sent, its other bytes free: the RLC takes whole lines. -/
def lineAround (s : State) (off : Nat) (bs : List Byte) : BitVec 512 × State :=
  match freshBytes s 64 with
  | (l, s1) => (mergeLine (lineOf l) off bs, s1)

/-- The bytes of a line that a channel reads through the RLC; `ext` is the line that a fetch brought (R301). -/
def dmaLine (s : State) (c : Nat) (ch : Fin 4) (key : BitVec 64) (nc : Bool) (ext : Option (BitVec 512)) (off n : Nat) :
    Code × List Byte × State :=
  match rlcRead s (towerOf c) (chanRlc c ch) key (getCore s c).ctx nc ext none with
  | (code, l, s') => (code, slice l off n, s')

/-- Reads one source piece of a chunk, `skip` bytes of the reply having been used; a line of another package that no copy of
the tower serves is read by a READ or a get (Table 10.19). -/
def dmaReadPiece (s : State) (c : Nat) (ch : Fin 4) (tg : Target) (nc : Bool) (n skip : Nat) (r : Reply) : Code × List Byte × State :=
  match tg with
  | .loc o => dmaLine s c ch (lineKey s o) nc none (o % 64) n
  | .remote ga =>
    if copyHere s (towerOf c) (chanRlc c ch) (keyOf ga.toNat) (getCore s c).ctx nc then
      dmaLine s c ch (keyOf ga.toNat) nc none (ga.toNat % 64) n
    else
      match spanAnswer (remoteAsk (rlcBypass s (towerOf c) (keyOf ga.toNat)) 0x01 ga.toNat (getCore s c).ctx n 0 false []) ga.toNat r skip n with
      | (code, bs, s1) =>
        if code ≠ St.ok then (code, [], s1)
        else match lineAround s1 (ga.toNat % 64) bs with
          | (l, s2) => dmaLine s2 c ch (keyOf ga.toNat) nc (some l) (ga.toNat % 64) bs.length
  | .bus b => if !outReady s then (St.ctxDenied, [], s) else busAnswer (outSend s .answered (getCore s c).ctx b none n) r skip n

/-- The fault record of a DMA read that its home denied. -/
def dmaDenied (s : State) (c : Nat) (tg : Target) (code : Code) (va : Nat) : State :=
  match tg with
  | .bus _ => s
  | _ => if code = St.ctxDenied then xfault s (getCore s c).ctx code 4 .read 1 c (BitVec.ofNat 64 va) else s

/-- Reads the source pieces of a chunk. -/
def dmaRead (c : Nat) (ch : Fin 4) (r : Reply) : List ((Nat × Nat) × (Target × Bool)) → Nat → State → List Byte → Code × BitVec 64 × List Byte × State
  | [], _, s, acc => (St.ok, 0, acc, s)
  | p :: t, skip, s, acc =>
    match dmaReadPiece s c ch p.2.1 p.2.2 p.1.2 skip r with
    | (code, bs, s') =>
      if code ≠ St.ok then (code, BitVec.ofNat 64 p.1.1, [], dmaDenied s' c p.2.1 code p.1.1)
      else dmaRead c ch r t (skip + p.1.2) s' (acc ++ bs)

/-- Writes bytes of one line through the RLC of the core's tower, or past it to their home. -/
def dmaStore (s : State) (c : Nat) (ch : Fin 4) (va : BitVec 64) (ga : Nat) (nc : Bool) (bs : List Byte) : Code × State :=
  let ctx := (getCore s c).ctx
  match streamStep s (chanRlc c ch) (keyOf ga) with
  | (s1, run) =>
    match rlcTryWrite s1 (towerOf c) run (chanRlc c ch) (keyOf ga) ctx nc (ga % 64) bs none with
    | some (code, s2) => (code, s2)
    | none => homeWriteFrom s1 (towerOf c) (.dma (BitVec.toFin (BitVec.ofNat 8 c)) ch va) (keyOf ga) ctx nc (ga % 64) bs

/-- Writes a chunk at its destination. -/
def dmaWrite (s : State) (c : Nat) (ch : Fin 4) (va : BitVec 64) (tg : Target) (nc : Bool) (bs : List Byte) : Code × State :=
  let ctx := (getCore s c).ctx
  match tg with
  | .loc o =>
    let code := homeCheck s false ctx o
    if code ≠ St.ok then (code, xfault s ctx code 4 .write 1 c va) else dmaStore s c ch va (gaOf s o) nc bs
  | .remote ga => dmaStore s c ch va ga.toNat nc bs
  | .bus b =>
    if !outReady s then (St.ctxDenied, s)
    else (St.ok, outSend s (.dma (BitVec.toFin (BitVec.ofNat 8 c)) ch va) ctx b (some bs) bs.length)

/-- Reads a chunk from its source: the scratchpad, or the pieces at the targets `ts`. -/
def chunkRead (s : State) (c : Nat) (ch : Fin 4) (h : DmaDesc) (ts : List (Target × Bool)) (src : BitVec 64) (n : Nat) (r : Reply) :
    Code × BitVec 64 × List Byte × State :=
  let k := getCore s c
  if dSrcSpad h then
    match racedView s (chanAt k ch.val).seen k.mem.spad with
    | (m, s1) => (St.ok, 0, spadRd m (src.toNat % spadSize) n, s1)
  else dmaRead c ch r ((pieces 64 3 src.toNat n).zip ts) 0 s []

/-- Writes a chunk at its destination: the scratchpad, or the last of the targets `ts`. -/
def chunkWrite (s : State) (c : Nat) (ch : Fin 4) (h : DmaDesc) (ts : List (Target × Bool)) (dst : BitVec 64) (bs : List Byte) :
    Code × State :=
  if dDstSpad h then
    (St.ok, modCore s c fun k => { k with mem := { k.mem with spad := spadWr k.mem.spad (dst.toNat % spadSize) bs } })
  else
    match ts.getLast? with
    | none => (St.ok, s)
    | some tg => dmaWrite s c ch dst tg.1 tg.2 bs

/-- Moves the chunk at the progress of a channel whose addresses are translated. -/
def moveChunk (s : State) (c : Nat) (ch : Fin 4) (d : DmaChan) (h : DmaDesc) (ts : List (Target × Bool)) (r : Reply) : State :=
  match chunkOf d h with
  | (dst, src, n) =>
    match chunkRead s c ch h ts src n r with
    | (code, va, bs, s1) =>
      if code ≠ St.ok then chanFault s1 c ch.val code va
      else
        match chunkWrite s1 c ch h ts dst bs with
        | (code2, s2) =>
          if code2 ≠ St.ok then chanFault s2 c ch.val code2 dst
          else
            let seen := seeChange (getCore s1 c).mem.spad (getCore s2 c).mem.spad (chanAt (getCore s2 c) ch.val).seen
            modCore s2 c fun k => setChan k ch.val (chanStep { chanAt k ch.val with xs := .miss, xw := .miss, seen := seen } h n)

/-- Whether a Lintel link on the way to a local target of a chunk, or its channel, holds its traffic (R27, R28, R411). -/
def chunkHeld (s : State) (c : Nat) (ts : List (Target × Bool)) : Bool :=
  ts.any fun p => match p.1 with
    | .loc o => routeHolds s (towerOf c) (homeTower s o) || chanHeld s o
    | _ => false

/-- DMA_LINE_COMPLETE: the next line of the head descriptor moves, or its fault takes effect (R164, R167). In a
direct kernel a virtual address ends the kernel with XLATE_MISS (R181). -/
def execDmaLineComplete (c : Core) (ch : Fin 4) (r : Reply) (s : State) : Res :=
  let k := getCore s c.val
  let d := chanAt k ch.val
  match d.queue with
  | [] => .next s
  | h :: _ =>
    if !(dmaRuns k && decide (d.phase = .moving) && !chanAllMoved d h) || decide (1024 ≤ coreOut s c.val) then .next s
    else if isDirect k && decide (chunkAddrs d h ≠ []) then
      .next (chanFault s c.val ch.val St.xlateMiss (match chunkAddrs d h with
        | (va, _) :: _ => va
        | [] => 0))
    else
      match chanXlate s c.val ch.val with
      | (.all ts, s1) => if chunkHeld s1 c.val ts then .next s1 else .next (moveChunk s1 c.val ch d h ts r)
      | (.failed code va, s1) => .next (chanFault s1 c.val ch.val code va)
      | (.missed _ _, s1) => .next s1
      | (.pending _, s1) => .next s1

/-- Whether a write of a channel that left the package has not been performed. -/
def dmaOut (s : State) (c ch : Nat) : Bool :=
  let mine : RemUser → Bool := fun u => match u with
    | .dma d e _ => decide (d.val = c ∧ e.val = ch)
    | _ => false
  s.span.reqs.any (fun r => mine r.user) || s.host.outs.any fun o => mine o.user

/-- DMA_DESCRIPTOR_COMPLETE: every write has been performed; with SIG_EN the signal atomic is issued, else the
descriptor completes (R164). -/
def execDmaDescriptorComplete (c : Core) (ch : Fin 4) (s : State) : Res :=
  let k := getCore s c.val
  let d := chanAt k ch.val
  match d.queue with
  | [] => .next s
  | h :: _ =>
    if !(dmaRuns k && decide (d.phase = .moving) && chanAllMoved d h && !dmaOut s c.val ch.val) then .next s
    else if dSigEn h then .next (setCore s c.val (setChan k ch.val { d with phase := .signalling, xs := .miss, xw := .miss }))
    else .next (setCore s c.val (chanFinish k ch.val St.ok))

/-- The signal atomic: ADD of 1 to the 64-bit word at SIG (R164). -/
def signalAt (s : State) (c : Nat) (tg : Target) (nc : Bool) (va : BitVec 64) (r : Reply) : Code × State :=
  let ctx := (getCore s c).ctx
  let denied : Code → State → State := fun code s => if code = St.ctxDenied then xfault s ctx code 4 .atomic 1 c va else s
  match tg with
  | .loc o =>
    match hereAtomic s (towerOf c) ctx o 8 0 1 0 nc with
    | (code, _, s') => (code, denied code s')
  | .remote ga =>
    match spanAnswer (remoteAsk (rlcBypass s (towerOf c) (keyOf ga.toNat)) 0x03 ga.toNat ctx 16 0 true (toLe 8 1 ++ toLe 8 0))
        ga.toNat r 0 8 with
    | (code, _, s') => (code, denied code s')
  | .bus _ => (St.ctxDenied, s)

/-- DMA_SIGNAL_DONE: the signal atomic completes and DONE increments (R164, R167). -/
def execDmaSignalDone (c : Core) (ch : Fin 4) (r : Reply) (s : State) : Res :=
  let k := getCore s c.val
  let d := chanAt k ch.val
  match d.queue with
  | [] => .next s
  | h :: _ =>
    if !(decide (k.fault = none) && !outOfUse k && decide (d.phase = .signalling)) then .next s
    else if isDirect k then .next (chanFault s c.val ch.val St.xlateMiss (dSig h))
    else
      match chanXlate s c.val ch.val with
      | (.all ((tg, nc) :: _), s1) =>
        match signalAt s1 c.val tg nc (dSig h) r with
        | (code, s2) =>
          if code = St.ok then .next (modCore s2 c.val fun k => chanFinish k ch.val St.ok)
          else .next (chanFault s2 c.val ch.val code (dSig h))
      | (.failed code va, s1) => .next (chanFault s1 c.val ch.val code va)
      | (_, s1) => .next s1

end Sys2Proof.Machine
end

