-- ==== Sys2Proof/Machine/SeqMem.lean ====
section
/-!
DEFINITION. The memory instructions of the sequencer and FENCE (R137, R146 to R149).
-/

namespace Sys2Proof.Machine

/-- LDS: the value that its branch had read ahead, where it had (R143), else the scratchpad's. -/
def execLds (c : Core) (w : Bits) (s : State) : Res :=
  .next (issueCore s c.val (legalM w false) [fSD w] fun k =>
    advance (setS (dropPrefetched k w) (fSD w) (((prefetched k w).map (·.value)).getD (ldsNow k w))) 1)

/-- STS. -/
def execSts (c : Core) (w : Bits) (s : State) : Res :=
  .next (issueCore s c.val (legalM w true) [fSD w] fun k =>
    advance { k with mem := { k.mem with
      spad := spadWr k.mem.spad (spadEa k w) (toLe (accBytes w) (sreg k (fSD w)).toNat) } } 1)

/-- Issues an access to memory: at most 16 are outstanding (R148); in a direct kernel no Range Table applies
(R181). -/
def issueAccess (s : State) (c : Nat) (legal : Bool) (regs : List Nat) (mk : CoreSt → Access) : State :=
  let k := getCore s c
  if !canIssue k then s
  else if !legal then setCore s c (illegalOp k)
  else if regs.any (busyReg k) then s
  else if isDirect k then setCore s c (kernelFault k St.xlateMiss 2 0 k.regs.pc (mk k).va)
  else if seqOut s c ≥ 16 ∨ coreOut s c ≥ 1024 then s
  else startAcc (setCore s c (advance k 1)) c (mk k)

/-- LD. (DESIGN CHOICE: log entry 19.) -/
def execLd (c : Core) (w : Bits) (s : State) : Res :=
  .next (issueAccess s c.val (legalM w false) [fSD w] fun k =>
    { id := k.nextAcc, kind := .load, va := virtEa k w, size := accBytes w, sd := BitVec.ofNat 5 (fSD w), sx := mSX w,
      func := 0, data := 0, cmp := 0, pc := k.regs.pc, x := .miss, issued := s.now })

/-- ST. -/
def execSt (c : Core) (w : Bits) (s : State) : Res :=
  .next (issueAccess s c.val (legalM w true) [fSD w] fun k =>
    { id := k.nextAcc, kind := .store, va := virtEa k w, size := accBytes w, sd := 0, sx := false,
      func := 0, data := sreg k (fSD w), cmp := 0, pc := k.regs.pc, x := .miss, issued := s.now })

/-- AMO (R137): the address is a[AR] alone. -/
def execAmo (c : Core) (w : Bits) (s : State) : Res :=
  .next (issueAccess s c.val (legalA w) [fSD w, amSB w, amSC w] fun k =>
    { id := k.nextAcc, kind := .atomic, va := alignTo (areg k (mAR w)) (accBytes w), size := accBytes w,
      sd := BitVec.ofNat 5 (fSD w), sx := false, func := BitVec.ofNat 4 (amFunc w), data := sreg k (amSB w),
      cmp := sreg k (amSC w), pc := k.regs.pc, x := .miss, issued := s.now })

/-- What a fetched word does at decode: an undefined opcode raises ILLEGAL_OP (R138). -/
def decodeFetched (k : CoreSt) (word : Nat) : CoreSt :=
  if definedOpcode (word / 2 ^ 56 % 256) then k else illegalOp k

/-- The fetch at pc as an access. -/
def fetchAcc (k : CoreSt) (x : XSt) (now : Nat) : Access :=
  { id := k.nextAcc, kind := .fetch, va := alignTo k.regs.pc 8, size := 8, sd := 0, sx := false, func := 0, data := 0,
    cmp := 0, pc := k.regs.pc, x := x, issued := now }

/-- The translation of the fetch at pc, as far as it has come; an access of the sequencer that waits for its search holds the
fetch (R252), and a page that the fetch meets counts as a wait (R269). -/
def fetchXlate (s : State) (c : Nat) : Option (XSt × State) :=
  match (getCore s c).fetchX with
  | .miss =>
    if (getCore s c).accs.any fun a => unsettled a.x then none
    else (rlbXlate s c (getCore s c).regs.pc .fetch true).map fun r => (r.1, countIfPage r.2 c r.1)
  | t => some (t, s)

/-- The fetch of the word at pc returns: a fault ends the kernel with SRC fetch, an undefined opcode with
ILLEGAL_OP (R138, R149, R174); a defined word goes on to its own command. -/
def fetchReturns (s : State) (c : Nat) (r : Reply) : State :=
  let k := getCore s c
  if !canIssue k then s
  else if isDirect k then setCore s c (decodeFetched k (leNat (spadRd k.mem.spad (k.regs.pc.toNat % spadSize) 8)))
  else
    match fetchXlate s c with
    | none => s
    | some (t, s1) =>
      match t with
      | .fault code _ =>
        modCore (if k.fetchX = .miss then recordX s1 c 0 .fetch k.regs.pc t else s1) c fun k =>
          kernelFault { k with fetchX := .miss } code 1 0 k.regs.pc k.regs.pc
      | .target _ _ =>
        let a := fetchAcc k t s.now
        match loadAt s1 c (.fetch (BitVec.toFin (BitVec.ofNat 8 c))) a r with
        | (code, bs, s2) =>
          if code ≠ St.ok then
            modCore (homeRefusal s2 c a code) c fun k => kernelFault { k with fetchX := .miss } code 1 0 k.regs.pc k.regs.pc
          else modCore s2 c fun k => decodeFetched { k with fetchX := .miss } (leNat bs)
      | t => modCore s1 c fun k => { k with fetchX := t }

/-- The reply that an access to another package may have had: an answer of the home only over a route, and no answer only
after the timeout of its level (R306, R336); any other reply leaves the access waiting. -/
def seqReply (s : State) (a : Access) (r : Reply) : Reply :=
  match a.x with
  | .target (.remote ga) _ =>
    match r with
    | .home => .home
    | .ok d => if spanReach s ga.toNat then .ok d else .home
    | .fail code =>
      if spanFail code ≠ St.remoteTimeout then (if spanReach s ga.toNat then .fail code else .home)
      else if a.issued + levelTimeout (decide (levelOf s ga.toNat = 2)) ≤ s.now then .fail code else .home
  | _ => r

/-- SEQ_ACCESS_COMPLETE: the reply or fault of the fetch, or of an outstanding access, returns (R149). -/
def execSeqAccessComplete (c : Core) (a : SeqAcc) (r : Reply) (s : State) : Res :=
  match a with
  | .fetch => .next (fetchReturns s c.val r)
  | .data i =>
    match (getCore s c.val).accs[i]? with
    | none => .next s
    | some a => .next (completeAcc s c.val a (seqReply s a r))

/-! ## FENCE (R147) -/

/-- FENCE stops issue until its completion; pc stays at it. (DEDUCED: log entry 18.) -/
def execFence (c : Core) (w : Bits) (s : State) : Res :=
  .next (issueCore s c.val (legalN w) [] fun k => { k with wait := some .fence })

/-- Whether a store of core `c` that left the combining buffer has not been performed. -/
def storesOut (s : State) (c : Nat) : Bool := decide (usersOut s (storeUser c) ≠ 0)

/-- Whether an ST or AMO of the core is outstanding. -/
def writesPending (k : CoreSt) : Bool := k.accs.any fun a => decide (a.kind = .store ∨ a.kind = .atomic)

/-- FENCE_COMPLETE: every earlier ST and AMO has been performed, the combining buffer included; issue resumes after
the FENCE (R147, R301). (DEDUCED: log entry 18.) -/
def execFenceComplete (c : Core) (s : State) : Res :=
  let k := getCore s c.val
  if k.wait = some .fence ∧ !writesPending k then
    let s1 := combFlush s c.val
    if storesOut s1 c.val || decide ((getCore s1 c.val).fault ≠ none) then .next s1
    else .next (modCore s1 c.val fun k => advance { k with wait := none } 1)
  else .next s

end Sys2Proof.Machine
end

