-- ==== Sys2Proof/Machine/CoreLife.lean ====
section
/-!
DEFINITION. The life of a kernel on a core: its start (R171, R172, R196), END and the end of its node (R173), the end
after a kernel-ending fault (R174), and direct kernels (R181).
-/

namespace Sys2Proof.Machine

/-! ## Start -/

/-- The clearing of R172: a core that passes to another context has its scratchpad, accumulator file and vector registers
written to 0. -/
def clearFor (k : CoreSt) (x : Nat) : CoreSt :=
  if k.lastCtx = some x then k
  else { k with mem := { k.mem with spad := [], acc := [], vreg := [] }, lastCtx := some x }

/-- The start of a kernel on a core (R171, R172, R196): clearing, the inline data, and the registers of Table 6.14. (DESIGN CHOICE: log entry 69.) -/
def prepareKernel (k : CoreSt) (x : Gang) (rank : Nat) : CoreSt :=
  let k := startState (clearFor k x.ctx)
  let k := { k with mem := { k.mem with spad := spadWr k.mem.spad x.inlOff.toNat x.inl }, ctx := x.ctx }
  let k := x.sregs.foldl (fun k p => setS k p.1 p.2) k
  let k := setS k 2 (BitVec.ofNat 64 rank)
  let k := if x.inl = [] then k else setA k 1 (x.inlOff.setWidth 64)
  { k with regs := { k.regs with pc := x.entry } }

/-- Starts the kernel of one rank on its core, after the acquire of its tower (R171, R302). -/
def startRank (x : Gang) (s : State) (p : Nat × Nat) : State :=
  modCore (acquire s (towerOf p.2)) p.2 fun k => { prepareKernel k x p.1 with phase := .running }

/-- NODE_START: the kernels of the gang of a granted core start together (R171, R222). -/
def execNodeStart (c : Core) (s : State) : Res :=
  match (getCore s c.val).gang.bind (gangOf s) with
  | none => .next s
  | some x =>
    if x.st ≠ .granted ∨ (x.cores.all fun p => decide ((getCore s p.2).phase = .granted) && !(getCore s p.2).retired) = false then .next s
    else .next (setGang (forEach s x.cores (startRank x)) { x with st := .running, started := s.now })

/-! ## End -/

/-- Ends a gang none of whose kernels is left on a core: its packet completes, or is done without effect after a
stop. -/
def finishGang (s : State) (g : Nat) : State :=
  match gangOf s g with
  | none => s
  | some x =>
    if x.cores ≠ [] then s
    else if x.st = .stopped then nodeSettle (modPkt (dropGang s x) x.queue x.node x.off fun p => { p with st := .done }) x.queue x.node
    else if x.ended.length = x.want then
      modPkt (dropGang s x) x.queue x.node x.off fun p => { p with st := .performed St.ok }
    else if x.st = .saving then tooLarge (setGang s { x with st := .saved })
    else s

/-- CORE_FAULT0 to CORE_FAULT4 of a core. -/
def faultRegs (k : CoreSt) : List (BitVec 32) := [k.cr.fault0, k.cr.fault1, k.cr.fault2, k.cr.fault3, k.cr.fault4]

/-- The end of the kernel of core `c` with a code: a code other than OK makes its entry faulty (R196, R211, R213). -/
def kernelEnded (s : State) (c : Nat) (code : Code) : State :=
  let k := getCore s c
  match k.gang.bind (gangOf s) with
  | none => modCore s c coreFreed
  | some x =>
    let rank := ((x.cores.find? fun p => p.2 = c).map Prod.fst).getD 0
    let s := modCtx s x.ctx fun k => { k with slots := k.slots.filter fun n => !x.slots.contains (rank, n) }
    let s := setGang s { x with
      cores := x.cores.filter fun p => p.2 ≠ c, ended := x.ended ++ [(rank, code)], slots := x.slots.filter fun p => p.1 ≠ rank }
    let s := modCore s c coreFreed
    let s := if code ≠ St.ok ∧ x.st ≠ .stopped then
        guilty s x.queue code
          (some ⟨code, BitVec.ofNat 16 x.node, BitVec.ofNat 32 x.off, unitId s 2 c, faultRegs k⟩) false
      else s
    finishGang s x.id

/-- The end of a direct kernel: CODE takes its code and BUSY clears (R181). (DESIGN CHOICE: log entry 69.) -/
def directEnded (k : CoreSt) (code : Code) : CoreSt :=
  { coreFreed k with phase := k.phase, gang := k.gang,
                     cr := { k.cr with coreDirect := sf (sb k.cr.coreDirect 29 false) 26 19 code.toNat } }

/-- END stops issue; pc stays at it (R173). (DEDUCED: log entry 81.) -/
def execEnd (c : Core) (w : Bits) (s : State) : Res :=
  .next (issueCore s c.val (legalN w) [] fun k => { k with ended := true })

/-- Whether every unit has DISP = DONE (R173). (DEDUCED: log entry 81.) -/
def allDone (k : CoreSt) : Bool :=
  (List.range 9).all fun u => let n := tget 0 k.cr.ucnt u; decide (bf n 31 16 = bf n 15 0)

/-- NODE_END: after END, with every unit done and every store, atomic and signal performed, the node ends on the core with
OK (R173, R301). (DESIGN CHOICE: log entry 8.) (DEDUCED: log entry 81.) -/
def execNodeEnd (c : Core) (s : State) : Res :=
  let k := getCore s c.val
  if !(k.ended && decide (k.fault = none) && !outOfUse k && allDone k && enginesIdle k && !writesPending k) then .next s
  else
    let s1 := combFlush s c.val
    let k1 := getCore s1 c.val
    if storesOut s1 c.val || decide (k1.fault ≠ none) then .next s1
    else if isDirect k1 then .next (setCore s1 c.val (directEnded k1 St.ok))
    else .next (kernelEnded s1 c.val St.ok)

/-! ## The end after a fault -/

/-- Records a fault in CORE_FAULT0 to CORE_FAULT4 (Tables 5.16 to 5.20); a kernel stopped from outside records
nothing. -/
def recordFault (k : CoreSt) (f : KFault) : CoreSt :=
  if f.src = 7 then k
  else
    let unit := if f.src = 3 ∨ f.src = 5 then f.unit.toNat else 0
    let addr : Nat := if f.src = 1 ∨ f.src = 2 ∨ f.src = 5 then f.addr.toNat else 0
    { k with cr := { k.cr with
        fault0 := BitVec.ofNat 32 (2 ^ 31 + f.src.toNat * 2 ^ 28 + unit * 2 ^ 26 + f.code.toNat * 2 ^ 16),
        fault1 := BitVec.ofNat 32 f.pc.toNat,
        fault2 := BitVec.ofNat 32 (f.pc.toNat / 2 ^ 32),
        fault3 := BitVec.ofNat 32 addr,
        fault4 := BitVec.ofNat 32 (addr / 2 ^ 32) } }

/-- Whether a request of the core has left the package and not been answered (R174 steps 4 and 5). -/
def coreWaits (s : State) (c : Nat) : Bool :=
  decide (usersOut s (fun u => match u with
    | .seq d _ | .store d _ _ | .dma d _ _ => decide (d.val = c)
    | .send _ | .mason _ _ | .wback _ | .answered => false) ≠ 0)

/-- KERNEL_FAULT_END: with its accepted operations complete and its accesses over, a kernel that met a fault ends with
the fault's code (R174). -/
def execKernelFaultEnd (c : Core) (s : State) : Res :=
  let k := getCore s c.val
  match k.fault with
  | none => .next s
  | some f =>
    if !(enginesIdle k && decide (k.accs = []) && !outOfUse k) then .next s
    else
      let s1 := combFlush s c.val
      if coreWaits s1 c.val then .next s1
      else
        let k1 := recordFault (getCore s1 c.val) f
        if isDirect k1 then .next (setCore s1 c.val (directEnded k1 f.code))
        else .next (kernelEnded (setCore s1 c.val k1) c.val f.code)

/-- DIRECT_KERNEL_GO: Keystone writes CORE_DIRECT (R180, R181). (DESIGN CHOICE: log entry 69.) -/
def execDirectKernelGo (c : Core) (v : BitVec 32) (s : State) : Res := .next (modCore s c.val fun k => coreDirectWrite k v)

end Sys2Proof.Machine
end

