-- ==== Sys2Proof/Machine/Mailbox.lean ====
section
/-!
DEFINITION. Mailbox pages and orders (R398 to R405, R408, R410): reads and writes of a page, the take of an order, the checks of
R401, answers, and the settings record.
-/

namespace Sys2Proof.Machine

/-! ## Pages (Tables 14.2 to 14.7) -/

/-- Byte `i` of a register. -/
def regByte {w : Nat} (x : BitVec w) (i : Nat) : Byte := BitVec.ofNat 8 (x.toNat / 256 ^ i)

/-- A byte of a page as it reads; GO and bytes beyond the page read 0. -/
def mbByte (k : Mbox) (off : Nat) : Byte :=
  if off < 0x008 then regByte k.cmd off
  else if off < 0x010 then regByte k.rsp (off - 0x008)
  else if off < 0x014 then regByte k.ras (off - 0x010)
  else if off < 0x018 then regByte k.rasx (off - 0x014)
  else if off < 0x01C then regByte k.irq (off - 0x018)
  else if off < 0x040 then 0
  else if off < 0x1000 then rd8 k.page off else 0

/-- `n` bytes of a page. (DEDUCED: log entry 63.) -/
def mbRead (k : Mbox) (off n : Nat) : List Byte := (List.range n).map fun i => mbByte k (off + i)

/-- A write of MB_RAS RPTR: taken only within the ring bound (R421). -/
def rptrWrite (k : Mbox) (v : Nat) : Mbox :=
  if (bf k.ras 31 16 + 65536 - v % 65536) % 65536 ≤ 32 then { k with ras := sf k.ras 15 0 v } else k

/-- A 4-byte write at an aligned page offset; it never submits an order (R399). -/
def mbWrite4 (k : Mbox) (off : Nat) (v : BitVec 32) : Mbox :=
  match off with
  | 0x000 => { k with cmd := sf k.cmd 31 0 (sb v 0 false).toNat }
  | 0x004 => { k with cmd := sf k.cmd 63 32 v.toNat }
  | 0x010 => rptrWrite k (bf v 15 0)
  | 0x014 => if bt v 31 then { k with rasx := sb k.rasx 31 false } else k
  | 0x018 => { k with irq := v &&& 0x800007FF }
  | o => if 0x040 ≤ o ∧ o < 0x400 then { k with page := wrN k.page o (toLe 4 v.toNat) } else k

/-- Whether an order of a mailbox is PEND or BUSY. -/
def mbWaits (k : Mbox) : Bool := bt k.rsp 2 || bt k.rsp 1

/-- An 8-byte write of MB_CMD: a write of GO sets PEND, or is ignored while an order is PEND or BUSY (R399, R400). (DEDUCED: log entry 32.) -/
def mbCmdWrite (k : Mbox) (v : BitVec 64) : Mbox :=
  if !bt v 0 then { k with cmd := v }
  else if mbWaits k then k
  else { k with cmd := sb v 0 false, rsp := sb k.rsp 2 true, snap := k.page }

/-- An 8-byte write at an aligned page offset. (DEDUCED: log entry 32.) -/
def mbWrite8 (k : Mbox) (off : Nat) (v : BitVec 64) : Mbox :=
  if off = 0 then mbCmdWrite k v
  else mbWrite4 (mbWrite4 k off (BitVec.ofNat 32 (bf v 31 0))) (off + 4) (BitVec.ofNat 32 (bf v 63 32))

/-! ## The persistent store: copies in force (R394) -/

/-- The valid copy of the higher sequence number. -/
def newest {α : Type} (t : TwoCopy α) : Option α :=
  match t.a, t.b with
  | some x, some y => some (if (x.1 - y.1).toInt < 0 then y.2 else x.2)
  | some x, none => some x.2
  | none, y => y.map Prod.snd

/-- Writes the copy that the update erased, with a sequence number one above the other's. -/
def fillCopy {α : Type} (t : TwoCopy α) (v : α) : TwoCopy α :=
  match t.a, t.b with
  | none, y => { t with a := some ((y.map fun p => p.1 + 1).getD 0, v) }
  | x, none => { t with b := some ((x.map fun p => p.1 + 1).getD 0, v) }
  | some _, some _ => t

/-- The journal in force; an empty one names slot A (R394, R396). (DESIGN CHOICE: log entry 61.) -/
def journalOf (s : State) : Journal := (newest s.store.journal).getD {}

/-- The settings area of a firmware slot. -/
def areaOf (s : State) (slotB : Bool) : TwoCopy SetRec := if slotB then s.store.setB else s.store.setA

/-- The count of writes of an area, with those in progress. -/
def genOf (s : State) (slotB : Bool) : BitVec 32 :=
  s.store.pend.foldl (fun g u => match u.op with
    | .settings b r => if b = slotB then r.gen else g
    | .journal _ | .cal _ | .units _ => g) (((newest (areaOf s slotB)).map fun r => r.gen).getD 0)

/-- Writes a settings record to the area of the running slot (R409, R410). -/
def pushSettings (s : State) (v : Settings) (order : Option Nat) : State :=
  storePush s (.settings s.rst.slot ⟨s.key.sver, genOf s s.rst.slot + 1, v⟩) order

/-! ## Decode and take (R400, R401, R403) -/

/-- The verbs of a group (Tables 14.10 to 14.19). -/
def verbCount (g : Nat) : Nat :=
  match g with
  | 1 => 7
  | 2 => 4
  | 3 => 2
  | 4 => 3
  | 5 => 9
  | 6 => 5
  | 7 => 5
  | 8 => 3
  | 9 => 3
  | 10 => 3
  | _ => 0

/-- The commands marked P, those that require PERSIST among them. -/
def markedP : List (Nat × Nat) := [(1, 5), (1, 6), (2, 1), (2, 2), (4, 1), (4, 2), (5, 1), (5, 2), (5, 3), (5, 8), (9, 1), (10, 1)]

/-- Check 1 of R401 on the words of MB_CMD. -/
def orderDecodes (cmd : BitVec 64) : Bool :=
  let g := bf cmd 63 56
  let v := bf cmd 55 48
  decide (1 ≤ v ∧ v ≤ verbCount g ∧ bf cmd 45 44 = 0 ∧ bf cmd 15 1 = 0)
  && (!bt cmd 47 || markedP.contains (g, v)) && (!bt cmd 46 || decide ((g, v) = (6, 4) ∨ (g, v) = (9, 2)))

/-- The copy of ALEN bytes of ARG: a byte written since GO may or may not be in it (R400). (DEDUCED: log entry 32.) -/
def argCopy (s : State) (k : Mbox) (n : Nat) : List Byte :=
  (List.range n).map fun i =>
    let now := mbByte k (0x040 + i)
    let go := mbByte { k with page := k.snap } (0x040 + i)
    if now = go then now else if bt (Config.freeBits 8 (s.free + i)) 0 then now else go

/-- Takes the order of a mailbox: PEND and DONE clear, BUSY is set. An order that does not decode carries its code from here on. -/
def takeOrder (s : State) (m : Nat) : State :=
  let k := getMbox s m
  let n := bf k.cmd 43 32
  let o : Order :=
    { mb := m, group := BitVec.ofNat 8 (bf k.cmd 63 56), verb := BitVec.ofNat 8 (bf k.cmd 55 48), persist := bt k.cmd 47,
      offline := bt k.cmd 46, seq := BitVec.ofNat 16 (bf k.cmd 31 16), args := argCopy s k n, busy := false, started := false,
      since := s.now, code := if orderDecodes k.cmd then St.ok else St.unsupported, refuse := 0, res := [], wrote := [] }
  let s1 := { setMbox s m { k with rsp := sb (sf k.rsp 2 0 0) 1 true } with free := s.free + n }
  withKey s1 { s1.key with batch := s1.key.batch ++ [o] }

/-- The states in which Keystone serves M0 alone (R403). -/
def shutDown (s : State) : Bool := bt s.rst.cause1 19
def m0Only (s : State) : Bool := s.rst.recovery || shutDown s || s.key.hubIsolated

/-- SYS.INFO, and SYS.CAUSE with no bits to clear, which Keystone takes before DONE. -/
def earlyOrder (k : Mbox) : Bool :=
  let g := bf k.cmd 63 56
  let v := bf k.cmd 55 48
  decide ((g, v) = (1, 1)) || (decide ((g, v) = (1, 2)) && (decide (bf k.cmd 43 32 = 0) || decide (mbByte k 0x040 = 0)))

/-- Whether the order of a mailbox is taken in a slot (R403). -/
def mayTake (s : State) (m : Nat) : Bool :=
  bt (getMbox s m).rsp 2 && (if m0Only s then decide (m = 0) else s.rst.done || earlyOrder (getMbox s m))

/-! ## Answers (R400, R404, R405) -/

/-- Writes the answer of an order in one store, and raises the mailbox's interrupt. The answer of SYS.RESET starts the 10 µs of
R382. -/
def writeAnswer (s : State) (o : Order) : State :=
  let k := getMbox s o.mb
  let rsp : BitVec 64 := BitVec.ofNat 64 (o.group.toNat * 2 ^ 56 + o.verb.toNat * 2 ^ 48 + o.code.toNat * 2 ^ 40 + o.refuse.toNat * 2 ^ 32
    + o.seq.toNat * 2 ^ 16 + o.res.length % 4096 * 2 ^ 4 + 1)
  let s1 := setMbox s o.mb { k with page := wrN k.page 0x400 o.res, rsp := rsp }
  let s2 := if o.group = 1 ∧ o.verb = 3 ∧ o.refuse = 0 ∧ o.code ≠ St.unsupported then
      withRst s1 { s1.rst with softDue := some (s1.rst.softDue.getD (s.now + 10000)), softMb := o.mb }
    else s1
  mbIrq s2 o.mb 1

/-- Whether a later order of a batch wrote a target of `o` with another value (R405). -/
def contradicted (o : Order) (later : List Order) : Bool :=
  o.wrote.any fun w => later.any fun p => p.wrote.any fun x => decide (x.1 = w.1 ∧ x.2 ≠ w.2)

/-- An order with SUPERSEDED where a later one contradicts it. -/
def supersede (o : Order) (later : List Order) : Order :=
  if contradicted o later ∧ o.refuse = 0 then { o with code := St.superseded } else o

/-- The answers of a batch in execution order; an order that only started keeps its code for later. -/
def answerAll : List Order → State → State
  | [], s => s
  | o :: later, s =>
    let o1 := supersede o later
    let s1 := if o.started then
        withKey s { s.key with pending := s.key.pending.map fun p => if p.mb = o.mb then { p with code := o1.code } else p }
      else writeAnswer s o1
    answerAll later s1

/-- Whether a live FW.ACTIVATE waits for the batch boundary (R413). (DEDUCED: log entry 33.) -/
def handoverDue (s : State) : Bool := s.key.pending.any fun o => decide (o.group = 7 ∧ o.verb = 3 ∧ !o.busy)

/-- Passes over the orders at the head that did not decode, and ends a batch that is empty. -/
def settleBatch (s : State) : State :=
  let bad := s.key.batch.takeWhile fun o => o.code = St.unsupported
  let s1 := withKey s { s.key with batch := s.key.batch.drop bad.length, batchDone := s.key.batchDone ++ bad }
  if s1.key.batch ≠ [] then s1
  else
    let s2 := answerAll s1.key.batchDone (withKey s1 { s1.key with batchDone := [] })
    if handoverDue s2 then withKey s2 { s2.key with handover := true } else s2

/-- The head order has executed. -/
def finishHead (s : State) (o : Order) : State :=
  settleBatch (withKey s { s.key with batch := s.key.batch.tail, batchDone := s.key.batchDone ++ [o] })

/-- A started order completes; within its own batch its answer waits for the end of the batch. -/
def startedDone (s : State) (m : Nat) (code : Code) (refuse : BitVec 8) (res : List Byte) : State :=
  match s.key.pending.find? fun o => o.mb = m with
  | none => s
  | some o =>
    let o1 := { o with started := false, refuse := refuse, res := res, code := if o.code = St.superseded then o.code else code }
    let s1 := withKey s { s.key with pending := s.key.pending.filter fun p => p.mb ≠ m }
    let s2 := if o.offline ∧ !s1.key.stopHeld ∧ s1.key.pending.all fun p => !p.offline then
        withKey s1 { s1.key with stopped := false, stopping := false }
      else s1
    if s2.key.batchDone.any fun p => decide (p.mb = m) then
      withKey s2 { s2.key with batchDone := s2.key.batchDone.map fun p => if p.mb = m then o1 else p }
    else writeAnswer s2 o1

/-- The update of the store that an order made has ended: a failed one gives REFUSE STORE (R395, R410). -/
def orderStored (s : State) (m : Nat) (ok : Bool) : State :=
  let why : Order → BitVec 8 := fun o => if ok then o.refuse else 6
  match s.key.batch with
  | o :: _ =>
    if o.mb = m ∧ o.busy then finishHead s { o with busy := false, refuse := why o, code := if ok then o.code else St.ok }
    else match s.key.pending.find? fun p => p.mb = m with
      | none => s
      | some p => startedDone s m (if ok then p.code else St.ok) (why p) p.res
  | [] => match s.key.pending.find? fun p => p.mb = m with
      | none => s
      | some p => startedDone s m (if ok then p.code else St.ok) (why p) p.res

/-! ## The execution of an order (R401, R402, R410) -/

/-- The Access column of the command tables. -/
inductive Right where
  | r
  | w
  | w0
deriving DecidableEq, Repr

/-- The driver mailbox (R398). -/
def driverMb (s : State) : Nat := if s.host.drv then 2 else 1

/-- Check 2 of R401. -/
def permitted (s : State) (m : Nat) (a : Right) : Bool :=
  match a with
  | .r => true
  | .w => decide (m = 0 ∨ m = driverMb s) || (decide (m = 3) && s.key.m3w)
  | .w0 => decide (m = 0 ∨ m = driverMb s)

/-- What the execution of an order comes to; `later` leaves it at the head, for a package stop to end first (R411). -/
inductive Fate where
  | done (code : Code) (res : List Byte)
  | refused (why : BitVec 8)
  | busy (code : Code) (res : List Byte)
  | started (busy : Bool)
  | later
deriving DecidableEq, Repr

/-- The state after an order has executed, its fate, and the targets it wrote. -/
structure Ran where
  s : State
  fate : Fate
  wrote : List (Nat × Nat)

def ranOk (s : State) (wrote : List (Nat × Nat)) : Ran := ⟨s, .done St.ok [], wrote⟩
def ranRead (s : State) (res : List Byte) : Ran := ⟨s, .done St.ok res, []⟩
def refusedBy (s : State) (why : BitVec 8) : Ran := ⟨s, .refused why, []⟩

/-- Puts the fate of the head order into force. -/
def settleOrder (o : Order) (r : Ran) : State :=
  match r.fate with
  | .done c res => finishHead r.s { o with code := c, res := res, wrote := r.wrote }
  | .refused n => finishHead r.s { o with refuse := n }
  | .busy c res =>
    withKey r.s { r.s.key with batch := { o with busy := true, code := c, res := res, wrote := r.wrote } :: r.s.key.batch.tail }
  | .started b =>
    let o1 := { o with started := true, busy := b, since := r.s.now, wrote := r.wrote }
    finishHead (withKey r.s { r.s.key with pending := r.s.key.pending ++ [o1] }) o1
  | .later => r.s

/-- The orders that M0 may issue in the recovery state, and in the states of R386 and R31 (R403). -/
def stateRefuses (s : State) (o : Order) : Bool :=
  let gv := (o.group.toNat, o.verb.toNat)
  if shutDown s || s.key.hubIsolated then !([(1, 1), (1, 2)].contains gv)
  else s.rst.recovery && !([(1, 1), (1, 2), (1, 3), (7, 1), (7, 2), (7, 3)].contains gv)

/-- Runs the next order of the batch if it is verb `v` of group `g`: checks 2 to 4 of R401, then its effect. (DESIGN CHOICE: log entry 23.) -/
def runOrder (s : State) (g v : Nat) (right : Right) (rangeOk : Order → Bool) (stateOk : Order → Bool) (body : State → Order → Ran) :
    State :=
  match s.key.batch with
  | [] => s
  | o :: _ =>
    if o.busy ∨ s.key.halted ∨ o.group.toNat ≠ g ∨ o.verb.toNat ≠ v then s
    else if !permitted s o.mb right then settleOrder o (refusedBy s 1)
    else if !rangeOk o then settleOrder o (refusedBy s 2)
    else if stateRefuses s o || (o.persist && s.key.trial) || !stateOk o then settleOrder o (refusedBy s 3)
    else settleOrder o (body s o)

/-- An argument of `n` bytes at byte `off`, and the number of argument bytes. -/
def arg (o : Order) (off n : Nat) : Nat := fieldLe o.args off n
def alen (o : Order) (n : Nat) : Bool := decide (o.args.length = n)

/-- Ends an order that made a live change: with PERSIST it writes the settings record first (R410). -/
def endPersist (s : State) (o : Order) (f : Settings → Settings) (wrote : List (Nat × Nat)) : Ran :=
  if o.persist then ⟨pushSettings s (f s.key.sets) (some o.mb), .busy St.ok [], wrote⟩ else ranOk s wrote

/-- Ends an order whose change asked for an update of the store: it waits for the last update that the change began. -/
def endStored (before after : State) (o : Order) (wrote : List (Nat × Nat)) : Ran :=
  if after.store.pend.length ≤ before.store.pend.length then ranOk after wrote
  else
    let p := after.store.pend
    let mark : List StoreUpd := p.dropLast ++ (p.getLast?.map fun u => { u with order := some o.mb }).toList
    ⟨withStore after { after.store with pend := mark }, .busy St.ok [], wrote⟩

/-- Begins the package stop of R411. -/
def beginStop (s : State) : State :=
  if s.key.stopping then s else withKey s { s.key with stopping := true, stopSince := s.now }

/-- The bytes of a result that a command table lists without a layout. (DESIGN CHOICE: log entry 34.) -/
def laid (g v : Nat) (vals : List Nat) (n : Nat) : List Byte := (List.range n).map fun i => Config.resultByte g v vals i

/-- The bytes of a result of no stated length, up to 2,048. (DESIGN CHOICE: log entry 34.) -/
def laidFree (g v : Nat) (vals : List Nat) : List Byte := laid g v vals (min 2048 (Config.resultLen g v vals))

/-- A target of an order: a kind of target and its number (R405). -/
def tgt (kind i : Nat) : Nat := 65536 * kind + i

end Sys2Proof.Machine
end

