-- ==== Sys2Proof/Machine/Queues.lean ====
section
/-!
DEFINITION. Queues and entries (R182 to R190), completion (R209, R214), guilt and queue reset (R211 to R217), and the
context event registers (R218).
-/

namespace Sys2Proof.Machine

/-! ## Registers -/

/-- Whether a view is the driver's (R348). -/
def isDriver (s : State) (v : View) : Bool :=
  match v with
  | .mason => !s.host.drv
  | .pcie => s.host.drv

/-- Fields of QCTL (Table 6.2). -/
def qEn (k : Queue) : Bool := bt k.ctl 31
def qDev (k : Queue) : Bool := bt k.ctl 30
def qPrio (k : Queue) : Nat := bf k.ctl 29 28
def qSize (k : Queue) : Nat := 2 ^ bf k.ctl 27 24
def qCtx (k : Queue) : Nat := bf k.ctl 23 12
def qDepth (k : Queue) : Nat := (k.wptr.toNat + 65536 - k.rptr.toNat) % 65536
def qBusy (k : Queue) : Bool := k.run.isSome

/-- The outcome of a push of `n` entries (R186). -/
inductive PushRes where
  | accepted
  | full
  | guilty
deriving DecidableEq, Repr

/-- Offers a push of `n` entries to a queue (R186): a queue both full and GUILTY sets GREJ only. (DEDUCED: log entry 41.) -/
def pushTry (k : Queue) (n : Nat) : PushRes × Queue :=
  if n = 0 then (.accepted, k)
  else if k.guilty then (.guilty, { k with grej := true })
  else if qDepth k + n ≤ qSize k then (.accepted, { k with wptr := k.wptr + BitVec.ofNat 16 n })
  else (.full, { k with fullrej := true })

/-- QDB_PUSH: a write of QDB pushes (W − WPTR) mod 2^16 entries; it is ignored while EN = 0 or DEV = 1 (R186). (DEDUCED: log entry 41.) -/
def execQdbPush (q : QId) (v : BitVec 32) (s : State) : Res :=
  let k := getQueue s q.val
  if qEn k && !qDev k then .next (setQueue s q.val (pushTry k ((bf v 15 0 + 65536 - k.wptr.toNat) % 65536)).2) else .next s

/-- A write of QCTL (R184). (DEDUCED: log entry 48.) -/
def qctlNew (k : Queue) (v : BitVec 32) : Queue :=
  if k.resetting then k
  else
    let open_ := !qEn k && !qBusy k
    let c1 := if open_ then
        let c := mergeMask 0x70FFFFFF k.ctl v
        if 4 ≤ bf v 27 24 then sf c 27 24 (bf v 27 24) else c
      else k.ctl
    let k1 := { k with ctl := sb c1 31 (bt v 31) }
    if bt v 31 && !qEn k then
      { k1 with rptr := 0, wptr := 0, fullrej := false, grej := false, cause := 0, guilty := false }
    else k1

/-- QCTL_WRITE: by the driver view, once start-up is done (R184, R348, R392). -/
def execQctlWrite (q : QId) (view : View) (v : BitVec 32) (s : State) : Res :=
  if isDriver s view && s.rst.done then .next (modQueue s q.val fun k => qctlNew k v) else .next s

/-- GCLR: clears GUILTY when no reset of the queue runs (R216, R217). -/
def execGclr (q : QId) (s : State) : Res :=
  .next (modQueue s q.val fun k => if k.resetting then k else { k with guilty := false })

/-- A write of CEVCTL (Table 6.26): LOG2SZ takes 4 to 12 while EN = 0; a write that sets EN from 0 sets both pointers to 0. (DEDUCED: log entry 48.) -/
def cevctlNew (k : Ctx) (v : BitVec 32) : Ctx :=
  let en := bt k.cevctl 31
  let c := mergeMask 0x80000FFF k.cevctl v
  let c := if bt v 30 then sb c 30 false else c
  let c := if !en && decide (4 ≤ bf v 27 24 ∧ bf v 27 24 ≤ 12) then sf c 27 24 (bf v 27 24) else c
  { k with cevctl := c, cevptr := if bt v 31 && !en then 0 else k.cevptr }

/-- CEVCTL_WRITE: by the driver view, once start-up is done. -/
def execCevctlWrite (x : CtxId) (view : View) (v : BitVec 32) (s : State) : Res :=
  if isDriver s view && s.rst.done then .next (modCtx s x.val fun k => cevctlNew k v) else .next s

/-- A write of CEVPTR: RPTR is taken only within the ring bound (R218). -/
def cevptrNew (k : Ctx) (v : BitVec 32) : Ctx :=
  if (bf k.cevptr 31 16 + 65536 - bf v 15 0) % 65536 ≤ 2 ^ bf k.cevctl 27 24 then { k with cevptr := sf k.cevptr 15 0 (bf v 15 0) } else k

/-- CEVPTR_WRITE. -/
def execCevptrWrite (x : CtxId) (view : View) (v : BitVec 32) (s : State) : Res :=
  if isDriver s view then .next (modCtx s x.val fun k => cevptrNew k v) else .next s

/-! ## Ring entries (Table 6.10) -/

def enKind (r : List Byte) : Nat := fieldLe r 0 1
def enFlags (r : List Byte) : Nat := fieldLe r 1 1
def enTimed (r : List Byte) : Bool := (enFlags r).testBit 1
def enIrq (r : List Byte) : Bool := (enFlags r).testBit 2
def enLen (r : List Byte) : Nat := fieldLe r 4 4
def enAddr (r : List Byte) : Nat := fieldLe r 8 8
def enConst (r : List Byte) : Nat := fieldLe r 16 8
def enClen (r : List Byte) : Nat := fieldLe r 24 2
def enCrec (r : List Byte) : Nat := fieldLe r 32 8
def enSig (r : List Byte) : Nat := fieldLe r 40 8
def enAt (r : List Byte) : Nat := fieldLe r 48 8
def enTag (r : List Byte) : Nat := fieldLe r 56 4

/-- A buffer length: a multiple of 64 from 64 to 1,048,576. -/
def bufLenOk (n : Nat) : Bool := decide (n % 64 = 0 ∧ 64 ≤ n ∧ n ≤ 1048576)

/-- The check of an entry against Table 6.10 at the pop (R189). -/
def entryOk (k : Queue) (r : List Byte) : Bool :=
  let launch := decide (enKind r = 2)
  decide (enKind r = 1 ∨ enKind r = 2)
  && decide (enFlags r < 8 ∧ (launch = true → enFlags r % 2 = 0))
  && decide (fieldLe r 2 2 = 0 ∧ fieldLe r 26 6 = 0 ∧ fieldLe r 60 4 = 0)
  && (if launch then decide (enLen r = 0) else bufLenOk (enLen r))
  && decide (enAddr r % 64 = 0 ∧ enConst r % 8 = 0 ∧ enClen r % 8 = 0 ∧ enClen r ≤ 4096 ∧ (enClen r = 0 → enConst r = 0))
  && decide (enCrec r % 64 = 0 ∧ enSig r % 8 = 0)
  && (enTimed r || decide (enAt r = 0))
  && (!enIrq r || bt k.ctl 11)

/-! ## Pop (R185, R188, R207, R219) -/

/-- Whether a queue can pop (R219). -/
def canPop (k : Queue) : Bool := qEn k && !k.guilty && !qBusy k && decide (0 < qDepth k)

/-- The queue that the front end pops next (R219): the lowest PRIO, then round robin after the last queue popped at that
level. -/
def popChoice (s : State) : Option Nat :=
  (List.range 4).findSome? fun p =>
    let l := (s.queues.filter fun q => canPop q.2 && decide (qPrio q.2 = p)).map Prod.fst
    match l.find? fun q => decide (tget 16383 s.lastPop p < q) with
    | some q => some q
    | none => l.head?

/-- The running entry right after a pop. -/
def freshRun (raw : List Byte) (readable : Bool) (idx : BitVec 16) (t : BitVec 64) : EntryRun :=
  { raw := raw, readable := readable, idx := idx, tStart := t, started := false, nodes := [], edges := [], handle := 0,
    image := 0, verno := 0, pinned := false, hang := 0, fault := none, checkFailed := false }

/-- The fault of an entry that no packet met. -/
def noPacket (code : Code) : Option EntryFault := some ⟨code, 0xFFFF, 0xFFFFFFFF, 0, []⟩

/-- STATE values of a graph handle (Table 6.20). -/
def ghLive : Nat := 1
def ghRetired : Nat := 2

/-- Pins the current version of a LAUNCH entry (R207 step 1): REFCNT and LAUNCHES rise by 1. -/
def pin (s : State) (q : Nat) (r : List Byte) : State :=
  let x := qCtx (getQueue s q)
  let h := BitVec.ofNat 64 (enAddr r)
  match hubRead s x 2 h 64 .home with
  | ⟨c, hb, s⟩ =>
    if c ≠ St.ok then guilty s q c (noPacket c) false
    else if fieldLe hb 12 1 ≠ ghLive then guilty s q St.cmdReserved (noPacket St.cmdReserved) false
    else
      let img := BitVec.ofNat 64 (fieldLe hb 0 8)
      match hubRead s x 2 (img + 12) 4 .home with
      | ⟨c, rb, s⟩ =>
        if c ≠ St.ok then guilty s q c (noPacket c) false
        else
          match hubWrite s x 2 (img + 12) .both (toLe 4 (leNat rb + 1)) .home with
          | ⟨c, _, s⟩ =>
            if c ≠ St.ok then guilty s q c (noPacket c) false
            else
              match hubWrite s x 2 (h + 16) .both (toLe 8 (fieldLe hb 16 8 + 1)) .home with
              | ⟨c, _, s⟩ =>
                let s := modQueue s q fun k => { k with run := k.run.map fun e =>
                  { e with handle := h, image := img, verno := BitVec.ofNat 32 (fieldLe hb 8 4), pinned := true } }
                if c ≠ St.ok then guilty s q c (noPacket c) false else s

/-- Whether an entry is a launch that passed its checks. -/
def launches (k : Queue) (c : Code) (bs : List Byte) : Bool := decide (c = St.ok) && entryOk k bs && decide (enKind bs = 2)

/-- Whether a launch meets a page on its way at its handle or at the header of the current version (R189). -/
def launchProbe (s : State) (k : Queue) (bs : List Byte) : Bool × State :=
  match hubProbe (qCtx k) [(BitVec.ofNat 64 (enAddr bs), .read)] s with
  | (true, s1) => (true, s1)
  | (false, s1) =>
    match hubRead s1 (qCtx k) 2 (BitVec.ofNat 64 (enAddr bs)) 8 .home with
    | ⟨_, cur, s2⟩ => hubProbe (qCtx k) [(BitVec.ofNat 64 (leNat cur + 12), .read)] s2

/-- The entry read with code `c` is popped: RPTR advances, and the entry runs or is faulty (R188, R189). -/
def popped (s : State) (q : Nat) (k : Queue) (c : Code) (bs : List Byte) : State :=
  let run := freshRun bs (decide (c = St.ok)) k.rptr s.plumb.count
  let s1 := setQueue { s with lastPop := tset 16383 s.lastPop (qPrio k) q } q { k with rptr := k.rptr + 1, run := some run }
  if c ≠ St.ok then guilty s1 q c (noPacket c) false
  else if !entryOk k bs then guilty s1 q St.cmdReserved (noPacket St.cmdReserved) true
  else if launches k c bs then pin s1 q bs
  else s1

/-- QUEUE_POP: the front end reads the entry at RPTR, advances RPTR and checks the entry (R185, R188, R189). While the
package stops or is stopped nothing pops (R411). -/
def execQueuePop (r : Reply) (s : State) : Res :=
  if s.key.stopping || s.key.stopped then .next s
  else
    match popChoice s with
    | none => .next s
    | some q =>
      let k := getQueue s q
      match hubRead s (qCtx k) 2 (BitVec.ofNat 64 (bf k.base 63 12 * 4096 + 64 * (k.rptr.toNat % qSize k))) 64 r with
      | ⟨c, bs, s1⟩ =>
        if c = St.migratePending then .next s1
        else if launches k c bs then
          match launchProbe s1 k bs with
          | (true, s2) => .next s2
          | (false, s2) => .next (popped s2 q k c bs)
        else .next (popped s1 q k c bs)

/-! ## Start of an entry and of its nodes (R190, R207, R208) -/

/-- Buffers that run in the package, of 4,096 (R191). -/
def runningBuffers (s : State) : Nat :=
  (s.queues.map fun q => match q.2.run with
    | none => 0
    | some r => (r.nodes.filter fun n => decide (n.st = .running ∨ n.st = .restarting)).length).sum

/-- A node as it stands before it starts. -/
def pendingNode (idx : Nat) (buf : BitVec 64) (len : Nat) (atOff : BitVec 64) (restart : Bool) : NodeRun :=
  { idx := idx, buf := buf, len := len, atOff := atOff, restart := restart, st := .pending, next := 0, named := 0, posted := 0,
    pkts := [], first := false, redisp := 0, headAt := none }

/-- Node record `i` of an image read at launch (Table 6.22). -/
def nodeFrom (img : List Byte) (i : Nat) : NodeRun :=
  let o := 64 + 32 * i
  pendingNode i (BitVec.ofNat 64 (fieldLe img (o + 8) 8)) (fieldLe img (o + 4) 4) (BitVec.ofNat 64 (fieldLe img (o + 16) 8))
    ((fieldLe img (o + 24) 1).testBit 0)

/-- Edge record `i` of an image with `n` nodes (Table 6.23): FROM, TO and whether it is START. -/
def edgeFrom (img : List Byte) (n i : Nat) : Nat × Nat × Bool :=
  let o := 64 + 32 * n + 8 * i
  (fieldLe img o 2, fieldLe img (o + 2) 2, decide (fieldLe img (o + 4) 1 = 1))

/-- Whether a node may start: every edge into it is met (R207, R208). -/
def nodeMet (r : EntryRun) (n : NodeRun) : Bool :=
  decide (n.st = .pending) && r.edges.all fun e => match e with
    | (a, b, start) =>
      !decide (b = n.idx) || (match r.nodes.find? fun m => m.idx = a with
        | none => true
        | some m => if start then m.first else decide (m.st = .done))

/-- A node that starts; the buffer of a record that its context has overwritten with LEN 0 has no packet and ends at once (R438). -/
def nodeBegun (n : NodeRun) : NodeRun := { nodeFresh n with st := if n.len = 0 then .done else .running }

/-- Starts node `i` while the package has room for its buffer; a node start is a node boundary (R191, R242). -/
def startNode (s : State) (q i : Nat) : State :=
  let start : NodeRun → NodeRun := fun n => if n.idx = i ∧ n.st = .pending then nodeBegun n else n
  let s' := modQueue s q fun k => { k with run := k.run.map fun r => { r with nodes := r.nodes.map start } }
  if runningBuffers s < 4096 then { s' with epochDue := true } else s

/-- ENTRY_START: the constant copy, then the buffer as node 0, or the records of the pinned version (R190, R207). -/
def execEntryStart (q : QId) (r : Reply) (s : State) : Res :=
  let k := getQueue s q.val
  match k.run with
  | none => .next s
  | some e =>
    if e.started || k.resetting then .next s
    else
      let x := qCtx k
      let n := enClen e.raw
      let cst := BitVec.ofNat 64 (bf k.cst 63 12 * 4096)
      match hubRead s x 2 (BitVec.ofNat 64 (enConst e.raw)) n r with
      | ⟨c, bs, s1⟩ =>
        if c = St.migratePending then .next s1
        else if c ≠ St.ok then .next (guilty s1 q.val c (noPacket c) false)
        else
          match hubWrite s1 x 2 cst .write bs .home with
          | ⟨c, _, s2⟩ =>
            if c = St.migratePending then .next s2
            else if c ≠ St.ok then .next (guilty s2 q.val c (noPacket c) false)
            else if enKind e.raw = 1 then
              let nd := pendingNode 0 (BitVec.ofNat 64 (enAddr e.raw)) (enLen e.raw) 0 ((enFlags e.raw).testBit 0)
              .next (startNode (modQueue s2 q.val fun k => { k with run := some { e with started := true, nodes := [nd] } }) q.val 0)
            else
              match hubRead s2 x 2 e.image 64 .home with
              | ⟨c, hd, s3⟩ =>
                if c = St.migratePending then .next s3
                else if c ≠ St.ok then .next (guilty s3 q.val c (noPacket c) false)
                else
                  let nn := fieldLe hd 0 2
                  let ne := fieldLe hd 4 4
                  match hubRead s3 x 2 (e.image + 64) (32 * nn + 8 * ne) .home with
                  | ⟨c, rest, s4⟩ =>
                    if c = St.migratePending then .next s4
                    else if c ≠ St.ok then .next (guilty s4 q.val c (noPacket c) false)
                    else
                      let img := hd ++ rest
                      .next (modQueue s4 q.val fun k => { k with run := some { e with
                        started := true, nodes := (List.range nn).map (nodeFrom img), edges := (List.range ne).map (edgeFrom img nn) } })

/-- NODE_READY: the ready node of the lowest index starts (R207). -/
def execNodeReady (q : QId) (node : Nat) (s : State) : Res :=
  let k := getQueue s q.val
  match k.run with
  | none => .next s
  | some e =>
    if !k.resetting && ((e.nodes.find? (nodeMet e)).map fun n => decide (n.idx = node)).getD false then
      .next (startNode s q.val node)
    else .next s

/-! ## Completion (R205, R207, R209, R214) -/

/-- A fault of a completion step: a RAS event to the context with the queue and the package (R209). (DESIGN CHOICE: log entry 47.) -/
def lateFault (s : State) (q x : Nat) (c : Code) : State :=
  if c = St.ok then s else rasCtx s x c q (unitId s 0 0)

/-- Unpins the version of a launch: REFCNT drops by 1. Gives the image to free when the last launch that holds a version
that is not current, or whose handle is RETIRED, has ended (R205, R206). -/
def unpin (s : State) (q x : Nat) (e : EntryRun) : State × Option (BitVec 64) :=
  if !e.pinned then (s, none)
  else
    match hubRead s x 2 (e.image + 12) 4 .home with
    | ⟨c, rb, s1⟩ =>
      if c ≠ St.ok then (lateFault s1 q x c, none)
      else
        match hubWrite s1 x 2 (e.image + 12) .both (toLe 4 (leNat rb + 2 ^ 32 - 1)) .home with
        | ⟨c, _, s2⟩ =>
          if c ≠ St.ok then (lateFault s2 q x c, none)
          else
            match hubRead s2 x 2 e.handle 64 .home with
            | ⟨c, hb, s3⟩ =>
              if c ≠ St.ok then (s3, none)
              else if leNat rb = 1 ∧ (fieldLe hb 0 8 ≠ e.image.toNat ∨ fieldLe hb 12 1 = ghRetired) then (s3, some e.image)
              else (s3, none)

/-- A VERSION_FREED event (R205). -/
def freedEvent (s : State) (x : Nat) (img : BitVec 64) : State := event s x (eventBytes s 2 St.ok 0xFFFF 0 img 0)

/-- The completion record (Table 6.25). -/
def recordBytes (s : State) (e : EntryRun) (status cause : Code) (f : Option EntryFault) : List Byte :=
  let node := (f.map fun f => f.node.toNat).getD 0xFFFF
  let poff := (f.map fun f => f.poff.toNat).getD 0xFFFFFFFF
  let unit := (f.map fun f => f.unit.toNat).getD 0
  let regs := (f.map fun f => f.regs).getD []
  [status, cause] ++ toLe 2 0 ++ toLe 4 (enTag e.raw) ++ toLe 8 e.tStart.toNat ++ toLe 8 s.plumb.count.toNat ++ toLe 2 e.idx.toNat
    ++ toLe 2 node ++ toLe 4 poff ++ toLe 4 unit ++ (List.range 5).flatMap (fun i => toLe 4 (regs.getD i 0).toNat)
    ++ toLe 4 (if enKind e.raw = 2 then e.verno.toNat else 0) ++ toLe 4 0

/-- The steps of R209: the release flush, the record, the signal and the interrupt. (DESIGN CHOICE: log entry 47.) -/
def completeSteps (s : State) (q x : Nat) (e : EntryRun) (crec sig : Nat) (irq : Bool) (status cause : Code)
    (f : Option EntryFault) : State :=
  let s := flushPass s x
  let s := if crec = 0 then s else match hubWrite s x 2 (BitVec.ofNat 64 crec) .write (recordBytes s e status cause f) .home with
    | ⟨c, _, s⟩ => lateFault s q x c
  let s := if sig = 0 then s else match hubAtomic s x 2 (BitVec.ofNat 64 sig) 8 0 1 0 .home with
    | ⟨c, _, s⟩ => lateFault s q x c
  if irq then interrupt s (bf (getQueue s q).ctl 10 0) else s

/-- The hub accesses that the end of an entry makes. -/
def endAccesses (e : EntryRun) (crec sig : Nat) : List (BitVec 64 × Need) :=
  (if e.pinned then [(e.image + 12, .read), (e.handle, .read)] else [])
    ++ (if crec = 0 then [] else [(BitVec.ofNat 64 crec, .write)]) ++ (if sig = 0 then [] else [(BitVec.ofNat 64 sig, .atomic)])

/-- ENTRY_COMPLETE: with every node complete and no fault, the entry ends with STATUS = OK, once the lines that its release flush
sends to other packages are performed there (R209, R214). -/
def execEntryComplete (q : QId) (s : State) : Res :=
  let k := getQueue s q.val
  match k.run with
  | none => .next s
  | some e =>
    if !(e.started && !k.resetting && e.nodes.all fun n => decide (n.st = .done)) then .next s
    else
      let x := qCtx k
      match hubProbe x (endAccesses e (enCrec e.raw) (enSig e.raw)) s with
      | (true, s1) => .next s1
      | (false, s1) =>
        if backsOut (flushPass s1 x) x then .next (flushPass s1 x)
        else match unpin s1 q.val x e with
        | (s2, freed) =>
          let s3 := completeSteps s2 q.val x e (enCrec e.raw) (enSig e.raw) (enIrq e.raw) St.ok St.ok none
          let s4 := modQueue s3 q.val fun k => { k with run := none }
          .next (match freed with
            | none => s4
            | some img => freedEvent s4 x img)

/-! ## Hang and reset (R212, R215, R216) -/

/-- Whether hang time of an entry counts (R212): a kernel on a core, a WAITMEM waiting, a POOL_ALLOC waiting under WAIT, or
an ENQ retrying. -/
def hangCounts (s : State) (q : Nat) : Bool :=
  (s.gangs.any fun g => decide (g.queue = q) && gangOnCores g)
  || (match (getQueue s q).run with
    | none => false
    | some e => e.nodes.any fun n => n.pkts.any fun p => match p.st with
      | .waiting | .retrying => true
      | _ => false)
  || s.pools.any fun p => p.2.reqs.any fun r => decide (r.queue = q) && r.alloc && r.wait

/-- HANG_DETECT: the hang time of the entry exceeds HANG_MS (R212). -/
def execHangDetect (q : QId) (s : State) : Res :=
  let k := getQueue s q.val
  match k.run with
  | none => .next s
  | some e =>
    let ms := bf k.hang 15 0
    if decide (ms ≠ 0 ∧ ms * 1000000 < e.hang) && !k.resetting then .next (guilty s q.val St.queueGuilty (noPacket St.queueGuilty) false)
    else .next s

/-- Whether the stopped kernels and issued packets of a resetting queue are over (R216 step 7). (DEDUCED: log entry 42.) -/
def resetReady (s : State) (q : Nat) : Bool :=
  let k := getQueue s q
  k.resetting && (s.gangs.all fun g => decide (g.queue ≠ q))
  && (match k.run with
    | none => true
    | some e => e.nodes.all pktsDone)

/-- QUEUE_RESET_FINISH: steps 5 to 9 of R216. (DEDUCED: log entry 42.) -/
def execQueueResetFinish (q : QId) (s : State) : Res :=
  let k := getQueue s q.val
  let x := qCtx k
  if !resetReady s q.val then .next s
  else
    match k.run with
    | none =>
      let s1 := setQueue s q.val { k with rptr := k.wptr, resetting := false }
      .next (event s1 x (eventBytes s1 1 k.cause q.val 0 0 0))
    | some e =>
      let crec := if !e.readable ∨ (e.checkFailed ∧ enCrec e.raw % 64 ≠ 0) then 0 else enCrec e.raw
      let sig := if !e.readable ∨ (e.checkFailed ∧ enSig e.raw % 8 ≠ 0) then 0 else enSig e.raw
      match hubProbe x (endAccesses e crec sig) s with
      | (true, s1) => .next s1
      | (false, s1) =>
        if backsOut (flushPass s1 x) x then .next (flushPass s1 x)
        else match unpin (setQueue s1 q.val { k with rptr := k.wptr }) q.val x e with
        | (s2, freed) =>
          let s3 := completeSteps s2 q.val x e crec sig (e.readable && enIrq e.raw && bt k.ctl 11) St.queueGuilty k.cause e.fault
          let s4 := event s3 x (eventBytes s3 1 k.cause q.val 0 (BitVec.ofNat 64 (if e.readable then enCrec e.raw else 0)) e.idx.toNat)
          let s5 := modQueue s4 q.val fun k => { k with run := none, resetting := false }
          .next (match freed with
            | none => s5
            | some img => freedEvent s5 x img)

end Sys2Proof.Machine
end

