-- ==== Sys2Proof/Machine/SpanRoute.lean ====
section
/-!
DEFINITION. The Span switch: route tables and the routing of packets (R322 to R328), output queues and credits (R314 to R316),
and route epochs (R329 to R332).
-/

namespace Sys2Proof.Machine

/-! ## Plumb source (R342) -/

/-- Whether a port carries flits: HELD or UP. -/
def portLive (s : State) (p : Nat) : Bool :=
  match (getPort s p).st with
  | .held | .up => true
  | .disabled | .training | .retrain | .down | .mismatch => false

/-- Whether the package is the hall root. -/
def plumbRoot (s : State) : Bool := bt s.plumb.cfg 31

/-- The port that the package follows: PARENT while it is HELD or UP, else BACKUP while that is. -/
def plumbPort (s : State) : Option Nat :=
  let live := fun p => decide (p < 18) && portLive s p
  if plumbRoot s then none
  else if live (bf s.plumb.cfg 30 26) then some (bf s.plumb.cfg 30 26)
  else if live (bf s.plumb.cfg 25 21) then some (bf s.plumb.cfg 25 21) else none

/-- The source of the count after a change of ports or of PLUMB_CFG: a root runs on its reference clock, and any other package
without a source is in HOLDOVER (R342). -/
def plumbCheck (s : State) : State :=
  let k := s.plumb
  if !k.running then s
  else if plumbRoot s then withPlumb s { k with holdover := false, src := false, rate := 0 }
  else
    match (if k.stuck then none else plumbPort s) with
    | none => withPlumb s { k with holdover := true, locked := false, rate := 0, goodSince := none, badSince := none }
    | some p => withPlumb s { k with holdover := false, src := decide (p ≠ bf k.cfg 30 26) }

/-- Replaces a port and looks again for the source of the count. -/
def putPort (s : State) (p : Nat) (k : PortSt) : State := plumbCheck (setPort s p k)

/-! ## Packets (Tables 10.10, 10.12, 10.13) -/

/-- Whether a packet is a request: READ, WRITE, ATOMIC or MGMT. -/
def pktIsReq (k : SpanPkt) : Bool := decide (k.op = 0x01 ∨ k.op = 0x02 ∨ k.op = 0x03 ∨ k.op = 0x10)
/-- Whether a packet is a response: RDATA or ACK. -/
def pktIsResp (k : SpanPkt) : Bool := decide (k.op = 0x08 ∨ k.op = 0x09)

/-- The domain and package that a packet is routed toward (R324). -/
def pktDest (k : SpanPkt) : Nat × Nat :=
  if pktIsResp k then (k.srcDom.toNat, k.srcPkg.toNat) else (bf k.addr 57 49, bf k.addr 48 41)

/-- Bytes of a packet with its header and padding (R322). -/
def pktBytes (k : SpanPkt) : Nat := 24 + (k.data.length + 7) / 8 * 8
/-- Credits that a packet takes (R316). -/
def pktCredits (k : SpanPkt) : Nat := (pktBytes k + 63) / 64

/-- Credits of a port for a VC; 32 KiB of buffer are 512. -/
def creditsOf (k : PortSt) (vc : Nat) : Nat := tget 512 k.credits vc

/-- Counts dropped packets at a port. -/
def countDrops (s : State) (p n : Nat) : State :=
  modPort s p fun k => { k with drops := BitVec.ofNat 8 (min 255 (k.drops.toNat + n)) }

/-! ## Routing (R324) -/

/-- Whether a bank is idle: neither active, nor committed, nor draining (R330). -/
def bankIdle (s : State) (b : Bool) : Bool := decide (b ≠ s.span.actep) && !s.span.pend && s.span.drainFrom.isNone

/-- What routing makes of a packet. -/
inductive Route where
  | deliver
  | drop
  | none
  | out (port : Nat) (vcup : Bool)
deriving DecidableEq, Repr

/-- Whether a port is UP. -/
def isUp (s : State) (p : Nat) : Bool := decide ((getPort s p).st = .up)

/-- The routing procedure of R324. -/
def routeOf (s : State) (k : SpanPkt) : Route :=
  match pktDest k with
  | (d, p) =>
    if bankIdle s k.ep then .drop
    else if d = ownDomain s ∧ p = ownPackage s then .deliver
    else if d = ownDomain s then
      let e := drouteAt s k.ep p
      if !drouteOk e then .none
      else .out (if !isUp s (bf e 29 25) ∧ bf e 24 20 ≠ 0x1F then bf e 24 20 else bf e 29 25) (bt e 30)
    else
      let e := hrouteAt s k.ep d
      if !hrouteOk e then .none
      else
        let up := (ways e).filter fun w => decide (w ≤ 17) && isUp s w
        let w0 := (ways e).getD k.path.toNat 0x1F
        let port := if w0 ≤ 17 ∧ isUp s w0 then w0
          else match up with
            | w :: _ => w
            | [] => if w0 ≤ 17 then w0 else bf e 29 25
        .out port (bt e 30)

/-! ## Flits (R313, R314) -/

/-- The bytes of a packet on the link: its header (Table 10.12), and its data padded with zeros (R322). -/
def pktWire (k : SpanPkt) : List Byte :=
  [k.op, BitVec.ofNat 8 (k.vc.toNat + 8 * k.path.toNat + 32 * bit k.ep), k.lenM1, BitVec.ofNat 8 (k.func.toNat + 16 * bit k.asz)]
    ++ toLe 4 (k.tag.toNat + 2 ^ 18 * k.ctx.toNat) ++ toLe 4 (k.srcPkg.toNat + 2 ^ 8 * k.srcDom.toNat + 2 ^ 17 * k.status.toNat)
    ++ toLe 4 0 ++ toLe 8 k.addr.toNat ++ k.data ++ List.replicate (pktBytes k - 24 - k.data.length) 0

/-- The generator of ECMA-182. -/
def crcPoly : BitVec 64 := 0x42F0E1EBA9EA3693

/-- One step of the CRC-64 of a flit, over a bit, and over a byte. -/
def crcBit (c : BitVec 64) : BitVec 64 := if c.msb then (c <<< 1) ^^^ crcPoly else c <<< 1
def crcByte (c : BitVec 64) (b : Byte) : BitVec 64 := (List.range 8).foldl (fun c _ => crcBit c) (c ^^^ (b.setWidth 64 <<< 56))

/-- The CRC of bytes 0 to 247 of a flit (R313); each byte enters with its highest bit first. (DESIGN CHOICE: log entry 40.) -/
def flitCrc (bs : List Byte) : BitVec 64 := ~~~ (bs.foldl crcByte (BitVec.allOnes 64))

/-- The VC whose credits the next flit returns, and how many (R316): the lowest that owes any. (DESIGN CHOICE: log entry 40.) -/
def credOut (k : PortSt) : Nat × Nat :=
  match (List.range 8).find? fun v => decide (0 < tget 0 k.owed v) with
  | some v => (v, min 7 (tget 0 k.owed v))
  | none => (0, 0)

/-- The header of a flit that leaves at count `cnt` (Table 10.9). -/
def flitHdr (k : PortSt) (cnt : BitVec 64) (seq : BitVec 16) (empty : Bool) : BitVec 64 :=
  BitVec.ofNat 64 (seq.toNat * 2 ^ 48 + (k.rxNext - 1).toNat * 2 ^ 32 + bit k.rxNak * 2 ^ 31 + bit empty * 2 ^ 30
    + (credOut k).1 * 2 ^ 27 + (credOut k).2 * 2 ^ 24 + (cnt.toNat % 2 ^ 20 * 16 + (Config.flitPart cnt).toNat))

/-- Sends one flit: the credits that it returns are no longer owed. -/
def sendFlit (cnt : BitVec 64) (k : PortSt) (seq : BitVec 16) (empty : Bool) (bs : List Byte) : PortSt :=
  let hdr := flitHdr k cnt seq empty
  let body := bs ++ (List.range (240 - bs.length)).map (Config.flitFill seq)
  { k with sent := k.sent ++ [⟨hdr, body, flitCrc (toLe 8 hdr.toNat ++ body)⟩],
           owed := tset 0 k.owed (credOut k).1 (tget 0 k.owed (credOut k).1 - (credOut k).2) }

/-- Sends an EMPTY flit: it takes the SEQ of the next flit, and is not kept (R314). (DESIGN CHOICE: log entry 40.) -/
def sendEmpty (cnt : BitVec 64) (k : PortSt) : PortSt := sendFlit cnt k k.txNext true []

/-- The packets with the offset in the stream at which each ends. -/
def endsOf : Nat → List SpanPkt → List (SpanPkt × Nat)
  | _, [] => []
  | n, p :: t => (p, n + pktBytes p) :: endsOf (n + pktBytes p) t

/-- The flits that carry packets back to back, from SEQ `seq` on (R313). -/
def flitsOf (seq : BitVec 16) (ps : List SpanPkt) : List Flit :=
  let bs := ps.flatMap pktWire
  let ends := endsOf 0 ps
  (List.range ((bs.length + 239) / 240)).map fun i =>
    ⟨seq + BitVec.ofNat 16 i, 0, slice bs (240 * i) (min 240 (bs.length - 240 * i)),
     (ends.filter fun e => decide (240 * i < e.2 ∧ e.2 ≤ 240 * i + 240)).map Prod.fst⟩

/-- Sends flits of the retry buffer. -/
def sendFlits (cnt : BitVec 64) (k : PortSt) (fs : List Flit) : PortSt := fs.foldl (fun k f => sendFlit cnt k f.seq false f.body) k

/-- Sends packets as new flits, which are kept for replay (R313, R315). (DESIGN CHOICE: log entry 40.) -/
def transmit (cnt : BitVec 64) (k : PortSt) (ps : List SpanPkt) : PortSt :=
  let fs := flitsOf k.txNext ps
  let k1 := sendFlits cnt k fs
  { k1 with txNext := k.txNext + BitVec.ofNat 16 fs.length, retry := k.retry ++ fs }

/-! ## Output queues (R316) -/

/-- Whether an output may send a packet now, `n` bytes of others going before it: UP, not held, with credits and room in the
retry buffer. -/
def maySend (k : PortSt) (n : Nat) (p : SpanPkt) : Bool :=
  decide (k.st = .up) && !k.holding && decide (pktCredits p ≤ creditsOf k p.vc.toNat)
  && decide (k.retry.length + (n + pktBytes p + 239) / 240 ≤ 4096)

/-- The VCs in the order in which an output serves them: responses before requests. (DESIGN CHOICE: log entry 39.) -/
def vcOrder : List Nat := [2, 3, 6, 7, 0, 1, 4, 5]

/-- The inputs in the order in which an output serves them for a VC: round robin after the one served last. -/
def inOrder (k : PortSt) (vc : Nat) : List Nat := (List.range 19).map fun i => (tget 18 k.rr vc + 1 + i) % 19

/-- The position of the oldest packet of a VC and an input in an output queue. -/
def oldestOf (k : PortSt) (vc inp : Nat) : Option Nat := k.outq.findIdx? fun e => decide (e.1.vc.toNat = vc ∧ e.2.2 = inp)

/-- The position of the packet that an output sends next. -/
def nextOut (k : PortSt) (n : Nat) : Option Nat :=
  (vcOrder.flatMap fun vc => (inOrder k vc).filterMap (oldestOf k vc)).find? fun i => ((k.outq[i]?).map fun e => maySend k n e.1).getD false

/-- Takes the packets that an output may send out of its queue, in the order in which it sends them: `n` is the number of
their bytes so far. (DESIGN CHOICE: log entry 39.) -/
def gather : Nat → PortSt → Nat → List SpanPkt → PortSt × List SpanPkt
  | 0, k, _, ps => (k, ps)
  | f + 1, k, n, ps =>
    match nextOut k n with
    | none => (k, ps)
    | some i => match k.outq[i]? with
      | none => (k, ps)
      | some (p, _, inp) =>
        gather f { k with outq := k.outq.eraseIdx i, rr := tset 18 k.rr p.vc.toNat inp,
                          credits := tset 512 k.credits p.vc.toNat (creditsOf k p.vc.toNat - pktCredits p) } (n + pktBytes p) (ps ++ [p])

/-- Sends what an output may send. -/
def pump (cnt : BitVec 64) (k : PortSt) : PortSt :=
  match gather k.outq.length k 0 [] with
  | (k1, ps) => transmit cnt k1 ps

/-- Sends what an output may send, of a port. -/
def pumpPort (s : State) (p : Nat) : State := modPort s p (pump s.plumb.count)

/-- Puts a packet into an output queue: it came by input `inp`, and waits at this package since `t`. -/
def enqueueOn (s : State) (p : Nat) (k : SpanPkt) (t inp : Nat) : State :=
  pumpPort (modPort s p fun o => { o with outq := o.outq ++ [(k, t, inp)] }) p

/-- Returns the credits of a packet that has left the receive buffer of a port, with an EMPTY flit where the port may send
one (R314, R316). -/
def creditBack (s : State) (p : Nat) (k : SpanPkt) : State :=
  modPort s p fun o =>
    let o1 := { o with owed := tset 0 o.owed k.vc.toNat (tget 0 o.owed k.vc.toNat + pktCredits k) }
    match o.st with
    | .held | .up => if o.holding then o1 else sendEmpty s.plumb.count o1
    | _ => o1

/-- A packet with its VC after an entry with VCUP. -/
def raiseVc (k : SpanPkt) (vcup : Bool) : SpanPkt := if vcup then { k with vc := k.vc ||| 1 } else k

/-- A port has left UP: its flits kept for replay and its queued packets go on by another route, or stay queued (R328); each has
waited at this package since it came. -/
def leaveUp (s : State) (p : Nat) : State :=
  let k := getPort s p
  let ps := ((k.retry.flatMap fun f => f.pkts).filter fun x => decide (x.op ≠ 0x11)).map (fun x => (x, s.now, 18)) ++ k.outq
  let s1 := setPort s p { k with retry := [], outq := [], holding := false, leaving := [], pendLeave := [] }
  let s2 := forEach s1 ps fun s e => match routeOf s e.1 with
    | .out q up => enqueueOn s q (raiseVc e.1 up) e.2.1 e.2.2
    | .drop => countDrops s p 1
    | .none => modPort s p fun o => { o with outq := o.outq ++ [e] }
    | .deliver => withSpan s { s.span with delivered := s.span.delivered ++ [e.1] }
  ras s2 St.linkDegraded 3 (unitId s2 0xB p) 0

/-! ## Routing of a packet (R324 to R327, R335) -/

/-- The source of a request as R335 tells sources apart: a sequencer, a DMA channel, and whoever else issues requests, by kind
and number. -/
def sourceOf : RemUser → Nat × Nat
  | .seq c _ => (0, c.val)
  | .store c _ _ => (0, c.val)
  | .dma c ch _ => (1, 4 * c.val + ch.val)
  | .send m => (2, m)
  | .mason _ _ => (3, 0)
  | .wback x => (4, x)
  | .answered => (5, 0)

/-- The request of a packet that this package issued, while it waits for its response. -/
def reqOf (s : State) (k : SpanPkt) : Option RemReq :=
  if pktIsReq k then s.span.reqs.find? fun r => r.tag = k.tag else none

/-- Whether two requests are of one source and one destination package whose order counts (R335): any two at domain level, two
WRITEs, which are a put stream, at hall level. -/
def sameStream (s : State) (r q : RemReq) : Bool :=
  decide (sourceOf r.user = sourceOf q.user ∧ pktDest r.pkt = pktDest q.pkt)
  && (decide ((pktDest r.pkt).1 = ownDomain s) || decide (r.pkt.op = 0x02 ∧ q.pkt.op = 0x02))

/-- The way that a hall packet takes at its source (R326): that of its put stream while a WRITE of it is out, else the way
whose queue holds the fewest bytes, the lower on a tie. -/
def choosePath (s : State) (k : SpanPkt) : BitVec 2 :=
  match pktDest k with
  | (d, _) =>
    if d = ownDomain s then 0
    else
      match (reqOf s k).bind fun m => if k.op = 0x02 then s.span.reqs.find? fun r => r.port.isSome && sameStream s r m else none with
      | some r => r.pkt.path
      | none =>
        let e := hrouteAt s s.span.actep d
        let load : Nat → Nat := fun w => (((getPort s w).outq.map fun q => pktBytes q.1).sum)
        let best := ((List.range 4).filter fun i => decide ((ways e).getD i 0x1F ≤ 17)).foldl (fun (b : Option Nat) i =>
          match b with
          | none => some i
          | some j => if load ((ways e).getD i 0x1F) < load ((ways e).getD j 0x1F) then some i else some j) none
        BitVec.ofNat 2 (best.getD 0)

/-- Whether an earlier request of the same pair, or of the same put stream at hall level, left by another route and has not
been answered (R327): another output, another way, or another route bank. -/
def routeHeld (s : State) (k : SpanPkt) (port : Nat) : Bool :=
  match reqOf s k with
  | none => false
  | some m => s.span.reqs.any fun r =>
    decide (r.tag ≠ k.tag) && sameStream s r m && (match r.port with
      | none => false
      | some q => decide (q ≠ port ∨ r.pkt.ep ≠ k.ep ∨ r.pkt.path ≠ k.path))

/-- Whether an earlier request of the same source and destination still waits to be injected, so that this one waits behind
it (R335). -/
def behind (s : State) (k : SpanPkt) : Bool :=
  match reqOf s k with
  | none => false
  | some m => (s.span.sent.takeWhile fun e => decide (e.1 ≠ k)).any fun e => ((reqOf s e.1).map fun r => sameStream s r m).getD false

/-- A packet of this package that has waited since `t` leaves the list of those that wait. -/
def unsent (s : State) (e : SpanPkt × Nat) : State := withSpan s { s.span with sent := s.span.sent.erase e }

/-- Injects a packet of this package, or leaves it waiting for a route (R31, R324, R332, R335, R336). (DESIGN CHOICE: log entry 39.) -/
def inject (s : State) (e : SpanPkt × Nat) : State :=
  let k := e.1
  let gone := unsent s e
  if !(s.span.routeEn && bt s.span.id 31 && !s.key.hubIsolated) || behind s k then s
  else
    let k1 := { k with ep := s.span.actep, path := choosePath s k }
    match routeOf s k1 with
    | .deliver => withSpan gone { gone.span with delivered := gone.span.delivered ++ [k1] }
    | .none | .drop => s
    | .out p up =>
      if routeHeld s k1 p then s
      else
        let mark : RemReq → RemReq := fun r => if r.tag = k.tag ∧ pktIsReq k = true then { r with pkt := k1, port := some p } else r
        let s1 := withSpan gone { gone.span with reqs := gone.span.reqs.map mark }
        enqueueOn s1 p (raiseVc k1 up) e.2 18

/-- Routes a packet received on port `p`, whose buffer is free again (R316, R323, R324). (DEDUCED: log entry 38.) -/
def forward (s : State) (p : Nat) (e : SpanPkt × Nat) : State :=
  let k := e.1
  let s1 := creditBack (modPort s p fun o => { o with inbox := o.inbox.erase e }) p k
  if !(s.span.routeEn && (pktIsReq k || pktIsResp k)) then countDrops s1 p 1
  else
    match routeOf s1 k with
    | .deliver => if s1.key.hubIsolated then countDrops s1 p 1
      else withSpan s1 { s1.span with delivered := s1.span.delivered ++ [k] }
    | .drop | .none => countDrops s1 p 1
    | .out q up => enqueueOn s1 q (raiseVc k up) e.2 p

/-- PACKET_ROUTE of a packet that this package issued, or that a port received. (DEDUCED: log entry 38.) -/
def execPacketRoute (src : Option Port) (k : SpanPkt) (s : State) : Res :=
  match src with
  | none => .next (match s.span.sent.find? fun e => decide (e.1 = k) with
    | some e => inject s e
    | none => s)
  | some p => .next (match (getPort s p.val).inbox.find? fun e => decide (e.1 = k) with
    | some e => forward s p.val e
    | none => s)

/-- PACKET_STALE_DROP: a packet has waited more than 5 ms at this package (R325); one that waits at its source for a route has no
port whose DROPS would count it. (DEDUCED: log entry 38.) -/
def execPacketStaleDrop (w : WaitAt) (i : Nat) (s : State) : Res :=
  match w with
  | .out p =>
    match (getPort s p.val).outq[i]? with
    | none => .next s
    | some e =>
      if e.2.1 + 5000000 < s.now then .next (countDrops (modPort s p.val fun k => { k with outq := k.outq.eraseIdx i }) p.val 1)
      else .next s
  | .inbox p =>
    match (getPort s p.val).inbox[i]? with
    | none => .next s
    | some e =>
      if e.2 + 5000000 < s.now then
        .next (countDrops (creditBack (modPort s p.val fun k => { k with inbox := k.inbox.eraseIdx i }) p.val e.1) p.val 1)
      else .next s
  | .source =>
    match s.span.sent[i]? with
    | none => .next s
    | some e => if e.2 + 5000000 < s.now then .next (unsent s e) else .next s

/-! ## Route epochs and control (R307, R312, R329 to R332, R339) -/

/-- Every HELD port becomes UP (R329, R331). -/
def joinPorts (s : State) : State :=
  forEach s (List.range 18) fun s p => if (getPort s p).st = .held then pumpPort (modPort s p fun k => { k with st := .up }) p else s

/-- A switch: ACTEP flips, PEND clears and the old bank drains. -/
def switchRoutes (s : State) : State :=
  joinPorts (withSpan s { s.span with actep := !s.span.actep, pend := false, drainFrom := some s.now })

/-- A write of 1 to SPAN_RCTL GO (R329). -/
def routeGoWrite (s : State) : State :=
  if s.span.rtbusy then s
  else
    let s1 := withSpan s { s.span with pend := true, rtbusy := true }
    if s.span.rat ≤ s.plumb.count then switchRoutes s1 else s1

/-- ROUTE_GO. -/
def execRouteGo (view : View) (s : State) : Res := .next (if isDriver s view then routeGoWrite s else s)

/-- ROUTE_SWITCH: the sampled count has reached AT. -/
def execRouteSwitch (s : State) : Res := .next (if s.span.pend ∧ s.span.rat ≤ s.plumb.count then switchRoutes s else s)

/-- ROUTE_DRAIN_END: 25 ms after the switch the old bank is idle (R330). -/
def execRouteDrainEnd (s : State) : Res :=
  match s.span.drainFrom with
  | none => .next s
  | some t => if t + 25000000 ≤ s.now then .next (withSpan s { s.span with rtbusy := false, drainFrom := none }) else .next s

/-- A write of ROUTE_EN (R331, R332). -/
def routeEnSet (s : State) (en : Bool) : State :=
  if en = s.span.routeEn then s
  else if en then
    if bt s.span.id 31 then joinPorts (withSpan s { s.span with routeEn := true }) else s
  else
    forEach (withSpan s { s.span with routeEn := false }) (List.range 18) fun s p =>
      let n := (getPort s p).outq.length + (getPort s p).inbox.length
      let s1 := forEach s ((getPort s p).inbox.map Prod.fst) fun s k => creditBack s p k
      countDrops (modPort s1 p fun k => { k with outq := [], inbox := [] }) p n

/-- ROUTE_EN_WRITE. (DEDUCED: log entry 38.) -/
def execRouteEnWrite (view : View) (en : Bool) (s : State) : Res := .next (if isDriver s view then routeEnSet s en else s)

/-- A write of PROTO_ACT (Table 10.16). -/
def protoSet (s : State) (v : BitVec 8) : State :=
  if v = s.span.protoImpl ∨ v = s.span.protoImpl - 1 then withSpan s { s.span with protoAct := v } else s

/-- PROTO_ACT_WRITE. -/
def execProtoActWrite (view : View) (v : BitVec 8) (s : State) : Res := .next (if isDriver s view then protoSet s v else s)

/-- A write of SPAN_ID, ignored while ROUTE_EN = 1 (R307). -/
def spanIdSet (s : State) (v : BitVec 32) : State :=
  if s.span.routeEn then s else withSpan s { s.span with id := v &&& 0x81FF00FF }

/-- SPAN_ID_WRITE. -/
def execSpanIdWrite (view : View) (v : BitVec 32) (s : State) : Res := .next (if isDriver s view then spanIdSet s v else s)

end Sys2Proof.Machine
end

