-- ==== Sys2Proof/Machine/SpanReq.lean ====
section
/-!
DEFINITION. Requests between packages at their ends (R333 to R337): service at the home, responses and timeouts.
-/

namespace Sys2Proof.Machine

/-! ## Completion at the source -/

/-- Completes a request that left the package for its user with a code and data (R337, R353); `span` says that its home is another
package, whose refusal is recorded (R258). (DEDUCED: log entry 72.) -/
def completeUser (s : State) (user : RemUser) (span : Bool) (code : Code) (data : List Byte) : State :=
  match user with
  | .seq c id =>
    match (getCore s c.val).accs.find? fun a => a.id = id with
    | none => s
    | some a => completeAcc s c.val a (if code = St.ok then .ok data else .fail code)
  | .store c pc va =>
    if code = St.ok then s
    else
      let s1 := if code = St.ctxDenied ∧ span then xfault s (getCore s c.val).ctx code 4 .write 0 c.val va else s
      modCore s1 c.val fun k => kernelFault k code 2 0 pc va
  | .dma c ch va =>
    if code = St.ok then s
    else
      let s1 := if code = St.ctxDenied ∧ span then xfault s (getCore s c.val).ctx code 4 .write 1 c.val va else s
      chanFault s1 c.val ch.val code va
  | .send m => startedDone s m code 0 (if code = St.ok then data else [])
  | .mason write a =>
    if write then (if code = St.ok then s else ras s code 5 (unitId s 0 0) a)
    else withHost s { s.host with masonData := if code = St.ok then data else [], masonFault := decide (code ≠ St.ok) }
  | .wback _ | .answered => s

/-- Completes a remote request: it leaves the list, and a code other than OK is that of its user (R336, R337). -/
def completeRemote (s : State) (r : RemReq) (code : Code) (data : List Byte) : State :=
  let s1 := withSpan s { s.span with
    reqs := s.span.reqs.filter fun x => x.tag ≠ r.tag, sent := s.span.sent.filter fun e => ¬ (e.1.tag = r.tag ∧ pktIsReq e.1 = true) }
  completeUser s1 r.user true code data

/-- Takes a delivered packet out of the list. -/
def takeDelivered (s : State) (k : SpanPkt) : State := withSpan s { s.span with delivered := s.span.delivered.erase k }

/-! ## Service at the home (R337) -/

/-- Reads a run of bytes at the home for a request of context `x`, line by line; the first failing line gives the code. -/
def serveRead (x : Nat) : List (Nat × Nat) → State → List Byte → Code × List Byte × State
  | [], s, acc => (St.ok, acc, s)
  | (o, n) :: t, s, acc =>
    match hereRead s hubDie false x o n false with
    | (c, bs, s1) => if c ≠ St.ok then (c, [], s1) else serveRead x t s1 (acc ++ bs)

/-- Writes a run of bytes at the home, line by line. -/
def serveWrite (x : Nat) : List (Nat × Nat) → State → List Byte → Code × State
  | [], s, _ => (St.ok, s)
  | (o, n) :: t, s, bs =>
    match hereWrite s hubDie false x o (bs.take n) false with
    | (c, s1) => if c ≠ St.ok then (c, s1) else serveWrite x t s1 (bs.drop n)

/-- The code of the first check that a request's lines fail at the home; nothing is changed when one fails. -/
def serveCheck (s : State) (x o n : Nat) : Code :=
  match (pieces 64 (n / 64 + 2) o n).find? fun p => decide (hereCheck s hubDie false x p.1 ≠ St.ok) with
  | some p => hereCheck s hubDie false x p.1
  | none => St.ok

/-- The effect of a request at its home: STATUS, the data of the response, and the state. -/
def serve (s : State) (k : SpanPkt) : Code × List Byte × State :=
  let o := bf k.addr 40 0
  let x := k.ctx.toNat
  if k.op = 0x01 then
    let n := k.lenM1.toNat + 1
    let c := serveCheck s x o n
    if c ≠ St.ok then (c, [], s) else serveRead x (pieces 64 (n / 64 + 2) o n) s []
  else if k.op = 0x02 then
    let c := serveCheck s x o k.data.length
    if c ≠ St.ok then (c, [], s)
    else match serveWrite x (pieces 64 (k.data.length / 64 + 2) o k.data.length) s k.data with
      | (c, s1) => (c, [], s1)
  else
    let n := if k.asz then 8 else 4
    match hereAtomic s hubDie x o n k.func.toNat (fieldLe k.data 0 n) (fieldLe k.data 8 n) false with
      | (c, old, s1) => if c = St.ok then (c, toLe 8 old, s1) else (c, [], s1)

/-- The response to a request (R322). (DEDUCED: log entry 72.) -/
def responseTo (s : State) (k : SpanPkt) (code : Code) (data : List Byte) : SpanPkt :=
  { op := if k.op = 0x02 ∨ (k.op = 0x10 ∧ fieldLe k.data 2 1 = 1) then 0x09 else 0x08,
    vc := if k.srcDom.toNat = ownDomain s then 2 else 6, path := 0, ep := s.span.actep,
    lenM1 := if data = [] then 0 else BitVec.ofNat 8 (data.length - 1), func := 0, asz := false, tag := k.tag, ctx := k.ctx,
    srcPkg := k.srcPkg, srcDom := k.srcDom, status := code, addr := 0, data := data }

/-- Hands a response to the switch. (DEDUCED: log entry 72.) -/
def respond (s : State) (k : SpanPkt) (code : Code) (data : List Byte) : State :=
  withSpan s { s.span with sent := s.span.sent ++ [(responseTo s k code data, s.now)] }

/-- Whether a packet asks for service at a home. -/
def asksHome (k : SpanPkt) : Bool := decide (k.op = 0x01 ∨ k.op = 0x02 ∨ k.op = 0x03)

/-- Whether an earlier delivered request of the same package goes first (R335): any one of this domain, and of two WRITEs of a
package of another. The home cannot tell the sources of a package apart. (DESIGN CHOICE: log entry 39.) -/
def servedAfter (s : State) (k : SpanPkt) : Bool :=
  (s.span.delivered.takeWhile fun x => decide (x ≠ k)).any fun x =>
    asksHome x && decide (x.srcDom = k.srcDom ∧ x.srcPkg = k.srcPkg ∧ (k.srcDom.toNat = ownDomain s ∨ (x.op = 0x02 ∧ k.op = 0x02)))

/-- REMOTE_REQUEST_SERVE of a delivered READ, WRITE or ATOMIC; an access to a held channel waits (R411). (DESIGN CHOICE: log entry 78.) -/
def execRemoteRequestServe (k : SpanPkt) (s : State) : Res :=
  if !(s.span.delivered.contains k && asksHome k) || servedAfter s k || chanHeld s (bf k.addr 40 0) then .next s
  else match serve (takeDelivered s k) k with
    | (c, d, s1) => .next (respond s1 k c d)

/-- Whether a response carries a STATUS of R337. -/
def statusKnown (c : Code) : Bool := decide (c = St.ok ∨ (spanFail c = c ∧ c ≠ St.remoteTimeout))

/-- REMOTE_RESPONSE: a delivered response completes its request; one that comes later, or whose STATUS is none of R337, is
discarded (R11, R336, R337). -/
def execRemoteResponse (k : SpanPkt) (s : State) : Res :=
  if !(s.span.delivered.contains k && pktIsResp k) then .next s
  else
    let s1 := takeDelivered s k
    match s1.span.reqs.find? fun r => r.tag = k.tag with
    | none => .next s1
    | some r => .next (if statusKnown k.status then completeRemote s1 r k.status k.data else s1)

/-- REMOTE_TIMEOUT of a request by its tag (R336). -/
def execRemoteTimeout (tag : BitVec 18) (s : State) : Res :=
  match s.span.reqs.find? fun r => r.tag = tag with
  | none => .next s
  | some r => if r.issued + levelTimeout r.hall ≤ s.now then .next (completeRemote s r St.remoteTimeout []) else .next s

end Sys2Proof.Machine
end

