-- ==== Sys2Proof/Machine/Keystone.lean ====
section
/-!
DEFINITION. Keystone: the arbitration slot and page accesses (R400, R404, R406, R421), and the end of an update of the persistent
store (R394, R395, R413).
-/

namespace Sys2Proof.Machine

/-- Whether Keystone runs: released, and not halted by the debug port. -/
def keystoneRuns (s : State) : Bool := decide (1 ≤ s.rst.stage) && !s.key.halted

/-- MB_GO: an 8-byte write of MB_CMD by the agent of a mailbox. -/
def execMbGo (m : Mb) (v : BitVec 64) (s : State) : Res :=
  .next (if 1 ≤ s.rst.stage then setMbox s m.val (mbCmdWrite (getMbox s m.val) v) else s)

/-- MB_RAS_RPTR_WRITE. -/
def execMbRasRptrWrite (m : Mb) (v : BitVec 16) (s : State) : Res :=
  .next (if 1 ≤ s.rst.stage then setMbox s m.val (rptrWrite (getMbox s m.val) v.toNat) else s)

/-- Whether a slot may begin: slots lie 10 µs apart from the first that took an order (R404). (DESIGN CHOICE: log entry 31.) -/
def slotDue (s : State) : Bool :=
  match s.key.slotAt with
  | none => true
  | some t => decide (t < s.now) && decide ((s.now - t) % 10000 = 0)

/-- ARBITRATION_SLOT: at a slot every order that may be taken, M3 first, forms the batch (R404). -/
def execArbitrationSlot (s : State) : Res :=
  if !keystoneRuns s ∨ s.key.handover ∨ s.key.batch ≠ [] ∨ !slotDue s then .next s
  else
    let ms := [3, 2, 1, 0].filter (mayTake s)
    if ms = [] then .next s
    else .next (settleBatch (forEach (withKey s { s.key with slotAt := some s.now }) ms takeOrder))

/-- The words of a MGMT write, in increasing offset. (DEDUCED: log entry 36.) -/
def mgmtWrite (k : Mbox) (off : Nat) : List Nat → List Byte → Mbox
  | [], _ => k
  | i :: t, d => mgmtWrite (mbWrite8 k (off + 8 * i) (BitVec.ofNat 64 (fieldLe d (8 * i) 8))) off t d

/-- The first MGMT packet that has been delivered. -/
def firstMgmt (s : State) : Option SpanPkt := s.span.delivered.find? fun p => decide (p.op = 0x10)

/-- MGMT_ACCESS: a delivered packet performs one access to the M3 page and is answered, in arrival order (R406). (DEDUCED: log entry 36.) -/
def execMgmtAccess (k : SpanPkt) (s : State) : Res :=
  if !(decide (firstMgmt s = some k) && keystoneRuns s) then .next s
  else
    let s1 := takeDelivered s k
    let off := fieldLe k.data 0 2
    let op := fieldLe k.data 2 1
    let n := fieldLe k.data 3 1
    if 1 < op ∨ n = 0 ∨ 31 < n ∨ 0x1000 < off + 8 * n ∨ off % 8 ≠ 0 then .next (respond s1 k St.unsupported [])
    else if op = 0 then .next (respond s1 k St.ok (mbRead (getMbox s1 3) off (8 * n)))
    else .next (respond (setMbox s1 3 (mgmtWrite (getMbox s1 3) off (List.range n) (k.data.drop 8))) k St.ok [])

/-! ## The persistent store (R394, R395) -/

/-- The flash offset of the record that an update writes (Table 15.5). -/
def storeOffset (op : StoreOp) : Nat :=
  match op with
  | .journal _ => 0x2000000
  | .settings false _ => 0x2020000
  | .settings true _ => 0x2060000
  | .cal _ => 0x20A0000
  | .units _ => 0x20C0000

/-- The new copy of a record is complete. -/
def storeWrite (p : StoreSt) (op : StoreOp) : StoreSt :=
  match op with
  | .journal j => { p with journal := fillCopy p.journal j }
  | .settings false r => { p with setA := fillCopy p.setA r }
  | .settings true r => { p with setB := fillCopy p.setB r }
  | .cal c => { p with cal := fillCopy p.cal c }
  | .units u => { p with units := fillCopy p.units u }

/-- Completes the order that waited for an update. A live FW.ACTIVATE whose journal is written goes on to its handover at the
batch boundary (R413). -/
def orderOfUpdate (s : State) (order : Option Nat) : State :=
  match order with
  | none => s
  | some m =>
    match s.key.batch with
    | o :: _ =>
      if o.mb = m ∧ o.busy ∧ o.group = 7 ∧ o.verb = 3 ∧ arg o 0 1 = 1 then
        settleOrder { o with busy := false } ⟨s, .started false, o.wrote⟩
      else orderStored s m true
    | [] => orderStored s m true

/-- A journal that names the running trial slot as committed ends the trial, and the converted settings follow (R413). -/
def journalWritten (s : State) (j : Journal) (order : Option Nat) : State :=
  if s.key.trial ∧ j.trial = none ∧ j.committed = s.rst.slot then
    pushSettings (withKey s { s.key with trial := false, autoAt := none }) s.key.sets order
  else orderOfUpdate s order

/-- STORE_UPDATE_DONE: the update in progress completes, or fails after its retry; the next one begins. A failed update of
Keystone's own is reported with the flash offset of its record. -/
def execStoreUpdateDone (ok : Bool) (s : State) : Res :=
  match s.store.pend with
  | [] => .next s
  | u :: rest =>
    let p := if ok then storeWrite s.store u.op else s.store
    let s1 := withStore s (storeBegin { p with pend := rest })
    if !ok then
      .next (match u.order with
        | some m => orderStored s1 m false
        | none => ras s1 St.ok 6 (unitId s1 0 0) (storeOffset u.op))
    else
      .next (match u.op with
        | .journal j => journalWritten s1 j u.order
        | .settings b r =>
          orderOfUpdate (if b = s1.rst.slot then withKey s1 { s1.key with sets := r.val } else s1) u.order
        | .cal _ | .units _ => orderOfUpdate s1 u.order)

end Sys2Proof.Machine
end

