-- ==== Sys2Proof/Machine/Debug.lean ====
section
/-!
DEFINITION. The I3C sideband of mailbox M0 (R430, R431) and the debug port (R434).
-/

namespace Sys2Proof.Machine

/-! ## I3C -/

/-- DYNAMIC_ADDRESS_ASSIGNMENT: the target acknowledges from release step 1 on. -/
def execDynamicAddressAssignment (a : BitVec 7) (s : State) : Res :=
  .next (if 1 ≤ s.rst.stage then withPins s { s.pins with i3cAddr := some a } else s)

/-- The bytes of a private write as accesses to the page: aligned 8 bytes at offset 0 are one access to MB_CMD, other aligned words are
4-byte accesses, and a word covered only in part is dropped. -/
def i3cWords : Nat → Nat → List Byte → Mbox → Mbox
  | 0, _, _, k => k
  | n + 1, off, d, k =>
    if d = [] ∨ 0x1000 ≤ off then k
    else if off % 4 ≠ 0 then i3cWords n (off + (4 - off % 4)) (d.drop (4 - off % 4)) k
    else if d.length < 4 then k
    else if off = 0 ∧ 8 ≤ d.length then i3cWords n 8 (d.drop 8) (mbWrite8 k 0 (BitVec.ofNat 64 (leNat (d.take 8))))
    else i3cWords n (off + 4) (d.drop 4) (mbWrite4 k off (BitVec.ofNat 32 (leNat (d.take 4))))

/-- The in-band interrupts that were pending have been taken, 0x01 first, when the controller starts a private transfer. (DESIGN CHOICE: log entry 65.) -/
def ibiTaken (s : State) : State := withPins s { s.pins with ibi := [] }

/-- I3C_PRIVATE_WRITE: a 2-byte little-endian page offset, then data; the offset advances by 1 after each byte. (DESIGN CHOICE: log entry 65.) -/
def execI3cPrivateWrite (data : List Byte) (s : State) : Res :=
  if s.rst.stage < 1 ∨ data.length < 2 then .next s
  else
    let off := leNat (data.take 2)
    let d := data.drop 2
    let s := ibiTaken s
    let s1 := setMbox s 0 (i3cWords (d.length + 1) off d (getMbox s 0))
    .next (withPins s1 { s1.pins with i3cOff := off + d.length })

/-- I3C_PRIVATE_READ of `n` bytes; bytes beyond the page read 0. (DESIGN CHOICE: log entry 65.) -/
def execI3cPrivateRead (n : Nat) (s : State) : Res :=
  .next (if s.rst.stage < 1 then s
    else withPins s { s.pins with ibi := [], i3cOut := mbRead (getMbox s 0) s.pins.i3cOff n, i3cOff := s.pins.i3cOff + n })

/-! ## The debug port -/

/-- The instruction codes of the test access port as the model numbers them; BYPASS is all ones (IEEE 1149.1). (DESIGN CHOICE: log entry 66.) -/
def jtagLoad (s : State) (ir : BitVec 4) (out : List Bool) : State := withPins s { s.pins with jtagIr := ir, jtagOut := out }

/-- IDCODE: the data register holds the identification code, whose lowest bit is 1. (DESIGN CHOICE: log entry 66.) -/
def execIdcode (s : State) : Res :=
  .next (jtagLoad s 1 (true :: (List.range 31).map fun i => bt Config.idcode (i + 1)))

/-- BYPASS: the data register is one bit, captured as 0. (DESIGN CHOICE: log entry 66.) -/
def execBypass (s : State) : Res := .next (jtagLoad s 15 [false])

/-- SAMPLE: the boundary register captures the 64 K and 72 M pads, whose levels come from outside. -/
def execSample (s : State) : Res :=
  match freshBits s 136 with
  | (v, s1) => .next (jtagLoad s1 2 ((List.range 136).map fun i => bt v i))

/-- EXTEST: while reset_n is low the pads named take the values of the boundary register. -/
def execExtest (pads : List (Nat × Bool)) (s : State) : Res :=
  .next (if s.pins.resetLow then withPins s { s.pins with jtagIr := 0, padDrive := pads } else s)

/-- DBG_HALT: halts both Keystone cores, and with them the watchdog, while dbg_en is high. -/
def execDbgHalt (s : State) : Res :=
  .next (if s.pins.dbgEn then withKey s { s.key with halted := true } else s)

/-- DBG_EN_FALL: a halt in force ends. -/
def execDbgEnFall (s : State) : Res := .next (withKey (withPins s { s.pins with dbgEn := false }) { s.key with halted := false })

/-- DBG_EN_RISE. -/
def execDbgEnRise (s : State) : Res := .next (withPins s { s.pins with dbgEn := true })

end Sys2Proof.Machine
end

