-- ==== Sys2Proof/Machine/MemUnits.lean ====
section
/-!
DEFINITION. Memory units as the RAS rules see them: the owners of granules (R290, R298), the retirement of HBM channels
and their spill (R285 to R289), and the retirement of Quarry units, RLC ways, Mortar fields and towers (R26, R298, R304).
-/

namespace Sys2Proof.Machine

/-! ## Owners of granules (R259, R290) -/

/-- The granules whose entry may differ from NONE. -/
def namedGranules (s : State) : List Nat :=
  s.owner.map Prod.fst ++ (if bt s.ownCmd 62 then (List.range (bf s.ownCmd 37 18 + 1)).map fun i => bf s.ownCmd 57 38 + i else [])

/-- The entries of the granules for which `p` holds. -/
def entriesOf (s : State) (p : Nat → Bool) : List (BitVec 16) :=
  ((namedGranules s).filter p).map fun g => ownEntry s (g * 0x200000)

/-- The contexts that own such granules, in increasing number. -/
def owned (s : State) (p : Nat → Bool) : List Nat :=
  ((entriesOf s p).filterMap fun e => if bf e 15 14 = 1 then some (bf e 11 0) else none).dedup.insertionSort (· ≤ ·)

/-- Contexts with XCTL EN = 1. -/
def enabledCtxs (s : State) : List Nat := (s.ctxs.filter fun x => bt x.2.xctl 31).map Prod.fst

/-- The owners of such granules, and every enabled context when one of them is OPEN (R290). -/
def concerned (s : State) (p : Nat → Bool) : List Nat :=
  let more := if (entriesOf s p).any fun e => decide (bf e 15 14 = 2) then enabledCtxs s else []
  (owned s p ++ more).dedup.insertionSort (· ≤ ·)

/-! ## Channel offsets (R277, R278, R287) -/

/-- The local offset of a span at channel offset `y` of channel `c`: the inverse of Table 9.3. -/
def spanOf (s : State) (c y : Nat) : Nat :=
  let k := y / 256
  if bf s.memcfg 31 30 = 1 then
    c / 64 * 0x10C0000000 + k * 2 ^ 14 + (BitVec.ofNat 6 (c % 64) ^^^ BitVec.ofNat 6 k).toNat * 256 + y % 256
  else k * 2 ^ 17 + (BitVec.ofNat 9 c ^^^ BitVec.ofNat 9 k ^^^ BitVec.ofNat 9 (k / 512)).toNat * 256 + y % 256

/-- The local offset whose line stands at channel offset `y` of channel `c`, if one does. -/
def lineAt (s : State) (c y : Nat) : Option Nat :=
  if y < 0x43000000 then
    (if chState s c = 0 then some (spanOf s c y)
     else if chState s c = 2 then some (0x10000000000 + c * 0x80000000 + y) else none)
  else if chState s c = 0 ∧ y < 0x47C00000 then
    let j := (y - 0x43000000) / 0x1300000
    let r := (y - 0x43000000) % 0x1300000
    match ((List.range 64).map fun i => c / 64 * 64 + i).find? fun d =>
        bt (getHbm s d).stat 29 && decide (bf (getHbm s d).stat 28 27 = j) with
    | none => none
    | some d =>
      let ts := (getHbm s d).targets
      match ts.findIdx? (· = c) with
      | none => none
      | some i =>
        let y0 := (r / 256 * ts.length + i) * 256 + y % 256
        if y0 < 0x43000000 then some (spanOf s d y0) else none
  else none

/-- The channel offset of line `i` of a row (Table 9.4). (DESIGN CHOICE: log entry 51.) -/
def rowLine (pc bank row i : Nat) : Nat :=
  row * 65536 + (BitVec.ofNat 5 bank ^^^ BitVec.ofNat 5 row).toNat * 2048 + pc * 1024 + i * 64

/-- A row of a channel as one number, and its parts: pseudo-channel, bank and row of a channel offset (Table 9.4). -/
def rowKey (pc bank row : Nat) : Nat := pc + 2 * (bank + 32 * row)
def rowOf (y : Nat) : Nat :=
  let b := BitVec.ofNat 31 y
  rowKey (bf b 10 10) (bf b 15 11 ^^^ bf b 20 16) (bf b 30 16)

/-- Marks the line at a channel offset lost with LOST_ROW (R281, Table 9.8). -/
def loseRowLine (s : State) (c y : Nat) : State :=
  match lineAt s c y with
  | none => s
  | some x => { s with lost := tset none s.lost (x / 64) (some .row) }

/-- The granules that hold a unit of a row. -/
def rowGranule (s : State) (c pc bank row g : Nat) : Bool :=
  (List.range 16).any fun i => decide ((lineAt s c (rowLine pc bank row i)).map (· / 0x200000) = some g)

/-- The granules that a channel's span or its window reaches (R290). -/
def chanGranule (s : State) (c g : Nat) : Bool :=
  let x := g * 0x200000
  if x < 0x8600000000 then (if bf s.memcfg 31 30 = 1 then decide (x / 0x10C0000000 = c / 64) else true)
  else decide (0x10000000000 ≤ x ∧ (x - 0x10000000000) / 0x80000000 = c) && present s x

/-! ## Channel retirement (R285 to R290) -/

/-- MEMCFG with its counts of channels (Table 9.6). (DEDUCED: log entry 74.) -/
def memcfgCount (s : State) : State :=
  let n := fun v => ((List.range 512).filter fun c => decide (chState s c = v)).length
  { s with memcfg := sf (sf s.memcfg 19 10 (n 1)) 9 0 (n 0) }

/-- The spill targets of channel `c` and its slot, if it gets one (R285). -/
def spillPlan (s : State) (c : Nat) : List Nat × Option Nat :=
  let tower := (List.range 64).map fun i => c / 64 * 64 + i
  let ts := tower.filter fun d => decide (d ≠ c) && decide (chState s d = 0)
  let used := (tower.filter fun d => bt (getHbm s d).stat 29).map fun d => bf (getHbm s d).stat 28 27
  (ts, if ts.length < 57 then none else (List.range 4).find? fun j => !used.contains j)

/-- Takes a channel of the interleave out of service, its span spilled with every line lost or left without storage (R286
steps 1 to 5, R287); `atRun` says that lines are lost, as they are not at start-up (R289). -/
def spillChannel (s : State) (c : Nat) (atRun : Bool) : State :=
  let h := getHbm s c
  match spillPlan s c with
  | (ts, slot) =>
    let st := sf h.stat 31 30 1
    let h' := match slot with
      | some j => { h with stat := sf (sb st 29 true) 28 27 j, targets := ts, runLost := atRun }
      | none => { h with stat := st, noStore := true, runLost := atRun }
    let keep : Nat → Bool := fun ln => match chanOf s (64 * ln) with
      | some (d, _) => !(decide (d = c) && decide (64 * ln < 0x8600000000))
      | none => true
    let s1 := { s with lost := s.lost.filter fun e => keep e.1, restored := s.restored.filter keep }
    setHbm s1 c h'

/-- Retires a channel (R286), or a returned one for good (R289). -/
def retireChannel (s : State) (c : Nat) (order : Option Nat) : State :=
  if chState s c = 1 then s
  else
    let xs := concerned s (chanGranule s c)
    let s1 := if chState s c = 0 then spillChannel s c true
      else setHbm s c { getHbm s c with stat := sb (sf (getHbm s c).stat 31 30 1) 25 true, winKept := true }
    let s2 := setHbm s1 c { getHbm s1 c with
      stat := sb (getHbm s1 c).stat 26 false, retireDue := false, needRemap := [], retraining := false, attempts := 0,
      recal := 0, recalTry := 0, recalWait := false, offline := false }
    let s3 := memcfgCount (recRetire s2 (unitCode 5 c) order)
    report s3 xs St.channelRetired 1 (unitId s3 5 c) (getHbm s3 c).stat.toNat

/-! ## Quarry units (R293 to R298) -/

/-- The number of the first unit's window, and the granules of a unit's window. (DEDUCED: log entry 49.) -/
def quarryWindow (t u : Nat) : Nat := 0xC000000000 + (8 * t + u) * 0x2000000
def windowGranule (t u g : Nat) : Bool := decide (quarryWindow t u ≤ g * 0x200000 ∧ g * 0x200000 < quarryWindow t u + 0x2000000)

/-- The HOME units of a tower drop every line (R297 step 2, R286). (DEDUCED: log entry 75.) -/
def homeDropAll (s : State) (t : Nat) : State :=
  let ls := (getTower s t).home
  forEach (modTower s t fun w => { w with home := [] }) ls homeLeave

/-- Every queue of each context is marked GUILTY. -/
def guiltyAll (s : State) (xs : List Nat) : State := forEach s xs guiltyCtx

/-- Retires a Quarry unit (R298). (DEDUCED: log entry 75.) -/
def retireQuarry (s : State) (t u : Nat) (order : Option Nat) : State :=
  if bt (getTower s t).part (16 + u) then s
  else
    let kind := qKind s t u
    let xs := concerned s (windowGranule t u)
    let s1 := modTower (if kind = 0 then homeDropAll s t else s) t fun w => { w with
      part := sb w.part (16 + u) true, victim := if kind = 1 then [] else w.victim,
      changing := w.changing.filter fun p => p.1 ≠ u }
    let s2 := recRetire s1 (unitCode 7 (8 * t + u)) order
    let s3 := report s2 (if kind = 2 then xs else []) St.ok 1 (unitId s2 7 (8 * t + u)) 0
    if kind = 2 then guiltyAll s3 xs else s3

/-! ## RLC ways (R304) -/

/-- The lines of a way leave the RLC: dirty lines are written back, and so are lines that R286 keeps. -/
def wayLeaves (s : State) (t way : Nat) : State :=
  let ls := (getTower s t).rlc.filter fun l => l.way = way
  forEach (modTower s t fun w => { w with rlc := w.rlc.filter fun l => l.way ≠ way }) ls fun s l =>
    if l.dirty || (keyHere s l.line && homeRunRetired s (l.line.toNat % 2 ^ 41)) then writeBack s l else s

/-- Retires a way of an RLC: the report names the tower, and the record names the way by a class that UNIT_ID does not use. -/
def retireWay (s : State) (t w : Nat) (order : Option Nat) : State :=
  if (getTower s t).waysOff.contains w then s
  else
    let s1 := wayLeaves (modTower s t fun k => { k with waysOff := w :: k.waysOff }) t w
    let s2 := withKey s1 { s1.key with recs := { s1.key.recs with retired := s1.key.recs.retired ++ [unitCode 0xF (16 * t + w)] } }
    let s3 := storePush s2 (.units s2.key.recs) order
    report s3 [] St.ok 1 (unitId s3 1 t) 0

/-! ## Towers (R26, R31) -/

/-- The cores of a tower, and those of a Mortar field. -/
def towerCores (t : Nat) : List Nat := (List.range 32).map fun i => 32 * t + i
def fieldCores (f : Nat) : List Nat := if f < 256 then [f] else towerCores (f - 256)

/-- Retires a tower: its cores, its Quarry slice, its RLC and its channels leave service, and every context that owns memory
homed on it is marked (R26). -/
def retireTower (s : State) (t : Nat) (order : Option Nat) : State :=
  if (getTower s t).retired then s
  else
    let homed : Nat → Bool := fun g =>
      let x := g * 0x200000
      if x < 0x8600000000 ∧ bf s.memcfg 31 30 = 0 then true else present s x && decide (homeTower s x = t)
    let xs := owned s homed
    let s1 := modTower s t fun w => { w with retired := true, home := [], victim := [], rlc := [], changing := [],
                                             part := sf w.part 23 16 0xFF, waysOff := List.range 16 }
    let s2 := forEach s1 ((List.range 64).map fun i => 64 * t + i) fun s c =>
      if chState s c = 1 then s
      else if chState s c = 0 then setHbm s c { getHbm s c with stat := sf (getHbm s c).stat 31 30 1, noStore := true, runLost := true }
      else setHbm s c { getHbm s c with stat := sb (sf (getHbm s c).stat 31 30 1) 25 true, winKept := true }
    let s3 := recRetire (memcfgCount s2) (unitCode 1 t) order
    let s4 := report s3 xs St.ok 1 (unitId s3 1 t) 0
    let s5 := guiltyAll s4 xs
    forEach s5 (towerCores t) fun s c => retireCore s c true

end Sys2Proof.Machine
end

