-- ==== Sys2Proof/Machine/DieLinks.lean ====
section
/-!
DEFINITION. The Mortar bond (R23 to R26) and the Lintel links (R20, R27 to R31).
-/

namespace Sys2Proof.Machine

/-! ## Mortar -/

/-- Active and spare groups of a field (Table 1.7): fields 0 to 255 are core scratchpad fields, 256 + T tower network
fields. -/
def mortarActive (f : Nat) : Nat := if f < 256 then 128 else 256
def mortarSpares (f : Nat) : Nat := if f < 256 then 8 else 16

/-- Whether a group of a field carries traffic: an active group that was not steered away, or a spare in use. -/
def mortarCarries (f : Nat) (m : Mortar) (g : Nat) : Bool :=
  !(m.steered.any fun p => decide (p.1 = g)) && (decide (g < mortarActive f) || m.steered.any fun p => decide (p.2 = g))

/-- The lowest free spare group of a field (R24). (DESIGN CHOICE: log entry 53.) -/
def mortarFree (f : Nat) (m : Mortar) : Option Nat :=
  ((List.range (mortarSpares f)).map fun i => mortarActive f + i).find? fun g => m.steered.all fun p => decide (p.2 ≠ g)

/-- The contexts told of a field's steering: the one that the core of a scratchpad field holds. The spec does not say which
context owns a tower network field: its steering is told to none. (DESIGN CHOICE: log entry 53.) -/
def mortarOwner (s : State) (f : Nat) : List Nat :=
  if f < 256 ∧ (getCore s f).gang ≠ none then [(getCore s f).ctx] else []

/-- A field without a free spare that loses a group leaves service with its core or its tower; its record keeps its cores out
after a reset (R26, R389). -/
def fieldGone (s : State) (f : Nat) : State :=
  let s1 := recRetire (setMortar s f { getMortar s f with gone := true, steering := none }) (unitCode 0xA f) none
  let s2 := if f < 256 then retireCore s1 f true else retireTower s1 (f - 256) none
  forEach s2 (fieldCores f) fun s c => modCore s c fun k => { k with mortarGone := true }

/-- A group of a field becomes permanently bad: it is steered to a spare, or the field leaves service (R24 to R26). (DESIGN CHOICE: log entry 53.) -/
def mortarBad (s : State) (f g : Nat) : State :=
  match mortarFree f (getMortar s f) with
  | none => fieldGone s f
  | some _ => setMortar s f { getMortar s f with steering := some g }

/-- MORTAR_CRC_FAIL in a group; `replaysFailed` says that all 4 replays failed. The 32nd failure within 1 ms, or a beat that
fails its replays, makes the group permanently bad (R24). -/
def execMortarCrcFail (f : Fin 264) (grp : Nat) (replaysFailed : Bool) (s : State) : Res :=
  let m := getMortar s f.val
  if m.gone ∨ m.steering ≠ none ∨ !mortarCarries f.val m grp then .next s
  else
    match histAdd m.fails grp s.now 1000000 with
    | (h, n) =>
      let s1 := setMortar s f.val { m with fails := h }
      .next (if replaysFailed ∨ 32 ≤ n then mortarBad s1 f.val grp else s1)

/-- MORTAR_STEER_DONE: the group's traffic is on the lowest free spare, which is recorded and reported (R24, R25). -/
def execMortarSteerDone (f : Fin 264) (s : State) : Res :=
  let m := getMortar s f.val
  match m.steering, mortarFree f.val m with
  | some g, some sp =>
    let s1 := setMortar s f.val { m with steering := none, steered := m.steered ++ [(g, sp)], fails := m.fails.filter fun e => e.1 ≠ g }
    let s2 := recUnits s1 (fun r => { r with steered := r.steered ++ [(f.val, g, sp)] }) none
    .next (report s2 (mortarOwner s f.val) St.linkDegraded 3 (unitId s2 0xA f.val) g)
  | _, _ => .next s

/-! ## Lintel -/

/-- Lanes of a link that are good. -/
def lintelGood (k : Lintel) : Nat := ((List.range 18).filter fun n => !k.bad.contains n).length

/-- The data lane that lane `n` carries, if it carries one. -/
def lintelCarries (k : Lintel) (n : Nat) : Option Nat :=
  match k.mapped.find? fun p => p.2 = n with
  | some p => some p.1
  | none => if n < 16 ∧ k.mapped.all (fun p => decide (p.1 ≠ n)) then some n else none

/-- The lowest free spare lane (R28). -/
def lintelSpare (k : Lintel) : Option Nat :=
  [16, 17].find? fun n => !k.bad.contains n && k.mapped.all fun p => decide (p.2 ≠ n)

/-- Whether a die has a link in service. (DEDUCED: log entry 52.) -/
def dieRouted (s : State) (d : Nat) : Bool :=
  (List.range 24).any fun l => !(getLintel s l).retired && (decide ((lintelEnds l).1 = d) || decide ((lintelEnds l).2 = d))

/-- The cores of a Mason die. -/
def masonCores (m : Nat) : List Nat := (List.range 72).map fun i => 72 * m + i

/-- The Mason die `m` leaves service with its 72 cores, each recorded and reported (R14, R31). (DEDUCED: log entry 52.) -/
def masonDieGone (s : State) (m : Nat) : State :=
  if s.key.masonGone.contains m then s
  else
    let s1 := withKey s { s.key with masonGone := m :: s.key.masonGone }
    let s2 := recUnits s1 (fun r => { r with retired := r.retired ++ (masonCores m).map (unitCode 0xE) }) none
    forEach s2 (masonCores m) fun s c => report s [] St.ok 1 (unitId s 0xE c) 0

/-- The hub die is cut off, which M0 alone is told. The spec names no code, KIND or unit for it: the record carries
LINK_DEGRADED, KIND 1 and the package. (DESIGN CHOICE: log entry 88.) -/
def hubGone (s : State) : State :=
  if s.key.hubIsolated then s
  else rasTo (withKey s { s.key with hubIsolated := true }) [0] St.linkDegraded 1 0xFFFF (unitId s 0 0) 0xFFFF 0

/-- A die that a retired link leaves without a route is isolated (R31). (DEDUCED: log entry 52.) -/
def isolate (s : State) (d : Nat) : State :=
  if dieRouted s d then s
  else if d < 8 then retireTower s d none
  else if d = hubDie then hubGone s
  else masonDieGone s (d - 9)

/-- Whether an access of core `c` waits for its home over link `l`. -/
def crosses (s : State) (l c : Nat) (a : Access) : Bool :=
  match accHome s a with
  | none => false
  | some h => ((dieRoute s (towerOf c) h).map fun p => (routeLinks p).contains l).getD false

/-- The requests that wait in the retry buffer of a link: the accesses of the sequencers on their way over it. (DEDUCED: log entry 82.) -/
def waitsIn (s : State) (l : Nat) : List (Nat × Nat) :=
  s.cores.flatMap fun k => (k.2.accs.filter (crosses s l k.1)).map fun a => (k.1, a.id)

/-- Retires a link, recorded and reported (R29, R31); the requests in its retry buffer go first on the new route (R30). The spec
names no report for the link itself: it is LINK_DEGRADED with KIND 1. (DESIGN CHOICE: log entry 51.) -/
def retireLink (s : State) (l : Nat) (order : Option Nat) : State :=
  if (getLintel s l).retired then s
  else
    let s1 := setLintel s l { getLintel s l with retired := true, retraining := false, holding := false, pendRemap := [], replay := waitsIn s l }
    let s2 := recRetire s1 (unitCode 8 l) order
    let s3 := report s2 [] St.linkDegraded 1 (unitId s2 8 l) 0
    isolate (isolate s3 (lintelEnds l).1) (lintelEnds l).2

/-- Counts the retirement of a Lintel lane; the second since power-on is recorded, so that it stays (R31). -/
def recLane (s : State) (u : Nat) (order : Option Nat) : State :=
  let s1 := withStore s { s.store with sincePwr := tset 0 s.store.sincePwr u (tget 0 s.store.sincePwr u + 1) }
  if 2 ≤ retiredSince s1 u ∧ retiredRecorded s1 u = 0 then recUnits s1 (fun r => { r with retired := r.retired ++ [u] }) order
  else s1

/-- A lane becomes permanently bad: the link is held for its remap, after a retraining in progress (R27, R28). -/
def laneBad (s : State) (l lane : Nat) : State :=
  let k := getLintel s l
  if k.retired ∨ k.bad.contains lane then s
  else setLintel s l { k with bad := lane :: k.bad, pendRemap := k.pendRemap ++ [lane], holding := !k.retraining,
                              errs := k.errs.filter fun e => e.1 ≠ lane }

/-- The remap of one bad lane at the end of the hold (R28, R29). The spec is silent on a bad lane that carries no data, an
unused spare: LANE_RETIRED is reported for it, and LINK_DEGRADED is not. (DESIGN CHOICE: log entry 51.) -/
def remapLane (s : State) (l lane : Nat) : State :=
  let k := getLintel s l
  let unit := 18 * l + lane
  match lintelCarries k lane with
  | none => report (recLane s (unitCode 9 unit) none) [] St.laneRetired 1 (unitId s 9 unit) lane
  | some d =>
    let rest := k.mapped.filter fun p => p.1 ≠ d
    let k' := match lintelSpare k with
      | some n => { k with mapped := rest ++ [(d, n)] }
      | none => { k with mapped := rest, half := true }
    let s1 := report (setLintel s l k') [] St.linkDegraded 3 (unitId s 8 l) 0
    let s2 := report (recLane s1 (unitCode 9 unit) none) [] St.laneRetired 1 (unitId s 9 unit) lane
    if k'.half ∧ lintelGood k' < 8 then retireLink s2 l none else s2

/-- LINTEL_FLIT_CRC_FAIL, charged to `lane` where parity names one; `replaysFailed` says that all 8 replays failed (R27). -/
def execLintelFlitCrcFail (l : Fin 24) (lane : Option (Fin 18)) (replaysFailed : Bool) (s : State) : Res :=
  let k := getLintel s l.val
  if k.retired ∨ k.retraining ∨ k.holding then .next s
  else
    let s1 := if replaysFailed then setLintel s l.val { k with retraining := true } else s
    match lane with
    | none => .next s1
    | some n =>
      if (lintelCarries k n.val).isNone ∨ k.bad.contains n.val then .next s1
      else
        match histAdd k.errs n.val s.now 100000000 with
        | (h, m) =>
          let s2 := setLintel s1 l.val { getLintel s1 l.val with errs := h }
          .next (if 32 ≤ m then laneBad s2 l.val n.val else s2)

/-- LINTEL_CLOCK_LOCK_LOSS of a lane (R27). -/
def execLintelClockLockLoss (l : Fin 24) (lane : Fin 18) (s : State) : Res := .next (laneBad s l.val lane.val)

/-- LINTEL_RETRAIN_DONE: the link runs again, but for the lanes that failed, whose remap follows in a hold of its own (R27, R31). -/
def execLintelRetrainDone (l : Fin 24) (failed : List (Fin 18)) (s : State) : Res :=
  let k := getLintel s l.val
  if !k.retraining then .next s
  else
    let s1 := setLintel s l.val { k with retraining := false, holding := decide (k.pendRemap ≠ []) }
    .next (forEach s1 failed fun s n => laneBad s l.val n.val)

/-- LINTEL_REMAP_DONE: the hold ends with every pending lane remapped, and the retry buffer replays (R28, R29). -/
def execLintelRemapDone (l : Fin 24) (s : State) : Res :=
  let k := getLintel s l.val
  if !k.holding then .next s
  else
    let s1 := setLintel s l.val { k with holding := false, pendRemap := [] }
    .next (forEach s1 k.pendRemap fun s n => remapLane s l.val n)

end Sys2Proof.Machine
end

