-- ==== Sys2Proof/Machine/SpanPort.lean ====
section
/-!
DEFINITION. Span ports and lanes (R308 to R321): width, holds, retraining and training, flits and their retry, and COMMIT of
the port and Plumb configuration (R312).
-/

namespace Sys2Proof.Machine

/-! ## Lanes and width (R311) -/

def laneOf (k : PortSt) (l : Nat) : LaneSt := tget .active k.lanes l
def setLane (k : PortSt) (l : Nat) (v : LaneSt) : PortSt := { k with lanes := tset .active k.lanes l v }

/-- Lanes in state ACTIVE or IDLE. -/
def goodLanes (k : PortSt) : List Nat := (List.range 8).filter fun l => match laneOf k l with
  | .active | .idle => true
  | .retrain _ | .retired => false

/-- Lanes in state ACTIVE. -/
def activeLanes (k : PortSt) : List Nat := (List.range 8).filter fun l => laneOf k l = .active

/-- Lanes of a width as SPAN_PCFG MAXW encodes it. -/
def lanesOf (w : Nat) : Nat := 8 / 2 ^ w

/-- The smaller MAXW of the two ends, as its code. -/
def maxCode (k : PortSt) : Nat := max (bf k.cfg 30 29) ((k.peer.map fun x => x.maxw.toNat).getD 0)

/-- Lanes in state ACTIVE or IDLE at both ends. -/
def bothGood (k : PortSt) : List Nat := (goodLanes k).filter fun l => (k.peer.map fun x => bt x.good l).getD true

/-- The width that the good lanes of both ends form, as its code. -/
def formWidth (k : PortSt) : Option Nat :=
  [0, 1, 2, 3].find? fun w => decide (maxCode k ≤ w ∧ lanesOf w ≤ (bothGood k).length)

/-- The port at a width: the lowest lanes that are good at both ends ACTIVE, the other good ones IDLE. -/
def atWidth (k : PortSt) (w : Nat) : PortSt :=
  (goodLanes k).foldl (fun o l => setLane o l (if ((bothGood k).take (lanesOf w)).contains l then .active else .idle))
    { k with width := BitVec.ofNat 2 w }

/-- The module power channel of a port is ON, and its port-group power domain is on (Table 10.4, R366). -/
def moduleOn (s : State) (p : Nat) : Bool := decide ((getMod s p).st = .on)
def portGroup (p : Nat) : Nat := if p ≤ 4 then 0 else if p ≤ 8 then 1 else if p ≤ 13 then 2 else 3
def portDomOn (s : State) (p : Nat) : Bool := decide ((getDom s (104 + portGroup p)).st = .on)

/-! ## Leaving and starting (R312, R320, R328) -/

/-- A report that names a port. -/
def portReport (s : State) (p : Nat) : State := report s [] St.linkDegraded 3 (unitId s 0xB p) 0

/-- Takes a port out of service in a state; one that was UP, or that was retraining from UP, is handled under R328. -/
def portStop (s : State) (p : Nat) (st : PortState) (cause : BitVec 3) : State :=
  let k := getPort s p
  let was := decide (k.st = .up) || (decide (k.st = .retrain) && !k.wasHeld)
  let s1 := putPort s p { k with
    st := st, dcause := cause, downAt := s.now, peer := none, holding := false, leaving := [], pendLeave := [],
    retry := if was then k.retry else [] }
  if was then leaveUp s1 p else s1

/-- Starts a port with EN = 1 whose domain is on: TRAINING, or DOWN without its module. -/
def portStart (s : State) (p : Nat) : State :=
  if !bt (getPort s p).cfg 31 || !portDomOn s p then s
  else if moduleOn s p then
    putPort s p { getPort s p with st := .training, dcause := 0, wasHeld := false, attempts := 0 }
  else portStop s p .down 3

/-- The module of a port is no longer powered: DOWN with DCAUSE MODULE. -/
def portUnpowered (s : State) (p : Nat) : State :=
  match (getPort s p).st with
  | .disabled => s
  | .down => modPort s p fun k => { k with dcause := 3 }
  | _ => portStop s p .down 3

/-- Retires a lane: a second retirement since power-on stays across resets (R318, R321). -/
def retireLane (s : State) (p l : Nat) (order : Option Nat) : State :=
  if laneOf (getPort s p) l = .retired then s
  else
    let u := unitCode 0xC (8 * p + l)
    let s1 := modPort s p fun k => setLane k l .retired
    let s2 := withStore s1 { s1.store with sincePwr := tset 0 s1.store.sincePwr u (tget 0 s1.store.sincePwr u + 1) }
    let n := if 2 ≤ retiredSince s2 u then 2 - retiredRecorded s2 u else 1 - retiredRecorded s2 u
    let s3 := recUnits s2 (fun r => { r with retired := r.retired ++ List.replicate n u }) order
    report s3 [] St.laneRetired 1 (unitId s3 0xC (8 * p + l)) l

/-- A lane leaves the width: RETRAIN, or RETIRED on its fourth leave within 1 s (R317, R318). -/
def laneGoes (s : State) (p l : Nat) : State :=
  let k := getPort s p
  match histAdd k.leaves l s.now 1000000000 with
  | (h, n) =>
    let s1 := setPort s p (setLane { k with leaves := h } l (.retrain 0))
    if 4 ≤ n then retireLane s1 p l none else s1

/-- Forms the width again; a port that can form none goes DOWN, and one below its largest width is reported (R311). -/
def reform (s : State) (p : Nat) : State :=
  let k := getPort s p
  match formWidth k with
  | none => portStop s p .down 2
  | some w =>
    let s1 := setPort s p (atWidth k w)
    if maxCode k < w then portReport s1 p else s1

/-- Replays the retry buffer in SEQ order (R315, R317). -/
def replay (cnt : BitVec 64) (k : PortSt) : PortSt :=
  sendFlits cnt { k with retry := k.retry.map fun f => { f with resent := f.resent + 1 },
                         replays := BitVec.ofNat 16 (min 65535 (k.replays.toNat + k.retry.length)) } k.retry

/-- Starts a whole-port retrain (R320). -/
def portRetrain (s : State) (p : Nat) : State :=
  let k := getPort s p
  putPort s p { k with st := .retrain, attempts := 0, wasHeld := decide (k.st = .held), holding := false, leaving := [], pendLeave := [] }

/-! ## Holds and lanes (R317 to R319) -/

/-- LANE_LEAVE of an ACTIVE lane: one hold takes the lanes that leave at one instant, and a lane that leaves during a hold waits
for a hold of its own. -/
def execLaneLeave (p : Port) (l : Fin 8) (_why : LaneWhy) (s : State) : Res :=
  let k := getPort s p.val
  if !portLive s p.val ∨ laneOf k l.val ≠ .active ∨ k.leaving.contains l.val ∨ k.pendLeave.contains l.val then .next s
  else if k.holding ∧ k.holdAt ≠ s.now then .next (setPort s p.val { k with pendLeave := k.pendLeave ++ [l.val] })
  else .next (setPort s p.val { k with holding := true, holdAt := s.now, leaving := k.leaving ++ [l.val] })

/-- PORT_HOLD_END: the width is formed again without the lanes that left, and the retry buffer replays; when more than half of
the ACTIVE lanes left, the whole port retrains (R317, R320). -/
def execPortHoldEnd (p : Port) (s : State) : Res :=
  let k := getPort s p.val
  if !(k.holding && portLive s p.val) then .next s
  else if (activeLanes k).length < 2 * k.leaving.length then
    .next (portRetrain (forEach s k.leaving fun s l => laneGoes s p.val l) p.val)
  else
    let s1 := setPort s p.val { k with
      holding := decide (k.pendLeave ≠ []), holdAt := s.now, leaving := k.pendLeave.take 1, pendLeave := k.pendLeave.drop 1 }
    let s2 := reform (forEach s1 k.leaving fun s l => laneGoes s p.val l) p.val
    if !portLive s2 p.val then .next s2
    else .next (pumpPort (modPort s2 p.val (replay s.plumb.count)) p.val)

/-- LANE_RETRAIN_ATTEMPT_END: a lane that passes is IDLE and the width is formed again in a hold; the third failed attempt
retires it (R318). -/
def execLaneRetrainAttemptEnd (p : Port) (l : Fin 8) (ok : Bool) (s : State) : Res :=
  let k := getPort s p.val
  match laneOf k l.val with
  | .retrain n =>
    if !portLive s p.val then .next s
    else if ok then .next (setPort s p.val { setLane k l.val .idle with holding := true, holdAt := if k.holding then k.holdAt else s.now })
    else if n < 2 then .next (setPort s p.val (setLane k l.val (.retrain (n + 1))))
    else .next (retireLane s p.val l.val none)
  | .active | .idle | .retired => .next s

/-- PORT_RETRAIN_ATTEMPT_END (R319, R320, R390): on a pass of a retraining the lanes that failed leave the width, the others form it
again, and the port is UP or HELD as before; the third failed attempt, of a training as well, puts it DOWN. -/
def execPortRetrainAttemptEnd (p : Port) (ok : Bool) (failed : List (Fin 8)) (s : State) : Res :=
  let k := getPort s p.val
  if k.st ≠ .retrain ∧ ¬ (k.st = .training ∧ ok = false) then .next s
  else if !ok then
    if k.attempts < 2 then .next (setPort s p.val { k with attempts := k.attempts + 1 })
    else .next (portStop s p.val .down 1)
  else
    let k1 := (List.range 8).foldl (fun k l => match laneOf k l with
      | .retrain _ => setLane k l .idle
      | .active | .idle | .retired => k) { k with st := if k.wasHeld then .held else .up, attempts := 0 }
    let s1 := forEach (putPort s p.val k1) failed fun s l =>
      if laneOf (getPort s p.val) l.val = .retired then s else laneGoes s p.val l.val
    let s2 := reform s1 p.val
    if !portLive s2 p.val then .next s2
    else .next (pumpPort (modPort s2 p.val (replay s.plumb.count)) p.val)

/-- PORT_DOWN_RETRY: a DOWN port whose module is powered trains again, at once when the module was the cause, else after 1 s
(R320). (DESIGN CHOICE: log entry 71.) -/
def execPortDownRetry (p : Port) (s : State) : Res :=
  let k := getPort s p.val
  if k.st = .down ∧ moduleOn s p.val ∧ (k.dcause = 3 ∨ k.downAt + 1000000000 ≤ s.now) then .next (portStart s p.val) else .next s

/-- A root that is not LOCKED takes the count of a LOCKED neighbour in one step and is LOCKED (R342). -/
def rootTakes (s : State) (locked : Bool) (count : BitVec 64) : State :=
  if plumbRoot s && s.plumb.running && !s.plumb.locked && locked then
    withPlumb s { s.plumb with count := count, locked := true, everLocked := true }
  else s

/-- PORT_TRAINED: training learned the other end. The port is HELD at its width with its PVER, or MISMATCH (R311, R338). -/
def execPortTrained (p : Port) (peer : PeerInfo) (failed : List (Fin 8)) (s : State) : Res :=
  let k := getPort s p.val
  if k.st ≠ .training then .next s
  else
    let k1 : PortSt := { k with
      peer := some peer, rxNext := 0, rxNak := false, txNext := 0, retry := [], credits := [], owed := [], holding := false, leaving := [],
      pendLeave := [], stampSum := 0, stampCnt := 0 }
    let k2 := (List.range 8).foldl (fun k l => match laneOf k l with
      | .retrain _ => setLane k l .idle
      | .active | .idle | .retired => k) k1
    let mine := s.span.protoImpl.toNat
    let their := peer.impl.toNat
    if mine > their + 1 ∨ their > mine + 1 then
      .next (portReport (putPort s p.val { k2 with st := .mismatch }) p.val)
    else
      let s1 := putPort s p.val { k2 with st := .held, pver := BitVec.ofNat 8 (min mine their) }
      let s2 := forEach s1 failed fun s l => if laneOf (getPort s p.val) l.val = .retired then s else laneGoes s p.val l.val
      let s3 := reform s2 p.val
      if !portLive s3 p.val then .next s3
      else
        let s4 := withPlumb s3 { s3.plumb with firstHeld := match s3.plumb.firstHeld with
          | some t => some t
          | none => some s3.now }
        .next (rootTakes s4 peer.locked peer.plumb)

/-! ## Flits (R313 to R316) -/

/-- Takes the ACK of a header: flits up to it leave the retry buffer. (DESIGN CHOICE: log entry 71.) -/
def takeAck (k : PortSt) (ack : BitVec 16) : PortSt :=
  { k with retry := k.retry.filter fun f => decide (0 < (f.seq - ack).toInt) }

/-- The signed difference of two stamps within their window of 2^24 sixteenths (R340). -/
def stampDiff (arrival pts : Nat) : Int := (BitVec.ofNat 24 arrival - BitVec.ofNat 24 pts).toInt

/-- What link control tells of the neighbour: its lanes, its MAXW and its identity (R311, R317, Table 10.7). -/
def learn (k : PortSt) (told : Option PeerInfo) : PortSt :=
  match told, k.peer with
  | some x, some y => { k with peer := some { x with impl := y.impl } }
  | _, _ => k

/-- A flit whose codewords and CRC pass: ACK, credits and PTS are taken, and a body in sequence is received; its arrival is stamped
in the package's own count (R314, R315, R340). -/
def takeFlit (s : State) (k : PortSt) (h : BitVec 64) (body : List SpanPkt) (sub : Nat) : PortSt :=
  let k1 := takeAck k (BitVec.ofNat 16 (bf h 47 32))
  let vc := bf h 29 27
  let k2 := { k1 with
    credits := tset 512 k1.credits vc (min 512 (creditsOf k1 vc + bf h 26 24)),
    stampSum := k1.stampSum + stampDiff (16 * s.plumb.count.toNat + sub) (bf h 23 0), stampCnt := k1.stampCnt + 1 }
  let seq := BitVec.ofNat 16 (bf h 63 48)
  if bt h 30 then k2
  else if seq = k2.rxNext then
    { k2 with rxNext := k2.rxNext + 1, rxNak := false,
              inbox := k2.inbox ++ (body.filter fun x => decide (x.op ≠ 0x11)).map fun x => (x, s.now) }
  else if 0 < (seq - k2.rxNext).toInt then { k2 with rxNak := true }
  else k2

/-- FLIT_RECEIVE: header `h`, whether its codewords and CRC pass, the packets that end in its body, the sixteenth of a nanosecond of
its arrival, and what link control in it tells of the neighbour. The port answers with what it may send, or an EMPTY flit.
(DESIGN CHOICE: log entry 71.) -/
def execFlitReceive (p : Port) (h : BitVec 64) (ok : Bool) (body : List SpanPkt) (arrival : Arrival) (s : State) : Res :=
  let k := getPort s p.val
  let cnt := s.plumb.count
  if !portLive s p.val then .next s
  else if k.holding then .next (if ok then setPort s p.val (learn k arrival.told) else s)
  else if !ok then .next (setPort s p.val (sendEmpty cnt { k with uncorr := satInc k.uncorr, rxNak := true }))
  else
    let k1 := takeFlit s (learn k arrival.told) h body arrival.sub.val
    if bt h 31 && k1.retry.any fun f => decide (8 ≤ f.resent) then .next (portRetrain (setPort s p.val k1) p.val)
    else .next (setPort s p.val (sendEmpty cnt (pump cnt (if bt h 31 then replay cnt k1 else k1))))

/-! ## COMMIT (R312) -/

/-- Makes the shadow of one port active. -/
def commitPort (s : State) (p : Nat) : State :=
  let k := getPort s p
  let old := k.cfg
  let s1 := setPort s p { k with cfg := k.cfgShadow }
  if bt k.cfgShadow 31 ∧ !bt old 31 then portStart s1 p
  else if bt old 31 ∧ !bt k.cfgShadow 31 then portStop s1 p .disabled 0
  else if bf old 30 29 ≠ bf k.cfgShadow 30 29 ∧ portLive s p then modPort s1 p fun k => { k with holding := true, holdAt := if k.holding then k.holdAt else s.now }
  else s1

/-- A write of 1 to SPAN_CTL COMMIT: every port and PLUMB_CFG. -/
def spanCommitAll (s : State) : State :=
  let s1 := forEach s (List.range 18) commitPort
  plumbCheck (withPlumb s1 { s1.plumb with cfg := s1.plumb.cfgShadow })

/-- SPAN_COMMIT. -/
def execSpanCommit (view : View) (s : State) : Res := .next (if isDriver s view then spanCommitAll s else s)

end Sys2Proof.Machine
end

