-- ==== Sys2Proof/Machine/ModPower.lean ====
section
/-!
DEFINITION. Module power channels (R362, R377 to R380).
-/

namespace Sys2Proof.Machine

/-! ## Groups -/

/-- Whether two channels share an inrush group. -/
def sameGroup (a b : Nat) : Bool := decide (portGroup a = portGroup b)

/-- Channels of the group of `k` other than `k`. -/
def groupOthers (k : Nat) : List Nat := (List.range 18).filter fun j => sameGroup j k && decide (j ≠ k)

/-- Whether a channel is in current limit during RAMP, so that it holds its group's reserve. -/
def holdsReserve (m : Mod) : Bool := decide (m.st = .ramp) && m.inLimit

/-- Ends the pause of the RAMP channels of a group that nothing holds any longer: a window extends by its pause, up to 5 ms
from RAMP (R379). -/
def resumeGroup (s : State) (k : Nat) : State :=
  if (k :: groupOthers k).any fun j => holdsReserve (getMod s j) then s
  else forEach s (k :: groupOthers k) fun s j =>
    let m := getMod s j
    if m.paused then
      setMod s j { m with paused := false, windowEnd := min (m.windowEnd + (s.now - m.pausedAt)) (m.rampAt + 5000000) }
    else s

/-- Turns the gate of a channel off and puts it in a state; its port loses its module, and its group's reserve is free. (DEDUCED: log entry 54.) -/
def modOff (s : State) (k : Nat) (st : ModState) : State :=
  let m := getMod s k
  let s1 := setMod s k { m with st := st, paused := false, inLimit := false, extended := false }
  let s2 := if m.st = .on then portUnpowered s1 k else s1
  resumeGroup s2 k

/-- A write of EN (R377, R380); after a thermal shutdown the channel stays off (R375). (DEDUCED: log entry 54.) -/
def modEnSet (s : State) (k : Nat) (en : Bool) : State :=
  let m := getMod s k
  if m.st = .retired ∨ en = m.en then s
  else if en then setMod s k { m with en := true, st := if s.power.vmodOk && !s.rst.off then .queued else .off }
  else
    let s1 := modOff s k .off
    setMod s1 k { getMod s1 k with en := false, retries := 0 }

/-- A write of ILIM (Table 12.12). -/
def modIlimSet (s : State) (k : Nat) (v : BitVec 8) : State :=
  if 0x14 ≤ v.toNat ∧ v.toNat ≤ 0xC8 then setMod s k { getMod s k with ilim := v } else s

/-- Clears a channel, its retirement and its record (R380). -/
def modClear (s : State) (k : Nat) (order : Option Nat) : State :=
  let s1 := modOff s k .off
  let s2 := setMod s1 k { getMod s1 k with en := false, retries := 0 }
  recUnits s2 (fun r => { r with retired := r.retired.filter fun u => u ≠ unitCode 0xD k }) order

/-- Retires a channel: recorded and reported (R378). -/
def modRetire (s : State) (k : Nat) (order : Option Nat) : State :=
  let s1 := recRetire (modOff s k .retired) (unitCode 0xD k) order
  report s1 [] St.modRetired 1 (unitId s1 0xD k) 0

/-- Latches a channel with a cause; the latch of the third retry retires it (R378). -/
def modLatch (s : State) (k : Nat) (cause : BitVec 2) : State :=
  let m := getMod s k
  let s1 := modOff s k .latched
  let s2 := setMod s1 k { getMod s1 k with cause := cause, latchedAt := s.now }
  let s3 := report s2 [] St.modShort 6 (unitId s2 0xD k) 0
  if 3 ≤ m.retries then modRetire s3 k none else s3

/-! ## The commands -/

/-- MOD_EN_WRITE. -/
def execModEnWrite (k : Port) (en : Bool) (s : State) : Res := .next (modEnSet s k.val en)

/-- MOD_RAMP_START: at most two channels of a group ramp at once, lower numbers first; a group in limit pauses the new one. -/
def execModRampStart (k : Port) (s : State) : Res :=
  let m := getMod s k.val
  let ramps := (groupOthers k.val).filter fun j => (getMod s j).st = .ramp
  let lower := (groupOthers k.val).any fun j => decide (j < k.val) && decide ((getMod s j).st = .queued)
  if m.st ≠ .queued ∨ 2 ≤ ramps.length ∨ lower ∨ !s.power.vmodOk then .next s
  else
    .next (setMod s k.val { m with
      st := .ramp, rampAt := s.now, windowEnd := s.now + 2000000, extended := false, inLimit := false, driven := true,
      paused := ramps.any fun j => holdsReserve (getMod s j), pausedAt := s.now })

/-- MOD_ON: the output has held 90 % of VMOD for 100 µs without limit. -/
def execModOn (k : Port) (s : State) : Res :=
  let m := getMod s k.val
  if m.st = .ramp ∧ !m.paused ∧ !m.inLimit then .next (setMod s k.val { m with st := .on, onAt := s.now, extended := false })
  else .next s

/-- MOD_WINDOW_END with the output in units of 10 mV, against 10 % and 90 % of a VMOD of 12 V: the channel latches, or its window
extends to 5 ms; a channel still paused at 5 ms starts again (R378, R379). -/
def execModWindowEnd (k : Port) (vout : BitVec 12) (s : State) : Res :=
  let m := getMod s k.val
  if m.st ≠ .ramp then .next s
  else if m.paused then
    if m.rampAt + 5000000 ≤ s.now then
      .next (setMod s k.val { m with rampAt := s.now, windowEnd := s.now + 2000000, extended := false, pausedAt := s.now })
    else .next s
  else if s.now < m.windowEnd then .next s
  else if vout.toNat < 120 ∧ !m.extended then .next (modLatch s k.val 1)
  else if m.rampAt + 5000000 ≤ s.now then .next (modLatch s k.val 2)
  else .next (setMod s k.val { m with windowEnd := m.rampAt + 5000000, extended := true })

/-- MOD_CURRENT_LIMIT: a channel enters or leaves current limit; in RAMP it pauses the other RAMP channels of its group that are
not in limit themselves (R379). -/
def execModCurrentLimit (k : Port) (enter : Bool) (s : State) : Res :=
  let m := getMod s k.val
  if !(decide (m.st = .ramp ∨ m.st = .on) && !m.paused) ∨ enter = m.inLimit then .next s
  else if enter then
    let s1 := setMod s k.val { m with inLimit := true, limitSince := s.now }
    if m.st = .on then .next s1
    else .next (forEach s1 (groupOthers k.val) fun s j =>
      let o := getMod s j
      if o.st = .ramp ∧ !o.inLimit ∧ !o.paused then setMod s j { o with paused := true, pausedAt := s.now } else s)
  else .next (resumeGroup (setMod s k.val { m with inLimit := false }) k.val)

/-- MOD_LIMIT_LATCH: current limit has persisted for 1 ms (R378). -/
def execModLimitLatch (k : Port) (s : State) : Res :=
  let m := getMod s k.val
  if decide (m.st = .ramp ∨ m.st = .on) && m.inLimit && decide (m.limitSince + 1000000 ≤ s.now) then .next (modLatch s k.val 3)
  else .next s

/-- MOD_RETRY: 100 ms after a latch (R378). -/
def execModRetry (k : Port) (s : State) : Res :=
  let m := getMod s k.val
  if m.st = .latched ∧ m.latchedAt + 100000000 ≤ s.now then .next (setMod s k.val { m with st := .queued, retries := m.retries + 1 })
  else .next s

/-- MOD_RETRIES_CLEAR: after 10 s ON (R378). -/
def execModRetriesClear (k : Port) (s : State) : Res :=
  let m := getMod s k.val
  if m.st = .on ∧ m.onAt + 10000000000 ≤ s.now then .next (setMod s k.val { m with retries := 0 }) else .next s

/-- MOD_CTL_CLR. -/
def execModCtlClr (k : Port) (s : State) : Res := .next (modClear s k.val none)

/-- VMOD_LOSS: every channel turns off at once, without latch (R362). (DEDUCED: log entry 54.) -/
def execVmodLoss (s : State) : Res :=
  let s1 := withPower s { s.power with vmodOk := false }
  .next (forEach s1 (List.range 18) fun s k => if (getMod s k).st = .retired then s else modOff s k .off)

/-- VMOD_RETURN: every channel whose EN is set starts soft start again (R362). -/
def execVmodReturn (s : State) : Res :=
  let s1 := withPower s { s.power with vmodOk := true }
  .next (forEach s1 (List.range 18) fun s k =>
    let m := getMod s k
    if m.en ∧ m.st = .off ∧ s.rst.off = false then setMod s k { m with st := .queued } else s)

end Sys2Proof.Machine
end

