-- ==== Sys2Proof/Machine/Packets.lean ====
section
/-!
DEFINITION. Command packets (R191 to R201): checks at the head of issue, issue, the effects of NOP, DISPATCH, WRITE, SIGNAL,
WAITMEM and ENQ, and completion.
-/

namespace Sys2Proof.Machine

/-! ## Fields (Tables 6.11 to 6.19) -/

def phOp (p : List Byte) : Nat := fieldLe p 0 1
def phUnits (p : List Byte) : Nat := fieldLe p 1 1 % 4 + 1
def phTimed (p : List Byte) : Bool := (fieldLe p 0 8).testBit 10
def phBar (p : List Byte) : Bool := (fieldLe p 0 8).testBit 11
def phSlot (p : List Byte) : Nat := fieldLe p 0 8 / 2 ^ 12 % 32
def phWait (p : List Byte) : BitVec 32 := BitVec.ofNat 32 (fieldLe p 4 4)
def phAt (p : List Byte) : Nat := fieldLe p 8 8

/-- The SIZE_M1 values of an opcode (Table 6.12). -/
def sizeAllowed (op units : Nat) : Bool :=
  match op with
  | 1 | 2 => true
  | 7 => decide (units = 2)
  | n => decide (n ≤ 10 ∧ units = 1)

/-- Fields that more than one packet has, by their byte offset. -/
def pAddr (p : List Byte) : BitVec 64 := BitVec.ofNat 64 (fieldLe p 16 8)
def pRes (p : List Byte) (off : Nat) : BitVec 64 := BitVec.ofNat 64 (fieldLe p off 8)

/-- Whether bytes `off` to the end of a packet are 0. -/
def zeroFrom (p : List Byte) (off : Nat) : Bool := (p.drop off).all (· == 0)

/-- Pool `n` serves a packet of context `x` for `count` blocks (R241). -/
def poolTakes (s : State) (n x count : Nat) : Bool :=
  let k := getPool s n
  bt k.ctl 31 && !k.closing && decide (bf k.ctl 23 12 = x ∧ count ≤ bf k.cnt 19 0 + 1)

/-- Queue `t` may be the target of an ENQ of context `x` (R201). -/
def enqTarget (s : State) (t x : Nat) : Bool :=
  let k := getQueue s t
  decide (t < 16384) && qEn k && qDev k && decide (qCtx k = x)

/-- The checks on the body of a packet of context `x` (R195, Tables 6.13 to 6.24, R201, R224, R241). (DEDUCED: log entry 80.) -/
def bodyOk (s : State) (x : Nat) (p : List Byte) : Bool :=
  match phOp p with
  | 0 => true
  | 1 => decide (fieldLe p 16 8 % 8 = 0 ∧ fieldLe p 24 2 ≤ 255 ∧ fieldLe p 26 2 % 8 = 0 ∧ fieldLe p 26 2 ≤ 64 * phUnits p - 32
      ∧ fieldLe p 28 4 / 2 ^ 22 = 0 ∧ fieldLe p 28 4 % 16 = 0 ∧ fieldLe p 24 2 + 1 ≤ coresInService s)
      && zeroFrom p (32 + fieldLe p 26 2)
  | 2 => decide (fieldLe p 16 8 % 8 = 0 ∧ fieldLe p 24 2 % 8 = 0 ∧ 8 ≤ fieldLe p 24 2 ∧ fieldLe p 24 2 ≤ 64 * phUnits p - 32)
      && zeros p 26 6 && zeroFrom p (32 + fieldLe p 24 2)
  | 3 => decide (fieldLe p 16 8 % 8 = 0 ∧ fieldLe p 24 1 ≤ 9 ∧ (fieldLe p 24 1 ≠ 9 → fieldLe p 40 8 = 0)) && zeros p 25 7 && zeroFrom p 48
  | 4 => decide (fieldLe p 16 8 % (if (fieldLe p 24 1).testBit 3 then 8 else 4) = 0 ∧ fieldLe p 24 1 % 8 ≤ 5 ∧ fieldLe p 24 1 < 16)
      && zeros p 25 7 && zeroFrom p 48
  | 5 => decide (fieldLe p 17 1 ≤ 1 ∧ 1 ≤ fieldLe p 18 2 ∧ fieldLe p 18 2 ≤ 1024 ∧ fieldLe p 24 8 % 8 = 0 ∧ fieldLe p 32 8 % 4 = 0)
      && zeros p 20 4 && zeroFrom p 40 && poolTakes s (fieldLe p 16 1) x (fieldLe p 18 2)
  | 6 => decide (fieldLe p 17 1 = 0 ∧ 1 ≤ fieldLe p 18 2 ∧ fieldLe p 18 2 ≤ 1024 ∧ fieldLe p 24 8 % 8 = 0 ∧ fieldLe p 32 8 % 4 = 0)
      && zeros p 20 4 && zeroFrom p 40 && poolTakes s (fieldLe p 16 1) x (fieldLe p 18 2)
  | 7 => decide (fieldLe p 18 1 ≤ 1 ∧ fieldLe p 24 8 % 4 = 0) && zeros p 19 5 && zeros p 32 32 && enqTarget s (fieldLe p 16 2) x
  | 8 => decide (fieldLe p 16 8 % 64 = 0 ∧ fieldLe p 24 8 % 64 = 0) && zeroFrom p 32
  | 9 => decide (fieldLe p 16 8 % 64 = 0 ∧ fieldLe p 24 8 % 32 = 0 ∧ 1 ≤ fieldLe p 32 2 ∧ fieldLe p 32 2 ≤ 256 ∧ fieldLe p 40 8 % 64 = 0)
      && zeros p 34 6 && zeroFrom p 48
  | 10 => decide (fieldLe p 16 8 % 64 = 0) && zeroFrom p 24
  | _ => false

/-- The checks on the header: reserved bits, AT, and the slot rules (R193, R195). -/
def headerOk (n : NodeRun) (p : List Byte) : Bool :=
  decide (fieldLe p 0 8 / 2 ^ 17 % 2 ^ 16 = 0) && (phTimed p || decide (phAt p = 0))
  && decide (phWait p &&& ~~~ n.named = 0 ∧ bt (phWait p) 0 = false)
  && (decide (phSlot p = 0) || !bt n.named (phSlot p))

/-- The latest of the instants that hold a packet back (R192, R207). -/
def releaseOf (e : EntryRun) (n : NodeRun) (p : List Byte) : Option (BitVec 64) :=
  let l : List Nat := (if phTimed p then [phAt p] else [])
    ++ (if enTimed e.raw then [if enKind e.raw = 1 then enAt e.raw else (enAt e.raw + n.atOff.toNat) % 2 ^ 64] else [])
  match l with
  | [] => none
  | l => some (BitVec.ofNat 64 (l.foldl max 0))

/-- Whether the wait slots and BAR of the packet at the head allow its issue (R192). -/
def waitsMet (n : NodeRun) (p : List Byte) : Bool :=
  decide (phWait p &&& ~~~ n.posted = 0) && (!phBar p || pktsDone n)

/-! ## Issue -/

/-- Changes a node of a running entry. -/
def modNode (s : State) (q node : Nat) (f : NodeRun → NodeRun) : State :=
  modQueue s q fun k => { k with run := k.run.map fun r => { r with nodes := r.nodes.map fun n => if n.idx = node then f n else n } }

/-- The registers of Table 6.14 but for s2 and a1, which the core takes at its start. -/
def startRegs (k : Queue) (e : EntryRun) (node want : Nat) : List (Nat × BitVec 64) :=
  [(1, if enClen e.raw = 0 then 0 else BitVec.ofNat 64 (bf k.cst 63 12 * 4096)), (3, BitVec.ofNat 64 want),
   (4, e.idx.setWidth 64), (5, BitVec.ofNat 64 node), (6, if enKind e.raw = 2 then e.verno.setWidth 64 else 0),
   (7, if enTimed e.raw then BitVec.ofNat 64 (enAt e.raw) else 0)]

/-- The gang of a DISPATCH that begins to wait for cores (R196, R222). -/
def newGang (s : State) (q node off : Nat) (e : EntryRun) (p : List Byte) (reach : Nat) (release : Option (BitVec 64)) : Gang :=
  { id := s.nextGang, queue := q, ctx := qCtx (getQueue s q), node := node, off := off, want := fieldLe p 24 2 + 1,
    entry := pAddr p, inl := slice p 32 (fieldLe p 26 2), inlOff := BitVec.ofNat 22 (fieldLe p 28 4),
    sregs := startRegs (getQueue s q) e node (fieldLe p 24 2 + 1), reach := reach, release := release, st := .waiting, cores := [],
    started := 0, ended := [], slots := [], hidden := [], pkt := p }

/-- Adds a waiting gang. -/
def addGang (s : State) (x : Gang) : State := { s with gangs := s.gangs ++ [x], nextGang := s.nextGang + 1 }

/-- Whether a gang stands for the packet at an offset. -/
def gangAt (s : State) (q node off : Nat) : Option Gang := s.gangs.find? fun x => x.queue = q ∧ x.node = node ∧ x.off = off

/-- Issues the packet at the head of a node (R192). -/
def issuePkt (s : State) (q node : Nat) (p : List Byte) (st : PktSt) : State :=
  modNode s q node fun n => { n with
    next := n.next + 64 * phUnits p, first := true, headAt := none,
    named := if phSlot p = 0 then n.named else sb n.named (phSlot p) true,
    pkts := n.pkts ++ [⟨n.next, BitVec.ofNat 8 (phOp p), phSlot p, p, n.headAt.getD s.now, st, s.now⟩] }

/-- The bytes of the packet at the head of issue: its first 64 bytes, then the rest, where its size is one of its opcode and
lies in the `left` bytes of the buffer (R191). -/
def readPkt (s : State) (x : Nat) (a : BitVec 64) (left : Nat) (r : Reply) : Acc :=
  match hubRead s x 2 a 64 r with
  | ⟨c, h, s1⟩ =>
    if c ≠ St.ok ∨ phUnits h = 1 ∨ sizeAllowed (phOp h) (phUnits h) = false ∨ left < 64 * phUnits h then ⟨c, h, s1⟩
    else
      match hubReadLoop x 2 .read false r (pieces 64 4 (a + 64).toNat (64 * phUnits h - 64)) 64 s1 [] with
      | ⟨c, t, s2⟩ => ⟨c, h ++ t, s2⟩

/-- A checked packet stands at the head of issue: a DISPATCH with a release instant waits for its cores from then on (R225),
and a packet issues once its wait slots, BAR and its release instant allow (R192). -/
def headPkt (s : State) (q node : Nat) (e : EntryRun) (n : NodeRun) (p : List Byte) : State :=
  let rel := releaseOf e n p
  let s1 := modNode s q node fun n => { n with headAt := some (n.headAt.getD s.now) }
  let go := waitsMet n p && (match rel with
    | none => true
    | some t => decide (t.toNat ≤ s.plumb.count.toNat))
  if phOp p = 1 ∧ rel ≠ none then
    match gangAt s q node n.next with
    | some x => if go then issuePkt s1 q node p (.dispatched x.id) else s1
    | none =>
      let s2 := addGang s1 (newGang s1 q node n.next e p (n.headAt.getD s.now) rel)
      if go then issuePkt s2 q node p (.dispatched s1.nextGang) else s2
  else if go then issuePkt s1 q node p .issued
  else s1

/-- PACKET_ISSUE: reads and checks the packet at the head of issue, and issues it once its order, its wait slots, BAR and
its release instant allow (R191 to R195, R225). -/
def execPacketIssue (q : QId) (node : Nat) (r : Reply) (s : State) : Res :=
  let k := getQueue s q.val
  match k.run, nodeOf s q.val node with
  | some e, some n =>
    if k.resetting || decide (n.st ≠ .running ∨ n.len ≤ n.next) then .next s
    else
      match readPkt s (qCtx k) (n.buf + BitVec.ofNat 64 n.next) (n.len - n.next) r with
      | ⟨c, p, s1⟩ =>
        if c = St.migratePending then .next s1
        else if c ≠ St.ok then .next (entryFault s1 q.val c node n.next)
        else if !(decide ((gangAt s q.val node n.next).isSome) || (sizeAllowed (phOp p) (phUnits p)
            && decide (n.next + 64 * phUnits p ≤ n.len) && headerOk n p && bodyOk s1 (qCtx k) p)) then
          .next (entryFault s1 q.val St.cmdReserved node n.next)
        else .next (headPkt s1 q.val node e n (((gangAt s q.val node n.next).map fun x => x.pkt).getD p))
  | _, _ => .next s

/-! ## Completion -/

/-- Whether a code of a packet makes its entry faulty (R210, R211). -/
def pktFaulty (op : BitVec 8) (c : Code) : Bool :=
  decide (c ≠ St.ok) && !(decide (op = 5 ∧ c = St.poolEmpty)) && !(decide (op = 7 ∧ (c = St.queueFull ∨ c = St.queueGuilty)))

/-- Completes a packet with a code: its slot is posted, or its entry is faulty (R193, R194, R211). (DESIGN CHOICE: log entry 47.) (DESIGN CHOICE: log entry 73.) -/
def pktEnd (s : State) (q node off : Nat) (p : PktRun) (c : Code) : State :=
  let s1 := modPkt s q node off fun p => { p with st := .done }
  if pktFaulty p.op c then nodeSettle (entryFault s1 q c node off) q node
  else nodeSettle (modNode s1 q node fun n => { n with posted := if p.slot = 0 then n.posted else sb n.posted p.slot true }) q node

/-- PACKET_COMPLETE: all effects of the packet are performed; a DISPATCH completes under the release flush of its context, once
the lines written back to other packages are performed at their homes (R194, R358). (DESIGN CHOICE: log entry 73.) -/
def execPacketComplete (q : QId) (node : Nat) (off : Nat) (s : State) : Res :=
  match pktOf s q.val node off with
  | none => .next s
  | some p =>
    match p.st with
    | .performed c =>
      let s1 := if p.op = 1 then flushPass s (qCtx (getQueue s q.val)) else s
      .next (if p.op = 1 ∧ backsOut s1 (qCtx (getQueue s q.val)) = true then s1 else pktEnd s1 q.val node off p c)
    | _ => .next s

/-- Runs the effect of an issued packet of one opcode. -/
def onIssued (s : State) (q node off : Nat) (op : BitVec 8) (f : PktRun → State) : Res :=
  match pktOf s q node off with
  | none => .next s
  | some p => if p.op = op ∧ p.st = .issued then .next (f p) else .next s

/-- The effect of a packet that ends with a code; one that waits for a page stays as it is. -/
def performed (s : State) (q node off : Nat) (c : Code) : State :=
  if c = St.migratePending then s else modPkt s q node off fun p => { p with st := .performed c }

/-- PACKET_NOP: completes at issue (R194, Table 6.12). -/
def execPacketNop (q : QId) (node : Nat) (off : Nat) (s : State) : Res :=
  onIssued s q.val node off 0 fun p => pktEnd s q.val node off p St.ok

/-- DISPATCH: begins to wait for its cores (R196, R222). (DEDUCED: log entry 44.) -/
def execDispatch (q : QId) (node : Nat) (off : Nat) (s : State) : Res :=
  onIssued s q.val node off 1 fun p =>
    match (getQueue s q.val).run with
    | none => s
    | some e =>
      addGang (modPkt s q.val node off fun p => { p with st := .dispatched s.nextGang }) (newGang s q.val node off e p.raw p.issued none)

/-- WRITE (R197). -/
def execWrite (q : QId) (node : Nat) (off : Nat) (r : Reply) (s : State) : Res :=
  onIssued s q.val node off 2 fun p =>
    match hubWrite s (qCtx (getQueue s q.val)) 2 (pAddr p.raw) .write (slice p.raw 32 (fieldLe p.raw 24 2)) r with
    | ⟨c, _, s1⟩ => performed s1 q.val node off c

/-- SIGNAL: one 8-byte atomic whose old value is discarded (R198). -/
def execSignal (q : QId) (node : Nat) (off : Nat) (r : Reply) (s : State) : Res :=
  onIssued s q.val node off 3 fun p =>
    match hubAtomic s (qCtx (getQueue s q.val)) 2 (pAddr p.raw) 8 (fieldLe p.raw 24 1) (fieldLe p.raw 32 8) (fieldLe p.raw 40 8) r with
    | ⟨c, _, s1⟩ => performed s1 q.val node off c

/-! ## WAITMEM (R199) -/

/-- WAITMEM starts to wait on its flag. -/
def execWaitmem (q : QId) (node : Nat) (off : Nat) (_r : Reply) (s : State) : Res :=
  onIssued s q.val node off 4 fun _ => modPkt s q.val node off fun p => { p with st := .waiting }

/-- WAITMEM_EVALUATE: completes when the condition holds; a deadline reached first, be the flag's page on its way, makes the
entry hung (R199, R212, R215). -/
def execWaitmemEvaluate (q : QId) (node : Nat) (off : Nat) (r : Reply) (s : State) : Res :=
  match pktOf s q.val node off with
  | none => .next s
  | some p =>
    if ¬ (p.op = 4 ∧ p.st = .waiting) then .next s
    else
      let b := fieldLe p.raw 24 1
      let n := if b.testBit 3 then 8 else 4
      match hubFlag s (qCtx (getQueue s q.val)) 2 (pAddr p.raw) n r with
      | ⟨c, d, s1⟩ =>
        let dl := fieldLe p.raw 40 8
        let late := decide (dl ≠ 0 ∧ dl ≤ s.plumb.count.toNat)
        if c ≠ St.ok ∧ c ≠ St.migratePending then .next (performed s1 q.val node off c)
        else if c = St.ok ∧ condHolds (b % 8) (8 * n) (leNat d) (fieldLe p.raw 32 8) = true then .next (performed s1 q.val node off St.ok)
        else if late then .next (entryFault s1 q.val St.queueGuilty node off)
        else .next s1

/-! ## ENQ (R201) -/

/-- Writes the 4-byte result of a packet to RES, if it has one; gives the code of the write. -/
def writeRes (s : State) (x : Nat) (res : BitVec 64) (c : Code) : Code × State :=
  if res = 0 then (St.ok, s)
  else match hubWrite s x 2 res .write (toLe 4 c.toNat) .home with
    | ⟨w, _, s1⟩ => (w, s1)

/-- Whether an ENQ of another packet on queue `t` goes first: one that issued earlier, or in the same cycle from a lower
queue (R187). -/
def enqFirst (s : State) (t q node off at' : Nat) : Bool :=
  s.queues.any fun i => !i.2.resetting && (match i.2.run with
    | none => false
    | some e => e.nodes.any fun n => n.pkts.any fun p =>
        decide (p.op = 7 ∧ (p.st = .issued ∨ p.st = .retrying) ∧ fieldLe p.raw 16 2 = t ∧ (i.1, n.idx, p.off) ≠ (q, node, off))
          && rankLe (p.since, i.1, 2 ^ 32 * n.idx + p.off) (at', q, 2 ^ 32 * node + off))

/-- One attempt of an ENQ: the push, the slot write, and the result; of two that the ring can take, the earlier goes first (R186,
R187, R201). (DEDUCED: log entry 41.) (DEDUCED: log entry 80.) -/
def enqStep (s : State) (q node off : Nat) (p : PktRun) (r : Reply) : State :=
  let x := qCtx (getQueue s q)
  let t := fieldLe p.raw 16 2
  let res := pRes p.raw 24
  if !enqTarget s t x then performed s q node off St.cmdReserved
  else
    let k := getQueue s t
    let slot := BitVec.ofNat 64 (bf k.base 63 12 * 4096 + 64 * (k.wptr.toNat % qSize k))
    if decide ((pushTry k 1).1 = .accepted) && enqFirst s t q node off p.since then s
    else match hubProbe x ((slot, .write) :: (if res = 0 then [] else [(res, .write)])) s with
    | (true, s1) => s1
    | (false, s1) =>
      match pushTry k 1 with
      | (.guilty, k1) =>
        match writeRes (setQueue s1 t k1) x res St.queueGuilty with
        | (w, s2) => performed s2 q node off (if w = St.ok then St.queueGuilty else w)
      | (.full, k1) =>
        let s2 := setQueue s1 t k1
        if fieldLe p.raw 18 1 = 1 then modPkt s2 q node off fun p => { p with st := .retrying }
        else
          match writeRes s2 x res St.queueFull with
          | (w, s3) => performed s3 q node off (if w = St.ok then St.queueFull else w)
      | (.accepted, k1) =>
        match hubWrite (setQueue s1 t k1) x 2 slot .write (slice p.raw 64 64) r with
        | ⟨c, _, s2⟩ =>
          match writeRes s2 x res c with
          | (w, s3) => performed s3 q node off (if c = St.ok then w else c)

/-- ENQ. -/
def execEnq (q : QId) (node : Nat) (off : Nat) (r : Reply) (s : State) : Res :=
  onIssued s q.val node off 7 fun p => enqStep s q.val node off p r

/-- ENQ_RETRY: an FWAIT ENQ judges its target again. -/
def execEnqRetry (q : QId) (node : Nat) (off : Nat) (r : Reply) (s : State) : Res :=
  match pktOf s q.val node off with
  | none => .next s
  | some p => if p.op = 7 ∧ p.st = .retrying then .next (enqStep s q.val node off p r) else .next s

end Sys2Proof.Machine
end

