-- ==== Sys2Proof/Machine/SaveImage.lean ====
section
/-!
DEFINITION. The save image of a core (R175, Tables 5.23 and 5.24), its writing and its reading back (R176, R178).
-/

namespace Sys2Proof.Machine

/-- The bytes of a save image, and the stride of image slots (R175, R228). -/
def imageSize : Nat := 4854784
def slotStride : Nat := 0x4C0000

/-- A list cut or filled with zeros to `n` bytes. -/
def padTo (n : Nat) (l : List Byte) : List Byte := slice l 0 n

/-- `n` blocks, one after another. -/
def blocks (n : Nat) (f : Nat → List Byte) : List Byte := (List.range n).flatMap f

/-- The wait descriptor: instruction word, flag address, compare value, deadline. The spec does not place the target of a saved
WAITP: it stands as the deadline, beside flag address and compare value 0. (DESIGN CHOICE: log entry 12.) -/
def waitBytes (k : CoreSt) : List Byte :=
  match k.wait with
  | some (.waitf word a _ _ _ _ value dl _) => toLe 8 word.toNat ++ toLe 8 a.va.toNat ++ toLe 8 value.toNat ++ toLe 8 dl.toNat ++ toLe 16 0
  | some (.waitp word t) => toLe 8 word.toNat ++ toLe 16 0 ++ toLe 8 t.toNat ++ toLe 16 0
  | _ => toLe 48 0

/-- Whether a wait descriptor is valid: an abandoned WAITF or WAITP (R176). -/
def waitValid (k : CoreSt) : Bool :=
  match k.wait with
  | some (.waitf _ _ _ _ _ _ _ _ _) => true
  | some (.waitp _ _) => true
  | _ => false

/-- Bytes 0 to 63 and the segments of an active table image. -/
def tableBytes (k : CoreSt) (n : Nat) : List Byte := ((tget none k.mem.tables n).map fun t => t.bytes).getD []

/-- The table record of a slot (Table 5.24): active IB (0xFF for an empty slot), pending flag, pending CTBL source offset, pending
IB; their widths are 1 B, 1 B, 4 B and 1 B, then 1 B of 0. (DESIGN CHOICE: log entry 12.) -/
def tableRec (k : CoreSt) (n : Nat) : List Byte :=
  let ib := ((tget none k.mem.tables n).map fun t => t.ib.toNat).getD 0xFF
  match tget none k.mem.shadow n with
  | none => toLe 1 ib ++ toLe 7 0
  | some f => toLe 1 ib ++ toLe 1 1 ++ toLe 4 f.src.toNat ++ toLe 1 f.ib.toNat ++ toLe 1 0

/-- A DMA channel's record of 40 B: queue count, plane, row and byte of the head, each 8 B, then 8 B of 0; the spec gives the
fields and no widths. (DESIGN CHOICE: log entry 12.) -/
def dmaRec (k : CoreSt) (ch : Nat) : List Byte :=
  let d := chanAt k ch
  toLe 8 d.queue.length ++ toLe 8 d.plane ++ toLe 8 d.row ++ toLe 8 d.byte ++ toLe 8 0

/-- A held operation's record of 128 B: its two words, its dispatch number, and the register values read at issue, each 8 B; the
spec gives the contents and no layout. (DESIGN CHOICE: log entry 12.) -/
def holdRec (k : CoreSt) (u : Nat) : List Byte :=
  match holdOf k u with
  | none => toLe 128 0
  | some h => padTo 128 (toLe 8 h.w0.toNat ++ toLe 8 h.w1.toNat ++ toLe 8 h.disp ++ h.vals.flatMap fun v => toLe 8 v.toNat)

/-- A loop record: index, count and end address. -/
def loopRec (k : CoreSt) (i : Nat) : List Byte :=
  let l := lreg k i
  toLe 4 l.index.toNat ++ toLe 4 l.count.toNat ++ toLe 8 l.last.toNat

/-- The state block (Table 5.24). -/
def stateBlock (k : CoreSt) : List Byte :=
  blocks 32 (fun i => toLe 8 (sreg k i).toNat) ++ blocks 8 (fun i => toLe 8 (areg k i).toNat) ++ toLe 8 k.regs.pc.toNat
    ++ toLe 8 ((if waitValid k then 1 else 0) + ((List.range 4).map fun i => if (lreg k i).active then 2 ^ (i + 1) else 0).sum)
    ++ blocks 4 (loopRec k) ++ waitBytes k
    ++ blocks 9 (fun u => toLe 4 (tget 0 k.cr.ucnt u).toNat ++ toLe 4 (tget 0 k.cr.ecode u).toNat)
    ++ toLe 4 k.cr.cfg.toNat ++ toLe 4 k.cr.cfgShadow.toNat ++ toLe 4 k.cr.seed.toNat ++ toLe 4 k.cr.seedShadow.toNat
    ++ toLe 4 k.cr.fpstat.toNat ++ toLe 4 k.cr.waitcyc.toNat ++ toLe 4 k.cr.chsFault0.toNat ++ toLe 4 k.cr.chsFault1.toNat
    ++ toLe 4 k.cr.chsFault2.toNat ++ toLe 4 k.dispNo ++ toLe 16 0
    ++ blocks 4 (fun n => padTo 64 (tableBytes k n)) ++ blocks 4 (tableRec k) ++ blocks 4 (dmaRec k) ++ blocks 5 (holdRec k)
    ++ toLe 2432 0

/-- The save image (Table 5.23). (DESIGN CHOICE: log entry 12.) -/
def imageBytes (k : CoreSt) : List Byte :=
  rdN k.mem.spad 0 spadSize
    ++ blocks 131072 (fun i => toLe 4 (tget 0 k.mem.acc i).toNat)
    ++ blocks 4096 (fun i => toLe 8 (tget 0 k.mem.vreg i).toNat)
    ++ blocks 4 (fun n => padTo 16384 ((tableBytes k n).drop 64))
    ++ blocks 4 (fun c => padTo 8192 ((chanAt k c).queue.flatMap fun d => toLe 64 d.raw.toNat))
    ++ blocks 512 (fun i => toLe 2 (genGet k.mem i).toNat)
    ++ stateBlock k

/-- What the image leaves out. -/
def hiddenOf (k : CoreSt) : Hidden :=
  { starts := (List.range 4).map fun i => (lreg k i).start,
    dma := (List.range 4).map fun c => (chanAt k c).queue.map fun d => (d.disp, d.pc),
    holds := (List.range 5).map fun u => ((holdOf k u).map fun h => h.pc).getD 0,
    commit := k.cr.commitPend }

/-! ## Reading back -/

/-- A table of words built from `n` values. -/
def tabOf {α : Type} [DecidableEq α] (d : Nat → α) (n : Nat) (f : Nat → α) : Tab α :=
  (List.range n).foldl (fun t i => tset (d i) t i (f i)) []

/-- The DMA channel `c` of an image; a head begun before the save goes on at its progress. -/
def chanFrom (img : List Byte) (h : Hidden) (c : Nat) : DmaChan :=
  let o := 0x4A0400 + 0x360 + 40 * c
  let n := min (fieldLe img o 8) 128
  let tags := h.dma.getD c []
  let q := (List.range n).map fun j =>
    let tg := tags.getD j (0, 0)
    (⟨BitVec.ofNat 512 (fieldLe img (0x498000 + 8192 * c + 64 * j) 64), tg.1, tg.2⟩ : DmaDesc)
  let pl := fieldLe img (o + 8) 8
  let rw := fieldLe img (o + 16) 8
  let by_ := fieldLe img (o + 24) 8
  if pl = 0 ∧ rw = 0 ∧ by_ = 0 then { queue := q }
  else { queue := q, phase := .moving, plane := pl, row := rw, byte := by_, seen := wrN [] 0 (slice img 0 spadSize) }

/-- The held operation of unit `u` of an image. -/
def holdFrom (img : List Byte) (h : Hidden) (u : Nat) : Option HeldOp :=
  let o := 0x4A0400 + 0x400 + 128 * u
  let w0 := BitVec.ofNat 64 (fieldLe img o 8)
  let mk (kind : EngKind) : Option HeldOp :=
    some ⟨kind, w0, BitVec.ofNat 64 (fieldLe img (o + 8) 8), fieldLe img (o + 16) 8, h.holds.getD u 0,
      (List.range 13).map fun i => BitVec.ofNat 64 (fieldLe img (o + 24 + 8 * i) 8), false⟩
  match bf w0 63 56 with
  | 0x40 => mk .amm
  | 0x48 => mk .chn
  | 0x49 => mk .cfold
  | 0x4A => mk .ctbl
  | _ => none

/-- The wait of an image, which is armed again with its saved operands (R178). -/
def waitFrom (img : List Byte) (k : CoreSt) (now : Nat) : Option WaitSt :=
  let o := 0x4A0400 + 0x190
  let word := BitVec.ofNat 64 (fieldLe img o 8)
  let w : Bits := word.setWidth 56
  let va := BitVec.ofNat 64 (fieldLe img (o + 8) 8)
  let dl := BitVec.ofNat 64 (fieldLe img (o + 24) 8)
  if (fieldLe img (0x4A0400 + 0x148) 8).testBit 0 then
    if bf word 63 56 = 0x61 then
      some (.waitf word { id := k.nextAcc, kind := .flag, va := va, size := if fW64 w then 8 else 4, sd := BitVec.ofNat 5 (fSD w),
                          sx := false, func := 0, data := 0, cmp := 0, pc := k.regs.pc, x := .miss, issued := now } false
        (BitVec.ofNat 5 (fSD w)) (BitVec.ofNat 3 (fCond w)) (fW64 w) (BitVec.ofNat 64 (fieldLe img (o + 16) 8)) dl (decide (fST w ≠ 0)))
    else if bf word 63 56 = 0x62 then some (.waitp word dl)
    else none
  else none

/-- The active table of slot `n` of an image. -/
def tableFrom (img : List Byte) (n : Nat) : Option FTable :=
  let ib := fieldLe img (0x4A0400 + 0x340 + 8 * n) 1
  if ib ≤ 10 then
    some ⟨BitVec.ofNat 4 ib, slice img (0x4A0400 + 0x240 + 64 * n) 64 ++ slice img (0x488000 + 16384 * n) (16 * 2 ^ ib)⟩
  else none

/-- The pending table of slot `n`: its CTBL runs again from the restored scratchpad, whose offsets wrap (R75, R178 step 4). -/
def shadowFrom (img : List Byte) (n : Nat) : Option FShadow :=
  let o := 0x4A0400 + 0x340 + 8 * n
  if fieldLe img (o + 1) 1 = 1 then
    let ib := fieldLe img (o + 6) 1 % 16
    let src := fieldLe img (o + 2) 4 % spadSize
    some ⟨BitVec.ofNat 22 src, BitVec.ofNat 4 ib,
      some ⟨BitVec.ofNat 4 ib, (List.range (64 + 16 * 2 ^ ib)).map fun i => img.getD ((src + i) % spadSize) 0⟩⟩
  else none

/-- A core after the restore of an image (R178): all of Table 5.23, and the registers that the image does not hold as at a
start; ASH_ERR, CHS_ERR and SPAD_ERR stay with the core. (DESIGN CHOICE: log entry 12.) -/
def restoreImage (k : CoreSt) (img : List Byte) (h : Hidden) (x now : Nat) : CoreSt :=
  let b := 0x4A0400
  let k := startState k
  let seed := BitVec.ofNat 16 (fieldLe img (b + 0x210) 2)
  let flags := fieldLe img (b + 0x148) 8
  let k := { k with
    ctx := x,
    lastCtx := some x,
    dispNo := fieldLe img (b + 0x22C) 4,
    regs := {
      s := tabOf (fun _ => 0) 32 fun i => if i = 0 then 0 else BitVec.ofNat 64 (fieldLe img (b + 8 * i) 8),
      a := tabOf (fun _ => 0) 8 fun i => if i = 0 then 0 else BitVec.ofNat 64 (fieldLe img (b + 0x100 + 8 * i) 8),
      lc := tabOf (fun _ => {}) 4 fun i =>
        { active := flags.testBit (i + 1), index := BitVec.ofNat 32 (fieldLe img (b + 0x150 + 16 * i) 4),
          count := BitVec.ofNat 32 (fieldLe img (b + 0x154 + 16 * i) 4), start := h.starts.getD i 0,
          last := BitVec.ofNat 64 (fieldLe img (b + 0x158 + 16 * i) 8) },
      pc := BitVec.ofNat 64 (fieldLe img (b + 0x140) 8),
      began := true },
    mem := {
      spad := wrN [] 0 (slice img 0 spadSize),
      acc := tabOf (fun _ => 0) 131072 fun i => BitVec.ofNat 32 (fieldLe img (0x400000 + 4 * i) 4),
      vreg := tabOf (fun _ => 0) 4096 fun i => BitVec.ofNat 64 (fieldLe img (0x480000 + 8 * i) 8),
      genSeed := seed,
      gens := tabOf (genFresh seed) 512 fun i => BitVec.ofNat 16 (fieldLe img (0x4A0000 + 2 * i) 2),
      tables := tabOf (fun _ => none) 4 (tableFrom img),
      shadow := tabOf (fun _ => none) 4 (shadowFrom img) },
    cr := { k.cr with
      cfg := BitVec.ofNat 32 (fieldLe img (b + 0x208) 4), cfgShadow := BitVec.ofNat 32 (fieldLe img (b + 0x20C) 4),
      seed := BitVec.ofNat 32 (fieldLe img (b + 0x210) 4), seedShadow := BitVec.ofNat 32 (fieldLe img (b + 0x214) 4),
      fpstat := BitVec.ofNat 32 (fieldLe img (b + 0x218) 4), waitcyc := BitVec.ofNat 32 (fieldLe img (b + 0x21C) 4),
      chsFault0 := BitVec.ofNat 32 (fieldLe img (b + 0x220) 4), chsFault1 := BitVec.ofNat 32 (fieldLe img (b + 0x224) 4),
      chsFault2 := BitVec.ofNat 32 (fieldLe img (b + 0x228) 4),
      ucnt := tabOf (fun _ => 0) 9 fun u => BitVec.ofNat 32 (fieldLe img (b + 0x1C0 + 8 * u) 4),
      ecode := tabOf (fun _ => 0) 9 fun u => BitVec.ofNat 32 (fieldLe img (b + 0x1C4 + 8 * u) 4),
      commitPend := h.commit },
    hold := tabOf (fun _ => none) 5 (holdFrom img h),
    dma := tabOf (fun _ => {}) 4 (chanFrom img h) }
  { k with wait := waitFrom img k now }

end Sys2Proof.Machine
end

