-- ==== Sys2Proof/Machine/Sched.lean ====
section
/-!
DEFINITION. The scheduler (R219 to R237): rank, the choice of cores, grants, timed release, pre-emption, save, restore and
the failure of a core.
-/

namespace Sys2Proof.Machine

/-! ## The choice of cores (R222, R223) -/

/-- Whether a core is free and in service (R222). -/
def coreFree (s : State) (c : Nat) : Bool :=
  let k := getCore s c
  decide (k.phase = .free) && !k.retired && !k.retireDue && !isDirect k && decide (k.gang = none)

/-- Offers of a core group as (cores, worth): every choice among its free cores. The worth weighs a whole group before each
core last held by the context, and that before low core numbers. -/
def groupOffers (s : State) (x g : Nat) : List (Nat × Nat) :=
  let free := (List.range 4).map (fun i => 4 * g + i) |>.filter (coreFree s)
  free.sublists.map fun l =>
    (l.length,
     ((if l.length = 4 then 1000 else 0) + (l.filter fun c => decide ((getCore s c).lastCtx = some x)).length) * 2 ^ 256
      + (l.map fun c => 2 ^ (255 - c)).sum)

/-- The better of two worths. -/
def better : Option Nat → Option Nat → Option Nat
  | none, b => b
  | a, none => a
  | some a, some b => some (max a b)

/-- Adds one source of cores to the best worths by number of cores, up to `n`. -/
def mergeOffers (n : Nat) (best : List (Option Nat)) (offers : List (Nat × Nat)) : List (Option Nat) :=
  (List.range (n + 1)).map fun k =>
    offers.foldl (fun acc o =>
      if o.1 ≤ k then better acc ((best.getD (k - o.1) none).map fun b => b + o.2) else acc) none

/-- The best worths of a tower by number of cores. -/
def towerBest (s : State) (x n t : Nat) : List (Option Nat) :=
  (List.range 8).foldl (fun b i => mergeOffers (min n 32) b (groupOffers s x (8 * t + i))) [some 0]

/-- Offers of a tower: taking no core of it is worth more than any choice of cores elsewhere. -/
def towerOffers (s : State) (x n t : Nat) : List (Nat × Nat) :=
  (towerBest s x n t).zipIdx.filterMap fun p => p.1.map fun v => (p.2, v + if p.2 = 0 then 1000000 * 2 ^ 256 else 0)

/-- The cores of a DISPATCH of `n` cores of context `x`, in increasing number, by the criteria of R223: fewest towers, most
whole groups, most cores last held by the context, lowest numbers. The low 256 bits of the best worth name them. -/
def chooseCores (s : State) (x n : Nat) : Option (List Nat) :=
  let best := (List.range 8).foldl (fun b t => mergeOffers n b (towerOffers s x n t)) [some 0]
  (best.getD n none).map fun v => (List.range 256).filter fun c => v.testBit (255 - c)

/-! ## Rank (R220, R222, R230) -/

/-- The priority of a gang. -/
def gangPrio (s : State) (x : Gang) : Nat := qPrio (getQueue s x.queue)

/-- Whether the preparation of a timed gang has begun by the Plumb count (R225). -/
def inLead (s : State) (x : Gang) : Bool :=
  match x.release with
  | none => true
  | some t => decide (t.toNat ≤ s.plumb.count.toNat + bf s.schCfg 31 20 * 1000)

/-- Ranks of a gang that have not ended, lowest first, and those of them that have no core. -/
def liveRanks (x : Gang) : List Nat := (List.range x.want).filter fun r => x.ended.all fun e => decide (e.1 ≠ r)
def openRanks (x : Gang) : List Nat := (liveRanks x).filter fun r => x.cores.all fun p => decide (p.1 ≠ r)

/-- Whether a gang asks for cores; a prepared gang that has lost a core asks for another (R227). -/
def asks (s : State) (x : Gang) : Bool :=
  match x.st with
  | .saved => true
  | .waiting => inLead s x
  | .prepared => decide (openRanks x ≠ [])
  | .granted | .running | .saving | .restoring | .stopped => false

/-- The order of service: priority, saved gangs before those not started, then rank. -/
def serveLe (s : State) (a b : Gang) : Bool :=
  let ka := (2 * gangPrio s a + (if a.st = .saved then 0 else 1), a.reach, a.queue)
  let kb := (2 * gangPrio s b + (if b.st = .saved then 0 else 1), b.reach, b.queue)
  rankLe ka kb

/-- The gang that is served next. -/
def topGang (s : State) : Option Gang :=
  (s.gangs.filter (asks s)).foldl (fun best x => match best with
    | none => some x
    | some y => if serveLe s y x then some y else some x) none

/-- Places the ranks of a gang that have no core on cores in a phase, rank by rank in increasing core number (R223). -/
def placeGang (s : State) (x : Gang) (cs : List Nat) (ph : CorePhase) (st : GangSt) : State :=
  let s := setGang s { x with st := st, cores := x.cores ++ (openRanks x).zip cs }
  forEach s cs fun s c => modCore s c fun k => { k with phase := ph, gang := some x.id }

/-- CORE_GRANT: the gang of highest rank, when it is not timed and not saved, is granted its cores (R222, R223). (DESIGN CHOICE: log entry 8.) -/
def execCoreGrant (s : State) : Res :=
  match topGang s with
  | none => .next s
  | some x =>
    if x.st ≠ .waiting ∨ x.release ≠ none then .next s
    else match chooseCores s x.ctx x.want with
      | none => .next s
      | some cs => .next (placeGang s x cs .granted .granted)

/-! ## Timed release (R225 to R227) -/

/-- TIMED_PREPARE: within the lead, a timed gang of highest rank has its cores granted, cleared and set up; one that lost a
prepared core has a free core prepared for its rank (R225, R227). (DEDUCED: log entry 44.) -/
def execTimedPrepare (g : Nat) (s : State) : Res :=
  match topGang s with
  | none => .next s
  | some x =>
    if x.id ≠ g ∨ x.st = .saved ∨ x.release = none then .next s
    else match chooseCores s x.ctx (openRanks x).length with
      | none => .next s
      | some cs =>
        let s1 := placeGang s x cs .prepared .prepared
        .next (forEach s1 ((openRanks x).zip cs) fun s p => modCore s p.2 fun k =>
          { prepareKernel k x p.1 with phase := .prepared, gang := some g })

/-- Starts the kernels of a prepared gang. -/
def startGang (s : State) (x : Gang) : State :=
  forEach (setGang s { x with st := .running, started := s.now }) x.cores fun s p =>
    modCore (acquire s (towerOf p.2)) p.2 fun k => { k with phase := .running }

/-- TIMED_RELEASE: at its instant the packet issues, if it has not yet, and every kernel starts; a gang whose cores were not
prepared by then starts as soon as they are (R226, R227). (DESIGN CHOICE: log entry 8.) -/
def execTimedRelease (g : Nat) (s : State) : Res :=
  match gangOf s g with
  | none => .next s
  | some x =>
    match x.release, nodeOf s x.queue x.node with
    | some t, some n =>
      if !(decide (x.st = .prepared ∧ openRanks x = [] ∧ t.toNat ≤ s.plumb.count.toNat) && !(getQueue s x.queue).resetting) then .next s
      else if (pktOf s x.queue x.node x.off).isSome then .next (startGang s x)
      else if n.st = .running ∧ n.next = x.off ∧ waitsMet n x.pkt = true then
        .next (startGang (issuePkt s x.queue x.node x.pkt (.dispatched g)) x)
      else .next s
    | _, _ => .next s

/-! ## Pre-emption (R221, R228 to R230) -/

/-- Whether a gang of priority `p` may pre-empt gang `v` (R221, Table 7.1). (DEDUCED: log entry 45.) -/
def mayPreempt (s : State) (p : Nat) (v : Gang) : Bool :=
  decide (p < gangPrio s v)
  && (match v.st with
    | .granted | .prepared => true
    | .running => decide (p = 0 ∨ v.started + bf s.schCfg 19 10 * 1000 ≤ s.now)
    | .waiting | .saving | .saved | .restoring | .stopped => false)

/-- Free image slots of a context, lowest first (R228). -/
def openSlots (s : State) (x : Nat) : List Nat :=
  let k := getCtx s x
  (List.range (bf k.csave 8 0)).filter fun n => !k.slots.contains n

/-- The order in which victims are chosen (R229): lowest priority, then the most recently started or restored, with gangs that
have not started first, then the higher queue number. -/
def victimLe (s : State) (a b : Gang) : Bool :=
  let key : Gang → Nat × Nat × Nat := fun x => (3 - gangPrio s x, if x.st = .running then s.now - x.started + 1 else 0, 16383 - x.queue)
  rankLe (key a) (key b)

/-- Whether the kernel of a core has issued an instruction: one has moved its pc, or waits, ends, faults or stops issue at it. -/
def hasIssued (k : CoreSt) : Bool := k.regs.began || k.ended || k.cr.commitPend || decide (k.wait ≠ none ∨ k.fault ≠ none)

/-- Whether a gang has issued an instruction on some core. -/
def gangBegan (s : State) (x : Gang) : Bool :=
  decide (x.st = .running) && (!decide (x.ended = []) || x.cores.any fun p => hasIssued (getCore s p.2))

/-- Notice to one victim (R230): a gang that has issued no instruction returns to waiting; a running gang takes image slots
and its cores stop at an instruction boundary (R176 step 1). -/
def notice (s : State) (v : Gang) : State :=
  if gangBegan s v then
    let sl := (liveRanks v).zip (openSlots s v.ctx)
    let s1 := modCtx s v.ctx fun k => { k with slots := k.slots ++ sl.map Prod.snd }
    let s2 := setGang s1 { v with st := .saving, slots := sl }
    forEach s2 v.cores fun s p => modCore s p.2 fun k => { k with phase := .saving, stop := true }
  else forEach (setGang s { v with st := .waiting, cores := [] }) v.cores fun s p => modCore s p.2 coreFreed

/-- Chooses victims in order until enough cores are at hand; `none` when they do not suffice. A running gang that needs more
slots than its context has left is passed over. (DEDUCED: log entry 45.) -/
def chooseVictims (s : State) : List Gang → Nat → State → List Gang → Option (List Gang)
  | [], need, _, acc => if need = 0 then some acc else none
  | v :: t, need, s', acc =>
    if need = 0 then some acc
    else if gangBegan s' v = true ∧ (openSlots s' v.ctx).length < (liveRanks v).length then chooseVictims s t need s' acc
    else chooseVictims s t (need - v.cores.length) (notice s' v) (acc ++ [v])

/-- PREEMPT: the waiting DISPATCH of highest rank, finding too few free cores, pre-empts victims if their cores then suffice
(R229). (DEDUCED: log entry 45.) -/
def execPreempt (g : Nat) (s : State) : Res :=
  match topGang s with
  | none => .next s
  | some x =>
    let free := ((List.range 256).filter (coreFree s)).length
    let need := (openRanks x).length
    if x.id ≠ g ∨ need ≤ free then .next s
    else
      let vs := (s.gangs.filter (mayPreempt s (gangPrio s x))).mergeSort (victimLe s)
      match chooseVictims s vs (need - free) s [] with
      | none => .next s
      | some l => .next (forEach s l notice)

/-! ## Save and restore (R175 to R178, R228, R230) -/

/-- The address of an image slot of a context. -/
def slotAddr (s : State) (x n : Nat) : BitVec 64 := BitVec.ofNat 64 (bf (getCtx s x).csave 63 22 * 2 ^ 22 + n * slotStride)

/-- The image of rank `rank` of a gang has been written: its core is free (R176, R228). -/
def imageSaved (s : State) (x : Gang) (rank c : Nat) : State :=
  let h := hiddenOf (getCore s c)
  let s1 := setGang s { x with cores := x.cores.filter fun p => p.2 ≠ c, hidden := x.hidden ++ [(rank, h)] }
  finishGang (modCore s1 c coreFreed) x.id

/-- Writes the image `bs` of a core at `a`; a fault of a write ends the kernel (R176, R228). -/
def writeImageAt (s : State) (x : Gang) (rank c : Nat) (a : BitVec 64) (bs : List Byte) : State :=
  match hubWrite s x.ctx (3 + 8 * c) a .both bs .home with
  | ⟨code, _, s1⟩ =>
    if code ≠ St.ok then modCore s1 c fun k => kernelFault { k with stop := false } code 2 0 k.regs.pc a
    else imageSaved s1 x rank c

/-- Writes the image of a core into the slot of its rank, once no page of the slot is on its way. -/
def writeImage (s : State) (x : Gang) (rank c : Nat) : State :=
  let slot := ((x.slots.find? fun p => p.1 = rank).map Prod.snd).getD 0
  let a := slotAddr s x.ctx slot
  match hubProbe x.ctx (linesOf a imageSize .both) s with
  | (true, s1) => s1
  | (false, s1) => writeImageAt s1 x rank c a (imageBytes (getCore s1 c))

/-- CORE_SAVE_DONE: with its accepted operations complete, its accesses over and no steering stall of its fields, the save
machine writes the core's image (R25, R176). -/
def execCoreSaveDone (c : Core) (s : State) : Res :=
  let k := getCore s c.val
  match k.gang.bind (gangOf s) with
  | none => .next s
  | some x =>
    if !(decide (k.phase = .saving ∧ x.st = .saving ∧ k.fault = none ∧ k.accs = []) && enginesIdle k && !k.retired)
        || fieldStalls s c.val then .next s
    else
      let s1 := combFlush s c.val
      if coreWaits s1 c.val || decide ((getCore s1 c.val).fault ≠ none) then .next s1
      else
        match x.cores.find? fun p => p.2 = c.val with
        | none => .next s1
        | some p => .next (writeImage s1 x p.1 c.val)

/-- Restores the image of one rank onto its core, which then resumes (R178, R302). -/
def restoreOne (s : State) (x : Gang) (rank c : Nat) : State :=
  let slot := ((x.slots.find? fun p => p.1 = rank).map Prod.snd).getD 0
  let a := slotAddr s x.ctx slot
  match hubProbe x.ctx (linesOf a imageSize .read) s with
  | (true, s1) => s1
  | (false, s1) =>
    match hubRead s1 x.ctx (3 + 8 * c) a imageSize .home with
    | ⟨code, img, s2⟩ =>
      let h := ((x.hidden.find? fun p => p.1 = rank).map Prod.snd).getD ⟨[], [], [], false⟩
      let left := x.cores.any fun p => decide (p.2 ≠ c) && decide ((getCore s2 p.2).phase = .restoring)
      let s3 := modCtx s2 x.ctx fun k => { k with slots := k.slots.filter fun n => n ≠ slot }
      let s4 := setGang s3 { x with slots := x.slots.filter fun p => p.1 ≠ rank, hidden := x.hidden.filter fun p => p.1 ≠ rank,
                                    st := if left then .restoring else .running, started := s.now }
      modCore (acquire s4 (towerOf c)) c fun k =>
        if code = St.ok then { restoreImage k img h x.ctx s.now with phase := .running }
        else kernelFault { k with phase := .running, ctx := x.ctx } code 2 0 0 a

/-- RESTORE: a saved gang of highest rank is placed on free cores; then each further step restores one of its cores, lowest
rank first, once no steering stall of its fields runs (R25, R178, R230). -/
def execRestore (g : Nat) (s : State) : Res :=
  match gangOf s g with
  | none => .next s
  | some x =>
    if x.st = .restoring then
      match x.cores.find? fun p => (getCore s p.2).phase = .restoring with
      | none => .next s
      | some (rank, c) => .next (if fieldStalls s c then s else restoreOne s x rank c)
    else if x.st = .saved ∧ (topGang s).map (fun y => y.id) = some g then
      match chooseCores s x.ctx (openRanks x).length with
      | none => .next s
      | some cs => .next (placeGang s x cs .restoring .restoring)
    else .next s

/-! ## Failure of a core (R227, R234 to R237) -/

/-- What becomes of the gang of a retired core: one that was granted waits again, a prepared one asks for another core of the
rank; else the gang stops, and its node runs again or its entry is faulty. -/
def loseKernel (s : State) (c : Nat) (x : Gang) : State :=
  let x := { x with cores := x.cores.filter fun p => p.2 ≠ c }
  let s := modCore (setGang s x) c coreFreed
  match x.st with
  | .stopped => finishGang s x.id
  | .granted => forEach (setGang s { x with st := .waiting, cores := [] }) x.cores fun s p => modCore s p.2 coreFreed
  | .running | .saving | .restoring =>
    if ((gangNode s x).map (mayRestart s)).getD false && !(getQueue s x.queue).resetting then
      let s := modNode s x.queue x.node fun n => { n with st := .restarting }
      let s := forEach s (s.gangs.filter fun y => y.queue = x.queue ∧ y.node = x.node ∧ y.id ≠ x.id ∧ y.release ≠ none ∧
        (y.st = .waiting ∨ y.st = .prepared) ∧ (pktOf s y.queue y.node y.off).isNone = true) dropGang
      let s := stopGang s x
      if (gangOf s x.id).isNone then
        nodeSettle (modPkt s x.queue x.node x.off fun p => { p with st := .done }) x.queue x.node
      else s
    else
      guilty s x.queue St.queueGuilty
        (some ⟨St.queueGuilty, BitVec.ofNat 16 x.node, BitVec.ofNat 32 x.off, unitId s 2 c, []⟩) false
  | .waiting | .prepared | .saved => s

/-- CORE_FAILURE: a core retired while it holds a kernel, or a place for one, loses it (R234). (DEDUCED: log entry 44.) -/
def execCoreFailure (c : Core) (s : State) : Res :=
  let s := retireIfDue s c.val
  let k := getCore s c.val
  match (if k.retired then k.gang.bind (gangOf s) else none) with
  | none => .next s
  | some x => .next (loseKernel s c.val x)

end Sys2Proof.Machine
end

