-- ==== Sys2Proof/Machine/Power.lean ====
section
/-!
DEFINITION. Power domains (R363 to R366), core clocks and VCORE (R367, R368), capping (R369 to R372), Buttress (R373, R374) and
temperature (R375, R376).
-/

namespace Sys2Proof.Machine

/-! ## Power domains (Tables 12.2, 12.3) -/

/-- Whether the four cores of a group are claimed; a retired core that holds no kernel is never granted (R365). (DEDUCED: log entry 56.) -/
def groupClaimed (s : State) (g : Nat) : Bool :=
  (List.range 4).all fun i =>
    let k := getCore s (4 * g + i)
    decide (k.phase = .powerClaimed) || (k.retired && decide (k.gang = none) && decide (k.phase ≠ .testing))

/-- Whether the four units of a Quarry half-slice are OFF (R293). -/
def halfOff (s : State) (h : Nat) : Bool := (List.range 4).all fun i => decide (qKind s (h / 2) (h % 2 * 4 + i) = 3)

/-- Whether every channel of a stack is RETIRED. -/
def stackRetired (s : State) (n : Nat) : Bool := (List.range 32).all fun i => decide (chState s (32 * n + i) = 1)

/-- The precondition of a power-down; a Mason cluster waits for its OS. (DEDUCED: log entry 56.) -/
def mayPowerDown (s : State) (d : Nat) : Bool :=
  if d < 64 then groupClaimed s d
  else if d < 80 then halfOff s (d - 64)
  else if d < 96 then stackRetired s (d - 80)
  else if d < 104 then false
  else true

/-- The ports of a port group. -/
def groupPorts (p : Nat) : List Nat := (List.range 18).filter fun k => decide (portGroup k = p)

/-- Starts POWERING_DOWN: the ports of a port group are DISABLED (R366). (DEDUCED: log entry 56.) -/
def startDown (s : State) (d : Nat) : State :=
  let s1 := setDom s d { getDom s d with st := .poweringDown }
  if d < 104 then s1
  else forEach s1 (groupPorts (d - 104)) fun s p => if (getPort s p).st = .disabled then s else portStop s p .disabled 0

/-- Moves a domain that is not in transition toward its target (R363, R364). -/
def domAdvance (s : State) (d : Nat) : State :=
  let k := getDom s d
  match k.st, k.target with
  | .off, true => setDom s d { k with st := .poweringUp }
  | .on, false => if mayPowerDown s d then startDown s d else setDom s d { k with st := .waiting }
  | .waiting, false => if mayPowerDown s d then startDown s d else s
  | .waiting, true =>
    let s1 := setDom s d { k with st := .on }
    if d < 64 then
      forEach s1 ((List.range 4).map fun i => 4 * d + i) fun s c => modCore s c fun k =>
        if k.phase = .powerClaimed then { k with phase := .returning } else k
    else s1
  | .off, false | .on, true | .poweringUp, _ | .poweringDown, _ => s

/-- Sets the target of a domain (R363). -/
def domTarget (s : State) (d : Nat) (on : Bool) : State := domAdvance (setDom s d { getDom s d with target := on }) d

/-- The error counts that a core group saves (Table 12.2). -/
def groupSave (s : State) (g : Nat) : List (BitVec 32) :=
  (List.range 4).flatMap fun i =>
    let k := (getCore s (4 * g + i)).cr
    ((List.range 4).map fun e => tget 0 k.ashErr e) ++ [k.chsErr, k.spadErr]

/-- A core that has lost its power: only what says that it is retired is kept. -/
def coreUnpowered (k : CoreSt) : CoreSt :=
  { phase := .powerClaimed, retired := k.retired, retiredAgain := k.retiredAgain, mortarGone := k.mortarGone }

/-- A core that has its power again, with its error counts (R365). -/
def coreRestored (k : CoreSt) (saved : List (BitVec 32)) (i : Nat) : CoreSt :=
  { k with phase := .returning, cr := { k.cr with
      ashErr := (List.range 4).foldl (fun t e => tset 0 t e (saved.getD (6 * i + e) 0)) [],
      chsErr := saved.getD (6 * i + 4) 0, spadErr := saved.getD (6 * i + 5) 0 } }

/-- The end of a power-down: the contents are lost but for what is saved. -/
def downDone (s : State) (d : Nat) : State :=
  let k := getDom s d
  let done : Dom := { k with st := .off, count := satInc k.count }
  if d < 64 then
    let s1 := setDom s d { done with saved := groupSave s d }
    forEach s1 ((List.range 4).map fun i => 4 * d + i) fun s c => modCore s c coreUnpowered
  else if 80 ≤ d ∧ d < 96 then
    let cs := (List.range 32).map fun i => 32 * (d - 80) + i
    let s1 := setDom s d { done with saved := cs.map fun c => BitVec.ofNat 32 (bf (getHbm s c).stat 15 0) }
    forEach s1 cs fun s c => setHbm s c { getHbm s c with stat := sf (getHbm s c).stat 15 0 0 }
  else setDom s d done

/-- The end of a power-up: what was saved is restored, a core group starts at 0.40 GHz, and ports start (R365, R366). -/
def upDone (s : State) (d : Nat) : State :=
  let k := getDom s d
  let s1 := setDom s d { k with st := .on, count := satInc k.count, saved := [] }
  if d < 64 then
    let s2 := setGroup s1 d {}
    forEach s2 (List.range 4) fun s i => modCore s (4 * d + i) fun c => coreRestored c k.saved i
  else if 80 ≤ d ∧ d < 96 then
    forEach s1 (List.range 32) fun s i =>
      let c := 32 * (d - 80) + i
      setHbm s c { getHbm s c with stat := sf (getHbm s c).stat 15 0 (k.saved.getD i 0).toNat }
  else if 104 ≤ d then forEach s1 (groupPorts (d - 104)) portStart
  else s1

/-- DOMAIN_TRANSITION_DONE: the state is reached, and the opposite transition starts at once when the target differs (R364). -/
def execDomainTransitionDone (d : Fin 108) (s : State) : Res :=
  match (getDom s d.val).st with
  | .poweringDown => .next (domAdvance (downDone s d.val) d.val)
  | .poweringUp => .next (domAdvance (upDone s d.val) d.val)
  | .off | .on | .waiting => .next s

/-- MASON_HARTS_STOPPED: the OS has stopped the 18 harts of a WAITING cluster (R363). -/
def execMasonHartsStopped (m : Fin 8) (s : State) : Res :=
  if (getDom s (96 + m.val)).st = .waiting then .next (startDown s (96 + m.val)) else .next s

/-! ## Set points and clocks (R361, R367, R368) -/

/-- Table 12.4 for a step, in mV, interpolated and rounded up to 5 mV. -/
def vcoreTable (n : Nat) : Nat :=
  let f := 400 + 25 * n
  let line : Nat → Nat → Nat → Nat → Nat := fun f0 v0 f1 v1 =>
    let num := v0 * (f1 - f0) + (v1 - v0) * (f - f0)
    let den := 5 * (f1 - f0)
    5 * ((num + den - 1) / den)
  if f ≤ 800 then 700
  else if f ≤ 1000 then line 800 700 1000 720
  else if f ≤ 1200 then line 1000 720 1200 750
  else if f ≤ 1450 then line 1200 750 1450 780
  else if f ≤ 1600 then line 1450 780 1600 800
  else line 1600 800 1800 850

/-- The factory VCORE offset of a tower in mV (R367, R416). -/
def factoryOffset (s : State) (t : Nat) : Int := if s.key.calDefault then 20 else max (-20) (min 20 (Config.factoryVoff t))

/-- The set point of a tower for its highest step (R367). (DESIGN CHOICE: log entry 57.) -/
def setPoint (s : State) (t n : Nat) : Nat :=
  (max 700 (min 850 ((vcoreTable n : Int) + factoryOffset s t + tget 0 s.key.cal.voff t))).toNat

/-- The highest step of a tower that is in force or a target. -/
def towerStep (s : State) (t : Nat) : Nat :=
  (List.range 8).foldl (fun m i => let g := getGroup s (8 * t + i); max m (max g.step g.target)) 0

/-- Moves a tower's set point to that of its highest step. (DESIGN CHOICE: log entry 57.) -/
def moveVcore (s : State) (t : Nat) : State := modTower s t fun w => { w with vtarget := setPoint s t (towerStep s t) }

/-- Gives a group a new target step: a rise waits for its set point, a fall holds the group's slots at once (R368). -/
def groupRetarget (s : State) (g n : Nat) : State :=
  let k := getGroup s g
  if n = k.target then s
  else
    let s1 := moveVcore (setGroup s g { k with target := n }) (g / 8)
    let w := getTower s1 (g / 8)
    let go := decide (n < k.step) || (decide (k.step < n) && decide (setPoint s1 (g / 8) n ≤ w.vset))
    setGroup s1 g { getGroup s1 g with blocked := go }

/-- Whether an engine of the group runs an operation. -/
def groupBusy (s : State) (g : Nat) : Bool := (List.range 4).any fun i => !enginesIdle (getCore s (4 * g + i))

/-- Moves a group's clock to its target, and its slots release again. -/
def applyClock (s : State) (g : Nat) : State :=
  let k := getGroup s g
  moveVcore (setGroup s g { k with step := k.target, blocked := false, lastChange := some s.now }) (g / 8)

/-- CLOCK_CHANGE_APPLY: with no engine operation in progress the clock of a held group moves, outside Buttress at most once in
50 µs (R368). -/
def execClockChangeApply (g : Fin 64) (s : State) : Res :=
  let k := getGroup s g.val
  let soon := match k.lastChange with
    | some t => decide (s.now < t + 50000)
    | none => false
  if k.blocked && !groupBusy s g.val && (s.power.buttress || !soon) then .next (applyClock s g.val) else .next s

/-! ## Buttress (R373, R374, R428) -/

/-- Whether a sensor stands at its trip limit (Table 12.11). -/
def tripLimit (i : Nat) : Int := if 48 ≤ i ∧ i < 64 then 105 * 16 else 115 * 16
def sensorTripped (s : State) : Bool := s.power.sensors.zipIdx.any fun p => decide (tripLimit p.2 ≤ p.1)

/-- Whether anything holds the Buttress state: a low buttress_n, a silent regulator or a tripped sensor. -/
def buttressHeld (s : State) : Bool :=
  s.pins.butLow || (List.range 8).any (fun t => (getTower s t).silent) || sensorTripped s

/-- Starts the 1 ms that ends Buttress when nothing holds it, and stops it when something does (R374). -/
def buttressTimer (s : State) : State :=
  if buttressHeld s then withPower s { s.power with highSince := none }
  else withPower s { s.power with highSince := some (s.power.highSince.getD s.now) }

/-- Forces the Buttress state; each entry is reported (R373, R374). -/
def forceButtress (s : State) : State :=
  let s0 := withPower s { s.power with highSince := none }
  if s.power.buttress then s0
  else
    let s1 := withPower s0 { s0.power with buttress := true, masonSlow := true, hbmSlow := true }
    let s2 := forEach s1 (List.range 64) fun s g =>
      let k := getGroup s g
      if groupBusy s g then setGroup s g { k with target := 0, blocked := true }
      else applyClock (setGroup s g { k with target := 0 }) g
    ras s2 St.buttressEntered 6 (unitId s2 0 0) 0

/-- BUTTRESS_ENTERED: buttress_n has been low for 50 ns; it is ignored until release step 7 (R373, R427). -/
def execButtressEntered (s : State) : Res :=
  let s1 := withPins s { s.pins with butLow := true }
  if s.rst.stage < 7 then .next s1
  else .next (forceButtress (withPower s1 { s1.power with alert := true }))

/-- BUTTRESS_N_RISE. -/
def execButtressNRise (s : State) : Res :=
  let s1 := withPower (withPins s { s.pins with butLow := false }) { s.power with alert := false }
  .next (buttressTimer s1)

/-- BUTTRESS_END: nothing has held Buttress for 1 ms (R374). -/
def execButtressEnd (s : State) : Res :=
  match s.power.highSince with
  | none => .next s
  | some t =>
    if s.power.buttress && !buttressHeld s && decide (t + 1000000 ≤ s.now) then
      let s1 := withPower s { s.power with buttress := false, masonSlow := false, hbmSlow := false, highSince := none }
      .next (forEach s1 (List.range 64) fun s g => setGroup s g { getGroup s g with soft := true })
    else .next s

/-- REGULATOR_SETTLED: a tower's regulator reports its set point; groups that waited for it hold their slots (R361, R368). -/
def execRegulatorSettled (t : Tower) (s : State) : Res :=
  let s1 := modTower s t.val fun w => { w with vset := w.vtarget, silent := false }
  let s2 := forEach s1 ((List.range 8).map fun i => 8 * t.val + i) fun s g =>
    let k := getGroup s g
    if k.step < k.target ∧ setPoint s t.val k.target ≤ (getTower s t.val).vset then setGroup s g { k with blocked := true } else s
  .next (if s2.power.buttress then buttressTimer s2 else s2)

/-- AVS_SILENT: once the power controller is released, a regulator that misses three transactions is an alert for as long as it
stays silent (R428). -/
def execAvsSilent (t : Tower) (s : State) : Res :=
  if s.rst.stage < 2 then .next s else
  .next (forceButtress (modTower s t.val fun w => { w with silent := true }))

/-! ## Capping (R369 to R372) and temperature (R375, R376) -/

/-- The sensors of a tower, of the Mason dies and of the hub die (Table 12.11). -/
def towerSensors (t : Nat) : List Nat := (List.range 4).map (fun i => 4 * t + i) ++ [32 + 2 * t, 33 + 2 * t, 48 + 2 * t, 49 + 2 * t]
def masonSensors : List Nat := (List.range 8).map fun i => 64 + i
def hubSensors : List Nat := [72, 73]

/-- A factor after one interval: lowered by 5 % while a sensor is at or above 95 °C, recovered by 1 % once all are 2 °C below
(R375). (DEDUCED: log entry 93.) -/
def throttleStep (sensors : List Int) (is : List Nat) (f : Rat) : Rat :=
  let v := is.map fun i => sensors.getD i 0
  if v.any fun x => decide (95 * 16 ≤ x) then f * 95 / 100
  else if v.all fun x => decide (x ≤ 93 * 16) then min 1 (f * 101 / 100) else f

/-- The tower of largest (`up`) or smallest value, the lower number on ties. -/
def pickTower (v : Nat → Rat) (up : Bool) (ts : List Nat) : Option Nat :=
  ts.foldl (fun b t => match b with
    | none => some t
    | some u => if (if up then v u < v t else v t < v u) then some t else some u) none

/-- `w[T]` of the last interval (R372): 1 where no core of the tower had a clock. (DESIGN CHOICE: log entry 90.) -/
def waitShare (s : State) (t : Nat) : Rat :=
  let k := getTower s t
  if k.coreCyc = 0 then 1 else ((k.coreCyc - k.busyCyc : Nat) : Rat) / k.coreCyc

/-- The budgets after one interval (R372). -/
def shiftBudgets (shift : Bool) (b bOld : Rat) (old w : Nat → Rat) : Nat → Rat :=
  let b1 : Nat → Rat := fun t => if bOld = 0 then b / 8 else if b = bOld then old t else old t * b / bOld
  if !shift then fun _ => b / 8
  else
    let step := b / 256
    let donors := (List.range 8).filter fun t => decide (b / 16 ≤ b1 t - step)
    let receivers := (List.range 8).filter fun t => decide (b1 t + step ≤ 3 * b / 16)
    match pickTower w true donors, pickTower w false receivers with
    | some d, some r =>
      if d ≠ r ∧ 1 / 64 ≤ w d - w r then fun t => if t = d then b1 t - step else if t = r then b1 t + step else b1 t
      else b1
    | _, _ => b1

/-- The thermal constants in force (R415, R416). -/
def thetaCp (s : State) : Rat := if s.key.calDefault then 4 / 1000 else Config.thetaCp
def tauCp (s : State) : Rat := if s.key.calDefault then 3 else Config.tauCp
def thetaJc (s : State) (t : Nat) : Rat := if s.key.calDefault then 12 / 100 else Config.thetaJc t

/-- The inlet in °C and the flow in L/min as the model of R376 uses them (Table 12.12 of THM.COOLANT). -/
def inletC (s : State) : Rat := max 15 (min 45 ((s.power.inlet : Rat) / 16))
def flowLpm (s : State) : Rat := max 3 ((s.power.flow : Rat) / 100)

/-- The plate state after one interval, and its value 2 s ahead (R376). -/
def platePair (s : State) (pkg : Nat) (sensors : List Int) : Rat × Rat :=
  let p : Rat := pkg
  let goal := p * thetaCp s
  let rise := p / (697 / 10 * flowLpm s)
  let plate := s.power.plate + (goal - s.power.plate) * Config.thermalStep (1 / 1000 / tauCp s)
  let ahead := plate + (goal - plate) * Config.thermalStep (2 / tauCp s)
  let hot : Rat := ((sensors.take 32).foldl max (-10000) : Int)
  (plate + (hot / 16 - Config.modelSensor plate rise (inletC s)) / 64, ahead)

/-- The largest budget that the prediction allows a tower (R376). (DESIGN CHOICE: log entry 29.) -/
def thermalLimit (s : State) (pkg : Nat) (ahead : Rat) (t : Nat) : Rat :=
  (93 - inletC s - (pkg : Rat) / (697 / 10 * flowLpm s) - ahead) / thetaJc s t

/-- The budget of a tower in force, b[T]: lowered by temperature and by the prediction (R375, R376). -/
def budgetNow (s : State) (t : Nat) : Rat :=
  let w := getTower s t
  min (w.budget * w.throttle) w.limit

/-- POWER_INTERVAL: every 1 ms new limits take effect, budgets move and temperature lowers them (R369, R370, R372, R375,
R376); a stack above 85 °C runs with halved tREFI. (DEDUCED: log entry 74.) -/
def execPowerInterval (m : PowerMeas) (s : State) : Res :=
  let cap := s.power.capNext
  let b : Rat := (bf cap 31 20 : Rat) - m.pRest
  let w := waitShare s
  let bs := shiftBudgets (bt cap 11) b s.power.budgetOld (fun t => (getTower s t).budget) w
  match platePair s m.pkgW m.sensors with
  | (plate, ahead) =>
    let s1 := forEach s (List.range 8) fun s t => modTower s t fun k => { k with
      budget := bs t, waitReg := BitVec.ofNat 10 (min 0x3FF (w t * 1024).floor.toNat),
      throttle := throttleStep m.sensors (towerSensors t ++ hubSensors) k.throttle,
      limit := thermalLimit s m.pkgW ahead t, coreCyc := 0, busyCyc := 0 }
    let mw : Rat := bf cap 19 12
    let eff := min mw (mw * throttleStep m.sensors masonSensors (if s.power.masonEff < mw then s.power.masonEff / mw else 1))
    let lowered := (List.range 8).any fun t =>
      decide ((getTower s1 t).throttle < 1) || decide ((getTower s1 t).limit < (getTower s1 t).budget)
    let s2 := withPower s1 { s1.power with
      cap := cap, freq := s.power.freqNext, pkgW := BitVec.ofNat 16 (min 65535 m.pkgW), budgetOld := b, masonEff := eff,
      throttle := lowered || decide (eff < mw), plate := plate, sensors := m.sensors,
      trips := s1.power.trips.filter fun p => decide (tripLimit p.1 ≤ m.sensors.getD p.1 0) }
    let hot := (List.range 16).any fun i => decide (85 * 16 < m.sensors.getD (48 + i) 0)
    let s3 := { s2 with memcfg := sb s2.memcfg 29 hot }
    .next (if s3.power.buttress then buttressTimer s3 else s3)

/-- The share of a core group in mW: an eighth of its tower's budget in force (R370). -/
def groupShare (s : State) (g : Nat) : Rat := budgetNow s (g / 8) * 125

/-- FMAX and FMIN in force (Table 12.7, R416). (DEDUCED: log entry 55.) -/
def fMax (s : State) : Nat := if s.key.calDefault then min 0x20 (bf s.power.freq 13 8) else bf s.power.freq 13 8
def fMin (s : State) : Nat := bf s.power.freq 5 0

/-- The new target step of a group of mean power `p` in mW (R371), never above FMAX (Table 12.7). (DEDUCED: log entry 55.) -/
def nextStep (s : State) (g : Nat) (p : Rat) : Nat :=
  let k := getGroup s g
  let n := k.target
  let sh := groupShare s g
  let held := (List.range 4).any fun i => holdsKernel (getCore s (4 * g + i))
  let raw := if !held then 0
    else if 105 * sh < 100 * p then n - 4
    else if sh < p then n - 1
    else if 100 * p < 97 * sh then n + 1
    else n
  min (if held ∧ p ≤ sh then max raw (fMin s) else raw) (fMax s)

/-- GROUP_FREQ_STEP: every 50 µs each group compares its mean power, in mW, with its share; after Buttress a group rises by at
most 4 steps (R371, R374). (DEDUCED: log entry 55.) -/
def execGroupFreqStep (p : List Nat) (s : State) : Res :=
  if s.power.buttress ∨ s.rst.stage < 7 then .next s
  else
    .next (forEach s (List.range 64) fun s g =>
      let k := getGroup s g
      let n := nextStep s g (p.getD g 0 : Nat)
      let s1 := setGroup s g { k with soft := k.soft && decide (k.target + 4 < n) }
      groupRetarget s1 g (if k.soft then min n (k.target + 4) else n))

/-- THERMAL_TRIP of a sensor (R375). (DESIGN CHOICE: log entry 58.) -/
def execThermalTrip (sensor : Fin 74) (s : State) : Res :=
  .next (forceButtress (withPower s { s.power with
    trips := if s.power.trips.any (fun p => decide (p.1 = sensor.val)) then s.power.trips else s.power.trips ++ [(sensor.val, s.now)] }))

/-- THERMAL_SHUTDOWN: a sensor is still at its trip limit 10 ms later. Every switched domain and every module channel is off,
without saves, until reset_n or power-on (R375, R386). (DESIGN CHOICE: log entry 58.) -/
def execThermalShutdown (s : State) : Res :=
  if !(s.power.trips.any fun p => decide (p.2 + 10000000 ≤ s.now)) ∨ s.rst.off then .next s
  else
    let s1 := forEach s (List.range 18) fun s k =>
      let s := if (getMod s k).st = .retired then s else modOff s k .off
      if (getPort s k).st = .disabled then s else portStop s k .disabled 0
    let s2 := forEach s1 (List.range 108) fun s d => setDom s d { getDom s d with st := .off, target := false }
    let s3 := forEach s2 (List.range 256) fun s c => modCore s c coreUnpowered
    let s4 := withRst { s3 with gangs := [] } { s3.rst with off := true, cause1 := sb s3.rst.cause1 19 true }
    let s5 := withKey s4 { s4.key with stopped := true, stopHeld := true }
    .next (rasTo s5 [0] St.ok 6 0xFFFF (unitId s5 0 0) 0xFFFF 0)

/-- COOLANT_STALE: coolant values more than 5 s old give way to 45 °C and 3.0 L/min (R376). -/
def execCoolantStale (s : State) : Res :=
  if s.power.coolantAt + 5000000000 < s.now then
    .next (withPower s { s.power with stale := true, inlet := 720, flow := 300 })
  else .next s

end Sys2Proof.Machine
end

