-- ==== Sys2Proof/Machine/Quarry.lean ====
section
/-!
DEFINITION. Quarry events (R293 to R298).
-/

namespace Sys2Proof.Machine

/-- The number of a unit's half-slice. -/
def halfOf (t u : Nat) : Nat := 2 * t + u / 4

/-- The half-slice's power domain follows its units (R293, R363). -/
def halfFollow (s : State) (h : Nat) : State :=
  let s1 := setDom s (64 + h) { getDom s (64 + h) with target := !halfOff s h }
  domAdvance s1 (64 + h)

/-- Writes 0 into a window of local memory, with no marker, and NONE into its ownership entries (R275, R297). -/
def freshWindow (s : State) (lo n : Nat) : State :=
  { s with mem := tclear lo n s.mem, lost := tclear (lo / 64) (n / 64) s.lost, owner := tclear (lo / 0x200000) (n / 0x200000) s.owner,
           restored := s.restored.filter fun l => !(decide (lo / 64 ≤ l) && decide (l < (lo + n) / 64)) }

/-- QUARRY_KIND_CHANGE: the change that waits first in a tower takes effect, once the unit's power domain is on and no OWNCMD
runs (R297). (DEDUCED: log entry 75.) -/
def execQuarryKindChange (t : Tower) (u : Fin 8) (s : State) : Res :=
  match (getTower s t.val).changing with
  | [] => .next s
  | (v, kind) :: rest =>
    let old := bf (getTower s t.val).part (2 * u.val + 1) (2 * u.val)
    if v ≠ u.val ∨ bt s.ownCmd 62 ∨ (kind ≠ 3 ∧ (getDom s (64 + halfOf t.val u.val)).st ≠ .on) then .next s
    else
      let s1 := if old = 0 ∨ kind = 0 then homeDropAll s t.val else s
      let s2 := if kind = 2 ∨ old = 2 then freshWindow s1 (quarryWindow t.val u.val) 0x2000000 else s1
      let s3 := modTower s2 t.val fun w => { w with
        part := sf w.part (2 * u.val + 1) (2 * u.val) kind, changing := rest, victim := if old = 1 then [] else w.victim }
      .next (halfFollow s3 (halfOf t.val u.val))

/-- QUARRY_ECC_ERROR: `line` is the global line address of a cache line. Sixteen corrected errors within 1 s, or a double-bit error
on a SCRATCH line, retire the unit; a double-bit error on a cache line drops it (R298). -/
def execQuarryEccError (t : Tower) (u : Fin 8) (double : Bool) (line : Nat) (s : State) : Res :=
  let kind := qKind s t.val u.val
  let w := getTower s t.val
  let retire : State → State := fun s => halfFollow (retireQuarry s t.val u.val none) (halfOf t.val u.val)
  if kind = 3 then .next s
  else if double then
    if kind = 2 then .next (retire s)
    else .next (setTower s t.val { w with
      home := if kind = 0 then w.home.filter fun l => l.line.toNat ≠ line else w.home,
      victim := if kind = 1 then w.victim.filter fun l => l.line.toNat ≠ line else w.victim })
  else
    match histAdd w.unitErrs u.val s.now 1000000000 with
    | (h, n) =>
      let s1 := setTower s t.val { w with unitErrs := h }
      .next (if 16 ≤ n then retire s1 else s1)

end Sys2Proof.Machine
end

