-- ==== Sys2Proof/Machine/Epoch.lean ====
section
/-!
DEFINITION. The scheduler epoch (R238, R239, R289, R365, R419).
-/

namespace Sys2Proof.Machine

/-- Cores that return join the free pool, as last held by no context. -/
def joinCores (s : State) : State :=
  forEach s ((s.cores.filter fun c => c.2.phase = .returning).map Prod.fst) fun s c =>
    modCore s c fun k => { k with phase := .free, lastCtx := none }

/-- A channel that passed its test becomes RETURNED, and its window holds memory (R275, R289). -/
def returnChannel (s : State) (c : Nat) : State :=
  if chState s c ≠ 1 ∨ bt (getHbm s c).stat 25 then s
  else
    let s1 := freshWindow s (0x10000000000 + c * 0x80000000) 0x80000000
    let s2 := memcfgCount (setHbm s1 c { getHbm s1 c with stat := sf (getHbm s1 c).stat 31 30 2 })
    let s3 := recUnits s2 (fun r => { r with returned := r.returned ++ [c] }) none
    ras s3 St.ok 2 (unitId s3 5 c) (getHbm s3 c).stat.toNat

/-- The power controller claims the free cores of WAITING groups; the fourth claim starts the power-down (R365). -/
def claimGroups (s : State) : State :=
  forEach s ((List.range 64).filter fun g => decide ((getDom s g).st = .waiting ∧ (getDom s g).target = false)) fun s g =>
    let s1 := forEach s ((List.range 4).map fun i => 4 * g + i) fun s c =>
      if coreFree s c then modCore s c fun k => { k with phase := .powerClaimed } else s
    domAdvance s1 g

/-- Keystone claims the core under test when it is free (R239). -/
def claimTest (s : State) : State :=
  match s.key.test.under with
  | none => s
  | some u =>
    if u / 2048 = 2 ∧ coreFree s (u % 2048) then modCore s (u % 2048) fun k => { k with phase := .testing } else s

/-- The channels that passed their tests return; a command of OWNCMD in progress is waited for, since the entries of their windows
are written through OWNCMD (R275). -/
def returnChannels (s : State) : State :=
  if bt s.ownCmd 62 then s
  else
    let s1 := forEach s s.key.test.passed returnChannel
    withKey s1 { s1.key with test := { s1.key.test with passed := [] } }

/-- SCHEDULER_EPOCH: at each Plumb instant that is a multiple of 1,000,000. -/
def execSchedulerEpoch (s : State) : Res :=
  let n := s.plumb.count.toNat / 1000000
  if !s.plumb.running ∨ n = s.schEpoch then .next s
  else
    .next (claimTest (claimGroups (returnChannels (joinCores { s with schEpoch := n }))))

end Sys2Proof.Machine
end

