-- ==== Sys2Proof/Machine/Graphs.lean ====
section
/-!
DEFINITION. Graph packets (R202 to R206): GINIT, GPATCH and GRETIRE. Each holds its handle from its first read to its last
write within one step.
-/

namespace Sys2Proof.Machine

/-- The length of an image from its header (Table 6.21). -/
def imageLen (hd : List Byte) : Nat := 64 + 32 * fieldLe hd 0 2 + 8 * fieldLe hd 4 4

/-- A node record or patch entry meets Table 6.22 in the bytes after NODE. -/
def recordOk (r : List Byte) : Bool :=
  zeros r 2 2 && bufLenOk (fieldLe r 4 4) && decide (fieldLe r 8 8 % 64 = 0 ∧ fieldLe r 24 1 ≤ 1) && zeros r 25 7

/-- The image header is in range (R203). -/
def imageHeadOk (hd : List Byte) : Bool :=
  decide (1 ≤ fieldLe hd 0 2 ∧ fieldLe hd 0 2 ≤ 4096 ∧ fieldLe hd 4 4 ≤ 16384) && zeros hd 2 2 && zeros hd 24 40

/-- The edges of an image: FROM < TO < NNODES, a defined KIND, and pairs that strictly increase (R203). -/
def edgesOk (img : List Byte) (nn ne : Nat) : Bool :=
  (List.range ne).all fun i =>
    let o := 64 + 32 * nn + 8 * i
    let a := fieldLe img o 2
    let b := fieldLe img (o + 2) 2
    decide (a < b ∧ b < nn ∧ fieldLe img (o + 4) 1 ≤ 1) && zeros img (o + 5) 3
      && (decide (i = 0) || decide (fieldLe img (o - 8) 2 * 65536 + fieldLe img (o - 6) 2 < a * 65536 + b))

/-- The checks of GINIT on a whole image (R203). -/
def imageOk (img : List Byte) : Bool :=
  let nn := fieldLe img 0 2
  imageHeadOk img
  && (List.range nn).all (fun i => let r := slice img (64 + 32 * i) 32; decide (fieldLe r 0 2 = 0) && recordOk r)
  && edgesOk img nn (fieldLe img 4 4)

/-- Reads the image at an address: its header, and the rest where the header is in range (R203). -/
def readImage (s : State) (x : Nat) (a : BitVec 64) : Acc :=
  match hubRead s x 2 a 64 .home with
  | ⟨c, hd, s1⟩ =>
    if c ≠ St.ok then ⟨c, [], s1⟩
    else if !imageHeadOk hd then ⟨St.cmdReserved, [], s1⟩
    else
      match hubRead s1 x 2 (a + 64) (imageLen hd - 64) .home with
      | ⟨c, t, s2⟩ => ⟨c, hd ++ t, s2⟩

/-- GINIT (R203). -/
def ginitStep (s : State) (q node off : Nat) (p : PktRun) : State :=
  let x := qCtx (getQueue s q)
  let h := pAddr p.raw
  let a := pRes p.raw 24
  match hubProbe x [(h, .both), (a, .both)] s with
  | (true, s1) => s1
  | (false, s1) =>
    match hubRead s1 x 2 h 64 .home with
    | ⟨c, hb, s2⟩ =>
      if c ≠ St.ok then performed s2 q node off c
      else if fieldLe hb 12 1 = ghLive then performed s2 q node off St.cmdReserved
      else
        match readImage s2 x a with
        | ⟨c, img, s3⟩ =>
          if c ≠ St.ok then performed s3 q node off c
          else if !imageOk img then performed s3 q node off St.cmdReserved
          else
            match hubWrite s3 x 2 (a + 8) .both (toLe 4 1 ++ toLe 4 0 ++ toLe 8 h.toNat) .home with
            | ⟨c, _, s4⟩ =>
              if c ≠ St.ok then performed s4 q node off c
              else
                match hubWrite s4 x 2 h .both (toLe 8 a.toNat ++ toLe 4 1 ++ toLe 4 ghLive ++ toLe 8 0 ++ toLe 40 0) .home with
                | ⟨c, _, s5⟩ => performed s5 q node off c

/-- GINIT: checks a version image and makes it a live graph. -/
def execGinit (q : QId) (node : Nat) (off : Nat) (s : State) : Res :=
  onIssued s q.val node off 8 fun p => ginitStep s q.val node off p

/-- Takes patch entries in list order from `src`: each is read, checked and written over its record at `dst` (R204 step 2). -/
def applyPatches (x : Nat) (src dst : BitVec 64) (nn : Nat) : List Nat → State → Code × State
  | [], s => (St.ok, s)
  | i :: t, s =>
    match hubRead s x 2 (src + BitVec.ofNat 64 (32 * i)) 32 .home with
    | ⟨c, e, s1⟩ =>
      if c ≠ St.ok then (c, s1)
      else if !(decide (fieldLe e 0 2 < nn) && recordOk e) then (St.cmdReserved, s1)
      else
        match hubWrite s1 x 2 (dst + BitVec.ofNat 64 (64 + 32 * fieldLe e 0 2)) .both (toLe 2 0 ++ e.drop 2) .home with
        | ⟨c, _, s2⟩ => if c ≠ St.ok then (c, s2) else applyPatches x src dst nn t s2

/-- The end of a GPATCH (R204 step 4): the handle `hb` switches from the image `img` to the new one. -/
def gpatchSwitch (s : State) (q node off : Nat) (p : PktRun) (hb img : List Byte) : State :=
  let x := qCtx (getQueue s q)
  match hubWrite s x 2 (pAddr p.raw) .both (toLe 8 (pRes p.raw 40).toNat ++ toLe 4 ((fieldLe hb 8 4 + 1) % 2 ^ 32)) .home with
  | ⟨c, _, s1⟩ =>
    if c ≠ St.ok then performed s1 q node off c
    else if fieldLe img 12 4 = 0 then freedEvent (performed s1 q node off St.ok) x (BitVec.ofNat 64 (fieldLe hb 0 8))
    else performed s1 q node off St.ok

/-- The middle of a GPATCH (R204 steps 1 to 3, R438): the image is copied to DST, the patches are applied there, and the header
of the copy becomes that of the next version. -/
def gpatchCopy (s : State) (q node off : Nat) (p : PktRun) (hb img : List Byte) : State :=
  let x := qCtx (getQueue s q)
  let dst := pRes p.raw 40
  match hubWrite s x 2 dst .both img .home with
  | ⟨c, _, s1⟩ =>
    if c ≠ St.ok then performed s1 q node off c
    else
      match applyPatches x (pRes p.raw 24) dst (fieldLe img 0 2) (List.range (fieldLe p.raw 32 2)) s1 with
      | (c, s2) =>
        if c ≠ St.ok then performed s2 q node off c
        else
          match hubWrite s2 x 2 (dst + 8) .both
              (toLe 4 ((fieldLe hb 8 4 + 1) % 2 ^ 32) ++ toLe 4 0 ++ toLe 8 (pAddr p.raw).toNat) .home with
          | ⟨c, _, s3⟩ => if c ≠ St.ok then performed s3 q node off c else gpatchSwitch s3 q node off p hb img

/-- GPATCH (R204, R205, R438): the checks of the handle and of DST, with every page of the arrays at hand. -/
def gpatchStep (s : State) (q node off : Nat) (p : PktRun) : State :=
  let x := qCtx (getQueue s q)
  match hubProbe x ((pAddr p.raw, .both) :: linesOf (pRes p.raw 24) (32 * fieldLe p.raw 32 2) .read) s with
  | (true, s1) => s1
  | (false, s1) =>
    match hubRead s1 x 2 (pAddr p.raw) 64 .home with
    | ⟨c, hb, s2⟩ =>
      if c ≠ St.ok then performed s2 q node off c
      else if fieldLe hb 12 1 ≠ ghLive then performed s2 q node off St.cmdReserved
      else
        match readImage s2 x (BitVec.ofNat 64 (fieldLe hb 0 8)) with
        | ⟨c, img, s3⟩ =>
          let dst := (pRes p.raw 40).toNat
          if c ≠ St.ok then performed s3 q node off c
          else if dst < fieldLe hb 0 8 + img.length ∧ fieldLe hb 0 8 < dst + img.length then performed s3 q node off St.cmdReserved
          else
            match hubProbe x (linesOf (pRes p.raw 40) img.length .both) s3 with
            | (true, s4) => s4
            | (false, s4) => gpatchCopy s4 q node off p hb img

/-- GPATCH: creates a new version of a graph and switches the handle to it. -/
def execGpatch (q : QId) (node : Nat) (off : Nat) (s : State) : Res :=
  onIssued s q.val node off 9 fun p => gpatchStep s q.val node off p

/-- GRETIRE: STATE becomes RETIRED; a current version that no launch holds is freed (R205, R206). -/
def execGretire (q : QId) (node : Nat) (off : Nat) (s : State) : Res :=
  onIssued s q.val node off 10 fun p =>
    let x := qCtx (getQueue s q.val)
    let h := pAddr p.raw
    match hubProbe x [(h, .both)] s with
    | (true, s1) => s1
    | (false, s1) =>
      match hubRead s1 x 2 h 64 .home with
      | ⟨c, hb, s2⟩ =>
        if c ≠ St.ok then performed s2 q.val node off c
        else if fieldLe hb 12 1 ≠ ghLive then performed s2 q.val node off St.cmdReserved
        else
          let cur := BitVec.ofNat 64 (fieldLe hb 0 8)
          match hubRead s2 x 2 (cur + 12) 4 .home with
          | ⟨c, rb, s3⟩ =>
            if c ≠ St.ok then performed s3 q.val node off c
            else
              match hubWrite s3 x 2 (h + 12) .both [BitVec.ofNat 8 ghRetired] .home with
              | ⟨c, _, s4⟩ =>
                if c ≠ St.ok then performed s4 q.val node off c
                else
                  let s5 := performed s4 q.val node off St.ok
                  if leNat rb = 0 then freedEvent s5 x cur else s5

end Sys2Proof.Machine
end

