-- ==== Sys2Proof/Machine/Hbm.lean ====
section
/-!
DEFINITION. HBM4 error events, row remapping, channel retirement and recalibration (R280 to R292).
-/

namespace Sys2Proof.Machine

/-- Whether a channel's controller runs: not RETIRED. -/
def chanRuns (s : State) (c : Nat) : Bool := decide (chState s c ≠ 1)

/-- A row needs remapping: it waits for ROW_REMAP, or the channel is due for retirement when its table is full (Table 9.8). -/
def rowNeeds (h : HbmChan) (row : Nat) : HbmChan :=
  if h.needRemap.contains row then h
  else if 64 ≤ h.remaps.length then { h with retireDue := true }
  else { h with needRemap := h.needRemap ++ [row] }

/-- HBM_CORRECTABLE_READ of a read `y`: counted, and when the row has given corrected errors on 3 activations within
10 s it needs remapping; a further error of one activation (`newAct` false) counts as one with the earlier. -/
def execHbmCorrectableRead (ch : HCh) (y : HbmRead) (s : State) : Res :=
  if !chanRuns s ch.val then .next s
  else
    let h0 := getHbm s ch.val
    let h := { h0 with stat := sf h0.stat 15 0 (satInc (BitVec.ofNat 16 (bf h0.stat 15 0))).toNat }
    let r := rowOf y.off
    if !y.newAct ∧ (h.rowErrs.any fun p => decide (p.1 = r)) = true then .next (setHbm s ch.val h)
    else match histAdd h.rowErrs r s.now 10000000000 with
    | (l, n) =>
      let h1 := { h with rowErrs := l }
      .next (setHbm s ch.val (if 3 ≤ n then rowNeeds h1 r else h1))

/-- HBM_UNCORRECTABLE_READ at channel offset `y`: when every read fails the line is lost with LOST_ROW and its row needs
remapping; the 32nd different row within 1 s retires the channel. -/
def execHbmUncorrectableRead (ch : HCh) (y : Nat) (allFail : Bool) (s : State) : Res :=
  if !(chanRuns s ch.val && allFail) then .next s
  else
    let s1 := loseRowLine s ch.val y
    let h := getHbm s1 ch.val
    match histAdd h.uncErrs (rowOf y) s.now 1000000000 with
    | (l, _) =>
      let h1 := rowNeeds { h with uncErrs := l } (rowOf y)
      .next (setHbm s1 ch.val (if 32 ≤ (l.map Prod.fst).dedup.length then { h1 with retireDue := true } else h1))

/-- HBM_LINK_ERROR: a transfer that fails its 8 retries, or the 1,024th error within 1 s, starts a retraining. -/
def execHbmLinkError (ch : HCh) (retriesFailed : Bool) (s : State) : Res :=
  let h := getHbm s ch.val
  if !chanRuns s ch.val ∨ h.retraining then .next s
  else
    let l := (h.linkErrs.filter fun t => decide (s.now < t + 1000000000)) ++ [s.now]
    let h1 := { h with linkErrs := l }
    .next (setHbm s ch.val (if retriesFailed ∨ 1024 ≤ l.length then { h1 with retraining := true, attempts := 0 } else h1))

/-- HBM_RETRAIN_DONE: one attempt ends; the third failure makes the channel due for retirement. -/
def execHbmRetrainDone (ch : HCh) (ok : Bool) (s : State) : Res :=
  let h := getHbm s ch.val
  if !h.retraining then .next s
  else if ok then .next (setHbm s ch.val { h with retraining := false, attempts := 0 })
  else if h.attempts < 2 then .next (setHbm s ch.val { h with attempts := h.attempts + 1 })
  else .next (setHbm s ch.val { h with retraining := false, attempts := 0, retireDue := true })

/-- ROW_REMAP: the row's lines are on the lowest free spare row; the lines `bad` could not be read (R281). (DESIGN CHOICE: log entry 51.) -/
def execRowRemap (ch : HCh) (pc : Fin 2) (bank : Fin 32) (row : Fin 18432) (bad : List (Fin 16)) (s : State) : Res :=
  let h := getHbm s ch.val
  let key := rowKey pc.val bank.val row.val
  if !(chanRuns s ch.val && h.needRemap.contains key) then .next s
  else
    match (List.range 64).find? fun n => h.remaps.all fun r => decide (r.spare ≠ n) with
    | none => .next (setHbm s ch.val { h with retireDue := true, needRemap := h.needRemap.filter (· ≠ key) })
    | some n =>
      let r : Remap := ⟨pc.val, bank.val, row.val, n⟩
      let rs := h.remaps ++ [r]
      let xs := concerned s (rowGranule s ch.val pc.val bank.val row.val)
      let s1 := setHbm s ch.val { h with
        remaps := rs, stat := sf h.stat 23 16 rs.length, needRemap := h.needRemap.filter (· ≠ key),
        rowErrs := h.rowErrs.filter fun e => e.1 ≠ key }
      let s2 := forEach s1 bad fun s i => loseRowLine s ch.val (rowLine pc.val bank.val row.val i.val)
      let s3 := recUnits s2 (fun u => { u with remaps := u.remaps ++ [(ch.val, r)] }) none
      .next (report s3 xs St.rowRemapped 4 (unitId s3 5 ch.val) (getHbm s3 ch.val).stat.toNat)

/-- CHANNEL_RETIRE: a channel that crossed a threshold of Table 9.8 (R286). -/
def execChannelRetire (ch : HCh) (s : State) : Res :=
  if (getHbm s ch.val).retireDue then .next (retireChannel s ch.val none) else .next s

/-! ## Recalibration (R291) -/

/-- Channels that recalibrate: of one stack, and of the package. -/
def recalOf (s : State) (stack : Nat) : Nat := ((List.range 32).filter fun i => decide ((getHbm s (32 * stack + i)).recal ≠ 0)).length
def recalAll (s : State) : Nat := (s.hbm.filter fun h => decide (h.2.recal ≠ 0)).length

/-- The latest temperature of a stack in sixteenths of a degree (Table 12.11). -/
def stackTemp (s : State) (stack : Nat) : Int := s.power.sensors.getD (48 + stack) 0

/-- Whether a channel has the reason to recalibrate. -/
def recalDue (s : State) (c : Nat) (why : RecalWhy) : Bool :=
  let h := getHbm s c
  match why with
  | .period => decide (h.lastRecal + 1000000000 ≤ s.now)
  | .temperature => decide (80 ≤ (stackTemp s (c / 32) - h.lastTemp).natAbs)
  | .request => h.recalWait && !h.offline
  | .offline => h.recalWait && h.offline && s.key.stopped

/-- RECAL_START: 128 steps, or one full retraining of a stopped package; a channel without a free place waits. -/
def execRecalStart (ch : HCh) (why : RecalWhy) (s : State) : Res :=
  let h := getHbm s ch.val
  if !(chanRuns s ch.val && decide (h.recal = 0) && (recalDue s ch.val why || h.recalWait) && (!h.offline || s.key.stopped)) then .next s
  else if 4 ≤ recalOf s (ch.val / 32) ∨ 64 ≤ recalAll s then .next (setHbm s ch.val { h with recalWait := true })
  else
    .next (setHbm s ch.val { h with
      recal := if h.offline then 1 else 128, recalTry := 0, recalWait := false, stat := sb h.stat 26 true })

/-- RECAL_STEP: a failed step is repeated; the third failure makes the channel due for retirement. -/
def execRecalStep (ch : HCh) (ok : Bool) (s : State) : Res :=
  let h := getHbm s ch.val
  if h.recal = 0 ∨ h.retraining then .next s
  else if !ok then
    .next (setHbm s ch.val (if h.recalTry < 2 then { h with recalTry := h.recalTry + 1 }
      else { h with recal := 0, recalTry := 0, offline := false, retireDue := true, stat := sb h.stat 26 false }))
  else if 1 < h.recal then .next (setHbm s ch.val { h with recal := h.recal - 1, recalTry := 0 })
  else
    .next (setHbm s ch.val { h with
      recal := 0, recalTry := 0, offline := false, lastRecal := s.now, lastTemp := stackTemp s (ch.val / 32),
      stat := sb h.stat 26 false })

end Sys2Proof.Machine
end

