-- ==== Sys2Proof/Machine/Pools.lean ====
section
/-!
DEFINITION. Block pools (R200, R240 to R245): pool registers, enable, the pool packets and the end of a pool epoch.
-/

namespace Sys2Proof.Machine

/-! ## Registers -/

def plEn (k : Pool) : Bool := bt k.ctl 31
def plCtx (k : Pool) : Nat := bf k.ctl 23 12
def plSize (k : Pool) : Nat := 2 ^ bf k.ctl 28 24
def plN (k : Pool) : Nat := bf k.cnt 19 0 + 1
def plBase (k : Pool) : Nat := bf k.base 63 14 * 16384
def plMeta (k : Pool) : Nat := bf k.pmeta 63 12 * 4096

/-- A write of POOLCTL (R241): EN from 0 to 1 starts an enable, EN from 1 to 0 a disable that ends with the epoch. (DEDUCED: log entry 48.) -/
def poolctlNew (k : Pool) (v : BitVec 32) : Pool :=
  if k.busy then k
  else if plEn k then (if bt v 31 then k else { k with ctl := sb k.ctl 31 false, busy := true, closing := true })
  else
    let k1 := { k with ctl := mergeMask 0x9FFFF000 k.ctl v }
    if bt v 31 then { k1 with busy := true } else k1

/-- POOLCTL_WRITE: by the driver view, once start-up is done (R241, R348, R392). -/
def execPoolctlWrite (p : PoolId) (view : View) (v : BitVec 32) (s : State) : Res :=
  if isDriver s view && s.rst.done then .next (modPool s p.val fun k => poolctlNew k v) else .next s

/-- POOL_ENABLE_DONE: the metadata area is written: the free stack with block 0 on top, and a clear map (R241). -/
def execPoolEnableDone (p : PoolId) (s : State) : Res :=
  let k := getPool s p.val
  if !(k.busy && plEn k && !k.closing) then .next s
  else
    let n := plN k
    let bytes := ((List.range n).flatMap fun i => toLe 4 (n - 1 - i)) ++ toLe ((n + 7) / 8) 0
    let a := BitVec.ofNat 64 (plMeta k)
    match hubProbe (plCtx k) (linesOf a bytes.length .both) s with
    | (true, s1) => .next s1
    | (false, s1) =>
      match hubWrite s1 (plCtx k) 2 a .both bytes .home with
      | ⟨c, _, s2⟩ =>
        if c = St.ok then .next (setPool s2 p.val { k with busy := false, free := BitVec.ofNat 21 n })
        else
          .next (rasCtx (setPool s2 p.val { k with ctl := sb k.ctl 31 false, busy := false, free := 0 }) (plCtx k) c 0xFFFF (unitId s 0 0))

/-! ## Pool packets -/

/-- The outcome of a pool packet: its RES, then its code; a RES write that faults gives its code (R200). -/
def poolOutcome (s : State) (n : Nat) (r : PoolReq) (c : Code) : State :=
  match writeRes s (plCtx (getPool s n)) r.res c with
  | (w, s1) => performed s1 r.queue r.node r.off (if w = St.ok then c else w)

/-- Hands a pool packet to its pool; it waits while the pool is BUSY with its enable. A pool that has closed since the packet
was checked has no blocks to grant and none to take back (R241). (DESIGN CHOICE: log entry 89.) -/
def poolIssue (s : State) (q node off : Nat) (p : PktRun) (alloc : Bool) : State :=
  let n := fieldLe p.raw 16 1
  let k := getPool s n
  let r : PoolReq := ⟨q, node, off, alloc, decide (fieldLe p.raw 17 1 = 1), fieldLe p.raw 18 2, BitVec.ofNat 64 (fieldLe p.raw 24 8),
    BitVec.ofNat 64 (fieldLe p.raw 32 8), p.issued, p.since⟩
  if k.busy && !k.closing then s
  else if !plEn k && !k.closing then poolOutcome s n r (if alloc then St.poolEmpty else St.cmdReserved)
  else modPkt (setPool s n { k with reqs := k.reqs ++ [r] }) q node off fun p => { p with st := .pooled }

/-- POOL_ALLOC. -/
def execPoolAlloc (q : QId) (node : Nat) (off : Nat) (s : State) : Res :=
  onIssued s q.val node off 5 fun p => poolIssue s q.val node off p true

/-- POOL_FREE. (DEDUCED: log entry 46.) -/
def execPoolFree (q : QId) (node : Nat) (off : Nat) (s : State) : Res :=
  onIssued s q.val node off 6 fun p => poolIssue s q.val node off p false

/-! ## The step of an epoch (R242 to R244) -/

/-- The address of the map byte of a block, and of its place on the free stack. -/
def mapAt (k : Pool) (i : Nat) : BitVec 64 := BitVec.ofNat 64 (plMeta k + 4 * plN k + i / 8)
def stackAt (k : Pool) (i : Nat) : BitVec 64 := BitVec.ofNat 64 (plMeta k + 4 * i)

/-- Whether a block is marked allocated: code, answer and state. -/
def blockTaken (s : State) (k : Pool) (i : Nat) : Code × Bool × State :=
  match hubReadBoth s (plCtx k) 2 (mapAt k i) 1 .home with
  | ⟨c, b, s1⟩ => (c, (leNat b).testBit (i % 8), s1)

/-- Marks a block allocated or free in the map. -/
def markBlock (s : State) (k : Pool) (i : Nat) (b : Bool) : Code × State :=
  match hubReadBoth s (plCtx k) 2 (mapAt k i) 1 .home with
  | ⟨c, d, s1⟩ =>
    if c ≠ St.ok then (c, s1)
    else match hubWrite s1 (plCtx k) 2 (mapAt k i) .both [sb (BitVec.ofNat 8 (leNat d)) (i % 8) b] .home with
      | ⟨c, _, s2⟩ => (c, s2)

/-- The block whose start an address is. -/
def poolBlock (k : Pool) (a : Nat) : Option Nat :=
  if plBase k ≤ a ∧ (a - plBase k) % plSize k = 0 ∧ (a - plBase k) / plSize k < plN k then some ((a - plBase k) / plSize k) else none

/-- Checks the addresses of a free in array order (R243): the code of a failed read, or whether every block is allocated. -/
def checkFree (k : Pool) : List (Option Nat) → State → Code × State
  | [], s => (St.ok, s)
  | none :: _, s => (St.cmdReserved, s)
  | some i :: t, s =>
    if t.contains (some i) then (St.cmdReserved, s)
    else match blockTaken s k i with
      | (c, b, s1) => if c ≠ St.ok then (c, s1) else if !b then (St.cmdReserved, s1) else checkFree k t s1

/-- Pushes the blocks of a valid free onto the stack in array order. -/
def pushFree (n : Nat) : List (Option Nat) → State → Code × State
  | [], s => (St.ok, s)
  | none :: t, s => pushFree n t s
  | some i :: t, s =>
    let k := getPool s n
    match hubWrite s (plCtx k) 2 (stackAt k k.free.toNat) .both (toLe 4 i) .home with
    | ⟨c, _, s1⟩ =>
      if c ≠ St.ok then (c, s1)
      else match markBlock s1 k i false with
        | (c, s2) => if c ≠ St.ok then (c, s2) else pushFree n t (modPool s2 n fun k => { k with free := k.free + 1 })

/-- Pops blocks for a grant: the code, their addresses in pop order, and the state. -/
def popBlocks (n : Nat) : Nat → State → List Nat → Code × List Nat × State
  | 0, s, acc => (St.ok, acc, s)
  | m + 1, s, acc =>
    let k := getPool s n
    match hubReadBoth s (plCtx k) 2 (stackAt k (k.free.toNat - 1)) 4 .home with
    | ⟨c, d, s1⟩ =>
      if c ≠ St.ok then (c, acc, s1)
      else match markBlock s1 k (leNat d) true with
        | (c, s2) =>
          if c ≠ St.ok then (c, acc, s2)
          else popBlocks n m (modPool s2 n fun k => { k with free := k.free - 1 }) (acc ++ [plBase k + leNat d * plSize k])

/-- Retires one POOL_FREE (R243). -/
def freeOne (n : Nat) (s : State) (r : PoolReq) : State :=
  let k := getPool s n
  match hubRead s (plCtx k) 2 r.addr (8 * r.count) .home with
  | ⟨c, d, s1⟩ =>
    if c ≠ St.ok then poolOutcome s1 n r c
    else
      let bs := (List.range r.count).map fun i => poolBlock k (fieldLe d (8 * i) 8)
      match checkFree k bs s1 with
      | (c, s2) =>
        if c ≠ St.ok then poolOutcome s2 n r c
        else match pushFree n bs s2 with
          | (c, s3) => poolOutcome s3 n r c

/-- Grants one POOL_ALLOC (R244): the blocks stay allocated even where a write of DST faults. -/
def grantOne (n : Nat) (s : State) (r : PoolReq) : State :=
  match popBlocks n r.count s [] with
  | (c, as, s1) =>
    if c ≠ St.ok then poolOutcome s1 n r c
    else
      match hubWrite s1 (plCtx (getPool s1 n)) 2 r.addr .write (as.flatMap fun a => toLe 8 a) .home with
      | ⟨c, _, s2⟩ => poolOutcome s2 n r c

/-- The rank of a request (R220) as a list of numbers. -/
def reqRank (s : State) (r : PoolReq) : Nat × Nat × Nat := (qPrio (getQueue s r.queue), r.issued, r.queue)

/-- Takes the allocations of a pool in rank order: a WAIT packet that is not granted holds back every lower rank. Gives the
packets still waiting. (DEDUCED: log entry 46.) -/
def grantAll (n : Nat) : List PoolReq → Bool → State → List PoolReq → State × List PoolReq
  | [], _, s, w => (s, w)
  | r :: t, held, s, w =>
    if !held && decide (r.count ≤ (getPool s n).free.toNat) then grantAll n t held (grantOne n s r) w
    else if r.wait then grantAll n t true s (w ++ [r])
    else grantAll n t held (poolOutcome s n r St.poolEmpty) w

/-- The hub accesses to the arrays of a request. -/
def reqAccesses (r : PoolReq) : List (BitVec 64 × Need) :=
  linesOf r.addr (8 * r.count) (if r.alloc then .write else .read) ++ (if r.res = 0 then [] else [(r.res, .write)])

/-- The hub accesses to the metadata area of a pool. -/
def metaAccesses (k : Pool) : List (BitVec 64 × Need) := linesOf (BitVec.ofNat 64 (plMeta k)) (4 * plN k + (plN k + 7) / 8) .both

/-- Whether the requests of a step meet a page on its way. -/
def poolProbe (s : State) (k : Pool) (mine : List PoolReq) : Bool × State :=
  if mine.isEmpty then (false, s) else hubProbe (plCtx k) (metaAccesses k ++ mine.flatMap reqAccesses) s

/-- The order in which packets issued (R243). (DEDUCED: log entry 46.) -/
def issueRank (r : PoolReq) : Nat × Nat × Nat := (r.since, r.queue, 2 ^ 32 * r.node + r.off)

/-- The step of one pool for the first epoch of it that has ended (R242 to R244): frees in issue order, then allocations in rank
order; a disable that takes effect with the epoch ends every allocation that still waits (R241). A step that meets a page on
its way waits whole. -/
def poolStep (s : State) (n : Nat) : State :=
  let k := getPool s n
  match k.steps with
  | [] => s
  | (m, close) :: rest =>
    let mine := k.reqs.take m
    match poolProbe s k mine with
    | (true, s1) => s1
    | (false, s1) =>
      let s2 := forEach s1 ((mine.filter fun r => !r.alloc).insertionSort fun a b => rankLe (issueRank a) (issueRank b)) (freeOne n)
      let allocs := (mine.filter fun r => r.alloc).insertionSort fun a b => rankLe (reqRank s a) (reqRank s b)
      match grantAll n allocs false s2 [] with
      | (s3, waiting) =>
        let s4 := if close then forEach s3 waiting (fun s r => poolOutcome s n r St.poolEmpty) else s3
        let kept := if close then [] else waiting
        modPool s4 n fun k' => { k' with
          reqs := kept ++ k'.reqs.drop m, steps := rest.mapIdx fun i p => if i = 0 then (p.1 + kept.length, p.2) else p,
          busy := if close then false else k'.busy, closing := if close then false else k'.closing }

/-- The epoch of a pool ends: its requests of that epoch, and those carried into it, wait for its step (R242). -/
def epochOf (k : Pool) : Pool :=
  let m := k.reqs.length - (k.steps.map Prod.fst).sum
  let close := k.closing && k.steps.all fun p => !p.2
  if m = 0 ∧ close = false then k else { k with steps := k.steps ++ [(m, close)] }

/-- POOL_EPOCH_END: at a node boundary, or 20 µs after the epoch began, the epoch of every pool ends; each pool then runs the
step of its first ended epoch, if no page holds it (R242). (DEDUCED: log entry 46.) -/
def execPoolEpochEnd (s : State) : Res :=
  let s1 := if s.epochDue || decide (s.poolEpoch + 20000 ≤ s.now) then
      forEach { s with epochDue := false, poolEpoch := s.now } (s.pools.map Prod.fst) fun s n => modPool s n epochOf
    else s
  .next (forEach s1 ((s1.pools.filter fun p => decide (p.2.steps ≠ [])).map Prod.fst) poolStep)

end Sys2Proof.Machine
end

