-- ==== Sys2Proof/Machine/Readout.lean ====
section
/-!
DEFINITION. Registers as they read: the power controller's block, the Keystone register space, and the hub register block
(R347, Table 11.2).
-/

namespace Sys2Proof.Machine

/-- A 32-bit register from its fields, each a value and the number of its lowest bit. -/
def fields (l : List (Nat × Nat)) : BitVec 32 := BitVec.ofNat 32 ((l.map fun p => p.1 * 2 ^ p.2).sum)

/-- A half of a 64-bit register. -/
def half (x : BitVec 64) (i : Nat) : BitVec 32 := BitVec.ofNat 32 (x.toNat / 2 ^ (32 * i))

/-! ## The power controller's block (Tables 12.3, 12.6 to 12.9, 12.12, 12.13) -/

/-- The highest step in force of a tower. -/
def stepInForce (s : State) (t : Nat) : Nat := (List.range 8).foldl (fun m i => max m (getGroup s (8 * t + i)).step) 0

def pwrTwr (s : State) (t : Nat) : BitVec 32 :=
  fields [(min 4095 (budgetNow s t).floor.toNat, 20), ((getTower s t).waitReg.toNat, 10), (stepInForce s t, 0)]

def pwrStat (s : State) : BitVec 32 :=
  fields [(bit s.power.buttress, 31), (bit s.power.alert, 30), (bit s.power.throttle, 29), (bit s.power.stale, 28),
    (s.power.pkgW.toNat, 0)]

/-- STATE of a domain. -/
def domState : DomState → Nat
  | .off => 0
  | .poweringUp => 1
  | .on => 2
  | .poweringDown => 3
  | .waiting => 4

def domStat (s : State) (d : Nat) : BitVec 32 :=
  let k := getDom s d
  fields [(domState k.st, 29), (bit k.target, 28), (k.count.toNat, 0)]

def modCtl (s : State) (k : Nat) : BitVec 32 := fields [(bit (getMod s k).en, 31), ((getMod s k).ilim.toNat, 16)]

/-- STATE of a module channel. -/
def modState : ModState → Nat
  | .off => 0
  | .queued => 1
  | .ramp => 2
  | .on => 3
  | .latched => 4
  | .retired => 5

/-- MOD_STAT of a channel; VOUT and IOUT are 0 from reset until its gate first turns on, and then measured, so that their 24
bits are a free value. (DEDUCED: log entry 54.) -/
def modStat (s : State) (k : Nat) : BitVec 32 :=
  let m := getMod s k
  fields [(modState m.st, 29), (min 3 m.retries, 27), (m.cause.toNat, 25), (bit m.paused, 24),
    (if m.driven then (Config.freeBits 24 (s.free + k)).toNat else 0, 0)]

/-- RST_STAT (Table 13.4). -/
def rstStat (s : State) : BitVec 32 := fields [(bit s.rst.done, 31), (bit s.rst.slot, 30), (s.rst.stage, 24)]

/-! ## The Span (Tables 10.5 to 10.8, 10.16, 10.17, 10.20 to 10.22) -/

def spanCtl (s : State) : BitVec 32 :=
  fields [(bit s.span.routeEn, 30), (s.span.protoAct.toNat, 8), (s.span.protoImpl.toNat, 0)]
def spanRctl (s : State) : BitVec 32 := fields [(bit s.span.rtbusy, 30), (bit s.span.pend, 29), (bit s.span.actep, 28)]
def plumbStat (s : State) : BitVec 32 :=
  let k := s.plumb
  fields [(bit k.locked, 31), (bit k.holdover, 30), (bit k.src, 29), (bit k.stepped, 28), (k.offset.toNat, 0)]

/-- STATE of a port. -/
def portState : PortState → Nat
  | .disabled => 0
  | .training => 1
  | .held => 2
  | .up => 3
  | .retrain => 4
  | .down => 5
  | .mismatch => 6

/-- Code of a lane. -/
def laneState : LaneSt → Nat
  | .active => 0
  | .idle => 1
  | .retrain _ => 2
  | .retired => 3

def portStat (s : State) (p : Nat) : BitVec 32 :=
  let k := getPort s p
  fields ([(portState k.st, 29), (k.width.toNat, 27), (if k.st = .down then k.dcause.toNat else 0, 24), (k.pver.toNat, 16)]
    ++ (List.range 8).map fun l => (laneState (laneOf k l), 2 * l))

def portNbr (s : State) (p : Nat) : BitVec 32 :=
  match (getPort s p).peer with
  | none => 0
  | some x =>
    fields [(bit (portLive s p && x.valid), 31), (x.domain.toNat, 22), (x.package.toNat, 14), (x.port.toNat, 9)]

def portErr (s : State) (p : Nat) : BitVec 32 :=
  let k := getPort s p
  fields [(k.replays.toNat, 16), (k.uncorr.toNat, 8), (k.drops.toNat, 0)]

/-! ## The hub register block (Table 11.2) -/

/-- HOST_CFG (Table 11.3). -/
def hostCfg (s : State) : BitVec 32 :=
  fields [(bit s.host.drv, 31), (bit s.host.link, 30), (bit (s.host.cfg.bme && !s.host.cfg.d3), 29)]

/-- QSTAT (Table 6.8). -/
def qstat (k : Queue) : BitVec 32 :=
  fields [(bit k.guilty, 30), (bit k.resetting, 29), (bit (qBusy k), 28), (bit k.fullrej, 27), (bit k.grej, 26), (k.cause.toNat, 16),
    (qDepth k, 0)]

/-- A word of a queue page, a queue control block, an event block, a pool block and a translation block. -/
def queuePageWord (k : Queue) (o : Nat) : BitVec 32 :=
  match o with
  | 0x004 => fields [(k.wptr.toNat, 16), (k.rptr.toNat, 0)]
  | 0x008 => qstat k
  | _ => 0
def queueWord (k : Queue) (o : Nat) : BitVec 32 :=
  match o with
  | 0x00 => k.ctl
  | 0x04 => k.hang
  | 0x08 => half k.base 0
  | 0x0C => half k.base 1
  | 0x10 => half k.cst 0
  | 0x14 => half k.cst 1
  | _ => 0
def eventWord (k : Ctx) (o : Nat) : BitVec 32 :=
  match o with
  | 0x00 => k.cevctl
  | 0x04 => k.cevptr
  | 0x08 => half k.cevbase 0
  | 0x0C => half k.cevbase 1
  | _ => 0
def poolWord (k : Pool) (o : Nat) : BitVec 32 :=
  match o with
  | 0x00 => k.ctl
  | 0x04 => k.cnt
  | 0x08 => half k.base 0
  | 0x0C => half k.base 1
  | 0x10 => half k.pmeta 0
  | 0x14 => half k.pmeta 1
  | 0x18 => fields [(bit k.busy, 31), (k.free.toNat, 0)]
  | _ => 0
def xlateWord (k : Ctx) (o : Nat) : BitVec 32 :=
  match o with
  | 0x00 => half k.rtbase 0
  | 0x04 => half k.rtbase 1
  | 0x08 => half k.mdbase 0
  | 0x0C => half k.mdbase 1
  | 0x10 => k.xctl
  | 0x14 => k.xfault0
  | 0x18 => half k.xfault1 0
  | 0x1C => half k.xfault1 1
  | 0x20 => k.migstat
  | _ => 0

/-- A word of the package block; a double-buffered register reads its shadow. -/
def packageWord (s : State) (o : Nat) : BitVec 32 :=
  match o with
  | 0x00 => s.schCfg
  | 0x08 => half s.ownCmd 0
  | 0x0C => half s.ownCmd 1
  | 0x10 => s.memcfg
  | 0x14 => s.span.id
  | 0x18 => spanCtl s
  | 0x1C => spanRctl s
  | 0x20 => half s.span.rat 0
  | 0x24 => half s.span.rat 1
  | 0x28 => s.plumb.cfgShadow
  | 0x2C => plumbStat s
  | 0x30 => hostCfg s
  | 0x38 => half s.host.win 0
  | 0x3C => half s.host.win 1
  | _ => 0

/-- A word of a port's block. -/
def portWord (s : State) (p o : Nat) : BitVec 32 :=
  match o with
  | 0x00 => (getPort s p).cfgShadow
  | 0x04 => portStat s p
  | 0x08 => portNbr s p
  | 0x0C => portErr s p
  | 0x10 => (getPort s p).asym.setWidth 32
  | _ => 0

/-- QRY_PART as it reads: the kind of a retired unit reads OFF (Table 9.10). -/
def qryPart (s : State) (t : Nat) : BitVec 32 :=
  (List.range 8).foldl (fun w u => if bt w (16 + u) then sf w (2 * u + 1) (2 * u) 3 else w) (getTower s t).part

/-- A word of a 16-byte vector table entry, and of the PBA. -/
def vecWord (e : BitVec 128) (i : Nat) : BitVec 32 := BitVec.ofNat 32 (e.toNat / 2 ^ (32 * i))
def pbaWord (s : State) (i : Nat) : BitVec 32 := fields ((List.range 32).map fun b => (bit (tget false s.host.pba (32 * i + b)), b))

/-- An aligned 4-byte word of the hub register block in a view. -/
def hubWord (s : State) (view : View) (off : Nat) : BitVec 32 :=
  if off < 0x1000000 then queuePageWord (getQueue s (off / 1024)) (off % 1024)
  else if off < 0x1080000 then queueWord (getQueue s ((off - 0x1000000) / 32)) (off % 32)
  else if off < 0x10A0000 then eventWord (getCtx s ((off - 0x1080000) / 32)) (off % 32)
  else if off < 0x10A8000 then half (getCtx s ((off - 0x10A0000) / 8)).csave (off % 8 / 4)
  else if 0x10B0000 ≤ off ∧ off < 0x10B2000 then poolWord (getPool s ((off - 0x10B0000) / 32)) (off % 32)
  else if 0x10C0000 ≤ off ∧ off < 0x1100000 then xlateWord (getCtx s ((off - 0x10C0000) / 64)) (off % 64)
  else if 0x1100000 ≤ off ∧ off < 0x1100040 then packageWord s (off - 0x1100000)
  else if 0x1101000 ≤ off ∧ off < 0x1101240 then portWord s ((off - 0x1101000) / 32) (off % 32)
  else if 0x1102000 ≤ off ∧ off < 0x1102800 then tget 0 s.span.droute ((off - 0x1102000) / 4)
  else if 0x1102800 ≤ off ∧ off < 0x1103800 then tget 0 s.span.hroute ((off - 0x1102800) / 4)
  else if 0x1104000 ≤ off ∧ off < 0x1104800 then (getHbm s ((off - 0x1104000) / 4)).stat
  else if 0x1104800 ≤ off ∧ off < 0x1104840 then
    let t := (off - 0x1104800) / 8
    if off % 8 = 0 then qryPart s t else (getTower s t).rlcCtl
  else if 0x1200000 ≤ off ∧ off < 0x1204000 then vecWord (tget vecReset s.host.msix ((off - 0x1200000) / 16)) (off % 16 / 4)
  else if 0x1204000 ≤ off ∧ off < 0x1204080 then pbaWord s ((off - 0x1204000) / 4)
  else if 0x1210000 ≤ off ∧ off < 0x1214000 then vecWord (tget vecReset s.host.mason ((off - 0x1210000) / 16)) (off % 16 / 4)
  else if 0x1300000 ≤ off ∧ off < 0x1301000 ∧ view = .mason then BitVec.ofNat 32 (leNat (mbRead (getMbox s 1) (off - 0x1300000) 4))
  else if 0x1301000 ≤ off ∧ off < 0x1302000 ∧ view = .pcie then BitVec.ofNat 32 (leNat (mbRead (getMbox s 2) (off - 0x1301000) 4))
  else 0

/-- A read of the hub register block: 4 or 8 aligned bytes, else 0 (R347); before release step 2 the block is in reset. (DEDUCED: log entry 63.) -/
def hubRegRead (s : State) (view : View) (off size : Nat) : BitVec 64 :=
  if s.rst.stage < 2 ∨ 0x4000000 ≤ off + size - 1 then 0
  else if size = 4 ∧ off % 4 = 0 then (hubWord s view off).setWidth 64
  else if size = 8 ∧ off % 8 = 0 then BitVec.ofNat 64 ((hubWord s view off).toNat + (hubWord s view (off + 4)).toNat * 2 ^ 32)
  else 0

end Sys2Proof.Machine
end

