-- ==== Sys2Proof/Machine/Xlate.lean ====
section
/-!
DEFINITION. Translation events (R249 to R258), the ownership table (R259 to R261), BAR2 accesses (R264, R266), and page
migration (R267 to R269).
-/

namespace Sys2Proof.Machine

/-! ## Searches (R250 to R252) -/

/-- A search that begins now holds the registers of the context (R257). -/
def searchStart (s : State) (x : Nat) : XSt :=
  let k := getCtx s x
  .searching (rtBase k) (rtLog2 k) (xctlEn k) k.mdbase

/-- Whether an access waits for a search that has not begun. -/
def isMiss : XSt → Bool
  | .miss => true
  | _ => false

/-- The flag access of a WAITF. -/
def flagAcc (k : CoreSt) : Option Access :=
  match k.wait with
  | some (.waitf _ a _ _ _ _ _ _ _) => some a
  | _ => none

/-- Replaces the flag access of a WAITF. -/
def setFlagAcc (k : CoreSt) (a : Access) : CoreSt :=
  match k.wait with
  | some (.waitf w _ seen sd cond w64 v dl h) => { k with wait := some (.waitf w a seen sd cond w64 v dl h) }
  | _ => k

/-- The address of a DMA channel that misses the RLB first, in the order of its lines. -/
def dmaMiss (s : State) (c ch : Nat) : Option (BitVec 64 × Need) :=
  match xlateList c (chanAddrs (chanAt (getCore s c) ch)) s [] with
  | (.missed va need, _) => some (va, need)
  | _ => none

/-- TABLE_SEARCH: a miss begins the binary search of the Range Table; a miss of the sequencer only when no earlier access of
it searches (R250, R252). -/
def execTableSearch (x : XUser) (s : State) : Res :=
  match x with
  | .fetch c =>
    let k := getCore s c.val
    if isMiss k.fetchX && canIssue k && !isDirect k && !(k.accs.any fun a => unsettled a.x) && (lbFind k.rlb k.ctx (k.regs.pc.toNat / 4096)).isNone then
      .next (setCore s c.val { k with fetchX := searchStart s k.ctx })
    else .next s
  | .seq c i =>
    let k := getCore s c.val
    let clear := !isSearching k.fetchX && (k.accs.take i).all fun a => !unsettled a.x
    match k.accs[i]? with
    | some a =>
      if clear && isMiss a.x && (lbFind k.rlb k.ctx (a.va.toNat / 4096)).isNone then
        .next (setCore s c.val { k with accs := k.accs.set i { a with x := searchStart s k.ctx } })
      else .next s
    | none =>
      match flagAcc k with
      | some a =>
        if i = k.accs.length ∧ k.stop = false ∧ (clear && isMiss a.x && (lbFind k.rlb k.ctx (a.va.toNat / 4096)).isNone) = true then
          .next (setCore s c.val (setFlagAcc k { a with x := searchStart s k.ctx }))
        else .next s
      | none => .next s
  | .dma c ch =>
    let k := getCore s c.val
    let d := chanAt k ch.val
    if isMiss d.xs && (dmaMiss s c.val ch.val).isSome then
      .next (setCore s c.val (setChan k ch.val { d with xs := searchStart s k.ctx }))
    else .next s
  | .hub _ _ => .next s

/-- Translates the accesses of a sequencer that an ended search no longer holds, in program order. -/
def resumeAccs : Nat → State → Nat → State
  | 0, s, _ => s
  | n + 1, s, c =>
    match (getCore s c).accs.find? fun a => unsettled a.x with
    | none => s
    | some a =>
      if isSearching a.x then s
      else match rlbXlate s c a.va (accNeed a.kind) (accHall a.kind) with
        | none => s
        | some (t, s') => resumeAccs n (settleAcc s' c a t) c

/-- TABLE_SEARCH_DONE: the search ends with a hit that is filled, or with its fault (R250, R254). -/
def execTableSearchDone (x : XUser) (s : State) : Res :=
  match x with
  | .fetch c =>
    let k := getCore s c.val
    if isSearching k.fetchX then
      match searchEnd s c.val k.fetchX k.regs.pc .fetch true with
      | (t, s') => .next (modCore (countIfPage (recordX s' c.val 0 .fetch k.regs.pc t) c.val t) c.val fun k => { k with fetchX := t })
    else .next s
  | .seq c i =>
    let k := getCore s c.val
    match k.accs[i]? with
    | some a =>
      if isSearching a.x then
        match searchEnd s c.val a.x a.va (accNeed a.kind) (accHall a.kind) with
        | (t, s') => let s'' := settleAcc s' c.val a t; .next (resumeAccs (getCore s'' c.val).accs.length s'' c.val)
      else .next s
    | none =>
      match flagAcc k with
      | some a =>
        if k.stop then .next (setCore s c.val (setFlagAcc k { a with x := .miss }))
        else if i = k.accs.length ∧ isSearching a.x = true then
          match searchEnd s c.val a.x a.va .read true with
          | (t, s') =>
            .next (modCore (countIfPage (recordX s' c.val 0 .read a.va t) c.val t) c.val fun k => setFlagAcc k { a with x := t })
        else .next s
      | none => .next s
  | .dma c ch =>
    let k := getCore s c.val
    let d := chanAt k ch.val
    if isSearching d.xs then
      match dmaMiss s c.val ch.val with
      | none => .next (setCore s c.val (setChan k ch.val { d with xs := .miss }))
      | some (va, need) =>
        match searchEnd s c.val d.xs va need false with
        | (.fault code cause, s') =>
          let t : XSt := .fault code cause
          .next (modCore s' c.val fun k => setChan k ch.val { chanAt k ch.val with xs := t })
        | (_, s') => .next (modCore s' c.val fun k => setChan k ch.val { chanAt k ch.val with xs := .miss })
    else .next s
  | .hub _ _ => .next s

/-! ## Invalidation (R256, R257) -/

/-- A search whose result is discarded begins again. -/
def unsearch (t : XSt) : XSt := if isSearching t then .miss else t

/-- A translation that no request has used yet is dropped with its entry, and made again. -/
def untarget (t : XSt) : XSt :=
  match t with
  | .target _ _ | .searching _ _ _ _ => .miss
  | t => t

/-- Drops every lookaside entry of a context and discards the results of its searches (R256 steps 2 and 3). -/
def dropEntries (s : State) (x : Nat) : State :=
  let s := { s with hlb := s.hlb.filter fun l => l.ctx ≠ x }
  forEach s (s.cores.map Prod.fst) fun s c => modCore s c fun k =>
    let k1 := { k with rlb := k.rlb.filter fun l => l.ctx ≠ x }
    if k.ctx ≠ x then k1
    else
      let k2 := { k1 with
        fetchX := untarget k.fetchX, accs := k.accs.map fun a => { a with x := unsearch a.x },
        dma := k.dma.map fun d => (d.1, { d.2 with xs := unsearch d.2.xs }) }
      match flagAcc k2 with
      | some a => setFlagAcc k2 { a with x := untarget a.x }
      | none => k2

/-- The stores of a context that stand in combining buffers go to their homes, so that they are performed before the
invalidation ends (R256 step 4). (DEDUCED: log entry 85.) -/
def combsOut (s : State) (x : Nat) : State :=
  forEach s ((s.cores.filter fun c => decide (c.2.ctx = x ∧ c.2.comb ≠ [])).map Prod.fst) combFlush

/-- Begins an invalidation: INVBUSY is set. -/
def invStart (s : State) (x : Nat) : State :=
  dropEntries (modCtx (combsOut s x) x fun k => { k with xctl := sb k.xctl 29 true, invAt := s.now }) x

/-- A write of XCTL (Table 8.6): EN, and INV or EN falling to 0 invalidates; during an invalidation a second one is kept.
Setting EN starts the counts of MIGSTAT again (Table 8.12). -/
def xctlWrite (s : State) (x : Nat) (v : BitVec 32) : State :=
  let k := getCtx s x
  let inv := bt v 30 || (bt k.xctl 31 && !bt v 31)
  let s1 := setCtx s x { k with xctl := sb k.xctl 31 (bt v 31), migstat := if bt v 31 && !bt k.xctl 31 then 0 else k.migstat }
  if !inv then s1
  else if bt k.xctl 29 then modCtx s1 x fun k => { k with inv2 := true }
  else invStart s1 x

/-- XCTL_INV: a write of 1 to INV that keeps EN (R256, R348, R392). -/
def execXctlInv (x : CtxId) (view : View) (s : State) : Res :=
  if isDriver s view && s.rst.done then
    .next (xctlWrite s x.val (BitVec.ofNat 32 (2 ^ 30 + if xctlEn (getCtx s x.val) then 2 ^ 31 else 0)))
  else .next s

/-- XCTL_EN: a write of XCTL. -/
def execXctlEn (x : CtxId) (view : View) (v : BitVec 32) (s : State) : Res :=
  if isDriver s view && s.rst.done then .next (xctlWrite s x.val v) else .next s

/-- Whether a translation leads to a home or waits for a page. -/
def isPlaced : XSt → Bool
  | .target _ _ => true
  | .page _ _ _ _ => true
  | _ => false

/-- Whether accesses of a context translated before its invalidation are still out (R256 step 4). -/
def oldAccesses (s : State) (x : Nat) : Bool :=
  let t0 := (getCtx s x).invAt
  (s.cores.any fun c => decide (c.2.ctx = x) && ((c.2.accs ++ (flagAcc c.2).toList).any fun a => decide (a.issued ≤ t0) && isPlaced a.x))
  || (s.span.reqs.any fun r => decide (r.pkt.ctx.toNat = x ∧ r.issued ≤ t0))
  || (s.host.outs.any fun o => decide (o.ctx = x ∧ o.issued ≤ t0))
  || s.migr.any fun m => decide (m.ctx = x)

/-- INVALIDATION_DONE: the accesses of the dropped translations are done; a second invalidation then begins, else INVBUSY
clears (R256). -/
def execInvalidationDone (x : CtxId) (s : State) : Res :=
  let k := getCtx s x.val
  if !bt k.xctl 29 || oldAccesses s x.val then .next s
  else if k.inv2 then .next (invStart (setCtx s x.val { k with inv2 := false }) x.val)
  else .next (setCtx s x.val { k with xctl := sb k.xctl 29 false })

/-! ## The ownership table (R260, R261) -/

/-- Whether a span and entry of OWNCMD are allowed. -/
def ownOkCmd (v : BitVec 64) : Bool :=
  decide (bf v 57 38 + bf v 37 18 < 2 ^ 20 ∧ bf v 15 14 ≠ 3 ∧ bf v 13 12 = 0 ∧ (bf v 15 14 = 1 ∨ bf v 11 0 = 0))

/-- A write of OWNCMD (Table 8.10). -/
def owncmdWrite (s : State) (v : BitVec 64) : State :=
  let m : BitVec 64 := maskOf 64 57 18 ||| maskOf 64 15 0
  if bt s.ownCmd 62 then s
  else if !bt v 63 then { s with ownCmd := v &&& m }
  else if ownOkCmd v then { s with ownCmd := sb (v &&& m) 62 true, ownAt := s.now }
  else s

/-- OWNCMD. (DESIGN CHOICE: log entry 27.) -/
def execOwncmd (view : View) (v : BitVec 64) (s : State) : Res :=
  if isDriver s view then .next (owncmdWrite s v) else .next s

/-- Whether a line key lies in a span of granules of this package. -/
def inSpan (s : State) (key : BitVec 64) (lo n : Nat) : Bool :=
  let g := key.toNat % 2 ^ 41 / 0x200000
  keyHere s key && decide (lo ≤ g ∧ g < lo + n)

/-- Drops every copy of the lines of a span from the RLCs and Quarry, once every dirty line, and every line of a channel
retired at run time, is written (R261, R286). (DEDUCED: log entry 68.) -/
def dropSpan (s : State) (lo n : Nat) : State :=
  let s1 := forEach s (List.range 8) fun s t =>
    forEach s ((getTower s t).rlc.filter fun l => inSpan s l.line lo n && (l.dirty || homeRunRetired s (l.line.toNat % 2 ^ 41))) writeBack
  forEach s1 (List.range 8) fun s t =>
    let gone := (getTower s t).home.filter fun l => inSpan s l.line lo n
    forEach (modTower s t fun w => { w with
      rlc := w.rlc.filter fun l => !inSpan s l.line lo n,
      home := w.home.filter fun l => !inSpan s l.line lo n,
      victim := w.victim.filter fun l => !inSpan s l.line lo n }) gone homeLeave

/-- Writes an entry into `n` granules from `lo` on, and clears BUSY (R260). -/
def ownWritten (s : State) (lo n : Nat) (e : BitVec 16) : State :=
  { s with owner := (List.range n).foldl (fun t i => tset 0 t (lo + i) e) s.owner, ownCmd := sb s.ownCmd 62 false }

/-- OWNCMD_DONE: every home has the new entry and every copy has been dropped, so BUSY clears (R260, R261). (DESIGN CHOICE: log entry 27.) -/
def execOwncmdDone (s : State) : Res :=
  let o := s.ownCmd
  if !bt o 62 then .next s
  else .next (ownWritten (dropSpan s (bf o 57 38) (bf o 37 18 + 1)) (bf o 57 38) (bf o 37 18 + 1) (BitVec.ofNat 16 (bf o 15 0)))

/-! ## BAR2 (R264, R266, R349, R350) -/

/-- Whether a host memory request reaches the BARs: the link is up, Memory Space Enable is set, the port is not in D3hot, and
the hub die is not isolated (Table 11.1, R31). -/
def barOpen (s : State) : Bool := s.host.link && s.host.cfgReady && s.host.cfg.mse && !s.host.cfg.d3 && !s.key.hubIsolated

/-- The data of a BAR2 read. -/
def bar2Answer (s : State) (d : List Byte) : State := withHost s { s.host with bar2Data := d }

/-- The virtual address of an offset of the window under a value of HOST_WIN (Table 11.4). -/
def windowVa (win : BitVec 64) (off : Nat) : BitVec 64 := BitVec.ofNat 64 (bf win 63 21 * 2 ^ 21 + off)

/-- A read of the window: a failed check gives all ones, with a RAS event to the window context (R266). -/
def windowRead (s : State) (off size : Nat) : State :=
  let x := bf s.host.win 11 0
  let ones := List.replicate size (0xFF : Byte)
  if !bt s.host.win 20 then bar2Answer s ones
  else match hubRead s x 4 (windowVa s.host.win off) size .home with
    | ⟨c, d, s1⟩ =>
      if c = St.migratePending then s1
      else if c = St.ok then bar2Answer s1 d
      else bar2Answer (rasCtx s1 x c 0xFFFF (unitId s1 0 0)) ones

/-- A write of the window under a value of HOST_WIN: whether it is over, and the state. One that meets a page on its way waits;
a failed check drops it, with a RAS event to the window context (R266, R349, R350). -/
def windowWrite (s : State) (win : BitVec 64) (off : Nat) (bs : List Byte) : Bool × State :=
  let x := bf win 11 0
  if !bt win 20 then (true, s)
  else match hubWrite s x 4 (windowVa win off) .write bs .home with
    | ⟨c, _, s1⟩ =>
      if c = St.migratePending then (false, s1)
      else if c = St.ok then (true, s1)
      else (true, rasCtx s1 x c 0xFFFF (unitId s1 0 0))

/-- The posted writes that wait at the host port. -/
def setPosted (s : State) (l : List Posted) : State := withHost s { s.host with posted := l }

/-- BAR2_ACCESS at an offset of the window: a read of `size` bytes or a write. What arrives while a posted write waits stays
behind it (R350). (DESIGN CHOICE: log entry 92.) -/
def execBar2Access (off : Nat) (size : Nat) (wr : Option (List Byte)) (s : State) : Res :=
  if !barOpen s then .next s
  else match wr with
    | none => .next (if s.host.posted = [] then windowRead s off size else s)
    | some bs =>
      if s.host.posted = [] then
        match windowWrite s s.host.win off bs with
        | (true, s1) => .next s1
        | (false, s1) => .next (setPosted s1 [.window s.host.win off bs])
      else .next (setPosted s (s.host.posted ++ [.window s.host.win off bs]))

/-! ## Page migration (R268, R269) -/

/-- Swaps the state bits of a page by SYS accesses of its tower's engine to its map word. -/
def swapPage (s : State) (m : Migr) (v : Nat) : State :=
  match sysRead s m.tower m.mapWord 8 with
  | (c, w, s1) => if c ≠ St.ok then s1 else (sysWrite s1 m.tower m.mapWord (toLe 8 (setPage w m.page v))).2

/-- Whether a translation waits for a page. -/
def waitsFor (m : Migr) : XSt → Bool
  | .page _ _ w p => decide (w = m.mapWord ∧ p = m.page)
  | _ => false

/-- Re-runs or fails every access of core `c` that waits for a page: `f` gives the new translation of one access. -/
def wakeCore (s : State) (c : Nat) (m : Migr) (f : State → XSt → BitVec 64 → Need → Bool → XSt × State) (dmaX : XSt) : State :=
  let k := getCore s c
  let s := forEach s (k.accs.filter fun a => waitsFor m a.x) fun s a =>
    match f s a.x a.va (accNeed a.kind) (accHall a.kind) with
    | (t, s') => settleAcc s' c a t
  let s := match flagAcc k with
    | some a => if waitsFor m a.x then
        (match f s a.x a.va .read true with
        | (t, s') => modCore (recordX s' c 0 .read a.va t) c fun k => setFlagAcc k { a with x := t }) else s
    | none => s
  let s := if waitsFor m k.fetchX then
      (match f s k.fetchX k.regs.pc .fetch true with
      | (t, s') => modCore s' c fun k => { k with fetchX := t }) else s
  modCore s c fun k => { k with dma := k.dma.map fun d => if waitsFor m d.2.xw then (d.1, { d.2 with xw := dmaX }) else d }

/-- Takes a page out of its engine's list, and lets the engine read the source of the page that it can now work on. -/
def migrEnd (s : State) (i : Nat) (m : Migr) : State :=
  let s1 : State := { s with migr := s.migr.eraseIdx i }
  match ((s1.migr.filter fun n => n.tower = m.tower)[15]?) with
  | none => s1
  | some n => migrIssue s1 n

/-- A failed migration: the page goes back to AWAY, the engine's fault is recorded, and every access that waits for it completes
with the code (R258, R269). (DESIGN CHOICE: log entry 28.) -/
def migFail (s : State) (i : Nat) (m : Migr) (code : Code) : State :=
  let s1 := xfault (swapPage (migrEnd s i m) m 0) m.ctx code 5 .read 5 0 m.va
  let s2 := forEach s1 (s1.cores.map Prod.fst) fun s c => wakeCore s c m (fun s _ _ _ _ => (.fault code 5, s)) (.fault code 5)
  lateEvents { s2 with hubX := s2.hubX.map fun h => if waitsFor m h.2.2 then (h.1, h.2.1, .fault code 5) else h }

/-- Writes a page line by line with SYS writes. -/
def writePage (s : State) (m : Migr) (d : List Byte) : State :=
  forEach s (List.range 1024) fun s i => (sysWrite s m.tower (m.dest + 64 * i) (slice d (64 * i) 64)).2

/-- The answer to the reads of a page's source: a failing one where the address or the route or the host port refuses them
(R306, R336, R352), else that of the reply. -/
def migrAnswer (s : State) (m : Migr) (r : Reply) : Code × List Byte × State :=
  match m.src with
  | .remote ga => if ga.toNat / 2 ^ 58 ≠ 0 then (St.ctxDenied, [], s) else spanAnswer s ga.toNat r 0 65536
  | .bus _ => if !outReady s then (St.ctxDenied, [], s) else busAnswer s r 0 65536
  | .loc _ => (St.ctxDenied, [], s)

/-- MIGRATION_COMPLETE of entry `i` of the pages on their way: the source's 64 KiB are written, the page becomes LOCAL, and
every waiting access re-runs (R268 steps 5 to 7); a failing read fails it. (DESIGN CHOICE: log entry 28.) -/
def execMigrationComplete (i : Nat) (r : Reply) (s : State) : Res :=
  match s.migr[i]? with
  | none => .next s
  | some m =>
    if !migrActive s i m then .next s
    else
      match migrAnswer s m r with
      | (c, d, s1) =>
        if c ≠ St.ok then .next (migFail s1 i m c)
        else
          let s2 := swapPage (writePage (migrEnd s1 i m) m d) m 2
          let s3 := modCtx s2 m.ctx fun k => { k with migstat := sf k.migstat 31 16 (satInc (BitVec.ofNat 16 (bf k.migstat 31 16))).toNat }
          let s4 := forEach s3 (s3.cores.map Prod.fst) fun s c => wakeCore s c m (fun s t va need hall => pageAgain s c t va need hall) .miss
          .next (lateEvents { s4 with hubX := s4.hubX.filter fun h => !waitsFor m h.2.2 })

/-- The code with which a source read may fail (R269). -/
def migrCode (m : Migr) (code : Code) : Code :=
  match m.src with
  | .bus _ => busFail code
  | _ => spanFail code

/-- MIGRATION_FAIL: a source read fails with a code (R269). -/
def execMigrationFail (i : Nat) (code : BitVec 8) (s : State) : Res :=
  match s.migr[i]? with
  | none => .next s
  | some m => if migrActive s i m then .next (migFail s i m (migrCode m code)) else .next s

end Sys2Proof.Machine
end

