-- ==== Sys2Proof/Machine/Regs.lean ====
section
/-!
DEFINITION. Register writes by access type (R7, R8, R182, R347 to R349, R399): the hub register block, the mailbox pages and the
registers that only Keystone reaches; the unmasking of vectors (R351); and the posted writes of the host (R350).
-/

namespace Sys2Proof.Machine

/-- A 64-bit register with one half replaced. -/
def setHalf (x : BitVec 64) (i : Nat) (v : BitVec 32) : BitVec 64 := sf x (32 * i + 31) (32 * i) v.toNat

/-- The driver-only offsets (R348). -/
def driverOnly (off : Nat) : Bool := decide (0x1000000 ≤ off ∧ off < 0x1214000 ∧ ¬ (0x1200000 ≤ off ∧ off < 0x1204080))

/-! ## Vectors (R351) -/

/-- Sends once what was raised while a vector was masked. -/
def unmaskSend (s : State) (v : Nat) : State :=
  if v < 1024 then
    let e := tget vecReset s.host.msix v
    if tget false s.host.pba v ∧ !bt e 96 ∧ (s.host.cfg.msixEn && s.host.link && s.host.cfg.bme && !s.host.cfg.d3) = true then
      interrupt (withHost s { s.host with pba := tset false s.host.pba v false }) v
    else s
  else
    let i := v - 1024
    if tget false s.host.masonPend i ∧ !bt (tget vecReset s.host.mason i) 96 then
      interrupt (withHost s { s.host with masonPend := tset false s.host.masonPend i false }) v
    else s

/-- Writes a vector table entry. -/
def vecSet (s : State) (v : Nat) (e : BitVec 128) : State :=
  unmaskSend (withHost s (if v < 1024 then { s.host with msix := tset vecReset s.host.msix v e }
    else { s.host with mason := tset vecReset s.host.mason (v - 1024) e })) v

/-- A 4-byte write of word `i` of an entry; only bit 0 of the vector control word is a field. -/
def vecWrite (s : State) (v i : Nat) (w : BitVec 32) : State :=
  let e := if v < 1024 then tget vecReset s.host.msix v else tget vecReset s.host.mason (v - 1024)
  vecSet s v (sf e (32 * i + 31) (32 * i) (if i = 3 then bf w 0 0 else w.toNat))

/-- MSIX_UNMASK: the mask bit of a vector's entry is cleared. -/
def execMsixUnmask (v : Fin 2048) (s : State) : Res :=
  let e := if v.val < 1024 then tget vecReset s.host.msix v.val else tget vecReset s.host.mason (v.val - 1024)
  .next (vecSet s v.val (sb e 96 false))

/-! ## The arrays of chapters 6 to 8 -/

/-- A write of a queue page (R186, R217); every view may make it. -/
def queuePageWrite (k : Queue) (o : Nat) (v : BitVec 32) : Queue :=
  match o with
  | 0x000 => if qEn k && !qDev k then (pushTry k ((bf v 15 0 + 65536 - k.wptr.toNat) % 65536)).2 else k
  | 0x008 =>
    { k with
      guilty := if bt v 31 ∧ !k.resetting then false else k.guilty,
      fullrej := k.fullrej && !bt v 27, grej := k.grej && !bt v 26 }
  | _ => k

/-- Whether the fields of a queue that EN and BUSY protect take a write (R184). -/
def queueOpen (k : Queue) : Bool := !qEn k && !qBusy k && !k.resetting

/-- A write of a queue control block. -/
def queueWrite (k : Queue) (done : Bool) (o : Nat) (v : BitVec 32) : Queue :=
  match o with
  | 0x00 => if done then qctlNew k v else k
  | 0x04 => { k with hang := v &&& 0xFFFF }
  | 0x08 => if queueOpen k then { k with base := setHalf k.base 0 (v &&& 0xFFFFF000) } else k
  | 0x0C => if queueOpen k then { k with base := setHalf k.base 1 v } else k
  | 0x10 => if queueOpen k then { k with cst := setHalf k.cst 0 (v &&& 0xFFFFF000) } else k
  | 0x14 => if queueOpen k then { k with cst := setHalf k.cst 1 v } else k
  | _ => k

/-- A write of a context event block. -/
def eventWrite (k : Ctx) (done : Bool) (o : Nat) (v : BitVec 32) : Ctx :=
  match o with
  | 0x00 => if done then cevctlNew k v else k
  | 0x04 => cevptrNew k v
  | 0x08 => if bt k.cevctl 31 then k else { k with cevbase := setHalf k.cevbase 0 (v &&& 0xFFFFF000) }
  | 0x0C => if bt k.cevctl 31 then k else { k with cevbase := setHalf k.cevbase 1 v }
  | _ => k

/-- A write of half `i` of CSAVE (Table 7.2): ignored while the context holds a saved image; NSLOT takes 0 to 256. -/
def csaveWrite (k : Ctx) (i : Nat) (v : BitVec 32) : Ctx :=
  if k.slots ≠ [] then k
  else if i = 0 then
    { k with csave := setHalf k.csave 0 ((v &&& 0xFFC00000) ||| BitVec.ofNat 32 (if bf v 8 0 ≤ 256 then bf v 8 0 else bf k.csave 8 0)) }
  else { k with csave := setHalf k.csave 1 v }

/-- A write of a pool block (R241). -/
def poolWrite (k : Pool) (done : Bool) (o : Nat) (v : BitVec 32) : Pool :=
  let open_ := !plEn k && !k.busy
  match o with
  | 0x00 => if done then poolctlNew k v else k
  | 0x04 => if open_ then { k with cnt := v &&& 0xFFFFF } else k
  | 0x08 => if open_ then { k with base := setHalf k.base 0 (v &&& 0xFFFFC000) } else k
  | 0x0C => if open_ then { k with base := setHalf k.base 1 v } else k
  | 0x10 => if open_ then { k with pmeta := setHalf k.pmeta 0 (v &&& 0xFFFFF000) } else k
  | 0x14 => if open_ then { k with pmeta := setHalf k.pmeta 1 v } else k
  | _ => k

/-- A 4-byte write of a translation block; RTBASE and MDBASE ignore it (R257). -/
def xlateWrite (s : State) (x o : Nat) (v : BitVec 32) : State :=
  match o with
  | 0x10 => if s.rst.done then xctlWrite s x v else s
  | 0x14 => modCtx s x fun k => { k with xfault0 := w1c k.xfault0 v 0xC0000000 }
  | _ => s

/-! ## The package block and the ports -/

/-- A write of SPAN_CTL: COMMIT, ROUTE_EN and PROTO_ACT. -/
def spanCtlWrite (s : State) (v : BitVec 32) : State :=
  let s1 := routeEnSet (protoSet s (BitVec.ofNat 8 (bf v 15 8))) (bt v 30)
  if bt v 31 then spanCommitAll s1 else s1

/-- A 4-byte write of the package block; HOST_WIN ignores it (R349). -/
def packageWrite (s : State) (o : Nat) (v : BitVec 32) : State :=
  match o with
  | 0x00 => { s with schCfg := v &&& 0xFFFFFF00 }
  | 0x08 => owncmdWrite s (setHalf (sb s.ownCmd 63 false) 0 v)
  | 0x0C => owncmdWrite s (setHalf s.ownCmd 1 v)
  | 0x14 => spanIdSet s v
  | 0x18 => spanCtlWrite s v
  | 0x1C => if bt v 31 then routeGoWrite s else s
  | 0x20 => withSpan s { s.span with rat := setHalf s.span.rat 0 v }
  | 0x24 => withSpan s { s.span with rat := setHalf s.span.rat 1 v }
  | 0x28 => withPlumb s { s.plumb with cfgShadow := v &&& 0xFFE00000 }
  | 0x2C => if bt v 28 then withPlumb s { s.plumb with stepped := false } else s
  | _ => s

/-- A write of a port's block. -/
def portWrite (s : State) (p o : Nat) (v : BitVec 32) : State :=
  match o with
  | 0x00 => modPort s p fun k => { k with cfgShadow := v &&& 0xE0000000 }
  | 0x10 => modPort s p fun k => { k with asym := BitVec.ofNat 16 (bf v 15 0) }
  | _ => s

/-- A write of a route entry: ignored in the bank that drains (R330). -/
def routeWrite (s : State) (hall : Bool) (i : Nat) (v : BitVec 32) : State :=
  let b := decide ((if hall then 512 else 256) ≤ i)
  if s.span.drainFrom.isSome ∧ b ≠ s.span.actep then s
  else if hall then withSpan s { s.span with hroute := tset 0 s.span.hroute i v }
  else withSpan s { s.span with droute := tset 0 s.span.droute i v }

/-- A write of RLC_CTL (Table 9.12). -/
def rlcCtlWrite (s : State) (t : Nat) (v : BitVec 32) : State :=
  modTower s t fun w => { w with rlcCtl := sf (v &&& 0xC0000000) 23 16 (max 4 (bf v 23 16)) }

/-! ## The hub register block -/

/-- An aligned 4-byte write. (DEDUCED: log entry 63.) -/
def hubWrite4 (s : State) (view : View) (off : Nat) (v : BitVec 32) : State :=
  let done := s.rst.done
  if driverOnly off && !isDriver s view then s
  else if off < 0x1000000 then modQueue s (off / 1024) fun k => queuePageWrite k (off % 1024) v
  else if off < 0x1080000 then modQueue s ((off - 0x1000000) / 32) fun k => queueWrite k done (off % 32) v
  else if off < 0x10A0000 then modCtx s ((off - 0x1080000) / 32) fun k => eventWrite k done (off % 32) v
  else if off < 0x10A8000 then modCtx s ((off - 0x10A0000) / 8) fun k => csaveWrite k (off % 8 / 4) v
  else if 0x10B0000 ≤ off ∧ off < 0x10B2000 then modPool s ((off - 0x10B0000) / 32) fun k => poolWrite k done (off % 32) v
  else if 0x10C0000 ≤ off ∧ off < 0x1100000 then xlateWrite s ((off - 0x10C0000) / 64) (off % 64) v
  else if 0x1100000 ≤ off ∧ off < 0x1100040 then packageWrite s (off - 0x1100000) v
  else if 0x1101000 ≤ off ∧ off < 0x1101240 then portWrite s ((off - 0x1101000) / 32) (off % 32) v
  else if 0x1102000 ≤ off ∧ off < 0x1102800 then routeWrite s false ((off - 0x1102000) / 4) v
  else if 0x1102800 ≤ off ∧ off < 0x1103800 then routeWrite s true ((off - 0x1102800) / 4) v
  else if 0x1104800 ≤ off ∧ off < 0x1104840 then (if off % 8 = 4 then rlcCtlWrite s ((off - 0x1104800) / 8) v else s)
  else if 0x1200000 ≤ off ∧ off < 0x1204000 then vecWrite s ((off - 0x1200000) / 16) (off % 16 / 4) v
  else if 0x1210000 ≤ off ∧ off < 0x1214000 then vecWrite s (1024 + (off - 0x1210000) / 16) (off % 16 / 4) v
  else if 0x1300000 ≤ off ∧ off < 0x1301000 ∧ view = .mason then setMbox s 1 (mbWrite4 (getMbox s 1) (off - 0x1300000) v)
  else if 0x1301000 ≤ off ∧ off < 0x1302000 ∧ view = .pcie then setMbox s 2 (mbWrite4 (getMbox s 2) (off - 0x1301000) v)
  else s

/-- An aligned 8-byte write: one access to a 64-bit register, else two 4-byte writes (R182). -/
def hubWrite8 (s : State) (view : View) (off : Nat) (v : BitVec 64) : State :=
  let lo := BitVec.ofNat 32 (bf v 31 0)
  let hi := BitVec.ofNat 32 (bf v 63 32)
  if driverOnly off && !isDriver s view then s
  else if 0x10C0000 ≤ off ∧ off < 0x1100000 ∧ off % 64 = 0 then
    modCtx s ((off - 0x10C0000) / 64) fun k => { k with rtbase := v &&& (maskOf 64 63 12 ||| 0xF) }
  else if 0x10C0000 ≤ off ∧ off < 0x1100000 ∧ off % 64 = 8 then
    modCtx s ((off - 0x10C0000) / 64) fun k => { k with mdbase := v &&& (maskOf 64 63 12 ||| 0x3FF) }
  else if off = 0x1100008 then owncmdWrite s v
  else if off = 0x1100038 then withHost s { s.host with win := v &&& (maskOf 64 63 20 ||| 0xFFF) }
  else if off = 0x1300000 ∧ view = .mason then setMbox s 1 (mbWrite8 (getMbox s 1) 0 v)
  else if off = 0x1301000 ∧ view = .pcie then setMbox s 2 (mbWrite8 (getMbox s 2) 0 v)
  else hubWrite4 (hubWrite4 s view off lo) view (off + 4) hi

/-- A write of the hub register block; one of another size or alignment is dropped (R347). -/
def hubRegWrite (s : State) (view : View) (off size : Nat) (v : BitVec 64) : State :=
  if s.rst.stage < 2 ∨ 0x4000000 < off + size then s
  else if size = 4 ∧ off % 4 = 0 then hubWrite4 s view off (BitVec.ofNat 32 (bf v 31 0))
  else if size = 8 ∧ off % 8 = 0 then hubWrite8 s view off v
  else s

/-! ## Registers that only Keystone reaches (Tables 12.6, 12.7, 12.12, 13.2) -/

/-- PWR_CAP after a write: each field takes its own range. -/
def capNew (old v : BitVec 32) : BitVec 32 :=
  let c1 := if 1200 ≤ bf v 31 20 ∧ bf v 31 20 ≤ 3000 then sf old 31 20 (bf v 31 20) else old
  let c2 := if 60 ≤ bf v 19 12 ∧ bf v 19 12 ≤ 220 then sf c1 19 12 (bf v 19 12) else c1
  sb c2 11 (bt v 11)

/-- PWR_FREQ after a write. -/
def freqNew (old v : BitVec 32) : BitVec 32 :=
  if 56 < bf v 13 8 ∨ bf v 13 8 < bf v 5 0 then old else v &&& 0x3F3F

/-- A write of a register of the power controller or of the reset-cause record; limits take effect at the next interval. -/
def keyWrite (s : State) (r : KeyReg) (v : BitVec 32) : State :=
  match r with
  | .pwrCap => withPower s { s.power with capNext := capNew s.power.capNext v }
  | .pwrFreq => withPower s { s.power with freqNext := freqNew s.power.freqNext v }
  | .modCtl k =>
    let s1 := modIlimSet s k.val (BitVec.ofNat 8 (bf v 23 16))
    if bt v 30 then modClear s1 k.val none else modEnSet s1 k.val (bt v 31)
  | .rstCause0 => withRst s { s.rst with cause0 := w1c s.rst.cause0 v 0xFF }
  | .pwrTwr _ | .pwrStat | .pwrDomstat _ | .modStat _ | .rstCause1 | .rstStat => s


/-- A write of an aligned word of a mailbox page. -/
def mboxWrite (s : State) (m off size : Nat) (v : BitVec 64) : State :=
  if s.rst.stage < 1 ∨ 0x1000 < off + size then s
  else if size = 4 ∧ off % 4 = 0 then setMbox s m (mbWrite4 (getMbox s m) off (BitVec.ofNat 32 (bf v 31 0)))
  else if size = 8 ∧ off % 8 = 0 then setMbox s m (mbWrite8 (getMbox s m) off v)
  else s

/-! ## Posted writes of the host (R350) -/

/-- Performs a posted write: whether it is over, and the state. -/
def postedTry (s : State) (p : Posted) : Bool × State :=
  match p with
  | .window win off bs => windowWrite s win off bs
  | .register off size v => (true, hubRegWrite s .pcie off size v)

/-- Performs the posted writes that waited, in arrival order, up to the first that waits again. -/
def postedRun : List Posted → State → State
  | [], s => setPosted s []
  | p :: t, s => match postedTry s p with
    | (true, s1) => postedRun t s1
    | (false, s1) => setPosted s1 (p :: t)

/-- The posted writes of the host port try again. (DESIGN CHOICE: log entry 92.) -/
def postedAgain (s : State) : State := if s.host.posted = [] then s else postedRun s.host.posted s

/-- MIGRATE_PENDING_RECHECK: a waiting access re-reads the state of its page (R268 step 7). -/
def execMigratePendingRecheck (x : XUser) (s : State) : Res :=
  let waiting : XSt → Bool := fun t => match t with
    | .page _ _ _ _ => true
    | _ => false
  match x with
  | .fetch c =>
    let k := getCore s c.val
    if waiting k.fetchX then
      match pageAgain s c.val k.fetchX k.regs.pc .fetch true with
      | (t, s') => .next (modCore s' c.val fun k => { k with fetchX := t })
    else .next s
  | .seq c i =>
    let k := getCore s c.val
    match k.accs[i]? with
    | some a =>
      if waiting a.x then
        match pageAgain s c.val a.x a.va (accNeed a.kind) (accHall a.kind) with
        | (t, s') => if t = a.x then .next s' else .next (settleAcc s' c.val a t)
      else .next s
    | none =>
      match flagAcc k with
      | some a =>
        if i = k.accs.length ∧ waiting a.x = true then
          match pageAgain s c.val a.x a.va .read true with
          | (t, s') => .next (modCore (recordX s' c.val 0 .read a.va t) c.val fun k => setFlagAcc k { a with x := t })
        else .next s
      | none => .next s
  | .dma c ch =>
    let k := getCore s c.val
    let d := chanAt k ch.val
    if waiting d.xw then
      match chanXlate s c.val ch.val with
      | (.all _, s') | (.pending _, s') => .next s'
      | _ => .next s
    else .next s
  | .hub x va =>
    if s.hubX.any fun h => hubWaits x.val va h && waiting h.2.2 then
      match hubXlate s x.val va .read false with
      | (.page _ _ _ _, s') => .next s'
      | (_, s') => .next (postedAgain (lateEvents s'))
    else .next (postedAgain s)

/-- REGISTER_WRITE. A write of the host stays behind a posted write that waits (R350). (DESIGN CHOICE: log entry 92.) -/
def execRegisterWrite (t : RegTarget) (size : Nat) (v : BitVec 64) (s : State) : Res :=
  match t with
  | .hub .mason off => .next (hubRegWrite s .mason off size v)
  | .hub .pcie off => .next (if !barOpen s then s
    else if s.host.posted = [] then hubRegWrite s .pcie off size v
    else setPosted s (s.host.posted ++ [.register off size v]))
  | .mailbox m off => .next (mboxWrite s m.val off size v)
  | .key r => .next (if 2 ≤ s.rst.stage ∧ size = 4 then keyWrite s r (BitVec.ofNat 32 (bf v 31 0)) else s)

end Sys2Proof.Machine
end

