-- ==== Sys2Proof/Machine/HostPort.lean ====
section
/-!
DEFINITION. The host port and the Mason cores (R345, R346, R352 to R356).
-/

namespace Sys2Proof.Machine

/-! ## Outbound requests (R353) -/

/-- Records an uncorrectable error in Advanced Error Reporting: bit 14 is a completion timeout. (PRESUMED: log entry 79.) -/
def aerSet (s : State) (i : Nat) : State :=
  withHost s { s.host with cfg := { s.host.cfg with uncStat := sb s.host.cfg.uncStat i true } }

/-- The least time in ns after which a request is without a completion, by the Completion Timeout Value: 0 is 50 ms, and ranges A and
B begin as the PCI Express specification gives. (PRESUMED: log entry 79.) -/
def ctoNs (v : BitVec 4) : Nat :=
  match v.toNat with
  | 1 => 50000
  | 2 => 1000000
  | 5 => 16000000
  | 6 => 65000000
  | _ => 50000000

/-- Whether an outbound request has had no completion within the Completion Timeout Value (R353). -/
def ctoOver (s : State) (r : OutReq) : Bool := !s.host.cfg.ctoOff && decide (r.issued + ctoNs s.host.cfg.cto ≤ s.now)

/-- OUTBOUND_COMPLETION of a request by its number. -/
def execOutboundCompletion (id : Nat) (o : OutOutcome) (s : State) : Res :=
  match s.host.outs.find? fun r => r.id = id with
  | none => .next s
  | some r =>
    if o = .timeout ∧ ctoOver s r = false then .next s else
    let s1 := withHost s { s.host with outs := s.host.outs.filter fun x => x.id ≠ id }
    .next (match o with
      | .success d => completeUser s1 r.user false St.ok d
      | .refused => completeUser s1 r.user false St.ctxDenied []
      | .timeout => completeUser (aerSet s1 14) r.user false St.remoteTimeout [])

/-! ## Link and configuration (R345, R351, R354) -/

/-- PCIE_LINK_RESET: only the port's PCIe state is reset, inbound requests not yet performed are dropped, and every outstanding
outbound request ends (R354). (PRESUMED: log entry 7.) (PRESUMED: log entry 79.) -/
def pcieReset (s : State) : State :=
  let outs := s.host.outs
  let s1 := withHost s { s.host with
    link := false, cfg := {}, msix := [], pba := [], outs := [], posted := [] }
  forEach s1 outs fun s r => completeUser s r.user false St.remoteTimeout []

/-- PCIE_LINK_RESET. -/
def execPcieLinkReset (s : State) : Res := .next (pcieReset s)

/-- PCIE_LINK_UP: the link trains once release step 3 has released the port (Table 13.5). -/
def execPcieLinkUp (s : State) : Res :=
  .next (if 3 ≤ s.rst.stage then withHost s { s.host with link := true } else s)

/-- Sends what was raised on every unmasked vector while messages could not be sent. -/
def sendPending (s : State) : State := forEach s ((s.host.pba.filter fun p => p.2).map Prod.fst) unmaskSend

/-- The configuration space after a write of all of its fields: a 1 clears a bit of a status word. (PRESUMED: log entry 79.) -/
def cfgWritten (c w : PcieCfg) : PcieCfg := { w with corStat := c.corStat &&& ~~~w.corStat, uncStat := c.uncStat &&& ~~~w.uncStat }

/-- PCIE_CONFIG_WRITE: answered normally from release step 4 on; D3hot acts as Bus Master Enable = 0 and Memory Space
Enable = 0 (Table 11.1). (PRESUMED: log entry 79.) -/
def execPcieConfigWrite (cmd : PcieCmd) (dev : PcieDev) (cap : PcieCap) (aer : PcieAer) (s : State) : Res :=
  if s.host.link ∧ s.host.cfgReady then
    .next (sendPending (withHost s { s.host with cfg := cfgWritten s.host.cfg ⟨cmd, dev, cap, aer⟩ }))
  else .next s

/-! ## Mason accesses (Table 11.5, R355, R356) -/

/-- The answer to a Mason load. -/
def masonAnswer (s : State) (d : List Byte) : State := withHost s { s.host with masonData := d, masonFault := false }
def masonFaults (s : State) : State := withHost s { s.host with masonData := [], masonFault := true }

/-- The code with which a request from die `d` to a local offset ends before its home answers: an absent offset, or no route
(R31, R275). -/
def masonCode (s : State) (d a : Nat) : Code :=
  if homeCheck s true 0 a ≠ St.ok then homeCheck s true 0 a else dieCode s d (homeTower s a)

/-- A Mason load or fetch from local memory, line by line: the home image, never a dirty RLC copy (R357). (DEDUCED: log entry 25.) -/
def masonLoad (d : Nat) : List (Nat × Nat) → State → List Byte → State
  | [], s, acc => masonAnswer s acc
  | (a, n) :: t, s, acc =>
    if masonCode s d a ≠ St.ok then masonFaults s
    else match homeRead s true 0 a n false with
      | (c, bs, s1) => if c = St.ok then masonLoad d t s1 (acc ++ bs) else masonFaults s1

/-- A Mason store or line written back to local memory; a failing one is dropped with a RAS event (R356). (DEDUCED: log entry 25.) -/
def masonStore (d : Nat) : List (Nat × Nat) → State → List Byte → State
  | [], s, _ => s
  | (a, n) :: t, s, bs =>
    match hereWrite s d true 0 a (bs.take n) false with
    | (c, s1) => masonStore d t (if c = St.ok then s1 else ras s1 c 5 (unitId s1 0 0) a) (bs.drop n)

/-- A Mason access to the window of PCIe bus addresses; one that cannot be issued fails at once (R352). -/
def masonBus (s : State) (a size : Nat) (isRead : Bool) (wr : List Byte) : State :=
  let user : RemUser := .mason (!isRead) a
  if outReady s then outSend s user 0 (a - 0x40000000000) (if isRead then none else some wr) size
  else completeUser s user false St.ctxDenied []

/-- Whether a Mason access reads. -/
def masonReads : MasonKind → Bool
  | .load | .ifetch => true
  | .store | .writeback => false

/-- A Mason access that has no route to the hub die: a read faults, and a write is dropped with a RAS event (R31, R356). -/
def masonLost (s : State) (isRead : Bool) (a : Nat) : State :=
  if isRead then masonFaults s else ras s St.remoteTimeout 5 (unitId s 0 0) a

/-- A Mason access to what the hub die holds or forwards: registers, and the window of PCIe bus addresses. -/
def masonHub (s : State) (addr size : Nat) (isRead : Bool) (wr : List Byte) : State :=
  if addr < 0x20004000000 then
    (if isRead then masonAnswer s (toLe size (hubRegRead s .mason (addr - 0x20000000000) size).toNat)
    else hubRegWrite s .mason (addr - 0x20000000000) size (BitVec.ofNat 64 (leNat wr)))
  else masonBus s addr size isRead wr

/-- Whether a Mason address is that of the hub registers or of the window of PCIe bus addresses. -/
def onHub (addr : Nat) : Bool :=
  decide (0x20000000000 ≤ addr ∧ addr < 0x20004000000) || decide (0x40000000000 ≤ addr ∧ addr < 0x80000000000)

/-- The die of a Mason core. -/
def masonDie (c : Nat) : Nat := 9 + c / 72

/-- Whether a link on the way of a Mason access, or its channel, holds its traffic (R27, R28, R411). -/
def masonHeld (s : State) (d addr : Nat) : Bool :=
  if addr < 0x20000000000 then routeHolds s d (homeTower s addr) || chanHeld s addr else onHub addr && routeHolds s d hubDie

/-- Whether the cluster of a Mason core has power: a cluster that powers down still writes its dirty lines back (Table 12.2). -/
def clusterOn (s : State) (c : Nat) (k : MasonKind) : Bool :=
  match (getDom s (96 + c / 18)).st with
  | .on | .waiting => true
  | .poweringDown => decide (k = .writeback)
  | .off | .poweringUp => false

/-- MASON_ACCESS of a Mason core at a Mason physical address, once the clusters are released and while its die is in service; an
address outside Table 11.5 raises an access fault on the core. The interrupt files keep the last value written to a word;
what their reads return is a free value. (DESIGN CHOICE: log entry 77.) -/
def execMasonAccess (addr : Nat) (size : Nat) (k : MasonOp) (wr : List Byte) (s : State) : Res :=
  let c := k.core
  let isRead := masonReads k.kind
  let d := masonDie c.val
  if s.rst.stage < 9 ∨ s.key.masonGone.contains (c.val / 72) ∨ clusterOn s c.val k.kind = false ∨ masonHeld s d addr then .next s
  else if addr < 0x20000000000 then
    .next (if isRead then masonLoad d (pieces 64 (size + 1) addr size) s [] else masonStore d (pieces 64 (wr.length + 1) addr wr.length) s wr)
  else if onHub addr then .next (if routed s d hubDie then masonHub s addr size isRead wr else masonLost s isRead addr)
  else if inImsic addr then
    (if isRead then match freshBytes s size with
      | (d, s1) => .next (masonAnswer s1 d)
    else .next (withHost s { s.host with imsic := tset 0 s.host.imsic addr (BitVec.ofNat 32 (leNat wr)) }))
  else .next (masonFaults s)

end Sys2Proof.Machine
end

