-- ==== Sys2Proof/Machine/Orders.lean ====
section
/-!
DEFINITION. The orders of the groups SYS, PWR, THM, MEM and SPAN (Tables 14.10 to 14.14, R405, R407, R410, R411). Each command runs
the next order of the batch when that order is its verb.
-/

namespace Sys2Proof.Machine

/-- The bytes of 32-bit registers, in order. -/
def words (l : List (BitVec 32)) : List Byte := l.flatMap fun w => toLe 4 w.toNat

/-! ## SYS -/

/-- Fields of a slot header (Table 14.21). -/
def hdrVer (h : List Byte) : Nat := fieldLe h 4 4
def hdrSver (h : List Byte) : Nat := fieldLe h 8 2
def hdrSmin (h : List Byte) : Nat := fieldLe h 10 2
def hdrProto (h : List Byte) : Nat := fieldLe h 12 1

/-- A firmware slot, and its header as it reads when the slot has none. -/
def slotOf (s : State) (b : Bool) : FwSlot := if b then s.store.slotB else s.store.slotA
def headerOf (s : State) (b : Bool) : List Byte := (slotOf s b).header.getD (List.replicate 160 0)

/-- SYS.INFO: 64 bytes of the values that Table 14.10 lists. (DESIGN CHOICE: log entry 23.) -/
def execSysInfo (s : State) : Res :=
  .next (runOrder s 1 1 .r (fun o => alen o 0) (fun _ => true) fun s _ =>
    let slot : Bool → List Nat := fun b => [hdrVer (headerOf s b), hdrSver (headerOf s b), hdrSmin (headerOf s b), hdrProto (headerOf s b)]
    let j := journalOf s
    ranRead s (laid 1 1 ([Config.partAndStepping.toNat, Config.serialNumber.toNat] ++ slot false ++ slot true
      ++ [bit s.rst.slot, bit j.committed, j.count, s.key.sver.toNat, (rstStat s).toNat]) 64))

/-- Whether the next order clears SEEN bits. -/
def clearsSeen (s : State) : Bool := match s.key.batch with
  | o :: _ => decide (arg o 0 1 ≠ 0)
  | [] => false

/-- SYS.CAUSE: the record as it stood, then SEEN bits are cleared, which needs W. (DEDUCED: log entry 35.) -/
def execSysCause (s : State) : Res :=
  .next (runOrder s 1 2 (if clearsSeen s then .w else .r) (fun o => alen o 0 || alen o 1) (fun _ => true) fun s o =>
    let v := BitVec.ofNat 32 (arg o 0 1)
    let s1 := withRst s { s.rst with cause0 := w1c s.rst.cause0 v 0xFF }
    ⟨s1, .done St.ok (words [s.rst.cause0, s.rst.cause1]), ((List.range 8).filter (bt v)).map fun i => (tgt 3 i, 0)⟩)

/-- SYS.RESET: the reply starts the 10 µs to the reset (R382). -/
def execSysReset (s : State) : Res := .next (runOrder s 1 3 .w (fun o => alen o 0) (fun _ => true) fun s _ => ranOk s [])

/-- SYS.OFFLINE: 1 stops the package and holds the stop, 0 resumes pops (R411). -/
def execSysOffline (s : State) : Res :=
  .next (runOrder s 1 4 .w (fun o => alen o 1 && decide (arg o 0 1 ≤ 1)) (fun _ => true) fun s o =>
    if arg o 0 1 = 1 then
      if s.key.stopped then ranOk (withKey s { s.key with stopHeld := true }) [(tgt 4 0, 1)]
      else ⟨beginStop s, .later, []⟩
    else
      let more := s.key.pending.any fun p => p.offline
      ranOk (withKey s { s.key with stopHeld := false, stopped := s.key.stopped && more }) [(tgt 4 0, 0)])

/-- PACKAGE_STOP: with no entry running the package is stopped; after 100 ms every entry still running is reset (R411). -/
def execPackageStop (s : State) : Res :=
  let running := (s.queues.filter fun q => q.2.run.isSome).map Prod.fst
  if !s.key.stopping then .next s
  else if running = [] then .next (withKey s { s.key with stopping := false, stopped := true })
  else if s.key.stopSince + 100000000 ≤ s.now then
    .next (forEach s running fun s q => guilty s q St.queueGuilty (noPacket St.queueGuilty) false)
  else .next s

/-- SYS.DRV: persisted for the next reset. -/
def execSysDrv (s : State) : Res :=
  .next (runOrder s 1 5 .w0 (fun o => alen o 1 && decide (arg o 0 1 ≤ 1)) (fun o => o.persist) fun s o =>
    endPersist s o (fun r => { r with drv := decide (arg o 0 1 = 1) }) [(tgt 2 0, arg o 0 1)])

/-- SYS.M3. -/
def execSysM3 (s : State) : Res :=
  .next (runOrder s 1 6 .w0 (fun o => alen o 1 && decide (arg o 0 1 ≤ 1)) (fun _ => true) fun s o =>
    let v := decide (arg o 0 1 = 1)
    endPersist (withKey s { s.key with m3w := v }) o (fun r => { r with m3w := v }) [(tgt 1 0, arg o 0 1)])

/-- The values of a settings record (Table 14.20). -/
def settingsVals (r : SetRec) : List Nat :=
  let v := r.val
  [r.sver.toNat, r.gen.toNat, bit v.drv, bit v.m3w, v.cap.toNat, v.freq.toNat, bit v.tower]
    ++ ((List.range 8).map fun t => (tget 0x5000 v.kinds t).toNat) ++ [v.spanId.toNat]
    ++ ((List.range 18).map fun p => (tget 0x80 v.ports p).toNat)
    ++ [v.plumb.toNat, (v.proto.map fun p => p.toNat + 1).getD 0] ++ ((List.range 18).map fun k => (tget 0x178 v.mods k).toNat)
    ++ [v.period, v.mask.toNat]

/-- SYS.SETREAD of the area in force or of the other. -/
def execSysSetread (s : State) : Res :=
  .next (runOrder s 1 7 .r (fun o => alen o 1 && decide (arg o 0 1 ≤ 1)) (fun _ => true) fun s o =>
    ranRead s (match newest (areaOf s (s.rst.slot ^^ decide (arg o 0 1 = 1))) with
      | none => []
      | some r => laidFree 1 7 (settingsVals r)))

/-! ## PWR -/

/-- PWR.CAP: takes effect at the next interval. (DESIGN CHOICE: log entry 23.) -/
def execPwrCap (s : State) : Res :=
  .next (runOrder s 2 1 .w (fun o => alen o 5 && decide (1200 ≤ arg o 0 2 ∧ arg o 0 2 ≤ 3000 ∧ 60 ≤ arg o 2 2 ∧ arg o 2 2 ≤ 220 ∧ arg o 4 1 ≤ 1))
    (fun _ => true) fun s o =>
      let v := fields [(arg o 0 2, 20), (arg o 2 2, 12), (arg o 4 1, 11)]
      endPersist (withPower s { s.power with capNext := v }) o (fun r => { r with cap := v })
        [(tgt 5 0, arg o 0 2), (tgt 6 0, arg o 2 2), (tgt 7 0, arg o 4 1)])

/-- PWR.FREQ. -/
def execPwrFreq (s : State) : Res :=
  .next (runOrder s 2 2 .w (fun o => alen o 2 && decide (arg o 1 1 ≤ 56 ∧ arg o 0 1 ≤ arg o 1 1)) (fun _ => true) fun s o =>
    let v := fields [(arg o 1 1, 8), (arg o 0 1, 0)]
    endPersist (withPower s { s.power with freqNext := v }) o (fun r => { r with freq := v }) [(tgt 8 0, arg o 0 1), (tgt 9 0, arg o 1 1)])

/-- PWR.DOMAIN: a Quarry half-slice, and an HBM subsystem in use, are refused (R363). -/
def execPwrDomain (s : State) : Res :=
  .next (runOrder s 2 3 .w (fun o => alen o 2 && decide (arg o 0 1 ≤ 107 ∧ arg o 1 1 ≤ 1))
    (fun o =>
      let d := arg o 0 1
      !(decide (64 ≤ d ∧ d < 80)) && (!(decide (80 ≤ d ∧ d < 96 ∧ arg o 1 1 = 0)) || stackRetired s (d - 80)))
    fun s o => ranOk (domTarget s (arg o 0 1) (decide (arg o 1 1 = 1))) [(tgt 10 (arg o 0 1), arg o 1 1)])

/-- PWR.STATUS. (DEDUCED: log entry 35.) -/
def execPwrStatus (s : State) : Res :=
  .next (runOrder s 2 4 .r (fun o => alen o 0) (fun _ => true) fun s _ =>
    ranRead s (words ([pwrStat s, s.power.capNext, s.power.freqNext] ++ (List.range 8).map (pwrTwr s) ++ (List.range 108).map (domStat s))))

/-! ## THM -/

/-- THM.COOLANT. -/
def execThmCoolant (s : State) : Res :=
  .next (runOrder s 3 1 .w (fun o => alen o 4) (fun _ => true) fun s o =>
    ranOk (withPower s { s.power with inlet := arg o 0 2, flow := arg o 2 2, coolantAt := s.now, stale := false })
      [(tgt 11 0, arg o 0 2), (tgt 12 0, arg o 2 2)])

/-- THM.STATUS. -/
def execThmStatus (s : State) : Res :=
  .next (runOrder s 3 2 .r (fun o => alen o 0) (fun _ => true) fun s _ =>
    ranRead s (((List.range 74).flatMap fun i => toLe 2 (BitVec.ofInt 16 (s.power.sensors.getD i 0)).toNat)
      ++ toLe 2 s.power.inlet ++ toLe 2 s.power.flow ++ toLe 2 (min 65535 ((s.now - s.power.coolantAt) / 1000000))))

/-! ## MEM -/

/-- MEM.INTLV: persisted for the next reset. -/
def execMemIntlv (s : State) : Res :=
  .next (runOrder s 4 1 .w (fun o => alen o 1 && decide (arg o 0 1 ≤ 1)) (fun o => o.persist) fun s o =>
    endPersist s o (fun r => { r with tower := decide (arg o 0 1 = 1) }) [(tgt 13 0, arg o 0 1)])

/-- MEM.QKIND: the change waits its turn in its tower; a SCRATCH unit changes only with every granule NONE (R297). -/
def execMemQkind (s : State) : Res :=
  .next (runOrder s 4 2 .w (fun o => alen o 3 && decide (arg o 0 1 ≤ 7 ∧ arg o 1 1 ≤ 7 ∧ arg o 2 1 ≤ 3))
    (fun o =>
      let t := arg o 0 1
      let u := arg o 1 1
      !bt (getTower s t).part (16 + u)
      && (decide (qKind s t u ≠ 2) || (entriesOf s (windowGranule t u)).all fun e => decide (bf e 15 14 = 0)))
    fun s o =>
      let t := arg o 0 1
      let u := arg o 1 1
      let s1 := modTower s t fun w => { w with changing := w.changing ++ [(u, arg o 2 1)] }
      let s2 := if arg o 2 1 = 3 then s1 else domTarget s1 (64 + halfOf t u) true
      endPersist s2 o (fun r => { r with kinds := tset 0x5000 r.kinds t (sf (tget 0x5000 r.kinds t) (2 * u + 1) (2 * u) (arg o 2 1)) })
        [(tgt 14 (8 * t + u), arg o 2 1)])

/-- MEM.STATUS. -/
def execMemStatus (s : State) : Res :=
  .next (runOrder s 4 3 .r (fun o => alen o 4 && decide (1 ≤ arg o 2 2 ∧ arg o 2 2 ≤ 500 ∧ arg o 0 2 + arg o 2 2 ≤ 512)) (fun _ => true)
    fun s o =>
      ranRead s (words ([s.memcfg] ++ (List.range 8).map (qryPart s)
        ++ (List.range (arg o 2 2)).map fun i => (getHbm s (arg o 0 2 + i)).stat)))

/-! ## SPAN -/

/-- SPAN.ID: refused while ROUTE_EN = 1 (R307). -/
def execSpanId (s : State) : Res :=
  .next (runOrder s 5 1 .w (fun o => alen o 3 && decide (arg o 0 2 ≤ 511)) (fun _ => !s.span.routeEn) fun s o =>
    let v := fields [(1, 31), (arg o 0 2, 16), (arg o 2 1, 0)]
    endPersist (spanIdSet s v) o (fun r => { r with spanId := v }) [(tgt 15 0, v.toNat)])

/-- SPAN.PORTS: the shadows, then COMMIT. -/
def execSpanPorts (s : State) : Res :=
  .next (runOrder s 5 2 .w (fun o => alen o 18 && o.args.all fun b => decide (b &&& 0x7C = 0)) (fun _ => true) fun s o =>
    let s1 := forEach s (List.range 18) fun s p => modPort s p fun k =>
      { k with cfgShadow := fields [(arg o p 1 / 128, 31), (arg o p 1 % 4, 29)] }
    endPersist (spanCommitAll s1) o
      (fun r => { r with ports := (List.range 18).foldl (fun t p => tset 0x80 t p (BitVec.ofNat 8 (arg o p 1))) r.ports })
      ((List.range 18).map fun p => (tgt 16 p, arg o p 1)))

/-- SPAN.PLUMB: the shadow, then COMMIT. -/
def execSpanPlumb (s : State) : Res :=
  .next (runOrder s 5 3 .w (fun o => alen o 4) (fun _ => true) fun s o =>
    let v := BitVec.ofNat 32 (arg o 0 4) &&& 0xFFE00000
    endPersist (spanCommitAll (withPlumb s { s.plumb with cfgShadow := v })) o (fun r => { r with plumb := v }) [(tgt 17 0, v.toNat)])

/-- SPAN.PORTCLR: the records of a port's lanes are cleared, for the next reset (R321). -/
def execSpanPortclr (s : State) : Res :=
  .next (runOrder s 5 4 .w (fun o => alen o 1 && decide (arg o 0 1 ≤ 17)) (fun _ => true) fun s o =>
    let us := (List.range 8).map fun l => unitCode 0xC (8 * arg o 0 1 + l)
    let s1 := withStore s { s.store with sincePwr := us.foldl (fun t u => tset 0 t u 0) s.store.sincePwr }
    let s2 := recUnits s1 (fun r => { r with retired := r.retired.filter fun u => !us.contains u }) none
    endStored s s2 o (us.map fun u => (tgt 18 u, 3)))

/-- SPAN.SEND: one access to the M3 page of another package (R407). -/
def execSpanSend (s : State) : Res :=
  .next (runOrder s 5 5 .w0
    (fun o =>
      let n := if arg o 3 1 = 1 then arg o 6 1 else 0
      alen o (8 + 8 * n) && decide (n ≤ 31 ∧ arg o 0 2 ≤ 511 ∧ arg o 7 1 = 0))
    (fun _ => true)
    fun s o =>
      let d := slice o.args 4 2 ++ slice o.args 3 1 ++ slice o.args 6 1 ++ List.replicate 4 0 ++ o.args.drop 8
      ⟨remoteSend s (.send o.mb) 0x10 (arg o 0 2 * 2 ^ 49 + arg o 2 1 * 2 ^ 41) 0 d.length 0 false d, .started false, []⟩)

/-- SPAN.ROUTE: entries of the bank that is neither active, committed nor draining. -/
def execSpanRoute (s : State) : Res :=
  .next (runOrder s 5 6 .w
    (fun o => decide (8 ≤ o.args.length ∧ arg o 0 1 ≤ 1 ∧ arg o 1 1 ≤ 1 ∧ 1 ≤ arg o 4 2 ∧ arg o 4 2 ≤ 224 ∧ arg o 6 2 = 0
        ∧ arg o 2 2 + arg o 4 2 ≤ 256 * (arg o 0 1 + 1)) && alen o (8 + 4 * arg o 4 2))
    (fun o => !(s.span.rtbusy || decide (decide (arg o 1 1 = 1) = s.span.actep)))
    fun s o =>
      let hall := decide (arg o 0 1 = 1)
      let at_ : Nat → Nat := fun i => arg o 1 1 * (if hall then 512 else 256) + arg o 2 2 + i
      let v : Nat → BitVec 32 := fun i => BitVec.ofNat 32 (arg o (8 + 4 * i) 4)
      let is := List.range (arg o 4 2)
      let s1 := if hall then withSpan s { s.span with hroute := is.foldl (fun t i => tset 0 t (at_ i) (v i)) s.span.hroute }
        else withSpan s { s.span with droute := is.foldl (fun t i => tset 0 t (at_ i) (v i)) s.span.droute }
      ranOk s1 (is.map fun i => (tgt 19 ((if hall then 1024 else 0) + at_ i), (v i).toNat)))

/-- SPAN.SWITCH: SPAN_RAT, then GO (R329). -/
def execSpanSwitch (s : State) : Res :=
  .next (runOrder s 5 7 .w (fun o => alen o 8) (fun _ => !s.span.rtbusy) fun s o =>
    ranOk (routeGoWrite (withSpan s { s.span with rat := BitVec.ofNat 64 (arg o 0 8) })) [(tgt 20 0, arg o 0 8)])

/-- SPAN.CTL: ROUTE_EN and PROTO_ACT; PERSIST stores PROTO_ACT only. -/
def execSpanCtl (s : State) : Res :=
  .next (runOrder s 5 8 .w
    (fun o => alen o 2 && decide (arg o 0 1 ≤ 1)
      && decide (BitVec.ofNat 8 (arg o 1 1) = s.span.protoImpl ∨ BitVec.ofNat 8 (arg o 1 1) = s.span.protoImpl - 1))
    (fun o => decide (arg o 0 1 = 0) || bt s.span.id 31)
    fun s o =>
      let p := BitVec.ofNat 8 (arg o 1 1)
      endPersist (routeEnSet (protoSet s p) (decide (arg o 0 1 = 1))) o (fun r => { r with proto := some p })
        [(tgt 22 0, arg o 0 1), (tgt 23 0, arg o 1 1)])

/-- SPAN.STATUS. -/
def execSpanStatus (s : State) : Res :=
  .next (runOrder s 5 9 .r (fun o => alen o 0) (fun _ => true) fun s _ =>
    ranRead s (words ([s.span.id, spanCtl s, spanRctl s, plumbStat s]
      ++ (List.range 18).flatMap fun p => [portStat s p, portNbr s p, portErr s p])))

end Sys2Proof.Machine
end

