-- ==== Sys2Proof/Machine/Orders2.lean ====
section
/-!
DEFINITION. The orders of the groups CAL, FW, RAS, TEST and MOD (Tables 14.15 to 14.19), the live handover of firmware (R413, R414)
and the rolling self-test (R417 to R419).
-/

namespace Sys2Proof.Machine

/-! ## CAL (R415) -/

/-- CAL.READ of the factory layer, the user layer, or the values in force. -/
def execCalRead (s : State) : Res :=
  .next (runOrder s 6 1 .r (fun o => alen o 1 && decide (arg o 0 1 ≤ 2)) (fun _ => true) fun s o =>
    let user := ((List.range 8).map fun t => (BitVec.ofInt 16 (tget 0 s.key.cal.voff t)).toNat)
      ++ ((List.range 18).map fun p => (tget 0 s.key.cal.asym p).toNat)
    ranRead s (laidFree 6 1 (arg o 0 1 :: (if arg o 0 1 = 0 then [] else user))))

/-- CAL.VOFF: the live offset of a tower and the user layer. -/
def execCalVoff (s : State) : Res :=
  .next (runOrder s 6 2 .w
    (fun o =>
      let v := toInt 8 (arg o 1 1)
      alen o 2 && decide (arg o 0 1 ≤ 7 ∧ -25 ≤ v ∧ v ≤ 25 ∧ v % 5 = 0))
    (fun _ => true)
    fun s o =>
      let t := arg o 0 1
      let cal := { s.key.cal with voff := tset 0 s.key.cal.voff t (toInt 8 (arg o 1 1)) }
      let s1 := moveVcore (withKey s { s.key with cal := cal }) t
      endStored s (storePush s1 (.cal cal) none) o [(tgt 24 t, arg o 1 1)])

/-- CAL.ASYM: the live PLUMB_ASYM of a port and the user layer. -/
def execCalAsym (s : State) : Res :=
  .next (runOrder s 6 3 .w (fun o => alen o 4 && decide (arg o 0 1 ≤ 17 ∧ arg o 1 1 = 0)) (fun _ => true) fun s o =>
    let p := arg o 0 1
    let v := BitVec.ofNat 16 (arg o 2 2)
    let cal := { s.key.cal with asym := tset 0 s.key.cal.asym p v }
    let s1 := modPort (withKey s { s.key with cal := cal }) p fun k => { k with asym := v }
    endStored s (storePush s1 (.cal cal) none) o [(tgt 25 p, arg o 2 2)])

/-- The channels that a CAL.HBM order names and that are not RETIRED. -/
def calNamed (s : State) (o : Order) : List Nat :=
  (if arg o 0 2 = 0xFFFF then List.range 512 else [arg o 0 2]).filter fun c => decide (chState s c ≠ 1)

/-- CAL.HBM: the channels named ask for a recalibration, with the package stopped under OFFLINE (R291, R411). -/
def execCalHbm (s : State) : Res :=
  .next (runOrder s 6 4 .w (fun o => alen o 2 && decide (arg o 0 2 ≤ 511 ∨ arg o 0 2 = 0xFFFF)) (fun _ => true) fun s o =>
    if o.offline ∧ !s.key.stopped then ⟨beginStop s, .later, []⟩
    else
      let s1 := forEach s (calNamed s o) fun s c => setHbm s c { getHbm s c with recalWait := true, offline := o.offline }
      ⟨s1, .started false, if o.offline then [(tgt 4 0, 1)] else []⟩)

/-- Whether every channel that an order names has recalibrated since it started. -/
def calOver (s : State) (o : Order) : Bool :=
  decide (o.group = 6 ∧ o.verb = 4) && (calNamed s o).all fun c =>
    let h := getHbm s c
    !h.recalWait && decide (h.recal = 0 ∧ o.since ≤ h.lastRecal)

/-- CAL_HBM_DONE. -/
def execCalHbmDone (s : State) : Res :=
  match s.key.pending.find? (calOver s) with
  | none => .next s
  | some o => .next (startedDone s o.mb St.ok 0 [])

/-- CAL.CLEAR: the user layer is empty, and the values in force are the factory's. -/
def execCalClear (s : State) : Res :=
  .next (runOrder s 6 5 .w0 (fun o => alen o 0) (fun _ => true) fun s o =>
    let s1 := forEach (withKey s { s.key with cal := {} }) (List.range 8) moveVcore
    let s2 := forEach s1 (List.range 18) fun s p => modPort s p fun k => { k with asym := 0 }
    endStored s (storePush s2 (.cal {}) none) o
      (((List.range 8).map fun t => (tgt 24 t, 0)) ++ (List.range 18).map fun p => (tgt 25 p, 0)))

/-! ## FW (R412 to R414) -/

/-- The slot that the FW orders write: the one that does not run, or A in the recovery state. (DESIGN CHOICE: log entry 61.) -/
def fwTarget (s : State) : Bool := if s.rst.recovery then false else !s.rst.slot

/-- Replaces a firmware slot. -/
def setSlot (s : State) (b : Bool) (k : FwSlot) : State :=
  withStore s (if b then { s.store with slotB := k } else { s.store with slotA := k })

/-- Bytes of the body: the slot without its header sector. -/
def bodySize : Nat := 0x1000000 - 0x1000

/-- The 64 KiB sectors that a write of the body reaches. -/
def sectorsOf (off n : Nat) : List Nat :=
  (List.range ((0x1000 + off + n - 1) / 65536 - (0x1000 + off) / 65536 + 1)).map fun i => (0x1000 + off) / 65536 + i

/-- A write into the body of a slot: at offset 0 the header sector is erased first, and each sector is erased when it is reached for
the first time since; an erased byte reads 0xFF, which the body keeps as its complement. -/
def fwWriteSlot (k : FwSlot) (off : Nat) (d : List Byte) : FwSlot :=
  let k1 : FwSlot := if off = 0 then { k with header := none, sealedOk := false, erased := [] } else k
  let new := (sectorsOf off d.length).filter fun x => !k1.erased.contains x
  let body := new.foldl (fun b x => tclear (65536 * x - 0x1000) (if x = 0 then 65536 - 0x1000 else 65536) b) k1.body
  { k1 with erased := k1.erased ++ new, body := wrN body off (d.map fun b => ~~~b), sealedOk := false }

/-- FW.WRITE; `ok` says that the flash answered and that every read-back held (R395). -/
def execFwWrite (ok : Bool) (s : State) : Res :=
  .next (runOrder s 7 1 .w
    (fun o => alen o (8 + arg o 4 4) && decide (arg o 0 4 % 64 = 0 ∧ arg o 4 4 % 64 = 0 ∧ 64 ≤ arg o 4 4 ∧ arg o 4 4 ≤ 896
      ∧ arg o 0 4 + arg o 4 4 ≤ bodySize))
    (fun _ => true)
    fun s o =>
      let b := fwTarget s
      if ok ∧ s.store.flashOk then
        ranOk (setSlot s b (fwWriteSlot (slotOf s b) (arg o 0 4) (o.args.drop 8))) [(tgt 26 (bit b), 2 * leNat o.args)]
      else
        ⟨setSlot s b { slotOf s b with sealedOk := false, header := if arg o 0 4 = 0 then none else (slotOf s b).header }, .refused 6, []⟩)

/-- FW.SEAL; `digestOk` and `sigOk` are the outcomes of its two checks. After a failed factory signature none matches (R416). -/
def execFwSeal (digestOk sigOk ok : Bool) (s : State) : Res :=
  .next (runOrder s 7 2 .w (fun o => alen o 160) (fun _ => true) fun s o =>
    let b := fwTarget s
    if !(digestOk && sigOk && !s.key.calDefault) then refusedBy s 4
    else if !(ok && s.store.flashOk) then refusedBy s 6
    else ranOk (setSlot s b { slotOf s b with header := some o.args, sealedOk := true }) [(tgt 26 (bit b), 2 * leNat o.args + 1)])

/-- Whether a slot is sealed. -/
def slotSealed (k : FwSlot) : Bool := k.header.isSome && k.sealedOk

/-- FW.ACTIVATE: the journal names the slot for trial; a live one then hands over at the batch boundary. (DEDUCED: log entry 33.) -/
def execFwActivate (s : State) : Res :=
  .next (runOrder s 7 3 .w (fun o => alen o 2 && decide (arg o 0 1 ≤ 1 ∧ arg o 1 1 ≤ 1))
    (fun o => slotSealed (slotOf s (fwTarget s)) && !s.key.trial && !(s.rst.recovery && decide (arg o 0 1 = 1)))
    fun s o =>
      let b := fwTarget s
      let j : Journal := { committed := (journalOf s).committed, trial := some b, count := arg o 0 1, auto := decide (arg o 1 1 = 1) }
      ⟨storePush s (.journal j) (some o.mb), .busy St.ok [], [(tgt 27 0, leNat o.args + 65536 * bit b)]⟩)

/-- The settings that an image in slot `b` reads: those of its own area when they have its SVER, else the other area's converted;
`none` when the conversion fails (R414). -/
def settingsFor (s : State) (b convOk : Bool) : Option Settings :=
  let h := headerOf s b
  let own := newest (areaOf s b)
  match own with
  | some r => if r.sver.toNat = hdrSver h then some r.val else conv h
  | none => conv h
where
  conv (h : List Byte) : Option Settings :=
    match newest (areaOf s !b) with
    | none => some {}
    | some r => if hdrSmin h ≤ r.sver.toNat ∧ r.sver.toNat ≤ hdrSver h ∧ convOk = true then some r.val else none

/-- Rewrites the journal to name the old slot, after a conversion that failed (R414). -/
def fallbackJournal (s : State) (old : Bool) (order : Option Nat) : State :=
  storePush s (.journal { committed := old, trial := none, count := 0, auto := false }) order

/-- FW_HANDOVER_DONE: the new image runs, or the old one again with its own area. `convOk` says that every field of a converted
record lies in the range that the image allows. (DEDUCED: log entry 33.) -/
def execFwHandoverDone (convOk : Bool) (s : State) : Res :=
  match s.key.pending.find? fun o => decide (o.group = 7 ∧ o.verb = 3 ∧ !o.busy) with
  | none => .next s
  | some o =>
    if !s.key.handover then .next s
    else
      let b := !s.rst.slot
      let s1 := withKey s { s.key with handover := false }
      match settingsFor s b convOk with
      | some v =>
        let s2 := withRst s1 { s1.rst with slot := b }
        let s3 := withKey s2 { s2.key with
          trial := true, sets := v, sver := BitVec.ofNat 16 (hdrSver (headerOf s b)),
          autoAt := if (journalOf s).auto then some (s.now + 1000000000) else none }
        .next (startedDone s3 o.mb St.ok 0 [])
      | none =>
        let wait : Order → Order := fun p => if p.mb = o.mb then { p with busy := true, code := St.fwFallback } else p
        let s2 := withKey s1 { s1.key with pending := s1.key.pending.map wait }
        .next (ras (fallbackJournal s2 s2.rst.slot (some o.mb)) St.fwFallback 6 (unitId s2 0 0) 0)

/-- The journal of a commit of the running slot. -/
def commitJournal (s : State) : Journal := { committed := s.rst.slot, trial := none, count := 0, auto := false }

/-- FW.COMMIT: the journal, then the converted settings (R413). -/
def execFwCommit (s : State) : Res :=
  .next (runOrder s 7 4 .w (fun o => alen o 0) (fun _ => s.key.trial) fun s o =>
    ⟨storePush s (.journal (commitJournal s)) (some o.mb), .busy St.ok [], [(tgt 27 0, 2 ^ 20 + bit s.rst.slot)]⟩)

/-- FW_AUTO_COMMIT: an AUTO image commits itself at DONE or 1 s after its handover. -/
def execFwAutoCommit (s : State) : Res :=
  match s.key.autoAt with
  | none => .next s
  | some t =>
    if s.key.trial ∧ t ≤ s.now then
      .next (storePush (withKey s { s.key with autoAt := none }) (.journal (commitJournal s)) none)
    else .next s

/-- FW.STATUS: both headers, then the journal. -/
def execFwStatus (s : State) : Res :=
  .next (runOrder s 7 5 .r (fun o => alen o 0) (fun _ => true) fun s _ =>
    let j := journalOf s
    let tail := laidFree 7 5 [bit j.committed, (j.trial.map fun b => bit b + 1).getD 0, j.count, bit j.auto]
    ranRead s ((headerOf s false ++ headerOf s true ++ tail).take 2048))

/-! ## Units (Table 1.6) -/

/-- The number of units of a class; class 0xF is reserved. -/
def classSize (c : Nat) : Nat := [1, 8, 256, 1024, 256, 512, 16, 64, 24, 432, 264, 18, 144, 18, 144].getD c 0

/-- The class and index of a UNIT_ID argument, its DOMAIN and PACKAGE fields ignored (R408), as one number. -/
def unitArg (o : Order) : Nat := unitCode (arg o 0 4 / 2 ^ 28) (arg o 0 4 % 2048)

/-- Whether a UNIT_ID names a unit of the package. -/
def unitNamed (u : Nat) : Bool := decide (u % 2048 < classSize (u / 2048))

/-- The state of a unit: 0 in service, 1 retired, 2 returned (Table 9.9 for a channel). -/
def unitState (s : State) (u : Nat) : Nat :=
  let i := u % 2048
  match u / 2048 with
  | 1 => bit (getTower s i).retired
  | 2 => bit (getCore s i).retired
  | 5 => chState s i
  | 7 => bit (bt (getTower s (i / 8)).part (16 + i % 8))
  | 8 => bit (getLintel s i).retired
  | 9 => bit ((getLintel s (i / 18)).bad.contains (i % 18))
  | 10 => bit (getMortar s i).gone
  | 12 => bit (decide (laneOf (getPort s (i / 8)) (i % 8) = .retired))
  | 13 => bit (decide ((getMod s i).st = .retired))
  | _ => bit (decide (retiredRecorded s u ≠ 0))

/-- The corrected-error count of a unit that has one. -/
def unitErrors (s : State) (u : Nat) : Nat :=
  let i := u % 2048
  match u / 2048 with
  | 2 => (getCore s i).cr.spadErr.toNat
  | 3 => (tget 0 (getCore s (i / 4)).cr.ashErr (i % 4)).toNat
  | 4 => (getCore s i).cr.chsErr.toNat
  | 5 => bf (getHbm s i).stat 15 0
  | _ => 0

/-! ## RAS (R420) -/

/-- RAS.READ: 8 bytes per unit. -/
def execRasRead (s : State) : Res :=
  .next (runOrder s 8 1 .r
    (fun o => alen o 6 && decide (arg o 0 1 < 15 ∧ arg o 1 1 = 0 ∧ 1 ≤ arg o 4 2 ∧ arg o 4 2 ≤ 256 ∧ arg o 2 2 + arg o 4 2 ≤ classSize (arg o 0 1)))
    (fun _ => true)
    fun s o =>
      ranRead s ((List.range (arg o 4 2)).flatMap fun i =>
        let u := unitCode (arg o 0 1) (arg o 2 2 + i)
        laid 8 1 [unitState s u, unitErrors s u, retiredSince s u, retiredRecorded s u] 8))

/-- Retires a unit as if its interface had crossed its permanent threshold (R14, R420). -/
def retireUnit (s : State) (u : Nat) : State :=
  let i := u % 2048
  match u / 2048 with
  | 2 => retireIfDue (modCore s i fun k => { k with retireDue := !k.retired }) i
  | 5 => retireChannel s i none
  | 7 => halfFollow (retireQuarry s (i / 8) (i % 8) none) (halfOf (i / 8) (i % 8))
  | 9 => laneBad s (i / 18) (i % 18)
  | 12 =>
    let s1 := retireLane s (i / 8) (i % 8) none
    if portLive s1 (i / 8) then modPort s1 (i / 8) fun k => { k with holding := true } else s1
  | 13 => if (getMod s i).st = .retired then s else modRetire s i none
  | _ => s

/-- RAS.RETIRE. -/
def execRasRetire (s : State) : Res :=
  .next (runOrder s 8 2 .w (fun o => alen o 4 && [2, 5, 7, 9, 12, 13].contains (unitArg o / 2048) && unitNamed (unitArg o)) (fun _ => true)
    fun s o => endStored s (retireUnit s (unitArg o)) o [(tgt 18 (unitArg o), 2)])

/-- Whether RAS.CLEAR of a unit removes a record: the unit's own, and of a tower the ways of its RLC, which their reports name by the
tower (R304, Table 14.25). (DEDUCED: log entry 93.) -/
def clearedBy (u v : Nat) : Bool := decide (v = u) || decide (u / 2048 = 1 ∧ v / 2048 = 15 ∧ v % 2048 / 16 = u % 2048)

/-- RAS.CLEAR: the record of a unit and its count are removed, for the next reset. -/
def execRasClear (s : State) : Res :=
  .next (runOrder s 8 3 .w0 (fun o => alen o 4 && unitNamed (unitArg o)) (fun _ => true) fun s o =>
    let u := unitArg o
    if u / 2048 = 10 then refusedBy s 5
    else
      let s1 := withStore s { s.store with sincePwr := tset 0 s.store.sincePwr u 0 }
      let s2 := recUnits s1 (fun r => { r with
        retired := r.retired.filter fun v => !clearedBy u v,
        returned := if u / 2048 = 5 then r.returned.filter fun c => c ≠ u % 2048 else r.returned }) none
      endStored s s2 o [(tgt 18 u, 3)])

/-! ## TEST (R417 to R419) -/

/-- TEST.CFG. -/
def execTestCfg (s : State) : Res :=
  .next (runOrder s 9 1 .w (fun o => alen o 5 && decide (arg o 0 4 ≤ 3600000 ∧ arg o 4 1 ≤ 15)) (fun _ => true) fun s o =>
    let p := arg o 0 4
    let m := BitVec.ofNat 4 (arg o 4 1)
    endPersist (withKey s { s.key with test := { s.key.test with period := p, mask := m } }) o (fun r => { r with period := p, mask := m })
      [(tgt 28 0, p), (tgt 29 0, arg o 4 1)])

/-- Whether a Lintel lane is a good spare that is not in use. -/
def spareIdle (s : State) (i : Nat) : Bool :=
  let k := getLintel s (i / 18)
  decide (16 ≤ i % 18) && !k.retired && !k.bad.contains (i % 18) && k.mapped.all fun p => decide (p.2 ≠ i % 18)

/-- Whether a core can never return before reset (Table 14.25). -/
def coreFinal (k : CoreSt) : Bool := k.retiredAgain || k.mortarGone

/-- The check of a unit that TEST.RUN names: the reason of a refusal, or 0 (Tables 14.24, 14.25). (DESIGN CHOICE: log entry 37.) -/
def testRefusal (s : State) (u : Nat) : BitVec 8 :=
  let i := u % 2048
  match u / 2048 with
  | 2 => if coreFinal (getCore s i) then 5 else 0
  | 5 => if bt (getHbm s i).stat 25 ∨ (getTower s (i / 64)).retired then 5 else 0
  | 9 => if (getLintel s (i / 18)).bad.contains (i % 18) ∨ (getLintel s (i / 18)).retired then 5 else if spareIdle s i then 0 else 3
  | 12 => if laneOf (getPort s (i / 8)) (i % 8) = .retired then 5 else if laneOf (getPort s (i / 8)) (i % 8) = .idle then 0 else 3
  | 1 | 7 | 10 | 14 => 5
  | _ => 2

/-- Takes a unit into test: a core is claimed when it is free, at once when it is retired (R239, Table 14.24). (DESIGN CHOICE: log entry 37.) -/
def takeTest (s : State) (u : Nat) (offline : Bool) : State :=
  let out := decide (unitState s u = 1)
  let s1 := withKey s { s.key with test := { s.key.test with under := some u, wasOut := out, offline := offline } }
  let k := getCore s (u % 2048)
  if u / 2048 = 2 ∧ out ∧ k.gang = none ∧ k.phase ≠ .powerClaimed then modCore s1 (u % 2048) fun k => { k with phase := .testing } else s1

/-- TEST.RUN: the unit is tested next; a second order on the same unit completes with the first. (DEDUCED: log entry 35.) (DESIGN CHOICE: log entry 37.) -/
def execTestRun (s : State) : Res :=
  .next (runOrder s 9 2 .w (fun o => alen o 4 && unitNamed (unitArg o) && decide (testRefusal s (unitArg o) ≠ 2)) (fun _ => true) fun s o =>
    let u := unitArg o
    if testRefusal s u ≠ 0 then refusedBy s (testRefusal s u)
    else if o.offline ∧ !s.key.stopped then ⟨beginStop s, .later, []⟩
    else
      let t := s.key.test
      let s1 := withKey s { s.key with test := { t with orders := t.orders ++ [(u, o.mb)] } }
      let s2 := if t.under = some u ∨ t.queued.any (fun q => decide (q.1 = u)) then s1
        else if t.under = none then takeTest s1 u o.offline
        else withKey s1 { s1.key with test := { s1.key.test with queued := s1.key.test.queued ++ [(u, o.offline)] } }
      ⟨s2, .started false, (tgt 18 u, 1) :: (if o.offline then [(tgt 4 0, 1)] else [])⟩)

/-- TEST.STATUS. -/
def execTestStatus (s : State) : Res :=
  .next (runOrder s 9 3 .r (fun o => alen o 0) (fun _ => true) fun s _ =>
    let t := s.key.test
    ranRead s (laidFree 9 3 ([(t.under.map fun u => u + 1).getD 0, t.pos] ++ t.outcomes.flatMap fun r => [bit r.1, r.2.1.toNat, r.2.2.toNat])))

/-- The unit at a place of the rotation: 256 cores, 512 channels, 48 Lintel spare lanes, 144 Span lanes. -/
def rotationUnit (n : Nat) : Nat :=
  if n < 256 then unitCode 2 n
  else if n < 768 then unitCode 5 (n - 256)
  else if n < 816 then unitCode 9 ((n - 768) / 2 * 18 + 16 + n % 2)
  else unitCode 12 (n - 816)

/-- The length of the rotation. -/
def rotationLen : Nat := 960

/-- Whether the rotation takes the unit at a place (R417). -/
def rotationTakes (s : State) (n : Nat) : Bool :=
  let u := rotationUnit n
  let i := u % 2048
  let m := s.key.test.mask
  match u / 2048 with
  | 2 => bt m 0 && !coreFinal (getCore s i)
  | 5 => bt m 1 && decide (testRefusal s u = 0) && decide ((getDom s (80 + i / 32)).st = .on)
  | 9 => bt m 2 && spareIdle s i
  | _ => bt m 3 && decide (testRefusal s u = 0)

/-- SELF_TEST_ROTATION: every PERIOD ms the next unit of the rotation is taken, while none is under test. -/
def execSelfTestRotation (s : State) : Res :=
  let t := s.key.test
  if !keystoneRuns s ∨ !s.rst.done ∨ m0Only s ∨ t.period = 0 ∨ t.under ≠ none ∨ s.now < t.due then .next s
  else
    match ((List.range rotationLen).map fun i => (t.pos + i) % rotationLen).find? (rotationTakes s) with
    | none => .next s
    | some n =>
      let s1 := withKey s { s.key with test := { t with pos := (n + 1) % rotationLen, due := s.now + t.period * 1000000 } }
      .next (takeTest s1 (rotationUnit n) false)

/-- A core's claim ends: to the power controller when its group is to go off, else to the next epoch (R238, R418). -/
def releaseCore (s : State) (c : Nat) : State :=
  let d := getDom s (c / 4)
  if d.st = .waiting ∧ d.target = false then domAdvance (modCore s c fun k => { k with phase := .powerClaimed }) (c / 4)
  else modCore s c fun k => { k with phase := .returning }

/-- The end of the test of a core (R419). -/
def coreTested (s : State) (c : Nat) (pass : Bool) : State :=
  if s.key.test.wasOut then
    if pass && !coreFinal (getCore s c) then
      let s1 := modCore s c fun k => { k with retired := false }
      let s2 := recUnits s1 (fun r => { r with retired := r.retired.filter fun u => u ≠ unitCode 2 c }) none
      ras (releaseCore s2 c) St.ok 2 (unitId s2 2 c) 0
    else modCore s c fun k => { k with phase := .free }
  else if pass then releaseCore s c
  else modCore (retireCore s c false) c fun k => { k with phase := .free }

/-- The end of a unit's test by class (Table 14.24). -/
def unitTested (s : State) (u : Nat) (pass : Bool) : State :=
  let i := u % 2048
  match u / 2048 with
  | 2 => coreTested s i pass
  | 5 => if s.key.test.wasOut && pass then withKey s { s.key with test := { s.key.test with passed := s.key.test.passed ++ [i] } } else s
  | 9 =>
    if pass then s
    else
      let k := getLintel s (i / 18)
      let s1 := recLane (setLintel s (i / 18) { k with bad := i % 18 :: k.bad }) (unitCode 9 i) none
      report s1 [] St.laneRetired 1 (unitId s1 9 i) (i % 18)
  | 12 => if pass then s else retireLane s (i / 8) (i % 8) none
  | _ => s

/-- SELF_TEST_DONE: a unit that was retired by a fault of its own meanwhile has failed (R418). The orders on it complete, and a unit
that TEST.RUN queued follows. -/
def execSelfTestDone (pass : Bool) (s : State) : Res :=
  match s.key.test.under with
  | none => .next s
  | some u =>
    if u / 2048 = 2 ∧ (getCore s (u % 2048)).phase ≠ .testing then .next s
    else
      let ok := pass && (s.key.test.wasOut || decide (unitState s u ≠ 1))
      let s1 := unitTested s u ok
      let t := s1.key.test
      let out := (t.outcomes ++ [(ok, unitId s1 (u / 2048) (u % 2048), s1.plumb.count)])
      let s2 := withKey s1 { s1.key with test := { t with
        under := none, offline := false, outcomes := out.drop (out.length - 16), orders := t.orders.filter fun p => p.1 ≠ u } }
      let s3 := forEach s2 (t.orders.filter fun p => p.1 = u) fun s p =>
        startedDone s p.2 St.ok 0 (laid 9 2 [bit (!ok), unitState s2 u] 8)
      .next (match s3.key.test.queued with
        | [] => s3
        | (v, off) :: rest => takeTest (withKey s3 { s3.key with test := { s3.key.test with queued := rest } }) v off)

/-! ## MOD -/

/-- MOD.SET. -/
def execModSet (s : State) : Res :=
  .next (runOrder s 10 1 .w
    (fun o => alen o 3 && decide (arg o 0 1 ≤ 17 ∧ arg o 1 1 ≤ 1 ∧ 0x14 ≤ arg o 2 1 ∧ arg o 2 1 ≤ 0xC8))
    (fun o => decide ((getMod s (arg o 0 1)).st ≠ .retired))
    fun s o =>
      let k := arg o 0 1
      endPersist (modEnSet (modIlimSet s k (BitVec.ofNat 8 (arg o 2 1))) k (decide (arg o 1 1 = 1))) o
        (fun r => { r with mods := tset 0x178 r.mods k (BitVec.ofNat 16 (256 * arg o 1 1 + arg o 2 1)) })
        [(tgt 30 k, arg o 1 1), (tgt 31 k, arg o 2 1)])

/-- MOD.CLR (R380). -/
def execModClr (s : State) : Res :=
  .next (runOrder s 10 2 .w (fun o => alen o 1 && decide (arg o 0 1 ≤ 17)) (fun _ => true) fun s o =>
    let k := arg o 0 1
    endStored s (modClear s k none) o [(tgt 18 (unitCode 0xD k), 3), (tgt 30 k, 0)])

/-- MOD.STATUS. -/
def execModStatus (s : State) : Res :=
  .next (runOrder s 10 3 .r (fun o => alen o 0) (fun _ => true) fun s _ =>
    ranRead { s with free := s.free + 18 } (words ((List.range 18).flatMap fun k => [modCtl s k, modStat s k])))

end Sys2Proof.Machine
end

