-- ==== Sys2Proof/Machine/Plumb.lean ====
section
/-!
DEFINITION. Plumb time across packages (R340 to R342).
-/

namespace Sys2Proof.Machine

/-- The count is LOCKED once the offset has stayed within 0.5 ns for 1 ms, and no longer once it has stayed beyond 1 ns for
10 µs (Table 10.21); `th` is the offset in sixteenths of a nanosecond. -/
def lockStep (k : PlumbSt) (th : Rat) (now : Nat) : PlumbSt :=
  let a := if th < 0 then -th else th
  let good := if a ≤ 8 then some (k.goodSince.getD now) else none
  let bad := if 16 < a then some (k.badSince.getD now) else none
  let k1 := { k with goodSince := good, badSince := bad }
  if (match good with
    | some t => decide (t + 1000000 ≤ now)
    | none => false) then { k1 with locked := true, everLocked := true }
  else if (match bad with
    | some t => decide (t + 10000 ≤ now)
    | none => false) then { k1 with locked := false }
  else k1

/-- The latest offset as PLUMB_STAT OFFSET shows it. -/
def offsetField (th : Rat) : BitVec 16 := BitVec.ofInt 16 (max (-32767) (min 32767 (Config.offsetRound th)))

/-- What a following package does with an offset `th`, its neighbour's count being `nbr` (R340, R341): before its first lock it takes
the count, behind by more than 1 µs it steps forward, ahead by more it sticks, and else it steers. (DESIGN CHOICE: log entry 30.) -/
def plumbFollow (s : State) (th : Rat) (nbr : BitVec 64) : State :=
  let k := { s.plumb with offset := offsetField th }
  let ahead : Int := (nbr - k.count).toInt
  let steer := max (-200) (min 200 (Config.plumbSteer th))
  if !k.everLocked then
    withPlumb s (lockStep (if nbr = k.count then { k with rate := steer } else { k with count := nbr, rate := 0 }) th s.now)
  else if 1000 < ahead then withPlumb s { lockStep k th s.now with count := nbr, stepped := true, rate := 0 }
  else if ahead < -1000 then plumbCheck (withPlumb s { k with stuck := true })
  else withPlumb s { lockStep k th s.now with rate := steer }

/-- The source of a following package's count: the port it follows, unless the package is stuck. -/
def plumbSource (s : State) : Option Nat := if s.plumb.stuck then none else plumbPort s

/-- Ends the interval of a port: the mean that it formed goes to its neighbour in an LCTL packet, whose layout the spec does not
give, and a new one begins (R340). (DESIGN CHOICE: log entry 40.) -/
def meanOut (s : State) (p : Nat) : State :=
  let k := getPort s p
  let k1 := { k with stampSum := 0, stampCnt := 0 }
  if k.stampCnt = 0 ∨ k.holding ∨ !portLive s p ∨ 4096 ≤ k.retry.length then setPort s p k1
  else match freshBytes s 8 with
    | (d, s1) => setPort s1 p (transmit s.plumb.count { k1 with ret := some (k.stampSum, k.stampCnt) } [lctlPkt d])
where
  /-- An LCTL packet: it takes no VC, and is never forwarded. -/
  lctlPkt (d : List Byte) : SpanPkt :=
    { op := 0x11, vc := 0, path := 0, ep := false, lenM1 := 7, func := 0, asz := false, tag := 0, ctx := 0, srcPkg := 0, srcDom := 0,
      status := 0, addr := 0, data := d }

/-- What the package does with the means of one interval: θ is formed from its own mean and the neighbour's, and the count steps
or is steered (R340, R341). -/
def plumbTakes (s : State) (d2 : Int) (nbrCount : BitVec 64) (nbrLocked : Bool) : State :=
  if plumbRoot s then (if (List.range 18).any (portLive s) then rootTakes s nbrLocked nbrCount else s)
  else
    let s := plumbCheck s
    match plumbSource s with
    | none => s
    | some x =>
      let p := getPort s x
      if p.stampCnt = 0 then s
      else plumbFollow s (((p.stampSum : Rat) / p.stampCnt - d2 - p.asym.toInt) / 2) nbrCount

/-- PLUMB_INTERVAL: `d2` is the mean of the neighbour in sixteenths of a nanosecond, `nbrCount` its count now, `nbrLocked`
whether it is LOCKED. Every port then begins a new interval (R340). -/
def execPlumbInterval (d2 : Int) (nbrCount : BitVec 64) (nbrLocked : Bool) (s : State) : Res :=
  if !s.plumb.running then .next s
  else .next (forEach (plumbTakes s d2 nbrCount nbrLocked) (List.range 18) meanOut)

/-- PLUMB_ROOT_LOCK_TIMEOUT: 100 ms after its first port was HELD, or after release step 8 with none, a root is LOCKED (R342). -/
def execPlumbRootLockTimeout (s : State) : Res :=
  let k := s.plumb
  let due : Bool := match k.firstHeld, k.step8 with
    | some t, _ => decide (t + 100000000 ≤ s.now)
    | none, some t => decide (t + 100000000 ≤ s.now)
    | none, none => false
  if plumbRoot s && k.running && !k.locked && due then .next (withPlumb s { k with locked := true, everLocked := true })
  else .next s

end Sys2Proof.Machine
end

