-- ==== Sys2Proof/Machine/ResetSeq.lean ====
section
/-!
DEFINITION. Reset and start-up (R381 to R393, R396, R397): the sources, the assertion of reset, the steps of the release, the memory
steps and DONE.
-/

namespace Sys2Proof.Machine

/-! ## Assertion (R383 to R386) -/

/-- The package in reset: every field at its reset value, but for the persistent store, the reset-cause record, the pads that others
drive, the regulators' last set points, VMOD, and the model's own fields. An update of the store in progress leaves the copy that
it had erased invalid (R394). -/
def inReset (s : State) : State :=
  { State.reset with
    now := s.now, free := s.free, pending := s.pending, store := { s.store with pend := [] },
    rst := { cause0 := s.rst.cause0, cause1 := s.rst.cause1, active := s.rst.active, since := s.rst.since, railsUp := s.rst.railsUp },
    towers := (List.range 8).foldl (fun t n =>
      tset {} t n { vset := (getTower s n).vset, vtarget := (getTower s n).vset }) [],
    power := { vmodOk := s.power.vmodOk },
    pins := { dbgEn := s.pins.dbgEn, i3cStrap := s.pins.i3cStrap, butLow := s.pins.butLow, resetLow := s.pins.resetLow } }

/-- RST_CAUSE0 after a source is recognised: COUNT, LAST and SEEN (Table 13.2). -/
def causeNext (c : BitVec 32) (src : Nat) : BitVec 32 :=
  sb (sf (sf c 31 24 (satInc (BitVec.ofNat 8 (bf c 31 24))).toNat) 23 20 src) src true

/-- Whether a source has been recognised in this cycle already. -/
def sameCycle (s : State) : Bool := s.rst.since.any fun p => decide (p.2 = s.now)

/-- RST_CAUSE0 after one more source of the cycle: LAST names the lowest code, and the cycle counts once. (DEDUCED: log entry 59.) -/
def causeSame (c : BitVec 32) (src : Nat) : BitVec 32 := sb (sf c 23 20 (min src (bf c 23 20))) src true

/-- Recognises a source: reset is asserted, and the record names it, with STAGE as it stood (R381, R385). (DEDUCED: log entry 59.) -/
def recognise (s : State) (src : Nat) (cause1 : BitVec 32 → BitVec 32) : State :=
  let r := inReset s
  withRst r { r.rst with
    active := if s.rst.active.contains src then s.rst.active else s.rst.active ++ [src],
    since := (s.rst.since.filter fun p => p.1 ≠ src) ++ [(src, s.now)],
    cause0 := if sameCycle s then causeSame s.rst.cause0 src else causeNext s.rst.cause0 src,
    cause1 := cause1 (if sameCycle s then s.rst.cause1 else sf s.rst.cause1 23 20 s.rst.stage) }

/-- POWER_ON_RESET: VAON rises; the record takes its power-on values, and retirements are counted anew (R386, R419). (DESIGN CHOICE: log entry 62.) -/
def execPowerOnReset (s : State) : Res :=
  let r := inReset s
  let r1 := withStore r { r.store with sincePwr := [] }
  .next (withRst r1 { active := [0] })

/-- The regulators of VCORE lose their set points with the package's power. (DESIGN CHOICE: log entry 57.) -/
def vcoreLost (s : State) : State := { s with towers := [] }

/-- POWER_LOSS: VAON falls below 0.60 V, and everything but the persistent store is lost (R381). (DESIGN CHOICE: log entry 62.) -/
def execPowerLoss (s : State) : Res :=
  let r := inReset s
  let r1 := withStore (vcoreLost r) { r.store with sincePwr := [] }
  .next (withRst r1 { active := [0], railsUp := false })

/-- A source other than power-on, while VAON is up. -/
def source (s : State) (src : Nat) (cause1 : BitVec 32 → BitVec 32) : State := if s.rst.railsUp then recognise s src cause1 else s

/-- BROWN_OUT_RESET of a rail by its code in RST_CAUSE1. -/
def execBrownOutReset (rail : Fin 14) (s : State) : Res := .next (source s 1 fun c => sf c 31 27 rail.val)

/-- PIN_RESET: reset_n has been low for 1 µs; SHUT is cleared. -/
def execPinReset (s : State) : Res :=
  .next (if s.rst.railsUp then source (withPins s { s.pins with resetLow := true }) 2 fun c => sb c 19 false else s)

/-- WATCHDOG_RESET; a halt of Keystone stops the watchdog (R434). (DEDUCED: log entry 59.) -/
def execWatchdogReset (s : State) : Res := .next (if keystoneRuns s then source s 3 id else s)

/-- SOFTWARE_RESET: 10 µs after the reply to SYS.RESET (R382). -/
def execSoftwareReset (s : State) : Res :=
  match s.rst.softDue with
  | none => .next s
  | some t => .next (if t ≤ s.now then source s 4 fun c => sf c 26 25 s.rst.softMb else s)

/-- DEBUG_RESET: PKG_RESET while the port is enabled; ignored while reset is asserted (R434). -/
def execDebugReset (s : State) : Res := .next (if s.pins.dbgEn ∧ s.rst.active = [] then source s 5 id else s)

/-- REFCLK_FAILURE_RESET. -/
def execRefclkFailureReset (s : State) : Res := .next (source s 6 id)

/-- KEYSTONE_LOCKUP_RESET: a lockstep mismatch or a bus stall. -/
def execKeystoneLockupReset (stall : Bool) (s : State) : Res :=
  .next (if 1 ≤ s.rst.stage then source s 7 fun c => sb c 24 stall else s)

/-- How long a source is active at least: 10 µs for the watchdog, the two requests and the lock-up, and 1 ms of a good input after
a reference-clock failure (Table 13.1). -/
def sourceLength (src : Nat) : Nat :=
  match src with
  | 3 | 4 | 5 | 7 => 10000
  | 6 => 1000000
  | _ => 0

/-- Whether a source may have ended. -/
def sourceOver (s : State) (src : Nat) : Bool :=
  s.rst.since.all fun p => decide (p.1 ≠ src) || decide (p.2 + sourceLength src ≤ s.now)

/-- RESET_SOURCE_END: release begins once no source is active. -/
def execResetSourceEnd (src : Fin 8) (s : State) : Res :=
  if sourceOver s src.val = false then .next s else
  let s1 := if src.val = 2 then withPins s { s.pins with resetLow := false, padDrive := [] } else s
  .next (if s.rst.railsUp then withRst s1 { s1.rst with active := s1.rst.active.filter fun k => k ≠ src.val } else s1)

/-! ## Steps 1 to 3 (R387, R388, R395, R396) -/

/-- The slot that the boot ROM boots, whether on trial; `none` when it stays in recovery (R396). (DESIGN CHOICE: log entry 61.) -/
def bootSlot (s : State) (j : Journal) : Option (Bool × Bool) :=
  let ok : Bool → Bool := fun b => slotSealed (slotOf s b)
  match j.trial with
  | some t =>
    if j.count < 2 ∧ ok t then some (t, true) else if ok !t then some (!t, false) else none
  | none => if ok j.committed then some (j.committed, false) else if ok !j.committed then some (!j.committed, false) else none

/-- Step 1: the boot ROM reads the journal and chooses a slot; a trial counts before it starts. -/
def stepOne (s : State) (b : BootRead) : State :=
  let s1 := withStore s { s.store with flashOk := b.flash }
  let j := journalOf s1
  match (if b.flash && b.journal then bootSlot s1 j else none) with
  | some (slot, trial) =>
    let s2 := withKey (withRst s1 { s1.rst with stage := 1, slot := slot }) { s1.key with trial := trial }
    if trial then storePush s2 (.journal { j with count := j.count + 1 }) none else s2
  | none =>
    let s2 := withRst s1 { s1.rst with stage := 1, recovery := true }
    rasTo s2 [0] St.ok 6 0xFFFF (unitId s2 0 0) 0xFFFF 0

/-- Step 2: the Plumb count starts at 0, with no port to follow (R342). -/
def stepTwo (s : State) : State :=
  plumbCheck (withPlumb (withRst s { s.rst with stage := 2 }) { s.plumb with running := true, count := 0 })

/-- A record area that cannot be read is taken as empty, and reported once DONE is set (R395). -/
def readAreas (s : State) (b : BootRead) : State :=
  let p := s.store
  let p1 := if b.setA then p else { p with setA := {} }
  let p2 := if b.setB then p1 else { p1 with setB := {} }
  let p3 := if b.cal then p2 else { p2 with cal := {} }
  let p4 := if b.units then p3 else { p3 with units := {} }
  let bad := [(b.setA, 0x2020000), (b.setB, 0x2060000), (b.cal, 0x20A0000), (b.units, 0x20C0000)].filter fun x => !x.1
  let late := bad.map fun x => (St.ok, 6, unitId s 0 0, x.2)
  withRst (withStore s p4) { s.rst with late := s.rst.late ++ late ++ (if b.factory then [] else [(St.ok, 6, unitId s 0 0, 0)]) }

/-- The settings of the running image. A trial image that cannot convert them gives way to the old one (R414). (DEDUCED: log entry 60.) -/
def readSettings (s : State) (b : BootRead) : State :=
  let slot := s.rst.slot
  let put : State → Settings → State := fun s v =>
    withKey s { s.key with sets := v, sver := BitVec.ofNat 16 (hdrSver (headerOf s s.rst.slot)), m3w := v.m3w,
                           test := { s.key.test with period := v.period, mask := v.mask } }
  match settingsFor s slot b.conv with
  | some v => put s v
  | none =>
    if s.key.trial then
      let s1 := withKey (withRst s { s.rst with slot := !slot, late := s.rst.late ++ [(St.fwFallback, 6, unitId s 0 0, 0)] })
        { s.key with trial := false }
      put (fallbackJournal s1 (!slot) none) ((settingsFor s1 (!slot) true).getD {})
    else put s {}

/-- PROTO_ACT from its setting, clamped to the two versions of the image (R339). -/
def protoStart (impl : BitVec 8) (v : Option (BitVec 8)) : BitVec 8 :=
  match v with
  | none => impl - 1
  | some p => if impl.toNat ≤ p.toNat then impl else impl - 1

/-- The registers that R388 names. -/
def writeSettings (s : State) : State :=
  let v := s.key.sets
  let impl := BitVec.ofNat 8 (hdrProto (headerOf s s.rst.slot))
  let s1 := withSpan s { s.span with id := v.spanId &&& 0x81FF00FF, protoImpl := impl, protoAct := protoStart impl v.proto }
  let s2 := plumbCheck (withPlumb s1 { s1.plumb with cfg := v.plumb, cfgShadow := v.plumb })
  let s3 := { withHost s2 { s2.host with drv := v.drv } with memcfg := sf s2.memcfg 31 30 (bit v.tower) }
  let s4 := withPower s3 { s3.power with cap := v.cap, capNext := v.cap, freq := v.freq, freqNext := v.freq }
  let s5 := forEach s4 (List.range 8) fun s t => modTower s t fun w => { w with part := sf w.part 15 0 (tget 0x5000 v.kinds t).toNat }
  forEach s5 (List.range 18) fun s p => modPort s p fun k => { k with asym := tget 0 s.key.cal.asym p }

/-- Keeps one recorded unit out of service (R389). A channel waits for the memory steps, and a lane for its own record count. (DEDUCED: log entry 60.) -/
def applyRetired (s : State) (u : Nat) : State :=
  let i := u % 2048
  match u / 2048 with
  | 1 =>
    let s1 := modTower s i fun w => { w with retired := true, part := sf w.part 23 16 0xFF, waysOff := List.range 16 }
    forEach s1 ((List.range 64).map fun j => 64 * i + j) fun s c =>
      setHbm s c { getHbm s c with stat := sf (getHbm s c).stat 31 30 1, noStore := true }
  | 2 => modCore s i fun k => { k with retired := true }
  | 5 => if s.key.recs.returned.contains i ∧ retiredRecorded s u < 2 then s
    else setHbm s i { getHbm s i with stat := sb (sf (getHbm s i).stat 31 30 1) 25 (decide (2 ≤ retiredRecorded s u)) }
  | 7 => modTower s (i / 8) fun w => { w with part := sb w.part (16 + i % 8) true }
  | 8 => setLintel s i { getLintel s i with retired := true }
  | 9 => setLintel s (i / 18) { getLintel s (i / 18) with bad := i % 18 :: (getLintel s (i / 18)).bad }
  | 10 => forEach (setMortar s i { getMortar s i with gone := true }) (fieldCores i) fun s c => modCore s c fun k => { k with mortarGone := true }
  | 12 => if 2 ≤ retiredRecorded s u then modPort s (i / 8) fun k => setLane k (i % 8) .retired else s
  | 14 => if s.key.masonGone.contains (i / 72) then s else withKey s { s.key with masonGone := i / 72 :: s.key.masonGone }
  | 13 => setMod s i { getMod s i with st := .retired }
  | 15 => modTower s (i / 16) fun w => { w with waysOff := i % 16 :: w.waysOff }
  | _ => s

/-- What Shuchaz does before it requests step 4 (R388): records read, registers written, units kept out, set points moved. (DEDUCED: log entry 60.) -/
def prepare (s : State) (b : BootRead) : State :=
  let s1 := readAreas s b
  let s2 := withKey s1 { s1.key with
    cal := (newest s1.store.cal).getD {}, recs := (newest s1.store.units).getD {}, calDefault := !b.factory }
  let s3 := writeSettings (readSettings s2 b)
  let s4 := forEach s3 s3.key.recs.retired.dedup applyRetired
  let s5 := forEach s4 (List.range 16) fun s h =>
    if halfOff s h then setDom s (64 + h) { getDom s (64 + h) with st := .off, target := false } else s
  forEach s5 (List.range 8) moveVcore

/-- Step 3: the PCIe port; with SHUT latched or in recovery start-up goes no further, and M0 is told (R386, R403). -/
def stepThree (s : State) (b : BootRead) : State :=
  let s1 := withRst s { s.rst with stage := 3 }
  if shutDown s1 then rasTo s1 [0] St.ok 6 0xFFFF (unitId s1 0 0) 0xFFFF 0
  else if s1.rst.recovery then s1 else prepare s1 b

/-! ## Steps 4 to 9 -/

/-- Whether step 4 may be requested: Shuchaz runs, the trial count is written, and the regulators have settled. -/
def mayFour (s : State) : Bool :=
  !m0Only s && s.store.pend.all (fun u => match u.op with
    | .journal _ => false
    | .settings _ _ | .cal _ | .units _ => true)
  && (List.range 8).all fun t => decide ((getTower s t).vset = (getTower s t).vtarget)

/-- Step 4: Mortar steering is applied again, and the host port answers configuration requests. -/
def stepFour (s : State) : State :=
  let s1 := forEach s s.key.recs.steered fun s r => setMortar s r.1 { getMortar s r.1 with
    steered := (getMortar s r.1).steered ++ [(r.2.1, r.2.2)] }
  withRst (withHost s1 { s1.host with cfgReady := true }) { s1.rst with stage := 4 }

/-- A link whose lanes train: each data lane that stays out takes the lowest free spare, else the link runs on 8 lanes. -/
def trainLink (k : Lintel) : Lintel :=
  ((List.range 16).filter fun n => k.bad.contains n).foldl (fun k n => match lintelSpare k with
    | some p => { k with mapped := k.mapped ++ [(n, p)] }
    | none => { k with half := true }) { k with mapped := [], half := false }

/-- A report that waits for DONE (R390). -/
def reportLate (s : State) (code : Code) (kind : Nat) (unit : BitVec 32) (detail : Nat) : State :=
  withRst s { s.rst with late := s.rst.late ++ [(code, kind, unit, detail)] }

/-- A Lintel lane that fails training in step 5: it is remapped or retired under R28 and R29. -/
def laneFails (s : State) (l lane : Nat) : State :=
  let k := getLintel s l
  if k.retired ∨ k.bad.contains lane then s
  else
    let s1 := recLane (setLintel s l { k with bad := lane :: k.bad }) (unitCode 9 (18 * l + lane)) none
    let s2 := reportLate s1 St.laneRetired 1 (unitId s1 9 (18 * l + lane)) lane
    if lane < 16 then reportLate s2 St.linkDegraded 3 (unitId s2 8 l) 0 else s2

/-- A link after its training: it runs on the lanes that it has, or it is retired (R28, R29). -/
def linkTrained (s : State) (l : Nat) : State :=
  let k := trainLink (getLintel s l)
  if k.retired ∨ !k.half ∨ 8 ≤ lintelGood k then setLintel s l k
  else
    let s1 := recRetire (setLintel s l { k with retired := true }) (unitCode 8 l) none
    reportLate s1 St.linkDegraded 1 (unitId s1 8 l) 0

/-- A die that is without a route at start-up: as R31 isolates it, with reports that wait for DONE. (DEDUCED: log entry 52.) -/
def isolatedAtStart (s : State) (d : Nat) : State :=
  if dieRouted s d then s
  else if d < 8 then
    if (getTower s d).retired then s
    else
      let us := unitCode 1 d :: (towerCores d).map (unitCode 2)
      let s1 := recUnits (forEach s us applyRetired) (fun r => { r with retired := r.retired ++ us }) none
      reportLate s1 St.ok 1 (unitId s1 1 d) 0
  else if d = hubDie then hubGone s
  else if s.key.masonGone.contains (d - 9) then s
  else
    let us := (masonCores (d - 9)).map (unitCode 0xE)
    let s1 := recUnits (forEach s us applyRetired) (fun r => { r with retired := r.retired ++ us }) none
    forEach s1 (masonCores (d - 9)) fun s c => reportLate s St.ok 1 (unitId s 0xE c) 0

/-- Step 5: the Lintel lanes train, remaps are applied again, and dies without a route are isolated (R31, R390). -/
def stepFive (s : State) (b : BootRead) : State :=
  let s1 := forEach s b.lanes fun s p => laneFails s p.1.val p.2.val
  let s2 := forEach s1 (s1.lintel.map Prod.fst) linkTrained
  let s3 := forEach s2 (List.range 11) isolatedAtStart
  withRst s3 { s3.rst with stage := 5 }

/-- Step 7: every core in service joins the free pool at the next epoch, SCRATCH units are cleared, and a low buttress_n is
recognised (R389, R391, R393). -/
def stepSeven (s : State) : State :=
  let s1 := forEach s (List.range 256) fun s c => if (getCore s c).retired then s else modCore s c fun k => { k with phase := .returning }
  let s2 := forEach s1 (List.range 64) fun s i => if qKind s (i / 8) (i % 8) = 2 then freshWindow s (quarryWindow (i / 8) (i % 8)) 0x2000000 else s
  let s3 := withRst s2 { s2.rst with stage := 7 }
  if s3.pins.butLow then forceButtress (withPower s3 { s3.power with alert := true }) else s3

/-- Step 8: module channels take EN and ILIM, and ports their configuration, from the settings. -/
def stepEight (s : State) : State :=
  let v := s.key.sets
  let s1 := forEach s (List.range 18) fun s k =>
    let m := tget 0x178 v.mods k
    modEnSet (modIlimSet s k (BitVec.ofNat 8 (bf m 7 0))) k (bt m 8)
  let s2 := forEach s1 (List.range 18) fun s p =>
    let c := tget 0x80 v.ports p
    let w := fields [(bf c 7 7, 31), (bf c 1 0, 29)]
    portStart (modPort s p fun k => { k with cfg := w, cfgShadow := w }) p
  withPlumb (withRst s2 { s2.rst with stage := 8 }) { s2.plumb with step8 := some s2.now }

/-- RESET_RELEASE_STEP: the next step, once no source is active and its condition holds (Table 13.5); a package that a thermal
shutdown turned off stays off (R375). -/
def execResetReleaseStep (b : BootRead) (s : State) : Res :=
  let at_ : Nat → State := fun n => withRst s { s.rst with stage := n }
  if s.rst.active ≠ [] ∨ !s.rst.railsUp ∨ s.rst.off then .next s
  else
    match s.rst.stage with
    | 0 => .next (stepOne s b)
    | 1 => .next (stepTwo s)
    | 2 => .next (stepThree s b)
    | 3 => .next (if mayFour s then stepFour s else s)
    | 4 => .next (stepFive s b)
    | 5 => .next (at_ 6)
    | 6 => .next (stepSeven s)
    | 7 => .next (stepEight s)
    | 8 => .next (if s.rst.memDone then at_ 9 else s)
    | _ => .next s

/-! ## The memory steps and DONE (R282, R289 to R292) -/

/-- Rejoins the channels that had returned, whose retirement records leave the store (R289). -/
def rejoin (s : State) : State :=
  let back := s.key.recs.returned.filter fun c => decide (retiredRecorded s (unitCode 5 c) < 2)
  if back = [] then s
  else recUnits s (fun r => { r with
    retired := r.retired.filter fun u => !(back.map (unitCode 5)).contains u, returned := r.returned.filter fun c => !back.contains c }) none

/-- Loads the remap tables with the entries that were not repaired (R282). -/
def loadRemaps (s : State) (repaired : List (HCh × Nat)) : State :=
  let gone : Nat × Remap → Bool := fun p => repaired.any fun q => decide (q.1.val = p.1 ∧ q.2 = p.2.spare)
  let s1 := if s.key.recs.remaps.any gone then recUnits s (fun r => { r with remaps := r.remaps.filter fun p => !gone p }) none else s
  forEach s1 s1.key.recs.remaps fun s p =>
    let h := getHbm s p.1
    setHbm s p.1 { h with remaps := h.remaps ++ [p.2], stat := sf h.stat 23 16 (h.remaps.length + 1) }

/-- A channel that fails training three times is retired and recorded; its report waits for DONE (R390). -/
def failTraining (s : State) (c : Nat) : State :=
  if chState s c = 1 then s
  else
    let s1 := recRetire (setHbm s c { getHbm s c with stat := sf (getHbm s c).stat 31 30 1 }) (unitCode 5 c) none
    withRst s1 { s1.rst with late := s1.rst.late ++ [(St.channelRetired, 1, unitId s1 5 c, (getHbm s1 c).stat.toNat)] }

/-- Spills the retired channels in increasing number; those of a retired tower have no storage (R285, R289). -/
def spillRetired (s : State) : State :=
  forEach s ((List.range 512).filter fun c => decide (chState s c = 1)) fun s c =>
    if (getHbm s c).noStore then s else spillChannel s c false

/-- Every present line holds 0 and none is lost (R276). -/
def cleared (s : State) : State := { s with mem := [], lost := [], restored := [] }

/-- MEMORY_STEPS_DONE: the channels that failed training, and the remap entries repaired, by channel and spare row. Every present line
holds 0 afterwards (R276, R391). -/
def execMemoryStepsDone (failed : List HCh) (repaired : List (HCh × Nat)) (s : State) : Res :=
  if s.rst.stage < 6 ∨ s.rst.memDone ∨ s.rst.active ≠ [] then .next s
  else
    let s1 := forEach (rejoin s) failed fun s c => failTraining s c.val
    let s2 := spillRetired (loadRemaps s1 repaired)
    let s3 := memcfgCount (cleared s2)
    .next (withRst s3 { s3.rst with memDone := true })

/-- STARTUP_DONE: DONE is set, retirements met during start-up are reported, and readiness goes to every mailbox (R390, R392). -/
def execStartupDone (s : State) : Res :=
  if s.rst.stage ≠ 9 ∨ !s.rst.memDone ∨ s.rst.done then .next s
  else
    let s1 := withRst s { s.rst with done := true, late := [] }
    let s2 := forEach s1 s.rst.late fun s r => ras s r.1 r.2.1 r.2.2.1 r.2.2.2
    let s3 := ras s2 St.ok 6 (unitId s2 0 0) 0
    .next (withKey s3 { s3.key with
      autoAt := if s3.key.trial && (journalOf s3).auto then some s3.now else none,
      test := { s3.key.test with due := s3.now + s3.key.test.period * 1000000 } })

end Sys2Proof.Machine
end

