-- ==== Sys2Proof/Machine/Rlc.lean ====
section
/-!
DEFINITION. Events of the Remote Line Cache (R299 to R304) and the release flush (R303, R358).
-/

namespace Sys2Proof.Machine

/-- The line that a command brings for a line of another package, and the state in which its READ has been sent; without a
route no line comes. (DESIGN CHOICE: log entry 5.) -/
def broughtLine (s : State) (key : BitVec 64) (ctx : Nat) (ext : Option (BitVec 512)) : Option (BitVec 512) × State :=
  match ext with
  | none => (none, s)
  | some d =>
    if keyHere s key || !spanReach s key.toNat then (none, s) else (some d, remoteAsk s 0x01 key.toNat ctx 64 0 false [])

/-- RLC_READ: a read of the line at `addr` reaches the RLC of a tower; `ext` and `ext2` bring it and the next line where their
home is another package. -/
def execRlcRead (t : Tower) (rq : RlcUser) (addr : BitVec 64) (ctx : CtxId) (nc : Bool) (ext ext2 : Option (BitVec 512)) (s : State) :
    Res :=
  let key := addr &&& ~~~ 63
  match (if copyHere s t.val rq key ctx.val nc then (none, s) else broughtLine s key ctx.val ext) with
  | (e, s1) => .next (rlcRead s1 t.val rq key ctx.val nc e (if spanReach s key.toNat then ext2 else none)).2.2

/-- RLC_WRITE: a write of bytes of one line reaches the RLC. -/
def execRlcWrite (t : Tower) (rq : RlcUser) (addr : BitVec 64) (ctx : CtxId) (nc : Bool) (off : Nat) (data : List Byte)
    (ext : Option (BitVec 512)) (s : State) : Res :=
  let key := addr &&& ~~~ 63
  match (if copyHere s t.val rq key ctx.val nc then (none, s) else broughtLine s key ctx.val ext) with
  | (e, s1) => .next (rlcWrite s1 t.val rq key ctx.val nc (off % 64) (data.take (64 - off % 64)) e).2

/-- RELEASE_FLUSH: a pass for the context runs, or one further pass is asked of the one that runs (R358). -/
def execReleaseFlush (x : CtxId) (s : State) : Res :=
  if s.flush.any fun f => decide (f.1 = x.val) then
    .next { s with flush := s.flush.map fun f => if f.1 = x.val then (f.1, true) else f }
  else .next { flushPass s x.val with flush := s.flush ++ [(x.val, false)] }

/-- RELEASE_FLUSH_DONE: the pass ends, and the further pass that was asked for begins (R358). -/
def execReleaseFlushDone (x : CtxId) (s : State) : Res :=
  match s.flush.find? fun f => f.1 = x.val with
  | none => .next s
  | some (_, false) => .next { s with flush := s.flush.filter fun f => f.1 ≠ x.val }
  | some (_, true) =>
    .next { flushPass s x.val with flush := s.flush.map fun f => if f.1 = x.val then (f.1, false) else f }

/-- RLC_ECC_ERROR (R304): a double-bit error drops a clean line, or loses a dirty one and marks the queues concerned; the
sixteenth corrected error of a way within 1 s retires the way. -/
def execRlcEccError (t : Tower) (way : Fin 16) (double : Bool) (line : Option (BitVec 64)) (s : State) : Res :=
  let w := getTower s t.val
  if w.waysOff.contains way.val then .next s
  else if double then
    match line.bind fun k => rlcFind s t.val k with
    | none => .next s
    | some l =>
      let s1 := setTower s t.val { w with rlc := w.rlc.filter fun y => y.line ≠ l.line }
      if !l.dirty then .next s1
      else .next (guiltyAll s1 (if keyHere s l.line && decide (bf (ownEntry s (l.line.toNat % 2 ^ 41)) 15 14 = 2)
        then (l.ctx :: enabledCtxs s).dedup else [l.ctx]))
  else
    match histAdd w.wayErrs way.val s.now 1000000000 with
    | (h, n) =>
      let s1 := setTower s t.val { w with wayErrs := h }
      .next (if 16 ≤ n then retireWay s1 t.val way.val none else s1)

end Sys2Proof.Machine
end

