-- ==== Sys2Proof/Machine/Scalar.lean ====
section
/-!
DEFINITION. The scalar instructions (R135, R136, Table 5.3).
-/

namespace Sys2Proof.Machine

/-- An instruction that writes `f` of the core to scalar register SD and goes on. -/
def scalarOp (c : Core) (w : Bits) (s : State) (legal : Bool) (regs : List Nat) (f : CoreSt → BitVec 64) : Res :=
  .next (issueCore s c.val legal (fSD w :: regs) fun k => advance (setS k (fSD w) (f k)) 1)

/-- Format R: sd from sa and sb. -/
def opR (c : Core) (w : Bits) (s : State) (f : BitVec 64 → BitVec 64 → BitVec 64) : Res :=
  scalarOp c w s (legalR w) [fSA w, fSB w] fun k => f (sreg k (fSA w)) (sreg k (fSB w))

/-- Format I: sd from sa and IMM. -/
def opI (c : Core) (w : Bits) (s : State) (legal : Bool) (f : BitVec 64 → BitVec 64 → BitVec 64) : Res :=
  scalarOp c w s legal [fSA w] fun k => f (sreg k (fSA w)) (fImm w)

/-! ## The functions of the arithmetic -/

def aluSll (a b : BitVec 64) : BitVec 64 := a <<< (b.toNat % 64)
def aluSrl (a b : BitVec 64) : BitVec 64 := a >>> (b.toNat % 64)
def aluSra (a b : BitVec 64) : BitVec 64 := a.sshiftRight (b.toNat % 64)
def aluMulhu (a b : BitVec 64) : BitVec 64 := BitVec.ofNat 64 (a.toNat * b.toNat / 2 ^ 64)
def aluSlt (a b : BitVec 64) : BitVec 64 := if a.toInt < b.toInt then 1 else 0
def aluSltu (a b : BitVec 64) : BitVec 64 := if a.toNat < b.toNat then 1 else 0
def aluMin (a b : BitVec 64) : BitVec 64 := if a.toInt ≤ b.toInt then a else b
def aluMax (a b : BitVec 64) : BitVec 64 := if a.toInt ≤ b.toInt then b else a
def aluLih (a imm : BitVec 64) : BitVec 64 := BitVec.ofNat 64 (imm.toNat % 2 ^ 32 * 2 ^ 32 + a.toNat % 2 ^ 32)

/-! ## The instructions -/

/-- NOP: every bit below the opcode must be 0. -/
def execNop (c : Core) (w : Bits) (s : State) : Res :=
  .next (issueCore s c.val (legalN w) [] fun k => advance k 1)
def execAdd (c : Core) (w : Bits) (s : State) : Res := opR c w s fun a b => a + b
def execSub (c : Core) (w : Bits) (s : State) : Res := opR c w s fun a b => a - b
def execAnd (c : Core) (w : Bits) (s : State) : Res := opR c w s fun a b => a &&& b
def execOr (c : Core) (w : Bits) (s : State) : Res := opR c w s fun a b => a ||| b
def execXor (c : Core) (w : Bits) (s : State) : Res := opR c w s fun a b => a ^^^ b
def execSll (c : Core) (w : Bits) (s : State) : Res := opR c w s fun a b => aluSll a b
def execSrl (c : Core) (w : Bits) (s : State) : Res := opR c w s fun a b => aluSrl a b
def execSra (c : Core) (w : Bits) (s : State) : Res := opR c w s fun a b => aluSra a b
def execMul (c : Core) (w : Bits) (s : State) : Res := opR c w s fun a b => a * b
def execMulhu (c : Core) (w : Bits) (s : State) : Res := opR c w s fun a b => aluMulhu a b
def execSlt (c : Core) (w : Bits) (s : State) : Res := opR c w s fun a b => aluSlt a b
def execSltu (c : Core) (w : Bits) (s : State) : Res := opR c w s fun a b => aluSltu a b
def execMin (c : Core) (w : Bits) (s : State) : Res := opR c w s fun a b => aluMin a b
def execMax (c : Core) (w : Bits) (s : State) : Res := opR c w s fun a b => aluMax a b
def execAddi (c : Core) (w : Bits) (s : State) : Res := opI c w s (legalI w) fun a b => a + b
def execAndi (c : Core) (w : Bits) (s : State) : Res := opI c w s (legalI w) fun a b => a &&& b
def execOri (c : Core) (w : Bits) (s : State) : Res := opI c w s (legalI w) fun a b => a ||| b
def execXori (c : Core) (w : Bits) (s : State) : Res := opI c w s (legalI w) fun a b => a ^^^ b
def execSlli (c : Core) (w : Bits) (s : State) : Res := opI c w s (legalShift w) fun a b => aluSll a b
def execSrli (c : Core) (w : Bits) (s : State) : Res := opI c w s (legalShift w) fun a b => aluSrl a b
def execSrai (c : Core) (w : Bits) (s : State) : Res := opI c w s (legalShift w) fun a b => aluSra a b
def execSlti (c : Core) (w : Bits) (s : State) : Res := opI c w s (legalI w) fun a b => aluSlt a b
def execSltiu (c : Core) (w : Bits) (s : State) : Res := opI c w s (legalI w) fun a b => aluSltu a b
def execLih (c : Core) (w : Bits) (s : State) : Res := opI c w s (legalI w) fun a b => aluLih a b
/-- LI: SA must be 0. -/
def execLi (c : Core) (w : Bits) (s : State) : Res :=
  opI c w s (legalI w && decide (fSA w = 0)) fun _ b => b

/-- MVLC: the index of the loop counter, of the running loop or of the last one that ran. -/
def execMvlc (c : Core) (w : Bits) (s : State) : Res :=
  scalarOp c w s (legalV w) [] fun k => (lreg k (vLC w)).index.setWidth 64

/-- MVSA. -/
def execMvsa (c : Core) (w : Bits) (s : State) : Res :=
  scalarOp c w s (legalS w) [] fun k => areg k (sAA w)

/-- ADDA. -/
def execAdda (c : Core) (w : Bits) (s : State) : Res :=
  .next (issueCore s c.val (legalAD w) [adSB w] fun k =>
    advance (setA k (adAD w) (areg k (adAA w) + sreg k (adSB w) + fImm w)) 1)

end Sys2Proof.Machine
end

