-- ==== Sys2Proof/Machine/Dispatch.lean ====
section
/-!
DEFINITION. The dispatch of a command to its meaning: one arm per row of the table of operations and events.
-/

namespace Sys2Proof.Machine

/-- The effect of a command on everything but the queue of waiting commands. -/
def exec (i : Instr) (s : State) : Host.Outcome State Fault Refusal :=
  match i with
  | .nop c w => Sys2Proof.Machine.execNop c w s
  | .add c w => Sys2Proof.Machine.execAdd c w s
  | .sub c w => Sys2Proof.Machine.execSub c w s
  | .and_ c w => Sys2Proof.Machine.execAnd c w s
  | .or_ c w => Sys2Proof.Machine.execOr c w s
  | .xor c w => Sys2Proof.Machine.execXor c w s
  | .sll c w => Sys2Proof.Machine.execSll c w s
  | .srl c w => Sys2Proof.Machine.execSrl c w s
  | .sra c w => Sys2Proof.Machine.execSra c w s
  | .mul c w => Sys2Proof.Machine.execMul c w s
  | .mulhu c w => Sys2Proof.Machine.execMulhu c w s
  | .slt c w => Sys2Proof.Machine.execSlt c w s
  | .sltu c w => Sys2Proof.Machine.execSltu c w s
  | .min c w => Sys2Proof.Machine.execMin c w s
  | .max c w => Sys2Proof.Machine.execMax c w s
  | .addi c w => Sys2Proof.Machine.execAddi c w s
  | .andi c w => Sys2Proof.Machine.execAndi c w s
  | .ori c w => Sys2Proof.Machine.execOri c w s
  | .xori c w => Sys2Proof.Machine.execXori c w s
  | .slli c w => Sys2Proof.Machine.execSlli c w s
  | .srli c w => Sys2Proof.Machine.execSrli c w s
  | .srai c w => Sys2Proof.Machine.execSrai c w s
  | .slti c w => Sys2Proof.Machine.execSlti c w s
  | .sltiu c w => Sys2Proof.Machine.execSltiu c w s
  | .li c w => Sys2Proof.Machine.execLi c w s
  | .lih c w => Sys2Proof.Machine.execLih c w s
  | .beq c w => Sys2Proof.Machine.execBeq c w s
  | .bne c w => Sys2Proof.Machine.execBne c w s
  | .blt c w => Sys2Proof.Machine.execBlt c w s
  | .bge c w => Sys2Proof.Machine.execBge c w s
  | .bltu c w => Sys2Proof.Machine.execBltu c w s
  | .bgeu c w => Sys2Proof.Machine.execBgeu c w s
  | .jal c w => Sys2Proof.Machine.execJal c w s
  | .jr c w => Sys2Proof.Machine.execJr c w s
  | .loop c w => Sys2Proof.Machine.execLoop c w s
  | .mvlc c w => Sys2Proof.Machine.execMvlc c w s
  | .mvsa c w => Sys2Proof.Machine.execMvsa c w s
  | .adda c w => Sys2Proof.Machine.execAdda c w s
  | .lds c w => Sys2Proof.Machine.execLds c w s
  | .sts c w => Sys2Proof.Machine.execSts c w s
  | .ld c w => Sys2Proof.Machine.execLd c w s
  | .st c w => Sys2Proof.Machine.execSt c w s
  | .amo c w => Sys2Proof.Machine.execAmo c w s
  | .seqAccessComplete c a r => Sys2Proof.Machine.execSeqAccessComplete c a r s
  | .fence c w => Sys2Proof.Machine.execFence c w s
  | .fenceComplete c => Sys2Proof.Machine.execFenceComplete c s
  | .rdcr c w => Sys2Proof.Machine.execRdcr c w s
  | .wrcr c w => Sys2Proof.Machine.execWrcr c w s
  | .amm c w w1 => Sys2Proof.Machine.execAmm c w w1 s
  | .ammAccept c e => Sys2Proof.Machine.execAmmAccept c e s
  | .ammFirstArrayCycle c e => Sys2Proof.Machine.execAmmFirstArrayCycle c e s
  | .ammTileDrain c e => Sys2Proof.Machine.execAmmTileDrain c e s
  | .ammComplete c e => Sys2Proof.Machine.execAmmComplete c e s
  | .ashlarSingleBitError c e loc => Sys2Proof.Machine.execAshlarSingleBitError c e loc s
  | .ashlarDoubleBitError c e => Sys2Proof.Machine.execAshlarDoubleBitError c e s
  | .chn c w => Sys2Proof.Machine.execChn c w s
  | .chiselAccept c => Sys2Proof.Machine.execChiselAccept c s
  | .chnFirstBeat c => Sys2Proof.Machine.execChnFirstBeat c s
  | .chnComplete c => Sys2Proof.Machine.execChnComplete c s
  | .cfold c w => Sys2Proof.Machine.execCfold c w s
  | .cfoldFirstRow c => Sys2Proof.Machine.execCfoldFirstRow c s
  | .cfoldComplete c => Sys2Proof.Machine.execCfoldComplete c s
  | .ctbl c w => Sys2Proof.Machine.execCtbl c w s
  | .ctblComplete c => Sys2Proof.Machine.execCtblComplete c s
  | .chiselEccError c double loc => Sys2Proof.Machine.execChiselEccError c double loc s
  | .chsDirectGo c v => Sys2Proof.Machine.execChsDirectGo c v s
  | .dma c w => Sys2Proof.Machine.execDma c w s
  | .dmaDescriptorStart c ch => Sys2Proof.Machine.execDmaDescriptorStart c ch s
  | .dmaTimedRelease c ch => Sys2Proof.Machine.execDmaTimedRelease c ch s
  | .dmaLineComplete c ch r => Sys2Proof.Machine.execDmaLineComplete c ch r s
  | .dmaDescriptorComplete c ch => Sys2Proof.Machine.execDmaDescriptorComplete c ch s
  | .dmaSignalDone c ch r => Sys2Proof.Machine.execDmaSignalDone c ch r s
  | .waite c w => Sys2Proof.Machine.execWaite c w s
  | .waiteComplete c => Sys2Proof.Machine.execWaiteComplete c s
  | .waitf c w => Sys2Proof.Machine.execWaitf c w s
  | .waitfEvaluate c r => Sys2Proof.Machine.execWaitfEvaluate c r s
  | .waitfDeadline c => Sys2Proof.Machine.execWaitfDeadline c s
  | .waitp c w => Sys2Proof.Machine.execWaitp c w s
  | .plumbWaitRelease c => Sys2Proof.Machine.execPlumbWaitRelease c s
  | .rdplumb c w => Sys2Proof.Machine.execRdplumb c w s
  | .end_ c w => Sys2Proof.Machine.execEnd c w s
  | .nodeEnd c => Sys2Proof.Machine.execNodeEnd c s
  | .kernelFaultEnd c => Sys2Proof.Machine.execKernelFaultEnd c s
  | .nodeStart c => Sys2Proof.Machine.execNodeStart c s
  | .spadEccError c double bank => Sys2Proof.Machine.execSpadEccError c double bank s
  | .coreCommit c v => Sys2Proof.Machine.execCoreCommit c v s
  | .commitApply c => Sys2Proof.Machine.execCommitApply c s
  | .ecodeClr c u => Sys2Proof.Machine.execEcodeClr c u s
  | .vclr c => Sys2Proof.Machine.execVclr c s
  | .directKernelGo c v => Sys2Proof.Machine.execDirectKernelGo c v s
  | .mortarCrcFail f grp replaysFailed => Sys2Proof.Machine.execMortarCrcFail f grp replaysFailed s
  | .mortarSteerDone f => Sys2Proof.Machine.execMortarSteerDone f s
  | .lintelFlitCrcFail l lane replaysFailed => Sys2Proof.Machine.execLintelFlitCrcFail l lane replaysFailed s
  | .lintelClockLockLoss l lane => Sys2Proof.Machine.execLintelClockLockLoss l lane s
  | .lintelRetrainDone l failed => Sys2Proof.Machine.execLintelRetrainDone l failed s
  | .lintelRemapDone l => Sys2Proof.Machine.execLintelRemapDone l s
  | .qdbPush q v => Sys2Proof.Machine.execQdbPush q v s
  | .qctlWrite q view v => Sys2Proof.Machine.execQctlWrite q view v s
  | .gclr q => Sys2Proof.Machine.execGclr q s
  | .queuePop r => Sys2Proof.Machine.execQueuePop r s
  | .entryStart q r => Sys2Proof.Machine.execEntryStart q r s
  | .packetIssue q node r => Sys2Proof.Machine.execPacketIssue q node r s
  | .packetNop q node off => Sys2Proof.Machine.execPacketNop q node off s
  | .dispatch q node off => Sys2Proof.Machine.execDispatch q node off s
  | .write q node off r => Sys2Proof.Machine.execWrite q node off r s
  | .signal q node off r => Sys2Proof.Machine.execSignal q node off r s
  | .waitmem q node off r => Sys2Proof.Machine.execWaitmem q node off r s
  | .waitmemEvaluate q node off r => Sys2Proof.Machine.execWaitmemEvaluate q node off r s
  | .poolAlloc q node off => Sys2Proof.Machine.execPoolAlloc q node off s
  | .poolFree q node off => Sys2Proof.Machine.execPoolFree q node off s
  | .enq q node off r => Sys2Proof.Machine.execEnq q node off r s
  | .enqRetry q node off r => Sys2Proof.Machine.execEnqRetry q node off r s
  | .ginit q node off => Sys2Proof.Machine.execGinit q node off s
  | .gpatch q node off => Sys2Proof.Machine.execGpatch q node off s
  | .gretire q node off => Sys2Proof.Machine.execGretire q node off s
  | .packetComplete q node off => Sys2Proof.Machine.execPacketComplete q node off s
  | .nodeReady q node => Sys2Proof.Machine.execNodeReady q node s
  | .entryComplete q => Sys2Proof.Machine.execEntryComplete q s
  | .hangDetect q => Sys2Proof.Machine.execHangDetect q s
  | .queueResetFinish q => Sys2Proof.Machine.execQueueResetFinish q s
  | .cevctlWrite x view v => Sys2Proof.Machine.execCevctlWrite x view v s
  | .cevptrWrite x view v => Sys2Proof.Machine.execCevptrWrite x view v s
  | .coreGrant => Sys2Proof.Machine.execCoreGrant s
  | .timedPrepare g => Sys2Proof.Machine.execTimedPrepare g s
  | .timedRelease g => Sys2Proof.Machine.execTimedRelease g s
  | .preempt g => Sys2Proof.Machine.execPreempt g s
  | .coreSaveDone c => Sys2Proof.Machine.execCoreSaveDone c s
  | .restore g => Sys2Proof.Machine.execRestore g s
  | .coreFailure c => Sys2Proof.Machine.execCoreFailure c s
  | .schedulerEpoch => Sys2Proof.Machine.execSchedulerEpoch s
  | .poolctlWrite p view v => Sys2Proof.Machine.execPoolctlWrite p view v s
  | .poolEnableDone p => Sys2Proof.Machine.execPoolEnableDone p s
  | .poolEpochEnd => Sys2Proof.Machine.execPoolEpochEnd s
  | .tableSearch x => Sys2Proof.Machine.execTableSearch x s
  | .tableSearchDone x => Sys2Proof.Machine.execTableSearchDone x s
  | .xctlInv x view => Sys2Proof.Machine.execXctlInv x view s
  | .xctlEn x view v => Sys2Proof.Machine.execXctlEn x view v s
  | .invalidationDone x => Sys2Proof.Machine.execInvalidationDone x s
  | .owncmd view v => Sys2Proof.Machine.execOwncmd view v s
  | .owncmdDone => Sys2Proof.Machine.execOwncmdDone s
  | .bar2Access off size wr => Sys2Proof.Machine.execBar2Access off size wr s
  | .migrationComplete n r => Sys2Proof.Machine.execMigrationComplete n r s
  | .migrationFail n code => Sys2Proof.Machine.execMigrationFail n code s
  | .migratePendingRecheck x => Sys2Proof.Machine.execMigratePendingRecheck x s
  | .hbmCorrectableRead ch y => Sys2Proof.Machine.execHbmCorrectableRead ch y s
  | .hbmUncorrectableRead ch y allFail => Sys2Proof.Machine.execHbmUncorrectableRead ch y allFail s
  | .hbmLinkError ch retriesFailed => Sys2Proof.Machine.execHbmLinkError ch retriesFailed s
  | .hbmRetrainDone ch ok => Sys2Proof.Machine.execHbmRetrainDone ch ok s
  | .rowRemap ch pc bank row bad => Sys2Proof.Machine.execRowRemap ch pc bank row bad s
  | .channelRetire ch => Sys2Proof.Machine.execChannelRetire ch s
  | .recalStart ch why => Sys2Proof.Machine.execRecalStart ch why s
  | .recalStep ch ok => Sys2Proof.Machine.execRecalStep ch ok s
  | .quarryKindChange t u => Sys2Proof.Machine.execQuarryKindChange t u s
  | .quarryEccError t u double line => Sys2Proof.Machine.execQuarryEccError t u double line s
  | .rlcRead t rq addr ctx nc ext ext2 => Sys2Proof.Machine.execRlcRead t rq addr ctx nc ext ext2 s
  | .rlcWrite t rq addr ctx nc off data ext => Sys2Proof.Machine.execRlcWrite t rq addr ctx nc off data ext s
  | .releaseFlush x => Sys2Proof.Machine.execReleaseFlush x s
  | .releaseFlushDone x => Sys2Proof.Machine.execReleaseFlushDone x s
  | .rlcEccError t way double line => Sys2Proof.Machine.execRlcEccError t way double line s
  | .flitReceive p h ok body arrival => Sys2Proof.Machine.execFlitReceive p h ok body arrival s
  | .laneLeave p l why => Sys2Proof.Machine.execLaneLeave p l why s
  | .portHoldEnd p => Sys2Proof.Machine.execPortHoldEnd p s
  | .laneRetrainAttemptEnd p l ok => Sys2Proof.Machine.execLaneRetrainAttemptEnd p l ok s
  | .portRetrainAttemptEnd p ok failed => Sys2Proof.Machine.execPortRetrainAttemptEnd p ok failed s
  | .portDownRetry p => Sys2Proof.Machine.execPortDownRetry p s
  | .portTrained p peer failed => Sys2Proof.Machine.execPortTrained p peer failed s
  | .spanCommit view => Sys2Proof.Machine.execSpanCommit view s
  | .routeEnWrite view en => Sys2Proof.Machine.execRouteEnWrite view en s
  | .protoActWrite view v => Sys2Proof.Machine.execProtoActWrite view v s
  | .spanIdWrite view v => Sys2Proof.Machine.execSpanIdWrite view v s
  | .routeGo view => Sys2Proof.Machine.execRouteGo view s
  | .routeSwitch => Sys2Proof.Machine.execRouteSwitch s
  | .routeDrainEnd => Sys2Proof.Machine.execRouteDrainEnd s
  | .packetRoute src k => Sys2Proof.Machine.execPacketRoute src k s
  | .packetStaleDrop p n => Sys2Proof.Machine.execPacketStaleDrop p n s
  | .remoteRequestServe k => Sys2Proof.Machine.execRemoteRequestServe k s
  | .remoteResponse k => Sys2Proof.Machine.execRemoteResponse k s
  | .remoteTimeout tag => Sys2Proof.Machine.execRemoteTimeout tag s
  | .mgmtAccess k => Sys2Proof.Machine.execMgmtAccess k s
  | .plumbInterval d2 nbrCount nbrLocked => Sys2Proof.Machine.execPlumbInterval d2 nbrCount nbrLocked s
  | .plumbRootLockTimeout => Sys2Proof.Machine.execPlumbRootLockTimeout s
  | .outboundCompletion id o => Sys2Proof.Machine.execOutboundCompletion id o s
  | .pcieLinkReset => Sys2Proof.Machine.execPcieLinkReset s
  | .msixUnmask v => Sys2Proof.Machine.execMsixUnmask v s
  | .masonAccess addr size k wr => Sys2Proof.Machine.execMasonAccess addr size k wr s
  | .vmodLoss => Sys2Proof.Machine.execVmodLoss s
  | .vmodReturn => Sys2Proof.Machine.execVmodReturn s
  | .domainTransitionDone d => Sys2Proof.Machine.execDomainTransitionDone d s
  | .clockChangeApply g => Sys2Proof.Machine.execClockChangeApply g s
  | .regulatorSettled t => Sys2Proof.Machine.execRegulatorSettled t s
  | .avsSilent t => Sys2Proof.Machine.execAvsSilent t s
  | .powerInterval m => Sys2Proof.Machine.execPowerInterval m s
  | .groupFreqStep p => Sys2Proof.Machine.execGroupFreqStep p s
  | .buttressEntered => Sys2Proof.Machine.execButtressEntered s
  | .buttressEnd => Sys2Proof.Machine.execButtressEnd s
  | .thermalTrip sensor => Sys2Proof.Machine.execThermalTrip sensor s
  | .thermalShutdown => Sys2Proof.Machine.execThermalShutdown s
  | .coolantStale => Sys2Proof.Machine.execCoolantStale s
  | .modEnWrite k en => Sys2Proof.Machine.execModEnWrite k en s
  | .modRampStart k => Sys2Proof.Machine.execModRampStart k s
  | .modOn k => Sys2Proof.Machine.execModOn k s
  | .modWindowEnd k vout => Sys2Proof.Machine.execModWindowEnd k vout s
  | .modCurrentLimit k enter => Sys2Proof.Machine.execModCurrentLimit k enter s
  | .modLimitLatch k => Sys2Proof.Machine.execModLimitLatch k s
  | .modRetry k => Sys2Proof.Machine.execModRetry k s
  | .modRetriesClear k => Sys2Proof.Machine.execModRetriesClear k s
  | .modCtlClr k => Sys2Proof.Machine.execModCtlClr k s
  | .powerOnReset => Sys2Proof.Machine.execPowerOnReset s
  | .brownOutReset rail => Sys2Proof.Machine.execBrownOutReset rail s
  | .pinReset => Sys2Proof.Machine.execPinReset s
  | .watchdogReset => Sys2Proof.Machine.execWatchdogReset s
  | .softwareReset => Sys2Proof.Machine.execSoftwareReset s
  | .debugReset => Sys2Proof.Machine.execDebugReset s
  | .refclkFailureReset => Sys2Proof.Machine.execRefclkFailureReset s
  | .keystoneLockupReset stall => Sys2Proof.Machine.execKeystoneLockupReset stall s
  | .resetSourceEnd src => Sys2Proof.Machine.execResetSourceEnd src s
  | .resetReleaseStep b => Sys2Proof.Machine.execResetReleaseStep b s
  | .memoryStepsDone failed repaired => Sys2Proof.Machine.execMemoryStepsDone failed repaired s
  | .startupDone => Sys2Proof.Machine.execStartupDone s
  | .storeUpdateDone ok => Sys2Proof.Machine.execStoreUpdateDone ok s
  | .mbGo m v => Sys2Proof.Machine.execMbGo m v s
  | .arbitrationSlot => Sys2Proof.Machine.execArbitrationSlot s
  | .sysInfo => Sys2Proof.Machine.execSysInfo s
  | .sysCause => Sys2Proof.Machine.execSysCause s
  | .sysReset => Sys2Proof.Machine.execSysReset s
  | .sysOffline => Sys2Proof.Machine.execSysOffline s
  | .packageStop => Sys2Proof.Machine.execPackageStop s
  | .sysDrv => Sys2Proof.Machine.execSysDrv s
  | .sysM3 => Sys2Proof.Machine.execSysM3 s
  | .sysSetread => Sys2Proof.Machine.execSysSetread s
  | .pwrCap => Sys2Proof.Machine.execPwrCap s
  | .pwrFreq => Sys2Proof.Machine.execPwrFreq s
  | .pwrDomain => Sys2Proof.Machine.execPwrDomain s
  | .pwrStatus => Sys2Proof.Machine.execPwrStatus s
  | .thmCoolant => Sys2Proof.Machine.execThmCoolant s
  | .thmStatus => Sys2Proof.Machine.execThmStatus s
  | .memIntlv => Sys2Proof.Machine.execMemIntlv s
  | .memQkind => Sys2Proof.Machine.execMemQkind s
  | .memStatus => Sys2Proof.Machine.execMemStatus s
  | .spanId => Sys2Proof.Machine.execSpanId s
  | .spanPorts => Sys2Proof.Machine.execSpanPorts s
  | .spanPlumb => Sys2Proof.Machine.execSpanPlumb s
  | .spanPortclr => Sys2Proof.Machine.execSpanPortclr s
  | .spanSend => Sys2Proof.Machine.execSpanSend s
  | .spanRoute => Sys2Proof.Machine.execSpanRoute s
  | .spanSwitch => Sys2Proof.Machine.execSpanSwitch s
  | .spanCtl => Sys2Proof.Machine.execSpanCtl s
  | .spanStatus => Sys2Proof.Machine.execSpanStatus s
  | .calRead => Sys2Proof.Machine.execCalRead s
  | .calVoff => Sys2Proof.Machine.execCalVoff s
  | .calAsym => Sys2Proof.Machine.execCalAsym s
  | .calHbm => Sys2Proof.Machine.execCalHbm s
  | .calHbmDone => Sys2Proof.Machine.execCalHbmDone s
  | .calClear => Sys2Proof.Machine.execCalClear s
  | .fwWrite ok => Sys2Proof.Machine.execFwWrite ok s
  | .fwSeal digestOk sigOk ok => Sys2Proof.Machine.execFwSeal digestOk sigOk ok s
  | .fwActivate => Sys2Proof.Machine.execFwActivate s
  | .fwHandoverDone convOk => Sys2Proof.Machine.execFwHandoverDone convOk s
  | .fwCommit => Sys2Proof.Machine.execFwCommit s
  | .fwAutoCommit => Sys2Proof.Machine.execFwAutoCommit s
  | .fwStatus => Sys2Proof.Machine.execFwStatus s
  | .rasRead => Sys2Proof.Machine.execRasRead s
  | .rasRetire => Sys2Proof.Machine.execRasRetire s
  | .rasClear => Sys2Proof.Machine.execRasClear s
  | .testCfg => Sys2Proof.Machine.execTestCfg s
  | .testRun => Sys2Proof.Machine.execTestRun s
  | .testStatus => Sys2Proof.Machine.execTestStatus s
  | .selfTestRotation => Sys2Proof.Machine.execSelfTestRotation s
  | .selfTestDone pass => Sys2Proof.Machine.execSelfTestDone pass s
  | .modSet => Sys2Proof.Machine.execModSet s
  | .modClr => Sys2Proof.Machine.execModClr s
  | .modStatus => Sys2Proof.Machine.execModStatus s
  | .mbRasRptrWrite m v => Sys2Proof.Machine.execMbRasRptrWrite m v s
  | .i3cPrivateWrite data => Sys2Proof.Machine.execI3cPrivateWrite data s
  | .i3cPrivateRead n => Sys2Proof.Machine.execI3cPrivateRead n s
  | .idcode => Sys2Proof.Machine.execIdcode s
  | .bypass => Sys2Proof.Machine.execBypass s
  | .sample => Sys2Proof.Machine.execSample s
  | .extest pads => Sys2Proof.Machine.execExtest pads s
  | .dbgHalt => Sys2Proof.Machine.execDbgHalt s
  | .dbgEnFall => Sys2Proof.Machine.execDbgEnFall s
  | .registerWrite t size v => Sys2Proof.Machine.execRegisterWrite t size v s
  | .powerLoss => Sys2Proof.Machine.execPowerLoss s
  | .buttressNRise => Sys2Proof.Machine.execButtressNRise s
  | .dbgEnRise => Sys2Proof.Machine.execDbgEnRise s
  | .pcieLinkUp => Sys2Proof.Machine.execPcieLinkUp s
  | .pcieConfigWrite cmd dev cap aer => Sys2Proof.Machine.execPcieConfigWrite cmd dev cap aer s
  | .masonHartsStopped m => Sys2Proof.Machine.execMasonHartsStopped m s
  | .dynamicAddressAssignment a => Sys2Proof.Machine.execDynamicAddressAssignment a s

end Sys2Proof.Machine
end

