-- ==== Sys2Proof/Machine/Tick.lean ====
section
/-!
DEFINITION. One nanosecond of the model's clock, which a step takes while no command waits (log entry 2): Plumb time,
the hang time of running entries and the barrier-wait cycles of cores.
-/

namespace Sys2Proof.Machine

/-- Plumb time over 1 ns: the count advances by 1, and by one more or not at all where the steering rate has gathered a
whole nanosecond (R33, R341). (DESIGN CHOICE: log entry 2.) -/
def tickPlumb (p : PlumbSt) : PlumbSt :=
  if !p.running then p
  else
    let f := p.frac + p.rate
    if 1000000 ≤ f then { p with count := p.count + 2, frac := f - 1000000 }
    else if f ≤ -1000000 then { p with frac := f + 1000000 }
    else { p with count := p.count + 1, frac := f }

/-- Whether a core has an unsatisfied WAITF (R158); a save or a fault abandons it at once (R174, R176). -/
def waitsFlag (k : CoreSt) : Bool :=
  match k.wait with
  | some (.waitf _ _ seen _ _ _ _ _ _) => seen && !k.stop && decide (k.fault = none)
  | _ => false

/-- The cycles of a group at step `n` that end within the nanosecond after `t`: its clock is 0.40 GHz + 25 MHz × n (R367). -/
def cyclesIn (t n : Nat) : Nat := (t + 1) * (16 + n) / 40 - t * (16 + n) / 40

/-- CORE_WAITCYC over 1 ns (R158). (DEDUCED: log entry 17.) -/
def tickWait (s : State) : State :=
  (s.cores.map Prod.fst).foldl (fun s c =>
    if waitsFlag (getCore s c) then
      modCore s c fun k => { k with cr := { k.cr with
        waitcyc := BitVec.ofNat 32 (min 0xFFFFFFFF (k.cr.waitcyc.toNat + cyclesIn s.now (getGroup s (c / 4)).step)) } }
    else s) s

/-- The core cycles of a tower over 1 ns, of the groups that have power. -/
def cyclesOf (s : State) (t : Nat) : Nat :=
  (List.range 8).foldl (fun n i =>
    if (getDom s (8 * t + i)).st = .on then n + 4 * cyclesIn s.now (getGroup s (8 * t + i)).step else n) 0

/-- Those of them in which a core holds a kernel and no WAITF of it is unsatisfied. -/
def busyOf (s : State) (t : Nat) : Nat :=
  (s.cores.map Prod.fst).foldl (fun n c =>
    if c / 32 = t ∧ holdsKernel (getCore s c) = true ∧ waitsFlag (getCore s c) = false then
      n + cyclesIn s.now (getGroup s (c / 4)).step
    else n) 0

/-- The counts of the power controller's interval over 1 ns (R372). (DEDUCED: log entry 17.) -/
def tickPower (s : State) : State :=
  (List.range 8).foldl (fun s t => modTower s t fun w => { w with
    coreCyc := w.coreCyc + cyclesOf s t, busyCyc := w.busyCyc + busyOf s t }) s

/-- The hang time of running entries over 1 ns (R212). -/
def tickHang (s : State) : State :=
  (s.queues.map Prod.fst).foldl (fun s q =>
    if hangCounts s q then
      modQueue s q fun k => { k with run := k.run.map fun e => { e with hang := e.hang + 1 } }
    else s) s

/-- One nanosecond passes. (DESIGN CHOICE: log entry 2.) (DESIGN CHOICE: log entry 11.) -/
def tick (s : State) : State :=
  let s1 := tickHang (tickPower (tickWait s))
  { s1 with now := s1.now + 1, plumb := tickPlumb s1.plumb }

end Sys2Proof.Machine
end

