-- ==== Sys2Proof/Machine/Step.lean ====
section
/-!
DEFINITION. One step of the package: the command at the front of the queue takes its effect, or, while none waits, one nanosecond
passes (log entry 2).
-/

namespace Sys2Proof.Machine

/-- Takes the command at the front of the queue. (DESIGN CHOICE: log entry 2.) (DESIGN CHOICE: log entry 78.) -/
def step (s : State) : Host.Outcome State Fault Refusal :=
  match s.pending with
  | [] => .next (tick s)
  | i :: rest => exec i { s with pending := rest }

/-- The command that a word spells, put at the front of the queue; none does (see `decodeTableWord`). -/
def State.withFetchWord (s : State) (nbits w : Nat) : State :=
  match decodeTableWord nbits w with
  | none => s
  | some i => { s with pending := i :: s.pending }

end Sys2Proof.Machine
end

