-- ==== Sys2Proof/Safety.lean ====
section
/-!
DEFINITION. The terms of the claims: the canonical form of everything that State keeps sparsely, so that two packages that hold the
same are the same data; what an instruction leaves alone; and the rows of the opcode table as functions of their operands.
-/

namespace Sys2Proof.Machine

/-- Local memory, its markers and its ownership table, and the records of cores, queues, contexts, pools, channels, towers and links,
each in canonical form: keys strictly rising, and nothing listed that equals what an unlisted key reads as. -/
structure Canonical (s : State) : Prop where
  mem : Memory.wf s.mem = true
  lost : tabWf none s.lost = true
  owner : tabWf 0 s.owner = true
  cores : tabWf {} s.cores = true
  queues : tabWf {} s.queues = true
  ctxs : tabWf {} s.ctxs = true
  pools : tabWf {} s.pools = true
  hbm : tabWf {} s.hbm = true
  towers : tabWf {} s.towers = true
  mortar : tabWf {} s.mortar = true
  lintel : tabWf {} s.lintel = true

/-! ## What a command leaves alone -/

/-- Of the whole package at most core `c` differs. -/
structure OnlyCore (s t : State) (c : Nat) : Prop where
  package : t = { s with cores := t.cores }
  others : ∀ d, d ≠ c → getCore t d = getCore s d

/-- Of a core at most its sequencer registers differ: scratchpad, accumulators, vector registers, core registers, units and waits
stand. -/
def OnlyRegs (k l : CoreSt) : Prop := l = { k with regs := l.regs }

/-- Of a core at most its sequencer registers and the wait that stops issue differ. -/
def OnlyRegsWait (k l : CoreSt) : Prop := l = { k with regs := l.regs, wait := l.wait }

/-! ## The issue of an instruction (R138, R140) -/

/-- What a branch leaves in the prefetch buffer: at most four LDS, each with what the scratchpad holds for it, and nothing where the
core did not go where it predicted with SPEC and PF (R141, R142). -/
structure ReadAhead (k l : CoreSt) (predicted : Bool) : Prop where
  four : l.prefetch.length ≤ 4
  values : ∀ e ∈ l.prefetch, e.value = ldsNow k e.word
  discarded : predicted = false → l.prefetch = []

/-- Core `c` issues a legal instruction: it runs a kernel, nothing has stopped issue, and none of the scalar registers `regs` that
the instruction names waits for a load or an atomic. -/
structure Issues (s : State) (c : Core) (legal : Bool) (regs : List Nat) : Prop where
  issuing : canIssue (getCore s c.val) = true
  word : legal = true
  ready : ∀ r ∈ regs, busyReg (getCore s c.val) r = false

/-- No active loop of a core ends on the word at `a`. -/
def NoLoopEnds (k : CoreSt) (a : BitVec 64) : Prop := ∀ i < 4, (lreg k i).active = true → (lreg k i).last ≠ a

/-- pc moved past one word on which no loop ends, and no loop register changed. -/
def PastWord (k l : CoreSt) : Prop :=
  NoLoopEnds k (normPc k k.regs.pc) → l.regs.pc = normPc k (k.regs.pc + 8) ∧ l.regs.lc = k.regs.lc

/-- What a scalar instruction of core `c` does: scalar register `r` takes `v`, or nothing where it is s0, and pc moves on; every
other register and everything else stands (R135, R136). -/
structure WritesScalar (s t : State) (c r : Nat) (v : BitVec 64) : Prop where
  only : OnlyCore s t c
  regs : OnlyRegs (getCore s c) (getCore t c)
  value : sreg (getCore t c) r = if r = 0 then 0 else v
  scalars : ∀ i, i ≠ r → sreg (getCore t c) i = sreg (getCore s c) i
  addresses : (getCore t c).regs.a = (getCore s c).regs.a
  pc : PastWord (getCore s c) (getCore t c)

/-- What a control instruction of core `c` does to it: the link register `r` takes `v`, or nothing where it is s0. -/
structure Links (s t : State) (c r : Nat) (v : BitVec 64) : Prop where
  only : OnlyCore s t c
  regs : OnlyRegs (getCore s c) (getCore t c)
  value : sreg (getCore t c) r = if r = 0 then 0 else v
  scalars : ∀ i, i ≠ r → sreg (getCore t c) i = sreg (getCore s c) i
  addresses : (getCore t c).regs.a = (getCore s c).regs.a

/-- pc goes to `a`, and every active loop whose body does not hold `a` ends (R145). -/
def JumpsTo (k l : CoreSt) (a : BitVec 64) : Prop :=
  l.regs.pc = normPc k a ∧ ∀ i < 4, lreg l i =
    if (lreg k i).active ∧ ¬ inBody k (lreg k i) (normPc k a) then { lreg k i with active := false } else lreg k i

/-- What a LOOP of `n` body words and count `m` on loop counter `i` does to pc and the loop registers (R144). -/
def LoopRuns (k l : CoreSt) (i n : Nat) (m : BitVec 32) : Prop :=
  (m ≠ 0 → l.regs.pc = normPc k (k.regs.pc + 8) ∧
    lreg l i = ⟨true, 0, m, normPc k (k.regs.pc + 8), normPc k (k.regs.pc + BitVec.ofNat 64 (8 * n))⟩ ∧
    ∀ j, j ≠ i → lreg l j = lreg k j) ∧
  (m = 0 → (∀ j < 4, j ≠ i → (lreg k j).active = true → (lreg k j).last ≠ normPc k (k.regs.pc + BitVec.ofNat 64 (8 * n))) →
    l.regs.pc = normPc k (k.regs.pc + BitVec.ofNat 64 (8 * n + 8)) ∧ (lreg l i).active = false ∧
      ∀ j, j ≠ i → lreg l j = lreg k j)

/-- Loop `i` of a core is active and ends on the word at pc; of the loops that end there it is the innermost (R145). -/
structure InnermostEnds (k : CoreSt) (i : Nat) : Prop where
  number : i < 4
  active : (lreg k i).active = true
  last : (lreg k i).last = normPc k k.regs.pc
  innermost : ∀ j < 4, j ≠ i → (lreg k j).active = true → (lreg k j).last = (lreg k i).last →
    addrDist k (lreg k i).last (lreg k i).start < addrDist k (lreg k i).last (lreg k j).start

/-- Loop `i` of `k` makes another pass: its index goes up and pc returns to the body's start (R144). -/
def AnotherPass (k l : CoreSt) (i : Nat) : Prop :=
  l.regs.pc = (lreg k i).start ∧ lreg l i = { lreg k i with index := (lreg k i).index + 1 }

/-! ## Rows of Table 5.3 as functions of their operands -/

/-- Format R: sd from sa and sb. -/
def rowsR : List ((Core → BitVec 56 → Instr) × (BitVec 64 → BitVec 64 → BitVec 64)) :=
  [(.add, fun a b => a + b), (.sub, fun a b => a - b), (.and_, fun a b => a &&& b), (.or_, fun a b => a ||| b),
   (.xor, fun a b => a ^^^ b), (.sll, fun a b => a <<< (b.extractLsb 5 0).toNat), (.srl, fun a b => a >>> (b.extractLsb 5 0).toNat),
   (.sra, fun a b => a.sshiftRight (b.extractLsb 5 0).toNat), (.mul, fun a b => a * b),
   (.mulhu, fun a b => (a.setWidth 128 * b.setWidth 128).extractLsb 127 64),
   (.slt, fun a b => if a.slt b then 1 else 0), (.sltu, fun a b => if a.ult b then 1 else 0),
   (.min, fun a b => if b.slt a then b else a), (.max, fun a b => if a.slt b then b else a)]

/-- Format I: sd from sa and the sign-extended IMM, and whether IMM must be 0 to 63. -/
def rowsI : List ((Core → BitVec 56 → Instr) × Bool × (BitVec 64 → BitVec 64 → BitVec 64)) :=
  [(.addi, false, fun a b => a + b), (.andi, false, fun a b => a &&& b), (.ori, false, fun a b => a ||| b),
   (.xori, false, fun a b => a ^^^ b), (.slli, true, fun a b => a <<< b.toNat), (.srli, true, fun a b => a >>> b.toNat),
   (.srai, true, fun a b => a.sshiftRight b.toNat), (.slti, false, fun a b => if a.slt b then 1 else 0),
   (.sltiu, false, fun a b => if a.ult b then 1 else 0),
   (.lih, false, fun a b => b.extractLsb 31 0 ++ a.extractLsb 31 0)]

/-- Format B: the branch condition of sa and sb. -/
def rowsB : List ((Core → BitVec 56 → Instr) × (BitVec 64 → BitVec 64 → Bool)) :=
  [(.beq, fun a b => a == b), (.bne, fun a b => a != b), (.blt, fun a b => a.slt b), (.bge, fun a b => b.sle a),
   (.bltu, fun a b => a.ult b), (.bgeu, fun a b => b.ule a)]

/-! ## Faults, memory accesses and waits of a core (R137, R138, R146 to R157, R174) -/

/-- The sequencer instructions of one word that have reserved fields or fields that must be 0, with the test that decode makes of
the bits below the opcode (R138). -/
def rowsLegal : List ((Core → BitVec 56 → Instr) × (BitVec 56 → Bool)) :=
  [(.nop, legalN), (.add, legalR), (.sub, legalR), (.and_, legalR), (.or_, legalR), (.xor, legalR), (.sll, legalR), (.srl, legalR),
   (.sra, legalR), (.mul, legalR), (.mulhu, legalR), (.slt, legalR), (.sltu, legalR), (.min, legalR), (.max, legalR),
   (.addi, legalI), (.andi, legalI), (.ori, legalI), (.xori, legalI), (.slli, legalShift), (.srli, legalShift), (.srai, legalShift),
   (.slti, legalI), (.sltiu, legalI), (.lih, legalI), (.li, fun w => legalI w && decide (fSA w = 0)),
   (.beq, legalB), (.bne, legalB), (.blt, legalB), (.bge, legalB), (.bltu, legalB), (.bgeu, legalB), (.jal, legalJ), (.jr, legalI),
   (.mvlc, legalV), (.mvsa, legalS), (.adda, legalAD), (.lds, fun w => legalM w false), (.sts, fun w => legalM w true),
   (.ld, fun w => legalM w false), (.st, fun w => legalM w true), (.amo, legalA), (.fence, legalN),
   (.rdcr, fun w => legalC w && decide (fSA w = 0)), (.wrcr, fun w => legalC w && decide (fSD w = 0)),
   (.waite, legalE), (.waitf, legalF), (.waitp, fun w => legalR w && decide (fSD w = 0 ∧ fSB w = 0)),
   (.rdplumb, fun w => legalR w && decide (fSA w = 0 ∧ fSB w = 0)), (.end_, legalN)]

/-- A kernel-ending fault is recorded on a core that had none: issue stops, held operations are discarded, and every DMA channel
stops and discards its queue; nothing else of the core changes (R174 steps 1, 2 and 4). -/
def FaultRecorded (k l : CoreSt) (code : Code) (src : BitVec 3) (unit : BitVec 2) (pc addr : BitVec 64) : Prop :=
  l = { k with fault := some ⟨code, src, unit, pc, addr⟩, wait := none, hold := [], dma := [] }

/-- A wait of core `c` ends: scalar register `r` takes `v`, or nothing where it is s0, issue resumes and pc moves past the wait. -/
structure Resumes (s t : State) (c r : Nat) (v : BitVec 64) : Prop where
  only : OnlyCore s t c
  regs : OnlyRegsWait (getCore s c) (getCore t c)
  wait : (getCore t c).wait = none
  value : sreg (getCore t c) r = if r = 0 then 0 else v
  scalars : ∀ i, i ≠ r → sreg (getCore t c) i = sreg (getCore s c) i
  addresses : (getCore t c).regs.a = (getCore s c).regs.a
  pc : PastWord (getCore s c) (getCore t c)

/-- Issue of core `c` stops on a wait, with nothing else changed; pc stays at the waiting instruction (R140). -/
def StopsOn (s t : State) (c : Nat) (x : WaitSt) : Prop :=
  OnlyCore s t c ∧ getCore t c = { getCore s c with wait := some x }

/-- The line of local offset `o` is plain memory for context `x`: present, owned, with storage, not lost, and copied by no cache. -/
def PlainLine (s : State) (x o : Nat) : Prop :=
  ∀ a, a / 64 = o / 64 → present s a = true ∧ ownOk s false x a = true ∧ noStorage s a = false ∧ marker s a = none ∧
    homeFind s a = none ∧ ∀ t < 8, rlcFind s t (lineKey s a) = none

/-- Access `a` is number `i` of the outstanding ones of core `c`, at local offset `o` of plain, non-cacheable memory within one line;
nothing holds it on its route, no earlier access to its bytes is outstanding and the combining buffer is empty. -/
structure PlainAccess (s : State) (c i : Nat) (a : Access) (o : Nat) : Prop where
  listed : (getCore s c).accs[i]? = some a
  target : a.x = .target (.loc o) true
  first : blockedBy (getCore s c).accs a = false
  route : onItsWay s c a = false
  comb : (getCore s c).comb = []
  line : PlainLine s (getCore s c).ctx o
  within : o % 64 + a.size ≤ 64

/-- Access `a` joins the outstanding accesses of core `c`, and pc moves on; nothing else changes. -/
structure AccessJoins (s t : State) (c : Nat) (a : Access) : Prop where
  only : OnlyCore s t c
  core : getCore t c = { getCore s c with regs := (getCore t c).regs, accs := (getCore s c).accs ++ [a],
                                          nextAcc := (getCore s c).nextAcc + 1 }
  scalars : (getCore t c).regs.s = (getCore s c).regs.s
  addresses : (getCore t c).regs.a = (getCore s c).regs.a
  pc : PastWord (getCore s c) (getCore t c)

/-- Access `a` leaves the outstanding accesses of core `c`; other cores, and pc and the address registers of this one, stand. -/
structure AccessLeaves (s t : State) (c : Nat) (a : Access) : Prop where
  others : ∀ d, d ≠ c → getCore t d = getCore s d
  accs : (getCore t c).accs = (getCore s c).accs.filter fun b => b.id ≠ a.id
  pc : (getCore t c).regs.pc = (getCore s c).regs.pc
  addresses : (getCore t c).regs.a = (getCore s c).regs.a
  scratchpad : (getCore t c).mem = (getCore s c).mem

/-- The functions of an AMO on operands of `8 n` bits (Table 5.4): the new value of the memory word from its old value, b and c. -/
def rowsAmo : List (Nat × ((w : Nat) → BitVec w → BitVec w → BitVec w → BitVec w)) :=
  [(0, fun _ o b _ => o + b), (1, fun _ o b _ => o &&& b), (2, fun _ o b _ => o ||| b), (3, fun _ o b _ => o ^^^ b),
   (4, fun _ o b _ => if b.slt o then b else o), (5, fun _ o b _ => if o.slt b then b else o),
   (6, fun _ o b _ => if b.ult o then b else o), (7, fun _ o b _ => if o.ult b then b else o), (8, fun _ _ b _ => b),
   (9, fun _ o b c => if o = c then b else o)]

/-- The comparisons of a WAITF (R155). -/
def rowsCond : List (Nat × ((w : Nat) → BitVec w → BitVec w → Bool)) :=
  [(0, fun _ f v => f == v), (1, fun _ f v => f != v), (2, fun _ f v => v.sle f), (3, fun _ f v => v.ule f),
   (4, fun _ f v => f.slt v), (5, fun _ f v => f.ult v)]

/-! ## The core register block and the life of a kernel (R49, R105, R161, R168 to R174, R180, R181) -/

/-- A write of core register `idx` changes nothing: the register is read-only, or the index has no entry in Table 5.10. -/
def crReadOnly (idx : Nat) : Bool :=
  decide (idx ∉ [0x001, 0x002, 0x003, 0x004, 0x006, 0x010, 0x011, 0x012, 0x013, 0x014, 0x018, 0x01B, 0x01C] ∧
    ¬ (0x020 ≤ idx ∧ idx ≤ 0x028))

/-- The start state of a kernel or a direct kernel but for the scalar and address registers and pc (R171): loops inactive, counts,
codes and fault records 0, configuration and generators at reset, tables empty, vector registers 0, nothing dispatched or waiting. -/
structure KernelStart (k : CoreSt) : Prop where
  loops : ∀ i, (lreg k i).active = false
  counts : ∀ u, tget 0 k.cr.ucnt u = 0 ∧ tget 0 k.cr.ecode u = 0
  faults : k.cr.fault0 = 0 ∧ k.cr.fault1 = 0 ∧ k.cr.fault2 = 0 ∧ k.cr.fault3 = 0 ∧ k.cr.fault4 = 0
  chisel : k.cr.chsFault0 = 0 ∧ k.cr.chsFault1 = 0 ∧ k.cr.chsFault2 = 0
  stats : k.cr.waitcyc = 0 ∧ k.cr.fpstat = 0 ∧ k.dispNo = 0
  config : k.cr.cfg = 0x3 ∧ k.cr.cfgShadow = 0x3 ∧ k.cr.seed = 0 ∧ k.cr.seedShadow = 0
  generators : ∀ i, genGet k.mem i = genFresh 0 i
  tables : ∀ n, tget none k.mem.tables n = none ∧ tget none k.mem.shadow n = none
  vectors : ∀ r l, tget 0 k.mem.vreg (256 * r + l) = 0

/-- The number of corrected errors of source `src` that a history still holds at `now`, with the one that happens then. -/
def errorsInSecond (k : CoreSt) (src now : Nat) : Nat :=
  (k.errs.filter fun e => decide (now < e.2 + 1000000000) && decide (e.1 = src)).length + 1

/-- An error register after a corrected error at location `loc`, a field of bits [hi:lo]: the count goes up, held at 0xFFFF. -/
structure CorrectedError (e e' : BitVec 32) (hi lo loc : Nat) : Prop where
  count : bf e' 15 0 = min (bf e 15 0 + 1) 0xFFFF
  last : bf e' hi lo = loc
  ue : bt e' 31 = bt e 31

/-! ## The engines (R37, R71 to R91, R109 to R134, R150 to R152) -/

/-- An engine instruction of `n` words goes into the hold slot of unit `u` of core `c`, with the register values read at issue and the
next dispatch number; DISP of the unit counts it, and pc moves past its words (R81, R150, Table 5.22). -/
structure Dispatches (s t : State) (c u n : Nat) (o : HeldOp) : Prop where
  only : OnlyCore s t c
  core : getCore t c = { getCore s c with regs := (getCore t c).regs, hold := (getCore t c).hold, dispNo := (getCore s c).dispNo + 1,
                                          cr := { (getCore s c).cr with ucnt := (getCore t c).cr.ucnt } }
  slot : ∀ v, holdOf (getCore t c) v = if v = u then some o else holdOf (getCore s c) v
  disp : bf (tget 0 (getCore t c).cr.ucnt u) 31 16 = (bf (tget 0 (getCore s c).cr.ucnt u) 31 16 + 1) % 65536
  done : bf (tget 0 (getCore t c).cr.ucnt u) 15 0 = bf (tget 0 (getCore s c).cr.ucnt u) 15 0
  units : ∀ v, v ≠ u → tget 0 (getCore t c).cr.ucnt v = tget 0 (getCore s c).cr.ucnt v
  scalars : (getCore t c).regs.s = (getCore s c).regs.s
  addresses : (getCore t c).regs.a = (getCore s c).regs.a
  pc : NoLoopEnds (getCore s c) (normPc (getCore s c) ((getCore s c).regs.pc + BitVec.ofNat 64 (8 * (n - 1)))) →
    (getCore t c).regs.pc = normPc (getCore s c) ((getCore s c).regs.pc + BitVec.ofNat 64 (8 * n)) ∧
      (getCore t c).regs.lc = (getCore s c).regs.lc

/-- The Chisel instructions: kind, opcode, the decode test of the bits below the opcode, and the scalar and address registers that
they name, whose values they take in this order (Tables 4.2, 4.13 and 4.22). -/
def rowsChisel : List ((Core → BitVec 56 → Instr) × EngKind × Nat × (BitVec 56 → Bool) × (BitVec 56 → List Nat) ×
    (CoreSt → BitVec 56 → List (BitVec 64))) :=
  [(.chn, .chn, 0x48, fun w => w.extractLsb 46 0 == 0, fun w => [(w.extractLsb 51 47).toNat],
      fun k w => [areg k (w.extractLsb 54 52).toNat, sreg k (w.extractLsb 51 47).toNat]),
   (.cfold, .cfold, 0x49, fun w => w.extractLsb 25 0 == 0, fun w => [(w.extractLsb 42 38).toNat],
      fun k w => [areg k (w.extractLsb 48 46).toNat, areg k (w.extractLsb 45 43).toNat, sreg k (w.extractLsb 42 38).toNat]),
   (.ctbl, .ctbl, 0x4A, fun w => w.extractLsb 46 0 == 0 && decide ((w.extractLsb 53 50).toNat ≤ 10), fun _ => [],
      fun k w => [areg k (w.extractLsb 49 47).toNat])]

/-- Unit `u` of core `c` may accept the operation `o` in its hold slot: no earlier one waits for its first cycle there, none held
elsewhere was dispatched earlier onto a tile of `o`, and neither a fault, a save, a retirement nor a clock change stops the core. -/
structure Accepts (s : State) (c u : Nat) (o : HeldOp) : Prop where
  held : holdOf (getCore s c) u = some o
  may : mayAccept (getCore s c) = true
  entry : entryBusy (getCore s c) u = false
  order : heldAllows (getCore s c) o = true
  clock : (getGroup s (c / 4)).blocked = false

/-- Unit `u` of core `c` takes operation `o` from its hold slot; the operation it becomes has the stage `stage` and claims on `tiles`.
Nothing else changes. -/
structure Accepted (s t : State) (c u : Nat) (o : HeldOp) (tiles : List Nat) (stage : OpStage) : Prop where
  only : OnlyCore s t c
  core : getCore t c = { getCore s c with hold := (getCore t c).hold, ops := (getCore t c).ops }
  slot : ∀ v, holdOf (getCore t c) v = if v = u then none else holdOf (getCore s c) v
  ops : ∃ r : RunOp, r.op = o ∧ r.stage = stage ∧ r.tiles = tiles ∧ r.code = St.ok ∧
    r.seen = (getCore s c).mem.spad ∧
    ∀ v, opsOf (getCore t c) v = if v = u then opsOf (getCore s c) u ++ [r] else opsOf (getCore s c) v

/-- Of the operations of core `c` a dispatched one of unit `u` completes with `code`: DONE counts it, and ECODE counts a code other
than OK and, where it was clear, records the code and the dispatch number (R152, Table 5.21). -/
structure Completes (k l : CoreSt) (u : Nat) (code : Code) (disp : Nat) : Prop where
  done : bf (tget 0 l.cr.ucnt u) 15 0 = (bf (tget 0 k.cr.ucnt u) 15 0 + 1) % 65536
  dispatched : bf (tget 0 l.cr.ucnt u) 31 16 = bf (tget 0 k.cr.ucnt u) 31 16
  ok : code = St.ok → tget 0 l.cr.ecode u = tget 0 k.cr.ecode u
  count : code ≠ St.ok → bf (tget 0 l.cr.ecode u) 30 24 = min (bf (tget 0 k.cr.ecode u) 30 24 + 1) 127
  first : code ≠ St.ok → bf (tget 0 k.cr.ecode u) 30 24 = 0 →
    bf (tget 0 l.cr.ecode u) 23 16 = code.toNat ∧ bf (tget 0 l.cr.ecode u) 15 0 = disp % 65536
  later : code ≠ St.ok → bf (tget 0 k.cr.ecode u) 30 24 ≠ 0 → bf (tget 0 l.cr.ecode u) 23 0 = bf (tget 0 k.cr.ecode u) 23 0
  units : ∀ v, v ≠ u → tget 0 l.cr.ucnt v = tget 0 k.cr.ucnt v ∧ tget 0 l.cr.ecode v = tget 0 k.cr.ecode v

/-- Scratchpad `m` is read as `v` by an operation that began when it was `seen`: a byte that has not changed since reads as it stands,
and any other byte reads as some value (R62, R111, R154). -/
def ReadAs (seen m v : List Host.Cell) : Prop := ∀ a, rd8 seen a = rd8 m a → rd8 v a = rd8 m a

/-- Operation `r` of unit `u`, number `i` of those it has accepted, is the one that waits for its first cycle, and no operation that
was dispatched earlier claims a tile of it (R78). -/
structure Ready (k : CoreSt) (u i : Nat) (r : RunOp) : Prop where
  listed : (opsOf k u)[i]? = some r
  stage : r.stage = .checked
  first : ∀ j < i, ∀ x, (opsOf k u)[j]? = some x → x.stage ≠ .checked
  free : tilesFree k r.op r.tiles = true

/-- The INT8 element (row, column) of an operand matrix at `off`, whose rows are `pitch` bytes apart; `t` swaps row and column
(Table 3.3). -/
def int8At (m : List Host.Cell) (off pitch : Nat) (t : Bool) (row col : Nat) : Int :=
  ((rd8 m ((off + (if t then col else row) * pitch + (if t then row else col)) % 4194304)).toInt)

/-- Operation `r` is a NORMAL product of plain INT8 operands, wrapping, without a skip mask. -/
structure Int8Product (r : RunOp) : Prop where
  kind : r.op.kind = .amm
  mode : amMode r.op.w0 = 0
  wraps : amOvf r.op.w0 = true
  skips : amSkip r.op.w0 = false
  a : r.ofds.getD 0 0 = 9
  b : r.ofds.getD 1 0 = 9

/-- An operation of unit `u` of core `c` that fails its checks: it completes with FMT_RESERVED, ends the kernel, and has written
nothing, moved no generator and set no bit of CORE_FPSTAT (R38, R83, R124, R174). -/
structure Refuses (s t : State) (c u : Nat) (o : HeldOp) (src unit : Nat) : Prop where
  only : OnlyCore s t c
  completes : Completes (getCore s c) (getCore t c) u St.fmtReserved o.disp
  fault : (getCore t c).fault = some ⟨St.fmtReserved, BitVec.ofNat 3 src, BitVec.ofNat 2 unit, o.pc, 0⟩
  ops : (getCore t c).ops = (getCore s c).ops
  mem : (getCore t c).mem = (getCore s c).mem
  regs : (getCore t c).regs = (getCore s c).regs
  fpstat : (getCore t c).cr.fpstat = (getCore s c).cr.fpstat

/-- The descriptors that an accepted chain operation with descriptor `d` reads: of each enabled slot with OFD_EN (R111). -/
def chainOfds (k : CoreSt) (d : List Byte) : List (BitVec 128) :=
  (List.range 6).map fun i => if hSlot d i && stOfdEn (strm d i) then rdOfd k.mem.spad (stOfdOff (strm d i)) else 0

/-- A chain descriptor of the kind that clears a scratchpad (R128): X is ZERO, no stage is enabled, and the only enabled slot is a
LINEAR FP32 OUT0 in one row, written as V under PK = SEP in RNE. -/
structure ClearsScratchpad (d : List Byte) : Prop where
  format : hW d = 0
  sources : srcOf d 0 = 0 ∧ srcOf d 1 = 0 ∧ srcOf d 2 = 0
  stages : ∀ i < 4, hStage d i = false
  slots : ∀ i < 6, hSlot d i = decide (i = 4)
  stream : stKind (strm d 4) = 1 ∧ stFmt (strm d 4) = 0 ∧ hLen d ≤ stRow (strm d 4)
  pack : pk d = 0 ∧ pkSrc d 0 = 0 ∧ pkCvt d 0 = 0 ∧ pkVrw d = false

/-! ## Core DMA and the memory behind translation (R162 to R167, R246 to R261) -/

/-- A lookaside buffer holds, for context `x`, a well-formed range entry `l` that covers the page of `va`, is not migratable, has
the attributes that `need` asks, marks its memory non-cacheable, and maps `va` to the local offset `o` of this package. -/
structure MapsTo (s : State) (lb : List LbEntry) (x : Nat) (va : BitVec 64) (need : Need) (l : LbEntry) (o : Nat) : Prop where
  find : lbFind lb x (va.toNat / 4096) = some l
  formed : reMalformed s l.mdc l.entry l.desc = false
  permits : permits l.entry need = true
  range : reMig l.entry = false ∧ reTkind l.entry = 0 ∧ reNc l.entry = true
  own : levelOf s (reTarget l.entry + (va.toNat - reStart l.entry * 4096)) = 0
  inside : reTarget l.entry + (va.toNat - reStart l.entry * 4096) < 2 ^ 58
  offset : o = (reTarget l.entry + (va.toNat - reStart l.entry * 4096)) % 2 ^ 41

/-- Channel `ch` of core `c` has the descriptor `h` at the head of its queue, and neither a fault, a save nor a retirement stops it. -/
structure ChannelHas (s : State) (c ch : Nat) (h : DmaDesc) : Prop where
  head : (chanAt (getCore s c) ch).queue.head? = some h
  runs : dmaRuns (getCore s c) = true

/-- Of core `c` only channel `ch` changes, to `d`. -/
def OnlyChannel (s t : State) (c ch : Nat) (d : DmaChan) : Prop :=
  OnlyCore s t c ∧ getCore t c = { getCore s c with dma := (getCore t c).dma } ∧ chanAt (getCore t c) ch = d ∧
    ∀ e, e ≠ ch → chanAt (getCore t c) e = chanAt (getCore s c) e

/-- The source and destination address of byte `b` of row `y` of plane `z` of a descriptor: base + z × plane pitch + y × row pitch + b,
with signed pitches (R163). -/
def dmaSource (h : DmaDesc) (z y b : Nat) : BitVec 64 :=
  h.raw.extractLsb' 0 64 + BitVec.ofNat 64 z * (h.raw.extractLsb' 256 32).signExtend 64 +
    BitVec.ofNat 64 y * (h.raw.extractLsb' 192 32).signExtend 64 + BitVec.ofNat 64 b
def dmaTarget (h : DmaDesc) (z y b : Nat) : BitVec 64 :=
  h.raw.extractLsb' 64 64 + BitVec.ofNat 64 z * (h.raw.extractLsb' 288 32).signExtend 64 +
    BitVec.ofNat 64 y * (h.raw.extractLsb' 224 32).signExtend 64 + BitVec.ofNat 64 b

/-- The progress of a channel after `n` bytes of the head descriptor: the next byte of the row, or the first of the next row, or of
the next plane (R164). -/
def dmaProgress (h : DmaDesc) (d : DmaChan) (n : Nat) : Nat × Nat × Nat :=
  if d.byte + n < (h.raw.extractLsb' 128 32).toNat + 1 then (d.plane, d.row, d.byte + n)
  else if d.row + 1 < (h.raw.extractLsb' 160 16).toNat + 1 then (d.plane, d.row + 1, 0)
  else (d.plane + 1, 0, 0)

/-- Die `a` has a route to die `b`, and no link of it holds its traffic for a retraining or a remap (R27, R28, R31). -/
abbrev FreeRoute (s : State) (a b : Nat) : Prop := dieCode s a b = St.ok ∧ routeHolds s a b = false

/-- Channel `ch` of core `c` moves its next `n` bytes, from `src` to `dst`: those up to the end of the row or of the destination line,
whichever comes first (R164). -/
structure MovesNext (s : State) (c ch : Nat) (h : DmaDesc) (src dst : BitVec 64) (n : Nat) : Prop where
  has : ChannelHas s c ch h
  moving : (chanAt (getCore s c) ch).phase = .moving
  room : coreOut s c < 1024
  left : (chanAt (getCore s c) ch).plane < (h.raw.extractLsb' 176 16).toNat + 1
  within : (chanAt (getCore s c) ch).byte < (h.raw.extractLsb' 128 32).toNat + 1
  translated : (chanAt (getCore s c) ch).xs = .miss ∧ (chanAt (getCore s c) ch).xw = .miss
  source : src = dmaSource h (chanAt (getCore s c) ch).plane (chanAt (getCore s c) ch).row (chanAt (getCore s c) ch).byte
  target : dst = dmaTarget h (chanAt (getCore s c) ch).plane (chanAt (getCore s c) ch).row (chanAt (getCore s c) ch).byte
  size : n = min (64 - dst.toNat % 64) ((h.raw.extractLsb' 128 32).toNat + 1 - (chanAt (getCore s c) ch).byte)

/-- The progress of channel `ch` after the move. -/
def Moved (s t : State) (c ch : Nat) (h : DmaDesc) (n : Nat) : Prop :=
  ((chanAt (getCore t c) ch).plane, (chanAt (getCore t c) ch).row, (chanAt (getCore t c) ch).byte) =
      dmaProgress h (chanAt (getCore s c) ch) n ∧
    (chanAt (getCore t c) ch).queue = (chanAt (getCore s c) ch).queue ∧ (chanAt (getCore t c) ch).phase = .moving ∧
    (getCore t c).regs = (getCore s c).regs ∧ (getCore t c).cr = (getCore s c).cr

/-! ## Memory, queues and packets (R185 to R218, R246 to R261) -/

/-- What an access to memory may change of the package: memory and its markers, the caches of the towers, translation with its fault
and event records, free values, and what has gone to other packages and to the host. Cores, queues, gangs, pools, units and every
other register stand. -/
def MemorySide (s t : State) : Prop :=
  t = { s with free := t.free, ctxs := t.ctxs, lateEv := t.lateEv, mem := t.mem, lost := t.lost, restored := t.restored, hlb := t.hlb,
               hubX := t.hubX, migr := t.migr, towers := t.towers, span := t.span, host := t.host }

/-- Of the package only queue `q` changes, to `k`. -/
structure SetsQueue (s t : State) (q : Nat) (k : Queue) : Prop where
  package : t = { s with queues := t.queues }
  queue : getQueue t q = k
  others : ∀ d, d ≠ q → getQueue t d = getQueue s d

/-- Of the package only context `x` changes, to `k`. -/
structure SetsCtx (s t : State) (x : Nat) (k : Ctx) : Prop where
  package : t = { s with ctxs := t.ctxs }
  context : getCtx t x = k
  others : ∀ d, d ≠ x → getCtx t d = getCtx s d

/-- Of the package only the memory side changes and queue `q`, to `k`. -/
structure EndsQueue (s t : State) (q : Nat) (k : Queue) : Prop where
  package : MemorySide s { t with queues := s.queues }
  queue : getQueue t q = k
  others : ∀ d, d ≠ q → getQueue t d = getQueue s d

/-- Queue `q` is the one that the front end pops next: no queue that can pop has a more urgent PRIO, and of those of its PRIO it is the
first after the one popped last at that PRIO, going round (R219). -/
structure PopsNext (s : State) (q : Nat) : Prop where
  serves : s.key.stopping = false ∧ s.key.stopped = false
  can : canPop (getQueue s q) = true
  urgent : ∀ d, canPop (getQueue s d) = true → qPrio (getQueue s q) ≤ qPrio (getQueue s d)
  turn : ∀ d, canPop (getQueue s d) = true → qPrio (getQueue s d) = qPrio (getQueue s q) →
    (tget 16383 s.lastPop (qPrio (getQueue s q)) < q ∧ (d ≤ tget 16383 s.lastPop (qPrio (getQueue s q)) ∨ q ≤ d)) ∨
      (q ≤ tget 16383 s.lastPop (qPrio (getQueue s q)) ∧ d ≤ tget 16383 s.lastPop (qPrio (getQueue s q)) ∧ q ≤ d)

/-- Queue `q` becomes GUILTY with a cause and begins its reset: it pops nothing, its ring stands until the reset ends, and no other
queue and no byte of memory changes (R213, R216). -/
structure TurnsGuilty (s t : State) (q : Nat) (cause : Code) (f : Option EntryFault) : Prop where
  queue : (getQueue t q).guilty = true ∧ (getQueue t q).resetting = true ∧ (getQueue t q).cause = cause
  stands : (getQueue t q).wptr = (getQueue s q).wptr ∧ (getQueue t q).rptr = (getQueue s q).rptr ∧ (getQueue t q).ctl = (getQueue s q).ctl
  fault : (getQueue t q).run.map EntryRun.fault = (getQueue s q).run.map fun _ => f
  others : ∀ d, d ≠ q → getQueue t d = getQueue s d
  memory : t.mem = s.mem

/-- The packet at byte `off` of node `node` of the entry that queue `q` runs is `p`. -/
structure PacketIs (s : State) (q node off : Nat) (op : BitVec 8) (st : PktSt) (p : PktRun) : Prop where
  found : pktOf s q node off = some p
  op : p.op = op
  stage : p.st = st

/-- Of the package only the stage of that packet changes. -/
structure PacketBecomes (s t : State) (q node off : Nat) (st : PktSt) : Prop where
  package : t = { s with queues := t.queues }
  queue : getQueue t q = { getQueue s q with run := (getQueue t q).run }
  packet : pktOf t q node off = (pktOf s q node off).map fun p => { p with st := st }
  packets : ∀ n f, ¬ (n = node ∧ f = off) → pktOf t q n f = pktOf s q n f
  others : ∀ d, d ≠ q → getQueue t d = getQueue s d

/-- Of the package only one node of the entry of queue `q` changes, to `n'`; a node boundary of the pool epoch may be set. -/
structure NodeBecomes (s t : State) (q node : Nat) (n' : NodeRun) : Prop where
  package : t = { s with queues := t.queues, epochDue := t.epochDue }
  queue : getQueue t q = { getQueue s q with run := (getQueue t q).run }
  changed : nodeOf t q node = some n'
  nodes : ∀ i, i ≠ node → nodeOf t q i = nodeOf s q i
  others : ∀ d, d ≠ q → getQueue t d = getQueue s d

/-- A node after its packet at `off`, which names `slot`, has completed: the slot is posted, and the node is done once every packet of
its buffer has (R193, R194). -/
def packetEnded (n : NodeRun) (off slot : Nat) : NodeRun :=
  let pkts := n.pkts.map fun p => if p.off = off then { p with st := .done } else p
  { n with pkts := pkts, posted := if slot = 0 then n.posted else sb n.posted slot true,
           st := if n.len ≤ n.next ∧ ∀ p ∈ pkts, p.st = .done then .done else n.st }

/-- No wait of a packet holds it back: every slot named in WAIT is posted, under BAR every earlier packet has completed, and the
instants that apply to it have been reached (R192, R207). -/
structure MayIssue (s : State) (e : EntryRun) (n : NodeRun) (p : List Byte) : Prop where
  slots : ∀ i, bt (phWait p) i = true → bt n.posted i = true
  bar : phBar p = true → ∀ x ∈ n.pkts, x.st = .done
  own : phTimed p = true → phAt p ≤ s.plumb.count.toNat
  entry : enTimed e.raw = true → (if enKind e.raw = 1 then enAt e.raw else (enAt e.raw + n.atOff.toNat) % 2 ^ 64) ≤ s.plumb.count.toNat

/-- Node `node` of queue `q`, which runs entry `e`, has the packet bytes `p` at the head of issue, read through the Range Table in the
state `s1` (R191, R192). -/
structure AtHead (s s1 : State) (q node : Nat) (e : EntryRun) (n : NodeRun) (r : Reply) (p : List Byte) : Prop where
  entry : (getQueue s q).run = some e
  found : nodeOf s q node = some n
  runs : (getQueue s q).resetting = false ∧ n.st = .running ∧ n.next < n.len
  alone : gangAt s q node n.next = none
  read : readPkt s (qCtx (getQueue s q)) (n.buf + BitVec.ofNat 64 n.next) (n.len - n.next) r = ⟨St.ok, p, s1⟩

/-- The checks of a packet at the head of issue (R191, R193, R195). -/
def packetOk (s : State) (q : Nat) (n : NodeRun) (p : List Byte) : Bool :=
  sizeAllowed (phOp p) (phUnits p) && decide (n.next + 64 * phUnits p ≤ n.len) && headerOk n p && bodyOk s (qCtx (getQueue s q)) p

/-! ## Pools and graphs (R202 to R206, R240 to R244) -/

/-- Of the package only pool `p` changes, to `k`. -/
structure SetsPool (s t : State) (p : Nat) (k : Pool) : Prop where
  package : t = { s with pools := t.pools }
  pool : getPool t p = k
  others : ∀ d, d ≠ p → getPool t d = getPool s d

/-- The metadata area of a pool of `n` blocks at its enable: the free stack with block 0 on top, and a clear map (R241). -/
def freshMeta (n : Nat) : List Byte := ((List.range n).flatMap fun i => toLe 4 (n - 1 - i)) ++ toLe ((n + 7) / 8) 0

/-- The end of a pool epoch is due: a node boundary has come, or 20 µs have passed since the epoch began (R242). -/
def EpochEnds (s : State) : Prop := s.epochDue = true ∨ s.poolEpoch + 20000 ≤ s.now

/-! ## The scheduler (R219 to R239) -/

/-- Gang `a` is served before gang `b`: a more urgent priority; within a priority saved gangs before gangs not started; then the earlier
DISPATCH, and of two that came together the lower queue (R220, R222, R230). -/
def ServedBefore (s : State) (a b : Gang) : Prop :=
  let pa := gangPrio s a
  let pb := gangPrio s b
  pa < pb ∨ (pa = pb ∧ (a.st = .saved ∧ b.st ≠ .saved ∨
    ((a.st = .saved ↔ b.st = .saved) ∧ (a.reach < b.reach ∨ (a.reach = b.reach ∧ a.queue < b.queue)))))

/-- Gang `x` is the one that the scheduler serves next: it asks for cores, and before every other gang that does. -/
structure ServedNext (s : State) (x : Gang) : Prop where
  listed : x ∈ s.gangs
  asks : asks s x = true
  first : ∀ y ∈ s.gangs, Machine.asks s y = true → y ≠ x → ServedBefore s x y

/-- Gang `x` takes cores `cs` in phase `ph` and stage `st`, its ranks in increasing core number (R223). -/
structure Placed (s t : State) (x : Gang) (cs : List Nat) (ph : CorePhase) (st : GangSt) : Prop where
  package : t = { s with cores := t.cores, gangs := t.gangs }
  gangs : t.gangs = s.gangs.map fun y => if y.id = x.id then { x with st := st, cores := x.cores ++ (openRanks x).zip cs } else y
  cores : ∀ c, getCore t c = if c ∈ cs then { getCore s c with phase := ph, gang := some x.id } else getCore s c

/-- Gang `v` is the one gang that `x` may pre-empt (R221, R229). -/
def OnlyVictim (s : State) (x v : Gang) : Prop := (s.gangs.filter fun y => mayPreempt s (gangPrio s x) y) = [v]

/-- The cores that are free for a grant. -/
def freeCores (s : State) : Nat := ((List.range 256).filter (coreFree s)).length

/-- Core `c` holds the kernel of rank `rank` of gang `x`, and the gang is at stage `st`. -/
structure HoldsRank (s : State) (c : Nat) (g rank : Nat) (x : Gang) (st : GangSt) : Prop where
  gang : (getCore s c).gang = some g
  listed : gangOf s g = some x
  stage : x.st = st
  placed : x.cores.find? (fun p => p.2 = c) = some (rank, c)

/-! ## Translation, ownership and migration (R246 to R269) -/

/-- Die `d` has read entries of the Range Table of 2^n entries at local offset `base`, and nothing else, since `s` (R250). -/
inductive TableRead (s : State) (d base n : Nat) : State → Prop
  | here : TableRead s d base n s
  | read {t : State} {i : Nat} : TableRead s d base n t → i < 2 ^ n → TableRead s d base n (sysRead t d (base + 32 * i) 32).2.2

/-- The table holds the entries `e`: however often they have been read, SYS reads find them (R249, R250). -/
def TableHolds (s : State) (d base n : Nat) (e : Nat → BitVec 256) : Prop :=
  ∀ t, TableRead s d base n t → ∀ i < 2 ^ n, (sysRead t d (base + 32 * i) 32).1 = St.ok ∧ (sysRead t d (base + 32 * i) 32).2.1 = (e i).toNat

/-- The valid driver rule of R249: START does not fall in index order over all slots. -/
def StartsRise (n : Nat) (e : Nat → BitVec 256) : Prop := ∀ i j, i ≤ j → j < 2 ^ n → reStart (e i) ≤ reStart (e j)

/-- No buffer of the package holds an entry of context `x` that `s` did not hold, and the lookaside buffers of the hub and of every
core hold none of it at all (R256 step 2). -/
def BuffersDrop (s t : State) (x : Nat) : Prop :=
  t.hlb = s.hlb.filter (fun l => l.ctx ≠ x) ∧ ∀ c, (getCore t c).rlb = (getCore s c).rlb.filter fun l => l.ctx ≠ x

/-- Whether a local line key lies in the granules from `lo` on, `n` of them, of this package. -/
def CopyFree (s : State) (lo n : Nat) : Prop :=
  ∀ u < 8, (∀ l ∈ (getTower s u).rlc, inSpan s l.line lo n = false) ∧ (∀ l ∈ (getTower s u).home, inSpan s l.line lo n = false) ∧
    ∀ l ∈ (getTower s u).victim, inSpan s l.line lo n = false

/-- No access of a core waits for the page of migration `m`. -/
def NoCoreWaits (s : State) (m : Migr) : Prop :=
  ∀ c, (∀ a ∈ (getCore s c).accs, waitsFor m a.x = false) ∧ waitsFor m (getCore s c).fetchX = false ∧
    ∀ a, flagAcc (getCore s c) = some a → waitsFor m a.x = false

/-! ## Memory units, links and caches (R20 to R31, R271 to R304) -/

/-- What a report may change of the package: records in the mailboxes and the persistent store, interrupts, and events in the rings of
contexts with the accesses to memory that they make. Cores, queues, gangs, pools and every unit stand. -/
def ReportSide (s t : State) : Prop :=
  t = { s with free := t.free, ctxs := t.ctxs, lateEv := t.lateEv, mem := t.mem, lost := t.lost, restored := t.restored, hlb := t.hlb,
               hubX := t.hubX, migr := t.migr, towers := t.towers, span := t.span, host := t.host, store := t.store, key := t.key,
               pins := t.pins }

/-- What the guilt of queues and the retirement of a core may change besides: cores, queues, gangs and pools. -/
def BlameSide (s t : State) : Prop :=
  t = { s with free := t.free, cores := t.cores, queues := t.queues, ctxs := t.ctxs, gangs := t.gangs, pools := t.pools,
               epochDue := t.epochDue, lateEv := t.lateEv, mem := t.mem, lost := t.lost, restored := t.restored, hlb := t.hlb,
               hubX := t.hubX, migr := t.migr, towers := t.towers, span := t.span, host := t.host, store := t.store, key := t.key,
               pins := t.pins }

/-- What a record without an event to a context may change: the mailboxes, the persistent store and interrupts. -/
def RasSide (s t : State) : Prop := t = { s with host := t.host, store := t.store, key := t.key, pins := t.pins }

/-- Events of kind `k` that a history still counts at `now`, within `span` ns, with the one that happens then. -/
def countWithin (h : List (Nat × Nat)) (k now span : Nat) : Nat :=
  (h.filter fun e => decide (now < e.2 + span) && decide (e.1 = k)).length + 1

/-- Of the package only HBM channel `c`, Mortar field `f`, Lintel link `l` or tower `u` changes. -/
structure SetsHbm (s t : State) (c : Nat) (k : HbmChan) : Prop where
  package : t = { s with hbm := t.hbm }
  channel : getHbm t c = k
  others : ∀ d, d ≠ c → getHbm t d = getHbm s d
structure SetsMortar (s t : State) (f : Nat) (k : Mortar) : Prop where
  package : t = { s with mortar := t.mortar }
  field : getMortar t f = k
  others : ∀ d, d ≠ f → getMortar t d = getMortar s d
structure SetsLintel (s t : State) (l : Nat) (k : Lintel) : Prop where
  package : t = { s with lintel := t.lintel }
  link : getLintel t l = k
  others : ∀ d, d ≠ l → getLintel t d = getLintel s d
structure SetsTower (s t : State) (u : Nat) (k : TowerSt) : Prop where
  package : t = { s with towers := t.towers }
  tower : getTower t u = k
  others : ∀ d, d ≠ u → getTower t d = getTower s d

/-- A row of a channel needs remapping: it waits for ROW_REMAP, or the channel is due for retirement, its 64 entries being in use
(Table 9.8). -/
structure RowDue (h h' : HbmChan) (row : Nat) : Prop where
  waits : h.remaps.length < 64 → row ∈ h'.needRemap
  full : 64 ≤ h.remaps.length → row ∉ h.needRemap → h'.retireDue = true

/-- The lines of tower `u`'s RLC that context `x` wrote last are clean (R303). -/
def Flushed (s : State) (x : Nat) : Prop := ∀ u < 8, ∀ l ∈ (getTower s u).rlc, l.ctx = x → l.dirty = false

/-! ## Span (R305 to R344) -/

/-- Of the package only Span port `p` changes, to `k`. -/
structure SetsPort (s t : State) (p : Nat) (k : PortSt) : Prop where
  package : t = { s with span := { s.span with ports := t.span.ports } }
  port : getPort t p = k
  others : ∀ q, q ≠ p → getPort t q = getPort s q

/-- Of the package at most Span port `p`, the source of the Plumb count and what a record may change differ. -/
structure PortSide (s t : State) (p : Nat) : Prop where
  package : t = { s with span := { s.span with ports := t.span.ports }, plumb := t.plumb, host := t.host, store := t.store, key := t.key,
                         pins := t.pins }
  others : ∀ q, q ≠ p → getPort t q = getPort s q

/-- Whether a lane may carry traffic: ACTIVE or IDLE. -/
def laneGood (v : LaneSt) : Bool := decide (v = .active ∨ v = .idle)

/-- Whether lane `m` is good at the other end of a port, as far as this end knows. -/
def peerGood (k : PortSt) (m : Nat) : Bool := (k.peer.map fun x => bt x.good m).getD true

/-- The lanes `f` of this end, of which `g` says which are good at the other end, form the width of code `w` under a largest width
`maxw`: no wider one has that many lanes good at both ends; the lowest of these are ACTIVE and the other good ones IDLE (R311). -/
structure FormedAt (f : Nat → LaneSt) (g : Nat → Bool) (maxw w : Nat) (k : PortSt) : Prop where
  code : maxw ≤ w ∧ w < 4
  enough : 8 / 2 ^ w ≤ ((List.range 8).filter fun m => laneGood (f m) && g m).length
  widest : ∀ v, maxw ≤ v → v < w → ((List.range 8).filter fun m => laneGood (f m) && g m).length < 8 / 2 ^ v
  width : k.width.toNat = w
  lanes : ∀ m < 8, laneOf k m = if laneGood (f m) then
    (if g m ∧ ((List.range m).filter fun i => laneGood (f i) && g i).length < 8 / 2 ^ w then .active else .idle) else f m

/-- The lanes of a port once training or a whole-port retrain passes: those in RETRAIN are good again (R319). -/
def lanesBack (k : PortSt) (m : Nat) : LaneSt := match laneOf k m with
  | .retrain _ => .idle
  | .active => .active
  | .idle => .idle
  | .retired => .retired

/-- A route switch: ACTEP flips, PEND clears, the old bank drains from now on, and HELD ports are UP (R329, R330). -/
structure Switched (s t : State) : Prop where
  package : t = { s with span := { s.span with actep := !s.span.actep, pend := false, rtbusy := true, drainFrom := some s.now,
                                               ports := t.span.ports } }
  held : ∀ q < 18, (getPort t q).st = if (getPort s q).st = .held then .up else (getPort s q).st

/-- The end of a remote request of this user, with OK or with another code, has no effect beyond the request's own leaving of the list:
its data go to the engine or to the Mason alone. -/
def quietUser (u : RemUser) (ok : Bool) : Bool :=
  match u with
  | .seq _ _ | .send _ => false
  | .store _ _ _ | .dma _ _ _ | .mason true _ => ok
  | .mason false _ | .wback _ | .answered => true

/-- The state with remote request `r` gone from the list of those in flight, and from what is still to be sent (R336, R337). -/
def withoutReq (s : State) (r : RemReq) : State :=
  { s with span := { s.span with
    reqs := s.span.reqs.filter fun x => x.tag ≠ r.tag, sent := s.span.sent.filter fun k => ¬ (k.1.tag = r.tag ∧ pktIsReq k.1 = true) } }

/-- A remote request is over with a code and data: a quiet user's leaves the list and changes nothing else of the Span; an access of a
sequencer completes by them (R147, R336, R337). -/
def Answered (s t : State) (r : RemReq) (code : Code) (data : List Byte) : Prop :=
  (quietUser r.user (decide (code = St.ok)) = true → t.span = (withoutReq s r).span) ∧
    (∀ c id a, r.user = .seq c id → (getCore s c.val).accs.find? (fun a => a.id = id) = some a →
      t = completeAcc (withoutReq s r) c.val a (if code = St.ok then .ok data else .fail code)) ∧
    (∀ a, r.user = .mason false a → t.host.masonFault = decide (code ≠ St.ok) ∧ t.host.masonData = if code = St.ok then data else []) ∧
    ∀ c ch va, r.user = .dma c ch va → code = St.ok → t.cores = s.cores

/-- Of the Span at most its ports and what is on its way differ. -/
def SpanSide (s t : State) : Prop :=
  t = { s with span := { s.span with ports := t.span.ports, sent := t.span.sent, delivered := t.span.delivered, reqs := t.span.reqs } }

/-- A packet that has waited since `since` and came by input `inp` stands last in the output queue of port `q`, which then sends what
it may (R316, R324). -/
def QueuedOn (s t : State) (q : Nat) (x : SpanPkt) (since inp : Nat) : Prop :=
  getPort t q = pump s.plumb.count { getPort s q with outq := (getPort s q).outq ++ [(x, since, inp)] } ∧
    ∀ r, r ≠ q → getPort t r = getPort s r

/-- A request of packet `k` was served in state `z` with a code and data: its response is on its way from a state that serving `k`
left (R322, R337). -/
def Responds (z t : State) (k : SpanPkt) (code : Code) (data : List Byte) : Prop :=
  t = { z with span := { z.span with sent := z.span.sent ++ [(responseTo z k code data, z.now)] } }

/-- The interval of every port has ended: the ports begin new means, and the mean of each goes to its neighbour (R340). -/
structure IntervalEnds (s t : State) : Prop where
  package : t = { s with free := t.free, span := { s.span with ports := t.span.ports } }
  means : ∀ q < 18, (getPort t q).stampSum = 0 ∧ (getPort t q).stampCnt = 0 ∧ (getPort t q).st = (getPort s q).st ∧
    (getPort t q).inbox = (getPort s q).inbox ∧ (getPort t q).outq = (getPort s q).outq

/-- Mailbox page `m` becomes `k`; nothing else changes. -/
structure SetsMbox (s t : State) (m : Nat) (k : Mbox) : Prop where
  rest : t = { s with key := { s.key with mb := t.key.mb } }
  page : getMbox t m = k
  others : ∀ i, i ≠ m → getMbox t i = getMbox s i

/-- One RAS record reached all four rings of `t`: the record follows the last one, or is counted in a full ring (R14, R421). -/
structure RasReported (s t : State) (code : Code) (kind : Nat) (unit : BitVec 32) (detail : Nat) : Prop where
  side : RasSide s t
  room : ∀ m < 4, (let k := getMbox s m
    (bf k.ras 31 16 + 65536 - bf k.ras 15 0) % 65536 < 32 →
      getMbox t m = { k with
        page := wrN k.page (0xC00 + 32 * (bf k.ras 31 16 % 32)) (rasBytes s code kind 0xFFFF unit 0xFFFF detail),
        ras := sf k.ras 31 16 (bf k.ras 31 16 + 1) })
  full : ∀ m < 4, (let k := getMbox s m
    32 ≤ (bf k.ras 31 16 + 65536 - bf k.ras 15 0) % 65536 →
      getMbox t m = { k with rasx := sb (sf k.rasx 15 0 (min 65535 (bf k.rasx 15 0 + 1))) 31 true })
  counts : t.key.rseq = s.key.rseq + 1

/-- The mailboxes whose order the next arbitration slot takes, in execution order (R404). -/
def takenNext (s : State) : List Nat := [3, 2, 1, 0].filter (mayTake s)

/-- The order of mailbox `m` is taken into `o`: PEND and DONE clear, BUSY is set, and ALEN bytes of ARG are copied, each as it stands
or as GO found it (R400). -/
structure TakenFrom (s t : State) (m : Nat) (o : Order) : Prop where
  page : getMbox t m = { getMbox s m with rsp := sb (sf (getMbox s m).rsp 2 0 0) 1 true }
  words : o.mb = m ∧ o.group.toNat = bf (getMbox s m).cmd 63 56 ∧ o.verb.toNat = bf (getMbox s m).cmd 55 48 ∧
    o.persist = bt (getMbox s m).cmd 47 ∧ o.offline = bt (getMbox s m).cmd 46 ∧ o.seq.toNat = bf (getMbox s m).cmd 31 16
  length : o.args.length = bf (getMbox s m).cmd 43 32
  args : ∀ i, (h : i < o.args.length) → o.args[i] = mbByte (getMbox s m) (0x040 + i) ∨
    o.args[i] = mbByte { getMbox s m with page := (getMbox s m).snap } (0x040 + i)

/-- The answer of an order stands on its page: DONE, its words, a code, a refusal and a result (R400). -/
structure AnsweredWith (t : State) (o : Order) (code : Code) (refuse : BitVec 8) (res : List Byte) : Prop where
  flags : bf (getMbox t o.mb).rsp 3 0 = 1
  words : bf (getMbox t o.mb).rsp 63 56 = o.group.toNat ∧ bf (getMbox t o.mb).rsp 55 48 = o.verb.toNat ∧
    bf (getMbox t o.mb).rsp 31 16 = o.seq.toNat
  code : bf (getMbox t o.mb).rsp 47 40 = code.toNat ∧ bf (getMbox t o.mb).rsp 39 32 = refuse.toNat
  result : res.length < 2049 → bf (getMbox t o.mb).rsp 15 4 = res.length ∧
    ∀ i, (h : i < res.length) → mbByte (getMbox t o.mb) (0x400 + i) = res[i]

/-- Power domain `d` becomes `k`; of the power controller nothing else changes, nor of the package but what `rest` leaves open. -/
structure SetsDom (s t : State) (d : Nat) (k : Dom) : Prop where
  power : t.power = { s.power with doms := t.power.doms, groups := t.power.groups }
  dom : getDom t d = k
  others : ∀ i, i ≠ d → getDom t i = getDom s i

/-- Core group `g`'s clock becomes `k` (R368). -/
structure SetsGroup (s t : State) (g : Nat) (k : GroupClk) : Prop where
  rest : t = { s with towers := t.towers, power := { s.power with groups := t.power.groups } }
  group : getGroup t g = k
  others : ∀ i, i ≠ g → getGroup t i = getGroup s i

/-- The package enters Buttress: idle groups run at 0.40 GHz, busy ones wait with their slots held, the Mason clusters and the HBM
controllers are slowed, and one record is reported (R373, R374). -/
structure EntersButtress (s t : State) : Prop where
  flags : t.power.buttress = true ∧ t.power.masonSlow = true ∧ t.power.hbmSlow = true ∧ t.power.highSince = none
  idle : ∀ g < 64, groupBusy s g = false → (getGroup t g).step = 0 ∧ (getGroup t g).target = 0 ∧ (getGroup t g).blocked = false
  busy : ∀ g < 64, groupBusy s g = true → getGroup t g = { getGroup s g with target := 0, blocked := true }
  report : ∃ z, z = { s with towers := z.towers, power := z.power } ∧ RasReported z t St.buttressEntered 6 (unitId s 0 0) 0

/-- The state of a core whose group has lost its power: nothing of its contents remains (Table 12.2, R375). -/
def coreDark (s t : State) (c : Nat) : Prop :=
  (getCore t c).phase = .powerClaimed ∧ (getCore t c).gang = none ∧ (getCore t c).mem = {} ∧ (getCore t c).regs = {} ∧
    (getCore t c).retired = (getCore s c).retired

/-- The sum of the tower budgets (R370). -/
def budgetSum (s : State) : Rat := ((List.range 8).map fun t => (getTower s t).budget).sum

/-- Module channel `k` becomes `m`; nothing else changes (R377). -/
structure SetsMod (s t : State) (k : Nat) (m : Mod) : Prop where
  rest : t = { s with power := { s.power with mods := t.power.mods } }
  channel : getMod t k = m
  others : ∀ i, i ≠ k → getMod t i = getMod s i

/-- Channel `k` latches with a cause: its gate is off, the latch is timed and reported, and no other channel changes but for the end of
a pause (R378, R379). -/
structure Latches (s t : State) (k : Nat) (cause : BitVec 2) : Prop where
  channel : getMod t k = { getMod s k with
    st := .latched, cause := cause, latchedAt := s.now, paused := false, inLimit := false, extended := false }
  others : ∀ i < 18, i ≠ k → (getMod t i).st = (getMod s i).st ∧ (getMod t i).retries = (getMod s i).retries ∧
    (getMod t i).cause = (getMod s i).cause ∧ (getMod t i).en = (getMod s i).en
  report : ∃ z, RasReported z t St.modShort 6 (unitId s 0xD k) 0

/-- The RAMP channels of the group of channel `k` other than it (R379). -/
def rampsBeside (s : State) (k : Nat) : List Nat := (groupOthers k).filter fun j => (getMod s j).st = .ramp

/-- Reset is asserted in `t`: every volatile field is at its reset value; the persistent store stays but for an update in progress, the
regulators hold their set points, and VMOD and the pads that others drive are as they were (R383, R384, R394). -/
structure ResetHeld (s t : State) : Prop where
  volatile : t = { State.reset with
    now := s.now, free := s.free, pending := s.pending, store := t.store, rst := t.rst, towers := t.towers, power := t.power, pins := t.pins }
  release : t.rst.stage = 0 ∧ t.rst.done = false ∧ t.rst.memDone = false ∧ t.rst.recovery = false ∧ t.rst.off = false ∧ t.rst.softDue = none
  store : t.store = { s.store with pend := [], sincePwr := t.store.sincePwr }
  power : t.power = { vmodOk := s.power.vmodOk }
  pins : t.pins = { dbgEn := s.pins.dbgEn, i3cStrap := s.pins.i3cStrap, butLow := s.pins.butLow, resetLow := s.pins.resetLow }

/-- Source `src` is recognised: reset is asserted and stays so while it is active, and the record counts it, names it and keeps its
SEEN bit and the STAGE it met; of several sources of one cycle the record counts one and LAST is the lowest code (R381, R385; that the
cycle counts once is log entry 59). -/
structure Recognised (s t : State) (src : Nat) : Prop where
  held : ResetHeld s t
  regulators : ∀ u < 8, (getTower t u).vset = (getTower s u).vset
  active : src ∈ t.rst.active ∧ ∀ a ∈ s.rst.active, a ∈ t.rst.active
  count : bf t.rst.cause0 31 24 = if sameCycle s then bf s.rst.cause0 31 24 else min 255 (bf s.rst.cause0 31 24 + 1)
  last : bf t.rst.cause0 23 20 = if sameCycle s then min src (bf s.rst.cause0 23 20) else src
  seen : ∀ i < 8, bt t.rst.cause0 i = (decide (i = src) || bt s.rst.cause0 i)
  stage : bf t.rst.cause1 23 20 = if sameCycle s then bf s.rst.cause1 23 20 else s.rst.stage % 16
  since : t.rst.since = (s.rst.since.filter fun p => decide (p.1 ≠ src)) ++ [(src, s.now)]
  retired : t.store.sincePwr = s.store.sincePwr

/-- The orders of Tables 14.10 to 14.19 without a choice of their own: command, GROUP, VERB and the Access column (R401, R408). -/
def rowsOrder : List (Instr × Nat × Nat × Right) :=
  [(.sysInfo, 1, 1, .r), (.sysCause, 1, 2, .r), (.sysReset, 1, 3, .w), (.sysOffline, 1, 4, .w), (.sysDrv, 1, 5, .w0), (.sysM3, 1, 6, .w0),
    (.sysSetread, 1, 7, .r), (.pwrCap, 2, 1, .w), (.pwrFreq, 2, 2, .w), (.pwrDomain, 2, 3, .w), (.pwrStatus, 2, 4, .r)]
  ++ [(.thmCoolant, 3, 1, .w), (.thmStatus, 3, 2, .r), (.memIntlv, 4, 1, .w), (.memQkind, 4, 2, .w), (.memStatus, 4, 3, .r),
    (.spanId, 5, 1, .w), (.spanPorts, 5, 2, .w), (.spanPlumb, 5, 3, .w), (.spanPortclr, 5, 4, .w), (.spanSend, 5, 5, .w0)]
  ++ [(.spanRoute, 5, 6, .w), (.spanSwitch, 5, 7, .w), (.spanCtl, 5, 8, .w), (.spanStatus, 5, 9, .r), (.calRead, 6, 1, .r),
    (.calVoff, 6, 2, .w), (.calAsym, 6, 3, .w), (.calHbm, 6, 4, .w), (.calClear, 6, 5, .w0), (.fwActivate, 7, 3, .w)]
  ++ [(.fwCommit, 7, 4, .w), (.fwStatus, 7, 5, .r), (.rasRead, 8, 1, .r), (.rasRetire, 8, 2, .w), (.rasClear, 8, 3, .w0),
    (.testCfg, 9, 1, .w), (.testRun, 9, 2, .w), (.testStatus, 9, 3, .r), (.modSet, 10, 1, .w), (.modClr, 10, 2, .w), (.modStatus, 10, 3, .r)]

/-- The batch holds the one order `o`, of verb `v` of group `g`, which Keystone now executes, and which passes the checks of permission and
of the package's state (R401, R403, R404, R410). -/
structure Sole (s : State) (o : Order) (g v : Nat) (right : Right) : Prop where
  batch : s.key.batch = [o] ∧ s.key.batchDone = []
  fresh : o.busy = false ∧ o.started = false ∧ o.code = St.ok ∧ o.refuse = 0 ∧ o.res = []
  runs : s.key.halted = false
  verb : o.group.toNat = g ∧ o.verb.toNat = v
  right : permitted s o.mb right = true
  state : stateRefuses s o = false ∧ (o.persist = true → s.key.trial = false)

/-- Order `o`, the last of its batch, has had its effect in `z` and is answered: beyond its page only an interrupt and the end of the
batch are added (R400, R404). -/
structure Ends (z t : State) (o : Order) (code : Code) (refuse : BitVec 8) (res : List Byte) : Prop where
  answer : AnsweredWith t o code refuse res
  side : t = { z with
    host := t.host
    pins := t.pins
    key := { z.key with mb := t.key.mb, batch := [], batchDone := [], handover := t.key.handover } }
  others : ∀ m, m ≠ o.mb → getMbox t m = getMbox z m

/-- Order `o` waits at the head of its batch for an update of the store that it asked for, the last of those waiting (R395, R410). -/
structure Stores (z t : State) (o : Order) (op : StoreOp) : Prop where
  side : t = { z with
    store := t.store
    key := { z.key with batch := t.key.batch } }
  waits : ∃ w, t.key.batch = [{ o with busy := true, wrote := w }]
  update : t.store.pend.map (fun u => u.op) = z.store.pend.map (fun u => u.op) ++ [op] ∧
    t.store.pend.getLast?.map (fun u => u.order) = some (some o.mb)

/-- The order's live change stands in `z`; with PERSIST it then writes the settings record with `v`, and is answered only after (R410). -/
def Settles (z t : State) (o : Order) (v : Settings) : Prop :=
  (o.persist = false → Ends z t o St.ok 0 []) ∧
    (o.persist = true → ∃ r, r.val = v ∧ r.sver = z.key.sver ∧ Stores z t o (.settings z.rst.slot r))

/-- Order `o`, the last of its batch, has only started: it waits among the started orders, and its page is not touched (R404). -/
structure Begins (z t : State) (o : Order) : Prop where
  side : t = { z with
    key := { z.key with batch := [], batchDone := [], pending := t.key.pending, handover := t.key.handover } }
  waits : ∃ p, t.key.pending = z.key.pending ++ [p] ∧ p.mb = o.mb ∧ p.group = o.group ∧ p.verb = o.verb ∧ p.seq = o.seq ∧
    p.args = o.args ∧ p.offline = o.offline ∧ p.started = true ∧ p.busy = false ∧ p.since = z.now ∧ p.code = St.ok

/-- The started order `o` completes: it waits no more, and is answered with its result; no other page changes (R404, R405). -/
structure LateAnswer (s t : State) (o : Order) (res : List Byte) : Prop where
  gone : t.key.pending = s.key.pending.filter fun p => decide (p.mb ≠ o.mb)
  answer : AnsweredWith t o (if o.code = St.superseded then St.superseded else St.ok) 0 res
  others : ∀ m, m ≠ o.mb → getMbox t m = getMbox s m

/-- An update of the store for Keystone itself is the last of those waiting. -/
def asksStore (z t : State) (op : StoreOp) : Prop :=
  t.store.pend.map (fun u => u.op) = z.store.pend.map (fun u => u.op) ++ [op]

/-- The body sectors of 64 KiB that a write of `n` bytes at body offset `off` reaches, the header's sector before the body included. -/
def reaches (off n x : Nat) : Prop := (0x1000 + off) / 65536 ≤ x ∧ x ≤ (0x1000 + off + n - 1) / 65536

end Sys2Proof.Machine
end

