-- ==== Sys2Proof/Certificates/Slice0/Obligations.lean ====
section
/-!
DEFINITION. The statements for the provers. Each docstring says what its statement states, and names the rules of the manual on
which it rests; it does not claim more of those rules than its own words say.
-/

open Sys2Proof Sys2Proof.Machine

/-! ## The machine as a whole -/

/-- Right after reset everything that State keeps sparsely is in canonical form.
The sparse tables are the model's own (log entry 4). -/
def Obligations.ResetCanonical : Prop := Canonical State.reset

/-- Every step keeps the canonical form: a command at the front of the queue, and the nanosecond of an empty queue.
The sparse tables and the nanosecond are the model's own (log entries 2 and 4). -/
def Obligations.StepKeepsCanonical : Prop := ∀ s t : State, Canonical s → step s = .next t → Canonical t

/-- A step with command `i` in front of the queue is `exec` of `i` on the state with the rest of the queue.
The queue is the model's own (log entry 2). -/
def Obligations.StepTakesTheFrontCommand : Prop :=
  ∀ (i : Instr) (rest : List Instr) (s : State), s.pending = i :: rest → step s = exec i { s with pending := rest }

/-- No command touches the commands that wait behind it, nor the model's clock: after a step that took command `i` the queue is its
rest.
Queue and clock are the model's own (log entry 2). -/
def Obligations.CommandsLeaveQueueAndClock : Prop :=
  ∀ (i : Instr) (s t : State), exec i s = .next t → t.pending = s.pending ∧ t.now = s.now

/-- Every command has an effect or none: none ends the machine by a fault and none is refused.
That no command stops the machine is the model's choice (log entries 8 and 70). -/
def Obligations.EveryCommandAnswers : Prop := ∀ (i : Instr) (s : State), ∃ t, exec i s = .next t

/-! ## The scalar instructions (R135, R136, Table 5.3) -/

/-- ADD, SUB, AND, OR, XOR, SLL, SRL, SRA, MUL, MULHU, SLT, SLTU, MIN and MAX: where the core issues, sd takes the function of
Table 5.3 of sa and sb, and nothing else of the package changes but pc. -/
def Obligations.FormatRRuns : Prop :=
  ∀ p ∈ rowsR, ∀ (c : Core) (w : BitVec 56) (s : State), Issues s c (legalR w) [fSD w, fSA w, fSB w] →
    ∃ t, exec (p.1 c w) s = .next t ∧
      WritesScalar s t c.val (fSD w) (p.2 (sreg (getCore s c.val) (fSA w)) (sreg (getCore s c.val) (fSB w)))

/-- ADDI, ANDI, ORI, XORI, SLLI, SRLI, SRAI, SLTI, SLTIU, LIH and LI: where the core issues, sd takes
the function of Table 5.3 of sa and IMM, and nothing else of the package changes but pc; a shift needs IMM 0 to 63, and LI
needs SA 0. -/
def Obligations.FormatIRuns : Prop :=
  (∀ p ∈ rowsI, ∀ (c : Core) (w : BitVec 56) (s : State),
    Issues s c (legalI w && (!p.2.1 || decide (bf w 31 0 ≤ 63))) [fSD w, fSA w] →
    ∃ t, exec (p.1 c w) s = .next t ∧
      WritesScalar s t c.val (fSD w) (p.2.2 (sreg (getCore s c.val) (fSA w)) ((w.extractLsb 31 0).signExtend 64))) ∧
  ∀ (c : Core) (w : BitVec 56) (s : State), Issues s c (legalI w && decide (fSA w = 0)) [fSD w] →
    ∃ t, exec (.li c w) s = .next t ∧ WritesScalar s t c.val (fSD w) ((w.extractLsb 31 0).signExtend 64)

/-- MVSA and MVLC copy an address register and a loop index to sd; ADDA writes an address register, and a write of a0 is discarded;
NOP only moves pc. -/
def Obligations.MovesAndNopRun : Prop :=
  ∀ (c : Core) (w : BitVec 56) (s : State),
    (Issues s c (legalS w) [fSD w] → ∃ t, exec (.mvsa c w) s = .next t ∧
      WritesScalar s t c.val (fSD w) (areg (getCore s c.val) (sAA w))) ∧
    (Issues s c (legalV w) [fSD w] → ∃ t, exec (.mvlc c w) s = .next t ∧
      WritesScalar s t c.val (fSD w) ((lreg (getCore s c.val) (vLC w)).index.setWidth 64)) ∧
    (Issues s c (legalN w) [] → ∃ t, exec (.nop c w) s = .next t ∧
      WritesScalar s t c.val 0 0 ∧ (getCore t c.val).regs.s = (getCore s c.val).regs.s) ∧
    (Issues s c (legalAD w) [adSB w] → ∃ t, exec (.adda c w) s = .next t ∧ OnlyCore s t c.val ∧
      OnlyRegs (getCore s c.val) (getCore t c.val) ∧ PastWord (getCore s c.val) (getCore t c.val) ∧
      (getCore t c.val).regs.s = (getCore s c.val).regs.s ∧
      ∀ i, areg (getCore t c.val) i = if i = adAD w ∧ i ≠ 0 then
        areg (getCore s c.val) (adAA w) + sreg (getCore s c.val) (adSB w) + (w.extractLsb 31 0).signExtend 64
        else areg (getCore s c.val) i)

/-- R135: s0 and a0 read as 0 in every state, and a write to either is discarded. -/
def Obligations.ZeroRegistersReadZero : Prop :=
  ∀ (k : CoreSt) (v : BitVec 64), sreg k 0 = 0 ∧ areg k 0 = 0 ∧ setS k 0 v = k ∧ setA k 0 v = k

/-! ## Branches, jumps and loops (R136, R141, R144, R145) -/

/-- BEQ, BNE, BLT, BGE, BLTU and BGEU: a branch whose condition holds goes 8 × OFF bytes from its own address and ends the loops
whose bodies it leaves; one whose condition fails falls through. With SPEC and PF, one that goes where it is predicted, backward
taken and forward not, may have read the scratchpad for up to four LDS ahead; otherwise nothing is kept (R141, R142). What the core
reads ahead is the model's choice: log entry 11. -/
def Obligations.BranchesRun : Prop :=
  ∀ p ∈ rowsB, ∀ (c : Core) (w : BitVec 56) (s : State), Issues s c (legalB w) [bSA w, bSB w] →
    ∃ t, exec (p.1 c w) s = .next t ∧ OnlyCore { s with free := t.free } t c.val ∧
      getCore t c.val = { getCore s c.val with regs := (getCore t c.val).regs, prefetch := (getCore t c.val).prefetch } ∧
      (getCore t c.val).regs.s = (getCore s c.val).regs.s ∧ (getCore t c.val).regs.a = (getCore s c.val).regs.a ∧
      ReadAhead (getCore s c.val) (getCore t c.val) (decide (bf (getCore s c.val).cr.cfg 1 0 = 3 ∧
        w.getLsbD 31 = p.2 (sreg (getCore s c.val) (bSA w)) (sreg (getCore s c.val) (bSB w)))) ∧
      if p.2 (sreg (getCore s c.val) (bSA w)) (sreg (getCore s c.val) (bSB w)) then
        JumpsTo (getCore s c.val) (getCore t c.val) ((getCore s c.val).regs.pc + 8 * (w.extractLsb 31 0).signExtend 64)
      else PastWord (getCore s c.val) (getCore t c.val)

/-- JAL and JR link the address after them into sd; JR forms its target from sa as it was before. -/
def Obligations.JumpsLink : Prop :=
  ∀ (c : Core) (w : BitVec 56) (s : State),
    (Issues s c (legalJ w) [fSD w] → ∃ t, exec (.jal c w) s = .next t ∧
      Links s t c.val (fSD w) ((getCore s c.val).regs.pc + 8) ∧
      JumpsTo (getCore s c.val) (getCore t c.val) ((getCore s c.val).regs.pc + 8 * (w.extractLsb 31 0).signExtend 64)) ∧
    (Issues s c (legalI w) [fSD w, fSA w] → ∃ t, exec (.jr c w) s = .next t ∧
      Links s t c.val (fSD w) ((getCore s c.val).regs.pc + 8) ∧
      JumpsTo (getCore s c.val) (getCore t c.val)
        ((sreg (getCore s c.val) (fSA w) + (w.extractLsb 31 0).signExtend 64) &&& ~~~7))

/-- R144: a LOOP whose count is not 0 starts its loop at index 0 with the body after it; a count of 0 moves pc past the body, where
no other loop ends. The count is CIMM or the low 32 bits of s[CS]. The word at the body's end does not hold the AMM opcode.
The model's choices in it: log entries 15 and 16. -/
def Obligations.LoopStarts : Prop :=
  ∀ (c : Core) (w : BitVec 56) (s : State) (v : Nat),
    Issues s c (legalL w && loopNests (getCore s c.val) w) (if lCI w then [] else [lCS w]) →
    peekWord s c.val (loopLast (getCore s c.val) w) = some v → v / 2 ^ 56 % 256 ≠ 0x40 →
    ∃ t, exec (.loop c w) s = .next t ∧ OnlyCore s t c.val ∧ OnlyRegs (getCore s c.val) (getCore t c.val) ∧
      (getCore t c.val).regs.s = (getCore s c.val).regs.s ∧ (getCore t c.val).regs.a = (getCore s c.val).regs.a ∧
      LoopRuns (getCore s c.val) (getCore t c.val) (lLC w) (lBlen w)
        (if lCI w then BitVec.ofNat 32 (lCimm w) else (sreg (getCore s c.val) (lCS w)).setWidth 32)

/-- R144, R145: when the last word of a loop's body completes without a jump (here a NOP), the innermost loop on that word makes
another pass while index + 1 < count, else it ends; an outer loop on the same word advances only when the inner one has ended.
The model's choices in it: log entry 16. -/
def Obligations.LoopEnds : Prop :=
  ∀ (c : Core) (s : State) (i : Nat), Issues s c true [] → InnermostEnds (getCore s c.val) i →
    ∃ t, exec (.nop c 0) s = .next t ∧ OnlyCore s t c.val ∧ OnlyRegs (getCore s c.val) (getCore t c.val) ∧
      if (lreg (getCore s c.val) i).index.toNat + 1 < (lreg (getCore s c.val) i).count.toNat then
        AnotherPass (getCore s c.val) (getCore t c.val) i ∧ ∀ j, j ≠ i → lreg (getCore t c.val) j = lreg (getCore s c.val) j
      else lreg (getCore t c.val) i = { lreg (getCore s c.val) i with active := false } ∧
        ((∀ j < 4, j ≠ i → (lreg (getCore s c.val) j).active = true →
          (lreg (getCore s c.val) j).last ≠ (lreg (getCore s c.val) i).last) →
          (getCore t c.val).regs.pc = normPc (getCore s c.val) ((getCore s c.val).regs.pc + 8)) ∧
        ∀ j < 4, j ≠ i → (lreg (getCore s c.val) j).active = true →
          (lreg (getCore s c.val) j).last = (lreg (getCore s c.val) i).last →
          (∀ l < 4, l ≠ i → l ≠ j → (lreg (getCore s c.val) l).active = false) →
          (lreg (getCore s c.val) j).index.toNat + 1 < (lreg (getCore s c.val) j).count.toNat →
          AnotherPass (getCore s c.val) (getCore t c.val) j

/-! ## Decode faults, memory accesses and waits (R137, R138, R146 to R157) -/

/-- R138: a word whose reserved fields, or fields that must be 0, are not 0, or with a reserved value, ends the kernel with
ILLEGAL_OP and has no other effect. -/
def Obligations.IllegalWordsEndTheKernel : Prop :=
  ∀ p ∈ rowsLegal, ∀ (c : Core) (w : BitVec 56) (s : State), canIssue (getCore s c.val) = true → p.2 w = false →
    ∃ t, exec (p.1 c w) s = .next t ∧ OnlyCore s t c.val ∧ canIssue (getCore t c.val) = false ∧
      FaultRecorded (getCore s c.val) (getCore t c.val) St.illegalOp 0 0 (getCore s c.val).regs.pc 0

/-- R138, R145: a LOOP with a field that must be 0, one whose body ends after that of an active loop around it, and one whose body's
last word holds the AMM opcode in its top byte end the kernel with ILLEGAL_OP and have no other effect. -/
def Obligations.IllegalLoopsEndTheKernel : Prop :=
  ∀ (c : Core) (w : BitVec 56) (s : State), canIssue (getCore s c.val) = true →
    (legalL w = false ∨ loopNests (getCore s c.val) w = false ∨
      ((lCI w = true ∨ busyReg (getCore s c.val) (lCS w) = false) ∧
        ∃ v, peekWord s c.val (loopLast (getCore s c.val) w) = some v ∧ v / 2 ^ 56 % 256 = 0x40)) →
    ∃ t, exec (.loop c w) s = .next t ∧ OnlyCore s t c.val ∧ canIssue (getCore t c.val) = false ∧
      FaultRecorded (getCore s c.val) (getCore t c.val) St.illegalOp 0 0 (getCore s c.val).regs.pc 0

/-- LDS loads SIZE bytes of the scratchpad, sign-extended under SX; STS stores SIZE bytes of sd there, and leaves every other byte of
the scratchpad, every register but pc and everything else alone. The address is a[AR] + IMM, aligned down and modulo 4 MiB. An LDS
that its branch has read ahead takes that value, which then leaves the prefetch buffer (R143). -/
def Obligations.ScratchpadAccessesRun : Prop :=
  ∀ (c : Core) (w : BitVec 56) (s : State),
    (Issues s c (legalM w false) [fSD w] → ∀ p, prefetched (getCore s c.val) w = some p → ∃ t, exec (.lds c w) s = .next t ∧
      WritesScalar (setCore s c.val (dropPrefetched (getCore s c.val) w)) t c.val (fSD w) p.value) ∧
    (Issues s c (legalM w false) [fSD w] → prefetched (getCore s c.val) w = none →
      ∃ t, exec (.lds c w) s = .next t ∧ WritesScalar s t c.val (fSD w)
      (if mSX w then (BitVec.ofNat (8 * 2 ^ mSize w)
          (leNat (spadRd (getCore s c.val).mem.spad (spadEa (getCore s c.val) w) (2 ^ mSize w)))).signExtend 64
        else BitVec.ofNat 64 (leNat (spadRd (getCore s c.val).mem.spad (spadEa (getCore s c.val) w) (2 ^ mSize w))))) ∧
    (Issues s c (legalM w true) [fSD w] → ∃ t, exec (.sts c w) s = .next t ∧ OnlyCore s t c.val ∧
      getCore t c.val = { getCore s c.val with regs := (getCore t c.val).regs, mem := { (getCore s c.val).mem with
        spad := (getCore t c.val).mem.spad } } ∧
      (getCore t c.val).regs.s = (getCore s c.val).regs.s ∧ (getCore t c.val).regs.a = (getCore s c.val).regs.a ∧
      PastWord (getCore s c.val) (getCore t c.val) ∧
      (∀ j < 2 ^ mSize w, rd8 (getCore t c.val).mem.spad (spadEa (getCore s c.val) w + j) =
        (sreg (getCore s c.val) (fSD w)).extractLsb' (8 * j) 8) ∧
      ∀ a, (a < spadEa (getCore s c.val) w ∨ spadEa (getCore s c.val) w + 2 ^ mSize w ≤ a) →
        rd8 (getCore t c.val).mem.spad a = rd8 (getCore s c.val).mem.spad a)

/-- LD, ST and AMO join the outstanding accesses of the core while fewer than 16 of its sequencer and 1,024 of the core are out, and pc
moves on; an access whose page is not in the Range Lookaside Buffer waits for its search (R146, R148, R252).
The model's choices in it: log entry 13. -/
def Obligations.MemoryAccessesIssue : Prop :=
  ∀ (c : Core) (w : BitVec 56) (s : State), isDirect (getCore s c.val) = false → seqOut s c.val < 16 → coreOut s c.val < 1024 →
    (Issues s c (legalM w false) [fSD w] → lbFind (getCore s c.val).rlb (getCore s c.val).ctx ((virtEa (getCore s c.val) w).toNat / 4096) = none →
      ∃ t, exec (.ld c w) s = .next t ∧ AccessJoins s t c.val
        { id := (getCore s c.val).nextAcc, kind := .load, va := virtEa (getCore s c.val) w, size := 2 ^ mSize w,
          sd := BitVec.ofNat 5 (fSD w), sx := mSX w, func := 0, data := 0, cmp := 0, pc := (getCore s c.val).regs.pc, x := .miss,
          issued := s.now }) ∧
    (Issues s c (legalM w true) [fSD w] → lbFind (getCore s c.val).rlb (getCore s c.val).ctx ((virtEa (getCore s c.val) w).toNat / 4096) = none →
      ∃ t, exec (.st c w) s = .next t ∧ AccessJoins s t c.val
        { id := (getCore s c.val).nextAcc, kind := .store, va := virtEa (getCore s c.val) w, size := 2 ^ mSize w, sd := 0, sx := false,
          func := 0, data := sreg (getCore s c.val) (fSD w), cmp := 0, pc := (getCore s c.val).regs.pc, x := .miss,
          issued := s.now }) ∧
    (Issues s c (legalA w) [fSD w, amSB w, amSC w] →
      lbFind (getCore s c.val).rlb (getCore s c.val).ctx ((alignTo (areg (getCore s c.val) (mAR w)) (2 ^ mSize w)).toNat / 4096) = none →
      ∃ t, exec (.amo c w) s = .next t ∧ AccessJoins s t c.val
        { id := (getCore s c.val).nextAcc, kind := .atomic, va := alignTo (areg (getCore s c.val) (mAR w)) (2 ^ mSize w), size := 2 ^ mSize w,
          sd := BitVec.ofNat 5 (fSD w), sx := false, func := BitVec.ofNat 4 (amFunc w), data := sreg (getCore s c.val) (amSB w),
          cmp := sreg (getCore s c.val) (amSC w), pc := (getCore s c.val).regs.pc, x := .miss, issued := s.now })

/-- SEQ_ACCESS_COMPLETE of a load gives its register the bytes that memory holds; of a store puts its bytes into the combining
buffer; of an atomic writes the new value of Table 5.4 at the home and returns the old one; nothing else of memory changes: for
accesses to plain local memory to which a reply comes. An access that faults ends the kernel with its code (R137, R147, R149).
The model's choices in it: log entries 5 and 82. -/
def Obligations.AccessesComplete : Prop :=
  ∀ (c : Core) (s : State) (i : Nat) (a : Access) (r : Reply) (o : Nat), r ≠ .fail St.remoteTimeout →
    (PlainAccess s c.val i a o → a.kind = .load → ∃ t, exec (.seqAccessComplete c (.data i) r) s = .next t ∧ t.mem = s.mem ∧
      AccessLeaves s t c.val a ∧ (∀ n, sreg (getCore t c.val) n = if n = a.sd.toNat ∧ n ≠ 0
        then loadVal a.size a.sx (rdN s.mem o a.size) else sreg (getCore s c.val) n)) ∧
    (PlainAccess s c.val i a o → a.kind = .store → 1 ≤ a.size → a.size ≤ 8 → ∃ t, exec (.seqAccessComplete c (.data i) r) s = .next t ∧
      t.mem = s.mem ∧ AccessLeaves s t c.val a ∧ (∀ n, sreg (getCore t c.val) n = sreg (getCore s c.val) n) ∧
      ∃ l, (getCore t c.val).comb = [l] ∧ l.line = lineKey s o ∧ l.nc = true ∧
        ∀ j < a.size, tget none l.bytes (o % 64 + j) = some (a.data.extractLsb' (8 * j) 8)) ∧
    (PlainAccess s c.val i a o → a.kind = .atomic → a.size = 4 ∨ a.size = 8 → ∃ t, exec (.seqAccessComplete c (.data i) r) s = .next t ∧
      AccessLeaves s t c.val a ∧
      (∀ n, sreg (getCore t c.val) n = if n = a.sd.toNat ∧ n ≠ 0 then BitVec.ofNat 64 (leNat (rdN s.mem o a.size))
        else sreg (getCore s c.val) n) ∧
      rdN t.mem o a.size = toLe a.size (amoNew a.func.toNat a.size (leNat (rdN s.mem o a.size)) a.data.toNat a.cmp.toNat) ∧
      ∀ x, (x < o ∨ o + a.size ≤ x) → rd8 t.mem x = rd8 s.mem x) ∧
    (∀ code cause, (getCore s c.val).accs[i]? = some a → a.x = .fault code cause → (getCore s c.val).fault = none →
      ∃ t, exec (.seqAccessComplete c (.data i) r) s = .next t ∧ OnlyCore s t c.val ∧
        FaultRecorded { getCore s c.val with accs := (getCore s c.val).accs.filter fun b => b.id ≠ a.id } (getCore t c.val) code 2 0
          a.pc a.va)

/-- Table 5.4: the ten functions of an AMO, on 4-byte and on 8-byte operands. -/
def Obligations.AtomicFunctions : Prop :=
  ∀ p ∈ rowsAmo, ∀ n, (n = 4 ∨ n = 8) → ∀ o b c : BitVec (8 * n), amoNew p.1 n o.toNat b.toNat c.toNat = (p.2 (8 * n) o b c).toNat

/-- FENCE stops issue, and FENCE_COMPLETE lets it resume exactly when every earlier ST and AMO has been performed; a line that
stores have filled in the combining buffer is written to its home first (R147, R301). Where the condition of a command does not
hold the state stands. The model's choices in it: log entries 8 and 82. -/
def Obligations.FencesRun : Prop :=
  ∀ (c : Core) (s : State),
    (∀ w, Issues s c (legalN w) [] → ∃ t, exec (.fence c w) s = .next t ∧ StopsOn s t c.val .fence) ∧
    ((getCore s c.val).wait = some .fence → writesPending (getCore s c.val) = true → exec (.fenceComplete c) s = .next s) ∧
    ((getCore s c.val).wait = some .fence → writesPending (getCore s c.val) = false → (getCore s c.val).comb = [] →
      storesOut s c.val = false → (getCore s c.val).fault = none →
      ∃ t, exec (.fenceComplete c) s = .next t ∧ Resumes s t c.val 0 0) ∧
    ∀ (l : CombLine) (o : Nat), (getCore s c.val).wait = some .fence → writesPending (getCore s c.val) = false →
      (getCore s c.val).comb = [l] → l.bytes.length = 64 → o < 2 ^ 41 → o % 64 = 0 → l.line = lineKey s o → l.nc = true →
      PlainLine s (getCore s c.val).ctx o → dieCode s (towerOf c.val) (homeTower s o) = St.ok → storesOut s c.val = false →
      (getCore s c.val).fault = none →
      ∃ t, exec (.fenceComplete c) s = .next t ∧ (getCore t c.val).comb = [] ∧ (getCore t c.val).wait = none ∧
        rdN t.mem o 64 = l.bytes.map (fun e => e.2.getD 0) ∧ ∀ x, (x < o ∨ o + 64 ≤ x) → rd8 t.mem x = rd8 s.mem x

/-- WAITE stops issue until every unit of its mask has DISP − DONE at or below N, modulo 2^16; then it resumes, and not before. WAITP
waits until the Plumb count, read as an unsigned 64-bit value, is at or past s[SA], also where it already is; RDPLUMB returns the
64-bit count (R153, R157).
Where the condition of a command does not hold the state stands. The model's choices in it: log entry 8. -/
def Obligations.UnitAndPlumbWaitsRun : Prop :=
  ∀ (c : Core) (s : State),
    (∀ w, Issues s c (legalE w) [] → ∃ t, exec (.waite c w) s = .next t ∧
      StopsOn s t c.val (.waite (w.extractLsb 55 47) (w.extractLsb 46 45))) ∧
    (∀ mask n, (getCore s c.val).wait = some (.waite mask n) → (getCore s c.val).fault = none → (getCore s c.val).stop = false →
      ((∀ u < 9, mask.getLsbD u = true →
          ((tget 0 (getCore s c.val).cr.ucnt u).extractLsb 31 16 - (tget 0 (getCore s c.val).cr.ucnt u).extractLsb 15 0).toNat ≤ n.toNat) →
        ∃ t, exec (.waiteComplete c) s = .next t ∧ Resumes s t c.val 0 0) ∧
      (∀ u < 9, mask.getLsbD u = true →
          n.toNat < ((tget 0 (getCore s c.val).cr.ucnt u).extractLsb 31 16 - (tget 0 (getCore s c.val).cr.ucnt u).extractLsb 15 0).toNat →
        exec (.waiteComplete c) s = .next s)) ∧
    (∀ w, Issues s c (legalR w && decide (fSD w = 0 ∧ fSB w = 0)) [fSA w] → ∃ t word, exec (.waitp c w) s = .next t ∧
      StopsOn s t c.val (.waitp word (sreg (getCore s c.val) (fSA w)))) ∧
    (∀ word target, (getCore s c.val).wait = some (.waitp word target) → (getCore s c.val).fault = none →
      (getCore s c.val).stop = false →
      if target.toNat ≤ s.plumb.count.toNat then ∃ t, exec (.plumbWaitRelease c) s = .next t ∧ Resumes s t c.val 0 0
      else exec (.plumbWaitRelease c) s = .next s) ∧
    ∀ w, Issues s c (legalR w && decide (fSA w = 0 ∧ fSB w = 0)) [fSD w] → ∃ t, exec (.rdplumb c w) s = .next t ∧
      WritesScalar s t c.val (fSD w) s.plumb.count

/-- WAITF stops issue on a flag; an evaluation gives 0 when the comparison holds, else 1 when the Plumb count has reached a
deadline, else the wait goes on; the deadline alone gives 1 after the first evaluation (R155, R156). Where the condition of a
command does not hold the state stands. The model's choices in it: log entries 8, 17 and 82. -/
def Obligations.WaitfRuns : Prop :=
  ∀ (c : Core) (s : State),
    (∀ w, Issues s c (legalF w) [fSD w, fSV w, fST w] → isDirect (getCore s c.val) = false →
      ∃ t word a, exec (.waitf c w) s = .next t ∧ OnlyCore s t c.val ∧
        getCore t c.val = { getCore s c.val with nextAcc := (getCore s c.val).nextAcc + 1, wait := some (.waitf word a false
          (w.extractLsb 55 51) (w.extractLsb 47 45) (fW64 w) (sreg (getCore s c.val) (fSV w)) (sreg (getCore s c.val) (fST w))
          (decide (fST w ≠ 0))) } ∧
        a.va = alignTo (areg (getCore s c.val) (mAR w)) (if fW64 w then 8 else 4) ∧ a.size = (if fW64 w then 8 else 4) ∧ a.x = .miss) ∧
    (∀ (p : Nat × ((w : Nat) → BitVec w → BitVec w → Bool)) (word : BitVec 64) (a : Access) (seen : Bool) (sd : BitVec 5) (w64 : Bool) (value dl : BitVec 64) (hasDl : Bool) (o : Nat) (r : Reply), p ∈ rowsCond →
      (getCore s c.val).wait = some (.waitf word a seen sd (BitVec.ofNat 3 p.1) w64 value dl hasDl) →
      (getCore s c.val).fault = none → (getCore s c.val).stop = false → (getCore s c.val).comb = [] →
      blockedBy ((getCore s c.val).accs ++ [a]) a = false → a.x = .target (.loc o) true → a.size = (if w64 then 8 else 4) →
      o % 64 + a.size ≤ 64 → PlainLine s (getCore s c.val).ctx o → dieCode s (towerOf c.val) (homeTower s o) = St.ok →
      ∃ t, exec (.waitfEvaluate c r) s = .next t ∧
        if p.2 (8 * a.size) (BitVec.ofNat _ (leNat (rdN s.mem o a.size))) (value.setWidth _) = true then Resumes s t c.val sd.toNat 0
        else if hasDl = true ∧ dl.toNat ≤ s.plumb.count.toNat then Resumes s t c.val sd.toNat 1
        else StopsOn s t c.val (.waitf word { a with x := .miss } true sd (BitVec.ofNat 3 p.1) w64 value dl hasDl)) ∧
    ∀ (word : BitVec 64) (a : Access) (seen : Bool) (sd : BitVec 5) (cond : BitVec 3) (w64 : Bool) (value dl : BitVec 64) (hasDl : Bool),
      (getCore s c.val).wait = some (.waitf word a seen sd cond w64 value dl hasDl) →
      (getCore s c.val).fault = none → (getCore s c.val).stop = false →
      if seen = true ∧ hasDl = true ∧ dl.toNat ≤ s.plumb.count.toNat then
        ∃ t, exec (.waitfDeadline c) s = .next t ∧ Resumes s t c.val sd.toNat 1
      else exec (.waitfDeadline c) s = .next s

/-! ## The core register block and the life of a kernel (R105, R161, R168 to R174, R180, R181) -/

/-- RDCR reads a core register into sd, zero-extended; WRCR writes the low 32 bits of sa to one. Both move pc on (R168). -/
def Obligations.CoreRegisterAccessesRun : Prop :=
  ∀ (c : Core) (w : BitVec 56) (s : State),
    (Issues s c (legalC w && decide (fSA w = 0)) [fSD w] → ∃ t, exec (.rdcr c w) s = .next t ∧
      WritesScalar s t c.val (fSD w) ((crRead c.val (getCore s c.val) (cIdx w)).setWidth 64)) ∧
    (Issues s c (legalC w && decide (fSD w = 0)) [fSA w] → ∃ t k, exec (.wrcr c w) s = .next t ∧ OnlyCore s t c.val ∧
      OnlyRegs (getCore s c.val) k ∧ k.regs.s = (getCore s c.val).regs.s ∧ k.regs.a = (getCore s c.val).regs.a ∧
      PastWord (getCore s c.val) k ∧
      getCore t c.val = crWrite k (cIdx w) ((sreg (getCore s c.val) (fSA w)).setWidth 32))

/-- What a write does by the access types of Table 5.10 and its registers: a read-only register and an index without a register keep
everything; CORE_CFG and SR_SEED take a shadow that reads back and leave the active copy; bits written 1 clear W1C bits; ECODE CLR
clears one unit's record (R7, R138, R169, R170). -/
def Obligations.CoreRegistersFollowTheirAccess : Prop :=
  ∀ (c : Nat) (k : CoreSt) (v : BitVec 32),
    (∀ idx, crReadOnly idx = true → crWrite k idx v = k) ∧
    (∀ idx, crReadOnly idx = true → idx ∉ [0, 5, 8, 9, 10, 11, 12, 0x19, 0x1A] → ¬ (0x30 ≤ idx ∧ idx ≤ 0x38) → crRead c k idx = 0) ∧
    crRead c k 0 = BitVec.ofNat 32 c ∧
    (crRead c (crWrite k 1 v) 1 = v &&& 3 ∧ (crWrite k 1 v).cr.cfg = k.cr.cfg) ∧
    (crRead c (crWrite k 3 v) 3 = v &&& 0xFFFF ∧ (crWrite k 3 v).cr.seed = k.cr.seed ∧ (crWrite k 3 v).mem = k.mem) ∧
    crRead c (crWrite k 4 v) 4 = crRead c k 4 &&& ~~~ (v &&& 0xFF) ∧
    (∀ idx ∈ [6, 0x10, 0x11, 0x12, 0x13, 0x14], crRead c (crWrite k idx v) idx = crRead c k idx &&& ~~~ (v &&& 0x80000000)) ∧
    crRead c (crWrite k 0x18 v) 0x18 = crRead c k 0x18 &&& ~~~ (v &&& 0xC0000000) ∧
    ∀ u < 9, ∀ u', tget 0 (crWrite k (0x20 + u) v).cr.ecode u' =
      if u' = u ∧ v.getLsbD 31 = true then 0 else tget 0 k.cr.ecode u'

/-- R119, R169: a write of GO to CORE_COMMIT is held, and issue with it; once every operation dispatched before it has been accepted,
COMMIT_APPLY makes every shadow copy active in one step and reseeds the generators, but for a table slot that a CTBL still loads, which
stays pending; until then it does nothing.
Where the condition of a command does not hold the state stands. The model's choices in it: log entry 8. -/
def Obligations.CommitsApply : Prop :=
  ∀ (c : Core) (s : State),
    (∀ v : BitVec 32, v.getLsbD 0 = true → ∃ t, exec (.coreCommit c v) s = .next t ∧ OnlyCore s t c.val ∧
      canIssue (getCore t c.val) = false ∧
      getCore t c.val = { getCore s c.val with cr := { (getCore s c.val).cr with commitPend := true } }) ∧
    ((getCore s c.val).cr.commitPend = true → (∀ u < 5, holdOf (getCore s c.val) u = none) →
      ∃ t, exec (.commitApply c) s = .next t ∧ OnlyCore s t c.val ∧ (getCore t c.val).regs = (getCore s c.val).regs ∧
        (getCore t c.val).cr = { (getCore s c.val).cr with cfg := (getCore s c.val).cr.cfgShadow, seed := (getCore s c.val).cr.seedShadow, commitPend := false } ∧
        (∀ i, genGet (getCore t c.val).mem i = genFresh ((getCore s c.val).cr.seedShadow.extractLsb 15 0) i) ∧
        (∀ n < 4, tget none (getCore t c.val).mem.tables n = match tget none (getCore s c.val).mem.shadow n with
          | none => tget none (getCore s c.val).mem.tables n
          | some f => if slotLoading (getCore s c.val) n = true then tget none (getCore s c.val).mem.tables n else f.loaded) ∧
        (getCore t c.val).mem.shadow = ((getCore s c.val).mem.shadow.filter fun e => slotLoading (getCore s c.val) e.1) ∧
        (getCore t c.val).mem.spad = (getCore s c.val).mem.spad ∧
        (getCore t c.val).mem.acc = (getCore s c.val).mem.acc ∧ (getCore t c.val).mem.vreg = (getCore s c.val).mem.vreg) ∧
    ((∃ u < 5, holdOf (getCore s c.val) u ≠ none) → exec (.commitApply c) s = .next s)

/-- ECODE_CLR clears the record of one unit; VCLR writes 0 to every vector register of a core that holds no context, and
DIRECT_KERNEL_GO starts a direct kernel there at scratchpad offset 8 × ENTRY_W in the start state of R171; a core that holds a context
ignores both, and so does one that is BUSY (R170, R180, R181). -/
def Obligations.DirectActionsRun : Prop :=
  ∀ (c : Core) (s : State),
    (∀ u : Fin 9, ∃ t, exec (.ecodeClr c u) s = .next t ∧ OnlyCore s t c.val ∧
      getCore t c.val = { getCore s c.val with cr := { (getCore s c.val).cr with ecode := (getCore t c.val).cr.ecode } } ∧
      ∀ u', tget 0 (getCore t c.val).cr.ecode u' = if u' = u.val then 0 else tget 0 (getCore s c.val).cr.ecode u') ∧
    (holdsNone (getCore s c.val) = true → isDirect (getCore s c.val) = false →
      (∃ t, exec (.vclr c) s = .next t ∧ OnlyCore s t c.val ∧
        getCore t c.val = { getCore s c.val with mem := { (getCore s c.val).mem with vreg := [] } }) ∧
      ∀ v : BitVec 32, v.getLsbD 31 = true → ∃ t, exec (.directKernelGo c v) s = .next t ∧ OnlyCore s t c.val ∧
        isDirect (getCore t c.val) = true ∧ KernelStart (getCore t c.val) ∧ (∀ i, sreg (getCore t c.val) i = 0) ∧
        (∀ i, areg (getCore t c.val) i = 0) ∧
        (getCore t c.val).regs.pc = BitVec.ofNat 64 (8 * (v.extractLsb 18 0).toNat % 4194304) ∧
        (getCore t c.val).mem.spad = (getCore s c.val).mem.spad ∧ (getCore t c.val).mem.acc = (getCore s c.val).mem.acc) ∧
    (holdsNone (getCore s c.val) = false → (∃ t, exec (.vclr c) s = .next t ∧ OnlyCore s t c.val ∧ getCore t c.val = getCore s c.val) ∧
      ∀ v, ∃ t, exec (.directKernelGo c v) s = .next t ∧ OnlyCore s t c.val ∧ getCore t c.val = getCore s c.val)

/-- NODE_START starts the kernels of a granted gang together, each on its core in the start state of R171: the entry address in pc, the
registers that the packet sets, the rank in s2, the inline data in the scratchpad with its offset in a1, every other register 0; a
core that passes to another context has its scratchpad and accumulators cleared first; no other core changes (R171, R172, R196, R222). -/
def Obligations.KernelsStart : Prop :=
  ∀ (c : Core) (s : State) (g : Nat) (x : Gang), (getCore s c.val).gang = some g → gangOf s g = some x → x.st = .granted →
    (∀ p ∈ x.cores, (getCore s p.2).phase = .granted ∧ (getCore s p.2).retired = false) → (x.cores.map Prod.snd).Nodup →
    ∃ t, exec (.nodeStart c) s = .next t ∧ (∀ d, d ∉ x.cores.map Prod.snd → getCore t d = getCore s d) ∧
      gangOf t g = some { x with st := .running, started := s.now } ∧
      ∀ p ∈ x.cores, KernelStart (getCore t p.2) ∧
        (getCore t p.2).phase = .running ∧ (getCore t p.2).regs.pc = x.entry ∧ (getCore t p.2).ctx = x.ctx ∧
        (getCore t p.2).lastCtx = some x.ctx ∧ sreg (getCore t p.2) 2 = BitVec.ofNat 64 p.1 ∧
        (∀ i, i ≠ 2 → (∀ q ∈ x.sregs, q.1 ≠ i) → sreg (getCore t p.2) i = 0) ∧
        (∀ i, areg (getCore t p.2) i = if i = 1 ∧ x.inl ≠ [] then x.inlOff.setWidth 64 else 0) ∧
        (getCore t p.2).mem.spad = spadWr (if (getCore s p.2).lastCtx = some x.ctx then (getCore s p.2).mem.spad else [])
          x.inlOff.toNat x.inl ∧
        (getCore t p.2).mem.acc = if (getCore s p.2).lastCtx = some x.ctx then (getCore s p.2).mem.acc else []

/-- R173: END stops issue; the node ends on its core with OK once every unit has DISP = DONE and every ST, AMO and signal has been
performed, whatever ECODE holds (here a direct kernel, whose code CORE_DIRECT takes, and a kernel of a gang); before that it does
not end.
Where the condition of a command does not hold the state stands. The model's choices in it: log entries 8 and 81. -/
def Obligations.KernelsEnd : Prop :=
  ∀ (c : Core) (s : State),
    (∀ w, Issues s c (legalN w) [] → ∃ t, exec (.end_ c w) s = .next t ∧ OnlyCore s t c.val ∧ canIssue (getCore t c.val) = false ∧
      getCore t c.val = { getCore s c.val with ended := true }) ∧
    ((∃ u < 9, bf (tget 0 (getCore s c.val).cr.ucnt u) 31 16 ≠ bf (tget 0 (getCore s c.val).cr.ucnt u) 15 0) ∨
      writesPending (getCore s c.val) = true → exec (.nodeEnd c) s = .next s) ∧
    ((getCore s c.val).ended = true → (getCore s c.val).fault = none → (getCore s c.val).retired = false →
      (∀ u < 9, bf (tget 0 (getCore s c.val).cr.ucnt u) 31 16 = bf (tget 0 (getCore s c.val).cr.ucnt u) 15 0) →
      enginesIdle (getCore s c.val) = true → writesPending (getCore s c.val) = false → (getCore s c.val).comb = [] →
      storesOut s c.val = false →
      (isDirect (getCore s c.val) = true → ∃ t, exec (.nodeEnd c) s = .next t ∧ OnlyCore s t c.val ∧
        isDirect (getCore t c.val) = false ∧ bf (getCore t c.val).cr.coreDirect 26 19 = 0 ∧
        (getCore t c.val).regs = (getCore s c.val).regs ∧ (getCore t c.val).mem = (getCore s c.val).mem) ∧
      ∀ g x rank, isDirect (getCore s c.val) = false → (getCore s c.val).gang = some g → gangOf s g = some x →
        x.cores = [(rank, c.val)] → x.st = .running → x.ended.length + 1 < x.want →
        ∃ t, exec (.nodeEnd c) s = .next t ∧ (∀ d, d ≠ c.val → getCore t d = getCore s d) ∧ (getCore t c.val).phase = .free ∧
          (getCore t c.val).gang = none ∧
          gangOf t g = some { x with
            cores := [], ended := x.ended ++ [(rank, St.ok)], slots := x.slots.filter fun p => p.1 ≠ rank })

/-- R174: a kernel that met a fault ends only once its accepted operations and its accesses are over; its record goes to CORE_FAULT0
to CORE_FAULT4 (here of a direct kernel, whose CORE_DIRECT takes the code).
Where the condition of a command does not hold the state stands. The model's choices in it: log entry 8. -/
def Obligations.FaultyKernelsEnd : Prop :=
  ∀ (c : Core) (s : State) (f : KFault), (getCore s c.val).fault = some f →
    (enginesIdle (getCore s c.val) = false ∨ (getCore s c.val).accs ≠ [] → exec (.kernelFaultEnd c) s = .next s) ∧
    (enginesIdle (getCore s c.val) = true → (getCore s c.val).accs = [] → (getCore s c.val).retired = false →
      (getCore s c.val).comb = [] → coreWaits s c.val = false → isDirect (getCore s c.val) = true → f.src ≠ 7 →
      ∃ t, exec (.kernelFaultEnd c) s = .next t ∧ OnlyCore s t c.val ∧ isDirect (getCore t c.val) = false ∧
        bf (getCore t c.val).cr.coreDirect 26 19 = f.code.toNat ∧ bt (getCore t c.val).cr.fault0 31 = true ∧
        bf (getCore t c.val).cr.fault0 30 28 = f.src.toNat ∧ bf (getCore t c.val).cr.fault0 23 16 = f.code.toNat ∧
        (getCore t c.val).cr.fault1 = f.pc.extractLsb 31 0 ∧ (getCore t c.val).cr.fault2 = f.pc.extractLsb 63 32 ∧
        (f.src = 1 ∨ f.src = 2 ∨ f.src = 5 →
          (getCore t c.val).cr.fault3 = f.addr.extractLsb 31 0 ∧ (getCore t c.val).cr.fault4 = f.addr.extractLsb 63 32))

/-- A corrected error in an Ashlar engine, in Chisel or in the scratchpad counts in the core's error register and, below the sixteenth
of its source within 1 s, changes nothing else; a double-bit error sets UE and takes the core out of service, records the
retirement in the store and reports it (R105, R161, R394). -/
def Obligations.CoreErrorsCount : Prop :=
  ∀ (c : Core) (s : State),
    (∀ (e : Fin 4) (loc : Fin 10), (getCore s c.val).retireDue = false → errorsInSecond (getCore s c.val) e.val s.now < 16 →
      ∃ t, exec (.ashlarSingleBitError c e loc) s = .next t ∧ OnlyCore s t c.val ∧ (getCore t c.val).retired = (getCore s c.val).retired ∧
        CorrectedError (tget 0 (getCore s c.val).cr.ashErr e.val) (tget 0 (getCore t c.val).cr.ashErr e.val) 27 24 loc.val) ∧
    (∀ loc : Fin 3, (getCore s c.val).retireDue = false → errorsInSecond (getCore s c.val) 4 s.now < 16 →
      ∃ t, exec (.chiselEccError c false loc) s = .next t ∧ OnlyCore s t c.val ∧ (getCore t c.val).retired = (getCore s c.val).retired ∧
        CorrectedError (getCore s c.val).cr.chsErr (getCore t c.val).cr.chsErr 27 24 loc.val) ∧
    (∀ bank : Fin 64, (getCore s c.val).retireDue = false → errorsInSecond (getCore s c.val) (8 + bank.val) s.now < 16 →
      ∃ t, exec (.spadEccError c false bank) s = .next t ∧ OnlyCore s t c.val ∧ (getCore t c.val).retired = (getCore s c.val).retired ∧
        CorrectedError (getCore s c.val).cr.spadErr (getCore t c.val).cr.spadErr 21 16 bank.val) ∧
    (∀ e : Fin 4, (getCore s c.val).retired = false → (getCore s c.val).gang = none → s.gangs = [] →
      ∃ t, exec (.ashlarDoubleBitError c e) s = .next t ∧ (getCore t c.val).retired = true ∧
        bt (tget 0 (getCore t c.val).cr.ashErr e.val) 31 = true ∧ (∀ d, d ≠ c.val → getCore t d = getCore s d) ∧
        t.key.recs.retired = s.key.recs.retired ++ [2048 * 2 + c.val] ∧ t.key.rseq = s.key.rseq + 1)

/-! ## The Ashlar engines and Chisel (R38, R71 to R91, R109 to R134, R150 to R152) -/

/-- AMM, CHN, CFOLD and CTBL go into the hold slot of their unit, in dispatch order, with the register values read at issue, and pc
moves past their words; while the slot is full they wait (R81, R109, R119, R129, R150).
Where the condition of a command does not hold the state stands. The model's choices in it: log entry 8. -/
def Obligations.EngineInstructionsDispatch : Prop :=
  ∀ (c : Core) (s : State),
    (∀ (w : BitVec 56) (w1 : BitVec 64), Issues s c (amLegal (0x40#8 ++ w) w1) (amSregs w1) →
      (holdOf (getCore s c.val) (w.extractLsb 55 54).toNat = none → ∃ t, exec (.amm c w w1) s = .next t ∧
        Dispatches s t c.val (w.extractLsb 55 54).toNat 2 ⟨.amm, 0x40#8 ++ w, w1, (getCore s c.val).dispNo, (getCore s c.val).regs.pc,
          (amAregs w1).map (areg (getCore s c.val)) ++ (amSregs w1).map (sreg (getCore s c.val)), false⟩) ∧
      (holdOf (getCore s c.val) (w.extractLsb 55 54).toNat ≠ none → exec (.amm c w w1) s = .next s)) ∧
    ∀ p ∈ rowsChisel, ∀ w : BitVec 56, Issues s c (p.2.2.2.1 w) (p.2.2.2.2.1 w) →
      (holdOf (getCore s c.val) 4 = none → ∃ t, exec (p.1 c w) s = .next t ∧
        Dispatches s t c.val 4 1 ⟨p.2.1, BitVec.ofNat 8 p.2.2.1 ++ w, 0, (getCore s c.val).dispNo, (getCore s c.val).regs.pc,
          p.2.2.2.2.2 (getCore s c.val) w, false⟩) ∧
      (holdOf (getCore s c.val) 4 ≠ none → exec (p.1 c w) s = .next s)

/-- AMM_ACCEPT and CHISEL_ACCEPT: an operation that passes its dispatch checks joins its engine and claims the tiles it names; one
that fails them reports FMT_RESERVED and writes nothing; a chain that starts at or above LEN completes at once with OK and claims
nothing (R38, R78, R83, R110, R116, R124, R129).
The model's choices in it: log entry 21. -/
def Obligations.EngineOperationsAreAccepted : Prop :=
  ∀ (c : Core) (s : State) (o : HeldOp), o.direct = false →
    (∀ e : Fin 4, o.kind = .amm → Accepts s c.val e.val o →
      let ok := amChecks o.w0 (rdOfd (getCore s c.val).mem.spad (opVal o 4).toNat) (rdOfd (getCore s c.val).mem.spad (opVal o 5).toNat)
      (ok = false → ∃ t, exec (.ammAccept c e) s = .next t ∧ Refuses s t c.val e.val o 3 e.val) ∧
      (ok = true → amMode o.w0 ≠ 2 → ∃ t, exec (.ammAccept c e) s = .next t ∧ Accepted s t c.val e.val o (amTiles o.w0) .checked)) ∧
    (o.kind = .chn → Accepts s c.val 4 o →
      let d := chainDesc (getCore s c.val) o
      let ofds := chainOfds (getCore s c.val) d
      let ok := chnChecks (o.w0.getLsbD 55) d ofds (activeTables (getCore s c.val))
      (ok = false → ∃ t, exec (.chiselAccept c) s = .next t ∧ Refuses s t c.val 4 o 4 0) ∧
      (ok = true → hLen d ≤ startAt d ofds ((opVal o 1).toNat % 2 ^ 20) → ∃ t, exec (.chiselAccept c) s = .next t ∧ OnlyCore s t c.val ∧
        Completes (getCore s c.val) (getCore t c.val) 4 St.ok o.disp ∧ (getCore t c.val).ops = (getCore s c.val).ops ∧
        (getCore t c.val).mem = (getCore s c.val).mem) ∧
      (ok = true → startAt d ofds ((opVal o 1).toNat % 2 ^ 20) < hLen d → ∃ t, exec (.chiselAccept c) s = .next t ∧
        Accepted s t c.val 4 o (chainTiles d) .checked)) ∧
    (o.kind = .cfold → Accepts s c.val 4 o →
      if 2 ≤ (o.w0.extractLsb 50 49).toNat then ∃ t, exec (.chiselAccept c) s = .next t ∧ Refuses s t c.val 4 o 4 0
      else ∃ t, exec (.chiselAccept c) s = .next t ∧ Accepted s t c.val 4 o (cfTiles o.w0) .checked) ∧
    (o.kind = .ctbl → Accepts s c.val 4 o → ∃ t, exec (.chiselAccept c) s = .next t ∧ Accepted s t c.val 4 o [] .running)

/-- AMM_FIRST_ARRAY_CYCLE with wrapping INT8 operands: every element of C inside M × N becomes the starting value, 0 when ACC = 0,
plus the sum over k of a × b, modulo 2^32; outside M × N an element becomes 0 when ACC = 0 and stands when ACC = 1. No other tile, no
scratchpad byte and no generator changes. An operand byte that has changed since the operation was accepted may read as any value
(R62, R71, R75, R77, R79, R87). The model's choices in it: log entry 14. -/
def Obligations.MatrixProductsAccumulate : Prop :=
  ∀ (c : Core) (e : Fin 4) (s : State) (i : Nat) (r : RunOp), Ready (getCore s c.val) e.val i r → Int8Product r →
    amEng r.op.w0 = e.val →
    ∃ t v, exec (.ammFirstArrayCycle c e) s = .next t ∧ OnlyCore { s with free := t.free } t c.val ∧
      ReadAs r.seen (getCore s c.val).mem.spad v ∧
      (getCore t c.val).mem = { (getCore s c.val).mem with acc := (getCore t c.val).mem.acc } ∧
      (∀ m < amMT r.op.w0, ∀ n < amNT r.op.w0, ∀ a < 64, ∀ b < 64,
        accGet (getCore t c.val).mem (8 * e.val + amTile0 r.op.w0 + (m * amNT r.op.w0 + n)) a b =
          let old := accGet (getCore s c.val).mem (8 * e.val + amTile0 r.op.w0 + (m * amNT r.op.w0 + n)) a b
          if 64 * m + a < amM r.op.w0 ∧ 64 * n + b < amN r.op.w0 then
            (((if amAcc r.op.w0 then (old : Int) else 0) + (List.range (amK r.op.w0)).foldl (fun x k =>
              x + int8At v (amAoff r.op) (amApitch r.op) (amAT r.op.w1) (64 * m + a) k *
                int8At v (amBoff r.op) (amBpitch r.op) (amBT r.op.w1) k (64 * n + b)) 0) % 2 ^ 32).toNat
          else if amAcc r.op.w0 then old else 0) ∧
      ∀ q, q ∉ amTiles r.op.w0 → ∀ a < 64, ∀ b < 64, accGet (getCore t c.val).mem q a b = accGet (getCore s c.val).mem q a b

/-- AMM_TILE_DRAIN writes each element of the tile inside M × N to its address of Table 3.3, an FP32 or INT32 one unchanged, and
leaves the accumulator file and every other byte; the claim on the tile ends. AMM_COMPLETE reports the code of the oldest operation
that has finished and ends its claims, also where an earlier one still drains (R77, R78, R89, R99, R152). -/
def Obligations.TilesDrainAndComplete : Prop :=
  ∀ (c : Core) (e : Fin 4) (s : State) (r : RunOp),
    (∀ (i d : Nat) (ds : List Nat) (p : Nat × Nat), (opsOf (getCore s c.val) e.val)[i]? = some r → r.stage = .running →
      (∀ j < i, ∀ x, (opsOf (getCore s c.val) e.val)[j]? = some x → x.stage ≠ .running) → r.drains = d :: ds →
      (amOrder r.op.w0)[d]? = some p → r.epoch = (getCore s c.val).genEpoch → (getCore s c.val).oldGens = [] → amEng r.op.w0 = e.val →
      amOutFmt r.op.w0 = (if amMode r.op.w0 = 0 ∧ amIsInt (r.ofds.getD 0 0) then 12 else 0) → amCvt r.op.w0 % 4 ≠ 2 →
      4 * amN r.op.w0 ≤ amCpitch r.op → amCoff r.op + amM r.op.w0 * amCpitch r.op ≤ 4194304 →
      ∃ t, exec (.ammTileDrain c e) s = .next t ∧ OnlyCore s t c.val ∧
        (getCore t c.val).mem = { (getCore s c.val).mem with spad := (getCore t c.val).mem.spad } ∧
        (∀ a b, 64 * p.1 ≤ a → a < 64 * p.1 + 64 → a < amM r.op.w0 → 64 * p.2 ≤ b → b < 64 * p.2 + 64 → b < amN r.op.w0 →
          leNat (rdN (getCore t c.val).mem.spad (amCoff r.op + a * amCpitch r.op + 4 * b) 4) =
            accGet (getCore s c.val).mem (8 * e.val + amTile0 r.op.w0 + tileIdx r.op.w0 p) (a - 64 * p.1) (b - 64 * p.2)) ∧
        (∀ x, (∀ a b, 64 * p.1 ≤ a → a < 64 * p.1 + 64 → a < amM r.op.w0 → 64 * p.2 ≤ b → b < 64 * p.2 + 64 → b < amN r.op.w0 →
            ¬ (amCoff r.op + a * amCpitch r.op + 4 * b ≤ x ∧ x < amCoff r.op + a * amCpitch r.op + 4 * b + 4)) →
          rd8 (getCore t c.val).mem.spad x = rd8 (getCore s c.val).mem.spad x) ∧
        ∃ r', opsOf (getCore t c.val) e.val = (opsOf (getCore s c.val) e.val).set i r' ∧ r'.drains = ds ∧
          (∀ q, q ∈ r'.tiles ↔ q ∈ r.tiles ∧ q ≠ 8 * e.val + amTile0 r.op.w0 + tileIdx r.op.w0 p) ∧
          (r'.stage = if ds = [] then .finished else .running)) ∧
    ∀ i, (opsOf (getCore s c.val) e.val)[i]? = some r → r.stage = .finished →
      (∀ j < i, ∀ x, (opsOf (getCore s c.val) e.val)[j]? = some x → x.stage ≠ .finished) → r.op.direct = false →
      r.code ≠ St.fmtReserved → (getCore s c.val).retireDue = false →
      ∃ t, exec (.ammComplete c e) s = .next t ∧ OnlyCore s t c.val ∧ Completes (getCore s c.val) (getCore t c.val) e.val r.code r.op.disp ∧
        opsOf (getCore t c.val) e.val = (opsOf (getCore s c.val) e.val).eraseIdx i ∧ (getCore t c.val).mem = (getCore s c.val).mem ∧
        (getCore t c.val).fault = (getCore s c.val).fault

/-- Chisel: a chain whose tiles are free enters once no earlier CTBL of the core still reads its image, and under SER once every
earlier Chisel operation has completed: its beats run and it has finished with a code. One of the kind that clears a scratchpad
writes +0 to every element of its output and to no other byte; one whose first element faults writes nothing and takes
GATHER_FAULT and a record. CFOLD, as the oldest Chisel operation, reads its tiles and writes no accumulator. An input byte that has
changed since the operation was accepted may read as any value, but a later operation under SER and a later CFOLD see what these
write (R111, R113, R116, R125, R128, R129, R132, R437). The model's choices in it: log entries 14 and 87. -/
def Obligations.ChiselOperationsEnter : Prop :=
  ∀ (c : Core) (s : State) (r : RunOp) (i : Nat),
    (Ready (getCore s c.val) 4 i r → r.op.kind = .chn → (hSer r.desc = true → i = 0) →
      (∀ j < i, ∀ x, (opsOf (getCore s c.val) 4)[j]? = some x → x.op.kind ≠ .ctbl) →
      (∃ t code, exec (.chnFirstBeat c) s = .next t ∧ OnlyCore { s with free := t.free } t c.val ∧ (code = St.ok ∨ code = St.gatherFault) ∧
        (getCore t c.val).regs = (getCore s c.val).regs ∧ (∀ u < 4, opsOf (getCore t c.val) u = opsOf (getCore s c.val) u) ∧
        opsOf (getCore t c.val) 4 = seeWrites (getCore s c.val).mem.spad (getCore t c.val).mem.spad i
          ((opsOf (getCore s c.val) 4).set i { r with stage := .finished, code := code })) ∧
      (r.epoch = (getCore s c.val).genEpoch → (getCore s c.val).oldGens = [] →
      (ClearsScratchpad r.desc → (opVal r.op 1).toNat % 2 ^ 20 = 0 → stBase (strm r.desc 4) + 4 * hLen r.desc ≤ 4194304 →
        ∃ t, exec (.chnFirstBeat c) s = .next t ∧ OnlyCore { s with free := t.free } t c.val ∧
          (getCore t c.val).mem = { (getCore s c.val).mem with spad := (getCore t c.val).mem.spad } ∧
          (∀ a, rd8 (getCore t c.val).mem.spad a =
            if stBase (strm r.desc 4) ≤ a ∧ a < stBase (strm r.desc 4) + 4 * hLen r.desc then 0 else rd8 (getCore s c.val).mem.spad a) ∧
          opsOf (getCore t c.val) 4 = seeWrites (getCore s c.val).mem.spad (getCore t c.val).mem.spad i
            ((opsOf (getCore s c.val) 4).set i { r with stage := .finished, code := St.ok })) ∧
      ∀ slot cause addr, startAt r.desc r.ofds ((opVal r.op 1).toNat % 2 ^ 20) = 0 →
        faultAt r.desc { (getCore s c.val).mem with spad := (racedView s r.seen (getCore s c.val).mem.spad).1 } 0 = some (slot, cause, addr) →
        cause < 4 → slot < 8 → (getCore s c.val).cr.chsFault0 = 0 →
        ∃ t, exec (.chnFirstBeat c) s = .next t ∧ OnlyCore { s with free := t.free } t c.val ∧ (getCore t c.val).mem = (getCore s c.val).mem ∧
          bt (getCore t c.val).cr.chsFault0 31 = true ∧ bf (getCore t c.val).cr.chsFault0 29 28 = cause ∧
          bf (getCore t c.val).cr.chsFault0 27 25 = slot ∧ bf (getCore t c.val).cr.chsFault0 19 0 = 0 ∧
          (getCore t c.val).cr.chsFault2 = 0 ∧ (getCore t c.val).fault = (getCore s c.val).fault ∧
          opsOf (getCore t c.val) 4 = (opsOf (getCore s c.val) 4).set i { r with stage := .finished, code := St.gatherFault })) ∧
    (Ready (getCore s c.val) 4 0 r → r.op.kind = .cfold → ∃ t r', exec (.cfoldFirstRow c) s = .next t ∧
      OnlyCore { s with free := t.free } t c.val ∧
      (getCore t c.val).mem = { (getCore s c.val).mem with spad := (getCore t c.val).mem.spad } ∧
      opsOf (getCore t c.val) 4 = seeWrites (getCore s c.val).mem.spad (getCore t c.val).mem.spad 0 ((opsOf (getCore s c.val) 4).set 0 r') ∧ r'.stage = .finished ∧ (r'.code = St.ok ∨ r'.code = St.spreadExceeded))

/-- Chisel: each operation completes once, with its code, and CTBL fills a shadow slot and leaves the active table. CHS_DIRECT_GO in a
core that holds a context, or while BUSY = 1, starts nothing; else it starts a direct stream operation, or reports one with a broken
descriptor (R119, R128, R129, R134).
The model's choices in it: log entry 14. -/
def Obligations.ChiselOperationsComplete : Prop :=
  ∀ (c : Core) (s : State) (r : RunOp) (i : Nat),
    (∀ p ∈ [(Instr.chnComplete c, EngKind.chn), (.cfoldComplete c, .cfold)], (opsOf (getCore s c.val) 4)[i]? = some r → r.op.kind = p.2 →
      (∀ j < i, ∀ x, (opsOf (getCore s c.val) 4)[j]? = some x → x.op.kind ≠ p.2) → r.stage = .finished → r.op.direct = false →
      r.code ≠ St.fmtReserved → (getCore s c.val).retireDue = false →
      ∃ t, exec p.1 s = .next t ∧ OnlyCore s t c.val ∧ Completes (getCore s c.val) (getCore t c.val) 4 r.code r.op.disp ∧
        opsOf (getCore t c.val) 4 = (opsOf (getCore s c.val) 4).eraseIdx i ∧ (getCore t c.val).mem = (getCore s c.val).mem) ∧
    ((opsOf (getCore s c.val) 4)[i]? = some r → r.op.kind = .ctbl → r.op.direct = false → (getCore s c.val).retireDue = false →
      (∀ j < i, ∀ x, (opsOf (getCore s c.val) 4)[j]? = some x → x.op.kind ≠ .ctbl) →
      let v := (racedView s r.seen (getCore s c.val).mem.spad).1
      (∀ j, 28 ≤ j → j < 64 → rd8 v ((off16 (opVal r.op 0) + j) % 4194304) = 0) →
      ∃ t f, exec (.ctblComplete c) s = .next t ∧ OnlyCore { s with free := t.free } t c.val ∧ ReadAs r.seen (getCore s c.val).mem.spad v ∧ Completes (getCore s c.val) (getCore t c.val) 4 St.ok r.op.disp ∧
        (getCore t c.val).mem = { (getCore s c.val).mem with shadow := (getCore t c.val).mem.shadow } ∧
        (∀ n, tget none (getCore t c.val).mem.shadow n = if n = bf r.op.w0 55 54 then some f else tget none (getCore s c.val).mem.shadow n) ∧
        f.loaded = some ⟨BitVec.ofNat 4 (bf r.op.w0 53 50), spadRd v (off16 (opVal r.op 0)) (64 + 16 * 2 ^ bf r.op.w0 53 50)⟩) ∧
    ∀ v : BitVec 32, ∃ t, exec (.chsDirectGo c v) s = .next t ∧ OnlyCore s t c.val ∧
      (v.getLsbD 31 = false ∨ holdsNone (getCore s c.val) = false ∨ bt (getCore s c.val).cr.chsDirect 30 = true →
        (getCore t c.val).ops = (getCore s c.val).ops ∧ (getCore t c.val).mem = (getCore s c.val).mem ∧
        bf (getCore t c.val).cr.chsDirect 21 0 = bf v 21 0 ∧
        bt (getCore t c.val).cr.chsDirect 30 = bt (getCore s c.val).cr.chsDirect 30) ∧
      (v.getLsbD 31 = true → holdsNone (getCore s c.val) = true → bt (getCore s c.val).cr.chsDirect 30 = false →
        let d := spadRd (getCore s c.val).mem.spad (bf v 21 0 / 16 * 16) 160
        let ok := chnChecks true d (chainOfds (getCore s c.val) d) (activeTables (getCore s c.val))
        (ok = false → bt (getCore t c.val).cr.chsDirect 30 = false ∧ bf (getCore t c.val).cr.chsDirect 29 22 = 3 ∧
          (getCore t c.val).fault = (getCore s c.val).fault ∧ (getCore t c.val).ops = (getCore s c.val).ops) ∧
        (ok = true → bt (getCore t c.val).cr.chsDirect 30 = true ∧ ∃ x : RunOp, x.op.direct = true ∧ x.stage = .checked ∧
          x.tiles = chainTiles d ∧ opsOf (getCore t c.val) 4 = opsOf (getCore s c.val) 4 ++ [x]))

/-! ## Core DMA (R162 to R167) -/

/-- DMA copies a descriptor from the scratchpad into the queue of its channel, in dispatch order, and pc moves on; a full queue makes
it wait, and a descriptor with a broken field ends the kernel with FMT_RESERVED. A TIMED descriptor whose AT lies ahead waits at the head; any other starts. A
descriptor whose bytes have all moved completes, with SIG_EN only after ADD of 1 to the 64-bit word at SIG; DONE counts it (R162 to
R165, R167).
Where the condition of a command does not hold the state stands. The model's choices in it: log entry 8. -/
def Obligations.DmaDescriptorsRun : Prop :=
  ∀ (c : Core) (s : State),
    (∀ w : BitVec 56, Issues s c (legalD w) [] →
      let ch := (w.extractLsb 55 54).toNat
      let d : DmaDesc := ⟨BitVec.ofNat 512 (leNat (spadRd (getCore s c.val).mem.spad
        ((areg (getCore s c.val) (w.extractLsb 53 51).toNat).toNat % 4194304 / 64 * 64) 64)), (getCore s c.val).dispNo, (getCore s c.val).regs.pc⟩
      (128 ≤ (chanAt (getCore s c.val) ch).queue.length → exec (.dma c w) s = .next s) ∧
      ((chanAt (getCore s c.val) ch).queue.length < 128 → descOk d = true → ∃ t, exec (.dma c w) s = .next t ∧ OnlyCore s t c.val ∧
        chanAt (getCore t c.val) ch = { chanAt (getCore s c.val) ch with queue := (chanAt (getCore s c.val) ch).queue ++ [d] } ∧
        (∀ e, e ≠ ch → chanAt (getCore t c.val) e = chanAt (getCore s c.val) e) ∧ (getCore t c.val).mem = (getCore s c.val).mem ∧
        (getCore t c.val).dispNo = (getCore s c.val).dispNo + 1 ∧
        bf (tget 0 (getCore t c.val).cr.ucnt (5 + ch)) 31 16 = (bf (tget 0 (getCore s c.val).cr.ucnt (5 + ch)) 31 16 + 1) % 65536 ∧
        (getCore t c.val).regs.s = (getCore s c.val).regs.s ∧ (getCore t c.val).regs.a = (getCore s c.val).regs.a ∧
        PastWord (getCore s c.val) (getCore t c.val)) ∧
      ((chanAt (getCore s c.val) ch).queue.length < 128 → descOk d = false → ∃ t, exec (.dma c w) s = .next t ∧ OnlyCore s t c.val ∧
        FaultRecorded (getCore s c.val) (getCore t c.val) St.fmtReserved 5 (BitVec.ofNat 2 ch) (getCore s c.val).regs.pc 0)) ∧
    ∀ (ch : Fin 4) (h : DmaDesc), ChannelHas s c.val ch.val h →
      ((chanAt (getCore s c.val) ch.val).phase = .idle →
        if h.raw.getLsbD 322 = true ∧ s.plumb.count.toNat < (h.raw.extractLsb' 384 64).toNat then
          ∃ t, exec (.dmaDescriptorStart c ch) s = .next t ∧
            OnlyChannel s t c.val ch.val { chanAt (getCore s c.val) ch.val with phase := .timed }
        else ∃ t d, exec (.dmaDescriptorStart c ch) s = .next t ∧ OnlyChannel s t c.val ch.val d ∧ d.phase = .moving ∧
          d.seen = (getCore s c.val).mem.spad ∧
          d.queue = (chanAt (getCore s c.val) ch.val).queue) ∧
      ((chanAt (getCore s c.val) ch.val).phase = .timed →
        if s.plumb.count.toNat < (h.raw.extractLsb' 384 64).toNat then exec (.dmaTimedRelease c ch) s = .next s
        else ∃ t d, exec (.dmaTimedRelease c ch) s = .next t ∧ OnlyChannel s t c.val ch.val d ∧ d.phase = .moving ∧
          d.seen = (getCore s c.val).mem.spad ∧
          d.queue = (chanAt (getCore s c.val) ch.val).queue) ∧
      ((chanAt (getCore s c.val) ch.val).phase = .moving →
        (chanAt (getCore s c.val) ch.val).plane = (h.raw.extractLsb' 176 16).toNat + 1 → dmaOut s c.val ch.val = false →
        if h.raw.getLsbD 323 = true then
          ∃ t d, exec (.dmaDescriptorComplete c ch) s = .next t ∧ OnlyChannel s t c.val ch.val d ∧ d.phase = .signalling
        else ∃ t, exec (.dmaDescriptorComplete c ch) s = .next t ∧ OnlyCore s t c.val ∧
          chanAt (getCore t c.val) ch.val = { queue := (chanAt (getCore s c.val) ch.val).queue.tail } ∧
          Completes (getCore s c.val) (getCore t c.val) (5 + ch.val) St.ok h.disp) ∧
      ∀ l o r, (chanAt (getCore s c.val) ch.val).phase = .signalling → isDirect (getCore s c.val) = false →
        (chanAt (getCore s c.val) ch.val).xs = .miss → (chanAt (getCore s c.val) ch.val).xw = .miss →
        MapsTo s (getCore s c.val).rlb (getCore s c.val).ctx (h.raw.extractLsb' 448 64) .atomic l o →
        PlainLine s (getCore s c.val).ctx o → dieCode s (towerOf c.val) (homeTower s o) = St.ok → o % 64 + 8 ≤ 64 →
        ∃ t, exec (.dmaSignalDone c ch r) s = .next t ∧ (∀ d, d ≠ c.val → getCore t d = getCore s d) ∧
          rdN t.mem o 8 = toLe 8 (leNat (rdN s.mem o 8) + 1) ∧ (∀ x, (x < o ∨ o + 8 ≤ x) → rd8 t.mem x = rd8 s.mem x) ∧
          chanAt (getCore t c.val) ch.val = { queue := (chanAt (getCore s c.val) ch.val).queue.tail } ∧
          Completes (getCore s c.val) (getCore t c.val) (5 + ch.val) St.ok h.disp

/-- DMA_LINE_COMPLETE moves the next bytes of the head descriptor: between places of the scratchpad, from memory to the
scratchpad, and from the scratchpad to memory; every other byte of both stands, and the channel moves on by row and plane. A source
byte of the scratchpad that another unit has changed since the descriptor started may read as any value (R154, R163, R164). The model's choices in it: log entries 14 and 87. -/
def Obligations.DmaLinesMove : Prop :=
  ∀ (c : Core) (ch : Fin 4) (s : State) (h : DmaDesc) (src dst : BitVec 64) (n : Nat) (r : Reply), MovesNext s c.val ch.val h src dst n →
    (h.raw.getLsbD 320 = true → h.raw.getLsbD 321 = true → ∃ t v, exec (.dmaLineComplete c ch r) s = .next t ∧
      OnlyCore { s with free := t.free } t c.val ∧ Moved s t c.val ch.val h n ∧
      ReadAs (chanAt (getCore s c.val) ch.val).seen (getCore s c.val).mem.spad v ∧
      (∀ j < n, rd8 (getCore t c.val).mem.spad ((dst.toNat + j) % 4194304) = rd8 v ((src.toNat + j) % 4194304)) ∧
      ∀ a < 4194304, (∀ j < n, a ≠ (dst.toNat + j) % 4194304) → rd8 (getCore t c.val).mem.spad a = rd8 (getCore s c.val).mem.spad a) ∧
    (isDirect (getCore s c.val) = false → h.raw.getLsbD 320 = false → h.raw.getLsbD 321 = true → src.toNat % 64 + n ≤ 64 → ∀ l o,
      MapsTo s (getCore s c.val).rlb (getCore s c.val).ctx src .read l o → PlainLine s (getCore s c.val).ctx o → o % 64 = src.toNat % 64 →
      FreeRoute s (towerOf c.val) (homeTower s o) → chanHeld s o = false →
      ∃ t, exec (.dmaLineComplete c ch r) s = .next t ∧ OnlyCore s t c.val ∧ Moved s t c.val ch.val h n ∧
        (∀ j < n, rd8 (getCore t c.val).mem.spad ((dst.toNat + j) % 4194304) = rd8 s.mem (o + j)) ∧
        ∀ a < 4194304, (∀ j < n, a ≠ (dst.toNat + j) % 4194304) → rd8 (getCore t c.val).mem.spad a = rd8 (getCore s c.val).mem.spad a) ∧
    (isDirect (getCore s c.val) = false → h.raw.getLsbD 320 = true → h.raw.getLsbD 321 = false → ∀ l o,
      MapsTo s (getCore s c.val).rlb (getCore s c.val).ctx dst .write l o → PlainLine s (getCore s c.val).ctx o → o % 64 = dst.toNat % 64 →
      FreeRoute s (towerOf c.val) (homeTower s o) → chanHeld s o = false →
      ∃ t v, exec (.dmaLineComplete c ch r) s = .next t ∧ (∀ d, d ≠ c.val → getCore t d = getCore s d) ∧ Moved s t c.val ch.val h n ∧
        (getCore t c.val).mem = (getCore s c.val).mem ∧ ReadAs (chanAt (getCore s c.val) ch.val).seen (getCore s c.val).mem.spad v ∧
        (∀ j < n, rd8 t.mem (o + j) = rd8 v ((src.toNat + j) % 4194304)) ∧
        ∀ a, (a < o ∨ o + n ≤ a) → rd8 t.mem a = rd8 s.mem a)

/-! ## Queues, entries and packets (R182 to R218) -/

/-- QDB_PUSH: a write of W advances WPTR to W where the ring has room; a push of a GUILTY or a full queue sets GREJ or FULLREJ; without
EN, on a device queue, and for 0 entries nothing happens. QCTL_WRITE by the driver: fields other than EN take a write only while EN = 0
and BUSY = 0, LOG2SZ only 4 to 15, nothing while RESETTING, and a rising EN clears pointers, flags, CAUSE and GUILTY. GCLR, CEVCTL_WRITE
and CEVPTR_WRITE likewise (R184, R186, R216 to R218, R348).
Where the condition of a command does not hold the state stands. The model's choices in it: log entries 8, 41 and 48. -/
def Obligations.QueueRegistersRun : Prop :=
  ∀ (s : State) (q : QId) (x : CtxId) (v : BitVec 32) (view : View),
    (let k := getQueue s q.val
     let n := (v.extractLsb' 0 16 - k.wptr).toNat
     ∃ t, exec (.qdbPush q v) s = .next t ∧ SetsQueue s t q.val (
       if qEn k = false ∨ qDev k = true ∨ n = 0 then k
       else if k.guilty then { k with grej := true }
       else if qDepth k + n ≤ qSize k then { k with wptr := v.extractLsb' 0 16 }
       else { k with fullrej := true })) ∧
    (∃ t, exec (.gclr q) s = .next t ∧
      SetsQueue s t q.val { getQueue s q.val with guilty := (getQueue s q.val).guilty && (getQueue s q.val).resetting }) ∧
    (if view = (if s.host.drv then .pcie else .mason) ∧ s.rst.done = true then
      (∃ t k', exec (.qctlWrite q view v) s = .next t ∧ SetsQueue s t q.val k' ∧
        let k := getQueue s q.val
        (k.resetting = true → k' = k) ∧
        (k.resetting = false → bt k'.ctl 31 = bt v 31 ∧
          (if qEn k = false ∧ qBusy k = false then bf k'.ctl 30 28 = bf v 30 28 ∧ bf k'.ctl 23 0 = bf v 23 0 ∧
              bf k'.ctl 27 24 = (if 4 ≤ bf v 27 24 then bf v 27 24 else bf k.ctl 27 24)
            else bf k'.ctl 30 0 = bf k.ctl 30 0) ∧
          (if qEn k = false ∧ bt v 31 = true then
              k' = { k with ctl := k'.ctl, rptr := 0, wptr := 0, fullrej := false, grej := false, cause := 0, guilty := false }
            else k' = { k with ctl := k'.ctl }))) ∧
      ∃ t k', exec (.cevctlWrite x view v) s = .next t ∧ SetsCtx s t x.val k' ∧
        let k := getCtx s x.val
        bt k'.cevctl 31 = bt v 31 ∧ bf k'.cevctl 11 0 = bf v 11 0 ∧ bt k'.cevctl 30 = (bt k.cevctl 30 && !bt v 30) ∧
        bf k'.cevctl 27 24 = (if bt k.cevctl 31 = false ∧ 4 ≤ bf v 27 24 ∧ bf v 27 24 ≤ 12 then bf v 27 24 else bf k.cevctl 27 24) ∧
        k' = { k with cevctl := k'.cevctl, cevptr := if bt k.cevctl 31 = false ∧ bt v 31 = true then 0 else k.cevptr }
    else exec (.qctlWrite q view v) s = .next s ∧ exec (.cevctlWrite x view v) s = .next s) ∧
    (if view = (if s.host.drv then .pcie else .mason) then
      ∃ t k', exec (.cevptrWrite x view v) s = .next t ∧ SetsCtx s t x.val k' ∧
        let k := getCtx s x.val
        k' = { k with cevptr := k'.cevptr } ∧ bf k'.cevptr 31 16 = bf k.cevptr 31 16 ∧
        bf k'.cevptr 15 0 = (if (bf k.cevptr 31 16 + 65536 - bf v 15 0) % 65536 ≤ 2 ^ bf k.cevctl 27 24 then bf v 15 0 else bf k.cevptr 15 0)
    else exec (.cevptrWrite x view v) s = .next s)

/-- QUEUE_POP takes the queue of the most urgent PRIO, in turn: the entry at RPTR is read, RPTR advances, and the entry runs, a launch
with its version pinned and REFCNT and LAUNCHES raised by 1; an entry that fails its checks, or cannot be read, makes the queue GUILTY
(R185, R188, R189, R207, R213, R219). -/
def Obligations.EntriesPop : Prop :=
  ∀ (s s1 : State) (q : Nat) (r : Reply) (c : Code) (bs : List Byte), tabWf {} s.queues = true → PopsNext s q →
    let k := getQueue s q
    let run := freshRun bs (decide (c = St.ok)) k.rptr s.plumb.count
    let after (u : State) : State := setQueue { u with lastPop := tset 16383 s.lastPop (qPrio k) q } q { k with rptr := k.rptr + 1, run := some run }
    hubRead s (qCtx k) 2 (BitVec.ofNat 64 (bf k.base 63 12 * 4096 + 64 * (k.rptr.toNat % qSize k))) 64 r = ⟨c, bs, s1⟩ →
    (c = St.ok → entryOk k bs = true → enKind bs = 1 → exec (.queuePop r) s = .next (after s1)) ∧
    (c = St.ok → entryOk k bs = false → ∃ t, exec (.queuePop r) s = .next t ∧ (k.resetting = false →
      TurnsGuilty (after s1) t q St.cmdReserved (some ⟨St.cmdReserved, 0xFFFF, 0xFFFFFFFF, 0, []⟩))) ∧
    (c ≠ St.ok → c ≠ St.migratePending → ∃ t, exec (.queuePop r) s = .next t ∧ (k.resetting = false →
      TurnsGuilty (after s1) t q c (some ⟨c, 0xFFFF, 0xFFFFFFFF, 0, []⟩))) ∧
    ∀ s2 s3 s4 s5 s6 hb rb b5 b6, c = St.ok → entryOk k bs = true → enKind bs = 2 → launchProbe s1 k bs = (false, s2) →
      hubRead (after s2) (qCtx k) 2 (BitVec.ofNat 64 (enAddr bs)) 64 .home = ⟨St.ok, hb, s3⟩ → fieldLe hb 12 1 = 1 →
      hubRead s3 (qCtx k) 2 (BitVec.ofNat 64 (fieldLe hb 0 8) + 12) 4 .home = ⟨St.ok, rb, s4⟩ →
      hubWrite s4 (qCtx k) 2 (BitVec.ofNat 64 (fieldLe hb 0 8) + 12) .both (toLe 4 (leNat rb + 1)) .home = ⟨St.ok, b5, s5⟩ →
      hubWrite s5 (qCtx k) 2 (BitVec.ofNat 64 (enAddr bs) + 16) .both (toLe 8 (fieldLe hb 16 8 + 1)) .home = ⟨St.ok, b6, s6⟩ →
      ∃ t, exec (.queuePop r) s = .next t ∧ SetsQueue s6 t q { k with rptr := k.rptr + 1, run := some { run with
        handle := BitVec.ofNat 64 (enAddr bs), image := BitVec.ofNat 64 (fieldLe hb 0 8), verno := BitVec.ofNat 32 (fieldLe hb 8 4), pinned := true } }

/-- ENTRY_START copies CLEN bytes from CONST to the constant copy area, then starts the buffer as node 0, or reads the nodes and edges of
the pinned version. NODE_READY starts the node of the lowest index whose incoming edges are met (R190, R191, R207, R208). -/
def Obligations.EntriesStart : Prop :=
  ∀ (s : State) (q : QId) (e : EntryRun) (r : Reply), (getQueue s q.val).run = some e → (getQueue s q.val).resetting = false →
    (∀ bs b2 s1 s2, e.started = false →
      hubRead s (qCtx (getQueue s q.val)) 2 (BitVec.ofNat 64 (enConst e.raw)) (enClen e.raw) r = ⟨St.ok, bs, s1⟩ →
      hubWrite s1 (qCtx (getQueue s q.val)) 2 (BitVec.ofNat 64 (bf (getQueue s q.val).cst 63 12 * 4096)) .write bs .home = ⟨St.ok, b2, s2⟩ →
      (enKind e.raw = 1 → runningBuffers s < 4096 → ∃ t, exec (.entryStart q r) s = .next t ∧
        SetsQueue { s2 with epochDue := true } t q.val { getQueue s q.val with run := some { e with
          started := true, nodes := [{ pendingNode 0 (BitVec.ofNat 64 (enAddr e.raw)) (enLen e.raw) 0 ((enFlags e.raw).testBit 0) with
            st := if enLen e.raw = 0 then .done else .running }] } }) ∧
      ∀ hd rest s3 s4, enKind e.raw ≠ 1 → hubRead s2 (qCtx (getQueue s q.val)) 2 e.image 64 .home = ⟨St.ok, hd, s3⟩ →
        hubRead s3 (qCtx (getQueue s q.val)) 2 (e.image + 64) (32 * fieldLe hd 0 2 + 8 * fieldLe hd 4 4) .home = ⟨St.ok, rest, s4⟩ →
        ∃ t, exec (.entryStart q r) s = .next t ∧ SetsQueue s4 t q.val { getQueue s q.val with run := some { e with
          started := true, nodes := (List.range (fieldLe hd 0 2)).map (nodeFrom (hd ++ rest)),
          edges := (List.range (fieldLe hd 4 4)).map (edgeFrom (hd ++ rest) (fieldLe hd 0 2)) } }) ∧
    ∀ n ∈ e.nodes, (e.nodes.map NodeRun.idx).Pairwise (· < ·) → n.st = .pending → runningBuffers s < 4096 →
      (∀ a b start, (a, b, start) ∈ e.edges → b = n.idx → ∀ m ∈ e.nodes, m.idx = a → if start then m.first = true else m.st = .done) →
      (∀ m ∈ e.nodes, nodeMet e m = true → n.idx ≤ m.idx) →
      ∃ t, exec (.nodeReady q n.idx) s = .next t ∧ NodeBecomes s t q.val n.idx (nodeBegun n)

/-- ENTRY_COMPLETE: an entry whose nodes are all done leaves its queue, after the release flush, whose lines for other packages have been
performed there, the completion record at CREC and the ADD of 1 to SIG. HANG_DETECT: an entry whose hang time exceeds HANG_MS makes its queue GUILTY. QUEUE_RESET_FINISH: the ring is
discarded, the entry leaves, RESETTING ends and GUILTY stays (R209, R212, R214, R216).
Where the condition of a command does not hold the state stands. The model's choices in it: log entries 8 and 42. -/
def Obligations.EntriesEnd : Prop :=
  ∀ (s s1 : State) (q : QId) (e : EntryRun), (getQueue s q.val).run = some e →
    (e.started = true → (getQueue s q.val).resetting = false → (∀ n ∈ e.nodes, n.st = .done) →
      hubProbe (qCtx (getQueue s q.val)) (endAccesses e (enCrec e.raw) (enSig e.raw)) s = (false, s1) →
      backsOut (flushPass s1 (qCtx (getQueue s q.val))) (qCtx (getQueue s q.val)) = false →
      (∃ t, exec (.entryComplete q) s = .next t ∧ EndsQueue s t q.val { getQueue s q.val with run := none }) ∧
      ∀ b2 b3 s2 s3, e.pinned = false → enIrq e.raw = false → enCrec e.raw ≠ 0 → enSig e.raw ≠ 0 →
        hubWrite (flushPass s1 (qCtx (getQueue s q.val))) (qCtx (getQueue s q.val)) 2 (BitVec.ofNat 64 (enCrec e.raw)) .write
          (recordBytes s e St.ok St.ok none) .home = ⟨St.ok, b2, s2⟩ →
        hubAtomic s2 (qCtx (getQueue s q.val)) 2 (BitVec.ofNat 64 (enSig e.raw)) 8 0 1 0 .home = ⟨St.ok, b3, s3⟩ →
        ∃ t, exec (.entryComplete q) s = .next t ∧ SetsQueue s3 t q.val { getQueue s q.val with run := none }) ∧
    ((getQueue s q.val).resetting = false → bf (getQueue s q.val).hang 15 0 ≠ 0 → bf (getQueue s q.val).hang 15 0 * 1000000 < e.hang →
      ∃ t, exec (.hangDetect q) s = .next t ∧
        TurnsGuilty s t q.val St.queueGuilty (some ⟨St.queueGuilty, 0xFFFF, 0xFFFFFFFF, 0, []⟩)) ∧
    (bf (getQueue s q.val).hang 15 0 = 0 ∨ e.hang ≤ bf (getQueue s q.val).hang 15 0 * 1000000 → exec (.hangDetect q) s = .next s) ∧
    ((getQueue s q.val).resetting = true → (∀ g ∈ s.gangs, g.queue ≠ q.val) → (∀ n ∈ e.nodes, ∀ p ∈ n.pkts, p.st = .done) →
      (let crec := if e.readable = false ∨ (e.checkFailed = true ∧ enCrec e.raw % 64 ≠ 0) then 0 else enCrec e.raw
       let sig := if e.readable = false ∨ (e.checkFailed = true ∧ enSig e.raw % 8 ≠ 0) then 0 else enSig e.raw
       hubProbe (qCtx (getQueue s q.val)) (endAccesses e crec sig) s = (false, s1)) →
      backsOut (flushPass s1 (qCtx (getQueue s q.val))) (qCtx (getQueue s q.val)) = false →
      ∃ t, exec (.queueResetFinish q) s = .next t ∧
        EndsQueue s t q.val { getQueue s q.val with rptr := (getQueue s q.val).wptr, run := none, resetting := false })

/-- PACKET_ISSUE: the packet at the head of issue that passes its checks and that nothing holds back issues, with its slot named; one
that is held back stays at the head; a DISPATCH with a release instant begins to wait for its cores as soon as it stands there; one that
fails its checks makes the queue GUILTY with CMD_RESERVED. PACKET_NOP and PACKET_COMPLETE post the slot and end the node after its last
packet, a DISPATCH's once the lines that its flush sends to other packages are performed there; a code outside R210 makes the queue
GUILTY (R191 to R195, R210, R211, R213, R225).
The model's choices in it: log entries 44 and 73. -/
def Obligations.PacketsIssueAndComplete : Prop :=
  ∀ (s : State) (q : QId) (node : Nat),
    (∀ s1 e n r p, AtHead s s1 q.val node e n r p →
      (packetOk s1 q.val n p = false → ∃ t, exec (.packetIssue q node r) s = .next t ∧
        TurnsGuilty s1 t q.val St.cmdReserved (some ⟨St.cmdReserved, BitVec.ofNat 16 node, BitVec.ofNat 32 n.next, 0, []⟩)) ∧
      (let issued (st : PktSt) : NodeRun := { n with
          next := n.next + 64 * phUnits p, first := true, headAt := none, named := if phSlot p = 0 then n.named else sb n.named (phSlot p) true,
          pkts := n.pkts ++ [⟨n.next, BitVec.ofNat 8 (phOp p), phSlot p, p, n.headAt.getD s.now, st, s.now⟩] }
       let held : NodeRun := { n with headAt := some (n.headAt.getD s.now) }
       packetOk s1 q.val n p = true →
        (phOp p ≠ 1 ∨ releaseOf e n p = none →
          (MayIssue s e n p → ∃ t, exec (.packetIssue q node r) s = .next t ∧ NodeBecomes s1 t q.val node (issued .issued)) ∧
          (¬ MayIssue s e n p → ∃ t, exec (.packetIssue q node r) s = .next t ∧ NodeBecomes s1 t q.val node held)) ∧
        ∀ a, phOp p = 1 → releaseOf e n p = some a →
          ∃ t g, exec (.packetIssue q node r) s = .next t ∧ g.id = s1.nextGang ∧ g.st = .waiting ∧ g.release = some a ∧
            g.queue = q.val ∧ g.node = node ∧ g.off = n.next ∧ g.want = fieldLe p 24 2 + 1 ∧ g.cores = [] ∧
            (MayIssue s e n p →
              NodeBecomes { s1 with gangs := s1.gangs ++ [g], nextGang := s1.nextGang + 1 } t q.val node (issued (.dispatched g.id))) ∧
            (¬ MayIssue s e n p →
              NodeBecomes { s1 with gangs := s1.gangs ++ [g], nextGang := s1.nextGang + 1 } t q.val node held))) ∧
    ∀ off p n, nodeOf s q.val node = some n → n.st = .running → (getQueue s q.val).resetting = false →
      (PacketIs s q.val node off 0 .issued p → ∃ t, exec (.packetNop q node off) s = .next t ∧
        NodeBecomes s t q.val node (packetEnded n off p.slot)) ∧
      ∀ op c, PacketIs s q.val node off op (.performed c) p →
        (op = 1 → backsOut (flushPass s (qCtx (getQueue s q.val))) (qCtx (getQueue s q.val)) = false) →
        (pktFaulty op c = false → ∃ t, exec (.packetComplete q node off) s = .next t ∧
          NodeBecomes (if op = 1 then flushPass s (qCtx (getQueue s q.val)) else s) t q.val node (packetEnded n off p.slot)) ∧
        (pktFaulty op c = true → ∃ t, exec (.packetComplete q node off) s = .next t ∧ (getQueue t q.val).guilty = true ∧
          (getQueue t q.val).resetting = true ∧ (getQueue t q.val).cause = c ∧ ∀ d, d ≠ q.val → getQueue t d = getQueue s d)

/-- DISPATCH begins to wait for its cores; WRITE stores its data and SIGNAL performs its atomic, each performed with the code of the
access; WAITMEM waits, and WAITMEM_EVALUATE completes it when its condition holds and makes the entry hung at its deadline; ENQ and
ENQ_RETRY push one entry onto a device queue, of two the earlier first, and write it into the slot taken and the code into RES, or report
QUEUE_FULL, retry, or report QUEUE_GUILTY (R187, R196 to R199, R201, R222).
The model's choices in it: log entries 6 and 80. -/
def Obligations.PacketEffectsRun : Prop :=
  ∀ (s : State) (q : QId) (node off : Nat) (r : Reply) (p : PktRun),
    (∀ e, PacketIs s q.val node off 1 .issued p → (getQueue s q.val).run = some e → ∃ t g, exec (.dispatch q node off) s = .next t ∧
      PacketBecomes { s with gangs := s.gangs ++ [g], nextGang := s.nextGang + 1 } t q.val node off (.dispatched s.nextGang) ∧
      g.id = s.nextGang ∧ g.queue = q.val ∧ g.ctx = qCtx (getQueue s q.val) ∧ g.node = node ∧ g.off = off ∧ g.st = .waiting ∧
      g.want = fieldLe p.raw 24 2 + 1 ∧ g.entry = BitVec.ofNat 64 (fieldLe p.raw 16 8) ∧ g.release = none ∧
      g.sregs.map Prod.fst = [1, 3, 4, 5, 6, 7]) ∧
    (∀ c b s1, PacketIs s q.val node off 2 .issued p → c ≠ St.migratePending →
      hubWrite s (qCtx (getQueue s q.val)) 2 (BitVec.ofNat 64 (fieldLe p.raw 16 8)) .write (slice p.raw 32 (fieldLe p.raw 24 2)) r = ⟨c, b, s1⟩ →
      ∃ t, exec (.write q node off r) s = .next t ∧ PacketBecomes s1 t q.val node off (.performed c)) ∧
    (∀ c b s1, PacketIs s q.val node off 3 .issued p → c ≠ St.migratePending →
      hubAtomic s (qCtx (getQueue s q.val)) 2 (BitVec.ofNat 64 (fieldLe p.raw 16 8)) 8 (fieldLe p.raw 24 1) (fieldLe p.raw 32 8)
        (fieldLe p.raw 40 8) r = ⟨c, b, s1⟩ →
      ∃ t, exec (.signal q node off r) s = .next t ∧ PacketBecomes s1 t q.val node off (.performed c)) ∧
    (PacketIs s q.val node off 4 .issued p → ∃ t, exec (.waitmem q node off r) s = .next t ∧ PacketBecomes s t q.val node off .waiting) ∧
    (∀ c d s1, PacketIs s q.val node off 4 .waiting p →
      (let n := if (fieldLe p.raw 24 1).testBit 3 then 8 else 4
       hubFlag s (qCtx (getQueue s q.val)) 2 (BitVec.ofNat 64 (fieldLe p.raw 16 8)) n r = ⟨c, d, s1⟩ →
       let holds := condHolds (fieldLe p.raw 24 1 % 8) (8 * n) (leNat d) (fieldLe p.raw 32 8)
       (c ≠ St.ok → c ≠ St.migratePending → ∃ t, exec (.waitmemEvaluate q node off r) s = .next t ∧ PacketBecomes s1 t q.val node off (.performed c)) ∧
       (c = St.ok → holds = true → ∃ t, exec (.waitmemEvaluate q node off r) s = .next t ∧
         PacketBecomes s1 t q.val node off (.performed St.ok)) ∧
       (c = St.ok ∧ holds = false ∨ c = St.migratePending → if fieldLe p.raw 40 8 = 0 ∨ s.plumb.count.toNat < fieldLe p.raw 40 8 then
           exec (.waitmemEvaluate q node off r) s = .next s1
         else ∃ t, exec (.waitmemEvaluate q node off r) s = .next t ∧ ((getQueue s q.val).resetting = false →
           TurnsGuilty s1 t q.val St.queueGuilty (some ⟨St.queueGuilty, BitVec.ofNat 16 node, BitVec.ofNat 32 off, 0, []⟩))))) ∧
    ∀ i ∈ [(Instr.enq q node off r, PktSt.issued), (.enqRetry q node off r, .retrying)], PacketIs s q.val node off 7 i.2 p →
      let x := qCtx (getQueue s q.val)
      let k := getQueue s (fieldLe p.raw 16 2)
      let res := BitVec.ofNat 64 (fieldLe p.raw 24 8)
      let slot := BitVec.ofNat 64 (bf k.base 63 12 * 4096 + 64 * (k.wptr.toNat % qSize k))
      (enqTarget s (fieldLe p.raw 16 2) x = false → ∃ t, exec i.1 s = .next t ∧ PacketBecomes s t q.val node off (.performed St.cmdReserved)) ∧
      ∀ s1, enqTarget s (fieldLe p.raw 16 2) x = true → hubProbe x ((slot, .write) :: (if res = 0 then [] else [(res, .write)])) s = (false, s1) →
        (k.guilty = true → res = 0 → ∃ t, exec i.1 s = .next t ∧
          PacketBecomes (setQueue s1 (fieldLe p.raw 16 2) { k with grej := true }) t q.val node off (.performed St.queueGuilty)) ∧
        (k.guilty = false → qSize k < qDepth k + 1 → res = 0 → ∃ t, exec i.1 s = .next t ∧
          PacketBecomes (setQueue s1 (fieldLe p.raw 16 2) { k with fullrej := true }) t q.val node off
            (if fieldLe p.raw 18 1 = 1 then .retrying else .performed St.queueFull)) ∧
        ∀ c b s2, k.guilty = false → qDepth k + 1 ≤ qSize k → enqFirst s (fieldLe p.raw 16 2) q.val node off p.since = false →
          c ≠ St.migratePending →
          hubWrite (setQueue s1 (fieldLe p.raw 16 2) { k with wptr := k.wptr + 1 }) x 2 slot .write (slice p.raw 64 64) r = ⟨c, b, s2⟩ →
          (res = 0 → ∃ t, exec i.1 s = .next t ∧ PacketBecomes s2 t q.val node off (.performed c)) ∧
          ∀ w b3 s3, res ≠ 0 → w ≠ St.migratePending → hubWrite s2 x 2 res .write (toLe 4 c.toNat) .home = ⟨w, b3, s3⟩ →
            ∃ t, exec i.1 s = .next t ∧ PacketBecomes s3 t q.val node off (.performed (if c = St.ok then w else c))

/-! ## Pools and graphs (R200, R202 to R206, R240 to R244) -/

/-- POOLCTL_WRITE enables and disables a pool; POOL_ENABLE_DONE writes the metadata area and sets FREE, or ends the enable at a
fault; POOL_ALLOC and POOL_FREE join their pool, or end at once where it has closed; POOL_EPOCH_END grants an allocation from
the top of the free stack, and one that finds too few blocks reports POOL_EMPTY or, with WAIT set, is carried (R200, R241, R242,
R244). Where the condition of a command does not hold the state stands. The model's choices in it: log entries 8, 46 and 89. -/
def Obligations.PoolsServe : Prop :=
  ∀ (s : State) (p : PoolId),
    (∀ (view : View) (v : BitVec 32),
      if view = (if s.host.drv then .pcie else .mason) ∧ s.rst.done = true then
        ∃ t k', exec (.poolctlWrite p view v) s = .next t ∧ SetsPool s t p.val k' ∧
          let k := getPool s p.val
          (k.busy = true → k' = k) ∧
          (k.busy = false → plEn k = true → k' = if bt v 31 then k else { k with ctl := sb k.ctl 31 false, busy := true, closing := true }) ∧
          (k.busy = false → plEn k = false → bt k'.ctl 31 = bt v 31 ∧ bf k'.ctl 28 24 = bf v 28 24 ∧ bf k'.ctl 23 12 = bf v 23 12 ∧
            k' = { k with ctl := k'.ctl, busy := bt v 31 })
      else exec (.poolctlWrite p view v) s = .next s) ∧
    (let k := getPool s p.val
     (¬ (k.busy = true ∧ plEn k = true ∧ k.closing = false) → exec (.poolEnableDone p) s = .next s) ∧
     ∀ c b s1 s2, k.busy = true → plEn k = true → k.closing = false →
       hubProbe (plCtx k) (linesOf (BitVec.ofNat 64 (plMeta k)) (freshMeta (plN k)).length .both) s = (false, s1) →
       hubWrite s1 (plCtx k) 2 (BitVec.ofNat 64 (plMeta k)) .both (freshMeta (plN k)) .home = ⟨c, b, s2⟩ →
       (c = St.ok → ∃ t, exec (.poolEnableDone p) s = .next t ∧
         SetsPool s2 t p.val { k with busy := false, free := BitVec.ofNat 21 (plN k) }) ∧
       (c ≠ St.ok → ∃ t, exec (.poolEnableDone p) s = .next t ∧
         getPool t p.val = { k with ctl := sb k.ctl 31 false, busy := false, free := 0 } ∧ ∀ d, d ≠ p.val → getPool t d = getPool s d)) ∧
    (∀ (q : QId) (node off : Nat) (r : PktRun) (alloc : Bool), PacketIs s q.val node off (if alloc then 5 else 6) .issued r →
      let i := if alloc then Instr.poolAlloc q node off else .poolFree q node off
      let n := fieldLe r.raw 16 1
      let k := getPool s n
      if k.busy = true ∧ k.closing = false then exec i s = .next s
      else if plEn k = false ∧ k.closing = false then BitVec.ofNat 64 (fieldLe r.raw 32 8) = 0 → ∃ t, exec i s = .next t ∧
        PacketBecomes s t q.val node off (.performed (if alloc then St.poolEmpty else St.cmdReserved))
      else ∃ t, exec i s = .next t ∧ PacketBecomes (setPool s n { k with reqs := k.reqs ++ [⟨q.val, node, off, alloc,
          decide (fieldLe r.raw 17 1 = 1), fieldLe r.raw 18 2, BitVec.ofNat 64 (fieldLe r.raw 24 8), BitVec.ofNat 64 (fieldLe r.raw 32 8),
          r.issued, r.since⟩] }) t q.val node off .pooled) ∧
    (¬ EpochEnds s → (∀ i ∈ s.pools, i.2.steps = []) → exec .poolEpochEnd s = .next s) ∧
    ∀ (k : Pool) (r : PoolReq) (s1 : State), EpochEnds s → s.pools = [(p.val, k)] → k.reqs = [r] → k.steps = [] → k.closing = false →
      r.alloc = true → r.res = 0 →
      poolProbe { s with epochDue := false, poolEpoch := s.now, pools := [(p.val, { k with steps := [(1, false)] })] } k [r] = (false, s1) →
      (k.free.toNat < r.count → r.wait = true → ∃ t, exec .poolEpochEnd s = .next t ∧ getPool t p.val = k ∧ t.queues = s.queues) ∧
      (k.free.toNat < r.count → r.wait = false → ∃ t, exec .poolEpochEnd s = .next t ∧ getPool t p.val = { k with reqs := [] } ∧
        pktOf t r.queue r.node r.off = (pktOf s r.queue r.node r.off).map fun x => { x with st := .performed St.poolEmpty }) ∧
      ∀ d m b b4 b5 s2 s3 s4 s5, r.count = 1 → 1 ≤ k.free.toNat →
        hubReadBoth s1 (plCtx k) 2 (stackAt k (k.free.toNat - 1)) 4 .home = ⟨St.ok, d, s2⟩ →
        hubReadBoth s2 (plCtx k) 2 (mapAt k (leNat d)) 1 .home = ⟨St.ok, m, s3⟩ →
        hubWrite s3 (plCtx k) 2 (mapAt k (leNat d)) .both [sb (BitVec.ofNat 8 (leNat m)) (leNat d % 8) true] .home = ⟨St.ok, b4, s4⟩ →
        hubWrite (setPool s4 p.val { k with steps := [(1, false)], free := k.free - 1 }) (plCtx k) 2 r.addr .write (toLe 8 (plBase k + leNat d * plSize k)) .home =
          ⟨b, b5, s5⟩ → b ≠ St.migratePending →
        ∃ t, exec .poolEpochEnd s = .next t ∧ getPool t p.val = { k with free := k.free - 1, reqs := [] } ∧
          pktOf t r.queue r.node r.off = (pktOf s r.queue r.node r.off).map fun x => { x with st := .performed b }

/-- GINIT checks an image and makes its handle LIVE at version 1; GPATCH copies the current image to DST, applies the patches there and
switches the handle to it, freeing a version that no launch holds; GRETIRE sets STATE to RETIRED. A handle in another state gives
CMD_RESERVED, and the handle stands (R203 to R206).
The model's choices in it: log entry 6. -/
def Obligations.GraphsChange : Prop :=
  ∀ (s s1 s2 : State) (q : QId) (node off : Nat) (p : PktRun) (hb : List Byte),
    let x := qCtx (getQueue s q.val)
    let h := BitVec.ofNat 64 (fieldLe p.raw 16 8)
    let a := BitVec.ofNat 64 (fieldLe p.raw 24 8)
    (PacketIs s q.val node off 8 .issued p → hubProbe x [(h, .both), (a, .both)] s = (false, s1) →
      hubRead s1 x 2 h 64 .home = ⟨St.ok, hb, s2⟩ →
      (fieldLe hb 12 1 = 1 → ∃ t, exec (.ginit q node off) s = .next t ∧ PacketBecomes s2 t q.val node off (.performed St.cmdReserved)) ∧
      (∀ c img s3, fieldLe hb 12 1 ≠ 1 → readImage s2 x a = ⟨c, img, s3⟩ → c ≠ St.ok → c ≠ St.migratePending →
        ∃ t, exec (.ginit q node off) s = .next t ∧ PacketBecomes s3 t q.val node off (.performed c)) ∧
      ∀ img s3, fieldLe hb 12 1 ≠ 1 → readImage s2 x a = ⟨St.ok, img, s3⟩ →
        (imageOk img = false → ∃ t, exec (.ginit q node off) s = .next t ∧
          PacketBecomes s3 t q.val node off (.performed St.cmdReserved)) ∧
        ∀ c b4 b5 s4 s5, imageOk img = true →
          hubWrite s3 x 2 (a + 8) .both (toLe 4 1 ++ toLe 4 0 ++ toLe 8 h.toNat) .home = ⟨St.ok, b4, s4⟩ →
          hubWrite s4 x 2 h .both (toLe 8 a.toNat ++ toLe 4 1 ++ toLe 4 1 ++ toLe 8 0 ++ toLe 40 0) .home = ⟨c, b5, s5⟩ → c ≠ St.migratePending →
          ∃ t, exec (.ginit q node off) s = .next t ∧ PacketBecomes s5 t q.val node off (.performed c)) ∧
    (PacketIs s q.val node off 9 .issued p → hubProbe x ((h, .both) :: linesOf a (32 * fieldLe p.raw 32 2) .read) s = (false, s1) →
      hubRead s1 x 2 h 64 .home = ⟨St.ok, hb, s2⟩ →
      (fieldLe hb 12 1 ≠ 1 → ∃ t, exec (.gpatch q node off) s = .next t ∧ PacketBecomes s2 t q.val node off (.performed St.cmdReserved)) ∧
      ∀ img s3, fieldLe hb 12 1 = 1 → readImage s2 x (BitVec.ofNat 64 (fieldLe hb 0 8)) = ⟨St.ok, img, s3⟩ →
        let dst := BitVec.ofNat 64 (fieldLe p.raw 40 8)
        (dst.toNat < fieldLe hb 0 8 + img.length ∧ fieldLe hb 0 8 < dst.toNat + img.length → ∃ t, exec (.gpatch q node off) s = .next t ∧
          PacketBecomes s3 t q.val node off (.performed St.cmdReserved)) ∧
        ∀ c b5 s4 s5 s6, ¬ (dst.toNat < fieldLe hb 0 8 + img.length ∧ fieldLe hb 0 8 < dst.toNat + img.length) →
          hubProbe x (linesOf dst img.length .both) s3 = (false, s4) → hubWrite s4 x 2 dst .both img .home = ⟨St.ok, b5, s5⟩ →
          applyPatches x a dst (fieldLe img 0 2) (List.range (fieldLe p.raw 32 2)) s5 = (c, s6) →
          (c ≠ St.ok → c ≠ St.migratePending →
            ∃ t, exec (.gpatch q node off) s = .next t ∧ PacketBecomes s6 t q.val node off (.performed c)) ∧
          ∀ b7 b8 s7 s8, c = St.ok →
            hubWrite s6 x 2 (dst + 8) .both (toLe 4 ((fieldLe hb 8 4 + 1) % 2 ^ 32) ++ toLe 4 0 ++ toLe 8 h.toNat) .home = ⟨St.ok, b7, s7⟩ →
            hubWrite s7 x 2 h .both (toLe 8 dst.toNat ++ toLe 4 ((fieldLe hb 8 4 + 1) % 2 ^ 32)) .home = ⟨St.ok, b8, s8⟩ →
            (fieldLe img 12 4 ≠ 0 → ∃ t, exec (.gpatch q node off) s = .next t ∧ PacketBecomes s8 t q.val node off (.performed St.ok)) ∧
            (fieldLe img 12 4 = 0 → ∃ t u, exec (.gpatch q node off) s = .next t ∧ PacketBecomes s8 u q.val node off (.performed St.ok) ∧
              t = event u x (eventBytes u 2 St.ok 0xFFFF 0 (BitVec.ofNat 64 (fieldLe hb 0 8)) 0))) ∧
    (PacketIs s q.val node off 10 .issued p → hubProbe x [(h, .both)] s = (false, s1) → hubRead s1 x 2 h 64 .home = ⟨St.ok, hb, s2⟩ →
      (fieldLe hb 12 1 ≠ 1 → ∃ t, exec (.gretire q node off) s = .next t ∧ PacketBecomes s2 t q.val node off (.performed St.cmdReserved)) ∧
      ∀ rb b4 s3 s4, fieldLe hb 12 1 = 1 → hubRead s2 x 2 (BitVec.ofNat 64 (fieldLe hb 0 8) + 12) 4 .home = ⟨St.ok, rb, s3⟩ →
        hubWrite s3 x 2 (h + 12) .both [2] .home = ⟨St.ok, b4, s4⟩ →
        (leNat rb ≠ 0 → ∃ t, exec (.gretire q node off) s = .next t ∧ PacketBecomes s4 t q.val node off (.performed St.ok)) ∧
        (leNat rb = 0 → ∃ t u, exec (.gretire q node off) s = .next t ∧ PacketBecomes s4 u q.val node off (.performed St.ok) ∧
          t = event u x (eventBytes u 2 St.ok 0xFFFF 0 (BitVec.ofNat 64 (fieldLe hb 0 8)) 0)))

/-! ## The scheduler (R219 to R239) -/

/-- CORE_GRANT: the DISPATCH that is served next is granted the cores chosen for it. TIMED_PREPARE: a timed one has them granted and
set up, with its rank in s2 and its entry address in pc, one that lost a prepared core another for that rank. TIMED_RELEASE: from its
instant on, with every rank prepared, the packet issues, if it has not yet, and every kernel runs; before it nothing happens. PREEMPT: a
victim that has issued no instruction waits again, and another takes image slots and stops, if its cores suffice (R222, R223, R225 to
R230).
Where the condition of a command does not hold the state stands. The model's choices in it: log entries 8, 44 and 45. -/
def Obligations.GangsRun : Prop :=
  ∀ (s : State) (g : Nat) (x : Gang),
    (ServedNext s x → x.st = .waiting → x.release = none →
      (∀ cs, chooseCores s x.ctx x.want = some cs → ∃ t, exec .coreGrant s = .next t ∧ Placed s t x cs .granted .granted) ∧
      (chooseCores s x.ctx x.want = none → exec .coreGrant s = .next s)) ∧
    (ServedNext s x → x.id = g → x.st = .waiting ∨ x.st = .prepared → x.release ≠ none →
      (chooseCores s x.ctx (openRanks x).length = none → exec (.timedPrepare g) s = .next s) ∧
      ∀ cs, chooseCores s x.ctx (openRanks x).length = some cs → ∃ t, exec (.timedPrepare g) s = .next t ∧
        t.gangs = (s.gangs.map fun y => if y.id = g then { x with st := .prepared, cores := x.cores ++ (openRanks x).zip cs } else y) ∧
        (∀ c, c ∉ cs → getCore t c = getCore s c) ∧
        ∀ p ∈ (openRanks x).zip cs, (getCore t p.2).phase = .prepared ∧ (getCore t p.2).gang = some g ∧ (getCore t p.2).ctx = x.ctx ∧
          (getCore t p.2).regs.pc = x.entry ∧ sreg (getCore t p.2) 2 = BitVec.ofNat 64 p.1 ∧
          ((getCore s p.2).lastCtx ≠ some x.ctx → (getCore t p.2).mem.acc = [])) ∧
    (∀ T n, gangOf s g = some x → x.release = some T → nodeOf s x.queue x.node = some n → x.st = .prepared →
      (s.plumb.count.toNat < T.toNat ∨ openRanks x ≠ [] → exec (.timedRelease g) s = .next s) ∧
      (T.toNat ≤ s.plumb.count.toNat → openRanks x = [] → (getQueue s x.queue).resetting = false →
        (pktOf s x.queue x.node x.off = none → n.st = .running → n.next = x.off →
          (∀ i, bt (phWait x.pkt) i = true → bt n.posted i = true) → (phBar x.pkt = true → ∀ p ∈ n.pkts, p.st = .done) →
          ∃ t, exec (.timedRelease g) s = .next t ∧ gangOf t g = some { x with st := .running, started := s.now } ∧
            (∃ n', nodeOf t x.queue x.node = some n' ∧ n'.next = n.next + 64 * phUnits x.pkt ∧
              n'.pkts = n.pkts ++ [⟨n.next, BitVec.ofNat 8 (phOp x.pkt), phSlot x.pkt, x.pkt, n.headAt.getD s.now, .dispatched g, s.now⟩]) ∧
            ∀ c, getCore t c = if c ∈ x.cores.map Prod.snd then { getCore s c with phase := .running } else getCore s c) ∧
        (pktOf s x.queue x.node x.off ≠ none → ∃ t, exec (.timedRelease g) s = .next t ∧ t.queues = s.queues ∧
          gangOf t g = some { x with st := .running, started := s.now } ∧
          ∀ c, getCore t c = if c ∈ x.cores.map Prod.snd then { getCore s c with phase := .running } else getCore s c))) ∧
    (ServedNext s x → x.id = g →
      ((openRanks x).length ≤ freeCores s → exec (.preempt g) s = .next s) ∧
      ∀ v, OnlyVictim s x v → freeCores s < (openRanks x).length →
        (freeCores s + v.cores.length < (openRanks x).length → exec (.preempt g) s = .next s) ∧
        ((openRanks x).length ≤ freeCores s + v.cores.length →
          (gangBegan s v = false → ∃ t, exec (.preempt g) s = .next t ∧ t.ctxs = s.ctxs ∧
            t.gangs = (s.gangs.map fun y => if y.id = v.id then { v with st := .waiting, cores := [] } else y) ∧
            ∀ c, getCore t c = if c ∈ v.cores.map Prod.snd then coreFreed (getCore s c) else getCore s c) ∧
          (gangBegan s v = true → (liveRanks v).length ≤ (openSlots s v.ctx).length → ∃ t, exec (.preempt g) s = .next t ∧
            (let sl := (liveRanks v).zip (openSlots s v.ctx)
             t.gangs = (s.gangs.map fun y => if y.id = v.id then { v with st := .saving, slots := sl } else y) ∧
             getCtx t v.ctx = { getCtx s v.ctx with slots := (getCtx s v.ctx).slots ++ sl.map Prod.snd }) ∧
            ∀ c, getCore t c = if c ∈ v.cores.map Prod.snd then { getCore s c with phase := .saving, stop := true } else getCore s c)))

/-- CORE_SAVE_DONE writes the image of an idle core into the slot of its rank and frees the core; the gang is saved with its last core.
RESTORE places a saved gang, then reads back one image at a time; neither moves an image while its field's steering stall runs.
CORE_FAILURE: a retired core loses its kernel: a granted gang waits again, a prepared one keeps its other cores, the node of a running
one runs again where RESTARTABLE and RESTART_MAX allow, and else the queue is GUILTY. SCHEDULER_EPOCH: returning cores join the free pool
as last held by no context (R25, R175 to R178, R227, R228, R230, R234, R235, R238).
Where the condition of a command does not hold the state stands. The model's choices in it: log entries 8, 12, 44 and 45. -/
def Obligations.GangsMove : Prop :=
  ∀ (s : State) (c : Core) (g rank : Nat) (x : Gang),
    (∀ s0 s1 slot code b s2, combFlush s c.val = s0 → HoldsRank s c.val g rank x .saving → (getCore s c.val).phase = .saving →
      (getCore s c.val).fault = none → (getCore s c.val).accs = [] → enginesIdle (getCore s c.val) = true → (getCore s c.val).retired = false →
      fieldStalls s c.val = false → coreWaits s0 c.val = false → (getCore s0 c.val).fault = none →
      (∀ y ∈ s.gangs, y.want - y.ended.length ≤ coresInService s) → x.slots.find? (fun p => p.1 = rank) = some (rank, slot) →
      hubProbe x.ctx (linesOf (slotAddr s0 x.ctx slot) imageSize .both) s0 = (false, s1) →
      hubWrite s1 x.ctx (3 + 8 * c.val) (slotAddr s0 x.ctx slot) .both (imageBytes (getCore s1 c.val)) .home = ⟨code, b, s2⟩ →
      ∃ t, exec (.coreSaveDone c) s = .next t ∧
        (code ≠ St.ok → OnlyCore s2 t c.val ∧
          FaultRecorded { getCore s0 c.val with stop := false } (getCore t c.val) code 2 0 (getCore s0 c.val).regs.pc (slotAddr s0 x.ctx slot)) ∧
        (code = St.ok → x.ended.length < x.want → getCore t c.val = coreFreed (getCore s0 c.val) ∧
          (∀ d, d ≠ c.val → getCore t d = getCore s0 d) ∧
          ∃ y, gangOf t g = some y ∧ y.cores = x.cores.filter (fun p => p.2 ≠ c.val) ∧ y.slots = x.slots ∧
            y.st = if y.cores = [] then .saved else .saving)) ∧
    (ServedNext s x → gangOf s g = some x → x.st = .saved →
      (∀ cs, chooseCores s x.ctx (openRanks x).length = some cs → ∃ t, exec (.restore g) s = .next t ∧ Placed s t x cs .restoring .restoring) ∧
      (chooseCores s x.ctx (openRanks x).length = none → exec (.restore g) s = .next s)) ∧
    (∀ s1 s2 slot h img, gangOf s g = some x → x.st = .restoring → fieldStalls s c.val = false →
      x.cores.find? (fun p => (getCore s p.2).phase = .restoring) = some (rank, c.val) → x.slots.find? (fun p => p.1 = rank) = some (rank, slot) →
      x.hidden.find? (fun p => p.1 = rank) = some (rank, h) →
      hubProbe x.ctx (linesOf (slotAddr s x.ctx slot) imageSize .read) s = (false, s1) →
      hubRead s1 x.ctx (3 + 8 * c.val) (slotAddr s x.ctx slot) imageSize .home = ⟨St.ok, img, s2⟩ →
      ∃ t, exec (.restore g) s = .next t ∧
        getCore t c.val = { restoreImage (getCore s c.val) img h x.ctx s.now with phase := .running } ∧
        (∀ d, d ≠ c.val → getCore t d = getCore s d) ∧
        (getCtx t x.ctx).slots = (getCtx s2 x.ctx).slots.filter (fun n => n ≠ slot) ∧
        ∃ y, gangOf t g = some y ∧ y.cores = x.cores ∧ y.slots = x.slots.filter (fun p => p.1 ≠ rank) ∧
          y.st = if ∃ p ∈ x.cores, p.2 ≠ c.val ∧ (getCore s p.2).phase = .restoring then .restoring else .running) ∧
    (let s0 := retireIfDue s c.val
     ((getCore s0 c.val).retired = false → exec (.coreFailure c) s = .next s0) ∧
     ((getCore s0 c.val).retired = true → (getCore s0 c.val).gang = some g → gangOf s0 g = some x →
      (x.st = .granted → ∃ t, exec (.coreFailure c) s = .next t ∧
        gangOf t g = some { x with st := .waiting, cores := [] } ∧
        ∀ d, getCore t d = if d = c.val ∨ d ∈ x.cores.map Prod.snd then coreFreed (getCore s0 d) else getCore s0 d) ∧
      (x.st = .prepared → ∃ t, exec (.coreFailure c) s = .next t ∧
        gangOf t g = some { x with cores := x.cores.filter fun p => p.2 ≠ c.val } ∧
        ∀ d, getCore t d = if d = c.val then coreFreed (getCore s0 d) else getCore s0 d) ∧
      ∀ n, nodeOf s0 x.queue x.node = some n → x.st = .running → (getQueue s0 x.queue).resetting = false →
        (n.restart = true → n.redisp < bf s0.schCfg 9 8 → ∃ t n', exec (.coreFailure c) s = .next t ∧
          nodeOf t x.queue x.node = some n' ∧ (n'.st = .restarting ∨ n' = { nodeFresh n with redisp := n.redisp + 1 }) ∧
          (getQueue t x.queue).guilty = (getQueue s0 x.queue).guilty) ∧
        (n.restart = false ∨ bf s0.schCfg 9 8 ≤ n.redisp → ∃ t, exec (.coreFailure c) s = .next t ∧
          TurnsGuilty s0 t x.queue St.queueGuilty
            (some ⟨St.queueGuilty, BitVec.ofNat 16 x.node, BitVec.ofNat 32 x.off, unitId s0 2 c.val, []⟩)))) ∧
    (let n := s.plumb.count.toNat / 1000000
     (s.plumb.running = false ∨ n = s.schEpoch → exec .schedulerEpoch s = .next s) ∧
     (Canonical s → s.plumb.running = true → n ≠ s.schEpoch → s.key.test.passed = [] → s.key.test.under = none →
      (∀ d, (getDom s d).st = .waiting → (getDom s d).target = true) →
      ∃ t, exec .schedulerEpoch s = .next t ∧ t.schEpoch = n ∧
        ∀ d, getCore t d = if (getCore s d).phase = .returning
          then { getCore s d with phase := .free, lastCtx := none } else getCore s d))

/-! ## Translation, ownership and migration (R246 to R269) -/

/-- A search of a table whose starts rise ends on the last entry that starts at or below the page and hits where that entry
covers it, else XLATE_MISS. TABLE_SEARCH begins one with the table of the context, and TABLE_SEARCH_DONE fills the buffer or
keeps the fault. XCTL_INV and XCTL_EN drop every buffered entry of the context and set INVBUSY, which INVALIDATION_DONE clears.
OWNCMD takes a span and an entry, and OWNCMD_DONE writes every granule of it with no copy left in RLC or Quarry. BAR2_ACCESS
reads and writes as the window context. MIGRATION_COMPLETE makes a page LOCAL, MIGRATION_FAIL gives its code to what waits, and
MIGRATE_PENDING_RECHECK reads the map again (R249, R250, R256, R257, R259 to R261, R264, R266, R268, R269). Where the condition
of a command does not hold the state stands. The model's choices in it: log entries 6, 8, 27, 28, 84, 85 and 92. -/
def Obligations.TranslationRuns : Prop :=
  ∀ (s : State),
    (∀ d base n e vp j, TableHolds s d base n e → StartsRise n e → j < 2 ^ n → reStart (e j) ≤ vp →
      (∀ i, j < i → i < 2 ^ n → vp < reStart (e i)) →
      (search s d base n true vp).1 = (if reCovers (e j) vp then .hit j (e j) else .bad St.xlateMiss 1) ∧
        TableRead s d base n (search s d base n true vp).2) ∧
    (∀ (c : Core) (i : Nat) (a : Access), (getCore s c.val).accs[i]? = some a → a.x = .miss →
      isSearching (getCore s c.val).fetchX = false → (∀ b ∈ (getCore s c.val).accs.take i, unsettled b.x = false) →
      lbFind (getCore s c.val).rlb (getCore s c.val).ctx (a.va.toNat / 4096) = none →
      ∃ t, exec (.tableSearch (.seq c i)) s = .next t ∧ OnlyCore s t c.val ∧
        (let k := getCtx s (getCore s c.val).ctx
         let a' : Access := { a with x := .searching (bf k.rtbase 63 12 * 4096) (bf k.rtbase 3 0) (bt k.xctl 31) k.mdbase }
         getCore t c.val = { getCore s c.val with accs := (getCore s c.val).accs.set i a' })) ∧
    (∀ (c : Core) base n en md, (getCore s c.val).fetchX = .searching base n en md →
      let k := getCore s c.val
      (∀ code cause s1, searchFill s (c.val / 32) k.ctx base n en md (k.regs.pc.toNat / 4096) = (.inr (code, cause), s1) →
        ∃ t, exec (.tableSearchDone (.fetch c)) s = .next t ∧ getCore t c.val = { k with fetchX := .fault code (BitVec.ofNat 3 cause) } ∧
          (∀ d, d ≠ c.val → getCore t d = getCore s d) ∧ bt (getCtx t k.ctx).xfault0 31 = true ∧
          (bt (getCtx s k.ctx).xfault0 31 = false →
            bf (getCtx t k.ctx).xfault0 19 12 = code.toNat ∧ (getCtx t k.ctx).xfault1 = k.regs.pc)) ∧
      ∀ l x l' s1 s', searchFill s (c.val / 32) k.ctx base n en md (k.regs.pc.toNat / 4096) = (.inl l, s1) →
        l.ctx = k.ctx → reCovers l.entry (k.regs.pc.toNat / 4096) = true →
        resolve (modCore s1 c.val fun k => { k with rlb := lbFill 256 k.rlb l }) k.ctx l k.regs.pc .fetch true (c.val / 32) = (x, l', s') →
        (∀ tg nc w p, x ≠ .page tg nc w p) →
        ∃ t, exec (.tableSearchDone (.fetch c)) s = .next t ∧ (getCore t c.val).fetchX = x ∧
          (getCore t c.val).rlb = lbTouch (lbFill 256 k.rlb l) l l' ∧ (getCore t c.val).regs = k.regs) ∧
    (∀ (x : CtxId) (view : View) (v : BitVec 32), view = (if s.host.drv then .pcie else .mason) → s.rst.done = true →
      (let k := getCtx s x.val
       let w := BitVec.ofNat 32 (2 ^ 30 + if bt k.xctl 31 then 2 ^ 31 else 0)
       ∀ p ∈ [(Instr.xctlEn x view v, v), (.xctlInv x view, w)], ∃ t, exec p.1 s = .next t ∧ bt (getCtx t x.val).xctl 31 = bt p.2 31 ∧
        (bt p.2 30 = false → (bt k.xctl 31 = true → bt p.2 31 = true) → bt (getCtx t x.val).xctl 29 = bt k.xctl 29 ∧
          t.hlb = s.hlb ∧ t.cores = s.cores) ∧
        (bt p.2 30 = true ∨ (bt k.xctl 31 = true ∧ bt p.2 31 = false) → bt (getCtx t x.val).xctl 29 = true ∧
          (bt k.xctl 29 = true → (getCtx t x.val).inv2 = true) ∧ (bt k.xctl 29 = false → Canonical s → BuffersDrop s t x.val)))) ∧
    (∀ (x : CtxId), bt (getCtx s x.val).xctl 29 = true →
      (oldAccesses s x.val = true → exec (.invalidationDone x) s = .next s) ∧
      (oldAccesses s x.val = false → (getCtx s x.val).inv2 = false → ∃ t, exec (.invalidationDone x) s = .next t ∧
        SetsCtx s t x.val { getCtx s x.val with xctl := sb (getCtx s x.val).xctl 29 false }) ∧
      (oldAccesses s x.val = false → (getCtx s x.val).inv2 = true → ∃ t, exec (.invalidationDone x) s = .next t ∧
        bt (getCtx t x.val).xctl 29 = true ∧ (getCtx t x.val).inv2 = false)) ∧
    (∀ (view : View) (v : BitVec 64), view = (if s.host.drv then .pcie else .mason) →
      (bt s.ownCmd 62 = true → exec (.owncmd view v) s = .next s) ∧
      (bt s.ownCmd 62 = false → bt v 63 = true → (bf v 57 38 + bf v 37 18 ≥ 2 ^ 20 ∨ bf v 15 14 = 3 ∨ bf v 13 12 ≠ 0 ∨
        (bf v 15 14 ≠ 1 ∧ bf v 11 0 ≠ 0)) → exec (.owncmd view v) s = .next s) ∧
      (bt s.ownCmd 62 = false → ¬ (bt v 63 = true ∧ (bf v 57 38 + bf v 37 18 ≥ 2 ^ 20 ∨ bf v 15 14 = 3 ∨ bf v 13 12 ≠ 0 ∨
        (bf v 15 14 ≠ 1 ∧ bf v 11 0 ≠ 0))) → ∃ t, exec (.owncmd view v) s = .next t ∧ t = { s with ownCmd := t.ownCmd, ownAt := t.ownAt } ∧
          bf t.ownCmd 57 38 = bf v 57 38 ∧ bf t.ownCmd 37 18 = bf v 37 18 ∧ bf t.ownCmd 15 0 = bf v 15 0 ∧ bt t.ownCmd 62 = bt v 63)) ∧
    (bt s.ownCmd 62 = true → ∃ t, exec .owncmdDone s = .next t ∧ t.ownCmd = sb s.ownCmd 62 false ∧
      CopyFree t (bf s.ownCmd 57 38) (bf s.ownCmd 37 18 + 1) ∧
      ∀ g, tget 0 t.owner g = if bf s.ownCmd 57 38 ≤ g ∧ g ≤ bf s.ownCmd 57 38 + bf s.ownCmd 37 18 then BitVec.ofNat 16 (bf s.ownCmd 15 0)
        else tget 0 s.owner g) ∧
    (∀ off size bs c d s1, barOpen s = true → s.host.posted = [] →
      (let va := BitVec.ofNat 64 (bf s.host.win 63 21 * 2 ^ 21 + off)
       (bt s.host.win 20 = false → ∃ t, exec (.bar2Access off size none) s = .next t ∧ t.host.bar2Data = List.replicate size 0xFF) ∧
       (bt s.host.win 20 = true → hubRead s (bf s.host.win 11 0) 4 va size .home = ⟨c, d, s1⟩ → c ≠ St.migratePending →
        ∃ t, exec (.bar2Access off size none) s = .next t ∧ t.host.bar2Data = if c = St.ok then d else List.replicate size 0xFF) ∧
       (bt s.host.win 20 = false → exec (.bar2Access off size (some bs)) s = .next s) ∧
       (bt s.host.win 20 = true → hubWrite s (bf s.host.win 11 0) 4 va .write bs .home = ⟨c, d, s1⟩ →
        ∃ t, exec (.bar2Access off size (some bs)) s = .next t ∧
          t = if c = St.migratePending then { s1 with host := { s1.host with posted := [.window s.host.win off bs] } }
            else if c = St.ok then s1 else rasCtx s1 (bf s.host.win 11 0) c 0xFFFF (unitId s1 0 0)))) ∧
    (∀ off size bs, barOpen s = true → s.host.posted ≠ [] → ∃ t, exec (.bar2Access off size (some bs)) s = .next t ∧
      t = { s with host := { s.host with posted := s.host.posted ++ [.window s.host.win off bs] } }) ∧
    (∀ i m, s.migr[i]? = some m → (((s.migr.take i).filter fun n => n.tower = m.tower).length < 16) → s.lateEv = [] →
      (∀ code, let s1 := swapPage (migrEnd s i m) m 0
        NoCoreWaits s m → ∃ t, exec (.migrationFail i code) s = .next t ∧ t.mem = s1.mem ∧ t.migr = s.migr.eraseIdx i ∧
          t.hubX = s.hubX.map fun h => if waitsFor m h.2.2 then (h.1, h.2.1, .fault (migrCode m code) 5) else h) ∧
      ∀ r d s1, NoCoreWaits s m → migrAnswer s m r = (St.ok, d, s1) →
        (let s2 := swapPage (writePage (migrEnd s1 i m) m d) m 2
         ∃ t, exec (.migrationComplete i r) s = .next t ∧ t.mem = s2.mem ∧ t.migr = s.migr.eraseIdx i ∧
          bf (getCtx t m.ctx).migstat 31 16 = min (bf (getCtx s m.ctx).migstat 31 16 + 1) 0xFFFF ∧
          t.hubX = s.hubX.filter fun h => !waitsFor m h.2.2)) ∧
    ∀ (c : Core) o nc w p v s1, (getCore s c.val).fetchX = .page (.loc o) nc w p → o < 2 ^ 41 →
      sysRead s (c.val / 32) w 8 = (St.ok, v, s1) → pageState v p ≠ 0 →
      ∃ t, exec (.migratePendingRecheck (.fetch c)) s = .next t ∧ t = { s1 with cores := t.cores } ∧
        (∀ d, d ≠ c.val → getCore t d = getCore s1 d) ∧ (getCore t c.val).regs = (getCore s c.val).regs ∧
        (getCore t c.val).fetchX = if pageState v p = 2 then .target (.loc o) nc else .page (.loc o) nc w p

/-! ## Memory units, links and caches (R20 to R31, R271 to R304) -/

/-- HBM4 errors, remaps, retirement and recalibration follow Table 9.8: corrected errors of a row on three activations within 10 s and a
line that no read recovers have the row remapped; the link and the training events retrain and retire; ROW_REMAP takes the lowest free spare row;
CHANNEL_RETIRE spills the span into the lowest free slot where 57 targets remain, and a returned channel is FINAL; RECAL_START and
RECAL_STEP run 128 steps with at most 4 channels of a stack and 64 of the package (R280, R281, R283, R285, R286, R289, R291).
Where the condition of a command does not hold the state stands. The model's choices in it: log entries 8, 49, 50 and 51. -/
def Obligations.HbmChannelsRun : Prop :=
  ∀ (s : State) (ch : HCh),
    let h := getHbm s ch.val
    (bf h.stat 31 30 ≠ 1 → ∀ y newAct,
      (newAct = false → (∃ e ∈ h.rowErrs, e.1 = rowOf y) → ∃ t, exec (.hbmCorrectableRead ch ⟨y, newAct⟩) s = .next t ∧
        SetsHbm s t ch.val { h with stat := sf h.stat 15 0 (min (bf h.stat 15 0 + 1) 0xFFFF) }) ∧
      (newAct = true ∨ (∀ e ∈ h.rowErrs, e.1 ≠ rowOf y) → ∃ t h', exec (.hbmCorrectableRead ch ⟨y, newAct⟩) s = .next t ∧ SetsHbm s t ch.val h' ∧
        h'.stat = sf h.stat 15 0 (min (bf h.stat 15 0 + 1) 0xFFFF) ∧
        (countWithin h.rowErrs (rowOf y) s.now 10000000000 < 3 → h'.needRemap = h.needRemap ∧ h'.retireDue = h.retireDue) ∧
        (3 ≤ countWithin h.rowErrs (rowOf y) s.now 10000000000 → RowDue h h' (rowOf y))) ∧
      (exec (.hbmUncorrectableRead ch y false) s = .next s) ∧
      ∃ t, exec (.hbmUncorrectableRead ch y true) s = .next t ∧ t = { s with hbm := t.hbm, lost := t.lost } ∧
        (∀ x, lineAt s ch.val y = some x → tget none t.lost (x / 64) = some .row) ∧ RowDue h (getHbm t ch.val) (rowOf y) ∧
        (32 ≤ ((((h.uncErrs.filter fun e => s.now < e.2 + 1000000000) ++ [(rowOf y, s.now)]).map Prod.fst).dedup).length →
          (getHbm t ch.val).retireDue = true)) ∧
    (bf h.stat 31 30 ≠ 1 → h.retraining = false → ∀ failed,
      let l := (h.linkErrs.filter fun e => s.now < e + 1000000000) ++ [s.now]
      ∃ t, exec (.hbmLinkError ch failed) s = .next t ∧ SetsHbm s t ch.val
        (if failed = true ∨ 1024 ≤ l.length then { h with linkErrs := l, retraining := true, attempts := 0 } else { h with linkErrs := l })) ∧
    (h.retraining = true →
      (∃ t, exec (.hbmRetrainDone ch true) s = .next t ∧ SetsHbm s t ch.val { h with retraining := false, attempts := 0 }) ∧
      ∃ t, exec (.hbmRetrainDone ch false) s = .next t ∧ SetsHbm s t ch.val
        (if h.attempts < 2 then { h with attempts := h.attempts + 1 } else { h with retraining := false, attempts := 0, retireDue := true })) ∧
    (∀ (pc : Fin 2) (bank : Fin 32) (row : Fin 18432) (bad : List (Fin 16)) (n : Nat), bf h.stat 31 30 ≠ 1 →
      rowKey pc.val bank.val row.val ∈ h.needRemap → n < 64 → (∀ r ∈ h.remaps, r.spare ≠ n) →
      (∀ m < n, ∃ r ∈ h.remaps, r.spare = m) →
      ∃ t s1, exec (.rowRemap ch pc bank row bad) s = .next t ∧ ReportSide s1 t ∧ s1 = { s with hbm := s1.hbm, lost := s1.lost } ∧
        (getHbm t ch.val).remaps = h.remaps ++ [⟨pc.val, bank.val, row.val, n⟩] ∧
        bf (getHbm t ch.val).stat 23 16 = (h.remaps.length + 1) % 256 ∧ rowKey pc.val bank.val row.val ∉ (getHbm t ch.val).needRemap ∧
        ∀ i ∈ bad, ∀ x, lineAt s1 ch.val (rowLine pc.val bank.val row.val i.val) = some x → tget none s1.lost (x / 64) = some .row) ∧
    ((h.retireDue = false → exec (.channelRetire ch) s = .next s) ∧
     (h.retireDue = true → bf h.stat 31 30 ≠ 1 → ∃ t s1, exec (.channelRetire ch) s = .next t ∧ ReportSide s1 t ∧
      s1 = { s with hbm := s1.hbm, lost := s1.lost, restored := s1.restored, memcfg := s1.memcfg } ∧
      bf (getHbm t ch.val).stat 31 30 = 1 ∧ (getHbm t ch.val).retireDue = false ∧
      (∀ d, d ≠ ch.val → getHbm t d = getHbm s d) ∧
      (bf h.stat 31 30 = 2 → bt (getHbm t ch.val).stat 25 = true) ∧
      (bf h.stat 31 30 = 0 → ∀ ts j, spillPlan s ch.val = (ts, j) →
        (j = none → (getHbm t ch.val).noStore = true) ∧
        (∀ n < 4, j = some n → bt (getHbm t ch.val).stat 29 = true ∧ bf (getHbm t ch.val).stat 28 27 = n ∧ (getHbm t ch.val).targets = ts)))) ∧
    (∀ why, bf h.stat 31 30 ≠ 1 → h.recal = 0 → recalDue s ch.val why = true → h.offline = false →
      ∃ t, exec (.recalStart ch why) s = .next t ∧ SetsHbm s t ch.val
        (if recalOf s (ch.val / 32) < 4 ∧ recalAll s < 64 then { h with recal := 128, recalTry := 0, recalWait := false, stat := sb h.stat 26 true }
         else { h with recalWait := true })) ∧
    (h.recal ≠ 0 → h.retraining = false →
      (∃ t, exec (.recalStep ch true) s = .next t ∧ SetsHbm s t ch.val
        (if 1 < h.recal then { h with recal := h.recal - 1, recalTry := 0 }
         else { h with recal := 0, recalTry := 0, offline := false, lastRecal := s.now, lastTemp := stackTemp s (ch.val / 32),
                       stat := sb h.stat 26 false })) ∧
      ∃ t, exec (.recalStep ch false) s = .next t ∧ SetsHbm s t ch.val
        (if h.recalTry < 2 then { h with recalTry := h.recalTry + 1 }
         else { h with recal := 0, recalTry := 0, offline := false, retireDue := true, stat := sb h.stat 26 false }))

/-- A Mortar group that fails 32 times within 1 ms, or all its replays, is steered to the lowest free spare, and a field without
one leaves service with its core. A Lintel lane charged 32 times within 100 ms or without clock lock is bad, and the hold for
its remap puts it on the lowest spare, or halves the link. Quarry units take their kind and drop or retire on ECC errors. The
RLC serves a line that it holds, a write leaves it dirty, a release flush leaves every line of its context clean, and a line
lost dirty marks its context's queues (R24 to R31, R297, R298, R300, R303, R304, R358). The model's choices in it: log entries
50, 51, 52, 82 and 83. -/
def Obligations.LinksAndCachesRun : Prop :=
  ∀ (s : State),
    (∀ (f : Fin 264) grp failed, (getMortar s f.val).gone = false → (getMortar s f.val).steering = none →
      mortarCarries f.val (getMortar s f.val) grp = true →
      let m := getMortar s f.val
      let n := countWithin m.fails grp s.now 1000000
      (failed = false → n < 32 → ∃ t m', exec (.mortarCrcFail f grp failed) s = .next t ∧ SetsMortar s t f.val m' ∧
        m' = { m with fails := m'.fails } ∧ (m'.fails.filter fun e => e.1 = grp).length = n) ∧
      (failed = true ∨ 32 ≤ n → (∀ sp, mortarFree f.val m = some sp → ∃ t m', exec (.mortarCrcFail f grp failed) s = .next t ∧
          SetsMortar s t f.val m' ∧ m'.steering = some grp ∧ m'.steered = m.steered ∧ m'.gone = false) ∧
        (mortarFree f.val m = none → ∃ t, exec (.mortarCrcFail f grp failed) s = .next t ∧ (getMortar t f.val).gone = true ∧
          (∀ d, d ≠ f.val → getMortar t d = getMortar s d) ∧ (f.val < 256 → (getCore t f.val).retired = true)))) ∧
    (∀ (f : Fin 264) g sp, (getMortar s f.val).steering = some g → mortarFree f.val (getMortar s f.val) = some sp →
      ∃ t, exec (.mortarSteerDone f) s = .next t ∧ ∃ s1 m', SetsMortar s s1 f.val m' ∧ ReportSide s1 t ∧ m'.steering = none ∧
        m'.steered = (getMortar s f.val).steered ++ [(g, sp)]) ∧
    (∀ (l : Fin 24) (lane : Fin 18), (getLintel s l.val).retired = false →
      let k := getLintel s l.val
      (k.retraining = false → k.holding = false →
        (∃ t, exec (.lintelFlitCrcFail l none true) s = .next t ∧ SetsLintel s t l.val { k with retraining := true }) ∧
        ((lintelCarries k lane.val).isSome → lane.val ∉ k.bad → ∃ t k', exec (.lintelFlitCrcFail l (some lane) false) s = .next t ∧
          SetsLintel s t l.val k' ∧
          (countWithin k.errs lane.val s.now 100000000 < 32 → k' = { k with errs := k'.errs }) ∧
          (32 ≤ countWithin k.errs lane.val s.now 100000000 → k'.bad = lane.val :: k.bad ∧ k'.pendRemap = k.pendRemap ++ [lane.val] ∧
            k'.holding = true))) ∧
      (lane.val ∉ k.bad → ∃ t, exec (.lintelClockLockLoss l lane) s = .next t ∧ SetsLintel s t l.val { k with
        bad := lane.val :: k.bad, pendRemap := k.pendRemap ++ [lane.val], holding := !k.retraining,
        errs := k.errs.filter fun e => e.1 ≠ lane.val }) ∧
      (k.retraining = true → ∃ t, exec (.lintelRetrainDone l []) s = .next t ∧ SetsLintel s t l.val { k with
        retraining := false, holding := decide (k.pendRemap ≠ []) }) ∧
      (∀ d, k.holding = true → k.half = false → k.pendRemap = [lane.val] → lintelCarries k lane.val = some d →
        (∀ sp, lintelSpare k = some sp → ∃ t s1, exec (.lintelRemapDone l) s = .next t ∧ ReportSide s1 t ∧ SetsLintel s s1 l.val { k with
          holding := false, pendRemap := [], mapped := k.mapped.filter (fun p => p.1 ≠ d) ++ [(d, sp)] }) ∧
        (lintelSpare k = none → 8 ≤ lintelGood k → ∃ t s1, exec (.lintelRemapDone l) s = .next t ∧ ReportSide s1 t ∧
          SetsLintel s s1 l.val { k with holding := false, pendRemap := [], mapped := k.mapped.filter (fun p => p.1 ≠ d), half := true }))) ∧
    (∀ (u : Tower) (v : Fin 8) kind rest, (getTower s u.val).changing = (v.val, kind) :: rest → bt s.ownCmd 62 = false → kind < 4 →
      (kind = 3 ∨ (getDom s (64 + (2 * u.val + v.val / 4))).st = .on) →
      ∃ t, exec (.quarryKindChange u v) s = .next t ∧ bf (getTower t u.val).part (2 * v.val + 1) (2 * v.val) = kind ∧
        (getTower t u.val).changing = rest ∧ (getTower t u.val).rlc = (getTower s u.val).rlc ∧
        (kind = 2 → ∀ a, 0xC000000000 + (8 * u.val + v.val) * 0x2000000 ≤ a → a < 0xC000000000 + (8 * u.val + v.val) * 0x2000000 + 0x2000000 →
          rd8 t.mem a = 0 ∧ tget none t.lost (a / 64) = none ∧ tget 0 t.owner (a / 0x200000) = 0)) ∧
    (∀ (u : Tower) (v : Fin 8) line, qKind s u.val v.val = 0 →
      (∃ t, exec (.quarryEccError u v true line) s = .next t ∧ SetsTower s t u.val { getTower s u.val with
        home := (getTower s u.val).home.filter fun l => l.line.toNat ≠ line }) ∧
      (countWithin (getTower s u.val).unitErrs v.val s.now 1000000000 < 16 → ∃ t w, exec (.quarryEccError u v false line) s = .next t ∧
        SetsTower s t u.val w ∧ w = { getTower s u.val with unitErrs := w.unitErrs }) ∧
      (16 ≤ countWithin (getTower s u.val).unitErrs v.val s.now 1000000000 → ∃ t, exec (.quarryEccError u v false line) s = .next t ∧
        bt (getTower t u.val).part (16 + v.val) = true ∧ (getTower t u.val).home = [])) ∧
    (∀ (u : Tower) (rq : RlcUser) (a : BitVec 64) (x : CtxId) nc e1 e2 l, allocatable s u.val (a &&& ~~~63) rq nc = true →
      keyLost s (a &&& ~~~63) = false → rlcFind s u.val (a &&& ~~~63) = some l → copyServes l.own l.ctx x.val = true →
      (∃ t, exec (.rlcRead u rq a x nc e1 e2) s = .next t ∧ SetsTower s t u.val { getTower s u.val with
        rlc := { l with pf := false } :: (getTower s u.val).rlc.filter fun y => y.line ≠ (a &&& ~~~63) }) ∧
      ∀ off bs, off < 64 → bs.length ≤ 64 - off → keyHere s (a &&& ~~~63) = false → ∃ t l', exec (.rlcWrite u rq a x nc off bs e1) s = .next t ∧
        t = { s with towers := t.towers, cores := t.cores } ∧
        (getTower t u.val).rlc = l' :: ((getTower s u.val).rlc.filter fun y => y.line ≠ (a &&& ~~~63)) ∧
        l'.line = l.line ∧ l'.dirty = true ∧ l'.ctx = x.val ∧ l'.data = mergeLine l.data off bs) ∧
    (∀ x : CtxId,
      ((∀ f ∈ s.flush, f.1 ≠ x.val) → ∃ t, exec (.releaseFlush x) s = .next t ∧ Flushed t x.val ∧ t.flush = s.flush ++ [(x.val, false)] ∧
        MemorySide s { t with flush := s.flush }) ∧
      ((∃ f ∈ s.flush, f.1 = x.val) → ∃ t, exec (.releaseFlush x) s = .next t ∧
        t = { s with flush := s.flush.map fun f => if f.1 = x.val then (f.1, true) else f }) ∧
      (s.flush.find? (fun f => f.1 = x.val) = some (x.val, false) → ∃ t, exec (.releaseFlushDone x) s = .next t ∧
        t = { s with flush := s.flush.filter fun f => f.1 ≠ x.val }) ∧
      (s.flush.find? (fun f => f.1 = x.val) = some (x.val, true) → ∃ t, exec (.releaseFlushDone x) s = .next t ∧ Flushed t x.val ∧
        t.flush = s.flush.map fun f => if f.1 = x.val then (f.1, false) else f)) ∧
    ∀ (u : Tower) (way : Fin 16) key l, way.val ∉ (getTower s u.val).waysOff → rlcFind s u.val key = some l →
      (l.dirty = false → ∃ t, exec (.rlcEccError u way true (some key)) s = .next t ∧ SetsTower s t u.val { getTower s u.val with
        rlc := (getTower s u.val).rlc.filter fun y => y.line ≠ l.line }) ∧
      (l.dirty = true → ∃ t, exec (.rlcEccError u way true (some key)) s = .next t ∧
        BlameSide (setTower s u.val { getTower s u.val with rlc := (getTower s u.val).rlc.filter fun y => y.line ≠ l.line }) t ∧
        ∀ q, getQueue s q ≠ {} → bf (getQueue s q).ctl 23 12 = l.ctx → (getQueue t q).resetting = true) ∧
      (countWithin (getTower s u.val).wayErrs way.val s.now 1000000000 < 16 → ∃ t w, exec (.rlcEccError u way false none) s = .next t ∧
        SetsTower s t u.val w ∧ w = { getTower s u.val with wayErrs := w.wayErrs })

/-! ## Span and Plumb time (R305 to R344) -/

/-- A lane that leaves starts a hold, or waits for one of its own; at its end the width is formed again from the lanes good at both ends,
the lane in RETRAIN or, on its fourth leave within 1 s, RETIRED; more than half of the ACTIVE lanes retrain the whole port; three failed attempts
retire a lane, or put the port DOWN with its packets sent on. A DOWN port trains again once powered, at once or 1 s later. Training gives
HELD with the smaller version, or MISMATCH. A flit is accepted in sequence and answered, and NAK replays. COMMIT makes every shadow active (R311,
R312, R314, R315, R317 to R320, R328, R338).
Where the condition of a command does not hold the state stands. The model's choices in it: log entries 8, 40 and 71. -/
def Obligations.SpanPortsRun : Prop :=
  ∀ (s : State) (p : Port),
    let k := getPort s p.val
    let cnt := s.plumb.count
    (∀ (l : Fin 8) why, portLive s p.val = true → laneOf k l.val = .active → l.val ∉ k.leaving → l.val ∉ k.pendLeave →
      ∃ t, exec (.laneLeave p l why) s = .next t ∧ SetsPort s t p.val
        (if k.holding ∧ k.holdAt ≠ s.now then { k with pendLeave := k.pendLeave ++ [l.val] }
          else { k with holding := true, holdAt := s.now, leaving := k.leaving ++ [l.val] })) ∧
    (k.holding = true → portLive s p.val = true →
      ((activeLanes k).length < 2 * k.leaving.length → ∃ t, exec (.portHoldEnd p) s = .next t ∧ PortSide s t p.val ∧
        (getPort t p.val).st = .retrain ∧ (getPort t p.val).attempts = 0 ∧ (getPort t p.val).holding = false ∧
        (getPort t p.val).wasHeld = decide (k.st = .held)) ∧
      ∀ l : Fin 8, k.leaving = [l.val] → 2 ≤ (activeLanes k).length → laneOf k l.val = .active →
        (∃ m < 8, m ≠ l.val ∧ laneGood (laneOf k m) = true ∧ peerGood k m = true) →
        (countWithin k.leaves l.val s.now 1000000000 < 4 → ∃ t o w, exec (.portHoldEnd p) s = .next t ∧ PortSide s t p.val ∧
          getPort t p.val = pump cnt o ∧
          FormedAt (fun m => if m = l.val then .retrain 0 else laneOf k m) (peerGood k) (maxCode k) w o ∧
          o.retry = (k.retry.map fun f => { f with resent := f.resent + 1 }) ∧
          o.replays.toNat = min 65535 (k.replays.toNat + k.retry.length) ∧
          o.holding = decide (k.pendLeave ≠ []) ∧ o.leaving = k.pendLeave.take 1 ∧ o.pendLeave = k.pendLeave.drop 1) ∧
        (4 ≤ countWithin k.leaves l.val s.now 1000000000 → ∃ t, exec (.portHoldEnd p) s = .next t ∧ PortSide s t p.val ∧
          laneOf (getPort t p.val) l.val = .retired)) ∧
    (∀ (l : Fin 8) n, laneOf k l.val = .retrain n → portLive s p.val = true →
      (∃ t, exec (.laneRetrainAttemptEnd p l true) s = .next t ∧ SetsPort s t p.val { setLane k l.val .idle with
        holding := true, holdAt := if k.holding then k.holdAt else s.now }) ∧
      (n < 2 → ∃ t, exec (.laneRetrainAttemptEnd p l false) s = .next t ∧ SetsPort s t p.val (setLane k l.val (.retrain (n + 1)))) ∧
      (2 ≤ n → ∃ t s1, exec (.laneRetrainAttemptEnd p l false) s = .next t ∧ SetsPort s s1 p.val (setLane k l.val .retired) ∧
        RasSide s1 t)) ∧
    (k.st = .retrain →
      (k.attempts < 2 → ∃ t, exec (.portRetrainAttemptEnd p false []) s = .next t ∧ SetsPort s t p.val { k with
        attempts := k.attempts + 1 }) ∧
      (2 ≤ k.attempts → ∃ t, exec (.portRetrainAttemptEnd p false []) s = .next t ∧ (getPort t p.val).st = .down ∧
        (getPort t p.val).dcause = 1 ∧ (getPort t p.val).downAt = s.now ∧ (getPort t p.val).retry = [] ∧
        (k.wasHeld = true → PortSide s t p.val) ∧
        ∀ x τ inp q up, k.wasHeld = false → k.retry = [] → k.outq = [(x, τ, inp)] →
          routeOf (setPort s p.val { k with st := .down }) x = .out q up → q ≠ p.val →
          getPort t q = pump cnt { getPort s q with outq := (getPort s q).outq ++ [(raiseVc x up, τ, inp)] }) ∧
      (1 ≤ ((List.range 8).filter fun m => laneGood (lanesBack k m) && peerGood k m).length →
        ∃ t o w, exec (.portRetrainAttemptEnd p true []) s = .next t ∧
        PortSide s t p.val ∧ getPort t p.val = pump cnt o ∧ o.st = (if k.wasHeld then .held else .up) ∧ o.attempts = 0 ∧
        FormedAt (lanesBack k) (peerGood k) (maxCode k) w o ∧ o.retry = k.retry.map fun f => { f with resent := f.resent + 1 })) ∧
    (k.st = .training →
      (k.attempts < 2 → ∃ t, exec (.portRetrainAttemptEnd p false []) s = .next t ∧ SetsPort s t p.val { k with
        attempts := k.attempts + 1 }) ∧
      (2 ≤ k.attempts → ∃ t, exec (.portRetrainAttemptEnd p false []) s = .next t ∧ PortSide s t p.val ∧
        (getPort t p.val).st = .down ∧ (getPort t p.val).dcause = 1 ∧ (getPort t p.val).downAt = s.now)) ∧
    (k.st = .down →
      (k.dcause ≠ 3 → s.now < k.downAt + 1000000000 → exec (.portDownRetry p) s = .next s) ∧
      ((k.dcause = 3 ∨ k.downAt + 1000000000 ≤ s.now) → bt k.cfg 31 = true → portDomOn s p.val = true → moduleOn s p.val = true →
        ∃ t, exec (.portDownRetry p) s = .next t ∧ PortSide s t p.val ∧
          getPort t p.val = { k with st := .training, dcause := 0, wasHeld := false, attempts := 0 })) ∧
    (∀ peer : PeerInfo, k.st = .training →
      (s.span.protoImpl.toNat > peer.impl.toNat + 1 ∨ peer.impl.toNat > s.span.protoImpl.toNat + 1 →
        ∃ t, exec (.portTrained p peer []) s = .next t ∧ PortSide s t p.val ∧ (getPort t p.val).st = .mismatch) ∧
      (s.span.protoImpl.toNat ≤ peer.impl.toNat + 1 → peer.impl.toNat ≤ s.span.protoImpl.toNat + 1 →
        1 ≤ ((List.range 8).filter fun m => laneGood (lanesBack k m) && bt peer.good m).length →
        ∃ t w, exec (.portTrained p peer []) s = .next t ∧
        PortSide s t p.val ∧ (getPort t p.val).st = .held ∧ (getPort t p.val).peer = some peer ∧
        (getPort t p.val).pver.toNat = min s.span.protoImpl.toNat peer.impl.toNat ∧ (getPort t p.val).rxNext = 0 ∧
        (getPort t p.val).txNext = 0 ∧ (getPort t p.val).retry = [] ∧
        FormedAt (lanesBack k) (fun m => bt peer.good m) (max (bf k.cfg 30 29) peer.maxw.toNat) w (getPort t p.val))) ∧
    (∀ h body sub told, portLive s p.val = true →
      (k.holding = true → ∃ t, exec (.flitReceive p h true body ⟨sub, told⟩) s = .next t ∧ SetsPort s t p.val (learn k told)) ∧
      (k.holding = false → ∃ t, exec (.flitReceive p h false body ⟨sub, told⟩) s = .next t ∧ SetsPort s t p.val
        (sendEmpty cnt { k with uncorr := satInc k.uncorr, rxNak := true })) ∧
      (k.holding = false → let kept := k.retry.filter fun f => decide (0 < (f.seq - BitVec.ofNat 16 (bf h 47 32)).toInt)
       (bt h 31 = false → ∃ t o, exec (.flitReceive p h true body ⟨sub, told⟩) s = .next t ∧
         SetsPort s t p.val (sendEmpty cnt (pump cnt o)) ∧
         o.retry = kept ∧ tget 512 o.credits (bf h 29 27) = min 512 (tget 512 k.credits (bf h 29 27) + bf h 26 24) ∧
         (bt h 30 = false → BitVec.ofNat 16 (bf h 63 48) = k.rxNext → o.rxNext = k.rxNext + 1 ∧ o.rxNak = false ∧
           o.inbox = k.inbox ++ (body.filter fun x => decide (x.op ≠ 0x11)).map fun x => (x, s.now)) ∧
         (bt h 30 = true ∨ BitVec.ofNat 16 (bf h 63 48) ≠ k.rxNext → o.rxNext = k.rxNext ∧ o.inbox = k.inbox) ∧
         (bt h 30 = false → 0 < (BitVec.ofNat 16 (bf h 63 48) - k.rxNext).toInt → o.rxNak = true)) ∧
       (bt h 31 = true → (∀ f ∈ kept, f.resent < 8) → ∃ t o, exec (.flitReceive p h true body ⟨sub, told⟩) s = .next t ∧
         SetsPort s t p.val (sendEmpty cnt (pump cnt o)) ∧ o.retry = kept.map fun f => { f with resent := f.resent + 1 }) ∧
       (bt h 31 = true → (∃ f ∈ kept, 8 ≤ f.resent) → ∃ t, exec (.flitReceive p h true body ⟨sub, told⟩) s = .next t ∧ PortSide s t p.val ∧
         (getPort t p.val).st = .retrain))) ∧
    ∀ view, (isDriver s view = false → exec (.spanCommit view) s = .next s) ∧
      (isDriver s view = true → ∃ t, exec (.spanCommit view) s = .next t ∧ t.plumb.cfg = s.plumb.cfgShadow ∧
        (getPort t p.val).cfg = k.cfgShadow ∧
        (bt k.cfg 31 = true → bt k.cfgShadow 31 = false → (getPort t p.val).st = .disabled) ∧
        (bt k.cfg 31 = false → bt k.cfgShadow 31 = true → portDomOn s p.val = true →
          (moduleOn s p.val = true → (getPort t p.val).st = .training) ∧
          (moduleOn s p.val = false → (getPort t p.val).st = .down ∧ (getPort t p.val).dcause = 3)) ∧
        (bt k.cfg 31 = bt k.cfgShadow 31 → (getPort t p.val).st = k.st ∧
          (bf k.cfg 30 29 ≠ bf k.cfgShadow 30 29 → bt k.cfg 31 = true → portLive s p.val = true → (getPort t p.val).holding = true)))

/-- ROUTE_EN, PROTO_ACT and SPAN_ID change as the driver writes them and only where R307, R332 and Table 10.16 allow it; GO commits the
pending bank, and the switch at AT flips ACTEP, makes HELD ports UP and drains the old bank for 25 ms; a packet is delivered, queued or
dropped by its route, and one that waits more than 5 ms is dropped; the home serves a request and its response answers it, as a
timeout does once; the Plumb count is taken, stepped, steered or held (R306, R307, R324, R325, R329 to R332, R336, R337, R340 to
R342).
Where the condition of a command does not hold the state stands. The model's choices in it: log entries 8, 30, 38 and 39. -/
def Obligations.SpanRoutesRun : Prop :=
  ∀ (s : State),
    (∀ view, isDriver s view = true →
      (∀ en, en = s.span.routeEn → exec (.routeEnWrite view en) s = .next s) ∧
      (s.span.routeEn = false → bt s.span.id 31 = false → exec (.routeEnWrite view true) s = .next s) ∧
      (s.span.routeEn = false → bt s.span.id 31 = true → ∃ t, exec (.routeEnWrite view true) s = .next t ∧
        t = { s with span := { s.span with routeEn := true, ports := t.span.ports } } ∧
        ∀ q < 18, (getPort t q).st = if (getPort s q).st = .held then .up else (getPort s q).st) ∧
      (s.span.routeEn = true → ∃ t, exec (.routeEnWrite view false) s = .next t ∧
        t = { s with span := { s.span with routeEn := false, ports := t.span.ports } } ∧
        ∀ q < 18, let k := getPort s q
          let n := BitVec.ofNat 8 (min 255 (k.drops.toNat + (k.outq.length + k.inbox.length)))
          (getPort t q).outq = [] ∧ (getPort t q).inbox = [] ∧ (getPort t q).st = k.st ∧ (getPort t q).drops = n ∧
          (k.inbox = [] → getPort t q = { k with outq := [], inbox := [], drops := n })) ∧
      (∀ v, (v = s.span.protoImpl ∨ v = s.span.protoImpl - 1 → ∃ t, exec (.protoActWrite view v) s = .next t ∧
          t = { s with span := { s.span with protoAct := v } }) ∧
        (v ≠ s.span.protoImpl → v ≠ s.span.protoImpl - 1 → exec (.protoActWrite view v) s = .next s)) ∧
      (∀ v, (s.span.routeEn = true → exec (.spanIdWrite view v) s = .next s) ∧
        (s.span.routeEn = false → ∃ t, exec (.spanIdWrite view v) s = .next t ∧ t = { s with span := { s.span with id := t.span.id } } ∧
          bt t.span.id 31 = bt v 31 ∧ bf t.span.id 24 16 = bf v 24 16 ∧ bf t.span.id 7 0 = bf v 7 0 ∧ bf t.span.id 30 25 = 0 ∧
          bf t.span.id 15 8 = 0)) ∧
      (s.span.rtbusy = true → exec (.routeGo view) s = .next s) ∧
      (s.span.rtbusy = false → s.plumb.count < s.span.rat → ∃ t, exec (.routeGo view) s = .next t ∧
        t = { s with span := { s.span with pend := true, rtbusy := true } }) ∧
      (s.span.rtbusy = false → s.span.rat ≤ s.plumb.count → ∃ t, exec (.routeGo view) s = .next t ∧ Switched s t)) ∧
    (∀ view, isDriver s view = false → (∀ en, exec (.routeEnWrite view en) s = .next s) ∧ (∀ v, exec (.protoActWrite view v) s = .next s) ∧
      (∀ v, exec (.spanIdWrite view v) s = .next s) ∧ exec (.routeGo view) s = .next s) ∧
    (s.span.pend = true → (s.plumb.count < s.span.rat → exec .routeSwitch s = .next s) ∧
      (s.span.rat ≤ s.plumb.count → s.span.rtbusy = true → ∃ t, exec .routeSwitch s = .next t ∧ Switched s t)) ∧
    (∀ τ, s.span.drainFrom = some τ → (s.now < τ + 25000000 → exec .routeDrainEnd s = .next s) ∧
      (τ + 25000000 ≤ s.now → ∃ t, exec .routeDrainEnd s = .next t ∧
        t = { s with span := { s.span with rtbusy := false, drainFrom := none } })) ∧
    (∀ (p : Port) e, (getPort s p.val).inbox.find? (fun x => decide (x.1 = e.1)) = some e →
      let k : SpanPkt := e.1
      let s1 := creditBack (modPort s p.val fun o => { o with inbox := o.inbox.erase e }) p.val k
      (getPort s1 p.val).inbox = (getPort s p.val).inbox.erase e ∧ (getPort s1 p.val).outq = (getPort s p.val).outq ∧
      (s.span.routeEn = false ∨ (pktIsReq k = false ∧ pktIsResp k = false) ∨ routeOf s k = .drop ∨ routeOf s k = .none ∨
        (routeOf s k = .deliver ∧ s.key.hubIsolated = true) →
        ∃ t, exec (.packetRoute (some p) k) s = .next t ∧ SetsPort s1 t p.val { getPort s1 p.val with
          drops := BitVec.ofNat 8 (min 255 ((getPort s p.val).drops.toNat + 1)) }) ∧
      (s.span.routeEn = true → (pktIsReq k = true ∨ pktIsResp k = true) →
        (routeOf s k = .deliver → s.key.hubIsolated = false → ∃ t, exec (.packetRoute (some p) k) s = .next t ∧
          t = { s1 with span := { s1.span with delivered := s1.span.delivered ++ [k] } }) ∧
        ∀ q up, routeOf s k = .out q up → ∃ t, exec (.packetRoute (some p) k) s = .next t ∧ SpanSide s t ∧
          QueuedOn s1 t q (raiseVc k up) e.2 p.val)) ∧
    (∀ e, s.span.sent.find? (fun x => decide (x.1 = e.1)) = some e →
      let k : SpanPkt := e.1
      (s.span.routeEn = false ∨ bt s.span.id 31 = false ∨ s.key.hubIsolated = true ∨ behind s k = true →
        exec (.packetRoute none k) s = .next s) ∧
      (s.span.routeEn = true → bt s.span.id 31 = true → s.key.hubIsolated = false → behind s k = false →
        let k1 := { k with ep := s.span.actep, path := choosePath s k }
        ((pktDest k).1 = ownDomain s → k1.path = 0) ∧
        (routeOf s k1 = .deliver → ∃ t, exec (.packetRoute none k) s = .next t ∧
          t = { s with span := { s.span with sent := s.span.sent.erase e, delivered := s.span.delivered ++ [k1] } }) ∧
        (routeOf s k1 = .none → exec (.packetRoute none k) s = .next s) ∧
        (∀ q up, routeOf s k1 = .out q up → routeHeld s k1 q = true → exec (.packetRoute none k) s = .next s) ∧
        ∀ q up, routeOf s k1 = .out q up → routeHeld s k1 q = false → ∃ t, exec (.packetRoute none k) s = .next t ∧ SpanSide s t ∧
          t.span.sent = s.span.sent.erase e ∧ QueuedOn s t q (raiseVc k1 up) e.2 18 ∧
          t.span.reqs = s.span.reqs.map fun r => if r.tag = k.tag ∧ pktIsReq k = true then { r with pkt := k1, port := some q } else r)) ∧
    (∀ (p : Port) i x τ inp, (getPort s p.val).outq[i]? = some (x, τ, inp) →
      (s.now ≤ τ + 5000000 → exec (.packetStaleDrop (.out p) i) s = .next s) ∧
      (τ + 5000000 < s.now → ∃ t, exec (.packetStaleDrop (.out p) i) s = .next t ∧ SetsPort s t p.val { getPort s p.val with
        outq := (getPort s p.val).outq.eraseIdx i, drops := BitVec.ofNat 8 (min 255 ((getPort s p.val).drops.toNat + 1)) })) ∧
    (∀ (p : Port) i x τ, (getPort s p.val).inbox[i]? = some (x, τ) →
      (s.now ≤ τ + 5000000 → exec (.packetStaleDrop (.inbox p) i) s = .next s) ∧
      (τ + 5000000 < s.now → ∃ t o, exec (.packetStaleDrop (.inbox p) i) s = .next t ∧ SetsPort s t p.val o ∧
        o.inbox = (getPort s p.val).inbox.eraseIdx i ∧ o.outq = (getPort s p.val).outq ∧
        o.drops = BitVec.ofNat 8 (min 255 ((getPort s p.val).drops.toNat + 1)))) ∧
    (∀ (i : Nat) x τ, s.span.sent[i]? = some (x, τ) →
      (s.now ≤ τ + 5000000 → exec (.packetStaleDrop .source i) s = .next s) ∧
      (τ + 5000000 < s.now → ∃ t, exec (.packetStaleDrop .source i) s = .next t ∧
        t = { s with span := { s.span with sent := s.span.sent.erase (x, τ) } })) ∧
    (∀ (k : SpanPkt), k ∈ s.span.delivered →
      let s1 := { s with span := { s.span with delivered := s.span.delivered.erase k } }
      let o := bf k.addr 40 0
      (servedAfter s k = true ∨ chanHeld s o = true → exec (.remoteRequestServe k) s = .next s) ∧
      (servedAfter s k = false → chanHeld s o = false →
        (∀ c d z, k.op = 0x01 → o % 64 + (k.lenM1.toNat + 1) ≤ 64 →
          hereRead s1 hubDie false k.ctx.toNat o (k.lenM1.toNat + 1) false = (c, d, z) → ∃ t, exec (.remoteRequestServe k) s = .next t ∧
          (hereCheck s1 hubDie false k.ctx.toNat o = St.ok → Responds z t k c (if c = St.ok then d else [])) ∧
          (hereCheck s1 hubDie false k.ctx.toNat o ≠ St.ok → Responds s1 t k (hereCheck s1 hubDie false k.ctx.toNat o) [])) ∧
        (∀ c z, k.op = 0x02 → k.data ≠ [] → o % 64 + k.data.length ≤ 64 →
          hereWrite s1 hubDie false k.ctx.toNat o k.data false = (c, z) → ∃ t, exec (.remoteRequestServe k) s = .next t ∧
          (hereCheck s1 hubDie false k.ctx.toNat o = St.ok → Responds z t k c []) ∧
          (hereCheck s1 hubDie false k.ctx.toNat o ≠ St.ok → Responds s1 t k (hereCheck s1 hubDie false k.ctx.toNat o) [])) ∧
        ∀ c old z, k.op = 0x03 → (let n := if k.asz then 8 else 4
          hereAtomic s1 hubDie k.ctx.toNat o n k.func.toNat (fieldLe k.data 0 n) (fieldLe k.data 8 n) false = (c, old, z)) →
          ∃ t, exec (.remoteRequestServe k) s = .next t ∧ Responds z t k c (if c = St.ok then toLe 8 old else [])) ∧
      (pktIsResp k = true →
        ((∀ r ∈ s.span.reqs, r.tag ≠ k.tag) → exec (.remoteResponse k) s = .next s1) ∧
        ∀ r, s.span.reqs.find? (fun r => r.tag = k.tag) = some r →
          (statusKnown k.status = false → exec (.remoteResponse k) s = .next s1) ∧
          (statusKnown k.status = true → ∃ t, exec (.remoteResponse k) s = .next t ∧ Answered s1 t r k.status k.data))) ∧
    (∀ (tag : BitVec 18) r, s.span.reqs.find? (fun r => r.tag = tag) = some r →
      (s.now < r.issued + (if r.hall then 20000000 else 2000000) → exec (.remoteTimeout tag) s = .next s) ∧
      (r.issued + (if r.hall then 20000000 else 2000000) ≤ s.now → ∃ t, exec (.remoteTimeout tag) s = .next t ∧
        Answered s t r St.remoteTimeout [])) ∧
    (s.plumb.running = true → plumbRoot s = true →
      (∀ d2 n q, q < 18 → portLive s q = true → s.plumb.locked = false → ∃ t, exec (.plumbInterval d2 n true) s = .next t ∧
        IntervalEnds { s with plumb := { s.plumb with count := n, locked := true, everLocked := true } } t) ∧
      (∀ d2 n, s.plumb.locked = true → ∃ t, exec (.plumbInterval d2 n true) s = .next t ∧ IntervalEnds s t) ∧
      (s.plumb.locked = false → ∀ τ, (s.plumb.firstHeld = some τ ∨ (s.plumb.firstHeld = none ∧ s.plumb.step8 = some τ)) →
        (s.now < τ + 100000000 → exec .plumbRootLockTimeout s = .next s) ∧
        (τ + 100000000 ≤ s.now → ∃ t, exec .plumbRootLockTimeout s = .next t ∧
          t = { s with plumb := { s.plumb with locked := true, everLocked := true } }))) ∧
    (∀ d2 n lk x, s.plumb.running = true → plumbRoot s = false → s.plumb.stuck = false → plumbPort s = some x → (getPort s x).stampCnt ≠ 0 →
      ∃ t, exec (.plumbInterval d2 n lk) s = .next t ∧ IntervalEnds { s with plumb := t.plumb } t ∧
        (s.plumb.everLocked = false → t.plumb.count = n) ∧
        (s.plumb.everLocked = true → 1000 < (n - s.plumb.count).toInt → t.plumb.count = n ∧ t.plumb.stepped = true) ∧
        (s.plumb.everLocked = true → (n - s.plumb.count).toInt < -1000 → t.plumb.count = s.plumb.count ∧ t.plumb.stuck = true ∧
          t.plumb.holdover = true ∧ t.plumb.locked = false) ∧
        (s.plumb.everLocked = true → (n - s.plumb.count).toInt ≤ 1000 → -1000 ≤ (n - s.plumb.count).toInt → t.plumb.count = s.plumb.count ∧
          -200 ≤ t.plumb.rate ∧ t.plumb.rate ≤ 200 ∧ t.plumb.stepped = s.plumb.stepped ∧ t.plumb.holdover = false))

/-- GO submits one order, a slot takes the waiting orders and copies their arguments, a MGMT packet performs one access to the
M3 page, and an update of the store completes or is reported; the host port and the Mason cores act as R347 to R356 say (R347 to
R349, R351 to R356, R395, R399, R400, R403, R404, R406, R421). Log entry 1 names the copies' first sequence number. Where the
condition of a command does not hold the state stands. The model's choices in it: log entries 8, 31, 32, 36, 63, 79, 82 and 92. -/
def Obligations.PagesAndPortsRun : Prop :=
  ∀ (s : State),
    (∀ (m : Mb) (v : BitVec 64), (s.rst.stage < 1 → exec (.mbGo m v) s = .next s) ∧
      (1 ≤ s.rst.stage →
        (bt v 0 = true → (bt (getMbox s m.val).rsp 2 = true ∨ bt (getMbox s m.val).rsp 1 = true) →
          ∃ t, exec (.mbGo m v) s = .next t ∧ SetsMbox s t m.val (getMbox s m.val)) ∧
        (bt v 0 = true → bt (getMbox s m.val).rsp 2 = false → bt (getMbox s m.val).rsp 1 = false →
          ∃ t, exec (.mbGo m v) s = .next t ∧ SetsMbox s t m.val { getMbox s m.val with
            cmd := sb v 0 false, rsp := sb (getMbox s m.val).rsp 2 true, snap := (getMbox s m.val).page }))) ∧
    (∀ (m : Mb) (v : BitVec 16), 1 ≤ s.rst.stage →
      ∃ t, exec (.mbRasRptrWrite m v) s = .next t ∧ SetsMbox s t m.val (let k := getMbox s m.val
        if (bf k.ras 31 16 + 65536 - v.toNat) % 65536 ≤ 32 then { k with ras := sf k.ras 15 0 v.toNat } else k)) ∧
    (∀ τ, s.key.slotAt = some τ → (s.now ≤ τ ∨ (s.now - τ) % 10000 ≠ 0) → exec .arbitrationSlot s = .next s) ∧
    (1 ≤ s.rst.stage → s.key.halted = false → s.key.handover = false → s.key.batch = [] →
      (∀ τ, s.key.slotAt = some τ → τ < s.now ∧ (s.now - τ) % 10000 = 0) →
      (takenNext s = [] → exec .arbitrationSlot s = .next s) ∧
      (takenNext s ≠ [] → (∀ m ∈ takenNext s, orderDecodes (getMbox s m).cmd = true) →
        ∃ t, exec .arbitrationSlot s = .next t ∧ t = { s with
            free := t.free
            key := { s.key with mb := t.key.mb, batch := t.key.batch, slotAt := some s.now } } ∧
          t.key.batch.map (fun o => o.mb) = takenNext s ∧ (∀ o ∈ t.key.batch, TakenFrom s t o.mb o ∧ o.busy = false ∧ o.code = St.ok) ∧
          ∀ m, m ∉ takenNext s → getMbox t m = getMbox s m) ∧
      (∀ m, takenNext s = [m] → orderDecodes (getMbox s m).cmd = false → s.key.batchDone = [] →
        ∃ t o, exec .arbitrationSlot s = .next t ∧ t.key.batch = [] ∧ TakenFrom s (takeOrder s m) m o ∧
          AnsweredWith t o St.unsupported 0 [])) ∧
    (∀ (k : SpanPkt), firstMgmt s = some k → 1 ≤ s.rst.stage → s.key.halted = false →
      let s1 := { s with span := { s.span with delivered := s.span.delivered.erase k } }
      let off := fieldLe k.data 0 2
      let n := fieldLe k.data 3 1
      ((1 < fieldLe k.data 2 1 ∨ n = 0 ∨ 31 < n ∨ 0x1000 < off + 8 * n) →
        ∃ t, exec (.mgmtAccess k) s = .next t ∧ Responds s1 t k St.unsupported []) ∧
      (1 ≤ n → n ≤ 31 → off + 8 * n ≤ 0x1000 → off % 8 = 0 →
        (fieldLe k.data 2 1 = 0 → ∃ t d, exec (.mgmtAccess k) s = .next t ∧ Responds s1 t k St.ok d ∧ d.length = 8 * n ∧
          ∀ i, (h : i < d.length) → d[i] = mbByte (getMbox s 3) (off + i)) ∧
        (fieldLe k.data 2 1 = 1 → n = 1 → off = 0 → ∃ z t, exec (.mbGo 3 (BitVec.ofNat 64 (fieldLe k.data 8 8))) s1 = .next z ∧
          exec (.mgmtAccess k) s = .next t ∧ Responds z t k St.ok []) ∧
        (fieldLe k.data 2 1 = 1 → 0x040 ≤ off → off + 8 * n ≤ 0x400 → k.data.length = 8 + 8 * n →
          ∃ z t, exec (.mgmtAccess k) s = .next t ∧ Responds z t k St.ok [] ∧
            SetsMbox s1 z 3 { getMbox s 3 with page := (getMbox z 3).page } ∧
            ∀ a, rd8 (getMbox z 3).page a = if off ≤ a ∧ a < off + 8 * n then k.data.getD (8 + (a - off)) 0
              else rd8 (getMbox s 3).page a))) ∧
    (∀ ok, (s.store.pend = [] → exec (.storeUpdateDone ok) s = .next s) ∧
      (∀ c, s.store.pend = [⟨.cal c, none⟩] → (s.store.cal.a = none ∨ s.store.cal.b = none) →
        (ok = true → ∃ t, exec (.storeUpdateDone ok) s = .next t ∧ newest t.store.cal = some c ∧
          t = { s with store := { s.store with cal := t.store.cal, pend := [] } }) ∧
        (ok = false → ∃ t, exec (.storeUpdateDone ok) s = .next t ∧
          RasReported { s with store := { s.store with pend := [] } } t St.ok 6 (unitId s 0 0) 0x20A0000)) ∧
      (∀ u o, s.store.pend = [⟨.units u, some o.mb⟩] → s.key.batch = [o] → s.key.batchDone = [] → o.busy = true → o.wrote = [] →
        o.group ≠ 7 → (o.group = 1 → o.verb ≠ 3) → o.code ≠ St.unsupported → o.started = false → handoverDue s = false →
        ∃ t, exec (.storeUpdateDone ok) s = .next t ∧ t.key.batch = [] ∧
          AnsweredWith t o (if ok then o.code else St.ok) (if ok then o.refuse else 6) o.res)) ∧
    (∀ id oc, ((∀ r ∈ s.host.outs, r.id ≠ id) → exec (.outboundCompletion id oc) s = .next s) ∧
      (∀ r, s.host.outs.find? (fun r => r.id = id) = some r → oc = .timeout →
        (s.host.cfg.ctoOff = true ∨ (s.host.cfg.cto = 0 ∧ s.now < r.issued + 50000000)) → exec (.outboundCompletion id oc) s = .next s) ∧
      (∀ r, s.host.outs.find? (fun r => r.id = id) = some r → (oc = .timeout → ctoOver s r = true) →
        let s1 := { s with host := { s.host with
          outs := s.host.outs.filter fun x => x.id ≠ id
          cfg := { s.host.cfg with uncStat := if oc = .timeout then sb s.host.cfg.uncStat 14 true else s.host.cfg.uncStat } } }
        (∀ c i a, r.user = .seq c i → (getCore s c.val).accs.find? (fun a => a.id = i) = some a →
          ∃ t, exec (.outboundCompletion id oc) s = .next t ∧ t = completeAcc s1 c.val a (match oc with
            | .success d => .ok d | .refused => .fail St.ctxDenied | .timeout => .fail St.remoteTimeout)) ∧
        (∀ a, r.user = .mason false a → ∃ t, exec (.outboundCompletion id oc) s = .next t ∧ t = { s1 with host := { s1.host with
          masonData := (match oc with | .success d => d | _ => []), masonFault := (match oc with | .success _ => false | _ => true) } }) ∧
        (∀ d, quietUser r.user true = true → oc = .success d → ∃ t, exec (.outboundCompletion id oc) s = .next t ∧
          t.host.outs = s1.host.outs ∧ t.cores = s.cores))) ∧
    ((s.host.outs = [] → ∃ t, exec .pcieLinkReset s = .next t ∧ t = { s with host := { s.host with
        link := false, cfg := {}, msix := [], pba := [], posted := [] } }) ∧
      (∀ r c i a, s.host.outs = [r] → r.user = .seq c i → (getCore s c.val).accs.find? (fun a => a.id = i) = some a →
        ∃ z t, exec .pcieLinkReset { s with host := { s.host with outs := [] } } = .next z ∧ exec .pcieLinkReset s = .next t ∧
          t = completeAcc z c.val a (.fail St.remoteTimeout))) ∧
    ((3 ≤ s.rst.stage → ∃ t, exec .pcieLinkUp s = .next t ∧ t = { s with host := { s.host with link := true } }) ∧
      (s.rst.stage < 3 → exec .pcieLinkUp s = .next s)) ∧
    (∀ w : PcieCfg, (¬ (s.host.link = true ∧ s.host.cfgReady = true) → exec (.pcieConfigWrite w.toPcieCmd w.toPcieDev w.toPcieCap w.toPcieAer) s = .next s) ∧
      (s.host.link = true → s.host.cfgReady = true → (∀ p ∈ s.host.pba, p.2 = false) →
        ∃ t, exec (.pcieConfigWrite w.toPcieCmd w.toPcieDev w.toPcieCap w.toPcieAer) s = .next t ∧
        t = { s with host := { s.host with cfg := t.host.cfg } } ∧
        t.host.cfg = { w with corStat := t.host.cfg.corStat, uncStat := t.host.cfg.uncStat } ∧
        ∀ i < 32, bt t.host.cfg.corStat i = (bt s.host.cfg.corStat i && !bt w.corStat i) ∧
          bt t.host.cfg.uncStat i = (bt s.host.cfg.uncStat i && !bt w.uncStat i))) ∧
    (∀ (v : Fin 2048), v.val < 1024 → ∃ t, exec (.msixUnmask v) s = .next t ∧
      bt (tget vecReset t.host.msix v.val) 96 = false ∧
      (∀ i, i ≠ 96 → bt (tget vecReset t.host.msix v.val) i = bt (tget vecReset s.host.msix v.val) i) ∧
      (∀ i, i ≠ v.val → tget vecReset t.host.msix i = tget vecReset s.host.msix i ∧ tget false t.host.pba i = tget false s.host.pba i) ∧
      t = { s with host := { s.host with msix := t.host.msix, pba := t.host.pba, sent := t.host.sent } } ∧
      (tget false s.host.pba v.val = false → t.host.sent = s.host.sent) ∧
      (tget false s.host.pba v.val = true → s.host.cfg.msixEn = true → s.host.link = true → s.host.cfg.bme = true → s.host.cfg.d3 = false →
        tget false t.host.pba v.val = false ∧ ∃ a d, t.host.sent = s.host.sent ++ [⟨BitVec.ofNat 11 v.val, a, d⟩] ∧
          a.toNat = bf (tget vecReset s.host.msix v.val) 63 0 ∧ d.toNat = bf (tget vecReset s.host.msix v.val) 95 64)) ∧
    (∀ (c : Fin 144) addr size wr k, (s.rst.stage < 9 ∨ s.key.masonGone.contains (c.val / 72) = true ∨ clusterOn s c.val k = false →
        exec (.masonAccess addr size ⟨c, k⟩ wr) s = .next s) ∧
      (9 ≤ s.rst.stage → s.key.masonGone.contains (c.val / 72) = false → clusterOn s c.val k = true →
        let d := 9 + c.val / 72
        (((0x20004000000 ≤ addr ∧ addr < 0x30000000000) ∨ (0x30001000000 ≤ addr ∧ addr < 0x40000000000) ∨ 0x80000000000 ≤ addr) →
          ∃ t, exec (.masonAccess addr size ⟨c, k⟩ wr) s = .next t ∧
            t = { s with host := { s.host with masonData := [], masonFault := true } }) ∧
        (addr < 0x20000000000 → routeHolds s d (homeTower s addr) = false → chanHeld s addr = false →
          ((k = .load ∨ k = .ifetch) → addr % 64 + size ≤ 64 → 1 ≤ size →
            (masonCode s d addr ≠ St.ok → ∃ t, exec (.masonAccess addr size ⟨c, k⟩ wr) s = .next t ∧
              t = { s with host := { s.host with masonData := [], masonFault := true } }) ∧
            (masonCode s d addr = St.ok → ∀ code bs z, homeRead s true 0 addr size false = (code, bs, z) →
              ∃ t, exec (.masonAccess addr size ⟨c, k⟩ wr) s = .next t ∧ t = { z with host := { z.host with
                masonData := if code = St.ok then bs else [], masonFault := decide (code ≠ St.ok) } })) ∧
          ((k = .store ∨ k = .writeback) → addr % 64 + wr.length ≤ 64 → wr ≠ [] →
            ∀ code z, hereWrite s d true 0 addr wr false = (code, z) → ∃ t, exec (.masonAccess addr size ⟨c, k⟩ wr) s = .next t ∧
              (code = St.ok → t = z) ∧ (code ≠ St.ok → RasReported z t code 5 (unitId z 0 0) addr))) ∧
        (onHub addr = true → routeHolds s d hubDie = false → routed s d hubDie = false →
          ((k = .load ∨ k = .ifetch) → ∃ t, exec (.masonAccess addr size ⟨c, k⟩ wr) s = .next t ∧
            t = { s with host := { s.host with masonData := [], masonFault := true } }) ∧
          ((k = .store ∨ k = .writeback) → ∃ t, exec (.masonAccess addr size ⟨c, k⟩ wr) s = .next t ∧
            RasReported s t St.remoteTimeout 5 (unitId s 0 0) addr)) ∧
        (0x20000000000 ≤ addr → addr < 0x20004000000 → routeHolds s d hubDie = false → routed s d hubDie = true →
          (k = .store ∨ k = .writeback) → exec (.masonAccess addr size ⟨c, k⟩ wr) s =
            exec (.registerWrite (.hub .mason (addr - 0x20000000000)) size (BitVec.ofNat 64 (leNat wr))) s) ∧
        (0x40000000000 ≤ addr → addr < 0x80000000000 → routeHolds s d hubDie = false → routed s d hubDie = true → k = .load →
          (outReady s = true → ∃ t, exec (.masonAccess addr size ⟨c, k⟩ wr) s = .next t ∧
            t = { s with host := { s.host with
              outs := s.host.outs ++ [⟨s.host.nextOut, 0, s.now, addr - 0x40000000000, none, size, .mason false addr⟩]
              nextOut := s.host.nextOut + 1 } }) ∧
          ((s.host.link = false ∨ s.host.cfg.bme = false) → ∃ t, exec (.masonAccess addr size ⟨c, k⟩ wr) s = .next t ∧
            t = { s with host := { s.host with masonData := [], masonFault := true } })))) ∧
    (∀ view off size v, 2 ≤ s.rst.stage → (view = .pcie → barOpen s = true ∧ s.host.posted = []) →
      ((size ≠ 4 ∧ size ≠ 8) ∨ off % size ≠ 0 → exec (.registerWrite (.hub view off) size v) s = .next s) ∧
      (isDriver s view = false → driverOnly off = true → size = 4 → exec (.registerWrite (.hub view off) size v) s = .next s) ∧
      (isDriver s view = true → size = 4 → off = 0x1100038 ∨ off = 0x110003C → exec (.registerWrite (.hub view off) size v) s = .next s) ∧
      (isDriver s view = true → size = 8 → off = 0x1100038 → ∃ t, exec (.registerWrite (.hub view off) size v) s = .next t ∧
        t = { s with host := { s.host with win := t.host.win } } ∧ bf t.host.win 63 20 = bf v 63 20 ∧ bf t.host.win 11 0 = bf v 11 0 ∧
          bf t.host.win 19 12 = 0) ∧
      (isDriver s view = true → size = 8 → off = 0x1100020 → ∃ t, exec (.registerWrite (.hub view off) size v) s = .next t ∧
        t = { s with span := { s.span with rat := v } })) ∧
    (∀ off size v, barOpen s = true → s.host.posted ≠ [] → ∃ t, exec (.registerWrite (.hub .pcie off) size v) s = .next t ∧
      t = { s with host := { s.host with posted := s.host.posted ++ [.register off size v] } }) ∧
    (∀ (v : BitVec 64), 2 ≤ s.rst.stage → ∃ t, exec (.registerWrite (.key .pwrFreq) 4 v) s = .next t ∧
      t = { s with power := { s.power with freqNext := t.power.freqNext } } ∧
      ((56 < bf v 13 8 ∨ bf v 13 8 < bf v 5 0) → t.power.freqNext = s.power.freqNext) ∧
      (bf v 13 8 ≤ 56 → bf v 5 0 ≤ bf v 13 8 → bf t.power.freqNext 13 8 = bf v 13 8 ∧ bf t.power.freqNext 5 0 = bf v 5 0))

/-- Domains reach their states with what is saved and restored, clocks move when no engine runs, budgets sum to the compute
budget and stay within their bounds, each group steps toward its share, and Buttress, the thermal trip and the shutdown act as
the gates do (R363 to R366, R368 to R376, R428). Where the condition of a command does not hold the state stands. The model's
choices in it: log entries 8, 29, 57, 90 and 93. -/
def Obligations.PowerRuns : Prop :=
  ∀ (s : State),
    (∀ d : Fin 108, (((getDom s d.val).st = .off ∨ (getDom s d.val).st = .on ∨ (getDom s d.val).st = .waiting) →
        exec (.domainTransitionDone d) s = .next s) ∧
      ((getDom s d.val).st = .poweringDown → (getDom s d.val).target = false → ∃ t, exec (.domainTransitionDone d) s = .next t ∧
        SetsDom s t d.val { getDom s d.val with
          st := .off, count := satInc (getDom s d.val).count, saved := (getDom t d.val).saved } ∧
        (d.val < 64 → (∀ i < 4, coreDark s t (4 * d.val + i)) ∧
          (∀ i < 4, (∀ e < 4, (getDom t d.val).saved.getD (6 * i + e) 0 = tget 0 (getCore s (4 * d.val + i)).cr.ashErr e) ∧
            (getDom t d.val).saved.getD (6 * i + 4) 0 = (getCore s (4 * d.val + i)).cr.chsErr ∧
            (getDom t d.val).saved.getD (6 * i + 5) 0 = (getCore s (4 * d.val + i)).cr.spadErr) ∧
          ∀ c, c / 4 ≠ d.val → getCore t c = getCore s c) ∧
        (80 ≤ d.val → d.val < 96 → ∀ i < 32, ((getDom t d.val).saved.getD i 0).toNat = bf (getHbm s (32 * (d.val - 80) + i)).stat 15 0)) ∧
      ((getDom s d.val).st = .poweringUp → (getDom s d.val).target = true → ∃ t, exec (.domainTransitionDone d) s = .next t ∧
        (d.val < 104 → SetsDom s t d.val { getDom s d.val with st := .on, count := satInc (getDom s d.val).count, saved := [] }) ∧
        (d.val < 64 → getGroup t d.val = {} ∧ (∀ i < 4, (getCore t (4 * d.val + i)).phase = .returning ∧
            (∀ e < 4, tget 0 (getCore t (4 * d.val + i)).cr.ashErr e = (getDom s d.val).saved.getD (6 * i + e) 0) ∧
            (getCore t (4 * d.val + i)).cr.chsErr = (getDom s d.val).saved.getD (6 * i + 4) 0 ∧
            (getCore t (4 * d.val + i)).cr.spadErr = (getDom s d.val).saved.getD (6 * i + 5) 0)) ∧
        (80 ≤ d.val → d.val < 96 → ∀ i < 32, chState t (32 * (d.val - 80) + i) = chState s (32 * (d.val - 80) + i) ∧
          bf (getHbm t (32 * (d.val - 80) + i)).stat 15 0 = ((getDom s d.val).saved.getD i 0).toNat % 65536)) ∧
      (d.val < 104 → (getDom s d.val).st = .poweringDown → (getDom s d.val).target = true →
        ∃ t, exec (.domainTransitionDone d) s = .next t ∧ (getDom t d.val).st = .poweringUp)) ∧
    (∀ m : Fin 8, ((getDom s (96 + m.val)).st = .waiting → ∃ t, exec (.masonHartsStopped m) s = .next t ∧
        SetsDom s t (96 + m.val) { getDom s (96 + m.val) with st := .poweringDown }) ∧
      ((getDom s (96 + m.val)).st ≠ .waiting → exec (.masonHartsStopped m) s = .next s)) ∧
    (∀ g : Fin 64, let k := getGroup s g.val
      ((k.blocked = false ∨ groupBusy s g.val = true) → exec (.clockChangeApply g) s = .next s) ∧
      (∀ τ, s.power.buttress = false → k.lastChange = some τ → s.now < τ + 50000 → exec (.clockChangeApply g) s = .next s) ∧
      (k.blocked = true → groupBusy s g.val = false → (s.power.buttress = true ∨ ∀ τ, k.lastChange = some τ → τ + 50000 ≤ s.now) →
        ∃ t, exec (.clockChangeApply g) s = .next t ∧
          SetsGroup s t g.val { k with step := k.target, blocked := false, lastChange := some s.now } ∧
          (getTower t (g.val / 8)).vtarget = setPoint s (g.val / 8) (towerStep t (g.val / 8)) ∧
          ∀ u, u ≠ g.val / 8 → getTower t u = getTower s u)) ∧
    (∀ u : Tower, s.power.buttress = false → ∃ t, exec (.regulatorSettled u) s = .next t ∧
      t = { s with towers := t.towers, power := { s.power with groups := t.power.groups } } ∧
      SetsTower s { t with power := s.power } u.val { getTower s u.val with vset := (getTower s u.val).vtarget, silent := false } ∧
      ∀ g, getGroup t g = if g / 8 = u.val ∧ (getGroup s g).step < (getGroup s g).target ∧
          setPoint s u.val (getGroup s g).target ≤ (getTower s u.val).vtarget then { getGroup s g with blocked := true } else getGroup s g) ∧
    (∀ u : Tower, s.rst.stage < 2 → exec (.avsSilent u) s = .next s) ∧
    (∀ u : Tower, 2 ≤ s.rst.stage → ∃ t, exec (.avsSilent u) s = .next t ∧ (getTower t u.val).silent = true ∧
      (s.power.buttress = true → t = { s with towers := t.towers, power := { s.power with highSince := none } }) ∧
      (s.power.buttress = false → EntersButtress s t)) ∧
    (∃ t, exec .buttressEntered s = .next t ∧ t.pins.butLow = true ∧
      (s.rst.stage < 7 → t = { s with pins := { s.pins with butLow := true } }) ∧
      (7 ≤ s.rst.stage → t.power.alert = true ∧ (s.power.buttress = false →
        EntersButtress { s with pins := { s.pins with butLow := true }, power := { s.power with alert := true } } t))) ∧
    (∃ t, exec .buttressNRise s = .next t ∧ t = { s with
        pins := { s.pins with butLow := false }
        power := { s.power with alert := false, highSince := t.power.highSince } } ∧
      ((∀ u < 8, (getTower s u).silent = false) → sensorTripped s = false → t.power.highSince = some (s.power.highSince.getD s.now)) ∧
      ((∃ u < 8, (getTower s u).silent = true) ∨ sensorTripped s = true → t.power.highSince = none)) ∧
    ((s.power.highSince = none → exec .buttressEnd s = .next s) ∧
      (∀ τ, s.power.highSince = some τ → s.now < τ + 1000000 → exec .buttressEnd s = .next s) ∧
      (∀ τ, s.power.highSince = some τ → τ + 1000000 ≤ s.now → s.power.buttress = true → buttressHeld s = false →
        ∃ t, exec .buttressEnd s = .next t ∧ t = { s with power := { s.power with
          buttress := false, masonSlow := false, hbmSlow := false, highSince := none, groups := t.power.groups } } ∧
          ∀ g < 64, getGroup t g = { getGroup s g with soft := true })) ∧
    (∀ x : Fin 74, ∃ t, exec (.thermalTrip x) s = .next t ∧
      t.power.trips = (if s.power.trips.any (fun p => decide (p.1 = x.val)) then s.power.trips else s.power.trips ++ [(x.val, s.now)]) ∧
      (s.power.buttress = false → EntersButtress { s with power := { s.power with trips := t.power.trips } } t)) ∧
    (((s.rst.off = true ∨ ∀ p ∈ s.power.trips, s.now < p.2 + 10000000) → exec .thermalShutdown s = .next s) ∧
      (s.rst.off = false → (∃ p ∈ s.power.trips, p.2 + 10000000 ≤ s.now) → ∃ t, exec .thermalShutdown s = .next t ∧
        t.rst = { s.rst with off := true, cause1 := t.rst.cause1 } ∧ bt t.rst.cause1 19 = true ∧ t.gangs = [] ∧
        (∀ d < 108, (getDom t d).st = .off ∧ (getDom t d).target = false) ∧
        (∀ k < 18, (getMod s k).st ≠ .retired → (getMod t k).st = .off) ∧ (∀ c < 256, coreDark s t c))) ∧
    ((s.now ≤ s.power.coolantAt + 5000000000 → exec .coolantStale s = .next s) ∧
      (s.power.coolantAt + 5000000000 < s.now → ∃ t, exec .coolantStale s = .next t ∧
        t = { s with power := { s.power with stale := true, inlet := 45 * 16, flow := 300 } })) ∧
    (∀ m : PowerMeas, let B : Rat := (bf s.power.capNext 31 20 : Rat) - m.pRest
      ∃ t, exec (.powerInterval m) s = .next t ∧ t.power.cap = s.power.capNext ∧ t.power.freq = s.power.freqNext ∧
        t.power.sensors = m.sensors ∧ t.power.budgetOld = B ∧ t.cores = s.cores ∧ t.power.groups = s.power.groups ∧
        (bt t.memcfg 29 = true ↔ ∃ i < 16, 85 * 16 < m.sensors.getD (48 + i) 0) ∧
        (bt s.power.capNext 11 = false → ∀ u < 8, (getTower t u).budget = B / 8) ∧
        (s.power.budgetOld ≠ 0 → budgetSum s = s.power.budgetOld → budgetSum t = B) ∧
        (0 < B → 0 < s.power.budgetOld →
          (∀ u < 8, s.power.budgetOld / 16 ≤ (getTower s u).budget ∧ (getTower s u).budget ≤ 3 * s.power.budgetOld / 16) →
          ∀ u < 8, B / 16 ≤ (getTower t u).budget ∧ (getTower t u).budget ≤ 3 * B / 16) ∧
        (∀ u < 8, ∀ i < 4, 95 * 16 ≤ m.sensors.getD (4 * u + i) 0 → (getTower t u).throttle = (getTower s u).throttle * 95 / 100)) ∧
    (∀ p : List Nat, ((s.power.buttress = true ∨ s.rst.stage < 7) → exec (.groupFreqStep p) s = .next s) ∧
      (s.power.buttress = false → 7 ≤ s.rst.stage → ∃ t, exec (.groupFreqStep p) s = .next t ∧
        t = { s with towers := t.towers, power := { s.power with groups := t.power.groups } } ∧
        ∀ g < 64, (getGroup s g).soft = false → (getGroup t g).step = (getGroup s g).step ∧
          (let k := getGroup s g
           let P : Rat := (p.getD g 0 : Nat)
           let S := budgetNow s (g / 8) * 125
           (((∀ i < 4, holdsKernel (getCore s (4 * g + i)) = false) → (getGroup t g).target = 0) ∧
            ((∃ i < 4, holdsKernel (getCore s (4 * g + i)) = true) → k.target ≤ fMax s → fMin s ≤ fMax s →
              (105 / 100 * S < P → (S < P) → (getGroup t g).target = k.target - 4) ∧
              (S < P → P ≤ 105 / 100 * S → (getGroup t g).target = k.target - 1) ∧
              (P < 97 / 100 * S → P ≤ S → (getGroup t g).target = max (fMin s) (min (k.target + 1) (fMax s))) ∧
              (97 / 100 * S ≤ P → P ≤ S → P ≤ 105 / 100 * S → (getGroup t g).target = max (fMin s) k.target))))))

/-- A module channel is queued, ramps with at most one other of its group, becomes ON on its own evidence, latches with the cause of its
case and starts again, is retired by the latch of its third retry, pauses beside a channel in limit, and turns off without a latch
when EN clears or VMOD is lost (R362, R377 to R380).
Where the condition of a command does not hold the state stands. The model's choices in it: log entries 8 and 54. -/
def Obligations.ModuleChannelsRun : Prop :=
  ∀ (s : State),
    (∃ t, exec .vmodLoss s = .next t ∧ t.power.vmodOk = false ∧ ∀ k < 18,
      (getMod t k).st = (if (getMod s k).st = .retired then .retired else .off) ∧ (getMod t k).en = (getMod s k).en ∧
        (getMod t k).cause = (getMod s k).cause ∧ (getMod t k).retries = (getMod s k).retries) ∧
    (∃ t, exec .vmodReturn s = .next t ∧ t = { s with power := { s.power with vmodOk := true, mods := t.power.mods } } ∧ ∀ k < 18,
      getMod t k = if (getMod s k).en = true ∧ (getMod s k).st = .off ∧ s.rst.off = false then { getMod s k with st := .queued } else getMod s k) ∧
    ∀ k : Port, let m := getMod s k.val
      ((∀ en, (m.st = .retired ∨ en = m.en) → exec (.modEnWrite k en) s = .next s) ∧
        (m.st ≠ .retired → m.en = false → ∃ t, exec (.modEnWrite k true) s = .next t ∧
          SetsMod s t k.val { m with en := true, st := if s.power.vmodOk = true ∧ s.rst.off = false then .queued else .off }) ∧
        (m.st ≠ .retired → m.en = true → ∃ t, exec (.modEnWrite k false) s = .next t ∧ (getMod t k.val).st = .off ∧
          (getMod t k.val).en = false ∧ (getMod t k.val).retries = 0)) ∧
      (((m.st ≠ .queued ∨ 2 ≤ (rampsBeside s k.val).length ∨ (∃ j ∈ groupOthers k.val, j < k.val ∧ (getMod s j).st = .queued)) →
          exec (.modRampStart k) s = .next s) ∧
        (m.st = .queued → (rampsBeside s k.val).length ≤ 1 → (∀ j ∈ groupOthers k.val, j < k.val → (getMod s j).st ≠ .queued) →
          s.power.vmodOk = true → ∃ t, exec (.modRampStart k) s = .next t ∧ SetsMod s t k.val { m with
            st := .ramp, rampAt := s.now, windowEnd := s.now + 2000000, extended := false, inLimit := false, driven := true,
            paused := (rampsBeside s k.val).any (fun j => (getMod s j).inLimit), pausedAt := s.now })) ∧
      ((m.st = .ramp → m.paused = false → m.inLimit = false → ∃ t, exec (.modOn k) s = .next t ∧
          SetsMod s t k.val { m with st := .on, onAt := s.now, extended := false }) ∧
        ((m.paused = true ∨ m.inLimit = true) → exec (.modOn k) s = .next s)) ∧
      (∀ v : BitVec 12, m.st = .ramp →
        (m.paused = true → m.rampAt + 5000000 ≤ s.now → ∃ t, exec (.modWindowEnd k v) s = .next t ∧ SetsMod s t k.val { m with
          rampAt := s.now, windowEnd := s.now + 2000000, extended := false, pausedAt := s.now }) ∧
        (m.paused = false → s.now < m.windowEnd → exec (.modWindowEnd k v) s = .next s) ∧
        (m.paused = false → m.windowEnd ≤ s.now →
          (v.toNat < 120 → m.extended = false → m.retries < 3 → ∃ t, exec (.modWindowEnd k v) s = .next t ∧ Latches s t k.val 1) ∧
          (120 ≤ v.toNat → m.rampAt + 5000000 ≤ s.now → m.retries < 3 → ∃ t, exec (.modWindowEnd k v) s = .next t ∧
            Latches s t k.val 2) ∧
          (120 ≤ v.toNat → s.now < m.rampAt + 5000000 → ∃ t, exec (.modWindowEnd k v) s = .next t ∧
            SetsMod s t k.val { m with windowEnd := m.rampAt + 5000000, extended := true }))) ∧
      ((m.st = .ramp → m.paused = false → m.inLimit = false → ∃ t, exec (.modCurrentLimit k true) s = .next t ∧
          t = { s with power := { s.power with mods := t.power.mods } } ∧
          getMod t k.val = { m with inLimit := true, limitSince := s.now } ∧
          (∀ j ∈ rampsBeside s k.val, (getMod s j).inLimit = false → (getMod s j).paused = false →
            getMod t j = { getMod s j with paused := true, pausedAt := s.now }) ∧
          ∀ j, j ≠ k.val → (j ∉ rampsBeside s k.val ∨ (getMod s j).inLimit = true) → getMod t j = getMod s j) ∧
        (m.st = .on → m.paused = false → m.inLimit = false → ∃ t, exec (.modCurrentLimit k true) s = .next t ∧
          SetsMod s t k.val { m with inLimit := true, limitSince := s.now }) ∧
        (m.st = .ramp → m.paused = false → m.inLimit = true → (∀ j ∈ rampsBeside s k.val, (getMod s j).inLimit = false) →
          ∃ t, exec (.modCurrentLimit k false) s = .next t ∧ (getMod t k.val).inLimit = false ∧
          ∀ j ∈ rampsBeside s k.val, (getMod s j).paused = true → getMod t j = { getMod s j with
            paused := false, windowEnd := min ((getMod s j).windowEnd + (s.now - (getMod s j).pausedAt)) ((getMod s j).rampAt + 5000000) })) ∧
      ((m.inLimit = false ∨ s.now < m.limitSince + 1000000 → exec (.modLimitLatch k) s = .next s) ∧
        ((m.st = .ramp ∨ m.st = .on) → m.inLimit = true → m.limitSince + 1000000 ≤ s.now →
          (m.retries < 3 → ∃ t, exec (.modLimitLatch k) s = .next t ∧ Latches s t k.val 3) ∧
          (3 ≤ m.retries → ∃ t, exec (.modLimitLatch k) s = .next t ∧ (getMod t k.val).st = .retired ∧
            t.key.recs.retired = s.key.recs.retired ++ [unitCode 0xD k.val] ∧
            ∃ z, RasReported z t St.modRetired 1 (unitId s 0xD k.val) 0))) ∧
      ((m.st ≠ .latched ∨ s.now < m.latchedAt + 100000000 → exec (.modRetry k) s = .next s) ∧
        (m.st = .latched → m.latchedAt + 100000000 ≤ s.now → ∃ t, exec (.modRetry k) s = .next t ∧
          SetsMod s t k.val { m with st := .queued, retries := m.retries + 1 })) ∧
      ((m.st ≠ .on ∨ s.now < m.onAt + 10000000000 → exec (.modRetriesClear k) s = .next s) ∧
        (m.st = .on → m.onAt + 10000000000 ≤ s.now → ∃ t, exec (.modRetriesClear k) s = .next t ∧ SetsMod s t k.val { m with retries := 0 })) ∧
      ∃ t, exec (.modCtlClr k) s = .next t ∧ (getMod t k.val).st = .off ∧ (getMod t k.val).en = false ∧ (getMod t k.val).retries = 0 ∧
        t.key.recs.retired = s.key.recs.retired.filter (fun u => decide (u ≠ unitCode 0xD k.val))

/-- Every reset source leaves the one reset state with the record of it, power-on and the loss of VAON a fresh record; release goes
through its nine steps in order, each with its effect and only when its condition holds, the memory steps leave every line 0 and DONE
ends start-up (R381 to R393, R396).
Where the condition of a command does not hold the state stands. The model's choices in it: log entries 8, 59, 60 and 62. -/
def Obligations.ResetsAndReleaseRun : Prop :=
  ∀ (s : State),
    ((∃ t, exec .powerOnReset s = .next t ∧ ResetHeld s t ∧ t.rst.active = [0] ∧ t.rst.cause0 = 0x01000001 ∧ t.rst.cause1 = 0 ∧
        t.store.sincePwr = [] ∧ t.rst.railsUp = true) ∧
      (∃ t, exec .powerLoss s = .next t ∧ ResetHeld s t ∧ t.rst.railsUp = false ∧ t.store.sincePwr = [] ∧ t.towers = [])) ∧
    (s.rst.railsUp = true →
      (∀ rail : Fin 14, ∃ t, exec (.brownOutReset rail) s = .next t ∧ Recognised s t 1 ∧ bf t.rst.cause1 31 27 = rail.val) ∧
      (∃ t, exec .pinReset s = .next t ∧ Recognised { s with pins := { s.pins with resetLow := true } } t 2 ∧ bt t.rst.cause1 19 = false) ∧
      (1 ≤ s.rst.stage → s.key.halted = false → ∃ t, exec .watchdogReset s = .next t ∧ Recognised s t 3) ∧
      (∀ τ, s.rst.softDue = some τ → τ ≤ s.now → s.rst.softMb < 4 → ∃ t, exec .softwareReset s = .next t ∧ Recognised s t 4 ∧
        bf t.rst.cause1 26 25 = s.rst.softMb) ∧
      (s.pins.dbgEn = true → s.rst.active = [] → ∃ t, exec .debugReset s = .next t ∧ Recognised s t 5) ∧
      (∃ t, exec .refclkFailureReset s = .next t ∧ Recognised s t 6) ∧
      (1 ≤ s.rst.stage → ∀ b, ∃ t, exec (.keystoneLockupReset b) s = .next t ∧ Recognised s t 7 ∧ bt t.rst.cause1 24 = b) ∧
      (∀ k : Fin 8, (∀ τ, (k.val, τ) ∈ s.rst.since → k.val ∈ [3, 4, 5, 7] → s.now < τ + 10000 → exec (.resetSourceEnd k) s = .next s) ∧
        ((∀ τ, (k.val, τ) ∈ s.rst.since → τ + (if k.val ∈ [3, 4, 5, 7] then 10000 else if k.val = 6 then 1000000 else 0) ≤ s.now) →
          ∃ t, exec (.resetSourceEnd k) s = .next t ∧
            t.rst = { s.rst with active := s.rst.active.filter fun a => decide (a ≠ k.val) } ∧ (k.val ≠ 2 → t.pins = s.pins)))) ∧
    ((s.key.halted = true → exec .watchdogReset s = .next s) ∧ (s.rst.softDue = none → exec .softwareReset s = .next s) ∧
      (∀ τ, s.rst.softDue = some τ → s.now < τ → exec .softwareReset s = .next s) ∧
      ((s.pins.dbgEn = false ∨ s.rst.active ≠ []) → exec .debugReset s = .next s)) ∧
    (∀ b : BootRead, ((s.rst.active ≠ [] ∨ s.rst.railsUp = false ∨ s.rst.off = true) → exec (.resetReleaseStep b) s = .next s) ∧
      (s.rst.active = [] → s.rst.railsUp = true → s.rst.off = false →
        (s.rst.stage = 0 → b.flash = true → b.journal = true → (journalOf s).trial = none →
          slotSealed (slotOf s (journalOf s).committed) = true → ∃ t, exec (.resetReleaseStep b) s = .next t ∧ t = { s with
            store := { s.store with flashOk := true }
            rst := { s.rst with stage := 1, slot := (journalOf s).committed }
            key := { s.key with trial := false } }) ∧
        (s.rst.stage = 0 → (b.flash = false ∨ b.journal = false) → ∃ t, exec (.resetReleaseStep b) s = .next t ∧ t.rst.stage = 1 ∧
          t.rst.recovery = true ∧ ∀ m, m ≠ 0 → getMbox t m = getMbox s m) ∧
        (s.rst.stage = 1 → ∃ t, exec (.resetReleaseStep b) s = .next t ∧ t = { s with
          rst := { s.rst with stage := 2 }
          plumb := t.plumb } ∧ t.plumb.running = true ∧ t.plumb.count = 0 ∧ t.plumb.cfg = s.plumb.cfg ∧
          (plumbRoot s = false → plumbPort s = none → t.plumb.holdover = true ∧ t.plumb.locked = false)) ∧
        (s.rst.stage = 2 → bt s.rst.cause1 19 = true → ∃ t, exec (.resetReleaseStep b) s = .next t ∧
          RasSide { s with rst := { s.rst with stage := 3 } } t ∧ ∀ m, m ≠ 0 → getMbox t m = getMbox s m) ∧
        (s.rst.stage = 2 → bt s.rst.cause1 19 = false → s.rst.recovery = false → ∃ t, exec (.resetReleaseStep b) s = .next t ∧
          t.rst.stage = 3 ∧ t.host.drv = t.key.sets.drv ∧ t.power.cap = t.key.sets.cap ∧ t.power.freq = t.key.sets.freq ∧
          t.plumb.cfg = t.key.sets.plumb ∧ bf t.memcfg 31 30 = bit t.key.sets.tower ∧
          (∀ c < 256, unitCode 2 c ∈ t.key.recs.retired → (getCore t c).retired = true) ∧
          ∀ k < 18, unitCode 13 k ∈ t.key.recs.retired → (getMod t k).st = .retired) ∧
        (s.rst.stage = 3 → (m0Only s = true ∨ ∃ u < 8, (getTower s u).vset ≠ (getTower s u).vtarget) →
          exec (.resetReleaseStep b) s = .next s) ∧
        (s.rst.stage = 3 → mayFour s = true → ∃ t, exec (.resetReleaseStep b) s = .next t ∧ t.rst = { s.rst with stage := 4 } ∧
          t.host = { s.host with cfgReady := true }) ∧
        (s.rst.stage = 4 → ∃ t, exec (.resetReleaseStep b) s = .next t ∧ t.rst = { s.rst with stage := 5, late := t.rst.late } ∧
          (∀ p ∈ b.lanes, (getLintel t p.1.val).retired = true ∨ p.2.val ∈ (getLintel t p.1.val).bad) ∧
          (b.lanes = [] → (∀ l, (trainLink (getLintel s l)).half = true → 8 ≤ lintelGood (getLintel s l)) →
            (∀ d < 11, dieRouted s d = true) →
            t = { s with lintel := t.lintel, rst := { s.rst with stage := 5 } } ∧
            ∀ l, getLintel t l = trainLink (getLintel s l))) ∧
        (s.rst.stage = 5 → ∃ t, exec (.resetReleaseStep b) s = .next t ∧ t = { s with rst := { s.rst with stage := 6 } }) ∧
        (s.rst.stage = 6 → ∃ t, exec (.resetReleaseStep b) s = .next t ∧ t.rst = { s.rst with stage := 7 } ∧
          (∀ c < 256, (getCore s c).retired = false → (getCore t c).phase = .returning) ∧
          (∀ c < 256, (getCore s c).retired = true → getCore t c = getCore s c) ∧
          (s.pins.butLow = true → t.power.buttress = true) ∧ (s.pins.butLow = false → t.power.buttress = s.power.buttress)) ∧
        (s.rst.stage = 7 → ∃ t, exec (.resetReleaseStep b) s = .next t ∧ t.rst = { s.rst with stage := 8 } ∧ t.plumb.step8 = some s.now ∧
          ∀ k < 18, (getMod s k).st ≠ .retired → (getMod t k).en = bt (tget 0x178 s.key.sets.mods k) 8) ∧
        (s.rst.stage = 8 → (s.rst.memDone = false → exec (.resetReleaseStep b) s = .next s) ∧
          (s.rst.memDone = true → ∃ t, exec (.resetReleaseStep b) s = .next t ∧ t = { s with rst := { s.rst with stage := 9 } })) ∧
        (9 ≤ s.rst.stage → exec (.resetReleaseStep b) s = .next s))) ∧
    (∀ failed repaired, ((s.rst.stage < 6 ∨ s.rst.memDone = true ∨ s.rst.active ≠ []) →
        exec (.memoryStepsDone failed repaired) s = .next s) ∧
      (6 ≤ s.rst.stage → s.rst.memDone = false → s.rst.active = [] → ∃ t, exec (.memoryStepsDone failed repaired) s = .next t ∧
        t.rst.memDone = true ∧ t.rst.stage = s.rst.stage ∧ t.mem = [] ∧ t.lost = [] ∧ ∀ c ∈ failed, chState t c.val = 1)) ∧
    (((s.rst.stage ≠ 9 ∨ s.rst.memDone = false ∨ s.rst.done = true) → exec .startupDone s = .next s) ∧
      (s.rst.stage = 9 → s.rst.memDone = true → s.rst.done = false → s.rst.late = [] → ∃ z t, exec .startupDone s = .next t ∧
        RasReported { s with rst := { s.rst with done := true } } z St.ok 6 (unitId s 0 0) 0 ∧
        t = { z with key := { z.key with autoAt := t.key.autoAt, test := t.key.test } }))

/-- An order runs only when it stands at the head with its verb; the checks of R401 refuse it with their reasons and no effect; the orders
of the groups SYS, PWR, THM, MEM and SPAN have the effects and results of their rows (R363, R382, R401, R402, R407, R408, R410, R411).
Where the condition of a command does not hold the state stands. The model's choices in it: log entries 8, 23, 34 and 35. -/
def Obligations.SystemOrdersRun : Prop :=
  ∀ (s : State),
    (∀ r ∈ rowsOrder, (s.key.batch = [] → exec r.1 s = .next s) ∧
      (∀ o l, s.key.batch = o :: l → (o.busy = true ∨ s.key.halted = true ∨ o.group.toNat ≠ r.2.1 ∨ o.verb.toNat ≠ r.2.2.1) →
        exec r.1 s = .next s) ∧
      (∀ o, s.key.batch = [o] → s.key.batchDone = [] → o.busy = false → o.started = false → o.code = St.ok → o.res = [] → o.wrote = [] →
        s.key.halted = false → o.group.toNat = r.2.1 → o.verb.toNat = r.2.2.1 → permitted s o.mb r.2.2.2 = false →
        ∃ t, exec r.1 s = .next t ∧ Ends s t o St.ok 1 [])) ∧
    (∀ o, Sole s o 1 1 .r → o.args = [] → ∃ t d, exec .sysInfo s = .next t ∧ d.length = 64 ∧ Ends s t o St.ok 0 d) ∧
    (∀ o, (Sole s o 1 2 .r → o.args = [] → ∃ t, exec .sysCause s = .next t ∧
        Ends s t o St.ok 0 (toLe 4 s.rst.cause0.toNat ++ toLe 4 s.rst.cause1.toNat)) ∧
      ∀ b, Sole s o 1 2 .w → o.args = [b] → b ≠ 0 → ∃ z t, exec .sysCause s = .next t ∧
        Ends z t o St.ok 0 (toLe 4 s.rst.cause0.toNat ++ toLe 4 s.rst.cause1.toNat) ∧
        z = { s with rst := { s.rst with cause0 := z.rst.cause0 } } ∧
        ∀ i < 32, bt z.rst.cause0 i = (bt s.rst.cause0 i && !(decide (i < 8) && bt b i))) ∧
    (∀ o, Sole s o 1 3 .w → o.args = [] → ∃ t, exec .sysReset s = .next t ∧
      Ends { s with rst := { s.rst with softDue := some (s.rst.softDue.getD (s.now + 10000)), softMb := o.mb } } t o St.ok 0 []) ∧
    (∀ o, Sole s o 1 4 .w →
      (o.args = [1] → s.key.stopped = true → ∃ t, exec .sysOffline s = .next t ∧
        Ends { s with key := { s.key with stopHeld := true } } t o St.ok 0 []) ∧
      (o.args = [1] → s.key.stopped = false → s.key.stopping = false → ∃ t, exec .sysOffline s = .next t ∧
        t = { s with key := { s.key with stopping := true, stopSince := s.now } }) ∧
      (o.args = [0] → (∀ p ∈ s.key.pending, p.offline = false) → ∃ t, exec .sysOffline s = .next t ∧
        Ends { s with key := { s.key with stopHeld := false, stopped := false } } t o St.ok 0 [])) ∧
    ((s.key.stopping = false → exec .packageStop s = .next s) ∧
      (s.key.stopping = true → (∀ e ∈ s.queues, e.2.run = none) → ∃ t, exec .packageStop s = .next t ∧
        t = { s with key := { s.key with stopping := false, stopped := true } }) ∧
      (s.key.stopping = true → (∃ e ∈ s.queues, e.2.run.isSome = true) →
        (s.now < s.key.stopSince + 100000000 → exec .packageStop s = .next s) ∧
        (s.key.stopSince + 100000000 ≤ s.now → ∃ t, exec .packageStop s = .next t ∧ t.key.stopping = true ∧
          ∀ e ∈ s.queues, e.2.run.isSome = true → (getQueue t e.1).resetting = true))) ∧
    (∀ o, Sole s o 1 5 .w0 → ∀ b : Byte, b.toNat ≤ 1 → o.args = [b] →
      (o.persist = false → ∃ t, exec .sysDrv s = .next t ∧ Ends s t o St.ok 3 []) ∧
      (o.persist = true → ∃ t, exec .sysDrv s = .next t ∧ Settles s t o { s.key.sets with drv := decide (b = 1) })) ∧
    (∀ o, Sole s o 1 6 .w0 → ∀ b : Byte, b.toNat ≤ 1 → o.args = [b] → ∃ t, exec .sysM3 s = .next t ∧
      Settles { s with key := { s.key with m3w := decide (b = 1) } } t o { s.key.sets with m3w := decide (b = 1) }) ∧
    (∀ o, Sole s o 1 7 .r → ∀ b : Byte, b.toNat ≤ 1 → o.args = [b] → ∃ t d, exec .sysSetread s = .next t ∧ Ends s t o St.ok 0 d ∧
      d.length ≤ 2048 ∧ (newest (areaOf s (s.rst.slot ^^ decide (b = 1))) = none → d = [])) ∧
    (∀ o, Sole s o 2 1 .w → o.args.length = 5 →
      ((arg o 0 2 < 1200 ∨ 3000 < arg o 0 2 ∨ arg o 2 2 < 60 ∨ 220 < arg o 2 2 ∨ 1 < arg o 4 1) →
        ∃ t, exec .pwrCap s = .next t ∧ Ends s t o St.ok 2 []) ∧
      (1200 ≤ arg o 0 2 → arg o 0 2 ≤ 3000 → 60 ≤ arg o 2 2 → arg o 2 2 ≤ 220 → arg o 4 1 ≤ 1 → ∃ t v, exec .pwrCap s = .next t ∧
        bf v 31 20 = arg o 0 2 ∧ bf v 19 12 = arg o 2 2 ∧ bf v 11 11 = arg o 4 1 ∧
        Settles { s with power := { s.power with capNext := v } } t o { s.key.sets with cap := v })) ∧
    (∀ o, Sole s o 2 2 .w → o.args.length = 2 →
      ((56 < arg o 1 1 ∨ arg o 1 1 < arg o 0 1) → ∃ t, exec .pwrFreq s = .next t ∧ Ends s t o St.ok 2 []) ∧
      (arg o 1 1 ≤ 56 → arg o 0 1 ≤ arg o 1 1 → ∃ t v, exec .pwrFreq s = .next t ∧ bf v 13 8 = arg o 1 1 ∧ bf v 5 0 = arg o 0 1 ∧
        Settles { s with power := { s.power with freqNext := v } } t o { s.key.sets with freq := v })) ∧
    (∀ o, Sole s o 2 3 .w → o.args.length = 2 → arg o 0 1 ≤ 107 → arg o 1 1 ≤ 1 →
      (((64 ≤ arg o 0 1 ∧ arg o 0 1 < 80) ∨ (80 ≤ arg o 0 1 ∧ arg o 0 1 < 96 ∧ arg o 1 1 = 0 ∧ stackRetired s (arg o 0 1 - 80) = false)) →
        ∃ t, exec .pwrDomain s = .next t ∧ Ends s t o St.ok 3 []) ∧
      (arg o 0 1 < 64 → ∃ z t, exec .pwrDomain s = .next t ∧ Ends z t o St.ok 0 [] ∧ (getDom z (arg o 0 1)).target = decide (arg o 1 1 = 1) ∧
        (arg o 1 1 = 0 → (getDom s (arg o 0 1)).st = .on → (getDom z (arg o 0 1)).st =
          if groupClaimed s (arg o 0 1) then .poweringDown else .waiting) ∧
        (arg o 1 1 = 1 → (getDom s (arg o 0 1)).st = .off → (getDom z (arg o 0 1)).st = .poweringUp) ∧
        (arg o 1 1 = 1 → (getDom s (arg o 0 1)).st = .waiting → (getDom z (arg o 0 1)).st = .on) ∧
        ((getDom s (arg o 0 1)).st = .poweringUp ∨ (getDom s (arg o 0 1)).st = .poweringDown →
          (getDom z (arg o 0 1)).st = (getDom s (arg o 0 1)).st))) ∧
    (∀ o, Sole s o 2 4 .r → o.args = [] → ∃ t, exec .pwrStatus s = .next t ∧ Ends s t o St.ok 0
      (([pwrStat s, s.power.capNext, s.power.freqNext] ++ (List.range 8).map (pwrTwr s) ++ (List.range 108).map (domStat s)).flatMap
        fun w => toLe 4 w.toNat)) ∧
    (∀ o, Sole s o 3 1 .w → o.args.length = 4 → ∃ t, exec .thmCoolant s = .next t ∧
      Ends { s with power := { s.power with inlet := arg o 0 2, flow := arg o 2 2, coolantAt := s.now, stale := false } } t o St.ok 0 []) ∧
    (∀ o, Sole s o 3 2 .r → o.args = [] → ∃ t d, exec .thmStatus s = .next t ∧ Ends s t o St.ok 0 d ∧ d.length = 154 ∧
      ∀ i < 74, fieldLe d (2 * i) 2 = (BitVec.ofInt 16 (s.power.sensors.getD i 0)).toNat) ∧
    (∀ o, Sole s o 4 1 .w → ∀ b : Byte, b.toNat ≤ 1 → o.args = [b] →
      (o.persist = false → ∃ t, exec .memIntlv s = .next t ∧ Ends s t o St.ok 3 []) ∧
      (o.persist = true → ∃ t, exec .memIntlv s = .next t ∧ Settles s t o { s.key.sets with tower := decide (b = 1) })) ∧
    (∀ o, Sole s o 4 2 .w → o.args.length = 3 → arg o 0 1 ≤ 7 → arg o 1 1 ≤ 7 → arg o 2 1 ≤ 3 →
      (bt (getTower s (arg o 0 1)).part (16 + arg o 1 1) = true → ∃ t, exec .memQkind s = .next t ∧ Ends s t o St.ok 3 []) ∧
      (bt (getTower s (arg o 0 1)).part (16 + arg o 1 1) = false → qKind s (arg o 0 1) (arg o 1 1) ≠ 2 → o.persist = false →
        ∃ z t, exec .memQkind s = .next t ∧ Ends z t o St.ok 0 [] ∧ z = { s with towers := z.towers, power := z.power } ∧
          (getTower z (arg o 0 1)).changing = (getTower s (arg o 0 1)).changing ++ [(arg o 1 1, arg o 2 1)] ∧
          (arg o 2 1 = 3 → z.power = s.power) ∧
          (arg o 2 1 ≠ 3 → (getDom z (64 + halfOf (arg o 0 1) (arg o 1 1))).target = true))) ∧
    (∀ o, Sole s o 4 3 .r → o.args.length = 4 → 1 ≤ arg o 2 2 → arg o 2 2 ≤ 500 → arg o 0 2 + arg o 2 2 ≤ 512 →
      ∃ t, exec .memStatus s = .next t ∧ Ends s t o St.ok 0 (([s.memcfg] ++ (List.range 8).map (qryPart s)
        ++ (List.range (arg o 2 2)).map fun i => (getHbm s (arg o 0 2 + i)).stat).flatMap fun w => toLe 4 w.toNat)) ∧
    (∀ o, Sole s o 5 1 .w → o.args.length = 3 → arg o 0 2 ≤ 511 →
      (s.span.routeEn = true → ∃ t, exec .spanId s = .next t ∧ Ends s t o St.ok 3 []) ∧
      (s.span.routeEn = false → ∃ t v, exec .spanId s = .next t ∧ bt v 31 = true ∧ bf v 24 16 = arg o 0 2 ∧ bf v 7 0 = arg o 2 1 ∧
        Settles { s with span := { s.span with id := v } } t o { s.key.sets with spanId := v })) ∧
    (∀ o, Sole s o 5 2 .w → o.args.length = 18 → (∀ b ∈ o.args, b &&& 0x7C = 0) → ∀ view, isDriver s view = true →
      ∃ x z t, exec .spanPorts s = .next t ∧ exec (.spanCommit view) x = .next z ∧ x = { s with span := { s.span with ports := x.span.ports } } ∧
        (∀ p < 18, bt (getPort x p).cfgShadow 31 = decide (128 ≤ arg o p 1) ∧ bf (getPort x p).cfgShadow 30 29 = arg o p 1 % 4 ∧
          getPort x p = { getPort s p with cfgShadow := (getPort x p).cfgShadow }) ∧
        (o.persist = false → Ends z t o St.ok 0 [])) ∧
    (∀ o, Sole s o 5 3 .w → o.args.length = 4 → ∀ view, isDriver s view = true →
      ∃ z t v, exec .spanPlumb s = .next t ∧ bf v 31 21 = arg o 0 4 / 2 ^ 21 ∧ bf v 20 0 = 0 ∧
        exec (.spanCommit view) { s with plumb := { s.plumb with cfgShadow := v } } = .next z ∧ (o.persist = false → Ends z t o St.ok 0 [])) ∧
    (∀ o, Sole s o 5 4 .w → o.args.length = 1 → arg o 0 1 ≤ 17 → ∃ z t, exec .spanPortclr s = .next t ∧ Stores z t o (.units z.key.recs) ∧
      z = { s with store := { s.store with sincePwr := z.store.sincePwr }, key := { s.key with recs := z.key.recs } } ∧
      z.key.recs = { s.key.recs with
        retired := s.key.recs.retired.filter fun u => !((List.range 8).any fun l => decide (u = unitCode 0xC (8 * arg o 0 1 + l))) } ∧
      ∀ l < 8, tget 0 z.store.sincePwr (unitCode 0xC (8 * arg o 0 1 + l)) = 0) ∧
    (∀ o, Sole s o 5 5 .w0 → (∀ p ∈ s.key.pending, p.mb ≠ o.mb) → arg o 0 2 ≤ 511 → arg o 7 1 = 0 → arg o 3 1 = 0 → o.args.length = 8 →
      ∃ t k, exec .spanSend s = .next t ∧ t.span.sent = s.span.sent ++ [(k, s.now)] ∧ k.op = 0x10 ∧ pktDest k = (arg o 0 2, arg o 2 1) ∧
        k.data = slice o.args 4 2 ++ [0] ++ slice o.args 6 1 ++ [0, 0, 0, 0] ∧
        (∃ r, t.span.reqs = s.span.reqs ++ [r] ∧ r.user = .send o.mb ∧ r.tag = k.tag ∧ r.pkt = k) ∧
        (∃ p, t.key.pending = s.key.pending ++ [p] ∧ p.mb = o.mb ∧ p.group = o.group ∧ p.verb = o.verb) ∧
        getMbox t o.mb = getMbox s o.mb) ∧
    (∀ o, Sole s o 5 6 .w → arg o 0 1 ≤ 1 → arg o 1 1 ≤ 1 → 1 ≤ arg o 4 2 → arg o 4 2 ≤ 224 → arg o 6 2 = 0 →
      arg o 2 2 + arg o 4 2 ≤ 256 * (arg o 0 1 + 1) → o.args.length = 8 + 4 * arg o 4 2 →
      ((s.span.rtbusy = true ∨ s.span.actep = decide (arg o 1 1 = 1)) → ∃ t, exec .spanRoute s = .next t ∧ Ends s t o St.ok 3 []) ∧
      (s.span.rtbusy = false → s.span.actep ≠ decide (arg o 1 1 = 1) → ∃ z t, exec .spanRoute s = .next t ∧ Ends z t o St.ok 0 [] ∧
        z = { s with span := { s.span with droute := z.span.droute, hroute := z.span.hroute } } ∧
        (arg o 0 1 = 0 → z.span.hroute = s.span.hroute ∧ ∀ i < arg o 4 2,
          (tget 0 z.span.droute (arg o 1 1 * 256 + arg o 2 2 + i)).toNat = arg o (8 + 4 * i) 4) ∧
        (arg o 0 1 = 1 → z.span.droute = s.span.droute ∧ ∀ i < arg o 4 2,
          (tget 0 z.span.hroute (arg o 1 1 * 512 + arg o 2 2 + i)).toNat = arg o (8 + 4 * i) 4))) ∧
    (∀ o, Sole s o 5 7 .w → o.args.length = 8 → (s.span.rtbusy = true → ∃ t, exec .spanSwitch s = .next t ∧ Ends s t o St.ok 3 []) ∧
      (∀ view, s.span.rtbusy = false → isDriver s view = true → ∃ z t, exec .spanSwitch s = .next t ∧
        exec (.routeGo view) { s with span := { s.span with rat := BitVec.ofNat 64 (arg o 0 8) } } = .next z ∧ Ends z t o St.ok 0 [])) ∧
    (∀ o, Sole s o 5 8 .w → o.args.length = 2 → arg o 0 1 ≤ 1 →
      ((BitVec.ofNat 8 (arg o 1 1) ≠ s.span.protoImpl ∧ BitVec.ofNat 8 (arg o 1 1) ≠ s.span.protoImpl - 1) →
        ∃ t, exec .spanCtl s = .next t ∧ Ends s t o St.ok 2 []) ∧
      (∀ view, isDriver s view = true → (BitVec.ofNat 8 (arg o 1 1) = s.span.protoImpl ∨ BitVec.ofNat 8 (arg o 1 1) = s.span.protoImpl - 1) →
        (arg o 0 1 = 1 → bt s.span.id 31 = false → ∃ t, exec .spanCtl s = .next t ∧ Ends s t o St.ok 3 []) ∧
        ((arg o 0 1 = 0 ∨ bt s.span.id 31 = true) → ∃ z t, exec .spanCtl s = .next t ∧
          exec (.routeEnWrite view (decide (arg o 0 1 = 1))) { s with span := { s.span with protoAct := BitVec.ofNat 8 (arg o 1 1) } } = .next z ∧
          Settles z t o { s.key.sets with proto := some (BitVec.ofNat 8 (arg o 1 1)) }))) ∧
    (∀ o, Sole s o 5 9 .r → o.args = [] → ∃ t, exec .spanStatus s = .next t ∧ Ends s t o St.ok 0
      (([s.span.id, spanCtl s, spanRctl s, plumbStat s] ++ (List.range 18).flatMap fun p => [portStat s p, portNbr s p, portErr s p]).flatMap
        fun w => toLe 4 w.toNat))

/-- The orders of the groups CAL, FW, RAS, TEST and MOD have the effects and results of their rows; a recalibration, a handover,
an automatic commit and the self-test go on and complete by themselves (R291, R378, R380, R405, R408, R411 to R420). Where the
condition of a command does not hold the state stands. The model's choices in it: log entries 8, 23, 33, 34, 35, 37 and 93. -/
def Obligations.MaintenanceOrdersRun : Prop :=
  ∀ (s : State),
    (∀ o, Sole s o 6 1 .r → ∀ b : Byte, o.args = [b] →
      (2 < b.toNat → ∃ t, exec .calRead s = .next t ∧ Ends s t o St.ok 2 []) ∧
      (b.toNat ≤ 2 → ∃ t d, exec .calRead s = .next t ∧ Ends s t o St.ok 0 d ∧ d.length ≤ 2048)) ∧
    (∀ o, Sole s o 6 2 .w → ∀ a b : Byte, o.args = [a, b] →
      ((7 < a.toNat ∨ b.toInt < -25 ∨ 25 < b.toInt ∨ b.toInt % 5 ≠ 0) → ∃ t, exec .calVoff s = .next t ∧ Ends s t o St.ok 2 []) ∧
      (a.toNat ≤ 7 → -25 ≤ b.toInt → b.toInt ≤ 25 → b.toInt % 5 = 0 → ∃ z t, exec .calVoff s = .next t ∧ Stores z t o (.cal z.key.cal) ∧
        z = { s with key := { s.key with cal := z.key.cal }, towers := z.towers } ∧
        z.key.cal = { s.key.cal with voff := z.key.cal.voff } ∧
        (∀ i, tget 0 z.key.cal.voff i = if i = a.toNat then b.toInt else tget 0 s.key.cal.voff i) ∧
        getTower z a.toNat = { getTower s a.toNat with vtarget := setPoint z a.toNat (towerStep s a.toNat) } ∧
        ∀ i, i ≠ a.toNat → getTower z i = getTower s i)) ∧
    (∀ o, Sole s o 6 3 .w → o.args.length = 4 →
      ((17 < arg o 0 1 ∨ arg o 1 1 ≠ 0) → ∃ t, exec .calAsym s = .next t ∧ Ends s t o St.ok 2 []) ∧
      (arg o 0 1 ≤ 17 → arg o 1 1 = 0 → ∃ z t v, exec .calAsym s = .next t ∧ Stores z t o (.cal z.key.cal) ∧ v.toNat = arg o 2 2 ∧
        z = { s with key := { s.key with cal := z.key.cal }, span := { s.span with ports := z.span.ports } } ∧
        z.key.cal = { s.key.cal with asym := z.key.cal.asym } ∧
        (∀ i, tget 0 z.key.cal.asym i = if i = arg o 0 1 then v else tget 0 s.key.cal.asym i) ∧
        getPort z (arg o 0 1) = { getPort s (arg o 0 1) with asym := v } ∧ ∀ i, i ≠ arg o 0 1 → getPort z i = getPort s i)) ∧
    (∀ o, Sole s o 6 4 .w → o.args.length = 2 →
      (511 < arg o 0 2 → arg o 0 2 ≠ 0xFFFF → ∃ t, exec .calHbm s = .next t ∧ Ends s t o St.ok 2 []) ∧
      ((arg o 0 2 ≤ 511 ∨ arg o 0 2 = 0xFFFF) →
        (o.offline = true → s.key.stopped = false → s.key.stopping = false → ∃ t, exec .calHbm s = .next t ∧
          t = { s with key := { s.key with stopping := true, stopSince := s.now } }) ∧
        ((o.offline = false ∨ s.key.stopped = true) → (∀ p ∈ s.key.pending, p.mb ≠ o.mb) → ∃ z t, exec .calHbm s = .next t ∧
          Begins z t o ∧ z = { s with hbm := z.hbm } ∧ ∀ c < 512, getHbm z c =
            if (arg o 0 2 = 0xFFFF ∨ arg o 0 2 = c) ∧ chState s c ≠ 1 then { getHbm s c with recalWait := true, offline := o.offline }
            else getHbm s c))) ∧
    (((∀ p ∈ s.key.pending, ¬(p.group = 6 ∧ p.verb = 4)) → exec .calHbmDone s = .next s) ∧
      ∀ o, s.key.pending = [o] → o.group = 6 → o.verb = 4 → s.key.batchDone = [] → (arg o 0 2 ≤ 511 ∨ arg o 0 2 = 0xFFFF) →
        ((∃ c < 512, (arg o 0 2 = 0xFFFF ∨ arg o 0 2 = c) ∧ chState s c ≠ 1 ∧
          ((getHbm s c).recalWait = true ∨ (getHbm s c).recal ≠ 0 ∨ (getHbm s c).lastRecal < o.since)) → exec .calHbmDone s = .next s) ∧
        ((∀ c < 512, (arg o 0 2 = 0xFFFF ∨ arg o 0 2 = c) → chState s c ≠ 1 →
          (getHbm s c).recalWait = false ∧ (getHbm s c).recal = 0 ∧ o.since ≤ (getHbm s c).lastRecal) →
          ∃ t, exec .calHbmDone s = .next t ∧ LateAnswer s t o [] ∧
            t.key.stopped = if o.offline = true ∧ s.key.stopHeld = false then false else s.key.stopped)) ∧
    (∀ o, Sole s o 6 5 .w0 → o.args = [] → ∃ z t, exec .calClear s = .next t ∧ Stores z t o (.cal {}) ∧
      z = { s with key := { s.key with cal := {} }, towers := z.towers, span := { s.span with ports := z.span.ports } } ∧
      (∀ i < 8, (getTower z i).vtarget = setPoint z i (towerStep s i)) ∧ ∀ p < 18, (getPort z p).asym = 0) ∧
    (∀ ok o b, b = (if s.rst.recovery then false else !s.rst.slot) → Sole s o 7 1 .w → o.args.length = 8 + arg o 4 4 →
      ((arg o 0 4 % 64 ≠ 0 ∨ arg o 4 4 % 64 ≠ 0 ∨ arg o 4 4 < 64 ∨ 896 < arg o 4 4 ∨ 0xFFF000 < arg o 0 4 + arg o 4 4) →
        ∃ t, exec (.fwWrite ok) s = .next t ∧ Ends s t o St.ok 2 []) ∧
      (arg o 0 4 % 64 = 0 → arg o 4 4 % 64 = 0 → 64 ≤ arg o 4 4 → arg o 4 4 ≤ 896 → arg o 0 4 + arg o 4 4 ≤ 0xFFF000 →
        ∃ z t, exec (.fwWrite ok) s = .next t ∧ z = { s with store := z.store } ∧ slotOf z (!b) = slotOf s (!b) ∧
          (slotOf z b).sealedOk = false ∧ (slotOf z b).header = (if arg o 0 4 = 0 then none else (slotOf s b).header) ∧
          ((ok = false ∨ s.store.flashOk = false) → Ends z t o St.ok 6 []) ∧
          (ok = true → s.store.flashOk = true → Ends z t o St.ok 0 [] ∧
            (∀ i < arg o 4 4, ~~~ rd8 (slotOf z b).body (arg o 0 4 + i) = o.args.getD (8 + i) 0) ∧
            ∀ a, (a < arg o 0 4 ∨ arg o 0 4 + arg o 4 4 ≤ a) →
              ((reaches (arg o 0 4) (arg o 4 4) ((0x1000 + a) / 65536) ∧
                  (arg o 0 4 = 0 ∨ (0x1000 + a) / 65536 ∉ (slotOf s b).erased)) → ~~~ rd8 (slotOf z b).body a = 0xFF) ∧
              (¬(reaches (arg o 0 4) (arg o 4 4) ((0x1000 + a) / 65536) ∧
                  (arg o 0 4 = 0 ∨ (0x1000 + a) / 65536 ∉ (slotOf s b).erased)) →
                rd8 (slotOf z b).body a = rd8 (slotOf s b).body a)))) ∧
    (∀ dig sig ok o b, b = (if s.rst.recovery then false else !s.rst.slot) → Sole s o 7 2 .w → o.args.length = 160 →
      ((dig = false ∨ sig = false ∨ s.key.calDefault = true) → ∃ t, exec (.fwSeal dig sig ok) s = .next t ∧ Ends s t o St.ok 4 []) ∧
      (dig = true → sig = true → s.key.calDefault = false →
        ((ok = false ∨ s.store.flashOk = false) → ∃ t, exec (.fwSeal dig sig ok) s = .next t ∧ Ends s t o St.ok 6 []) ∧
        (ok = true → s.store.flashOk = true → ∃ z t, exec (.fwSeal dig sig ok) s = .next t ∧ Ends z t o St.ok 0 [] ∧
          z = { s with store := z.store } ∧ slotOf z b = { slotOf s b with header := some o.args, sealedOk := true } ∧
          slotOf z (!b) = slotOf s (!b)))) ∧
    (∀ o b, b = (if s.rst.recovery then false else !s.rst.slot) → Sole s o 7 3 .w → o.args.length = 2 → arg o 0 1 ≤ 1 → arg o 1 1 ≤ 1 →
      (((slotOf s b).header = none ∨ (slotOf s b).sealedOk = false ∨ s.key.trial = true ∨ (s.rst.recovery = true ∧ arg o 0 1 = 1)) →
        ∃ t, exec .fwActivate s = .next t ∧ Ends s t o St.ok 3 []) ∧
      ((slotOf s b).header ≠ none → (slotOf s b).sealedOk = true → s.key.trial = false → ¬(s.rst.recovery = true ∧ arg o 0 1 = 1) →
        ∃ t, exec .fwActivate s = .next t ∧ Stores s t o (.journal
          { committed := (journalOf s).committed, trial := some b, count := arg o 0 1, auto := decide (arg o 1 1 = 1) }))) ∧
    (∀ conv, (s.key.handover = false → exec (.fwHandoverDone conv) s = .next s) ∧
      ∀ o, s.key.pending = [o] → o.group = 7 → o.verb = 3 → o.busy = false → s.key.handover = true → s.key.batchDone = [] →
        (∀ r, (newest (areaOf s (!s.rst.slot)) = some r ∧ r.sver.toNat = hdrSver (headerOf s (!s.rst.slot)) ∨
            (∀ q, newest (areaOf s (!s.rst.slot)) = some q → q.sver.toNat ≠ hdrSver (headerOf s (!s.rst.slot))) ∧
            newest (areaOf s s.rst.slot) = some r ∧ hdrSmin (headerOf s (!s.rst.slot)) ≤ r.sver.toNat ∧
            r.sver.toNat ≤ hdrSver (headerOf s (!s.rst.slot)) ∧ conv = true) →
          ∃ t, exec (.fwHandoverDone conv) s = .next t ∧ LateAnswer s t o [] ∧ t.rst = { s.rst with slot := !s.rst.slot } ∧
            t.key.handover = false ∧ t.key.trial = true ∧ t.key.sets = r.val ∧ t.key.sver.toNat = hdrSver (headerOf s (!s.rst.slot)) ∧
            t.key.autoAt = (if (journalOf s).auto then some (s.now + 1000000000) else none)) ∧
        (∀ r, (∀ q, newest (areaOf s (!s.rst.slot)) = some q → q.sver.toNat ≠ hdrSver (headerOf s (!s.rst.slot))) →
          newest (areaOf s s.rst.slot) = some r → (r.sver.toNat < hdrSmin (headerOf s (!s.rst.slot)) ∨
            hdrSver (headerOf s (!s.rst.slot)) < r.sver.toNat ∨ conv = false) →
          ∃ z t, exec (.fwHandoverDone conv) s = .next t ∧ RasReported z t St.fwFallback 6 (unitId z 0 0) 0 ∧ z.rst = s.rst ∧
            z.key = { s.key with handover := false, pending := [{ o with busy := true, code := St.fwFallback }] } ∧
            asksStore s z (.journal { committed := s.rst.slot, trial := none, count := 0, auto := false }))) ∧
    (∀ o, Sole s o 7 4 .w → o.args = [] →
      (s.key.trial = false → ∃ t, exec .fwCommit s = .next t ∧ Ends s t o St.ok 3 []) ∧
      (s.key.trial = true → ∃ t, exec .fwCommit s = .next t ∧
        Stores s t o (.journal { committed := s.rst.slot, trial := none, count := 0, auto := false }))) ∧
    ((s.key.autoAt = none → exec .fwAutoCommit s = .next s) ∧
      ∀ x, s.key.autoAt = some x →
        ((s.key.trial = false ∨ s.now < x) → exec .fwAutoCommit s = .next s) ∧
        (s.key.trial = true → x ≤ s.now → ∃ t, exec .fwAutoCommit s = .next t ∧
          t = { s with key := { s.key with autoAt := none }, store := t.store } ∧
          asksStore s t (.journal { committed := s.rst.slot, trial := none, count := 0, auto := false }))) ∧
    (∀ o, Sole s o 7 5 .r → o.args = [] → (headerOf s false).length = 160 → (headerOf s true).length = 160 →
      ∃ t d, exec .fwStatus s = .next t ∧ Ends s t o St.ok 0 d ∧ d.length ≤ 2048 ∧ d.take 320 = headerOf s false ++ headerOf s true) ∧
    (∀ o, Sole s o 8 1 .r → o.args.length = 6 → arg o 0 1 < 15 → arg o 1 1 = 0 → 1 ≤ arg o 4 2 → arg o 4 2 ≤ 256 →
      (classSize (arg o 0 1) < arg o 2 2 + arg o 4 2 → ∃ t, exec .rasRead s = .next t ∧ Ends s t o St.ok 2 []) ∧
      (arg o 2 2 + arg o 4 2 ≤ classSize (arg o 0 1) →
        ∃ t d, exec .rasRead s = .next t ∧ Ends s t o St.ok 0 d ∧ d.length = 8 * arg o 4 2)) ∧
    (∀ o cls i, Sole s o 8 2 .w → o.args.length = 4 → arg o 0 4 / 2 ^ 28 = cls → arg o 0 4 % 2048 = i →
      ((cls ∉ [2, 5, 7, 9, 12, 13] ∨ classSize cls ≤ i) → ∃ t, exec .rasRetire s = .next t ∧ Ends s t o St.ok 2 []) ∧
      (cls ∈ [2, 5, 7, 9, 12, 13] → i < classSize cls → ∃ t, exec .rasRetire s = .next t ∧
        ((t.key.batch = [] ∧ AnsweredWith t o St.ok 0 []) ∨ ∃ w, t.key.batch = [{ o with busy := true, wrote := w }]) ∧
        (cls = 2 → (getCore t i).retired = true ∨ (getCore t i).retireDue = true) ∧ (cls = 5 → chState t i = 1) ∧
        (cls = 7 → bt (getTower t (i / 8)).part (16 + i % 8) = true) ∧
        (cls = 9 → (getLintel t (i / 18)).retired = true ∨ i % 18 ∈ (getLintel t (i / 18)).bad) ∧
        (cls = 12 → laneOf (getPort t (i / 8)) (i % 8) = .retired) ∧ (cls = 13 → (getMod t i).st = .retired))) ∧
    (∀ o cls i, Sole s o 8 3 .w0 → o.args.length = 4 → arg o 0 4 / 2 ^ 28 = cls → arg o 0 4 % 2048 = i → i < classSize cls →
      (cls = 10 → ∃ t, exec .rasClear s = .next t ∧ Ends s t o St.ok 5 []) ∧
      (cls ≠ 10 → ∃ z t, exec .rasClear s = .next t ∧ Stores z t o (.units z.key.recs) ∧
        z = { s with store := { s.store with sincePwr := z.store.sincePwr }, key := { s.key with recs := z.key.recs } } ∧
        z.key.recs = { s.key.recs with
          retired := s.key.recs.retired.filter fun u => !clearedBy (unitCode cls i) u
          returned := if cls = 5 then s.key.recs.returned.filter fun c => decide (c ≠ i) else s.key.recs.returned } ∧
        ∀ u, tget 0 z.store.sincePwr u = if u = unitCode cls i then 0 else tget 0 s.store.sincePwr u)) ∧
    (∀ o, Sole s o 9 1 .w → o.args.length = 5 →
      ((3600000 < arg o 0 4 ∨ 15 < arg o 4 1) → ∃ t, exec .testCfg s = .next t ∧ Ends s t o St.ok 2 []) ∧
      (arg o 0 4 ≤ 3600000 → arg o 4 1 ≤ 15 → ∃ t m, exec .testCfg s = .next t ∧ m.toNat = arg o 4 1 ∧
        Settles { s with key := { s.key with test := { s.key.test with period := arg o 0 4, mask := m } } } t o
          { s.key.sets with period := arg o 0 4, mask := m })) ∧
    (∀ o cls i, Sole s o 9 2 .w → o.args.length = 4 → arg o 0 4 / 2 ^ 28 = cls → arg o 0 4 % 2048 = i → i < classSize cls →
      (cls ∈ [0, 3, 4, 6, 8, 11, 13] → ∃ t, exec .testRun s = .next t ∧ Ends s t o St.ok 2 []) ∧
      (cls ∈ [1, 7, 10, 14] → ∃ t, exec .testRun s = .next t ∧ Ends s t o St.ok 5 []) ∧
      (cls = 2 → ((getCore s i).retiredAgain = true ∨ (getCore s i).mortarGone = true) →
        ∃ t, exec .testRun s = .next t ∧ Ends s t o St.ok 5 []) ∧
      (cls = 12 → laneOf (getPort s (i / 8)) (i % 8) = .retired → ∃ t, exec .testRun s = .next t ∧ Ends s t o St.ok 5 []) ∧
      ((cls = 2 ∧ (getCore s i).retiredAgain = false ∧ (getCore s i).mortarGone = false ∨
          cls = 5 ∧ bt (getHbm s i).stat 25 = false ∧ (getTower s (i / 64)).retired = false ∨
          cls = 12 ∧ laneOf (getPort s (i / 8)) (i % 8) = .idle) → o.offline = false → (∀ p ∈ s.key.pending, p.mb ≠ o.mb) →
        ∃ z t, exec .testRun s = .next t ∧ Begins z t o ∧ z = { s with cores := z.cores, key := { s.key with test := z.key.test } } ∧
          z.key.test.orders = s.key.test.orders ++ [(unitCode cls i, o.mb)] ∧
          (s.key.test.under = none → s.key.test.queued = [] → z.key.test.under = some (unitCode cls i)) ∧
          (∀ v, s.key.test.under = some v → v ≠ unitCode cls i → s.key.test.queued = [] →
            z.key.test.under = some v ∧ z.key.test.queued = [(unitCode cls i, false)]) ∧
          (s.key.test.under = some (unitCode cls i) → z.key.test = { s.key.test with orders := z.key.test.orders }))) ∧
    (∀ o, Sole s o 9 3 .r → o.args = [] → ∃ t d, exec .testStatus s = .next t ∧ Ends s t o St.ok 0 d ∧ d.length ≤ 2048) ∧
    (((s.rst.stage = 0 ∨ s.rst.done = false ∨ s.key.test.period = 0 ∨ s.key.test.under ≠ none ∨ s.now < s.key.test.due) →
        exec .selfTestRotation s = .next s) ∧
      (1 ≤ s.rst.stage → s.key.halted = false → s.rst.done = true → m0Only s = false → s.key.test.period ≠ 0 → s.key.test.under = none →
        s.key.test.due ≤ s.now →
        (s.key.test.mask = 0 → exec .selfTestRotation s = .next s) ∧
        (bt s.key.test.mask 0 = true → s.key.test.pos < 256 → (getCore s s.key.test.pos).retiredAgain = false →
          (getCore s s.key.test.pos).mortarGone = false → ∃ t, exec .selfTestRotation s = .next t ∧
            t.key.test.under = some (unitCode 2 s.key.test.pos) ∧ t.key.test.pos = s.key.test.pos + 1 ∧
            t.key.test.due = s.now + s.key.test.period * 1000000 ∧ t.key.test.offline = false ∧
            t = { s with cores := t.cores, key := { s.key with test := t.key.test } }))) ∧
    (∀ pass, (s.key.test.under = none → exec (.selfTestDone pass) s = .next s) ∧
      ∀ cls i, s.key.test.under = some (unitCode cls i) → i < 2048 → s.key.test.queued = [] →
        (cls = 2 → (getCore s i).phase ≠ .testing → exec (.selfTestDone pass) s = .next s) ∧
        (cls = 5 → ∃ t, exec (.selfTestDone pass) s = .next t ∧ t.key.test.under = none ∧
          t.key.test.passed = (if s.key.test.wasOut = true ∧ pass = true then s.key.test.passed ++ [i] else s.key.test.passed) ∧
          (∀ o, s.key.pending = [o] → s.key.batchDone = [] → (o.group = 1 → o.verb ≠ 3) → s.key.test.orders = [(unitCode 5 i, o.mb)] →
            ∃ d, LateAnswer s t o d ∧ d.length = 8)) ∧
        (cls = 2 → (getCore s i).phase = .testing → ∃ t, exec (.selfTestDone pass) s = .next t ∧ t.key.test.under = none ∧
          (pass = false → (getCore t i).phase = .free ∧ (s.key.test.wasOut = false → (getCore t i).retired = true)) ∧
          (pass = true → s.key.test.wasOut = true → coreFinal (getCore s i) = true →
            (getCore t i).phase = .free ∧ (getCore t i).retired = (getCore s i).retired) ∧
          (pass = true → coreFinal (getCore s i) = false → (s.key.test.wasOut = true ∨ (getCore s i).retired = false) →
            (getCore t i).retired = false ∧
            ((getDom s (i / 4)).st ≠ .waiting → (getCore t i).phase = .returning) ∧
            (s.key.test.wasOut = true → unitCode 2 i ∉ t.key.recs.retired))) ∧
        (cls = 9 → pass = false → ∃ t, exec (.selfTestDone pass) s = .next t ∧ t.key.test.under = none ∧
          i % 18 ∈ (getLintel t (i / 18)).bad)) ∧
    (∀ o, Sole s o 10 1 .w → o.args.length = 3 →
      ((17 < arg o 0 1 ∨ 1 < arg o 1 1 ∨ arg o 2 1 < 20 ∨ 200 < arg o 2 1) → ∃ t, exec .modSet s = .next t ∧ Ends s t o St.ok 2 []) ∧
      (arg o 0 1 ≤ 17 → arg o 1 1 ≤ 1 → 20 ≤ arg o 2 1 → arg o 2 1 ≤ 200 →
        ((getMod s (arg o 0 1)).st = .retired → ∃ t, exec .modSet s = .next t ∧ Ends s t o St.ok 3 []) ∧
        ((getMod s (arg o 0 1)).st ≠ .retired → ∃ z t v, exec .modSet s = .next t ∧ Settles z t o { s.key.sets with mods := v } ∧
          (∀ k, k ≠ arg o 0 1 → tget 0x178 v k = tget 0x178 s.key.sets.mods k) ∧
          (tget 0x178 v (arg o 0 1)).toNat = 256 * arg o 1 1 + arg o 2 1 ∧
          (getMod z (arg o 0 1)).ilim.toNat = arg o 2 1 ∧ (getMod z (arg o 0 1)).en = decide (arg o 1 1 = 1) ∧
          (arg o 1 1 = 1 → (getMod s (arg o 0 1)).en = false →
            (getMod z (arg o 0 1)).st = if s.power.vmodOk then .queued else .off) ∧
          (arg o 1 1 = 0 → (getMod s (arg o 0 1)).en = true →
            (getMod z (arg o 0 1)).st = .off ∧ (getMod z (arg o 0 1)).retries = 0) ∧
          ((getMod s (arg o 0 1)).en = decide (arg o 1 1 = 1) → (getMod z (arg o 0 1)).st = (getMod s (arg o 0 1)).st)))) ∧
    (∀ o, Sole s o 10 2 .w → o.args.length = 1 → arg o 0 1 ≤ 17 → ∃ z t, exec .modClr s = .next t ∧ Stores z t o (.units z.key.recs) ∧
      (getMod z (arg o 0 1)).st = .off ∧ (getMod z (arg o 0 1)).en = false ∧ (getMod z (arg o 0 1)).retries = 0 ∧
      z.key.recs.retired = s.key.recs.retired.filter fun u => decide (u ≠ unitCode 0xD (arg o 0 1))) ∧
    (∀ o, Sole s o 10 3 .r → o.args = [] → ∃ t, exec .modStatus s = .next t ∧ Ends { s with free := s.free + 18 } t o St.ok 0
      (((List.range 18).flatMap fun k => [modCtl s k, modStat s k]).flatMap fun w => toLe 4 w.toNat))

/-- The I3C target of M0 answers from release step 1: a private write sets the page offset and makes word accesses, a private read takes
bytes of the page; the debug port loads its data registers, drives pads only under reset_n, and halts Keystone only while dbg_en is
high (R430, R431, R434).
Where the condition of a command does not hold the state stands. The model's choices in it: log entries 8, 65 and 66. -/
def Obligations.SidebandAndDebugRun : Prop :=
  ∀ (s : State),
    (∀ a, (s.rst.stage = 0 → exec (.dynamicAddressAssignment a) s = .next s) ∧
      (1 ≤ s.rst.stage → ∃ t, exec (.dynamicAddressAssignment a) s = .next t ∧ t = { s with pins := { s.pins with i3cAddr := some a } })) ∧
    (∀ d, ((s.rst.stage = 0 ∨ d.length < 2) → exec (.i3cPrivateWrite d) s = .next s) ∧
      (1 ≤ s.rst.stage → 2 ≤ d.length → ∃ t, exec (.i3cPrivateWrite d) s = .next t ∧
        t = { s with
          pins := { s.pins with ibi := [], i3cOff := leNat (d.take 2) + (d.length - 2) }
          key := { s.key with mb := t.key.mb } } ∧
        (∀ m, m ≠ 0 → getMbox t m = getMbox s m) ∧ (d.length < 6 → getMbox t 0 = getMbox s 0))) ∧
    (∀ off d, 1 ≤ s.rst.stage → off % 4 = 0 → 0x040 ≤ off → off + 4 ≤ 0x400 → d.length = 4 →
      ∃ t, exec (.i3cPrivateWrite (toLe 2 off ++ d)) s = .next t ∧
        (∀ i < 4, mbByte (getMbox t 0) (off + i) = d.getD i 0) ∧
        ∀ x, (x < off ∨ off + 4 ≤ x) → mbByte (getMbox t 0) x = mbByte (getMbox s 0) x) ∧
    (∀ v : BitVec 64, 1 ≤ s.rst.stage → bt v 0 = true →
      ∃ t, exec (.i3cPrivateWrite (toLe 2 0 ++ toLe 8 v.toNat)) s = .next t ∧
        (bt (getMbox s 0).rsp 2 = false → bt (getMbox s 0).rsp 1 = false →
          bt (getMbox t 0).rsp 2 = true ∧ (∀ i, 1 ≤ i → i < 64 → bt (getMbox t 0).cmd i = bt v i) ∧ bt (getMbox t 0).cmd 0 = false) ∧
        ((bt (getMbox s 0).rsp 2 = true ∨ bt (getMbox s 0).rsp 1 = true) → getMbox t 0 = getMbox s 0)) ∧
    (∀ n, (s.rst.stage = 0 → exec (.i3cPrivateRead n) s = .next s) ∧
      (1 ≤ s.rst.stage → ∃ t, exec (.i3cPrivateRead n) s = .next t ∧
        t = { s with pins := { s.pins with ibi := [], i3cOut := t.pins.i3cOut, i3cOff := s.pins.i3cOff + n } } ∧
        t.pins.i3cOut.length = n ∧ ∀ i < n, t.pins.i3cOut.getD i 0 = mbByte (getMbox s 0) (s.pins.i3cOff + i))) ∧
    (∃ t, exec .idcode s = .next t ∧ t = { s with pins := { s.pins with jtagIr := 1, jtagOut := t.pins.jtagOut } } ∧
      t.pins.jtagOut.length = 32 ∧ t.pins.jtagOut.getD 0 false = true ∧
      ∀ i, 1 ≤ i → i < 32 → t.pins.jtagOut.getD i false = bt Config.idcode i) ∧
    (∃ t, exec .bypass s = .next t ∧ t = { s with pins := { s.pins with jtagIr := 15, jtagOut := [false] } }) ∧
    (∃ t, exec .sample s = .next t ∧ t.pins.jtagOut.length = 136 ∧
      t = { s with free := t.free, pins := { s.pins with jtagIr := 2, jtagOut := t.pins.jtagOut } }) ∧
    (∀ pads, (s.pins.resetLow = false → exec (.extest pads) s = .next s) ∧
      (s.pins.resetLow = true → ∃ t, exec (.extest pads) s = .next t ∧
        t = { s with pins := { s.pins with jtagIr := 0, padDrive := pads } })) ∧
    ((s.pins.dbgEn = false → exec .dbgHalt s = .next s) ∧
      (s.pins.dbgEn = true → ∃ t, exec .dbgHalt s = .next t ∧ t = { s with key := { s.key with halted := true } } ∧ keystoneRuns t = false)) ∧
    (∃ t, exec .dbgEnFall s = .next t ∧ t = { s with pins := { s.pins with dbgEn := false }, key := { s.key with halted := false } }) ∧
    (∃ t, exec .dbgEnRise s = .next t ∧ t = { s with pins := { s.pins with dbgEn := true } })
end

