-- ==== Sys2Proof/Laws/Tables.lean ====
section
/-!
SUPPORT. Sparse tables and byte memories: a write keeps the canonical form, the written key reads as written, and every other key
reads as before.
-/

namespace Sys2Proof.Machine

section Tables
variable {α : Type} [DecidableEq α] {d : α}

theorem tabWfFrom_le {lo lo' : Nat} (hl : lo' ≤ lo) : ∀ {t : Tab α}, tabWfFrom d lo t = true → tabWfFrom d lo' t = true
  | [], _ => rfl
  | (j, x) :: t, h => by
    simp only [tabWfFrom, Bool.and_eq_true, decide_eq_true_eq] at h ⊢
    exact ⟨by omega, h.2⟩

/-- A key below the first listed one reads as the default. -/
theorem tget_of_lt {lo k : Nat} (hk : k < lo) : ∀ {t : Tab α}, tabWfFrom d lo t = true → tget d t k = d
  | [], _ => rfl
  | (j, x) :: t, h => by
    simp only [tabWfFrom, Bool.and_eq_true, decide_eq_true_eq] at h
    simp only [tget]
    rw [if_neg (by omega), if_pos (by omega)]

theorem tabWfFrom_dropWhile (k : Nat) : ∀ {t : Tab α}, tabWfFrom d (k + 1) t = true →
    t.dropWhile (fun e => decide (e.1 ≤ k)) = t
  | [], _ => rfl
  | (j, x) :: t, h => by
    simp only [tabWfFrom, Bool.and_eq_true, decide_eq_true_eq] at h
    have : ¬ j ≤ k := by omega
    simp [List.dropWhile, this]

theorem tabWfFrom_tset (k : Nat) (v : α) : ∀ {lo : Nat} {t : Tab α}, lo ≤ k → tabWfFrom d lo t = true →
    tabWfFrom d lo (tset d t k v) = true
  | lo, [], hl, _ => by
    simp only [tset]
    split
    · rfl
    · rename_i hv
      simp [tabWfFrom, hl, hv]
  | lo, (j, x) :: t, hl, h => by
    simp only [tabWfFrom, Bool.and_eq_true, decide_eq_true_eq] at h
    obtain ⟨hj, hx, ht⟩ := h
    simp only [tset]
    split
    · rename_i hkj
      split
      · simp [tabWfFrom, hj, hx, ht]
      · rename_i hv
        simp only [tabWfFrom, Bool.and_eq_true, decide_eq_true_eq]
        exact ⟨hl, hv, by omega, hx, ht⟩
    · split
      · rename_i hkj
        subst hkj
        split
        · rw [tabWfFrom_dropWhile k ht]
          exact tabWfFrom_le (by omega) ht
        · rename_i hv
          simp [tabWfFrom, hl, hv, ht]
      · simp only [tabWfFrom, Bool.and_eq_true, decide_eq_true_eq]
        exact ⟨hj, hx, tabWfFrom_tset k v (by omega) ht⟩

/-- A write keeps the canonical form. -/
theorem tabWf_tset {t : Tab α} (h : tabWf d t = true) (k : Nat) (v : α) : tabWf d (tset d t k v) = true :=
  tabWfFrom_tset k v (Nat.zero_le _) h

theorem tget_dropWhile_le {i k : Nat} (h : i ≤ k) : ∀ (t : Tab α), tget d (t.dropWhile fun e => decide (e.1 ≤ k)) i = d
  | [] => rfl
  | (j, x) :: t => by
    by_cases hj : j ≤ k
    · simpa [List.dropWhile, hj] using tget_dropWhile_le h t
    · simp only [List.dropWhile, hj, decide_false, tget]
      rw [if_neg (by omega), if_pos (by omega)]

theorem tget_dropWhile_gt {i k : Nat} (h : k < i) : ∀ (t : Tab α), tget d (t.dropWhile fun e => decide (e.1 ≤ k)) i = tget d t i
  | [] => rfl
  | (j, x) :: t => by
    by_cases hj : j ≤ k
    · have := tget_dropWhile_gt h t
      simp only [List.dropWhile, hj, decide_true, tget]
      rw [if_neg (by omega), if_neg (by omega)]
      exact this
    · simp only [List.dropWhile, hj, decide_false]

/-- The written key reads as written. -/
theorem tget_tset_self (k : Nat) (v : α) : ∀ (t : Tab α), tget d (tset d t k v) k = v
  | [] => by
    simp only [tset]
    split
    · rename_i hv
      simp [tget, hv]
    · simp [tget]
  | (j, x) :: t => by
    simp only [tset]
    split
    · rename_i hkj
      split
      · rename_i hv
        simp only [tget]
        rw [if_neg (by omega), if_pos hkj, hv]
      · simp [tget]
    · split
      · split
        · rename_i hv
          rw [tget_dropWhile_le (Nat.le_refl k), hv]
        · simp [tget]
      · rename_i h1 h2
        simp only [tget]
        rw [if_neg h2, if_neg h1]
        exact tget_tset_self k v t

/-- Every other key reads as before. -/
theorem tget_tset_ne {i k : Nat} (v : α) (hik : i ≠ k) : ∀ (t : Tab α), tget d (tset d t k v) i = tget d t i
  | [] => by
    simp only [tset]
    split
    · rfl
    · simp only [tget]
      rw [if_neg hik]
      split <;> rfl
  | (j, x) :: t => by
    simp only [tset]
    split
    · split
      · rfl
      · simp only [tget]
        rw [if_neg hik]
        by_cases hi : i < k
        · rw [if_pos hi, if_neg (by omega), if_pos (by omega)]
        · rw [if_neg hi]
    · split
      · rename_i hkj
        subst hkj
        simp only [tget]
        rw [if_neg hik]
        by_cases hi : i < k
        · rw [if_pos hi]
          split
          · exact tget_dropWhile_le (by omega) t
          · simp only [tget]
            rw [if_neg hik, if_pos hi]
        · rw [if_neg hi]
          split
          · exact tget_dropWhile_gt (by omega) t
          · simp only [tget]
            rw [if_neg hik, if_neg hi]
      · simp only [tget]
        split
        · rfl
        · split
          · rfl
          · exact tget_tset_ne v hik t

/-- What a read of a written table gives. -/
theorem tget_tset (t : Tab α) (i k : Nat) (v : α) : tget d (tset d t k v) i = if i = k then v else tget d t i := by
  split
  · rename_i h
    rw [h, tget_tset_self]
  · rename_i h
    rw [tget_tset_ne v h]

theorem tabWfFrom_filter (p : Nat × α → Bool) : ∀ {lo : Nat} {t : Tab α}, tabWfFrom d lo t = true →
    tabWfFrom d lo (t.filter p) = true
  | lo, [], _ => rfl
  | lo, (j, x) :: t, h => by
    simp only [tabWfFrom, Bool.and_eq_true, decide_eq_true_eq] at h
    obtain ⟨hj, hx, ht⟩ := h
    simp only [List.filter]
    split
    · simp only [tabWfFrom, Bool.and_eq_true, decide_eq_true_eq]
      exact ⟨hj, hx, tabWfFrom_filter p ht⟩
    · exact tabWfFrom_le (by omega) (tabWfFrom_filter p ht)

/-- Dropping entries keeps the canonical form. -/
theorem tabWf_filter {t : Tab α} (h : tabWf d t = true) (p : Nat × α → Bool) : tabWf d (t.filter p) = true :=
  tabWfFrom_filter p h

/-- Clearing a run of keys keeps the canonical form. -/
theorem tabWf_tclear {t : Tab α} (h : tabWf d t = true) (lo n : Nat) : tabWf d (tclear lo n t) = true := tabWf_filter h _

/-- Writes in a row keep the canonical form. -/
theorem tabWf_foldl {β : Type} (f : Tab α → β → Tab α) (hf : ∀ t b, tabWf d t = true → tabWf d (f t b) = true) :
    ∀ (l : List β) {t : Tab α}, tabWf d t = true → tabWf d (l.foldl f t) = true
  | [], _, h => h
  | b :: l, t, h => tabWf_foldl f hf l (hf t b h)

theorem tabWf_nil : tabWf d ([] : Tab α) = true := rfl

/-- In canonical form two tables that read alike are the same data. -/
theorem tab_ext_from : ∀ {lo : Nat} {t u : Tab α}, tabWfFrom d lo t = true → tabWfFrom d lo u = true →
    (∀ k, tget d t k = tget d u k) → t = u
  | _, [], [], _, _, _ => rfl
  | _, [], (j, x) :: u, _, h, e => by
    simp only [tabWfFrom, Bool.and_eq_true, decide_eq_true_eq] at h
    have := e j
    simp [tget] at this
    exact absurd this.symm h.2.1
  | _, (j, x) :: t, [], h, _, e => by
    simp only [tabWfFrom, Bool.and_eq_true, decide_eq_true_eq] at h
    have := e j
    simp [tget] at this
    exact absurd this h.2.1
  | lo, (j, x) :: t, (i, y) :: u, h, g, e => by
    simp only [tabWfFrom, Bool.and_eq_true, decide_eq_true_eq] at h g
    obtain ⟨hj, hx, ht⟩ := h
    obtain ⟨hi, hy, hu⟩ := g
    have hji : j = i := by
      by_contra hne
      rcases Nat.lt_or_gt_of_ne hne with hlt | hgt
      · have := e j
        simp only [tget] at this
        rw [if_pos trivial, if_neg hne, if_pos hlt] at this
        exact hx this
      · have := e i
        simp only [tget] at this
        rw [if_neg (by omega), if_pos hgt, if_pos trivial] at this
        exact hy this.symm
    subst hji
    have hxy : x = y := by
      have := e j
      simpa [tget] using this
    subst hxy
    have : t = u := by
      refine tab_ext_from ht hu fun k => ?_
      have hk := e k
      simp only [tget] at hk
      by_cases h1 : k = j
      · rw [tget_of_lt (lo := j + 1) (by omega) ht, tget_of_lt (lo := j + 1) (by omega) hu]
      · by_cases h2 : k < j
        · rw [tget_of_lt (lo := j + 1) (by omega) ht, tget_of_lt (lo := j + 1) (by omega) hu]
        · simpa [h1, h2] using hk
    rw [this]

theorem tab_ext {t u : Tab α} (ht : tabWf d t = true) (hu : tabWf d u = true) (e : ∀ k, tget d t k = tget d u k) : t = u :=
  tab_ext_from ht hu e

end Tables

/-! ## Byte memories -/

theorem Memory.wf_wr8 {m : List Host.Cell} (h : Memory.wf m = true) (a : Nat) (b : Byte) : Memory.wf (wr8 m a b) = true :=
  tabWf_tset h a b

theorem Memory.wf_wrN : ∀ (bs : List Byte) {m : List Host.Cell} (a : Nat), Memory.wf m = true → Memory.wf (wrN m a bs) = true
  | [], _, _, h => h
  | b :: bs, _, a, h => Memory.wf_wrN bs (a + 1) (Memory.wf_wr8 h a b)

theorem Memory.wf_spadWr : ∀ (bs : List Byte) {m : List Host.Cell} (a : Nat), Memory.wf m = true →
    Memory.wf (spadWr m a bs) = true
  | [], _, _, h => h
  | b :: bs, _, a, h => Memory.wf_spadWr bs (a + 1) (Memory.wf_wr8 h _ b)

theorem Memory.wf_tclear {m : List Host.Cell} (h : Memory.wf m = true) (lo n : Nat) : Memory.wf (tclear lo n m) = true :=
  tabWf_tclear h lo n

theorem rd8_wr8_self (m : List Host.Cell) (a : Nat) (b : Byte) : rd8 (wr8 m a b) a = b := tget_tset_self a b m

theorem rd8_wr8_ne (m : List Host.Cell) {a x : Nat} (b : Byte) (hx : x ≠ a) : rd8 (wr8 m a b) x = rd8 m x :=
  tget_tset_ne b hx m

/-- A byte outside the written run reads as before. -/
theorem rd8_wrN_out : ∀ (bs : List Byte) (m : List Host.Cell) (a : Nat) {x : Nat}, (x < a ∨ a + bs.length ≤ x) →
    rd8 (wrN m a bs) x = rd8 m x
  | [], _, _, _, _ => rfl
  | b :: bs, m, a, x, hx => by
    simp only [List.length_cons] at hx
    simp only [wrN]
    rw [rd8_wrN_out bs _ (a + 1) (by omega), rd8_wr8_ne m b (by omega)]

/-- A byte of the written run reads as written. -/
theorem rd8_wrN_in : ∀ (bs : List Byte) (m : List Host.Cell) (a i : Nat) (hi : i < bs.length),
    rd8 (wrN m a bs) (a + i) = bs[i]
  | [], _, _, _, hi => by simp at hi
  | b :: bs, m, a, 0, _ => by
    simp only [wrN, Nat.add_zero]
    rw [rd8_wrN_out bs _ (a + 1) (by omega), rd8_wr8_self]
    rfl
  | b :: bs, m, a, i + 1, hi => by
    simp only [List.length_cons] at hi
    simp only [wrN]
    have := rd8_wrN_in bs (wr8 m a b) (a + 1) i (by omega)
    rw [show a + (i + 1) = a + 1 + i by omega]
    simpa using this

theorem rdN_length (m : List Host.Cell) (a n : Nat) : (rdN m a n).length = n := by simp [rdN]

/-- What was written reads back. -/
theorem rdN_wrN (bs : List Byte) (m : List Host.Cell) (a : Nat) : rdN (wrN m a bs) a bs.length = bs := by
  apply List.ext_getElem (by simp [rdN])
  intro i h1 h2
  simp only [rdN, List.getElem_map, List.getElem_range]
  exact rd8_wrN_in bs m a i h2

end Sys2Proof.Machine
end

