-- ==== Sys2Proof/Laws/State.lean ====
section
/-!
SUPPORT. What each named update of State does to each field: one lemma per field per update, so that no proof unfolds an update.
-/

namespace Sys2Proof.Machine

variable (s : State)

@[simp] theorem setCore_now (c : Nat) (k : CoreSt) : (setCore s c k).now = s.now := rfl
@[simp] theorem setCore_free (c : Nat) (k : CoreSt) : (setCore s c k).free = s.free := rfl
@[simp] theorem setCore_cores (c : Nat) (k : CoreSt) : (setCore s c k).cores = tset {} s.cores c k := rfl
@[simp] theorem setCore_queues (c : Nat) (k : CoreSt) : (setCore s c k).queues = s.queues := rfl
@[simp] theorem setCore_ctxs (c : Nat) (k : CoreSt) : (setCore s c k).ctxs = s.ctxs := rfl
@[simp] theorem setCore_lastPop (c : Nat) (k : CoreSt) : (setCore s c k).lastPop = s.lastPop := rfl
@[simp] theorem setCore_gangs (c : Nat) (k : CoreSt) : (setCore s c k).gangs = s.gangs := rfl
@[simp] theorem setCore_nextGang (c : Nat) (k : CoreSt) : (setCore s c k).nextGang = s.nextGang := rfl
@[simp] theorem setCore_schEpoch (c : Nat) (k : CoreSt) : (setCore s c k).schEpoch = s.schEpoch := rfl
@[simp] theorem setCore_schCfg (c : Nat) (k : CoreSt) : (setCore s c k).schCfg = s.schCfg := rfl
@[simp] theorem setCore_pools (c : Nat) (k : CoreSt) : (setCore s c k).pools = s.pools := rfl
@[simp] theorem setCore_poolEpoch (c : Nat) (k : CoreSt) : (setCore s c k).poolEpoch = s.poolEpoch := rfl
@[simp] theorem setCore_epochDue (c : Nat) (k : CoreSt) : (setCore s c k).epochDue = s.epochDue := rfl
@[simp] theorem setCore_lateEv (c : Nat) (k : CoreSt) : (setCore s c k).lateEv = s.lateEv := rfl
@[simp] theorem setCore_mem (c : Nat) (k : CoreSt) : (setCore s c k).mem = s.mem := rfl
@[simp] theorem setCore_lost (c : Nat) (k : CoreSt) : (setCore s c k).lost = s.lost := rfl
@[simp] theorem setCore_restored (c : Nat) (k : CoreSt) : (setCore s c k).restored = s.restored := rfl
@[simp] theorem setCore_owner (c : Nat) (k : CoreSt) : (setCore s c k).owner = s.owner := rfl
@[simp] theorem setCore_ownCmd (c : Nat) (k : CoreSt) : (setCore s c k).ownCmd = s.ownCmd := rfl
@[simp] theorem setCore_ownAt (c : Nat) (k : CoreSt) : (setCore s c k).ownAt = s.ownAt := rfl
@[simp] theorem setCore_hlb (c : Nat) (k : CoreSt) : (setCore s c k).hlb = s.hlb := rfl
@[simp] theorem setCore_hubX (c : Nat) (k : CoreSt) : (setCore s c k).hubX = s.hubX := rfl
@[simp] theorem setCore_migr (c : Nat) (k : CoreSt) : (setCore s c k).migr = s.migr := rfl
@[simp] theorem setCore_hbm (c : Nat) (k : CoreSt) : (setCore s c k).hbm = s.hbm := rfl
@[simp] theorem setCore_memcfg (c : Nat) (k : CoreSt) : (setCore s c k).memcfg = s.memcfg := rfl
@[simp] theorem setCore_towers (c : Nat) (k : CoreSt) : (setCore s c k).towers = s.towers := rfl
@[simp] theorem setCore_flush (c : Nat) (k : CoreSt) : (setCore s c k).flush = s.flush := rfl
@[simp] theorem setCore_mortar (c : Nat) (k : CoreSt) : (setCore s c k).mortar = s.mortar := rfl
@[simp] theorem setCore_lintel (c : Nat) (k : CoreSt) : (setCore s c k).lintel = s.lintel := rfl
@[simp] theorem setCore_span (c : Nat) (k : CoreSt) : (setCore s c k).span = s.span := rfl
@[simp] theorem setCore_plumb (c : Nat) (k : CoreSt) : (setCore s c k).plumb = s.plumb := rfl
@[simp] theorem setCore_host (c : Nat) (k : CoreSt) : (setCore s c k).host = s.host := rfl
@[simp] theorem setCore_power (c : Nat) (k : CoreSt) : (setCore s c k).power = s.power := rfl
@[simp] theorem setCore_rst (c : Nat) (k : CoreSt) : (setCore s c k).rst = s.rst := rfl
@[simp] theorem setCore_store (c : Nat) (k : CoreSt) : (setCore s c k).store = s.store := rfl
@[simp] theorem setCore_key (c : Nat) (k : CoreSt) : (setCore s c k).key = s.key := rfl
@[simp] theorem setCore_pins (c : Nat) (k : CoreSt) : (setCore s c k).pins = s.pins := rfl
@[simp] theorem setCore_pending (c : Nat) (k : CoreSt) : (setCore s c k).pending = s.pending := rfl

@[simp] theorem setQueue_now (q : Nat) (k : Queue) : (setQueue s q k).now = s.now := rfl
@[simp] theorem setQueue_free (q : Nat) (k : Queue) : (setQueue s q k).free = s.free := rfl
@[simp] theorem setQueue_cores (q : Nat) (k : Queue) : (setQueue s q k).cores = s.cores := rfl
@[simp] theorem setQueue_queues (q : Nat) (k : Queue) : (setQueue s q k).queues = tset {} s.queues q k := rfl
@[simp] theorem setQueue_ctxs (q : Nat) (k : Queue) : (setQueue s q k).ctxs = s.ctxs := rfl
@[simp] theorem setQueue_lastPop (q : Nat) (k : Queue) : (setQueue s q k).lastPop = s.lastPop := rfl
@[simp] theorem setQueue_gangs (q : Nat) (k : Queue) : (setQueue s q k).gangs = s.gangs := rfl
@[simp] theorem setQueue_nextGang (q : Nat) (k : Queue) : (setQueue s q k).nextGang = s.nextGang := rfl
@[simp] theorem setQueue_schEpoch (q : Nat) (k : Queue) : (setQueue s q k).schEpoch = s.schEpoch := rfl
@[simp] theorem setQueue_schCfg (q : Nat) (k : Queue) : (setQueue s q k).schCfg = s.schCfg := rfl
@[simp] theorem setQueue_pools (q : Nat) (k : Queue) : (setQueue s q k).pools = s.pools := rfl
@[simp] theorem setQueue_poolEpoch (q : Nat) (k : Queue) : (setQueue s q k).poolEpoch = s.poolEpoch := rfl
@[simp] theorem setQueue_epochDue (q : Nat) (k : Queue) : (setQueue s q k).epochDue = s.epochDue := rfl
@[simp] theorem setQueue_lateEv (q : Nat) (k : Queue) : (setQueue s q k).lateEv = s.lateEv := rfl
@[simp] theorem setQueue_mem (q : Nat) (k : Queue) : (setQueue s q k).mem = s.mem := rfl
@[simp] theorem setQueue_lost (q : Nat) (k : Queue) : (setQueue s q k).lost = s.lost := rfl
@[simp] theorem setQueue_restored (q : Nat) (k : Queue) : (setQueue s q k).restored = s.restored := rfl
@[simp] theorem setQueue_owner (q : Nat) (k : Queue) : (setQueue s q k).owner = s.owner := rfl
@[simp] theorem setQueue_ownCmd (q : Nat) (k : Queue) : (setQueue s q k).ownCmd = s.ownCmd := rfl
@[simp] theorem setQueue_ownAt (q : Nat) (k : Queue) : (setQueue s q k).ownAt = s.ownAt := rfl
@[simp] theorem setQueue_hlb (q : Nat) (k : Queue) : (setQueue s q k).hlb = s.hlb := rfl
@[simp] theorem setQueue_hubX (q : Nat) (k : Queue) : (setQueue s q k).hubX = s.hubX := rfl
@[simp] theorem setQueue_migr (q : Nat) (k : Queue) : (setQueue s q k).migr = s.migr := rfl
@[simp] theorem setQueue_hbm (q : Nat) (k : Queue) : (setQueue s q k).hbm = s.hbm := rfl
@[simp] theorem setQueue_memcfg (q : Nat) (k : Queue) : (setQueue s q k).memcfg = s.memcfg := rfl
@[simp] theorem setQueue_towers (q : Nat) (k : Queue) : (setQueue s q k).towers = s.towers := rfl
@[simp] theorem setQueue_flush (q : Nat) (k : Queue) : (setQueue s q k).flush = s.flush := rfl
@[simp] theorem setQueue_mortar (q : Nat) (k : Queue) : (setQueue s q k).mortar = s.mortar := rfl
@[simp] theorem setQueue_lintel (q : Nat) (k : Queue) : (setQueue s q k).lintel = s.lintel := rfl
@[simp] theorem setQueue_span (q : Nat) (k : Queue) : (setQueue s q k).span = s.span := rfl
@[simp] theorem setQueue_plumb (q : Nat) (k : Queue) : (setQueue s q k).plumb = s.plumb := rfl
@[simp] theorem setQueue_host (q : Nat) (k : Queue) : (setQueue s q k).host = s.host := rfl
@[simp] theorem setQueue_power (q : Nat) (k : Queue) : (setQueue s q k).power = s.power := rfl
@[simp] theorem setQueue_rst (q : Nat) (k : Queue) : (setQueue s q k).rst = s.rst := rfl
@[simp] theorem setQueue_store (q : Nat) (k : Queue) : (setQueue s q k).store = s.store := rfl
@[simp] theorem setQueue_key (q : Nat) (k : Queue) : (setQueue s q k).key = s.key := rfl
@[simp] theorem setQueue_pins (q : Nat) (k : Queue) : (setQueue s q k).pins = s.pins := rfl
@[simp] theorem setQueue_pending (q : Nat) (k : Queue) : (setQueue s q k).pending = s.pending := rfl

@[simp] theorem setCtx_now (x : Nat) (k : Ctx) : (setCtx s x k).now = s.now := rfl
@[simp] theorem setCtx_free (x : Nat) (k : Ctx) : (setCtx s x k).free = s.free := rfl
@[simp] theorem setCtx_cores (x : Nat) (k : Ctx) : (setCtx s x k).cores = s.cores := rfl
@[simp] theorem setCtx_queues (x : Nat) (k : Ctx) : (setCtx s x k).queues = s.queues := rfl
@[simp] theorem setCtx_ctxs (x : Nat) (k : Ctx) : (setCtx s x k).ctxs = tset {} s.ctxs x k := rfl
@[simp] theorem setCtx_lastPop (x : Nat) (k : Ctx) : (setCtx s x k).lastPop = s.lastPop := rfl
@[simp] theorem setCtx_gangs (x : Nat) (k : Ctx) : (setCtx s x k).gangs = s.gangs := rfl
@[simp] theorem setCtx_nextGang (x : Nat) (k : Ctx) : (setCtx s x k).nextGang = s.nextGang := rfl
@[simp] theorem setCtx_schEpoch (x : Nat) (k : Ctx) : (setCtx s x k).schEpoch = s.schEpoch := rfl
@[simp] theorem setCtx_schCfg (x : Nat) (k : Ctx) : (setCtx s x k).schCfg = s.schCfg := rfl
@[simp] theorem setCtx_pools (x : Nat) (k : Ctx) : (setCtx s x k).pools = s.pools := rfl
@[simp] theorem setCtx_poolEpoch (x : Nat) (k : Ctx) : (setCtx s x k).poolEpoch = s.poolEpoch := rfl
@[simp] theorem setCtx_epochDue (x : Nat) (k : Ctx) : (setCtx s x k).epochDue = s.epochDue := rfl
@[simp] theorem setCtx_lateEv (x : Nat) (k : Ctx) : (setCtx s x k).lateEv = s.lateEv := rfl
@[simp] theorem setCtx_mem (x : Nat) (k : Ctx) : (setCtx s x k).mem = s.mem := rfl
@[simp] theorem setCtx_lost (x : Nat) (k : Ctx) : (setCtx s x k).lost = s.lost := rfl
@[simp] theorem setCtx_restored (x : Nat) (k : Ctx) : (setCtx s x k).restored = s.restored := rfl
@[simp] theorem setCtx_owner (x : Nat) (k : Ctx) : (setCtx s x k).owner = s.owner := rfl
@[simp] theorem setCtx_ownCmd (x : Nat) (k : Ctx) : (setCtx s x k).ownCmd = s.ownCmd := rfl
@[simp] theorem setCtx_ownAt (x : Nat) (k : Ctx) : (setCtx s x k).ownAt = s.ownAt := rfl
@[simp] theorem setCtx_hlb (x : Nat) (k : Ctx) : (setCtx s x k).hlb = s.hlb := rfl
@[simp] theorem setCtx_hubX (x : Nat) (k : Ctx) : (setCtx s x k).hubX = s.hubX := rfl
@[simp] theorem setCtx_migr (x : Nat) (k : Ctx) : (setCtx s x k).migr = s.migr := rfl
@[simp] theorem setCtx_hbm (x : Nat) (k : Ctx) : (setCtx s x k).hbm = s.hbm := rfl
@[simp] theorem setCtx_memcfg (x : Nat) (k : Ctx) : (setCtx s x k).memcfg = s.memcfg := rfl
@[simp] theorem setCtx_towers (x : Nat) (k : Ctx) : (setCtx s x k).towers = s.towers := rfl
@[simp] theorem setCtx_flush (x : Nat) (k : Ctx) : (setCtx s x k).flush = s.flush := rfl
@[simp] theorem setCtx_mortar (x : Nat) (k : Ctx) : (setCtx s x k).mortar = s.mortar := rfl
@[simp] theorem setCtx_lintel (x : Nat) (k : Ctx) : (setCtx s x k).lintel = s.lintel := rfl
@[simp] theorem setCtx_span (x : Nat) (k : Ctx) : (setCtx s x k).span = s.span := rfl
@[simp] theorem setCtx_plumb (x : Nat) (k : Ctx) : (setCtx s x k).plumb = s.plumb := rfl
@[simp] theorem setCtx_host (x : Nat) (k : Ctx) : (setCtx s x k).host = s.host := rfl
@[simp] theorem setCtx_power (x : Nat) (k : Ctx) : (setCtx s x k).power = s.power := rfl
@[simp] theorem setCtx_rst (x : Nat) (k : Ctx) : (setCtx s x k).rst = s.rst := rfl
@[simp] theorem setCtx_store (x : Nat) (k : Ctx) : (setCtx s x k).store = s.store := rfl
@[simp] theorem setCtx_key (x : Nat) (k : Ctx) : (setCtx s x k).key = s.key := rfl
@[simp] theorem setCtx_pins (x : Nat) (k : Ctx) : (setCtx s x k).pins = s.pins := rfl
@[simp] theorem setCtx_pending (x : Nat) (k : Ctx) : (setCtx s x k).pending = s.pending := rfl

@[simp] theorem setPool_now (p : Nat) (k : Pool) : (setPool s p k).now = s.now := rfl
@[simp] theorem setPool_free (p : Nat) (k : Pool) : (setPool s p k).free = s.free := rfl
@[simp] theorem setPool_cores (p : Nat) (k : Pool) : (setPool s p k).cores = s.cores := rfl
@[simp] theorem setPool_queues (p : Nat) (k : Pool) : (setPool s p k).queues = s.queues := rfl
@[simp] theorem setPool_ctxs (p : Nat) (k : Pool) : (setPool s p k).ctxs = s.ctxs := rfl
@[simp] theorem setPool_lastPop (p : Nat) (k : Pool) : (setPool s p k).lastPop = s.lastPop := rfl
@[simp] theorem setPool_gangs (p : Nat) (k : Pool) : (setPool s p k).gangs = s.gangs := rfl
@[simp] theorem setPool_nextGang (p : Nat) (k : Pool) : (setPool s p k).nextGang = s.nextGang := rfl
@[simp] theorem setPool_schEpoch (p : Nat) (k : Pool) : (setPool s p k).schEpoch = s.schEpoch := rfl
@[simp] theorem setPool_schCfg (p : Nat) (k : Pool) : (setPool s p k).schCfg = s.schCfg := rfl
@[simp] theorem setPool_pools (p : Nat) (k : Pool) : (setPool s p k).pools = tset {} s.pools p k := rfl
@[simp] theorem setPool_poolEpoch (p : Nat) (k : Pool) : (setPool s p k).poolEpoch = s.poolEpoch := rfl
@[simp] theorem setPool_epochDue (p : Nat) (k : Pool) : (setPool s p k).epochDue = s.epochDue := rfl
@[simp] theorem setPool_lateEv (p : Nat) (k : Pool) : (setPool s p k).lateEv = s.lateEv := rfl
@[simp] theorem setPool_mem (p : Nat) (k : Pool) : (setPool s p k).mem = s.mem := rfl
@[simp] theorem setPool_lost (p : Nat) (k : Pool) : (setPool s p k).lost = s.lost := rfl
@[simp] theorem setPool_restored (p : Nat) (k : Pool) : (setPool s p k).restored = s.restored := rfl
@[simp] theorem setPool_owner (p : Nat) (k : Pool) : (setPool s p k).owner = s.owner := rfl
@[simp] theorem setPool_ownCmd (p : Nat) (k : Pool) : (setPool s p k).ownCmd = s.ownCmd := rfl
@[simp] theorem setPool_ownAt (p : Nat) (k : Pool) : (setPool s p k).ownAt = s.ownAt := rfl
@[simp] theorem setPool_hlb (p : Nat) (k : Pool) : (setPool s p k).hlb = s.hlb := rfl
@[simp] theorem setPool_hubX (p : Nat) (k : Pool) : (setPool s p k).hubX = s.hubX := rfl
@[simp] theorem setPool_migr (p : Nat) (k : Pool) : (setPool s p k).migr = s.migr := rfl
@[simp] theorem setPool_hbm (p : Nat) (k : Pool) : (setPool s p k).hbm = s.hbm := rfl
@[simp] theorem setPool_memcfg (p : Nat) (k : Pool) : (setPool s p k).memcfg = s.memcfg := rfl
@[simp] theorem setPool_towers (p : Nat) (k : Pool) : (setPool s p k).towers = s.towers := rfl
@[simp] theorem setPool_flush (p : Nat) (k : Pool) : (setPool s p k).flush = s.flush := rfl
@[simp] theorem setPool_mortar (p : Nat) (k : Pool) : (setPool s p k).mortar = s.mortar := rfl
@[simp] theorem setPool_lintel (p : Nat) (k : Pool) : (setPool s p k).lintel = s.lintel := rfl
@[simp] theorem setPool_span (p : Nat) (k : Pool) : (setPool s p k).span = s.span := rfl
@[simp] theorem setPool_plumb (p : Nat) (k : Pool) : (setPool s p k).plumb = s.plumb := rfl
@[simp] theorem setPool_host (p : Nat) (k : Pool) : (setPool s p k).host = s.host := rfl
@[simp] theorem setPool_power (p : Nat) (k : Pool) : (setPool s p k).power = s.power := rfl
@[simp] theorem setPool_rst (p : Nat) (k : Pool) : (setPool s p k).rst = s.rst := rfl
@[simp] theorem setPool_store (p : Nat) (k : Pool) : (setPool s p k).store = s.store := rfl
@[simp] theorem setPool_key (p : Nat) (k : Pool) : (setPool s p k).key = s.key := rfl
@[simp] theorem setPool_pins (p : Nat) (k : Pool) : (setPool s p k).pins = s.pins := rfl
@[simp] theorem setPool_pending (p : Nat) (k : Pool) : (setPool s p k).pending = s.pending := rfl

@[simp] theorem setHbm_now (c : Nat) (k : HbmChan) : (setHbm s c k).now = s.now := rfl
@[simp] theorem setHbm_free (c : Nat) (k : HbmChan) : (setHbm s c k).free = s.free := rfl
@[simp] theorem setHbm_cores (c : Nat) (k : HbmChan) : (setHbm s c k).cores = s.cores := rfl
@[simp] theorem setHbm_queues (c : Nat) (k : HbmChan) : (setHbm s c k).queues = s.queues := rfl
@[simp] theorem setHbm_ctxs (c : Nat) (k : HbmChan) : (setHbm s c k).ctxs = s.ctxs := rfl
@[simp] theorem setHbm_lastPop (c : Nat) (k : HbmChan) : (setHbm s c k).lastPop = s.lastPop := rfl
@[simp] theorem setHbm_gangs (c : Nat) (k : HbmChan) : (setHbm s c k).gangs = s.gangs := rfl
@[simp] theorem setHbm_nextGang (c : Nat) (k : HbmChan) : (setHbm s c k).nextGang = s.nextGang := rfl
@[simp] theorem setHbm_schEpoch (c : Nat) (k : HbmChan) : (setHbm s c k).schEpoch = s.schEpoch := rfl
@[simp] theorem setHbm_schCfg (c : Nat) (k : HbmChan) : (setHbm s c k).schCfg = s.schCfg := rfl
@[simp] theorem setHbm_pools (c : Nat) (k : HbmChan) : (setHbm s c k).pools = s.pools := rfl
@[simp] theorem setHbm_poolEpoch (c : Nat) (k : HbmChan) : (setHbm s c k).poolEpoch = s.poolEpoch := rfl
@[simp] theorem setHbm_epochDue (c : Nat) (k : HbmChan) : (setHbm s c k).epochDue = s.epochDue := rfl
@[simp] theorem setHbm_lateEv (c : Nat) (k : HbmChan) : (setHbm s c k).lateEv = s.lateEv := rfl
@[simp] theorem setHbm_mem (c : Nat) (k : HbmChan) : (setHbm s c k).mem = s.mem := rfl
@[simp] theorem setHbm_lost (c : Nat) (k : HbmChan) : (setHbm s c k).lost = s.lost := rfl
@[simp] theorem setHbm_restored (c : Nat) (k : HbmChan) : (setHbm s c k).restored = s.restored := rfl
@[simp] theorem setHbm_owner (c : Nat) (k : HbmChan) : (setHbm s c k).owner = s.owner := rfl
@[simp] theorem setHbm_ownCmd (c : Nat) (k : HbmChan) : (setHbm s c k).ownCmd = s.ownCmd := rfl
@[simp] theorem setHbm_ownAt (c : Nat) (k : HbmChan) : (setHbm s c k).ownAt = s.ownAt := rfl
@[simp] theorem setHbm_hlb (c : Nat) (k : HbmChan) : (setHbm s c k).hlb = s.hlb := rfl
@[simp] theorem setHbm_hubX (c : Nat) (k : HbmChan) : (setHbm s c k).hubX = s.hubX := rfl
@[simp] theorem setHbm_migr (c : Nat) (k : HbmChan) : (setHbm s c k).migr = s.migr := rfl
@[simp] theorem setHbm_hbm (c : Nat) (k : HbmChan) : (setHbm s c k).hbm = tset {} s.hbm c k := rfl
@[simp] theorem setHbm_memcfg (c : Nat) (k : HbmChan) : (setHbm s c k).memcfg = s.memcfg := rfl
@[simp] theorem setHbm_towers (c : Nat) (k : HbmChan) : (setHbm s c k).towers = s.towers := rfl
@[simp] theorem setHbm_flush (c : Nat) (k : HbmChan) : (setHbm s c k).flush = s.flush := rfl
@[simp] theorem setHbm_mortar (c : Nat) (k : HbmChan) : (setHbm s c k).mortar = s.mortar := rfl
@[simp] theorem setHbm_lintel (c : Nat) (k : HbmChan) : (setHbm s c k).lintel = s.lintel := rfl
@[simp] theorem setHbm_span (c : Nat) (k : HbmChan) : (setHbm s c k).span = s.span := rfl
@[simp] theorem setHbm_plumb (c : Nat) (k : HbmChan) : (setHbm s c k).plumb = s.plumb := rfl
@[simp] theorem setHbm_host (c : Nat) (k : HbmChan) : (setHbm s c k).host = s.host := rfl
@[simp] theorem setHbm_power (c : Nat) (k : HbmChan) : (setHbm s c k).power = s.power := rfl
@[simp] theorem setHbm_rst (c : Nat) (k : HbmChan) : (setHbm s c k).rst = s.rst := rfl
@[simp] theorem setHbm_store (c : Nat) (k : HbmChan) : (setHbm s c k).store = s.store := rfl
@[simp] theorem setHbm_key (c : Nat) (k : HbmChan) : (setHbm s c k).key = s.key := rfl
@[simp] theorem setHbm_pins (c : Nat) (k : HbmChan) : (setHbm s c k).pins = s.pins := rfl
@[simp] theorem setHbm_pending (c : Nat) (k : HbmChan) : (setHbm s c k).pending = s.pending := rfl

@[simp] theorem setTower_now (t : Nat) (k : TowerSt) : (setTower s t k).now = s.now := rfl
@[simp] theorem setTower_free (t : Nat) (k : TowerSt) : (setTower s t k).free = s.free := rfl
@[simp] theorem setTower_cores (t : Nat) (k : TowerSt) : (setTower s t k).cores = s.cores := rfl
@[simp] theorem setTower_queues (t : Nat) (k : TowerSt) : (setTower s t k).queues = s.queues := rfl
@[simp] theorem setTower_ctxs (t : Nat) (k : TowerSt) : (setTower s t k).ctxs = s.ctxs := rfl
@[simp] theorem setTower_lastPop (t : Nat) (k : TowerSt) : (setTower s t k).lastPop = s.lastPop := rfl
@[simp] theorem setTower_gangs (t : Nat) (k : TowerSt) : (setTower s t k).gangs = s.gangs := rfl
@[simp] theorem setTower_nextGang (t : Nat) (k : TowerSt) : (setTower s t k).nextGang = s.nextGang := rfl
@[simp] theorem setTower_schEpoch (t : Nat) (k : TowerSt) : (setTower s t k).schEpoch = s.schEpoch := rfl
@[simp] theorem setTower_schCfg (t : Nat) (k : TowerSt) : (setTower s t k).schCfg = s.schCfg := rfl
@[simp] theorem setTower_pools (t : Nat) (k : TowerSt) : (setTower s t k).pools = s.pools := rfl
@[simp] theorem setTower_poolEpoch (t : Nat) (k : TowerSt) : (setTower s t k).poolEpoch = s.poolEpoch := rfl
@[simp] theorem setTower_epochDue (t : Nat) (k : TowerSt) : (setTower s t k).epochDue = s.epochDue := rfl
@[simp] theorem setTower_lateEv (t : Nat) (k : TowerSt) : (setTower s t k).lateEv = s.lateEv := rfl
@[simp] theorem setTower_mem (t : Nat) (k : TowerSt) : (setTower s t k).mem = s.mem := rfl
@[simp] theorem setTower_lost (t : Nat) (k : TowerSt) : (setTower s t k).lost = s.lost := rfl
@[simp] theorem setTower_restored (t : Nat) (k : TowerSt) : (setTower s t k).restored = s.restored := rfl
@[simp] theorem setTower_owner (t : Nat) (k : TowerSt) : (setTower s t k).owner = s.owner := rfl
@[simp] theorem setTower_ownCmd (t : Nat) (k : TowerSt) : (setTower s t k).ownCmd = s.ownCmd := rfl
@[simp] theorem setTower_ownAt (t : Nat) (k : TowerSt) : (setTower s t k).ownAt = s.ownAt := rfl
@[simp] theorem setTower_hlb (t : Nat) (k : TowerSt) : (setTower s t k).hlb = s.hlb := rfl
@[simp] theorem setTower_hubX (t : Nat) (k : TowerSt) : (setTower s t k).hubX = s.hubX := rfl
@[simp] theorem setTower_migr (t : Nat) (k : TowerSt) : (setTower s t k).migr = s.migr := rfl
@[simp] theorem setTower_hbm (t : Nat) (k : TowerSt) : (setTower s t k).hbm = s.hbm := rfl
@[simp] theorem setTower_memcfg (t : Nat) (k : TowerSt) : (setTower s t k).memcfg = s.memcfg := rfl
@[simp] theorem setTower_towers (t : Nat) (k : TowerSt) : (setTower s t k).towers = tset {} s.towers t k := rfl
@[simp] theorem setTower_flush (t : Nat) (k : TowerSt) : (setTower s t k).flush = s.flush := rfl
@[simp] theorem setTower_mortar (t : Nat) (k : TowerSt) : (setTower s t k).mortar = s.mortar := rfl
@[simp] theorem setTower_lintel (t : Nat) (k : TowerSt) : (setTower s t k).lintel = s.lintel := rfl
@[simp] theorem setTower_span (t : Nat) (k : TowerSt) : (setTower s t k).span = s.span := rfl
@[simp] theorem setTower_plumb (t : Nat) (k : TowerSt) : (setTower s t k).plumb = s.plumb := rfl
@[simp] theorem setTower_host (t : Nat) (k : TowerSt) : (setTower s t k).host = s.host := rfl
@[simp] theorem setTower_power (t : Nat) (k : TowerSt) : (setTower s t k).power = s.power := rfl
@[simp] theorem setTower_rst (t : Nat) (k : TowerSt) : (setTower s t k).rst = s.rst := rfl
@[simp] theorem setTower_store (t : Nat) (k : TowerSt) : (setTower s t k).store = s.store := rfl
@[simp] theorem setTower_key (t : Nat) (k : TowerSt) : (setTower s t k).key = s.key := rfl
@[simp] theorem setTower_pins (t : Nat) (k : TowerSt) : (setTower s t k).pins = s.pins := rfl
@[simp] theorem setTower_pending (t : Nat) (k : TowerSt) : (setTower s t k).pending = s.pending := rfl

@[simp] theorem setMortar_now (f : Nat) (k : Mortar) : (setMortar s f k).now = s.now := rfl
@[simp] theorem setMortar_free (f : Nat) (k : Mortar) : (setMortar s f k).free = s.free := rfl
@[simp] theorem setMortar_cores (f : Nat) (k : Mortar) : (setMortar s f k).cores = s.cores := rfl
@[simp] theorem setMortar_queues (f : Nat) (k : Mortar) : (setMortar s f k).queues = s.queues := rfl
@[simp] theorem setMortar_ctxs (f : Nat) (k : Mortar) : (setMortar s f k).ctxs = s.ctxs := rfl
@[simp] theorem setMortar_lastPop (f : Nat) (k : Mortar) : (setMortar s f k).lastPop = s.lastPop := rfl
@[simp] theorem setMortar_gangs (f : Nat) (k : Mortar) : (setMortar s f k).gangs = s.gangs := rfl
@[simp] theorem setMortar_nextGang (f : Nat) (k : Mortar) : (setMortar s f k).nextGang = s.nextGang := rfl
@[simp] theorem setMortar_schEpoch (f : Nat) (k : Mortar) : (setMortar s f k).schEpoch = s.schEpoch := rfl
@[simp] theorem setMortar_schCfg (f : Nat) (k : Mortar) : (setMortar s f k).schCfg = s.schCfg := rfl
@[simp] theorem setMortar_pools (f : Nat) (k : Mortar) : (setMortar s f k).pools = s.pools := rfl
@[simp] theorem setMortar_poolEpoch (f : Nat) (k : Mortar) : (setMortar s f k).poolEpoch = s.poolEpoch := rfl
@[simp] theorem setMortar_epochDue (f : Nat) (k : Mortar) : (setMortar s f k).epochDue = s.epochDue := rfl
@[simp] theorem setMortar_lateEv (f : Nat) (k : Mortar) : (setMortar s f k).lateEv = s.lateEv := rfl
@[simp] theorem setMortar_mem (f : Nat) (k : Mortar) : (setMortar s f k).mem = s.mem := rfl
@[simp] theorem setMortar_lost (f : Nat) (k : Mortar) : (setMortar s f k).lost = s.lost := rfl
@[simp] theorem setMortar_restored (f : Nat) (k : Mortar) : (setMortar s f k).restored = s.restored := rfl
@[simp] theorem setMortar_owner (f : Nat) (k : Mortar) : (setMortar s f k).owner = s.owner := rfl
@[simp] theorem setMortar_ownCmd (f : Nat) (k : Mortar) : (setMortar s f k).ownCmd = s.ownCmd := rfl
@[simp] theorem setMortar_ownAt (f : Nat) (k : Mortar) : (setMortar s f k).ownAt = s.ownAt := rfl
@[simp] theorem setMortar_hlb (f : Nat) (k : Mortar) : (setMortar s f k).hlb = s.hlb := rfl
@[simp] theorem setMortar_hubX (f : Nat) (k : Mortar) : (setMortar s f k).hubX = s.hubX := rfl
@[simp] theorem setMortar_migr (f : Nat) (k : Mortar) : (setMortar s f k).migr = s.migr := rfl
@[simp] theorem setMortar_hbm (f : Nat) (k : Mortar) : (setMortar s f k).hbm = s.hbm := rfl
@[simp] theorem setMortar_memcfg (f : Nat) (k : Mortar) : (setMortar s f k).memcfg = s.memcfg := rfl
@[simp] theorem setMortar_towers (f : Nat) (k : Mortar) : (setMortar s f k).towers = s.towers := rfl
@[simp] theorem setMortar_flush (f : Nat) (k : Mortar) : (setMortar s f k).flush = s.flush := rfl
@[simp] theorem setMortar_mortar (f : Nat) (k : Mortar) : (setMortar s f k).mortar = tset {} s.mortar f k := rfl
@[simp] theorem setMortar_lintel (f : Nat) (k : Mortar) : (setMortar s f k).lintel = s.lintel := rfl
@[simp] theorem setMortar_span (f : Nat) (k : Mortar) : (setMortar s f k).span = s.span := rfl
@[simp] theorem setMortar_plumb (f : Nat) (k : Mortar) : (setMortar s f k).plumb = s.plumb := rfl
@[simp] theorem setMortar_host (f : Nat) (k : Mortar) : (setMortar s f k).host = s.host := rfl
@[simp] theorem setMortar_power (f : Nat) (k : Mortar) : (setMortar s f k).power = s.power := rfl
@[simp] theorem setMortar_rst (f : Nat) (k : Mortar) : (setMortar s f k).rst = s.rst := rfl
@[simp] theorem setMortar_store (f : Nat) (k : Mortar) : (setMortar s f k).store = s.store := rfl
@[simp] theorem setMortar_key (f : Nat) (k : Mortar) : (setMortar s f k).key = s.key := rfl
@[simp] theorem setMortar_pins (f : Nat) (k : Mortar) : (setMortar s f k).pins = s.pins := rfl
@[simp] theorem setMortar_pending (f : Nat) (k : Mortar) : (setMortar s f k).pending = s.pending := rfl

@[simp] theorem setLintel_now (l : Nat) (k : Lintel) : (setLintel s l k).now = s.now := rfl
@[simp] theorem setLintel_free (l : Nat) (k : Lintel) : (setLintel s l k).free = s.free := rfl
@[simp] theorem setLintel_cores (l : Nat) (k : Lintel) : (setLintel s l k).cores = s.cores := rfl
@[simp] theorem setLintel_queues (l : Nat) (k : Lintel) : (setLintel s l k).queues = s.queues := rfl
@[simp] theorem setLintel_ctxs (l : Nat) (k : Lintel) : (setLintel s l k).ctxs = s.ctxs := rfl
@[simp] theorem setLintel_lastPop (l : Nat) (k : Lintel) : (setLintel s l k).lastPop = s.lastPop := rfl
@[simp] theorem setLintel_gangs (l : Nat) (k : Lintel) : (setLintel s l k).gangs = s.gangs := rfl
@[simp] theorem setLintel_nextGang (l : Nat) (k : Lintel) : (setLintel s l k).nextGang = s.nextGang := rfl
@[simp] theorem setLintel_schEpoch (l : Nat) (k : Lintel) : (setLintel s l k).schEpoch = s.schEpoch := rfl
@[simp] theorem setLintel_schCfg (l : Nat) (k : Lintel) : (setLintel s l k).schCfg = s.schCfg := rfl
@[simp] theorem setLintel_pools (l : Nat) (k : Lintel) : (setLintel s l k).pools = s.pools := rfl
@[simp] theorem setLintel_poolEpoch (l : Nat) (k : Lintel) : (setLintel s l k).poolEpoch = s.poolEpoch := rfl
@[simp] theorem setLintel_epochDue (l : Nat) (k : Lintel) : (setLintel s l k).epochDue = s.epochDue := rfl
@[simp] theorem setLintel_lateEv (l : Nat) (k : Lintel) : (setLintel s l k).lateEv = s.lateEv := rfl
@[simp] theorem setLintel_mem (l : Nat) (k : Lintel) : (setLintel s l k).mem = s.mem := rfl
@[simp] theorem setLintel_lost (l : Nat) (k : Lintel) : (setLintel s l k).lost = s.lost := rfl
@[simp] theorem setLintel_restored (l : Nat) (k : Lintel) : (setLintel s l k).restored = s.restored := rfl
@[simp] theorem setLintel_owner (l : Nat) (k : Lintel) : (setLintel s l k).owner = s.owner := rfl
@[simp] theorem setLintel_ownCmd (l : Nat) (k : Lintel) : (setLintel s l k).ownCmd = s.ownCmd := rfl
@[simp] theorem setLintel_ownAt (l : Nat) (k : Lintel) : (setLintel s l k).ownAt = s.ownAt := rfl
@[simp] theorem setLintel_hlb (l : Nat) (k : Lintel) : (setLintel s l k).hlb = s.hlb := rfl
@[simp] theorem setLintel_hubX (l : Nat) (k : Lintel) : (setLintel s l k).hubX = s.hubX := rfl
@[simp] theorem setLintel_migr (l : Nat) (k : Lintel) : (setLintel s l k).migr = s.migr := rfl
@[simp] theorem setLintel_hbm (l : Nat) (k : Lintel) : (setLintel s l k).hbm = s.hbm := rfl
@[simp] theorem setLintel_memcfg (l : Nat) (k : Lintel) : (setLintel s l k).memcfg = s.memcfg := rfl
@[simp] theorem setLintel_towers (l : Nat) (k : Lintel) : (setLintel s l k).towers = s.towers := rfl
@[simp] theorem setLintel_flush (l : Nat) (k : Lintel) : (setLintel s l k).flush = s.flush := rfl
@[simp] theorem setLintel_mortar (l : Nat) (k : Lintel) : (setLintel s l k).mortar = s.mortar := rfl
@[simp] theorem setLintel_lintel (l : Nat) (k : Lintel) : (setLintel s l k).lintel = tset {} s.lintel l k := rfl
@[simp] theorem setLintel_span (l : Nat) (k : Lintel) : (setLintel s l k).span = s.span := rfl
@[simp] theorem setLintel_plumb (l : Nat) (k : Lintel) : (setLintel s l k).plumb = s.plumb := rfl
@[simp] theorem setLintel_host (l : Nat) (k : Lintel) : (setLintel s l k).host = s.host := rfl
@[simp] theorem setLintel_power (l : Nat) (k : Lintel) : (setLintel s l k).power = s.power := rfl
@[simp] theorem setLintel_rst (l : Nat) (k : Lintel) : (setLintel s l k).rst = s.rst := rfl
@[simp] theorem setLintel_store (l : Nat) (k : Lintel) : (setLintel s l k).store = s.store := rfl
@[simp] theorem setLintel_key (l : Nat) (k : Lintel) : (setLintel s l k).key = s.key := rfl
@[simp] theorem setLintel_pins (l : Nat) (k : Lintel) : (setLintel s l k).pins = s.pins := rfl
@[simp] theorem setLintel_pending (l : Nat) (k : Lintel) : (setLintel s l k).pending = s.pending := rfl

@[simp] theorem withSpan_now (k : SpanSt) : (withSpan s k).now = s.now := rfl
@[simp] theorem withSpan_free (k : SpanSt) : (withSpan s k).free = s.free := rfl
@[simp] theorem withSpan_cores (k : SpanSt) : (withSpan s k).cores = s.cores := rfl
@[simp] theorem withSpan_queues (k : SpanSt) : (withSpan s k).queues = s.queues := rfl
@[simp] theorem withSpan_ctxs (k : SpanSt) : (withSpan s k).ctxs = s.ctxs := rfl
@[simp] theorem withSpan_lastPop (k : SpanSt) : (withSpan s k).lastPop = s.lastPop := rfl
@[simp] theorem withSpan_gangs (k : SpanSt) : (withSpan s k).gangs = s.gangs := rfl
@[simp] theorem withSpan_nextGang (k : SpanSt) : (withSpan s k).nextGang = s.nextGang := rfl
@[simp] theorem withSpan_schEpoch (k : SpanSt) : (withSpan s k).schEpoch = s.schEpoch := rfl
@[simp] theorem withSpan_schCfg (k : SpanSt) : (withSpan s k).schCfg = s.schCfg := rfl
@[simp] theorem withSpan_pools (k : SpanSt) : (withSpan s k).pools = s.pools := rfl
@[simp] theorem withSpan_poolEpoch (k : SpanSt) : (withSpan s k).poolEpoch = s.poolEpoch := rfl
@[simp] theorem withSpan_epochDue (k : SpanSt) : (withSpan s k).epochDue = s.epochDue := rfl
@[simp] theorem withSpan_lateEv (k : SpanSt) : (withSpan s k).lateEv = s.lateEv := rfl
@[simp] theorem withSpan_mem (k : SpanSt) : (withSpan s k).mem = s.mem := rfl
@[simp] theorem withSpan_lost (k : SpanSt) : (withSpan s k).lost = s.lost := rfl
@[simp] theorem withSpan_restored (k : SpanSt) : (withSpan s k).restored = s.restored := rfl
@[simp] theorem withSpan_owner (k : SpanSt) : (withSpan s k).owner = s.owner := rfl
@[simp] theorem withSpan_ownCmd (k : SpanSt) : (withSpan s k).ownCmd = s.ownCmd := rfl
@[simp] theorem withSpan_ownAt (k : SpanSt) : (withSpan s k).ownAt = s.ownAt := rfl
@[simp] theorem withSpan_hlb (k : SpanSt) : (withSpan s k).hlb = s.hlb := rfl
@[simp] theorem withSpan_hubX (k : SpanSt) : (withSpan s k).hubX = s.hubX := rfl
@[simp] theorem withSpan_migr (k : SpanSt) : (withSpan s k).migr = s.migr := rfl
@[simp] theorem withSpan_hbm (k : SpanSt) : (withSpan s k).hbm = s.hbm := rfl
@[simp] theorem withSpan_memcfg (k : SpanSt) : (withSpan s k).memcfg = s.memcfg := rfl
@[simp] theorem withSpan_towers (k : SpanSt) : (withSpan s k).towers = s.towers := rfl
@[simp] theorem withSpan_flush (k : SpanSt) : (withSpan s k).flush = s.flush := rfl
@[simp] theorem withSpan_mortar (k : SpanSt) : (withSpan s k).mortar = s.mortar := rfl
@[simp] theorem withSpan_lintel (k : SpanSt) : (withSpan s k).lintel = s.lintel := rfl
@[simp] theorem withSpan_span (k : SpanSt) : (withSpan s k).span = k := rfl
@[simp] theorem withSpan_plumb (k : SpanSt) : (withSpan s k).plumb = s.plumb := rfl
@[simp] theorem withSpan_host (k : SpanSt) : (withSpan s k).host = s.host := rfl
@[simp] theorem withSpan_power (k : SpanSt) : (withSpan s k).power = s.power := rfl
@[simp] theorem withSpan_rst (k : SpanSt) : (withSpan s k).rst = s.rst := rfl
@[simp] theorem withSpan_store (k : SpanSt) : (withSpan s k).store = s.store := rfl
@[simp] theorem withSpan_key (k : SpanSt) : (withSpan s k).key = s.key := rfl
@[simp] theorem withSpan_pins (k : SpanSt) : (withSpan s k).pins = s.pins := rfl
@[simp] theorem withSpan_pending (k : SpanSt) : (withSpan s k).pending = s.pending := rfl

@[simp] theorem withPlumb_now (k : PlumbSt) : (withPlumb s k).now = s.now := rfl
@[simp] theorem withPlumb_free (k : PlumbSt) : (withPlumb s k).free = s.free := rfl
@[simp] theorem withPlumb_cores (k : PlumbSt) : (withPlumb s k).cores = s.cores := rfl
@[simp] theorem withPlumb_queues (k : PlumbSt) : (withPlumb s k).queues = s.queues := rfl
@[simp] theorem withPlumb_ctxs (k : PlumbSt) : (withPlumb s k).ctxs = s.ctxs := rfl
@[simp] theorem withPlumb_lastPop (k : PlumbSt) : (withPlumb s k).lastPop = s.lastPop := rfl
@[simp] theorem withPlumb_gangs (k : PlumbSt) : (withPlumb s k).gangs = s.gangs := rfl
@[simp] theorem withPlumb_nextGang (k : PlumbSt) : (withPlumb s k).nextGang = s.nextGang := rfl
@[simp] theorem withPlumb_schEpoch (k : PlumbSt) : (withPlumb s k).schEpoch = s.schEpoch := rfl
@[simp] theorem withPlumb_schCfg (k : PlumbSt) : (withPlumb s k).schCfg = s.schCfg := rfl
@[simp] theorem withPlumb_pools (k : PlumbSt) : (withPlumb s k).pools = s.pools := rfl
@[simp] theorem withPlumb_poolEpoch (k : PlumbSt) : (withPlumb s k).poolEpoch = s.poolEpoch := rfl
@[simp] theorem withPlumb_epochDue (k : PlumbSt) : (withPlumb s k).epochDue = s.epochDue := rfl
@[simp] theorem withPlumb_lateEv (k : PlumbSt) : (withPlumb s k).lateEv = s.lateEv := rfl
@[simp] theorem withPlumb_mem (k : PlumbSt) : (withPlumb s k).mem = s.mem := rfl
@[simp] theorem withPlumb_lost (k : PlumbSt) : (withPlumb s k).lost = s.lost := rfl
@[simp] theorem withPlumb_restored (k : PlumbSt) : (withPlumb s k).restored = s.restored := rfl
@[simp] theorem withPlumb_owner (k : PlumbSt) : (withPlumb s k).owner = s.owner := rfl
@[simp] theorem withPlumb_ownCmd (k : PlumbSt) : (withPlumb s k).ownCmd = s.ownCmd := rfl
@[simp] theorem withPlumb_ownAt (k : PlumbSt) : (withPlumb s k).ownAt = s.ownAt := rfl
@[simp] theorem withPlumb_hlb (k : PlumbSt) : (withPlumb s k).hlb = s.hlb := rfl
@[simp] theorem withPlumb_hubX (k : PlumbSt) : (withPlumb s k).hubX = s.hubX := rfl
@[simp] theorem withPlumb_migr (k : PlumbSt) : (withPlumb s k).migr = s.migr := rfl
@[simp] theorem withPlumb_hbm (k : PlumbSt) : (withPlumb s k).hbm = s.hbm := rfl
@[simp] theorem withPlumb_memcfg (k : PlumbSt) : (withPlumb s k).memcfg = s.memcfg := rfl
@[simp] theorem withPlumb_towers (k : PlumbSt) : (withPlumb s k).towers = s.towers := rfl
@[simp] theorem withPlumb_flush (k : PlumbSt) : (withPlumb s k).flush = s.flush := rfl
@[simp] theorem withPlumb_mortar (k : PlumbSt) : (withPlumb s k).mortar = s.mortar := rfl
@[simp] theorem withPlumb_lintel (k : PlumbSt) : (withPlumb s k).lintel = s.lintel := rfl
@[simp] theorem withPlumb_span (k : PlumbSt) : (withPlumb s k).span = s.span := rfl
@[simp] theorem withPlumb_plumb (k : PlumbSt) : (withPlumb s k).plumb = k := rfl
@[simp] theorem withPlumb_host (k : PlumbSt) : (withPlumb s k).host = s.host := rfl
@[simp] theorem withPlumb_power (k : PlumbSt) : (withPlumb s k).power = s.power := rfl
@[simp] theorem withPlumb_rst (k : PlumbSt) : (withPlumb s k).rst = s.rst := rfl
@[simp] theorem withPlumb_store (k : PlumbSt) : (withPlumb s k).store = s.store := rfl
@[simp] theorem withPlumb_key (k : PlumbSt) : (withPlumb s k).key = s.key := rfl
@[simp] theorem withPlumb_pins (k : PlumbSt) : (withPlumb s k).pins = s.pins := rfl
@[simp] theorem withPlumb_pending (k : PlumbSt) : (withPlumb s k).pending = s.pending := rfl

@[simp] theorem withHost_now (k : HostSt) : (withHost s k).now = s.now := rfl
@[simp] theorem withHost_free (k : HostSt) : (withHost s k).free = s.free := rfl
@[simp] theorem withHost_cores (k : HostSt) : (withHost s k).cores = s.cores := rfl
@[simp] theorem withHost_queues (k : HostSt) : (withHost s k).queues = s.queues := rfl
@[simp] theorem withHost_ctxs (k : HostSt) : (withHost s k).ctxs = s.ctxs := rfl
@[simp] theorem withHost_lastPop (k : HostSt) : (withHost s k).lastPop = s.lastPop := rfl
@[simp] theorem withHost_gangs (k : HostSt) : (withHost s k).gangs = s.gangs := rfl
@[simp] theorem withHost_nextGang (k : HostSt) : (withHost s k).nextGang = s.nextGang := rfl
@[simp] theorem withHost_schEpoch (k : HostSt) : (withHost s k).schEpoch = s.schEpoch := rfl
@[simp] theorem withHost_schCfg (k : HostSt) : (withHost s k).schCfg = s.schCfg := rfl
@[simp] theorem withHost_pools (k : HostSt) : (withHost s k).pools = s.pools := rfl
@[simp] theorem withHost_poolEpoch (k : HostSt) : (withHost s k).poolEpoch = s.poolEpoch := rfl
@[simp] theorem withHost_epochDue (k : HostSt) : (withHost s k).epochDue = s.epochDue := rfl
@[simp] theorem withHost_lateEv (k : HostSt) : (withHost s k).lateEv = s.lateEv := rfl
@[simp] theorem withHost_mem (k : HostSt) : (withHost s k).mem = s.mem := rfl
@[simp] theorem withHost_lost (k : HostSt) : (withHost s k).lost = s.lost := rfl
@[simp] theorem withHost_restored (k : HostSt) : (withHost s k).restored = s.restored := rfl
@[simp] theorem withHost_owner (k : HostSt) : (withHost s k).owner = s.owner := rfl
@[simp] theorem withHost_ownCmd (k : HostSt) : (withHost s k).ownCmd = s.ownCmd := rfl
@[simp] theorem withHost_ownAt (k : HostSt) : (withHost s k).ownAt = s.ownAt := rfl
@[simp] theorem withHost_hlb (k : HostSt) : (withHost s k).hlb = s.hlb := rfl
@[simp] theorem withHost_hubX (k : HostSt) : (withHost s k).hubX = s.hubX := rfl
@[simp] theorem withHost_migr (k : HostSt) : (withHost s k).migr = s.migr := rfl
@[simp] theorem withHost_hbm (k : HostSt) : (withHost s k).hbm = s.hbm := rfl
@[simp] theorem withHost_memcfg (k : HostSt) : (withHost s k).memcfg = s.memcfg := rfl
@[simp] theorem withHost_towers (k : HostSt) : (withHost s k).towers = s.towers := rfl
@[simp] theorem withHost_flush (k : HostSt) : (withHost s k).flush = s.flush := rfl
@[simp] theorem withHost_mortar (k : HostSt) : (withHost s k).mortar = s.mortar := rfl
@[simp] theorem withHost_lintel (k : HostSt) : (withHost s k).lintel = s.lintel := rfl
@[simp] theorem withHost_span (k : HostSt) : (withHost s k).span = s.span := rfl
@[simp] theorem withHost_plumb (k : HostSt) : (withHost s k).plumb = s.plumb := rfl
@[simp] theorem withHost_host (k : HostSt) : (withHost s k).host = k := rfl
@[simp] theorem withHost_power (k : HostSt) : (withHost s k).power = s.power := rfl
@[simp] theorem withHost_rst (k : HostSt) : (withHost s k).rst = s.rst := rfl
@[simp] theorem withHost_store (k : HostSt) : (withHost s k).store = s.store := rfl
@[simp] theorem withHost_key (k : HostSt) : (withHost s k).key = s.key := rfl
@[simp] theorem withHost_pins (k : HostSt) : (withHost s k).pins = s.pins := rfl
@[simp] theorem withHost_pending (k : HostSt) : (withHost s k).pending = s.pending := rfl

@[simp] theorem withPower_now (k : PowerSt) : (withPower s k).now = s.now := rfl
@[simp] theorem withPower_free (k : PowerSt) : (withPower s k).free = s.free := rfl
@[simp] theorem withPower_cores (k : PowerSt) : (withPower s k).cores = s.cores := rfl
@[simp] theorem withPower_queues (k : PowerSt) : (withPower s k).queues = s.queues := rfl
@[simp] theorem withPower_ctxs (k : PowerSt) : (withPower s k).ctxs = s.ctxs := rfl
@[simp] theorem withPower_lastPop (k : PowerSt) : (withPower s k).lastPop = s.lastPop := rfl
@[simp] theorem withPower_gangs (k : PowerSt) : (withPower s k).gangs = s.gangs := rfl
@[simp] theorem withPower_nextGang (k : PowerSt) : (withPower s k).nextGang = s.nextGang := rfl
@[simp] theorem withPower_schEpoch (k : PowerSt) : (withPower s k).schEpoch = s.schEpoch := rfl
@[simp] theorem withPower_schCfg (k : PowerSt) : (withPower s k).schCfg = s.schCfg := rfl
@[simp] theorem withPower_pools (k : PowerSt) : (withPower s k).pools = s.pools := rfl
@[simp] theorem withPower_poolEpoch (k : PowerSt) : (withPower s k).poolEpoch = s.poolEpoch := rfl
@[simp] theorem withPower_epochDue (k : PowerSt) : (withPower s k).epochDue = s.epochDue := rfl
@[simp] theorem withPower_lateEv (k : PowerSt) : (withPower s k).lateEv = s.lateEv := rfl
@[simp] theorem withPower_mem (k : PowerSt) : (withPower s k).mem = s.mem := rfl
@[simp] theorem withPower_lost (k : PowerSt) : (withPower s k).lost = s.lost := rfl
@[simp] theorem withPower_restored (k : PowerSt) : (withPower s k).restored = s.restored := rfl
@[simp] theorem withPower_owner (k : PowerSt) : (withPower s k).owner = s.owner := rfl
@[simp] theorem withPower_ownCmd (k : PowerSt) : (withPower s k).ownCmd = s.ownCmd := rfl
@[simp] theorem withPower_ownAt (k : PowerSt) : (withPower s k).ownAt = s.ownAt := rfl
@[simp] theorem withPower_hlb (k : PowerSt) : (withPower s k).hlb = s.hlb := rfl
@[simp] theorem withPower_hubX (k : PowerSt) : (withPower s k).hubX = s.hubX := rfl
@[simp] theorem withPower_migr (k : PowerSt) : (withPower s k).migr = s.migr := rfl
@[simp] theorem withPower_hbm (k : PowerSt) : (withPower s k).hbm = s.hbm := rfl
@[simp] theorem withPower_memcfg (k : PowerSt) : (withPower s k).memcfg = s.memcfg := rfl
@[simp] theorem withPower_towers (k : PowerSt) : (withPower s k).towers = s.towers := rfl
@[simp] theorem withPower_flush (k : PowerSt) : (withPower s k).flush = s.flush := rfl
@[simp] theorem withPower_mortar (k : PowerSt) : (withPower s k).mortar = s.mortar := rfl
@[simp] theorem withPower_lintel (k : PowerSt) : (withPower s k).lintel = s.lintel := rfl
@[simp] theorem withPower_span (k : PowerSt) : (withPower s k).span = s.span := rfl
@[simp] theorem withPower_plumb (k : PowerSt) : (withPower s k).plumb = s.plumb := rfl
@[simp] theorem withPower_host (k : PowerSt) : (withPower s k).host = s.host := rfl
@[simp] theorem withPower_power (k : PowerSt) : (withPower s k).power = k := rfl
@[simp] theorem withPower_rst (k : PowerSt) : (withPower s k).rst = s.rst := rfl
@[simp] theorem withPower_store (k : PowerSt) : (withPower s k).store = s.store := rfl
@[simp] theorem withPower_key (k : PowerSt) : (withPower s k).key = s.key := rfl
@[simp] theorem withPower_pins (k : PowerSt) : (withPower s k).pins = s.pins := rfl
@[simp] theorem withPower_pending (k : PowerSt) : (withPower s k).pending = s.pending := rfl

@[simp] theorem withRst_now (k : ResetSt) : (withRst s k).now = s.now := rfl
@[simp] theorem withRst_free (k : ResetSt) : (withRst s k).free = s.free := rfl
@[simp] theorem withRst_cores (k : ResetSt) : (withRst s k).cores = s.cores := rfl
@[simp] theorem withRst_queues (k : ResetSt) : (withRst s k).queues = s.queues := rfl
@[simp] theorem withRst_ctxs (k : ResetSt) : (withRst s k).ctxs = s.ctxs := rfl
@[simp] theorem withRst_lastPop (k : ResetSt) : (withRst s k).lastPop = s.lastPop := rfl
@[simp] theorem withRst_gangs (k : ResetSt) : (withRst s k).gangs = s.gangs := rfl
@[simp] theorem withRst_nextGang (k : ResetSt) : (withRst s k).nextGang = s.nextGang := rfl
@[simp] theorem withRst_schEpoch (k : ResetSt) : (withRst s k).schEpoch = s.schEpoch := rfl
@[simp] theorem withRst_schCfg (k : ResetSt) : (withRst s k).schCfg = s.schCfg := rfl
@[simp] theorem withRst_pools (k : ResetSt) : (withRst s k).pools = s.pools := rfl
@[simp] theorem withRst_poolEpoch (k : ResetSt) : (withRst s k).poolEpoch = s.poolEpoch := rfl
@[simp] theorem withRst_epochDue (k : ResetSt) : (withRst s k).epochDue = s.epochDue := rfl
@[simp] theorem withRst_lateEv (k : ResetSt) : (withRst s k).lateEv = s.lateEv := rfl
@[simp] theorem withRst_mem (k : ResetSt) : (withRst s k).mem = s.mem := rfl
@[simp] theorem withRst_lost (k : ResetSt) : (withRst s k).lost = s.lost := rfl
@[simp] theorem withRst_restored (k : ResetSt) : (withRst s k).restored = s.restored := rfl
@[simp] theorem withRst_owner (k : ResetSt) : (withRst s k).owner = s.owner := rfl
@[simp] theorem withRst_ownCmd (k : ResetSt) : (withRst s k).ownCmd = s.ownCmd := rfl
@[simp] theorem withRst_ownAt (k : ResetSt) : (withRst s k).ownAt = s.ownAt := rfl
@[simp] theorem withRst_hlb (k : ResetSt) : (withRst s k).hlb = s.hlb := rfl
@[simp] theorem withRst_hubX (k : ResetSt) : (withRst s k).hubX = s.hubX := rfl
@[simp] theorem withRst_migr (k : ResetSt) : (withRst s k).migr = s.migr := rfl
@[simp] theorem withRst_hbm (k : ResetSt) : (withRst s k).hbm = s.hbm := rfl
@[simp] theorem withRst_memcfg (k : ResetSt) : (withRst s k).memcfg = s.memcfg := rfl
@[simp] theorem withRst_towers (k : ResetSt) : (withRst s k).towers = s.towers := rfl
@[simp] theorem withRst_flush (k : ResetSt) : (withRst s k).flush = s.flush := rfl
@[simp] theorem withRst_mortar (k : ResetSt) : (withRst s k).mortar = s.mortar := rfl
@[simp] theorem withRst_lintel (k : ResetSt) : (withRst s k).lintel = s.lintel := rfl
@[simp] theorem withRst_span (k : ResetSt) : (withRst s k).span = s.span := rfl
@[simp] theorem withRst_plumb (k : ResetSt) : (withRst s k).plumb = s.plumb := rfl
@[simp] theorem withRst_host (k : ResetSt) : (withRst s k).host = s.host := rfl
@[simp] theorem withRst_power (k : ResetSt) : (withRst s k).power = s.power := rfl
@[simp] theorem withRst_rst (k : ResetSt) : (withRst s k).rst = k := rfl
@[simp] theorem withRst_store (k : ResetSt) : (withRst s k).store = s.store := rfl
@[simp] theorem withRst_key (k : ResetSt) : (withRst s k).key = s.key := rfl
@[simp] theorem withRst_pins (k : ResetSt) : (withRst s k).pins = s.pins := rfl
@[simp] theorem withRst_pending (k : ResetSt) : (withRst s k).pending = s.pending := rfl

@[simp] theorem withStore_now (k : StoreSt) : (withStore s k).now = s.now := rfl
@[simp] theorem withStore_free (k : StoreSt) : (withStore s k).free = s.free := rfl
@[simp] theorem withStore_cores (k : StoreSt) : (withStore s k).cores = s.cores := rfl
@[simp] theorem withStore_queues (k : StoreSt) : (withStore s k).queues = s.queues := rfl
@[simp] theorem withStore_ctxs (k : StoreSt) : (withStore s k).ctxs = s.ctxs := rfl
@[simp] theorem withStore_lastPop (k : StoreSt) : (withStore s k).lastPop = s.lastPop := rfl
@[simp] theorem withStore_gangs (k : StoreSt) : (withStore s k).gangs = s.gangs := rfl
@[simp] theorem withStore_nextGang (k : StoreSt) : (withStore s k).nextGang = s.nextGang := rfl
@[simp] theorem withStore_schEpoch (k : StoreSt) : (withStore s k).schEpoch = s.schEpoch := rfl
@[simp] theorem withStore_schCfg (k : StoreSt) : (withStore s k).schCfg = s.schCfg := rfl
@[simp] theorem withStore_pools (k : StoreSt) : (withStore s k).pools = s.pools := rfl
@[simp] theorem withStore_poolEpoch (k : StoreSt) : (withStore s k).poolEpoch = s.poolEpoch := rfl
@[simp] theorem withStore_epochDue (k : StoreSt) : (withStore s k).epochDue = s.epochDue := rfl
@[simp] theorem withStore_lateEv (k : StoreSt) : (withStore s k).lateEv = s.lateEv := rfl
@[simp] theorem withStore_mem (k : StoreSt) : (withStore s k).mem = s.mem := rfl
@[simp] theorem withStore_lost (k : StoreSt) : (withStore s k).lost = s.lost := rfl
@[simp] theorem withStore_restored (k : StoreSt) : (withStore s k).restored = s.restored := rfl
@[simp] theorem withStore_owner (k : StoreSt) : (withStore s k).owner = s.owner := rfl
@[simp] theorem withStore_ownCmd (k : StoreSt) : (withStore s k).ownCmd = s.ownCmd := rfl
@[simp] theorem withStore_ownAt (k : StoreSt) : (withStore s k).ownAt = s.ownAt := rfl
@[simp] theorem withStore_hlb (k : StoreSt) : (withStore s k).hlb = s.hlb := rfl
@[simp] theorem withStore_hubX (k : StoreSt) : (withStore s k).hubX = s.hubX := rfl
@[simp] theorem withStore_migr (k : StoreSt) : (withStore s k).migr = s.migr := rfl
@[simp] theorem withStore_hbm (k : StoreSt) : (withStore s k).hbm = s.hbm := rfl
@[simp] theorem withStore_memcfg (k : StoreSt) : (withStore s k).memcfg = s.memcfg := rfl
@[simp] theorem withStore_towers (k : StoreSt) : (withStore s k).towers = s.towers := rfl
@[simp] theorem withStore_flush (k : StoreSt) : (withStore s k).flush = s.flush := rfl
@[simp] theorem withStore_mortar (k : StoreSt) : (withStore s k).mortar = s.mortar := rfl
@[simp] theorem withStore_lintel (k : StoreSt) : (withStore s k).lintel = s.lintel := rfl
@[simp] theorem withStore_span (k : StoreSt) : (withStore s k).span = s.span := rfl
@[simp] theorem withStore_plumb (k : StoreSt) : (withStore s k).plumb = s.plumb := rfl
@[simp] theorem withStore_host (k : StoreSt) : (withStore s k).host = s.host := rfl
@[simp] theorem withStore_power (k : StoreSt) : (withStore s k).power = s.power := rfl
@[simp] theorem withStore_rst (k : StoreSt) : (withStore s k).rst = s.rst := rfl
@[simp] theorem withStore_store (k : StoreSt) : (withStore s k).store = k := rfl
@[simp] theorem withStore_key (k : StoreSt) : (withStore s k).key = s.key := rfl
@[simp] theorem withStore_pins (k : StoreSt) : (withStore s k).pins = s.pins := rfl
@[simp] theorem withStore_pending (k : StoreSt) : (withStore s k).pending = s.pending := rfl

@[simp] theorem withKey_now (k : KeySt) : (withKey s k).now = s.now := rfl
@[simp] theorem withKey_free (k : KeySt) : (withKey s k).free = s.free := rfl
@[simp] theorem withKey_cores (k : KeySt) : (withKey s k).cores = s.cores := rfl
@[simp] theorem withKey_queues (k : KeySt) : (withKey s k).queues = s.queues := rfl
@[simp] theorem withKey_ctxs (k : KeySt) : (withKey s k).ctxs = s.ctxs := rfl
@[simp] theorem withKey_lastPop (k : KeySt) : (withKey s k).lastPop = s.lastPop := rfl
@[simp] theorem withKey_gangs (k : KeySt) : (withKey s k).gangs = s.gangs := rfl
@[simp] theorem withKey_nextGang (k : KeySt) : (withKey s k).nextGang = s.nextGang := rfl
@[simp] theorem withKey_schEpoch (k : KeySt) : (withKey s k).schEpoch = s.schEpoch := rfl
@[simp] theorem withKey_schCfg (k : KeySt) : (withKey s k).schCfg = s.schCfg := rfl
@[simp] theorem withKey_pools (k : KeySt) : (withKey s k).pools = s.pools := rfl
@[simp] theorem withKey_poolEpoch (k : KeySt) : (withKey s k).poolEpoch = s.poolEpoch := rfl
@[simp] theorem withKey_epochDue (k : KeySt) : (withKey s k).epochDue = s.epochDue := rfl
@[simp] theorem withKey_lateEv (k : KeySt) : (withKey s k).lateEv = s.lateEv := rfl
@[simp] theorem withKey_mem (k : KeySt) : (withKey s k).mem = s.mem := rfl
@[simp] theorem withKey_lost (k : KeySt) : (withKey s k).lost = s.lost := rfl
@[simp] theorem withKey_restored (k : KeySt) : (withKey s k).restored = s.restored := rfl
@[simp] theorem withKey_owner (k : KeySt) : (withKey s k).owner = s.owner := rfl
@[simp] theorem withKey_ownCmd (k : KeySt) : (withKey s k).ownCmd = s.ownCmd := rfl
@[simp] theorem withKey_ownAt (k : KeySt) : (withKey s k).ownAt = s.ownAt := rfl
@[simp] theorem withKey_hlb (k : KeySt) : (withKey s k).hlb = s.hlb := rfl
@[simp] theorem withKey_hubX (k : KeySt) : (withKey s k).hubX = s.hubX := rfl
@[simp] theorem withKey_migr (k : KeySt) : (withKey s k).migr = s.migr := rfl
@[simp] theorem withKey_hbm (k : KeySt) : (withKey s k).hbm = s.hbm := rfl
@[simp] theorem withKey_memcfg (k : KeySt) : (withKey s k).memcfg = s.memcfg := rfl
@[simp] theorem withKey_towers (k : KeySt) : (withKey s k).towers = s.towers := rfl
@[simp] theorem withKey_flush (k : KeySt) : (withKey s k).flush = s.flush := rfl
@[simp] theorem withKey_mortar (k : KeySt) : (withKey s k).mortar = s.mortar := rfl
@[simp] theorem withKey_lintel (k : KeySt) : (withKey s k).lintel = s.lintel := rfl
@[simp] theorem withKey_span (k : KeySt) : (withKey s k).span = s.span := rfl
@[simp] theorem withKey_plumb (k : KeySt) : (withKey s k).plumb = s.plumb := rfl
@[simp] theorem withKey_host (k : KeySt) : (withKey s k).host = s.host := rfl
@[simp] theorem withKey_power (k : KeySt) : (withKey s k).power = s.power := rfl
@[simp] theorem withKey_rst (k : KeySt) : (withKey s k).rst = s.rst := rfl
@[simp] theorem withKey_store (k : KeySt) : (withKey s k).store = s.store := rfl
@[simp] theorem withKey_key (k : KeySt) : (withKey s k).key = k := rfl
@[simp] theorem withKey_pins (k : KeySt) : (withKey s k).pins = s.pins := rfl
@[simp] theorem withKey_pending (k : KeySt) : (withKey s k).pending = s.pending := rfl

@[simp] theorem withPins_now (k : PinSt) : (withPins s k).now = s.now := rfl
@[simp] theorem withPins_free (k : PinSt) : (withPins s k).free = s.free := rfl
@[simp] theorem withPins_cores (k : PinSt) : (withPins s k).cores = s.cores := rfl
@[simp] theorem withPins_queues (k : PinSt) : (withPins s k).queues = s.queues := rfl
@[simp] theorem withPins_ctxs (k : PinSt) : (withPins s k).ctxs = s.ctxs := rfl
@[simp] theorem withPins_lastPop (k : PinSt) : (withPins s k).lastPop = s.lastPop := rfl
@[simp] theorem withPins_gangs (k : PinSt) : (withPins s k).gangs = s.gangs := rfl
@[simp] theorem withPins_nextGang (k : PinSt) : (withPins s k).nextGang = s.nextGang := rfl
@[simp] theorem withPins_schEpoch (k : PinSt) : (withPins s k).schEpoch = s.schEpoch := rfl
@[simp] theorem withPins_schCfg (k : PinSt) : (withPins s k).schCfg = s.schCfg := rfl
@[simp] theorem withPins_pools (k : PinSt) : (withPins s k).pools = s.pools := rfl
@[simp] theorem withPins_poolEpoch (k : PinSt) : (withPins s k).poolEpoch = s.poolEpoch := rfl
@[simp] theorem withPins_epochDue (k : PinSt) : (withPins s k).epochDue = s.epochDue := rfl
@[simp] theorem withPins_lateEv (k : PinSt) : (withPins s k).lateEv = s.lateEv := rfl
@[simp] theorem withPins_mem (k : PinSt) : (withPins s k).mem = s.mem := rfl
@[simp] theorem withPins_lost (k : PinSt) : (withPins s k).lost = s.lost := rfl
@[simp] theorem withPins_restored (k : PinSt) : (withPins s k).restored = s.restored := rfl
@[simp] theorem withPins_owner (k : PinSt) : (withPins s k).owner = s.owner := rfl
@[simp] theorem withPins_ownCmd (k : PinSt) : (withPins s k).ownCmd = s.ownCmd := rfl
@[simp] theorem withPins_ownAt (k : PinSt) : (withPins s k).ownAt = s.ownAt := rfl
@[simp] theorem withPins_hlb (k : PinSt) : (withPins s k).hlb = s.hlb := rfl
@[simp] theorem withPins_hubX (k : PinSt) : (withPins s k).hubX = s.hubX := rfl
@[simp] theorem withPins_migr (k : PinSt) : (withPins s k).migr = s.migr := rfl
@[simp] theorem withPins_hbm (k : PinSt) : (withPins s k).hbm = s.hbm := rfl
@[simp] theorem withPins_memcfg (k : PinSt) : (withPins s k).memcfg = s.memcfg := rfl
@[simp] theorem withPins_towers (k : PinSt) : (withPins s k).towers = s.towers := rfl
@[simp] theorem withPins_flush (k : PinSt) : (withPins s k).flush = s.flush := rfl
@[simp] theorem withPins_mortar (k : PinSt) : (withPins s k).mortar = s.mortar := rfl
@[simp] theorem withPins_lintel (k : PinSt) : (withPins s k).lintel = s.lintel := rfl
@[simp] theorem withPins_span (k : PinSt) : (withPins s k).span = s.span := rfl
@[simp] theorem withPins_plumb (k : PinSt) : (withPins s k).plumb = s.plumb := rfl
@[simp] theorem withPins_host (k : PinSt) : (withPins s k).host = s.host := rfl
@[simp] theorem withPins_power (k : PinSt) : (withPins s k).power = s.power := rfl
@[simp] theorem withPins_rst (k : PinSt) : (withPins s k).rst = s.rst := rfl
@[simp] theorem withPins_store (k : PinSt) : (withPins s k).store = s.store := rfl
@[simp] theorem withPins_key (k : PinSt) : (withPins s k).key = s.key := rfl
@[simp] theorem withPins_pins (k : PinSt) : (withPins s k).pins = k := rfl
@[simp] theorem withPins_pending (k : PinSt) : (withPins s k).pending = s.pending := rfl

@[simp] theorem withMem_now (k : List Host.Cell) : (withMem s k).now = s.now := rfl
@[simp] theorem withMem_free (k : List Host.Cell) : (withMem s k).free = s.free := rfl
@[simp] theorem withMem_cores (k : List Host.Cell) : (withMem s k).cores = s.cores := rfl
@[simp] theorem withMem_queues (k : List Host.Cell) : (withMem s k).queues = s.queues := rfl
@[simp] theorem withMem_ctxs (k : List Host.Cell) : (withMem s k).ctxs = s.ctxs := rfl
@[simp] theorem withMem_lastPop (k : List Host.Cell) : (withMem s k).lastPop = s.lastPop := rfl
@[simp] theorem withMem_gangs (k : List Host.Cell) : (withMem s k).gangs = s.gangs := rfl
@[simp] theorem withMem_nextGang (k : List Host.Cell) : (withMem s k).nextGang = s.nextGang := rfl
@[simp] theorem withMem_schEpoch (k : List Host.Cell) : (withMem s k).schEpoch = s.schEpoch := rfl
@[simp] theorem withMem_schCfg (k : List Host.Cell) : (withMem s k).schCfg = s.schCfg := rfl
@[simp] theorem withMem_pools (k : List Host.Cell) : (withMem s k).pools = s.pools := rfl
@[simp] theorem withMem_poolEpoch (k : List Host.Cell) : (withMem s k).poolEpoch = s.poolEpoch := rfl
@[simp] theorem withMem_epochDue (k : List Host.Cell) : (withMem s k).epochDue = s.epochDue := rfl
@[simp] theorem withMem_lateEv (k : List Host.Cell) : (withMem s k).lateEv = s.lateEv := rfl
@[simp] theorem withMem_mem (k : List Host.Cell) : (withMem s k).mem = k := rfl
@[simp] theorem withMem_lost (k : List Host.Cell) : (withMem s k).lost = s.lost := rfl
@[simp] theorem withMem_restored (k : List Host.Cell) : (withMem s k).restored = s.restored := rfl
@[simp] theorem withMem_owner (k : List Host.Cell) : (withMem s k).owner = s.owner := rfl
@[simp] theorem withMem_ownCmd (k : List Host.Cell) : (withMem s k).ownCmd = s.ownCmd := rfl
@[simp] theorem withMem_ownAt (k : List Host.Cell) : (withMem s k).ownAt = s.ownAt := rfl
@[simp] theorem withMem_hlb (k : List Host.Cell) : (withMem s k).hlb = s.hlb := rfl
@[simp] theorem withMem_hubX (k : List Host.Cell) : (withMem s k).hubX = s.hubX := rfl
@[simp] theorem withMem_migr (k : List Host.Cell) : (withMem s k).migr = s.migr := rfl
@[simp] theorem withMem_hbm (k : List Host.Cell) : (withMem s k).hbm = s.hbm := rfl
@[simp] theorem withMem_memcfg (k : List Host.Cell) : (withMem s k).memcfg = s.memcfg := rfl
@[simp] theorem withMem_towers (k : List Host.Cell) : (withMem s k).towers = s.towers := rfl
@[simp] theorem withMem_flush (k : List Host.Cell) : (withMem s k).flush = s.flush := rfl
@[simp] theorem withMem_mortar (k : List Host.Cell) : (withMem s k).mortar = s.mortar := rfl
@[simp] theorem withMem_lintel (k : List Host.Cell) : (withMem s k).lintel = s.lintel := rfl
@[simp] theorem withMem_span (k : List Host.Cell) : (withMem s k).span = s.span := rfl
@[simp] theorem withMem_plumb (k : List Host.Cell) : (withMem s k).plumb = s.plumb := rfl
@[simp] theorem withMem_host (k : List Host.Cell) : (withMem s k).host = s.host := rfl
@[simp] theorem withMem_power (k : List Host.Cell) : (withMem s k).power = s.power := rfl
@[simp] theorem withMem_rst (k : List Host.Cell) : (withMem s k).rst = s.rst := rfl
@[simp] theorem withMem_store (k : List Host.Cell) : (withMem s k).store = s.store := rfl
@[simp] theorem withMem_key (k : List Host.Cell) : (withMem s k).key = s.key := rfl
@[simp] theorem withMem_pins (k : List Host.Cell) : (withMem s k).pins = s.pins := rfl
@[simp] theorem withMem_pending (k : List Host.Cell) : (withMem s k).pending = s.pending := rfl

/-! ## Reading a part after an update -/

@[simp] theorem getCore_setCore_self (i : Nat) (k : CoreSt) : getCore (setCore s i k) i = k := tget_tset_self i k s.cores
theorem getCore_setCore_ne {i j : Nat} (k : CoreSt) (hj : j ≠ i) : getCore (setCore s i k) j = getCore s j :=
  tget_tset_ne k hj s.cores
@[simp] theorem getCore_modCore_self (i : Nat) (g : CoreSt → CoreSt) : getCore (modCore s i g) i = g (getCore s i) := tget_tset_self i _ s.cores
theorem getCore_modCore_ne {i j : Nat} (g : CoreSt → CoreSt) (hj : j ≠ i) : getCore (modCore s i g) j = getCore s j := tget_tset_ne _ hj s.cores
@[simp] theorem modCore_now (i : Nat) (g : CoreSt → CoreSt) : (modCore s i g).now = s.now := rfl
@[simp] theorem modCore_free (i : Nat) (g : CoreSt → CoreSt) : (modCore s i g).free = s.free := rfl
@[simp] theorem modCore_queues (i : Nat) (g : CoreSt → CoreSt) : (modCore s i g).queues = s.queues := rfl
@[simp] theorem modCore_ctxs (i : Nat) (g : CoreSt → CoreSt) : (modCore s i g).ctxs = s.ctxs := rfl
@[simp] theorem modCore_lastPop (i : Nat) (g : CoreSt → CoreSt) : (modCore s i g).lastPop = s.lastPop := rfl
@[simp] theorem modCore_gangs (i : Nat) (g : CoreSt → CoreSt) : (modCore s i g).gangs = s.gangs := rfl
@[simp] theorem modCore_nextGang (i : Nat) (g : CoreSt → CoreSt) : (modCore s i g).nextGang = s.nextGang := rfl
@[simp] theorem modCore_schEpoch (i : Nat) (g : CoreSt → CoreSt) : (modCore s i g).schEpoch = s.schEpoch := rfl
@[simp] theorem modCore_schCfg (i : Nat) (g : CoreSt → CoreSt) : (modCore s i g).schCfg = s.schCfg := rfl
@[simp] theorem modCore_pools (i : Nat) (g : CoreSt → CoreSt) : (modCore s i g).pools = s.pools := rfl
@[simp] theorem modCore_poolEpoch (i : Nat) (g : CoreSt → CoreSt) : (modCore s i g).poolEpoch = s.poolEpoch := rfl
@[simp] theorem modCore_epochDue (i : Nat) (g : CoreSt → CoreSt) : (modCore s i g).epochDue = s.epochDue := rfl
@[simp] theorem modCore_lateEv (i : Nat) (g : CoreSt → CoreSt) : (modCore s i g).lateEv = s.lateEv := rfl
@[simp] theorem modCore_mem (i : Nat) (g : CoreSt → CoreSt) : (modCore s i g).mem = s.mem := rfl
@[simp] theorem modCore_lost (i : Nat) (g : CoreSt → CoreSt) : (modCore s i g).lost = s.lost := rfl
@[simp] theorem modCore_restored (i : Nat) (g : CoreSt → CoreSt) : (modCore s i g).restored = s.restored := rfl
@[simp] theorem modCore_owner (i : Nat) (g : CoreSt → CoreSt) : (modCore s i g).owner = s.owner := rfl
@[simp] theorem modCore_ownCmd (i : Nat) (g : CoreSt → CoreSt) : (modCore s i g).ownCmd = s.ownCmd := rfl
@[simp] theorem modCore_ownAt (i : Nat) (g : CoreSt → CoreSt) : (modCore s i g).ownAt = s.ownAt := rfl
@[simp] theorem modCore_hlb (i : Nat) (g : CoreSt → CoreSt) : (modCore s i g).hlb = s.hlb := rfl
@[simp] theorem modCore_hubX (i : Nat) (g : CoreSt → CoreSt) : (modCore s i g).hubX = s.hubX := rfl
@[simp] theorem modCore_migr (i : Nat) (g : CoreSt → CoreSt) : (modCore s i g).migr = s.migr := rfl
@[simp] theorem modCore_hbm (i : Nat) (g : CoreSt → CoreSt) : (modCore s i g).hbm = s.hbm := rfl
@[simp] theorem modCore_memcfg (i : Nat) (g : CoreSt → CoreSt) : (modCore s i g).memcfg = s.memcfg := rfl
@[simp] theorem modCore_towers (i : Nat) (g : CoreSt → CoreSt) : (modCore s i g).towers = s.towers := rfl
@[simp] theorem modCore_flush (i : Nat) (g : CoreSt → CoreSt) : (modCore s i g).flush = s.flush := rfl
@[simp] theorem modCore_mortar (i : Nat) (g : CoreSt → CoreSt) : (modCore s i g).mortar = s.mortar := rfl
@[simp] theorem modCore_lintel (i : Nat) (g : CoreSt → CoreSt) : (modCore s i g).lintel = s.lintel := rfl
@[simp] theorem modCore_span (i : Nat) (g : CoreSt → CoreSt) : (modCore s i g).span = s.span := rfl
@[simp] theorem modCore_plumb (i : Nat) (g : CoreSt → CoreSt) : (modCore s i g).plumb = s.plumb := rfl
@[simp] theorem modCore_host (i : Nat) (g : CoreSt → CoreSt) : (modCore s i g).host = s.host := rfl
@[simp] theorem modCore_power (i : Nat) (g : CoreSt → CoreSt) : (modCore s i g).power = s.power := rfl
@[simp] theorem modCore_rst (i : Nat) (g : CoreSt → CoreSt) : (modCore s i g).rst = s.rst := rfl
@[simp] theorem modCore_store (i : Nat) (g : CoreSt → CoreSt) : (modCore s i g).store = s.store := rfl
@[simp] theorem modCore_key (i : Nat) (g : CoreSt → CoreSt) : (modCore s i g).key = s.key := rfl
@[simp] theorem modCore_pins (i : Nat) (g : CoreSt → CoreSt) : (modCore s i g).pins = s.pins := rfl
@[simp] theorem modCore_pending (i : Nat) (g : CoreSt → CoreSt) : (modCore s i g).pending = s.pending := rfl
@[simp] theorem getCore_setQueue (i : Nat) (q : Nat) (k : Queue) : getCore (setQueue s q k) i = getCore s i := rfl
@[simp] theorem getCore_setCtx (i : Nat) (x : Nat) (k : Ctx) : getCore (setCtx s x k) i = getCore s i := rfl
@[simp] theorem getCore_setPool (i : Nat) (p : Nat) (k : Pool) : getCore (setPool s p k) i = getCore s i := rfl
@[simp] theorem getCore_setHbm (i : Nat) (c : Nat) (k : HbmChan) : getCore (setHbm s c k) i = getCore s i := rfl
@[simp] theorem getCore_setTower (i : Nat) (t : Nat) (k : TowerSt) : getCore (setTower s t k) i = getCore s i := rfl
@[simp] theorem getCore_setMortar (i : Nat) (f : Nat) (k : Mortar) : getCore (setMortar s f k) i = getCore s i := rfl
@[simp] theorem getCore_setLintel (i : Nat) (l : Nat) (k : Lintel) : getCore (setLintel s l k) i = getCore s i := rfl
@[simp] theorem getCore_withSpan (i : Nat) (k : SpanSt) : getCore (withSpan s k) i = getCore s i := rfl
@[simp] theorem getCore_withPlumb (i : Nat) (k : PlumbSt) : getCore (withPlumb s k) i = getCore s i := rfl
@[simp] theorem getCore_withHost (i : Nat) (k : HostSt) : getCore (withHost s k) i = getCore s i := rfl
@[simp] theorem getCore_withPower (i : Nat) (k : PowerSt) : getCore (withPower s k) i = getCore s i := rfl
@[simp] theorem getCore_withRst (i : Nat) (k : ResetSt) : getCore (withRst s k) i = getCore s i := rfl
@[simp] theorem getCore_withStore (i : Nat) (k : StoreSt) : getCore (withStore s k) i = getCore s i := rfl
@[simp] theorem getCore_withKey (i : Nat) (k : KeySt) : getCore (withKey s k) i = getCore s i := rfl
@[simp] theorem getCore_withPins (i : Nat) (k : PinSt) : getCore (withPins s k) i = getCore s i := rfl
@[simp] theorem getCore_withMem (i : Nat) (k : List Host.Cell) : getCore (withMem s k) i = getCore s i := rfl

@[simp] theorem getQueue_setQueue_self (i : Nat) (k : Queue) : getQueue (setQueue s i k) i = k := tget_tset_self i k s.queues
theorem getQueue_setQueue_ne {i j : Nat} (k : Queue) (hj : j ≠ i) : getQueue (setQueue s i k) j = getQueue s j :=
  tget_tset_ne k hj s.queues
@[simp] theorem getQueue_modQueue_self (i : Nat) (g : Queue → Queue) : getQueue (modQueue s i g) i = g (getQueue s i) := tget_tset_self i _ s.queues
theorem getQueue_modQueue_ne {i j : Nat} (g : Queue → Queue) (hj : j ≠ i) : getQueue (modQueue s i g) j = getQueue s j := tget_tset_ne _ hj s.queues
@[simp] theorem modQueue_now (i : Nat) (g : Queue → Queue) : (modQueue s i g).now = s.now := rfl
@[simp] theorem modQueue_free (i : Nat) (g : Queue → Queue) : (modQueue s i g).free = s.free := rfl
@[simp] theorem modQueue_cores (i : Nat) (g : Queue → Queue) : (modQueue s i g).cores = s.cores := rfl
@[simp] theorem modQueue_ctxs (i : Nat) (g : Queue → Queue) : (modQueue s i g).ctxs = s.ctxs := rfl
@[simp] theorem modQueue_lastPop (i : Nat) (g : Queue → Queue) : (modQueue s i g).lastPop = s.lastPop := rfl
@[simp] theorem modQueue_gangs (i : Nat) (g : Queue → Queue) : (modQueue s i g).gangs = s.gangs := rfl
@[simp] theorem modQueue_nextGang (i : Nat) (g : Queue → Queue) : (modQueue s i g).nextGang = s.nextGang := rfl
@[simp] theorem modQueue_schEpoch (i : Nat) (g : Queue → Queue) : (modQueue s i g).schEpoch = s.schEpoch := rfl
@[simp] theorem modQueue_schCfg (i : Nat) (g : Queue → Queue) : (modQueue s i g).schCfg = s.schCfg := rfl
@[simp] theorem modQueue_pools (i : Nat) (g : Queue → Queue) : (modQueue s i g).pools = s.pools := rfl
@[simp] theorem modQueue_poolEpoch (i : Nat) (g : Queue → Queue) : (modQueue s i g).poolEpoch = s.poolEpoch := rfl
@[simp] theorem modQueue_epochDue (i : Nat) (g : Queue → Queue) : (modQueue s i g).epochDue = s.epochDue := rfl
@[simp] theorem modQueue_lateEv (i : Nat) (g : Queue → Queue) : (modQueue s i g).lateEv = s.lateEv := rfl
@[simp] theorem modQueue_mem (i : Nat) (g : Queue → Queue) : (modQueue s i g).mem = s.mem := rfl
@[simp] theorem modQueue_lost (i : Nat) (g : Queue → Queue) : (modQueue s i g).lost = s.lost := rfl
@[simp] theorem modQueue_restored (i : Nat) (g : Queue → Queue) : (modQueue s i g).restored = s.restored := rfl
@[simp] theorem modQueue_owner (i : Nat) (g : Queue → Queue) : (modQueue s i g).owner = s.owner := rfl
@[simp] theorem modQueue_ownCmd (i : Nat) (g : Queue → Queue) : (modQueue s i g).ownCmd = s.ownCmd := rfl
@[simp] theorem modQueue_ownAt (i : Nat) (g : Queue → Queue) : (modQueue s i g).ownAt = s.ownAt := rfl
@[simp] theorem modQueue_hlb (i : Nat) (g : Queue → Queue) : (modQueue s i g).hlb = s.hlb := rfl
@[simp] theorem modQueue_hubX (i : Nat) (g : Queue → Queue) : (modQueue s i g).hubX = s.hubX := rfl
@[simp] theorem modQueue_migr (i : Nat) (g : Queue → Queue) : (modQueue s i g).migr = s.migr := rfl
@[simp] theorem modQueue_hbm (i : Nat) (g : Queue → Queue) : (modQueue s i g).hbm = s.hbm := rfl
@[simp] theorem modQueue_memcfg (i : Nat) (g : Queue → Queue) : (modQueue s i g).memcfg = s.memcfg := rfl
@[simp] theorem modQueue_towers (i : Nat) (g : Queue → Queue) : (modQueue s i g).towers = s.towers := rfl
@[simp] theorem modQueue_flush (i : Nat) (g : Queue → Queue) : (modQueue s i g).flush = s.flush := rfl
@[simp] theorem modQueue_mortar (i : Nat) (g : Queue → Queue) : (modQueue s i g).mortar = s.mortar := rfl
@[simp] theorem modQueue_lintel (i : Nat) (g : Queue → Queue) : (modQueue s i g).lintel = s.lintel := rfl
@[simp] theorem modQueue_span (i : Nat) (g : Queue → Queue) : (modQueue s i g).span = s.span := rfl
@[simp] theorem modQueue_plumb (i : Nat) (g : Queue → Queue) : (modQueue s i g).plumb = s.plumb := rfl
@[simp] theorem modQueue_host (i : Nat) (g : Queue → Queue) : (modQueue s i g).host = s.host := rfl
@[simp] theorem modQueue_power (i : Nat) (g : Queue → Queue) : (modQueue s i g).power = s.power := rfl
@[simp] theorem modQueue_rst (i : Nat) (g : Queue → Queue) : (modQueue s i g).rst = s.rst := rfl
@[simp] theorem modQueue_store (i : Nat) (g : Queue → Queue) : (modQueue s i g).store = s.store := rfl
@[simp] theorem modQueue_key (i : Nat) (g : Queue → Queue) : (modQueue s i g).key = s.key := rfl
@[simp] theorem modQueue_pins (i : Nat) (g : Queue → Queue) : (modQueue s i g).pins = s.pins := rfl
@[simp] theorem modQueue_pending (i : Nat) (g : Queue → Queue) : (modQueue s i g).pending = s.pending := rfl
@[simp] theorem getQueue_setCore (i : Nat) (c : Nat) (k : CoreSt) : getQueue (setCore s c k) i = getQueue s i := rfl
@[simp] theorem getQueue_setCtx (i : Nat) (x : Nat) (k : Ctx) : getQueue (setCtx s x k) i = getQueue s i := rfl
@[simp] theorem getQueue_setPool (i : Nat) (p : Nat) (k : Pool) : getQueue (setPool s p k) i = getQueue s i := rfl
@[simp] theorem getQueue_setHbm (i : Nat) (c : Nat) (k : HbmChan) : getQueue (setHbm s c k) i = getQueue s i := rfl
@[simp] theorem getQueue_setTower (i : Nat) (t : Nat) (k : TowerSt) : getQueue (setTower s t k) i = getQueue s i := rfl
@[simp] theorem getQueue_setMortar (i : Nat) (f : Nat) (k : Mortar) : getQueue (setMortar s f k) i = getQueue s i := rfl
@[simp] theorem getQueue_setLintel (i : Nat) (l : Nat) (k : Lintel) : getQueue (setLintel s l k) i = getQueue s i := rfl
@[simp] theorem getQueue_withSpan (i : Nat) (k : SpanSt) : getQueue (withSpan s k) i = getQueue s i := rfl
@[simp] theorem getQueue_withPlumb (i : Nat) (k : PlumbSt) : getQueue (withPlumb s k) i = getQueue s i := rfl
@[simp] theorem getQueue_withHost (i : Nat) (k : HostSt) : getQueue (withHost s k) i = getQueue s i := rfl
@[simp] theorem getQueue_withPower (i : Nat) (k : PowerSt) : getQueue (withPower s k) i = getQueue s i := rfl
@[simp] theorem getQueue_withRst (i : Nat) (k : ResetSt) : getQueue (withRst s k) i = getQueue s i := rfl
@[simp] theorem getQueue_withStore (i : Nat) (k : StoreSt) : getQueue (withStore s k) i = getQueue s i := rfl
@[simp] theorem getQueue_withKey (i : Nat) (k : KeySt) : getQueue (withKey s k) i = getQueue s i := rfl
@[simp] theorem getQueue_withPins (i : Nat) (k : PinSt) : getQueue (withPins s k) i = getQueue s i := rfl
@[simp] theorem getQueue_withMem (i : Nat) (k : List Host.Cell) : getQueue (withMem s k) i = getQueue s i := rfl

@[simp] theorem getCtx_setCtx_self (i : Nat) (k : Ctx) : getCtx (setCtx s i k) i = k := tget_tset_self i k s.ctxs
theorem getCtx_setCtx_ne {i j : Nat} (k : Ctx) (hj : j ≠ i) : getCtx (setCtx s i k) j = getCtx s j :=
  tget_tset_ne k hj s.ctxs
@[simp] theorem getCtx_modCtx_self (i : Nat) (g : Ctx → Ctx) : getCtx (modCtx s i g) i = g (getCtx s i) := tget_tset_self i _ s.ctxs
theorem getCtx_modCtx_ne {i j : Nat} (g : Ctx → Ctx) (hj : j ≠ i) : getCtx (modCtx s i g) j = getCtx s j := tget_tset_ne _ hj s.ctxs
@[simp] theorem modCtx_now (i : Nat) (g : Ctx → Ctx) : (modCtx s i g).now = s.now := rfl
@[simp] theorem modCtx_free (i : Nat) (g : Ctx → Ctx) : (modCtx s i g).free = s.free := rfl
@[simp] theorem modCtx_cores (i : Nat) (g : Ctx → Ctx) : (modCtx s i g).cores = s.cores := rfl
@[simp] theorem modCtx_queues (i : Nat) (g : Ctx → Ctx) : (modCtx s i g).queues = s.queues := rfl
@[simp] theorem modCtx_lastPop (i : Nat) (g : Ctx → Ctx) : (modCtx s i g).lastPop = s.lastPop := rfl
@[simp] theorem modCtx_gangs (i : Nat) (g : Ctx → Ctx) : (modCtx s i g).gangs = s.gangs := rfl
@[simp] theorem modCtx_nextGang (i : Nat) (g : Ctx → Ctx) : (modCtx s i g).nextGang = s.nextGang := rfl
@[simp] theorem modCtx_schEpoch (i : Nat) (g : Ctx → Ctx) : (modCtx s i g).schEpoch = s.schEpoch := rfl
@[simp] theorem modCtx_schCfg (i : Nat) (g : Ctx → Ctx) : (modCtx s i g).schCfg = s.schCfg := rfl
@[simp] theorem modCtx_pools (i : Nat) (g : Ctx → Ctx) : (modCtx s i g).pools = s.pools := rfl
@[simp] theorem modCtx_poolEpoch (i : Nat) (g : Ctx → Ctx) : (modCtx s i g).poolEpoch = s.poolEpoch := rfl
@[simp] theorem modCtx_epochDue (i : Nat) (g : Ctx → Ctx) : (modCtx s i g).epochDue = s.epochDue := rfl
@[simp] theorem modCtx_lateEv (i : Nat) (g : Ctx → Ctx) : (modCtx s i g).lateEv = s.lateEv := rfl
@[simp] theorem modCtx_mem (i : Nat) (g : Ctx → Ctx) : (modCtx s i g).mem = s.mem := rfl
@[simp] theorem modCtx_lost (i : Nat) (g : Ctx → Ctx) : (modCtx s i g).lost = s.lost := rfl
@[simp] theorem modCtx_restored (i : Nat) (g : Ctx → Ctx) : (modCtx s i g).restored = s.restored := rfl
@[simp] theorem modCtx_owner (i : Nat) (g : Ctx → Ctx) : (modCtx s i g).owner = s.owner := rfl
@[simp] theorem modCtx_ownCmd (i : Nat) (g : Ctx → Ctx) : (modCtx s i g).ownCmd = s.ownCmd := rfl
@[simp] theorem modCtx_ownAt (i : Nat) (g : Ctx → Ctx) : (modCtx s i g).ownAt = s.ownAt := rfl
@[simp] theorem modCtx_hlb (i : Nat) (g : Ctx → Ctx) : (modCtx s i g).hlb = s.hlb := rfl
@[simp] theorem modCtx_hubX (i : Nat) (g : Ctx → Ctx) : (modCtx s i g).hubX = s.hubX := rfl
@[simp] theorem modCtx_migr (i : Nat) (g : Ctx → Ctx) : (modCtx s i g).migr = s.migr := rfl
@[simp] theorem modCtx_hbm (i : Nat) (g : Ctx → Ctx) : (modCtx s i g).hbm = s.hbm := rfl
@[simp] theorem modCtx_memcfg (i : Nat) (g : Ctx → Ctx) : (modCtx s i g).memcfg = s.memcfg := rfl
@[simp] theorem modCtx_towers (i : Nat) (g : Ctx → Ctx) : (modCtx s i g).towers = s.towers := rfl
@[simp] theorem modCtx_flush (i : Nat) (g : Ctx → Ctx) : (modCtx s i g).flush = s.flush := rfl
@[simp] theorem modCtx_mortar (i : Nat) (g : Ctx → Ctx) : (modCtx s i g).mortar = s.mortar := rfl
@[simp] theorem modCtx_lintel (i : Nat) (g : Ctx → Ctx) : (modCtx s i g).lintel = s.lintel := rfl
@[simp] theorem modCtx_span (i : Nat) (g : Ctx → Ctx) : (modCtx s i g).span = s.span := rfl
@[simp] theorem modCtx_plumb (i : Nat) (g : Ctx → Ctx) : (modCtx s i g).plumb = s.plumb := rfl
@[simp] theorem modCtx_host (i : Nat) (g : Ctx → Ctx) : (modCtx s i g).host = s.host := rfl
@[simp] theorem modCtx_power (i : Nat) (g : Ctx → Ctx) : (modCtx s i g).power = s.power := rfl
@[simp] theorem modCtx_rst (i : Nat) (g : Ctx → Ctx) : (modCtx s i g).rst = s.rst := rfl
@[simp] theorem modCtx_store (i : Nat) (g : Ctx → Ctx) : (modCtx s i g).store = s.store := rfl
@[simp] theorem modCtx_key (i : Nat) (g : Ctx → Ctx) : (modCtx s i g).key = s.key := rfl
@[simp] theorem modCtx_pins (i : Nat) (g : Ctx → Ctx) : (modCtx s i g).pins = s.pins := rfl
@[simp] theorem modCtx_pending (i : Nat) (g : Ctx → Ctx) : (modCtx s i g).pending = s.pending := rfl
@[simp] theorem getCtx_setCore (i : Nat) (c : Nat) (k : CoreSt) : getCtx (setCore s c k) i = getCtx s i := rfl
@[simp] theorem getCtx_setQueue (i : Nat) (q : Nat) (k : Queue) : getCtx (setQueue s q k) i = getCtx s i := rfl
@[simp] theorem getCtx_setPool (i : Nat) (p : Nat) (k : Pool) : getCtx (setPool s p k) i = getCtx s i := rfl
@[simp] theorem getCtx_setHbm (i : Nat) (c : Nat) (k : HbmChan) : getCtx (setHbm s c k) i = getCtx s i := rfl
@[simp] theorem getCtx_setTower (i : Nat) (t : Nat) (k : TowerSt) : getCtx (setTower s t k) i = getCtx s i := rfl
@[simp] theorem getCtx_setMortar (i : Nat) (f : Nat) (k : Mortar) : getCtx (setMortar s f k) i = getCtx s i := rfl
@[simp] theorem getCtx_setLintel (i : Nat) (l : Nat) (k : Lintel) : getCtx (setLintel s l k) i = getCtx s i := rfl
@[simp] theorem getCtx_withSpan (i : Nat) (k : SpanSt) : getCtx (withSpan s k) i = getCtx s i := rfl
@[simp] theorem getCtx_withPlumb (i : Nat) (k : PlumbSt) : getCtx (withPlumb s k) i = getCtx s i := rfl
@[simp] theorem getCtx_withHost (i : Nat) (k : HostSt) : getCtx (withHost s k) i = getCtx s i := rfl
@[simp] theorem getCtx_withPower (i : Nat) (k : PowerSt) : getCtx (withPower s k) i = getCtx s i := rfl
@[simp] theorem getCtx_withRst (i : Nat) (k : ResetSt) : getCtx (withRst s k) i = getCtx s i := rfl
@[simp] theorem getCtx_withStore (i : Nat) (k : StoreSt) : getCtx (withStore s k) i = getCtx s i := rfl
@[simp] theorem getCtx_withKey (i : Nat) (k : KeySt) : getCtx (withKey s k) i = getCtx s i := rfl
@[simp] theorem getCtx_withPins (i : Nat) (k : PinSt) : getCtx (withPins s k) i = getCtx s i := rfl
@[simp] theorem getCtx_withMem (i : Nat) (k : List Host.Cell) : getCtx (withMem s k) i = getCtx s i := rfl

@[simp] theorem getPool_setPool_self (i : Nat) (k : Pool) : getPool (setPool s i k) i = k := tget_tset_self i k s.pools
theorem getPool_setPool_ne {i j : Nat} (k : Pool) (hj : j ≠ i) : getPool (setPool s i k) j = getPool s j :=
  tget_tset_ne k hj s.pools
@[simp] theorem getPool_modPool_self (i : Nat) (g : Pool → Pool) : getPool (modPool s i g) i = g (getPool s i) := tget_tset_self i _ s.pools
theorem getPool_modPool_ne {i j : Nat} (g : Pool → Pool) (hj : j ≠ i) : getPool (modPool s i g) j = getPool s j := tget_tset_ne _ hj s.pools
@[simp] theorem modPool_now (i : Nat) (g : Pool → Pool) : (modPool s i g).now = s.now := rfl
@[simp] theorem modPool_free (i : Nat) (g : Pool → Pool) : (modPool s i g).free = s.free := rfl
@[simp] theorem modPool_cores (i : Nat) (g : Pool → Pool) : (modPool s i g).cores = s.cores := rfl
@[simp] theorem modPool_queues (i : Nat) (g : Pool → Pool) : (modPool s i g).queues = s.queues := rfl
@[simp] theorem modPool_ctxs (i : Nat) (g : Pool → Pool) : (modPool s i g).ctxs = s.ctxs := rfl
@[simp] theorem modPool_lastPop (i : Nat) (g : Pool → Pool) : (modPool s i g).lastPop = s.lastPop := rfl
@[simp] theorem modPool_gangs (i : Nat) (g : Pool → Pool) : (modPool s i g).gangs = s.gangs := rfl
@[simp] theorem modPool_nextGang (i : Nat) (g : Pool → Pool) : (modPool s i g).nextGang = s.nextGang := rfl
@[simp] theorem modPool_schEpoch (i : Nat) (g : Pool → Pool) : (modPool s i g).schEpoch = s.schEpoch := rfl
@[simp] theorem modPool_schCfg (i : Nat) (g : Pool → Pool) : (modPool s i g).schCfg = s.schCfg := rfl
@[simp] theorem modPool_poolEpoch (i : Nat) (g : Pool → Pool) : (modPool s i g).poolEpoch = s.poolEpoch := rfl
@[simp] theorem modPool_epochDue (i : Nat) (g : Pool → Pool) : (modPool s i g).epochDue = s.epochDue := rfl
@[simp] theorem modPool_lateEv (i : Nat) (g : Pool → Pool) : (modPool s i g).lateEv = s.lateEv := rfl
@[simp] theorem modPool_mem (i : Nat) (g : Pool → Pool) : (modPool s i g).mem = s.mem := rfl
@[simp] theorem modPool_lost (i : Nat) (g : Pool → Pool) : (modPool s i g).lost = s.lost := rfl
@[simp] theorem modPool_restored (i : Nat) (g : Pool → Pool) : (modPool s i g).restored = s.restored := rfl
@[simp] theorem modPool_owner (i : Nat) (g : Pool → Pool) : (modPool s i g).owner = s.owner := rfl
@[simp] theorem modPool_ownCmd (i : Nat) (g : Pool → Pool) : (modPool s i g).ownCmd = s.ownCmd := rfl
@[simp] theorem modPool_ownAt (i : Nat) (g : Pool → Pool) : (modPool s i g).ownAt = s.ownAt := rfl
@[simp] theorem modPool_hlb (i : Nat) (g : Pool → Pool) : (modPool s i g).hlb = s.hlb := rfl
@[simp] theorem modPool_hubX (i : Nat) (g : Pool → Pool) : (modPool s i g).hubX = s.hubX := rfl
@[simp] theorem modPool_migr (i : Nat) (g : Pool → Pool) : (modPool s i g).migr = s.migr := rfl
@[simp] theorem modPool_hbm (i : Nat) (g : Pool → Pool) : (modPool s i g).hbm = s.hbm := rfl
@[simp] theorem modPool_memcfg (i : Nat) (g : Pool → Pool) : (modPool s i g).memcfg = s.memcfg := rfl
@[simp] theorem modPool_towers (i : Nat) (g : Pool → Pool) : (modPool s i g).towers = s.towers := rfl
@[simp] theorem modPool_flush (i : Nat) (g : Pool → Pool) : (modPool s i g).flush = s.flush := rfl
@[simp] theorem modPool_mortar (i : Nat) (g : Pool → Pool) : (modPool s i g).mortar = s.mortar := rfl
@[simp] theorem modPool_lintel (i : Nat) (g : Pool → Pool) : (modPool s i g).lintel = s.lintel := rfl
@[simp] theorem modPool_span (i : Nat) (g : Pool → Pool) : (modPool s i g).span = s.span := rfl
@[simp] theorem modPool_plumb (i : Nat) (g : Pool → Pool) : (modPool s i g).plumb = s.plumb := rfl
@[simp] theorem modPool_host (i : Nat) (g : Pool → Pool) : (modPool s i g).host = s.host := rfl
@[simp] theorem modPool_power (i : Nat) (g : Pool → Pool) : (modPool s i g).power = s.power := rfl
@[simp] theorem modPool_rst (i : Nat) (g : Pool → Pool) : (modPool s i g).rst = s.rst := rfl
@[simp] theorem modPool_store (i : Nat) (g : Pool → Pool) : (modPool s i g).store = s.store := rfl
@[simp] theorem modPool_key (i : Nat) (g : Pool → Pool) : (modPool s i g).key = s.key := rfl
@[simp] theorem modPool_pins (i : Nat) (g : Pool → Pool) : (modPool s i g).pins = s.pins := rfl
@[simp] theorem modPool_pending (i : Nat) (g : Pool → Pool) : (modPool s i g).pending = s.pending := rfl
@[simp] theorem getPool_setCore (i : Nat) (c : Nat) (k : CoreSt) : getPool (setCore s c k) i = getPool s i := rfl
@[simp] theorem getPool_setQueue (i : Nat) (q : Nat) (k : Queue) : getPool (setQueue s q k) i = getPool s i := rfl
@[simp] theorem getPool_setCtx (i : Nat) (x : Nat) (k : Ctx) : getPool (setCtx s x k) i = getPool s i := rfl
@[simp] theorem getPool_setHbm (i : Nat) (c : Nat) (k : HbmChan) : getPool (setHbm s c k) i = getPool s i := rfl
@[simp] theorem getPool_setTower (i : Nat) (t : Nat) (k : TowerSt) : getPool (setTower s t k) i = getPool s i := rfl
@[simp] theorem getPool_setMortar (i : Nat) (f : Nat) (k : Mortar) : getPool (setMortar s f k) i = getPool s i := rfl
@[simp] theorem getPool_setLintel (i : Nat) (l : Nat) (k : Lintel) : getPool (setLintel s l k) i = getPool s i := rfl
@[simp] theorem getPool_withSpan (i : Nat) (k : SpanSt) : getPool (withSpan s k) i = getPool s i := rfl
@[simp] theorem getPool_withPlumb (i : Nat) (k : PlumbSt) : getPool (withPlumb s k) i = getPool s i := rfl
@[simp] theorem getPool_withHost (i : Nat) (k : HostSt) : getPool (withHost s k) i = getPool s i := rfl
@[simp] theorem getPool_withPower (i : Nat) (k : PowerSt) : getPool (withPower s k) i = getPool s i := rfl
@[simp] theorem getPool_withRst (i : Nat) (k : ResetSt) : getPool (withRst s k) i = getPool s i := rfl
@[simp] theorem getPool_withStore (i : Nat) (k : StoreSt) : getPool (withStore s k) i = getPool s i := rfl
@[simp] theorem getPool_withKey (i : Nat) (k : KeySt) : getPool (withKey s k) i = getPool s i := rfl
@[simp] theorem getPool_withPins (i : Nat) (k : PinSt) : getPool (withPins s k) i = getPool s i := rfl
@[simp] theorem getPool_withMem (i : Nat) (k : List Host.Cell) : getPool (withMem s k) i = getPool s i := rfl

@[simp] theorem getHbm_setHbm_self (i : Nat) (k : HbmChan) : getHbm (setHbm s i k) i = k := tget_tset_self i k s.hbm
theorem getHbm_setHbm_ne {i j : Nat} (k : HbmChan) (hj : j ≠ i) : getHbm (setHbm s i k) j = getHbm s j :=
  tget_tset_ne k hj s.hbm
@[simp] theorem getHbm_modHbm_self (i : Nat) (g : HbmChan → HbmChan) : getHbm (modHbm s i g) i = g (getHbm s i) := tget_tset_self i _ s.hbm
theorem getHbm_modHbm_ne {i j : Nat} (g : HbmChan → HbmChan) (hj : j ≠ i) : getHbm (modHbm s i g) j = getHbm s j := tget_tset_ne _ hj s.hbm
@[simp] theorem modHbm_now (i : Nat) (g : HbmChan → HbmChan) : (modHbm s i g).now = s.now := rfl
@[simp] theorem modHbm_free (i : Nat) (g : HbmChan → HbmChan) : (modHbm s i g).free = s.free := rfl
@[simp] theorem modHbm_cores (i : Nat) (g : HbmChan → HbmChan) : (modHbm s i g).cores = s.cores := rfl
@[simp] theorem modHbm_queues (i : Nat) (g : HbmChan → HbmChan) : (modHbm s i g).queues = s.queues := rfl
@[simp] theorem modHbm_ctxs (i : Nat) (g : HbmChan → HbmChan) : (modHbm s i g).ctxs = s.ctxs := rfl
@[simp] theorem modHbm_lastPop (i : Nat) (g : HbmChan → HbmChan) : (modHbm s i g).lastPop = s.lastPop := rfl
@[simp] theorem modHbm_gangs (i : Nat) (g : HbmChan → HbmChan) : (modHbm s i g).gangs = s.gangs := rfl
@[simp] theorem modHbm_nextGang (i : Nat) (g : HbmChan → HbmChan) : (modHbm s i g).nextGang = s.nextGang := rfl
@[simp] theorem modHbm_schEpoch (i : Nat) (g : HbmChan → HbmChan) : (modHbm s i g).schEpoch = s.schEpoch := rfl
@[simp] theorem modHbm_schCfg (i : Nat) (g : HbmChan → HbmChan) : (modHbm s i g).schCfg = s.schCfg := rfl
@[simp] theorem modHbm_pools (i : Nat) (g : HbmChan → HbmChan) : (modHbm s i g).pools = s.pools := rfl
@[simp] theorem modHbm_poolEpoch (i : Nat) (g : HbmChan → HbmChan) : (modHbm s i g).poolEpoch = s.poolEpoch := rfl
@[simp] theorem modHbm_epochDue (i : Nat) (g : HbmChan → HbmChan) : (modHbm s i g).epochDue = s.epochDue := rfl
@[simp] theorem modHbm_lateEv (i : Nat) (g : HbmChan → HbmChan) : (modHbm s i g).lateEv = s.lateEv := rfl
@[simp] theorem modHbm_mem (i : Nat) (g : HbmChan → HbmChan) : (modHbm s i g).mem = s.mem := rfl
@[simp] theorem modHbm_lost (i : Nat) (g : HbmChan → HbmChan) : (modHbm s i g).lost = s.lost := rfl
@[simp] theorem modHbm_restored (i : Nat) (g : HbmChan → HbmChan) : (modHbm s i g).restored = s.restored := rfl
@[simp] theorem modHbm_owner (i : Nat) (g : HbmChan → HbmChan) : (modHbm s i g).owner = s.owner := rfl
@[simp] theorem modHbm_ownCmd (i : Nat) (g : HbmChan → HbmChan) : (modHbm s i g).ownCmd = s.ownCmd := rfl
@[simp] theorem modHbm_ownAt (i : Nat) (g : HbmChan → HbmChan) : (modHbm s i g).ownAt = s.ownAt := rfl
@[simp] theorem modHbm_hlb (i : Nat) (g : HbmChan → HbmChan) : (modHbm s i g).hlb = s.hlb := rfl
@[simp] theorem modHbm_hubX (i : Nat) (g : HbmChan → HbmChan) : (modHbm s i g).hubX = s.hubX := rfl
@[simp] theorem modHbm_migr (i : Nat) (g : HbmChan → HbmChan) : (modHbm s i g).migr = s.migr := rfl
@[simp] theorem modHbm_memcfg (i : Nat) (g : HbmChan → HbmChan) : (modHbm s i g).memcfg = s.memcfg := rfl
@[simp] theorem modHbm_towers (i : Nat) (g : HbmChan → HbmChan) : (modHbm s i g).towers = s.towers := rfl
@[simp] theorem modHbm_flush (i : Nat) (g : HbmChan → HbmChan) : (modHbm s i g).flush = s.flush := rfl
@[simp] theorem modHbm_mortar (i : Nat) (g : HbmChan → HbmChan) : (modHbm s i g).mortar = s.mortar := rfl
@[simp] theorem modHbm_lintel (i : Nat) (g : HbmChan → HbmChan) : (modHbm s i g).lintel = s.lintel := rfl
@[simp] theorem modHbm_span (i : Nat) (g : HbmChan → HbmChan) : (modHbm s i g).span = s.span := rfl
@[simp] theorem modHbm_plumb (i : Nat) (g : HbmChan → HbmChan) : (modHbm s i g).plumb = s.plumb := rfl
@[simp] theorem modHbm_host (i : Nat) (g : HbmChan → HbmChan) : (modHbm s i g).host = s.host := rfl
@[simp] theorem modHbm_power (i : Nat) (g : HbmChan → HbmChan) : (modHbm s i g).power = s.power := rfl
@[simp] theorem modHbm_rst (i : Nat) (g : HbmChan → HbmChan) : (modHbm s i g).rst = s.rst := rfl
@[simp] theorem modHbm_store (i : Nat) (g : HbmChan → HbmChan) : (modHbm s i g).store = s.store := rfl
@[simp] theorem modHbm_key (i : Nat) (g : HbmChan → HbmChan) : (modHbm s i g).key = s.key := rfl
@[simp] theorem modHbm_pins (i : Nat) (g : HbmChan → HbmChan) : (modHbm s i g).pins = s.pins := rfl
@[simp] theorem modHbm_pending (i : Nat) (g : HbmChan → HbmChan) : (modHbm s i g).pending = s.pending := rfl
@[simp] theorem getHbm_setCore (i : Nat) (c : Nat) (k : CoreSt) : getHbm (setCore s c k) i = getHbm s i := rfl
@[simp] theorem getHbm_setQueue (i : Nat) (q : Nat) (k : Queue) : getHbm (setQueue s q k) i = getHbm s i := rfl
@[simp] theorem getHbm_setCtx (i : Nat) (x : Nat) (k : Ctx) : getHbm (setCtx s x k) i = getHbm s i := rfl
@[simp] theorem getHbm_setPool (i : Nat) (p : Nat) (k : Pool) : getHbm (setPool s p k) i = getHbm s i := rfl
@[simp] theorem getHbm_setTower (i : Nat) (t : Nat) (k : TowerSt) : getHbm (setTower s t k) i = getHbm s i := rfl
@[simp] theorem getHbm_setMortar (i : Nat) (f : Nat) (k : Mortar) : getHbm (setMortar s f k) i = getHbm s i := rfl
@[simp] theorem getHbm_setLintel (i : Nat) (l : Nat) (k : Lintel) : getHbm (setLintel s l k) i = getHbm s i := rfl
@[simp] theorem getHbm_withSpan (i : Nat) (k : SpanSt) : getHbm (withSpan s k) i = getHbm s i := rfl
@[simp] theorem getHbm_withPlumb (i : Nat) (k : PlumbSt) : getHbm (withPlumb s k) i = getHbm s i := rfl
@[simp] theorem getHbm_withHost (i : Nat) (k : HostSt) : getHbm (withHost s k) i = getHbm s i := rfl
@[simp] theorem getHbm_withPower (i : Nat) (k : PowerSt) : getHbm (withPower s k) i = getHbm s i := rfl
@[simp] theorem getHbm_withRst (i : Nat) (k : ResetSt) : getHbm (withRst s k) i = getHbm s i := rfl
@[simp] theorem getHbm_withStore (i : Nat) (k : StoreSt) : getHbm (withStore s k) i = getHbm s i := rfl
@[simp] theorem getHbm_withKey (i : Nat) (k : KeySt) : getHbm (withKey s k) i = getHbm s i := rfl
@[simp] theorem getHbm_withPins (i : Nat) (k : PinSt) : getHbm (withPins s k) i = getHbm s i := rfl
@[simp] theorem getHbm_withMem (i : Nat) (k : List Host.Cell) : getHbm (withMem s k) i = getHbm s i := rfl

@[simp] theorem getTower_setTower_self (i : Nat) (k : TowerSt) : getTower (setTower s i k) i = k := tget_tset_self i k s.towers
theorem getTower_setTower_ne {i j : Nat} (k : TowerSt) (hj : j ≠ i) : getTower (setTower s i k) j = getTower s j :=
  tget_tset_ne k hj s.towers
@[simp] theorem getTower_modTower_self (i : Nat) (g : TowerSt → TowerSt) : getTower (modTower s i g) i = g (getTower s i) := tget_tset_self i _ s.towers
theorem getTower_modTower_ne {i j : Nat} (g : TowerSt → TowerSt) (hj : j ≠ i) : getTower (modTower s i g) j = getTower s j := tget_tset_ne _ hj s.towers
@[simp] theorem modTower_now (i : Nat) (g : TowerSt → TowerSt) : (modTower s i g).now = s.now := rfl
@[simp] theorem modTower_free (i : Nat) (g : TowerSt → TowerSt) : (modTower s i g).free = s.free := rfl
@[simp] theorem modTower_cores (i : Nat) (g : TowerSt → TowerSt) : (modTower s i g).cores = s.cores := rfl
@[simp] theorem modTower_queues (i : Nat) (g : TowerSt → TowerSt) : (modTower s i g).queues = s.queues := rfl
@[simp] theorem modTower_ctxs (i : Nat) (g : TowerSt → TowerSt) : (modTower s i g).ctxs = s.ctxs := rfl
@[simp] theorem modTower_lastPop (i : Nat) (g : TowerSt → TowerSt) : (modTower s i g).lastPop = s.lastPop := rfl
@[simp] theorem modTower_gangs (i : Nat) (g : TowerSt → TowerSt) : (modTower s i g).gangs = s.gangs := rfl
@[simp] theorem modTower_nextGang (i : Nat) (g : TowerSt → TowerSt) : (modTower s i g).nextGang = s.nextGang := rfl
@[simp] theorem modTower_schEpoch (i : Nat) (g : TowerSt → TowerSt) : (modTower s i g).schEpoch = s.schEpoch := rfl
@[simp] theorem modTower_schCfg (i : Nat) (g : TowerSt → TowerSt) : (modTower s i g).schCfg = s.schCfg := rfl
@[simp] theorem modTower_pools (i : Nat) (g : TowerSt → TowerSt) : (modTower s i g).pools = s.pools := rfl
@[simp] theorem modTower_poolEpoch (i : Nat) (g : TowerSt → TowerSt) : (modTower s i g).poolEpoch = s.poolEpoch := rfl
@[simp] theorem modTower_epochDue (i : Nat) (g : TowerSt → TowerSt) : (modTower s i g).epochDue = s.epochDue := rfl
@[simp] theorem modTower_lateEv (i : Nat) (g : TowerSt → TowerSt) : (modTower s i g).lateEv = s.lateEv := rfl
@[simp] theorem modTower_mem (i : Nat) (g : TowerSt → TowerSt) : (modTower s i g).mem = s.mem := rfl
@[simp] theorem modTower_lost (i : Nat) (g : TowerSt → TowerSt) : (modTower s i g).lost = s.lost := rfl
@[simp] theorem modTower_restored (i : Nat) (g : TowerSt → TowerSt) : (modTower s i g).restored = s.restored := rfl
@[simp] theorem modTower_owner (i : Nat) (g : TowerSt → TowerSt) : (modTower s i g).owner = s.owner := rfl
@[simp] theorem modTower_ownCmd (i : Nat) (g : TowerSt → TowerSt) : (modTower s i g).ownCmd = s.ownCmd := rfl
@[simp] theorem modTower_ownAt (i : Nat) (g : TowerSt → TowerSt) : (modTower s i g).ownAt = s.ownAt := rfl
@[simp] theorem modTower_hlb (i : Nat) (g : TowerSt → TowerSt) : (modTower s i g).hlb = s.hlb := rfl
@[simp] theorem modTower_hubX (i : Nat) (g : TowerSt → TowerSt) : (modTower s i g).hubX = s.hubX := rfl
@[simp] theorem modTower_migr (i : Nat) (g : TowerSt → TowerSt) : (modTower s i g).migr = s.migr := rfl
@[simp] theorem modTower_hbm (i : Nat) (g : TowerSt → TowerSt) : (modTower s i g).hbm = s.hbm := rfl
@[simp] theorem modTower_memcfg (i : Nat) (g : TowerSt → TowerSt) : (modTower s i g).memcfg = s.memcfg := rfl
@[simp] theorem modTower_flush (i : Nat) (g : TowerSt → TowerSt) : (modTower s i g).flush = s.flush := rfl
@[simp] theorem modTower_mortar (i : Nat) (g : TowerSt → TowerSt) : (modTower s i g).mortar = s.mortar := rfl
@[simp] theorem modTower_lintel (i : Nat) (g : TowerSt → TowerSt) : (modTower s i g).lintel = s.lintel := rfl
@[simp] theorem modTower_span (i : Nat) (g : TowerSt → TowerSt) : (modTower s i g).span = s.span := rfl
@[simp] theorem modTower_plumb (i : Nat) (g : TowerSt → TowerSt) : (modTower s i g).plumb = s.plumb := rfl
@[simp] theorem modTower_host (i : Nat) (g : TowerSt → TowerSt) : (modTower s i g).host = s.host := rfl
@[simp] theorem modTower_power (i : Nat) (g : TowerSt → TowerSt) : (modTower s i g).power = s.power := rfl
@[simp] theorem modTower_rst (i : Nat) (g : TowerSt → TowerSt) : (modTower s i g).rst = s.rst := rfl
@[simp] theorem modTower_store (i : Nat) (g : TowerSt → TowerSt) : (modTower s i g).store = s.store := rfl
@[simp] theorem modTower_key (i : Nat) (g : TowerSt → TowerSt) : (modTower s i g).key = s.key := rfl
@[simp] theorem modTower_pins (i : Nat) (g : TowerSt → TowerSt) : (modTower s i g).pins = s.pins := rfl
@[simp] theorem modTower_pending (i : Nat) (g : TowerSt → TowerSt) : (modTower s i g).pending = s.pending := rfl
@[simp] theorem getTower_setCore (i : Nat) (c : Nat) (k : CoreSt) : getTower (setCore s c k) i = getTower s i := rfl
@[simp] theorem getTower_setQueue (i : Nat) (q : Nat) (k : Queue) : getTower (setQueue s q k) i = getTower s i := rfl
@[simp] theorem getTower_setCtx (i : Nat) (x : Nat) (k : Ctx) : getTower (setCtx s x k) i = getTower s i := rfl
@[simp] theorem getTower_setPool (i : Nat) (p : Nat) (k : Pool) : getTower (setPool s p k) i = getTower s i := rfl
@[simp] theorem getTower_setHbm (i : Nat) (c : Nat) (k : HbmChan) : getTower (setHbm s c k) i = getTower s i := rfl
@[simp] theorem getTower_setMortar (i : Nat) (f : Nat) (k : Mortar) : getTower (setMortar s f k) i = getTower s i := rfl
@[simp] theorem getTower_setLintel (i : Nat) (l : Nat) (k : Lintel) : getTower (setLintel s l k) i = getTower s i := rfl
@[simp] theorem getTower_withSpan (i : Nat) (k : SpanSt) : getTower (withSpan s k) i = getTower s i := rfl
@[simp] theorem getTower_withPlumb (i : Nat) (k : PlumbSt) : getTower (withPlumb s k) i = getTower s i := rfl
@[simp] theorem getTower_withHost (i : Nat) (k : HostSt) : getTower (withHost s k) i = getTower s i := rfl
@[simp] theorem getTower_withPower (i : Nat) (k : PowerSt) : getTower (withPower s k) i = getTower s i := rfl
@[simp] theorem getTower_withRst (i : Nat) (k : ResetSt) : getTower (withRst s k) i = getTower s i := rfl
@[simp] theorem getTower_withStore (i : Nat) (k : StoreSt) : getTower (withStore s k) i = getTower s i := rfl
@[simp] theorem getTower_withKey (i : Nat) (k : KeySt) : getTower (withKey s k) i = getTower s i := rfl
@[simp] theorem getTower_withPins (i : Nat) (k : PinSt) : getTower (withPins s k) i = getTower s i := rfl
@[simp] theorem getTower_withMem (i : Nat) (k : List Host.Cell) : getTower (withMem s k) i = getTower s i := rfl

@[simp] theorem getMortar_setMortar_self (i : Nat) (k : Mortar) : getMortar (setMortar s i k) i = k := tget_tset_self i k s.mortar
theorem getMortar_setMortar_ne {i j : Nat} (k : Mortar) (hj : j ≠ i) : getMortar (setMortar s i k) j = getMortar s j :=
  tget_tset_ne k hj s.mortar
@[simp] theorem getMortar_setCore (i : Nat) (c : Nat) (k : CoreSt) : getMortar (setCore s c k) i = getMortar s i := rfl
@[simp] theorem getMortar_setQueue (i : Nat) (q : Nat) (k : Queue) : getMortar (setQueue s q k) i = getMortar s i := rfl
@[simp] theorem getMortar_setCtx (i : Nat) (x : Nat) (k : Ctx) : getMortar (setCtx s x k) i = getMortar s i := rfl
@[simp] theorem getMortar_setPool (i : Nat) (p : Nat) (k : Pool) : getMortar (setPool s p k) i = getMortar s i := rfl
@[simp] theorem getMortar_setHbm (i : Nat) (c : Nat) (k : HbmChan) : getMortar (setHbm s c k) i = getMortar s i := rfl
@[simp] theorem getMortar_setTower (i : Nat) (t : Nat) (k : TowerSt) : getMortar (setTower s t k) i = getMortar s i := rfl
@[simp] theorem getMortar_setLintel (i : Nat) (l : Nat) (k : Lintel) : getMortar (setLintel s l k) i = getMortar s i := rfl
@[simp] theorem getMortar_withSpan (i : Nat) (k : SpanSt) : getMortar (withSpan s k) i = getMortar s i := rfl
@[simp] theorem getMortar_withPlumb (i : Nat) (k : PlumbSt) : getMortar (withPlumb s k) i = getMortar s i := rfl
@[simp] theorem getMortar_withHost (i : Nat) (k : HostSt) : getMortar (withHost s k) i = getMortar s i := rfl
@[simp] theorem getMortar_withPower (i : Nat) (k : PowerSt) : getMortar (withPower s k) i = getMortar s i := rfl
@[simp] theorem getMortar_withRst (i : Nat) (k : ResetSt) : getMortar (withRst s k) i = getMortar s i := rfl
@[simp] theorem getMortar_withStore (i : Nat) (k : StoreSt) : getMortar (withStore s k) i = getMortar s i := rfl
@[simp] theorem getMortar_withKey (i : Nat) (k : KeySt) : getMortar (withKey s k) i = getMortar s i := rfl
@[simp] theorem getMortar_withPins (i : Nat) (k : PinSt) : getMortar (withPins s k) i = getMortar s i := rfl
@[simp] theorem getMortar_withMem (i : Nat) (k : List Host.Cell) : getMortar (withMem s k) i = getMortar s i := rfl

@[simp] theorem getLintel_setLintel_self (i : Nat) (k : Lintel) : getLintel (setLintel s i k) i = k := tget_tset_self i k s.lintel
theorem getLintel_setLintel_ne {i j : Nat} (k : Lintel) (hj : j ≠ i) : getLintel (setLintel s i k) j = getLintel s j :=
  tget_tset_ne k hj s.lintel
@[simp] theorem getLintel_setCore (i : Nat) (c : Nat) (k : CoreSt) : getLintel (setCore s c k) i = getLintel s i := rfl
@[simp] theorem getLintel_setQueue (i : Nat) (q : Nat) (k : Queue) : getLintel (setQueue s q k) i = getLintel s i := rfl
@[simp] theorem getLintel_setCtx (i : Nat) (x : Nat) (k : Ctx) : getLintel (setCtx s x k) i = getLintel s i := rfl
@[simp] theorem getLintel_setPool (i : Nat) (p : Nat) (k : Pool) : getLintel (setPool s p k) i = getLintel s i := rfl
@[simp] theorem getLintel_setHbm (i : Nat) (c : Nat) (k : HbmChan) : getLintel (setHbm s c k) i = getLintel s i := rfl
@[simp] theorem getLintel_setTower (i : Nat) (t : Nat) (k : TowerSt) : getLintel (setTower s t k) i = getLintel s i := rfl
@[simp] theorem getLintel_setMortar (i : Nat) (f : Nat) (k : Mortar) : getLintel (setMortar s f k) i = getLintel s i := rfl
@[simp] theorem getLintel_withSpan (i : Nat) (k : SpanSt) : getLintel (withSpan s k) i = getLintel s i := rfl
@[simp] theorem getLintel_withPlumb (i : Nat) (k : PlumbSt) : getLintel (withPlumb s k) i = getLintel s i := rfl
@[simp] theorem getLintel_withHost (i : Nat) (k : HostSt) : getLintel (withHost s k) i = getLintel s i := rfl
@[simp] theorem getLintel_withPower (i : Nat) (k : PowerSt) : getLintel (withPower s k) i = getLintel s i := rfl
@[simp] theorem getLintel_withRst (i : Nat) (k : ResetSt) : getLintel (withRst s k) i = getLintel s i := rfl
@[simp] theorem getLintel_withStore (i : Nat) (k : StoreSt) : getLintel (withStore s k) i = getLintel s i := rfl
@[simp] theorem getLintel_withKey (i : Nat) (k : KeySt) : getLintel (withKey s k) i = getLintel s i := rfl
@[simp] theorem getLintel_withPins (i : Nat) (k : PinSt) : getLintel (withPins s k) i = getLintel s i := rfl
@[simp] theorem getLintel_withMem (i : Nat) (k : List Host.Cell) : getLintel (withMem s k) i = getLintel s i := rfl

@[simp] theorem getPort_setPort_self (i : Nat) (k : PortSt) : getPort (setPort s i k) i = k := tget_tset_self i k s.span.ports
theorem getPort_setPort_ne {i j : Nat} (k : PortSt) (hj : j ≠ i) : getPort (setPort s i k) j = getPort s j := tget_tset_ne k hj s.span.ports
@[simp] theorem getPort_setCore (i : Nat) (c : Nat) (k : CoreSt) : getPort (setCore s c k) i = getPort s i := rfl
@[simp] theorem getPort_setQueue (i : Nat) (q : Nat) (k : Queue) : getPort (setQueue s q k) i = getPort s i := rfl
@[simp] theorem getPort_setCtx (i : Nat) (x : Nat) (k : Ctx) : getPort (setCtx s x k) i = getPort s i := rfl
@[simp] theorem getPort_setPool (i : Nat) (p : Nat) (k : Pool) : getPort (setPool s p k) i = getPort s i := rfl
@[simp] theorem getPort_setHbm (i : Nat) (c : Nat) (k : HbmChan) : getPort (setHbm s c k) i = getPort s i := rfl
@[simp] theorem getPort_setTower (i : Nat) (t : Nat) (k : TowerSt) : getPort (setTower s t k) i = getPort s i := rfl
@[simp] theorem getPort_setMortar (i : Nat) (f : Nat) (k : Mortar) : getPort (setMortar s f k) i = getPort s i := rfl
@[simp] theorem getPort_setLintel (i : Nat) (l : Nat) (k : Lintel) : getPort (setLintel s l k) i = getPort s i := rfl
@[simp] theorem getPort_withPlumb (i : Nat) (k : PlumbSt) : getPort (withPlumb s k) i = getPort s i := rfl
@[simp] theorem getPort_withHost (i : Nat) (k : HostSt) : getPort (withHost s k) i = getPort s i := rfl
@[simp] theorem getPort_withPower (i : Nat) (k : PowerSt) : getPort (withPower s k) i = getPort s i := rfl
@[simp] theorem getPort_withRst (i : Nat) (k : ResetSt) : getPort (withRst s k) i = getPort s i := rfl
@[simp] theorem getPort_withStore (i : Nat) (k : StoreSt) : getPort (withStore s k) i = getPort s i := rfl
@[simp] theorem getPort_withKey (i : Nat) (k : KeySt) : getPort (withKey s k) i = getPort s i := rfl
@[simp] theorem getPort_withPins (i : Nat) (k : PinSt) : getPort (withPins s k) i = getPort s i := rfl
@[simp] theorem getPort_withMem (i : Nat) (k : List Host.Cell) : getPort (withMem s k) i = getPort s i := rfl
@[simp] theorem setPort_now (i : Nat) (k : PortSt) : (setPort s i k).now = s.now := rfl
@[simp] theorem setPort_free (i : Nat) (k : PortSt) : (setPort s i k).free = s.free := rfl
@[simp] theorem setPort_cores (i : Nat) (k : PortSt) : (setPort s i k).cores = s.cores := rfl
@[simp] theorem setPort_queues (i : Nat) (k : PortSt) : (setPort s i k).queues = s.queues := rfl
@[simp] theorem setPort_ctxs (i : Nat) (k : PortSt) : (setPort s i k).ctxs = s.ctxs := rfl
@[simp] theorem setPort_lastPop (i : Nat) (k : PortSt) : (setPort s i k).lastPop = s.lastPop := rfl
@[simp] theorem setPort_gangs (i : Nat) (k : PortSt) : (setPort s i k).gangs = s.gangs := rfl
@[simp] theorem setPort_nextGang (i : Nat) (k : PortSt) : (setPort s i k).nextGang = s.nextGang := rfl
@[simp] theorem setPort_schEpoch (i : Nat) (k : PortSt) : (setPort s i k).schEpoch = s.schEpoch := rfl
@[simp] theorem setPort_schCfg (i : Nat) (k : PortSt) : (setPort s i k).schCfg = s.schCfg := rfl
@[simp] theorem setPort_pools (i : Nat) (k : PortSt) : (setPort s i k).pools = s.pools := rfl
@[simp] theorem setPort_poolEpoch (i : Nat) (k : PortSt) : (setPort s i k).poolEpoch = s.poolEpoch := rfl
@[simp] theorem setPort_epochDue (i : Nat) (k : PortSt) : (setPort s i k).epochDue = s.epochDue := rfl
@[simp] theorem setPort_lateEv (i : Nat) (k : PortSt) : (setPort s i k).lateEv = s.lateEv := rfl
@[simp] theorem setPort_mem (i : Nat) (k : PortSt) : (setPort s i k).mem = s.mem := rfl
@[simp] theorem setPort_lost (i : Nat) (k : PortSt) : (setPort s i k).lost = s.lost := rfl
@[simp] theorem setPort_restored (i : Nat) (k : PortSt) : (setPort s i k).restored = s.restored := rfl
@[simp] theorem setPort_owner (i : Nat) (k : PortSt) : (setPort s i k).owner = s.owner := rfl
@[simp] theorem setPort_ownCmd (i : Nat) (k : PortSt) : (setPort s i k).ownCmd = s.ownCmd := rfl
@[simp] theorem setPort_ownAt (i : Nat) (k : PortSt) : (setPort s i k).ownAt = s.ownAt := rfl
@[simp] theorem setPort_hlb (i : Nat) (k : PortSt) : (setPort s i k).hlb = s.hlb := rfl
@[simp] theorem setPort_hubX (i : Nat) (k : PortSt) : (setPort s i k).hubX = s.hubX := rfl
@[simp] theorem setPort_migr (i : Nat) (k : PortSt) : (setPort s i k).migr = s.migr := rfl
@[simp] theorem setPort_hbm (i : Nat) (k : PortSt) : (setPort s i k).hbm = s.hbm := rfl
@[simp] theorem setPort_memcfg (i : Nat) (k : PortSt) : (setPort s i k).memcfg = s.memcfg := rfl
@[simp] theorem setPort_towers (i : Nat) (k : PortSt) : (setPort s i k).towers = s.towers := rfl
@[simp] theorem setPort_flush (i : Nat) (k : PortSt) : (setPort s i k).flush = s.flush := rfl
@[simp] theorem setPort_mortar (i : Nat) (k : PortSt) : (setPort s i k).mortar = s.mortar := rfl
@[simp] theorem setPort_lintel (i : Nat) (k : PortSt) : (setPort s i k).lintel = s.lintel := rfl
@[simp] theorem setPort_plumb (i : Nat) (k : PortSt) : (setPort s i k).plumb = s.plumb := rfl
@[simp] theorem setPort_host (i : Nat) (k : PortSt) : (setPort s i k).host = s.host := rfl
@[simp] theorem setPort_power (i : Nat) (k : PortSt) : (setPort s i k).power = s.power := rfl
@[simp] theorem setPort_rst (i : Nat) (k : PortSt) : (setPort s i k).rst = s.rst := rfl
@[simp] theorem setPort_store (i : Nat) (k : PortSt) : (setPort s i k).store = s.store := rfl
@[simp] theorem setPort_key (i : Nat) (k : PortSt) : (setPort s i k).key = s.key := rfl
@[simp] theorem setPort_pins (i : Nat) (k : PortSt) : (setPort s i k).pins = s.pins := rfl
@[simp] theorem setPort_pending (i : Nat) (k : PortSt) : (setPort s i k).pending = s.pending := rfl
@[simp] theorem getCore_setPort (j i : Nat) (k : PortSt) : getCore (setPort s i k) j = getCore s j := rfl
@[simp] theorem getQueue_setPort (j i : Nat) (k : PortSt) : getQueue (setPort s i k) j = getQueue s j := rfl
@[simp] theorem getCtx_setPort (j i : Nat) (k : PortSt) : getCtx (setPort s i k) j = getCtx s j := rfl
@[simp] theorem getPool_setPort (j i : Nat) (k : PortSt) : getPool (setPort s i k) j = getPool s j := rfl
@[simp] theorem getHbm_setPort (j i : Nat) (k : PortSt) : getHbm (setPort s i k) j = getHbm s j := rfl
@[simp] theorem getTower_setPort (j i : Nat) (k : PortSt) : getTower (setPort s i k) j = getTower s j := rfl
@[simp] theorem getMortar_setPort (j i : Nat) (k : PortSt) : getMortar (setPort s i k) j = getMortar s j := rfl
@[simp] theorem getLintel_setPort (j i : Nat) (k : PortSt) : getLintel (setPort s i k) j = getLintel s j := rfl

@[simp] theorem getDom_setDom_self (i : Nat) (k : Dom) : getDom (setDom s i k) i = k := tget_tset_self i k s.power.doms
theorem getDom_setDom_ne {i j : Nat} (k : Dom) (hj : j ≠ i) : getDom (setDom s i k) j = getDom s j := tget_tset_ne k hj s.power.doms
@[simp] theorem getDom_setCore (i : Nat) (c : Nat) (k : CoreSt) : getDom (setCore s c k) i = getDom s i := rfl
@[simp] theorem getDom_setQueue (i : Nat) (q : Nat) (k : Queue) : getDom (setQueue s q k) i = getDom s i := rfl
@[simp] theorem getDom_setCtx (i : Nat) (x : Nat) (k : Ctx) : getDom (setCtx s x k) i = getDom s i := rfl
@[simp] theorem getDom_setPool (i : Nat) (p : Nat) (k : Pool) : getDom (setPool s p k) i = getDom s i := rfl
@[simp] theorem getDom_setHbm (i : Nat) (c : Nat) (k : HbmChan) : getDom (setHbm s c k) i = getDom s i := rfl
@[simp] theorem getDom_setTower (i : Nat) (t : Nat) (k : TowerSt) : getDom (setTower s t k) i = getDom s i := rfl
@[simp] theorem getDom_setMortar (i : Nat) (f : Nat) (k : Mortar) : getDom (setMortar s f k) i = getDom s i := rfl
@[simp] theorem getDom_setLintel (i : Nat) (l : Nat) (k : Lintel) : getDom (setLintel s l k) i = getDom s i := rfl
@[simp] theorem getDom_withSpan (i : Nat) (k : SpanSt) : getDom (withSpan s k) i = getDom s i := rfl
@[simp] theorem getDom_withPlumb (i : Nat) (k : PlumbSt) : getDom (withPlumb s k) i = getDom s i := rfl
@[simp] theorem getDom_withHost (i : Nat) (k : HostSt) : getDom (withHost s k) i = getDom s i := rfl
@[simp] theorem getDom_withRst (i : Nat) (k : ResetSt) : getDom (withRst s k) i = getDom s i := rfl
@[simp] theorem getDom_withStore (i : Nat) (k : StoreSt) : getDom (withStore s k) i = getDom s i := rfl
@[simp] theorem getDom_withKey (i : Nat) (k : KeySt) : getDom (withKey s k) i = getDom s i := rfl
@[simp] theorem getDom_withPins (i : Nat) (k : PinSt) : getDom (withPins s k) i = getDom s i := rfl
@[simp] theorem getDom_withMem (i : Nat) (k : List Host.Cell) : getDom (withMem s k) i = getDom s i := rfl
@[simp] theorem setDom_now (i : Nat) (k : Dom) : (setDom s i k).now = s.now := rfl
@[simp] theorem setDom_free (i : Nat) (k : Dom) : (setDom s i k).free = s.free := rfl
@[simp] theorem setDom_cores (i : Nat) (k : Dom) : (setDom s i k).cores = s.cores := rfl
@[simp] theorem setDom_queues (i : Nat) (k : Dom) : (setDom s i k).queues = s.queues := rfl
@[simp] theorem setDom_ctxs (i : Nat) (k : Dom) : (setDom s i k).ctxs = s.ctxs := rfl
@[simp] theorem setDom_lastPop (i : Nat) (k : Dom) : (setDom s i k).lastPop = s.lastPop := rfl
@[simp] theorem setDom_gangs (i : Nat) (k : Dom) : (setDom s i k).gangs = s.gangs := rfl
@[simp] theorem setDom_nextGang (i : Nat) (k : Dom) : (setDom s i k).nextGang = s.nextGang := rfl
@[simp] theorem setDom_schEpoch (i : Nat) (k : Dom) : (setDom s i k).schEpoch = s.schEpoch := rfl
@[simp] theorem setDom_schCfg (i : Nat) (k : Dom) : (setDom s i k).schCfg = s.schCfg := rfl
@[simp] theorem setDom_pools (i : Nat) (k : Dom) : (setDom s i k).pools = s.pools := rfl
@[simp] theorem setDom_poolEpoch (i : Nat) (k : Dom) : (setDom s i k).poolEpoch = s.poolEpoch := rfl
@[simp] theorem setDom_epochDue (i : Nat) (k : Dom) : (setDom s i k).epochDue = s.epochDue := rfl
@[simp] theorem setDom_lateEv (i : Nat) (k : Dom) : (setDom s i k).lateEv = s.lateEv := rfl
@[simp] theorem setDom_mem (i : Nat) (k : Dom) : (setDom s i k).mem = s.mem := rfl
@[simp] theorem setDom_lost (i : Nat) (k : Dom) : (setDom s i k).lost = s.lost := rfl
@[simp] theorem setDom_restored (i : Nat) (k : Dom) : (setDom s i k).restored = s.restored := rfl
@[simp] theorem setDom_owner (i : Nat) (k : Dom) : (setDom s i k).owner = s.owner := rfl
@[simp] theorem setDom_ownCmd (i : Nat) (k : Dom) : (setDom s i k).ownCmd = s.ownCmd := rfl
@[simp] theorem setDom_ownAt (i : Nat) (k : Dom) : (setDom s i k).ownAt = s.ownAt := rfl
@[simp] theorem setDom_hlb (i : Nat) (k : Dom) : (setDom s i k).hlb = s.hlb := rfl
@[simp] theorem setDom_hubX (i : Nat) (k : Dom) : (setDom s i k).hubX = s.hubX := rfl
@[simp] theorem setDom_migr (i : Nat) (k : Dom) : (setDom s i k).migr = s.migr := rfl
@[simp] theorem setDom_hbm (i : Nat) (k : Dom) : (setDom s i k).hbm = s.hbm := rfl
@[simp] theorem setDom_memcfg (i : Nat) (k : Dom) : (setDom s i k).memcfg = s.memcfg := rfl
@[simp] theorem setDom_towers (i : Nat) (k : Dom) : (setDom s i k).towers = s.towers := rfl
@[simp] theorem setDom_flush (i : Nat) (k : Dom) : (setDom s i k).flush = s.flush := rfl
@[simp] theorem setDom_mortar (i : Nat) (k : Dom) : (setDom s i k).mortar = s.mortar := rfl
@[simp] theorem setDom_lintel (i : Nat) (k : Dom) : (setDom s i k).lintel = s.lintel := rfl
@[simp] theorem setDom_span (i : Nat) (k : Dom) : (setDom s i k).span = s.span := rfl
@[simp] theorem setDom_plumb (i : Nat) (k : Dom) : (setDom s i k).plumb = s.plumb := rfl
@[simp] theorem setDom_host (i : Nat) (k : Dom) : (setDom s i k).host = s.host := rfl
@[simp] theorem setDom_rst (i : Nat) (k : Dom) : (setDom s i k).rst = s.rst := rfl
@[simp] theorem setDom_store (i : Nat) (k : Dom) : (setDom s i k).store = s.store := rfl
@[simp] theorem setDom_key (i : Nat) (k : Dom) : (setDom s i k).key = s.key := rfl
@[simp] theorem setDom_pins (i : Nat) (k : Dom) : (setDom s i k).pins = s.pins := rfl
@[simp] theorem setDom_pending (i : Nat) (k : Dom) : (setDom s i k).pending = s.pending := rfl
@[simp] theorem getCore_setDom (j i : Nat) (k : Dom) : getCore (setDom s i k) j = getCore s j := rfl
@[simp] theorem getQueue_setDom (j i : Nat) (k : Dom) : getQueue (setDom s i k) j = getQueue s j := rfl
@[simp] theorem getCtx_setDom (j i : Nat) (k : Dom) : getCtx (setDom s i k) j = getCtx s j := rfl
@[simp] theorem getPool_setDom (j i : Nat) (k : Dom) : getPool (setDom s i k) j = getPool s j := rfl
@[simp] theorem getHbm_setDom (j i : Nat) (k : Dom) : getHbm (setDom s i k) j = getHbm s j := rfl
@[simp] theorem getTower_setDom (j i : Nat) (k : Dom) : getTower (setDom s i k) j = getTower s j := rfl
@[simp] theorem getMortar_setDom (j i : Nat) (k : Dom) : getMortar (setDom s i k) j = getMortar s j := rfl
@[simp] theorem getLintel_setDom (j i : Nat) (k : Dom) : getLintel (setDom s i k) j = getLintel s j := rfl

@[simp] theorem getGroup_setGroup_self (i : Nat) (k : GroupClk) : getGroup (setGroup s i k) i = k := tget_tset_self i k s.power.groups
theorem getGroup_setGroup_ne {i j : Nat} (k : GroupClk) (hj : j ≠ i) : getGroup (setGroup s i k) j = getGroup s j := tget_tset_ne k hj s.power.groups
@[simp] theorem getGroup_setCore (i : Nat) (c : Nat) (k : CoreSt) : getGroup (setCore s c k) i = getGroup s i := rfl
@[simp] theorem getGroup_setQueue (i : Nat) (q : Nat) (k : Queue) : getGroup (setQueue s q k) i = getGroup s i := rfl
@[simp] theorem getGroup_setCtx (i : Nat) (x : Nat) (k : Ctx) : getGroup (setCtx s x k) i = getGroup s i := rfl
@[simp] theorem getGroup_setPool (i : Nat) (p : Nat) (k : Pool) : getGroup (setPool s p k) i = getGroup s i := rfl
@[simp] theorem getGroup_setHbm (i : Nat) (c : Nat) (k : HbmChan) : getGroup (setHbm s c k) i = getGroup s i := rfl
@[simp] theorem getGroup_setTower (i : Nat) (t : Nat) (k : TowerSt) : getGroup (setTower s t k) i = getGroup s i := rfl
@[simp] theorem getGroup_setMortar (i : Nat) (f : Nat) (k : Mortar) : getGroup (setMortar s f k) i = getGroup s i := rfl
@[simp] theorem getGroup_setLintel (i : Nat) (l : Nat) (k : Lintel) : getGroup (setLintel s l k) i = getGroup s i := rfl
@[simp] theorem getGroup_withSpan (i : Nat) (k : SpanSt) : getGroup (withSpan s k) i = getGroup s i := rfl
@[simp] theorem getGroup_withPlumb (i : Nat) (k : PlumbSt) : getGroup (withPlumb s k) i = getGroup s i := rfl
@[simp] theorem getGroup_withHost (i : Nat) (k : HostSt) : getGroup (withHost s k) i = getGroup s i := rfl
@[simp] theorem getGroup_withRst (i : Nat) (k : ResetSt) : getGroup (withRst s k) i = getGroup s i := rfl
@[simp] theorem getGroup_withStore (i : Nat) (k : StoreSt) : getGroup (withStore s k) i = getGroup s i := rfl
@[simp] theorem getGroup_withKey (i : Nat) (k : KeySt) : getGroup (withKey s k) i = getGroup s i := rfl
@[simp] theorem getGroup_withPins (i : Nat) (k : PinSt) : getGroup (withPins s k) i = getGroup s i := rfl
@[simp] theorem getGroup_withMem (i : Nat) (k : List Host.Cell) : getGroup (withMem s k) i = getGroup s i := rfl
@[simp] theorem setGroup_now (i : Nat) (k : GroupClk) : (setGroup s i k).now = s.now := rfl
@[simp] theorem setGroup_free (i : Nat) (k : GroupClk) : (setGroup s i k).free = s.free := rfl
@[simp] theorem setGroup_cores (i : Nat) (k : GroupClk) : (setGroup s i k).cores = s.cores := rfl
@[simp] theorem setGroup_queues (i : Nat) (k : GroupClk) : (setGroup s i k).queues = s.queues := rfl
@[simp] theorem setGroup_ctxs (i : Nat) (k : GroupClk) : (setGroup s i k).ctxs = s.ctxs := rfl
@[simp] theorem setGroup_lastPop (i : Nat) (k : GroupClk) : (setGroup s i k).lastPop = s.lastPop := rfl
@[simp] theorem setGroup_gangs (i : Nat) (k : GroupClk) : (setGroup s i k).gangs = s.gangs := rfl
@[simp] theorem setGroup_nextGang (i : Nat) (k : GroupClk) : (setGroup s i k).nextGang = s.nextGang := rfl
@[simp] theorem setGroup_schEpoch (i : Nat) (k : GroupClk) : (setGroup s i k).schEpoch = s.schEpoch := rfl
@[simp] theorem setGroup_schCfg (i : Nat) (k : GroupClk) : (setGroup s i k).schCfg = s.schCfg := rfl
@[simp] theorem setGroup_pools (i : Nat) (k : GroupClk) : (setGroup s i k).pools = s.pools := rfl
@[simp] theorem setGroup_poolEpoch (i : Nat) (k : GroupClk) : (setGroup s i k).poolEpoch = s.poolEpoch := rfl
@[simp] theorem setGroup_epochDue (i : Nat) (k : GroupClk) : (setGroup s i k).epochDue = s.epochDue := rfl
@[simp] theorem setGroup_lateEv (i : Nat) (k : GroupClk) : (setGroup s i k).lateEv = s.lateEv := rfl
@[simp] theorem setGroup_mem (i : Nat) (k : GroupClk) : (setGroup s i k).mem = s.mem := rfl
@[simp] theorem setGroup_lost (i : Nat) (k : GroupClk) : (setGroup s i k).lost = s.lost := rfl
@[simp] theorem setGroup_restored (i : Nat) (k : GroupClk) : (setGroup s i k).restored = s.restored := rfl
@[simp] theorem setGroup_owner (i : Nat) (k : GroupClk) : (setGroup s i k).owner = s.owner := rfl
@[simp] theorem setGroup_ownCmd (i : Nat) (k : GroupClk) : (setGroup s i k).ownCmd = s.ownCmd := rfl
@[simp] theorem setGroup_ownAt (i : Nat) (k : GroupClk) : (setGroup s i k).ownAt = s.ownAt := rfl
@[simp] theorem setGroup_hlb (i : Nat) (k : GroupClk) : (setGroup s i k).hlb = s.hlb := rfl
@[simp] theorem setGroup_hubX (i : Nat) (k : GroupClk) : (setGroup s i k).hubX = s.hubX := rfl
@[simp] theorem setGroup_migr (i : Nat) (k : GroupClk) : (setGroup s i k).migr = s.migr := rfl
@[simp] theorem setGroup_hbm (i : Nat) (k : GroupClk) : (setGroup s i k).hbm = s.hbm := rfl
@[simp] theorem setGroup_memcfg (i : Nat) (k : GroupClk) : (setGroup s i k).memcfg = s.memcfg := rfl
@[simp] theorem setGroup_towers (i : Nat) (k : GroupClk) : (setGroup s i k).towers = s.towers := rfl
@[simp] theorem setGroup_flush (i : Nat) (k : GroupClk) : (setGroup s i k).flush = s.flush := rfl
@[simp] theorem setGroup_mortar (i : Nat) (k : GroupClk) : (setGroup s i k).mortar = s.mortar := rfl
@[simp] theorem setGroup_lintel (i : Nat) (k : GroupClk) : (setGroup s i k).lintel = s.lintel := rfl
@[simp] theorem setGroup_span (i : Nat) (k : GroupClk) : (setGroup s i k).span = s.span := rfl
@[simp] theorem setGroup_plumb (i : Nat) (k : GroupClk) : (setGroup s i k).plumb = s.plumb := rfl
@[simp] theorem setGroup_host (i : Nat) (k : GroupClk) : (setGroup s i k).host = s.host := rfl
@[simp] theorem setGroup_rst (i : Nat) (k : GroupClk) : (setGroup s i k).rst = s.rst := rfl
@[simp] theorem setGroup_store (i : Nat) (k : GroupClk) : (setGroup s i k).store = s.store := rfl
@[simp] theorem setGroup_key (i : Nat) (k : GroupClk) : (setGroup s i k).key = s.key := rfl
@[simp] theorem setGroup_pins (i : Nat) (k : GroupClk) : (setGroup s i k).pins = s.pins := rfl
@[simp] theorem setGroup_pending (i : Nat) (k : GroupClk) : (setGroup s i k).pending = s.pending := rfl
@[simp] theorem getCore_setGroup (j i : Nat) (k : GroupClk) : getCore (setGroup s i k) j = getCore s j := rfl
@[simp] theorem getQueue_setGroup (j i : Nat) (k : GroupClk) : getQueue (setGroup s i k) j = getQueue s j := rfl
@[simp] theorem getCtx_setGroup (j i : Nat) (k : GroupClk) : getCtx (setGroup s i k) j = getCtx s j := rfl
@[simp] theorem getPool_setGroup (j i : Nat) (k : GroupClk) : getPool (setGroup s i k) j = getPool s j := rfl
@[simp] theorem getHbm_setGroup (j i : Nat) (k : GroupClk) : getHbm (setGroup s i k) j = getHbm s j := rfl
@[simp] theorem getTower_setGroup (j i : Nat) (k : GroupClk) : getTower (setGroup s i k) j = getTower s j := rfl
@[simp] theorem getMortar_setGroup (j i : Nat) (k : GroupClk) : getMortar (setGroup s i k) j = getMortar s j := rfl
@[simp] theorem getLintel_setGroup (j i : Nat) (k : GroupClk) : getLintel (setGroup s i k) j = getLintel s j := rfl

@[simp] theorem getMod_setMod_self (i : Nat) (k : Mod) : getMod (setMod s i k) i = k := tget_tset_self i k s.power.mods
theorem getMod_setMod_ne {i j : Nat} (k : Mod) (hj : j ≠ i) : getMod (setMod s i k) j = getMod s j := tget_tset_ne k hj s.power.mods
@[simp] theorem getMod_setCore (i : Nat) (c : Nat) (k : CoreSt) : getMod (setCore s c k) i = getMod s i := rfl
@[simp] theorem getMod_setQueue (i : Nat) (q : Nat) (k : Queue) : getMod (setQueue s q k) i = getMod s i := rfl
@[simp] theorem getMod_setCtx (i : Nat) (x : Nat) (k : Ctx) : getMod (setCtx s x k) i = getMod s i := rfl
@[simp] theorem getMod_setPool (i : Nat) (p : Nat) (k : Pool) : getMod (setPool s p k) i = getMod s i := rfl
@[simp] theorem getMod_setHbm (i : Nat) (c : Nat) (k : HbmChan) : getMod (setHbm s c k) i = getMod s i := rfl
@[simp] theorem getMod_setTower (i : Nat) (t : Nat) (k : TowerSt) : getMod (setTower s t k) i = getMod s i := rfl
@[simp] theorem getMod_setMortar (i : Nat) (f : Nat) (k : Mortar) : getMod (setMortar s f k) i = getMod s i := rfl
@[simp] theorem getMod_setLintel (i : Nat) (l : Nat) (k : Lintel) : getMod (setLintel s l k) i = getMod s i := rfl
@[simp] theorem getMod_withSpan (i : Nat) (k : SpanSt) : getMod (withSpan s k) i = getMod s i := rfl
@[simp] theorem getMod_withPlumb (i : Nat) (k : PlumbSt) : getMod (withPlumb s k) i = getMod s i := rfl
@[simp] theorem getMod_withHost (i : Nat) (k : HostSt) : getMod (withHost s k) i = getMod s i := rfl
@[simp] theorem getMod_withRst (i : Nat) (k : ResetSt) : getMod (withRst s k) i = getMod s i := rfl
@[simp] theorem getMod_withStore (i : Nat) (k : StoreSt) : getMod (withStore s k) i = getMod s i := rfl
@[simp] theorem getMod_withKey (i : Nat) (k : KeySt) : getMod (withKey s k) i = getMod s i := rfl
@[simp] theorem getMod_withPins (i : Nat) (k : PinSt) : getMod (withPins s k) i = getMod s i := rfl
@[simp] theorem getMod_withMem (i : Nat) (k : List Host.Cell) : getMod (withMem s k) i = getMod s i := rfl
@[simp] theorem setMod_now (i : Nat) (k : Mod) : (setMod s i k).now = s.now := rfl
@[simp] theorem setMod_free (i : Nat) (k : Mod) : (setMod s i k).free = s.free := rfl
@[simp] theorem setMod_cores (i : Nat) (k : Mod) : (setMod s i k).cores = s.cores := rfl
@[simp] theorem setMod_queues (i : Nat) (k : Mod) : (setMod s i k).queues = s.queues := rfl
@[simp] theorem setMod_ctxs (i : Nat) (k : Mod) : (setMod s i k).ctxs = s.ctxs := rfl
@[simp] theorem setMod_lastPop (i : Nat) (k : Mod) : (setMod s i k).lastPop = s.lastPop := rfl
@[simp] theorem setMod_gangs (i : Nat) (k : Mod) : (setMod s i k).gangs = s.gangs := rfl
@[simp] theorem setMod_nextGang (i : Nat) (k : Mod) : (setMod s i k).nextGang = s.nextGang := rfl
@[simp] theorem setMod_schEpoch (i : Nat) (k : Mod) : (setMod s i k).schEpoch = s.schEpoch := rfl
@[simp] theorem setMod_schCfg (i : Nat) (k : Mod) : (setMod s i k).schCfg = s.schCfg := rfl
@[simp] theorem setMod_pools (i : Nat) (k : Mod) : (setMod s i k).pools = s.pools := rfl
@[simp] theorem setMod_poolEpoch (i : Nat) (k : Mod) : (setMod s i k).poolEpoch = s.poolEpoch := rfl
@[simp] theorem setMod_epochDue (i : Nat) (k : Mod) : (setMod s i k).epochDue = s.epochDue := rfl
@[simp] theorem setMod_lateEv (i : Nat) (k : Mod) : (setMod s i k).lateEv = s.lateEv := rfl
@[simp] theorem setMod_mem (i : Nat) (k : Mod) : (setMod s i k).mem = s.mem := rfl
@[simp] theorem setMod_lost (i : Nat) (k : Mod) : (setMod s i k).lost = s.lost := rfl
@[simp] theorem setMod_restored (i : Nat) (k : Mod) : (setMod s i k).restored = s.restored := rfl
@[simp] theorem setMod_owner (i : Nat) (k : Mod) : (setMod s i k).owner = s.owner := rfl
@[simp] theorem setMod_ownCmd (i : Nat) (k : Mod) : (setMod s i k).ownCmd = s.ownCmd := rfl
@[simp] theorem setMod_ownAt (i : Nat) (k : Mod) : (setMod s i k).ownAt = s.ownAt := rfl
@[simp] theorem setMod_hlb (i : Nat) (k : Mod) : (setMod s i k).hlb = s.hlb := rfl
@[simp] theorem setMod_hubX (i : Nat) (k : Mod) : (setMod s i k).hubX = s.hubX := rfl
@[simp] theorem setMod_migr (i : Nat) (k : Mod) : (setMod s i k).migr = s.migr := rfl
@[simp] theorem setMod_hbm (i : Nat) (k : Mod) : (setMod s i k).hbm = s.hbm := rfl
@[simp] theorem setMod_memcfg (i : Nat) (k : Mod) : (setMod s i k).memcfg = s.memcfg := rfl
@[simp] theorem setMod_towers (i : Nat) (k : Mod) : (setMod s i k).towers = s.towers := rfl
@[simp] theorem setMod_flush (i : Nat) (k : Mod) : (setMod s i k).flush = s.flush := rfl
@[simp] theorem setMod_mortar (i : Nat) (k : Mod) : (setMod s i k).mortar = s.mortar := rfl
@[simp] theorem setMod_lintel (i : Nat) (k : Mod) : (setMod s i k).lintel = s.lintel := rfl
@[simp] theorem setMod_span (i : Nat) (k : Mod) : (setMod s i k).span = s.span := rfl
@[simp] theorem setMod_plumb (i : Nat) (k : Mod) : (setMod s i k).plumb = s.plumb := rfl
@[simp] theorem setMod_host (i : Nat) (k : Mod) : (setMod s i k).host = s.host := rfl
@[simp] theorem setMod_rst (i : Nat) (k : Mod) : (setMod s i k).rst = s.rst := rfl
@[simp] theorem setMod_store (i : Nat) (k : Mod) : (setMod s i k).store = s.store := rfl
@[simp] theorem setMod_key (i : Nat) (k : Mod) : (setMod s i k).key = s.key := rfl
@[simp] theorem setMod_pins (i : Nat) (k : Mod) : (setMod s i k).pins = s.pins := rfl
@[simp] theorem setMod_pending (i : Nat) (k : Mod) : (setMod s i k).pending = s.pending := rfl
@[simp] theorem getCore_setMod (j i : Nat) (k : Mod) : getCore (setMod s i k) j = getCore s j := rfl
@[simp] theorem getQueue_setMod (j i : Nat) (k : Mod) : getQueue (setMod s i k) j = getQueue s j := rfl
@[simp] theorem getCtx_setMod (j i : Nat) (k : Mod) : getCtx (setMod s i k) j = getCtx s j := rfl
@[simp] theorem getPool_setMod (j i : Nat) (k : Mod) : getPool (setMod s i k) j = getPool s j := rfl
@[simp] theorem getHbm_setMod (j i : Nat) (k : Mod) : getHbm (setMod s i k) j = getHbm s j := rfl
@[simp] theorem getTower_setMod (j i : Nat) (k : Mod) : getTower (setMod s i k) j = getTower s j := rfl
@[simp] theorem getMortar_setMod (j i : Nat) (k : Mod) : getMortar (setMod s i k) j = getMortar s j := rfl
@[simp] theorem getLintel_setMod (j i : Nat) (k : Mod) : getLintel (setMod s i k) j = getLintel s j := rfl

@[simp] theorem getMbox_setMbox_self (i : Nat) (k : Mbox) : getMbox (setMbox s i k) i = k := tget_tset_self i k s.key.mb
theorem getMbox_setMbox_ne {i j : Nat} (k : Mbox) (hj : j ≠ i) : getMbox (setMbox s i k) j = getMbox s j := tget_tset_ne k hj s.key.mb
@[simp] theorem getMbox_setCore (i : Nat) (c : Nat) (k : CoreSt) : getMbox (setCore s c k) i = getMbox s i := rfl
@[simp] theorem getMbox_setQueue (i : Nat) (q : Nat) (k : Queue) : getMbox (setQueue s q k) i = getMbox s i := rfl
@[simp] theorem getMbox_setCtx (i : Nat) (x : Nat) (k : Ctx) : getMbox (setCtx s x k) i = getMbox s i := rfl
@[simp] theorem getMbox_setPool (i : Nat) (p : Nat) (k : Pool) : getMbox (setPool s p k) i = getMbox s i := rfl
@[simp] theorem getMbox_setHbm (i : Nat) (c : Nat) (k : HbmChan) : getMbox (setHbm s c k) i = getMbox s i := rfl
@[simp] theorem getMbox_setTower (i : Nat) (t : Nat) (k : TowerSt) : getMbox (setTower s t k) i = getMbox s i := rfl
@[simp] theorem getMbox_setMortar (i : Nat) (f : Nat) (k : Mortar) : getMbox (setMortar s f k) i = getMbox s i := rfl
@[simp] theorem getMbox_setLintel (i : Nat) (l : Nat) (k : Lintel) : getMbox (setLintel s l k) i = getMbox s i := rfl
@[simp] theorem getMbox_withSpan (i : Nat) (k : SpanSt) : getMbox (withSpan s k) i = getMbox s i := rfl
@[simp] theorem getMbox_withPlumb (i : Nat) (k : PlumbSt) : getMbox (withPlumb s k) i = getMbox s i := rfl
@[simp] theorem getMbox_withHost (i : Nat) (k : HostSt) : getMbox (withHost s k) i = getMbox s i := rfl
@[simp] theorem getMbox_withPower (i : Nat) (k : PowerSt) : getMbox (withPower s k) i = getMbox s i := rfl
@[simp] theorem getMbox_withRst (i : Nat) (k : ResetSt) : getMbox (withRst s k) i = getMbox s i := rfl
@[simp] theorem getMbox_withStore (i : Nat) (k : StoreSt) : getMbox (withStore s k) i = getMbox s i := rfl
@[simp] theorem getMbox_withPins (i : Nat) (k : PinSt) : getMbox (withPins s k) i = getMbox s i := rfl
@[simp] theorem getMbox_withMem (i : Nat) (k : List Host.Cell) : getMbox (withMem s k) i = getMbox s i := rfl
@[simp] theorem setMbox_now (i : Nat) (k : Mbox) : (setMbox s i k).now = s.now := rfl
@[simp] theorem setMbox_free (i : Nat) (k : Mbox) : (setMbox s i k).free = s.free := rfl
@[simp] theorem setMbox_cores (i : Nat) (k : Mbox) : (setMbox s i k).cores = s.cores := rfl
@[simp] theorem setMbox_queues (i : Nat) (k : Mbox) : (setMbox s i k).queues = s.queues := rfl
@[simp] theorem setMbox_ctxs (i : Nat) (k : Mbox) : (setMbox s i k).ctxs = s.ctxs := rfl
@[simp] theorem setMbox_lastPop (i : Nat) (k : Mbox) : (setMbox s i k).lastPop = s.lastPop := rfl
@[simp] theorem setMbox_gangs (i : Nat) (k : Mbox) : (setMbox s i k).gangs = s.gangs := rfl
@[simp] theorem setMbox_nextGang (i : Nat) (k : Mbox) : (setMbox s i k).nextGang = s.nextGang := rfl
@[simp] theorem setMbox_schEpoch (i : Nat) (k : Mbox) : (setMbox s i k).schEpoch = s.schEpoch := rfl
@[simp] theorem setMbox_schCfg (i : Nat) (k : Mbox) : (setMbox s i k).schCfg = s.schCfg := rfl
@[simp] theorem setMbox_pools (i : Nat) (k : Mbox) : (setMbox s i k).pools = s.pools := rfl
@[simp] theorem setMbox_poolEpoch (i : Nat) (k : Mbox) : (setMbox s i k).poolEpoch = s.poolEpoch := rfl
@[simp] theorem setMbox_epochDue (i : Nat) (k : Mbox) : (setMbox s i k).epochDue = s.epochDue := rfl
@[simp] theorem setMbox_lateEv (i : Nat) (k : Mbox) : (setMbox s i k).lateEv = s.lateEv := rfl
@[simp] theorem setMbox_mem (i : Nat) (k : Mbox) : (setMbox s i k).mem = s.mem := rfl
@[simp] theorem setMbox_lost (i : Nat) (k : Mbox) : (setMbox s i k).lost = s.lost := rfl
@[simp] theorem setMbox_restored (i : Nat) (k : Mbox) : (setMbox s i k).restored = s.restored := rfl
@[simp] theorem setMbox_owner (i : Nat) (k : Mbox) : (setMbox s i k).owner = s.owner := rfl
@[simp] theorem setMbox_ownCmd (i : Nat) (k : Mbox) : (setMbox s i k).ownCmd = s.ownCmd := rfl
@[simp] theorem setMbox_ownAt (i : Nat) (k : Mbox) : (setMbox s i k).ownAt = s.ownAt := rfl
@[simp] theorem setMbox_hlb (i : Nat) (k : Mbox) : (setMbox s i k).hlb = s.hlb := rfl
@[simp] theorem setMbox_hubX (i : Nat) (k : Mbox) : (setMbox s i k).hubX = s.hubX := rfl
@[simp] theorem setMbox_migr (i : Nat) (k : Mbox) : (setMbox s i k).migr = s.migr := rfl
@[simp] theorem setMbox_hbm (i : Nat) (k : Mbox) : (setMbox s i k).hbm = s.hbm := rfl
@[simp] theorem setMbox_memcfg (i : Nat) (k : Mbox) : (setMbox s i k).memcfg = s.memcfg := rfl
@[simp] theorem setMbox_towers (i : Nat) (k : Mbox) : (setMbox s i k).towers = s.towers := rfl
@[simp] theorem setMbox_flush (i : Nat) (k : Mbox) : (setMbox s i k).flush = s.flush := rfl
@[simp] theorem setMbox_mortar (i : Nat) (k : Mbox) : (setMbox s i k).mortar = s.mortar := rfl
@[simp] theorem setMbox_lintel (i : Nat) (k : Mbox) : (setMbox s i k).lintel = s.lintel := rfl
@[simp] theorem setMbox_span (i : Nat) (k : Mbox) : (setMbox s i k).span = s.span := rfl
@[simp] theorem setMbox_plumb (i : Nat) (k : Mbox) : (setMbox s i k).plumb = s.plumb := rfl
@[simp] theorem setMbox_host (i : Nat) (k : Mbox) : (setMbox s i k).host = s.host := rfl
@[simp] theorem setMbox_power (i : Nat) (k : Mbox) : (setMbox s i k).power = s.power := rfl
@[simp] theorem setMbox_rst (i : Nat) (k : Mbox) : (setMbox s i k).rst = s.rst := rfl
@[simp] theorem setMbox_store (i : Nat) (k : Mbox) : (setMbox s i k).store = s.store := rfl
@[simp] theorem setMbox_pins (i : Nat) (k : Mbox) : (setMbox s i k).pins = s.pins := rfl
@[simp] theorem setMbox_pending (i : Nat) (k : Mbox) : (setMbox s i k).pending = s.pending := rfl
@[simp] theorem getCore_setMbox (j i : Nat) (k : Mbox) : getCore (setMbox s i k) j = getCore s j := rfl
@[simp] theorem getQueue_setMbox (j i : Nat) (k : Mbox) : getQueue (setMbox s i k) j = getQueue s j := rfl
@[simp] theorem getCtx_setMbox (j i : Nat) (k : Mbox) : getCtx (setMbox s i k) j = getCtx s j := rfl
@[simp] theorem getPool_setMbox (j i : Nat) (k : Mbox) : getPool (setMbox s i k) j = getPool s j := rfl
@[simp] theorem getHbm_setMbox (j i : Nat) (k : Mbox) : getHbm (setMbox s i k) j = getHbm s j := rfl
@[simp] theorem getTower_setMbox (j i : Nat) (k : Mbox) : getTower (setMbox s i k) j = getTower s j := rfl
@[simp] theorem getMortar_setMbox (j i : Nat) (k : Mbox) : getMortar (setMbox s i k) j = getMortar s j := rfl
@[simp] theorem getLintel_setMbox (j i : Nat) (k : Mbox) : getLintel (setMbox s i k) j = getLintel s j := rfl

end Sys2Proof.Machine
end

