-- ==== Sys2Proof/Laws/Keeps.lean ====
section
/-!
SUPPORT. What an operation may do to the package as a whole: it leaves the clock and the queue of waiting commands alone, and keeps the
canonical form. Each shared operation gets one lemma that says so for it, in the form "if `s` was reached in that way, so is what the
operation makes of it".
-/

namespace Sys2Proof.Machine

/-- From `a` to `t` the clock and the waiting commands stand, and the canonical form is kept. -/
structure Keeps (a t : State) : Prop where
  pending : t.pending = a.pending
  now : t.now = a.now
  canon : Canonical a → Canonical t

theorem Keeps.refl (s : State) : Keeps s s := ⟨rfl, rfl, id⟩

theorem Keeps.trans {a s t : State} (h : Keeps a s) (g : Keeps s t) : Keeps a t :=
  ⟨g.pending.trans h.pending, g.now.trans h.now, fun c => g.canon (h.canon c)⟩

/-- An update of fields other than those of the canonical form. -/
theorem Keeps.rest {a s : State} {free : Nat} {lastPop : Tab Nat} {gangs : List Gang} {nextGang : Nat} {schEpoch : Nat}
      {schCfg : BitVec 32} {poolEpoch : Nat} {epochDue : Bool} {lateEv : List (Nat × List Byte)} {restored : List Nat} {ownCmd :
      BitVec 64} {ownAt : Nat} {hlb : List LbEntry} {hubX : List (Nat × BitVec 64 × XSt)} {migr : List Migr} {memcfg : BitVec 32}
      {flush : List (Nat × Bool)} {span : SpanSt} {plumb : PlumbSt} {host : HostSt} {power : PowerSt} {rst : ResetSt} {store :
      StoreSt} {key : KeySt} {pins : PinSt}
        (h : Keeps a s) : Keeps a (State.mk s.now free s.cores s.queues s.ctxs lastPop gangs nextGang schEpoch schCfg s.pools
      poolEpoch epochDue lateEv s.mem s.lost restored s.owner ownCmd ownAt hlb hubX migr s.hbm memcfg s.towers flush s.mortar
      s.lintel span plumb host power rst store key pins s.pending) :=
  ⟨h.pending, h.now, fun c => { h.canon c with }⟩

theorem ite_keeps {a s t : State} {c : Prop} [Decidable c] (h : Keeps a s) (g : Keeps a t) : Keeps a (if c then s else t) := by
  split
  · exact h
  · exact g

/-- The same for a command's outcome. -/
def KeepsRes (a : State) (r : Res) : Prop := ∀ t, r = .next t → Keeps a t

theorem iteRes_keeps {a : State} {c : Prop} [Decidable c] {r q : Res} (h : KeepsRes a r) (g : KeepsRes a q) :
    KeepsRes a (if c then r else q) := by
  split
  · exact h
  · exact g

theorem KeepsRes.next {a t : State} (h : Keeps a t) : KeepsRes a (.next t) := by
  intro u e
  cases e
  exact h

section
variable {a s : State}

theorem setCore_keeps (h : Keeps a s) {c : Nat} {k : CoreSt} : Keeps a (setCore s c k) :=
  ⟨h.pending, h.now, fun x => { h.canon x with cores := tabWf_tset (h.canon x).cores c k }⟩
theorem setQueue_keeps (h : Keeps a s) {q : Nat} {k : Queue} : Keeps a (setQueue s q k) :=
  ⟨h.pending, h.now, fun x => { h.canon x with queues := tabWf_tset (h.canon x).queues q k }⟩
theorem setCtx_keeps (h : Keeps a s) {i : Nat} {k : Ctx} : Keeps a (setCtx s i k) :=
  ⟨h.pending, h.now, fun x => { h.canon x with ctxs := tabWf_tset (h.canon x).ctxs i k }⟩
theorem setPool_keeps (h : Keeps a s) {p : Nat} {k : Pool} : Keeps a (setPool s p k) :=
  ⟨h.pending, h.now, fun x => { h.canon x with pools := tabWf_tset (h.canon x).pools p k }⟩
theorem setHbm_keeps (h : Keeps a s) {c : Nat} {k : HbmChan} : Keeps a (setHbm s c k) :=
  ⟨h.pending, h.now, fun x => { h.canon x with hbm := tabWf_tset (h.canon x).hbm c k }⟩
theorem setTower_keeps (h : Keeps a s) {t : Nat} {k : TowerSt} : Keeps a (setTower s t k) :=
  ⟨h.pending, h.now, fun x => { h.canon x with towers := tabWf_tset (h.canon x).towers t k }⟩
theorem setMortar_keeps (h : Keeps a s) {f : Nat} {k : Mortar} : Keeps a (setMortar s f k) :=
  ⟨h.pending, h.now, fun x => { h.canon x with mortar := tabWf_tset (h.canon x).mortar f k }⟩
theorem setLintel_keeps (h : Keeps a s) {l : Nat} {k : Lintel} : Keeps a (setLintel s l k) :=
  ⟨h.pending, h.now, fun x => { h.canon x with lintel := tabWf_tset (h.canon x).lintel l k }⟩
theorem withMem_keeps (h : Keeps a s) {m : List Host.Cell} (hm : Memory.wf s.mem = true → Memory.wf m = true) : Keeps a (withMem s m) :=
  ⟨h.pending, h.now, fun x => { h.canon x with mem := hm (h.canon x).mem }⟩
theorem withSpan_keeps (h : Keeps a s) {k : SpanSt} : Keeps a (withSpan s k) := ⟨h.pending, h.now, fun x => { h.canon x with }⟩
theorem withPlumb_keeps (h : Keeps a s) {k : PlumbSt} : Keeps a (withPlumb s k) := ⟨h.pending, h.now, fun x => { h.canon x with }⟩
theorem withHost_keeps (h : Keeps a s) {k : HostSt} : Keeps a (withHost s k) := ⟨h.pending, h.now, fun x => { h.canon x with }⟩
theorem withPower_keeps (h : Keeps a s) {k : PowerSt} : Keeps a (withPower s k) := ⟨h.pending, h.now, fun x => { h.canon x with }⟩
theorem withRst_keeps (h : Keeps a s) {k : ResetSt} : Keeps a (withRst s k) := ⟨h.pending, h.now, fun x => { h.canon x with }⟩
theorem withStore_keeps (h : Keeps a s) {k : StoreSt} : Keeps a (withStore s k) := ⟨h.pending, h.now, fun x => { h.canon x with }⟩
theorem withKey_keeps (h : Keeps a s) {k : KeySt} : Keeps a (withKey s k) := ⟨h.pending, h.now, fun x => { h.canon x with }⟩
theorem withPins_keeps (h : Keeps a s) {k : PinSt} : Keeps a (withPins s k) := ⟨h.pending, h.now, fun x => { h.canon x with }⟩

theorem forEach_keeps {α : Type} {f : State → α → State} {l : List α} (h : Keeps a s) (hf : ∀ s x, Keeps a s → Keeps a (f s x)) :
    Keeps a (forEach s l f) := by
  induction l generalizing s with
  | nil => exact h
  | cons x l ih => exact ih (hf s x h)

theorem foldl_keeps {α : Type} {f : State → α → State} {l : List α} (h : Keeps a s) (hf : ∀ s x, Keeps a s → Keeps a (f s x)) :
    Keeps a (l.foldl f s) := by
  induction l generalizing s with
  | nil => exact h
  | cons x l ih => exact ih (hf s x h)

end

end Sys2Proof.Machine
end

