-- ==== Sys2Proof/Laws/Answers.lean ====
section
/-!
SUPPORT. Every command answers a next state: no meaning faults or refuses.
-/

namespace Sys2Proof.Machine

/-- The outcome is a next state. -/
def Answers (r : Res) : Prop := ∃ t, r = .next t

theorem Answers.next {t : State} : Answers (.next t) := ⟨t, rfl⟩

theorem Answers.ite {c : Prop} [Decidable c] {r q : Res} (h : Answers r) (g : Answers q) : Answers (if c then r else q) := by
  split
  · exact h
  · exact g

theorem scalarOp_answers {c : Core} {w : Bits} {s : State} {legal : Bool} {regs : List ℕ} {f : CoreSt → BitVec 64} : Answers (scalarOp c w s legal regs f) := by
  unfold scalarOp
  repeat' (with_reducible first | exact Answers.next | refine Answers.ite ?_ ?_ | split | dsimp only)

theorem opR_answers {c : Core} {w : Bits} {s : State} {f : BitVec 64 → BitVec 64 → BitVec 64} : Answers (opR c w s f) := by
  unfold opR
  repeat' (with_reducible first | exact Answers.next | exact scalarOp_answers | refine Answers.ite ?_ ?_ | split | dsimp only)

theorem opI_answers {c : Core} {w : Bits} {s : State} {legal : Bool} {f : BitVec 64 → BitVec 64 → BitVec 64} : Answers (opI c w s legal f) := by
  unfold opI
  repeat' (with_reducible first | exact Answers.next | exact scalarOp_answers | refine Answers.ite ?_ ?_ | split | dsimp only)

theorem branchOp_answers {c : Core} {w : Bits} {s : State} {f : BitVec 64 → BitVec 64 → Bool} : Answers (branchOp c w s f) := by
  unfold branchOp
  repeat' (with_reducible first | exact Answers.next | refine Answers.ite ?_ ?_ | split | dsimp only)

theorem onIssued_answers {s : State} {q : ℕ} {node : ℕ} {off : ℕ} {op : BitVec 8} {f : PktRun → State} : Answers (onIssued s q node off op f) := by
  unfold onIssued
  repeat' (with_reducible first | exact Answers.next | refine Answers.ite ?_ ?_ | split | dsimp only)

theorem execNop_answers {c : Core} {w : Bits} {s : State} : Answers (execNop c w s) := by
  unfold execNop
  repeat' (with_reducible first | exact Answers.next | refine Answers.ite ?_ ?_ | split | dsimp only)

theorem execAdd_answers {c : Core} {w : Bits} {s : State} : Answers (execAdd c w s) := by
  unfold execAdd
  repeat' (with_reducible first | exact Answers.next | exact opR_answers | refine Answers.ite ?_ ?_ | split | dsimp only)

theorem execSub_answers {c : Core} {w : Bits} {s : State} : Answers (execSub c w s) := by
  unfold execSub
  repeat' (with_reducible first | exact Answers.next | exact opR_answers | refine Answers.ite ?_ ?_ | split | dsimp only)

theorem execAnd_answers {c : Core} {w : Bits} {s : State} : Answers (execAnd c w s) := by
  unfold execAnd
  repeat' (with_reducible first | exact Answers.next | exact opR_answers | refine Answers.ite ?_ ?_ | split | dsimp only)

theorem execOr_answers {c : Core} {w : Bits} {s : State} : Answers (execOr c w s) := by
  unfold execOr
  repeat' (with_reducible first | exact Answers.next | exact opR_answers | refine Answers.ite ?_ ?_ | split | dsimp only)

theorem execXor_answers {c : Core} {w : Bits} {s : State} : Answers (execXor c w s) := by
  unfold execXor
  repeat' (with_reducible first | exact Answers.next | exact opR_answers | refine Answers.ite ?_ ?_ | split | dsimp only)

theorem execSll_answers {c : Core} {w : Bits} {s : State} : Answers (execSll c w s) := by
  unfold execSll
  repeat' (with_reducible first | exact Answers.next | exact opR_answers | refine Answers.ite ?_ ?_ | split | dsimp only)

theorem execSrl_answers {c : Core} {w : Bits} {s : State} : Answers (execSrl c w s) := by
  unfold execSrl
  repeat' (with_reducible first | exact Answers.next | exact opR_answers | refine Answers.ite ?_ ?_ | split | dsimp only)

theorem execSra_answers {c : Core} {w : Bits} {s : State} : Answers (execSra c w s) := by
  unfold execSra
  repeat' (with_reducible first | exact Answers.next | exact opR_answers | refine Answers.ite ?_ ?_ | split | dsimp only)

theorem execMul_answers {c : Core} {w : Bits} {s : State} : Answers (execMul c w s) := by
  unfold execMul
  repeat' (with_reducible first | exact Answers.next | exact opR_answers | refine Answers.ite ?_ ?_ | split | dsimp only)

theorem execMulhu_answers {c : Core} {w : Bits} {s : State} : Answers (execMulhu c w s) := by
  unfold execMulhu
  repeat' (with_reducible first | exact Answers.next | exact opR_answers | refine Answers.ite ?_ ?_ | split | dsimp only)

theorem execSlt_answers {c : Core} {w : Bits} {s : State} : Answers (execSlt c w s) := by
  unfold execSlt
  repeat' (with_reducible first | exact Answers.next | exact opR_answers | refine Answers.ite ?_ ?_ | split | dsimp only)

theorem execSltu_answers {c : Core} {w : Bits} {s : State} : Answers (execSltu c w s) := by
  unfold execSltu
  repeat' (with_reducible first | exact Answers.next | exact opR_answers | refine Answers.ite ?_ ?_ | split | dsimp only)

theorem execMin_answers {c : Core} {w : Bits} {s : State} : Answers (execMin c w s) := by
  unfold execMin
  repeat' (with_reducible first | exact Answers.next | exact opR_answers | refine Answers.ite ?_ ?_ | split | dsimp only)

theorem execMax_answers {c : Core} {w : Bits} {s : State} : Answers (execMax c w s) := by
  unfold execMax
  repeat' (with_reducible first | exact Answers.next | exact opR_answers | refine Answers.ite ?_ ?_ | split | dsimp only)

theorem execAddi_answers {c : Core} {w : Bits} {s : State} : Answers (execAddi c w s) := by
  unfold execAddi
  repeat' (with_reducible first | exact Answers.next | exact opI_answers | refine Answers.ite ?_ ?_ | split | dsimp only)

theorem execAndi_answers {c : Core} {w : Bits} {s : State} : Answers (execAndi c w s) := by
  unfold execAndi
  repeat' (with_reducible first | exact Answers.next | exact opI_answers | refine Answers.ite ?_ ?_ | split | dsimp only)

theorem execOri_answers {c : Core} {w : Bits} {s : State} : Answers (execOri c w s) := by
  unfold execOri
  repeat' (with_reducible first | exact Answers.next | exact opI_answers | refine Answers.ite ?_ ?_ | split | dsimp only)

theorem execXori_answers {c : Core} {w : Bits} {s : State} : Answers (execXori c w s) := by
  unfold execXori
  repeat' (with_reducible first | exact Answers.next | exact opI_answers | refine Answers.ite ?_ ?_ | split | dsimp only)

theorem execSlli_answers {c : Core} {w : Bits} {s : State} : Answers (execSlli c w s) := by
  unfold execSlli
  repeat' (with_reducible first | exact Answers.next | exact opI_answers | refine Answers.ite ?_ ?_ | split | dsimp only)

theorem execSrli_answers {c : Core} {w : Bits} {s : State} : Answers (execSrli c w s) := by
  unfold execSrli
  repeat' (with_reducible first | exact Answers.next | exact opI_answers | refine Answers.ite ?_ ?_ | split | dsimp only)

theorem execSrai_answers {c : Core} {w : Bits} {s : State} : Answers (execSrai c w s) := by
  unfold execSrai
  repeat' (with_reducible first | exact Answers.next | exact opI_answers | refine Answers.ite ?_ ?_ | split | dsimp only)

theorem execSlti_answers {c : Core} {w : Bits} {s : State} : Answers (execSlti c w s) := by
  unfold execSlti
  repeat' (with_reducible first | exact Answers.next | exact opI_answers | refine Answers.ite ?_ ?_ | split | dsimp only)

theorem execSltiu_answers {c : Core} {w : Bits} {s : State} : Answers (execSltiu c w s) := by
  unfold execSltiu
  repeat' (with_reducible first | exact Answers.next | exact opI_answers | refine Answers.ite ?_ ?_ | split | dsimp only)

theorem execLih_answers {c : Core} {w : Bits} {s : State} : Answers (execLih c w s) := by
  unfold execLih
  repeat' (with_reducible first | exact Answers.next | exact opI_answers | refine Answers.ite ?_ ?_ | split | dsimp only)

theorem execLi_answers {c : Core} {w : Bits} {s : State} : Answers (execLi c w s) := by
  unfold execLi
  repeat' (with_reducible first | exact Answers.next | exact opI_answers | refine Answers.ite ?_ ?_ | split | dsimp only)

theorem execMvlc_answers {c : Core} {w : Bits} {s : State} : Answers (execMvlc c w s) := by
  unfold execMvlc
  repeat' (with_reducible first | exact Answers.next | exact scalarOp_answers | refine Answers.ite ?_ ?_ | split | dsimp only)

theorem execMvsa_answers {c : Core} {w : Bits} {s : State} : Answers (execMvsa c w s) := by
  unfold execMvsa
  repeat' (with_reducible first | exact Answers.next | exact scalarOp_answers | refine Answers.ite ?_ ?_ | split | dsimp only)

theorem execAdda_answers {c : Core} {w : Bits} {s : State} : Answers (execAdda c w s) := by
  unfold execAdda
  repeat' (with_reducible first | exact Answers.next | refine Answers.ite ?_ ?_ | split | dsimp only)

theorem execLds_answers {c : Core} {w : Bits} {s : State} : Answers (execLds c w s) := by
  unfold execLds
  repeat' (with_reducible first | exact Answers.next | refine Answers.ite ?_ ?_ | split | dsimp only)

theorem execSts_answers {c : Core} {w : Bits} {s : State} : Answers (execSts c w s) := by
  unfold execSts
  repeat' (with_reducible first | exact Answers.next | refine Answers.ite ?_ ?_ | split | dsimp only)

theorem execLd_answers {c : Core} {w : Bits} {s : State} : Answers (execLd c w s) := by
  unfold execLd
  repeat' (with_reducible first | exact Answers.next | refine Answers.ite ?_ ?_ | split | dsimp only)

theorem execSt_answers {c : Core} {w : Bits} {s : State} : Answers (execSt c w s) := by
  unfold execSt
  repeat' (with_reducible first | exact Answers.next | refine Answers.ite ?_ ?_ | split | dsimp only)

theorem execAmo_answers {c : Core} {w : Bits} {s : State} : Answers (execAmo c w s) := by
  unfold execAmo
  repeat' (with_reducible first | exact Answers.next | refine Answers.ite ?_ ?_ | split | dsimp only)

theorem execSeqAccessComplete_answers {c : Core} {a : SeqAcc} {r : Reply} {s : State} : Answers (execSeqAccessComplete c a r s) := by
  unfold execSeqAccessComplete
  repeat' (with_reducible first | exact Answers.next | refine Answers.ite ?_ ?_ | split | dsimp only)

theorem execFence_answers {c : Core} {w : Bits} {s : State} : Answers (execFence c w s) := by
  unfold execFence
  repeat' (with_reducible first | exact Answers.next | refine Answers.ite ?_ ?_ | split | dsimp only)

theorem execFenceComplete_answers {c : Core} {s : State} : Answers (execFenceComplete c s) := by
  unfold execFenceComplete
  repeat' (with_reducible first | exact Answers.next | refine Answers.ite ?_ ?_ | split | dsimp only)

theorem execBeq_answers {c : Core} {w : Bits} {s : State} : Answers (execBeq c w s) := by
  unfold execBeq
  repeat' (with_reducible first | exact Answers.next | exact branchOp_answers | refine Answers.ite ?_ ?_ | split | dsimp only)

theorem execBne_answers {c : Core} {w : Bits} {s : State} : Answers (execBne c w s) := by
  unfold execBne
  repeat' (with_reducible first | exact Answers.next | exact branchOp_answers | refine Answers.ite ?_ ?_ | split | dsimp only)

theorem execBlt_answers {c : Core} {w : Bits} {s : State} : Answers (execBlt c w s) := by
  unfold execBlt
  repeat' (with_reducible first | exact Answers.next | exact branchOp_answers | refine Answers.ite ?_ ?_ | split | dsimp only)

theorem execBge_answers {c : Core} {w : Bits} {s : State} : Answers (execBge c w s) := by
  unfold execBge
  repeat' (with_reducible first | exact Answers.next | exact branchOp_answers | refine Answers.ite ?_ ?_ | split | dsimp only)

theorem execBltu_answers {c : Core} {w : Bits} {s : State} : Answers (execBltu c w s) := by
  unfold execBltu
  repeat' (with_reducible first | exact Answers.next | exact branchOp_answers | refine Answers.ite ?_ ?_ | split | dsimp only)

theorem execBgeu_answers {c : Core} {w : Bits} {s : State} : Answers (execBgeu c w s) := by
  unfold execBgeu
  repeat' (with_reducible first | exact Answers.next | exact branchOp_answers | refine Answers.ite ?_ ?_ | split | dsimp only)

theorem execJal_answers {c : Core} {w : Bits} {s : State} : Answers (execJal c w s) := by
  unfold execJal
  repeat' (with_reducible first | exact Answers.next | refine Answers.ite ?_ ?_ | split | dsimp only)

theorem execJr_answers {c : Core} {w : Bits} {s : State} : Answers (execJr c w s) := by
  unfold execJr
  repeat' (with_reducible first | exact Answers.next | refine Answers.ite ?_ ?_ | split | dsimp only)

theorem execLoop_answers {c : Core} {w : Bits} {s : State} : Answers (execLoop c w s) := by
  unfold execLoop
  repeat' (with_reducible first | exact Answers.next | refine Answers.ite ?_ ?_ | split | dsimp only)

theorem execWaite_answers {c : Core} {w : Bits} {s : State} : Answers (execWaite c w s) := by
  unfold execWaite
  repeat' (with_reducible first | exact Answers.next | refine Answers.ite ?_ ?_ | split | dsimp only)

theorem execWaiteComplete_answers {c : Core} {s : State} : Answers (execWaiteComplete c s) := by
  unfold execWaiteComplete
  repeat' (with_reducible first | exact Answers.next | refine Answers.ite ?_ ?_ | split | dsimp only)

theorem execWaitf_answers {c : Core} {w : Bits} {s : State} : Answers (execWaitf c w s) := by
  unfold execWaitf
  repeat' (with_reducible first | exact Answers.next | refine Answers.ite ?_ ?_ | split | dsimp only)

theorem execWaitfEvaluate_answers {c : Core} {r : Reply} {s : State} : Answers (execWaitfEvaluate c r s) := by
  unfold execWaitfEvaluate
  repeat' (with_reducible first | exact Answers.next | refine Answers.ite ?_ ?_ | split | dsimp only)

theorem execWaitfDeadline_answers {c : Core} {s : State} : Answers (execWaitfDeadline c s) := by
  unfold execWaitfDeadline
  repeat' (with_reducible first | exact Answers.next | refine Answers.ite ?_ ?_ | split | dsimp only)

theorem execWaitp_answers {c : Core} {w : Bits} {s : State} : Answers (execWaitp c w s) := by
  unfold execWaitp
  repeat' (with_reducible first | exact Answers.next | refine Answers.ite ?_ ?_ | split | dsimp only)

theorem execPlumbWaitRelease_answers {c : Core} {s : State} : Answers (execPlumbWaitRelease c s) := by
  unfold execPlumbWaitRelease
  repeat' (with_reducible first | exact Answers.next | refine Answers.ite ?_ ?_ | split | dsimp only)

theorem execRdplumb_answers {c : Core} {w : Bits} {s : State} : Answers (execRdplumb c w s) := by
  unfold execRdplumb
  repeat' (with_reducible first | exact Answers.next | refine Answers.ite ?_ ?_ | split | dsimp only)

theorem execDma_answers {c : Core} {w : Bits} {s : State} : Answers (execDma c w s) := by
  unfold execDma
  repeat' (with_reducible first | exact Answers.next | refine Answers.ite ?_ ?_ | split | dsimp only)

theorem execDmaDescriptorStart_answers {c : Core} {ch : Fin 4} {s : State} : Answers (execDmaDescriptorStart c ch s) := by
  unfold execDmaDescriptorStart
  repeat' (with_reducible first | exact Answers.next | refine Answers.ite ?_ ?_ | split | dsimp only)

theorem execDmaTimedRelease_answers {c : Core} {ch : Fin 4} {s : State} : Answers (execDmaTimedRelease c ch s) := by
  unfold execDmaTimedRelease
  repeat' (with_reducible first | exact Answers.next | refine Answers.ite ?_ ?_ | split | dsimp only)

theorem execDmaLineComplete_answers {c : Core} {ch : Fin 4} {r : Reply} {s : State} : Answers (execDmaLineComplete c ch r s) := by
  unfold execDmaLineComplete
  repeat' (with_reducible first | exact Answers.next | refine Answers.ite ?_ ?_ | split | dsimp only)

theorem execDmaDescriptorComplete_answers {c : Core} {ch : Fin 4} {s : State} : Answers (execDmaDescriptorComplete c ch s) := by
  unfold execDmaDescriptorComplete
  repeat' (with_reducible first | exact Answers.next | refine Answers.ite ?_ ?_ | split | dsimp only)

theorem execDmaSignalDone_answers {c : Core} {ch : Fin 4} {r : Reply} {s : State} : Answers (execDmaSignalDone c ch r s) := by
  unfold execDmaSignalDone
  repeat' (with_reducible first | exact Answers.next | refine Answers.ite ?_ ?_ | split | dsimp only)

theorem execAmm_answers {c : Core} {w : Bits} {w1 : BitVec 64} {s : State} : Answers (execAmm c w w1 s) := by
  unfold execAmm
  repeat' (with_reducible first | exact Answers.next | refine Answers.ite ?_ ?_ | split | dsimp only)

theorem execAmmAccept_answers {c : Core} {e : Fin 4} {s : State} : Answers (execAmmAccept c e s) := by
  unfold execAmmAccept
  repeat' (with_reducible first | exact Answers.next | refine Answers.ite ?_ ?_ | split | dsimp only)

theorem execAmmFirstArrayCycle_answers {c : Core} {e : Fin 4} {s : State} : Answers (execAmmFirstArrayCycle c e s) := by
  unfold execAmmFirstArrayCycle
  repeat' (with_reducible first | exact Answers.next | refine Answers.ite ?_ ?_ | split | dsimp only)

theorem execAmmTileDrain_answers {c : Core} {e : Fin 4} {s : State} : Answers (execAmmTileDrain c e s) := by
  unfold execAmmTileDrain
  repeat' (with_reducible first | exact Answers.next | refine Answers.ite ?_ ?_ | split | dsimp only)

theorem execAmmComplete_answers {c : Core} {e : Fin 4} {s : State} : Answers (execAmmComplete c e s) := by
  unfold execAmmComplete
  repeat' (with_reducible first | exact Answers.next | refine Answers.ite ?_ ?_ | split | dsimp only)

theorem execChn_answers {c : Core} {w : Bits} {s : State} : Answers (execChn c w s) := by
  unfold execChn
  repeat' (with_reducible first | exact Answers.next | refine Answers.ite ?_ ?_ | split | dsimp only)

theorem execCfold_answers {c : Core} {w : Bits} {s : State} : Answers (execCfold c w s) := by
  unfold execCfold
  repeat' (with_reducible first | exact Answers.next | refine Answers.ite ?_ ?_ | split | dsimp only)

theorem execCtbl_answers {c : Core} {w : Bits} {s : State} : Answers (execCtbl c w s) := by
  unfold execCtbl
  repeat' (with_reducible first | exact Answers.next | refine Answers.ite ?_ ?_ | split | dsimp only)

theorem execChiselAccept_answers {c : Core} {s : State} : Answers (execChiselAccept c s) := by
  unfold execChiselAccept
  repeat' (with_reducible first | exact Answers.next | refine Answers.ite ?_ ?_ | split | dsimp only)

theorem execChnFirstBeat_answers {c : Core} {s : State} : Answers (execChnFirstBeat c s) := by
  unfold execChnFirstBeat
  repeat' (with_reducible first | exact Answers.next | refine Answers.ite ?_ ?_ | split | dsimp only)

theorem execChnComplete_answers {c : Core} {s : State} : Answers (execChnComplete c s) := by
  unfold execChnComplete
  repeat' (with_reducible first | exact Answers.next | refine Answers.ite ?_ ?_ | split | dsimp only)

theorem execCfoldFirstRow_answers {c : Core} {s : State} : Answers (execCfoldFirstRow c s) := by
  unfold execCfoldFirstRow
  repeat' (with_reducible first | exact Answers.next | refine Answers.ite ?_ ?_ | split | dsimp only)

theorem execCfoldComplete_answers {c : Core} {s : State} : Answers (execCfoldComplete c s) := by
  unfold execCfoldComplete
  repeat' (with_reducible first | exact Answers.next | refine Answers.ite ?_ ?_ | split | dsimp only)

theorem execCtblComplete_answers {c : Core} {s : State} : Answers (execCtblComplete c s) := by
  unfold execCtblComplete
  repeat' (with_reducible first | exact Answers.next | refine Answers.ite ?_ ?_ | split | dsimp only)

theorem execChsDirectGo_answers {c : Core} {v : BitVec 32} {s : State} : Answers (execChsDirectGo c v s) := by
  unfold execChsDirectGo
  repeat' (with_reducible first | exact Answers.next | refine Answers.ite ?_ ?_ | split | dsimp only)

theorem execRdcr_answers {c : Core} {w : Bits} {s : State} : Answers (execRdcr c w s) := by
  unfold execRdcr
  repeat' (with_reducible first | exact Answers.next | refine Answers.ite ?_ ?_ | split | dsimp only)

theorem execWrcr_answers {c : Core} {w : Bits} {s : State} : Answers (execWrcr c w s) := by
  unfold execWrcr
  repeat' (with_reducible first | exact Answers.next | refine Answers.ite ?_ ?_ | split | dsimp only)

theorem execCoreCommit_answers {c : Core} {v : BitVec 32} {s : State} : Answers (execCoreCommit c v s) := by
  unfold execCoreCommit
  repeat' (with_reducible first | exact Answers.next | refine Answers.ite ?_ ?_ | split | dsimp only)

theorem execCommitApply_answers {c : Core} {s : State} : Answers (execCommitApply c s) := by
  unfold execCommitApply
  repeat' (with_reducible first | exact Answers.next | refine Answers.ite ?_ ?_ | split | dsimp only)

theorem execEcodeClr_answers {c : Core} {u : Fin 9} {s : State} : Answers (execEcodeClr c u s) := by
  unfold execEcodeClr
  repeat' (with_reducible first | exact Answers.next | refine Answers.ite ?_ ?_ | split | dsimp only)

theorem execVclr_answers {c : Core} {s : State} : Answers (execVclr c s) := by
  unfold execVclr
  repeat' (with_reducible first | exact Answers.next | refine Answers.ite ?_ ?_ | split | dsimp only)

theorem execNodeStart_answers {c : Core} {s : State} : Answers (execNodeStart c s) := by
  unfold execNodeStart
  repeat' (with_reducible first | exact Answers.next | refine Answers.ite ?_ ?_ | split | dsimp only)

theorem execEnd_answers {c : Core} {w : Bits} {s : State} : Answers (execEnd c w s) := by
  unfold execEnd
  repeat' (with_reducible first | exact Answers.next | refine Answers.ite ?_ ?_ | split | dsimp only)

theorem execNodeEnd_answers {c : Core} {s : State} : Answers (execNodeEnd c s) := by
  unfold execNodeEnd
  repeat' (with_reducible first | exact Answers.next | refine Answers.ite ?_ ?_ | split | dsimp only)

theorem execKernelFaultEnd_answers {c : Core} {s : State} : Answers (execKernelFaultEnd c s) := by
  unfold execKernelFaultEnd
  repeat' (with_reducible first | exact Answers.next | refine Answers.ite ?_ ?_ | split | dsimp only)

theorem execDirectKernelGo_answers {c : Core} {v : BitVec 32} {s : State} : Answers (execDirectKernelGo c v s) := by
  unfold execDirectKernelGo
  repeat' (with_reducible first | exact Answers.next | refine Answers.ite ?_ ?_ | split | dsimp only)

theorem execAshlarSingleBitError_answers {c : Core} {e : Fin 4} {loc : Fin 10} {s : State} : Answers (execAshlarSingleBitError c e loc s) := by
  unfold execAshlarSingleBitError
  repeat' (with_reducible first | exact Answers.next | refine Answers.ite ?_ ?_ | split | dsimp only)

theorem execAshlarDoubleBitError_answers {c : Core} {e : Fin 4} {s : State} : Answers (execAshlarDoubleBitError c e s) := by
  unfold execAshlarDoubleBitError
  repeat' (with_reducible first | exact Answers.next | refine Answers.ite ?_ ?_ | split | dsimp only)

theorem execChiselEccError_answers {c : Core} {double : Bool} {loc : Fin 3} {s : State} : Answers (execChiselEccError c double loc s) := by
  unfold execChiselEccError
  repeat' (with_reducible first | exact Answers.next | refine Answers.ite ?_ ?_ | split | dsimp only)

theorem execSpadEccError_answers {c : Core} {double : Bool} {bank : Fin 64} {s : State} : Answers (execSpadEccError c double bank s) := by
  unfold execSpadEccError
  repeat' (with_reducible first | exact Answers.next | refine Answers.ite ?_ ?_ | split | dsimp only)

theorem execQdbPush_answers {q : QId} {v : BitVec 32} {s : State} : Answers (execQdbPush q v s) := by
  unfold execQdbPush
  repeat' (with_reducible first | exact Answers.next | refine Answers.ite ?_ ?_ | split | dsimp only)

theorem execQctlWrite_answers {q : QId} {view : View} {v : BitVec 32} {s : State} : Answers (execQctlWrite q view v s) := by
  unfold execQctlWrite
  repeat' (with_reducible first | exact Answers.next | refine Answers.ite ?_ ?_ | split | dsimp only)

theorem execGclr_answers {q : QId} {s : State} : Answers (execGclr q s) := by
  unfold execGclr
  repeat' (with_reducible first | exact Answers.next | refine Answers.ite ?_ ?_ | split | dsimp only)

theorem execCevctlWrite_answers {x : CtxId} {view : View} {v : BitVec 32} {s : State} : Answers (execCevctlWrite x view v s) := by
  unfold execCevctlWrite
  repeat' (with_reducible first | exact Answers.next | refine Answers.ite ?_ ?_ | split | dsimp only)

theorem execCevptrWrite_answers {x : CtxId} {view : View} {v : BitVec 32} {s : State} : Answers (execCevptrWrite x view v s) := by
  unfold execCevptrWrite
  repeat' (with_reducible first | exact Answers.next | refine Answers.ite ?_ ?_ | split | dsimp only)

theorem execQueuePop_answers {r : Reply} {s : State} : Answers (execQueuePop r s) := by
  unfold execQueuePop
  repeat' (with_reducible first | exact Answers.next | refine Answers.ite ?_ ?_ | split | dsimp only)

theorem execEntryStart_answers {q : QId} {r : Reply} {s : State} : Answers (execEntryStart q r s) := by
  unfold execEntryStart
  repeat' (with_reducible first | exact Answers.next | refine Answers.ite ?_ ?_ | split | dsimp only)

theorem execNodeReady_answers {q : QId} {node : ℕ} {s : State} : Answers (execNodeReady q node s) := by
  unfold execNodeReady
  repeat' (with_reducible first | exact Answers.next | refine Answers.ite ?_ ?_ | split | dsimp only)

theorem execEntryComplete_answers {q : QId} {s : State} : Answers (execEntryComplete q s) := by
  unfold execEntryComplete
  repeat' (with_reducible first | exact Answers.next | refine Answers.ite ?_ ?_ | split | dsimp only)

theorem execHangDetect_answers {q : QId} {s : State} : Answers (execHangDetect q s) := by
  unfold execHangDetect
  repeat' (with_reducible first | exact Answers.next | refine Answers.ite ?_ ?_ | split | dsimp only)

theorem execQueueResetFinish_answers {q : QId} {s : State} : Answers (execQueueResetFinish q s) := by
  unfold execQueueResetFinish
  repeat' (with_reducible first | exact Answers.next | refine Answers.ite ?_ ?_ | split | dsimp only)

theorem execPacketIssue_answers {q : QId} {node : ℕ} {r : Reply} {s : State} : Answers (execPacketIssue q node r s) := by
  unfold execPacketIssue
  repeat' (with_reducible first | exact Answers.next | refine Answers.ite ?_ ?_ | split | dsimp only)

theorem execPacketComplete_answers {q : QId} {node : ℕ} {off : ℕ} {s : State} : Answers (execPacketComplete q node off s) := by
  unfold execPacketComplete
  repeat' (with_reducible first | exact Answers.next | refine Answers.ite ?_ ?_ | split | dsimp only)

theorem execPacketNop_answers {q : QId} {node : ℕ} {off : ℕ} {s : State} : Answers (execPacketNop q node off s) := by
  unfold execPacketNop
  repeat' (with_reducible first | exact Answers.next | exact onIssued_answers | refine Answers.ite ?_ ?_ | split | dsimp only)

theorem execDispatch_answers {q : QId} {node : ℕ} {off : ℕ} {s : State} : Answers (execDispatch q node off s) := by
  unfold execDispatch
  repeat' (with_reducible first | exact Answers.next | exact onIssued_answers | refine Answers.ite ?_ ?_ | split | dsimp only)

theorem execWrite_answers {q : QId} {node : ℕ} {off : ℕ} {r : Reply} {s : State} : Answers (execWrite q node off r s) := by
  unfold execWrite
  repeat' (with_reducible first | exact Answers.next | exact onIssued_answers | refine Answers.ite ?_ ?_ | split | dsimp only)

theorem execSignal_answers {q : QId} {node : ℕ} {off : ℕ} {r : Reply} {s : State} : Answers (execSignal q node off r s) := by
  unfold execSignal
  repeat' (with_reducible first | exact Answers.next | exact onIssued_answers | refine Answers.ite ?_ ?_ | split | dsimp only)

theorem execWaitmem_answers {q : QId} {node : ℕ} {off : ℕ} {_r : Reply} {s : State} : Answers (execWaitmem q node off _r s) := by
  unfold execWaitmem
  repeat' (with_reducible first | exact Answers.next | exact onIssued_answers | refine Answers.ite ?_ ?_ | split | dsimp only)

theorem execWaitmemEvaluate_answers {q : QId} {node : ℕ} {off : ℕ} {r : Reply} {s : State} : Answers (execWaitmemEvaluate q node off r s) := by
  unfold execWaitmemEvaluate
  repeat' (with_reducible first | exact Answers.next | refine Answers.ite ?_ ?_ | split | dsimp only)

theorem execEnq_answers {q : QId} {node : ℕ} {off : ℕ} {r : Reply} {s : State} : Answers (execEnq q node off r s) := by
  unfold execEnq
  repeat' (with_reducible first | exact Answers.next | exact onIssued_answers | refine Answers.ite ?_ ?_ | split | dsimp only)

theorem execEnqRetry_answers {q : QId} {node : ℕ} {off : ℕ} {r : Reply} {s : State} : Answers (execEnqRetry q node off r s) := by
  unfold execEnqRetry
  repeat' (with_reducible first | exact Answers.next | refine Answers.ite ?_ ?_ | split | dsimp only)

theorem execGinit_answers {q : QId} {node : ℕ} {off : ℕ} {s : State} : Answers (execGinit q node off s) := by
  unfold execGinit
  repeat' (with_reducible first | exact Answers.next | exact onIssued_answers | refine Answers.ite ?_ ?_ | split | dsimp only)

theorem execGpatch_answers {q : QId} {node : ℕ} {off : ℕ} {s : State} : Answers (execGpatch q node off s) := by
  unfold execGpatch
  repeat' (with_reducible first | exact Answers.next | exact onIssued_answers | refine Answers.ite ?_ ?_ | split | dsimp only)

theorem execGretire_answers {q : QId} {node : ℕ} {off : ℕ} {s : State} : Answers (execGretire q node off s) := by
  unfold execGretire
  repeat' (with_reducible first | exact Answers.next | exact onIssued_answers | refine Answers.ite ?_ ?_ | split | dsimp only)

theorem execPoolctlWrite_answers {p : PoolId} {view : View} {v : BitVec 32} {s : State} : Answers (execPoolctlWrite p view v s) := by
  unfold execPoolctlWrite
  repeat' (with_reducible first | exact Answers.next | refine Answers.ite ?_ ?_ | split | dsimp only)

theorem execPoolEnableDone_answers {p : PoolId} {s : State} : Answers (execPoolEnableDone p s) := by
  unfold execPoolEnableDone
  repeat' (with_reducible first | exact Answers.next | refine Answers.ite ?_ ?_ | split | dsimp only)

theorem execPoolAlloc_answers {q : QId} {node : ℕ} {off : ℕ} {s : State} : Answers (execPoolAlloc q node off s) := by
  unfold execPoolAlloc
  repeat' (with_reducible first | exact Answers.next | exact onIssued_answers | refine Answers.ite ?_ ?_ | split | dsimp only)

theorem execPoolFree_answers {q : QId} {node : ℕ} {off : ℕ} {s : State} : Answers (execPoolFree q node off s) := by
  unfold execPoolFree
  repeat' (with_reducible first | exact Answers.next | exact onIssued_answers | refine Answers.ite ?_ ?_ | split | dsimp only)

theorem execPoolEpochEnd_answers {s : State} : Answers (execPoolEpochEnd s) := by
  unfold execPoolEpochEnd
  repeat' (with_reducible first | exact Answers.next | refine Answers.ite ?_ ?_ | split | dsimp only)

theorem execCoreGrant_answers {s : State} : Answers (execCoreGrant s) := by
  unfold execCoreGrant
  repeat' (with_reducible first | exact Answers.next | refine Answers.ite ?_ ?_ | split | dsimp only)

theorem execTimedPrepare_answers {g : ℕ} {s : State} : Answers (execTimedPrepare g s) := by
  unfold execTimedPrepare
  repeat' (with_reducible first | exact Answers.next | refine Answers.ite ?_ ?_ | split | dsimp only)

theorem execTimedRelease_answers {g : ℕ} {s : State} : Answers (execTimedRelease g s) := by
  unfold execTimedRelease
  repeat' (with_reducible first | exact Answers.next | refine Answers.ite ?_ ?_ | split | dsimp only)

theorem execPreempt_answers {g : ℕ} {s : State} : Answers (execPreempt g s) := by
  unfold execPreempt
  repeat' (with_reducible first | exact Answers.next | refine Answers.ite ?_ ?_ | split | dsimp only)

theorem execCoreSaveDone_answers {c : Core} {s : State} : Answers (execCoreSaveDone c s) := by
  unfold execCoreSaveDone
  repeat' (with_reducible first | exact Answers.next | refine Answers.ite ?_ ?_ | split | dsimp only)

theorem execRestore_answers {g : ℕ} {s : State} : Answers (execRestore g s) := by
  unfold execRestore
  repeat' (with_reducible first | exact Answers.next | refine Answers.ite ?_ ?_ | split | dsimp only)

theorem execCoreFailure_answers {c : Core} {s : State} : Answers (execCoreFailure c s) := by
  unfold execCoreFailure
  repeat' (with_reducible first | exact Answers.next | refine Answers.ite ?_ ?_ | split | dsimp only)

theorem execTableSearch_answers {x : XUser} {s : State} : Answers (execTableSearch x s) := by
  unfold execTableSearch
  repeat' (with_reducible first | exact Answers.next | refine Answers.ite ?_ ?_ | split | dsimp only)

theorem execTableSearchDone_answers {x : XUser} {s : State} : Answers (execTableSearchDone x s) := by
  unfold execTableSearchDone
  repeat' (with_reducible first | exact Answers.next | refine Answers.ite ?_ ?_ | split | dsimp only)

theorem execXctlInv_answers {x : CtxId} {view : View} {s : State} : Answers (execXctlInv x view s) := by
  unfold execXctlInv
  repeat' (with_reducible first | exact Answers.next | refine Answers.ite ?_ ?_ | split | dsimp only)

theorem execXctlEn_answers {x : CtxId} {view : View} {v : BitVec 32} {s : State} : Answers (execXctlEn x view v s) := by
  unfold execXctlEn
  repeat' (with_reducible first | exact Answers.next | refine Answers.ite ?_ ?_ | split | dsimp only)

theorem execInvalidationDone_answers {x : CtxId} {s : State} : Answers (execInvalidationDone x s) := by
  unfold execInvalidationDone
  repeat' (with_reducible first | exact Answers.next | refine Answers.ite ?_ ?_ | split | dsimp only)

theorem execOwncmd_answers {view : View} {v : BitVec 64} {s : State} : Answers (execOwncmd view v s) := by
  unfold execOwncmd
  repeat' (with_reducible first | exact Answers.next | refine Answers.ite ?_ ?_ | split | dsimp only)

theorem execOwncmdDone_answers {s : State} : Answers (execOwncmdDone s) := by
  unfold execOwncmdDone
  repeat' (with_reducible first | exact Answers.next | refine Answers.ite ?_ ?_ | split | dsimp only)

theorem execBar2Access_answers {off : ℕ} {size : ℕ} {wr : Option (List Byte)} {s : State} : Answers (execBar2Access off size wr s) := by
  unfold execBar2Access
  repeat' (with_reducible first | exact Answers.next | refine Answers.ite ?_ ?_ | split | dsimp only)

theorem execMigrationComplete_answers {i : ℕ} {r : Reply} {s : State} : Answers (execMigrationComplete i r s) := by
  unfold execMigrationComplete
  repeat' (with_reducible first | exact Answers.next | refine Answers.ite ?_ ?_ | split | dsimp only)

theorem execMigrationFail_answers {i : ℕ} {code : BitVec 8} {s : State} : Answers (execMigrationFail i code s) := by
  unfold execMigrationFail
  repeat' (with_reducible first | exact Answers.next | refine Answers.ite ?_ ?_ | split | dsimp only)

theorem execMigratePendingRecheck_answers {x : XUser} {s : State} : Answers (execMigratePendingRecheck x s) := by
  unfold execMigratePendingRecheck
  repeat' (with_reducible first | exact Answers.next | refine Answers.ite ?_ ?_ | split | dsimp only)

theorem execMortarCrcFail_answers {f : Fin 264} {grp : ℕ} {replaysFailed : Bool} {s : State} : Answers (execMortarCrcFail f grp replaysFailed s) := by
  unfold execMortarCrcFail
  repeat' (with_reducible first | exact Answers.next | refine Answers.ite ?_ ?_ | split | dsimp only)

theorem execMortarSteerDone_answers {f : Fin 264} {s : State} : Answers (execMortarSteerDone f s) := by
  unfold execMortarSteerDone
  repeat' (with_reducible first | exact Answers.next | refine Answers.ite ?_ ?_ | split | dsimp only)

theorem execLintelFlitCrcFail_answers {l : Fin 24} {lane : Option (Fin 18)} {replaysFailed : Bool} {s : State} : Answers (execLintelFlitCrcFail l lane replaysFailed s) := by
  unfold execLintelFlitCrcFail
  repeat' (with_reducible first | exact Answers.next | refine Answers.ite ?_ ?_ | split | dsimp only)

theorem execLintelClockLockLoss_answers {l : Fin 24} {lane : Fin 18} {s : State} : Answers (execLintelClockLockLoss l lane s) := by
  unfold execLintelClockLockLoss
  repeat' (with_reducible first | exact Answers.next | refine Answers.ite ?_ ?_ | split | dsimp only)

theorem execLintelRetrainDone_answers {l : Fin 24} {failed : List (Fin 18)} {s : State} : Answers (execLintelRetrainDone l failed s) := by
  unfold execLintelRetrainDone
  repeat' (with_reducible first | exact Answers.next | refine Answers.ite ?_ ?_ | split | dsimp only)

theorem execLintelRemapDone_answers {l : Fin 24} {s : State} : Answers (execLintelRemapDone l s) := by
  unfold execLintelRemapDone
  repeat' (with_reducible first | exact Answers.next | refine Answers.ite ?_ ?_ | split | dsimp only)

theorem execHbmCorrectableRead_answers {ch : HCh} {y : HbmRead} {s : State} : Answers (execHbmCorrectableRead ch y s) := by
  unfold execHbmCorrectableRead
  repeat' (with_reducible first | exact Answers.next | refine Answers.ite ?_ ?_ | split | dsimp only)

theorem execHbmUncorrectableRead_answers {ch : HCh} {y : ℕ} {allFail : Bool} {s : State} : Answers (execHbmUncorrectableRead ch y allFail s) := by
  unfold execHbmUncorrectableRead
  repeat' (with_reducible first | exact Answers.next | refine Answers.ite ?_ ?_ | split | dsimp only)

theorem execHbmLinkError_answers {ch : HCh} {retriesFailed : Bool} {s : State} : Answers (execHbmLinkError ch retriesFailed s) := by
  unfold execHbmLinkError
  repeat' (with_reducible first | exact Answers.next | refine Answers.ite ?_ ?_ | split | dsimp only)

theorem execHbmRetrainDone_answers {ch : HCh} {ok : Bool} {s : State} : Answers (execHbmRetrainDone ch ok s) := by
  unfold execHbmRetrainDone
  repeat' (with_reducible first | exact Answers.next | refine Answers.ite ?_ ?_ | split | dsimp only)

theorem execRowRemap_answers {ch : HCh} {pc : Fin 2} {bank : Fin 32} {row : Fin 18432} {bad : List (Fin 16)} {s : State} : Answers (execRowRemap ch pc bank row bad s) := by
  unfold execRowRemap
  repeat' (with_reducible first | exact Answers.next | refine Answers.ite ?_ ?_ | split | dsimp only)

theorem execChannelRetire_answers {ch : HCh} {s : State} : Answers (execChannelRetire ch s) := by
  unfold execChannelRetire
  repeat' (with_reducible first | exact Answers.next | refine Answers.ite ?_ ?_ | split | dsimp only)

theorem execRecalStart_answers {ch : HCh} {why : RecalWhy} {s : State} : Answers (execRecalStart ch why s) := by
  unfold execRecalStart
  repeat' (with_reducible first | exact Answers.next | refine Answers.ite ?_ ?_ | split | dsimp only)

theorem execRecalStep_answers {ch : HCh} {ok : Bool} {s : State} : Answers (execRecalStep ch ok s) := by
  unfold execRecalStep
  repeat' (with_reducible first | exact Answers.next | refine Answers.ite ?_ ?_ | split | dsimp only)

theorem execPacketRoute_answers {src : Option Port} {k : SpanPkt} {s : State} : Answers (execPacketRoute src k s) := by
  unfold execPacketRoute
  repeat' (with_reducible first | exact Answers.next | refine Answers.ite ?_ ?_ | split | dsimp only)

theorem execPacketStaleDrop_answers {w : WaitAt} {i : ℕ} {s : State} : Answers (execPacketStaleDrop w i s) := by
  unfold execPacketStaleDrop
  repeat' (with_reducible first | exact Answers.next | refine Answers.ite ?_ ?_ | split | dsimp only)

theorem execRouteGo_answers {view : View} {s : State} : Answers (execRouteGo view s) := by
  unfold execRouteGo
  repeat' (with_reducible first | exact Answers.next | refine Answers.ite ?_ ?_ | split | dsimp only)

theorem execRouteSwitch_answers {s : State} : Answers (execRouteSwitch s) := by
  unfold execRouteSwitch
  repeat' (with_reducible first | exact Answers.next | refine Answers.ite ?_ ?_ | split | dsimp only)

theorem execRouteDrainEnd_answers {s : State} : Answers (execRouteDrainEnd s) := by
  unfold execRouteDrainEnd
  repeat' (with_reducible first | exact Answers.next | refine Answers.ite ?_ ?_ | split | dsimp only)

theorem execRouteEnWrite_answers {view : View} {en : Bool} {s : State} : Answers (execRouteEnWrite view en s) := by
  unfold execRouteEnWrite
  repeat' (with_reducible first | exact Answers.next | refine Answers.ite ?_ ?_ | split | dsimp only)

theorem execProtoActWrite_answers {view : View} {v : BitVec 8} {s : State} : Answers (execProtoActWrite view v s) := by
  unfold execProtoActWrite
  repeat' (with_reducible first | exact Answers.next | refine Answers.ite ?_ ?_ | split | dsimp only)

theorem execSpanIdWrite_answers {view : View} {v : BitVec 32} {s : State} : Answers (execSpanIdWrite view v s) := by
  unfold execSpanIdWrite
  repeat' (with_reducible first | exact Answers.next | refine Answers.ite ?_ ?_ | split | dsimp only)

theorem execLaneLeave_answers {p : Port} {l : Fin 8} {_why : LaneWhy} {s : State} : Answers (execLaneLeave p l _why s) := by
  unfold execLaneLeave
  repeat' (with_reducible first | exact Answers.next | refine Answers.ite ?_ ?_ | split | dsimp only)

theorem execPortHoldEnd_answers {p : Port} {s : State} : Answers (execPortHoldEnd p s) := by
  unfold execPortHoldEnd
  repeat' (with_reducible first | exact Answers.next | refine Answers.ite ?_ ?_ | split | dsimp only)

theorem execLaneRetrainAttemptEnd_answers {p : Port} {l : Fin 8} {ok : Bool} {s : State} : Answers (execLaneRetrainAttemptEnd p l ok s) := by
  unfold execLaneRetrainAttemptEnd
  repeat' (with_reducible first | exact Answers.next | refine Answers.ite ?_ ?_ | split | dsimp only)

theorem execPortRetrainAttemptEnd_answers {p : Port} {ok : Bool} {failed : List (Fin 8)} {s : State} : Answers (execPortRetrainAttemptEnd p ok failed s) := by
  unfold execPortRetrainAttemptEnd
  repeat' (with_reducible first | exact Answers.next | refine Answers.ite ?_ ?_ | split | dsimp only)

theorem execPortDownRetry_answers {p : Port} {s : State} : Answers (execPortDownRetry p s) := by
  unfold execPortDownRetry
  repeat' (with_reducible first | exact Answers.next | refine Answers.ite ?_ ?_ | split | dsimp only)

theorem execPortTrained_answers {p : Port} {peer : PeerInfo} {failed : List (Fin 8)} {s : State} : Answers (execPortTrained p peer failed s) := by
  unfold execPortTrained
  repeat' (with_reducible first | exact Answers.next | refine Answers.ite ?_ ?_ | split | dsimp only)

theorem execFlitReceive_answers {p : Port} {h : BitVec 64} {ok : Bool} {body : List SpanPkt} {arrival : Arrival} {s : State} : Answers (execFlitReceive p h ok body arrival s) := by
  unfold execFlitReceive
  repeat' (with_reducible first | exact Answers.next | refine Answers.ite ?_ ?_ | split | dsimp only)

theorem execSpanCommit_answers {view : View} {s : State} : Answers (execSpanCommit view s) := by
  unfold execSpanCommit
  repeat' (with_reducible first | exact Answers.next | refine Answers.ite ?_ ?_ | split | dsimp only)

theorem execRemoteRequestServe_answers {k : SpanPkt} {s : State} : Answers (execRemoteRequestServe k s) := by
  unfold execRemoteRequestServe
  repeat' (with_reducible first | exact Answers.next | refine Answers.ite ?_ ?_ | split | dsimp only)

theorem execRemoteResponse_answers {k : SpanPkt} {s : State} : Answers (execRemoteResponse k s) := by
  unfold execRemoteResponse
  repeat' (with_reducible first | exact Answers.next | refine Answers.ite ?_ ?_ | split | dsimp only)

theorem execRemoteTimeout_answers {tag : BitVec 18} {s : State} : Answers (execRemoteTimeout tag s) := by
  unfold execRemoteTimeout
  repeat' (with_reducible first | exact Answers.next | refine Answers.ite ?_ ?_ | split | dsimp only)

theorem execPlumbInterval_answers {d2 : ℤ} {nbrCount : BitVec 64} {nbrLocked : Bool} {s : State} : Answers (execPlumbInterval d2 nbrCount nbrLocked s) := by
  unfold execPlumbInterval
  repeat' (with_reducible first | exact Answers.next | refine Answers.ite ?_ ?_ | split | dsimp only)

theorem execPlumbRootLockTimeout_answers {s : State} : Answers (execPlumbRootLockTimeout s) := by
  unfold execPlumbRootLockTimeout
  repeat' (with_reducible first | exact Answers.next | refine Answers.ite ?_ ?_ | split | dsimp only)

theorem execModEnWrite_answers {k : Port} {en : Bool} {s : State} : Answers (execModEnWrite k en s) := by
  unfold execModEnWrite
  repeat' (with_reducible first | exact Answers.next | refine Answers.ite ?_ ?_ | split | dsimp only)

theorem execModRampStart_answers {k : Port} {s : State} : Answers (execModRampStart k s) := by
  unfold execModRampStart
  repeat' (with_reducible first | exact Answers.next | refine Answers.ite ?_ ?_ | split | dsimp only)

theorem execModOn_answers {k : Port} {s : State} : Answers (execModOn k s) := by
  unfold execModOn
  repeat' (with_reducible first | exact Answers.next | refine Answers.ite ?_ ?_ | split | dsimp only)

theorem execModWindowEnd_answers {k : Port} {vout : BitVec 12} {s : State} : Answers (execModWindowEnd k vout s) := by
  unfold execModWindowEnd
  repeat' (with_reducible first | exact Answers.next | refine Answers.ite ?_ ?_ | split | dsimp only)

theorem execModCurrentLimit_answers {k : Port} {enter : Bool} {s : State} : Answers (execModCurrentLimit k enter s) := by
  unfold execModCurrentLimit
  repeat' (with_reducible first | exact Answers.next | refine Answers.ite ?_ ?_ | split | dsimp only)

theorem execModLimitLatch_answers {k : Port} {s : State} : Answers (execModLimitLatch k s) := by
  unfold execModLimitLatch
  repeat' (with_reducible first | exact Answers.next | refine Answers.ite ?_ ?_ | split | dsimp only)

theorem execModRetry_answers {k : Port} {s : State} : Answers (execModRetry k s) := by
  unfold execModRetry
  repeat' (with_reducible first | exact Answers.next | refine Answers.ite ?_ ?_ | split | dsimp only)

theorem execModRetriesClear_answers {k : Port} {s : State} : Answers (execModRetriesClear k s) := by
  unfold execModRetriesClear
  repeat' (with_reducible first | exact Answers.next | refine Answers.ite ?_ ?_ | split | dsimp only)

theorem execModCtlClr_answers {k : Port} {s : State} : Answers (execModCtlClr k s) := by
  unfold execModCtlClr
  repeat' (with_reducible first | exact Answers.next | refine Answers.ite ?_ ?_ | split | dsimp only)

theorem execVmodLoss_answers {s : State} : Answers (execVmodLoss s) := by
  unfold execVmodLoss
  repeat' (with_reducible first | exact Answers.next | refine Answers.ite ?_ ?_ | split | dsimp only)

theorem execVmodReturn_answers {s : State} : Answers (execVmodReturn s) := by
  unfold execVmodReturn
  repeat' (with_reducible first | exact Answers.next | refine Answers.ite ?_ ?_ | split | dsimp only)

theorem execDomainTransitionDone_answers {d : Fin 108} {s : State} : Answers (execDomainTransitionDone d s) := by
  unfold execDomainTransitionDone
  repeat' (with_reducible first | exact Answers.next | refine Answers.ite ?_ ?_ | split | dsimp only)

theorem execMasonHartsStopped_answers {m : Fin 8} {s : State} : Answers (execMasonHartsStopped m s) := by
  unfold execMasonHartsStopped
  repeat' (with_reducible first | exact Answers.next | refine Answers.ite ?_ ?_ | split | dsimp only)

theorem execClockChangeApply_answers {g : Fin 64} {s : State} : Answers (execClockChangeApply g s) := by
  unfold execClockChangeApply
  repeat' (with_reducible first | exact Answers.next | refine Answers.ite ?_ ?_ | split | dsimp only)

theorem execButtressEntered_answers {s : State} : Answers (execButtressEntered s) := by
  unfold execButtressEntered
  repeat' (with_reducible first | exact Answers.next | refine Answers.ite ?_ ?_ | split | dsimp only)

theorem execButtressNRise_answers {s : State} : Answers (execButtressNRise s) := by
  unfold execButtressNRise
  repeat' (with_reducible first | exact Answers.next | refine Answers.ite ?_ ?_ | split | dsimp only)

theorem execButtressEnd_answers {s : State} : Answers (execButtressEnd s) := by
  unfold execButtressEnd
  repeat' (with_reducible first | exact Answers.next | refine Answers.ite ?_ ?_ | split | dsimp only)

theorem execRegulatorSettled_answers {t : Tower} {s : State} : Answers (execRegulatorSettled t s) := by
  unfold execRegulatorSettled
  repeat' (with_reducible first | exact Answers.next | refine Answers.ite ?_ ?_ | split | dsimp only)

theorem execAvsSilent_answers {t : Tower} {s : State} : Answers (execAvsSilent t s) := by
  unfold execAvsSilent
  repeat' (with_reducible first | exact Answers.next | refine Answers.ite ?_ ?_ | split | dsimp only)

theorem execPowerInterval_answers {m : PowerMeas} {s : State} : Answers (execPowerInterval m s) := by
  unfold execPowerInterval
  repeat' (with_reducible first | exact Answers.next | refine Answers.ite ?_ ?_ | split | dsimp only)

theorem execGroupFreqStep_answers {p : List ℕ} {s : State} : Answers (execGroupFreqStep p s) := by
  unfold execGroupFreqStep
  repeat' (with_reducible first | exact Answers.next | refine Answers.ite ?_ ?_ | split | dsimp only)

theorem execThermalTrip_answers {sensor : Fin 74} {s : State} : Answers (execThermalTrip sensor s) := by
  unfold execThermalTrip
  repeat' (with_reducible first | exact Answers.next | refine Answers.ite ?_ ?_ | split | dsimp only)

theorem execThermalShutdown_answers {s : State} : Answers (execThermalShutdown s) := by
  unfold execThermalShutdown
  repeat' (with_reducible first | exact Answers.next | refine Answers.ite ?_ ?_ | split | dsimp only)

theorem execCoolantStale_answers {s : State} : Answers (execCoolantStale s) := by
  unfold execCoolantStale
  repeat' (with_reducible first | exact Answers.next | refine Answers.ite ?_ ?_ | split | dsimp only)

theorem execQuarryKindChange_answers {t : Tower} {u : Fin 8} {s : State} : Answers (execQuarryKindChange t u s) := by
  unfold execQuarryKindChange
  repeat' (with_reducible first | exact Answers.next | refine Answers.ite ?_ ?_ | split | dsimp only)

theorem execQuarryEccError_answers {t : Tower} {u : Fin 8} {double : Bool} {line : ℕ} {s : State} : Answers (execQuarryEccError t u double line s) := by
  unfold execQuarryEccError
  repeat' (with_reducible first | exact Answers.next | refine Answers.ite ?_ ?_ | split | dsimp only)

theorem execRlcRead_answers {t : Tower} {rq : RlcUser} {addr : BitVec 64} {ctx : CtxId} {nc : Bool} {ext : Option (BitVec 512)} {ext2 : Option (BitVec 512)} {s : State} : Answers (execRlcRead t rq addr ctx nc ext ext2 s) := by
  unfold execRlcRead
  repeat' (with_reducible first | exact Answers.next | refine Answers.ite ?_ ?_ | split | dsimp only)

theorem execRlcWrite_answers {t : Tower} {rq : RlcUser} {addr : BitVec 64} {ctx : CtxId} {nc : Bool} {off : ℕ} {data : List Byte} {ext : Option (BitVec 512)} {s : State} : Answers (execRlcWrite t rq addr ctx nc off data ext s) := by
  unfold execRlcWrite
  repeat' (with_reducible first | exact Answers.next | refine Answers.ite ?_ ?_ | split | dsimp only)

theorem execReleaseFlush_answers {x : CtxId} {s : State} : Answers (execReleaseFlush x s) := by
  unfold execReleaseFlush
  repeat' (with_reducible first | exact Answers.next | refine Answers.ite ?_ ?_ | split | dsimp only)

theorem execReleaseFlushDone_answers {x : CtxId} {s : State} : Answers (execReleaseFlushDone x s) := by
  unfold execReleaseFlushDone
  repeat' (with_reducible first | exact Answers.next | refine Answers.ite ?_ ?_ | split | dsimp only)

theorem execRlcEccError_answers {t : Tower} {way : Fin 16} {double : Bool} {line : Option (BitVec 64)} {s : State} : Answers (execRlcEccError t way double line s) := by
  unfold execRlcEccError
  repeat' (with_reducible first | exact Answers.next | refine Answers.ite ?_ ?_ | split | dsimp only)

theorem execSchedulerEpoch_answers {s : State} : Answers (execSchedulerEpoch s) := by
  unfold execSchedulerEpoch
  repeat' (with_reducible first | exact Answers.next | refine Answers.ite ?_ ?_ | split | dsimp only)

theorem execMsixUnmask_answers {v : Fin 2048} {s : State} : Answers (execMsixUnmask v s) := by
  unfold execMsixUnmask
  repeat' (with_reducible first | exact Answers.next | refine Answers.ite ?_ ?_ | split | dsimp only)

theorem execRegisterWrite_answers {t : RegTarget} {size : ℕ} {v : BitVec 64} {s : State} : Answers (execRegisterWrite t size v s) := by
  unfold execRegisterWrite
  repeat' (with_reducible first | exact Answers.next | refine Answers.ite ?_ ?_ | split | dsimp only)

theorem execOutboundCompletion_answers {id : ℕ} {o : OutOutcome} {s : State} : Answers (execOutboundCompletion id o s) := by
  unfold execOutboundCompletion
  repeat' (with_reducible first | exact Answers.next | refine Answers.ite ?_ ?_ | split | dsimp only)

theorem execPcieLinkReset_answers {s : State} : Answers (execPcieLinkReset s) := by
  unfold execPcieLinkReset
  repeat' (with_reducible first | exact Answers.next | refine Answers.ite ?_ ?_ | split | dsimp only)

theorem execPcieLinkUp_answers {s : State} : Answers (execPcieLinkUp s) := by
  unfold execPcieLinkUp
  repeat' (with_reducible first | exact Answers.next | refine Answers.ite ?_ ?_ | split | dsimp only)

theorem execPcieConfigWrite_answers {a : PcieCmd} {b : PcieDev} {c : PcieCap} {d : PcieAer} {s : State} : Answers (execPcieConfigWrite a b c d s) := by
  unfold execPcieConfigWrite
  repeat' (with_reducible first | exact Answers.next | refine Answers.ite ?_ ?_ | split | dsimp only)

theorem execMasonAccess_answers {addr : ℕ} {size : ℕ} {k : MasonOp} {wr : List Byte} {s : State} : Answers (execMasonAccess addr size k wr s) := by
  unfold execMasonAccess
  repeat' (with_reducible first | exact Answers.next | refine Answers.ite ?_ ?_ | split | dsimp only)

theorem execMbGo_answers {m : Mb} {v : BitVec 64} {s : State} : Answers (execMbGo m v s) := by
  unfold execMbGo
  repeat' (with_reducible first | exact Answers.next | refine Answers.ite ?_ ?_ | split | dsimp only)

theorem execMbRasRptrWrite_answers {m : Mb} {v : BitVec 16} {s : State} : Answers (execMbRasRptrWrite m v s) := by
  unfold execMbRasRptrWrite
  repeat' (with_reducible first | exact Answers.next | refine Answers.ite ?_ ?_ | split | dsimp only)

theorem execArbitrationSlot_answers {s : State} : Answers (execArbitrationSlot s) := by
  unfold execArbitrationSlot
  repeat' (with_reducible first | exact Answers.next | refine Answers.ite ?_ ?_ | split | dsimp only)

theorem execMgmtAccess_answers {k : SpanPkt} {s : State} : Answers (execMgmtAccess k s) := by
  unfold execMgmtAccess
  repeat' (with_reducible first | exact Answers.next | refine Answers.ite ?_ ?_ | split | dsimp only)

theorem execStoreUpdateDone_answers {ok : Bool} {s : State} : Answers (execStoreUpdateDone ok s) := by
  unfold execStoreUpdateDone
  repeat' (with_reducible first | exact Answers.next | refine Answers.ite ?_ ?_ | split | dsimp only)

theorem execSysInfo_answers {s : State} : Answers (execSysInfo s) := by
  unfold execSysInfo
  repeat' (with_reducible first | exact Answers.next | refine Answers.ite ?_ ?_ | split | dsimp only)

theorem execSysCause_answers {s : State} : Answers (execSysCause s) := by
  unfold execSysCause
  repeat' (with_reducible first | exact Answers.next | refine Answers.ite ?_ ?_ | split | dsimp only)

theorem execSysReset_answers {s : State} : Answers (execSysReset s) := by
  unfold execSysReset
  repeat' (with_reducible first | exact Answers.next | refine Answers.ite ?_ ?_ | split | dsimp only)

theorem execSysOffline_answers {s : State} : Answers (execSysOffline s) := by
  unfold execSysOffline
  repeat' (with_reducible first | exact Answers.next | refine Answers.ite ?_ ?_ | split | dsimp only)

theorem execPackageStop_answers {s : State} : Answers (execPackageStop s) := by
  unfold execPackageStop
  repeat' (with_reducible first | exact Answers.next | refine Answers.ite ?_ ?_ | split | dsimp only)

theorem execSysDrv_answers {s : State} : Answers (execSysDrv s) := by
  unfold execSysDrv
  repeat' (with_reducible first | exact Answers.next | refine Answers.ite ?_ ?_ | split | dsimp only)

theorem execSysM3_answers {s : State} : Answers (execSysM3 s) := by
  unfold execSysM3
  repeat' (with_reducible first | exact Answers.next | refine Answers.ite ?_ ?_ | split | dsimp only)

theorem execSysSetread_answers {s : State} : Answers (execSysSetread s) := by
  unfold execSysSetread
  repeat' (with_reducible first | exact Answers.next | refine Answers.ite ?_ ?_ | split | dsimp only)

theorem execPwrCap_answers {s : State} : Answers (execPwrCap s) := by
  unfold execPwrCap
  repeat' (with_reducible first | exact Answers.next | refine Answers.ite ?_ ?_ | split | dsimp only)

theorem execPwrFreq_answers {s : State} : Answers (execPwrFreq s) := by
  unfold execPwrFreq
  repeat' (with_reducible first | exact Answers.next | refine Answers.ite ?_ ?_ | split | dsimp only)

theorem execPwrDomain_answers {s : State} : Answers (execPwrDomain s) := by
  unfold execPwrDomain
  repeat' (with_reducible first | exact Answers.next | refine Answers.ite ?_ ?_ | split | dsimp only)

theorem execPwrStatus_answers {s : State} : Answers (execPwrStatus s) := by
  unfold execPwrStatus
  repeat' (with_reducible first | exact Answers.next | refine Answers.ite ?_ ?_ | split | dsimp only)

theorem execThmCoolant_answers {s : State} : Answers (execThmCoolant s) := by
  unfold execThmCoolant
  repeat' (with_reducible first | exact Answers.next | refine Answers.ite ?_ ?_ | split | dsimp only)

theorem execThmStatus_answers {s : State} : Answers (execThmStatus s) := by
  unfold execThmStatus
  repeat' (with_reducible first | exact Answers.next | refine Answers.ite ?_ ?_ | split | dsimp only)

theorem execMemIntlv_answers {s : State} : Answers (execMemIntlv s) := by
  unfold execMemIntlv
  repeat' (with_reducible first | exact Answers.next | refine Answers.ite ?_ ?_ | split | dsimp only)

theorem execMemQkind_answers {s : State} : Answers (execMemQkind s) := by
  unfold execMemQkind
  repeat' (with_reducible first | exact Answers.next | refine Answers.ite ?_ ?_ | split | dsimp only)

theorem execMemStatus_answers {s : State} : Answers (execMemStatus s) := by
  unfold execMemStatus
  repeat' (with_reducible first | exact Answers.next | refine Answers.ite ?_ ?_ | split | dsimp only)

theorem execSpanId_answers {s : State} : Answers (execSpanId s) := by
  unfold execSpanId
  repeat' (with_reducible first | exact Answers.next | refine Answers.ite ?_ ?_ | split | dsimp only)

theorem execSpanPorts_answers {s : State} : Answers (execSpanPorts s) := by
  unfold execSpanPorts
  repeat' (with_reducible first | exact Answers.next | refine Answers.ite ?_ ?_ | split | dsimp only)

theorem execSpanPlumb_answers {s : State} : Answers (execSpanPlumb s) := by
  unfold execSpanPlumb
  repeat' (with_reducible first | exact Answers.next | refine Answers.ite ?_ ?_ | split | dsimp only)

theorem execSpanPortclr_answers {s : State} : Answers (execSpanPortclr s) := by
  unfold execSpanPortclr
  repeat' (with_reducible first | exact Answers.next | refine Answers.ite ?_ ?_ | split | dsimp only)

theorem execSpanSend_answers {s : State} : Answers (execSpanSend s) := by
  unfold execSpanSend
  repeat' (with_reducible first | exact Answers.next | refine Answers.ite ?_ ?_ | split | dsimp only)

theorem execSpanRoute_answers {s : State} : Answers (execSpanRoute s) := by
  unfold execSpanRoute
  repeat' (with_reducible first | exact Answers.next | refine Answers.ite ?_ ?_ | split | dsimp only)

theorem execSpanSwitch_answers {s : State} : Answers (execSpanSwitch s) := by
  unfold execSpanSwitch
  repeat' (with_reducible first | exact Answers.next | refine Answers.ite ?_ ?_ | split | dsimp only)

theorem execSpanCtl_answers {s : State} : Answers (execSpanCtl s) := by
  unfold execSpanCtl
  repeat' (with_reducible first | exact Answers.next | refine Answers.ite ?_ ?_ | split | dsimp only)

theorem execSpanStatus_answers {s : State} : Answers (execSpanStatus s) := by
  unfold execSpanStatus
  repeat' (with_reducible first | exact Answers.next | refine Answers.ite ?_ ?_ | split | dsimp only)

theorem execCalRead_answers {s : State} : Answers (execCalRead s) := by
  unfold execCalRead
  repeat' (with_reducible first | exact Answers.next | refine Answers.ite ?_ ?_ | split | dsimp only)

theorem execCalVoff_answers {s : State} : Answers (execCalVoff s) := by
  unfold execCalVoff
  repeat' (with_reducible first | exact Answers.next | refine Answers.ite ?_ ?_ | split | dsimp only)

theorem execCalAsym_answers {s : State} : Answers (execCalAsym s) := by
  unfold execCalAsym
  repeat' (with_reducible first | exact Answers.next | refine Answers.ite ?_ ?_ | split | dsimp only)

theorem execCalHbm_answers {s : State} : Answers (execCalHbm s) := by
  unfold execCalHbm
  repeat' (with_reducible first | exact Answers.next | refine Answers.ite ?_ ?_ | split | dsimp only)

theorem execCalHbmDone_answers {s : State} : Answers (execCalHbmDone s) := by
  unfold execCalHbmDone
  repeat' (with_reducible first | exact Answers.next | refine Answers.ite ?_ ?_ | split | dsimp only)

theorem execCalClear_answers {s : State} : Answers (execCalClear s) := by
  unfold execCalClear
  repeat' (with_reducible first | exact Answers.next | refine Answers.ite ?_ ?_ | split | dsimp only)

theorem execFwWrite_answers {ok : Bool} {s : State} : Answers (execFwWrite ok s) := by
  unfold execFwWrite
  repeat' (with_reducible first | exact Answers.next | refine Answers.ite ?_ ?_ | split | dsimp only)

theorem execFwSeal_answers {digestOk : Bool} {sigOk : Bool} {ok : Bool} {s : State} : Answers (execFwSeal digestOk sigOk ok s) := by
  unfold execFwSeal
  repeat' (with_reducible first | exact Answers.next | refine Answers.ite ?_ ?_ | split | dsimp only)

theorem execFwActivate_answers {s : State} : Answers (execFwActivate s) := by
  unfold execFwActivate
  repeat' (with_reducible first | exact Answers.next | refine Answers.ite ?_ ?_ | split | dsimp only)

theorem execFwHandoverDone_answers {convOk : Bool} {s : State} : Answers (execFwHandoverDone convOk s) := by
  unfold execFwHandoverDone
  repeat' (with_reducible first | exact Answers.next | refine Answers.ite ?_ ?_ | split | dsimp only)

theorem execFwCommit_answers {s : State} : Answers (execFwCommit s) := by
  unfold execFwCommit
  repeat' (with_reducible first | exact Answers.next | refine Answers.ite ?_ ?_ | split | dsimp only)

theorem execFwAutoCommit_answers {s : State} : Answers (execFwAutoCommit s) := by
  unfold execFwAutoCommit
  repeat' (with_reducible first | exact Answers.next | refine Answers.ite ?_ ?_ | split | dsimp only)

theorem execFwStatus_answers {s : State} : Answers (execFwStatus s) := by
  unfold execFwStatus
  repeat' (with_reducible first | exact Answers.next | refine Answers.ite ?_ ?_ | split | dsimp only)

theorem execRasRead_answers {s : State} : Answers (execRasRead s) := by
  unfold execRasRead
  repeat' (with_reducible first | exact Answers.next | refine Answers.ite ?_ ?_ | split | dsimp only)

theorem execRasRetire_answers {s : State} : Answers (execRasRetire s) := by
  unfold execRasRetire
  repeat' (with_reducible first | exact Answers.next | refine Answers.ite ?_ ?_ | split | dsimp only)

theorem execRasClear_answers {s : State} : Answers (execRasClear s) := by
  unfold execRasClear
  repeat' (with_reducible first | exact Answers.next | refine Answers.ite ?_ ?_ | split | dsimp only)

theorem execTestCfg_answers {s : State} : Answers (execTestCfg s) := by
  unfold execTestCfg
  repeat' (with_reducible first | exact Answers.next | refine Answers.ite ?_ ?_ | split | dsimp only)

theorem execTestRun_answers {s : State} : Answers (execTestRun s) := by
  unfold execTestRun
  repeat' (with_reducible first | exact Answers.next | refine Answers.ite ?_ ?_ | split | dsimp only)

theorem execTestStatus_answers {s : State} : Answers (execTestStatus s) := by
  unfold execTestStatus
  repeat' (with_reducible first | exact Answers.next | refine Answers.ite ?_ ?_ | split | dsimp only)

theorem execSelfTestRotation_answers {s : State} : Answers (execSelfTestRotation s) := by
  unfold execSelfTestRotation
  repeat' (with_reducible first | exact Answers.next | refine Answers.ite ?_ ?_ | split | dsimp only)

theorem execSelfTestDone_answers {pass : Bool} {s : State} : Answers (execSelfTestDone pass s) := by
  unfold execSelfTestDone
  repeat' (with_reducible first | exact Answers.next | refine Answers.ite ?_ ?_ | split | dsimp only)

theorem execModSet_answers {s : State} : Answers (execModSet s) := by
  unfold execModSet
  repeat' (with_reducible first | exact Answers.next | refine Answers.ite ?_ ?_ | split | dsimp only)

theorem execModClr_answers {s : State} : Answers (execModClr s) := by
  unfold execModClr
  repeat' (with_reducible first | exact Answers.next | refine Answers.ite ?_ ?_ | split | dsimp only)

theorem execModStatus_answers {s : State} : Answers (execModStatus s) := by
  unfold execModStatus
  repeat' (with_reducible first | exact Answers.next | refine Answers.ite ?_ ?_ | split | dsimp only)

theorem execPowerOnReset_answers {s : State} : Answers (execPowerOnReset s) := by
  unfold execPowerOnReset
  repeat' (with_reducible first | exact Answers.next | refine Answers.ite ?_ ?_ | split | dsimp only)

theorem execPowerLoss_answers {s : State} : Answers (execPowerLoss s) := by
  unfold execPowerLoss
  repeat' (with_reducible first | exact Answers.next | refine Answers.ite ?_ ?_ | split | dsimp only)

theorem execBrownOutReset_answers {rail : Fin 14} {s : State} : Answers (execBrownOutReset rail s) := by
  unfold execBrownOutReset
  repeat' (with_reducible first | exact Answers.next | refine Answers.ite ?_ ?_ | split | dsimp only)

theorem execPinReset_answers {s : State} : Answers (execPinReset s) := by
  unfold execPinReset
  repeat' (with_reducible first | exact Answers.next | refine Answers.ite ?_ ?_ | split | dsimp only)

theorem execWatchdogReset_answers {s : State} : Answers (execWatchdogReset s) := by
  unfold execWatchdogReset
  repeat' (with_reducible first | exact Answers.next | refine Answers.ite ?_ ?_ | split | dsimp only)

theorem execSoftwareReset_answers {s : State} : Answers (execSoftwareReset s) := by
  unfold execSoftwareReset
  repeat' (with_reducible first | exact Answers.next | refine Answers.ite ?_ ?_ | split | dsimp only)

theorem execDebugReset_answers {s : State} : Answers (execDebugReset s) := by
  unfold execDebugReset
  repeat' (with_reducible first | exact Answers.next | refine Answers.ite ?_ ?_ | split | dsimp only)

theorem execRefclkFailureReset_answers {s : State} : Answers (execRefclkFailureReset s) := by
  unfold execRefclkFailureReset
  repeat' (with_reducible first | exact Answers.next | refine Answers.ite ?_ ?_ | split | dsimp only)

theorem execKeystoneLockupReset_answers {stall : Bool} {s : State} : Answers (execKeystoneLockupReset stall s) := by
  unfold execKeystoneLockupReset
  repeat' (with_reducible first | exact Answers.next | refine Answers.ite ?_ ?_ | split | dsimp only)

theorem execResetSourceEnd_answers {src : Fin 8} {s : State} : Answers (execResetSourceEnd src s) := by
  unfold execResetSourceEnd
  repeat' (with_reducible first | exact Answers.next | refine Answers.ite ?_ ?_ | split | dsimp only)

theorem execResetReleaseStep_answers {b : BootRead} {s : State} : Answers (execResetReleaseStep b s) := by
  unfold execResetReleaseStep
  repeat' (with_reducible first | exact Answers.next | refine Answers.ite ?_ ?_ | split | dsimp only)

theorem execMemoryStepsDone_answers {failed : List HCh} {repaired : List (HCh × ℕ)} {s : State} : Answers (execMemoryStepsDone failed repaired s) := by
  unfold execMemoryStepsDone
  repeat' (with_reducible first | exact Answers.next | refine Answers.ite ?_ ?_ | split | dsimp only)

theorem execStartupDone_answers {s : State} : Answers (execStartupDone s) := by
  unfold execStartupDone
  repeat' (with_reducible first | exact Answers.next | refine Answers.ite ?_ ?_ | split | dsimp only)

theorem execDynamicAddressAssignment_answers {a : BitVec 7} {s : State} : Answers (execDynamicAddressAssignment a s) := by
  unfold execDynamicAddressAssignment
  repeat' (with_reducible first | exact Answers.next | refine Answers.ite ?_ ?_ | split | dsimp only)

theorem execI3cPrivateWrite_answers {data : List Byte} {s : State} : Answers (execI3cPrivateWrite data s) := by
  unfold execI3cPrivateWrite
  repeat' (with_reducible first | exact Answers.next | refine Answers.ite ?_ ?_ | split | dsimp only)

theorem execI3cPrivateRead_answers {n : ℕ} {s : State} : Answers (execI3cPrivateRead n s) := by
  unfold execI3cPrivateRead
  repeat' (with_reducible first | exact Answers.next | refine Answers.ite ?_ ?_ | split | dsimp only)

theorem execIdcode_answers {s : State} : Answers (execIdcode s) := by
  unfold execIdcode
  repeat' (with_reducible first | exact Answers.next | refine Answers.ite ?_ ?_ | split | dsimp only)

theorem execBypass_answers {s : State} : Answers (execBypass s) := by
  unfold execBypass
  repeat' (with_reducible first | exact Answers.next | refine Answers.ite ?_ ?_ | split | dsimp only)

theorem execSample_answers {s : State} : Answers (execSample s) := by
  unfold execSample
  repeat' (with_reducible first | exact Answers.next | refine Answers.ite ?_ ?_ | split | dsimp only)

theorem execExtest_answers {pads : List (ℕ × Bool)} {s : State} : Answers (execExtest pads s) := by
  unfold execExtest
  repeat' (with_reducible first | exact Answers.next | refine Answers.ite ?_ ?_ | split | dsimp only)

theorem execDbgHalt_answers {s : State} : Answers (execDbgHalt s) := by
  unfold execDbgHalt
  repeat' (with_reducible first | exact Answers.next | refine Answers.ite ?_ ?_ | split | dsimp only)

theorem execDbgEnFall_answers {s : State} : Answers (execDbgEnFall s) := by
  unfold execDbgEnFall
  repeat' (with_reducible first | exact Answers.next | refine Answers.ite ?_ ?_ | split | dsimp only)

theorem execDbgEnRise_answers {s : State} : Answers (execDbgEnRise s) := by
  unfold execDbgEnRise
  repeat' (with_reducible first | exact Answers.next | refine Answers.ite ?_ ?_ | split | dsimp only)

end Sys2Proof.Machine
end

