-- ==== Sys2Proof/Laws/Bits.lean ====
section
/-!
SUPPORT. Bit fields: a field that was set reads as set, and every bit outside it stands.
-/

namespace Sys2Proof.Machine

theorem getLsbD_maskOf (w hi lo i : Nat) : (maskOf w hi lo).getLsbD i = (decide (i < w) && decide (lo ≤ i ∧ i < hi + 1)) := by
  have h : ((2 ^ (hi + 1 - lo) - 1) * 2 ^ lo).testBit i = decide (lo ≤ i ∧ i < hi + 1) := by
    rw [Nat.testBit_mul_two_pow, Nat.testBit_two_pow_sub_one]
    by_cases hl : lo ≤ i
    · simp only [hl, decide_true, Bool.true_and, true_and]
      congr 1
      apply propext
      omega
    · simp [hl]
  simp only [maskOf, BitVec.getLsbD_ofNat, h]

theorem getLsbD_sf {w : Nat} (x : BitVec w) (hi lo v i : Nat) :
    (sf x hi lo v).getLsbD i = if lo ≤ i ∧ i < hi + 1 then (decide (i < w) && v.testBit (i - lo)) else x.getLsbD i := by
  have h : (v % 2 ^ (hi + 1 - lo) * 2 ^ lo).testBit i = (decide (lo ≤ i ∧ i < hi + 1) && v.testBit (i - lo)) := by
    rw [Nat.testBit_mul_two_pow, Nat.testBit_mod_two_pow]
    by_cases hl : lo ≤ i
    · simp only [hl, decide_true, Bool.true_and, true_and]
      congr 1
      simp only [decide_eq_decide]
      omega
    · simp [hl]
  simp only [sf, BitVec.getLsbD_or, BitVec.getLsbD_and, BitVec.getLsbD_not, getLsbD_maskOf, BitVec.getLsbD_ofNat, h]
  by_cases hi' : lo ≤ i ∧ i < hi + 1
  · by_cases hw : i < w <;> simp [hi', hw]
  · rw [if_neg hi', decide_eq_false hi']
    by_cases hw : i < w
    · simp [hw]
    · simp [hw, BitVec.getLsbD_of_ge x i (by omega)]

theorem bt_sf_out {w : Nat} (x : BitVec w) (hi lo v i : Nat) (h : i < lo ∨ hi < i) : bt (sf x hi lo v) i = bt x i := by
  unfold bt
  rw [getLsbD_sf, if_neg (by omega)]

theorem bt_sb {w : Nat} (x : BitVec w) (i : Nat) (b : Bool) (h : i < w) : bt (sb x i b) i = b := by
  unfold bt sb
  rw [getLsbD_sf, if_pos (by omega)]
  cases b <;> simp [h]

theorem bt_sb_ne {w : Nat} (x : BitVec w) (i j : Nat) (b : Bool) (h : j ≠ i) : bt (sb x i b) j = bt x j :=
  bt_sf_out x i i _ j (by omega)

theorem testBit_bf {w : Nat} (x : BitVec w) (hi lo i : Nat) :
    (bf x hi lo).testBit i = (decide (i < hi + 1 - lo) && x.getLsbD (lo + i)) := by
  simp only [bf, Nat.testBit_mod_two_pow, Nat.testBit_div_two_pow, BitVec.getLsbD, Nat.add_comm i lo]

/-- A field that was set reads as set. -/
theorem bf_sf_same {w : Nat} (x : BitVec w) (hi lo v : Nat) (hw : hi < w) : bf (sf x hi lo v) hi lo = v % 2 ^ (hi + 1 - lo) := by
  apply Nat.eq_of_testBit_eq
  intro i
  rw [testBit_bf, Nat.testBit_mod_two_pow]
  by_cases h : i < hi + 1 - lo
  · rw [getLsbD_sf, if_pos (by omega)]
    have : lo + i < w := by omega
    simp [h, this]
  · simp [h]

/-- A field apart from the one that was set reads as before. -/
theorem bf_sf_out {w : Nat} (x : BitVec w) (hi lo v hi' lo' : Nat) (h : hi' < lo ∨ hi < lo') : bf (sf x hi lo v) hi' lo' = bf x hi' lo' := by
  apply Nat.eq_of_testBit_eq
  intro i
  rw [testBit_bf, testBit_bf]
  by_cases hi : i < hi' + 1 - lo'
  · rw [getLsbD_sf, if_neg (by omega)]
  · simp [hi]

theorem bf_sb_out {w : Nat} (x : BitVec w) (j : Nat) (b : Bool) (hi lo : Nat) (h : hi < j ∨ j < lo) : bf (sb x j b) hi lo = bf x hi lo :=
  bf_sf_out x j j _ hi lo h

theorem bf_lt {w : Nat} (x : BitVec w) (hi lo : Nat) : bf x hi lo < 2 ^ (hi + 1 - lo) := Nat.mod_lt _ (Nat.two_pow_pos _)

/-- A field set to what it holds changes nothing. -/
theorem sf_bf {w : Nat} (x : BitVec w) (hi lo : Nat) : sf x hi lo (bf x hi lo) = x := by
  apply BitVec.eq_of_getLsbD_eq
  intro i hw
  rw [getLsbD_sf]
  split
  · rename_i h
    rw [testBit_bf]
    have h1 : i - lo < hi + 1 - lo := by omega
    have h2 : lo + (i - lo) = i := by omega
    simp [hw, h1, h2]
  · rfl

end Sys2Proof.Machine
end

