-- ==== Sys2Proof/Laws/Blame.lean ====
section
/-!
SUPPORT. The guilt of queues and the retirement of a core change only what they may change.
-/

namespace Sys2Proof.Machine

theorem BlameSide.refl (s : State) : BlameSide s s := rfl

theorem BlameSide.trans {a s t : State} (h : BlameSide a s) (g : BlameSide s t) : BlameSide a t := by
  unfold BlameSide at *
  rw [g, h]

theorem BlameSide.rest {a s : State} {free : Nat} {cores : Tab CoreSt} {queues : Tab Queue} {ctxs : Tab Ctx} {gangs : List Gang} {pools : Tab Pool} {epochDue : Bool} {lateEv : List (Nat × List Byte)} {mem : List Host.Cell} {lost : Tab (Option Lost)} {restored : List Nat} {hlb : List LbEntry} {hubX : List (Nat × BitVec 64 × XSt)} {migr : List Migr} {towers : Tab TowerSt} {span : SpanSt} {host : HostSt} {store : StoreSt} {key : KeySt} {pins : PinSt} (h : BlameSide a s) :
    BlameSide a (State.mk s.now free cores queues ctxs s.lastPop gangs s.nextGang s.schEpoch s.schCfg pools s.poolEpoch epochDue lateEv mem lost restored s.owner s.ownCmd s.ownAt hlb hubX migr s.hbm s.memcfg towers s.flush s.mortar s.lintel span s.plumb host s.power s.rst store key pins s.pending) := by
  unfold BlameSide at *
  rw [h]

theorem setCore_blame {a s : State} (h : BlameSide a s) {x : Nat} {k : CoreSt} : BlameSide a (setCore s x k) := h.rest
theorem setQueue_blame {a s : State} (h : BlameSide a s) {x : Nat} {k : Queue} : BlameSide a (setQueue s x k) := h.rest
theorem setCtx_blame {a s : State} (h : BlameSide a s) {x : Nat} {k : Ctx} : BlameSide a (setCtx s x k) := h.rest
theorem setPool_blame {a s : State} (h : BlameSide a s) {x : Nat} {k : Pool} : BlameSide a (setPool s x k) := h.rest
theorem setTower_blame {a s : State} (h : BlameSide a s) {x : Nat} {k : TowerSt} : BlameSide a (setTower s x k) := h.rest
theorem withMem_blame {a s : State} (h : BlameSide a s) {k : List Host.Cell} : BlameSide a (withMem s k) := h.rest
theorem withSpan_blame {a s : State} (h : BlameSide a s) {k : SpanSt} : BlameSide a (withSpan s k) := h.rest
theorem withHost_blame {a s : State} (h : BlameSide a s) {k : HostSt} : BlameSide a (withHost s k) := h.rest
theorem withStore_blame {a s : State} (h : BlameSide a s) {k : StoreSt} : BlameSide a (withStore s k) := h.rest
theorem withKey_blame {a s : State} (h : BlameSide a s) {k : KeySt} : BlameSide a (withKey s k) := h.rest
theorem withPins_blame {a s : State} (h : BlameSide a s) {k : PinSt} : BlameSide a (withPins s k) := h.rest

theorem ite_blame {a s t : State} {c : Prop} [Decidable c] (h : BlameSide a s) (g : BlameSide a t) : BlameSide a (if c then s else t) := by
  split
  · exact h
  · exact g

theorem forEach_blame {α : Type} {f : State → α → State} {l : List α} {a s : State} (h : BlameSide a s)
    (hf : ∀ s x, BlameSide a s → BlameSide a (f s x)) : BlameSide a (forEach s l f) := by
  induction l generalizing s with
  | nil => exact h
  | cons x l ih => exact ih (hf s x h)

theorem foldl_blame {β : Type} {l : List β} {f : State → β → State} {a s : State} (h : BlameSide a s)
    (hf : ∀ s x, BlameSide a s → BlameSide a (f s x)) : BlameSide a (l.foldl f s) := by
  induction l generalizing s with
  | nil => exact h
  | cons x l ih => exact ih (hf s x h)

theorem modCore_blame {a₀ : State} {s : State} {c : ℕ} {f : CoreSt → CoreSt} (hk : BlameSide a₀ s) : BlameSide a₀ (modCore s c f) := by
  unfold modCore
  repeat' (first | (with_reducible (first | (assumption) | (apply setCore_blame) | (refine ite_blame ?_ ?_) | split | (intro _) | (dsimp only))) | (apply BlameSide.rest; with_reducible (first | (assumption) | (apply setCore_blame))))

theorem modQueue_blame {a₀ : State} {s : State} {q : ℕ} {f : Queue → Queue} (hk : BlameSide a₀ s) : BlameSide a₀ (modQueue s q f) := by
  unfold modQueue
  repeat' (first | (with_reducible (first | (assumption) | (apply setQueue_blame) | (refine ite_blame ?_ ?_) | split | (intro _) | (dsimp only))) | (apply BlameSide.rest; with_reducible (first | (assumption) | (apply setQueue_blame))))

theorem modCtx_blame {a₀ : State} {s : State} {x : ℕ} {f : Ctx → Ctx} (hk : BlameSide a₀ s) : BlameSide a₀ (modCtx s x f) := by
  unfold modCtx
  repeat' (first | (with_reducible (first | (assumption) | (apply setCtx_blame) | (refine ite_blame ?_ ?_) | split | (intro _) | (dsimp only))) | (apply BlameSide.rest; with_reducible (first | (assumption) | (apply setCtx_blame))))

theorem modTower_blame {a₀ : State} {s : State} {t : ℕ} {f : TowerSt → TowerSt} (hk : BlameSide a₀ s) : BlameSide a₀ (modTower s t f) := by
  unfold modTower
  repeat' (first | (with_reducible (first | (assumption) | (apply setTower_blame) | (refine ite_blame ?_ ?_) | split | (intro _) | (dsimp only))) | (apply BlameSide.rest; with_reducible (first | (assumption) | (apply setTower_blame))))

theorem setMbox_blame {a₀ : State} {s : State} {m : ℕ} {k : Mbox} (hk : BlameSide a₀ s) : BlameSide a₀ (setMbox s m k) := by
  unfold setMbox
  repeat' (first | (with_reducible (first | (assumption) | (apply withKey_blame) | (refine ite_blame ?_ ?_) | split | (intro _) | (dsimp only))) | (apply BlameSide.rest; with_reducible (first | (assumption) | (apply withKey_blame))))

theorem freshBits_blame {a₀ : State} {s : State} {w : ℕ} (hk : BlameSide a₀ s) : BlameSide a₀ (freshBits s w).2 := by
  unfold freshBits
  repeat' (first | (with_reducible (first | (assumption) | (refine ite_blame ?_ ?_) | split | (intro _) | (dsimp only))) | (apply BlameSide.rest; with_reducible (first | (assumption))))

theorem freshBits_blame_of {a₀ z : State} {s : State} {w : ℕ} {y0 : BitVec w} (he : freshBits s w = (y0, z)) (hk : BlameSide a₀ s) : BlameSide a₀ z := by
  have := freshBits_blame (s := s) (w := w) hk
  rwa [he] at this

theorem freshBytes_blame {a₀ : State} {s : State} {n : ℕ} (hk : BlameSide a₀ s) : BlameSide a₀ (freshBytes s n).2 := by
  unfold freshBytes
  repeat' (first | (with_reducible (first | (assumption) | (refine ite_blame ?_ ?_) | split | (intro _) | (dsimp only))) | (apply BlameSide.rest; with_reducible (first | (assumption))))

theorem freshBytes_blame_of {a₀ z : State} {s : State} {n : ℕ} {y0 : List Byte} (he : freshBytes s n = (y0, z)) (hk : BlameSide a₀ s) : BlameSide a₀ z := by
  have := freshBytes_blame (s := s) (n := n) hk
  rwa [he] at this

theorem m0Irq_blame {a₀ : State} {s : State} {b : Byte} (hk : BlameSide a₀ s) : BlameSide a₀ (m0Irq s b) := by
  unfold m0Irq
  repeat' (first | (with_reducible (first | (assumption) | (apply withPins_blame) | (refine ite_blame ?_ ?_) | split | (intro _) | (dsimp only))) | (apply BlameSide.rest; with_reducible (first | (assumption) | (apply withPins_blame))))

theorem sendMsg_blame {a₀ : State} {s : State} {v : ℕ} {e : BitVec 128} (hk : BlameSide a₀ s) : BlameSide a₀ (sendMsg s v e) := by
  unfold sendMsg
  repeat' (first | (with_reducible (first | (assumption) | (apply withHost_blame) | (refine ite_blame ?_ ?_) | split | (intro _) | (dsimp only))) | (apply BlameSide.rest; with_reducible (first | (assumption) | (apply withHost_blame))))

theorem interrupt_blame {a₀ : State} {s : State} {v : ℕ} (hk : BlameSide a₀ s) : BlameSide a₀ (interrupt s v) := by
  unfold interrupt
  repeat' (first | (with_reducible (first | (assumption) | (apply sendMsg_blame) | (apply withHost_blame) | (refine ite_blame ?_ ?_) | split | (intro _) | (dsimp only))) | (apply BlameSide.rest; with_reducible (first | (assumption) | (apply sendMsg_blame) | (apply withHost_blame))))

theorem mbIrq_blame {a₀ : State} {s : State} {m : ℕ} {b : Byte} (hk : BlameSide a₀ s) : BlameSide a₀ (mbIrq s m b) := by
  unfold mbIrq
  repeat' (first | (with_reducible (first | (assumption) | (apply interrupt_blame) | (apply m0Irq_blame) | (refine ite_blame ?_ ?_) | split | (intro _) | (dsimp only))) | (apply BlameSide.rest; with_reducible (first | (assumption) | (apply interrupt_blame) | (apply m0Irq_blame))))

theorem rasToRing_blame {a₀ : State} {s : State} {m : ℕ} {r : List Byte} (hk : BlameSide a₀ s) : BlameSide a₀ (rasToRing s m r) := by
  unfold rasToRing
  repeat' (first | (with_reducible (first | (assumption) | (apply mbIrq_blame) | (apply setMbox_blame) | (refine ite_blame ?_ ?_) | split | (intro _) | (dsimp only))) | (apply BlameSide.rest; with_reducible (first | (assumption) | (apply mbIrq_blame) | (apply setMbox_blame))))

theorem rasTo_blame {a₀ : State} {s : State} {ms : List ℕ} {code : Code} {kind : ℕ} {queue : ℕ} {unit : BitVec 32} {ctx : ℕ} {detail : ℕ} (hk : BlameSide a₀ s) : BlameSide a₀ (rasTo s ms code kind queue unit ctx detail) := by
  unfold rasTo
  repeat' (first | (with_reducible (first | (assumption) | (apply rasToRing_blame) | (apply withKey_blame) | (refine forEach_blame ?_ ?_) | (refine ite_blame ?_ ?_) | split | (intro _) | (dsimp only))) | (apply BlameSide.rest; with_reducible (first | (assumption) | (apply rasToRing_blame) | (apply withKey_blame) | (refine forEach_blame ?_ ?_))))

theorem clearMarker_blame {a₀ : State} {s : State} {x : ℕ} (hk : BlameSide a₀ s) : BlameSide a₀ (clearMarker s x) := by
  exact hk.rest

theorem homeLeave_blame {a₀ : State} {s : State} {v : QLine} (hk : BlameSide a₀ s) : BlameSide a₀ (homeLeave s v) := by
  unfold homeLeave
  repeat' (first | (with_reducible (first | (assumption) | (apply clearMarker_blame) | (apply withMem_blame) | (refine ite_blame ?_ ?_) | split | (intro _) | (dsimp only))) | (apply BlameSide.rest; with_reducible (first | (assumption) | (apply clearMarker_blame) | (apply withMem_blame))))

theorem homePlace_blame {a₀ : State} {s : State} {x : ℕ} {l : QLine} (hk : BlameSide a₀ s) : BlameSide a₀ (homePlace s x l) := by
  unfold homePlace
  repeat' (first | (with_reducible (first | (assumption) | (apply homeLeave_blame) | (apply setTower_blame) | (refine ite_blame ?_ ?_) | split | (intro _) | (dsimp only))) | (apply BlameSide.rest; with_reducible (first | (assumption) | (apply homeLeave_blame) | (apply setTower_blame))))

theorem homeLine_blame {a₀ : State} {s : State} {ctx : ℕ} {x : ℕ} {nc : Bool} (hk : BlameSide a₀ s) : BlameSide a₀ (homeLine s ctx x nc).2.2 := by
  unfold homeLine
  repeat' (first | (with_reducible (first | (assumption) | (apply homePlace_blame) | (refine ite_blame ?_ ?_) | split | (intro _) | (dsimp only))) | (apply BlameSide.rest; with_reducible (first | (assumption) | (apply homePlace_blame))) | (with_reducible (first | (injections; subst_vars) | (rename_i heq; revert heq; split <;> (intro heq; first | (cases heq) | skip)))))

theorem homeLine_blame_of {a₀ z : State} {s : State} {ctx : ℕ} {x : ℕ} {nc : Bool} {y0 : Code} {y1 : List Byte} (he : homeLine s ctx x nc = (y0, y1, z)) (hk : BlameSide a₀ s) : BlameSide a₀ z := by
  have := homeLine_blame (s := s) (ctx := ctx) (x := x) (nc := nc) hk
  rwa [he] at this

theorem homeRead_blame {a₀ : State} {s : State} {sys : Bool} {ctx : ℕ} {x : ℕ} {n : ℕ} {nc : Bool} (hk : BlameSide a₀ s) : BlameSide a₀ (homeRead s sys ctx x n nc).2.2 := by
  unfold homeRead
  repeat' (first | (with_reducible (first | (assumption) | (apply homeLine_blame) | (refine homeLine_blame_of (by assumption) ?_) | (refine ite_blame ?_ ?_) | split | (intro _) | (dsimp only))) | (apply BlameSide.rest; with_reducible (first | (assumption) | (apply homeLine_blame) | (refine homeLine_blame_of (by assumption) ?_))))

theorem homeRead_blame_of {a₀ z : State} {s : State} {sys : Bool} {ctx : ℕ} {x : ℕ} {n : ℕ} {nc : Bool} {y0 : Code} {y1 : List Byte} (he : homeRead s sys ctx x n nc = (y0, y1, z)) (hk : BlameSide a₀ s) : BlameSide a₀ z := by
  have := homeRead_blame (s := s) (sys := sys) (ctx := ctx) (x := x) (n := n) (nc := nc) hk
  rwa [he] at this

theorem homeUpdate_blame {a₀ : State} {s : State} {ctx : ℕ} {x : ℕ} {bs : List Byte} {whole : Bool} {nc : Bool} (hk : BlameSide a₀ s) : BlameSide a₀ (homeUpdate s ctx x bs whole nc) := by
  unfold homeUpdate
  repeat' (first | (with_reducible (first | (assumption) | (apply homePlace_blame) | (refine ite_blame ?_ ?_) | split | (intro _) | (dsimp only))) | (apply BlameSide.rest; with_reducible (first | (assumption) | (apply homePlace_blame))))

theorem homeWrite_blame {a₀ : State} {s : State} {sys : Bool} {ctx : ℕ} {x : ℕ} {bs : List Byte} {nc : Bool} (hk : BlameSide a₀ s) : BlameSide a₀ (homeWrite s sys ctx x bs nc).2 := by
  unfold homeWrite
  repeat' (first | (with_reducible (first | (assumption) | (apply clearMarker_blame) | (apply withMem_blame) | (apply homeUpdate_blame) | (refine ite_blame ?_ ?_) | split | (intro _) | (dsimp only))) | (apply BlameSide.rest; with_reducible (first | (assumption) | (apply clearMarker_blame) | (apply withMem_blame) | (apply homeUpdate_blame))))

theorem homeWrite_blame_of {a₀ z : State} {s : State} {sys : Bool} {ctx : ℕ} {x : ℕ} {bs : List Byte} {nc : Bool} {y0 : Code} (he : homeWrite s sys ctx x bs nc = (y0, z)) (hk : BlameSide a₀ s) : BlameSide a₀ z := by
  have := homeWrite_blame (s := s) (sys := sys) (ctx := ctx) (x := x) (bs := bs) (nc := nc) hk
  rwa [he] at this

theorem homeAtomic_blame {a₀ : State} {s : State} {sys : Bool} {ctx : ℕ} {x : ℕ} {n : ℕ} {func : ℕ} {b : ℕ} {c : ℕ} {nc : Bool} (hk : BlameSide a₀ s) : BlameSide a₀ (homeAtomic s sys ctx x n func b c nc).2.2 := by
  unfold homeAtomic
  repeat' (first | (with_reducible (first | (assumption) | (apply homeRead_blame) | (refine homeRead_blame_of (by assumption) ?_) | (apply homeWrite_blame) | (refine homeWrite_blame_of (by assumption) ?_) | (refine ite_blame ?_ ?_) | split | (intro _) | (dsimp only))) | (apply BlameSide.rest; with_reducible (first | (assumption) | (apply homeRead_blame) | (refine homeRead_blame_of (by assumption) ?_) | (apply homeWrite_blame) | (refine homeWrite_blame_of (by assumption) ?_))))

theorem homeAtomic_blame_of {a₀ z : State} {s : State} {sys : Bool} {ctx : ℕ} {x : ℕ} {n : ℕ} {func : ℕ} {b : ℕ} {c : ℕ} {nc : Bool} {y0 : Code} {y1 : ℕ} (he : homeAtomic s sys ctx x n func b c nc = (y0, y1, z)) (hk : BlameSide a₀ s) : BlameSide a₀ z := by
  have := homeAtomic_blame (s := s) (sys := sys) (ctx := ctx) (x := x) (n := n) (func := func) (b := b) (c := c) (nc := nc) hk
  rwa [he] at this

theorem xfault_blame {a₀ : State} {s : State} {x : ℕ} {code : Code} {cause : ℕ} {need : Need} {src : ℕ} {core : ℕ} {va : BitVec 64} (hk : BlameSide a₀ s) : BlameSide a₀ (xfault s x code cause need src core va) := by
  unfold xfault
  repeat' (first | (with_reducible (first | (assumption) | (apply modCtx_blame) | (refine ite_blame ?_ ?_) | split | (intro _) | (dsimp only))) | (apply BlameSide.rest; with_reducible (first | (assumption) | (apply modCtx_blame))))

theorem remoteSend_blame {a₀ : State} {s : State} {user : RemUser} {op : BitVec 8} {ga : ℕ} {ctx : ℕ} {n : ℕ} {func : ℕ} {asz : Bool} {data : List Byte} (hk : BlameSide a₀ s) : BlameSide a₀ (remoteSend s user op ga ctx n func asz data) := by
  unfold remoteSend
  repeat' (first | (with_reducible (first | (assumption) | (apply withSpan_blame) | (refine ite_blame ?_ ?_) | split | (intro _) | (dsimp only))) | (apply BlameSide.rest; with_reducible (first | (assumption) | (apply withSpan_blame))))

theorem remoteAsk_blame {a₀ : State} {s : State} {op : BitVec 8} {ga : ℕ} {ctx : ℕ} {n : ℕ} {func : ℕ} {asz : Bool} {data : List Byte} (hk : BlameSide a₀ s) : BlameSide a₀ (remoteAsk s op ga ctx n func asz data) := by
  unfold remoteAsk
  repeat' (first | (with_reducible (first | (assumption) | (apply withSpan_blame) | (refine ite_blame ?_ ?_) | split | (intro _) | (dsimp only))) | (apply BlameSide.rest; with_reducible (first | (assumption) | (apply withSpan_blame))))

theorem outSend_blame {a₀ : State} {s : State} {user : RemUser} {ctx : ℕ} {addr : ℕ} {write : Option (List Byte)} {n : ℕ} (hk : BlameSide a₀ s) : BlameSide a₀ (outSend s user ctx addr write n) := by
  unfold outSend
  repeat' (first | (with_reducible (first | (assumption) | (apply withHost_blame) | (refine ite_blame ?_ ?_) | split | (intro _) | (dsimp only))) | (apply BlameSide.rest; with_reducible (first | (assumption) | (apply withHost_blame))))

theorem freeAnswer_blame {a₀ : State} {s : State} {fail : Code → Code} {n : ℕ} (hk : BlameSide a₀ s) : BlameSide a₀ (freeAnswer s fail n).2.2 := by
  unfold freeAnswer
  repeat' (first | (with_reducible (first | (assumption) | (apply freshBits_blame) | (refine freshBits_blame_of (by assumption) ?_) | (apply freshBytes_blame) | (refine freshBytes_blame_of (by assumption) ?_) | (refine ite_blame ?_ ?_) | split | (intro _) | (dsimp only))) | (apply BlameSide.rest; with_reducible (first | (assumption) | (apply freshBits_blame) | (refine freshBits_blame_of (by assumption) ?_) | (apply freshBytes_blame) | (refine freshBytes_blame_of (by assumption) ?_))))

theorem freeAnswer_blame_of {a₀ z : State} {s : State} {fail : Code → Code} {n : ℕ} {y0 : Code} {y1 : List Byte} (he : freeAnswer s fail n = (y0, y1, z)) (hk : BlameSide a₀ s) : BlameSide a₀ z := by
  have := freeAnswer_blame (s := s) (fail := fail) (n := n) hk
  rwa [he] at this

theorem spanAnswer_blame {a₀ : State} {s : State} {ga : ℕ} {r : Reply} {skip : ℕ} {n : ℕ} (hk : BlameSide a₀ s) : BlameSide a₀ (spanAnswer s ga r skip n).2.2 := by
  unfold spanAnswer
  repeat' (first | (with_reducible (first | (assumption) | (apply freeAnswer_blame) | (refine freeAnswer_blame_of (by assumption) ?_) | (refine ite_blame ?_ ?_) | split | (intro _) | (dsimp only))) | (apply BlameSide.rest; with_reducible (first | (assumption) | (apply freeAnswer_blame) | (refine freeAnswer_blame_of (by assumption) ?_))))

theorem spanAnswer_blame_of {a₀ z : State} {s : State} {ga : ℕ} {r : Reply} {skip : ℕ} {n : ℕ} {y0 : Code} {y1 : List Byte} (he : spanAnswer s ga r skip n = (y0, y1, z)) (hk : BlameSide a₀ s) : BlameSide a₀ z := by
  have := spanAnswer_blame (s := s) (ga := ga) (r := r) (skip := skip) (n := n) hk
  rwa [he] at this

theorem busAnswer_blame {a₀ : State} {s : State} {r : Reply} {skip : ℕ} {n : ℕ} (hk : BlameSide a₀ s) : BlameSide a₀ (busAnswer s r skip n).2.2 := by
  unfold busAnswer
  repeat' (first | (with_reducible (first | (assumption) | (apply freeAnswer_blame) | (refine freeAnswer_blame_of (by assumption) ?_) | (refine ite_blame ?_ ?_) | split | (intro _) | (dsimp only))) | (apply BlameSide.rest; with_reducible (first | (assumption) | (apply freeAnswer_blame) | (refine freeAnswer_blame_of (by assumption) ?_))))

theorem busAnswer_blame_of {a₀ z : State} {s : State} {r : Reply} {skip : ℕ} {n : ℕ} {y0 : Code} {y1 : List Byte} (he : busAnswer s r skip n = (y0, y1, z)) (hk : BlameSide a₀ s) : BlameSide a₀ z := by
  have := busAnswer_blame (s := s) (r := r) (skip := skip) (n := n) hk
  rwa [he] at this

theorem writeBack_blame {a₀ : State} {s : State} {l : RlcLine} (hk : BlameSide a₀ s) : BlameSide a₀ (writeBack s l) := by
  unfold writeBack
  repeat' (first | (with_reducible (first | (assumption) | (apply homeWrite_blame) | (refine homeWrite_blame_of (by assumption) ?_) | (apply remoteSend_blame) | (refine ite_blame ?_ ?_) | split | (intro _) | (dsimp only))) | (apply BlameSide.rest; with_reducible (first | (assumption) | (apply homeWrite_blame) | (refine homeWrite_blame_of (by assumption) ?_) | (apply remoteSend_blame))))

theorem recallLine_blame {a₀ : State} {s : State} {key : BitVec 64} {write : Bool} {keep : ℕ} (hk : BlameSide a₀ s) : BlameSide a₀ (recallLine s key write keep) := by
  unfold recallLine
  repeat' (first | (with_reducible (first | (assumption) | (apply setTower_blame) | (apply writeBack_blame) | (refine forEach_blame ?_ ?_) | (refine ite_blame ?_ ?_) | split | (intro _) | (dsimp only))) | (apply BlameSide.rest; with_reducible (first | (assumption) | (apply setTower_blame) | (apply writeBack_blame) | (refine forEach_blame ?_ ?_))))

theorem hereRead_blame {a₀ : State} {s : State} {d : ℕ} {sys : Bool} {ctx : ℕ} {x : ℕ} {n : ℕ} {nc : Bool} (hk : BlameSide a₀ s) : BlameSide a₀ (hereRead s d sys ctx x n nc).2.2 := by
  unfold hereRead
  repeat' (first | (with_reducible (first | (assumption) | (apply recallLine_blame) | (apply homeRead_blame) | (refine homeRead_blame_of (by assumption) ?_) | (refine ite_blame ?_ ?_) | split | (intro _) | (dsimp only))) | (apply BlameSide.rest; with_reducible (first | (assumption) | (apply recallLine_blame) | (apply homeRead_blame) | (refine homeRead_blame_of (by assumption) ?_))))

theorem hereRead_blame_of {a₀ z : State} {s : State} {d : ℕ} {sys : Bool} {ctx : ℕ} {x : ℕ} {n : ℕ} {nc : Bool} {y0 : Code} {y1 : List Byte} (he : hereRead s d sys ctx x n nc = (y0, y1, z)) (hk : BlameSide a₀ s) : BlameSide a₀ z := by
  have := hereRead_blame (s := s) (d := d) (sys := sys) (ctx := ctx) (x := x) (n := n) (nc := nc) hk
  rwa [he] at this

theorem hereWrite_blame {a₀ : State} {s : State} {d : ℕ} {sys : Bool} {ctx : ℕ} {x : ℕ} {bs : List Byte} {nc : Bool} (hk : BlameSide a₀ s) : BlameSide a₀ (hereWrite s d sys ctx x bs nc).2 := by
  unfold hereWrite
  repeat' (first | (with_reducible (first | (assumption) | (apply recallLine_blame) | (apply homeWrite_blame) | (refine homeWrite_blame_of (by assumption) ?_) | (refine ite_blame ?_ ?_) | split | (intro _) | (dsimp only))) | (apply BlameSide.rest; with_reducible (first | (assumption) | (apply recallLine_blame) | (apply homeWrite_blame) | (refine homeWrite_blame_of (by assumption) ?_))))

theorem hereWrite_blame_of {a₀ z : State} {s : State} {d : ℕ} {sys : Bool} {ctx : ℕ} {x : ℕ} {bs : List Byte} {nc : Bool} {y0 : Code} (he : hereWrite s d sys ctx x bs nc = (y0, z)) (hk : BlameSide a₀ s) : BlameSide a₀ z := by
  have := hereWrite_blame (s := s) (d := d) (sys := sys) (ctx := ctx) (x := x) (bs := bs) (nc := nc) hk
  rwa [he] at this

theorem hereAtomic_blame {a₀ : State} {s : State} {d : ℕ} {ctx : ℕ} {x : ℕ} {n : ℕ} {func : ℕ} {b : ℕ} {c : ℕ} {nc : Bool} (hk : BlameSide a₀ s) : BlameSide a₀ (hereAtomic s d ctx x n func b c nc).2.2 := by
  unfold hereAtomic
  repeat' (first | (with_reducible (first | (assumption) | (apply recallLine_blame) | (apply homeAtomic_blame) | (refine homeAtomic_blame_of (by assumption) ?_) | (refine ite_blame ?_ ?_) | split | (intro _) | (dsimp only))) | (apply BlameSide.rest; with_reducible (first | (assumption) | (apply recallLine_blame) | (apply homeAtomic_blame) | (refine homeAtomic_blame_of (by assumption) ?_))))

theorem hereAtomic_blame_of {a₀ z : State} {s : State} {d : ℕ} {ctx : ℕ} {x : ℕ} {n : ℕ} {func : ℕ} {b : ℕ} {c : ℕ} {nc : Bool} {y0 : Code} {y1 : ℕ} (he : hereAtomic s d ctx x n func b c nc = (y0, y1, z)) (hk : BlameSide a₀ s) : BlameSide a₀ z := by
  have := hereAtomic_blame (s := s) (d := d) (ctx := ctx) (x := x) (n := n) (func := func) (b := b) (c := c) (nc := nc) hk
  rwa [he] at this

theorem rlcDrop_blame {a₀ : State} {s : State} {t : ℕ} {key : BitVec 64} (hk : BlameSide a₀ s) : BlameSide a₀ (rlcDrop s t key) := by
  unfold rlcDrop
  repeat' (first | (with_reducible (first | (assumption) | (apply writeBack_blame) | (apply modTower_blame) | (refine ite_blame ?_ ?_) | split | (intro _) | (dsimp only))) | (apply BlameSide.rest; with_reducible (first | (assumption) | (apply writeBack_blame) | (apply modTower_blame))))

theorem victimDrop_blame {a₀ : State} {s : State} {t : ℕ} {key : BitVec 64} (hk : BlameSide a₀ s) : BlameSide a₀ (victimDrop s t key) := by
  unfold victimDrop
  repeat' (first | (with_reducible (first | (assumption) | (apply modTower_blame) | (refine ite_blame ?_ ?_) | split | (intro _) | (dsimp only))) | (apply BlameSide.rest; with_reducible (first | (assumption) | (apply modTower_blame))))

theorem rlcBypass_blame {a₀ : State} {s : State} {t : ℕ} {key : BitVec 64} (hk : BlameSide a₀ s) : BlameSide a₀ (rlcBypass s t key) := by
  unfold rlcBypass
  repeat' (first | (with_reducible (first | (assumption) | (apply rlcDrop_blame) | (apply victimDrop_blame) | (refine ite_blame ?_ ?_) | split | (intro _) | (dsimp only))) | (apply BlameSide.rest; with_reducible (first | (assumption) | (apply rlcDrop_blame) | (apply victimDrop_blame))))

theorem sysRead_blame {a₀ : State} {s : State} {d : ℕ} {x : ℕ} {n : ℕ} (hk : BlameSide a₀ s) : BlameSide a₀ (sysRead s d x n).2.2 := by
  unfold sysRead
  repeat' (first | (with_reducible (first | (assumption) | (apply hereRead_blame) | (refine hereRead_blame_of (by assumption) ?_) | (refine ite_blame ?_ ?_) | split | (intro _) | (dsimp only))) | (apply BlameSide.rest; with_reducible (first | (assumption) | (apply hereRead_blame) | (refine hereRead_blame_of (by assumption) ?_))))

theorem sysRead_blame_of {a₀ z : State} {s : State} {d : ℕ} {x : ℕ} {n : ℕ} {y0 : Code} {y1 : ℕ} (he : sysRead s d x n = (y0, y1, z)) (hk : BlameSide a₀ s) : BlameSide a₀ z := by
  have := sysRead_blame (s := s) (d := d) (x := x) (n := n) hk
  rwa [he] at this

theorem sysWrite_blame {a₀ : State} {s : State} {d : ℕ} {x : ℕ} {bs : List Byte} (hk : BlameSide a₀ s) : BlameSide a₀ (sysWrite s d x bs).2 := by
  unfold sysWrite
  repeat' (first | (with_reducible (first | (assumption) | (apply hereWrite_blame) | (refine hereWrite_blame_of (by assumption) ?_) | (refine ite_blame ?_ ?_) | split | (intro _) | (dsimp only))) | (apply BlameSide.rest; with_reducible (first | (assumption) | (apply hereWrite_blame) | (refine hereWrite_blame_of (by assumption) ?_))))

theorem sysWrite_blame_of {a₀ z : State} {s : State} {d : ℕ} {x : ℕ} {bs : List Byte} {y0 : Code} (he : sysWrite s d x bs = (y0, z)) (hk : BlameSide a₀ s) : BlameSide a₀ z := by
  have := sysWrite_blame (s := s) (d := d) (x := x) (bs := bs) hk
  rwa [he] at this

theorem searchLoop_blame {a₀ : State} {d base vp n : ℕ} {s : State} {i : ℕ} {e : Option (BitVec 256)} (hk : BlameSide a₀ s) :
    BlameSide a₀ (searchLoop d base vp n s i e).2.2.2 := by
  induction n generalizing s i e with
  | zero => exact hk
  | succ n ih =>
    rw [searchLoop]
    have h : BlameSide a₀ (sysRead s d (base + 32 * (i + 2 ^ n)) 32).2.2 := sysRead_blame hk
    revert h
    generalize sysRead s d (base + 32 * (i + 2 ^ n)) 32 = z
    intro h
    dsimp only
    split
    · exact h
    · split
      · exact ih h
      · exact ih h

theorem search_blame {a₀ : State} {s : State} {d base log2n : ℕ} {en : Bool} {vp : ℕ} (hk : BlameSide a₀ s) :
    BlameSide a₀ (search s d base log2n en vp).2 := by
  unfold search
  split
  · exact hk
  · have h : BlameSide a₀ (searchLoop d base vp log2n s 0 none).2.2.2 := searchLoop_blame hk
    revert h
    generalize searchLoop d base vp log2n s 0 none = z
    obtain ⟨c, i, e, s1⟩ := z
    intro h
    dsimp only
    split
    · exact h
    · cases e with
      | some e =>
        dsimp only
        split
        · exact h
        · split <;> exact h
      | none =>
        have g : BlameSide a₀ (sysRead s1 d base 32).2.2 := sysRead_blame h
        revert g
        generalize sysRead s1 d base 32 = z
        intro g
        dsimp only
        split
        · exact g
        · split <;> exact g

theorem search_blame_of {a₀ z : State} {s : State} {d base log2n : ℕ} {en : Bool} {vp : ℕ} {y0 : Found}
    (he : search s d base log2n en vp = (y0, z)) (hk : BlameSide a₀ s) : BlameSide a₀ z := by
  have := search_blame (d := d) (base := base) (log2n := log2n) (en := en) (vp := vp) hk
  rwa [he] at this

theorem descOf_blame {a₀ : State} {s : State} {d : ℕ} {md : BitVec 64} {e : BitVec 256} (hk : BlameSide a₀ s) : BlameSide a₀ (descOf s d md e).2.2 := by
  unfold descOf
  repeat' (first | (with_reducible (first | (assumption) | (apply sysRead_blame) | (refine sysRead_blame_of (by assumption) ?_) | (refine ite_blame ?_ ?_) | split | (intro _) | (dsimp only))) | (apply BlameSide.rest; with_reducible (first | (assumption) | (apply sysRead_blame) | (refine sysRead_blame_of (by assumption) ?_))))

theorem descOf_blame_of {a₀ z : State} {s : State} {d : ℕ} {md : BitVec 64} {e : BitVec 256} {y0 : Code} {y1 : BitVec 256} (he : descOf s d md e = (y0, y1, z)) (hk : BlameSide a₀ s) : BlameSide a₀ z := by
  have := descOf_blame (s := s) (d := d) (md := md) (e := e) hk
  rwa [he] at this

theorem searchFill_blame {a₀ : State} {s : State} {d : ℕ} {x : ℕ} {base : ℕ} {log2n : ℕ} {en : Bool} {md : BitVec 64} {vp : ℕ} (hk : BlameSide a₀ s) : BlameSide a₀ (searchFill s d x base log2n en md vp).2 := by
  unfold searchFill
  repeat' (first | (with_reducible (first | (assumption) | (apply search_blame) | (refine search_blame_of (by assumption) ?_) | (apply descOf_blame) | (refine descOf_blame_of (by assumption) ?_) | (refine ite_blame ?_ ?_) | split | (intro _) | (dsimp only))) | (apply BlameSide.rest; with_reducible (first | (assumption) | (apply search_blame) | (refine search_blame_of (by assumption) ?_) | (apply descOf_blame) | (refine descOf_blame_of (by assumption) ?_))))

theorem searchFill_blame_of {a₀ z : State} {s : State} {d : ℕ} {x : ℕ} {base : ℕ} {log2n : ℕ} {en : Bool} {md : BitVec 64} {vp : ℕ} {y0 : (LbEntry ⊕ Code × ℕ)} (he : searchFill s d x base log2n en md vp = (y0, z)) (hk : BlameSide a₀ s) : BlameSide a₀ z := by
  have := searchFill_blame (s := s) (d := d) (x := x) (base := base) (log2n := log2n) (en := en) (md := md) (vp := vp) hk
  rwa [he] at this

theorem countWait_blame {a₀ : State} {s : State} {x : ℕ} (hk : BlameSide a₀ s) : BlameSide a₀ (countWait s x) := by
  unfold countWait
  repeat' (first | (with_reducible (first | (assumption) | (apply modCtx_blame) | (refine ite_blame ?_ ?_) | split | (intro _) | (dsimp only))) | (apply BlameSide.rest; with_reducible (first | (assumption) | (apply modCtx_blame))))

theorem migrIssue_blame {a₀ : State} {s : State} {m : Migr} (hk : BlameSide a₀ s) : BlameSide a₀ (migrIssue s m) := by
  unfold migrIssue
  repeat' (first | (with_reducible (first | (assumption) | (apply rlcDrop_blame) | (apply remoteAsk_blame) | (apply outSend_blame) | (refine forEach_blame ?_ ?_) | (refine ite_blame ?_ ?_) | split | (intro _) | (dsimp only))) | (apply BlameSide.rest; with_reducible (first | (assumption) | (apply rlcDrop_blame) | (apply remoteAsk_blame) | (apply outSend_blame) | (refine forEach_blame ?_ ?_))))

theorem migrHand_blame {a₀ : State} {s : State} {m : Migr} (hk : BlameSide a₀ s) : BlameSide a₀ (migrHand s m) := by
  unfold migrHand
  repeat' (first | (with_reducible (first | (assumption) | (apply migrIssue_blame) | (refine ite_blame ?_ ?_) | split | (intro _) | (dsimp only))) | (apply BlameSide.rest; with_reducible (first | (assumption) | (apply migrIssue_blame))))

theorem resolve_blame {a₀ : State} {s : State} {x : ℕ} {l : LbEntry} {va : BitVec 64} {need : Need} {hallRefuses : Bool} {d : ℕ} (hk : BlameSide a₀ s) : BlameSide a₀ (resolve s x l va need hallRefuses d).2.2 := by
  unfold resolve
  repeat' (first | (with_reducible (first | (assumption) | (apply migrHand_blame) | (apply sysRead_blame) | (refine sysRead_blame_of (by assumption) ?_) | (apply sysWrite_blame) | (refine sysWrite_blame_of (by assumption) ?_) | (refine ite_blame ?_ ?_) | split | (intro _) | (dsimp only))) | (apply BlameSide.rest; with_reducible (first | (assumption) | (apply migrHand_blame) | (apply sysRead_blame) | (refine sysRead_blame_of (by assumption) ?_) | (apply sysWrite_blame) | (refine sysWrite_blame_of (by assumption) ?_))))

theorem resolve_blame_of {a₀ z : State} {s : State} {x : ℕ} {l : LbEntry} {va : BitVec 64} {need : Need} {hallRefuses : Bool} {d : ℕ} {y0 : XSt} {y1 : LbEntry} (he : resolve s x l va need hallRefuses d = (y0, y1, z)) (hk : BlameSide a₀ s) : BlameSide a₀ z := by
  have := resolve_blame (s := s) (x := x) (l := l) (va := va) (need := need) (hallRefuses := hallRefuses) (d := d) hk
  rwa [he] at this

theorem hubEntry_blame {a₀ : State} {s : State} {x : ℕ} {va : BitVec 64} (hk : BlameSide a₀ s) : BlameSide a₀ (hubEntry s x va).2 := by
  unfold hubEntry
  repeat' (first | (with_reducible (first | (assumption) | (apply searchFill_blame) | (refine searchFill_blame_of (by assumption) ?_) | (refine ite_blame ?_ ?_) | split | (intro _) | (dsimp only))) | (apply BlameSide.rest; with_reducible (first | (assumption) | (apply searchFill_blame) | (refine searchFill_blame_of (by assumption) ?_))))

theorem hubEntry_blame_of {a₀ z : State} {s : State} {x : ℕ} {va : BitVec 64} {y0 : (LbEntry ⊕ Code × ℕ)} (he : hubEntry s x va = (y0, z)) (hk : BlameSide a₀ s) : BlameSide a₀ z := by
  have := hubEntry_blame (s := s) (x := x) (va := va) hk
  rwa [he] at this

theorem hubXlate_blame {a₀ : State} {s : State} {x : ℕ} {va : BitVec 64} {need : Need} {hallRefuses : Bool} (hk : BlameSide a₀ s) : BlameSide a₀ (hubXlate s x va need hallRefuses).2 := by
  unfold hubXlate
  repeat' (first | (with_reducible (first | (assumption) | (apply countWait_blame) | (apply hubEntry_blame) | (refine hubEntry_blame_of (by assumption) ?_) | (apply resolve_blame) | (refine resolve_blame_of (by assumption) ?_) | (refine ite_blame ?_ ?_) | split | (intro _) | (dsimp only))) | (apply BlameSide.rest; with_reducible (first | (assumption) | (apply countWait_blame) | (apply hubEntry_blame) | (refine hubEntry_blame_of (by assumption) ?_) | (apply resolve_blame) | (refine resolve_blame_of (by assumption) ?_))))

theorem hubXlate_blame_of {a₀ z : State} {s : State} {x : ℕ} {va : BitVec 64} {need : Need} {hallRefuses : Bool} {y0 : XSt} (he : hubXlate s x va need hallRefuses = (y0, z)) (hk : BlameSide a₀ s) : BlameSide a₀ z := by
  have := hubXlate_blame (s := s) (x := x) (va := va) (need := need) (hallRefuses := hallRefuses) hk
  rwa [he] at this

theorem ownFault_blame {a₀ : State} {s : State} {x : ℕ} {code : Code} {need : Need} {src : ℕ} {va : BitVec 64} (hk : BlameSide a₀ s) : BlameSide a₀ (ownFault s x code need src va) := by
  unfold ownFault
  repeat' (first | (with_reducible (first | (assumption) | (apply xfault_blame) | (refine ite_blame ?_ ?_) | split | (intro _) | (dsimp only))) | (apply BlameSide.rest; with_reducible (first | (assumption) | (apply xfault_blame))))

theorem hubLocal_blame {a₀ : State} {s : State} {x : ℕ} {src : ℕ} {o : ℕ} {nc : Bool} {va : BitVec 64} {need : Need} {n : ℕ} {bs : List Byte} {func : ℕ} {b : ℕ} {c : ℕ} (hk : BlameSide a₀ s) : BlameSide a₀ (hubLocal s x src o nc va need n bs func b c).s := by
  unfold hubLocal
  repeat' (first | (with_reducible (first | (assumption) | (apply homeRead_blame) | (refine homeRead_blame_of (by assumption) ?_) | (apply ownFault_blame) | (apply hereRead_blame) | (refine hereRead_blame_of (by assumption) ?_) | (apply hereWrite_blame) | (refine hereWrite_blame_of (by assumption) ?_) | (apply hereAtomic_blame) | (refine hereAtomic_blame_of (by assumption) ?_) | (refine ite_blame ?_ ?_) | split | (intro _) | (dsimp only))) | (apply BlameSide.rest; with_reducible (first | (assumption) | (apply homeRead_blame) | (refine homeRead_blame_of (by assumption) ?_) | (apply ownFault_blame) | (apply hereRead_blame) | (refine hereRead_blame_of (by assumption) ?_) | (apply hereWrite_blame) | (refine hereWrite_blame_of (by assumption) ?_) | (apply hereAtomic_blame) | (refine hereAtomic_blame_of (by assumption) ?_))) | (with_reducible (first | (injections; subst_vars) | (rename_i heq; revert heq; split <;> (intro heq; first | (cases heq) | skip)))))

theorem hubLocal_blame_of {a₀ z : State} {s : State} {x : ℕ} {src : ℕ} {o : ℕ} {nc : Bool} {va : BitVec 64} {need : Need} {n : ℕ} {bs : List Byte} {func : ℕ} {b : ℕ} {c : ℕ} {y1 : Code} {y2 : List Byte} (he : hubLocal s x src o nc va need n bs func b c = ⟨y1, y2, z⟩) (hk : BlameSide a₀ s) : BlameSide a₀ z := by
  have := hubLocal_blame (s := s) (x := x) (src := src) (o := o) (nc := nc) (va := va) (need := need) (n := n) (bs := bs) (func := func) (b := b) (c := c) hk
  rwa [he] at this

theorem hubBypass_blame {a₀ : State} {s : State} {src : ℕ} {ga : BitVec 64} (hk : BlameSide a₀ s) : BlameSide a₀ (hubBypass s src ga) := by
  unfold hubBypass
  repeat' (first | (with_reducible (first | (assumption) | (apply rlcBypass_blame) | (refine ite_blame ?_ ?_) | split | (intro _) | (dsimp only))) | (apply BlameSide.rest; with_reducible (first | (assumption) | (apply rlcBypass_blame))))

theorem hubRemote_blame {a₀ : State} {s : State} {x : ℕ} {src : ℕ} {ga : BitVec 64} {va : BitVec 64} {need : Need} {n : ℕ} {bs : List Byte} {func : ℕ} {b : ℕ} {c : ℕ} {r : Reply} {skip : ℕ} (hk : BlameSide a₀ s) : BlameSide a₀ (hubRemote s x src ga va need n bs func b c r skip).s := by
  unfold hubRemote
  repeat' (first | (with_reducible (first | (assumption) | (apply remoteAsk_blame) | (apply hubBypass_blame) | (apply ownFault_blame) | (apply spanAnswer_blame) | (refine spanAnswer_blame_of (by assumption) ?_) | (refine ite_blame ?_ ?_) | split | (intro _) | (dsimp only))) | (apply BlameSide.rest; with_reducible (first | (assumption) | (apply remoteAsk_blame) | (apply hubBypass_blame) | (apply ownFault_blame) | (apply spanAnswer_blame) | (refine spanAnswer_blame_of (by assumption) ?_))) | (with_reducible (first | (injections; subst_vars) | (rename_i heq; revert heq; split <;> (intro heq; first | (cases heq) | skip)))))

theorem hubRemote_blame_of {a₀ z : State} {s : State} {x : ℕ} {src : ℕ} {ga : BitVec 64} {va : BitVec 64} {need : Need} {n : ℕ} {bs : List Byte} {func : ℕ} {b : ℕ} {c : ℕ} {r : Reply} {skip : ℕ} {y1 : Code} {y2 : List Byte} (he : hubRemote s x src ga va need n bs func b c r skip = ⟨y1, y2, z⟩) (hk : BlameSide a₀ s) : BlameSide a₀ z := by
  have := hubRemote_blame (s := s) (x := x) (src := src) (ga := ga) (va := va) (need := need) (n := n) (bs := bs) (func := func) (b := b) (c := c) (r := r) (skip := skip) hk
  rwa [he] at this

theorem hubBus_blame {a₀ : State} {s : State} {x : ℕ} {src : ℕ} {a : ℕ} {va : BitVec 64} {need : Need} {n : ℕ} {bs : List Byte} {r : Reply} {skip : ℕ} (hk : BlameSide a₀ s) : BlameSide a₀ (hubBus s x src a va need n bs r skip).s := by
  unfold hubBus
  repeat' (first | (with_reducible (first | (assumption) | (apply outSend_blame) | (apply ownFault_blame) | (apply busAnswer_blame) | (refine busAnswer_blame_of (by assumption) ?_) | (refine ite_blame ?_ ?_) | split | (intro _) | (dsimp only))) | (apply BlameSide.rest; with_reducible (first | (assumption) | (apply outSend_blame) | (apply ownFault_blame) | (apply busAnswer_blame) | (refine busAnswer_blame_of (by assumption) ?_))) | (with_reducible (first | (injections; subst_vars) | (rename_i heq; revert heq; split <;> (intro heq; first | (cases heq) | skip)))))

theorem hubBus_blame_of {a₀ z : State} {s : State} {x : ℕ} {src : ℕ} {a : ℕ} {va : BitVec 64} {need : Need} {n : ℕ} {bs : List Byte} {r : Reply} {skip : ℕ} {y1 : Code} {y2 : List Byte} (he : hubBus s x src a va need n bs r skip = ⟨y1, y2, z⟩) (hk : BlameSide a₀ s) : BlameSide a₀ z := by
  have := hubBus_blame (s := s) (x := x) (src := src) (a := a) (va := va) (need := need) (n := n) (bs := bs) (r := r) (skip := skip) hk
  rwa [he] at this

theorem hubAccess_blame {a₀ : State} {s : State} {x : ℕ} {src : ℕ} {va : BitVec 64} {need : Need} {n : ℕ} {bs : List Byte} {func : ℕ} {b : ℕ} {c : ℕ} {r : Reply} {skip : ℕ} {hallRefuses : Bool} (hk : BlameSide a₀ s) : BlameSide a₀ (hubAccess s x src va need n bs func b c r skip hallRefuses).s := by
  unfold hubAccess
  repeat' (first | (with_reducible (first | (assumption) | (apply hubRemote_blame) | (refine hubRemote_blame_of (by assumption) ?_) | (apply hubBus_blame) | (refine hubBus_blame_of (by assumption) ?_) | (apply xfault_blame) | (apply hubXlate_blame) | (refine hubXlate_blame_of (by assumption) ?_) | (apply hubLocal_blame) | (refine hubLocal_blame_of (by assumption) ?_) | (refine ite_blame ?_ ?_) | split | (intro _) | (dsimp only))) | (apply BlameSide.rest; with_reducible (first | (assumption) | (apply hubRemote_blame) | (refine hubRemote_blame_of (by assumption) ?_) | (apply hubBus_blame) | (refine hubBus_blame_of (by assumption) ?_) | (apply xfault_blame) | (apply hubXlate_blame) | (refine hubXlate_blame_of (by assumption) ?_) | (apply hubLocal_blame) | (refine hubLocal_blame_of (by assumption) ?_))))

theorem hubAccess_blame_of {a₀ z : State} {s : State} {x : ℕ} {src : ℕ} {va : BitVec 64} {need : Need} {n : ℕ} {bs : List Byte} {func : ℕ} {b : ℕ} {c : ℕ} {r : Reply} {skip : ℕ} {hallRefuses : Bool} {y1 : Code} {y2 : List Byte} (he : hubAccess s x src va need n bs func b c r skip hallRefuses = ⟨y1, y2, z⟩) (hk : BlameSide a₀ s) : BlameSide a₀ z := by
  have := hubAccess_blame (s := s) (x := x) (src := src) (va := va) (need := need) (n := n) (bs := bs) (func := func) (b := b) (c := c) (r := r) (skip := skip) (hallRefuses := hallRefuses) hk
  rwa [he] at this

theorem hubWriteLoop_blame {a₀ : State} {x : ℕ} {src : ℕ} {need : Need} {r : Reply} {L : List (ℕ × ℕ)} {s : State} {b6 : List Byte} (hk : BlameSide a₀ s) : BlameSide a₀ (hubWriteLoop x src need r L s b6).s := by
  induction L generalizing s b6 with
  | nil => exact hk
  | cons p l ih =>
    obtain ⟨a, k⟩ := p
    rw [hubWriteLoop]
    repeat' (first | (with_reducible (first | (assumption) | (apply ih) | (apply hubAccess_blame) | (refine hubAccess_blame_of (by assumption) ?_) | (refine ite_blame ?_ ?_) | split | (intro _) | (dsimp only))) | (apply BlameSide.rest; with_reducible (first | (assumption) | (apply ih) | (apply hubAccess_blame) | (refine hubAccess_blame_of (by assumption) ?_))))

theorem hubWriteLoop_blame_of {a₀ z : State} {x : ℕ} {src : ℕ} {need : Need} {r : Reply} {L : List (ℕ × ℕ)} {s : State} {b6 : List Byte} {y1 : Code} {y2 : List Byte} (he : hubWriteLoop x src need r L s b6 = ⟨y1, y2, z⟩) (hk : BlameSide a₀ s) : BlameSide a₀ z := by
  have := hubWriteLoop_blame (x := x) (src := src) (need := need) (r := r) (L := L) (s := s) (b6 := b6) hk
  rwa [he] at this

theorem hubWrite_blame {a₀ : State} {s : State} {x : ℕ} {src : ℕ} {va : BitVec 64} {need : Need} {bs : List Byte} {r : Reply} (hk : BlameSide a₀ s) : BlameSide a₀ (hubWrite s x src va need bs r).s := by
  unfold hubWrite
  repeat' (first | (with_reducible (first | (assumption) | (apply hubWriteLoop_blame) | (refine hubWriteLoop_blame_of (by assumption) ?_) | (refine ite_blame ?_ ?_) | split | (intro _) | (dsimp only))) | (apply BlameSide.rest; with_reducible (first | (assumption) | (apply hubWriteLoop_blame) | (refine hubWriteLoop_blame_of (by assumption) ?_))))

theorem hubWrite_blame_of {a₀ z : State} {s : State} {x : ℕ} {src : ℕ} {va : BitVec 64} {need : Need} {bs : List Byte} {r : Reply} {y1 : Code} {y2 : List Byte} (he : hubWrite s x src va need bs r = ⟨y1, y2, z⟩) (hk : BlameSide a₀ s) : BlameSide a₀ z := by
  have := hubWrite_blame (s := s) (x := x) (src := src) (va := va) (need := need) (bs := bs) (r := r) hk
  rwa [he] at this

theorem storePush_blame {a₀ : State} {s : State} {op : StoreOp} {order : Option ℕ} (hk : BlameSide a₀ s) : BlameSide a₀ (storePush s op order) := by
  unfold storePush
  repeat' (first | (with_reducible (first | (assumption) | (apply withStore_blame) | (refine ite_blame ?_ ?_) | split | (intro _) | (dsimp only))) | (apply BlameSide.rest; with_reducible (first | (assumption) | (apply withStore_blame))))

theorem recUnits_blame {a₀ : State} {s : State} {f : UnitRecs → UnitRecs} {order : Option ℕ} (hk : BlameSide a₀ s) : BlameSide a₀ (recUnits s f order) := by
  unfold recUnits
  repeat' (first | (with_reducible (first | (assumption) | (apply storePush_blame) | (apply withKey_blame) | (refine ite_blame ?_ ?_) | split | (intro _) | (dsimp only))) | (apply BlameSide.rest; with_reducible (first | (assumption) | (apply storePush_blame) | (apply withKey_blame))))

theorem recRetire_blame {a₀ : State} {s : State} {u : ℕ} {order : Option ℕ} (hk : BlameSide a₀ s) : BlameSide a₀ (recRetire s u order) := by
  unfold recRetire
  repeat' (first | (with_reducible (first | (assumption) | (apply withStore_blame) | (apply recUnits_blame) | (refine ite_blame ?_ ?_) | split | (intro _) | (dsimp only))) | (apply BlameSide.rest; with_reducible (first | (assumption) | (apply withStore_blame) | (apply recUnits_blame))))

theorem eventDropped_blame {a₀ : State} {s : State} {x : ℕ} (hk : BlameSide a₀ s) : BlameSide a₀ (eventDropped s x) := by
  unfold eventDropped
  repeat' (first | (with_reducible (first | (assumption) | (apply modCtx_blame) | (refine ite_blame ?_ ?_) | split | (intro _) | (dsimp only))) | (apply BlameSide.rest; with_reducible (first | (assumption) | (apply modCtx_blame))))

theorem eventTry_blame_of {a₀ z : State} {s : State} {x : ℕ} {r : List Byte} (he : eventTry s x r = some z) (hk : BlameSide a₀ s) : BlameSide a₀ z := by
  unfold eventTry at he
  repeat' (first | split at he | (simp only [Option.some.injEq, Prod.mk.injEq, reduceCtorEq] at he) | (obtain ⟨-, rfl⟩ := he) | (subst he))
  all_goals repeat' (first | (with_reducible (first | (assumption) | (apply modCtx_blame) | (apply eventDropped_blame) | (apply interrupt_blame) | (apply hubWrite_blame) | (refine hubWrite_blame_of (by assumption) ?_) | (refine ite_blame ?_ ?_) | split | (intro _) | (dsimp only))) | (apply BlameSide.rest; with_reducible (first | (assumption) | (apply modCtx_blame) | (apply eventDropped_blame) | (apply interrupt_blame) | (apply hubWrite_blame) | (refine hubWrite_blame_of (by assumption) ?_))))

theorem event_blame {a₀ : State} {s : State} {x : ℕ} {r : List Byte} (hk : BlameSide a₀ s) : BlameSide a₀ (event s x r) := by
  unfold event
  repeat' (first | (with_reducible (first | (assumption) | (refine eventTry_blame_of (by assumption) ?_) | (refine ite_blame ?_ ?_) | split | (intro _) | (dsimp only))) | (apply BlameSide.rest; with_reducible (first | (assumption) | (refine eventTry_blame_of (by assumption) ?_))))

theorem rasCtx_blame {a₀ : State} {s : State} {x : ℕ} {code : Code} {q : ℕ} {unit : BitVec 32} (hk : BlameSide a₀ s) : BlameSide a₀ (rasCtx s x code q unit) := by
  unfold rasCtx
  repeat' (first | (with_reducible (first | (assumption) | (apply event_blame) | (refine ite_blame ?_ ?_) | split | (intro _) | (dsimp only))) | (apply BlameSide.rest; with_reducible (first | (assumption) | (apply event_blame))))

theorem report_blame {a₀ : State} {s : State} {xs : List ℕ} {code : Code} {kind : ℕ} {unit : BitVec 32} {detail : ℕ} (hk : BlameSide a₀ s) : BlameSide a₀ (report s xs code kind unit detail) := by
  unfold report
  repeat' (first | (with_reducible (first | (assumption) | (apply rasCtx_blame) | (apply rasTo_blame) | (refine forEach_blame ?_ ?_) | (refine ite_blame ?_ ?_) | split | (intro _) | (dsimp only))) | (apply BlameSide.rest; with_reducible (first | (assumption) | (apply rasCtx_blame) | (apply rasTo_blame) | (refine forEach_blame ?_ ?_))))

theorem dropPoolReqs_blame {a₀ : State} {s : State} {p : ℕ} {q : ℕ} (hk : BlameSide a₀ s) : BlameSide a₀ (dropPoolReqs s p q) := by
  unfold dropPoolReqs
  repeat' (first | (with_reducible (first | (assumption) | (apply setPool_blame) | (refine ite_blame ?_ ?_) | split | (intro _) | (dsimp only))) | (apply BlameSide.rest; with_reducible (first | (assumption) | (apply setPool_blame))))

theorem freeSlots_blame {a₀ : State} {s : State} {x : Gang} (hk : BlameSide a₀ s) : BlameSide a₀ (freeSlots s x) := by
  unfold freeSlots
  repeat' (first | (with_reducible (first | (assumption) | (apply modCtx_blame) | (refine ite_blame ?_ ?_) | split | (intro _) | (dsimp only))) | (apply BlameSide.rest; with_reducible (first | (assumption) | (apply modCtx_blame))))

theorem dropGang_blame {a₀ : State} {s : State} {x : Gang} (hk : BlameSide a₀ s) : BlameSide a₀ (dropGang s x) := by
  unfold dropGang
  repeat' (first | (with_reducible (first | (assumption) | (refine forEach_blame ?_ ?_) | (apply freeSlots_blame) | (apply modCore_blame) | (refine ite_blame ?_ ?_) | split | (intro _) | (dsimp only))) | (apply BlameSide.rest; with_reducible (first | (assumption) | (refine forEach_blame ?_ ?_) | (apply freeSlots_blame) | (apply modCore_blame))))

theorem setGang_blame {a₀ : State} {s : State} {x : Gang} (hk : BlameSide a₀ s) : BlameSide a₀ (setGang s x) := by
  unfold setGang
  repeat' (first | (with_reducible (first | (assumption) | (refine ite_blame ?_ ?_) | split | (intro _) | (dsimp only))) | (apply BlameSide.rest; with_reducible (first | (assumption))))

theorem stopGang_blame {a₀ : State} {s : State} {x : Gang} (hk : BlameSide a₀ s) : BlameSide a₀ (stopGang s x) := by
  unfold stopGang
  repeat' (first | (with_reducible (first | (assumption) | (apply setGang_blame) | (refine forEach_blame ?_ ?_) | (apply dropGang_blame) | (apply modCore_blame) | (refine ite_blame ?_ ?_) | split | (intro _) | (dsimp only))) | (apply BlameSide.rest; with_reducible (first | (assumption) | (apply setGang_blame) | (refine forEach_blame ?_ ?_) | (apply dropGang_blame) | (apply modCore_blame))))

theorem guilty_blame {a₀ : State} {s : State} {q : ℕ} {code : Code} {f : Option EntryFault} {checkFailed : Bool} (hk : BlameSide a₀ s) : BlameSide a₀ (guilty s q code f checkFailed) := by
  unfold guilty
  repeat' (first | (with_reducible (first | (assumption) | (apply setQueue_blame) | (apply modQueue_blame) | (apply dropPoolReqs_blame) | (apply stopGang_blame) | (refine forEach_blame ?_ ?_) | (refine ite_blame ?_ ?_) | split | (intro _) | (dsimp only))) | (apply BlameSide.rest; with_reducible (first | (assumption) | (apply setQueue_blame) | (apply modQueue_blame) | (apply dropPoolReqs_blame) | (apply stopGang_blame) | (refine forEach_blame ?_ ?_))))

theorem entryFault_blame {a₀ : State} {s : State} {q : ℕ} {code : Code} {node : ℕ} {off : ℕ} (hk : BlameSide a₀ s) : BlameSide a₀ (entryFault s q code node off) := by
  unfold entryFault
  repeat' (first | (with_reducible (first | (assumption) | (apply guilty_blame) | (refine ite_blame ?_ ?_) | split | (intro _) | (dsimp only))) | (apply BlameSide.rest; with_reducible (first | (assumption) | (apply guilty_blame))))

theorem tooLarge_blame {a₀ : State} {s : State} (hk : BlameSide a₀ s) : BlameSide a₀ (tooLarge s) := by
  unfold tooLarge
  repeat' (first | (with_reducible (first | (assumption) | (apply entryFault_blame) | (apply guilty_blame) | (refine forEach_blame ?_ ?_) | (refine ite_blame ?_ ?_) | split | (intro _) | (dsimp only))) | (apply BlameSide.rest; with_reducible (first | (assumption) | (apply entryFault_blame) | (apply guilty_blame) | (refine forEach_blame ?_ ?_))))

theorem retireCore_blame {a₀ : State} {s : State} {c : ℕ} {withField : Bool} (hk : BlameSide a₀ s) : BlameSide a₀ (retireCore s c withField) := by
  unfold retireCore
  repeat' (first | (with_reducible (first | (assumption) | (apply tooLarge_blame) | (apply report_blame) | (apply recRetire_blame) | (apply modCore_blame) | (refine ite_blame ?_ ?_) | split | (intro _) | (dsimp only))) | (apply BlameSide.rest; with_reducible (first | (assumption) | (apply tooLarge_blame) | (apply report_blame) | (apply recRetire_blame) | (apply modCore_blame))))

theorem guiltyCtx_blame {a₀ : State} {s : State} {x : ℕ} (hk : BlameSide a₀ s) : BlameSide a₀ (guiltyCtx s x) := by
  unfold guiltyCtx
  repeat' (first | (with_reducible (first | (assumption) | (apply guilty_blame) | (refine forEach_blame ?_ ?_) | (refine ite_blame ?_ ?_) | split | (intro _) | (dsimp only))) | (apply BlameSide.rest; with_reducible (first | (assumption) | (apply guilty_blame) | (refine forEach_blame ?_ ?_))))

theorem guiltyAll_blame {a₀ : State} {s : State} {xs : List ℕ} (hk : BlameSide a₀ s) : BlameSide a₀ (guiltyAll s xs) := by
  unfold guiltyAll
  repeat' (first | (with_reducible (first | (assumption) | (apply guiltyCtx_blame) | (refine forEach_blame ?_ ?_) | (refine ite_blame ?_ ?_) | split | (intro _) | (dsimp only))) | (apply BlameSide.rest; with_reducible (first | (assumption) | (apply guiltyCtx_blame) | (refine forEach_blame ?_ ?_))))

end Sys2Proof.Machine
end

