-- ==== Sys2Proof/Laws/Core.lean ====
section
/-!
SUPPORT. The registers of a core after the named updates, the end of a word, the issue of an instruction, and what a
branch reads ahead.
-/

namespace Sys2Proof.Machine

/-! ## Bit fields -/

theorem bf_eq_extractLsb {w : Nat} (x : BitVec w) (hi lo : Nat) (h : lo ≤ hi) : bf x hi lo = (x.extractLsb hi lo).toNat := by
  simp only [bf, BitVec.extractLsb_toNat, Nat.shiftRight_eq_div_pow]
  congr 2
  omega

theorem sext64_bf (w : BitVec 56) : sext64 32 (bf w 31 0) = (w.extractLsb 31 0).signExtend 64 := by
  rw [sext64, bf_eq_extractLsb w 31 0 (by omega)]
  congr 1
  apply BitVec.eq_of_toNat_eq
  simp

/-! ## Registers -/

theorem sreg_zero (k : CoreSt) : sreg k 0 = 0 := rfl
theorem areg_zero (k : CoreSt) : areg k 0 = 0 := rfl

theorem sreg_setS (k : CoreSt) (r i : Nat) (v : BitVec 64) :
    sreg (setS k r v) i = if i = r then (if r = 0 then 0 else v) else sreg k i := by
  unfold sreg setS
  by_cases hr : r = 0
  · subst hr
    by_cases hi : i = 0 <;> simp [hi]
  · by_cases hi : i = 0
    · subst hi
      simp [hr, Ne.symm hr]
    · simp only [hr, hi, if_false, tget_tset]

theorem areg_setA (k : CoreSt) (r i : Nat) (v : BitVec 64) :
    areg (setA k r v) i = if i = r ∧ i ≠ 0 then v else areg k i := by
  unfold areg setA
  by_cases hr : r = 0
  · subst hr
    by_cases hi : i = 0 <;> simp [hi]
  · by_cases hi : i = 0
    · subst hi
      simp
    · by_cases hir : i = r
      · subst hir; simp [hi, tget_tset_self]
      · simp [hr, hi, hir, tget_tset_ne]

theorem lreg_setL (k : CoreSt) (i j : Nat) (v : LoopReg) : lreg (setL k i v) j = if j = i then v else lreg k j := by
  simp only [lreg, setL, tget_tset]

theorem OnlyRegs.refl (k : CoreSt) : OnlyRegs k k := rfl
theorem OnlyRegs.cr {k l : CoreSt} (h : OnlyRegs k l) : l.cr = k.cr := by
  unfold OnlyRegs at h
  rw [h]
theorem OnlyRegs.trans {k l m : CoreSt} (h : OnlyRegs k l) (g : OnlyRegs l m) : OnlyRegs k m := by
  unfold OnlyRegs at h g ⊢
  rw [h] at g
  exact g
theorem setS_onlyRegs (k : CoreSt) (r : Nat) (v : BitVec 64) : OnlyRegs k (setS k r v) := by
  unfold setS; split <;> rfl
theorem setA_onlyRegs (k : CoreSt) (r : Nat) (v : BitVec 64) : OnlyRegs k (setA k r v) := by
  unfold setA; split <;> rfl
@[simp] theorem setS_pc (k : CoreSt) (r : Nat) (v : BitVec 64) : (setS k r v).regs.pc = k.regs.pc := by unfold setS; split <;> rfl
@[simp] theorem setS_a (k : CoreSt) (r : Nat) (v : BitVec 64) : (setS k r v).regs.a = k.regs.a := by unfold setS; split <;> rfl
@[simp] theorem setS_lc (k : CoreSt) (r : Nat) (v : BitVec 64) : (setS k r v).regs.lc = k.regs.lc := by unfold setS; split <;> rfl
@[simp] theorem setS_cr (k : CoreSt) (r : Nat) (v : BitVec 64) : (setS k r v).cr = k.cr := by unfold setS; split <;> rfl
@[simp] theorem setA_pc (k : CoreSt) (r : Nat) (v : BitVec 64) : (setA k r v).regs.pc = k.regs.pc := by unfold setA; split <;> rfl
@[simp] theorem setA_s (k : CoreSt) (r : Nat) (v : BitVec 64) : (setA k r v).regs.s = k.regs.s := by unfold setA; split <;> rfl
@[simp] theorem setA_lc (k : CoreSt) (r : Nat) (v : BitVec 64) : (setA k r v).regs.lc = k.regs.lc := by unfold setA; split <;> rfl
@[simp] theorem setA_cr (k : CoreSt) (r : Nat) (v : BitVec 64) : (setA k r v).cr = k.cr := by unfold setA; split <;> rfl
@[simp] theorem lreg_setS (k : CoreSt) (r i : Nat) (v : BitVec 64) : lreg (setS k r v) i = lreg k i := by simp [lreg]
@[simp] theorem lreg_setA (k : CoreSt) (r i : Nat) (v : BitVec 64) : lreg (setA k r v) i = lreg k i := by simp [lreg]

theorem normPc_congr {k l : CoreSt} (h : l.cr = k.cr) (a : BitVec 64) : normPc l a = normPc k a := by
  unfold normPc isDirect
  rw [h]

/-- Walking past a word gives the same address whether or not the word's own address was reduced first. -/
theorem normPc_add (k : CoreSt) (a b : BitVec 64) : normPc k (normPc k a + b) = normPc k (a + b) := by
  unfold normPc
  split
  · congr 1
    simp only [BitVec.toNat_add, BitVec.toNat_ofNat, spadSize]
    omega
  · rfl

/-! ## The end of a word (R144, R145) -/

theorem foldl_none_mem {α β : Type} (f : Option β → α → Option β) (hf : ∀ b a, f b a ≠ none) :
    ∀ (l : List α) (b : Option β), l.foldl f b = none → l = [] ∧ b = none
  | [], b, h => ⟨rfl, h⟩
  | a :: l, b, h => absurd (foldl_none_mem f hf l (f b a) h).2 (hf b a)

theorem innerLoop_none {k : CoreSt} {a : BitVec 64} : innerLoop k a = none ↔ ∀ i < 4, (lreg k i).active = true → (lreg k i).last ≠ a := by
  unfold innerLoop
  constructor
  · intro h i hi ha hl
    have := (foldl_none_mem _ (by intro b i; cases b <;> simp; split <;> simp) _ _ h).1
    have hm : i ∈ (List.range 4).filter fun i => (lreg k i).active && decide ((lreg k i).last = a) := by
      simp [hi, ha, hl]
    rw [this] at hm
    exact absurd hm (by simp)
  · intro h
    have : (List.range 4).filter (fun i => (lreg k i).active && decide ((lreg k i).last = a)) = [] := by
      simp only [List.filter_eq_nil_iff, List.mem_range, Bool.and_eq_true, decide_eq_true_eq, not_and]
      exact fun i hi ha => h i hi ha
    rw [this]
    rfl

/-- Past a word on which no loop ends. -/
theorem endBody_none {k : CoreSt} {a : BitVec 64} (n : Nat) (h : ∀ i < 4, (lreg k i).active = true → (lreg k i).last ≠ a) :
    endBody n k a = setPc k (normPc k (a + 8)) := by
  cases n with
  | zero => rfl
  | succ n => simp only [endBody, innerLoop_none.mpr h]

@[simp] theorem setPc_pc (k : CoreSt) (v : BitVec 64) : (setPc k v).regs.pc = v := rfl
@[simp] theorem setPc_s (k : CoreSt) (v : BitVec 64) : (setPc k v).regs.s = k.regs.s := rfl
@[simp] theorem setPc_a (k : CoreSt) (v : BitVec 64) : (setPc k v).regs.a = k.regs.a := rfl
@[simp] theorem setPc_lc (k : CoreSt) (v : BitVec 64) : (setPc k v).regs.lc = k.regs.lc := rfl
@[simp] theorem setPc_cr (k : CoreSt) (v : BitVec 64) : (setPc k v).cr = k.cr := rfl
@[simp] theorem lreg_setPc (k : CoreSt) (v : BitVec 64) (i : Nat) : lreg (setPc k v) i = lreg k i := rfl
@[simp] theorem setL_pc (k : CoreSt) (i : Nat) (v : LoopReg) : (setL k i v).regs.pc = k.regs.pc := rfl
@[simp] theorem setL_s (k : CoreSt) (i : Nat) (v : LoopReg) : (setL k i v).regs.s = k.regs.s := rfl
@[simp] theorem setL_a (k : CoreSt) (i : Nat) (v : LoopReg) : (setL k i v).regs.a = k.regs.a := rfl
@[simp] theorem setL_cr (k : CoreSt) (i : Nat) (v : LoopReg) : (setL k i v).cr = k.cr := rfl

/-- What the end of a word leaves alone. -/
structure LoopsOnly (k l : CoreSt) : Prop where
  rest : OnlyRegs k l
  s : l.regs.s = k.regs.s
  a : l.regs.a = k.regs.a

theorem LoopsOnly.refl (k : CoreSt) : LoopsOnly k k := ⟨rfl, rfl, rfl⟩
theorem LoopsOnly.trans {k l m : CoreSt} (h : LoopsOnly k l) (g : LoopsOnly l m) : LoopsOnly k m :=
  ⟨h.rest.trans g.rest, g.s.trans h.s, g.a.trans h.a⟩
theorem setPc_loopsOnly (k : CoreSt) (v : BitVec 64) : LoopsOnly k (setPc k v) := ⟨rfl, rfl, rfl⟩
theorem setL_loopsOnly (k : CoreSt) (i : Nat) (v : LoopReg) : LoopsOnly k (setL k i v) := ⟨rfl, rfl, rfl⟩

theorem endBody_loopsOnly : ∀ (n : Nat) (k : CoreSt) (a : BitVec 64), LoopsOnly k (endBody n k a)
  | 0, k, a => setPc_loopsOnly k _
  | n + 1, k, a => by
    simp only [endBody]
    split
    · exact setPc_loopsOnly k _
    · split
      · exact (setL_loopsOnly k _ _).trans (setPc_loopsOnly _ _)
      · exact (setL_loopsOnly k _ _).trans (endBody_loopsOnly n _ a)

theorem advance_loopsOnly (k : CoreSt) (n : Nat) : LoopsOnly k (advance k n) := endBody_loopsOnly 4 k _

theorem jump_loopsOnly (k : CoreSt) (t : BitVec 64) : LoopsOnly k (jump k t) := by
  unfold jump
  refine LoopsOnly.trans (l := (List.range 4).foldl _ k) ?_ (setPc_loopsOnly _ _)
  have : ∀ (l : List Nat) (m : CoreSt), LoopsOnly m (l.foldl (fun m i =>
      if (lreg m i).active && !inBody m (lreg m i) (normPc k t) then setL m i { lreg m i with active := false } else m) m) := by
    intro l
    induction l with
    | nil => exact fun m => LoopsOnly.refl m
    | cons i l ih =>
      intro m
      rw [List.foldl_cons]
      refine LoopsOnly.trans ?_ (ih _)
      split
      · exact setL_loopsOnly _ _ _
      · exact LoopsOnly.refl _
  exact this _ k

theorem sreg_of_loopsOnly {k l : CoreSt} (h : LoopsOnly k l) (i : Nat) : sreg l i = sreg k i := by simp [sreg, h.s]
theorem areg_of_loopsOnly {k l : CoreSt} (h : LoopsOnly k l) (i : Nat) : areg l i = areg k i := by simp [areg, h.a]

/-- After an update of registers other than pc and the loop registers, an instruction of one word moves pc past the word on which no
loop ends. -/
theorem pastWord_advance {k l : CoreSt} (hl : OnlyRegs k l) (hp : l.regs.pc = k.regs.pc) (hc : l.regs.lc = k.regs.lc) :
    PastWord k (advance l 1) := by
  intro h
  have hn : ∀ a, normPc l a = normPc k a := fun a => normPc_congr hl.cr a
  have hlr : ∀ i, lreg l i = lreg k i := fun i => by simp [lreg, hc]
  have : advance l 1 = setPc l (normPc l (normPc l l.regs.pc + 8)) := by
    unfold advance
    simp only [Nat.sub_self, Nat.mul_zero]
    rw [show l.regs.pc + BitVec.ofNat 64 0 = l.regs.pc by simp]
    apply endBody_none
    intro i hi ha
    rw [hn, hp, hlr] at *
    exact h i hi ha
  rw [this]
  simp only [setPc_pc, setPc_lc, hc, and_true, hp]
  rw [hn, hn, normPc_add]

theorem onlyCore_setCore (s : State) (c : Nat) (k : CoreSt) : OnlyCore s (setCore s c k) c :=
  ⟨rfl, fun _ hd => getCore_setCore_ne s k hd⟩

theorem onlyCore_modCore (s : State) (c : Nat) (f : CoreSt → CoreSt) : OnlyCore s (modCore s c f) c := onlyCore_setCore s c _

/-- What an instruction does that writes one scalar register and moves on. -/
theorem writesScalar_setCore (s : State) (c r : Nat) (v : BitVec 64) :
    WritesScalar s (setCore s c (advance (setS (getCore s c) r v) 1)) c r v := by
  have hb := advance_loopsOnly (setS (getCore s c) r v) 1
  refine ⟨onlyCore_setCore _ _ _, ?_, ?_, ?_, ?_, ?_⟩ <;> simp only [getCore_setCore_self]
  · exact (setS_onlyRegs _ _ _).trans hb.rest
  · rw [sreg_of_loopsOnly hb, sreg_setS]
    simp
  · intro i hi
    rw [sreg_of_loopsOnly hb, sreg_setS, if_neg hi]
  · rw [hb.a, setS_a]
  · exact pastWord_advance (setS_onlyRegs _ _ _) (by simp) (by simp)

/-- The innermost loop that ends on a word is active and ends there. -/
theorem innerLoop_some {k : CoreSt} {a : BitVec 64} {i : Nat} (h : innerLoop k a = some i) :
    i < 4 ∧ (lreg k i).active = true ∧ (lreg k i).last = a := by
  unfold innerLoop at h
  have key : ∀ (l : List Nat) (b : Option Nat) (f : Option Nat → Nat → Option Nat),
      (∀ b j, f b j = some j ∨ f b j = b) → l.foldl f b = some i → i ∈ l ∨ b = some i := by
    intro l
    induction l with
    | nil => exact fun b f _ h => Or.inr h
    | cons j l ih =>
      intro b f hf h
      rw [List.foldl_cons] at h
      rcases ih _ f hf h with h1 | h1
      · exact Or.inl (List.mem_cons_of_mem _ h1)
      · rcases hf b j with h2 | h2
        · rw [h2] at h1
          cases h1
          exact Or.inl (List.mem_cons_self ..)
        · rw [h2] at h1
          exact Or.inr h1
  rcases key _ _ _ (by
    intro b j
    cases b with
    | none => exact Or.inl rfl
    | some m =>
      simp only
      split
      · exact Or.inl rfl
      · exact Or.inr rfl) h with h1 | h1
  · simpa using h1
  · exact absurd h1 (by simp)

/-- Past a word on which loop `i` is the innermost to end. -/
theorem endBody_some {k : CoreSt} {a : BitVec 64} {i : Nat} (n : Nat) (h : innerLoop k a = some i) :
    endBody (n + 1) k a = if (lreg k i).index.toNat + 1 < (lreg k i).count.toNat
      then setPc (setL k i { lreg k i with index := (lreg k i).index + 1 }) (lreg k i).start
      else endBody n (setL k i { lreg k i with active := false }) a := by
  simp only [endBody, h]

/-- The end of a word leaves an inactive loop as it is. -/
theorem lreg_endBody_of_inactive : ∀ (n : Nat) (k : CoreSt) (a : BitVec 64) (i : Nat), (lreg k i).active = false →
    lreg (endBody n k a) i = lreg k i
  | 0, k, a, i, _ => rfl
  | n + 1, k, a, i, h => by
    simp only [endBody]
    cases hj : innerLoop k a with
    | none => rfl
    | some j =>
      have hne : i ≠ j := by
        rintro rfl
        rw [(innerLoop_some hj).2.1] at h
        exact absurd h (by simp)
      simp only
      split
      · simp [lreg_setL, hne]
      · rw [lreg_endBody_of_inactive n _ a i (by simpa [lreg_setL, hne] using h)]
        simp [lreg_setL, hne]

/-- The loop of the shortest body is the innermost. -/
theorem innerLoop_min {k : CoreSt} {a : BitVec 64} {i : Nat} (hi : i < 4) (ha : (lreg k i).active = true) (hl : (lreg k i).last = a)
   (hmin : ∀ j < 4, j ≠ i → (lreg k j).active = true → (lreg k j).last = a → addrDist k a (lreg k i).start < addrDist k a (lreg k j).start) :
   innerLoop k a = some i := by
  unfold innerLoop
  have key : ∀ (l : List Nat) (b : Option Nat), (∀ j ∈ l, j < 4 ∧ (lreg k j).active = true ∧ (lreg k j).last = a) →
      (b = some i ∨ (i ∈ l ∧ ∀ j, b = some j → addrDist k a (lreg k i).start < addrDist k a (lreg k j).start)) →
      l.foldl (fun best i => match best with
      | none => some i
      | some j => if addrDist k a (lreg k i).start < addrDist k a (lreg k j).start then some i else some j) b = some i := by
    intro l
    induction l with
    | nil => intro b _ h; simpa using h
    | cons j l ih =>
      intro b hall h
      rw [List.foldl_cons]
      apply ih _ (fun m hm => hall m (List.mem_cons_of_mem _ hm))
      have hj := hall j (by simp)
      by_cases hji : j = i
      · subst hji
        left
        rcases h with rfl | ⟨_, h⟩
        · simp
        · cases b with
          | none => rfl
          | some m => simp [h m rfl]
      · have := hmin j hj.1 hji hj.2.1 hj.2.2
        rcases h with rfl | ⟨hm, h⟩
        · left; simp; omega
        · right
          refine ⟨by simpa [Ne.symm hji] using hm, ?_⟩
          cases b with
          | none => rintro m ⟨rfl⟩; exact this
          | some x => 
            intro m hm
            simp only at hm
            split at hm
            · cases hm; exact this
            · cases hm; exact h _ rfl
  apply key
  · intro j hj; simpa using hj
  · right
    exact ⟨by simp [hi, ha, hl], fun j hj => by simp at hj⟩

theorem fImm_eq (w : BitVec 56) : fImm w = (w.extractLsb 31 0).signExtend 64 := sext64_bf w
theorem fOff_eq (w : BitVec 56) : fOff w = 8 * (w.extractLsb 31 0).signExtend 64 := by rw [fOff, sext64_bf, BitVec.mul_comm]

theorem addrDist_congr {k l : CoreSt} (h : l.cr = k.cr) (a b : BitVec 64) : addrDist l a b = addrDist k a b := by
  simp only [addrDist, normPc_congr h]

theorem inBody_congr {k l : CoreSt} (h : l.cr = k.cr) (x : LoopReg) (a : BitVec 64) : inBody l x a = inBody k x a := by
  simp only [inBody, addrDist_congr h]

/-- A jump goes to its target and ends the loops that it leaves (R145). -/
theorem jumpsTo_jump {k l : CoreSt} (hc : l.cr = k.cr) (hl : l.regs.lc = k.regs.lc) (a : BitVec 64) : JumpsTo k (jump l a) a := by
  have hn : ∀ a, normPc l a = normPc k a := fun a => normPc_congr hc a
  have hlr : ∀ i, lreg l i = lreg k i := fun i => by simp [lreg, hl]
  constructor
  · simp [jump, hn]
  · intro i hi
    unfold jump
    simp only [lreg_setPc, hn]
    have key : ∀ (js : List Nat) (m : CoreSt), js.Nodup → m.cr = k.cr → 
       lreg (js.foldl (fun m i =>
      if (lreg m i).active && !inBody m (lreg m i) (normPc k a) then setL m i { lreg m i with active := false } else m) m) i
        = if i ∈ js ∧ (lreg m i).active ∧ ¬ inBody k (lreg m i) (normPc k a) then { lreg m i with active := false } else lreg m i := by
      intro js
      induction js with
      | nil => intro m _ _; simp
      | cons j js ih =>
        intro m hnd hm
        rw [List.foldl_cons, ih _ (List.nodup_cons.mp hnd).2 (by split <;> simp [hm])]
        have hj := (List.nodup_cons.mp hnd).1
        simp only [inBody_congr hm]
        by_cases hij : i = j
        · subst hij
          simp only [hj, false_and, if_false, List.mem_cons, true_or, true_and]
          by_cases hb : (lreg m i).active = true ∧ ¬ inBody k (lreg m i) (normPc k a) = true
          · simp [hb, lreg_setL]
          · rw [if_neg hb]
            rw [if_neg (by simpa using hb)]
        · have : lreg (if ((lreg m j).active && !inBody k (lreg m j) (normPc k a)) = true then setL m j { lreg m j with active := false } else m) i = lreg m i := by
            split
            · rw [lreg_setL, if_neg hij]
            · rfl
          rw [this]
          simp [hij]
    rw [key _ l (List.nodup_range) hc, hlr]
    simp [hi]

/-! ## Issue -/

/-- Where an instruction issues, its body acts on the core. -/
theorem issueCore_of {s : State} {c : Nat} {legal : Bool} {regs : List Nat} {body : CoreSt → CoreSt}
    (hi : canIssue (getCore s c) = true) (hl : legal = true) (hr : ∀ r ∈ regs, busyReg (getCore s c) r = false) :
    issueCore s c legal regs body = setCore s c (body (getCore s c)) := by
  have : regs.any (busyReg (getCore s c)) = false := by
    simp only [List.any_eq_false, Bool.not_eq_true]
    exact hr
  simp [issueCore, hi, hl, this]

theorem Issues.runs {s : State} {c : Core} {legal : Bool} {regs : List Nat} {body : CoreSt → CoreSt} (h : Issues s c legal regs) :
    issueCore s c.val legal regs body = setCore s c.val (body (getCore s c.val)) := issueCore_of h.issuing h.word h.ready

/-- An illegal word ends the kernel and does nothing else. -/
theorem issueCore_illegal {s : State} {c : Nat} {regs : List Nat} {body : CoreSt → CoreSt} (hi : canIssue (getCore s c) = true) :
    issueCore s c false regs body = setCore s c (illegalOp (getCore s c)) := by
  simp [issueCore, hi]

/-- A core that does not issue changes nothing. -/
theorem issueCore_stopped {s : State} {c : Nat} {legal : Bool} {regs : List Nat} {body : CoreSt → CoreSt}
    (hi : canIssue (getCore s c) = false) : issueCore s c legal regs body = s := by
  simp [issueCore, hi]

/-! ## Gangs -/

/-- What the gang of a number is after a gang was replaced. -/
theorem gangOf_setGang (s : State) (x : Gang) (g : Nat) :
    gangOf (setGang s x) g = if g = x.id then (gangOf s g).map fun _ => x else gangOf s g := by
  simp only [gangOf, setGang]
  generalize s.gangs = l
  induction l with
  | nil => split <;> rfl
  | cons y l ih =>
    rw [List.map_cons]
    by_cases hg : g = x.id
    · rw [if_pos hg] at ih ⊢
      by_cases hy : y.id = x.id
      · rw [if_pos hy, List.find?_cons_of_pos (by simp [hg]), List.find?_cons_of_pos (by simp [hy, hg])]
        rfl
      · rw [if_neg hy, List.find?_cons_of_neg (by simp [hy, hg]), List.find?_cons_of_neg (by simp [hy, hg])]
        exact ih
    · rw [if_neg hg] at ih ⊢
      by_cases hy : y.id = x.id
      · have : ¬ x.id = g := fun h => hg h.symm
        rw [if_pos hy, List.find?_cons_of_neg (by simpa using this), List.find?_cons_of_neg (by rw [hy]; simpa using this)]
        exact ih
      · rw [if_neg hy]
        by_cases h : y.id = g
        · rw [List.find?_cons_of_pos (by simpa using h), List.find?_cons_of_pos (by simpa using h)]
        · rw [List.find?_cons_of_neg (by simpa using h), List.find?_cons_of_neg (by simpa using h)]
          exact ih

/-! ## Reads ahead of a branch (R142) -/

/-- Every value read ahead is what the scratchpad holds for its LDS. -/
theorem ldsAhead_value {s : State} {c : Nat} : ∀ {n : Nat} {a : BitVec 64} {as : List Nat} {e : Prefetched},
    e ∈ ldsAhead s c n a as → e.value = ldsNow (getCore s c) e.word := by
  intro n
  induction n with
  | zero => exact fun h => absurd h List.not_mem_nil
  | succ n ih =>
    intro a as e h
    rw [ldsAhead] at h
    dsimp only at h
    split at h
    · exact absurd h List.not_mem_nil
    · rename_i v _
      have here : ∀ {p : Prop} [Decidable p], e ∈ (if p then [(⟨a, BitVec.ofNat 56 v, ldsNow (getCore s c) (BitVec.ofNat 56 v)⟩ : Prefetched)] else []) → e.value = ldsNow (getCore s c) e.word := by
        intro p _ h
        split at h
        · rw [List.mem_singleton.mp h]
        · exact absurd h List.not_mem_nil
      have either : ∀ {p : Prop} [Decidable p] {x y : List Prefetched}, e ∈ (if p then x else y) → e ∈ x ∨ e ∈ y := by
        intro p _ x y h
        split at h
        · exact .inl h
        · exact .inr h
      exact (either h).elim here fun h => (List.mem_append.mp h).elim here ih

/-- What a core has read ahead: at most four LDS, each with what the scratchpad holds for it. Nothing else of the package
changes but the counter of free values. -/
theorem readAhead_spec {s : State} {c : Nat} : ∃ l : List Prefetched, ∃ n, l.length ≤ 4 ∧
    (∀ e ∈ l, e.value = ldsNow (getCore s c) e.word) ∧
    (readAhead s c = s ∨ readAhead s c = modCore { s with free := n } c fun k => { k with prefetch := l }) := by
  unfold readAhead
  split
  · exact ⟨[], 0, Nat.zero_le _, fun e h => absurd h List.not_mem_nil, .inl rfl⟩
  · rename_i l hl
    refine ⟨_, _, ?_, ?_, .inr rfl⟩
    · rw [List.length_map]
      refine (List.length_filter_le _ _).trans ?_
      rw [List.length_zipIdx]
      exact List.length_take_le _ _
    · intro e h
      obtain ⟨p, hp, rfl⟩ := List.mem_map.mp h
      exact ldsAhead_value (List.mem_of_mem_take (List.fst_mem_of_mem_zipIdx (List.mem_of_mem_filter hp)))
end Sys2Proof.Machine
end

