-- ==== Sys2Proof/Laws/Plain.lean ====
section
/-!
SUPPORT. Plain memory: what the shared memory operations do on a line that is present, owned, stored, not lost and copied by no cache.
-/

namespace Sys2Proof.Machine

/-! ## Bytes -/

@[simp] theorem toLe_length : ∀ n v, (toLe n v).length = n
  | 0, _ => rfl
  | n + 1, v => by simp [toLe, toLe_length n]

theorem toLe_getElem : ∀ (n v j : Nat) (h : j < (toLe n v).length), (toLe n v)[j] = BitVec.ofNat 8 (v / 256 ^ j)
  | 0, _, _, h => by simp [toLe] at h
  | n + 1, v, 0, _ => by simp [toLe]
  | n + 1, v, j + 1, h => by
    simp only [toLe, List.getElem_cons_succ]
    rw [toLe_getElem n, Nat.div_div_eq_div_mul, pow_succ, mul_comm]

theorem extractLsb'_byte (v : BitVec 64) (j : Nat) : v.extractLsb' (8 * j) 8 = BitVec.ofNat 8 (v.toNat / 256 ^ j) := by
  apply BitVec.eq_of_toNat_eq
  simp only [BitVec.extractLsb'_toNat, Nat.shiftRight_eq_div_pow, BitVec.toNat_ofNat]
  rw [show (256 : Nat) = 2 ^ 8 by norm_num, ← pow_mul]

theorem leNat_lt : ∀ bs : List Byte, leNat bs < 256 ^ bs.length
  | [] => by simp [leNat]
  | b :: bs => by
    have h := leNat_lt bs
    have hb := b.isLt
    simp only [leNat, List.length_cons, pow_succ]
    omega

/-- A piece of a run of bytes. -/
theorem slice_rdN (m : List Host.Cell) (a off n len : Nat) (h : off + n ≤ len) : slice (rdN m a len) off n = rdN m (a + off) n := by
  have hl : ((rdN m a len).drop off).length = len - off := by simp [rdN]
  simp only [slice]
  have ht : (((rdN m a len).drop off).take n).length = n := by simp [rdN]; omega
  rw [ht, Nat.sub_self, List.replicate_zero, List.append_nil]
  apply List.ext_getElem
  · simp [rdN]; omega
  · intro i h1 h2
    simp [rdN, Nat.add_assoc]

/-! ## Line keys -/

theorem ownDomain_lt (s : State) : ownDomain s < 512 := by
  unfold ownDomain bf
  split
  · exact Nat.mod_lt _ (by norm_num)
  · norm_num

theorem ownPackage_lt (s : State) : ownPackage s < 256 := by
  unfold ownPackage bf
  split
  · exact Nat.mod_lt _ (by norm_num)
  · norm_num

theorem present_lt {s : State} {x : Nat} (h : present s x = true) : x < 2 ^ 41 := by
  unfold present at h
  split at h
  · omega
  · split at h
    · omega
    · split at h
      · omega
      · exact absurd h (by simp)

theorem lineKey_toNat (s : State) {x : Nat} (h : x < 2 ^ 41) :
    (lineKey s x).toNat = ownDomain s * 2 ^ 49 + ownPackage s * 2 ^ 41 + x / 64 * 64 := by
  have h1 := ownDomain_lt s
  have h2 := ownPackage_lt s
  simp only [lineKey, gaOf, BitVec.toNat_ofNat]
  rw [Nat.mod_eq_of_lt (by omega)]

theorem keyHere_lineKey (s : State) {x : Nat} (h : x < 2 ^ 41) : keyHere s (lineKey s x) = true := by
  have h1 := ownDomain_lt s
  have h2 := ownPackage_lt s
  have : x / 64 * 64 < 2 ^ 41 := by omega
  simp only [keyHere, levelOf, lineKey_toNat s h, decide_eq_true_eq]
  rw [if_pos (by omega)]

theorem lineKey_mod (s : State) {x : Nat} (h : x < 2 ^ 41) : (lineKey s x).toNat % 2 ^ 41 = x / 64 * 64 := by
  rw [lineKey_toNat s h]
  omega

theorem lineKey_of_ga (s : State) {x : Nat} (_ : x < 2 ^ 41) : BitVec.ofNat 64 (gaOf s x / 64 * 64) = lineKey s x := by
  simp only [lineKey, gaOf]
  congr 1
  omega

theorem gaOf_mod (s : State) (x : Nat) : gaOf s x % 64 = x % 64 := by
  simp only [gaOf]
  omega

/-! ## A plain line -/

variable {s : State} {x o : Nat}

theorem PlainLine.lt (h : PlainLine s x o) : o < 2 ^ 41 := present_lt (h o rfl).1

theorem PlainLine.base (h : PlainLine s x o) : PlainLine s x (o / 64 * 64) := fun a ha => h a (by omega)

theorem PlainLine.check (h : PlainLine s x o) : homeCheck s false x o = St.ok := by
  simp [homeCheck, (h o rfl).1, (h o rfl).2.1]

/-- The recall finds no copy. -/
theorem recallLine_of_none {key : BitVec 64} (h : ∀ t < 8, rlcFind s t key = none) (write : Bool) (keep : Nat) :
    recallLine s key write keep = s := by
  have : ∀ l : List Nat, (∀ t ∈ l, t < 8) → forEach s l (fun s t =>
      if t = keep then s
      else match rlcFind s t key with
        | none => s
        | some l =>
          let s := if l.dirty || (write && homeRunRetired s (key.toNat % 2 ^ 41)) then writeBack s l else s
          let tw := getTower s t
          setTower s t { tw with rlc := if write then (tw.rlc.filter fun y => y.line ≠ key)
            else (tw.rlc.map fun y => if y.line = key then { y with dirty := false } else y) }) = s := by
    intro l
    induction l with
    | nil => intro _; rfl
    | cons t l ih =>
      intro hl
      have ht := h t (hl t (List.mem_cons_self ..))
      simp only [forEach, ht, ite_self]
      exact ih fun t ht => hl t (List.mem_cons_of_mem _ ht)
  exact this _ (by simp)

theorem PlainLine.recall (h : PlainLine s x o) (write : Bool) (keep : Nat) : recallLine s (lineKey s o) write keep = s :=
  recallLine_of_none (h o rfl).2.2.2.2.2 write keep

/-- A read of plain memory through no cache gives the bytes that memory holds and changes nothing. -/
theorem PlainLine.read (h : PlainLine s x o) (n : Nat) (hn : o % 64 + n ≤ 64) :
    homeRead s false x o n true = (St.ok, rdN s.mem o n, s) := by
  have hb := h (o / 64 * 64) (by omega)
  have hline : homeLine s x o true = (St.ok, rdN s.mem (o / 64 * 64) 64, s) := by
    simp [homeLine, hb.2.2.1, hb.2.2.2.1]
  have : (St.ok ≠ St.ok) = False := by simp
  simp only [homeRead, h.check, this, if_false, hline]
  rw [slice_rdN _ _ _ _ _ hn]
  congr 3
  omega

/-- The home side of a plain line answers a die that has a route to it. -/
theorem PlainLine.hereCheck (h : PlainLine s x o) {t : Nat} (hd : dieCode s t (homeTower s o) = St.ok) :
    hereCheck s t false x o = St.ok := by
  unfold Machine.hereCheck
  rw [h.check, if_neg (by simp), hd]

/-- A field of an offset above the bits within a line is that of the line. -/
theorem bf_line {y : Nat} (hi : Nat) {lo : Nat} (h : 6 ≤ lo) : bf (BitVec.ofNat 41 (y / 64 * 64)) hi lo = bf (BitVec.ofNat 41 y) hi lo := by
  unfold bf
  congr 1
  obtain ⟨k, rfl⟩ := Nat.exists_eq_add_of_le h
  simp only [BitVec.toNat_ofNat]
  rw [pow_add, ← Nat.div_div_eq_div_mul, ← Nat.div_div_eq_div_mul]
  congr 1
  omega

/-- A line has one home. -/
theorem homeTower_line (s : State) (o : Nat) : homeTower s (o / 64 * 64) = homeTower s o := by
  unfold homeTower chanOf
  have h1 : o / 64 * 64 < 0x8600000000 ↔ o < 0x8600000000 := by omega
  have h2 : (0x10000000000 ≤ o / 64 * 64 ∧ o / 64 * 64 < 0x20000000000) ↔ (0x10000000000 ≤ o ∧ o < 0x20000000000) := by omega
  simp only [h1, h2]
  split_ifs
  · unfold interleave
    have h3 : o / 64 * 64 / 0x10C0000000 = o / 0x10C0000000 := by omega
    have h4 : o / 64 * 64 % 0x10C0000000 = o % 0x10C0000000 / 64 * 64 := by omega
    dsimp only
    rw [h3, h4, bf_line 13 (by norm_num), bf_line 19 (by norm_num), bf_line 16 (by norm_num), bf_line 25 (by norm_num),
      bf_line 34 (by norm_num)]
    split_ifs <;> rfl
  · show (o / 64 * 64 - 0x10000000000) / 0x80000000 / 64 = (o - 0x10000000000) / 0x80000000 / 64
    omega
  · show (o / 64 * 64 - 0xC000000000) / 0x2000000 / 8 = (o - 0xC000000000) / 0x2000000 / 8
    omega

theorem PlainLine.hereRead (h : PlainLine s x o) {t : Nat} (hd : dieCode s t (homeTower s o) = St.ok) (n : Nat) (hn : o % 64 + n ≤ 64) :
    hereRead s t false x o n true = (St.ok, rdN s.mem o n, s) := by
  unfold Machine.hereRead
  rw [h.hereCheck hd, if_neg (by simp), h.recall, h.read n hn]

/-- A partial write of plain memory puts its bytes at the home and changes nothing else. -/
theorem PlainLine.write (h : PlainLine s x o) (bs : List Byte) (hb : bs.length < 64) :
    homeWrite s false x o bs true = (St.ok, withMem s (wrN s.mem o bs)) := by
  have hw : decide (bs.length = 64 ∧ o % 64 = 0) = false := by
    simp only [decide_eq_false_iff_not]
    omega
  have hf : homeFind (withMem s (wrN s.mem o bs)) o = none := (h o rfl).2.2.2.2.1
  have : (St.ok ≠ St.ok) = False := by simp
  simp [homeWrite, h.check, (h o rfl).2.2.1, hw, homeUpdate, hf]

/-- A write of a whole plain line puts its bytes at the home and changes nothing else. -/
theorem PlainLine.writeLine (h : PlainLine s x o) (ho : o % 64 = 0) (bs : List Byte) (hb : bs.length = 64) :
    homeWrite s false x o bs true = (St.ok, withMem (clearMarker s o) (wrN s.mem o bs)) := by
  have hw : decide (bs.length = 64 ∧ o % 64 = 0) = true := by simp [hb, ho]
  have hf : homeFind (withMem (clearMarker s o) (wrN (clearMarker s o).mem o bs)) o = none := (h o rfl).2.2.2.2.1
  have hm : (clearMarker s o).mem = s.mem := rfl
  rw [hm] at hf
  simp [homeWrite, h.check, (h o rfl).2.2.1, hw, homeUpdate, hf, hm]

/-- A plain line has its storage. -/
theorem PlainLine.kept (h : PlainLine s x o) : keyLost s (lineKey s o) = false := by
  unfold keyLost
  rw [lineKey_mod s h.lt, (h (o / 64 * 64) (by omega)).2.2.1, Bool.and_false]

/-- The RLC read procedure on plain, non-cacheable memory. -/
theorem PlainLine.rlcRead (h : PlainLine s x o) {t : Nat} (hd : dieCode s t (homeTower s o) = St.ok) (rq : RlcUser) :
    rlcRead s t rq (lineKey s o) x true none none = (St.ok, rdN s.mem (o / 64 * 64) 64, s) := by
  have ha : allocatable s t (lineKey s o) rq true = false := by
    unfold allocatable
    cases rq <;> simp
  have hr := h.base.hereRead (t := t) (by rw [homeTower_line]; exact hd) 64 (by omega)
  unfold Machine.rlcRead
  rw [h.kept, ha, lineKey_mod s h.lt, keyHere_lineKey s h.lt]
  exact hr

end Sys2Proof.Machine
end

