-- ==== Sys2Proof/Laws/Engine.lean ====
section
/-!
SUPPORT. What the engines of a core share: dispatch into a hold slot, acceptance, completion, and the bytes of a scratchpad.
-/

namespace Sys2Proof.Machine

/-- An instruction of `n` words, on whose last word no loop ends, moves pc past them. -/
theorem advance_none {k : CoreSt} {n : Nat} (h : NoLoopEnds k (normPc k (k.regs.pc + BitVec.ofNat 64 (8 * (n - 1))))) (hn : 1 ≤ n) :
    (advance k n).regs.pc = normPc k (k.regs.pc + BitVec.ofNat 64 (8 * n)) ∧ (advance k n).regs.lc = k.regs.lc := by
  unfold advance
  rw [endBody_none 4 h]
  refine ⟨?_, rfl⟩
  show normPc k (normPc k _ + 8) = _
  rw [normPc_add, BitVec.add_assoc]
  congr 2
  rw [show (8 : BitVec 64) = BitVec.ofNat 64 8 from rfl, ← BitVec.ofNat_add]
  congr 1; omega

/-- The opcode stands above the 56 bits of a word. -/
theorem word0_eq (op : Nat) (w : BitVec 56) (h : op < 256) : word0 op w = BitVec.ofNat 8 op ++ w := by
  apply BitVec.eq_of_toNat_eq
  have := w.isLt
  simp only [word0, BitVec.toNat_ofNat, BitVec.toNat_append]
  rw [← Nat.shiftLeft_add_eq_or_of_lt (by omega), Nat.shiftLeft_eq]
  omega

/-- What the issue of an engine instruction does. -/
theorem dispatch_ok {s : State} {c u n : Nat} {kind : EngKind} {w0 w1 : BitVec 64} {vals : List (BitVec 64)} (hn : 1 ≤ n) :
    Dispatches s (setCore s c (advance (dispatchEngine (getCore s c) u kind w0 w1 vals) n)) c u n
      ⟨kind, w0, w1, (getCore s c).dispNo, (getCore s c).regs.pc, vals, false⟩ := by
  generalize hk : getCore s c = k
  have hl := advance_loopsOnly (dispatchEngine k u kind w0 w1 vals) n
  have hu := hl.rest
  generalize hk2 : advance (dispatchEngine k u kind w0 w1 vals) n = k2 at hl hu
  have hd : k2.hold = tset none k.hold u (some ⟨kind, w0, w1, k.dispNo, k.regs.pc, vals, false⟩) := by rw [hu]; rfl
  have hc : k2.cr.ucnt = tset 0 k.cr.ucnt u (sf (tget 0 k.cr.ucnt u) 31 16 (bf (tget 0 k.cr.ucnt u) 31 16 + 1)) := by rw [hu]; rfl
  constructor
  · exact onlyCore_setCore s c _
  all_goals (try rw [getCore_setCore_self]); (try rw [hk])
  · rw [hu]; rfl
  · intro v
    show tget none k2.hold v = _
    rw [hd, tget_tset]; rfl
  · rw [hc, tget_tset_self, bf_sf_same _ _ _ _ (by omega)]
    all_goals norm_num
  · rw [hc, tget_tset_self, bf_sf_out _ _ _ _ _ _ (by omega)]
  · intro v hv
    rw [hc, tget_tset_ne _ hv]
  · rw [hl.s]; rfl
  · rw [hl.a]; rfl
  · intro h
    have := @advance_none (dispatchEngine k u kind w0 w1 vals) n h hn
    rw [hk2] at this
    exact this

/-- What the completion of a dispatched operation records. -/
theorem Completes.of (k : CoreSt) (u : Nat) (code : Code) (disp : Nat) : Completes k (completeUnit k u code disp) u code disp := by
  have hcl := bf_lt (tget 0 k.cr.ecode u) 30 24
  constructor <;> (try intro h) <;> (try intro h2)
  · show bf (tget 0 (tset 0 k.cr.ucnt u _) u) 15 0 = _
    rw [tget_tset_self, bf_sf_same _ _ _ _ (by omega)]
    all_goals norm_num
  · show bf (tget 0 (tset 0 k.cr.ucnt u _) u) 31 16 = _
    rw [tget_tset_self, bf_sf_out _ _ _ _ _ _ (by omega)]
  · show tget 0 (tset 0 k.cr.ecode u _) u = _
    rw [tget_tset_self]; simp [ecodeAfter, h]
  · show bf (tget 0 (tset 0 k.cr.ecode u _) u) 30 24 = _
    rw [tget_tset_self]
    unfold ecodeAfter
    rw [if_neg h]; dsimp only
    have : ∀ x : BitVec 32, x = sf (tget 0 k.cr.ecode u) 30 24 (if bf (tget 0 k.cr.ecode u) 30 24 = 127 then 127 else bf (tget 0 k.cr.ecode u) 30 24 + 1) → bf x 30 24 = min (bf (tget 0 k.cr.ecode u) 30 24 + 1) 127 := by
      intro x hx; rw [hx, bf_sf_same _ _ _ _ (by omega)]
      norm_num at hcl ⊢
      split <;> omega
    split
    · rw [bf_sf_out _ _ _ _ _ _ (by omega), bf_sf_out _ _ _ _ _ _ (by omega)]; exact this _ rfl
    · exact this _ rfl
  · show bf (tget 0 (tset 0 k.cr.ecode u _) u) 23 16 = _ ∧ bf (tget 0 (tset 0 k.cr.ecode u _) u) 15 0 = _
    rw [tget_tset_self]
    unfold ecodeAfter
    rw [if_neg h]; dsimp only; rw [if_pos h2]
    constructor
    · rw [bf_sf_out _ _ _ _ _ _ (by omega), bf_sf_same _ _ _ _ (by omega)]
      have := code.isLt; norm_num; omega
    · rw [bf_sf_same _ _ _ _ (by omega)]; norm_num
  · show bf (tget 0 (tset 0 k.cr.ecode u _) u) 23 0 = _
    rw [tget_tset_self]
    unfold ecodeAfter
    rw [if_neg h]; dsimp only; rw [if_neg h2]
    rw [bf_sf_out _ _ _ _ _ _ (by omega)]
  · exact ⟨tget_tset_ne _ h2 _, tget_tset_ne _ h2 _⟩

/-- The completion of an operation concerns the core registers alone. -/
theorem Completes.mono {k l k' l' : CoreSt} {u : Nat} {code : Code} {disp : Nat} (h : Completes k l u code disp) (h1 : k'.cr = k.cr) (h2 : l'.cr = l.cr) : Completes k' l' u code disp := by
  constructor <;> rw [h1, h2]
  exacts [h.done, h.dispatched, h.ok, h.count, h.first, h.later, h.units]

/-- A dispatched operation that completes without FMT_RESERVED only records its completion. -/
theorem finish_ok (k : CoreSt) (u : Nat) (o : HeldOp) (code : Code) (hd : o.direct = false) (hc : code ≠ St.fmtReserved) : finishOp k u o code = completeUnit k u code o.disp := by
  unfold finishOp; rw [hd]; simp [hc]
/-- FMT_RESERVED ends the kernel. -/
theorem finish_fmt (k : CoreSt) (u : Nat) (o : HeldOp) (hd : o.direct = false) : finishOp k u o St.fmtReserved = kernelFault (completeUnit k u St.fmtReserved o.disp) St.fmtReserved (if u = 4 then 4 else 3) (if u = 4 then 0 else u) o.pc 0 := by
  unfold finishOp; rw [hd]; simp

/-- What a failed dispatch check does. -/
theorem refuses {s : State} {c u : Nat} {o : HeldOp} {src unit : Nat} (hd : o.direct = false) (hs : (if u = 4 then 4 else 3) = src) (hu : (if u = 4 then 0 else u) = unit)
    (hf : (getCore s c).fault = none) : Refuses s (setCore s c (finishOp (setHold (getCore s c) u none) u o St.fmtReserved)) c u o src unit := by
  rw [finish_fmt _ _ _ hd, hs, hu]
  have hk : kernelFault (completeUnit (setHold (getCore s c) u none) u St.fmtReserved o.disp) St.fmtReserved src unit o.pc 0 = 
    { (completeUnit (setHold (getCore s c) u none) u St.fmtReserved o.disp) with fault := some ⟨St.fmtReserved, BitVec.ofNat 3 src, BitVec.ofNat 2 unit, o.pc, 0⟩, wait := none, hold := [], dma := [] } := by
    unfold kernelFault; rw [if_pos]; exact hf
  rw [hk]
  constructor
  · exact onlyCore_setCore s c _
  all_goals rw [getCore_setCore_self]
  · exact (Completes.of (setHold (getCore s c) u none) u _ _).mono rfl rfl
  all_goals rfl

/-- A core that may accept has met no fault. -/
theorem mayAccept_fault {k : CoreSt} (h : mayAccept k = true) : k.fault = none := by
  unfold mayAccept at h; simp at h; exact h.1.1.1.2

/-- What a passed dispatch check does. -/
theorem accepted {s : State} {c u : Nat} {o : HeldOp} {tiles : List Nat} {stage : OpStage} (r : RunOp) (h1 : r.op = o) (h2 : r.stage = stage) (h3 : r.tiles = tiles) (h4 : r.code = St.ok)
    (h5 : r.seen = (getCore s c).mem.spad) :
    Accepted s (setCore s c (setOps (setHold (getCore s c) u none) u (opsOf (setHold (getCore s c) u none) u ++ [r]))) c u o tiles stage := by
  constructor
  · exact onlyCore_setCore s c _
  all_goals rw [getCore_setCore_self]
  · rfl
  · intro v; show tget none (tset none _ _ _) v = _; rw [tget_tset]; rfl
  · refine ⟨r, h1, h2, h3, h4, h5, ?_⟩
    intro v; show tget [] (tset [] _ _ _) v = _; rw [tget_tset]; rfl

/-- A scratchpad write that does not wrap. -/
theorem spadWr_eq_wrN : ∀ (bs : List Byte) (m : List Host.Cell) (a : Nat), a + bs.length ≤ spadSize → spadWr m a bs = wrN m a bs
  | [], _, _, _ => rfl
  | b :: bs, m, a, h => by
    simp only [List.length_cons] at h
    simp only [spadWr, wrN]
    rw [Nat.mod_eq_of_lt (by omega), spadWr_eq_wrN bs _ _ (by omega)]

/-- The number that little-endian bytes spell. -/
theorem leNat_toLe : ∀ (n v : Nat), leNat (toLe n v) = v % 256 ^ n
  | 0, v => by simp [toLe, leNat, Nat.mod_one]
  | n + 1, v => by
    simp only [toLe, leNat, leNat_toLe n, pow_succ]
    rw [mul_comm (256 ^ n) 256, Nat.mod_mul]
    simp

/-- The operation that is ready is the one that waits. -/
theorem Ready.waiting {k : CoreSt} {u i : Nat} {r : RunOp} (hr : Ready k u i r) : waitingOp k u = some (i, r) := by
  have hfi : (opsOf k u).findIdx (fun r => decide (r.stage = .checked)) = i := by
    have hl := List.getElem?_eq_some_iff.mp hr.listed
    rw [List.findIdx_eq hl.1]
    refine ⟨by rw [hl.2]; simp [hr.stage], ?_⟩
    intro j hj
    have hlt := hl.1
    have := hr.first j hj _ (List.getElem?_eq_getElem (by omega))
    simp [this]
  unfold waitingOp
  dsimp only
  rw [hfi, hr.listed]; rfl

/-- The first element that satisfies a test. -/
theorem findIdx_first {α : Type} {l : List α} {p : α → Bool} {i : Nat} {r : α} (hl : l[i]? = some r) (hp : p r = true) (hf : ∀ j < i, ∀ x, l[j]? = some x → p x = false) : l.findIdx p = i := by
  have hl := List.getElem?_eq_some_iff.mp hl
  rw [List.findIdx_eq hl.1]
  refine ⟨by rw [hl.2, hp], ?_⟩
  intro j hj
  have hlt := hl.1
  exact hf j hj _ (List.getElem?_eq_getElem (by omega))

/-- A core whose retirement is not due stays. -/
theorem retireIfDue_not {s : State} {c : Nat} {k : CoreSt} (h : k.retireDue = false) : retireIfDue (setCore s c k) c = setCore s c k := by
  unfold retireIfDue
  rw [getCore_setCore_self, if_neg]
  rw [h]; simp

/-! ## Bytes that have changed since an operation began (R62, R111, R154) -/

theorem rd8_foldl_wr8_notin {a : Nat} : ∀ (l : List (Nat × Byte)) (m : List Host.Cell), (∀ p ∈ l, p.1 ≠ a) →
    rd8 (l.foldl (fun x p => wr8 x p.1 p.2) m) a = rd8 m a
  | [], _, _ => rfl
  | p :: l, m, h => by
    rw [List.foldl_cons, rd8_foldl_wr8_notin l _ fun q hq => h q (List.mem_cons_of_mem _ hq)]
    exact rd8_wr8_ne m p.2 (h p (List.mem_cons_self ..)).symm

/-- An unchanged scratchpad is read as it stands, and the counter of free values with it. -/
theorem racedView_same (s : State) (m : List Host.Cell) : racedView s m m = (m, s) := if_pos rfl

/-- How an operation reads a scratchpad that may have changed since it began. -/
theorem racedView_readAs (s : State) (seen m : List Host.Cell) : ReadAs seen m (racedView s seen m).1 := by
  intro a h
  unfold racedView
  split
  · rfl
  · refine rd8_foldl_wr8_notin _ _ fun p hp he => ?_
    have := List.of_mem_filter (List.of_mem_zip hp).1
    rw [he] at this
    exact of_decide_eq_true this h

/-- Of the state a read of that kind moves at most the counter of free values. -/
theorem racedView_free (s : State) (seen m : List Host.Cell) :
    (racedView s seen m).2 = { s with free := (racedView s seen m).2.free } := by
  unfold racedView
  split <;> rfl
end Sys2Proof.Machine
end

