-- ==== Sys2Proof/Laws/Dma.lean ====
section
/-!
SUPPORT. Translation by an ordinary range entry, and what a core DMA channel moves.
-/

namespace Sys2Proof.Machine

/-- An ordinary range entry translates to local memory and changes nothing. -/
theorem resolve_of {s : State} {lb : List LbEntry} {x : Nat} {va : BitVec 64} {need : Need} {l : LbEntry} {o : Nat} (h : MapsTo s lb x va need l o) (hall : Bool) (t : Nat) :
    resolve s x l va need hall t = (.target (.loc o) true, l, s) := by
  unfold resolve
  dsimp only
  rw [h.formed, h.permits, h.range.1, h.range.2.1, h.range.2.2, h.own, ← h.offset]
  rw [if_neg (by simp), if_neg (by simp), if_neg (by simp), if_neg (by simp), if_neg, if_pos rfl]
  have := h.inside
  rw [Nat.div_eq_of_lt this]; simp

/-- A translation that an ordinary entry of the RLB covers. -/
theorem rlbXlate_of {s : State} {c : Nat} {va : BitVec 64} {need : Need} {l : LbEntry} {o : Nat} (h : MapsTo s (getCore s c).rlb (getCore s c).ctx va need l o) (hall : Bool) :
    rlbXlate s c va need hall = some (.target (.loc o) true, modCore s c fun k => { k with rlb := lbTouch k.rlb l l }) := by
  unfold rlbXlate
  dsimp only
  rw [h.find]
  dsimp only
  rw [resolve_of h]

/-- Plain memory does not depend on a core. -/
theorem PlainLine.core {s : State} {x o : Nat} (h : PlainLine s x o) (c : Nat) (k : CoreSt) : PlainLine (setCore s c k) x o := h

theorem ex5 {w : Nat} (x : BitVec w) (hi lo : Nat) (h : lo ≤ hi) : bf x hi lo = (x.extractLsb' lo (hi + 1 - lo)).toNat := by
  simp [bf, BitVec.extractLsb'_toNat, Nat.shiftRight_eq_div_pow]

theorem toInt_ex {w : Nat} (x : BitVec w) (lo : Nat) : toInt 32 (bf x (lo + 31) lo) = (x.extractLsb' lo 32).toInt := by
  unfold toInt
  congr 1
  rw [ex5 _ _ _ (by omega), show lo + 31 + 1 - lo = 32 by omega]
  exact BitVec.eq_of_toNat_eq (by rw [BitVec.toNat_ofNat]; exact Nat.mod_eq_of_lt (BitVec.isLt _))

theorem dmaAddr_eq (b : BitVec 64) (zp yp : BitVec 32) (z y j : Nat) : dmaAddr b.toNat zp.toInt yp.toInt z y j = b + BitVec.ofNat 64 z * zp.signExtend 64 + BitVec.ofNat 64 y * yp.signExtend 64 + BitVec.ofNat 64 j := by
  unfold dmaAddr
  have hs : ∀ v : BitVec 32, BitVec.ofInt 64 v.toInt = v.signExtend 64 := fun v => rfl
  have hb : BitVec.ofInt 64 (b.toNat : Int) = b := by simp
  rw [BitVec.ofInt_add, BitVec.ofInt_add, BitVec.ofInt_add, BitVec.ofInt_mul, BitVec.ofInt_mul, hb, hs, hs]
  have hn : ∀ n : Nat, BitVec.ofInt 64 (n : Int) = BitVec.ofNat 64 n := fun n => by simp
  rw [hn, hn, hn]

/-- The source address of a byte. -/
theorem src_eq (h : DmaDesc) (z y b : Nat) : dmaAddr (dSrc h) (dSrcZp h) (dSrcYp h) z y b = dmaSource h z y b := by
  unfold dSrc dSrcZp dSrcYp dmaSource
  rw [toInt_ex h.raw 256, toInt_ex h.raw 192, ex5 _ _ _ (by omega)]
  exact dmaAddr_eq _ _ _ _ _ _
/-- The destination address of a byte. -/
theorem dst_eq (h : DmaDesc) (z y b : Nat) : dmaAddr (dDst h) (dDstZp h) (dDstYp h) z y b = dmaTarget h z y b := by
  unfold dDst dDstZp dDstYp dmaTarget
  rw [toInt_ex h.raw 288, toInt_ex h.raw 224, ex5 _ _ _ (by omega)]
  exact dmaAddr_eq _ _ _ _ _ _

theorem chunkOf_of {s : State} {c ch : Nat} {h : DmaDesc} {src dst : BitVec 64} {n : Nat} (m : MovesNext s c ch h src dst n) :
    chunkOf (chanAt (getCore s c) ch) h = (dst, src, n) := by
  unfold chunkOf
  dsimp only
  rw [src_eq, dst_eq, ← m.source, ← m.target, m.size]
  have : dXlen h = (h.raw.extractLsb' 128 32).toNat + 1 := by unfold dXlen; rw [ex5 _ _ _ (by omega)]
  rw [this]
  congr 2
theorem notMoved_of {s : State} {c ch : Nat} {h : DmaDesc} {src dst : BitVec 64} {n : Nat} (m : MovesNext s c ch h src dst n) :
    chanAllMoved (chanAt (getCore s c) ch) h = false := by
  unfold chanAllMoved
  have : dZcnt h = (h.raw.extractLsb' 176 16).toNat + 1 := by unfold dZcnt; rw [ex5 _ _ _ (by omega)]
  rw [this]
  exact decide_eq_false (by have := m.left; omega)

theorem head_cons {α : Type} {l : List α} {h : α} (e : l.head? = some h) : l = h :: l.tail := by
  cases l with
  | nil => simp at e
  | cons a l => simp at e; rw [e]; rfl

/-- The progress of a channel. -/
theorem chanStep_progress (h : DmaDesc) (d : DmaChan) (n : Nat) : ((chanStep d h n).plane, (chanStep d h n).row, (chanStep d h n).byte) = dmaProgress h d n ∧ (chanStep d h n).queue = d.queue ∧ (chanStep d h n).phase = d.phase := by
  unfold chanStep dmaProgress
  have h1 : dXlen h = (h.raw.extractLsb' 128 32).toNat + 1 := by unfold dXlen; rw [ex5 _ _ _ (by omega)]
  have h2 : dYcnt h = (h.raw.extractLsb' 160 16).toNat + 1 := by unfold dYcnt; rw [ex5 _ _ _ (by omega)]
  rw [h1, h2]
  split
  · exact ⟨rfl, rfl, rfl⟩
  · split <;> exact ⟨rfl, rfl, rfl⟩

/-- A channel that was written reads as written. -/
theorem chanAt_setChan (k : CoreSt) (ch e : Nat) (d : DmaChan) : chanAt (setChan k ch d) e = if e = ch then d else chanAt k e := by
  unfold chanAt setChan; dsimp only; rw [tget_tset]

/-- Bytes of a scratchpad write that does not wrap. -/
theorem rd8_spadWr_in (m : List Host.Cell) (a j : Nat) (bs : List Byte) (h : a + bs.length ≤ spadSize) (hj : j < bs.length) : rd8 (spadWr m a bs) (a + j) = bs[j] := by
  rw [spadWr_eq_wrN _ _ _ h, rd8_wrN_in _ _ _ _ hj]
theorem rd8_spadWr_out (m : List Host.Cell) (a x : Nat) (bs : List Byte) (h : a + bs.length ≤ spadSize) (hx : x < a ∨ a + bs.length ≤ x) : rd8 (spadWr m a bs) x = rd8 m x := by
  rw [spadWr_eq_wrN _ _ _ h, rd8_wrN_out _ _ _ hx]

theorem line_room (dst n : Nat) (h : n ≤ 64 - dst % 64) : dst % spadSize + n ≤ spadSize ∧ ∀ j < n, (dst + j) % spadSize = dst % spadSize + j := by
  unfold spadSize
  constructor
  · omega
  · intro j hj; omega

/-- The last part of every move. -/
theorem spad_write {s1 : State} {c : Nat} {dst : BitVec 64} {n : Nat} {bs : List Byte} (hb : bs.length = n) (hn : n ≤ 64 - dst.toNat % 64) (f : CoreSt → CoreSt)
    (hf : ∀ k, (f k).mem = k.mem) :
    (∀ j (hj : j < n), rd8 (getCore (modCore (modCore s1 c fun k => { k with mem := { k.mem with spad := spadWr k.mem.spad (dst.toNat % spadSize) bs } }) c f) c).mem.spad ((dst.toNat + j) % 4194304) = bs[j]'(by omega)) ∧
    (∀ a < 4194304, (∀ j < n, a ≠ (dst.toNat + j) % 4194304) → rd8 (getCore (modCore (modCore s1 c fun k => { k with mem := { k.mem with spad := spadWr k.mem.spad (dst.toNat % spadSize) bs } }) c f) c).mem.spad a = rd8 (getCore s1 c).mem.spad a) := by
  obtain ⟨r1, r2⟩ := line_room dst.toNat n hn
  rw [getCore_modCore_self, hf, getCore_modCore_self]
  dsimp only
  constructor
  · intro j hj
    rw [show (4194304 : Nat) = spadSize from rfl, r2 j hj, rd8_spadWr_in _ _ _ _ (by omega) (by omega)]
  · intro a ha hne
    apply rd8_spadWr_out _ _ _ _ (by omega)
    by_contra hc
    have := hne (a - dst.toNat % spadSize) (by omega)
    rw [show (4194304 : Nat) = spadSize from rfl, r2 _ (by omega)] at this
    omega

/-- DMA_LINE_COMPLETE with its addresses translated. -/
theorem line_exec {s : State} {c : Core} {ch : Fin 4} {h : DmaDesc} {src dst : BitVec 64} {n : Nat} (m : MovesNext s c.val ch.val h src dst n) (r : Reply)
    (hd : (isDirect (getCore s c.val) && decide (chunkAddrs (chanAt (getCore s c.val) ch.val) h ≠ [])) = false) {ts : List (Target × Bool)} {s1 : State} (hx : xlateList c.val (chunkAddrs (chanAt (getCore s c.val) ch.val) h) s [] = (.all ts, s1))
    (hh : chunkHeld s1 c.val ts = false) : exec (.dmaLineComplete c ch r) s = .next (moveChunk s1 c.val ch (chanAt (getCore s c.val) ch.val) h ts r) := by
  show execDmaLineComplete c ch r s = _
  unfold execDmaLineComplete
  dsimp only
  rw [head_cons m.has.head]
  dsimp only
  rw [if_neg, hd, if_neg (by simp)]
  · have : chanXlate s c.val ch.val = (.all ts, s1) := by
      unfold chanXlate
      dsimp only
      have ha : chanAddrs (chanAt (getCore s c.val) ch.val) = chunkAddrs (chanAt (getCore s c.val) ch.val) h := by
        unfold chanAddrs
        rw [head_cons m.has.head]
        dsimp only
        rw [m.moving]
        dsimp only
        rw [notMoved_of m, if_neg (by simp)]
      rw [m.translated.1, m.translated.2, ha]
      dsimp only
      rw [hx]
    rw [this]
    dsimp only
    rw [hh, if_neg (by simp)]
  · have := m.room
    rw [m.has.runs, m.moving, notMoved_of m]
    simp
    omega

theorem moved_of {s s2 : State} {c ch : Nat} {h : DmaDesc} {src dst : BitVec 64} {n : Nat} (m : MovesNext s c ch h src dst n) (hdma : chanAt (getCore s2 c) ch = chanAt (getCore s c) ch)
   (hr : (getCore s2 c).regs = (getCore s c).regs) (hc : (getCore s2 c).cr = (getCore s c).cr) :
   Moved s (modCore s2 c fun k => setChan k ch (chanStep { chanAt k ch with xs := .miss, xw := .miss } h n)) c ch h n := by
  unfold Moved
  rw [getCore_modCore_self, chanAt_setChan, if_pos rfl, hdma]
  have := chanStep_progress h { chanAt (getCore s c) ch with xs := .miss, xw := .miss } n
  exact ⟨this.1, this.2.1, this.2.2.trans m.moving, hr, hc⟩

/-- A write of plain, non-cacheable memory through the RLC path puts its bytes at the home. -/
theorem homeWriteFrom_plain {s : State} {x o : Nat} (h : PlainLine s x o) {t : Nat} (hd : dieCode s t (homeTower s o) = St.ok) (user : RemUser)
    (bs : List Byte) (hb : o % 64 + bs.length ≤ 64) :
    ∃ s2, homeWriteFrom s t user (keyOf (gaOf s o)) x true (gaOf s o % 64) bs = (St.ok, s2) ∧ s2.mem = wrN s.mem o bs ∧ s2.cores = s.cores := by
  unfold homeWriteFrom
  rw [show keyOf (gaOf s o) = lineKey s o from lineKey_of_ga s h.lt, keyHere_lineKey s h.lt, if_pos rfl, lineKey_mod s h.lt, gaOf_mod, show o / 64 * 64 + o % 64 = o by omega]
  unfold hereWrite
  rw [h.hereCheck hd, if_neg (by simp), h.recall]
  by_cases hl : bs.length < 64
  · rw [h.write bs hl]; exact ⟨_, rfl, rfl, rfl⟩
  · rw [h.writeLine (by omega) bs (by omega)]; exact ⟨_, rfl, rfl, rfl⟩

end Sys2Proof.Machine
end

