-- ==== Sys2Proof/Laws/Hub.lean ====
section
/-!
SUPPORT. Accesses to memory, by the hub and at its homes, and the records that they make change only the memory side of the package.
-/

namespace Sys2Proof.Machine

theorem MemorySide.refl (s : State) : MemorySide s s := rfl

theorem MemorySide.trans {a s t : State} (h : MemorySide a s) (g : MemorySide s t) : MemorySide a t := by
  unfold MemorySide at *
  rw [g, h]

theorem MemorySide.rest {a s : State} {free : Nat} {ctxs : Tab Ctx} {lateEv : List (Nat × List Byte)} {mem : List Host.Cell} {lost : Tab (Option Lost)} {restored : List Nat} {hlb : List LbEntry} {hubX : List (Nat × BitVec 64 × XSt)} {migr : List Migr} {towers : Tab TowerSt} {span : SpanSt} {host : HostSt} (h : MemorySide a s) :
    MemorySide a (State.mk s.now free s.cores s.queues ctxs s.lastPop s.gangs s.nextGang s.schEpoch s.schCfg s.pools s.poolEpoch s.epochDue lateEv mem lost restored s.owner s.ownCmd s.ownAt hlb hubX migr s.hbm s.memcfg towers s.flush s.mortar s.lintel span s.plumb host s.power s.rst s.store s.key s.pins s.pending) := by
  unfold MemorySide at *
  rw [h]

theorem setCtx_side {a s : State} (h : MemorySide a s) {x : Nat} {k : Ctx} : MemorySide a (setCtx s x k) := h.rest
theorem setTower_side {a s : State} (h : MemorySide a s) {x : Nat} {k : TowerSt} : MemorySide a (setTower s x k) := h.rest
theorem withMem_side {a s : State} (h : MemorySide a s) {k : List Host.Cell} : MemorySide a (withMem s k) := h.rest
theorem withSpan_side {a s : State} (h : MemorySide a s) {k : SpanSt} : MemorySide a (withSpan s k) := h.rest
theorem withHost_side {a s : State} (h : MemorySide a s) {k : HostSt} : MemorySide a (withHost s k) := h.rest

theorem ite_side {a s t : State} {c : Prop} [Decidable c] (h : MemorySide a s) (g : MemorySide a t) : MemorySide a (if c then s else t) := by
  split
  · exact h
  · exact g

theorem forEach_side {α : Type} {f : State → α → State} {l : List α} {a s : State} (h : MemorySide a s)
    (hf : ∀ s x, MemorySide a s → MemorySide a (f s x)) : MemorySide a (forEach s l f) := by
  induction l generalizing s with
  | nil => exact h
  | cons x l ih => exact ih (hf s x h)

theorem foldl_side {β : Type} {l : List β} {f : State → β → State} {a s : State} (h : MemorySide a s)
    (hf : ∀ s x, MemorySide a s → MemorySide a (f s x)) : MemorySide a (l.foldl f s) := by
  induction l generalizing s with
  | nil => exact h
  | cons x l ih => exact ih (hf s x h)

theorem modCtx_side {a₀ : State} {s : State} {x : ℕ} {f : Ctx → Ctx} (hk : MemorySide a₀ s) : MemorySide a₀ (modCtx s x f) := by
  unfold modCtx
  repeat' (first | (with_reducible (first | (assumption) | (apply setCtx_side) | (refine ite_side ?_ ?_) | split | (intro _) | (dsimp only))) | (apply MemorySide.rest; with_reducible (first | (assumption) | (apply setCtx_side))))

theorem modTower_side {a₀ : State} {s : State} {t : ℕ} {f : TowerSt → TowerSt} (hk : MemorySide a₀ s) : MemorySide a₀ (modTower s t f) := by
  unfold modTower
  repeat' (first | (with_reducible (first | (assumption) | (apply setTower_side) | (refine ite_side ?_ ?_) | split | (intro _) | (dsimp only))) | (apply MemorySide.rest; with_reducible (first | (assumption) | (apply setTower_side))))

theorem freshBits_side {a₀ : State} {s : State} {w : ℕ} (hk : MemorySide a₀ s) : MemorySide a₀ (freshBits s w).2 := by
  unfold freshBits
  repeat' (first | (with_reducible (first | (assumption) | (refine ite_side ?_ ?_) | split | (intro _) | (dsimp only))) | (apply MemorySide.rest; with_reducible (first | (assumption))))

theorem freshBits_side_of {a₀ z : State} {s : State} {w : ℕ} {y0 : BitVec w} (he : freshBits s w = (y0, z)) (hk : MemorySide a₀ s) : MemorySide a₀ z := by
  have := freshBits_side (s := s) (w := w) hk
  rwa [he] at this

theorem freshBytes_side {a₀ : State} {s : State} {n : ℕ} (hk : MemorySide a₀ s) : MemorySide a₀ (freshBytes s n).2 := by
  unfold freshBytes
  repeat' (first | (with_reducible (first | (assumption) | (refine ite_side ?_ ?_) | split | (intro _) | (dsimp only))) | (apply MemorySide.rest; with_reducible (first | (assumption))))

theorem freshBytes_side_of {a₀ z : State} {s : State} {n : ℕ} {y0 : List Byte} (he : freshBytes s n = (y0, z)) (hk : MemorySide a₀ s) : MemorySide a₀ z := by
  have := freshBytes_side (s := s) (n := n) hk
  rwa [he] at this

theorem sendMsg_side {a₀ : State} {s : State} {v : ℕ} {e : BitVec 128} (hk : MemorySide a₀ s) : MemorySide a₀ (sendMsg s v e) := by
  unfold sendMsg
  repeat' (first | (with_reducible (first | (assumption) | (apply withHost_side) | (refine ite_side ?_ ?_) | split | (intro _) | (dsimp only))) | (apply MemorySide.rest; with_reducible (first | (assumption) | (apply withHost_side))))

theorem interrupt_side {a₀ : State} {s : State} {v : ℕ} (hk : MemorySide a₀ s) : MemorySide a₀ (interrupt s v) := by
  unfold interrupt
  repeat' (first | (with_reducible (first | (assumption) | (apply sendMsg_side) | (apply withHost_side) | (refine ite_side ?_ ?_) | split | (intro _) | (dsimp only))) | (apply MemorySide.rest; with_reducible (first | (assumption) | (apply sendMsg_side) | (apply withHost_side))))

theorem clearMarker_side {a₀ : State} {s : State} {x : ℕ} (hk : MemorySide a₀ s) : MemorySide a₀ (clearMarker s x) := by
  exact hk.rest

theorem homeLeave_side {a₀ : State} {s : State} {v : QLine} (hk : MemorySide a₀ s) : MemorySide a₀ (homeLeave s v) := by
  unfold homeLeave
  repeat' (first | (with_reducible (first | (assumption) | (apply clearMarker_side) | (apply withMem_side) | (refine ite_side ?_ ?_) | split | (intro _) | (dsimp only))) | (apply MemorySide.rest; with_reducible (first | (assumption) | (apply clearMarker_side) | (apply withMem_side))))

theorem homePlace_side {a₀ : State} {s : State} {x : ℕ} {l : QLine} (hk : MemorySide a₀ s) : MemorySide a₀ (homePlace s x l) := by
  unfold homePlace
  repeat' (first | (with_reducible (first | (assumption) | (apply homeLeave_side) | (apply setTower_side) | (refine ite_side ?_ ?_) | split | (intro _) | (dsimp only))) | (apply MemorySide.rest; with_reducible (first | (assumption) | (apply homeLeave_side) | (apply setTower_side))))

theorem homeLine_side {a₀ : State} {s : State} {ctx : ℕ} {x : ℕ} {nc : Bool} (hk : MemorySide a₀ s) : MemorySide a₀ (homeLine s ctx x nc).2.2 := by
  unfold homeLine
  repeat' (first | (with_reducible (first | (assumption) | (apply homePlace_side) | (refine ite_side ?_ ?_) | split | (intro _) | (dsimp only))) | (apply MemorySide.rest; with_reducible (first | (assumption) | (apply homePlace_side))) | (with_reducible (first | (injections; subst_vars) | (rename_i heq; revert heq; split <;> (intro heq; first | (cases heq) | skip)))))

theorem homeLine_side_of {a₀ z : State} {s : State} {ctx : ℕ} {x : ℕ} {nc : Bool} {y0 : Code} {y1 : List Byte} (he : homeLine s ctx x nc = (y0, y1, z)) (hk : MemorySide a₀ s) : MemorySide a₀ z := by
  have := homeLine_side (s := s) (ctx := ctx) (x := x) (nc := nc) hk
  rwa [he] at this

theorem homeRead_side {a₀ : State} {s : State} {sys : Bool} {ctx : ℕ} {x : ℕ} {n : ℕ} {nc : Bool} (hk : MemorySide a₀ s) : MemorySide a₀ (homeRead s sys ctx x n nc).2.2 := by
  unfold homeRead
  repeat' (first | (with_reducible (first | (assumption) | (apply homeLine_side) | (refine homeLine_side_of (by assumption) ?_) | (refine ite_side ?_ ?_) | split | (intro _) | (dsimp only))) | (apply MemorySide.rest; with_reducible (first | (assumption) | (apply homeLine_side) | (refine homeLine_side_of (by assumption) ?_))))

theorem homeRead_side_of {a₀ z : State} {s : State} {sys : Bool} {ctx : ℕ} {x : ℕ} {n : ℕ} {nc : Bool} {y0 : Code} {y1 : List Byte} (he : homeRead s sys ctx x n nc = (y0, y1, z)) (hk : MemorySide a₀ s) : MemorySide a₀ z := by
  have := homeRead_side (s := s) (sys := sys) (ctx := ctx) (x := x) (n := n) (nc := nc) hk
  rwa [he] at this

theorem homeUpdate_side {a₀ : State} {s : State} {ctx : ℕ} {x : ℕ} {bs : List Byte} {whole : Bool} {nc : Bool} (hk : MemorySide a₀ s) : MemorySide a₀ (homeUpdate s ctx x bs whole nc) := by
  unfold homeUpdate
  repeat' (first | (with_reducible (first | (assumption) | (apply homePlace_side) | (refine ite_side ?_ ?_) | split | (intro _) | (dsimp only))) | (apply MemorySide.rest; with_reducible (first | (assumption) | (apply homePlace_side))))

theorem homeWrite_side {a₀ : State} {s : State} {sys : Bool} {ctx : ℕ} {x : ℕ} {bs : List Byte} {nc : Bool} (hk : MemorySide a₀ s) : MemorySide a₀ (homeWrite s sys ctx x bs nc).2 := by
  unfold homeWrite
  repeat' (first | (with_reducible (first | (assumption) | (apply clearMarker_side) | (apply withMem_side) | (apply homeUpdate_side) | (refine ite_side ?_ ?_) | split | (intro _) | (dsimp only))) | (apply MemorySide.rest; with_reducible (first | (assumption) | (apply clearMarker_side) | (apply withMem_side) | (apply homeUpdate_side))))

theorem homeWrite_side_of {a₀ z : State} {s : State} {sys : Bool} {ctx : ℕ} {x : ℕ} {bs : List Byte} {nc : Bool} {y0 : Code} (he : homeWrite s sys ctx x bs nc = (y0, z)) (hk : MemorySide a₀ s) : MemorySide a₀ z := by
  have := homeWrite_side (s := s) (sys := sys) (ctx := ctx) (x := x) (bs := bs) (nc := nc) hk
  rwa [he] at this

theorem homeAtomic_side {a₀ : State} {s : State} {sys : Bool} {ctx : ℕ} {x : ℕ} {n : ℕ} {func : ℕ} {b : ℕ} {c : ℕ} {nc : Bool} (hk : MemorySide a₀ s) : MemorySide a₀ (homeAtomic s sys ctx x n func b c nc).2.2 := by
  unfold homeAtomic
  repeat' (first | (with_reducible (first | (assumption) | (apply homeRead_side) | (refine homeRead_side_of (by assumption) ?_) | (apply homeWrite_side) | (refine homeWrite_side_of (by assumption) ?_) | (refine ite_side ?_ ?_) | split | (intro _) | (dsimp only))) | (apply MemorySide.rest; with_reducible (first | (assumption) | (apply homeRead_side) | (refine homeRead_side_of (by assumption) ?_) | (apply homeWrite_side) | (refine homeWrite_side_of (by assumption) ?_))))

theorem homeAtomic_side_of {a₀ z : State} {s : State} {sys : Bool} {ctx : ℕ} {x : ℕ} {n : ℕ} {func : ℕ} {b : ℕ} {c : ℕ} {nc : Bool} {y0 : Code} {y1 : ℕ} (he : homeAtomic s sys ctx x n func b c nc = (y0, y1, z)) (hk : MemorySide a₀ s) : MemorySide a₀ z := by
  have := homeAtomic_side (s := s) (sys := sys) (ctx := ctx) (x := x) (n := n) (func := func) (b := b) (c := c) (nc := nc) hk
  rwa [he] at this

theorem xfault_side {a₀ : State} {s : State} {x : ℕ} {code : Code} {cause : ℕ} {need : Need} {src : ℕ} {core : ℕ} {va : BitVec 64} (hk : MemorySide a₀ s) : MemorySide a₀ (xfault s x code cause need src core va) := by
  unfold xfault
  repeat' (first | (with_reducible (first | (assumption) | (apply modCtx_side) | (refine ite_side ?_ ?_) | split | (intro _) | (dsimp only))) | (apply MemorySide.rest; with_reducible (first | (assumption) | (apply modCtx_side))))

theorem remoteSend_side {a₀ : State} {s : State} {user : RemUser} {op : BitVec 8} {ga : ℕ} {ctx : ℕ} {n : ℕ} {func : ℕ} {asz : Bool} {data : List Byte} (hk : MemorySide a₀ s) : MemorySide a₀ (remoteSend s user op ga ctx n func asz data) := by
  unfold remoteSend
  repeat' (first | (with_reducible (first | (assumption) | (apply withSpan_side) | (refine ite_side ?_ ?_) | split | (intro _) | (dsimp only))) | (apply MemorySide.rest; with_reducible (first | (assumption) | (apply withSpan_side))))

theorem remoteAsk_side {a₀ : State} {s : State} {op : BitVec 8} {ga : ℕ} {ctx : ℕ} {n : ℕ} {func : ℕ} {asz : Bool} {data : List Byte} (hk : MemorySide a₀ s) : MemorySide a₀ (remoteAsk s op ga ctx n func asz data) := by
  unfold remoteAsk
  repeat' (first | (with_reducible (first | (assumption) | (apply withSpan_side) | (refine ite_side ?_ ?_) | split | (intro _) | (dsimp only))) | (apply MemorySide.rest; with_reducible (first | (assumption) | (apply withSpan_side))))

theorem outSend_side {a₀ : State} {s : State} {user : RemUser} {ctx : ℕ} {addr : ℕ} {write : Option (List Byte)} {n : ℕ} (hk : MemorySide a₀ s) : MemorySide a₀ (outSend s user ctx addr write n) := by
  unfold outSend
  repeat' (first | (with_reducible (first | (assumption) | (apply withHost_side) | (refine ite_side ?_ ?_) | split | (intro _) | (dsimp only))) | (apply MemorySide.rest; with_reducible (first | (assumption) | (apply withHost_side))))

theorem freeAnswer_side {a₀ : State} {s : State} {fail : Code → Code} {n : ℕ} (hk : MemorySide a₀ s) : MemorySide a₀ (freeAnswer s fail n).2.2 := by
  unfold freeAnswer
  repeat' (first | (with_reducible (first | (assumption) | (apply freshBits_side) | (refine freshBits_side_of (by assumption) ?_) | (apply freshBytes_side) | (refine freshBytes_side_of (by assumption) ?_) | (refine ite_side ?_ ?_) | split | (intro _) | (dsimp only))) | (apply MemorySide.rest; with_reducible (first | (assumption) | (apply freshBits_side) | (refine freshBits_side_of (by assumption) ?_) | (apply freshBytes_side) | (refine freshBytes_side_of (by assumption) ?_))))

theorem freeAnswer_side_of {a₀ z : State} {s : State} {fail : Code → Code} {n : ℕ} {y0 : Code} {y1 : List Byte} (he : freeAnswer s fail n = (y0, y1, z)) (hk : MemorySide a₀ s) : MemorySide a₀ z := by
  have := freeAnswer_side (s := s) (fail := fail) (n := n) hk
  rwa [he] at this

theorem spanAnswer_side {a₀ : State} {s : State} {ga : ℕ} {r : Reply} {skip : ℕ} {n : ℕ} (hk : MemorySide a₀ s) : MemorySide a₀ (spanAnswer s ga r skip n).2.2 := by
  unfold spanAnswer
  repeat' (first | (with_reducible (first | (assumption) | (apply freeAnswer_side) | (refine freeAnswer_side_of (by assumption) ?_) | (refine ite_side ?_ ?_) | split | (intro _) | (dsimp only))) | (apply MemorySide.rest; with_reducible (first | (assumption) | (apply freeAnswer_side) | (refine freeAnswer_side_of (by assumption) ?_))))

theorem spanAnswer_side_of {a₀ z : State} {s : State} {ga : ℕ} {r : Reply} {skip : ℕ} {n : ℕ} {y0 : Code} {y1 : List Byte} (he : spanAnswer s ga r skip n = (y0, y1, z)) (hk : MemorySide a₀ s) : MemorySide a₀ z := by
  have := spanAnswer_side (s := s) (ga := ga) (r := r) (skip := skip) (n := n) hk
  rwa [he] at this

theorem busAnswer_side {a₀ : State} {s : State} {r : Reply} {skip : ℕ} {n : ℕ} (hk : MemorySide a₀ s) : MemorySide a₀ (busAnswer s r skip n).2.2 := by
  unfold busAnswer
  repeat' (first | (with_reducible (first | (assumption) | (apply freeAnswer_side) | (refine freeAnswer_side_of (by assumption) ?_) | (refine ite_side ?_ ?_) | split | (intro _) | (dsimp only))) | (apply MemorySide.rest; with_reducible (first | (assumption) | (apply freeAnswer_side) | (refine freeAnswer_side_of (by assumption) ?_))))

theorem busAnswer_side_of {a₀ z : State} {s : State} {r : Reply} {skip : ℕ} {n : ℕ} {y0 : Code} {y1 : List Byte} (he : busAnswer s r skip n = (y0, y1, z)) (hk : MemorySide a₀ s) : MemorySide a₀ z := by
  have := busAnswer_side (s := s) (r := r) (skip := skip) (n := n) hk
  rwa [he] at this

theorem writeBack_side {a₀ : State} {s : State} {l : RlcLine} (hk : MemorySide a₀ s) : MemorySide a₀ (writeBack s l) := by
  unfold writeBack
  repeat' (first | (with_reducible (first | (assumption) | (apply homeWrite_side) | (refine homeWrite_side_of (by assumption) ?_) | (apply remoteSend_side) | (refine ite_side ?_ ?_) | split | (intro _) | (dsimp only))) | (apply MemorySide.rest; with_reducible (first | (assumption) | (apply homeWrite_side) | (refine homeWrite_side_of (by assumption) ?_) | (apply remoteSend_side))))

theorem intakeFull_side {a₀ : State} {s : State} (hk : MemorySide a₀ s) : MemorySide a₀ (intakeFull s).2 := by
  unfold intakeFull
  repeat' (first | (with_reducible (first | (assumption) | (apply freshBits_side) | (refine freshBits_side_of (by assumption) ?_) | (refine ite_side ?_ ?_) | split | (intro _) | (dsimp only))) | (apply MemorySide.rest; with_reducible (first | (assumption) | (apply freshBits_side) | (refine freshBits_side_of (by assumption) ?_))))

theorem intakeFull_side_of {a₀ z : State} {s : State} {y0 : Bool} (he : intakeFull s = (y0, z)) (hk : MemorySide a₀ s) : MemorySide a₀ z := by
  have := intakeFull_side (s := s) hk
  rwa [he] at this

theorem offerVictim_side {a₀ : State} {s : State} {t : ℕ} {l : RlcLine} (hk : MemorySide a₀ s) : MemorySide a₀ (offerVictim s t l) := by
  unfold offerVictim
  repeat' (first | (with_reducible (first | (assumption) | (apply intakeFull_side) | (refine intakeFull_side_of (by assumption) ?_) | (apply setTower_side) | (refine ite_side ?_ ?_) | split | (intro _) | (dsimp only))) | (apply MemorySide.rest; with_reducible (first | (assumption) | (apply intakeFull_side) | (refine intakeFull_side_of (by assumption) ?_) | (apply setTower_side))))

theorem rlcEvicted_side {a₀ : State} {s : State} {t : ℕ} {l : RlcLine} (hk : MemorySide a₀ s) : MemorySide a₀ (rlcEvicted s t l) := by
  unfold rlcEvicted
  repeat' (first | (with_reducible (first | (assumption) | (apply intakeFull_side) | (refine intakeFull_side_of (by assumption) ?_) | (apply writeBack_side) | (apply homePlace_side) | (apply offerVictim_side) | (refine ite_side ?_ ?_) | split | (intro _) | (dsimp only))) | (apply MemorySide.rest; with_reducible (first | (assumption) | (apply intakeFull_side) | (refine intakeFull_side_of (by assumption) ?_) | (apply writeBack_side) | (apply homePlace_side) | (apply offerVictim_side))))

theorem rlcPut_side {a₀ : State} {s : State} {t : ℕ} {rest : List RlcLine} {l : RlcLine} {lru : Bool} (hk : MemorySide a₀ s) : MemorySide a₀ (rlcPut s t rest l lru) := by
  unfold rlcPut
  repeat' (first | (with_reducible (first | (assumption) | (apply modTower_side) | (refine ite_side ?_ ?_) | split | (intro _) | (dsimp only))) | (apply MemorySide.rest; with_reducible (first | (assumption) | (apply modTower_side))))

theorem rlcInstall_side {a₀ : State} {s : State} {t : ℕ} {l : RlcLine} {lru : Bool} (hk : MemorySide a₀ s) : MemorySide a₀ (rlcInstall s t l lru) := by
  unfold rlcInstall
  repeat' (first | (with_reducible (first | (assumption) | (apply rlcEvicted_side) | (apply rlcPut_side) | (refine ite_side ?_ ?_) | split | (intro _) | (dsimp only))) | (apply MemorySide.rest; with_reducible (first | (assumption) | (apply rlcEvicted_side) | (apply rlcPut_side))))

theorem recallLine_side {a₀ : State} {s : State} {key : BitVec 64} {write : Bool} {keep : ℕ} (hk : MemorySide a₀ s) : MemorySide a₀ (recallLine s key write keep) := by
  unfold recallLine
  repeat' (first | (with_reducible (first | (assumption) | (apply setTower_side) | (apply writeBack_side) | (refine forEach_side ?_ ?_) | (refine ite_side ?_ ?_) | split | (intro _) | (dsimp only))) | (apply MemorySide.rest; with_reducible (first | (assumption) | (apply setTower_side) | (apply writeBack_side) | (refine forEach_side ?_ ?_))))

theorem hereRead_side {a₀ : State} {s : State} {d : ℕ} {sys : Bool} {ctx : ℕ} {x : ℕ} {n : ℕ} {nc : Bool} (hk : MemorySide a₀ s) : MemorySide a₀ (hereRead s d sys ctx x n nc).2.2 := by
  unfold hereRead
  repeat' (first | (with_reducible (first | (assumption) | (apply recallLine_side) | (apply homeRead_side) | (refine homeRead_side_of (by assumption) ?_) | (refine ite_side ?_ ?_) | split | (intro _) | (dsimp only))) | (apply MemorySide.rest; with_reducible (first | (assumption) | (apply recallLine_side) | (apply homeRead_side) | (refine homeRead_side_of (by assumption) ?_))))

theorem hereRead_side_of {a₀ z : State} {s : State} {d : ℕ} {sys : Bool} {ctx : ℕ} {x : ℕ} {n : ℕ} {nc : Bool} {y0 : Code} {y1 : List Byte} (he : hereRead s d sys ctx x n nc = (y0, y1, z)) (hk : MemorySide a₀ s) : MemorySide a₀ z := by
  have := hereRead_side (s := s) (d := d) (sys := sys) (ctx := ctx) (x := x) (n := n) (nc := nc) hk
  rwa [he] at this

theorem hereWrite_side {a₀ : State} {s : State} {d : ℕ} {sys : Bool} {ctx : ℕ} {x : ℕ} {bs : List Byte} {nc : Bool} (hk : MemorySide a₀ s) : MemorySide a₀ (hereWrite s d sys ctx x bs nc).2 := by
  unfold hereWrite
  repeat' (first | (with_reducible (first | (assumption) | (apply recallLine_side) | (apply homeWrite_side) | (refine homeWrite_side_of (by assumption) ?_) | (refine ite_side ?_ ?_) | split | (intro _) | (dsimp only))) | (apply MemorySide.rest; with_reducible (first | (assumption) | (apply recallLine_side) | (apply homeWrite_side) | (refine homeWrite_side_of (by assumption) ?_))))

theorem hereWrite_side_of {a₀ z : State} {s : State} {d : ℕ} {sys : Bool} {ctx : ℕ} {x : ℕ} {bs : List Byte} {nc : Bool} {y0 : Code} (he : hereWrite s d sys ctx x bs nc = (y0, z)) (hk : MemorySide a₀ s) : MemorySide a₀ z := by
  have := hereWrite_side (s := s) (d := d) (sys := sys) (ctx := ctx) (x := x) (bs := bs) (nc := nc) hk
  rwa [he] at this

theorem hereAtomic_side {a₀ : State} {s : State} {d : ℕ} {ctx : ℕ} {x : ℕ} {n : ℕ} {func : ℕ} {b : ℕ} {c : ℕ} {nc : Bool} (hk : MemorySide a₀ s) : MemorySide a₀ (hereAtomic s d ctx x n func b c nc).2.2 := by
  unfold hereAtomic
  repeat' (first | (with_reducible (first | (assumption) | (apply recallLine_side) | (apply homeAtomic_side) | (refine homeAtomic_side_of (by assumption) ?_) | (refine ite_side ?_ ?_) | split | (intro _) | (dsimp only))) | (apply MemorySide.rest; with_reducible (first | (assumption) | (apply recallLine_side) | (apply homeAtomic_side) | (refine homeAtomic_side_of (by assumption) ?_))))

theorem hereAtomic_side_of {a₀ z : State} {s : State} {d : ℕ} {ctx : ℕ} {x : ℕ} {n : ℕ} {func : ℕ} {b : ℕ} {c : ℕ} {nc : Bool} {y0 : Code} {y1 : ℕ} (he : hereAtomic s d ctx x n func b c nc = (y0, y1, z)) (hk : MemorySide a₀ s) : MemorySide a₀ z := by
  have := hereAtomic_side (s := s) (d := d) (ctx := ctx) (x := x) (n := n) (func := func) (b := b) (c := c) (nc := nc) hk
  rwa [he] at this

theorem fetchHere_side {a₀ : State} {s : State} {t : ℕ} {ctx : ℕ} {x : ℕ} {nc : Bool} (hk : MemorySide a₀ s) : MemorySide a₀ (fetchHere s t ctx x nc).2.2 := by
  unfold fetchHere
  repeat' (first | (with_reducible (first | (assumption) | (apply hereRead_side) | (refine hereRead_side_of (by assumption) ?_) | (refine ite_side ?_ ?_) | split | (intro _) | (dsimp only))) | (apply MemorySide.rest; with_reducible (first | (assumption) | (apply hereRead_side) | (refine hereRead_side_of (by assumption) ?_))))

theorem fetchHere_side_of {a₀ z : State} {s : State} {t : ℕ} {ctx : ℕ} {x : ℕ} {nc : Bool} {y0 : Code} {y1 : List Byte} (he : fetchHere s t ctx x nc = (y0, y1, z)) (hk : MemorySide a₀ s) : MemorySide a₀ z := by
  have := fetchHere_side (s := s) (t := t) (ctx := ctx) (x := x) (nc := nc) hk
  rwa [he] at this

theorem remoteMode_side {a₀ : State} {s : State} {ctx : ℕ} (hk : MemorySide a₀ s) : MemorySide a₀ (remoteMode s ctx).2 := by
  unfold remoteMode
  repeat' (first | (with_reducible (first | (assumption) | (apply freshBits_side) | (refine freshBits_side_of (by assumption) ?_) | (refine ite_side ?_ ?_) | split | (intro _) | (dsimp only))) | (apply MemorySide.rest; with_reducible (first | (assumption) | (apply freshBits_side) | (refine freshBits_side_of (by assumption) ?_))))

theorem remoteMode_side_of {a₀ z : State} {s : State} {ctx : ℕ} {y0 : BitVec 16} (he : remoteMode s ctx = (y0, z)) (hk : MemorySide a₀ s) : MemorySide a₀ z := by
  have := remoteMode_side (s := s) (ctx := ctx) hk
  rwa [he] at this

theorem fetchRemote_side {a₀ : State} {s : State} {key : BitVec 64} {ctx : ℕ} {ext : Option (BitVec 512)} (hk : MemorySide a₀ s) : MemorySide a₀ (fetchRemote s key ctx ext).2.2 := by
  unfold fetchRemote
  repeat' (first | (with_reducible (first | (assumption) | (apply remoteAsk_side) | (apply spanAnswer_side) | (refine spanAnswer_side_of (by assumption) ?_) | (refine ite_side ?_ ?_) | split | (intro _) | (dsimp only))) | (apply MemorySide.rest; with_reducible (first | (assumption) | (apply remoteAsk_side) | (apply spanAnswer_side) | (refine spanAnswer_side_of (by assumption) ?_))))

theorem fetchRemote_side_of {a₀ z : State} {s : State} {key : BitVec 64} {ctx : ℕ} {ext : Option (BitVec 512)} {y0 : Code} {y1 : List Byte} (he : fetchRemote s key ctx ext = (y0, y1, z)) (hk : MemorySide a₀ s) : MemorySide a₀ z := by
  have := fetchRemote_side (s := s) (key := key) (ctx := ctx) (ext := ext) hk
  rwa [he] at this

theorem rlcFill_side {a₀ : State} {s : State} {t : ℕ} {key : BitVec 64} {ctx : ℕ} {d : BitVec 512} {dirty : Bool} {pf : Bool} {lru : Bool} (hk : MemorySide a₀ s) : MemorySide a₀ (rlcFill s t key ctx d dirty pf lru) := by
  unfold rlcFill
  repeat' (first | (with_reducible (first | (assumption) | (apply rlcInstall_side) | (apply remoteMode_side) | (refine remoteMode_side_of (by assumption) ?_) | (refine ite_side ?_ ?_) | split | (intro _) | (dsimp only))) | (apply MemorySide.rest; with_reducible (first | (assumption) | (apply rlcInstall_side) | (apply remoteMode_side) | (refine remoteMode_side_of (by assumption) ?_))))

theorem rlcFetch_side {a₀ : State} {s : State} {t : ℕ} {key : BitVec 64} {ctx : ℕ} {nc : Bool} {ext : Option (BitVec 512)} (hk : MemorySide a₀ s) : MemorySide a₀ (rlcFetch s t key ctx nc ext).2.2 := by
  unfold rlcFetch
  repeat' (first | (with_reducible (first | (assumption) | (apply fetchHere_side) | (refine fetchHere_side_of (by assumption) ?_) | (apply fetchRemote_side) | (refine fetchRemote_side_of (by assumption) ?_) | (refine ite_side ?_ ?_) | split | (intro _) | (dsimp only))) | (apply MemorySide.rest; with_reducible (first | (assumption) | (apply fetchHere_side) | (refine fetchHere_side_of (by assumption) ?_) | (apply fetchRemote_side) | (refine fetchRemote_side_of (by assumption) ?_))))

theorem rlcFetch_side_of {a₀ z : State} {s : State} {t : ℕ} {key : BitVec 64} {ctx : ℕ} {nc : Bool} {ext : Option (BitVec 512)} {y0 : Code} {y1 : List Byte} (he : rlcFetch s t key ctx nc ext = (y0, y1, z)) (hk : MemorySide a₀ s) : MemorySide a₀ z := by
  have := rlcFetch_side (s := s) (t := t) (key := key) (ctx := ctx) (nc := nc) (ext := ext) hk
  rwa [he] at this

theorem rlcPrefetch_side {a₀ : State} {s : State} {t : ℕ} {key : BitVec 64} {rq : RlcUser} {ctx : ℕ} {nc : Bool} {ext2 : Option (BitVec 512)} (hk : MemorySide a₀ s) : MemorySide a₀ (rlcPrefetch s t key rq ctx nc ext2) := by
  unfold rlcPrefetch
  repeat' (first | (with_reducible (first | (assumption) | (apply rlcFetch_side) | (refine rlcFetch_side_of (by assumption) ?_) | (apply rlcFill_side) | (refine ite_side ?_ ?_) | split | (intro _) | (dsimp only))) | (apply MemorySide.rest; with_reducible (first | (assumption) | (apply rlcFetch_side) | (refine rlcFetch_side_of (by assumption) ?_) | (apply rlcFill_side))))

theorem rlcDrop_side {a₀ : State} {s : State} {t : ℕ} {key : BitVec 64} (hk : MemorySide a₀ s) : MemorySide a₀ (rlcDrop s t key) := by
  unfold rlcDrop
  repeat' (first | (with_reducible (first | (assumption) | (apply writeBack_side) | (apply modTower_side) | (refine ite_side ?_ ?_) | split | (intro _) | (dsimp only))) | (apply MemorySide.rest; with_reducible (first | (assumption) | (apply writeBack_side) | (apply modTower_side))))

theorem victimDrop_side {a₀ : State} {s : State} {t : ℕ} {key : BitVec 64} (hk : MemorySide a₀ s) : MemorySide a₀ (victimDrop s t key) := by
  unfold victimDrop
  repeat' (first | (with_reducible (first | (assumption) | (apply modTower_side) | (refine ite_side ?_ ?_) | split | (intro _) | (dsimp only))) | (apply MemorySide.rest; with_reducible (first | (assumption) | (apply modTower_side))))

theorem rlcBypass_side {a₀ : State} {s : State} {t : ℕ} {key : BitVec 64} (hk : MemorySide a₀ s) : MemorySide a₀ (rlcBypass s t key) := by
  unfold rlcBypass
  repeat' (first | (with_reducible (first | (assumption) | (apply rlcDrop_side) | (apply victimDrop_side) | (refine ite_side ?_ ?_) | split | (intro _) | (dsimp only))) | (apply MemorySide.rest; with_reducible (first | (assumption) | (apply rlcDrop_side) | (apply victimDrop_side))))

theorem rlcRead_side {a₀ : State} {s : State} {t : ℕ} {rq : RlcUser} {key : BitVec 64} {ctx : ℕ} {nc : Bool} {ext : Option (BitVec 512)} {ext2 : Option (BitVec 512)} (hk : MemorySide a₀ s) : MemorySide a₀ (rlcRead s t rq key ctx nc ext ext2).2.2 := by
  unfold rlcRead
  repeat' (first | (with_reducible (first | (assumption) | (apply rlcDrop_side) | (apply rlcFetch_side) | (refine rlcFetch_side_of (by assumption) ?_) | (apply rlcFill_side) | (apply hereRead_side) | (refine hereRead_side_of (by assumption) ?_) | (apply rlcInstall_side) | (apply fetchRemote_side) | (refine fetchRemote_side_of (by assumption) ?_) | (apply rlcBypass_side) | (apply rlcPrefetch_side) | (apply modTower_side) | (apply victimDrop_side) | (refine ite_side ?_ ?_) | split | (intro _) | (dsimp only))) | (apply MemorySide.rest; with_reducible (first | (assumption) | (apply rlcDrop_side) | (apply rlcFetch_side) | (refine rlcFetch_side_of (by assumption) ?_) | (apply rlcFill_side) | (apply hereRead_side) | (refine hereRead_side_of (by assumption) ?_) | (apply rlcInstall_side) | (apply fetchRemote_side) | (refine fetchRemote_side_of (by assumption) ?_) | (apply rlcBypass_side) | (apply rlcPrefetch_side) | (apply modTower_side) | (apply victimDrop_side))) | (with_reducible (first | (injections; subst_vars) | (rename_i heq; revert heq; split <;> (intro heq; first | (cases heq) | skip)))))

theorem rlcRead_side_of {a₀ z : State} {s : State} {t : ℕ} {rq : RlcUser} {key : BitVec 64} {ctx : ℕ} {nc : Bool} {ext : Option (BitVec 512)} {ext2 : Option (BitVec 512)} {y0 : Code} {y1 : List Byte} (he : rlcRead s t rq key ctx nc ext ext2 = (y0, y1, z)) (hk : MemorySide a₀ s) : MemorySide a₀ z := by
  have := rlcRead_side (s := s) (t := t) (rq := rq) (key := key) (ctx := ctx) (nc := nc) (ext := ext) (ext2 := ext2) hk
  rwa [he] at this

theorem rlcClear_side {a₀ : State} {s : State} {t : ℕ} {key : BitVec 64} (hk : MemorySide a₀ s) : MemorySide a₀ (rlcClear s t key) := by
  unfold rlcClear
  repeat' (first | (with_reducible (first | (assumption) | (apply recallLine_side) | (apply rlcBypass_side) | (refine ite_side ?_ ?_) | split | (intro _) | (dsimp only))) | (apply MemorySide.rest; with_reducible (first | (assumption) | (apply recallLine_side) | (apply rlcBypass_side))))

theorem rlcTryWrite_side_of {a₀ z : State} {s : State} {t : ℕ} {run : ℕ} {rq : RlcUser} {key : BitVec 64} {ctx : ℕ} {nc : Bool} {off : ℕ} {bs : List Byte} {ext : Option (BitVec 512)} {y0 : Code} (he : rlcTryWrite s t run rq key ctx nc off bs ext = some (y0, z)) (hk : MemorySide a₀ s) : MemorySide a₀ z := by
  unfold rlcTryWrite at he
  repeat' (first | split at he | (simp only [Option.some.injEq, Prod.mk.injEq, reduceCtorEq] at he) | (obtain ⟨-, rfl⟩ := he) | (subst he))
  all_goals repeat' (first | (with_reducible (first | (assumption) | (apply rlcFetch_side) | (refine rlcFetch_side_of (by assumption) ?_) | (apply recallLine_side) | (apply rlcFill_side) | (apply rlcClear_side) | (apply modTower_side) | (refine ite_side ?_ ?_) | split | (intro _) | (dsimp only))) | (apply MemorySide.rest; with_reducible (first | (assumption) | (apply rlcFetch_side) | (refine rlcFetch_side_of (by assumption) ?_) | (apply recallLine_side) | (apply rlcFill_side) | (apply rlcClear_side) | (apply modTower_side))) | (with_reducible (first | (injections; subst_vars) | (rename_i heq; revert heq; split <;> (intro heq; first | (cases heq) | skip)))))

theorem homeWriteFrom_side {a₀ : State} {s : State} {t : ℕ} {user : RemUser} {key : BitVec 64} {ctx : ℕ} {nc : Bool} {off : ℕ} {bs : List Byte} (hk : MemorySide a₀ s) : MemorySide a₀ (homeWriteFrom s t user key ctx nc off bs).2 := by
  unfold homeWriteFrom
  repeat' (first | (with_reducible (first | (assumption) | (apply rlcBypass_side) | (apply hereWrite_side) | (refine hereWrite_side_of (by assumption) ?_) | (apply remoteSend_side) | (refine ite_side ?_ ?_) | split | (intro _) | (dsimp only))) | (apply MemorySide.rest; with_reducible (first | (assumption) | (apply rlcBypass_side) | (apply hereWrite_side) | (refine hereWrite_side_of (by assumption) ?_) | (apply remoteSend_side))))

theorem homeWriteFrom_side_of {a₀ z : State} {s : State} {t : ℕ} {user : RemUser} {key : BitVec 64} {ctx : ℕ} {nc : Bool} {off : ℕ} {bs : List Byte} {y0 : Code} (he : homeWriteFrom s t user key ctx nc off bs = (y0, z)) (hk : MemorySide a₀ s) : MemorySide a₀ z := by
  have := homeWriteFrom_side (s := s) (t := t) (user := user) (key := key) (ctx := ctx) (nc := nc) (off := off) (bs := bs) hk
  rwa [he] at this

theorem sysRead_side {a₀ : State} {s : State} {d : ℕ} {x : ℕ} {n : ℕ} (hk : MemorySide a₀ s) : MemorySide a₀ (sysRead s d x n).2.2 := by
  unfold sysRead
  repeat' (first | (with_reducible (first | (assumption) | (apply hereRead_side) | (refine hereRead_side_of (by assumption) ?_) | (refine ite_side ?_ ?_) | split | (intro _) | (dsimp only))) | (apply MemorySide.rest; with_reducible (first | (assumption) | (apply hereRead_side) | (refine hereRead_side_of (by assumption) ?_))))

theorem sysRead_side_of {a₀ z : State} {s : State} {d : ℕ} {x : ℕ} {n : ℕ} {y0 : Code} {y1 : ℕ} (he : sysRead s d x n = (y0, y1, z)) (hk : MemorySide a₀ s) : MemorySide a₀ z := by
  have := sysRead_side (s := s) (d := d) (x := x) (n := n) hk
  rwa [he] at this

theorem sysWrite_side {a₀ : State} {s : State} {d : ℕ} {x : ℕ} {bs : List Byte} (hk : MemorySide a₀ s) : MemorySide a₀ (sysWrite s d x bs).2 := by
  unfold sysWrite
  repeat' (first | (with_reducible (first | (assumption) | (apply hereWrite_side) | (refine hereWrite_side_of (by assumption) ?_) | (refine ite_side ?_ ?_) | split | (intro _) | (dsimp only))) | (apply MemorySide.rest; with_reducible (first | (assumption) | (apply hereWrite_side) | (refine hereWrite_side_of (by assumption) ?_))))

theorem sysWrite_side_of {a₀ z : State} {s : State} {d : ℕ} {x : ℕ} {bs : List Byte} {y0 : Code} (he : sysWrite s d x bs = (y0, z)) (hk : MemorySide a₀ s) : MemorySide a₀ z := by
  have := sysWrite_side (s := s) (d := d) (x := x) (bs := bs) hk
  rwa [he] at this

theorem searchLoop_side {a₀ : State} {d base vp n : ℕ} {s : State} {i : ℕ} {e : Option (BitVec 256)} (hk : MemorySide a₀ s) :
    MemorySide a₀ (searchLoop d base vp n s i e).2.2.2 := by
  induction n generalizing s i e with
  | zero => exact hk
  | succ n ih =>
    rw [searchLoop]
    have h : MemorySide a₀ (sysRead s d (base + 32 * (i + 2 ^ n)) 32).2.2 := sysRead_side hk
    revert h
    generalize sysRead s d (base + 32 * (i + 2 ^ n)) 32 = z
    intro h
    dsimp only
    split
    · exact h
    · split
      · exact ih h
      · exact ih h

theorem search_side {a₀ : State} {s : State} {d base log2n : ℕ} {en : Bool} {vp : ℕ} (hk : MemorySide a₀ s) :
    MemorySide a₀ (search s d base log2n en vp).2 := by
  unfold search
  split
  · exact hk
  · have h : MemorySide a₀ (searchLoop d base vp log2n s 0 none).2.2.2 := searchLoop_side hk
    revert h
    generalize searchLoop d base vp log2n s 0 none = z
    obtain ⟨c, i, e, s1⟩ := z
    intro h
    dsimp only
    split
    · exact h
    · cases e with
      | some e =>
        dsimp only
        split
        · exact h
        · split <;> exact h
      | none =>
        have g : MemorySide a₀ (sysRead s1 d base 32).2.2 := sysRead_side h
        revert g
        generalize sysRead s1 d base 32 = z
        intro g
        dsimp only
        split
        · exact g
        · split <;> exact g

theorem search_side_of {a₀ z : State} {s : State} {d base log2n : ℕ} {en : Bool} {vp : ℕ} {y0 : Found}
    (he : search s d base log2n en vp = (y0, z)) (hk : MemorySide a₀ s) : MemorySide a₀ z := by
  have := search_side (d := d) (base := base) (log2n := log2n) (en := en) (vp := vp) hk
  rwa [he] at this

theorem descOf_side {a₀ : State} {s : State} {d : ℕ} {md : BitVec 64} {e : BitVec 256} (hk : MemorySide a₀ s) : MemorySide a₀ (descOf s d md e).2.2 := by
  unfold descOf
  repeat' (first | (with_reducible (first | (assumption) | (apply sysRead_side) | (refine sysRead_side_of (by assumption) ?_) | (refine ite_side ?_ ?_) | split | (intro _) | (dsimp only))) | (apply MemorySide.rest; with_reducible (first | (assumption) | (apply sysRead_side) | (refine sysRead_side_of (by assumption) ?_))))

theorem descOf_side_of {a₀ z : State} {s : State} {d : ℕ} {md : BitVec 64} {e : BitVec 256} {y0 : Code} {y1 : BitVec 256} (he : descOf s d md e = (y0, y1, z)) (hk : MemorySide a₀ s) : MemorySide a₀ z := by
  have := descOf_side (s := s) (d := d) (md := md) (e := e) hk
  rwa [he] at this

theorem searchFill_side {a₀ : State} {s : State} {d : ℕ} {x : ℕ} {base : ℕ} {log2n : ℕ} {en : Bool} {md : BitVec 64} {vp : ℕ} (hk : MemorySide a₀ s) : MemorySide a₀ (searchFill s d x base log2n en md vp).2 := by
  unfold searchFill
  repeat' (first | (with_reducible (first | (assumption) | (apply search_side) | (refine search_side_of (by assumption) ?_) | (apply descOf_side) | (refine descOf_side_of (by assumption) ?_) | (refine ite_side ?_ ?_) | split | (intro _) | (dsimp only))) | (apply MemorySide.rest; with_reducible (first | (assumption) | (apply search_side) | (refine search_side_of (by assumption) ?_) | (apply descOf_side) | (refine descOf_side_of (by assumption) ?_))))

theorem searchFill_side_of {a₀ z : State} {s : State} {d : ℕ} {x : ℕ} {base : ℕ} {log2n : ℕ} {en : Bool} {md : BitVec 64} {vp : ℕ} {y0 : (LbEntry ⊕ Code × ℕ)} (he : searchFill s d x base log2n en md vp = (y0, z)) (hk : MemorySide a₀ s) : MemorySide a₀ z := by
  have := searchFill_side (s := s) (d := d) (x := x) (base := base) (log2n := log2n) (en := en) (md := md) (vp := vp) hk
  rwa [he] at this

theorem countWait_side {a₀ : State} {s : State} {x : ℕ} (hk : MemorySide a₀ s) : MemorySide a₀ (countWait s x) := by
  unfold countWait
  repeat' (first | (with_reducible (first | (assumption) | (apply modCtx_side) | (refine ite_side ?_ ?_) | split | (intro _) | (dsimp only))) | (apply MemorySide.rest; with_reducible (first | (assumption) | (apply modCtx_side))))

theorem migrIssue_side {a₀ : State} {s : State} {m : Migr} (hk : MemorySide a₀ s) : MemorySide a₀ (migrIssue s m) := by
  unfold migrIssue
  repeat' (first | (with_reducible (first | (assumption) | (apply rlcDrop_side) | (apply remoteAsk_side) | (apply outSend_side) | (refine forEach_side ?_ ?_) | (refine ite_side ?_ ?_) | split | (intro _) | (dsimp only))) | (apply MemorySide.rest; with_reducible (first | (assumption) | (apply rlcDrop_side) | (apply remoteAsk_side) | (apply outSend_side) | (refine forEach_side ?_ ?_))))

theorem migrHand_side {a₀ : State} {s : State} {m : Migr} (hk : MemorySide a₀ s) : MemorySide a₀ (migrHand s m) := by
  unfold migrHand
  repeat' (first | (with_reducible (first | (assumption) | (apply migrIssue_side) | (refine ite_side ?_ ?_) | split | (intro _) | (dsimp only))) | (apply MemorySide.rest; with_reducible (first | (assumption) | (apply migrIssue_side))))

theorem resolve_side {a₀ : State} {s : State} {x : ℕ} {l : LbEntry} {va : BitVec 64} {need : Need} {hallRefuses : Bool} {d : ℕ} (hk : MemorySide a₀ s) : MemorySide a₀ (resolve s x l va need hallRefuses d).2.2 := by
  unfold resolve
  repeat' (first | (with_reducible (first | (assumption) | (apply migrHand_side) | (apply sysRead_side) | (refine sysRead_side_of (by assumption) ?_) | (apply sysWrite_side) | (refine sysWrite_side_of (by assumption) ?_) | (refine ite_side ?_ ?_) | split | (intro _) | (dsimp only))) | (apply MemorySide.rest; with_reducible (first | (assumption) | (apply migrHand_side) | (apply sysRead_side) | (refine sysRead_side_of (by assumption) ?_) | (apply sysWrite_side) | (refine sysWrite_side_of (by assumption) ?_))))

theorem resolve_side_of {a₀ z : State} {s : State} {x : ℕ} {l : LbEntry} {va : BitVec 64} {need : Need} {hallRefuses : Bool} {d : ℕ} {y0 : XSt} {y1 : LbEntry} (he : resolve s x l va need hallRefuses d = (y0, y1, z)) (hk : MemorySide a₀ s) : MemorySide a₀ z := by
  have := resolve_side (s := s) (x := x) (l := l) (va := va) (need := need) (hallRefuses := hallRefuses) (d := d) hk
  rwa [he] at this

theorem hubEntry_side {a₀ : State} {s : State} {x : ℕ} {va : BitVec 64} (hk : MemorySide a₀ s) : MemorySide a₀ (hubEntry s x va).2 := by
  unfold hubEntry
  repeat' (first | (with_reducible (first | (assumption) | (apply searchFill_side) | (refine searchFill_side_of (by assumption) ?_) | (refine ite_side ?_ ?_) | split | (intro _) | (dsimp only))) | (apply MemorySide.rest; with_reducible (first | (assumption) | (apply searchFill_side) | (refine searchFill_side_of (by assumption) ?_))))

theorem hubEntry_side_of {a₀ z : State} {s : State} {x : ℕ} {va : BitVec 64} {y0 : (LbEntry ⊕ Code × ℕ)} (he : hubEntry s x va = (y0, z)) (hk : MemorySide a₀ s) : MemorySide a₀ z := by
  have := hubEntry_side (s := s) (x := x) (va := va) hk
  rwa [he] at this

theorem hubXlate_side {a₀ : State} {s : State} {x : ℕ} {va : BitVec 64} {need : Need} {hallRefuses : Bool} (hk : MemorySide a₀ s) : MemorySide a₀ (hubXlate s x va need hallRefuses).2 := by
  unfold hubXlate
  repeat' (first | (with_reducible (first | (assumption) | (apply countWait_side) | (apply hubEntry_side) | (refine hubEntry_side_of (by assumption) ?_) | (apply resolve_side) | (refine resolve_side_of (by assumption) ?_) | (refine ite_side ?_ ?_) | split | (intro _) | (dsimp only))) | (apply MemorySide.rest; with_reducible (first | (assumption) | (apply countWait_side) | (apply hubEntry_side) | (refine hubEntry_side_of (by assumption) ?_) | (apply resolve_side) | (refine resolve_side_of (by assumption) ?_))))

theorem hubXlate_side_of {a₀ z : State} {s : State} {x : ℕ} {va : BitVec 64} {need : Need} {hallRefuses : Bool} {y0 : XSt} (he : hubXlate s x va need hallRefuses = (y0, z)) (hk : MemorySide a₀ s) : MemorySide a₀ z := by
  have := hubXlate_side (s := s) (x := x) (va := va) (need := need) (hallRefuses := hallRefuses) hk
  rwa [he] at this

theorem ownFault_side {a₀ : State} {s : State} {x : ℕ} {code : Code} {need : Need} {src : ℕ} {va : BitVec 64} (hk : MemorySide a₀ s) : MemorySide a₀ (ownFault s x code need src va) := by
  unfold ownFault
  repeat' (first | (with_reducible (first | (assumption) | (apply xfault_side) | (refine ite_side ?_ ?_) | split | (intro _) | (dsimp only))) | (apply MemorySide.rest; with_reducible (first | (assumption) | (apply xfault_side))))

theorem hubLocal_side {a₀ : State} {s : State} {x : ℕ} {src : ℕ} {o : ℕ} {nc : Bool} {va : BitVec 64} {need : Need} {n : ℕ} {bs : List Byte} {func : ℕ} {b : ℕ} {c : ℕ} (hk : MemorySide a₀ s) : MemorySide a₀ (hubLocal s x src o nc va need n bs func b c).s := by
  unfold hubLocal
  repeat' (first | (with_reducible (first | (assumption) | (apply homeRead_side) | (refine homeRead_side_of (by assumption) ?_) | (apply ownFault_side) | (apply hereRead_side) | (refine hereRead_side_of (by assumption) ?_) | (apply hereWrite_side) | (refine hereWrite_side_of (by assumption) ?_) | (apply hereAtomic_side) | (refine hereAtomic_side_of (by assumption) ?_) | (refine ite_side ?_ ?_) | split | (intro _) | (dsimp only))) | (apply MemorySide.rest; with_reducible (first | (assumption) | (apply homeRead_side) | (refine homeRead_side_of (by assumption) ?_) | (apply ownFault_side) | (apply hereRead_side) | (refine hereRead_side_of (by assumption) ?_) | (apply hereWrite_side) | (refine hereWrite_side_of (by assumption) ?_) | (apply hereAtomic_side) | (refine hereAtomic_side_of (by assumption) ?_))) | (with_reducible (first | (injections; subst_vars) | (rename_i heq; revert heq; split <;> (intro heq; first | (cases heq) | skip)))))

theorem hubLocal_side_of {a₀ z : State} {s : State} {x : ℕ} {src : ℕ} {o : ℕ} {nc : Bool} {va : BitVec 64} {need : Need} {n : ℕ} {bs : List Byte} {func : ℕ} {b : ℕ} {c : ℕ} {y1 : Code} {y2 : List Byte} (he : hubLocal s x src o nc va need n bs func b c = ⟨y1, y2, z⟩) (hk : MemorySide a₀ s) : MemorySide a₀ z := by
  have := hubLocal_side (s := s) (x := x) (src := src) (o := o) (nc := nc) (va := va) (need := need) (n := n) (bs := bs) (func := func) (b := b) (c := c) hk
  rwa [he] at this

theorem hubBypass_side {a₀ : State} {s : State} {src : ℕ} {ga : BitVec 64} (hk : MemorySide a₀ s) : MemorySide a₀ (hubBypass s src ga) := by
  unfold hubBypass
  repeat' (first | (with_reducible (first | (assumption) | (apply rlcBypass_side) | (refine ite_side ?_ ?_) | split | (intro _) | (dsimp only))) | (apply MemorySide.rest; with_reducible (first | (assumption) | (apply rlcBypass_side))))

theorem hubRemote_side {a₀ : State} {s : State} {x : ℕ} {src : ℕ} {ga : BitVec 64} {va : BitVec 64} {need : Need} {n : ℕ} {bs : List Byte} {func : ℕ} {b : ℕ} {c : ℕ} {r : Reply} {skip : ℕ} (hk : MemorySide a₀ s) : MemorySide a₀ (hubRemote s x src ga va need n bs func b c r skip).s := by
  unfold hubRemote
  repeat' (first | (with_reducible (first | (assumption) | (apply remoteAsk_side) | (apply hubBypass_side) | (apply ownFault_side) | (apply spanAnswer_side) | (refine spanAnswer_side_of (by assumption) ?_) | (refine ite_side ?_ ?_) | split | (intro _) | (dsimp only))) | (apply MemorySide.rest; with_reducible (first | (assumption) | (apply remoteAsk_side) | (apply hubBypass_side) | (apply ownFault_side) | (apply spanAnswer_side) | (refine spanAnswer_side_of (by assumption) ?_))) | (with_reducible (first | (injections; subst_vars) | (rename_i heq; revert heq; split <;> (intro heq; first | (cases heq) | skip)))))

theorem hubRemote_side_of {a₀ z : State} {s : State} {x : ℕ} {src : ℕ} {ga : BitVec 64} {va : BitVec 64} {need : Need} {n : ℕ} {bs : List Byte} {func : ℕ} {b : ℕ} {c : ℕ} {r : Reply} {skip : ℕ} {y1 : Code} {y2 : List Byte} (he : hubRemote s x src ga va need n bs func b c r skip = ⟨y1, y2, z⟩) (hk : MemorySide a₀ s) : MemorySide a₀ z := by
  have := hubRemote_side (s := s) (x := x) (src := src) (ga := ga) (va := va) (need := need) (n := n) (bs := bs) (func := func) (b := b) (c := c) (r := r) (skip := skip) hk
  rwa [he] at this

theorem hubBus_side {a₀ : State} {s : State} {x : ℕ} {src : ℕ} {a : ℕ} {va : BitVec 64} {need : Need} {n : ℕ} {bs : List Byte} {r : Reply} {skip : ℕ} (hk : MemorySide a₀ s) : MemorySide a₀ (hubBus s x src a va need n bs r skip).s := by
  unfold hubBus
  repeat' (first | (with_reducible (first | (assumption) | (apply outSend_side) | (apply ownFault_side) | (apply busAnswer_side) | (refine busAnswer_side_of (by assumption) ?_) | (refine ite_side ?_ ?_) | split | (intro _) | (dsimp only))) | (apply MemorySide.rest; with_reducible (first | (assumption) | (apply outSend_side) | (apply ownFault_side) | (apply busAnswer_side) | (refine busAnswer_side_of (by assumption) ?_))) | (with_reducible (first | (injections; subst_vars) | (rename_i heq; revert heq; split <;> (intro heq; first | (cases heq) | skip)))))

theorem hubBus_side_of {a₀ z : State} {s : State} {x : ℕ} {src : ℕ} {a : ℕ} {va : BitVec 64} {need : Need} {n : ℕ} {bs : List Byte} {r : Reply} {skip : ℕ} {y1 : Code} {y2 : List Byte} (he : hubBus s x src a va need n bs r skip = ⟨y1, y2, z⟩) (hk : MemorySide a₀ s) : MemorySide a₀ z := by
  have := hubBus_side (s := s) (x := x) (src := src) (a := a) (va := va) (need := need) (n := n) (bs := bs) (r := r) (skip := skip) hk
  rwa [he] at this

theorem hubAccess_side {a₀ : State} {s : State} {x : ℕ} {src : ℕ} {va : BitVec 64} {need : Need} {n : ℕ} {bs : List Byte} {func : ℕ} {b : ℕ} {c : ℕ} {r : Reply} {skip : ℕ} {hallRefuses : Bool} (hk : MemorySide a₀ s) : MemorySide a₀ (hubAccess s x src va need n bs func b c r skip hallRefuses).s := by
  unfold hubAccess
  repeat' (first | (with_reducible (first | (assumption) | (apply hubRemote_side) | (refine hubRemote_side_of (by assumption) ?_) | (apply hubBus_side) | (refine hubBus_side_of (by assumption) ?_) | (apply xfault_side) | (apply hubXlate_side) | (refine hubXlate_side_of (by assumption) ?_) | (apply hubLocal_side) | (refine hubLocal_side_of (by assumption) ?_) | (refine ite_side ?_ ?_) | split | (intro _) | (dsimp only))) | (apply MemorySide.rest; with_reducible (first | (assumption) | (apply hubRemote_side) | (refine hubRemote_side_of (by assumption) ?_) | (apply hubBus_side) | (refine hubBus_side_of (by assumption) ?_) | (apply xfault_side) | (apply hubXlate_side) | (refine hubXlate_side_of (by assumption) ?_) | (apply hubLocal_side) | (refine hubLocal_side_of (by assumption) ?_))))

theorem hubAccess_side_of {a₀ z : State} {s : State} {x : ℕ} {src : ℕ} {va : BitVec 64} {need : Need} {n : ℕ} {bs : List Byte} {func : ℕ} {b : ℕ} {c : ℕ} {r : Reply} {skip : ℕ} {hallRefuses : Bool} {y1 : Code} {y2 : List Byte} (he : hubAccess s x src va need n bs func b c r skip hallRefuses = ⟨y1, y2, z⟩) (hk : MemorySide a₀ s) : MemorySide a₀ z := by
  have := hubAccess_side (s := s) (x := x) (src := src) (va := va) (need := need) (n := n) (bs := bs) (func := func) (b := b) (c := c) (r := r) (skip := skip) (hallRefuses := hallRefuses) hk
  rwa [he] at this

theorem hubReadLoop_side {a₀ : State} {x : ℕ} {src : ℕ} {need : Need} {hall : Bool} {r : Reply} {L : List (ℕ × ℕ)} {b6 : ℕ} {s : State} {b8 : List Byte} (hk : MemorySide a₀ s) : MemorySide a₀ (hubReadLoop x src need hall r L b6 s b8).s := by
  induction L generalizing b6 s b8 with
  | nil => exact hk
  | cons p l ih =>
    obtain ⟨a, k⟩ := p
    rw [hubReadLoop]
    repeat' (first | (with_reducible (first | (assumption) | (apply ih) | (apply hubAccess_side) | (refine hubAccess_side_of (by assumption) ?_) | (refine ite_side ?_ ?_) | split | (intro _) | (dsimp only))) | (apply MemorySide.rest; with_reducible (first | (assumption) | (apply ih) | (apply hubAccess_side) | (refine hubAccess_side_of (by assumption) ?_))))

theorem hubReadLoop_side_of {a₀ z : State} {x : ℕ} {src : ℕ} {need : Need} {hall : Bool} {r : Reply} {L : List (ℕ × ℕ)} {b6 : ℕ} {s : State} {b8 : List Byte} {y1 : Code} {y2 : List Byte} (he : hubReadLoop x src need hall r L b6 s b8 = ⟨y1, y2, z⟩) (hk : MemorySide a₀ s) : MemorySide a₀ z := by
  have := hubReadLoop_side (x := x) (src := src) (need := need) (hall := hall) (r := r) (L := L) (b6 := b6) (s := s) (b8 := b8) hk
  rwa [he] at this

theorem hubReadBoth_side {a₀ : State} {s : State} {x : ℕ} {src : ℕ} {va : BitVec 64} {n : ℕ} {r : Reply} (hk : MemorySide a₀ s) : MemorySide a₀ (hubReadBoth s x src va n r).s := by
  unfold hubReadBoth
  repeat' (first | (with_reducible (first | (assumption) | (apply hubReadLoop_side) | (refine hubReadLoop_side_of (by assumption) ?_) | (refine ite_side ?_ ?_) | split | (intro _) | (dsimp only))) | (apply MemorySide.rest; with_reducible (first | (assumption) | (apply hubReadLoop_side) | (refine hubReadLoop_side_of (by assumption) ?_))))

theorem hubReadBoth_side_of {a₀ z : State} {s : State} {x : ℕ} {src : ℕ} {va : BitVec 64} {n : ℕ} {r : Reply} {y1 : Code} {y2 : List Byte} (he : hubReadBoth s x src va n r = ⟨y1, y2, z⟩) (hk : MemorySide a₀ s) : MemorySide a₀ z := by
  have := hubReadBoth_side (s := s) (x := x) (src := src) (va := va) (n := n) (r := r) hk
  rwa [he] at this

theorem hubRead_side {a₀ : State} {s : State} {x : ℕ} {src : ℕ} {va : BitVec 64} {n : ℕ} {r : Reply} (hk : MemorySide a₀ s) : MemorySide a₀ (hubRead s x src va n r).s := by
  unfold hubRead
  repeat' (first | (with_reducible (first | (assumption) | (apply hubReadLoop_side) | (refine hubReadLoop_side_of (by assumption) ?_) | (refine ite_side ?_ ?_) | split | (intro _) | (dsimp only))) | (apply MemorySide.rest; with_reducible (first | (assumption) | (apply hubReadLoop_side) | (refine hubReadLoop_side_of (by assumption) ?_))))

theorem hubRead_side_of {a₀ z : State} {s : State} {x : ℕ} {src : ℕ} {va : BitVec 64} {n : ℕ} {r : Reply} {y1 : Code} {y2 : List Byte} (he : hubRead s x src va n r = ⟨y1, y2, z⟩) (hk : MemorySide a₀ s) : MemorySide a₀ z := by
  have := hubRead_side (s := s) (x := x) (src := src) (va := va) (n := n) (r := r) hk
  rwa [he] at this

theorem hubFlag_side {a₀ : State} {s : State} {x : ℕ} {src : ℕ} {va : BitVec 64} {n : ℕ} {r : Reply} (hk : MemorySide a₀ s) : MemorySide a₀ (hubFlag s x src va n r).s := by
  unfold hubFlag
  repeat' (first | (with_reducible (first | (assumption) | (apply hubReadLoop_side) | (refine hubReadLoop_side_of (by assumption) ?_) | (refine ite_side ?_ ?_) | split | (intro _) | (dsimp only))) | (apply MemorySide.rest; with_reducible (first | (assumption) | (apply hubReadLoop_side) | (refine hubReadLoop_side_of (by assumption) ?_))))

theorem hubFlag_side_of {a₀ z : State} {s : State} {x : ℕ} {src : ℕ} {va : BitVec 64} {n : ℕ} {r : Reply} {y1 : Code} {y2 : List Byte} (he : hubFlag s x src va n r = ⟨y1, y2, z⟩) (hk : MemorySide a₀ s) : MemorySide a₀ z := by
  have := hubFlag_side (s := s) (x := x) (src := src) (va := va) (n := n) (r := r) hk
  rwa [he] at this

theorem hubWriteLoop_side {a₀ : State} {x : ℕ} {src : ℕ} {need : Need} {r : Reply} {L : List (ℕ × ℕ)} {s : State} {b6 : List Byte} (hk : MemorySide a₀ s) : MemorySide a₀ (hubWriteLoop x src need r L s b6).s := by
  induction L generalizing s b6 with
  | nil => exact hk
  | cons p l ih =>
    obtain ⟨a, k⟩ := p
    rw [hubWriteLoop]
    repeat' (first | (with_reducible (first | (assumption) | (apply ih) | (apply hubAccess_side) | (refine hubAccess_side_of (by assumption) ?_) | (refine ite_side ?_ ?_) | split | (intro _) | (dsimp only))) | (apply MemorySide.rest; with_reducible (first | (assumption) | (apply ih) | (apply hubAccess_side) | (refine hubAccess_side_of (by assumption) ?_))))

theorem hubWriteLoop_side_of {a₀ z : State} {x : ℕ} {src : ℕ} {need : Need} {r : Reply} {L : List (ℕ × ℕ)} {s : State} {b6 : List Byte} {y1 : Code} {y2 : List Byte} (he : hubWriteLoop x src need r L s b6 = ⟨y1, y2, z⟩) (hk : MemorySide a₀ s) : MemorySide a₀ z := by
  have := hubWriteLoop_side (x := x) (src := src) (need := need) (r := r) (L := L) (s := s) (b6 := b6) hk
  rwa [he] at this

theorem hubWrite_side {a₀ : State} {s : State} {x : ℕ} {src : ℕ} {va : BitVec 64} {need : Need} {bs : List Byte} {r : Reply} (hk : MemorySide a₀ s) : MemorySide a₀ (hubWrite s x src va need bs r).s := by
  unfold hubWrite
  repeat' (first | (with_reducible (first | (assumption) | (apply hubWriteLoop_side) | (refine hubWriteLoop_side_of (by assumption) ?_) | (refine ite_side ?_ ?_) | split | (intro _) | (dsimp only))) | (apply MemorySide.rest; with_reducible (first | (assumption) | (apply hubWriteLoop_side) | (refine hubWriteLoop_side_of (by assumption) ?_))))

theorem hubWrite_side_of {a₀ z : State} {s : State} {x : ℕ} {src : ℕ} {va : BitVec 64} {need : Need} {bs : List Byte} {r : Reply} {y1 : Code} {y2 : List Byte} (he : hubWrite s x src va need bs r = ⟨y1, y2, z⟩) (hk : MemorySide a₀ s) : MemorySide a₀ z := by
  have := hubWrite_side (s := s) (x := x) (src := src) (va := va) (need := need) (bs := bs) (r := r) hk
  rwa [he] at this

theorem hubAtomic_side {a₀ : State} {s : State} {x : ℕ} {src : ℕ} {va : BitVec 64} {n : ℕ} {func : ℕ} {b : ℕ} {c : ℕ} {r : Reply} (hk : MemorySide a₀ s) : MemorySide a₀ (hubAtomic s x src va n func b c r).s := by
  unfold hubAtomic
  repeat' (first | (with_reducible (first | (assumption) | (apply hubAccess_side) | (refine hubAccess_side_of (by assumption) ?_) | (refine ite_side ?_ ?_) | split | (intro _) | (dsimp only))) | (apply MemorySide.rest; with_reducible (first | (assumption) | (apply hubAccess_side) | (refine hubAccess_side_of (by assumption) ?_))))

theorem hubAtomic_side_of {a₀ z : State} {s : State} {x : ℕ} {src : ℕ} {va : BitVec 64} {n : ℕ} {func : ℕ} {b : ℕ} {c : ℕ} {r : Reply} {y1 : Code} {y2 : List Byte} (he : hubAtomic s x src va n func b c r = ⟨y1, y2, z⟩) (hk : MemorySide a₀ s) : MemorySide a₀ z := by
  have := hubAtomic_side (s := s) (x := x) (src := src) (va := va) (n := n) (func := func) (b := b) (c := c) (r := r) hk
  rwa [he] at this

theorem hubProbe_side {a₀ : State} {x : ℕ} {L : List (BitVec 64 × Need)} {s : State} (hk : MemorySide a₀ s) : MemorySide a₀ (hubProbe x L s).2 := by
  induction L generalizing s with
  | nil => exact hk
  | cons p l ih =>
    obtain ⟨va, need⟩ := p
    rw [hubProbe]
    repeat' (first | (with_reducible (first | (assumption) | (apply ih) | (apply hubXlate_side) | (refine hubXlate_side_of (by assumption) ?_) | (refine ite_side ?_ ?_) | split | (intro _) | (dsimp only))) | (apply MemorySide.rest; with_reducible (first | (assumption) | (apply ih) | (apply hubXlate_side) | (refine hubXlate_side_of (by assumption) ?_))))

theorem hubProbe_side_of {a₀ z : State} {x : ℕ} {L : List (BitVec 64 × Need)} {s : State} {y0 : Bool} (he : hubProbe x L s = (y0, z)) (hk : MemorySide a₀ s) : MemorySide a₀ z := by
  have := hubProbe_side (x := x) (L := L) (s := s) hk
  rwa [he] at this

theorem eventDropped_side {a₀ : State} {s : State} {x : ℕ} (hk : MemorySide a₀ s) : MemorySide a₀ (eventDropped s x) := by
  unfold eventDropped
  repeat' (first | (with_reducible (first | (assumption) | (apply modCtx_side) | (refine ite_side ?_ ?_) | split | (intro _) | (dsimp only))) | (apply MemorySide.rest; with_reducible (first | (assumption) | (apply modCtx_side))))

theorem eventTry_side_of {a₀ z : State} {s : State} {x : ℕ} {r : List Byte} (he : eventTry s x r = some z) (hk : MemorySide a₀ s) : MemorySide a₀ z := by
  unfold eventTry at he
  repeat' (first | split at he | (simp only [Option.some.injEq, Prod.mk.injEq, reduceCtorEq] at he) | (obtain ⟨-, rfl⟩ := he) | (subst he))
  all_goals repeat' (first | (with_reducible (first | (assumption) | (apply modCtx_side) | (apply eventDropped_side) | (apply interrupt_side) | (apply hubWrite_side) | (refine hubWrite_side_of (by assumption) ?_) | (refine ite_side ?_ ?_) | split | (intro _) | (dsimp only))) | (apply MemorySide.rest; with_reducible (first | (assumption) | (apply modCtx_side) | (apply eventDropped_side) | (apply interrupt_side) | (apply hubWrite_side) | (refine hubWrite_side_of (by assumption) ?_))))

theorem event_side {a₀ : State} {s : State} {x : ℕ} {r : List Byte} (hk : MemorySide a₀ s) : MemorySide a₀ (event s x r) := by
  unfold event
  repeat' (first | (with_reducible (first | (assumption) | (refine eventTry_side_of (by assumption) ?_) | (refine ite_side ?_ ?_) | split | (intro _) | (dsimp only))) | (apply MemorySide.rest; with_reducible (first | (assumption) | (refine eventTry_side_of (by assumption) ?_))))

theorem rasCtx_side {a₀ : State} {s : State} {x : ℕ} {code : Code} {q : ℕ} {unit : BitVec 32} (hk : MemorySide a₀ s) : MemorySide a₀ (rasCtx s x code q unit) := by
  unfold rasCtx
  repeat' (first | (with_reducible (first | (assumption) | (apply event_side) | (refine ite_side ?_ ?_) | split | (intro _) | (dsimp only))) | (apply MemorySide.rest; with_reducible (first | (assumption) | (apply event_side))))

theorem lateEvents_side {a₀ : State} {s : State} (hk : MemorySide a₀ s) : MemorySide a₀ (lateEvents s) := by
  unfold lateEvents
  repeat' (first | (with_reducible (first | (assumption) | (apply event_side) | (refine forEach_side ?_ ?_) | (refine ite_side ?_ ?_) | split | (intro _) | (dsimp only))) | (apply MemorySide.rest; with_reducible (first | (assumption) | (apply event_side) | (refine forEach_side ?_ ?_))))

theorem acquire_side {a₀ : State} {s : State} {t : ℕ} (hk : MemorySide a₀ s) : MemorySide a₀ (acquire s t) := by
  unfold acquire
  repeat' (first | (with_reducible (first | (assumption) | (apply modTower_side) | (refine ite_side ?_ ?_) | split | (intro _) | (dsimp only))) | (apply MemorySide.rest; with_reducible (first | (assumption) | (apply modTower_side))))

theorem flushPass_side {a₀ : State} {s : State} {x : ℕ} (hk : MemorySide a₀ s) : MemorySide a₀ (flushPass s x) := by
  unfold flushPass
  repeat' (first | (with_reducible (first | (assumption) | (apply writeBack_side) | (refine forEach_side ?_ ?_) | (apply modTower_side) | (refine ite_side ?_ ?_) | split | (intro _) | (dsimp only))) | (apply MemorySide.rest; with_reducible (first | (assumption) | (apply writeBack_side) | (refine forEach_side ?_ ?_) | (apply modTower_side))))

theorem launchProbe_side {a₀ : State} {s : State} {k : Queue} {bs : List Byte} (hk : MemorySide a₀ s) : MemorySide a₀ (launchProbe s k bs).2 := by
  unfold launchProbe
  repeat' (first | (with_reducible (first | (assumption) | (apply hubProbe_side) | (refine hubProbe_side_of (by assumption) ?_) | (apply hubRead_side) | (refine hubRead_side_of (by assumption) ?_) | (refine ite_side ?_ ?_) | split | (intro _) | (dsimp only))) | (apply MemorySide.rest; with_reducible (first | (assumption) | (apply hubProbe_side) | (refine hubProbe_side_of (by assumption) ?_) | (apply hubRead_side) | (refine hubRead_side_of (by assumption) ?_))))

theorem launchProbe_side_of {a₀ z : State} {s : State} {k : Queue} {bs : List Byte} {y0 : Bool} (he : launchProbe s k bs = (y0, z)) (hk : MemorySide a₀ s) : MemorySide a₀ z := by
  have := launchProbe_side (s := s) (k := k) (bs := bs) hk
  rwa [he] at this

theorem lateFault_side {a₀ : State} {s : State} {q : ℕ} {x : ℕ} {c : Code} (hk : MemorySide a₀ s) : MemorySide a₀ (lateFault s q x c) := by
  unfold lateFault
  repeat' (first | (with_reducible (first | (assumption) | (apply rasCtx_side) | (refine ite_side ?_ ?_) | split | (intro _) | (dsimp only))) | (apply MemorySide.rest; with_reducible (first | (assumption) | (apply rasCtx_side))))

theorem unpin_side {a₀ : State} {s : State} {q : ℕ} {x : ℕ} {e : EntryRun} (hk : MemorySide a₀ s) : MemorySide a₀ (unpin s q x e).1 := by
  unfold unpin
  repeat' (first | (with_reducible (first | (assumption) | (apply hubRead_side) | (refine hubRead_side_of (by assumption) ?_) | (apply hubWrite_side) | (refine hubWrite_side_of (by assumption) ?_) | (apply lateFault_side) | (refine ite_side ?_ ?_) | split | (intro _) | (dsimp only))) | (apply MemorySide.rest; with_reducible (first | (assumption) | (apply hubRead_side) | (refine hubRead_side_of (by assumption) ?_) | (apply hubWrite_side) | (refine hubWrite_side_of (by assumption) ?_) | (apply lateFault_side))))

theorem unpin_side_of {a₀ z : State} {s : State} {q : ℕ} {x : ℕ} {e : EntryRun} {y1 : Option (BitVec 64)} (he : unpin s q x e = (z, y1)) (hk : MemorySide a₀ s) : MemorySide a₀ z := by
  have := unpin_side (s := s) (q := q) (x := x) (e := e) hk
  rwa [he] at this

theorem freedEvent_side {a₀ : State} {s : State} {x : ℕ} {img : BitVec 64} (hk : MemorySide a₀ s) : MemorySide a₀ (freedEvent s x img) := by
  unfold freedEvent
  repeat' (first | (with_reducible (first | (assumption) | (apply event_side) | (refine ite_side ?_ ?_) | split | (intro _) | (dsimp only))) | (apply MemorySide.rest; with_reducible (first | (assumption) | (apply event_side))))

theorem completeSteps_side {a₀ : State} {s : State} {q : ℕ} {x : ℕ} {e : EntryRun} {crec : ℕ} {sig : ℕ} {irq : Bool} {status : Code} {cause : Code} {f : Option EntryFault} (hk : MemorySide a₀ s) : MemorySide a₀ (completeSteps s q x e crec sig irq status cause f) := by
  unfold completeSteps
  repeat' (first | (with_reducible (first | (assumption) | (apply flushPass_side) | (apply hubAtomic_side) | (refine hubAtomic_side_of (by assumption) ?_) | (apply interrupt_side) | (apply hubWrite_side) | (refine hubWrite_side_of (by assumption) ?_) | (apply lateFault_side) | (refine ite_side ?_ ?_) | split | (intro _) | (dsimp only))) | (apply MemorySide.rest; with_reducible (first | (assumption) | (apply flushPass_side) | (apply hubAtomic_side) | (refine hubAtomic_side_of (by assumption) ?_) | (apply interrupt_side) | (apply hubWrite_side) | (refine hubWrite_side_of (by assumption) ?_) | (apply lateFault_side))))

theorem readPkt_side {a₀ : State} {s : State} {x : ℕ} {a : BitVec 64} {left : ℕ} {r : Reply} (hk : MemorySide a₀ s) : MemorySide a₀ (readPkt s x a left r).s := by
  unfold readPkt
  repeat' (first | (with_reducible (first | (assumption) | (apply hubRead_side) | (refine hubRead_side_of (by assumption) ?_) | (apply hubReadLoop_side) | (refine hubReadLoop_side_of (by assumption) ?_) | (refine ite_side ?_ ?_) | split | (intro _) | (dsimp only))) | (apply MemorySide.rest; with_reducible (first | (assumption) | (apply hubRead_side) | (refine hubRead_side_of (by assumption) ?_) | (apply hubReadLoop_side) | (refine hubReadLoop_side_of (by assumption) ?_))))

theorem readPkt_side_of {a₀ z : State} {s : State} {x : ℕ} {a : BitVec 64} {left : ℕ} {r : Reply} {y1 : Code} {y2 : List Byte} (he : readPkt s x a left r = ⟨y1, y2, z⟩) (hk : MemorySide a₀ s) : MemorySide a₀ z := by
  have := readPkt_side (s := s) (x := x) (a := a) (left := left) (r := r) hk
  rwa [he] at this

theorem writeRes_side {a₀ : State} {s : State} {x : ℕ} {res : BitVec 64} {c : Code} (hk : MemorySide a₀ s) : MemorySide a₀ (writeRes s x res c).2 := by
  unfold writeRes
  repeat' (first | (with_reducible (first | (assumption) | (apply hubWrite_side) | (refine hubWrite_side_of (by assumption) ?_) | (refine ite_side ?_ ?_) | split | (intro _) | (dsimp only))) | (apply MemorySide.rest; with_reducible (first | (assumption) | (apply hubWrite_side) | (refine hubWrite_side_of (by assumption) ?_))))

theorem writeRes_side_of {a₀ z : State} {s : State} {x : ℕ} {res : BitVec 64} {c : Code} {y0 : Code} (he : writeRes s x res c = (y0, z)) (hk : MemorySide a₀ s) : MemorySide a₀ z := by
  have := writeRes_side (s := s) (x := x) (res := res) (c := c) hk
  rwa [he] at this

theorem readImage_side {a₀ : State} {s : State} {x : ℕ} {a : BitVec 64} (hk : MemorySide a₀ s) : MemorySide a₀ (readImage s x a).s := by
  unfold readImage
  repeat' (first | (with_reducible (first | (assumption) | (apply hubRead_side) | (refine hubRead_side_of (by assumption) ?_) | (refine ite_side ?_ ?_) | split | (intro _) | (dsimp only))) | (apply MemorySide.rest; with_reducible (first | (assumption) | (apply hubRead_side) | (refine hubRead_side_of (by assumption) ?_))))

theorem readImage_side_of {a₀ z : State} {s : State} {x : ℕ} {a : BitVec 64} {y1 : Code} {y2 : List Byte} (he : readImage s x a = ⟨y1, y2, z⟩) (hk : MemorySide a₀ s) : MemorySide a₀ z := by
  have := readImage_side (s := s) (x := x) (a := a) hk
  rwa [he] at this

theorem blockTaken_side {a₀ : State} {s : State} {k : Pool} {i : ℕ} (hk : MemorySide a₀ s) : MemorySide a₀ (blockTaken s k i).2.2 := by
  unfold blockTaken
  repeat' (first | (with_reducible (first | (assumption) | (apply hubReadBoth_side) | (refine hubReadBoth_side_of (by assumption) ?_) | (refine ite_side ?_ ?_) | split | (intro _) | (dsimp only))) | (apply MemorySide.rest; with_reducible (first | (assumption) | (apply hubReadBoth_side) | (refine hubReadBoth_side_of (by assumption) ?_))))

theorem blockTaken_side_of {a₀ z : State} {s : State} {k : Pool} {i : ℕ} {y0 : Code} {y1 : Bool} (he : blockTaken s k i = (y0, y1, z)) (hk : MemorySide a₀ s) : MemorySide a₀ z := by
  have := blockTaken_side (s := s) (k := k) (i := i) hk
  rwa [he] at this

theorem markBlock_side {a₀ : State} {s : State} {k : Pool} {i : ℕ} {b : Bool} (hk : MemorySide a₀ s) : MemorySide a₀ (markBlock s k i b).2 := by
  unfold markBlock
  repeat' (first | (with_reducible (first | (assumption) | (apply hubReadBoth_side) | (refine hubReadBoth_side_of (by assumption) ?_) | (apply hubWrite_side) | (refine hubWrite_side_of (by assumption) ?_) | (refine ite_side ?_ ?_) | split | (intro _) | (dsimp only))) | (apply MemorySide.rest; with_reducible (first | (assumption) | (apply hubReadBoth_side) | (refine hubReadBoth_side_of (by assumption) ?_) | (apply hubWrite_side) | (refine hubWrite_side_of (by assumption) ?_))))

theorem markBlock_side_of {a₀ z : State} {s : State} {k : Pool} {i : ℕ} {b : Bool} {y0 : Code} (he : markBlock s k i b = (y0, z)) (hk : MemorySide a₀ s) : MemorySide a₀ z := by
  have := markBlock_side (s := s) (k := k) (i := i) (b := b) hk
  rwa [he] at this

theorem checkFree_side {a₀ : State} {k : Pool} {L : List (Option ℕ)} {s : State} (hk : MemorySide a₀ s) : MemorySide a₀ (checkFree k L s).2 := by
  induction L generalizing s with
  | nil => exact hk
  | cons p l ih =>
    cases p with
    | none => exact hk
    | some i =>
      rw [checkFree]
      repeat' (first | (with_reducible (first | (assumption) | (apply ih) | (apply blockTaken_side) | (refine blockTaken_side_of (by assumption) ?_) | (refine ite_side ?_ ?_) | split | (intro _) | (dsimp only))) | (apply MemorySide.rest; with_reducible (first | (assumption) | (apply ih) | (apply blockTaken_side) | (refine blockTaken_side_of (by assumption) ?_))))

theorem checkFree_side_of {a₀ z : State} {k : Pool} {L : List (Option ℕ)} {s : State} {y0 : Code} (he : checkFree k L s = (y0, z)) (hk : MemorySide a₀ s) : MemorySide a₀ z := by
  have := checkFree_side (k := k) (L := L) (s := s) hk
  rwa [he] at this

theorem poolProbe_side {a₀ : State} {s : State} {k : Pool} {mine : List PoolReq} (hk : MemorySide a₀ s) : MemorySide a₀ (poolProbe s k mine).2 := by
  unfold poolProbe
  repeat' (first | (with_reducible (first | (assumption) | (apply hubProbe_side) | (refine hubProbe_side_of (by assumption) ?_) | (refine ite_side ?_ ?_) | split | (intro _) | (dsimp only))) | (apply MemorySide.rest; with_reducible (first | (assumption) | (apply hubProbe_side) | (refine hubProbe_side_of (by assumption) ?_))))

theorem poolProbe_side_of {a₀ z : State} {s : State} {k : Pool} {mine : List PoolReq} {y0 : Bool} (he : poolProbe s k mine = (y0, z)) (hk : MemorySide a₀ s) : MemorySide a₀ z := by
  have := poolProbe_side (s := s) (k := k) (mine := mine) hk
  rwa [he] at this

section
variable {s t : State} (h : MemorySide s t)
include h
theorem MemorySide.queues : t.queues = s.queues := by rw [h]
theorem MemorySide.cores : t.cores = s.cores := by rw [h]
theorem MemorySide.pools : t.pools = s.pools := by rw [h]
theorem MemorySide.gangs : t.gangs = s.gangs := by rw [h]
theorem MemorySide.key : t.key = s.key := by rw [h]
theorem MemorySide.power : t.power = s.power := by rw [h]
theorem MemorySide.plumb : t.plumb = s.plumb := by rw [h]
theorem MemorySide.now : t.now = s.now := by rw [h]
theorem MemorySide.getQueue (q : Nat) : getQueue t q = getQueue s q := by rw [Machine.getQueue, h.queues]; rfl
theorem MemorySide.getCore (c : Nat) : getCore t c = getCore s c := by rw [Machine.getCore, h.cores]; rfl
theorem MemorySide.getPool (p : Nat) : getPool t p = getPool s p := by rw [Machine.getPool, h.pools]; rfl
theorem MemorySide.nodeOf (q n : Nat) : nodeOf t q n = nodeOf s q n := by rw [Machine.nodeOf, h.getQueue]; rfl
theorem MemorySide.pktOf (q n f : Nat) : pktOf t q n f = pktOf s q n f := by rw [Machine.pktOf, h.nodeOf]; rfl
end

end Sys2Proof.Machine
end

