-- ==== Sys2Proof/Laws/Home.lean ====
section
/-!
SUPPORT. What an access at the home of a line may change of the package.
-/

namespace Sys2Proof.Machine

/-- What a home access may change: memory and its markers, the caches of the towers, free values and what goes to the Span. -/
def HomeSide (s t : State) : Prop :=
  t = { s with free := t.free, mem := t.mem, lost := t.lost, restored := t.restored, towers := t.towers, span := t.span }

theorem HomeSide.refl (s : State) : HomeSide s s := rfl
theorem HomeSide.trans {a s t : State} (h : HomeSide a s) (g : HomeSide s t) : HomeSide a t := by
  unfold HomeSide at *
  rw [g, h]
theorem HomeSide.rest {a s : State} {free : Nat} {mem : List Host.Cell}
    {lost : Tab (Option Lost)} {restored : List Nat} 
    {towers : Tab TowerSt} {span : SpanSt} (h : HomeSide a s) : HomeSide a (State.mk s.now free s.cores s.queues
      s.ctxs s.lastPop s.gangs s.nextGang s.schEpoch s.schCfg s.pools s.poolEpoch s.epochDue s.lateEv mem lost restored s.owner s.ownCmd s.ownAt
      s.hlb s.hubX s.migr s.hbm s.memcfg towers s.flush s.mortar s.lintel span s.plumb s.host s.power s.rst s.store s.key s.pins s.pending) := by
  unfold HomeSide at *
  rw [h]

theorem setTower_home {a s : State} (h : HomeSide a s) {x : Nat} {k : TowerSt} : HomeSide a (setTower s x k) := h.rest

theorem withMem_home {a s : State} (h : HomeSide a s) {m : List Host.Cell} : HomeSide a (withMem s m) := h.rest

theorem withSpan_home {a s : State} (h : HomeSide a s) {k : SpanSt} : HomeSide a (withSpan s k) := h.rest

theorem ite_home {a s t : State} {c : Prop} [Decidable c] (h : HomeSide a s) (g : HomeSide a t) : HomeSide a (if c then s else t) := by
  split
  · exact h
  · exact g

theorem forEach_home {α : Type} {f : State → α → State} {l : List α} {a s : State} (h : HomeSide a s)
    (hf : ∀ s x, HomeSide a s → HomeSide a (f s x)) : HomeSide a (forEach s l f) := by
  induction l generalizing s with
  | nil => exact h
  | cons x l ih => exact ih (hf s x h)

theorem modTower_home {a₀ : State} {s : State} {t : ℕ} {f : TowerSt → TowerSt} (hk : HomeSide a₀ s) : HomeSide a₀ (modTower s t f) := by
  unfold modTower
  repeat' (first | (with_reducible (first | (assumption) | (apply setTower_home))))

theorem clearMarker_home {a₀ : State} {s : State} {x : ℕ} (hk : HomeSide a₀ s) : HomeSide a₀ (clearMarker s x) := by
  exact hk.rest

theorem homeLeave_home {a₀ : State} {s : State} {v : QLine} (hk : HomeSide a₀ s) : HomeSide a₀ (homeLeave s v) := by
  unfold homeLeave
  repeat' (first | (with_reducible (first | (assumption) | (apply clearMarker_home) | (apply withMem_home) | (refine ite_home ?_ ?_))))

theorem homePlace_home {a₀ : State} {s : State} {x : ℕ} {l : QLine} (hk : HomeSide a₀ s) : HomeSide a₀ (homePlace s x l) := by
  unfold homePlace
  repeat' (first | (with_reducible (first | (assumption) | (apply homeLeave_home) | (apply setTower_home) | (refine ite_home ?_ ?_) | split | (intro _) | (dsimp only))))

theorem homeUpdate_home {a₀ : State} {s : State} {ctx : ℕ} {x : ℕ} {bs : List Byte} {whole : Bool} {nc : Bool} (hk : HomeSide a₀ s) : HomeSide a₀ (homeUpdate s ctx x bs whole nc) := by
  unfold homeUpdate
  repeat' (first | (with_reducible (first | (assumption) | (apply homePlace_home) | (refine ite_home ?_ ?_) | split)))

theorem homeWrite_home {a₀ : State} {s : State} {sys : Bool} {ctx : ℕ} {x : ℕ} {bs : List Byte} {nc : Bool} (hk : HomeSide a₀ s) : HomeSide a₀ (homeWrite s sys ctx x bs nc).2 := by
  unfold homeWrite
  repeat' (first | (with_reducible (first | (assumption) | (apply clearMarker_home) | (apply withMem_home) | (apply homeUpdate_home) | (refine ite_home ?_ ?_) | split | (intro _) | (dsimp only))))

theorem homeWrite_home_of {a₀ z : State} {s : State} {sys : Bool} {ctx : ℕ} {x : ℕ} {bs : List Byte} {nc : Bool} {y0 : Code} (he : homeWrite s sys ctx x bs nc = (y0, z)) (hk : HomeSide a₀ s) : HomeSide a₀ z := by
  have := homeWrite_home (s := s) (sys := sys) (ctx := ctx) (x := x) (bs := bs) (nc := nc) hk
  rwa [he] at this

theorem remoteSend_home {a₀ : State} {s : State} {user : RemUser} {op : BitVec 8} {ga : ℕ} {ctx : ℕ} {n : ℕ} {func : ℕ} {asz : Bool} {data : List Byte} (hk : HomeSide a₀ s) : HomeSide a₀ (remoteSend s user op ga ctx n func asz data) := by
  unfold remoteSend
  repeat' (first | (with_reducible (first | (assumption) | (apply withSpan_home) | (refine ite_home ?_ ?_) | split | (intro _) | (dsimp only))) | (apply HomeSide.rest; with_reducible (first | (assumption) | (apply withSpan_home))))

theorem writeBack_home {a₀ : State} {s : State} {l : RlcLine} (hk : HomeSide a₀ s) : HomeSide a₀ (writeBack s l) := by
  unfold writeBack
  repeat' (first | (with_reducible (first | (assumption) | (apply homeWrite_home) | (refine homeWrite_home_of (by assumption) ?_) | (apply remoteSend_home) | (refine ite_home ?_ ?_) | split | (intro _) | (dsimp only))) | (apply HomeSide.rest; with_reducible (first | (assumption) | (apply homeWrite_home) | (refine homeWrite_home_of (by assumption) ?_) | (apply remoteSend_home))))

theorem recallLine_home {a₀ : State} {s : State} {key : BitVec 64} {write : Bool} {keep : ℕ} (hk : HomeSide a₀ s) : HomeSide a₀ (recallLine s key write keep) := by
  unfold recallLine
  repeat' (first | (with_reducible (first | (assumption) | (apply setTower_home) | (apply writeBack_home) | (refine forEach_home ?_ ?_) | (refine ite_home ?_ ?_) | split | (intro _) | (dsimp only))) | (apply HomeSide.rest; with_reducible (first | (assumption) | (apply setTower_home) | (apply writeBack_home) | (refine forEach_home ?_ ?_))))

variable {s t : State} (h : HomeSide s t)
include h

theorem HomeSide.cores : t.cores = s.cores := by rw [h]
theorem HomeSide.queues : t.queues = s.queues := by rw [h]
theorem HomeSide.ctxs : t.ctxs = s.ctxs := by rw [h]
theorem HomeSide.gangs : t.gangs = s.gangs := by rw [h]
theorem HomeSide.pools : t.pools = s.pools := by rw [h]
theorem HomeSide.owner : t.owner = s.owner := by rw [h]
theorem HomeSide.ownCmd : t.ownCmd = s.ownCmd := by rw [h]
theorem HomeSide.hlb : t.hlb = s.hlb := by rw [h]
theorem HomeSide.hubX : t.hubX = s.hubX := by rw [h]
theorem HomeSide.migr : t.migr = s.migr := by rw [h]
theorem HomeSide.lateEv : t.lateEv = s.lateEv := by rw [h]
theorem HomeSide.host : t.host = s.host := by rw [h]
theorem HomeSide.key : t.key = s.key := by rw [h]
theorem HomeSide.power : t.power = s.power := by rw [h]
theorem HomeSide.plumb : t.plumb = s.plumb := by rw [h]
theorem HomeSide.now : t.now = s.now := by rw [h]
theorem HomeSide.getCore (c : Nat) : getCore t c = getCore s c := by rw [Machine.getCore, h.cores]; rfl
theorem HomeSide.getCtx (x : Nat) : getCtx t x = getCtx s x := by rw [Machine.getCtx, h.ctxs]; rfl

end Sys2Proof.Machine
end

