-- ==== Sys2Proof/Laws/KeepsOps.lean ====
section
/-!
SUPPORT. The operations of memory at its homes, records and interrupts leave the clock and the waiting commands alone and keep the canonical form.
-/

namespace Sys2Proof.Machine

theorem modCore_keeps {a₀ : State} {s : State} {c : ℕ} {f : CoreSt → CoreSt} (hk : Keeps a₀ s) : Keeps a₀ (modCore s c f) := by
  unfold modCore
  repeat' (first | (with_reducible (first | (assumption) | (apply setCore_keeps) | (refine ite_keeps ?_ ?_) | split | (intro _) | (dsimp only))) | (apply Keeps.rest; with_reducible (first | (assumption) | (apply setCore_keeps))))

theorem modQueue_keeps {a₀ : State} {s : State} {q : ℕ} {f : Queue → Queue} (hk : Keeps a₀ s) : Keeps a₀ (modQueue s q f) := by
  unfold modQueue
  repeat' (first | (with_reducible (first | (assumption) | (apply setQueue_keeps) | (refine ite_keeps ?_ ?_) | split | (intro _) | (dsimp only))) | (apply Keeps.rest; with_reducible (first | (assumption) | (apply setQueue_keeps))))

theorem modCtx_keeps {a₀ : State} {s : State} {x : ℕ} {f : Ctx → Ctx} (hk : Keeps a₀ s) : Keeps a₀ (modCtx s x f) := by
  unfold modCtx
  repeat' (first | (with_reducible (first | (assumption) | (apply setCtx_keeps) | (refine ite_keeps ?_ ?_) | split | (intro _) | (dsimp only))) | (apply Keeps.rest; with_reducible (first | (assumption) | (apply setCtx_keeps))))

theorem modPool_keeps {a₀ : State} {s : State} {p : ℕ} {f : Pool → Pool} (hk : Keeps a₀ s) : Keeps a₀ (modPool s p f) := by
  unfold modPool
  repeat' (first | (with_reducible (first | (assumption) | (apply setPool_keeps) | (refine ite_keeps ?_ ?_) | split | (intro _) | (dsimp only))) | (apply Keeps.rest; with_reducible (first | (assumption) | (apply setPool_keeps))))

theorem modHbm_keeps {a₀ : State} {s : State} {c : ℕ} {f : HbmChan → HbmChan} (hk : Keeps a₀ s) : Keeps a₀ (modHbm s c f) := by
  unfold modHbm
  repeat' (first | (with_reducible (first | (assumption) | (apply setHbm_keeps) | (refine ite_keeps ?_ ?_) | split | (intro _) | (dsimp only))) | (apply Keeps.rest; with_reducible (first | (assumption) | (apply setHbm_keeps))))

theorem modTower_keeps {a₀ : State} {s : State} {t : ℕ} {f : TowerSt → TowerSt} (hk : Keeps a₀ s) : Keeps a₀ (modTower s t f) := by
  unfold modTower
  repeat' (first | (with_reducible (first | (assumption) | (apply setTower_keeps) | (refine ite_keeps ?_ ?_) | split | (intro _) | (dsimp only))) | (apply Keeps.rest; with_reducible (first | (assumption) | (apply setTower_keeps))))

theorem setPort_keeps {a₀ : State} {s : State} {p : ℕ} {k : PortSt} (hk : Keeps a₀ s) : Keeps a₀ (setPort s p k) := by
  unfold setPort
  repeat' (first | (with_reducible (first | (assumption) | (apply withSpan_keeps) | (refine ite_keeps ?_ ?_) | split | (intro _) | (dsimp only))) | (apply Keeps.rest; with_reducible (first | (assumption) | (apply withSpan_keeps))))

theorem modPort_keeps {a₀ : State} {s : State} {p : ℕ} {f : PortSt → PortSt} (hk : Keeps a₀ s) : Keeps a₀ (modPort s p f) := by
  unfold modPort
  repeat' (first | (with_reducible (first | (assumption) | (apply setPort_keeps) | (refine ite_keeps ?_ ?_) | split | (intro _) | (dsimp only))) | (apply Keeps.rest; with_reducible (first | (assumption) | (apply setPort_keeps))))

theorem setDom_keeps {a₀ : State} {s : State} {d : ℕ} {k : Dom} (hk : Keeps a₀ s) : Keeps a₀ (setDom s d k) := by
  unfold setDom
  repeat' (first | (with_reducible (first | (assumption) | (apply withPower_keeps) | (refine ite_keeps ?_ ?_) | split | (intro _) | (dsimp only))) | (apply Keeps.rest; with_reducible (first | (assumption) | (apply withPower_keeps))))

theorem setGroup_keeps {a₀ : State} {s : State} {g : ℕ} {k : GroupClk} (hk : Keeps a₀ s) : Keeps a₀ (setGroup s g k) := by
  unfold setGroup
  repeat' (first | (with_reducible (first | (assumption) | (apply withPower_keeps) | (refine ite_keeps ?_ ?_) | split | (intro _) | (dsimp only))) | (apply Keeps.rest; with_reducible (first | (assumption) | (apply withPower_keeps))))

theorem setMod_keeps {a₀ : State} {s : State} {k : ℕ} {m : Mod} (hk : Keeps a₀ s) : Keeps a₀ (setMod s k m) := by
  unfold setMod
  repeat' (first | (with_reducible (first | (assumption) | (apply withPower_keeps) | (refine ite_keeps ?_ ?_) | split | (intro _) | (dsimp only))) | (apply Keeps.rest; with_reducible (first | (assumption) | (apply withPower_keeps))))

theorem setMbox_keeps {a₀ : State} {s : State} {m : ℕ} {k : Mbox} (hk : Keeps a₀ s) : Keeps a₀ (setMbox s m k) := by
  unfold setMbox
  repeat' (first | (with_reducible (first | (assumption) | (apply withKey_keeps) | (refine ite_keeps ?_ ?_) | split | (intro _) | (dsimp only))) | (apply Keeps.rest; with_reducible (first | (assumption) | (apply withKey_keeps))))

theorem freshBits_keeps {a₀ : State} {s : State} {w : ℕ} (hk : Keeps a₀ s) : Keeps a₀ (freshBits s w).2 := by
  unfold freshBits
  repeat' (first | (with_reducible (first | (assumption) | (refine ite_keeps ?_ ?_) | split | (intro _) | (dsimp only))) | (apply Keeps.rest; with_reducible (first | (assumption))))

theorem freshBits_keeps_of {a₀ z : State} {s : State} {w : ℕ} {y0 : BitVec w} (he : freshBits s w = (y0, z)) (hk : Keeps a₀ s) : Keeps a₀ z := by
  have := freshBits_keeps (s := s) (w := w) hk
  rwa [he] at this

theorem freshBytes_keeps {a₀ : State} {s : State} {n : ℕ} (hk : Keeps a₀ s) : Keeps a₀ (freshBytes s n).2 := by
  unfold freshBytes
  repeat' (first | (with_reducible (first | (assumption) | (refine ite_keeps ?_ ?_) | split | (intro _) | (dsimp only))) | (apply Keeps.rest; with_reducible (first | (assumption))))

theorem freshBytes_keeps_of {a₀ z : State} {s : State} {n : ℕ} {y0 : List Byte} (he : freshBytes s n = (y0, z)) (hk : Keeps a₀ s) : Keeps a₀ z := by
  have := freshBytes_keeps (s := s) (n := n) hk
  rwa [he] at this

theorem racedView_keeps {a₀ s : State} {seen m : List Host.Cell} (hk : Keeps a₀ s) : Keeps a₀ (racedView s seen m).2 := by
  unfold racedView
  split
  · exact hk
  · exact freshBytes_keeps hk

theorem racedView_keeps_of {a₀ z s : State} {seen m y : List Host.Cell} (he : racedView s seen m = (y, z)) (hk : Keeps a₀ s) :
    Keeps a₀ z := by
  have := racedView_keeps (seen := seen) (m := m) hk
  rwa [he] at this

theorem m0Irq_keeps {a₀ : State} {s : State} {b : Byte} (hk : Keeps a₀ s) : Keeps a₀ (m0Irq s b) := by
  unfold m0Irq
  repeat' (first | (with_reducible (first | (assumption) | (apply withPins_keeps) | (refine ite_keeps ?_ ?_) | split | (intro _) | (dsimp only))) | (apply Keeps.rest; with_reducible (first | (assumption) | (apply withPins_keeps))))

theorem sendMsg_keeps {a₀ : State} {s : State} {v : ℕ} {e : BitVec 128} (hk : Keeps a₀ s) : Keeps a₀ (sendMsg s v e) := by
  unfold sendMsg
  repeat' (first | (with_reducible (first | (assumption) | (apply withHost_keeps) | (refine ite_keeps ?_ ?_) | split | (intro _) | (dsimp only))) | (apply Keeps.rest; with_reducible (first | (assumption) | (apply withHost_keeps))))

theorem interrupt_keeps {a₀ : State} {s : State} {v : ℕ} (hk : Keeps a₀ s) : Keeps a₀ (interrupt s v) := by
  unfold interrupt
  repeat' (first | (with_reducible (first | (assumption) | (apply sendMsg_keeps) | (apply withHost_keeps) | (refine ite_keeps ?_ ?_) | split | (intro _) | (dsimp only))) | (apply Keeps.rest; with_reducible (first | (assumption) | (apply sendMsg_keeps) | (apply withHost_keeps))))

theorem mbIrq_keeps {a₀ : State} {s : State} {m : ℕ} {b : Byte} (hk : Keeps a₀ s) : Keeps a₀ (mbIrq s m b) := by
  unfold mbIrq
  repeat' (first | (with_reducible (first | (assumption) | (apply interrupt_keeps) | (apply m0Irq_keeps) | (refine ite_keeps ?_ ?_) | split | (intro _) | (dsimp only))) | (apply Keeps.rest; with_reducible (first | (assumption) | (apply interrupt_keeps) | (apply m0Irq_keeps))))

theorem rasToRing_keeps {a₀ : State} {s : State} {m : ℕ} {r : List Byte} (hk : Keeps a₀ s) : Keeps a₀ (rasToRing s m r) := by
  unfold rasToRing
  repeat' (first | (with_reducible (first | (assumption) | (apply mbIrq_keeps) | (apply setMbox_keeps) | (refine ite_keeps ?_ ?_) | split | (intro _) | (dsimp only))) | (apply Keeps.rest; with_reducible (first | (assumption) | (apply mbIrq_keeps) | (apply setMbox_keeps))))

theorem rasTo_keeps {a₀ : State} {s : State} {ms : List ℕ} {code : Code} {kind : ℕ} {queue : ℕ} {unit : BitVec 32} {ctx : ℕ} {detail : ℕ} (hk : Keeps a₀ s) : Keeps a₀ (rasTo s ms code kind queue unit ctx detail) := by
  unfold rasTo
  repeat' (first | (with_reducible (first | (assumption) | (apply rasToRing_keeps) | (apply withKey_keeps) | (refine forEach_keeps ?_ ?_) | (refine ite_keeps ?_ ?_) | split | (intro _) | (dsimp only))) | (apply Keeps.rest; with_reducible (first | (assumption) | (apply rasToRing_keeps) | (apply withKey_keeps) | (refine forEach_keeps ?_ ?_))))

theorem ras_keeps {a₀ : State} {s : State} {code : Code} {kind : ℕ} {unit : BitVec 32} {detail : ℕ} (hk : Keeps a₀ s) : Keeps a₀ (ras s code kind unit detail) := by
  unfold ras
  repeat' (first | (with_reducible (first | (assumption) | (apply rasTo_keeps) | (refine ite_keeps ?_ ?_) | split | (intro _) | (dsimp only))) | (apply Keeps.rest; with_reducible (first | (assumption) | (apply rasTo_keeps))))

theorem clearMarker_keeps {a₀ : State} {s : State} {x : ℕ} (hk : Keeps a₀ s) : Keeps a₀ (clearMarker s x) := by
  exact ⟨hk.pending, hk.now, fun c => { hk.canon c with lost := tabWf_tset (hk.canon c).lost _ _ }⟩

theorem homeLeave_keeps {a₀ : State} {s : State} {v : QLine} (hk : Keeps a₀ s) : Keeps a₀ (homeLeave s v) := by
  unfold homeLeave
  repeat' (first | (with_reducible (first | (assumption) | (apply clearMarker_keeps) | (refine withMem_keeps ?_ (Memory.wf_wrN _ _)) | (refine ite_keeps ?_ ?_) | split | (intro _) | (dsimp only))) | (apply Keeps.rest; with_reducible (first | (assumption) | (apply clearMarker_keeps) | (refine withMem_keeps ?_ (Memory.wf_wrN _ _)))))

theorem homePlace_keeps {a₀ : State} {s : State} {x : ℕ} {l : QLine} (hk : Keeps a₀ s) : Keeps a₀ (homePlace s x l) := by
  unfold homePlace
  repeat' (first | (with_reducible (first | (assumption) | (apply homeLeave_keeps) | (apply setTower_keeps) | (refine ite_keeps ?_ ?_) | split | (intro _) | (dsimp only))) | (apply Keeps.rest; with_reducible (first | (assumption) | (apply homeLeave_keeps) | (apply setTower_keeps))))

theorem homeLine_keeps {a₀ : State} {s : State} {ctx : ℕ} {x : ℕ} {nc : Bool} (hk : Keeps a₀ s) : Keeps a₀ (homeLine s ctx x nc).2.2 := by
  unfold homeLine
  repeat' (first | (with_reducible (first | (assumption) | (apply homePlace_keeps) | (refine ite_keeps ?_ ?_) | split | (intro _) | (dsimp only))) | (apply Keeps.rest; with_reducible (first | (assumption) | (apply homePlace_keeps))) | (with_reducible (first | (injections; subst_vars) | (rename_i heq; revert heq; split <;> (intro heq; first | (cases heq) | skip)))))

theorem homeLine_keeps_of {a₀ z : State} {s : State} {ctx : ℕ} {x : ℕ} {nc : Bool} {y0 : Code} {y1 : List Byte} (he : homeLine s ctx x nc = (y0, y1, z)) (hk : Keeps a₀ s) : Keeps a₀ z := by
  have := homeLine_keeps (s := s) (ctx := ctx) (x := x) (nc := nc) hk
  rwa [he] at this

theorem homeRead_keeps {a₀ : State} {s : State} {sys : Bool} {ctx : ℕ} {x : ℕ} {n : ℕ} {nc : Bool} (hk : Keeps a₀ s) : Keeps a₀ (homeRead s sys ctx x n nc).2.2 := by
  unfold homeRead
  repeat' (first | (with_reducible (first | (assumption) | (apply homeLine_keeps) | (refine homeLine_keeps_of (by assumption) ?_) | (refine ite_keeps ?_ ?_) | split | (intro _) | (dsimp only))) | (apply Keeps.rest; with_reducible (first | (assumption) | (apply homeLine_keeps) | (refine homeLine_keeps_of (by assumption) ?_))))

theorem homeRead_keeps_of {a₀ z : State} {s : State} {sys : Bool} {ctx : ℕ} {x : ℕ} {n : ℕ} {nc : Bool} {y0 : Code} {y1 : List Byte} (he : homeRead s sys ctx x n nc = (y0, y1, z)) (hk : Keeps a₀ s) : Keeps a₀ z := by
  have := homeRead_keeps (s := s) (sys := sys) (ctx := ctx) (x := x) (n := n) (nc := nc) hk
  rwa [he] at this

theorem homeUpdate_keeps {a₀ : State} {s : State} {ctx : ℕ} {x : ℕ} {bs : List Byte} {whole : Bool} {nc : Bool} (hk : Keeps a₀ s) : Keeps a₀ (homeUpdate s ctx x bs whole nc) := by
  unfold homeUpdate
  repeat' (first | (with_reducible (first | (assumption) | (apply homePlace_keeps) | (refine ite_keeps ?_ ?_) | split | (intro _) | (dsimp only))) | (apply Keeps.rest; with_reducible (first | (assumption) | (apply homePlace_keeps))))

theorem homeWrite_keeps {a₀ : State} {s : State} {sys : Bool} {ctx : ℕ} {x : ℕ} {bs : List Byte} {nc : Bool} (hk : Keeps a₀ s) : Keeps a₀ (homeWrite s sys ctx x bs nc).2 := by
  unfold homeWrite
  repeat' (first | (with_reducible (first | (assumption) | (apply clearMarker_keeps) | (refine withMem_keeps ?_ (Memory.wf_wrN _ _)) | (apply homeUpdate_keeps) | (refine ite_keeps ?_ ?_) | split | (intro _) | (dsimp only))) | (apply Keeps.rest; with_reducible (first | (assumption) | (apply clearMarker_keeps) | (refine withMem_keeps ?_ (Memory.wf_wrN _ _)) | (apply homeUpdate_keeps))))

theorem homeWrite_keeps_of {a₀ z : State} {s : State} {sys : Bool} {ctx : ℕ} {x : ℕ} {bs : List Byte} {nc : Bool} {y0 : Code} (he : homeWrite s sys ctx x bs nc = (y0, z)) (hk : Keeps a₀ s) : Keeps a₀ z := by
  have := homeWrite_keeps (s := s) (sys := sys) (ctx := ctx) (x := x) (bs := bs) (nc := nc) hk
  rwa [he] at this

theorem homeAtomic_keeps {a₀ : State} {s : State} {sys : Bool} {ctx : ℕ} {x : ℕ} {n : ℕ} {func : ℕ} {b : ℕ} {c : ℕ} {nc : Bool} (hk : Keeps a₀ s) : Keeps a₀ (homeAtomic s sys ctx x n func b c nc).2.2 := by
  unfold homeAtomic
  repeat' (first | (with_reducible (first | (assumption) | (apply homeRead_keeps) | (refine homeRead_keeps_of (by assumption) ?_) | (apply homeWrite_keeps) | (refine homeWrite_keeps_of (by assumption) ?_) | (refine ite_keeps ?_ ?_) | split | (intro _) | (dsimp only))) | (apply Keeps.rest; with_reducible (first | (assumption) | (apply homeRead_keeps) | (refine homeRead_keeps_of (by assumption) ?_) | (apply homeWrite_keeps) | (refine homeWrite_keeps_of (by assumption) ?_))))

theorem homeAtomic_keeps_of {a₀ z : State} {s : State} {sys : Bool} {ctx : ℕ} {x : ℕ} {n : ℕ} {func : ℕ} {b : ℕ} {c : ℕ} {nc : Bool} {y0 : Code} {y1 : ℕ} (he : homeAtomic s sys ctx x n func b c nc = (y0, y1, z)) (hk : Keeps a₀ s) : Keeps a₀ z := by
  have := homeAtomic_keeps (s := s) (sys := sys) (ctx := ctx) (x := x) (n := n) (func := func) (b := b) (c := c) (nc := nc) hk
  rwa [he] at this

end Sys2Proof.Machine
end

