-- ==== Sys2Proof/Laws/KeepsTranslate.lean ====
section
/-!
SUPPORT. The operations of the RLC and the accesses of the hub leave the clock and the waiting commands alone and keep the canonical form.
-/

namespace Sys2Proof.Machine

theorem xfault_keeps {a₀ : State} {s : State} {x : ℕ} {code : Code} {cause : ℕ} {need : Need} {src : ℕ} {core : ℕ} {va : BitVec 64} (hk : Keeps a₀ s) : Keeps a₀ (xfault s x code cause need src core va) := by
  unfold xfault
  repeat' (first | (with_reducible (first | (assumption) | (apply modCtx_keeps) | (refine ite_keeps ?_ ?_) | split | (intro _) | (dsimp only))) | (apply Keeps.rest; with_reducible (first | (assumption) | (apply modCtx_keeps))))

theorem remoteSend_keeps {a₀ : State} {s : State} {user : RemUser} {op : BitVec 8} {ga : ℕ} {ctx : ℕ} {n : ℕ} {func : ℕ} {asz : Bool} {data : List Byte} (hk : Keeps a₀ s) : Keeps a₀ (remoteSend s user op ga ctx n func asz data) := by
  unfold remoteSend
  repeat' (first | (with_reducible (first | (assumption) | (apply withSpan_keeps) | (refine ite_keeps ?_ ?_) | split | (intro _) | (dsimp only))) | (apply Keeps.rest; with_reducible (first | (assumption) | (apply withSpan_keeps))))

theorem remoteAsk_keeps {a₀ : State} {s : State} {op : BitVec 8} {ga : ℕ} {ctx : ℕ} {n : ℕ} {func : ℕ} {asz : Bool} {data : List Byte} (hk : Keeps a₀ s) : Keeps a₀ (remoteAsk s op ga ctx n func asz data) := by
  unfold remoteAsk
  repeat' (first | (with_reducible (first | (assumption) | (apply withSpan_keeps) | (refine ite_keeps ?_ ?_) | split | (intro _) | (dsimp only))) | (apply Keeps.rest; with_reducible (first | (assumption) | (apply withSpan_keeps))))

theorem outSend_keeps {a₀ : State} {s : State} {user : RemUser} {ctx : ℕ} {addr : ℕ} {write : Option (List Byte)} {n : ℕ} (hk : Keeps a₀ s) : Keeps a₀ (outSend s user ctx addr write n) := by
  unfold outSend
  repeat' (first | (with_reducible (first | (assumption) | (apply withHost_keeps) | (refine ite_keeps ?_ ?_) | split | (intro _) | (dsimp only))) | (apply Keeps.rest; with_reducible (first | (assumption) | (apply withHost_keeps))))

theorem freeAnswer_keeps {a₀ : State} {s : State} {fail : Code → Code} {n : ℕ} (hk : Keeps a₀ s) : Keeps a₀ (freeAnswer s fail n).2.2 := by
  unfold freeAnswer
  repeat' (first | (with_reducible (first | (assumption) | (apply freshBits_keeps) | (refine freshBits_keeps_of (by assumption) ?_) | (apply freshBytes_keeps) | (refine freshBytes_keeps_of (by assumption) ?_) | (refine ite_keeps ?_ ?_) | split | (intro _) | (dsimp only))) | (apply Keeps.rest; with_reducible (first | (assumption) | (apply freshBits_keeps) | (refine freshBits_keeps_of (by assumption) ?_) | (apply freshBytes_keeps) | (refine freshBytes_keeps_of (by assumption) ?_))))

theorem freeAnswer_keeps_of {a₀ z : State} {s : State} {fail : Code → Code} {n : ℕ} {y0 : Code} {y1 : List Byte} (he : freeAnswer s fail n = (y0, y1, z)) (hk : Keeps a₀ s) : Keeps a₀ z := by
  have := freeAnswer_keeps (s := s) (fail := fail) (n := n) hk
  rwa [he] at this

theorem spanAnswer_keeps {a₀ : State} {s : State} {ga : ℕ} {r : Reply} {skip : ℕ} {n : ℕ} (hk : Keeps a₀ s) : Keeps a₀ (spanAnswer s ga r skip n).2.2 := by
  unfold spanAnswer
  repeat' (first | (with_reducible (first | (assumption) | (apply freeAnswer_keeps) | (refine freeAnswer_keeps_of (by assumption) ?_) | (refine ite_keeps ?_ ?_) | split | (intro _) | (dsimp only))) | (apply Keeps.rest; with_reducible (first | (assumption) | (apply freeAnswer_keeps) | (refine freeAnswer_keeps_of (by assumption) ?_))))

theorem spanAnswer_keeps_of {a₀ z : State} {s : State} {ga : ℕ} {r : Reply} {skip : ℕ} {n : ℕ} {y0 : Code} {y1 : List Byte} (he : spanAnswer s ga r skip n = (y0, y1, z)) (hk : Keeps a₀ s) : Keeps a₀ z := by
  have := spanAnswer_keeps (s := s) (ga := ga) (r := r) (skip := skip) (n := n) hk
  rwa [he] at this

theorem busAnswer_keeps {a₀ : State} {s : State} {r : Reply} {skip : ℕ} {n : ℕ} (hk : Keeps a₀ s) : Keeps a₀ (busAnswer s r skip n).2.2 := by
  unfold busAnswer
  repeat' (first | (with_reducible (first | (assumption) | (apply freeAnswer_keeps) | (refine freeAnswer_keeps_of (by assumption) ?_) | (refine ite_keeps ?_ ?_) | split | (intro _) | (dsimp only))) | (apply Keeps.rest; with_reducible (first | (assumption) | (apply freeAnswer_keeps) | (refine freeAnswer_keeps_of (by assumption) ?_))))

theorem busAnswer_keeps_of {a₀ z : State} {s : State} {r : Reply} {skip : ℕ} {n : ℕ} {y0 : Code} {y1 : List Byte} (he : busAnswer s r skip n = (y0, y1, z)) (hk : Keeps a₀ s) : Keeps a₀ z := by
  have := busAnswer_keeps (s := s) (r := r) (skip := skip) (n := n) hk
  rwa [he] at this

theorem writeBack_keeps {a₀ : State} {s : State} {l : RlcLine} (hk : Keeps a₀ s) : Keeps a₀ (writeBack s l) := by
  unfold writeBack
  repeat' (first | (with_reducible (first | (assumption) | (apply homeWrite_keeps) | (refine homeWrite_keeps_of (by assumption) ?_) | (apply remoteSend_keeps) | (refine ite_keeps ?_ ?_) | split | (intro _) | (dsimp only))) | (apply Keeps.rest; with_reducible (first | (assumption) | (apply homeWrite_keeps) | (refine homeWrite_keeps_of (by assumption) ?_) | (apply remoteSend_keeps))))

theorem intakeFull_keeps {a₀ : State} {s : State} (hk : Keeps a₀ s) : Keeps a₀ (intakeFull s).2 := by
  unfold intakeFull
  repeat' (first | (with_reducible (first | (assumption) | (apply freshBits_keeps) | (refine freshBits_keeps_of (by assumption) ?_) | (refine ite_keeps ?_ ?_) | split | (intro _) | (dsimp only))) | (apply Keeps.rest; with_reducible (first | (assumption) | (apply freshBits_keeps) | (refine freshBits_keeps_of (by assumption) ?_))))

theorem intakeFull_keeps_of {a₀ z : State} {s : State} {y0 : Bool} (he : intakeFull s = (y0, z)) (hk : Keeps a₀ s) : Keeps a₀ z := by
  have := intakeFull_keeps (s := s) hk
  rwa [he] at this

theorem offerVictim_keeps {a₀ : State} {s : State} {t : ℕ} {l : RlcLine} (hk : Keeps a₀ s) : Keeps a₀ (offerVictim s t l) := by
  unfold offerVictim
  repeat' (first | (with_reducible (first | (assumption) | (apply intakeFull_keeps) | (refine intakeFull_keeps_of (by assumption) ?_) | (apply setTower_keeps) | (refine ite_keeps ?_ ?_) | split | (intro _) | (dsimp only))) | (apply Keeps.rest; with_reducible (first | (assumption) | (apply intakeFull_keeps) | (refine intakeFull_keeps_of (by assumption) ?_) | (apply setTower_keeps))))

theorem rlcEvicted_keeps {a₀ : State} {s : State} {t : ℕ} {l : RlcLine} (hk : Keeps a₀ s) : Keeps a₀ (rlcEvicted s t l) := by
  unfold rlcEvicted
  repeat' (first | (with_reducible (first | (assumption) | (apply intakeFull_keeps) | (refine intakeFull_keeps_of (by assumption) ?_) | (apply writeBack_keeps) | (apply homePlace_keeps) | (apply offerVictim_keeps) | (refine ite_keeps ?_ ?_) | split | (intro _) | (dsimp only))) | (apply Keeps.rest; with_reducible (first | (assumption) | (apply intakeFull_keeps) | (refine intakeFull_keeps_of (by assumption) ?_) | (apply writeBack_keeps) | (apply homePlace_keeps) | (apply offerVictim_keeps))))

theorem rlcPut_keeps {a₀ : State} {s : State} {t : ℕ} {rest : List RlcLine} {l : RlcLine} {lru : Bool} (hk : Keeps a₀ s) : Keeps a₀ (rlcPut s t rest l lru) := by
  unfold rlcPut
  repeat' (first | (with_reducible (first | (assumption) | (apply modTower_keeps) | (refine ite_keeps ?_ ?_) | split | (intro _) | (dsimp only))) | (apply Keeps.rest; with_reducible (first | (assumption) | (apply modTower_keeps))))

theorem rlcInstall_keeps {a₀ : State} {s : State} {t : ℕ} {l : RlcLine} {lru : Bool} (hk : Keeps a₀ s) : Keeps a₀ (rlcInstall s t l lru) := by
  unfold rlcInstall
  repeat' (first | (with_reducible (first | (assumption) | (apply rlcEvicted_keeps) | (apply rlcPut_keeps) | (refine ite_keeps ?_ ?_) | split | (intro _) | (dsimp only))) | (apply Keeps.rest; with_reducible (first | (assumption) | (apply rlcEvicted_keeps) | (apply rlcPut_keeps))))

theorem recallLine_keeps {a₀ : State} {s : State} {key : BitVec 64} {write : Bool} {keep : ℕ} (hk : Keeps a₀ s) : Keeps a₀ (recallLine s key write keep) := by
  unfold recallLine
  repeat' (first | (with_reducible (first | (assumption) | (apply setTower_keeps) | (apply writeBack_keeps) | (refine forEach_keeps ?_ ?_) | (refine ite_keeps ?_ ?_) | split | (intro _) | (dsimp only))) | (apply Keeps.rest; with_reducible (first | (assumption) | (apply setTower_keeps) | (apply writeBack_keeps) | (refine forEach_keeps ?_ ?_))))

theorem hereRead_keeps {a₀ : State} {s : State} {d : ℕ} {sys : Bool} {ctx : ℕ} {x : ℕ} {n : ℕ} {nc : Bool} (hk : Keeps a₀ s) : Keeps a₀ (hereRead s d sys ctx x n nc).2.2 := by
  unfold hereRead
  repeat' (first | (with_reducible (first | (assumption) | (apply recallLine_keeps) | (apply homeRead_keeps) | (refine homeRead_keeps_of (by assumption) ?_) | (refine ite_keeps ?_ ?_) | split | (intro _) | (dsimp only))) | (apply Keeps.rest; with_reducible (first | (assumption) | (apply recallLine_keeps) | (apply homeRead_keeps) | (refine homeRead_keeps_of (by assumption) ?_))))

theorem hereRead_keeps_of {a₀ z : State} {s : State} {d : ℕ} {sys : Bool} {ctx : ℕ} {x : ℕ} {n : ℕ} {nc : Bool} {y0 : Code} {y1 : List Byte} (he : hereRead s d sys ctx x n nc = (y0, y1, z)) (hk : Keeps a₀ s) : Keeps a₀ z := by
  have := hereRead_keeps (s := s) (d := d) (sys := sys) (ctx := ctx) (x := x) (n := n) (nc := nc) hk
  rwa [he] at this

theorem hereWrite_keeps {a₀ : State} {s : State} {d : ℕ} {sys : Bool} {ctx : ℕ} {x : ℕ} {bs : List Byte} {nc : Bool} (hk : Keeps a₀ s) : Keeps a₀ (hereWrite s d sys ctx x bs nc).2 := by
  unfold hereWrite
  repeat' (first | (with_reducible (first | (assumption) | (apply recallLine_keeps) | (apply homeWrite_keeps) | (refine homeWrite_keeps_of (by assumption) ?_) | (refine ite_keeps ?_ ?_) | split | (intro _) | (dsimp only))) | (apply Keeps.rest; with_reducible (first | (assumption) | (apply recallLine_keeps) | (apply homeWrite_keeps) | (refine homeWrite_keeps_of (by assumption) ?_))))

theorem hereWrite_keeps_of {a₀ z : State} {s : State} {d : ℕ} {sys : Bool} {ctx : ℕ} {x : ℕ} {bs : List Byte} {nc : Bool} {y0 : Code} (he : hereWrite s d sys ctx x bs nc = (y0, z)) (hk : Keeps a₀ s) : Keeps a₀ z := by
  have := hereWrite_keeps (s := s) (d := d) (sys := sys) (ctx := ctx) (x := x) (bs := bs) (nc := nc) hk
  rwa [he] at this

theorem hereAtomic_keeps {a₀ : State} {s : State} {d : ℕ} {ctx : ℕ} {x : ℕ} {n : ℕ} {func : ℕ} {b : ℕ} {c : ℕ} {nc : Bool} (hk : Keeps a₀ s) : Keeps a₀ (hereAtomic s d ctx x n func b c nc).2.2 := by
  unfold hereAtomic
  repeat' (first | (with_reducible (first | (assumption) | (apply recallLine_keeps) | (apply homeAtomic_keeps) | (refine homeAtomic_keeps_of (by assumption) ?_) | (refine ite_keeps ?_ ?_) | split | (intro _) | (dsimp only))) | (apply Keeps.rest; with_reducible (first | (assumption) | (apply recallLine_keeps) | (apply homeAtomic_keeps) | (refine homeAtomic_keeps_of (by assumption) ?_))))

theorem hereAtomic_keeps_of {a₀ z : State} {s : State} {d : ℕ} {ctx : ℕ} {x : ℕ} {n : ℕ} {func : ℕ} {b : ℕ} {c : ℕ} {nc : Bool} {y0 : Code} {y1 : ℕ} (he : hereAtomic s d ctx x n func b c nc = (y0, y1, z)) (hk : Keeps a₀ s) : Keeps a₀ z := by
  have := hereAtomic_keeps (s := s) (d := d) (ctx := ctx) (x := x) (n := n) (func := func) (b := b) (c := c) (nc := nc) hk
  rwa [he] at this

theorem fetchHere_keeps {a₀ : State} {s : State} {t : ℕ} {ctx : ℕ} {x : ℕ} {nc : Bool} (hk : Keeps a₀ s) : Keeps a₀ (fetchHere s t ctx x nc).2.2 := by
  unfold fetchHere
  repeat' (first | (with_reducible (first | (assumption) | (apply hereRead_keeps) | (refine hereRead_keeps_of (by assumption) ?_) | (refine ite_keeps ?_ ?_) | split | (intro _) | (dsimp only))) | (apply Keeps.rest; with_reducible (first | (assumption) | (apply hereRead_keeps) | (refine hereRead_keeps_of (by assumption) ?_))))

theorem fetchHere_keeps_of {a₀ z : State} {s : State} {t : ℕ} {ctx : ℕ} {x : ℕ} {nc : Bool} {y0 : Code} {y1 : List Byte} (he : fetchHere s t ctx x nc = (y0, y1, z)) (hk : Keeps a₀ s) : Keeps a₀ z := by
  have := fetchHere_keeps (s := s) (t := t) (ctx := ctx) (x := x) (nc := nc) hk
  rwa [he] at this

theorem remoteMode_keeps {a₀ : State} {s : State} {ctx : ℕ} (hk : Keeps a₀ s) : Keeps a₀ (remoteMode s ctx).2 := by
  unfold remoteMode
  repeat' (first | (with_reducible (first | (assumption) | (apply freshBits_keeps) | (refine freshBits_keeps_of (by assumption) ?_) | (refine ite_keeps ?_ ?_) | split | (intro _) | (dsimp only))) | (apply Keeps.rest; with_reducible (first | (assumption) | (apply freshBits_keeps) | (refine freshBits_keeps_of (by assumption) ?_))))

theorem remoteMode_keeps_of {a₀ z : State} {s : State} {ctx : ℕ} {y0 : BitVec 16} (he : remoteMode s ctx = (y0, z)) (hk : Keeps a₀ s) : Keeps a₀ z := by
  have := remoteMode_keeps (s := s) (ctx := ctx) hk
  rwa [he] at this

theorem fetchRemote_keeps {a₀ : State} {s : State} {key : BitVec 64} {ctx : ℕ} {ext : Option (BitVec 512)} (hk : Keeps a₀ s) : Keeps a₀ (fetchRemote s key ctx ext).2.2 := by
  unfold fetchRemote
  repeat' (first | (with_reducible (first | (assumption) | (apply remoteAsk_keeps) | (apply spanAnswer_keeps) | (refine spanAnswer_keeps_of (by assumption) ?_) | (refine ite_keeps ?_ ?_) | split | (intro _) | (dsimp only))) | (apply Keeps.rest; with_reducible (first | (assumption) | (apply remoteAsk_keeps) | (apply spanAnswer_keeps) | (refine spanAnswer_keeps_of (by assumption) ?_))))

theorem fetchRemote_keeps_of {a₀ z : State} {s : State} {key : BitVec 64} {ctx : ℕ} {ext : Option (BitVec 512)} {y0 : Code} {y1 : List Byte} (he : fetchRemote s key ctx ext = (y0, y1, z)) (hk : Keeps a₀ s) : Keeps a₀ z := by
  have := fetchRemote_keeps (s := s) (key := key) (ctx := ctx) (ext := ext) hk
  rwa [he] at this

theorem rlcFill_keeps {a₀ : State} {s : State} {t : ℕ} {key : BitVec 64} {ctx : ℕ} {d : BitVec 512} {dirty : Bool} {pf : Bool} {lru : Bool} (hk : Keeps a₀ s) : Keeps a₀ (rlcFill s t key ctx d dirty pf lru) := by
  unfold rlcFill
  repeat' (first | (with_reducible (first | (assumption) | (apply rlcInstall_keeps) | (apply remoteMode_keeps) | (refine remoteMode_keeps_of (by assumption) ?_) | (refine ite_keeps ?_ ?_) | split | (intro _) | (dsimp only))) | (apply Keeps.rest; with_reducible (first | (assumption) | (apply rlcInstall_keeps) | (apply remoteMode_keeps) | (refine remoteMode_keeps_of (by assumption) ?_))))

theorem rlcFetch_keeps {a₀ : State} {s : State} {t : ℕ} {key : BitVec 64} {ctx : ℕ} {nc : Bool} {ext : Option (BitVec 512)} (hk : Keeps a₀ s) : Keeps a₀ (rlcFetch s t key ctx nc ext).2.2 := by
  unfold rlcFetch
  repeat' (first | (with_reducible (first | (assumption) | (apply fetchHere_keeps) | (refine fetchHere_keeps_of (by assumption) ?_) | (apply fetchRemote_keeps) | (refine fetchRemote_keeps_of (by assumption) ?_) | (refine ite_keeps ?_ ?_) | split | (intro _) | (dsimp only))) | (apply Keeps.rest; with_reducible (first | (assumption) | (apply fetchHere_keeps) | (refine fetchHere_keeps_of (by assumption) ?_) | (apply fetchRemote_keeps) | (refine fetchRemote_keeps_of (by assumption) ?_))))

theorem rlcFetch_keeps_of {a₀ z : State} {s : State} {t : ℕ} {key : BitVec 64} {ctx : ℕ} {nc : Bool} {ext : Option (BitVec 512)} {y0 : Code} {y1 : List Byte} (he : rlcFetch s t key ctx nc ext = (y0, y1, z)) (hk : Keeps a₀ s) : Keeps a₀ z := by
  have := rlcFetch_keeps (s := s) (t := t) (key := key) (ctx := ctx) (nc := nc) (ext := ext) hk
  rwa [he] at this

theorem rlcPrefetch_keeps {a₀ : State} {s : State} {t : ℕ} {key : BitVec 64} {rq : RlcUser} {ctx : ℕ} {nc : Bool} {ext2 : Option (BitVec 512)} (hk : Keeps a₀ s) : Keeps a₀ (rlcPrefetch s t key rq ctx nc ext2) := by
  unfold rlcPrefetch
  repeat' (first | (with_reducible (first | (assumption) | (apply rlcFetch_keeps) | (refine rlcFetch_keeps_of (by assumption) ?_) | (apply rlcFill_keeps) | (refine ite_keeps ?_ ?_) | split | (intro _) | (dsimp only))) | (apply Keeps.rest; with_reducible (first | (assumption) | (apply rlcFetch_keeps) | (refine rlcFetch_keeps_of (by assumption) ?_) | (apply rlcFill_keeps))))

theorem rlcDrop_keeps {a₀ : State} {s : State} {t : ℕ} {key : BitVec 64} (hk : Keeps a₀ s) : Keeps a₀ (rlcDrop s t key) := by
  unfold rlcDrop
  repeat' (first | (with_reducible (first | (assumption) | (apply writeBack_keeps) | (apply modTower_keeps) | (refine ite_keeps ?_ ?_) | split | (intro _) | (dsimp only))) | (apply Keeps.rest; with_reducible (first | (assumption) | (apply writeBack_keeps) | (apply modTower_keeps))))

theorem victimDrop_keeps {a₀ : State} {s : State} {t : ℕ} {key : BitVec 64} (hk : Keeps a₀ s) : Keeps a₀ (victimDrop s t key) := by
  unfold victimDrop
  repeat' (first | (with_reducible (first | (assumption) | (apply modTower_keeps) | (refine ite_keeps ?_ ?_) | split | (intro _) | (dsimp only))) | (apply Keeps.rest; with_reducible (first | (assumption) | (apply modTower_keeps))))

theorem rlcBypass_keeps {a₀ : State} {s : State} {t : ℕ} {key : BitVec 64} (hk : Keeps a₀ s) : Keeps a₀ (rlcBypass s t key) := by
  unfold rlcBypass
  repeat' (first | (with_reducible (first | (assumption) | (apply rlcDrop_keeps) | (apply victimDrop_keeps) | (refine ite_keeps ?_ ?_) | split | (intro _) | (dsimp only))) | (apply Keeps.rest; with_reducible (first | (assumption) | (apply rlcDrop_keeps) | (apply victimDrop_keeps))))

theorem rlcRead_keeps {a₀ : State} {s : State} {t : ℕ} {rq : RlcUser} {key : BitVec 64} {ctx : ℕ} {nc : Bool} {ext : Option (BitVec 512)} {ext2 : Option (BitVec 512)} (hk : Keeps a₀ s) : Keeps a₀ (rlcRead s t rq key ctx nc ext ext2).2.2 := by
  unfold rlcRead
  repeat' (first | (with_reducible (first | (assumption) | (apply rlcDrop_keeps) | (apply rlcFetch_keeps) | (refine rlcFetch_keeps_of (by assumption) ?_) | (apply rlcFill_keeps) | (apply hereRead_keeps) | (refine hereRead_keeps_of (by assumption) ?_) | (apply rlcInstall_keeps) | (apply fetchRemote_keeps) | (refine fetchRemote_keeps_of (by assumption) ?_) | (apply rlcBypass_keeps) | (apply rlcPrefetch_keeps) | (apply modTower_keeps) | (apply victimDrop_keeps) | (refine ite_keeps ?_ ?_) | split | (intro _) | (dsimp only))) | (apply Keeps.rest; with_reducible (first | (assumption) | (apply rlcDrop_keeps) | (apply rlcFetch_keeps) | (refine rlcFetch_keeps_of (by assumption) ?_) | (apply rlcFill_keeps) | (apply hereRead_keeps) | (refine hereRead_keeps_of (by assumption) ?_) | (apply rlcInstall_keeps) | (apply fetchRemote_keeps) | (refine fetchRemote_keeps_of (by assumption) ?_) | (apply rlcBypass_keeps) | (apply rlcPrefetch_keeps) | (apply modTower_keeps) | (apply victimDrop_keeps))) | (with_reducible (first | (injections; subst_vars) | (rename_i heq; revert heq; split <;> (intro heq; first | (cases heq) | skip)))))

theorem rlcRead_keeps_of {a₀ z : State} {s : State} {t : ℕ} {rq : RlcUser} {key : BitVec 64} {ctx : ℕ} {nc : Bool} {ext : Option (BitVec 512)} {ext2 : Option (BitVec 512)} {y0 : Code} {y1 : List Byte} (he : rlcRead s t rq key ctx nc ext ext2 = (y0, y1, z)) (hk : Keeps a₀ s) : Keeps a₀ z := by
  have := rlcRead_keeps (s := s) (t := t) (rq := rq) (key := key) (ctx := ctx) (nc := nc) (ext := ext) (ext2 := ext2) hk
  rwa [he] at this

theorem streamStep_keeps {a₀ : State} {s : State} {rq : RlcUser} {key : BitVec 64} (hk : Keeps a₀ s) : Keeps a₀ (streamStep s rq key).1 := by
  unfold streamStep
  repeat' (first | (with_reducible (first | (assumption) | (apply setCore_keeps) | (refine ite_keeps ?_ ?_) | split | (intro _) | (dsimp only))) | (apply Keeps.rest; with_reducible (first | (assumption) | (apply setCore_keeps))))

theorem streamStep_keeps_of {a₀ z : State} {s : State} {rq : RlcUser} {key : BitVec 64} {y1 : ℕ} (he : streamStep s rq key = (z, y1)) (hk : Keeps a₀ s) : Keeps a₀ z := by
  have := streamStep_keeps (s := s) (rq := rq) (key := key) hk
  rwa [he] at this

theorem rlcClear_keeps {a₀ : State} {s : State} {t : ℕ} {key : BitVec 64} (hk : Keeps a₀ s) : Keeps a₀ (rlcClear s t key) := by
  unfold rlcClear
  repeat' (first | (with_reducible (first | (assumption) | (apply recallLine_keeps) | (apply rlcBypass_keeps) | (refine ite_keeps ?_ ?_) | split | (intro _) | (dsimp only))) | (apply Keeps.rest; with_reducible (first | (assumption) | (apply recallLine_keeps) | (apply rlcBypass_keeps))))

theorem rlcTryWrite_keeps_of {a₀ z : State} {s : State} {t : ℕ} {run : ℕ} {rq : RlcUser} {key : BitVec 64} {ctx : ℕ} {nc : Bool} {off : ℕ} {bs : List Byte} {ext : Option (BitVec 512)} {y0 : Code} (he : rlcTryWrite s t run rq key ctx nc off bs ext = some (y0, z)) (hk : Keeps a₀ s) : Keeps a₀ z := by
  unfold rlcTryWrite at he
  repeat' (first | split at he | (simp only [Option.some.injEq, Prod.mk.injEq, reduceCtorEq] at he) | (obtain ⟨-, rfl⟩ := he) | (subst he))
  all_goals repeat' (first | (with_reducible (first | (assumption) | (apply rlcFetch_keeps) | (refine rlcFetch_keeps_of (by assumption) ?_) | (apply recallLine_keeps) | (apply rlcFill_keeps) | (apply rlcClear_keeps) | (apply modTower_keeps) | (refine ite_keeps ?_ ?_) | split | (intro _) | (dsimp only))) | (apply Keeps.rest; with_reducible (first | (assumption) | (apply rlcFetch_keeps) | (refine rlcFetch_keeps_of (by assumption) ?_) | (apply recallLine_keeps) | (apply rlcFill_keeps) | (apply rlcClear_keeps) | (apply modTower_keeps))) | (with_reducible (first | (injections; subst_vars) | (rename_i heq; revert heq; split <;> (intro heq; first | (cases heq) | skip)))))

theorem homeWriteFrom_keeps {a₀ : State} {s : State} {t : ℕ} {user : RemUser} {key : BitVec 64} {ctx : ℕ} {nc : Bool} {off : ℕ} {bs : List Byte} (hk : Keeps a₀ s) : Keeps a₀ (homeWriteFrom s t user key ctx nc off bs).2 := by
  unfold homeWriteFrom
  repeat' (first | (with_reducible (first | (assumption) | (apply rlcBypass_keeps) | (apply hereWrite_keeps) | (refine hereWrite_keeps_of (by assumption) ?_) | (apply remoteSend_keeps) | (refine ite_keeps ?_ ?_) | split | (intro _) | (dsimp only))) | (apply Keeps.rest; with_reducible (first | (assumption) | (apply rlcBypass_keeps) | (apply hereWrite_keeps) | (refine hereWrite_keeps_of (by assumption) ?_) | (apply remoteSend_keeps))))

theorem homeWriteFrom_keeps_of {a₀ z : State} {s : State} {t : ℕ} {user : RemUser} {key : BitVec 64} {ctx : ℕ} {nc : Bool} {off : ℕ} {bs : List Byte} {y0 : Code} (he : homeWriteFrom s t user key ctx nc off bs = (y0, z)) (hk : Keeps a₀ s) : Keeps a₀ z := by
  have := homeWriteFrom_keeps (s := s) (t := t) (user := user) (key := key) (ctx := ctx) (nc := nc) (off := off) (bs := bs) hk
  rwa [he] at this

theorem rlcWrite_keeps {a₀ : State} {s : State} {t : ℕ} {rq : RlcUser} {key : BitVec 64} {ctx : ℕ} {nc : Bool} {off : ℕ} {bs : List Byte} {ext : Option (BitVec 512)} (hk : Keeps a₀ s) : Keeps a₀ (rlcWrite s t rq key ctx nc off bs ext).2 := by
  unfold rlcWrite
  repeat' (first | (with_reducible (first | (assumption) | (apply streamStep_keeps) | (refine streamStep_keeps_of (by assumption) ?_) | (refine rlcTryWrite_keeps_of (by assumption) ?_) | (apply homeWriteFrom_keeps) | (refine homeWriteFrom_keeps_of (by assumption) ?_) | (refine ite_keeps ?_ ?_) | split | (intro _) | (dsimp only))) | (apply Keeps.rest; with_reducible (first | (assumption) | (apply streamStep_keeps) | (refine streamStep_keeps_of (by assumption) ?_) | (refine rlcTryWrite_keeps_of (by assumption) ?_) | (apply homeWriteFrom_keeps) | (refine homeWriteFrom_keeps_of (by assumption) ?_))))

theorem rlcWrite_keeps_of {a₀ z : State} {s : State} {t : ℕ} {rq : RlcUser} {key : BitVec 64} {ctx : ℕ} {nc : Bool} {off : ℕ} {bs : List Byte} {ext : Option (BitVec 512)} {y0 : Code} (he : rlcWrite s t rq key ctx nc off bs ext = (y0, z)) (hk : Keeps a₀ s) : Keeps a₀ z := by
  have := rlcWrite_keeps (s := s) (t := t) (rq := rq) (key := key) (ctx := ctx) (nc := nc) (off := off) (bs := bs) (ext := ext) hk
  rwa [he] at this

theorem sysRead_keeps {a₀ : State} {s : State} {d : ℕ} {x : ℕ} {n : ℕ} (hk : Keeps a₀ s) : Keeps a₀ (sysRead s d x n).2.2 := by
  unfold sysRead
  repeat' (first | (with_reducible (first | (assumption) | (apply hereRead_keeps) | (refine hereRead_keeps_of (by assumption) ?_) | (refine ite_keeps ?_ ?_) | split | (intro _) | (dsimp only))) | (apply Keeps.rest; with_reducible (first | (assumption) | (apply hereRead_keeps) | (refine hereRead_keeps_of (by assumption) ?_))))

theorem sysRead_keeps_of {a₀ z : State} {s : State} {d : ℕ} {x : ℕ} {n : ℕ} {y0 : Code} {y1 : ℕ} (he : sysRead s d x n = (y0, y1, z)) (hk : Keeps a₀ s) : Keeps a₀ z := by
  have := sysRead_keeps (s := s) (d := d) (x := x) (n := n) hk
  rwa [he] at this

theorem sysWrite_keeps {a₀ : State} {s : State} {d : ℕ} {x : ℕ} {bs : List Byte} (hk : Keeps a₀ s) : Keeps a₀ (sysWrite s d x bs).2 := by
  unfold sysWrite
  repeat' (first | (with_reducible (first | (assumption) | (apply hereWrite_keeps) | (refine hereWrite_keeps_of (by assumption) ?_) | (refine ite_keeps ?_ ?_) | split | (intro _) | (dsimp only))) | (apply Keeps.rest; with_reducible (first | (assumption) | (apply hereWrite_keeps) | (refine hereWrite_keeps_of (by assumption) ?_))))

theorem sysWrite_keeps_of {a₀ z : State} {s : State} {d : ℕ} {x : ℕ} {bs : List Byte} {y0 : Code} (he : sysWrite s d x bs = (y0, z)) (hk : Keeps a₀ s) : Keeps a₀ z := by
  have := sysWrite_keeps (s := s) (d := d) (x := x) (bs := bs) hk
  rwa [he] at this

theorem searchLoop_keeps {a₀ : State} {d base vp n : ℕ} {s : State} {i : ℕ} {e : Option (BitVec 256)} (hk : Keeps a₀ s) :
    Keeps a₀ (searchLoop d base vp n s i e).2.2.2 := by
  induction n generalizing s i e with
  | zero => exact hk
  | succ n ih =>
    rw [searchLoop]
    have h : Keeps a₀ (sysRead s d (base + 32 * (i + 2 ^ n)) 32).2.2 := sysRead_keeps hk
    revert h
    generalize sysRead s d (base + 32 * (i + 2 ^ n)) 32 = z
    intro h
    dsimp only
    split
    · exact h
    · split
      · exact ih h
      · exact ih h

theorem search_keeps {a₀ : State} {s : State} {d base log2n : ℕ} {en : Bool} {vp : ℕ} (hk : Keeps a₀ s) :
    Keeps a₀ (search s d base log2n en vp).2 := by
  unfold search
  split
  · exact hk
  · have h : Keeps a₀ (searchLoop d base vp log2n s 0 none).2.2.2 := searchLoop_keeps hk
    revert h
    generalize searchLoop d base vp log2n s 0 none = z
    obtain ⟨c, i, e, s1⟩ := z
    intro h
    dsimp only
    split
    · exact h
    · cases e with
      | some e =>
        dsimp only
        split
        · exact h
        · split <;> exact h
      | none =>
        have g : Keeps a₀ (sysRead s1 d base 32).2.2 := sysRead_keeps h
        revert g
        generalize sysRead s1 d base 32 = z
        intro g
        dsimp only
        split
        · exact g
        · split <;> exact g

theorem search_keeps_of {a₀ z : State} {s : State} {d base log2n : ℕ} {en : Bool} {vp : ℕ} {y0 : Found}
    (he : search s d base log2n en vp = (y0, z)) (hk : Keeps a₀ s) : Keeps a₀ z := by
  have := search_keeps (d := d) (base := base) (log2n := log2n) (en := en) (vp := vp) hk
  rwa [he] at this

theorem descOf_keeps {a₀ : State} {s : State} {d : ℕ} {md : BitVec 64} {e : BitVec 256} (hk : Keeps a₀ s) : Keeps a₀ (descOf s d md e).2.2 := by
  unfold descOf
  repeat' (first | (with_reducible (first | (assumption) | (apply sysRead_keeps) | (refine sysRead_keeps_of (by assumption) ?_) | (refine ite_keeps ?_ ?_) | split | (intro _) | (dsimp only))) | (apply Keeps.rest; with_reducible (first | (assumption) | (apply sysRead_keeps) | (refine sysRead_keeps_of (by assumption) ?_))))

theorem descOf_keeps_of {a₀ z : State} {s : State} {d : ℕ} {md : BitVec 64} {e : BitVec 256} {y0 : Code} {y1 : BitVec 256} (he : descOf s d md e = (y0, y1, z)) (hk : Keeps a₀ s) : Keeps a₀ z := by
  have := descOf_keeps (s := s) (d := d) (md := md) (e := e) hk
  rwa [he] at this

theorem searchFill_keeps {a₀ : State} {s : State} {d : ℕ} {x : ℕ} {base : ℕ} {log2n : ℕ} {en : Bool} {md : BitVec 64} {vp : ℕ} (hk : Keeps a₀ s) : Keeps a₀ (searchFill s d x base log2n en md vp).2 := by
  unfold searchFill
  repeat' (first | (with_reducible (first | (assumption) | (apply search_keeps) | (refine search_keeps_of (by assumption) ?_) | (apply descOf_keeps) | (refine descOf_keeps_of (by assumption) ?_) | (refine ite_keeps ?_ ?_) | split | (intro _) | (dsimp only))) | (apply Keeps.rest; with_reducible (first | (assumption) | (apply search_keeps) | (refine search_keeps_of (by assumption) ?_) | (apply descOf_keeps) | (refine descOf_keeps_of (by assumption) ?_))))

theorem searchFill_keeps_of {a₀ z : State} {s : State} {d : ℕ} {x : ℕ} {base : ℕ} {log2n : ℕ} {en : Bool} {md : BitVec 64} {vp : ℕ} {y0 : (LbEntry ⊕ Code × ℕ)} (he : searchFill s d x base log2n en md vp = (y0, z)) (hk : Keeps a₀ s) : Keeps a₀ z := by
  have := searchFill_keeps (s := s) (d := d) (x := x) (base := base) (log2n := log2n) (en := en) (md := md) (vp := vp) hk
  rwa [he] at this

theorem countWait_keeps {a₀ : State} {s : State} {x : ℕ} (hk : Keeps a₀ s) : Keeps a₀ (countWait s x) := by
  unfold countWait
  repeat' (first | (with_reducible (first | (assumption) | (apply modCtx_keeps) | (refine ite_keeps ?_ ?_) | split | (intro _) | (dsimp only))) | (apply Keeps.rest; with_reducible (first | (assumption) | (apply modCtx_keeps))))

theorem migrIssue_keeps {a₀ : State} {s : State} {m : Migr} (hk : Keeps a₀ s) : Keeps a₀ (migrIssue s m) := by
  unfold migrIssue
  repeat' (first | (with_reducible (first | (assumption) | (apply rlcDrop_keeps) | (apply remoteAsk_keeps) | (apply outSend_keeps) | (refine forEach_keeps ?_ ?_) | (refine ite_keeps ?_ ?_) | split | (intro _) | (dsimp only))) | (apply Keeps.rest; with_reducible (first | (assumption) | (apply rlcDrop_keeps) | (apply remoteAsk_keeps) | (apply outSend_keeps) | (refine forEach_keeps ?_ ?_))))

theorem migrHand_keeps {a₀ : State} {s : State} {m : Migr} (hk : Keeps a₀ s) : Keeps a₀ (migrHand s m) := by
  unfold migrHand
  repeat' (first | (with_reducible (first | (assumption) | (apply migrIssue_keeps) | (refine ite_keeps ?_ ?_) | split | (intro _) | (dsimp only))) | (apply Keeps.rest; with_reducible (first | (assumption) | (apply migrIssue_keeps))))

theorem resolve_keeps {a₀ : State} {s : State} {x : ℕ} {l : LbEntry} {va : BitVec 64} {need : Need} {hallRefuses : Bool} {d : ℕ} (hk : Keeps a₀ s) : Keeps a₀ (resolve s x l va need hallRefuses d).2.2 := by
  unfold resolve
  repeat' (first | (with_reducible (first | (assumption) | (apply migrHand_keeps) | (apply sysRead_keeps) | (refine sysRead_keeps_of (by assumption) ?_) | (apply sysWrite_keeps) | (refine sysWrite_keeps_of (by assumption) ?_) | (refine ite_keeps ?_ ?_) | split | (intro _) | (dsimp only))) | (apply Keeps.rest; with_reducible (first | (assumption) | (apply migrHand_keeps) | (apply sysRead_keeps) | (refine sysRead_keeps_of (by assumption) ?_) | (apply sysWrite_keeps) | (refine sysWrite_keeps_of (by assumption) ?_))))

theorem resolve_keeps_of {a₀ z : State} {s : State} {x : ℕ} {l : LbEntry} {va : BitVec 64} {need : Need} {hallRefuses : Bool} {d : ℕ} {y0 : XSt} {y1 : LbEntry} (he : resolve s x l va need hallRefuses d = (y0, y1, z)) (hk : Keeps a₀ s) : Keeps a₀ z := by
  have := resolve_keeps (s := s) (x := x) (l := l) (va := va) (need := need) (hallRefuses := hallRefuses) (d := d) hk
  rwa [he] at this

theorem hubEntry_keeps {a₀ : State} {s : State} {x : ℕ} {va : BitVec 64} (hk : Keeps a₀ s) : Keeps a₀ (hubEntry s x va).2 := by
  unfold hubEntry
  repeat' (first | (with_reducible (first | (assumption) | (apply searchFill_keeps) | (refine searchFill_keeps_of (by assumption) ?_) | (refine ite_keeps ?_ ?_) | split | (intro _) | (dsimp only))) | (apply Keeps.rest; with_reducible (first | (assumption) | (apply searchFill_keeps) | (refine searchFill_keeps_of (by assumption) ?_))))

theorem hubEntry_keeps_of {a₀ z : State} {s : State} {x : ℕ} {va : BitVec 64} {y0 : (LbEntry ⊕ Code × ℕ)} (he : hubEntry s x va = (y0, z)) (hk : Keeps a₀ s) : Keeps a₀ z := by
  have := hubEntry_keeps (s := s) (x := x) (va := va) hk
  rwa [he] at this

theorem hubXlate_keeps {a₀ : State} {s : State} {x : ℕ} {va : BitVec 64} {need : Need} {hallRefuses : Bool} (hk : Keeps a₀ s) : Keeps a₀ (hubXlate s x va need hallRefuses).2 := by
  unfold hubXlate
  repeat' (first | (with_reducible (first | (assumption) | (apply countWait_keeps) | (apply hubEntry_keeps) | (refine hubEntry_keeps_of (by assumption) ?_) | (apply resolve_keeps) | (refine resolve_keeps_of (by assumption) ?_) | (refine ite_keeps ?_ ?_) | split | (intro _) | (dsimp only))) | (apply Keeps.rest; with_reducible (first | (assumption) | (apply countWait_keeps) | (apply hubEntry_keeps) | (refine hubEntry_keeps_of (by assumption) ?_) | (apply resolve_keeps) | (refine resolve_keeps_of (by assumption) ?_))))

theorem hubXlate_keeps_of {a₀ z : State} {s : State} {x : ℕ} {va : BitVec 64} {need : Need} {hallRefuses : Bool} {y0 : XSt} (he : hubXlate s x va need hallRefuses = (y0, z)) (hk : Keeps a₀ s) : Keeps a₀ z := by
  have := hubXlate_keeps (s := s) (x := x) (va := va) (need := need) (hallRefuses := hallRefuses) hk
  rwa [he] at this

theorem ownFault_keeps {a₀ : State} {s : State} {x : ℕ} {code : Code} {need : Need} {src : ℕ} {va : BitVec 64} (hk : Keeps a₀ s) : Keeps a₀ (ownFault s x code need src va) := by
  unfold ownFault
  repeat' (first | (with_reducible (first | (assumption) | (apply xfault_keeps) | (refine ite_keeps ?_ ?_) | split | (intro _) | (dsimp only))) | (apply Keeps.rest; with_reducible (first | (assumption) | (apply xfault_keeps))))

theorem hubLocal_keeps {a₀ : State} {s : State} {x : ℕ} {src : ℕ} {o : ℕ} {nc : Bool} {va : BitVec 64} {need : Need} {n : ℕ} {bs : List Byte} {func : ℕ} {b : ℕ} {c : ℕ} (hk : Keeps a₀ s) : Keeps a₀ (hubLocal s x src o nc va need n bs func b c).s := by
  unfold hubLocal
  repeat' (first | (with_reducible (first | (assumption) | (apply homeRead_keeps) | (refine homeRead_keeps_of (by assumption) ?_) | (apply ownFault_keeps) | (apply hereRead_keeps) | (refine hereRead_keeps_of (by assumption) ?_) | (apply hereWrite_keeps) | (refine hereWrite_keeps_of (by assumption) ?_) | (apply hereAtomic_keeps) | (refine hereAtomic_keeps_of (by assumption) ?_) | (refine ite_keeps ?_ ?_) | split | (intro _) | (dsimp only))) | (apply Keeps.rest; with_reducible (first | (assumption) | (apply homeRead_keeps) | (refine homeRead_keeps_of (by assumption) ?_) | (apply ownFault_keeps) | (apply hereRead_keeps) | (refine hereRead_keeps_of (by assumption) ?_) | (apply hereWrite_keeps) | (refine hereWrite_keeps_of (by assumption) ?_) | (apply hereAtomic_keeps) | (refine hereAtomic_keeps_of (by assumption) ?_))) | (with_reducible (first | (injections; subst_vars) | (rename_i heq; revert heq; split <;> (intro heq; first | (cases heq) | skip)))))

theorem hubLocal_keeps_of {a₀ z : State} {s : State} {x : ℕ} {src : ℕ} {o : ℕ} {nc : Bool} {va : BitVec 64} {need : Need} {n : ℕ} {bs : List Byte} {func : ℕ} {b : ℕ} {c : ℕ} {y1 : Code} {y2 : List Byte} (he : hubLocal s x src o nc va need n bs func b c = ⟨y1, y2, z⟩) (hk : Keeps a₀ s) : Keeps a₀ z := by
  have := hubLocal_keeps (s := s) (x := x) (src := src) (o := o) (nc := nc) (va := va) (need := need) (n := n) (bs := bs) (func := func) (b := b) (c := c) hk
  rwa [he] at this

theorem hubBypass_keeps {a₀ : State} {s : State} {src : ℕ} {ga : BitVec 64} (hk : Keeps a₀ s) : Keeps a₀ (hubBypass s src ga) := by
  unfold hubBypass
  repeat' (first | (with_reducible (first | (assumption) | (apply rlcBypass_keeps) | (refine ite_keeps ?_ ?_) | split | (intro _) | (dsimp only))) | (apply Keeps.rest; with_reducible (first | (assumption) | (apply rlcBypass_keeps))))

theorem hubRemote_keeps {a₀ : State} {s : State} {x : ℕ} {src : ℕ} {ga : BitVec 64} {va : BitVec 64} {need : Need} {n : ℕ} {bs : List Byte} {func : ℕ} {b : ℕ} {c : ℕ} {r : Reply} {skip : ℕ} (hk : Keeps a₀ s) : Keeps a₀ (hubRemote s x src ga va need n bs func b c r skip).s := by
  unfold hubRemote
  repeat' (first | (with_reducible (first | (assumption) | (apply remoteAsk_keeps) | (apply hubBypass_keeps) | (apply ownFault_keeps) | (apply spanAnswer_keeps) | (refine spanAnswer_keeps_of (by assumption) ?_) | (refine ite_keeps ?_ ?_) | split | (intro _) | (dsimp only))) | (apply Keeps.rest; with_reducible (first | (assumption) | (apply remoteAsk_keeps) | (apply hubBypass_keeps) | (apply ownFault_keeps) | (apply spanAnswer_keeps) | (refine spanAnswer_keeps_of (by assumption) ?_))) | (with_reducible (first | (injections; subst_vars) | (rename_i heq; revert heq; split <;> (intro heq; first | (cases heq) | skip)))))

theorem hubRemote_keeps_of {a₀ z : State} {s : State} {x : ℕ} {src : ℕ} {ga : BitVec 64} {va : BitVec 64} {need : Need} {n : ℕ} {bs : List Byte} {func : ℕ} {b : ℕ} {c : ℕ} {r : Reply} {skip : ℕ} {y1 : Code} {y2 : List Byte} (he : hubRemote s x src ga va need n bs func b c r skip = ⟨y1, y2, z⟩) (hk : Keeps a₀ s) : Keeps a₀ z := by
  have := hubRemote_keeps (s := s) (x := x) (src := src) (ga := ga) (va := va) (need := need) (n := n) (bs := bs) (func := func) (b := b) (c := c) (r := r) (skip := skip) hk
  rwa [he] at this

theorem hubBus_keeps {a₀ : State} {s : State} {x : ℕ} {src : ℕ} {a : ℕ} {va : BitVec 64} {need : Need} {n : ℕ} {bs : List Byte} {r : Reply} {skip : ℕ} (hk : Keeps a₀ s) : Keeps a₀ (hubBus s x src a va need n bs r skip).s := by
  unfold hubBus
  repeat' (first | (with_reducible (first | (assumption) | (apply outSend_keeps) | (apply ownFault_keeps) | (apply busAnswer_keeps) | (refine busAnswer_keeps_of (by assumption) ?_) | (refine ite_keeps ?_ ?_) | split | (intro _) | (dsimp only))) | (apply Keeps.rest; with_reducible (first | (assumption) | (apply outSend_keeps) | (apply ownFault_keeps) | (apply busAnswer_keeps) | (refine busAnswer_keeps_of (by assumption) ?_))) | (with_reducible (first | (injections; subst_vars) | (rename_i heq; revert heq; split <;> (intro heq; first | (cases heq) | skip)))))

theorem hubBus_keeps_of {a₀ z : State} {s : State} {x : ℕ} {src : ℕ} {a : ℕ} {va : BitVec 64} {need : Need} {n : ℕ} {bs : List Byte} {r : Reply} {skip : ℕ} {y1 : Code} {y2 : List Byte} (he : hubBus s x src a va need n bs r skip = ⟨y1, y2, z⟩) (hk : Keeps a₀ s) : Keeps a₀ z := by
  have := hubBus_keeps (s := s) (x := x) (src := src) (a := a) (va := va) (need := need) (n := n) (bs := bs) (r := r) (skip := skip) hk
  rwa [he] at this

theorem hubAccess_keeps {a₀ : State} {s : State} {x : ℕ} {src : ℕ} {va : BitVec 64} {need : Need} {n : ℕ} {bs : List Byte} {func : ℕ} {b : ℕ} {c : ℕ} {r : Reply} {skip : ℕ} {hallRefuses : Bool} (hk : Keeps a₀ s) : Keeps a₀ (hubAccess s x src va need n bs func b c r skip hallRefuses).s := by
  unfold hubAccess
  repeat' (first | (with_reducible (first | (assumption) | (apply hubRemote_keeps) | (refine hubRemote_keeps_of (by assumption) ?_) | (apply hubBus_keeps) | (refine hubBus_keeps_of (by assumption) ?_) | (apply xfault_keeps) | (apply hubXlate_keeps) | (refine hubXlate_keeps_of (by assumption) ?_) | (apply hubLocal_keeps) | (refine hubLocal_keeps_of (by assumption) ?_) | (refine ite_keeps ?_ ?_) | split | (intro _) | (dsimp only))) | (apply Keeps.rest; with_reducible (first | (assumption) | (apply hubRemote_keeps) | (refine hubRemote_keeps_of (by assumption) ?_) | (apply hubBus_keeps) | (refine hubBus_keeps_of (by assumption) ?_) | (apply xfault_keeps) | (apply hubXlate_keeps) | (refine hubXlate_keeps_of (by assumption) ?_) | (apply hubLocal_keeps) | (refine hubLocal_keeps_of (by assumption) ?_))))

theorem hubAccess_keeps_of {a₀ z : State} {s : State} {x : ℕ} {src : ℕ} {va : BitVec 64} {need : Need} {n : ℕ} {bs : List Byte} {func : ℕ} {b : ℕ} {c : ℕ} {r : Reply} {skip : ℕ} {hallRefuses : Bool} {y1 : Code} {y2 : List Byte} (he : hubAccess s x src va need n bs func b c r skip hallRefuses = ⟨y1, y2, z⟩) (hk : Keeps a₀ s) : Keeps a₀ z := by
  have := hubAccess_keeps (s := s) (x := x) (src := src) (va := va) (need := need) (n := n) (bs := bs) (func := func) (b := b) (c := c) (r := r) (skip := skip) (hallRefuses := hallRefuses) hk
  rwa [he] at this

theorem hubReadLoop_keeps {a₀ : State} {x : ℕ} {src : ℕ} {need : Need} {hall : Bool} {r : Reply} {L : List (ℕ × ℕ)} {b6 : ℕ} {s : State} {b8 : List Byte} (hk : Keeps a₀ s) : Keeps a₀ (hubReadLoop x src need hall r L b6 s b8).s := by
  induction L generalizing b6 s b8 with
  | nil => exact hk
  | cons p l ih =>
    obtain ⟨a, k⟩ := p
    rw [hubReadLoop]
    repeat' (first | (with_reducible (first | (assumption) | (apply ih) | (apply hubAccess_keeps) | (refine hubAccess_keeps_of (by assumption) ?_) | (refine ite_keeps ?_ ?_) | split | (intro _) | (dsimp only))) | (apply Keeps.rest; with_reducible (first | (assumption) | (apply ih) | (apply hubAccess_keeps) | (refine hubAccess_keeps_of (by assumption) ?_))))

theorem hubReadLoop_keeps_of {a₀ z : State} {x : ℕ} {src : ℕ} {need : Need} {hall : Bool} {r : Reply} {L : List (ℕ × ℕ)} {b6 : ℕ} {s : State} {b8 : List Byte} {y1 : Code} {y2 : List Byte} (he : hubReadLoop x src need hall r L b6 s b8 = ⟨y1, y2, z⟩) (hk : Keeps a₀ s) : Keeps a₀ z := by
  have := hubReadLoop_keeps (x := x) (src := src) (need := need) (hall := hall) (r := r) (L := L) (b6 := b6) (s := s) (b8 := b8) hk
  rwa [he] at this

theorem hubReadBoth_keeps {a₀ : State} {s : State} {x : ℕ} {src : ℕ} {va : BitVec 64} {n : ℕ} {r : Reply} (hk : Keeps a₀ s) : Keeps a₀ (hubReadBoth s x src va n r).s := by
  unfold hubReadBoth
  repeat' (first | (with_reducible (first | (assumption) | (apply hubReadLoop_keeps) | (refine hubReadLoop_keeps_of (by assumption) ?_) | (refine ite_keeps ?_ ?_) | split | (intro _) | (dsimp only))) | (apply Keeps.rest; with_reducible (first | (assumption) | (apply hubReadLoop_keeps) | (refine hubReadLoop_keeps_of (by assumption) ?_))))

theorem hubReadBoth_keeps_of {a₀ z : State} {s : State} {x : ℕ} {src : ℕ} {va : BitVec 64} {n : ℕ} {r : Reply} {y1 : Code} {y2 : List Byte} (he : hubReadBoth s x src va n r = ⟨y1, y2, z⟩) (hk : Keeps a₀ s) : Keeps a₀ z := by
  have := hubReadBoth_keeps (s := s) (x := x) (src := src) (va := va) (n := n) (r := r) hk
  rwa [he] at this

theorem hubRead_keeps {a₀ : State} {s : State} {x : ℕ} {src : ℕ} {va : BitVec 64} {n : ℕ} {r : Reply} (hk : Keeps a₀ s) : Keeps a₀ (hubRead s x src va n r).s := by
  unfold hubRead
  repeat' (first | (with_reducible (first | (assumption) | (apply hubReadLoop_keeps) | (refine hubReadLoop_keeps_of (by assumption) ?_) | (refine ite_keeps ?_ ?_) | split | (intro _) | (dsimp only))) | (apply Keeps.rest; with_reducible (first | (assumption) | (apply hubReadLoop_keeps) | (refine hubReadLoop_keeps_of (by assumption) ?_))))

theorem hubRead_keeps_of {a₀ z : State} {s : State} {x : ℕ} {src : ℕ} {va : BitVec 64} {n : ℕ} {r : Reply} {y1 : Code} {y2 : List Byte} (he : hubRead s x src va n r = ⟨y1, y2, z⟩) (hk : Keeps a₀ s) : Keeps a₀ z := by
  have := hubRead_keeps (s := s) (x := x) (src := src) (va := va) (n := n) (r := r) hk
  rwa [he] at this

theorem hubFlag_keeps {a₀ : State} {s : State} {x : ℕ} {src : ℕ} {va : BitVec 64} {n : ℕ} {r : Reply} (hk : Keeps a₀ s) : Keeps a₀ (hubFlag s x src va n r).s := by
  unfold hubFlag
  repeat' (first | (with_reducible (first | (assumption) | (apply hubReadLoop_keeps) | (refine hubReadLoop_keeps_of (by assumption) ?_) | (refine ite_keeps ?_ ?_) | split | (intro _) | (dsimp only))) | (apply Keeps.rest; with_reducible (first | (assumption) | (apply hubReadLoop_keeps) | (refine hubReadLoop_keeps_of (by assumption) ?_))))

theorem hubFlag_keeps_of {a₀ z : State} {s : State} {x : ℕ} {src : ℕ} {va : BitVec 64} {n : ℕ} {r : Reply} {y1 : Code} {y2 : List Byte} (he : hubFlag s x src va n r = ⟨y1, y2, z⟩) (hk : Keeps a₀ s) : Keeps a₀ z := by
  have := hubFlag_keeps (s := s) (x := x) (src := src) (va := va) (n := n) (r := r) hk
  rwa [he] at this

theorem hubWriteLoop_keeps {a₀ : State} {x : ℕ} {src : ℕ} {need : Need} {r : Reply} {L : List (ℕ × ℕ)} {s : State} {b6 : List Byte} (hk : Keeps a₀ s) : Keeps a₀ (hubWriteLoop x src need r L s b6).s := by
  induction L generalizing s b6 with
  | nil => exact hk
  | cons p l ih =>
    obtain ⟨a, k⟩ := p
    rw [hubWriteLoop]
    repeat' (first | (with_reducible (first | (assumption) | (apply ih) | (apply hubAccess_keeps) | (refine hubAccess_keeps_of (by assumption) ?_) | (refine ite_keeps ?_ ?_) | split | (intro _) | (dsimp only))) | (apply Keeps.rest; with_reducible (first | (assumption) | (apply ih) | (apply hubAccess_keeps) | (refine hubAccess_keeps_of (by assumption) ?_))))

theorem hubWriteLoop_keeps_of {a₀ z : State} {x : ℕ} {src : ℕ} {need : Need} {r : Reply} {L : List (ℕ × ℕ)} {s : State} {b6 : List Byte} {y1 : Code} {y2 : List Byte} (he : hubWriteLoop x src need r L s b6 = ⟨y1, y2, z⟩) (hk : Keeps a₀ s) : Keeps a₀ z := by
  have := hubWriteLoop_keeps (x := x) (src := src) (need := need) (r := r) (L := L) (s := s) (b6 := b6) hk
  rwa [he] at this

theorem hubWrite_keeps {a₀ : State} {s : State} {x : ℕ} {src : ℕ} {va : BitVec 64} {need : Need} {bs : List Byte} {r : Reply} (hk : Keeps a₀ s) : Keeps a₀ (hubWrite s x src va need bs r).s := by
  unfold hubWrite
  repeat' (first | (with_reducible (first | (assumption) | (apply hubWriteLoop_keeps) | (refine hubWriteLoop_keeps_of (by assumption) ?_) | (refine ite_keeps ?_ ?_) | split | (intro _) | (dsimp only))) | (apply Keeps.rest; with_reducible (first | (assumption) | (apply hubWriteLoop_keeps) | (refine hubWriteLoop_keeps_of (by assumption) ?_))))

theorem hubWrite_keeps_of {a₀ z : State} {s : State} {x : ℕ} {src : ℕ} {va : BitVec 64} {need : Need} {bs : List Byte} {r : Reply} {y1 : Code} {y2 : List Byte} (he : hubWrite s x src va need bs r = ⟨y1, y2, z⟩) (hk : Keeps a₀ s) : Keeps a₀ z := by
  have := hubWrite_keeps (s := s) (x := x) (src := src) (va := va) (need := need) (bs := bs) (r := r) hk
  rwa [he] at this

theorem hubAtomic_keeps {a₀ : State} {s : State} {x : ℕ} {src : ℕ} {va : BitVec 64} {n : ℕ} {func : ℕ} {b : ℕ} {c : ℕ} {r : Reply} (hk : Keeps a₀ s) : Keeps a₀ (hubAtomic s x src va n func b c r).s := by
  unfold hubAtomic
  repeat' (first | (with_reducible (first | (assumption) | (apply hubAccess_keeps) | (refine hubAccess_keeps_of (by assumption) ?_) | (refine ite_keeps ?_ ?_) | split | (intro _) | (dsimp only))) | (apply Keeps.rest; with_reducible (first | (assumption) | (apply hubAccess_keeps) | (refine hubAccess_keeps_of (by assumption) ?_))))

theorem hubAtomic_keeps_of {a₀ z : State} {s : State} {x : ℕ} {src : ℕ} {va : BitVec 64} {n : ℕ} {func : ℕ} {b : ℕ} {c : ℕ} {r : Reply} {y1 : Code} {y2 : List Byte} (he : hubAtomic s x src va n func b c r = ⟨y1, y2, z⟩) (hk : Keeps a₀ s) : Keeps a₀ z := by
  have := hubAtomic_keeps (s := s) (x := x) (src := src) (va := va) (n := n) (func := func) (b := b) (c := c) (r := r) hk
  rwa [he] at this

theorem hubProbe_keeps {a₀ : State} {x : ℕ} {L : List (BitVec 64 × Need)} {s : State} (hk : Keeps a₀ s) : Keeps a₀ (hubProbe x L s).2 := by
  induction L generalizing s with
  | nil => exact hk
  | cons p l ih =>
    obtain ⟨va, need⟩ := p
    rw [hubProbe]
    repeat' (first | (with_reducible (first | (assumption) | (apply ih) | (apply hubXlate_keeps) | (refine hubXlate_keeps_of (by assumption) ?_) | (refine ite_keeps ?_ ?_) | split | (intro _) | (dsimp only))) | (apply Keeps.rest; with_reducible (first | (assumption) | (apply ih) | (apply hubXlate_keeps) | (refine hubXlate_keeps_of (by assumption) ?_))))

theorem hubProbe_keeps_of {a₀ z : State} {x : ℕ} {L : List (BitVec 64 × Need)} {s : State} {y0 : Bool} (he : hubProbe x L s = (y0, z)) (hk : Keeps a₀ s) : Keeps a₀ z := by
  have := hubProbe_keeps (x := x) (L := L) (s := s) hk
  rwa [he] at this

end Sys2Proof.Machine
end

