-- ==== Sys2Proof/Laws/KeepsCore.lean ====
section
/-!
SUPPORT. The operations of the sequencer, its accesses and DMA leave the clock and the waiting commands alone and keep the canonical form.
-/

namespace Sys2Proof.Machine

theorem issueCore_keeps {a₀ : State} {s : State} {c : ℕ} {legal : Bool} {regs : List ℕ} {body : CoreSt → CoreSt} (hk : Keeps a₀ s) : Keeps a₀ (issueCore s c legal regs body) := by
  unfold issueCore
  repeat' (first | (with_reducible (first | (assumption) | (apply setCore_keeps) | (refine ite_keeps ?_ ?_) | split | (intro _) | (dsimp only))) | (apply Keeps.rest; with_reducible (first | (assumption) | (apply setCore_keeps))))

theorem scalarOp_keeps {a₀ : State} {c : Core} {w : Bits} {s : State} {legal : Bool} {regs : List ℕ} {f : CoreSt → BitVec 64} (hk : Keeps a₀ s) : KeepsRes a₀ (scalarOp c w s legal regs f) := by
  unfold scalarOp
  repeat' (first | (with_reducible (first | (apply KeepsRes.next) | (assumption) | (apply issueCore_keeps) | (refine iteRes_keeps ?_ ?_) | (refine ite_keeps ?_ ?_) | split | (intro _) | (dsimp only))) | (apply Keeps.rest; with_reducible (first | (apply KeepsRes.next) | (assumption) | (apply issueCore_keeps) | (refine iteRes_keeps ?_ ?_))))

theorem opR_keeps {a₀ : State} {c : Core} {w : Bits} {s : State} {f : BitVec 64 → BitVec 64 → BitVec 64} (hk : Keeps a₀ s) : KeepsRes a₀ (opR c w s f) := by
  unfold opR
  repeat' (first | (with_reducible (first | (apply KeepsRes.next) | (assumption) | (apply scalarOp_keeps) | (refine iteRes_keeps ?_ ?_) | (refine ite_keeps ?_ ?_) | split | (intro _) | (dsimp only))) | (apply Keeps.rest; with_reducible (first | (apply KeepsRes.next) | (assumption) | (apply scalarOp_keeps) | (refine iteRes_keeps ?_ ?_))))

theorem opI_keeps {a₀ : State} {c : Core} {w : Bits} {s : State} {legal : Bool} {f : BitVec 64 → BitVec 64 → BitVec 64} (hk : Keeps a₀ s) : KeepsRes a₀ (opI c w s legal f) := by
  unfold opI
  repeat' (first | (with_reducible (first | (apply KeepsRes.next) | (assumption) | (apply scalarOp_keeps) | (refine iteRes_keeps ?_ ?_) | (refine ite_keeps ?_ ?_) | split | (intro _) | (dsimp only))) | (apply Keeps.rest; with_reducible (first | (apply KeepsRes.next) | (assumption) | (apply scalarOp_keeps) | (refine iteRes_keeps ?_ ?_))))

theorem rlbXlate_keeps_of {a₀ z : State} {s : State} {c : ℕ} {va : BitVec 64} {need : Need} {hallRefuses : Bool} {y0 : XSt} (he : rlbXlate s c va need hallRefuses = some (y0, z)) (hk : Keeps a₀ s) : Keeps a₀ z := by
  unfold rlbXlate at he
  repeat' (first | split at he | (simp only [Option.some.injEq, Prod.mk.injEq, reduceCtorEq] at he) | (obtain ⟨-, rfl⟩ := he) | (subst he))
  all_goals repeat' (first | (with_reducible (first | (assumption) | (apply resolve_keeps) | (refine resolve_keeps_of (by assumption) ?_) | (apply modCore_keeps) | (refine ite_keeps ?_ ?_) | split | (intro _) | (dsimp only))) | (apply Keeps.rest; with_reducible (first | (assumption) | (apply resolve_keeps) | (refine resolve_keeps_of (by assumption) ?_) | (apply modCore_keeps))))

theorem countIfPage_keeps {a₀ : State} {s : State} {c : ℕ} {t : XSt} (hk : Keeps a₀ s) : Keeps a₀ (countIfPage s c t) := by
  unfold countIfPage
  repeat' (first | (with_reducible (first | (assumption) | (apply countWait_keeps) | (refine ite_keeps ?_ ?_) | split | (intro _) | (dsimp only))) | (apply Keeps.rest; with_reducible (first | (assumption) | (apply countWait_keeps))))

theorem searchEnd_keeps {a₀ : State} {s : State} {c : ℕ} {st : XSt} {va : BitVec 64} {need : Need} {hallRefuses : Bool} (hk : Keeps a₀ s) : Keeps a₀ (searchEnd s c st va need hallRefuses).2 := by
  unfold searchEnd
  repeat' (first | (with_reducible (first | (assumption) | (refine rlbXlate_keeps_of (by assumption) ?_) | (apply searchFill_keeps) | (refine searchFill_keeps_of (by assumption) ?_) | (apply modCore_keeps) | (refine ite_keeps ?_ ?_) | split | (intro _) | (dsimp only))) | (apply Keeps.rest; with_reducible (first | (assumption) | (refine rlbXlate_keeps_of (by assumption) ?_) | (apply searchFill_keeps) | (refine searchFill_keeps_of (by assumption) ?_) | (apply modCore_keeps))))

theorem searchEnd_keeps_of {a₀ z : State} {s : State} {c : ℕ} {st : XSt} {va : BitVec 64} {need : Need} {hallRefuses : Bool} {y0 : XSt} (he : searchEnd s c st va need hallRefuses = (y0, z)) (hk : Keeps a₀ s) : Keeps a₀ z := by
  have := searchEnd_keeps (s := s) (c := c) (st := st) (va := va) (need := need) (hallRefuses := hallRefuses) hk
  rwa [he] at this

theorem pageSeen_keeps {a₀ : State} {s : State} {c : ℕ} {va : BitVec 64} {p : ℕ} (hk : Keeps a₀ s) : Keeps a₀ (pageSeen s c va p) := by
  unfold pageSeen
  repeat' (first | (with_reducible (first | (assumption) | (apply modCore_keeps) | (refine ite_keeps ?_ ?_) | split | (intro _) | (dsimp only))) | (apply Keeps.rest; with_reducible (first | (assumption) | (apply modCore_keeps))))

theorem pageAgain_keeps {a₀ : State} {s : State} {c : ℕ} {t : XSt} {va : BitVec 64} {need : Need} {hallRefuses : Bool} (hk : Keeps a₀ s) : Keeps a₀ (pageAgain s c t va need hallRefuses).2 := by
  unfold pageAgain
  repeat' (first | (with_reducible (first | (assumption) | (apply pageSeen_keeps) | (apply sysRead_keeps) | (refine sysRead_keeps_of (by assumption) ?_) | (refine rlbXlate_keeps_of (by assumption) ?_) | (refine ite_keeps ?_ ?_) | split | (intro _) | (dsimp only))) | (apply Keeps.rest; with_reducible (first | (assumption) | (apply pageSeen_keeps) | (apply sysRead_keeps) | (refine sysRead_keeps_of (by assumption) ?_) | (refine rlbXlate_keeps_of (by assumption) ?_))))

theorem pageAgain_keeps_of {a₀ z : State} {s : State} {c : ℕ} {t : XSt} {va : BitVec 64} {need : Need} {hallRefuses : Bool} {y0 : XSt} (he : pageAgain s c t va need hallRefuses = (y0, z)) (hk : Keeps a₀ s) : Keeps a₀ z := by
  have := pageAgain_keeps (s := s) (c := c) (t := t) (va := va) (need := need) (hallRefuses := hallRefuses) hk
  rwa [he] at this

theorem combFlushLine_keeps {a₀ : State} {s : State} {c : ℕ} {l : CombLine} (hk : Keeps a₀ s) : Keeps a₀ (combFlushLine s c l) := by
  unfold combFlushLine
  repeat' (first | (with_reducible (first | (assumption) | (apply xfault_keeps) | (refine forEach_keeps ?_ ?_) | (apply homeWriteFrom_keeps) | (refine homeWriteFrom_keeps_of (by assumption) ?_) | (apply modCore_keeps) | (refine ite_keeps ?_ ?_) | split | (intro _) | (dsimp only))) | (apply Keeps.rest; with_reducible (first | (assumption) | (apply xfault_keeps) | (refine forEach_keeps ?_ ?_) | (apply homeWriteFrom_keeps) | (refine homeWriteFrom_keeps_of (by assumption) ?_) | (apply modCore_keeps))))

theorem combFlush_keeps {a₀ : State} {s : State} {c : ℕ} (hk : Keeps a₀ s) : Keeps a₀ (combFlush s c) := by
  unfold combFlush
  repeat' (first | (with_reducible (first | (assumption) | (apply combFlushLine_keeps) | (refine forEach_keeps ?_ ?_) | (apply modCore_keeps) | (refine ite_keeps ?_ ?_) | split | (intro _) | (dsimp only))) | (apply Keeps.rest; with_reducible (first | (assumption) | (apply combFlushLine_keeps) | (refine forEach_keeps ?_ ?_) | (apply modCore_keeps))))

theorem combFlushOf_keeps {a₀ : State} {s : State} {c : ℕ} {key : BitVec 64} (hk : Keeps a₀ s) : Keeps a₀ (combFlushOf s c key) := by
  unfold combFlushOf
  repeat' (first | (with_reducible (first | (assumption) | (apply combFlushLine_keeps) | (apply modCore_keeps) | (refine ite_keeps ?_ ?_) | split | (intro _) | (dsimp only))) | (apply Keeps.rest; with_reducible (first | (assumption) | (apply combFlushLine_keeps) | (apply modCore_keeps))))

theorem combStore_keeps {a₀ : State} {s : State} {c : ℕ} {key : BitVec 64} {nc : Bool} {off : ℕ} {bs : List Byte} {pc : BitVec 64} {va : BitVec 64} (hk : Keeps a₀ s) : Keeps a₀ (combStore s c key nc off bs pc va) := by
  unfold combStore
  repeat' (first | (with_reducible (first | (assumption) | (apply combFlushLine_keeps) | (apply setCore_keeps) | (refine ite_keeps ?_ ?_) | split | (intro _) | (dsimp only))) | (apply Keeps.rest; with_reducible (first | (assumption) | (apply combFlushLine_keeps) | (apply setCore_keeps))))

theorem recordX_keeps {a₀ : State} {s : State} {c : ℕ} {src : ℕ} {need : Need} {va : BitVec 64} {t : XSt} (hk : Keeps a₀ s) : Keeps a₀ (recordX s c src need va t) := by
  unfold recordX
  repeat' (first | (with_reducible (first | (assumption) | (apply xfault_keeps) | (refine ite_keeps ?_ ?_) | split | (intro _) | (dsimp only))) | (apply Keeps.rest; with_reducible (first | (assumption) | (apply xfault_keeps))))

theorem accSend_keeps {a₀ : State} {s : State} {c : ℕ} {a : Access} (hk : Keeps a₀ s) : Keeps a₀ (accSend s c a) := by
  unfold accSend
  repeat' (first | (with_reducible (first | (assumption) | (apply outSend_keeps) | (apply combFlush_keeps) | (apply rlcBypass_keeps) | (apply remoteSend_keeps) | (refine ite_keeps ?_ ?_) | split | (intro _) | (dsimp only))) | (apply Keeps.rest; with_reducible (first | (assumption) | (apply outSend_keeps) | (apply combFlush_keeps) | (apply rlcBypass_keeps) | (apply remoteSend_keeps))))

theorem accAsk_keeps {a₀ : State} {s : State} {c : ℕ} {a : Access} (hk : Keeps a₀ s) : Keeps a₀ (accAsk s c a) := by
  unfold accAsk
  repeat' (first | (with_reducible (first | (assumption) | (apply accSend_keeps) | (refine ite_keeps ?_ ?_) | split | (intro _) | (dsimp only))) | (apply Keeps.rest; with_reducible (first | (assumption) | (apply accSend_keeps))))

theorem launchAcc_keeps {a₀ : State} {s : State} {c : ℕ} {a : Access} (hk : Keeps a₀ s) : Keeps a₀ (launchAcc s c a).2 := by
  unfold launchAcc
  repeat' (first | (with_reducible (first | (assumption) | (apply accSend_keeps) | (refine ite_keeps ?_ ?_) | split | (intro _) | (dsimp only))) | (apply Keeps.rest; with_reducible (first | (assumption) | (apply accSend_keeps))))

theorem launchAcc_keeps_of {a₀ z : State} {s : State} {c : ℕ} {a : Access} {y0 : XSt} (he : launchAcc s c a = (y0, z)) (hk : Keeps a₀ s) : Keeps a₀ z := by
  have := launchAcc_keeps (s := s) (c := c) (a := a) hk
  rwa [he] at this

theorem settleAcc_keeps {a₀ : State} {s : State} {c : ℕ} {a : Access} {t : XSt} (hk : Keeps a₀ s) : Keeps a₀ (settleAcc s c a t) := by
  unfold settleAcc
  repeat' (first | (with_reducible (first | (assumption) | (apply launchAcc_keeps) | (refine launchAcc_keeps_of (by assumption) ?_) | (apply recordX_keeps) | (apply countIfPage_keeps) | (apply modCore_keeps) | (refine ite_keeps ?_ ?_) | split | (intro _) | (dsimp only))) | (apply Keeps.rest; with_reducible (first | (assumption) | (apply launchAcc_keeps) | (refine launchAcc_keeps_of (by assumption) ?_) | (apply recordX_keeps) | (apply countIfPage_keeps) | (apply modCore_keeps))))

theorem startAcc_keeps {a₀ : State} {s : State} {c : ℕ} {a : Access} (hk : Keeps a₀ s) : Keeps a₀ (startAcc s c a) := by
  unfold startAcc
  repeat' (first | (with_reducible (first | (assumption) | (apply settleAcc_keeps) | (refine rlbXlate_keeps_of (by assumption) ?_) | (apply modCore_keeps) | (refine ite_keeps ?_ ?_) | split | (intro _) | (dsimp only))) | (apply Keeps.rest; with_reducible (first | (assumption) | (apply settleAcc_keeps) | (refine rlbXlate_keeps_of (by assumption) ?_) | (apply modCore_keeps))))

theorem failAcc_keeps {a₀ : State} {s : State} {c : ℕ} {a : Access} {code : Code} (hk : Keeps a₀ s) : Keeps a₀ (failAcc s c a code) := by
  unfold failAcc
  repeat' (first | (with_reducible (first | (assumption) | (apply modCore_keeps) | (refine ite_keeps ?_ ?_) | split | (intro _) | (dsimp only))) | (apply Keeps.rest; with_reducible (first | (assumption) | (apply modCore_keeps))))

theorem doneAcc_keeps {a₀ : State} {s : State} {c : ℕ} {a : Access} {v : Option (BitVec 64)} (hk : Keeps a₀ s) : Keeps a₀ (doneAcc s c a v) := by
  unfold doneAcc
  repeat' (first | (with_reducible (first | (assumption) | (apply modCore_keeps) | (refine ite_keeps ?_ ?_) | split | (intro _) | (dsimp only))) | (apply Keeps.rest; with_reducible (first | (assumption) | (apply modCore_keeps))))

theorem dropReqs_keeps {a₀ : State} {s : State} {c : ℕ} {id : ℕ} (hk : Keeps a₀ s) : Keeps a₀ (dropReqs s c id) := by
  unfold dropReqs
  repeat' (first | (with_reducible (first | (assumption) | (apply withHost_keeps) | (apply withSpan_keeps) | (refine ite_keeps ?_ ?_) | split | (intro _) | (dsimp only))) | (apply Keeps.rest; with_reducible (first | (assumption) | (apply withHost_keeps) | (apply withSpan_keeps))))

theorem loadLine_keeps {a₀ : State} {s : State} {c : ℕ} {rq : RlcUser} {key : BitVec 64} {nc : Bool} {ext : Option (BitVec 512)} {off : ℕ} {n : ℕ} (hk : Keeps a₀ s) : Keeps a₀ (loadLine s c rq key nc ext off n).2.2 := by
  unfold loadLine
  repeat' (first | (with_reducible (first | (assumption) | (apply rlcRead_keeps) | (refine rlcRead_keeps_of (by assumption) ?_) | (refine ite_keeps ?_ ?_) | split | (intro _) | (dsimp only))) | (apply Keeps.rest; with_reducible (first | (assumption) | (apply rlcRead_keeps) | (refine rlcRead_keeps_of (by assumption) ?_))))

theorem loadLine_keeps_of {a₀ z : State} {s : State} {c : ℕ} {rq : RlcUser} {key : BitVec 64} {nc : Bool} {ext : Option (BitVec 512)} {off : ℕ} {n : ℕ} {y0 : Code} {y1 : List Byte} (he : loadLine s c rq key nc ext off n = (y0, y1, z)) (hk : Keeps a₀ s) : Keeps a₀ z := by
  have := loadLine_keeps (s := s) (c := c) (rq := rq) (key := key) (nc := nc) (ext := ext) (off := off) (n := n) hk
  rwa [he] at this

theorem loadAt_keeps {a₀ : State} {s : State} {c : ℕ} {rq : RlcUser} {a : Access} {r : Reply} (hk : Keeps a₀ s) : Keeps a₀ (loadAt s c rq a r).2.2 := by
  unfold loadAt
  repeat' (first | (with_reducible (first | (assumption) | (apply loadLine_keeps) | (refine loadLine_keeps_of (by assumption) ?_) | (apply busAnswer_keeps) | (refine busAnswer_keeps_of (by assumption) ?_) | (refine ite_keeps ?_ ?_) | split | (intro _) | (dsimp only))) | (apply Keeps.rest; with_reducible (first | (assumption) | (apply loadLine_keeps) | (refine loadLine_keeps_of (by assumption) ?_) | (apply busAnswer_keeps) | (refine busAnswer_keeps_of (by assumption) ?_))) | (with_reducible (first | (injections; subst_vars) | (rename_i heq; revert heq; split <;> (intro heq; first | (cases heq) | skip)))))

theorem loadAt_keeps_of {a₀ z : State} {s : State} {c : ℕ} {rq : RlcUser} {a : Access} {r : Reply} {y0 : Code} {y1 : List Byte} (he : loadAt s c rq a r = (y0, y1, z)) (hk : Keeps a₀ s) : Keeps a₀ z := by
  have := loadAt_keeps (s := s) (c := c) (rq := rq) (a := a) (r := r) hk
  rwa [he] at this

theorem storeLine_keeps {a₀ : State} {s : State} {c : ℕ} {ga : ℕ} {nc : Bool} {bs : List Byte} {pc : BitVec 64} {va : BitVec 64} {ext : Option (BitVec 512)} (hk : Keeps a₀ s) : Keeps a₀ (storeLine s c ga nc bs pc va ext).2 := by
  unfold storeLine
  repeat' (first | (with_reducible (first | (assumption) | (apply streamStep_keeps) | (refine streamStep_keeps_of (by assumption) ?_) | (apply combStore_keeps) | (apply combFlushOf_keeps) | (refine rlcTryWrite_keeps_of (by assumption) ?_) | (refine ite_keeps ?_ ?_) | split | (intro _) | (dsimp only))) | (apply Keeps.rest; with_reducible (first | (assumption) | (apply streamStep_keeps) | (refine streamStep_keeps_of (by assumption) ?_) | (apply combStore_keeps) | (apply combFlushOf_keeps) | (refine rlcTryWrite_keeps_of (by assumption) ?_))))

theorem storeLine_keeps_of {a₀ z : State} {s : State} {c : ℕ} {ga : ℕ} {nc : Bool} {bs : List Byte} {pc : BitVec 64} {va : BitVec 64} {ext : Option (BitVec 512)} {y0 : Code} (he : storeLine s c ga nc bs pc va ext = (y0, z)) (hk : Keeps a₀ s) : Keeps a₀ z := by
  have := storeLine_keeps (s := s) (c := c) (ga := ga) (nc := nc) (bs := bs) (pc := pc) (va := va) (ext := ext) hk
  rwa [he] at this

theorem storeAt_keeps {a₀ : State} {s : State} {c : ℕ} {a : Access} {r : Reply} (hk : Keeps a₀ s) : Keeps a₀ (storeAt s c a r).2 := by
  unfold storeAt
  dsimp only
  split
  · split
    · exact hk
    · exact storeLine_keeps hk
  · split
    · exact hk
    · exact storeLine_keeps hk
  · split
    · exact hk
    · exact outSend_keeps hk
  · exact hk

theorem storeAt_keeps_of {a₀ z : State} {s : State} {c : ℕ} {a : Access} {r : Reply} {y0 : Code} (he : storeAt s c a r = (y0, z)) (hk : Keeps a₀ s) : Keeps a₀ z := by
  have := storeAt_keeps (s := s) (c := c) (a := a) (r := r) hk
  rwa [he] at this

theorem atomicAt_keeps {a₀ : State} {s : State} {c : ℕ} {a : Access} {r : Reply} (hk : Keeps a₀ s) : Keeps a₀ (atomicAt s c a r).2.2 := by
  unfold atomicAt
  repeat' (first | (with_reducible (first | (assumption) | (apply combFlush_keeps) | (apply hereAtomic_keeps) | (refine hereAtomic_keeps_of (by assumption) ?_) | (refine ite_keeps ?_ ?_) | split | (intro _) | (dsimp only))) | (apply Keeps.rest; with_reducible (first | (assumption) | (apply combFlush_keeps) | (apply hereAtomic_keeps) | (refine hereAtomic_keeps_of (by assumption) ?_))))

theorem atomicAt_keeps_of {a₀ z : State} {s : State} {c : ℕ} {a : Access} {r : Reply} {y0 : Code} {y1 : ℕ} (he : atomicAt s c a r = (y0, y1, z)) (hk : Keeps a₀ s) : Keeps a₀ z := by
  have := atomicAt_keeps (s := s) (c := c) (a := a) (r := r) hk
  rwa [he] at this

theorem flagAt_keeps {a₀ : State} {s : State} {c : ℕ} {a : Access} {r : Reply} (hk : Keeps a₀ s) : Keeps a₀ (flagAt s c a r).2.2 := by
  unfold flagAt
  repeat' (first | (with_reducible (first | (assumption) | (apply remoteAsk_keeps) | (apply outSend_keeps) | (apply hereRead_keeps) | (refine hereRead_keeps_of (by assumption) ?_) | (apply busAnswer_keeps) | (refine busAnswer_keeps_of (by assumption) ?_) | (apply spanAnswer_keeps) | (refine spanAnswer_keeps_of (by assumption) ?_) | (apply rlcBypass_keeps) | (refine ite_keeps ?_ ?_) | split | (intro _) | (dsimp only))) | (apply Keeps.rest; with_reducible (first | (assumption) | (apply remoteAsk_keeps) | (apply outSend_keeps) | (apply hereRead_keeps) | (refine hereRead_keeps_of (by assumption) ?_) | (apply busAnswer_keeps) | (refine busAnswer_keeps_of (by assumption) ?_) | (apply spanAnswer_keeps) | (refine spanAnswer_keeps_of (by assumption) ?_) | (apply rlcBypass_keeps))) | (with_reducible (first | (injections; subst_vars) | (rename_i heq; revert heq; split <;> (intro heq; first | (cases heq) | skip)))))

theorem flagAt_keeps_of {a₀ z : State} {s : State} {c : ℕ} {a : Access} {r : Reply} {y0 : Code} {y1 : ℕ} (he : flagAt s c a r = (y0, y1, z)) (hk : Keeps a₀ s) : Keeps a₀ z := by
  have := flagAt_keeps (s := s) (c := c) (a := a) (r := r) hk
  rwa [he] at this

theorem homeRefusal_keeps {a₀ : State} {s : State} {c : ℕ} {a : Access} {code : Code} (hk : Keeps a₀ s) : Keeps a₀ (homeRefusal s c a code) := by
  unfold homeRefusal
  repeat' (first | (with_reducible (first | (assumption) | (apply xfault_keeps) | (refine ite_keeps ?_ ?_) | split | (intro _) | (dsimp only))) | (apply Keeps.rest; with_reducible (first | (assumption) | (apply xfault_keeps))))

theorem performAcc_keeps {a₀ : State} {s : State} {c : ℕ} {a : Access} {r : Reply} (hk : Keeps a₀ s) : Keeps a₀ (performAcc s c a r) := by
  unfold performAcc
  repeat' (first | (with_reducible (first | (assumption) | (apply loadAt_keeps) | (refine loadAt_keeps_of (by assumption) ?_) | (apply failAcc_keeps) | (apply doneAcc_keeps) | (apply homeRefusal_keeps) | (apply atomicAt_keeps) | (refine atomicAt_keeps_of (by assumption) ?_) | (apply storeAt_keeps) | (refine storeAt_keeps_of (by assumption) ?_) | (refine ite_keeps ?_ ?_) | split | (intro _) | (dsimp only))) | (apply Keeps.rest; with_reducible (first | (assumption) | (apply loadAt_keeps) | (refine loadAt_keeps_of (by assumption) ?_) | (apply failAcc_keeps) | (apply doneAcc_keeps) | (apply homeRefusal_keeps) | (apply atomicAt_keeps) | (refine atomicAt_keeps_of (by assumption) ?_) | (apply storeAt_keeps) | (refine storeAt_keeps_of (by assumption) ?_))))

theorem completeAcc_keeps {a₀ : State} {s : State} {c : ℕ} {a : Access} {r : Reply} (hk : Keeps a₀ s) : Keeps a₀ (completeAcc s c a r) := by
  unfold completeAcc
  repeat' (first | (with_reducible (first | (assumption) | (apply accAsk_keeps) | (apply dropReqs_keeps) | (apply failAcc_keeps) | (apply performAcc_keeps) | (refine ite_keeps ?_ ?_) | split | (intro _) | (dsimp only))) | (apply Keeps.rest; with_reducible (first | (assumption) | (apply accAsk_keeps) | (apply dropReqs_keeps) | (apply failAcc_keeps) | (apply performAcc_keeps))))

theorem issueAccess_keeps {a₀ : State} {s : State} {c : ℕ} {legal : Bool} {regs : List ℕ} {mk : CoreSt → Access} (hk : Keeps a₀ s) : Keeps a₀ (issueAccess s c legal regs mk) := by
  unfold issueAccess
  repeat' (first | (with_reducible (first | (assumption) | (apply setCore_keeps) | (apply startAcc_keeps) | (refine ite_keeps ?_ ?_) | split | (intro _) | (dsimp only))) | (apply Keeps.rest; with_reducible (first | (assumption) | (apply setCore_keeps) | (apply startAcc_keeps))))

theorem fetchXlate_keeps_of {a₀ z : State} {s : State} {c : ℕ} {y0 : XSt} (he : fetchXlate s c = some (y0, z)) (hk : Keeps a₀ s) : Keeps a₀ z := by
  unfold fetchXlate at he
  split at he
  · split at he
    · cases he
    · rcases e : rlbXlate s c (getCore s c).regs.pc Need.fetch true with _ | ⟨t, s1⟩
      · rw [e] at he
        cases he
      · rw [e] at he
        simp only [Option.map_some, Option.some.injEq, Prod.mk.injEq] at he
        obtain ⟨-, rfl⟩ := he
        exact countIfPage_keeps (rlbXlate_keeps_of e hk)
  · simp only [Option.some.injEq, Prod.mk.injEq] at he
    obtain ⟨-, rfl⟩ := he
    exact hk

theorem fetchReturns_keeps {a₀ : State} {s : State} {c : ℕ} {r : Reply} (hk : Keeps a₀ s) : Keeps a₀ (fetchReturns s c r) := by
  unfold fetchReturns
  repeat' (first | (with_reducible (first | (assumption) | (apply recordX_keeps) | (apply loadAt_keeps) | (refine loadAt_keeps_of (by assumption) ?_) | (apply setCore_keeps) | (apply homeRefusal_keeps) | (refine fetchXlate_keeps_of (by assumption) ?_) | (apply modCore_keeps) | (refine ite_keeps ?_ ?_) | split | (intro _) | (dsimp only))) | (apply Keeps.rest; with_reducible (first | (assumption) | (apply recordX_keeps) | (apply loadAt_keeps) | (refine loadAt_keeps_of (by assumption) ?_) | (apply setCore_keeps) | (apply homeRefusal_keeps) | (refine fetchXlate_keeps_of (by assumption) ?_) | (apply modCore_keeps))))

theorem readAhead_keeps {a₀ s : State} {c : ℕ} (hk : Keeps a₀ s) : Keeps a₀ (readAhead s c) := by
  unfold readAhead
  split
  · exact hk
  · exact modCore_keeps (freshBits_keeps (w := 4) hk)

theorem branchOp_keeps {a₀ : State} {c : Core} {w : Bits} {s : State} {f : BitVec 64 → BitVec 64 → Bool} (hk : Keeps a₀ s) :
    KeepsRes a₀ (branchOp c w s f) := by
  have k := fun b => issueCore_keeps (a₀ := a₀) (c := c.val) (legal := legalB w) (regs := [bSA w, bSB w]) (body := b) hk
  unfold branchOp
  exact .next (ite_keeps (readAhead_keeps (k _)) (k _))

theorem loopEndsOnAmm_keeps {a₀ : State} {s : State} {c : ℕ} {w : Bits} (hk : Keeps a₀ s) : Keeps a₀ (loopEndsOnAmm s c w).2 := by
  unfold loopEndsOnAmm
  repeat' (first | (with_reducible (first | (assumption) | (apply freshBits_keeps) | (refine freshBits_keeps_of (by assumption) ?_) | (refine ite_keeps ?_ ?_) | split | (intro _) | (dsimp only))) | (apply Keeps.rest; with_reducible (first | (assumption) | (apply freshBits_keeps) | (refine freshBits_keeps_of (by assumption) ?_))))

theorem loopEndsOnAmm_keeps_of {a₀ z : State} {s : State} {c : ℕ} {w : Bits} {y0 : Bool} (he : loopEndsOnAmm s c w = (y0, z)) (hk : Keeps a₀ s) : Keeps a₀ z := by
  have := loopEndsOnAmm_keeps (s := s) (c := c) (w := w) hk
  rwa [he] at this

theorem waitfXlate_keeps_of {a₀ z : State} {s : State} {c : ℕ} {a : Access} {y0 : XSt} (he : waitfXlate s c a = some (y0, z)) (hk : Keeps a₀ s) : Keeps a₀ z := by
  unfold waitfXlate at he
  repeat' (first | split at he | (simp only [Option.some.injEq, Prod.mk.injEq, reduceCtorEq] at he) | (obtain ⟨-, rfl⟩ := he) | (subst he))
  all_goals repeat' (first | (with_reducible (first | (assumption) | (refine rlbXlate_keeps_of (by assumption) ?_) | (refine ite_keeps ?_ ?_) | split | (intro _) | (dsimp only))) | (apply Keeps.rest; with_reducible (first | (assumption) | (refine rlbXlate_keeps_of (by assumption) ?_))))

theorem flagRead_keeps {a₀ : State} {s : State} {c : ℕ} {a : Access} {code : Code} {flag : ℕ} {sd : BitVec 5} {cond : BitVec 3} {w64 : Bool} {value : BitVec 64} {dl : BitVec 64} {hasDl : Bool} {again : WaitSt} (hk : Keeps a₀ s) : Keeps a₀ (flagRead s c a code flag sd cond w64 value dl hasDl again) := by
  unfold flagRead
  repeat' (first | (with_reducible (first | (assumption) | (apply homeRefusal_keeps) | (apply modCore_keeps) | (refine ite_keeps ?_ ?_) | split | (intro _) | (dsimp only))) | (apply Keeps.rest; with_reducible (first | (assumption) | (apply homeRefusal_keeps) | (apply modCore_keeps))))

theorem forgetDma_keeps {a₀ : State} {s : State} {c : ℕ} {ch : ℕ} (hk : Keeps a₀ s) : Keeps a₀ (forgetDma s c ch) := by
  unfold forgetDma
  repeat' (first | (with_reducible (first | (assumption) | (apply withHost_keeps) | (apply withSpan_keeps) | (refine ite_keeps ?_ ?_) | split | (intro _) | (dsimp only))) | (apply Keeps.rest; with_reducible (first | (assumption) | (apply withHost_keeps) | (apply withSpan_keeps))))

theorem chanFault_keeps {a₀ : State} {s : State} {c : ℕ} {ch : ℕ} {code : Code} {va : BitVec 64} (hk : Keeps a₀ s) : Keeps a₀ (chanFault s c ch code va) := by
  unfold chanFault
  repeat' (first | (with_reducible (first | (assumption) | (apply forgetDma_keeps) | (apply modCore_keeps) | (refine ite_keeps ?_ ?_) | split | (intro _) | (dsimp only))) | (apply Keeps.rest; with_reducible (first | (assumption) | (apply forgetDma_keeps) | (apply modCore_keeps))))

theorem xlateList_keeps {a₀ : State} {c : ℕ} {L : List (BitVec 64 × Need)} {s : State} {b3 : List (Target × Bool)} (hk : Keeps a₀ s) : Keeps a₀ (xlateList c L s b3).2 := by
  induction L generalizing s b3 with
  | nil => exact hk
  | cons p l ih =>
    obtain ⟨va, need⟩ := p
    rw [xlateList]
    repeat' (first | (with_reducible (first | (assumption) | (apply ih) | (apply recordX_keeps) | (refine rlbXlate_keeps_of (by assumption) ?_) | (refine ite_keeps ?_ ?_) | split | (intro _) | (dsimp only))) | (apply Keeps.rest; with_reducible (first | (assumption) | (apply ih) | (apply recordX_keeps) | (refine rlbXlate_keeps_of (by assumption) ?_))))

theorem xlateList_keeps_of {a₀ z : State} {c : ℕ} {L : List (BitVec 64 × Need)} {s : State} {b3 : List (Target × Bool)} {y0 : Xlated} (he : xlateList c L s b3 = (y0, z)) (hk : Keeps a₀ s) : Keeps a₀ z := by
  have := xlateList_keeps (c := c) (L := L) (s := s) (b3 := b3) hk
  rwa [he] at this

theorem chanXlate_keeps {a₀ : State} {s : State} {c : ℕ} {ch : ℕ} (hk : Keeps a₀ s) : Keeps a₀ (chanXlate s c ch).2 := by
  unfold chanXlate
  repeat' (first | (with_reducible (first | (assumption) | (apply recordX_keeps) | (apply countIfPage_keeps) | (apply xlateList_keeps) | (refine xlateList_keeps_of (by assumption) ?_) | (apply modCore_keeps) | (refine ite_keeps ?_ ?_) | split | (intro _) | (dsimp only))) | (apply Keeps.rest; with_reducible (first | (assumption) | (apply recordX_keeps) | (apply countIfPage_keeps) | (apply xlateList_keeps) | (refine xlateList_keeps_of (by assumption) ?_) | (apply modCore_keeps))))

theorem chanXlate_keeps_of {a₀ z : State} {s : State} {c : ℕ} {ch : ℕ} {y0 : Xlated} (he : chanXlate s c ch = (y0, z)) (hk : Keeps a₀ s) : Keeps a₀ z := by
  have := chanXlate_keeps (s := s) (c := c) (ch := ch) hk
  rwa [he] at this

theorem lineAround_keeps {a₀ : State} {s : State} {off : ℕ} {bs : List Byte} (hk : Keeps a₀ s) : Keeps a₀ (lineAround s off bs).2 := by
  unfold lineAround
  repeat' (first | (with_reducible (first | (assumption) | (apply freshBytes_keeps) | (refine freshBytes_keeps_of (by assumption) ?_) | (refine ite_keeps ?_ ?_) | split | (intro _) | (dsimp only))) | (apply Keeps.rest; with_reducible (first | (assumption) | (apply freshBytes_keeps) | (refine freshBytes_keeps_of (by assumption) ?_))))

theorem lineAround_keeps_of {a₀ z : State} {s : State} {off : ℕ} {bs : List Byte} {y0 : BitVec 512} (he : lineAround s off bs = (y0, z)) (hk : Keeps a₀ s) : Keeps a₀ z := by
  have := lineAround_keeps (s := s) (off := off) (bs := bs) hk
  rwa [he] at this

theorem dmaLine_keeps {a₀ : State} {s : State} {c : ℕ} {ch : Fin 4} {key : BitVec 64} {nc : Bool} {ext : Option (BitVec 512)} {off : ℕ} {n : ℕ} (hk : Keeps a₀ s) : Keeps a₀ (dmaLine s c ch key nc ext off n).2.2 := by
  unfold dmaLine
  repeat' (first | (with_reducible (first | (assumption) | (apply rlcRead_keeps) | (refine rlcRead_keeps_of (by assumption) ?_) | (refine ite_keeps ?_ ?_) | split | (intro _) | (dsimp only))) | (apply Keeps.rest; with_reducible (first | (assumption) | (apply rlcRead_keeps) | (refine rlcRead_keeps_of (by assumption) ?_))))

theorem dmaLine_keeps_of {a₀ z : State} {s : State} {c : ℕ} {ch : Fin 4} {key : BitVec 64} {nc : Bool} {ext : Option (BitVec 512)} {off : ℕ} {n : ℕ} {y0 : Code} {y1 : List Byte} (he : dmaLine s c ch key nc ext off n = (y0, y1, z)) (hk : Keeps a₀ s) : Keeps a₀ z := by
  have := dmaLine_keeps (s := s) (c := c) (ch := ch) (key := key) (nc := nc) (ext := ext) (off := off) (n := n) hk
  rwa [he] at this

theorem dmaReadPiece_keeps {a₀ : State} {s : State} {c : ℕ} {ch : Fin 4} {tg : Target} {nc : Bool} {n : ℕ} {skip : ℕ} {r : Reply} (hk : Keeps a₀ s) : Keeps a₀ (dmaReadPiece s c ch tg nc n skip r).2.2 := by
  unfold dmaReadPiece
  repeat' (first | (with_reducible (first | (assumption) | (apply remoteAsk_keeps) | (apply outSend_keeps) | (apply lineAround_keeps) | (refine lineAround_keeps_of (by assumption) ?_) | (apply dmaLine_keeps) | (refine dmaLine_keeps_of (by assumption) ?_) | (apply busAnswer_keeps) | (refine busAnswer_keeps_of (by assumption) ?_) | (apply spanAnswer_keeps) | (refine spanAnswer_keeps_of (by assumption) ?_) | (apply rlcBypass_keeps) | (refine ite_keeps ?_ ?_) | split | (intro _) | (dsimp only))) | (apply Keeps.rest; with_reducible (first | (assumption) | (apply remoteAsk_keeps) | (apply outSend_keeps) | (apply lineAround_keeps) | (refine lineAround_keeps_of (by assumption) ?_) | (apply dmaLine_keeps) | (refine dmaLine_keeps_of (by assumption) ?_) | (apply busAnswer_keeps) | (refine busAnswer_keeps_of (by assumption) ?_) | (apply spanAnswer_keeps) | (refine spanAnswer_keeps_of (by assumption) ?_) | (apply rlcBypass_keeps))))

theorem dmaReadPiece_keeps_of {a₀ z : State} {s : State} {c : ℕ} {ch : Fin 4} {tg : Target} {nc : Bool} {n : ℕ} {skip : ℕ} {r : Reply} {y0 : Code} {y1 : List Byte} (he : dmaReadPiece s c ch tg nc n skip r = (y0, y1, z)) (hk : Keeps a₀ s) : Keeps a₀ z := by
  have := dmaReadPiece_keeps (s := s) (c := c) (ch := ch) (tg := tg) (nc := nc) (n := n) (skip := skip) (r := r) hk
  rwa [he] at this

theorem dmaDenied_keeps {a₀ : State} {s : State} {c : ℕ} {tg : Target} {code : Code} {va : ℕ} (hk : Keeps a₀ s) : Keeps a₀ (dmaDenied s c tg code va) := by
  unfold dmaDenied
  repeat' (first | (with_reducible (first | (assumption) | (apply xfault_keeps) | (refine ite_keeps ?_ ?_) | split | (intro _) | (dsimp only))) | (apply Keeps.rest; with_reducible (first | (assumption) | (apply xfault_keeps))))

theorem dmaRead_keeps {a₀ : State} {c : ℕ} {ch : Fin 4} {r : Reply} {L : List ((ℕ × ℕ) × Target × Bool)} {b4 : ℕ} {s : State} {b6 : List Byte} (hk : Keeps a₀ s) : Keeps a₀ (dmaRead c ch r L b4 s b6).2.2.2 := by
  induction L generalizing b4 s b6 with
  | nil => exact hk
  | cons p l ih =>
    rw [dmaRead]
    repeat' (first | (with_reducible (first | (assumption) | (apply ih) | (apply dmaDenied_keeps) | (apply dmaReadPiece_keeps) | (refine dmaReadPiece_keeps_of (by assumption) ?_) | (refine ite_keeps ?_ ?_) | split | (intro _) | (dsimp only))) | (apply Keeps.rest; with_reducible (first | (assumption) | (apply ih) | (apply dmaDenied_keeps) | (apply dmaReadPiece_keeps) | (refine dmaReadPiece_keeps_of (by assumption) ?_))))

theorem dmaRead_keeps_of {a₀ z : State} {c : ℕ} {ch : Fin 4} {r : Reply} {L : List ((ℕ × ℕ) × Target × Bool)} {b4 : ℕ} {s : State} {b6 : List Byte} {y0 : Code} {y1 : BitVec 64} {y2 : List Byte} (he : dmaRead c ch r L b4 s b6 = (y0, y1, y2, z)) (hk : Keeps a₀ s) : Keeps a₀ z := by
  have := dmaRead_keeps (c := c) (ch := ch) (r := r) (L := L) (b4 := b4) (s := s) (b6 := b6) hk
  rwa [he] at this

theorem dmaStore_keeps {a₀ : State} {s : State} {c : ℕ} {ch : Fin 4} {va : BitVec 64} {ga : ℕ} {nc : Bool} {bs : List Byte} (hk : Keeps a₀ s) : Keeps a₀ (dmaStore s c ch va ga nc bs).2 := by
  unfold dmaStore
  repeat' (first | (with_reducible (first | (assumption) | (apply streamStep_keeps) | (refine streamStep_keeps_of (by assumption) ?_) | (refine rlcTryWrite_keeps_of (by assumption) ?_) | (apply homeWriteFrom_keeps) | (refine homeWriteFrom_keeps_of (by assumption) ?_) | (refine ite_keeps ?_ ?_) | split | (intro _) | (dsimp only))) | (apply Keeps.rest; with_reducible (first | (assumption) | (apply streamStep_keeps) | (refine streamStep_keeps_of (by assumption) ?_) | (refine rlcTryWrite_keeps_of (by assumption) ?_) | (apply homeWriteFrom_keeps) | (refine homeWriteFrom_keeps_of (by assumption) ?_))))

theorem dmaStore_keeps_of {a₀ z : State} {s : State} {c : ℕ} {ch : Fin 4} {va : BitVec 64} {ga : ℕ} {nc : Bool} {bs : List Byte} {y0 : Code} (he : dmaStore s c ch va ga nc bs = (y0, z)) (hk : Keeps a₀ s) : Keeps a₀ z := by
  have := dmaStore_keeps (s := s) (c := c) (ch := ch) (va := va) (ga := ga) (nc := nc) (bs := bs) hk
  rwa [he] at this

theorem dmaWrite_keeps {a₀ : State} {s : State} {c : ℕ} {ch : Fin 4} {va : BitVec 64} {tg : Target} {nc : Bool} {bs : List Byte} (hk : Keeps a₀ s) : Keeps a₀ (dmaWrite s c ch va tg nc bs).2 := by
  unfold dmaWrite
  repeat' (first | (with_reducible (first | (assumption) | (apply outSend_keeps) | (apply dmaStore_keeps) | (refine dmaStore_keeps_of (by assumption) ?_) | (apply xfault_keeps) | (refine ite_keeps ?_ ?_) | split | (intro _) | (dsimp only))) | (apply Keeps.rest; with_reducible (first | (assumption) | (apply outSend_keeps) | (apply dmaStore_keeps) | (refine dmaStore_keeps_of (by assumption) ?_) | (apply xfault_keeps))))

theorem dmaWrite_keeps_of {a₀ z : State} {s : State} {c : ℕ} {ch : Fin 4} {va : BitVec 64} {tg : Target} {nc : Bool} {bs : List Byte} {y0 : Code} (he : dmaWrite s c ch va tg nc bs = (y0, z)) (hk : Keeps a₀ s) : Keeps a₀ z := by
  have := dmaWrite_keeps (s := s) (c := c) (ch := ch) (va := va) (tg := tg) (nc := nc) (bs := bs) hk
  rwa [he] at this

theorem chunkRead_keeps {a₀ : State} {s : State} {c : ℕ} {ch : Fin 4} {h : DmaDesc} {ts : List (Target × Bool)} {src : BitVec 64} {n : ℕ} {r : Reply} (hk : Keeps a₀ s) : Keeps a₀ (chunkRead s c ch h ts src n r).2.2.2 := by
  unfold chunkRead
  dsimp only
  split
  · exact racedView_keeps hk
  · exact dmaRead_keeps hk

theorem chunkRead_keeps_of {a₀ z : State} {s : State} {c : ℕ} {ch : Fin 4} {h : DmaDesc} {ts : List (Target × Bool)} {src : BitVec 64} {n : ℕ} {r : Reply} {y0 : Code} {y1 : BitVec 64} {y2 : List Byte} (he : chunkRead s c ch h ts src n r = (y0, y1, y2, z)) (hk : Keeps a₀ s) : Keeps a₀ z := by
  have := chunkRead_keeps (s := s) (c := c) (ch := ch) (h := h) (ts := ts) (src := src) (n := n) (r := r) hk
  rwa [he] at this

theorem chunkWrite_keeps {a₀ : State} {s : State} {c : ℕ} {ch : Fin 4} {h : DmaDesc} {ts : List (Target × Bool)} {dst : BitVec 64} {bs : List Byte} (hk : Keeps a₀ s) : Keeps a₀ (chunkWrite s c ch h ts dst bs).2 := by
  unfold chunkWrite
  repeat' (first | (with_reducible (first | (assumption) | (apply dmaWrite_keeps) | (refine dmaWrite_keeps_of (by assumption) ?_) | (apply modCore_keeps) | (refine ite_keeps ?_ ?_) | split | (intro _) | (dsimp only))) | (apply Keeps.rest; with_reducible (first | (assumption) | (apply dmaWrite_keeps) | (refine dmaWrite_keeps_of (by assumption) ?_) | (apply modCore_keeps))))

theorem chunkWrite_keeps_of {a₀ z : State} {s : State} {c : ℕ} {ch : Fin 4} {h : DmaDesc} {ts : List (Target × Bool)} {dst : BitVec 64} {bs : List Byte} {y0 : Code} (he : chunkWrite s c ch h ts dst bs = (y0, z)) (hk : Keeps a₀ s) : Keeps a₀ z := by
  have := chunkWrite_keeps (s := s) (c := c) (ch := ch) (h := h) (ts := ts) (dst := dst) (bs := bs) hk
  rwa [he] at this

theorem moveChunk_keeps {a₀ : State} {s : State} {c : ℕ} {ch : Fin 4} {d : DmaChan} {h : DmaDesc} {ts : List (Target × Bool)} {r : Reply} (hk : Keeps a₀ s) : Keeps a₀ (moveChunk s c ch d h ts r) := by
  unfold moveChunk
  repeat' (first | (with_reducible (first | (assumption) | (apply chunkRead_keeps) | (refine chunkRead_keeps_of (by assumption) ?_) | (apply chunkWrite_keeps) | (refine chunkWrite_keeps_of (by assumption) ?_) | (apply chanFault_keeps) | (apply modCore_keeps) | (refine ite_keeps ?_ ?_) | split | (intro _) | (dsimp only))) | (apply Keeps.rest; with_reducible (first | (assumption) | (apply chunkRead_keeps) | (refine chunkRead_keeps_of (by assumption) ?_) | (apply chunkWrite_keeps) | (refine chunkWrite_keeps_of (by assumption) ?_) | (apply chanFault_keeps) | (apply modCore_keeps))))

theorem signalAt_keeps {a₀ : State} {s : State} {c : ℕ} {tg : Target} {nc : Bool} {va : BitVec 64} {r : Reply} (hk : Keeps a₀ s) : Keeps a₀ (signalAt s c tg nc va r).2 := by
  unfold signalAt
  repeat' (first | (with_reducible (first | (assumption) | (apply remoteAsk_keeps) | (apply xfault_keeps) | (apply spanAnswer_keeps) | (refine spanAnswer_keeps_of (by assumption) ?_) | (apply rlcBypass_keeps) | (apply hereAtomic_keeps) | (refine hereAtomic_keeps_of (by assumption) ?_) | (refine ite_keeps ?_ ?_) | split | (intro _) | (dsimp only))) | (apply Keeps.rest; with_reducible (first | (assumption) | (apply remoteAsk_keeps) | (apply xfault_keeps) | (apply spanAnswer_keeps) | (refine spanAnswer_keeps_of (by assumption) ?_) | (apply rlcBypass_keeps) | (apply hereAtomic_keeps) | (refine hereAtomic_keeps_of (by assumption) ?_))))

theorem signalAt_keeps_of {a₀ z : State} {s : State} {c : ℕ} {tg : Target} {nc : Bool} {va : BitVec 64} {r : Reply} {y0 : Code} (he : signalAt s c tg nc va r = (y0, z)) (hk : Keeps a₀ s) : Keeps a₀ z := by
  have := signalAt_keeps (s := s) (c := c) (tg := tg) (nc := nc) (va := va) (r := r) hk
  rwa [he] at this

theorem issueChisel_keeps {a₀ : State} {c : Core} {s : State} {legal : Bool} {regs : List ℕ} {kind : EngKind} {w0 : BitVec 64} {vals : CoreSt → List (BitVec 64)} (hk : Keeps a₀ s) : Keeps a₀ (issueChisel c s legal regs kind w0 vals) := by
  unfold issueChisel
  repeat' (first | (with_reducible (first | (assumption) | (apply issueCore_keeps) | (refine ite_keeps ?_ ?_) | split | (intro _) | (dsimp only))) | (apply Keeps.rest; with_reducible (first | (assumption) | (apply issueCore_keeps))))

end Sys2Proof.Machine
end

