-- ==== Sys2Proof/Laws/KeepsReport.lean ====
section
/-!
SUPPORT. The operations of events, queue faults and retirement leave the clock and the waiting commands alone and keep the canonical form.
-/

namespace Sys2Proof.Machine

theorem storePush_keeps {a₀ : State} {s : State} {op : StoreOp} {order : Option ℕ} (hk : Keeps a₀ s) : Keeps a₀ (storePush s op order) := by
  unfold storePush
  repeat' (first | (with_reducible (first | (assumption) | (apply withStore_keeps) | (refine ite_keeps ?_ ?_) | split | (intro _) | (dsimp only))) | (apply Keeps.rest; with_reducible (first | (assumption) | (apply withStore_keeps))))

theorem recUnits_keeps {a₀ : State} {s : State} {f : UnitRecs → UnitRecs} {order : Option ℕ} (hk : Keeps a₀ s) : Keeps a₀ (recUnits s f order) := by
  unfold recUnits
  repeat' (first | (with_reducible (first | (assumption) | (apply storePush_keeps) | (apply withKey_keeps) | (refine ite_keeps ?_ ?_) | split | (intro _) | (dsimp only))) | (apply Keeps.rest; with_reducible (first | (assumption) | (apply storePush_keeps) | (apply withKey_keeps))))

theorem recRetire_keeps {a₀ : State} {s : State} {u : ℕ} {order : Option ℕ} (hk : Keeps a₀ s) : Keeps a₀ (recRetire s u order) := by
  unfold recRetire
  repeat' (first | (with_reducible (first | (assumption) | (apply withStore_keeps) | (apply recUnits_keeps) | (refine ite_keeps ?_ ?_) | split | (intro _) | (dsimp only))) | (apply Keeps.rest; with_reducible (first | (assumption) | (apply withStore_keeps) | (apply recUnits_keeps))))

theorem eventDropped_keeps {a₀ : State} {s : State} {x : ℕ} (hk : Keeps a₀ s) : Keeps a₀ (eventDropped s x) := by
  unfold eventDropped
  repeat' (first | (with_reducible (first | (assumption) | (apply modCtx_keeps) | (refine ite_keeps ?_ ?_) | split | (intro _) | (dsimp only))) | (apply Keeps.rest; with_reducible (first | (assumption) | (apply modCtx_keeps))))

theorem eventTry_keeps_of {a₀ z : State} {s : State} {x : ℕ} {r : List Byte} (he : eventTry s x r = some z) (hk : Keeps a₀ s) : Keeps a₀ z := by
  unfold eventTry at he
  repeat' (first | split at he | (simp only [Option.some.injEq, Prod.mk.injEq, reduceCtorEq] at he) | (obtain ⟨-, rfl⟩ := he) | (subst he))
  all_goals repeat' (first | (with_reducible (first | (assumption) | (apply modCtx_keeps) | (apply eventDropped_keeps) | (apply interrupt_keeps) | (apply hubWrite_keeps) | (refine hubWrite_keeps_of (by assumption) ?_) | (refine ite_keeps ?_ ?_) | split | (intro _) | (dsimp only))) | (apply Keeps.rest; with_reducible (first | (assumption) | (apply modCtx_keeps) | (apply eventDropped_keeps) | (apply interrupt_keeps) | (apply hubWrite_keeps) | (refine hubWrite_keeps_of (by assumption) ?_))))

theorem event_keeps {a₀ : State} {s : State} {x : ℕ} {r : List Byte} (hk : Keeps a₀ s) : Keeps a₀ (event s x r) := by
  unfold event
  repeat' (first | (with_reducible (first | (assumption) | (refine eventTry_keeps_of (by assumption) ?_) | (refine ite_keeps ?_ ?_) | split | (intro _) | (dsimp only))) | (apply Keeps.rest; with_reducible (first | (assumption) | (refine eventTry_keeps_of (by assumption) ?_))))

theorem rasCtx_keeps {a₀ : State} {s : State} {x : ℕ} {code : Code} {q : ℕ} {unit : BitVec 32} (hk : Keeps a₀ s) : Keeps a₀ (rasCtx s x code q unit) := by
  unfold rasCtx
  repeat' (first | (with_reducible (first | (assumption) | (apply event_keeps) | (refine ite_keeps ?_ ?_) | split | (intro _) | (dsimp only))) | (apply Keeps.rest; with_reducible (first | (assumption) | (apply event_keeps))))

theorem report_keeps {a₀ : State} {s : State} {xs : List ℕ} {code : Code} {kind : ℕ} {unit : BitVec 32} {detail : ℕ} (hk : Keeps a₀ s) : Keeps a₀ (report s xs code kind unit detail) := by
  unfold report
  repeat' (first | (with_reducible (first | (assumption) | (apply rasCtx_keeps) | (apply rasTo_keeps) | (refine forEach_keeps ?_ ?_) | (refine ite_keeps ?_ ?_) | split | (intro _) | (dsimp only))) | (apply Keeps.rest; with_reducible (first | (assumption) | (apply rasCtx_keeps) | (apply rasTo_keeps) | (refine forEach_keeps ?_ ?_))))

theorem dropPoolReqs_keeps {a₀ : State} {s : State} {p : ℕ} {q : ℕ} (hk : Keeps a₀ s) : Keeps a₀ (dropPoolReqs s p q) := by
  unfold dropPoolReqs
  repeat' (first | (with_reducible (first | (assumption) | (apply setPool_keeps) | (refine ite_keeps ?_ ?_) | split | (intro _) | (dsimp only))) | (apply Keeps.rest; with_reducible (first | (assumption) | (apply setPool_keeps))))

theorem freeSlots_keeps {a₀ : State} {s : State} {x : Gang} (hk : Keeps a₀ s) : Keeps a₀ (freeSlots s x) := by
  unfold freeSlots
  repeat' (first | (with_reducible (first | (assumption) | (apply modCtx_keeps) | (refine ite_keeps ?_ ?_) | split | (intro _) | (dsimp only))) | (apply Keeps.rest; with_reducible (first | (assumption) | (apply modCtx_keeps))))

theorem dropGang_keeps {a₀ : State} {s : State} {x : Gang} (hk : Keeps a₀ s) : Keeps a₀ (dropGang s x) := by
  unfold dropGang
  repeat' (first | (with_reducible (first | (assumption) | (refine forEach_keeps ?_ ?_) | (apply freeSlots_keeps) | (apply modCore_keeps) | (refine ite_keeps ?_ ?_) | split | (intro _) | (dsimp only))) | (apply Keeps.rest; with_reducible (first | (assumption) | (refine forEach_keeps ?_ ?_) | (apply freeSlots_keeps) | (apply modCore_keeps))))

theorem setGang_keeps {a₀ : State} {s : State} {x : Gang} (hk : Keeps a₀ s) : Keeps a₀ (setGang s x) := by
  unfold setGang
  repeat' (first | (with_reducible (first | (assumption) | (refine ite_keeps ?_ ?_) | split | (intro _) | (dsimp only))) | (apply Keeps.rest; with_reducible (first | (assumption))))

theorem stopGang_keeps {a₀ : State} {s : State} {x : Gang} (hk : Keeps a₀ s) : Keeps a₀ (stopGang s x) := by
  unfold stopGang
  repeat' (first | (with_reducible (first | (assumption) | (apply setGang_keeps) | (refine forEach_keeps ?_ ?_) | (apply dropGang_keeps) | (apply modCore_keeps) | (refine ite_keeps ?_ ?_) | split | (intro _) | (dsimp only))) | (apply Keeps.rest; with_reducible (first | (assumption) | (apply setGang_keeps) | (refine forEach_keeps ?_ ?_) | (apply dropGang_keeps) | (apply modCore_keeps))))

theorem guilty_keeps {a₀ : State} {s : State} {q : ℕ} {code : Code} {f : Option EntryFault} {checkFailed : Bool} (hk : Keeps a₀ s) : Keeps a₀ (guilty s q code f checkFailed) := by
  unfold guilty
  repeat' (first | (with_reducible (first | (assumption) | (apply setQueue_keeps) | (apply modQueue_keeps) | (apply dropPoolReqs_keeps) | (apply stopGang_keeps) | (refine forEach_keeps ?_ ?_) | (refine ite_keeps ?_ ?_) | split | (intro _) | (dsimp only))) | (apply Keeps.rest; with_reducible (first | (assumption) | (apply setQueue_keeps) | (apply modQueue_keeps) | (apply dropPoolReqs_keeps) | (apply stopGang_keeps) | (refine forEach_keeps ?_ ?_))))

theorem entryFault_keeps {a₀ : State} {s : State} {q : ℕ} {code : Code} {node : ℕ} {off : ℕ} (hk : Keeps a₀ s) : Keeps a₀ (entryFault s q code node off) := by
  unfold entryFault
  repeat' (first | (with_reducible (first | (assumption) | (apply guilty_keeps) | (refine ite_keeps ?_ ?_) | split | (intro _) | (dsimp only))) | (apply Keeps.rest; with_reducible (first | (assumption) | (apply guilty_keeps))))

theorem tooLarge_keeps {a₀ : State} {s : State} (hk : Keeps a₀ s) : Keeps a₀ (tooLarge s) := by
  unfold tooLarge
  repeat' (first | (with_reducible (first | (assumption) | (apply entryFault_keeps) | (apply guilty_keeps) | (refine forEach_keeps ?_ ?_) | (refine ite_keeps ?_ ?_) | split | (intro _) | (dsimp only))) | (apply Keeps.rest; with_reducible (first | (assumption) | (apply entryFault_keeps) | (apply guilty_keeps) | (refine forEach_keeps ?_ ?_))))

theorem retireCore_keeps {a₀ : State} {s : State} {c : ℕ} {withField : Bool} (hk : Keeps a₀ s) : Keeps a₀ (retireCore s c withField) := by
  unfold retireCore
  repeat' (first | (with_reducible (first | (assumption) | (apply tooLarge_keeps) | (apply report_keeps) | (apply recRetire_keeps) | (apply modCore_keeps) | (refine ite_keeps ?_ ?_) | split | (intro _) | (dsimp only))) | (apply Keeps.rest; with_reducible (first | (assumption) | (apply tooLarge_keeps) | (apply report_keeps) | (apply recRetire_keeps) | (apply modCore_keeps))))

theorem retireIfDue_keeps {a₀ : State} {s : State} {c : ℕ} (hk : Keeps a₀ s) : Keeps a₀ (retireIfDue s c) := by
  unfold retireIfDue
  repeat' (first | (with_reducible (first | (assumption) | (apply retireCore_keeps) | (refine ite_keeps ?_ ?_) | split | (intro _) | (dsimp only))) | (apply Keeps.rest; with_reducible (first | (assumption) | (apply retireCore_keeps))))

theorem completeChisel_keeps {a₀ : State} {c : Core} {s : State} {kind : EngKind} (hk : Keeps a₀ s) : Keeps a₀ (completeChisel c s kind) := by
  unfold completeChisel
  repeat' (first | (with_reducible (first | (assumption) | (apply retireIfDue_keeps) | (apply setCore_keeps) | (refine ite_keeps ?_ ?_) | split | (intro _) | (dsimp only))) | (apply Keeps.rest; with_reducible (first | (assumption) | (apply retireIfDue_keeps) | (apply setCore_keeps))))

theorem lateEvents_keeps {a₀ : State} {s : State} (hk : Keeps a₀ s) : Keeps a₀ (lateEvents s) := by
  unfold lateEvents
  repeat' (first | (with_reducible (first | (assumption) | (apply event_keeps) | (refine forEach_keeps ?_ ?_) | (refine ite_keeps ?_ ?_) | split | (intro _) | (dsimp only))) | (apply Keeps.rest; with_reducible (first | (assumption) | (apply event_keeps) | (refine forEach_keeps ?_ ?_))))

theorem modPkt_keeps {a₀ : State} {s : State} {q : ℕ} {node : ℕ} {off : ℕ} {f : PktRun → PktRun} (hk : Keeps a₀ s) : Keeps a₀ (modPkt s q node off f) := by
  unfold modPkt
  repeat' (first | (with_reducible (first | (assumption) | (apply modQueue_keeps) | (refine ite_keeps ?_ ?_) | split | (intro _) | (dsimp only))) | (apply Keeps.rest; with_reducible (first | (assumption) | (apply modQueue_keeps))))

theorem guiltyCtx_keeps {a₀ : State} {s : State} {x : ℕ} (hk : Keeps a₀ s) : Keeps a₀ (guiltyCtx s x) := by
  unfold guiltyCtx
  repeat' (first | (with_reducible (first | (assumption) | (apply guilty_keeps) | (refine forEach_keeps ?_ ?_) | (refine ite_keeps ?_ ?_) | split | (intro _) | (dsimp only))) | (apply Keeps.rest; with_reducible (first | (assumption) | (apply guilty_keeps) | (refine forEach_keeps ?_ ?_))))

theorem nodeSettle_keeps {a₀ : State} {s : State} {q : ℕ} {node : ℕ} (hk : Keeps a₀ s) : Keeps a₀ (nodeSettle s q node) := by
  unfold nodeSettle
  repeat' (first | (with_reducible (first | (assumption) | (apply modQueue_keeps) | (refine ite_keeps ?_ ?_) | split | (intro _) | (dsimp only))) | (apply Keeps.rest; with_reducible (first | (assumption) | (apply modQueue_keeps))))

theorem acquire_keeps {a₀ : State} {s : State} {t : ℕ} (hk : Keeps a₀ s) : Keeps a₀ (acquire s t) := by
  unfold acquire
  repeat' (first | (with_reducible (first | (assumption) | (apply modTower_keeps) | (refine ite_keeps ?_ ?_) | split | (intro _) | (dsimp only))) | (apply Keeps.rest; with_reducible (first | (assumption) | (apply modTower_keeps))))

theorem flushPass_keeps {a₀ : State} {s : State} {x : ℕ} (hk : Keeps a₀ s) : Keeps a₀ (flushPass s x) := by
  unfold flushPass
  repeat' (first | (with_reducible (first | (assumption) | (apply writeBack_keeps) | (refine forEach_keeps ?_ ?_) | (apply modTower_keeps) | (refine ite_keeps ?_ ?_) | split | (intro _) | (dsimp only))) | (apply Keeps.rest; with_reducible (first | (assumption) | (apply writeBack_keeps) | (refine forEach_keeps ?_ ?_) | (apply modTower_keeps))))

theorem startRank_keeps {a₀ : State} {x : Gang} {s : State} {p : ℕ × ℕ} (hk : Keeps a₀ s) : Keeps a₀ (startRank x s p) := by
  unfold startRank
  repeat' (first | (with_reducible (first | (assumption) | (apply acquire_keeps) | (apply modCore_keeps) | (refine ite_keeps ?_ ?_) | split | (intro _) | (dsimp only))) | (apply Keeps.rest; with_reducible (first | (assumption) | (apply acquire_keeps) | (apply modCore_keeps))))

theorem finishGang_keeps {a₀ : State} {s : State} {g : ℕ} (hk : Keeps a₀ s) : Keeps a₀ (finishGang s g) := by
  unfold finishGang
  repeat' (first | (with_reducible (first | (assumption) | (apply nodeSettle_keeps) | (apply tooLarge_keeps) | (apply modPkt_keeps) | (apply setGang_keeps) | (apply dropGang_keeps) | (refine ite_keeps ?_ ?_) | split | (intro _) | (dsimp only))) | (apply Keeps.rest; with_reducible (first | (assumption) | (apply nodeSettle_keeps) | (apply tooLarge_keeps) | (apply modPkt_keeps) | (apply setGang_keeps) | (apply dropGang_keeps))))

theorem kernelEnded_keeps {a₀ : State} {s : State} {c : ℕ} {code : Code} (hk : Keeps a₀ s) : Keeps a₀ (kernelEnded s c code) := by
  unfold kernelEnded
  repeat' (first | (with_reducible (first | (assumption) | (apply modCtx_keeps) | (apply guilty_keeps) | (apply setGang_keeps) | (apply modCore_keeps) | (apply finishGang_keeps) | (refine ite_keeps ?_ ?_) | split | (intro _) | (dsimp only))) | (apply Keeps.rest; with_reducible (first | (assumption) | (apply modCtx_keeps) | (apply guilty_keeps) | (apply setGang_keeps) | (apply modCore_keeps) | (apply finishGang_keeps))))

theorem countCe_keeps {a₀ : State} {s : State} {c : ℕ} {src : ℕ} (hk : Keeps a₀ s) : Keeps a₀ (countCe s c src) := by
  unfold countCe
  repeat' (first | (with_reducible (first | (assumption) | (apply retireIfDue_keeps) | (apply setCore_keeps) | (refine ite_keeps ?_ ?_) | split | (intro _) | (dsimp only))) | (apply Keeps.rest; with_reducible (first | (assumption) | (apply retireIfDue_keeps) | (apply setCore_keeps))))

end Sys2Proof.Machine
end

