-- ==== Sys2Proof/Laws/KeepsQueues.lean ====
section
/-!
SUPPORT. The operations of queues, packets, graphs, pools and gangs leave the clock and the waiting commands alone and keep the canonical form.
-/

namespace Sys2Proof.Machine

theorem pin_keeps {a₀ : State} {s : State} {q : ℕ} {r : List Byte} (hk : Keeps a₀ s) : Keeps a₀ (pin s q r) := by
  unfold pin
  repeat' (first | (with_reducible (first | (assumption) | (apply hubRead_keeps) | (refine hubRead_keeps_of (by assumption) ?_) | (apply modQueue_keeps) | (apply guilty_keeps) | (apply hubWrite_keeps) | (refine hubWrite_keeps_of (by assumption) ?_) | (refine ite_keeps ?_ ?_) | split | (intro _) | (dsimp only))) | (apply Keeps.rest; with_reducible (first | (assumption) | (apply hubRead_keeps) | (refine hubRead_keeps_of (by assumption) ?_) | (apply modQueue_keeps) | (apply guilty_keeps) | (apply hubWrite_keeps) | (refine hubWrite_keeps_of (by assumption) ?_))))

theorem launchProbe_keeps {a₀ : State} {s : State} {k : Queue} {bs : List Byte} (hk : Keeps a₀ s) : Keeps a₀ (launchProbe s k bs).2 := by
  unfold launchProbe
  repeat' (first | (with_reducible (first | (assumption) | (apply hubProbe_keeps) | (refine hubProbe_keeps_of (by assumption) ?_) | (apply hubRead_keeps) | (refine hubRead_keeps_of (by assumption) ?_) | (refine ite_keeps ?_ ?_) | split | (intro _) | (dsimp only))) | (apply Keeps.rest; with_reducible (first | (assumption) | (apply hubProbe_keeps) | (refine hubProbe_keeps_of (by assumption) ?_) | (apply hubRead_keeps) | (refine hubRead_keeps_of (by assumption) ?_))))

theorem launchProbe_keeps_of {a₀ z : State} {s : State} {k : Queue} {bs : List Byte} {y0 : Bool} (he : launchProbe s k bs = (y0, z)) (hk : Keeps a₀ s) : Keeps a₀ z := by
  have := launchProbe_keeps (s := s) (k := k) (bs := bs) hk
  rwa [he] at this

theorem popped_keeps {a₀ : State} {s : State} {q : ℕ} {k : Queue} {c : Code} {bs : List Byte} (hk : Keeps a₀ s) : Keeps a₀ (popped s q k c bs) := by
  unfold popped
  repeat' (first | (with_reducible (first | (assumption) | (apply setQueue_keeps) | (apply guilty_keeps) | (apply pin_keeps) | (refine ite_keeps ?_ ?_) | split | (intro _) | (dsimp only))) | (apply Keeps.rest; with_reducible (first | (assumption) | (apply setQueue_keeps) | (apply guilty_keeps) | (apply pin_keeps))))

theorem startNode_keeps {a₀ : State} {s : State} {q : ℕ} {i : ℕ} (hk : Keeps a₀ s) : Keeps a₀ (startNode s q i) := by
  unfold startNode
  repeat' (first | (with_reducible (first | (assumption) | (apply modQueue_keeps) | (refine ite_keeps ?_ ?_) | split | (intro _) | (dsimp only))) | (apply Keeps.rest; with_reducible (first | (assumption) | (apply modQueue_keeps))))

theorem lateFault_keeps {a₀ : State} {s : State} {q : ℕ} {x : ℕ} {c : Code} (hk : Keeps a₀ s) : Keeps a₀ (lateFault s q x c) := by
  unfold lateFault
  repeat' (first | (with_reducible (first | (assumption) | (apply rasCtx_keeps) | (refine ite_keeps ?_ ?_) | split | (intro _) | (dsimp only))) | (apply Keeps.rest; with_reducible (first | (assumption) | (apply rasCtx_keeps))))

theorem unpin_keeps {a₀ : State} {s : State} {q : ℕ} {x : ℕ} {e : EntryRun} (hk : Keeps a₀ s) : Keeps a₀ (unpin s q x e).1 := by
  unfold unpin
  repeat' (first | (with_reducible (first | (assumption) | (apply hubRead_keeps) | (refine hubRead_keeps_of (by assumption) ?_) | (apply hubWrite_keeps) | (refine hubWrite_keeps_of (by assumption) ?_) | (apply lateFault_keeps) | (refine ite_keeps ?_ ?_) | split | (intro _) | (dsimp only))) | (apply Keeps.rest; with_reducible (first | (assumption) | (apply hubRead_keeps) | (refine hubRead_keeps_of (by assumption) ?_) | (apply hubWrite_keeps) | (refine hubWrite_keeps_of (by assumption) ?_) | (apply lateFault_keeps))))

theorem unpin_keeps_of {a₀ z : State} {s : State} {q : ℕ} {x : ℕ} {e : EntryRun} {y1 : Option (BitVec 64)} (he : unpin s q x e = (z, y1)) (hk : Keeps a₀ s) : Keeps a₀ z := by
  have := unpin_keeps (s := s) (q := q) (x := x) (e := e) hk
  rwa [he] at this

theorem freedEvent_keeps {a₀ : State} {s : State} {x : ℕ} {img : BitVec 64} (hk : Keeps a₀ s) : Keeps a₀ (freedEvent s x img) := by
  unfold freedEvent
  repeat' (first | (with_reducible (first | (assumption) | (apply event_keeps) | (refine ite_keeps ?_ ?_) | split | (intro _) | (dsimp only))) | (apply Keeps.rest; with_reducible (first | (assumption) | (apply event_keeps))))

theorem completeSteps_keeps {a₀ : State} {s : State} {q : ℕ} {x : ℕ} {e : EntryRun} {crec : ℕ} {sig : ℕ} {irq : Bool} {status : Code} {cause : Code} {f : Option EntryFault} (hk : Keeps a₀ s) : Keeps a₀ (completeSteps s q x e crec sig irq status cause f) := by
  unfold completeSteps
  repeat' (first | (with_reducible (first | (assumption) | (apply flushPass_keeps) | (apply hubAtomic_keeps) | (refine hubAtomic_keeps_of (by assumption) ?_) | (apply interrupt_keeps) | (apply hubWrite_keeps) | (refine hubWrite_keeps_of (by assumption) ?_) | (apply lateFault_keeps) | (refine ite_keeps ?_ ?_) | split | (intro _) | (dsimp only))) | (apply Keeps.rest; with_reducible (first | (assumption) | (apply flushPass_keeps) | (apply hubAtomic_keeps) | (refine hubAtomic_keeps_of (by assumption) ?_) | (apply interrupt_keeps) | (apply hubWrite_keeps) | (refine hubWrite_keeps_of (by assumption) ?_) | (apply lateFault_keeps))))

theorem modNode_keeps {a₀ : State} {s : State} {q : ℕ} {node : ℕ} {f : NodeRun → NodeRun} (hk : Keeps a₀ s) : Keeps a₀ (modNode s q node f) := by
  unfold modNode
  repeat' (first | (with_reducible (first | (assumption) | (apply modQueue_keeps) | (refine ite_keeps ?_ ?_) | split | (intro _) | (dsimp only))) | (apply Keeps.rest; with_reducible (first | (assumption) | (apply modQueue_keeps))))

theorem addGang_keeps {a₀ : State} {s : State} {x : Gang} (hk : Keeps a₀ s) : Keeps a₀ (addGang s x) := by
  unfold addGang
  repeat' (first | (with_reducible (first | (assumption) | (refine ite_keeps ?_ ?_) | split | (intro _) | (dsimp only))) | (apply Keeps.rest; with_reducible (first | (assumption))))

theorem issuePkt_keeps {a₀ : State} {s : State} {q : ℕ} {node : ℕ} {p : List Byte} {st : PktSt} (hk : Keeps a₀ s) : Keeps a₀ (issuePkt s q node p st) := by
  unfold issuePkt
  repeat' (first | (with_reducible (first | (assumption) | (apply modNode_keeps) | (refine ite_keeps ?_ ?_) | split | (intro _) | (dsimp only))) | (apply Keeps.rest; with_reducible (first | (assumption) | (apply modNode_keeps))))

theorem readPkt_keeps {a₀ : State} {s : State} {x : ℕ} {a : BitVec 64} {left : ℕ} {r : Reply} (hk : Keeps a₀ s) : Keeps a₀ (readPkt s x a left r).s := by
  unfold readPkt
  repeat' (first | (with_reducible (first | (assumption) | (apply hubRead_keeps) | (refine hubRead_keeps_of (by assumption) ?_) | (apply hubReadLoop_keeps) | (refine hubReadLoop_keeps_of (by assumption) ?_) | (refine ite_keeps ?_ ?_) | split | (intro _) | (dsimp only))) | (apply Keeps.rest; with_reducible (first | (assumption) | (apply hubRead_keeps) | (refine hubRead_keeps_of (by assumption) ?_) | (apply hubReadLoop_keeps) | (refine hubReadLoop_keeps_of (by assumption) ?_))))

theorem readPkt_keeps_of {a₀ z : State} {s : State} {x : ℕ} {a : BitVec 64} {left : ℕ} {r : Reply} {y1 : Code} {y2 : List Byte} (he : readPkt s x a left r = ⟨y1, y2, z⟩) (hk : Keeps a₀ s) : Keeps a₀ z := by
  have := readPkt_keeps (s := s) (x := x) (a := a) (left := left) (r := r) hk
  rwa [he] at this

theorem headPkt_keeps {a₀ : State} {s : State} {q : ℕ} {node : ℕ} {e : EntryRun} {n : NodeRun} {p : List Byte} (hk : Keeps a₀ s) : Keeps a₀ (headPkt s q node e n p) := by
  unfold headPkt
  repeat' (first | (with_reducible (first | (assumption) | (apply issuePkt_keeps) | (apply addGang_keeps) | (apply modNode_keeps) | (refine ite_keeps ?_ ?_) | split | (intro _) | (dsimp only))) | (apply Keeps.rest; with_reducible (first | (assumption) | (apply issuePkt_keeps) | (apply addGang_keeps) | (apply modNode_keeps))))

theorem pktEnd_keeps {a₀ : State} {s : State} {q : ℕ} {node : ℕ} {off : ℕ} {p : PktRun} {c : Code} (hk : Keeps a₀ s) : Keeps a₀ (pktEnd s q node off p c) := by
  unfold pktEnd
  repeat' (first | (with_reducible (first | (assumption) | (apply nodeSettle_keeps) | (apply modPkt_keeps) | (apply entryFault_keeps) | (apply modNode_keeps) | (refine ite_keeps ?_ ?_) | split | (intro _) | (dsimp only))) | (apply Keeps.rest; with_reducible (first | (assumption) | (apply nodeSettle_keeps) | (apply modPkt_keeps) | (apply entryFault_keeps) | (apply modNode_keeps))))

theorem onIssued_keeps {a₀ s : State} {q node off : Nat} {op : BitVec 8} {f : PktRun → State} (hk : Keeps a₀ s)
    (hf : ∀ p, Keeps a₀ (f p)) : KeepsRes a₀ (onIssued s q node off op f) := by
  unfold onIssued
  split
  · exact KeepsRes.next hk
  · split
    · exact KeepsRes.next (hf _)
    · exact KeepsRes.next hk

theorem performed_keeps {a₀ : State} {s : State} {q : ℕ} {node : ℕ} {off : ℕ} {c : Code} (hk : Keeps a₀ s) : Keeps a₀ (performed s q node off c) := by
  unfold performed
  repeat' (first | (with_reducible (first | (assumption) | (apply modPkt_keeps) | (refine ite_keeps ?_ ?_) | split | (intro _) | (dsimp only))) | (apply Keeps.rest; with_reducible (first | (assumption) | (apply modPkt_keeps))))

theorem writeRes_keeps {a₀ : State} {s : State} {x : ℕ} {res : BitVec 64} {c : Code} (hk : Keeps a₀ s) : Keeps a₀ (writeRes s x res c).2 := by
  unfold writeRes
  repeat' (first | (with_reducible (first | (assumption) | (apply hubWrite_keeps) | (refine hubWrite_keeps_of (by assumption) ?_) | (refine ite_keeps ?_ ?_) | split | (intro _) | (dsimp only))) | (apply Keeps.rest; with_reducible (first | (assumption) | (apply hubWrite_keeps) | (refine hubWrite_keeps_of (by assumption) ?_))))

theorem writeRes_keeps_of {a₀ z : State} {s : State} {x : ℕ} {res : BitVec 64} {c : Code} {y0 : Code} (he : writeRes s x res c = (y0, z)) (hk : Keeps a₀ s) : Keeps a₀ z := by
  have := writeRes_keeps (s := s) (x := x) (res := res) (c := c) hk
  rwa [he] at this

theorem enqStep_keeps {a₀ : State} {s : State} {q : ℕ} {node : ℕ} {off : ℕ} {p : PktRun} {r : Reply} (hk : Keeps a₀ s) : Keeps a₀ (enqStep s q node off p r) := by
  unfold enqStep
  repeat' (first | (with_reducible (first | (assumption) | (apply setQueue_keeps) | (apply hubProbe_keeps) | (refine hubProbe_keeps_of (by assumption) ?_) | (apply performed_keeps) | (apply modPkt_keeps) | (apply hubWrite_keeps) | (refine hubWrite_keeps_of (by assumption) ?_) | (apply writeRes_keeps) | (refine writeRes_keeps_of (by assumption) ?_) | (refine ite_keeps ?_ ?_) | split | (intro _) | (dsimp only))) | (apply Keeps.rest; with_reducible (first | (assumption) | (apply setQueue_keeps) | (apply hubProbe_keeps) | (refine hubProbe_keeps_of (by assumption) ?_) | (apply performed_keeps) | (apply modPkt_keeps) | (apply hubWrite_keeps) | (refine hubWrite_keeps_of (by assumption) ?_) | (apply writeRes_keeps) | (refine writeRes_keeps_of (by assumption) ?_))))

theorem readImage_keeps {a₀ : State} {s : State} {x : ℕ} {a : BitVec 64} (hk : Keeps a₀ s) : Keeps a₀ (readImage s x a).s := by
  unfold readImage
  repeat' (first | (with_reducible (first | (assumption) | (apply hubRead_keeps) | (refine hubRead_keeps_of (by assumption) ?_) | (refine ite_keeps ?_ ?_) | split | (intro _) | (dsimp only))) | (apply Keeps.rest; with_reducible (first | (assumption) | (apply hubRead_keeps) | (refine hubRead_keeps_of (by assumption) ?_))))

theorem readImage_keeps_of {a₀ z : State} {s : State} {x : ℕ} {a : BitVec 64} {y1 : Code} {y2 : List Byte} (he : readImage s x a = ⟨y1, y2, z⟩) (hk : Keeps a₀ s) : Keeps a₀ z := by
  have := readImage_keeps (s := s) (x := x) (a := a) hk
  rwa [he] at this

theorem ginitStep_keeps {a₀ : State} {s : State} {q : ℕ} {node : ℕ} {off : ℕ} {p : PktRun} (hk : Keeps a₀ s) : Keeps a₀ (ginitStep s q node off p) := by
  unfold ginitStep
  repeat' (first | (with_reducible (first | (assumption) | (apply hubProbe_keeps) | (refine hubProbe_keeps_of (by assumption) ?_) | (apply hubRead_keeps) | (refine hubRead_keeps_of (by assumption) ?_) | (apply performed_keeps) | (apply readImage_keeps) | (refine readImage_keeps_of (by assumption) ?_) | (apply hubWrite_keeps) | (refine hubWrite_keeps_of (by assumption) ?_) | (refine ite_keeps ?_ ?_) | split | (intro _) | (dsimp only))) | (apply Keeps.rest; with_reducible (first | (assumption) | (apply hubProbe_keeps) | (refine hubProbe_keeps_of (by assumption) ?_) | (apply hubRead_keeps) | (refine hubRead_keeps_of (by assumption) ?_) | (apply performed_keeps) | (apply readImage_keeps) | (refine readImage_keeps_of (by assumption) ?_) | (apply hubWrite_keeps) | (refine hubWrite_keeps_of (by assumption) ?_))))

theorem applyPatches_keeps {a₀ : State} {x : ℕ} {src dst : BitVec 64} {nn : ℕ} {L : List ℕ} {s : State} (hk : Keeps a₀ s) :
    Keeps a₀ (applyPatches x src dst nn L s).2 := by
  induction L generalizing s with
  | nil => exact hk
  | cons i t ih =>
    rw [applyPatches]
    rcases e : hubRead s x 2 (src + BitVec.ofNat 64 (32 * i)) 32 .home with ⟨c, d, s1⟩
    have h1 : Keeps a₀ s1 := hubRead_keeps_of e hk
    dsimp only
    split
    · exact h1
    · split
      · exact h1
      · rcases g : hubWrite s1 x 2 (dst + BitVec.ofNat 64 (64 + 32 * fieldLe d 0 2)) .both (toLe 2 0 ++ d.drop 2) .home with ⟨c2, d2, s2⟩
        have h2 : Keeps a₀ s2 := hubWrite_keeps_of g h1
        dsimp only
        split
        · exact h2
        · exact ih h2

theorem applyPatches_keeps_of {a₀ z : State} {x : ℕ} {src dst : BitVec 64} {nn : ℕ} {L : List ℕ} {s : State} {y0 : Code}
    (he : applyPatches x src dst nn L s = (y0, z)) (hk : Keeps a₀ s) : Keeps a₀ z := by
  have := applyPatches_keeps (x := x) (src := src) (dst := dst) (nn := nn) (L := L) hk
  rwa [he] at this

theorem gpatchSwitch_keeps {a₀ : State} {s : State} {q : ℕ} {node : ℕ} {off : ℕ} {p : PktRun} {hb : List Byte} {img : List Byte} (hk : Keeps a₀ s) : Keeps a₀ (gpatchSwitch s q node off p hb img) := by
  unfold gpatchSwitch
  repeat' (first | (with_reducible (first | (assumption) | (apply freedEvent_keeps) | (apply performed_keeps) | (apply hubWrite_keeps) | (refine hubWrite_keeps_of (by assumption) ?_) | (refine ite_keeps ?_ ?_) | split | (intro _) | (dsimp only))) | (apply Keeps.rest; with_reducible (first | (assumption) | (apply freedEvent_keeps) | (apply performed_keeps) | (apply hubWrite_keeps) | (refine hubWrite_keeps_of (by assumption) ?_))))

theorem gpatchCopy_keeps {a₀ : State} {s : State} {q : ℕ} {node : ℕ} {off : ℕ} {p : PktRun} {hb : List Byte} {img : List Byte} (hk : Keeps a₀ s) : Keeps a₀ (gpatchCopy s q node off p hb img) := by
  unfold gpatchCopy
  repeat' (first | (with_reducible (first | (assumption) | (apply performed_keeps) | (apply applyPatches_keeps) | (refine applyPatches_keeps_of (by assumption) ?_) | (apply hubWrite_keeps) | (refine hubWrite_keeps_of (by assumption) ?_) | (apply gpatchSwitch_keeps) | (refine ite_keeps ?_ ?_) | split | (intro _) | (dsimp only))) | (apply Keeps.rest; with_reducible (first | (assumption) | (apply performed_keeps) | (apply applyPatches_keeps) | (refine applyPatches_keeps_of (by assumption) ?_) | (apply hubWrite_keeps) | (refine hubWrite_keeps_of (by assumption) ?_) | (apply gpatchSwitch_keeps))))

theorem gpatchStep_keeps {a₀ : State} {s : State} {q : ℕ} {node : ℕ} {off : ℕ} {p : PktRun} (hk : Keeps a₀ s) : Keeps a₀ (gpatchStep s q node off p) := by
  unfold gpatchStep
  repeat' (first | (with_reducible (first | (assumption) | (apply hubProbe_keeps) | (refine hubProbe_keeps_of (by assumption) ?_) | (apply hubRead_keeps) | (refine hubRead_keeps_of (by assumption) ?_) | (apply performed_keeps) | (apply readImage_keeps) | (refine readImage_keeps_of (by assumption) ?_) | (apply gpatchCopy_keeps) | (refine ite_keeps ?_ ?_) | split | (intro _) | (dsimp only))) | (apply Keeps.rest; with_reducible (first | (assumption) | (apply hubProbe_keeps) | (refine hubProbe_keeps_of (by assumption) ?_) | (apply hubRead_keeps) | (refine hubRead_keeps_of (by assumption) ?_) | (apply performed_keeps) | (apply readImage_keeps) | (refine readImage_keeps_of (by assumption) ?_) | (apply gpatchCopy_keeps))))

theorem poolOutcome_keeps {a₀ : State} {s : State} {n : ℕ} {r : PoolReq} {c : Code} (hk : Keeps a₀ s) : Keeps a₀ (poolOutcome s n r c) := by
  unfold poolOutcome
  repeat' (first | (with_reducible (first | (assumption) | (apply performed_keeps) | (apply writeRes_keeps) | (refine writeRes_keeps_of (by assumption) ?_) | (refine ite_keeps ?_ ?_) | split | (intro _) | (dsimp only))) | (apply Keeps.rest; with_reducible (first | (assumption) | (apply performed_keeps) | (apply writeRes_keeps) | (refine writeRes_keeps_of (by assumption) ?_))))

theorem poolIssue_keeps {a₀ : State} {s : State} {q : ℕ} {node : ℕ} {off : ℕ} {p : PktRun} {alloc : Bool} (hk : Keeps a₀ s) : Keeps a₀ (poolIssue s q node off p alloc) := by
  unfold poolIssue
  repeat' (first | (with_reducible (first | (assumption) | (apply poolOutcome_keeps) | (apply modPkt_keeps) | (apply setPool_keeps) | (refine ite_keeps ?_ ?_) | split | (intro _) | (dsimp only))) | (apply Keeps.rest; with_reducible (first | (assumption) | (apply poolOutcome_keeps) | (apply modPkt_keeps) | (apply setPool_keeps))))

theorem blockTaken_keeps {a₀ : State} {s : State} {k : Pool} {i : ℕ} (hk : Keeps a₀ s) : Keeps a₀ (blockTaken s k i).2.2 := by
  unfold blockTaken
  repeat' (first | (with_reducible (first | (assumption) | (apply hubReadBoth_keeps) | (refine hubReadBoth_keeps_of (by assumption) ?_) | (refine ite_keeps ?_ ?_) | split | (intro _) | (dsimp only))) | (apply Keeps.rest; with_reducible (first | (assumption) | (apply hubReadBoth_keeps) | (refine hubReadBoth_keeps_of (by assumption) ?_))))

theorem blockTaken_keeps_of {a₀ z : State} {s : State} {k : Pool} {i : ℕ} {y0 : Code} {y1 : Bool} (he : blockTaken s k i = (y0, y1, z)) (hk : Keeps a₀ s) : Keeps a₀ z := by
  have := blockTaken_keeps (s := s) (k := k) (i := i) hk
  rwa [he] at this

theorem markBlock_keeps {a₀ : State} {s : State} {k : Pool} {i : ℕ} {b : Bool} (hk : Keeps a₀ s) : Keeps a₀ (markBlock s k i b).2 := by
  unfold markBlock
  repeat' (first | (with_reducible (first | (assumption) | (apply hubReadBoth_keeps) | (refine hubReadBoth_keeps_of (by assumption) ?_) | (apply hubWrite_keeps) | (refine hubWrite_keeps_of (by assumption) ?_) | (refine ite_keeps ?_ ?_) | split | (intro _) | (dsimp only))) | (apply Keeps.rest; with_reducible (first | (assumption) | (apply hubReadBoth_keeps) | (refine hubReadBoth_keeps_of (by assumption) ?_) | (apply hubWrite_keeps) | (refine hubWrite_keeps_of (by assumption) ?_))))

theorem markBlock_keeps_of {a₀ z : State} {s : State} {k : Pool} {i : ℕ} {b : Bool} {y0 : Code} (he : markBlock s k i b = (y0, z)) (hk : Keeps a₀ s) : Keeps a₀ z := by
  have := markBlock_keeps (s := s) (k := k) (i := i) (b := b) hk
  rwa [he] at this

theorem checkFree_keeps {a₀ : State} {k : Pool} {L : List (Option ℕ)} {s : State} (hk : Keeps a₀ s) : Keeps a₀ (checkFree k L s).2 := by
  induction L generalizing s with
  | nil => exact hk
  | cons p l ih =>
    cases p with
    | none => exact hk
    | some i =>
      rw [checkFree]
      repeat' (first | (with_reducible (first | (assumption) | (apply ih) | (apply blockTaken_keeps) | (refine blockTaken_keeps_of (by assumption) ?_) | (refine ite_keeps ?_ ?_) | split | (intro _) | (dsimp only))) | (apply Keeps.rest; with_reducible (first | (assumption) | (apply ih) | (apply blockTaken_keeps) | (refine blockTaken_keeps_of (by assumption) ?_))))

theorem checkFree_keeps_of {a₀ z : State} {k : Pool} {L : List (Option ℕ)} {s : State} {y0 : Code} (he : checkFree k L s = (y0, z)) (hk : Keeps a₀ s) : Keeps a₀ z := by
  have := checkFree_keeps (k := k) (L := L) (s := s) hk
  rwa [he] at this

theorem pushFree_keeps {a₀ : State} {n : ℕ} {L : List (Option ℕ)} {s : State} (hk : Keeps a₀ s) : Keeps a₀ (pushFree n L s).2 := by
  induction L generalizing s with
  | nil => exact hk
  | cons p l ih =>
    cases p with
    | none => exact ih hk
    | some i =>
      rw [pushFree]
      repeat' (first | (with_reducible (first | (assumption) | (apply ih) | (apply hubWrite_keeps) | (refine hubWrite_keeps_of (by assumption) ?_) | (apply markBlock_keeps) | (refine markBlock_keeps_of (by assumption) ?_) | (apply modPool_keeps) | (refine ite_keeps ?_ ?_) | split | (intro _) | (dsimp only))) | (apply Keeps.rest; with_reducible (first | (assumption) | (apply ih) | (apply hubWrite_keeps) | (refine hubWrite_keeps_of (by assumption) ?_) | (apply markBlock_keeps) | (refine markBlock_keeps_of (by assumption) ?_) | (apply modPool_keeps))))

theorem pushFree_keeps_of {a₀ z : State} {n : ℕ} {L : List (Option ℕ)} {s : State} {y0 : Code} (he : pushFree n L s = (y0, z)) (hk : Keeps a₀ s) : Keeps a₀ z := by
  have := pushFree_keeps (n := n) (L := L) (s := s) hk
  rwa [he] at this

theorem popBlocks_keeps {a₀ : State} {n : ℕ} {b1 : ℕ} {s : State} {L : List ℕ} (hk : Keeps a₀ s) : Keeps a₀ (popBlocks n b1 s L).2.2 := by
  induction b1 generalizing s L with
  | zero => exact hk
  | succ n ih =>
    rw [popBlocks]
    repeat' (first | (with_reducible (first | (assumption) | (apply ih) | (apply hubReadBoth_keeps) | (refine hubReadBoth_keeps_of (by assumption) ?_) | (apply markBlock_keeps) | (refine markBlock_keeps_of (by assumption) ?_) | (apply modPool_keeps) | (refine ite_keeps ?_ ?_) | split | (intro _) | (dsimp only))) | (apply Keeps.rest; with_reducible (first | (assumption) | (apply ih) | (apply hubReadBoth_keeps) | (refine hubReadBoth_keeps_of (by assumption) ?_) | (apply markBlock_keeps) | (refine markBlock_keeps_of (by assumption) ?_) | (apply modPool_keeps))))

theorem popBlocks_keeps_of {a₀ z : State} {n : ℕ} {b1 : ℕ} {s : State} {L : List ℕ} {y0 : Code} {y1 : List ℕ} (he : popBlocks n b1 s L = (y0, y1, z)) (hk : Keeps a₀ s) : Keeps a₀ z := by
  have := popBlocks_keeps (n := n) (b1 := b1) (s := s) (L := L) hk
  rwa [he] at this

theorem freeOne_keeps {a₀ : State} {n : ℕ} {s : State} {r : PoolReq} (hk : Keeps a₀ s) : Keeps a₀ (freeOne n s r) := by
  unfold freeOne
  repeat' (first | (with_reducible (first | (assumption) | (apply pushFree_keeps) | (refine pushFree_keeps_of (by assumption) ?_) | (apply poolOutcome_keeps) | (apply hubRead_keeps) | (refine hubRead_keeps_of (by assumption) ?_) | (apply checkFree_keeps) | (refine checkFree_keeps_of (by assumption) ?_) | (refine ite_keeps ?_ ?_) | split | (intro _) | (dsimp only))) | (apply Keeps.rest; with_reducible (first | (assumption) | (apply pushFree_keeps) | (refine pushFree_keeps_of (by assumption) ?_) | (apply poolOutcome_keeps) | (apply hubRead_keeps) | (refine hubRead_keeps_of (by assumption) ?_) | (apply checkFree_keeps) | (refine checkFree_keeps_of (by assumption) ?_))))

theorem grantOne_keeps {a₀ : State} {n : ℕ} {s : State} {r : PoolReq} (hk : Keeps a₀ s) : Keeps a₀ (grantOne n s r) := by
  unfold grantOne
  repeat' (first | (with_reducible (first | (assumption) | (apply poolOutcome_keeps) | (apply popBlocks_keeps) | (refine popBlocks_keeps_of (by assumption) ?_) | (apply hubWrite_keeps) | (refine hubWrite_keeps_of (by assumption) ?_) | (refine ite_keeps ?_ ?_) | split | (intro _) | (dsimp only))) | (apply Keeps.rest; with_reducible (first | (assumption) | (apply poolOutcome_keeps) | (apply popBlocks_keeps) | (refine popBlocks_keeps_of (by assumption) ?_) | (apply hubWrite_keeps) | (refine hubWrite_keeps_of (by assumption) ?_))))

theorem grantAll_keeps {a₀ : State} {n : ℕ} {L : List PoolReq} {b2 : Bool} {s : State} {b4 : List PoolReq} (hk : Keeps a₀ s) : Keeps a₀ (grantAll n L b2 s b4).1 := by
  induction L generalizing b2 s b4 with
  | nil => exact hk
  | cons p l ih =>
    rw [grantAll]
    repeat' (first | (with_reducible (first | (assumption) | (apply ih) | (apply grantOne_keeps) | (apply poolOutcome_keeps) | (refine ite_keeps ?_ ?_) | split | (intro _) | (dsimp only))) | (apply Keeps.rest; with_reducible (first | (assumption) | (apply ih) | (apply grantOne_keeps) | (apply poolOutcome_keeps))))

theorem grantAll_keeps_of {a₀ z : State} {n : ℕ} {L : List PoolReq} {b2 : Bool} {s : State} {b4 : List PoolReq} {y1 : List PoolReq} (he : grantAll n L b2 s b4 = (z, y1)) (hk : Keeps a₀ s) : Keeps a₀ z := by
  have := grantAll_keeps (n := n) (L := L) (b2 := b2) (s := s) (b4 := b4) hk
  rwa [he] at this

theorem poolProbe_keeps {a₀ : State} {s : State} {k : Pool} {mine : List PoolReq} (hk : Keeps a₀ s) : Keeps a₀ (poolProbe s k mine).2 := by
  unfold poolProbe
  repeat' (first | (with_reducible (first | (assumption) | (apply hubProbe_keeps) | (refine hubProbe_keeps_of (by assumption) ?_) | (refine ite_keeps ?_ ?_) | split | (intro _) | (dsimp only))) | (apply Keeps.rest; with_reducible (first | (assumption) | (apply hubProbe_keeps) | (refine hubProbe_keeps_of (by assumption) ?_))))

theorem poolProbe_keeps_of {a₀ z : State} {s : State} {k : Pool} {mine : List PoolReq} {y0 : Bool} (he : poolProbe s k mine = (y0, z)) (hk : Keeps a₀ s) : Keeps a₀ z := by
  have := poolProbe_keeps (s := s) (k := k) (mine := mine) hk
  rwa [he] at this

theorem poolStep_keeps {a₀ : State} {s : State} {n : ℕ} (hk : Keeps a₀ s) : Keeps a₀ (poolStep s n) := by
  unfold poolStep
  repeat' (first | (with_reducible (first | (assumption) | (apply poolOutcome_keeps) | (apply grantAll_keeps) | (refine grantAll_keeps_of (by assumption) ?_) | (apply poolProbe_keeps) | (refine poolProbe_keeps_of (by assumption) ?_) | (apply freeOne_keeps) | (refine forEach_keeps ?_ ?_) | (apply modPool_keeps) | (refine ite_keeps ?_ ?_) | split | (intro _) | (dsimp only))) | (apply Keeps.rest; with_reducible (first | (assumption) | (apply poolOutcome_keeps) | (apply grantAll_keeps) | (refine grantAll_keeps_of (by assumption) ?_) | (apply poolProbe_keeps) | (refine poolProbe_keeps_of (by assumption) ?_) | (apply freeOne_keeps) | (refine forEach_keeps ?_ ?_) | (apply modPool_keeps))))

theorem placeGang_keeps {a₀ : State} {s : State} {x : Gang} {cs : List ℕ} {ph : CorePhase} {st : GangSt} (hk : Keeps a₀ s) : Keeps a₀ (placeGang s x cs ph st) := by
  unfold placeGang
  repeat' (first | (with_reducible (first | (assumption) | (apply setGang_keeps) | (refine forEach_keeps ?_ ?_) | (apply modCore_keeps) | (refine ite_keeps ?_ ?_) | split | (intro _) | (dsimp only))) | (apply Keeps.rest; with_reducible (first | (assumption) | (apply setGang_keeps) | (refine forEach_keeps ?_ ?_) | (apply modCore_keeps))))

theorem startGang_keeps {a₀ : State} {s : State} {x : Gang} (hk : Keeps a₀ s) : Keeps a₀ (startGang s x) := by
  unfold startGang
  repeat' (first | (with_reducible (first | (assumption) | (apply acquire_keeps) | (apply setGang_keeps) | (refine forEach_keeps ?_ ?_) | (apply modCore_keeps) | (refine ite_keeps ?_ ?_) | split | (intro _) | (dsimp only))) | (apply Keeps.rest; with_reducible (first | (assumption) | (apply acquire_keeps) | (apply setGang_keeps) | (refine forEach_keeps ?_ ?_) | (apply modCore_keeps))))

theorem notice_keeps {a₀ : State} {s : State} {v : Gang} (hk : Keeps a₀ s) : Keeps a₀ (notice s v) := by
  unfold notice
  repeat' (first | (with_reducible (first | (assumption) | (apply modCtx_keeps) | (apply setGang_keeps) | (refine forEach_keeps ?_ ?_) | (apply modCore_keeps) | (refine ite_keeps ?_ ?_) | split | (intro _) | (dsimp only))) | (apply Keeps.rest; with_reducible (first | (assumption) | (apply modCtx_keeps) | (apply setGang_keeps) | (refine forEach_keeps ?_ ?_) | (apply modCore_keeps))))

theorem imageSaved_keeps {a₀ : State} {s : State} {x : Gang} {rank : ℕ} {c : ℕ} (hk : Keeps a₀ s) : Keeps a₀ (imageSaved s x rank c) := by
  unfold imageSaved
  repeat' (first | (with_reducible (first | (assumption) | (apply setGang_keeps) | (apply modCore_keeps) | (apply finishGang_keeps) | (refine ite_keeps ?_ ?_) | split | (intro _) | (dsimp only))) | (apply Keeps.rest; with_reducible (first | (assumption) | (apply setGang_keeps) | (apply modCore_keeps) | (apply finishGang_keeps))))

theorem writeImageAt_keeps {a₀ : State} {s : State} {x : Gang} {rank : ℕ} {c : ℕ} {a : BitVec 64} {bs : List Byte} (hk : Keeps a₀ s) : Keeps a₀ (writeImageAt s x rank c a bs) := by
  unfold writeImageAt
  repeat' (first | (with_reducible (first | (assumption) | (apply imageSaved_keeps) | (apply hubWrite_keeps) | (refine hubWrite_keeps_of (by assumption) ?_) | (apply modCore_keeps) | (refine ite_keeps ?_ ?_) | split | (intro _) | (dsimp only))) | (apply Keeps.rest; with_reducible (first | (assumption) | (apply imageSaved_keeps) | (apply hubWrite_keeps) | (refine hubWrite_keeps_of (by assumption) ?_) | (apply modCore_keeps))))

theorem writeImage_keeps {a₀ : State} {s : State} {x : Gang} {rank : ℕ} {c : ℕ} (hk : Keeps a₀ s) : Keeps a₀ (writeImage s x rank c) := by
  unfold writeImage
  repeat' (first | (with_reducible (first | (assumption) | (apply hubProbe_keeps) | (refine hubProbe_keeps_of (by assumption) ?_) | (apply writeImageAt_keeps) | (refine ite_keeps ?_ ?_) | split | (intro _) | (dsimp only))) | (apply Keeps.rest; with_reducible (first | (assumption) | (apply hubProbe_keeps) | (refine hubProbe_keeps_of (by assumption) ?_) | (apply writeImageAt_keeps))))

theorem restoreOne_keeps {a₀ : State} {s : State} {x : Gang} {rank : ℕ} {c : ℕ} (hk : Keeps a₀ s) : Keeps a₀ (restoreOne s x rank c) := by
  unfold restoreOne
  repeat' (first | (with_reducible (first | (assumption) | (apply hubProbe_keeps) | (refine hubProbe_keeps_of (by assumption) ?_) | (apply modCtx_keeps) | (apply hubRead_keeps) | (refine hubRead_keeps_of (by assumption) ?_) | (apply acquire_keeps) | (apply setGang_keeps) | (apply modCore_keeps) | (refine ite_keeps ?_ ?_) | split | (intro _) | (dsimp only))) | (apply Keeps.rest; with_reducible (first | (assumption) | (apply hubProbe_keeps) | (refine hubProbe_keeps_of (by assumption) ?_) | (apply modCtx_keeps) | (apply hubRead_keeps) | (refine hubRead_keeps_of (by assumption) ?_) | (apply acquire_keeps) | (apply setGang_keeps) | (apply modCore_keeps))))

theorem loseKernel_keeps {a₀ : State} {s : State} {c : ℕ} {x : Gang} (hk : Keeps a₀ s) : Keeps a₀ (loseKernel s c x) := by
  unfold loseKernel
  repeat' (first | (with_reducible (first | (assumption) | (apply nodeSettle_keeps) | (apply modPkt_keeps) | (apply stopGang_keeps) | (apply guilty_keeps) | (apply modNode_keeps) | (apply setGang_keeps) | (refine forEach_keeps ?_ ?_) | (apply dropGang_keeps) | (apply modCore_keeps) | (apply finishGang_keeps) | (refine ite_keeps ?_ ?_) | split | (intro _) | (dsimp only))) | (apply Keeps.rest; with_reducible (first | (assumption) | (apply nodeSettle_keeps) | (apply modPkt_keeps) | (apply stopGang_keeps) | (apply guilty_keeps) | (apply modNode_keeps) | (apply setGang_keeps) | (refine forEach_keeps ?_ ?_) | (apply dropGang_keeps) | (apply modCore_keeps) | (apply finishGang_keeps))))

end Sys2Proof.Machine
end

