-- ==== Sys2Proof/Laws/KeepsMemory.lean ====
section
/-!
SUPPORT. The operations of translation, memory units and the links between dies leave the clock and the waiting commands alone and keep the canonical form.
-/

namespace Sys2Proof.Machine

theorem resumeAccs_keeps {a₀ : State} {b0 : ℕ} {s : State} {b2 : ℕ} (hk : Keeps a₀ s) : Keeps a₀ (resumeAccs b0 s b2) := by
  induction b0 generalizing s with
  | zero => exact hk
  | succ n ih =>
    rw [resumeAccs]
    repeat' (first | (with_reducible (first | (assumption) | (apply ih) | (refine rlbXlate_keeps_of (by assumption) ?_) | (apply settleAcc_keeps) | (refine ite_keeps ?_ ?_) | split | (intro _) | (dsimp only))) | (apply Keeps.rest; with_reducible (first | (assumption) | (apply ih) | (refine rlbXlate_keeps_of (by assumption) ?_) | (apply settleAcc_keeps))))

theorem dropEntries_keeps {a₀ : State} {s : State} {x : ℕ} (hk : Keeps a₀ s) : Keeps a₀ (dropEntries s x) := by
  unfold dropEntries
  repeat' (first | (with_reducible (first | (assumption) | (refine forEach_keeps ?_ ?_) | (apply modCore_keeps) | (refine ite_keeps ?_ ?_) | split | (intro _) | (dsimp only))) | (apply Keeps.rest; with_reducible (first | (assumption) | (refine forEach_keeps ?_ ?_) | (apply modCore_keeps))))

theorem combsOut_keeps {a₀ : State} {s : State} {x : ℕ} (hk : Keeps a₀ s) : Keeps a₀ (combsOut s x) := by
  unfold combsOut
  repeat' (first | (with_reducible (first | (assumption) | (apply combFlush_keeps) | (refine forEach_keeps ?_ ?_) | (refine ite_keeps ?_ ?_) | split | (intro _) | (dsimp only))) | (apply Keeps.rest; with_reducible (first | (assumption) | (apply combFlush_keeps) | (refine forEach_keeps ?_ ?_))))

theorem invStart_keeps {a₀ : State} {s : State} {x : ℕ} (hk : Keeps a₀ s) : Keeps a₀ (invStart s x) := by
  unfold invStart
  repeat' (first | (with_reducible (first | (assumption) | (apply modCtx_keeps) | (apply dropEntries_keeps) | (apply combsOut_keeps) | (refine ite_keeps ?_ ?_) | split | (intro _) | (dsimp only))) | (apply Keeps.rest; with_reducible (first | (assumption) | (apply modCtx_keeps) | (apply dropEntries_keeps) | (apply combsOut_keeps))))

theorem xctlWrite_keeps {a₀ : State} {s : State} {x : ℕ} {v : BitVec 32} (hk : Keeps a₀ s) : Keeps a₀ (xctlWrite s x v) := by
  unfold xctlWrite
  repeat' (first | (with_reducible (first | (assumption) | (apply modCtx_keeps) | (apply invStart_keeps) | (apply setCtx_keeps) | (refine ite_keeps ?_ ?_) | split | (intro _) | (dsimp only))) | (apply Keeps.rest; with_reducible (first | (assumption) | (apply modCtx_keeps) | (apply invStart_keeps) | (apply setCtx_keeps))))

theorem owncmdWrite_keeps {a₀ : State} {s : State} {v : BitVec 64} (hk : Keeps a₀ s) : Keeps a₀ (owncmdWrite s v) := by
  unfold owncmdWrite
  repeat' (first | (with_reducible (first | (assumption) | (refine ite_keeps ?_ ?_) | split | (intro _) | (dsimp only))) | (apply Keeps.rest; with_reducible (first | (assumption))))

theorem dropSpan_keeps {a₀ : State} {s : State} {lo : ℕ} {n : ℕ} (hk : Keeps a₀ s) : Keeps a₀ (dropSpan s lo n) := by
  unfold dropSpan
  repeat' (first | (with_reducible (first | (assumption) | (apply homeLeave_keeps) | (apply writeBack_keeps) | (refine forEach_keeps ?_ ?_) | (apply modTower_keeps) | (refine ite_keeps ?_ ?_) | split | (intro _) | (dsimp only))) | (apply Keeps.rest; with_reducible (first | (assumption) | (apply homeLeave_keeps) | (apply writeBack_keeps) | (refine forEach_keeps ?_ ?_) | (apply modTower_keeps))))

theorem ownWritten_keeps {a₀ : State} {s : State} {lo : ℕ} {n : ℕ} {e : BitVec 16} (hk : Keeps a₀ s) : Keeps a₀ (ownWritten s lo n e) := by
  exact ⟨hk.pending, hk.now, fun x => { hk.canon x with owner := tabWf_foldl _ (fun t b h => tabWf_tset h _ _) _ (hk.canon x).owner }⟩

theorem bar2Answer_keeps {a₀ : State} {s : State} {d : List Byte} (hk : Keeps a₀ s) : Keeps a₀ (bar2Answer s d) := by
  unfold bar2Answer
  repeat' (first | (with_reducible (first | (assumption) | (apply withHost_keeps) | (refine ite_keeps ?_ ?_) | split | (intro _) | (dsimp only))) | (apply Keeps.rest; with_reducible (first | (assumption) | (apply withHost_keeps))))

theorem swapPage_keeps {a₀ : State} {s : State} {m : Migr} {v : ℕ} (hk : Keeps a₀ s) : Keeps a₀ (swapPage s m v) := by
  unfold swapPage
  repeat' (first | (with_reducible (first | (assumption) | (apply sysRead_keeps) | (refine sysRead_keeps_of (by assumption) ?_) | (apply sysWrite_keeps) | (refine sysWrite_keeps_of (by assumption) ?_) | (refine ite_keeps ?_ ?_) | split | (intro _) | (dsimp only))) | (apply Keeps.rest; with_reducible (first | (assumption) | (apply sysRead_keeps) | (refine sysRead_keeps_of (by assumption) ?_) | (apply sysWrite_keeps) | (refine sysWrite_keeps_of (by assumption) ?_))))

theorem wakeCore_keeps {a₀ s : State} {c : Nat} {m : Migr} {f : State → XSt → BitVec 64 → Need → Bool → XSt × State} {dmaX : XSt}
    (hk : Keeps a₀ s) (hf : ∀ s x va nd b, Keeps a₀ s → Keeps a₀ (f s x va nd b).2) : Keeps a₀ (wakeCore s c m f dmaX) := by
  have hf' : ∀ {s x va nd b t z}, f s x va nd b = (t, z) → Keeps a₀ s → Keeps a₀ z := by
    intro s x va nd b t z e h
    have := hf s x va nd b h
    rwa [e] at this
  unfold wakeCore
  dsimp only
  have h1 : Keeps a₀ (forEach s ((getCore s c).accs.filter fun a => waitsFor m a.x) fun s a =>
      match f s a.x a.va (accNeed a.kind) (accHall a.kind) with
      | (t, s') => settleAcc s' c a t) :=
    forEach_keeps hk fun s a h => settleAcc_keeps (hf _ _ _ _ _ h)
  refine modCore_keeps ?_
  split
  · refine modCore_keeps (hf _ _ _ _ _ ?_)
    split
    · split
      · exact modCore_keeps (recordX_keeps (hf _ _ _ _ _ h1))
      · exact h1
    · exact h1
  · split
    · split
      · exact modCore_keeps (recordX_keeps (hf _ _ _ _ _ h1))
      · exact h1
    · exact h1

theorem migrEnd_keeps {a₀ : State} {s : State} {i : ℕ} {m : Migr} (hk : Keeps a₀ s) : Keeps a₀ (migrEnd s i m) := by
  unfold migrEnd
  repeat' (first | (with_reducible (first | (assumption) | (apply migrIssue_keeps) | (refine ite_keeps ?_ ?_) | split | (intro _) | (dsimp only))) | (apply Keeps.rest; with_reducible (first | (assumption) | (apply migrIssue_keeps))))

theorem migFail_keeps {a₀ : State} {s : State} {i : ℕ} {m : Migr} {code : Code} (hk : Keeps a₀ s) : Keeps a₀ (migFail s i m code) := by
  unfold migFail
  repeat' (first | (with_reducible (first | (assumption) | (apply migrEnd_keeps) | (apply lateEvents_keeps) | (apply xfault_keeps) | (refine wakeCore_keeps ?_ ?_) | (apply swapPage_keeps) | (refine forEach_keeps ?_ ?_) | (refine ite_keeps ?_ ?_) | split | (intro _) | (dsimp only))) | (apply Keeps.rest; with_reducible (first | (assumption) | (apply migrEnd_keeps) | (apply lateEvents_keeps) | (apply xfault_keeps) | (refine wakeCore_keeps ?_ ?_) | (apply swapPage_keeps) | (refine forEach_keeps ?_ ?_))))

theorem writePage_keeps {a₀ : State} {s : State} {m : Migr} {d : List Byte} (hk : Keeps a₀ s) : Keeps a₀ (writePage s m d) := by
  unfold writePage
  repeat' (first | (with_reducible (first | (assumption) | (apply sysWrite_keeps) | (refine sysWrite_keeps_of (by assumption) ?_) | (refine forEach_keeps ?_ ?_) | (refine ite_keeps ?_ ?_) | split | (intro _) | (dsimp only))) | (apply Keeps.rest; with_reducible (first | (assumption) | (apply sysWrite_keeps) | (refine sysWrite_keeps_of (by assumption) ?_) | (refine forEach_keeps ?_ ?_))))

theorem migrAnswer_keeps {a₀ : State} {s : State} {m : Migr} {r : Reply} (hk : Keeps a₀ s) : Keeps a₀ (migrAnswer s m r).2.2 := by
  unfold migrAnswer
  repeat' (first | (with_reducible (first | (assumption) | (apply busAnswer_keeps) | (refine busAnswer_keeps_of (by assumption) ?_) | (apply spanAnswer_keeps) | (refine spanAnswer_keeps_of (by assumption) ?_) | (refine ite_keeps ?_ ?_) | split | (intro _) | (dsimp only))) | (apply Keeps.rest; with_reducible (first | (assumption) | (apply busAnswer_keeps) | (refine busAnswer_keeps_of (by assumption) ?_) | (apply spanAnswer_keeps) | (refine spanAnswer_keeps_of (by assumption) ?_))))

theorem migrAnswer_keeps_of {a₀ z : State} {s : State} {m : Migr} {r : Reply} {y0 : Code} {y1 : List Byte} (he : migrAnswer s m r = (y0, y1, z)) (hk : Keeps a₀ s) : Keeps a₀ z := by
  have := migrAnswer_keeps (s := s) (m := m) (r := r) hk
  rwa [he] at this

theorem loseRowLine_keeps {a₀ : State} {s : State} {c : ℕ} {y : ℕ} (hk : Keeps a₀ s) : Keeps a₀ (loseRowLine s c y) := by
  unfold loseRowLine
  split
  · exact hk
  · exact ⟨hk.pending, hk.now, fun c => { hk.canon c with lost := tabWf_tset (hk.canon c).lost _ _ }⟩

theorem memcfgCount_keeps {a₀ : State} {s : State} (hk : Keeps a₀ s) : Keeps a₀ (memcfgCount s) := by
  unfold memcfgCount
  repeat' (first | (with_reducible (first | (assumption) | (refine ite_keeps ?_ ?_) | split | (intro _) | (dsimp only))) | (apply Keeps.rest; with_reducible (first | (assumption))))

theorem spillChannel_keeps {a₀ : State} {s : State} {c : ℕ} {atRun : Bool} (hk : Keeps a₀ s) : Keeps a₀ (spillChannel s c atRun) := by
  have key : ∀ {l : Tab (Option Lost)} {r : List Nat} {h : HbmChan} (p : Nat × Option Lost → Bool), l = s.lost.filter p →
      Keeps a₀ (setHbm { s with lost := l, restored := r } c h) := by
    intro l r h p e
    subst e
    have h1 : Keeps a₀ { s with lost := s.lost.filter p, restored := r } := ⟨hk.pending, hk.now, fun x => ?_⟩
    · exact setHbm_keeps h1
    have k := hk.canon x
    exact ⟨k.mem, tabWf_filter k.lost p, k.owner, k.cores, k.queues, k.ctxs, k.pools, k.hbm, k.towers, k.mortar, k.lintel⟩
  unfold spillChannel
  exact key _ rfl

theorem retireChannel_keeps {a₀ : State} {s : State} {c : ℕ} {order : Option ℕ} (hk : Keeps a₀ s) : Keeps a₀ (retireChannel s c order) := by
  unfold retireChannel
  repeat' (first | (with_reducible (first | (assumption) | (apply report_keeps) | (apply setHbm_keeps) | (apply spillChannel_keeps) | (apply recRetire_keeps) | (apply memcfgCount_keeps) | (refine ite_keeps ?_ ?_) | split | (intro _) | (dsimp only))) | (apply Keeps.rest; with_reducible (first | (assumption) | (apply report_keeps) | (apply setHbm_keeps) | (apply spillChannel_keeps) | (apply recRetire_keeps) | (apply memcfgCount_keeps))))

theorem homeDropAll_keeps {a₀ : State} {s : State} {t : ℕ} (hk : Keeps a₀ s) : Keeps a₀ (homeDropAll s t) := by
  unfold homeDropAll
  repeat' (first | (with_reducible (first | (assumption) | (apply homeLeave_keeps) | (refine forEach_keeps ?_ ?_) | (apply modTower_keeps) | (refine ite_keeps ?_ ?_) | split | (intro _) | (dsimp only))) | (apply Keeps.rest; with_reducible (first | (assumption) | (apply homeLeave_keeps) | (refine forEach_keeps ?_ ?_) | (apply modTower_keeps))))

theorem guiltyAll_keeps {a₀ : State} {s : State} {xs : List ℕ} (hk : Keeps a₀ s) : Keeps a₀ (guiltyAll s xs) := by
  unfold guiltyAll
  repeat' (first | (with_reducible (first | (assumption) | (apply guiltyCtx_keeps) | (refine forEach_keeps ?_ ?_) | (refine ite_keeps ?_ ?_) | split | (intro _) | (dsimp only))) | (apply Keeps.rest; with_reducible (first | (assumption) | (apply guiltyCtx_keeps) | (refine forEach_keeps ?_ ?_))))

theorem retireQuarry_keeps {a₀ : State} {s : State} {t : ℕ} {u : ℕ} {order : Option ℕ} (hk : Keeps a₀ s) : Keeps a₀ (retireQuarry s t u order) := by
  unfold retireQuarry
  repeat' (first | (with_reducible (first | (assumption) | (apply report_keeps) | (apply homeDropAll_keeps) | (apply guiltyAll_keeps) | (apply recRetire_keeps) | (apply modTower_keeps) | (refine ite_keeps ?_ ?_) | split | (intro _) | (dsimp only))) | (apply Keeps.rest; with_reducible (first | (assumption) | (apply report_keeps) | (apply homeDropAll_keeps) | (apply guiltyAll_keeps) | (apply recRetire_keeps) | (apply modTower_keeps))))

theorem wayLeaves_keeps {a₀ : State} {s : State} {t : ℕ} {way : ℕ} (hk : Keeps a₀ s) : Keeps a₀ (wayLeaves s t way) := by
  unfold wayLeaves
  repeat' (first | (with_reducible (first | (assumption) | (apply writeBack_keeps) | (refine forEach_keeps ?_ ?_) | (apply modTower_keeps) | (refine ite_keeps ?_ ?_) | split | (intro _) | (dsimp only))) | (apply Keeps.rest; with_reducible (first | (assumption) | (apply writeBack_keeps) | (refine forEach_keeps ?_ ?_) | (apply modTower_keeps))))

theorem retireWay_keeps {a₀ : State} {s : State} {t : ℕ} {w : ℕ} {order : Option ℕ} (hk : Keeps a₀ s) : Keeps a₀ (retireWay s t w order) := by
  unfold retireWay
  repeat' (first | (with_reducible (first | (assumption) | (apply report_keeps) | (apply storePush_keeps) | (apply wayLeaves_keeps) | (apply withKey_keeps) | (apply modTower_keeps) | (refine ite_keeps ?_ ?_) | split | (intro _) | (dsimp only))) | (apply Keeps.rest; with_reducible (first | (assumption) | (apply report_keeps) | (apply storePush_keeps) | (apply wayLeaves_keeps) | (apply withKey_keeps) | (apply modTower_keeps))))

theorem retireTower_keeps {a₀ : State} {s : State} {t : ℕ} {order : Option ℕ} (hk : Keeps a₀ s) : Keeps a₀ (retireTower s t order) := by
  unfold retireTower
  repeat' (first | (with_reducible (first | (assumption) | (apply report_keeps) | (apply setHbm_keeps) | (apply guiltyAll_keeps) | (apply recRetire_keeps) | (apply retireCore_keeps) | (apply memcfgCount_keeps) | (refine forEach_keeps ?_ ?_) | (apply modTower_keeps) | (refine ite_keeps ?_ ?_) | split | (intro _) | (dsimp only))) | (apply Keeps.rest; with_reducible (first | (assumption) | (apply report_keeps) | (apply setHbm_keeps) | (apply guiltyAll_keeps) | (apply recRetire_keeps) | (apply retireCore_keeps) | (apply memcfgCount_keeps) | (refine forEach_keeps ?_ ?_) | (apply modTower_keeps))))

theorem fieldGone_keeps {a₀ : State} {s : State} {f : ℕ} (hk : Keeps a₀ s) : Keeps a₀ (fieldGone s f) := by
  unfold fieldGone
  repeat' (first | (with_reducible (first | (assumption) | (apply retireTower_keeps) | (apply setMortar_keeps) | (apply recRetire_keeps) | (apply retireCore_keeps) | (refine forEach_keeps ?_ ?_) | (apply modCore_keeps) | (refine ite_keeps ?_ ?_) | split | (intro _) | (dsimp only))) | (apply Keeps.rest; with_reducible (first | (assumption) | (apply retireTower_keeps) | (apply setMortar_keeps) | (apply recRetire_keeps) | (apply retireCore_keeps) | (refine forEach_keeps ?_ ?_) | (apply modCore_keeps))))

theorem mortarBad_keeps {a₀ : State} {s : State} {f : ℕ} {g : ℕ} (hk : Keeps a₀ s) : Keeps a₀ (mortarBad s f g) := by
  unfold mortarBad
  repeat' (first | (with_reducible (first | (assumption) | (apply fieldGone_keeps) | (apply setMortar_keeps) | (refine ite_keeps ?_ ?_) | split | (intro _) | (dsimp only))) | (apply Keeps.rest; with_reducible (first | (assumption) | (apply fieldGone_keeps) | (apply setMortar_keeps))))

theorem masonDieGone_keeps {a₀ : State} {s : State} {m : ℕ} (hk : Keeps a₀ s) : Keeps a₀ (masonDieGone s m) := by
  unfold masonDieGone
  repeat' (first | (with_reducible (first | (assumption) | (apply report_keeps) | (apply recUnits_keeps) | (apply withKey_keeps) | (refine forEach_keeps ?_ ?_) | (refine ite_keeps ?_ ?_) | split | (intro _) | (dsimp only))) | (apply Keeps.rest; with_reducible (first | (assumption) | (apply report_keeps) | (apply recUnits_keeps) | (apply withKey_keeps) | (refine forEach_keeps ?_ ?_))))

theorem hubGone_keeps {a₀ : State} {s : State} (hk : Keeps a₀ s) : Keeps a₀ (hubGone s) := by
  unfold hubGone
  repeat' (first | (with_reducible (first | (assumption) | (apply rasTo_keeps) | (apply withKey_keeps) | (refine ite_keeps ?_ ?_) | split | (intro _) | (dsimp only))) | (apply Keeps.rest; with_reducible (first | (assumption) | (apply rasTo_keeps) | (apply withKey_keeps))))

theorem isolate_keeps {a₀ : State} {s : State} {d : ℕ} (hk : Keeps a₀ s) : Keeps a₀ (isolate s d) := by
  unfold isolate
  repeat' (first | (with_reducible (first | (assumption) | (apply masonDieGone_keeps) | (apply retireTower_keeps) | (apply hubGone_keeps) | (refine ite_keeps ?_ ?_) | split | (intro _) | (dsimp only))) | (apply Keeps.rest; with_reducible (first | (assumption) | (apply masonDieGone_keeps) | (apply retireTower_keeps) | (apply hubGone_keeps))))

theorem retireLink_keeps {a₀ : State} {s : State} {l : ℕ} {order : Option ℕ} (hk : Keeps a₀ s) : Keeps a₀ (retireLink s l order) := by
  unfold retireLink
  repeat' (first | (with_reducible (first | (assumption) | (apply setLintel_keeps) | (apply report_keeps) | (apply isolate_keeps) | (apply recRetire_keeps) | (refine ite_keeps ?_ ?_) | split | (intro _) | (dsimp only))) | (apply Keeps.rest; with_reducible (first | (assumption) | (apply setLintel_keeps) | (apply report_keeps) | (apply isolate_keeps) | (apply recRetire_keeps))))

theorem recLane_keeps {a₀ : State} {s : State} {u : ℕ} {order : Option ℕ} (hk : Keeps a₀ s) : Keeps a₀ (recLane s u order) := by
  unfold recLane
  repeat' (first | (with_reducible (first | (assumption) | (apply withStore_keeps) | (apply recUnits_keeps) | (refine ite_keeps ?_ ?_) | split | (intro _) | (dsimp only))) | (apply Keeps.rest; with_reducible (first | (assumption) | (apply withStore_keeps) | (apply recUnits_keeps))))

theorem laneBad_keeps {a₀ : State} {s : State} {l : ℕ} {lane : ℕ} (hk : Keeps a₀ s) : Keeps a₀ (laneBad s l lane) := by
  unfold laneBad
  repeat' (first | (with_reducible (first | (assumption) | (apply setLintel_keeps) | (refine ite_keeps ?_ ?_) | split | (intro _) | (dsimp only))) | (apply Keeps.rest; with_reducible (first | (assumption) | (apply setLintel_keeps))))

theorem remapLane_keeps {a₀ : State} {s : State} {l : ℕ} {lane : ℕ} (hk : Keeps a₀ s) : Keeps a₀ (remapLane s l lane) := by
  unfold remapLane
  repeat' (first | (with_reducible (first | (assumption) | (apply setLintel_keeps) | (apply report_keeps) | (apply retireLink_keeps) | (apply recLane_keeps) | (refine ite_keeps ?_ ?_) | split | (intro _) | (dsimp only))) | (apply Keeps.rest; with_reducible (first | (assumption) | (apply setLintel_keeps) | (apply report_keeps) | (apply retireLink_keeps) | (apply recLane_keeps))))

end Sys2Proof.Machine
end

