-- ==== Sys2Proof/Laws/KeepsMailbox.lean ====
section
/-!
SUPPORT. The operations of mailboxes and orders leave the clock and the waiting commands alone and keep the canonical form.
-/

namespace Sys2Proof.Machine

theorem pushSettings_keeps {a₀ : State} {s : State} {v : Settings} {order : Option ℕ} (hk : Keeps a₀ s) : Keeps a₀ (pushSettings s v order) := by
  unfold pushSettings
  repeat' (first | (with_reducible (first | (assumption) | (apply storePush_keeps) | (refine ite_keeps ?_ ?_) | split | (intro _) | (dsimp only))) | (apply Keeps.rest; with_reducible (first | (assumption) | (apply storePush_keeps))))

theorem takeOrder_keeps {a₀ : State} {s : State} {m : ℕ} (hk : Keeps a₀ s) : Keeps a₀ (takeOrder s m) := by
  unfold takeOrder
  repeat' (first | (with_reducible (first | (assumption) | (apply withKey_keeps) | (apply setMbox_keeps) | (refine ite_keeps ?_ ?_) | split | (intro _) | (dsimp only))) | (apply Keeps.rest; with_reducible (first | (assumption) | (apply withKey_keeps) | (apply setMbox_keeps))))

theorem writeAnswer_keeps {a₀ : State} {s : State} {o : Order} (hk : Keeps a₀ s) : Keeps a₀ (writeAnswer s o) := by
  unfold writeAnswer
  repeat' (first | (with_reducible (first | (assumption) | (apply withRst_keeps) | (apply mbIrq_keeps) | (apply setMbox_keeps) | (refine ite_keeps ?_ ?_) | split | (intro _) | (dsimp only))) | (apply Keeps.rest; with_reducible (first | (assumption) | (apply withRst_keeps) | (apply mbIrq_keeps) | (apply setMbox_keeps))))

theorem answerAll_keeps {a₀ : State} {L : List Order} {s : State} (hk : Keeps a₀ s) : Keeps a₀ (answerAll L s) := by
  induction L generalizing s with
  | nil => exact hk
  | cons p l ih =>
    rw [answerAll]
    repeat' (first | (with_reducible (first | (assumption) | (apply ih) | (apply withKey_keeps) | (apply writeAnswer_keeps) | (refine ite_keeps ?_ ?_) | split | (intro _) | (dsimp only))) | (apply Keeps.rest; with_reducible (first | (assumption) | (apply ih) | (apply withKey_keeps) | (apply writeAnswer_keeps))))

theorem settleBatch_keeps {a₀ : State} {s : State} (hk : Keeps a₀ s) : Keeps a₀ (settleBatch s) := by
  unfold settleBatch
  repeat' (first | (with_reducible (first | (assumption) | (apply answerAll_keeps) | (apply withKey_keeps) | (refine ite_keeps ?_ ?_) | split | (intro _) | (dsimp only))) | (apply Keeps.rest; with_reducible (first | (assumption) | (apply answerAll_keeps) | (apply withKey_keeps))))

theorem finishHead_keeps {a₀ : State} {s : State} {o : Order} (hk : Keeps a₀ s) : Keeps a₀ (finishHead s o) := by
  unfold finishHead
  repeat' (first | (with_reducible (first | (assumption) | (apply settleBatch_keeps) | (apply withKey_keeps) | (refine ite_keeps ?_ ?_) | split | (intro _) | (dsimp only))) | (apply Keeps.rest; with_reducible (first | (assumption) | (apply settleBatch_keeps) | (apply withKey_keeps))))

theorem startedDone_keeps {a₀ : State} {s : State} {m : ℕ} {code : Code} {refuse : BitVec 8} {res : List Byte} (hk : Keeps a₀ s) : Keeps a₀ (startedDone s m code refuse res) := by
  unfold startedDone
  repeat' (first | (with_reducible (first | (assumption) | (apply writeAnswer_keeps) | (apply withKey_keeps) | (refine ite_keeps ?_ ?_) | split | (intro _) | (dsimp only))) | (apply Keeps.rest; with_reducible (first | (assumption) | (apply writeAnswer_keeps) | (apply withKey_keeps))))

theorem orderStored_keeps {a₀ : State} {s : State} {m : ℕ} {ok : Bool} (hk : Keeps a₀ s) : Keeps a₀ (orderStored s m ok) := by
  unfold orderStored
  repeat' (first | (with_reducible (first | (assumption) | (apply startedDone_keeps) | (apply finishHead_keeps) | (refine ite_keeps ?_ ?_) | split | (intro _) | (dsimp only))) | (apply Keeps.rest; with_reducible (first | (assumption) | (apply startedDone_keeps) | (apply finishHead_keeps))))

theorem ranOk_keeps {a₀ s : State} {w : List (Nat × Nat)} (hk : Keeps a₀ s) : Keeps a₀ (ranOk s w).s := hk
theorem ranRead_keeps {a₀ s : State} {r : List Byte} (hk : Keeps a₀ s) : Keeps a₀ (ranRead s r).s := hk
theorem refusedBy_keeps {a₀ s : State} {n : BitVec 8} (hk : Keeps a₀ s) : Keeps a₀ (refusedBy s n).s := hk

theorem settleOrder_keeps {a₀ : State} {o : Order} {r : Ran} (hk : Keeps a₀ r.s) : Keeps a₀ (settleOrder o r) := by
  unfold settleOrder
  split
  · exact finishHead_keeps hk
  · exact finishHead_keeps hk
  · exact withKey_keeps hk
  · exact finishHead_keeps (withKey_keeps hk)
  · exact hk

theorem endPersist_keeps {a₀ s : State} {o : Order} {f : Settings → Settings} {w : List (Nat × Nat)} (hk : Keeps a₀ s) :
    Keeps a₀ (endPersist s o f w).s := by
  unfold endPersist
  split
  · exact pushSettings_keeps hk
  · exact hk

theorem endStored_keeps {a₀ b s : State} {o : Order} {w : List (Nat × Nat)} (hk : Keeps a₀ s) : Keeps a₀ (endStored b s o w).s := by
  unfold endStored
  split
  · exact hk
  · exact withStore_keeps hk

theorem runOrder_keeps {a₀ s : State} {g v : Nat} {right : Right} {rangeOk stateOk : Order → Bool} {body : State → Order → Ran}
    (hk : Keeps a₀ s) (hf : ∀ s o, Keeps a₀ s → Keeps a₀ (body s o).s) : Keeps a₀ (runOrder s g v right rangeOk stateOk body) := by
  unfold runOrder
  split
  · exact hk
  · repeat' split
    · exact hk
    · exact settleOrder_keeps (refusedBy_keeps hk)
    · exact settleOrder_keeps (refusedBy_keeps hk)
    · exact settleOrder_keeps (refusedBy_keeps hk)
    · exact settleOrder_keeps (hf _ _ hk)

theorem beginStop_keeps {a₀ : State} {s : State} (hk : Keeps a₀ s) : Keeps a₀ (beginStop s) := by
  unfold beginStop
  repeat' (first | (with_reducible (first | (assumption) | (apply withKey_keeps) | (refine ite_keeps ?_ ?_) | split | (intro _) | (dsimp only))) | (apply Keeps.rest; with_reducible (first | (assumption) | (apply withKey_keeps))))

end Sys2Proof.Machine
end

