-- ==== Sys2Proof/Laws/KeepsSpan.lean ====
section
/-!
SUPPORT. The operations of the Span leave the clock and the waiting commands alone and keep the canonical form.
-/

namespace Sys2Proof.Machine

theorem plumbCheck_keeps {a₀ : State} {s : State} (hk : Keeps a₀ s) : Keeps a₀ (plumbCheck s) := by
  unfold plumbCheck
  repeat' (first | (with_reducible (first | (assumption) | (apply withPlumb_keeps) | (refine ite_keeps ?_ ?_) | split | (intro _) | (dsimp only))) | (apply Keeps.rest; with_reducible (first | (assumption) | (apply withPlumb_keeps))) | (with_reducible (first | (injections; subst_vars) | (rename_i heq; revert heq; split <;> (intro heq; first | (cases heq) | skip)))))

theorem putPort_keeps {a₀ : State} {s : State} {p : ℕ} {k : PortSt} (hk : Keeps a₀ s) : Keeps a₀ (putPort s p k) := by
  unfold putPort
  repeat' (first | (with_reducible (first | (assumption) | (apply plumbCheck_keeps) | (apply setPort_keeps) | (refine ite_keeps ?_ ?_) | split | (intro _) | (dsimp only))) | (apply Keeps.rest; with_reducible (first | (assumption) | (apply plumbCheck_keeps) | (apply setPort_keeps))))

theorem countDrops_keeps {a₀ : State} {s : State} {p : ℕ} {n : ℕ} (hk : Keeps a₀ s) : Keeps a₀ (countDrops s p n) := by
  unfold countDrops
  repeat' (first | (with_reducible (first | (assumption) | (apply modPort_keeps) | (refine ite_keeps ?_ ?_) | split | (intro _) | (dsimp only))) | (apply Keeps.rest; with_reducible (first | (assumption) | (apply modPort_keeps))))

theorem pumpPort_keeps {a₀ : State} {s : State} {p : ℕ} (hk : Keeps a₀ s) : Keeps a₀ (pumpPort s p) := by
  unfold pumpPort
  repeat' (first | (with_reducible (first | (assumption) | (apply modPort_keeps) | (refine ite_keeps ?_ ?_) | split | (intro _) | (dsimp only))) | (apply Keeps.rest; with_reducible (first | (assumption) | (apply modPort_keeps))))

theorem enqueueOn_keeps {a₀ : State} {s : State} {p : ℕ} {k : SpanPkt} {t : ℕ} {inp : ℕ} (hk : Keeps a₀ s) : Keeps a₀ (enqueueOn s p k t inp) := by
  unfold enqueueOn
  repeat' (first | (with_reducible (first | (assumption) | (apply modPort_keeps) | (apply pumpPort_keeps) | (refine ite_keeps ?_ ?_) | split | (intro _) | (dsimp only))) | (apply Keeps.rest; with_reducible (first | (assumption) | (apply modPort_keeps) | (apply pumpPort_keeps))))

theorem creditBack_keeps {a₀ : State} {s : State} {p : ℕ} {k : SpanPkt} (hk : Keeps a₀ s) : Keeps a₀ (creditBack s p k) := by
  unfold creditBack
  repeat' (first | (with_reducible (first | (assumption) | (apply modPort_keeps) | (refine ite_keeps ?_ ?_) | split | (intro _) | (dsimp only))) | (apply Keeps.rest; with_reducible (first | (assumption) | (apply modPort_keeps))))

theorem leaveUp_keeps {a₀ : State} {s : State} {p : ℕ} (hk : Keeps a₀ s) : Keeps a₀ (leaveUp s p) := by
  unfold leaveUp
  repeat' (first | (with_reducible (first | (assumption) | (apply modPort_keeps) | (apply countDrops_keeps) | (apply ras_keeps) | (refine forEach_keeps ?_ ?_) | (apply enqueueOn_keeps) | (apply setPort_keeps) | (apply withSpan_keeps) | (refine ite_keeps ?_ ?_) | split | (intro _) | (dsimp only))) | (apply Keeps.rest; with_reducible (first | (assumption) | (apply modPort_keeps) | (apply countDrops_keeps) | (apply ras_keeps) | (refine forEach_keeps ?_ ?_) | (apply enqueueOn_keeps) | (apply setPort_keeps) | (apply withSpan_keeps))))

theorem unsent_keeps {a₀ : State} {s : State} {e : SpanPkt × ℕ} (hk : Keeps a₀ s) : Keeps a₀ (unsent s e) := by
  unfold unsent
  repeat' (first | (with_reducible (first | (assumption) | (apply withSpan_keeps) | (refine ite_keeps ?_ ?_) | split | (intro _) | (dsimp only))) | (apply Keeps.rest; with_reducible (first | (assumption) | (apply withSpan_keeps))))

theorem inject_keeps {a₀ : State} {s : State} {e : SpanPkt × ℕ} (hk : Keeps a₀ s) : Keeps a₀ (inject s e) := by
  unfold inject
  repeat' (first | (with_reducible (first | (assumption) | (apply unsent_keeps) | (apply enqueueOn_keeps) | (apply withSpan_keeps) | (refine ite_keeps ?_ ?_) | split | (intro _) | (dsimp only))) | (apply Keeps.rest; with_reducible (first | (assumption) | (apply unsent_keeps) | (apply enqueueOn_keeps) | (apply withSpan_keeps))))

theorem forward_keeps {a₀ : State} {s : State} {p : ℕ} {e : SpanPkt × ℕ} (hk : Keeps a₀ s) : Keeps a₀ (forward s p e) := by
  unfold forward
  repeat' (first | (with_reducible (first | (assumption) | (apply creditBack_keeps) | (apply modPort_keeps) | (apply countDrops_keeps) | (apply enqueueOn_keeps) | (apply withSpan_keeps) | (refine ite_keeps ?_ ?_) | split | (intro _) | (dsimp only))) | (apply Keeps.rest; with_reducible (first | (assumption) | (apply creditBack_keeps) | (apply modPort_keeps) | (apply countDrops_keeps) | (apply enqueueOn_keeps) | (apply withSpan_keeps))))

theorem joinPorts_keeps {a₀ : State} {s : State} (hk : Keeps a₀ s) : Keeps a₀ (joinPorts s) := by
  unfold joinPorts
  repeat' (first | (with_reducible (first | (assumption) | (apply modPort_keeps) | (apply pumpPort_keeps) | (refine forEach_keeps ?_ ?_) | (refine ite_keeps ?_ ?_) | split | (intro _) | (dsimp only))) | (apply Keeps.rest; with_reducible (first | (assumption) | (apply modPort_keeps) | (apply pumpPort_keeps) | (refine forEach_keeps ?_ ?_))))

theorem switchRoutes_keeps {a₀ : State} {s : State} (hk : Keeps a₀ s) : Keeps a₀ (switchRoutes s) := by
  unfold switchRoutes
  repeat' (first | (with_reducible (first | (assumption) | (apply joinPorts_keeps) | (apply withSpan_keeps) | (refine ite_keeps ?_ ?_) | split | (intro _) | (dsimp only))) | (apply Keeps.rest; with_reducible (first | (assumption) | (apply joinPorts_keeps) | (apply withSpan_keeps))))

theorem routeGoWrite_keeps {a₀ : State} {s : State} (hk : Keeps a₀ s) : Keeps a₀ (routeGoWrite s) := by
  unfold routeGoWrite
  repeat' (first | (with_reducible (first | (assumption) | (apply switchRoutes_keeps) | (apply withSpan_keeps) | (refine ite_keeps ?_ ?_) | split | (intro _) | (dsimp only))) | (apply Keeps.rest; with_reducible (first | (assumption) | (apply switchRoutes_keeps) | (apply withSpan_keeps))))

theorem routeEnSet_keeps {a₀ : State} {s : State} {en : Bool} (hk : Keeps a₀ s) : Keeps a₀ (routeEnSet s en) := by
  unfold routeEnSet
  repeat' (first | (with_reducible (first | (assumption) | (apply creditBack_keeps) | (apply modPort_keeps) | (apply countDrops_keeps) | (apply joinPorts_keeps) | (refine forEach_keeps ?_ ?_) | (apply withSpan_keeps) | (refine ite_keeps ?_ ?_) | split | (intro _) | (dsimp only))) | (apply Keeps.rest; with_reducible (first | (assumption) | (apply creditBack_keeps) | (apply modPort_keeps) | (apply countDrops_keeps) | (apply joinPorts_keeps) | (refine forEach_keeps ?_ ?_) | (apply withSpan_keeps))))

theorem protoSet_keeps {a₀ : State} {s : State} {v : BitVec 8} (hk : Keeps a₀ s) : Keeps a₀ (protoSet s v) := by
  unfold protoSet
  repeat' (first | (with_reducible (first | (assumption) | (apply withSpan_keeps) | (refine ite_keeps ?_ ?_) | split | (intro _) | (dsimp only))) | (apply Keeps.rest; with_reducible (first | (assumption) | (apply withSpan_keeps))))

theorem spanIdSet_keeps {a₀ : State} {s : State} {v : BitVec 32} (hk : Keeps a₀ s) : Keeps a₀ (spanIdSet s v) := by
  unfold spanIdSet
  repeat' (first | (with_reducible (first | (assumption) | (apply withSpan_keeps) | (refine ite_keeps ?_ ?_) | split | (intro _) | (dsimp only))) | (apply Keeps.rest; with_reducible (first | (assumption) | (apply withSpan_keeps))))

theorem portReport_keeps {a₀ : State} {s : State} {p : ℕ} (hk : Keeps a₀ s) : Keeps a₀ (portReport s p) := by
  unfold portReport
  repeat' (first | (with_reducible (first | (assumption) | (apply report_keeps) | (refine ite_keeps ?_ ?_) | split | (intro _) | (dsimp only))) | (apply Keeps.rest; with_reducible (first | (assumption) | (apply report_keeps))))

theorem portStop_keeps {a₀ : State} {s : State} {p : ℕ} {st : PortState} {cause : BitVec 3} (hk : Keeps a₀ s) : Keeps a₀ (portStop s p st cause) := by
  unfold portStop
  repeat' (first | (with_reducible (first | (assumption) | (apply leaveUp_keeps) | (apply putPort_keeps) | (refine ite_keeps ?_ ?_) | split | (intro _) | (dsimp only))) | (apply Keeps.rest; with_reducible (first | (assumption) | (apply leaveUp_keeps) | (apply putPort_keeps))))

theorem portStart_keeps {a₀ : State} {s : State} {p : ℕ} (hk : Keeps a₀ s) : Keeps a₀ (portStart s p) := by
  unfold portStart
  repeat' (first | (with_reducible (first | (assumption) | (apply putPort_keeps) | (apply portStop_keeps) | (refine ite_keeps ?_ ?_) | split | (intro _) | (dsimp only))) | (apply Keeps.rest; with_reducible (first | (assumption) | (apply putPort_keeps) | (apply portStop_keeps))))

theorem portUnpowered_keeps {a₀ : State} {s : State} {p : ℕ} (hk : Keeps a₀ s) : Keeps a₀ (portUnpowered s p) := by
  unfold portUnpowered
  repeat' (first | (with_reducible (first | (assumption) | (apply modPort_keeps) | (apply portStop_keeps) | (refine ite_keeps ?_ ?_) | split | (intro _) | (dsimp only))) | (apply Keeps.rest; with_reducible (first | (assumption) | (apply modPort_keeps) | (apply portStop_keeps))))

theorem retireLane_keeps {a₀ : State} {s : State} {p : ℕ} {l : ℕ} {order : Option ℕ} (hk : Keeps a₀ s) : Keeps a₀ (retireLane s p l order) := by
  unfold retireLane
  repeat' (first | (with_reducible (first | (assumption) | (apply withStore_keeps) | (apply modPort_keeps) | (apply report_keeps) | (apply recUnits_keeps) | (refine ite_keeps ?_ ?_) | split | (intro _) | (dsimp only))) | (apply Keeps.rest; with_reducible (first | (assumption) | (apply withStore_keeps) | (apply modPort_keeps) | (apply report_keeps) | (apply recUnits_keeps))))

theorem laneGoes_keeps {a₀ : State} {s : State} {p : ℕ} {l : ℕ} (hk : Keeps a₀ s) : Keeps a₀ (laneGoes s p l) := by
  unfold laneGoes
  repeat' (first | (with_reducible (first | (assumption) | (apply retireLane_keeps) | (apply setPort_keeps) | (refine ite_keeps ?_ ?_) | split | (intro _) | (dsimp only))) | (apply Keeps.rest; with_reducible (first | (assumption) | (apply retireLane_keeps) | (apply setPort_keeps))))

theorem reform_keeps {a₀ : State} {s : State} {p : ℕ} (hk : Keeps a₀ s) : Keeps a₀ (reform s p) := by
  unfold reform
  repeat' (first | (with_reducible (first | (assumption) | (apply portReport_keeps) | (apply portStop_keeps) | (apply setPort_keeps) | (refine ite_keeps ?_ ?_) | split | (intro _) | (dsimp only))) | (apply Keeps.rest; with_reducible (first | (assumption) | (apply portReport_keeps) | (apply portStop_keeps) | (apply setPort_keeps))))

theorem portRetrain_keeps {a₀ : State} {s : State} {p : ℕ} (hk : Keeps a₀ s) : Keeps a₀ (portRetrain s p) := by
  unfold portRetrain
  repeat' (first | (with_reducible (first | (assumption) | (apply putPort_keeps) | (refine ite_keeps ?_ ?_) | split | (intro _) | (dsimp only))) | (apply Keeps.rest; with_reducible (first | (assumption) | (apply putPort_keeps))))

theorem rootTakes_keeps {a₀ : State} {s : State} {locked : Bool} {count : BitVec 64} (hk : Keeps a₀ s) : Keeps a₀ (rootTakes s locked count) := by
  unfold rootTakes
  repeat' (first | (with_reducible (first | (assumption) | (apply withPlumb_keeps) | (refine ite_keeps ?_ ?_) | split | (intro _) | (dsimp only))) | (apply Keeps.rest; with_reducible (first | (assumption) | (apply withPlumb_keeps))))

theorem commitPort_keeps {a₀ : State} {s : State} {p : ℕ} (hk : Keeps a₀ s) : Keeps a₀ (commitPort s p) := by
  unfold commitPort
  repeat' (first | (with_reducible (first | (assumption) | (apply modPort_keeps) | (apply portStop_keeps) | (apply setPort_keeps) | (apply portStart_keeps) | (refine ite_keeps ?_ ?_) | split | (intro _) | (dsimp only))) | (apply Keeps.rest; with_reducible (first | (assumption) | (apply modPort_keeps) | (apply portStop_keeps) | (apply setPort_keeps) | (apply portStart_keeps))))

theorem spanCommitAll_keeps {a₀ : State} {s : State} (hk : Keeps a₀ s) : Keeps a₀ (spanCommitAll s) := by
  unfold spanCommitAll
  repeat' (first | (with_reducible (first | (assumption) | (apply commitPort_keeps) | (apply plumbCheck_keeps) | (apply withPlumb_keeps) | (refine forEach_keeps ?_ ?_) | (refine ite_keeps ?_ ?_) | split | (intro _) | (dsimp only))) | (apply Keeps.rest; with_reducible (first | (assumption) | (apply commitPort_keeps) | (apply plumbCheck_keeps) | (apply withPlumb_keeps) | (refine forEach_keeps ?_ ?_))))

theorem completeUser_keeps {a₀ : State} {s : State} {user : RemUser} {span : Bool} {code : Code} {data : List Byte} (hk : Keeps a₀ s) : Keeps a₀ (completeUser s user span code data) := by
  unfold completeUser
  repeat' (first | (with_reducible (first | (assumption) | (apply completeAcc_keeps) | (apply xfault_keeps) | (apply ras_keeps) | (apply startedDone_keeps) | (apply chanFault_keeps) | (apply withHost_keeps) | (apply modCore_keeps) | (refine ite_keeps ?_ ?_) | split | (intro _) | (dsimp only))) | (apply Keeps.rest; with_reducible (first | (assumption) | (apply completeAcc_keeps) | (apply xfault_keeps) | (apply ras_keeps) | (apply startedDone_keeps) | (apply chanFault_keeps) | (apply withHost_keeps) | (apply modCore_keeps))))

theorem completeRemote_keeps {a₀ : State} {s : State} {r : RemReq} {code : Code} {data : List Byte} (hk : Keeps a₀ s) : Keeps a₀ (completeRemote s r code data) := by
  unfold completeRemote
  repeat' (first | (with_reducible (first | (assumption) | (apply completeUser_keeps) | (apply withSpan_keeps) | (refine ite_keeps ?_ ?_) | split | (intro _) | (dsimp only))) | (apply Keeps.rest; with_reducible (first | (assumption) | (apply completeUser_keeps) | (apply withSpan_keeps))))

theorem takeDelivered_keeps {a₀ : State} {s : State} {k : SpanPkt} (hk : Keeps a₀ s) : Keeps a₀ (takeDelivered s k) := by
  unfold takeDelivered
  repeat' (first | (with_reducible (first | (assumption) | (apply withSpan_keeps) | (refine ite_keeps ?_ ?_) | split | (intro _) | (dsimp only))) | (apply Keeps.rest; with_reducible (first | (assumption) | (apply withSpan_keeps))))

theorem serveRead_keeps {a₀ : State} {x : ℕ} {L : List (ℕ × ℕ)} {s : State} {b3 : List Byte} (hk : Keeps a₀ s) : Keeps a₀ (serveRead x L s b3).2.2 := by
  induction L generalizing s b3 with
  | nil => exact hk
  | cons p l ih =>
    obtain ⟨o, n⟩ := p
    rw [serveRead]
    repeat' (first | (with_reducible (first | (assumption) | (apply ih) | (apply hereRead_keeps) | (refine hereRead_keeps_of (by assumption) ?_) | (refine ite_keeps ?_ ?_) | split | (intro _) | (dsimp only))) | (apply Keeps.rest; with_reducible (first | (assumption) | (apply ih) | (apply hereRead_keeps) | (refine hereRead_keeps_of (by assumption) ?_))))

theorem serveRead_keeps_of {a₀ z : State} {x : ℕ} {L : List (ℕ × ℕ)} {s : State} {b3 : List Byte} {y0 : Code} {y1 : List Byte} (he : serveRead x L s b3 = (y0, y1, z)) (hk : Keeps a₀ s) : Keeps a₀ z := by
  have := serveRead_keeps (x := x) (L := L) (s := s) (b3 := b3) hk
  rwa [he] at this

theorem serveWrite_keeps {a₀ : State} {x : ℕ} {L : List (ℕ × ℕ)} {s : State} {b3 : List Byte} (hk : Keeps a₀ s) : Keeps a₀ (serveWrite x L s b3).2 := by
  induction L generalizing s b3 with
  | nil => exact hk
  | cons p l ih =>
    obtain ⟨o, n⟩ := p
    rw [serveWrite]
    repeat' (first | (with_reducible (first | (assumption) | (apply ih) | (apply hereWrite_keeps) | (refine hereWrite_keeps_of (by assumption) ?_) | (refine ite_keeps ?_ ?_) | split | (intro _) | (dsimp only))) | (apply Keeps.rest; with_reducible (first | (assumption) | (apply ih) | (apply hereWrite_keeps) | (refine hereWrite_keeps_of (by assumption) ?_))))

theorem serveWrite_keeps_of {a₀ z : State} {x : ℕ} {L : List (ℕ × ℕ)} {s : State} {b3 : List Byte} {y0 : Code} (he : serveWrite x L s b3 = (y0, z)) (hk : Keeps a₀ s) : Keeps a₀ z := by
  have := serveWrite_keeps (x := x) (L := L) (s := s) (b3 := b3) hk
  rwa [he] at this

theorem serve_keeps {a₀ : State} {s : State} {k : SpanPkt} (hk : Keeps a₀ s) : Keeps a₀ (serve s k).2.2 := by
  unfold serve
  repeat' (first | (with_reducible (first | (assumption) | (apply serveWrite_keeps) | (refine serveWrite_keeps_of (by assumption) ?_) | (apply serveRead_keeps) | (refine serveRead_keeps_of (by assumption) ?_) | (apply hereAtomic_keeps) | (refine hereAtomic_keeps_of (by assumption) ?_) | (refine ite_keeps ?_ ?_) | split | (intro _) | (dsimp only))) | (apply Keeps.rest; with_reducible (first | (assumption) | (apply serveWrite_keeps) | (refine serveWrite_keeps_of (by assumption) ?_) | (apply serveRead_keeps) | (refine serveRead_keeps_of (by assumption) ?_) | (apply hereAtomic_keeps) | (refine hereAtomic_keeps_of (by assumption) ?_))))

theorem serve_keeps_of {a₀ z : State} {s : State} {k : SpanPkt} {y0 : Code} {y1 : List Byte} (he : serve s k = (y0, y1, z)) (hk : Keeps a₀ s) : Keeps a₀ z := by
  have := serve_keeps (s := s) (k := k) hk
  rwa [he] at this

theorem respond_keeps {a₀ : State} {s : State} {k : SpanPkt} {code : Code} {data : List Byte} (hk : Keeps a₀ s) : Keeps a₀ (respond s k code data) := by
  unfold respond
  repeat' (first | (with_reducible (first | (assumption) | (apply withSpan_keeps) | (refine ite_keeps ?_ ?_) | split | (intro _) | (dsimp only))) | (apply Keeps.rest; with_reducible (first | (assumption) | (apply withSpan_keeps))))

theorem plumbFollow_keeps {a₀ : State} {s : State} {th : ℚ} {nbr : BitVec 64} (hk : Keeps a₀ s) : Keeps a₀ (plumbFollow s th nbr) := by
  unfold plumbFollow
  repeat' (first | (with_reducible (first | (assumption) | (apply plumbCheck_keeps) | (apply withPlumb_keeps) | (refine ite_keeps ?_ ?_) | split | (intro _) | (dsimp only))) | (apply Keeps.rest; with_reducible (first | (assumption) | (apply plumbCheck_keeps) | (apply withPlumb_keeps))))

theorem meanOut_keeps {a₀ : State} {s : State} {p : ℕ} (hk : Keeps a₀ s) : Keeps a₀ (meanOut s p) := by
  unfold meanOut
  repeat' (first | (with_reducible (first | (assumption) | (apply freshBytes_keeps) | (refine freshBytes_keeps_of (by assumption) ?_) | (apply setPort_keeps) | (refine ite_keeps ?_ ?_) | split | (intro _) | (dsimp only))) | (apply Keeps.rest; with_reducible (first | (assumption) | (apply freshBytes_keeps) | (refine freshBytes_keeps_of (by assumption) ?_) | (apply setPort_keeps))))

theorem plumbTakes_keeps {a₀ : State} {s : State} {d2 : ℤ} {nbrCount : BitVec 64} {nbrLocked : Bool} (hk : Keeps a₀ s) : Keeps a₀ (plumbTakes s d2 nbrCount nbrLocked) := by
  unfold plumbTakes
  repeat' (first | (with_reducible (first | (assumption) | (apply rootTakes_keeps) | (apply plumbCheck_keeps) | (apply plumbFollow_keeps) | (refine ite_keeps ?_ ?_) | split | (intro _) | (dsimp only))) | (apply Keeps.rest; with_reducible (first | (assumption) | (apply rootTakes_keeps) | (apply plumbCheck_keeps) | (apply plumbFollow_keeps))))

end Sys2Proof.Machine
end

