-- ==== Sys2Proof/Laws/KeepsPower.lean ====
section
/-!
SUPPORT. The operations of power and the scheduler epoch leave the clock and the waiting commands alone and keep the canonical form.
-/

namespace Sys2Proof.Machine

theorem resumeGroup_keeps {a₀ : State} {s : State} {k : ℕ} (hk : Keeps a₀ s) : Keeps a₀ (resumeGroup s k) := by
  unfold resumeGroup
  repeat' (first | (with_reducible (first | (assumption) | (apply setMod_keeps) | (refine forEach_keeps ?_ ?_) | (refine ite_keeps ?_ ?_) | split | (intro _) | (dsimp only))) | (apply Keeps.rest; with_reducible (first | (assumption) | (apply setMod_keeps) | (refine forEach_keeps ?_ ?_))))

theorem modOff_keeps {a₀ : State} {s : State} {k : ℕ} {st : ModState} (hk : Keeps a₀ s) : Keeps a₀ (modOff s k st) := by
  unfold modOff
  repeat' (first | (with_reducible (first | (assumption) | (apply setMod_keeps) | (apply portUnpowered_keeps) | (apply resumeGroup_keeps) | (refine ite_keeps ?_ ?_) | split | (intro _) | (dsimp only))) | (apply Keeps.rest; with_reducible (first | (assumption) | (apply setMod_keeps) | (apply portUnpowered_keeps) | (apply resumeGroup_keeps))))

theorem modEnSet_keeps {a₀ : State} {s : State} {k : ℕ} {en : Bool} (hk : Keeps a₀ s) : Keeps a₀ (modEnSet s k en) := by
  unfold modEnSet
  repeat' (first | (with_reducible (first | (assumption) | (apply setMod_keeps) | (apply modOff_keeps) | (refine ite_keeps ?_ ?_) | split | (intro _) | (dsimp only))) | (apply Keeps.rest; with_reducible (first | (assumption) | (apply setMod_keeps) | (apply modOff_keeps))))

theorem modIlimSet_keeps {a₀ : State} {s : State} {k : ℕ} {v : BitVec 8} (hk : Keeps a₀ s) : Keeps a₀ (modIlimSet s k v) := by
  unfold modIlimSet
  repeat' (first | (with_reducible (first | (assumption) | (apply setMod_keeps) | (refine ite_keeps ?_ ?_) | split | (intro _) | (dsimp only))) | (apply Keeps.rest; with_reducible (first | (assumption) | (apply setMod_keeps))))

theorem modClear_keeps {a₀ : State} {s : State} {k : ℕ} {order : Option ℕ} (hk : Keeps a₀ s) : Keeps a₀ (modClear s k order) := by
  unfold modClear
  repeat' (first | (with_reducible (first | (assumption) | (apply setMod_keeps) | (apply recUnits_keeps) | (apply modOff_keeps) | (refine ite_keeps ?_ ?_) | split | (intro _) | (dsimp only))) | (apply Keeps.rest; with_reducible (first | (assumption) | (apply setMod_keeps) | (apply recUnits_keeps) | (apply modOff_keeps))))

theorem modRetire_keeps {a₀ : State} {s : State} {k : ℕ} {order : Option ℕ} (hk : Keeps a₀ s) : Keeps a₀ (modRetire s k order) := by
  unfold modRetire
  repeat' (first | (with_reducible (first | (assumption) | (apply report_keeps) | (apply recRetire_keeps) | (apply modOff_keeps) | (refine ite_keeps ?_ ?_) | split | (intro _) | (dsimp only))) | (apply Keeps.rest; with_reducible (first | (assumption) | (apply report_keeps) | (apply recRetire_keeps) | (apply modOff_keeps))))

theorem modLatch_keeps {a₀ : State} {s : State} {k : ℕ} {cause : BitVec 2} (hk : Keeps a₀ s) : Keeps a₀ (modLatch s k cause) := by
  unfold modLatch
  repeat' (first | (with_reducible (first | (assumption) | (apply modRetire_keeps) | (apply setMod_keeps) | (apply report_keeps) | (apply modOff_keeps) | (refine ite_keeps ?_ ?_) | split | (intro _) | (dsimp only))) | (apply Keeps.rest; with_reducible (first | (assumption) | (apply modRetire_keeps) | (apply setMod_keeps) | (apply report_keeps) | (apply modOff_keeps))))

theorem startDown_keeps {a₀ : State} {s : State} {d : ℕ} (hk : Keeps a₀ s) : Keeps a₀ (startDown s d) := by
  unfold startDown
  repeat' (first | (with_reducible (first | (assumption) | (apply portStop_keeps) | (refine forEach_keeps ?_ ?_) | (apply setDom_keeps) | (refine ite_keeps ?_ ?_) | split | (intro _) | (dsimp only))) | (apply Keeps.rest; with_reducible (first | (assumption) | (apply portStop_keeps) | (refine forEach_keeps ?_ ?_) | (apply setDom_keeps))))

theorem domAdvance_keeps {a₀ : State} {s : State} {d : ℕ} (hk : Keeps a₀ s) : Keeps a₀ (domAdvance s d) := by
  unfold domAdvance
  repeat' (first | (with_reducible (first | (assumption) | (apply startDown_keeps) | (refine forEach_keeps ?_ ?_) | (apply setDom_keeps) | (apply modCore_keeps) | (refine ite_keeps ?_ ?_) | split | (intro _) | (dsimp only))) | (apply Keeps.rest; with_reducible (first | (assumption) | (apply startDown_keeps) | (refine forEach_keeps ?_ ?_) | (apply setDom_keeps) | (apply modCore_keeps))))

theorem domTarget_keeps {a₀ : State} {s : State} {d : ℕ} {on : Bool} (hk : Keeps a₀ s) : Keeps a₀ (domTarget s d on) := by
  unfold domTarget
  repeat' (first | (with_reducible (first | (assumption) | (apply domAdvance_keeps) | (apply setDom_keeps) | (refine ite_keeps ?_ ?_) | split | (intro _) | (dsimp only))) | (apply Keeps.rest; with_reducible (first | (assumption) | (apply domAdvance_keeps) | (apply setDom_keeps))))

theorem downDone_keeps {a₀ : State} {s : State} {d : ℕ} (hk : Keeps a₀ s) : Keeps a₀ (downDone s d) := by
  unfold downDone
  repeat' (first | (with_reducible (first | (assumption) | (apply setHbm_keeps) | (refine forEach_keeps ?_ ?_) | (apply setDom_keeps) | (apply modCore_keeps) | (refine ite_keeps ?_ ?_) | split | (intro _) | (dsimp only))) | (apply Keeps.rest; with_reducible (first | (assumption) | (apply setHbm_keeps) | (refine forEach_keeps ?_ ?_) | (apply setDom_keeps) | (apply modCore_keeps))))

theorem upDone_keeps {a₀ : State} {s : State} {d : ℕ} (hk : Keeps a₀ s) : Keeps a₀ (upDone s d) := by
  unfold upDone
  repeat' (first | (with_reducible (first | (assumption) | (apply setHbm_keeps) | (refine forEach_keeps ?_ ?_) | (apply setDom_keeps) | (apply modCore_keeps) | (apply setGroup_keeps) | (apply portStart_keeps) | (refine ite_keeps ?_ ?_) | split | (intro _) | (dsimp only))) | (apply Keeps.rest; with_reducible (first | (assumption) | (apply setHbm_keeps) | (refine forEach_keeps ?_ ?_) | (apply setDom_keeps) | (apply modCore_keeps) | (apply setGroup_keeps) | (apply portStart_keeps))))

theorem moveVcore_keeps {a₀ : State} {s : State} {t : ℕ} (hk : Keeps a₀ s) : Keeps a₀ (moveVcore s t) := by
  unfold moveVcore
  repeat' (first | (with_reducible (first | (assumption) | (apply modTower_keeps) | (refine ite_keeps ?_ ?_) | split | (intro _) | (dsimp only))) | (apply Keeps.rest; with_reducible (first | (assumption) | (apply modTower_keeps))))

theorem groupRetarget_keeps {a₀ : State} {s : State} {g : ℕ} {n : ℕ} (hk : Keeps a₀ s) : Keeps a₀ (groupRetarget s g n) := by
  unfold groupRetarget
  repeat' (first | (with_reducible (first | (assumption) | (apply moveVcore_keeps) | (apply setGroup_keeps) | (refine ite_keeps ?_ ?_) | split | (intro _) | (dsimp only))) | (apply Keeps.rest; with_reducible (first | (assumption) | (apply moveVcore_keeps) | (apply setGroup_keeps))))

theorem applyClock_keeps {a₀ : State} {s : State} {g : ℕ} (hk : Keeps a₀ s) : Keeps a₀ (applyClock s g) := by
  unfold applyClock
  repeat' (first | (with_reducible (first | (assumption) | (apply moveVcore_keeps) | (apply setGroup_keeps) | (refine ite_keeps ?_ ?_) | split | (intro _) | (dsimp only))) | (apply Keeps.rest; with_reducible (first | (assumption) | (apply moveVcore_keeps) | (apply setGroup_keeps))))

theorem buttressTimer_keeps {a₀ : State} {s : State} (hk : Keeps a₀ s) : Keeps a₀ (buttressTimer s) := by
  unfold buttressTimer
  repeat' (first | (with_reducible (first | (assumption) | (apply withPower_keeps) | (refine ite_keeps ?_ ?_) | split | (intro _) | (dsimp only))) | (apply Keeps.rest; with_reducible (first | (assumption) | (apply withPower_keeps))))

theorem forceButtress_keeps {a₀ : State} {s : State} (hk : Keeps a₀ s) : Keeps a₀ (forceButtress s) := by
  unfold forceButtress
  repeat' (first | (with_reducible (first | (assumption) | (apply applyClock_keeps) | (apply withPower_keeps) | (apply ras_keeps) | (refine forEach_keeps ?_ ?_) | (apply setGroup_keeps) | (refine ite_keeps ?_ ?_) | split | (intro _) | (dsimp only))) | (apply Keeps.rest; with_reducible (first | (assumption) | (apply applyClock_keeps) | (apply withPower_keeps) | (apply ras_keeps) | (refine forEach_keeps ?_ ?_) | (apply setGroup_keeps))))

theorem halfFollow_keeps {a₀ : State} {s : State} {h : ℕ} (hk : Keeps a₀ s) : Keeps a₀ (halfFollow s h) := by
  unfold halfFollow
  repeat' (first | (with_reducible (first | (assumption) | (apply domAdvance_keeps) | (apply setDom_keeps) | (refine ite_keeps ?_ ?_) | split | (intro _) | (dsimp only))) | (apply Keeps.rest; with_reducible (first | (assumption) | (apply domAdvance_keeps) | (apply setDom_keeps))))

theorem freshWindow_keeps {a₀ : State} {s : State} {lo : ℕ} {n : ℕ} (hk : Keeps a₀ s) : Keeps a₀ (freshWindow s lo n) := by
  exact ⟨hk.pending, hk.now, fun c => { hk.canon c with
    mem := tabWf_tclear (hk.canon c).mem _ _, lost := tabWf_tclear (hk.canon c).lost _ _, owner := tabWf_tclear (hk.canon c).owner _ _ }⟩

theorem broughtLine_keeps {a₀ : State} {s : State} {key : BitVec 64} {ctx : ℕ} {ext : Option (BitVec 512)} (hk : Keeps a₀ s) : Keeps a₀ (broughtLine s key ctx ext).2 := by
  unfold broughtLine
  repeat' (first | (with_reducible (first | (assumption) | (apply remoteAsk_keeps) | (refine ite_keeps ?_ ?_) | split | (intro _) | (dsimp only))) | (apply Keeps.rest; with_reducible (first | (assumption) | (apply remoteAsk_keeps))))

theorem broughtLine_keeps_of {a₀ z : State} {s : State} {key : BitVec 64} {ctx : ℕ} {ext : Option (BitVec 512)} {y0 : Option (BitVec 512)} (he : broughtLine s key ctx ext = (y0, z)) (hk : Keeps a₀ s) : Keeps a₀ z := by
  have := broughtLine_keeps (s := s) (key := key) (ctx := ctx) (ext := ext) hk
  rwa [he] at this

theorem joinCores_keeps {a₀ : State} {s : State} (hk : Keeps a₀ s) : Keeps a₀ (joinCores s) := by
  unfold joinCores
  repeat' (first | (with_reducible (first | (assumption) | (refine forEach_keeps ?_ ?_) | (apply modCore_keeps) | (refine ite_keeps ?_ ?_) | split | (intro _) | (dsimp only))) | (apply Keeps.rest; with_reducible (first | (assumption) | (refine forEach_keeps ?_ ?_) | (apply modCore_keeps))))

theorem returnChannel_keeps {a₀ : State} {s : State} {c : ℕ} (hk : Keeps a₀ s) : Keeps a₀ (returnChannel s c) := by
  unfold returnChannel
  repeat' (first | (with_reducible (first | (assumption) | (apply setHbm_keeps) | (apply ras_keeps) | (apply recUnits_keeps) | (apply memcfgCount_keeps) | (apply freshWindow_keeps) | (refine ite_keeps ?_ ?_) | split | (intro _) | (dsimp only))) | (apply Keeps.rest; with_reducible (first | (assumption) | (apply setHbm_keeps) | (apply ras_keeps) | (apply recUnits_keeps) | (apply memcfgCount_keeps) | (apply freshWindow_keeps))))

theorem claimGroups_keeps {a₀ : State} {s : State} (hk : Keeps a₀ s) : Keeps a₀ (claimGroups s) := by
  unfold claimGroups
  repeat' (first | (with_reducible (first | (assumption) | (refine forEach_keeps ?_ ?_) | (apply domAdvance_keeps) | (apply modCore_keeps) | (refine ite_keeps ?_ ?_) | split | (intro _) | (dsimp only))) | (apply Keeps.rest; with_reducible (first | (assumption) | (refine forEach_keeps ?_ ?_) | (apply domAdvance_keeps) | (apply modCore_keeps))))

theorem claimTest_keeps {a₀ : State} {s : State} (hk : Keeps a₀ s) : Keeps a₀ (claimTest s) := by
  unfold claimTest
  repeat' (first | (with_reducible (first | (assumption) | (apply modCore_keeps) | (refine ite_keeps ?_ ?_) | split | (intro _) | (dsimp only))) | (apply Keeps.rest; with_reducible (first | (assumption) | (apply modCore_keeps))))

theorem returnChannels_keeps {a₀ : State} {s : State} (hk : Keeps a₀ s) : Keeps a₀ (returnChannels s) := by
  unfold returnChannels
  repeat' (first | (with_reducible (first | (assumption) | (apply returnChannel_keeps) | (apply withKey_keeps) | (refine forEach_keeps ?_ ?_) | (refine ite_keeps ?_ ?_) | split | (intro _) | (dsimp only))) | (apply Keeps.rest; with_reducible (first | (assumption) | (apply returnChannel_keeps) | (apply withKey_keeps) | (refine forEach_keeps ?_ ?_))))

end Sys2Proof.Machine
end

