-- ==== Sys2Proof/Laws/KeepsHost.lean ====
section
/-!
SUPPORT. The operations of registers, the host port, Keystone and reset leave the clock and the waiting commands alone and keep the canonical form.
-/

namespace Sys2Proof.Machine

theorem unmaskSend_keeps {a₀ : State} {s : State} {v : ℕ} (hk : Keeps a₀ s) : Keeps a₀ (unmaskSend s v) := by
  unfold unmaskSend
  repeat' (first | (with_reducible (first | (assumption) | (apply interrupt_keeps) | (apply withHost_keeps) | (refine ite_keeps ?_ ?_) | split | (intro _) | (dsimp only))) | (apply Keeps.rest; with_reducible (first | (assumption) | (apply interrupt_keeps) | (apply withHost_keeps))))

theorem vecSet_keeps {a₀ : State} {s : State} {v : ℕ} {e : BitVec 128} (hk : Keeps a₀ s) : Keeps a₀ (vecSet s v e) := by
  unfold vecSet
  repeat' (first | (with_reducible (first | (assumption) | (apply unmaskSend_keeps) | (apply withHost_keeps) | (refine ite_keeps ?_ ?_) | split | (intro _) | (dsimp only))) | (apply Keeps.rest; with_reducible (first | (assumption) | (apply unmaskSend_keeps) | (apply withHost_keeps))))

theorem vecWrite_keeps {a₀ : State} {s : State} {v : ℕ} {i : ℕ} {w : BitVec 32} (hk : Keeps a₀ s) : Keeps a₀ (vecWrite s v i w) := by
  unfold vecWrite
  repeat' (first | (with_reducible (first | (assumption) | (apply vecSet_keeps) | (refine ite_keeps ?_ ?_) | split | (intro _) | (dsimp only))) | (apply Keeps.rest; with_reducible (first | (assumption) | (apply vecSet_keeps))))

theorem xlateWrite_keeps {a₀ : State} {s : State} {x : ℕ} {o : ℕ} {v : BitVec 32} (hk : Keeps a₀ s) : Keeps a₀ (xlateWrite s x o v) := by
  unfold xlateWrite
  repeat' (first | (with_reducible (first | (assumption) | (apply modCtx_keeps) | (apply xctlWrite_keeps) | (refine ite_keeps ?_ ?_) | split | (intro _) | (dsimp only))) | (apply Keeps.rest; with_reducible (first | (assumption) | (apply modCtx_keeps) | (apply xctlWrite_keeps))))

theorem spanCtlWrite_keeps {a₀ : State} {s : State} {v : BitVec 32} (hk : Keeps a₀ s) : Keeps a₀ (spanCtlWrite s v) := by
  unfold spanCtlWrite
  repeat' (first | (with_reducible (first | (assumption) | (apply spanCommitAll_keeps) | (apply protoSet_keeps) | (apply routeEnSet_keeps) | (refine ite_keeps ?_ ?_) | split | (intro _) | (dsimp only))) | (apply Keeps.rest; with_reducible (first | (assumption) | (apply spanCommitAll_keeps) | (apply protoSet_keeps) | (apply routeEnSet_keeps))))

theorem packageWrite_keeps {a₀ : State} {s : State} {o : ℕ} {v : BitVec 32} (hk : Keeps a₀ s) : Keeps a₀ (packageWrite s o v) := by
  unfold packageWrite
  repeat' (first | (with_reducible (first | (assumption) | (apply spanCtlWrite_keeps) | (apply routeGoWrite_keeps) | (apply owncmdWrite_keeps) | (apply withPlumb_keeps) | (apply spanIdSet_keeps) | (apply withSpan_keeps) | (refine ite_keeps ?_ ?_) | split | (intro _) | (dsimp only))) | (apply Keeps.rest; with_reducible (first | (assumption) | (apply spanCtlWrite_keeps) | (apply routeGoWrite_keeps) | (apply owncmdWrite_keeps) | (apply withPlumb_keeps) | (apply spanIdSet_keeps) | (apply withSpan_keeps))))

theorem portWrite_keeps {a₀ : State} {s : State} {p : ℕ} {o : ℕ} {v : BitVec 32} (hk : Keeps a₀ s) : Keeps a₀ (portWrite s p o v) := by
  unfold portWrite
  repeat' (first | (with_reducible (first | (assumption) | (apply modPort_keeps) | (refine ite_keeps ?_ ?_) | split | (intro _) | (dsimp only))) | (apply Keeps.rest; with_reducible (first | (assumption) | (apply modPort_keeps))))

theorem routeWrite_keeps {a₀ : State} {s : State} {hall : Bool} {i : ℕ} {v : BitVec 32} (hk : Keeps a₀ s) : Keeps a₀ (routeWrite s hall i v) := by
  unfold routeWrite
  repeat' (first | (with_reducible (first | (assumption) | (apply withSpan_keeps) | (refine ite_keeps ?_ ?_) | split | (intro _) | (dsimp only))) | (apply Keeps.rest; with_reducible (first | (assumption) | (apply withSpan_keeps))))

theorem rlcCtlWrite_keeps {a₀ : State} {s : State} {t : ℕ} {v : BitVec 32} (hk : Keeps a₀ s) : Keeps a₀ (rlcCtlWrite s t v) := by
  unfold rlcCtlWrite
  repeat' (first | (with_reducible (first | (assumption) | (apply modTower_keeps) | (refine ite_keeps ?_ ?_) | split | (intro _) | (dsimp only))) | (apply Keeps.rest; with_reducible (first | (assumption) | (apply modTower_keeps))))

theorem hubWrite4_keeps {a₀ : State} {s : State} {view : View} {off : ℕ} {v : BitVec 32} (hk : Keeps a₀ s) : Keeps a₀ (hubWrite4 s view off v) := by
  unfold hubWrite4
  repeat' (first | (with_reducible (first | (assumption) | (apply packageWrite_keeps) | (apply portWrite_keeps) | (apply modCtx_keeps) | (apply modQueue_keeps) | (apply routeWrite_keeps) | (apply xlateWrite_keeps) | (apply rlcCtlWrite_keeps) | (apply modPool_keeps) | (apply vecWrite_keeps) | (apply setMbox_keeps) | (refine ite_keeps ?_ ?_) | split | (intro _) | (dsimp only))) | (apply Keeps.rest; with_reducible (first | (assumption) | (apply packageWrite_keeps) | (apply portWrite_keeps) | (apply modCtx_keeps) | (apply modQueue_keeps) | (apply routeWrite_keeps) | (apply xlateWrite_keeps) | (apply rlcCtlWrite_keeps) | (apply modPool_keeps) | (apply vecWrite_keeps) | (apply setMbox_keeps))))

theorem hubWrite8_keeps {a₀ : State} {s : State} {view : View} {off : ℕ} {v : BitVec 64} (hk : Keeps a₀ s) : Keeps a₀ (hubWrite8 s view off v) := by
  unfold hubWrite8
  repeat' (first | (with_reducible (first | (assumption) | (apply modCtx_keeps) | (apply owncmdWrite_keeps) | (apply hubWrite4_keeps) | (apply withHost_keeps) | (apply setMbox_keeps) | (refine ite_keeps ?_ ?_) | split | (intro _) | (dsimp only))) | (apply Keeps.rest; with_reducible (first | (assumption) | (apply modCtx_keeps) | (apply owncmdWrite_keeps) | (apply hubWrite4_keeps) | (apply withHost_keeps) | (apply setMbox_keeps))))

theorem hubRegWrite_keeps {a₀ : State} {s : State} {view : View} {off : ℕ} {size : ℕ} {v : BitVec 64} (hk : Keeps a₀ s) : Keeps a₀ (hubRegWrite s view off size v) := by
  unfold hubRegWrite
  repeat' (first | (with_reducible (first | (assumption) | (apply hubWrite8_keeps) | (apply hubWrite4_keeps) | (refine ite_keeps ?_ ?_) | split | (intro _) | (dsimp only))) | (apply Keeps.rest; with_reducible (first | (assumption) | (apply hubWrite8_keeps) | (apply hubWrite4_keeps))))

theorem keyWrite_keeps {a₀ : State} {s : State} {r : KeyReg} {v : BitVec 32} (hk : Keeps a₀ s) : Keeps a₀ (keyWrite s r v) := by
  unfold keyWrite
  repeat' (first | (with_reducible (first | (assumption) | (apply modIlimSet_keeps) | (apply withRst_keeps) | (apply modEnSet_keeps) | (apply withPower_keeps) | (apply modClear_keeps) | (refine ite_keeps ?_ ?_) | split | (intro _) | (dsimp only))) | (apply Keeps.rest; with_reducible (first | (assumption) | (apply modIlimSet_keeps) | (apply withRst_keeps) | (apply modEnSet_keeps) | (apply withPower_keeps) | (apply modClear_keeps))))

theorem mboxWrite_keeps {a₀ : State} {s : State} {m : ℕ} {off : ℕ} {size : ℕ} {v : BitVec 64} (hk : Keeps a₀ s) : Keeps a₀ (mboxWrite s m off size v) := by
  unfold mboxWrite
  repeat' (first | (with_reducible (first | (assumption) | (apply setMbox_keeps) | (refine ite_keeps ?_ ?_) | split | (intro _) | (dsimp only))) | (apply Keeps.rest; with_reducible (first | (assumption) | (apply setMbox_keeps))))

theorem aerSet_keeps {a₀ : State} {s : State} {i : ℕ} (hk : Keeps a₀ s) : Keeps a₀ (aerSet s i) := by
  unfold aerSet
  repeat' (first | (with_reducible (first | (assumption) | (apply withHost_keeps) | (refine ite_keeps ?_ ?_) | split | (intro _) | (dsimp only))) | (apply Keeps.rest; with_reducible (first | (assumption) | (apply withHost_keeps))))

theorem pcieReset_keeps {a₀ : State} {s : State} (hk : Keeps a₀ s) : Keeps a₀ (pcieReset s) := by
  unfold pcieReset
  repeat' (first | (with_reducible (first | (assumption) | (apply completeUser_keeps) | (refine forEach_keeps ?_ ?_) | (apply withHost_keeps) | (refine ite_keeps ?_ ?_) | split | (intro _) | (dsimp only))) | (apply Keeps.rest; with_reducible (first | (assumption) | (apply completeUser_keeps) | (refine forEach_keeps ?_ ?_) | (apply withHost_keeps))))

theorem sendPending_keeps {a₀ : State} {s : State} (hk : Keeps a₀ s) : Keeps a₀ (sendPending s) := by
  unfold sendPending
  repeat' (first | (with_reducible (first | (assumption) | (apply unmaskSend_keeps) | (refine forEach_keeps ?_ ?_) | (refine ite_keeps ?_ ?_) | split | (intro _) | (dsimp only))) | (apply Keeps.rest; with_reducible (first | (assumption) | (apply unmaskSend_keeps) | (refine forEach_keeps ?_ ?_))))

theorem masonAnswer_keeps {a₀ : State} {s : State} {d : List Byte} (hk : Keeps a₀ s) : Keeps a₀ (masonAnswer s d) := by
  unfold masonAnswer
  repeat' (first | (with_reducible (first | (assumption) | (apply withHost_keeps) | (refine ite_keeps ?_ ?_) | split | (intro _) | (dsimp only))) | (apply Keeps.rest; with_reducible (first | (assumption) | (apply withHost_keeps))))

theorem masonFaults_keeps {a₀ : State} {s : State} (hk : Keeps a₀ s) : Keeps a₀ (masonFaults s) := by
  unfold masonFaults
  repeat' (first | (with_reducible (first | (assumption) | (apply withHost_keeps) | (refine ite_keeps ?_ ?_) | split | (intro _) | (dsimp only))) | (apply Keeps.rest; with_reducible (first | (assumption) | (apply withHost_keeps))))

theorem masonLoad_keeps {a₀ : State} {d : ℕ} {L : List (ℕ × ℕ)} {s : State} {b3 : List Byte} (hk : Keeps a₀ s) : Keeps a₀ (masonLoad d L s b3) := by
  induction L generalizing s b3 with
  | nil => exact masonAnswer_keeps hk
  | cons p l ih =>
    obtain ⟨a, n⟩ := p
    rw [masonLoad]
    repeat' (first | (with_reducible (first | (assumption) | (apply ih) | (apply homeRead_keeps) | (refine homeRead_keeps_of (by assumption) ?_) | (apply masonAnswer_keeps) | (apply masonFaults_keeps) | (refine ite_keeps ?_ ?_) | split | (intro _) | (dsimp only))) | (apply Keeps.rest; with_reducible (first | (assumption) | (apply ih) | (apply homeRead_keeps) | (refine homeRead_keeps_of (by assumption) ?_) | (apply masonAnswer_keeps) | (apply masonFaults_keeps))))

theorem masonStore_keeps {a₀ : State} {d : ℕ} {L : List (ℕ × ℕ)} {s : State} {b3 : List Byte} (hk : Keeps a₀ s) : Keeps a₀ (masonStore d L s b3) := by
  induction L generalizing s b3 with
  | nil => exact hk
  | cons p l ih =>
    obtain ⟨a, n⟩ := p
    rw [masonStore]
    repeat' (first | (with_reducible (first | (assumption) | (apply ih) | (apply hereWrite_keeps) | (refine hereWrite_keeps_of (by assumption) ?_) | (apply ras_keeps) | (refine ite_keeps ?_ ?_) | split | (intro _) | (dsimp only))) | (apply Keeps.rest; with_reducible (first | (assumption) | (apply ih) | (apply hereWrite_keeps) | (refine hereWrite_keeps_of (by assumption) ?_) | (apply ras_keeps))))

theorem masonBus_keeps {a₀ : State} {s : State} {a : ℕ} {size : ℕ} {isRead : Bool} {wr : List Byte} (hk : Keeps a₀ s) : Keeps a₀ (masonBus s a size isRead wr) := by
  unfold masonBus
  repeat' (first | (with_reducible (first | (assumption) | (apply outSend_keeps) | (apply completeUser_keeps) | (refine ite_keeps ?_ ?_) | split | (intro _) | (dsimp only))) | (apply Keeps.rest; with_reducible (first | (assumption) | (apply outSend_keeps) | (apply completeUser_keeps))))

theorem masonLost_keeps {a₀ : State} {s : State} {isRead : Bool} {a : ℕ} (hk : Keeps a₀ s) : Keeps a₀ (masonLost s isRead a) := by
  unfold masonLost
  repeat' (first | (with_reducible (first | (assumption) | (apply masonFaults_keeps) | (apply ras_keeps) | (refine ite_keeps ?_ ?_) | split | (intro _) | (dsimp only))) | (apply Keeps.rest; with_reducible (first | (assumption) | (apply masonFaults_keeps) | (apply ras_keeps))))

theorem masonHub_keeps {a₀ : State} {s : State} {addr : ℕ} {size : ℕ} {isRead : Bool} {wr : List Byte} (hk : Keeps a₀ s) : Keeps a₀ (masonHub s addr size isRead wr) := by
  unfold masonHub
  repeat' (first | (with_reducible (first | (assumption) | (apply masonAnswer_keeps) | (apply hubRegWrite_keeps) | (apply masonBus_keeps) | (refine ite_keeps ?_ ?_) | split | (intro _) | (dsimp only))) | (apply Keeps.rest; with_reducible (first | (assumption) | (apply masonAnswer_keeps) | (apply hubRegWrite_keeps) | (apply masonBus_keeps))))

theorem orderOfUpdate_keeps {a₀ : State} {s : State} {order : Option ℕ} (hk : Keeps a₀ s) : Keeps a₀ (orderOfUpdate s order) := by
  unfold orderOfUpdate
  repeat' (first | (with_reducible (first | (assumption) | (apply orderStored_keeps) | (apply settleOrder_keeps) | (refine ite_keeps ?_ ?_) | split | (intro _) | (dsimp only))) | (apply Keeps.rest; with_reducible (first | (assumption) | (apply orderStored_keeps) | (apply settleOrder_keeps))))

theorem journalWritten_keeps {a₀ : State} {s : State} {j : Journal} {order : Option ℕ} (hk : Keeps a₀ s) : Keeps a₀ (journalWritten s j order) := by
  unfold journalWritten
  repeat' (first | (with_reducible (first | (assumption) | (apply pushSettings_keeps) | (apply orderOfUpdate_keeps) | (apply withKey_keeps) | (refine ite_keeps ?_ ?_) | split | (intro _) | (dsimp only))) | (apply Keeps.rest; with_reducible (first | (assumption) | (apply pushSettings_keeps) | (apply orderOfUpdate_keeps) | (apply withKey_keeps))))

theorem setSlot_keeps {a₀ : State} {s : State} {b : Bool} {k : FwSlot} (hk : Keeps a₀ s) : Keeps a₀ (setSlot s b k) := by
  unfold setSlot
  repeat' (first | (with_reducible (first | (assumption) | (apply withStore_keeps) | (refine ite_keeps ?_ ?_) | split | (intro _) | (dsimp only))) | (apply Keeps.rest; with_reducible (first | (assumption) | (apply withStore_keeps))))

theorem fallbackJournal_keeps {a₀ : State} {s : State} {old : Bool} {order : Option ℕ} (hk : Keeps a₀ s) : Keeps a₀ (fallbackJournal s old order) := by
  unfold fallbackJournal
  repeat' (first | (with_reducible (first | (assumption) | (apply storePush_keeps) | (refine ite_keeps ?_ ?_) | split | (intro _) | (dsimp only))) | (apply Keeps.rest; with_reducible (first | (assumption) | (apply storePush_keeps))))

theorem retireUnit_keeps {a₀ : State} {s : State} {u : ℕ} (hk : Keeps a₀ s) : Keeps a₀ (retireUnit s u) := by
  unfold retireUnit
  repeat' (first | (with_reducible (first | (assumption) | (apply retireLane_keeps) | (apply modRetire_keeps) | (apply modPort_keeps) | (apply retireIfDue_keeps) | (apply halfFollow_keeps) | (apply laneBad_keeps) | (apply retireQuarry_keeps) | (apply retireChannel_keeps) | (apply modCore_keeps) | (refine ite_keeps ?_ ?_) | split | (intro _) | (dsimp only))) | (apply Keeps.rest; with_reducible (first | (assumption) | (apply retireLane_keeps) | (apply modRetire_keeps) | (apply modPort_keeps) | (apply retireIfDue_keeps) | (apply halfFollow_keeps) | (apply laneBad_keeps) | (apply retireQuarry_keeps) | (apply retireChannel_keeps) | (apply modCore_keeps))))

theorem takeTest_keeps {a₀ : State} {s : State} {u : ℕ} {offline : Bool} (hk : Keeps a₀ s) : Keeps a₀ (takeTest s u offline) := by
  unfold takeTest
  repeat' (first | (with_reducible (first | (assumption) | (apply withKey_keeps) | (apply modCore_keeps) | (refine ite_keeps ?_ ?_) | split | (intro _) | (dsimp only))) | (apply Keeps.rest; with_reducible (first | (assumption) | (apply withKey_keeps) | (apply modCore_keeps))))

theorem releaseCore_keeps {a₀ : State} {s : State} {c : ℕ} (hk : Keeps a₀ s) : Keeps a₀ (releaseCore s c) := by
  unfold releaseCore
  repeat' (first | (with_reducible (first | (assumption) | (apply domAdvance_keeps) | (apply modCore_keeps) | (refine ite_keeps ?_ ?_) | split | (intro _) | (dsimp only))) | (apply Keeps.rest; with_reducible (first | (assumption) | (apply domAdvance_keeps) | (apply modCore_keeps))))

theorem coreTested_keeps {a₀ : State} {s : State} {c : ℕ} {pass : Bool} (hk : Keeps a₀ s) : Keeps a₀ (coreTested s c pass) := by
  unfold coreTested
  repeat' (first | (with_reducible (first | (assumption) | (apply releaseCore_keeps) | (apply ras_keeps) | (apply recUnits_keeps) | (apply retireCore_keeps) | (apply modCore_keeps) | (refine ite_keeps ?_ ?_) | split | (intro _) | (dsimp only))) | (apply Keeps.rest; with_reducible (first | (assumption) | (apply releaseCore_keeps) | (apply ras_keeps) | (apply recUnits_keeps) | (apply retireCore_keeps) | (apply modCore_keeps))))

theorem unitTested_keeps {a₀ : State} {s : State} {u : ℕ} {pass : Bool} (hk : Keeps a₀ s) : Keeps a₀ (unitTested s u pass) := by
  unfold unitTested
  repeat' (first | (with_reducible (first | (assumption) | (apply retireLane_keeps) | (apply setLintel_keeps) | (apply coreTested_keeps) | (apply report_keeps) | (apply withKey_keeps) | (apply recLane_keeps) | (refine ite_keeps ?_ ?_) | split | (intro _) | (dsimp only))) | (apply Keeps.rest; with_reducible (first | (assumption) | (apply retireLane_keeps) | (apply setLintel_keeps) | (apply coreTested_keeps) | (apply report_keeps) | (apply withKey_keeps) | (apply recLane_keeps))))

theorem inReset_keeps {a₀ : State} {s : State} (hk : Keeps a₀ s) : Keeps a₀ (inReset s) := by
  refine ⟨hk.pending, hk.now, fun x => ⟨rfl, rfl, rfl, rfl, rfl, rfl, rfl, rfl, ?_, rfl, rfl⟩⟩
  exact tabWf_foldl _ (fun t b h => tabWf_tset h _ _) _ rfl

theorem recognise_keeps {a₀ : State} {s : State} {src : ℕ} {cause1 : BitVec 32 → BitVec 32} (hk : Keeps a₀ s) : Keeps a₀ (recognise s src cause1) := by
  unfold recognise
  repeat' (first | (with_reducible (first | (assumption) | (apply inReset_keeps) | (apply withRst_keeps) | (refine ite_keeps ?_ ?_) | split | (intro _) | (dsimp only))) | (apply Keeps.rest; with_reducible (first | (assumption) | (apply inReset_keeps) | (apply withRst_keeps))))

theorem vcoreLost_keeps {a₀ : State} {s : State} (hk : Keeps a₀ s) : Keeps a₀ (vcoreLost s) := by
  exact ⟨hk.pending, hk.now, fun x => { hk.canon x with towers := rfl }⟩

theorem source_keeps {a₀ : State} {s : State} {src : ℕ} {cause1 : BitVec 32 → BitVec 32} (hk : Keeps a₀ s) : Keeps a₀ (source s src cause1) := by
  unfold source
  repeat' (first | (with_reducible (first | (assumption) | (apply recognise_keeps) | (refine ite_keeps ?_ ?_) | split | (intro _) | (dsimp only))) | (apply Keeps.rest; with_reducible (first | (assumption) | (apply recognise_keeps))))

theorem stepOne_keeps {a₀ : State} {s : State} {b : BootRead} (hk : Keeps a₀ s) : Keeps a₀ (stepOne s b) := by
  unfold stepOne
  repeat' (first | (with_reducible (first | (assumption) | (apply withStore_keeps) | (apply withRst_keeps) | (apply rasTo_keeps) | (apply storePush_keeps) | (apply withKey_keeps) | (refine ite_keeps ?_ ?_) | split | (intro _) | (dsimp only))) | (apply Keeps.rest; with_reducible (first | (assumption) | (apply withStore_keeps) | (apply withRst_keeps) | (apply rasTo_keeps) | (apply storePush_keeps) | (apply withKey_keeps))) | (with_reducible (first | (injections; subst_vars) | (rename_i heq; revert heq; split <;> (intro heq; first | (cases heq) | skip)))))

theorem stepTwo_keeps {a₀ : State} {s : State} (hk : Keeps a₀ s) : Keeps a₀ (stepTwo s) := by
  unfold stepTwo
  repeat' (first | (with_reducible (first | (assumption) | (apply withRst_keeps) | (apply plumbCheck_keeps) | (apply withPlumb_keeps) | (refine ite_keeps ?_ ?_) | split | (intro _) | (dsimp only))) | (apply Keeps.rest; with_reducible (first | (assumption) | (apply withRst_keeps) | (apply plumbCheck_keeps) | (apply withPlumb_keeps))))

theorem readAreas_keeps {a₀ : State} {s : State} {b : BootRead} (hk : Keeps a₀ s) : Keeps a₀ (readAreas s b) := by
  unfold readAreas
  repeat' (first | (with_reducible (first | (assumption) | (apply withStore_keeps) | (apply withRst_keeps) | (refine ite_keeps ?_ ?_) | split | (intro _) | (dsimp only))) | (apply Keeps.rest; with_reducible (first | (assumption) | (apply withStore_keeps) | (apply withRst_keeps))))

theorem readSettings_keeps {a₀ : State} {s : State} {b : BootRead} (hk : Keeps a₀ s) : Keeps a₀ (readSettings s b) := by
  unfold readSettings
  repeat' (first | (with_reducible (first | (assumption) | (apply withRst_keeps) | (apply fallbackJournal_keeps) | (apply withKey_keeps) | (refine ite_keeps ?_ ?_) | split | (intro _) | (dsimp only))) | (apply Keeps.rest; with_reducible (first | (assumption) | (apply withRst_keeps) | (apply fallbackJournal_keeps) | (apply withKey_keeps))))

theorem writeSettings_keeps {a₀ : State} {s : State} (hk : Keeps a₀ s) : Keeps a₀ (writeSettings s) := by
  unfold writeSettings
  repeat' (first | (with_reducible (first | (assumption) | (apply modPort_keeps) | (apply withPower_keeps) | (apply plumbCheck_keeps) | (apply withPlumb_keeps) | (refine forEach_keeps ?_ ?_) | (apply modTower_keeps) | (apply withHost_keeps) | (apply withSpan_keeps) | (refine ite_keeps ?_ ?_) | split | (intro _) | (dsimp only))) | (apply Keeps.rest; with_reducible (first | (assumption) | (apply modPort_keeps) | (apply withPower_keeps) | (apply plumbCheck_keeps) | (apply withPlumb_keeps) | (refine forEach_keeps ?_ ?_) | (apply modTower_keeps) | (apply withHost_keeps) | (apply withSpan_keeps))))

theorem applyRetired_keeps {a₀ : State} {s : State} {u : ℕ} (hk : Keeps a₀ s) : Keeps a₀ (applyRetired s u) := by
  unfold applyRetired
  repeat' (first | (with_reducible (first | (assumption) | (apply setLintel_keeps) | (apply modPort_keeps) | (apply setMod_keeps) | (apply setHbm_keeps) | (apply setMortar_keeps) | (apply withKey_keeps) | (refine forEach_keeps ?_ ?_) | (apply modTower_keeps) | (apply modCore_keeps) | (refine ite_keeps ?_ ?_) | split | (intro _) | (dsimp only))) | (apply Keeps.rest; with_reducible (first | (assumption) | (apply setLintel_keeps) | (apply modPort_keeps) | (apply setMod_keeps) | (apply setHbm_keeps) | (apply setMortar_keeps) | (apply withKey_keeps) | (refine forEach_keeps ?_ ?_) | (apply modTower_keeps) | (apply modCore_keeps))))

theorem prepare_keeps {a₀ : State} {s : State} {b : BootRead} (hk : Keeps a₀ s) : Keeps a₀ (prepare s b) := by
  unfold prepare
  repeat' (first | (with_reducible (first | (assumption) | (apply applyRetired_keeps) | (apply readSettings_keeps) | (apply moveVcore_keeps) | (apply readAreas_keeps) | (apply writeSettings_keeps) | (apply withKey_keeps) | (refine forEach_keeps ?_ ?_) | (apply setDom_keeps) | (refine ite_keeps ?_ ?_) | split | (intro _) | (dsimp only))) | (apply Keeps.rest; with_reducible (first | (assumption) | (apply applyRetired_keeps) | (apply readSettings_keeps) | (apply moveVcore_keeps) | (apply readAreas_keeps) | (apply writeSettings_keeps) | (apply withKey_keeps) | (refine forEach_keeps ?_ ?_) | (apply setDom_keeps))))

theorem stepThree_keeps {a₀ : State} {s : State} {b : BootRead} (hk : Keeps a₀ s) : Keeps a₀ (stepThree s b) := by
  unfold stepThree
  repeat' (first | (with_reducible (first | (assumption) | (apply withRst_keeps) | (apply rasTo_keeps) | (apply prepare_keeps) | (refine ite_keeps ?_ ?_) | split | (intro _) | (dsimp only))) | (apply Keeps.rest; with_reducible (first | (assumption) | (apply withRst_keeps) | (apply rasTo_keeps) | (apply prepare_keeps))))

theorem stepFour_keeps {a₀ : State} {s : State} (hk : Keeps a₀ s) : Keeps a₀ (stepFour s) := by
  unfold stepFour
  repeat' (first | (with_reducible (first | (assumption) | (apply withRst_keeps) | (apply setMortar_keeps) | (refine forEach_keeps ?_ ?_) | (apply withHost_keeps) | (refine ite_keeps ?_ ?_) | split | (intro _) | (dsimp only))) | (apply Keeps.rest; with_reducible (first | (assumption) | (apply withRst_keeps) | (apply setMortar_keeps) | (refine forEach_keeps ?_ ?_) | (apply withHost_keeps))))

theorem reportLate_keeps {a₀ : State} {s : State} {code : Code} {kind : ℕ} {unit : BitVec 32} {detail : ℕ} (hk : Keeps a₀ s) : Keeps a₀ (reportLate s code kind unit detail) := by
  unfold reportLate
  repeat' (first | (with_reducible (first | (assumption) | (apply withRst_keeps) | (refine ite_keeps ?_ ?_) | split | (intro _) | (dsimp only))) | (apply Keeps.rest; with_reducible (first | (assumption) | (apply withRst_keeps))))

theorem laneFails_keeps {a₀ : State} {s : State} {l : ℕ} {lane : ℕ} (hk : Keeps a₀ s) : Keeps a₀ (laneFails s l lane) := by
  unfold laneFails
  repeat' (first | (with_reducible (first | (assumption) | (apply setLintel_keeps) | (apply reportLate_keeps) | (apply recLane_keeps) | (refine ite_keeps ?_ ?_) | split | (intro _) | (dsimp only))) | (apply Keeps.rest; with_reducible (first | (assumption) | (apply setLintel_keeps) | (apply reportLate_keeps) | (apply recLane_keeps))))

theorem linkTrained_keeps {a₀ : State} {s : State} {l : ℕ} (hk : Keeps a₀ s) : Keeps a₀ (linkTrained s l) := by
  unfold linkTrained
  repeat' (first | (with_reducible (first | (assumption) | (apply setLintel_keeps) | (apply recRetire_keeps) | (apply reportLate_keeps) | (refine ite_keeps ?_ ?_) | split | (intro _) | (dsimp only))) | (apply Keeps.rest; with_reducible (first | (assumption) | (apply setLintel_keeps) | (apply recRetire_keeps) | (apply reportLate_keeps))))

theorem isolatedAtStart_keeps {a₀ : State} {s : State} {d : ℕ} (hk : Keeps a₀ s) : Keeps a₀ (isolatedAtStart s d) := by
  unfold isolatedAtStart
  repeat' (first | (with_reducible (first | (assumption) | (apply applyRetired_keeps) | (apply recUnits_keeps) | (apply reportLate_keeps) | (refine forEach_keeps ?_ ?_) | (apply hubGone_keeps) | (refine ite_keeps ?_ ?_) | split | (intro _) | (dsimp only))) | (apply Keeps.rest; with_reducible (first | (assumption) | (apply applyRetired_keeps) | (apply recUnits_keeps) | (apply reportLate_keeps) | (refine forEach_keeps ?_ ?_) | (apply hubGone_keeps))))

theorem stepFive_keeps {a₀ : State} {s : State} {b : BootRead} (hk : Keeps a₀ s) : Keeps a₀ (stepFive s b) := by
  unfold stepFive
  repeat' (first | (with_reducible (first | (assumption) | (apply withRst_keeps) | (apply laneFails_keeps) | (apply isolatedAtStart_keeps) | (apply linkTrained_keeps) | (refine forEach_keeps ?_ ?_) | (refine ite_keeps ?_ ?_) | split | (intro _) | (dsimp only))) | (apply Keeps.rest; with_reducible (first | (assumption) | (apply withRst_keeps) | (apply laneFails_keeps) | (apply isolatedAtStart_keeps) | (apply linkTrained_keeps) | (refine forEach_keeps ?_ ?_))))

theorem stepSeven_keeps {a₀ : State} {s : State} (hk : Keeps a₀ s) : Keeps a₀ (stepSeven s) := by
  unfold stepSeven
  repeat' (first | (with_reducible (first | (assumption) | (apply withRst_keeps) | (apply withPower_keeps) | (apply forceButtress_keeps) | (refine forEach_keeps ?_ ?_) | (apply freshWindow_keeps) | (apply modCore_keeps) | (refine ite_keeps ?_ ?_) | split | (intro _) | (dsimp only))) | (apply Keeps.rest; with_reducible (first | (assumption) | (apply withRst_keeps) | (apply withPower_keeps) | (apply forceButtress_keeps) | (refine forEach_keeps ?_ ?_) | (apply freshWindow_keeps) | (apply modCore_keeps))))

theorem stepEight_keeps {a₀ : State} {s : State} (hk : Keeps a₀ s) : Keeps a₀ (stepEight s) := by
  unfold stepEight
  repeat' (first | (with_reducible (first | (assumption) | (apply modIlimSet_keeps) | (apply modPort_keeps) | (apply withRst_keeps) | (apply modEnSet_keeps) | (apply withPlumb_keeps) | (refine forEach_keeps ?_ ?_) | (apply portStart_keeps) | (refine ite_keeps ?_ ?_) | split | (intro _) | (dsimp only))) | (apply Keeps.rest; with_reducible (first | (assumption) | (apply modIlimSet_keeps) | (apply modPort_keeps) | (apply withRst_keeps) | (apply modEnSet_keeps) | (apply withPlumb_keeps) | (refine forEach_keeps ?_ ?_) | (apply portStart_keeps))))

theorem rejoin_keeps {a₀ : State} {s : State} (hk : Keeps a₀ s) : Keeps a₀ (rejoin s) := by
  unfold rejoin
  repeat' (first | (with_reducible (first | (assumption) | (apply recUnits_keeps) | (refine ite_keeps ?_ ?_) | split | (intro _) | (dsimp only))) | (apply Keeps.rest; with_reducible (first | (assumption) | (apply recUnits_keeps))))

theorem loadRemaps_keeps {a₀ : State} {s : State} {repaired : List (HCh × ℕ)} (hk : Keeps a₀ s) : Keeps a₀ (loadRemaps s repaired) := by
  unfold loadRemaps
  repeat' (first | (with_reducible (first | (assumption) | (apply setHbm_keeps) | (apply recUnits_keeps) | (refine forEach_keeps ?_ ?_) | (refine ite_keeps ?_ ?_) | split | (intro _) | (dsimp only))) | (apply Keeps.rest; with_reducible (first | (assumption) | (apply setHbm_keeps) | (apply recUnits_keeps) | (refine forEach_keeps ?_ ?_))))

theorem failTraining_keeps {a₀ : State} {s : State} {c : ℕ} (hk : Keeps a₀ s) : Keeps a₀ (failTraining s c) := by
  unfold failTraining
  repeat' (first | (with_reducible (first | (assumption) | (apply withRst_keeps) | (apply setHbm_keeps) | (apply recRetire_keeps) | (refine ite_keeps ?_ ?_) | split | (intro _) | (dsimp only))) | (apply Keeps.rest; with_reducible (first | (assumption) | (apply withRst_keeps) | (apply setHbm_keeps) | (apply recRetire_keeps))))

theorem spillRetired_keeps {a₀ : State} {s : State} (hk : Keeps a₀ s) : Keeps a₀ (spillRetired s) := by
  unfold spillRetired
  repeat' (first | (with_reducible (first | (assumption) | (apply spillChannel_keeps) | (refine forEach_keeps ?_ ?_) | (refine ite_keeps ?_ ?_) | split | (intro _) | (dsimp only))) | (apply Keeps.rest; with_reducible (first | (assumption) | (apply spillChannel_keeps) | (refine forEach_keeps ?_ ?_))))

theorem cleared_keeps {a₀ : State} {s : State} (hk : Keeps a₀ s) : Keeps a₀ (cleared s) := by
  exact ⟨hk.pending, hk.now, fun x => { hk.canon x with mem := rfl, lost := rfl }⟩

theorem ibiTaken_keeps {a₀ : State} {s : State} (hk : Keeps a₀ s) : Keeps a₀ (ibiTaken s) := by
  unfold ibiTaken
  repeat' (first | (with_reducible (first | (assumption) | (apply withPins_keeps) | (refine ite_keeps ?_ ?_) | split | (intro _) | (dsimp only))) | (apply Keeps.rest; with_reducible (first | (assumption) | (apply withPins_keeps))))

theorem jtagLoad_keeps {a₀ : State} {s : State} {ir : BitVec 4} {out : List Bool} (hk : Keeps a₀ s) : Keeps a₀ (jtagLoad s ir out) := by
  unfold jtagLoad
  repeat' (first | (with_reducible (first | (assumption) | (apply withPins_keeps) | (refine ite_keeps ?_ ?_) | split | (intro _) | (dsimp only))) | (apply Keeps.rest; with_reducible (first | (assumption) | (apply withPins_keeps))))

theorem tickPower_keeps {a₀ : State} {s : State} (hk : Keeps a₀ s) : Keeps a₀ (tickPower s) := by
  unfold tickPower
  repeat' (first | (with_reducible (first | (assumption) | (apply modTower_keeps) | (refine foldl_keeps ?_ ?_) | (refine ite_keeps ?_ ?_) | split | (intro _) | (dsimp only))) | (apply Keeps.rest; with_reducible (first | (assumption) | (apply modTower_keeps) | (refine foldl_keeps ?_ ?_))))

/-! ## The window of BAR2 and the posted writes of the host -/

theorem setPosted_keeps {a₀ s : State} {l : List Posted} (hk : Keeps a₀ s) : Keeps a₀ (setPosted s l) := withHost_keeps hk

theorem windowRead_keeps {a₀ s : State} {off size : ℕ} (hk : Keeps a₀ s) : Keeps a₀ (windowRead s off size) := by
  unfold windowRead
  dsimp only
  split
  · exact bar2Answer_keeps hk
  · have k := hubRead_keeps (x := bf s.host.win 11 0) (src := 4) (va := windowVa s.host.win off) (n := size) (r := .home) hk
    split
    · exact k
    · split
      · exact bar2Answer_keeps k
      · exact bar2Answer_keeps (rasCtx_keeps k)

theorem windowWrite_keeps {a₀ s : State} {win : BitVec 64} {off : ℕ} {bs : List Byte} (hk : Keeps a₀ s) :
    Keeps a₀ (windowWrite s win off bs).2 := by
  unfold windowWrite
  dsimp only
  split
  · exact hk
  · have k := hubWrite_keeps (x := bf win 11 0) (src := 4) (va := windowVa win off) (need := .write) (bs := bs) (r := .home) hk
    split
    · exact k
    · split
      · exact k
      · exact rasCtx_keeps k

theorem postedTry_keeps {a₀ s : State} {p : Posted} (hk : Keeps a₀ s) : Keeps a₀ (postedTry s p).2 := by
  cases p with
  | window win off bs => exact windowWrite_keeps hk
  | register off size v => exact hubRegWrite_keeps hk

theorem postedRun_keeps {a₀ : State} {l : List Posted} : ∀ {s : State}, Keeps a₀ s → Keeps a₀ (postedRun l s) := by
  induction l with
  | nil => exact fun hk => setPosted_keeps hk
  | cons p t ih =>
    intro s hk
    have k := postedTry_keeps (p := p) hk
    rw [postedRun]
    split
    · rename_i h
      rw [h] at k
      exact ih k
    · rename_i h
      rw [h] at k
      exact setPosted_keeps k

theorem postedAgain_keeps {a₀ s : State} (hk : Keeps a₀ s) : Keeps a₀ (postedAgain s) := by
  unfold postedAgain
  split
  · exact hk
  · exact postedRun_keeps hk

end Sys2Proof.Machine
end

