-- ==== Sys2Proof/Laws/KeepsExecCore.lean ====
section
/-!
SUPPORT. The commands of the core leave the clock and the waiting commands alone and keep the canonical form.
-/

namespace Sys2Proof.Machine

theorem execNop_keeps {a₀ : State} {c : Core} {w : Bits} {s : State} (hk : Keeps a₀ s) : KeepsRes a₀ (execNop c w s) := by
  unfold execNop
  repeat' (first | (with_reducible (first | (apply KeepsRes.next) | (assumption) | (apply issueCore_keeps) | (refine iteRes_keeps ?_ ?_) | (refine ite_keeps ?_ ?_) | split | (intro _) | (dsimp only))) | (apply Keeps.rest; with_reducible (first | (apply KeepsRes.next) | (assumption) | (apply issueCore_keeps) | (refine iteRes_keeps ?_ ?_))))

theorem execAdd_keeps {a₀ : State} {c : Core} {w : Bits} {s : State} (hk : Keeps a₀ s) : KeepsRes a₀ (execAdd c w s) := by
  unfold execAdd
  repeat' (first | (with_reducible (first | (apply KeepsRes.next) | (assumption) | (apply opR_keeps) | (refine iteRes_keeps ?_ ?_) | (refine ite_keeps ?_ ?_) | split | (intro _) | (dsimp only))) | (apply Keeps.rest; with_reducible (first | (apply KeepsRes.next) | (assumption) | (apply opR_keeps) | (refine iteRes_keeps ?_ ?_))))

theorem execSub_keeps {a₀ : State} {c : Core} {w : Bits} {s : State} (hk : Keeps a₀ s) : KeepsRes a₀ (execSub c w s) := by
  unfold execSub
  repeat' (first | (with_reducible (first | (apply KeepsRes.next) | (assumption) | (apply opR_keeps) | (refine iteRes_keeps ?_ ?_) | (refine ite_keeps ?_ ?_) | split | (intro _) | (dsimp only))) | (apply Keeps.rest; with_reducible (first | (apply KeepsRes.next) | (assumption) | (apply opR_keeps) | (refine iteRes_keeps ?_ ?_))))

theorem execAnd_keeps {a₀ : State} {c : Core} {w : Bits} {s : State} (hk : Keeps a₀ s) : KeepsRes a₀ (execAnd c w s) := by
  unfold execAnd
  repeat' (first | (with_reducible (first | (apply KeepsRes.next) | (assumption) | (apply opR_keeps) | (refine iteRes_keeps ?_ ?_) | (refine ite_keeps ?_ ?_) | split | (intro _) | (dsimp only))) | (apply Keeps.rest; with_reducible (first | (apply KeepsRes.next) | (assumption) | (apply opR_keeps) | (refine iteRes_keeps ?_ ?_))))

theorem execOr_keeps {a₀ : State} {c : Core} {w : Bits} {s : State} (hk : Keeps a₀ s) : KeepsRes a₀ (execOr c w s) := by
  unfold execOr
  repeat' (first | (with_reducible (first | (apply KeepsRes.next) | (assumption) | (apply opR_keeps) | (refine iteRes_keeps ?_ ?_) | (refine ite_keeps ?_ ?_) | split | (intro _) | (dsimp only))) | (apply Keeps.rest; with_reducible (first | (apply KeepsRes.next) | (assumption) | (apply opR_keeps) | (refine iteRes_keeps ?_ ?_))))

theorem execXor_keeps {a₀ : State} {c : Core} {w : Bits} {s : State} (hk : Keeps a₀ s) : KeepsRes a₀ (execXor c w s) := by
  unfold execXor
  repeat' (first | (with_reducible (first | (apply KeepsRes.next) | (assumption) | (apply opR_keeps) | (refine iteRes_keeps ?_ ?_) | (refine ite_keeps ?_ ?_) | split | (intro _) | (dsimp only))) | (apply Keeps.rest; with_reducible (first | (apply KeepsRes.next) | (assumption) | (apply opR_keeps) | (refine iteRes_keeps ?_ ?_))))

theorem execSll_keeps {a₀ : State} {c : Core} {w : Bits} {s : State} (hk : Keeps a₀ s) : KeepsRes a₀ (execSll c w s) := by
  unfold execSll
  repeat' (first | (with_reducible (first | (apply KeepsRes.next) | (assumption) | (apply opR_keeps) | (refine iteRes_keeps ?_ ?_) | (refine ite_keeps ?_ ?_) | split | (intro _) | (dsimp only))) | (apply Keeps.rest; with_reducible (first | (apply KeepsRes.next) | (assumption) | (apply opR_keeps) | (refine iteRes_keeps ?_ ?_))))

theorem execSrl_keeps {a₀ : State} {c : Core} {w : Bits} {s : State} (hk : Keeps a₀ s) : KeepsRes a₀ (execSrl c w s) := by
  unfold execSrl
  repeat' (first | (with_reducible (first | (apply KeepsRes.next) | (assumption) | (apply opR_keeps) | (refine iteRes_keeps ?_ ?_) | (refine ite_keeps ?_ ?_) | split | (intro _) | (dsimp only))) | (apply Keeps.rest; with_reducible (first | (apply KeepsRes.next) | (assumption) | (apply opR_keeps) | (refine iteRes_keeps ?_ ?_))))

theorem execSra_keeps {a₀ : State} {c : Core} {w : Bits} {s : State} (hk : Keeps a₀ s) : KeepsRes a₀ (execSra c w s) := by
  unfold execSra
  repeat' (first | (with_reducible (first | (apply KeepsRes.next) | (assumption) | (apply opR_keeps) | (refine iteRes_keeps ?_ ?_) | (refine ite_keeps ?_ ?_) | split | (intro _) | (dsimp only))) | (apply Keeps.rest; with_reducible (first | (apply KeepsRes.next) | (assumption) | (apply opR_keeps) | (refine iteRes_keeps ?_ ?_))))

theorem execMul_keeps {a₀ : State} {c : Core} {w : Bits} {s : State} (hk : Keeps a₀ s) : KeepsRes a₀ (execMul c w s) := by
  unfold execMul
  repeat' (first | (with_reducible (first | (apply KeepsRes.next) | (assumption) | (apply opR_keeps) | (refine iteRes_keeps ?_ ?_) | (refine ite_keeps ?_ ?_) | split | (intro _) | (dsimp only))) | (apply Keeps.rest; with_reducible (first | (apply KeepsRes.next) | (assumption) | (apply opR_keeps) | (refine iteRes_keeps ?_ ?_))))

theorem execMulhu_keeps {a₀ : State} {c : Core} {w : Bits} {s : State} (hk : Keeps a₀ s) : KeepsRes a₀ (execMulhu c w s) := by
  unfold execMulhu
  repeat' (first | (with_reducible (first | (apply KeepsRes.next) | (assumption) | (apply opR_keeps) | (refine iteRes_keeps ?_ ?_) | (refine ite_keeps ?_ ?_) | split | (intro _) | (dsimp only))) | (apply Keeps.rest; with_reducible (first | (apply KeepsRes.next) | (assumption) | (apply opR_keeps) | (refine iteRes_keeps ?_ ?_))))

theorem execSlt_keeps {a₀ : State} {c : Core} {w : Bits} {s : State} (hk : Keeps a₀ s) : KeepsRes a₀ (execSlt c w s) := by
  unfold execSlt
  repeat' (first | (with_reducible (first | (apply KeepsRes.next) | (assumption) | (apply opR_keeps) | (refine iteRes_keeps ?_ ?_) | (refine ite_keeps ?_ ?_) | split | (intro _) | (dsimp only))) | (apply Keeps.rest; with_reducible (first | (apply KeepsRes.next) | (assumption) | (apply opR_keeps) | (refine iteRes_keeps ?_ ?_))))

theorem execSltu_keeps {a₀ : State} {c : Core} {w : Bits} {s : State} (hk : Keeps a₀ s) : KeepsRes a₀ (execSltu c w s) := by
  unfold execSltu
  repeat' (first | (with_reducible (first | (apply KeepsRes.next) | (assumption) | (apply opR_keeps) | (refine iteRes_keeps ?_ ?_) | (refine ite_keeps ?_ ?_) | split | (intro _) | (dsimp only))) | (apply Keeps.rest; with_reducible (first | (apply KeepsRes.next) | (assumption) | (apply opR_keeps) | (refine iteRes_keeps ?_ ?_))))

theorem execMin_keeps {a₀ : State} {c : Core} {w : Bits} {s : State} (hk : Keeps a₀ s) : KeepsRes a₀ (execMin c w s) := by
  unfold execMin
  repeat' (first | (with_reducible (first | (apply KeepsRes.next) | (assumption) | (apply opR_keeps) | (refine iteRes_keeps ?_ ?_) | (refine ite_keeps ?_ ?_) | split | (intro _) | (dsimp only))) | (apply Keeps.rest; with_reducible (first | (apply KeepsRes.next) | (assumption) | (apply opR_keeps) | (refine iteRes_keeps ?_ ?_))))

theorem execMax_keeps {a₀ : State} {c : Core} {w : Bits} {s : State} (hk : Keeps a₀ s) : KeepsRes a₀ (execMax c w s) := by
  unfold execMax
  repeat' (first | (with_reducible (first | (apply KeepsRes.next) | (assumption) | (apply opR_keeps) | (refine iteRes_keeps ?_ ?_) | (refine ite_keeps ?_ ?_) | split | (intro _) | (dsimp only))) | (apply Keeps.rest; with_reducible (first | (apply KeepsRes.next) | (assumption) | (apply opR_keeps) | (refine iteRes_keeps ?_ ?_))))

theorem execAddi_keeps {a₀ : State} {c : Core} {w : Bits} {s : State} (hk : Keeps a₀ s) : KeepsRes a₀ (execAddi c w s) := by
  unfold execAddi
  repeat' (first | (with_reducible (first | (apply KeepsRes.next) | (assumption) | (apply opI_keeps) | (refine iteRes_keeps ?_ ?_) | (refine ite_keeps ?_ ?_) | split | (intro _) | (dsimp only))) | (apply Keeps.rest; with_reducible (first | (apply KeepsRes.next) | (assumption) | (apply opI_keeps) | (refine iteRes_keeps ?_ ?_))))

theorem execAndi_keeps {a₀ : State} {c : Core} {w : Bits} {s : State} (hk : Keeps a₀ s) : KeepsRes a₀ (execAndi c w s) := by
  unfold execAndi
  repeat' (first | (with_reducible (first | (apply KeepsRes.next) | (assumption) | (apply opI_keeps) | (refine iteRes_keeps ?_ ?_) | (refine ite_keeps ?_ ?_) | split | (intro _) | (dsimp only))) | (apply Keeps.rest; with_reducible (first | (apply KeepsRes.next) | (assumption) | (apply opI_keeps) | (refine iteRes_keeps ?_ ?_))))

theorem execOri_keeps {a₀ : State} {c : Core} {w : Bits} {s : State} (hk : Keeps a₀ s) : KeepsRes a₀ (execOri c w s) := by
  unfold execOri
  repeat' (first | (with_reducible (first | (apply KeepsRes.next) | (assumption) | (apply opI_keeps) | (refine iteRes_keeps ?_ ?_) | (refine ite_keeps ?_ ?_) | split | (intro _) | (dsimp only))) | (apply Keeps.rest; with_reducible (first | (apply KeepsRes.next) | (assumption) | (apply opI_keeps) | (refine iteRes_keeps ?_ ?_))))

theorem execXori_keeps {a₀ : State} {c : Core} {w : Bits} {s : State} (hk : Keeps a₀ s) : KeepsRes a₀ (execXori c w s) := by
  unfold execXori
  repeat' (first | (with_reducible (first | (apply KeepsRes.next) | (assumption) | (apply opI_keeps) | (refine iteRes_keeps ?_ ?_) | (refine ite_keeps ?_ ?_) | split | (intro _) | (dsimp only))) | (apply Keeps.rest; with_reducible (first | (apply KeepsRes.next) | (assumption) | (apply opI_keeps) | (refine iteRes_keeps ?_ ?_))))

theorem execSlli_keeps {a₀ : State} {c : Core} {w : Bits} {s : State} (hk : Keeps a₀ s) : KeepsRes a₀ (execSlli c w s) := by
  unfold execSlli
  repeat' (first | (with_reducible (first | (apply KeepsRes.next) | (assumption) | (apply opI_keeps) | (refine iteRes_keeps ?_ ?_) | (refine ite_keeps ?_ ?_) | split | (intro _) | (dsimp only))) | (apply Keeps.rest; with_reducible (first | (apply KeepsRes.next) | (assumption) | (apply opI_keeps) | (refine iteRes_keeps ?_ ?_))))

theorem execSrli_keeps {a₀ : State} {c : Core} {w : Bits} {s : State} (hk : Keeps a₀ s) : KeepsRes a₀ (execSrli c w s) := by
  unfold execSrli
  repeat' (first | (with_reducible (first | (apply KeepsRes.next) | (assumption) | (apply opI_keeps) | (refine iteRes_keeps ?_ ?_) | (refine ite_keeps ?_ ?_) | split | (intro _) | (dsimp only))) | (apply Keeps.rest; with_reducible (first | (apply KeepsRes.next) | (assumption) | (apply opI_keeps) | (refine iteRes_keeps ?_ ?_))))

theorem execSrai_keeps {a₀ : State} {c : Core} {w : Bits} {s : State} (hk : Keeps a₀ s) : KeepsRes a₀ (execSrai c w s) := by
  unfold execSrai
  repeat' (first | (with_reducible (first | (apply KeepsRes.next) | (assumption) | (apply opI_keeps) | (refine iteRes_keeps ?_ ?_) | (refine ite_keeps ?_ ?_) | split | (intro _) | (dsimp only))) | (apply Keeps.rest; with_reducible (first | (apply KeepsRes.next) | (assumption) | (apply opI_keeps) | (refine iteRes_keeps ?_ ?_))))

theorem execSlti_keeps {a₀ : State} {c : Core} {w : Bits} {s : State} (hk : Keeps a₀ s) : KeepsRes a₀ (execSlti c w s) := by
  unfold execSlti
  repeat' (first | (with_reducible (first | (apply KeepsRes.next) | (assumption) | (apply opI_keeps) | (refine iteRes_keeps ?_ ?_) | (refine ite_keeps ?_ ?_) | split | (intro _) | (dsimp only))) | (apply Keeps.rest; with_reducible (first | (apply KeepsRes.next) | (assumption) | (apply opI_keeps) | (refine iteRes_keeps ?_ ?_))))

theorem execSltiu_keeps {a₀ : State} {c : Core} {w : Bits} {s : State} (hk : Keeps a₀ s) : KeepsRes a₀ (execSltiu c w s) := by
  unfold execSltiu
  repeat' (first | (with_reducible (first | (apply KeepsRes.next) | (assumption) | (apply opI_keeps) | (refine iteRes_keeps ?_ ?_) | (refine ite_keeps ?_ ?_) | split | (intro _) | (dsimp only))) | (apply Keeps.rest; with_reducible (first | (apply KeepsRes.next) | (assumption) | (apply opI_keeps) | (refine iteRes_keeps ?_ ?_))))

theorem execLih_keeps {a₀ : State} {c : Core} {w : Bits} {s : State} (hk : Keeps a₀ s) : KeepsRes a₀ (execLih c w s) := by
  unfold execLih
  repeat' (first | (with_reducible (first | (apply KeepsRes.next) | (assumption) | (apply opI_keeps) | (refine iteRes_keeps ?_ ?_) | (refine ite_keeps ?_ ?_) | split | (intro _) | (dsimp only))) | (apply Keeps.rest; with_reducible (first | (apply KeepsRes.next) | (assumption) | (apply opI_keeps) | (refine iteRes_keeps ?_ ?_))))

theorem execLi_keeps {a₀ : State} {c : Core} {w : Bits} {s : State} (hk : Keeps a₀ s) : KeepsRes a₀ (execLi c w s) := by
  unfold execLi
  repeat' (first | (with_reducible (first | (apply KeepsRes.next) | (assumption) | (apply opI_keeps) | (refine iteRes_keeps ?_ ?_) | (refine ite_keeps ?_ ?_) | split | (intro _) | (dsimp only))) | (apply Keeps.rest; with_reducible (first | (apply KeepsRes.next) | (assumption) | (apply opI_keeps) | (refine iteRes_keeps ?_ ?_))))

theorem execMvlc_keeps {a₀ : State} {c : Core} {w : Bits} {s : State} (hk : Keeps a₀ s) : KeepsRes a₀ (execMvlc c w s) := by
  unfold execMvlc
  repeat' (first | (with_reducible (first | (apply KeepsRes.next) | (assumption) | (apply scalarOp_keeps) | (refine iteRes_keeps ?_ ?_) | (refine ite_keeps ?_ ?_) | split | (intro _) | (dsimp only))) | (apply Keeps.rest; with_reducible (first | (apply KeepsRes.next) | (assumption) | (apply scalarOp_keeps) | (refine iteRes_keeps ?_ ?_))))

theorem execMvsa_keeps {a₀ : State} {c : Core} {w : Bits} {s : State} (hk : Keeps a₀ s) : KeepsRes a₀ (execMvsa c w s) := by
  unfold execMvsa
  repeat' (first | (with_reducible (first | (apply KeepsRes.next) | (assumption) | (apply scalarOp_keeps) | (refine iteRes_keeps ?_ ?_) | (refine ite_keeps ?_ ?_) | split | (intro _) | (dsimp only))) | (apply Keeps.rest; with_reducible (first | (apply KeepsRes.next) | (assumption) | (apply scalarOp_keeps) | (refine iteRes_keeps ?_ ?_))))

theorem execAdda_keeps {a₀ : State} {c : Core} {w : Bits} {s : State} (hk : Keeps a₀ s) : KeepsRes a₀ (execAdda c w s) := by
  unfold execAdda
  repeat' (first | (with_reducible (first | (apply KeepsRes.next) | (assumption) | (apply issueCore_keeps) | (refine iteRes_keeps ?_ ?_) | (refine ite_keeps ?_ ?_) | split | (intro _) | (dsimp only))) | (apply Keeps.rest; with_reducible (first | (apply KeepsRes.next) | (assumption) | (apply issueCore_keeps) | (refine iteRes_keeps ?_ ?_))))

theorem execLds_keeps {a₀ : State} {c : Core} {w : Bits} {s : State} (hk : Keeps a₀ s) : KeepsRes a₀ (execLds c w s) := by
  unfold execLds
  repeat' (first | (with_reducible (first | (apply KeepsRes.next) | (assumption) | (apply issueCore_keeps) | (refine iteRes_keeps ?_ ?_) | (refine ite_keeps ?_ ?_) | split | (intro _) | (dsimp only))) | (apply Keeps.rest; with_reducible (first | (apply KeepsRes.next) | (assumption) | (apply issueCore_keeps) | (refine iteRes_keeps ?_ ?_))))

theorem execSts_keeps {a₀ : State} {c : Core} {w : Bits} {s : State} (hk : Keeps a₀ s) : KeepsRes a₀ (execSts c w s) := by
  unfold execSts
  repeat' (first | (with_reducible (first | (apply KeepsRes.next) | (assumption) | (apply issueCore_keeps) | (refine iteRes_keeps ?_ ?_) | (refine ite_keeps ?_ ?_) | split | (intro _) | (dsimp only))) | (apply Keeps.rest; with_reducible (first | (apply KeepsRes.next) | (assumption) | (apply issueCore_keeps) | (refine iteRes_keeps ?_ ?_))))

theorem execLd_keeps {a₀ : State} {c : Core} {w : Bits} {s : State} (hk : Keeps a₀ s) : KeepsRes a₀ (execLd c w s) := by
  unfold execLd
  repeat' (first | (with_reducible (first | (apply KeepsRes.next) | (assumption) | (apply issueAccess_keeps) | (refine iteRes_keeps ?_ ?_) | (refine ite_keeps ?_ ?_) | split | (intro _) | (dsimp only))) | (apply Keeps.rest; with_reducible (first | (apply KeepsRes.next) | (assumption) | (apply issueAccess_keeps) | (refine iteRes_keeps ?_ ?_))))

theorem execSt_keeps {a₀ : State} {c : Core} {w : Bits} {s : State} (hk : Keeps a₀ s) : KeepsRes a₀ (execSt c w s) := by
  unfold execSt
  repeat' (first | (with_reducible (first | (apply KeepsRes.next) | (assumption) | (apply issueAccess_keeps) | (refine iteRes_keeps ?_ ?_) | (refine ite_keeps ?_ ?_) | split | (intro _) | (dsimp only))) | (apply Keeps.rest; with_reducible (first | (apply KeepsRes.next) | (assumption) | (apply issueAccess_keeps) | (refine iteRes_keeps ?_ ?_))))

theorem execAmo_keeps {a₀ : State} {c : Core} {w : Bits} {s : State} (hk : Keeps a₀ s) : KeepsRes a₀ (execAmo c w s) := by
  unfold execAmo
  repeat' (first | (with_reducible (first | (apply KeepsRes.next) | (assumption) | (apply issueAccess_keeps) | (refine iteRes_keeps ?_ ?_) | (refine ite_keeps ?_ ?_) | split | (intro _) | (dsimp only))) | (apply Keeps.rest; with_reducible (first | (apply KeepsRes.next) | (assumption) | (apply issueAccess_keeps) | (refine iteRes_keeps ?_ ?_))))

theorem execSeqAccessComplete_keeps {a₀ : State} {c : Core} {a : SeqAcc} {r : Reply} {s : State} (hk : Keeps a₀ s) : KeepsRes a₀ (execSeqAccessComplete c a r s) := by
  unfold execSeqAccessComplete
  repeat' (first | (with_reducible (first | (apply KeepsRes.next) | (assumption) | (apply fetchReturns_keeps) | (apply completeAcc_keeps) | (refine iteRes_keeps ?_ ?_) | (refine ite_keeps ?_ ?_) | split | (intro _) | (dsimp only))) | (apply Keeps.rest; with_reducible (first | (apply KeepsRes.next) | (assumption) | (apply fetchReturns_keeps) | (apply completeAcc_keeps) | (refine iteRes_keeps ?_ ?_))))

theorem execFence_keeps {a₀ : State} {c : Core} {w : Bits} {s : State} (hk : Keeps a₀ s) : KeepsRes a₀ (execFence c w s) := by
  unfold execFence
  repeat' (first | (with_reducible (first | (apply KeepsRes.next) | (assumption) | (apply issueCore_keeps) | (refine iteRes_keeps ?_ ?_) | (refine ite_keeps ?_ ?_) | split | (intro _) | (dsimp only))) | (apply Keeps.rest; with_reducible (first | (apply KeepsRes.next) | (assumption) | (apply issueCore_keeps) | (refine iteRes_keeps ?_ ?_))))

theorem execFenceComplete_keeps {a₀ : State} {c : Core} {s : State} (hk : Keeps a₀ s) : KeepsRes a₀ (execFenceComplete c s) := by
  unfold execFenceComplete
  repeat' (first | (with_reducible (first | (apply KeepsRes.next) | (assumption) | (apply combFlush_keeps) | (apply modCore_keeps) | (refine iteRes_keeps ?_ ?_) | (refine ite_keeps ?_ ?_) | split | (intro _) | (dsimp only))) | (apply Keeps.rest; with_reducible (first | (apply KeepsRes.next) | (assumption) | (apply combFlush_keeps) | (apply modCore_keeps) | (refine iteRes_keeps ?_ ?_))))

theorem execBeq_keeps {a₀ : State} {c : Core} {w : Bits} {s : State} (hk : Keeps a₀ s) : KeepsRes a₀ (execBeq c w s) := by
  unfold execBeq
  repeat' (first | (with_reducible (first | (apply KeepsRes.next) | (assumption) | (apply branchOp_keeps) | (refine iteRes_keeps ?_ ?_) | (refine ite_keeps ?_ ?_) | split | (intro _) | (dsimp only))) | (apply Keeps.rest; with_reducible (first | (apply KeepsRes.next) | (assumption) | (apply branchOp_keeps) | (refine iteRes_keeps ?_ ?_))))

theorem execBne_keeps {a₀ : State} {c : Core} {w : Bits} {s : State} (hk : Keeps a₀ s) : KeepsRes a₀ (execBne c w s) := by
  unfold execBne
  repeat' (first | (with_reducible (first | (apply KeepsRes.next) | (assumption) | (apply branchOp_keeps) | (refine iteRes_keeps ?_ ?_) | (refine ite_keeps ?_ ?_) | split | (intro _) | (dsimp only))) | (apply Keeps.rest; with_reducible (first | (apply KeepsRes.next) | (assumption) | (apply branchOp_keeps) | (refine iteRes_keeps ?_ ?_))))

theorem execBlt_keeps {a₀ : State} {c : Core} {w : Bits} {s : State} (hk : Keeps a₀ s) : KeepsRes a₀ (execBlt c w s) := by
  unfold execBlt
  repeat' (first | (with_reducible (first | (apply KeepsRes.next) | (assumption) | (apply branchOp_keeps) | (refine iteRes_keeps ?_ ?_) | (refine ite_keeps ?_ ?_) | split | (intro _) | (dsimp only))) | (apply Keeps.rest; with_reducible (first | (apply KeepsRes.next) | (assumption) | (apply branchOp_keeps) | (refine iteRes_keeps ?_ ?_))))

theorem execBge_keeps {a₀ : State} {c : Core} {w : Bits} {s : State} (hk : Keeps a₀ s) : KeepsRes a₀ (execBge c w s) := by
  unfold execBge
  repeat' (first | (with_reducible (first | (apply KeepsRes.next) | (assumption) | (apply branchOp_keeps) | (refine iteRes_keeps ?_ ?_) | (refine ite_keeps ?_ ?_) | split | (intro _) | (dsimp only))) | (apply Keeps.rest; with_reducible (first | (apply KeepsRes.next) | (assumption) | (apply branchOp_keeps) | (refine iteRes_keeps ?_ ?_))))

theorem execBltu_keeps {a₀ : State} {c : Core} {w : Bits} {s : State} (hk : Keeps a₀ s) : KeepsRes a₀ (execBltu c w s) := by
  unfold execBltu
  repeat' (first | (with_reducible (first | (apply KeepsRes.next) | (assumption) | (apply branchOp_keeps) | (refine iteRes_keeps ?_ ?_) | (refine ite_keeps ?_ ?_) | split | (intro _) | (dsimp only))) | (apply Keeps.rest; with_reducible (first | (apply KeepsRes.next) | (assumption) | (apply branchOp_keeps) | (refine iteRes_keeps ?_ ?_))))

theorem execBgeu_keeps {a₀ : State} {c : Core} {w : Bits} {s : State} (hk : Keeps a₀ s) : KeepsRes a₀ (execBgeu c w s) := by
  unfold execBgeu
  repeat' (first | (with_reducible (first | (apply KeepsRes.next) | (assumption) | (apply branchOp_keeps) | (refine iteRes_keeps ?_ ?_) | (refine ite_keeps ?_ ?_) | split | (intro _) | (dsimp only))) | (apply Keeps.rest; with_reducible (first | (apply KeepsRes.next) | (assumption) | (apply branchOp_keeps) | (refine iteRes_keeps ?_ ?_))))

theorem execJal_keeps {a₀ : State} {c : Core} {w : Bits} {s : State} (hk : Keeps a₀ s) : KeepsRes a₀ (execJal c w s) := by
  unfold execJal
  repeat' (first | (with_reducible (first | (apply KeepsRes.next) | (assumption) | (apply issueCore_keeps) | (refine iteRes_keeps ?_ ?_) | (refine ite_keeps ?_ ?_) | split | (intro _) | (dsimp only))) | (apply Keeps.rest; with_reducible (first | (apply KeepsRes.next) | (assumption) | (apply issueCore_keeps) | (refine iteRes_keeps ?_ ?_))))

theorem execJr_keeps {a₀ : State} {c : Core} {w : Bits} {s : State} (hk : Keeps a₀ s) : KeepsRes a₀ (execJr c w s) := by
  unfold execJr
  repeat' (first | (with_reducible (first | (apply KeepsRes.next) | (assumption) | (apply issueCore_keeps) | (refine iteRes_keeps ?_ ?_) | (refine ite_keeps ?_ ?_) | split | (intro _) | (dsimp only))) | (apply Keeps.rest; with_reducible (first | (apply KeepsRes.next) | (assumption) | (apply issueCore_keeps) | (refine iteRes_keeps ?_ ?_))))

theorem execLoop_keeps {a₀ : State} {c : Core} {w : Bits} {s : State} (hk : Keeps a₀ s) : KeepsRes a₀ (execLoop c w s) := by
  unfold execLoop
  repeat' (first | (with_reducible (first | (apply KeepsRes.next) | (assumption) | (apply issueCore_keeps) | (apply loopEndsOnAmm_keeps) | (refine loopEndsOnAmm_keeps_of (by assumption) ?_) | (apply setCore_keeps) | (refine iteRes_keeps ?_ ?_) | (refine ite_keeps ?_ ?_) | split | (intro _) | (dsimp only))) | (apply Keeps.rest; with_reducible (first | (apply KeepsRes.next) | (assumption) | (apply issueCore_keeps) | (apply loopEndsOnAmm_keeps) | (refine loopEndsOnAmm_keeps_of (by assumption) ?_) | (apply setCore_keeps) | (refine iteRes_keeps ?_ ?_))))

theorem execWaite_keeps {a₀ : State} {c : Core} {w : Bits} {s : State} (hk : Keeps a₀ s) : KeepsRes a₀ (execWaite c w s) := by
  unfold execWaite
  repeat' (first | (with_reducible (first | (apply KeepsRes.next) | (assumption) | (apply issueCore_keeps) | (refine iteRes_keeps ?_ ?_) | (refine ite_keeps ?_ ?_) | split | (intro _) | (dsimp only))) | (apply Keeps.rest; with_reducible (first | (apply KeepsRes.next) | (assumption) | (apply issueCore_keeps) | (refine iteRes_keeps ?_ ?_))))

theorem execWaiteComplete_keeps {a₀ : State} {c : Core} {s : State} (hk : Keeps a₀ s) : KeepsRes a₀ (execWaiteComplete c s) := by
  unfold execWaiteComplete
  repeat' (first | (with_reducible (first | (apply KeepsRes.next) | (assumption) | (apply setCore_keeps) | (refine iteRes_keeps ?_ ?_) | (refine ite_keeps ?_ ?_) | split | (intro _) | (dsimp only))) | (apply Keeps.rest; with_reducible (first | (apply KeepsRes.next) | (assumption) | (apply setCore_keeps) | (refine iteRes_keeps ?_ ?_))))

theorem execWaitf_keeps {a₀ : State} {c : Core} {w : Bits} {s : State} (hk : Keeps a₀ s) : KeepsRes a₀ (execWaitf c w s) := by
  unfold execWaitf
  repeat' (first | (with_reducible (first | (apply KeepsRes.next) | (assumption) | (apply issueCore_keeps) | (refine iteRes_keeps ?_ ?_) | (refine ite_keeps ?_ ?_) | split | (intro _) | (dsimp only))) | (apply Keeps.rest; with_reducible (first | (apply KeepsRes.next) | (assumption) | (apply issueCore_keeps) | (refine iteRes_keeps ?_ ?_))))

theorem execWaitfEvaluate_keeps {a₀ : State} {c : Core} {r : Reply} {s : State} (hk : Keeps a₀ s) : KeepsRes a₀ (execWaitfEvaluate c r s) := by
  unfold execWaitfEvaluate
  repeat' (first | (with_reducible (first | (apply KeepsRes.next) | (assumption) | (refine waitfXlate_keeps_of (by assumption) ?_) | (apply recordX_keeps) | (apply countIfPage_keeps) | (apply combFlush_keeps) | (apply flagAt_keeps) | (refine flagAt_keeps_of (by assumption) ?_) | (apply flagRead_keeps) | (apply modCore_keeps) | (refine iteRes_keeps ?_ ?_) | (refine ite_keeps ?_ ?_) | split | (intro _) | (dsimp only))) | (apply Keeps.rest; with_reducible (first | (apply KeepsRes.next) | (assumption) | (refine waitfXlate_keeps_of (by assumption) ?_) | (apply recordX_keeps) | (apply countIfPage_keeps) | (apply combFlush_keeps) | (apply flagAt_keeps) | (refine flagAt_keeps_of (by assumption) ?_) | (apply flagRead_keeps) | (apply modCore_keeps) | (refine iteRes_keeps ?_ ?_))))

theorem execWaitfDeadline_keeps {a₀ : State} {c : Core} {s : State} (hk : Keeps a₀ s) : KeepsRes a₀ (execWaitfDeadline c s) := by
  unfold execWaitfDeadline
  repeat' (first | (with_reducible (first | (apply KeepsRes.next) | (assumption) | (apply setCore_keeps) | (refine iteRes_keeps ?_ ?_) | (refine ite_keeps ?_ ?_) | split | (intro _) | (dsimp only))) | (apply Keeps.rest; with_reducible (first | (apply KeepsRes.next) | (assumption) | (apply setCore_keeps) | (refine iteRes_keeps ?_ ?_))))

theorem execWaitp_keeps {a₀ : State} {c : Core} {w : Bits} {s : State} (hk : Keeps a₀ s) : KeepsRes a₀ (execWaitp c w s) := by
  unfold execWaitp
  repeat' (first | (with_reducible (first | (apply KeepsRes.next) | (assumption) | (apply issueCore_keeps) | (refine iteRes_keeps ?_ ?_) | (refine ite_keeps ?_ ?_) | split | (intro _) | (dsimp only))) | (apply Keeps.rest; with_reducible (first | (apply KeepsRes.next) | (assumption) | (apply issueCore_keeps) | (refine iteRes_keeps ?_ ?_))))

theorem execPlumbWaitRelease_keeps {a₀ : State} {c : Core} {s : State} (hk : Keeps a₀ s) : KeepsRes a₀ (execPlumbWaitRelease c s) := by
  unfold execPlumbWaitRelease
  repeat' (first | (with_reducible (first | (apply KeepsRes.next) | (assumption) | (apply setCore_keeps) | (refine iteRes_keeps ?_ ?_) | (refine ite_keeps ?_ ?_) | split | (intro _) | (dsimp only))) | (apply Keeps.rest; with_reducible (first | (apply KeepsRes.next) | (assumption) | (apply setCore_keeps) | (refine iteRes_keeps ?_ ?_))))

theorem execRdplumb_keeps {a₀ : State} {c : Core} {w : Bits} {s : State} (hk : Keeps a₀ s) : KeepsRes a₀ (execRdplumb c w s) := by
  unfold execRdplumb
  repeat' (first | (with_reducible (first | (apply KeepsRes.next) | (assumption) | (apply issueCore_keeps) | (refine iteRes_keeps ?_ ?_) | (refine ite_keeps ?_ ?_) | split | (intro _) | (dsimp only))) | (apply Keeps.rest; with_reducible (first | (apply KeepsRes.next) | (assumption) | (apply issueCore_keeps) | (refine iteRes_keeps ?_ ?_))))

theorem execDma_keeps {a₀ : State} {c : Core} {w : Bits} {s : State} (hk : Keeps a₀ s) : KeepsRes a₀ (execDma c w s) := by
  unfold execDma
  repeat' (first | (with_reducible (first | (apply KeepsRes.next) | (assumption) | (apply issueCore_keeps) | (refine iteRes_keeps ?_ ?_) | (refine ite_keeps ?_ ?_) | split | (intro _) | (dsimp only))) | (apply Keeps.rest; with_reducible (first | (apply KeepsRes.next) | (assumption) | (apply issueCore_keeps) | (refine iteRes_keeps ?_ ?_))))

theorem execDmaDescriptorStart_keeps {a₀ : State} {c : Core} {ch : Fin 4} {s : State} (hk : Keeps a₀ s) : KeepsRes a₀ (execDmaDescriptorStart c ch s) := by
  unfold execDmaDescriptorStart
  repeat' (first | (with_reducible (first | (apply KeepsRes.next) | (assumption) | (apply setCore_keeps) | (refine iteRes_keeps ?_ ?_) | (refine ite_keeps ?_ ?_) | split | (intro _) | (dsimp only))) | (apply Keeps.rest; with_reducible (first | (apply KeepsRes.next) | (assumption) | (apply setCore_keeps) | (refine iteRes_keeps ?_ ?_))))

theorem execDmaTimedRelease_keeps {a₀ : State} {c : Core} {ch : Fin 4} {s : State} (hk : Keeps a₀ s) : KeepsRes a₀ (execDmaTimedRelease c ch s) := by
  unfold execDmaTimedRelease
  repeat' (first | (with_reducible (first | (apply KeepsRes.next) | (assumption) | (apply setCore_keeps) | (refine iteRes_keeps ?_ ?_) | (refine ite_keeps ?_ ?_) | split | (intro _) | (dsimp only))) | (apply Keeps.rest; with_reducible (first | (apply KeepsRes.next) | (assumption) | (apply setCore_keeps) | (refine iteRes_keeps ?_ ?_))))

theorem execDmaLineComplete_keeps {a₀ : State} {c : Core} {ch : Fin 4} {r : Reply} {s : State} (hk : Keeps a₀ s) : KeepsRes a₀ (execDmaLineComplete c ch r s) := by
  unfold execDmaLineComplete
  repeat' (first | (with_reducible (first | (apply KeepsRes.next) | (assumption) | (apply moveChunk_keeps) | (apply chanXlate_keeps) | (refine chanXlate_keeps_of (by assumption) ?_) | (apply chanFault_keeps) | (refine iteRes_keeps ?_ ?_) | (refine ite_keeps ?_ ?_) | split | (intro _) | (dsimp only))) | (apply Keeps.rest; with_reducible (first | (apply KeepsRes.next) | (assumption) | (apply moveChunk_keeps) | (apply chanXlate_keeps) | (refine chanXlate_keeps_of (by assumption) ?_) | (apply chanFault_keeps) | (refine iteRes_keeps ?_ ?_))))

theorem execDmaDescriptorComplete_keeps {a₀ : State} {c : Core} {ch : Fin 4} {s : State} (hk : Keeps a₀ s) : KeepsRes a₀ (execDmaDescriptorComplete c ch s) := by
  unfold execDmaDescriptorComplete
  repeat' (first | (with_reducible (first | (apply KeepsRes.next) | (assumption) | (apply setCore_keeps) | (refine iteRes_keeps ?_ ?_) | (refine ite_keeps ?_ ?_) | split | (intro _) | (dsimp only))) | (apply Keeps.rest; with_reducible (first | (apply KeepsRes.next) | (assumption) | (apply setCore_keeps) | (refine iteRes_keeps ?_ ?_))))

theorem execDmaSignalDone_keeps {a₀ : State} {c : Core} {ch : Fin 4} {r : Reply} {s : State} (hk : Keeps a₀ s) : KeepsRes a₀ (execDmaSignalDone c ch r s) := by
  unfold execDmaSignalDone
  repeat' (first | (with_reducible (first | (apply KeepsRes.next) | (assumption) | (apply chanXlate_keeps) | (refine chanXlate_keeps_of (by assumption) ?_) | (apply chanFault_keeps) | (apply signalAt_keeps) | (refine signalAt_keeps_of (by assumption) ?_) | (apply modCore_keeps) | (refine iteRes_keeps ?_ ?_) | (refine ite_keeps ?_ ?_) | split | (intro _) | (dsimp only))) | (apply Keeps.rest; with_reducible (first | (apply KeepsRes.next) | (assumption) | (apply chanXlate_keeps) | (refine chanXlate_keeps_of (by assumption) ?_) | (apply chanFault_keeps) | (apply signalAt_keeps) | (refine signalAt_keeps_of (by assumption) ?_) | (apply modCore_keeps) | (refine iteRes_keeps ?_ ?_))))

theorem execAmm_keeps {a₀ : State} {c : Core} {w : Bits} {w1 : BitVec 64} {s : State} (hk : Keeps a₀ s) : KeepsRes a₀ (execAmm c w w1 s) := by
  unfold execAmm
  repeat' (first | (with_reducible (first | (apply KeepsRes.next) | (assumption) | (apply issueCore_keeps) | (refine iteRes_keeps ?_ ?_) | (refine ite_keeps ?_ ?_) | split | (intro _) | (dsimp only))) | (apply Keeps.rest; with_reducible (first | (apply KeepsRes.next) | (assumption) | (apply issueCore_keeps) | (refine iteRes_keeps ?_ ?_))))

theorem execAmmAccept_keeps {a₀ : State} {c : Core} {e : Fin 4} {s : State} (hk : Keeps a₀ s) : KeepsRes a₀ (execAmmAccept c e s) := by
  unfold execAmmAccept
  repeat' (first | (with_reducible (first | (apply KeepsRes.next) | (assumption) | (apply setCore_keeps) | (refine iteRes_keeps ?_ ?_) | (refine ite_keeps ?_ ?_) | split | (intro _) | (dsimp only))) | (apply Keeps.rest; with_reducible (first | (apply KeepsRes.next) | (assumption) | (apply setCore_keeps) | (refine iteRes_keeps ?_ ?_))))

theorem execAmmFirstArrayCycle_keeps {a₀ : State} {c : Core} {e : Fin 4} {s : State} (hk : Keeps a₀ s) : KeepsRes a₀ (execAmmFirstArrayCycle c e s) := by
  unfold execAmmFirstArrayCycle
  repeat' (first | (with_reducible (first | (apply KeepsRes.next) | (apply racedView_keeps) | (refine racedView_keeps_of (by assumption) ?_) | (assumption) | (apply setCore_keeps) | (refine iteRes_keeps ?_ ?_) | (refine ite_keeps ?_ ?_) | split | (intro _) | (dsimp only))) | (apply Keeps.rest; with_reducible (first | (apply KeepsRes.next) | (refine racedView_keeps_of (by assumption) ?_) | (assumption) | (apply setCore_keeps) | (refine iteRes_keeps ?_ ?_))))

theorem execAmmTileDrain_keeps {a₀ : State} {c : Core} {e : Fin 4} {s : State} (hk : Keeps a₀ s) : KeepsRes a₀ (execAmmTileDrain c e s) := by
  unfold execAmmTileDrain
  repeat' (first | (with_reducible (first | (apply KeepsRes.next) | (assumption) | (apply setCore_keeps) | (refine iteRes_keeps ?_ ?_) | (refine ite_keeps ?_ ?_) | split | (intro _) | (dsimp only))) | (apply Keeps.rest; with_reducible (first | (apply KeepsRes.next) | (assumption) | (apply setCore_keeps) | (refine iteRes_keeps ?_ ?_))))

theorem execAmmComplete_keeps {a₀ : State} {c : Core} {e : Fin 4} {s : State} (hk : Keeps a₀ s) : KeepsRes a₀ (execAmmComplete c e s) := by
  unfold execAmmComplete
  repeat' (first | (with_reducible (first | (apply KeepsRes.next) | (assumption) | (apply retireIfDue_keeps) | (apply setCore_keeps) | (refine iteRes_keeps ?_ ?_) | (refine ite_keeps ?_ ?_) | split | (intro _) | (dsimp only))) | (apply Keeps.rest; with_reducible (first | (apply KeepsRes.next) | (assumption) | (apply retireIfDue_keeps) | (apply setCore_keeps) | (refine iteRes_keeps ?_ ?_))))

theorem execChn_keeps {a₀ : State} {c : Core} {w : Bits} {s : State} (hk : Keeps a₀ s) : KeepsRes a₀ (execChn c w s) := by
  unfold execChn
  repeat' (first | (with_reducible (first | (apply KeepsRes.next) | (assumption) | (apply issueChisel_keeps) | (refine iteRes_keeps ?_ ?_) | (refine ite_keeps ?_ ?_) | split | (intro _) | (dsimp only))) | (apply Keeps.rest; with_reducible (first | (apply KeepsRes.next) | (assumption) | (apply issueChisel_keeps) | (refine iteRes_keeps ?_ ?_))))

theorem execCfold_keeps {a₀ : State} {c : Core} {w : Bits} {s : State} (hk : Keeps a₀ s) : KeepsRes a₀ (execCfold c w s) := by
  unfold execCfold
  repeat' (first | (with_reducible (first | (apply KeepsRes.next) | (assumption) | (apply issueChisel_keeps) | (refine iteRes_keeps ?_ ?_) | (refine ite_keeps ?_ ?_) | split | (intro _) | (dsimp only))) | (apply Keeps.rest; with_reducible (first | (apply KeepsRes.next) | (assumption) | (apply issueChisel_keeps) | (refine iteRes_keeps ?_ ?_))))

theorem execCtbl_keeps {a₀ : State} {c : Core} {w : Bits} {s : State} (hk : Keeps a₀ s) : KeepsRes a₀ (execCtbl c w s) := by
  unfold execCtbl
  repeat' (first | (with_reducible (first | (apply KeepsRes.next) | (assumption) | (apply issueChisel_keeps) | (refine iteRes_keeps ?_ ?_) | (refine ite_keeps ?_ ?_) | split | (intro _) | (dsimp only))) | (apply Keeps.rest; with_reducible (first | (apply KeepsRes.next) | (assumption) | (apply issueChisel_keeps) | (refine iteRes_keeps ?_ ?_))))

theorem execChiselAccept_keeps {a₀ : State} {c : Core} {s : State} (hk : Keeps a₀ s) : KeepsRes a₀ (execChiselAccept c s) := by
  unfold execChiselAccept
  repeat' (first | (with_reducible (first | (apply KeepsRes.next) | (assumption) | (apply setCore_keeps) | (refine iteRes_keeps ?_ ?_) | (refine ite_keeps ?_ ?_) | split | (intro _) | (dsimp only))) | (apply Keeps.rest; with_reducible (first | (apply KeepsRes.next) | (assumption) | (apply setCore_keeps) | (refine iteRes_keeps ?_ ?_))))

theorem execChnFirstBeat_keeps {a₀ : State} {c : Core} {s : State} (hk : Keeps a₀ s) : KeepsRes a₀ (execChnFirstBeat c s) := by
  unfold execChnFirstBeat
  repeat' (first | (with_reducible (first | (apply KeepsRes.next) | (apply racedView_keeps) | (refine racedView_keeps_of (by assumption) ?_) | (assumption) | (apply setCore_keeps) | (refine iteRes_keeps ?_ ?_) | (refine ite_keeps ?_ ?_) | split | (intro _) | (dsimp only))) | (apply Keeps.rest; with_reducible (first | (apply KeepsRes.next) | (refine racedView_keeps_of (by assumption) ?_) | (assumption) | (apply setCore_keeps) | (refine iteRes_keeps ?_ ?_))))

theorem execChnComplete_keeps {a₀ : State} {c : Core} {s : State} (hk : Keeps a₀ s) : KeepsRes a₀ (execChnComplete c s) := by
  unfold execChnComplete
  repeat' (first | (with_reducible (first | (apply KeepsRes.next) | (assumption) | (apply completeChisel_keeps) | (refine iteRes_keeps ?_ ?_) | (refine ite_keeps ?_ ?_) | split | (intro _) | (dsimp only))) | (apply Keeps.rest; with_reducible (first | (apply KeepsRes.next) | (assumption) | (apply completeChisel_keeps) | (refine iteRes_keeps ?_ ?_))))

theorem execCfoldFirstRow_keeps {a₀ : State} {c : Core} {s : State} (hk : Keeps a₀ s) : KeepsRes a₀ (execCfoldFirstRow c s) := by
  unfold execCfoldFirstRow
  repeat' (first | (with_reducible (first | (apply KeepsRes.next) | (apply racedView_keeps) | (refine racedView_keeps_of (by assumption) ?_) | (assumption) | (apply setCore_keeps) | (refine iteRes_keeps ?_ ?_) | (refine ite_keeps ?_ ?_) | split | (intro _) | (dsimp only))) | (apply Keeps.rest; with_reducible (first | (apply KeepsRes.next) | (refine racedView_keeps_of (by assumption) ?_) | (assumption) | (apply setCore_keeps) | (refine iteRes_keeps ?_ ?_))))

theorem execCfoldComplete_keeps {a₀ : State} {c : Core} {s : State} (hk : Keeps a₀ s) : KeepsRes a₀ (execCfoldComplete c s) := by
  unfold execCfoldComplete
  repeat' (first | (with_reducible (first | (apply KeepsRes.next) | (assumption) | (apply completeChisel_keeps) | (refine iteRes_keeps ?_ ?_) | (refine ite_keeps ?_ ?_) | split | (intro _) | (dsimp only))) | (apply Keeps.rest; with_reducible (first | (apply KeepsRes.next) | (assumption) | (apply completeChisel_keeps) | (refine iteRes_keeps ?_ ?_))))

theorem execCtblComplete_keeps {a₀ : State} {c : Core} {s : State} (hk : Keeps a₀ s) : KeepsRes a₀ (execCtblComplete c s) := by
  unfold execCtblComplete
  repeat' (first | (with_reducible (first | (apply KeepsRes.next) | (apply racedView_keeps) | (refine racedView_keeps_of (by assumption) ?_) | (assumption) | (apply retireIfDue_keeps) | (apply setCore_keeps) | (refine iteRes_keeps ?_ ?_) | (refine ite_keeps ?_ ?_) | split | (intro _) | (dsimp only))) | (apply Keeps.rest; with_reducible (first | (apply KeepsRes.next) | (refine racedView_keeps_of (by assumption) ?_) | (assumption) | (apply retireIfDue_keeps) | (apply setCore_keeps) | (refine iteRes_keeps ?_ ?_))))

theorem execChsDirectGo_keeps {a₀ : State} {c : Core} {v : BitVec 32} {s : State} (hk : Keeps a₀ s) : KeepsRes a₀ (execChsDirectGo c v s) := by
  unfold execChsDirectGo
  repeat' (first | (with_reducible (first | (apply KeepsRes.next) | (assumption) | (apply modCore_keeps) | (refine iteRes_keeps ?_ ?_) | (refine ite_keeps ?_ ?_) | split | (intro _) | (dsimp only))) | (apply Keeps.rest; with_reducible (first | (apply KeepsRes.next) | (assumption) | (apply modCore_keeps) | (refine iteRes_keeps ?_ ?_))))

theorem execRdcr_keeps {a₀ : State} {c : Core} {w : Bits} {s : State} (hk : Keeps a₀ s) : KeepsRes a₀ (execRdcr c w s) := by
  unfold execRdcr
  repeat' (first | (with_reducible (first | (apply KeepsRes.next) | (assumption) | (apply issueCore_keeps) | (refine iteRes_keeps ?_ ?_) | (refine ite_keeps ?_ ?_) | split | (intro _) | (dsimp only))) | (apply Keeps.rest; with_reducible (first | (apply KeepsRes.next) | (assumption) | (apply issueCore_keeps) | (refine iteRes_keeps ?_ ?_))))

theorem execWrcr_keeps {a₀ : State} {c : Core} {w : Bits} {s : State} (hk : Keeps a₀ s) : KeepsRes a₀ (execWrcr c w s) := by
  unfold execWrcr
  repeat' (first | (with_reducible (first | (apply KeepsRes.next) | (assumption) | (apply issueCore_keeps) | (refine iteRes_keeps ?_ ?_) | (refine ite_keeps ?_ ?_) | split | (intro _) | (dsimp only))) | (apply Keeps.rest; with_reducible (first | (apply KeepsRes.next) | (assumption) | (apply issueCore_keeps) | (refine iteRes_keeps ?_ ?_))))

theorem execCoreCommit_keeps {a₀ : State} {c : Core} {v : BitVec 32} {s : State} (hk : Keeps a₀ s) : KeepsRes a₀ (execCoreCommit c v s) := by
  unfold execCoreCommit
  repeat' (first | (with_reducible (first | (apply KeepsRes.next) | (assumption) | (apply modCore_keeps) | (refine iteRes_keeps ?_ ?_) | (refine ite_keeps ?_ ?_) | split | (intro _) | (dsimp only))) | (apply Keeps.rest; with_reducible (first | (apply KeepsRes.next) | (assumption) | (apply modCore_keeps) | (refine iteRes_keeps ?_ ?_))))

theorem execCommitApply_keeps {a₀ : State} {c : Core} {s : State} (hk : Keeps a₀ s) : KeepsRes a₀ (execCommitApply c s) := by
  unfold execCommitApply
  repeat' (first | (with_reducible (first | (apply KeepsRes.next) | (assumption) | (apply setCore_keeps) | (refine iteRes_keeps ?_ ?_) | (refine ite_keeps ?_ ?_) | split | (intro _) | (dsimp only))) | (apply Keeps.rest; with_reducible (first | (apply KeepsRes.next) | (assumption) | (apply setCore_keeps) | (refine iteRes_keeps ?_ ?_))))

theorem execEcodeClr_keeps {a₀ : State} {c : Core} {u : Fin 9} {s : State} (hk : Keeps a₀ s) : KeepsRes a₀ (execEcodeClr c u s) := by
  unfold execEcodeClr
  repeat' (first | (with_reducible (first | (apply KeepsRes.next) | (assumption) | (apply modCore_keeps) | (refine iteRes_keeps ?_ ?_) | (refine ite_keeps ?_ ?_) | split | (intro _) | (dsimp only))) | (apply Keeps.rest; with_reducible (first | (apply KeepsRes.next) | (assumption) | (apply modCore_keeps) | (refine iteRes_keeps ?_ ?_))))

theorem execVclr_keeps {a₀ : State} {c : Core} {s : State} (hk : Keeps a₀ s) : KeepsRes a₀ (execVclr c s) := by
  unfold execVclr
  repeat' (first | (with_reducible (first | (apply KeepsRes.next) | (assumption) | (apply modCore_keeps) | (refine iteRes_keeps ?_ ?_) | (refine ite_keeps ?_ ?_) | split | (intro _) | (dsimp only))) | (apply Keeps.rest; with_reducible (first | (apply KeepsRes.next) | (assumption) | (apply modCore_keeps) | (refine iteRes_keeps ?_ ?_))))

theorem execNodeStart_keeps {a₀ : State} {c : Core} {s : State} (hk : Keeps a₀ s) : KeepsRes a₀ (execNodeStart c s) := by
  unfold execNodeStart
  repeat' (first | (with_reducible (first | (apply KeepsRes.next) | (assumption) | (apply setGang_keeps) | (refine forEach_keeps ?_ ?_) | (apply startRank_keeps) | (refine iteRes_keeps ?_ ?_) | (refine ite_keeps ?_ ?_) | split | (intro _) | (dsimp only))) | (apply Keeps.rest; with_reducible (first | (apply KeepsRes.next) | (assumption) | (apply setGang_keeps) | (refine forEach_keeps ?_ ?_) | (apply startRank_keeps) | (refine iteRes_keeps ?_ ?_))))

theorem execEnd_keeps {a₀ : State} {c : Core} {w : Bits} {s : State} (hk : Keeps a₀ s) : KeepsRes a₀ (execEnd c w s) := by
  unfold execEnd
  repeat' (first | (with_reducible (first | (apply KeepsRes.next) | (assumption) | (apply issueCore_keeps) | (refine iteRes_keeps ?_ ?_) | (refine ite_keeps ?_ ?_) | split | (intro _) | (dsimp only))) | (apply Keeps.rest; with_reducible (first | (apply KeepsRes.next) | (assumption) | (apply issueCore_keeps) | (refine iteRes_keeps ?_ ?_))))

theorem execNodeEnd_keeps {a₀ : State} {c : Core} {s : State} (hk : Keeps a₀ s) : KeepsRes a₀ (execNodeEnd c s) := by
  unfold execNodeEnd
  repeat' (first | (with_reducible (first | (apply KeepsRes.next) | (assumption) | (apply kernelEnded_keeps) | (apply combFlush_keeps) | (apply setCore_keeps) | (refine iteRes_keeps ?_ ?_) | (refine ite_keeps ?_ ?_) | split | (intro _) | (dsimp only))) | (apply Keeps.rest; with_reducible (first | (apply KeepsRes.next) | (assumption) | (apply kernelEnded_keeps) | (apply combFlush_keeps) | (apply setCore_keeps) | (refine iteRes_keeps ?_ ?_))))

theorem execKernelFaultEnd_keeps {a₀ : State} {c : Core} {s : State} (hk : Keeps a₀ s) : KeepsRes a₀ (execKernelFaultEnd c s) := by
  unfold execKernelFaultEnd
  repeat' (first | (with_reducible (first | (apply KeepsRes.next) | (assumption) | (apply kernelEnded_keeps) | (apply combFlush_keeps) | (apply setCore_keeps) | (refine iteRes_keeps ?_ ?_) | (refine ite_keeps ?_ ?_) | split | (intro _) | (dsimp only))) | (apply Keeps.rest; with_reducible (first | (apply KeepsRes.next) | (assumption) | (apply kernelEnded_keeps) | (apply combFlush_keeps) | (apply setCore_keeps) | (refine iteRes_keeps ?_ ?_))))

theorem execDirectKernelGo_keeps {a₀ : State} {c : Core} {v : BitVec 32} {s : State} (hk : Keeps a₀ s) : KeepsRes a₀ (execDirectKernelGo c v s) := by
  unfold execDirectKernelGo
  repeat' (first | (with_reducible (first | (apply KeepsRes.next) | (assumption) | (apply modCore_keeps) | (refine iteRes_keeps ?_ ?_) | (refine ite_keeps ?_ ?_) | split | (intro _) | (dsimp only))) | (apply Keeps.rest; with_reducible (first | (apply KeepsRes.next) | (assumption) | (apply modCore_keeps) | (refine iteRes_keeps ?_ ?_))))

theorem execAshlarSingleBitError_keeps {a₀ : State} {c : Core} {e : Fin 4} {loc : Fin 10} {s : State} (hk : Keeps a₀ s) : KeepsRes a₀ (execAshlarSingleBitError c e loc s) := by
  unfold execAshlarSingleBitError
  repeat' (first | (with_reducible (first | (apply KeepsRes.next) | (assumption) | (apply countCe_keeps) | (apply modCore_keeps) | (refine iteRes_keeps ?_ ?_) | (refine ite_keeps ?_ ?_) | split | (intro _) | (dsimp only))) | (apply Keeps.rest; with_reducible (first | (apply KeepsRes.next) | (assumption) | (apply countCe_keeps) | (apply modCore_keeps) | (refine iteRes_keeps ?_ ?_))))

theorem execAshlarDoubleBitError_keeps {a₀ : State} {c : Core} {e : Fin 4} {s : State} (hk : Keeps a₀ s) : KeepsRes a₀ (execAshlarDoubleBitError c e s) := by
  unfold execAshlarDoubleBitError
  repeat' (first | (with_reducible (first | (apply KeepsRes.next) | (assumption) | (apply retireCore_keeps) | (apply modCore_keeps) | (refine iteRes_keeps ?_ ?_) | (refine ite_keeps ?_ ?_) | split | (intro _) | (dsimp only))) | (apply Keeps.rest; with_reducible (first | (apply KeepsRes.next) | (assumption) | (apply retireCore_keeps) | (apply modCore_keeps) | (refine iteRes_keeps ?_ ?_))))

theorem execChiselEccError_keeps {a₀ : State} {c : Core} {double : Bool} {loc : Fin 3} {s : State} (hk : Keeps a₀ s) : KeepsRes a₀ (execChiselEccError c double loc s) := by
  unfold execChiselEccError
  repeat' (first | (with_reducible (first | (apply KeepsRes.next) | (assumption) | (apply retireCore_keeps) | (apply countCe_keeps) | (apply modCore_keeps) | (refine iteRes_keeps ?_ ?_) | (refine ite_keeps ?_ ?_) | split | (intro _) | (dsimp only))) | (apply Keeps.rest; with_reducible (first | (apply KeepsRes.next) | (assumption) | (apply retireCore_keeps) | (apply countCe_keeps) | (apply modCore_keeps) | (refine iteRes_keeps ?_ ?_))))

theorem execSpadEccError_keeps {a₀ : State} {c : Core} {double : Bool} {bank : Fin 64} {s : State} (hk : Keeps a₀ s) : KeepsRes a₀ (execSpadEccError c double bank s) := by
  unfold execSpadEccError
  repeat' (first | (with_reducible (first | (apply KeepsRes.next) | (assumption) | (apply retireCore_keeps) | (apply countCe_keeps) | (apply modCore_keeps) | (refine iteRes_keeps ?_ ?_) | (refine ite_keeps ?_ ?_) | split | (intro _) | (dsimp only))) | (apply Keeps.rest; with_reducible (first | (apply KeepsRes.next) | (assumption) | (apply retireCore_keeps) | (apply countCe_keeps) | (apply modCore_keeps) | (refine iteRes_keeps ?_ ?_))))

end Sys2Proof.Machine
end

