-- ==== Sys2Proof/Laws/KeepsExecKeystone.lean ====
section
/-!
SUPPORT. The commands of Keystone, reset and debug leave the clock and the waiting commands alone and keep the canonical form.
-/

namespace Sys2Proof.Machine

theorem execMbGo_keeps {a₀ : State} {m : Mb} {v : BitVec 64} {s : State} (hk : Keeps a₀ s) : KeepsRes a₀ (execMbGo m v s) := by
  unfold execMbGo
  repeat' (first | (with_reducible (first | (apply KeepsRes.next) | (assumption) | (apply setMbox_keeps) | (refine iteRes_keeps ?_ ?_) | (refine ite_keeps ?_ ?_) | split | (intro _) | (dsimp only))) | (apply Keeps.rest; with_reducible (first | (apply KeepsRes.next) | (assumption) | (apply setMbox_keeps) | (refine iteRes_keeps ?_ ?_))))

theorem execMbRasRptrWrite_keeps {a₀ : State} {m : Mb} {v : BitVec 16} {s : State} (hk : Keeps a₀ s) : KeepsRes a₀ (execMbRasRptrWrite m v s) := by
  unfold execMbRasRptrWrite
  repeat' (first | (with_reducible (first | (apply KeepsRes.next) | (assumption) | (apply setMbox_keeps) | (refine iteRes_keeps ?_ ?_) | (refine ite_keeps ?_ ?_) | split | (intro _) | (dsimp only))) | (apply Keeps.rest; with_reducible (first | (apply KeepsRes.next) | (assumption) | (apply setMbox_keeps) | (refine iteRes_keeps ?_ ?_))))

theorem execArbitrationSlot_keeps {a₀ : State} {s : State} (hk : Keeps a₀ s) : KeepsRes a₀ (execArbitrationSlot s) := by
  unfold execArbitrationSlot
  repeat' (first | (with_reducible (first | (apply KeepsRes.next) | (assumption) | (apply settleBatch_keeps) | (refine forEach_keeps ?_ ?_) | (apply takeOrder_keeps) | (refine iteRes_keeps ?_ ?_) | (refine ite_keeps ?_ ?_) | split | (intro _) | (dsimp only))) | (apply Keeps.rest; with_reducible (first | (apply KeepsRes.next) | (assumption) | (apply settleBatch_keeps) | (refine forEach_keeps ?_ ?_) | (apply takeOrder_keeps) | (refine iteRes_keeps ?_ ?_))))

theorem execMgmtAccess_keeps {a₀ : State} {k : SpanPkt} {s : State} (hk : Keeps a₀ s) : KeepsRes a₀ (execMgmtAccess k s) := by
  unfold execMgmtAccess
  repeat' (first | (with_reducible (first | (apply KeepsRes.next) | (assumption) | (apply takeDelivered_keeps) | (apply respond_keeps) | (apply setMbox_keeps) | (refine iteRes_keeps ?_ ?_) | (refine ite_keeps ?_ ?_) | split | (intro _) | (dsimp only))) | (apply Keeps.rest; with_reducible (first | (apply KeepsRes.next) | (assumption) | (apply takeDelivered_keeps) | (apply respond_keeps) | (apply setMbox_keeps) | (refine iteRes_keeps ?_ ?_))))

theorem execStoreUpdateDone_keeps {a₀ : State} {ok : Bool} {s : State} (hk : Keeps a₀ s) : KeepsRes a₀ (execStoreUpdateDone ok s) := by
  unfold execStoreUpdateDone
  repeat' (first | (with_reducible (first | (apply KeepsRes.next) | (assumption) | (apply withStore_keeps) | (apply journalWritten_keeps) | (apply ras_keeps) | (apply orderOfUpdate_keeps) | (apply withKey_keeps) | (apply orderStored_keeps) | (refine iteRes_keeps ?_ ?_) | (refine ite_keeps ?_ ?_) | split | (intro _) | (dsimp only))) | (apply Keeps.rest; with_reducible (first | (apply KeepsRes.next) | (assumption) | (apply withStore_keeps) | (apply journalWritten_keeps) | (apply ras_keeps) | (apply orderOfUpdate_keeps) | (apply withKey_keeps) | (apply orderStored_keeps) | (refine iteRes_keeps ?_ ?_))))

theorem execSysInfo_keeps {a₀ : State} {s : State} (hk : Keeps a₀ s) : KeepsRes a₀ (execSysInfo s) := by
  unfold execSysInfo
  repeat' (first | (with_reducible (first | (apply KeepsRes.next) | (assumption) | (refine runOrder_keeps ?_ ?_) | (apply ranRead_keeps) | (refine iteRes_keeps ?_ ?_) | (refine ite_keeps ?_ ?_) | split | (intro _) | (dsimp only))) | (apply Keeps.rest; with_reducible (first | (apply KeepsRes.next) | (assumption) | (refine runOrder_keeps ?_ ?_) | (apply ranRead_keeps) | (refine iteRes_keeps ?_ ?_))))

theorem execSysCause_keeps {a₀ : State} {s : State} (hk : Keeps a₀ s) : KeepsRes a₀ (execSysCause s) := by
  unfold execSysCause
  repeat' (first | (with_reducible (first | (apply KeepsRes.next) | (assumption) | (apply withRst_keeps) | (refine runOrder_keeps ?_ ?_) | (refine iteRes_keeps ?_ ?_) | (refine ite_keeps ?_ ?_) | split | (intro _) | (dsimp only))) | (apply Keeps.rest; with_reducible (first | (apply KeepsRes.next) | (assumption) | (apply withRst_keeps) | (refine runOrder_keeps ?_ ?_) | (refine iteRes_keeps ?_ ?_))))

theorem execSysReset_keeps {a₀ : State} {s : State} (hk : Keeps a₀ s) : KeepsRes a₀ (execSysReset s) := by
  unfold execSysReset
  repeat' (first | (with_reducible (first | (apply KeepsRes.next) | (assumption) | (refine runOrder_keeps ?_ ?_) | (apply ranOk_keeps) | (refine iteRes_keeps ?_ ?_) | (refine ite_keeps ?_ ?_) | split | (intro _) | (dsimp only))) | (apply Keeps.rest; with_reducible (first | (apply KeepsRes.next) | (assumption) | (refine runOrder_keeps ?_ ?_) | (apply ranOk_keeps) | (refine iteRes_keeps ?_ ?_))))

theorem execSysOffline_keeps {a₀ : State} {s : State} (hk : Keeps a₀ s) : KeepsRes a₀ (execSysOffline s) := by
  unfold execSysOffline
  repeat' (first | (with_reducible (first | (apply KeepsRes.next) | (assumption) | (apply beginStop_keeps) | (apply withKey_keeps) | (refine runOrder_keeps ?_ ?_) | (apply ranOk_keeps) | (refine iteRes_keeps ?_ ?_) | (refine ite_keeps ?_ ?_) | split | (intro _) | (dsimp only))) | (apply Keeps.rest; with_reducible (first | (apply KeepsRes.next) | (assumption) | (apply beginStop_keeps) | (apply withKey_keeps) | (refine runOrder_keeps ?_ ?_) | (apply ranOk_keeps) | (refine iteRes_keeps ?_ ?_))))

theorem execPackageStop_keeps {a₀ : State} {s : State} (hk : Keeps a₀ s) : KeepsRes a₀ (execPackageStop s) := by
  unfold execPackageStop
  repeat' (first | (with_reducible (first | (apply KeepsRes.next) | (assumption) | (apply guilty_keeps) | (apply withKey_keeps) | (refine forEach_keeps ?_ ?_) | (refine iteRes_keeps ?_ ?_) | (refine ite_keeps ?_ ?_) | split | (intro _) | (dsimp only))) | (apply Keeps.rest; with_reducible (first | (apply KeepsRes.next) | (assumption) | (apply guilty_keeps) | (apply withKey_keeps) | (refine forEach_keeps ?_ ?_) | (refine iteRes_keeps ?_ ?_))))

theorem execSysDrv_keeps {a₀ : State} {s : State} (hk : Keeps a₀ s) : KeepsRes a₀ (execSysDrv s) := by
  unfold execSysDrv
  repeat' (first | (with_reducible (first | (apply KeepsRes.next) | (assumption) | (refine runOrder_keeps ?_ ?_) | (apply endPersist_keeps) | (refine iteRes_keeps ?_ ?_) | (refine ite_keeps ?_ ?_) | split | (intro _) | (dsimp only))) | (apply Keeps.rest; with_reducible (first | (apply KeepsRes.next) | (assumption) | (refine runOrder_keeps ?_ ?_) | (apply endPersist_keeps) | (refine iteRes_keeps ?_ ?_))))

theorem execSysM3_keeps {a₀ : State} {s : State} (hk : Keeps a₀ s) : KeepsRes a₀ (execSysM3 s) := by
  unfold execSysM3
  repeat' (first | (with_reducible (first | (apply KeepsRes.next) | (assumption) | (apply withKey_keeps) | (refine runOrder_keeps ?_ ?_) | (apply endPersist_keeps) | (refine iteRes_keeps ?_ ?_) | (refine ite_keeps ?_ ?_) | split | (intro _) | (dsimp only))) | (apply Keeps.rest; with_reducible (first | (apply KeepsRes.next) | (assumption) | (apply withKey_keeps) | (refine runOrder_keeps ?_ ?_) | (apply endPersist_keeps) | (refine iteRes_keeps ?_ ?_))))

theorem execSysSetread_keeps {a₀ : State} {s : State} (hk : Keeps a₀ s) : KeepsRes a₀ (execSysSetread s) := by
  unfold execSysSetread
  repeat' (first | (with_reducible (first | (apply KeepsRes.next) | (assumption) | (refine runOrder_keeps ?_ ?_) | (apply ranRead_keeps) | (refine iteRes_keeps ?_ ?_) | (refine ite_keeps ?_ ?_) | split | (intro _) | (dsimp only))) | (apply Keeps.rest; with_reducible (first | (apply KeepsRes.next) | (assumption) | (refine runOrder_keeps ?_ ?_) | (apply ranRead_keeps) | (refine iteRes_keeps ?_ ?_))))

theorem execPwrCap_keeps {a₀ : State} {s : State} (hk : Keeps a₀ s) : KeepsRes a₀ (execPwrCap s) := by
  unfold execPwrCap
  repeat' (first | (with_reducible (first | (apply KeepsRes.next) | (assumption) | (apply withPower_keeps) | (refine runOrder_keeps ?_ ?_) | (apply endPersist_keeps) | (refine iteRes_keeps ?_ ?_) | (refine ite_keeps ?_ ?_) | split | (intro _) | (dsimp only))) | (apply Keeps.rest; with_reducible (first | (apply KeepsRes.next) | (assumption) | (apply withPower_keeps) | (refine runOrder_keeps ?_ ?_) | (apply endPersist_keeps) | (refine iteRes_keeps ?_ ?_))))

theorem execPwrFreq_keeps {a₀ : State} {s : State} (hk : Keeps a₀ s) : KeepsRes a₀ (execPwrFreq s) := by
  unfold execPwrFreq
  repeat' (first | (with_reducible (first | (apply KeepsRes.next) | (assumption) | (apply withPower_keeps) | (refine runOrder_keeps ?_ ?_) | (apply endPersist_keeps) | (refine iteRes_keeps ?_ ?_) | (refine ite_keeps ?_ ?_) | split | (intro _) | (dsimp only))) | (apply Keeps.rest; with_reducible (first | (apply KeepsRes.next) | (assumption) | (apply withPower_keeps) | (refine runOrder_keeps ?_ ?_) | (apply endPersist_keeps) | (refine iteRes_keeps ?_ ?_))))

theorem execPwrDomain_keeps {a₀ : State} {s : State} (hk : Keeps a₀ s) : KeepsRes a₀ (execPwrDomain s) := by
  unfold execPwrDomain
  repeat' (first | (with_reducible (first | (apply KeepsRes.next) | (assumption) | (apply domTarget_keeps) | (refine runOrder_keeps ?_ ?_) | (apply ranOk_keeps) | (refine iteRes_keeps ?_ ?_) | (refine ite_keeps ?_ ?_) | split | (intro _) | (dsimp only))) | (apply Keeps.rest; with_reducible (first | (apply KeepsRes.next) | (assumption) | (apply domTarget_keeps) | (refine runOrder_keeps ?_ ?_) | (apply ranOk_keeps) | (refine iteRes_keeps ?_ ?_))))

theorem execPwrStatus_keeps {a₀ : State} {s : State} (hk : Keeps a₀ s) : KeepsRes a₀ (execPwrStatus s) := by
  unfold execPwrStatus
  repeat' (first | (with_reducible (first | (apply KeepsRes.next) | (assumption) | (refine runOrder_keeps ?_ ?_) | (apply ranRead_keeps) | (refine iteRes_keeps ?_ ?_) | (refine ite_keeps ?_ ?_) | split | (intro _) | (dsimp only))) | (apply Keeps.rest; with_reducible (first | (apply KeepsRes.next) | (assumption) | (refine runOrder_keeps ?_ ?_) | (apply ranRead_keeps) | (refine iteRes_keeps ?_ ?_))))

theorem execThmCoolant_keeps {a₀ : State} {s : State} (hk : Keeps a₀ s) : KeepsRes a₀ (execThmCoolant s) := by
  unfold execThmCoolant
  repeat' (first | (with_reducible (first | (apply KeepsRes.next) | (assumption) | (apply withPower_keeps) | (refine runOrder_keeps ?_ ?_) | (apply ranOk_keeps) | (refine iteRes_keeps ?_ ?_) | (refine ite_keeps ?_ ?_) | split | (intro _) | (dsimp only))) | (apply Keeps.rest; with_reducible (first | (apply KeepsRes.next) | (assumption) | (apply withPower_keeps) | (refine runOrder_keeps ?_ ?_) | (apply ranOk_keeps) | (refine iteRes_keeps ?_ ?_))))

theorem execThmStatus_keeps {a₀ : State} {s : State} (hk : Keeps a₀ s) : KeepsRes a₀ (execThmStatus s) := by
  unfold execThmStatus
  repeat' (first | (with_reducible (first | (apply KeepsRes.next) | (assumption) | (refine runOrder_keeps ?_ ?_) | (apply ranRead_keeps) | (refine iteRes_keeps ?_ ?_) | (refine ite_keeps ?_ ?_) | split | (intro _) | (dsimp only))) | (apply Keeps.rest; with_reducible (first | (apply KeepsRes.next) | (assumption) | (refine runOrder_keeps ?_ ?_) | (apply ranRead_keeps) | (refine iteRes_keeps ?_ ?_))))

theorem execMemIntlv_keeps {a₀ : State} {s : State} (hk : Keeps a₀ s) : KeepsRes a₀ (execMemIntlv s) := by
  unfold execMemIntlv
  repeat' (first | (with_reducible (first | (apply KeepsRes.next) | (assumption) | (refine runOrder_keeps ?_ ?_) | (apply endPersist_keeps) | (refine iteRes_keeps ?_ ?_) | (refine ite_keeps ?_ ?_) | split | (intro _) | (dsimp only))) | (apply Keeps.rest; with_reducible (first | (apply KeepsRes.next) | (assumption) | (refine runOrder_keeps ?_ ?_) | (apply endPersist_keeps) | (refine iteRes_keeps ?_ ?_))))

theorem execMemQkind_keeps {a₀ : State} {s : State} (hk : Keeps a₀ s) : KeepsRes a₀ (execMemQkind s) := by
  unfold execMemQkind
  repeat' (first | (with_reducible (first | (apply KeepsRes.next) | (assumption) | (apply domTarget_keeps) | (apply modTower_keeps) | (refine runOrder_keeps ?_ ?_) | (apply endPersist_keeps) | (refine iteRes_keeps ?_ ?_) | (refine ite_keeps ?_ ?_) | split | (intro _) | (dsimp only))) | (apply Keeps.rest; with_reducible (first | (apply KeepsRes.next) | (assumption) | (apply domTarget_keeps) | (apply modTower_keeps) | (refine runOrder_keeps ?_ ?_) | (apply endPersist_keeps) | (refine iteRes_keeps ?_ ?_))))

theorem execMemStatus_keeps {a₀ : State} {s : State} (hk : Keeps a₀ s) : KeepsRes a₀ (execMemStatus s) := by
  unfold execMemStatus
  repeat' (first | (with_reducible (first | (apply KeepsRes.next) | (assumption) | (refine runOrder_keeps ?_ ?_) | (apply ranRead_keeps) | (refine iteRes_keeps ?_ ?_) | (refine ite_keeps ?_ ?_) | split | (intro _) | (dsimp only))) | (apply Keeps.rest; with_reducible (first | (apply KeepsRes.next) | (assumption) | (refine runOrder_keeps ?_ ?_) | (apply ranRead_keeps) | (refine iteRes_keeps ?_ ?_))))

theorem execSpanId_keeps {a₀ : State} {s : State} (hk : Keeps a₀ s) : KeepsRes a₀ (execSpanId s) := by
  unfold execSpanId
  repeat' (first | (with_reducible (first | (apply KeepsRes.next) | (assumption) | (apply spanIdSet_keeps) | (refine runOrder_keeps ?_ ?_) | (apply endPersist_keeps) | (refine iteRes_keeps ?_ ?_) | (refine ite_keeps ?_ ?_) | split | (intro _) | (dsimp only))) | (apply Keeps.rest; with_reducible (first | (apply KeepsRes.next) | (assumption) | (apply spanIdSet_keeps) | (refine runOrder_keeps ?_ ?_) | (apply endPersist_keeps) | (refine iteRes_keeps ?_ ?_))))

theorem execSpanPorts_keeps {a₀ : State} {s : State} (hk : Keeps a₀ s) : KeepsRes a₀ (execSpanPorts s) := by
  unfold execSpanPorts
  repeat' (first | (with_reducible (first | (apply KeepsRes.next) | (assumption) | (apply modPort_keeps) | (apply spanCommitAll_keeps) | (refine forEach_keeps ?_ ?_) | (refine runOrder_keeps ?_ ?_) | (apply endPersist_keeps) | (refine foldl_keeps ?_ ?_) | (refine iteRes_keeps ?_ ?_) | (refine ite_keeps ?_ ?_) | split | (intro _) | (dsimp only))) | (apply Keeps.rest; with_reducible (first | (apply KeepsRes.next) | (assumption) | (apply modPort_keeps) | (apply spanCommitAll_keeps) | (refine forEach_keeps ?_ ?_) | (refine runOrder_keeps ?_ ?_) | (apply endPersist_keeps) | (refine foldl_keeps ?_ ?_) | (refine iteRes_keeps ?_ ?_))))

theorem execSpanPlumb_keeps {a₀ : State} {s : State} (hk : Keeps a₀ s) : KeepsRes a₀ (execSpanPlumb s) := by
  unfold execSpanPlumb
  repeat' (first | (with_reducible (first | (apply KeepsRes.next) | (assumption) | (apply spanCommitAll_keeps) | (apply withPlumb_keeps) | (refine runOrder_keeps ?_ ?_) | (apply endPersist_keeps) | (refine iteRes_keeps ?_ ?_) | (refine ite_keeps ?_ ?_) | split | (intro _) | (dsimp only))) | (apply Keeps.rest; with_reducible (first | (apply KeepsRes.next) | (assumption) | (apply spanCommitAll_keeps) | (apply withPlumb_keeps) | (refine runOrder_keeps ?_ ?_) | (apply endPersist_keeps) | (refine iteRes_keeps ?_ ?_))))

theorem execSpanPortclr_keeps {a₀ : State} {s : State} (hk : Keeps a₀ s) : KeepsRes a₀ (execSpanPortclr s) := by
  unfold execSpanPortclr
  repeat' (first | (with_reducible (first | (apply KeepsRes.next) | (assumption) | (apply withStore_keeps) | (apply recUnits_keeps) | (refine runOrder_keeps ?_ ?_) | (apply endStored_keeps) | (refine foldl_keeps ?_ ?_) | (refine iteRes_keeps ?_ ?_) | (refine ite_keeps ?_ ?_) | split | (intro _) | (dsimp only))) | (apply Keeps.rest; with_reducible (first | (apply KeepsRes.next) | (assumption) | (apply withStore_keeps) | (apply recUnits_keeps) | (refine runOrder_keeps ?_ ?_) | (apply endStored_keeps) | (refine foldl_keeps ?_ ?_) | (refine iteRes_keeps ?_ ?_))))

theorem execSpanSend_keeps {a₀ : State} {s : State} (hk : Keeps a₀ s) : KeepsRes a₀ (execSpanSend s) := by
  unfold execSpanSend
  repeat' (first | (with_reducible (first | (apply KeepsRes.next) | (assumption) | (refine runOrder_keeps ?_ ?_) | (apply remoteSend_keeps) | (refine iteRes_keeps ?_ ?_) | (refine ite_keeps ?_ ?_) | split | (intro _) | (dsimp only))) | (apply Keeps.rest; with_reducible (first | (apply KeepsRes.next) | (assumption) | (refine runOrder_keeps ?_ ?_) | (apply remoteSend_keeps) | (refine iteRes_keeps ?_ ?_))))

theorem execSpanRoute_keeps {a₀ : State} {s : State} (hk : Keeps a₀ s) : KeepsRes a₀ (execSpanRoute s) := by
  unfold execSpanRoute
  repeat' (first | (with_reducible (first | (apply KeepsRes.next) | (assumption) | (refine runOrder_keeps ?_ ?_) | (apply withSpan_keeps) | (apply ranOk_keeps) | (refine foldl_keeps ?_ ?_) | (refine iteRes_keeps ?_ ?_) | (refine ite_keeps ?_ ?_) | split | (intro _) | (dsimp only))) | (apply Keeps.rest; with_reducible (first | (apply KeepsRes.next) | (assumption) | (refine runOrder_keeps ?_ ?_) | (apply withSpan_keeps) | (apply ranOk_keeps) | (refine foldl_keeps ?_ ?_) | (refine iteRes_keeps ?_ ?_))))

theorem execSpanSwitch_keeps {a₀ : State} {s : State} (hk : Keeps a₀ s) : KeepsRes a₀ (execSpanSwitch s) := by
  unfold execSpanSwitch
  repeat' (first | (with_reducible (first | (apply KeepsRes.next) | (assumption) | (apply routeGoWrite_keeps) | (refine runOrder_keeps ?_ ?_) | (apply withSpan_keeps) | (apply ranOk_keeps) | (refine iteRes_keeps ?_ ?_) | (refine ite_keeps ?_ ?_) | split | (intro _) | (dsimp only))) | (apply Keeps.rest; with_reducible (first | (apply KeepsRes.next) | (assumption) | (apply routeGoWrite_keeps) | (refine runOrder_keeps ?_ ?_) | (apply withSpan_keeps) | (apply ranOk_keeps) | (refine iteRes_keeps ?_ ?_))))

theorem execSpanCtl_keeps {a₀ : State} {s : State} (hk : Keeps a₀ s) : KeepsRes a₀ (execSpanCtl s) := by
  unfold execSpanCtl
  repeat' (first | (with_reducible (first | (apply KeepsRes.next) | (assumption) | (apply protoSet_keeps) | (apply routeEnSet_keeps) | (refine runOrder_keeps ?_ ?_) | (apply endPersist_keeps) | (refine iteRes_keeps ?_ ?_) | (refine ite_keeps ?_ ?_) | split | (intro _) | (dsimp only))) | (apply Keeps.rest; with_reducible (first | (apply KeepsRes.next) | (assumption) | (apply protoSet_keeps) | (apply routeEnSet_keeps) | (refine runOrder_keeps ?_ ?_) | (apply endPersist_keeps) | (refine iteRes_keeps ?_ ?_))))

theorem execSpanStatus_keeps {a₀ : State} {s : State} (hk : Keeps a₀ s) : KeepsRes a₀ (execSpanStatus s) := by
  unfold execSpanStatus
  repeat' (first | (with_reducible (first | (apply KeepsRes.next) | (assumption) | (refine runOrder_keeps ?_ ?_) | (apply ranRead_keeps) | (refine iteRes_keeps ?_ ?_) | (refine ite_keeps ?_ ?_) | split | (intro _) | (dsimp only))) | (apply Keeps.rest; with_reducible (first | (apply KeepsRes.next) | (assumption) | (refine runOrder_keeps ?_ ?_) | (apply ranRead_keeps) | (refine iteRes_keeps ?_ ?_))))

theorem execCalRead_keeps {a₀ : State} {s : State} (hk : Keeps a₀ s) : KeepsRes a₀ (execCalRead s) := by
  unfold execCalRead
  repeat' (first | (with_reducible (first | (apply KeepsRes.next) | (assumption) | (refine runOrder_keeps ?_ ?_) | (apply ranRead_keeps) | (refine iteRes_keeps ?_ ?_) | (refine ite_keeps ?_ ?_) | split | (intro _) | (dsimp only))) | (apply Keeps.rest; with_reducible (first | (apply KeepsRes.next) | (assumption) | (refine runOrder_keeps ?_ ?_) | (apply ranRead_keeps) | (refine iteRes_keeps ?_ ?_))))

theorem execCalVoff_keeps {a₀ : State} {s : State} (hk : Keeps a₀ s) : KeepsRes a₀ (execCalVoff s) := by
  unfold execCalVoff
  repeat' (first | (with_reducible (first | (apply KeepsRes.next) | (assumption) | (apply storePush_keeps) | (apply moveVcore_keeps) | (apply withKey_keeps) | (refine runOrder_keeps ?_ ?_) | (apply endStored_keeps) | (refine iteRes_keeps ?_ ?_) | (refine ite_keeps ?_ ?_) | split | (intro _) | (dsimp only))) | (apply Keeps.rest; with_reducible (first | (apply KeepsRes.next) | (assumption) | (apply storePush_keeps) | (apply moveVcore_keeps) | (apply withKey_keeps) | (refine runOrder_keeps ?_ ?_) | (apply endStored_keeps) | (refine iteRes_keeps ?_ ?_))))

theorem execCalAsym_keeps {a₀ : State} {s : State} (hk : Keeps a₀ s) : KeepsRes a₀ (execCalAsym s) := by
  unfold execCalAsym
  repeat' (first | (with_reducible (first | (apply KeepsRes.next) | (assumption) | (apply modPort_keeps) | (apply storePush_keeps) | (apply withKey_keeps) | (refine runOrder_keeps ?_ ?_) | (apply endStored_keeps) | (refine iteRes_keeps ?_ ?_) | (refine ite_keeps ?_ ?_) | split | (intro _) | (dsimp only))) | (apply Keeps.rest; with_reducible (first | (apply KeepsRes.next) | (assumption) | (apply modPort_keeps) | (apply storePush_keeps) | (apply withKey_keeps) | (refine runOrder_keeps ?_ ?_) | (apply endStored_keeps) | (refine iteRes_keeps ?_ ?_))))

theorem execCalHbm_keeps {a₀ : State} {s : State} (hk : Keeps a₀ s) : KeepsRes a₀ (execCalHbm s) := by
  unfold execCalHbm
  repeat' (first | (with_reducible (first | (apply KeepsRes.next) | (assumption) | (apply setHbm_keeps) | (apply beginStop_keeps) | (refine forEach_keeps ?_ ?_) | (refine runOrder_keeps ?_ ?_) | (refine iteRes_keeps ?_ ?_) | (refine ite_keeps ?_ ?_) | split | (intro _) | (dsimp only))) | (apply Keeps.rest; with_reducible (first | (apply KeepsRes.next) | (assumption) | (apply setHbm_keeps) | (apply beginStop_keeps) | (refine forEach_keeps ?_ ?_) | (refine runOrder_keeps ?_ ?_) | (refine iteRes_keeps ?_ ?_))))

theorem execCalHbmDone_keeps {a₀ : State} {s : State} (hk : Keeps a₀ s) : KeepsRes a₀ (execCalHbmDone s) := by
  unfold execCalHbmDone
  repeat' (first | (with_reducible (first | (apply KeepsRes.next) | (assumption) | (apply startedDone_keeps) | (refine iteRes_keeps ?_ ?_) | (refine ite_keeps ?_ ?_) | split | (intro _) | (dsimp only))) | (apply Keeps.rest; with_reducible (first | (apply KeepsRes.next) | (assumption) | (apply startedDone_keeps) | (refine iteRes_keeps ?_ ?_))))

theorem execCalClear_keeps {a₀ : State} {s : State} (hk : Keeps a₀ s) : KeepsRes a₀ (execCalClear s) := by
  unfold execCalClear
  repeat' (first | (with_reducible (first | (apply KeepsRes.next) | (assumption) | (apply modPort_keeps) | (apply storePush_keeps) | (apply moveVcore_keeps) | (apply withKey_keeps) | (refine forEach_keeps ?_ ?_) | (refine runOrder_keeps ?_ ?_) | (apply endStored_keeps) | (refine iteRes_keeps ?_ ?_) | (refine ite_keeps ?_ ?_) | split | (intro _) | (dsimp only))) | (apply Keeps.rest; with_reducible (first | (apply KeepsRes.next) | (assumption) | (apply modPort_keeps) | (apply storePush_keeps) | (apply moveVcore_keeps) | (apply withKey_keeps) | (refine forEach_keeps ?_ ?_) | (refine runOrder_keeps ?_ ?_) | (apply endStored_keeps) | (refine iteRes_keeps ?_ ?_))))

theorem execFwWrite_keeps {a₀ : State} {ok : Bool} {s : State} (hk : Keeps a₀ s) : KeepsRes a₀ (execFwWrite ok s) := by
  unfold execFwWrite
  repeat' (first | (with_reducible (first | (apply KeepsRes.next) | (assumption) | (refine runOrder_keeps ?_ ?_) | (apply setSlot_keeps) | (apply ranOk_keeps) | (refine iteRes_keeps ?_ ?_) | (refine ite_keeps ?_ ?_) | split | (intro _) | (dsimp only))) | (apply Keeps.rest; with_reducible (first | (apply KeepsRes.next) | (assumption) | (refine runOrder_keeps ?_ ?_) | (apply setSlot_keeps) | (apply ranOk_keeps) | (refine iteRes_keeps ?_ ?_))))

theorem execFwSeal_keeps {a₀ : State} {digestOk : Bool} {sigOk : Bool} {ok : Bool} {s : State} (hk : Keeps a₀ s) : KeepsRes a₀ (execFwSeal digestOk sigOk ok s) := by
  unfold execFwSeal
  repeat' (first | (with_reducible (first | (apply KeepsRes.next) | (assumption) | (refine runOrder_keeps ?_ ?_) | (apply setSlot_keeps) | (apply ranOk_keeps) | (apply refusedBy_keeps) | (refine iteRes_keeps ?_ ?_) | (refine ite_keeps ?_ ?_) | split | (intro _) | (dsimp only))) | (apply Keeps.rest; with_reducible (first | (apply KeepsRes.next) | (assumption) | (refine runOrder_keeps ?_ ?_) | (apply setSlot_keeps) | (apply ranOk_keeps) | (apply refusedBy_keeps) | (refine iteRes_keeps ?_ ?_))))

theorem execFwActivate_keeps {a₀ : State} {s : State} (hk : Keeps a₀ s) : KeepsRes a₀ (execFwActivate s) := by
  unfold execFwActivate
  repeat' (first | (with_reducible (first | (apply KeepsRes.next) | (assumption) | (apply storePush_keeps) | (refine runOrder_keeps ?_ ?_) | (refine iteRes_keeps ?_ ?_) | (refine ite_keeps ?_ ?_) | split | (intro _) | (dsimp only))) | (apply Keeps.rest; with_reducible (first | (apply KeepsRes.next) | (assumption) | (apply storePush_keeps) | (refine runOrder_keeps ?_ ?_) | (refine iteRes_keeps ?_ ?_))))

theorem execFwHandoverDone_keeps {a₀ : State} {convOk : Bool} {s : State} (hk : Keeps a₀ s) : KeepsRes a₀ (execFwHandoverDone convOk s) := by
  unfold execFwHandoverDone
  repeat' (first | (with_reducible (first | (apply KeepsRes.next) | (assumption) | (apply withRst_keeps) | (apply fallbackJournal_keeps) | (apply ras_keeps) | (apply startedDone_keeps) | (apply withKey_keeps) | (refine iteRes_keeps ?_ ?_) | (refine ite_keeps ?_ ?_) | split | (intro _) | (dsimp only))) | (apply Keeps.rest; with_reducible (first | (apply KeepsRes.next) | (assumption) | (apply withRst_keeps) | (apply fallbackJournal_keeps) | (apply ras_keeps) | (apply startedDone_keeps) | (apply withKey_keeps) | (refine iteRes_keeps ?_ ?_))))

theorem execFwCommit_keeps {a₀ : State} {s : State} (hk : Keeps a₀ s) : KeepsRes a₀ (execFwCommit s) := by
  unfold execFwCommit
  repeat' (first | (with_reducible (first | (apply KeepsRes.next) | (assumption) | (apply storePush_keeps) | (refine runOrder_keeps ?_ ?_) | (refine iteRes_keeps ?_ ?_) | (refine ite_keeps ?_ ?_) | split | (intro _) | (dsimp only))) | (apply Keeps.rest; with_reducible (first | (apply KeepsRes.next) | (assumption) | (apply storePush_keeps) | (refine runOrder_keeps ?_ ?_) | (refine iteRes_keeps ?_ ?_))))

theorem execFwAutoCommit_keeps {a₀ : State} {s : State} (hk : Keeps a₀ s) : KeepsRes a₀ (execFwAutoCommit s) := by
  unfold execFwAutoCommit
  repeat' (first | (with_reducible (first | (apply KeepsRes.next) | (assumption) | (apply storePush_keeps) | (apply withKey_keeps) | (refine iteRes_keeps ?_ ?_) | (refine ite_keeps ?_ ?_) | split | (intro _) | (dsimp only))) | (apply Keeps.rest; with_reducible (first | (apply KeepsRes.next) | (assumption) | (apply storePush_keeps) | (apply withKey_keeps) | (refine iteRes_keeps ?_ ?_))))

theorem execFwStatus_keeps {a₀ : State} {s : State} (hk : Keeps a₀ s) : KeepsRes a₀ (execFwStatus s) := by
  unfold execFwStatus
  repeat' (first | (with_reducible (first | (apply KeepsRes.next) | (assumption) | (refine runOrder_keeps ?_ ?_) | (apply ranRead_keeps) | (refine iteRes_keeps ?_ ?_) | (refine ite_keeps ?_ ?_) | split | (intro _) | (dsimp only))) | (apply Keeps.rest; with_reducible (first | (apply KeepsRes.next) | (assumption) | (refine runOrder_keeps ?_ ?_) | (apply ranRead_keeps) | (refine iteRes_keeps ?_ ?_))))

theorem execRasRead_keeps {a₀ : State} {s : State} (hk : Keeps a₀ s) : KeepsRes a₀ (execRasRead s) := by
  unfold execRasRead
  repeat' (first | (with_reducible (first | (apply KeepsRes.next) | (assumption) | (refine runOrder_keeps ?_ ?_) | (apply ranRead_keeps) | (refine iteRes_keeps ?_ ?_) | (refine ite_keeps ?_ ?_) | split | (intro _) | (dsimp only))) | (apply Keeps.rest; with_reducible (first | (apply KeepsRes.next) | (assumption) | (refine runOrder_keeps ?_ ?_) | (apply ranRead_keeps) | (refine iteRes_keeps ?_ ?_))))

theorem execRasRetire_keeps {a₀ : State} {s : State} (hk : Keeps a₀ s) : KeepsRes a₀ (execRasRetire s) := by
  unfold execRasRetire
  repeat' (first | (with_reducible (first | (apply KeepsRes.next) | (assumption) | (apply retireUnit_keeps) | (refine runOrder_keeps ?_ ?_) | (apply endStored_keeps) | (refine iteRes_keeps ?_ ?_) | (refine ite_keeps ?_ ?_) | split | (intro _) | (dsimp only))) | (apply Keeps.rest; with_reducible (first | (apply KeepsRes.next) | (assumption) | (apply retireUnit_keeps) | (refine runOrder_keeps ?_ ?_) | (apply endStored_keeps) | (refine iteRes_keeps ?_ ?_))))

theorem execRasClear_keeps {a₀ : State} {s : State} (hk : Keeps a₀ s) : KeepsRes a₀ (execRasClear s) := by
  unfold execRasClear
  repeat' (first | (with_reducible (first | (apply KeepsRes.next) | (assumption) | (apply withStore_keeps) | (apply recUnits_keeps) | (refine runOrder_keeps ?_ ?_) | (apply refusedBy_keeps) | (apply endStored_keeps) | (refine iteRes_keeps ?_ ?_) | (refine ite_keeps ?_ ?_) | split | (intro _) | (dsimp only))) | (apply Keeps.rest; with_reducible (first | (apply KeepsRes.next) | (assumption) | (apply withStore_keeps) | (apply recUnits_keeps) | (refine runOrder_keeps ?_ ?_) | (apply refusedBy_keeps) | (apply endStored_keeps) | (refine iteRes_keeps ?_ ?_))))

theorem execTestCfg_keeps {a₀ : State} {s : State} (hk : Keeps a₀ s) : KeepsRes a₀ (execTestCfg s) := by
  unfold execTestCfg
  repeat' (first | (with_reducible (first | (apply KeepsRes.next) | (assumption) | (apply withKey_keeps) | (refine runOrder_keeps ?_ ?_) | (apply endPersist_keeps) | (refine iteRes_keeps ?_ ?_) | (refine ite_keeps ?_ ?_) | split | (intro _) | (dsimp only))) | (apply Keeps.rest; with_reducible (first | (apply KeepsRes.next) | (assumption) | (apply withKey_keeps) | (refine runOrder_keeps ?_ ?_) | (apply endPersist_keeps) | (refine iteRes_keeps ?_ ?_))))

theorem execTestRun_keeps {a₀ : State} {s : State} (hk : Keeps a₀ s) : KeepsRes a₀ (execTestRun s) := by
  unfold execTestRun
  repeat' (first | (with_reducible (first | (apply KeepsRes.next) | (assumption) | (apply beginStop_keeps) | (apply takeTest_keeps) | (apply withKey_keeps) | (refine runOrder_keeps ?_ ?_) | (apply refusedBy_keeps) | (refine iteRes_keeps ?_ ?_) | (refine ite_keeps ?_ ?_) | split | (intro _) | (dsimp only))) | (apply Keeps.rest; with_reducible (first | (apply KeepsRes.next) | (assumption) | (apply beginStop_keeps) | (apply takeTest_keeps) | (apply withKey_keeps) | (refine runOrder_keeps ?_ ?_) | (apply refusedBy_keeps) | (refine iteRes_keeps ?_ ?_))))

theorem execTestStatus_keeps {a₀ : State} {s : State} (hk : Keeps a₀ s) : KeepsRes a₀ (execTestStatus s) := by
  unfold execTestStatus
  repeat' (first | (with_reducible (first | (apply KeepsRes.next) | (assumption) | (refine runOrder_keeps ?_ ?_) | (apply ranRead_keeps) | (refine iteRes_keeps ?_ ?_) | (refine ite_keeps ?_ ?_) | split | (intro _) | (dsimp only))) | (apply Keeps.rest; with_reducible (first | (apply KeepsRes.next) | (assumption) | (refine runOrder_keeps ?_ ?_) | (apply ranRead_keeps) | (refine iteRes_keeps ?_ ?_))))

theorem execSelfTestRotation_keeps {a₀ : State} {s : State} (hk : Keeps a₀ s) : KeepsRes a₀ (execSelfTestRotation s) := by
  unfold execSelfTestRotation
  repeat' (first | (with_reducible (first | (apply KeepsRes.next) | (assumption) | (apply takeTest_keeps) | (apply withKey_keeps) | (refine iteRes_keeps ?_ ?_) | (refine ite_keeps ?_ ?_) | split | (intro _) | (dsimp only))) | (apply Keeps.rest; with_reducible (first | (apply KeepsRes.next) | (assumption) | (apply takeTest_keeps) | (apply withKey_keeps) | (refine iteRes_keeps ?_ ?_))))

theorem execSelfTestDone_keeps {a₀ : State} {pass : Bool} {s : State} (hk : Keeps a₀ s) : KeepsRes a₀ (execSelfTestDone pass s) := by
  unfold execSelfTestDone
  repeat' (first | (with_reducible (first | (apply KeepsRes.next) | (assumption) | (apply startedDone_keeps) | (apply takeTest_keeps) | (apply withKey_keeps) | (refine forEach_keeps ?_ ?_) | (apply unitTested_keeps) | (refine iteRes_keeps ?_ ?_) | (refine ite_keeps ?_ ?_) | split | (intro _) | (dsimp only))) | (apply Keeps.rest; with_reducible (first | (apply KeepsRes.next) | (assumption) | (apply startedDone_keeps) | (apply takeTest_keeps) | (apply withKey_keeps) | (refine forEach_keeps ?_ ?_) | (apply unitTested_keeps) | (refine iteRes_keeps ?_ ?_))))

theorem execModSet_keeps {a₀ : State} {s : State} (hk : Keeps a₀ s) : KeepsRes a₀ (execModSet s) := by
  unfold execModSet
  repeat' (first | (with_reducible (first | (apply KeepsRes.next) | (assumption) | (apply modIlimSet_keeps) | (apply modEnSet_keeps) | (refine runOrder_keeps ?_ ?_) | (apply endPersist_keeps) | (refine iteRes_keeps ?_ ?_) | (refine ite_keeps ?_ ?_) | split | (intro _) | (dsimp only))) | (apply Keeps.rest; with_reducible (first | (apply KeepsRes.next) | (assumption) | (apply modIlimSet_keeps) | (apply modEnSet_keeps) | (refine runOrder_keeps ?_ ?_) | (apply endPersist_keeps) | (refine iteRes_keeps ?_ ?_))))

theorem execModClr_keeps {a₀ : State} {s : State} (hk : Keeps a₀ s) : KeepsRes a₀ (execModClr s) := by
  unfold execModClr
  repeat' (first | (with_reducible (first | (apply KeepsRes.next) | (assumption) | (apply modClear_keeps) | (refine runOrder_keeps ?_ ?_) | (apply endStored_keeps) | (refine iteRes_keeps ?_ ?_) | (refine ite_keeps ?_ ?_) | split | (intro _) | (dsimp only))) | (apply Keeps.rest; with_reducible (first | (apply KeepsRes.next) | (assumption) | (apply modClear_keeps) | (refine runOrder_keeps ?_ ?_) | (apply endStored_keeps) | (refine iteRes_keeps ?_ ?_))))

theorem execModStatus_keeps {a₀ : State} {s : State} (hk : Keeps a₀ s) : KeepsRes a₀ (execModStatus s) := by
  unfold execModStatus
  repeat' (first | (with_reducible (first | (apply KeepsRes.next) | (assumption) | (refine runOrder_keeps ?_ ?_) | (apply ranRead_keeps) | (refine iteRes_keeps ?_ ?_) | (refine ite_keeps ?_ ?_) | split | (intro _) | (dsimp only))) | (apply Keeps.rest; with_reducible (first | (apply KeepsRes.next) | (assumption) | (refine runOrder_keeps ?_ ?_) | (apply ranRead_keeps) | (refine iteRes_keeps ?_ ?_))))

theorem execPowerOnReset_keeps {a₀ : State} {s : State} (hk : Keeps a₀ s) : KeepsRes a₀ (execPowerOnReset s) := by
  unfold execPowerOnReset
  repeat' (first | (with_reducible (first | (apply KeepsRes.next) | (assumption) | (apply withStore_keeps) | (apply inReset_keeps) | (apply withRst_keeps) | (refine iteRes_keeps ?_ ?_) | (refine ite_keeps ?_ ?_) | split | (intro _) | (dsimp only))) | (apply Keeps.rest; with_reducible (first | (apply KeepsRes.next) | (assumption) | (apply withStore_keeps) | (apply inReset_keeps) | (apply withRst_keeps) | (refine iteRes_keeps ?_ ?_))))

theorem execPowerLoss_keeps {a₀ : State} {s : State} (hk : Keeps a₀ s) : KeepsRes a₀ (execPowerLoss s) := by
  unfold execPowerLoss
  repeat' (first | (with_reducible (first | (apply KeepsRes.next) | (assumption) | (apply withStore_keeps) | (apply inReset_keeps) | (apply withRst_keeps) | (apply vcoreLost_keeps) | (refine iteRes_keeps ?_ ?_) | (refine ite_keeps ?_ ?_) | split | (intro _) | (dsimp only))) | (apply Keeps.rest; with_reducible (first | (apply KeepsRes.next) | (assumption) | (apply withStore_keeps) | (apply inReset_keeps) | (apply withRst_keeps) | (apply vcoreLost_keeps) | (refine iteRes_keeps ?_ ?_))))

theorem execBrownOutReset_keeps {a₀ : State} {rail : Fin 14} {s : State} (hk : Keeps a₀ s) : KeepsRes a₀ (execBrownOutReset rail s) := by
  unfold execBrownOutReset
  repeat' (first | (with_reducible (first | (apply KeepsRes.next) | (assumption) | (apply source_keeps) | (refine iteRes_keeps ?_ ?_) | (refine ite_keeps ?_ ?_) | split | (intro _) | (dsimp only))) | (apply Keeps.rest; with_reducible (first | (apply KeepsRes.next) | (assumption) | (apply source_keeps) | (refine iteRes_keeps ?_ ?_))))

theorem execPinReset_keeps {a₀ : State} {s : State} (hk : Keeps a₀ s) : KeepsRes a₀ (execPinReset s) := by
  unfold execPinReset
  repeat' (first | (with_reducible (first | (apply KeepsRes.next) | (assumption) | (apply source_keeps) | (apply withPins_keeps) | (refine iteRes_keeps ?_ ?_) | (refine ite_keeps ?_ ?_) | split | (intro _) | (dsimp only))) | (apply Keeps.rest; with_reducible (first | (apply KeepsRes.next) | (assumption) | (apply source_keeps) | (apply withPins_keeps) | (refine iteRes_keeps ?_ ?_))))

theorem execWatchdogReset_keeps {a₀ : State} {s : State} (hk : Keeps a₀ s) : KeepsRes a₀ (execWatchdogReset s) := by
  unfold execWatchdogReset
  repeat' (first | (with_reducible (first | (apply KeepsRes.next) | (assumption) | (apply source_keeps) | (refine iteRes_keeps ?_ ?_) | (refine ite_keeps ?_ ?_) | split | (intro _) | (dsimp only))) | (apply Keeps.rest; with_reducible (first | (apply KeepsRes.next) | (assumption) | (apply source_keeps) | (refine iteRes_keeps ?_ ?_))))

theorem execSoftwareReset_keeps {a₀ : State} {s : State} (hk : Keeps a₀ s) : KeepsRes a₀ (execSoftwareReset s) := by
  unfold execSoftwareReset
  repeat' (first | (with_reducible (first | (apply KeepsRes.next) | (assumption) | (apply source_keeps) | (refine iteRes_keeps ?_ ?_) | (refine ite_keeps ?_ ?_) | split | (intro _) | (dsimp only))) | (apply Keeps.rest; with_reducible (first | (apply KeepsRes.next) | (assumption) | (apply source_keeps) | (refine iteRes_keeps ?_ ?_))))

theorem execDebugReset_keeps {a₀ : State} {s : State} (hk : Keeps a₀ s) : KeepsRes a₀ (execDebugReset s) := by
  unfold execDebugReset
  repeat' (first | (with_reducible (first | (apply KeepsRes.next) | (assumption) | (apply source_keeps) | (refine iteRes_keeps ?_ ?_) | (refine ite_keeps ?_ ?_) | split | (intro _) | (dsimp only))) | (apply Keeps.rest; with_reducible (first | (apply KeepsRes.next) | (assumption) | (apply source_keeps) | (refine iteRes_keeps ?_ ?_))))

theorem execRefclkFailureReset_keeps {a₀ : State} {s : State} (hk : Keeps a₀ s) : KeepsRes a₀ (execRefclkFailureReset s) := by
  unfold execRefclkFailureReset
  repeat' (first | (with_reducible (first | (apply KeepsRes.next) | (assumption) | (apply source_keeps) | (refine iteRes_keeps ?_ ?_) | (refine ite_keeps ?_ ?_) | split | (intro _) | (dsimp only))) | (apply Keeps.rest; with_reducible (first | (apply KeepsRes.next) | (assumption) | (apply source_keeps) | (refine iteRes_keeps ?_ ?_))))

theorem execKeystoneLockupReset_keeps {a₀ : State} {stall : Bool} {s : State} (hk : Keeps a₀ s) : KeepsRes a₀ (execKeystoneLockupReset stall s) := by
  unfold execKeystoneLockupReset
  repeat' (first | (with_reducible (first | (apply KeepsRes.next) | (assumption) | (apply source_keeps) | (refine iteRes_keeps ?_ ?_) | (refine ite_keeps ?_ ?_) | split | (intro _) | (dsimp only))) | (apply Keeps.rest; with_reducible (first | (apply KeepsRes.next) | (assumption) | (apply source_keeps) | (refine iteRes_keeps ?_ ?_))))

theorem execResetSourceEnd_keeps {a₀ : State} {src : Fin 8} {s : State} (hk : Keeps a₀ s) : KeepsRes a₀ (execResetSourceEnd src s) := by
  unfold execResetSourceEnd
  repeat' (first | (with_reducible (first | (apply KeepsRes.next) | (assumption) | (apply withRst_keeps) | (apply withPins_keeps) | (refine iteRes_keeps ?_ ?_) | (refine ite_keeps ?_ ?_) | split | (intro _) | (dsimp only))) | (apply Keeps.rest; with_reducible (first | (apply KeepsRes.next) | (assumption) | (apply withRst_keeps) | (apply withPins_keeps) | (refine iteRes_keeps ?_ ?_))))

theorem execResetReleaseStep_keeps {a₀ : State} {b : BootRead} {s : State} (hk : Keeps a₀ s) : KeepsRes a₀ (execResetReleaseStep b s) := by
  unfold execResetReleaseStep
  repeat' (first | (with_reducible (first | (apply KeepsRes.next) | (assumption) | (apply withRst_keeps) | (apply stepFive_keeps) | (apply stepFour_keeps) | (apply stepTwo_keeps) | (apply stepOne_keeps) | (apply stepEight_keeps) | (apply stepSeven_keeps) | (apply stepThree_keeps) | (refine iteRes_keeps ?_ ?_) | (refine ite_keeps ?_ ?_) | split | (intro _) | (dsimp only))) | (apply Keeps.rest; with_reducible (first | (apply KeepsRes.next) | (assumption) | (apply withRst_keeps) | (apply stepFive_keeps) | (apply stepFour_keeps) | (apply stepTwo_keeps) | (apply stepOne_keeps) | (apply stepEight_keeps) | (apply stepSeven_keeps) | (apply stepThree_keeps) | (refine iteRes_keeps ?_ ?_))))

theorem execMemoryStepsDone_keeps {a₀ : State} {failed : List HCh} {repaired : List (HCh × ℕ)} {s : State} (hk : Keeps a₀ s) : KeepsRes a₀ (execMemoryStepsDone failed repaired s) := by
  unfold execMemoryStepsDone
  repeat' (first | (with_reducible (first | (apply KeepsRes.next) | (assumption) | (apply withRst_keeps) | (apply cleared_keeps) | (apply rejoin_keeps) | (apply loadRemaps_keeps) | (apply spillRetired_keeps) | (apply memcfgCount_keeps) | (refine forEach_keeps ?_ ?_) | (apply failTraining_keeps) | (refine iteRes_keeps ?_ ?_) | (refine ite_keeps ?_ ?_) | split | (intro _) | (dsimp only))) | (apply Keeps.rest; with_reducible (first | (apply KeepsRes.next) | (assumption) | (apply withRst_keeps) | (apply cleared_keeps) | (apply rejoin_keeps) | (apply loadRemaps_keeps) | (apply spillRetired_keeps) | (apply memcfgCount_keeps) | (refine forEach_keeps ?_ ?_) | (apply failTraining_keeps) | (refine iteRes_keeps ?_ ?_))))

theorem execStartupDone_keeps {a₀ : State} {s : State} (hk : Keeps a₀ s) : KeepsRes a₀ (execStartupDone s) := by
  unfold execStartupDone
  repeat' (first | (with_reducible (first | (apply KeepsRes.next) | (assumption) | (apply withRst_keeps) | (apply ras_keeps) | (apply withKey_keeps) | (refine forEach_keeps ?_ ?_) | (refine iteRes_keeps ?_ ?_) | (refine ite_keeps ?_ ?_) | split | (intro _) | (dsimp only))) | (apply Keeps.rest; with_reducible (first | (apply KeepsRes.next) | (assumption) | (apply withRst_keeps) | (apply ras_keeps) | (apply withKey_keeps) | (refine forEach_keeps ?_ ?_) | (refine iteRes_keeps ?_ ?_))))

theorem execDynamicAddressAssignment_keeps {a₀ : State} {a : BitVec 7} {s : State} (hk : Keeps a₀ s) : KeepsRes a₀ (execDynamicAddressAssignment a s) := by
  unfold execDynamicAddressAssignment
  repeat' (first | (with_reducible (first | (apply KeepsRes.next) | (assumption) | (apply withPins_keeps) | (refine iteRes_keeps ?_ ?_) | (refine ite_keeps ?_ ?_) | split | (intro _) | (dsimp only))) | (apply Keeps.rest; with_reducible (first | (apply KeepsRes.next) | (assumption) | (apply withPins_keeps) | (refine iteRes_keeps ?_ ?_))))

theorem execI3cPrivateWrite_keeps {a₀ : State} {data : List Byte} {s : State} (hk : Keeps a₀ s) : KeepsRes a₀ (execI3cPrivateWrite data s) := by
  unfold execI3cPrivateWrite
  repeat' (first | (with_reducible (first | (apply KeepsRes.next) | (assumption) | (apply ibiTaken_keeps) | (apply withPins_keeps) | (apply setMbox_keeps) | (refine iteRes_keeps ?_ ?_) | (refine ite_keeps ?_ ?_) | split | (intro _) | (dsimp only))) | (apply Keeps.rest; with_reducible (first | (apply KeepsRes.next) | (assumption) | (apply ibiTaken_keeps) | (apply withPins_keeps) | (apply setMbox_keeps) | (refine iteRes_keeps ?_ ?_))))

theorem execI3cPrivateRead_keeps {a₀ : State} {n : ℕ} {s : State} (hk : Keeps a₀ s) : KeepsRes a₀ (execI3cPrivateRead n s) := by
  unfold execI3cPrivateRead
  repeat' (first | (with_reducible (first | (apply KeepsRes.next) | (assumption) | (apply withPins_keeps) | (refine iteRes_keeps ?_ ?_) | (refine ite_keeps ?_ ?_) | split | (intro _) | (dsimp only))) | (apply Keeps.rest; with_reducible (first | (apply KeepsRes.next) | (assumption) | (apply withPins_keeps) | (refine iteRes_keeps ?_ ?_))))

theorem execIdcode_keeps {a₀ : State} {s : State} (hk : Keeps a₀ s) : KeepsRes a₀ (execIdcode s) := by
  unfold execIdcode
  repeat' (first | (with_reducible (first | (apply KeepsRes.next) | (assumption) | (apply jtagLoad_keeps) | (refine iteRes_keeps ?_ ?_) | (refine ite_keeps ?_ ?_) | split | (intro _) | (dsimp only))) | (apply Keeps.rest; with_reducible (first | (apply KeepsRes.next) | (assumption) | (apply jtagLoad_keeps) | (refine iteRes_keeps ?_ ?_))))

theorem execBypass_keeps {a₀ : State} {s : State} (hk : Keeps a₀ s) : KeepsRes a₀ (execBypass s) := by
  unfold execBypass
  repeat' (first | (with_reducible (first | (apply KeepsRes.next) | (assumption) | (apply jtagLoad_keeps) | (refine iteRes_keeps ?_ ?_) | (refine ite_keeps ?_ ?_) | split | (intro _) | (dsimp only))) | (apply Keeps.rest; with_reducible (first | (apply KeepsRes.next) | (assumption) | (apply jtagLoad_keeps) | (refine iteRes_keeps ?_ ?_))))

theorem execSample_keeps {a₀ : State} {s : State} (hk : Keeps a₀ s) : KeepsRes a₀ (execSample s) := by
  unfold execSample
  repeat' (first | (with_reducible (first | (apply KeepsRes.next) | (assumption) | (apply jtagLoad_keeps) | (apply freshBits_keeps) | (refine freshBits_keeps_of (by assumption) ?_) | (refine iteRes_keeps ?_ ?_) | (refine ite_keeps ?_ ?_) | split | (intro _) | (dsimp only))) | (apply Keeps.rest; with_reducible (first | (apply KeepsRes.next) | (assumption) | (apply jtagLoad_keeps) | (apply freshBits_keeps) | (refine freshBits_keeps_of (by assumption) ?_) | (refine iteRes_keeps ?_ ?_))))

theorem execExtest_keeps {a₀ : State} {pads : List (ℕ × Bool)} {s : State} (hk : Keeps a₀ s) : KeepsRes a₀ (execExtest pads s) := by
  unfold execExtest
  repeat' (first | (with_reducible (first | (apply KeepsRes.next) | (assumption) | (apply withPins_keeps) | (refine iteRes_keeps ?_ ?_) | (refine ite_keeps ?_ ?_) | split | (intro _) | (dsimp only))) | (apply Keeps.rest; with_reducible (first | (apply KeepsRes.next) | (assumption) | (apply withPins_keeps) | (refine iteRes_keeps ?_ ?_))))

theorem execDbgHalt_keeps {a₀ : State} {s : State} (hk : Keeps a₀ s) : KeepsRes a₀ (execDbgHalt s) := by
  unfold execDbgHalt
  repeat' (first | (with_reducible (first | (apply KeepsRes.next) | (assumption) | (apply withKey_keeps) | (refine iteRes_keeps ?_ ?_) | (refine ite_keeps ?_ ?_) | split | (intro _) | (dsimp only))) | (apply Keeps.rest; with_reducible (first | (apply KeepsRes.next) | (assumption) | (apply withKey_keeps) | (refine iteRes_keeps ?_ ?_))))

theorem execDbgEnFall_keeps {a₀ : State} {s : State} (hk : Keeps a₀ s) : KeepsRes a₀ (execDbgEnFall s) := by
  unfold execDbgEnFall
  repeat' (first | (with_reducible (first | (apply KeepsRes.next) | (assumption) | (apply withPins_keeps) | (apply withKey_keeps) | (refine iteRes_keeps ?_ ?_) | (refine ite_keeps ?_ ?_) | split | (intro _) | (dsimp only))) | (apply Keeps.rest; with_reducible (first | (apply KeepsRes.next) | (assumption) | (apply withPins_keeps) | (apply withKey_keeps) | (refine iteRes_keeps ?_ ?_))))

theorem execDbgEnRise_keeps {a₀ : State} {s : State} (hk : Keeps a₀ s) : KeepsRes a₀ (execDbgEnRise s) := by
  unfold execDbgEnRise
  repeat' (first | (with_reducible (first | (apply KeepsRes.next) | (assumption) | (apply withPins_keeps) | (refine iteRes_keeps ?_ ?_) | (refine ite_keeps ?_ ?_) | split | (intro _) | (dsimp only))) | (apply Keeps.rest; with_reducible (first | (apply KeepsRes.next) | (assumption) | (apply withPins_keeps) | (refine iteRes_keeps ?_ ?_))))

end Sys2Proof.Machine
end

