-- ==== Sys2Proof/Laws/KeepsExecQueues.lean ====
section
/-!
SUPPORT. The commands of queues, packets, pools, scheduling and translation leave the clock and the waiting commands alone and keep the canonical form.
-/

namespace Sys2Proof.Machine

theorem execQdbPush_keeps {a₀ : State} {q : QId} {v : BitVec 32} {s : State} (hk : Keeps a₀ s) : KeepsRes a₀ (execQdbPush q v s) := by
  unfold execQdbPush
  repeat' (first | (with_reducible (first | (apply KeepsRes.next) | (assumption) | (apply setQueue_keeps) | (refine iteRes_keeps ?_ ?_) | (refine ite_keeps ?_ ?_) | split | (intro _) | (dsimp only))) | (apply Keeps.rest; with_reducible (first | (apply KeepsRes.next) | (assumption) | (apply setQueue_keeps) | (refine iteRes_keeps ?_ ?_))))

theorem execQctlWrite_keeps {a₀ : State} {q : QId} {view : View} {v : BitVec 32} {s : State} (hk : Keeps a₀ s) : KeepsRes a₀ (execQctlWrite q view v s) := by
  unfold execQctlWrite
  repeat' (first | (with_reducible (first | (apply KeepsRes.next) | (assumption) | (apply modQueue_keeps) | (refine iteRes_keeps ?_ ?_) | (refine ite_keeps ?_ ?_) | split | (intro _) | (dsimp only))) | (apply Keeps.rest; with_reducible (first | (apply KeepsRes.next) | (assumption) | (apply modQueue_keeps) | (refine iteRes_keeps ?_ ?_))))

theorem execGclr_keeps {a₀ : State} {q : QId} {s : State} (hk : Keeps a₀ s) : KeepsRes a₀ (execGclr q s) := by
  unfold execGclr
  repeat' (first | (with_reducible (first | (apply KeepsRes.next) | (assumption) | (apply modQueue_keeps) | (refine iteRes_keeps ?_ ?_) | (refine ite_keeps ?_ ?_) | split | (intro _) | (dsimp only))) | (apply Keeps.rest; with_reducible (first | (apply KeepsRes.next) | (assumption) | (apply modQueue_keeps) | (refine iteRes_keeps ?_ ?_))))

theorem execCevctlWrite_keeps {a₀ : State} {x : CtxId} {view : View} {v : BitVec 32} {s : State} (hk : Keeps a₀ s) : KeepsRes a₀ (execCevctlWrite x view v s) := by
  unfold execCevctlWrite
  repeat' (first | (with_reducible (first | (apply KeepsRes.next) | (assumption) | (apply modCtx_keeps) | (refine iteRes_keeps ?_ ?_) | (refine ite_keeps ?_ ?_) | split | (intro _) | (dsimp only))) | (apply Keeps.rest; with_reducible (first | (apply KeepsRes.next) | (assumption) | (apply modCtx_keeps) | (refine iteRes_keeps ?_ ?_))))

theorem execCevptrWrite_keeps {a₀ : State} {x : CtxId} {view : View} {v : BitVec 32} {s : State} (hk : Keeps a₀ s) : KeepsRes a₀ (execCevptrWrite x view v s) := by
  unfold execCevptrWrite
  repeat' (first | (with_reducible (first | (apply KeepsRes.next) | (assumption) | (apply modCtx_keeps) | (refine iteRes_keeps ?_ ?_) | (refine ite_keeps ?_ ?_) | split | (intro _) | (dsimp only))) | (apply Keeps.rest; with_reducible (first | (apply KeepsRes.next) | (assumption) | (apply modCtx_keeps) | (refine iteRes_keeps ?_ ?_))))

theorem execQueuePop_keeps {a₀ : State} {r : Reply} {s : State} (hk : Keeps a₀ s) : KeepsRes a₀ (execQueuePop r s) := by
  unfold execQueuePop
  repeat' (first | (with_reducible (first | (apply KeepsRes.next) | (assumption) | (apply hubRead_keeps) | (refine hubRead_keeps_of (by assumption) ?_) | (apply popped_keeps) | (apply launchProbe_keeps) | (refine launchProbe_keeps_of (by assumption) ?_) | (refine iteRes_keeps ?_ ?_) | (refine ite_keeps ?_ ?_) | split | (intro _) | (dsimp only))) | (apply Keeps.rest; with_reducible (first | (apply KeepsRes.next) | (assumption) | (apply hubRead_keeps) | (refine hubRead_keeps_of (by assumption) ?_) | (apply popped_keeps) | (apply launchProbe_keeps) | (refine launchProbe_keeps_of (by assumption) ?_) | (refine iteRes_keeps ?_ ?_))))

theorem execEntryStart_keeps {a₀ : State} {q : QId} {r : Reply} {s : State} (hk : Keeps a₀ s) : KeepsRes a₀ (execEntryStart q r s) := by
  unfold execEntryStart
  repeat' (first | (with_reducible (first | (apply KeepsRes.next) | (assumption) | (apply hubRead_keeps) | (refine hubRead_keeps_of (by assumption) ?_) | (apply modQueue_keeps) | (apply guilty_keeps) | (apply startNode_keeps) | (apply hubWrite_keeps) | (refine hubWrite_keeps_of (by assumption) ?_) | (refine iteRes_keeps ?_ ?_) | (refine ite_keeps ?_ ?_) | split | (intro _) | (dsimp only))) | (apply Keeps.rest; with_reducible (first | (apply KeepsRes.next) | (assumption) | (apply hubRead_keeps) | (refine hubRead_keeps_of (by assumption) ?_) | (apply modQueue_keeps) | (apply guilty_keeps) | (apply startNode_keeps) | (apply hubWrite_keeps) | (refine hubWrite_keeps_of (by assumption) ?_) | (refine iteRes_keeps ?_ ?_))))

theorem execNodeReady_keeps {a₀ : State} {q : QId} {node : ℕ} {s : State} (hk : Keeps a₀ s) : KeepsRes a₀ (execNodeReady q node s) := by
  unfold execNodeReady
  repeat' (first | (with_reducible (first | (apply KeepsRes.next) | (assumption) | (apply startNode_keeps) | (refine iteRes_keeps ?_ ?_) | (refine ite_keeps ?_ ?_) | split | (intro _) | (dsimp only))) | (apply Keeps.rest; with_reducible (first | (apply KeepsRes.next) | (assumption) | (apply startNode_keeps) | (refine iteRes_keeps ?_ ?_))))

theorem execEntryComplete_keeps {a₀ : State} {q : QId} {s : State} (hk : Keeps a₀ s) : KeepsRes a₀ (execEntryComplete q s) := by
  unfold execEntryComplete
  repeat' (first | (with_reducible (first | (apply KeepsRes.next) | (assumption) | (apply flushPass_keeps) | (apply hubProbe_keeps) | (refine hubProbe_keeps_of (by assumption) ?_) | (apply unpin_keeps) | (refine unpin_keeps_of (by assumption) ?_) | (apply freedEvent_keeps) | (apply modQueue_keeps) | (apply completeSteps_keeps) | (refine iteRes_keeps ?_ ?_) | (refine ite_keeps ?_ ?_) | split | (intro _) | (dsimp only))) | (apply Keeps.rest; with_reducible (first | (apply KeepsRes.next) | (assumption) | (apply flushPass_keeps) | (apply hubProbe_keeps) | (refine hubProbe_keeps_of (by assumption) ?_) | (apply unpin_keeps) | (refine unpin_keeps_of (by assumption) ?_) | (apply freedEvent_keeps) | (apply modQueue_keeps) | (apply completeSteps_keeps) | (refine iteRes_keeps ?_ ?_))))

theorem execHangDetect_keeps {a₀ : State} {q : QId} {s : State} (hk : Keeps a₀ s) : KeepsRes a₀ (execHangDetect q s) := by
  unfold execHangDetect
  repeat' (first | (with_reducible (first | (apply KeepsRes.next) | (assumption) | (apply guilty_keeps) | (refine iteRes_keeps ?_ ?_) | (refine ite_keeps ?_ ?_) | split | (intro _) | (dsimp only))) | (apply Keeps.rest; with_reducible (first | (apply KeepsRes.next) | (assumption) | (apply guilty_keeps) | (refine iteRes_keeps ?_ ?_))))

theorem execQueueResetFinish_keeps {a₀ : State} {q : QId} {s : State} (hk : Keeps a₀ s) : KeepsRes a₀ (execQueueResetFinish q s) := by
  unfold execQueueResetFinish
  repeat' (first | (with_reducible (first | (apply KeepsRes.next) | (assumption) | (apply setQueue_keeps) | (apply flushPass_keeps) | (apply hubProbe_keeps) | (refine hubProbe_keeps_of (by assumption) ?_) | (apply unpin_keeps) | (refine unpin_keeps_of (by assumption) ?_) | (apply freedEvent_keeps) | (apply modQueue_keeps) | (apply event_keeps) | (apply completeSteps_keeps) | (refine iteRes_keeps ?_ ?_) | (refine ite_keeps ?_ ?_) | split | (intro _) | (dsimp only))) | (apply Keeps.rest; with_reducible (first | (apply KeepsRes.next) | (assumption) | (apply setQueue_keeps) | (apply flushPass_keeps) | (apply hubProbe_keeps) | (refine hubProbe_keeps_of (by assumption) ?_) | (apply unpin_keeps) | (refine unpin_keeps_of (by assumption) ?_) | (apply freedEvent_keeps) | (apply modQueue_keeps) | (apply event_keeps) | (apply completeSteps_keeps) | (refine iteRes_keeps ?_ ?_))))

theorem execPacketIssue_keeps {a₀ : State} {q : QId} {node : ℕ} {r : Reply} {s : State} (hk : Keeps a₀ s) : KeepsRes a₀ (execPacketIssue q node r s) := by
  unfold execPacketIssue
  repeat' (first | (with_reducible (first | (apply KeepsRes.next) | (assumption) | (apply headPkt_keeps) | (apply readPkt_keeps) | (refine readPkt_keeps_of (by assumption) ?_) | (apply entryFault_keeps) | (refine iteRes_keeps ?_ ?_) | (refine ite_keeps ?_ ?_) | split | (intro _) | (dsimp only))) | (apply Keeps.rest; with_reducible (first | (apply KeepsRes.next) | (assumption) | (apply headPkt_keeps) | (apply readPkt_keeps) | (refine readPkt_keeps_of (by assumption) ?_) | (apply entryFault_keeps) | (refine iteRes_keeps ?_ ?_))))

theorem execPacketComplete_keeps {a₀ : State} {q : QId} {node : ℕ} {off : ℕ} {s : State} (hk : Keeps a₀ s) : KeepsRes a₀ (execPacketComplete q node off s) := by
  unfold execPacketComplete
  repeat' (first | (with_reducible (first | (apply KeepsRes.next) | (assumption) | (apply pktEnd_keeps) | (apply flushPass_keeps) | (refine iteRes_keeps ?_ ?_) | (refine ite_keeps ?_ ?_) | split | (intro _) | (dsimp only))) | (apply Keeps.rest; with_reducible (first | (apply KeepsRes.next) | (assumption) | (apply pktEnd_keeps) | (apply flushPass_keeps) | (refine iteRes_keeps ?_ ?_))))

theorem execPacketNop_keeps {a₀ : State} {q : QId} {node : ℕ} {off : ℕ} {s : State} (hk : Keeps a₀ s) : KeepsRes a₀ (execPacketNop q node off s) := by
  unfold execPacketNop
  repeat' (first | (with_reducible (first | (apply KeepsRes.next) | (assumption) | (apply pktEnd_keeps) | (refine onIssued_keeps ?_ ?_) | (refine iteRes_keeps ?_ ?_) | (refine ite_keeps ?_ ?_) | split | (intro _) | (dsimp only))) | (apply Keeps.rest; with_reducible (first | (apply KeepsRes.next) | (assumption) | (apply pktEnd_keeps) | (refine onIssued_keeps ?_ ?_) | (refine iteRes_keeps ?_ ?_))))

theorem execDispatch_keeps {a₀ : State} {q : QId} {node : ℕ} {off : ℕ} {s : State} (hk : Keeps a₀ s) : KeepsRes a₀ (execDispatch q node off s) := by
  unfold execDispatch
  repeat' (first | (with_reducible (first | (apply KeepsRes.next) | (assumption) | (apply modPkt_keeps) | (apply addGang_keeps) | (refine onIssued_keeps ?_ ?_) | (refine iteRes_keeps ?_ ?_) | (refine ite_keeps ?_ ?_) | split | (intro _) | (dsimp only))) | (apply Keeps.rest; with_reducible (first | (apply KeepsRes.next) | (assumption) | (apply modPkt_keeps) | (apply addGang_keeps) | (refine onIssued_keeps ?_ ?_) | (refine iteRes_keeps ?_ ?_))))

theorem execWrite_keeps {a₀ : State} {q : QId} {node : ℕ} {off : ℕ} {r : Reply} {s : State} (hk : Keeps a₀ s) : KeepsRes a₀ (execWrite q node off r s) := by
  unfold execWrite
  repeat' (first | (with_reducible (first | (apply KeepsRes.next) | (assumption) | (apply performed_keeps) | (apply hubWrite_keeps) | (refine hubWrite_keeps_of (by assumption) ?_) | (refine onIssued_keeps ?_ ?_) | (refine iteRes_keeps ?_ ?_) | (refine ite_keeps ?_ ?_) | split | (intro _) | (dsimp only))) | (apply Keeps.rest; with_reducible (first | (apply KeepsRes.next) | (assumption) | (apply performed_keeps) | (apply hubWrite_keeps) | (refine hubWrite_keeps_of (by assumption) ?_) | (refine onIssued_keeps ?_ ?_) | (refine iteRes_keeps ?_ ?_))))

theorem execSignal_keeps {a₀ : State} {q : QId} {node : ℕ} {off : ℕ} {r : Reply} {s : State} (hk : Keeps a₀ s) : KeepsRes a₀ (execSignal q node off r s) := by
  unfold execSignal
  repeat' (first | (with_reducible (first | (apply KeepsRes.next) | (assumption) | (apply performed_keeps) | (apply hubAtomic_keeps) | (refine hubAtomic_keeps_of (by assumption) ?_) | (refine onIssued_keeps ?_ ?_) | (refine iteRes_keeps ?_ ?_) | (refine ite_keeps ?_ ?_) | split | (intro _) | (dsimp only))) | (apply Keeps.rest; with_reducible (first | (apply KeepsRes.next) | (assumption) | (apply performed_keeps) | (apply hubAtomic_keeps) | (refine hubAtomic_keeps_of (by assumption) ?_) | (refine onIssued_keeps ?_ ?_) | (refine iteRes_keeps ?_ ?_))))

theorem execWaitmem_keeps {a₀ : State} {q : QId} {node : ℕ} {off : ℕ} {_r : Reply} {s : State} (hk : Keeps a₀ s) : KeepsRes a₀ (execWaitmem q node off _r s) := by
  unfold execWaitmem
  repeat' (first | (with_reducible (first | (apply KeepsRes.next) | (assumption) | (apply modPkt_keeps) | (refine onIssued_keeps ?_ ?_) | (refine iteRes_keeps ?_ ?_) | (refine ite_keeps ?_ ?_) | split | (intro _) | (dsimp only))) | (apply Keeps.rest; with_reducible (first | (apply KeepsRes.next) | (assumption) | (apply modPkt_keeps) | (refine onIssued_keeps ?_ ?_) | (refine iteRes_keeps ?_ ?_))))

theorem execWaitmemEvaluate_keeps {a₀ : State} {q : QId} {node : ℕ} {off : ℕ} {r : Reply} {s : State} (hk : Keeps a₀ s) : KeepsRes a₀ (execWaitmemEvaluate q node off r s) := by
  unfold execWaitmemEvaluate
  repeat' (first | (with_reducible (first | (apply KeepsRes.next) | (assumption) | (apply performed_keeps) | (apply hubFlag_keeps) | (refine hubFlag_keeps_of (by assumption) ?_) | (apply entryFault_keeps) | (refine iteRes_keeps ?_ ?_) | (refine ite_keeps ?_ ?_) | split | (intro _) | (dsimp only))) | (apply Keeps.rest; with_reducible (first | (apply KeepsRes.next) | (assumption) | (apply performed_keeps) | (apply hubFlag_keeps) | (refine hubFlag_keeps_of (by assumption) ?_) | (apply entryFault_keeps) | (refine iteRes_keeps ?_ ?_))))

theorem execEnq_keeps {a₀ : State} {q : QId} {node : ℕ} {off : ℕ} {r : Reply} {s : State} (hk : Keeps a₀ s) : KeepsRes a₀ (execEnq q node off r s) := by
  unfold execEnq
  repeat' (first | (with_reducible (first | (apply KeepsRes.next) | (assumption) | (refine onIssued_keeps ?_ ?_) | (apply enqStep_keeps) | (refine iteRes_keeps ?_ ?_) | (refine ite_keeps ?_ ?_) | split | (intro _) | (dsimp only))) | (apply Keeps.rest; with_reducible (first | (apply KeepsRes.next) | (assumption) | (refine onIssued_keeps ?_ ?_) | (apply enqStep_keeps) | (refine iteRes_keeps ?_ ?_))))

theorem execEnqRetry_keeps {a₀ : State} {q : QId} {node : ℕ} {off : ℕ} {r : Reply} {s : State} (hk : Keeps a₀ s) : KeepsRes a₀ (execEnqRetry q node off r s) := by
  unfold execEnqRetry
  repeat' (first | (with_reducible (first | (apply KeepsRes.next) | (assumption) | (apply enqStep_keeps) | (refine iteRes_keeps ?_ ?_) | (refine ite_keeps ?_ ?_) | split | (intro _) | (dsimp only))) | (apply Keeps.rest; with_reducible (first | (apply KeepsRes.next) | (assumption) | (apply enqStep_keeps) | (refine iteRes_keeps ?_ ?_))))

theorem execGinit_keeps {a₀ : State} {q : QId} {node : ℕ} {off : ℕ} {s : State} (hk : Keeps a₀ s) : KeepsRes a₀ (execGinit q node off s) := by
  unfold execGinit
  repeat' (first | (with_reducible (first | (apply KeepsRes.next) | (assumption) | (refine onIssued_keeps ?_ ?_) | (apply ginitStep_keeps) | (refine iteRes_keeps ?_ ?_) | (refine ite_keeps ?_ ?_) | split | (intro _) | (dsimp only))) | (apply Keeps.rest; with_reducible (first | (apply KeepsRes.next) | (assumption) | (refine onIssued_keeps ?_ ?_) | (apply ginitStep_keeps) | (refine iteRes_keeps ?_ ?_))))

theorem execGpatch_keeps {a₀ : State} {q : QId} {node : ℕ} {off : ℕ} {s : State} (hk : Keeps a₀ s) : KeepsRes a₀ (execGpatch q node off s) := by
  unfold execGpatch
  repeat' (first | (with_reducible (first | (apply KeepsRes.next) | (assumption) | (apply gpatchStep_keeps) | (refine onIssued_keeps ?_ ?_) | (refine iteRes_keeps ?_ ?_) | (refine ite_keeps ?_ ?_) | split | (intro _) | (dsimp only))) | (apply Keeps.rest; with_reducible (first | (apply KeepsRes.next) | (assumption) | (apply gpatchStep_keeps) | (refine onIssued_keeps ?_ ?_) | (refine iteRes_keeps ?_ ?_))))

theorem execGretire_keeps {a₀ : State} {q : QId} {node : ℕ} {off : ℕ} {s : State} (hk : Keeps a₀ s) : KeepsRes a₀ (execGretire q node off s) := by
  unfold execGretire
  repeat' (first | (with_reducible (first | (apply KeepsRes.next) | (assumption) | (apply hubProbe_keeps) | (refine hubProbe_keeps_of (by assumption) ?_) | (apply freedEvent_keeps) | (apply hubRead_keeps) | (refine hubRead_keeps_of (by assumption) ?_) | (apply performed_keeps) | (apply hubWrite_keeps) | (refine hubWrite_keeps_of (by assumption) ?_) | (refine onIssued_keeps ?_ ?_) | (refine iteRes_keeps ?_ ?_) | (refine ite_keeps ?_ ?_) | split | (intro _) | (dsimp only))) | (apply Keeps.rest; with_reducible (first | (apply KeepsRes.next) | (assumption) | (apply hubProbe_keeps) | (refine hubProbe_keeps_of (by assumption) ?_) | (apply freedEvent_keeps) | (apply hubRead_keeps) | (refine hubRead_keeps_of (by assumption) ?_) | (apply performed_keeps) | (apply hubWrite_keeps) | (refine hubWrite_keeps_of (by assumption) ?_) | (refine onIssued_keeps ?_ ?_) | (refine iteRes_keeps ?_ ?_))))

theorem execPoolctlWrite_keeps {a₀ : State} {p : PoolId} {view : View} {v : BitVec 32} {s : State} (hk : Keeps a₀ s) : KeepsRes a₀ (execPoolctlWrite p view v s) := by
  unfold execPoolctlWrite
  repeat' (first | (with_reducible (first | (apply KeepsRes.next) | (assumption) | (apply modPool_keeps) | (refine iteRes_keeps ?_ ?_) | (refine ite_keeps ?_ ?_) | split | (intro _) | (dsimp only))) | (apply Keeps.rest; with_reducible (first | (apply KeepsRes.next) | (assumption) | (apply modPool_keeps) | (refine iteRes_keeps ?_ ?_))))

theorem execPoolEnableDone_keeps {a₀ : State} {p : PoolId} {s : State} (hk : Keeps a₀ s) : KeepsRes a₀ (execPoolEnableDone p s) := by
  unfold execPoolEnableDone
  repeat' (first | (with_reducible (first | (apply KeepsRes.next) | (assumption) | (apply hubProbe_keeps) | (refine hubProbe_keeps_of (by assumption) ?_) | (apply rasCtx_keeps) | (apply hubWrite_keeps) | (refine hubWrite_keeps_of (by assumption) ?_) | (apply setPool_keeps) | (refine iteRes_keeps ?_ ?_) | (refine ite_keeps ?_ ?_) | split | (intro _) | (dsimp only))) | (apply Keeps.rest; with_reducible (first | (apply KeepsRes.next) | (assumption) | (apply hubProbe_keeps) | (refine hubProbe_keeps_of (by assumption) ?_) | (apply rasCtx_keeps) | (apply hubWrite_keeps) | (refine hubWrite_keeps_of (by assumption) ?_) | (apply setPool_keeps) | (refine iteRes_keeps ?_ ?_))))

theorem execPoolAlloc_keeps {a₀ : State} {q : QId} {node : ℕ} {off : ℕ} {s : State} (hk : Keeps a₀ s) : KeepsRes a₀ (execPoolAlloc q node off s) := by
  unfold execPoolAlloc
  repeat' (first | (with_reducible (first | (apply KeepsRes.next) | (assumption) | (apply poolIssue_keeps) | (refine onIssued_keeps ?_ ?_) | (refine iteRes_keeps ?_ ?_) | (refine ite_keeps ?_ ?_) | split | (intro _) | (dsimp only))) | (apply Keeps.rest; with_reducible (first | (apply KeepsRes.next) | (assumption) | (apply poolIssue_keeps) | (refine onIssued_keeps ?_ ?_) | (refine iteRes_keeps ?_ ?_))))

theorem execPoolFree_keeps {a₀ : State} {q : QId} {node : ℕ} {off : ℕ} {s : State} (hk : Keeps a₀ s) : KeepsRes a₀ (execPoolFree q node off s) := by
  unfold execPoolFree
  repeat' (first | (with_reducible (first | (apply KeepsRes.next) | (assumption) | (apply poolIssue_keeps) | (refine onIssued_keeps ?_ ?_) | (refine iteRes_keeps ?_ ?_) | (refine ite_keeps ?_ ?_) | split | (intro _) | (dsimp only))) | (apply Keeps.rest; with_reducible (first | (apply KeepsRes.next) | (assumption) | (apply poolIssue_keeps) | (refine onIssued_keeps ?_ ?_) | (refine iteRes_keeps ?_ ?_))))

theorem execPoolEpochEnd_keeps {a₀ : State} {s : State} (hk : Keeps a₀ s) : KeepsRes a₀ (execPoolEpochEnd s) := by
  unfold execPoolEpochEnd
  repeat' (first | (with_reducible (first | (apply KeepsRes.next) | (assumption) | (apply poolStep_keeps) | (refine forEach_keeps ?_ ?_) | (apply modPool_keeps) | (refine iteRes_keeps ?_ ?_) | (refine ite_keeps ?_ ?_) | split | (intro _) | (dsimp only))) | (apply Keeps.rest; with_reducible (first | (apply KeepsRes.next) | (assumption) | (apply poolStep_keeps) | (refine forEach_keeps ?_ ?_) | (apply modPool_keeps) | (refine iteRes_keeps ?_ ?_))))

theorem execCoreGrant_keeps {a₀ : State} {s : State} (hk : Keeps a₀ s) : KeepsRes a₀ (execCoreGrant s) := by
  unfold execCoreGrant
  repeat' (first | (with_reducible (first | (apply KeepsRes.next) | (assumption) | (apply placeGang_keeps) | (refine iteRes_keeps ?_ ?_) | (refine ite_keeps ?_ ?_) | split | (intro _) | (dsimp only))) | (apply Keeps.rest; with_reducible (first | (apply KeepsRes.next) | (assumption) | (apply placeGang_keeps) | (refine iteRes_keeps ?_ ?_))))

theorem execTimedPrepare_keeps {a₀ : State} {g : ℕ} {s : State} (hk : Keeps a₀ s) : KeepsRes a₀ (execTimedPrepare g s) := by
  unfold execTimedPrepare
  repeat' (first | (with_reducible (first | (apply KeepsRes.next) | (assumption) | (refine forEach_keeps ?_ ?_) | (apply modCore_keeps) | (apply placeGang_keeps) | (refine iteRes_keeps ?_ ?_) | (refine ite_keeps ?_ ?_) | split | (intro _) | (dsimp only))) | (apply Keeps.rest; with_reducible (first | (apply KeepsRes.next) | (assumption) | (refine forEach_keeps ?_ ?_) | (apply modCore_keeps) | (apply placeGang_keeps) | (refine iteRes_keeps ?_ ?_))))

theorem execTimedRelease_keeps {a₀ : State} {g : ℕ} {s : State} (hk : Keeps a₀ s) : KeepsRes a₀ (execTimedRelease g s) := by
  unfold execTimedRelease
  repeat' (first | (with_reducible (first | (apply KeepsRes.next) | (assumption) | (apply startGang_keeps) | (apply issuePkt_keeps) | (refine iteRes_keeps ?_ ?_) | (refine ite_keeps ?_ ?_) | split | (intro _) | (dsimp only))) | (apply Keeps.rest; with_reducible (first | (apply KeepsRes.next) | (assumption) | (apply startGang_keeps) | (apply issuePkt_keeps) | (refine iteRes_keeps ?_ ?_))))

theorem execPreempt_keeps {a₀ : State} {g : ℕ} {s : State} (hk : Keeps a₀ s) : KeepsRes a₀ (execPreempt g s) := by
  unfold execPreempt
  repeat' (first | (with_reducible (first | (apply KeepsRes.next) | (assumption) | (apply notice_keeps) | (refine forEach_keeps ?_ ?_) | (refine iteRes_keeps ?_ ?_) | (refine ite_keeps ?_ ?_) | split | (intro _) | (dsimp only))) | (apply Keeps.rest; with_reducible (first | (apply KeepsRes.next) | (assumption) | (apply notice_keeps) | (refine forEach_keeps ?_ ?_) | (refine iteRes_keeps ?_ ?_))))

theorem execCoreSaveDone_keeps {a₀ : State} {c : Core} {s : State} (hk : Keeps a₀ s) : KeepsRes a₀ (execCoreSaveDone c s) := by
  unfold execCoreSaveDone
  repeat' (first | (with_reducible (first | (apply KeepsRes.next) | (assumption) | (apply combFlush_keeps) | (apply writeImage_keeps) | (refine iteRes_keeps ?_ ?_) | (refine ite_keeps ?_ ?_) | split | (intro _) | (dsimp only))) | (apply Keeps.rest; with_reducible (first | (apply KeepsRes.next) | (assumption) | (apply combFlush_keeps) | (apply writeImage_keeps) | (refine iteRes_keeps ?_ ?_))))

theorem execRestore_keeps {a₀ : State} {g : ℕ} {s : State} (hk : Keeps a₀ s) : KeepsRes a₀ (execRestore g s) := by
  unfold execRestore
  repeat' (first | (with_reducible (first | (apply KeepsRes.next) | (assumption) | (apply restoreOne_keeps) | (apply placeGang_keeps) | (refine iteRes_keeps ?_ ?_) | (refine ite_keeps ?_ ?_) | split | (intro _) | (dsimp only))) | (apply Keeps.rest; with_reducible (first | (apply KeepsRes.next) | (assumption) | (apply restoreOne_keeps) | (apply placeGang_keeps) | (refine iteRes_keeps ?_ ?_))))

theorem execCoreFailure_keeps {a₀ : State} {c : Core} {s : State} (hk : Keeps a₀ s) : KeepsRes a₀ (execCoreFailure c s) := by
  unfold execCoreFailure
  repeat' (first | (with_reducible (first | (apply KeepsRes.next) | (assumption) | (apply retireIfDue_keeps) | (apply loseKernel_keeps) | (refine iteRes_keeps ?_ ?_) | (refine ite_keeps ?_ ?_) | split | (intro _) | (dsimp only))) | (apply Keeps.rest; with_reducible (first | (apply KeepsRes.next) | (assumption) | (apply retireIfDue_keeps) | (apply loseKernel_keeps) | (refine iteRes_keeps ?_ ?_))) | (with_reducible (first | (injections; subst_vars) | (rename_i heq; revert heq; split <;> (intro heq; first | (cases heq) | skip)))))

theorem execTableSearch_keeps {a₀ : State} {x : XUser} {s : State} (hk : Keeps a₀ s) : KeepsRes a₀ (execTableSearch x s) := by
  unfold execTableSearch
  repeat' (first | (with_reducible (first | (apply KeepsRes.next) | (assumption) | (apply setCore_keeps) | (refine iteRes_keeps ?_ ?_) | (refine ite_keeps ?_ ?_) | split | (intro _) | (dsimp only))) | (apply Keeps.rest; with_reducible (first | (apply KeepsRes.next) | (assumption) | (apply setCore_keeps) | (refine iteRes_keeps ?_ ?_))))

theorem execTableSearchDone_keeps {a₀ : State} {x : XUser} {s : State} (hk : Keeps a₀ s) : KeepsRes a₀ (execTableSearchDone x s) := by
  unfold execTableSearchDone
  repeat' (first | (with_reducible (first | (apply KeepsRes.next) | (assumption) | (apply searchEnd_keeps) | (refine searchEnd_keeps_of (by assumption) ?_) | (apply settleAcc_keeps) | (apply recordX_keeps) | (apply countIfPage_keeps) | (apply setCore_keeps) | (apply resumeAccs_keeps) | (apply modCore_keeps) | (refine iteRes_keeps ?_ ?_) | (refine ite_keeps ?_ ?_) | split | (intro _) | (dsimp only))) | (apply Keeps.rest; with_reducible (first | (apply KeepsRes.next) | (assumption) | (apply searchEnd_keeps) | (refine searchEnd_keeps_of (by assumption) ?_) | (apply settleAcc_keeps) | (apply recordX_keeps) | (apply countIfPage_keeps) | (apply setCore_keeps) | (apply resumeAccs_keeps) | (apply modCore_keeps) | (refine iteRes_keeps ?_ ?_))))

theorem execXctlInv_keeps {a₀ : State} {x : CtxId} {view : View} {s : State} (hk : Keeps a₀ s) : KeepsRes a₀ (execXctlInv x view s) := by
  unfold execXctlInv
  repeat' (first | (with_reducible (first | (apply KeepsRes.next) | (assumption) | (apply xctlWrite_keeps) | (refine iteRes_keeps ?_ ?_) | (refine ite_keeps ?_ ?_) | split | (intro _) | (dsimp only))) | (apply Keeps.rest; with_reducible (first | (apply KeepsRes.next) | (assumption) | (apply xctlWrite_keeps) | (refine iteRes_keeps ?_ ?_))))

theorem execXctlEn_keeps {a₀ : State} {x : CtxId} {view : View} {v : BitVec 32} {s : State} (hk : Keeps a₀ s) : KeepsRes a₀ (execXctlEn x view v s) := by
  unfold execXctlEn
  repeat' (first | (with_reducible (first | (apply KeepsRes.next) | (assumption) | (apply xctlWrite_keeps) | (refine iteRes_keeps ?_ ?_) | (refine ite_keeps ?_ ?_) | split | (intro _) | (dsimp only))) | (apply Keeps.rest; with_reducible (first | (apply KeepsRes.next) | (assumption) | (apply xctlWrite_keeps) | (refine iteRes_keeps ?_ ?_))))

theorem execInvalidationDone_keeps {a₀ : State} {x : CtxId} {s : State} (hk : Keeps a₀ s) : KeepsRes a₀ (execInvalidationDone x s) := by
  unfold execInvalidationDone
  repeat' (first | (with_reducible (first | (apply KeepsRes.next) | (assumption) | (apply invStart_keeps) | (apply setCtx_keeps) | (refine iteRes_keeps ?_ ?_) | (refine ite_keeps ?_ ?_) | split | (intro _) | (dsimp only))) | (apply Keeps.rest; with_reducible (first | (apply KeepsRes.next) | (assumption) | (apply invStart_keeps) | (apply setCtx_keeps) | (refine iteRes_keeps ?_ ?_))))

theorem execOwncmd_keeps {a₀ : State} {view : View} {v : BitVec 64} {s : State} (hk : Keeps a₀ s) : KeepsRes a₀ (execOwncmd view v s) := by
  unfold execOwncmd
  repeat' (first | (with_reducible (first | (apply KeepsRes.next) | (assumption) | (apply owncmdWrite_keeps) | (refine iteRes_keeps ?_ ?_) | (refine ite_keeps ?_ ?_) | split | (intro _) | (dsimp only))) | (apply Keeps.rest; with_reducible (first | (apply KeepsRes.next) | (assumption) | (apply owncmdWrite_keeps) | (refine iteRes_keeps ?_ ?_))))

theorem execOwncmdDone_keeps {a₀ : State} {s : State} (hk : Keeps a₀ s) : KeepsRes a₀ (execOwncmdDone s) := by
  unfold execOwncmdDone
  repeat' (first | (with_reducible (first | (apply KeepsRes.next) | (assumption) | (apply dropSpan_keeps) | (apply ownWritten_keeps) | (refine iteRes_keeps ?_ ?_) | (refine ite_keeps ?_ ?_) | split | (intro _) | (dsimp only))) | (apply Keeps.rest; with_reducible (first | (apply KeepsRes.next) | (assumption) | (apply dropSpan_keeps) | (apply ownWritten_keeps) | (refine iteRes_keeps ?_ ?_))))

theorem execBar2Access_keeps {a₀ : State} {off : ℕ} {size : ℕ} {wr : Option (List Byte)} {s : State} (hk : Keeps a₀ s) :
    KeepsRes a₀ (execBar2Access off size wr s) := by
  unfold execBar2Access
  split
  · exact .next hk
  · split
    · exact .next (ite_keeps (windowRead_keeps hk) hk)
    · split
      · have k := windowWrite_keeps (win := s.host.win) (off := off) (bs := by assumption) hk
        split
        · rename_i h
          rw [h] at k
          exact .next k
        · rename_i h
          rw [h] at k
          exact .next (setPosted_keeps k)
      · exact .next (setPosted_keeps hk)

theorem execMigrationComplete_keeps {a₀ : State} {i : ℕ} {r : Reply} {s : State} (hk : Keeps a₀ s) : KeepsRes a₀ (execMigrationComplete i r s) := by
  unfold execMigrationComplete
  repeat' (first | (with_reducible (first | (apply KeepsRes.next) | (assumption) | (apply migrEnd_keeps) | (apply modCtx_keeps) | (apply writePage_keeps) | (apply lateEvents_keeps) | (apply pageAgain_keeps) | (refine pageAgain_keeps_of (by assumption) ?_) | (refine wakeCore_keeps ?_ ?_) | (apply migFail_keeps) | (apply swapPage_keeps) | (refine forEach_keeps ?_ ?_) | (apply migrAnswer_keeps) | (refine migrAnswer_keeps_of (by assumption) ?_) | (refine iteRes_keeps ?_ ?_) | (refine ite_keeps ?_ ?_) | split | (intro _) | (dsimp only))) | (apply Keeps.rest; with_reducible (first | (apply KeepsRes.next) | (assumption) | (apply migrEnd_keeps) | (apply modCtx_keeps) | (apply writePage_keeps) | (apply lateEvents_keeps) | (apply pageAgain_keeps) | (refine pageAgain_keeps_of (by assumption) ?_) | (refine wakeCore_keeps ?_ ?_) | (apply migFail_keeps) | (apply swapPage_keeps) | (refine forEach_keeps ?_ ?_) | (apply migrAnswer_keeps) | (refine migrAnswer_keeps_of (by assumption) ?_) | (refine iteRes_keeps ?_ ?_))))

theorem execMigrationFail_keeps {a₀ : State} {i : ℕ} {code : BitVec 8} {s : State} (hk : Keeps a₀ s) : KeepsRes a₀ (execMigrationFail i code s) := by
  unfold execMigrationFail
  repeat' (first | (with_reducible (first | (apply KeepsRes.next) | (assumption) | (apply migFail_keeps) | (refine iteRes_keeps ?_ ?_) | (refine ite_keeps ?_ ?_) | split | (intro _) | (dsimp only))) | (apply Keeps.rest; with_reducible (first | (apply KeepsRes.next) | (assumption) | (apply migFail_keeps) | (refine iteRes_keeps ?_ ?_))))

theorem execMigratePendingRecheck_keeps {a₀ : State} {x : XUser} {s : State} (hk : Keeps a₀ s) : KeepsRes a₀ (execMigratePendingRecheck x s) := by
  unfold execMigratePendingRecheck
  repeat' (first | (with_reducible (first | (apply KeepsRes.next) | (assumption) | (apply settleAcc_keeps) | (apply recordX_keeps) | (apply postedAgain_keeps) | (apply lateEvents_keeps) | (apply pageAgain_keeps) | (refine pageAgain_keeps_of (by assumption) ?_) | (apply chanXlate_keeps) | (refine chanXlate_keeps_of (by assumption) ?_) | (apply hubXlate_keeps) | (refine hubXlate_keeps_of (by assumption) ?_) | (apply modCore_keeps) | (refine iteRes_keeps ?_ ?_) | (refine ite_keeps ?_ ?_) | split | (intro _) | (dsimp only))) | (apply Keeps.rest; with_reducible (first | (apply KeepsRes.next) | (assumption) | (apply settleAcc_keeps) | (apply recordX_keeps) | (apply postedAgain_keeps) | (apply lateEvents_keeps) | (apply pageAgain_keeps) | (refine pageAgain_keeps_of (by assumption) ?_) | (apply chanXlate_keeps) | (refine chanXlate_keeps_of (by assumption) ?_) | (apply hubXlate_keeps) | (refine hubXlate_keeps_of (by assumption) ?_) | (apply modCore_keeps) | (refine iteRes_keeps ?_ ?_))))

theorem execSchedulerEpoch_keeps {a₀ : State} {s : State} (hk : Keeps a₀ s) : KeepsRes a₀ (execSchedulerEpoch s) := by
  unfold execSchedulerEpoch
  repeat' (first | (with_reducible (first | (apply KeepsRes.next) | (assumption) | (apply claimTest_keeps) | (apply returnChannels_keeps) | (apply joinCores_keeps) | (apply claimGroups_keeps) | (refine iteRes_keeps ?_ ?_) | (refine ite_keeps ?_ ?_) | split | (intro _) | (dsimp only))) | (apply Keeps.rest; with_reducible (first | (apply KeepsRes.next) | (assumption) | (apply claimTest_keeps) | (apply returnChannels_keeps) | (apply joinCores_keeps) | (apply claimGroups_keeps) | (refine iteRes_keeps ?_ ?_))))

end Sys2Proof.Machine
end

