-- ==== Sys2Proof/Laws/KeepsExecUnits.lean ====
section
/-!
SUPPORT. The commands of memory, links, the Span, power and the host port leave the clock and the waiting commands alone and keep the canonical form.
-/

namespace Sys2Proof.Machine

theorem execMortarCrcFail_keeps {a₀ : State} {f : Fin 264} {grp : ℕ} {replaysFailed : Bool} {s : State} (hk : Keeps a₀ s) : KeepsRes a₀ (execMortarCrcFail f grp replaysFailed s) := by
  unfold execMortarCrcFail
  repeat' (first | (with_reducible (first | (apply KeepsRes.next) | (assumption) | (apply mortarBad_keeps) | (apply setMortar_keeps) | (refine iteRes_keeps ?_ ?_) | (refine ite_keeps ?_ ?_) | split | (intro _) | (dsimp only))) | (apply Keeps.rest; with_reducible (first | (apply KeepsRes.next) | (assumption) | (apply mortarBad_keeps) | (apply setMortar_keeps) | (refine iteRes_keeps ?_ ?_))))

theorem execMortarSteerDone_keeps {a₀ : State} {f : Fin 264} {s : State} (hk : Keeps a₀ s) : KeepsRes a₀ (execMortarSteerDone f s) := by
  unfold execMortarSteerDone
  repeat' (first | (with_reducible (first | (apply KeepsRes.next) | (assumption) | (apply report_keeps) | (apply recUnits_keeps) | (apply setMortar_keeps) | (refine iteRes_keeps ?_ ?_) | (refine ite_keeps ?_ ?_) | split | (intro _) | (dsimp only))) | (apply Keeps.rest; with_reducible (first | (apply KeepsRes.next) | (assumption) | (apply report_keeps) | (apply recUnits_keeps) | (apply setMortar_keeps) | (refine iteRes_keeps ?_ ?_))))

theorem execLintelFlitCrcFail_keeps {a₀ : State} {l : Fin 24} {lane : Option (Fin 18)} {replaysFailed : Bool} {s : State} (hk : Keeps a₀ s) : KeepsRes a₀ (execLintelFlitCrcFail l lane replaysFailed s) := by
  unfold execLintelFlitCrcFail
  repeat' (first | (with_reducible (first | (apply KeepsRes.next) | (assumption) | (apply setLintel_keeps) | (apply laneBad_keeps) | (refine iteRes_keeps ?_ ?_) | (refine ite_keeps ?_ ?_) | split | (intro _) | (dsimp only))) | (apply Keeps.rest; with_reducible (first | (apply KeepsRes.next) | (assumption) | (apply setLintel_keeps) | (apply laneBad_keeps) | (refine iteRes_keeps ?_ ?_))))

theorem execLintelClockLockLoss_keeps {a₀ : State} {l : Fin 24} {lane : Fin 18} {s : State} (hk : Keeps a₀ s) : KeepsRes a₀ (execLintelClockLockLoss l lane s) := by
  unfold execLintelClockLockLoss
  repeat' (first | (with_reducible (first | (apply KeepsRes.next) | (assumption) | (apply laneBad_keeps) | (refine iteRes_keeps ?_ ?_) | (refine ite_keeps ?_ ?_) | split | (intro _) | (dsimp only))) | (apply Keeps.rest; with_reducible (first | (apply KeepsRes.next) | (assumption) | (apply laneBad_keeps) | (refine iteRes_keeps ?_ ?_))))

theorem execLintelRetrainDone_keeps {a₀ : State} {l : Fin 24} {failed : List (Fin 18)} {s : State} (hk : Keeps a₀ s) : KeepsRes a₀ (execLintelRetrainDone l failed s) := by
  unfold execLintelRetrainDone
  repeat' (first | (with_reducible (first | (apply KeepsRes.next) | (assumption) | (apply setLintel_keeps) | (apply laneBad_keeps) | (refine forEach_keeps ?_ ?_) | (refine iteRes_keeps ?_ ?_) | (refine ite_keeps ?_ ?_) | split | (intro _) | (dsimp only))) | (apply Keeps.rest; with_reducible (first | (apply KeepsRes.next) | (assumption) | (apply setLintel_keeps) | (apply laneBad_keeps) | (refine forEach_keeps ?_ ?_) | (refine iteRes_keeps ?_ ?_))))

theorem execLintelRemapDone_keeps {a₀ : State} {l : Fin 24} {s : State} (hk : Keeps a₀ s) : KeepsRes a₀ (execLintelRemapDone l s) := by
  unfold execLintelRemapDone
  repeat' (first | (with_reducible (first | (apply KeepsRes.next) | (assumption) | (apply setLintel_keeps) | (apply remapLane_keeps) | (refine forEach_keeps ?_ ?_) | (refine iteRes_keeps ?_ ?_) | (refine ite_keeps ?_ ?_) | split | (intro _) | (dsimp only))) | (apply Keeps.rest; with_reducible (first | (apply KeepsRes.next) | (assumption) | (apply setLintel_keeps) | (apply remapLane_keeps) | (refine forEach_keeps ?_ ?_) | (refine iteRes_keeps ?_ ?_))))

theorem execHbmCorrectableRead_keeps {a₀ : State} {ch : HCh} {y : HbmRead} {s : State} (hk : Keeps a₀ s) : KeepsRes a₀ (execHbmCorrectableRead ch y s) := by
  unfold execHbmCorrectableRead
  repeat' (first | (with_reducible (first | (apply KeepsRes.next) | (assumption) | (apply setHbm_keeps) | (refine iteRes_keeps ?_ ?_) | (refine ite_keeps ?_ ?_) | split | (intro _) | (dsimp only))) | (apply Keeps.rest; with_reducible (first | (apply KeepsRes.next) | (assumption) | (apply setHbm_keeps) | (refine iteRes_keeps ?_ ?_))))

theorem execHbmUncorrectableRead_keeps {a₀ : State} {ch : HCh} {y : ℕ} {allFail : Bool} {s : State} (hk : Keeps a₀ s) : KeepsRes a₀ (execHbmUncorrectableRead ch y allFail s) := by
  unfold execHbmUncorrectableRead
  repeat' (first | (with_reducible (first | (apply KeepsRes.next) | (assumption) | (apply setHbm_keeps) | (apply loseRowLine_keeps) | (refine iteRes_keeps ?_ ?_) | (refine ite_keeps ?_ ?_) | split | (intro _) | (dsimp only))) | (apply Keeps.rest; with_reducible (first | (apply KeepsRes.next) | (assumption) | (apply setHbm_keeps) | (apply loseRowLine_keeps) | (refine iteRes_keeps ?_ ?_))))

theorem execHbmLinkError_keeps {a₀ : State} {ch : HCh} {retriesFailed : Bool} {s : State} (hk : Keeps a₀ s) : KeepsRes a₀ (execHbmLinkError ch retriesFailed s) := by
  unfold execHbmLinkError
  repeat' (first | (with_reducible (first | (apply KeepsRes.next) | (assumption) | (apply setHbm_keeps) | (refine iteRes_keeps ?_ ?_) | (refine ite_keeps ?_ ?_) | split | (intro _) | (dsimp only))) | (apply Keeps.rest; with_reducible (first | (apply KeepsRes.next) | (assumption) | (apply setHbm_keeps) | (refine iteRes_keeps ?_ ?_))))

theorem execHbmRetrainDone_keeps {a₀ : State} {ch : HCh} {ok : Bool} {s : State} (hk : Keeps a₀ s) : KeepsRes a₀ (execHbmRetrainDone ch ok s) := by
  unfold execHbmRetrainDone
  repeat' (first | (with_reducible (first | (apply KeepsRes.next) | (assumption) | (apply setHbm_keeps) | (refine iteRes_keeps ?_ ?_) | (refine ite_keeps ?_ ?_) | split | (intro _) | (dsimp only))) | (apply Keeps.rest; with_reducible (first | (apply KeepsRes.next) | (assumption) | (apply setHbm_keeps) | (refine iteRes_keeps ?_ ?_))))

theorem execRowRemap_keeps {a₀ : State} {ch : HCh} {pc : Fin 2} {bank : Fin 32} {row : Fin 18432} {bad : List (Fin 16)} {s : State} (hk : Keeps a₀ s) : KeepsRes a₀ (execRowRemap ch pc bank row bad s) := by
  unfold execRowRemap
  repeat' (first | (with_reducible (first | (apply KeepsRes.next) | (assumption) | (apply report_keeps) | (apply setHbm_keeps) | (apply recUnits_keeps) | (refine forEach_keeps ?_ ?_) | (apply loseRowLine_keeps) | (refine iteRes_keeps ?_ ?_) | (refine ite_keeps ?_ ?_) | split | (intro _) | (dsimp only))) | (apply Keeps.rest; with_reducible (first | (apply KeepsRes.next) | (assumption) | (apply report_keeps) | (apply setHbm_keeps) | (apply recUnits_keeps) | (refine forEach_keeps ?_ ?_) | (apply loseRowLine_keeps) | (refine iteRes_keeps ?_ ?_))))

theorem execChannelRetire_keeps {a₀ : State} {ch : HCh} {s : State} (hk : Keeps a₀ s) : KeepsRes a₀ (execChannelRetire ch s) := by
  unfold execChannelRetire
  repeat' (first | (with_reducible (first | (apply KeepsRes.next) | (assumption) | (apply retireChannel_keeps) | (refine iteRes_keeps ?_ ?_) | (refine ite_keeps ?_ ?_) | split | (intro _) | (dsimp only))) | (apply Keeps.rest; with_reducible (first | (apply KeepsRes.next) | (assumption) | (apply retireChannel_keeps) | (refine iteRes_keeps ?_ ?_))))

theorem execRecalStart_keeps {a₀ : State} {ch : HCh} {why : RecalWhy} {s : State} (hk : Keeps a₀ s) : KeepsRes a₀ (execRecalStart ch why s) := by
  unfold execRecalStart
  repeat' (first | (with_reducible (first | (apply KeepsRes.next) | (assumption) | (apply setHbm_keeps) | (refine iteRes_keeps ?_ ?_) | (refine ite_keeps ?_ ?_) | split | (intro _) | (dsimp only))) | (apply Keeps.rest; with_reducible (first | (apply KeepsRes.next) | (assumption) | (apply setHbm_keeps) | (refine iteRes_keeps ?_ ?_))))

theorem execRecalStep_keeps {a₀ : State} {ch : HCh} {ok : Bool} {s : State} (hk : Keeps a₀ s) : KeepsRes a₀ (execRecalStep ch ok s) := by
  unfold execRecalStep
  repeat' (first | (with_reducible (first | (apply KeepsRes.next) | (assumption) | (apply setHbm_keeps) | (refine iteRes_keeps ?_ ?_) | (refine ite_keeps ?_ ?_) | split | (intro _) | (dsimp only))) | (apply Keeps.rest; with_reducible (first | (apply KeepsRes.next) | (assumption) | (apply setHbm_keeps) | (refine iteRes_keeps ?_ ?_))))

theorem execPacketRoute_keeps {a₀ : State} {src : Option Port} {k : SpanPkt} {s : State} (hk : Keeps a₀ s) : KeepsRes a₀ (execPacketRoute src k s) := by
  unfold execPacketRoute
  repeat' (first | (with_reducible (first | (apply KeepsRes.next) | (assumption) | (apply inject_keeps) | (apply forward_keeps) | (refine iteRes_keeps ?_ ?_) | (refine ite_keeps ?_ ?_) | split | (intro _) | (dsimp only))) | (apply Keeps.rest; with_reducible (first | (apply KeepsRes.next) | (assumption) | (apply inject_keeps) | (apply forward_keeps) | (refine iteRes_keeps ?_ ?_))))

theorem execPacketStaleDrop_keeps {a₀ : State} {w : WaitAt} {i : ℕ} {s : State} (hk : Keeps a₀ s) : KeepsRes a₀ (execPacketStaleDrop w i s) := by
  unfold execPacketStaleDrop
  repeat' (first | (with_reducible (first | (apply KeepsRes.next) | (assumption) | (apply unsent_keeps) | (apply creditBack_keeps) | (apply modPort_keeps) | (apply countDrops_keeps) | (refine iteRes_keeps ?_ ?_) | (refine ite_keeps ?_ ?_) | split | (intro _) | (dsimp only))) | (apply Keeps.rest; with_reducible (first | (apply KeepsRes.next) | (assumption) | (apply unsent_keeps) | (apply creditBack_keeps) | (apply modPort_keeps) | (apply countDrops_keeps) | (refine iteRes_keeps ?_ ?_))))

theorem execRouteGo_keeps {a₀ : State} {view : View} {s : State} (hk : Keeps a₀ s) : KeepsRes a₀ (execRouteGo view s) := by
  unfold execRouteGo
  repeat' (first | (with_reducible (first | (apply KeepsRes.next) | (assumption) | (apply routeGoWrite_keeps) | (refine iteRes_keeps ?_ ?_) | (refine ite_keeps ?_ ?_) | split | (intro _) | (dsimp only))) | (apply Keeps.rest; with_reducible (first | (apply KeepsRes.next) | (assumption) | (apply routeGoWrite_keeps) | (refine iteRes_keeps ?_ ?_))))

theorem execRouteSwitch_keeps {a₀ : State} {s : State} (hk : Keeps a₀ s) : KeepsRes a₀ (execRouteSwitch s) := by
  unfold execRouteSwitch
  repeat' (first | (with_reducible (first | (apply KeepsRes.next) | (assumption) | (apply switchRoutes_keeps) | (refine iteRes_keeps ?_ ?_) | (refine ite_keeps ?_ ?_) | split | (intro _) | (dsimp only))) | (apply Keeps.rest; with_reducible (first | (apply KeepsRes.next) | (assumption) | (apply switchRoutes_keeps) | (refine iteRes_keeps ?_ ?_))))

theorem execRouteDrainEnd_keeps {a₀ : State} {s : State} (hk : Keeps a₀ s) : KeepsRes a₀ (execRouteDrainEnd s) := by
  unfold execRouteDrainEnd
  repeat' (first | (with_reducible (first | (apply KeepsRes.next) | (assumption) | (apply withSpan_keeps) | (refine iteRes_keeps ?_ ?_) | (refine ite_keeps ?_ ?_) | split | (intro _) | (dsimp only))) | (apply Keeps.rest; with_reducible (first | (apply KeepsRes.next) | (assumption) | (apply withSpan_keeps) | (refine iteRes_keeps ?_ ?_))))

theorem execRouteEnWrite_keeps {a₀ : State} {view : View} {en : Bool} {s : State} (hk : Keeps a₀ s) : KeepsRes a₀ (execRouteEnWrite view en s) := by
  unfold execRouteEnWrite
  repeat' (first | (with_reducible (first | (apply KeepsRes.next) | (assumption) | (apply routeEnSet_keeps) | (refine iteRes_keeps ?_ ?_) | (refine ite_keeps ?_ ?_) | split | (intro _) | (dsimp only))) | (apply Keeps.rest; with_reducible (first | (apply KeepsRes.next) | (assumption) | (apply routeEnSet_keeps) | (refine iteRes_keeps ?_ ?_))))

theorem execProtoActWrite_keeps {a₀ : State} {view : View} {v : BitVec 8} {s : State} (hk : Keeps a₀ s) : KeepsRes a₀ (execProtoActWrite view v s) := by
  unfold execProtoActWrite
  repeat' (first | (with_reducible (first | (apply KeepsRes.next) | (assumption) | (apply protoSet_keeps) | (refine iteRes_keeps ?_ ?_) | (refine ite_keeps ?_ ?_) | split | (intro _) | (dsimp only))) | (apply Keeps.rest; with_reducible (first | (apply KeepsRes.next) | (assumption) | (apply protoSet_keeps) | (refine iteRes_keeps ?_ ?_))))

theorem execSpanIdWrite_keeps {a₀ : State} {view : View} {v : BitVec 32} {s : State} (hk : Keeps a₀ s) : KeepsRes a₀ (execSpanIdWrite view v s) := by
  unfold execSpanIdWrite
  repeat' (first | (with_reducible (first | (apply KeepsRes.next) | (assumption) | (apply spanIdSet_keeps) | (refine iteRes_keeps ?_ ?_) | (refine ite_keeps ?_ ?_) | split | (intro _) | (dsimp only))) | (apply Keeps.rest; with_reducible (first | (apply KeepsRes.next) | (assumption) | (apply spanIdSet_keeps) | (refine iteRes_keeps ?_ ?_))))

theorem execLaneLeave_keeps {a₀ : State} {p : Port} {l : Fin 8} {_why : LaneWhy} {s : State} (hk : Keeps a₀ s) : KeepsRes a₀ (execLaneLeave p l _why s) := by
  unfold execLaneLeave
  repeat' (first | (with_reducible (first | (apply KeepsRes.next) | (assumption) | (apply setPort_keeps) | (refine iteRes_keeps ?_ ?_) | (refine ite_keeps ?_ ?_) | split | (intro _) | (dsimp only))) | (apply Keeps.rest; with_reducible (first | (apply KeepsRes.next) | (assumption) | (apply setPort_keeps) | (refine iteRes_keeps ?_ ?_))))

theorem execPortHoldEnd_keeps {a₀ : State} {p : Port} {s : State} (hk : Keeps a₀ s) : KeepsRes a₀ (execPortHoldEnd p s) := by
  unfold execPortHoldEnd
  repeat' (first | (with_reducible (first | (apply KeepsRes.next) | (assumption) | (apply modPort_keeps) | (apply laneGoes_keeps) | (apply reform_keeps) | (apply pumpPort_keeps) | (apply portRetrain_keeps) | (refine forEach_keeps ?_ ?_) | (apply setPort_keeps) | (refine iteRes_keeps ?_ ?_) | (refine ite_keeps ?_ ?_) | split | (intro _) | (dsimp only))) | (apply Keeps.rest; with_reducible (first | (apply KeepsRes.next) | (assumption) | (apply modPort_keeps) | (apply laneGoes_keeps) | (apply reform_keeps) | (apply pumpPort_keeps) | (apply portRetrain_keeps) | (refine forEach_keeps ?_ ?_) | (apply setPort_keeps) | (refine iteRes_keeps ?_ ?_))))

theorem execLaneRetrainAttemptEnd_keeps {a₀ : State} {p : Port} {l : Fin 8} {ok : Bool} {s : State} (hk : Keeps a₀ s) : KeepsRes a₀ (execLaneRetrainAttemptEnd p l ok s) := by
  unfold execLaneRetrainAttemptEnd
  repeat' (first | (with_reducible (first | (apply KeepsRes.next) | (assumption) | (apply retireLane_keeps) | (apply setPort_keeps) | (refine iteRes_keeps ?_ ?_) | (refine ite_keeps ?_ ?_) | split | (intro _) | (dsimp only))) | (apply Keeps.rest; with_reducible (first | (apply KeepsRes.next) | (assumption) | (apply retireLane_keeps) | (apply setPort_keeps) | (refine iteRes_keeps ?_ ?_))))

theorem execPortRetrainAttemptEnd_keeps {a₀ : State} {p : Port} {ok : Bool} {failed : List (Fin 8)} {s : State} (hk : Keeps a₀ s) : KeepsRes a₀ (execPortRetrainAttemptEnd p ok failed s) := by
  unfold execPortRetrainAttemptEnd
  repeat' (first | (with_reducible (first | (apply KeepsRes.next) | (assumption) | (apply modPort_keeps) | (apply laneGoes_keeps) | (apply reform_keeps) | (apply putPort_keeps) | (apply portStop_keeps) | (apply pumpPort_keeps) | (refine forEach_keeps ?_ ?_) | (apply setPort_keeps) | (refine foldl_keeps ?_ ?_) | (refine iteRes_keeps ?_ ?_) | (refine ite_keeps ?_ ?_) | split | (intro _) | (dsimp only))) | (apply Keeps.rest; with_reducible (first | (apply KeepsRes.next) | (assumption) | (apply modPort_keeps) | (apply laneGoes_keeps) | (apply reform_keeps) | (apply putPort_keeps) | (apply portStop_keeps) | (apply pumpPort_keeps) | (refine forEach_keeps ?_ ?_) | (apply setPort_keeps) | (refine foldl_keeps ?_ ?_) | (refine iteRes_keeps ?_ ?_))))

theorem execPortDownRetry_keeps {a₀ : State} {p : Port} {s : State} (hk : Keeps a₀ s) : KeepsRes a₀ (execPortDownRetry p s) := by
  unfold execPortDownRetry
  repeat' (first | (with_reducible (first | (apply KeepsRes.next) | (assumption) | (apply portStart_keeps) | (refine iteRes_keeps ?_ ?_) | (refine ite_keeps ?_ ?_) | split | (intro _) | (dsimp only))) | (apply Keeps.rest; with_reducible (first | (apply KeepsRes.next) | (assumption) | (apply portStart_keeps) | (refine iteRes_keeps ?_ ?_))))

theorem execPortTrained_keeps {a₀ : State} {p : Port} {peer : PeerInfo} {failed : List (Fin 8)} {s : State} (hk : Keeps a₀ s) : KeepsRes a₀ (execPortTrained p peer failed s) := by
  unfold execPortTrained
  repeat' (first | (with_reducible (first | (apply KeepsRes.next) | (assumption) | (apply rootTakes_keeps) | (apply laneGoes_keeps) | (apply reform_keeps) | (apply putPort_keeps) | (apply portReport_keeps) | (apply withPlumb_keeps) | (refine forEach_keeps ?_ ?_) | (refine foldl_keeps ?_ ?_) | (refine iteRes_keeps ?_ ?_) | (refine ite_keeps ?_ ?_) | split | (intro _) | (dsimp only))) | (apply Keeps.rest; with_reducible (first | (apply KeepsRes.next) | (assumption) | (apply rootTakes_keeps) | (apply laneGoes_keeps) | (apply reform_keeps) | (apply putPort_keeps) | (apply portReport_keeps) | (apply withPlumb_keeps) | (refine forEach_keeps ?_ ?_) | (refine foldl_keeps ?_ ?_) | (refine iteRes_keeps ?_ ?_))))

theorem execFlitReceive_keeps {a₀ : State} {p : Port} {h : BitVec 64} {ok : Bool} {body : List SpanPkt} {arrival : Arrival} {s : State} (hk : Keeps a₀ s) : KeepsRes a₀ (execFlitReceive p h ok body arrival s) := by
  unfold execFlitReceive
  repeat' (first | (with_reducible (first | (apply KeepsRes.next) | (assumption) | (apply portRetrain_keeps) | (apply setPort_keeps) | (refine iteRes_keeps ?_ ?_) | (refine ite_keeps ?_ ?_) | split | (intro _) | (dsimp only))) | (apply Keeps.rest; with_reducible (first | (apply KeepsRes.next) | (assumption) | (apply portRetrain_keeps) | (apply setPort_keeps) | (refine iteRes_keeps ?_ ?_))))

theorem execSpanCommit_keeps {a₀ : State} {view : View} {s : State} (hk : Keeps a₀ s) : KeepsRes a₀ (execSpanCommit view s) := by
  unfold execSpanCommit
  repeat' (first | (with_reducible (first | (apply KeepsRes.next) | (assumption) | (apply spanCommitAll_keeps) | (refine iteRes_keeps ?_ ?_) | (refine ite_keeps ?_ ?_) | split | (intro _) | (dsimp only))) | (apply Keeps.rest; with_reducible (first | (apply KeepsRes.next) | (assumption) | (apply spanCommitAll_keeps) | (refine iteRes_keeps ?_ ?_))))

theorem execRemoteRequestServe_keeps {a₀ : State} {k : SpanPkt} {s : State} (hk : Keeps a₀ s) : KeepsRes a₀ (execRemoteRequestServe k s) := by
  unfold execRemoteRequestServe
  repeat' (first | (with_reducible (first | (apply KeepsRes.next) | (assumption) | (apply takeDelivered_keeps) | (apply respond_keeps) | (apply serve_keeps) | (refine serve_keeps_of (by assumption) ?_) | (refine iteRes_keeps ?_ ?_) | (refine ite_keeps ?_ ?_) | split | (intro _) | (dsimp only))) | (apply Keeps.rest; with_reducible (first | (apply KeepsRes.next) | (assumption) | (apply takeDelivered_keeps) | (apply respond_keeps) | (apply serve_keeps) | (refine serve_keeps_of (by assumption) ?_) | (refine iteRes_keeps ?_ ?_))))

theorem execRemoteResponse_keeps {a₀ : State} {k : SpanPkt} {s : State} (hk : Keeps a₀ s) : KeepsRes a₀ (execRemoteResponse k s) := by
  unfold execRemoteResponse
  repeat' (first | (with_reducible (first | (apply KeepsRes.next) | (assumption) | (apply takeDelivered_keeps) | (apply completeRemote_keeps) | (refine iteRes_keeps ?_ ?_) | (refine ite_keeps ?_ ?_) | split | (intro _) | (dsimp only))) | (apply Keeps.rest; with_reducible (first | (apply KeepsRes.next) | (assumption) | (apply takeDelivered_keeps) | (apply completeRemote_keeps) | (refine iteRes_keeps ?_ ?_))))

theorem execRemoteTimeout_keeps {a₀ : State} {tag : BitVec 18} {s : State} (hk : Keeps a₀ s) : KeepsRes a₀ (execRemoteTimeout tag s) := by
  unfold execRemoteTimeout
  repeat' (first | (with_reducible (first | (apply KeepsRes.next) | (assumption) | (apply completeRemote_keeps) | (refine iteRes_keeps ?_ ?_) | (refine ite_keeps ?_ ?_) | split | (intro _) | (dsimp only))) | (apply Keeps.rest; with_reducible (first | (apply KeepsRes.next) | (assumption) | (apply completeRemote_keeps) | (refine iteRes_keeps ?_ ?_))))

theorem execPlumbInterval_keeps {a₀ : State} {d2 : ℤ} {nbrCount : BitVec 64} {nbrLocked : Bool} {s : State} (hk : Keeps a₀ s) : KeepsRes a₀ (execPlumbInterval d2 nbrCount nbrLocked s) := by
  unfold execPlumbInterval
  repeat' (first | (with_reducible (first | (apply KeepsRes.next) | (assumption) | (apply plumbTakes_keeps) | (apply meanOut_keeps) | (refine forEach_keeps ?_ ?_) | (refine iteRes_keeps ?_ ?_) | (refine ite_keeps ?_ ?_) | split | (intro _) | (dsimp only))) | (apply Keeps.rest; with_reducible (first | (apply KeepsRes.next) | (assumption) | (apply plumbTakes_keeps) | (apply meanOut_keeps) | (refine forEach_keeps ?_ ?_) | (refine iteRes_keeps ?_ ?_))))

theorem execPlumbRootLockTimeout_keeps {a₀ : State} {s : State} (hk : Keeps a₀ s) : KeepsRes a₀ (execPlumbRootLockTimeout s) := by
  unfold execPlumbRootLockTimeout
  repeat' (first | (with_reducible (first | (apply KeepsRes.next) | (assumption) | (apply withPlumb_keeps) | (refine iteRes_keeps ?_ ?_) | (refine ite_keeps ?_ ?_) | split | (intro _) | (dsimp only))) | (apply Keeps.rest; with_reducible (first | (apply KeepsRes.next) | (assumption) | (apply withPlumb_keeps) | (refine iteRes_keeps ?_ ?_))))

theorem execModEnWrite_keeps {a₀ : State} {k : Port} {en : Bool} {s : State} (hk : Keeps a₀ s) : KeepsRes a₀ (execModEnWrite k en s) := by
  unfold execModEnWrite
  repeat' (first | (with_reducible (first | (apply KeepsRes.next) | (assumption) | (apply modEnSet_keeps) | (refine iteRes_keeps ?_ ?_) | (refine ite_keeps ?_ ?_) | split | (intro _) | (dsimp only))) | (apply Keeps.rest; with_reducible (first | (apply KeepsRes.next) | (assumption) | (apply modEnSet_keeps) | (refine iteRes_keeps ?_ ?_))))

theorem execModRampStart_keeps {a₀ : State} {k : Port} {s : State} (hk : Keeps a₀ s) : KeepsRes a₀ (execModRampStart k s) := by
  unfold execModRampStart
  repeat' (first | (with_reducible (first | (apply KeepsRes.next) | (assumption) | (apply setMod_keeps) | (refine iteRes_keeps ?_ ?_) | (refine ite_keeps ?_ ?_) | split | (intro _) | (dsimp only))) | (apply Keeps.rest; with_reducible (first | (apply KeepsRes.next) | (assumption) | (apply setMod_keeps) | (refine iteRes_keeps ?_ ?_))))

theorem execModOn_keeps {a₀ : State} {k : Port} {s : State} (hk : Keeps a₀ s) : KeepsRes a₀ (execModOn k s) := by
  unfold execModOn
  repeat' (first | (with_reducible (first | (apply KeepsRes.next) | (assumption) | (apply setMod_keeps) | (refine iteRes_keeps ?_ ?_) | (refine ite_keeps ?_ ?_) | split | (intro _) | (dsimp only))) | (apply Keeps.rest; with_reducible (first | (apply KeepsRes.next) | (assumption) | (apply setMod_keeps) | (refine iteRes_keeps ?_ ?_))))

theorem execModWindowEnd_keeps {a₀ : State} {k : Port} {vout : BitVec 12} {s : State} (hk : Keeps a₀ s) : KeepsRes a₀ (execModWindowEnd k vout s) := by
  unfold execModWindowEnd
  repeat' (first | (with_reducible (first | (apply KeepsRes.next) | (assumption) | (apply setMod_keeps) | (apply modLatch_keeps) | (refine iteRes_keeps ?_ ?_) | (refine ite_keeps ?_ ?_) | split | (intro _) | (dsimp only))) | (apply Keeps.rest; with_reducible (first | (apply KeepsRes.next) | (assumption) | (apply setMod_keeps) | (apply modLatch_keeps) | (refine iteRes_keeps ?_ ?_))))

theorem execModCurrentLimit_keeps {a₀ : State} {k : Port} {enter : Bool} {s : State} (hk : Keeps a₀ s) : KeepsRes a₀ (execModCurrentLimit k enter s) := by
  unfold execModCurrentLimit
  repeat' (first | (with_reducible (first | (apply KeepsRes.next) | (assumption) | (apply setMod_keeps) | (refine forEach_keeps ?_ ?_) | (apply resumeGroup_keeps) | (refine iteRes_keeps ?_ ?_) | (refine ite_keeps ?_ ?_) | split | (intro _) | (dsimp only))) | (apply Keeps.rest; with_reducible (first | (apply KeepsRes.next) | (assumption) | (apply setMod_keeps) | (refine forEach_keeps ?_ ?_) | (apply resumeGroup_keeps) | (refine iteRes_keeps ?_ ?_))))

theorem execModLimitLatch_keeps {a₀ : State} {k : Port} {s : State} (hk : Keeps a₀ s) : KeepsRes a₀ (execModLimitLatch k s) := by
  unfold execModLimitLatch
  repeat' (first | (with_reducible (first | (apply KeepsRes.next) | (assumption) | (apply modLatch_keeps) | (refine iteRes_keeps ?_ ?_) | (refine ite_keeps ?_ ?_) | split | (intro _) | (dsimp only))) | (apply Keeps.rest; with_reducible (first | (apply KeepsRes.next) | (assumption) | (apply modLatch_keeps) | (refine iteRes_keeps ?_ ?_))))

theorem execModRetry_keeps {a₀ : State} {k : Port} {s : State} (hk : Keeps a₀ s) : KeepsRes a₀ (execModRetry k s) := by
  unfold execModRetry
  repeat' (first | (with_reducible (first | (apply KeepsRes.next) | (assumption) | (apply setMod_keeps) | (refine iteRes_keeps ?_ ?_) | (refine ite_keeps ?_ ?_) | split | (intro _) | (dsimp only))) | (apply Keeps.rest; with_reducible (first | (apply KeepsRes.next) | (assumption) | (apply setMod_keeps) | (refine iteRes_keeps ?_ ?_))))

theorem execModRetriesClear_keeps {a₀ : State} {k : Port} {s : State} (hk : Keeps a₀ s) : KeepsRes a₀ (execModRetriesClear k s) := by
  unfold execModRetriesClear
  repeat' (first | (with_reducible (first | (apply KeepsRes.next) | (assumption) | (apply setMod_keeps) | (refine iteRes_keeps ?_ ?_) | (refine ite_keeps ?_ ?_) | split | (intro _) | (dsimp only))) | (apply Keeps.rest; with_reducible (first | (apply KeepsRes.next) | (assumption) | (apply setMod_keeps) | (refine iteRes_keeps ?_ ?_))))

theorem execModCtlClr_keeps {a₀ : State} {k : Port} {s : State} (hk : Keeps a₀ s) : KeepsRes a₀ (execModCtlClr k s) := by
  unfold execModCtlClr
  repeat' (first | (with_reducible (first | (apply KeepsRes.next) | (assumption) | (apply modClear_keeps) | (refine iteRes_keeps ?_ ?_) | (refine ite_keeps ?_ ?_) | split | (intro _) | (dsimp only))) | (apply Keeps.rest; with_reducible (first | (apply KeepsRes.next) | (assumption) | (apply modClear_keeps) | (refine iteRes_keeps ?_ ?_))))

theorem execVmodLoss_keeps {a₀ : State} {s : State} (hk : Keeps a₀ s) : KeepsRes a₀ (execVmodLoss s) := by
  unfold execVmodLoss
  repeat' (first | (with_reducible (first | (apply KeepsRes.next) | (assumption) | (apply withPower_keeps) | (refine forEach_keeps ?_ ?_) | (apply modOff_keeps) | (refine iteRes_keeps ?_ ?_) | (refine ite_keeps ?_ ?_) | split | (intro _) | (dsimp only))) | (apply Keeps.rest; with_reducible (first | (apply KeepsRes.next) | (assumption) | (apply withPower_keeps) | (refine forEach_keeps ?_ ?_) | (apply modOff_keeps) | (refine iteRes_keeps ?_ ?_))))

theorem execVmodReturn_keeps {a₀ : State} {s : State} (hk : Keeps a₀ s) : KeepsRes a₀ (execVmodReturn s) := by
  unfold execVmodReturn
  repeat' (first | (with_reducible (first | (apply KeepsRes.next) | (assumption) | (apply setMod_keeps) | (apply withPower_keeps) | (refine forEach_keeps ?_ ?_) | (refine iteRes_keeps ?_ ?_) | (refine ite_keeps ?_ ?_) | split | (intro _) | (dsimp only))) | (apply Keeps.rest; with_reducible (first | (apply KeepsRes.next) | (assumption) | (apply setMod_keeps) | (apply withPower_keeps) | (refine forEach_keeps ?_ ?_) | (refine iteRes_keeps ?_ ?_))))

theorem execDomainTransitionDone_keeps {a₀ : State} {d : Fin 108} {s : State} (hk : Keeps a₀ s) : KeepsRes a₀ (execDomainTransitionDone d s) := by
  unfold execDomainTransitionDone
  repeat' (first | (with_reducible (first | (apply KeepsRes.next) | (assumption) | (apply upDone_keeps) | (apply downDone_keeps) | (apply domAdvance_keeps) | (refine iteRes_keeps ?_ ?_) | (refine ite_keeps ?_ ?_) | split | (intro _) | (dsimp only))) | (apply Keeps.rest; with_reducible (first | (apply KeepsRes.next) | (assumption) | (apply upDone_keeps) | (apply downDone_keeps) | (apply domAdvance_keeps) | (refine iteRes_keeps ?_ ?_))))

theorem execMasonHartsStopped_keeps {a₀ : State} {m : Fin 8} {s : State} (hk : Keeps a₀ s) : KeepsRes a₀ (execMasonHartsStopped m s) := by
  unfold execMasonHartsStopped
  repeat' (first | (with_reducible (first | (apply KeepsRes.next) | (assumption) | (apply startDown_keeps) | (refine iteRes_keeps ?_ ?_) | (refine ite_keeps ?_ ?_) | split | (intro _) | (dsimp only))) | (apply Keeps.rest; with_reducible (first | (apply KeepsRes.next) | (assumption) | (apply startDown_keeps) | (refine iteRes_keeps ?_ ?_))))

theorem execClockChangeApply_keeps {a₀ : State} {g : Fin 64} {s : State} (hk : Keeps a₀ s) : KeepsRes a₀ (execClockChangeApply g s) := by
  unfold execClockChangeApply
  repeat' (first | (with_reducible (first | (apply KeepsRes.next) | (assumption) | (apply applyClock_keeps) | (refine iteRes_keeps ?_ ?_) | (refine ite_keeps ?_ ?_) | split | (intro _) | (dsimp only))) | (apply Keeps.rest; with_reducible (first | (apply KeepsRes.next) | (assumption) | (apply applyClock_keeps) | (refine iteRes_keeps ?_ ?_))))

theorem execButtressEntered_keeps {a₀ : State} {s : State} (hk : Keeps a₀ s) : KeepsRes a₀ (execButtressEntered s) := by
  unfold execButtressEntered
  repeat' (first | (with_reducible (first | (apply KeepsRes.next) | (assumption) | (apply withPins_keeps) | (apply withPower_keeps) | (apply forceButtress_keeps) | (refine iteRes_keeps ?_ ?_) | (refine ite_keeps ?_ ?_) | split | (intro _) | (dsimp only))) | (apply Keeps.rest; with_reducible (first | (apply KeepsRes.next) | (assumption) | (apply withPins_keeps) | (apply withPower_keeps) | (apply forceButtress_keeps) | (refine iteRes_keeps ?_ ?_))))

theorem execButtressNRise_keeps {a₀ : State} {s : State} (hk : Keeps a₀ s) : KeepsRes a₀ (execButtressNRise s) := by
  unfold execButtressNRise
  repeat' (first | (with_reducible (first | (apply KeepsRes.next) | (assumption) | (apply withPins_keeps) | (apply withPower_keeps) | (apply buttressTimer_keeps) | (refine iteRes_keeps ?_ ?_) | (refine ite_keeps ?_ ?_) | split | (intro _) | (dsimp only))) | (apply Keeps.rest; with_reducible (first | (apply KeepsRes.next) | (assumption) | (apply withPins_keeps) | (apply withPower_keeps) | (apply buttressTimer_keeps) | (refine iteRes_keeps ?_ ?_))))

theorem execButtressEnd_keeps {a₀ : State} {s : State} (hk : Keeps a₀ s) : KeepsRes a₀ (execButtressEnd s) := by
  unfold execButtressEnd
  repeat' (first | (with_reducible (first | (apply KeepsRes.next) | (assumption) | (apply withPower_keeps) | (refine forEach_keeps ?_ ?_) | (apply setGroup_keeps) | (refine iteRes_keeps ?_ ?_) | (refine ite_keeps ?_ ?_) | split | (intro _) | (dsimp only))) | (apply Keeps.rest; with_reducible (first | (apply KeepsRes.next) | (assumption) | (apply withPower_keeps) | (refine forEach_keeps ?_ ?_) | (apply setGroup_keeps) | (refine iteRes_keeps ?_ ?_))))

theorem execRegulatorSettled_keeps {a₀ : State} {t : Tower} {s : State} (hk : Keeps a₀ s) : KeepsRes a₀ (execRegulatorSettled t s) := by
  unfold execRegulatorSettled
  repeat' (first | (with_reducible (first | (apply KeepsRes.next) | (assumption) | (apply buttressTimer_keeps) | (refine forEach_keeps ?_ ?_) | (apply modTower_keeps) | (apply setGroup_keeps) | (refine iteRes_keeps ?_ ?_) | (refine ite_keeps ?_ ?_) | split | (intro _) | (dsimp only))) | (apply Keeps.rest; with_reducible (first | (apply KeepsRes.next) | (assumption) | (apply buttressTimer_keeps) | (refine forEach_keeps ?_ ?_) | (apply modTower_keeps) | (apply setGroup_keeps) | (refine iteRes_keeps ?_ ?_))))

theorem execAvsSilent_keeps {a₀ : State} {t : Tower} {s : State} (hk : Keeps a₀ s) : KeepsRes a₀ (execAvsSilent t s) := by
  unfold execAvsSilent
  repeat' (first | (with_reducible (first | (apply KeepsRes.next) | (assumption) | (apply forceButtress_keeps) | (apply modTower_keeps) | (refine iteRes_keeps ?_ ?_) | (refine ite_keeps ?_ ?_) | split | (intro _) | (dsimp only))) | (apply Keeps.rest; with_reducible (first | (apply KeepsRes.next) | (assumption) | (apply forceButtress_keeps) | (apply modTower_keeps) | (refine iteRes_keeps ?_ ?_))))

theorem execPowerInterval_keeps {a₀ : State} {m : PowerMeas} {s : State} (hk : Keeps a₀ s) : KeepsRes a₀ (execPowerInterval m s) := by
  unfold execPowerInterval
  repeat' (first | (with_reducible (first | (apply KeepsRes.next) | (assumption) | (apply withPower_keeps) | (apply buttressTimer_keeps) | (refine forEach_keeps ?_ ?_) | (apply modTower_keeps) | (refine iteRes_keeps ?_ ?_) | (refine ite_keeps ?_ ?_) | split | (intro _) | (dsimp only))) | (apply Keeps.rest; with_reducible (first | (apply KeepsRes.next) | (assumption) | (apply withPower_keeps) | (apply buttressTimer_keeps) | (refine forEach_keeps ?_ ?_) | (apply modTower_keeps) | (refine iteRes_keeps ?_ ?_))))

theorem execGroupFreqStep_keeps {a₀ : State} {p : List ℕ} {s : State} (hk : Keeps a₀ s) : KeepsRes a₀ (execGroupFreqStep p s) := by
  unfold execGroupFreqStep
  repeat' (first | (with_reducible (first | (apply KeepsRes.next) | (assumption) | (refine forEach_keeps ?_ ?_) | (apply groupRetarget_keeps) | (apply setGroup_keeps) | (refine iteRes_keeps ?_ ?_) | (refine ite_keeps ?_ ?_) | split | (intro _) | (dsimp only))) | (apply Keeps.rest; with_reducible (first | (apply KeepsRes.next) | (assumption) | (refine forEach_keeps ?_ ?_) | (apply groupRetarget_keeps) | (apply setGroup_keeps) | (refine iteRes_keeps ?_ ?_))))

theorem execThermalTrip_keeps {a₀ : State} {sensor : Fin 74} {s : State} (hk : Keeps a₀ s) : KeepsRes a₀ (execThermalTrip sensor s) := by
  unfold execThermalTrip
  repeat' (first | (with_reducible (first | (apply KeepsRes.next) | (assumption) | (apply withPower_keeps) | (apply forceButtress_keeps) | (refine iteRes_keeps ?_ ?_) | (refine ite_keeps ?_ ?_) | split | (intro _) | (dsimp only))) | (apply Keeps.rest; with_reducible (first | (apply KeepsRes.next) | (assumption) | (apply withPower_keeps) | (apply forceButtress_keeps) | (refine iteRes_keeps ?_ ?_))))

theorem execThermalShutdown_keeps {a₀ : State} {s : State} (hk : Keeps a₀ s) : KeepsRes a₀ (execThermalShutdown s) := by
  unfold execThermalShutdown
  repeat' (first | (with_reducible (first | (apply KeepsRes.next) | (assumption) | (apply withRst_keeps) | (apply rasTo_keeps) | (apply portStop_keeps) | (apply withKey_keeps) | (refine forEach_keeps ?_ ?_) | (apply setDom_keeps) | (apply modCore_keeps) | (apply modOff_keeps) | (refine iteRes_keeps ?_ ?_) | (refine ite_keeps ?_ ?_) | split | (intro _) | (dsimp only))) | (apply Keeps.rest; with_reducible (first | (apply KeepsRes.next) | (assumption) | (apply withRst_keeps) | (apply rasTo_keeps) | (apply portStop_keeps) | (apply withKey_keeps) | (refine forEach_keeps ?_ ?_) | (apply setDom_keeps) | (apply modCore_keeps) | (apply modOff_keeps) | (refine iteRes_keeps ?_ ?_))))

theorem execCoolantStale_keeps {a₀ : State} {s : State} (hk : Keeps a₀ s) : KeepsRes a₀ (execCoolantStale s) := by
  unfold execCoolantStale
  repeat' (first | (with_reducible (first | (apply KeepsRes.next) | (assumption) | (apply withPower_keeps) | (refine iteRes_keeps ?_ ?_) | (refine ite_keeps ?_ ?_) | split | (intro _) | (dsimp only))) | (apply Keeps.rest; with_reducible (first | (apply KeepsRes.next) | (assumption) | (apply withPower_keeps) | (refine iteRes_keeps ?_ ?_))))

theorem execQuarryKindChange_keeps {a₀ : State} {t : Tower} {u : Fin 8} {s : State} (hk : Keeps a₀ s) : KeepsRes a₀ (execQuarryKindChange t u s) := by
  unfold execQuarryKindChange
  repeat' (first | (with_reducible (first | (apply KeepsRes.next) | (assumption) | (apply halfFollow_keeps) | (apply homeDropAll_keeps) | (apply freshWindow_keeps) | (apply modTower_keeps) | (refine iteRes_keeps ?_ ?_) | (refine ite_keeps ?_ ?_) | split | (intro _) | (dsimp only))) | (apply Keeps.rest; with_reducible (first | (apply KeepsRes.next) | (assumption) | (apply halfFollow_keeps) | (apply homeDropAll_keeps) | (apply freshWindow_keeps) | (apply modTower_keeps) | (refine iteRes_keeps ?_ ?_))))

theorem execQuarryEccError_keeps {a₀ : State} {t : Tower} {u : Fin 8} {double : Bool} {line : ℕ} {s : State} (hk : Keeps a₀ s) : KeepsRes a₀ (execQuarryEccError t u double line s) := by
  unfold execQuarryEccError
  repeat' (first | (with_reducible (first | (apply KeepsRes.next) | (assumption) | (apply halfFollow_keeps) | (apply setTower_keeps) | (apply retireQuarry_keeps) | (refine iteRes_keeps ?_ ?_) | (refine ite_keeps ?_ ?_) | split | (intro _) | (dsimp only))) | (apply Keeps.rest; with_reducible (first | (apply KeepsRes.next) | (assumption) | (apply halfFollow_keeps) | (apply setTower_keeps) | (apply retireQuarry_keeps) | (refine iteRes_keeps ?_ ?_))))

theorem execRlcRead_keeps {a₀ : State} {t : Tower} {rq : RlcUser} {addr : BitVec 64} {ctx : CtxId} {nc : Bool} {ext : Option (BitVec 512)} {ext2 : Option (BitVec 512)} {s : State} (hk : Keeps a₀ s) : KeepsRes a₀ (execRlcRead t rq addr ctx nc ext ext2 s) := by
  unfold execRlcRead
  repeat' (first | (with_reducible (first | (apply KeepsRes.next) | (assumption) | (apply rlcRead_keeps) | (refine rlcRead_keeps_of (by assumption) ?_) | (apply broughtLine_keeps) | (refine broughtLine_keeps_of (by assumption) ?_) | (refine iteRes_keeps ?_ ?_) | (refine ite_keeps ?_ ?_) | split | (intro _) | (dsimp only))) | (apply Keeps.rest; with_reducible (first | (apply KeepsRes.next) | (assumption) | (apply rlcRead_keeps) | (refine rlcRead_keeps_of (by assumption) ?_) | (apply broughtLine_keeps) | (refine broughtLine_keeps_of (by assumption) ?_) | (refine iteRes_keeps ?_ ?_))) | (with_reducible (first | (injections; subst_vars) | (rename_i heq; revert heq; split <;> (intro heq; first | (cases heq) | skip)))))

theorem execRlcWrite_keeps {a₀ : State} {t : Tower} {rq : RlcUser} {addr : BitVec 64} {ctx : CtxId} {nc : Bool} {off : ℕ} {data : List Byte} {ext : Option (BitVec 512)} {s : State} (hk : Keeps a₀ s) : KeepsRes a₀ (execRlcWrite t rq addr ctx nc off data ext s) := by
  unfold execRlcWrite
  repeat' (first | (with_reducible (first | (apply KeepsRes.next) | (assumption) | (apply broughtLine_keeps) | (refine broughtLine_keeps_of (by assumption) ?_) | (apply rlcWrite_keeps) | (refine rlcWrite_keeps_of (by assumption) ?_) | (refine iteRes_keeps ?_ ?_) | (refine ite_keeps ?_ ?_) | split | (intro _) | (dsimp only))) | (apply Keeps.rest; with_reducible (first | (apply KeepsRes.next) | (assumption) | (apply broughtLine_keeps) | (refine broughtLine_keeps_of (by assumption) ?_) | (apply rlcWrite_keeps) | (refine rlcWrite_keeps_of (by assumption) ?_) | (refine iteRes_keeps ?_ ?_))) | (with_reducible (first | (injections; subst_vars) | (rename_i heq; revert heq; split <;> (intro heq; first | (cases heq) | skip)))))

theorem execReleaseFlush_keeps {a₀ : State} {x : CtxId} {s : State} (hk : Keeps a₀ s) : KeepsRes a₀ (execReleaseFlush x s) := by
  unfold execReleaseFlush
  repeat' (first | (with_reducible (first | (apply KeepsRes.next) | (assumption) | (apply flushPass_keeps) | (refine iteRes_keeps ?_ ?_) | (refine ite_keeps ?_ ?_) | split | (intro _) | (dsimp only))) | (apply Keeps.rest; with_reducible (first | (apply KeepsRes.next) | (assumption) | (apply flushPass_keeps) | (refine iteRes_keeps ?_ ?_))))

theorem execReleaseFlushDone_keeps {a₀ : State} {x : CtxId} {s : State} (hk : Keeps a₀ s) : KeepsRes a₀ (execReleaseFlushDone x s) := by
  unfold execReleaseFlushDone
  repeat' (first | (with_reducible (first | (apply KeepsRes.next) | (assumption) | (apply flushPass_keeps) | (refine iteRes_keeps ?_ ?_) | (refine ite_keeps ?_ ?_) | split | (intro _) | (dsimp only))) | (apply Keeps.rest; with_reducible (first | (apply KeepsRes.next) | (assumption) | (apply flushPass_keeps) | (refine iteRes_keeps ?_ ?_))))

theorem execRlcEccError_keeps {a₀ : State} {t : Tower} {way : Fin 16} {double : Bool} {line : Option (BitVec 64)} {s : State} (hk : Keeps a₀ s) : KeepsRes a₀ (execRlcEccError t way double line s) := by
  unfold execRlcEccError
  repeat' (first | (with_reducible (first | (apply KeepsRes.next) | (assumption) | (apply setTower_keeps) | (apply guiltyAll_keeps) | (apply retireWay_keeps) | (refine iteRes_keeps ?_ ?_) | (refine ite_keeps ?_ ?_) | split | (intro _) | (dsimp only))) | (apply Keeps.rest; with_reducible (first | (apply KeepsRes.next) | (assumption) | (apply setTower_keeps) | (apply guiltyAll_keeps) | (apply retireWay_keeps) | (refine iteRes_keeps ?_ ?_))))

theorem execMsixUnmask_keeps {a₀ : State} {v : Fin 2048} {s : State} (hk : Keeps a₀ s) : KeepsRes a₀ (execMsixUnmask v s) := by
  unfold execMsixUnmask
  repeat' (first | (with_reducible (first | (apply KeepsRes.next) | (assumption) | (apply vecSet_keeps) | (refine iteRes_keeps ?_ ?_) | (refine ite_keeps ?_ ?_) | split | (intro _) | (dsimp only))) | (apply Keeps.rest; with_reducible (first | (apply KeepsRes.next) | (assumption) | (apply vecSet_keeps) | (refine iteRes_keeps ?_ ?_))))

theorem execRegisterWrite_keeps {a₀ : State} {t : RegTarget} {size : ℕ} {v : BitVec 64} {s : State} (hk : Keeps a₀ s) : KeepsRes a₀ (execRegisterWrite t size v s) := by
  unfold execRegisterWrite
  repeat' (first | (with_reducible (first | (apply KeepsRes.next) | (assumption) | (apply keyWrite_keeps) | (apply hubRegWrite_keeps) | (apply mboxWrite_keeps) | (refine iteRes_keeps ?_ ?_) | (refine ite_keeps ?_ ?_) | split | (intro _) | (dsimp only))) | (apply Keeps.rest; with_reducible (first | (apply KeepsRes.next) | (assumption) | (apply keyWrite_keeps) | (apply hubRegWrite_keeps) | (apply mboxWrite_keeps) | (refine iteRes_keeps ?_ ?_))))

theorem execOutboundCompletion_keeps {a₀ : State} {id : ℕ} {o : OutOutcome} {s : State} (hk : Keeps a₀ s) : KeepsRes a₀ (execOutboundCompletion id o s) := by
  unfold execOutboundCompletion
  repeat' (first | (with_reducible (first | (apply KeepsRes.next) | (assumption) | (apply aerSet_keeps) | (apply completeUser_keeps) | (apply withHost_keeps) | (refine iteRes_keeps ?_ ?_) | (refine ite_keeps ?_ ?_) | split | (intro _) | (dsimp only))) | (apply Keeps.rest; with_reducible (first | (apply KeepsRes.next) | (assumption) | (apply aerSet_keeps) | (apply completeUser_keeps) | (apply withHost_keeps) | (refine iteRes_keeps ?_ ?_))))

theorem execPcieLinkReset_keeps {a₀ : State} {s : State} (hk : Keeps a₀ s) : KeepsRes a₀ (execPcieLinkReset s) := by
  unfold execPcieLinkReset
  repeat' (first | (with_reducible (first | (apply KeepsRes.next) | (assumption) | (apply pcieReset_keeps) | (refine iteRes_keeps ?_ ?_) | (refine ite_keeps ?_ ?_) | split | (intro _) | (dsimp only))) | (apply Keeps.rest; with_reducible (first | (apply KeepsRes.next) | (assumption) | (apply pcieReset_keeps) | (refine iteRes_keeps ?_ ?_))))

theorem execPcieLinkUp_keeps {a₀ : State} {s : State} (hk : Keeps a₀ s) : KeepsRes a₀ (execPcieLinkUp s) := by
  unfold execPcieLinkUp
  repeat' (first | (with_reducible (first | (apply KeepsRes.next) | (assumption) | (apply withHost_keeps) | (refine iteRes_keeps ?_ ?_) | (refine ite_keeps ?_ ?_) | split | (intro _) | (dsimp only))) | (apply Keeps.rest; with_reducible (first | (apply KeepsRes.next) | (assumption) | (apply withHost_keeps) | (refine iteRes_keeps ?_ ?_))))

theorem execPcieConfigWrite_keeps {a₀ : State} {a : PcieCmd} {b : PcieDev} {c : PcieCap} {d : PcieAer} {s : State} (hk : Keeps a₀ s) : KeepsRes a₀ (execPcieConfigWrite a b c d s) := by
  unfold execPcieConfigWrite
  repeat' (first | (with_reducible (first | (apply KeepsRes.next) | (assumption) | (apply sendPending_keeps) | (apply withHost_keeps) | (refine iteRes_keeps ?_ ?_) | (refine ite_keeps ?_ ?_) | split | (intro _) | (dsimp only))) | (apply Keeps.rest; with_reducible (first | (apply KeepsRes.next) | (assumption) | (apply sendPending_keeps) | (apply withHost_keeps) | (refine iteRes_keeps ?_ ?_))))

theorem execMasonAccess_keeps {a₀ : State} {addr : ℕ} {size : ℕ} {k : MasonOp} {wr : List Byte} {s : State} (hk : Keeps a₀ s) : KeepsRes a₀ (execMasonAccess addr size k wr s) := by
  unfold execMasonAccess
  repeat' (first | (with_reducible (first | (apply KeepsRes.next) | (assumption) | (apply masonAnswer_keeps) | (apply masonStore_keeps) | (apply masonHub_keeps) | (apply masonFaults_keeps) | (apply masonLost_keeps) | (apply masonLoad_keeps) | (apply freshBytes_keeps) | (refine freshBytes_keeps_of (by assumption) ?_) | (apply withHost_keeps) | (refine iteRes_keeps ?_ ?_) | (refine ite_keeps ?_ ?_) | split | (intro _) | (dsimp only))) | (apply Keeps.rest; with_reducible (first | (apply KeepsRes.next) | (assumption) | (apply masonAnswer_keeps) | (apply masonStore_keeps) | (apply masonHub_keeps) | (apply masonFaults_keeps) | (apply masonLost_keeps) | (apply masonLoad_keeps) | (apply freshBytes_keeps) | (refine freshBytes_keeps_of (by assumption) ?_) | (apply withHost_keeps) | (refine iteRes_keeps ?_ ?_))))

end Sys2Proof.Machine
end

