-- ==== Sys2Proof/Laws/Queues.lean ====
section
/-!
SUPPORT. What the shared operations on queues, nodes and packets do: the change of one node or packet, and the guilt of a queue.
-/

namespace Sys2Proof.Machine

theorem setsQueue_setQueue (s : State) (q : Nat) (k : Queue) : SetsQueue s (setQueue s q k) q k :=
  ⟨rfl, tget_tset_self q k _, fun _ h => tget_tset_ne k h _⟩

theorem setsCtx_setCtx (s : State) (x : Nat) (k : Ctx) : SetsCtx s (setCtx s x k) x k :=
  ⟨rfl, tget_tset_self x k _, fun _ h => tget_tset_ne k h _⟩

/-- A change of every node of the running entry of a queue. -/
def mapNodes (s : State) (q : Nat) (f : NodeRun → NodeRun) : State :=
  modQueue s q fun k => { k with run := k.run.map fun r => { r with nodes := r.nodes.map f } }

theorem find_map_idx {f : NodeRun → NodeRun} (hf : ∀ n, (f n).idx = n.idx) (i : Nat) : ∀ l : List NodeRun,
    (l.map f).find? (fun n => decide (n.idx = i)) = (l.find? fun n => decide (n.idx = i)).map f
  | [] => rfl
  | n :: l => by
    rw [List.map_cons, List.find?_cons, List.find?_cons, hf n]
    split
    · rfl
    · exact find_map_idx hf i l

theorem nodeOf_mapNodes (s : State) (q : Nat) {f : NodeRun → NodeRun} (hf : ∀ n, (f n).idx = n.idx) (i : Nat) :
    nodeOf (mapNodes s q f) q i = (nodeOf s q i).map f := by
  unfold nodeOf mapNodes
  rw [getQueue_modQueue_self]
  cases (getQueue s q).run with
  | none => rfl
  | some r => exact find_map_idx hf i r.nodes

theorem nodeOf_idx {s : State} {q i : Nat} {n : NodeRun} (h : nodeOf s q i = some n) : n.idx = i := by
  unfold nodeOf at h
  cases hr : (getQueue s q).run with
  | none => rw [hr] at h; cases h
  | some r => rw [hr] at h; simpa using List.find?_some h

/-- One node of the entry of a queue becomes `n'`. -/
theorem nodeBecomes_mapNodes {s : State} {q node : Nat} {f : NodeRun → NodeRun} {n n' : NodeRun} (hn : nodeOf s q node = some n)
    (hf : ∀ m, (f m).idx = m.idx) (h1 : f n = n') (h2 : ∀ m, m.idx ≠ node → f m = m) : NodeBecomes s (mapNodes s q f) q node n' := by
  refine ⟨rfl, ?_, ?_, ?_, ?_⟩
  · unfold mapNodes
    rw [getQueue_modQueue_self]
  · rw [nodeOf_mapNodes s q hf, hn, Option.map_some, h1]
  · intro i hi
    rw [nodeOf_mapNodes s q hf]
    cases hm : nodeOf s q i with
    | none => rfl
    | some m => rw [Option.map_some, h2 m (by rw [nodeOf_idx hm]; exact hi)]
  · intro d hd
    exact tget_tset_ne _ hd _

theorem modNode_eq (s : State) (q node : Nat) (f : NodeRun → NodeRun) :
    modNode s q node f = mapNodes s q fun n => if n.idx = node then f n else n := rfl

theorem nodeBecomes_modNode {s : State} {q node : Nat} {f : NodeRun → NodeRun} {n : NodeRun} (hn : nodeOf s q node = some n)
    (hf : ∀ m, (f m).idx = m.idx) : NodeBecomes s (modNode s q node f) q node (f n) := by
  rw [modNode_eq]
  refine nodeBecomes_mapNodes hn (fun m => ?_) (if_pos (nodeOf_idx hn)) fun m hm => if_neg hm
  split
  · exact hf m
  · rfl

theorem modPkt_eq (s : State) (q node off : Nat) (f : PktRun → PktRun) :
    modPkt s q node off f = mapNodes s q fun n =>
      if n.idx = node then { n with pkts := n.pkts.map fun p => if p.off = off then f p else p } else n := rfl

theorem find_map_off {f : PktRun → PktRun} (hf : ∀ n, (f n).off = n.off) (i : Nat) : ∀ l : List PktRun,
    (l.map f).find? (fun n => decide (n.off = i)) = (l.find? fun n => decide (n.off = i)).map f
  | [] => rfl
  | n :: l => by
    rw [List.map_cons, List.find?_cons, List.find?_cons, hf n]
    split
    · rfl
    · exact find_map_off hf i l

/-- The stage of one packet changes. -/
theorem packetBecomes_modPkt (s : State) (q node off : Nat) (st : PktSt) :
    PacketBecomes s (modPkt s q node off fun p => { p with st := st }) q node off st := by
  have key : ∀ n f, pktOf (modPkt s q node off fun p => { p with st := st }) q n f =
      (pktOf s q n f).map fun p => if n = node ∧ p.off = off then { p with st := st } else p := by
    intro n f
    unfold pktOf
    rw [modPkt_eq, nodeOf_mapNodes s q (fun m => by split <;> rfl)]
    cases hm : nodeOf s q n with
    | none => rfl
    | some m =>
      simp only [Option.map_some, Option.bind_some]
      by_cases h : m.idx = node
      · rw [if_pos h, find_map_off (f := fun p => if p.off = off then { p with st := st } else p) (fun p => by split <;> rfl)]
        have hn : n = node := (nodeOf_idx hm).symm.trans h
        simp [hn]
      · rw [if_neg h]
        have hn : n ≠ node := fun e => h ((nodeOf_idx hm).trans e)
        simp [hn]
  refine ⟨rfl, ?_, ?_, ?_, ?_⟩
  · unfold modPkt
    rw [getQueue_modQueue_self]
  · rw [key]
    cases hp : pktOf s q node off with
    | none => rfl
    | some p =>
      have : p.off = off := by
        unfold pktOf at hp
        cases hm : nodeOf s q node with
        | none => rw [hm] at hp; cases hp
        | some m => rw [hm] at hp; simpa using List.find?_some hp
      simp [this]
  · intro n f hnf
    rw [key]
    cases hp : pktOf s q n f with
    | none => rfl
    | some p =>
      have : p.off = f := by
        unfold pktOf at hp
        cases hm : nodeOf s q n with
        | none => rw [hm] at hp; cases hp
        | some m => rw [hm] at hp; simpa using List.find?_some hp
      rw [Option.map_some, if_neg (by rw [this]; exact hnf)]
  · intro d hd
    exact tget_tset_ne _ hd _

theorem performed_becomes {s : State} {q node off : Nat} {c : Code} (h : c ≠ St.migratePending) :
    PacketBecomes s (performed s q node off c) q node off (.performed c) := by
  unfold performed
  rw [if_neg h]
  exact packetBecomes_modPkt s q node off _

theorem onIssued_of {s : State} {q node off : Nat} {op : BitVec 8} {f : PktRun → State} {p : PktRun}
    (h : PacketIs s q node off op .issued p) : onIssued s q node off op f = .next (f p) := by
  unfold onIssued
  rw [h.found]
  dsimp only
  rw [if_pos ⟨h.op, h.stage⟩]

/-! ## The guilt of a queue -/

/-- Queues and memory stand. -/
structure KeepsQueues (s t : State) : Prop where
  queues : t.queues = s.queues
  mem : t.mem = s.mem

theorem KeepsQueues.refl (s : State) : KeepsQueues s s := ⟨rfl, rfl⟩
theorem KeepsQueues.trans {a s t : State} (h : KeepsQueues a s) (g : KeepsQueues s t) : KeepsQueues a t :=
  ⟨g.queues.trans h.queues, g.mem.trans h.mem⟩

theorem forEach_keepsQueues {α : Type} {f : State → α → State} (hf : ∀ s x, KeepsQueues s (f s x)) :
    ∀ (l : List α) (s : State), KeepsQueues s (forEach s l f)
  | [], s => KeepsQueues.refl s
  | x :: l, s => (hf s x).trans (forEach_keepsQueues hf l (f s x))

theorem dropGang_keepsQueues (s : State) (x : Gang) : KeepsQueues s (dropGang s x) := by
  unfold dropGang
  refine KeepsQueues.trans (s := { freeSlots s x with gangs := (freeSlots s x).gangs.filter fun y => y.id ≠ x.id }) ⟨rfl, rfl⟩ ?_
  apply forEach_keepsQueues
  exact fun _ _ => ⟨rfl, rfl⟩

theorem stopGang_keepsQueues (s : State) (x : Gang) : KeepsQueues s (stopGang s x) := by
  unfold stopGang
  dsimp only
  split
  · exact dropGang_keepsQueues s x
  · generalize hs : forEach s (x.cores.filter fun c => !holdsKernel (getCore s c.2)) (fun s c => modCore s c.2 coreFreed) = s1
    have h1 : KeepsQueues s s1 := by
      subst hs
      apply forEach_keepsQueues
      exact fun _ _ => ⟨rfl, rfl⟩
    refine h1.trans (KeepsQueues.trans (s := setGang s1 { x with st := .stopped, cores := x.cores.filter fun c => holdsKernel (getCore s c.2) })
      ⟨rfl, rfl⟩ ?_)
    apply forEach_keepsQueues
    exact fun _ _ => ⟨rfl, rfl⟩

/-- A queue that does not yet reset becomes GUILTY. -/
theorem guilty_turns {s : State} {q : Nat} {code : Code} {f : Option EntryFault} {b : Bool} (h : (getQueue s q).resetting = false) :
    TurnsGuilty s (guilty s q code f b) q code f := by
  unfold guilty
  dsimp only
  rw [if_neg (by rw [h]; decide)]
  generalize hk : ({ getQueue s q with guilty := true, resetting := true, cause := code, run := (getQueue s q).run.map fun r =>
    { r with fault := f, checkFailed := b } } : Queue) = k'
  generalize hs : setQueue s q k' = s0
  generalize h1 : forEach s0 (s0.pools.map Prod.fst) (fun s p => dropPoolReqs s p q) = s1
  generalize h2 : forEach s1 (s1.gangs.filter fun x => x.queue = q) stopGang = s2
  have e : KeepsQueues s0 s2 := by
    have e1 : KeepsQueues s0 s1 := by
      subst h1
      apply forEach_keepsQueues
      exact fun _ _ => ⟨rfl, rfl⟩
    subst h2
    exact e1.trans (forEach_keepsQueues stopGang_keepsQueues _ _)
  have hq : getQueue s2 q = k' := by
    rw [getQueue, e.queues]
    subst hs
    exact tget_tset_self q k' _
  have hr : k'.run.map EntryRun.fault = (getQueue s q).run.map fun _ => f := by
    subst hk
    cases (getQueue s q).run <;> rfl
  refine ⟨?_, ?_, ?_, ?_, ?_⟩
  · rw [getQueue_modQueue_self, hq]
    subst hk
    exact ⟨rfl, rfl, rfl⟩
  · rw [getQueue_modQueue_self, hq]
    subst hk
    exact ⟨rfl, rfl, rfl⟩
  · rw [getQueue_modQueue_self, hq, ← hr]
    cases k'.run <;> rfl
  · intro d hd
    refine (tget_tset_ne _ hd _).trans ?_
    rw [e.queues]
    subst hs
    exact tget_tset_ne k' hd _
  · show s2.mem = s.mem
    rw [e.mem]
    subst hs
    rfl

/-! ## What holds a packet back -/

theorem slice_length (bs : List Byte) (o n : Nat) : (slice bs o n).length = n := by
  unfold slice; simp

theorem fieldLe_lt (bs : List Byte) (o n : Nat) : fieldLe bs o n < 256 ^ n := by
  unfold fieldLe
  have := leNat_lt (slice bs o n)
  rwa [slice_length] at this

theorem waits_iff (n : NodeRun) (p : List Byte) : waitsMet n p = true ↔ (∀ i, bt (phWait p) i = true → bt n.posted i = true) ∧ (phBar p = true → ∀ x ∈ n.pkts, x.st = .done) := by
  unfold waitsMet pktsDone
  rw [Bool.and_eq_true, decide_eq_true_eq]
  have h1 : (phWait p &&& ~~~ n.posted = 0) ↔ ∀ i, bt (phWait p) i = true → bt n.posted i = true := by
    constructor
    · intro h i hi
      have := congrArg (fun x : BitVec 32 => x.getLsbD i) h
      unfold bt at *
      by_cases hlt : i < 32
      · simp [hlt] at this
        have hi' : (phWait p)[i] = true := by simpa [BitVec.getLsbD_eq_getElem hlt] using hi
        rw [BitVec.getLsbD_eq_getElem hlt]
        exact this hi'
      · rw [BitVec.getLsbD_of_ge _ _ (by omega)] at hi; cases hi
    · intro h
      apply BitVec.eq_of_getLsbD_eq
      intro i hi
      have := h i
      unfold bt at this
      simp only [BitVec.getLsbD_and, BitVec.getLsbD_not, hi, decide_true, Bool.true_and]
      cases h1 : (phWait p).getLsbD i
      · simp
      · rw [this h1]; simp
  rw [h1]
  cases phBar p <;> simp

def dueOf (s : State) (e : EntryRun) (n : NodeRun) (p : List Byte) : Bool := match releaseOf e n p with
            | none => true
            | some t => decide (t.toNat ≤ s.plumb.count.toNat)
theorem due_iff (s : State) (e : EntryRun) (n : NodeRun) (p : List Byte) : dueOf s e n p = true ↔ (phTimed p = true → phAt p ≤ s.plumb.count.toNat) ∧
   (enTimed e.raw = true → (if enKind e.raw = 1 then enAt e.raw else (enAt e.raw + n.atOff.toNat) % 2 ^ 64) ≤ s.plumb.count.toNat) := by
  unfold dueOf releaseOf
  have h1 : phAt p < 2 ^ 64 := fieldLe_lt p 8 8
  have h2 : enAt e.raw < 2 ^ 64 := fieldLe_lt e.raw 48 8
  have h3 : (if enKind e.raw = 1 then enAt e.raw else (enAt e.raw + n.atOff.toNat) % 2 ^ 64) < 2 ^ 64 := by
    split
    · exact h2
    · exact Nat.mod_lt _ (by decide)
  generalize (if enKind e.raw = 1 then enAt e.raw else (enAt e.raw + n.atOff.toNat) % 2 ^ 64) = z at *
  generalize phAt p = y at *
  cases phTimed p <;> cases enTimed e.raw
  · simp
  · have h3' : z % 18446744073709551616 = z := Nat.mod_eq_of_lt h3
    simp [h3']
  · have h1' : y % 18446744073709551616 = y := Nat.mod_eq_of_lt h1
    simp [h1']
  · have h3' : max y z % 18446744073709551616 = max y z := Nat.mod_eq_of_lt (show max y z < 2 ^ 64 by omega)
    simp [h3']

theorem may_iff (s : State) (e : EntryRun) (n : NodeRun) (p : List Byte) : MayIssue s e n p ↔ (waitsMet n p && dueOf s e n p) = true := by
  rw [Bool.and_eq_true, waits_iff, due_iff]
  exact ⟨fun h => ⟨⟨h.slots, h.bar⟩, h.own, h.entry⟩, fun h => ⟨h.1.1, h.1.2, h.2.1, h.2.2⟩⟩

end Sys2Proof.Machine
end

