-- ==== Sys2Proof/Laws/Routes.lean ====
section
/-!
SUPPORT. The routes between dies depend on the links alone.
-/

namespace Sys2Proof.Machine

variable {s t : State}

theorem hopUp_congr (h : t.lintel = s.lintel) (a b : Nat) : hopUp t a b = hopUp s a b := by
  unfold hopUp getLintel
  rw [h]

theorem routeUp_congr (h : t.lintel = s.lintel) : ∀ p : List Nat, routeUp t p = routeUp s p
  | [] => rfl
  | [_] => rfl
  | a :: b :: l => by
    unfold routeUp
    rw [hopUp_congr h, routeUp_congr h (b :: l)]

theorem widen_congr (h : t.lintel = s.lintel) (seen : List Nat) (front : List (List Nat)) : widen t seen front = widen s seen front := by
  unfold widen
  simp only [hopUp_congr h]

theorem shortest_congr (h : t.lintel = s.lintel) (b : Nat) : ∀ (n : Nat) (seen : List Nat) (front : List (List Nat)),
    shortest t b n seen front = shortest s b n seen front
  | 0, _, _ => rfl
  | n + 1, seen, front => by
    unfold shortest
    simp only [widen_congr h, shortest_congr h b n]

/-- States with the same links have the same routes. -/
theorem dieRoute_congr (h : t.lintel = s.lintel) (a b : Nat) : dieRoute t a b = dieRoute s a b := by
  have hu : routeUp t = routeUp s := funext (routeUp_congr h)
  unfold dieRoute hubRoute shortestRoute
  simp only [hu, shortest_congr h]

theorem dieCode_congr (h : t.lintel = s.lintel) (a b : Nat) : dieCode t a b = dieCode s a b := by
  unfold dieCode routed
  rw [dieRoute_congr h]

theorem routeHolds_congr (h : t.lintel = s.lintel) (a b : Nat) : routeHolds t a b = routeHolds s a b := by
  unfold routeHolds getLintel
  rw [dieRoute_congr h, h]

/-- Traffic within a die needs no link. -/
theorem dieCode_self (s : State) (a : Nat) : dieCode s a a = St.ok := by
  unfold dieCode routed dieRoute
  rw [if_pos rfl]
  rfl

end Sys2Proof.Machine
end

