-- ==== Sys2Proof/Laws/Lines.lean ====
section
/-!
SUPPORT. Hub accesses of many lines: where a context translates nothing, and where an identity range maps plain memory; and the
length of a save image.
-/

namespace Sys2Proof.Machine
/-- The identity range of the first 256 MiB, for every access. -/
def lbId : LbEntry := { ctx := 0, idx := 0, entry := BitVec.ofNat 256 (0xFFFF * 2 ^ 157 + 0xBD), desc := 0, mdc := 0, pages := [] }

theorem probe_bad {x : Nat} {s : State} {n : Need} (h0 : s.hubX = []) (h : ∀ va, ∃ f, hubXlate s x va n false = (f, s) ∧ ∀ a b c d, f ≠ .page a b c d) :
    ∀ l : List (BitVec 64 × Need), (∀ p ∈ l, p.2 = n) → hubProbe x l s = (false, s)
  | [], _ => rfl
  | (va, m) :: t, hl => by
    have hm : m = n := hl (va, m) (List.mem_cons_self ..)
    subst hm
    obtain ⟨f, hf, hp⟩ := h va
    unfold hubProbe
    rw [h0, hf]
    have ht := probe_bad h0 h t (fun p hp => hl p (List.mem_cons_of_mem _ hp))
    cases f with
    | page a b c d => exact absurd rfl (hp a b c d)
    | _ => exact ht

theorem lines_need {va : BitVec 64} {n : Nat} {m : Need} : ∀ p ∈ linesOf va n m, p.2 = m := by
  intro p hp
  unfold linesOf at hp
  obtain ⟨q, -, rfl⟩ := List.mem_map.1 hp
  rfl

theorem xlate_off {s : State} {x : Nat} {va : BitVec 64} {n : Need} (h0 : s.hubX = []) (h1 : s.hlb = []) (h2 : xctlEn (getCtx s x) = false) :
    hubXlate s x va n false = (.fault St.xlateMiss (BitVec.ofNat 3 1), s) := by
  unfold hubXlate hubEntry
  rw [h0, h1]
  simp only [List.find?_nil, lbFind, searchFill, h2, search]
  rfl

theorem write_off {s : State} {x src : Nat} {va : BitVec 64} {n : Need} {bs : List Byte} {r : Reply} (h0 : s.hubX = []) (h1 : s.hlb = [])
    (h2 : xctlEn (getCtx s x) = false) (hb : bs ≠ []) : ∃ b t, hubWrite s x src va n bs r = ⟨St.xlateMiss, b, t⟩ := by
  unfold hubWrite pieces
  rw [if_neg (by intro h; exact hb (List.length_eq_zero_iff.1 h))]
  unfold hubWriteLoop hubAccess
  rw [xlate_off h0 h1 h2]
  exact ⟨_, _, rfl⟩

/-- The first `B` bytes are plain memory of context 0, which the identity range maps, and every tower has a route to the hub die. -/
structure QuietBelow (s : State) (B : Nat) : Prop where
  plain : ∀ o < B, PlainLine s 0 o
  here : ∀ x < 2 ^ 28, levelOf s x = 0
  routes : ∀ o < B, dieCode s hubDie (homeTower s o) = St.ok
  kept : s.lost = []
  free : ∀ o < B, chanHeld s o = false
  waits : s.hubX = []
  entry : s.hlb = [lbId]

/-- Bytes of memory are no part of that. -/
theorem QuietBelow.mem {s : State} {B : Nat} (h : QuietBelow s B) (m : List Host.Cell) : QuietBelow (withMem s m) B :=
  ⟨fun o ho => h.plain o ho, h.here, fun o ho => by
    rw [dieCode_congr (s := s) (t := withMem s m) rfl]
    exact h.routes o ho, h.kept, h.free, h.waits, h.entry⟩

theorem clearMarker_quiet {s : State} {B o : Nat} (h : QuietBelow s B) (ho : o < B) : clearMarker s o = s := by
  have hl : tset none s.lost (o / 64) none = s.lost := by rw [h.kept]; rfl
  have hm := (h.plain o ho o rfl).2.2.2.1
  unfold clearMarker
  dsimp only
  rw [hl, show marker { s with lost := s.lost } o = none from hm]
  rfl

theorem resolve_id {s : State} {va : BitVec 64} {n : Need} (hn : n = .read ∨ n = .both) (h : ∀ x < 2 ^ 28, levelOf s x = 0) (hv : va.toNat < 2 ^ 28) :
    resolve s 0 lbId va n false hubDie = (.target (.loc va.toNat) true, lbId, s) := by
  have hm : reMalformed s lbId.mdc lbId.entry lbId.desc = false := by
    unfold reMalformed
    rw [show reMig lbId.entry = false by decide +kernel]
    simp only [Bool.false_and, Bool.or_false]
    decide +kernel
  have hw : permits lbId.entry n = true := by rcases hn with rfl | rfl <;> decide +kernel
  unfold resolve
  dsimp only
  rw [hm, hw, show reMig lbId.entry = false by decide +kernel, show reTkind lbId.entry = 0 by decide +kernel,
    show reTarget lbId.entry = 0 by decide +kernel, show reStart lbId.entry = 0 by decide +kernel]
  rw [show 0 + (va.toNat - 0 * 4096) = va.toNat by omega, h _ hv, Nat.div_eq_of_lt (show va.toNat < 2 ^ 58 by omega),
    Nat.mod_eq_of_lt (show va.toNat < 2 ^ 41 by omega)]
  rw [if_neg (by decide), if_neg (by decide), if_neg (by decide), if_neg (by decide), if_neg (by simp), if_pos rfl]
  rfl

theorem xlate_id {s : State} {va : BitVec 64} {n : Need} (hn : n = .read ∨ n = .both) (h : ∀ x < 2 ^ 28, levelOf s x = 0) (h0 : s.hubX = [])
    (h1 : s.hlb = [lbId]) (hv : va.toNat < 2 ^ 28) : hubXlate s 0 va n false = (.target (.loc va.toNat) true, s) := by
  have hf : lbFind s.hlb 0 (va.toNat / 4096) = some lbId := by
    rw [h1]
    unfold lbFind
    rw [List.find?_cons_of_pos]
    have : reCovers lbId.entry (va.toNat / 4096) = true := by
      unfold reCovers
      rw [show reValid lbId.entry = true by decide +kernel, show reStart lbId.entry = 0 by decide +kernel, show reLenM1 lbId.entry = 65535 by decide +kernel]
      simp; omega
    rw [this]; decide
  have hl : lbTouch s.hlb lbId lbId = s.hlb := by rw [h1]; decide +kernel
  unfold hubXlate hubEntry
  dsimp only
  rw [h0]
  simp only [List.find?_nil]
  rw [hf]
  simp only [resolve_id hn h hv]
  rw [hl]
  simp only [h0, List.filter_nil]
  rw [← h0]

/-- An access that succeeds records no fault. -/
theorem ownFault_ok (s : State) (x : Nat) (need : Need) (src : Nat) (va : BitVec 64) : ownFault s x St.ok need src va = s := by
  unfold ownFault
  rw [if_neg]
  rintro (h | ⟨-, h, -⟩)
  · exact absurd h (by decide)
  · exact h rfl

/-- One hub write of plain memory. -/
theorem write_one {s : State} {src B : Nat} {va : BitVec 64} {k : Nat} {bs : List Byte} (q : QuietBelow s B) (hB : B ≤ 2 ^ 28) (hv : va.toNat < B)
    (hb : va.toNat % 64 + bs.length ≤ 64) :
    ∃ d m, hubAccess s 0 src va .both k bs 0 0 0 .home 0 false = ⟨St.ok, d, withMem s m⟩ := by
  have hp := q.plain _ hv
  unfold hubAccess
  rw [xlate_id (.inr rfl) q.here q.waits q.entry (by omega)]
  dsimp only [hubLocal]
  rw [if_neg (by rw [q.free _ hv]; decide)]
  unfold hereWrite
  rw [hp.hereCheck (q.routes _ hv), if_neg (by simp), hp.recall]
  by_cases hl : bs.length < 64
  · rw [hp.write bs hl]
    exact ⟨[], _, by dsimp only; rw [ownFault_ok]⟩
  · rw [hp.writeLine (by omega) bs (by omega), clearMarker_quiet q hv]
    exact ⟨[], _, by dsimp only; rw [ownFault_ok]⟩

/-- One hub read of plain memory. -/
theorem read_one {s : State} {src B sk : Nat} {va : BitVec 64} {k : Nat} (hs : src ≠ 4) (q : QuietBelow s B) (hB : B ≤ 2 ^ 28) (hv : va.toNat < B)
    (hb : va.toNat % 64 + k ≤ 64) : ∃ d, hubAccess s 0 src va .read k [] 0 0 0 .home sk false = ⟨St.ok, d, s⟩ := by
  have hp := q.plain _ hv
  unfold hubAccess
  rw [xlate_id (.inl rfl) q.here q.waits q.entry (by omega)]
  dsimp only [hubLocal]
  rw [if_neg (by rw [q.free _ hv]; decide), if_neg hs, hp.hereRead (q.routes _ hv) k hb]
  exact ⟨_, by dsimp only; rw [ownFault_ok]⟩

theorem probe_quiet {s : State} {B : Nat} {n : Need} (hn : n = .read ∨ n = .both) (q : QuietBelow s B) (hB : B ≤ 2 ^ 28) :
    ∀ l : List (BitVec 64 × Need), (∀ p ∈ l, p.2 = n ∧ p.1.toNat < B) → hubProbe 0 l s = (false, s)
  | [], _ => rfl
  | (va, m) :: t, hl => by
    obtain ⟨hm, hv⟩ := hl (va, m) (List.mem_cons_self ..)
    dsimp only at hm hv
    subst hm
    unfold hubProbe
    rw [q.waits, xlate_id hn q.here q.waits q.entry (by omega)]
    exact probe_quiet hn q hB t (fun p hp => hl p (List.mem_cons_of_mem _ hp))

theorem pieces_below {m B : Nat} : ∀ (f x n : Nat), x + n ≤ B → ∀ p ∈ pieces m f x n, p.1 < B
  | 0, _, _, _, p, hp => by cases hp
  | f + 1, x, n, h, p, hp => by
    unfold pieces at hp
    split at hp
    · cases hp
    · rcases List.mem_cons.1 hp with rfl | hp
      · dsimp only; omega
      · exact pieces_below f _ _ (by omega) p hp

theorem lines_below {n : Nat} {m : Need} (hn : n ≤ 2 ^ 28) : ∀ p ∈ linesOf 0 n m, p.2 = m ∧ p.1.toNat < n := by
  intro p hp
  unfold linesOf at hp
  obtain ⟨q, hq, rfl⟩ := List.mem_map.1 hp
  have := pieces_below (B := n) _ _ _ (by show 0 + n ≤ _; omega) q hq
  refine ⟨rfl, ?_⟩
  show (BitVec.ofNat 64 q.1).toNat < _
  rw [BitVec.toNat_ofNat]; omega

theorem pieces_within {m : Nat} (hm : 0 < m) : ∀ (f x n : Nat), ∀ p ∈ pieces m f x n, p.1 % m + p.2 ≤ m
  | 0, _, _, p, hp => by cases hp
  | f + 1, x, n, p, hp => by
    unfold pieces at hp
    split at hp
    · cases hp
    · rcases List.mem_cons.1 hp with rfl | hp
      · have := Nat.mod_lt x hm
        dsimp only
        omega
      · exact pieces_within hm f _ _ p hp

theorem readLoop_quiet {src B : Nat} {s : State} (hs : src ≠ 4) (q : QuietBelow s B) (hB : B ≤ 2 ^ 28) :
    ∀ (l : List (Nat × Nat)) (sk : Nat) (acc : List Byte), (∀ p ∈ l, p.1 < B ∧ p.1 % 64 + p.2 ≤ 64) →
      ∃ d, hubReadLoop 0 src .read false .home l sk s acc = ⟨St.ok, d, s⟩
  | [], _, acc, _ => ⟨acc, rfl⟩
  | (a, k) :: t, sk, acc, hl => by
    obtain ⟨ha, hk⟩ := hl (a, k) (List.mem_cons_self ..)
    dsimp only at ha hk
    have e : (BitVec.ofNat 64 a).toNat = a := by rw [BitVec.toNat_ofNat]; omega
    obtain ⟨d, he⟩ := read_one (src := src) (sk := sk) (k := k) (va := BitVec.ofNat 64 a) hs q hB (by rw [e]; exact ha) (by rw [e]; exact hk)
    unfold hubReadLoop
    rw [he]
    exact readLoop_quiet hs q hB t (sk + k) (acc ++ d) (fun p hp => hl p (List.mem_cons_of_mem _ hp))

theorem writeLoop_quiet {src B : Nat} (hB : B ≤ 2 ^ 28) : ∀ (l : List (Nat × Nat)) (s : State) (bs : List Byte), QuietBelow s B →
    (∀ p ∈ l, p.1 < B ∧ p.1 % 64 + p.2 ≤ 64) → ∃ d t, hubWriteLoop 0 src .both .home l s bs = ⟨St.ok, d, t⟩
  | [], s, _, _, _ => ⟨[], s, rfl⟩
  | (a, k) :: t, s, bs, q, hl => by
    obtain ⟨ha, hk⟩ := hl (a, k) (List.mem_cons_self ..)
    dsimp only at ha hk
    have e : (BitVec.ofNat 64 a).toNat = a := by rw [BitVec.toNat_ofNat]; omega
    obtain ⟨d, m, he⟩ := write_one (src := src) (k := k) (bs := bs.take k) (va := BitVec.ofNat 64 a) q hB (by rw [e]; exact ha)
      (by rw [e, List.length_take]; omega)
    unfold hubWriteLoop
    rw [he]
    exact writeLoop_quiet hB t _ (bs.drop k) (q.mem m) (fun p hp => hl p (List.mem_cons_of_mem _ hp))

theorem read_quiet {s : State} {src n : Nat} (hs : src ≠ 4) (q : QuietBelow s n) (hn : n ≤ 2 ^ 28) : ∃ d, hubRead s 0 src 0 n .home = ⟨St.ok, d, s⟩ :=
  readLoop_quiet hs q hn _ 0 [] fun p hp =>
    ⟨pieces_below (B := n) (n / 64 + 2) 0 n (by omega) p hp, pieces_within (by decide) _ _ _ p hp⟩
theorem write_quiet {s : State} {src : Nat} {bs : List Byte} (q : QuietBelow s bs.length) (hn : bs.length ≤ 2 ^ 28) :
    ∃ d t, hubWrite s 0 src 0 .both bs .home = ⟨St.ok, d, t⟩ :=
  writeLoop_quiet hn _ s bs q fun p hp =>
    ⟨pieces_below (B := bs.length) (bs.length / 64 + 2) 0 bs.length (by omega) p hp, pieces_within (by decide) _ _ _ p hp⟩

theorem blocks_length {n m : Nat} {f : Nat → List Byte} (h : ∀ i, (f i).length = m) : (blocks n f).length = n * m := by
  unfold blocks
  rw [List.length_flatMap]
  have : (List.range n).map (List.length ∘ f) = (List.range n).map fun _ => m := by
    apply List.map_congr_left; intro i _; exact h i
  simp [Function.comp_def, h]
theorem padTo_length (n : Nat) (l : List Byte) : (padTo n l).length = n := slice_length l 0 n
theorem waitBytes_length (k : CoreSt) : (waitBytes k).length = 48 := by
  unfold waitBytes
  split <;> simp
theorem tableRec_length (k : CoreSt) (n : Nat) : (tableRec k n).length = 8 := by
  unfold tableRec
  dsimp only
  split <;> simp
theorem holdRec_length (k : CoreSt) (n : Nat) : (holdRec k n).length = 128 := by
  unfold holdRec
  split <;> simp [padTo_length]
/-- The image of a core has the size of Table 5.23. -/
theorem imageBytes_length (k : CoreSt) : (imageBytes k).length = imageSize := by
  unfold imageBytes stateBlock
  simp only [List.length_append, rdN_length, toLe_length, waitBytes_length,
    blocks_length (fun i => toLe_length 4 (tget 0 k.mem.acc i).toNat), blocks_length (fun i => toLe_length 8 (tget 0 k.mem.vreg i).toNat),
    blocks_length (fun n => padTo_length 16384 ((tableBytes k n).drop 64)), blocks_length (fun c => padTo_length 8192 ((chanAt k c).queue.flatMap fun d => toLe 64 d.raw.toNat)),
    blocks_length (fun i => toLe_length 2 (genGet k.mem i).toNat), blocks_length (fun i => toLe_length 8 (sreg k i).toNat),
    blocks_length (fun i => toLe_length 8 (areg k i).toNat), blocks_length (f := loopRec k) (m := 16) (fun i => by simp [loopRec]),
    blocks_length (f := fun u => toLe 4 (tget 0 k.cr.ucnt u).toNat ++ toLe 4 (tget 0 k.cr.ecode u).toNat) (m := 8) (fun i => by simp),
    blocks_length (fun n => padTo_length 64 (tableBytes k n)), blocks_length (f := tableRec k) (tableRec_length k),
    blocks_length (f := dmaRec k) (m := 40) (fun i => by simp [dmaRec]), blocks_length (f := holdRec k) (holdRec_length k)]
  decide
end Sys2Proof.Machine
end

