-- ==== Sys2Proof/Laws/Orders.lean ====
section
/-!
SUPPORT. What answering an order does (R400, R404), and what the run of the one order of a batch comes to by its fate (R401, R410).
-/

namespace Sys2Proof.Machine

theorem interrupt_mb (s : State) (v m : Nat) : getMbox (interrupt s v) m = getMbox s m := by
  unfold interrupt sendMsg
  dsimp only
  split
  · split
    · split <;> rfl
    · rfl
  · split
    · rfl
    · split <;> rfl

theorem mbIrq_mb (s : State) (i : Nat) (b : Byte) (m : Nat) : getMbox (mbIrq s i b) m = getMbox s m := by
  unfold mbIrq m0Irq
  dsimp only
  split
  · split
    · split <;> rfl
    · split
      · rfl
      · exact interrupt_mb _ _ _
  · rfl

theorem interrupt_key (s : State) (v : Nat) : (interrupt s v).key = s.key := by
  unfold interrupt sendMsg
  dsimp only
  split
  · split
    · split <;> rfl
    · rfl
  · split
    · rfl
    · split <;> rfl

theorem mbIrq_key (s : State) (i : Nat) (b : Byte) : (mbIrq s i b).key = s.key := by
  unfold mbIrq m0Irq
  dsimp only
  split
  · split
    · split <;> rfl
    · split
      · rfl
      · exact interrupt_key _ _
  · rfl

theorem word_bits (g v c r : BitVec 8) (q : BitVec 16) (n : Nat) (hn : n < 4096) :
    let x : BitVec 64 := BitVec.ofNat 64 (g.toNat * 2 ^ 56 + v.toNat * 2 ^ 48 + c.toNat * 2 ^ 40 + r.toNat * 2 ^ 32 + q.toNat * 2 ^ 16 + n * 2 ^ 4 + 1)
    bf x 3 0 = 1 ∧ bf x 63 56 = g.toNat ∧ bf x 55 48 = v.toNat ∧ bf x 31 16 = q.toNat ∧ bf x 47 40 = c.toNat ∧ bf x 39 32 = r.toNat ∧ bf x 15 4 = n := by
  have h1 := g.isLt; have h2 := v.isLt; have h3 := c.isLt; have h4 := r.isLt; have h5 := q.isLt
  generalize g.toNat = g at *; generalize v.toNat = v at *; generalize c.toNat = c at *; generalize r.toNat = r at *; generalize q.toNat = q at *
  have : g * 2 ^ 56 + v * 2 ^ 48 + c * 2 ^ 40 + r * 2 ^ 32 + q * 2 ^ 16 + n * 2 ^ 4 + 1 < 2 ^ 64 := by omega
  dsimp only
  unfold bf
  rw [BitVec.toNat_ofNat, Nat.mod_eq_of_lt this]
  refine ⟨?_, ?_, ?_, ?_, ?_, ?_, ?_⟩ <;> omega

theorem answered_write (s : State) (o : Order) : AnsweredWith (writeAnswer s o) o o.code o.refuse o.res := by
  have e : ∃ k : Mbox, getMbox (writeAnswer s o) o.mb = { getMbox s o.mb with
      page := wrN (getMbox s o.mb).page 0x400 o.res
      rsp := BitVec.ofNat 64 (o.group.toNat * 2 ^ 56 + o.verb.toNat * 2 ^ 48 + o.code.toNat * 2 ^ 40 + o.refuse.toNat * 2 ^ 32
        + o.seq.toNat * 2 ^ 16 + o.res.length % 4096 * 2 ^ 4 + 1) } := by
    refine ⟨{}, ?_⟩
    unfold writeAnswer
    dsimp only
    rw [mbIrq_mb]
    split
    · rw [getMbox_withRst, getMbox_setMbox_self]
    · rw [getMbox_setMbox_self]
  obtain ⟨-, e⟩ := e
  obtain ⟨b1, b2, b3, b4, b5, b6, b7⟩ := word_bits o.group o.verb o.code o.refuse o.seq (o.res.length % 4096) (Nat.mod_lt _ (by decide))
  refine ⟨?_, ?_, ?_, fun hl => ?_⟩
  · rw [e]; exact b1
  · rw [e]; exact ⟨b2, b3, b4⟩
  · rw [e]; exact ⟨b5, b6⟩
  · rw [e]
    refine ⟨b7.trans (Nat.mod_eq_of_lt (by omega)), fun i h => ?_⟩
    unfold mbByte
    dsimp only
    rw [if_neg (by omega), if_neg (by omega), if_neg (by omega), if_neg (by omega), if_neg (by omega), if_neg (by omega), if_pos (by omega)]
    exact rd8_wrN_in _ _ _ _ h

theorem AnsweredWith.same {t t' : State} {o : Order} {c r res} (h : AnsweredWith t o c r res) (e : getMbox t' o.mb = getMbox t o.mb) : AnsweredWith t' o c r res := by
  obtain ⟨h1, h2, h3, h4⟩ := h
  exact ⟨by rw [e]; exact h1, by rw [e]; exact h2, by rw [e]; exact h3, by rw [e]; exact h4⟩

theorem writeAnswer_key (s : State) (o : Order) : (writeAnswer s o).key.batch = s.key.batch ∧ (writeAnswer s o).key.pending = s.key.pending := by
  unfold writeAnswer
  dsimp only
  rw [mbIrq_key]
  split <;> exact ⟨rfl, rfl⟩

theorem answerAll_one (y : State) (o : Order) (h : o.started = false) : answerAll [o] y = writeAnswer y o := by
  have es : supersede o [] = o := by
    unfold supersede contradicted; rw [if_neg]; rintro ⟨h, -⟩; simp at h
  unfold answerAll
  dsimp only
  rw [es, h, if_neg (by simp)]
  unfold answerAll
  rfl

/-- The fields that an interrupt leaves. -/
theorem interrupt_frame (s : State) (v : Nat) : interrupt s v = { s with host := (interrupt s v).host } := by
  unfold interrupt sendMsg
  dsimp only
  split
  · split
    · split <;> rfl
    · rfl
  · split
    · rfl
    · split <;> rfl

theorem mbIrq_frame (s : State) (i : Nat) (b : Byte) :
    mbIrq s i b = { s with host := (mbIrq s i b).host, pins := (mbIrq s i b).pins } := by
  unfold mbIrq m0Irq
  dsimp only
  split
  · split
    · split <;> rfl
    · split
      · rfl
      · have h := interrupt_frame s (bf (getMbox s i).irq 10 0)
        have p : (interrupt s (bf (getMbox s i).irq 10 0)).pins = s.pins := by rw [h]
        rw [p]; exact h
  · rfl

/-- Whether the answer of an order starts the 10 µs of R382. -/
def resetAnswer (o : Order) : Prop := o.group = 1 ∧ o.verb = 3 ∧ o.refuse = 0 ∧ o.code ≠ St.unsupported

/-- An answer writes the order's page, and beyond it only an interrupt (R404). -/
theorem writeAnswer_frame (s : State) (o : Order) (h : ¬ resetAnswer o) :
    writeAnswer s o = { s with
      host := (writeAnswer s o).host
      pins := (writeAnswer s o).pins
      key := { s.key with mb := (writeAnswer s o).key.mb } } := by
  unfold writeAnswer
  dsimp only
  rw [if_neg (show ¬ (o.group = 1 ∧ o.verb = 3 ∧ o.refuse = 0 ∧ o.code ≠ St.unsupported) from h)]
  generalize BitVec.ofNat 64 _ = w
  rw [mbIrq_frame]
  rfl

theorem writeAnswer_others (s : State) (o : Order) (m : Nat) (h : m ≠ o.mb) : getMbox (writeAnswer s o) m = getMbox s m := by
  unfold writeAnswer
  dsimp only
  rw [mbIrq_mb]
  split
  · exact getMbox_setMbox_ne _ _ h
  · exact getMbox_setMbox_ne _ _ h

/-- `p` answers as `o` does: same page, words and number. -/
def sameOrder (o p : Order) : Prop := p.mb = o.mb ∧ p.group = o.group ∧ p.verb = o.verb ∧ p.seq = o.seq

theorem AnsweredWith.order {t : State} {o p : Order} {c r res} (h : AnsweredWith t p c r res) (e : sameOrder o p) : AnsweredWith t o c r res := by
  obtain ⟨e1, e2, e3, e4⟩ := e
  obtain ⟨h1, h2, h3, h4⟩ := h
  rw [e1] at h1 h2 h3 h4
  rw [e2, e3, e4] at h2
  exact ⟨h1, h2, h3, h4⟩

/-- A batch with no order left answers. -/
theorem settle_last (y : State) (p : Order) (hb : y.key.batch = []) (hd : y.key.batchDone = [p]) :
    settleBatch y = (let s2 := answerAll [p] (withKey y { y.key with batch := [], batchDone := [] })
      if handoverDue s2 then withKey s2 { s2.key with handover := true } else s2) := by
  unfold settleBatch
  rw [hb, hd]
  exact if_neg fun h => h rfl

/-- The end of the one order of a batch. -/
theorem finish_one (z : State) (o p : Order) (e : sameOrder o p) (hb : z.key.batch.tail = []) (hd : z.key.batchDone = [])
    (hs : p.started = false) (hr : ¬ resetAnswer p) : Ends z (finishHead z p) o p.code p.refuse p.res := by
  unfold finishHead
  rw [settle_last _ p hb (show z.key.batchDone ++ [p] = [p] by rw [hd]; rfl), answerAll_one _ _ hs]
  have e1 : withKey (withKey z { z.key with batch := z.key.batch.tail, batchDone := z.key.batchDone ++ [p] })
      { (withKey z { z.key with batch := z.key.batch.tail, batchDone := z.key.batchDone ++ [p] }).key with batch := [], batchDone := [] }
      = withKey z { z.key with batch := [], batchDone := [] } := rfl
  rw [e1]
  dsimp only
  have f := writeAnswer_frame (withKey z { z.key with batch := [], batchDone := [] }) p hr
  have a := answered_write (withKey z { z.key with batch := [], batchDone := [] }) p
  have g := writeAnswer_others (withKey z { z.key with batch := [], batchDone := [] }) p
  refine ⟨?_, ?_, fun m hm => ?_⟩
  · refine AnsweredWith.order ?_ e
    split
    · exact a.same rfl
    · exact a
  · split
    · refine Eq.trans (congrArg (fun x : State => withKey x { x.key with handover := true }) f) ?_
      rfl
    · have fh : (writeAnswer (withKey z { z.key with batch := [], batchDone := [] }) p).key.handover = z.key.handover := by rw [f]; rfl
      rw [fh]
      exact f
  · rw [← e.1] at hm
    split
    · exact g m hm
    · exact g m hm

theorem Ends.same {z t : State} {o : Order} {c c' : Code} {r r' : BitVec 8} {l l' : List Byte} (h : Ends z t o c r l)
    (e1 : c = c') (e2 : r = r') (e3 : l = l') : Ends z t o c' r' l' := by
  rw [← e1, ← e2, ← e3]; exact h

theorem storeBegin_pend (p : StoreSt) : (storeBegin p).pend = p.pend := by
  unfold storeBegin
  split
  · rfl
  · split <;> rfl

theorem storePush_pend (s : State) (op : StoreOp) (order : Option Nat) : (storePush s op order).store.pend = s.store.pend ++ [⟨op, order⟩] := by
  unfold storePush
  dsimp only
  split
  · exact storeBegin_pend _
  · rfl

/-- The one order of a batch passes its checks. -/
theorem run_sole {s : State} {o : Order} {g v : Nat} {right : Right} {rangeOk stateOk : Order → Bool} {body : State → Order → Ran}
    (h : Sole s o g v right) (hr : rangeOk o = true) (hs : stateOk o = true) :
    runOrder s g v right rangeOk stateOk body = settleOrder o (body s o) := by
  obtain ⟨⟨hb, hd⟩, ⟨h1, -⟩, h6, ⟨h7, h8⟩, h9, h10, h11⟩ := h
  unfold runOrder
  rw [hb]
  dsimp only
  rw [if_neg (by simp [h1, h6, h7, h8]), if_neg (by simp [h9]), if_neg (by simp [hr]), if_neg (by simp [h10, hs]; exact h11)]

/-- A refusal of the one order of a batch has no effect (R401). -/
theorem refused_ends {s : State} {o : Order} {g v : Nat} {right : Right} (h : Sole s o g v right) (why : BitVec 8) (hw : why ≠ 0) :
    Ends s (settleOrder o (refusedBy s why)) o St.ok why [] := by
  obtain ⟨⟨hb, hd⟩, ⟨h1, h2, h3, h4, h5⟩, -⟩ := h
  have e : sameOrder o { o with refuse := why } := ⟨rfl, rfl, rfl, rfl⟩
  have f := finish_one s o { o with refuse := why } e (by rw [hb]; rfl) hd h2 (fun r => hw r.2.2.1)
  exact f.same h3 rfl h5

theorem run_range {s : State} {o : Order} {g v : Nat} {right : Right} {rangeOk stateOk : Order → Bool} {body : State → Order → Ran}
    (h : Sole s o g v right) (hr : rangeOk o = false) : Ends s (runOrder s g v right rangeOk stateOk body) o St.ok 2 [] := by
  have r := refused_ends h 2 (by decide)
  obtain ⟨⟨hb, hd⟩, ⟨h1, -⟩, h6, ⟨h7, h8⟩, h9, h10, h11⟩ := h
  unfold runOrder
  rw [hb]
  dsimp only
  rw [if_neg (by simp [h1, h6, h7, h8]), if_neg (by simp [h9]), if_pos (by simp [hr])]
  exact r

theorem run_state {s : State} {o : Order} {g v : Nat} {right : Right} {rangeOk stateOk : Order → Bool} {body : State → Order → Ran}
    (h : Sole s o g v right) (hr : rangeOk o = true) (hs : stateOk o = false) :
    Ends s (runOrder s g v right rangeOk stateOk body) o St.ok 3 [] := by
  have r := refused_ends h 3 (by decide)
  obtain ⟨⟨hb, hd⟩, ⟨h1, -⟩, h6, ⟨h7, h8⟩, h9, h10, h11⟩ := h
  unfold runOrder
  rw [hb]
  dsimp only
  rw [if_neg (by simp [h1, h6, h7, h8]), if_neg (by simp [h9]), if_neg (by simp [hr]), if_pos (by simp [hs])]
  exact r

/-- An order that is done is answered. -/
theorem done_ends {s : State} {o : Order} {g v : Nat} {right : Right} (h : Sole s o g v right) (hg : ¬ (g = 1 ∧ v = 3)) (z : State)
    (hb : z.key.batch = s.key.batch) (hd : z.key.batchDone = s.key.batchDone) (c : Code) (res : List Byte) (w : List (Nat × Nat)) :
    Ends z (settleOrder o ⟨z, .done c res, w⟩) o c 0 res := by
  obtain ⟨⟨k1, k2⟩, ⟨h1, h2, h3, h4, h5⟩, -, ⟨h7, h8⟩, -⟩ := h
  rw [k1] at hb; rw [k2] at hd
  have e : sameOrder o { o with code := c, res := res, wrote := w } := ⟨rfl, rfl, rfl, rfl⟩
  have hr : ¬ resetAnswer { o with code := c, res := res, wrote := w } := by
    rintro ⟨a, b, -⟩
    have a : o.group = 1 := a
    have b : o.verb = 3 := b
    rw [a] at h7; rw [b] at h8
    exact hg ⟨h7.symm, h8.symm⟩
  have f := finish_one z o { o with code := c, res := res, wrote := w } e (by rw [hb]; rfl) hd h2 hr
  exact f.same rfl h4 rfl

/-- An order that waits for an update of the store stays at the head (R395). -/
theorem busy_stores {s : State} {o : Order} {g v : Nat} {right : Right} (h : Sole s o g v right) (z : State) (op : StoreOp)
    (hb : z.key.batch = s.key.batch) (w : List (Nat × Nat)) (t : State)
    (ht : t = { z with store := t.store })
    (hu : t.store.pend.map (fun u => u.op) = z.store.pend.map (fun u => u.op) ++ [op] ∧
      t.store.pend.getLast?.map (fun u => u.order) = some (some o.mb)) :
    Stores z (settleOrder o ⟨t, .busy St.ok [], w⟩) o op := by
  obtain ⟨⟨k1, -⟩, ⟨h1, h2, h3, h4, h5⟩, -⟩ := h
  rw [k1] at hb
  have hk : t.key = z.key := by rw [ht]
  refine ⟨?_, ⟨w, ?_⟩, hu⟩
  · unfold settleOrder
    dsimp only
    rw [ht]
    rfl
  · unfold settleOrder
    show ({ o with busy := true, code := St.ok, res := [], wrote := w } : Order) :: t.key.batch.tail = _
    rw [hk, hb, ← h3, ← h5]
    rfl

/-- An order with a live change and, under PERSIST, an update of the settings record (R410). -/
theorem persist_settles {s : State} {o : Order} {g v : Nat} {right : Right} (h : Sole s o g v right) (hg : ¬ (g = 1 ∧ v = 3)) (z : State)
    (hb : z.key.batch = s.key.batch) (hd : z.key.batchDone = s.key.batchDone) (f : Settings → Settings) (w : List (Nat × Nat)) :
    Settles z (settleOrder o (endPersist z o f w)) o (f z.key.sets) := by
  unfold endPersist
  refine ⟨fun hp => ?_, fun hp => ?_⟩
  · rw [if_neg (by simp [hp])]
    exact done_ends h hg z hb hd St.ok [] w
  · rw [if_pos hp]
    refine ⟨⟨z.key.sver, genOf z z.rst.slot + 1, f z.key.sets⟩, rfl, rfl, busy_stores h z _ hb w _ rfl ⟨?_, ?_⟩⟩
    · unfold pushSettings
      rw [storePush_pend]
      exact List.map_append ..
    · unfold pushSettings
      rw [storePush_pend, List.getLast?_concat]; rfl

end Sys2Proof.Machine
end

