-- ==== Sys2Proof/Laws/Ras.lean ====
section
/-!
SUPPORT. Records change only what a record may change.
-/

namespace Sys2Proof.Machine

theorem RasSide.refl (s : State) : RasSide s s := rfl

theorem RasSide.trans {a s t : State} (h : RasSide a s) (g : RasSide s t) : RasSide a t := by
  unfold RasSide at *
  rw [g, h]

theorem RasSide.rest {a s : State} {host : HostSt} {store : StoreSt} {key : KeySt} {pins : PinSt} (h : RasSide a s) :
    RasSide a (State.mk s.now s.free s.cores s.queues s.ctxs s.lastPop s.gangs s.nextGang s.schEpoch s.schCfg s.pools s.poolEpoch s.epochDue s.lateEv s.mem s.lost s.restored s.owner s.ownCmd s.ownAt s.hlb s.hubX s.migr s.hbm s.memcfg s.towers s.flush s.mortar s.lintel s.span s.plumb host s.power s.rst store key pins s.pending) := by
  unfold RasSide at *
  rw [h]

theorem withHost_ras {a s : State} (h : RasSide a s) {k : HostSt} : RasSide a (withHost s k) := h.rest
theorem withStore_ras {a s : State} (h : RasSide a s) {k : StoreSt} : RasSide a (withStore s k) := h.rest
theorem withKey_ras {a s : State} (h : RasSide a s) {k : KeySt} : RasSide a (withKey s k) := h.rest
theorem withPins_ras {a s : State} (h : RasSide a s) {k : PinSt} : RasSide a (withPins s k) := h.rest

theorem ite_ras {a s t : State} {c : Prop} [Decidable c] (h : RasSide a s) (g : RasSide a t) : RasSide a (if c then s else t) := by
  split
  · exact h
  · exact g

theorem forEach_ras {α : Type} {f : State → α → State} {l : List α} {a s : State} (h : RasSide a s)
    (hf : ∀ s x, RasSide a s → RasSide a (f s x)) : RasSide a (forEach s l f) := by
  induction l generalizing s with
  | nil => exact h
  | cons x l ih => exact ih (hf s x h)

theorem foldl_ras {β : Type} {l : List β} {f : State → β → State} {a s : State} (h : RasSide a s)
    (hf : ∀ s x, RasSide a s → RasSide a (f s x)) : RasSide a (l.foldl f s) := by
  induction l generalizing s with
  | nil => exact h
  | cons x l ih => exact ih (hf s x h)

theorem setMbox_ras {a₀ : State} {s : State} {m : ℕ} {k : Mbox} (hk : RasSide a₀ s) : RasSide a₀ (setMbox s m k) := by
  unfold setMbox
  repeat' (first | (with_reducible (first | (assumption) | (apply withKey_ras) | (refine ite_ras ?_ ?_) | split | (intro _) | (dsimp only))) | (apply RasSide.rest; with_reducible (first | (assumption) | (apply withKey_ras))))

theorem m0Irq_ras {a₀ : State} {s : State} {b : Byte} (hk : RasSide a₀ s) : RasSide a₀ (m0Irq s b) := by
  unfold m0Irq
  repeat' (first | (with_reducible (first | (assumption) | (apply withPins_ras) | (refine ite_ras ?_ ?_) | split | (intro _) | (dsimp only))) | (apply RasSide.rest; with_reducible (first | (assumption) | (apply withPins_ras))))

theorem sendMsg_ras {a₀ : State} {s : State} {v : ℕ} {e : BitVec 128} (hk : RasSide a₀ s) : RasSide a₀ (sendMsg s v e) := by
  unfold sendMsg
  repeat' (first | (with_reducible (first | (assumption) | (apply withHost_ras) | (refine ite_ras ?_ ?_) | split | (intro _) | (dsimp only))) | (apply RasSide.rest; with_reducible (first | (assumption) | (apply withHost_ras))))

theorem interrupt_ras {a₀ : State} {s : State} {v : ℕ} (hk : RasSide a₀ s) : RasSide a₀ (interrupt s v) := by
  unfold interrupt
  repeat' (first | (with_reducible (first | (assumption) | (apply sendMsg_ras) | (apply withHost_ras) | (refine ite_ras ?_ ?_) | split | (intro _) | (dsimp only))) | (apply RasSide.rest; with_reducible (first | (assumption) | (apply sendMsg_ras) | (apply withHost_ras))))

theorem mbIrq_ras {a₀ : State} {s : State} {m : ℕ} {b : Byte} (hk : RasSide a₀ s) : RasSide a₀ (mbIrq s m b) := by
  unfold mbIrq
  repeat' (first | (with_reducible (first | (assumption) | (apply interrupt_ras) | (apply m0Irq_ras) | (refine ite_ras ?_ ?_) | split | (intro _) | (dsimp only))) | (apply RasSide.rest; with_reducible (first | (assumption) | (apply interrupt_ras) | (apply m0Irq_ras))))

theorem rasToRing_ras {a₀ : State} {s : State} {m : ℕ} {r : List Byte} (hk : RasSide a₀ s) : RasSide a₀ (rasToRing s m r) := by
  unfold rasToRing
  repeat' (first | (with_reducible (first | (assumption) | (apply mbIrq_ras) | (apply setMbox_ras) | (refine ite_ras ?_ ?_) | split | (intro _) | (dsimp only))) | (apply RasSide.rest; with_reducible (first | (assumption) | (apply mbIrq_ras) | (apply setMbox_ras))))

theorem rasTo_ras {a₀ : State} {s : State} {ms : List ℕ} {code : Code} {kind : ℕ} {queue : ℕ} {unit : BitVec 32} {ctx : ℕ} {detail : ℕ} (hk : RasSide a₀ s) : RasSide a₀ (rasTo s ms code kind queue unit ctx detail) := by
  unfold rasTo
  repeat' (first | (with_reducible (first | (assumption) | (apply rasToRing_ras) | (apply withKey_ras) | (refine forEach_ras ?_ ?_) | (refine ite_ras ?_ ?_) | split | (intro _) | (dsimp only))) | (apply RasSide.rest; with_reducible (first | (assumption) | (apply rasToRing_ras) | (apply withKey_ras) | (refine forEach_ras ?_ ?_))))

theorem ras_ras {a₀ : State} {s : State} {code : Code} {kind : ℕ} {unit : BitVec 32} {detail : ℕ} (hk : RasSide a₀ s) : RasSide a₀ (ras s code kind unit detail) := by
  unfold ras
  repeat' (first | (with_reducible (first | (assumption) | (apply rasTo_ras) | (refine ite_ras ?_ ?_) | split | (intro _) | (dsimp only))) | (apply RasSide.rest; with_reducible (first | (assumption) | (apply rasTo_ras))))

theorem storePush_ras {a₀ : State} {s : State} {op : StoreOp} {order : Option ℕ} (hk : RasSide a₀ s) : RasSide a₀ (storePush s op order) := by
  unfold storePush
  repeat' (first | (with_reducible (first | (assumption) | (apply withStore_ras) | (refine ite_ras ?_ ?_) | split | (intro _) | (dsimp only))) | (apply RasSide.rest; with_reducible (first | (assumption) | (apply withStore_ras))))

theorem recUnits_ras {a₀ : State} {s : State} {f : UnitRecs → UnitRecs} {order : Option ℕ} (hk : RasSide a₀ s) : RasSide a₀ (recUnits s f order) := by
  unfold recUnits
  repeat' (first | (with_reducible (first | (assumption) | (apply storePush_ras) | (apply withKey_ras) | (refine ite_ras ?_ ?_) | split | (intro _) | (dsimp only))) | (apply RasSide.rest; with_reducible (first | (assumption) | (apply storePush_ras) | (apply withKey_ras))))

theorem recRetire_ras {a₀ : State} {s : State} {u : ℕ} {order : Option ℕ} (hk : RasSide a₀ s) : RasSide a₀ (recRetire s u order) := by
  unfold recRetire
  repeat' (first | (with_reducible (first | (assumption) | (apply withStore_ras) | (apply recUnits_ras) | (refine ite_ras ?_ ?_) | split | (intro _) | (dsimp only))) | (apply RasSide.rest; with_reducible (first | (assumption) | (apply withStore_ras) | (apply recUnits_ras))))

end Sys2Proof.Machine
end

