-- ==== Sys2Proof/Laws/Reports.lean ====
section
/-!
SUPPORT. Reports and records change only what a report may change.
-/

namespace Sys2Proof.Machine

theorem ReportSide.refl (s : State) : ReportSide s s := rfl

theorem ReportSide.trans {a s t : State} (h : ReportSide a s) (g : ReportSide s t) : ReportSide a t := by
  unfold ReportSide at *
  rw [g, h]

theorem ReportSide.rest {a s : State} {free : Nat} {ctxs : Tab Ctx} {lateEv : List (Nat × List Byte)} {mem : List Host.Cell} {lost : Tab (Option Lost)} {restored : List Nat} {hlb : List LbEntry} {hubX : List (Nat × BitVec 64 × XSt)} {migr : List Migr} {towers : Tab TowerSt} {span : SpanSt} {host : HostSt} {store : StoreSt} {key : KeySt} {pins : PinSt} (h : ReportSide a s) :
    ReportSide a (State.mk s.now free s.cores s.queues ctxs s.lastPop s.gangs s.nextGang s.schEpoch s.schCfg s.pools s.poolEpoch s.epochDue lateEv mem lost restored s.owner s.ownCmd s.ownAt hlb hubX migr s.hbm s.memcfg towers s.flush s.mortar s.lintel span s.plumb host s.power s.rst store key pins s.pending) := by
  unfold ReportSide at *
  rw [h]

theorem setCtx_rep {a s : State} (h : ReportSide a s) {x : Nat} {k : Ctx} : ReportSide a (setCtx s x k) := h.rest
theorem setTower_rep {a s : State} (h : ReportSide a s) {x : Nat} {k : TowerSt} : ReportSide a (setTower s x k) := h.rest
theorem withMem_rep {a s : State} (h : ReportSide a s) {k : List Host.Cell} : ReportSide a (withMem s k) := h.rest
theorem withSpan_rep {a s : State} (h : ReportSide a s) {k : SpanSt} : ReportSide a (withSpan s k) := h.rest
theorem withHost_rep {a s : State} (h : ReportSide a s) {k : HostSt} : ReportSide a (withHost s k) := h.rest
theorem withStore_rep {a s : State} (h : ReportSide a s) {k : StoreSt} : ReportSide a (withStore s k) := h.rest
theorem withKey_rep {a s : State} (h : ReportSide a s) {k : KeySt} : ReportSide a (withKey s k) := h.rest
theorem withPins_rep {a s : State} (h : ReportSide a s) {k : PinSt} : ReportSide a (withPins s k) := h.rest

theorem ite_rep {a s t : State} {c : Prop} [Decidable c] (h : ReportSide a s) (g : ReportSide a t) : ReportSide a (if c then s else t) := by
  split
  · exact h
  · exact g

theorem forEach_rep {α : Type} {f : State → α → State} {l : List α} {a s : State} (h : ReportSide a s)
    (hf : ∀ s x, ReportSide a s → ReportSide a (f s x)) : ReportSide a (forEach s l f) := by
  induction l generalizing s with
  | nil => exact h
  | cons x l ih => exact ih (hf s x h)

theorem foldl_rep {β : Type} {l : List β} {f : State → β → State} {a s : State} (h : ReportSide a s)
    (hf : ∀ s x, ReportSide a s → ReportSide a (f s x)) : ReportSide a (l.foldl f s) := by
  induction l generalizing s with
  | nil => exact h
  | cons x l ih => exact ih (hf s x h)

theorem modCtx_rep {a₀ : State} {s : State} {x : ℕ} {f : Ctx → Ctx} (hk : ReportSide a₀ s) : ReportSide a₀ (modCtx s x f) := by
  unfold modCtx
  repeat' (first | (with_reducible (first | (assumption) | (apply setCtx_rep) | (refine ite_rep ?_ ?_) | split | (intro _) | (dsimp only))) | (apply ReportSide.rest; with_reducible (first | (assumption) | (apply setCtx_rep))))

theorem modTower_rep {a₀ : State} {s : State} {t : ℕ} {f : TowerSt → TowerSt} (hk : ReportSide a₀ s) : ReportSide a₀ (modTower s t f) := by
  unfold modTower
  repeat' (first | (with_reducible (first | (assumption) | (apply setTower_rep) | (refine ite_rep ?_ ?_) | split | (intro _) | (dsimp only))) | (apply ReportSide.rest; with_reducible (first | (assumption) | (apply setTower_rep))))

theorem setMbox_rep {a₀ : State} {s : State} {m : ℕ} {k : Mbox} (hk : ReportSide a₀ s) : ReportSide a₀ (setMbox s m k) := by
  unfold setMbox
  repeat' (first | (with_reducible (first | (assumption) | (apply withKey_rep) | (refine ite_rep ?_ ?_) | split | (intro _) | (dsimp only))) | (apply ReportSide.rest; with_reducible (first | (assumption) | (apply withKey_rep))))

theorem freshBits_rep {a₀ : State} {s : State} {w : ℕ} (hk : ReportSide a₀ s) : ReportSide a₀ (freshBits s w).2 := by
  unfold freshBits
  repeat' (first | (with_reducible (first | (assumption) | (refine ite_rep ?_ ?_) | split | (intro _) | (dsimp only))) | (apply ReportSide.rest; with_reducible (first | (assumption))))

theorem freshBits_rep_of {a₀ z : State} {s : State} {w : ℕ} {y0 : BitVec w} (he : freshBits s w = (y0, z)) (hk : ReportSide a₀ s) : ReportSide a₀ z := by
  have := freshBits_rep (s := s) (w := w) hk
  rwa [he] at this

theorem freshBytes_rep {a₀ : State} {s : State} {n : ℕ} (hk : ReportSide a₀ s) : ReportSide a₀ (freshBytes s n).2 := by
  unfold freshBytes
  repeat' (first | (with_reducible (first | (assumption) | (refine ite_rep ?_ ?_) | split | (intro _) | (dsimp only))) | (apply ReportSide.rest; with_reducible (first | (assumption))))

theorem freshBytes_rep_of {a₀ z : State} {s : State} {n : ℕ} {y0 : List Byte} (he : freshBytes s n = (y0, z)) (hk : ReportSide a₀ s) : ReportSide a₀ z := by
  have := freshBytes_rep (s := s) (n := n) hk
  rwa [he] at this

theorem m0Irq_rep {a₀ : State} {s : State} {b : Byte} (hk : ReportSide a₀ s) : ReportSide a₀ (m0Irq s b) := by
  unfold m0Irq
  repeat' (first | (with_reducible (first | (assumption) | (apply withPins_rep) | (refine ite_rep ?_ ?_) | split | (intro _) | (dsimp only))) | (apply ReportSide.rest; with_reducible (first | (assumption) | (apply withPins_rep))))

theorem sendMsg_rep {a₀ : State} {s : State} {v : ℕ} {e : BitVec 128} (hk : ReportSide a₀ s) : ReportSide a₀ (sendMsg s v e) := by
  unfold sendMsg
  repeat' (first | (with_reducible (first | (assumption) | (apply withHost_rep) | (refine ite_rep ?_ ?_) | split | (intro _) | (dsimp only))) | (apply ReportSide.rest; with_reducible (first | (assumption) | (apply withHost_rep))))

theorem interrupt_rep {a₀ : State} {s : State} {v : ℕ} (hk : ReportSide a₀ s) : ReportSide a₀ (interrupt s v) := by
  unfold interrupt
  repeat' (first | (with_reducible (first | (assumption) | (apply sendMsg_rep) | (apply withHost_rep) | (refine ite_rep ?_ ?_) | split | (intro _) | (dsimp only))) | (apply ReportSide.rest; with_reducible (first | (assumption) | (apply sendMsg_rep) | (apply withHost_rep))))

theorem mbIrq_rep {a₀ : State} {s : State} {m : ℕ} {b : Byte} (hk : ReportSide a₀ s) : ReportSide a₀ (mbIrq s m b) := by
  unfold mbIrq
  repeat' (first | (with_reducible (first | (assumption) | (apply interrupt_rep) | (apply m0Irq_rep) | (refine ite_rep ?_ ?_) | split | (intro _) | (dsimp only))) | (apply ReportSide.rest; with_reducible (first | (assumption) | (apply interrupt_rep) | (apply m0Irq_rep))))

theorem rasToRing_rep {a₀ : State} {s : State} {m : ℕ} {r : List Byte} (hk : ReportSide a₀ s) : ReportSide a₀ (rasToRing s m r) := by
  unfold rasToRing
  repeat' (first | (with_reducible (first | (assumption) | (apply mbIrq_rep) | (apply setMbox_rep) | (refine ite_rep ?_ ?_) | split | (intro _) | (dsimp only))) | (apply ReportSide.rest; with_reducible (first | (assumption) | (apply mbIrq_rep) | (apply setMbox_rep))))

theorem rasTo_rep {a₀ : State} {s : State} {ms : List ℕ} {code : Code} {kind : ℕ} {queue : ℕ} {unit : BitVec 32} {ctx : ℕ} {detail : ℕ} (hk : ReportSide a₀ s) : ReportSide a₀ (rasTo s ms code kind queue unit ctx detail) := by
  unfold rasTo
  repeat' (first | (with_reducible (first | (assumption) | (apply rasToRing_rep) | (apply withKey_rep) | (refine forEach_rep ?_ ?_) | (refine ite_rep ?_ ?_) | split | (intro _) | (dsimp only))) | (apply ReportSide.rest; with_reducible (first | (assumption) | (apply rasToRing_rep) | (apply withKey_rep) | (refine forEach_rep ?_ ?_))))

theorem ras_rep {a₀ : State} {s : State} {code : Code} {kind : ℕ} {unit : BitVec 32} {detail : ℕ} (hk : ReportSide a₀ s) : ReportSide a₀ (ras s code kind unit detail) := by
  unfold ras
  repeat' (first | (with_reducible (first | (assumption) | (apply rasTo_rep) | (refine ite_rep ?_ ?_) | split | (intro _) | (dsimp only))) | (apply ReportSide.rest; with_reducible (first | (assumption) | (apply rasTo_rep))))

theorem clearMarker_rep {a₀ : State} {s : State} {x : ℕ} (hk : ReportSide a₀ s) : ReportSide a₀ (clearMarker s x) := by
  exact hk.rest

theorem homeLeave_rep {a₀ : State} {s : State} {v : QLine} (hk : ReportSide a₀ s) : ReportSide a₀ (homeLeave s v) := by
  unfold homeLeave
  repeat' (first | (with_reducible (first | (assumption) | (apply clearMarker_rep) | (apply withMem_rep) | (refine ite_rep ?_ ?_) | split | (intro _) | (dsimp only))) | (apply ReportSide.rest; with_reducible (first | (assumption) | (apply clearMarker_rep) | (apply withMem_rep))))

theorem homePlace_rep {a₀ : State} {s : State} {x : ℕ} {l : QLine} (hk : ReportSide a₀ s) : ReportSide a₀ (homePlace s x l) := by
  unfold homePlace
  repeat' (first | (with_reducible (first | (assumption) | (apply homeLeave_rep) | (apply setTower_rep) | (refine ite_rep ?_ ?_) | split | (intro _) | (dsimp only))) | (apply ReportSide.rest; with_reducible (first | (assumption) | (apply homeLeave_rep) | (apply setTower_rep))))

theorem homeLine_rep {a₀ : State} {s : State} {ctx : ℕ} {x : ℕ} {nc : Bool} (hk : ReportSide a₀ s) : ReportSide a₀ (homeLine s ctx x nc).2.2 := by
  unfold homeLine
  repeat' (first | (with_reducible (first | (assumption) | (apply homePlace_rep) | (refine ite_rep ?_ ?_) | split | (intro _) | (dsimp only))) | (apply ReportSide.rest; with_reducible (first | (assumption) | (apply homePlace_rep))) | (with_reducible (first | (injections; subst_vars) | (rename_i heq; revert heq; split <;> (intro heq; first | (cases heq) | skip)))))

theorem homeLine_rep_of {a₀ z : State} {s : State} {ctx : ℕ} {x : ℕ} {nc : Bool} {y0 : Code} {y1 : List Byte} (he : homeLine s ctx x nc = (y0, y1, z)) (hk : ReportSide a₀ s) : ReportSide a₀ z := by
  have := homeLine_rep (s := s) (ctx := ctx) (x := x) (nc := nc) hk
  rwa [he] at this

theorem homeRead_rep {a₀ : State} {s : State} {sys : Bool} {ctx : ℕ} {x : ℕ} {n : ℕ} {nc : Bool} (hk : ReportSide a₀ s) : ReportSide a₀ (homeRead s sys ctx x n nc).2.2 := by
  unfold homeRead
  repeat' (first | (with_reducible (first | (assumption) | (apply homeLine_rep) | (refine homeLine_rep_of (by assumption) ?_) | (refine ite_rep ?_ ?_) | split | (intro _) | (dsimp only))) | (apply ReportSide.rest; with_reducible (first | (assumption) | (apply homeLine_rep) | (refine homeLine_rep_of (by assumption) ?_))))

theorem homeRead_rep_of {a₀ z : State} {s : State} {sys : Bool} {ctx : ℕ} {x : ℕ} {n : ℕ} {nc : Bool} {y0 : Code} {y1 : List Byte} (he : homeRead s sys ctx x n nc = (y0, y1, z)) (hk : ReportSide a₀ s) : ReportSide a₀ z := by
  have := homeRead_rep (s := s) (sys := sys) (ctx := ctx) (x := x) (n := n) (nc := nc) hk
  rwa [he] at this

theorem homeUpdate_rep {a₀ : State} {s : State} {ctx : ℕ} {x : ℕ} {bs : List Byte} {whole : Bool} {nc : Bool} (hk : ReportSide a₀ s) : ReportSide a₀ (homeUpdate s ctx x bs whole nc) := by
  unfold homeUpdate
  repeat' (first | (with_reducible (first | (assumption) | (apply homePlace_rep) | (refine ite_rep ?_ ?_) | split | (intro _) | (dsimp only))) | (apply ReportSide.rest; with_reducible (first | (assumption) | (apply homePlace_rep))))

theorem homeWrite_rep {a₀ : State} {s : State} {sys : Bool} {ctx : ℕ} {x : ℕ} {bs : List Byte} {nc : Bool} (hk : ReportSide a₀ s) : ReportSide a₀ (homeWrite s sys ctx x bs nc).2 := by
  unfold homeWrite
  repeat' (first | (with_reducible (first | (assumption) | (apply clearMarker_rep) | (apply withMem_rep) | (apply homeUpdate_rep) | (refine ite_rep ?_ ?_) | split | (intro _) | (dsimp only))) | (apply ReportSide.rest; with_reducible (first | (assumption) | (apply clearMarker_rep) | (apply withMem_rep) | (apply homeUpdate_rep))))

theorem homeWrite_rep_of {a₀ z : State} {s : State} {sys : Bool} {ctx : ℕ} {x : ℕ} {bs : List Byte} {nc : Bool} {y0 : Code} (he : homeWrite s sys ctx x bs nc = (y0, z)) (hk : ReportSide a₀ s) : ReportSide a₀ z := by
  have := homeWrite_rep (s := s) (sys := sys) (ctx := ctx) (x := x) (bs := bs) (nc := nc) hk
  rwa [he] at this

theorem homeAtomic_rep {a₀ : State} {s : State} {sys : Bool} {ctx : ℕ} {x : ℕ} {n : ℕ} {func : ℕ} {b : ℕ} {c : ℕ} {nc : Bool} (hk : ReportSide a₀ s) : ReportSide a₀ (homeAtomic s sys ctx x n func b c nc).2.2 := by
  unfold homeAtomic
  repeat' (first | (with_reducible (first | (assumption) | (apply homeRead_rep) | (refine homeRead_rep_of (by assumption) ?_) | (apply homeWrite_rep) | (refine homeWrite_rep_of (by assumption) ?_) | (refine ite_rep ?_ ?_) | split | (intro _) | (dsimp only))) | (apply ReportSide.rest; with_reducible (first | (assumption) | (apply homeRead_rep) | (refine homeRead_rep_of (by assumption) ?_) | (apply homeWrite_rep) | (refine homeWrite_rep_of (by assumption) ?_))))

theorem homeAtomic_rep_of {a₀ z : State} {s : State} {sys : Bool} {ctx : ℕ} {x : ℕ} {n : ℕ} {func : ℕ} {b : ℕ} {c : ℕ} {nc : Bool} {y0 : Code} {y1 : ℕ} (he : homeAtomic s sys ctx x n func b c nc = (y0, y1, z)) (hk : ReportSide a₀ s) : ReportSide a₀ z := by
  have := homeAtomic_rep (s := s) (sys := sys) (ctx := ctx) (x := x) (n := n) (func := func) (b := b) (c := c) (nc := nc) hk
  rwa [he] at this

theorem xfault_rep {a₀ : State} {s : State} {x : ℕ} {code : Code} {cause : ℕ} {need : Need} {src : ℕ} {core : ℕ} {va : BitVec 64} (hk : ReportSide a₀ s) : ReportSide a₀ (xfault s x code cause need src core va) := by
  unfold xfault
  repeat' (first | (with_reducible (first | (assumption) | (apply modCtx_rep) | (refine ite_rep ?_ ?_) | split | (intro _) | (dsimp only))) | (apply ReportSide.rest; with_reducible (first | (assumption) | (apply modCtx_rep))))

theorem remoteSend_rep {a₀ : State} {s : State} {user : RemUser} {op : BitVec 8} {ga : ℕ} {ctx : ℕ} {n : ℕ} {func : ℕ} {asz : Bool} {data : List Byte} (hk : ReportSide a₀ s) : ReportSide a₀ (remoteSend s user op ga ctx n func asz data) := by
  unfold remoteSend
  repeat' (first | (with_reducible (first | (assumption) | (apply withSpan_rep) | (refine ite_rep ?_ ?_) | split | (intro _) | (dsimp only))) | (apply ReportSide.rest; with_reducible (first | (assumption) | (apply withSpan_rep))))

theorem remoteAsk_rep {a₀ : State} {s : State} {op : BitVec 8} {ga : ℕ} {ctx : ℕ} {n : ℕ} {func : ℕ} {asz : Bool} {data : List Byte} (hk : ReportSide a₀ s) : ReportSide a₀ (remoteAsk s op ga ctx n func asz data) := by
  unfold remoteAsk
  repeat' (first | (with_reducible (first | (assumption) | (apply withSpan_rep) | (refine ite_rep ?_ ?_) | split | (intro _) | (dsimp only))) | (apply ReportSide.rest; with_reducible (first | (assumption) | (apply withSpan_rep))))

theorem outSend_rep {a₀ : State} {s : State} {user : RemUser} {ctx : ℕ} {addr : ℕ} {write : Option (List Byte)} {n : ℕ} (hk : ReportSide a₀ s) : ReportSide a₀ (outSend s user ctx addr write n) := by
  unfold outSend
  repeat' (first | (with_reducible (first | (assumption) | (apply withHost_rep) | (refine ite_rep ?_ ?_) | split | (intro _) | (dsimp only))) | (apply ReportSide.rest; with_reducible (first | (assumption) | (apply withHost_rep))))

theorem freeAnswer_rep {a₀ : State} {s : State} {fail : Code → Code} {n : ℕ} (hk : ReportSide a₀ s) : ReportSide a₀ (freeAnswer s fail n).2.2 := by
  unfold freeAnswer
  repeat' (first | (with_reducible (first | (assumption) | (apply freshBits_rep) | (refine freshBits_rep_of (by assumption) ?_) | (apply freshBytes_rep) | (refine freshBytes_rep_of (by assumption) ?_) | (refine ite_rep ?_ ?_) | split | (intro _) | (dsimp only))) | (apply ReportSide.rest; with_reducible (first | (assumption) | (apply freshBits_rep) | (refine freshBits_rep_of (by assumption) ?_) | (apply freshBytes_rep) | (refine freshBytes_rep_of (by assumption) ?_))))

theorem freeAnswer_rep_of {a₀ z : State} {s : State} {fail : Code → Code} {n : ℕ} {y0 : Code} {y1 : List Byte} (he : freeAnswer s fail n = (y0, y1, z)) (hk : ReportSide a₀ s) : ReportSide a₀ z := by
  have := freeAnswer_rep (s := s) (fail := fail) (n := n) hk
  rwa [he] at this

theorem spanAnswer_rep {a₀ : State} {s : State} {ga : ℕ} {r : Reply} {skip : ℕ} {n : ℕ} (hk : ReportSide a₀ s) : ReportSide a₀ (spanAnswer s ga r skip n).2.2 := by
  unfold spanAnswer
  repeat' (first | (with_reducible (first | (assumption) | (apply freeAnswer_rep) | (refine freeAnswer_rep_of (by assumption) ?_) | (refine ite_rep ?_ ?_) | split | (intro _) | (dsimp only))) | (apply ReportSide.rest; with_reducible (first | (assumption) | (apply freeAnswer_rep) | (refine freeAnswer_rep_of (by assumption) ?_))))

theorem spanAnswer_rep_of {a₀ z : State} {s : State} {ga : ℕ} {r : Reply} {skip : ℕ} {n : ℕ} {y0 : Code} {y1 : List Byte} (he : spanAnswer s ga r skip n = (y0, y1, z)) (hk : ReportSide a₀ s) : ReportSide a₀ z := by
  have := spanAnswer_rep (s := s) (ga := ga) (r := r) (skip := skip) (n := n) hk
  rwa [he] at this

theorem busAnswer_rep {a₀ : State} {s : State} {r : Reply} {skip : ℕ} {n : ℕ} (hk : ReportSide a₀ s) : ReportSide a₀ (busAnswer s r skip n).2.2 := by
  unfold busAnswer
  repeat' (first | (with_reducible (first | (assumption) | (apply freeAnswer_rep) | (refine freeAnswer_rep_of (by assumption) ?_) | (refine ite_rep ?_ ?_) | split | (intro _) | (dsimp only))) | (apply ReportSide.rest; with_reducible (first | (assumption) | (apply freeAnswer_rep) | (refine freeAnswer_rep_of (by assumption) ?_))))

theorem busAnswer_rep_of {a₀ z : State} {s : State} {r : Reply} {skip : ℕ} {n : ℕ} {y0 : Code} {y1 : List Byte} (he : busAnswer s r skip n = (y0, y1, z)) (hk : ReportSide a₀ s) : ReportSide a₀ z := by
  have := busAnswer_rep (s := s) (r := r) (skip := skip) (n := n) hk
  rwa [he] at this

theorem writeBack_rep {a₀ : State} {s : State} {l : RlcLine} (hk : ReportSide a₀ s) : ReportSide a₀ (writeBack s l) := by
  unfold writeBack
  repeat' (first | (with_reducible (first | (assumption) | (apply homeWrite_rep) | (refine homeWrite_rep_of (by assumption) ?_) | (apply remoteSend_rep) | (refine ite_rep ?_ ?_) | split | (intro _) | (dsimp only))) | (apply ReportSide.rest; with_reducible (first | (assumption) | (apply homeWrite_rep) | (refine homeWrite_rep_of (by assumption) ?_) | (apply remoteSend_rep))))

theorem recallLine_rep {a₀ : State} {s : State} {key : BitVec 64} {write : Bool} {keep : ℕ} (hk : ReportSide a₀ s) : ReportSide a₀ (recallLine s key write keep) := by
  unfold recallLine
  repeat' (first | (with_reducible (first | (assumption) | (apply setTower_rep) | (apply writeBack_rep) | (refine forEach_rep ?_ ?_) | (refine ite_rep ?_ ?_) | split | (intro _) | (dsimp only))) | (apply ReportSide.rest; with_reducible (first | (assumption) | (apply setTower_rep) | (apply writeBack_rep) | (refine forEach_rep ?_ ?_))))

theorem hereRead_rep {a₀ : State} {s : State} {d : ℕ} {sys : Bool} {ctx : ℕ} {x : ℕ} {n : ℕ} {nc : Bool} (hk : ReportSide a₀ s) : ReportSide a₀ (hereRead s d sys ctx x n nc).2.2 := by
  unfold hereRead
  repeat' (first | (with_reducible (first | (assumption) | (apply recallLine_rep) | (apply homeRead_rep) | (refine homeRead_rep_of (by assumption) ?_) | (refine ite_rep ?_ ?_) | split | (intro _) | (dsimp only))) | (apply ReportSide.rest; with_reducible (first | (assumption) | (apply recallLine_rep) | (apply homeRead_rep) | (refine homeRead_rep_of (by assumption) ?_))))

theorem hereRead_rep_of {a₀ z : State} {s : State} {d : ℕ} {sys : Bool} {ctx : ℕ} {x : ℕ} {n : ℕ} {nc : Bool} {y0 : Code} {y1 : List Byte} (he : hereRead s d sys ctx x n nc = (y0, y1, z)) (hk : ReportSide a₀ s) : ReportSide a₀ z := by
  have := hereRead_rep (s := s) (d := d) (sys := sys) (ctx := ctx) (x := x) (n := n) (nc := nc) hk
  rwa [he] at this

theorem hereWrite_rep {a₀ : State} {s : State} {d : ℕ} {sys : Bool} {ctx : ℕ} {x : ℕ} {bs : List Byte} {nc : Bool} (hk : ReportSide a₀ s) : ReportSide a₀ (hereWrite s d sys ctx x bs nc).2 := by
  unfold hereWrite
  repeat' (first | (with_reducible (first | (assumption) | (apply recallLine_rep) | (apply homeWrite_rep) | (refine homeWrite_rep_of (by assumption) ?_) | (refine ite_rep ?_ ?_) | split | (intro _) | (dsimp only))) | (apply ReportSide.rest; with_reducible (first | (assumption) | (apply recallLine_rep) | (apply homeWrite_rep) | (refine homeWrite_rep_of (by assumption) ?_))))

theorem hereWrite_rep_of {a₀ z : State} {s : State} {d : ℕ} {sys : Bool} {ctx : ℕ} {x : ℕ} {bs : List Byte} {nc : Bool} {y0 : Code} (he : hereWrite s d sys ctx x bs nc = (y0, z)) (hk : ReportSide a₀ s) : ReportSide a₀ z := by
  have := hereWrite_rep (s := s) (d := d) (sys := sys) (ctx := ctx) (x := x) (bs := bs) (nc := nc) hk
  rwa [he] at this

theorem hereAtomic_rep {a₀ : State} {s : State} {d : ℕ} {ctx : ℕ} {x : ℕ} {n : ℕ} {func : ℕ} {b : ℕ} {c : ℕ} {nc : Bool} (hk : ReportSide a₀ s) : ReportSide a₀ (hereAtomic s d ctx x n func b c nc).2.2 := by
  unfold hereAtomic
  repeat' (first | (with_reducible (first | (assumption) | (apply recallLine_rep) | (apply homeAtomic_rep) | (refine homeAtomic_rep_of (by assumption) ?_) | (refine ite_rep ?_ ?_) | split | (intro _) | (dsimp only))) | (apply ReportSide.rest; with_reducible (first | (assumption) | (apply recallLine_rep) | (apply homeAtomic_rep) | (refine homeAtomic_rep_of (by assumption) ?_))))

theorem hereAtomic_rep_of {a₀ z : State} {s : State} {d : ℕ} {ctx : ℕ} {x : ℕ} {n : ℕ} {func : ℕ} {b : ℕ} {c : ℕ} {nc : Bool} {y0 : Code} {y1 : ℕ} (he : hereAtomic s d ctx x n func b c nc = (y0, y1, z)) (hk : ReportSide a₀ s) : ReportSide a₀ z := by
  have := hereAtomic_rep (s := s) (d := d) (ctx := ctx) (x := x) (n := n) (func := func) (b := b) (c := c) (nc := nc) hk
  rwa [he] at this

theorem rlcDrop_rep {a₀ : State} {s : State} {t : ℕ} {key : BitVec 64} (hk : ReportSide a₀ s) : ReportSide a₀ (rlcDrop s t key) := by
  unfold rlcDrop
  repeat' (first | (with_reducible (first | (assumption) | (apply writeBack_rep) | (apply modTower_rep) | (refine ite_rep ?_ ?_) | split | (intro _) | (dsimp only))) | (apply ReportSide.rest; with_reducible (first | (assumption) | (apply writeBack_rep) | (apply modTower_rep))))

theorem victimDrop_rep {a₀ : State} {s : State} {t : ℕ} {key : BitVec 64} (hk : ReportSide a₀ s) : ReportSide a₀ (victimDrop s t key) := by
  unfold victimDrop
  repeat' (first | (with_reducible (first | (assumption) | (apply modTower_rep) | (refine ite_rep ?_ ?_) | split | (intro _) | (dsimp only))) | (apply ReportSide.rest; with_reducible (first | (assumption) | (apply modTower_rep))))

theorem rlcBypass_rep {a₀ : State} {s : State} {t : ℕ} {key : BitVec 64} (hk : ReportSide a₀ s) : ReportSide a₀ (rlcBypass s t key) := by
  unfold rlcBypass
  repeat' (first | (with_reducible (first | (assumption) | (apply rlcDrop_rep) | (apply victimDrop_rep) | (refine ite_rep ?_ ?_) | split | (intro _) | (dsimp only))) | (apply ReportSide.rest; with_reducible (first | (assumption) | (apply rlcDrop_rep) | (apply victimDrop_rep))))

theorem sysRead_rep {a₀ : State} {s : State} {d : ℕ} {x : ℕ} {n : ℕ} (hk : ReportSide a₀ s) : ReportSide a₀ (sysRead s d x n).2.2 := by
  unfold sysRead
  repeat' (first | (with_reducible (first | (assumption) | (apply hereRead_rep) | (refine hereRead_rep_of (by assumption) ?_) | (refine ite_rep ?_ ?_) | split | (intro _) | (dsimp only))) | (apply ReportSide.rest; with_reducible (first | (assumption) | (apply hereRead_rep) | (refine hereRead_rep_of (by assumption) ?_))))

theorem sysRead_rep_of {a₀ z : State} {s : State} {d : ℕ} {x : ℕ} {n : ℕ} {y0 : Code} {y1 : ℕ} (he : sysRead s d x n = (y0, y1, z)) (hk : ReportSide a₀ s) : ReportSide a₀ z := by
  have := sysRead_rep (s := s) (d := d) (x := x) (n := n) hk
  rwa [he] at this

theorem sysWrite_rep {a₀ : State} {s : State} {d : ℕ} {x : ℕ} {bs : List Byte} (hk : ReportSide a₀ s) : ReportSide a₀ (sysWrite s d x bs).2 := by
  unfold sysWrite
  repeat' (first | (with_reducible (first | (assumption) | (apply hereWrite_rep) | (refine hereWrite_rep_of (by assumption) ?_) | (refine ite_rep ?_ ?_) | split | (intro _) | (dsimp only))) | (apply ReportSide.rest; with_reducible (first | (assumption) | (apply hereWrite_rep) | (refine hereWrite_rep_of (by assumption) ?_))))

theorem sysWrite_rep_of {a₀ z : State} {s : State} {d : ℕ} {x : ℕ} {bs : List Byte} {y0 : Code} (he : sysWrite s d x bs = (y0, z)) (hk : ReportSide a₀ s) : ReportSide a₀ z := by
  have := sysWrite_rep (s := s) (d := d) (x := x) (bs := bs) hk
  rwa [he] at this

theorem searchLoop_rep {a₀ : State} {d base vp n : ℕ} {s : State} {i : ℕ} {e : Option (BitVec 256)} (hk : ReportSide a₀ s) :
    ReportSide a₀ (searchLoop d base vp n s i e).2.2.2 := by
  induction n generalizing s i e with
  | zero => exact hk
  | succ n ih =>
    rw [searchLoop]
    have h : ReportSide a₀ (sysRead s d (base + 32 * (i + 2 ^ n)) 32).2.2 := sysRead_rep hk
    revert h
    generalize sysRead s d (base + 32 * (i + 2 ^ n)) 32 = z
    intro h
    dsimp only
    split
    · exact h
    · split
      · exact ih h
      · exact ih h

theorem search_rep {a₀ : State} {s : State} {d base log2n : ℕ} {en : Bool} {vp : ℕ} (hk : ReportSide a₀ s) :
    ReportSide a₀ (search s d base log2n en vp).2 := by
  unfold search
  split
  · exact hk
  · have h : ReportSide a₀ (searchLoop d base vp log2n s 0 none).2.2.2 := searchLoop_rep hk
    revert h
    generalize searchLoop d base vp log2n s 0 none = z
    obtain ⟨c, i, e, s1⟩ := z
    intro h
    dsimp only
    split
    · exact h
    · cases e with
      | some e =>
        dsimp only
        split
        · exact h
        · split <;> exact h
      | none =>
        have g : ReportSide a₀ (sysRead s1 d base 32).2.2 := sysRead_rep h
        revert g
        generalize sysRead s1 d base 32 = z
        intro g
        dsimp only
        split
        · exact g
        · split <;> exact g

theorem search_rep_of {a₀ z : State} {s : State} {d base log2n : ℕ} {en : Bool} {vp : ℕ} {y0 : Found}
    (he : search s d base log2n en vp = (y0, z)) (hk : ReportSide a₀ s) : ReportSide a₀ z := by
  have := search_rep (d := d) (base := base) (log2n := log2n) (en := en) (vp := vp) hk
  rwa [he] at this

theorem descOf_rep {a₀ : State} {s : State} {d : ℕ} {md : BitVec 64} {e : BitVec 256} (hk : ReportSide a₀ s) : ReportSide a₀ (descOf s d md e).2.2 := by
  unfold descOf
  repeat' (first | (with_reducible (first | (assumption) | (apply sysRead_rep) | (refine sysRead_rep_of (by assumption) ?_) | (refine ite_rep ?_ ?_) | split | (intro _) | (dsimp only))) | (apply ReportSide.rest; with_reducible (first | (assumption) | (apply sysRead_rep) | (refine sysRead_rep_of (by assumption) ?_))))

theorem descOf_rep_of {a₀ z : State} {s : State} {d : ℕ} {md : BitVec 64} {e : BitVec 256} {y0 : Code} {y1 : BitVec 256} (he : descOf s d md e = (y0, y1, z)) (hk : ReportSide a₀ s) : ReportSide a₀ z := by
  have := descOf_rep (s := s) (d := d) (md := md) (e := e) hk
  rwa [he] at this

theorem searchFill_rep {a₀ : State} {s : State} {d : ℕ} {x : ℕ} {base : ℕ} {log2n : ℕ} {en : Bool} {md : BitVec 64} {vp : ℕ} (hk : ReportSide a₀ s) : ReportSide a₀ (searchFill s d x base log2n en md vp).2 := by
  unfold searchFill
  repeat' (first | (with_reducible (first | (assumption) | (apply search_rep) | (refine search_rep_of (by assumption) ?_) | (apply descOf_rep) | (refine descOf_rep_of (by assumption) ?_) | (refine ite_rep ?_ ?_) | split | (intro _) | (dsimp only))) | (apply ReportSide.rest; with_reducible (first | (assumption) | (apply search_rep) | (refine search_rep_of (by assumption) ?_) | (apply descOf_rep) | (refine descOf_rep_of (by assumption) ?_))))

theorem searchFill_rep_of {a₀ z : State} {s : State} {d : ℕ} {x : ℕ} {base : ℕ} {log2n : ℕ} {en : Bool} {md : BitVec 64} {vp : ℕ} {y0 : (LbEntry ⊕ Code × ℕ)} (he : searchFill s d x base log2n en md vp = (y0, z)) (hk : ReportSide a₀ s) : ReportSide a₀ z := by
  have := searchFill_rep (s := s) (d := d) (x := x) (base := base) (log2n := log2n) (en := en) (md := md) (vp := vp) hk
  rwa [he] at this

theorem countWait_rep {a₀ : State} {s : State} {x : ℕ} (hk : ReportSide a₀ s) : ReportSide a₀ (countWait s x) := by
  unfold countWait
  repeat' (first | (with_reducible (first | (assumption) | (apply modCtx_rep) | (refine ite_rep ?_ ?_) | split | (intro _) | (dsimp only))) | (apply ReportSide.rest; with_reducible (first | (assumption) | (apply modCtx_rep))))

theorem migrIssue_rep {a₀ : State} {s : State} {m : Migr} (hk : ReportSide a₀ s) : ReportSide a₀ (migrIssue s m) := by
  unfold migrIssue
  repeat' (first | (with_reducible (first | (assumption) | (apply rlcDrop_rep) | (apply remoteAsk_rep) | (apply outSend_rep) | (refine forEach_rep ?_ ?_) | (refine ite_rep ?_ ?_) | split | (intro _) | (dsimp only))) | (apply ReportSide.rest; with_reducible (first | (assumption) | (apply rlcDrop_rep) | (apply remoteAsk_rep) | (apply outSend_rep) | (refine forEach_rep ?_ ?_))))

theorem migrHand_rep {a₀ : State} {s : State} {m : Migr} (hk : ReportSide a₀ s) : ReportSide a₀ (migrHand s m) := by
  unfold migrHand
  repeat' (first | (with_reducible (first | (assumption) | (apply migrIssue_rep) | (refine ite_rep ?_ ?_) | split | (intro _) | (dsimp only))) | (apply ReportSide.rest; with_reducible (first | (assumption) | (apply migrIssue_rep))))

theorem resolve_rep {a₀ : State} {s : State} {x : ℕ} {l : LbEntry} {va : BitVec 64} {need : Need} {hallRefuses : Bool} {d : ℕ} (hk : ReportSide a₀ s) : ReportSide a₀ (resolve s x l va need hallRefuses d).2.2 := by
  unfold resolve
  repeat' (first | (with_reducible (first | (assumption) | (apply migrHand_rep) | (apply sysRead_rep) | (refine sysRead_rep_of (by assumption) ?_) | (apply sysWrite_rep) | (refine sysWrite_rep_of (by assumption) ?_) | (refine ite_rep ?_ ?_) | split | (intro _) | (dsimp only))) | (apply ReportSide.rest; with_reducible (first | (assumption) | (apply migrHand_rep) | (apply sysRead_rep) | (refine sysRead_rep_of (by assumption) ?_) | (apply sysWrite_rep) | (refine sysWrite_rep_of (by assumption) ?_))))

theorem resolve_rep_of {a₀ z : State} {s : State} {x : ℕ} {l : LbEntry} {va : BitVec 64} {need : Need} {hallRefuses : Bool} {d : ℕ} {y0 : XSt} {y1 : LbEntry} (he : resolve s x l va need hallRefuses d = (y0, y1, z)) (hk : ReportSide a₀ s) : ReportSide a₀ z := by
  have := resolve_rep (s := s) (x := x) (l := l) (va := va) (need := need) (hallRefuses := hallRefuses) (d := d) hk
  rwa [he] at this

theorem hubEntry_rep {a₀ : State} {s : State} {x : ℕ} {va : BitVec 64} (hk : ReportSide a₀ s) : ReportSide a₀ (hubEntry s x va).2 := by
  unfold hubEntry
  repeat' (first | (with_reducible (first | (assumption) | (apply searchFill_rep) | (refine searchFill_rep_of (by assumption) ?_) | (refine ite_rep ?_ ?_) | split | (intro _) | (dsimp only))) | (apply ReportSide.rest; with_reducible (first | (assumption) | (apply searchFill_rep) | (refine searchFill_rep_of (by assumption) ?_))))

theorem hubEntry_rep_of {a₀ z : State} {s : State} {x : ℕ} {va : BitVec 64} {y0 : (LbEntry ⊕ Code × ℕ)} (he : hubEntry s x va = (y0, z)) (hk : ReportSide a₀ s) : ReportSide a₀ z := by
  have := hubEntry_rep (s := s) (x := x) (va := va) hk
  rwa [he] at this

theorem hubXlate_rep {a₀ : State} {s : State} {x : ℕ} {va : BitVec 64} {need : Need} {hallRefuses : Bool} (hk : ReportSide a₀ s) : ReportSide a₀ (hubXlate s x va need hallRefuses).2 := by
  unfold hubXlate
  repeat' (first | (with_reducible (first | (assumption) | (apply countWait_rep) | (apply hubEntry_rep) | (refine hubEntry_rep_of (by assumption) ?_) | (apply resolve_rep) | (refine resolve_rep_of (by assumption) ?_) | (refine ite_rep ?_ ?_) | split | (intro _) | (dsimp only))) | (apply ReportSide.rest; with_reducible (first | (assumption) | (apply countWait_rep) | (apply hubEntry_rep) | (refine hubEntry_rep_of (by assumption) ?_) | (apply resolve_rep) | (refine resolve_rep_of (by assumption) ?_))))

theorem hubXlate_rep_of {a₀ z : State} {s : State} {x : ℕ} {va : BitVec 64} {need : Need} {hallRefuses : Bool} {y0 : XSt} (he : hubXlate s x va need hallRefuses = (y0, z)) (hk : ReportSide a₀ s) : ReportSide a₀ z := by
  have := hubXlate_rep (s := s) (x := x) (va := va) (need := need) (hallRefuses := hallRefuses) hk
  rwa [he] at this

theorem ownFault_rep {a₀ : State} {s : State} {x : ℕ} {code : Code} {need : Need} {src : ℕ} {va : BitVec 64} (hk : ReportSide a₀ s) : ReportSide a₀ (ownFault s x code need src va) := by
  unfold ownFault
  repeat' (first | (with_reducible (first | (assumption) | (apply xfault_rep) | (refine ite_rep ?_ ?_) | split | (intro _) | (dsimp only))) | (apply ReportSide.rest; with_reducible (first | (assumption) | (apply xfault_rep))))

theorem hubLocal_rep {a₀ : State} {s : State} {x : ℕ} {src : ℕ} {o : ℕ} {nc : Bool} {va : BitVec 64} {need : Need} {n : ℕ} {bs : List Byte} {func : ℕ} {b : ℕ} {c : ℕ} (hk : ReportSide a₀ s) : ReportSide a₀ (hubLocal s x src o nc va need n bs func b c).s := by
  unfold hubLocal
  repeat' (first | (with_reducible (first | (assumption) | (apply homeRead_rep) | (refine homeRead_rep_of (by assumption) ?_) | (apply ownFault_rep) | (apply hereRead_rep) | (refine hereRead_rep_of (by assumption) ?_) | (apply hereWrite_rep) | (refine hereWrite_rep_of (by assumption) ?_) | (apply hereAtomic_rep) | (refine hereAtomic_rep_of (by assumption) ?_) | (refine ite_rep ?_ ?_) | split | (intro _) | (dsimp only))) | (apply ReportSide.rest; with_reducible (first | (assumption) | (apply homeRead_rep) | (refine homeRead_rep_of (by assumption) ?_) | (apply ownFault_rep) | (apply hereRead_rep) | (refine hereRead_rep_of (by assumption) ?_) | (apply hereWrite_rep) | (refine hereWrite_rep_of (by assumption) ?_) | (apply hereAtomic_rep) | (refine hereAtomic_rep_of (by assumption) ?_))) | (with_reducible (first | (injections; subst_vars) | (rename_i heq; revert heq; split <;> (intro heq; first | (cases heq) | skip)))))

theorem hubLocal_rep_of {a₀ z : State} {s : State} {x : ℕ} {src : ℕ} {o : ℕ} {nc : Bool} {va : BitVec 64} {need : Need} {n : ℕ} {bs : List Byte} {func : ℕ} {b : ℕ} {c : ℕ} {y1 : Code} {y2 : List Byte} (he : hubLocal s x src o nc va need n bs func b c = ⟨y1, y2, z⟩) (hk : ReportSide a₀ s) : ReportSide a₀ z := by
  have := hubLocal_rep (s := s) (x := x) (src := src) (o := o) (nc := nc) (va := va) (need := need) (n := n) (bs := bs) (func := func) (b := b) (c := c) hk
  rwa [he] at this

theorem hubBypass_rep {a₀ : State} {s : State} {src : ℕ} {ga : BitVec 64} (hk : ReportSide a₀ s) : ReportSide a₀ (hubBypass s src ga) := by
  unfold hubBypass
  repeat' (first | (with_reducible (first | (assumption) | (apply rlcBypass_rep) | (refine ite_rep ?_ ?_) | split | (intro _) | (dsimp only))) | (apply ReportSide.rest; with_reducible (first | (assumption) | (apply rlcBypass_rep))))

theorem hubRemote_rep {a₀ : State} {s : State} {x : ℕ} {src : ℕ} {ga : BitVec 64} {va : BitVec 64} {need : Need} {n : ℕ} {bs : List Byte} {func : ℕ} {b : ℕ} {c : ℕ} {r : Reply} {skip : ℕ} (hk : ReportSide a₀ s) : ReportSide a₀ (hubRemote s x src ga va need n bs func b c r skip).s := by
  unfold hubRemote
  repeat' (first | (with_reducible (first | (assumption) | (apply remoteAsk_rep) | (apply hubBypass_rep) | (apply ownFault_rep) | (apply spanAnswer_rep) | (refine spanAnswer_rep_of (by assumption) ?_) | (refine ite_rep ?_ ?_) | split | (intro _) | (dsimp only))) | (apply ReportSide.rest; with_reducible (first | (assumption) | (apply remoteAsk_rep) | (apply hubBypass_rep) | (apply ownFault_rep) | (apply spanAnswer_rep) | (refine spanAnswer_rep_of (by assumption) ?_))) | (with_reducible (first | (injections; subst_vars) | (rename_i heq; revert heq; split <;> (intro heq; first | (cases heq) | skip)))))

theorem hubRemote_rep_of {a₀ z : State} {s : State} {x : ℕ} {src : ℕ} {ga : BitVec 64} {va : BitVec 64} {need : Need} {n : ℕ} {bs : List Byte} {func : ℕ} {b : ℕ} {c : ℕ} {r : Reply} {skip : ℕ} {y1 : Code} {y2 : List Byte} (he : hubRemote s x src ga va need n bs func b c r skip = ⟨y1, y2, z⟩) (hk : ReportSide a₀ s) : ReportSide a₀ z := by
  have := hubRemote_rep (s := s) (x := x) (src := src) (ga := ga) (va := va) (need := need) (n := n) (bs := bs) (func := func) (b := b) (c := c) (r := r) (skip := skip) hk
  rwa [he] at this

theorem hubBus_rep {a₀ : State} {s : State} {x : ℕ} {src : ℕ} {a : ℕ} {va : BitVec 64} {need : Need} {n : ℕ} {bs : List Byte} {r : Reply} {skip : ℕ} (hk : ReportSide a₀ s) : ReportSide a₀ (hubBus s x src a va need n bs r skip).s := by
  unfold hubBus
  repeat' (first | (with_reducible (first | (assumption) | (apply outSend_rep) | (apply ownFault_rep) | (apply busAnswer_rep) | (refine busAnswer_rep_of (by assumption) ?_) | (refine ite_rep ?_ ?_) | split | (intro _) | (dsimp only))) | (apply ReportSide.rest; with_reducible (first | (assumption) | (apply outSend_rep) | (apply ownFault_rep) | (apply busAnswer_rep) | (refine busAnswer_rep_of (by assumption) ?_))) | (with_reducible (first | (injections; subst_vars) | (rename_i heq; revert heq; split <;> (intro heq; first | (cases heq) | skip)))))

theorem hubBus_rep_of {a₀ z : State} {s : State} {x : ℕ} {src : ℕ} {a : ℕ} {va : BitVec 64} {need : Need} {n : ℕ} {bs : List Byte} {r : Reply} {skip : ℕ} {y1 : Code} {y2 : List Byte} (he : hubBus s x src a va need n bs r skip = ⟨y1, y2, z⟩) (hk : ReportSide a₀ s) : ReportSide a₀ z := by
  have := hubBus_rep (s := s) (x := x) (src := src) (a := a) (va := va) (need := need) (n := n) (bs := bs) (r := r) (skip := skip) hk
  rwa [he] at this

theorem hubAccess_rep {a₀ : State} {s : State} {x : ℕ} {src : ℕ} {va : BitVec 64} {need : Need} {n : ℕ} {bs : List Byte} {func : ℕ} {b : ℕ} {c : ℕ} {r : Reply} {skip : ℕ} {hallRefuses : Bool} (hk : ReportSide a₀ s) : ReportSide a₀ (hubAccess s x src va need n bs func b c r skip hallRefuses).s := by
  unfold hubAccess
  repeat' (first | (with_reducible (first | (assumption) | (apply hubRemote_rep) | (refine hubRemote_rep_of (by assumption) ?_) | (apply hubBus_rep) | (refine hubBus_rep_of (by assumption) ?_) | (apply xfault_rep) | (apply hubXlate_rep) | (refine hubXlate_rep_of (by assumption) ?_) | (apply hubLocal_rep) | (refine hubLocal_rep_of (by assumption) ?_) | (refine ite_rep ?_ ?_) | split | (intro _) | (dsimp only))) | (apply ReportSide.rest; with_reducible (first | (assumption) | (apply hubRemote_rep) | (refine hubRemote_rep_of (by assumption) ?_) | (apply hubBus_rep) | (refine hubBus_rep_of (by assumption) ?_) | (apply xfault_rep) | (apply hubXlate_rep) | (refine hubXlate_rep_of (by assumption) ?_) | (apply hubLocal_rep) | (refine hubLocal_rep_of (by assumption) ?_))))

theorem hubAccess_rep_of {a₀ z : State} {s : State} {x : ℕ} {src : ℕ} {va : BitVec 64} {need : Need} {n : ℕ} {bs : List Byte} {func : ℕ} {b : ℕ} {c : ℕ} {r : Reply} {skip : ℕ} {hallRefuses : Bool} {y1 : Code} {y2 : List Byte} (he : hubAccess s x src va need n bs func b c r skip hallRefuses = ⟨y1, y2, z⟩) (hk : ReportSide a₀ s) : ReportSide a₀ z := by
  have := hubAccess_rep (s := s) (x := x) (src := src) (va := va) (need := need) (n := n) (bs := bs) (func := func) (b := b) (c := c) (r := r) (skip := skip) (hallRefuses := hallRefuses) hk
  rwa [he] at this

theorem hubWriteLoop_rep {a₀ : State} {x : ℕ} {src : ℕ} {need : Need} {r : Reply} {L : List (ℕ × ℕ)} {s : State} {b6 : List Byte} (hk : ReportSide a₀ s) : ReportSide a₀ (hubWriteLoop x src need r L s b6).s := by
  induction L generalizing s b6 with
  | nil => exact hk
  | cons p l ih =>
    obtain ⟨a, k⟩ := p
    rw [hubWriteLoop]
    repeat' (first | (with_reducible (first | (assumption) | (apply ih) | (apply hubAccess_rep) | (refine hubAccess_rep_of (by assumption) ?_) | (refine ite_rep ?_ ?_) | split | (intro _) | (dsimp only))) | (apply ReportSide.rest; with_reducible (first | (assumption) | (apply ih) | (apply hubAccess_rep) | (refine hubAccess_rep_of (by assumption) ?_))))

theorem hubWriteLoop_rep_of {a₀ z : State} {x : ℕ} {src : ℕ} {need : Need} {r : Reply} {L : List (ℕ × ℕ)} {s : State} {b6 : List Byte} {y1 : Code} {y2 : List Byte} (he : hubWriteLoop x src need r L s b6 = ⟨y1, y2, z⟩) (hk : ReportSide a₀ s) : ReportSide a₀ z := by
  have := hubWriteLoop_rep (x := x) (src := src) (need := need) (r := r) (L := L) (s := s) (b6 := b6) hk
  rwa [he] at this

theorem hubWrite_rep {a₀ : State} {s : State} {x : ℕ} {src : ℕ} {va : BitVec 64} {need : Need} {bs : List Byte} {r : Reply} (hk : ReportSide a₀ s) : ReportSide a₀ (hubWrite s x src va need bs r).s := by
  unfold hubWrite
  repeat' (first | (with_reducible (first | (assumption) | (apply hubWriteLoop_rep) | (refine hubWriteLoop_rep_of (by assumption) ?_) | (refine ite_rep ?_ ?_) | split | (intro _) | (dsimp only))) | (apply ReportSide.rest; with_reducible (first | (assumption) | (apply hubWriteLoop_rep) | (refine hubWriteLoop_rep_of (by assumption) ?_))))

theorem hubWrite_rep_of {a₀ z : State} {s : State} {x : ℕ} {src : ℕ} {va : BitVec 64} {need : Need} {bs : List Byte} {r : Reply} {y1 : Code} {y2 : List Byte} (he : hubWrite s x src va need bs r = ⟨y1, y2, z⟩) (hk : ReportSide a₀ s) : ReportSide a₀ z := by
  have := hubWrite_rep (s := s) (x := x) (src := src) (va := va) (need := need) (bs := bs) (r := r) hk
  rwa [he] at this

theorem storePush_rep {a₀ : State} {s : State} {op : StoreOp} {order : Option ℕ} (hk : ReportSide a₀ s) : ReportSide a₀ (storePush s op order) := by
  unfold storePush
  repeat' (first | (with_reducible (first | (assumption) | (apply withStore_rep) | (refine ite_rep ?_ ?_) | split | (intro _) | (dsimp only))) | (apply ReportSide.rest; with_reducible (first | (assumption) | (apply withStore_rep))))

theorem recUnits_rep {a₀ : State} {s : State} {f : UnitRecs → UnitRecs} {order : Option ℕ} (hk : ReportSide a₀ s) : ReportSide a₀ (recUnits s f order) := by
  unfold recUnits
  repeat' (first | (with_reducible (first | (assumption) | (apply storePush_rep) | (apply withKey_rep) | (refine ite_rep ?_ ?_) | split | (intro _) | (dsimp only))) | (apply ReportSide.rest; with_reducible (first | (assumption) | (apply storePush_rep) | (apply withKey_rep))))

theorem recRetire_rep {a₀ : State} {s : State} {u : ℕ} {order : Option ℕ} (hk : ReportSide a₀ s) : ReportSide a₀ (recRetire s u order) := by
  unfold recRetire
  repeat' (first | (with_reducible (first | (assumption) | (apply withStore_rep) | (apply recUnits_rep) | (refine ite_rep ?_ ?_) | split | (intro _) | (dsimp only))) | (apply ReportSide.rest; with_reducible (first | (assumption) | (apply withStore_rep) | (apply recUnits_rep))))

theorem eventDropped_rep {a₀ : State} {s : State} {x : ℕ} (hk : ReportSide a₀ s) : ReportSide a₀ (eventDropped s x) := by
  unfold eventDropped
  repeat' (first | (with_reducible (first | (assumption) | (apply modCtx_rep) | (refine ite_rep ?_ ?_) | split | (intro _) | (dsimp only))) | (apply ReportSide.rest; with_reducible (first | (assumption) | (apply modCtx_rep))))

theorem eventTry_rep_of {a₀ z : State} {s : State} {x : ℕ} {r : List Byte} (he : eventTry s x r = some z) (hk : ReportSide a₀ s) : ReportSide a₀ z := by
  unfold eventTry at he
  repeat' (first | split at he | (simp only [Option.some.injEq, Prod.mk.injEq, reduceCtorEq] at he) | (obtain ⟨-, rfl⟩ := he) | (subst he))
  all_goals repeat' (first | (with_reducible (first | (assumption) | (apply modCtx_rep) | (apply eventDropped_rep) | (apply interrupt_rep) | (apply hubWrite_rep) | (refine hubWrite_rep_of (by assumption) ?_) | (refine ite_rep ?_ ?_) | split | (intro _) | (dsimp only))) | (apply ReportSide.rest; with_reducible (first | (assumption) | (apply modCtx_rep) | (apply eventDropped_rep) | (apply interrupt_rep) | (apply hubWrite_rep) | (refine hubWrite_rep_of (by assumption) ?_))))

theorem event_rep {a₀ : State} {s : State} {x : ℕ} {r : List Byte} (hk : ReportSide a₀ s) : ReportSide a₀ (event s x r) := by
  unfold event
  repeat' (first | (with_reducible (first | (assumption) | (refine eventTry_rep_of (by assumption) ?_) | (refine ite_rep ?_ ?_) | split | (intro _) | (dsimp only))) | (apply ReportSide.rest; with_reducible (first | (assumption) | (refine eventTry_rep_of (by assumption) ?_))))

theorem rasCtx_rep {a₀ : State} {s : State} {x : ℕ} {code : Code} {q : ℕ} {unit : BitVec 32} (hk : ReportSide a₀ s) : ReportSide a₀ (rasCtx s x code q unit) := by
  unfold rasCtx
  repeat' (first | (with_reducible (first | (assumption) | (apply event_rep) | (refine ite_rep ?_ ?_) | split | (intro _) | (dsimp only))) | (apply ReportSide.rest; with_reducible (first | (assumption) | (apply event_rep))))

theorem report_rep {a₀ : State} {s : State} {xs : List ℕ} {code : Code} {kind : ℕ} {unit : BitVec 32} {detail : ℕ} (hk : ReportSide a₀ s) : ReportSide a₀ (report s xs code kind unit detail) := by
  unfold report
  repeat' (first | (with_reducible (first | (assumption) | (apply rasCtx_rep) | (apply rasTo_rep) | (refine forEach_rep ?_ ?_) | (refine ite_rep ?_ ?_) | split | (intro _) | (dsimp only))) | (apply ReportSide.rest; with_reducible (first | (assumption) | (apply rasCtx_rep) | (apply rasTo_rep) | (refine forEach_rep ?_ ?_))))

end Sys2Proof.Machine
end

