-- ==== Sys2Proof/Laws/Sched.lean ====
section
/-!
SUPPORT. The scheduler: which gang is served next, and what changes every core of a list.
-/

namespace Sys2Proof.Machine

theorem serveLe_of {s : State} {a b : Gang} (h : ServedBefore s a b) : serveLe s a b = true ∧ serveLe s b a = false := by
  unfold ServedBefore at h
  unfold serveLe rankLe
  dsimp only at h ⊢
  generalize gangPrio s a = pa at *
  generalize gangPrio s b = pb at *
  by_cases ha : a.st = .saved <;> by_cases hb : b.st = .saved <;> simp [ha, hb] at h ⊢ <;> omega

theorem serveLe_self (s : State) (a : Gang) : serveLe s a a = true := by
  simp [serveLe, rankLe]

theorem topGang_of {s : State} {x : Gang} (h : ServedNext s x) : topGang s = some x := by
  unfold topGang
  have key : ∀ (l : List Gang) (b : Option Gang), (∀ y ∈ l, y ∈ s.gangs ∧ asks s y = true) →
      (b = some x ∨ (x ∈ l ∧ ∀ y, b = some y → y ∈ s.gangs ∧ asks s y = true ∧ y ≠ x)) →
      l.foldl (fun best x => match best with
        | none => some x
        | some y => if serveLe s y x then some y else some x) b = some x := by
    intro l
    induction l with
    | nil =>
      intro b _ hb
      rcases hb with hb | ⟨hb, _⟩
      · exact hb
      · cases hb
    | cons z l ih =>
      intro b hl hb
      rw [List.foldl_cons]
      apply ih _ fun y hy => hl y (List.mem_cons_of_mem _ hy)
      have hz := hl z List.mem_cons_self
      rcases hb with hb | ⟨hm, hb⟩
      · left
        subst hb
        dsimp only
        by_cases hzx : z = x
        · subst hzx; rw [if_pos (serveLe_self s z)]
        · rw [if_pos (serveLe_of (h.first z hz.1 hz.2 hzx)).1]
      · by_cases hzx : z = x
        · left
          subst hzx
          cases b with
          | none => rfl
          | some y =>
            obtain ⟨h1, h2, h3⟩ := hb y rfl
            dsimp only
            rw [if_neg]
            rw [(serveLe_of (h.first y h1 h2 h3)).2]; decide
        · right
          refine ⟨?_, ?_⟩
          · rcases List.mem_cons.1 hm with e | e
            · exact absurd e.symm hzx
            · exact e
          · intro y hy
            cases b with
            | none => cases hy; exact ⟨hz.1, hz.2, hzx⟩
            | some w =>
              dsimp only at hy
              split at hy
              · cases hy; exact hb _ rfl
              · cases hy; exact ⟨hz.1, hz.2, hzx⟩
  apply key
  · intro y hy
    rw [List.mem_filter] at hy
    exact hy
  · right
    exact ⟨List.mem_filter.2 ⟨h.listed, h.asks⟩, fun y hy => by cases hy⟩

/-- Every core of a list changes by `f`, which does the same twice as once. -/
theorem getCore_forEach {f : CoreSt → CoreSt} (hf : ∀ k, f (f k) = f k) (c : Nat) : ∀ (l : List Nat) (s : State),
    getCore (forEach s l fun s c => modCore s c f) c = if c ∈ l then f (getCore s c) else getCore s c
  | [], s => by simp [forEach]
  | d :: l, s => by
    rw [forEach, getCore_forEach hf c l]
    by_cases hd : c = d
    · subst hd
      rw [getCore_modCore_self, hf]
      simp
    · rw [getCore_modCore_ne _ _ hd]
      simp [hd]

theorem forEach_cores {α : Type} {f : State → α → State} (hf : ∀ s x, f s x = { s with cores := (f s x).cores }) :
    ∀ (l : List α) (s : State), forEach s l f = { s with cores := (forEach s l f).cores }
  | [], s => rfl
  | x :: l, s => by
    show forEach (f s x) l f = { s with cores := (forEach (f s x) l f).cores }
    have h := forEach_cores hf l (f s x)
    rw [h]
    rw [hf s x]

theorem placeGang_placed (s : State) (x : Gang) (cs : List Nat) (ph : CorePhase) (st : GangSt) :
    Placed s (placeGang s x cs ph st) x cs ph st := by
  unfold placeGang
  dsimp only
  have e := forEach_cores (f := fun (s : State) (c : Nat) => modCore s c fun k => { k with phase := ph, gang := some x.id })
    (fun _ _ => rfl) cs (setGang s { x with st := st, cores := x.cores ++ (openRanks x).zip cs })
  refine ⟨?_, ?_, ?_⟩
  · rw [e]; rfl
  · rw [e]; rfl
  · intro c
    exact (getCore_forEach (f := fun k => { k with phase := ph, gang := some x.id }) (fun _ => rfl) c cs _).trans rfl

theorem chooseCores_nodup {s : State} {x n : Nat} {cs : List Nat} (h : chooseCores s x n = some cs) : cs.Nodup := by
  unfold chooseCores at h
  dsimp only at h
  rw [Option.map_eq_some_iff] at h
  obtain ⟨v, _, rfl⟩ := h
  exact List.nodup_range.filter _

/-- Pairs whose second parts differ: each is met once. -/
theorem getCore_forEach_pairs {f : Nat → CoreSt → CoreSt} (c : Nat) : ∀ (l : List (Nat × Nat)) (s : State), (l.map Prod.snd).Nodup →
    getCore (forEach s l fun s p => modCore s p.2 (f p.1)) c =
      match l.find? (fun p => p.2 = c) with
      | some p => f p.1 (getCore s c)
      | none => getCore s c
  | [], s, _ => rfl
  | p :: l, s, h => by
    rw [List.map_cons, List.nodup_cons] at h
    rw [forEach, getCore_forEach_pairs c l _ h.2, List.find?_cons]
    by_cases hp : p.2 = c
    · have hn : l.find? (fun q => decide (q.2 = c)) = none := by
        rw [List.find?_eq_none]
        intro q hq hqc
        rw [decide_eq_true_eq] at hqc
        exact h.1 (List.mem_map.2 ⟨q, hq, hqc.trans hp.symm⟩)
      rw [hn]
      dsimp only
      rw [decide_eq_true hp]
      dsimp only
      rw [← hp, getCore_modCore_self]
    · rw [decide_eq_false hp]
      dsimp only
      rw [getCore_modCore_ne _ _ (fun e => hp e.symm)]

theorem prep_ctx_foldl (l : List (Nat × BitVec 64)) (k : CoreSt) :
    OnlyRegs k (l.foldl (fun k p => setS k p.1 p.2) k) := by
  induction l generalizing k with
  | nil => exact OnlyRegs.refl k
  | cons p l ih => exact (setS_onlyRegs k _ _).trans (ih _)

theorem waitsMet_of {n : NodeRun} {p : List Byte} (h1 : ∀ i, bt (phWait p) i = true → bt n.posted i = true)
    (h2 : phBar p = true → ∀ x ∈ n.pkts, x.st = .done) : waitsMet n p = true := (waits_iff n p).2 ⟨h1, h2⟩

theorem sreg_of_regs {k l : CoreSt} (h : l.regs.s = k.regs.s) (r : Nat) : sreg l r = sreg k r := by unfold sreg; rw [h]

theorem zip_snd_sublist : ∀ (a b : List Nat), ((a.zip b).map Prod.snd).Sublist b
  | [], b => by simp
  | _ :: _, [] => by simp
  | _ :: a, y :: b => by simpa using zip_snd_sublist a b

/-- What a kernel finds at its start (R171, R172). -/
theorem prepareKernel_spec (k : CoreSt) (x : Gang) (r : Nat) :
    (prepareKernel k x r).ctx = x.ctx ∧ (prepareKernel k x r).regs.pc = x.entry ∧ sreg (prepareKernel k x r) 2 = BitVec.ofNat 64 r ∧
      (k.lastCtx ≠ some x.ctx → (prepareKernel k x r).mem.acc = []) := by
  unfold prepareKernel
  dsimp only
  generalize hk1 : ({ startState (clearFor k x.ctx) with
    mem := { (startState (clearFor k x.ctx)).mem with spad := spadWr (startState (clearFor k x.ctx)).mem.spad x.inlOff.toNat x.inl },
    ctx := x.ctx } : CoreSt) = k1
  have h1 := prep_ctx_foldl x.sregs k1
  generalize x.sregs.foldl (fun k p => setS k p.1 p.2) k1 = k2 at *
  have h2 : OnlyRegs k1 (setS k2 2 (BitVec.ofNat 64 r)) := h1.trans (setS_onlyRegs _ _ _)
  have h2s : sreg (setS k2 2 (BitVec.ofNat 64 r)) 2 = BitVec.ofNat 64 r := by rw [sreg_setS]; simp
  generalize setS k2 2 (BitVec.ofNat 64 r) = k3 at *
  have h3 : OnlyRegs k1 (if x.inl = [] then k3 else setA k3 1 (x.inlOff.setWidth 64)) ∧
      sreg (if x.inl = [] then k3 else setA k3 1 (x.inlOff.setWidth 64)) 2 = BitVec.ofNat 64 r := by
    split
    · exact ⟨h2, h2s⟩
    · exact ⟨h2.trans (setA_onlyRegs _ _ _), by rw [sreg_of_regs (setA_s _ _ _)]; exact h2s⟩
  generalize (if x.inl = [] then k3 else setA k3 1 (x.inlOff.setWidth 64)) = k4 at *
  obtain ⟨h4, h4s⟩ := h3
  refine ⟨?_, rfl, h4s, ?_⟩
  · show k4.ctx = x.ctx
    rw [h4, ← hk1]
  · intro hl
    show k4.mem.acc = []
    rw [h4, ← hk1]
    show (clearFor k x.ctx).mem.acc = []
    unfold clearFor
    rw [if_neg hl]

theorem ite_mem_cons {α : Type} {c : Nat} {p : Nat × Nat} {l : List (Nat × Nat)} (hc : c ≠ p.2) (a b : α) :
    (if c ∈ l.map Prod.snd then a else b) = if c ∈ (p :: l).map Prod.snd then a else b := by
  by_cases hm : c ∈ l.map Prod.snd
  · rw [if_pos hm, if_pos (show c ∈ (p :: l).map Prod.snd from List.mem_cons_of_mem _ hm)]
  · rw [if_neg hm, if_neg]
    intro h
    rcases List.mem_cons.1 h with h | h
    · exact hc h
    · exact hm h

/-- Cores of a list run, each after the acquire of its tower. -/
theorem forEach_acquire {f : CoreSt → CoreSt} (hf : ∀ k, f (f k) = f k) : ∀ (l : List (Nat × Nat)) (s : State),
    (forEach s l fun s p => modCore (acquire s (towerOf p.2)) p.2 f) =
      { s with cores := (forEach s l fun s p => modCore (acquire s (towerOf p.2)) p.2 f).cores,
               towers := (forEach s l fun s p => modCore (acquire s (towerOf p.2)) p.2 f).towers } ∧
    ∀ c, getCore (forEach s l fun s p => modCore (acquire s (towerOf p.2)) p.2 f) c =
      if c ∈ l.map Prod.snd then f (getCore s c) else getCore s c
  | [], s => ⟨rfl, fun c => by simp [forEach]⟩
  | p :: l, s => by
    obtain ⟨h1, h2⟩ := forEach_acquire hf l (modCore (acquire s (towerOf p.2)) p.2 f)
    rw [forEach]
    refine ⟨?_, ?_⟩
    · rw [h1]; rfl
    · intro c
      rw [h2]
      have ha : ∀ c, getCore (acquire s (towerOf p.2)) c = getCore s c := fun c => rfl
      by_cases hc : c = p.2
      · subst hc
        rw [getCore_modCore_self, ha, hf]
        simp
      · rw [getCore_modCore_ne _ _ hc, ha]
        exact ite_mem_cons hc _ _

theorem getCore_forEach_snd {f : CoreSt → CoreSt} (hf : ∀ k, f (f k) = f k) (c : Nat) : ∀ (l : List (Nat × Nat)) (s : State),
    getCore (forEach s l fun s p => modCore s p.2 f) c = if c ∈ l.map Prod.snd then f (getCore s c) else getCore s c
  | [], s => by simp [forEach]
  | p :: l, s => by
    rw [forEach, getCore_forEach_snd hf c l]
    by_cases hd : c = p.2
    · subst hd
      rw [getCore_modCore_self, hf]
      simp
    · rw [getCore_modCore_ne _ _ hd]
      exact ite_mem_cons hd _ _

end Sys2Proof.Machine
end

