-- ==== Sys2Proof/WellFormed.lean ====
section
/-!
DEFINITION. Which commands are well formed: operands that name a byte, a place or a length lie within the unit they name. Words of
sequencer instructions are all well formed, since an illegal word has an effect of its own (R138).
-/

namespace Sys2Proof

/-- The bytes of the BAR2 window (Table 11.2). -/
def bar2Bytes : Nat := 0x10000000
/-- The bytes of an HBM channel (R274). -/
def channelBytes : Nat := 0x48000000

/-- The bytes of a host write fill the access. -/
def dataFits : Option (List Byte) → Nat → Bool
  | none, _ => true
  | some d, n => decide (d.length = n)

/-- A Mason store brings as many bytes as it names; a read brings none. -/
def masonFits : MasonKind → Nat → List Byte → Bool
  | .load, _, d => decide (d.length = 0)
  | .ifetch, _, d => decide (d.length = 0)
  | .store, n, d => decide (d.length = n)
  | .writeback, n, d => decide (d.length = n)

/-- A Span packet carries at most 256 bytes (Table 10.12). -/
def pktOk (k : SpanPkt) : Bool := decide (k.data.length ≤ 256)

/-- A completion code of Table 0.5: 0x18 to 0xFF are not used (R11). -/
def codeOk (c : Code) : Bool := decide (c.toNat < 0x18)

/-- A reply that fails does so with a code of Table 0.5. -/
def replyOk : Reply → Bool
  | .home => true
  | .ok _ => true
  | .fail c => codeOk c

/-- The measurements of one interval: one value for each sensor (Table 12.11). -/
def measOk (m : PowerMeas) : Bool := decide (m.sensors.length = 74)

/-- A register write names a byte of its space and an access size that exists. -/
def regOk (t : RegTarget) (size : Nat) : Bool :=
  decide (size = 1 ∨ size = 2 ∨ size = 4 ∨ size = 8) && (match t with
    | .hub _ off => decide (off + size ≤ 0x4000000)
    | .mailbox _ off => decide (off + size ≤ 0x1000)
    | .key _ => true)

/-- Whether a command is well formed. -/
def Instr.wellFormed : Instr → Bool
  | .nop _ _ => true
  | .add _ _ => true
  | .sub _ _ => true
  | .and_ _ _ => true
  | .or_ _ _ => true
  | .xor _ _ => true
  | .sll _ _ => true
  | .srl _ _ => true
  | .sra _ _ => true
  | .mul _ _ => true
  | .mulhu _ _ => true
  | .slt _ _ => true
  | .sltu _ _ => true
  | .min _ _ => true
  | .max _ _ => true
  | .addi _ _ => true
  | .andi _ _ => true
  | .ori _ _ => true
  | .xori _ _ => true
  | .slli _ _ => true
  | .srli _ _ => true
  | .srai _ _ => true
  | .slti _ _ => true
  | .sltiu _ _ => true
  | .li _ _ => true
  | .lih _ _ => true
  | .beq _ _ => true
  | .bne _ _ => true
  | .blt _ _ => true
  | .bge _ _ => true
  | .bltu _ _ => true
  | .bgeu _ _ => true
  | .jal _ _ => true
  | .jr _ _ => true
  | .loop _ _ => true
  | .mvlc _ _ => true
  | .mvsa _ _ => true
  | .adda _ _ => true
  | .lds _ _ => true
  | .sts _ _ => true
  | .ld _ _ => true
  | .st _ _ => true
  | .amo _ _ => true
  | .seqAccessComplete _ _ r => replyOk r
  | .fence _ _ => true
  | .fenceComplete _ => true
  | .rdcr _ _ => true
  | .wrcr _ _ => true
  | .amm _ _ _ => true
  | .ammAccept _ _ => true
  | .ammFirstArrayCycle _ _ => true
  | .ammTileDrain _ _ => true
  | .ammComplete _ _ => true
  | .ashlarSingleBitError _ _ _ => true
  | .ashlarDoubleBitError _ _ => true
  | .chn _ _ => true
  | .chiselAccept _ => true
  | .chnFirstBeat _ => true
  | .chnComplete _ => true
  | .cfold _ _ => true
  | .cfoldFirstRow _ => true
  | .cfoldComplete _ => true
  | .ctbl _ _ => true
  | .ctblComplete _ => true
  | .chiselEccError _ _ _ => true
  | .chsDirectGo _ _ => true
  | .dma _ _ => true
  | .dmaDescriptorStart _ _ => true
  | .dmaTimedRelease _ _ => true
  | .dmaLineComplete _ _ r => replyOk r
  | .dmaDescriptorComplete _ _ => true
  | .dmaSignalDone _ _ r => replyOk r
  | .waite _ _ => true
  | .waiteComplete _ => true
  | .waitf _ _ => true
  | .waitfEvaluate _ r => replyOk r
  | .waitfDeadline _ => true
  | .waitp _ _ => true
  | .plumbWaitRelease _ => true
  | .rdplumb _ _ => true
  | .end_ _ _ => true
  | .nodeEnd _ => true
  | .kernelFaultEnd _ => true
  | .nodeStart _ => true
  | .spadEccError _ _ _ => true
  | .coreCommit _ _ => true
  | .commitApply _ => true
  | .ecodeClr _ _ => true
  | .vclr _ => true
  | .directKernelGo _ _ => true
  | .mortarCrcFail f grp _ => decide (grp < (if f.val < 256 then 136 else 272))
  | .mortarSteerDone _ => true
  | .lintelFlitCrcFail _ _ _ => true
  | .lintelClockLockLoss _ _ => true
  | .lintelRetrainDone _ _ => true
  | .lintelRemapDone _ => true
  | .qdbPush _ _ => true
  | .qctlWrite _ _ _ => true
  | .gclr _ => true
  | .queuePop r => replyOk r
  | .entryStart _ r => replyOk r
  | .packetIssue _ _ r => replyOk r
  | .packetNop _ _ _ => true
  | .dispatch _ _ _ => true
  | .write _ _ _ r => replyOk r
  | .signal _ _ _ r => replyOk r
  | .waitmem _ _ _ r => replyOk r
  | .waitmemEvaluate _ _ _ r => replyOk r
  | .poolAlloc _ _ _ => true
  | .poolFree _ _ _ => true
  | .enq _ _ _ r => replyOk r
  | .enqRetry _ _ _ r => replyOk r
  | .ginit _ _ _ => true
  | .gpatch _ _ _ => true
  | .gretire _ _ _ => true
  | .packetComplete _ _ _ => true
  | .nodeReady _ _ => true
  | .entryComplete _ => true
  | .hangDetect _ => true
  | .queueResetFinish _ => true
  | .cevctlWrite _ _ _ => true
  | .cevptrWrite _ _ _ => true
  | .coreGrant => true
  | .timedPrepare _ => true
  | .timedRelease _ => true
  | .preempt _ => true
  | .coreSaveDone _ => true
  | .restore _ => true
  | .coreFailure _ => true
  | .schedulerEpoch => true
  | .poolctlWrite _ _ _ => true
  | .poolEnableDone _ => true
  | .poolEpochEnd => true
  | .tableSearch _ => true
  | .tableSearchDone _ => true
  | .xctlInv _ _ => true
  | .xctlEn _ _ _ => true
  | .invalidationDone _ => true
  | .owncmd _ _ => true
  | .owncmdDone => true
  | .bar2Access off size wr => decide (0 < size ∧ off + size ≤ bar2Bytes) && dataFits wr size
  | .migrationComplete _ r => replyOk r
  | .migrationFail _ c => codeOk c
  | .migratePendingRecheck _ => true
  | .hbmCorrectableRead _ y => decide (y.off < channelBytes)
  | .hbmUncorrectableRead _ y _ => decide (y < channelBytes)
  | .hbmLinkError _ _ => true
  | .hbmRetrainDone _ _ => true
  | .rowRemap _ _ _ _ _ => true
  | .channelRetire _ => true
  | .recalStart _ _ => true
  | .recalStep _ _ => true
  | .quarryKindChange _ _ => true
  | .quarryEccError _ _ _ _ => true
  | .rlcRead _ _ _ _ _ _ _ => true
  | .rlcWrite _ _ _ _ _ off data _ => decide (0 < data.length ∧ off + data.length ≤ 64)
  | .releaseFlush _ => true
  | .releaseFlushDone _ => true
  | .rlcEccError _ _ _ _ => true
  | .flitReceive _ _ _ body _ => body.all pktOk
  | .laneLeave _ _ _ => true
  | .portHoldEnd _ => true
  | .laneRetrainAttemptEnd _ _ _ => true
  | .portRetrainAttemptEnd _ _ _ => true
  | .portDownRetry _ => true
  | .portTrained _ _ _ => true
  | .spanCommit _ => true
  | .routeEnWrite _ _ => true
  | .protoActWrite _ _ => true
  | .spanIdWrite _ _ => true
  | .routeGo _ => true
  | .routeSwitch => true
  | .routeDrainEnd => true
  | .packetRoute _ k => pktOk k
  | .packetStaleDrop _ _ => true
  | .remoteRequestServe k => pktOk k
  | .remoteResponse k => pktOk k
  | .remoteTimeout _ => true
  | .mgmtAccess k => pktOk k
  | .plumbInterval _ _ _ => true
  | .plumbRootLockTimeout => true
  | .outboundCompletion _ _ => true
  | .pcieLinkReset => true
  | .msixUnmask _ => true
  | .masonAccess _ size k wr => decide (0 < size ∧ size ≤ 64) && masonFits k.kind size wr
  | .vmodLoss => true
  | .vmodReturn => true
  | .domainTransitionDone _ => true
  | .clockChangeApply _ => true
  | .regulatorSettled _ => true
  | .avsSilent _ => true
  | .powerInterval m => measOk m
  | .groupFreqStep p => decide (p.length = 64)
  | .buttressEntered => true
  | .buttressEnd => true
  | .thermalTrip _ => true
  | .thermalShutdown => true
  | .coolantStale => true
  | .modEnWrite _ _ => true
  | .modRampStart _ => true
  | .modOn _ => true
  | .modWindowEnd _ _ => true
  | .modCurrentLimit _ _ => true
  | .modLimitLatch _ => true
  | .modRetry _ => true
  | .modRetriesClear _ => true
  | .modCtlClr _ => true
  | .powerOnReset => true
  | .brownOutReset _ => true
  | .pinReset => true
  | .watchdogReset => true
  | .softwareReset => true
  | .debugReset => true
  | .refclkFailureReset => true
  | .keystoneLockupReset _ => true
  | .resetSourceEnd _ => true
  | .resetReleaseStep _ => true
  | .memoryStepsDone _ _ => true
  | .startupDone => true
  | .storeUpdateDone _ => true
  | .mbGo _ _ => true
  | .arbitrationSlot => true
  | .sysInfo => true
  | .sysCause => true
  | .sysReset => true
  | .sysOffline => true
  | .packageStop => true
  | .sysDrv => true
  | .sysM3 => true
  | .sysSetread => true
  | .pwrCap => true
  | .pwrFreq => true
  | .pwrDomain => true
  | .pwrStatus => true
  | .thmCoolant => true
  | .thmStatus => true
  | .memIntlv => true
  | .memQkind => true
  | .memStatus => true
  | .spanId => true
  | .spanPorts => true
  | .spanPlumb => true
  | .spanPortclr => true
  | .spanSend => true
  | .spanRoute => true
  | .spanSwitch => true
  | .spanCtl => true
  | .spanStatus => true
  | .calRead => true
  | .calVoff => true
  | .calAsym => true
  | .calHbm => true
  | .calHbmDone => true
  | .calClear => true
  | .fwWrite _ => true
  | .fwSeal _ _ _ => true
  | .fwActivate => true
  | .fwHandoverDone _ => true
  | .fwCommit => true
  | .fwAutoCommit => true
  | .fwStatus => true
  | .rasRead => true
  | .rasRetire => true
  | .rasClear => true
  | .testCfg => true
  | .testRun => true
  | .testStatus => true
  | .selfTestRotation => true
  | .selfTestDone _ => true
  | .modSet => true
  | .modClr => true
  | .modStatus => true
  | .mbRasRptrWrite _ _ => true
  | .i3cPrivateWrite _ => true
  | .i3cPrivateRead n => decide (0 < n)
  | .idcode => true
  | .bypass => true
  | .sample => true
  | .extest pads => pads.all fun p => decide (p.1 < 136)
  | .dbgHalt => true
  | .dbgEnFall => true
  | .registerWrite t size _ => regOk t size
  | .powerLoss => true
  | .buttressNRise => true
  | .dbgEnRise => true
  | .pcieLinkUp => true
  | .pcieConfigWrite _ dev _ _ => dev.mps.toNat ≤ 2 && dev.mrrs.toNat ≤ 5
  | .masonHartsStopped _ => true
  | .dynamicAddressAssignment _ => true

/-- A command is well formed. -/
abbrev WellFormed (i : Instr) : Prop := i.wellFormed = true

end Sys2Proof
end

