-- ==== Sys2Proof/Tests/Slice0.lean ====
section
/-!
SUPPORT. The author's tests: ill-formed commands, worked values of the source, single steps, and for each clause of each statement
a state and operands that meet its hypotheses together.
-/

namespace Sys2Proof.Tests

open Sys2Proof.Machine

set_option Elab.async false

/-! ## States of the tests -/

/-- The package with core 0 in a state. -/
def sc (k : CoreSt) : State := { State.reset with cores := [(0, k)] }
/-- A core that runs a kernel. -/
def kRun : CoreSt := { phase := .running, gang := some 0 }
/-- Granule 0 is SHARED. -/
def sOwn (k : CoreSt) : State := { sc k with owner := [(0, 0x8000)] }

theorem issues_of {s : State} {c : Core} {b : Bool} {r : List Nat} (h : canIssue (getCore s c.val) = true ∧ b = true ∧
    ∀ x ∈ r, busyReg (getCore s c.val) x = false) : Issues s c b r := ⟨h.1, h.2.1, h.2.2⟩

theorem plainLine0 {s : State} {x o : Nat} (h0 : o / 64 = 0) (h : ∀ a < 64, present s a = true ∧ ownOk s false x a = true ∧
    noStorage s a = false ∧ marker s a = none ∧ homeFind s a = none ∧ ∀ t < 8, rlcFind s t (lineKey s a) = none) : PlainLine s x o :=
  fun a ha => h a (by omega)
/-- A core that runs a direct kernel. -/
def kDirect : CoreSt := { cr := { coreDirect := 0x20000000 } }
/-- A core that runs a kernel inside loops. -/
def kLoop (l : Tab LoopReg) : CoreSt := { phase := .running, gang := some 0, regs := { lc := l } }
/-- An access to the last 8 bytes of line 0. -/
def accL : Access := { id := 0, kind := .load, va := 56, size := 8, sd := 1, sx := false, func := 0, data := 0, cmp := 0, pc := 0, x := .target (.loc 56) true, issued := 0 }
def accF : Access := { accL with kind := .flag }
def line0 : CombLine := { line := 0, bytes := (List.range 64).map fun i => (i, some 1), nc := true, pc := 0, va := 0 }
def held0 : HeldOp := { kind := .chn, w0 := 0, w1 := 0, disp := 0, pc := 0, vals := [], direct := false }

theorem plainAcc {s : State} {c : Nat} {a : Access}
    (h : (getCore s c).accs[0]? = some a ∧ a.x = .target (.loc 56) true ∧ blockedBy (getCore s c).accs a = false ∧ onItsWay s c a = false ∧
      (getCore s c).comb = [] ∧ a.size ≤ 8)
    (h1 : ∀ x < 64, present s x = true ∧ ownOk s false (getCore s c).ctx x = true ∧ noStorage s x = false ∧ marker s x = none ∧
      homeFind s x = none ∧ ∀ t < 8, rlcFind s t (lineKey s x) = none) : PlainAccess s c 0 a 56 :=
  have ⟨listed, target, first, route, comb, _⟩ := h
  { listed, target, first, route, comb, line := plainLine0 (by decide) h1, within := by omega }
def gang0 : Gang := { id := 0, queue := 0, ctx := 0, node := 0, off := 0, want := 1, entry := 0, inl := [], inlOff := 0, sregs := [], reach := 0, release := none, st := .running, cores := [(0, 0)], started := 0, ended := [], slots := [], hidden := [], pkt := [] }
def fault0 : KFault := ⟨St.illegalOp, 1, 0, 0, 0⟩
/-- An AMM of one 64 × 64 tile in engine 0, with K = 8, that wraps. -/
def amm0 : HeldOp := { kind := .amm, w0 := 0x4002001FFE008000, w1 := 0, disp := 0, pc := 0, vals := [0, 0, 0, 0, 0, 0, 0, 0, 256], direct := false }
def run0 : RunOp := { op := amm0, stage := .checked, tiles := [0], drains := [0], code := 0, desc := [], ofds := [9, 9], luts := [], skips := [], tables := [], epoch := 0 }
/-- A chain that clears one word of the scratchpad at 0. -/
def clear0 : List Byte := toLe 8 (2 ^ 35) ++ List.replicate 120 0 ++ toLe 16 1 ++ List.replicate 16 0
/-- A chain with a GATHER whose index reads −1. -/
def gather0 : List Byte := toLe 8 (2 ^ 31) ++ List.replicate 56 0 ++ toLe 16 2 ++ List.replicate 80 0
def desc0 : DmaDesc := { raw := 0, disp := 0, pc := 0 }

theorem accepts_of {s : State} {c u : Nat} {o : HeldOp} (h : holdOf (getCore s c) u = some o ∧ mayAccept (getCore s c) = true ∧
    entryBusy (getCore s c) u = false ∧ heldAllows (getCore s c) o = true ∧ (getGroup s (c / 4)).blocked = false) : Accepts s c u o :=
  have ⟨held, may, entry, order, group⟩ := h
  ⟨held, may, entry, order, group⟩
theorem ready0 {k : CoreSt} {u : Nat} {r : RunOp} (h : (opsOf k u)[0]? = some r ∧ r.stage = .checked ∧ tilesFree k r.op r.tiles = true) :
    Ready k u 0 r := ⟨h.1, h.2.1, fun _ hj => absurd hj (Nat.not_lt_zero _), h.2.2⟩
theorem chan_of {s : State} {c ch : Nat} {h : DmaDesc} (e : (chanAt (getCore s c) ch).queue.head? = some h ∧ dmaRuns (getCore s c) = true) :
    ChannelHas s c ch h := ⟨e.1, e.2⟩
theorem mapsTo_of {s : State} {lb : List LbEntry} {x : Nat} {va : BitVec 64} {need : Need} {l : LbEntry} {o : Nat}
    (h : lbFind lb x (va.toNat / 4096) = some l ∧ reMalformed s l.mdc l.entry l.desc = false ∧ permits l.entry need = true ∧
      (reMig l.entry = false ∧ reTkind l.entry = 0 ∧ reNc l.entry = true) ∧
      levelOf s (reTarget l.entry + (va.toNat - reStart l.entry * 4096)) = 0 ∧
      reTarget l.entry + (va.toNat - reStart l.entry * 4096) < 2 ^ 58 ∧
      o = (reTarget l.entry + (va.toNat - reStart l.entry * 4096)) % 2 ^ 41) : MapsTo s lb x va need l o :=
  have ⟨find, formed, permits, range, own, inside, offset⟩ := h
  { find, formed, permits, range, own, inside, offset }
theorem none_before {P : Nat → Prop} : ∀ j < 0, P j := fun _ hj => absurd hj (Nat.not_lt_zero _)
def run1 : RunOp := { run0 with stage := .running, op := { amm0 with w0 := 0x4002001FFE00B800 } }
theorem run1_cells : ∀ a b : Nat, 64 * (0, 0).1 ≤ a → a < 64 * (0, 0).1 + 64 → a < amM run1.op.w0 → 64 * (0, 0).2 ≤ b → b < 64 * (0, 0).2 + 64 →
    b < amN run1.op.w0 → ¬(amCoff run1.op + a * amCpitch run1.op + 4 * b ≤ 16384 ∧ 16384 < amCoff run1.op + a * amCpitch run1.op + 4 * b + 4) := by
  intro a b _ h1 _ _ h2 _
  rw [show amCpitch run1.op = 256 by decide, show amCoff run1.op = 0 by decide]
  omega
def chain0 (d : List Byte) : RunOp := { run0 with op := held0, tiles := [], desc := d, ofds := [] }
def kDma (d : DmaDesc) (p : DmaPhase) : CoreSt := { phase := .running, gang := some 0, dma := [(3, { queue := [d], phase := p })] }
/-- Translation of the hub maps context 0 onto local memory, of which granule 0 is SHARED. -/
def sHub : State := { State.reset with hlb := [lbId], owner := [(0, 0x8000)] }
def pkt0 (op : BitVec 8) (st : PktSt) (raw : List Byte) : PktRun := { off := 0, op := op, slot := 0, raw := raw, issued := 0, st := st }
def node0 (l : List PktRun) (n : Nat) : NodeRun := { idx := 0, buf := 0, len := 64, atOff := 0, restart := false, st := .running, next := n, named := 0, posted := 0, pkts := l, first := true, redisp := 0, headAt := none }
/-- A running entry of 64 bytes at 0. -/
def entry0 : EntryRun := { raw := 1 :: List.replicate 63 0, readable := true, idx := 0, tStart := 0, started := true, nodes := [node0 [] 0], edges := [], handle := 0, image := 0, verno := 0, pinned := false, hang := 0, fault := none, checkFailed := false }
def sQ (k : Queue) : State := { sHub with queues := [(0, k)] }
def sE (e : EntryRun) : State := sQ { ctl := 0xC0000000, run := some e }
/-- Queue 0 runs a packet at offset 0 of its node 0. -/
def sP (p : PktRun) : State := sE { entry0 with nodes := [node0 [p] 64] }
def zeros64 : List Byte := List.replicate 64 0

theorem okEq {a : Acc} (h : a.code = St.ok) : a = ⟨St.ok, a.bytes, a.s⟩ := by
  cases a; cases h; rfl
theorem accEq {a : Acc} : a = ⟨a.code, a.bytes, a.s⟩ := rfl
theorem fstEq {α β : Type} {a : α × β} {x : α} (h : a.1 = x) : a = (x, a.2) := by
  cases a; cases h; rfl
theorem codeEq {α β γ : Type} {a : α × β × γ} {x : α} (h : a.1 = x) : a = (x, a.2.1, a.2.2) := fstEq h
theorem pairEq {α : Type} {a : Bool × α} (h : a.1 = false) : a = (false, a.2) := by
  cases a; cases h; rfl
theorem pops0 {s : State} (k : Queue) (h : s.queues = [(0, k)]) (hc : canPop k = true) (h1 : s.key.stopping = false ∧ s.key.stopped = false)
    (hl : s.lastPop = []) : PopsNext s 0 := by
  have g : ∀ d, getQueue s d = if d = 0 then k else {} := by
    intro d
    show tget {} s.queues d = _
    rw [h]
    by_cases e : d = 0
    · subst e; rfl
    · show (if d = 0 then k else if d < 0 then {} else tget {} [] d) = _
      rw [if_neg e, if_neg e, if_neg (Nat.not_lt_zero _)]
      rfl
  have e0 : ∀ d, canPop (getQueue s d) = true → d = 0 := by
    intro d hd
    by_cases e : d = 0
    · exact e
    · rw [g d, if_neg e] at hd; exact absurd hd (by decide)
  refine ⟨h1, by rw [g 0]; exact hc, ?_, ?_⟩
  · intro d hd; rw [e0 d hd]
  · intro d hd _
    rw [e0 d hd, hl]
    exact .inr ⟨Nat.zero_le _, Nat.zero_le _, Nat.le_refl _⟩
/-- A descriptor of one row of 64 bytes, both bases 0, with its flags. -/
def dMove (f : BitVec 512) : DmaDesc := { raw := f ||| 63 <<< 128, disp := 0, pc := 0 }
def kMove (f : BitVec 512) : CoreSt := { phase := .running, gang := some 0, dma := [(3, { queue := [dMove f], phase := .moving })] }
def ne64 : List Byte := List.replicate 24 0 ++ [1] ++ List.replicate 15 0 ++ [2] ++ List.replicate 23 0
def res64 : List Byte := List.replicate 24 0 ++ [64] ++ List.replicate 39 0
def preq (w : Bool) : PoolReq := { queue := 0, node := 0, off := 0, alloc := true, wait := w, count := 1, addr := 64, res := 0, issued := 0 }
def pool0 (n : BitVec 21) (w : Bool) : Pool := { ctl := 0x8E000000, free := n, reqs := [preq w] }

theorem moves_of {s : State} {c ch : Nat} {h : DmaDesc} {src dst : BitVec 64} {n : Nat}
    (e : (chanAt (getCore s c) ch).queue.head? = some h ∧ dmaRuns (getCore s c) = true ∧ (chanAt (getCore s c) ch).phase = .moving ∧ coreOut s c < 1024 ∧
      (chanAt (getCore s c) ch).plane < (h.raw.extractLsb' 176 16).toNat + 1 ∧
      (chanAt (getCore s c) ch).byte < (h.raw.extractLsb' 128 32).toNat + 1 ∧
      ((chanAt (getCore s c) ch).xs = .miss ∧ (chanAt (getCore s c) ch).xw = .miss) ∧
      src = dmaSource h (chanAt (getCore s c) ch).plane (chanAt (getCore s c) ch).row (chanAt (getCore s c) ch).byte ∧
      dst = dmaTarget h (chanAt (getCore s c) ch).plane (chanAt (getCore s c) ch).row (chanAt (getCore s c) ch).byte ∧
      n = min (64 - dst.toNat % 64) ((h.raw.extractLsb' 128 32).toNat + 1 - (chanAt (getCore s c) ch).byte)) : MovesNext s c ch h src dst n :=
  have ⟨head, runs, moving, room, left, within, translated, source, target, size⟩ := e
  { has := ⟨head, runs⟩, moving, room, left, within, translated, source, target, size }
theorem mayIssue0 {s : State} {e : EntryRun} {n : NodeRun} {p : List Byte}
    (h : phWait p = 0 ∧ phBar p = false ∧ phTimed p = false ∧ enTimed e.raw = false) : MayIssue s e n p :=
  ⟨fun i hi => (by rw [h.1] at hi; simp [bt] at hi), fun hb => (by rw [h.2.1] at hb; cases hb), fun hb => (by rw [h.2.2.1] at hb; cases hb),
    fun hb => (by rw [h.2.2.2] at hb; cases hb)⟩
theorem mayIssueT {s : State} {e : EntryRun} {n : NodeRun} {p : List Byte}
    (h : phWait p = 0 ∧ phBar p = false ∧ phAt p ≤ s.plumb.count.toNat ∧ enTimed e.raw = false) : MayIssue s e n p :=
  ⟨fun i hi => (by rw [h.1] at hi; simp [bt] at hi), fun hb => (by rw [h.2.1] at hb; cases hb), fun _ => h.2.2.1,
    fun hb => (by rw [h.2.2.2] at hb; cases hb)⟩
/-- The bytes of a packet with 64-bit fields at 16, 24, 32 and 40. -/
def rawG (a b n c : Nat) : List Byte := List.replicate 16 0 ++ toLe 8 a ++ toLe 8 b ++ toLe 8 n ++ toLe 8 c ++ List.replicate 16 0
def pG (op : BitVec 8) (a b n c : Nat) : PktRun := pkt0 op .issued (rawG a b n c)
def sG (op : BitVec 8) (a b n c : Nat) (m : List Host.Cell) : State := { sP (pG op a b n c) with mem := m }
theorem served0 {s : State} {x : Gang} (h : s.gangs = [x]) (ha : asks s x = true) : ServedNext s x :=
  ⟨by rw [h]; exact List.mem_cons_self .., ha, fun y hy _ hne => by
    rw [h, List.mem_singleton] at hy; exact absurd hy hne⟩
theorem served1 {s : State} {x v : Gang} (h : s.gangs = [x, v]) (ha : asks s x = true ∧ asks s v = false) : ServedNext s x :=
  ⟨by rw [h]; exact List.mem_cons_self .., ha.1, fun y hy hb hne => by
    rw [h, List.mem_cons, List.mem_singleton] at hy
    rcases hy with rfl | rfl
    · exact absurd rfl hne
    · rw [ha.2] at hb; cases hb⟩
/-- A gang that waits for one core. -/
def gangW : Gang := { gang0 with st := .waiting, cores := [] }
def gangT : Gang := { gangW with release := some 1 }
def sW (x : Gang) : State := { State.reset with gangs := [x] }
/-- No core is free. -/
def sN (x : Gang) : State := { sW x with cores := (List.range 256).map fun c => (c, { phase := .running }) }
/-- A victim of the lowest priority. -/
def gangV (st : GangSt) : Gang := { gang0 with id := 1, queue := 1, st := st, cores := [(0, 7)] }
def sV (x v : Gang) : State := { sN x with gangs := [x, v], queues := [(1, { ctl := 0x30000000 })] }
def kSave : CoreSt := { phase := .saving, gang := some 0 }
def gSave : Gang := { gang0 with st := .saving, slots := [(0, 0)] }
def sSave : State := { sc kSave with gangs := [gSave] }
def kBack : CoreSt := { phase := .restoring, gang := some 0 }
def hid0 : Hidden := { starts := [], dma := [], holds := [], commit := false }
def gBack : Gang := { gang0 with st := .restoring, slots := [(0, 0)], hidden := [(0, hid0)] }
/-- Granules 0 to 3 are SHARED and translation of context 0 is the identity. -/
def sQuiet (s : State) : State := { s with hlb := [lbId], owner := [(0, 0x8000), (1, 0x8000), (2, 0x8000), (3, 0x8000)] }
def sBack : State := sQuiet { sc kBack with gangs := [gBack] }
def kOld : CoreSt := { gang := some 0, retireDue := true }
/-- A node that runs gang 0, of a core that has failed. -/
def sFail (r : Bool) (st : GangSt) : State :=
  { sE { entry0 with nodes := [{ node0 [] 0 with restart := r }] } with cores := [(0, kOld)], gangs := [{ gang0 with st := st }], schCfg := 0x100 }
theorem leafNone {α : Type} {P : α → Bool} : ([] : List α).find? P = none := rfl
/-- Where no stack, tower or ownership command differs from its reset, and granules 0 to 3 are SHARED, the first 8 MiB are quiet. -/
theorem quiet0 {s : State} {B : Nat} (hB : B ≤ 0x800000)
    (h : s.hbm = [] ∧ s.towers = [] ∧ s.ownCmd = 0 ∧ s.owner = [(0, 0x8000), (1, 0x8000), (2, 0x8000), (3, 0x8000)])
    (k : s.lost = [] ∧ s.hubX = [] ∧ s.hlb = [lbId]) (hi : s.span.id = 0) (hc : s.memcfg = 0) (ho : s.key.test.offline = false)
    (hr : ∀ t < 8, dieCode s hubDie t = St.ok) :
    QuietBelow s B := by
  have hh : ∀ c, getHbm s c = {} := fun c => by unfold getHbm; rw [h.1]; rfl
  have ht : ∀ c, getTower s c = {} := fun c => by unfold getTower; rw [h.2.1]; rfl
  have hch : ∀ o < 0x800000, ∃ c y, chanOf s o = some (c, y) ∧ c < 512 := fun o ho => by
    unfold chanOf
    rw [if_pos (by omega)]
    unfold interleave
    rw [hc, if_neg (by decide)]
    exact ⟨_, _, rfl, Nat.xor_lt_two_pow (n := 9) (Nat.xor_lt_two_pow (Nat.mod_lt _ (by decide)) (Nat.mod_lt _ (by decide)))
      (lt_of_lt_of_le (Nat.mod_lt _ (by decide)) (by decide))⟩
  have hd : ownDomain s = 0 ∧ ownPackage s = 0 := by
    unfold ownDomain ownPackage
    rw [hi]
    decide
  refine ⟨fun o ho a ha => ?_, fun x hx => ?_, fun o h1 => ?_, k.1, fun o h1 => ?_, k.2.1, k.2.2⟩
  · have ha : a < 0x800000 := by omega
    obtain ⟨c, y, hcy, hlt⟩ := hch a ha
    refine ⟨?_, ?_, ?_, ?_, ?_, fun t _ => ?_⟩
    · unfold present
      rw [if_pos (by omega)]
    · unfold ownOk ownEntry
      rw [h.2.2.1, if_neg (fun e => absurd e.1 (by decide)), h.2.2.2]
      have hg : a / 0x200000 < 4 := by omega
      generalize a / 0x200000 = g at hg
      interval_cases g <;> rfl
    · unfold noStorage
      rw [hcy]
      dsimp only
      rw [hh, if_pos (by omega)]
      rfl
    · unfold marker
      rw [k.1, hcy]
      dsimp only
      rw [hh, if_neg (fun e => absurd e.2.1 (by decide))]
      rfl
    · unfold homeFind
      rw [ht]
      split <;> rfl
    · unfold rlcFind
      rw [ht]
      rfl
  · unfold levelOf
    rw [hd.1, hd.2]
    simp only [Nat.div_eq_of_lt (show x < 2 ^ 41 by omega), Nat.div_eq_of_lt (show x < 2 ^ 49 by omega)]
    rfl
  · obtain ⟨c, y, hcy, hlt⟩ := hch o (by omega)
    unfold homeTower
    rw [hcy]
    exact hr (c / 64) (by omega)
  · unfold chanHeld
    cases storedOn s o with
    | none => rfl
    | some c =>
      dsimp only
      rw [hh, ho]
      rfl

theorem wSlot {s : State} (h : slotAddr s 0 0 = 0) (q : QuietBelow s imageSize) (k : CoreSt) :
    hubProbe 0 (linesOf (slotAddr s 0 0) imageSize .both) s = (false, s) ∧
      ∃ b t, hubWrite s 0 3 (slotAddr s 0 0) .both (imageBytes k) .home = ⟨St.ok, b, t⟩ := by
  rw [h]
  exact ⟨probe_quiet (.inr rfl) q (by decide) _ (lines_below (by decide)),
    write_quiet (by rw [imageBytes_length]; exact q) (by rw [imageBytes_length]; decide)⟩
theorem wBack {s : State} (h : slotAddr s 0 0 = 0) (q : QuietBelow s imageSize) :
    hubProbe 0 (linesOf (slotAddr s 0 0) imageSize .read) s = (false, s) ∧
      ∃ b, hubRead s 0 3 (slotAddr s 0 0) imageSize .home = ⟨St.ok, b, s⟩ := by
  rw [h]
  exact ⟨probe_quiet (.inl rfl) q (by decide) _ (lines_below (by decide)), read_quiet (by decide) q (by decide)⟩
theorem wOff {s : State} (h0 : s.hubX = []) (h1 : s.hlb = []) (h2 : xctlEn (getCtx s 0) = false) (k : CoreSt) :
    hubProbe 0 (linesOf (slotAddr s 0 0) imageSize .both) s = (false, s) ∧
      ∃ b t, hubWrite s 0 3 (slotAddr s 0 0) .both (imageBytes k) .home = ⟨St.xlateMiss, b, t⟩ := by
  refine ⟨probe_bad h0 (fun va => ⟨_, xlate_off h0 h1 h2, fun _ _ _ _ => by intro h; cases h⟩) _ lines_need, write_off h0 h1 h2 ?_⟩
  intro h
  have := imageBytes_length k
  rw [h] at this
  exact absurd this (by decide)
theorem tripEq {α β γ : Type} {a : α × β × γ} : a = (a.1, a.2.1, a.2.2) := rfl
def mig0 : Migr := { tower := 0, ctx := 0, src := .remote 0x20000000000, dest := 65536, mapWord := 0, page := 0, va := 0 }
theorem noWait0 {s : State} {m : Migr} (h : s.cores = []) : NoCoreWaits s m := by
  intro c
  have g : getCore s c = {} := by unfold getCore; rw [h]; rfl
  rw [g]
  refine ⟨fun a ha => ?_, rfl, fun a ha => ?_⟩
  · cases ha
  · cases ha
def isPage : XSt → Bool
  | .page _ _ _ _ => true
  | _ => false
theorem notPage {x : XSt} (h : isPage x = false) : ∀ tg nc w p, x ≠ .page tg nc w p := by
  intro tg nc w p e; rw [e] at h; cases h
def sH (h : HbmChan) : State := { State.reset with hbm := [(0, h)] }
def sM (m : Mortar) : State := { State.reset with mortar := [(255, m)] }
def sL (l : Lintel) : State := { State.reset with lintel := [(23, l)] }
def sT (t : TowerSt) : State := { State.reset with towers := [(7, t)] }
def rl0 (d : Bool) : RlcLine := { line := 0x20000000000, way := 3, data := 1, lost := none, dirty := d, pf := false, ctx := 0, own := 0 }
/-- Port 3 in a state. -/
def sPt (k : PortSt) : State := { State.reset with span := { ports := [(3, k)] } }
def kUp : PortSt := { st := .up }
def spk0 : SpanPkt := { op := 1, vc := 0, path := 0, ep := false, lenM1 := 0, func := 0, asz := false, tag := 0, ctx := 0, srcPkg := 0, srcDom := 0, status := 0, addr := 0x20000000000, data := [] }
def peer0 : PeerInfo := { impl := 0, maxw := 0, good := 255, valid := true, domain := 0, package := 1, port := 3, plumb := 0, locked := false }
def sSp (k : SpanSt) : State := { State.reset with span := k }
def rIn (k : SpanPkt) : SpanSt := { ports := [(3, { inbox := [(k, 0)] })], routeEn := true, id := 0x80000000, droute := [(1, 0x8BF00000)] }
def rOut (k : SpanPkt) : SpanSt := { sent := [(k, 0)], routeEn := true, id := 0x80000000, droute := [(1, 0x8BF00000)] }
def spk1 (op : BitVec 8) (d : List Byte) : SpanPkt := { spk0 with op := op, addr := 0, data := d }
def req0 : RemReq := { tag := 0, user := .wback 0, hall := false, issued := 0, pkt := spk0, port := none }
def sR (n : Nat) : State := { State.reset with rst := { stage := n } }
/-- Mailbox 0 has an order pending. -/
def sMb (cmd : BitVec 64) : State := { sR 1 with key := { mb := [(0, { cmd := cmd, rsp := 4 })] } }
/-- A MGMT request by its data. -/
def mg0 (d : List Byte) : SpanPkt := spk1 0x10 d
def sMg (d : List Byte) : State := { sR 1 with span := { delivered := [mg0 d] } }
def out0 (u : RemUser) : OutReq := { id := 0, ctx := 0, issued := 0, addr := 0, write := none, len := 8, user := u }
def sO (u : RemUser) : State := { sc { kRun with accs := [accL] } with host := { outs := [out0 u] } }
def ord0 : Order := { mb := 0, group := 4, verb := 1, persist := true, offline := false, seq := 0, args := [], busy := true, started := false, since := 0, code := St.ok, refuse := 0, res := [], wrote := [] }
/-- Power domain `d` in a state. -/
def sD (d : Nat) (k : Dom) : State := { State.reset with power := { doms := [(d, k)] } }
def sG7 (g : GroupClk) : State := { State.reset with power := { groups := [(63, g)] }, rst := { stage := 7 }, towers := [(7, { budget := 8 })] }
/-- Core 252 of group 63 runs, in a tower with a budget of 8 W. -/
def sG8 : State := { sG7 {} with cores := [(252, kRun)] }
def pw63 (n : Nat) : List Nat := List.replicate 63 0 ++ [n]
def pm0 : PowerMeas := { pRest := 0, pkgW := 0, masonW := 0, sensors := List.replicate 64 1520 }
/-- Module channels 17, 16 and 15 of one port group, at an instant. -/
def sMo (n : Nat) (k : Mod) : State := { State.reset with now := n, power := { mods := [(17, k)] } }
def sMo2 (n : Nat) (k j : Mod) : State := { State.reset with now := n, power := { mods := [(16, j), (17, k)] } }
def bootOk : BootRead := { flash := true, journal := true, setA := true, setB := true, cal := true, units := true, factory := true, conv := true, lanes := [] }
/-- An order of mailbox 0 at its turn. -/
def oq (g v : BitVec 8) (l : List Byte) : Order := { ord0 with group := g, verb := v, args := l, persist := false, busy := false }
def sOr (o : Order) (s : State) : State := { s with key := { s.key with batch := [o] } }
theorem sole0 {s : State} {o : Order} {g v : Nat} {r : Right} (h : (s.key.batch = [o] ∧ s.key.batchDone = []) ∧
    (o.busy = false ∧ o.started = false ∧ o.code = St.ok ∧ o.refuse = 0 ∧ o.res = []) ∧ s.key.halted = false ∧
    (o.group.toNat = g ∧ o.verb.toNat = v) ∧ permitted s o.mb r = true ∧ stateRefuses s o = false ∧ (o.persist = true → s.key.trial = false)) :
    Sole s o g v r :=
  have ⟨batch, fresh, awake, verb, right, state⟩ := h
  ⟨batch, fresh, awake, verb, right, state⟩
def sKy (k : KeySt) : State := { State.reset with key := k }
def sTe (t : TestSt) : State := { State.reset with key := { test := t }, rst := { stage := 1, done := true } }
def oFw (o n : Nat) (l : List Byte) : Order := oq 7 1 (toLe 4 o ++ toLe 4 n ++ l)
def set0 (v : BitVec 16) : TwoCopy SetRec := { a := some (0, { sver := v, gen := 0, val := {} }) }
def oAct : Order := oq 7 3 [0, 0]
theorem pairRfl {α β : Type} {a : α × β} : a = (a.1, a.2) := rfl

theorem qSave : QuietBelow (combFlush (sQuiet sSave) 0) imageSize :=
  quiet0 (by decide) (by decide +kernel) (by decide +kernel) rfl rfl rfl (by decide +kernel)
/-- At reset no line of a table is cached, so a read changes nothing. -/
theorem tableHolds0 : TableHolds State.reset 0 0 1 fun _ => 0 := by
  have h : ∀ t, TableRead State.reset 0 0 1 t → t = State.reset := by
    intro t ht
    induction ht with
    | here => rfl
    | read _ hi ih =>
      rw [ih]
      exact (show ∀ i < 2, (sysRead State.reset 0 (0 + 32 * i) 32).2.2 = State.reset by
        intro i hi
        interval_cases i <;> rfl) _ hi
  intro t ht
  rw [h t ht]
  decide +kernel
theorem qBack : QuietBelow sBack imageSize := quiet0 (by decide) (by decide +kernel) (by decide +kernel) rfl rfl rfl (by decide +kernel)

/-! ## Ill-formed commands are refused -/

/-- A value that does not fit its command, for each check of WellFormed. -/
theorem test_wellFormed_refuses_lengths :
    ¬WellFormed (.bar2Access 0 0 none) ∧ ¬WellFormed (.bar2Access 0x0FFFFFFF 2 none) ∧
    ¬WellFormed (.bar2Access 0 2 (some [0])) ∧ ¬WellFormed (.masonAccess 0 0 ⟨0, .load⟩ []) ∧ ¬WellFormed (.masonAccess 0 65 ⟨0, .load⟩ []) ∧
    ¬WellFormed (.masonAccess 0 1 ⟨0, .load⟩ [0]) ∧ ¬WellFormed (.masonAccess 0 1 ⟨0, .ifetch⟩ [0]) ∧ ¬WellFormed (.masonAccess 0 2 ⟨0, .store⟩ [0]) ∧
    ¬WellFormed (.masonAccess 0 2 ⟨0, .writeback⟩ [0]) ∧ ¬WellFormed (.i3cPrivateRead 0) ∧ ¬WellFormed (.groupFreqStep []) := by decide +kernel
theorem test_wellFormed_refuses_places :
    ¬WellFormed (.mortarCrcFail 255 136 false) ∧ ¬WellFormed (.mortarCrcFail 256 272 false) ∧ ¬WellFormed (.hbmCorrectableRead 0 ⟨0x48000000, true⟩) ∧
    ¬WellFormed (.hbmUncorrectableRead 0 0x48000000 true) ∧ ¬WellFormed (.rlcWrite 0 .other 0 0 false 0 [] none) ∧
    ¬WellFormed (.rlcWrite 0 .other 0 0 false 63 [0, 0] none) ∧ ¬WellFormed (.extest [(136, true)]) := by decide +kernel
/-- A packet of 257 bytes. -/
def bigPkt : SpanPkt := { spk0 with data := List.replicate 257 0 }
theorem test_wellFormed_refuses_packets :
    ¬WellFormed (.flitReceive 0 0 true [bigPkt] ⟨0, none⟩) ∧ ¬WellFormed (.packetRoute none bigPkt) ∧ ¬WellFormed (.remoteRequestServe bigPkt) ∧
    ¬WellFormed (.remoteResponse bigPkt) ∧ ¬WellFormed (.mgmtAccess bigPkt) := by decide +kernel
theorem test_wellFormed_refuses_measurements_and_registers :
    ¬WellFormed (.powerInterval pm0) ∧ ¬WellFormed (.registerWrite (.hub .mason 0) 3 0) ∧
    ¬WellFormed (.registerWrite (.hub .mason 0x3FFFFFD) 4 0) ∧ ¬WellFormed (.registerWrite (.mailbox 0 0xFFD) 4 0) := by decide +kernel
theorem test_wellFormed_refuses_codes :
    ¬WellFormed (.migrationFail 0 0x18) ∧ ¬WellFormed (.migrationComplete 0 (.fail 0x18)) ∧ ¬WellFormed (.seqAccessComplete 0 (.data 0) (.fail 0x18)) ∧
    ¬WellFormed (.dmaLineComplete 0 0 (.fail 0x18)) ∧ ¬WellFormed (.dmaSignalDone 0 0 (.fail 0x18)) ∧ ¬WellFormed (.waitfEvaluate 0 (.fail 0x18)) ∧
    ¬WellFormed (.queuePop (.fail 0x18)) ∧ ¬WellFormed (.entryStart 0 (.fail 0x18)) ∧ ¬WellFormed (.packetIssue 0 0 (.fail 0x18)) := by decide +kernel
theorem test_wellFormed_refuses_packet_codes :
    ¬WellFormed (.write 0 0 0 (.fail 0x18)) ∧ ¬WellFormed (.signal 0 0 0 (.fail 0x18)) ∧ ¬WellFormed (.waitmem 0 0 0 (.fail 0x18)) ∧
    ¬WellFormed (.waitmemEvaluate 0 0 0 (.fail 0x18)) ∧ ¬WellFormed (.enq 0 0 0 (.fail 0x18)) ∧ ¬WellFormed (.enqRetry 0 0 0 (.fail 0xFF)) ∧
    ¬WellFormed (.pcieConfigWrite {} { mps := 3 } {} {}) ∧ ¬WellFormed (.pcieConfigWrite {} { mrrs := 6 } {} {}) := by decide +kernel
theorem test_wellFormed_accepts_bounds :
    WellFormed (.mortarCrcFail 255 135 false) ∧ WellFormed (.migrationFail 0 0x17) ∧ WellFormed (.pcieConfigWrite {} { mps := 2, mrrs := 5 } {} {}) ∧ WellFormed (.bar2Access 0x0FFFFFFF 1 (some [0])) ∧
    WellFormed (.rlcWrite 0 .other 0 0 false 63 [0] none) ∧ WellFormed (.registerWrite (.mailbox 0 0xFFC) 4 0) := by decide +kernel

/-! ## Worked values of the source -/

/-- Table 2.12, conversions to FP8 E4M3 of 300, 470 with and without SAT, 460, and 500 under RTZ. -/
theorem test_table_2_12_e4m3 :
    convertBits Fm.fp32 Fm.e4m3 0 0 false 0x43960000 = (0x79, fNX) ∧ convertBits Fm.fp32 Fm.e4m3 4 0 false 0x43EB0000 = (0x7E, fSATD ||| fOF ||| fNX) ∧
    convertBits Fm.fp32 Fm.e4m3 0 0 false 0x43EB0000 = (0x7F, fNV ||| fOF ||| fNX) ∧ convertBits Fm.fp32 Fm.e4m3 0 0 false 0x43E60000 = (0x7E, fNX) ∧
    convertBits Fm.fp32 Fm.e4m3 4 0 false 0x43E60000 = (0x7E, fNX) ∧ convertBits Fm.fp32 Fm.e4m3 1 0 false 0x43FA0000 = (0x7E, fNX) := by decide +kernel
/-- Table 2.12, 2.7 and 5.2 to FP4 E2M1. -/
theorem test_table_2_12_e2m1 :
    (convertBits Fm.fp32 Fm.e2m1 0 0 false 0x402CCCCD).1 = 0x5 ∧ (convertBits Fm.fp32 Fm.e2m1 0 0 false 0x40A66666).1 = 0x7 := by decide +kernel
/-- Table 2.12, conversions to INT8. -/
theorem test_table_2_12_int8 :
    (convertBits Fm.fp32 Fm.int8 0 0 false 0xC0600000).1 = 0xFC ∧ (convertBits Fm.fp32 Fm.int8 1 0 false 0xC0600000).1 = 0xFD ∧
    convertBits Fm.fp32 Fm.int8 0 0 false 0x447A0000 = (0x7F, fNX ||| fIOVF) ∧ convertBits Fm.int32 Fm.int8 0 0 false 300 = (0x7F, fIOVF) ∧
    convertBits Fm.int32 Fm.int8 0 0 true 300 = (0x2C, fIOVF) ∧ convertBits Fm.int32 Fm.int8 0 0 true 0xFFFFFED4 = (0xD4, fIOVF) := by decide +kernel
/-- Table 2.13: SR_SEED 0x831B starts generator 0 at 0x1D2C; its first three outputs; and the three conversions under SR. -/
theorem test_table_2_13 :
    genFresh 0x831B 0 = 0x1D2C ∧ genStep 0x1D2C = 0x0E96 ∧ genStep 0x0E96 = 0x074B ∧ genStep 0x074B = 0xB7A5 ∧
    (convertBits Fm.fp32 Fm.e2m1 2 3734 false 0x402CCCCD).1 = 0x4 ∧ (convertBits Fm.fp32 Fm.e2m1 2 1867 false 0x40A66666).1 = 0x6 ∧
    (convertBits Fm.fp32 Fm.e2m1 2 47013 false 0x402CCCCD).1 = 0x5 := by decide +kernel
/-- Table 2.11: 6.0, 3.0, −0.75 and 10⁻¹⁰ at a shared exponent of 2, and the slices of the last. -/
theorem test_table_2_11 :
    sharedExp [.fin false 6 0, .fin false 3 0, .fin true 3 (-2), decodeNum Fm.fp64 0x3DDB7CDFD9D7BDBB] = some 2 ∧
    sliceInt 2 (.fin false 6 0) = 48 * 2 ^ 48 ∧ sliceInt 2 (.fin false 3 0) = 24 * 2 ^ 48 ∧ sliceInt 2 (.fin true 3 (-2)) = -6 * 2 ^ 48 ∧
    sliceInt 2 (decodeNum Fm.fp64 0x3DDB7CDFD9D7BDBB) = 225180 ∧ slicesOf 225180 = [0, 0, 0, 0, 3, 112, -100] ∧
    spreadBad [.fin false 6 0, decodeNum Fm.fp64 0x3D06849B86A12B9B] = true := by decide +kernel
/-- Chapter 2, scaled operands: elements 0x7 and 0xA of FP4 E2M1 under scale byte 0x85 are 384 and −64. -/
theorem test_block_scale :
    (roundNum Fm.fp32 0 0 false false (scaled (decodeNum Fm.e2m1 0x7) 0x85)).1 = 0x43C00000 ∧
    (roundNum Fm.fp32 0 0 false false (scaled (decodeNum Fm.e2m1 0xA) 0x85)).1 = 0xC2800000 := by decide +kernel
/-- Table 4.20: index 70,000 at element 4 leaves its window; the record of the fault. -/
theorem test_table_4_20 :
    let k := chsFault {} 4 1 1 (0x100000 + 280000) 4
    k.cr.chsFault0 = 0x92000004 ∧ k.cr.chsFault1 = 0x1445C0 ∧ k.cr.chsFault2 = 4 := by decide +kernel
/-- Chapter 10: offset 0x21_0123_4568 in package 37 of domain 200 has the global address 0x0190_4A21_0123_4568. -/
theorem test_global_address :
    gaOf { State.reset with span := { id := 0x80C80025 } } 0x2101234568 = 0x01904A2101234568 := by decide +kernel
/-- Table 1.8: lane 5 goes to spare 16, lane 11 to spare 17, and the loss of lane 2 leaves 15 good lanes. -/
theorem test_table_1_8 :
    lintelSpare { bad := [5] } = some 16 ∧ lintelSpare { bad := [5, 11], mapped := [(5, 16)] } = some 17 ∧
    lintelSpare { bad := [5, 11, 2], mapped := [(5, 16), (11, 17)] } = none ∧ lintelGood { bad := [5, 11, 2] } = 15 := by decide +kernel
/-- Table 1.6: the UNIT_ID of lane 5 of link 1, of index 23, in package 37 of domain 200. -/
theorem test_unit_id :
    unitId { State.reset with span := { id := 0x80C80025 } } 9 23 = 0x96412817 := by decide +kernel

/-! ## Single steps -/

/-- Core 0 runs with s1 = `a` and s2 = `b`, at pc 8. -/
def sAB (a b : BitVec 64) : State := sc { kRun with regs := { s := [(1, a), (2, b)], pc := 8 } }
/-- The value of s3 of core 0 in the next state, and its pc. -/
def s3Of : Host.Outcome State Fault Refusal → Option (BitVec 64 × BitVec 64)
  | .next t => some (sreg (getCore t 0) 3, (getCore t 0).regs.pc)
  | _ => none
/-- Format R: SD = 3, SA = 1, SB = 2 (Table 5.2). -/
def wR : BitVec 56 := BitVec.ofNat 56 (3 * 2 ^ 51 + 1 * 2 ^ 46 + 2 * 2 ^ 41)
theorem test_add_wraps : s3Of (exec (.add 0 wR) (sAB 0xFFFFFFFFFFFFFFFF 2)) = some (1, 16) := by decide +kernel
theorem test_sub_borrows : s3Of (exec (.sub 0 wR) (sAB 1 2)) = some (0xFFFFFFFFFFFFFFFF, 16) := by decide +kernel
theorem test_mulhu_high_half : s3Of (exec (.mulhu 0 wR) (sAB 0xFFFFFFFFFFFFFFFF 2)) = some (1, 16) := by decide +kernel
theorem test_slt_signed : s3Of (exec (.slt 0 wR) (sAB 0xFFFFFFFFFFFFFFFF 0)) = some (1, 16) := by decide +kernel
theorem test_sltu_unsigned : s3Of (exec (.sltu 0 wR) (sAB 0xFFFFFFFFFFFFFFFF 0)) = some (0, 16) := by decide +kernel
theorem test_sra_sign : s3Of (exec (.sra 0 wR) (sAB 0x8000000000000000 63)) = some (0xFFFFFFFFFFFFFFFF, 16) := by decide +kernel
/-- Format I with IMM = −1: the immediate is sign-extended. -/
theorem test_addi_negative : s3Of (exec (.addi 0 (BitVec.ofNat 56 (3 * 2 ^ 51 + 1 * 2 ^ 46 + 0xFFFFFFFF))) (sAB 1 0)) = some (0, 16) := by
  decide +kernel
/-- Whether an outcome is a next state with a property. -/
def nextIs (o : Host.Outcome State Fault Refusal) (p : State → Bool) : Bool :=
  match o with
  | .next t => p t
  | _ => false
/-- Format R with SD = 0: the write is discarded. -/
theorem test_s0_reads_zero : nextIs (exec (.add 0 (BitVec.ofNat 56 (1 * 2 ^ 46 + 2 * 2 ^ 41))) (sAB 1 2)) (fun t =>
    decide (sreg (getCore t 0) 0 = 0 ∧ (getCore t 0).regs.pc = 16)) = true := by decide +kernel
/-- An idle step moves the clock by one nanosecond. -/
theorem test_idle_step : nextIs (step State.reset) (fun t => decide (t.now = 1 ∧ t.pending = [])) = true := by decide +kernel
theorem test_step_takes_the_front : nextIs (step { sAB 1 2 with pending := [.add 0 wR, .sub 0 wR] }) (fun t =>
    decide (sreg (getCore t 0) 3 = 3 ∧ t.pending = [.sub 0 wR] ∧ t.now = 0)) = true := by decide +kernel

/-! ## Every statement's hypotheses are met

Each theorem takes the clauses of one statement in their order; a clause has a state and operands, at a bound of its range where it
names one. -/

theorem witness_StepKeepsCanonical :
    ∃ (s : State) (t : State), Canonical s ∧ step s = Host.Outcome.next t :=
  ⟨State.reset, tick State.reset, ⟨rfl, rfl, rfl, rfl, rfl, rfl, rfl, rfl, rfl, rfl, rfl⟩, rfl⟩

theorem witness_StepTakesTheFrontCommand :
    ∃ (i : Instr) (rest : List Instr) (s : State), s.pending = i :: rest :=
  ⟨.bypass, [.idcode], { State.reset with pending := [.bypass, .idcode] }, rfl⟩

theorem witness_CommandsLeaveQueueAndClock :
    ∃ (i : Instr) (s : State) (t : State), exec i s = Host.Outcome.next t :=
  ⟨.bypass, State.reset, jtagLoad State.reset 15 [false], rfl⟩

theorem witness_FormatRRuns :
    ∃ (p : (Core → BitVec 56 → Instr) × (BitVec 64 → BitVec 64 → BitVec 64)) (c : Core) (w : BitVec 56) (s : State), p ∈ rowsR ∧
      Issues s c (legalR w) [fSD w, fSA w, fSB w] :=
  ⟨(.add, fun a b => a + b), 0, 0, sc kRun, List.mem_cons_self .., issues_of (by decide +kernel)⟩

theorem witness_FormatIRuns :
    (∃ (p : (Core → BitVec 56 → Instr) × Bool × (BitVec 64 → BitVec 64 → BitVec 64)) (c : Core) (w : BitVec 56) (s : State), p ∈ rowsI ∧
      Issues s c (legalI w && (!p.2.1 || decide (bf w 31 0 ≤ 63))) [fSD w, fSA w]) ∧
    (∃ (c : Core) (w : BitVec 56) (s : State), Issues s c (legalI w && decide (fSA w = 0)) [fSD w]) :=
  ⟨⟨(.addi, false, fun a b => a + b), 0, 0, sc kRun, List.mem_cons_self .., issues_of (by decide +kernel)⟩,
   ⟨0, 0, sc kRun, issues_of (by decide +kernel)⟩⟩

theorem witness_MovesAndNopRun :
    (∃ (c : Core) (w : BitVec 56) (s : State), Issues s c (legalS w) [fSD w]) ∧
    (∃ (c : Core) (w : BitVec 56) (s : State), Issues s c (legalV w) [fSD w]) ∧
    (∃ (c : Core) (w : BitVec 56) (s : State), Issues s c (legalN w) []) ∧
    (∃ (c : Core) (w : BitVec 56) (s : State), Issues s c (legalAD w) [adSB w]) :=
  ⟨⟨0, 0, sc kRun, issues_of (by decide +kernel)⟩,
   ⟨0, 0, sc kRun, issues_of (by decide +kernel)⟩,
   ⟨0, 0, sc kRun, issues_of (by decide +kernel)⟩,
   ⟨0, 0, sc kRun, issues_of (by decide +kernel)⟩⟩

theorem witness_BranchesRun :
    (∃ (p : (Core → BitVec 56 → Instr) × (BitVec 64 → BitVec 64 → Bool)) (c : Core) (w : BitVec 56) (s : State), p ∈ rowsB ∧
      Issues s c (legalB w) [bSA w, bSB w] ∧ p.2 (sreg (getCore s ↑c) (bSA w)) (sreg (getCore s ↑c) (bSB w)) = true) ∧
    (∃ (p : (Core → BitVec 56 → Instr) × (BitVec 64 → BitVec 64 → Bool)) (c : Core) (w : BitVec 56) (s : State), p ∈ rowsB ∧
      Issues s c (legalB w) [bSA w, bSB w] ∧ ¬(p.2 (sreg (getCore s ↑c) (bSA w)) (sreg (getCore s ↑c) (bSB w)) = true)) :=
  ⟨⟨(.beq, fun a b => a == b), 0, 0, sc kRun, List.mem_cons_self .., issues_of (by decide +kernel), by decide +kernel⟩,
   ⟨(.bne, fun a b => a != b), 0, 0, sc kRun, List.mem_cons_of_mem _ (List.mem_cons_self ..), issues_of (by decide +kernel), by decide +kernel⟩⟩

theorem witness_JumpsLink :
    (∃ (c : Core) (w : BitVec 56) (s : State), Issues s c (legalJ w) [fSD w]) ∧
    (∃ (c : Core) (w : BitVec 56) (s : State), Issues s c (legalI w) [fSD w, fSA w]) :=
  ⟨⟨0, 0, sc kRun, issues_of (by decide +kernel)⟩,
   ⟨0, 0, sc kRun, issues_of (by decide +kernel)⟩⟩

theorem witness_LoopStarts :
    ∃ (c : Core) (w : BitVec 56) (s : State) (v : Nat),
      (Issues s c (legalL w && loopNests (getCore s ↑c) w) (if lCI w = true then [] else [lCS w])) ∧
      peekWord s (↑c) (loopLast (getCore s ↑c) w) = some v ∧ v / 2 ^ 56 % 256 ≠ 64 :=
  ⟨0, 0x000020000000000000#56, sc kDirect, 0, issues_of (by decide +kernel), by decide +kernel⟩

theorem witness_LoopEnds :
    (∃ (c : Core) (s : State) (i : Nat) (j : Nat), Issues s c true [] ∧ InnermostEnds (getCore s ↑c) i ∧
      (lreg (getCore s ↑c) i).index.toNat + 1 < (lreg (getCore s ↑c) i).count.toNat ∧ j ≠ i) ∧
    (∃ (c : Core) (s : State) (i : Nat), Issues s c true [] ∧ InnermostEnds (getCore s ↑c) i ∧
      ¬((lreg (getCore s ↑c) i).index.toNat + 1 < (lreg (getCore s ↑c) i).count.toNat) ∧
      (∀ j < 4, j ≠ i → (lreg (getCore s ↑c) j).active = true → (lreg (getCore s ↑c) j).last ≠ (lreg (getCore s ↑c) i).last)) ∧
    (∃ (c : Core) (s : State) (i : Nat) (j : Nat), Issues s c true [] ∧ InnermostEnds (getCore s ↑c) i ∧
      ¬((lreg (getCore s ↑c) i).index.toNat + 1 < (lreg (getCore s ↑c) i).count.toNat) ∧ j < 4 ∧ j ≠ i ∧ (lreg (getCore s ↑c) j).active = true ∧
      (lreg (getCore s ↑c) j).last = (lreg (getCore s ↑c) i).last ∧ (∀ l < 4, l ≠ i → l ≠ j → (lreg (getCore s ↑c) l).active = false) ∧
      (lreg (getCore s ↑c) j).index.toNat + 1 < (lreg (getCore s ↑c) j).count.toNat) :=
  ⟨⟨0, sc (kLoop [(1, ⟨true, 0, 2, 0, 0⟩)]), 1, 0, issues_of (by decide +kernel), ⟨by decide +kernel, by decide +kernel, by decide +kernel, by decide +kernel⟩, by decide +kernel⟩,
   ⟨0, sc (kLoop [(1, ⟨true, 1, 2, 0, 0⟩)]), 1, issues_of (by decide +kernel), ⟨by decide +kernel, by decide +kernel, by decide +kernel, by decide +kernel⟩, by decide +kernel⟩,
   ⟨0, sc { phase := .running, gang := some 0, regs := { pc := 8, lc := [(0, ⟨true, 0, 2, 0, 8⟩), (1, ⟨true, 1, 2, 8, 8⟩)] } }, 1, 0, issues_of (by decide +kernel), ⟨by decide +kernel, by decide +kernel, by decide +kernel, by decide +kernel⟩, by decide +kernel⟩⟩

theorem witness_IllegalWordsEndTheKernel :
    ∃ (p : (Core → BitVec 56 → Instr) × (BitVec 56 → Bool)) (c : Core) (w : BitVec 56) (s : State), p ∈ rowsLegal ∧ canIssue (getCore s ↑c) = true ∧
      p.2 w = false :=
  ⟨(.nop, legalN), 0, 1, sc kRun, List.mem_cons_self .., by decide +kernel⟩

theorem witness_IllegalLoopsEndTheKernel :
    ∃ (c : Core) (w : BitVec 56) (s : State),
      (legalL w = false ∨ loopNests (getCore s ↑c) w = false ∨ (lCI w = true ∨ busyReg (getCore s ↑c) (lCS w) = false) ∧ ∃ v, peekWord s (↑c) (loopLast (getCore s ↑c) w) = some v ∧ v / 2 ^ 56 % 256 = 64) ∧
      canIssue (getCore s ↑c) = true :=
  ⟨0, 0x10000, sc kRun, .inl (by decide +kernel), by decide +kernel⟩

theorem witness_ScratchpadAccessesRun :
    (∃ (c : Core) (w : BitVec 56) (s : State) (p : Prefetched), Issues s c (legalM w false) [fSD w] ∧ prefetched (getCore s ↑c) w = some p) ∧
    (∃ (c : Core) (w : BitVec 56) (s : State), Issues s c (legalM w false) [fSD w] ∧ prefetched (getCore s ↑c) w = none) ∧
    (∃ (c : Core) (w : BitVec 56) (s : State) (j : Nat), Issues s c (legalM w true) [fSD w] ∧ j < 2 ^ mSize w) ∧
    (∃ (c : Core) (w : BitVec 56) (s : State) (a : Nat), Issues s c (legalM w true) [fSD w] ∧
      (a < spadEa (getCore s ↑c) w ∨ spadEa (getCore s ↑c) w + 2 ^ mSize w ≤ a)) :=
  ⟨⟨0, 0, sc { kRun with prefetch := [⟨0, 0, 0⟩] }, ⟨0, 0, 0⟩, issues_of (by decide +kernel), by decide +kernel⟩,
   ⟨0, 0, sc kRun, issues_of (by decide +kernel), by decide +kernel⟩,
   ⟨0, 0, sc kRun, 0, issues_of (by decide +kernel), by decide +kernel⟩,
   ⟨0, 0, sc kRun, 8, issues_of (by decide +kernel), .inr (by decide +kernel)⟩⟩

theorem witness_MemoryAccessesIssue :
    (∃ (c : Core) (w : BitVec 56) (s : State), Issues s c (legalM w false) [fSD w] ∧ isDirect (getCore s ↑c) = false ∧ seqOut s ↑c < 16 ∧
      coreOut s ↑c < 1024 ∧ lbFind (getCore s ↑c).rlb (getCore s ↑c).ctx ((virtEa (getCore s ↑c) w).toNat / 4096) = none) ∧
    (∃ (c : Core) (w : BitVec 56) (s : State), Issues s c (legalM w true) [fSD w] ∧ isDirect (getCore s ↑c) = false ∧ seqOut s ↑c < 16 ∧
      coreOut s ↑c < 1024 ∧ lbFind (getCore s ↑c).rlb (getCore s ↑c).ctx ((virtEa (getCore s ↑c) w).toNat / 4096) = none) ∧
    (∃ (c : Core) (w : BitVec 56) (s : State), Issues s c (legalA w) [fSD w, amSB w, amSC w] ∧ isDirect (getCore s ↑c) = false ∧ seqOut s ↑c < 16 ∧
      coreOut s ↑c < 1024 ∧ lbFind (getCore s ↑c).rlb (getCore s ↑c).ctx ((alignTo (areg (getCore s ↑c) (mAR w)) (2 ^ mSize w)).toNat / 4096) = none) :=
  ⟨⟨0, 0, sc { kRun with accs := List.replicate 15 accL }, issues_of (by decide +kernel), by decide +kernel⟩,
   ⟨0, 0, sc kRun, issues_of (by decide +kernel), by decide +kernel⟩,
   ⟨0, 0x600000000000#56, sc kRun, issues_of (by decide +kernel), by decide +kernel⟩⟩

theorem witness_AccessesComplete :
    (∃ (c : Core) (s : State) (i : Nat) (a : Access) (r : Reply) (o : Nat), PlainAccess s (↑c) i a o ∧ r ≠ Reply.fail St.remoteTimeout ∧
      a.kind = AccKind.load) ∧
    (∃ (c : Core) (s : State) (i : Nat) (a : Access) (r : Reply) (o : Nat), PlainAccess s (↑c) i a o ∧ r ≠ Reply.fail St.remoteTimeout ∧
      a.kind = AccKind.store ∧ 1 ≤ a.size ∧ a.size ≤ 8) ∧
    (∃ (c : Core) (s : State) (i : Nat) (a : Access) (r : Reply) (o : Nat) (j : Nat), PlainAccess s (↑c) i a o ∧ r ≠ Reply.fail St.remoteTimeout ∧
      a.kind = AccKind.store ∧ 1 ≤ a.size ∧ a.size ≤ 8 ∧ j < a.size) ∧
    (∃ (c : Core) (s : State) (i : Nat) (a : Access) (r : Reply) (o : Nat), PlainAccess s (↑c) i a o ∧ r ≠ Reply.fail St.remoteTimeout ∧
      a.kind = AccKind.atomic ∧ (a.size = 4 ∨ a.size = 8)) ∧
    (∃ (c : Core) (s : State) (i : Nat) (a : Access) (r : Reply) (o : Nat) (x : Nat), PlainAccess s (↑c) i a o ∧ r ≠ Reply.fail St.remoteTimeout ∧
      a.kind = AccKind.atomic ∧ (a.size = 4 ∨ a.size = 8) ∧ (x < o ∨ o + a.size ≤ x)) ∧
    (∃ (c : Core) (s : State) (i : Nat) (a : Access) (r : Reply) (code : Code) (cause : BitVec 3), r ≠ Reply.fail St.remoteTimeout ∧
      (getCore s ↑c).accs[i]? = some a ∧ a.x = XSt.fault code cause ∧ (getCore s ↑c).fault = none) :=
  ⟨⟨0, sOwn { kRun with accs := [accL] }, 0, accL, (.ok []), 56, plainAcc (by decide +kernel) (by decide +kernel), by decide +kernel⟩,
   ⟨0, sOwn { kRun with accs := [{ accL with kind := .store }] }, 0, { accL with kind := .store }, (.ok []), 56, plainAcc (by decide +kernel) (by decide +kernel), by decide +kernel⟩,
   ⟨0, sOwn { kRun with accs := [{ accL with kind := .store }] }, 0, { accL with kind := .store }, (.ok []), 56, 7, plainAcc (by decide +kernel) (by decide +kernel), by decide +kernel⟩,
   ⟨0, sOwn { kRun with accs := [{ accL with kind := .atomic }] }, 0, { accL with kind := .atomic }, (.ok []), 56, plainAcc (by decide +kernel) (by decide +kernel), by decide +kernel⟩,
   ⟨0, sOwn { kRun with accs := [{ accL with kind := .atomic }] }, 0, { accL with kind := .atomic }, (.ok []), 56, 55, plainAcc (by decide +kernel) (by decide +kernel), by decide +kernel⟩,
   ⟨0, sc { kRun with accs := [{ accL with x := .fault St.ctxDenied 1 }] }, 0, { accL with x := .fault St.ctxDenied 1 }, (.ok []), St.ctxDenied, 1, by decide +kernel⟩⟩

theorem witness_AtomicFunctions :
    ∃ (p : Nat × ((w : Nat) → BitVec w → BitVec w → BitVec w → BitVec w)) (n : Nat), p ∈ rowsAmo ∧ (n = 4 ∨ n = 8) :=
  ⟨(0, fun _ o b _ => o + b), 4, List.mem_cons_self .., by decide +kernel⟩

theorem witness_FencesRun :
    (∃ (c : Core) (s : State) (w : Bits), Issues s c (legalN w) []) ∧
    (∃ (c : Core) (s : State), (getCore s ↑c).wait = some WaitSt.fence ∧ writesPending (getCore s ↑c) = true) ∧
    (∃ (c : Core) (s : State), (getCore s ↑c).wait = some WaitSt.fence ∧ writesPending (getCore s ↑c) = false ∧ (getCore s ↑c).comb = [] ∧
      storesOut s ↑c = false ∧ (getCore s ↑c).fault = none) ∧
    (∃ (c : Core) (s : State) (l : CombLine) (o : Nat) (x : Nat), PlainLine s (getCore s ↑c).ctx o ∧ (getCore s ↑c).wait = some WaitSt.fence ∧
      writesPending (getCore s ↑c) = false ∧ (getCore s ↑c).comb = [l] ∧ List.length l.bytes = 64 ∧ o < 2 ^ 41 ∧ o % 64 = 0 ∧ l.line = lineKey s o ∧
      l.nc = true ∧ dieCode s (towerOf ↑c) (homeTower s o) = St.ok ∧ storesOut s ↑c = false ∧ (getCore s ↑c).fault = none ∧ (x < o ∨ o + 64 ≤ x)) :=
  ⟨⟨0, sc kRun, 0, issues_of (by decide +kernel)⟩,
   ⟨0, sc { kRun with wait := some .fence, accs := [{ accL with kind := .atomic }] }, by decide +kernel⟩,
   ⟨0, sc { kRun with wait := some .fence }, by decide +kernel⟩,
   ⟨0, sOwn { kRun with wait := some .fence, comb := [line0] }, line0, 0, 64, plainLine0 (by decide +kernel) (by decide +kernel), by decide +kernel⟩⟩

theorem witness_UnitAndPlumbWaitsRun :
    (∃ (c : Core) (s : State) (w : Bits), Issues s c (legalE w) []) ∧
    (∃ (c : Core) (s : State) (mask : BitVec 9) (n : BitVec 2), (getCore s ↑c).wait = some (WaitSt.waite mask n) ∧ (getCore s ↑c).fault = none ∧
      (getCore s ↑c).stop = false ∧
      (∀ u < 9, mask.getLsbD u = true → (BitVec.extractLsb 31 16 (tget 0 (getCore s ↑c).cr.ucnt u) - BitVec.extractLsb 15 0 (tget 0 (getCore s ↑c).cr.ucnt u)).toNat ≤ n.toNat)) ∧
    (∃ (c : Core) (s : State) (mask : BitVec 9) (n : BitVec 2) (u : Nat), (getCore s ↑c).wait = some (WaitSt.waite mask n) ∧
      (getCore s ↑c).fault = none ∧ (getCore s ↑c).stop = false ∧ u < 9 ∧ mask.getLsbD u = true ∧
      n.toNat < (BitVec.extractLsb 31 16 (tget 0 (getCore s ↑c).cr.ucnt u) - BitVec.extractLsb 15 0 (tget 0 (getCore s ↑c).cr.ucnt u)).toNat) ∧
    (∃ (c : Core) (s : State) (w : Bits), Issues s c (legalR w && decide (fSD w = 0 ∧ fSB w = 0)) [fSA w]) ∧
    (∃ (c : Core) (s : State) (word : BitVec 64) (target : BitVec 64), (getCore s ↑c).wait = some (WaitSt.waitp word target) ∧
      (getCore s ↑c).fault = none ∧ (getCore s ↑c).stop = false ∧ target.toNat ≤ s.plumb.count.toNat) ∧
    (∃ (c : Core) (s : State) (word : BitVec 64) (target : BitVec 64), (getCore s ↑c).wait = some (WaitSt.waitp word target) ∧
      (getCore s ↑c).fault = none ∧ (getCore s ↑c).stop = false ∧ ¬(target.toNat ≤ s.plumb.count.toNat)) ∧
    (∃ (c : Core) (s : State) (w : Bits), Issues s c (legalR w && decide (fSA w = 0 ∧ fSB w = 0)) [fSD w]) :=
  ⟨⟨0, sc kRun, 0x800000000000#56, issues_of (by decide +kernel)⟩,
   ⟨0, sc { kRun with wait := some (.waite 1 3), cr := { ucnt := [(0, 0x00030000)] } }, 1, 3, by decide +kernel⟩,
   ⟨0, sc { kRun with wait := some (.waite 1 3), cr := { ucnt := [(0, 0x00040000)] } }, 1, 3, 0, by decide +kernel⟩,
   ⟨0, sc kRun, 0, issues_of (by decide +kernel)⟩,
   ⟨0, { sc { kRun with wait := some (.waitp 0 5) } with plumb := { count := 5 } }, 0, 5, by decide +kernel⟩,
   ⟨0, { sc { kRun with wait := some (.waitp 0 6) } with plumb := { count := 5 } }, 0, 6, by decide +kernel⟩,
   ⟨0, sc kRun, 0, issues_of (by decide +kernel)⟩⟩

theorem witness_WaitfRuns :
    (∃ (c : Core) (s : State) (w : Bits), Issues s c (legalF w) [fSD w, fSV w, fST w] ∧ isDirect (getCore s ↑c) = false) ∧
    (∃ (c : Core) (s : State) (p : Nat × ((w : Nat) → BitVec w → BitVec w → Bool)) (word : BitVec 64) (a : Access) (seen : Bool) (sd : BitVec 5)
      (w64 : Bool) (value : BitVec 64) (dl : BitVec 64) (hasDl : Bool) (o : Nat), p ∈ rowsCond ∧ PlainLine s (getCore s ↑c).ctx o ∧
      (getCore s ↑c).wait = some (WaitSt.waitf word a seen sd (BitVec.ofNat 3 p.1) w64 value dl hasDl) ∧ (getCore s ↑c).fault = none ∧
      (getCore s ↑c).stop = false ∧ (getCore s ↑c).comb = [] ∧ blockedBy ((getCore s ↑c).accs ++ [a]) a = false ∧
      a.x = XSt.target (Target.loc o) true ∧ (a.size = if w64 = true then 8 else 4) ∧ o % 64 + a.size ≤ 64 ∧
      dieCode s (towerOf ↑c) (homeTower s o) = St.ok ∧
      p.2 (8 * a.size) (BitVec.ofNat (8 * a.size) (leNat (rdN s.mem o a.size))) (BitVec.setWidth (8 * a.size) value) = true) ∧
    (∃ (c : Core) (s : State) (p : Nat × ((w : Nat) → BitVec w → BitVec w → Bool)) (word : BitVec 64) (a : Access) (seen : Bool) (sd : BitVec 5)
      (w64 : Bool) (value : BitVec 64) (dl : BitVec 64) (hasDl : Bool) (o : Nat), p ∈ rowsCond ∧ PlainLine s (getCore s ↑c).ctx o ∧
      (getCore s ↑c).wait = some (WaitSt.waitf word a seen sd (BitVec.ofNat 3 p.1) w64 value dl hasDl) ∧ (getCore s ↑c).fault = none ∧
      (getCore s ↑c).stop = false ∧ (getCore s ↑c).comb = [] ∧ blockedBy ((getCore s ↑c).accs ++ [a]) a = false ∧
      a.x = XSt.target (Target.loc o) true ∧ (a.size = if w64 = true then 8 else 4) ∧ o % 64 + a.size ≤ 64 ∧
      dieCode s (towerOf ↑c) (homeTower s o) = St.ok ∧
      ¬(p.2 (8 * a.size) (BitVec.ofNat (8 * a.size) (leNat (rdN s.mem o a.size))) (BitVec.setWidth (8 * a.size) value) = true) ∧ hasDl = true ∧
      dl.toNat ≤ s.plumb.count.toNat) ∧
    (∃ (c : Core) (s : State) (p : Nat × ((w : Nat) → BitVec w → BitVec w → Bool)) (word : BitVec 64) (a : Access) (seen : Bool) (sd : BitVec 5)
      (w64 : Bool) (value : BitVec 64) (dl : BitVec 64) (hasDl : Bool) (o : Nat), p ∈ rowsCond ∧ PlainLine s (getCore s ↑c).ctx o ∧
      (getCore s ↑c).wait = some (WaitSt.waitf word a seen sd (BitVec.ofNat 3 p.1) w64 value dl hasDl) ∧ (getCore s ↑c).fault = none ∧
      (getCore s ↑c).stop = false ∧ (getCore s ↑c).comb = [] ∧ blockedBy ((getCore s ↑c).accs ++ [a]) a = false ∧
      a.x = XSt.target (Target.loc o) true ∧ (a.size = if w64 = true then 8 else 4) ∧ o % 64 + a.size ≤ 64 ∧
      dieCode s (towerOf ↑c) (homeTower s o) = St.ok ∧
      ¬(p.2 (8 * a.size) (BitVec.ofNat (8 * a.size) (leNat (rdN s.mem o a.size))) (BitVec.setWidth (8 * a.size) value) = true) ∧
      ¬(hasDl = true ∧ dl.toNat ≤ s.plumb.count.toNat)) ∧
    (∃ (c : Core) (s : State) (word : BitVec 64) (a : Access) (seen : Bool) (sd : BitVec 5) (cond : BitVec 3) (w64 : Bool) (value : BitVec 64)
      (dl : BitVec 64) (hasDl : Bool), (getCore s ↑c).wait = some (WaitSt.waitf word a seen sd cond w64 value dl hasDl) ∧
      (getCore s ↑c).fault = none ∧ (getCore s ↑c).stop = false ∧ seen = true ∧ hasDl = true ∧ dl.toNat ≤ s.plumb.count.toNat) ∧
    (∃ (c : Core) (s : State) (word : BitVec 64) (a : Access) (seen : Bool) (sd : BitVec 5) (cond : BitVec 3) (w64 : Bool) (value : BitVec 64)
      (dl : BitVec 64) (hasDl : Bool), (getCore s ↑c).wait = some (WaitSt.waitf word a seen sd cond w64 value dl hasDl) ∧
      (getCore s ↑c).fault = none ∧ (getCore s ↑c).stop = false ∧ ¬(seen = true ∧ hasDl = true ∧ dl.toNat ≤ s.plumb.count.toNat)) :=
  ⟨⟨0, sc kRun, 0, issues_of (by decide +kernel), by decide +kernel⟩,
   ⟨0, sOwn { kRun with wait := some (.waitf 0 accF false 1 0 true 0 0 false) }, (0, fun _ f v => f == v), 0, accF, false, 1, true, 0, 0, false, 56, List.mem_cons_self .., plainLine0 (by decide +kernel) (by decide +kernel), by decide +kernel⟩,
   ⟨0, { sOwn { kRun with wait := some (.waitf 0 accF false 1 0 true 1 5 true) } with plumb := { count := 5 } }, (0, fun _ f v => f == v), 0, accF, false, 1, true, 1, 5, true, 56, List.mem_cons_self .., plainLine0 (by decide +kernel) (by decide +kernel), by decide +kernel⟩,
   ⟨0, { sOwn { kRun with wait := some (.waitf 0 accF false 1 0 true 1 6 true) } with plumb := { count := 5 } }, (0, fun _ f v => f == v), 0, accF, false, 1, true, 1, 6, true, 56, List.mem_cons_self .., plainLine0 (by decide +kernel) (by decide +kernel), by decide +kernel⟩,
   ⟨0, { sc { kRun with wait := some (.waitf 0 accF true 1 0 true 1 5 true) } with plumb := { count := 5 } }, 0, accF, true, 1, 0, true, 1, 5, true, by decide +kernel⟩,
   ⟨0, { sc { kRun with wait := some (.waitf 0 accF true 1 0 true 1 6 true) } with plumb := { count := 5 } }, 0, accF, true, 1, 0, true, 1, 6, true, by decide +kernel⟩⟩

theorem witness_CoreRegisterAccessesRun :
    (∃ (c : Core) (w : BitVec 56) (s : State), Issues s c (legalC w && decide (fSA w = 0)) [fSD w]) ∧
    (∃ (c : Core) (w : BitVec 56) (s : State), Issues s c (legalC w && decide (fSD w = 0)) [fSA w]) :=
  ⟨⟨0, 0, sc kRun, issues_of (by decide +kernel)⟩,
   ⟨0, 0, sc kRun, issues_of (by decide +kernel)⟩⟩

theorem witness_CoreRegistersFollowTheirAccess :
    (∃ (idx : Nat), crReadOnly idx = true ∧ idx ∉ [0, 5, 8, 9, 10, 11, 12, 25, 26] ∧ ¬(48 ≤ idx ∧ idx ≤ 56)) ∧
    (∃ (idx : Nat), idx ∈ [6, 16, 17, 18, 19, 20]) ∧
    (∃ (u : Nat), u < 9) :=
  ⟨⟨0x39, by decide +kernel⟩,
   ⟨0x14, by decide +kernel⟩,
   ⟨8, by decide +kernel⟩⟩

theorem witness_CommitsApply :
    (∃ (v : BitVec 32), v.getLsbD 0 = true) ∧
    (∃ (c : Core) (s : State), (getCore s ↑c).cr.commitPend = true ∧ (∀ u < 5, holdOf (getCore s ↑c) u = none)) ∧
    (∃ (c : Core) (s : State) (n : Nat), (getCore s ↑c).cr.commitPend = true ∧ (∀ u < 5, holdOf (getCore s ↑c) u = none) ∧ n < 4) ∧
    (∃ (c : Core) (s : State), (∃ u < 5, holdOf (getCore s ↑c) u ≠ none)) :=
  ⟨⟨1, by decide +kernel⟩,
   ⟨0, sc { kRun with cr := { commitPend := true } }, by decide +kernel⟩,
   ⟨0, sc { kRun with cr := { commitPend := true } }, 3, by decide +kernel⟩,
   ⟨0, sc { kRun with hold := [(4, some held0)] }, ⟨4, by decide +kernel, by decide +kernel⟩⟩⟩

theorem witness_DirectActionsRun :
    (∃ (c : Core) (s : State) (v : BitVec 32), holdsNone (getCore s ↑c) = true ∧ isDirect (getCore s ↑c) = false ∧ v.getLsbD 31 = true) ∧
    (∃ (c : Core) (s : State), holdsNone (getCore s ↑c) = false) :=
  ⟨⟨0, State.reset, 0x80000000, by decide +kernel⟩,
   ⟨0, sc kRun, by decide +kernel⟩⟩

theorem witness_KernelsStart :
    (∃ (c : Core) (s : State) (g : Nat) (x : Gang) (d : Nat), (getCore s ↑c).gang = some g ∧ gangOf s g = some x ∧ x.st = GangSt.granted ∧
      (∀ p ∈ x.cores, (getCore s p.2).phase = CorePhase.granted ∧ (getCore s p.2).retired = false) ∧ (List.map Prod.snd x.cores).Nodup ∧
      d ∉ List.map Prod.snd x.cores) ∧
    (∃ (c : Core) (s : State) (g : Nat) (x : Gang) (p : Nat × Nat) (i : Nat), (getCore s ↑c).gang = some g ∧ gangOf s g = some x ∧
      x.st = GangSt.granted ∧ (∀ p ∈ x.cores, (getCore s p.2).phase = CorePhase.granted ∧ (getCore s p.2).retired = false) ∧
      (List.map Prod.snd x.cores).Nodup ∧ p ∈ x.cores ∧ i ≠ 2 ∧ (∀ q ∈ x.sregs, q.1 ≠ i)) :=
  ⟨⟨0, { sc { phase := .granted, gang := some 0 } with gangs := [{ gang0 with st := .granted }] }, 0, { gang0 with st := .granted }, 1, by decide +kernel⟩,
   ⟨0, { sc { phase := .granted, gang := some 0 } with gangs := [{ gang0 with st := .granted }] }, 0, { gang0 with st := .granted }, (0, 0), 3, by decide +kernel⟩⟩

theorem witness_KernelsEnd :
    (∃ (c : Core) (s : State) (w : Bits), Issues s c (legalN w) []) ∧
    (∃ (c : Core) (s : State),
      ((∃ u < 9, bf (tget 0 (getCore s ↑c).cr.ucnt u) 31 16 ≠ bf (tget 0 (getCore s ↑c).cr.ucnt u) 15 0) ∨ writesPending (getCore s ↑c) = true)) ∧
    (∃ (c : Core) (s : State), (getCore s ↑c).ended = true ∧ (getCore s ↑c).fault = none ∧ (getCore s ↑c).retired = false ∧
      (∀ u < 9, bf (tget 0 (getCore s ↑c).cr.ucnt u) 31 16 = bf (tget 0 (getCore s ↑c).cr.ucnt u) 15 0) ∧ enginesIdle (getCore s ↑c) = true ∧
      writesPending (getCore s ↑c) = false ∧ (getCore s ↑c).comb = [] ∧ storesOut s ↑c = false ∧ isDirect (getCore s ↑c) = true) ∧
    (∃ (c : Core) (s : State) (g : Nat) (x : Gang) (rank : Nat) (d : Nat), (getCore s ↑c).ended = true ∧ (getCore s ↑c).fault = none ∧
      (getCore s ↑c).retired = false ∧ (∀ u < 9, bf (tget 0 (getCore s ↑c).cr.ucnt u) 31 16 = bf (tget 0 (getCore s ↑c).cr.ucnt u) 15 0) ∧
      enginesIdle (getCore s ↑c) = true ∧ writesPending (getCore s ↑c) = false ∧ (getCore s ↑c).comb = [] ∧ storesOut s ↑c = false ∧
      isDirect (getCore s ↑c) = false ∧ (getCore s ↑c).gang = some g ∧ gangOf s g = some x ∧ x.cores = [(rank, ↑c)] ∧ x.st = GangSt.running ∧
      x.ended.length + 1 < x.want ∧ d ≠ ↑c) :=
  ⟨⟨0, sc kRun, 0, issues_of (by decide +kernel)⟩,
   ⟨0, sc { kRun with accs := [{ accL with kind := .store }] }, .inr (by decide +kernel)⟩,
   ⟨0, sc { kDirect with ended := true }, by decide +kernel⟩,
   ⟨0, { sc { kRun with ended := true } with gangs := [{ gang0 with want := 2 }] }, 0, { gang0 with want := 2 }, 0, 1, by decide +kernel⟩⟩

theorem witness_FaultyKernelsEnd :
    (∃ (c : Core) (s : State) (f : KFault), (enginesIdle (getCore s ↑c) = false ∨ (getCore s ↑c).accs ≠ []) ∧ (getCore s ↑c).fault = some f) ∧
    (∃ (c : Core) (s : State) (f : KFault), (f.src = 1 ∨ f.src = 2 ∨ f.src = 5) ∧ (getCore s ↑c).fault = some f ∧ enginesIdle (getCore s ↑c) = true ∧
      (getCore s ↑c).accs = [] ∧ (getCore s ↑c).retired = false ∧ (getCore s ↑c).comb = [] ∧ coreWaits s ↑c = false ∧
      isDirect (getCore s ↑c) = true ∧ f.src ≠ 7) :=
  ⟨⟨0, sc { kRun with fault := some fault0, accs := [accL] }, fault0, .inr (by decide +kernel), by decide +kernel⟩,
   ⟨0, sc { kDirect with fault := some fault0 }, fault0, .inl rfl, by decide +kernel⟩⟩

theorem witness_CoreErrorsCount :
    (∃ (c : Core) (s : State) (e : Fin 4), (getCore s ↑c).retireDue = false ∧ errorsInSecond (getCore s ↑c) (↑e) s.now < 16) ∧
    (∃ (c : Core) (s : State), (getCore s ↑c).retireDue = false ∧ errorsInSecond (getCore s ↑c) 4 s.now < 16) ∧
    (∃ (c : Core) (s : State) (bank : Fin 64), (getCore s ↑c).retireDue = false ∧ errorsInSecond (getCore s ↑c) (8 + ↑bank) s.now < 16) ∧
    (∃ (c : Core) (s : State) (d : Nat), (getCore s ↑c).retired = false ∧ (getCore s ↑c).gang = none ∧ s.gangs = [] ∧ d ≠ ↑c) :=
  ⟨⟨0, sc { kRun with errs := List.replicate 14 (3, 0) }, 3, by decide +kernel⟩,
   ⟨0, sc { kRun with errs := List.replicate 14 (4, 0) }, by decide +kernel⟩,
   ⟨0, sc { kRun with errs := List.replicate 14 (71, 0) }, 63, by decide +kernel⟩,
   ⟨0, sc {}, 1, by decide +kernel⟩⟩

theorem witness_EngineInstructionsDispatch :
    (∃ (c : Core) (s : State) (w : BitVec 56) (w1 : BitVec 64), Issues s c (amLegal (64#8 ++ w) w1) (amSregs w1) ∧
      holdOf (getCore s ↑c) (BitVec.extractLsb 55 54 w).toNat = none) ∧
    (∃ (c : Core) (s : State) (w : BitVec 56) (w1 : BitVec 64), Issues s c (amLegal (64#8 ++ w) w1) (amSregs w1) ∧
      holdOf (getCore s ↑c) (BitVec.extractLsb 55 54 w).toNat ≠ none) ∧
    (∃ (c : Core) (s : State)
      (p : (Core → BitVec 56 → Instr) × EngKind × Nat × (BitVec 56 → Bool) × (BitVec 56 → List Nat) × (CoreSt → BitVec 56 → List (BitVec 64)))
      (w : BitVec 56), p ∈ rowsChisel ∧ Issues s c (p.2.2.2.1 w) (p.2.2.2.2.1 w) ∧ holdOf (getCore s ↑c) 4 = none) ∧
    (∃ (c : Core) (s : State)
      (p : (Core → BitVec 56 → Instr) × EngKind × Nat × (BitVec 56 → Bool) × (BitVec 56 → List Nat) × (CoreSt → BitVec 56 → List (BitVec 64)))
      (w : BitVec 56), p ∈ rowsChisel ∧ Issues s c (p.2.2.2.1 w) (p.2.2.2.2.1 w) ∧ holdOf (getCore s ↑c) 4 ≠ none) :=
  ⟨⟨0, sc kRun, 0x8000, 0, issues_of (by decide +kernel), by decide +kernel⟩,
   ⟨0, sc { kRun with hold := [(0, some held0)] }, 0x8000, 0, issues_of (by decide +kernel), by decide +kernel⟩,
   ⟨0, sc kRun, rowsChisel[0], 0, List.getElem_mem _, issues_of (by decide +kernel), by decide +kernel⟩,
   ⟨0, sc { kRun with hold := [(4, some held0)] }, rowsChisel[2], 0, List.getElem_mem _, issues_of (by decide +kernel), by decide +kernel⟩⟩

theorem witness_EngineOperationsAreAccepted :
    (∃ (c : Core) (s : State) (o : HeldOp) (e : Fin 4), Accepts s (↑c) (↑e) o ∧ o.direct = false ∧ o.kind = EngKind.amm ∧
      amChecks o.w0 (rdOfd (getCore s ↑c).mem.spad (opVal o 4).toNat) (rdOfd (getCore s ↑c).mem.spad (opVal o 5).toNat) = false) ∧
    (∃ (c : Core) (s : State) (o : HeldOp) (e : Fin 4), Accepts s (↑c) (↑e) o ∧ o.direct = false ∧ o.kind = EngKind.amm ∧
      amChecks o.w0 (rdOfd (getCore s ↑c).mem.spad (opVal o 4).toNat) (rdOfd (getCore s ↑c).mem.spad (opVal o 5).toNat) = true ∧ amMode o.w0 ≠ 2) ∧
    (∃ (c : Core) (s : State) (o : HeldOp), Accepts s (↑c) 4 o ∧ o.direct = false ∧ o.kind = EngKind.chn ∧
      chnChecks (o.w0.getLsbD 55) (chainDesc (getCore s ↑c) o) (chainOfds (getCore s ↑c) (chainDesc (getCore s ↑c) o)) (activeTables (getCore s ↑c)) = false) ∧
    (∃ (c : Core) (s : State) (o : HeldOp), Accepts s (↑c) 4 o ∧ o.direct = false ∧ o.kind = EngKind.chn ∧
      chnChecks (o.w0.getLsbD 55) (chainDesc (getCore s ↑c) o) (chainOfds (getCore s ↑c) (chainDesc (getCore s ↑c) o)) (activeTables (getCore s ↑c)) = true ∧
      hLen (chainDesc (getCore s ↑c) o) ≤ startAt (chainDesc (getCore s ↑c) o) (chainOfds (getCore s ↑c) (chainDesc (getCore s ↑c) o)) ((opVal o 1).toNat % 2 ^ 20)) ∧
    (∃ (c : Core) (s : State) (o : HeldOp), Accepts s (↑c) 4 o ∧ o.direct = false ∧ o.kind = EngKind.chn ∧
      chnChecks (o.w0.getLsbD 55) (chainDesc (getCore s ↑c) o) (chainOfds (getCore s ↑c) (chainDesc (getCore s ↑c) o)) (activeTables (getCore s ↑c)) = true ∧
      startAt (chainDesc (getCore s ↑c) o) (chainOfds (getCore s ↑c) (chainDesc (getCore s ↑c) o)) ((opVal o 1).toNat % 2 ^ 20) < hLen (chainDesc (getCore s ↑c) o)) ∧
    (∃ (c : Core) (s : State) (o : HeldOp), Accepts s (↑c) 4 o ∧ o.direct = false ∧ o.kind = EngKind.cfold ∧ 2 ≤ (BitVec.extractLsb 50 49 o.w0).toNat) ∧
    (∃ (c : Core) (s : State) (o : HeldOp), Accepts s (↑c) 4 o ∧ o.direct = false ∧ o.kind = EngKind.cfold ∧
      ¬(2 ≤ (BitVec.extractLsb 50 49 o.w0).toNat)) ∧
    (∃ (c : Core) (s : State) (o : HeldOp), Accepts s (↑c) 4 o ∧ o.direct = false ∧ o.kind = EngKind.ctbl) :=
  ⟨⟨0, sc { kRun with hold := [(0, some amm0)] }, amm0, 0, accepts_of (by decide +kernel), by decide +kernel⟩,
   ⟨0, sc { kRun with hold := [(0, some amm0)], mem := { spad := [(0, 9)] } }, amm0, 0, accepts_of (by decide +kernel), by decide +kernel⟩,
   ⟨0, sc { kRun with hold := [(4, some { held0 with w0 := 1 <<< 55 })], mem := { spad := [(5, 1)] } }, { held0 with w0 := 1 <<< 55 }, accepts_of (by decide +kernel), by decide +kernel⟩,
   ⟨0, sc { kRun with hold := [(4, some { held0 with vals := [0, 1] })], mem := { spad := [(4, 8), (128, 1)] } }, { held0 with vals := [0, 1] }, accepts_of (by decide +kernel), by decide +kernel⟩,
   ⟨0, sc { kRun with hold := [(4, some held0)], mem := { spad := [(4, 8), (128, 1)] } }, held0, accepts_of (by decide +kernel), by decide +kernel⟩,
   ⟨0, sc { kRun with hold := [(4, some { held0 with kind := .cfold, w0 := 2 <<< 49 })] }, { held0 with kind := .cfold, w0 := 2 <<< 49 }, accepts_of (by decide +kernel), by decide +kernel⟩,
   ⟨0, sc { kRun with hold := [(4, some { held0 with kind := .cfold })] }, { held0 with kind := .cfold }, accepts_of (by decide +kernel), by decide +kernel⟩,
   ⟨0, sc { kRun with hold := [(4, some { held0 with kind := .ctbl })] }, { held0 with kind := .ctbl }, accepts_of (by decide +kernel), by decide +kernel⟩⟩

theorem witness_MatrixProductsAccumulate :
    (∃ (c : Core) (e : Fin 4) (s : State) (i : Nat) (r : RunOp) (m : Nat) (n : Nat) (a : Nat) (b : Nat), Ready (getCore s ↑c) (↑e) i r ∧
      Int8Product r ∧ amEng r.op.w0 = ↑e ∧ m < amMT r.op.w0 ∧ n < amNT r.op.w0 ∧ a < 64 ∧ b < 64) ∧
    (∃ (c : Core) (e : Fin 4) (s : State) (i : Nat) (r : RunOp) (q : Nat) (a : Nat) (b : Nat), Ready (getCore s ↑c) (↑e) i r ∧ Int8Product r ∧
      amEng r.op.w0 = ↑e ∧ q ∉ amTiles r.op.w0 ∧ a < 64 ∧ b < 64) :=
  ⟨⟨0, 0, sc { kRun with ops := [(0, [run0])] }, 0, run0, 0, 0, 63, 63, ready0 (by decide +kernel), ⟨by decide +kernel, by decide +kernel, by decide +kernel, by decide +kernel, by decide +kernel, by decide +kernel⟩, by decide +kernel⟩,
   ⟨0, 0, sc { kRun with ops := [(0, [run0])] }, 0, run0, 1, 63, 63, ready0 (by decide +kernel), ⟨by decide +kernel, by decide +kernel, by decide +kernel, by decide +kernel, by decide +kernel, by decide +kernel⟩, by decide +kernel⟩⟩

theorem witness_TilesDrainAndComplete :
    (∃ (c : Core) (e : Fin 4) (s : State) (r : RunOp) (i : Nat) (d : Nat) (ds : List Nat) (p : Nat × Nat) (a : Nat) (b : Nat),
      (∀ j < i, ∀ (x : RunOp), (opsOf (getCore s ↑c) ↑e)[j]? = some x → x.stage ≠ OpStage.running) ∧ (opsOf (getCore s ↑c) ↑e)[i]? = some r ∧
      r.stage = OpStage.running ∧ r.drains = d :: ds ∧ (amOrder r.op.w0)[d]? = some p ∧ r.epoch = (getCore s ↑c).genEpoch ∧
      (getCore s ↑c).oldGens = [] ∧ amEng r.op.w0 = ↑e ∧
      (amOutFmt r.op.w0 = if amMode r.op.w0 = 0 ∧ amIsInt (r.ofds.getD 0 0) = true then 12 else 0) ∧ amCvt r.op.w0 % 4 ≠ 2 ∧
      4 * amN r.op.w0 ≤ amCpitch r.op ∧ amCoff r.op + amM r.op.w0 * amCpitch r.op ≤ 4194304 ∧ 64 * p.1 ≤ a ∧ a < 64 * p.1 + 64 ∧ a < amM r.op.w0 ∧
      64 * p.2 ≤ b ∧ b < 64 * p.2 + 64 ∧ b < amN r.op.w0) ∧
    (∃ (c : Core) (e : Fin 4) (s : State) (r : RunOp) (i : Nat) (d : Nat) (ds : List Nat) (p : Nat × Nat) (x : Nat),
      (∀ j < i, ∀ (x : RunOp), (opsOf (getCore s ↑c) ↑e)[j]? = some x → x.stage ≠ OpStage.running) ∧
      (∀ (a b : Nat), 64 * p.1 ≤ a → a < 64 * p.1 + 64 → a < amM r.op.w0 → 64 * p.2 ≤ b → b < 64 * p.2 + 64 → b < amN r.op.w0 → ¬(amCoff r.op + a * amCpitch r.op + 4 * b ≤ x ∧ x < amCoff r.op + a * amCpitch r.op + 4 * b + 4)) ∧
      (opsOf (getCore s ↑c) ↑e)[i]? = some r ∧ r.stage = OpStage.running ∧ r.drains = d :: ds ∧ (amOrder r.op.w0)[d]? = some p ∧
      r.epoch = (getCore s ↑c).genEpoch ∧ (getCore s ↑c).oldGens = [] ∧ amEng r.op.w0 = ↑e ∧
      (amOutFmt r.op.w0 = if amMode r.op.w0 = 0 ∧ amIsInt (r.ofds.getD 0 0) = true then 12 else 0) ∧ amCvt r.op.w0 % 4 ≠ 2 ∧
      4 * amN r.op.w0 ≤ amCpitch r.op ∧ amCoff r.op + amM r.op.w0 * amCpitch r.op ≤ 4194304) ∧
    (∃ (c : Core) (e : Fin 4) (s : State) (r : RunOp) (i : Nat) (d : Nat) (ds : List Nat) (p : Nat × Nat),
      (∀ j < i, ∀ (x : RunOp), (opsOf (getCore s ↑c) ↑e)[j]? = some x → x.stage ≠ OpStage.running) ∧ (opsOf (getCore s ↑c) ↑e)[i]? = some r ∧
      r.stage = OpStage.running ∧ r.drains = d :: ds ∧ (amOrder r.op.w0)[d]? = some p ∧ r.epoch = (getCore s ↑c).genEpoch ∧
      (getCore s ↑c).oldGens = [] ∧ amEng r.op.w0 = ↑e ∧
      (amOutFmt r.op.w0 = if amMode r.op.w0 = 0 ∧ amIsInt (r.ofds.getD 0 0) = true then 12 else 0) ∧ amCvt r.op.w0 % 4 ≠ 2 ∧
      4 * amN r.op.w0 ≤ amCpitch r.op ∧ amCoff r.op + amM r.op.w0 * amCpitch r.op ≤ 4194304) ∧
    (∃ (c : Core) (e : Fin 4) (s : State) (r : RunOp) (i : Nat), (opsOf (getCore s ↑c) ↑e)[i]? = some r ∧ r.stage = OpStage.finished ∧
      (∀ j < i, ∀ (x : RunOp), (opsOf (getCore s ↑c) ↑e)[j]? = some x → x.stage ≠ OpStage.finished) ∧ r.op.direct = false ∧ r.code ≠ St.fmtReserved ∧
      (getCore s ↑c).retireDue = false) :=
  ⟨⟨0, 0, sc { kRun with ops := [(0, [run1])] }, run1, 0, 0, [], (0, 0), 63, 63, none_before, by decide +kernel⟩,
   ⟨0, 0, sc { kRun with ops := [(0, [run1])] }, run1, 0, 0, [], (0, 0), 16384, none_before, run1_cells, by decide +kernel⟩,
   ⟨0, 0, sc { kRun with ops := [(0, [run1])] }, run1, 0, 0, [], (0, 0), none_before, by decide +kernel⟩,
   ⟨0, 0, sc { kRun with ops := [(0, [{ run1 with stage := .finished }])] }, { run1 with stage := .finished }, 0, by decide +kernel⟩⟩

theorem witness_ChiselOperationsEnter :
    (∃ (c : Core) (s : State) (r : RunOp) (i : Nat) (u : Nat), Ready (getCore s ↑c) 4 i r ∧ (hSer r.desc = true → i = 0) ∧
      (∀ j < i, ∀ (x : RunOp), (opsOf (getCore s ↑c) 4)[j]? = some x → x.op.kind ≠ EngKind.ctbl) ∧ r.op.kind = EngKind.chn ∧ u < 4) ∧
    (∃ (c : Core) (s : State) (r : RunOp) (i : Nat), Ready (getCore s ↑c) 4 i r ∧ ClearsScratchpad r.desc ∧ r.op.kind = EngKind.chn ∧
      (hSer r.desc = true → i = 0) ∧ (∀ j < i, ∀ (x : RunOp), (opsOf (getCore s ↑c) 4)[j]? = some x → x.op.kind ≠ EngKind.ctbl) ∧
      r.epoch = (getCore s ↑c).genEpoch ∧ (getCore s ↑c).oldGens = [] ∧ (opVal r.op 1).toNat % 2 ^ 20 = 0 ∧
      stBase (strm r.desc 4) + 4 * hLen r.desc ≤ 4194304) ∧
    (∃ (c : Core) (s : State) (r : RunOp) (i : Nat) (slot : Nat) (cause : Nat) (addr : Nat), Ready (getCore s ↑c) 4 i r ∧
      (hSer r.desc = true → i = 0) ∧ (∀ j < i, ∀ (x : RunOp), (opsOf (getCore s ↑c) 4)[j]? = some x → x.op.kind ≠ EngKind.ctbl) ∧
      r.op.kind = EngKind.chn ∧ r.epoch = (getCore s ↑c).genEpoch ∧ (getCore s ↑c).oldGens = [] ∧
      startAt r.desc r.ofds ((opVal r.op 1).toNat % 2 ^ 20) = 0 ∧
      faultAt r.desc (have __src := (getCore s ↑c).mem; { __src with spad := (racedView s r.seen (getCore s ↑c).mem.spad).1 }) 0 = some (slot, cause, addr) ∧
      cause < 4 ∧ slot < 8 ∧ (getCore s ↑c).cr.chsFault0 = 0) ∧
    (∃ (c : Core) (s : State) (r : RunOp), Ready (getCore s ↑c) 4 0 r ∧ r.op.kind = EngKind.cfold) :=
  ⟨⟨0, sc { kRun with ops := [(4, [chain0 []])] }, chain0 [], 0, 3, ready0 (by decide +kernel), fun _ => rfl, none_before, by decide +kernel⟩,
   ⟨0, sc { kRun with ops := [(4, [chain0 clear0])] }, chain0 clear0, 0, ready0 (by decide +kernel), ⟨by decide +kernel, by decide +kernel, by decide +kernel, by decide +kernel, by decide +kernel, by decide +kernel⟩, by decide +kernel⟩,
   ⟨0, sc { kRun with ops := [(4, [{ chain0 gather0 with seen := (List.range 4).map fun i => (i, (0xFF : Byte)) }])], mem := { spad := (List.range 4).map fun i => (i, 0xFF) } }, { chain0 gather0 with seen := (List.range 4).map fun i => (i, (0xFF : Byte)) }, 0, 0, 1, 4194303, ready0 (by decide +kernel), fun _ => rfl, none_before, by decide +kernel⟩,
   ⟨0, sc { kRun with ops := [(4, [{ chain0 [] with op := { held0 with kind := .cfold } }])] }, { chain0 [] with op := { held0 with kind := .cfold } }, ready0 (by decide +kernel), by decide +kernel⟩⟩

theorem witness_ChiselOperationsComplete :
    (∃ (c : Core) (s : State) (r : RunOp) (i : Nat) (p : Instr × EngKind),
      p ∈ [(Instr.chnComplete c, EngKind.chn), (Instr.cfoldComplete c, EngKind.cfold)] ∧
      (∀ j < i, ∀ (x : RunOp), (opsOf (getCore s ↑c) 4)[j]? = some x → x.op.kind ≠ p.2) ∧ (opsOf (getCore s ↑c) 4)[i]? = some r ∧ r.op.kind = p.2 ∧
      r.stage = OpStage.finished ∧ r.op.direct = false ∧ r.code ≠ St.fmtReserved ∧ (getCore s ↑c).retireDue = false) ∧
    (∃ (c : Core) (s : State) (r : RunOp) (i : Nat), (∀ j < i, ∀ (x : RunOp), (opsOf (getCore s ↑c) 4)[j]? = some x → x.op.kind ≠ EngKind.ctbl) ∧
      (∀ (j : Nat), 28 ≤ j → j < 64 → rd8 (racedView s r.seen (getCore s ↑c).mem.spad).1 ((off16 (opVal r.op 0) + j) % 4194304) = 0) ∧
      (opsOf (getCore s ↑c) 4)[i]? = some r ∧ r.op.kind = EngKind.ctbl ∧ r.op.direct = false ∧ (getCore s ↑c).retireDue = false) ∧
    (∃ (c : Core) (s : State) (v : BitVec 32), (v.getLsbD 31 = false ∨ holdsNone (getCore s ↑c) = false ∨ bt (getCore s ↑c).cr.chsDirect 30 = true)) ∧
    (∃ (c : Core) (s : State) (v : BitVec 32), v.getLsbD 31 = true ∧ holdsNone (getCore s ↑c) = true ∧ bt (getCore s ↑c).cr.chsDirect 30 = false ∧
      chnChecks true (spadRd (getCore s ↑c).mem.spad (bf v 21 0 / 16 * 16) 160) (chainOfds (getCore s ↑c) (spadRd (getCore s ↑c).mem.spad (bf v 21 0 / 16 * 16) 160)) (activeTables (getCore s ↑c)) = false) ∧
    (∃ (c : Core) (s : State) (v : BitVec 32), v.getLsbD 31 = true ∧ holdsNone (getCore s ↑c) = true ∧ bt (getCore s ↑c).cr.chsDirect 30 = false ∧
      chnChecks true (spadRd (getCore s ↑c).mem.spad (bf v 21 0 / 16 * 16) 160) (chainOfds (getCore s ↑c) (spadRd (getCore s ↑c).mem.spad (bf v 21 0 / 16 * 16) 160)) (activeTables (getCore s ↑c)) = true) :=
  ⟨⟨0, sc { kRun with ops := [(4, [{ chain0 [] with stage := .finished }])] }, { chain0 [] with stage := .finished }, 0, (.chnComplete 0, .chn), List.mem_cons_self .., none_before, by decide +kernel⟩,
   ⟨0, sc { kRun with ops := [(4, [{ chain0 [] with op := { held0 with kind := .ctbl } }])] }, { chain0 [] with op := { held0 with kind := .ctbl } }, 0, none_before, fun _ _ _ => rfl, by decide +kernel⟩,
   ⟨0, State.reset, 0x7FFFFFFF, .inl (by decide +kernel)⟩,
   ⟨0, sc { mem := { spad := [(5, 1)] } }, 0xC0000000, by decide +kernel⟩,
   ⟨0, sc { mem := { spad := [(4, 8), (128, 1)] } }, 0xC0000000, by decide +kernel⟩⟩

theorem witness_DmaDescriptorsRun_a :
    (∃ (c : Core) (s : State) (w : BitVec 56), Issues s c (legalD w) [] ∧
      128 ≤ (chanAt (getCore s ↑c) (BitVec.extractLsb 55 54 w).toNat).queue.length) ∧
    (∃ (c : Core) (s : State) (w : BitVec 56) (e : Nat), Issues s c (legalD w) [] ∧
      (chanAt (getCore s ↑c) (BitVec.extractLsb 55 54 w).toNat).queue.length < 128 ∧
      descOk { raw := BitVec.ofNat 512 (leNat (spadRd (getCore s ↑c).mem.spad ((areg (getCore s ↑c) (BitVec.extractLsb 53 51 w).toNat).toNat % 4194304 / 64 * 64) 64)), disp := (getCore s ↑c).dispNo, pc := (getCore s ↑c).regs.pc } = true ∧
      e ≠ (BitVec.extractLsb 55 54 w).toNat) ∧
    (∃ (c : Core) (s : State) (w : BitVec 56), Issues s c (legalD w) [] ∧
      (chanAt (getCore s ↑c) (BitVec.extractLsb 55 54 w).toNat).queue.length < 128 ∧
      descOk { raw := BitVec.ofNat 512 (leNat (spadRd (getCore s ↑c).mem.spad ((areg (getCore s ↑c) (BitVec.extractLsb 53 51 w).toNat).toNat % 4194304 / 64 * 64) 64)), disp := (getCore s ↑c).dispNo, pc := (getCore s ↑c).regs.pc } = false) ∧
    (∃ (c : Core) (s : State) (ch : Fin 4) (h : DmaDesc), ChannelHas s (↑c) (↑ch) h ∧ (chanAt (getCore s ↑c) ↑ch).phase = DmaPhase.idle ∧
      h.raw.getLsbD 322 = true ∧ s.plumb.count.toNat < (BitVec.extractLsb' 384 64 h.raw).toNat) ∧
    (∃ (c : Core) (s : State) (ch : Fin 4) (h : DmaDesc), ChannelHas s (↑c) (↑ch) h ∧ (chanAt (getCore s ↑c) ↑ch).phase = DmaPhase.idle ∧
      ¬(h.raw.getLsbD 322 = true ∧ s.plumb.count.toNat < (BitVec.extractLsb' 384 64 h.raw).toNat)) ∧
    (∃ (c : Core) (s : State) (ch : Fin 4) (h : DmaDesc), ChannelHas s (↑c) (↑ch) h ∧ (chanAt (getCore s ↑c) ↑ch).phase = DmaPhase.timed ∧
      s.plumb.count.toNat < (BitVec.extractLsb' 384 64 h.raw).toNat) :=
  ⟨⟨0, sc { kRun with dma := [(0, { queue := List.replicate 128 desc0 })] }, 0, issues_of (by decide +kernel), by decide +kernel⟩,
   ⟨0, sc { kRun with dma := [(0, { queue := List.replicate 127 desc0 })] }, 0, 1, issues_of (by decide +kernel), by decide +kernel⟩,
   ⟨0, sc { kRun with mem := { spad := [(19, 1)] } }, 0, issues_of (by decide +kernel), by decide +kernel⟩,
   ⟨0, sc (kDma { desc0 with raw := 1 <<< 322 ||| 1 <<< 384 } .idle), 3, { desc0 with raw := 1 <<< 322 ||| 1 <<< 384 }, chan_of (by decide +kernel), by decide +kernel⟩,
   ⟨0, sc (kDma desc0 .idle), 3, desc0, chan_of (by decide +kernel), by decide +kernel⟩,
   ⟨0, sc (kDma { desc0 with raw := 1 <<< 322 ||| 1 <<< 384 } .timed), 3, { desc0 with raw := 1 <<< 322 ||| 1 <<< 384 }, chan_of (by decide +kernel), by decide +kernel⟩⟩

theorem witness_DmaDescriptorsRun_b :
    (∃ (c : Core) (s : State) (ch : Fin 4) (h : DmaDesc), ChannelHas s (↑c) (↑ch) h ∧ (chanAt (getCore s ↑c) ↑ch).phase = DmaPhase.timed ∧
      ¬(s.plumb.count.toNat < (BitVec.extractLsb' 384 64 h.raw).toNat)) ∧
    (∃ (c : Core) (s : State) (ch : Fin 4) (h : DmaDesc), ChannelHas s (↑c) (↑ch) h ∧ (chanAt (getCore s ↑c) ↑ch).phase = DmaPhase.moving ∧
      (chanAt (getCore s ↑c) ↑ch).plane = (BitVec.extractLsb' 176 16 h.raw).toNat + 1 ∧ dmaOut s ↑c ↑ch = false ∧ h.raw.getLsbD 323 = true) ∧
    (∃ (c : Core) (s : State) (ch : Fin 4) (h : DmaDesc), ChannelHas s (↑c) (↑ch) h ∧ (chanAt (getCore s ↑c) ↑ch).phase = DmaPhase.moving ∧
      (chanAt (getCore s ↑c) ↑ch).plane = (BitVec.extractLsb' 176 16 h.raw).toNat + 1 ∧ dmaOut s ↑c ↑ch = false ∧ ¬(h.raw.getLsbD 323 = true)) ∧
    (∃ (c : Core) (s : State) (ch : Fin 4) (h : DmaDesc) (l : LbEntry) (o : Nat) (d : Nat), ChannelHas s (↑c) (↑ch) h ∧
      MapsTo s (getCore s ↑c).rlb (getCore s ↑c).ctx (BitVec.extractLsb' 448 64 h.raw) Need.atomic l o ∧ PlainLine s (getCore s ↑c).ctx o ∧
      (chanAt (getCore s ↑c) ↑ch).phase = DmaPhase.signalling ∧ isDirect (getCore s ↑c) = false ∧ (chanAt (getCore s ↑c) ↑ch).xs = XSt.miss ∧
      (chanAt (getCore s ↑c) ↑ch).xw = XSt.miss ∧ dieCode s (towerOf ↑c) (homeTower s o) = St.ok ∧ o % 64 + 8 ≤ 64 ∧ d ≠ ↑c) ∧
    (∃ (c : Core) (s : State) (ch : Fin 4) (h : DmaDesc) (l : LbEntry) (o : Nat) (x : Nat), ChannelHas s (↑c) (↑ch) h ∧
      MapsTo s (getCore s ↑c).rlb (getCore s ↑c).ctx (BitVec.extractLsb' 448 64 h.raw) Need.atomic l o ∧ PlainLine s (getCore s ↑c).ctx o ∧
      (chanAt (getCore s ↑c) ↑ch).phase = DmaPhase.signalling ∧ isDirect (getCore s ↑c) = false ∧ (chanAt (getCore s ↑c) ↑ch).xs = XSt.miss ∧
      (chanAt (getCore s ↑c) ↑ch).xw = XSt.miss ∧ dieCode s (towerOf ↑c) (homeTower s o) = St.ok ∧ o % 64 + 8 ≤ 64 ∧ (x < o ∨ o + 8 ≤ x)) :=
  ⟨⟨0, { sc (kDma { desc0 with raw := 1 <<< 322 ||| 1 <<< 384 } .timed) with plumb := { count := 1 } }, 3, { desc0 with raw := 1 <<< 322 ||| 1 <<< 384 }, chan_of (by decide +kernel), by decide +kernel⟩,
   ⟨0, sc { kRun with dma := [(3, { queue := [{ desc0 with raw := 1 <<< 323 }], phase := .moving, plane := 1 })] }, 3, { desc0 with raw := 1 <<< 323 }, chan_of (by decide +kernel), by decide +kernel⟩,
   ⟨0, sc { kRun with dma := [(3, { queue := [desc0], phase := .moving, plane := 1 })] }, 3, desc0, chan_of (by decide +kernel), by decide +kernel⟩,
   ⟨0, sOwn { kDma desc0 .signalling with rlb := [lbId] }, 3, desc0, lbId, 0, 1, chan_of (by decide +kernel), mapsTo_of (by decide +kernel), plainLine0 (by decide +kernel) (by decide +kernel), by decide +kernel⟩,
   ⟨0, sOwn { kDma desc0 .signalling with rlb := [lbId] }, 3, desc0, lbId, 0, 8, chan_of (by decide +kernel), mapsTo_of (by decide +kernel), plainLine0 (by decide +kernel) (by decide +kernel), by decide +kernel⟩⟩

theorem witness_DmaLinesMove :
    (∃ (c : Core) (ch : Fin 4) (s : State) (h : DmaDesc) (src : BitVec 64) (dst : BitVec 64) (n : Nat) (j : Nat),
      MovesNext s (↑c) (↑ch) h src dst n ∧ h.raw.getLsbD 320 = true ∧ h.raw.getLsbD 321 = true ∧ j < n) ∧
    (∃ (c : Core) (ch : Fin 4) (s : State) (h : DmaDesc) (src : BitVec 64) (dst : BitVec 64) (n : Nat) (a : Nat),
      MovesNext s (↑c) (↑ch) h src dst n ∧ h.raw.getLsbD 320 = true ∧ h.raw.getLsbD 321 = true ∧ a < 4194304 ∧
      (∀ j < n, a ≠ (dst.toNat + j) % 4194304)) ∧
    (∃ (c : Core) (ch : Fin 4) (s : State) (h : DmaDesc) (src : BitVec 64) (dst : BitVec 64) (n : Nat) (l : LbEntry) (o : Nat) (j : Nat),
      MovesNext s (↑c) (↑ch) h src dst n ∧ MapsTo s (getCore s ↑c).rlb (getCore s ↑c).ctx src Need.read l o ∧ PlainLine s (getCore s ↑c).ctx o ∧
      isDirect (getCore s ↑c) = false ∧ h.raw.getLsbD 320 = false ∧ h.raw.getLsbD 321 = true ∧ src.toNat % 64 + n ≤ 64 ∧ o % 64 = src.toNat % 64 ∧
      FreeRoute s (towerOf ↑c) (homeTower s o) ∧ chanHeld s o = false ∧ j < n) ∧
    (∃ (c : Core) (ch : Fin 4) (s : State) (h : DmaDesc) (src : BitVec 64) (dst : BitVec 64) (n : Nat) (l : LbEntry) (o : Nat) (a : Nat),
      MovesNext s (↑c) (↑ch) h src dst n ∧ MapsTo s (getCore s ↑c).rlb (getCore s ↑c).ctx src Need.read l o ∧ PlainLine s (getCore s ↑c).ctx o ∧
      isDirect (getCore s ↑c) = false ∧ h.raw.getLsbD 320 = false ∧ h.raw.getLsbD 321 = true ∧ src.toNat % 64 + n ≤ 64 ∧ o % 64 = src.toNat % 64 ∧
      FreeRoute s (towerOf ↑c) (homeTower s o) ∧ chanHeld s o = false ∧ a < 4194304 ∧ (∀ j < n, a ≠ (dst.toNat + j) % 4194304)) ∧
    (∃ (c : Core) (ch : Fin 4) (s : State) (h : DmaDesc) (src : BitVec 64) (dst : BitVec 64) (n : Nat) (l : LbEntry) (o : Nat) (d : Nat),
      MovesNext s (↑c) (↑ch) h src dst n ∧ MapsTo s (getCore s ↑c).rlb (getCore s ↑c).ctx dst Need.write l o ∧ PlainLine s (getCore s ↑c).ctx o ∧
      isDirect (getCore s ↑c) = false ∧ h.raw.getLsbD 320 = true ∧ h.raw.getLsbD 321 = false ∧ o % 64 = dst.toNat % 64 ∧
      FreeRoute s (towerOf ↑c) (homeTower s o) ∧ chanHeld s o = false ∧ d ≠ ↑c) ∧
    (∃ (c : Core) (ch : Fin 4) (s : State) (h : DmaDesc) (src : BitVec 64) (dst : BitVec 64) (n : Nat) (l : LbEntry) (o : Nat) (j : Nat),
      MovesNext s (↑c) (↑ch) h src dst n ∧ MapsTo s (getCore s ↑c).rlb (getCore s ↑c).ctx dst Need.write l o ∧ PlainLine s (getCore s ↑c).ctx o ∧
      isDirect (getCore s ↑c) = false ∧ h.raw.getLsbD 320 = true ∧ h.raw.getLsbD 321 = false ∧ o % 64 = dst.toNat % 64 ∧
      FreeRoute s (towerOf ↑c) (homeTower s o) ∧ chanHeld s o = false ∧ j < n) ∧
    (∃ (c : Core) (ch : Fin 4) (s : State) (h : DmaDesc) (src : BitVec 64) (dst : BitVec 64) (n : Nat) (l : LbEntry) (o : Nat) (a : Nat),
      MovesNext s (↑c) (↑ch) h src dst n ∧ MapsTo s (getCore s ↑c).rlb (getCore s ↑c).ctx dst Need.write l o ∧ PlainLine s (getCore s ↑c).ctx o ∧
      isDirect (getCore s ↑c) = false ∧ h.raw.getLsbD 320 = true ∧ h.raw.getLsbD 321 = false ∧ o % 64 = dst.toNat % 64 ∧
      FreeRoute s (towerOf ↑c) (homeTower s o) ∧ chanHeld s o = false ∧ (a < o ∨ o + n ≤ a)) :=
  ⟨⟨0, 3, sc (kMove (3 <<< 320)), dMove (3 <<< 320), 0, 0, 64, 63, moves_of (by decide +kernel), by decide +kernel⟩,
   ⟨0, 3, sc (kMove (3 <<< 320)), dMove (3 <<< 320), 0, 0, 64, 64, moves_of (by decide +kernel), by decide +kernel⟩,
   ⟨0, 3, sOwn { kMove (1 <<< 321) with rlb := [lbId] }, dMove (1 <<< 321), 0, 0, 64, lbId, 0, 63, moves_of (by decide +kernel), mapsTo_of (by decide +kernel), plainLine0 (by decide +kernel) (by decide +kernel), by decide +kernel⟩,
   ⟨0, 3, sOwn { kMove (1 <<< 321) with rlb := [lbId] }, dMove (1 <<< 321), 0, 0, 64, lbId, 0, 64, moves_of (by decide +kernel), mapsTo_of (by decide +kernel), plainLine0 (by decide +kernel) (by decide +kernel), by decide +kernel⟩,
   ⟨0, 3, sOwn { kMove (1 <<< 320) with rlb := [lbId] }, dMove (1 <<< 320), 0, 0, 64, lbId, 0, 1, moves_of (by decide +kernel), mapsTo_of (by decide +kernel), plainLine0 (by decide +kernel) (by decide +kernel), by decide +kernel⟩,
   ⟨0, 3, sOwn { kMove (1 <<< 320) with rlb := [lbId] }, dMove (1 <<< 320), 0, 0, 64, lbId, 0, 63, moves_of (by decide +kernel), mapsTo_of (by decide +kernel), plainLine0 (by decide +kernel) (by decide +kernel), by decide +kernel⟩,
   ⟨0, 3, sOwn { kMove (1 <<< 320) with rlb := [lbId] }, dMove (1 <<< 320), 0, 0, 64, lbId, 0, 64, moves_of (by decide +kernel), mapsTo_of (by decide +kernel), plainLine0 (by decide +kernel) (by decide +kernel), by decide +kernel⟩⟩

theorem witness_QueueRegistersRun :
    (∃ (s : State) (q : QId) (view : View), ((view = if s.host.drv = true then View.pcie else View.mason) ∧ s.rst.done = true) ∧
      (getQueue s ↑q).resetting = true) ∧
    (∃ (s : State) (q : QId) (view : View), ((view = if s.host.drv = true then View.pcie else View.mason) ∧ s.rst.done = true) ∧
      (getQueue s ↑q).resetting = false ∧ qEn (getQueue s ↑q) = false ∧ qBusy (getQueue s ↑q) = false) ∧
    (∃ (s : State) (q : QId) (view : View), ((view = if s.host.drv = true then View.pcie else View.mason) ∧ s.rst.done = true) ∧
      (getQueue s ↑q).resetting = false ∧ ¬(qEn (getQueue s ↑q) = false ∧ qBusy (getQueue s ↑q) = false)) ∧
    (∃ (s : State) (q : QId) (v : BitVec 32) (view : View), ((view = if s.host.drv = true then View.pcie else View.mason) ∧ s.rst.done = true) ∧
      (getQueue s ↑q).resetting = false ∧ qEn (getQueue s ↑q) = false ∧ bt v 31 = true) ∧
    (∃ (s : State) (q : QId) (v : BitVec 32) (view : View), ((view = if s.host.drv = true then View.pcie else View.mason) ∧ s.rst.done = true) ∧
      (getQueue s ↑q).resetting = false ∧ ¬(qEn (getQueue s ↑q) = false ∧ bt v 31 = true)) ∧
    (∃ (s : State) (view : View), (¬((view = if s.host.drv = true then View.pcie else View.mason) ∧ s.rst.done = true))) ∧
    (∃ (s : State) (view : View), (view = if s.host.drv = true then View.pcie else View.mason)) ∧
    (∃ (s : State) (view : View), (¬(view = if s.host.drv = true then View.pcie else View.mason))) :=
  ⟨⟨{ sQ { resetting := true } with rst := { done := true } }, 0, .mason, by decide +kernel⟩,
   ⟨{ sQ {} with rst := { done := true } }, 0, .mason, by decide +kernel⟩,
   ⟨{ sQ { ctl := 0x80000000 } with rst := { done := true } }, 0, .mason, by decide +kernel⟩,
   ⟨{ sQ {} with rst := { done := true } }, 0, 0x80000000, .mason, by decide +kernel⟩,
   ⟨{ sQ {} with rst := { done := true } }, 0, 0, .mason, by decide +kernel⟩,
   ⟨State.reset, .pcie, by decide +kernel⟩,
   ⟨State.reset, .mason, by decide +kernel⟩,
   ⟨State.reset, .pcie, by decide +kernel⟩⟩

theorem witness_EntriesPop :
    (∃ (s : State) (s1 : State) (q : Nat) (r : Reply) (c : Code) (bs : List Byte), PopsNext s q ∧
      hubRead s (qCtx (getQueue s q)) 2 (BitVec.ofNat 64 (bf (getQueue s q).base 63 12 * 4096 + 64 * ((getQueue s q).rptr.toNat % qSize (getQueue s q)))) 64 r = { code := c, bytes := bs, s := s1 } ∧
      tabWf { } s.queues = true ∧ c = St.ok ∧ entryOk (getQueue s q) bs = true ∧ enKind bs = 1) ∧
    (∃ (s : State) (s1 : State) (q : Nat) (r : Reply) (c : Code) (bs : List Byte), PopsNext s q ∧
      hubRead s (qCtx (getQueue s q)) 2 (BitVec.ofNat 64 (bf (getQueue s q).base 63 12 * 4096 + 64 * ((getQueue s q).rptr.toNat % qSize (getQueue s q)))) 64 r = { code := c, bytes := bs, s := s1 } ∧
      tabWf { } s.queues = true ∧ c = St.ok ∧ entryOk (getQueue s q) bs = false ∧ (getQueue s q).resetting = false) ∧
    (∃ (s : State) (s1 : State) (q : Nat) (r : Reply) (c : Code) (bs : List Byte), PopsNext s q ∧
      hubRead s (qCtx (getQueue s q)) 2 (BitVec.ofNat 64 (bf (getQueue s q).base 63 12 * 4096 + 64 * ((getQueue s q).rptr.toNat % qSize (getQueue s q)))) 64 r = { code := c, bytes := bs, s := s1 } ∧
      tabWf { } s.queues = true ∧ c ≠ St.ok ∧ c ≠ St.migratePending ∧ (getQueue s q).resetting = false) ∧
    (∃ (s : State) (s1 : State) (q : Nat) (r : Reply) (c : Code) (bs : List Byte) (s2 : State) (s3 : State) (s4 : State) (s5 : State) (s6 : State)
      (hb : List Byte) (rb : List Byte) (b5 : List Byte) (b6 : List Byte), PopsNext s q ∧
      hubRead s (qCtx (getQueue s q)) 2 (BitVec.ofNat 64 (bf (getQueue s q).base 63 12 * 4096 + 64 * ((getQueue s q).rptr.toNat % qSize (getQueue s q)))) 64 r = { code := c, bytes := bs, s := s1 } ∧
      launchProbe s1 (getQueue s q) bs = (false, s2) ∧
      hubRead ((fun u => setQueue { u with lastPop := tset 16383 s.lastPop (qPrio (getQueue s q)) q } q { (getQueue s q) with rptr := (getQueue s q).rptr + 1, run := some (freshRun bs (decide (c = St.ok)) (getQueue s q).rptr s.plumb.count) }) s2) (qCtx (getQueue s q)) 2 (BitVec.ofNat 64 (enAddr bs)) 64 Reply.home = { code := St.ok, bytes := hb, s := s3 } ∧
      hubRead s3 (qCtx (getQueue s q)) 2 (BitVec.ofNat 64 (Machine.fieldLe hb 0 8) + 12) 4 Reply.home = { code := St.ok, bytes := rb, s := s4 } ∧
      hubWrite s4 (qCtx (getQueue s q)) 2 (BitVec.ofNat 64 (Machine.fieldLe hb 0 8) + 12) Need.both (toLe 4 (leNat rb + 1)) Reply.home = { code := St.ok, bytes := b5, s := s5 } ∧
      hubWrite s5 (qCtx (getQueue s q)) 2 (BitVec.ofNat 64 (enAddr bs) + 16) Need.both (toLe 8 (Machine.fieldLe hb 16 8 + 1)) Reply.home = { code := St.ok, bytes := b6, s := s6 } ∧
      tabWf { } s.queues = true ∧ c = St.ok ∧ entryOk (getQueue s q) bs = true ∧ enKind bs = 2 ∧ Machine.fieldLe hb 12 1 = 1) :=
  ⟨⟨{ sQ { ctl := 0x80000000, wptr := 1 } with mem := [(0, 1), (4, 64)] }, _, 0, (.ok []), _, _, pops0 _ rfl (by decide +kernel) ⟨rfl, rfl⟩ rfl, accEq, by decide +kernel⟩,
   ⟨sQ { ctl := 0x80000000, wptr := 1 }, _, 0, (.ok []), _, _, pops0 _ rfl (by decide +kernel) ⟨rfl, rfl⟩ rfl, accEq, by decide +kernel⟩,
   ⟨{ sQ { ctl := 0x80000000, wptr := 1 } with hlb := [] }, _, 0, (.ok []), _, _, pops0 _ rfl (by decide +kernel) ⟨rfl, rfl⟩ rfl, accEq, by decide +kernel⟩,
   ⟨{ sQ { ctl := 0x80000000, wptr := 1 } with mem := [(0, 2), (8, 64), (64, 128), (76, 1)] }, _, 0, (.ok []), _, _, _, _, _, _, _, _, _, _, _, pops0 _ rfl (by decide +kernel) ⟨rfl, rfl⟩ rfl, accEq, pairEq (by decide +kernel), okEq (by decide +kernel), okEq (by decide +kernel), okEq (by decide +kernel), okEq (by decide +kernel), by decide +kernel⟩⟩

theorem witness_EntriesStart :
    (∃ (s : State) (q : QId) (e : EntryRun) (r : Reply) (bs : List Byte) (b2 : List Byte) (s1 : State) (s2 : State),
      hubRead s (qCtx (getQueue s ↑q)) 2 (BitVec.ofNat 64 (enConst e.raw)) (enClen e.raw) r = { code := St.ok, bytes := bs, s := s1 } ∧
      hubWrite s1 (qCtx (getQueue s ↑q)) 2 (BitVec.ofNat 64 (bf (getQueue s ↑q).cst 63 12 * 4096)) Need.write bs Reply.home = { code := St.ok, bytes := b2, s := s2 } ∧
      (getQueue s ↑q).run = some e ∧ (getQueue s ↑q).resetting = false ∧ e.started = false ∧ enKind e.raw = 1 ∧ runningBuffers s < 4096) ∧
    (∃ (s : State) (q : QId) (e : EntryRun) (r : Reply) (bs : List Byte) (b2 : List Byte) (s1 : State) (s2 : State) (hd : List Byte)
      (rest : List Byte) (s3 : State) (s4 : State),
      hubRead s (qCtx (getQueue s ↑q)) 2 (BitVec.ofNat 64 (enConst e.raw)) (enClen e.raw) r = { code := St.ok, bytes := bs, s := s1 } ∧
      hubWrite s1 (qCtx (getQueue s ↑q)) 2 (BitVec.ofNat 64 (bf (getQueue s ↑q).cst 63 12 * 4096)) Need.write bs Reply.home = { code := St.ok, bytes := b2, s := s2 } ∧
      hubRead s2 (qCtx (getQueue s ↑q)) 2 e.image 64 Reply.home = { code := St.ok, bytes := hd, s := s3 } ∧
      hubRead s3 (qCtx (getQueue s ↑q)) 2 (e.image + 64) (32 * Machine.fieldLe hd 0 2 + 8 * Machine.fieldLe hd 4 4) Reply.home = { code := St.ok, bytes := rest, s := s4 } ∧
      (getQueue s ↑q).run = some e ∧ (getQueue s ↑q).resetting = false ∧ e.started = false ∧ enKind e.raw ≠ 1) ∧
    (∃ (s : State) (q : QId) (e : EntryRun) (n : NodeRun), n ∈ e.nodes ∧
      (∀ (a b : Nat) (start : Bool), (a, b, start) ∈ e.edges → b = n.idx → ∀ m ∈ e.nodes, m.idx = a → if start = true then m.first = true else m.st = NodeSt.done) ∧
      (getQueue s ↑q).run = some e ∧ (getQueue s ↑q).resetting = false ∧ List.Pairwise (fun x1 x2 => x1 < x2) (List.map NodeRun.idx e.nodes) ∧
      n.st = NodeSt.pending ∧ runningBuffers s < 4096 ∧ (∀ m ∈ e.nodes, nodeMet e m = true → n.idx ≤ m.idx)) :=
  ⟨⟨sE { entry0 with started := false }, 0, { entry0 with started := false }, (.ok []), _, _, _, _, okEq (by decide +kernel), okEq (by decide +kernel), by decide +kernel⟩,
   ⟨sE { entry0 with started := false, raw := 2 :: List.replicate 63 0 }, 0, { entry0 with started := false, raw := 2 :: List.replicate 63 0 }, (.ok []), _, _, _, _, _, _, _, _, okEq (by decide +kernel), okEq (by decide +kernel), okEq (by decide +kernel), okEq (by decide +kernel), by decide +kernel⟩,
   ⟨sE { entry0 with nodes := [{ node0 [] 0 with st := .pending }] }, 0, { entry0 with nodes := [{ node0 [] 0 with st := .pending }] }, { node0 [] 0 with st := .pending }, List.mem_cons_self .., fun _ _ _ h => absurd h (List.not_mem_nil), by decide +kernel⟩⟩

theorem witness_EntriesEnd :
    (∃ (s : State) (s1 : State) (q : QId) (e : EntryRun) (b2 : List Byte) (b3 : List Byte) (s2 : State) (s3 : State),
      hubProbe (qCtx (getQueue s ↑q)) (endAccesses e (enCrec e.raw) (enSig e.raw)) s = (false, s1) ∧
      hubWrite (flushPass s1 (qCtx (getQueue s ↑q))) (qCtx (getQueue s ↑q)) 2 (BitVec.ofNat 64 (enCrec e.raw)) Need.write (recordBytes s e St.ok St.ok none) Reply.home = { code := St.ok, bytes := b2, s := s2 } ∧
      hubAtomic s2 (qCtx (getQueue s ↑q)) 2 (BitVec.ofNat 64 (enSig e.raw)) 8 0 1 0 Reply.home = { code := St.ok, bytes := b3, s := s3 } ∧
      (getQueue s ↑q).run = some e ∧ e.started = true ∧ (getQueue s ↑q).resetting = false ∧ (∀ n ∈ e.nodes, n.st = NodeSt.done) ∧
      backsOut (flushPass s1 (qCtx (getQueue s ↑q))) (qCtx (getQueue s ↑q)) = false ∧ e.pinned = false ∧ enIrq e.raw = false ∧ enCrec e.raw ≠ 0 ∧
      enSig e.raw ≠ 0) ∧
    (∃ (s : State) (q : QId) (e : EntryRun), (getQueue s ↑q).run = some e ∧ (getQueue s ↑q).resetting = false ∧ bf (getQueue s ↑q).hang 15 0 ≠ 0 ∧
      bf (getQueue s ↑q).hang 15 0 * 1000000 < e.hang) ∧
    (∃ (s : State) (q : QId) (e : EntryRun), (bf (getQueue s ↑q).hang 15 0 = 0 ∨ e.hang ≤ bf (getQueue s ↑q).hang 15 0 * 1000000) ∧
      (getQueue s ↑q).run = some e) ∧
    (∃ (s : State) (s1 : State) (q : QId) (e : EntryRun),
      (have crec := if e.readable = false ∨ e.checkFailed = true ∧ enCrec e.raw % 64 ≠ 0 then 0 else enCrec e.raw; have sig := if e.readable = false ∨ e.checkFailed = true ∧ enSig e.raw % 8 ≠ 0 then 0 else enSig e.raw; hubProbe (qCtx (getQueue s ↑q)) (endAccesses e crec sig) s = (false, s1)) ∧
      (getQueue s ↑q).run = some e ∧ (getQueue s ↑q).resetting = true ∧ (∀ g ∈ s.gangs, g.queue ≠ ↑q) ∧
      (∀ n ∈ e.nodes, ∀ p ∈ n.pkts, p.st = PktSt.done) ∧ backsOut (flushPass s1 (qCtx (getQueue s ↑q))) (qCtx (getQueue s ↑q)) = false) :=
  ⟨⟨sE { entry0 with raw := 1 :: (List.range 63).map (fun i => if i = 31 ∨ i = 39 then 64 else 0), nodes := [] }, _, 0, { entry0 with raw := 1 :: (List.range 63).map (fun i => if i = 31 ∨ i = 39 then 64 else 0), nodes := [] }, _, _, _, _, pairEq (by decide +kernel), okEq (by decide +kernel), okEq (by decide +kernel), by decide +kernel⟩,
   ⟨sQ { ctl := 0xC0000000, run := some { entry0 with hang := 1000001 }, hang := 1 }, 0, { entry0 with hang := 1000001 }, by decide +kernel⟩,
   ⟨sQ { ctl := 0xC0000000, run := some { entry0 with hang := 1000000 }, hang := 1 }, 0, { entry0 with hang := 1000000 }, .inr (by decide +kernel), by decide +kernel⟩,
   ⟨sQ { ctl := 0xC0000000, run := some { entry0 with readable := false }, resetting := true }, _, 0, { entry0 with readable := false }, pairEq (by decide +kernel), by decide +kernel⟩⟩

theorem witness_PacketsIssueAndComplete :
    (∃ (s : State) (q : QId) (node : Nat) (s1 : State) (e : EntryRun) (n : NodeRun) (r : Reply) (p : List Byte), AtHead s s1 (↑q) node e n r p ∧
      packetOk s1 (↑q) n p = false) ∧
    (∃ (s : State) (q : QId) (node : Nat) (s1 : State) (e : EntryRun) (n : NodeRun) (r : Reply) (p : List Byte), AtHead s s1 (↑q) node e n r p ∧
      MayIssue s e n p ∧ packetOk s1 (↑q) n p = true ∧ (phOp p ≠ 1 ∨ releaseOf e n p = none)) ∧
    (∃ (s : State) (q : QId) (node : Nat) (s1 : State) (e : EntryRun) (n : NodeRun) (r : Reply) (p : List Byte), AtHead s s1 (↑q) node e n r p ∧
      ¬MayIssue s e n p ∧ packetOk s1 (↑q) n p = true ∧ (phOp p ≠ 1 ∨ releaseOf e n p = none)) ∧
    (∃ (s : State) (q : QId) (node : Nat) (s1 : State) (e : EntryRun) (n : NodeRun) (r : Reply) (p : List Byte) (a : BitVec 64),
      AtHead s s1 (↑q) node e n r p ∧ MayIssue s e n p ∧ packetOk s1 (↑q) n p = true ∧ phOp p = 1 ∧ releaseOf e n p = some a) ∧
    (∃ (s : State) (q : QId) (node : Nat) (s1 : State) (e : EntryRun) (n : NodeRun) (r : Reply) (p : List Byte) (a : BitVec 64),
      AtHead s s1 (↑q) node e n r p ∧ ¬MayIssue s e n p ∧ packetOk s1 (↑q) n p = true ∧ phOp p = 1 ∧ releaseOf e n p = some a) ∧
    (∃ (s : State) (q : QId) (node : Nat) (off : Nat) (p : PktRun) (n : NodeRun), PacketIs s (↑q) node off 0 PktSt.issued p ∧
      nodeOf s (↑q) node = some n ∧ n.st = NodeSt.running ∧ (getQueue s ↑q).resetting = false) ∧
    (∃ (s : State) (q : QId) (node : Nat) (off : Nat) (p : PktRun) (n : NodeRun) (op : BitVec 8) (c : Code),
      PacketIs s (↑q) node off op (PktSt.performed c) p ∧ nodeOf s (↑q) node = some n ∧ n.st = NodeSt.running ∧ (getQueue s ↑q).resetting = false ∧
      (op = 1 → backsOut (flushPass s (qCtx (getQueue s ↑q))) (qCtx (getQueue s ↑q)) = false) ∧ pktFaulty op c = false) ∧
    (∃ (s : State) (q : QId) (node : Nat) (off : Nat) (p : PktRun) (n : NodeRun) (op : BitVec 8) (c : Code) (d : Nat),
      PacketIs s (↑q) node off op (PktSt.performed c) p ∧ nodeOf s (↑q) node = some n ∧ n.st = NodeSt.running ∧ (getQueue s ↑q).resetting = false ∧
      (op = 1 → backsOut (flushPass s (qCtx (getQueue s ↑q))) (qCtx (getQueue s ↑q)) = false) ∧ pktFaulty op c = true ∧ d ≠ ↑q) :=
  ⟨⟨{ sE entry0 with mem := [(0, 11)] }, 0, 0, _, entry0, node0 [] 0, (.ok []), _, ⟨rfl, rfl, by decide +kernel, rfl, okEq (by decide +kernel)⟩, by decide +kernel⟩,
   ⟨sE entry0, 0, 0, _, entry0, node0 [] 0, (.ok []), _, ⟨rfl, rfl, by decide +kernel, rfl, okEq (by decide +kernel)⟩, mayIssue0 (by decide +kernel), by decide +kernel⟩,
   ⟨{ sE entry0 with mem := [(1, 4), (8, 1)] }, 0, 0, _, entry0, node0 [] 0, (.ok []), _, ⟨rfl, rfl, by decide +kernel, rfl, okEq (by decide +kernel)⟩, fun h => absurd (h.own (by decide +kernel)) (by decide +kernel), by decide +kernel⟩,
   ⟨{ sE entry0 with mem := [(0, 1), (1, 4), (8, 1)], plumb := { count := 1 } }, 0, 0, _, entry0, node0 [] 0, (.ok []), _, 1, ⟨rfl, rfl, by decide +kernel, rfl, okEq (by decide +kernel)⟩, mayIssueT (by decide +kernel), by decide +kernel⟩,
   ⟨{ sE entry0 with mem := [(0, 1), (1, 4), (8, 1)] }, 0, 0, _, entry0, node0 [] 0, (.ok []), _, 1, ⟨rfl, rfl, by decide +kernel, rfl, okEq (by decide +kernel)⟩, fun h => absurd (h.own (by decide +kernel)) (by decide +kernel), by decide +kernel⟩,
   ⟨sP (pkt0 0 .issued zeros64), 0, 0, 0, pkt0 0 .issued zeros64, node0 [pkt0 0 .issued zeros64] 64, ⟨by decide +kernel, rfl, rfl⟩, by decide +kernel⟩,
   ⟨sP (pkt0 7 (.performed St.queueFull) zeros64), 0, 0, 0, pkt0 7 (.performed St.queueFull) zeros64, node0 [pkt0 7 (.performed St.queueFull) zeros64] 64, 7, St.queueFull, ⟨by decide +kernel, rfl, rfl⟩, by decide +kernel⟩,
   ⟨sP (pkt0 1 (.performed St.queueFull) zeros64), 0, 0, 0, pkt0 1 (.performed St.queueFull) zeros64, node0 [pkt0 1 (.performed St.queueFull) zeros64] 64, 1, St.queueFull, 1, ⟨by decide +kernel, rfl, rfl⟩, by decide +kernel⟩⟩

theorem witness_PacketEffectsRun_a :
    (∃ (s : State) (q : QId) (node : Nat) (off : Nat) (p : PktRun) (e : EntryRun), PacketIs s (↑q) node off 1 PktSt.issued p ∧
      (getQueue s ↑q).run = some e) ∧
    (∃ (s : State) (q : QId) (node : Nat) (off : Nat) (r : Reply) (p : PktRun) (c : Code) (b : List Byte) (s1 : State),
      PacketIs s (↑q) node off 2 PktSt.issued p ∧
      hubWrite s (qCtx (getQueue s ↑q)) 2 (BitVec.ofNat 64 (Machine.fieldLe p.raw 16 8)) Need.write (slice p.raw 32 (Machine.fieldLe p.raw 24 2)) r = { code := c, bytes := b, s := s1 } ∧
      c ≠ St.migratePending) ∧
    (∃ (s : State) (q : QId) (node : Nat) (off : Nat) (r : Reply) (p : PktRun) (c : Code) (b : List Byte) (s1 : State),
      PacketIs s (↑q) node off 3 PktSt.issued p ∧
      hubAtomic s (qCtx (getQueue s ↑q)) 2 (BitVec.ofNat 64 (Machine.fieldLe p.raw 16 8)) 8 (Machine.fieldLe p.raw 24 1) (Machine.fieldLe p.raw 32 8) (Machine.fieldLe p.raw 40 8) r = { code := c, bytes := b, s := s1 } ∧
      c ≠ St.migratePending) ∧
    (∃ (s : State) (q : QId) (node : Nat) (off : Nat) (p : PktRun), PacketIs s (↑q) node off 4 PktSt.issued p) ∧
    (∃ (s : State) (q : QId) (node : Nat) (off : Nat) (r : Reply) (p : PktRun) (c : Code) (d : List Byte) (s1 : State),
      PacketIs s (↑q) node off 4 PktSt.waiting p ∧
      (hubFlag s (qCtx (getQueue s ↑q)) 2 (BitVec.ofNat 64 (Machine.fieldLe p.raw 16 8)) (if (Machine.fieldLe p.raw 24 1).testBit 3 = true then 8 else 4) r = { code := c, bytes := d, s := s1 }) ∧
      c ≠ St.ok ∧ c ≠ St.migratePending) ∧
    (∃ (s : State) (q : QId) (node : Nat) (off : Nat) (r : Reply) (p : PktRun) (c : Code) (d : List Byte) (s1 : State),
      PacketIs s (↑q) node off 4 PktSt.waiting p ∧
      (hubFlag s (qCtx (getQueue s ↑q)) 2 (BitVec.ofNat 64 (Machine.fieldLe p.raw 16 8)) (if (Machine.fieldLe p.raw 24 1).testBit 3 = true then 8 else 4) r = { code := c, bytes := d, s := s1 }) ∧
      c = St.ok ∧
      (condHolds (Machine.fieldLe p.raw 24 1 % 8) (8 * if (Machine.fieldLe p.raw 24 1).testBit 3 = true then 8 else 4) (leNat d) (Machine.fieldLe p.raw 32 8) = true)) ∧
    (∃ (s : State) (q : QId) (node : Nat) (off : Nat) (r : Reply) (p : PktRun) (c : Code) (d : List Byte) (s1 : State),
      PacketIs s (↑q) node off 4 PktSt.waiting p ∧
      (hubFlag s (qCtx (getQueue s ↑q)) 2 (BitVec.ofNat 64 (Machine.fieldLe p.raw 16 8)) (if (Machine.fieldLe p.raw 24 1).testBit 3 = true then 8 else 4) r = { code := c, bytes := d, s := s1 }) ∧
      (Machine.fieldLe p.raw 40 8 = 0 ∨ s.plumb.count.toNat < Machine.fieldLe p.raw 40 8) ∧
      (c = St.ok ∧ condHolds (Machine.fieldLe p.raw 24 1 % 8) (8 * if (Machine.fieldLe p.raw 24 1).testBit 3 = true then 8 else 4) (leNat d) (Machine.fieldLe p.raw 32 8) = false ∨ c = St.migratePending)) :=
  ⟨⟨sP (pkt0 1 .issued zeros64), 0, 0, 0, pkt0 1 .issued zeros64, { entry0 with nodes := [node0 [pkt0 1 .issued zeros64] 64] }, ⟨by decide +kernel, rfl, rfl⟩, by decide +kernel⟩,
   ⟨sP (pkt0 2 .issued zeros64), 0, 0, 0, (.ok []), pkt0 2 .issued zeros64, _, _, _, ⟨by decide +kernel, rfl, rfl⟩, accEq, by decide +kernel⟩,
   ⟨sP (pkt0 3 .issued zeros64), 0, 0, 0, (.ok []), pkt0 3 .issued zeros64, _, _, _, ⟨by decide +kernel, rfl, rfl⟩, accEq, by decide +kernel⟩,
   ⟨sP (pkt0 4 .issued zeros64), 0, 0, 0, pkt0 4 .issued zeros64, ⟨by decide +kernel, rfl, rfl⟩⟩,
   ⟨{ sP (pkt0 4 .waiting zeros64) with hlb := [] }, 0, 0, 0, (.ok []), pkt0 4 .waiting zeros64, _, _, _, ⟨by decide +kernel, rfl, rfl⟩, accEq, by decide +kernel⟩,
   ⟨sP (pkt0 4 .waiting zeros64), 0, 0, 0, (.ok []), pkt0 4 .waiting zeros64, _, _, _, ⟨by decide +kernel, rfl, rfl⟩, accEq, by decide +kernel⟩,
   ⟨sP (pkt0 4 .waiting ne64), 0, 0, 0, (.ok []), pkt0 4 .waiting ne64, _, _, _, ⟨by decide +kernel, rfl, rfl⟩, accEq, .inr (by decide +kernel), by decide +kernel⟩⟩

theorem witness_PacketEffectsRun_b :
    (∃ (s : State) (q : QId) (node : Nat) (off : Nat) (r : Reply) (p : PktRun) (c : Code) (d : List Byte) (s1 : State),
      PacketIs s (↑q) node off 4 PktSt.waiting p ∧
      (hubFlag s (qCtx (getQueue s ↑q)) 2 (BitVec.ofNat 64 (Machine.fieldLe p.raw 16 8)) (if (Machine.fieldLe p.raw 24 1).testBit 3 = true then 8 else 4) r = { code := c, bytes := d, s := s1 }) ∧
      (c = St.ok ∧ condHolds (Machine.fieldLe p.raw 24 1 % 8) (8 * if (Machine.fieldLe p.raw 24 1).testBit 3 = true then 8 else 4) (leNat d) (Machine.fieldLe p.raw 32 8) = false ∨ c = St.migratePending) ∧
      (¬(Machine.fieldLe p.raw 40 8 = 0 ∨ s.plumb.count.toNat < Machine.fieldLe p.raw 40 8)) ∧ (getQueue s ↑q).resetting = false) ∧
    (∃ (s : State) (q : QId) (node : Nat) (off : Nat) (r : Reply) (p : PktRun) (i : Instr × PktSt),
      i ∈ [(Instr.enq q node off r, PktSt.issued), (Instr.enqRetry q node off r, PktSt.retrying)] ∧ PacketIs s (↑q) node off 7 i.2 p ∧
      enqTarget s (Machine.fieldLe p.raw 16 2) (qCtx (getQueue s ↑q)) = false) ∧
    (∃ (s : State) (q : QId) (node : Nat) (off : Nat) (r : Reply) (p : PktRun) (i : Instr × PktSt) (s1 : State),
      i ∈ [(Instr.enq q node off r, PktSt.issued), (Instr.enqRetry q node off r, PktSt.retrying)] ∧ PacketIs s (↑q) node off 7 i.2 p ∧
      (hubProbe (qCtx (getQueue s ↑q)) ((BitVec.ofNat 64 (bf (getQueue s (Machine.fieldLe p.raw 16 2)).base 63 12 * 4096 + 64 * ((getQueue s (Machine.fieldLe p.raw 16 2)).wptr.toNat % qSize (getQueue s (Machine.fieldLe p.raw 16 2)))), Need.write) :: if BitVec.ofNat 64 (Machine.fieldLe p.raw 24 8) = 0 then [] else [(BitVec.ofNat 64 (Machine.fieldLe p.raw 24 8), Need.write)]) s = (false, s1)) ∧
      enqTarget s (Machine.fieldLe p.raw 16 2) (qCtx (getQueue s ↑q)) = true ∧ (getQueue s (Machine.fieldLe p.raw 16 2)).guilty = true ∧
      BitVec.ofNat 64 (Machine.fieldLe p.raw 24 8) = 0) ∧
    (∃ (s : State) (q : QId) (node : Nat) (off : Nat) (r : Reply) (p : PktRun) (i : Instr × PktSt) (s1 : State),
      i ∈ [(Instr.enq q node off r, PktSt.issued), (Instr.enqRetry q node off r, PktSt.retrying)] ∧ PacketIs s (↑q) node off 7 i.2 p ∧
      (hubProbe (qCtx (getQueue s ↑q)) ((BitVec.ofNat 64 (bf (getQueue s (Machine.fieldLe p.raw 16 2)).base 63 12 * 4096 + 64 * ((getQueue s (Machine.fieldLe p.raw 16 2)).wptr.toNat % qSize (getQueue s (Machine.fieldLe p.raw 16 2)))), Need.write) :: if BitVec.ofNat 64 (Machine.fieldLe p.raw 24 8) = 0 then [] else [(BitVec.ofNat 64 (Machine.fieldLe p.raw 24 8), Need.write)]) s = (false, s1)) ∧
      enqTarget s (Machine.fieldLe p.raw 16 2) (qCtx (getQueue s ↑q)) = true ∧ (getQueue s (Machine.fieldLe p.raw 16 2)).guilty = false ∧
      qSize (getQueue s (Machine.fieldLe p.raw 16 2)) < qDepth (getQueue s (Machine.fieldLe p.raw 16 2)) + 1 ∧
      BitVec.ofNat 64 (Machine.fieldLe p.raw 24 8) = 0) ∧
    (∃ (s : State) (q : QId) (node : Nat) (off : Nat) (r : Reply) (p : PktRun) (i : Instr × PktSt) (s1 : State) (c : Code) (b : List Byte)
      (s2 : State), i ∈ [(Instr.enq q node off r, PktSt.issued), (Instr.enqRetry q node off r, PktSt.retrying)] ∧ PacketIs s (↑q) node off 7 i.2 p ∧
      (hubProbe (qCtx (getQueue s ↑q)) ((BitVec.ofNat 64 (bf (getQueue s (Machine.fieldLe p.raw 16 2)).base 63 12 * 4096 + 64 * ((getQueue s (Machine.fieldLe p.raw 16 2)).wptr.toNat % qSize (getQueue s (Machine.fieldLe p.raw 16 2)))), Need.write) :: if BitVec.ofNat 64 (Machine.fieldLe p.raw 24 8) = 0 then [] else [(BitVec.ofNat 64 (Machine.fieldLe p.raw 24 8), Need.write)]) s = (false, s1)) ∧
      hubWrite (setQueue s1 (Machine.fieldLe p.raw 16 2) { (getQueue s (Machine.fieldLe p.raw 16 2)) with wptr := (getQueue s (Machine.fieldLe p.raw 16 2)).wptr + 1 }) (qCtx (getQueue s ↑q)) 2 (BitVec.ofNat 64 (bf (getQueue s (Machine.fieldLe p.raw 16 2)).base 63 12 * 4096 + 64 * ((getQueue s (Machine.fieldLe p.raw 16 2)).wptr.toNat % qSize (getQueue s (Machine.fieldLe p.raw 16 2))))) Need.write (slice p.raw 64 64) r = { code := c, bytes := b, s := s2 } ∧
      enqTarget s (Machine.fieldLe p.raw 16 2) (qCtx (getQueue s ↑q)) = true ∧ (getQueue s (Machine.fieldLe p.raw 16 2)).guilty = false ∧
      qDepth (getQueue s (Machine.fieldLe p.raw 16 2)) + 1 ≤ qSize (getQueue s (Machine.fieldLe p.raw 16 2)) ∧
      enqFirst s (Machine.fieldLe p.raw 16 2) (↑q) node off p.since = false ∧ c ≠ St.migratePending ∧
      BitVec.ofNat 64 (Machine.fieldLe p.raw 24 8) = 0) ∧
    (∃ (s : State) (q : QId) (node : Nat) (off : Nat) (r : Reply) (p : PktRun) (i : Instr × PktSt) (s1 : State) (c : Code) (b : List Byte)
      (s2 : State) (w : Code) (b3 : List Byte) (s3 : State),
      i ∈ [(Instr.enq q node off r, PktSt.issued), (Instr.enqRetry q node off r, PktSt.retrying)] ∧ PacketIs s (↑q) node off 7 i.2 p ∧
      (hubProbe (qCtx (getQueue s ↑q)) ((BitVec.ofNat 64 (bf (getQueue s (Machine.fieldLe p.raw 16 2)).base 63 12 * 4096 + 64 * ((getQueue s (Machine.fieldLe p.raw 16 2)).wptr.toNat % qSize (getQueue s (Machine.fieldLe p.raw 16 2)))), Need.write) :: if BitVec.ofNat 64 (Machine.fieldLe p.raw 24 8) = 0 then [] else [(BitVec.ofNat 64 (Machine.fieldLe p.raw 24 8), Need.write)]) s = (false, s1)) ∧
      hubWrite (setQueue s1 (Machine.fieldLe p.raw 16 2) { (getQueue s (Machine.fieldLe p.raw 16 2)) with wptr := (getQueue s (Machine.fieldLe p.raw 16 2)).wptr + 1 }) (qCtx (getQueue s ↑q)) 2 (BitVec.ofNat 64 (bf (getQueue s (Machine.fieldLe p.raw 16 2)).base 63 12 * 4096 + 64 * ((getQueue s (Machine.fieldLe p.raw 16 2)).wptr.toNat % qSize (getQueue s (Machine.fieldLe p.raw 16 2))))) Need.write (slice p.raw 64 64) r = { code := c, bytes := b, s := s2 } ∧
      hubWrite s2 (qCtx (getQueue s ↑q)) 2 (BitVec.ofNat 64 (Machine.fieldLe p.raw 24 8)) Need.write (toLe 4 (BitVec.toNat c)) Reply.home = { code := w, bytes := b3, s := s3 } ∧
      enqTarget s (Machine.fieldLe p.raw 16 2) (qCtx (getQueue s ↑q)) = true ∧ (getQueue s (Machine.fieldLe p.raw 16 2)).guilty = false ∧
      qDepth (getQueue s (Machine.fieldLe p.raw 16 2)) + 1 ≤ qSize (getQueue s (Machine.fieldLe p.raw 16 2)) ∧
      enqFirst s (Machine.fieldLe p.raw 16 2) (↑q) node off p.since = false ∧ c ≠ St.migratePending ∧
      BitVec.ofNat 64 (Machine.fieldLe p.raw 24 8) ≠ 0 ∧ w ≠ St.migratePending) :=
  ⟨⟨{ sP (pkt0 4 .waiting ne64) with plumb := { count := 2 } }, 0, 0, 0, (.ok []), pkt0 4 .waiting ne64, _, _, _, ⟨by decide +kernel, rfl, rfl⟩, accEq, by decide +kernel⟩,
   ⟨sQ { ctl := 0x80000000, run := some { entry0 with nodes := [node0 [pkt0 7 .issued zeros64] 64] } }, 0, 0, 0, (.ok []), pkt0 7 .issued zeros64, (.enq 0 0 0 (.ok []), .issued), List.mem_cons_self .., ⟨by decide +kernel, rfl, rfl⟩, by decide +kernel⟩,
   ⟨sQ { ctl := 0xC0000000, guilty := true, run := some { entry0 with nodes := [node0 [pkt0 7 .issued zeros64] 64] } }, 0, 0, 0, (.ok []), pkt0 7 .issued zeros64, (.enq 0 0 0 (.ok []), .issued), _, List.mem_cons_self .., ⟨by decide +kernel, rfl, rfl⟩, pairEq (by decide +kernel), by decide +kernel⟩,
   ⟨sQ { ctl := 0xC0000000, wptr := 1, run := some { entry0 with nodes := [node0 [pkt0 7 .issued zeros64] 64] } }, 0, 0, 0, (.ok []), pkt0 7 .issued zeros64, (.enq 0 0 0 (.ok []), .issued), _, List.mem_cons_self .., ⟨by decide +kernel, rfl, rfl⟩, pairEq (by decide +kernel), by decide +kernel⟩,
   ⟨sP (pkt0 7 .issued zeros64), 0, 0, 0, (.ok []), pkt0 7 .issued zeros64, (.enq 0 0 0 (.ok []), .issued), _, 0, _, _, List.mem_cons_self .., ⟨by decide +kernel, rfl, rfl⟩, pairEq (by decide +kernel), okEq (by decide +kernel), by decide +kernel⟩,
   ⟨sP (pkt0 7 .issued res64), 0, 0, 0, (.ok []), pkt0 7 .issued res64, (.enq 0 0 0 (.ok []), .issued), _, 0, _, _, _, _, _, List.mem_cons_self .., ⟨by decide +kernel, rfl, rfl⟩, pairEq (by decide +kernel), okEq (by decide +kernel), accEq, by decide +kernel⟩⟩

theorem witness_PoolsServe_a :
    (∃ (s : State) (p : PoolId) (view : View), ((view = if s.host.drv = true then View.pcie else View.mason) ∧ s.rst.done = true) ∧
      (getPool s ↑p).busy = true) ∧
    (∃ (s : State) (p : PoolId) (view : View), ((view = if s.host.drv = true then View.pcie else View.mason) ∧ s.rst.done = true) ∧
      (getPool s ↑p).busy = false ∧ plEn (getPool s ↑p) = true) ∧
    (∃ (s : State) (p : PoolId) (view : View), ((view = if s.host.drv = true then View.pcie else View.mason) ∧ s.rst.done = true) ∧
      (getPool s ↑p).busy = false ∧ plEn (getPool s ↑p) = false) ∧
    (∃ (s : State) (view : View), (¬((view = if s.host.drv = true then View.pcie else View.mason) ∧ s.rst.done = true))) ∧
    (∃ (s : State) (p : PoolId), ¬((getPool s ↑p).busy = true ∧ plEn (getPool s ↑p) = true ∧ (getPool s ↑p).closing = false)) ∧
    (∃ (s : State) (p : PoolId) (c : Code) (b : List Byte) (s1 : State) (s2 : State),
      hubProbe (plCtx (getPool s ↑p)) (linesOf (BitVec.ofNat 64 (plMeta (getPool s ↑p))) (freshMeta (plN (getPool s ↑p))).length Need.both) s = (false, s1) ∧
      hubWrite s1 (plCtx (getPool s ↑p)) 2 (BitVec.ofNat 64 (plMeta (getPool s ↑p))) Need.both (freshMeta (plN (getPool s ↑p))) Reply.home = { code := c, bytes := b, s := s2 } ∧
      (getPool s ↑p).busy = true ∧ plEn (getPool s ↑p) = true ∧ (getPool s ↑p).closing = false ∧ c = St.ok) ∧
    (∃ (s : State) (p : PoolId) (c : Code) (b : List Byte) (s1 : State) (s2 : State) (d : Nat),
      hubProbe (plCtx (getPool s ↑p)) (linesOf (BitVec.ofNat 64 (plMeta (getPool s ↑p))) (freshMeta (plN (getPool s ↑p))).length Need.both) s = (false, s1) ∧
      hubWrite s1 (plCtx (getPool s ↑p)) 2 (BitVec.ofNat 64 (plMeta (getPool s ↑p))) Need.both (freshMeta (plN (getPool s ↑p))) Reply.home = { code := c, bytes := b, s := s2 } ∧
      (getPool s ↑p).busy = true ∧ plEn (getPool s ↑p) = true ∧ (getPool s ↑p).closing = false ∧ c ≠ St.ok ∧ d ≠ ↑p) :=
  ⟨⟨{ sHub with pools := [(0, { busy := true })], rst := { done := true } }, 0, .mason, by decide +kernel⟩,
   ⟨{ sHub with pools := [(0, { ctl := 0x8E000000 })], rst := { done := true } }, 0, .mason, by decide +kernel⟩,
   ⟨{ sHub with rst := { done := true } }, 0, .mason, by decide +kernel⟩,
   ⟨State.reset, .pcie, by decide +kernel⟩,
   ⟨sHub, 0, by decide +kernel⟩,
   ⟨{ sHub with pools := [(0, { ctl := 0x8E000000, busy := true })] }, 0, _, _, _, _, pairEq (by decide +kernel), accEq, by decide +kernel⟩,
   ⟨{ sHub with hlb := [], pools := [(0, { ctl := 0x8E000000, busy := true })] }, 0, _, _, _, _, 1, pairEq (by decide +kernel), accEq, by decide +kernel⟩⟩

theorem witness_PoolsServe_b :
    (∃ (s : State) (q : QId) (node : Nat) (off : Nat) (r : PktRun) (alloc : Bool),
      (PacketIs s (↑q) node off (if alloc = true then 5 else 6) PktSt.issued r) ∧ (getPool s (Machine.fieldLe r.raw 16 1)).busy = true ∧
      (getPool s (Machine.fieldLe r.raw 16 1)).closing = false) ∧
    (∃ (s : State) (q : QId) (node : Nat) (off : Nat) (r : PktRun) (alloc : Bool),
      (PacketIs s (↑q) node off (if alloc = true then 5 else 6) PktSt.issued r) ∧
      ¬((getPool s (Machine.fieldLe r.raw 16 1)).busy = true ∧ (getPool s (Machine.fieldLe r.raw 16 1)).closing = false) ∧
      plEn (getPool s (Machine.fieldLe r.raw 16 1)) = false ∧ (getPool s (Machine.fieldLe r.raw 16 1)).closing = false ∧
      BitVec.ofNat 64 (Machine.fieldLe r.raw 32 8) = 0) ∧
    (∃ (s : State) (q : QId) (node : Nat) (off : Nat) (r : PktRun) (alloc : Bool),
      (PacketIs s (↑q) node off (if alloc = true then 5 else 6) PktSt.issued r) ∧
      ¬((getPool s (Machine.fieldLe r.raw 16 1)).busy = true ∧ (getPool s (Machine.fieldLe r.raw 16 1)).closing = false) ∧
      ¬(plEn (getPool s (Machine.fieldLe r.raw 16 1)) = false ∧ (getPool s (Machine.fieldLe r.raw 16 1)).closing = false)) ∧
    (∃ (s : State), ¬EpochEnds s ∧ (∀ i ∈ s.pools, i.2.steps = [])) ∧
    (∃ (s : State) (p : PoolId) (k : Pool) (r : PoolReq) (s1 : State), EpochEnds s ∧
      poolProbe { s with pools := [(↑p, { k with steps := [(1, false)] })], poolEpoch := s.now, epochDue := false } k [r] = (false, s1) ∧
      s.pools = [(↑p, k)] ∧ k.reqs = [r] ∧ k.steps = [] ∧ k.closing = false ∧ r.alloc = true ∧ r.res = 0 ∧ k.free.toNat < r.count ∧ r.wait = true) ∧
    (∃ (s : State) (p : PoolId) (k : Pool) (r : PoolReq) (s1 : State), EpochEnds s ∧
      poolProbe { s with pools := [(↑p, { k with steps := [(1, false)] })], poolEpoch := s.now, epochDue := false } k [r] = (false, s1) ∧
      s.pools = [(↑p, k)] ∧ k.reqs = [r] ∧ k.steps = [] ∧ k.closing = false ∧ r.alloc = true ∧ r.res = 0 ∧ k.free.toNat < r.count ∧ r.wait = false) ∧
    (∃ (s : State) (p : PoolId) (k : Pool) (r : PoolReq) (s1 : State) (d : List Byte) (m : List Byte) (b : Code) (b4 : List Byte) (b5 : List Byte)
      (s2 : State) (s3 : State) (s4 : State) (s5 : State), EpochEnds s ∧
      poolProbe { s with pools := [(↑p, { k with steps := [(1, false)] })], poolEpoch := s.now, epochDue := false } k [r] = (false, s1) ∧
      hubReadBoth s1 (plCtx k) 2 (stackAt k (k.free.toNat - 1)) 4 Reply.home = { code := St.ok, bytes := d, s := s2 } ∧
      hubReadBoth s2 (plCtx k) 2 (mapAt k (leNat d)) 1 Reply.home = { code := St.ok, bytes := m, s := s3 } ∧
      hubWrite s3 (plCtx k) 2 (mapAt k (leNat d)) Need.both [sb (BitVec.ofNat 8 (leNat m)) (leNat d % 8) true] Reply.home = { code := St.ok, bytes := b4, s := s4 } ∧
      hubWrite (setPool s4 ↑p { k with free := k.free - 1, steps := [(1, false)] }) (plCtx k) 2 r.addr Need.write (toLe 8 (plBase k + leNat d * plSize k)) Reply.home = { code := b, bytes := b5, s := s5 } ∧
      s.pools = [(↑p, k)] ∧ k.reqs = [r] ∧ k.steps = [] ∧ k.closing = false ∧ r.alloc = true ∧ r.res = 0 ∧ r.count = 1 ∧ 1 ≤ k.free.toNat ∧
      b ≠ St.migratePending) :=
  ⟨⟨{ sP (pkt0 5 .issued zeros64) with pools := [(0, { busy := true })] }, 0, 0, 0, pkt0 5 .issued zeros64, true, ⟨by decide +kernel, rfl, rfl⟩, by decide +kernel⟩,
   ⟨sP (pkt0 5 .issued zeros64), 0, 0, 0, pkt0 5 .issued zeros64, true, ⟨by decide +kernel, rfl, rfl⟩, by decide +kernel⟩,
   ⟨{ sP (pkt0 6 .issued zeros64) with pools := [(0, { ctl := 0x8E000000 })] }, 0, 0, 0, pkt0 6 .issued zeros64, false, ⟨by decide +kernel, rfl, rfl⟩, by decide +kernel⟩,
   ⟨{ sHub with now := 19999 }, (by unfold EpochEnds; decide), by decide +kernel⟩,
   ⟨{ sHub with now := 20000, pools := [(0, pool0 0 true)] }, 0, pool0 0 true, preq true, _, .inr (by decide +kernel), pairEq (by decide +kernel), by decide +kernel⟩,
   ⟨{ sHub with now := 20000, pools := [(0, pool0 0 false)] }, 0, pool0 0 false, preq false, _, .inr (by decide +kernel), pairEq (by decide +kernel), by decide +kernel⟩,
   ⟨{ sHub with now := 20000, pools := [(0, pool0 1 true)] }, 0, pool0 1 true, preq true, _, _, _, _, _, _, _, _, _, _, .inr (by decide +kernel), pairEq (by decide +kernel), okEq (by decide +kernel), okEq (by decide +kernel), okEq (by decide +kernel), accEq, by decide +kernel⟩⟩

theorem witness_GraphsChange_a :
    (∃ (s : State) (s1 : State) (s2 : State) (q : QId) (node : Nat) (off : Nat) (p : PktRun) (hb : List Byte),
      PacketIs s (↑q) node off 8 PktSt.issued p ∧
      hubProbe (qCtx (getQueue s ↑q)) [(BitVec.ofNat 64 (Machine.fieldLe p.raw 16 8), Need.both), (BitVec.ofNat 64 (Machine.fieldLe p.raw 24 8), Need.both)] s = (false, s1) ∧
      hubRead s1 (qCtx (getQueue s ↑q)) 2 (BitVec.ofNat 64 (Machine.fieldLe p.raw 16 8)) 64 Reply.home = { code := St.ok, bytes := hb, s := s2 } ∧
      Machine.fieldLe hb 12 1 = 1) ∧
    (∃ (s : State) (s1 : State) (s2 : State) (q : QId) (node : Nat) (off : Nat) (p : PktRun) (hb : List Byte) (c : Code) (img : List Byte)
      (s3 : State), PacketIs s (↑q) node off 8 PktSt.issued p ∧
      hubProbe (qCtx (getQueue s ↑q)) [(BitVec.ofNat 64 (Machine.fieldLe p.raw 16 8), Need.both), (BitVec.ofNat 64 (Machine.fieldLe p.raw 24 8), Need.both)] s = (false, s1) ∧
      hubRead s1 (qCtx (getQueue s ↑q)) 2 (BitVec.ofNat 64 (Machine.fieldLe p.raw 16 8)) 64 Reply.home = { code := St.ok, bytes := hb, s := s2 } ∧
      readImage s2 (qCtx (getQueue s ↑q)) (BitVec.ofNat 64 (Machine.fieldLe p.raw 24 8)) = { code := c, bytes := img, s := s3 } ∧
      Machine.fieldLe hb 12 1 ≠ 1 ∧ c ≠ St.ok ∧ c ≠ St.migratePending) ∧
    (∃ (s : State) (s1 : State) (s2 : State) (q : QId) (node : Nat) (off : Nat) (p : PktRun) (hb : List Byte) (img : List Byte) (s3 : State),
      PacketIs s (↑q) node off 8 PktSt.issued p ∧
      hubProbe (qCtx (getQueue s ↑q)) [(BitVec.ofNat 64 (Machine.fieldLe p.raw 16 8), Need.both), (BitVec.ofNat 64 (Machine.fieldLe p.raw 24 8), Need.both)] s = (false, s1) ∧
      hubRead s1 (qCtx (getQueue s ↑q)) 2 (BitVec.ofNat 64 (Machine.fieldLe p.raw 16 8)) 64 Reply.home = { code := St.ok, bytes := hb, s := s2 } ∧
      readImage s2 (qCtx (getQueue s ↑q)) (BitVec.ofNat 64 (Machine.fieldLe p.raw 24 8)) = { code := St.ok, bytes := img, s := s3 } ∧
      Machine.fieldLe hb 12 1 ≠ 1 ∧ imageOk img = false) ∧
    (∃ (s : State) (s1 : State) (s2 : State) (q : QId) (node : Nat) (off : Nat) (p : PktRun) (hb : List Byte) (img : List Byte) (s3 : State)
      (c : Code) (b4 : List Byte) (b5 : List Byte) (s4 : State) (s5 : State), PacketIs s (↑q) node off 8 PktSt.issued p ∧
      hubProbe (qCtx (getQueue s ↑q)) [(BitVec.ofNat 64 (Machine.fieldLe p.raw 16 8), Need.both), (BitVec.ofNat 64 (Machine.fieldLe p.raw 24 8), Need.both)] s = (false, s1) ∧
      hubRead s1 (qCtx (getQueue s ↑q)) 2 (BitVec.ofNat 64 (Machine.fieldLe p.raw 16 8)) 64 Reply.home = { code := St.ok, bytes := hb, s := s2 } ∧
      readImage s2 (qCtx (getQueue s ↑q)) (BitVec.ofNat 64 (Machine.fieldLe p.raw 24 8)) = { code := St.ok, bytes := img, s := s3 } ∧
      hubWrite s3 (qCtx (getQueue s ↑q)) 2 (BitVec.ofNat 64 (Machine.fieldLe p.raw 24 8) + 8) Need.both (toLe 4 1 ++ toLe 4 0 ++ toLe 8 (BitVec.ofNat 64 (Machine.fieldLe p.raw 16 8)).toNat) Reply.home = { code := St.ok, bytes := b4, s := s4 } ∧
      hubWrite s4 (qCtx (getQueue s ↑q)) 2 (BitVec.ofNat 64 (Machine.fieldLe p.raw 16 8)) Need.both (toLe 8 (BitVec.ofNat 64 (Machine.fieldLe p.raw 24 8)).toNat ++ toLe 4 1 ++ toLe 4 1 ++ toLe 8 0 ++ toLe 40 0) Reply.home = { code := c, bytes := b5, s := s5 } ∧
      Machine.fieldLe hb 12 1 ≠ 1 ∧ imageOk img = true ∧ c ≠ St.migratePending) ∧
    (∃ (s : State) (s1 : State) (s2 : State) (q : QId) (node : Nat) (off : Nat) (p : PktRun) (hb : List Byte),
      PacketIs s (↑q) node off 9 PktSt.issued p ∧
      hubProbe (qCtx (getQueue s ↑q)) ((BitVec.ofNat 64 (Machine.fieldLe p.raw 16 8), Need.both) :: linesOf (BitVec.ofNat 64 (Machine.fieldLe p.raw 24 8)) (32 * Machine.fieldLe p.raw 32 2) Need.read) s = (false, s1) ∧
      hubRead s1 (qCtx (getQueue s ↑q)) 2 (BitVec.ofNat 64 (Machine.fieldLe p.raw 16 8)) 64 Reply.home = { code := St.ok, bytes := hb, s := s2 } ∧
      Machine.fieldLe hb 12 1 ≠ 1) ∧
    (∃ (s : State) (s1 : State) (s2 : State) (q : QId) (node : Nat) (off : Nat) (p : PktRun) (hb : List Byte) (img : List Byte) (s3 : State),
      PacketIs s (↑q) node off 9 PktSt.issued p ∧
      hubProbe (qCtx (getQueue s ↑q)) ((BitVec.ofNat 64 (Machine.fieldLe p.raw 16 8), Need.both) :: linesOf (BitVec.ofNat 64 (Machine.fieldLe p.raw 24 8)) (32 * Machine.fieldLe p.raw 32 2) Need.read) s = (false, s1) ∧
      hubRead s1 (qCtx (getQueue s ↑q)) 2 (BitVec.ofNat 64 (Machine.fieldLe p.raw 16 8)) 64 Reply.home = { code := St.ok, bytes := hb, s := s2 } ∧
      readImage s2 (qCtx (getQueue s ↑q)) (BitVec.ofNat 64 (Machine.fieldLe hb 0 8)) = { code := St.ok, bytes := img, s := s3 } ∧
      Machine.fieldLe hb 12 1 = 1 ∧ (BitVec.ofNat 64 (Machine.fieldLe p.raw 40 8)).toNat < Machine.fieldLe hb 0 8 + img.length ∧
      Machine.fieldLe hb 0 8 < (BitVec.ofNat 64 (Machine.fieldLe p.raw 40 8)).toNat + img.length) :=
  ⟨⟨sG 8 0 0 0 0 [(12, 1)], _, _, 0, 0, 0, pG 8 0 0 0 0, _, ⟨by decide +kernel, rfl, rfl⟩, pairEq (by decide +kernel), okEq (by decide +kernel), by decide +kernel⟩,
   ⟨sG 8 0 0 0 0 [], _, _, 0, 0, 0, pG 8 0 0 0 0, _, _, _, _, ⟨by decide +kernel, rfl, rfl⟩, pairEq (by decide +kernel), okEq (by decide +kernel), accEq, by decide +kernel⟩,
   ⟨sG 8 0 4096 0 0 [(4096, 1)], _, _, 0, 0, 0, pG 8 0 4096 0 0, _, _, _, ⟨by decide +kernel, rfl, rfl⟩, pairEq (by decide +kernel), okEq (by decide +kernel), okEq (by decide +kernel), by decide +kernel⟩,
   ⟨sG 8 0 4096 0 0 [(4096, 1), (4164, 64)], _, _, 0, 0, 0, pG 8 0 4096 0 0, _, _, _, _, _, _, _, _, ⟨by decide +kernel, rfl, rfl⟩, pairEq (by decide +kernel), okEq (by decide +kernel), okEq (by decide +kernel), okEq (by decide +kernel), accEq, by decide +kernel⟩,
   ⟨sG 9 0 0 0 0 [], _, _, 0, 0, 0, pG 9 0 0 0 0, _, ⟨by decide +kernel, rfl, rfl⟩, pairEq (by decide +kernel), okEq (by decide +kernel), by decide +kernel⟩,
   ⟨sG 9 0 0 0 4191 [(1, 16), (12, 1), (4096, 1)], _, _, 0, 0, 0, pG 9 0 0 0 4191, _, _, _, ⟨by decide +kernel, rfl, rfl⟩, pairEq (by decide +kernel), okEq (by decide +kernel), okEq (by decide +kernel), by decide +kernel⟩⟩

theorem witness_GraphsChange_b :
    (∃ (s : State) (s1 : State) (s2 : State) (q : QId) (node : Nat) (off : Nat) (p : PktRun) (hb : List Byte) (img : List Byte) (s3 : State)
      (c : Code) (b5 : List Byte) (s4 : State) (s5 : State) (s6 : State), PacketIs s (↑q) node off 9 PktSt.issued p ∧
      hubProbe (qCtx (getQueue s ↑q)) ((BitVec.ofNat 64 (Machine.fieldLe p.raw 16 8), Need.both) :: linesOf (BitVec.ofNat 64 (Machine.fieldLe p.raw 24 8)) (32 * Machine.fieldLe p.raw 32 2) Need.read) s = (false, s1) ∧
      hubRead s1 (qCtx (getQueue s ↑q)) 2 (BitVec.ofNat 64 (Machine.fieldLe p.raw 16 8)) 64 Reply.home = { code := St.ok, bytes := hb, s := s2 } ∧
      readImage s2 (qCtx (getQueue s ↑q)) (BitVec.ofNat 64 (Machine.fieldLe hb 0 8)) = { code := St.ok, bytes := img, s := s3 } ∧
      hubProbe (qCtx (getQueue s ↑q)) (linesOf (BitVec.ofNat 64 (Machine.fieldLe p.raw 40 8)) img.length Need.both) s3 = (false, s4) ∧
      hubWrite s4 (qCtx (getQueue s ↑q)) 2 (BitVec.ofNat 64 (Machine.fieldLe p.raw 40 8)) Need.both img Reply.home = { code := St.ok, bytes := b5, s := s5 } ∧
      applyPatches (qCtx (getQueue s ↑q)) (BitVec.ofNat 64 (Machine.fieldLe p.raw 24 8)) (BitVec.ofNat 64 (Machine.fieldLe p.raw 40 8)) (Machine.fieldLe img 0 2) (List.range (Machine.fieldLe p.raw 32 2)) s5 = (c, s6) ∧
      Machine.fieldLe hb 12 1 = 1 ∧
      ¬((BitVec.ofNat 64 (Machine.fieldLe p.raw 40 8)).toNat < Machine.fieldLe hb 0 8 + img.length ∧ Machine.fieldLe hb 0 8 < (BitVec.ofNat 64 (Machine.fieldLe p.raw 40 8)).toNat + img.length) ∧
      c ≠ St.ok ∧ c ≠ St.migratePending) ∧
    (∃ (s : State) (s1 : State) (s2 : State) (q : QId) (node : Nat) (off : Nat) (p : PktRun) (hb : List Byte) (img : List Byte) (s3 : State)
      (c : Code) (b5 : List Byte) (s4 : State) (s5 : State) (s6 : State) (b7 : List Byte) (b8 : List Byte) (s7 : State) (s8 : State),
      PacketIs s (↑q) node off 9 PktSt.issued p ∧
      hubProbe (qCtx (getQueue s ↑q)) ((BitVec.ofNat 64 (Machine.fieldLe p.raw 16 8), Need.both) :: linesOf (BitVec.ofNat 64 (Machine.fieldLe p.raw 24 8)) (32 * Machine.fieldLe p.raw 32 2) Need.read) s = (false, s1) ∧
      hubRead s1 (qCtx (getQueue s ↑q)) 2 (BitVec.ofNat 64 (Machine.fieldLe p.raw 16 8)) 64 Reply.home = { code := St.ok, bytes := hb, s := s2 } ∧
      readImage s2 (qCtx (getQueue s ↑q)) (BitVec.ofNat 64 (Machine.fieldLe hb 0 8)) = { code := St.ok, bytes := img, s := s3 } ∧
      hubProbe (qCtx (getQueue s ↑q)) (linesOf (BitVec.ofNat 64 (Machine.fieldLe p.raw 40 8)) img.length Need.both) s3 = (false, s4) ∧
      hubWrite s4 (qCtx (getQueue s ↑q)) 2 (BitVec.ofNat 64 (Machine.fieldLe p.raw 40 8)) Need.both img Reply.home = { code := St.ok, bytes := b5, s := s5 } ∧
      applyPatches (qCtx (getQueue s ↑q)) (BitVec.ofNat 64 (Machine.fieldLe p.raw 24 8)) (BitVec.ofNat 64 (Machine.fieldLe p.raw 40 8)) (Machine.fieldLe img 0 2) (List.range (Machine.fieldLe p.raw 32 2)) s5 = (c, s6) ∧
      hubWrite s6 (qCtx (getQueue s ↑q)) 2 (BitVec.ofNat 64 (Machine.fieldLe p.raw 40 8) + 8) Need.both (toLe 4 ((Machine.fieldLe hb 8 4 + 1) % 2 ^ 32) ++ toLe 4 0 ++ toLe 8 (BitVec.ofNat 64 (Machine.fieldLe p.raw 16 8)).toNat) Reply.home = { code := St.ok, bytes := b7, s := s7 } ∧
      hubWrite s7 (qCtx (getQueue s ↑q)) 2 (BitVec.ofNat 64 (Machine.fieldLe p.raw 16 8)) Need.both (toLe 8 (BitVec.ofNat 64 (Machine.fieldLe p.raw 40 8)).toNat ++ toLe 4 ((Machine.fieldLe hb 8 4 + 1) % 2 ^ 32)) Reply.home = { code := St.ok, bytes := b8, s := s8 } ∧
      Machine.fieldLe hb 12 1 = 1 ∧
      ¬((BitVec.ofNat 64 (Machine.fieldLe p.raw 40 8)).toNat < Machine.fieldLe hb 0 8 + img.length ∧ Machine.fieldLe hb 0 8 < (BitVec.ofNat 64 (Machine.fieldLe p.raw 40 8)).toNat + img.length) ∧
      c = St.ok ∧ Machine.fieldLe img 12 4 ≠ 0) ∧
    (∃ (s : State) (s1 : State) (s2 : State) (q : QId) (node : Nat) (off : Nat) (p : PktRun) (hb : List Byte) (img : List Byte) (s3 : State)
      (c : Code) (b5 : List Byte) (s4 : State) (s5 : State) (s6 : State) (b7 : List Byte) (b8 : List Byte) (s7 : State) (s8 : State),
      PacketIs s (↑q) node off 9 PktSt.issued p ∧
      hubProbe (qCtx (getQueue s ↑q)) ((BitVec.ofNat 64 (Machine.fieldLe p.raw 16 8), Need.both) :: linesOf (BitVec.ofNat 64 (Machine.fieldLe p.raw 24 8)) (32 * Machine.fieldLe p.raw 32 2) Need.read) s = (false, s1) ∧
      hubRead s1 (qCtx (getQueue s ↑q)) 2 (BitVec.ofNat 64 (Machine.fieldLe p.raw 16 8)) 64 Reply.home = { code := St.ok, bytes := hb, s := s2 } ∧
      readImage s2 (qCtx (getQueue s ↑q)) (BitVec.ofNat 64 (Machine.fieldLe hb 0 8)) = { code := St.ok, bytes := img, s := s3 } ∧
      hubProbe (qCtx (getQueue s ↑q)) (linesOf (BitVec.ofNat 64 (Machine.fieldLe p.raw 40 8)) img.length Need.both) s3 = (false, s4) ∧
      hubWrite s4 (qCtx (getQueue s ↑q)) 2 (BitVec.ofNat 64 (Machine.fieldLe p.raw 40 8)) Need.both img Reply.home = { code := St.ok, bytes := b5, s := s5 } ∧
      applyPatches (qCtx (getQueue s ↑q)) (BitVec.ofNat 64 (Machine.fieldLe p.raw 24 8)) (BitVec.ofNat 64 (Machine.fieldLe p.raw 40 8)) (Machine.fieldLe img 0 2) (List.range (Machine.fieldLe p.raw 32 2)) s5 = (c, s6) ∧
      hubWrite s6 (qCtx (getQueue s ↑q)) 2 (BitVec.ofNat 64 (Machine.fieldLe p.raw 40 8) + 8) Need.both (toLe 4 ((Machine.fieldLe hb 8 4 + 1) % 2 ^ 32) ++ toLe 4 0 ++ toLe 8 (BitVec.ofNat 64 (Machine.fieldLe p.raw 16 8)).toNat) Reply.home = { code := St.ok, bytes := b7, s := s7 } ∧
      hubWrite s7 (qCtx (getQueue s ↑q)) 2 (BitVec.ofNat 64 (Machine.fieldLe p.raw 16 8)) Need.both (toLe 8 (BitVec.ofNat 64 (Machine.fieldLe p.raw 40 8)).toNat ++ toLe 4 ((Machine.fieldLe hb 8 4 + 1) % 2 ^ 32)) Reply.home = { code := St.ok, bytes := b8, s := s8 } ∧
      Machine.fieldLe hb 12 1 = 1 ∧
      ¬((BitVec.ofNat 64 (Machine.fieldLe p.raw 40 8)).toNat < Machine.fieldLe hb 0 8 + img.length ∧ Machine.fieldLe hb 0 8 < (BitVec.ofNat 64 (Machine.fieldLe p.raw 40 8)).toNat + img.length) ∧
      c = St.ok ∧ Machine.fieldLe img 12 4 = 0) ∧
    (∃ (s : State) (s1 : State) (s2 : State) (q : QId) (node : Nat) (off : Nat) (p : PktRun) (hb : List Byte),
      PacketIs s (↑q) node off 10 PktSt.issued p ∧
      hubProbe (qCtx (getQueue s ↑q)) [(BitVec.ofNat 64 (Machine.fieldLe p.raw 16 8), Need.both)] s = (false, s1) ∧
      hubRead s1 (qCtx (getQueue s ↑q)) 2 (BitVec.ofNat 64 (Machine.fieldLe p.raw 16 8)) 64 Reply.home = { code := St.ok, bytes := hb, s := s2 } ∧
      Machine.fieldLe hb 12 1 ≠ 1) ∧
    (∃ (s : State) (s1 : State) (s2 : State) (q : QId) (node : Nat) (off : Nat) (p : PktRun) (hb : List Byte) (rb : List Byte) (b4 : List Byte)
      (s3 : State) (s4 : State), PacketIs s (↑q) node off 10 PktSt.issued p ∧
      hubProbe (qCtx (getQueue s ↑q)) [(BitVec.ofNat 64 (Machine.fieldLe p.raw 16 8), Need.both)] s = (false, s1) ∧
      hubRead s1 (qCtx (getQueue s ↑q)) 2 (BitVec.ofNat 64 (Machine.fieldLe p.raw 16 8)) 64 Reply.home = { code := St.ok, bytes := hb, s := s2 } ∧
      hubRead s2 (qCtx (getQueue s ↑q)) 2 (BitVec.ofNat 64 (Machine.fieldLe hb 0 8) + 12) 4 Reply.home = { code := St.ok, bytes := rb, s := s3 } ∧
      hubWrite s3 (qCtx (getQueue s ↑q)) 2 (BitVec.ofNat 64 (Machine.fieldLe p.raw 16 8) + 12) Need.both [2] Reply.home = { code := St.ok, bytes := b4, s := s4 } ∧
      Machine.fieldLe hb 12 1 = 1 ∧ leNat rb ≠ 0) ∧
    (∃ (s : State) (s1 : State) (s2 : State) (q : QId) (node : Nat) (off : Nat) (p : PktRun) (hb : List Byte) (rb : List Byte) (b4 : List Byte)
      (s3 : State) (s4 : State), PacketIs s (↑q) node off 10 PktSt.issued p ∧
      hubProbe (qCtx (getQueue s ↑q)) [(BitVec.ofNat 64 (Machine.fieldLe p.raw 16 8), Need.both)] s = (false, s1) ∧
      hubRead s1 (qCtx (getQueue s ↑q)) 2 (BitVec.ofNat 64 (Machine.fieldLe p.raw 16 8)) 64 Reply.home = { code := St.ok, bytes := hb, s := s2 } ∧
      hubRead s2 (qCtx (getQueue s ↑q)) 2 (BitVec.ofNat 64 (Machine.fieldLe hb 0 8) + 12) 4 Reply.home = { code := St.ok, bytes := rb, s := s3 } ∧
      hubWrite s3 (qCtx (getQueue s ↑q)) 2 (BitVec.ofNat 64 (Machine.fieldLe p.raw 16 8) + 12) Need.both [2] Reply.home = { code := St.ok, bytes := b4, s := s4 } ∧
      Machine.fieldLe hb 12 1 = 1 ∧ leNat rb = 0) :=
  ⟨⟨sG 9 0 0 1 4192 [(1, 16), (12, 1), (4096, 1)], _, _, 0, 0, 0, pG 9 0 0 1 4192, _, _, _, _, _, _, _, _, ⟨by decide +kernel, rfl, rfl⟩, pairEq (by decide +kernel), okEq (by decide +kernel), okEq (by decide +kernel), pairEq (by decide +kernel), okEq (by decide +kernel), pairRfl, by decide +kernel⟩,
   ⟨sG 9 0 0 0 4192 [(1, 16), (12, 1), (4096, 1), (4108, 1)], _, _, 0, 0, 0, pG 9 0 0 0 4192, _, _, _, _, _, _, _, _, _, _, _, _, ⟨by decide +kernel, rfl, rfl⟩, pairEq (by decide +kernel), okEq (by decide +kernel), okEq (by decide +kernel), pairEq (by decide +kernel), okEq (by decide +kernel), pairRfl, okEq (by decide +kernel), okEq (by decide +kernel), by decide +kernel⟩,
   ⟨sG 9 0 0 0 4192 [(1, 16), (12, 1), (4096, 1)], _, _, 0, 0, 0, pG 9 0 0 0 4192, _, _, _, _, _, _, _, _, _, _, _, _, ⟨by decide +kernel, rfl, rfl⟩, pairEq (by decide +kernel), okEq (by decide +kernel), okEq (by decide +kernel), pairEq (by decide +kernel), okEq (by decide +kernel), pairRfl, okEq (by decide +kernel), okEq (by decide +kernel), by decide +kernel⟩,
   ⟨sG 10 0 0 0 0 [], _, _, 0, 0, 0, pG 10 0 0 0 0, _, ⟨by decide +kernel, rfl, rfl⟩, pairEq (by decide +kernel), okEq (by decide +kernel), by decide +kernel⟩,
   ⟨sG 10 0 0 0 0 [(12, 1)], _, _, 0, 0, 0, pG 10 0 0 0 0, _, _, _, _, _, ⟨by decide +kernel, rfl, rfl⟩, pairEq (by decide +kernel), okEq (by decide +kernel), okEq (by decide +kernel), okEq (by decide +kernel), by decide +kernel⟩,
   ⟨sG 10 0 0 0 0 [(1, 32), (12, 1)], _, _, 0, 0, 0, pG 10 0 0 0 0, _, _, _, _, _, ⟨by decide +kernel, rfl, rfl⟩, pairEq (by decide +kernel), okEq (by decide +kernel), okEq (by decide +kernel), okEq (by decide +kernel), by decide +kernel⟩⟩

theorem witness_GangsRun_a :
    (∃ (s : State) (x : Gang) (cs : List Nat), ServedNext s x ∧ x.st = GangSt.waiting ∧ x.release = none ∧ chooseCores s x.ctx x.want = some cs) ∧
    (∃ (s : State) (x : Gang), ServedNext s x ∧ x.st = GangSt.waiting ∧ x.release = none ∧ chooseCores s x.ctx x.want = none) ∧
    (∃ (s : State) (g : Nat) (x : Gang), ServedNext s x ∧ x.id = g ∧ (x.st = GangSt.waiting ∨ x.st = GangSt.prepared) ∧ x.release ≠ none ∧
      chooseCores s x.ctx (openRanks x).length = none) ∧
    (∃ (s : State) (g : Nat) (x : Gang) (cs : List Nat) (c : Nat), ServedNext s x ∧ x.id = g ∧ (x.st = GangSt.waiting ∨ x.st = GangSt.prepared) ∧
      x.release ≠ none ∧ chooseCores s x.ctx (openRanks x).length = some cs ∧ c ∉ cs) ∧
    (∃ (s : State) (g : Nat) (x : Gang) (cs : List Nat) (p : Nat × Nat), ServedNext s x ∧ x.id = g ∧
      (x.st = GangSt.waiting ∨ x.st = GangSt.prepared) ∧ x.release ≠ none ∧ chooseCores s x.ctx (openRanks x).length = some cs ∧
      p ∈ (openRanks x).zip cs ∧ (getCore s p.2).lastCtx ≠ some x.ctx) ∧
    (∃ (s : State) (g : Nat) (x : Gang) (T : BitVec 64) (n : NodeRun), gangOf s g = some x ∧ x.release = some T ∧ nodeOf s x.queue x.node = some n ∧
      x.st = GangSt.prepared ∧ (s.plumb.count.toNat < T.toNat ∨ openRanks x ≠ [])) :=
  ⟨⟨sW gangW, gangW, [0], served0 rfl (by decide +kernel), by decide +kernel⟩,
   ⟨sN gangW, gangW, served0 rfl (by decide +kernel), by decide +kernel⟩,
   ⟨sN gangT, 0, gangT, served0 rfl (by decide +kernel), by decide +kernel⟩,
   ⟨sW gangT, 0, gangT, [0], 255, served0 rfl (by decide +kernel), by decide +kernel⟩,
   ⟨sW gangT, 0, gangT, [0], (0, 0), served0 rfl (by decide +kernel), by decide +kernel⟩,
   ⟨{ sE entry0 with gangs := [{ gangT with st := .prepared }] }, 0, { gangT with st := .prepared }, 1, node0 [] 0, by decide +kernel⟩⟩

theorem witness_GangsRun_b :
    (∃ (s : State) (g : Nat) (x : Gang) (T : BitVec 64) (n : NodeRun), (∀ (i : Nat), bt (phWait x.pkt) i = true → bt n.posted i = true) ∧
      (phBar x.pkt = true → ∀ p ∈ n.pkts, p.st = PktSt.done) ∧ gangOf s g = some x ∧ x.release = some T ∧ nodeOf s x.queue x.node = some n ∧
      x.st = GangSt.prepared ∧ T.toNat ≤ s.plumb.count.toNat ∧ openRanks x = [] ∧ (getQueue s x.queue).resetting = false ∧
      pktOf s x.queue x.node x.off = none ∧ n.st = NodeSt.running ∧ n.next = x.off) ∧
    (∃ (s : State) (g : Nat) (x : Gang) (T : BitVec 64) (n : NodeRun), gangOf s g = some x ∧ x.release = some T ∧ nodeOf s x.queue x.node = some n ∧
      x.st = GangSt.prepared ∧ T.toNat ≤ s.plumb.count.toNat ∧ openRanks x = [] ∧ (getQueue s x.queue).resetting = false ∧
      pktOf s x.queue x.node x.off ≠ none) ∧
    (∃ (s : State) (g : Nat) (x : Gang), ServedNext s x ∧ x.id = g ∧ (openRanks x).length ≤ freeCores s) ∧
    (∃ (s : State) (g : Nat) (x : Gang) (v : Gang), ServedNext s x ∧ OnlyVictim s x v ∧ x.id = g ∧ freeCores s < (openRanks x).length ∧
      freeCores s + v.cores.length < (openRanks x).length) ∧
    (∃ (s : State) (g : Nat) (x : Gang) (v : Gang), ServedNext s x ∧ OnlyVictim s x v ∧ x.id = g ∧ freeCores s < (openRanks x).length ∧
      (openRanks x).length ≤ freeCores s + v.cores.length ∧ gangBegan s v = false) ∧
    (∃ (s : State) (g : Nat) (x : Gang) (v : Gang), ServedNext s x ∧ OnlyVictim s x v ∧ x.id = g ∧ freeCores s < (openRanks x).length ∧
      (openRanks x).length ≤ freeCores s + v.cores.length ∧ gangBegan s v = true ∧ (liveRanks v).length ≤ (openSlots s v.ctx).length) :=
  ⟨⟨{ sE { entry0 with nodes := [node0 [] 0] } with gangs := [{ gangT with st := .prepared, cores := [(0, 0)] }], plumb := { count := 1 } }, 0, { gangT with st := .prepared, cores := [(0, 0)] }, 1, node0 [] 0, (fun i hi => (by rw [show phWait ({ gangT with st := .prepared, cores := [(0, 0)] } : Gang).pkt = 0 by decide +kernel] at hi; simp [bt] at hi)), fun hb => absurd hb (by decide +kernel), by decide +kernel⟩,
   ⟨{ sP (pG 1 0 0 0 0) with gangs := [{ gangT with st := .prepared, cores := [(0, 0)] }], plumb := { count := 1 } }, 0, { gangT with st := .prepared, cores := [(0, 0)] }, 1, node0 [pG 1 0 0 0 0] 64, by decide +kernel⟩,
   ⟨sW gangW, 0, gangW, served0 rfl (by decide +kernel), by decide +kernel⟩,
   ⟨sV { gangW with want := 2 } (gangV .prepared), 0, { gangW with want := 2 }, gangV .prepared, served1 rfl (by decide +kernel), (by unfold OnlyVictim; decide), by decide +kernel⟩,
   ⟨sV gangW (gangV .prepared), 0, gangW, gangV .prepared, served1 rfl (by decide +kernel), (by unfold OnlyVictim; decide), by decide +kernel⟩,
   ⟨{ sV gangW (gangV .running) with cores := (List.range 256).map fun c => (c, { phase := .running, regs := { began := true } }), ctxs := [(0, { csave := 1 })], now := 1023000 }, 0, gangW, gangV .running, served1 rfl (by decide +kernel), (by unfold OnlyVictim; decide), by decide +kernel⟩⟩

theorem witness_GangsMove_a :
    (∃ (s : State) (c : Core) (g : Nat) (rank : Nat) (x : Gang) (s0 : State) (s1 : State) (slot : Nat) (code : Code) (b : List Byte) (s2 : State),
      combFlush s ↑c = s0 ∧ HoldsRank s (↑c) g rank x GangSt.saving ∧ (getCore s ↑c).phase = CorePhase.saving ∧ (getCore s ↑c).fault = none ∧
      (getCore s ↑c).accs = [] ∧ enginesIdle (getCore s ↑c) = true ∧ (getCore s ↑c).retired = false ∧ fieldStalls s ↑c = false ∧
      coreWaits s0 ↑c = false ∧ (getCore s0 ↑c).fault = none ∧ (∀ y ∈ s.gangs, y.want - y.ended.length ≤ coresInService s) ∧
      List.find? (fun p => decide (p.1 = rank)) x.slots = some (rank, slot) ∧
      hubProbe x.ctx (linesOf (slotAddr s0 x.ctx slot) imageSize Need.both) s0 = (false, s1) ∧
      hubWrite s1 x.ctx (3 + 8 * ↑c) (slotAddr s0 x.ctx slot) Need.both (imageBytes (getCore s1 ↑c)) Reply.home = { code := code, bytes := b, s := s2 } ∧
      code ≠ St.ok) ∧
    (∃ (s : State) (c : Core) (g : Nat) (rank : Nat) (x : Gang) (s0 : State) (s1 : State) (slot : Nat) (code : Code) (b : List Byte) (s2 : State)
      (d : Nat), combFlush s ↑c = s0 ∧ HoldsRank s (↑c) g rank x GangSt.saving ∧ (getCore s ↑c).phase = CorePhase.saving ∧
      (getCore s ↑c).fault = none ∧ (getCore s ↑c).accs = [] ∧ enginesIdle (getCore s ↑c) = true ∧ (getCore s ↑c).retired = false ∧
      fieldStalls s ↑c = false ∧ coreWaits s0 ↑c = false ∧ (getCore s0 ↑c).fault = none ∧
      (∀ y ∈ s.gangs, y.want - y.ended.length ≤ coresInService s) ∧ List.find? (fun p => decide (p.1 = rank)) x.slots = some (rank, slot) ∧
      hubProbe x.ctx (linesOf (slotAddr s0 x.ctx slot) imageSize Need.both) s0 = (false, s1) ∧
      hubWrite s1 x.ctx (3 + 8 * ↑c) (slotAddr s0 x.ctx slot) Need.both (imageBytes (getCore s1 ↑c)) Reply.home = { code := code, bytes := b, s := s2 } ∧
      code = St.ok ∧ x.ended.length < x.want ∧ d ≠ ↑c) ∧
    (∃ (s : State) (g : Nat) (x : Gang) (cs : List Nat), ServedNext s x ∧ gangOf s g = some x ∧ x.st = GangSt.saved ∧
      chooseCores s x.ctx (openRanks x).length = some cs) ∧
    (∃ (s : State) (g : Nat) (x : Gang), ServedNext s x ∧ gangOf s g = some x ∧ x.st = GangSt.saved ∧ chooseCores s x.ctx (openRanks x).length = none) ∧
    (∃ (s : State) (c : Core) (g : Nat) (rank : Nat) (x : Gang) (s1 : State) (s2 : State) (slot : Nat) (h : Hidden) (img : List Byte) (d : Nat),
      gangOf s g = some x ∧ x.st = GangSt.restoring ∧ fieldStalls s ↑c = false ∧
      List.find? (fun p => decide ((getCore s p.2).phase = CorePhase.restoring)) x.cores = some (rank, ↑c) ∧
      List.find? (fun p => decide (p.1 = rank)) x.slots = some (rank, slot) ∧ List.find? (fun p => decide (p.1 = rank)) x.hidden = some (rank, h) ∧
      hubProbe x.ctx (linesOf (slotAddr s x.ctx slot) imageSize Need.read) s = (false, s1) ∧
      hubRead s1 x.ctx (3 + 8 * ↑c) (slotAddr s x.ctx slot) imageSize Reply.home = { code := St.ok, bytes := img, s := s2 } ∧ d ≠ ↑c) ∧
    (∃ (s : State) (c : Core), (getCore (retireIfDue s ↑c) ↑c).retired = false) :=
  ⟨(have ⟨hp, b, t, hw⟩ := wOff (s := combFlush sSave 0) rfl rfl (by decide +kernel) (getCore (combFlush sSave 0) 0); ⟨sSave, 0, 0, 0, gSave, combFlush sSave 0, combFlush sSave 0, 0, St.xlateMiss, b, t, rfl, ⟨by decide +kernel, by decide +kernel, by decide +kernel, by decide +kernel⟩, by decide +kernel, by decide +kernel, by decide +kernel, by decide +kernel, by decide +kernel, by decide +kernel, by decide +kernel, by decide +kernel, by decide +kernel, by decide +kernel, hp, hw, by decide +kernel⟩),
   (have ⟨hp, b, t, hw⟩ := wSlot (s := combFlush (sQuiet sSave) 0) (by decide +kernel) qSave (getCore (combFlush (sQuiet sSave) 0) 0); ⟨sQuiet sSave, 0, 0, 0, gSave, combFlush (sQuiet sSave) 0, combFlush (sQuiet sSave) 0, 0, St.ok, b, t, 1, rfl, ⟨by decide +kernel, by decide +kernel, by decide +kernel, by decide +kernel⟩, by decide +kernel, by decide +kernel, by decide +kernel, by decide +kernel, by decide +kernel, by decide +kernel, by decide +kernel, by decide +kernel, by decide +kernel, by decide +kernel, hp, hw, rfl, by decide +kernel, by decide +kernel⟩),
   ⟨sW { gangW with st := .saved }, 0, { gangW with st := .saved }, [0], served0 rfl (by decide +kernel), by decide +kernel⟩,
   ⟨sN { gangW with st := .saved }, 0, { gangW with st := .saved }, served0 rfl (by decide +kernel), by decide +kernel⟩,
   (have ⟨hp, b, hr⟩ := wBack (s := sBack) (by decide +kernel) qBack; ⟨sBack, 0, 0, 0, gBack, sBack, sBack, 0, hid0, b, 1, by decide +kernel, by decide +kernel, by decide +kernel, by decide +kernel, by decide +kernel, by decide +kernel, hp, hr, by decide +kernel⟩),
   ⟨sc { kOld with retireDue := false }, 0, by decide +kernel⟩⟩

theorem witness_GangsMove_b :
    (∃ (s : State) (c : Core) (g : Nat) (x : Gang), (getCore (retireIfDue s ↑c) ↑c).retired = true ∧ (getCore (retireIfDue s ↑c) ↑c).gang = some g ∧
      gangOf (retireIfDue s ↑c) g = some x ∧ x.st = GangSt.granted) ∧
    (∃ (s : State) (c : Core) (g : Nat) (x : Gang), (getCore (retireIfDue s ↑c) ↑c).retired = true ∧ (getCore (retireIfDue s ↑c) ↑c).gang = some g ∧
      gangOf (retireIfDue s ↑c) g = some x ∧ x.st = GangSt.prepared) ∧
    (∃ (s : State) (c : Core) (g : Nat) (x : Gang) (n : NodeRun), (getCore (retireIfDue s ↑c) ↑c).retired = true ∧
      (getCore (retireIfDue s ↑c) ↑c).gang = some g ∧ gangOf (retireIfDue s ↑c) g = some x ∧ nodeOf (retireIfDue s ↑c) x.queue x.node = some n ∧
      x.st = GangSt.running ∧ (getQueue (retireIfDue s ↑c) x.queue).resetting = false ∧ n.restart = true ∧
      n.redisp < bf (retireIfDue s ↑c).schCfg 9 8) ∧
    (∃ (s : State) (c : Core) (g : Nat) (x : Gang) (n : NodeRun), (n.restart = false ∨ bf (retireIfDue s ↑c).schCfg 9 8 ≤ n.redisp) ∧
      (getCore (retireIfDue s ↑c) ↑c).retired = true ∧ (getCore (retireIfDue s ↑c) ↑c).gang = some g ∧ gangOf (retireIfDue s ↑c) g = some x ∧
      nodeOf (retireIfDue s ↑c) x.queue x.node = some n ∧ x.st = GangSt.running ∧ (getQueue (retireIfDue s ↑c) x.queue).resetting = false) ∧
    (∃ (s : State), (s.plumb.running = false ∨ s.plumb.count.toNat / 1000000 = s.schEpoch)) ∧
    (∃ (s : State) (d : Nat), Canonical s ∧ (∀ (d : Nat), (getDom s d).st = DomState.waiting → (getDom s d).target = true) ∧ s.plumb.running = true ∧
      s.plumb.count.toNat / 1000000 ≠ s.schEpoch ∧ s.key.test.passed = [] ∧ s.key.test.under = none) :=
  ⟨⟨sFail true .granted, 0, 0, { gang0 with st := .granted }, by decide +kernel⟩,
   ⟨sFail true .prepared, 0, 0, { gang0 with st := .prepared }, by decide +kernel⟩,
   ⟨sFail true .running, 0, 0, gang0, { node0 [] 0 with restart := true }, by decide +kernel⟩,
   ⟨sFail false .running, 0, 0, gang0, node0 [] 0, .inl rfl, by decide +kernel⟩,
   ⟨{ State.reset with plumb := { running := true, count := 999999 } }, .inr (by decide +kernel)⟩,
   ⟨{ State.reset with plumb := { running := true, count := 1000000 } }, 0, (by constructor <;> decide), fun d hd => (by cases hd), by decide +kernel⟩⟩

theorem witness_TranslationRuns_a :
    (∃ (s : State) (d : Nat) (base : Nat) (n : Nat) (e : Nat → BitVec 256) (vp : Nat) (j : Nat), TableHolds s d base n e ∧ StartsRise n e ∧
      (∀ (i : Nat), j < i → i < 2 ^ n → vp < reStart (e i)) ∧ j < 2 ^ n ∧ reStart (e j) ≤ vp) ∧
    (∃ (s : State) (c : Core) (i : Nat) (a : Access), (∀ b ∈ List.take i (getCore s ↑c).accs, unsettled b.x = false) ∧
      (getCore s ↑c).accs[i]? = some a ∧ a.x = XSt.miss ∧ isSearching (getCore s ↑c).fetchX = false ∧
      lbFind (getCore s ↑c).rlb (getCore s ↑c).ctx (a.va.toNat / 4096) = none) ∧
    (∃ (s : State) (c : Core) (base : Nat) (n : Nat) (en : Bool) (md : BitVec 64) (code : Code) (cause : Nat) (s1 : State) (d : Nat),
      searchFill s (↑c / 32) (getCore s ↑c).ctx base n en md ((getCore s ↑c).regs.pc.toNat / 4096) = (Sum.inr (code, cause), s1) ∧
      (getCore s ↑c).fetchX = XSt.searching base n en md ∧ d ≠ ↑c) ∧
    (∃ (s : State) (c : Core) (base : Nat) (n : Nat) (en : Bool) (md : BitVec 64) (code : Code) (cause : Nat) (s1 : State),
      searchFill s (↑c / 32) (getCore s ↑c).ctx base n en md ((getCore s ↑c).regs.pc.toNat / 4096) = (Sum.inr (code, cause), s1) ∧
      (getCore s ↑c).fetchX = XSt.searching base n en md ∧ bt (getCtx s (getCore s ↑c).ctx).xfault0 31 = false) ∧
    (∃ (s : State) (c : Core) (base : Nat) (n : Nat) (en : Bool) (md : BitVec 64) (l : LbEntry) (x : XSt) (l' : LbEntry) (s1 : State) (s' : State),
      searchFill s (↑c / 32) (getCore s ↑c).ctx base n en md ((getCore s ↑c).regs.pc.toNat / 4096) = (Sum.inl l, s1) ∧
      resolve (modCore s1 ↑c fun k => { k with rlb := lbFill 256 k.rlb l }) (getCore s ↑c).ctx l (getCore s ↑c).regs.pc Need.fetch true (↑c / 32) = (x, l', s') ∧
      (∀ (tg : Target) (nc : Bool) (w p : Nat), x ≠ XSt.page tg nc w p) ∧ (getCore s ↑c).fetchX = XSt.searching base n en md ∧
      l.ctx = (getCore s ↑c).ctx ∧ reCovers l.entry ((getCore s ↑c).regs.pc.toNat / 4096) = true) ∧
    (∃ (s : State) (x : CtxId) (view : View) (v : BitVec 32) (p : Instr × BitVec 32),
      (p ∈ [(Instr.xctlEn x view v, v), (Instr.xctlInv x view, BitVec.ofNat 32 (2 ^ 30 + if bt (getCtx s ↑x).xctl 31 = true then 2 ^ 31 else 0))]) ∧
      (view = if s.host.drv = true then View.pcie else View.mason) ∧ s.rst.done = true ∧ bt p.2 30 = false ∧
      (bt (getCtx s ↑x).xctl 31 = true → bt p.2 31 = true)) ∧
    (∃ (s : State) (x : CtxId) (view : View) (v : BitVec 32) (p : Instr × BitVec 32),
      (p ∈ [(Instr.xctlEn x view v, v), (Instr.xctlInv x view, BitVec.ofNat 32 (2 ^ 30 + if bt (getCtx s ↑x).xctl 31 = true then 2 ^ 31 else 0))]) ∧
      (bt p.2 30 = true ∨ bt (getCtx s ↑x).xctl 31 = true ∧ bt p.2 31 = false) ∧ (view = if s.host.drv = true then View.pcie else View.mason) ∧
      s.rst.done = true ∧ bt (getCtx s ↑x).xctl 29 = true) ∧
    (∃ (s : State) (x : CtxId) (view : View) (v : BitVec 32) (p : Instr × BitVec 32),
      (p ∈ [(Instr.xctlEn x view v, v), (Instr.xctlInv x view, BitVec.ofNat 32 (2 ^ 30 + if bt (getCtx s ↑x).xctl 31 = true then 2 ^ 31 else 0))]) ∧
      (bt p.2 30 = true ∨ bt (getCtx s ↑x).xctl 31 = true ∧ bt p.2 31 = false) ∧ Canonical s ∧
      (view = if s.host.drv = true then View.pcie else View.mason) ∧ s.rst.done = true ∧ bt (getCtx s ↑x).xctl 29 = false) :=
  ⟨⟨State.reset, 0, 0, 1, fun _ => 0, 0, 1, tableHolds0, fun _ _ _ _ => Nat.le_refl _, fun i h h2 => absurd h2 (by omega), by decide +kernel⟩,
   ⟨sc { kRun with accs := [{ accL with x := .miss }] }, 0, 0, { accL with x := .miss }, fun b hb => (by cases hb), by decide +kernel⟩,
   ⟨sc { kRun with fetchX := .searching 0 0 false 0 }, 0, 0, 0, false, 0, St.xlateMiss, 1, _, 1, fstEq (by decide +kernel), by decide +kernel⟩,
   ⟨sc { kRun with fetchX := .searching 0 0 false 0 }, 0, 0, 0, false, 0, St.xlateMiss, 1, _, fstEq (by decide +kernel), by decide +kernel⟩,
   ⟨{ sc { kRun with fetchX := .searching 0 0 true 0 } with mem := [(0, 0xBD)] }, 0, 0, 0, true, 0, { lbId with entry := 0xBD }, _, _, _, _, fstEq (by decide +kernel), tripEq, notPage (by decide +kernel), by decide +kernel⟩,
   ⟨{ State.reset with rst := { done := true } }, 0, .mason, 0, (.xctlEn 0 .mason 0, 0), List.mem_cons_self .., by decide +kernel⟩,
   ⟨{ State.reset with rst := { done := true }, ctxs := [(0, { xctl := 0x20000000 })] }, 0, .mason, 0, (.xctlInv 0 .mason, 0x40000000), List.mem_cons_of_mem _ (List.mem_cons_self ..), .inl rfl, by decide +kernel⟩,
   ⟨{ State.reset with rst := { done := true }, ctxs := [(0, { xctl := 0x80000000 })] }, 0, .mason, 0, (.xctlEn 0 .mason 0, 0), List.mem_cons_self .., .inr ⟨by decide +kernel, by decide +kernel⟩, (by constructor <;> decide), by decide +kernel⟩⟩

theorem witness_TranslationRuns_b :
    (∃ (s : State) (x : CtxId), bt (getCtx s ↑x).xctl 29 = true ∧ oldAccesses s ↑x = true) ∧
    (∃ (s : State) (x : CtxId), bt (getCtx s ↑x).xctl 29 = true ∧ oldAccesses s ↑x = false ∧ (getCtx s ↑x).inv2 = false) ∧
    (∃ (s : State) (x : CtxId), bt (getCtx s ↑x).xctl 29 = true ∧ oldAccesses s ↑x = false ∧ (getCtx s ↑x).inv2 = true) ∧
    (∃ (s : State) (view : View), (view = if s.host.drv = true then View.pcie else View.mason) ∧ bt s.ownCmd 62 = true) ∧
    (∃ (s : State) (view : View) (v : BitVec 64),
      (bf v 57 38 + bf v 37 18 ≥ 2 ^ 20 ∨ bf v 15 14 = 3 ∨ bf v 13 12 ≠ 0 ∨ bf v 15 14 ≠ 1 ∧ bf v 11 0 ≠ 0) ∧
      (view = if s.host.drv = true then View.pcie else View.mason) ∧ bt s.ownCmd 62 = false ∧ bt v 63 = true) ∧
    (∃ (s : State) (view : View) (v : BitVec 64),
      (¬(bt v 63 = true ∧ (bf v 57 38 + bf v 37 18 ≥ 2 ^ 20 ∨ bf v 15 14 = 3 ∨ bf v 13 12 ≠ 0 ∨ bf v 15 14 ≠ 1 ∧ bf v 11 0 ≠ 0))) ∧
      (view = if s.host.drv = true then View.pcie else View.mason) ∧ bt s.ownCmd 62 = false) ∧
    (∃ (s : State), bt s.ownCmd 62 = true) ∧
    (∃ (s : State), barOpen s = true ∧ s.host.posted = [] ∧ bt s.host.win 20 = false) :=
  ⟨⟨{ sc { kRun with accs := [accL] } with ctxs := [(0, { xctl := 0x20000000})] }, 0, by decide +kernel⟩,
   ⟨{ State.reset with ctxs := [(0, { xctl := 0x20000000 })] }, 0, by decide +kernel⟩,
   ⟨{ State.reset with ctxs := [(0, { xctl := 0x20000000, inv2 := true })] }, 0, by decide +kernel⟩,
   ⟨{ State.reset with ownCmd := 0x4000000000000000 }, .mason, by decide +kernel⟩,
   ⟨State.reset, .mason, 0x8000000000003000, .inr (.inr (.inl (by decide +kernel))), by decide +kernel⟩,
   ⟨State.reset, .mason, 0x8000000000008000, (by decide +kernel), by decide +kernel⟩,
   ⟨{ State.reset with ownCmd := 0x4000000000000000 }, by decide +kernel⟩,
   ⟨{ State.reset with host := { link := true, cfgReady := true, cfg := { mse := true } } }, by decide +kernel⟩⟩

theorem witness_TranslationRuns_c :
    (∃ (s : State) (off : Nat) (size : Nat) (c : Code) (d : List Byte) (s1 : State),
      hubRead s (bf s.host.win 11 0) 4 (BitVec.ofNat 64 (bf s.host.win 63 21 * 2 ^ 21 + off)) size Reply.home = { code := c, bytes := d, s := s1 } ∧
      barOpen s = true ∧ s.host.posted = [] ∧ bt s.host.win 20 = true ∧ c ≠ St.migratePending) ∧
    (∃ (s : State) (off : Nat) (bs : List Byte) (c : Code) (d : List Byte) (s1 : State),
      hubWrite s (bf s.host.win 11 0) 4 (BitVec.ofNat 64 (bf s.host.win 63 21 * 2 ^ 21 + off)) Need.write bs Reply.home = { code := c, bytes := d, s := s1 } ∧
      barOpen s = true ∧ s.host.posted = [] ∧ bt s.host.win 20 = true) ∧
    (∃ (s : State), barOpen s = true ∧ s.host.posted ≠ []) ∧
    (∃ (s : State) (i : Nat) (m : Migr), NoCoreWaits s m ∧ s.migr[i]? = some m ∧
      (List.filter (fun n => decide (n.tower = m.tower)) (List.take i s.migr)).length < 16 ∧ s.lateEv = []) ∧
    (∃ (s : State) (i : Nat) (m : Migr) (r : Reply) (d : List Byte) (s1 : State), NoCoreWaits s m ∧ migrAnswer s m r = (St.ok, d, s1) ∧
      s.migr[i]? = some m ∧ (List.filter (fun n => decide (n.tower = m.tower)) (List.take i s.migr)).length < 16 ∧ s.lateEv = []) ∧
    (∃ (s : State) (c : Core) (o : Nat) (nc : Bool) (w : Nat) (p : Nat) (v : Nat) (s1 : State) (d : Nat), sysRead s (↑c / 32) w 8 = (St.ok, v, s1) ∧
      (getCore s ↑c).fetchX = XSt.page (Target.loc o) nc w p ∧ o < 2 ^ 41 ∧ pageState v p ≠ 0 ∧ d ≠ ↑c) :=
  ⟨⟨{ sHub with host := { link := true, cfgReady := true, cfg := { mse := true }, win := 0x100000 } }, 0, 4, _, _, _, accEq, by decide +kernel⟩,
   ⟨{ sHub with host := { link := true, cfgReady := true, cfg := { mse := true }, win := 0x100000 } }, 0, [1], _, _, _, accEq, by decide +kernel⟩,
   ⟨{ State.reset with host := { link := true, cfgReady := true, cfg := { mse := true }, posted := [.window 0 0 []] } }, by decide +kernel⟩,
   ⟨{ State.reset with migr := [mig0] }, 0, mig0, noWait0 rfl, by decide +kernel⟩,
   ⟨{ State.reset with migr := [{ mig0 with src := .bus 0 }], host := { link := true, cfg := { bme := true } } }, 0, { mig0 with src := .bus 0 }, .ok [], _, _, noWait0 rfl, codeEq (by decide +kernel), by decide +kernel⟩,
   ⟨{ sc { kRun with fetchX := .page (.loc 0) false 0 0 } with mem := [(0, 2)] }, 0, 0, false, 0, 0, _, _, 1, codeEq (by decide +kernel), by decide +kernel⟩⟩

theorem witness_HbmChannelsRun_a :
    (∃ (s : State) (ch : HCh) (y : Nat) (newAct : Bool), bf (getHbm s ↑ch).stat 31 30 ≠ 1 ∧ newAct = false ∧
      (∃ e ∈ (getHbm s ↑ch).rowErrs, e.1 = rowOf y)) ∧
    (∃ (s : State) (ch : HCh) (y : Nat) (newAct : Bool), bf (getHbm s ↑ch).stat 31 30 ≠ 1 ∧
      (newAct = true ∨ ∀ e ∈ (getHbm s ↑ch).rowErrs, e.1 ≠ rowOf y) ∧ countWithin (getHbm s ↑ch).rowErrs (rowOf y) s.now 10000000000 < 3) ∧
    (∃ (s : State) (ch : HCh) (y : Nat) (newAct : Bool), bf (getHbm s ↑ch).stat 31 30 ≠ 1 ∧
      (newAct = true ∨ ∀ e ∈ (getHbm s ↑ch).rowErrs, e.1 ≠ rowOf y) ∧ 3 ≤ countWithin (getHbm s ↑ch).rowErrs (rowOf y) s.now 10000000000) ∧
    (∃ (s : State) (ch : HCh) (y : Nat) (x : Nat), bf (getHbm s ↑ch).stat 31 30 ≠ 1 ∧ lineAt s (↑ch) y = some x) ∧
    (∃ (s : State) (ch : HCh) (y : Nat), bf (getHbm s ↑ch).stat 31 30 ≠ 1 ∧
      32 ≤ (List.map Prod.fst (List.filter (fun e => decide (s.now < e.2 + 1000000000)) (getHbm s ↑ch).uncErrs ++ [(rowOf y, s.now)])).dedup.length) ∧
    (∃ (s : State) (ch : HCh), bf (getHbm s ↑ch).stat 31 30 ≠ 1 ∧ (getHbm s ↑ch).retraining = false) ∧
    (∃ (s : State) (ch : HCh), (getHbm s ↑ch).retraining = true) ∧
    (∃ (s : State) (ch : HCh) (pc : Fin 2) (bank : Fin 32) (row : Fin 18432) (bad : List (Fin 16)) (n : Nat) (i : Fin 16),
      bf (getHbm s ↑ch).stat 31 30 ≠ 1 ∧ rowKey ↑pc ↑bank ↑row ∈ (getHbm s ↑ch).needRemap ∧ n < 64 ∧ (∀ r ∈ (getHbm s ↑ch).remaps, r.spare ≠ n) ∧
      (∀ m < n, ∃ r ∈ (getHbm s ↑ch).remaps, r.spare = m) ∧ i ∈ bad) :=
  ⟨⟨sH { rowErrs := [(0, 0)] }, 0, 0, false, by decide +kernel⟩,
   ⟨sH { rowErrs := [(0, 0)] }, 0, 1023, true, by decide +kernel⟩,
   ⟨sH { rowErrs := [(0, 0), (0, 0), (0, 0)] }, 0, 1023, true, by decide +kernel⟩,
   ⟨State.reset, 0, 0, 0, by decide +kernel⟩,
   ⟨sH { uncErrs := (List.range 31).map fun i => (i + 1, 0) }, 0, 0, by decide +kernel⟩,
   ⟨State.reset, 511, by decide +kernel⟩,
   ⟨sH { retraining := true }, 0, by decide +kernel⟩,
   ⟨sH { needRemap := [rowKey 1 31 18431], remaps := [⟨0, 0, 0, 0⟩] }, 0, 1, 31, 18431, [15], 1, 15, by decide +kernel⟩⟩

theorem witness_HbmChannelsRun_b :
    (∃ (s : State) (ch : HCh), (getHbm s ↑ch).retireDue = false) ∧
    (∃ (s : State) (ch : HCh) (d : Nat), (getHbm s ↑ch).retireDue = true ∧ bf (getHbm s ↑ch).stat 31 30 ≠ 1 ∧ d ≠ ↑ch) ∧
    (∃ (s : State) (ch : HCh), (getHbm s ↑ch).retireDue = true ∧ bf (getHbm s ↑ch).stat 31 30 ≠ 1 ∧ bf (getHbm s ↑ch).stat 31 30 = 2) ∧
    (∃ (s : State) (ch : HCh) (ts : List Nat) (j : Option Nat), spillPlan s ↑ch = (ts, j) ∧ (getHbm s ↑ch).retireDue = true ∧
      bf (getHbm s ↑ch).stat 31 30 ≠ 1 ∧ bf (getHbm s ↑ch).stat 31 30 = 0 ∧ j = none) ∧
    (∃ (s : State) (ch : HCh) (ts : List Nat) (j : Option Nat) (n : Nat), spillPlan s ↑ch = (ts, j) ∧ (getHbm s ↑ch).retireDue = true ∧
      bf (getHbm s ↑ch).stat 31 30 ≠ 1 ∧ bf (getHbm s ↑ch).stat 31 30 = 0 ∧ n < 4 ∧ j = some n) ∧
    (∃ (s : State) (ch : HCh) (why : RecalWhy), bf (getHbm s ↑ch).stat 31 30 ≠ 1 ∧ (getHbm s ↑ch).recal = 0 ∧ recalDue s (↑ch) why = true ∧
      (getHbm s ↑ch).offline = false) ∧
    (∃ (s : State) (ch : HCh), (getHbm s ↑ch).recal ≠ 0 ∧ (getHbm s ↑ch).retraining = false) :=
  ⟨⟨State.reset, 511, by decide +kernel⟩,
   ⟨sH { retireDue := true }, 0, 1, by decide +kernel⟩,
   ⟨sH { retireDue := true, stat := 0x80000000 }, 0, by decide +kernel⟩,
   ⟨{ State.reset with hbm := (0, { retireDue := true }) :: (List.range 7).map fun i => (i + 1, { stat := 0x40000000 }) }, 0, _, none, Prod.ext rfl (by decide +kernel), by decide +kernel⟩,
   ⟨sH { retireDue := true }, 0, _, some 0, 0, Prod.ext rfl (by decide +kernel), by decide +kernel⟩,
   ⟨{ sH {} with now := 1000000000 }, 0, .period, by decide +kernel⟩,
   ⟨sH { recal := 1 }, 0, by decide +kernel⟩⟩

theorem witness_LinksAndCachesRun_a :
    (∃ (s : State) (f : Fin 264) (grp : Nat) (failed : Bool), (getMortar s ↑f).gone = false ∧ (getMortar s ↑f).steering = none ∧
      mortarCarries (↑f) (getMortar s ↑f) grp = true ∧ failed = false ∧ countWithin (getMortar s ↑f).fails grp s.now 1000000 < 32) ∧
    (∃ (s : State) (f : Fin 264) (grp : Nat) (failed : Bool) (sp : Nat),
      (failed = true ∨ 32 ≤ countWithin (getMortar s ↑f).fails grp s.now 1000000) ∧ (getMortar s ↑f).gone = false ∧
      (getMortar s ↑f).steering = none ∧ mortarCarries (↑f) (getMortar s ↑f) grp = true ∧ mortarFree (↑f) (getMortar s ↑f) = some sp) ∧
    (∃ (s : State) (f : Fin 264) (grp : Nat) (failed : Bool) (d : Nat), (failed = true ∨ 32 ≤ countWithin (getMortar s ↑f).fails grp s.now 1000000) ∧
      (getMortar s ↑f).gone = false ∧ (getMortar s ↑f).steering = none ∧ mortarCarries (↑f) (getMortar s ↑f) grp = true ∧
      mortarFree (↑f) (getMortar s ↑f) = none ∧ d ≠ ↑f) ∧
    (∃ (s : State) (f : Fin 264) (grp : Nat) (failed : Bool), (failed = true ∨ 32 ≤ countWithin (getMortar s ↑f).fails grp s.now 1000000) ∧
      (getMortar s ↑f).gone = false ∧ (getMortar s ↑f).steering = none ∧ mortarCarries (↑f) (getMortar s ↑f) grp = true ∧
      mortarFree (↑f) (getMortar s ↑f) = none ∧ ↑f < 256) ∧
    (∃ (s : State) (f : Fin 264) (g : Nat) (sp : Nat), (getMortar s ↑f).steering = some g ∧ mortarFree (↑f) (getMortar s ↑f) = some sp) ∧
    (∃ (s : State) (l : Fin 24) (lane : Fin 18), (getLintel s ↑l).retired = false ∧ (getLintel s ↑l).retraining = false ∧
      (getLintel s ↑l).holding = false ∧ (lintelCarries (getLintel s ↑l) ↑lane).isSome = true ∧ ↑lane ∉ (getLintel s ↑l).bad ∧
      countWithin (getLintel s ↑l).errs (↑lane) s.now 100000000 < 32) ∧
    (∃ (s : State) (l : Fin 24) (lane : Fin 18), (getLintel s ↑l).retired = false ∧ (getLintel s ↑l).retraining = false ∧
      (getLintel s ↑l).holding = false ∧ (lintelCarries (getLintel s ↑l) ↑lane).isSome = true ∧ ↑lane ∉ (getLintel s ↑l).bad ∧
      32 ≤ countWithin (getLintel s ↑l).errs (↑lane) s.now 100000000) :=
  ⟨⟨sM { fails := List.replicate 30 (127, 0) }, 255, 127, false, by decide +kernel⟩,
   ⟨sM { fails := List.replicate 31 (127, 0) }, 255, 127, false, 128, .inr (by decide +kernel), by decide +kernel⟩,
   ⟨sM { steered := (List.range 8).map fun i => (i, 128 + i) }, 255, 127, true, 0, .inl rfl, by decide +kernel⟩,
   ⟨sM { steered := (List.range 8).map fun i => (i, 128 + i) }, 255, 127, true, .inl rfl, by decide +kernel⟩,
   ⟨sM { steering := some 1 }, 255, 1, 128, by decide +kernel⟩,
   ⟨sL { errs := List.replicate 30 (15, 0) }, 23, 15, by decide +kernel⟩,
   ⟨sL { errs := List.replicate 31 (15, 0) }, 23, 15, by decide +kernel⟩⟩

theorem witness_LinksAndCachesRun_b :
    (∃ (s : State) (l : Fin 24), (getLintel s ↑l).retired = false ∧ (getLintel s ↑l).retraining = true) ∧
    (∃ (s : State) (l : Fin 24) (lane : Fin 18) (d : Nat) (sp : Nat), (getLintel s ↑l).retired = false ∧ (getLintel s ↑l).holding = true ∧
      (getLintel s ↑l).half = false ∧ (getLintel s ↑l).pendRemap = [↑lane] ∧ lintelCarries (getLintel s ↑l) ↑lane = some d ∧
      lintelSpare (getLintel s ↑l) = some sp) ∧
    (∃ (s : State) (l : Fin 24) (lane : Fin 18) (d : Nat), (getLintel s ↑l).retired = false ∧ (getLintel s ↑l).holding = true ∧
      (getLintel s ↑l).half = false ∧ (getLintel s ↑l).pendRemap = [↑lane] ∧ lintelCarries (getLintel s ↑l) ↑lane = some d ∧
      lintelSpare (getLintel s ↑l) = none ∧ 8 ≤ lintelGood (getLintel s ↑l)) ∧
    (∃ (s : State) (u : Tower) (v : Fin 8) (kind : Nat) (rest : List (Nat × Nat)) (a : Nat),
      (kind = 3 ∨ (getDom s (64 + (2 * ↑u + ↑v / 4))).st = DomState.on) ∧ (getTower s ↑u).changing = (↑v, kind) :: rest ∧ bt s.ownCmd 62 = false ∧
      kind < 4 ∧ kind = 2 ∧ 824633720832 + (8 * ↑u + ↑v) * 33554432 ≤ a ∧ a < 824633720832 + (8 * ↑u + ↑v) * 33554432 + 33554432) ∧
    (∃ (s : State) (u : Tower) (v : Fin 8), qKind s ↑u ↑v = 0 ∧ countWithin (getTower s ↑u).unitErrs (↑v) s.now 1000000000 < 16) ∧
    (∃ (s : State) (u : Tower) (v : Fin 8), qKind s ↑u ↑v = 0 ∧ 16 ≤ countWithin (getTower s ↑u).unitErrs (↑v) s.now 1000000000) ∧
    (∃ (s : State) (u : Tower) (rq : RlcUser) (a : BitVec 64) (x : CtxId) (nc : Bool) (l : RlcLine) (off : Nat) (bs : List Byte),
      allocatable s (↑u) (a &&& ~~~63) rq nc = true ∧ keyLost s (a &&& ~~~63) = false ∧ rlcFind s (↑u) (a &&& ~~~63) = some l ∧
      copyServes l.own l.ctx ↑x = true ∧ off < 64 ∧ bs.length ≤ 64 - off ∧ keyHere s (a &&& ~~~63) = false) :=
  ⟨⟨sL { retraining := true }, 23, by decide +kernel⟩,
   ⟨sL { holding := true, pendRemap := [15] }, 23, 15, 15, 16, by decide +kernel⟩,
   ⟨sL { holding := true, pendRemap := [15], bad := [16, 17] }, 23, 15, 15, by decide +kernel⟩,
   ⟨sT { changing := [(7, 2)] }, 7, 7, 2, [], 824633720832 + (8 * 7 + 7) * 33554432, .inr (by decide +kernel), by decide +kernel⟩,
   ⟨sT { part := 0, unitErrs := List.replicate 14 (7, 0) }, 7, 7, by decide +kernel⟩,
   ⟨sT { part := 0, unitErrs := List.replicate 15 (7, 0) }, 7, 7, by decide +kernel⟩,
   ⟨sT { rlc := [rl0 false] }, 7, .seq 0, 0x20000000000, 0, false, rl0 false, 63, [1], by decide +kernel⟩⟩

theorem witness_LinksAndCachesRun_c :
    (∃ (s : State) (x : CtxId), (∀ f ∈ s.flush, f.1 ≠ ↑x)) ∧
    (∃ (s : State) (x : CtxId), (∃ f ∈ s.flush, f.1 = ↑x)) ∧
    (∃ (s : State) (x : CtxId), List.find? (fun f => decide (f.1 = ↑x)) s.flush = some (↑x, false)) ∧
    (∃ (s : State) (x : CtxId), List.find? (fun f => decide (f.1 = ↑x)) s.flush = some (↑x, true)) ∧
    (∃ (s : State) (u : Tower) (way : Fin 16) (key : BitVec 64) (l : RlcLine), ↑way ∉ (getTower s ↑u).waysOff ∧ rlcFind s (↑u) key = some l ∧
      l.dirty = false) ∧
    (∃ (s : State) (u : Tower) (way : Fin 16) (key : BitVec 64) (l : RlcLine) (q : Nat), ↑way ∉ (getTower s ↑u).waysOff ∧
      rlcFind s (↑u) key = some l ∧ l.dirty = true ∧ getQueue s q ≠ { } ∧ bf (getQueue s q).ctl 23 12 = l.ctx) ∧
    (∃ (s : State) (u : Tower) (way : Fin 16) (key : BitVec 64) (l : RlcLine), ↑way ∉ (getTower s ↑u).waysOff ∧ rlcFind s (↑u) key = some l ∧
      countWithin (getTower s ↑u).wayErrs (↑way) s.now 1000000000 < 16) :=
  ⟨⟨State.reset, 4095, fun f h => (by cases h)⟩,
   ⟨{ State.reset with flush := [(0, false)] }, 0, ⟨_, List.mem_cons_self .., rfl⟩⟩,
   ⟨{ State.reset with flush := [(0, false)] }, 0, by decide +kernel⟩,
   ⟨{ State.reset with flush := [(0, true)] }, 0, by decide +kernel⟩,
   ⟨sT { rlc := [rl0 false] }, 7, 15, 0x20000000000, rl0 false, by decide +kernel⟩,
   ⟨{ sT { rlc := [rl0 true] } with queues := [(1, { ctl := 1 })] }, 7, 15, 0x20000000000, rl0 true, 1, by decide +kernel⟩,
   ⟨sT { rlc := [rl0 false], wayErrs := List.replicate 14 (15, 0) }, 7, 15, 0x20000000000, rl0 false, by decide +kernel⟩⟩

theorem witness_SpanPortsRun_a :
    (∃ (s : State) (p : Port) (l : Fin 8), portLive s ↑p = true ∧ laneOf (getPort s ↑p) ↑l = LaneSt.active ∧ ↑l ∉ (getPort s ↑p).leaving ∧
      ↑l ∉ (getPort s ↑p).pendLeave) ∧
    (∃ (s : State) (p : Port), (getPort s ↑p).holding = true ∧ portLive s ↑p = true ∧
      (activeLanes (getPort s ↑p)).length < 2 * (getPort s ↑p).leaving.length) ∧
    (∃ (s : State) (p : Port) (l : Fin 8), (getPort s ↑p).holding = true ∧ portLive s ↑p = true ∧ (getPort s ↑p).leaving = [↑l] ∧
      2 ≤ (activeLanes (getPort s ↑p)).length ∧ laneOf (getPort s ↑p) ↑l = LaneSt.active ∧
      (∃ m < 8, m ≠ ↑l ∧ laneGood (laneOf (getPort s ↑p) m) = true ∧ peerGood (getPort s ↑p) m = true) ∧
      countWithin (getPort s ↑p).leaves (↑l) s.now 1000000000 < 4) ∧
    (∃ (s : State) (p : Port) (l : Fin 8), (getPort s ↑p).holding = true ∧ portLive s ↑p = true ∧ (getPort s ↑p).leaving = [↑l] ∧
      2 ≤ (activeLanes (getPort s ↑p)).length ∧ laneOf (getPort s ↑p) ↑l = LaneSt.active ∧
      (∃ m < 8, m ≠ ↑l ∧ laneGood (laneOf (getPort s ↑p) m) = true ∧ peerGood (getPort s ↑p) m = true) ∧
      4 ≤ countWithin (getPort s ↑p).leaves (↑l) s.now 1000000000) ∧
    (∃ (s : State) (p : Port) (l : Fin 8) (n : Nat), laneOf (getPort s ↑p) ↑l = LaneSt.retrain n ∧ portLive s ↑p = true ∧ n < 2) ∧
    (∃ (s : State) (p : Port) (l : Fin 8) (n : Nat), laneOf (getPort s ↑p) ↑l = LaneSt.retrain n ∧ portLive s ↑p = true ∧ 2 ≤ n) ∧
    (∃ (s : State) (p : Port), (getPort s ↑p).st = PortState.retrain ∧ (getPort s ↑p).attempts < 2) :=
  ⟨⟨sPt kUp, 3, 7, by decide +kernel⟩,
   ⟨sPt { kUp with holding := true, leaving := [0, 1, 2, 3, 4] }, 3, by decide +kernel⟩,
   ⟨sPt { kUp with holding := true, leaving := [7], leaves := List.replicate 2 (7, 0) }, 3, 7, by decide +kernel⟩,
   ⟨sPt { kUp with holding := true, leaving := [7], leaves := List.replicate 3 (7, 0) }, 3, 7, by decide +kernel⟩,
   ⟨sPt { kUp with lanes := [(7, .retrain 1)] }, 3, 7, 1, by decide +kernel⟩,
   ⟨sPt { kUp with lanes := [(7, .retrain 2)] }, 3, 7, 2, by decide +kernel⟩,
   ⟨sPt { st := .retrain, attempts := 1 }, 3, by decide +kernel⟩⟩

theorem witness_SpanPortsRun_b :
    (∃ (s : State) (p : Port), (getPort s ↑p).st = PortState.retrain ∧ 2 ≤ (getPort s ↑p).attempts ∧ (getPort s ↑p).wasHeld = true) ∧
    (∃ (s : State) (p : Port) (x : SpanPkt) (τ : Nat) (inp : Nat) (q : Nat) (up : Bool), (getPort s ↑p).st = PortState.retrain ∧
      2 ≤ (getPort s ↑p).attempts ∧ (getPort s ↑p).wasHeld = false ∧ (getPort s ↑p).retry = [] ∧ (getPort s ↑p).outq = [(x, τ, inp)] ∧
      routeOf (setPort s ↑p { (getPort s ↑p) with st := PortState.down }) x = Route.out q up ∧ q ≠ ↑p) ∧
    (∃ (s : State) (p : Port), (getPort s ↑p).st = PortState.retrain ∧
      1 ≤ (List.filter (fun m => laneGood (lanesBack (getPort s ↑p) m) && peerGood (getPort s ↑p) m) (List.range 8)).length) ∧
    (∃ (s : State) (p : Port), (getPort s ↑p).st = PortState.training ∧ (getPort s ↑p).attempts < 2) ∧
    (∃ (s : State) (p : Port), (getPort s ↑p).st = PortState.training ∧ 2 ≤ (getPort s ↑p).attempts) ∧
    (∃ (s : State) (p : Port), (getPort s ↑p).st = PortState.down ∧ (getPort s ↑p).dcause ≠ 3 ∧ s.now < (getPort s ↑p).downAt + 1000000000) ∧
    (∃ (s : State) (p : Port), ((getPort s ↑p).dcause = 3 ∨ (getPort s ↑p).downAt + 1000000000 ≤ s.now) ∧ (getPort s ↑p).st = PortState.down ∧
      bt (getPort s ↑p).cfg 31 = true ∧ portDomOn s ↑p = true ∧ moduleOn s ↑p = true) :=
  ⟨⟨sPt { st := .retrain, attempts := 2, wasHeld := true }, 3, by decide +kernel⟩,
   ⟨{ State.reset with span := { ports := [(3, { st := .retrain, attempts := 2, outq := [(spk0, 0)] })], droute := [(1, 0x8BF00000)] } }, 3, spk0, 0, 0, 5, false, by decide +kernel⟩,
   ⟨sPt { st := .retrain, lanes := (List.range 7).map fun l => (l + 1, LaneSt.retired) }, 3, by decide +kernel⟩,
   ⟨sPt { st := .training, attempts := 1 }, 3, by decide +kernel⟩,
   ⟨sPt { st := .training, attempts := 2 }, 3, by decide +kernel⟩,
   ⟨{ sPt { st := .down, dcause := 1 } with now := 999999999 }, 3, by decide +kernel⟩,
   ⟨{ sPt { st := .down, cfg := 0x80000000 } with now := 1000000000, power := { mods := [(3, { st := .on })] } }, 3, .inr (by decide +kernel), by decide +kernel⟩⟩

theorem witness_SpanPortsRun_c :
    (∃ (s : State) (p : Port) (peer : PeerInfo), (s.span.protoImpl.toNat > peer.impl.toNat + 1 ∨ peer.impl.toNat > s.span.protoImpl.toNat + 1) ∧
      (getPort s ↑p).st = PortState.training) ∧
    (∃ (s : State) (p : Port) (peer : PeerInfo), (getPort s ↑p).st = PortState.training ∧ s.span.protoImpl.toNat ≤ peer.impl.toNat + 1 ∧
      peer.impl.toNat ≤ s.span.protoImpl.toNat + 1 ∧
      1 ≤ (List.filter (fun m => laneGood (lanesBack (getPort s ↑p) m) && bt peer.good m) (List.range 8)).length) ∧
    (∃ (s : State) (p : Port), portLive s ↑p = true ∧ (getPort s ↑p).holding = true) ∧
    (∃ (s : State) (p : Port) (h : BitVec 64), portLive s ↑p = true ∧ (getPort s ↑p).holding = false ∧ bt h 31 = false ∧ bt h 30 = false ∧
      BitVec.ofNat 16 (bf h 63 48) = (getPort s ↑p).rxNext) ∧
    (∃ (s : State) (p : Port) (h : BitVec 64), (bt h 30 = true ∨ BitVec.ofNat 16 (bf h 63 48) ≠ (getPort s ↑p).rxNext) ∧ portLive s ↑p = true ∧
      (getPort s ↑p).holding = false ∧ bt h 31 = false) ∧
    (∃ (s : State) (p : Port) (h : BitVec 64), portLive s ↑p = true ∧ (getPort s ↑p).holding = false ∧ bt h 31 = false ∧ bt h 30 = false ∧
      0 < (BitVec.ofNat 16 (bf h 63 48) - (getPort s ↑p).rxNext).toInt) ∧
    (∃ (s : State) (p : Port) (h : BitVec 64), portLive s ↑p = true ∧ (getPort s ↑p).holding = false ∧ bt h 31 = true ∧
      (∀ f ∈ List.filter (fun f => decide (0 < (f.seq - BitVec.ofNat 16 (bf h 47 32)).toInt)) (getPort s ↑p).retry, f.resent < 8)) :=
  ⟨⟨sPt { st := .training }, 3, { peer0 with impl := 2 }, .inr (by decide +kernel), by decide +kernel⟩,
   ⟨sPt { st := .training }, 3, { peer0 with impl := 1 }, by decide +kernel⟩,
   ⟨sPt { kUp with holding := true }, 3, by decide +kernel⟩,
   ⟨sPt kUp, 3, 0, by decide +kernel⟩,
   ⟨sPt kUp, 3, 0x40000000, .inl (by decide +kernel), by decide +kernel⟩,
   ⟨sPt kUp, 3, 0x7FFF000000000000, by decide +kernel⟩,
   ⟨sPt { kUp with retry := [⟨1, 7, [], []⟩] }, 3, 0x80000000, by decide +kernel⟩⟩

theorem witness_SpanPortsRun_d :
    (∃ (s : State) (p : Port) (h : BitVec 64),
      (∃ f ∈ List.filter (fun f => decide (0 < (f.seq - BitVec.ofNat 16 (bf h 47 32)).toInt)) (getPort s ↑p).retry, 8 ≤ f.resent) ∧
      portLive s ↑p = true ∧ (getPort s ↑p).holding = false ∧ bt h 31 = true) ∧
    (∃ (s : State) (view : View), isDriver s view = false) ∧
    (∃ (s : State) (p : Port) (view : View), isDriver s view = true ∧ bt (getPort s ↑p).cfg 31 = true ∧ bt (getPort s ↑p).cfgShadow 31 = false) ∧
    (∃ (s : State) (p : Port) (view : View), isDriver s view = true ∧ bt (getPort s ↑p).cfg 31 = false ∧ bt (getPort s ↑p).cfgShadow 31 = true ∧
      portDomOn s ↑p = true ∧ moduleOn s ↑p = true) ∧
    (∃ (s : State) (p : Port) (view : View), isDriver s view = true ∧ bt (getPort s ↑p).cfg 31 = false ∧ bt (getPort s ↑p).cfgShadow 31 = true ∧
      portDomOn s ↑p = true ∧ moduleOn s ↑p = false) ∧
    (∃ (s : State) (p : Port) (view : View), isDriver s view = true ∧ bt (getPort s ↑p).cfg 31 = bt (getPort s ↑p).cfgShadow 31 ∧
      bf (getPort s ↑p).cfg 30 29 ≠ bf (getPort s ↑p).cfgShadow 30 29 ∧ bt (getPort s ↑p).cfg 31 = true ∧ portLive s ↑p = true) :=
  ⟨⟨sPt { kUp with retry := [⟨1, 8, [], []⟩] }, 3, 0x80000000, ⟨_, List.mem_cons_self .., by decide +kernel⟩, by decide +kernel⟩,
   ⟨State.reset, .pcie, by decide +kernel⟩,
   ⟨sPt { kUp with cfg := 0x80000000 }, 3, .mason, by decide +kernel⟩,
   ⟨{ sPt { cfgShadow := 0x80000000 } with power := { mods := [(3, { st := .on })] } }, 3, .mason, by decide +kernel⟩,
   ⟨sPt { cfgShadow := 0x80000000 }, 3, .mason, by decide +kernel⟩,
   ⟨sPt { kUp with cfg := 0x80000000, cfgShadow := 0xA0000000 }, 3, .mason, by decide +kernel⟩⟩

theorem witness_SpanRoutesRun_a :
    (∃ (s : State) (view : View) (en : Bool), isDriver s view = true ∧ en = s.span.routeEn) ∧
    (∃ (s : State) (view : View), isDriver s view = true ∧ s.span.routeEn = false ∧ bt s.span.id 31 = false) ∧
    (∃ (s : State) (view : View) (q : Nat), isDriver s view = true ∧ s.span.routeEn = false ∧ bt s.span.id 31 = true ∧ q < 18) ∧
    (∃ (s : State) (view : View) (q : Nat), isDriver s view = true ∧ s.span.routeEn = true ∧ q < 18 ∧ (getPort s q).inbox = []) ∧
    (∃ (s : State) (view : View) (v : BitVec 8), (v = s.span.protoImpl ∨ v = s.span.protoImpl - 1) ∧ isDriver s view = true) ∧
    (∃ (s : State) (view : View) (v : BitVec 8), isDriver s view = true ∧ v ≠ s.span.protoImpl ∧ v ≠ s.span.protoImpl - 1) ∧
    (∃ (s : State) (view : View), isDriver s view = true ∧ s.span.routeEn = true) ∧
    (∃ (s : State) (view : View), isDriver s view = true ∧ s.span.routeEn = false) :=
  ⟨⟨State.reset, .mason, false, by decide +kernel⟩,
   ⟨State.reset, .mason, by decide +kernel⟩,
   ⟨sSp { id := 0x80000000 }, .mason, 17, by decide +kernel⟩,
   ⟨sSp { routeEn := true }, .mason, 17, by decide +kernel⟩,
   ⟨State.reset, .mason, 255, .inr (by decide +kernel), by decide +kernel⟩,
   ⟨State.reset, .mason, 2, by decide +kernel⟩,
   ⟨sSp { routeEn := true }, .mason, by decide +kernel⟩,
   ⟨State.reset, .mason, by decide +kernel⟩⟩

theorem witness_SpanRoutesRun_b :
    (∃ (s : State) (view : View), isDriver s view = true ∧ s.span.rtbusy = true) ∧
    (∃ (s : State) (view : View), isDriver s view = true ∧ s.span.rtbusy = false ∧ s.plumb.count < s.span.rat) ∧
    (∃ (s : State) (view : View), isDriver s view = true ∧ s.span.rtbusy = false ∧ s.span.rat ≤ s.plumb.count) ∧
    (∃ (s : State) (view : View), isDriver s view = false) ∧
    (∃ (s : State) (view : View), isDriver s view = false) ∧
    (∃ (s : State) (view : View), isDriver s view = false) ∧
    (∃ (s : State), s.span.pend = true ∧ s.plumb.count < s.span.rat) ∧
    (∃ (s : State), s.span.pend = true ∧ s.span.rat ≤ s.plumb.count ∧ s.span.rtbusy = true) :=
  ⟨⟨sSp { rtbusy := true }, .mason, by decide +kernel⟩,
   ⟨sSp { rat := 1 }, .mason, by decide +kernel⟩,
   ⟨State.reset, .mason, by decide +kernel⟩,
   ⟨State.reset, .pcie, by decide +kernel⟩,
   ⟨State.reset, .pcie, by decide +kernel⟩,
   ⟨State.reset, .pcie, by decide +kernel⟩,
   ⟨sSp { pend := true, rat := 1 }, by decide +kernel⟩,
   ⟨sSp { pend := true, rtbusy := true }, by decide +kernel⟩⟩

theorem witness_SpanRoutesRun_c :
    (∃ (s : State) (τ : Nat), s.span.drainFrom = some τ ∧ s.now < τ + 25000000) ∧
    (∃ (s : State) (τ : Nat), s.span.drainFrom = some τ ∧ τ + 25000000 ≤ s.now) ∧
    (∃ (s : State) (p : Port) (e : SpanPkt × Nat),
      (s.span.routeEn = false ∨ pktIsReq e.1 = false ∧ pktIsResp e.1 = false ∨ routeOf s e.1 = Route.drop ∨ routeOf s e.1 = Route.none ∨ routeOf s e.1 = Route.deliver ∧ s.key.hubIsolated = true) ∧
      List.find? (fun x => decide (x.1 = e.1)) (getPort s ↑p).inbox = some e) ∧
    (∃ (s : State) (p : Port) (e : SpanPkt × Nat), (pktIsReq e.1 = true ∨ pktIsResp e.1 = true) ∧
      List.find? (fun x => decide (x.1 = e.1)) (getPort s ↑p).inbox = some e ∧ s.span.routeEn = true ∧ routeOf s e.1 = Route.deliver ∧
      s.key.hubIsolated = false) ∧
    (∃ (s : State) (p : Port) (e : SpanPkt × Nat) (q : Nat) (up : Bool), (pktIsReq e.1 = true ∨ pktIsResp e.1 = true) ∧
      List.find? (fun x => decide (x.1 = e.1)) (getPort s ↑p).inbox = some e ∧ s.span.routeEn = true ∧ routeOf s e.1 = Route.out q up) ∧
    (∃ (s : State) (e : SpanPkt × Nat), (s.span.routeEn = false ∨ bt s.span.id 31 = false ∨ s.key.hubIsolated = true ∨ behind s e.1 = true) ∧
      List.find? (fun x => decide (x.1 = e.1)) s.span.sent = some e) ∧
    (∃ (s : State) (e : SpanPkt × Nat), List.find? (fun x => decide (x.1 = e.1)) s.span.sent = some e ∧ s.span.routeEn = true ∧
      bt s.span.id 31 = true ∧ s.key.hubIsolated = false ∧ behind s e.1 = false ∧ (pktDest e.1).1 = ownDomain s) ∧
    (∃ (s : State) (e : SpanPkt × Nat), List.find? (fun x => decide (x.1 = e.1)) s.span.sent = some e ∧ s.span.routeEn = true ∧
      bt s.span.id 31 = true ∧ s.key.hubIsolated = false ∧ behind s e.1 = false ∧
      routeOf s { e.1 with path := choosePath s e.1, ep := s.span.actep } = Route.deliver) :=
  ⟨⟨{ sSp { drainFrom := some 0 } with now := 24999999 }, 0, by decide +kernel⟩,
   ⟨{ sSp { drainFrom := some 0 } with now := 25000000 }, 0, by decide +kernel⟩,
   ⟨sSp { rIn spk0 with routeEn := false }, 3, (spk0, 0), .inl rfl, by decide +kernel⟩,
   ⟨sSp (rIn (spk1 1 [])), 3, (spk1 1 [], 0), .inl (by decide +kernel), by decide +kernel⟩,
   ⟨sSp (rIn spk0), 3, (spk0, 0), 5, false, .inl (by decide +kernel), by decide +kernel⟩,
   ⟨sSp { rOut spk0 with routeEn := false }, (spk0, 0), .inl rfl, by decide +kernel⟩,
   ⟨sSp (rOut spk0), (spk0, 0), by decide +kernel⟩,
   ⟨sSp (rOut (spk1 1 [])), (spk1 1 [], 0), by decide +kernel⟩⟩

theorem witness_SpanRoutesRun_d :
    (∃ (s : State) (e : SpanPkt × Nat), List.find? (fun x => decide (x.1 = e.1)) s.span.sent = some e ∧ s.span.routeEn = true ∧
      bt s.span.id 31 = true ∧ s.key.hubIsolated = false ∧ behind s e.1 = false ∧
      routeOf s { e.1 with path := choosePath s e.1, ep := s.span.actep } = Route.none) ∧
    (∃ (s : State) (e : SpanPkt × Nat) (q : Nat) (up : Bool), List.find? (fun x => decide (x.1 = e.1)) s.span.sent = some e ∧ s.span.routeEn = true ∧
      bt s.span.id 31 = true ∧ s.key.hubIsolated = false ∧ behind s e.1 = false ∧
      routeOf s { e.1 with path := choosePath s e.1, ep := s.span.actep } = Route.out q up ∧
      routeHeld s { e.1 with path := choosePath s e.1, ep := s.span.actep } q = true) ∧
    (∃ (s : State) (e : SpanPkt × Nat) (q : Nat) (up : Bool), List.find? (fun x => decide (x.1 = e.1)) s.span.sent = some e ∧ s.span.routeEn = true ∧
      bt s.span.id 31 = true ∧ s.key.hubIsolated = false ∧ behind s e.1 = false ∧
      routeOf s { e.1 with path := choosePath s e.1, ep := s.span.actep } = Route.out q up ∧
      routeHeld s { e.1 with path := choosePath s e.1, ep := s.span.actep } q = false) ∧
    (∃ (s : State) (p : Port) (i : Nat) (x : SpanPkt) (τ : Nat) (inp : Nat), (getPort s ↑p).outq[i]? = some (x, τ, inp) ∧ s.now ≤ τ + 5000000) ∧
    (∃ (s : State) (p : Port) (i : Nat) (x : SpanPkt) (τ : Nat) (inp : Nat), (getPort s ↑p).outq[i]? = some (x, τ, inp) ∧ τ + 5000000 < s.now) ∧
    (∃ (s : State) (p : Port) (i : Nat) (x : SpanPkt) (τ : Nat), (getPort s ↑p).inbox[i]? = some (x, τ) ∧ s.now ≤ τ + 5000000) ∧
    (∃ (s : State) (p : Port) (i : Nat) (x : SpanPkt) (τ : Nat), (getPort s ↑p).inbox[i]? = some (x, τ) ∧ τ + 5000000 < s.now) ∧
    (∃ (s : State) (i : Nat) (x : SpanPkt) (τ : Nat), s.span.sent[i]? = some (x, τ) ∧ s.now ≤ τ + 5000000) :=
  ⟨⟨sSp { rOut spk0 with droute := [] }, (spk0, 0), by decide +kernel⟩,
   ⟨sSp { rOut spk0 with reqs := [req0, { req0 with tag := 1, port := some 6 }] }, (spk0, 0), 5, false, by decide +kernel⟩,
   ⟨sSp { rOut spk0 with reqs := [req0, { req0 with tag := 1, port := some 5 }] }, (spk0, 0), 5, false, by decide +kernel⟩,
   ⟨{ sPt { outq := [(spk0, 0, 17)] } with now := 5000000 }, 3, 0, spk0, 0, 17, by decide +kernel⟩,
   ⟨{ sPt { outq := [(spk0, 0, 18)] } with now := 5000001 }, 3, 0, spk0, 0, 18, by decide +kernel⟩,
   ⟨{ sPt { inbox := [(spk0, 0)] } with now := 5000000 }, 3, 0, spk0, 0, by decide +kernel⟩,
   ⟨{ sPt { inbox := [(spk0, 0)] } with now := 5000001 }, 3, 0, spk0, 0, by decide +kernel⟩,
   ⟨{ sSp (rOut spk0) with now := 5000000 }, 0, spk0, 0, by decide +kernel⟩⟩

theorem witness_SpanRoutesRun_e :
    (∃ (s : State) (i : Nat) (x : SpanPkt) (τ : Nat), s.span.sent[i]? = some (x, τ) ∧ τ + 5000000 < s.now) ∧
    (∃ (s : State) (k : SpanPkt), (servedAfter s k = true ∨ chanHeld s (bf k.addr 40 0) = true) ∧ k ∈ s.span.delivered) ∧
    (∃ (s : State) (k : SpanPkt) (c : Code) (d : List Byte) (z : State),
      hereRead { s with span := have __src := s.span; { __src with delivered := s.span.delivered.erase k } } hubDie false k.ctx.toNat (bf k.addr 40 0) (k.lenM1.toNat + 1) false = (c, d, z) ∧
      k ∈ s.span.delivered ∧ servedAfter s k = false ∧ chanHeld s (bf k.addr 40 0) = false ∧ k.op = 1 ∧
      bf k.addr 40 0 % 64 + (k.lenM1.toNat + 1) ≤ 64 ∧
      hereCheck { s with span := have __src := s.span; { __src with delivered := s.span.delivered.erase k } } hubDie false k.ctx.toNat (bf k.addr 40 0) = St.ok) ∧
    (∃ (s : State) (k : SpanPkt) (c : Code) (d : List Byte) (z : State),
      hereRead { s with span := have __src := s.span; { __src with delivered := s.span.delivered.erase k } } hubDie false k.ctx.toNat (bf k.addr 40 0) (k.lenM1.toNat + 1) false = (c, d, z) ∧
      k ∈ s.span.delivered ∧ servedAfter s k = false ∧ chanHeld s (bf k.addr 40 0) = false ∧ k.op = 1 ∧
      bf k.addr 40 0 % 64 + (k.lenM1.toNat + 1) ≤ 64 ∧
      hereCheck { s with span := have __src := s.span; { __src with delivered := s.span.delivered.erase k } } hubDie false k.ctx.toNat (bf k.addr 40 0) ≠ St.ok) ∧
    (∃ (s : State) (k : SpanPkt) (c : Code) (z : State),
      hereWrite { s with span := have __src := s.span; { __src with delivered := s.span.delivered.erase k } } hubDie false k.ctx.toNat (bf k.addr 40 0) k.data false = (c, z) ∧
      k ∈ s.span.delivered ∧ servedAfter s k = false ∧ chanHeld s (bf k.addr 40 0) = false ∧ k.op = 2 ∧ k.data ≠ [] ∧
      bf k.addr 40 0 % 64 + k.data.length ≤ 64 ∧
      hereCheck { s with span := have __src := s.span; { __src with delivered := s.span.delivered.erase k } } hubDie false k.ctx.toNat (bf k.addr 40 0) = St.ok) ∧
    (∃ (s : State) (k : SpanPkt) (c : Code) (z : State),
      hereWrite { s with span := have __src := s.span; { __src with delivered := s.span.delivered.erase k } } hubDie false k.ctx.toNat (bf k.addr 40 0) k.data false = (c, z) ∧
      k ∈ s.span.delivered ∧ servedAfter s k = false ∧ chanHeld s (bf k.addr 40 0) = false ∧ k.op = 2 ∧ k.data ≠ [] ∧
      bf k.addr 40 0 % 64 + k.data.length ≤ 64 ∧
      hereCheck { s with span := have __src := s.span; { __src with delivered := s.span.delivered.erase k } } hubDie false k.ctx.toNat (bf k.addr 40 0) ≠ St.ok) ∧
    (∃ (s : State) (k : SpanPkt) (c : Code) (old : Nat) (z : State),
      (have n := if k.asz = true then 8 else 4; hereAtomic { s with span := have __src := s.span; { __src with delivered := s.span.delivered.erase k } } hubDie k.ctx.toNat (bf k.addr 40 0) n k.func.toNat (Machine.fieldLe k.data 0 n) (Machine.fieldLe k.data 8 n) false = (c, old, z)) ∧
      k ∈ s.span.delivered ∧ servedAfter s k = false ∧ chanHeld s (bf k.addr 40 0) = false ∧ k.op = 3) ∧
    (∃ (s : State) (k : SpanPkt), (∀ r ∈ s.span.reqs, r.tag ≠ k.tag) ∧ k ∈ s.span.delivered ∧ pktIsResp k = true) :=
  ⟨⟨{ sSp (rOut spk0) with now := 5000001 }, 0, spk0, 0, by decide +kernel⟩,
   ⟨sSp { delivered := [spk1 2 [], spk1 1 []] }, spk1 1 [], .inl (by decide +kernel), by decide +kernel⟩,
   ⟨{ sHub with span := { delivered := [spk1 1 []] } }, spk1 1 [], _, _, _, tripEq, by decide +kernel⟩,
   ⟨{ sHub with span := { delivered := [spk1 1 []] }, owner := [] }, spk1 1 [], _, _, _, tripEq, by decide +kernel⟩,
   ⟨{ sHub with span := { delivered := [spk1 2 [1]] } }, spk1 2 [1], _, _, rfl, by decide +kernel⟩,
   ⟨{ sHub with span := { delivered := [spk1 2 [1]] }, owner := [] }, spk1 2 [1], _, _, rfl, by decide +kernel⟩,
   ⟨{ sHub with span := { delivered := [spk1 3 []] } }, spk1 3 [], _, _, _, tripEq, by decide +kernel⟩,
   ⟨sSp { delivered := [spk1 9 []] }, spk1 9 [], (fun r h => by cases h), by decide +kernel⟩⟩

theorem witness_SpanRoutesRun_f :
    (∃ (s : State) (k : SpanPkt) (r : RemReq), k ∈ s.span.delivered ∧ pktIsResp k = true ∧
      List.find? (fun r => decide (r.tag = k.tag)) s.span.reqs = some r ∧ statusKnown k.status = false) ∧
    (∃ (s : State) (k : SpanPkt) (r : RemReq), k ∈ s.span.delivered ∧ pktIsResp k = true ∧
      List.find? (fun r => decide (r.tag = k.tag)) s.span.reqs = some r ∧ statusKnown k.status = true) ∧
    (∃ (s : State) (tag : BitVec 18) (r : RemReq), List.find? (fun r => decide (r.tag = tag)) s.span.reqs = some r ∧
      (s.now < r.issued + if r.hall = true then 20000000 else 2000000)) ∧
    (∃ (s : State) (tag : BitVec 18) (r : RemReq), List.find? (fun r => decide (r.tag = tag)) s.span.reqs = some r ∧
      ((r.issued + if r.hall = true then 20000000 else 2000000) ≤ s.now)) ∧
    (∃ (s : State) (q : Nat), s.plumb.running = true ∧ plumbRoot s = true ∧ q < 18 ∧ portLive s q = true ∧ s.plumb.locked = false) ∧
    (∃ (s : State), s.plumb.running = true ∧ plumbRoot s = true ∧ s.plumb.locked = true) ∧
    (∃ (s : State) (τ : Nat), (s.plumb.firstHeld = some τ ∨ s.plumb.firstHeld = none ∧ s.plumb.step8 = some τ) ∧ s.plumb.running = true ∧
      plumbRoot s = true ∧ s.plumb.locked = false ∧ s.now < τ + 100000000) ∧
    (∃ (s : State) (τ : Nat), (s.plumb.firstHeld = some τ ∨ s.plumb.firstHeld = none ∧ s.plumb.step8 = some τ) ∧ s.plumb.running = true ∧
      plumbRoot s = true ∧ s.plumb.locked = false ∧ τ + 100000000 ≤ s.now) :=
  ⟨⟨sSp { reqs := [req0], delivered := [{ spk1 0x9 [] with status := 0x18 }] }, { spk1 0x9 [] with status := 0x18 }, req0, by decide +kernel⟩,
   ⟨sSp { delivered := [spk1 8 []], reqs := [req0] }, spk1 8 [], req0, by decide +kernel⟩,
   ⟨{ sSp { reqs := [req0] } with now := 1999999 }, 0, req0, by decide +kernel⟩,
   ⟨{ sSp { reqs := [{ req0 with hall := true }] } with now := 20000000 }, 0, { req0 with hall := true }, by decide +kernel⟩,
   ⟨{ sPt kUp with plumb := { running := true, cfg := 0x80000000 } }, 3, by decide +kernel⟩,
   ⟨{ State.reset with plumb := { running := true, cfg := 0x80000000, locked := true } }, by decide +kernel⟩,
   ⟨{ State.reset with now := 99999999, plumb := { running := true, cfg := 0x80000000, step8 := some 0 } }, 0, .inr (by decide +kernel), by decide +kernel⟩,
   ⟨{ State.reset with now := 100000000, plumb := { running := true, cfg := 0x80000000, firstHeld := some 0 } }, 0, .inl rfl, by decide +kernel⟩⟩

theorem witness_SpanRoutesRun_g :
    (∃ (s : State) (x : Nat), s.plumb.running = true ∧ plumbRoot s = false ∧ s.plumb.stuck = false ∧ plumbPort s = some x ∧
      (getPort s x).stampCnt ≠ 0 ∧ s.plumb.everLocked = false) ∧
    (∃ (s : State) (n : BitVec 64) (x : Nat), s.plumb.running = true ∧ plumbRoot s = false ∧ s.plumb.stuck = false ∧ plumbPort s = some x ∧
      (getPort s x).stampCnt ≠ 0 ∧ s.plumb.everLocked = true ∧ 1000 < (n - s.plumb.count).toInt) ∧
    (∃ (s : State) (n : BitVec 64) (x : Nat), s.plumb.running = true ∧ plumbRoot s = false ∧ s.plumb.stuck = false ∧ plumbPort s = some x ∧
      (getPort s x).stampCnt ≠ 0 ∧ s.plumb.everLocked = true ∧ (n - s.plumb.count).toInt < -1000) ∧
    (∃ (s : State) (n : BitVec 64) (x : Nat), s.plumb.running = true ∧ plumbRoot s = false ∧ s.plumb.stuck = false ∧ plumbPort s = some x ∧
      (getPort s x).stampCnt ≠ 0 ∧ s.plumb.everLocked = true ∧ (n - s.plumb.count).toInt ≤ 1000 ∧ -1000 ≤ (n - s.plumb.count).toInt) :=
  ⟨⟨{ sPt { kUp with stampCnt := 1 } with plumb := { running := true, cfg := 0x0FE00000 } }, 3, by decide +kernel⟩,
   ⟨{ sPt { kUp with stampCnt := 1 } with plumb := { running := true, cfg := 0x0FE00000, everLocked := true } }, 1001, 3, by decide +kernel⟩,
   ⟨{ sPt { kUp with stampCnt := 1 } with plumb := { running := true, cfg := 0x0FE00000, everLocked := true, count := 1001 } }, 0, 3, by decide +kernel⟩,
   ⟨{ sPt { kUp with stampCnt := 1 } with plumb := { running := true, cfg := 0x0FE00000, everLocked := true } }, 1000, 3, by decide +kernel⟩⟩

theorem witness_PagesAndPortsRun_a :
    (∃ (s : State), s.rst.stage < 1) ∧
    (∃ (s : State) (m : Mb) (v : BitVec 64), (bt (getMbox s ↑m).rsp 2 = true ∨ bt (getMbox s ↑m).rsp 1 = true) ∧ 1 ≤ s.rst.stage ∧ bt v 0 = true) ∧
    (∃ (s : State) (m : Mb) (v : BitVec 64), 1 ≤ s.rst.stage ∧ bt v 0 = true ∧ bt (getMbox s ↑m).rsp 2 = false ∧ bt (getMbox s ↑m).rsp 1 = false) ∧
    (∃ (s : State), 1 ≤ s.rst.stage) ∧
    (∃ (s : State) (τ : Nat), s.key.slotAt = some τ ∧ (s.now ≤ τ ∨ (s.now - τ) % 10000 ≠ 0)) ∧
    (∃ (s : State), 1 ≤ s.rst.stage ∧ s.key.halted = false ∧ s.key.handover = false ∧ s.key.batch = [] ∧
      (∀ (τ : Nat), s.key.slotAt = some τ → τ < s.now ∧ (s.now - τ) % 10000 = 0) ∧ takenNext s = []) ∧
    (∃ (s : State), 1 ≤ s.rst.stage ∧ s.key.halted = false ∧ s.key.handover = false ∧ s.key.batch = [] ∧
      (∀ (τ : Nat), s.key.slotAt = some τ → τ < s.now ∧ (s.now - τ) % 10000 = 0) ∧ takenNext s ≠ [] ∧
      (∀ m ∈ takenNext s, orderDecodes (getMbox s m).cmd = true)) ∧
    (∃ (s : State) (m : Nat), 1 ≤ s.rst.stage ∧ s.key.halted = false ∧ s.key.handover = false ∧ s.key.batch = [] ∧
      (∀ (τ : Nat), s.key.slotAt = some τ → τ < s.now ∧ (s.now - τ) % 10000 = 0) ∧ takenNext s ≠ [] ∧
      (∀ m ∈ takenNext s, orderDecodes (getMbox s m).cmd = true) ∧ m ∉ takenNext s) :=
  ⟨⟨State.reset, by decide +kernel⟩,
   ⟨{ sMb 0 with key := { mb := [(0, { rsp := 2 })] } }, 0, 1, .inr (by decide +kernel), by decide +kernel⟩,
   ⟨sR 1, 3, 1, by decide +kernel⟩,
   ⟨sR 1, by decide +kernel⟩,
   ⟨{ State.reset with key := { slotAt := some 0 } }, 0, rfl, .inl (Nat.le_refl _)⟩,
   ⟨sR 1, by decide +kernel⟩,
   ⟨sMb 0x0101000000000000, by decide +kernel⟩,
   ⟨sMb 0x0101000000000000, 1, by decide +kernel⟩⟩

theorem witness_PagesAndPortsRun_b :
    (∃ (s : State) (m : Nat), 1 ≤ s.rst.stage ∧ s.key.halted = false ∧ s.key.handover = false ∧ s.key.batch = [] ∧
      (∀ (τ : Nat), s.key.slotAt = some τ → τ < s.now ∧ (s.now - τ) % 10000 = 0) ∧ takenNext s = [m] ∧ orderDecodes (getMbox s m).cmd = false ∧
      s.key.batchDone = []) ∧
    (∃ (s : State) (k : SpanPkt),
      (1 < Machine.fieldLe k.data 2 1 ∨ Machine.fieldLe k.data 3 1 = 0 ∨ 31 < Machine.fieldLe k.data 3 1 ∨ 4096 < Machine.fieldLe k.data 0 2 + 8 * Machine.fieldLe k.data 3 1) ∧
      firstMgmt s = some k ∧ 1 ≤ s.rst.stage ∧ s.key.halted = false) ∧
    (∃ (s : State) (k : SpanPkt) (i : Nat), firstMgmt s = some k ∧ 1 ≤ s.rst.stage ∧ s.key.halted = false ∧ 1 ≤ Machine.fieldLe k.data 3 1 ∧
      Machine.fieldLe k.data 3 1 ≤ 31 ∧ Machine.fieldLe k.data 0 2 + 8 * Machine.fieldLe k.data 3 1 ≤ 4096 ∧ Machine.fieldLe k.data 0 2 % 8 = 0 ∧
      Machine.fieldLe k.data 2 1 = 0) ∧
    (∃ (s : State) (k : SpanPkt), firstMgmt s = some k ∧ 1 ≤ s.rst.stage ∧ s.key.halted = false ∧ 1 ≤ Machine.fieldLe k.data 3 1 ∧
      Machine.fieldLe k.data 3 1 ≤ 31 ∧ Machine.fieldLe k.data 0 2 + 8 * Machine.fieldLe k.data 3 1 ≤ 4096 ∧ Machine.fieldLe k.data 0 2 % 8 = 0 ∧
      Machine.fieldLe k.data 2 1 = 1 ∧ Machine.fieldLe k.data 3 1 = 1 ∧ Machine.fieldLe k.data 0 2 = 0) ∧
    (∃ (s : State) (k : SpanPkt), firstMgmt s = some k ∧ 1 ≤ s.rst.stage ∧ s.key.halted = false ∧ 1 ≤ Machine.fieldLe k.data 3 1 ∧
      Machine.fieldLe k.data 3 1 ≤ 31 ∧ Machine.fieldLe k.data 0 2 + 8 * Machine.fieldLe k.data 3 1 ≤ 4096 ∧ Machine.fieldLe k.data 0 2 % 8 = 0 ∧
      Machine.fieldLe k.data 2 1 = 1 ∧ 64 ≤ Machine.fieldLe k.data 0 2 ∧ Machine.fieldLe k.data 0 2 + 8 * Machine.fieldLe k.data 3 1 ≤ 1024 ∧
      k.data.length = 8 + 8 * Machine.fieldLe k.data 3 1) ∧
    (∃ (s : State), s.store.pend = []) ∧
    (∃ (s : State) (ok : Bool) (c : UserCal), (s.store.cal.a = none ∨ s.store.cal.b = none) ∧
      s.store.pend = [{ op := StoreOp.cal c, order := none }] ∧ ok = true) ∧
    (∃ (s : State) (ok : Bool) (c : UserCal), (s.store.cal.a = none ∨ s.store.cal.b = none) ∧
      s.store.pend = [{ op := StoreOp.cal c, order := none }] ∧ ok = false) :=
  ⟨⟨{ sMb 0 with rst := { stage := 1, done := true } }, 0, by decide +kernel⟩,
   ⟨sMg [0, 0, 0, 32], mg0 [0, 0, 0, 32], .inr (.inr (.inl (by decide +kernel))), by decide +kernel⟩,
   ⟨sMg [8, 15, 0, 31], mg0 [8, 15, 0, 31], 0, by decide +kernel⟩,
   ⟨sMg [0, 0, 1, 1], mg0 [0, 0, 1, 1], by decide +kernel⟩,
   ⟨sMg [64, 0, 1, 1, 0, 0, 0, 0, 1, 2, 3, 4, 5, 6, 7, 8], mg0 [64, 0, 1, 1, 0, 0, 0, 0, 1, 2, 3, 4, 5, 6, 7, 8], by decide +kernel⟩,
   ⟨State.reset, by decide +kernel⟩,
   ⟨{ State.reset with store := { pend := [⟨.cal {}, none⟩] } }, true, {}, .inl rfl, by decide +kernel⟩,
   ⟨{ State.reset with store := { pend := [⟨.cal {}, none⟩] } }, false, {}, .inl rfl, by decide +kernel⟩⟩

theorem witness_PagesAndPortsRun_c :
    (∃ (s : State) (u : UnitRecs) (o : Order), s.store.pend = [{ op := StoreOp.units u, order := some o.mb }] ∧ s.key.batch = [o] ∧
      s.key.batchDone = [] ∧ o.busy = true ∧ o.wrote = [] ∧ o.group ≠ 7 ∧ (o.group = 1 → o.verb ≠ 3) ∧ o.code ≠ St.unsupported ∧ o.started = false ∧
      handoverDue s = false) ∧
    (∃ (s : State) (id : Nat), (∀ r ∈ s.host.outs, r.id ≠ id)) ∧
    (∃ (s : State) (id : Nat) (oc : OutOutcome) (r : OutReq), (s.host.cfg.ctoOff = true ∨ s.host.cfg.cto = 0 ∧ s.now < r.issued + 50000000) ∧
      List.find? (fun r => decide (r.id = id)) s.host.outs = some r ∧ oc = OutOutcome.timeout) ∧
    (∃ (s : State) (id : Nat) (oc : OutOutcome) (r : OutReq) (c : Core) (i : Nat) (a : Access),
      List.find? (fun r => decide (r.id = id)) s.host.outs = some r ∧ (oc = OutOutcome.timeout → ctoOver s r = true) ∧ r.user = RemUser.seq c i ∧
      List.find? (fun a => decide (a.id = i)) (getCore s ↑c).accs = some a) ∧
    (∃ (s : State) (id : Nat) (oc : OutOutcome) (r : OutReq) (a : Nat), List.find? (fun r => decide (r.id = id)) s.host.outs = some r ∧
      (oc = OutOutcome.timeout → ctoOver s r = true) ∧ r.user = RemUser.mason false a) ∧
    (∃ (s : State) (id : Nat) (oc : OutOutcome) (r : OutReq) (d : List Byte), List.find? (fun r => decide (r.id = id)) s.host.outs = some r ∧
      (oc = OutOutcome.timeout → ctoOver s r = true) ∧ quietUser r.user true = true ∧ oc = OutOutcome.success d) ∧
    (∃ (s : State), s.host.outs = []) ∧
    (∃ (s : State) (r : OutReq) (c : Core) (i : Nat) (a : Access), s.host.outs = [r] ∧ r.user = RemUser.seq c i ∧
      List.find? (fun a => decide (a.id = i)) (getCore s ↑c).accs = some a) :=
  ⟨⟨{ State.reset with store := { pend := [⟨.units {}, some 0⟩] }, key := { batch := [ord0] } }, {}, ord0, by decide +kernel⟩,
   ⟨State.reset, 1, (fun r h => by cases h)⟩,
   ⟨sO .answered, 0, .timeout, out0 .answered, .inr (by decide +kernel), by decide +kernel⟩,
   ⟨{ sO (.seq 0 0) with now := 50000000 }, 0, .timeout, out0 (.seq 0 0), 0, 0, accL, by decide +kernel⟩,
   ⟨sO (.mason false 7), 0, .success [], out0 (.mason false 7), 7, by decide +kernel⟩,
   ⟨sO .answered, 0, .success [], out0 .answered, [], by decide +kernel⟩,
   ⟨State.reset, by decide +kernel⟩,
   ⟨sO (.seq 0 0), out0 (.seq 0 0), 0, 0, accL, by decide +kernel⟩⟩

theorem witness_PagesAndPortsRun_d :
    (∃ (s : State), 3 ≤ s.rst.stage) ∧
    (∃ (s : State), s.rst.stage < 3) ∧
    (∃ (s : State), ¬(s.host.link = true ∧ s.host.cfgReady = true)) ∧
    (∃ (s : State) (i : Nat), (∀ p ∈ s.host.pba, p.2 = false) ∧ s.host.link = true ∧ s.host.cfgReady = true ∧ i < 32) ∧
    (∃ (v : Fin 2048) (i : Nat), ↑v < 1024 ∧ i ≠ 96) ∧
    (∃ (v : Fin 2048) (i : Nat), ↑v < 1024 ∧ i ≠ ↑v) ∧
    (∃ (s : State) (v : Fin 2048), ↑v < 1024 ∧ tget false s.host.pba ↑v = false) ∧
    (∃ (s : State) (v : Fin 2048), ↑v < 1024 ∧ tget false s.host.pba ↑v = true ∧ s.host.cfg.msixEn = true ∧ s.host.link = true ∧
      s.host.cfg.bme = true ∧ s.host.cfg.d3 = false) :=
  ⟨⟨sR 3, by decide +kernel⟩,
   ⟨sR 2, by decide +kernel⟩,
   ⟨State.reset, (by decide +kernel)⟩,
   ⟨{ State.reset with host := { link := true, cfgReady := true } }, 0, (fun p h => by cases h), by decide +kernel⟩,
   ⟨1023, 127, by decide +kernel⟩,
   ⟨1023, 0, by decide +kernel⟩,
   ⟨State.reset, 1023, by decide +kernel⟩,
   ⟨{ State.reset with host := { pba := [(1023, true)], cfg := { msixEn := true, bme := true }, link := true } }, 1023, by decide +kernel⟩⟩

theorem witness_PagesAndPortsRun_e :
    (∃ (s : State) (c : Fin 144) (k : MasonKind), (s.rst.stage < 9 ∨ s.key.masonGone.contains (↑c / 72) = true ∨ clusterOn s (↑c) k = false)) ∧
    (∃ (s : State) (c : Fin 144) (addr : Nat) (k : MasonKind),
      (2199090364416 ≤ addr ∧ addr < 3298534883328 ∨ 3298551660544 ≤ addr ∧ addr < 4398046511104 ∨ 8796093022208 ≤ addr) ∧ 9 ≤ s.rst.stage ∧
      s.key.masonGone.contains (↑c / 72) = false ∧ clusterOn s (↑c) k = true) ∧
    (∃ (s : State) (c : Fin 144) (addr : Nat) (size : Nat) (k : MasonKind), (k = MasonKind.load ∨ k = MasonKind.ifetch) ∧ 9 ≤ s.rst.stage ∧
      s.key.masonGone.contains (↑c / 72) = false ∧ clusterOn s (↑c) k = true ∧ addr < 2199023255552 ∧
      routeHolds s (9 + ↑c / 72) (homeTower s addr) = false ∧ chanHeld s addr = false ∧ addr % 64 + size ≤ 64 ∧ 1 ≤ size ∧
      masonCode s (9 + ↑c / 72) addr ≠ St.ok) ∧
    (∃ (s : State) (c : Fin 144) (addr : Nat) (size : Nat) (k : MasonKind) (code : Code) (bs : List Byte) (z : State),
      (k = MasonKind.load ∨ k = MasonKind.ifetch) ∧ homeRead s true 0 addr size false = (code, bs, z) ∧ 9 ≤ s.rst.stage ∧
      s.key.masonGone.contains (↑c / 72) = false ∧ clusterOn s (↑c) k = true ∧ addr < 2199023255552 ∧
      routeHolds s (9 + ↑c / 72) (homeTower s addr) = false ∧ chanHeld s addr = false ∧ addr % 64 + size ≤ 64 ∧ 1 ≤ size ∧
      masonCode s (9 + ↑c / 72) addr = St.ok) ∧
    (∃ (s : State) (c : Fin 144) (addr : Nat) (wr : List Byte) (k : MasonKind) (code : Code) (z : State),
      (k = MasonKind.store ∨ k = MasonKind.writeback) ∧ hereWrite s (9 + ↑c / 72) true 0 addr wr false = (code, z) ∧ 9 ≤ s.rst.stage ∧
      s.key.masonGone.contains (↑c / 72) = false ∧ clusterOn s (↑c) k = true ∧ addr < 2199023255552 ∧
      routeHolds s (9 + ↑c / 72) (homeTower s addr) = false ∧ chanHeld s addr = false ∧ addr % 64 + wr.length ≤ 64 ∧ wr ≠ [] ∧ code = St.ok) ∧
    (∃ (s : State) (c : Fin 144) (addr : Nat) (wr : List Byte) (k : MasonKind) (code : Code) (z : State),
      (k = MasonKind.store ∨ k = MasonKind.writeback) ∧ hereWrite s (9 + ↑c / 72) true 0 addr wr false = (code, z) ∧ 9 ≤ s.rst.stage ∧
      s.key.masonGone.contains (↑c / 72) = false ∧ clusterOn s (↑c) k = true ∧ addr < 2199023255552 ∧
      routeHolds s (9 + ↑c / 72) (homeTower s addr) = false ∧ chanHeld s addr = false ∧ addr % 64 + wr.length ≤ 64 ∧ wr ≠ [] ∧ code ≠ St.ok) ∧
    (∃ (s : State) (c : Fin 144) (addr : Nat) (k : MasonKind), (k = MasonKind.load ∨ k = MasonKind.ifetch) ∧ 9 ≤ s.rst.stage ∧
      s.key.masonGone.contains (↑c / 72) = false ∧ clusterOn s (↑c) k = true ∧ onHub addr = true ∧ routeHolds s (9 + ↑c / 72) hubDie = false ∧
      routed s (9 + ↑c / 72) hubDie = false) ∧
    (∃ (s : State) (c : Fin 144) (addr : Nat) (k : MasonKind), (k = MasonKind.store ∨ k = MasonKind.writeback) ∧ 9 ≤ s.rst.stage ∧
      s.key.masonGone.contains (↑c / 72) = false ∧ clusterOn s (↑c) k = true ∧ onHub addr = true ∧ routeHolds s (9 + ↑c / 72) hubDie = false ∧
      routed s (9 + ↑c / 72) hubDie = false) :=
  ⟨⟨sR 8, 0, .load, .inl (by decide +kernel)⟩,
   ⟨sR 9, 0, 0x80000000000, .load, .inr (.inr (by decide +kernel)), by decide +kernel⟩,
   ⟨sR 9, 0, 0x1FFFFFFFFFF, 1, .load, .inl rfl, by decide +kernel⟩,
   ⟨sR 9, 143, 63, 1, .load, _, _, _, .inl rfl, tripEq, by decide +kernel⟩,
   ⟨sR 9, 143, 63, [1], .store, _, _, .inl rfl, pairRfl, by decide +kernel⟩,
   ⟨sR 9, 0, 0x1FFFFFFFFFF, [1], .writeback, _, _, .inr rfl, pairRfl, by decide +kernel⟩,
   ⟨{ sR 9 with lintel := [(18, { retired := true }), (19, { retired := true }), (22, { retired := true })] }, 71, 0x20003FFFFFF, .ifetch, .inr rfl, by decide +kernel⟩,
   ⟨{ sR 9 with lintel := [(18, { retired := true }), (19, { retired := true }), (22, { retired := true })] }, 71, 0x20000000000, .store, .inl rfl, by decide +kernel⟩⟩

theorem witness_PagesAndPortsRun_f :
    (∃ (s : State) (c : Fin 144) (addr : Nat) (k : MasonKind), (k = MasonKind.store ∨ k = MasonKind.writeback) ∧ 9 ≤ s.rst.stage ∧
      s.key.masonGone.contains (↑c / 72) = false ∧ clusterOn s (↑c) k = true ∧ 2199023255552 ≤ addr ∧ addr < 2199090364416 ∧
      routeHolds s (9 + ↑c / 72) hubDie = false ∧ routed s (9 + ↑c / 72) hubDie = true) ∧
    (∃ (s : State) (c : Fin 144) (addr : Nat) (k : MasonKind), 9 ≤ s.rst.stage ∧ s.key.masonGone.contains (↑c / 72) = false ∧
      clusterOn s (↑c) k = true ∧ 4398046511104 ≤ addr ∧ addr < 8796093022208 ∧ routeHolds s (9 + ↑c / 72) hubDie = false ∧
      routed s (9 + ↑c / 72) hubDie = true ∧ k = MasonKind.load ∧ outReady s = true) ∧
    (∃ (s : State) (c : Fin 144) (addr : Nat) (k : MasonKind), (s.host.link = false ∨ s.host.cfg.bme = false) ∧ 9 ≤ s.rst.stage ∧
      s.key.masonGone.contains (↑c / 72) = false ∧ clusterOn s (↑c) k = true ∧ 4398046511104 ≤ addr ∧ addr < 8796093022208 ∧
      routeHolds s (9 + ↑c / 72) hubDie = false ∧ routed s (9 + ↑c / 72) hubDie = true ∧ k = MasonKind.load) ∧
    (∃ (s : State) (view : View) (off : Nat) (size : Nat), (size ≠ 4 ∧ size ≠ 8 ∨ off % size ≠ 0) ∧ 2 ≤ s.rst.stage ∧
      (view = View.pcie → barOpen s = true ∧ s.host.posted = [])) ∧
    (∃ (s : State) (view : View) (off : Nat) (size : Nat), 2 ≤ s.rst.stage ∧ (view = View.pcie → barOpen s = true ∧ s.host.posted = []) ∧
      isDriver s view = false ∧ driverOnly off = true ∧ size = 4) ∧
    (∃ (s : State) (view : View) (off : Nat) (size : Nat), (off = 17825848 ∨ off = 17825852) ∧ 2 ≤ s.rst.stage ∧
      (view = View.pcie → barOpen s = true ∧ s.host.posted = []) ∧ isDriver s view = true ∧ size = 4) ∧
    (∃ (s : State) (view : View) (off : Nat) (size : Nat), 2 ≤ s.rst.stage ∧ (view = View.pcie → barOpen s = true ∧ s.host.posted = []) ∧
      isDriver s view = true ∧ size = 8 ∧ off = 17825848) ∧
    (∃ (s : State) (view : View) (off : Nat) (size : Nat), 2 ≤ s.rst.stage ∧ (view = View.pcie → barOpen s = true ∧ s.host.posted = []) ∧
      isDriver s view = true ∧ size = 8 ∧ off = 17825824) :=
  ⟨⟨sR 9, 0, 0x20003FFFFFF, .store, .inl rfl, by decide +kernel⟩,
   ⟨{ sR 9 with host := { link := true, cfg := { bme := true } } }, 0, 0x7FFFFFFFFFF, .load, by decide +kernel⟩,
   ⟨sR 9, 0, 0x40000000000, .load, .inl rfl, by decide +kernel⟩,
   ⟨sR 2, .mason, 2, 4, .inr (by decide +kernel), by decide +kernel⟩,
   ⟨{ sR 2 with host := { link := true, cfgReady := true, cfg := { mse := true } } }, .pcie, 0x1213FFF, 4, by decide +kernel⟩,
   ⟨sR 2, .mason, 0x110003C, 4, .inr rfl, by decide +kernel⟩,
   ⟨sR 2, .mason, 0x1100038, 8, by decide +kernel⟩,
   ⟨sR 2, .mason, 0x1100020, 8, by decide +kernel⟩⟩

theorem witness_PagesAndPortsRun_g :
    (∃ (s : State), barOpen s = true ∧ s.host.posted ≠ []) ∧
    (∃ (s : State) (v : BitVec 64), (56 < bf v 13 8 ∨ bf v 13 8 < bf v 5 0) ∧ 2 ≤ s.rst.stage) ∧
    (∃ (s : State) (v : BitVec 64), 2 ≤ s.rst.stage ∧ bf v 13 8 ≤ 56 ∧ bf v 5 0 ≤ bf v 13 8) :=
  ⟨⟨{ State.reset with host := { link := true, cfgReady := true, cfg := { mse := true }, posted := [.window 0 0 []] } }, by decide +kernel⟩,
   ⟨sR 2, 0x3900, .inl (by decide +kernel), by decide +kernel⟩,
   ⟨sR 2, 0x3838, by decide +kernel⟩⟩

theorem witness_PowerRuns_a :
    (∃ (s : State) (d : Fin 108), ((getDom s ↑d).st = DomState.off ∨ (getDom s ↑d).st = DomState.on ∨ (getDom s ↑d).st = DomState.waiting)) ∧
    (∃ (s : State) (d : Fin 108) (i : Nat) (e : Nat), (getDom s ↑d).st = DomState.poweringDown ∧ (getDom s ↑d).target = false ∧ ↑d < 64 ∧ i < 4 ∧
      e < 4) ∧
    (∃ (s : State) (d : Fin 108) (c : Nat), (getDom s ↑d).st = DomState.poweringDown ∧ (getDom s ↑d).target = false ∧ ↑d < 64 ∧ c / 4 ≠ ↑d) ∧
    (∃ (s : State) (d : Fin 108) (i : Nat), (getDom s ↑d).st = DomState.poweringDown ∧ (getDom s ↑d).target = false ∧ 80 ≤ ↑d ∧ ↑d < 96 ∧ i < 32) ∧
    (∃ (s : State) (d : Fin 108), (getDom s ↑d).st = DomState.poweringUp ∧ (getDom s ↑d).target = true ∧ ↑d < 104) ∧
    (∃ (s : State) (d : Fin 108) (i : Nat) (e : Nat), (getDom s ↑d).st = DomState.poweringUp ∧ (getDom s ↑d).target = true ∧ ↑d < 64 ∧ i < 4 ∧ e < 4) ∧
    (∃ (s : State) (d : Fin 108) (i : Nat), (getDom s ↑d).st = DomState.poweringUp ∧ (getDom s ↑d).target = true ∧ 80 ≤ ↑d ∧ ↑d < 96 ∧ i < 32) ∧
    (∃ (s : State) (d : Fin 108), ↑d < 104 ∧ (getDom s ↑d).st = DomState.poweringDown ∧ (getDom s ↑d).target = true) :=
  ⟨⟨State.reset, 107, .inr (.inl (by decide +kernel))⟩,
   ⟨sD 63 { st := .poweringDown, target := false }, 63, 3, 3, by decide +kernel⟩,
   ⟨sD 63 { st := .poweringDown, target := false }, 63, 0, by decide +kernel⟩,
   ⟨sD 95 { st := .poweringDown, target := false }, 95, 31, by decide +kernel⟩,
   ⟨sD 103 { st := .poweringUp }, 103, by decide +kernel⟩,
   ⟨sD 63 { st := .poweringUp }, 63, 3, 3, by decide +kernel⟩,
   ⟨sD 95 { st := .poweringUp }, 95, 31, by decide +kernel⟩,
   ⟨sD 103 { st := .poweringDown }, 103, by decide +kernel⟩⟩

theorem witness_PowerRuns_b :
    (∃ (s : State) (m : Fin 8), (getDom s (96 + ↑m)).st = DomState.waiting) ∧
    (∃ (s : State) (m : Fin 8), (getDom s (96 + ↑m)).st ≠ DomState.waiting) ∧
    (∃ (s : State) (g : Fin 64), ((getGroup s ↑g).blocked = false ∨ groupBusy s ↑g = true)) ∧
    (∃ (s : State) (g : Fin 64) (τ : Nat), s.power.buttress = false ∧ (getGroup s ↑g).lastChange = some τ ∧ s.now < τ + 50000) ∧
    (∃ (s : State) (g : Fin 64) (u : Nat), (s.power.buttress = true ∨ ∀ (τ : Nat), (getGroup s ↑g).lastChange = some τ → τ + 50000 ≤ s.now) ∧
      (getGroup s ↑g).blocked = true ∧ groupBusy s ↑g = false ∧ u ≠ ↑g / 8) ∧
    (∃ (s : State), s.power.buttress = false) ∧
    (∃ (s : State), s.rst.stage < 2) ∧
    (∃ (s : State), 2 ≤ s.rst.stage ∧ s.power.buttress = true) :=
  ⟨⟨sD 103 { st := .waiting }, 7, by decide +kernel⟩,
   ⟨State.reset, 7, by decide +kernel⟩,
   ⟨State.reset, 63, .inl (by decide +kernel)⟩,
   ⟨{ sG7 { blocked := true, lastChange := some 0 } with now := 49999 }, 63, 0, by decide +kernel⟩,
   ⟨{ sG7 { blocked := true, lastChange := some 0 } with now := 50000 }, 63, 0, .inr (fun τ h => by cases h; decide), by decide +kernel⟩,
   ⟨State.reset, by decide +kernel⟩,
   ⟨sR 1, by decide +kernel⟩,
   ⟨{ State.reset with rst := { stage := 2 }, power := { buttress := true } }, by decide +kernel⟩⟩

theorem witness_PowerRuns_c :
    (∃ (s : State), 2 ≤ s.rst.stage ∧ s.power.buttress = false) ∧
    (∃ (s : State), s.rst.stage < 7) ∧
    (∃ (s : State), (∀ u < 8, (getTower s u).silent = false) ∧ sensorTripped s = false) ∧
    (∃ (s : State), ((∃ u < 8, (getTower s u).silent = true) ∨ sensorTripped s = true)) ∧
    (∃ (s : State), s.power.highSince = none) ∧
    (∃ (s : State) (τ : Nat), s.power.highSince = some τ ∧ s.now < τ + 1000000) ∧
    (∃ (s : State) (τ : Nat) (g : Nat), s.power.highSince = some τ ∧ τ + 1000000 ≤ s.now ∧ s.power.buttress = true ∧ buttressHeld s = false ∧ g < 64) ∧
    (∃ (s : State), s.power.buttress = false) :=
  ⟨⟨sR 2, by decide +kernel⟩,
   ⟨sR 6, by decide +kernel⟩,
   ⟨State.reset, by decide +kernel⟩,
   ⟨sT { silent := true }, .inl (by decide +kernel)⟩,
   ⟨State.reset, by decide +kernel⟩,
   ⟨{ State.reset with now := 999999, power := { highSince := some 0 } }, 0, by decide +kernel⟩,
   ⟨{ State.reset with now := 1000000, power := { highSince := some 0, buttress := true } }, 0, 63, by decide +kernel⟩,
   ⟨State.reset, by decide +kernel⟩⟩

theorem witness_PowerRuns_d :
    (∃ (s : State), (s.rst.off = true ∨ ∀ p ∈ s.power.trips, s.now < p.2 + 10000000)) ∧
    (∃ (s : State) (d : Nat), s.rst.off = false ∧ (∃ p ∈ s.power.trips, p.2 + 10000000 ≤ s.now) ∧ d < 108) ∧
    (∃ (s : State) (k : Nat), s.rst.off = false ∧ (∃ p ∈ s.power.trips, p.2 + 10000000 ≤ s.now) ∧ k < 18 ∧ (getMod s k).st ≠ ModState.retired) ∧
    (∃ (s : State) (c : Nat), s.rst.off = false ∧ (∃ p ∈ s.power.trips, p.2 + 10000000 ≤ s.now) ∧ c < 256) ∧
    (∃ (s : State), s.now ≤ s.power.coolantAt + 5000000000) ∧
    (∃ (s : State), s.power.coolantAt + 5000000000 < s.now) ∧
    (∃ (s : State) (u : Nat), bt s.power.capNext 11 = false ∧ u < 8) ∧
    (∃ (s : State), s.power.budgetOld ≠ 0 ∧ budgetSum s = s.power.budgetOld) :=
  ⟨⟨State.reset, .inr (by decide +kernel)⟩,
   ⟨{ State.reset with now := 10000000, power := { trips := [(73, 0)] } }, 107, by decide +kernel⟩,
   ⟨{ State.reset with now := 10000000, power := { trips := [(73, 0)] } }, 17, by decide +kernel⟩,
   ⟨{ State.reset with now := 10000000, power := { trips := [(73, 0)] } }, 255, by decide +kernel⟩,
   ⟨{ State.reset with now := 5000000000 }, by decide +kernel⟩,
   ⟨{ State.reset with now := 5000000001 }, by decide +kernel⟩,
   ⟨{ State.reset with power := { capNext := 0xBB8DC000 } }, 7, by decide +kernel⟩,
   ⟨{ State.reset with power := { budgetOld := 8 }, towers := (List.range 8).map fun u => (u, { budget := 1 }) }, by decide +kernel⟩⟩

theorem witness_PowerRuns_e :
    (∃ (s : State) (m : PowerMeas) (u : Nat), 0 < ↑(bf s.power.capNext 31 20) - ↑m.pRest ∧ 0 < s.power.budgetOld ∧
      (∀ u < 8, s.power.budgetOld / 16 ≤ (getTower s u).budget ∧ (getTower s u).budget ≤ 3 * s.power.budgetOld / 16) ∧ u < 8) ∧
    (∃ (m : PowerMeas) (u : Nat) (i : Nat), u < 8 ∧ i < 4 ∧ 95 * 16 ≤ m.sensors.getD (4 * u + i) 0) ∧
    (∃ (s : State), (s.power.buttress = true ∨ s.rst.stage < 7)) ∧
    (∃ (s : State) (g : Nat), s.power.buttress = false ∧ 7 ≤ s.rst.stage ∧ g < 64 ∧ (getGroup s g).soft = false ∧
      (∀ i < 4, holdsKernel (getCore s (4 * g + i)) = false)) ∧
    (∃ (s : State) (p : List Nat) (g : Nat), s.power.buttress = false ∧ 7 ≤ s.rst.stage ∧ g < 64 ∧ (getGroup s g).soft = false ∧
      (∃ i < 4, holdsKernel (getCore s (4 * g + i)) = true) ∧ (getGroup s g).target ≤ fMax s ∧ fMin s ≤ fMax s ∧
      105 / 100 * (budgetNow s (g / 8) * 125) < ↑(p.getD g 0) ∧ budgetNow s (g / 8) * 125 < ↑(p.getD g 0)) ∧
    (∃ (s : State) (p : List Nat) (g : Nat), s.power.buttress = false ∧ 7 ≤ s.rst.stage ∧ g < 64 ∧ (getGroup s g).soft = false ∧
      (∃ i < 4, holdsKernel (getCore s (4 * g + i)) = true) ∧ (getGroup s g).target ≤ fMax s ∧ fMin s ≤ fMax s ∧
      budgetNow s (g / 8) * 125 < ↑(p.getD g 0) ∧ ↑(p.getD g 0) ≤ 105 / 100 * (budgetNow s (g / 8) * 125)) ∧
    (∃ (s : State) (p : List Nat) (g : Nat), s.power.buttress = false ∧ 7 ≤ s.rst.stage ∧ g < 64 ∧ (getGroup s g).soft = false ∧
      (∃ i < 4, holdsKernel (getCore s (4 * g + i)) = true) ∧ (getGroup s g).target ≤ fMax s ∧ fMin s ≤ fMax s ∧
      ↑(p.getD g 0) < 97 / 100 * (budgetNow s (g / 8) * 125) ∧ ↑(p.getD g 0) ≤ budgetNow s (g / 8) * 125) ∧
    (∃ (s : State) (p : List Nat) (g : Nat), s.power.buttress = false ∧ 7 ≤ s.rst.stage ∧ g < 64 ∧ (getGroup s g).soft = false ∧
      (∃ i < 4, holdsKernel (getCore s (4 * g + i)) = true) ∧ (getGroup s g).target ≤ fMax s ∧ fMin s ≤ fMax s ∧
      97 / 100 * (budgetNow s (g / 8) * 125) ≤ ↑(p.getD g 0) ∧ ↑(p.getD g 0) ≤ budgetNow s (g / 8) * 125 ∧
      ↑(p.getD g 0) ≤ 105 / 100 * (budgetNow s (g / 8) * 125)) :=
  ⟨⟨{ State.reset with power := { budgetOld := 8 }, towers := (List.range 8).map fun u => (u, { budget := 1 }) }, pm0, 7, by decide +kernel⟩,
   ⟨pm0, 7, 3, by decide +kernel⟩,
   ⟨sR 6, .inr (by decide +kernel)⟩,
   ⟨sG7 {}, 63, by decide +kernel⟩,
   ⟨sG8, pw63 1051, 63, by decide +kernel⟩,
   ⟨sG8, pw63 1050, 63, by decide +kernel⟩,
   ⟨sG8, pw63 969, 63, by decide +kernel⟩,
   ⟨sG8, pw63 970, 63, by decide +kernel⟩⟩

theorem witness_ModuleChannelsRun_a :
    (∃ (k : Nat), k < 18) ∧
    (∃ (s : State) (k : Port) (en : Bool), ((getMod s ↑k).st = ModState.retired ∨ en = (getMod s ↑k).en)) ∧
    (∃ (s : State) (k : Port), (getMod s ↑k).st ≠ ModState.retired ∧ (getMod s ↑k).en = false) ∧
    (∃ (s : State) (k : Port), (getMod s ↑k).st ≠ ModState.retired ∧ (getMod s ↑k).en = true) ∧
    (∃ (s : State) (k : Port),
      ((getMod s ↑k).st ≠ ModState.queued ∨ 2 ≤ (rampsBeside s ↑k).length ∨ ∃ j ∈ groupOthers ↑k, j < ↑k ∧ (getMod s j).st = ModState.queued)) ∧
    (∃ (s : State) (k : Port), (getMod s ↑k).st = ModState.queued ∧ (rampsBeside s ↑k).length ≤ 1 ∧
      (∀ j ∈ groupOthers ↑k, j < ↑k → (getMod s j).st ≠ ModState.queued) ∧ s.power.vmodOk = true) ∧
    (∃ (s : State) (k : Port), ((getMod s ↑k).paused = true ∨ (getMod s ↑k).inLimit = true)) ∧
    (∃ (s : State) (k : Port), (getMod s ↑k).st = ModState.ramp ∧ (getMod s ↑k).paused = true ∧ (getMod s ↑k).rampAt + 5000000 ≤ s.now) :=
  ⟨⟨17, by decide +kernel⟩,
   ⟨State.reset, 17, false, .inr rfl⟩,
   ⟨State.reset, 17, by decide +kernel⟩,
   ⟨sMo 0 { en := true }, 17, by decide +kernel⟩,
   ⟨sMo2 0 { st := .queued } { st := .queued }, 17, .inr (.inr ⟨16, by decide +kernel, by decide +kernel, by decide +kernel⟩)⟩,
   ⟨sMo2 0 { st := .queued } { st := .ramp }, 17, by decide +kernel⟩,
   ⟨sMo 0 { inLimit := true }, 17, .inr rfl⟩,
   ⟨sMo 5000000 { st := .ramp, paused := true }, 17, by decide +kernel⟩⟩

theorem witness_ModuleChannelsRun_b :
    (∃ (s : State) (k : Port), (getMod s ↑k).st = ModState.ramp ∧ (getMod s ↑k).paused = false ∧ s.now < (getMod s ↑k).windowEnd) ∧
    (∃ (s : State) (k : Port) (v : BitVec 12), (getMod s ↑k).st = ModState.ramp ∧ (getMod s ↑k).paused = false ∧ (getMod s ↑k).windowEnd ≤ s.now ∧
      v.toNat < 120 ∧ (getMod s ↑k).extended = false ∧ (getMod s ↑k).retries < 3) ∧
    (∃ (s : State) (k : Port) (v : BitVec 12), (getMod s ↑k).st = ModState.ramp ∧ (getMod s ↑k).paused = false ∧ (getMod s ↑k).windowEnd ≤ s.now ∧
      120 ≤ v.toNat ∧ (getMod s ↑k).rampAt + 5000000 ≤ s.now ∧ (getMod s ↑k).retries < 3) ∧
    (∃ (s : State) (k : Port) (v : BitVec 12), (getMod s ↑k).st = ModState.ramp ∧ (getMod s ↑k).paused = false ∧ (getMod s ↑k).windowEnd ≤ s.now ∧
      120 ≤ v.toNat ∧ s.now < (getMod s ↑k).rampAt + 5000000) ∧
    (∃ (s : State) (k : Port) (j : Nat), (getMod s ↑k).st = ModState.ramp ∧ (getMod s ↑k).paused = false ∧ (getMod s ↑k).inLimit = false ∧
      j ∈ rampsBeside s ↑k ∧ (getMod s j).inLimit = false ∧ (getMod s j).paused = false) ∧
    (∃ (s : State) (k : Port) (j : Nat), (j ∉ rampsBeside s ↑k ∨ (getMod s j).inLimit = true) ∧ (getMod s ↑k).st = ModState.ramp ∧
      (getMod s ↑k).paused = false ∧ (getMod s ↑k).inLimit = false ∧ j ≠ ↑k) ∧
    (∃ (s : State) (k : Port), (getMod s ↑k).st = ModState.on ∧ (getMod s ↑k).paused = false ∧ (getMod s ↑k).inLimit = false) ∧
    (∃ (s : State) (k : Port) (j : Nat), (getMod s ↑k).st = ModState.ramp ∧ (getMod s ↑k).paused = false ∧ (getMod s ↑k).inLimit = true ∧
      (∀ j ∈ rampsBeside s ↑k, (getMod s j).inLimit = false) ∧ j ∈ rampsBeside s ↑k ∧ (getMod s j).paused = true) :=
  ⟨⟨sMo 1999999 { st := .ramp, windowEnd := 2000000 }, 17, by decide +kernel⟩,
   ⟨sMo 2000000 { st := .ramp, windowEnd := 2000000, retries := 2 }, 17, 119, by decide +kernel⟩,
   ⟨sMo 5000000 { st := .ramp, windowEnd := 5000000, retries := 2 }, 17, 120, by decide +kernel⟩,
   ⟨sMo 4999999 { st := .ramp, windowEnd := 2000000 }, 17, 120, by decide +kernel⟩,
   ⟨sMo2 0 { st := .ramp } { st := .ramp }, 17, 16, by decide +kernel⟩,
   ⟨sMo 0 { st := .ramp }, 17, 0, .inl (by decide +kernel), by decide +kernel⟩,
   ⟨sMo 0 { st := .on }, 17, by decide +kernel⟩,
   ⟨sMo2 0 { st := .ramp, inLimit := true } { st := .ramp, paused := true }, 17, 16, by decide +kernel⟩⟩

theorem witness_ModuleChannelsRun_c :
    (∃ (s : State) (k : Port), ((getMod s ↑k).inLimit = false ∨ s.now < (getMod s ↑k).limitSince + 1000000)) ∧
    (∃ (s : State) (k : Port), ((getMod s ↑k).st = ModState.ramp ∨ (getMod s ↑k).st = ModState.on) ∧ (getMod s ↑k).inLimit = true ∧
      (getMod s ↑k).limitSince + 1000000 ≤ s.now ∧ (getMod s ↑k).retries < 3) ∧
    (∃ (s : State) (k : Port), ((getMod s ↑k).st = ModState.ramp ∨ (getMod s ↑k).st = ModState.on) ∧ (getMod s ↑k).inLimit = true ∧
      (getMod s ↑k).limitSince + 1000000 ≤ s.now ∧ 3 ≤ (getMod s ↑k).retries) ∧
    (∃ (s : State) (k : Port), ((getMod s ↑k).st ≠ ModState.latched ∨ s.now < (getMod s ↑k).latchedAt + 100000000)) ∧
    (∃ (s : State) (k : Port), (getMod s ↑k).st = ModState.latched ∧ (getMod s ↑k).latchedAt + 100000000 ≤ s.now) ∧
    (∃ (s : State) (k : Port), ((getMod s ↑k).st ≠ ModState.on ∨ s.now < (getMod s ↑k).onAt + 10000000000)) ∧
    (∃ (s : State) (k : Port), (getMod s ↑k).st = ModState.on ∧ (getMod s ↑k).onAt + 10000000000 ≤ s.now) :=
  ⟨⟨sMo 999999 { inLimit := true }, 17, .inr (by decide +kernel)⟩,
   ⟨sMo 1000000 { st := .on, inLimit := true, retries := 2 }, 17, .inr rfl, by decide +kernel⟩,
   ⟨sMo 1000000 { st := .ramp, inLimit := true, retries := 3 }, 17, .inl rfl, by decide +kernel⟩,
   ⟨sMo 99999999 { st := .latched }, 17, .inr (by decide +kernel)⟩,
   ⟨sMo 100000000 { st := .latched }, 17, by decide +kernel⟩,
   ⟨sMo 9999999999 { st := .on }, 17, .inr (by decide +kernel)⟩,
   ⟨sMo 10000000000 { st := .on }, 17, by decide +kernel⟩⟩

theorem witness_ResetsAndReleaseRun_a :
    (∃ (s : State), s.rst.railsUp = true) ∧
    (∃ (s : State), s.rst.railsUp = true ∧ 1 ≤ s.rst.stage ∧ s.key.halted = false) ∧
    (∃ (s : State) (τ : Nat), s.rst.railsUp = true ∧ s.rst.softDue = some τ ∧ τ ≤ s.now ∧ s.rst.softMb < 4) ∧
    (∃ (s : State), s.rst.railsUp = true ∧ s.pins.dbgEn = true ∧ s.rst.active = []) ∧
    (∃ (s : State), s.rst.railsUp = true ∧ 1 ≤ s.rst.stage) ∧
    (∃ (s : State) (k : Fin 8) (τ : Nat), s.rst.railsUp = true ∧ (↑k, τ) ∈ s.rst.since ∧ ↑k ∈ [3, 4, 5, 7] ∧ s.now < τ + 10000) ∧
    (∃ (s : State) (k : Fin 8),
      (∀ (τ : Nat), (↑k, τ) ∈ s.rst.since → (τ + if ↑k ∈ [3, 4, 5, 7] then 10000 else if ↑k = 6 then 1000000 else 0) ≤ s.now) ∧
      s.rst.railsUp = true ∧ ↑k ≠ 2) :=
  ⟨⟨State.reset, by decide +kernel⟩,
   ⟨sR 1, by decide +kernel⟩,
   ⟨{ State.reset with rst := { softDue := some 0, softMb := 3 } }, 0, by decide +kernel⟩,
   ⟨{ State.reset with pins := { dbgEn := true } }, by decide +kernel⟩,
   ⟨sR 1, by decide +kernel⟩,
   ⟨{ State.reset with rst := { since := [(7, 0)] }, now := 9999 }, 7, 0, by decide +kernel⟩,
   ⟨{ State.reset with rst := { since := [(7, 0)] }, now := 10000 }, 7, fun τ h => by cases List.mem_singleton.1 h; decide, by decide +kernel⟩⟩

theorem witness_ResetsAndReleaseRun_b :
    (∃ (s : State), s.key.halted = true) ∧
    (∃ (s : State), s.rst.softDue = none) ∧
    (∃ (s : State) (τ : Nat), s.rst.softDue = some τ ∧ s.now < τ) ∧
    (∃ (s : State), (s.pins.dbgEn = false ∨ s.rst.active ≠ [])) ∧
    (∃ (s : State), (s.rst.active ≠ [] ∨ s.rst.railsUp = false ∨ s.rst.off = true)) ∧
    (∃ (s : State) (b : BootRead), s.rst.active = [] ∧ s.rst.railsUp = true ∧ s.rst.off = false ∧ s.rst.stage = 0 ∧ b.flash = true ∧
      b.journal = true ∧ (journalOf s).trial = none ∧ slotSealed (slotOf s (journalOf s).committed) = true) ∧
    (∃ (s : State) (b : BootRead) (m : Nat), (b.flash = false ∨ b.journal = false) ∧ s.rst.active = [] ∧ s.rst.railsUp = true ∧ s.rst.off = false ∧
      s.rst.stage = 0 ∧ m ≠ 0) :=
  ⟨⟨{ State.reset with key := { halted := true } }, by decide +kernel⟩,
   ⟨State.reset, by decide +kernel⟩,
   ⟨{ State.reset with rst := { softDue := some 1 } }, 1, by decide +kernel⟩,
   ⟨State.reset, .inl rfl⟩,
   ⟨{ State.reset with rst := { railsUp := false } }, .inr (.inl rfl)⟩,
   ⟨{ State.reset with store := { slotA := { header := some [], sealedOk := true } } }, bootOk, by decide +kernel⟩,
   ⟨State.reset, { bootOk with journal := false }, 3, .inr rfl, by decide +kernel⟩⟩

theorem witness_ResetsAndReleaseRun_c :
    (∃ (s : State), s.rst.active = [] ∧ s.rst.railsUp = true ∧ s.rst.off = false ∧ s.rst.stage = 1 ∧ plumbRoot s = false ∧ plumbPort s = none) ∧
    (∃ (s : State) (m : Nat), s.rst.active = [] ∧ s.rst.railsUp = true ∧ s.rst.off = false ∧ s.rst.stage = 2 ∧ bt s.rst.cause1 19 = true ∧ m ≠ 0) ∧
    (∃ (s : State) (c : Nat), s.rst.active = [] ∧ s.rst.railsUp = true ∧ s.rst.off = false ∧ s.rst.stage = 2 ∧ bt s.rst.cause1 19 = false ∧
      s.rst.recovery = false ∧ c < 256) ∧
    (∃ (s : State) (k : Nat), s.rst.active = [] ∧ s.rst.railsUp = true ∧ s.rst.off = false ∧ s.rst.stage = 2 ∧ bt s.rst.cause1 19 = false ∧
      s.rst.recovery = false ∧ k < 18) ∧
    (∃ (s : State), (m0Only s = true ∨ ∃ u < 8, (getTower s u).vset ≠ (getTower s u).vtarget) ∧ s.rst.active = [] ∧ s.rst.railsUp = true ∧
      s.rst.off = false ∧ s.rst.stage = 3) ∧
    (∃ (s : State), s.rst.active = [] ∧ s.rst.railsUp = true ∧ s.rst.off = false ∧ s.rst.stage = 3 ∧ mayFour s = true) ∧
    (∃ (s : State) (b : BootRead) (p : Fin 24 × Fin 18), s.rst.active = [] ∧ s.rst.railsUp = true ∧ s.rst.off = false ∧ s.rst.stage = 4 ∧ p ∈ b.lanes) :=
  ⟨⟨sR 1, by decide +kernel⟩,
   ⟨{ State.reset with rst := { stage := 2, cause1 := 0x80000 } }, 3, by decide +kernel⟩,
   ⟨sR 2, 255, by decide +kernel⟩,
   ⟨sR 2, 17, by decide +kernel⟩,
   ⟨{ State.reset with rst := { stage := 3, recovery := true } }, .inl (by decide +kernel), by decide +kernel⟩,
   ⟨sR 3, by decide +kernel⟩,
   ⟨sR 4, { bootOk with lanes := [(0, 17)] }, (0, 17), by decide +kernel⟩⟩

theorem witness_ResetsAndReleaseRun_d :
    (∃ (s : State) (b : BootRead) (l : Nat), (∀ (l : Nat), (trainLink (getLintel s l)).half = true → 8 ≤ lintelGood (getLintel s l)) ∧
      s.rst.active = [] ∧ s.rst.railsUp = true ∧ s.rst.off = false ∧ s.rst.stage = 4 ∧ b.lanes = [] ∧ (∀ d < 11, dieRouted s d = true)) ∧
    (∃ (s : State), s.rst.active = [] ∧ s.rst.railsUp = true ∧ s.rst.off = false ∧ s.rst.stage = 5) ∧
    (∃ (s : State) (c : Nat), s.rst.active = [] ∧ s.rst.railsUp = true ∧ s.rst.off = false ∧ s.rst.stage = 6 ∧ c < 256 ∧
      (getCore s c).retired = false) ∧
    (∃ (s : State) (c : Nat), s.rst.active = [] ∧ s.rst.railsUp = true ∧ s.rst.off = false ∧ s.rst.stage = 6 ∧ c < 256 ∧ (getCore s c).retired = true) ∧
    (∃ (s : State), s.rst.active = [] ∧ s.rst.railsUp = true ∧ s.rst.off = false ∧ s.rst.stage = 6 ∧ s.pins.butLow = true) ∧
    (∃ (s : State), s.rst.active = [] ∧ s.rst.railsUp = true ∧ s.rst.off = false ∧ s.rst.stage = 6 ∧ s.pins.butLow = false) ∧
    (∃ (s : State) (k : Nat), s.rst.active = [] ∧ s.rst.railsUp = true ∧ s.rst.off = false ∧ s.rst.stage = 7 ∧ k < 18 ∧
      (getMod s k).st ≠ ModState.retired) :=
  ⟨⟨sR 4, bootOk, 23, fun l h => absurd h (by rw [show getLintel (sR 4) l = {} from rfl]; decide), by decide +kernel⟩,
   ⟨sR 5, by decide +kernel⟩,
   ⟨sR 6, 255, by decide +kernel⟩,
   ⟨{ sR 6 with cores := [(255, { retired := true })] }, 255, by decide +kernel⟩,
   ⟨{ sR 6 with pins := { butLow := true } }, by decide +kernel⟩,
   ⟨sR 6, by decide +kernel⟩,
   ⟨sR 7, 17, by decide +kernel⟩⟩

theorem witness_ResetsAndReleaseRun_e :
    (∃ (s : State), s.rst.active = [] ∧ s.rst.railsUp = true ∧ s.rst.off = false ∧ s.rst.stage = 8 ∧ s.rst.memDone = false) ∧
    (∃ (s : State), s.rst.active = [] ∧ s.rst.railsUp = true ∧ s.rst.off = false ∧ s.rst.stage = 8 ∧ s.rst.memDone = true) ∧
    (∃ (s : State), s.rst.active = [] ∧ s.rst.railsUp = true ∧ s.rst.off = false ∧ 9 ≤ s.rst.stage) ∧
    (∃ (s : State), (s.rst.stage < 6 ∨ s.rst.memDone = true ∨ s.rst.active ≠ [])) ∧
    (∃ (s : State) (failed : List HCh) (c : HCh), 6 ≤ s.rst.stage ∧ s.rst.memDone = false ∧ s.rst.active = [] ∧ c ∈ failed) ∧
    (∃ (s : State), (s.rst.stage ≠ 9 ∨ s.rst.memDone = false ∨ s.rst.done = true)) ∧
    (∃ (s : State), s.rst.stage = 9 ∧ s.rst.memDone = true ∧ s.rst.done = false ∧ s.rst.late = []) :=
  ⟨⟨sR 8, by decide +kernel⟩,
   ⟨{ State.reset with rst := { stage := 8, memDone := true } }, by decide +kernel⟩,
   ⟨sR 9, by decide +kernel⟩,
   ⟨sR 5, .inl (by decide +kernel)⟩,
   ⟨sR 6, [511], 511, by decide +kernel⟩,
   ⟨sR 9, .inr (.inl rfl)⟩,
   ⟨{ State.reset with rst := { stage := 9, memDone := true } }, by decide +kernel⟩⟩

theorem witness_SystemOrdersRun_a :
    (∃ (s : State) (r : Instr × Nat × Nat × Right), r ∈ rowsOrder ∧ s.key.batch = []) ∧
    (∃ (s : State) (r : Instr × Nat × Nat × Right) (o : Order) (l : List Order), r ∈ rowsOrder ∧
      (o.busy = true ∨ s.key.halted = true ∨ o.group.toNat ≠ r.2.1 ∨ o.verb.toNat ≠ r.2.2.1) ∧ s.key.batch = o :: l) ∧
    (∃ (s : State) (r : Instr × Nat × Nat × Right) (o : Order), r ∈ rowsOrder ∧ s.key.batch = [o] ∧ s.key.batchDone = [] ∧ o.busy = false ∧
      o.started = false ∧ o.code = St.ok ∧ o.res = [] ∧ o.wrote = [] ∧ s.key.halted = false ∧ o.group.toNat = r.2.1 ∧ o.verb.toNat = r.2.2.1 ∧
      permitted s o.mb r.2.2.2 = false) ∧
    (∃ (s : State) (o : Order), Sole s o 1 1 Right.r ∧ o.args = []) ∧
    (∃ (s : State) (o : Order), Sole s o 1 2 Right.r ∧ o.args = []) ∧
    (∃ (s : State) (o : Order) (b : Byte) (i : Nat), Sole s o 1 2 Right.w ∧ o.args = [b] ∧ b ≠ 0 ∧ i < 32) ∧
    (∃ (s : State) (o : Order), Sole s o 1 3 Right.w ∧ o.args = []) ∧
    (∃ (s : State) (o : Order), Sole s o 1 4 Right.w ∧ o.args = [1] ∧ s.key.stopped = true) :=
  ⟨⟨State.reset, (.sysInfo, 1, 1, .r), List.mem_cons_self .., by decide +kernel⟩,
   ⟨sOr ord0 State.reset, (.sysInfo, 1, 1, .r), ord0, [], List.mem_cons_self .., .inl rfl, by decide +kernel⟩,
   ⟨sOr { oq 1 5 [] with mb := 3 } State.reset, (.sysDrv, 1, 5, .w0), { oq 1 5 [] with mb := 3 }, by decide +kernel⟩,
   ⟨sOr (oq 1 1 []) (State.reset), oq 1 1 [], sole0 (by decide +kernel), by decide +kernel⟩,
   ⟨sOr (oq 1 2 []) (State.reset), oq 1 2 [], sole0 (by decide +kernel), by decide +kernel⟩,
   ⟨sOr (oq 1 2 [128]) (State.reset), oq 1 2 [128], 128, 31, sole0 (by decide +kernel), by decide +kernel⟩,
   ⟨sOr (oq 1 3 []) (State.reset), oq 1 3 [], sole0 (by decide +kernel), by decide +kernel⟩,
   ⟨sOr (oq 1 4 [1]) ({ State.reset with key := { stopped := true } }), oq 1 4 [1], sole0 (by decide +kernel), by decide +kernel⟩⟩

theorem witness_SystemOrdersRun_b :
    (∃ (s : State) (o : Order), Sole s o 1 4 Right.w ∧ o.args = [1] ∧ s.key.stopped = false ∧ s.key.stopping = false) ∧
    (∃ (s : State) (o : Order), Sole s o 1 4 Right.w ∧ o.args = [0] ∧ (∀ p ∈ s.key.pending, p.offline = false)) ∧
    (∃ (s : State), s.key.stopping = true ∧ (∀ e ∈ s.queues, e.2.run = none)) ∧
    (∃ (s : State), (∃ e ∈ s.queues, e.2.run.isSome = true) ∧ s.key.stopping = true ∧ s.now < s.key.stopSince + 100000000) ∧
    (∃ (s : State) (e : Nat × Queue), (∃ e ∈ s.queues, e.2.run.isSome = true) ∧ s.key.stopping = true ∧ s.key.stopSince + 100000000 ≤ s.now ∧
      e ∈ s.queues ∧ e.2.run.isSome = true) ∧
    (∃ (s : State) (o : Order) (b : Byte), Sole s o 1 5 Right.w0 ∧ BitVec.toNat b ≤ 1 ∧ o.args = [b] ∧ o.persist = false) ∧
    (∃ (s : State) (o : Order) (b : Byte), Sole s o 1 5 Right.w0 ∧ BitVec.toNat b ≤ 1 ∧ o.args = [b] ∧ o.persist = true) ∧
    (∃ (s : State) (o : Order) (b : Byte), Sole s o 1 6 Right.w0 ∧ BitVec.toNat b ≤ 1 ∧ o.args = [b]) :=
  ⟨⟨sOr (oq 1 4 [1]) (State.reset), oq 1 4 [1], sole0 (by decide +kernel), by decide +kernel⟩,
   ⟨sOr (oq 1 4 [0]) (State.reset), oq 1 4 [0], sole0 (by decide +kernel), by decide +kernel⟩,
   ⟨{ State.reset with key := { stopping := true }, queues := [(1, { ctl := 1 })] }, by decide +kernel⟩,
   ⟨{ sE entry0 with now := 99999999, key := { stopping := true } }, ⟨_, List.mem_cons_self .., by decide +kernel⟩, by decide +kernel⟩,
   ⟨{ sE entry0 with now := 100000000, key := { stopping := true } }, (0, { ctl := 0xC0000000, run := some entry0 }), ⟨_, List.mem_cons_self .., by decide +kernel⟩, by decide +kernel⟩,
   ⟨sOr (oq 1 5 [1]) (State.reset), oq 1 5 [1], 1, sole0 (by decide +kernel), by decide +kernel⟩,
   ⟨sOr { oq 1 5 [1] with persist := true } (State.reset), { oq 1 5 [1] with persist := true }, 1, sole0 (by decide +kernel), by decide +kernel⟩,
   ⟨sOr (oq 1 6 [0]) (State.reset), oq 1 6 [0], 0, sole0 (by decide +kernel), by decide +kernel⟩⟩

theorem witness_SystemOrdersRun_c :
    (∃ (s : State) (o : Order) (b : Byte), Sole s o 1 7 Right.r ∧ BitVec.toNat b ≤ 1 ∧ o.args = [b] ∧
      newest (areaOf s (s.rst.slot ^^ decide (b = 1))) = none) ∧
    (∃ (s : State) (o : Order), Sole s o 2 1 Right.w ∧ (arg o 0 2 < 1200 ∨ 3000 < arg o 0 2 ∨ arg o 2 2 < 60 ∨ 220 < arg o 2 2 ∨ 1 < arg o 4 1) ∧
      o.args.length = 5) ∧
    (∃ (s : State) (o : Order), Sole s o 2 1 Right.w ∧ o.args.length = 5 ∧ 1200 ≤ arg o 0 2 ∧ arg o 0 2 ≤ 3000 ∧ 60 ≤ arg o 2 2 ∧ arg o 2 2 ≤ 220 ∧
      arg o 4 1 ≤ 1) ∧
    (∃ (s : State) (o : Order), Sole s o 2 2 Right.w ∧ (56 < arg o 1 1 ∨ arg o 1 1 < arg o 0 1) ∧ o.args.length = 2) ∧
    (∃ (s : State) (o : Order), Sole s o 2 2 Right.w ∧ o.args.length = 2 ∧ arg o 1 1 ≤ 56 ∧ arg o 0 1 ≤ arg o 1 1) ∧
    (∃ (s : State) (o : Order), Sole s o 2 3 Right.w ∧
      (64 ≤ arg o 0 1 ∧ arg o 0 1 < 80 ∨ 80 ≤ arg o 0 1 ∧ arg o 0 1 < 96 ∧ arg o 1 1 = 0 ∧ stackRetired s (arg o 0 1 - 80) = false) ∧
      o.args.length = 2 ∧ arg o 0 1 ≤ 107 ∧ arg o 1 1 ≤ 1) ∧
    (∃ (s : State) (o : Order), Sole s o 2 3 Right.w ∧ o.args.length = 2 ∧ arg o 0 1 ≤ 107 ∧ arg o 1 1 ≤ 1 ∧ arg o 0 1 < 64 ∧ arg o 1 1 = 0 ∧
      (getDom s (arg o 0 1)).st = DomState.on) ∧
    (∃ (s : State) (o : Order), Sole s o 2 3 Right.w ∧ o.args.length = 2 ∧ arg o 0 1 ≤ 107 ∧ arg o 1 1 ≤ 1 ∧ arg o 0 1 < 64 ∧ arg o 1 1 = 1 ∧
      (getDom s (arg o 0 1)).st = DomState.off) :=
  ⟨⟨sOr (oq 1 7 [1]) (State.reset), oq 1 7 [1], 1, sole0 (by decide +kernel), by decide +kernel⟩,
   ⟨sOr (oq 2 1 [184, 11, 221, 0, 1]) (State.reset), oq 2 1 [184, 11, 221, 0, 1], sole0 (by decide +kernel), .inr (.inr (.inr (.inl (by decide +kernel)))), by decide +kernel⟩,
   ⟨sOr (oq 2 1 [184, 11, 60, 0, 1]) (State.reset), oq 2 1 [184, 11, 60, 0, 1], sole0 (by decide +kernel), by decide +kernel⟩,
   ⟨sOr (oq 2 2 [0, 57]) (State.reset), oq 2 2 [0, 57], sole0 (by decide +kernel), .inl (by decide +kernel), by decide +kernel⟩,
   ⟨sOr (oq 2 2 [56, 56]) (State.reset), oq 2 2 [56, 56], sole0 (by decide +kernel), by decide +kernel⟩,
   ⟨sOr (oq 2 3 [95, 0]) (State.reset), oq 2 3 [95, 0], sole0 (by decide +kernel), .inr (by decide +kernel), by decide +kernel⟩,
   ⟨sOr (oq 2 3 [63, 0]) (State.reset), oq 2 3 [63, 0], sole0 (by decide +kernel), by decide +kernel⟩,
   ⟨sOr (oq 2 3 [63, 1]) (sD 63 { st := .off, target := false }), oq 2 3 [63, 1], sole0 (by decide +kernel), by decide +kernel⟩⟩

theorem witness_SystemOrdersRun_d :
    (∃ (s : State) (o : Order), Sole s o 2 3 Right.w ∧ o.args.length = 2 ∧ arg o 0 1 ≤ 107 ∧ arg o 1 1 ≤ 1 ∧ arg o 0 1 < 64 ∧ arg o 1 1 = 1 ∧
      (getDom s (arg o 0 1)).st = DomState.waiting) ∧
    (∃ (s : State) (o : Order), Sole s o 2 3 Right.w ∧
      ((getDom s (arg o 0 1)).st = DomState.poweringUp ∨ (getDom s (arg o 0 1)).st = DomState.poweringDown) ∧ o.args.length = 2 ∧ arg o 0 1 ≤ 107 ∧
      arg o 1 1 ≤ 1 ∧ arg o 0 1 < 64) ∧
    (∃ (s : State) (o : Order), Sole s o 2 4 Right.r ∧ o.args = []) ∧
    (∃ (s : State) (o : Order), Sole s o 3 1 Right.w ∧ o.args.length = 4) ∧
    (∃ (s : State) (o : Order) (i : Nat), Sole s o 3 2 Right.r ∧ o.args = [] ∧ i < 74) ∧
    (∃ (s : State) (o : Order) (b : Byte), Sole s o 4 1 Right.w ∧ BitVec.toNat b ≤ 1 ∧ o.args = [b] ∧ o.persist = false) ∧
    (∃ (s : State) (o : Order) (b : Byte), Sole s o 4 1 Right.w ∧ BitVec.toNat b ≤ 1 ∧ o.args = [b] ∧ o.persist = true) ∧
    (∃ (s : State) (o : Order), Sole s o 4 2 Right.w ∧ o.args.length = 3 ∧ arg o 0 1 ≤ 7 ∧ arg o 1 1 ≤ 7 ∧ arg o 2 1 ≤ 3 ∧
      bt (getTower s (arg o 0 1)).part (16 + arg o 1 1) = true) :=
  ⟨⟨sOr (oq 2 3 [63, 1]) (sD 63 { st := .waiting }), oq 2 3 [63, 1], sole0 (by decide +kernel), by decide +kernel⟩,
   ⟨sOr (oq 2 3 [63, 0]) (sD 63 { st := .poweringUp }), oq 2 3 [63, 0], sole0 (by decide +kernel), .inl (by decide +kernel), by decide +kernel⟩,
   ⟨sOr (oq 2 4 []) (State.reset), oq 2 4 [], sole0 (by decide +kernel), by decide +kernel⟩,
   ⟨sOr (oq 3 1 [0, 0, 1, 0]) (State.reset), oq 3 1 [0, 0, 1, 0], sole0 (by decide +kernel), by decide +kernel⟩,
   ⟨sOr (oq 3 2 []) (State.reset), oq 3 2 [], 73, sole0 (by decide +kernel), by decide +kernel⟩,
   ⟨sOr (oq 4 1 [1]) (State.reset), oq 4 1 [1], 1, sole0 (by decide +kernel), by decide +kernel⟩,
   ⟨sOr { oq 4 1 [1] with persist := true } (State.reset), { oq 4 1 [1] with persist := true }, 1, sole0 (by decide +kernel), by decide +kernel⟩,
   ⟨sOr (oq 4 2 [7, 7, 3]) (sT { part := 0x800000 }), oq 4 2 [7, 7, 3], sole0 (by decide +kernel), by decide +kernel⟩⟩

theorem witness_SystemOrdersRun_e :
    (∃ (s : State) (o : Order), Sole s o 4 2 Right.w ∧ o.args.length = 3 ∧ arg o 0 1 ≤ 7 ∧ arg o 1 1 ≤ 7 ∧ arg o 2 1 ≤ 3 ∧
      bt (getTower s (arg o 0 1)).part (16 + arg o 1 1) = false ∧ qKind s (arg o 0 1) (arg o 1 1) ≠ 2 ∧ o.persist = false ∧ arg o 2 1 = 3) ∧
    (∃ (s : State) (o : Order), Sole s o 4 2 Right.w ∧ o.args.length = 3 ∧ arg o 0 1 ≤ 7 ∧ arg o 1 1 ≤ 7 ∧ arg o 2 1 ≤ 3 ∧
      bt (getTower s (arg o 0 1)).part (16 + arg o 1 1) = false ∧ qKind s (arg o 0 1) (arg o 1 1) ≠ 2 ∧ o.persist = false ∧ arg o 2 1 ≠ 3) ∧
    (∃ (s : State) (o : Order), Sole s o 4 3 Right.r ∧ o.args.length = 4 ∧ 1 ≤ arg o 2 2 ∧ arg o 2 2 ≤ 500 ∧ arg o 0 2 + arg o 2 2 ≤ 512) ∧
    (∃ (s : State) (o : Order), Sole s o 5 1 Right.w ∧ o.args.length = 3 ∧ arg o 0 2 ≤ 511 ∧ s.span.routeEn = true) ∧
    (∃ (s : State) (o : Order), Sole s o 5 1 Right.w ∧ o.args.length = 3 ∧ arg o 0 2 ≤ 511 ∧ s.span.routeEn = false) ∧
    (∃ (s : State) (o : Order) (view : View) (p : Nat), Sole s o 5 2 Right.w ∧ o.args.length = 18 ∧ (∀ b ∈ o.args, b &&& 124 = 0) ∧
      isDriver s view = true ∧ p < 18) ∧
    (∃ (s : State) (o : Order) (view : View), Sole s o 5 2 Right.w ∧ o.args.length = 18 ∧ (∀ b ∈ o.args, b &&& 124 = 0) ∧ isDriver s view = true ∧
      o.persist = false) ∧
    (∃ (s : State) (o : Order) (view : View), Sole s o 5 3 Right.w ∧ o.args.length = 4 ∧ isDriver s view = true ∧ o.persist = false) :=
  ⟨⟨sOr (oq 4 2 [7, 7, 3]) (State.reset), oq 4 2 [7, 7, 3], sole0 (by decide +kernel), by decide +kernel⟩,
   ⟨sOr (oq 4 2 [7, 7, 0]) (State.reset), oq 4 2 [7, 7, 0], sole0 (by decide +kernel), by decide +kernel⟩,
   ⟨sOr (oq 4 3 [12, 0, 244, 1]) (State.reset), oq 4 3 [12, 0, 244, 1], sole0 (by decide +kernel), by decide +kernel⟩,
   ⟨sOr (oq 5 1 [255, 1, 255]) (sSp { routeEn := true }), oq 5 1 [255, 1, 255], sole0 (by decide +kernel), by decide +kernel⟩,
   ⟨sOr (oq 5 1 [255, 1, 255]) (State.reset), oq 5 1 [255, 1, 255], sole0 (by decide +kernel), by decide +kernel⟩,
   ⟨sOr (oq 5 2 (List.replicate 18 0x83)) (State.reset), oq 5 2 (List.replicate 18 0x83), .mason, 17, sole0 (by decide +kernel), by decide +kernel⟩,
   ⟨sOr (oq 5 2 (List.replicate 18 0x83)) (State.reset), oq 5 2 (List.replicate 18 0x83), .mason, sole0 (by decide +kernel), by decide +kernel⟩,
   ⟨sOr (oq 5 3 [1, 2, 3, 4]) (State.reset), oq 5 3 [1, 2, 3, 4], .mason, sole0 (by decide +kernel), by decide +kernel⟩⟩

theorem witness_SystemOrdersRun_f :
    (∃ (s : State) (o : Order) (l : Nat), Sole s o 5 4 Right.w ∧ o.args.length = 1 ∧ arg o 0 1 ≤ 17 ∧ l < 8) ∧
    (∃ (s : State) (o : Order), Sole s o 5 5 Right.w0 ∧ (∀ p ∈ s.key.pending, p.mb ≠ o.mb) ∧ arg o 0 2 ≤ 511 ∧ arg o 7 1 = 0 ∧ arg o 3 1 = 0 ∧
      o.args.length = 8) ∧
    (∃ (s : State) (o : Order), Sole s o 5 6 Right.w ∧ (s.span.rtbusy = true ∨ s.span.actep = decide (arg o 1 1 = 1)) ∧ arg o 0 1 ≤ 1 ∧
      arg o 1 1 ≤ 1 ∧ 1 ≤ arg o 4 2 ∧ arg o 4 2 ≤ 224 ∧ arg o 6 2 = 0 ∧ arg o 2 2 + arg o 4 2 ≤ 256 * (arg o 0 1 + 1) ∧
      o.args.length = 8 + 4 * arg o 4 2) ∧
    (∃ (s : State) (o : Order) (i : Nat), Sole s o 5 6 Right.w ∧ arg o 0 1 ≤ 1 ∧ arg o 1 1 ≤ 1 ∧ 1 ≤ arg o 4 2 ∧ arg o 4 2 ≤ 224 ∧ arg o 6 2 = 0 ∧
      arg o 2 2 + arg o 4 2 ≤ 256 * (arg o 0 1 + 1) ∧ o.args.length = 8 + 4 * arg o 4 2 ∧ s.span.rtbusy = false ∧
      s.span.actep ≠ decide (arg o 1 1 = 1) ∧ arg o 0 1 = 0 ∧ i < arg o 4 2) ∧
    (∃ (s : State) (o : Order) (i : Nat), Sole s o 5 6 Right.w ∧ arg o 0 1 ≤ 1 ∧ arg o 1 1 ≤ 1 ∧ 1 ≤ arg o 4 2 ∧ arg o 4 2 ≤ 224 ∧ arg o 6 2 = 0 ∧
      arg o 2 2 + arg o 4 2 ≤ 256 * (arg o 0 1 + 1) ∧ o.args.length = 8 + 4 * arg o 4 2 ∧ s.span.rtbusy = false ∧
      s.span.actep ≠ decide (arg o 1 1 = 1) ∧ arg o 0 1 = 1 ∧ i < arg o 4 2) ∧
    (∃ (s : State) (o : Order), Sole s o 5 7 Right.w ∧ o.args.length = 8 ∧ s.span.rtbusy = true) ∧
    (∃ (s : State) (o : Order) (view : View), Sole s o 5 7 Right.w ∧ o.args.length = 8 ∧ s.span.rtbusy = false ∧ isDriver s view = true) ∧
    (∃ (s : State) (o : Order), Sole s o 5 8 Right.w ∧ o.args.length = 2 ∧ arg o 0 1 ≤ 1 ∧ BitVec.ofNat 8 (arg o 1 1) ≠ s.span.protoImpl ∧
      BitVec.ofNat 8 (arg o 1 1) ≠ s.span.protoImpl - 1) :=
  ⟨⟨sOr (oq 5 4 [17]) (State.reset), oq 5 4 [17], 7, sole0 (by decide +kernel), by decide +kernel⟩,
   ⟨sOr (oq 5 5 [255, 1, 7, 0, 0, 0, 1, 0]) (State.reset), oq 5 5 [255, 1, 7, 0, 0, 0, 1, 0], sole0 (by decide +kernel), by decide +kernel⟩,
   ⟨sOr (oq 5 6 [0, 1, 0, 0, 1, 0, 0, 0, 1, 2, 3, 4]) (sSp { rtbusy := true }), oq 5 6 [0, 1, 0, 0, 1, 0, 0, 0, 1, 2, 3, 4], sole0 (by decide +kernel), .inl rfl, by decide +kernel⟩,
   ⟨sOr (oq 5 6 [0, 1, 255, 0, 1, 0, 0, 0, 1, 2, 3, 4]) (State.reset), oq 5 6 [0, 1, 255, 0, 1, 0, 0, 0, 1, 2, 3, 4], 0, sole0 (by decide +kernel), by decide +kernel⟩,
   ⟨sOr (oq 5 6 [1, 1, 255, 1, 1, 0, 0, 0, 1, 2, 3, 4]) (State.reset), oq 5 6 [1, 1, 255, 1, 1, 0, 0, 0, 1, 2, 3, 4], 0, sole0 (by decide +kernel), by decide +kernel⟩,
   ⟨sOr (oq 5 7 [0, 0, 0, 0, 0, 0, 0, 0]) (sSp { rtbusy := true }), oq 5 7 [0, 0, 0, 0, 0, 0, 0, 0], sole0 (by decide +kernel), by decide +kernel⟩,
   ⟨sOr (oq 5 7 [1, 0, 0, 0, 0, 0, 0, 0]) (State.reset), oq 5 7 [1, 0, 0, 0, 0, 0, 0, 0], .mason, sole0 (by decide +kernel), by decide +kernel⟩,
   ⟨sOr (oq 5 8 [1, 7]) (State.reset), oq 5 8 [1, 7], sole0 (by decide +kernel), by decide +kernel⟩⟩

theorem witness_SystemOrdersRun_g :
    (∃ (s : State) (o : Order) (view : View), Sole s o 5 8 Right.w ∧
      (BitVec.ofNat 8 (arg o 1 1) = s.span.protoImpl ∨ BitVec.ofNat 8 (arg o 1 1) = s.span.protoImpl - 1) ∧ o.args.length = 2 ∧ arg o 0 1 ≤ 1 ∧
      isDriver s view = true ∧ arg o 0 1 = 1 ∧ bt s.span.id 31 = false) ∧
    (∃ (s : State) (o : Order) (view : View), Sole s o 5 8 Right.w ∧
      (BitVec.ofNat 8 (arg o 1 1) = s.span.protoImpl ∨ BitVec.ofNat 8 (arg o 1 1) = s.span.protoImpl - 1) ∧
      (arg o 0 1 = 0 ∨ bt s.span.id 31 = true) ∧ o.args.length = 2 ∧ arg o 0 1 ≤ 1 ∧ isDriver s view = true) ∧
    (∃ (s : State) (o : Order), Sole s o 5 9 Right.r ∧ o.args = []) :=
  ⟨⟨sOr (oq 5 8 [1, 255]) (State.reset), oq 5 8 [1, 255], .mason, sole0 (by decide +kernel), .inr (by decide +kernel), by decide +kernel⟩,
   ⟨sOr (oq 5 8 [0, 255]) (State.reset), oq 5 8 [0, 255], .mason, sole0 (by decide +kernel), .inr (by decide +kernel), .inl (by decide +kernel), by decide +kernel⟩,
   ⟨sOr (oq 5 9 []) (State.reset), oq 5 9 [], sole0 (by decide +kernel), by decide +kernel⟩⟩

theorem witness_MaintenanceOrdersRun_a :
    (∃ (s : State) (o : Order) (b : Byte), Sole s o 6 1 Right.r ∧ o.args = [b] ∧ 2 < BitVec.toNat b) ∧
    (∃ (s : State) (o : Order) (b : Byte), Sole s o 6 1 Right.r ∧ o.args = [b] ∧ BitVec.toNat b ≤ 2) ∧
    (∃ (s : State) (o : Order) (a : Byte) (b : Byte), Sole s o 6 2 Right.w ∧
      (7 < BitVec.toNat a ∨ BitVec.toInt b < -25 ∨ 25 < BitVec.toInt b ∨ BitVec.toInt b % 5 ≠ 0) ∧ o.args = [a, b]) ∧
    (∃ (s : State) (o : Order) (a : Byte) (b : Byte) (i : Nat), Sole s o 6 2 Right.w ∧ o.args = [a, b] ∧ BitVec.toNat a ≤ 7 ∧ -25 ≤ BitVec.toInt b ∧
      BitVec.toInt b ≤ 25 ∧ BitVec.toInt b % 5 = 0 ∧ i ≠ BitVec.toNat a) ∧
    (∃ (s : State) (o : Order), Sole s o 6 3 Right.w ∧ (17 < arg o 0 1 ∨ arg o 1 1 ≠ 0) ∧ o.args.length = 4) ∧
    (∃ (s : State) (o : Order) (i : Nat), Sole s o 6 3 Right.w ∧ o.args.length = 4 ∧ arg o 0 1 ≤ 17 ∧ arg o 1 1 = 0 ∧ i ≠ arg o 0 1) ∧
    (∃ (s : State) (o : Order), Sole s o 6 4 Right.w ∧ o.args.length = 2 ∧ 511 < arg o 0 2 ∧ arg o 0 2 ≠ 65535) ∧
    (∃ (s : State) (o : Order), Sole s o 6 4 Right.w ∧ (arg o 0 2 ≤ 511 ∨ arg o 0 2 = 65535) ∧ o.args.length = 2 ∧ o.offline = true ∧
      s.key.stopped = false ∧ s.key.stopping = false) :=
  ⟨⟨sOr (oq 6 1 [3]) (State.reset), oq 6 1 [3], 3, sole0 (by decide +kernel), by decide +kernel⟩,
   ⟨sOr (oq 6 1 [2]) (State.reset), oq 6 1 [2], 2, sole0 (by decide +kernel), by decide +kernel⟩,
   ⟨sOr (oq 6 2 [7, 26]) (State.reset), oq 6 2 [7, 26], 7, 26, sole0 (by decide +kernel), .inr (.inr (.inl (by decide +kernel))), by decide +kernel⟩,
   ⟨sOr (oq 6 2 [7, 231]) (State.reset), oq 6 2 [7, 231], 7, 231, 0, sole0 (by decide +kernel), by decide +kernel⟩,
   ⟨sOr (oq 6 3 [18, 0, 0, 0]) (State.reset), oq 6 3 [18, 0, 0, 0], sole0 (by decide +kernel), .inl (by decide +kernel), by decide +kernel⟩,
   ⟨sOr (oq 6 3 [17, 0, 255, 255]) (State.reset), oq 6 3 [17, 0, 255, 255], 0, sole0 (by decide +kernel), by decide +kernel⟩,
   ⟨sOr (oq 6 4 [0, 2]) (State.reset), oq 6 4 [0, 2], sole0 (by decide +kernel), by decide +kernel⟩,
   ⟨sOr { oq 6 4 [255, 1] with offline := true } (State.reset), { oq 6 4 [255, 1] with offline := true }, sole0 (by decide +kernel), .inl (by decide +kernel), by decide +kernel⟩⟩

theorem witness_MaintenanceOrdersRun_b :
    (∃ (s : State) (o : Order) (c : Nat), Sole s o 6 4 Right.w ∧ (arg o 0 2 ≤ 511 ∨ arg o 0 2 = 65535) ∧ (o.offline = false ∨ s.key.stopped = true) ∧
      o.args.length = 2 ∧ (∀ p ∈ s.key.pending, p.mb ≠ o.mb) ∧ c < 512) ∧
    (∃ (s : State), (∀ p ∈ s.key.pending, ¬(p.group = 6 ∧ p.verb = 4))) ∧
    (∃ (s : State) (o : Order), (arg o 0 2 ≤ 511 ∨ arg o 0 2 = 65535) ∧
      (∃ c < 512, (arg o 0 2 = 65535 ∨ arg o 0 2 = c) ∧ chState s c ≠ 1 ∧ ((getHbm s c).recalWait = true ∨ (getHbm s c).recal ≠ 0 ∨ (getHbm s c).lastRecal < o.since)) ∧
      s.key.pending = [o] ∧ o.group = 6 ∧ o.verb = 4 ∧ s.key.batchDone = []) ∧
    (∃ (s : State) (o : Order), (arg o 0 2 ≤ 511 ∨ arg o 0 2 = 65535) ∧ s.key.pending = [o] ∧ o.group = 6 ∧ o.verb = 4 ∧ s.key.batchDone = [] ∧
      (∀ c < 512, arg o 0 2 = 65535 ∨ arg o 0 2 = c → chState s c ≠ 1 → (getHbm s c).recalWait = false ∧ (getHbm s c).recal = 0 ∧ o.since ≤ (getHbm s c).lastRecal)) ∧
    (∃ (s : State) (o : Order) (i : Nat), Sole s o 6 5 Right.w0 ∧ o.args = [] ∧ i < 8) ∧
    (∃ (s : State) (o : Order) (p : Nat), Sole s o 6 5 Right.w0 ∧ o.args = [] ∧ p < 18) ∧
    (∃ (s : State) (o : Order) (b : Bool), Sole s o 7 1 Right.w ∧
      (arg o 0 4 % 64 ≠ 0 ∨ arg o 4 4 % 64 ≠ 0 ∨ arg o 4 4 < 64 ∨ 896 < arg o 4 4 ∨ 16773120 < arg o 0 4 + arg o 4 4) ∧
      (b = if s.rst.recovery = true then false else !s.rst.slot) ∧ o.args.length = 8 + arg o 4 4) ∧
    (∃ (s : State) (ok : Bool) (o : Order) (b : Bool), Sole s o 7 1 Right.w ∧ (ok = false ∨ s.store.flashOk = false) ∧
      (b = if s.rst.recovery = true then false else !s.rst.slot) ∧ o.args.length = 8 + arg o 4 4 ∧ arg o 0 4 % 64 = 0 ∧ arg o 4 4 % 64 = 0 ∧
      64 ≤ arg o 4 4 ∧ arg o 4 4 ≤ 896 ∧ arg o 0 4 + arg o 4 4 ≤ 16773120) :=
  ⟨⟨sOr (oq 6 4 [255, 255]) (State.reset), oq 6 4 [255, 255], 511, sole0 (by decide +kernel), .inr (by decide +kernel), .inl rfl, by decide +kernel⟩,
   ⟨State.reset, by decide +kernel⟩,
   ⟨sKy { pending := [{ oq 6 4 [255, 1] with since := 1 }] }, { oq 6 4 [255, 1] with since := 1 }, .inl (by decide +kernel), ⟨511, by decide +kernel, .inr (by decide +kernel), by decide +kernel, .inr (.inr (by decide +kernel))⟩, by decide +kernel⟩,
   ⟨sKy { pending := [oq 6 4 [255, 255]] }, oq 6 4 [255, 255], .inr (by decide +kernel), by decide +kernel⟩,
   ⟨sOr (oq 6 5 []) (State.reset), oq 6 5 [], 7, sole0 (by decide +kernel), by decide +kernel⟩,
   ⟨sOr (oq 6 5 []) (State.reset), oq 6 5 [], 17, sole0 (by decide +kernel), by decide +kernel⟩,
   ⟨sOr (oq 7 1 (toLe 4 32 ++ toLe 4 64 ++ List.replicate 64 1)) (State.reset), oq 7 1 (toLe 4 32 ++ toLe 4 64 ++ List.replicate 64 1), true, sole0 (by decide +kernel), .inl (by decide +kernel), by decide +kernel⟩,
   ⟨sOr (oq 7 1 (toLe 4 0 ++ toLe 4 64 ++ List.replicate 64 1)) (State.reset), false, oq 7 1 (toLe 4 0 ++ toLe 4 64 ++ List.replicate 64 1), true, sole0 (by decide +kernel), .inl rfl, by decide +kernel⟩⟩

theorem witness_MaintenanceOrdersRun_c :
    (∃ (s : State) (ok : Bool) (o : Order) (b : Bool) (i : Nat), Sole s o 7 1 Right.w ∧ (b = if s.rst.recovery = true then false else !s.rst.slot) ∧
      o.args.length = 8 + arg o 4 4 ∧ arg o 0 4 % 64 = 0 ∧ arg o 4 4 % 64 = 0 ∧ 64 ≤ arg o 4 4 ∧ arg o 4 4 ≤ 896 ∧ arg o 0 4 + arg o 4 4 ≤ 16773120 ∧
      ok = true ∧ s.store.flashOk = true ∧ i < arg o 4 4) ∧
    (∃ (s : State) (ok : Bool) (o : Order) (b : Bool) (a : Nat), Sole s o 7 1 Right.w ∧ (a < arg o 0 4 ∨ arg o 0 4 + arg o 4 4 ≤ a) ∧
      (reaches (arg o 0 4) (arg o 4 4) ((4096 + a) / 65536) ∧ (arg o 0 4 = 0 ∨ (4096 + a) / 65536 ∉ (slotOf s b).erased)) ∧
      (b = if s.rst.recovery = true then false else !s.rst.slot) ∧ o.args.length = 8 + arg o 4 4 ∧ arg o 0 4 % 64 = 0 ∧ arg o 4 4 % 64 = 0 ∧
      64 ≤ arg o 4 4 ∧ arg o 4 4 ≤ 896 ∧ arg o 0 4 + arg o 4 4 ≤ 16773120 ∧ ok = true ∧ s.store.flashOk = true) ∧
    (∃ (s : State) (ok : Bool) (o : Order) (b : Bool) (a : Nat), Sole s o 7 1 Right.w ∧ (a < arg o 0 4 ∨ arg o 0 4 + arg o 4 4 ≤ a) ∧
      (¬(reaches (arg o 0 4) (arg o 4 4) ((4096 + a) / 65536) ∧ (arg o 0 4 = 0 ∨ (4096 + a) / 65536 ∉ (slotOf s b).erased))) ∧
      (b = if s.rst.recovery = true then false else !s.rst.slot) ∧ o.args.length = 8 + arg o 4 4 ∧ arg o 0 4 % 64 = 0 ∧ arg o 4 4 % 64 = 0 ∧
      64 ≤ arg o 4 4 ∧ arg o 4 4 ≤ 896 ∧ arg o 0 4 + arg o 4 4 ≤ 16773120 ∧ ok = true ∧ s.store.flashOk = true) ∧
    (∃ (s : State) (dig : Bool) (sig : Bool) (o : Order) (b : Bool), Sole s o 7 2 Right.w ∧ (dig = false ∨ sig = false ∨ s.key.calDefault = true) ∧
      (b = if s.rst.recovery = true then false else !s.rst.slot) ∧ o.args.length = 160) ∧
    (∃ (s : State) (dig : Bool) (sig : Bool) (ok : Bool) (o : Order) (b : Bool), Sole s o 7 2 Right.w ∧ (ok = false ∨ s.store.flashOk = false) ∧
      (b = if s.rst.recovery = true then false else !s.rst.slot) ∧ o.args.length = 160 ∧ dig = true ∧ sig = true ∧ s.key.calDefault = false) ∧
    (∃ (s : State) (dig : Bool) (sig : Bool) (ok : Bool) (o : Order) (b : Bool), Sole s o 7 2 Right.w ∧
      (b = if s.rst.recovery = true then false else !s.rst.slot) ∧ o.args.length = 160 ∧ dig = true ∧ sig = true ∧ s.key.calDefault = false ∧
      ok = true ∧ s.store.flashOk = true) ∧
    (∃ (s : State) (o : Order) (b : Bool), Sole s o 7 3 Right.w ∧
      ((slotOf s b).header = none ∨ (slotOf s b).sealedOk = false ∨ s.key.trial = true ∨ s.rst.recovery = true ∧ arg o 0 1 = 1) ∧
      (b = if s.rst.recovery = true then false else !s.rst.slot) ∧ o.args.length = 2 ∧ arg o 0 1 ≤ 1 ∧ arg o 1 1 ≤ 1) ∧
    (∃ (s : State) (o : Order) (b : Bool), Sole s o 7 3 Right.w ∧ (b = if s.rst.recovery = true then false else !s.rst.slot) ∧ o.args.length = 2 ∧
      arg o 0 1 ≤ 1 ∧ arg o 1 1 ≤ 1 ∧ (slotOf s b).header ≠ none ∧ (slotOf s b).sealedOk = true ∧ s.key.trial = false ∧
      ¬(s.rst.recovery = true ∧ arg o 0 1 = 1)) :=
  ⟨⟨sOr (oq 7 1 (toLe 4 16772224 ++ toLe 4 896 ++ List.replicate 896 1)) (State.reset), true, oq 7 1 (toLe 4 16772224 ++ toLe 4 896 ++ List.replicate 896 1), true, 895, sole0 (by decide +kernel), by decide +kernel⟩,
   ⟨sOr (oq 7 1 (toLe 4 0 ++ toLe 4 64 ++ List.replicate 64 1)) (State.reset), true, oq 7 1 (toLe 4 0 ++ toLe 4 64 ++ List.replicate 64 1), true, 64, sole0 (by decide +kernel), .inr (by decide +kernel), (by unfold reaches; decide), by decide +kernel⟩,
   ⟨sOr (oq 7 1 (toLe 4 0 ++ toLe 4 64 ++ List.replicate 64 1)) (State.reset), true, oq 7 1 (toLe 4 0 ++ toLe 4 64 ++ List.replicate 64 1), true, 61440, sole0 (by decide +kernel), .inr (by decide +kernel), (by unfold reaches; decide), by decide +kernel⟩,
   ⟨sOr (oq 7 2 (List.replicate 160 1)) (State.reset), false, false, oq 7 2 (List.replicate 160 1), true, sole0 (by decide +kernel), .inl rfl, by decide +kernel⟩,
   ⟨sOr (oq 7 2 (List.replicate 160 1)) (State.reset), true, true, false, oq 7 2 (List.replicate 160 1), true, sole0 (by decide +kernel), .inl rfl, by decide +kernel⟩,
   ⟨sOr (oq 7 2 (List.replicate 160 1)) (State.reset), true, true, true, oq 7 2 (List.replicate 160 1), true, sole0 (by decide +kernel), by decide +kernel⟩,
   ⟨sOr (oq 7 3 [1, 1]) (State.reset), oq 7 3 [1, 1], true, sole0 (by decide +kernel), .inl (by decide +kernel), by decide +kernel⟩,
   ⟨sOr (oq 7 3 [1, 1]) ({ State.reset with store := { slotB := { header := some [], sealedOk := true } } }), oq 7 3 [1, 1], true, sole0 (by decide +kernel), by decide +kernel⟩⟩

theorem witness_MaintenanceOrdersRun_d :
    (∃ (s : State), s.key.handover = false) ∧
    (∃ (s : State) (conv : Bool) (o : Order) (r : SetRec),
      (newest (areaOf s !s.rst.slot) = some r ∧ r.sver.toNat = hdrSver (headerOf s !s.rst.slot) ∨ (∀ (q : SetRec), newest (areaOf s !s.rst.slot) = some q → q.sver.toNat ≠ hdrSver (headerOf s !s.rst.slot)) ∧ newest (areaOf s s.rst.slot) = some r ∧ hdrSmin (headerOf s !s.rst.slot) ≤ r.sver.toNat ∧ r.sver.toNat ≤ hdrSver (headerOf s !s.rst.slot) ∧ conv = true) ∧
      s.key.pending = [o] ∧ o.group = 7 ∧ o.verb = 3 ∧ o.busy = false ∧ s.key.handover = true ∧ s.key.batchDone = []) ∧
    (∃ (s : State) (conv : Bool) (o : Order) (r : SetRec),
      (∀ (q : SetRec), newest (areaOf s !s.rst.slot) = some q → q.sver.toNat ≠ hdrSver (headerOf s !s.rst.slot)) ∧
      (r.sver.toNat < hdrSmin (headerOf s !s.rst.slot) ∨ hdrSver (headerOf s !s.rst.slot) < r.sver.toNat ∨ conv = false) ∧ s.key.pending = [o] ∧
      o.group = 7 ∧ o.verb = 3 ∧ o.busy = false ∧ s.key.handover = true ∧ s.key.batchDone = [] ∧ newest (areaOf s s.rst.slot) = some r) ∧
    (∃ (s : State) (o : Order), Sole s o 7 4 Right.w ∧ o.args = [] ∧ s.key.trial = false) ∧
    (∃ (s : State) (o : Order), Sole s o 7 4 Right.w ∧ o.args = [] ∧ s.key.trial = true) ∧
    (∃ (s : State), s.key.autoAt = none) ∧
    (∃ (s : State) (x : Nat), (s.key.trial = false ∨ s.now < x) ∧ s.key.autoAt = some x) ∧
    (∃ (s : State) (x : Nat), s.key.autoAt = some x ∧ s.key.trial = true ∧ x ≤ s.now) :=
  ⟨⟨State.reset, by decide +kernel⟩,
   ⟨{ sKy { pending := [oAct], handover := true } with store := { setB := set0 0 } }, false, oAct, { sver := 0, gen := 0, val := {} }, .inl (by decide +kernel), by decide +kernel⟩,
   ⟨{ sKy { pending := [oAct], handover := true } with store := { setA := set0 1 } }, true, oAct, { sver := 1, gen := 0, val := {} }, (fun q h => by cases h), .inr (.inl (by decide +kernel)), by decide +kernel⟩,
   ⟨sOr (oq 7 4 []) (State.reset), oq 7 4 [], sole0 (by decide +kernel), by decide +kernel⟩,
   ⟨sOr (oq 7 4 []) (sKy { trial := true }), oq 7 4 [], sole0 (by decide +kernel), by decide +kernel⟩,
   ⟨State.reset, by decide +kernel⟩,
   ⟨{ sKy { autoAt := some 1000000000, trial := true } with now := 999999999 }, 1000000000, .inr (by decide +kernel), by decide +kernel⟩,
   ⟨{ sKy { autoAt := some 1000000000, trial := true } with now := 1000000000 }, 1000000000, by decide +kernel⟩⟩

theorem witness_MaintenanceOrdersRun_e :
    (∃ (s : State) (o : Order), Sole s o 7 5 Right.r ∧ o.args = [] ∧ (headerOf s false).length = 160 ∧ (headerOf s true).length = 160) ∧
    (∃ (s : State) (o : Order), Sole s o 8 1 Right.r ∧ o.args.length = 6 ∧ arg o 0 1 < 15 ∧ arg o 1 1 = 0 ∧ 1 ≤ arg o 4 2 ∧ arg o 4 2 ≤ 256 ∧
      classSize (arg o 0 1) < arg o 2 2 + arg o 4 2) ∧
    (∃ (s : State) (o : Order), Sole s o 8 1 Right.r ∧ o.args.length = 6 ∧ arg o 0 1 < 15 ∧ arg o 1 1 = 0 ∧ 1 ≤ arg o 4 2 ∧ arg o 4 2 ≤ 256 ∧
      arg o 2 2 + arg o 4 2 ≤ classSize (arg o 0 1)) ∧
    (∃ (s : State) (o : Order) (cls : Nat) (i : Nat), Sole s o 8 2 Right.w ∧ (cls ∉ [2, 5, 7, 9, 12, 13] ∨ classSize cls ≤ i) ∧ o.args.length = 4 ∧
      arg o 0 4 / 2 ^ 28 = cls ∧ arg o 0 4 % 2048 = i) ∧
    (∃ (s : State) (o : Order) (cls : Nat) (i : Nat), Sole s o 8 2 Right.w ∧ o.args.length = 4 ∧ arg o 0 4 / 2 ^ 28 = cls ∧ arg o 0 4 % 2048 = i ∧
      cls ∈ [2, 5, 7, 9, 12, 13] ∧ i < classSize cls ∧ cls = 2) ∧
    (∃ (s : State) (o : Order) (cls : Nat) (i : Nat), Sole s o 8 2 Right.w ∧ o.args.length = 4 ∧ arg o 0 4 / 2 ^ 28 = cls ∧ arg o 0 4 % 2048 = i ∧
      cls ∈ [2, 5, 7, 9, 12, 13] ∧ i < classSize cls ∧ cls = 5) ∧
    (∃ (s : State) (o : Order) (cls : Nat) (i : Nat), Sole s o 8 2 Right.w ∧ o.args.length = 4 ∧ arg o 0 4 / 2 ^ 28 = cls ∧ arg o 0 4 % 2048 = i ∧
      cls ∈ [2, 5, 7, 9, 12, 13] ∧ i < classSize cls ∧ cls = 7) ∧
    (∃ (s : State) (o : Order) (cls : Nat) (i : Nat), Sole s o 8 2 Right.w ∧ o.args.length = 4 ∧ arg o 0 4 / 2 ^ 28 = cls ∧ arg o 0 4 % 2048 = i ∧
      cls ∈ [2, 5, 7, 9, 12, 13] ∧ i < classSize cls ∧ cls = 9) :=
  ⟨⟨sOr (oq 7 5 []) (State.reset), oq 7 5 [], sole0 (by decide +kernel), by decide +kernel⟩,
   ⟨sOr (oq 8 1 [2, 0, 0, 1, 1, 0]) (State.reset), oq 8 1 [2, 0, 0, 1, 1, 0], sole0 (by decide +kernel), by decide +kernel⟩,
   ⟨sOr (oq 8 1 [2, 0, 0, 0, 0, 1]) (State.reset), oq 8 1 [2, 0, 0, 0, 0, 1], sole0 (by decide +kernel), by decide +kernel⟩,
   ⟨sOr (oq 8 2 [0, 0, 0, 16]) (State.reset), oq 8 2 [0, 0, 0, 16], 1, 0, sole0 (by decide +kernel), .inl (by decide +kernel), by decide +kernel⟩,
   ⟨sOr (oq 8 2 [255, 0, 0, 32]) (State.reset), oq 8 2 [255, 0, 0, 32], 2, 255, sole0 (by decide +kernel), by decide +kernel⟩,
   ⟨sOr (oq 8 2 [255, 1, 0, 80]) (State.reset), oq 8 2 [255, 1, 0, 80], 5, 511, sole0 (by decide +kernel), by decide +kernel⟩,
   ⟨sOr (oq 8 2 [63, 0, 0, 112]) (State.reset), oq 8 2 [63, 0, 0, 112], 7, 63, sole0 (by decide +kernel), by decide +kernel⟩,
   ⟨sOr (oq 8 2 [175, 1, 0, 144]) (State.reset), oq 8 2 [175, 1, 0, 144], 9, 431, sole0 (by decide +kernel), by decide +kernel⟩⟩

theorem witness_MaintenanceOrdersRun_f :
    (∃ (s : State) (o : Order) (cls : Nat) (i : Nat), Sole s o 8 2 Right.w ∧ o.args.length = 4 ∧ arg o 0 4 / 2 ^ 28 = cls ∧ arg o 0 4 % 2048 = i ∧
      cls ∈ [2, 5, 7, 9, 12, 13] ∧ i < classSize cls ∧ cls = 12) ∧
    (∃ (s : State) (o : Order) (cls : Nat) (i : Nat), Sole s o 8 2 Right.w ∧ o.args.length = 4 ∧ arg o 0 4 / 2 ^ 28 = cls ∧ arg o 0 4 % 2048 = i ∧
      cls ∈ [2, 5, 7, 9, 12, 13] ∧ i < classSize cls ∧ cls = 13) ∧
    (∃ (s : State) (o : Order) (cls : Nat) (i : Nat), Sole s o 8 3 Right.w0 ∧ o.args.length = 4 ∧ arg o 0 4 / 2 ^ 28 = cls ∧ arg o 0 4 % 2048 = i ∧
      i < classSize cls ∧ cls = 10) ∧
    (∃ (s : State) (o : Order) (cls : Nat) (i : Nat), Sole s o 8 3 Right.w0 ∧ o.args.length = 4 ∧ arg o 0 4 / 2 ^ 28 = cls ∧ arg o 0 4 % 2048 = i ∧
      i < classSize cls ∧ cls ≠ 10) ∧
    (∃ (s : State) (o : Order), Sole s o 9 1 Right.w ∧ (3600000 < arg o 0 4 ∨ 15 < arg o 4 1) ∧ o.args.length = 5) ∧
    (∃ (s : State) (o : Order), Sole s o 9 1 Right.w ∧ o.args.length = 5 ∧ arg o 0 4 ≤ 3600000 ∧ arg o 4 1 ≤ 15) ∧
    (∃ (s : State) (o : Order) (cls : Nat) (i : Nat), Sole s o 9 2 Right.w ∧ o.args.length = 4 ∧ arg o 0 4 / 2 ^ 28 = cls ∧ arg o 0 4 % 2048 = i ∧
      i < classSize cls ∧ cls ∈ [0, 3, 4, 6, 8, 11, 13]) ∧
    (∃ (s : State) (o : Order) (cls : Nat) (i : Nat), Sole s o 9 2 Right.w ∧ o.args.length = 4 ∧ arg o 0 4 / 2 ^ 28 = cls ∧ arg o 0 4 % 2048 = i ∧
      i < classSize cls ∧ cls ∈ [1, 7, 10, 14]) :=
  ⟨⟨sOr (oq 8 2 [143, 0, 0, 192]) (State.reset), oq 8 2 [143, 0, 0, 192], 12, 143, sole0 (by decide +kernel), by decide +kernel⟩,
   ⟨sOr (oq 8 2 [17, 0, 0, 208]) (State.reset), oq 8 2 [17, 0, 0, 208], 13, 17, sole0 (by decide +kernel), by decide +kernel⟩,
   ⟨sOr (oq 8 3 [0, 0, 0, 160]) (State.reset), oq 8 3 [0, 0, 0, 160], 10, 0, sole0 (by decide +kernel), by decide +kernel⟩,
   ⟨sOr (oq 8 3 [255, 0, 0, 32]) (State.reset), oq 8 3 [255, 0, 0, 32], 2, 255, sole0 (by decide +kernel), by decide +kernel⟩,
   ⟨sOr (oq 9 1 [129, 238, 54, 0, 15]) (State.reset), oq 9 1 [129, 238, 54, 0, 15], sole0 (by decide +kernel), .inl (by decide +kernel), by decide +kernel⟩,
   ⟨sOr (oq 9 1 [128, 238, 54, 0, 15]) (State.reset), oq 9 1 [128, 238, 54, 0, 15], sole0 (by decide +kernel), by decide +kernel⟩,
   ⟨sOr (oq 9 2 [17, 0, 0, 208]) (State.reset), oq 9 2 [17, 0, 0, 208], 13, 17, sole0 (by decide +kernel), by decide +kernel⟩,
   ⟨sOr (oq 9 2 [0, 0, 0, 224]) (State.reset), oq 9 2 [0, 0, 0, 224], 14, 0, sole0 (by decide +kernel), by decide +kernel⟩⟩

theorem witness_MaintenanceOrdersRun_g :
    (∃ (s : State) (o : Order) (cls : Nat) (i : Nat), Sole s o 9 2 Right.w ∧ ((getCore s i).retiredAgain = true ∨ (getCore s i).mortarGone = true) ∧
      o.args.length = 4 ∧ arg o 0 4 / 2 ^ 28 = cls ∧ arg o 0 4 % 2048 = i ∧ i < classSize cls ∧ cls = 2) ∧
    (∃ (s : State) (o : Order) (cls : Nat) (i : Nat), Sole s o 9 2 Right.w ∧ o.args.length = 4 ∧ arg o 0 4 / 2 ^ 28 = cls ∧ arg o 0 4 % 2048 = i ∧
      i < classSize cls ∧ cls = 12 ∧ laneOf (getPort s (i / 8)) (i % 8) = LaneSt.retired) ∧
    (∃ (s : State) (o : Order) (cls : Nat) (i : Nat), Sole s o 9 2 Right.w ∧
      (cls = 2 ∧ (getCore s i).retiredAgain = false ∧ (getCore s i).mortarGone = false ∨ cls = 5 ∧ bt (getHbm s i).stat 25 = false ∧ (getTower s (i / 64)).retired = false ∨ cls = 12 ∧ laneOf (getPort s (i / 8)) (i % 8) = LaneSt.idle) ∧
      o.args.length = 4 ∧ arg o 0 4 / 2 ^ 28 = cls ∧ arg o 0 4 % 2048 = i ∧ i < classSize cls ∧ o.offline = false ∧
      (∀ p ∈ s.key.pending, p.mb ≠ o.mb) ∧ s.key.test.under = none ∧ s.key.test.queued = []) ∧
    (∃ (s : State) (o : Order) (cls : Nat) (i : Nat) (v : Nat), Sole s o 9 2 Right.w ∧
      (cls = 2 ∧ (getCore s i).retiredAgain = false ∧ (getCore s i).mortarGone = false ∨ cls = 5 ∧ bt (getHbm s i).stat 25 = false ∧ (getTower s (i / 64)).retired = false ∨ cls = 12 ∧ laneOf (getPort s (i / 8)) (i % 8) = LaneSt.idle) ∧
      o.args.length = 4 ∧ arg o 0 4 / 2 ^ 28 = cls ∧ arg o 0 4 % 2048 = i ∧ i < classSize cls ∧ o.offline = false ∧
      (∀ p ∈ s.key.pending, p.mb ≠ o.mb) ∧ s.key.test.under = some v ∧ v ≠ unitCode cls i ∧ s.key.test.queued = []) ∧
    (∃ (s : State) (o : Order) (cls : Nat) (i : Nat), Sole s o 9 2 Right.w ∧
      (cls = 2 ∧ (getCore s i).retiredAgain = false ∧ (getCore s i).mortarGone = false ∨ cls = 5 ∧ bt (getHbm s i).stat 25 = false ∧ (getTower s (i / 64)).retired = false ∨ cls = 12 ∧ laneOf (getPort s (i / 8)) (i % 8) = LaneSt.idle) ∧
      o.args.length = 4 ∧ arg o 0 4 / 2 ^ 28 = cls ∧ arg o 0 4 % 2048 = i ∧ i < classSize cls ∧ o.offline = false ∧
      (∀ p ∈ s.key.pending, p.mb ≠ o.mb) ∧ s.key.test.under = some (unitCode cls i)) ∧
    (∃ (s : State) (o : Order), Sole s o 9 3 Right.r ∧ o.args = []) ∧
    (∃ (s : State), (s.rst.stage = 0 ∨ s.rst.done = false ∨ s.key.test.period = 0 ∨ s.key.test.under ≠ none ∨ s.now < s.key.test.due)) ∧
    (∃ (s : State), 1 ≤ s.rst.stage ∧ s.key.halted = false ∧ s.rst.done = true ∧ m0Only s = false ∧ s.key.test.period ≠ 0 ∧ s.key.test.under = none ∧
      s.key.test.due ≤ s.now ∧ s.key.test.mask = 0) :=
  ⟨⟨sOr (oq 9 2 [255, 0, 0, 32]) ({ State.reset with cores := [(255, { retiredAgain := true })] }), oq 9 2 [255, 0, 0, 32], 2, 255, sole0 (by decide +kernel), .inl (by decide +kernel), by decide +kernel⟩,
   ⟨sOr (oq 9 2 [143, 0, 0, 192]) (sSp { ports := [(17, { lanes := [(7, .retired)] })] }), oq 9 2 [143, 0, 0, 192], 12, 143, sole0 (by decide +kernel), by decide +kernel⟩,
   ⟨sOr (oq 9 2 [255, 1, 0, 80]) (State.reset), oq 9 2 [255, 1, 0, 80], 5, 511, sole0 (by decide +kernel), .inr (.inl (by decide +kernel)), by decide +kernel⟩,
   ⟨sOr (oq 9 2 [255, 0, 0, 32]) (sTe { under := some 4096 }), oq 9 2 [255, 0, 0, 32], 2, 255, 4096, sole0 (by decide +kernel), .inl (by decide +kernel), by decide +kernel⟩,
   ⟨sOr (oq 9 2 [143, 0, 0, 192]) ({ sTe { under := some (unitCode 12 143) } with span := { ports := [(17, { lanes := [(7, .idle)] })] } }), oq 9 2 [143, 0, 0, 192], 12, 143, sole0 (by decide +kernel), .inr (.inr (by decide +kernel)), by decide +kernel⟩,
   ⟨sOr (oq 9 3 []) (State.reset), oq 9 3 [], sole0 (by decide +kernel), by decide +kernel⟩,
   ⟨State.reset, .inl rfl⟩,
   ⟨sTe { mask := 0 }, by decide +kernel⟩⟩

theorem witness_MaintenanceOrdersRun_h :
    (∃ (s : State), 1 ≤ s.rst.stage ∧ s.key.halted = false ∧ s.rst.done = true ∧ m0Only s = false ∧ s.key.test.period ≠ 0 ∧ s.key.test.under = none ∧
      s.key.test.due ≤ s.now ∧ bt s.key.test.mask 0 = true ∧ s.key.test.pos < 256 ∧ (getCore s s.key.test.pos).retiredAgain = false ∧
      (getCore s s.key.test.pos).mortarGone = false) ∧
    (∃ (s : State), s.key.test.under = none) ∧
    (∃ (s : State) (cls : Nat) (i : Nat), s.key.test.under = some (unitCode cls i) ∧ i < 2048 ∧ s.key.test.queued = [] ∧ cls = 2 ∧
      (getCore s i).phase ≠ CorePhase.testing) ∧
    (∃ (s : State) (cls : Nat) (i : Nat) (o : Order), s.key.test.under = some (unitCode cls i) ∧ i < 2048 ∧ s.key.test.queued = [] ∧ cls = 5 ∧
      s.key.pending = [o] ∧ s.key.batchDone = [] ∧ (o.group = 1 → o.verb ≠ 3) ∧ s.key.test.orders = [(unitCode 5 i, o.mb)]) ∧
    (∃ (s : State) (pass : Bool) (cls : Nat) (i : Nat), s.key.test.under = some (unitCode cls i) ∧ i < 2048 ∧ s.key.test.queued = [] ∧ cls = 2 ∧
      (getCore s i).phase = CorePhase.testing ∧ pass = false ∧ s.key.test.wasOut = false) ∧
    (∃ (s : State) (pass : Bool) (cls : Nat) (i : Nat), s.key.test.under = some (unitCode cls i) ∧ i < 2048 ∧ s.key.test.queued = [] ∧ cls = 2 ∧
      (getCore s i).phase = CorePhase.testing ∧ pass = true ∧ s.key.test.wasOut = true ∧ coreFinal (getCore s i) = true) ∧
    (∃ (s : State) (pass : Bool) (cls : Nat) (i : Nat), (s.key.test.wasOut = true ∨ (getCore s i).retired = false) ∧
      s.key.test.under = some (unitCode cls i) ∧ i < 2048 ∧ s.key.test.queued = [] ∧ cls = 2 ∧ (getCore s i).phase = CorePhase.testing ∧
      pass = true ∧ coreFinal (getCore s i) = false ∧ (getDom s (i / 4)).st ≠ DomState.waiting) ∧
    (∃ (s : State) (pass : Bool) (cls : Nat) (i : Nat), (s.key.test.wasOut = true ∨ (getCore s i).retired = false) ∧
      s.key.test.under = some (unitCode cls i) ∧ i < 2048 ∧ s.key.test.queued = [] ∧ cls = 2 ∧ (getCore s i).phase = CorePhase.testing ∧
      pass = true ∧ coreFinal (getCore s i) = false ∧ s.key.test.wasOut = true) :=
  ⟨⟨sTe { pos := 255 }, by decide +kernel⟩,
   ⟨State.reset, by decide +kernel⟩,
   ⟨sTe { under := some (unitCode 2 255) }, 2, 255, by decide +kernel⟩,
   ⟨sKy { test := { under := some (unitCode 5 511), orders := [(unitCode 5 511, 0)] }, pending := [oq 9 2 [255, 1, 0, 80]] }, 5, 511, oq 9 2 [255, 1, 0, 80], by decide +kernel⟩,
   ⟨{ sTe { under := some (unitCode 2 255) } with cores := [(255, { phase := .testing })] }, false, 2, 255, by decide +kernel⟩,
   ⟨{ sTe { under := some (unitCode 2 255), wasOut := true } with cores := [(255, { phase := .testing, retired := true, retiredAgain := true })] }, true, 2, 255, by decide +kernel⟩,
   ⟨{ sTe { under := some (unitCode 2 255) } with cores := [(255, { phase := .testing })] }, true, 2, 255, .inr (by decide +kernel), by decide +kernel⟩,
   ⟨{ sTe { under := some (unitCode 2 255), wasOut := true } with cores := [(255, { phase := .testing, retired := true })] }, true, 2, 255, .inl rfl, by decide +kernel⟩⟩

theorem witness_MaintenanceOrdersRun_i :
    (∃ (s : State) (pass : Bool) (cls : Nat) (i : Nat), s.key.test.under = some (unitCode cls i) ∧ i < 2048 ∧ s.key.test.queued = [] ∧ cls = 9 ∧
      pass = false) ∧
    (∃ (s : State) (o : Order), Sole s o 10 1 Right.w ∧ (17 < arg o 0 1 ∨ 1 < arg o 1 1 ∨ arg o 2 1 < 20 ∨ 200 < arg o 2 1) ∧ o.args.length = 3) ∧
    (∃ (s : State) (o : Order), Sole s o 10 1 Right.w ∧ o.args.length = 3 ∧ arg o 0 1 ≤ 17 ∧ arg o 1 1 ≤ 1 ∧ 20 ≤ arg o 2 1 ∧ arg o 2 1 ≤ 200 ∧
      (getMod s (arg o 0 1)).st = ModState.retired) ∧
    (∃ (s : State) (o : Order) (k : Nat), Sole s o 10 1 Right.w ∧ o.args.length = 3 ∧ arg o 0 1 ≤ 17 ∧ arg o 1 1 ≤ 1 ∧ 20 ≤ arg o 2 1 ∧
      arg o 2 1 ≤ 200 ∧ (getMod s (arg o 0 1)).st ≠ ModState.retired ∧ k ≠ arg o 0 1) ∧
    (∃ (s : State) (o : Order), Sole s o 10 1 Right.w ∧ o.args.length = 3 ∧ arg o 0 1 ≤ 17 ∧ arg o 1 1 ≤ 1 ∧ 20 ≤ arg o 2 1 ∧ arg o 2 1 ≤ 200 ∧
      (getMod s (arg o 0 1)).st ≠ ModState.retired ∧ arg o 1 1 = 1 ∧ (getMod s (arg o 0 1)).en = false) ∧
    (∃ (s : State) (o : Order), Sole s o 10 1 Right.w ∧ o.args.length = 3 ∧ arg o 0 1 ≤ 17 ∧ arg o 1 1 ≤ 1 ∧ 20 ≤ arg o 2 1 ∧ arg o 2 1 ≤ 200 ∧
      (getMod s (arg o 0 1)).st ≠ ModState.retired ∧ arg o 1 1 = 0 ∧ (getMod s (arg o 0 1)).en = true) ∧
    (∃ (s : State) (o : Order), Sole s o 10 1 Right.w ∧ o.args.length = 3 ∧ arg o 0 1 ≤ 17 ∧ arg o 1 1 ≤ 1 ∧ 20 ≤ arg o 2 1 ∧ arg o 2 1 ≤ 200 ∧
      (getMod s (arg o 0 1)).st ≠ ModState.retired ∧ (getMod s (arg o 0 1)).en = decide (arg o 1 1 = 1)) ∧
    (∃ (s : State) (o : Order), Sole s o 10 2 Right.w ∧ o.args.length = 1 ∧ arg o 0 1 ≤ 17) :=
  ⟨⟨sTe { under := some (unitCode 9 431) }, false, 9, 431, by decide +kernel⟩,
   ⟨sOr (oq 10 1 [18, 1, 20]) (State.reset), oq 10 1 [18, 1, 20], sole0 (by decide +kernel), .inl (by decide +kernel), by decide +kernel⟩,
   ⟨sOr (oq 10 1 [17, 1, 20]) (sMo 0 { st := .retired }), oq 10 1 [17, 1, 20], sole0 (by decide +kernel), by decide +kernel⟩,
   ⟨sOr (oq 10 1 [17, 1, 20]) (State.reset), oq 10 1 [17, 1, 20], 0, sole0 (by decide +kernel), by decide +kernel⟩,
   ⟨sOr (oq 10 1 [17, 1, 200]) (State.reset), oq 10 1 [17, 1, 200], sole0 (by decide +kernel), by decide +kernel⟩,
   ⟨sOr (oq 10 1 [17, 0, 200]) (sMo 0 { en := true }), oq 10 1 [17, 0, 200], sole0 (by decide +kernel), by decide +kernel⟩,
   ⟨sOr (oq 10 1 [17, 1, 20]) (sMo 0 { en := true }), oq 10 1 [17, 1, 20], sole0 (by decide +kernel), by decide +kernel⟩,
   ⟨sOr (oq 10 2 [17]) (State.reset), oq 10 2 [17], sole0 (by decide +kernel), by decide +kernel⟩⟩

theorem witness_MaintenanceOrdersRun_j :
    ∃ (s : State) (o : Order), Sole s o 10 3 Right.r ∧ o.args = [] :=
  ⟨sOr (oq 10 3 []) (State.reset), oq 10 3 [], sole0 (by decide +kernel), by decide +kernel⟩

theorem witness_SidebandAndDebugRun_a :
    (∃ (s : State), s.rst.stage = 0) ∧
    (∃ (s : State), 1 ≤ s.rst.stage) ∧
    (∃ (s : State) (d : List Byte), (s.rst.stage = 0 ∨ d.length < 2)) ∧
    (∃ (s : State) (d : List Byte) (m : Nat), 1 ≤ s.rst.stage ∧ 2 ≤ d.length ∧ m ≠ 0) ∧
    (∃ (s : State) (d : List Byte), 1 ≤ s.rst.stage ∧ 2 ≤ d.length ∧ d.length < 6) ∧
    (∃ (s : State) (off : Nat) (d : List Byte) (i : Nat), 1 ≤ s.rst.stage ∧ off % 4 = 0 ∧ 64 ≤ off ∧ off + 4 ≤ 1024 ∧ d.length = 4 ∧ i < 4) ∧
    (∃ (s : State) (off : Nat) (d : List Byte) (x : Nat), (x < off ∨ off + 4 ≤ x) ∧ 1 ≤ s.rst.stage ∧ off % 4 = 0 ∧ 64 ≤ off ∧ off + 4 ≤ 1024 ∧
      d.length = 4) ∧
    (∃ (s : State) (v : BitVec 64) (i : Nat), 1 ≤ s.rst.stage ∧ bt v 0 = true ∧ bt (getMbox s 0).rsp 2 = false ∧ bt (getMbox s 0).rsp 1 = false ∧
      1 ≤ i ∧ i < 64) :=
  ⟨⟨State.reset, by decide +kernel⟩,
   ⟨sR 1, by decide +kernel⟩,
   ⟨State.reset, [], .inr (by decide +kernel)⟩,
   ⟨sR 1, [1, 2], 3, by decide +kernel⟩,
   ⟨sR 1, [1, 2, 3, 4, 5], by decide +kernel⟩,
   ⟨sR 1, 1020, [1, 2, 3, 4], 3, by decide +kernel⟩,
   ⟨sR 1, 1020, [1, 2, 3, 4], 1024, .inr (by decide +kernel), by decide +kernel⟩,
   ⟨sR 1, 1, 63, by decide +kernel⟩⟩

theorem witness_SidebandAndDebugRun_b :
    (∃ (s : State) (v : BitVec 64), (bt (getMbox s 0).rsp 2 = true ∨ bt (getMbox s 0).rsp 1 = true) ∧ 1 ≤ s.rst.stage ∧ bt v 0 = true) ∧
    (∃ (s : State), s.rst.stage = 0) ∧
    (∃ (s : State) (n : Nat) (i : Nat), 1 ≤ s.rst.stage ∧ i < n) ∧
    (∃ (i : Nat), 1 ≤ i ∧ i < 32) ∧
    (∃ (s : State), s.pins.resetLow = false) ∧
    (∃ (s : State), s.pins.resetLow = true) ∧
    (∃ (s : State), s.pins.dbgEn = false) ∧
    (∃ (s : State), s.pins.dbgEn = true) :=
  ⟨⟨{ sR 1 with key := { mb := [(0, { rsp := 2 })] } }, 1, .inr (by decide +kernel), by decide +kernel⟩,
   ⟨State.reset, by decide +kernel⟩,
   ⟨sR 1, 1, 0, by decide +kernel⟩,
   ⟨31, by decide +kernel⟩,
   ⟨State.reset, by decide +kernel⟩,
   ⟨{ State.reset with pins := { resetLow := true } }, by decide +kernel⟩,
   ⟨State.reset, by decide +kernel⟩,
   ⟨{ State.reset with pins := { dbgEn := true } }, by decide +kernel⟩⟩

end Sys2Proof.Tests
end

section
/-!
SUPPORT. The waits that stop issue of a core (R153 to R157) and the end of a kernel (R173): what their commands do, and the statements
about them.
-/

namespace Sys2Proof.Machine

/-! ## The commands of waits and of the end of a kernel -/

theorem exec_waite (c : Core) (w : Bits) (s : State) : exec (.waite c w) s = execWaite c w s := rfl
theorem exec_waiteComplete (c : Core) (s : State) : exec (.waiteComplete c) s = execWaiteComplete c s := rfl
theorem exec_waitf (c : Core) (w : Bits) (s : State) : exec (.waitf c w) s = execWaitf c w s := rfl
theorem exec_waitfEvaluate (c : Core) (r : Reply) (s : State) : exec (.waitfEvaluate c r) s = execWaitfEvaluate c r s := rfl
theorem exec_waitfDeadline (c : Core) (s : State) : exec (.waitfDeadline c) s = execWaitfDeadline c s := rfl
theorem exec_waitp (c : Core) (w : Bits) (s : State) : exec (.waitp c w) s = execWaitp c w s := rfl
theorem exec_plumbWaitRelease (c : Core) (s : State) : exec (.plumbWaitRelease c) s = execPlumbWaitRelease c s := rfl
theorem exec_rdplumb (c : Core) (w : Bits) (s : State) : exec (.rdplumb c w) s = execRdplumb c w s := rfl
theorem exec_end (c : Core) (w : Bits) (s : State) : exec (.end_ c w) s = execEnd c w s := rfl
theorem exec_nodeEnd (c : Core) (s : State) : exec (.nodeEnd c) s = execNodeEnd c s := rfl

/-- A field of a word as a bit vector. -/
theorem ofNat_bf {w : Nat} (x : BitVec w) (hi lo : Nat) (h : lo ≤ hi) : BitVec.ofNat (hi - lo + 1) (bf x hi lo) = x.extractLsb hi lo := by
  rw [bf_eq_extractLsb x hi lo h, BitVec.ofNat_toNat, BitVec.setWidth_eq]

/-! ## A change of one core -/

theorem OnlyCore.trans {s t u : State} {c : Nat} (h : OnlyCore s t c) (g : OnlyCore t u c) : OnlyCore s u c :=
  ⟨g.package.trans (by rw [h.package]), fun d hd => (g.others d hd).trans (h.others d hd)⟩

/-- A wait is over when the core has passed its word with the wait gone and `v` in register `r`. -/
theorem resumes_of {s t : State} {c r : Nat} {v : BitVec 64} (ho : OnlyCore s t c)
    (hk : getCore t c = advance (setS { getCore s c with wait := none } r v) 1) : Resumes s t c r v := by
  have hs := setS_onlyRegs { getCore s c with wait := none } r v
  have hl := advance_loopsOnly (setS { getCore s c with wait := none } r v) 1
  have hr : OnlyRegs { getCore s c with wait := none } (getCore t c) := hk ▸ hs.trans hl.rest
  refine ⟨ho, ?_, ?_, ?_, ?_, ?_, ?_⟩
  · rw [OnlyRegsWait, hr]
  · rw [hr]
  · rw [hk, sreg_of_loopsOnly hl, sreg_setS, if_pos rfl]
  · intro i hi
    rw [hk, sreg_of_loopsOnly hl, sreg_setS, if_neg hi]
    rfl
  · rw [hk, hl.a, setS_a]
  · rw [hk]
    exact pastWord_advance (k := { getCore s c with wait := none }) hs (by simp) (by simp)

/-- A wait that writes no register is over when the core has passed its word. -/
theorem resumes_advance (s : State) (c : Nat) :
    Resumes s (setCore s c (advance { getCore s c with wait := none } 1)) c 0 0 :=
  resumes_of (onlyCore_setCore ..) (getCore_setCore_self ..)

theorem stopsOn_setCore (s : State) (c : Nat) (x : WaitSt) : StopsOn s (setCore s c { getCore s c with wait := some x }) c x :=
  ⟨onlyCore_setCore .., getCore_setCore_self ..⟩

/-- With nothing in the combining buffer, writing it out stores the core as it stands. -/
theorem combFlush_empty {s : State} {c : Nat} (h : (getCore s c).comb = []) : combFlush s c = setCore s c (getCore s c) := by
  have hk : { getCore s c with comb := [] } = getCore s c := by rw [← h]
  rw [combFlush, h, modCore, hk]
  rfl

/-! ## WAITE, WAITP and RDPLUMB (R153, R157) -/

/-- The distance of two counts of 16 bits, modulo 2^16. -/
theorem bf_distance (x : BitVec 32) : (bf x 31 16 + 65536 - bf x 15 0) % 65536 = (x.extractLsb 31 16 - x.extractLsb 15 0).toNat := by
  rw [bf_eq_extractLsb x 31 16 (by omega), bf_eq_extractLsb x 15 0 (by omega), BitVec.toNat_sub]
  have := (x.extractLsb 15 0).isLt
  omega

theorem unitsDone_iff (k : CoreSt) (mask : BitVec 9) (n : BitVec 2) : unitsDone k mask n = true ↔
    ∀ u < 9, mask.getLsbD u = true →
      ((tget 0 k.cr.ucnt u).extractLsb 31 16 - (tget 0 k.cr.ucnt u).extractLsb 15 0).toNat ≤ n.toNat := by
  simp only [unitsDone, List.all_eq_true, List.mem_range, Bool.or_eq_true, Bool.not_eq_true', decide_eq_true_eq, bf_distance, bt]
  exact forall₂_congr fun u _ => by cases mask.getLsbD u <;> simp

section
variable {c : Core} {s : State}

/-- WAITE_COMPLETE: issue resumes, or everything stands while a masked unit has more than N operations open. -/
theorem execWaiteComplete_of {mask : BitVec 9} {n : BitVec 2} (hw : (getCore s c.val).wait = some (.waite mask n))
    (hf : (getCore s c.val).fault = none) (hs : (getCore s c.val).stop = false) :
    execWaiteComplete c s = .next (if unitsDone (getCore s c.val) mask n = true
      then setCore s c.val (advance { getCore s c.val with wait := none } 1) else s) := by
  simp only [execWaiteComplete, hw, hf, hs, decide_true, Bool.and_true, Bool.not_false]
  split <;> rfl

theorem execPlumbWaitRelease_of {word target : BitVec 64} (hw : (getCore s c.val).wait = some (.waitp word target))
    (hf : (getCore s c.val).fault = none) (hs : (getCore s c.val).stop = false) :
    execPlumbWaitRelease c s = .next (if target.toNat ≤ s.plumb.count.toNat
      then setCore s c.val (advance { getCore s c.val with wait := none } 1) else s) := by
  simp only [execPlumbWaitRelease, hw, hf, hs, and_true, Bool.and_true, Bool.not_false, decide_eq_true_eq]
  split <;> rfl

theorem waite_stops {w : Bits} (h : Issues s c (legalE w) []) : ∃ t, exec (.waite c w) s = .next t ∧
    StopsOn s t c.val (.waite (w.extractLsb 55 47) (w.extractLsb 46 45)) := by
  have hm : BitVec.ofNat 9 (eMask w) = w.extractLsb 55 47 := ofNat_bf w 55 47 (by omega)
  have hn : BitVec.ofNat 2 (eN w) = w.extractLsb 46 45 := ofNat_bf w 46 45 (by omega)
  refine ⟨_, by rw [exec_waite, execWaite, h.runs], ?_⟩
  rw [hm, hn]
  exact stopsOn_setCore ..

end

/-- Settles O21: each command's equation, with the distance of DISP and DONE modulo 2^16. -/
theorem unitAndPlumbWaitsRun : Obligations.UnitAndPlumbWaitsRun := by
  unfold Obligations.UnitAndPlumbWaitsRun
  intro c s
  refine ⟨fun w h => waite_stops h, fun mask n hw hf hs => ⟨fun hd => ?_, fun u hu hm hlt => ?_⟩, fun w h => ?_,
    fun word target hw hf hs => ?_, fun w h => ?_⟩
  · refine ⟨_, ?_, resumes_advance s c.val⟩
    rw [exec_waiteComplete, execWaiteComplete_of hw hf hs, if_pos ((unitsDone_iff ..).2 hd)]
  · have hopen : ¬ unitsDone (getCore s c.val) mask n = true := fun hd => absurd ((unitsDone_iff ..).1 hd u hu hm) (by omega)
    rw [exec_waiteComplete, execWaiteComplete_of hw hf hs, if_neg hopen]
  · exact ⟨_, _, by rw [exec_waitp, execWaitp, h.runs], stopsOn_setCore ..⟩
  · rw [exec_plumbWaitRelease, execPlumbWaitRelease_of hw hf hs]
    split
    · exact ⟨_, rfl, resumes_advance s c.val⟩
    · rfl
  · exact ⟨_, by rw [exec_rdplumb, execRdplumb, h.runs], writesScalar_setCore ..⟩

/-! ## WAITF (R155, R156) -/

/-- A flag on plain, non-cacheable memory of its home is read there, and nothing changes. -/
theorem flagAt_plain {s : State} {c o : Nat} {a : Access} {r : Reply} (hp : PlainLine s (getCore s c).ctx o)
    (hd : dieCode s (towerOf c) (homeTower s o) = St.ok) (hx : a.x = .target (.loc o) true) (hn : o % 64 + a.size ≤ 64) :
    flagAt s c a r = (St.ok, leNat (rdN s.mem o a.size), s) := by
  unfold flagAt
  simp only [hx, hp.hereRead hd a.size hn]

/-- The comparison of a row of COND is the one that the model makes, at either width. -/
theorem condHolds_of_row {p : Nat × ((w : Nat) → BitVec w → BitVec w → Bool)} (hp : p ∈ rowsCond) (w f : Nat) (v : BitVec 64) :
    condHolds (BitVec.ofNat 3 p.1).toNat w f v.toNat = p.2 w (BitVec.ofNat w f) (v.setWidth w) := by
  rw [← BitVec.ofNat_toNat w v]
  simp only [rowsCond, List.mem_cons, List.not_mem_nil, or_false] at hp
  rcases hp with rfl | rfl | rfl | rfl | rfl | rfl
  · rfl
  · exact decide_not
  · rfl
  · rfl
  · rfl
  · rfl

/-- A WAITF stops issue with its flag access still to be translated. -/
theorem waitf_stops {c : Core} {s : State} {w : Bits} (h : Issues s c (legalF w) [fSD w, fSV w, fST w]) (hd : isDirect (getCore s c.val) = false) :
    ∃ t word a, exec (.waitf c w) s = .next t ∧ OnlyCore s t c.val ∧
      getCore t c.val = { getCore s c.val with nextAcc := (getCore s c.val).nextAcc + 1, wait := some (.waitf word a false
        (w.extractLsb 55 51) (w.extractLsb 47 45) (fW64 w) (sreg (getCore s c.val) (fSV w)) (sreg (getCore s c.val) (fST w))
        (decide (fST w ≠ 0))) } ∧
      a.va = alignTo (areg (getCore s c.val) (mAR w)) (if fW64 w then 8 else 4) ∧ a.size = (if fW64 w then 8 else 4) ∧ a.x = .miss := by
  have hsd : BitVec.ofNat 5 (fSD w) = w.extractLsb 55 51 := ofNat_bf w 55 51 (by omega)
  have hcond : BitVec.ofNat 3 (fCond w) = w.extractLsb 47 45 := ofNat_bf w 47 45 (by omega)
  rw [exec_waitf, execWaitf, h.runs, if_neg (by rw [hd]; decide), ← hsd, ← hcond]
  refine ⟨_, _, _, rfl, onlyCore_setCore .., by rw [getCore_setCore_self], ?_⟩
  exact ⟨rfl, rfl, rfl⟩

/-- A WAITF whose flag is plain memory, translated, with nothing that holds the read back: one evaluation is one read at the home. -/
theorem execWaitfEvaluate_plain {c : Core} {s : State} {r : Reply} {word : BitVec 64} {a : Access} {seen : Bool} {sd : BitVec 5}
    {cond : BitVec 3} {w64 : Bool} {value dl : BitVec 64} {hasDl : Bool} {o : Nat}
    (hw : (getCore s c.val).wait = some (.waitf word a seen sd cond w64 value dl hasDl))
    (hf : (getCore s c.val).fault = none) (hs : (getCore s c.val).stop = false) (hc : (getCore s c.val).comb = [])
    (hb : blockedBy ((getCore s c.val).accs ++ [a]) a = false) (hx : a.x = .target (.loc o) true) (hn : o % 64 + a.size ≤ 64)
    (hp : PlainLine s (getCore s c.val).ctx o) (hd : dieCode s (towerOf c.val) (homeTower s o) = St.ok) :
    execWaitfEvaluate c r s = .next (flagRead (setCore s c.val (getCore s c.val)) c.val a St.ok (leNat (rdN s.mem o a.size)) sd cond w64
      value dl hasDl (.waitf word { a with x := .miss } true sd cond w64 value dl hasDl)) := by
  have hread : flagAt (combFlush s c.val) c.val a r = (St.ok, leNat (rdN s.mem o a.size), setCore s c.val (getCore s c.val)) := by
    rw [combFlush_empty hc]
    refine flagAt_plain ?_ ?_ hx hn
    · rw [getCore_setCore_self]
      exact hp.core c.val (getCore s c.val)
    · exact (dieCode_congr (s := s) (t := setCore s c.val (getCore s c.val)) rfl _ _).trans hd
  have ha : { a with x := .target (.loc o) true } = a := by rw [← hx]
  have hmiss : XSt.target (.loc o) true ≠ .miss := fun h => XSt.noConfusion h
  simp only [execWaitfEvaluate, hw, hf, hs, hb, waitfXlate, hx, if_neg hmiss, ha, hread, ne_eq, not_true_eq_false, decide_false,
    Bool.or_self, Bool.false_eq_true, if_false]

/-- The outcome of a read of the flag that succeeds: the comparison comes first, then the deadline, else the wait goes on. -/
theorem flagRead_ok {s : State} {c flag : Nat} {a : Access} {sd : BitVec 5} {cond : BitVec 3} {w64 : Bool} {value dl : BitVec 64}
    {hasDl : Bool} {again : WaitSt} (hf : (getCore s c).fault = none) :
    flagRead s c a St.ok flag sd cond w64 value dl hasDl again =
      if condHolds cond.toNat (if w64 then 64 else 32) flag value.toNat = true then modCore s c fun k => endWait k sd 0
      else if hasDl = true ∧ dl.toNat ≤ s.plumb.count.toNat then modCore s c fun k => endWait k sd 1
      else modCore s c fun k => { k with wait := some again } := by
  rw [flagRead, if_neg (fun h => h rfl), if_neg (fun h => h hf)]
  simp only [Bool.and_eq_true, decide_eq_true_eq]

/-- The deadline alone ends a WAITF that has read its flag, and only such a one. -/
theorem execWaitfDeadline_of {c : Core} {s : State} {word : BitVec 64} {a : Access} {seen : Bool} {sd : BitVec 5} {cond : BitVec 3}
    {w64 : Bool} {value dl : BitVec 64} {hasDl : Bool}
    (hw : (getCore s c.val).wait = some (.waitf word a seen sd cond w64 value dl hasDl))
    (hf : (getCore s c.val).fault = none) (hs : (getCore s c.val).stop = false) :
    execWaitfDeadline c s = .next (if seen = true ∧ hasDl = true ∧ dl.toNat ≤ s.plumb.count.toNat
      then setCore s c.val (endWait (getCore s c.val) sd 1) else s) := by
  simp only [execWaitfDeadline, hw, hf, hs, decide_true, Bool.and_true, Bool.not_false, Bool.and_eq_true, decide_eq_true_eq, and_assoc]
  split <;> rfl

/-- A wait that ends with `v` in SD, in a state that holds the waiting core as it was. -/
theorem resumes_modCore {s u : State} {c : Nat} {sd : BitVec 5} {v : BitVec 64} (ho : OnlyCore s u c) (hk : getCore u c = getCore s c) :
    Resumes s (modCore u c fun k => endWait k sd v) c sd.toNat v := by
  refine resumes_of (ho.trans (onlyCore_modCore ..)) ?_
  rw [getCore_modCore_self, hk, endWait]

/-- Settles O22: an evaluation is one read at the home of plain memory, whose outcome flagRead decides. -/
theorem waitfRuns : Obligations.WaitfRuns := by
  unfold Obligations.WaitfRuns
  intro c s
  refine ⟨fun w h hd => waitf_stops h hd, ?_, fun word a seen sd cond w64 value dl hasDl hw hf hs => ?_⟩
  · intro p word a seen sd w64 value dl hasDl o r hrow hw hf hs hc hb hx hsize hn hp hd
    have ho : OnlyCore s (setCore s c.val (getCore s c.val)) c.val := onlyCore_setCore ..
    have hk : getCore (setCore s c.val (getCore s c.val)) c.val = getCore s c.val := getCore_setCore_self ..
    have hwidth : (if w64 then 64 else 32) = 8 * a.size := by rw [hsize]; cases w64 <;> rfl
    refine ⟨_, by rw [exec_waitfEvaluate, execWaitfEvaluate_plain hw hf hs hc hb hx hn hp hd], ?_⟩
    rw [flagRead_ok (by rw [hk]; exact hf), hwidth, condHolds_of_row hrow]
    split
    · exact resumes_modCore ho hk
    · rw [setCore_plumb]
      split
      · exact resumes_modCore ho hk
      · exact ⟨ho.trans (onlyCore_modCore ..), by rw [getCore_modCore_self, hk]⟩
  · rw [exec_waitfDeadline, execWaitfDeadline_of hw hf hs]
    split
    · exact ⟨_, rfl, resumes_of (onlyCore_setCore ..) (getCore_setCore_self ..)⟩
    · rfl

/-! ## END and NODE_END (R173) -/

theorem allDone_iff (k : CoreSt) :
    allDone k = true ↔ ∀ u < 9, bf (tget 0 k.cr.ucnt u) 31 16 = bf (tget 0 k.cr.ucnt u) 15 0 := by
  simp only [allDone, List.all_eq_true, List.mem_range, decide_eq_true_eq]

/-- A node does not end while a unit or a write is still to complete. -/
theorem execNodeEnd_waits {c : Core} {s : State} (h : allDone (getCore s c.val) = false ∨ writesPending (getCore s c.val) = true) :
    execNodeEnd c s = .next s := by
  rcases h with h | h <;> simp [execNodeEnd, h]

/-- With every unit and every write complete and the combining buffer empty, the node ends with OK. -/
theorem execNodeEnd_ready {c : Core} {s : State} (he : (getCore s c.val).ended = true) (hf : (getCore s c.val).fault = none)
    (hr : (getCore s c.val).retired = false) (hd : allDone (getCore s c.val) = true) (hi : enginesIdle (getCore s c.val) = true)
    (hw : writesPending (getCore s c.val) = false) (hc : (getCore s c.val).comb = []) (ho : storesOut s c.val = false) :
    execNodeEnd c s = .next (if isDirect (getCore s c.val) = true then
      setCore (setCore s c.val (getCore s c.val)) c.val (directEnded (getCore s c.val) St.ok)
      else kernelEnded (setCore s c.val (getCore s c.val)) c.val St.ok) := by
  have hout : storesOut (setCore s c.val (getCore s c.val)) c.val = false := ho
  have huse : outOfUse (getCore s c.val) = false := by rw [outOfUse, hr, Bool.false_and]
  simp only [execNodeEnd, he, hf, huse, hd, hi, hw, combFlush_empty hc, hout, getCore_setCore_self, decide_true, Bool.not_false,
    Bool.and_self, Bool.not_true, Bool.false_eq_true, if_false, ne_eq, not_true_eq_false, decide_false, Bool.or_self]
  split <;> rfl

/-- The end of a direct kernel clears BUSY and puts its code in CODE (R181). -/
theorem isDirect_directEnded (k : CoreSt) (code : Code) : isDirect (directEnded k code) = false := by
  show bt (sf (sb k.cr.coreDirect 29 false) 26 19 code.toNat) 29 = false
  rw [bt_sf_out _ _ _ _ _ (by omega), bt_sb _ _ _ (by omega)]

theorem directEnded_code (k : CoreSt) (code : Code) : bf (directEnded k code).cr.coreDirect 26 19 = code.toNat := by
  show bf (sf (sb k.cr.coreDirect 29 false) 26 19 code.toNat) 26 19 = code.toNat
  rw [bf_sf_same _ _ _ _ (by omega)]
  exact Nat.mod_eq_of_lt code.isLt

/-! ## A rank of a gang that ends -/

theorem gangOf_id {s : State} {g : Nat} {x : Gang} (h : gangOf s g = some x) : x.id = g := by
  simpa using List.find?_some h

/-- What a gang is after the kernel of rank `rank` on core `c` has ended with OK. -/
def rankEnded (x : Gang) (c rank : Nat) : Gang :=
  { x with cores := x.cores.filter fun p => p.2 ≠ c, ended := x.ended ++ [(rank, St.ok)], slots := x.slots.filter fun p => p.1 ≠ rank }

/-- A running gang that still lacks the ends of some ranks stands. -/
theorem finishGang_short {s : State} {g : Nat} {x : Gang} (hx : gangOf s g = some x) (hst : x.st = .running)
    (hlen : x.ended.length < x.want) : finishGang s g = s := by
  have hne : x.ended.length ≠ x.want := by omega
  simp only [finishGang, hx, hst, if_neg hne]
  split <;> rfl

/-- The end with OK of the kernel on core `c`, of a gang that lacks more ends: the rank leaves the gang, and the core goes free. -/
theorem kernelEnded_short {s : State} {c g rank : Nat} {x : Gang} (hg : (getCore s c).gang = some g) (hx : gangOf s g = some x)
    (hrank : x.cores.find? (fun p => p.2 = c) = some (rank, c)) (hst : x.st = .running) (hlen : x.ended.length + 1 < x.want) :
    (∀ d, d ≠ c → getCore (kernelEnded s c St.ok) d = getCore s d) ∧ getCore (kernelEnded s c St.ok) c = coreFreed (getCore s c) ∧
      gangOf (kernelEnded s c St.ok) g = some (rankEnded x c rank) := by
  obtain ⟨u, hu, hcore, hgang⟩ : ∃ u, kernelEnded s c St.ok = finishGang (modCore u c coreFreed) x.id ∧
      (∀ d, getCore u d = getCore s d) ∧ gangOf u g = some (rankEnded x c rank) := by
    refine ⟨setGang (modCtx s x.ctx fun k => { k with slots := k.slots.filter fun n => !x.slots.contains (rank, n) })
      (rankEnded x c rank), ?_, fun _ => rfl, ?_⟩
    · simp only [kernelEnded, hg, Option.bind_some, hx, hrank, Option.map_some, Option.getD_some, ne_eq, not_true_eq_false, false_and,
        if_false]
      rfl
    · have hid : g = (rankEnded x c rank).id := (gangOf_id hx).symm
      rw [gangOf_setGang, if_pos hid]
      show (gangOf s g).map _ = _
      rw [hx]
      rfl
  have hstands : finishGang (modCore u c coreFreed) g = modCore u c coreFreed := by
    refine finishGang_short (x := rankEnded x c rank) hgang hst ?_
    simpa [rankEnded] using hlen
  rw [hu, gangOf_id hx, hstands]
  refine ⟨fun d hd => ?_, ?_, hgang⟩
  · rw [getCore_modCore_ne _ _ hd, hcore]
  · rw [getCore_modCore_self, hcore]

/-- Settles O28: NODE_END comes to the end of a direct kernel or of one rank of a gang once everything is complete. -/
theorem kernelsEnd : Obligations.KernelsEnd := by
  unfold Obligations.KernelsEnd
  intro c s
  refine ⟨fun w h => ?_, fun h => ?_, fun he hf hr hd hi hw hc ho => ⟨fun hdir => ?_, ?_⟩⟩
  · refine ⟨_, by rw [exec_end, execEnd, h.runs], onlyCore_setCore .., ?_, getCore_setCore_self ..⟩
    rw [getCore_setCore_self]
    simp [canIssue]
  · rw [exec_nodeEnd, execNodeEnd_waits (h.imp_left fun ⟨u, hu, hne⟩ => ?_)]
    exact Bool.eq_false_iff.2 fun hd => hne ((allDone_iff _).1 hd u hu)
  · refine ⟨_, by rw [exec_nodeEnd, execNodeEnd_ready he hf hr ((allDone_iff _).2 hd) hi hw hc ho, if_pos hdir],
      (onlyCore_setCore ..).trans (onlyCore_setCore ..), ?_⟩
    rw [getCore_setCore_self]
    exact ⟨isDirect_directEnded .., directEnded_code .., rfl, rfl⟩
  · intro g x rank hdir hg hx hcores hst hlen
    have hk : getCore (setCore s c.val (getCore s c.val)) c.val = getCore s c.val := getCore_setCore_self ..
    obtain ⟨hothers, hcore, hgang⟩ := kernelEnded_short (s := setCore s c.val (getCore s c.val)) (c := c.val) (rank := rank)
      (by rw [hk]; exact hg) hx (by simp [hcores]) hst hlen
    refine ⟨_, by rw [exec_nodeEnd, execNodeEnd_ready he hf hr ((allDone_iff _).2 hd) hi hw hc ho, if_neg (by simp [hdir])],
      fun d hd => (hothers d hd).trans (getCore_setCore_ne _ _ hd), ?_, ?_, ?_⟩
    · rw [hcore]
      rfl
    · rw [hcore]
      rfl
    · rw [hgang, rankEnded, hcores]
      simp

end Sys2Proof.Machine
end

section
/-!
SUPPORT. The registers of queues and of the context event rings (R184, R186, R216 to R218): what QDB_PUSH, QCTL_WRITE, GCLR,
CEVCTL_WRITE and CEVPTR_WRITE do, and the statement about them.
-/

namespace Sys2Proof.Machine

/-! ## The commands on queue registers -/

theorem exec_qdbPush (q : QId) (v : BitVec 32) (s : State) : exec (.qdbPush q v) s = execQdbPush q v s := rfl
theorem exec_gclr (q : QId) (s : State) : exec (.gclr q) s = execGclr q s := rfl
theorem exec_qctlWrite (q : QId) (view : View) (v : BitVec 32) (s : State) : exec (.qctlWrite q view v) s = execQctlWrite q view v s := rfl
theorem exec_cevctlWrite (x : CtxId) (view : View) (v : BitVec 32) (s : State) :
    exec (.cevctlWrite x view v) s = execCevctlWrite x view v s := rfl
theorem exec_cevptrWrite (x : CtxId) (view : View) (v : BitVec 32) (s : State) :
    exec (.cevptrWrite x view v) s = execCevptrWrite x view v s := rfl

/-- The driver writes through the PCIe view while `drv` is set, and through the Mason view otherwise (R348). -/
theorem isDriver_iff (s : State) (view : View) : isDriver s view = true ↔ view = if s.host.drv then .pcie else .mason := by
  cases view <;> cases h : s.host.drv <;> simp [isDriver, h]

/-- The condition of a driver's write once start-up is done (R348, R392). -/
theorem driverWrites_iff (s : State) (view : View) : (isDriver s view && s.rst.done) = true ↔
    view = (if s.host.drv then .pcie else .mason) ∧ s.rst.done = true := by
  rw [Bool.and_eq_true, isDriver_iff]

theorem setsQueue_modQueue (s : State) (q : Nat) (f : Queue → Queue) : SetsQueue s (modQueue s q f) q (f (getQueue s q)) :=
  setsQueue_setQueue ..

theorem setsCtx_modCtx (s : State) (x : Nat) (f : Ctx → Ctx) : SetsCtx s (modCtx s x f) x (f (getCtx s x)) :=
  setsCtx_setCtx ..

theorem setsQueue_refl (s : State) (q : Nat) : SetsQueue s s q (getQueue s q) := ⟨rfl, rfl, fun _ _ => rfl⟩

/-! ## A write under a mask -/

section
variable {w : Nat} {m : BitVec w} {hi lo : Nat} (old new : BitVec w)

theorem getLsbD_mergeMask (m : BitVec w) (i : Nat) :
    (mergeMask m old new).getLsbD i = if m.getLsbD i = true then new.getLsbD i else old.getLsbD i := by
  simp only [mergeMask, BitVec.getLsbD_or, BitVec.getLsbD_and, BitVec.getLsbD_not]
  by_cases hw : i < w
  · cases m.getLsbD i <;> simp [hw]
  · simp [BitVec.getLsbD_of_ge _ i (Nat.le_of_not_lt hw)]

/-- A field under the mask takes the written value. -/
theorem bf_mergeMask_in (h : ∀ i < hi + 1 - lo, m.getLsbD (lo + i) = true) : bf (mergeMask m old new) hi lo = bf new hi lo := by
  apply Nat.eq_of_testBit_eq
  intro i
  rw [testBit_bf, testBit_bf]
  by_cases hi : i < hi + 1 - lo
  · rw [getLsbD_mergeMask, if_pos (h i hi)]
  · simp [hi]

/-- A field outside the mask stands. -/
theorem bf_mergeMask_out (h : ∀ i < hi + 1 - lo, m.getLsbD (lo + i) = false) : bf (mergeMask m old new) hi lo = bf old hi lo := by
  apply Nat.eq_of_testBit_eq
  intro i
  rw [testBit_bf, testBit_bf]
  by_cases hi : i < hi + 1 - lo
  · rw [getLsbD_mergeMask, h i hi, if_neg (by decide)]
  · simp [hi]

theorem bt_mergeMask_in {i : Nat} (h : m.getLsbD i = true) : bt (mergeMask m old new) i = bt new i := by
  rw [bt, getLsbD_mergeMask, if_pos h, bt]

theorem bt_mergeMask_out {i : Nat} (h : m.getLsbD i = false) : bt (mergeMask m old new) i = bt old i := by
  rw [bt, getLsbD_mergeMask, h, if_neg (by decide), bt]

end

/-- A field that takes what another word holds there. -/
theorem bf_sf_bf {w u : Nat} (x : BitVec w) (v : BitVec u) (hi lo : Nat) (hw : hi < w) : bf (sf x hi lo (bf v hi lo)) hi lo = bf v hi lo := by
  rw [bf_sf_same x hi lo _ hw, Nat.mod_eq_of_lt (bf_lt v hi lo)]

/-! ## QDB_PUSH and GCLR (R186, R216, R217) -/

/-- What a push of the entries up to index `w` makes of a queue (R186, Table 6.9). -/
theorem pushTry_upTo (k : Queue) (w : BitVec 16) : (pushTry k (w - k.wptr).toNat).2 =
    if (w - k.wptr).toNat = 0 then k
    else if k.guilty then { k with grej := true }
    else if qDepth k + (w - k.wptr).toNat ≤ qSize k then { k with wptr := w }
    else { k with fullrej := true } := by
  have hw : k.wptr + BitVec.ofNat 16 (w - k.wptr).toNat = w := by
    rw [BitVec.ofNat_toNat, BitVec.setWidth_eq, BitVec.add_comm, BitVec.sub_add_cancel]
  rw [pushTry, hw]
  split_ifs <;> rfl

/-- The count of a push, (W − WPTR) mod 2^16 (R186). -/
theorem push_count (v : BitVec 32) (p : BitVec 16) : (bf v 15 0 + 65536 - p.toNat) % 65536 = (v.extractLsb' 0 16 - p).toNat := by
  have hv : (v.extractLsb' 0 16).toNat = bf v 15 0 := by simp [bf]
  have hp := p.isLt
  rw [BitVec.toNat_sub, hv]
  omega

/-- QDB_PUSH offers its entries to a queue that is enabled and no device queue; any other queue stands. -/
theorem qdbPush_sets (q : QId) (v : BitVec 32) (s : State) : ∃ t, exec (.qdbPush q v) s = .next t ∧ SetsQueue s t q.val
    (if qEn (getQueue s q.val) = false ∨ qDev (getQueue s q.val) = true then getQueue s q.val
      else (pushTry (getQueue s q.val) (v.extractLsb' 0 16 - (getQueue s q.val).wptr).toNat).2) := by
  have htakes : (qEn (getQueue s q.val) && !qDev (getQueue s q.val)) = true ↔
      ¬ (qEn (getQueue s q.val) = false ∨ qDev (getQueue s q.val) = true) := by simp
  rw [exec_qdbPush, execQdbPush, push_count]
  by_cases h : qEn (getQueue s q.val) = false ∨ qDev (getQueue s q.val) = true
  · rw [if_neg fun hon => htakes.1 hon h, if_pos h]
    exact ⟨s, rfl, setsQueue_refl ..⟩
  · rw [if_pos (htakes.2 h), if_neg h]
    exact ⟨_, rfl, setsQueue_setQueue ..⟩

/-- GCLR leaves GUILTY set only while the reset of the queue runs. -/
theorem gclr_sets (q : QId) (s : State) : ∃ t, exec (.gclr q) s = .next t ∧
    SetsQueue s t q.val { getQueue s q.val with guilty := (getQueue s q.val).guilty && (getQueue s q.val).resetting } := by
  have hk : (if (getQueue s q.val).resetting then getQueue s q.val else { getQueue s q.val with guilty := false }) =
      { getQueue s q.val with guilty := (getQueue s q.val).guilty && (getQueue s q.val).resetting } := by
    cases h : (getQueue s q.val).resetting
    · simp [h]
    · rw [if_pos rfl, Bool.and_true]
  rw [← hk, exec_gclr]
  exact ⟨_, rfl, setsQueue_modQueue ..⟩

/-! ## QCTL_WRITE (R184) -/

/-- QCTL under a write, but for EN: the other fields take it while EN and BUSY are 0, and LOG2SZ only 4 to 15. -/
def qctlFields (k : Queue) (v : BitVec 32) : BitVec 32 :=
  if qEn k = false ∧ qBusy k = false then
    if 4 ≤ bf v 27 24 then sf (mergeMask 0x70FFFFFF k.ctl v) 27 24 (bf v 27 24) else mergeMask 0x70FFFFFF k.ctl v
  else k.ctl

theorem qctlNew_of_resetting {k : Queue} (h : k.resetting = true) (v : BitVec 32) : qctlNew k v = k := by
  rw [qctlNew, if_pos h]

theorem qctlNew_of_not_resetting {k : Queue} (h : k.resetting = false) (v : BitVec 32) : qctlNew k v =
    if qEn k = false ∧ bt v 31 = true then
      { k with ctl := sb (qctlFields k v) 31 (bt v 31), rptr := 0, wptr := 0, fullrej := false, grej := false, cause := 0, guilty := false }
    else { k with ctl := sb (qctlFields k v) 31 (bt v 31) } := by
  simp only [qctlNew, h, qctlFields, Bool.and_eq_true, Bool.not_eq_true', Bool.false_eq_true, if_false, and_comm (a := bt v 31 = true)]

theorem qctlNew_ctl {k : Queue} (h : k.resetting = false) (v : BitVec 32) : (qctlNew k v).ctl = sb (qctlFields k v) 31 (bt v 31) := by
  rw [qctlNew_of_not_resetting h]
  split <;> rfl

theorem qctlFields_open {k : Queue} (h : qEn k = false ∧ qBusy k = false) (v : BitVec 32) :
    bf (qctlFields k v) 30 28 = bf v 30 28 ∧ bf (qctlFields k v) 23 0 = bf v 23 0 ∧
      bf (qctlFields k v) 27 24 = if 4 ≤ bf v 27 24 then bf v 27 24 else bf k.ctl 27 24 := by
  have hhi : bf (mergeMask 0x70FFFFFF k.ctl v) 30 28 = bf v 30 28 := bf_mergeMask_in _ _ (by decide)
  have hlo : bf (mergeMask 0x70FFFFFF k.ctl v) 23 0 = bf v 23 0 := bf_mergeMask_in _ _ (by decide)
  have hsz : bf (mergeMask 0x70FFFFFF k.ctl v) 27 24 = bf k.ctl 27 24 := bf_mergeMask_out _ _ (by decide)
  rw [qctlFields, if_pos h]
  by_cases h4 : 4 ≤ bf v 27 24
  · rw [if_pos h4, if_pos h4, bf_sf_out _ _ _ _ _ _ (by omega), bf_sf_out _ _ _ _ _ _ (by omega), bf_sf_bf _ _ _ _ (by omega)]
    exact ⟨hhi, hlo, rfl⟩
  · rw [if_neg h4, if_neg h4]
    exact ⟨hhi, hlo, hsz⟩

/-- A write of QCTL: what it leaves in QCTL field by field, and what a rising EN clears. -/
theorem qctlNew_spec (k : Queue) (v : BitVec 32) :
    (k.resetting = true → qctlNew k v = k) ∧
    (k.resetting = false → bt (qctlNew k v).ctl 31 = bt v 31 ∧
      (if qEn k = false ∧ qBusy k = false then
        bf (qctlNew k v).ctl 30 28 = bf v 30 28 ∧ bf (qctlNew k v).ctl 23 0 = bf v 23 0 ∧
          bf (qctlNew k v).ctl 27 24 = (if 4 ≤ bf v 27 24 then bf v 27 24 else bf k.ctl 27 24)
        else bf (qctlNew k v).ctl 30 0 = bf k.ctl 30 0) ∧
      (if qEn k = false ∧ bt v 31 = true then
          qctlNew k v = { k with ctl := (qctlNew k v).ctl, rptr := 0, wptr := 0, fullrej := false, grej := false, cause := 0, guilty := false }
        else qctlNew k v = { k with ctl := (qctlNew k v).ctl })) := by
  refine ⟨fun h => qctlNew_of_resetting h v, fun h => ⟨?_, ?_, ?_⟩⟩
  · rw [qctlNew_ctl h, bt_sb _ _ _ (by omega)]
  · rw [qctlNew_ctl h, bf_sb_out _ _ _ _ _ (by omega), bf_sb_out _ _ _ _ _ (by omega), bf_sb_out _ _ _ _ _ (by omega),
      bf_sb_out _ _ _ _ _ (by omega)]
    split
    next hopen => exact qctlFields_open hopen v
    next hbusy => rw [qctlFields, if_neg hbusy]
  · rw [qctlNew_ctl h, qctlNew_of_not_resetting h]
    split <;> rfl

/-! ## CEVCTL_WRITE and CEVPTR_WRITE (R218) -/

/-- CEVCTL under a write, but for LOG2SZ: EN and the low fields take it, and a 1 in bit 30 clears that bit. -/
def cevctlTaken (c v : BitVec 32) : BitVec 32 :=
  if bt v 30 then sb (mergeMask 0x80000FFF c v) 30 false else mergeMask 0x80000FFF c v

theorem cevctlTaken_fields (c v : BitVec 32) :
    bt (cevctlTaken c v) 31 = bt v 31 ∧ bf (cevctlTaken c v) 11 0 = bf v 11 0 ∧
      bt (cevctlTaken c v) 30 = (bt c 30 && !bt v 30) ∧ bf (cevctlTaken c v) 27 24 = bf c 27 24 := by
  have hen : bt (mergeMask 0x80000FFF c v) 31 = bt v 31 := bt_mergeMask_in _ _ (by decide)
  have hlo : bf (mergeMask 0x80000FFF c v) 11 0 = bf v 11 0 := bf_mergeMask_in _ _ (by decide)
  have hlost : bt (mergeMask 0x80000FFF c v) 30 = bt c 30 := bt_mergeMask_out _ _ (by decide)
  have hsz : bf (mergeMask 0x80000FFF c v) 27 24 = bf c 27 24 := bf_mergeMask_out _ _ (by decide)
  rw [cevctlTaken]
  cases hv : bt v 30
  · rw [if_neg (by decide), Bool.not_false, Bool.and_true]
    exact ⟨hen, hlo, hlost, hsz⟩
  · rw [if_pos rfl, bt_sb_ne _ _ _ _ (by omega), bf_sb_out _ _ _ _ _ (by omega), bt_sb _ _ _ (by omega), bf_sb_out _ _ _ _ _ (by omega),
      Bool.not_true, Bool.and_false]
    exact ⟨hen, hlo, rfl, hsz⟩

theorem cevctlNew_cevctl (k : Ctx) (v : BitVec 32) : (cevctlNew k v).cevctl =
    if bt k.cevctl 31 = false ∧ 4 ≤ bf v 27 24 ∧ bf v 27 24 ≤ 12 then sf (cevctlTaken k.cevctl v) 27 24 (bf v 27 24)
    else cevctlTaken k.cevctl v := by
  simp only [cevctlNew, cevctlTaken, Bool.and_eq_true, Bool.not_eq_true', decide_eq_true_eq]

theorem cevctlNew_fields (k : Ctx) (v : BitVec 32) :
    bt (cevctlNew k v).cevctl 31 = bt v 31 ∧ bf (cevctlNew k v).cevctl 11 0 = bf v 11 0 ∧
      bt (cevctlNew k v).cevctl 30 = (bt k.cevctl 30 && !bt v 30) ∧
      bf (cevctlNew k v).cevctl 27 24 =
        if bt k.cevctl 31 = false ∧ 4 ≤ bf v 27 24 ∧ bf v 27 24 ≤ 12 then bf v 27 24 else bf k.cevctl 27 24 := by
  obtain ⟨hen, hlo, hlost, hsz⟩ := cevctlTaken_fields k.cevctl v
  rw [cevctlNew_cevctl]
  split
  · rw [bt_sf_out _ _ _ _ _ (by omega), bf_sf_out _ _ _ _ _ _ (by omega), bt_sf_out _ _ _ _ _ (by omega), bf_sf_bf _ _ _ _ (by omega)]
    exact ⟨hen, hlo, hlost, rfl⟩
  · exact ⟨hen, hlo, hlost, hsz⟩

theorem cevctlNew_rest (k : Ctx) (v : BitVec 32) : cevctlNew k v =
    { k with cevctl := (cevctlNew k v).cevctl, cevptr := if bt k.cevctl 31 = false ∧ bt v 31 = true then 0 else k.cevptr } := by
  simp only [cevctlNew, Bool.and_eq_true, Bool.not_eq_true', and_comm (a := bt v 31 = true)]

/-- CEVPTR after a write: RPTR takes it only within the bound of the ring, and nothing else changes. -/
theorem cevptrNew_spec (k : Ctx) (v : BitVec 32) :
    cevptrNew k v = { k with cevptr := (cevptrNew k v).cevptr } ∧ bf (cevptrNew k v).cevptr 31 16 = bf k.cevptr 31 16 ∧
      bf (cevptrNew k v).cevptr 15 0 =
        if (bf k.cevptr 31 16 + 65536 - bf v 15 0) % 65536 ≤ 2 ^ bf k.cevctl 27 24 then bf v 15 0 else bf k.cevptr 15 0 := by
  rw [cevptrNew]
  split
  · exact ⟨rfl, bf_sf_out _ _ _ _ _ _ (by omega), bf_sf_bf _ _ _ _ (by omega)⟩
  · exact ⟨rfl, rfl, rfl⟩

/-! ## The statement -/

/-- Settles O39: each command sets its queue or context to what the lemma of its register says, or leaves the state as it stands. -/
theorem queueRegistersRun : Obligations.QueueRegistersRun := by
  unfold Obligations.QueueRegistersRun
  intro s q x v view
  refine ⟨?_, gclr_sets q s, ?_, ?_⟩
  · obtain ⟨t, ht, hs⟩ := qdbPush_sets q v s
    refine ⟨t, ht, ?_⟩
    rw [pushTry_upTo] at hs
    simpa only [← or_assoc, ite_or] using hs
  · rw [exec_qctlWrite, exec_cevctlWrite, execQctlWrite, execCevctlWrite]
    have hw := driverWrites_iff s view
    by_cases h : (isDriver s view && s.rst.done) = true
    · obtain ⟨hen, hlo, hlost, hsz⟩ := cevctlNew_fields (getCtx s x.val) v
      rw [if_pos (hw.1 h), if_pos h, if_pos h]
      exact ⟨⟨_, _, rfl, setsQueue_modQueue .., qctlNew_spec ..⟩, _, _, rfl, setsCtx_modCtx .., hen, hlo, hlost, hsz, cevctlNew_rest ..⟩
    · rw [if_neg (mt hw.2 h), if_neg h, if_neg h]
      exact ⟨rfl, rfl⟩
  · rw [exec_cevptrWrite, execCevptrWrite]
    have hw := isDriver_iff s view
    by_cases h : isDriver s view = true
    · rw [if_pos (hw.1 h), if_pos h]
      exact ⟨_, _, rfl, setsCtx_modCtx .., cevptrNew_spec ..⟩
    · rw [if_neg (mt hw.2 h), if_neg h]

end Sys2Proof.Machine
end

section
/-!
SUPPORT. The package as a whole: what any command and the nanosecond of an empty queue keep, and the statements about them.
-/

namespace Sys2Proof.Machine

/-- A command that answers a next state, whatever the state, and keeps what every command keeps. -/
theorem Answers.keeps {s : State} {r : Res} (h : Answers r) (g : KeepsRes s r) : ∃ t, r = .next t ∧ Keeps s t := by
  obtain ⟨t, ht⟩ := h
  exact ⟨t, ht, g t ht⟩

/-- Every command answers a next state with the clock and the waiting commands as they were and the canonical form kept: the case of
a command is the pair of lemmas about its meaning. -/
theorem exec_keeps (i : Instr) (s : State) : ∃ t, exec i s = .next t ∧ Keeps s t := by
  have hk : Keeps s s := Keeps.refl s
  cases i with
  | nop _ _ => exact execNop_answers.keeps (execNop_keeps hk)
  | add _ _ => exact execAdd_answers.keeps (execAdd_keeps hk)
  | sub _ _ => exact execSub_answers.keeps (execSub_keeps hk)
  | and_ _ _ => exact execAnd_answers.keeps (execAnd_keeps hk)
  | or_ _ _ => exact execOr_answers.keeps (execOr_keeps hk)
  | xor _ _ => exact execXor_answers.keeps (execXor_keeps hk)
  | sll _ _ => exact execSll_answers.keeps (execSll_keeps hk)
  | srl _ _ => exact execSrl_answers.keeps (execSrl_keeps hk)
  | sra _ _ => exact execSra_answers.keeps (execSra_keeps hk)
  | mul _ _ => exact execMul_answers.keeps (execMul_keeps hk)
  | mulhu _ _ => exact execMulhu_answers.keeps (execMulhu_keeps hk)
  | slt _ _ => exact execSlt_answers.keeps (execSlt_keeps hk)
  | sltu _ _ => exact execSltu_answers.keeps (execSltu_keeps hk)
  | min _ _ => exact execMin_answers.keeps (execMin_keeps hk)
  | max _ _ => exact execMax_answers.keeps (execMax_keeps hk)
  | addi _ _ => exact execAddi_answers.keeps (execAddi_keeps hk)
  | andi _ _ => exact execAndi_answers.keeps (execAndi_keeps hk)
  | ori _ _ => exact execOri_answers.keeps (execOri_keeps hk)
  | xori _ _ => exact execXori_answers.keeps (execXori_keeps hk)
  | slli _ _ => exact execSlli_answers.keeps (execSlli_keeps hk)
  | srli _ _ => exact execSrli_answers.keeps (execSrli_keeps hk)
  | srai _ _ => exact execSrai_answers.keeps (execSrai_keeps hk)
  | slti _ _ => exact execSlti_answers.keeps (execSlti_keeps hk)
  | sltiu _ _ => exact execSltiu_answers.keeps (execSltiu_keeps hk)
  | li _ _ => exact execLi_answers.keeps (execLi_keeps hk)
  | lih _ _ => exact execLih_answers.keeps (execLih_keeps hk)
  | beq _ _ => exact execBeq_answers.keeps (execBeq_keeps hk)
  | bne _ _ => exact execBne_answers.keeps (execBne_keeps hk)
  | blt _ _ => exact execBlt_answers.keeps (execBlt_keeps hk)
  | bge _ _ => exact execBge_answers.keeps (execBge_keeps hk)
  | bltu _ _ => exact execBltu_answers.keeps (execBltu_keeps hk)
  | bgeu _ _ => exact execBgeu_answers.keeps (execBgeu_keeps hk)
  | jal _ _ => exact execJal_answers.keeps (execJal_keeps hk)
  | jr _ _ => exact execJr_answers.keeps (execJr_keeps hk)
  | loop _ _ => exact execLoop_answers.keeps (execLoop_keeps hk)
  | mvlc _ _ => exact execMvlc_answers.keeps (execMvlc_keeps hk)
  | mvsa _ _ => exact execMvsa_answers.keeps (execMvsa_keeps hk)
  | adda _ _ => exact execAdda_answers.keeps (execAdda_keeps hk)
  | lds _ _ => exact execLds_answers.keeps (execLds_keeps hk)
  | sts _ _ => exact execSts_answers.keeps (execSts_keeps hk)
  | ld _ _ => exact execLd_answers.keeps (execLd_keeps hk)
  | st _ _ => exact execSt_answers.keeps (execSt_keeps hk)
  | amo _ _ => exact execAmo_answers.keeps (execAmo_keeps hk)
  | seqAccessComplete _ _ _ => exact execSeqAccessComplete_answers.keeps (execSeqAccessComplete_keeps hk)
  | fence _ _ => exact execFence_answers.keeps (execFence_keeps hk)
  | fenceComplete _ => exact execFenceComplete_answers.keeps (execFenceComplete_keeps hk)
  | rdcr _ _ => exact execRdcr_answers.keeps (execRdcr_keeps hk)
  | wrcr _ _ => exact execWrcr_answers.keeps (execWrcr_keeps hk)
  | amm _ _ _ => exact execAmm_answers.keeps (execAmm_keeps hk)
  | ammAccept _ _ => exact execAmmAccept_answers.keeps (execAmmAccept_keeps hk)
  | ammFirstArrayCycle _ _ => exact execAmmFirstArrayCycle_answers.keeps (execAmmFirstArrayCycle_keeps hk)
  | ammTileDrain _ _ => exact execAmmTileDrain_answers.keeps (execAmmTileDrain_keeps hk)
  | ammComplete _ _ => exact execAmmComplete_answers.keeps (execAmmComplete_keeps hk)
  | ashlarSingleBitError _ _ _ => exact execAshlarSingleBitError_answers.keeps (execAshlarSingleBitError_keeps hk)
  | ashlarDoubleBitError _ _ => exact execAshlarDoubleBitError_answers.keeps (execAshlarDoubleBitError_keeps hk)
  | chn _ _ => exact execChn_answers.keeps (execChn_keeps hk)
  | chiselAccept _ => exact execChiselAccept_answers.keeps (execChiselAccept_keeps hk)
  | chnFirstBeat _ => exact execChnFirstBeat_answers.keeps (execChnFirstBeat_keeps hk)
  | chnComplete _ => exact execChnComplete_answers.keeps (execChnComplete_keeps hk)
  | cfold _ _ => exact execCfold_answers.keeps (execCfold_keeps hk)
  | cfoldFirstRow _ => exact execCfoldFirstRow_answers.keeps (execCfoldFirstRow_keeps hk)
  | cfoldComplete _ => exact execCfoldComplete_answers.keeps (execCfoldComplete_keeps hk)
  | ctbl _ _ => exact execCtbl_answers.keeps (execCtbl_keeps hk)
  | ctblComplete _ => exact execCtblComplete_answers.keeps (execCtblComplete_keeps hk)
  | chiselEccError _ _ _ => exact execChiselEccError_answers.keeps (execChiselEccError_keeps hk)
  | chsDirectGo _ _ => exact execChsDirectGo_answers.keeps (execChsDirectGo_keeps hk)
  | dma _ _ => exact execDma_answers.keeps (execDma_keeps hk)
  | dmaDescriptorStart _ _ => exact execDmaDescriptorStart_answers.keeps (execDmaDescriptorStart_keeps hk)
  | dmaTimedRelease _ _ => exact execDmaTimedRelease_answers.keeps (execDmaTimedRelease_keeps hk)
  | dmaLineComplete _ _ _ => exact execDmaLineComplete_answers.keeps (execDmaLineComplete_keeps hk)
  | dmaDescriptorComplete _ _ => exact execDmaDescriptorComplete_answers.keeps (execDmaDescriptorComplete_keeps hk)
  | dmaSignalDone _ _ _ => exact execDmaSignalDone_answers.keeps (execDmaSignalDone_keeps hk)
  | waite _ _ => exact execWaite_answers.keeps (execWaite_keeps hk)
  | waiteComplete _ => exact execWaiteComplete_answers.keeps (execWaiteComplete_keeps hk)
  | waitf _ _ => exact execWaitf_answers.keeps (execWaitf_keeps hk)
  | waitfEvaluate _ _ => exact execWaitfEvaluate_answers.keeps (execWaitfEvaluate_keeps hk)
  | waitfDeadline _ => exact execWaitfDeadline_answers.keeps (execWaitfDeadline_keeps hk)
  | waitp _ _ => exact execWaitp_answers.keeps (execWaitp_keeps hk)
  | plumbWaitRelease _ => exact execPlumbWaitRelease_answers.keeps (execPlumbWaitRelease_keeps hk)
  | rdplumb _ _ => exact execRdplumb_answers.keeps (execRdplumb_keeps hk)
  | end_ _ _ => exact execEnd_answers.keeps (execEnd_keeps hk)
  | nodeEnd _ => exact execNodeEnd_answers.keeps (execNodeEnd_keeps hk)
  | kernelFaultEnd _ => exact execKernelFaultEnd_answers.keeps (execKernelFaultEnd_keeps hk)
  | nodeStart _ => exact execNodeStart_answers.keeps (execNodeStart_keeps hk)
  | spadEccError _ _ _ => exact execSpadEccError_answers.keeps (execSpadEccError_keeps hk)
  | coreCommit _ _ => exact execCoreCommit_answers.keeps (execCoreCommit_keeps hk)
  | commitApply _ => exact execCommitApply_answers.keeps (execCommitApply_keeps hk)
  | ecodeClr _ _ => exact execEcodeClr_answers.keeps (execEcodeClr_keeps hk)
  | vclr _ => exact execVclr_answers.keeps (execVclr_keeps hk)
  | directKernelGo _ _ => exact execDirectKernelGo_answers.keeps (execDirectKernelGo_keeps hk)
  | mortarCrcFail _ _ _ => exact execMortarCrcFail_answers.keeps (execMortarCrcFail_keeps hk)
  | mortarSteerDone _ => exact execMortarSteerDone_answers.keeps (execMortarSteerDone_keeps hk)
  | lintelFlitCrcFail _ _ _ => exact execLintelFlitCrcFail_answers.keeps (execLintelFlitCrcFail_keeps hk)
  | lintelClockLockLoss _ _ => exact execLintelClockLockLoss_answers.keeps (execLintelClockLockLoss_keeps hk)
  | lintelRetrainDone _ _ => exact execLintelRetrainDone_answers.keeps (execLintelRetrainDone_keeps hk)
  | lintelRemapDone _ => exact execLintelRemapDone_answers.keeps (execLintelRemapDone_keeps hk)
  | qdbPush _ _ => exact execQdbPush_answers.keeps (execQdbPush_keeps hk)
  | qctlWrite _ _ _ => exact execQctlWrite_answers.keeps (execQctlWrite_keeps hk)
  | gclr _ => exact execGclr_answers.keeps (execGclr_keeps hk)
  | queuePop _ => exact execQueuePop_answers.keeps (execQueuePop_keeps hk)
  | entryStart _ _ => exact execEntryStart_answers.keeps (execEntryStart_keeps hk)
  | packetIssue _ _ _ => exact execPacketIssue_answers.keeps (execPacketIssue_keeps hk)
  | packetNop _ _ _ => exact execPacketNop_answers.keeps (execPacketNop_keeps hk)
  | dispatch _ _ _ => exact execDispatch_answers.keeps (execDispatch_keeps hk)
  | write _ _ _ _ => exact execWrite_answers.keeps (execWrite_keeps hk)
  | signal _ _ _ _ => exact execSignal_answers.keeps (execSignal_keeps hk)
  | waitmem _ _ _ r => exact execWaitmem_answers.keeps (execWaitmem_keeps (_r := r) hk)
  | waitmemEvaluate _ _ _ _ => exact execWaitmemEvaluate_answers.keeps (execWaitmemEvaluate_keeps hk)
  | poolAlloc _ _ _ => exact execPoolAlloc_answers.keeps (execPoolAlloc_keeps hk)
  | poolFree _ _ _ => exact execPoolFree_answers.keeps (execPoolFree_keeps hk)
  | enq _ _ _ _ => exact execEnq_answers.keeps (execEnq_keeps hk)
  | enqRetry _ _ _ _ => exact execEnqRetry_answers.keeps (execEnqRetry_keeps hk)
  | ginit _ _ _ => exact execGinit_answers.keeps (execGinit_keeps hk)
  | gpatch _ _ _ => exact execGpatch_answers.keeps (execGpatch_keeps hk)
  | gretire _ _ _ => exact execGretire_answers.keeps (execGretire_keeps hk)
  | packetComplete _ _ _ => exact execPacketComplete_answers.keeps (execPacketComplete_keeps hk)
  | nodeReady _ _ => exact execNodeReady_answers.keeps (execNodeReady_keeps hk)
  | entryComplete _ => exact execEntryComplete_answers.keeps (execEntryComplete_keeps hk)
  | hangDetect _ => exact execHangDetect_answers.keeps (execHangDetect_keeps hk)
  | queueResetFinish _ => exact execQueueResetFinish_answers.keeps (execQueueResetFinish_keeps hk)
  | cevctlWrite _ _ _ => exact execCevctlWrite_answers.keeps (execCevctlWrite_keeps hk)
  | cevptrWrite _ _ _ => exact execCevptrWrite_answers.keeps (execCevptrWrite_keeps hk)
  | coreGrant => exact execCoreGrant_answers.keeps (execCoreGrant_keeps hk)
  | timedPrepare _ => exact execTimedPrepare_answers.keeps (execTimedPrepare_keeps hk)
  | timedRelease _ => exact execTimedRelease_answers.keeps (execTimedRelease_keeps hk)
  | preempt _ => exact execPreempt_answers.keeps (execPreempt_keeps hk)
  | coreSaveDone _ => exact execCoreSaveDone_answers.keeps (execCoreSaveDone_keeps hk)
  | restore _ => exact execRestore_answers.keeps (execRestore_keeps hk)
  | coreFailure _ => exact execCoreFailure_answers.keeps (execCoreFailure_keeps hk)
  | schedulerEpoch => exact execSchedulerEpoch_answers.keeps (execSchedulerEpoch_keeps hk)
  | poolctlWrite _ _ _ => exact execPoolctlWrite_answers.keeps (execPoolctlWrite_keeps hk)
  | poolEnableDone _ => exact execPoolEnableDone_answers.keeps (execPoolEnableDone_keeps hk)
  | poolEpochEnd => exact execPoolEpochEnd_answers.keeps (execPoolEpochEnd_keeps hk)
  | tableSearch _ => exact execTableSearch_answers.keeps (execTableSearch_keeps hk)
  | tableSearchDone _ => exact execTableSearchDone_answers.keeps (execTableSearchDone_keeps hk)
  | xctlInv _ _ => exact execXctlInv_answers.keeps (execXctlInv_keeps hk)
  | xctlEn _ _ _ => exact execXctlEn_answers.keeps (execXctlEn_keeps hk)
  | invalidationDone _ => exact execInvalidationDone_answers.keeps (execInvalidationDone_keeps hk)
  | owncmd _ _ => exact execOwncmd_answers.keeps (execOwncmd_keeps hk)
  | owncmdDone => exact execOwncmdDone_answers.keeps (execOwncmdDone_keeps hk)
  | bar2Access _ _ _ => exact execBar2Access_answers.keeps (execBar2Access_keeps hk)
  | migrationComplete _ _ => exact execMigrationComplete_answers.keeps (execMigrationComplete_keeps hk)
  | migrationFail _ _ => exact execMigrationFail_answers.keeps (execMigrationFail_keeps hk)
  | migratePendingRecheck _ => exact execMigratePendingRecheck_answers.keeps (execMigratePendingRecheck_keeps hk)
  | hbmCorrectableRead _ _ => exact execHbmCorrectableRead_answers.keeps (execHbmCorrectableRead_keeps hk)
  | hbmUncorrectableRead _ _ _ => exact execHbmUncorrectableRead_answers.keeps (execHbmUncorrectableRead_keeps hk)
  | hbmLinkError _ _ => exact execHbmLinkError_answers.keeps (execHbmLinkError_keeps hk)
  | hbmRetrainDone _ _ => exact execHbmRetrainDone_answers.keeps (execHbmRetrainDone_keeps hk)
  | rowRemap _ _ _ _ _ => exact execRowRemap_answers.keeps (execRowRemap_keeps hk)
  | channelRetire _ => exact execChannelRetire_answers.keeps (execChannelRetire_keeps hk)
  | recalStart _ _ => exact execRecalStart_answers.keeps (execRecalStart_keeps hk)
  | recalStep _ _ => exact execRecalStep_answers.keeps (execRecalStep_keeps hk)
  | quarryKindChange _ _ => exact execQuarryKindChange_answers.keeps (execQuarryKindChange_keeps hk)
  | quarryEccError _ _ _ _ => exact execQuarryEccError_answers.keeps (execQuarryEccError_keeps hk)
  | rlcRead _ _ _ _ _ _ _ => exact execRlcRead_answers.keeps (execRlcRead_keeps hk)
  | rlcWrite _ _ _ _ _ _ _ _ => exact execRlcWrite_answers.keeps (execRlcWrite_keeps hk)
  | releaseFlush _ => exact execReleaseFlush_answers.keeps (execReleaseFlush_keeps hk)
  | releaseFlushDone _ => exact execReleaseFlushDone_answers.keeps (execReleaseFlushDone_keeps hk)
  | rlcEccError _ _ _ _ => exact execRlcEccError_answers.keeps (execRlcEccError_keeps hk)
  | flitReceive _ _ _ _ _ => exact execFlitReceive_answers.keeps (execFlitReceive_keeps hk)
  | laneLeave _ _ why => exact execLaneLeave_answers.keeps (execLaneLeave_keeps (_why := why) hk)
  | portHoldEnd _ => exact execPortHoldEnd_answers.keeps (execPortHoldEnd_keeps hk)
  | laneRetrainAttemptEnd _ _ _ => exact execLaneRetrainAttemptEnd_answers.keeps (execLaneRetrainAttemptEnd_keeps hk)
  | portRetrainAttemptEnd _ _ _ => exact execPortRetrainAttemptEnd_answers.keeps (execPortRetrainAttemptEnd_keeps hk)
  | portDownRetry _ => exact execPortDownRetry_answers.keeps (execPortDownRetry_keeps hk)
  | portTrained _ _ _ => exact execPortTrained_answers.keeps (execPortTrained_keeps hk)
  | spanCommit _ => exact execSpanCommit_answers.keeps (execSpanCommit_keeps hk)
  | routeEnWrite _ _ => exact execRouteEnWrite_answers.keeps (execRouteEnWrite_keeps hk)
  | protoActWrite _ _ => exact execProtoActWrite_answers.keeps (execProtoActWrite_keeps hk)
  | spanIdWrite _ _ => exact execSpanIdWrite_answers.keeps (execSpanIdWrite_keeps hk)
  | routeGo _ => exact execRouteGo_answers.keeps (execRouteGo_keeps hk)
  | routeSwitch => exact execRouteSwitch_answers.keeps (execRouteSwitch_keeps hk)
  | routeDrainEnd => exact execRouteDrainEnd_answers.keeps (execRouteDrainEnd_keeps hk)
  | packetRoute _ _ => exact execPacketRoute_answers.keeps (execPacketRoute_keeps hk)
  | packetStaleDrop _ _ => exact execPacketStaleDrop_answers.keeps (execPacketStaleDrop_keeps hk)
  | remoteRequestServe _ => exact execRemoteRequestServe_answers.keeps (execRemoteRequestServe_keeps hk)
  | remoteResponse _ => exact execRemoteResponse_answers.keeps (execRemoteResponse_keeps hk)
  | remoteTimeout _ => exact execRemoteTimeout_answers.keeps (execRemoteTimeout_keeps hk)
  | mgmtAccess _ => exact execMgmtAccess_answers.keeps (execMgmtAccess_keeps hk)
  | plumbInterval _ _ _ => exact execPlumbInterval_answers.keeps (execPlumbInterval_keeps hk)
  | plumbRootLockTimeout => exact execPlumbRootLockTimeout_answers.keeps (execPlumbRootLockTimeout_keeps hk)
  | outboundCompletion _ _ => exact execOutboundCompletion_answers.keeps (execOutboundCompletion_keeps hk)
  | pcieLinkReset => exact execPcieLinkReset_answers.keeps (execPcieLinkReset_keeps hk)
  | msixUnmask _ => exact execMsixUnmask_answers.keeps (execMsixUnmask_keeps hk)
  | masonAccess _ _ _ _ => exact execMasonAccess_answers.keeps (execMasonAccess_keeps hk)
  | vmodLoss => exact execVmodLoss_answers.keeps (execVmodLoss_keeps hk)
  | vmodReturn => exact execVmodReturn_answers.keeps (execVmodReturn_keeps hk)
  | domainTransitionDone _ => exact execDomainTransitionDone_answers.keeps (execDomainTransitionDone_keeps hk)
  | clockChangeApply _ => exact execClockChangeApply_answers.keeps (execClockChangeApply_keeps hk)
  | regulatorSettled _ => exact execRegulatorSettled_answers.keeps (execRegulatorSettled_keeps hk)
  | avsSilent _ => exact execAvsSilent_answers.keeps (execAvsSilent_keeps hk)
  | powerInterval _ => exact execPowerInterval_answers.keeps (execPowerInterval_keeps hk)
  | groupFreqStep _ => exact execGroupFreqStep_answers.keeps (execGroupFreqStep_keeps hk)
  | buttressEntered => exact execButtressEntered_answers.keeps (execButtressEntered_keeps hk)
  | buttressEnd => exact execButtressEnd_answers.keeps (execButtressEnd_keeps hk)
  | thermalTrip _ => exact execThermalTrip_answers.keeps (execThermalTrip_keeps hk)
  | thermalShutdown => exact execThermalShutdown_answers.keeps (execThermalShutdown_keeps hk)
  | coolantStale => exact execCoolantStale_answers.keeps (execCoolantStale_keeps hk)
  | modEnWrite _ _ => exact execModEnWrite_answers.keeps (execModEnWrite_keeps hk)
  | modRampStart _ => exact execModRampStart_answers.keeps (execModRampStart_keeps hk)
  | modOn _ => exact execModOn_answers.keeps (execModOn_keeps hk)
  | modWindowEnd _ _ => exact execModWindowEnd_answers.keeps (execModWindowEnd_keeps hk)
  | modCurrentLimit _ _ => exact execModCurrentLimit_answers.keeps (execModCurrentLimit_keeps hk)
  | modLimitLatch _ => exact execModLimitLatch_answers.keeps (execModLimitLatch_keeps hk)
  | modRetry _ => exact execModRetry_answers.keeps (execModRetry_keeps hk)
  | modRetriesClear _ => exact execModRetriesClear_answers.keeps (execModRetriesClear_keeps hk)
  | modCtlClr _ => exact execModCtlClr_answers.keeps (execModCtlClr_keeps hk)
  | powerOnReset => exact execPowerOnReset_answers.keeps (execPowerOnReset_keeps hk)
  | brownOutReset _ => exact execBrownOutReset_answers.keeps (execBrownOutReset_keeps hk)
  | pinReset => exact execPinReset_answers.keeps (execPinReset_keeps hk)
  | watchdogReset => exact execWatchdogReset_answers.keeps (execWatchdogReset_keeps hk)
  | softwareReset => exact execSoftwareReset_answers.keeps (execSoftwareReset_keeps hk)
  | debugReset => exact execDebugReset_answers.keeps (execDebugReset_keeps hk)
  | refclkFailureReset => exact execRefclkFailureReset_answers.keeps (execRefclkFailureReset_keeps hk)
  | keystoneLockupReset _ => exact execKeystoneLockupReset_answers.keeps (execKeystoneLockupReset_keeps hk)
  | resetSourceEnd _ => exact execResetSourceEnd_answers.keeps (execResetSourceEnd_keeps hk)
  | resetReleaseStep _ => exact execResetReleaseStep_answers.keeps (execResetReleaseStep_keeps hk)
  | memoryStepsDone _ _ => exact execMemoryStepsDone_answers.keeps (execMemoryStepsDone_keeps hk)
  | startupDone => exact execStartupDone_answers.keeps (execStartupDone_keeps hk)
  | storeUpdateDone _ => exact execStoreUpdateDone_answers.keeps (execStoreUpdateDone_keeps hk)
  | mbGo _ _ => exact execMbGo_answers.keeps (execMbGo_keeps hk)
  | arbitrationSlot => exact execArbitrationSlot_answers.keeps (execArbitrationSlot_keeps hk)
  | sysInfo => exact execSysInfo_answers.keeps (execSysInfo_keeps hk)
  | sysCause => exact execSysCause_answers.keeps (execSysCause_keeps hk)
  | sysReset => exact execSysReset_answers.keeps (execSysReset_keeps hk)
  | sysOffline => exact execSysOffline_answers.keeps (execSysOffline_keeps hk)
  | packageStop => exact execPackageStop_answers.keeps (execPackageStop_keeps hk)
  | sysDrv => exact execSysDrv_answers.keeps (execSysDrv_keeps hk)
  | sysM3 => exact execSysM3_answers.keeps (execSysM3_keeps hk)
  | sysSetread => exact execSysSetread_answers.keeps (execSysSetread_keeps hk)
  | pwrCap => exact execPwrCap_answers.keeps (execPwrCap_keeps hk)
  | pwrFreq => exact execPwrFreq_answers.keeps (execPwrFreq_keeps hk)
  | pwrDomain => exact execPwrDomain_answers.keeps (execPwrDomain_keeps hk)
  | pwrStatus => exact execPwrStatus_answers.keeps (execPwrStatus_keeps hk)
  | thmCoolant => exact execThmCoolant_answers.keeps (execThmCoolant_keeps hk)
  | thmStatus => exact execThmStatus_answers.keeps (execThmStatus_keeps hk)
  | memIntlv => exact execMemIntlv_answers.keeps (execMemIntlv_keeps hk)
  | memQkind => exact execMemQkind_answers.keeps (execMemQkind_keeps hk)
  | memStatus => exact execMemStatus_answers.keeps (execMemStatus_keeps hk)
  | spanId => exact execSpanId_answers.keeps (execSpanId_keeps hk)
  | spanPorts => exact execSpanPorts_answers.keeps (execSpanPorts_keeps hk)
  | spanPlumb => exact execSpanPlumb_answers.keeps (execSpanPlumb_keeps hk)
  | spanPortclr => exact execSpanPortclr_answers.keeps (execSpanPortclr_keeps hk)
  | spanSend => exact execSpanSend_answers.keeps (execSpanSend_keeps hk)
  | spanRoute => exact execSpanRoute_answers.keeps (execSpanRoute_keeps hk)
  | spanSwitch => exact execSpanSwitch_answers.keeps (execSpanSwitch_keeps hk)
  | spanCtl => exact execSpanCtl_answers.keeps (execSpanCtl_keeps hk)
  | spanStatus => exact execSpanStatus_answers.keeps (execSpanStatus_keeps hk)
  | calRead => exact execCalRead_answers.keeps (execCalRead_keeps hk)
  | calVoff => exact execCalVoff_answers.keeps (execCalVoff_keeps hk)
  | calAsym => exact execCalAsym_answers.keeps (execCalAsym_keeps hk)
  | calHbm => exact execCalHbm_answers.keeps (execCalHbm_keeps hk)
  | calHbmDone => exact execCalHbmDone_answers.keeps (execCalHbmDone_keeps hk)
  | calClear => exact execCalClear_answers.keeps (execCalClear_keeps hk)
  | fwWrite _ => exact execFwWrite_answers.keeps (execFwWrite_keeps hk)
  | fwSeal _ _ _ => exact execFwSeal_answers.keeps (execFwSeal_keeps hk)
  | fwActivate => exact execFwActivate_answers.keeps (execFwActivate_keeps hk)
  | fwHandoverDone _ => exact execFwHandoverDone_answers.keeps (execFwHandoverDone_keeps hk)
  | fwCommit => exact execFwCommit_answers.keeps (execFwCommit_keeps hk)
  | fwAutoCommit => exact execFwAutoCommit_answers.keeps (execFwAutoCommit_keeps hk)
  | fwStatus => exact execFwStatus_answers.keeps (execFwStatus_keeps hk)
  | rasRead => exact execRasRead_answers.keeps (execRasRead_keeps hk)
  | rasRetire => exact execRasRetire_answers.keeps (execRasRetire_keeps hk)
  | rasClear => exact execRasClear_answers.keeps (execRasClear_keeps hk)
  | testCfg => exact execTestCfg_answers.keeps (execTestCfg_keeps hk)
  | testRun => exact execTestRun_answers.keeps (execTestRun_keeps hk)
  | testStatus => exact execTestStatus_answers.keeps (execTestStatus_keeps hk)
  | selfTestRotation => exact (execSelfTestRotation_answers (s := s)).keeps (execSelfTestRotation_keeps hk)
  | selfTestDone _ => exact execSelfTestDone_answers.keeps (execSelfTestDone_keeps hk)
  | modSet => exact execModSet_answers.keeps (execModSet_keeps hk)
  | modClr => exact execModClr_answers.keeps (execModClr_keeps hk)
  | modStatus => exact execModStatus_answers.keeps (execModStatus_keeps hk)
  | mbRasRptrWrite _ _ => exact execMbRasRptrWrite_answers.keeps (execMbRasRptrWrite_keeps hk)
  | i3cPrivateWrite _ => exact execI3cPrivateWrite_answers.keeps (execI3cPrivateWrite_keeps hk)
  | i3cPrivateRead _ => exact execI3cPrivateRead_answers.keeps (execI3cPrivateRead_keeps hk)
  | idcode => exact execIdcode_answers.keeps (execIdcode_keeps hk)
  | bypass => exact execBypass_answers.keeps (execBypass_keeps hk)
  | sample => exact execSample_answers.keeps (execSample_keeps hk)
  | extest _ => exact execExtest_answers.keeps (execExtest_keeps hk)
  | dbgHalt => exact execDbgHalt_answers.keeps (execDbgHalt_keeps hk)
  | dbgEnFall => exact execDbgEnFall_answers.keeps (execDbgEnFall_keeps hk)
  | registerWrite _ _ _ => exact execRegisterWrite_answers.keeps (execRegisterWrite_keeps hk)
  | powerLoss => exact execPowerLoss_answers.keeps (execPowerLoss_keeps hk)
  | buttressNRise => exact execButtressNRise_answers.keeps (execButtressNRise_keeps hk)
  | dbgEnRise => exact execDbgEnRise_answers.keeps (execDbgEnRise_keeps hk)
  | pcieLinkUp => exact execPcieLinkUp_answers.keeps (execPcieLinkUp_keeps hk)
  | pcieConfigWrite _ _ _ _ => exact execPcieConfigWrite_answers.keeps (execPcieConfigWrite_keeps hk)
  | masonHartsStopped _ => exact execMasonHartsStopped_answers.keeps (execMasonHartsStopped_keeps hk)
  | dynamicAddressAssignment _ => exact execDynamicAddressAssignment_answers.keeps (execDynamicAddressAssignment_keeps hk)

theorem exec_next_keeps {i : Instr} {s t : State} (h : exec i s = .next t) : Keeps s t := by
  obtain ⟨u, hu, hk⟩ := exec_keeps i s
  rw [h] at hu
  cases hu
  exact hk

/-! ## The nanosecond of an empty queue -/

theorem tickWait_keeps {a s : State} (hk : Keeps a s) : Keeps a (tickWait s) :=
  foldl_keeps hk fun _ _ h => ite_keeps (modCore_keeps h) h

theorem tickHang_keeps {a s : State} (hk : Keeps a s) : Keeps a (tickHang s) :=
  foldl_keeps hk fun _ _ h => ite_keeps (modQueue_keeps h) h

/-- The clock and Plumb time are no part of the canonical form. -/
theorem Canonical.withClock {s : State} (h : Canonical s) (now : Nat) (plumb : PlumbSt) :
    Canonical { s with now := now, plumb := plumb } := { h with }

theorem tick_canonical {s : State} (h : Canonical s) : Canonical (tick s) := by
  have hk : Keeps s (tickHang (tickPower (tickWait s))) := tickHang_keeps (tickPower_keeps (tickWait_keeps (Keeps.refl s)))
  exact (hk.canon h).withClock _ _

/-- The waiting commands are no part of the canonical form. -/
theorem Canonical.withPending {s : State} (h : Canonical s) (l : List Instr) : Canonical { s with pending := l } := { h with }

/-! ## A step -/

theorem step_of_nil {s : State} (h : s.pending = []) : step s = .next (tick s) := by
  rw [step, h]

theorem step_of_cons {s : State} {i : Instr} {rest : List Instr} (h : s.pending = i :: rest) :
    step s = exec i { s with pending := rest } := by
  rw [step, h]

/-- Settles O1: every table of the reset state is empty. -/
theorem resetCanonical : Obligations.ResetCanonical := by
  unfold Obligations.ResetCanonical
  constructor <;> rfl

/-- Settles O2, by the two kinds of step: a command keeps the canonical form, and so does the nanosecond. -/
theorem stepKeepsCanonical : Obligations.StepKeepsCanonical := by
  unfold Obligations.StepKeepsCanonical
  intro s t hs h
  cases hp : s.pending with
  | nil =>
    rw [step_of_nil hp] at h
    cases h
    exact tick_canonical hs
  | cons i rest =>
    rw [step_of_cons hp] at h
    exact (exec_next_keeps h).canon (hs.withPending rest)

/-- Settles O3. -/
theorem stepTakesTheFrontCommand : Obligations.StepTakesTheFrontCommand := by
  unfold Obligations.StepTakesTheFrontCommand
  intro i rest s h
  exact step_of_cons h

/-- Settles O4. -/
theorem commandsLeaveQueueAndClock : Obligations.CommandsLeaveQueueAndClock := by
  unfold Obligations.CommandsLeaveQueueAndClock
  intro i s t h
  have hk := exec_next_keeps h
  exact ⟨hk.pending, hk.now⟩

/-- Settles O5. -/
theorem everyCommandAnswers : Obligations.EveryCommandAnswers := by
  unfold Obligations.EveryCommandAnswers
  intro i s
  obtain ⟨t, ht, _⟩ := exec_keeps i s
  exact ⟨t, ht⟩

end Sys2Proof.Machine
end

section
/-!
SUPPORT. The scalar instructions, the branches, the jumps and the loops of the sequencer (R135, R136, R141 to R145, Table 5.3), the
words that end a kernel (R138), and the statements about them.
-/

namespace Sys2Proof.Machine

/-- Settles O9. -/
theorem zeroRegistersReadZero : Obligations.ZeroRegistersReadZero := by
  unfold Obligations.ZeroRegistersReadZero
  intro k v
  refine ⟨sreg_zero k, areg_zero k, ?_, ?_⟩
  · rw [setS, if_pos rfl]
  · rw [setA, if_pos rfl]

/-! ## The functions of Table 5.3 -/

theorem extractLsb_5_0 (b : BitVec 64) : (b.extractLsb 5 0).toNat = b.toNat % 64 := by
  simp [BitVec.extractLsb_toNat]

theorem aluMulhu_eq (a b : BitVec 64) : aluMulhu a b = (a.setWidth 128 * b.setWidth 128).extractLsb 127 64 := by
  have ha := a.isLt
  have hb := b.isLt
  have hab : a.toNat * b.toNat < 2 ^ 64 * 2 ^ 64 := Nat.mul_lt_mul'' ha hb
  apply BitVec.eq_of_toNat_eq
  simp only [aluMulhu, BitVec.toNat_ofNat, BitVec.extractLsb_toNat, BitVec.toNat_mul, BitVec.toNat_setWidth, Nat.shiftRight_eq_div_pow]
  rw [Nat.mod_eq_of_lt (a := a.toNat) (by omega), Nat.mod_eq_of_lt (a := b.toNat) (by omega), Nat.mod_eq_of_lt (a := a.toNat * b.toNat) (by omega)]

theorem aluSlt_eq (a b : BitVec 64) : aluSlt a b = if a.slt b then 1 else 0 := by
  simp only [aluSlt, BitVec.slt_iff_toInt_lt]

theorem aluSltu_eq (a b : BitVec 64) : aluSltu a b = if a.ult b then 1 else 0 := by
  simp only [aluSltu, BitVec.ult_iff_toNat_lt]

theorem aluMin_eq (a b : BitVec 64) : aluMin a b = if b.slt a then b else a := by
  simp only [aluMin, BitVec.slt_iff_toInt_lt, ← not_lt, ite_not]

theorem aluMax_eq (a b : BitVec 64) : aluMax a b = if a.slt b then b else a := by
  simp only [aluMax, BitVec.slt_iff_toInt_lt]
  by_cases h : a.toInt < b.toInt
  · rw [if_pos h, if_pos (by omega)]
  · rw [if_neg h]
    by_cases he : a.toInt ≤ b.toInt
    · rw [if_pos he, BitVec.eq_of_toInt_eq (show b.toInt = a.toInt by omega)]
    · rw [if_neg he]

theorem aluLih_eq (a b : BitVec 64) : aluLih a b = b.extractLsb 31 0 ++ a.extractLsb 31 0 := by
  apply BitVec.eq_of_toNat_eq
  rw [BitVec.toNat_append, Nat.shiftLeft_eq, ← Nat.shiftLeft_eq, ← Nat.shiftLeft_add_eq_or_of_lt (BitVec.isLt _)]
  simp only [aluLih, BitVec.toNat_ofNat, BitVec.extractLsb_toNat, Nat.shiftLeft_eq, Nat.shiftRight_zero]
  omega

/-- A row of format R is the scalar instruction of its function. -/
theorem exec_rowR {p : (Core → BitVec 56 → Instr) × (BitVec 64 → BitVec 64 → BitVec 64)} (hp : p ∈ rowsR) (c : Core) (w : BitVec 56)
    (s : State) : exec (p.1 c w) s = opR c w s p.2 := by
  have hsll : aluSll = fun a b => a <<< (b.extractLsb 5 0).toNat := by funext a b; rw [extractLsb_5_0, aluSll]
  have hsrl : aluSrl = fun a b => a >>> (b.extractLsb 5 0).toNat := by funext a b; rw [extractLsb_5_0, aluSrl]
  have hsra : aluSra = fun a b => a.sshiftRight (b.extractLsb 5 0).toNat := by funext a b; rw [extractLsb_5_0, aluSra]
  simp only [rowsR, List.mem_cons, List.not_mem_nil, or_false] at hp
  rcases hp with rfl | rfl | rfl | rfl | rfl | rfl | rfl | rfl | rfl | rfl | rfl | rfl | rfl | rfl
  · rfl
  · rfl
  · rfl
  · rfl
  · rfl
  · exact congrArg (opR c w s) hsll
  · exact congrArg (opR c w s) hsrl
  · exact congrArg (opR c w s) hsra
  · rfl
  · exact congrArg (opR c w s) (funext₂ aluMulhu_eq)
  · exact congrArg (opR c w s) (funext₂ aluSlt_eq)
  · exact congrArg (opR c w s) (funext₂ aluSltu_eq)
  · exact congrArg (opR c w s) (funext₂ aluMin_eq)
  · exact congrArg (opR c w s) (funext₂ aluMax_eq)

/-! ## The scalar instructions -/

/-- A scalar instruction that issues writes its function of the core to SD. -/
theorem scalarOp_writes {s : State} {c : Core} {w : BitVec 56} {legal : Bool} {regs : List Nat} (h : Issues s c legal (fSD w :: regs))
    (f : CoreSt → BitVec 64) :
    ∃ t, scalarOp c w s legal regs f = .next t ∧ WritesScalar s t c.val (fSD w) (f (getCore s c.val)) :=
  ⟨_, by rw [scalarOp, h.runs], writesScalar_setCore ..⟩

/-- Settles O6. -/
theorem formatRRuns : Obligations.FormatRRuns := by
  unfold Obligations.FormatRRuns
  intro p hp c w s h
  rw [exec_rowR hp]
  exact scalarOp_writes h _

/-- An IMM of 0 to 63 is its own sign extension. -/
theorem toNat_imm_of_le {w : BitVec 56} (h : bf w 31 0 ≤ 63) : ((w.extractLsb 31 0).signExtend 64).toNat ≤ 63 := by
  rw [bf_eq_extractLsb w 31 0 (by omega)] at h
  have hmsb : (w.extractLsb 31 0).msb = false := by
    rw [BitVec.msb_eq_decide, decide_eq_false_iff_not]
    show ¬ 2 ^ (31 - 0 + 1 - 1) ≤ _
    omega
  rw [BitVec.toNat_signExtend, hmsb]
  simp only [BitVec.toNat_setWidth, Bool.false_eq_true, if_false, Nat.add_zero]
  omega

/-- A row of format I is the immediate instruction of its function, where the row's IMM is legal. -/
theorem exec_rowI {p : (Core → BitVec 56 → Instr) × Bool × (BitVec 64 → BitVec 64 → BitVec 64)} (hp : p ∈ rowsI) (c : Core)
    (w : BitVec 56) (s : State) : ∃ f, exec (p.1 c w) s = opI c w s (legalI w && (!p.2.1 || decide (bf w 31 0 ≤ 63))) f ∧
      ((p.2.1 = true → bf w 31 0 ≤ 63) → ∀ a, f a (fImm w) = p.2.2 a ((w.extractLsb 31 0).signExtend 64)) := by
  rw [fImm_eq]
  have hplain : (legalI w && (!false || decide (bf w 31 0 ≤ 63))) = legalI w := by simp
  have hshift : (legalI w && (!true || decide (bf w 31 0 ≤ 63))) = legalShift w := by simp [legalShift]
  have hmod : bf w 31 0 ≤ 63 → ((w.extractLsb 31 0).signExtend 64).toNat % 64 = ((w.extractLsb 31 0).signExtend 64).toNat :=
    fun h => Nat.mod_eq_of_lt (Nat.lt_succ_of_le (toNat_imm_of_le h))
  simp only [rowsI, List.mem_cons, List.not_mem_nil, or_false] at hp
  rcases hp with rfl | rfl | rfl | rfl | rfl | rfl | rfl | rfl | rfl | rfl
  · exact ⟨_, by rw [hplain]; rfl, fun _ _ => rfl⟩
  · exact ⟨_, by rw [hplain]; rfl, fun _ _ => rfl⟩
  · exact ⟨_, by rw [hplain]; rfl, fun _ _ => rfl⟩
  · exact ⟨_, by rw [hplain]; rfl, fun _ _ => rfl⟩
  · exact ⟨aluSll, by rw [hshift]; rfl, fun h a => by rw [aluSll, hmod (h rfl)]⟩
  · exact ⟨aluSrl, by rw [hshift]; rfl, fun h a => by rw [aluSrl, hmod (h rfl)]⟩
  · exact ⟨aluSra, by rw [hshift]; rfl, fun h a => by rw [aluSra, hmod (h rfl)]⟩
  · exact ⟨aluSlt, by rw [hplain]; rfl, fun _ a => aluSlt_eq ..⟩
  · exact ⟨aluSltu, by rw [hplain]; rfl, fun _ a => aluSltu_eq ..⟩
  · exact ⟨aluLih, by rw [hplain]; rfl, fun _ a => aluLih_eq ..⟩

/-- Settles O7. -/
theorem formatIRuns : Obligations.FormatIRuns := by
  unfold Obligations.FormatIRuns
  refine ⟨fun p hp c w s h => ?_, fun c w s h => ?_⟩
  · obtain ⟨f, he, hf⟩ := exec_rowI hp c w s
    have hw := h.word
    simp only [Bool.and_eq_true, Bool.or_eq_true, Bool.not_eq_true', decide_eq_true_eq] at hw
    rw [he, ← hf fun hshift => hw.2.resolve_left (by rw [hshift]; decide)]
    exact scalarOp_writes h _
  · rw [← fImm_eq]
    have hs : Issues s c (legalI w && decide (fSA w = 0)) [fSD w, fSA w] := by
      refine ⟨h.issuing, h.word, fun r hr => ?_⟩
      have hw := h.word
      simp only [Bool.and_eq_true, decide_eq_true_eq] at hw
      rcases List.mem_cons.1 hr with rfl | hr
      · exact h.ready _ (List.mem_singleton.2 rfl)
      · rw [List.mem_singleton.1 hr, hw.2]
        simp [busyReg]
    exact scalarOp_writes hs _

/-- Settles O8. -/
theorem movesAndNopRun : Obligations.MovesAndNopRun := by
  unfold Obligations.MovesAndNopRun
  intro c w s
  refine ⟨fun h => scalarOp_writes h _, fun h => scalarOp_writes h _, fun h => ?_, fun h => ?_⟩
  · refine ⟨setCore s c.val (advance (getCore s c.val) 1), congrArg _ h.runs, ?_, ?_⟩
    · have hw := writesScalar_setCore s c.val 0 0
      rwa [setS, if_pos rfl] at hw
    · rw [getCore_setCore_self, (advance_loopsOnly _ 1).s]
  · refine ⟨setCore s c.val _, congrArg Host.Outcome.next h.runs, onlyCore_setCore .., ?_⟩
    rw [getCore_setCore_self]
    have ha := setA_onlyRegs (getCore s c.val) (adAD w)
      (areg (getCore s c.val) (adAA w) + sreg (getCore s c.val) (adSB w) + fImm w)
    have hl := advance_loopsOnly (setA (getCore s c.val) (adAD w)
      (areg (getCore s c.val) (adAA w) + sreg (getCore s c.val) (adSB w) + fImm w)) 1
    refine ⟨ha.trans hl.rest, pastWord_advance ha (by simp) (by simp), by rw [hl.s, setA_s], fun i => ?_⟩
    rw [areg_of_loopsOnly hl, areg_setA, fImm_eq]

/-! ## Branches (R141, R142) -/

/-- A row of format B is the branch on its condition. -/
theorem exec_rowB {p : (Core → BitVec 56 → Instr) × (BitVec 64 → BitVec 64 → Bool)} (hp : p ∈ rowsB) (c : Core) (w : BitVec 56)
    (s : State) : exec (p.1 c w) s = branchOp c w s p.2 := by
  simp only [rowsB, List.mem_cons, List.not_mem_nil, or_false] at hp
  rcases hp with rfl | rfl | rfl | rfl | rfl | rfl
  · rfl
  · exact congrArg (branchOp c w s) (funext₂ fun a b => decide_not)
  · rfl
  · rfl
  · rfl
  · rfl

/-- What an LDS finds rests on the address registers and the scratchpad. -/
theorem ldsNow_congr {k l : CoreSt} (ha : l.regs.a = k.regs.a) (hm : l.mem = k.mem) (w : Bits) : ldsNow l w = ldsNow k w := by
  simp only [ldsNow, spadEa, areg, ha, hm]

/-- A core after a branch, before it reads ahead. -/
def branched (k : CoreSt) (w : Bits) (taken : Bool) : CoreSt :=
  { (if taken then jump k (k.regs.pc + fOff w) else advance k 1) with prefetch := [] }

theorem branched_loopsOnly (k : CoreSt) (w : Bits) (taken : Bool) :
    LoopsOnly { k with prefetch := [] } (branched k w taken) := by
  have h : LoopsOnly k (if taken then jump k (k.regs.pc + fOff w) else advance k 1) := by
    split
    · exact jump_loopsOnly ..
    · exact advance_loopsOnly ..
  refine ⟨?_, h.s, h.a⟩
  rw [OnlyRegs, branched, h.rest]

theorem branched_goes (k : CoreSt) (w : Bits) (taken : Bool) :
    if taken then JumpsTo k (branched k w taken) (k.regs.pc + 8 * (w.extractLsb 31 0).signExtend 64)
    else PastWord k (branched k w taken) := by
  rw [← fOff_eq]
  cases taken
  · exact pastWord_advance (OnlyRegs.refl k) rfl rfl
  · exact jumpsTo_jump rfl rfl _

/-- A branch that issues: its core goes where the condition says, then reads ahead where that was predicted. -/
theorem branchOp_of {s : State} {c : Core} {w : BitVec 56} (h : Issues s c (legalB w) [bSA w, bSB w]) (f : BitVec 64 → BitVec 64 → Bool) :
    branchOp c w s f = .next (
      let k := getCore s c.val
      let taken := f (sreg k (bSA w)) (sreg k (bSB w))
      if readsAhead k w taken then readAhead (setCore s c.val (branched k w taken)) c.val else setCore s c.val (branched k w taken)) := by
  have ha : busyReg (getCore s c.val) (bSA w) = false := h.ready _ (by simp)
  have hb : busyReg (getCore s c.val) (bSB w) = false := h.ready _ (by simp)
  rw [branchOp, h.runs]
  simp only [h.issuing, h.word, ha, hb, Bool.not_false, Bool.and_self, Bool.true_and]
  rfl

/-- What reading ahead adds to a branch: entries that the scratchpad holds now, at most four, and no more than free values. -/
theorem readAhead_branched (s : State) (c : Nat) (w : Bits) (taken : Bool) :
    ∃ l n, l.length ≤ 4 ∧ (∀ e ∈ l, e.value = ldsNow (getCore s c) e.word) ∧
      OnlyCore { s with free := n } (readAhead (setCore s c (branched (getCore s c) w taken)) c) c ∧
      (readAhead (setCore s c (branched (getCore s c) w taken)) c).free = n ∧
      getCore (readAhead (setCore s c (branched (getCore s c) w taken)) c) c =
        { branched (getCore s c) w taken with prefetch := l } := by
  have hb := branched_loopsOnly (getCore s c) w taken
  obtain ⟨l, n, hlen, hval, h | h⟩ := readAhead_spec (s := setCore s c (branched (getCore s c) w taken)) (c := c)
  · refine ⟨[], s.free, Nat.zero_le _, fun e he => absurd he (List.not_mem_nil), ?_⟩
    rw [h]
    exact ⟨onlyCore_setCore .., rfl, getCore_setCore_self ..⟩
  · refine ⟨l, n, hlen, fun e he => ?_, ?_⟩
    · rw [hval e he, getCore_setCore_self]
      exact ldsNow_congr hb.a (by rw [hb.rest]) _
    · rw [h]
      have hset : OnlyCore { s with free := n } { setCore s c (branched (getCore s c) w taken) with free := n } c :=
        onlyCore_setCore { s with free := n } c _
      refine ⟨hset.trans (onlyCore_modCore ..), rfl, ?_⟩
      rw [getCore_modCore_self]
      exact congrArg (fun k : CoreSt => { k with prefetch := l }) (getCore_setCore_self ..)

/-- Settles O10: the core goes where the condition says; only one that goes as predicted reads ahead. -/
theorem branchesRun : Obligations.BranchesRun := by
  unfold Obligations.BranchesRun
  intro p hp c w s h
  rw [exec_rowB hp, branchOp_of h]
  dsimp only
  generalize htaken : p.2 (sreg (getCore s c.val) (bSA w)) (sreg (getCore s c.val) (bSB w)) = taken
  have hb := branched_loopsOnly (getCore s c.val) w taken
  have hgo := branched_goes (getCore s c.val) w taken
  have hpred : readsAhead (getCore s c.val) w taken = decide (bf (getCore s c.val).cr.cfg 1 0 = 3 ∧ w.getLsbD 31 = taken) := by
    simp only [readsAhead, bt, Bool.decide_and, Bool.beq_eq_decide_eq]
  rw [← hpred]
  split
  next hread =>
    obtain ⟨l, n, hlen, hval, honly, hfree, hk⟩ := readAhead_branched s c.val w taken
    refine ⟨_, rfl, by rw [hfree]; exact honly, ?_⟩
    rw [hk, hread]
    refine ⟨by rw [hb.rest], hb.s, hb.a, ⟨hlen, hval, fun hf => absurd hf (by decide)⟩, hgo⟩
  next hread =>
    refine ⟨_, rfl, onlyCore_setCore .., ?_⟩
    rw [getCore_setCore_self]
    refine ⟨by rw [hb.rest], hb.s, hb.a, ⟨Nat.zero_le _, fun e he => absurd he (List.not_mem_nil), fun _ => rfl⟩, hgo⟩

/-! ## Jumps -/

/-- A jump with a link: the link stands in SD and the target is reached. -/
theorem links_jump (s : State) (c r : Nat) (v a : BitVec 64) :
    Links s (setCore s c (jump (setS (getCore s c) r v) a)) c r v ∧
      JumpsTo (getCore s c) (getCore (setCore s c (jump (setS (getCore s c) r v) a)) c) a := by
  have hj := jump_loopsOnly (setS (getCore s c) r v) a
  refine ⟨⟨onlyCore_setCore .., ?_, ?_, fun i hi => ?_, ?_⟩, ?_⟩
  all_goals rw [getCore_setCore_self]
  · exact (setS_onlyRegs ..).trans hj.rest
  · rw [sreg_of_loopsOnly hj, sreg_setS, if_pos rfl]
  · rw [sreg_of_loopsOnly hj, sreg_setS, if_neg hi]
  · rw [hj.a, setS_a]
  · exact jumpsTo_jump (setS_cr ..) (setS_lc ..) a

/-- Clearing the low three bits is aligning to 8. -/
theorem alignTo_eight (a : BitVec 64) : alignTo a 8 = a &&& ~~~7 := by
  apply BitVec.eq_of_getLsbD_eq
  intro i hi
  have h7 : (7 : BitVec 64).getLsbD i = decide (i < 3) := by
    have hall : ∀ i < 64, (7 : BitVec 64).getLsbD i = decide (i < 3) := by decide
    exact hall i hi
  have hdiv : a.toNat / 8 * 8 = (a.toNat >>> 3) <<< 3 := by rw [Nat.shiftRight_eq_div_pow, Nat.shiftLeft_eq]
  rw [alignTo, hdiv, BitVec.getLsbD_and, BitVec.getLsbD_not, h7, BitVec.getLsbD_ofNat, Nat.testBit_shiftLeft, Nat.testBit_shiftRight]
  by_cases h3 : i < 3
  · simp [h3]
  · rw [show 3 + (i - 3) = i by omega]
    simp [h3, hi, Nat.le_of_not_lt h3, BitVec.getLsbD]

/-- Settles O11. -/
theorem jumpsLink : Obligations.JumpsLink := by
  unfold Obligations.JumpsLink
  refine fun c w s => ⟨fun h => ⟨setCore s c.val _, congrArg Host.Outcome.next h.runs, ?_⟩,
    fun h => ⟨setCore s c.val _, congrArg Host.Outcome.next h.runs, ?_⟩⟩
  · rw [← fOff_eq]
    exact links_jump ..
  · rw [← fImm_eq, ← alignTo_eight]
    exact links_jump ..

/-! ## Loops (R144, R145) -/

theorem loopEndsOnAmm_of {s : State} {c : Nat} {w : Bits} {v : Nat} (h : peekWord s c (loopLast (getCore s c) w) = some v) :
    loopEndsOnAmm s c w = (decide (v / 2 ^ 56 % 256 = 0x40), s) := by
  simp only [loopEndsOnAmm, h]

/-- A LOOP with legal fields that nothing holds back: the word at its body's end decides. -/
theorem execLoop_of {c : Core} {w : BitVec 56} {s : State} {v : Nat}
    (h : Issues s c (legalL w && loopNests (getCore s c.val) w) (if lCI w then [] else [lCS w]))
    (hv : peekWord s c.val (loopLast (getCore s c.val) w) = some v) :
    exec (.loop c w) s = .next (setCore s c.val
      (if v / 2 ^ 56 % 256 = 0x40 then illegalOp (getCore s c.val) else loopStart (getCore s c.val) w)) := by
  have hready : ((if lCI w then [] else [lCS w]).any (busyReg (getCore s c.val))) = false := by
    rw [List.any_eq_false]
    intro r hr
    rw [h.ready r hr]
    decide
  have hgo : (canIssue (getCore s c.val) && legalL w && loopNests (getCore s c.val) w &&
      !(if lCI w then [] else [lCS w]).any (busyReg (getCore s c.val))) = true := by
    rw [hready, Bool.and_assoc (canIssue _), h.issuing, h.word]
    rfl
  show execLoop c w s = _
  simp only [execLoop, hgo, if_true, loopEndsOnAmm_of hv, decide_eq_true_eq]

/-- LOOP on its counter: a count starts the body, and 0 goes past it where no other loop ends. -/
theorem loopStart_runs (k : CoreSt) (w : Bits) : LoopsOnly k (loopStart k w) ∧ LoopRuns k (loopStart k w) (lLC w) (lBlen w) (loopCount k w) := by
  rw [loopStart]
  split
  next h0 =>
    have hset := setL_loopsOnly k (lLC w) { lreg k (lLC w) with active := false }
    refine ⟨hset.trans (endBody_loopsOnly ..), fun h => absurd h0 h, fun _ hothers => ?_⟩
    have hnone : ∀ i < 4, (lreg (setL k (lLC w) { lreg k (lLC w) with active := false }) i).active = true →
        (lreg (setL k (lLC w) { lreg k (lLC w) with active := false }) i).last ≠ loopLast k w := by
      intro i hi
      rw [lreg_setL]
      split
      · exact fun h => Bool.noConfusion h
      next hne => exact hothers i hi hne
    have hpc : loopLast k w + 8 = normPc k (k.regs.pc + BitVec.ofNat 64 (8 * lBlen w)) + 8 := rfl
    rw [endBody_none 4 hnone, setPc_pc, normPc_congr (setL_cr ..), hpc, normPc_add, BitVec.add_assoc]
    refine ⟨by rw [BitVec.ofNat_add]; rfl, ?_, fun j hj => ?_⟩
    · rw [lreg_setPc, lreg_setL, if_pos rfl]
    · rw [lreg_setPc, lreg_setL, if_neg hj]
  next h0 =>
    refine ⟨(setL_loopsOnly ..).trans (setPc_loopsOnly ..), fun _ => ⟨setPc_pc .., ?_, fun j hj => ?_⟩, fun h => absurd h h0⟩
    · rw [lreg_setPc, lreg_setL, if_pos rfl]
      rfl
    · rw [lreg_setPc, lreg_setL, if_neg hj]

/-- Settles O12. -/
theorem loopStarts : Obligations.LoopStarts := by
  unfold Obligations.LoopStarts
  intro c w s v h hv hamm
  obtain ⟨hl, hr⟩ := loopStart_runs (getCore s c.val) w
  refine ⟨_, execLoop_of h hv, onlyCore_setCore .., ?_⟩
  rw [getCore_setCore_self, if_neg hamm]
  exact ⟨hl.rest, hl.s, hl.a, hr⟩

/-- The word that NOP completes is the one at pc. -/
theorem advance_one (k : CoreSt) : advance k 1 = endBody 4 k (normPc k k.regs.pc) := by
  rw [advance]
  simp

/-- Where one loop alone ends on `a`, it is the innermost there. -/
theorem innerLoop_only {k : CoreSt} {a : BitVec 64} {j : Nat} (hj : j < 4) (ha : (lreg k j).active = true) (hl : (lreg k j).last = a)
    (honly : ∀ l < 4, l ≠ j → (lreg k l).active = false) : innerLoop k a = some j :=
  innerLoop_min hj ha hl fun l hl4 hlj hact => absurd (honly l hl4 hlj) (by rw [hact]; decide)

/-- A pass of loop `j` at the end of its body, in a core whose loop `i` has just ended there. -/
theorem anotherPass_of {k k' : CoreSt} {j : Nat} (h : lreg k' j = lreg k j) :
    AnotherPass k (setPc (setL k' j { lreg k' j with index := (lreg k' j).index + 1 }) (lreg k' j).start) j := by
  rw [AnotherPass, setPc_pc, lreg_setPc, lreg_setL, if_pos rfl, h]
  exact ⟨rfl, rfl⟩

/-- Settles O13: the innermost loop on the word takes its turn, and only where it ends the next one does. -/
theorem loopEnds : Obligations.LoopEnds := by
  unfold Obligations.LoopEnds
  intro c s i h hin
  generalize hk : getCore s c.val = k at *
  have hinner : innerLoop k (normPc k k.regs.pc) = some i :=
    innerLoop_min hin.number hin.active hin.last fun j hj hne hact hlast => hin.last ▸ hin.innermost j hj hne hact (hlast.trans hin.last.symm)
  have hl := advance_loopsOnly k 1
  have hrun : exec (.nop c 0) s = .next (setCore s c.val (advance k 1)) := hk ▸ congrArg Host.Outcome.next h.runs
  refine ⟨_, hrun, onlyCore_setCore .., ?_⟩
  rw [getCore_setCore_self]
  refine ⟨hl.rest, ?_⟩
  rw [advance_one, endBody_some 3 hinner]
  split
  · refine ⟨anotherPass_of rfl, fun j hj => ?_⟩
    rw [lreg_setPc, lreg_setL, if_neg hj]
  · set k1 := setL k i { lreg k i with active := false } with hk1
    have hself : lreg k1 i = { lreg k i with active := false } := by rw [hk1, lreg_setL, if_pos rfl]
    have hother : ∀ j, j ≠ i → lreg k1 j = lreg k j := fun j hj => by rw [hk1, lreg_setL, if_neg hj]
    have hinactive : (lreg k1 i).active = false := by rw [hself]
    refine ⟨by rw [lreg_endBody_of_inactive 3 k1 _ i hinactive, hself], fun hnone => ?_, fun j hj hne hact hlast honly hcount => ?_⟩
    · have hends : ∀ j < 4, (lreg k1 j).active = true → (lreg k1 j).last ≠ normPc k k.regs.pc := by
        intro j hj hact
        by_cases hji : j = i
        · rw [hji, hinactive] at hact
          exact absurd hact (by decide)
        · rw [hother j hji] at hact ⊢
          exact hin.last ▸ hnone j hj hji hact
      rw [endBody_none 3 hends, setPc_pc, normPc_congr (setL_cr ..), normPc_add]
    · have hj1 := hother j hne
      have hinner1 : innerLoop k1 (normPc k k.regs.pc) = some j := by
        refine innerLoop_only hj (by rw [hj1]; exact hact) (by rw [hj1, hlast, hin.last]) fun l hl4 hlj => ?_
        by_cases hli : l = i
        · rw [hli, hinactive]
        · rw [hother l hli]
          exact honly l hl4 hli hlj
      rw [endBody_some 2 hinner1, if_pos (by rw [hj1]; exact hcount)]
      exact anotherPass_of hj1

/-! ## Words that end the kernel (R138) -/

theorem issueCore_of_illegal {s : State} {c : Nat} {legal : Bool} {regs : List Nat} {body : CoreSt → CoreSt}
    (hi : canIssue (getCore s c) = true) (h : legal = false) :
    issueCore s c legal regs body = setCore s c (illegalOp (getCore s c)) := by
  rw [h]
  exact issueCore_illegal hi

theorem branchOp_of_illegal {s : State} {c : Core} {w : BitVec 56} {f : BitVec 64 → BitVec 64 → Bool}
    (hi : canIssue (getCore s c.val) = true) (h : legalB w = false) :
    branchOp c w s f = .next (setCore s c.val (illegalOp (getCore s c.val))) := by
  rw [branchOp, issueCore_of_illegal hi h]
  simp only [h, Bool.and_false, Bool.false_and, Bool.false_eq_true, if_false]

theorem issueAccess_of_illegal {s : State} {c : Nat} {legal : Bool} {regs : List Nat} {mk : CoreSt → Access}
    (hi : canIssue (getCore s c) = true) (h : legal = false) :
    issueAccess s c legal regs mk = setCore s c (illegalOp (getCore s c)) := by
  simp only [issueAccess, hi, h, Bool.not_true, Bool.not_false, Bool.false_eq_true, if_false, if_true]

/-- What a command does where its word is illegal. -/
def EndsIllegal (i : Core → BitVec 56 → Instr) (legal : BitVec 56 → Bool) : Prop :=
  ∀ (c : Core) (w : BitVec 56) (s : State), canIssue (getCore s c.val) = true → legal w = false →
    exec (i c w) s = .next (setCore s c.val (illegalOp (getCore s c.val)))

theorem endsIllegal_of_issueCore {i : Core → BitVec 56 → Instr} {legal : BitVec 56 → Bool} {regs : Core → BitVec 56 → List Nat}
    {body : Core → BitVec 56 → State → CoreSt → CoreSt}
    (h : ∀ c w s, exec (i c w) s = .next (issueCore s c.val (legal w) (regs c w) (body c w s))) : EndsIllegal i legal :=
  fun c w s hi hl => (h c w s).trans (congrArg Host.Outcome.next (issueCore_of_illegal hi hl))

theorem rowsB_endsIllegal : ∀ p ∈ rowsB, EndsIllegal p.1 legalB :=
  fun _ hp c w s hi hl => (exec_rowB hp c w s).trans (branchOp_of_illegal hi hl)

theorem endsIllegal_of_issueAccess {i : Core → BitVec 56 → Instr} {legal : BitVec 56 → Bool} {regs : BitVec 56 → List Nat}
    {mk : BitVec 56 → State → CoreSt → Access}
    (h : ∀ c w s, exec (i c w) s = .next (issueAccess s c.val (legal w) (regs w) (mk w s))) : EndsIllegal i legal :=
  fun c w s hi hl => (h c w s).trans (congrArg Host.Outcome.next (issueAccess_of_illegal hi hl))

/-- Every command of the table tests its word where it issues. -/
theorem rowsLegal_endsIllegal : ∀ p ∈ rowsLegal, EndsIllegal p.1 p.2 := by
  obtain ⟨hbeq, hbne, hblt, hbge, hbltu, hbgeu⟩ := by
    simpa only [rowsB, List.forall_mem_cons, List.not_mem_nil, false_implies, implies_true, and_true] using rowsB_endsIllegal
  simp only [rowsLegal, List.forall_mem_cons, List.not_mem_nil, false_implies, implies_true, and_true]
  and_intros
  iterate 26 (exact endsIllegal_of_issueCore fun _ _ _ => rfl)
  · exact hbeq
  · exact hbne
  · exact hblt
  · exact hbge
  · exact hbltu
  · exact hbgeu
  iterate 7 (exact endsIllegal_of_issueCore fun _ _ _ => rfl)
  iterate 3 (exact endsIllegal_of_issueAccess fun _ _ _ => rfl)
  iterate 8 (exact endsIllegal_of_issueCore fun _ _ _ => rfl)

/-- The kernel of a core that issues has no fault: ILLEGAL_OP is recorded, and the core issues no more. -/
theorem illegalOp_recorded {k : CoreSt} (hi : canIssue k = true) :
    canIssue (illegalOp k) = false ∧ FaultRecorded k (illegalOp k) St.illegalOp 0 0 k.regs.pc 0 := by
  have hf : k.fault = none := by
    simp only [canIssue, Bool.and_eq_true, decide_eq_true_eq] at hi
    tauto
  rw [illegalOp, kernelFault, if_pos hf]
  exact ⟨by simp [canIssue], rfl⟩

/-- A core on which ILLEGAL_OP has ended the kernel. -/
theorem illegal_ends {s : State} {c : Nat} (hi : canIssue (getCore s c) = true) :
    OnlyCore s (setCore s c (illegalOp (getCore s c))) c ∧
      canIssue (getCore (setCore s c (illegalOp (getCore s c))) c) = false ∧
      FaultRecorded (getCore s c) (getCore (setCore s c (illegalOp (getCore s c))) c) St.illegalOp 0 0 (getCore s c).regs.pc 0 := by
  rw [getCore_setCore_self]
  exact ⟨onlyCore_setCore .., illegalOp_recorded hi⟩

/-- Settles O14. -/
theorem illegalWordsEndTheKernel : Obligations.IllegalWordsEndTheKernel := by
  unfold Obligations.IllegalWordsEndTheKernel
  intro p hp c w s hi hl
  exact ⟨_, rowsLegal_endsIllegal p hp c w s hi hl, illegal_ends hi⟩

/-- A LOOP whose fields or nesting are illegal. -/
theorem execLoop_of_illegal {c : Core} {w : BitVec 56} {s : State} (hi : canIssue (getCore s c.val) = true)
    (h : (legalL w && loopNests (getCore s c.val) w) = false) :
    exec (.loop c w) s = .next (setCore s c.val (illegalOp (getCore s c.val))) := by
  have hgo : (canIssue (getCore s c.val) && legalL w && loopNests (getCore s c.val) w &&
      !(if lCI w then [] else [lCS w]).any (busyReg (getCore s c.val))) = false := by
    rw [Bool.and_assoc (canIssue _), h, Bool.and_false, Bool.false_and]
  show execLoop c w s = _
  simp only [execLoop, hgo, Bool.false_eq_true, if_false, issueCore_of_illegal hi h]

/-- Settles O15: fields and nesting are tested first, then the word at the body's end. -/
theorem illegalLoopsEndTheKernel : Obligations.IllegalLoopsEndTheKernel := by
  unfold Obligations.IllegalLoopsEndTheKernel
  intro c w s hi h
  cases hl : legalL w && loopNests (getCore s c.val) w with
  | false => exact ⟨_, execLoop_of_illegal hi hl, illegal_ends hi⟩
  | true =>
    obtain ⟨hready, v, hv, hamm⟩ : (lCI w = true ∨ busyReg (getCore s c.val) (lCS w) = false) ∧
        ∃ v, peekWord s c.val (loopLast (getCore s c.val) w) = some v ∧ v / 2 ^ 56 % 256 = 0x40 := by
      rw [Bool.and_eq_true] at hl
      rcases h with h | h | h
      · exact absurd hl.1 (by rw [h]; decide)
      · exact absurd hl.2 (by rw [h]; decide)
      · exact h
    have hissues : Issues s c (legalL w && loopNests (getCore s c.val) w) (if lCI w then [] else [lCS w]) := by
      refine ⟨hi, hl, fun r hr => ?_⟩
      by_cases hci : lCI w = true
      · rw [if_pos hci] at hr
        exact absurd hr List.not_mem_nil
      · rw [if_neg hci] at hr
        rw [List.mem_singleton.1 hr]
        exact hready.resolve_left hci
    refine ⟨_, execLoop_of hissues hv, ?_⟩
    rw [if_pos hamm]
    exact illegal_ends hi

end Sys2Proof.Machine
end

section
/-!
PROOF. The scratchpad and memory accesses of the sequencer and its fences (R137, R143, R146 to R149, R301).
-/

namespace Sys2Proof.Machine

/-! ## LDS and STS (R143) -/

/-- A scalar write to core `c` as `writesScalar_setCore` describes it, in any state that holds the written core. -/
theorem writesScalar_of {s t : State} {c r : Nat} {v : BitVec 64} (ho : OnlyCore s t c)
    (hk : getCore t c = advance (setS (getCore s c) r v) 1) : WritesScalar s t c r v := by
  obtain ⟨_, hregs, hvalue, hscalars, haddresses, hpc⟩ := writesScalar_setCore s c r v
  simp only [getCore_setCore_self, ← hk] at hregs hvalue hscalars haddresses hpc
  exact ⟨ho, hregs, hvalue, hscalars, haddresses, hpc⟩

theorem OnlyCore.of_setCore {s : State} {c : Nat} (k l : CoreSt) : OnlyCore (setCore s c k) (setCore s c l) c :=
  ⟨rfl, fun d hd => by rw [getCore_setCore_ne _ l hd, getCore_setCore_ne _ k hd]⟩

theorem dropPrefetched_none {k : CoreSt} {w : Bits} (h : prefetched k w = none) : dropPrefetched k w = k := by
  have hf : k.prefetch.filter (fun p => !decide (p.pc = normPc k k.regs.pc ∧ p.word = w)) = k.prefetch := by
    rw [List.filter_eq_self]
    intro p hp
    have := List.find?_eq_none.1 h p hp
    simp only [Bool.not_eq_true', decide_eq_false_iff_not]
    exact fun hpw => this (decide_eq_true hpw)
  rw [dropPrefetched, hf]

theorem spadRd_length (m : List Host.Cell) (a n : Nat) : (spadRd m a n).length = n := by simp [spadRd]

/-- The value of a load of all its bytes. -/
theorem loadVal_of_length {n : Nat} {bs : List Byte} (h : bs.length = n) (sx : Bool) : loadVal n sx bs =
    if sx then (BitVec.ofNat (8 * n) (leNat bs)).signExtend 64 else BitVec.ofNat 64 (leNat bs) := by
  rw [loadVal, List.take_of_length_le (by omega), sext64]

theorem accBytes_dvd {w : Bits} {st : Bool} (h : legalM w st = true) : accBytes w ∣ 8 := by
  have hs : mSize w ≤ 3 := by
    simp only [legalM, Bool.and_eq_true, decide_eq_true_eq] at h
    exact h.1.2
  exact (pow_dvd_pow 2 hs)

/-- An aligned scratchpad access does not pass the end of the scratchpad. -/
theorem spadEa_room (k : CoreSt) {w : Bits} {st : Bool} (h : legalM w st = true) : spadEa k w + 2 ^ mSize w ≤ spadSize := by
  have hd : accBytes w ∣ spadSize := (accBytes_dvd h).trans (by decide)
  have h64 : accBytes w ∣ 2 ^ 64 := (accBytes_dvd h).trans (by decide)
  have hv : accBytes w ∣ (alignTo (areg k (mAR w) + fImm w) (accBytes w)).toNat := by
    rw [alignTo, BitVec.toNat_ofNat]
    exact (Nat.dvd_mod_iff h64).2 (Dvd.intro_left _ rfl)
  have ha : accBytes w ∣ spadEa k w := (Nat.dvd_mod_iff hd).2 hv
  have hlt : spadEa k w < spadSize := Nat.mod_lt _ (by decide)
  exact Nat.add_le_of_le_sub (Nat.le_of_dvd (by decide) hd)
    (by
      obtain ⟨x, hx⟩ := ha
      obtain ⟨y, hy⟩ := hd
      have hxy : x < y := by
        rw [hx, hy] at hlt
        exact Nat.lt_of_mul_lt_mul_left hlt
      have : accBytes w * (x + 1) ≤ accBytes w * y := Nat.mul_le_mul_left _ hxy
      rw [Nat.mul_add, ← hx, ← hy] at this
      show spadEa k w ≤ spadSize - accBytes w
      omega)

/-- A word that moves pc on after an update of a core that left its registers and core registers alone. -/
theorem PastWord.of_regs {k l m : CoreSt} (hr : l.regs = k.regs) (hc : l.cr = k.cr) (h : PastWord l m) : PastWord k m := by
  simpa only [PastWord, NoLoopEnds, lreg, normPc_congr hc, hr] using h

/-- A core with the scratchpad `m`. -/
def withSpad (k : CoreSt) (m : List Host.Cell) : CoreSt := { k with mem := { k.mem with spad := m } }

/-- Settles O16. -/
theorem scratchpadAccessesRun : Obligations.ScratchpadAccessesRun := by
  unfold Obligations.ScratchpadAccessesRun
  intro c w s
  refine ⟨fun h p hp => ?_, fun h hp => ?_, fun h => ?_⟩
  · refine ⟨setCore s c.val _, congrArg Host.Outcome.next h.runs, writesScalar_of (OnlyCore.of_setCore ..) ?_⟩
    simp only [getCore_setCore_self, hp, Option.map_some, Option.getD_some]
  · refine ⟨setCore s c.val _, congrArg Host.Outcome.next h.runs, writesScalar_of (onlyCore_setCore ..) ?_⟩
    rw [getCore_setCore_self, dropPrefetched_none hp, hp, ← loadVal_of_length (spadRd_length ..)]
    rfl
  · have hroom := spadEa_room (getCore s c.val) h.word
    have hlen : (toLe (accBytes w) (sreg (getCore s c.val) (fSD w)).toNat).length = 2 ^ mSize w := toLe_length ..
    let k' := withSpad (getCore s c.val)
      (spadWr (getCore s c.val).mem.spad (spadEa (getCore s c.val) w) (toLe (accBytes w) (sreg (getCore s c.val) (fSD w)).toNat))
    have hl : LoopsOnly k' (advance k' 1) := advance_loopsOnly k' 1
    have hm : (advance k' 1).mem = k'.mem := by rw [hl.rest]
    refine ⟨setCore s c.val (advance k' 1), congrArg Host.Outcome.next h.runs, onlyCore_setCore .., ?_⟩
    rw [getCore_setCore_self, hm]
    refine ⟨hl.rest, hl.s, hl.a, (pastWord_advance (OnlyRegs.refl k') rfl rfl).of_regs rfl rfl, fun j hj => ?_, fun a ha => ?_⟩
    · rw [extractLsb'_byte, ← toLe_getElem _ _ j (hlen ▸ hj)]
      exact rd8_spadWr_in _ _ _ _ (hlen ▸ hroom) (hlen ▸ hj)
    · exact rd8_spadWr_out _ _ _ _ (hlen ▸ hroom) (hlen ▸ ha)

/-! ## LD, ST and AMO (R146, R148, R252) -/

/-- An access whose page the Range Lookaside Buffer does not hold joins the outstanding ones and waits for its search. -/
theorem startAcc_miss {s : State} {c : Nat} {a : Access} (h : lbFind (getCore s c).rlb (getCore s c).ctx (a.va.toNat / 4096) = none) :
    startAcc s c a = modCore s c fun k => { k with accs := k.accs ++ [a], nextAcc := k.nextAcc + 1 } := by
  have hx : rlbXlate (modCore s c fun k => { k with accs := k.accs ++ [a], nextAcc := k.nextAcc + 1 }) c a.va (accNeed a.kind)
      (accHall a.kind) = none := by
    simp only [rlbXlate, getCore_modCore_self, h]
  simp only [startAcc, hx, ite_self]

theorem issueAccess_of {s : State} {c : Core} {legal : Bool} {regs : List Nat} {mk : CoreSt → Access} (h : Issues s c legal regs)
    (hd : isDirect (getCore s c.val) = false) (hseq : seqOut s c.val < 16) (hcore : coreOut s c.val < 1024) :
    issueAccess s c.val legal regs mk = startAcc (setCore s c.val (advance (getCore s c.val) 1)) c.val (mk (getCore s c.val)) := by
  have hr : regs.any (busyReg (getCore s c.val)) = false := by simpa using h.ready
  have hfull : ¬ (seqOut s c.val ≥ 16 ∨ coreOut s c.val ≥ 1024) := by omega
  simp [issueAccess, h.issuing, h.word, hr, hd, hfull]

theorem issueAccess_joins {s : State} {c : Core} {legal : Bool} {regs : List Nat} {mk : CoreSt → Access} (h : Issues s c legal regs)
    (hd : isDirect (getCore s c.val) = false) (hseq : seqOut s c.val < 16) (hcore : coreOut s c.val < 1024)
    (hmiss : lbFind (getCore s c.val).rlb (getCore s c.val).ctx ((mk (getCore s c.val)).va.toNat / 4096) = none) :
    AccessJoins s (issueAccess s c.val legal regs mk) c.val (mk (getCore s c.val)) := by
  have hl : LoopsOnly (getCore s c.val) (advance (getCore s c.val) 1) := advance_loopsOnly _ 1
  rw [issueAccess_of h hd hseq hcore, startAcc_miss (by rw [getCore_setCore_self, hl.rest]; exact hmiss)]
  refine ⟨(onlyCore_setCore ..).trans (onlyCore_modCore ..), ?_, ?_, ?_, ?_⟩ <;> rw [getCore_modCore_self, getCore_setCore_self]
  · rw [hl.rest]
  · exact hl.s
  · exact hl.a
  · exact pastWord_advance (OnlyRegs.refl _) rfl rfl

/-- Settles O17. -/
theorem memoryAccessesIssue : Obligations.MemoryAccessesIssue := by
  unfold Obligations.MemoryAccessesIssue
  intro c w s hd hseq hcore
  exact ⟨fun h hmiss => ⟨_, rfl, issueAccess_joins h hd hseq hcore hmiss⟩, fun h hmiss => ⟨_, rfl, issueAccess_joins h hd hseq hcore hmiss⟩,
    fun h hmiss => ⟨_, rfl, issueAccess_joins h hd hseq hcore hmiss⟩⟩

/-! ## The functions of an AMO (R137) -/

theorem toInt_min {w : Nat} (o b : BitVec w) : (if o.toInt ≤ b.toInt then o.toNat else b.toNat) = (if b.slt o then b else o).toNat := by
  rw [BitVec.slt_eq_decide]
  by_cases h : o.toInt ≤ b.toInt
  · rw [if_pos h, if_neg (by simpa using h)]
  · rw [if_neg h, if_pos (by simpa using h)]

theorem toInt_max {w : Nat} (o b : BitVec w) : (if o.toInt ≤ b.toInt then b.toNat else o.toNat) = (if o.slt b then b else o).toNat := by
  rw [BitVec.slt_eq_decide]
  rcases lt_trichotomy o.toInt b.toInt with h | h | h
  · rw [if_pos h.le, if_pos (by simpa using h)]
  · rw [BitVec.eq_of_toInt_eq h, ite_self, ite_self]
  · rw [if_neg (by omega), if_neg (by simpa using h.le)]

theorem toNat_min {w : Nat} (o b : BitVec w) : (if o.toNat ≤ b.toNat then o.toNat else b.toNat) = (if b.ult o then b else o).toNat := by
  rw [BitVec.ult_eq_decide]
  by_cases h : o.toNat ≤ b.toNat
  · rw [if_pos h, if_neg (by simpa using h)]
  · rw [if_neg h, if_pos (by simpa using h)]

theorem toNat_max {w : Nat} (o b : BitVec w) : (if o.toNat ≤ b.toNat then b.toNat else o.toNat) = (if o.ult b then b else o).toNat := by
  rw [BitVec.ult_eq_decide]
  rcases lt_trichotomy o.toNat b.toNat with h | h | h
  · rw [if_pos h.le, if_pos (by simpa using h)]
  · rw [BitVec.eq_of_toNat_eq h, ite_self, ite_self]
  · rw [if_neg (by omega), if_neg (by simpa using h.le)]

/-- Settles O19. -/
theorem atomicFunctions : Obligations.AtomicFunctions := by
  unfold Obligations.AtomicFunctions
  intro p hp n _ o b c
  simp only [rowsAmo, List.mem_cons, List.not_mem_nil, or_false] at hp
  rcases hp with rfl | rfl | rfl | rfl | rfl | rfl | rfl | rfl | rfl | rfl <;>
    simp only [amoNew, BitVec.ofNat_toNat, BitVec.setWidth_eq, toInt_min, toInt_max, toNat_min, toNat_max]
  exact (apply_ite BitVec.toNat ..).symm

/-! ## The completion of an access (R147, R149) -/

/-- An access to plain local memory, to which a reply comes, is performed. -/
theorem completeAcc_plain {s : State} {c i o : Nat} {a : Access} {r : Reply} (h : PlainAccess s c i a o) (hr : r ≠ .fail St.remoteTimeout) :
    completeAcc s c a r = performAcc (dropReqs s c a.id) c a r ∧ dieCode s (towerOf c) (homeTower s o) = St.ok := by
  have hroute := h.route
  simp only [onItsWay, accHome, h.target, Bool.or_eq_false_iff, Bool.not_eq_false'] at hroute
  obtain ⟨⟨⟨hrouted, _⟩, _⟩, _⟩ := hroute
  have htime : timedOut s c a r = false := by simp [timedOut, accHome, h.target, hrouted, hr]
  have hout : needsOutside s c a = false := by simp only [needsOutside, h.target]
  refine ⟨?_, by rw [dieCode, if_pos hrouted]⟩
  unfold completeAcc
  rw [h.target]
  dsimp only
  rw [if_neg (by simp [h.first]), if_neg (by simp [htime]), if_neg (by simp [h.route]), if_neg (by simp [hout])]

theorem exec_seqAccessComplete {s : State} {c : Core} {i : Nat} {a : Access} {r : Reply} (hl : (getCore s c.val).accs[i]? = some a)
    (hx : ∀ ga nc, a.x ≠ .target (.remote ga) nc) : exec (.seqAccessComplete c (.data i) r) s = .next (completeAcc s c.val a r) := by
  have hreply : seqReply s a r = r := by
    rw [seqReply]
    split
    · exact absurd ‹_› (hx _ _)
    · rfl
  show execSeqAccessComplete c (.data i) r s = _
  rw [execSeqAccessComplete, hl]
  simp only [hreply]

theorem PlainAccess.exec {s : State} {c : Core} {i o : Nat} {a : Access} {r : Reply} (h : PlainAccess s c.val i a o)
    (hr : r ≠ .fail St.remoteTimeout) :
    exec (.seqAccessComplete c (.data i) r) s = .next (performAcc (dropReqs s c.val a.id) c.val a r) := by
  rw [exec_seqAccessComplete h.listed (by rw [h.target]; intros; simp), (completeAcc_plain h hr).1]

/-- Plain memory stays plain when the requests of an access are dropped. -/
theorem PlainLine.dropped {s : State} {x o : Nat} (h : PlainLine s x o) (c id : Nat) : PlainLine (dropReqs s c id) x o := h

theorem homeTower_setCore (s : State) (c : Nat) (k : CoreSt) (o : Nat) : homeTower (setCore s c k) o = homeTower s o := rfl
theorem homeTower_dropReqs (s : State) (c id o : Nat) : homeTower (dropReqs s c id) o = homeTower s o := rfl

theorem dieCode_dropReqs {s : State} {a o : Nat} {r : Code} (h : dieCode s a (homeTower s o) = r) (c id : Nat) :
    dieCode (dropReqs s c id) a (homeTower (dropReqs s c id) o) = r := by
  rw [homeTower_dropReqs, dieCode_congr (t := dropReqs s c id) (s := s) rfl]
  exact h

theorem combOver_nil {k : CoreSt} (h : k.comb = []) (key : BitVec 64) (bs : List Byte) : combOver k key bs = bs := by
  simp [combOver, h]

/-- A load of plain memory finds the bytes that memory holds. -/
theorem loadAt_plain {s : State} {c o : Nat} {rq : RlcUser} {a : Access} {r : Reply} (hp : PlainLine s (getCore s c).ctx o)
    (hd : dieCode s (towerOf c) (homeTower s o) = St.ok) (hx : a.x = .target (.loc o) true) (hn : o % 64 + a.size ≤ 64)
    (hcomb : (getCore s c).comb = []) : loadAt s c rq a r = (St.ok, rdN s.mem o a.size, s) := by
  have hl : loadLine s c rq (lineKey s o) true none (o % 64) a.size = (St.ok, rdN s.mem o a.size, s) := by
    rw [loadLine, hp.rlcRead hd]
    dsimp only
    rw [combOver_nil hcomb, slice_rdN _ _ _ _ _ hn, Nat.div_add_mod']
  rw [loadAt, hx]
  exact hl

/-- What the end of an access with the value `v` leaves in register `n`. -/
def loaded (k : CoreSt) (a : Access) (v : Option (BitVec 64)) (n : Nat) : BitVec 64 :=
  match v with
  | none => sreg k n
  | some x => if n = a.sd.toNat ∧ n ≠ 0 then x else sreg k n

theorem getCore_doneAcc (s : State) (c : Nat) (a : Access) (v : Option (BitVec 64)) : getCore (doneAcc s c a v) c =
    match v with
    | none => { getCore s c with accs := (getCore s c).accs.filter fun b => b.id ≠ a.id }
    | some x => setS { getCore s c with accs := (getCore s c).accs.filter fun b => b.id ≠ a.id } a.sd.toNat x := getCore_modCore_self ..

theorem doneAcc_loaded (s : State) (c : Nat) (a : Access) (v : Option (BitVec 64)) (n : Nat) :
    sreg (getCore (doneAcc s c a v) c) n = loaded (getCore s c) a v n := by
  rw [getCore_doneAcc]
  cases v with
  | none => rfl
  | some x =>
    simp only [sreg_setS, loaded]
    by_cases hn : n = a.sd.toNat
    · subst hn
      by_cases h0 : a.sd.toNat = 0 <;> simp [h0, sreg]
    · simp [hn, sreg]

theorem doneAcc_leaves (s : State) (c : Nat) (a : Access) (v : Option (BitVec 64)) : AccessLeaves s (doneAcc s c a v) c a := by
  refine ⟨fun d hd => getCore_modCore_ne _ _ hd, ?_, ?_, ?_, ?_⟩ <;> rw [getCore_doneAcc] <;> cases v <;> simp [setS] <;> split <;> rfl

theorem AccessLeaves.of_cores {s s' t : State} {c : Nat} {a : Access} (h : AccessLeaves s' t c a) (hc : ∀ d, getCore s' d = getCore s d) :
    AccessLeaves s t c a := by
  obtain ⟨hothers, haccs, hpc, haddresses, hspad⟩ := h
  simp only [hc] at hothers haccs hpc haddresses hspad
  exact ⟨hothers, haccs, hpc, haddresses, hspad⟩

/-- A store to plain, non-cacheable memory does not allocate in the Remote Line Cache. -/
theorem PlainLine.tryWrite {s : State} {x o : Nat} (h : PlainLine s x o) (t run : Nat) (rq : RlcUser) (off : Nat) (bs : List Byte)
    (ext : Option (BitVec 512)) : rlcTryWrite s t run rq (lineKey s o) x true off bs ext = none := by
  have ha : allocatable s t (lineKey s o) rq true = false := by
    cases rq <;> simp [allocatable]
  simp [rlcTryWrite, h.kept, ha]

theorem seqUser_val (c : Core) : streamOf (seqUser c.val) = some (c.val, 0) := by
  simp [streamOf, seqUser]

/-- The stream detector of the sequencer changes only its own record. -/
theorem streamStep_seq (s : State) (c : Core) (key : BitVec 64) : ∃ s1 run l, streamStep s (seqUser c.val) key = (s1, run) ∧
    OnlyCore s s1 c.val ∧ getCore s1 c.val = { getCore s c.val with streams := l } := by
  rw [streamStep, seqUser_val]
  dsimp only
  split
  · exact ⟨s, _, _, rfl, ⟨rfl, fun _ _ => rfl⟩, rfl⟩
  · exact ⟨_, _, _, rfl, onlyCore_setCore .., getCore_setCore_self ..⟩

theorem combStore_empty {s : State} {c : Nat} (h : (getCore s c).comb = []) (key : BitVec 64) (nc : Bool) (off : Nat) (bs : List Byte)
    (pc va : BitVec 64) :
    combStore s c key nc off bs pc va = setCore s c { getCore s c with comb := [⟨key, combBytes [] off bs, nc, pc, va⟩] } := by
  simp only [combStore, h, List.find?_nil, List.nil_append]

/-- Bytes merged into a combining buffer line read back. -/
theorem tget_combBytes (t : Tab (Option Byte)) (off : Nat) (bs : List Byte) (j : Nat) (hj : j < bs.length) :
    tget none (combBytes t off bs) (off + j) = some bs[j] := by
  have hmerge : ∀ (bs : List Byte) (n i : Nat) (t : Tab (Option Byte)),
      tget none ((bs.zipIdx n).foldl (fun t p => tset none t (off + p.2) (some p.1)) t) (off + i) =
        if h : n ≤ i ∧ i < n + bs.length then some (bs[i - n]'(by omega)) else tget none t (off + i) := by
    intro bs
    induction bs with
    | nil =>
      intro n i t
      rw [dif_neg (by simp only [List.length_nil]; omega)]
      rfl
    | cons b bs ih =>
      intro n i t
      rw [List.zipIdx_cons, List.foldl_cons, ih]
      by_cases hi : i = n
      · subst hi
        rw [dif_neg (by omega), dif_pos (by simp), tget_tset_self]
        simp
      · rw [tget_tset_ne _ (by omega)]
        by_cases hin : n + 1 ≤ i ∧ i < n + 1 + bs.length
        · rw [dif_pos hin, dif_pos (by simp only [List.length_cons]; omega)]
          simp only [show i - n = i - (n + 1) + 1 by omega, List.getElem_cons_succ]
        · rw [dif_neg hin, dif_neg (by simp only [List.length_cons]; omega)]
  rw [combBytes, hmerge, dif_pos (by omega)]
  simp

/-- Plain memory is plain whatever the cores hold. -/
theorem PlainLine.of_onlyCore {s t : State} {x o c : Nat} (h : PlainLine s x o) (ho : OnlyCore s t c) :
    PlainLine t x o ∧ lineKey t o = lineKey s o := by
  have hplain : PlainLine { s with cores := t.cores } x o := h
  have hkey : lineKey { s with cores := t.cores } o = lineKey s o := rfl
  rw [← ho.package] at hplain hkey
  exact ⟨hplain, hkey⟩

theorem storeLine_buffers {s s1 : State} {c run ga : Nat} {nc : Bool} {bs : List Byte} {ext : Option (BitVec 512)} (pc va : BitVec 64)
    (hstream : streamStep s (seqUser c) (keyOf ga) = (s1, run))
    (htry : rlcTryWrite s1 (towerOf c) run (seqUser c) (keyOf ga) (getCore s c).ctx nc (ga % 64) bs ext = none) :
    storeLine s c ga nc bs pc va ext = (St.ok, combStore s1 c (keyOf ga) nc (ga % 64) bs pc va) := by
  unfold storeLine
  split
  rename_i s2 run2 heq
  rw [hstream] at heq
  obtain ⟨rfl, rfl⟩ := Prod.mk.inj heq
  extract_lets ctx s3
  have hs : s3 = s1 := by
    simp only [s3]
    rw [htry]
    rfl
  rw [hs, htry]

theorem storeLine_plain {s : State} {c : Core} {o : Nat} (hp : PlainLine s (getCore s c.val).ctx o)
    (hcomb : (getCore s c.val).comb = []) (bs : List Byte) (pc va : BitVec 64) :
    ∃ t l, storeLine s c.val (gaOf s o) true bs pc va none = (St.ok, t) ∧ OnlyCore s t c.val ∧ getCore t c.val =
      { getCore s c.val with streams := l, comb := [⟨lineKey s o, combBytes [] (o % 64) bs, true, pc, va⟩] } := by
  have hkey : keyOf (gaOf s o) = lineKey s o := lineKey_of_ga s hp.lt
  obtain ⟨s1, run, l, hstream, honly, hcore⟩ := streamStep_seq s c (keyOf (gaOf s o))
  obtain ⟨hp1, hkey1⟩ := hp.of_onlyCore honly
  have htry : rlcTryWrite s1 (towerOf c.val) run (seqUser c.val) (keyOf (gaOf s o)) (getCore s c.val).ctx true (gaOf s o % 64) bs none
      = none := by
    rw [hkey, ← hkey1]
    exact hp1.tryWrite ..
  refine ⟨setCore s1 c.val _, l, ?_, honly.trans (onlyCore_setCore ..), getCore_setCore_self ..⟩
  rw [storeLine_buffers pc va hstream htry, combStore_empty (by rw [hcore]; exact hcomb), hcore, hkey, gaOf_mod]

/-- A store to plain memory goes into the combining buffer, which was empty. -/
theorem storeAt_plain {s : State} {c : Core} {o : Nat} {a : Access} {r : Reply} (hp : PlainLine s (getCore s c.val).ctx o)
    (hx : a.x = .target (.loc o) true) (hcomb : (getCore s c.val).comb = []) :
    ∃ t l, storeAt s c.val a r = (St.ok, t) ∧ OnlyCore s t c.val ∧ getCore t c.val = { getCore s c.val with
      streams := l, comb := [⟨lineKey s o, combBytes [] (o % 64) (toLe a.size a.data.toNat), true, a.pc, a.va⟩] } := by
  obtain ⟨t, l, hstore, h⟩ := storeLine_plain hp hcomb (toLe a.size a.data.toNat) a.pc a.va
  refine ⟨t, l, ?_, h⟩
  unfold storeAt
  rw [hx]
  simp only [hp.check, hstore, ne_eq, not_true_eq_false, if_false]

/-- An atomic on plain memory reads the old value and writes the new one. -/
theorem atomicAt_plain {s : State} {c : Core} {o : Nat} {a : Access} {r : Reply} (hp : PlainLine s (getCore s c.val).ctx o)
    (hd : dieCode s (towerOf c.val) (homeTower s o) = St.ok) (hx : a.x = .target (.loc o) true) (hn : o % 64 + a.size ≤ 64)
    (hsize : a.size < 64) (hcomb : (getCore s c.val).comb = []) :
    atomicAt s c.val a r = (St.ok, leNat (rdN s.mem o a.size), withMem (setCore s c.val (getCore s c.val))
      (wrN s.mem o (toLe a.size (amoNew a.func.toNat a.size (leNat (rdN s.mem o a.size)) a.data.toNat a.cmp.toNat)))) := by
  have hp' := hp.core c.val (getCore s c.val)
  unfold atomicAt
  rw [combFlush_empty hcomb, hx]
  dsimp only
  have hcheck : hereCheck (setCore s c.val (getCore s c.val)) (towerOf c.val) false (getCore s c.val).ctx o = St.ok :=
    hp'.hereCheck (by rw [homeTower_setCore, dieCode_congr (t := setCore _ _ _) (s := s) rfl]; exact hd)
  rw [getCore_setCore_self, hereAtomic, if_neg (by rw [hcheck]; decide), hp'.recall, homeAtomic, hp'.read _ hn]
  dsimp only
  rw [if_neg (by decide), hp'.write _ (by rw [toLe_length]; exact hsize)]
  rfl

/-- The completion of a faulting access ends the kernel with its code. -/
theorem completeAcc_fault {s : State} {c : Nat} {a : Access} {r : Reply} {code : Code} {cause : BitVec 3} (hx : a.x = .fault code cause)
    (hf : (getCore s c).fault = none) : OnlyCore s (completeAcc s c a r) c ∧
      FaultRecorded { getCore s c with accs := (getCore s c).accs.filter fun b => b.id ≠ a.id } (getCore (completeAcc s c a r) c)
        code 2 0 a.pc a.va := by
  have he : completeAcc s c a r = failAcc s c a code := by
    unfold completeAcc
    rw [hx]
  rw [he, failAcc]
  refine ⟨onlyCore_modCore .., ?_⟩
  rw [getCore_modCore_self, kernelFault, if_pos hf]
  rfl

/-- Settles O18. -/
theorem accessesComplete : Obligations.AccessesComplete := by
  unfold Obligations.AccessesComplete
  intro c s i a r o hr
  refine ⟨fun h hk => ?_, fun h hk _ _ => ?_, fun h hk hsize => ?_, fun code cause hl hx hf => ?_⟩
  · obtain ⟨_, hd⟩ := completeAcc_plain h hr
    let s' := dropReqs s c.val a.id
    have hload : performAcc s' c.val a r = doneAcc s' c.val a (some (loadVal a.size a.sx (rdN s.mem o a.size))) := by
      unfold performAcc
      rw [hk]
      dsimp only
      rw [loadAt_plain (h.line.dropped c.val a.id) (dieCode_dropReqs hd ..) h.target h.within h.comb]
      rfl
    refine ⟨_, (h.exec hr).trans (congrArg _ hload), rfl, (doneAcc_leaves s' c.val a _).of_cores fun _ => rfl, fun n => ?_⟩
    exact doneAcc_loaded s' c.val a _ n
  · obtain ⟨t, l, hstore, honly, hcore⟩ := storeAt_plain (s := dropReqs s c.val a.id) (r := r) (h.line.dropped c.val a.id) h.target h.comb
    have hdone : performAcc (dropReqs s c.val a.id) c.val a r = doneAcc t c.val a none := by
      unfold performAcc
      rw [hk]
      dsimp only
      rw [hstore]
      rfl
    have hmem : t.mem = s.mem := by rw [honly.package]; rfl
    have hleft := doneAcc_leaves t c.val a none
    refine ⟨_, (h.exec hr).trans (congrArg _ hdone), hmem, ⟨fun d hd => (hleft.others d hd).trans (honly.others d hd), ?_, ?_, ?_, ?_⟩,
      fun n => ?_, ?_⟩
    · rw [hleft.accs, hcore]; rfl
    · rw [hleft.pc, hcore]; rfl
    · rw [hleft.addresses, hcore]; rfl
    · rw [hleft.scratchpad, hcore]; rfl
    · rw [doneAcc_loaded, hcore]; rfl
    · refine ⟨⟨lineKey s o, combBytes [] (o % 64) (toLe a.size a.data.toNat), true, a.pc, a.va⟩, ?_, rfl, rfl, fun j hj => ?_⟩
      · rw [getCore_doneAcc, hcore]; rfl
      · rw [extractLsb'_byte, ← toLe_getElem a.size _ j (by rw [toLe_length]; exact hj)]
        exact tget_combBytes ..
  · obtain ⟨_, hd⟩ := completeAcc_plain h hr
    let s' := dropReqs s c.val a.id
    have hatomic := atomicAt_plain (s := s') (r := r) (h.line.dropped c.val a.id) (dieCode_dropReqs hd ..) h.target h.within (by omega) h.comb
    let new := amoNew a.func.toNat a.size (leNat (rdN s.mem o a.size)) a.data.toNat a.cmp.toNat
    let t := withMem (setCore s' c.val (getCore s' c.val)) (wrN s.mem o (toLe a.size new))
    have hold : leNat (rdN s.mem o a.size) % 2 ^ (8 * a.size) = leNat (rdN s.mem o a.size) := by
      have hlt := leNat_lt (rdN s.mem o a.size)
      rw [rdN_length] at hlt
      exact Nat.mod_eq_of_lt (by rw [pow_mul]; exact hlt)
    have hdone : performAcc s' c.val a r = doneAcc t c.val a (some (BitVec.ofNat 64 (leNat (rdN s.mem o a.size)))) := by
      unfold performAcc
      rw [hk]
      dsimp only
      rw [hatomic]
      show doneAcc _ _ _ (some (BitVec.ofNat 64 (leNat (rdN s.mem o a.size) % 2 ^ (8 * a.size)))) = _
      rw [hold]
      rfl
    have hcore : getCore t c.val = getCore s c.val := getCore_setCore_self ..
    have hleft := doneAcc_leaves t c.val a (some (BitVec.ofNat 64 (leNat (rdN s.mem o a.size))))
    have hwritten : (doneAcc t c.val a (some (BitVec.ofNat 64 (leNat (rdN s.mem o a.size))))).mem = wrN s.mem o (toLe a.size new) := rfl
    refine ⟨_, (h.exec hr).trans (congrArg _ hdone), ⟨fun d hd => (hleft.others d hd).trans (getCore_setCore_ne _ _ hd), ?_, ?_, ?_, ?_⟩,
      fun n => ?_, ?_, fun x hx => ?_⟩
    · rw [hleft.accs, hcore]
    · rw [hleft.pc, hcore]
    · rw [hleft.addresses, hcore]
    · rw [hleft.scratchpad, hcore]
    · rw [doneAcc_loaded, hcore]; rfl
    · rw [hwritten]
      simpa using rdN_wrN (toLe a.size new) s.mem o
    · rw [hwritten, rd8_wrN_out _ _ _ (by rw [toLe_length]; exact hx)]
  · refine ⟨_, exec_seqAccessComplete hl (by rw [hx]; intros; simp), ?_⟩
    exact completeAcc_fault hx hf

/-! ## FENCE (R147, R301) -/

/-- FENCE_COMPLETE once every earlier ST and AMO has been performed: issue resumes after the combining buffer has been written out. -/
theorem execFenceComplete_ready {c : Core} {s t : State} (hw : (getCore s c.val).wait = some .fence)
    (hp : writesPending (getCore s c.val) = false) (ht : combFlush s c.val = t) (hout : storesOut t c.val = false)
    (hf : (getCore t c.val).fault = none) :
    exec (.fenceComplete c) s = .next (modCore t c.val fun k => advance { k with wait := none } 1) := by
  show execFenceComplete c s = _
  rw [execFenceComplete, if_pos ⟨hw, by simp [hp]⟩, ht]
  simp [hout, hf]

/-- A whole line of plain memory is written at its home. -/
theorem homeWriteFrom_line {s : State} {x o : Nat} (h : PlainLine s x o) {t : Nat} (hd : dieCode s t (homeTower s o) = St.ok) (user : RemUser)
    {bs : List Byte} (ho : o % 64 = 0) (hb : bs.length = 64) :
    homeWriteFrom s t user (lineKey s o) x true 0 bs = (St.ok, withMem (clearMarker s o) (wrN s.mem o bs)) := by
  have hat : (lineKey s o).toNat % 2 ^ 41 + 0 = o := by
    rw [lineKey_mod s h.lt]
    omega
  rw [homeWriteFrom, if_pos (keyHere_lineKey s h.lt), hat, hereWrite, if_neg (by rw [h.hereCheck hd]; decide), h.recall,
    h.writeLine ho bs hb]

theorem combFlushLine_full {s t : State} {c : Nat} {l : CombLine} (hfull : l.bytes.length = 64)
    (h : homeWriteFrom s (towerOf c) (.store (BitVec.toFin (BitVec.ofNat 8 c)) l.pc l.va) l.line (getCore s c).ctx l.nc 0
      (l.bytes.map fun e => e.2.getD 0) = (St.ok, t)) : combFlushLine s c l = t := by
  unfold combFlushLine
  extract_lets ctx user whole runs
  have hruns : runs = [(0, l.bytes.map fun e => e.2.getD 0)] := by simp [runs, whole, hfull]
  rw [hruns, forEach, forEach, h]
  rfl

/-- A full line of the combining buffer goes to its home. -/
theorem combFlush_line {s : State} {c o : Nat} {l : CombLine} (hl : (getCore s c).comb = [l]) (hfull : l.bytes.length = 64)
    (ho : o % 64 = 0) (hkey : l.line = lineKey s o) (hnc : l.nc = true) (hp : PlainLine s (getCore s c).ctx o)
    (hd : dieCode s (towerOf c) (homeTower s o) = St.ok) :
    combFlush s c = withMem (clearMarker (setCore s c { getCore s c with comb := [] }) o)
      (wrN s.mem o (l.bytes.map fun e => e.2.getD 0)) := by
  let s1 := setCore s c { getCore s c with comb := [] }
  have hctx : (getCore s1 c).ctx = (getCore s c).ctx := by rw [getCore_setCore_self]
  have hkey1 : l.line = lineKey s1 o := hkey
  have hp1 : PlainLine s1 (getCore s c).ctx o := hp
  have hd1 : dieCode s1 (towerOf c) (homeTower s1 o) = St.ok := by
    rw [homeTower_setCore, dieCode_congr (t := s1) (s := s) rfl]
    exact hd
  have hline : combFlush s c = combFlushLine s1 c l := by
    rw [combFlush, hl]
    rfl
  rw [hline]
  refine combFlushLine_full hfull ?_
  rw [hctx, hkey1, hnc]
  exact homeWriteFrom_line hp1 hd1 _ ho (by rw [List.length_map, hfull])

/-- Settles O20. -/
theorem fencesRun : Obligations.FencesRun := by
  unfold Obligations.FencesRun
  intro c s
  refine ⟨fun w h => ⟨_, congrArg Host.Outcome.next h.runs, stopsOn_setCore ..⟩, fun _ hp => ?_, fun hw hp hcomb hout hf => ?_,
    fun l o hw hp hl hfull _ ho hkey hnc hplain hd hout hf => ?_⟩
  · show execFenceComplete c s = _
    rw [execFenceComplete, if_neg (by simp [hp])]
  · have hcore : getCore (setCore s c.val (getCore s c.val)) c.val = getCore s c.val := getCore_setCore_self ..
    refine ⟨_, execFenceComplete_ready hw hp (combFlush_empty hcomb) hout (by rw [hcore]; exact hf), ?_⟩
    refine resumes_of ((onlyCore_setCore ..).trans (onlyCore_modCore ..)) ?_
    rw [getCore_modCore_self, hcore]
    rfl
  · let t := withMem (clearMarker (setCore s c.val { getCore s c.val with comb := [] }) o) (wrN s.mem o (l.bytes.map fun e => e.2.getD 0))
    have hcore : getCore t c.val = { getCore s c.val with comb := [] } := getCore_setCore_self ..
    have hlen : (l.bytes.map fun e => e.2.getD 0).length = 64 := by rw [List.length_map, hfull]
    have hrest : LoopsOnly { getCore s c.val with comb := [], wait := none } (advance { getCore s c.val with comb := [], wait := none } 1) :=
      advance_loopsOnly ..
    refine ⟨_, execFenceComplete_ready hw hp (combFlush_line hl hfull ho hkey hnc hplain hd) hout (by rw [hcore]; exact hf), ?_, ?_, ?_,
      fun x hx => rd8_wrN_out _ _ _ (by rw [hlen]; exact hx)⟩
    · rw [getCore_modCore_self, hcore, hrest.rest]
    · rw [getCore_modCore_self, hcore, hrest.rest]
    · have hread := rdN_wrN (l.bytes.map fun e => e.2.getD 0) s.mem o
      rwa [hlen] at hread

end Sys2Proof.Machine
end

section
/-!
PROOF. The core register block, and the start and the end of kernels on a core (R105, R161, R168 to R174, R180, R181, R196, R222).
-/

namespace Sys2Proof.Machine

/-! ## Core registers (R168, R169, R170) -/

/-- Settles O23. -/
theorem coreRegisterAccessesRun : Obligations.CoreRegisterAccessesRun := by
  unfold Obligations.CoreRegisterAccessesRun
  intro c w s
  refine ⟨fun h => ⟨_, congrArg Host.Outcome.next h.runs, writesScalar_setCore ..⟩, fun h => ?_⟩
  have hl : LoopsOnly (getCore s c.val) (advance (getCore s c.val) 1) := advance_loopsOnly _ 1
  exact ⟨_, advance (getCore s c.val) 1, congrArg Host.Outcome.next h.runs, onlyCore_setCore .., hl.rest, hl.s, hl.a,
    pastWord_advance (OnlyRegs.refl _) rfl rfl, getCore_setCore_self ..⟩

/-- A write of a read-only register, or of an index without a register, changes nothing. -/
theorem crWrite_readOnly {k : CoreSt} {idx : Nat} (h : crReadOnly idx = true) (v : BitVec 32) : crWrite k idx v = k := by
  simp only [crReadOnly, decide_eq_true_eq, List.mem_cons, List.not_mem_nil, or_false, not_or] at h
  obtain ⟨⟨h1, h2, h3, h4, h6, h10, h11, h12, h13, h14, h18, h1B, h1C⟩, hecode⟩ := h
  have hash : ¬ (0x010 ≤ idx ∧ idx ≤ 0x013) := by omega
  rw [crWrite, if_neg h1, if_neg h2, if_neg h3, if_neg h4, if_neg h6, if_neg hash, if_neg h14, if_neg h18, if_neg h1B, if_neg h1C,
    if_neg fun h => hecode ⟨h.1, h.2.1⟩]

/-- An index without a register reads 0. -/
theorem crRead_none {c idx : Nat} {k : CoreSt} (h : crReadOnly idx = true) (hr : idx ∉ [0, 5, 8, 9, 10, 11, 12, 0x19, 0x1A])
    (hu : ¬ (0x30 ≤ idx ∧ idx ≤ 0x38)) : crRead c k idx = 0 := by
  simp only [crReadOnly, decide_eq_true_eq, List.mem_cons, List.not_mem_nil, or_false, not_or] at h hr
  obtain ⟨⟨h1, h2, h3, h4, h6, h10, h11, h12, h13, h14, h18, h1B, h1C⟩, hecode⟩ := h
  obtain ⟨h0, h5, h8, h9, hA, hB, hC, h19, h1A⟩ := hr
  have hash : ¬ (0x010 ≤ idx ∧ idx ≤ 0x013) := by omega
  rw [crRead, if_neg h0, if_neg h1, if_neg h2, if_neg h3, if_neg h4, if_neg h5, if_neg h6, if_neg h8, if_neg h9, if_neg hA, if_neg hB,
    if_neg hC, if_neg hash, if_neg h14, if_neg h18, if_neg h19, if_neg h1A, if_neg h1B, if_neg h1C, if_neg hecode, if_neg hu]

/-- A write of the error register of Ashlar engine `e` clears UE where bit 31 is 1. -/
theorem crWrite_ashErr (c : Nat) (k : CoreSt) (v : BitVec 32) {idx : Nat} (h : 0x010 ≤ idx ∧ idx ≤ 0x013) :
    crRead c (crWrite k idx v) idx = crRead c k idx &&& ~~~ (v &&& 0x80000000) := by
  have hne (n : Nat) (hn : n < 0x010) : idx ≠ n := by omega
  simp only [crWrite, crRead, h, hne, and_self, if_true, if_false, Nat.reduceLT, tget_tset_self, w1c]

/-- Settles O24. -/
theorem coreRegistersFollowTheirAccess : Obligations.CoreRegistersFollowTheirAccess := by
  unfold Obligations.CoreRegistersFollowTheirAccess
  intro c k v
  refine ⟨fun idx h => crWrite_readOnly h v, fun idx h hr hu => crRead_none h hr hu, rfl, ⟨rfl, rfl⟩, ⟨rfl, rfl, rfl⟩, rfl,
    fun idx h => ?_, rfl, fun u hu u' => ?_⟩
  · simp only [List.mem_cons, List.not_mem_nil, or_false] at h
    rcases h with rfl | h | h | h | h | rfl
    · rfl
    · exact crWrite_ashErr c k v (by omega)
    · exact crWrite_ashErr c k v (by omega)
    · exact crWrite_ashErr c k v (by omega)
    · exact crWrite_ashErr c k v (by omega)
    · rfl
  · have hne (n : Nat) (hn : n < 0x020) : 0x020 + u ≠ n := by omega
    have hash : ¬ (0x010 ≤ 0x020 + u ∧ 0x020 + u ≤ 0x013) := by omega
    by_cases hv : v.getLsbD 31 = true
    · have hin : 0x020 ≤ 0x020 + u ∧ 0x020 + u ≤ 0x028 ∧ bt v 31 = true := ⟨by omega, by omega, hv⟩
      simp only [crWrite, hne, hash, hin, if_true, if_false, Nat.reduceLT, ecodeClear, Nat.add_sub_cancel_left, tget_tset, hv, and_true]
    · have hout : ¬ (0x020 ≤ 0x020 + u ∧ 0x020 + u ≤ 0x028 ∧ bt v 31 = true) := fun h => hv h.2.2
      simp only [crWrite, hne, hash, hout, if_false, Nat.reduceLT, hv, Bool.false_eq_true, and_false]

/-! ## COMMIT (R119, R169) -/

/-- The table of slot `n` after a COMMIT: what has been loaded for it, but for a slot that still loads. -/
def committedTable (k : CoreSt) (n : Nat) : Option FTable :=
  match tget none k.mem.shadow n with
  | none => tget none k.mem.tables n
  | some f => if slotLoading k n = true then tget none k.mem.tables n else f.loaded

theorem tget_applyCommit {k : CoreSt} {n : Nat} (hn : n < 4) : tget none (applyCommit k).mem.tables n = committedTable k n := by
  let step (t : Tab (Option FTable)) (n : Nat) : Tab (Option FTable) := match tget none k.mem.shadow n with
    | none => t
    | some f => if slotLoading k n then t else tset none t n f.loaded
  have hother (t : Tab (Option FTable)) (m : Nat) (hm : n ≠ m) : tget none (step t m) n = tget none t n := by
    simp only [step]
    split
    · rfl
    · split
      · rfl
      · rw [tget_tset_ne _ hm]
  have hself (t : Tab (Option FTable)) (ht : tget none t n = tget none k.mem.tables n) : tget none (step t n) n = committedTable k n := by
    simp only [step, committedTable]
    split
    · exact ht
    · split
      · exact ht
      · rw [tget_tset_self]
  have hsteps : tget none (step (step (step (step k.mem.tables 0) 1) 2) 3) n = committedTable k n := by
    rcases (by omega : n = 0 ∨ n = 1 ∨ n = 2 ∨ n = 3) with rfl | rfl | rfl | rfl
    · rw [hother _ 3 (by decide), hother _ 2 (by decide), hother _ 1 (by decide), hself _ rfl]
    · rw [hother _ 3 (by decide), hother _ 2 (by decide), hself _ (hother _ 0 (by decide))]
    · rw [hother _ 3 (by decide), hself _ ((hother _ 1 (by decide)).trans (hother _ 0 (by decide)))]
    · rw [hself _ ((hother _ 2 (by decide)).trans ((hother _ 1 (by decide)).trans (hother _ 0 (by decide))))]
  exact hsteps

/-- Settles O25. -/
theorem commitsApply : Obligations.CommitsApply := by
  unfold Obligations.CommitsApply
  intro c s
  refine ⟨fun v hv => ?_, fun hp hh => ?_, fun ⟨u, hu, hh⟩ => ?_⟩
  · have hcore : getCore (modCore s c.val fun k => crWrite k 0x002 v) c.val =
        { getCore s c.val with cr := { (getCore s c.val).cr with commitPend := true } } := by
      rw [getCore_modCore_self]
      exact if_pos hv
    refine ⟨_, rfl, onlyCore_modCore .., ?_, hcore⟩
    rw [hcore]
    simp [canIssue]
  · have hfree : (List.range 5).all (fun u => (holdOf (getCore s c.val) u).isNone) = true := by
      simpa using hh
    refine ⟨setCore s c.val (applyCommit (getCore s c.val)), ?_, onlyCore_setCore .., ?_⟩
    · show execCommitApply c s = _
      simp [execCommitApply, hp, hfree]
    · rw [getCore_setCore_self]
      refine ⟨rfl, rfl, fun i => ?_, fun n hn => tget_applyCommit hn, rfl, rfl, rfl, rfl⟩
      show genFresh (BitVec.ofNat 16 (bf (getCore s c.val).cr.seedShadow 15 0)) i = _
      rw [show BitVec.ofNat 16 (bf (getCore s c.val).cr.seedShadow 15 0) = _ from ofNat_bf _ 15 0 (by decide)]
  · have hheld : (List.range 5).all (fun u => (holdOf (getCore s c.val) u).isNone) = false := by
      rw [List.all_eq_false]
      exact ⟨u, List.mem_range.2 hu, by simpa using hh⟩
    show execCommitApply c s = _
    simp [execCommitApply, hheld]

/-! ## Direct actions (R170, R180, R181) -/

theorem modCore_same {s : State} {c : Nat} {f : CoreSt → CoreSt} (h : f (getCore s c) = getCore s c) :
    getCore (modCore s c f) c = getCore s c := by rw [getCore_modCore_self, h]

/-- A core that holds a context ignores CORE_DIRECT. -/
theorem coreDirectWrite_holds {k : CoreSt} (h : holdsNone k = false) (v : BitVec 32) : coreDirectWrite k v = k := by
  simp [coreDirectWrite, h]

/-- The value that VCLR writes to CORE_DIRECT. -/
def vclrWord (k : CoreSt) : BitVec 32 := BitVec.ofNat 32 (2 ^ 30 + bf k.cr.coreDirect 18 0)

theorem vclrWord_fields (k : CoreSt) :
    bf (vclrWord k) 18 0 = bf k.cr.coreDirect 18 0 ∧ bt (vclrWord k) 30 = true ∧ bt (vclrWord k) 31 = false := by
  have hn : bf k.cr.coreDirect 18 0 < 2 ^ 19 := bf_lt ..
  have hv : (vclrWord k).toNat = 2 ^ 30 + bf k.cr.coreDirect 18 0 := by
    rw [vclrWord, BitVec.toNat_ofNat, Nat.mod_eq_of_lt (by omega)]
  refine ⟨?_, ?_, ?_⟩
  · rw [bf, hv]
    omega
  · rw [bt, BitVec.getLsbD, hv, Nat.testBit_two_pow_add_eq, Nat.testBit_lt_two_pow (by omega)]
    rfl
  · rw [bt, BitVec.getLsbD, hv, Nat.testBit_lt_two_pow (by omega)]

/-- A VCLR clears the vector registers of a core that holds no context and is not BUSY. -/
theorem coreDirectWrite_vclr {k : CoreSt} (hn : holdsNone k = true) (hd : isDirect k = false) :
    coreDirectWrite k (vclrWord k) = { k with mem := { k.mem with vreg := [] } } := by
  obtain ⟨hentry, hvclr, hgo⟩ := vclrWord_fields k
  have hbusy : bt k.cr.coreDirect 29 = false := hd
  simp only [coreDirectWrite, hn, Bool.not_true, Bool.false_eq_true, if_false, hentry, sf_bf, hvclr, hgo, hbusy, Bool.not_false,
    Bool.true_and, Bool.false_and, if_true]

/-- A kernel starts in the start state but for its registers and pc. -/
theorem kernelStart_startState (k : CoreSt) : KernelStart (startState k) :=
  ⟨fun _ => rfl, fun _ => ⟨rfl, rfl⟩, ⟨rfl, rfl, rfl, rfl, rfl⟩, ⟨rfl, rfl, rfl⟩, ⟨rfl, rfl, rfl⟩, ⟨rfl, rfl, rfl, rfl⟩, fun _ => rfl,
    fun _ => ⟨rfl, rfl⟩, fun _ _ => rfl⟩

/-- CORE_DIRECT and the vector registers of a core before GO of `v` acts. -/
def directReady (k : CoreSt) (v : BitVec 32) : CoreSt :=
  { k with cr := { k.cr with coreDirect := sf k.cr.coreDirect 18 0 (bf v 18 0) },
           mem := if bt v 30 then { k.mem with vreg := [] } else k.mem }

/-- GO starts a direct kernel on a core that holds no context and is not BUSY. -/
theorem coreDirectWrite_go {k : CoreSt} {v : BitVec 32} (hn : holdsNone k = true) (hd : isDirect k = false) (hv : v.getLsbD 31 = true) :
    coreDirectWrite k v = setPc { startState (directReady k v) with
        cr := { (startState (directReady k v)).cr with coreDirect := sb (sf k.cr.coreDirect 18 0 (bf v 18 0)) 29 true } }
      (BitVec.ofNat 64 (8 * bf v 18 0 % spadSize)) := by
  have hbusy : bt k.cr.coreDirect 29 = false := hd
  have hgo : bt v 31 = true := hv
  cases hvclr : bt v 30 <;>
    simp only [coreDirectWrite, directReady, startState, hn, Bool.not_true, Bool.false_eq_true, if_false, hgo, hbusy, hvclr, Bool.not_false,
      Bool.true_and, Bool.false_and, if_true]

/-- Settles O26. -/
theorem directActionsRun : Obligations.DirectActionsRun := by
  unfold Obligations.DirectActionsRun
  intro c s
  refine ⟨fun u => ⟨_, rfl, onlyCore_modCore .., ?_⟩, fun hn hd => ⟨?_, fun v hv => ?_⟩, fun hn => ⟨?_, fun v => ?_⟩⟩
  · rw [getCore_modCore_self]
    exact ⟨rfl, fun u' => tget_tset ..⟩
  · exact ⟨_, rfl, onlyCore_modCore .., (getCore_modCore_self ..).trans (coreDirectWrite_vclr hn hd)⟩
  · refine ⟨_, rfl, onlyCore_modCore .., ?_⟩
    rw [getCore_modCore_self, coreDirectWrite_go hn hd hv]
    have hstart := kernelStart_startState (directReady (getCore s c.val) v)
    refine ⟨bt_sb _ 29 true (by decide), ⟨hstart.loops, hstart.counts, hstart.faults, hstart.chisel, hstart.stats, hstart.config,
      hstart.generators, hstart.tables, hstart.vectors⟩, fun i => ite_self _, fun i => ite_self _, ?_, ?_, ?_⟩
    · rw [setPc_pc, bf_eq_extractLsb _ 18 0 (by decide)]
      rfl
    · show (directReady (getCore s c.val) v).mem.spad = _
      rw [directReady]
      split <;> rfl
    · show (directReady (getCore s c.val) v).mem.acc = _
      rw [directReady]
      split <;> rfl
  · exact ⟨_, rfl, onlyCore_modCore .., modCore_same (coreDirectWrite_holds hn _)⟩
  · exact ⟨_, rfl, onlyCore_modCore .., modCore_same (coreDirectWrite_holds hn _)⟩

/-! ## The start of a kernel (R171, R172, R196, R222) -/

/-- A core in the start state for a kernel of gang `x`, before its registers are set. -/
def kernelBase (k : CoreSt) (x : Gang) : CoreSt :=
  { startState (clearFor k x.ctx) with
    mem := { (startState (clearFor k x.ctx)).mem with spad := spadWr (startState (clearFor k x.ctx)).mem.spad x.inlOff.toNat x.inl },
    ctx := x.ctx }

theorem kernelStart_base (k : CoreSt) (x : Gang) : KernelStart (kernelBase k x) :=
  ⟨fun _ => rfl, fun _ => ⟨rfl, rfl⟩, ⟨rfl, rfl, rfl, rfl, rfl⟩, ⟨rfl, rfl, rfl⟩, ⟨rfl, rfl, rfl⟩, ⟨rfl, rfl, rfl, rfl⟩, fun _ => rfl,
    fun _ => ⟨rfl, rfl⟩, fun _ _ => rfl⟩

theorem KernelStart.phase {k : CoreSt} (h : KernelStart k) (p : CorePhase) : KernelStart { k with phase := p } :=
  ⟨h.loops, h.counts, h.faults, h.chisel, h.stats, h.config, h.generators, h.tables, h.vectors⟩

/-- The clearing of a core that passes to another context (R172). -/
theorem kernelBase_cleared (k : CoreSt) (x : Gang) : (kernelBase k x).lastCtx = some x.ctx ∧
    (kernelBase k x).mem.spad = spadWr (if k.lastCtx = some x.ctx then k.mem.spad else []) x.inlOff.toNat x.inl ∧
    (kernelBase k x).mem.acc = if k.lastCtx = some x.ctx then k.mem.acc else [] := by
  by_cases h : k.lastCtx = some x.ctx <;> simp [kernelBase, startState, clearFor, h]

theorem kernelStart_of {k l : CoreSt} (h : KernelStart k) (hl : ∀ i, lreg l i = lreg k i) (hr : OnlyRegs k l) : KernelStart l := by
  rw [hr] at hl ⊢
  exact ⟨fun i => (congrArg LoopReg.active (hl i)).trans (h.loops i), h.counts, h.faults, h.chisel, h.stats, h.config, h.generators, h.tables, h.vectors⟩

/-- The registers that a packet sets, then the rank in s2. -/
def kernelScalars (k : CoreSt) (x : Gang) (rank : Nat) : CoreSt :=
  setS (x.sregs.foldl (fun k p => setS k p.1 p.2) k) 2 (BitVec.ofNat 64 rank)

theorem foldl_setS (l : List (Nat × BitVec 64)) (k : CoreSt) :
    (l.foldl (fun k p => setS k p.1 p.2) k).regs.lc = k.regs.lc ∧ (l.foldl (fun k p => setS k p.1 p.2) k).regs.a = k.regs.a ∧
      ∀ i, (∀ q ∈ l, q.1 ≠ i) → sreg (l.foldl (fun k p => setS k p.1 p.2) k) i = sreg k i := by
  induction l generalizing k with
  | nil => exact ⟨rfl, rfl, fun _ _ => rfl⟩
  | cons p l ih =>
    obtain ⟨hlc, ha, hs⟩ := ih (setS k p.1 p.2)
    refine ⟨hlc.trans (setS_lc ..), ha.trans (setS_a ..), fun i hi => ?_⟩
    rw [List.foldl_cons, hs i fun q hq => hi q (List.mem_cons_of_mem _ hq), sreg_setS, if_neg (hi p (List.mem_cons_self ..)).symm]

theorem prepareKernel_eq (k : CoreSt) (x : Gang) (rank : Nat) : prepareKernel k x rank =
    let l := if x.inl = [] then kernelScalars (kernelBase k x) x rank
      else setA (kernelScalars (kernelBase k x) x rank) 1 (x.inlOff.setWidth 64)
    { l with regs := { l.regs with pc := x.entry } } := rfl

/-- What a kernel finds in its registers at its start; the rest of the core is `kernelBase`. -/
theorem prepareKernel_regs (k : CoreSt) (x : Gang) (rank : Nat) :
    OnlyRegs (kernelBase k x) (prepareKernel k x rank) ∧ (∀ i, lreg (prepareKernel k x rank) i = {}) ∧
      (∀ i, i ≠ 2 → (∀ q ∈ x.sregs, q.1 ≠ i) → sreg (prepareKernel k x rank) i = 0) ∧
      ∀ i, areg (prepareKernel k x rank) i = if i = 1 ∧ x.inl ≠ [] then x.inlOff.setWidth 64 else 0 := by
  obtain ⟨hlc, ha, hs⟩ := foldl_setS x.sregs (kernelBase k x)
  have hscalars (i : Nat) (h2 : i ≠ 2) (hi : ∀ q ∈ x.sregs, q.1 ≠ i) : sreg (kernelScalars (kernelBase k x) x rank) i = 0 := by
    rw [kernelScalars, sreg_setS, if_neg h2, hs i hi]
    exact ite_self _
  have honly : OnlyRegs (kernelBase k x) (kernelScalars (kernelBase k x) x rank) := (prep_ctx_foldl ..).trans (setS_onlyRegs ..)
  have haddr (i : Nat) : areg (kernelScalars (kernelBase k x) x rank) i = 0 := by
    rw [areg, kernelScalars, setS_a, ha]
    exact ite_self _
  have hloops (i : Nat) : lreg (kernelScalars (kernelBase k x) x rank) i = {} := by
    rw [kernelScalars, lreg_setS, lreg, hlc]
    rfl
  rw [prepareKernel_eq]
  by_cases hinl : x.inl = []
  · simp only [hinl, if_true, ne_eq, not_true_eq_false, and_false, if_false]
    exact ⟨by rw [honly]; rfl, hloops, hscalars, haddr⟩
  · simp only [hinl, if_false, ne_eq, not_false_eq_true, and_true]
    refine ⟨?_, fun i => (lreg_setA ..).trans (hloops i), fun i h2 hi => ?_, fun i => ?_⟩
    · have h := honly.trans (setA_onlyRegs (kernelScalars (kernelBase k x) x rank) 1 (x.inlOff.setWidth 64))
      rw [h]; rfl
    · exact (sreg_of_regs (setA_s ..) i).trans (hscalars i h2 hi)
    · have h := areg_setA (kernelScalars (kernelBase k x) x rank) 1 i (x.inlOff.setWidth 64)
      refine h.trans ?_
      rw [haddr]
      by_cases hi : i = 1 <;> simp [hi]

/-- The kernels of a list of ranks start each on its own core; no other core and no gang changes. -/
theorem forEach_startRank (x : Gang) : ∀ (l : List (Nat × Nat)) (s : State), (l.map Prod.snd).Nodup →
    (forEach s l (startRank x)).gangs = s.gangs ∧
    (∀ d, d ∉ l.map Prod.snd → getCore (forEach s l (startRank x)) d = getCore s d) ∧
    ∀ p ∈ l, getCore (forEach s l (startRank x)) p.2 = { prepareKernel (getCore s p.2) x p.1 with phase := .running }
  | [], s, _ => ⟨rfl, fun _ _ => rfl, fun _ h => absurd h List.not_mem_nil⟩
  | p :: l, s, h => by
    rw [List.map_cons, List.nodup_cons] at h
    obtain ⟨hp, hl⟩ := h
    obtain ⟨hgangs, hothers, hstarted⟩ := forEach_startRank x l (startRank x s p) hl
    rw [forEach]
    refine ⟨hgangs, fun d hd => ?_, fun q hq => ?_⟩
    · rw [List.map_cons, List.mem_cons, not_or] at hd
      rw [hothers d hd.2]
      exact getCore_modCore_ne _ _ hd.1
    · rcases List.mem_cons.1 hq with rfl | hq
      · rw [hothers _ hp]
        exact getCore_modCore_self ..
      · have hne : q.2 ≠ p.2 := fun e => hp (e ▸ List.mem_map_of_mem hq)
        rw [hstarted q hq]
        have hsame : getCore (startRank x s p) q.2 = getCore s q.2 := getCore_modCore_ne _ _ hne
        rw [hsame]

theorem execNodeStart_of {c : Core} {s : State} {g : Nat} {x : Gang} (hg : (getCore s c.val).gang = some g) (hx : gangOf s g = some x)
    (hst : x.st = .granted) (hall : ∀ p ∈ x.cores, (getCore s p.2).phase = .granted ∧ (getCore s p.2).retired = false) :
    exec (.nodeStart c) s = .next (setGang (forEach s x.cores (startRank x)) { x with st := .running, started := s.now }) := by
  have hready : (x.cores.all fun p => decide ((getCore s p.2).phase = .granted) && !(getCore s p.2).retired) = true := by
    simpa using hall
  show execNodeStart c s = _
  rw [execNodeStart, hg, Option.bind_some, hx]
  simp [hst, hready]

/-- Settles O27. -/
theorem kernelsStart : Obligations.KernelsStart := by
  unfold Obligations.KernelsStart
  intro c s g x hg hx hst hall hnodup
  obtain ⟨hgangs, hothers, hstarted⟩ := forEach_startRank x x.cores s hnodup
  refine ⟨_, execNodeStart_of hg hx hst hall, hothers, ?_, fun p hp => ?_⟩
  · have hid : g = x.id := (gangOf_id hx).symm
    rw [gangOf_setGang, if_pos hid]
    show (List.find? _ (forEach s x.cores (startRank x)).gangs).map _ = _
    rw [hgangs]
    exact congrArg (Option.map _) hx
  · have hcore : getCore (setGang (forEach s x.cores (startRank x)) { x with st := .running, started := s.now }) p.2 =
        { prepareKernel (getCore s p.2) x p.1 with phase := .running } := hstarted p hp
    obtain ⟨honly, hloops, hscalars, haddresses⟩ := prepareKernel_regs (getCore s p.2) x p.1
    obtain ⟨hctx, hpc, hrank, -⟩ := prepareKernel_spec (getCore s p.2) x p.1
    obtain ⟨hlast, hspad, hacc⟩ := kernelBase_cleared (getCore s p.2) x
    rw [hcore]
    refine ⟨(kernelStart_of (kernelStart_base (getCore s p.2) x) hloops honly).phase _, rfl, hpc, hctx, ?_, hrank, hscalars, haddresses, ?_, ?_⟩
    · exact (congrArg CoreSt.lastCtx honly).trans hlast
    · exact (congrArg (fun k => k.mem.spad) honly).trans hspad
    · exact (congrArg (fun k => k.mem.acc) honly).trans hacc

/-! ## The end of a faulty kernel (R174) -/

/-- The fields of the fault registers (Tables 5.16 to 5.20). -/
theorem recordFault_fields (k : CoreSt) {f : KFault} (h : f.src ≠ 7) :
    bt (recordFault k f).cr.fault0 31 = true ∧ bf (recordFault k f).cr.fault0 30 28 = f.src.toNat ∧
      bf (recordFault k f).cr.fault0 23 16 = f.code.toNat ∧ (recordFault k f).cr.fault1 = f.pc.extractLsb 31 0 ∧
      (recordFault k f).cr.fault2 = f.pc.extractLsb 63 32 ∧ (f.src = 1 ∨ f.src = 2 ∨ f.src = 5 →
        (recordFault k f).cr.fault3 = f.addr.extractLsb 31 0 ∧ (recordFault k f).cr.fault4 = f.addr.extractLsb 63 32) := by
  have hlow (v : BitVec 64) : BitVec.ofNat 32 v.toNat = v.extractLsb 31 0 := by
    apply BitVec.eq_of_toNat_eq
    simp
  have hhigh (v : BitVec 64) : BitVec.ofNat 32 (v.toNat / 2 ^ 32) = v.extractLsb 63 32 := by
    apply BitVec.eq_of_toNat_eq
    simp [Nat.shiftRight_eq_div_pow]
  have hsrc := f.src.isLt
  have hcode := f.code.isLt
  obtain ⟨unit, hunit, h0⟩ : ∃ u : Nat, u < 4 ∧ (recordFault k f).cr.fault0 =
      BitVec.ofNat 32 (2 ^ 31 + f.src.toNat * 2 ^ 28 + u * 2 ^ 26 + f.code.toNat * 2 ^ 16) := by
    refine ⟨if f.src = 3 ∨ f.src = 5 then f.unit.toNat else 0, ?_, by rw [recordFault, if_neg h]⟩
    have := f.unit.isLt
    split <;> omega
  have hv : (recordFault k f).cr.fault0.toNat = 2 ^ 31 + f.src.toNat * 2 ^ 28 + unit * 2 ^ 26 + f.code.toNat * 2 ^ 16 := by
    rw [h0, BitVec.toNat_ofNat, Nat.mod_eq_of_lt (by omega)]
  refine ⟨?_, ?_, ?_, ?_, ?_, fun hs => ?_⟩
  · rw [bt, BitVec.getLsbD, hv, Nat.testBit_eq_decide_div_mod_eq, decide_eq_true_eq]
    omega
  · rw [bf, hv]
    omega
  · rw [bf, hv]
    omega
  · rw [recordFault, if_neg h]
    exact hlow f.pc
  · rw [recordFault, if_neg h]
    exact hhigh f.pc
  · rw [recordFault, if_neg h]
    simp only [hs, if_true]
    exact ⟨hlow f.addr, hhigh f.addr⟩

/-- A core with the fault registers `a` to `e`. -/
def withFaults (k : CoreSt) (a b c d e : BitVec 32) : CoreSt :=
  { k with cr := { k.cr with fault0 := a, fault1 := b, fault2 := c, fault3 := d, fault4 := e } }

theorem isDirect_withFaults (k : CoreSt) (a b c d e : BitVec 32) : isDirect (withFaults k a b c d e) = isDirect k := rfl

theorem isDirect_recordFault (k : CoreSt) (f : KFault) : isDirect (recordFault k f) = isDirect k := by
  unfold recordFault
  split
  · rfl
  · exact isDirect_withFaults ..

/-- A kernel that met a fault does not end while it runs operations or has accesses out. -/
theorem execKernelFaultEnd_waits {c : Core} {s : State} {f : KFault} (hf : (getCore s c.val).fault = some f)
    (h : (enginesIdle (getCore s c.val) && decide ((getCore s c.val).accs = []) && !outOfUse (getCore s c.val)) = false) :
    execKernelFaultEnd c s = .next s := by
  unfold execKernelFaultEnd
  extract_lets k
  rw [show k.fault = some f from hf]
  dsimp only
  rw [if_pos (by rw [h]; rfl)]

/-- A direct kernel that met a fault ends with its code, once nothing of it is left. -/
theorem execKernelFaultEnd_direct {c : Core} {s : State} {f : KFault} (hf : (getCore s c.val).fault = some f)
    (h : (enginesIdle (getCore s c.val) && decide ((getCore s c.val).accs = []) && !outOfUse (getCore s c.val)) = true)
    (hcomb : (getCore s c.val).comb = []) (hwaits : coreWaits s c.val = false) (hd : isDirect (getCore s c.val) = true) :
    execKernelFaultEnd c s =
      .next (setCore (setCore s c.val (getCore s c.val)) c.val (directEnded (recordFault (getCore s c.val) f) f.code)) := by
  unfold execKernelFaultEnd
  extract_lets k s1
  rw [show k.fault = some f from hf]
  dsimp only
  have hwaits' : coreWaits (setCore s c.val (getCore s c.val)) c.val = false := hwaits
  rw [if_neg (by rw [h]; decide)]
  rw [show s1 = setCore s c.val (getCore s c.val) from combFlush_empty hcomb, hwaits', getCore_setCore_self, isDirect_recordFault, hd]
  rfl

/-- Settles O29. -/
theorem faultyKernelsEnd : Obligations.FaultyKernelsEnd := by
  unfold Obligations.FaultyKernelsEnd
  intro c s f hf
  refine ⟨fun h => execKernelFaultEnd_waits hf (by rcases h with h | h <;> simp [h]), fun hidle haccs hret hcomb hwaits hd hsrc => ?_⟩
  obtain ⟨hbusy, hsrc', hcode, hpc, hpc', haddr⟩ := recordFault_fields (getCore s c.val) hsrc
  refine ⟨_, execKernelFaultEnd_direct hf (by simp [hidle, haccs, outOfUse, hret]) hcomb hwaits hd,
    (onlyCore_setCore ..).trans (onlyCore_setCore ..), ?_⟩
  rw [getCore_setCore_self]
  generalize recordFault (getCore s c.val) f = k1 at *
  exact ⟨isDirect_directEnded .., directEnded_code .., hbusy, hsrc', hcode, hpc, hpc', haddr⟩

/-! ## Memory errors inside a core (R105, R161, R394) -/

theorem satInc_toNat (n : Nat) (h : n < 2 ^ 16) : (satInc (BitVec.ofNat 16 n)).toNat = min (n + 1) 0xFFFF := by
  have hv : (BitVec.ofNat 16 n).toNat = n := by rw [BitVec.toNat_ofNat, Nat.mod_eq_of_lt h]
  rw [satInc]
  by_cases hmax : n = 65535
  · subst hmax
    rfl
  · have hne : BitVec.ofNat 16 n ≠ BitVec.allOnes 16 := by
      intro e
      have := congrArg BitVec.toNat e
      rw [hv] at this
      exact hmax this
    rw [if_neg hne, BitVec.toNat_add, hv]
    show (n + 1) % 65536 = _
    omega

/-- An error register after a corrected error (Tables 3.13, 4.28 and 5.15). -/
theorem ceRecord_corrected (e : BitVec 32) {hi lo loc : Nat} (hlo : 15 < lo) (hhi : hi < 31) (hloc : loc < 2 ^ (hi + 1 - lo)) :
    CorrectedError e (ceRecord e hi lo loc) hi lo loc := by
  have hcount : bf e 15 0 < 2 ^ 16 := bf_lt ..
  refine ⟨?_, ?_, ?_⟩
  · rw [ceRecord, bf_sf_out _ _ _ _ _ _ (Or.inl hlo), bf_sf_same _ _ _ _ (by decide), satInc_toNat _ hcount]
    exact Nat.mod_eq_of_lt (by omega)
  · rw [ceRecord, bf_sf_same _ _ _ _ (by omega), Nat.mod_eq_of_lt hloc]
  · rw [ceRecord, bt_sf_out _ _ _ _ _ (Or.inr hhi), bt_sf_out _ _ _ _ _ (Or.inr (by decide))]

theorem histAdd_count (h : List (Nat × Nat)) (src now : Nat) : (histAdd h src now 1000000000).2 =
    (h.filter fun e => decide (now < e.2 + 1000000000) && decide (e.1 = src)).length + 1 := by
  simp [histAdd, List.filter_filter, Bool.and_comm]

/-- A core with the error history `h`, due for retirement as `due` says. -/
def withErrs (k : CoreSt) (h : List (Nat × Nat)) (due : Bool) : CoreSt := { k with errs := h, retireDue := due }

/-- Below the sixteenth corrected error of its source within 1 s, an error only counts. -/
theorem countCe_below {s : State} {c src : Nat} (hd : (getCore s c).retireDue = false) (hn : errorsInSecond (getCore s c) src s.now < 16) :
    countCe s c src = setCore s c (withErrs (getCore s c) (histAdd (getCore s c).errs src s.now 1000000000).1 false) := by
  have hbelow : ((getCore s c).retireDue || decide (ceLimit ≤ (histAdd (getCore s c).errs src s.now 1000000000).2)) = false := by
    rw [hd, Bool.false_or, histAdd_count, decide_eq_false_iff_not]
    exact Nat.not_le.2 hn
  have hcount : countCe s c src = retireIfDue (setCore s c (withErrs (getCore s c) (histAdd (getCore s c).errs src s.now 1000000000).1
      ((getCore s c).retireDue || decide (ceLimit ≤ (histAdd (getCore s c).errs src s.now 1000000000).2)))) c := rfl
  rw [hcount, hbelow]
  exact retireIfDue_not rfl

/-- A corrected error changes the error register of its source and the history of the core. -/
theorem countCe_corrected {s : State} {c src : Nat} {f : CoreRegs → CoreRegs} (hd : (getCore s c).retireDue = false)
    (hn : errorsInSecond (getCore s c) src s.now < 16) :
    let t := countCe (modCore s c fun k => { k with cr := f k.cr }) c src
    OnlyCore s t c ∧ (getCore t c).retired = (getCore s c).retired ∧ (getCore t c).cr = f (getCore s c).cr := by
  intro t
  have ht : t = setCore _ c _ := countCe_below (s := modCore s c fun k => { k with cr := f k.cr }) (by rw [getCore_modCore_self]; exact hd)
    (by rw [getCore_modCore_self]; exact hn)
  rw [ht]
  refine ⟨(onlyCore_modCore ..).trans (onlyCore_setCore ..), ?_, ?_⟩ <;> rw [getCore_setCore_self, getCore_modCore_self] <;> rfl

theorem rasToRing_key (s : State) (m : Nat) (r : List Byte) : (rasToRing s m r).key = { s.key with mb := (rasToRing s m r).key.mb } := by
  unfold rasToRing
  extract_lets k wp rp
  split
  · rfl
  · rw [mbIrq_key]
    rfl

/-- A RAS record advances the sequence number and leaves the unit records. -/
theorem rasTo_key (s : State) (ms : List Nat) (code : Code) (kind queue : Nat) (unit : BitVec 32) (ctx detail : Nat) :
    (rasTo s ms code kind queue unit ctx detail).key.recs = s.key.recs ∧
      (rasTo s ms code kind queue unit ctx detail).key.rseq = s.key.rseq + 1 := by
  have hring : ∀ (l : List Nat) (s : State) (r : List Byte), (forEach s l fun s m => rasToRing s m r).key.recs = s.key.recs ∧
      (forEach s l fun s m => rasToRing s m r).key.rseq = s.key.rseq := by
    intro l
    induction l with
    | nil => exact fun _ _ => ⟨rfl, rfl⟩
    | cons m l ih =>
      intro s r
      obtain ⟨hrecs, hrseq⟩ := ih (rasToRing s m r) r
      rw [forEach, hrecs, hrseq, rasToRing_key]
      exact ⟨rfl, rfl⟩
  obtain ⟨hrecs, hrseq⟩ := hring ms s (rasBytes s code kind queue unit ctx detail)
  exact ⟨hrecs, congrArg (· + 1) hrseq⟩

theorem storePush_key (s : State) (op : StoreOp) (order : Option Nat) : (storePush s op order).key = s.key := rfl

theorem tooLarge_of_no_gangs {s : State} (h : s.gangs = []) : tooLarge s = s := by
  simp [tooLarge, h, forEach]

/-- A core that has been retired. -/
def coreRetired (k : CoreSt) (again field : Bool) : CoreSt :=
  { k with retired := true, retireDue := false, retiredAgain := again, mortarGone := k.mortarGone || field, hold := [], ops := [], dma := [],
           accs := [], comb := [], wait := none, rlb := [],
           cr := { k.cr with coreDirect := sb k.cr.coreDirect 29 false, chsDirect := sb k.cr.chsDirect 30 false } }

theorem getCore_recRetire (s : State) (u : Nat) (order : Option Nat) (d : Nat) : getCore (recRetire s u order) d = getCore s d := rfl

theorem retireCore_no_gang {s : State} {c : Nat} (hr : (getCore s c).retired = false) (hg : (getCore s c).gang = none) (field : Bool) :
    ∃ s1, s1 = recRetire (modCore s c fun k => coreRetired k (decide (1 ≤ retiredSince s (unitCode 2 c))) field) (unitCode 2 c) none ∧
      retireCore s c field = tooLarge (report s1 [] St.ok 1 (unitId s1 2 c) 0) := by
  refine ⟨_, rfl, ?_⟩
  unfold retireCore
  extract_lets k x code owner u again s1 s2 s3
  have hx : x = none := by simp only [x, k, hg, Option.bind_none]
  rw [if_neg (by simp [k, hr])]
  simp only [s3, code, owner, hx]
  rfl

/-- The retirement of a core that runs no kernel of a gang, while no gang asks for cores: the record is stored and reported. -/
theorem retireCore_alone {s : State} {c : Nat} (hr : (getCore s c).retired = false) (hg : (getCore s c).gang = none) (hgs : s.gangs = []) :
    let t := retireCore s c false
    (getCore t c).retired = true ∧ (getCore t c).cr.ashErr = (getCore s c).cr.ashErr ∧ (∀ d, d ≠ c → getCore t d = getCore s d) ∧
      t.key.recs.retired = s.key.recs.retired ++ [unitCode 2 c] ∧ t.key.rseq = s.key.rseq + 1 := by
  intro t
  obtain ⟨s1, hs1, ht⟩ := retireCore_no_gang hr hg false
  have hside : RasSide s1 (report s1 [] St.ok 1 (unitId s1 2 c) 0) := rasTo_ras (RasSide.refl s1)
  have hgangs : (report s1 [] St.ok 1 (unitId s1 2 c) 0).gangs = [] := by
    rw [hside, hs1]
    exact hgs
  obtain ⟨hrecs, hrseq⟩ := rasTo_key s1 [0, 1, 2, 3] St.ok 1 0xFFFF (unitId s1 2 c) 0xFFFF 0
  have hcores (d : Nat) : getCore t d = getCore s1 d := by
    show getCore (retireCore s c false) d = _
    rw [ht, tooLarge_of_no_gangs hgangs, hside]
    rfl
  have hkey : t.key.recs = s1.key.recs ∧ t.key.rseq = s1.key.rseq + 1 := by
    show (retireCore s c false).key.recs = _ ∧ (retireCore s c false).key.rseq = _
    rw [ht, tooLarge_of_no_gangs hgangs]
    exact ⟨hrecs, hrseq⟩
  have hself : getCore s1 c = coreRetired (getCore s c) (decide (1 ≤ retiredSince s (unitCode 2 c))) false := by
    rw [hs1, getCore_recRetire, getCore_modCore_self]
  refine ⟨?_, ?_, fun d hd => ?_, ?_, ?_⟩
  · rw [hcores, hself]
    rfl
  · rw [hcores, hself]
    rfl
  · rw [hcores, hs1, getCore_recRetire, getCore_modCore_ne _ _ hd]
  · rw [hkey.1, hs1]
    rfl
  · rw [hkey.2, hs1]
    rfl

/-- Settles O30. -/
theorem coreErrorsCount : Obligations.CoreErrorsCount := by
  unfold Obligations.CoreErrorsCount
  intro c s
  refine ⟨fun e loc hd hn => ?_, fun loc hd hn => ?_, fun bank hd hn => ?_, fun e hr hg hgs => ?_⟩
  · obtain ⟨honly, hret, hcr⟩ := countCe_corrected (f := fun r => { r with ashErr := tset 0 r.ashErr e.val (ceRecord (tget 0 r.ashErr e.val) 27 24 loc.val) }) hd hn
    refine ⟨countCe _ _ _, rfl, honly, hret, ?_⟩
    rw [hcr, tget_tset_self]
    exact ceRecord_corrected _ (by decide) (by decide) (by omega)
  · obtain ⟨honly, hret, hcr⟩ := countCe_corrected (f := fun r => { r with chsErr := ceRecord r.chsErr 27 24 loc.val }) hd hn
    refine ⟨countCe _ _ _, rfl, honly, hret, ?_⟩
    rw [hcr]
    exact ceRecord_corrected _ (by decide) (by decide) (by omega)
  · obtain ⟨honly, hret, hcr⟩ := countCe_corrected (f := fun r => { r with spadErr := ceRecord r.spadErr 21 16 bank.val }) hd hn
    refine ⟨countCe _ _ _, rfl, honly, hret, ?_⟩
    rw [hcr]
    exact ceRecord_corrected _ (by decide) (by decide) bank.isLt
  · let s1 := modCore s c.val fun k =>
      { k with cr := { k.cr with ashErr := tset 0 k.cr.ashErr e.val (sb (tget 0 k.cr.ashErr e.val) 31 true) } }
    have hself : getCore s1 c.val = _ := getCore_modCore_self ..
    obtain ⟨hretired, hash, hothers, hrecs, hrseq⟩ := retireCore_alone (s := s1) (c := c.val) (by rw [hself]; exact hr) (by rw [hself]; exact hg) hgs
    refine ⟨retireCore s1 c.val false, rfl, hretired, ?_, fun d hd => (hothers d hd).trans (getCore_modCore_ne _ _ hd), hrecs, hrseq⟩
    rw [hash, hself, tget_tset_self]
    exact bt_sb _ 31 true (by decide)

end Sys2Proof.Machine
end

section
/-!
PROOF. The engines of a core: dispatch, acceptance, and the operations of the Ashlar engines and of Chisel (R38, R62, R71 to R91, R109 to
R134, R150 to R152).
-/

namespace Sys2Proof.Machine

/-! ## Dispatch (R81, R109, R119, R129, R150) -/

theorem bf_append (op : BitVec 8) (w : BitVec 56) (hi lo : Nat) (h : lo ≤ hi) (h56 : hi < 56) :
    bf (op ++ w : BitVec 64) hi lo = bf w hi lo := by
  rw [bf_eq_extractLsb _ _ _ h, bf_eq_extractLsb _ _ _ h]
  congr 1
  apply BitVec.eq_of_getLsbD_eq
  intro i hi'
  simp only [BitVec.getLsbD_extract, BitVec.getLsbD_append]
  by_cases hb : i ≤ hi - lo
  · rw [if_pos (by omega)]
  · simp [hb]

theorem extractLsb_beq_zero {w : Nat} (x : BitVec w) (hi lo : Nat) (h : lo ≤ hi) : (x.extractLsb hi lo == 0) = decide (bf x hi lo = 0) := by
  rw [bf_eq_extractLsb _ _ _ h, beq_eq_decide, decide_eq_decide]
  exact ⟨fun e => by rw [e]; rfl, fun e => BitVec.eq_of_toNat_eq e⟩

/-- An engine instruction whose hold slot is free is dispatched. -/
theorem dispatch_free {s : State} {c : Core} {u n : Nat} {kind : EngKind} {w0 w1 : BitVec 64} {vals : List (BitVec 64)} {legal : Bool}
    {regs : List Nat} {body : CoreSt → CoreSt} (h : Issues s c legal regs) (hn : 1 ≤ n) (hf : holdOf (getCore s c.val) u = none)
    (hbody : body (getCore s c.val) = advance (dispatchEngine (getCore s c.val) u kind w0 w1 vals) n) :
    Dispatches s (if canIssue (getCore s c.val) && legal && (holdOf (getCore s c.val) u).isSome then s else issueCore s c.val legal regs body)
      c.val u n ⟨kind, w0, w1, (getCore s c.val).dispNo, (getCore s c.val).regs.pc, vals, false⟩ := by
  rw [hf, Option.isSome_none, Bool.and_false, if_neg (by decide), h.runs, hbody]
  exact dispatch_ok hn

/-- While the hold slot is full an engine instruction waits. -/
theorem dispatch_full {s : State} {c : Core} {u : Nat} {legal : Bool} {regs : List Nat} {t : State} (h : Issues s c legal regs)
    (hf : holdOf (getCore s c.val) u ≠ none) :
    (if canIssue (getCore s c.val) && legal && (holdOf (getCore s c.val) u).isSome then s else t) = s := by
  rw [h.issuing, h.word, Option.isSome_iff_ne_none.2 hf]
  rfl

/-- A row of the Chisel instructions is the issue of its kind with its values. -/
theorem exec_rowChisel {p : (Core → BitVec 56 → Instr) × EngKind × Nat × (BitVec 56 → Bool) × (BitVec 56 → List Nat) ×
      (CoreSt → BitVec 56 → List (BitVec 64))} (hp : p ∈ rowsChisel) (c : Core) (w : BitVec 56) (s : State) :
    exec (p.1 c w) s = .next (issueChisel c s (p.2.2.2.1 w) (p.2.2.2.2.1 w) p.2.1 (BitVec.ofNat 8 p.2.2.1 ++ w) fun k => p.2.2.2.2.2 k w) := by
  simp only [rowsChisel, List.mem_cons, List.not_mem_nil, or_false] at hp
  have hb (hi lo : Nat) (h : lo ≤ hi) : (w.extractLsb hi lo).toNat = bf w hi lo := (bf_eq_extractLsb w hi lo h).symm
  rcases hp with rfl | rfl | rfl
  · simp only [extractLsb_beq_zero w 46 0 (by decide), hb 51 47 (by decide), hb 54 52 (by decide), ← word0_eq 0x48 w (by decide)]
    rfl
  · simp only [extractLsb_beq_zero w 25 0 (by decide), hb 42 38 (by decide), hb 48 46 (by decide), hb 45 43 (by decide),
      ← word0_eq 0x49 w (by decide)]
    rfl
  · simp only [extractLsb_beq_zero w 46 0 (by decide), hb 53 50 (by decide), hb 49 47 (by decide), ← Bool.decide_and,
      ← word0_eq 0x4A w (by decide)]
    rfl

/-- Settles O31. -/
theorem engineInstructionsDispatch : Obligations.EngineInstructionsDispatch := by
  unfold Obligations.EngineInstructionsDispatch
  intro c s
  refine ⟨fun w w1 h => ?_, fun p hp w h => ?_⟩
  · have hw : word0 0x40 w = 0x40#8 ++ w := word0_eq 0x40 w (by decide)
    have heng : (w.extractLsb 55 54).toNat = amEng (0x40#8 ++ w) := by
      rw [amEng, bf_append _ _ _ _ (by decide) (by decide), bf_eq_extractLsb _ _ _ (by decide)]
    have hexec : exec (.amm c w w1) s = execAmm c w w1 s := rfl
    rw [hexec, execAmm, hw, heng]
    exact ⟨fun hf => ⟨_, rfl, dispatch_free h (by decide) hf rfl⟩, fun hf => congrArg _ (dispatch_full h hf)⟩
  · rw [exec_rowChisel hp]
    exact ⟨fun hf => ⟨_, rfl, dispatch_free h (by decide) hf rfl⟩, fun hf => congrArg _ (dispatch_full h hf)⟩

/-! ## Acceptance (R38, R78, R83, R110, R116, R124, R129) -/

/-- A unit that may accept takes the operation of its hold slot. -/
theorem Accepts.passes {s : State} {c u : Nat} {o : HeldOp} (h : Accepts s c u o) :
    (!(mayAccept (getCore s c) && !entryBusy (getCore s c) u && heldAllows (getCore s c) o) || (getGroup s (c / 4)).blocked) = false := by
  rw [h.may, h.entry, h.order, h.clock]
  rfl

/-- What Chisel does with an operation that it takes from its hold slot, by its kind. -/
def chiselTakes (k : CoreSt) (o : HeldOp) : CoreSt :=
  match o.kind with
  | .chn => acceptChn (setHold k 4 none) o (bt o.w0 55)
  | .cfold => acceptCfold (setHold k 4 none) o
  | _ => setOps (setHold k 4 none) 4 (opsOf (setHold k 4 none) 4 ++
      [⟨o, .running, [], [], St.ok, [], [], [], [], [], k.genEpoch, k.mem.spad⟩])

theorem execChiselAccept_of {c : Core} {s : State} {o : HeldOp} (h : Accepts s c.val 4 o) :
    exec (.chiselAccept c) s = .next (setCore s c.val (chiselTakes (getCore s c.val) o)) := by
  show execChiselAccept c s = _
  unfold execChiselAccept
  simp only [h.held, h.passes, Bool.false_eq_true, if_false]
  rfl

/-- The operation that engine `e` makes of a held AMM with the descriptors that stand in its scratchpad (R81). -/
def ammOp (k : CoreSt) (o : HeldOp) : RunOp :=
  let m := k.mem.spad
  let a := rdOfd m (opVal o 4).toNat
  let b := rdOfd m (opVal o 5).toNat
  ⟨o, .checked, amTiles o.w0, [], St.ok, [], [a, b], [lutBytes m a, lutBytes m b],
    if amSkip o.w0 then (List.range (amMT o.w0 * amNT o.w0)).map fun x => BitVec.ofNat 64 (leNat (spadRd m (amSkoff o + 8 * x) 8)) else [],
    [], k.genEpoch, m⟩

/-- AMM_ACCEPT of an operation that is not sliced. -/
theorem execAmmAccept_of {c : Core} {s : State} {e : Fin 4} {o : HeldOp} (h : Accepts s c.val e.val o)
    (hok : amChecks o.w0 (rdOfd (getCore s c.val).mem.spad (opVal o 4).toNat) (rdOfd (getCore s c.val).mem.spad (opVal o 5).toNat) = true)
    (hm : amMode o.w0 ≠ 2) : exec (.ammAccept c e) s = .next (setCore s c.val (setOps (setHold (getCore s c.val) e.val none) e.val
      (opsOf (setHold (getCore s c.val) e.val none) e.val ++ [ammOp (getCore s c.val) o]))) := by
  show execAmmAccept c e s = _
  unfold execAmmAccept
  simp only [h.held, h.passes, hok, hm, Bool.not_true, Bool.false_eq_true, if_false]
  rfl

/-- An operation that Chisel refuses. -/
theorem chisel_refuses {s : State} {c : Core} {o : HeldOp} (h : Accepts s c.val 4 o) (hd : o.direct = false)
    (hk : chiselTakes (getCore s c.val) o = finishOp (setHold (getCore s c.val) 4 none) 4 o St.fmtReserved) :
    ∃ t, exec (.chiselAccept c) s = .next t ∧ Refuses s t c.val 4 o 4 0 := by
  refine ⟨setCore s c.val _, execChiselAccept_of h, ?_⟩
  rw [hk]
  exact refuses hd rfl rfl (mayAccept_fault h.may)

/-- An operation that Chisel accepts. -/
theorem chisel_accepts {s : State} {c : Core} {o : HeldOp} (h : Accepts s c.val 4 o) {tiles : List Nat} {stage : OpStage} (r : RunOp)
    (hr : r.op = o ∧ r.stage = stage ∧ r.tiles = tiles ∧ r.code = St.ok ∧ r.seen = (getCore s c.val).mem.spad)
    (hk : chiselTakes (getCore s c.val) o =
      setOps (setHold (getCore s c.val) 4 none) 4 (opsOf (setHold (getCore s c.val) 4 none) 4 ++ [r])) :
    ∃ t, exec (.chiselAccept c) s = .next t ∧ Accepted s t c.val 4 o tiles stage := by
  obtain ⟨hop, hstage, htiles, hcode, hseen⟩ := hr
  refine ⟨setCore s c.val _, execChiselAccept_of h, ?_⟩
  rw [hk]
  exact accepted r hop hstage htiles hcode hseen

/-- Acceptance of a chain operation, by its checks and its START. -/
theorem acceptChn_of (k : CoreSt) (o : HeldOp) (stream : Bool) : acceptChn k o stream =
    if chnChecks stream (chainDesc k o) (chainOfds k (chainDesc k o)) (activeTables k) = false then finishOp k 4 o St.fmtReserved
    else if hLen (chainDesc k o) ≤ startAt (chainDesc k o) (chainOfds k (chainDesc k o)) ((opVal o 1).toNat % 2 ^ 20) then finishOp k 4 o St.ok
    else setOps k 4 (opsOf k 4 ++ [⟨o, .checked, chainTiles (chainDesc k o), [], St.ok, chainDesc k o, chainOfds k (chainDesc k o), [], [],
      activeTables k, k.genEpoch, k.mem.spad⟩]) := by
  unfold acceptChn
  simp only [Bool.not_eq_true']
  rfl

theorem chiselTakes_chn {k : CoreSt} {o : HeldOp} (hk : o.kind = .chn) : chiselTakes k o =
    if chnChecks (o.w0.getLsbD 55) (chainDesc k o) (chainOfds k (chainDesc k o)) (activeTables k) = false
    then finishOp (setHold k 4 none) 4 o St.fmtReserved
    else if hLen (chainDesc k o) ≤ startAt (chainDesc k o) (chainOfds k (chainDesc k o)) ((opVal o 1).toNat % 2 ^ 20)
    then finishOp (setHold k 4 none) 4 o St.ok
    else setOps (setHold k 4 none) 4 (opsOf (setHold k 4 none) 4 ++ [⟨o, .checked, chainTiles (chainDesc k o), [], St.ok, chainDesc k o,
      chainOfds k (chainDesc k o), [], [], activeTables k, k.genEpoch, k.mem.spad⟩]) := by
  rw [chiselTakes, hk]
  exact acceptChn_of (setHold k 4 none) o (bt o.w0 55)

theorem chiselTakes_cfold {k : CoreSt} {o : HeldOp} (hk : o.kind = .cfold) : chiselTakes k o = acceptCfold (setHold k 4 none) o := by
  rw [chiselTakes, hk]

theorem cfCvt_mod (w : BitVec 64) : cfCvt w % 4 = (w.extractLsb 50 49).toNat := by
  rw [cfCvt, ← bf_eq_extractLsb _ _ _ (by decide), bf, bf]
  omega

/-- Settles O32. -/
theorem engineOperationsAreAccepted : Obligations.EngineOperationsAreAccepted := by
  unfold Obligations.EngineOperationsAreAccepted
  intro c s o hd
  refine ⟨fun e _ h => ⟨fun hok => ?_, fun hok hm => ?_⟩, fun hk h => ⟨fun hok => ?_, fun hok hlen => ?_, fun hok hlen => ?_⟩, fun hk h => ?_,
    fun hk h => ?_⟩
  · have hne : e.val ≠ 4 := by omega
    refine ⟨setCore s c.val _, ?_, refuses hd (if_neg hne) (if_neg hne) (mayAccept_fault h.may)⟩
    show execAmmAccept c e s = _
    unfold execAmmAccept
    simp only [h.held, h.passes, Bool.false_eq_true, if_false, hok, Bool.not_false, if_true]
  · exact ⟨setCore s c.val _, execAmmAccept_of h hok hm, accepted (ammOp (getCore s c.val) o) rfl rfl rfl rfl rfl⟩
  · exact chisel_refuses h hd (by rw [chiselTakes_chn hk, if_pos hok])
  · refine ⟨setCore s c.val (completeUnit (setHold (getCore s c.val) 4 none) 4 St.ok o.disp), ?_, onlyCore_setCore .., ?_⟩
    · rw [execChiselAccept_of h, chiselTakes_chn hk, if_neg (by rw [Bool.not_eq_false]; exact hok), if_pos hlen,
        finish_ok _ _ _ _ hd (by decide)]
    · rw [getCore_setCore_self]
      exact ⟨(Completes.of ..).mono rfl rfl, rfl, rfl⟩
  · exact chisel_accepts h _ ⟨rfl, rfl, rfl, rfl, rfl⟩
      (by rw [chiselTakes_chn hk, if_neg (by rw [Bool.not_eq_false]; exact hok), if_neg (Nat.not_le.2 hlen)])
  · rw [← cfCvt_mod]
    split
    · exact chisel_refuses h hd (by rw [chiselTakes_cfold hk, acceptCfold, if_neg (by omega)])
    · exact chisel_accepts h _ ⟨rfl, rfl, rfl, rfl, rfl⟩ (by rw [chiselTakes_cfold hk, acceptCfold, if_pos (by omega)])
  · exact chisel_accepts h _ ⟨rfl, rfl, rfl, rfl, rfl⟩ (by rw [chiselTakes, hk])

end Sys2Proof.Machine
end

section
/-!
PROOF. The products that the Ashlar array forms of wrapping INT8 operands, and the drain of a tile (R71 to R79, R85 to R91, R99, R100).
-/

namespace Sys2Proof.Machine

/-! ## Exact integers -/

/-- A value is the integer `i`. -/
def Num.Is (x : Num) (i : Int) : Prop := ∃ s m, x = .fin s m 0 ∧ sigAt s m 0 0 = i

theorem sigAt_zero (s : Bool) (m : Nat) : sigAt s m 0 0 = if s then -(m : Int) else m := by simp [sigAt]

theorem Num.is_ofInt (i : Int) : (Num.ofInt i).Is i := by
  refine ⟨_, _, rfl, ?_⟩
  rw [sigAt_zero]
  by_cases h : i < 0
  · rw [decide_eq_true h, if_pos rfl]
    omega
  · rw [decide_eq_false h, if_neg (by decide)]
    omega

theorem Num.Is.mul {x y : Num} {i j : Int} (hx : x.Is i) (hy : y.Is j) : (x.mul y).Is (i * j) := by
  obtain ⟨s, m, rfl, rfl⟩ := hx
  obtain ⟨t, n, rfl, rfl⟩ := hy
  refine ⟨s != t, m * n, rfl, ?_⟩
  rw [sigAt_zero, sigAt_zero, sigAt_zero]
  cases s <;> cases t <;> simp

theorem Num.Is.add {x y : Num} {i j : Int} (hx : x.Is i) (hy : y.Is j) : (x.add y).Is (i + j) := by
  obtain ⟨s, m, rfl, rfl⟩ := hx
  obtain ⟨t, n, rfl, rfl⟩ := hy
  simp only [Num.add, ite_self]
  generalize sigAt s m 0 0 + sigAt t n 0 0 = v
  by_cases h : v = 0
  · rw [if_pos h, h]
    exact ⟨_, _, rfl, by simp [sigAt_zero]⟩
  · rw [if_neg h]
    exact Num.is_ofInt v

/-- The sum of `f` over the first `n` indices. -/
def dotSum (f : Nat → Int) (n : Nat) : Int := (List.range n).foldl (fun x k => x + f k) 0

theorem dotSum_zero (f : Nat → Int) : dotSum f 0 = 0 := rfl

theorem dotSum_succ (f : Nat → Int) (n : Nat) : dotSum f (n + 1) = dotSum f n + f n := by
  simp [dotSum, List.range_succ]

/-! ## An array cycle of integers (R87) -/

theorem narrowInt_wraps (v : Int) : (narrowInt Fm.int32 true v).1 = (v % 2 ^ 32).toNat := by
  by_cases h : intLo Fm.int32 ≤ v ∧ v ≤ intHi Fm.int32
  · simp only [narrowInt, if_pos h]
    rfl
  · simp only [narrowInt, if_neg h, if_true]
    rfl

theorem toInt_emod (acc : Nat) (x : Int) : (toInt 32 acc + x) % 2 ^ 32 = ((acc : Int) + x) % 2 ^ 32 := by
  rw [toInt, BitVec.toInt_ofNat', Int.bmod_def]
  split <;> omega

/-- A wrapping array cycle adds the products to the accumulator modulo 2^32. -/
theorem intCycle_wraps {acc : Nat} {terms : List (Num × Num)} {v : Int}
    (h : ∀ y i, Num.Is y i → (terms.foldl (fun x p => x.add (p.1.mul p.2)) y).Is (i + v)) :
    (intCycle true acc terms).1 = (((acc : Int) + v) % 2 ^ 32).toNat := by
  have hacc : (decodeNum Fm.int32 acc).Is (toInt 32 acc) := Num.is_ofInt _
  obtain ⟨s, m, hsum, hv⟩ := h _ _ hacc
  unfold intCycle
  simp only [hsum]
  rw [hv, narrowInt_wraps, toInt_emod]

/-! ## Loops that reach a place once -/

section
variable {α σ β : Type} {f : σ → α → σ} {get : σ → β} {site : α → Prop} {val : β → β} {inv : σ → Prop}

/-- A loop none of whose steps reaches a place leaves it. -/
theorem foldl_miss (hinv : ∀ k p, inv k → inv (f k p)) : ∀ (l : List α) (k : σ), inv k →
    (∀ p ∈ l, ∀ k, inv k → get (f k p) = get k) → get (l.foldl f k) = get k
  | [], _, _, _ => rfl
  | p :: l, k, hk, hm => by
    rw [List.foldl_cons, foldl_miss hinv l _ (hinv k p hk) fun q hq => hm q (List.mem_cons_of_mem _ hq)]
    exact hm p (List.mem_cons_self ..) k hk

theorem foldl_inv (hinv : ∀ k p, inv k → inv (f k p)) : ∀ (l : List α) (k : σ), inv k → inv (l.foldl f k)
  | [], _, hk => hk
  | p :: l, k, hk => foldl_inv hinv l _ (hinv k p hk)

/-- A loop exactly one of whose steps reaches a place has there what that step makes of it. -/
theorem foldl_once {l : List α} {p : α} {k : σ} (hinv : ∀ k p, inv k → inv (f k p)) (hk : inv k) (hl : l.Nodup) (hp : p ∈ l)
    (hit : ∀ k, inv k → get (f k p) = val (get k)) (miss : ∀ q ∈ l, q ≠ p → ∀ k, inv k → get (f k q) = get k) :
    get (l.foldl f k) = val (get k) := by
  obtain ⟨l₁, l₂, rfl⟩ := List.append_of_mem hp
  have hn : p ∉ l₁ ++ l₂ := (List.nodup_middle.1 hl).notMem
  have h₁ : ∀ q ∈ l₁, ∀ k, inv k → get (f k q) = get k := fun q hq => miss q (by simp [hq]) fun e => hn (by simp [← e, hq])
  have h₂ : ∀ q ∈ l₂, ∀ k, inv k → get (f k q) = get k := fun q hq => miss q (by simp [hq]) fun e => hn (by simp [← e, hq])
  rw [List.foldl_append, List.foldl_cons, foldl_miss hinv l₂ _ (hinv _ _ (foldl_inv hinv l₁ k hk)) h₂, hit _ (foldl_inv hinv l₁ k hk),
    foldl_miss hinv l₁ k hk h₁]

end

/-! ## The tiles of an operation (R73, R77) -/

theorem mem_tileCells {c : Nat × Nat} : c ∈ tileCells ↔ c.1 < 64 ∧ c.2 < 64 := by
  simp [tileCells, Prod.ext_iff]

theorem nodup_tileCells : tileCells.Nodup :=
  show (List.range 64 ×ˢ List.range 64).Nodup from List.nodup_range.product List.nodup_range

theorem mem_amOrder {w : BitVec 64} {p : Nat × Nat} : p ∈ amOrder w ↔ p.1 < amMT w ∧ p.2 < amNT w := by
  unfold amOrder
  split
  · simp [Prod.ext_iff, and_comm]
  · simp [Prod.ext_iff]

theorem nodup_amOrder (w : BitVec 64) : (amOrder w).Nodup := by
  unfold amOrder
  split
  · have h := (List.nodup_range (n := amNT w)).product (List.nodup_range (n := amMT w))
    have he : ((List.range (amNT w)).flatMap fun n => (List.range (amMT w)).map fun m => (m, n))
        = (List.range (amNT w) ×ˢ List.range (amMT w)).map Prod.swap := by
      simp [SProd.sprod, List.product, List.map_flatMap, Function.comp_def]
    rw [he]
    exact h.map Prod.swap_injective
  · exact List.nodup_range.product List.nodup_range

/-- Every position of every tile, in processing order. -/
def amPositions (w : BitVec 64) : List ((Nat × Nat) × (Nat × Nat)) := amOrder w ×ˢ tileCells

theorem mem_amPositions {w : BitVec 64} {y : (Nat × Nat) × (Nat × Nat)} :
    y ∈ amPositions w ↔ (y.1.1 < amMT w ∧ y.1.2 < amNT w) ∧ y.2.1 < 64 ∧ y.2.2 < 64 := by
  rw [amPositions, List.mem_product, mem_amOrder, mem_tileCells]

theorem nodup_amPositions (w : BitVec 64) : (amPositions w).Nodup := (nodup_amOrder w).product nodup_tileCells

theorem tileIdx_inj {w : BitVec 64} {p q : Nat × Nat} (hp : p.2 < amNT w) (hq : q.2 < amNT w) (h : tileIdx w p = tileIdx w q) :
    p = q := by
  have h1 : p.1 = q.1 := by
    have := congrArg (· / amNT w) h
    simpa [tileIdx, Nat.mul_comm _ (amNT w), Nat.mul_add_div (by omega : 0 < amNT w), Nat.div_eq_of_lt hp, Nat.div_eq_of_lt hq]
      using this
  refine Prod.ext h1 ?_
  simpa [tileIdx, h1] using h

theorem tileIdx_lt {w : BitVec 64} {p : Nat × Nat} (hm : p.1 < amMT w) (hn : p.2 < amNT w) : tileIdx w p < amMT w * amNT w :=
  calc tileIdx w p < p.1 * amNT w + amNT w := Nat.add_lt_add_left hn _
    _ = (p.1 + 1) * amNT w := (Nat.succ_mul ..).symm
    _ ≤ amMT w * amNT w := Nat.mul_le_mul_right _ hm

/-! ## The accumulator file (R77) -/

theorem accGet_accSet_self (m : CoreMem) (q i j v : Nat) : accGet (accSet m q i j v) q i j = v % 2 ^ 32 := by
  rw [accGet, accSet, tget_tset_self, BitVec.toNat_ofNat]

theorem accGet_accSet_ne {m : CoreMem} {q q' i i' j j' v : Nat} (hi : i < 64) (hj : j < 64) (hi' : i' < 64) (hj' : j' < 64)
    (h : ¬ (q = q' ∧ i = i' ∧ j = j')) : accGet (accSet m q' i' j' v) q i j = accGet m q i j := by
  rw [accGet, accSet, tget_tset_ne _ (by omega)]
  rfl

theorem accGet_lt (m : CoreMem) (q i j : Nat) : accGet m q i j < 2 ^ 32 := BitVec.isLt _

/-- Computes one position of the tiles. -/
def amPos (x : AmCtx) (m : List Host.Cell) (k : CoreSt) (y : (Nat × Nat) × (Nat × Nat)) : CoreSt := amCell x m y.1 k y.2

theorem amRun_eq {x : AmCtx} (h : amMode x.o.w0 ≠ 2) (m : List Host.Cell) (k : CoreSt) :
    amRun x m k = (amPositions x.o.w0).foldl (amPos x m) k := by
  simp only [amRun, if_neg h, amPositions, SProd.sprod, List.product, List.foldl_flatMap, List.foldl_map]
  rfl

/-- Everything of a core but its accumulators and CORE_FPSTAT stands. -/
def AccOnly (k l : CoreSt) : Prop := l.mem = { k.mem with acc := l.mem.acc }

theorem AccOnly.amCell {k l : CoreSt} (h : AccOnly k l) (x : AmCtx) (m : List Host.Cell) (p c : Nat × Nat) :
    AccOnly k (amCell x m p l c) := by
  unfold Machine.amCell
  have hs : ∀ q i j v, { k.mem with acc := (accSet l.mem q i j v).acc } = accSet l.mem q i j v := by
    intro q i j v
    rw [accSet, h]
  by_cases hi : amInside x.o.w0 p c = true
  · simp only [hi, if_true]
    exact (hs ..).symm
  · simp only [hi]
    by_cases ha : amAcc x.o.w0 = true
    · simpa [ha] using h
    · simp only [ha]
      exact (hs ..).symm

/-- What an element was before its operation, as the operation starts from it (R79). -/
def amStart (w : BitVec 64) (old : Nat) : Nat := if amAcc w then old else 0

/-- What an operation makes of position `y`, which held `old`. -/
def amResult (x : AmCtx) (m : List Host.Cell) (y : (Nat × Nat) × (Nat × Nat)) (old : Nat) : Nat :=
  if amInside x.o.w0 y.1 y.2 then
    (amCycles x m (tileIdx x.o.w0 y.1) (64 * y.1.1 + y.2.1) (64 * y.1.2 + y.2.2) (amK x.o.w0 / x.g) 0 (amStart x.o.w0 old) 0).1 % 2 ^ 32
  else amStart x.o.w0 old

theorem accGet_amCell_self (x : AmCtx) (m : List Host.Cell) (y : (Nat × Nat) × (Nat × Nat)) (k : CoreSt) :
    accGet (amCell x m y.1 k y.2).mem (amTileNo x.o.w0 y.1) y.2.1 y.2.2 =
      amResult x m y (accGet k.mem (amTileNo x.o.w0 y.1) y.2.1 y.2.2) := by
  unfold amCell amResult amStart
  by_cases hi : amInside x.o.w0 y.1 y.2 = true
  · simp only [hi, if_true]
    exact accGet_accSet_self ..
  · simp only [hi]
    by_cases ha : amAcc x.o.w0 = true
    · simp [ha]
    · simp only [ha]
      exact accGet_accSet_self ..

theorem accGet_amCell_ne {x : AmCtx} {m : List Host.Cell} {p c : Nat × Nat} {k : CoreSt} {q i j : Nat} (hi : i < 64) (hj : j < 64)
    (hc : c.1 < 64 ∧ c.2 < 64) (h : ¬ (q = amTileNo x.o.w0 p ∧ i = c.1 ∧ j = c.2)) :
    accGet (amCell x m p k c).mem q i j = accGet k.mem q i j := by
  unfold amCell
  by_cases hin : amInside x.o.w0 p c = true
  · simp only [hin, if_true]
    exact accGet_accSet_ne hi hj hc.1 hc.2 h
  · simp only [hin]
    by_cases ha : amAcc x.o.w0 = true
    · simp [ha]
    · simp only [ha]
      exact accGet_accSet_ne hi hj hc.1 hc.2 h

theorem amRun_accOnly {x : AmCtx} (h : amMode x.o.w0 ≠ 2) (m : List Host.Cell) (k : CoreSt) : AccOnly k (amRun x m k) := by
  rw [amRun_eq h]
  exact foldl_inv (inv := AccOnly k) (fun l y hl => hl.amCell x m y.1 y.2) _ _ rfl

/-- Each position of each tile takes its result. -/
theorem accGet_amRun_self {x : AmCtx} (h : amMode x.o.w0 ≠ 2) (m : List Host.Cell) (k : CoreSt) {y : (Nat × Nat) × (Nat × Nat)}
    (hy : y ∈ amPositions x.o.w0) :
    accGet (amRun x m k).mem (amTileNo x.o.w0 y.1) y.2.1 y.2.2 =
      amResult x m y (accGet k.mem (amTileNo x.o.w0 y.1) y.2.1 y.2.2) := by
  have hym := mem_amPositions.1 hy
  rw [amRun_eq h]
  refine foldl_once (f := amPos x m) (inv := fun _ => True) (get := fun k : CoreSt => accGet k.mem (amTileNo x.o.w0 y.1) y.2.1 y.2.2)
    (val := amResult x m y) (fun _ _ _ => trivial) trivial (nodup_amPositions _) hy (fun k _ => accGet_amCell_self x m y k) ?_
  intro z hz hne k _
  have hzm := mem_amPositions.1 hz
  refine accGet_amCell_ne hym.2.1 hym.2.2 hzm.2 ?_
  rintro ⟨hq, hi, hj⟩
  refine hne (Prod.ext (tileIdx_inj hzm.1.2 hym.1.2 ?_) (Prod.ext hi.symm hj.symm))
  unfold amTileNo at hq
  omega

theorem accGet_amRun_ne {x : AmCtx} (h : amMode x.o.w0 ≠ 2) (m : List Host.Cell) (k : CoreSt) {q a b : Nat}
    (hq : q ∉ amTiles x.o.w0) (ha : a < 64) (hb : b < 64) : accGet (amRun x m k).mem q a b = accGet k.mem q a b := by
  rw [amRun_eq h]
  refine foldl_miss (f := amPos x m) (inv := fun _ => True) (get := fun k : CoreSt => accGet k.mem q a b) (fun _ _ _ => trivial) _ _ trivial ?_
  intro z hz k _
  have hzm := mem_amPositions.1 hz
  refine accGet_amCell_ne ha hb hzm.2 fun hq' => hq ?_
  rw [hq'.1, amTiles, if_neg h]
  exact List.mem_map.2 ⟨_, List.mem_range.2 (tileIdx_lt hzm.1.1 hzm.1.2), rfl⟩

/-! ## INT8 operands (R63, R75, R87) -/

theorem decodeNum_int8 (b : Byte) : decodeNum 9 b.toNat = Num.ofInt b.toInt := by
  show Num.ofInt (toInt 8 b.toNat) = _
  rw [toInt, BitVec.ofNat_toNat, BitVec.setWidth_eq]

theorem rdElem_int8 (m : List Host.Cell) (base i : Nat) : rdElem m base 9 i = (rd8 m ((base + i) % 4194304)).toNat := by
  show leNat [rd8 m ((base + i * (8 / 8) + 0) % spadSize)] = _
  simp [leNat, spadSize]

theorem operandAt_int8 (m : List Host.Cell) (lut : List Byte) (off pitch : Nat) (t : Bool) (r c : Nat) :
    operandAt m 9 lut off pitch t r c = (Num.ofInt (int8At m off pitch t r c), 0) := by
  show (decodeNum 9 (rdElem m _ 9 _), _) = _
  rw [rdElem_int8, decodeNum_int8]
  rfl

section
variable {x : AmCtx} {m : List Host.Cell} {t i j : Nat}

/-- The product of step `k` of element (i, j). -/
def int8Prod (x : AmCtx) (m : List Host.Cell) (i j k : Nat) : Int :=
  int8At m (amAoff x.o) (amApitch x.o) (amAT x.o.w1) i k * int8At m (amBoff x.o) (amBpitch x.o) (amBT x.o.w1) k j

/-- One array cycle adds two products. -/
theorem amCycles_succ_int8 (ha : x.a = 9) (hb : x.b = 9) (hmode : amMode x.o.w0 = 0) (hwrap : amOvf x.o.w0 = true)
    (hskip : amSkip x.o.w0 = false) (n c acc : Nat) (fl : FpBits) :
    ∃ fl', amCycles x m t i j (n + 1) c acc fl = amCycles x m t i j n (c + 1)
      (((acc : Int) + (int8Prod x m i j (2 * c) + int8Prod x m i j (2 * c + 1))) % 2 ^ 32).toNat fl' := by
  have hcell : ∀ k, x.aAt m i k = (Num.ofInt (int8At m (amAoff x.o) (amApitch x.o) (amAT x.o.w1) i k), 0) ∧
      x.bAt m k j = (Num.ofInt (int8At m (amBoff x.o) (amBpitch x.o) (amBT x.o.w1) k j), 0) := fun k => by
    rw [AmCtx.aAt, AmCtx.bAt, ha, hb]
    exact ⟨operandAt_int8 .., operandAt_int8 ..⟩
  have hg : x.g = 2 := by
    rw [AmCtx.g, hmode, ha, hb]
    rfl
  have hI : (amMode x.o.w0 = 0 && amIsInt x.a) = true := by
    rw [hmode, ha]
    rfl
  have hs : x.skipped t (c * x.g) = false := by rw [AmCtx.skipped, hskip, Bool.false_and]
  have h01 : ¬ (0 = 1) := by decide
  rw [amCycles, hs, hI, hg, hmode, hwrap, mul_comm c 2, if_neg (by decide)]
  simp only [List.range_succ, List.range_zero, List.nil_append, List.cons_append, List.map_cons, List.map_nil, hcell, if_neg h01,
    if_true]
  refine ⟨_, congrArg (fun a => amCycles x m t i j n (c + 1) a _) (intCycle_wraps ?_)⟩
  intro y v hy
  have := (hy.add ((Num.is_ofInt (int8At m (amAoff x.o) (amApitch x.o) (amAT x.o.w1) i (2 * c))).mul
    (Num.is_ofInt (int8At m (amBoff x.o) (amBpitch x.o) (amBT x.o.w1) (2 * c) j)))).add
    ((Num.is_ofInt (int8At m (amAoff x.o) (amApitch x.o) (amAT x.o.w1) i (2 * c + 1))).mul
    (Num.is_ofInt (int8At m (amBoff x.o) (amBpitch x.o) (amBT x.o.w1) (2 * c + 1) j)))
  rwa [add_assoc] at this

theorem amCycles_int8 (ha : x.a = 9) (hb : x.b = 9) (hmode : amMode x.o.w0 = 0) (hwrap : amOvf x.o.w0 = true)
    (hskip : amSkip x.o.w0 = false) : ∀ (n c acc : Nat) (fl : FpBits), acc < 2 ^ 32 →
    (amCycles x m t i j n c acc fl).1 % 2 ^ 32 =
      (((acc : Int) + (dotSum (int8Prod x m i j) (2 * (c + n)) - dotSum (int8Prod x m i j) (2 * c))) % 2 ^ 32).toNat
  | 0, c, acc, fl, hacc => by
    simp only [amCycles, Nat.add_zero]
    omega
  | n + 1, c, acc, fl, hacc => by
    obtain ⟨fl', he⟩ := amCycles_succ_int8 (m := m) (t := t) (i := i) (j := j) ha hb hmode hwrap hskip n c acc fl
    have hd : dotSum (int8Prod x m i j) (2 * (c + 1)) =
        dotSum (int8Prod x m i j) (2 * c) + int8Prod x m i j (2 * c) + int8Prod x m i j (2 * c + 1) := by
      rw [mul_add, show 2 * c + 2 * 1 = 2 * c + 1 + 1 from rfl, dotSum_succ, dotSum_succ]
    rw [he, amCycles_int8 ha hb hmode hwrap hskip n (c + 1) _ fl' (by omega), hd, Nat.add_right_comm c 1 n]
    rw [Nat.add_assoc c n 1]
    omega

end

/-- An INT8 product makes of each position the start plus the products modulo 2^32 (R79, R87). -/
theorem amResult_int8 {r : RunOp} (h : Int8Product r) (m : List Host.Cell) (y : (Nat × Nat) × (Nat × Nat)) {old : Nat}
    (hold : old < 2 ^ 32) :
    amResult (amCtx r) m y old =
      if 64 * y.1.1 + y.2.1 < amM r.op.w0 ∧ 64 * y.1.2 + y.2.2 < amN r.op.w0 then
        (((if amAcc r.op.w0 then (old : Int) else 0) +
          dotSum (int8Prod (amCtx r) m (64 * y.1.1 + y.2.1) (64 * y.1.2 + y.2.2)) (amK r.op.w0)) % 2 ^ 32).toNat
      else if amAcc r.op.w0 then old else 0 := by
  have hg : (amCtx r).g = 2 := by
    rw [AmCtx.g, show amMode (amCtx r).o.w0 = 0 from h.mode, show (amCtx r).a = 9 from h.a, show (amCtx r).b = 9 from h.b]
    rfl
  have hK : 2 * (0 + amK r.op.w0 / 2) = amK r.op.w0 := by
    unfold amK
    omega
  have hs : amStart r.op.w0 old < 2 ^ 32 := by
    unfold amStart
    split <;> omega
  have hc : (amStart r.op.w0 old : Int) = if amAcc r.op.w0 then (old : Int) else 0 := by
    unfold amStart
    split <;> rfl
  unfold amResult
  by_cases hin : 64 * y.1.1 + y.2.1 < amM r.op.w0 ∧ 64 * y.1.2 + y.2.2 < amN r.op.w0
  · have hcyc := amCycles_int8 (x := amCtx r) (m := m) (t := tileIdx r.op.w0 y.1) (i := 64 * y.1.1 + y.2.1)
      (j := 64 * y.1.2 + y.2.2) h.a h.b h.mode h.wraps h.skips (amK r.op.w0 / 2) 0 _ 0 hs
    rw [hK, hc, mul_zero, dotSum_zero, sub_zero] at hcyc
    rw [if_pos hin, if_pos (show amInside (amCtx r).o.w0 y.1 y.2 = true from decide_eq_true hin), hg]
    exact hcyc
  · rw [if_neg hin, if_neg (show ¬ amInside (amCtx r).o.w0 y.1 y.2 = true from fun hd => hin (of_decide_eq_true hd))]
    rfl

theorem setOps_mem (k : CoreSt) (u : Nat) (l : List RunOp) : (setOps k u l).mem = k.mem := rfl

/-- An operation that has run its array cycles: with OUT = 1 its tiles wait for the drain (R100). -/
def amRan (r : RunOp) : RunOp :=
  if amOut r.op.w0 then { r with stage := OpStage.running, drains := List.range (amOrder r.op.w0).length }
  else { r with stage := OpStage.finished }

theorem execAmmFirstArrayCycle_ready {c : Core} {e : Fin 4} {s : State} {i : Nat} {r : RunOp} (hr : Ready (getCore s c.val) e.val i r) :
    execAmmFirstArrayCycle c e s = .next (setCore (racedView s r.seen (getCore s c.val).mem.spad).2 c.val
      (setOps (amRun (amCtx r) (racedView s r.seen (getCore s c.val).mem.spad).1 (getCore s c.val)) e.val
        ((opsOf (amRun (amCtx r) (racedView s r.seen (getCore s c.val).mem.spad).1 (getCore s c.val)) e.val).set i (amRan r)))) := by
  unfold execAmmFirstArrayCycle
  simp only [hr.waiting, hr.free, Bool.not_true, Bool.false_eq_true, if_false]
  rfl

/-- Settles O33: each position of each tile is written once, by the sum that its array cycles form of the operands as they are read. -/
theorem matrixProductsAccumulate : Obligations.MatrixProductsAccumulate := by
  intro c e s i r hr hp he
  have hmode : amMode (amCtx r).o.w0 ≠ 2 := by
    rw [show amMode (amCtx r).o.w0 = 0 from hp.mode]
    decide
  generalize hv : racedView s r.seen (getCore s c.val).mem.spad = v
  have hread : ReadAs r.seen (getCore s c.val).mem.spad v.1 := hv ▸ racedView_readAs s r.seen _
  have hfree : v.2 = { s with free := v.2.free } := by
    rw [← hv]
    exact racedView_free ..
  have hexec := execAmmFirstArrayCycle_ready hr
  rw [hv] at hexec
  refine ⟨_, v.1, hexec, ?_, hread, ?_, ?_, ?_⟩
  · have ho := onlyCore_setCore v.2 c.val (setOps (amRun (amCtx r) v.1 (getCore s c.val)) e.val
      ((opsOf (amRun (amCtx r) v.1 (getCore s c.val)) e.val).set i (amRan r)))
    rw [setCore_free]
    exact hfree ▸ ho
  · rw [getCore_setCore_self, setOps_mem]
    exact amRun_accOnly hmode v.1 (getCore s c.val)
  · intro m hm n hn a ha b hb
    rw [getCore_setCore_self, setOps_mem, ← he]
    have hy : ((m, n), (a, b)) ∈ amPositions (amCtx r).o.w0 := mem_amPositions.2 ⟨⟨hm, hn⟩, ha, hb⟩
    exact (accGet_amRun_self hmode v.1 (getCore s c.val) hy).trans (amResult_int8 hp v.1 _ (accGet_lt ..))
  · intro q hq a ha b hb
    rw [getCore_setCore_self, setOps_mem]
    exact accGet_amRun_ne hmode v.1 _ hq ha hb

/-! ## The drain (R89, R99, R100) -/

/-- Of a core at most its scratchpad and CORE_FPSTAT differ, as far as its storage and its operations go. -/
structure SpadOnly (k l : CoreSt) : Prop where
  mem : l.mem = { k.mem with spad := l.mem.spad }
  ops : l.ops = k.ops

/-- The drain of `r` leaves the format of the accumulator as it is (R89). -/
structure DrainsPlain (r : RunOp) : Prop where
  same : (if amMode r.op.w0 = 0 ∧ amIsInt (r.ofds.getD 0 0) then Fm.int32 else Fm.fp32) = amOutFmt r.op.w0
  nearest : amCvt r.op.w0 % 4 ≠ 2
  pitch : 4 * amN r.op.w0 ≤ amCpitch r.op
  inside : amCoff r.op + amM r.op.w0 * amCpitch r.op ≤ 4194304

/-- The address of element (a, b) of C, four bytes each (Table 3.3). -/
def drainAt (r : RunOp) (a b : Nat) : Nat := amCoff r.op + a * amCpitch r.op + 4 * b

section
variable {r : RunOp} {k k₀ : CoreSt} {p c d : Nat × Nat}

theorem DrainsPlain.bytes (h : DrainsPlain r) : fmtBits (amOutFmt r.op.w0) / 8 = 4 := by
  rw [← h.same]
  split <;> rfl

theorem DrainsPlain.drainAt_le (h : DrainsPlain r) {a b : Nat} (ha : a < amM r.op.w0) (hb : b < amN r.op.w0) :
    drainAt r a b + 4 ≤ spadSize := by
  have h1 : a * amCpitch r.op + amCpitch r.op ≤ amM r.op.w0 * amCpitch r.op :=
    (Nat.succ_mul ..).symm.le.trans (Nat.mul_le_mul_right _ ha)
  have := h.pitch
  have := h.inside
  unfold drainAt spadSize
  omega

/-- The elements of C do not overlap. -/
theorem DrainsPlain.drainAt_sep (h : DrainsPlain r) {a b a' b' : Nat} (hb : b < amN r.op.w0) (hb' : b' < amN r.op.w0)
    (hne : ¬ (a = a' ∧ b = b')) : drainAt r a b + 4 ≤ drainAt r a' b' ∨ drainAt r a' b' + 4 ≤ drainAt r a b := by
  have hp := h.pitch
  have step : ∀ {x y : Nat}, x < y → x * amCpitch r.op + amCpitch r.op ≤ y * amCpitch r.op := fun hxy =>
    (Nat.succ_mul ..).symm.le.trans (Nat.mul_le_mul_right _ hxy)
  unfold drainAt
  obtain hlt | rfl | hgt := Nat.lt_trichotomy a a'
  · have := step hlt
    omega
  · omega
  · have := step hgt
    omega

theorem drainCell_inside (h : DrainsPlain r) (hin : amInside r.op.w0 p c = true) :
    drainCell (amCtx r) p k c = setFp (withSpad k (spadWr k.mem.spad (drainAt r (64 * p.1 + c.1) (64 * p.2 + c.2))
      (toLe 4 (accGet k.mem (amTileNo r.op.w0 p) c.1 c.2)))) 0 := by
  have hsame : (if amMode (amCtx r).o.w0 = 0 ∧ amIsInt (amCtx r).a then Fm.int32 else Fm.fp32) = amOutFmt (amCtx r).o.w0 := h.same
  have haddr : (64 * p.2 + c.2) * (fmtBits (amOutFmt (amCtx r).o.w0) / 8) = 4 * (64 * p.2 + c.2) := by
    rw [show fmtBits (amOutFmt (amCtx r).o.w0) / 8 = 4 from h.bytes, Nat.mul_comm]
  unfold drainCell
  simp only [if_pos hsame, if_pos (show amInside (amCtx r).o.w0 p c = true from hin), haddr,
    if_neg (show ¬ amCvt (amCtx r).o.w0 % 4 = 2 from h.nearest)]
  rw [show fmtBits (amOutFmt (amCtx r).o.w0) / 8 = 4 from h.bytes]
  rfl

theorem drainCell_outside (hin : ¬ amInside r.op.w0 p c = true) : drainCell (amCtx r) p k c = k := by
  unfold drainCell
  simp only [if_neg (show ¬ amInside (amCtx r).o.w0 p c = true from hin)]

theorem SpadOnly.drainCell (h : DrainsPlain r) (hk : SpadOnly k₀ k) (p c : Nat × Nat) : SpadOnly k₀ (drainCell (amCtx r) p k c) := by
  by_cases hin : amInside r.op.w0 p c = true
  · rw [drainCell_inside h hin]
    refine ⟨?_, hk.ops⟩
    have : ∀ m, (setFp (withSpad k m) 0).mem = { k.mem with spad := m } := fun _ => rfl
    rw [this, hk.mem]
  · rwa [drainCell_outside hin]

theorem amDrain_eq (x : AmCtx) (k : CoreSt) (p : Nat × Nat) : amDrain x k p = tileCells.foldl (Machine.drainCell x p) k := rfl

theorem amDrain_spadOnly (h : DrainsPlain r) (k : CoreSt) (p : Nat × Nat) : SpadOnly k (amDrain (amCtx r) k p) := by
  rw [amDrain_eq]
  exact foldl_inv (inv := SpadOnly k) (fun _ c hl => hl.drainCell h p c) _ _ ⟨rfl, rfl⟩

/-- Whether byte `x` is a byte of position `c` of tile `p`. -/
def DrainsTo (r : RunOp) (p c : Nat × Nat) (x : Nat) : Prop :=
  amInside r.op.w0 p c = true ∧ drainAt r (64 * p.1 + c.1) (64 * p.2 + c.2) ≤ x ∧
    x < drainAt r (64 * p.1 + c.1) (64 * p.2 + c.2) + 4

theorem amInside_iff {w : BitVec 64} : amInside w p c = true ↔ 64 * p.1 + c.1 < amM w ∧ 64 * p.2 + c.2 < amN w := decide_eq_true_iff

theorem rd8_drainCell_ne (h : DrainsPlain r) {x : Nat} (hx : ¬ DrainsTo r p c x) :
    rd8 (drainCell (amCtx r) p k c).mem.spad x = rd8 k.mem.spad x := by
  by_cases hin : amInside r.op.w0 p c = true
  · have hle := h.drainAt_le (amInside_iff.1 hin).1 (amInside_iff.1 hin).2
    rw [drainCell_inside h hin]
    refine rd8_spadWr_out _ _ _ _ (by rwa [toLe_length]) ?_
    rw [toLe_length]
    by_contra hn
    exact hx ⟨hin, by omega, by omega⟩
  · rw [drainCell_outside hin]

theorem rd8_amDrain_ne (h : DrainsPlain r) {x : Nat} (hx : ∀ c ∈ tileCells, ¬ DrainsTo r p c x) :
    rd8 (amDrain (amCtx r) k p).mem.spad x = rd8 k.mem.spad x := by
  rw [amDrain_eq]
  exact foldl_miss (f := drainCell (amCtx r) p) (inv := fun _ => True) (get := fun k : CoreSt => rd8 k.mem.spad x) (fun _ _ _ => trivial) _ _ trivial fun c hc _ _ =>
    rd8_drainCell_ne h (hx c hc)

theorem rd8_amDrain_self (h : DrainsPlain r) (hc : c ∈ tileCells) (hin : amInside r.op.w0 p c = true) {j : Nat} (hj : j < 4) :
    rd8 (amDrain (amCtx r) k p).mem.spad (drainAt r (64 * p.1 + c.1) (64 * p.2 + c.2) + j) =
      (toLe 4 (accGet k.mem (amTileNo r.op.w0 p) c.1 c.2))[j]'(by rwa [toLe_length]) := by
  have hle := h.drainAt_le (amInside_iff.1 hin).1 (amInside_iff.1 hin).2
  rw [amDrain_eq]
  refine foldl_once (inv := SpadOnly k) (f := drainCell (amCtx r) p)
    (get := fun k : CoreSt => rd8 k.mem.spad (drainAt r (64 * p.1 + c.1) (64 * p.2 + c.2) + j))
    (val := fun _ => (toLe 4 (accGet k.mem (amTileNo r.op.w0 p) c.1 c.2))[j]'(by rwa [toLe_length]))
    (fun _ d hl => hl.drainCell h p d) ⟨rfl, rfl⟩ nodup_tileCells hc ?_ ?_
  · intro l hl
    rw [drainCell_inside h hin, hl.mem]
    exact rd8_spadWr_in _ _ _ _ (by rwa [toLe_length]) (by rwa [toLe_length])
  · intro d _ hne l _
    refine rd8_drainCell_ne h ?_
    rintro ⟨hd, h1, h2⟩
    have := h.drainAt_sep (amInside_iff.1 hd).2 (amInside_iff.1 hin).2
      (fun he => hne (Prod.ext (by omega) (by omega)) : ¬ (64 * p.1 + d.1 = 64 * p.1 + c.1 ∧ 64 * p.2 + d.2 = 64 * p.2 + c.2))
    omega

theorem leNat_amDrain (h : DrainsPlain r) (hc : c ∈ tileCells) (hin : amInside r.op.w0 p c = true) :
    leNat (rdN (amDrain (amCtx r) k p).mem.spad (drainAt r (64 * p.1 + c.1) (64 * p.2 + c.2)) 4) =
      accGet k.mem (amTileNo r.op.w0 p) c.1 c.2 := by
  have : rdN (amDrain (amCtx r) k p).mem.spad (drainAt r (64 * p.1 + c.1) (64 * p.2 + c.2)) 4 =
      toLe 4 (accGet k.mem (amTileNo r.op.w0 p) c.1 c.2) := by
    refine List.ext_getElem (by simp [rdN]) fun j h1 h2 => ?_
    rw [← rd8_amDrain_self h hc hin (by rwa [toLe_length] at h2)]
    simp [rdN]
  rw [this, leNat_toLe]
  exact Nat.mod_eq_of_lt (accGet_lt ..)

end

/-- The operation after its tile `q` has drained (R89). -/
def drained (r : RunOp) (ds : List Nat) (q : Nat) : RunOp :=
  { r with drains := ds, tiles := r.tiles.filter fun t => t ≠ q, stage := if ds = [] then OpStage.finished else OpStage.running }

theorem execAmmTileDrain_first {c : Core} {e : Fin 4} {s : State} {r : RunOp} {i d : Nat} {ds : List Nat} {p : Nat × Nat}
    (hl : (opsOf (getCore s c.val) e.val)[i]? = some r) (hs : r.stage = .running)
    (hf : ∀ j < i, ∀ x, (opsOf (getCore s c.val) e.val)[j]? = some x → x.stage ≠ .running) (hd : r.drains = d :: ds)
    (hp : (amOrder r.op.w0)[d]? = some p) (hg : (getCore s c.val).oldGens = []) :
    execAmmTileDrain c e s = .next (setCore s c.val (setOps (amDrain (amCtx r) (getCore s c.val) p) e.val
      ((opsOf (amDrain (amCtx r) (getCore s c.val) p) e.val).set i (drained r ds (amTileNo r.op.w0 p))))) := by
  have hi := findIdx_first (p := fun r => decide (r.stage = .running)) hl (decide_eq_true hs) fun j hj x hx => decide_eq_false (hf j hj x hx)
  have hw : ∀ f, withEpoch (getCore s c.val) r.epoch f = f (getCore s c.val) := fun f => by
    simp only [withEpoch, hg, List.find?_nil]
  unfold execAmmTileDrain
  simp only [hi, hl, hd, hp, hw]
  rfl

theorem execAmmComplete_first {c : Core} {e : Fin 4} {s : State} {r : RunOp} {i : Nat}
    (hl : (opsOf (getCore s c.val) e.val)[i]? = some r) (hs : r.stage = .finished)
    (hf : ∀ j < i, ∀ x, (opsOf (getCore s c.val) e.val)[j]? = some x → x.stage ≠ .finished) (hd : r.op.direct = false)
    (hc : r.code ≠ St.fmtReserved) (hr : (getCore s c.val).retireDue = false) :
    execAmmComplete c e s = .next (setCore s c.val (completeUnit (setOps (getCore s c.val) e.val
      ((opsOf (getCore s c.val) e.val).eraseIdx i)) e.val r.code r.op.disp)) := by
  have hi := findIdx_first (p := fun r => decide (r.stage = .finished)) hl (decide_eq_true hs) fun j hj x hx => decide_eq_false (hf j hj x hx)
  unfold execAmmComplete
  simp only [hi, hl, finish_ok _ _ _ _ hd hc]
  rw [retireIfDue_not (by exact hr)]

/-- Settles O34: the tile's positions are written at addresses that do not overlap, and the oldest finished operation completes. -/
theorem tilesDrainAndComplete : Obligations.TilesDrainAndComplete := by
  intro c e s r
  constructor
  · intro i d ds p hl hs hf hd hp _ hg he hout hcvt hpitch hinside
    have hr : DrainsPlain r := ⟨hout.symm, hcvt, hpitch, hinside⟩
    have hsp := amDrain_spadOnly hr (getCore s c.val) p
    have htile : amTileNo r.op.w0 p = 8 * e.val + amTile0 r.op.w0 + tileIdx r.op.w0 p := by rw [amTileNo, he]
    refine ⟨_, execAmmTileDrain_first hl hs hf hd hp hg, onlyCore_setCore .., ?_, ?_, ?_, drained r ds (amTileNo r.op.w0 p), ?_, rfl, ?_, rfl⟩
    · rw [getCore_setCore_self, setOps_mem]
      exact hsp.mem
    · intro a b ha1 ha2 ha hb1 hb2 hb
      rw [getCore_setCore_self, setOps_mem, ← htile]
      have hcell : ((a - 64 * p.1, b - 64 * p.2) : Nat × Nat) ∈ tileCells := mem_tileCells.2 ⟨by omega, by omega⟩
      have hA : 64 * p.1 + (a - 64 * p.1) = a := by omega
      have hB : 64 * p.2 + (b - 64 * p.2) = b := by omega
      have := leNat_amDrain (k := getCore s c.val) hr hcell (amInside_iff.2 ⟨by rwa [hA], by rwa [hB]⟩)
      rw [hA, hB] at this
      exact this
    · intro x hx
      rw [getCore_setCore_self, setOps_mem]
      refine rd8_amDrain_ne hr fun cc hcc hto => ?_
      have hm := mem_tileCells.1 hcc
      have hin := amInside_iff.1 hto.1
      exact hx _ _ (by omega) (by omega) hin.1 (by omega) (by omega) hin.2 hto.2
    · rw [getCore_setCore_self, opsOf, setOps, tget_tset_self, opsOf, hsp.ops]
      rfl
    · intro q
      rw [drained, List.mem_filter, htile, decide_eq_true_iff]
  · intro i hl hs hf hd hc hr
    refine ⟨_, execAmmComplete_first hl hs hf hd hc hr, onlyCore_setCore .., ?_, ?_, ?_, ?_⟩
    · rw [getCore_setCore_self]
      exact (Completes.of _ _ _ _).mono rfl rfl
    · rw [getCore_setCore_self]
      exact tget_tset_self ..
    · rw [getCore_setCore_self]
      rfl
    · rw [getCore_setCore_self]
      rfl

end Sys2Proof.Machine
end

section
/-!
PROOF. Core DMA: the descriptor queue of a channel and the lines it moves (R154, R162 to R167).
-/

namespace Sys2Proof.Machine

/-! ## Fields of a descriptor (Tables 5.7 and 5.8) -/

theorem bf_eq_extract {w : Nat} (x : BitVec w) (hi lo n : Nat) (h : hi + 1 = lo + n) (hn : lo ≤ hi) : bf x hi lo = (x.extractLsb' lo n).toNat := by
  rw [ex5 _ _ _ hn, show hi + 1 - lo = n by omega]

theorem dAt_eq (h : DmaDesc) : dAt h = (h.raw.extractLsb' 384 64).toNat :=
  bf_eq_extract _ _ _ _ rfl (by decide)

theorem dSig_eq (h : DmaDesc) : dSig h = h.raw.extractLsb' 448 64 := by
  rw [dSig, bf_eq_extract _ 511 448 64 rfl (by decide), BitVec.ofNat_toNat, BitVec.setWidth_eq]

/-! ## Translation of one address -/

/-- A state whose core `c` has used entry `l` of its RLB. -/
def rlbUsed (s : State) (c : Nat) (l : LbEntry) : State := modCore s c fun k => { k with rlb := lbTouch k.rlb l l }

theorem xlateList_one {s : State} {c : Nat} {va : BitVec 64} {need : Need} {l : LbEntry} {o : Nat}
    (h : MapsTo s (getCore s c).rlb (getCore s c).ctx va need l o) :
    xlateList c [(va, need)] s [] = (.all [(.loc o, true)], rlbUsed s c l) := by
  rw [xlateList, rlbXlate_of h]
  rfl

theorem onlyCore_rlbUsed (s : State) (c : Nat) (l : LbEntry) : OnlyCore s (rlbUsed s c l) c := onlyCore_modCore ..

theorem getCore_rlbUsed (s : State) (c : Nat) (l : LbEntry) :
    getCore (rlbUsed s c l) c = { getCore s c with rlb := lbTouch (getCore s c).rlb l l } := getCore_modCore_self ..

theorem homeTower_rlbUsed (s : State) (c : Nat) (l : LbEntry) (o : Nat) : homeTower (rlbUsed s c l) o = homeTower s o := rfl

theorem chunkHeld_one {s : State} {c : Nat} {l : LbEntry} {o : Nat} (hr : routeHolds s (towerOf c) (homeTower s o) = false)
    (hh : chanHeld s o = false) : chunkHeld (rlbUsed s c l) c [(.loc o, true)] = false := by
  have h : chanHeld (rlbUsed s c l) o = chanHeld s o := rfl
  show (routeHolds (rlbUsed s c l) (towerOf c) (homeTower s o) || chanHeld (rlbUsed s c l) o || false) = false
  rw [routeHolds_congr (t := rlbUsed s c l) (s := s) rfl, hr, h, hh]
  rfl

/-! ## A line (R164) -/

section
variable {s : State} {c : Core} {ch : Fin 4} {h : DmaDesc} {src dst : BitVec 64} {n : Nat} {r : Reply}

/-- A channel after it has moved its next `n` bytes, with what it must see of its own write. -/
def chanMoved (k : CoreSt) (ch : Nat) (h : DmaDesc) (n : Nat) (seen : List Host.Cell) : CoreSt :=
  setChan k ch (chanStep { chanAt k ch with xs := .miss, xw := .miss, seen := seen } h n)

theorem chanMoved_mem (k : CoreSt) (ch : Nat) (h : DmaDesc) (n : Nat) (seen : List Host.Cell) : (chanMoved k ch h n seen).mem = k.mem := rfl

theorem moveChunk_of {d : DmaChan} {ts : List (Target × Bool)} {va : BitVec 64} {bs : List Byte} {s1 s2 : State}
    (hc : chunkOf d h = (dst, src, n)) (hr : chunkRead s c.val ch h ts src n r = (St.ok, va, bs, s1))
    (hw : chunkWrite s1 c.val ch h ts dst bs = (St.ok, s2)) :
    ∃ seen, moveChunk s c.val ch d h ts r = modCore s2 c.val fun k => chanMoved k ch.val h n seen := by
  unfold moveChunk
  rw [hc]
  dsimp only
  rw [hr]
  dsimp only
  rw [if_neg (by decide), hw]
  dsimp only
  rw [if_neg (by decide)]
  exact ⟨_, rfl⟩

theorem moved_chanMoved {s2 : State} {ch : Nat} (m : MovesNext s c.val ch h src dst n) (seen : List Host.Cell)
    (hdma : chanAt (getCore s2 c.val) ch = chanAt (getCore s c.val) ch) (hr : (getCore s2 c.val).regs = (getCore s c.val).regs)
    (hc : (getCore s2 c.val).cr = (getCore s c.val).cr) :
    Moved s (modCore s2 c.val fun k => chanMoved k ch h n seen) c.val ch h n := by
  have hstep := chanStep_progress h { chanAt (getCore s c.val) ch with xs := .miss, xw := .miss, seen := seen } n
  rw [Moved, getCore_modCore_self, chanMoved, chanAt_setChan, if_pos rfl, hdma]
  exact ⟨hstep.1, hstep.2.1, hstep.2.2.trans m.moving, hr, hc⟩

theorem MovesNext.le_room (m : MovesNext s c.val ch.val h src dst n) : n ≤ 64 - dst.toNat % 64 := m.size ▸ Nat.min_le_left ..

theorem chunkAddrs_eq (m : MovesNext s c.val ch.val h src dst n) : chunkAddrs (chanAt (getCore s c.val) ch.val) h =
    (if dSrcSpad h then [] else (pieces 64 3 src.toNat n).map fun p => (BitVec.ofNat 64 p.1, Need.read)) ++
      (if dDstSpad h then [] else [(dst, Need.write)]) := by
  rw [chunkAddrs, chunkOf_of m]

/-- A scratchpad with `bs` written from where `dst` points. -/
def spadPut (k : CoreSt) (dst : BitVec 64) (bs : List Byte) : CoreSt :=
  { k with mem := { k.mem with spad := spadWr k.mem.spad (dst.toNat % spadSize) bs } }

theorem chunkWrite_spad (hd : dDstSpad h = true) (s : State) (ts : List (Target × Bool)) (bs : List Byte) :
    chunkWrite s c.val ch h ts dst bs = (St.ok, modCore s c.val fun k => spadPut k dst bs) := by
  rw [chunkWrite, if_pos hd]
  rfl

theorem chunkRead_spad (hs : dSrcSpad h = true) (s : State) (ts : List (Target × Bool)) :
    chunkRead s c.val ch h ts src n r = (St.ok, 0,
      spadRd (racedView s (chanAt (getCore s c.val) ch.val).seen (getCore s c.val).mem.spad).1 (src.toNat % spadSize) n,
      (racedView s (chanAt (getCore s c.val) ch.val).seen (getCore s c.val).mem.spad).2) := by
  unfold chunkRead
  extract_lets k
  rw [if_pos hs]

theorem spadRd_getElem (m : List Host.Cell) (a n j : Nat) (hj : j < (spadRd m (a % spadSize) n).length) :
    (spadRd m (a % spadSize) n)[j] = rd8 m ((a + j) % 4194304) := by
  simp [spadRd, spadSize]

/-- A line goes from one place of the scratchpad to another. -/
theorem moves_spad_spad (m : MovesNext s c.val ch.val h src dst n) (hs : dSrcSpad h = true) (hd : dDstSpad h = true) :
    ∃ t v, exec (.dmaLineComplete c ch r) s = .next t ∧
      OnlyCore { s with free := t.free } t c.val ∧ Moved s t c.val ch.val h n ∧
      ReadAs (chanAt (getCore s c.val) ch.val).seen (getCore s c.val).mem.spad v ∧
      (∀ j < n, rd8 (getCore t c.val).mem.spad ((dst.toNat + j) % 4194304) = rd8 v ((src.toNat + j) % 4194304)) ∧
      ∀ a < 4194304, (∀ j < n, a ≠ (dst.toNat + j) % 4194304) →
        rd8 (getCore t c.val).mem.spad a = rd8 (getCore s c.val).mem.spad a := by
  have haddr : chunkAddrs (chanAt (getCore s c.val) ch.val) h = [] := by
    rw [chunkAddrs_eq m, hs, hd]
    rfl
  have hexec := line_exec (ts := []) (s1 := s) m r (by rw [haddr]; simp) (by rw [haddr]; rfl) rfl
  have hread := chunkRead_spad (c := c) (ch := ch) (src := src) (n := n) (r := r) hs s []
  generalize hv : racedView s (chanAt (getCore s c.val) ch.val).seen (getCore s c.val).mem.spad = v at hread
  have hfree : v.2 = { s with free := v.2.free } := hv ▸ racedView_free ..
  obtain ⟨seen, hmove⟩ := moveChunk_of (chunkOf_of m) hread (chunkWrite_spad hd v.2 [] _)
  have hcore : getCore v.2 c.val = getCore s c.val := by
    rw [hfree]
    rfl
  rw [hmove] at hexec
  obtain ⟨hin, hout⟩ := spad_write (s1 := v.2) (c := c.val) (spadRd_length v.1 (src.toNat % spadSize) n) m.le_room
    (fun k => chanMoved k ch.val h n seen) fun k => chanMoved_mem k ch.val h n seen
  refine ⟨_, v.1, hexec, ?_, moved_chanMoved m seen ?_ ?_ ?_, hv ▸ racedView_readAs s _ _, fun j hj => ?_, fun a ha hne => ?_⟩
  · have ho := (onlyCore_modCore v.2 c.val fun k => spadPut k dst (spadRd v.1 (src.toNat % spadSize) n)).trans
      (onlyCore_modCore _ c.val fun k => chanMoved k ch.val h n seen)
    exact hfree ▸ ho
  · rw [getCore_modCore_self, hcore]
    rfl
  · rw [getCore_modCore_self, hcore]
    rfl
  · rw [getCore_modCore_self, hcore]
    rfl
  · exact (hin j hj).trans (spadRd_getElem ..)
  · exact (hout a ha hne).trans (by rw [hcore])

theorem pieces_one {a n : Nat} (hn : n ≠ 0) (h : a % 64 + n ≤ 64) : pieces 64 3 a n = [(a, n)] := by
  have hmin : min n (64 - a % 64) = n := by omega
  rw [pieces, if_neg hn, hmin]
  dsimp only
  rw [Nat.sub_self, pieces, if_pos rfl]

theorem MovesNext.pos (m : MovesNext s c.val ch.val h src dst n) : n ≠ 0 := by
  have hsize := m.size
  have hwithin := m.within
  omega

theorem dmaRead_one {s s1 : State} {a : Nat} {tg : Target} {nc : Bool} {bs : List Byte}
    (hp : dmaReadPiece s c.val ch tg nc n 0 r = (St.ok, bs, s1)) :
    dmaRead c.val ch r [((a, n), (tg, nc))] 0 s [] = (St.ok, 0, bs, s1) := by
  rw [dmaRead]
  dsimp only
  rw [hp]
  dsimp only
  rw [if_neg (by decide), dmaRead]
  rfl

theorem chunkRead_one {tg : Target} {nc : Bool} (hs : dSrcSpad h = false) (hn : n ≠ 0) (hline : src.toNat % 64 + n ≤ 64) (s : State) :
    chunkRead s c.val ch h [(tg, nc)] src n r = dmaRead c.val ch r [((src.toNat, n), (tg, nc))] 0 s [] := by
  unfold chunkRead
  extract_lets k
  rw [hs, if_neg (by decide), pieces_one hn hline]
  rfl

theorem dmaLine_of {s : State} {key : BitVec 64} {nc : Bool} {l : List Byte} (off : Nat)
    (hr : rlcRead s (towerOf c.val) (chanRlc c.val ch) key (getCore s c.val).ctx nc none none = (St.ok, l, s)) :
    dmaLine s c.val ch key nc none off n = (St.ok, slice l off n, s) := by
  rw [dmaLine, hr]

theorem dmaLine_plain {s : State} {o : Nat} (hp : PlainLine s (getCore s c.val).ctx o)
    (hd : dieCode s (towerOf c.val) (homeTower s o) = St.ok) (hn : o % 64 + n ≤ 64) :
    dmaLine s c.val ch (lineKey s o) true none (o % 64) n = (St.ok, rdN s.mem o n, s) := by
  rw [dmaLine_of _ (hp.rlcRead hd _), slice_rdN _ _ _ _ _ hn, Nat.div_add_mod']

/-- A line of plain memory is read through the RLC of the core's tower. -/
theorem chunkRead_mem {l : LbEntry} {o : Nat} (hs : dSrcSpad h = false) (hn : n ≠ 0) (hline : src.toNat % 64 + n ≤ 64)
    (hp : PlainLine s (getCore s c.val).ctx o) (ho : o % 64 = src.toNat % 64)
    (hd : dieCode s (towerOf c.val) (homeTower s o) = St.ok) :
    chunkRead (rlbUsed s c.val l) c.val ch h [(.loc o, true)] src n r = (St.ok, 0, rdN s.mem o n, rlbUsed s c.val l) := by
  have hp' : PlainLine (rlbUsed s c.val l) (getCore (rlbUsed s c.val l) c.val).ctx o := by
    rw [getCore_rlbUsed]
    exact (hp.of_onlyCore (onlyCore_rlbUsed s c.val l)).1
  have hd' : dieCode (rlbUsed s c.val l) (towerOf c.val) (homeTower (rlbUsed s c.val l) o) = St.ok := by
    rw [homeTower_rlbUsed, dieCode_congr (t := rlbUsed s c.val l) (s := s) rfl]
    exact hd
  have hpiece : dmaReadPiece (rlbUsed s c.val l) c.val ch (.loc o) true n 0 r = (St.ok, rdN s.mem o n, rlbUsed s c.val l) :=
    dmaLine_plain hp' hd' (by omega)
  rw [chunkRead_one hs hn hline, dmaRead_one hpiece]

/-- A line goes from plain memory to the scratchpad. -/
theorem moves_mem_spad (m : MovesNext s c.val ch.val h src dst n) (hk : isDirect (getCore s c.val) = false) (hs : dSrcSpad h = false)
    (hd : dDstSpad h = true) (hline : src.toNat % 64 + n ≤ 64) {l : LbEntry} {o : Nat}
    (hmap : MapsTo s (getCore s c.val).rlb (getCore s c.val).ctx src .read l o) (hp : PlainLine s (getCore s c.val).ctx o)
    (ho : o % 64 = src.toNat % 64) (hroute : FreeRoute s (towerOf c.val) (homeTower s o)) (hheld : chanHeld s o = false) :
    ∃ t, exec (.dmaLineComplete c ch r) s = .next t ∧ OnlyCore s t c.val ∧ Moved s t c.val ch.val h n ∧
      (∀ j < n, rd8 (getCore t c.val).mem.spad ((dst.toNat + j) % 4194304) = rd8 s.mem (o + j)) ∧
      ∀ a < 4194304, (∀ j < n, a ≠ (dst.toNat + j) % 4194304) →
        rd8 (getCore t c.val).mem.spad a = rd8 (getCore s c.val).mem.spad a := by
  have haddr : chunkAddrs (chanAt (getCore s c.val) ch.val) h = [(src, Need.read)] := by
    rw [chunkAddrs_eq m, hs, hd, pieces_one m.pos hline]
    simp
  have hexec := line_exec m r (by rw [hk]; rfl) (by rw [haddr]; exact xlateList_one hmap)
    (chunkHeld_one (l := l) hroute.2 hheld)
  obtain ⟨seen, hmove⟩ := moveChunk_of (chunkOf_of m) (chunkRead_mem hs m.pos hline hp ho hroute.1)
    (chunkWrite_spad hd (rlbUsed s c.val l) [(.loc o, true)] _)
  rw [hmove] at hexec
  have hlen : (rdN s.mem o n).length = n := by simp [rdN]
  obtain ⟨hin, hout⟩ := spad_write (s1 := rlbUsed s c.val l) (c := c.val) hlen m.le_room
    (fun k => chanMoved k ch.val h n seen) fun k => chanMoved_mem k ch.val h n seen
  refine ⟨_, hexec, ?_, moved_chanMoved m seen ?_ ?_ ?_, fun j hj => ?_, fun a ha hne => ?_⟩
  · exact (onlyCore_rlbUsed s c.val l).trans ((onlyCore_modCore ..).trans (onlyCore_modCore ..))
  · rw [getCore_modCore_self, getCore_rlbUsed]
    rfl
  · rw [getCore_modCore_self, getCore_rlbUsed]
    rfl
  · rw [getCore_modCore_self, getCore_rlbUsed]
    rfl
  · exact (hin j hj).trans (by simp [rdN])
  · exact (hout a ha hne).trans (by rw [getCore_rlbUsed])

/-- The stream detector of a channel changes only its own record. -/
theorem streamStep_dma (s : State) (c : Core) (ch : Fin 4) (key : BitVec 64) : ∃ s1 run l,
    streamStep s (chanRlc c.val ch) key = (s1, run) ∧ OnlyCore s s1 c.val ∧
      getCore s1 c.val = { getCore s c.val with streams := l } := by
  have hu : ∃ i, streamOf (chanRlc c.val ch) = some (c.val, i) := ⟨_, by simp [streamOf, chanRlc]; rfl⟩
  obtain ⟨i, hu⟩ := hu
  rw [streamStep, hu]
  dsimp only
  split
  · exact ⟨s, _, _, rfl, ⟨rfl, fun _ _ => rfl⟩, rfl⟩
  · exact ⟨_, _, _, rfl, onlyCore_setCore .., getCore_setCore_self ..⟩

theorem dmaStore_home {s s1 : State} {ga run : Nat} {nc : Bool} {va : BitVec 64} {bs : List Byte}
    (hstream : streamStep s (chanRlc c.val ch) (keyOf ga) = (s1, run))
    (htry : rlcTryWrite s1 (towerOf c.val) run (chanRlc c.val ch) (keyOf ga) (getCore s c.val).ctx nc (ga % 64) bs none = none) :
    dmaStore s c.val ch va ga nc bs = homeWriteFrom s1 (towerOf c.val) (.dma (BitVec.toFin (BitVec.ofNat 8 c.val)) ch va) (keyOf ga)
      (getCore s c.val).ctx nc (ga % 64) bs := by
  unfold dmaStore
  extract_lets ctx
  rw [hstream]
  dsimp only
  rw [htry]

/-- A line goes past the RLC to its home in plain memory. -/
theorem dmaStore_plain {o : Nat} {va : BitVec 64} {bs : List Byte} (hp : PlainLine s (getCore s c.val).ctx o)
    (hd : dieCode s (towerOf c.val) (homeTower s o) = St.ok) (hb : o % 64 + bs.length ≤ 64) :
    ∃ t l, dmaStore s c.val ch va (gaOf s o) true bs = (St.ok, t) ∧ t.mem = wrN s.mem o bs ∧
      (∀ d, d ≠ c.val → getCore t d = getCore s d) ∧ getCore t c.val = { getCore s c.val with streams := l } := by
  have hkey : keyOf (gaOf s o) = lineKey s o := lineKey_of_ga s hp.lt
  obtain ⟨s1, run, l, hstream, honly, hcore⟩ := streamStep_dma s c ch (keyOf (gaOf s o))
  obtain ⟨hp1, hkey1⟩ := hp.of_onlyCore honly
  have hga : gaOf s1 o = gaOf s o := by
    rw [honly.package]
    rfl
  have hd1 : dieCode s1 (towerOf c.val) (homeTower s1 o) = St.ok := by
    rw [show homeTower s1 o = homeTower s o by rw [honly.package]; rfl, dieCode_congr (t := s1) (s := s) (by rw [honly.package])]
    exact hd
  have htry : rlcTryWrite s1 (towerOf c.val) run (chanRlc c.val ch) (keyOf (gaOf s o)) (getCore s c.val).ctx true (gaOf s o % 64) bs none
      = none := by
    rw [hkey, ← hkey1]
    exact hp1.tryWrite ..
  obtain ⟨t, hwrite, hmem, hcores⟩ := homeWriteFrom_plain hp1 hd1 (.dma (BitVec.toFin (BitVec.ofNat 8 c.val)) ch va) bs hb
  have hget : ∀ d, getCore t d = getCore s1 d := fun d => by rw [getCore, hcores, ← getCore]
  refine ⟨t, l, ?_, ?_, fun d hdne => (hget d).trans (honly.others d hdne), (hget c.val).trans hcore⟩
  · rw [dmaStore_home hstream htry, ← hga]
    exact hwrite
  · rw [hmem, honly.package]

/-- A line goes from the scratchpad to plain memory. -/
theorem moves_spad_mem (m : MovesNext s c.val ch.val h src dst n) (hk : isDirect (getCore s c.val) = false) (hs : dSrcSpad h = true)
    (hd : dDstSpad h = false) {l : LbEntry} {o : Nat}
    (hmap : MapsTo s (getCore s c.val).rlb (getCore s c.val).ctx dst .write l o) (hp : PlainLine s (getCore s c.val).ctx o)
    (ho : o % 64 = dst.toNat % 64) (hroute : FreeRoute s (towerOf c.val) (homeTower s o)) (hheld : chanHeld s o = false) :
    ∃ t v, exec (.dmaLineComplete c ch r) s = .next t ∧ (∀ d, d ≠ c.val → getCore t d = getCore s d) ∧ Moved s t c.val ch.val h n ∧
      (getCore t c.val).mem = (getCore s c.val).mem ∧ ReadAs (chanAt (getCore s c.val) ch.val).seen (getCore s c.val).mem.spad v ∧
      (∀ j < n, rd8 t.mem (o + j) = rd8 v ((src.toNat + j) % 4194304)) ∧
      ∀ a, (a < o ∨ o + n ≤ a) → rd8 t.mem a = rd8 s.mem a := by
  have haddr : chunkAddrs (chanAt (getCore s c.val) ch.val) h = [(dst, Need.write)] := by
    rw [chunkAddrs_eq m, hs, hd]
    rfl
  have hexec := line_exec m r (by rw [hk]; rfl) (by rw [haddr]; exact xlateList_one hmap)
    (chunkHeld_one (l := l) hroute.2 hheld)
  have hread := chunkRead_spad (c := c) (ch := ch) (src := src) (n := n) (r := r) hs (rlbUsed s c.val l) [(.loc o, true)]
  rw [getCore_rlbUsed] at hread
  have hreadAs := racedView_readAs (rlbUsed s c.val l) (chanAt (getCore s c.val) ch.val).seen (getCore s c.val).mem.spad
  have hfree := racedView_free (rlbUsed s c.val l) (chanAt (getCore s c.val) ch.val).seen (getCore s c.val).mem.spad
  change chunkRead _ _ _ _ _ _ _ _ = (St.ok, 0, spadRd (racedView (rlbUsed s c.val l) (chanAt (getCore s c.val) ch.val).seen
    (getCore s c.val).mem.spad).1 (src.toNat % spadSize) n, (racedView (rlbUsed s c.val l) (chanAt (getCore s c.val) ch.val).seen
    (getCore s c.val).mem.spad).2) at hread
  generalize racedView (rlbUsed s c.val l) (chanAt (getCore s c.val) ch.val).seen (getCore s c.val).mem.spad = v
    at hread hreadAs hfree
  have hcores : ∀ d, getCore v.2 d = getCore (rlbUsed s c.val l) d := fun d => by
    rw [hfree]
    rfl
  have hp2 : PlainLine v.2 (getCore v.2 c.val).ctx o := by
    have hpr := (hp.of_onlyCore (onlyCore_rlbUsed s c.val l)).1
    have : PlainLine { rlbUsed s c.val l with free := v.2.free } (getCore s c.val).ctx o := hpr
    rw [hcores, getCore_rlbUsed, hfree]
    exact this
  have hd2 : dieCode v.2 (towerOf c.val) (homeTower v.2 o) = St.ok := by
    rw [show homeTower v.2 o = homeTower s o by rw [hfree]; rfl, dieCode_congr (t := v.2) (s := s) (by rw [hfree]; rfl)]
    exact hroute.1
  have hlen : (spadRd v.1 (src.toNat % spadSize) n).length = n := spadRd_length ..
  obtain ⟨t, ls, hstore, hmem, hothers, hcore⟩ := dmaStore_plain (ch := ch) (va := dst) (bs := spadRd v.1 (src.toNat % spadSize) n) hp2 hd2 (by
    rw [hlen, ho]
    have := m.le_room
    omega)
  have hwrite : chunkWrite v.2 c.val ch h [(.loc o, true)] dst (spadRd v.1 (src.toNat % spadSize) n) = (St.ok, t) := by
    rw [chunkWrite, hd, if_neg (by decide), List.getLast?_singleton]
    dsimp only
    unfold dmaWrite
    extract_lets ctx
    simp only [hp2.check, ctx, ne_eq, not_true_eq_false, if_false]
    exact hstore
  obtain ⟨seen, hmove⟩ := moveChunk_of (chunkOf_of m) hread hwrite
  rw [hmove] at hexec
  have hcoreS : getCore t c.val = { getCore s c.val with rlb := lbTouch (getCore s c.val).rlb l l, streams := ls } := by
    rw [hcore, hcores, getCore_rlbUsed]
  have hmemT : t.mem = wrN s.mem o (spadRd v.1 (src.toNat % spadSize) n) := by
    rw [hmem, hfree]
    rfl
  refine ⟨_, v.1, hexec, fun d hne => ?_, moved_chanMoved m seen ?_ ?_ ?_, ?_, hreadAs, fun j hj => ?_, fun a ha => ?_⟩
  · rw [getCore_modCore_ne (s := t) _ hne, hothers d hne, hcores, (onlyCore_rlbUsed s c.val l).others d hne]
  · rw [hcoreS]
    rfl
  · rw [hcoreS]
  · rw [hcoreS]
  · rw [getCore_modCore_self, chanMoved_mem, hcoreS]
  · show rd8 t.mem _ = _
    rw [hmemT, rd8_wrN_in _ _ _ _ (by rwa [hlen])]
    exact spadRd_getElem ..
  · show rd8 t.mem _ = _
    rw [hmemT]
    exact rd8_wrN_out _ _ _ (by rwa [hlen])

end

/-- Settles O38: the three kinds of line. -/
theorem dmaLinesMove : Obligations.DmaLinesMove := by
  intro c ch s h src dst n r m
  exact ⟨fun hs hd => moves_spad_spad m hs hd, fun hk hs hd hline l o hmap hp ho hroute hheld =>
    moves_mem_spad m hk hs hd hline hmap hp ho hroute hheld, fun hk hs hd l o hmap hp ho hroute hheld =>
    moves_spad_mem m hk hs hd hmap hp ho hroute hheld⟩

/-! ## The descriptor queue of a channel (R162, R163) -/

section
variable {s : State} {c : Core} {w : BitVec 56}

/-- The descriptor that DMA reads at its address (R162). -/
def dmaRead1 (k : CoreSt) (w : BitVec 56) : DmaDesc :=
  ⟨BitVec.ofNat 512 (leNat (spadRd k.mem.spad ((areg k (dDAR w)).toNat % spadSize / 64 * 64) 64)), k.dispNo, k.regs.pc⟩

/-- A core whose channel `ch` has taken `d` as the last of its queue (R150, R162). -/
def dmaQueued (k : CoreSt) (ch : Nat) (d : DmaDesc) : CoreSt :=
  bumpDisp (setChan k ch { chanAt k ch with queue := (chanAt k ch).queue ++ [d] }) (5 + ch)

theorem execDma_full (h : Issues s c (legalD w) []) (hq : 128 ≤ (chanAt (getCore s c.val) (dCH w)).queue.length) :
    execDma c w s = .next s := by
  unfold execDma
  extract_lets k
  rw [if_pos (by rw [h.issuing, h.word, decide_eq_true hq]; rfl)]

theorem execDma_room (h : Issues s c (legalD w) []) (hq : (chanAt (getCore s c.val) (dCH w)).queue.length < 128) :
    execDma c w s = .next (setCore s c.val (if !descOk (dmaRead1 (getCore s c.val) w) then
      kernelFault (getCore s c.val) St.fmtReserved 5 (dCH w) (getCore s c.val).regs.pc 0
      else advance (dmaQueued (getCore s c.val) (dCH w) (dmaRead1 (getCore s c.val) w)) 1)) := by
  unfold execDma
  extract_lets k
  have hk : decide (128 ≤ (chanAt k (dCH w)).queue.length) = false := decide_eq_false (Nat.not_le.2 hq)
  rw [hk, Bool.and_false, if_neg (by decide), h.runs]
  rfl

theorem bumpDisp_count (k : CoreSt) (u : Nat) :
    bf (tget 0 (bumpDisp k u).cr.ucnt u) 31 16 = (bf (tget 0 k.cr.ucnt u) 31 16 + 1) % 65536 := by
  show bf (tget 0 (tset 0 k.cr.ucnt u _) u) 31 16 = _
  rw [tget_tset_self, bf_sf_same _ _ _ _ (by decide)]
  rfl

theorem issuing_noFault {k : CoreSt} (h : canIssue k = true) : k.fault = none := by
  simp only [canIssue, Bool.and_eq_true, decide_eq_true_eq] at h
  tauto

/-- DMA joins the queue of its channel, waits while it is full, or ends the kernel. -/
theorem dma_issues (h : Issues s c (legalD w) []) {ch : Nat} (hch : ch = dCH w) {d : DmaDesc} (hd : d = dmaRead1 (getCore s c.val) w) :
    (128 ≤ (chanAt (getCore s c.val) ch).queue.length → exec (.dma c w) s = .next s) ∧
      ((chanAt (getCore s c.val) ch).queue.length < 128 → descOk d = true → ∃ t, exec (.dma c w) s = .next t ∧ OnlyCore s t c.val ∧
        chanAt (getCore t c.val) ch = { chanAt (getCore s c.val) ch with queue := (chanAt (getCore s c.val) ch).queue ++ [d] } ∧
        (∀ e, e ≠ ch → chanAt (getCore t c.val) e = chanAt (getCore s c.val) e) ∧ (getCore t c.val).mem = (getCore s c.val).mem ∧
        (getCore t c.val).dispNo = (getCore s c.val).dispNo + 1 ∧
        bf (tget 0 (getCore t c.val).cr.ucnt (5 + ch)) 31 16 = (bf (tget 0 (getCore s c.val).cr.ucnt (5 + ch)) 31 16 + 1) % 65536 ∧
        (getCore t c.val).regs.s = (getCore s c.val).regs.s ∧ (getCore t c.val).regs.a = (getCore s c.val).regs.a ∧
        PastWord (getCore s c.val) (getCore t c.val)) ∧
      ((chanAt (getCore s c.val) ch).queue.length < 128 → descOk d = false → ∃ t, exec (.dma c w) s = .next t ∧ OnlyCore s t c.val ∧
        FaultRecorded (getCore s c.val) (getCore t c.val) St.fmtReserved 5 (BitVec.ofNat 2 ch) (getCore s c.val).regs.pc 0) := by
  have hexec : exec (.dma c w) s = execDma c w s := rfl
  subst hch hd
  rw [hexec]
  refine ⟨execDma_full h, fun hq hok => ?_, fun hq hbad => ?_⟩
  · have hl := advance_loopsOnly (dmaQueued (getCore s c.val) (dCH w) (dmaRead1 (getCore s c.val) w)) 1
    have hchan : ∀ e, chanAt (advance (dmaQueued (getCore s c.val) (dCH w) (dmaRead1 (getCore s c.val) w)) 1) e =
        chanAt (dmaQueued (getCore s c.val) (dCH w) (dmaRead1 (getCore s c.val) w)) e := fun e => by rw [hl.rest]; rfl
    rw [execDma_room h hq, hok, if_neg (by decide)]
    refine ⟨_, rfl, onlyCore_setCore .., ?_⟩
    rw [getCore_setCore_self, hchan]
    refine ⟨?_, fun e he => ?_, ?_, ?_, ?_, hl.s, hl.a, ?_⟩
    · exact (chanAt_setChan ..).trans (if_pos rfl)
    · rw [hchan]
      exact (chanAt_setChan ..).trans (if_neg he)
    · rw [hl.rest]
      rfl
    · rw [hl.rest]
      rfl
    · rw [hl.rest]
      exact bumpDisp_count ..
    · exact fun hp => advance_none (k := dmaQueued _ _ _) (n := 1) (by rwa [Nat.sub_self, Nat.mul_zero, BitVec.add_zero]) (by decide)
  · rw [execDma_room h hq, hbad, if_pos (by decide), kernelFault, if_pos (issuing_noFault h.issuing)]
    refine ⟨_, rfl, onlyCore_setCore .., ?_⟩
    rw [getCore_setCore_self]
    rfl

end

/-! ## The head descriptor (R164, R165, R167) -/

section
variable {s : State} {c : Core} {ch : Fin 4} {h : DmaDesc} {r : Reply}

theorem onlyChannel_setChan (s : State) (c ch : Nat) (d : DmaChan) :
    OnlyChannel s (setCore s c (setChan (getCore s c) ch d)) c ch d := by
  refine ⟨onlyCore_setCore .., ?_, ?_, fun e he => ?_⟩
  · rw [getCore_setCore_self]
    rfl
  · rw [getCore_setCore_self, chanAt_setChan, if_pos rfl]
  · rw [getCore_setCore_self, chanAt_setChan, if_neg he]

theorem execDmaDescriptorStart_head {tl : List DmaDesc} (hq : (chanAt (getCore s c.val) ch.val).queue = h :: tl)
    (hr : dmaRuns (getCore s c.val) = true) (hi : (chanAt (getCore s c.val) ch.val).phase = .idle) :
    execDmaDescriptorStart c ch s = .next (setCore s c.val (setChan (getCore s c.val) ch.val
      (if dTimed h && decide (s.plumb.count.toNat < dAt h) then { chanAt (getCore s c.val) ch.val with phase := .timed }
      else chanStart (getCore s c.val).mem.spad (chanAt (getCore s c.val) ch.val)))) := by
  unfold execDmaDescriptorStart
  simp only [hq, hr, hi, decide_true, Bool.and_true, Bool.not_true, Bool.false_eq_true, if_false]
  split <;> rfl

/-- An idle channel starts its head descriptor, or waits for its instant. -/
theorem dma_starts (hh : ChannelHas s c.val ch.val h) (hi : (chanAt (getCore s c.val) ch.val).phase = .idle) :
    if h.raw.getLsbD 322 = true ∧ s.plumb.count.toNat < (h.raw.extractLsb' 384 64).toNat then
      ∃ t, exec (.dmaDescriptorStart c ch) s = .next t ∧
        OnlyChannel s t c.val ch.val { chanAt (getCore s c.val) ch.val with phase := .timed }
    else ∃ t d, exec (.dmaDescriptorStart c ch) s = .next t ∧ OnlyChannel s t c.val ch.val d ∧ d.phase = .moving ∧
      d.seen = (getCore s c.val).mem.spad ∧ d.queue = (chanAt (getCore s c.val) ch.val).queue := by
  have hexec : exec (.dmaDescriptorStart c ch) s = execDmaDescriptorStart c ch s := rfl
  rw [hexec, execDmaDescriptorStart_head (head_cons hh.head) hh.runs hi, dAt_eq]
  by_cases ht : h.raw.getLsbD 322 = true ∧ s.plumb.count.toNat < (h.raw.extractLsb' 384 64).toNat
  · rw [if_pos ht, if_pos (by rw [decide_eq_true ht.2, Bool.and_true]; exact ht.1)]
    exact ⟨_, rfl, onlyChannel_setChan ..⟩
  · rw [if_neg ht, if_neg (by rw [Bool.and_eq_true, decide_eq_true_iff]; exact ht)]
    exact ⟨_, _, rfl, onlyChannel_setChan .., rfl, rfl, rfl⟩

theorem execDmaTimedRelease_head {tl : List DmaDesc} (hq : (chanAt (getCore s c.val) ch.val).queue = h :: tl)
    (hr : dmaRuns (getCore s c.val) = true) (hi : (chanAt (getCore s c.val) ch.val).phase = .timed) :
    execDmaTimedRelease c ch s = .next (if dAt h ≤ s.plumb.count.toNat then setCore s c.val (setChan (getCore s c.val) ch.val
      (chanStart (getCore s c.val).mem.spad (chanAt (getCore s c.val) ch.val))) else s) := by
  unfold execDmaTimedRelease
  simp only [hq, hr, hi, true_and, Bool.true_and, decide_eq_true_eq]
  split <;> rfl

/-- A descriptor that waits for its instant starts from it on. -/
theorem dma_releases (hh : ChannelHas s c.val ch.val h) (hi : (chanAt (getCore s c.val) ch.val).phase = .timed) :
    if s.plumb.count.toNat < (h.raw.extractLsb' 384 64).toNat then exec (.dmaTimedRelease c ch) s = .next s
    else ∃ t d, exec (.dmaTimedRelease c ch) s = .next t ∧ OnlyChannel s t c.val ch.val d ∧ d.phase = .moving ∧
      d.seen = (getCore s c.val).mem.spad ∧ d.queue = (chanAt (getCore s c.val) ch.val).queue := by
  have hexec : exec (.dmaTimedRelease c ch) s = execDmaTimedRelease c ch s := rfl
  rw [hexec, execDmaTimedRelease_head (head_cons hh.head) hh.runs hi, dAt_eq]
  by_cases ht : s.plumb.count.toNat < (h.raw.extractLsb' 384 64).toNat
  · rw [if_pos ht, if_neg (Nat.not_le.2 ht)]
  · rw [if_neg ht, if_pos (Nat.not_lt.1 ht)]
    exact ⟨_, _, rfl, onlyChannel_setChan .., rfl, rfl, rfl⟩

theorem chanFinish_cons {k : CoreSt} {ch : Nat} {tl : List DmaDesc} (hq : (chanAt k ch).queue = h :: tl) (code : Code) :
    chanFinish k ch code = completeUnit (setChan k ch { queue := tl }) (5 + ch) code h.disp := by
  simp only [chanFinish, hq]

theorem chanFinish_completes {k : CoreSt} {ch : Nat} (hq : (chanAt k ch).queue.head? = some h) (code : Code) :
    chanAt (chanFinish k ch code) ch = { queue := (chanAt k ch).queue.tail } ∧ Completes k (chanFinish k ch code) (5 + ch) code h.disp := by
  rw [chanFinish_cons (head_cons hq)]
  exact ⟨(chanAt_setChan ..).trans (if_pos rfl), (Completes.of _ _ _ _).mono rfl rfl⟩

theorem execDmaDescriptorComplete_head {tl : List DmaDesc} (hq : (chanAt (getCore s c.val) ch.val).queue = h :: tl)
    (hr : dmaRuns (getCore s c.val) = true) (hi : (chanAt (getCore s c.val) ch.val).phase = .moving)
    (hall : chanAllMoved (chanAt (getCore s c.val) ch.val) h = true) (hout : dmaOut s c.val ch.val = false) :
    execDmaDescriptorComplete c ch s = .next (setCore s c.val (if dSigEn h then
      setChan (getCore s c.val) ch.val { chanAt (getCore s c.val) ch.val with phase := .signalling, xs := .miss, xw := .miss }
      else chanFinish (getCore s c.val) ch.val St.ok)) := by
  unfold execDmaDescriptorComplete
  simp only [hq, hr, hi, hall, hout, decide_true, Bool.and_true, Bool.not_true, Bool.not_false, Bool.false_eq_true, if_false]
  split <;> rfl

/-- A descriptor whose bytes have all moved signals, or completes. -/
theorem dma_completes (hh : ChannelHas s c.val ch.val h) (hi : (chanAt (getCore s c.val) ch.val).phase = .moving)
    (hmoved : (chanAt (getCore s c.val) ch.val).plane = (h.raw.extractLsb' 176 16).toNat + 1) (hout : dmaOut s c.val ch.val = false) :
    if h.raw.getLsbD 323 = true then
      ∃ t d, exec (.dmaDescriptorComplete c ch) s = .next t ∧ OnlyChannel s t c.val ch.val d ∧ d.phase = .signalling
    else ∃ t, exec (.dmaDescriptorComplete c ch) s = .next t ∧ OnlyCore s t c.val ∧
      chanAt (getCore t c.val) ch.val = { queue := (chanAt (getCore s c.val) ch.val).queue.tail } ∧
      Completes (getCore s c.val) (getCore t c.val) (5 + ch.val) St.ok h.disp := by
  have hexec : exec (.dmaDescriptorComplete c ch) s = execDmaDescriptorComplete c ch s := rfl
  have hall : chanAllMoved (chanAt (getCore s c.val) ch.val) h = true := by
    rw [chanAllMoved, dZcnt, bf_eq_extract h.raw 191 176 16 rfl (by decide), hmoved]
    exact decide_eq_true le_rfl
  rw [hexec, execDmaDescriptorComplete_head (head_cons hh.head) hh.runs hi hall hout]
  by_cases hs : h.raw.getLsbD 323 = true
  · rw [if_pos hs, if_pos (show dSigEn h = true from hs)]
    exact ⟨_, _, rfl, onlyChannel_setChan .., rfl⟩
  · rw [if_neg hs, if_neg (show ¬ dSigEn h = true from hs)]
    refine ⟨_, rfl, onlyCore_setCore .., ?_⟩
    rw [getCore_setCore_self]
    exact chanFinish_completes hh.head _

/-! ## The signal (R164) -/

/-- An atomic on plain memory of the package. -/
theorem hereAtomic_plain {x o n : Nat} (hp : PlainLine s x o) {t : Nat} (hd : dieCode s t (homeTower s o) = St.ok)
    (hn : o % 64 + n ≤ 64) (hlt : n < 64) (func b cmp : Nat) :
    hereAtomic s t x o n func b cmp true =
      (St.ok, leNat (rdN s.mem o n), withMem s (wrN s.mem o (toLe n (amoNew func n (leNat (rdN s.mem o n)) b cmp)))) := by
  rw [hereAtomic, if_neg (by rw [hp.hereCheck hd]; decide), hp.recall, homeAtomic, hp.read _ hn]
  dsimp only
  rw [if_neg (by decide), hp.write _ (by rwa [toLe_length])]

theorem rdN_wrN_self {n : Nat} {bs : List Byte} (m : List Host.Cell) (a : Nat) (h : bs.length = n) : rdN (wrN m a bs) a n = bs := by
  subst h
  exact rdN_wrN ..

theorem toLe_mod : ∀ (n v : Nat), toLe n (v % 256 ^ n) = toLe n v
  | 0, _ => rfl
  | n + 1, v => by
    have hhead : BitVec.ofNat 8 (v % 256 ^ (n + 1)) = BitVec.ofNat 8 v :=
      BitVec.eq_of_toNat_eq (by simpa only [BitVec.toNat_ofNat] using Nat.mod_mod_of_dvd v (Dvd.intro_left _ (pow_succ 256 n).symm))
    rw [toLe, toLe, hhead, pow_succ', Nat.mod_mul_right_div_self, toLe_mod n]

/-- ADD of 1 to a 64-bit word. -/
theorem toLe_amoNew_one (old : Nat) : toLe 8 (amoNew 0 8 old 1 0) = toLe 8 (old + 1) := by
  rw [← toLe_mod 8 (old + 1)]
  congr 1
  show (BitVec.ofNat 64 old + BitVec.ofNat 64 1).toNat = _
  rw [← BitVec.ofNat_add, BitVec.toNat_ofNat]
  rfl

theorem chanXlate_one {va : BitVec 64} {need : Need} {l : LbEntry} {o : Nat}
    (hxs : (chanAt (getCore s c.val) ch.val).xs = .miss) (hxw : (chanAt (getCore s c.val) ch.val).xw = .miss)
    (haddr : chanAddrs (chanAt (getCore s c.val) ch.val) = [(va, need)])
    (hmap : MapsTo s (getCore s c.val).rlb (getCore s c.val).ctx va need l o) :
    chanXlate s c.val ch.val = (.all [(.loc o, true)], rlbUsed s c.val l) := by
  unfold chanXlate
  extract_lets d w
  simp only [d, hxs, hxw, haddr, xlateList_one hmap]

theorem execDmaSignalDone_head {tl : List DmaDesc} {s1 : State} {tg : Target} {nc : Bool}
    (hq : (chanAt (getCore s c.val) ch.val).queue = h :: tl)
    (hr : dmaRuns (getCore s c.val) = true) (hi : (chanAt (getCore s c.val) ch.val).phase = .signalling)
    (hk : isDirect (getCore s c.val) = false) (hx : chanXlate s c.val ch.val = (.all [(tg, nc)], s1)) {s2 : State}
    (hsig : signalAt s1 c.val tg nc (dSig h) r = (St.ok, s2)) :
    execDmaSignalDone c ch r s = .next (modCore s2 c.val fun k => chanFinish k ch.val St.ok) := by
  have hgo : (decide ((getCore s c.val).fault = none) && !outOfUse (getCore s c.val)) = true := by
    simp only [dmaRuns, Bool.and_eq_true] at hr
    rw [hr.1.1, hr.2]
    rfl
  unfold execDmaSignalDone
  simp only [hq, hgo, hi, hk, hx, hsig, decide_true, Bool.and_true, Bool.not_true, Bool.false_eq_true, if_false, if_true]

theorem signalAt_loc {s : State} {o v : Nat} {nc : Bool} {va : BitVec 64} {s1 : State}
    (ha : hereAtomic s (towerOf c.val) (getCore s c.val).ctx o 8 0 1 0 nc = (St.ok, v, s1)) :
    signalAt s c.val (.loc o) nc va r = (St.ok, s1) := by
  unfold signalAt
  extract_lets ctx denied
  simp only [ctx, ha]
  rfl

theorem chanAddrs_signalling {d : DmaChan} {tl : List DmaDesc} (hq : d.queue = h :: tl) (hi : d.phase = .signalling) :
    chanAddrs d = [(dSig h, .atomic)] := by
  simp only [chanAddrs, hq, hi]

/-- The signal adds 1 to its word, and the descriptor completes. -/
theorem dma_signals (hh : ChannelHas s c.val ch.val h) {l : LbEntry} {o : Nat} (hi : (chanAt (getCore s c.val) ch.val).phase = .signalling)
    (hk : isDirect (getCore s c.val) = false) (hxs : (chanAt (getCore s c.val) ch.val).xs = .miss)
    (hxw : (chanAt (getCore s c.val) ch.val).xw = .miss)
    (hmap : MapsTo s (getCore s c.val).rlb (getCore s c.val).ctx (h.raw.extractLsb' 448 64) .atomic l o)
    (hp : PlainLine s (getCore s c.val).ctx o) (hd : dieCode s (towerOf c.val) (homeTower s o) = St.ok) (ho : o % 64 + 8 ≤ 64) :
    ∃ t, exec (.dmaSignalDone c ch r) s = .next t ∧ (∀ d, d ≠ c.val → getCore t d = getCore s d) ∧
      rdN t.mem o 8 = toLe 8 (leNat (rdN s.mem o 8) + 1) ∧ (∀ x, (x < o ∨ o + 8 ≤ x) → rd8 t.mem x = rd8 s.mem x) ∧
      chanAt (getCore t c.val) ch.val = { queue := (chanAt (getCore s c.val) ch.val).queue.tail } ∧
      Completes (getCore s c.val) (getCore t c.val) (5 + ch.val) St.ok h.disp := by
  have hexec : exec (.dmaSignalDone c ch r) s = execDmaSignalDone c ch r s := rfl
  have haddr : chanAddrs (chanAt (getCore s c.val) ch.val) = [(h.raw.extractLsb' 448 64, Need.atomic)] := by
    rw [chanAddrs_signalling (head_cons hh.head) hi, dSig_eq]
  have hp' : PlainLine (rlbUsed s c.val l) (getCore (rlbUsed s c.val l) c.val).ctx o := by
    rw [getCore_rlbUsed]
    exact (hp.of_onlyCore (onlyCore_rlbUsed s c.val l)).1
  have hd' : dieCode (rlbUsed s c.val l) (towerOf c.val) (homeTower (rlbUsed s c.val l) o) = St.ok := by
    rw [homeTower_rlbUsed, dieCode_congr (t := rlbUsed s c.val l) (s := s) rfl]
    exact hd
  have hatomic := hereAtomic_plain hp' hd' ho (by decide) 0 1 0
  rw [toLe_amoNew_one] at hatomic
  rw [hexec, execDmaSignalDone_head (head_cons hh.head) hh.runs hi hk (chanXlate_one hxs hxw haddr hmap) (signalAt_loc hatomic)]
  have hcore : getCore (withMem (rlbUsed s c.val l) (wrN (rlbUsed s c.val l).mem o
      (toLe 8 (leNat (rdN (rlbUsed s c.val l).mem o 8) + 1)))) c.val = { getCore s c.val with rlb := lbTouch (getCore s c.val).rlb l l } :=
    getCore_rlbUsed ..
  refine ⟨_, rfl, fun d hne => ?_, ?_, fun x hx => ?_, ?_⟩
  · rw [getCore_modCore_ne (s := withMem _ _) _ hne]
    exact (onlyCore_rlbUsed s c.val l).others d hne
  · exact rdN_wrN_self _ _ (toLe_length ..)
  · exact rd8_wrN_out _ _ _ (by rwa [toLe_length])
  · rw [getCore_modCore_self, hcore]
    have := chanFinish_completes (k := { getCore s c.val with rlb := lbTouch (getCore s c.val).rlb l l }) (ch := ch.val) hh.head St.ok
    exact ⟨this.1, this.2.mono rfl rfl⟩

end

/-- Settles O37: what the instruction DMA and the events of a channel do. -/
theorem dmaDescriptorsRun : Obligations.DmaDescriptorsRun := by
  intro c s
  refine ⟨fun w h => dma_issues h ?_ ?_, fun ch h hh => ⟨dma_starts hh, dma_releases hh, dma_completes hh,
    fun l o r hi hk hxs hxw hmap hp hd ho => dma_signals hh hi hk hxs hxw hmap hp hd ho⟩⟩
  · exact (bf_eq_extractLsb w 55 54 (by decide)).symm
  · rw [dmaRead1, dDAR, bf_eq_extractLsb w 53 51 (by decide)]
    rfl

end Sys2Proof.Machine
end

section
/-!
PROOF. Chisel operations from their first beat to their completion (R109 to R134, R437).
-/

namespace Sys2Proof.Machine

/-! ## A chain that clears a scratchpad (R113, R122, R128) -/

/-- An active element whose values are all +0. -/
def zeroElt : Elt := ⟨0, 0, 0, 0, 0, true⟩

/-- The items of `n` active elements of +0 from number `lo` on. -/
def zeroItems (lo n : Nat) : List Item := (List.range n).map fun i => ⟨lo + i, zeroElt⟩

theorem zeroItems_append (lo a b : Nat) : zeroItems lo a ++ zeroItems (lo + a) b = zeroItems lo (a + b) := by
  simp only [zeroItems, List.range_add, List.map_append, List.map_map, Function.comp_def, Nat.add_assoc]

theorem zipIdx_replicate {α : Type} (x : α) (n : Nat) : (List.replicate n x).zipIdx = (List.range n).map fun i => (x, i) := by
  refine List.ext_getElem (by simp) fun i h1 h2 => ?_
  simp

section
variable {d : List Byte} (h : ClearsScratchpad d) (ofds : List Ofd) (tables : List (Option FTable)) (m0 mem : CoreMem)
include h

theorem ClearsScratchpad.outGroup : outGroup d = 1 := by
  rw [Machine.outGroup, permIs, h.stages 3 (by decide)]
  rfl

theorem ClearsScratchpad.slot {i : Nat} (hi : i < 6) (hne : i ≠ 4) : hSlot d i = false := by
  rw [h.slots i hi, decide_eq_false hne]

theorem ClearsScratchpad.active (e : Nat) : activeAt d mem e = true := by
  rw [activeAt, h.slot (by decide) (by decide)]
  rfl

omit h in
theorem operandW_zero {o : Nat} (ho : srcOf d o = 0) (e : Nat) : operandW d ofds mem e o = (0, 0) := by
  rw [operandW, ho]
  rfl

theorem ClearsScratchpad.front (e : Nat) : frontOf d ofds tables mem e = (zeroElt, 0) := by
  unfold frontOf
  rw [h.active mem e, Bool.not_true, if_neg (by decide), operandW_zero ofds mem h.sources.1, operandW_zero ofds mem h.sources.2.1,
    operandW_zero ofds mem h.sources.2.2]
  simp only [h.stages 0 (by decide), h.stages 1 (by decide), h.stages 2 (by decide), Bool.false_eq_true, if_false]
  rfl

theorem ClearsScratchpad.perm (lo n : Nat) : permBeat d lo (List.replicate n zeroElt) mem = (zeroItems lo n, mem, 0) := by
  unfold permBeat
  extract_lets items
  rw [h.stages 3 (by decide), Bool.not_false, if_pos rfl]
  simp only [items, zipIdx_replicate, List.map_map]
  rfl

theorem ClearsScratchpad.vrw (l : List Item) : l.foldl (vrwItem d) mem = mem := by
  induction l with
  | nil => rfl
  | cons it l ih =>
    rw [List.foldl_cons, vrwItem, h.pack.2.2.2, Bool.false_and, if_neg (by decide), ih]

/-- The beats form one item of +0 for each element. -/
theorem ClearsScratchpad.beats (lim n : Nat) : ∀ (lo : Nat) (is : List Item), lo ≤ lim →
    lim ≤ lo ∨ lim ≤ lo / 256 * 256 + 256 * n →
    Machine.beats d ofds tables lim n lo is mem 0 = (is ++ zeroItems lo (lim - lo), mem, 0) := by
  induction n with
  | zero =>
    intro lo is h1 h2
    rw [Machine.beats, show lim - lo = 0 by omega, zeroItems, List.range_zero, List.map_nil, List.append_nil]
  | succ n ih =>
    intro lo is h1 h2
    rw [Machine.beats]
    by_cases hl : lim ≤ lo
    · rw [if_pos hl, show lim - lo = 0 by omega, zeroItems, List.range_zero, List.map_nil, List.append_nil]
    · rw [if_neg hl]
      generalize hhi : (if lo / 256 * 256 + 256 ≤ lim then lo / 256 * 256 + 256 else lim) = hi
      have hb : lo < hi ∧ hi ≤ lim ∧ (lim ≤ hi ∨ lim ≤ hi / 256 * 256 + 256 * n) := by
        rw [← hhi]
        split <;> omega
      have hfs : ((List.range (hi - lo)).map fun t => frontOf d ofds tables mem (lo + t)) = List.replicate (hi - lo) (zeroElt, (0 : FpBits)) := by
        simp only [h.front, List.map_const', List.length_range]
      have hor : (0 : FpBits) ||| 0 = 0 := rfl
      have hflags : ∀ k, (List.replicate k (zeroElt, (0 : FpBits))).foldl (fun a p => a ||| p.2) 0 = 0 := by
        intro k
        induction k with
        | zero => rfl
        | succ k ih => rw [List.replicate_succ, List.foldl_cons, hor, ih]
      simp only [hfs, hflags, List.map_replicate, h.perm]
      rw [h.vrw, hor, ih hi _ hb.2.1 hb.2.2, List.append_assoc,
        show zeroItems hi (lim - hi) = zeroItems (lo + (hi - lo)) (lim - hi) by rw [show lo + (hi - lo) = hi by omega], zeroItems_append,
        show hi - lo + (lim - hi) = lim - lo by omega]

/-- Storage with +0 as element `e` of OUT0. -/
def zeroPut (d : List Byte) (mem : CoreMem) (e : Nat) : CoreMem :=
  { mem with spad := spadWr mem.spad (stBase (strm d 4) + 4 * e) (toLe 4 0) }

theorem ClearsScratchpad.store {e : Nat} (he : e < stRow (strm d 4)) : storeOut d m0 4 e 0 mem = zeroPut d mem e := by
  have hbase : rowBase (strm d 4) e = stBase (strm d 4) := by rw [rowBase, Nat.div_eq_of_lt he, Nat.zero_mul, Nat.add_zero]
  unfold storeOut
  extract_lets x
  simp only [x, h.stream.1, hbase, Nat.mod_eq_of_lt he, h.stream.2.1]
  show { mem with spad := spadWr mem.spad (stBase (strm d 4) + e * (32 / 8)) (toLe (32 / 8) 0) } = _
  rw [zeroPut, Nat.mul_comm 4 e]

omit h in
theorem roundNum_zero (wrap : Bool) : roundNum 0 0 0 false wrap (decodeNum 0 0) = (0, 0) := rfl

theorem ClearsScratchpad.put {e : Nat} (he : e < stRow (strm d 4)) :
    putOut d m0 4 e (pkSrc d 0) (pkCvt d 0) none ⟨e, zeroElt⟩ mem = (zeroPut d mem e, 0) := by
  unfold putOut
  simp only [h.slots 4 (by decide), h.stream.1, h.stream.2.1, h.format, h.pack.2.1, h.pack.2.2.1]
  show (storeOut d m0 4 e 0 mem, (0 : FpBits)) = _
  rw [h.store m0 mem he]

theorem ClearsScratchpad.packed {e : Nat} (he : e < stRow (strm d 4)) (items : List Item) :
    packItem d ofds m0 items mem ⟨e, zeroElt⟩ = (zeroPut d mem e, 0) := by
  have h5 : ∀ j src cvt scale it m, putOut d m0 5 j src cvt scale it m = (m, 0) := fun j src cvt scale it m => by
    rw [putOut, h.slot (by decide) (by decide)]
    rfl
  unfold packItem
  extract_lets j
  simp only [j, h.pack.1, h.outGroup, Nat.div_one]
  have hs : ¬ (0 = 2 ∧ zeroElt.act = true) := by decide
  simp only [if_neg hs, h.put m0 mem he, h5]
  rfl

/-- Pack/Store of one item, with the flags of the items before it. -/
def packStep (d : List Byte) (ofds : List Ofd) (m0 : CoreMem) (items : List Item) (acc : CoreMem × FpBits) (it : Item) : CoreMem × FpBits :=
  ((packItem d ofds m0 items acc.1 it).1, acc.2 ||| (packItem d ofds m0 items acc.1 it).2)

theorem ClearsScratchpad.packs : ∀ (l : List Item) (items : List Item) (mem : CoreMem),
    (∀ it ∈ l, it.v = zeroElt ∧ it.e < stRow (strm d 4)) →
    l.foldl (packStep d ofds m0 items) (mem, 0) = ((l.map Item.e).foldl (zeroPut d) mem, 0)
  | [], _, _, _ => rfl
  | it :: l, items, mem, hl => by
    obtain ⟨hv, he⟩ := hl it (List.mem_cons_self ..)
    have hpack : packItem d ofds m0 items mem it = (zeroPut d mem it.e, 0) := by
      have := h.packed ofds m0 mem he items
      rwa [← hv] at this
    have hor : (0 : FpBits) ||| 0 = 0 := rfl
    rw [List.foldl_cons, packStep, hpack, hor, List.map_cons, List.foldl_cons]
    exact ClearsScratchpad.packs l items _ fun x hx => hl x (List.mem_cons_of_mem _ hx)

theorem ClearsScratchpad.noFault (e : Nat) : faultAt d mem e = none := by
  have hk : ∀ i ∈ [0, 1, 2, 4, 5], (hSlot d i && decide (stKind (strm d i) = 2 ∨ stKind (strm d i) = 3)) = false := by
    intro i hi
    by_cases h4 : i = 4
    · rw [h4, h.stream.1]
      simp
    · rw [h.slot (by simp at hi; omega) h4, Bool.false_and]
  have hnil : ∀ i ∈ [0, 1, 2, 4, 5], (if hSlot d i && decide (stKind (strm d i) = 2 ∨ stKind (strm d i) = 3) && checkedAt d mem i e then
      (elemsOf d i e).filterMap fun j =>
        if offFault (strm d i) (indexOff d mem (strm d i) j) = 0 then none
        else some (i, offFault (strm d i) (indexOff d mem (strm d i) j), offAddr (strm d i) (indexOff d mem (strm d i) j))
      else []) = [] := fun i hi => by
    rw [hk i hi, Bool.false_and, if_neg (by decide)]
  unfold faultAt
  dsimp only
  rw [List.flatMap_eq_nil_iff.2 hnil]
  rfl

theorem ClearsScratchpad.noFaults (n : Nat) : ∀ e, firstFault d mem n e = none := by
  induction n with
  | zero => exact fun _ => rfl
  | succ n ih =>
    intro e
    rw [firstFault, h.noFault]
    exact ih _

theorem ClearsScratchpad.tail {i : Nat} (hi : i < 6) : zeroTail d i mem = mem := by
  unfold zeroTail
  extract_lets x b n j c
  by_cases h4 : i = 4
  · have hb : ¬ b < 8 := by
      simp only [b, x, h4, h.stream.2.1]
      decide
    rw [if_neg (by rw [Bool.and_eq_true, decide_eq_true_iff]; exact fun hc => hb hc.2.2)]
  · rw [h.slot hi h4, Bool.false_and, if_neg (by decide)]

end

theorem startAt_zero (d : List Byte) (ofds : List Ofd) : startAt d ofds 0 = 0 := by
  rw [startAt, Nat.zero_div, Nat.zero_mul]

section
variable (r : RunOp) (m : List Host.Cell) (k : CoreSt)

/-- The first element of an operation, and its storage with the inputs as `m` holds them. -/
def chnFirst : Nat := startAt r.desc r.ofds ((opVal r.op 1).toNat % 2 ^ 20)
def chnInputs : CoreMem := { k.mem with spad := m }

/-- The items of an operation up to element `lim`, its storage and its flags. -/
def chnItems (lim : Nat) : List Item × CoreMem × FpBits :=
  beats r.desc r.ofds r.tables lim (hLen r.desc / 256 + 2) (chnFirst r) [] (chnInputs m k) 0

/-- The storage and flags after an operation up to element `lim` has stored its items. -/
def chnStored (lim : Nat) : CoreMem × FpBits :=
  (chnItems r m k lim).1.foldl (packStep r.desc r.ofds (chnInputs m k) (chnItems r m k lim).1)
    ({ (chnItems r m k lim).2.1 with spad := k.mem.spad }, (chnItems r m k lim).2.2)

variable {r m k}

theorem chnRun_done (hf : firstFault r.desc (chnInputs m k) (hLen r.desc - chnFirst r) (chnFirst r) = none) :
    chnRun r m k = (setFp { k with mem := zeroTail r.desc 5 (zeroTail r.desc 4 (chnStored r m k (hLen r.desc)).1) }
      (chnStored r m k (hLen r.desc)).2, St.ok) := by
  unfold chnRun
  extract_lets d s0 src m0 len flt lim
  have hflt : flt = none := hf
  have hlim : lim = hLen r.desc := by
    simp only [lim, hflt]
    rfl
  simp only [hflt, hlim]
  rfl

theorem chnRun_faults {f slot cause addr : Nat}
    (hf : firstFault r.desc (chnInputs m k) (hLen r.desc - chnFirst r) (chnFirst r) = some (f, slot, cause, addr)) :
    chnRun r m k = (chsFault (setFp { k with mem := (chnStored r m k (f / granule r.desc r.ofds * granule r.desc r.ofds)).1 }
      (chnStored r m k (f / granule r.desc r.ofds * granule r.desc r.ofds)).2) f slot cause addr
        (f / granule r.desc r.ofds * granule r.desc r.ofds), St.gatherFault) := by
  unfold chnRun
  extract_lets d s0 src m0 len flt lim
  have hflt : flt = some (f, slot, cause, addr) := hf
  have hlim : lim = f / granule r.desc r.ofds * granule r.desc r.ofds := by
    simp only [lim, hflt]
    rfl
  simp only [hflt, hlim]
  rfl

end

/-- A chain of the kind that clears a scratchpad writes +0 as each of its elements. -/
theorem chnRun_clears {r : RunOp} (h : ClearsScratchpad r.desc) (hs : (opVal r.op 1).toNat % 2 ^ 20 = 0) (m : List Host.Cell) (k : CoreSt) :
    chnRun r m k = (setFp { k with mem := (List.range (hLen r.desc)).foldl (zeroPut r.desc) k.mem } 0, St.ok) := by
  have hrow : ∀ it ∈ zeroItems 0 (hLen r.desc), it.v = zeroElt ∧ it.e < stRow (strm r.desc 4) := by
    intro it hit
    obtain ⟨i, hi, rfl⟩ := List.mem_map.1 hit
    have := h.stream.2.2
    exact ⟨rfl, by simp at hi ⊢; omega⟩
  have hmap : (zeroItems 0 (hLen r.desc)).map Item.e = List.range (hLen r.desc) := by
    simp [zeroItems, Function.comp_def]
  have hfirst : chnFirst r = 0 := by
    rw [chnFirst, hs]
    exact startAt_zero ..
  have hitems : chnItems r m k (hLen r.desc) = (zeroItems 0 (hLen r.desc), chnInputs m k, 0) := by
    rw [chnItems, hfirst, h.beats _ _ _ _ _ 0 [] (Nat.zero_le _) (Or.inr (by omega)), List.nil_append, Nat.sub_zero]
  have hstored : chnStored r m k (hLen r.desc) = ((List.range (hLen r.desc)).foldl (zeroPut r.desc) k.mem, 0) := by
    rw [chnStored, hitems]
    have := h.packs r.ofds (chnInputs m k) (zeroItems 0 (hLen r.desc)) (zeroItems 0 (hLen r.desc)) k.mem hrow
    rwa [hmap] at this
  rw [chnRun_done (h.noFaults ..), hstored, h.tail _ (by decide), h.tail _ (by decide)]

/-- A scratchpad with 0 in the four bytes of element `e` of an array at `b`. -/
def wipe4 (b : Nat) (m : List Host.Cell) (e : Nat) : List Host.Cell := spadWr m (b + 4 * e) [0, 0, 0, 0]

theorem rd8_wipe4 {b e : Nat} (m : List Host.Cell) (a : Nat) (h : b + 4 * e + 4 ≤ spadSize) :
    rd8 (wipe4 b m e) a = if b + 4 * e ≤ a ∧ a < b + 4 * e + 4 then 0 else rd8 m a := by
  by_cases hin : b + 4 * e ≤ a ∧ a < b + 4 * e + 4
  · obtain ⟨j, rfl⟩ := Nat.exists_eq_add_of_le hin.1
    have hj : j < 4 := by omega
    rw [if_pos hin, wipe4, rd8_spadWr_in _ _ _ _ h hj]
    match j, hj with
    | 0, _ | 1, _ | 2, _ | 3, _ => rfl
  · rw [if_neg hin, wipe4]
    exact rd8_spadWr_out _ _ _ _ h (by simp only [List.length_cons, List.length_nil]; omega)

theorem rd8_wipes (b : Nat) (m : List Host.Cell) (a n : Nat) (hn : b + 4 * n ≤ spadSize) :
    rd8 ((List.range n).foldl (wipe4 b) m) a = if b ≤ a ∧ a < b + 4 * n then 0 else rd8 m a := by
  induction n with
  | zero =>
    rw [if_neg (by omega)]
    rfl
  | succ n ih =>
    rw [List.range_succ, List.foldl_append, List.foldl_cons, List.foldl_nil, rd8_wipe4 _ _ (by omega), ih (by omega)]
    by_cases hlast : b + 4 * n ≤ a ∧ a < b + 4 * n + 4
    · rw [if_pos hlast, if_pos (by omega)]
    · rw [if_neg hlast]
      exact if_congr (by omega) rfl rfl

theorem zeroPuts_spad (d : List Byte) : ∀ (l : List Nat) (mem : CoreMem),
    (l.foldl (zeroPut d) mem).spad = l.foldl (wipe4 (stBase (strm d 4))) mem.spad
  | [], _ => rfl
  | _ :: l, mem => zeroPuts_spad d l (zeroPut d mem _)

theorem zeroPuts_mem (d : List Byte) (l : List Nat) (mem : CoreMem) : l.foldl (zeroPut d) mem = { mem with spad := (l.foldl (zeroPut d) mem).spad } :=
  foldl_inv (inv := fun x : CoreMem => x = { mem with spad := x.spad }) (fun x e hx => by rw [zeroPut, hx]) l mem rfl

/-! ## A chain whose first element faults (R125) -/

/-- The record of a fault of the first element. -/
theorem chnRun_faultsFirst {r : RunOp} {m : List Host.Cell} {k : CoreSt} {slot cause addr : Nat} (hs : chnFirst r = 0)
    (hf : faultAt r.desc (chnInputs m k) 0 = some (slot, cause, addr)) :
    chnRun r m k = (chsFault (setFp k 0) 0 slot cause addr 0, St.gatherFault) := by
  have hlen : hLen r.desc - chnFirst r = (hLen r.desc - 1) + 1 := by
    rw [hs, hLen]
    omega
  have hfirst : firstFault r.desc (chnInputs m k) (hLen r.desc - chnFirst r) (chnFirst r) = some (0, slot, cause, addr) := by
    rw [hlen, hs, firstFault, hf]
  have hitems : chnItems r m k 0 = ([], chnInputs m k, 0) := by
    rw [chnItems, hs]
    exact if_pos le_rfl
  rw [chnRun_faults hfirst, Nat.zero_div, Nat.zero_mul, chnStored, hitems]
  rfl

theorem chsFault_fields {k : CoreSt} {slot cause addr : Nat} (h0 : k.cr.chsFault0 = 0) (hc : cause < 4) (hs : slot < 8) :
    bt (chsFault k 0 slot cause addr 0).cr.chsFault0 31 = true ∧ bf (chsFault k 0 slot cause addr 0).cr.chsFault0 29 28 = cause ∧
      bf (chsFault k 0 slot cause addr 0).cr.chsFault0 27 25 = slot ∧ bf (chsFault k 0 slot cause addr 0).cr.chsFault0 19 0 = 0 ∧
      (chsFault k 0 slot cause addr 0).cr.chsFault2 = 0 := by
  have hv : (chsFault k 0 slot cause addr 0).cr.chsFault0 = BitVec.ofNat 32 (2 ^ 31 + cause * 2 ^ 28 + slot * 2 ^ 25) := by
    have hb : bf (0 : BitVec 32) 30 30 = 0 := by decide
    rw [chsFault, h0, if_neg (by decide), hb]
    dsimp only
    rw [Nat.zero_mul, Nat.add_zero, Nat.zero_mod, Nat.add_zero]
  have hn : (BitVec.ofNat 32 (2 ^ 31 + cause * 2 ^ 28 + slot * 2 ^ 25)).toNat = 2 ^ 31 + cause * 2 ^ 28 + slot * 2 ^ 25 := by
    rw [BitVec.toNat_ofNat]
    omega
  refine ⟨?_, ?_, ?_, ?_, ?_⟩
  · rw [hv, bt, BitVec.getLsbD, hn, Nat.testBit_eq_decide_div_mod_eq, decide_eq_true_iff]
    omega
  · rw [hv, bf, hn]
    omega
  · rw [hv, bf, hn]
    omega
  · rw [hv, bf, hn]
    omega
  · rw [chsFault, h0, if_neg (by decide)]
    rfl

/-! ## Entry (R116, R132, R437) -/

/-- What the run of an operation may change of its core: its storage and its core registers. -/
def MemAndCr (k l : CoreSt) : Prop := l = { k with mem := l.mem, cr := l.cr }

theorem chsFault_memAndCr (k : CoreSt) (e slot cause addr resume : Nat) : MemAndCr k (chsFault k e slot cause addr resume) := by
  unfold chsFault
  split <;> rfl

theorem MemAndCr.trans {k l m : CoreSt} (h : MemAndCr k l) (g : MemAndCr l m) : MemAndCr k m := by
  unfold MemAndCr at *
  rw [g, h]

theorem chnRun_memAndCr (r : RunOp) (m : List Host.Cell) (k : CoreSt) :
    MemAndCr k (chnRun r m k).1 ∧ ((chnRun r m k).2 = St.ok ∨ (chnRun r m k).2 = St.gatherFault) := by
  cases hf : firstFault r.desc (chnInputs m k) (hLen r.desc - chnFirst r) (chnFirst r) with
  | none =>
    rw [chnRun_done hf]
    exact ⟨rfl, Or.inl rfl⟩
  | some f =>
    obtain ⟨f, slot, cause, addr⟩ := f
    rw [chnRun_faults hf]
    refine ⟨(?_ : MemAndCr k _).trans (chsFault_memAndCr ..), Or.inr rfl⟩
    exact rfl

/-- A core after the run of its operation `i`, which is `r`. -/
def chnEntered (r : RunOp) (i : Nat) (m : List Host.Cell) (k : CoreSt) : CoreSt :=
  setOps (chnRun r m k).1 4 (seeWrites k.mem.spad (chnRun r m k).1.mem.spad i
    ((opsOf (chnRun r m k).1 4).set i { r with stage := .finished, code := (chnRun r m k).2 }))

theorem chnEntered_ops (r : RunOp) (i : Nat) (m : List Host.Cell) (k : CoreSt) :
    opsOf (chnEntered r i m k) 4 = seeWrites k.mem.spad (chnEntered r i m k).mem.spad i
      ((opsOf k 4).set i { r with stage := .finished, code := (chnRun r m k).2 }) ∧
    (∀ u, u ≠ 4 → opsOf (chnEntered r i m k) u = opsOf k u) ∧ (chnEntered r i m k).regs = k.regs := by
  have hk := (chnRun_memAndCr r m k).1
  have hops : ∀ u, opsOf (chnRun r m k).1 u = opsOf k u := fun u => by
    rw [hk]
    rfl
  refine ⟨?_, fun u hu => ?_, ?_⟩
  · rw [chnEntered, opsOf, setOps]
    dsimp only
    rw [tget_tset_self, hops]
  · rw [chnEntered, opsOf, setOps]
    dsimp only
    rw [tget_tset_ne _ hu]
    exact hops u
  · show (chnRun r m k).1.regs = _
    rw [hk]

/-- A core with the generators of another epoch. -/
def withGens (k : CoreSt) (sd : BitVec 16) (gs : Tab (BitVec 16)) : CoreSt := { k with mem := { k.mem with genSeed := sd, gens := gs } }

theorem withEpoch_keeps (k : CoreSt) (e : Nat) (f : CoreSt → CoreSt) : ∃ sd gs, (withEpoch k e f).ops = (f (withGens k sd gs)).ops ∧
    (withEpoch k e f).regs = (f (withGens k sd gs)).regs ∧
    (withEpoch k e f).mem.spad = (f (withGens k sd gs)).mem.spad := by
  unfold withEpoch
  split
  · exact ⟨k.mem.genSeed, k.mem.gens, rfl, rfl, rfl⟩
  · exact ⟨_, _, rfl, rfl, rfl⟩

theorem withEpoch_current {k : CoreSt} (h : k.oldGens = []) (e : Nat) (f : CoreSt → CoreSt) : withEpoch k e f = f k := by
  rw [withEpoch, h, List.find?_nil]

theorem seeWrites_same (m : List Host.Cell) (i : Nat) (l : List RunOp) : seeWrites m m i l = l := by
  have hs : ∀ seen, seeChange m m seen = seen := fun seen => if_pos rfl
  simp [seeWrites, hs, List.mapIdx_eq_iff]

section
variable {c : Core} {s : State} {r : RunOp} {i : Nat}

/-- CHN_FIRST_BEAT of an operation that may enter. -/
theorem execChnFirstBeat_ready (hr : Ready (getCore s c.val) 4 i r) (hk : r.op.kind = .chn) (hser : hSer r.desc = true → i = 0)
    (hct : ∀ j < i, ∀ x, (opsOf (getCore s c.val) 4)[j]? = some x → x.op.kind ≠ .ctbl) :
    exec (.chnFirstBeat c) s = .next (setCore (racedView s r.seen (getCore s c.val).mem.spad).2 c.val
      (withEpoch (getCore s c.val) r.epoch (chnEntered r i (racedView s r.seen (getCore s c.val).mem.spad).1))) := by
  have hexec : exec (.chnFirstBeat c) s = execChnFirstBeat c s := rfl
  have hall : (((opsOf (getCore s c.val) 4).take i).all fun q => decide (q.op.kind ≠ .ctbl)) = true := by
    rw [List.all_eq_true]
    intro q hq
    obtain ⟨j, hj, rfl⟩ := List.getElem_of_mem hq
    rw [List.length_take] at hj
    refine decide_eq_true (hct j (by omega) _ ?_)
    rw [List.getElem_take, List.getElem?_eq_getElem]
  have hser' : (!hSer r.desc || decide (i = 0)) = true := by
    cases hs : hSer r.desc
    · rfl
    · rw [hser hs]
      rfl
  rw [hexec]
  unfold execChnFirstBeat
  simp only [hr.waiting, hr.free, hk, hser', hall, decide_true, Bool.and_true, Bool.not_true, Bool.false_eq_true, if_false]
  rfl

theorem onlyCore_raced (s : State) (seen m : List Host.Cell) (c : Nat) (k : CoreSt) :
    OnlyCore { s with free := (setCore (racedView s seen m).2 c k).free } (setCore (racedView s seen m).2 c k) c := by
  have hfree := racedView_free s seen m
  generalize racedView s seen m = v at hfree
  rw [setCore_free]
  exact hfree ▸ onlyCore_setCore v.2 c k

/-- A chain enters and has finished with a code. -/
theorem chn_enters (hr : Ready (getCore s c.val) 4 i r) (hk : r.op.kind = .chn) (hser : hSer r.desc = true → i = 0)
    (hct : ∀ j < i, ∀ x, (opsOf (getCore s c.val) 4)[j]? = some x → x.op.kind ≠ .ctbl) :
    ∃ t code, exec (.chnFirstBeat c) s = .next t ∧ OnlyCore { s with free := t.free } t c.val ∧ (code = St.ok ∨ code = St.gatherFault) ∧
      (getCore t c.val).regs = (getCore s c.val).regs ∧ (∀ u < 4, opsOf (getCore t c.val) u = opsOf (getCore s c.val) u) ∧
      opsOf (getCore t c.val) 4 = seeWrites (getCore s c.val).mem.spad (getCore t c.val).mem.spad i
        ((opsOf (getCore s c.val) 4).set i { r with stage := .finished, code := code }) := by
  obtain ⟨sd, gs, hops, hregs, hspad⟩ := withEpoch_keeps (getCore s c.val) r.epoch
    (chnEntered r i (racedView s r.seen (getCore s c.val).mem.spad).1)
  obtain ⟨hfour, hothers, hkeep⟩ := chnEntered_ops r i (racedView s r.seen (getCore s c.val).mem.spad).1
    (withGens (getCore s c.val) sd gs)
  have hget : ∀ u, opsOf (withEpoch (getCore s c.val) r.epoch (chnEntered r i (racedView s r.seen (getCore s c.val).mem.spad).1)) u =
      opsOf (chnEntered r i (racedView s r.seen (getCore s c.val).mem.spad).1
        (withGens (getCore s c.val) sd gs)) u := fun u => by
    rw [opsOf, hops, ← opsOf]
  refine ⟨_, (chnRun r (racedView s r.seen (getCore s c.val).mem.spad).1 (withGens (getCore s c.val) sd gs)).2,
    execChnFirstBeat_ready hr hk hser hct, onlyCore_raced .., (chnRun_memAndCr r _ _).2, ?_, fun u hu => ?_, ?_⟩
  · rw [getCore_setCore_self, hregs, hkeep]
    rfl
  · rw [getCore_setCore_self, hget]
    exact hothers u (by omega)
  · rw [getCore_setCore_self, hget, hspad]
    exact hfour

/-- A chain of the current epoch enters with its storage as it stands. -/
theorem chn_entersNow (hr : Ready (getCore s c.val) 4 i r) (hk : r.op.kind = .chn) (hser : hSer r.desc = true → i = 0)
    (hct : ∀ j < i, ∀ x, (opsOf (getCore s c.val) 4)[j]? = some x → x.op.kind ≠ .ctbl) (hold : (getCore s c.val).oldGens = []) :
    exec (.chnFirstBeat c) s = .next (setCore (racedView s r.seen (getCore s c.val).mem.spad).2 c.val
      (chnEntered r i (racedView s r.seen (getCore s c.val).mem.spad).1 (getCore s c.val))) := by
  rw [execChnFirstBeat_ready hr hk hser hct, withEpoch_current hold]

theorem setOps_cr (k : CoreSt) (u : Nat) (l : List RunOp) : (setOps k u l).cr = k.cr := rfl
theorem setOps_fault (k : CoreSt) (u : Nat) (l : List RunOp) : (setOps k u l).fault = k.fault := rfl

theorem chnEntered_of {k l : CoreSt} {m : List Host.Cell} {code : Code} (hrun : chnRun r m k = (l, code)) :
    (chnEntered r i m k).mem = l.mem ∧ (chnEntered r i m k).cr = l.cr ∧ (chnEntered r i m k).fault = l.fault ∧
      opsOf (chnEntered r i m k) 4 = seeWrites k.mem.spad l.mem.spad i ((opsOf k 4).set i { r with stage := .finished, code := code }) := by
  have hops := (chnEntered_ops r i m k).1
  have hmem : (chnEntered r i m k).mem = l.mem := by rw [chnEntered, setOps_mem, hrun]
  rw [hmem, hrun] at hops
  exact ⟨hmem, by rw [chnEntered, setOps_cr, hrun], by rw [chnEntered, setOps_fault, hrun], hops⟩

/-! ## CFOLD (R129) -/

/-- One output of a CFOLD, with its inputs in `m0`, from the storage, the flags and the mark of the outputs before it. -/
def cfoldStep (o : HeldOp) (m0 : CoreMem) (acc : CoreMem × FpBits × Bool) (c : Nat × Nat) : CoreMem × FpBits × Bool :=
  let a := off8 (opVal o 1) + c.1 * off8 (opVal o 2) + 8 * c.2
  let rec0 := spadRd m0.spad (off16 (opVal o 0)) 512
  let v := cfoldOut o m0 (leNat (spadRd m0.spad a 8)) (fieldLe rec0 (4 * c.1) 4) (fieldLe rec0 (256 + 4 * c.2) 4) c.1 c.2
  ({ acc.1 with spad := spadWr acc.1.spad a (toLe 8 v.1) }, acc.2.1 ||| v.2.1, acc.2.2 || v.2.2)

/-- Every output of a CFOLD. -/
def cfoldAll (o : HeldOp) (m : List Host.Cell) (k : CoreSt) : CoreMem × FpBits × Bool :=
  ((List.range (cfM o.w0)).flatMap fun i => (List.range (cfN o.w0)).map fun j => (i, j)).foldl (cfoldStep o { k.mem with spad := m })
    (k.mem, 0, false)

theorem cfoldRun_eq (o : HeldOp) (m : List Host.Cell) (k : CoreSt) : cfoldRun o m k =
    if (cfoldAll o m k).2.2 then (setFp (setFp { k with mem := (cfoldAll o m k).1 } (cfoldAll o m k).2.1) fSPREAD, St.spreadExceeded)
    else (setFp { k with mem := (cfoldAll o m k).1 } (cfoldAll o m k).2.1, St.ok) := rfl

theorem cfoldAll_mem (o : HeldOp) (m : List Host.Cell) (k : CoreSt) :
    (cfoldAll o m k).1 = { k.mem with spad := (cfoldAll o m k).1.spad } :=
  foldl_inv (inv := fun acc : CoreMem × FpBits × Bool => acc.1 = { k.mem with spad := acc.1.spad })
    (fun acc x hx => by rw [cfoldStep, hx]) _ _ rfl

/-- A CFOLD writes no accumulator, and finishes with OK or SPREAD_EXCEEDED. -/
theorem cfoldRun_memAndCr (o : HeldOp) (m : List Host.Cell) (k : CoreSt) : (cfoldRun o m k).1.ops = k.ops ∧
    (cfoldRun o m k).1.mem = { k.mem with spad := (cfoldRun o m k).1.mem.spad } ∧
    ((cfoldRun o m k).2 = St.ok ∨ (cfoldRun o m k).2 = St.spreadExceeded) := by
  rw [cfoldRun_eq]
  split
  · exact ⟨rfl, cfoldAll_mem o m k, Or.inr rfl⟩
  · exact ⟨rfl, cfoldAll_mem o m k, Or.inl rfl⟩

/-- An operation that has run with `code`. -/
def ranWith (r : RunOp) (code : Code) : RunOp := { r with stage := .finished, code := code }

theorem execCfoldFirstRow_ready (hr : Ready (getCore s c.val) 4 0 r) (hk : r.op.kind = .cfold) :
    exec (.cfoldFirstRow c) s = .next (setCore (racedView s r.seen (getCore s c.val).mem.spad).2 c.val
      (setOps (cfoldRun r.op (racedView s r.seen (getCore s c.val).mem.spad).1 (getCore s c.val)).1 4
        (seeWrites (getCore s c.val).mem.spad
          (cfoldRun r.op (racedView s r.seen (getCore s c.val).mem.spad).1 (getCore s c.val)).1.mem.spad 0
          ((opsOf (cfoldRun r.op (racedView s r.seen (getCore s c.val).mem.spad).1 (getCore s c.val)).1 4).set 0
            (ranWith r (cfoldRun r.op (racedView s r.seen (getCore s c.val).mem.spad).1 (getCore s c.val)).2))))) := by
  have hexec : exec (.cfoldFirstRow c) s = execCfoldFirstRow c s := rfl
  rw [hexec]
  unfold execCfoldFirstRow
  simp only [hr.waiting, hr.free, hk, and_self, decide_true, Bool.and_true, Bool.not_true, Bool.false_eq_true, if_false]
  rfl

theorem cfold_enters (hr : Ready (getCore s c.val) 4 0 r) (hk : r.op.kind = .cfold) : ∃ t r', exec (.cfoldFirstRow c) s = .next t ∧
    OnlyCore { s with free := t.free } t c.val ∧
    (getCore t c.val).mem = { (getCore s c.val).mem with spad := (getCore t c.val).mem.spad } ∧
    opsOf (getCore t c.val) 4 = seeWrites (getCore s c.val).mem.spad (getCore t c.val).mem.spad 0
      ((opsOf (getCore s c.val) 4).set 0 r') ∧ r'.stage = .finished ∧ (r'.code = St.ok ∨ r'.code = St.spreadExceeded) := by
  obtain ⟨hops, hmem, hcode⟩ := cfoldRun_memAndCr r.op (racedView s r.seen (getCore s c.val).mem.spad).1 (getCore s c.val)
  refine ⟨_, ranWith r _, execCfoldFirstRow_ready hr hk, onlyCore_raced .., ?_, ?_, rfl, hcode⟩
  · rw [getCore_setCore_self]
    exact hmem
  · rw [getCore_setCore_self, opsOf, setOps]
    dsimp only
    rw [tget_tset_self, opsOf, hops, ← opsOf]

end

/-- Settles O35: a chain enters and runs, in general and in its two special kinds, and so does a CFOLD. -/
theorem chiselOperationsEnter : Obligations.ChiselOperationsEnter := by
  intro c s r i
  refine ⟨fun hr hk hser hct => ⟨chn_enters hr hk hser hct, fun _ hold => ⟨fun h hs hroom => ?_, fun slot cause addr hs hf hc hsl h0 => ?_⟩⟩,
    cfold_enters⟩
  · obtain ⟨hmem, _, _, hops⟩ := chnEntered_of (i := i) (chnRun_clears h hs (racedView s r.seen (getCore s c.val).mem.spad).1 (getCore s c.val))
    refine ⟨_, chn_entersNow hr hk hser hct hold, onlyCore_raced .., ?_⟩
    rw [getCore_setCore_self, hmem, hops]
    refine ⟨zeroPuts_mem .., fun a => ?_, rfl⟩
    show rd8 ((List.range (hLen r.desc)).foldl (zeroPut r.desc) (getCore s c.val).mem).spad a = _
    rw [zeroPuts_spad]
    exact rd8_wipes _ _ _ _ hroom
  · obtain ⟨hmem, hcr, hfault, hops⟩ := chnEntered_of (i := i) (chnRun_faultsFirst (m := (racedView s r.seen (getCore s c.val).mem.spad).1)
      (k := getCore s c.val) hs hf)
    have hsame : (chsFault (setFp (getCore s c.val) 0) 0 slot cause addr 0).mem = (getCore s c.val).mem := by
      unfold chsFault
      split <;> rfl
    have hfsame : (chsFault (setFp (getCore s c.val) 0) 0 slot cause addr 0).fault = (getCore s c.val).fault := by
      unfold chsFault
      split <;> rfl
    obtain ⟨h1, h2, h3, h4, h5⟩ := chsFault_fields (k := setFp (getCore s c.val) 0) (addr := addr) h0 hc hsl
    refine ⟨_, chn_entersNow hr hk hser hct hold, onlyCore_raced .., ?_⟩
    rw [getCore_setCore_self, hmem, hcr, hfault, hops, hsame, hfsame, seeWrites_same]
    exact ⟨rfl, h1, h2, h3, h4, h5, rfl, rfl⟩

/-! ## Completion (R119, R128, R134) -/

section
variable {c : Core} {s : State} {r : RunOp} {i : Nat} {kind : EngKind}

theorem findKind_first (hl : (opsOf (getCore s c.val) 4)[i]? = some r) (hk : r.op.kind = kind)
    (hf : ∀ j < i, ∀ x, (opsOf (getCore s c.val) 4)[j]? = some x → x.op.kind ≠ kind) :
    (opsOf (getCore s c.val) 4).findIdx (fun r => decide (r.op.kind = kind)) = i :=
  findIdx_first hl (decide_eq_true hk) fun j hj x hx => decide_eq_false (hf j hj x hx)

/-- The oldest operation of a kind, once it has finished, completes with its code. -/
theorem completeChisel_first (hl : (opsOf (getCore s c.val) 4)[i]? = some r) (hk : r.op.kind = kind)
    (hf : ∀ j < i, ∀ x, (opsOf (getCore s c.val) 4)[j]? = some x → x.op.kind ≠ kind) (hs : r.stage = .finished)
    (hd : r.op.direct = false) (hc : r.code ≠ St.fmtReserved) (hr : (getCore s c.val).retireDue = false) :
    completeChisel c s kind = setCore s c.val (completeUnit (setOps (getCore s c.val) 4 ((opsOf (getCore s c.val) 4).eraseIdx i)) 4
      r.code r.op.disp) := by
  unfold completeChisel
  simp only [findKind_first hl hk hf, hl, hs, ne_eq, not_true_eq_false, if_false, finish_ok _ _ _ _ hd hc]
  rw [retireIfDue_not (by exact hr)]

/-- What a completion leaves of a core whose operation `i` ends. -/
theorem completesUnit_fields (s : State) (c u i : Nat) (code : Code) (disp : Nat) {k : CoreSt} (hcr : k.cr = (getCore s c).cr)
    (hops : k.ops = (getCore s c).ops) :
    Completes (getCore s c) (completeUnit (setOps k u ((opsOf k u).eraseIdx i)) u code disp) u code disp ∧
      opsOf (completeUnit (setOps k u ((opsOf k u).eraseIdx i)) u code disp) u = (opsOf (getCore s c) u).eraseIdx i := by
  refine ⟨(Completes.of (setOps k u ((opsOf k u).eraseIdx i)) u code disp).mono hcr.symm rfl, ?_⟩
  have : opsOf k u = opsOf (getCore s c) u := by rw [opsOf, hops, ← opsOf]
  rw [← this]
  exact tget_tset_self ..

theorem chisel_completes (hl : (opsOf (getCore s c.val) 4)[i]? = some r) (hk : r.op.kind = kind)
    (hf : ∀ j < i, ∀ x, (opsOf (getCore s c.val) 4)[j]? = some x → x.op.kind ≠ kind) (hs : r.stage = .finished)
    (hd : r.op.direct = false) (hc : r.code ≠ St.fmtReserved) (hr : (getCore s c.val).retireDue = false) :
    OnlyCore s (completeChisel c s kind) c.val ∧
      Completes (getCore s c.val) (getCore (completeChisel c s kind) c.val) 4 r.code r.op.disp ∧
      opsOf (getCore (completeChisel c s kind) c.val) 4 = (opsOf (getCore s c.val) 4).eraseIdx i ∧
      (getCore (completeChisel c s kind) c.val).mem = (getCore s c.val).mem := by
  rw [completeChisel_first hl hk hf hs hd hc hr, getCore_setCore_self]
  have h := completesUnit_fields s c.val 4 i r.code r.op.disp (k := getCore s c.val) rfl rfl
  exact ⟨onlyCore_setCore .., h.1, h.2, rfl⟩

/-- The image that a CTBL reads (R119). -/
def ctblImage (r : RunOp) (m : List Host.Cell) : List Byte := spadRd m (off16 (opVal r.op 0)) (64 + 16 * 2 ^ bf r.op.w0 53 50)

/-- The shadow slot that a CTBL fills. -/
def ctblShadow (r : RunOp) (m : List Host.Cell) : FShadow :=
  ⟨BitVec.ofNat 22 (off16 (opVal r.op 0)), BitVec.ofNat 4 (bf r.op.w0 53 50), some ⟨BitVec.ofNat 4 (bf r.op.w0 53 50), ctblImage r m⟩⟩

/-- A core whose shadow slot `n` holds `f`. -/
def withShadow (k : CoreSt) (n : Nat) (f : FShadow) : CoreSt := { k with mem := { k.mem with shadow := tset none k.mem.shadow n (some f) } }

theorem zeros_ctblImage {m : List Host.Cell}
    (hz : ∀ j, 28 ≤ j → j < 64 → rd8 m ((off16 (opVal r.op 0) + j) % 4194304) = 0) : zeros (ctblImage r m) 28 36 = true := by
  have hlen : 64 ≤ (ctblImage r m).length := by
    rw [ctblImage, spadRd_length]
    exact Nat.le_add_right ..
  have hget : ∀ (i : Nat) (hi : i < (ctblImage r m).length), 28 ≤ i → i < 64 → (ctblImage r m)[i] = 0 := fun i hi h1 h2 => by
    rw [← hz i h1 h2]
    simp only [ctblImage, spadRd, List.getElem_map, List.getElem_range, spadSize]
  unfold zeros slice
  extract_lets t
  rw [List.all_append, Bool.and_eq_true, List.all_eq_true, List.all_eq_true]
  refine ⟨fun x hx => beq_iff_eq.2 ?_, fun x hx => beq_iff_eq.2 (List.eq_of_mem_replicate hx)⟩
  obtain ⟨j, hj, rfl⟩ := List.getElem_of_mem hx
  have hj' : j < 36 := by
    simp only [t, List.length_take] at hj
    omega
  rw [List.getElem_take, List.getElem_drop]
  exact hget _ _ (by omega) (by omega)

theorem execCtblComplete_first (hl : (opsOf (getCore s c.val) 4)[i]? = some r) (hk : r.op.kind = .ctbl) (hd : r.op.direct = false)
    (hr : (getCore s c.val).retireDue = false)
    (hf : ∀ j < i, ∀ x, (opsOf (getCore s c.val) 4)[j]? = some x → x.op.kind ≠ .ctbl)
    (hz : zeros (ctblImage r (racedView s r.seen (getCore s c.val).mem.spad).1) 28 36 = true) :
    exec (.ctblComplete c) s = .next (setCore (racedView s r.seen (getCore s c.val).mem.spad).2 c.val
      (completeUnit (withShadow (setOps (getCore s c.val) 4 ((opsOf (getCore s c.val) 4).eraseIdx i)) (bf r.op.w0 55 54)
        (ctblShadow r (racedView s r.seen (getCore s c.val).mem.spad).1)) 4 St.ok r.op.disp)) := by
  have hexec : exec (.ctblComplete c) s = execCtblComplete c s := rfl
  have hz' : zeros (spadRd (racedView s r.seen (getCore s c.val).mem.spad).1 (off16 (opVal r.op 0)) (64 + 16 * 2 ^ bf r.op.w0 53 50)) 28 36 =
    true := hz
  rw [hexec]
  unfold execCtblComplete
  simp only [findKind_first hl hk hf, hl, hz', Bool.not_true, Bool.false_eq_true, if_false,
    finish_ok _ _ _ St.ok hd (by decide)]
  rw [retireIfDue_not (by exact hr)]
  rfl

/-! ## The direct stream operation (R128) -/

/-- The operation that a GO of CHS_DIRECT starts. -/
def directOp (k : CoreSt) (v : BitVec 32) : HeldOp := ⟨.chn, 0, 0, k.dispNo, 0, [BitVec.ofNat 64 (bf v 21 0), 0], true⟩

/-- A core whose CHS_DIRECT has taken a new CD_OFF, and one that is BUSY besides. -/
def cdOffSet (k : CoreSt) (v : BitVec 32) : CoreSt := { k with cr := { k.cr with chsDirect := sf k.cr.chsDirect 21 0 (bf v 21 0) } }
def cdBusy (k : CoreSt) (v : BitVec 32) : CoreSt :=
  { cdOffSet k v with cr := { (cdOffSet k v).cr with chsDirect := sb (cdOffSet k v).cr.chsDirect 30 true } }

theorem chsDirectWrite_stays {k : CoreSt} {v : BitVec 32}
    (h : v.getLsbD 31 = false ∨ holdsNone k = false ∨ bt k.cr.chsDirect 30 = true) : chsDirectWrite k v = cdOffSet k v := by
  have hgo : ¬ (bt v 31 && !bt k.cr.chsDirect 30 && holdsNone k) = true := by
    obtain hv | hn | hb := h
    · rw [bt, hv, Bool.false_and, Bool.false_and]
      decide
    · rw [hn, Bool.and_false]
      decide
    · rw [hb, Bool.not_true, Bool.and_false, Bool.false_and]
      decide
  unfold chsDirectWrite
  extract_lets k1 k2
  rw [if_neg hgo]
  rfl

theorem chsDirectWrite_goes {k : CoreSt} {v : BitVec 32} (hv : v.getLsbD 31 = true) (hn : holdsNone k = true)
    (hb : bt k.cr.chsDirect 30 = false) : chsDirectWrite k v = acceptChn (cdBusy k v) (directOp k v) true := by
  unfold chsDirectWrite
  extract_lets k1 k2
  rw [if_pos (by rw [hn, hb, bt, hv]; rfl)]
  rfl

theorem finishOp_direct (k : CoreSt) (u : Nat) (code : Code) {o : HeldOp} (hd : o.direct = true) :
    finishOp k u o code = { k with cr := { k.cr with chsDirect := sf (sb k.cr.chsDirect 30 false) 29 22 code.toNat } } := if_pos hd

/-- The direct stream operation starts at element 0. -/
theorem directOp_starts (k : CoreSt) (v : BitVec 32) (d : List Byte) (ofds : List Ofd) :
    ¬ hLen d ≤ startAt d ofds ((opVal (directOp k v) 1).toNat % 2 ^ 20) := by
  have h0 : (opVal (directOp k v) 1).toNat % 2 ^ 20 = 0 := rfl
  rw [h0, startAt_zero, hLen]
  omega

theorem directOp_desc (k : CoreSt) (v : BitVec 32) :
    chainDesc (cdBusy k v) (directOp k v) = spadRd k.mem.spad (bf v 21 0 / 16 * 16) 160 := by
  have hlt := bf_lt v 21 0
  have hoff : off16 (opVal (directOp k v) 0) = bf v 21 0 / 16 * 16 := by
    have hval : opVal (directOp k v) 0 = BitVec.ofNat 64 (bf v 21 0) := rfl
    rw [off16, hval, BitVec.toNat_ofNat, Nat.mod_eq_of_lt (a := bf v 21 0) (by omega), Nat.mod_eq_of_lt (by unfold spadSize; omega)]
  rw [chainDesc, hoff]
  rfl

end

/-- Settles O36: completions, the image of a CTBL, and CHS_DIRECT. -/
theorem chiselOperationsComplete : Obligations.ChiselOperationsComplete := by
  intro c s r i
  refine ⟨fun p hp hl hk hf hs hd hc hr => ?_, fun hl hk hd hr hf => ?_, fun v => ⟨_, rfl, onlyCore_modCore .., fun h => ?_, fun hv hn hb => ?_⟩⟩
  · have hexec : exec p.1 s = .next (completeChisel c s p.2) := by
      simp only [List.mem_cons, List.not_mem_nil, or_false] at hp
      obtain rfl | rfl := hp <;> rfl
    exact ⟨_, hexec, chisel_completes hl hk hf hs hd hc hr⟩
  · intro v hz
    have h := completesUnit_fields s c.val 4 i St.ok r.op.disp (k := getCore s c.val) rfl rfl
    refine ⟨_, ctblShadow r v, execCtblComplete_first hl hk hd hr hf (zeros_ctblImage hz), onlyCore_raced .., racedView_readAs s _ _, ?_⟩
    rw [getCore_setCore_self]
    exact ⟨(Completes.of _ 4 St.ok r.op.disp).mono rfl rfl, rfl, fun n => tget_tset .., rfl⟩
  · rw [getCore_modCore_self, chsDirectWrite_stays h]
    exact ⟨rfl, rfl, bf_sf_bf _ _ _ _ (by decide), bt_sf_out _ _ _ _ _ (Or.inr (by decide))⟩
  · have hofds : chainOfds (cdBusy (getCore s c.val) v) = chainOfds (getCore s c.val) := rfl
    have hts : activeTables (cdBusy (getCore s c.val) v) = activeTables (getCore s c.val) := rfl
    have hacc := acceptChn_of (cdBusy (getCore s c.val) v) (directOp (getCore s c.val) v) true
    rw [directOp_desc, hofds, hts, if_neg (directOp_starts (getCore s c.val) v _ _)] at hacc
    rw [getCore_modCore_self, chsDirectWrite_goes hv hn hb, hacc]
    dsimp only
    refine ⟨fun hok => ?_, fun hok => ?_⟩
    · rw [if_pos hok, finishOp_direct _ _ _ rfl]
      refine ⟨?_, ?_, rfl, rfl⟩
      · dsimp only
        rw [bt_sf_out _ _ _ _ _ (Or.inr (by decide)), bt_sb _ _ _ (by decide)]
      · dsimp only
        rw [bf_sf_same _ _ _ _ (by decide)]
        rfl
    · rw [if_neg (by rw [hok]; decide)]
      exact ⟨bt_sb _ _ _ (by decide), ⟨directOp (getCore s c.val) v, .checked, chainTiles _, [], St.ok, _, _, [], [], _, _, _⟩, rfl, rfl, rfl,
        tget_tset_self ..⟩

end Sys2Proof.Machine
end

section
/-!
PROOF. Entries at the head of their queues: the pop, the start and the end (R185 to R190, R207 to R219).
-/

namespace Sys2Proof.Machine

/-! ## The queue that pops next (R219) -/

/-- The first element that a predicate accepts in a list whose keys rise is the one of the least key. -/
theorem find_least {α : Type} {f : α → Nat} {p : α → Bool} {q : α} : ∀ {l : List α}, (l.map f).Pairwise (· < ·) → q ∈ l → p q = true →
    (∀ d ∈ l, p d = true → f q ≤ f d) → l.find? p = some q
  | d :: l, hl, hq, hp, hm => by
    obtain ⟨hd, hl⟩ := List.pairwise_cons.1 hl
    rw [List.find?_cons]
    cases hpd : p d with
    | true =>
      have hle := hm d (List.mem_cons_self ..) hpd
      obtain rfl | hmem := List.mem_cons.1 hq
      · rfl
      · exact absurd (hd (f q) (List.mem_map_of_mem hmem)) (by omega)
    | false =>
      obtain rfl | hmem := List.mem_cons.1 hq
      · rw [hp] at hpd
        cases hpd
      · exact find_least hl hmem hp fun d' hd' => hm d' (List.mem_cons_of_mem _ hd')

theorem head?_eq_find? {α : Type} (l : List α) : l.head? = l.find? fun _ => true := by
  cases l <;> rfl

theorem findSome?_range {β : Type} {f : Nat → Option β} {i : Nat} {b : β} (hb : f i = some b) (hn : ∀ j < i, f j = none) :
    ∀ n, i < n → (List.range n).findSome? f = some b
  | n + 1, hi => by
    rw [List.range_succ, List.findSome?_append]
    by_cases he : i = n
    · subst he
      have hnone : (List.range i).findSome? f = none := List.findSome?_eq_none_iff.2 fun j hj => hn j (List.mem_range.1 hj)
      rw [hnone, List.findSome?_cons, hb]
      rfl
    · rw [findSome?_range hb hn n (by omega)]
      rfl

section
variable {α : Type} [DecidableEq α] {d : α}

/-- The keys of a table in canonical form rise, and each entry is what its key reads. -/
theorem tabWfFrom_keys : ∀ {t : Tab α} {lo : Nat}, tabWfFrom d lo t = true →
    (t.map Prod.fst).Pairwise (· < ·) ∧ ∀ e ∈ t, lo ≤ e.1 ∧ tget d t e.1 = e.2
  | [], _, _ => ⟨List.Pairwise.nil, fun _ h => absurd h List.not_mem_nil⟩
  | (j, x) :: t, lo, h => by
    simp only [tabWfFrom, Bool.and_eq_true, decide_eq_true_eq] at h
    obtain ⟨hj, _, ht⟩ := h
    obtain ⟨hsort, hread⟩ := tabWfFrom_keys ht
    refine ⟨List.pairwise_cons.2 ⟨fun k hk => ?_, hsort⟩, fun e he => ?_⟩
    · obtain ⟨e, he, rfl⟩ := List.mem_map.1 hk
      exact (hread e he).1
    · obtain rfl | he := List.mem_cons.1 he
      · exact ⟨hj, if_pos rfl⟩
      · have hlt := (hread e he).1
        refine ⟨by omega, ?_⟩
        rw [tget, if_neg (by omega), if_neg (by omega)]
        exact (hread e he).2

omit [DecidableEq α] in
/-- What a key reads, where it is not the default, is an entry. -/
theorem mem_of_tget {k : Nat} : ∀ {t : Tab α}, tget d t k ≠ d → (k, tget d t k) ∈ t
  | [], h => absurd rfl h
  | (j, x) :: t, h => by
    rw [tget] at h ⊢
    by_cases h1 : k = j
    · rw [if_pos h1, h1]
      exact List.mem_cons_self ..
    · rw [if_neg h1] at h ⊢
      by_cases h2 : k < j
      · exact absurd (if_pos h2) h
      · rw [if_neg h2] at h ⊢
        exact List.mem_cons_of_mem _ (mem_of_tget h)

end

/-- The queues that can pop at a priority. -/
def poppable (s : State) (p : Nat) : List Nat := (s.queues.filter fun q => canPop q.2 && decide (qPrio q.2 = p)).map Prod.fst

theorem mem_poppable {s : State} (h : tabWf {} s.queues = true) {p d : Nat} :
    d ∈ poppable s p ↔ canPop (getQueue s d) = true ∧ qPrio (getQueue s d) = p := by
  have hread := (tabWfFrom_keys h).2
  rw [poppable, List.mem_map]
  constructor
  · rintro ⟨e, he, rfl⟩
    obtain ⟨hmem, hp⟩ := List.mem_filter.1 he
    rw [getQueue, (hread e hmem).2]
    simpa using hp
  · rintro ⟨hc, hp⟩
    have hne : getQueue s d ≠ {} := by
      intro he
      rw [he] at hc
      exact absurd hc (by decide)
    exact ⟨(d, getQueue s d), List.mem_filter.2 ⟨mem_of_tget hne, by simp [hc, hp]⟩, rfl⟩

theorem poppable_sorted {s : State} (h : tabWf {} s.queues = true) (p : Nat) : ((poppable s p).map id).Pairwise (· < ·) := by
  rw [List.map_id]
  exact (tabWfFrom_keys h).1.sublist (List.filter_sublist.map _)

/-- The choice at one priority. -/
def popAt (s : State) (p : Nat) : Option Nat :=
  match (poppable s p).find? fun q => decide (tget 16383 s.lastPop p < q) with
  | some q => some q
  | none => (poppable s p).head?

theorem popChoice_eq (s : State) : popChoice s = (List.range 4).findSome? (popAt s) := rfl

theorem popAt_nil {s : State} {p : Nat} (h : poppable s p = []) : popAt s p = none := by
  rw [popAt, h]
  rfl

/-- The front end pops the queue of the most urgent priority whose turn it is. -/
theorem popChoice_of {s : State} {q : Nat} (h : tabWf {} s.queues = true) (hp : PopsNext s q) : popChoice s = some q := by
  have hlt : qPrio (getQueue s q) < 4 := bf_lt (getQueue s q).ctl 29 28
  have hmem : q ∈ poppable s (qPrio (getQueue s q)) := (mem_poppable h).2 ⟨hp.can, rfl⟩
  rw [popChoice_eq]
  refine findSome?_range (i := qPrio (getQueue s q)) ?_ (fun j hj => popAt_nil ?_) 4 hlt
  · have hturn := fun d hd => hp.turn d ((mem_poppable h).1 hd).1 ((mem_poppable h).1 hd).2
    have hsort := poppable_sorted h (qPrio (getQueue s q))
    rw [popAt]
    by_cases hq : tget 16383 s.lastPop (qPrio (getQueue s q)) < q
    · rw [find_least hsort hmem (decide_eq_true hq) fun d hd hlast => ?_]
      have := hturn d hd
      have := of_decide_eq_true hlast
      rw [id_eq, id_eq]
      omega
    · have hnone : (poppable s (qPrio (getQueue s q))).find? (fun d => decide (tget 16383 s.lastPop (qPrio (getQueue s q)) < d)) = none := by
        rw [List.find?_eq_none]
        intro d hd
        have := hturn d hd
        rw [decide_eq_true_iff]
        omega
      rw [hnone, head?_eq_find?]
      refine find_least hsort hmem rfl fun d hd _ => ?_
      have := hturn d hd
      rw [id_eq, id_eq]
      omega
  · rw [List.eq_nil_iff_forall_not_mem]
    intro d hd
    obtain ⟨hc, hprio⟩ := (mem_poppable h).1 hd
    have := hp.urgent d hc
    omega

/-! ## The pop (R185, R188, R189, R207) -/

section
variable {s s1 : State} {q : Nat} {r : Reply} {c : Code} {bs : List Byte}

theorem MemorySide.lastPop (h : MemorySide s s1) : s1.lastPop = s.lastPop := by rw [h]

/-- The address of the entry at RPTR. -/
def popAddr (k : Queue) : BitVec 64 := BitVec.ofNat 64 (bf k.base 63 12 * 4096 + 64 * (k.rptr.toNat % qSize k))

/-- The state `u` after queue `q` has popped an entry `bs`, read with code `c`, that was in place `k`. -/
def popTaken (u s : State) (q : Nat) (k : Queue) (c : Code) (bs : List Byte) : State :=
  setQueue { u with lastPop := tset 16383 s.lastPop (qPrio k) q } q
    { k with rptr := k.rptr + 1, run := some (freshRun bs (decide (c = St.ok)) k.rptr s.plumb.count) }

theorem popped_eq (hs : MemorySide s s1) (q : Nat) (k : Queue) (c : Code) (bs : List Byte) : popped s1 q k c bs =
    if c ≠ St.ok then guilty (popTaken s1 s q k c bs) q c (noPacket c) false
    else if !entryOk k bs then guilty (popTaken s1 s q k c bs) q St.cmdReserved (noPacket St.cmdReserved) true
    else if launches k c bs then pin (popTaken s1 s q k c bs) q bs
    else popTaken s1 s q k c bs := by
  have h : setQueue { s1 with lastPop := tset 16383 s1.lastPop (qPrio k) q } q
      { k with rptr := k.rptr + 1, run := some (freshRun bs (decide (c = St.ok)) k.rptr s1.plumb.count) } = popTaken s1 s q k c bs := by
    rw [popTaken, ← hs.lastPop, ← hs.plumb]
  rw [← h]
  rfl

theorem getQueue_popTaken (u s : State) (q : Nat) (k : Queue) (c : Code) (bs : List Byte) : getQueue (popTaken u s q k c bs) q =
    { k with rptr := k.rptr + 1, run := some (freshRun bs (decide (c = St.ok)) k.rptr s.plumb.count) } := getQueue_setQueue_self ..

/-- What becomes of a launch after its probe: it waits for a page, or is popped. -/
def launchTaken (x : Bool × State) (q : Nat) (k : Queue) (c : Code) (bs : List Byte) : State :=
  if x.1 then x.2 else popped x.2 q k c bs

theorem execQueuePop_read (hw : tabWf {} s.queues = true) (hp : PopsNext s q)
    (hr : hubRead s (qCtx (getQueue s q)) 2 (popAddr (getQueue s q)) 64 r = ⟨c, bs, s1⟩) (hc : c ≠ St.migratePending) :
    exec (.queuePop r) s = .next (if launches (getQueue s q) c bs then
      launchTaken (launchProbe s1 (getQueue s q) bs) q (getQueue s q) c bs else popped s1 q (getQueue s q) c bs) := by
  have hexec : exec (.queuePop r) s = execQueuePop r s := rfl
  rw [popAddr] at hr
  rw [hexec]
  unfold execQueuePop
  simp only [hp.serves.1, hp.serves.2, Bool.or_self, Bool.false_eq_true, if_false, popChoice_of hw hp, hr, hc]
  split
  · generalize launchProbe s1 (getQueue s q) bs = x
    obtain ⟨_ | _, s2⟩ := x <;> rfl
  · rfl

theorem execQueuePop_plain (hw : tabWf {} s.queues = true) (hp : PopsNext s q)
    (hr : hubRead s (qCtx (getQueue s q)) 2 (popAddr (getQueue s q)) 64 r = ⟨c, bs, s1⟩) (hc : c ≠ St.migratePending)
    (hl : launches (getQueue s q) c bs = false) : exec (.queuePop r) s = .next (popped s1 q (getQueue s q) c bs) := by
  rw [execQueuePop_read hw hp hr hc, hl, if_neg (by decide)]

theorem popTaken_guilty {u : State} {k : Queue} {code : Code} {b : Bool} (hk : k.resetting = false) :
    TurnsGuilty (popTaken u s q k c bs) (guilty (popTaken u s q k c bs) q code (noPacket code) b) q code
      (some ⟨code, 0xFFFF, 0xFFFFFFFF, 0, []⟩) :=
  guilty_turns (by rw [getQueue_popTaken]; exact hk)

end

/-- A pinned launch (R207). -/
def pinnedRun (e : EntryRun) (h img : BitVec 64) (verno : BitVec 32) : EntryRun :=
  { e with handle := h, image := img, verno := verno, pinned := true }

/-- A queue whose running entry has changed. -/
def mapRun (f : EntryRun → EntryRun) (k : Queue) : Queue := { k with run := k.run.map f }

theorem pin_pins {s s3 s4 s5 s6 : State} {q : Nat} {bs hb rb b5 b6 : List Byte} {x : Nat} (hx : qCtx (getQueue s q) = x)
    (h3 : hubRead s x 2 (BitVec.ofNat 64 (enAddr bs)) 64 .home = ⟨St.ok, hb, s3⟩) (hlive : fieldLe hb 12 1 = 1)
    (h4 : hubRead s3 x 2 (BitVec.ofNat 64 (fieldLe hb 0 8) + 12) 4 .home = ⟨St.ok, rb, s4⟩)
    (h5 : hubWrite s4 x 2 (BitVec.ofNat 64 (fieldLe hb 0 8) + 12) .both (toLe 4 (leNat rb + 1)) .home = ⟨St.ok, b5, s5⟩)
    (h6 : hubWrite s5 x 2 (BitVec.ofNat 64 (enAddr bs) + 16) .both (toLe 8 (fieldLe hb 16 8 + 1)) .home = ⟨St.ok, b6, s6⟩) :
    pin s q bs = modQueue s6 q (mapRun fun e =>
      pinnedRun e (BitVec.ofNat 64 (enAddr bs)) (BitVec.ofNat 64 (fieldLe hb 0 8)) (BitVec.ofNat 32 (fieldLe hb 8 4))) := by
  have hl : ¬ fieldLe hb 12 1 ≠ ghLive := fun h => h hlive
  unfold pin
  simp only [hx, h3, h4, h5, h6, hl, ne_eq, not_true_eq_false, if_false]
  rfl

/-- Settles O40: the queue chosen, and what becomes of the entry it held. -/
theorem entriesPop : Obligations.EntriesPop := by
  intro s s1 q r c bs hw hp k run after hr
  have hs1 : MemorySide s s1 := hubRead_side_of hr rfl
  have hafter : ∀ u, after u = popTaken u s q k c bs := fun _ => rfl
  refine ⟨fun hc hok hkind => ?_, fun hc hbad => ?_, fun hc hmig => ?_, fun s2 s3 s4 s5 s6 hb rb b5 b6 hc hok hkind hprobe h3 hlive h4 h5 h6 => ?_⟩
  · have hl : launches k c bs = false := by simp [launches, hkind]
    rw [execQueuePop_plain hw hp hr (by rw [hc]; decide) hl, popped_eq hs1, if_neg (not_not.2 hc), hok, if_neg (by decide), hl,
      if_neg (by decide), hafter]
  · have hl : launches k c bs = false := by simp [launches, hbad]
    refine ⟨_, execQueuePop_plain hw hp hr (by rw [hc]; decide) hl, fun hk => ?_⟩
    rw [popped_eq hs1, if_neg (not_not.2 hc), hbad, if_pos (by decide), hafter]
    exact popTaken_guilty hk
  · have hl : launches k c bs = false := by simp [launches, hc]
    refine ⟨_, execQueuePop_plain hw hp hr hmig hl, fun hk => ?_⟩
    rw [popped_eq hs1, if_pos hc, hafter]
    exact popTaken_guilty hk
  · have hl : launches k c bs = true := by simp [launches, hc, hok, hkind]
    have hs2 : MemorySide s s2 := launchProbe_side_of hprobe hs1
    have hctx : qCtx (getQueue (popTaken s2 s q k c bs) q) = qCtx k := by
      rw [getQueue_popTaken]
      rfl
    rw [hafter] at h3
    have hq : getQueue s6 q = getQueue (popTaken s2 s q k c bs) q := by
      have h36 : MemorySide (popTaken s2 s q k c bs) s6 :=
        hubWrite_side_of h6 (hubWrite_side_of h5 (hubRead_side_of h4 (hubRead_side_of h3 rfl)))
      exact h36.getQueue q
    have hpin := pin_pins hctx h3 hlive h4 h5 h6
    refine ⟨modQueue s6 q (mapRun fun e =>
      pinnedRun e (BitVec.ofNat 64 (enAddr bs)) (BitVec.ofNat 64 (fieldLe hb 0 8)) (BitVec.ofNat 32 (fieldLe hb 8 4))), ?_, ?_⟩
    · rw [execQueuePop_read hw hp hr (by rw [hc]; decide), hl, if_pos rfl, hprobe, launchTaken, if_neg Bool.false_ne_true]
      dsimp only
      rw [popped_eq hs2, if_neg (not_not.2 hc), hok, if_neg (by decide), hl, if_pos rfl, hpin]
    · rw [modQueue, hq, getQueue_popTaken]
      exact setsQueue_setQueue ..

/-! ## The start of an entry and of its nodes (R190, R191, R207, R208) -/

theorem sum_tset_le {α : Type} [DecidableEq α] {d v : α} {f : α → Nat} (hv : f v = 0) (k : Nat) : ∀ t : Tab α,
    ((tset d t k v).map fun e => f e.2).sum ≤ (t.map fun e => f e.2).sum
  | [] => by
    rw [tset]
    split <;> simp [hv]
  | (j, x) :: t => by
    have ih := sum_tset_le (d := d) hv k t
    rw [tset]
    split
    · split <;> simp [hv]
    · split
      · split
        · have hsub : ((t.dropWhile fun e => decide (e.1 ≤ k)).map fun e => f e.2).Sublist (t.map fun e => f e.2) :=
            (List.dropWhile_sublist _).map _
          have := hsub.sum_le_sum fun _ _ => Nat.zero_le _
          simp only [List.map_cons, List.sum_cons]
          omega
        · simp [hv]
      · simp only [List.map_cons, List.sum_cons]
        omega

/-- The buffers of a queue that run. -/
def queueBuffers (k : Queue) : Nat :=
  match k.run with
  | none => 0
  | some r => (r.nodes.filter fun n => decide (n.st = .running ∨ n.st = .restarting)).length

theorem runningBuffers_eq (s : State) : runningBuffers s = (s.queues.map fun e => queueBuffers e.2).sum := rfl

theorem runningBuffers_setQueue_le (s : State) (q : Nat) {k : Queue} (hk : queueBuffers k = 0) :
    runningBuffers (setQueue s q k) ≤ runningBuffers s := sum_tset_le hk q s.queues

/-- A node's start, as `startNode` makes it. -/
def startsAt (i : Nat) (n : NodeRun) : NodeRun := if n.idx = i ∧ n.st = .pending then nodeBegun n else n

theorem startNode_eq {s : State} {q i : Nat} (h : runningBuffers s < 4096) :
    startNode s q i = { mapNodes s q (startsAt i) with epochDue := true } := if_pos h

theorem startsAt_idx (i : Nat) (n : NodeRun) : (startsAt i n).idx = n.idx := by
  unfold startsAt
  split <;> rfl

theorem NodeBecomes.epoch {s t : State} {q node : Nat} {n : NodeRun} (h : NodeBecomes s t q node n) (b : Bool) :
    NodeBecomes s { t with epochDue := b } q node n := by
  obtain ⟨hpkg, hqueue, hchanged, hnodes, hothers⟩ := h
  refine ⟨?_, hqueue, hchanged, hnodes, hothers⟩
  rw [hpkg]

theorem SetsQueue.epoch {s t : State} {q : Nat} {k : Queue} (h : SetsQueue s t q k) (b : Bool) :
    SetsQueue { s with epochDue := b } { t with epochDue := b } q k := by
  obtain ⟨hpkg, hqueue, hothers⟩ := h
  refine ⟨?_, hqueue, hothers⟩
  rw [hpkg]

theorem startNode_becomes {s : State} {q i : Nat} {n : NodeRun} (h : runningBuffers s < 4096) (hn : nodeOf s q i = some n)
    (hst : n.st = .pending) : NodeBecomes s (startNode s q i) q i (nodeBegun n) := by
  rw [startNode_eq h]
  exact (nodeBecomes_mapNodes hn (startsAt_idx i) (if_pos ⟨nodeOf_idx hn, hst⟩)
    fun m hm => if_neg fun hc => hm hc.1).epoch true

/-- The entry `e`, started with the nodes and edges of its buffer or image. -/
def startedRun (e : EntryRun) (nodes : List NodeRun) (edges : List (Nat × Nat × Bool)) : EntryRun :=
  { e with started := true, nodes := nodes, edges := edges }

/-- The node of an entry that holds a buffer. -/
def bufferNode (e : EntryRun) : NodeRun :=
  pendingNode 0 (BitVec.ofNat 64 (enAddr e.raw)) (enLen e.raw) 0 ((enFlags e.raw).testBit 0)

theorem nodeBegun_pending (buf : BitVec 64) (len : Nat) (b : Bool) : nodeBegun (pendingNode 0 buf len 0 b) =
    { pendingNode 0 buf len 0 b with st := if len = 0 then .done else .running } := rfl

/-- The queue `k` with a running entry. -/
def runs (k : Queue) (e : EntryRun) : Queue := { k with run := some e }

section
variable {s s1 s2 : State} {q : QId} {e : EntryRun} {r : Reply} {x : Nat} {bs b2 : List Byte}
  (hrun : (getQueue s q.val).run = some e) (hres : (getQueue s q.val).resetting = false) (hx : qCtx (getQueue s q.val) = x)
  (hstart : e.started = false) (h1 : hubRead s x 2 (BitVec.ofNat 64 (enConst e.raw)) (enClen e.raw) r = ⟨St.ok, bs, s1⟩)
  (h2 : hubWrite s1 x 2 (BitVec.ofNat 64 (bf (getQueue s q.val).cst 63 12 * 4096)) .write bs .home = ⟨St.ok, b2, s2⟩)
include hrun hres hx hstart h1 h2

theorem execEntryStart_buffer (hkind : enKind e.raw = 1) : exec (.entryStart q r) s =
    .next (startNode (modQueue s2 q.val fun k => runs k (startedRun e [bufferNode e] e.edges)) q.val 0) := by
  have hexec : exec (.entryStart q r) s = execEntryStart q r s := rfl
  have hok : ¬ St.ok = St.migratePending := by decide
  rw [hexec]
  unfold execEntryStart
  simp only [hrun, hres, hstart, Bool.or_self, Bool.false_eq_true, if_false, hx, h1, h2, hkind, if_true, ne_eq, not_true_eq_false, hok]
  rfl

theorem execEntryStart_image {s3 s4 : State} {hd rest : List Byte} (hkind : enKind e.raw ≠ 1)
    (h3 : hubRead s2 x 2 e.image 64 .home = ⟨St.ok, hd, s3⟩)
    (h4 : hubRead s3 x 2 (e.image + 64) (32 * fieldLe hd 0 2 + 8 * fieldLe hd 4 4) .home = ⟨St.ok, rest, s4⟩) :
    exec (.entryStart q r) s = .next (modQueue s4 q.val fun k => runs k (startedRun e ((List.range (fieldLe hd 0 2)).map (nodeFrom (hd ++ rest)))
      ((List.range (fieldLe hd 4 4)).map (edgeFrom (hd ++ rest) (fieldLe hd 0 2))))) := by
  have hexec : exec (.entryStart q r) s = execEntryStart q r s := rfl
  have hok : ¬ St.ok = St.migratePending := by decide
  rw [hexec]
  unfold execEntryStart
  simp only [hrun, hres, hstart, Bool.or_self, Bool.false_eq_true, if_false, hx, h1, h2, hkind, h3, h4, ne_eq, not_true_eq_false, hok]
  rfl

end

theorem nodeMet_of {e : EntryRun} {n : NodeRun} (hst : n.st = .pending)
    (h : ∀ a b start, (a, b, start) ∈ e.edges → b = n.idx → ∀ m ∈ e.nodes, m.idx = a → if start then m.first = true else m.st = .done) :
    nodeMet e n = true := by
  rw [nodeMet, hst, decide_eq_true rfl, Bool.true_and, List.all_eq_true]
  rintro ⟨a, b, start⟩ hmem
  dsimp only
  by_cases hb : b = n.idx
  · rw [decide_eq_true hb, Bool.not_true, Bool.false_or]
    cases hm : e.nodes.find? fun m => decide (m.idx = a) with
    | none => rfl
    | some m =>
      have hedge := h a b start hmem hb m (List.mem_of_find?_eq_some hm) (by simpa using List.find?_some hm)
      cases start
      · simpa using hedge
      · simpa using hedge
  · rw [decide_eq_false hb]
    rfl

theorem nodeOf_of_mem {s : State} {q : Nat} {e : EntryRun} {n : NodeRun} (hrun : (getQueue s q).run = some e) (hmem : n ∈ e.nodes)
    (hsort : (e.nodes.map NodeRun.idx).Pairwise (· < ·)) : nodeOf s q n.idx = some n := by
  unfold nodeOf
  rw [hrun]
  exact find_least hsort hmem (decide_eq_true rfl) fun d _ hd => (of_decide_eq_true hd).ge

theorem execNodeReady_of {s : State} {q : QId} {e : EntryRun} {n : NodeRun} (hrun : (getQueue s q.val).run = some e)
    (hres : (getQueue s q.val).resetting = false) (hfind : e.nodes.find? (nodeMet e) = some n) :
    exec (.nodeReady q n.idx) s = .next (startNode s q.val n.idx) := by
  have hexec : exec (.nodeReady q n.idx) s = execNodeReady q n.idx s := rfl
  rw [hexec, execNodeReady]
  simp [hrun, hres, hfind]

/-- Settles O41: the start of a buffer, of a pinned version, and of the node of the lowest index. -/
theorem entriesStart : Obligations.EntriesStart := by
  intro s q e r hrun hres
  refine ⟨fun bs b2 s1 s2 hstart h1 h2 => ⟨fun hkind hroom => ?_, fun hd rest s3 s4 hkind h3 h4 => ?_⟩, fun n hmem hsort hst hroom hmet hleast => ?_⟩
  · have hside : MemorySide s s2 := hubWrite_side_of h2 (hubRead_side_of h1 rfl)
    have hroom' : runningBuffers (modQueue s2 q.val fun k => runs k (startedRun e [bufferNode e] e.edges)) < 4096 := by
      refine Nat.lt_of_le_of_lt (runningBuffers_setQueue_le s2 q.val rfl) ?_
      rw [runningBuffers_eq, hside.queues, ← runningBuffers_eq]
      exact hroom
    refine ⟨_, execEntryStart_buffer hrun hres rfl hstart h1 h2 hkind, ?_⟩
    rw [startNode_eq hroom']
    refine SetsQueue.epoch (s := s2) ⟨rfl, ?_, fun d hd => ?_⟩ true
    · rw [mapNodes, getQueue_modQueue_self, getQueue_modQueue_self, hside.getQueue]
      rfl
    · rw [mapNodes, getQueue_modQueue_ne _ _ hd, getQueue_modQueue_ne _ _ hd]
  · have hside : MemorySide s s4 := hubRead_side_of h4 (hubRead_side_of h3 (hubWrite_side_of h2 (hubRead_side_of h1 rfl)))
    refine ⟨_, execEntryStart_image hrun hres rfl hstart h1 h2 hkind h3 h4, ?_⟩
    rw [← hside.getQueue q.val]
    exact setsQueue_modQueue ..
  · have hfind : e.nodes.find? (nodeMet e) = some n := find_least hsort hmem (nodeMet_of hst hmet) hleast
    exact ⟨_, execNodeReady_of hrun hres hfind, startNode_becomes hroom (nodeOf_of_mem hrun hmem hsort) hst⟩

/-! ## The end of an entry: completion, hang and reset (R209, R212, R214, R216) -/

theorem EndsQueue.refl (s : State) (q : Nat) : EndsQueue s s q (getQueue s q) := ⟨rfl, rfl, fun _ _ => rfl⟩

theorem EndsQueue.side {s u t : State} {q : Nat} {k : Queue} (h : EndsQueue s u q k) (hs : MemorySide u t) : EndsQueue s t q k := by
  obtain ⟨hpkg, hqueue, hothers⟩ := h
  refine ⟨?_, (hs.getQueue q).trans hqueue, fun d hd => (hs.getQueue d).trans (hothers d hd)⟩
  have hside := congrArg (fun z : State => { z with queues := s.queues }) hs
  exact MemorySide.trans hpkg hside

theorem EndsQueue.changes {s u : State} {q : Nat} {k : Queue} (h : EndsQueue s u q k) (f : Queue → Queue) :
    EndsQueue s (modQueue u q f) q (f k) := by
  obtain ⟨hpkg, hqueue, hothers⟩ := h
  refine ⟨hpkg, ?_, fun d hd => (getQueue_modQueue_ne u f hd).trans (hothers d hd)⟩
  rw [getQueue_modQueue_self, hqueue]

/-- The queue `k` with no entry. -/
def noRun (k : Queue) : Queue := { k with run := none }

/-- The queue `k` at the end of its reset. -/
def resetDone (k : Queue) : Queue := { k with run := none, resetting := false }

/-- The queue `k` with its ring discarded. -/
def ringDropped (w : BitVec 16) (k : Queue) : Queue := { k with rptr := w }

/-- The event of a version freed, where one was. -/
def freedOf (x : Nat) (freed : Option (BitVec 64)) (s : State) : State :=
  match freed with
  | none => s
  | some img => freedEvent s x img

theorem freedOf_side {x : Nat} {freed : Option (BitVec 64)} (s : State) : MemorySide s (freedOf x freed s) := by
  cases freed with
  | none => exact rfl
  | some img => exact freedEvent_side rfl

/-- The end of an entry, in the state after its version is unpinned. -/
def entryEnded (y : State × Option (BitVec 64)) (q x : Nat) (e : EntryRun) : State :=
  freedOf x y.2 (modQueue (completeSteps y.1 q x e (enCrec e.raw) (enSig e.raw) (enIrq e.raw) St.ok St.ok none) q noRun)

/-- The end of a reset of a queue that ran an entry, in the state after its version is unpinned. -/
def resetEnded (y : State × Option (BitVec 64)) (q x crec sig : Nat) (k : Queue) (e : EntryRun) : State :=
  let s3 := completeSteps y.1 q x e crec sig (e.readable && enIrq e.raw && bt k.ctl 11) St.queueGuilty k.cause e.fault
  freedOf x y.2 (modQueue (event s3 x (eventBytes s3 1 k.cause q 0 (BitVec.ofNat 64 (if e.readable then enCrec e.raw else 0)) e.idx.toNat)) q
    resetDone)

section
variable {s s1 : State} {q : QId} {e : EntryRun} {x : Nat} (hrun : (getQueue s q.val).run = some e) (hx : qCtx (getQueue s q.val) = x)
  (hflush : backsOut (flushPass s1 x) x = false)
include hrun hx hflush

theorem execEntryComplete_done (hstart : e.started = true) (hres : (getQueue s q.val).resetting = false)
    (hdone : ∀ n ∈ e.nodes, n.st = .done) (hp : hubProbe x (endAccesses e (enCrec e.raw) (enSig e.raw)) s = (false, s1)) :
    exec (.entryComplete q) s = .next (entryEnded (unpin s1 q.val x e) q.val x e) := by
  have hexec : exec (.entryComplete q) s = execEntryComplete q s := rfl
  have hall : (e.nodes.all fun n => decide (n.st = .done)) = true := List.all_eq_true.2 fun n hn => decide_eq_true (hdone n hn)
  rw [hexec]
  unfold execEntryComplete
  simp only [hrun, hres, hstart, hall, hx, hp, hflush, Bool.not_false, Bool.and_self, Bool.not_true, Bool.false_eq_true, if_false]
  rfl

theorem execQueueResetFinish_ready (hready : resetReady s q.val = true) {crec sig : Nat}
    (hcrec : (if e.readable = false ∨ (e.checkFailed = true ∧ enCrec e.raw % 64 ≠ 0) then 0 else enCrec e.raw) = crec)
    (hsig : (if e.readable = false ∨ (e.checkFailed = true ∧ enSig e.raw % 8 ≠ 0) then 0 else enSig e.raw) = sig)
    (hp : hubProbe x (endAccesses e crec sig) s = (false, s1)) : exec (.queueResetFinish q) s =
      .next (resetEnded (unpin (setQueue s1 q.val (ringDropped (getQueue s q.val).wptr (getQueue s q.val))) q.val x e) q.val x crec sig
        (getQueue s q.val) e) := by
  have hexec : exec (.queueResetFinish q) s = execQueueResetFinish q s := rfl
  rw [hexec]
  unfold execQueueResetFinish
  simp only [hready, hrun, ringDropped, Bool.not_eq_true', hx, hcrec, hsig, hp, hflush, Bool.true_eq_false, Bool.false_eq_true, if_false]
  rfl

end

theorem resetReady_of {s : State} {q : Nat} {e : EntryRun} (hrun : (getQueue s q).run = some e) (hres : (getQueue s q).resetting = true)
    (hg : ∀ g ∈ s.gangs, g.queue ≠ q) (hn : ∀ n ∈ e.nodes, ∀ p ∈ n.pkts, p.st = .done) : resetReady s q = true := by
  unfold resetReady
  extract_lets k
  rw [show k.run = some e from hrun, show k.resetting = true from hres, List.all_eq_true.2 fun g h => decide_eq_true (hg g h), Bool.true_and, Bool.true_and]
  exact List.all_eq_true.2 fun n h => by
    unfold pktsDone
    exact List.all_eq_true.2 fun p hp => decide_eq_true (hn n h p hp)

theorem entryEnded_ends {s u : State} {q x : Nat} {k : Queue} {e : EntryRun} {y : State × Option (BitVec 64)}
    (h : EndsQueue s u q k) (hy : MemorySide u y.1) : EndsQueue s (entryEnded y q x e) q (noRun k) :=
  ((h.side (completeSteps_side hy)).changes noRun).side (freedOf_side _)

theorem resetEnded_ends {s u : State} {q x crec sig : Nat} {k k' : Queue} {e : EntryRun} {y : State × Option (BitVec 64)}
    (h : EndsQueue s u q k) (hy : MemorySide u y.1) : EndsQueue s (resetEnded y q x crec sig k' e) q (resetDone k) :=
  ((h.side (event_side (completeSteps_side hy))).changes resetDone).side (freedOf_side _)

theorem lateFault_ok (s : State) (q x : Nat) : lateFault s q x St.ok = s := if_pos rfl

theorem recordBytes_congr {s t : State} (h : t.plumb = s.plumb) (e : EntryRun) (status cause : Code) (f : Option EntryFault) :
    recordBytes t e status cause f = recordBytes s e status cause f := by
  unfold recordBytes
  rw [h]

theorem completeSteps_record {s s2 s3 : State} {q x crec sig : Nat} {e : EntryRun} {status cause : Code} {f : Option EntryFault}
    {b2 b3 : List Byte} (hc : crec ≠ 0) (hs : sig ≠ 0)
    (h2 : hubWrite (flushPass s x) x 2 (BitVec.ofNat 64 crec) .write (recordBytes (flushPass s x) e status cause f) .home = ⟨St.ok, b2, s2⟩)
    (h3 : hubAtomic s2 x 2 (BitVec.ofNat 64 sig) 8 0 1 0 .home = ⟨St.ok, b3, s3⟩) :
    completeSteps s q x e crec sig false status cause f = s3 := by
  unfold completeSteps
  simp only [hc, hs, if_false, h2, h3, lateFault_ok, Bool.false_eq_true]

theorem execHangDetect_eq {s : State} {q : QId} {e : EntryRun} (hrun : (getQueue s q.val).run = some e) : exec (.hangDetect q) s =
    if decide (bf (getQueue s q.val).hang 15 0 ≠ 0 ∧ bf (getQueue s q.val).hang 15 0 * 1000000 < e.hang) && !(getQueue s q.val).resetting
    then .next (guilty s q.val St.queueGuilty (noPacket St.queueGuilty) false) else .next s := by
  have hexec : exec (.hangDetect q) s = execHangDetect q s := rfl
  rw [hexec]
  unfold execHangDetect
  extract_lets k
  rw [show k.run = some e from hrun]

/-- Settles O42: what the end of an entry, a hang and the end of a reset leave of the queue. -/
theorem entriesEnd : Obligations.EntriesEnd := by
  intro s s1 q e hrun
  refine ⟨fun hstart hres hdone hprobe hflush => ?_, fun hres hms hlt => ?_, fun hno => ?_, fun hres hgangs hpkts hprobe hflush => ?_⟩
  · have hexec := execEntryComplete_done hrun rfl hflush hstart hres hdone hprobe
    have hs1 : MemorySide s s1 := hubProbe_side_of hprobe rfl
    refine ⟨⟨_, hexec, entryEnded_ends ((EndsQueue.refl s q.val).side hs1) (unpin_side rfl)⟩,
      fun b2 b3 s2 s3 hpin hirq hcrec hsig h2 h3 => ⟨_, hexec, ?_⟩⟩
    have hflushed : MemorySide s (flushPass s1 (qCtx (getQueue s q.val))) := flushPass_side hs1
    have hunpin : unpin s1 q.val (qCtx (getQueue s q.val)) e = (s1, none) := by
      unfold unpin
      rw [hpin]
      rfl
    rw [← recordBytes_congr hflushed.plumb] at h2
    have hq3 : MemorySide s s3 := hubAtomic_side_of h3 (hubWrite_side_of h2 hflushed)
    rw [entryEnded, hunpin, hirq, completeSteps_record hcrec hsig h2 h3, ← hq3.getQueue]
    exact setsQueue_modQueue ..
  · rw [execHangDetect_eq hrun, hres, decide_eq_true ⟨hms, hlt⟩]
    exact ⟨_, rfl, guilty_turns hres⟩
  · rw [execHangDetect_eq hrun, decide_eq_false (by omega)]
    rfl
  · have hs1 : MemorySide s s1 := hubProbe_side_of hprobe rfl
    refine ⟨_, execQueueResetFinish_ready hrun rfl hflush (resetReady_of hrun hres hgangs hpkts) rfl rfl hprobe, ?_⟩
    have hdrop : EndsQueue s (setQueue s1 q.val (ringDropped (getQueue s q.val).wptr (getQueue s q.val))) q.val
        (ringDropped (getQueue s q.val).wptr (getQueue s q.val)) := by
      have h := ((EndsQueue.refl s q.val).side hs1).changes (ringDropped (getQueue s q.val).wptr)
      rw [modQueue, hs1.getQueue] at h
      exact h
    exact resetEnded_ends hdrop (unpin_side rfl)

end Sys2Proof.Machine
end

section
/-!
PROOF. Command packets: their issue, their effects and their completion (R187, R191 to R201, R210 to R213, R225).
-/

namespace Sys2Proof.Machine

/-! ## Two changes of one node -/

theorem NodeBecomes.refl {s : State} {q node : Nat} {n : NodeRun} (h : nodeOf s q node = some n) : NodeBecomes s s q node n :=
  ⟨rfl, rfl, h, fun _ _ => rfl, fun _ _ => rfl⟩

theorem NodeBecomes.trans {s t u : State} {q node : Nat} {n n' : NodeRun} (h : NodeBecomes s t q node n) (g : NodeBecomes t u q node n') :
    NodeBecomes s u q node n' := by
  obtain ⟨hpkg, hqueue, _, hnodes, hothers⟩ := h
  obtain ⟨gpkg, gqueue, gchanged, gnodes, gothers⟩ := g
  refine ⟨?_, ?_, gchanged, fun i hi => (gnodes i hi).trans (hnodes i hi), fun d hd => (gothers d hd).trans (hothers d hd)⟩
  · rw [gpkg, hpkg]
  · rw [gqueue, hqueue]

/-! ## The head of issue (R191, R192, R225) -/

/-- A node whose packet at the head of issue has been seen. -/
def headed (now : Nat) (n : NodeRun) : NodeRun := { n with headAt := some (n.headAt.getD now) }

/-- A node whose packet `p` has issued. -/
def issuedNode (now : Nat) (p : List Byte) (st : PktSt) (n : NodeRun) : NodeRun :=
  { n with
    next := n.next + 64 * phUnits p, first := true, headAt := none, named := if phSlot p = 0 then n.named else sb n.named (phSlot p) true,
    pkts := n.pkts ++ [⟨n.next, BitVec.ofNat 8 (phOp p), phSlot p, p, n.headAt.getD now, st, now⟩] }

theorem issuePkt_eq (s : State) (q node : Nat) (p : List Byte) (st : PktSt) :
    issuePkt s q node p st = modNode s q node (issuedNode s.now p st) := rfl

theorem gangAt_congr {s t : State} (h : t.gangs = s.gangs) (q node off : Nat) : gangAt t q node off = gangAt s q node off := by
  rw [gangAt, h, gangAt]

section
variable {s : State} {q node : Nat} {e : EntryRun} {n : NodeRun} {p : List Byte}

theorem headPkt_plain (h : phOp p ≠ 1 ∨ releaseOf e n p = none) : headPkt s q node e n p =
    if (waitsMet n p && dueOf s e n p) = true then issuePkt (modNode s q node (headed s.now)) q node p .issued
    else modNode s q node (headed s.now) := by
  have hno : ¬ (phOp p = 1 ∧ releaseOf e n p ≠ none) := fun hc => h.elim (fun h => h hc.1) fun h => hc.2 h
  exact if_neg hno

theorem newGang_modNode (f : NodeRun → NodeRun) (off reach : Nat) (rel : Option (BitVec 64)) :
    newGang (modNode s q node f) q node off e p reach rel = newGang s q node off e p reach rel := by
  unfold newGang modNode
  rw [getQueue_modQueue_self]
  rfl

/-- The gang that stands for the DISPATCH at the head of issue. -/
def headGang (s : State) (q node : Nat) (e : EntryRun) (n : NodeRun) (p : List Byte) (a : BitVec 64) : Gang :=
  newGang s q node n.next e p (n.headAt.getD s.now) (some a)

theorem headPkt_dispatch {a : BitVec 64} (h : phOp p = 1) (hrel : releaseOf e n p = some a) (hg : gangAt s q node n.next = none) :
    headPkt s q node e n p =
      if (waitsMet n p && dueOf s e n p) = true then
        issuePkt (modNode (addGang s (headGang s q node e n p a)) q node (headed s.now)) q node p (.dispatched s.nextGang)
      else modNode (addGang s (headGang s q node e n p a)) q node (headed s.now) := by
  have hyes : phOp p = 1 ∧ releaseOf e n p ≠ none := ⟨h, by rw [hrel]; exact Option.some_ne_none a⟩
  have hnew := newGang_modNode (s := s) (q := q) (node := node) (e := e) (p := p) (headed s.now) n.next (n.headAt.getD s.now) (some a)
  unfold headPkt
  extract_lets rel s1 go
  rw [if_pos hyes, hg]
  dsimp only
  show (if (waitsMet n p && dueOf s e n p) = true then
      issuePkt (addGang s1 (newGang s1 q node n.next e p (n.headAt.getD s.now) (releaseOf e n p))) q node p (.dispatched s.nextGang)
    else addGang s1 (newGang s1 q node n.next e p (n.headAt.getD s.now) (releaseOf e n p))) = _
  rw [hrel, show newGang s1 q node n.next e p (n.headAt.getD s.now) (some a) = headGang s q node e n p a from hnew]
  rfl

theorem execPacketIssue_eq {q : QId} {s s1 : State} {r : Reply} (h : AtHead s s1 q.val node e n r p) : exec (.packetIssue q node r) s =
    .next (if packetOk s1 q.val n p then headPkt s1 q.val node e n p else entryFault s1 q.val St.cmdReserved node n.next) := by
  obtain ⟨hrun, hfound, ⟨hres, hst, hlen⟩, halone, hread⟩ := h
  have hexec : exec (.packetIssue q node r) s = execPacketIssue q node r s := rfl
  have hside : MemorySide s s1 := readPkt_side_of hread rfl
  have hok : ¬ St.ok = St.migratePending := by decide
  have hgo : ¬ (n.st ≠ .running ∨ n.len ≤ n.next) := by
    rintro (hc | hc)
    · exact hc hst
    · omega
  rw [hexec]
  unfold execPacketIssue
  simp only [hrun, hfound, hres, hgo, decide_false, Bool.or_self, Bool.false_eq_true, if_false, hread, hok, ne_eq, not_true_eq_false,
    halone, Option.isSome_none, Bool.false_or, Option.map_none, Option.getD_none]
  unfold packetOk
  rw [hside.getQueue]
  split <;> split <;> simp_all

theorem issuePkt_becomes {t : State} {now : Nat} {st : PktSt}
    (h : NodeBecomes s t q node (headed now n)) (hnow : t.now = now) : NodeBecomes s (issuePkt t q node p st) q node
      { n with
        next := n.next + 64 * phUnits p, first := true, headAt := none, named := if phSlot p = 0 then n.named else sb n.named (phSlot p) true,
        pkts := n.pkts ++ [⟨n.next, BitVec.ofNat 8 (phOp p), phSlot p, p, n.headAt.getD now, st, now⟩] } := by
  subst hnow
  exact h.trans (nodeBecomes_modNode (n := headed t.now n) (f := issuedNode t.now p st) h.changed fun _ => rfl)

end

/-! ## The end of a packet (R193, R194, R210, R211) -/

/-- A node after the last packet of its buffer. -/
def nodeSettled (n : NodeRun) : NodeRun :=
  { n with st := if n.len ≤ n.next ∧ ∀ p ∈ n.pkts, p.st = .done then .done else n.st }

theorem pktsDone_iff (n : NodeRun) : pktsDone n = true ↔ ∀ p ∈ n.pkts, p.st = .done := by
  simp [pktsDone]

section
variable {s : State} {q node : Nat} {n : NodeRun}

theorem nodeBecomes_put {n' : NodeRun} (hn : nodeOf s q node = some n) (h : n'.idx = node) :
    NodeBecomes s (mapNodes s q fun m => if m.idx = node then n' else m) q node n' := by
  refine nodeBecomes_mapNodes hn (fun m => ?_) (if_pos (nodeOf_idx hn)) fun m hm => if_neg hm
  split
  · next hm => rw [h, hm]
  · rfl

theorem nodeSettle_becomes (hn : nodeOf s q node = some n) (hst : n.st = .running) (hres : (getQueue s q).resetting = false) :
    NodeBecomes s (nodeSettle s q node) q node (nodeSettled n) := by
  unfold nodeSettle
  extract_lets put
  have hidx := nodeOf_idx hn
  rw [hn]
  dsimp only
  by_cases hdone : n.len ≤ n.next ∧ ∀ p ∈ n.pkts, p.st = .done
  · have hset : nodeSettled n = { n with st := .done } := by rw [nodeSettled, if_pos hdone]
    rw [(pktsDone_iff n).2 hdone.2, hst, if_neg (by decide), hset]
    dsimp only
    rw [if_pos ⟨hdone.1, hres⟩]
    exact (nodeBecomes_put (n' := { n with st := .done }) hn hidx).epoch true
  · have hset : nodeSettled n = n := by rw [nodeSettled, if_neg hdone]
    rw [hset]
    split
    · exact NodeBecomes.refl hn
    · next hp =>
      rw [hst]
      dsimp only
      rw [if_neg fun hc => hdone ⟨hc.1, (pktsDone_iff n).1 (by simpa using hp)⟩]
      exact NodeBecomes.refl hn

/-- A packet at `off` that ends. -/
def pktsEnded (off : Nat) (n : NodeRun) : NodeRun := { n with pkts := n.pkts.map fun p => if p.off = off then { p with st := .done } else p }

/-- A node whose slot is posted. -/
def slotPosted (slot : Nat) (n : NodeRun) : NodeRun := { n with posted := if slot = 0 then n.posted else sb n.posted slot true }

theorem packetEnded_eq (off slot : Nat) : packetEnded n off slot = nodeSettled (slotPosted slot (pktsEnded off n)) := rfl

theorem pktEnd_becomes {off : Nat} {p : PktRun} {c : Code} (hn : nodeOf s q node = some n) (hst : n.st = .running)
    (hres : (getQueue s q).resetting = false) (hc : pktFaulty p.op c = false) :
    NodeBecomes s (pktEnd s q node off p c) q node (packetEnded n off p.slot) := by
  have h1 : NodeBecomes s (modPkt s q node off fun p => { p with st := .done }) q node (pktsEnded off n) := by
    rw [modPkt_eq]
    refine nodeBecomes_mapNodes hn (fun m => ?_) (if_pos (nodeOf_idx hn)) fun m hm => if_neg hm
    split <;> rfl
  have h2 := h1.trans (nodeBecomes_modNode (f := slotPosted p.slot) h1.changed fun _ => rfl)
  rw [pktEnd, hc, packetEnded_eq]
  refine h2.trans (nodeSettle_becomes h2.changed hst ?_)
  rw [h2.queue]
  exact hres

end

/-- A change of nodes leaves all of the queues but the running entry. -/
structure KeepsQueueFields (s t : State) (q : Nat) : Prop where
  guilty : (getQueue t q).guilty = (getQueue s q).guilty
  resetting : (getQueue t q).resetting = (getQueue s q).resetting
  cause : (getQueue t q).cause = (getQueue s q).cause
  others : ∀ d, d ≠ q → getQueue t d = getQueue s d

theorem keepsQueueFields_mapNodes (s : State) (q : Nat) (f : NodeRun → NodeRun) : KeepsQueueFields s (mapNodes s q f) q := by
  have hq : getQueue (mapNodes s q f) q = { getQueue s q with run := (getQueue s q).run.map fun r => { r with nodes := r.nodes.map f } } :=
    getQueue_modQueue_self ..
  refine ⟨?_, ?_, ?_, fun d hd => getQueue_modQueue_ne _ _ hd⟩ <;> rw [hq]

theorem KeepsQueueFields.refl (s : State) (q : Nat) : KeepsQueueFields s s q := ⟨rfl, rfl, rfl, fun _ _ => rfl⟩

theorem KeepsQueueFields.epoch {s t : State} {q : Nat} (h : KeepsQueueFields s t q) (b : Bool) :
    KeepsQueueFields s { t with epochDue := b } q := ⟨h.guilty, h.resetting, h.cause, h.others⟩

theorem nodeSettle_keepsQueueFields (s : State) (q node : Nat) : KeepsQueueFields s (nodeSettle s q node) q := by
  have hput : ∀ n', KeepsQueueFields s { mapNodes s q (fun m => if m.idx = node then n' else m) with epochDue := true } q :=
    fun n' => (keepsQueueFields_mapNodes s q _).epoch true
  unfold nodeSettle
  extract_lets put
  split
  · exact KeepsQueueFields.refl s q
  · split
    · exact KeepsQueueFields.refl s q
    · split
      · split
        · exact hput _
        · exact KeepsQueueFields.refl s q
      · exact hput _
      · exact KeepsQueueFields.refl s q
      · exact KeepsQueueFields.refl s q

theorem pktEnd_guilty {s : State} {q node off : Nat} {p : PktRun} {c : Code} (hres : (getQueue s q).resetting = false)
    (hc : pktFaulty p.op c = true) : (getQueue (pktEnd s q node off p c) q).guilty = true ∧
      (getQueue (pktEnd s q node off p c) q).resetting = true ∧ (getQueue (pktEnd s q node off p c) q).cause = c ∧
      ∀ d, d ≠ q → getQueue (pktEnd s q node off p c) d = getQueue s d := by
  have h1 : KeepsQueueFields s (modPkt s q node off fun p => { p with st := .done }) q := keepsQueueFields_mapNodes ..
  rw [pktEnd, hc, if_pos rfl]
  generalize (modPkt s q node off fun p => { p with st := .done }) = s1 at h1 ⊢
  have h2 : TurnsGuilty s1 (entryFault s1 q c node off) q c _ := guilty_turns (h1.resetting.trans hres)
  have h3 := nodeSettle_keepsQueueFields (entryFault s1 q c node off) q node
  obtain ⟨hg, hr, hcause⟩ := h2.queue
  exact ⟨h3.guilty.trans hg, h3.resetting.trans hr, h3.cause.trans hcause,
    fun d hd => (h3.others d hd).trans ((h2.others d hd).trans (h1.others d hd))⟩

theorem execPacketComplete_of {s : State} {q : QId} {node off : Nat} {op : BitVec 8} {c : Code} {p : PktRun}
    (h : PacketIs s q.val node off op (.performed c) p)
    (hf : op = 1 → backsOut (flushPass s (qCtx (getQueue s q.val))) (qCtx (getQueue s q.val)) = false) :
    exec (.packetComplete q node off) s =
      .next (pktEnd (if op = 1 then flushPass s (qCtx (getQueue s q.val)) else s) q.val node off p c) := by
  obtain ⟨hfound, hop, hst⟩ := h
  have hexec : exec (.packetComplete q node off) s = execPacketComplete q node off s := rfl
  rw [hexec]
  unfold execPacketComplete
  rw [hfound]
  dsimp only
  rw [hst]
  dsimp only
  rw [hop]
  by_cases h1 : op = 1
  · rw [if_pos h1, hf h1, if_neg (by simp)]
  · rw [if_neg h1, if_neg fun hc => h1 hc.1]

/-- Settles O43: what a packet at the head of issue does, and how a packet ends. -/
theorem packetsIssueAndComplete : Obligations.PacketsIssueAndComplete := by
  intro s q node
  refine ⟨fun s1 e n r p h => ⟨fun hbad => ?_, fun hok => ⟨fun hplain => ?_, fun a hop hrel => ?_⟩⟩, fun off p n hn hst hres => ⟨fun hp => ?_, fun op c hp hf => ?_⟩⟩
  · have hside : MemorySide s s1 := readPkt_side_of h.read rfl
    rw [execPacketIssue_eq h, hbad]
    exact ⟨_, rfl, guilty_turns (by rw [hside.getQueue]; exact h.runs.1)⟩
  · have hside : MemorySide s s1 := readPkt_side_of h.read rfl
    have hn : nodeOf s1 q.val node = some n := (hside.nodeOf ..).trans h.found
    have hdue : dueOf s1 e n p = dueOf s e n p := by unfold dueOf; rw [hside.plumb]
    have hheaded := nodeBecomes_modNode (f := headed s1.now) hn fun _ => rfl
    rw [execPacketIssue_eq h, hok, if_pos rfl, headPkt_plain hplain, hdue, may_iff, ← hside.now]
    refine ⟨fun hmay => ?_, fun hmay => ?_⟩
    · rw [if_pos hmay]
      exact ⟨_, rfl, issuePkt_becomes hheaded rfl⟩
    · rw [if_neg hmay]
      exact ⟨_, rfl, hheaded⟩
  · have hside : MemorySide s s1 := readPkt_side_of h.read rfl
    have hn : nodeOf (addGang s1 (headGang s1 q.val node e n p a)) q.val node = some n := (hside.nodeOf ..).trans h.found
    have hdue : dueOf s1 e n p = dueOf s e n p := by unfold dueOf; rw [hside.plumb]
    have halone : gangAt s1 q.val node n.next = none := (gangAt_congr hside.gangs ..).trans h.alone
    have hheaded := nodeBecomes_modNode (f := headed s1.now) hn fun _ => rfl
    refine ⟨_, headGang s1 q.val node e n p a, execPacketIssue_eq h, rfl, rfl, rfl, rfl, rfl, rfl, rfl, rfl, ?_⟩
    rw [hok, if_pos rfl, headPkt_dispatch hop hrel halone, hdue, may_iff, ← hside.now]
    refine ⟨fun hmay => ?_, fun hmay => ?_⟩
    · rw [if_pos hmay]
      exact issuePkt_becomes hheaded rfl
    · rw [if_neg hmay]
      exact hheaded
  · refine ⟨_, onIssued_of hp, pktEnd_becomes hn hst hres ?_⟩
    rw [pktFaulty]
    rfl
  · have hside : MemorySide s (if op = 1 then flushPass s (qCtx (getQueue s q.val)) else s) := by
      split
      · exact flushPass_side rfl
      · rfl
    rw [execPacketComplete_of hp hf, ← hp.op]
    rw [← hp.op] at hside
    have hres' := (congrArg Queue.resetting (hside.getQueue q.val)).trans hres
    refine ⟨fun hc => ⟨_, rfl, pktEnd_becomes ((hside.nodeOf ..).trans hn) hst hres' hc⟩, fun hc => ⟨_, rfl, ?_⟩⟩
    obtain ⟨hg, hr, hcause, hothers⟩ := pktEnd_guilty (node := node) (off := off) hres' hc
    exact ⟨hg, hr, hcause, fun d hd => (hothers d hd).trans (hside.getQueue d)⟩

/-! ## DISPATCH and WAITMEM (R196, R199) -/

theorem execDispatch_of {s : State} {q : QId} {node off : Nat} {p : PktRun} {e : EntryRun} (h : PacketIs s q.val node off 1 .issued p)
    (hrun : (getQueue s q.val).run = some e) : exec (.dispatch q node off) s =
      .next (modPkt (addGang s (newGang s q.val node off e p.raw p.issued none)) q.val node off fun p => { p with st := .dispatched s.nextGang }) := by
  refine (onIssued_of h).trans ?_
  rw [hrun]
  rfl

/-- The width of a WAITMEM's flag. -/
def flagBytes (p : PktRun) : Nat := if (fieldLe p.raw 24 1).testBit 3 then 8 else 4

theorem execWaitmemEvaluate_of {s s1 : State} {q : QId} {node off : Nat} {r : Reply} {p : PktRun} {c : Code} {d : List Byte}
    (h : PacketIs s q.val node off 4 .waiting p)
    (hr : hubFlag s (qCtx (getQueue s q.val)) 2 (pAddr p.raw) (flagBytes p) r = ⟨c, d, s1⟩) : exec (.waitmemEvaluate q node off r) s =
      if c ≠ St.ok ∧ c ≠ St.migratePending then .next (performed s1 q.val node off c)
      else if c = St.ok ∧ condHolds (fieldLe p.raw 24 1 % 8) (8 * flagBytes p) (leNat d) (fieldLe p.raw 32 8) = true then
        .next (performed s1 q.val node off St.ok)
      else if decide (fieldLe p.raw 40 8 ≠ 0 ∧ fieldLe p.raw 40 8 ≤ s.plumb.count.toNat) then .next (entryFault s1 q.val St.queueGuilty node off)
      else .next s1 := by
  obtain ⟨hfound, hop, hst⟩ := h
  have hexec : exec (.waitmemEvaluate q node off r) s = execWaitmemEvaluate q node off r s := rfl
  have hw : ¬ ¬ (p.op = 4 ∧ p.st = .waiting) := not_not.2 ⟨hop, hst⟩
  unfold flagBytes at hr
  rw [hexec]
  unfold execWaitmemEvaluate
  rw [hfound]
  dsimp only
  rw [if_neg hw, hr]
  rfl

/-! ## ENQ (R187, R201) -/

section
variable {s s1 : State} {q node off t : Nat} {r : Reply} {p : PktRun} {k : Queue} {x : Nat} {res slot : BitVec 64}

theorem execEnq_of {q : QId} {i : Instr × PktSt} (hi : i ∈ [(Instr.enq q node off r, PktSt.issued), (.enqRetry q node off r, .retrying)])
    (h : PacketIs s q.val node off 7 i.2 p) : exec i.1 s = .next (enqStep s q.val node off p r) := by
  obtain rfl | hi := List.mem_cons.1 hi
  · exact onIssued_of h
  · obtain rfl := List.mem_singleton.1 hi
    obtain ⟨hfound, hop, hst⟩ := h
    have hexec : exec (.enqRetry q node off r) s = execEnqRetry q node off r s := rfl
    rw [hexec]
    unfold execEnqRetry
    rw [hfound]
    exact if_pos ⟨hop, hst⟩

theorem writeRes_zero (s : State) (x : Nat) {res : BitVec 64} (c : Code) (h : res = 0) : writeRes s x res c = (St.ok, s) := if_pos h

variable (hx : qCtx (getQueue s q) = x) (hk : getQueue s (fieldLe p.raw 16 2) = k) (hres : pRes p.raw 24 = res)
  (hslot : BitVec.ofNat 64 (bf k.base 63 12 * 4096 + 64 * (k.wptr.toNat % qSize k)) = slot)
include hx

theorem enqStep_reserved (h : enqTarget s (fieldLe p.raw 16 2) x = false) :
    enqStep s q node off p r = performed s q node off St.cmdReserved := by
  unfold enqStep
  simp only [hx, h, Bool.not_false, if_true]

variable (htarget : enqTarget s (fieldLe p.raw 16 2) x = true)
  (hprobe : hubProbe x ((slot, .write) :: (if res = 0 then [] else [(res, .write)])) s = (false, s1))
include hk hres hslot htarget hprobe

theorem enqStep_guilty (hg : k.guilty = true) (h0 : res = 0) : enqStep s q node off p r =
    performed (setQueue s1 (fieldLe p.raw 16 2) { k with grej := true }) q node off St.queueGuilty := by
  have hpush : pushTry k 1 = (.guilty, { k with grej := true }) := by
    rw [pushTry, if_neg (by decide), if_pos hg]
  unfold enqStep
  simp only [hx, hk, hres, hslot, htarget, hprobe, hpush, Bool.not_true, Bool.false_eq_true, if_false, reduceCtorEq, decide_false,
    Bool.false_and, writeRes_zero _ _ _ h0, if_true]

theorem enqStep_full (hg : k.guilty = false) (hd : qSize k < qDepth k + 1) (h0 : res = 0) : enqStep s q node off p r =
    if fieldLe p.raw 18 1 = 1 then
      modPkt (setQueue s1 (fieldLe p.raw 16 2) { k with fullrej := true }) q node off fun p => { p with st := .retrying }
    else performed (setQueue s1 (fieldLe p.raw 16 2) { k with fullrej := true }) q node off St.queueFull := by
  have hpush : pushTry k 1 = (.full, { k with fullrej := true }) := by
    rw [pushTry, if_neg (by decide), hg, if_neg (by decide), if_neg (by omega)]
  unfold enqStep
  simp only [hx, hk, hres, hslot, htarget, hprobe, hpush, Bool.not_true, Bool.false_eq_true, if_false, reduceCtorEq, decide_false,
    Bool.false_and, writeRes_zero _ _ _ h0, if_true]

theorem enqStep_accepted {c : Code} {b : List Byte} {s2 : State} (hg : k.guilty = false) (hd : qDepth k + 1 ≤ qSize k)
    (hfirst : enqFirst s (fieldLe p.raw 16 2) q node off p.since = false)
    (hw : hubWrite (setQueue s1 (fieldLe p.raw 16 2) { k with wptr := k.wptr + 1 }) x 2 slot .write (slice p.raw 64 64) r = ⟨c, b, s2⟩) :
    enqStep s q node off p r =
      performed (writeRes s2 x res c).2 q node off (if c = St.ok then (writeRes s2 x res c).1 else c) := by
  have hpush : pushTry k 1 = (.accepted, { k with wptr := k.wptr + 1 }) := by
    rw [pushTry, if_neg (by decide), hg, if_neg (by decide), if_pos hd]
    rfl
  unfold enqStep
  simp only [hx, hk, hres, hslot, htarget, hprobe, hpush, Bool.not_true, Bool.false_eq_true, if_false, decide_true, hfirst,
    Bool.and_false, hw]

end

/-- Settles O44: the effects of the packets and their codes. -/
theorem packetEffectsRun : Obligations.PacketEffectsRun := by
  intro s q node off r p
  refine ⟨fun e hp hrun => ?_, fun c b s1 hp hc hw => ?_, fun c b s1 hp hc hw => ?_, fun hp => ?_, fun c d s1 hp hr => ?_, fun i hi hp => ?_⟩
  · exact ⟨_, newGang s q.val node off e p.raw p.issued none, execDispatch_of hp hrun,
      packetBecomes_modPkt (addGang s (newGang s q.val node off e p.raw p.issued none)) .., rfl, rfl, rfl, rfl, rfl, rfl, rfl, rfl, rfl, rfl⟩
  · refine ⟨performed s1 q.val node off c, (onIssued_of hp).trans ?_, performed_becomes hc⟩
    rw [pAddr, hw]
  · refine ⟨performed s1 q.val node off c, (onIssued_of hp).trans ?_, performed_becomes hc⟩
    rw [pAddr, hw]
  · exact ⟨_, onIssued_of hp, packetBecomes_modPkt ..⟩
  · have hexec := execWaitmemEvaluate_of hp hr
    refine ⟨fun hc hm => ⟨_, hexec.trans (if_pos ⟨hc, hm⟩), performed_becomes hm⟩, fun hc hh => ⟨_, hexec.trans ?_, performed_becomes (by decide)⟩, fun hno => ?_⟩
    · rw [if_neg fun h => h.1 hc, if_pos ⟨hc, hh⟩]
    · have h1 : ¬ (c ≠ St.ok ∧ c ≠ St.migratePending) := fun h => hno.elim (fun h' => h.1 h'.1) h.2
      have h2 : ¬ (c = St.ok ∧ condHolds (fieldLe p.raw 24 1 % 8) (8 * flagBytes p) (leNat d) (fieldLe p.raw 32 8) = true) := by
        rintro ⟨hok, hh⟩
        obtain ⟨_, hh'⟩ | hm := hno
        · exact absurd (hh.symm.trans hh') (by decide)
        · exact absurd (hok.symm.trans hm) (by decide)
      rw [if_neg h1, if_neg h2] at hexec
      split
      · next hdl =>
        rw [hexec, decide_eq_false (by omega)]
        rfl
      · next hdl =>
        rw [hexec, decide_eq_true (by omega)]
        exact ⟨_, rfl, fun hres => guilty_turns (((congrArg Queue.resetting ((hubFlag_side_of hr rfl : MemorySide s s1).getQueue q.val))).trans hres)⟩
  · intro x k res slot
    have hexec := execEnq_of hi hp
    refine ⟨fun ht => ?_, fun s1 ht hprobe => ⟨fun hg h0 => ?_, fun hg hd h0 => ?_, fun c b s2 hg hd hfirst hc hw => ⟨fun h0 => ?_, fun w b3 s3 hne hwm hw3 => ?_⟩⟩⟩
    · rw [hexec, enqStep_reserved rfl ht]
      exact ⟨_, rfl, performed_becomes (by decide)⟩
    · rw [hexec, enqStep_guilty rfl rfl rfl rfl ht hprobe hg h0]
      exact ⟨_, rfl, performed_becomes (by decide)⟩
    · rw [hexec, enqStep_full rfl rfl rfl rfl ht hprobe hg hd h0]
      refine ⟨_, rfl, ?_⟩
      split
      · exact packetBecomes_modPkt ..
      · exact performed_becomes (by decide)
    · rw [hexec, enqStep_accepted (x := x) (res := res) rfl rfl rfl rfl ht hprobe hg hd hfirst hw]
      have hcode : (if c = St.ok then (writeRes s2 x res c).1 else c) = c := by
        rw [writeRes_zero _ _ _ h0]
        split
        · next h => exact h.symm
        · rfl
      rw [hcode, writeRes_zero _ _ _ h0]
      exact ⟨_, rfl, performed_becomes hc⟩
    · rw [hexec, enqStep_accepted (x := x) (res := res) rfl rfl rfl rfl ht hprobe hg hd hfirst hw]
      have hwr : writeRes s2 x res c = (w, s3) := by
        rw [writeRes, if_neg hne, hw3]
      rw [hwr]
      refine ⟨_, rfl, performed_becomes ?_⟩
      split
      · exact hwm
      · exact hc

end Sys2Proof.Machine
end

section
/-!
PROOF. Block pools: their registers, the enable, the pool packets and the end of an epoch (R200, R240 to R245).
-/

namespace Sys2Proof.Machine

theorem setsPool_setPool (s : State) (p : Nat) (k : Pool) : SetsPool s (setPool s p k) p k :=
  ⟨rfl, tget_tset_self p k _, fun _ h => tget_tset_ne k h _⟩

theorem setsPool_modPool (s : State) (p : Nat) (f : Pool → Pool) : SetsPool s (modPool s p f) p (f (getPool s p)) :=
  setsPool_setPool ..

/-! ## POOLCTL (R241) -/

/-- A disabled pool after a write of POOLCTL. -/
theorem poolctlNew_disabled {k : Pool} (v : BitVec 32) (hb : k.busy = false) (hen : plEn k = false) :
    poolctlNew k v = { k with ctl := mergeMask 0x9FFFF000#32 k.ctl v, busy := bt v 31 } := by
  unfold poolctlNew
  rw [hb, hen, if_neg Bool.false_ne_true, if_neg Bool.false_ne_true]
  dsimp only
  cases bt v 31
  · rfl
  · rfl

/-- The fields of POOLCTL that a write sets are EN, SIZE and CTX. -/
theorem poolctlNew_fields {k : Pool} (v : BitVec 32) (hb : k.busy = false) (hen : plEn k = false) :
    bt (poolctlNew k v).ctl 31 = bt v 31 ∧ bf (poolctlNew k v).ctl 28 24 = bf v 28 24 ∧ bf (poolctlNew k v).ctl 23 12 = bf v 23 12 ∧
      poolctlNew k v = { k with ctl := (poolctlNew k v).ctl, busy := bt v 31 } := by
  rw [poolctlNew_disabled v hb hen]
  exact ⟨bt_mergeMask_in (m := 0x9FFFF000#32) _ _ (by decide), bf_mergeMask_in (m := 0x9FFFF000#32) _ _ (by decide),
    bf_mergeMask_in (m := 0x9FFFF000#32) _ _ (by decide), rfl⟩

theorem execPoolctlWrite_eq (p : PoolId) (view : View) (v : BitVec 32) (s : State) : exec (.poolctlWrite p view v) s =
    if isDriver s view && s.rst.done then .next (modPool s p.val fun k => poolctlNew k v) else .next s := rfl

/-! ## The enable (R241) -/

theorem execPoolEnableDone_off {p : PoolId} {s : State}
    (h : ¬ ((getPool s p.val).busy = true ∧ plEn (getPool s p.val) = true ∧ (getPool s p.val).closing = false)) :
    exec (.poolEnableDone p) s = .next s := by
  have hexec : exec (.poolEnableDone p) s = execPoolEnableDone p s := rfl
  rw [hexec, execPoolEnableDone, if_pos]
  rw [Bool.not_eq_true', Bool.eq_false_iff]
  intro hc
  simp only [Bool.and_eq_true, Bool.not_eq_true'] at hc
  exact h ⟨hc.1.1, hc.1.2, hc.2⟩

theorem execPoolEnableDone_on {p : PoolId} {s s1 s2 : State} {k : Pool} {c : Code} {b : List Byte} (hk : getPool s p.val = k)
    (hb : k.busy = true) (hen : plEn k = true) (hcl : k.closing = false)
    (hp : hubProbe (plCtx k) (linesOf (BitVec.ofNat 64 (plMeta k)) (freshMeta (plN k)).length .both) s = (false, s1))
    (hw : hubWrite s1 (plCtx k) 2 (BitVec.ofNat 64 (plMeta k)) .both (freshMeta (plN k)) .home = ⟨c, b, s2⟩) : exec (.poolEnableDone p) s =
      .next (if c = St.ok then setPool s2 p.val { k with busy := false, free := BitVec.ofNat 21 (plN k) }
        else rasCtx (setPool s2 p.val { k with ctl := sb k.ctl 31 false, busy := false, free := 0 }) (plCtx k) c 0xFFFF (unitId s 0 0)) := by
  have hexec : exec (.poolEnableDone p) s = execPoolEnableDone p s := rfl
  unfold freshMeta at hp hw
  rw [hexec]
  unfold execPoolEnableDone
  simp only [hk, hb, hen, hcl, Bool.not_false, Bool.and_self, Bool.not_true, Bool.false_eq_true, if_false, hp, hw]
  split <;> rfl

/-! ## Pool packets (R200, R241) -/

/-- The request of a pool packet. -/
def poolReqOf (q node off : Nat) (alloc : Bool) (p : PktRun) : PoolReq :=
  ⟨q, node, off, alloc, decide (fieldLe p.raw 17 1 = 1), fieldLe p.raw 18 2, BitVec.ofNat 64 (fieldLe p.raw 24 8),
    BitVec.ofNat 64 (fieldLe p.raw 32 8), p.issued, p.since⟩

/-- The command of a pool packet. -/
def poolInstr (q : QId) (node off : Nat) (alloc : Bool) : Instr := if alloc then .poolAlloc q node off else .poolFree q node off

theorem execPoolInstr_of {s : State} {q : QId} {node off : Nat} {p : PktRun} {alloc : Bool}
    (h : PacketIs s q.val node off (if alloc then 5 else 6) .issued p) :
    exec (poolInstr q node off alloc) s = .next (poolIssue s q.val node off p alloc) := by
  cases alloc
  · exact onIssued_of h
  · exact onIssued_of h

theorem poolOutcome_silent {s : State} {n : Nat} {r : PoolReq} {c : Code} (h : r.res = 0) :
    poolOutcome s n r c = performed s r.queue r.node r.off c := by
  have hw : writeRes s (plCtx (getPool s n)) r.res c = (St.ok, s) := if_pos h
  rw [poolOutcome, hw]
  rfl

theorem poolIssue_eq (s : State) (q node off : Nat) (p : PktRun) (alloc : Bool) (n : Nat) (k : Pool) (hn : fieldLe p.raw 16 1 = n)
    (hk : getPool s n = k) : poolIssue s q node off p alloc =
      if k.busy = true ∧ k.closing = false then s
      else if plEn k = false ∧ k.closing = false then
        poolOutcome s n (poolReqOf q node off alloc p) (if alloc then St.poolEmpty else St.cmdReserved)
      else modPkt (setPool s n { k with reqs := k.reqs ++ [poolReqOf q node off alloc p] }) q node off fun p => { p with st := .pooled } := by
  unfold poolIssue
  simp only [hn, hk, Bool.and_eq_true, Bool.not_eq_true']
  rfl

/-! ## The end of an epoch (R242 to R244) -/

/-- A pool whose one request waits for its step. -/
def stepped (k : Pool) : Pool := { k with steps := [(1, false)] }

/-- The package at the end of an epoch with one pool, whose one request waits for its step. -/
def epochState (s : State) (p : Nat) (k : Pool) : State :=
  { s with epochDue := false, poolEpoch := s.now, pools := [(p, { k with steps := [(1, false)] })] }

/-- The pool after a step that leaves the requests `w`. -/
def stepDone (w : List PoolReq) (k : Pool) : Pool := { k with reqs := w ++ k.reqs.drop 1, steps := [] }

/-- A pool with one block fewer on its stack. -/
def blockPopped (k : Pool) : Pool := { k with free := k.free - 1 }

section
variable {s s1 : State} {p : Nat} {k : Pool} {r : PoolReq}

theorem execPoolEpochEnd_idle (h : ¬ EpochEnds s) (hs : ∀ i ∈ s.pools, i.2.steps = []) : exec .poolEpochEnd s = .next s := by
  have hexec : exec .poolEpochEnd s = execPoolEpochEnd s := rfl
  have hdue : (s.epochDue || decide (s.poolEpoch + 20000 ≤ s.now)) = false := by
    rw [Bool.eq_false_iff]
    intro hc
    rw [Bool.or_eq_true, decide_eq_true_eq] at hc
    exact h hc
  have hnone : (s.pools.filter fun p => decide (p.2.steps ≠ [])) = [] := by
    rw [List.filter_eq_nil_iff]
    intro i hi
    simp [hs i hi]
  rw [hexec, execPoolEpochEnd, hdue, if_neg Bool.false_ne_true, hnone]
  rfl

theorem getPool_epochState : getPool (epochState s p k) p = stepped k := if_pos rfl

variable (hreqs : k.reqs = [r])
include hreqs

theorem execPoolEpochEnd_single (h : EpochEnds s) (hpools : s.pools = [(p, k)]) (hsteps : k.steps = []) (hclose : k.closing = false) :
    exec .poolEpochEnd s = .next (poolStep (epochState s p k) p) := by
  have hexec : exec .poolEpochEnd s = execPoolEpochEnd s := rfl
  have hdue : (s.epochDue || decide (s.poolEpoch + 20000 ≤ s.now)) = true := by
    rw [Bool.or_eq_true, decide_eq_true_eq]
    exact h
  have hget : getPool { s with epochDue := false, poolEpoch := s.now } p = k := by
    unfold getPool
    dsimp only
    rw [hpools]
    exact if_pos rfl
  have hne : stepped k ≠ {} := fun hc => absurd (congrArg Pool.steps hc) (List.cons_ne_nil _ _)
  have hepoch : modPool { s with epochDue := false, poolEpoch := s.now } p epochOf = epochState s p k := by
    have hk : epochOf k = stepped k := by
      simp [epochOf, hreqs, hsteps, hclose, stepped]
    rw [modPool, hget, hk, setPool]
    dsimp only
    rw [hpools, tset, if_neg (lt_irrefl p), if_pos rfl, if_neg hne]
    rfl
  have heach : forEach { s with epochDue := false, poolEpoch := s.now } (s.pools.map Prod.fst) (fun s n => modPool s n epochOf) =
      epochState s p k := by
    have hkeys : s.pools.map Prod.fst = [p] := by rw [hpools]; rfl
    rw [hkeys]
    exact hepoch
  have hsel : ((epochState s p k).pools.filter fun p => decide (p.2.steps ≠ [])) = [(p, stepped k)] := rfl
  rw [hexec, execPoolEpochEnd, hdue, if_pos rfl, heach, hsel]
  rfl

theorem poolStep_single {u : State} (hu : getPool u p = stepped k) (halloc : r.alloc = true)
    (hp : poolProbe u k [r] = (false, s1)) :
    poolStep u p = modPool (grantAll p [r] false s1 []).1 p (stepDone (grantAll p [r] false s1 []).2) := by
  have hprobe : poolProbe u (stepped k) [r] = (false, s1) := hp
  have htake : (stepped k).reqs.take 1 = [r] := by
    rw [show (stepped k).reqs = [r] from hreqs]
    rfl
  have hfrees : (([r].filter fun r => !r.alloc).insertionSort fun a b => rankLe (issueRank a) (issueRank b)) = [] := by
    simp [halloc]
  have hallocs : (([r].filter fun r => r.alloc).insertionSort fun a b => rankLe (reqRank u a) (reqRank u b)) = [r] := by
    simp [halloc]
  unfold poolStep
  rw [hu]
  dsimp only [stepped]
  rw [show k.reqs.take 1 = [r] from htake, show poolProbe u { k with steps := [(1, false)] } [r] = (false, s1) from hprobe]
  dsimp only
  rw [hfrees, hallocs]
  rfl

end

section
variable {s : State} {p : Nat} {k : Pool} {r : PoolReq} (hk : getPool s p = k)
include hk

theorem grantAll_held (h : k.free.toNat < r.count) (hw : r.wait = true) : grantAll p [r] false s [] = (s, [r]) := by
  rw [grantAll, hk, decide_eq_false (by omega), if_neg (by decide), if_pos hw]
  rfl

theorem grantAll_empty (h : k.free.toNat < r.count) (hw : r.wait = false) :
    grantAll p [r] false s [] = (poolOutcome s p r St.poolEmpty, []) := by
  rw [grantAll, hk, decide_eq_false (by omega), if_neg (by decide), hw, if_neg (by decide)]
  rfl

theorem grantAll_granted (h : r.count ≤ k.free.toNat) : grantAll p [r] false s [] = (grantOne p s r, []) := by
  rw [grantAll, hk, decide_eq_true h, if_pos (by decide)]
  rfl

/-- A grant of one block: the top of the stack, its bit in the map, and its address at DST. -/
theorem grantOne_single {d m b5 b4 : List Byte} {b : Code} {s2 s3 s4 s5 : State} (hc : r.count = 1)
    (h2 : hubReadBoth s (plCtx k) 2 (stackAt k (k.free.toNat - 1)) 4 .home = ⟨St.ok, d, s2⟩)
    (h3 : hubReadBoth s2 (plCtx k) 2 (mapAt k (leNat d)) 1 .home = ⟨St.ok, m, s3⟩)
    (h4 : hubWrite s3 (plCtx k) 2 (mapAt k (leNat d)) .both [sb (BitVec.ofNat 8 (leNat m)) (leNat d % 8) true] .home = ⟨St.ok, b4, s4⟩)
    (hk4 : getPool s4 p = k)
    (h5 : hubWrite (setPool s4 p (blockPopped k)) (plCtx k) 2 r.addr .write (toLe 8 (plBase k + leNat d * plSize k)) .home = ⟨b, b5, s5⟩) :
    grantOne p s r = poolOutcome s5 p r b := by
  have hmark : markBlock s2 k (leNat d) true = (St.ok, s4) := by
    unfold markBlock
    rw [h3]
    dsimp only
    rw [if_neg (by decide), h4]
  have hpop : popBlocks p 1 s [] = (St.ok, [plBase k + leNat d * plSize k], setPool s4 p (blockPopped k)) := by
    unfold popBlocks
    rw [hk]
    dsimp only
    rw [h2]
    dsimp only
    rw [if_neg (by decide), hmark]
    dsimp only
    rw [if_neg (by decide), popBlocks, modPool, hk4]
    rfl
  have hbytes : ([plBase k + leNat d * plSize k].flatMap fun a => toLe 8 a) = toLe 8 (plBase k + leNat d * plSize k) := by
    rw [List.flatMap_cons, List.flatMap_nil, List.append_nil]
  have hctx : plCtx (getPool (setPool s4 p (blockPopped k)) p) = plCtx k := by
    rw [getPool_setPool_self]
    rfl
  unfold grantOne
  rw [hc, hpop]
  dsimp only
  rw [if_neg (by decide), hbytes, hctx, h5]

end

theorem getPool_performed (s : State) (q node off : Nat) (c : Code) (p : Nat) : getPool (performed s q node off c) p = getPool s p := by
  unfold performed
  split <;> rfl

theorem stepDone_stepped {k : Pool} {r : PoolReq} {w : List PoolReq} (hreqs : k.reqs = [r]) (hsteps : k.steps = []) :
    stepDone w (stepped k) = { k with reqs := w } := by
  unfold stepDone stepped
  rw [show ({ k with steps := [(1, false)] } : Pool).reqs = [r] from hreqs, List.drop_one, List.tail_cons, List.append_nil, ← hsteps]

/-- Settles O45: the pool registers, the enable, the pool packets and the grant at the end of an epoch. -/
theorem poolsServe : Obligations.PoolsServe := by
  intro s p
  refine ⟨fun view v => ?_, ⟨fun h => execPoolEnableDone_off h, fun c b s1 s2 hb hen hcl hprobe hw => ?_⟩, fun q node off r alloc hp => ?_,
    fun h hs => execPoolEpochEnd_idle h hs, fun k r s1 hend hpools hreqs hsteps hclose halloc hres hprobe => ?_⟩
  · rw [execPoolctlWrite_eq]
    have hd := driverWrites_iff s view
    by_cases h : (isDriver s view && s.rst.done) = true
    · rw [if_pos h, if_pos (hd.1 h)]
      refine ⟨_, _, rfl, setsPool_modPool .., fun hb => if_pos hb, fun hb hen => ?_, fun hb hen => poolctlNew_fields v hb hen⟩
      unfold poolctlNew
      rw [hb, hen]
      rfl
    · rw [if_neg h, if_neg fun hc => h (hd.2 hc)]
  · rw [execPoolEnableDone_on rfl hb hen hcl hprobe hw]
    refine ⟨fun hc => ?_, fun hc => ?_⟩
    · rw [if_pos hc]
      exact ⟨_, rfl, setsPool_setPool ..⟩
    · rw [if_neg hc]
      have hside : ∀ u : State, MemorySide u (rasCtx u (plCtx (getPool s p.val)) c 0xFFFF (unitId s 0 0)) := fun u => rasCtx_side rfl
      have hs2 : MemorySide s s2 := hubWrite_side_of hw (hubProbe_side_of hprobe rfl)
      refine ⟨_, rfl, ?_, fun d hd => ?_⟩
      · rw [(hside _).getPool, getPool_setPool_self]
      · rw [(hside _).getPool, getPool_setPool_ne _ _ hd, hs2.getPool]
  · intro i n k
    have hexec : exec i s = _ := execPoolInstr_of hp
    rw [poolIssue_eq s q.val node off r alloc n k rfl rfl] at hexec
    split
    · next h => rw [hexec, if_pos h]
    · next h =>
      rw [if_neg h] at hexec
      split
      · next h2 =>
        intro h0
        rw [hexec, if_pos h2, poolOutcome_silent h0]
        exact ⟨_, rfl, performed_becomes (by cases alloc <;> decide)⟩
      · next h2 =>
        rw [hexec, if_neg h2]
        exact ⟨_, rfl, packetBecomes_modPkt ..⟩
  · have hs1 : MemorySide (epochState s p.val k) s1 := poolProbe_side_of hprobe rfl
    have hk1 : getPool s1 p.val = stepped k := (hs1.getPool p.val).trans getPool_epochState
    have hexec := (execPoolEpochEnd_single hreqs hend hpools hsteps hclose).trans
      (congrArg Host.Outcome.next (poolStep_single hreqs getPool_epochState halloc hprobe))
    refine ⟨fun hlt hw => ?_, fun hlt hw => ?_, fun d m b b4 b5 s2 s3 s4 s5 hc hfree h2 h3 h4 h5 hb => ?_⟩
    · rw [grantAll_held hk1 hlt hw] at hexec
      refine ⟨_, hexec, ?_, hs1.queues⟩
      rw [getPool_modPool_self, hk1, stepDone_stepped hreqs hsteps, ← hreqs]
    · rw [grantAll_empty hk1 hlt hw, poolOutcome_silent hres] at hexec
      refine ⟨_, hexec, ?_, ?_⟩
      · rw [getPool_modPool_self, getPool_performed, hk1, stepDone_stepped hreqs hsteps]
      · refine (performed_becomes (by decide)).packet.trans ?_
        rw [hs1.pktOf]
        rfl
    · have hs4 : MemorySide s1 s4 := hubWrite_side_of h4 (hubReadBoth_side_of h3 (hubReadBoth_side_of h2 rfl))
      have hk4 : getPool s4 p.val = stepped k := (hs4.getPool p.val).trans hk1
      have hs5 : MemorySide (setPool s4 p.val (blockPopped (stepped k))) s5 := hubWrite_side_of h5 rfl
      rw [grantAll_granted hk1 (hc ▸ hfree), grantOne_single hk1 hc h2 h3 h4 hk4 h5, poolOutcome_silent hres] at hexec
      refine ⟨_, hexec, ?_, ?_⟩
      · rw [getPool_modPool_self, getPool_performed, hs5.getPool, getPool_setPool_self]
        exact stepDone_stepped (k := blockPopped k) hreqs hsteps
      · refine (performed_becomes hb).packet.trans ?_
        rw [hs5.pktOf, show pktOf (setPool s4 p.val (blockPopped (stepped k))) r.queue r.node r.off = pktOf s4 r.queue r.node r.off from rfl,
          hs4.pktOf, hs1.pktOf]
        rfl

end Sys2Proof.Machine
end

section
/-!
PROOF. Graph packets: GINIT, GPATCH and GRETIRE (R203 to R206).
-/

namespace Sys2Proof.Machine

section
variable {s s1 s2 : State} {q node off : Nat} {p : PktRun} {x : Nat} {h a : BitVec 64} {hb : List Byte}

/-! ## GINIT (R203) -/

section
variable (hx : qCtx (getQueue s q) = x) (hh : pAddr p.raw = h) (ha : pRes p.raw 24 = a)
  (hprobe : hubProbe x [(h, .both), (a, .both)] s = (false, s1)) (hread : hubRead s1 x 2 h 64 .home = ⟨St.ok, hb, s2⟩)
include hx hh ha hprobe hread

theorem ginitStep_live (hl : fieldLe hb 12 1 = 1) : ginitStep s q node off p = performed s2 q node off St.cmdReserved := by
  unfold ginitStep
  simp only [hx, hh, ha, hprobe, hread, ghLive, hl, ne_eq, not_true_eq_false, if_false, if_true]

theorem ginitStep_unread {c : Code} {img : List Byte} {s3 : State} (hl : fieldLe hb 12 1 ≠ 1) (hi : readImage s2 x a = ⟨c, img, s3⟩)
    (hc : c ≠ St.ok) : ginitStep s q node off p = performed s3 q node off c := by
  unfold ginitStep
  simp only [hx, hh, ha, hprobe, hread, ghLive, hl, hi, hc, ne_eq, not_true_eq_false, not_false_eq_true, if_false, if_true]

theorem ginitStep_badImage {img : List Byte} {s3 : State} (hl : fieldLe hb 12 1 ≠ 1) (hi : readImage s2 x a = ⟨St.ok, img, s3⟩)
    (hok : imageOk img = false) : ginitStep s q node off p = performed s3 q node off St.cmdReserved := by
  unfold ginitStep
  simp only [hx, hh, ha, hprobe, hread, ghLive, hl, hi, hok, Bool.not_false, ne_eq, not_true_eq_false, if_false, if_true]

theorem ginitStep_made {img b4 b5 : List Byte} {s3 s4 s5 : State} {c : Code} (hl : fieldLe hb 12 1 ≠ 1)
    (hi : readImage s2 x a = ⟨St.ok, img, s3⟩) (hok : imageOk img = true)
    (h4 : hubWrite s3 x 2 (a + 8) .both (toLe 4 1 ++ toLe 4 0 ++ toLe 8 h.toNat) .home = ⟨St.ok, b4, s4⟩)
    (h5 : hubWrite s4 x 2 h .both (toLe 8 a.toNat ++ toLe 4 1 ++ toLe 4 1 ++ toLe 8 0 ++ toLe 40 0) .home = ⟨c, b5, s5⟩) :
    ginitStep s q node off p = performed s5 q node off c := by
  unfold ginitStep
  simp only [hx, hh, ha, hprobe, hread, ghLive, hl, hi, hok, h4, h5, Bool.not_true, Bool.false_eq_true, ne_eq, not_true_eq_false, if_false]

end

/-! ## GPATCH (R204, R205, R438) -/

theorem applyPatches_side {a₀ : State} {x : Nat} {src dst : BitVec 64} {nn : Nat} : ∀ (l : List Nat) {s : State}, MemorySide a₀ s →
    MemorySide a₀ (applyPatches x src dst nn l s).2
  | [], _, hs => hs
  | i :: l, s, hs => by
    rw [applyPatches]
    split
    next c e s1 h1 =>
      have hs1 := hubRead_side_of h1 hs
      split
      · exact hs1
      · split
        · exact hs1
        · split
          next c2 b2 s2 h2 =>
            have hs2 := hubWrite_side_of h2 hs1
            split
            · exact hs2
            · exact applyPatches_side l hs2

theorem applyPatches_side_of {a₀ s t : State} {x : Nat} {src dst : BitVec 64} {nn : Nat} {l : List Nat} {c : Code}
    (h : applyPatches x src dst nn l s = (c, t)) (hs : MemorySide a₀ s) : MemorySide a₀ t := by
  have := applyPatches_side (x := x) (src := src) (dst := dst) (nn := nn) l hs
  rwa [h] at this

section
variable (hx : qCtx (getQueue s q) = x) (hh : pAddr p.raw = h) (ha : pRes p.raw 24 = a)
  (hprobe : hubProbe x ((h, .both) :: linesOf a (32 * fieldLe p.raw 32 2) .read) s = (false, s1))
  (hread : hubRead s1 x 2 h 64 .home = ⟨St.ok, hb, s2⟩)
include hx hh ha hprobe hread

theorem gpatchStep_dead (hl : fieldLe hb 12 1 ≠ 1) : gpatchStep s q node off p = performed s2 q node off St.cmdReserved := by
  unfold gpatchStep
  simp only [hx, hh, ha, hprobe, hread, ghLive, hl, ne_eq, not_true_eq_false, not_false_eq_true, if_false, if_true]

variable {img : List Byte} {s3 : State} {dst : BitVec 64} (hl : fieldLe hb 12 1 = 1) (hd : pRes p.raw 40 = dst)
  (hi : readImage s2 x (BitVec.ofNat 64 (fieldLe hb 0 8)) = ⟨St.ok, img, s3⟩)
include hl hi hd

theorem gpatchStep_overlap (ho : dst.toNat < fieldLe hb 0 8 + img.length ∧ fieldLe hb 0 8 < dst.toNat + img.length) :
    gpatchStep s q node off p = performed s3 q node off St.cmdReserved := by
  unfold gpatchStep
  simp only [hx, hh, ha, hprobe, hread, ghLive, hl, hi, hd, ne_eq, not_true_eq_false, if_false]
  exact if_pos ho

theorem gpatchStep_copy {s4 : State} (ho : ¬ (dst.toNat < fieldLe hb 0 8 + img.length ∧ fieldLe hb 0 8 < dst.toNat + img.length))
    (hp : hubProbe x (linesOf dst img.length .both) s3 = (false, s4)) : gpatchStep s q node off p = gpatchCopy s4 q node off p hb img := by
  unfold gpatchStep
  simp only [hx, hh, ha, hprobe, hread, ghLive, hl, hi, hd, hp, ne_eq, not_true_eq_false, if_false]
  exact if_neg ho

end

section
variable (hx : qCtx (getQueue s q) = x) (hh : pAddr p.raw = h) (ha : pRes p.raw 24 = a) {img b5 : List Byte} {dst : BitVec 64}
  (hd : pRes p.raw 40 = dst) {s5 s6 : State} {c : Code} (h5 : hubWrite s x 2 dst .both img .home = ⟨St.ok, b5, s5⟩)
  (h6 : applyPatches x a dst (fieldLe img 0 2) (List.range (fieldLe p.raw 32 2)) s5 = (c, s6))
include hx ha hd h5 h6

theorem gpatchCopy_badPatch (hc : c ≠ St.ok) : gpatchCopy s q node off p hb img = performed s6 q node off c := by
  unfold gpatchCopy
  simp only [hx, ha, hd, h5, h6, hc, ne_eq, not_true_eq_false, not_false_eq_true, if_false, if_true]

include hh

theorem gpatchCopy_switch {b7 b8 : List Byte} {s7 s8 : State} (hc : c = St.ok)
    (h7 : hubWrite s6 x 2 (dst + 8) .both (toLe 4 ((fieldLe hb 8 4 + 1) % 2 ^ 32) ++ toLe 4 0 ++ toLe 8 h.toNat) .home = ⟨St.ok, b7, s7⟩)
    (h8 : hubWrite s7 x 2 h .both (toLe 8 dst.toNat ++ toLe 4 ((fieldLe hb 8 4 + 1) % 2 ^ 32)) .home = ⟨St.ok, b8, s8⟩) :
    gpatchCopy s q node off p hb img = if fieldLe img 12 4 = 0 then
      freedEvent (performed s8 q node off St.ok) x (BitVec.ofNat 64 (fieldLe hb 0 8)) else performed s8 q node off St.ok := by
  have h57 : MemorySide s s7 := hubWrite_side_of h7 (applyPatches_side_of h6 (hubWrite_side_of h5 rfl))
  have hx7 : qCtx (getQueue s7 q) = x := by rw [h57.getQueue, hx]
  have hsw : gpatchSwitch s7 q node off p hb img = if fieldLe img 12 4 = 0 then
      freedEvent (performed s8 q node off St.ok) x (BitVec.ofNat 64 (fieldLe hb 0 8)) else performed s8 q node off St.ok := by
    unfold gpatchSwitch
    simp only [hx7, hh, hd, h8, ne_eq, not_true_eq_false, if_false]
  subst hc
  unfold gpatchCopy
  simp only [hx, hh, ha, hd, h5, h6, h7, ne_eq, not_true_eq_false, if_false]
  exact hsw

end

end

/-! ## GRETIRE (R205, R206) -/

section
variable {s s1 s2 : State} {q : QId} {node off : Nat} {p : PktRun} {x : Nat} {h : BitVec 64} {hb : List Byte}
  (hp : PacketIs s q.val node off 10 .issued p) (hx : qCtx (getQueue s q.val) = x) (hh : pAddr p.raw = h)
  (hprobe : hubProbe x [(h, .both)] s = (false, s1)) (hread : hubRead s1 x 2 h 64 .home = ⟨St.ok, hb, s2⟩)
include hp hx hh hprobe hread

theorem execGretire_dead (hl : fieldLe hb 12 1 ≠ 1) : exec (.gretire q node off) s = .next (performed s2 q.val node off St.cmdReserved) := by
  refine (onIssued_of hp).trans ?_
  simp only [hx, hh, hprobe, hread, ghLive, hl, ne_eq, not_true_eq_false, not_false_eq_true, if_false, if_true]

theorem execGretire_retired {rb b4 : List Byte} {s3 s4 : State} (hl : fieldLe hb 12 1 = 1)
    (h3 : hubRead s2 x 2 (BitVec.ofNat 64 (fieldLe hb 0 8) + 12) 4 .home = ⟨St.ok, rb, s3⟩)
    (h4 : hubWrite s3 x 2 (h + 12) .both [2] .home = ⟨St.ok, b4, s4⟩) : exec (.gretire q node off) s = .next (if leNat rb = 0 then
      freedEvent (performed s4 q.val node off St.ok) x (BitVec.ofNat 64 (fieldLe hb 0 8)) else performed s4 q.val node off St.ok) := by
  have h4' : hubWrite s3 x 2 (h + 12) .both [BitVec.ofNat 8 ghRetired] .home = ⟨St.ok, b4, s4⟩ := h4
  refine (onIssued_of hp).trans ?_
  simp only [hx, hh, hprobe, hread, ghLive, hl, h3, h4', ne_eq, not_true_eq_false, if_false]

end

/-- Settles O46: the checks and effects of the graph packets. -/
theorem graphsChange : Obligations.GraphsChange := by
  intro s s1 s2 q node off p hb x h a
  refine ⟨fun hp hprobe hread => ⟨fun hl => ?_, fun c img s3 hl hi hc hm => ?_, fun img s3 hl hi => ⟨fun hok => ?_, fun c b4 b5 s4 s5 hok h4 h5 hm => ?_⟩⟩,
    fun hp hprobe hread => ⟨fun hl => ?_, fun img s3 hl hi => ⟨fun ho => ?_, fun c b5 s4 s5 s6 ho hpd h5 h6 => ⟨fun hc hm => ?_, fun b7 b8 s7 s8 hc h7 h8 => ?_⟩⟩⟩,
    fun hp hprobe hread => ⟨fun hl => ?_, fun rb b4 s3 s4 hl h3 h4 => ?_⟩⟩
  · exact ⟨_, (onIssued_of hp).trans (congrArg _ (ginitStep_live rfl rfl rfl hprobe hread hl)), performed_becomes (by decide)⟩
  · exact ⟨_, (onIssued_of hp).trans (congrArg _ (ginitStep_unread rfl rfl rfl hprobe hread hl hi hc)), performed_becomes hm⟩
  · exact ⟨_, (onIssued_of hp).trans (congrArg _ (ginitStep_badImage rfl rfl rfl hprobe hread hl hi hok)), performed_becomes (by decide)⟩
  · exact ⟨_, (onIssued_of hp).trans (congrArg _ (ginitStep_made rfl rfl rfl hprobe hread hl hi hok h4 h5)), performed_becomes hm⟩
  · exact ⟨_, (onIssued_of hp).trans (congrArg _ (gpatchStep_dead rfl rfl rfl hprobe hread hl)), performed_becomes (by decide)⟩
  · exact ⟨_, (onIssued_of hp).trans (congrArg _ (gpatchStep_overlap rfl rfl rfl hprobe hread hl rfl hi ho)), performed_becomes (by decide)⟩
  · have hx4 : qCtx (getQueue s4 q.val) = x :=
      congrArg qCtx ((hubProbe_side_of hpd (readImage_side_of hi (hubRead_side_of hread (hubProbe_side_of hprobe rfl))) : MemorySide s s4).getQueue q.val)
    have hcopy := (gpatchStep_copy (node := node) (off := off) rfl rfl rfl hprobe hread hl rfl hi ho hpd).trans (gpatchCopy_badPatch hx4 rfl rfl h5 h6 hc)
    exact ⟨_, (onIssued_of hp).trans (congrArg _ hcopy), performed_becomes hm⟩
  · have hx4 : qCtx (getQueue s4 q.val) = x :=
      congrArg qCtx ((hubProbe_side_of hpd (readImage_side_of hi (hubRead_side_of hread (hubProbe_side_of hprobe rfl))) : MemorySide s s4).getQueue q.val)
    have hcopy := (gpatchStep_copy (node := node) (off := off) rfl rfl rfl hprobe hread hl rfl hi ho hpd).trans (gpatchCopy_switch hx4 rfl rfl rfl h5 h6 hc h7 h8)
    have hexec : exec (.gpatch q node off) s = _ := (onIssued_of hp).trans (congrArg _ hcopy)
    refine ⟨fun hr => ?_, fun hr => ?_⟩
    · rw [if_neg hr] at hexec
      exact ⟨_, hexec, performed_becomes (by decide)⟩
    · rw [if_pos hr] at hexec
      exact ⟨_, _, hexec, performed_becomes (by decide), rfl⟩
  · exact ⟨_, execGretire_dead hp rfl rfl hprobe hread hl, performed_becomes (by decide)⟩
  · have hexec := execGretire_retired hp rfl rfl hprobe hread hl h3 h4
    refine ⟨fun hr => ?_, fun hr => ?_⟩
    · rw [if_neg hr] at hexec
      exact ⟨_, hexec, performed_becomes (by decide)⟩
    · rw [if_pos hr] at hexec
      exact ⟨_, _, hexec, performed_becomes (by decide), rfl⟩

end Sys2Proof.Machine
end

section
/-!
PROOF. The scheduler: grants, timed gangs and pre-emption (R220 to R230).
-/

namespace Sys2Proof.Machine

section
variable {s : State} {g : Nat} {x : Gang}

/-! ## Grants (R222, R223) -/

/-- A choice of cores carried out, or nothing without one. -/
def withCores (s : State) (cs : Option (List Nat)) (f : List Nat → State) : State :=
  match cs with
  | none => s
  | some cs => f cs

theorem execCoreGrant_of (h : ServedNext s x) (hst : x.st = .waiting) (hrel : x.release = none) : exec .coreGrant s =
    .next (withCores s (chooseCores s x.ctx x.want) fun cs => placeGang s x cs .granted .granted) := by
  have hexec : exec .coreGrant s = execCoreGrant s := rfl
  rw [hexec, execCoreGrant, topGang_of h]
  dsimp only
  rw [if_neg (by simp [hst, hrel])]
  cases chooseCores s x.ctx x.want <;> rfl

/-! ## Timed gangs (R225 to R227) -/

/-- A core prepared for a rank of gang `x`. -/
def preparedFor (x : Gang) (r : Nat) (k : CoreSt) : CoreSt := { prepareKernel k x r with phase := .prepared, gang := some x.id }

/-- Gang `x` placed on the cores `cs` and prepared there. -/
def prepareGang (s : State) (x : Gang) (cs : List Nat) : State :=
  forEach (placeGang s x cs .prepared .prepared) ((openRanks x).zip cs) fun s p => modCore s p.2 (preparedFor x p.1)

theorem execTimedPrepare_of (h : ServedNext s x) (hid : x.id = g) (hst : x.st = .waiting ∨ x.st = .prepared) (hrel : x.release ≠ none) :
    exec (.timedPrepare g) s = .next (withCores s (chooseCores s x.ctx (openRanks x).length) (prepareGang s x)) := by
  have hexec : exec (.timedPrepare g) s = execTimedPrepare g s := rfl
  have hgo : ¬ (x.id ≠ g ∨ x.st = .saved ∨ x.release = none) := by
    rintro (hc | hc | hc)
    · exact hc hid
    · rw [hc] at hst
      exact absurd hst (by decide)
    · exact hrel hc
  rw [hexec, execTimedPrepare, topGang_of h]
  dsimp only
  rw [if_neg hgo, ← hid]
  cases chooseCores s x.ctx (openRanks x).length <;> rfl

theorem prepareGang_gangs (s : State) (x : Gang) (cs : List Nat) : (prepareGang s x cs).gangs =
    s.gangs.map fun y => if y.id = x.id then { x with st := .prepared, cores := x.cores ++ (openRanks x).zip cs } else y := by
  have h := forEach_cores (f := fun (s : State) (p : Nat × Nat) => modCore s p.2 (preparedFor x p.1)) (fun _ _ => rfl)
    ((openRanks x).zip cs) (placeGang s x cs .prepared .prepared)
  rw [prepareGang, h]
  exact (placeGang_placed s x cs .prepared .prepared).gangs

section
variable {cs : List Nat} (hcs : cs.Nodup)
include hcs

theorem zip_nodup (l : List Nat) : ((l.zip cs).map Prod.snd).Nodup := hcs.sublist (zip_snd_sublist l cs)

theorem prepareGang_other {c : Nat} (hc : c ∉ cs) : getCore (prepareGang s x cs) c = getCore s c := by
  have hnone : ((openRanks x).zip cs).find? (fun p => decide (p.2 = c)) = none := by
    rw [List.find?_eq_none]
    intro p hp hpc
    rw [decide_eq_true_eq] at hpc
    exact hc (hpc ▸ (List.of_mem_zip hp).2)
  rw [prepareGang, getCore_forEach_pairs (f := preparedFor x) c _ _ (zip_nodup hcs _), hnone]
  dsimp only
  rw [(placeGang_placed s x cs .prepared .prepared).cores, if_neg hc]

theorem prepareGang_placed {p : Nat × Nat} (hp : p ∈ (openRanks x).zip cs) : getCore (prepareGang s x cs) p.2 =
    preparedFor x p.1 { getCore s p.2 with phase := .prepared, gang := some x.id } := by
  have hfind : ((openRanks x).zip cs).find? (fun q => decide (q.2 = p.2)) = some p := by
    cases hq : ((openRanks x).zip cs).find? (fun q => decide (q.2 = p.2)) with
    | none => exact absurd (decide_eq_true rfl) (List.find?_eq_none.1 hq p hp)
    | some q =>
      have hmem := List.mem_of_find?_eq_some hq
      have hsnd : q.2 = p.2 := by simpa using List.find?_some hq
      rw [List.inj_on_of_nodup_map (zip_nodup hcs (openRanks x)) hmem hp hsnd]
  rw [prepareGang, getCore_forEach_pairs (f := preparedFor x) p.2 _ _ (zip_nodup hcs _), hfind]
  dsimp only
  rw [(placeGang_placed s x cs .prepared .prepared).cores, if_pos (List.of_mem_zip hp).2]

end

/-- A core whose kernel runs. -/
def kernelRuns (k : CoreSt) : CoreSt := { k with phase := .running }

theorem startGang_spec (s : State) (x : Gang) :
    startGang s x = { setGang s { x with st := .running, started := s.now } with cores := (startGang s x).cores, towers := (startGang s x).towers } ∧
      ∀ c, getCore (startGang s x) c = if c ∈ x.cores.map Prod.snd then { getCore s c with phase := .running } else getCore s c :=
  forEach_acquire (f := kernelRuns) (fun _ => rfl) x.cores (setGang s { x with st := .running, started := s.now })

theorem gangOf_startGang (h : gangOf s g = some x) : gangOf (startGang s x) g = some { x with st := .running, started := s.now } := by
  have hid := gangOf_id h
  have hset : gangOf (startGang s x) g = gangOf (setGang s { x with st := .running, started := s.now }) g := by
    rw [(startGang_spec s x).1]
    rfl
  rw [hset, gangOf_setGang, if_pos hid.symm, h]
  rfl

theorem queues_startGang (s : State) (x : Gang) : (startGang s x).queues = s.queues := by
  rw [(startGang_spec s x).1]
  rfl

section
variable {T : BitVec 64} {n : NodeRun} (hx : gangOf s g = some x) (hrel : x.release = some T) (hn : nodeOf s x.queue x.node = some n)
include hx hrel hn

theorem execTimedRelease_early (h : s.plumb.count.toNat < T.toNat ∨ openRanks x ≠ []) : exec (.timedRelease g) s = .next s := by
  have hexec : exec (.timedRelease g) s = execTimedRelease g s := rfl
  have hno : decide (x.st = .prepared ∧ openRanks x = [] ∧ T.toNat ≤ s.plumb.count.toNat) = false := by
    rw [decide_eq_false_iff_not]
    rintro ⟨_, ho, ht⟩
    obtain h | h := h
    · omega
    · exact h ho
  rw [hexec]
  unfold execTimedRelease
  simp only [hx, hrel, hn, hno, Bool.false_and, Bool.not_false, if_true]

variable (hst : x.st = .prepared) (ht : T.toNat ≤ s.plumb.count.toNat) (ho : openRanks x = []) (hres : (getQueue s x.queue).resetting = false)
include hst ht ho hres

theorem execTimedRelease_issued (h : pktOf s x.queue x.node x.off ≠ none) : exec (.timedRelease g) s = .next (startGang s x) := by
  have hexec : exec (.timedRelease g) s = execTimedRelease g s := rfl
  have hyes : decide (x.st = .prepared ∧ openRanks x = [] ∧ T.toNat ≤ s.plumb.count.toNat) = true := decide_eq_true ⟨hst, ho, ht⟩
  rw [hexec]
  unfold execTimedRelease
  simp only [hx, hrel, hn, hyes, hres, Bool.not_false, Bool.and_self, Bool.not_true, Bool.false_eq_true, if_false,
    Option.isSome_iff_ne_none.2 h, if_true]

theorem execTimedRelease_issues (h : pktOf s x.queue x.node x.off = none) (hrun : n.st = .running) (hoff : n.next = x.off)
    (hw : waitsMet n x.pkt = true) :
    exec (.timedRelease g) s = .next (startGang (issuePkt s x.queue x.node x.pkt (.dispatched g)) x) := by
  have hexec : exec (.timedRelease g) s = execTimedRelease g s := rfl
  have hyes : decide (x.st = .prepared ∧ openRanks x = [] ∧ T.toNat ≤ s.plumb.count.toNat) = true := decide_eq_true ⟨hst, ho, ht⟩
  rw [hexec]
  unfold execTimedRelease
  simp only [hx, hrel, hn, hyes, hres, Bool.not_false, Bool.and_self, Bool.not_true, Bool.false_eq_true, if_false, h, Option.isSome_none,
    hrun, hoff, hw, and_self, if_true]

end

/-! ## Pre-emption (R229, R230) -/

theorem execPreempt_enough (h : ServedNext s x) (hn : (openRanks x).length ≤ freeCores s) : exec (.preempt g) s = .next s := by
  have hexec : exec (.preempt g) s = execPreempt g s := rfl
  rw [hexec, execPreempt, topGang_of h]
  exact if_pos (Or.inr hn)

section
variable {v : Gang}

theorem chooseVictims_short {u : State} {need : Nat} (hn : need ≠ 0) (h : v.cores.length < need) : chooseVictims s [v] need u [] = none := by
  rw [chooseVictims, if_neg hn]
  split
  · rw [chooseVictims, if_neg hn]
  · rw [chooseVictims, if_neg (by omega)]

theorem chooseVictims_one {u : State} {need : Nat} (hn : need ≠ 0) (h : need ≤ v.cores.length)
    (hs : ¬ (gangBegan u v = true ∧ (openSlots u v.ctx).length < (liveRanks v).length)) : chooseVictims s [v] need u [] = some [v] := by
  rw [chooseVictims, if_neg hn, if_neg hs, chooseVictims, if_pos (by omega)]
  rfl

variable (h : ServedNext s x) (hid : x.id = g) (hv : OnlyVictim s x v) (hlt : freeCores s < (openRanks x).length)
include h hid hv hlt

theorem execPreempt_of : exec (.preempt g) s =
    .next (((chooseVictims s [v] ((openRanks x).length - freeCores s) s []).map fun l => forEach s l notice).getD s) := by
  have hexec : exec (.preempt g) s = execPreempt g s := rfl
  have hgo : ¬ (x.id ≠ g ∨ (openRanks x).length ≤ ((List.range 256).filter (coreFree s)).length) := by
    rintro (hc | hc)
    · exact hc hid
    · exact absurd hc (Nat.not_le.2 hlt)
  have hsort : (s.gangs.filter (mayPreempt s (gangPrio s x))).mergeSort (victimLe s) = [v] := by
    rw [show s.gangs.filter (mayPreempt s (gangPrio s x)) = [v] from hv]
    exact List.mergeSort_singleton v
  rw [hexec, execPreempt, topGang_of h]
  dsimp only
  rw [if_neg hgo, hsort]
  unfold freeCores
  cases chooseVictims s [v] ((openRanks x).length - ((List.range 256).filter (coreFree s)).length) s [] <;> rfl

theorem execPreempt_short (hs : freeCores s + v.cores.length < (openRanks x).length) : exec (.preempt g) s = .next s := by
  rw [execPreempt_of h hid hv hlt, chooseVictims_short (by omega) (by omega)]
  rfl

theorem execPreempt_takes (hs : (openRanks x).length ≤ freeCores s + v.cores.length)
    (hslots : ¬ (gangBegan s v = true ∧ (openSlots s v.ctx).length < (liveRanks v).length)) : exec (.preempt g) s = .next (notice s v) := by
  rw [execPreempt_of h hid hv hlt, chooseVictims_one (by omega) (by omega) hslots]
  rfl

end

/-- A core whose kernel stops to be saved. -/
def savesNow (k : CoreSt) : CoreSt := { k with phase := .saving, stop := true }

/-- A victim with its image slots. -/
def victimSaving (s : State) (v : Gang) : Gang := { v with st := .saving, slots := (liveRanks v).zip (openSlots s v.ctx) }

/-- A context with more image slots in use. -/
def slotsTaken (l : List Nat) (k : Ctx) : Ctx := { k with slots := k.slots ++ l }

theorem notice_idle {v : Gang} (h : gangBegan s v = false) :
    notice s v = forEach (setGang s { v with st := .waiting, cores := [] }) v.cores fun s p => modCore s p.2 coreFreed := by
  rw [notice, h]
  rfl

theorem notice_begun {v : Gang} (h : gangBegan s v = true) : notice s v =
    forEach (setGang (modCtx s v.ctx (slotsTaken (((liveRanks v).zip (openSlots s v.ctx)).map Prod.snd))) (victimSaving s v)) v.cores
      fun s p => modCore s p.2 savesNow := by
  rw [notice, h]
  rfl

end

/-- Settles O47: grants, timed gangs and pre-emption by the gang that is served next. -/
theorem gangsRun : Obligations.GangsRun := by
  intro s g x
  refine ⟨fun h hst hrel => ⟨fun cs hcs => ?_, fun hcs => ?_⟩, fun h hid hst hrel => ⟨fun hcs => ?_, fun cs hcs => ?_⟩,
    fun T n hx hrel hn hst => ⟨fun h => execTimedRelease_early hx hrel hn h, fun ht ho hres => ⟨fun hp hrun hoff hslots hbar => ?_, fun hp => ?_⟩⟩,
    fun h hid => ⟨fun hn => execPreempt_enough h hn, fun v hv hlt => ⟨fun hs => execPreempt_short h hid hv hlt hs, fun hs => ⟨fun hb => ?_, fun hb hl => ?_⟩⟩⟩⟩
  · rw [execCoreGrant_of h hst hrel, hcs]
    exact ⟨_, rfl, placeGang_placed ..⟩
  · rw [execCoreGrant_of h hst hrel, hcs]
    rfl
  · rw [execTimedPrepare_of h hid hst hrel, hcs]
    rfl
  · rw [execTimedPrepare_of h hid hst hrel, hcs, ← hid]
    have hnodup := chooseCores_nodup hcs
    refine ⟨_, rfl, prepareGang_gangs s x cs, fun c hc => prepareGang_other hnodup hc, fun p hp => ?_⟩
    obtain ⟨hctx, hpc, hrank, hacc⟩ := prepareKernel_spec { getCore s p.2 with phase := .prepared, gang := some x.id } x p.1
    rw [withCores, prepareGang_placed hnodup hp]
    exact ⟨rfl, rfl, hctx, hpc, hrank, hacc⟩
  · refine ⟨_, execTimedRelease_issues hx hrel hn hst ht ho hres hp hrun hoff (waitsMet_of hslots hbar), gangOf_startGang hx, ?_, fun c => ?_⟩
    · have hnode := (nodeBecomes_modNode (f := issuedNode s.now x.pkt (.dispatched g)) hn fun _ => rfl).changed
      refine ⟨issuedNode s.now x.pkt (.dispatched g) n, ?_, rfl, rfl⟩
      rw [nodeOf, getQueue, queues_startGang]
      exact hnode
    · exact (startGang_spec _ x).2 c
  · refine ⟨_, execTimedRelease_issued hx hrel hn hst ht ho hres hp, queues_startGang s x, gangOf_startGang hx, (startGang_spec s x).2⟩
  · have hslots : ¬ (gangBegan s v = true ∧ (openSlots s v.ctx).length < (liveRanks v).length) := fun hc => absurd (hb.symm.trans hc.1) (by decide)
    have hcores := forEach_cores (f := fun (s : State) (p : Nat × Nat) => modCore s p.2 coreFreed) (fun _ _ => rfl) v.cores
      (setGang s { v with st := .waiting, cores := [] })
    rw [execPreempt_takes h hid hv hlt hs hslots, notice_idle hb]
    refine ⟨_, rfl, ?_, ?_, fun c => getCore_forEach_snd (f := coreFreed) (fun _ => rfl) c v.cores _⟩
    · rw [hcores]
      rfl
    · rw [hcores]
      rfl
  · have hslots : ¬ (gangBegan s v = true ∧ (openSlots s v.ctx).length < (liveRanks v).length) := fun hc => absurd hc.2 (Nat.not_lt.2 hl)
    have hcores := forEach_cores (f := fun (s : State) (p : Nat × Nat) => modCore s p.2 savesNow) (fun _ _ => rfl) v.cores
      (setGang (modCtx s v.ctx (slotsTaken (((liveRanks v).zip (openSlots s v.ctx)).map Prod.snd))) (victimSaving s v))
    rw [execPreempt_takes h hid hv hlt hs hslots, notice_begun hb]
    refine ⟨_, rfl, ⟨?_, ?_⟩, fun c => getCore_forEach_snd (f := savesNow) (fun _ => rfl) c v.cores _⟩
    · rw [hcores]
      rfl
    · rw [hcores]
      exact getCtx_modCtx_self ..

end Sys2Proof.Machine
end

section
/-!
PROOF. Saving, restoring, losing and returning cores (R25, R175 to R178, R227 to R238).
-/

namespace Sys2Proof.Machine

/-! ## What leaves the gangs and the service of the cores alone -/

/-- Gangs stand, and no core enters or leaves service. -/
structure KeepsService (s t : State) : Prop where
  gangs : t.gangs = s.gangs
  retired : ∀ d, (getCore t d).retired = (getCore s d).retired

theorem KeepsService.refl (s : State) : KeepsService s s := ⟨rfl, fun _ => rfl⟩

theorem KeepsService.trans {s t u : State} (h : KeepsService s t) (g : KeepsService t u) : KeepsService s u :=
  ⟨g.gangs.trans h.gangs, fun d => (g.retired d).trans (h.retired d)⟩

theorem MemorySide.service {s t : State} (h : MemorySide s t) : KeepsService s t :=
  ⟨h.gangs, fun d => congrArg CoreSt.retired (h.getCore d)⟩

theorem keepsService_modCore (s : State) (c : Nat) {f : CoreSt → CoreSt} (hf : ∀ k, (f k).retired = k.retired) :
    KeepsService s (modCore s c f) := by
  refine ⟨rfl, fun d => ?_⟩
  by_cases hd : d = c
  · rw [hd, getCore_modCore_self, hf]
  · rw [getCore_modCore_ne _ _ hd]

theorem forEach_keepsService {α : Type} {f : State → α → State} (hf : ∀ s x, KeepsService s (f s x)) :
    ∀ (l : List α) (s : State), KeepsService s (forEach s l f)
  | [], s => KeepsService.refl s
  | x :: l, s => (hf s x).trans (forEach_keepsService hf l (f s x))

theorem kernelFault_retired (k : CoreSt) (code : Code) (src unit : Nat) (pc addr : BitVec 64) :
    (kernelFault k code src unit pc addr).retired = k.retired := by
  unfold kernelFault
  split <;> rfl

theorem combFlushLine_service (s : State) (c : Nat) (l : CombLine) : KeepsService s (combFlushLine s c l) := by
  unfold combFlushLine
  extract_lets ctx user whole rest
  refine forEach_keepsService (fun s r => ?_) _ s
  split
  next code s' h =>
    have hs : KeepsService s s' := (homeWriteFrom_side_of h rfl : MemorySide s s').service
    split
    · exact hs
    · have hx : KeepsService s' (if code = St.ctxDenied then xfault s' ctx code 4 .write 0 c l.va else s') := by
        split
        · exact MemorySide.service (xfault_side (a₀ := s') rfl)
        · exact KeepsService.refl s'
      exact hs.trans (hx.trans (keepsService_modCore _ c fun k => kernelFault_retired ..))

/-- A core with an empty combining buffer. -/
def combEmptied (k : CoreSt) : CoreSt := { k with comb := [] }

theorem combFlush_service (s : State) (c : Nat) : KeepsService s (combFlush s c) :=
  (keepsService_modCore s c (f := combEmptied) fun _ => rfl).trans (forEach_keepsService (fun s l => combFlushLine_service s c l) _ _)

theorem KeepsService.inService {s t : State} (h : KeepsService s t) : coresInService t = coresInService s := by
  unfold coresInService
  simp only [h.retired]

theorem KeepsService.gangOf {s t : State} (h : KeepsService s t) (g : Nat) : gangOf t g = gangOf s g := by
  rw [Machine.gangOf, h.gangs, Machine.gangOf]

/-- No gang asks for more cores than are in service. -/
def FitService (s : State) : Prop := ∀ y ∈ s.gangs, y.want - y.ended.length ≤ coresInService s

theorem tooLarge_fit {s : State} (h : FitService s) : tooLarge s = s := by
  have hnone : (s.gangs.filter fun x => decide (coresInService s < x.want - x.ended.length)) = [] := by
    rw [List.filter_eq_nil_iff]
    intro y hy
    rw [decide_eq_true_eq]
    exact Nat.not_lt.2 (h y hy)
  unfold tooLarge
  rw [hnone]
  rfl

theorem FitService.setGang {s : State} (h : FitService s) {x y : Gang} (hx : x ∈ s.gangs) (hw : y.want = x.want) (he : y.ended = x.ended) :
    FitService (setGang s y) := by
  intro z hz
  obtain ⟨u, hu, rfl⟩ := List.mem_map.1 hz
  split
  · rw [hw, he]
    exact h x hx
  · exact h u hu

theorem KeepsService.fit {s t : State} (h : KeepsService s t) (hs : FitService s) : FitService t := by
  intro y hy
  rw [h.inService]
  exact hs y (h.gangs ▸ hy)

/-! ## The save of one core (R25, R176, R228) -/

/-- A gang without core `c`, whose image of rank `rank` leaves out `h`. -/
def rankSaved (x : Gang) (rank c : Nat) (h : Hidden) : Gang :=
  { x with cores := x.cores.filter fun p => p.2 ≠ c, hidden := x.hidden ++ [(rank, h)] }

/-- A gang all of whose images are written. -/
def allSaved (x : Gang) : Gang := { x with st := .saved }

/-- The gang after the image of rank `rank` is written. -/
def afterSave (x : Gang) (rank c : Nat) (h : Hidden) : Gang :=
  if (rankSaved x rank c h).cores = [] then allSaved (rankSaved x rank c h) else rankSaved x rank c h

section
variable {s : State} {g : Nat} {x : Gang}

theorem finishGang_saving (hx : gangOf s g = some x) (hst : x.st = .saving) (hlen : x.ended.length < x.want) (hfit : FitService s) :
    finishGang s g = if x.cores = [] then setGang s (allSaved x) else s := by
  have hne : ¬ x.ended.length = x.want := by omega
  have hfit' : FitService (setGang s (allSaved x)) := hfit.setGang (List.mem_of_find?_eq_some hx) rfl rfl
  have hstop : ¬ x.st = .stopped := by rw [hst]; decide
  unfold finishGang
  rw [hx]
  dsimp only
  by_cases hc : x.cores = []
  · rw [if_neg (not_not.2 hc), if_neg hstop, if_neg hne, if_pos hst, if_pos hc]
    exact tooLarge_fit hfit'
  · rw [if_pos hc, if_neg hc]

theorem imageSaved_spec {rank c : Nat} (hx : gangOf s g = some x) (hst : x.st = .saving) (hlen : x.ended.length < x.want) (hfit : FitService s) :
    (∀ d, getCore (imageSaved s x rank c) d = if d = c then coreFreed (getCore s d) else getCore s d) ∧
      gangOf (imageSaved s x rank c) g = some (afterSave x rank c (hiddenOf (getCore s c))) := by
  have hid := gangOf_id hx
  generalize hh : hiddenOf (getCore s c) = h
  generalize hu : modCore (setGang s (rankSaved x rank c h)) c coreFreed = u
  have himage : imageSaved s x rank c = finishGang u g := by
    rw [imageSaved, hh, ← hu, ← hid]
    rfl
  have hcores : ∀ d, getCore u d = if d = c then coreFreed (getCore s d) else getCore s d := by
    intro d
    rw [← hu]
    split
    · next hd =>
      rw [hd, getCore_modCore_self]
      rfl
    · next hd => rw [getCore_modCore_ne _ _ hd]; rfl
  have hgang : gangOf u g = some (rankSaved x rank c h) := by
    rw [← hu]
    refine (gangOf_setGang s (rankSaved x rank c h) g).trans ?_
    rw [if_pos (show g = (rankSaved x rank c h).id from hid.symm), hx]
    rfl
  have hfit' : FitService u := by
    rw [← hu]
    exact (keepsService_modCore _ c (f := coreFreed) fun _ => rfl).fit (hfit.setGang (y := rankSaved x rank c h) (List.mem_of_find?_eq_some hx) rfl rfl)
  rw [himage, finishGang_saving hgang hst hlen hfit', afterSave]
  split
  · refine ⟨hcores, ?_⟩
    rw [gangOf_setGang, if_pos (show g = (allSaved (rankSaved x rank c h)).id from hid.symm), hgang]
    rfl
  · exact ⟨hcores, hgang⟩

theorem writeImage_of {s0 s1 s2 : State} {rank slot c : Nat} {code : Code} {b : List Byte}
    (hslot : x.slots.find? (fun p => p.1 = rank) = some (rank, slot))
    (hprobe : hubProbe x.ctx (linesOf (slotAddr s0 x.ctx slot) imageSize .both) s0 = (false, s1))
    (hw : hubWrite s1 x.ctx (3 + 8 * c) (slotAddr s0 x.ctx slot) .both (imageBytes (getCore s1 c)) .home = ⟨code, b, s2⟩) :
    writeImage s0 x rank c = if code ≠ St.ok then
        modCore s2 c fun k => kernelFault { k with stop := false } code 2 0 k.regs.pc (slotAddr s0 x.ctx slot)
      else imageSaved s2 x rank c := by
  have hs : ((x.slots.find? fun p => p.1 = rank).map Prod.snd).getD 0 = slot := by rw [hslot]; rfl
  unfold writeImage
  rw [hs]
  extract_lets a
  split
  · next u hu => exact absurd (congrArg Prod.fst (hprobe.symm.trans hu)) Bool.false_ne_true
  · next u hu =>
    obtain rfl : s1 = u := congrArg Prod.snd (hprobe.symm.trans hu)
    rw [writeImageAt, hw]

theorem execCoreSaveDone_of {c : Core} {s0 : State} {rank : Nat} (hs0 : combFlush s c.val = s0) (h : HoldsRank s c.val g rank x .saving)
    (hphase : (getCore s c.val).phase = .saving) (hfault : (getCore s c.val).fault = none) (haccs : (getCore s c.val).accs = [])
    (hidle : enginesIdle (getCore s c.val) = true) (hret : (getCore s c.val).retired = false) (hstall : fieldStalls s c.val = false)
    (hwaits : coreWaits s0 c.val = false) (hfault0 : (getCore s0 c.val).fault = none) :
    exec (.coreSaveDone c) s = .next (writeImage s0 x rank c.val) := by
  obtain ⟨hgang, hlisted, hstage, hplaced⟩ := h
  have hexec : exec (.coreSaveDone c) s = execCoreSaveDone c s := rfl
  rw [hexec]
  unfold execCoreSaveDone
  simp only [hgang, Option.bind_some, hlisted, hphase, hstage, hfault, haccs, and_self, decide_true, hidle, hret, hstall, hs0, hwaits,
    hfault0, hplaced, ne_eq, not_true_eq_false, decide_false, Bool.not_false, Bool.and_self, Bool.not_true, Bool.or_self, Bool.false_eq_true,
    if_false]

end

/-! ## The restore (R178, R230) -/

section
variable {s : State} {g : Nat} {x : Gang}

theorem execRestore_places (h : ServedNext s x) (hx : gangOf s g = some x) (hst : x.st = .saved) : exec (.restore g) s =
    .next (withCores s (chooseCores s x.ctx (openRanks x).length) fun cs => placeGang s x cs .restoring .restoring) := by
  have hexec : exec (.restore g) s = execRestore g s := rfl
  have htop : x.st = .saved ∧ (topGang s).map (fun y => y.id) = some g := ⟨hst, by rw [topGang_of h, Option.map_some, gangOf_id hx]⟩
  rw [hexec, execRestore, hx]
  dsimp only
  rw [if_neg (by rw [hst]; decide), if_pos htop]
  cases chooseCores s x.ctx (openRanks x).length <;> rfl

theorem execRestore_one {rank : Nat} {c : Core} (hx : gangOf s g = some x) (hst : x.st = .restoring) (hstall : fieldStalls s c.val = false)
    (hc : x.cores.find? (fun p => (getCore s p.2).phase = .restoring) = some (rank, c.val)) :
    exec (.restore g) s = .next (restoreOne s x rank c.val) := by
  have hexec : exec (.restore g) s = execRestore g s := rfl
  rw [hexec, execRestore, hx]
  dsimp only
  rw [if_pos hst, hc]
  dsimp only
  rw [hstall]
  rfl

/-- A gang after the image of one rank has been read back. -/
def rankRestored (x : Gang) (rank now : Nat) (left : Bool) : Gang :=
  { x with slots := x.slots.filter fun p => p.1 ≠ rank, hidden := x.hidden.filter fun p => p.1 ≠ rank,
           st := if left then .restoring else .running, started := now }

/-- A context with one image slot free. -/
def slotFreed (slot : Nat) (k : Ctx) : Ctx := { k with slots := k.slots.filter fun n => n ≠ slot }

/-- A core that runs again from its image. -/
def restored (img : List Byte) (h : Hidden) (x now : Nat) (k : CoreSt) : CoreSt := { restoreImage k img h x now with phase := .running }

/-- Whether another core of the gang waits for its image. -/
def othersRestore (s : State) (x : Gang) (c : Nat) : Bool :=
  x.cores.any fun p => decide (p.2 ≠ c) && decide ((getCore s p.2).phase = .restoring)

theorem restoreOne_of {s1 s2 : State} {rank c slot : Nat} {h : Hidden} {img : List Byte}
    (hslot : x.slots.find? (fun p => p.1 = rank) = some (rank, slot)) (hh : x.hidden.find? (fun p => p.1 = rank) = some (rank, h))
    (hprobe : hubProbe x.ctx (linesOf (slotAddr s x.ctx slot) imageSize .read) s = (false, s1))
    (hr : hubRead s1 x.ctx (3 + 8 * c) (slotAddr s x.ctx slot) imageSize .home = ⟨St.ok, img, s2⟩) : restoreOne s x rank c =
      modCore (acquire (setGang (modCtx s2 x.ctx (slotFreed slot)) (rankRestored x rank s.now (othersRestore s2 x c))) (towerOf c)) c
        (restored img h x.ctx s.now) := by
  have hs : ((x.slots.find? fun p => p.1 = rank).map Prod.snd).getD 0 = slot := by rw [hslot]; rfl
  have hi : ((x.hidden.find? fun p => p.1 = rank).map Prod.snd).getD ⟨[], [], [], false⟩ = h := by rw [hh]; rfl
  unfold restoreOne
  rw [hs, hi]
  extract_lets a
  split
  · next u hu => exact absurd (congrArg Prod.fst (hprobe.symm.trans hu)) Bool.false_ne_true
  · next u hu =>
    obtain rfl : s1 = u := congrArg Prod.snd (hprobe.symm.trans hu)
    split
    next code d v hv =>
      obtain ⟨rfl, rfl, rfl⟩ := Acc.mk.inj (hr.symm.trans hv)
      simp only [if_true]
      rfl

end

/-! ## The failure of a core (R227, R234, R235) -/

theorem execCoreFailure_serves {s s0 : State} {c : Core} (h0 : retireIfDue s c.val = s0) (h : (getCore s0 c.val).retired = false) :
    exec (.coreFailure c) s = .next s0 := by
  have hexec : exec (.coreFailure c) s = execCoreFailure c s := rfl
  rw [hexec, execCoreFailure, h0, h]
  rfl

theorem execCoreFailure_loses {s s0 : State} {c : Core} {g : Nat} {x : Gang} (h0 : retireIfDue s c.val = s0)
    (h : (getCore s0 c.val).retired = true) (hg : (getCore s0 c.val).gang = some g) (hx : gangOf s0 g = some x) :
    exec (.coreFailure c) s = .next (loseKernel s0 c.val x) := by
  have hexec : exec (.coreFailure c) s = execCoreFailure c s := rfl
  rw [hexec, execCoreFailure, h0, h, if_pos rfl, hg, Option.bind_some, hx]

/-- A gang without core `c`. -/
def withoutCore (x : Gang) (c : Nat) : Gang := { x with cores := x.cores.filter fun p => p.2 ≠ c }

/-- The package after gang `x` has lost core `c`. -/
def coreLost (s : State) (x : Gang) (c : Nat) : State := modCore (setGang s (withoutCore x c)) c coreFreed

section
variable {s : State} {c g : Nat} {x : Gang}

theorem getCore_coreLost (d : Nat) : getCore (coreLost s x c) d = if d = c then coreFreed (getCore s d) else getCore s d := by
  rw [coreLost]
  split
  · next hd =>
    rw [hd, getCore_modCore_self]
    rfl
  · next hd =>
    rw [getCore_modCore_ne _ _ hd]
    rfl

theorem gangOf_coreLost (hx : gangOf s g = some x) : gangOf (coreLost s x c) g = some (withoutCore x c) := by
  refine (gangOf_setGang s (withoutCore x c) g).trans ?_
  rw [if_pos (show g = (withoutCore x c).id from (gangOf_id hx).symm), hx]
  rfl

theorem loseKernel_prepared (h : x.st = .prepared) : loseKernel s c x = coreLost s x c := by
  unfold loseKernel
  extract_lets y u
  rw [show y.st = .prepared from h]
  rfl

/-- A gang that waits again. -/
def waitsAgain (x : Gang) : Gang := { x with st := .waiting, cores := [] }

theorem loseKernel_granted (h : x.st = .granted) : loseKernel s c x =
    forEach (setGang (coreLost s x c) (waitsAgain x)) (withoutCore x c).cores fun s p => modCore s p.2 coreFreed := by
  unfold loseKernel
  extract_lets y u
  rw [show y.st = .granted from h]
  rfl

theorem mem_withoutCore {d : Nat} (hd : d ≠ c) : d ∈ (withoutCore x c).cores.map Prod.snd ↔ d ∈ x.cores.map Prod.snd := by
  rw [withoutCore, List.mem_map, List.mem_map]
  constructor
  · rintro ⟨p, hp, rfl⟩
    exact ⟨p, (List.mem_filter.1 hp).1, rfl⟩
  · rintro ⟨p, hp, rfl⟩
    exact ⟨p, List.mem_filter.2 ⟨hp, decide_eq_true hd⟩, rfl⟩

theorem loseKernel_granted_cores (h : x.st = .granted) (d : Nat) : getCore (loseKernel s c x) d =
    if d = c ∨ d ∈ x.cores.map Prod.snd then coreFreed (getCore s d) else getCore s d := by
  rw [loseKernel_granted h, getCore_forEach_snd (f := coreFreed) (fun _ => rfl)]
  have hset : getCore (setGang (coreLost s x c) (waitsAgain x)) d = if d = c then coreFreed (getCore s d) else getCore s d :=
    getCore_coreLost d
  rw [hset]
  by_cases hd : d = c
  · rw [if_pos hd, if_pos (Or.inl hd)]
    split <;> rfl
  · simp only [hd, if_false, false_or, mem_withoutCore hd]

theorem loseKernel_granted_gang (h : x.st = .granted) (hx : gangOf s g = some x) : gangOf (loseKernel s c x) g = some (waitsAgain x) := by
  have hcores := forEach_cores (f := fun (s : State) (p : Nat × Nat) => modCore s p.2 coreFreed) (fun _ _ => rfl) (withoutCore x c).cores
    (setGang (coreLost s x c) (waitsAgain x))
  have hgang : gangOf (loseKernel s c x) g = gangOf (setGang (coreLost s x c) (waitsAgain x)) g := by
    rw [loseKernel_granted h, hcores]
    rfl
  rw [hgang, gangOf_setGang, if_pos (show g = (waitsAgain x).id from (gangOf_id hx).symm), gangOf_coreLost hx]
  rfl

/-- A node that runs again once its packets are over. -/
def restarting (n : NodeRun) : NodeRun := { n with st := .restarting }

/-- The gangs of a node's other timed DISPATCHes that have not issued. -/
def staleGangs (s : State) (x : Gang) : List Gang :=
  s.gangs.filter fun y => y.queue = x.queue ∧ y.node = x.node ∧ y.id ≠ x.id ∧ y.release ≠ none ∧
    (y.st = .waiting ∨ y.st = .prepared) ∧ (pktOf s y.queue y.node y.off).isNone = true

/-- The package with the node of gang `x` restarting and the gang stopped. -/
def nodeStopped (s : State) (x : Gang) : State :=
  stopGang (forEach (modNode s x.queue x.node restarting) (staleGangs (modNode s x.queue x.node restarting) x) dropGang) x

theorem loseKernel_restarts {n : NodeRun} (hst : x.st = .running) (hn : nodeOf s x.queue x.node = some n)
    (hres : (getQueue s x.queue).resetting = false) (hr : n.restart = true) (hmax : n.redisp < bf s.schCfg 9 8) :
    loseKernel s c x =
      if (gangOf (nodeStopped (coreLost s x c) (withoutCore x c)) x.id).isNone then
        nodeSettle (modPkt (nodeStopped (coreLost s x c) (withoutCore x c)) x.queue x.node x.off fun p => { p with st := .done }) x.queue x.node
      else nodeStopped (coreLost s x c) (withoutCore x c) := by
  have hmay : ((gangNode (coreLost s x c) (withoutCore x c)).map (mayRestart (coreLost s x c))).getD false = true := by
    have hnode : gangNode (coreLost s x c) (withoutCore x c) = some n := hn
    rw [hnode, Option.map_some, Option.getD_some, mayRestart, hr, Bool.true_and]
    exact decide_eq_true hmax
  unfold loseKernel
  extract_lets y u
  rw [show y.st = .running from hst]
  dsimp only
  rw [if_pos]
  · rfl
  · rw [show ((gangNode u y).map (mayRestart u)).getD false = true from hmay, show (getQueue u y.queue).resetting = false from hres]
    rfl

theorem loseKernel_faults {n : NodeRun} (hst : x.st = .running) (hn : nodeOf s x.queue x.node = some n)
    (hno : n.restart = false ∨ bf s.schCfg 9 8 ≤ n.redisp) : loseKernel s c x =
      guilty (coreLost s x c) x.queue St.queueGuilty
        (some ⟨St.queueGuilty, BitVec.ofNat 16 x.node, BitVec.ofNat 32 x.off, unitId s 2 c, []⟩) false := by
  have hmay : ((gangNode (coreLost s x c) (withoutCore x c)).map (mayRestart (coreLost s x c))).getD false = false := by
    have hnode : gangNode (coreLost s x c) (withoutCore x c) = some n := hn
    rw [hnode, Option.map_some, Option.getD_some, mayRestart]
    obtain hr | hm := hno
    · rw [hr, Bool.false_and]
    · rw [Bool.and_eq_false_iff]
      exact Or.inr (decide_eq_false (Nat.not_lt.2 hm))
  unfold loseKernel
  extract_lets y u
  rw [show y.st = .running from hst]
  dsimp only
  rw [if_neg]
  · rfl
  · rw [show ((gangNode u y).map (mayRestart u)).getD false = false from hmay]
    exact Bool.false_ne_true

end

theorem KeepsQueues.nodeOf {s t : State} (h : KeepsQueues s t) (q i : Nat) : nodeOf t q i = nodeOf s q i := by
  unfold Machine.nodeOf getQueue
  rw [h.queues]

theorem KeepsQueues.guilty {s t : State} (h : KeepsQueues s t) (q : Nat) : (getQueue t q).guilty = (getQueue s q).guilty := by
  unfold getQueue
  rw [h.queues]

/-- A node that restarts runs again from its first packet, or waits for its other packets. -/
theorem nodeSettle_restarting {s : State} {q node : Nat} {n : NodeRun} (hn : nodeOf s q node = some n) (hst : n.st = .restarting) :
    nodeOf (nodeSettle s q node) q node = some n ∨ nodeOf (nodeSettle s q node) q node = some { nodeFresh n with redisp := n.redisp + 1 } := by
  have hidx := nodeOf_idx hn
  unfold nodeSettle
  extract_lets put
  rw [hn]
  dsimp only
  split
  · exact Or.inl hn
  · rw [hst]
    exact Or.inr (nodeBecomes_put (n' := { nodeFresh n with redisp := n.redisp + 1 }) hn hidx).changed

theorem nodeStopped_spec {s : State} {x : Gang} {n : NodeRun} (hn : nodeOf s x.queue x.node = some n) :
    nodeOf (nodeStopped s x) x.queue x.node = some (restarting n) ∧
      (getQueue (nodeStopped s x) x.queue).guilty = (getQueue s x.queue).guilty := by
  have h1 := nodeBecomes_modNode (f := restarting) hn fun _ => rfl
  have h2 : KeepsQueues (modNode s x.queue x.node restarting) (nodeStopped s x) :=
    (forEach_keepsQueues dropGang_keepsQueues _ _).trans (stopGang_keepsQueues _ x)
  refine ⟨(h2.nodeOf ..).trans h1.changed, (h2.guilty _).trans ?_⟩
  rw [h1.queue]

/-- What becomes of the node of a running gang that lost a core and may run again. -/
theorem loseKernel_node {s : State} {c : Nat} {x : Gang} {n : NodeRun} (hst : x.st = .running) (hn : nodeOf s x.queue x.node = some n)
    (hres : (getQueue s x.queue).resetting = false) (hr : n.restart = true) (hmax : n.redisp < bf s.schCfg 9 8) :
    ∃ n', nodeOf (loseKernel s c x) x.queue x.node = some n' ∧ (n'.st = .restarting ∨ n' = { nodeFresh n with redisp := n.redisp + 1 }) ∧
      (getQueue (loseKernel s c x) x.queue).guilty = (getQueue s x.queue).guilty := by
  obtain ⟨hnode, hguilty⟩ := nodeStopped_spec (s := coreLost s x c) (x := withoutCore x c) hn
  rw [loseKernel_restarts hst hn hres hr hmax]
  generalize nodeStopped (coreLost s x c) (withoutCore x c) = u at hnode hguilty
  split
  · have h1 : NodeBecomes u (modPkt u x.queue x.node x.off fun p => { p with st := .done }) x.queue x.node (pktsEnded x.off (restarting n)) := by
      rw [modPkt_eq]
      refine nodeBecomes_mapNodes hnode (fun m => ?_) (if_pos (nodeOf_idx hnode)) fun m hm => if_neg hm
      split <;> rfl
    have h2 := nodeSettle_restarting h1.changed rfl
    have h3 := nodeSettle_keepsQueueFields (modPkt u x.queue x.node x.off fun p => { p with st := .done }) x.queue x.node
    have h4 : KeepsQueueFields u (modPkt u x.queue x.node x.off fun p => { p with st := .done }) x.queue := keepsQueueFields_mapNodes ..
    have hg := h3.guilty.trans (h4.guilty.trans hguilty)
    obtain h2 | h2 := h2
    · exact ⟨_, h2, Or.inl rfl, hg⟩
    · exact ⟨_, h2, Or.inr rfl, hg⟩
  · exact ⟨_, hnode, Or.inl rfl, hguilty⟩

/-! ## The scheduler epoch (R238) -/

/-- A core that joins the free pool. -/
def joined (k : CoreSt) : CoreSt := { k with phase := .free, lastCtx := none }

/-- The cores that return. -/
def returningCores (s : State) : List Nat := (s.cores.filter fun c => c.2.phase = .returning).map Prod.fst

theorem mem_returningCores {s : State} (h : tabWf {} s.cores = true) (d : Nat) :
    d ∈ returningCores s ↔ (getCore s d).phase = .returning := by
  have hread := (tabWfFrom_keys h).2
  rw [returningCores, List.mem_map]
  constructor
  · rintro ⟨e, he, rfl⟩
    obtain ⟨hmem, hp⟩ := List.mem_filter.1 he
    rw [getCore, (hread e hmem).2]
    simpa using hp
  · intro hp
    have hne : getCore s d ≠ {} := by
      intro he
      rw [he] at hp
      exact absurd hp (by decide)
    exact ⟨(d, getCore s d), List.mem_filter.2 ⟨mem_of_tget hne, by simpa using hp⟩, rfl⟩

theorem execSchedulerEpoch_idle {s : State} (h : s.plumb.running = false ∨ s.plumb.count.toNat / 1000000 = s.schEpoch) :
    exec .schedulerEpoch s = .next s := by
  have hexec : exec .schedulerEpoch s = execSchedulerEpoch s := rfl
  rw [hexec, execSchedulerEpoch]
  exact if_pos (h.imp_left fun h => by rw [h]; rfl)

/-- With no channel, group or core to return or claim, the epoch only lets the returning cores join. -/
theorem execSchedulerEpoch_joins {s : State} {n : Nat} (hcount : s.plumb.count.toNat / 1000000 = n) (hrun : s.plumb.running = true)
    (hn : n ≠ s.schEpoch) (hpassed : s.key.test.passed = []) (hunder : s.key.test.under = none)
    (hgroups : ∀ d, (getDom s d).st = .waiting → (getDom s d).target = true) :
    ∃ t, exec .schedulerEpoch s = .next t ∧ t.schEpoch = n ∧
      t.cores = (forEach { s with schEpoch := n } (returningCores s) fun s c => modCore s c joined).cores := by
  have hexec : exec .schedulerEpoch s = execSchedulerEpoch s := rfl
  have hgo : ¬ ((!s.plumb.running) = true ∨ n = s.schEpoch) := by
    rintro (h | h)
    · rw [hrun] at h
      exact Bool.false_ne_true h
    · exact hn h
  have hjoin := forEach_cores (f := fun (s : State) (c : Nat) => modCore s c joined) (fun _ _ => rfl) (returningCores s) { s with schEpoch := n }
  generalize hu : (forEach { s with schEpoch := n } (returningCores s) fun s c => modCore s c joined) = u at hjoin
  have hju : joinCores { s with schEpoch := n } = u := hu
  have hreturn : ∃ v, returnChannels u = v ∧ v.cores = u.cores ∧ v.schEpoch = n ∧ v.power = s.power ∧ v.key.test.under = none := by
    unfold returnChannels
    split
    · exact ⟨u, rfl, rfl, by rw [hjoin], by rw [hjoin], by rw [hjoin]; exact hunder⟩
    · have hp : u.key.test.passed = [] := by rw [hjoin]; exact hpassed
      rw [hp]
      exact ⟨_, rfl, rfl, by rw [hjoin]; rfl, by rw [hjoin]; rfl, by rw [hjoin]; exact hunder⟩
  obtain ⟨v, hv, hcores, hepoch, hpower, hund⟩ := hreturn
  have hclaim : claimGroups v = v := by
    have hnone : ((List.range 64).filter fun g => decide ((getDom v g).st = .waiting ∧ (getDom v g).target = false)) = [] := by
      rw [List.filter_eq_nil_iff]
      intro g _
      have hd : getDom v g = getDom s g := by unfold getDom; rw [hpower]
      rw [decide_eq_true_eq, hd]
      rintro ⟨hw, hf⟩
      exact absurd ((hgroups g hw).symm.trans hf) (by decide)
    unfold claimGroups
    rw [hnone]
    rfl
  have htest : claimTest v = v := by
    unfold claimTest
    rw [hund]
  refine ⟨v, ?_, hepoch, hcores⟩
  rw [hexec]
  unfold execSchedulerEpoch
  rw [hcount]
  dsimp only
  rw [if_neg hgo, hju, hv, hclaim, htest]

/-- Settles O48: saving, restoring, losing and returning cores. -/
theorem gangsMove : Obligations.GangsMove := by
  intro s c g rank x
  refine ⟨fun s0 s1 slot code b s2 hs0 hold hphase hfault haccs hidle hret hstall hwaits hfault0 hfit hslot hprobe hw => ?_,
    fun h hx hst => ⟨fun cs hcs => ?_, fun hcs => ?_⟩, fun s1 s2 slot h img hx hst hstall hc hslot hh hprobe hr => ?_,
    ⟨fun hserve => execCoreFailure_serves rfl hserve, fun hret hg hx => ⟨fun hst => ?_, fun hst => ?_, fun n hn hst hres => ⟨fun hr hmax => ?_, fun hno => ?_⟩⟩⟩,
    ⟨fun h => execSchedulerEpoch_idle h, fun hcan hrun hn hpassed hunder hgroups => ?_⟩⟩
  · have hside : MemorySide s0 s2 := hubWrite_side_of hw (hubProbe_side_of hprobe rfl)
    have hserv : KeepsService s s2 := (hs0 ▸ combFlush_service s c.val).trans hside.service
    refine ⟨_, execCoreSaveDone_of hs0 hold hphase hfault haccs hidle hret hstall hwaits hfault0, fun hc => ?_, fun hc hlen => ?_⟩
    · rw [writeImage_of hslot hprobe hw, if_pos hc]
      refine ⟨onlyCore_setCore .., ?_⟩
      rw [getCore_modCore_self, hside.getCore]
      unfold kernelFault
      exact if_pos hfault0
    · rw [writeImage_of hslot hprobe hw, if_neg (not_not.2 hc)]
      obtain ⟨hcores, hgang⟩ := imageSaved_spec (c := c.val) (rank := rank) ((hserv.gangOf g).trans hold.listed) hold.stage hlen (hserv.fit hfit)
      refine ⟨?_, fun d hd => ?_, _, hgang, ?_, ?_, ?_⟩
      · rw [hcores, if_pos rfl, hside.getCore]
      · rw [hcores, if_neg hd, hside.getCore]
      · unfold afterSave
        split <;> rfl
      · unfold afterSave
        split <;> rfl
      · unfold afterSave
        split
        · next hnil => exact (if_pos hnil).symm
        · exact hold.stage
  · rw [execRestore_places h hx hst, hcs]
    exact ⟨_, rfl, placeGang_placed ..⟩
  · rw [execRestore_places h hx hst, hcs]
    rfl
  · have hside : MemorySide s s2 := hubRead_side_of hr (hubProbe_side_of hprobe rfl)
    have hid := gangOf_id hx
    refine ⟨_, execRestore_one hx hst hstall hc, ?_⟩
    rw [restoreOne_of hslot hh hprobe hr]
    refine ⟨?_, fun d hd => ?_, ?_, rankRestored x rank s.now (othersRestore s2 x c.val), ?_, rfl, rfl, ?_⟩
    · rw [getCore_modCore_self, ← hside.getCore]
      rfl
    · rw [getCore_modCore_ne _ _ hd]
      exact hside.getCore d
    · exact congrArg Ctx.slots (getCtx_modCtx_self s2 x.ctx (slotFreed slot))
    · refine (gangOf_setGang _ (rankRestored x rank s.now (othersRestore s2 x c.val)) g).trans ?_
      rw [if_pos (show g = (rankRestored x rank s.now (othersRestore s2 x c.val)).id from hid.symm),
        show gangOf (modCtx s2 x.ctx (slotFreed slot)) g = gangOf s2 g from rfl, hside.service.gangOf, hx]
      rfl
    · have hiff : othersRestore s2 x c.val = true ↔ ∃ p ∈ x.cores, p.2 ≠ c.val ∧ (getCore s p.2).phase = .restoring := by
        simp [othersRestore, hside.getCore]
      exact if_congr hiff rfl rfl
  · exact ⟨_, execCoreFailure_loses rfl hret hg hx, loseKernel_granted_gang hst hx, loseKernel_granted_cores hst⟩
  · refine ⟨_, execCoreFailure_loses rfl hret hg hx, ?_⟩
    rw [loseKernel_prepared hst]
    exact ⟨gangOf_coreLost hx, getCore_coreLost⟩
  · obtain ⟨n', hnode, hn', hguilty⟩ := loseKernel_node (c := c.val) hst hn hres hr hmax
    exact ⟨_, n', execCoreFailure_loses rfl hret hg hx, hnode, hn', hguilty⟩
  · refine ⟨_, execCoreFailure_loses rfl hret hg hx, ?_⟩
    rw [loseKernel_faults hst hn hno]
    obtain ⟨hqueue, hstands, hfault, hothers, hmemory⟩ := guilty_turns (s := coreLost (retireIfDue s c.val) x c.val) (q := x.queue)
      (code := St.queueGuilty) (f := some ⟨St.queueGuilty, BitVec.ofNat 16 x.node, BitVec.ofNat 32 x.off, unitId (retireIfDue s c.val) 2 c.val, []⟩)
      (b := false) hres
    exact ⟨hqueue, hstands, hfault, hothers, hmemory⟩
  · obtain ⟨t, ht, hepoch, hcores⟩ := execSchedulerEpoch_joins rfl hrun hn hpassed hunder hgroups
    refine ⟨t, ht, hepoch, fun d => ?_⟩
    rw [getCore, hcores]
    refine (getCore_forEach (f := joined) (fun _ => rfl) d (returningCores s) _).trans ?_
    rw [if_congr (mem_returningCores hcan.cores d) rfl rfl]
    rfl

end Sys2Proof.Machine
end

section
/-!
PROOF. Translation, ownership, BAR2 and migration (R249 to R269): the search of a table, and the accesses that searches end.
-/

namespace Sys2Proof.Machine

/-! ## The binary search (R249, R250) -/

theorem ofNat_toNat_entry (e : BitVec 256) : BitVec.ofNat 256 e.toNat = e := by simp

theorem covered_spec {a t : State} {d base n j vp : Nat} (e : BitVec 256) (h : TableRead a d base n t) :
    (if reCovers e vp = true then (Found.hit j e, t) else (.bad St.xlateMiss 1, t)).1 = (if reCovers e vp then .hit j e else .bad St.xlateMiss 1) ∧
      TableRead a d base n (if reCovers e vp = true then (Found.hit j e, t) else (.bad St.xlateMiss 1, t)).2 := by
  split
  · exact ⟨rfl, h⟩
  · exact ⟨rfl, h⟩

section
variable {s : State} {d base n vp j : Nat} {e : Nat → BitVec 256} (hold : TableHolds s d base n e) (hrise : StartsRise n e) (hj : j < 2 ^ n)
  (hle : reStart (e j) ≤ vp) (hlast : ∀ i, j < i → i < 2 ^ n → vp < reStart (e i))
include hold

theorem TableHolds.read {t : State} (ht : TableRead s d base n t) {i : Nat} (hi : i < 2 ^ n) :
    ∃ t', sysRead t d (base + 32 * i) 32 = (St.ok, (e i).toNat, t') ∧ TableRead s d base n t' := by
  obtain ⟨hc, hv⟩ := hold t ht i hi
  exact ⟨(sysRead t d (base + 32 * i) 32).2.2, Prod.ext hc (Prod.ext hv rfl), ht.read hi⟩

include hrise hj hle hlast

omit hold in
/-- The entry at `i` starts at or below the page exactly up to the last that does. -/
theorem start_le_iff {i : Nat} (hi : i < 2 ^ n) : reStart (e i) ≤ vp ↔ i ≤ j := by
  constructor
  · intro h
    by_contra hlt
    exact absurd (hlast i (by omega) hi) (by omega)
  · intro h
    exact (hrise i j h hj).trans hle

/-- The loop narrows to the last entry that starts at or below the page, and holds it unless that is entry 0. -/
theorem searchLoop_finds : ∀ (k : Nat) (t : State) (i : Nat) (o : Option (BitVec 256)), TableRead s d base n t → i + 2 ^ k ≤ 2 ^ n →
    i ≤ j → j < i + 2 ^ k → (o = some (e i) ∨ o = none ∧ i = 0) →
    ∃ o' t', searchLoop d base vp k t i o = (St.ok, j, o', t') ∧ TableRead s d base n t' ∧ (o' = some (e j) ∨ o' = none ∧ j = 0)
  | 0, t, i, o, ht, _, hij, hji, ho => by
    obtain rfl : i = j := by omega
    exact ⟨o, t, rfl, ht, ho⟩
  | k + 1, t, i, o, ht, hi, hij, hji, ho => by
    have hpow : 2 ^ (k + 1) = 2 ^ k + 2 ^ k := by rw [pow_succ]; omega
    have hpos := Nat.two_pow_pos k
    obtain ⟨t', hread, ht'⟩ := hold.read ht (i := i + 2 ^ k) (by omega)
    rw [searchLoop, hread]
    dsimp only
    rw [if_neg (by decide), ofNat_toNat_entry]
    have hmid := start_le_iff hrise hj hle hlast (i := i + 2 ^ k) (by omega)
    split
    · next h => exact searchLoop_finds k t' (i + 2 ^ k) _ ht' (by omega) (hmid.1 h) (by omega) (Or.inl rfl)
    · next h =>
      have hnot : ¬ i + 2 ^ k ≤ j := fun hc => h (hmid.2 hc)
      exact searchLoop_finds k t' i o ht' (by omega) hij (by omega) ho

theorem search_ends : (search s d base n true vp).1 = (if reCovers (e j) vp then .hit j (e j) else .bad St.xlateMiss 1) ∧
    TableRead s d base n (search s d base n true vp).2 := by
  obtain ⟨o, t, hloop, ht, ho⟩ := searchLoop_finds hold hrise hj hle hlast n s 0 none .here (by omega) (by omega) (by omega) (Or.inr ⟨rfl, rfl⟩)
  unfold search
  rw [if_neg (by decide), hloop]
  dsimp only
  rw [if_neg (by decide)]
  obtain rfl | ⟨rfl, hj0⟩ := ho
  · dsimp only
    rw [if_neg (by decide), ofNat_toNat_entry]
    exact covered_spec _ ht
  · obtain ⟨t', hr, ht'⟩ := hold.read ht (Nat.two_pow_pos n)
    rw [show sysRead t d base 32 = _ from hr, hj0]
    dsimp only
    rw [if_neg (by decide), ofNat_toNat_entry]
    exact covered_spec _ ht'

end

/-! ## TABLE_SEARCH and its end (R252, R254) -/

/-- The access of the sequencer that a search translates. -/
def searching (s : State) (x : Nat) (a : Access) : Access := { a with x := searchStart s x }

theorem execTableSearch_seq {s : State} {c : Core} {i : Nat} {a : Access} (ha : (getCore s c.val).accs[i]? = some a) (hx : a.x = .miss)
    (hf : isSearching (getCore s c.val).fetchX = false) (hb : ∀ b ∈ (getCore s c.val).accs.take i, unsettled b.x = false)
    (hl : lbFind (getCore s c.val).rlb (getCore s c.val).ctx (a.va.toNat / 4096) = none) : exec (.tableSearch (.seq c i)) s =
      .next (setCore s c.val { getCore s c.val with accs := (getCore s c.val).accs.set i (searching s (getCore s c.val).ctx a) }) := by
  have hexec : exec (.tableSearch (.seq c i)) s = execTableSearch (.seq c i) s := rfl
  have hall : (((getCore s c.val).accs.take i).all fun a => !unsettled a.x) = true :=
    List.all_eq_true.2 fun b hm => by rw [hb b hm]; rfl
  rw [hexec, execTableSearch]
  dsimp only
  rw [ha]
  dsimp only
  rw [hf, hall, hx, hl]
  rfl

section
variable {s s1 : State} {c : Core} {base n : Nat} {en : Bool} {md : BitVec 64}
  (hf : (getCore s c.val).fetchX = .searching base n en md)
include hf

theorem execTableSearchDone_fetch {x : XSt} {s' : State}
    (he : searchEnd s c.val (.searching base n en md) (getCore s c.val).regs.pc .fetch true = (x, s')) :
    exec (.tableSearchDone (.fetch c)) s =
      .next (modCore (countIfPage (recordX s' c.val 0 .fetch (getCore s c.val).regs.pc x) c.val x) c.val fun k => { k with fetchX := x }) := by
  have hexec : exec (.tableSearchDone (.fetch c)) s = execTableSearchDone (.fetch c) s := rfl
  rw [hexec, execTableSearchDone]
  dsimp only
  rw [hf, if_pos (show isSearching (.searching base n en md) = true from rfl), he]

end

theorem searchEnd_bad {s s1 : State} {c base n : Nat} {en : Bool} {md va : BitVec 64} {code : Code} {cause : Nat}
    (h : searchFill s (c / 32) (getCore s c).ctx base n en md (va.toNat / 4096) = (.inr (code, cause), s1)) :
    searchEnd s c (.searching base n en md) va .fetch true = (.fault code (BitVec.ofNat 3 cause), s1) := by
  unfold searchEnd
  dsimp only
  rw [show towerOf c = c / 32 from rfl, h]

/-- The lookaside buffer with the entry `l` filled in. -/
def filled (l : LbEntry) (k : CoreSt) : CoreSt := { k with rlb := lbFill 256 k.rlb l }

theorem lbFind_lbFill {n : Nat} {lb : List LbEntry} {l : LbEntry} {x vp : Nat} (hn : 0 < n) (hx : l.ctx = x) (hc : reCovers l.entry vp = true) :
    lbFind (lbFill n lb l) x vp = some l := by
  obtain ⟨m, rfl⟩ : ∃ m, n = m + 1 := ⟨n - 1, by omega⟩
  rw [lbFind, lbFill, List.take_succ_cons, List.find?_cons_of_pos]
  simp [hx, hc]

theorem searchEnd_hit {s s1 s' : State} {c base n : Nat} {en : Bool} {md va : BitVec 64} {l l' : LbEntry} {x : XSt}
    (h : searchFill s (c / 32) (getCore s c).ctx base n en md (va.toNat / 4096) = (.inl l, s1)) (hx : l.ctx = (getCore s c).ctx)
    (hc : reCovers l.entry (va.toNat / 4096) = true)
    (hr : resolve (modCore s1 c (filled l)) (getCore s c).ctx l va .fetch true (c / 32) = (x, l', s')) :
    searchEnd s c (.searching base n en md) va .fetch true = (x, modCore s' c fun k => { k with rlb := lbTouch k.rlb l l' }) := by
  have hs1 : getCore s1 c = getCore s c := (searchFill_side_of h rfl : MemorySide s s1).getCore c
  have hget : getCore (modCore s1 c (filled l)) c = filled l (getCore s c) := by rw [getCore_modCore_self, hs1]
  have hrlb : rlbXlate (modCore s1 c (filled l)) c va .fetch true = some (x, modCore s' c fun k => { k with rlb := lbTouch k.rlb l l' }) := by
    unfold rlbXlate
    rw [hget]
    dsimp only [filled]
    rw [lbFind_lbFill (by decide) hx hc]
    dsimp only
    rw [show towerOf c = c / 32 from rfl, hr]
  unfold searchEnd
  dsimp only
  rw [show towerOf c = c / 32 from rfl, h]
  dsimp only
  rw [show rlbXlate (modCore s1 c fun k => { k with rlb := lbFill 256 k.rlb l }) c va .fetch true = _ from hrlb]

theorem bt_eq_div {w : Nat} (x : BitVec w) (i : Nat) : bt x i = decide (x.toNat / 2 ^ i % 2 = 1) := by
  rw [bt, BitVec.getLsbD, Nat.testBit_eq_decide_div_mod_eq]

/-- The fields of the fault register of a fetch (Table 8.7). -/
theorem faultWord_fields (b cause core : Nat) (code : Code) (hb : b < 2) (hc : cause < 8) (hk : core < 256) :
    bt (BitVec.ofNat 32 (2 ^ 31 + b * 2 ^ 30 + cause * 2 ^ 25 + 3 * 2 ^ 23 + 0 % 8 * 2 ^ 20 + code.toNat * 2 ^ 12 + core)) 31 = true ∧
      bf (BitVec.ofNat 32 (2 ^ 31 + b * 2 ^ 30 + cause * 2 ^ 25 + 3 * 2 ^ 23 + 0 % 8 * 2 ^ 20 + code.toNat * 2 ^ 12 + core)) 19 12 = code.toNat := by
  have hcode : code.toNat < 256 := code.isLt
  refine ⟨?_, ?_⟩
  · rw [bt_eq_div, BitVec.toNat_ofNat]
    simp only [decide_eq_true_eq]
    omega
  · rw [bf, BitVec.toNat_ofNat]
    omega

/-- What a fault of a fetch leaves in the fault registers of its context (R258). -/
theorem xfault_fetch (s : State) (x : Nat) (code : Code) (cause : Nat) (va : BitVec 64) (core : Nat) :
    bt (getCtx (xfault s x code cause .fetch 0 core va) x).xfault0 31 = true ∧ (bt (getCtx s x).xfault0 31 = false →
      bf (getCtx (xfault s x code cause .fetch 0 core va) x).xfault0 19 12 = code.toNat ∧
        (getCtx (xfault s x code cause .fetch 0 core va) x).xfault1 = va) := by
  rw [xfault, getCtx_modCtx_self]
  split
  · next h => exact ⟨(bt_sb_ne _ _ _ _ (by omega)).trans h, fun hc => absurd (h.symm.trans hc) (by decide)⟩
  · obtain ⟨hset, hcode⟩ := faultWord_fields (bf (getCtx s x).xfault0 30 30) (cause % 8) (core % 256) code (bf_lt (getCtx s x).xfault0 30 30) (Nat.mod_lt _ (by decide)) (Nat.mod_lt _ (by decide))
    exact ⟨hset, fun _ => ⟨hcode, rfl⟩⟩

/-! ## Homes that an access of a core writes -/

theorem rlcDrop_home {a s : State} {t : Nat} {key : BitVec 64} (h : HomeSide a s) : HomeSide a (rlcDrop s t key) := by
  unfold rlcDrop
  split
  · exact h
  · refine modTower_home ?_
    split
    · exact writeBack_home h
    · exact h

theorem rlcBypass_home {a s : State} {t : Nat} {key : BitVec 64} (h : HomeSide a s) : HomeSide a (rlcBypass s t key) := by
  unfold rlcBypass victimDrop
  exact modTower_home (rlcDrop_home h)

theorem homeWriteFrom_home {a s : State} {t : Nat} {user : RemUser} {key : BitVec 64} {ctx : Nat} {nc : Bool} {off : Nat} {bs : List Byte}
    (h : HomeSide a s) : HomeSide a (homeWriteFrom s t user key ctx nc off bs).2 := by
  unfold homeWriteFrom
  split
  · unfold hereWrite
    split
    · exact h
    · exact homeWrite_home (recallLine_home h)
  · exact remoteSend_home (rlcBypass_home h)

/-- Lookaside buffers and the invalidation state of every context stand. -/
structure KeepsBuffers (s t : State) : Prop where
  hlb : t.hlb = s.hlb
  xctl : ∀ x, (getCtx t x).xctl = (getCtx s x).xctl
  inv2 : ∀ x, (getCtx t x).inv2 = (getCtx s x).inv2
  rlb : ∀ c, (getCore t c).rlb = (getCore s c).rlb

theorem KeepsBuffers.refl (s : State) : KeepsBuffers s s := ⟨rfl, fun _ => rfl, fun _ => rfl, fun _ => rfl⟩

theorem KeepsBuffers.trans {s t u : State} (h : KeepsBuffers s t) (g : KeepsBuffers t u) : KeepsBuffers s u :=
  ⟨g.hlb.trans h.hlb, fun x => (g.xctl x).trans (h.xctl x), fun x => (g.inv2 x).trans (h.inv2 x), fun c => (g.rlb c).trans (h.rlb c)⟩

theorem HomeSide.buffers {s t : State} (h : HomeSide s t) : KeepsBuffers s t :=
  ⟨h.hlb, fun x => by rw [h.getCtx], fun x => by rw [h.getCtx], fun c => by rw [h.getCore]⟩

theorem forEach_keepsBuffers {α : Type} {f : State → α → State} (hf : ∀ s x, KeepsBuffers s (f s x)) :
    ∀ (l : List α) (s : State), KeepsBuffers s (forEach s l f)
  | [], s => KeepsBuffers.refl s
  | x :: l, s => (hf s x).trans (forEach_keepsBuffers hf l (f s x))

theorem keepsBuffers_modCore (s : State) (c : Nat) {f : CoreSt → CoreSt} (hf : ∀ k, (f k).rlb = k.rlb) : KeepsBuffers s (modCore s c f) := by
  refine ⟨rfl, fun _ => rfl, fun _ => rfl, fun d => ?_⟩
  by_cases hd : d = c
  · rw [hd, getCore_modCore_self, hf]
  · rw [getCore_modCore_ne _ _ hd]

theorem keepsBuffers_xfault (s : State) (x : Nat) (code : Code) (cause : Nat) (need : Need) (src core : Nat) (va : BitVec 64) :
    KeepsBuffers s (xfault s x code cause need src core va) := by
  have h : ∀ y, (getCtx (xfault s x code cause need src core va) y).xctl = (getCtx s y).xctl ∧
      (getCtx (xfault s x code cause need src core va) y).inv2 = (getCtx s y).inv2 := by
    intro y
    rw [xfault]
    by_cases hy : y = x
    · rw [hy, getCtx_modCtx_self]
      split
      · exact ⟨rfl, rfl⟩
      · exact ⟨rfl, rfl⟩
    · rw [getCtx_modCtx_ne _ _ hy]
      exact ⟨rfl, rfl⟩
  exact ⟨rfl, fun y => (h y).1, fun y => (h y).2, fun _ => rfl⟩

theorem kernelFault_rlb (k : CoreSt) (code : Code) (src unit : Nat) (pc addr : BitVec 64) : (kernelFault k code src unit pc addr).rlb = k.rlb := by
  unfold kernelFault
  split <;> rfl

theorem combFlushLine_buffers (s : State) (c : Nat) (l : CombLine) : KeepsBuffers s (combFlushLine s c l) := by
  unfold combFlushLine
  extract_lets ctx user whole rest
  refine forEach_keepsBuffers (fun s r => ?_) _ s
  split
  next code s' h =>
    have hhome := homeWriteFrom_home (t := towerOf c) (user := user) (key := l.line) (ctx := ctx) (nc := l.nc) (off := r.1) (bs := r.2) (HomeSide.refl s)
    rw [h] at hhome
    have hs : KeepsBuffers s s' := hhome.buffers
    split
    · exact hs
    · have hx : KeepsBuffers s' (if code = St.ctxDenied then xfault s' ctx code 4 .write 0 c l.va else s') := by
        split
        · exact keepsBuffers_xfault ..
        · exact KeepsBuffers.refl s'
      exact hs.trans (hx.trans (keepsBuffers_modCore _ c fun k => kernelFault_rlb ..))

theorem combFlush_buffers (s : State) (c : Nat) : KeepsBuffers s (combFlush s c) :=
  (keepsBuffers_modCore s c (f := combEmptied) fun _ => rfl).trans (forEach_keepsBuffers (fun s l => combFlushLine_buffers s c l) _ _)

theorem combsOut_buffers (s : State) (x : Nat) : KeepsBuffers s (combsOut s x) := forEach_keepsBuffers combFlush_buffers _ _

/-! ## Invalidation (R256, R257) -/

/-- The change that an invalidation of context `x` makes to one core. -/
def coreDrops (x : Nat) (k : CoreSt) : CoreSt :=
  let k1 := { k with rlb := k.rlb.filter fun l => l.ctx ≠ x }
  if k.ctx ≠ x then k1
  else
    let k2 := { k1 with
      fetchX := untarget k.fetchX, accs := k.accs.map fun a => { a with x := unsearch a.x },
      dma := k.dma.map fun d => (d.1, { d.2 with xs := unsearch d.2.xs }) }
    match flagAcc k2 with
    | some a => setFlagAcc k2 { a with x := untarget a.x }
    | none => k2

/-- The package with the hub's lookaside entries of a context dropped. -/
def hubDrops (s : State) (x : Nat) : State := { s with hlb := s.hlb.filter fun l => l.ctx ≠ x }

theorem dropEntries_eq (s : State) (x : Nat) :
    dropEntries s x = forEach (hubDrops s x) (s.cores.map Prod.fst) fun s c => modCore s c (coreDrops x) := rfl

theorem setFlagAcc_rlb (k : CoreSt) (a : Access) : (setFlagAcc k a).rlb = k.rlb := by
  unfold setFlagAcc
  split <;> rfl

theorem coreDrops_rlb (x : Nat) (k : CoreSt) : (coreDrops x k).rlb = k.rlb.filter fun l => l.ctx ≠ x := by
  unfold coreDrops
  extract_lets k1 k2
  split
  · rfl
  · split
    · exact setFlagAcc_rlb ..
    · rfl

theorem forEach_rlb (x c : Nat) : ∀ (l : List Nat) (s : State), (getCore (forEach s l fun s c => modCore s c (coreDrops x)) c).rlb =
    if c ∈ l then (getCore s c).rlb.filter fun l => l.ctx ≠ x else (getCore s c).rlb
  | [], s => rfl
  | d :: l, s => by
    rw [forEach, forEach_rlb x c l]
    by_cases hd : c = d
    · rw [hd, getCore_modCore_self, coreDrops_rlb, List.filter_filter, if_pos (List.mem_cons_self ..)]
      simp only [Bool.and_self, ite_self]
    · rw [getCore_modCore_ne _ _ hd]
      simp only [List.mem_cons, hd, false_or]

theorem dropEntries_rlb (s : State) (x c : Nat) : (getCore (dropEntries s x) c).rlb = (getCore s c).rlb.filter fun l => l.ctx ≠ x := by
  rw [dropEntries_eq, forEach_rlb]
  split
  · rfl
  · next h =>
    have hempty : getCore s c = {} := by
      by_contra hne
      exact h (List.mem_map.2 ⟨_, mem_of_tget hne, rfl⟩)
    have hrlb : (getCore s c).rlb = [] := by rw [hempty]
    rw [show (getCore (hubDrops s x) c).rlb = (getCore s c).rlb from rfl, hrlb]
    rfl

theorem dropEntries_rest (s : State) (x : Nat) : (dropEntries s x).hlb = s.hlb.filter (fun l => l.ctx ≠ x) ∧ (dropEntries s x).ctxs = s.ctxs := by
  have h := forEach_cores (f := fun (s : State) (c : Nat) => modCore s c (coreDrops x)) (fun _ _ => rfl) (s.cores.map Prod.fst) (hubDrops s x)
  rw [dropEntries_eq, h]
  exact ⟨rfl, rfl⟩

/-- A context whose invalidation begins. -/
def invBegun (now : Nat) (k : Ctx) : Ctx := { k with xctl := sb k.xctl 29 true, invAt := now }

theorem invStart_spec (s : State) (x : Nat) : BuffersDrop s (invStart s x) x ∧
    (getCtx (invStart s x) x).xctl = sb (getCtx s x).xctl 29 true ∧ (getCtx (invStart s x) x).inv2 = (getCtx s x).inv2 := by
  have hc := combsOut_buffers s x
  obtain ⟨hhlb, hctxs⟩ := dropEntries_rest (modCtx (combsOut s x) x (invBegun s.now)) x
  have hinv : invStart s x = dropEntries (modCtx (combsOut s x) x (invBegun s.now)) x := rfl
  have hctx : getCtx (invStart s x) x = invBegun s.now (getCtx (combsOut s x) x) := by
    rw [hinv, getCtx, hctxs]
    exact getCtx_modCtx_self ..
  rw [hctx]
  refine ⟨⟨?_, fun c => ?_⟩, ?_, hc.inv2 x⟩
  · rw [hinv, hhlb]
    exact congrArg (List.filter _) hc.hlb
  · rw [hinv, dropEntries_rlb]
    exact congrArg (List.filter _) (hc.rlb c)
  · rw [invBegun, hc.xctl]

/-- A context with a new EN. -/
def enSet (v : BitVec 32) (k : Ctx) : Ctx :=
  { k with xctl := sb k.xctl 31 (bt v 31), migstat := if bt v 31 && !bt k.xctl 31 then 0 else k.migstat }

/-- The package with a new EN of context `x`. -/
def enWritten (s : State) (x : Nat) (v : BitVec 32) : State := setCtx s x (enSet v (getCtx s x))

theorem xctlWrite_eq (s : State) (x : Nat) (v : BitVec 32) : xctlWrite s x v =
    if !(bt v 30 || (bt (getCtx s x).xctl 31 && !bt v 31)) then enWritten s x v
    else if bt (getCtx s x).xctl 29 then modCtx (enWritten s x v) x fun k => { k with inv2 := true }
    else invStart (enWritten s x v) x := rfl

/-- A write of XCTL: EN is set, and INV or EN falling to 0 invalidates (Table 8.6, R256). -/
theorem xctlWrite_spec (s : State) (x : Nat) (v : BitVec 32) : bt (getCtx (xctlWrite s x v) x).xctl 31 = bt v 31 ∧
    (bt v 30 = false → (bt (getCtx s x).xctl 31 = true → bt v 31 = true) → bt (getCtx (xctlWrite s x v) x).xctl 29 = bt (getCtx s x).xctl 29 ∧
      (xctlWrite s x v).hlb = s.hlb ∧ (xctlWrite s x v).cores = s.cores) ∧
    (bt v 30 = true ∨ (bt (getCtx s x).xctl 31 = true ∧ bt v 31 = false) → bt (getCtx (xctlWrite s x v) x).xctl 29 = true ∧
      (bt (getCtx s x).xctl 29 = true → (getCtx (xctlWrite s x v) x).inv2 = true) ∧
      (bt (getCtx s x).xctl 29 = false → BuffersDrop s (xctlWrite s x v) x)) := by
  have hset : getCtx (enWritten s x v) x = enSet v (getCtx s x) := tget_tset_self ..
  have hen : bt (enSet v (getCtx s x)).xctl 31 = bt v 31 := bt_sb _ _ _ (by omega)
  have hbusy : bt (enSet v (getCtx s x)).xctl 29 = bt (getCtx s x).xctl 29 := bt_sb_ne _ _ _ _ (by omega)
  rw [xctlWrite_eq]
  by_cases hinv : (bt v 30 || (bt (getCtx s x).xctl 31 && !bt v 31)) = true
  · have hno : bt v 30 = false → (bt (getCtx s x).xctl 31 = true → bt v 31 = true) → False := by
      intro h1 h2
      rw [h1, Bool.false_or, Bool.and_eq_true, Bool.not_eq_true'] at hinv
      exact absurd ((h2 hinv.1).symm.trans hinv.2) (by decide)
    rw [hinv, if_neg (by decide)]
    split
    · next h29 =>
      rw [getCtx_modCtx_self, hset]
      exact ⟨hen, fun h1 h2 => (hno h1 h2).elim, fun _ => ⟨hbusy.trans h29, fun _ => rfl, fun hc => absurd (h29.symm.trans hc) (by decide)⟩⟩
    · next h29 =>
      obtain ⟨hdrop, hxctl, _⟩ := invStart_spec (enWritten s x v) x
      rw [hxctl, hset]
      exact ⟨(bt_sb_ne _ _ _ _ (by omega)).trans hen, fun h1 h2 => (hno h1 h2).elim,
        fun _ => ⟨bt_sb _ _ _ (by omega), fun hc => absurd hc h29, fun _ => ⟨hdrop.1, hdrop.2⟩⟩⟩
  · have hno : ¬ (bt v 30 = true ∨ (bt (getCtx s x).xctl 31 = true ∧ bt v 31 = false)) := by
      intro hc
      apply hinv
      obtain h | ⟨h1, h2⟩ := hc
      · rw [h, Bool.true_or]
      · rw [h1, h2, Bool.not_false, Bool.and_self, Bool.or_true]
    rw [Bool.eq_false_iff.2 hinv, if_pos (by decide), hset]
    exact ⟨hen, fun _ _ => ⟨hbusy, rfl, rfl⟩, fun h => (hno h).elim⟩

theorem execXctlEn_of {s : State} {view : View} (hd : isDriver s view = true) (hdone : s.rst.done = true) (x : CtxId) (v : BitVec 32) :
    exec (.xctlEn x view v) s = .next (xctlWrite s x.val v) := by
  have hexec : exec (.xctlEn x view v) s = execXctlEn x view v s := rfl
  rw [hexec, execXctlEn, hd, hdone]
  rfl

theorem execXctlInv_of {s : State} {view : View} (hd : isDriver s view = true) (hdone : s.rst.done = true) (x : CtxId) :
    exec (.xctlInv x view) s =
      .next (xctlWrite s x.val (BitVec.ofNat 32 (2 ^ 30 + if bt (getCtx s x.val).xctl 31 then 2 ^ 31 else 0))) := by
  have hexec : exec (.xctlInv x view) s = execXctlInv x view s := rfl
  rw [hexec, execXctlInv, hd, hdone]
  rfl

theorem execInvalidationDone_eq (x : CtxId) (s : State) : exec (.invalidationDone x) s =
    if !bt (getCtx s x.val).xctl 29 || oldAccesses s x.val then .next s
    else if (getCtx s x.val).inv2 then .next (invStart (setCtx s x.val { getCtx s x.val with inv2 := false }) x.val)
    else .next (setCtx s x.val { getCtx s x.val with xctl := sb (getCtx s x.val).xctl 29 false }) := rfl

/-! ## OWNCMD (Table 8.10, R260) -/

/-- The bits of OWNCMD that a write keeps. -/
def ownMask : BitVec 64 := maskOf 64 57 18 ||| maskOf 64 15 0

theorem and_ownMask (v : BitVec 64) : v &&& ownMask = mergeMask ownMask 0 v := by
  simp [mergeMask]

theorem ownMask_fields (v : BitVec 64) : bf (v &&& ownMask) 57 38 = bf v 57 38 ∧ bf (v &&& ownMask) 37 18 = bf v 37 18 ∧
    bf (v &&& ownMask) 15 0 = bf v 15 0 ∧ bt (v &&& ownMask) 62 = false := by
  rw [and_ownMask]
  exact ⟨bf_mergeMask_in _ _ (by decide), bf_mergeMask_in _ _ (by decide), bf_mergeMask_in _ _ (by decide), (bt_mergeMask_out _ _ (by decide)).trans (by decide)⟩

/-- The checks that refuse a command of OWNCMD. -/
def OwnBad (v : BitVec 64) : Prop :=
  bf v 57 38 + bf v 37 18 ≥ 2 ^ 20 ∨ bf v 15 14 = 3 ∨ bf v 13 12 ≠ 0 ∨ (bf v 15 14 ≠ 1 ∧ bf v 11 0 ≠ 0)

theorem ownOkCmd_iff (v : BitVec 64) : ownOkCmd v = true ↔ ¬ OwnBad v := by
  unfold ownOkCmd OwnBad
  rw [decide_eq_true_eq]
  omega

theorem owncmdWrite_busy {s : State} (v : BitVec 64) (h : bt s.ownCmd 62 = true) : owncmdWrite s v = s := if_pos h

theorem owncmdWrite_bad {s : State} {v : BitVec 64} (h : bt s.ownCmd 62 = false) (hv : bt v 63 = true) (hb : OwnBad v) : owncmdWrite s v = s := by
  have hno : ¬ ownOkCmd v = true := fun hc => (ownOkCmd_iff v).1 hc hb
  unfold owncmdWrite
  rw [h, if_neg (by decide), hv, if_neg (by decide), if_neg hno]

theorem owncmdWrite_taken {s : State} {v : BitVec 64} (h : bt s.ownCmd 62 = false) (hv : ¬ (bt v 63 = true ∧ OwnBad v)) :
    owncmdWrite s v = { s with ownCmd := (owncmdWrite s v).ownCmd, ownAt := (owncmdWrite s v).ownAt } ∧
      bf (owncmdWrite s v).ownCmd 57 38 = bf v 57 38 ∧ bf (owncmdWrite s v).ownCmd 37 18 = bf v 37 18 ∧
      bf (owncmdWrite s v).ownCmd 15 0 = bf v 15 0 ∧ bt (owncmdWrite s v).ownCmd 62 = bt v 63 := by
  obtain ⟨hlo, hn, he, hbusy⟩ := ownMask_fields v
  by_cases hgo : bt v 63 = true
  · have hok : ownOkCmd v = true := (ownOkCmd_iff v).2 fun hb => hv ⟨hgo, hb⟩
    have hw : owncmdWrite s v = { s with ownCmd := sb (v &&& ownMask) 62 true, ownAt := s.now } := by
      unfold owncmdWrite
      rw [h, if_neg (by decide), hgo, if_neg (by decide), if_pos hok]
      rfl
    rw [hw, hgo]
    exact ⟨rfl, (bf_sb_out _ _ _ _ _ (by omega)).trans hlo, (bf_sb_out _ _ _ _ _ (by omega)).trans hn,
      (bf_sb_out _ _ _ _ _ (by omega)).trans he, bt_sb _ _ _ (by omega)⟩
  · have hw : owncmdWrite s v = { s with ownCmd := v &&& ownMask } := by
      unfold owncmdWrite
      rw [h, if_neg (by decide), if_pos (by simpa using hgo)]
      rfl
    rw [hw]
    exact ⟨rfl, hlo, hn, he, hbusy.trans (Bool.eq_false_iff.2 hgo).symm⟩

theorem execOwncmd_of {s : State} {view : View} (hd : isDriver s view = true) (v : BitVec 64) :
    exec (.owncmd view v) s = .next (owncmdWrite s v) := by
  have hexec : exec (.owncmd view v) s = execOwncmd view v s := rfl
  rw [hexec, execOwncmd, hd]
  rfl

end Sys2Proof.Machine
end

section
/-!
PROOF. Ownership, BAR2 and migration (R260 to R269): the end of OWNCMD, the window of the host, and the pages on their way.
-/

namespace Sys2Proof.Machine

/-! ## The end of OWNCMD (R260, R261) -/

theorem marked_span (s : State) (x : Nat) (m : List Host.Cell) :
    (withMem (clearMarker s x) m).towers = s.towers ∧ (withMem (clearMarker s x) m).span = s.span := ⟨rfl, rfl⟩

theorem homeLeave_span (s : State) (v : QLine) : (homeLeave s v).towers = s.towers ∧ (homeLeave s v).span = s.span := by
  unfold homeLeave
  dsimp only
  with_reducible split
  · exact marked_span ..
  · exact ⟨rfl, rfl⟩

theorem forEach_homeLeave_span : ∀ (l : List QLine) (s : State),
    (forEach s l homeLeave).towers = s.towers ∧ (forEach s l homeLeave).span = s.span
  | [], s => ⟨rfl, rfl⟩
  | v :: l, s => by
    obtain ⟨h1, h2⟩ := forEach_homeLeave_span l (homeLeave s v)
    exact ⟨h1.trans (homeLeave_span s v).1, h2.trans (homeLeave_span s v).2⟩

theorem inSpan_congr {s t : State} (h : t.span = s.span) (key : BitVec 64) (lo n : Nat) : inSpan t key lo n = inSpan s key lo n := by
  unfold inSpan keyHere levelOf ownDomain ownPackage
  rw [h]

/-- A tower without the lines of a span. -/
def spanless (s : State) (lo n : Nat) (w : TowerSt) : TowerSt :=
  { w with
    rlc := w.rlc.filter fun l => !inSpan s l.line lo n, home := w.home.filter fun l => !inSpan s l.line lo n,
    victim := w.victim.filter fun l => !inSpan s l.line lo n }

theorem spanless_congr {s t : State} (h : t.span = s.span) (lo n : Nat) (w : TowerSt) : spanless t lo n w = spanless s lo n w := by
  unfold spanless
  simp only [inSpan_congr h]

theorem spanless_twice (s : State) (lo n : Nat) (w : TowerSt) : spanless s lo n (spanless s lo n w) = spanless s lo n w := by
  simp [spanless, List.filter_filter]

/-- Tower `t` drops the lines of a span. -/
def towerDrops (lo n : Nat) (s : State) (t : Nat) : State :=
  forEach (modTower s t (spanless s lo n)) ((getTower s t).home.filter fun l => inSpan s l.line lo n) homeLeave

/-- Every line of a span that has to be written back is. -/
def spanBack (lo n : Nat) (s : State) (t : Nat) : State :=
  forEach s ((getTower s t).rlc.filter fun l => inSpan s l.line lo n && (l.dirty || homeRunRetired s (l.line.toNat % 2 ^ 41))) writeBack

theorem dropSpan_eq (s : State) (lo n : Nat) :
    dropSpan s lo n = forEach (forEach s (List.range 8) (spanBack lo n)) (List.range 8) (towerDrops lo n) := rfl

theorem towerDrops_span (lo n : Nat) (s : State) (t : Nat) : (towerDrops lo n s t).span = s.span := (forEach_homeLeave_span _ _).2

theorem towerDrops_tower (lo n : Nat) (s : State) (t u : Nat) :
    getTower (towerDrops lo n s t) u = if u = t then spanless s lo n (getTower s t) else getTower s u := by
  have h : getTower (towerDrops lo n s t) u = getTower (modTower s t (spanless s lo n)) u := by
    unfold getTower
    rw [towerDrops, (forEach_homeLeave_span _ _).1]
  rw [h]
  split
  · next hu =>
    rw [hu]
    exact tget_tset_self ..
  · next hu => exact tget_tset_ne _ hu _

theorem forEach_towerDrops (lo n u : Nat) : ∀ (l : List Nat) (s : State), (forEach s l (towerDrops lo n)).span = s.span ∧
    getTower (forEach s l (towerDrops lo n)) u = if u ∈ l then spanless s lo n (getTower s u) else getTower s u
  | [], s => ⟨rfl, rfl⟩
  | t :: l, s => by
    have hspan := towerDrops_span lo n s t
    obtain ⟨h1, h2⟩ := forEach_towerDrops lo n u l (towerDrops lo n s t)
    refine ⟨h1.trans hspan, ?_⟩
    rw [forEach, h2, towerDrops_tower, spanless_congr hspan]
    by_cases hu : u = t
    · rw [if_pos hu, ← hu, spanless_twice, ite_self, if_pos (List.mem_cons_self ..)]
    · rw [if_neg hu]
      simp only [List.mem_cons, hu, false_or]

theorem dropSpan_home (s : State) (lo n : Nat) : HomeSide s (dropSpan s lo n) :=
  forEach_home (forEach_home (HomeSide.refl s) fun _ _ h => forEach_home h fun _ _ => writeBack_home) fun _ _ h =>
    forEach_home (modTower_home h) fun _ _ => homeLeave_home

theorem spanless_free (s : State) (lo n : Nat) (w : TowerSt) : (∀ l ∈ (spanless s lo n w).rlc, inSpan s l.line lo n = false) ∧
    (∀ l ∈ (spanless s lo n w).home, inSpan s l.line lo n = false) ∧ ∀ l ∈ (spanless s lo n w).victim, inSpan s l.line lo n = false := by
  simp [spanless]

theorem copyFree_of {s t : State} {lo n : Nat} (hspan : t.span = s.span) (h : ∀ u < 8, ∃ w, getTower t u = spanless s lo n w) : CopyFree t lo n := by
  intro u hu
  obtain ⟨w, hw⟩ := h u hu
  simp only [inSpan_congr hspan, hw]
  exact spanless_free s lo n w

theorem dropSpan_towers (s : State) (lo n : Nat) : ∃ r : State, (dropSpan s lo n).span = r.span ∧
    ∀ u < 8, ∃ w, getTower (dropSpan s lo n) u = spanless r lo n w := by
  rw [dropSpan_eq]
  generalize forEach s (List.range 8) (spanBack lo n) = r
  refine ⟨r, (forEach_towerDrops lo n 0 _ r).1, fun u hu => ⟨getTower r u, ?_⟩⟩
  rw [(forEach_towerDrops lo n u _ r).2, if_pos (List.mem_range.2 hu)]

theorem ownWritten_towers (s : State) (lo n : Nat) (e : BitVec 16) :
    (ownWritten s lo n e).span = s.span ∧ ∀ u, getTower (ownWritten s lo n e) u = getTower s u := ⟨rfl, fun _ => rfl⟩

theorem ownWritten_copyFree (s : State) (lo n : Nat) (e : BitVec 16) : CopyFree (ownWritten (dropSpan s lo n) lo n e) lo n := by
  obtain ⟨r, hspan, htower⟩ := dropSpan_towers s lo n
  obtain ⟨hspan', htower'⟩ := ownWritten_towers (dropSpan s lo n) lo n e
  refine copyFree_of (hspan'.trans hspan) fun u hu => ?_
  rw [htower']
  exact htower u hu

theorem tget_span (e : BitVec 16) (lo g : Nat) (o : Tab (BitVec 16)) : ∀ n : Nat,
    tget 0 ((List.range n).foldl (fun t i => tset 0 t (lo + i) e) o) g = if lo ≤ g ∧ g < lo + n then e else tget 0 o g
  | 0 => by rw [if_neg (by omega)]; rfl
  | n + 1 => by
    rw [List.range_succ, List.foldl_append, List.foldl_cons, List.foldl_nil]
    by_cases hg : g = lo + n
    · rw [hg, tget_tset_self, if_pos (by omega)]
    · rw [tget_tset_ne _ hg, tget_span e lo g o n]
      exact if_congr (by omega) rfl rfl

theorem ownWritten_owner (s : State) (lo n : Nat) (e : BitVec 16) :
    (ownWritten s lo n e).owner = (List.range n).foldl (fun t i => tset 0 t (lo + i) e) s.owner := rfl

theorem execOwncmdDone_of {s : State} (h : bt s.ownCmd 62 = true) : exec .owncmdDone s =
    .next (ownWritten (dropSpan s (bf s.ownCmd 57 38) (bf s.ownCmd 37 18 + 1)) (bf s.ownCmd 57 38) (bf s.ownCmd 37 18 + 1)
      (BitVec.ofNat 16 (bf s.ownCmd 15 0))) := by
  have hexec : exec .owncmdDone s = execOwncmdDone s := rfl
  rw [hexec, execOwncmdDone, h]
  rfl

theorem owncmdDone_spec {s : State} (h : bt s.ownCmd 62 = true) : ∃ t, exec .owncmdDone s = .next t ∧ t.ownCmd = sb s.ownCmd 62 false ∧
    CopyFree t (bf s.ownCmd 57 38) (bf s.ownCmd 37 18 + 1) ∧
    ∀ g, tget 0 t.owner g = if bf s.ownCmd 57 38 ≤ g ∧ g ≤ bf s.ownCmd 57 38 + bf s.ownCmd 37 18 then BitVec.ofNat 16 (bf s.ownCmd 15 0)
      else tget 0 s.owner g := by
  have hhome := dropSpan_home s (bf s.ownCmd 57 38) (bf s.ownCmd 37 18 + 1)
  refine ⟨_, execOwncmdDone_of h, congrArg (fun o => sb o 62 false) hhome.ownCmd, ownWritten_copyFree s _ _ _, fun g => ?_⟩
  rw [ownWritten_owner, hhome.owner, tget_span]
  exact if_congr (by omega) rfl rfl

/-! ## BAR2 (R264, R266) -/

section
variable {s s1 : State} (hopen : barOpen s = true)
include hopen

theorem execBar2Access_read (hposted : s.host.posted = []) (off size : Nat) :
    exec (.bar2Access off size none) s = .next (windowRead s off size) := by
  have hexec : exec (.bar2Access off size none) s = execBar2Access off size none s := rfl
  rw [hexec, execBar2Access, hopen, if_neg (by decide)]
  rw [if_pos hposted]

theorem execBar2Access_write {b : Bool} (hposted : s.host.posted = []) {off size : Nat} {bs : List Byte}
    (h : windowWrite s s.host.win off bs = (b, s1)) : exec (.bar2Access off size (some bs)) s =
      .next (if b then s1 else setPosted s1 [.window s.host.win off bs]) := by
  have hexec : exec (.bar2Access off size (some bs)) s = execBar2Access off size (some bs) s := rfl
  rw [hexec, execBar2Access, hopen, if_neg (by decide)]
  rw [if_pos hposted, h]
  cases b with
  | true => rfl
  | false => rfl

theorem execBar2Access_behind (hposted : s.host.posted ≠ []) (off size : Nat) (bs : List Byte) :
    exec (.bar2Access off size (some bs)) s = .next (setPosted s (s.host.posted ++ [.window s.host.win off bs])) := by
  have hexec : exec (.bar2Access off size (some bs)) s = execBar2Access off size (some bs) s := rfl
  rw [hexec, execBar2Access, hopen, if_neg (by decide)]
  rw [if_neg hposted]

end

theorem windowRead_off {s : State} (h : bt s.host.win 20 = false) (off size : Nat) :
    windowRead s off size = bar2Answer s (List.replicate size 0xFF) := by
  unfold windowRead
  rw [h]
  rfl

theorem windowRead_of {s s1 : State} {off size : Nat} {c : Code} {d : List Byte} (h : bt s.host.win 20 = true)
    (hr : hubRead s (bf s.host.win 11 0) 4 (windowVa s.host.win off) size .home = ⟨c, d, s1⟩) (hc : c ≠ St.migratePending) :
    (windowRead s off size).host.bar2Data = if c = St.ok then d else List.replicate size 0xFF := by
  unfold windowRead
  dsimp only
  rw [h, if_neg (by decide), hr]
  dsimp only
  rw [if_neg hc]
  split
  · rfl
  · rfl

theorem windowWrite_off {s : State} {win : BitVec 64} (h : bt win 20 = false) (off : Nat) (bs : List Byte) :
    windowWrite s win off bs = (true, s) := by
  unfold windowWrite
  rw [h]
  rfl

theorem windowWrite_of {s s1 : State} {win : BitVec 64} {off : Nat} {bs d : List Byte} {c : Code} (h : bt win 20 = true)
    (hw : hubWrite s (bf win 11 0) 4 (windowVa win off) .write bs .home = ⟨c, d, s1⟩) : windowWrite s win off bs =
      (decide (c ≠ St.migratePending), if c = St.migratePending ∨ c = St.ok then s1 else rasCtx s1 (bf win 11 0) c 0xFFFF (unitId s1 0 0)) := by
  unfold windowWrite
  dsimp only
  rw [h, if_neg (by decide), hw]
  dsimp only
  by_cases h1 : c = St.migratePending
  · rw [if_pos h1, if_pos (Or.inl h1), decide_eq_false (fun hc => hc h1)]
  · rw [if_neg h1, decide_eq_true h1]
    by_cases h2 : c = St.ok
    · rw [if_pos h2, if_pos (Or.inr h2)]
    · rw [if_neg h2, if_neg (fun hc => hc.elim h1 h2)]

theorem bar2Read_spec {s : State} (hopen : barOpen s = true) (hposted : s.host.posted = []) (off size : Nat) (c : Code) (d : List Byte) (s1 : State) :
    (bt s.host.win 20 = false → ∃ t, exec (.bar2Access off size none) s = .next t ∧ t.host.bar2Data = List.replicate size 0xFF) ∧
    (bt s.host.win 20 = true → hubRead s (bf s.host.win 11 0) 4 (windowVa s.host.win off) size .home = ⟨c, d, s1⟩ → c ≠ St.migratePending →
      ∃ t, exec (.bar2Access off size none) s = .next t ∧ t.host.bar2Data = if c = St.ok then d else List.replicate size 0xFF) :=
  ⟨fun h => ⟨_, execBar2Access_read hopen hposted off size, by rw [windowRead_off h]; rfl⟩,
    fun h hr hc => ⟨_, execBar2Access_read hopen hposted off size, windowRead_of h hr hc⟩⟩

/-- What a write of the window leaves, from the answer of its access. -/
def windowLeft (s s1 : State) (off : Nat) (bs : List Byte) (c : Code) : State :=
  if c = St.migratePending then { s1 with host := { s1.host with posted := [.window s.host.win off bs] } }
  else if c = St.ok then s1 else rasCtx s1 (bf s.host.win 11 0) c 0xFFFF (unitId s1 0 0)

theorem bar2Write_spec {s : State} (hopen : barOpen s = true) (hposted : s.host.posted = []) (off size : Nat) (bs : List Byte) (c : Code)
    (d : List Byte) (s1 : State) :
    (bt s.host.win 20 = false → exec (.bar2Access off size (some bs)) s = .next s) ∧
    (bt s.host.win 20 = true → hubWrite s (bf s.host.win 11 0) 4 (windowVa s.host.win off) .write bs .home = ⟨c, d, s1⟩ →
      ∃ t, exec (.bar2Access off size (some bs)) s = .next t ∧ t = windowLeft s s1 off bs c) := by
  refine ⟨fun h => execBar2Access_write hopen hposted (windowWrite_off h off bs), fun h hw => ⟨_, execBar2Access_write hopen hposted (windowWrite_of h hw), ?_⟩⟩
  unfold windowLeft
  by_cases h1 : c = St.migratePending
  · rw [decide_eq_false (fun hc => hc h1), if_pos (Or.inl h1), if_pos h1]
    rfl
  · rw [decide_eq_true h1, if_neg h1, if_pos rfl]
    by_cases h2 : c = St.ok
    · rw [if_pos (Or.inr h2), if_pos h2]
    · rw [if_neg (fun hc => hc.elim h1 h2), if_neg h2]

/-! ## Page migration (R268, R269) -/

/-- Cores, contexts, waiting translations and pages on their way stand. -/
structure KeepsWaits (s t : State) : Prop where
  cores : t.cores = s.cores
  ctxs : t.ctxs = s.ctxs
  hubX : t.hubX = s.hubX
  lateEv : t.lateEv = s.lateEv
  migr : t.migr = s.migr

theorem KeepsWaits.refl (s : State) : KeepsWaits s s := ⟨rfl, rfl, rfl, rfl, rfl⟩

theorem KeepsWaits.trans {s t u : State} (h : KeepsWaits s t) (g : KeepsWaits t u) : KeepsWaits s u :=
  ⟨g.cores.trans h.cores, g.ctxs.trans h.ctxs, g.hubX.trans h.hubX, g.lateEv.trans h.lateEv, g.migr.trans h.migr⟩

theorem HomeSide.waits {s t : State} (h : HomeSide s t) : KeepsWaits s t := ⟨h.cores, h.ctxs, h.hubX, h.lateEv, h.migr⟩

theorem forEach_keepsWaits {α : Type} {f : State → α → State} (hf : ∀ s x, KeepsWaits s (f s x)) :
    ∀ (l : List α) (s : State), KeepsWaits s (forEach s l f)
  | [], s => KeepsWaits.refl s
  | x :: l, s => (hf s x).trans (forEach_keepsWaits hf l (f s x))

theorem ite_keepsWaits {a s t : State} {c : Prop} [Decidable c] (h : KeepsWaits a s) (g : KeepsWaits a t) : KeepsWaits a (if c then s else t) := by
  split
  · exact h
  · exact g

theorem migrIssue_waits (s : State) (m : Migr) : KeepsWaits s (migrIssue s m) := by
  unfold migrIssue
  with_reducible split
  · with_reducible refine ite_keepsWaits (KeepsWaits.refl s) (KeepsWaits.trans ?_ (forEach_keepsWaits ?_ _ _))
    · exact forEach_keepsWaits (fun s l => (rlcDrop_home (HomeSide.refl s)).waits) _ s
    · exact fun _ _ => ⟨rfl, rfl, rfl, rfl, rfl⟩
  · with_reducible refine ite_keepsWaits (KeepsWaits.refl s) (forEach_keepsWaits ?_ _ _)
    exact fun _ _ => ⟨rfl, rfl, rfl, rfl, rfl⟩
  · exact KeepsWaits.refl s

/-- The package without entry `i` of the pages on their way. -/
def migrGone (s : State) (i : Nat) : State := { s with migr := s.migr.eraseIdx i }

theorem migrEnd_waits (s : State) (i : Nat) (m : Migr) : KeepsWaits (migrGone s i) (migrEnd s i m) := by
  unfold migrEnd
  dsimp only
  with_reducible split
  · exact KeepsWaits.refl _
  · exact migrIssue_waits _ _

theorem homeLine_home {a s : State} {ctx x : Nat} {nc : Bool} (h : HomeSide a s) : HomeSide a (homeLine s ctx x nc).2.2 := by
  unfold homeLine
  dsimp only
  with_reducible split
  · exact h
  · with_reducible split
    · with_reducible split
      · exact homePlace_home h
      · exact homePlace_home h
    · with_reducible split
      · exact h
      · exact ite_home h (homePlace_home h)

theorem homeRead_home {a s : State} {sys : Bool} {ctx x n : Nat} {nc : Bool} (h : HomeSide a s) : HomeSide a (homeRead s sys ctx x n nc).2.2 := by
  unfold homeRead
  dsimp only
  with_reducible split
  · exact h
  · exact homeLine_home h

theorem hereRead_home {a s : State} {d : Nat} {sys : Bool} {ctx x n : Nat} {nc : Bool} (h : HomeSide a s) :
    HomeSide a (hereRead s d sys ctx x n nc).2.2 := by
  unfold hereRead
  with_reducible split
  · exact h
  · exact homeRead_home (recallLine_home h)

theorem hereWrite_home {a s : State} {d : Nat} {sys : Bool} {ctx x : Nat} {bs : List Byte} {nc : Bool} (h : HomeSide a s) :
    HomeSide a (hereWrite s d sys ctx x bs nc).2 := by
  unfold hereWrite
  with_reducible split
  · exact h
  · exact homeWrite_home (recallLine_home h)

theorem sysRead_home {a s : State} {d x n : Nat} (h : HomeSide a s) : HomeSide a (sysRead s d x n).2.2 := by
  unfold sysRead
  with_reducible split
  · exact h
  · exact hereRead_home h

theorem sysWrite_home {a s : State} {d x : Nat} {bs : List Byte} (h : HomeSide a s) : HomeSide a (sysWrite s d x bs).2 := by
  unfold sysWrite
  with_reducible split
  · exact h
  · exact hereWrite_home h

theorem swapPage_home (s : State) (m : Migr) (v : Nat) : HomeSide s (swapPage s m v) := by
  have hr : HomeSide s (sysRead s m.tower m.mapWord 8).2.2 := sysRead_home (HomeSide.refl s)
  unfold swapPage
  with_reducible split
  next heq =>
    rw [heq] at hr
    exact ite_home hr (sysWrite_home hr)

theorem writePage_home (s : State) (m : Migr) (d : List Byte) : HomeSide s (writePage s m d) :=
  forEach_home (HomeSide.refl s) fun _ _ h => sysWrite_home h

theorem freeAnswer_waits (s : State) (fail : Code → Code) (n : Nat) : KeepsWaits s (freeAnswer s fail n).2.2 := by
  unfold freeAnswer freshBits freshBytes
  dsimp only
  with_reducible split
  · exact ⟨rfl, rfl, rfl, rfl, rfl⟩
  · exact ⟨rfl, rfl, rfl, rfl, rfl⟩

theorem spanAnswer_waits (s : State) (ga : Nat) (r : Reply) (skip n : Nat) : KeepsWaits s (spanAnswer s ga r skip n).2.2 := by
  unfold spanAnswer
  with_reducible split
  · exact KeepsWaits.refl s
  · cases r with
    | home => exact freeAnswer_waits ..
    | ok d => exact KeepsWaits.refl s
    | fail c => exact KeepsWaits.refl s

theorem busAnswer_waits (s : State) (r : Reply) (skip n : Nat) : KeepsWaits s (busAnswer s r skip n).2.2 := by
  cases r with
  | home => exact freeAnswer_waits ..
  | ok d => exact KeepsWaits.refl s
  | fail c => exact KeepsWaits.refl s

theorem migrAnswer_waits (s : State) (m : Migr) (r : Reply) : KeepsWaits s (migrAnswer s m r).2.2 := by
  unfold migrAnswer
  with_reducible split
  · with_reducible split
    · exact KeepsWaits.refl s
    · exact spanAnswer_waits ..
  · with_reducible split
    · exact KeepsWaits.refl s
    · exact busAnswer_waits ..
  · exact KeepsWaits.refl s

/-- Core `k` after what its DMA channels wait for of the page of `m` has the translation `x`. -/
def woken (m : Migr) (x : XSt) (k : CoreSt) : CoreSt :=
  { k with dma := k.dma.map fun d => if waitsFor m d.2.xw then (d.1, { d.2 with xw := x }) else d }

/-- No access of a core waits for the page of `m`. -/
def CoreWaitsNot (m : Migr) (k : CoreSt) : Prop :=
  (∀ a ∈ k.accs, waitsFor m a.x = false) ∧ waitsFor m k.fetchX = false ∧ ∀ a, flagAcc k = some a → waitsFor m a.x = false

theorem CoreWaitsNot.woken {m : Migr} {k : CoreSt} (h : CoreWaitsNot m k) (x : XSt) : CoreWaitsNot m (woken m x k) := h

theorem wakeCore_of {s : State} {c : Nat} {m : Migr} {f : State → XSt → BitVec 64 → Need → Bool → XSt × State} {x : XSt}
    (h : CoreWaitsNot m (getCore s c)) : wakeCore s c m f x = modCore s c (woken m x) := by
  obtain ⟨haccs, hfetch, hflag⟩ := h
  have hnone : ((getCore s c).accs.filter fun a => waitsFor m a.x) = [] := List.filter_eq_nil_iff.2 fun a ha => by rw [haccs a ha]; decide
  unfold wakeCore
  dsimp only
  rw [hnone, hfetch, if_neg (by decide)]
  split
  · next a ha =>
    rw [hflag a ha]
    rfl
  · rfl

/-- The package with other cores. -/
def setCores (s : State) (cs : Tab CoreSt) : State := { s with cores := cs }

theorem forEach_wakeCore {m : Migr} {f : Nat → State → XSt → BitVec 64 → Need → Bool → XSt × State} {x : XSt} : ∀ (l : List Nat) (s : State),
    (∀ c, CoreWaitsNot m (getCore s c)) → ∃ cs, (forEach s l fun s c => wakeCore s c m (f c) x) = setCores s cs
  | [], s, _ => ⟨s.cores, rfl⟩
  | c :: l, s, h => by
    have hstep : ∀ d, CoreWaitsNot m (getCore (modCore s c (woken m x)) d) := by
      intro d
      by_cases hd : d = c
      · rw [hd, getCore_modCore_self]
        exact (h c).woken x
      · rw [getCore_modCore_ne _ _ hd]
        exact h d
    obtain ⟨cs, hcs⟩ := forEach_wakeCore l _ hstep
    rw [forEach, wakeCore_of (h c), hcs]
    exact ⟨cs, rfl⟩

theorem KeepsWaits.getCore {s t : State} (h : KeepsWaits s t) (c : Nat) : getCore t c = getCore s c := by
  rw [Machine.getCore, h.cores]
  rfl

theorem KeepsWaits.getCtx {s t : State} (h : KeepsWaits s t) (x : Nat) : getCtx t x = getCtx s x := by
  rw [Machine.getCtx, h.ctxs]
  rfl

theorem NoCoreWaits.of_cores {s t : State} {m : Migr} (h : NoCoreWaits s m) (hc : t.cores = s.cores) (c : Nat) : CoreWaitsNot m (getCore t c) := by
  have hget : Machine.getCore t c = Machine.getCore s c := by rw [Machine.getCore, hc]; rfl
  rw [hget]
  exact h c

theorem lateEvents_nil {s : State} (h : s.lateEv = []) : lateEvents s = { s with lateEv := [] } := by
  rw [lateEvents, h]
  rfl

/-- A waiting hub translation whose page failed. -/
def hubFails (m : Migr) (code : Code) (h : Nat × BitVec 64 × XSt) : Nat × BitVec 64 × XSt :=
  if waitsFor m h.2.2 then (h.1, h.2.1, .fault code 5) else h

/-- The package whose hub translations of the page of `m` have failed. -/
def hubFailed (s : State) (m : Migr) (code : Code) : State := { s with hubX := s.hubX.map (hubFails m code) }

/-- The package whose hub translations of the page of `m` run again. -/
def hubAgain (s : State) (m : Migr) : State := { s with hubX := s.hubX.filter fun h => !waitsFor m h.2.2 }

/-- The accesses of the cores that wait for the page of `m` fail. -/
def coresFail (s : State) (m : Migr) (code : Code) : State :=
  forEach s (s.cores.map Prod.fst) fun s c => wakeCore s c m (fun s _ _ _ _ => (.fault code 5, s)) (.fault code 5)

/-- The accesses of the cores that wait for the page of `m` run again. -/
def coresAgain (s : State) (m : Migr) : State :=
  forEach s (s.cores.map Prod.fst) fun s c => wakeCore s c m (fun s t va need hall => pageAgain s c t va need hall) .miss

/-- The fault of a page that failed, in its context. -/
def pageFault (s : State) (m : Migr) (code : Code) : State := xfault s m.ctx code 5 .read 5 0 m.va

theorem migFail_eq (s : State) (i : Nat) (m : Migr) (code : Code) : migFail s i m code =
    lateEvents (hubFailed (coresFail (pageFault (swapPage (migrEnd s i m) m 0) m code) m code) m code) := rfl

/-- MIGSTAT with one more page done. -/
def pageCounted (k : Ctx) : Ctx := { k with migstat := sf k.migstat 31 16 (satInc (BitVec.ofNat 16 (bf k.migstat 31 16))).toNat }

theorem pageCounted_migstat (k : Ctx) : bf (pageCounted k).migstat 31 16 = min (bf k.migstat 31 16 + 1) 0xFFFF := by
  have hlt := bf_lt k.migstat 31 16
  rw [pageCounted, bf_sf_same _ _ _ _ (by decide), satInc_toNat _ hlt]
  omega

section
variable {s : State} {i : Nat} {m : Migr} (hi : s.migr[i]? = some m)
  (hactive : ((s.migr.take i).filter fun n => n.tower = m.tower).length < 16) (hlate : s.lateEv = []) (hno : NoCoreWaits s m)
include hi hactive

theorem execMigrationFail_of (code : BitVec 8) : exec (.migrationFail i code) s = .next (migFail s i m (migrCode m code)) := by
  have hexec : exec (.migrationFail i code) s = execMigrationFail i code s := rfl
  rw [hexec, execMigrationFail, hi]
  exact if_pos (decide_eq_true hactive)

theorem execMigrationComplete_of {r : Reply} {d : List Byte} {s1 : State} (hr : migrAnswer s m r = (St.ok, d, s1)) :
    exec (.migrationComplete i r) s = .next (lateEvents (hubAgain
      (coresAgain (modCtx (swapPage (writePage (migrEnd s1 i m) m d) m 2) m.ctx pageCounted) m) m)) := by
  have hexec : exec (.migrationComplete i r) s = execMigrationComplete i r s := rfl
  have hact : migrActive s i m = true := decide_eq_true hactive
  rw [hexec, execMigrationComplete, hi]
  dsimp only
  rw [hact, if_neg (by decide), hr]
  rfl

include hlate hno

theorem migrationFail_spec (code : BitVec 8) : ∃ t, exec (.migrationFail i code) s = .next t ∧ t.mem = (swapPage (migrEnd s i m) m 0).mem ∧
    t.migr = s.migr.eraseIdx i ∧ t.hubX = s.hubX.map (hubFails m (migrCode m code)) := by
  have hw : KeepsWaits (migrGone s i) (swapPage (migrEnd s i m) m 0) := (migrEnd_waits s i m).trans (swapPage_home _ m 0).waits
  refine ⟨_, execMigrationFail_of hi hactive code, ?_⟩
  rw [migFail_eq]
  generalize swapPage (migrEnd s i m) m 0 = s1 at hw ⊢
  generalize migrCode m code = code
  obtain ⟨cs, hcs⟩ := forEach_wakeCore (m := m) (f := fun _ s _ _ _ _ => (.fault code 5, s)) (x := .fault code 5)
    ((pageFault s1 m code).cores.map Prod.fst) (pageFault s1 m code) (hno.of_cores hw.cores)
  have hlate1 : (hubFailed (setCores (pageFault s1 m code) cs) m code).lateEv = [] := hw.lateEv.trans hlate
  rw [coresFail, hcs, lateEvents_nil hlate1]
  exact ⟨rfl, hw.migr, congrArg (List.map (hubFails m code)) hw.hubX⟩

theorem migrationComplete_spec {r : Reply} {d : List Byte} {s1 : State} (hr : migrAnswer s m r = (St.ok, d, s1)) :
    ∃ t, exec (.migrationComplete i r) s = .next t ∧ t.mem = (swapPage (writePage (migrEnd s1 i m) m d) m 2).mem ∧ t.migr = s.migr.eraseIdx i ∧
      bf (getCtx t m.ctx).migstat 31 16 = min (bf (getCtx s m.ctx).migstat 31 16 + 1) 0xFFFF ∧
      t.hubX = s.hubX.filter fun h => !waitsFor m h.2.2 := by
  have hw1 : KeepsWaits s s1 := by
    have h := migrAnswer_waits s m r
    rwa [hr] at h
  have hw : KeepsWaits (migrGone s1 i) (swapPage (writePage (migrEnd s1 i m) m d) m 2) :=
    ((migrEnd_waits s1 i m).trans (writePage_home _ m d).waits).trans (swapPage_home _ m 2).waits
  refine ⟨_, execMigrationComplete_of hi hactive hr, ?_⟩
  generalize swapPage (writePage (migrEnd s1 i m) m d) m 2 = s2 at hw ⊢
  have hctx : getCtx s2 m.ctx = getCtx s m.ctx := (hw.getCtx _).trans (hw1.getCtx _)
  obtain ⟨cs, hcs⟩ := forEach_wakeCore (m := m) (f := fun c s t va need hall => pageAgain s c t va need hall) (x := .miss)
    ((modCtx s2 m.ctx pageCounted).cores.map Prod.fst) (modCtx s2 m.ctx pageCounted) (hno.of_cores (hw.cores.trans hw1.cores))
  have hlate1 : (hubAgain (setCores (modCtx s2 m.ctx pageCounted) cs) m).lateEv = [] := hw.lateEv.trans (hw1.lateEv.trans hlate)
  rw [coresAgain, hcs, lateEvents_nil hlate1]
  refine ⟨rfl, hw.migr.trans (congrArg (fun l => l.eraseIdx i) hw1.migr), ?_, congrArg (List.filter _) (hw.hubX.trans hw1.hubX)⟩
  have hget : getCtx (modCtx s2 m.ctx pageCounted) m.ctx = pageCounted (getCtx s m.ctx) := by rw [getCtx_modCtx_self, hctx]
  exact (congrArg (fun k : Ctx => bf k.migstat 31 16) hget).trans (pageCounted_migstat _)

end

/-! ## What searches and rechecks leave (R250, R252, R268) -/

theorem searchLoop_home {a : State} {d base vp : Nat} : ∀ (k : Nat) {s : State} {i : Nat} {e : Option (BitVec 256)}, HomeSide a s →
    HomeSide a (searchLoop d base vp k s i e).2.2.2
  | 0, s, i, e, h => h
  | k + 1, s, i, e, h => by
    have hr : HomeSide a (sysRead s d (base + 32 * (i + 2 ^ k)) 32).2.2 := sysRead_home h
    rw [searchLoop]
    with_reducible split
    next heq =>
      rw [heq] at hr
      with_reducible split
      · exact hr
      · with_reducible split
        · exact searchLoop_home k hr
        · exact searchLoop_home k hr

theorem search_home {a s : State} {d base n vp : Nat} {en : Bool} (h : HomeSide a s) : HomeSide a (search s d base n en vp).2 := by
  unfold search
  with_reducible split
  · exact h
  · have hl : HomeSide a (searchLoop d base vp n s 0 none).2.2.2 := searchLoop_home n h
    with_reducible split
    next e s1 heq =>
      rw [heq] at hl
      with_reducible split
      · exact hl
      · cases e with
        | some e =>
          dsimp only
          with_reducible split
          · exact hl
          · with_reducible split
            · exact hl
            · exact hl
        | none =>
          have hr : HomeSide a (sysRead s1 d base 32).2.2 := sysRead_home hl
          dsimp only
          with_reducible split
          · exact hr
          · with_reducible split
            · exact hr
            · exact hr

theorem descOf_home {a s : State} {d : Nat} {md : BitVec 64} {e : BitVec 256} (h : HomeSide a s) : HomeSide a (descOf s d md e).2.2 := by
  unfold descOf
  with_reducible split
  · exact sysRead_home h
  · exact h

theorem searchFill_home (s : State) (d x base n : Nat) (en : Bool) (md : BitVec 64) (vp : Nat) :
    HomeSide s (searchFill s d x base n en md vp).2 := by
  have hs : HomeSide s (search s d base n en vp).2 := search_home (HomeSide.refl s)
  unfold searchFill
  with_reducible split
  · next heq =>
    rw [heq] at hs
    exact hs
  · next e s1 heq =>
    rw [heq] at hs
    have hd : HomeSide s (descOf s1 d md e).2.2 := descOf_home hs
    with_reducible split
    next heq2 =>
      rw [heq2] at hd
      with_reducible split
      · exact hd
      · exact hd

section
variable {s s1 : State} {c : Core} {base n : Nat} {en : Bool} {md : BitVec 64}
  (hf : (getCore s c.val).fetchX = .searching base n en md)
include hf

/-- A fetch whose search fails keeps the fault, and its context records it (R250, R258). -/
theorem tableSearchDone_faults {code : Code} {cause : Nat} (h : searchFill s (c.val / 32) (getCore s c.val).ctx base n en md
    ((getCore s c.val).regs.pc.toNat / 4096) = (.inr (code, cause), s1)) : ∃ t, exec (.tableSearchDone (.fetch c)) s = .next t ∧
      getCore t c.val = { getCore s c.val with fetchX := .fault code (BitVec.ofNat 3 cause) } ∧ (∀ d, d ≠ c.val → getCore t d = getCore s d) ∧
      bt (getCtx t (getCore s c.val).ctx).xfault0 31 = true ∧ (bt (getCtx s (getCore s c.val).ctx).xfault0 31 = false →
        bf (getCtx t (getCore s c.val).ctx).xfault0 19 12 = code.toNat ∧ (getCtx t (getCore s c.val).ctx).xfault1 = (getCore s c.val).regs.pc) := by
  have hhome : HomeSide s s1 := by
    have hh := searchFill_home s (c.val / 32) (getCore s c.val).ctx base n en md ((getCore s c.val).regs.pc.toNat / 4096)
    rwa [h] at hh
  obtain ⟨hset, hfields⟩ := xfault_fetch s1 (getCore s c.val).ctx code (BitVec.ofNat 3 cause).toNat (getCore s c.val).regs.pc c.val
  rw [hhome.getCtx] at hfields
  refine ⟨_, execTableSearchDone_fetch hf (searchEnd_bad h), ?_⟩
  unfold countIfPage recordX
  rw [hhome.getCore]
  refine ⟨?_, fun d hd => ?_, hset, hfields⟩
  · rw [getCore_modCore_self]
    exact congrArg (fun k : CoreSt => { k with fetchX := .fault code (BitVec.ofNat 3 cause) }) (hhome.getCore c.val)
  · rw [getCore_modCore_ne _ _ hd]
    exact hhome.getCore d

/-- A fetch whose search hits has its entry in the buffer and takes the translation that the entry gives (R250, R251). -/
theorem tableSearchDone_fills {l l' : LbEntry} {x : XSt} {s' : State} (h : searchFill s (c.val / 32) (getCore s c.val).ctx base n en md
      ((getCore s c.val).regs.pc.toNat / 4096) = (.inl l, s1)) (hx : l.ctx = (getCore s c.val).ctx)
    (hc : reCovers l.entry ((getCore s c.val).regs.pc.toNat / 4096) = true)
    (hr : resolve (modCore s1 c.val (filled l)) (getCore s c.val).ctx l (getCore s c.val).regs.pc .fetch true (c.val / 32) = (x, l', s'))
    (hpage : ∀ tg nc w p, x ≠ .page tg nc w p) : ∃ t, exec (.tableSearchDone (.fetch c)) s = .next t ∧ (getCore t c.val).fetchX = x ∧
      (getCore t c.val).rlb = lbTouch (lbFill 256 (getCore s c.val).rlb l) l l' ∧ (getCore t c.val).regs = (getCore s c.val).regs := by
  have hs1 : MemorySide s s1 := searchFill_side_of h rfl
  have hs' : MemorySide (modCore s1 c.val (filled l)) s' := resolve_side_of hr rfl
  have hcore : getCore s' c.val = filled l (getCore s c.val) := by rw [hs'.getCore, getCore_modCore_self, hs1.getCore]
  refine ⟨_, execTableSearchDone_fetch hf (searchEnd_hit h hx hc hr), ?_⟩
  have hget : ∀ u : State, getCore (modCore (countIfPage (recordX u c.val 0 .fetch (getCore s c.val).regs.pc x) c.val x) c.val
      fun k => { k with fetchX := x }) c.val = { getCore u c.val with fetchX := x } := by
    intro u
    rw [getCore_modCore_self]
    cases x with
    | page tg nc w p => exact absurd rfl (hpage tg nc w p)
    | _ => rfl
  rw [hget, getCore_modCore_self, hcore]
  exact ⟨rfl, rfl, rfl⟩

end

theorem pageState_cases (v p : Nat) : pageState v p = 0 ∨ pageState v p = 1 ∨ pageState v p = 2 := by
  have h : v / 2 ^ (2 * (p % 32)) % 4 < 4 := Nat.mod_lt _ (by decide)
  unfold pageState
  generalize v / 2 ^ (2 * (p % 32)) % 4 = b at h
  dsimp only
  split
  · exact Or.inl rfl
  · omega

theorem locTarget_of {o : Nat} (h : o < 2 ^ 41) (nc : Bool) : locTarget o nc = .target (.loc o) nc := if_neg (Nat.not_le.2 h)

/-- The translation of a waiting fetch whose page is LOCAL, or still MOVING. -/
def pageFound (o : Nat) (nc : Bool) (w p st : Nat) : XSt := if st = 2 then .target (.loc o) nc else .page (.loc o) nc w p

theorem pageSeen_rest (s : State) (c : Nat) (va : BitVec 64) (p : Nat) : pageSeen s c va p = { s with cores := (pageSeen s c va p).cores } ∧
    (∀ d, d ≠ c → getCore (pageSeen s c va p) d = getCore s d) ∧ (getCore (pageSeen s c va p) c).regs = (getCore s c).regs := by
  refine ⟨rfl, fun d hd => getCore_modCore_ne _ _ hd, ?_⟩
  rw [pageSeen, getCore_modCore_self]
  split
  · rfl
  · rfl

/-- A waiting fetch whose page is LOCAL, or still MOVING, finds it so (R268). -/
theorem pageAgain_found {s s1 : State} {c o w p v : Nat} {nc : Bool} (va : BitVec 64) (ho : o < 2 ^ 41)
    (hr : sysRead s (c / 32) w 8 = (St.ok, v, s1)) (hv : pageState v p ≠ 0) :
    ∃ u, pageAgain s c (.page (.loc o) nc w p) va .fetch true = (pageFound o nc w p (pageState v p), u) ∧ u = { s1 with cores := u.cores } ∧
      (∀ d, d ≠ c → getCore u d = getCore s1 d) ∧ (getCore u c).regs = (getCore s1 c).regs := by
  have hstate := pageState_cases v p
  unfold pageAgain pageFound
  dsimp only
  rw [show towerOf c = c / 32 from rfl, hr]
  dsimp only
  rw [if_neg (by decide), locTarget_of ho]
  obtain h | h | h := hstate
  · exact absurd h hv
  · rw [h, if_neg (by decide), if_pos rfl, if_neg (by decide)]
    exact ⟨s1, rfl, rfl, fun _ _ => rfl, rfl⟩
  · rw [h, if_pos rfl, if_pos rfl]
    exact ⟨_, rfl, pageSeen_rest s1 c va p⟩

/-- A fetch that waits for a page reads its state again (R268). -/
theorem migratePendingRecheck_fetch {s s1 : State} {c : Core} {o w p v : Nat} {nc : Bool} (hf : (getCore s c.val).fetchX = .page (.loc o) nc w p)
    (ho : o < 2 ^ 41) (hr : sysRead s (c.val / 32) w 8 = (St.ok, v, s1)) (hv : pageState v p ≠ 0) :
    ∃ t, exec (.migratePendingRecheck (.fetch c)) s = .next t ∧ t = { s1 with cores := t.cores } ∧
      (∀ d, d ≠ c.val → getCore t d = getCore s1 d) ∧ (getCore t c.val).regs = (getCore s c.val).regs ∧
      (getCore t c.val).fetchX = pageFound o nc w p (pageState v p) := by
  have hs1 : MemorySide s s1 := sysRead_side_of hr rfl
  obtain ⟨u, hu, hrest, hne, hregs⟩ := pageAgain_found (getCore s c.val).regs.pc ho hr hv (nc := nc)
  have hexec : exec (.migratePendingRecheck (.fetch c)) s = .next (modCore u c.val fun k => { k with fetchX := pageFound o nc w p (pageState v p) }) := by
    have hexec : exec (.migratePendingRecheck (.fetch c)) s = execMigratePendingRecheck (.fetch c) s := rfl
    rw [hexec, execMigratePendingRecheck]
    dsimp only
    rw [hf, hu]
    exact if_pos rfl
  refine ⟨_, hexec, ?_, fun d hd => ?_, ?_, ?_⟩
  · exact congrArg (fun r : State => { r with cores := (modCore u c.val fun k => { k with fetchX := pageFound o nc w p (pageState v p) }).cores }) hrest
  · rw [getCore_modCore_ne _ _ hd]
    exact hne d hd
  · rw [getCore_modCore_self]
    exact hregs.trans (congrArg CoreSt.regs (hs1.getCore c.val))
  · rw [getCore_modCore_self]

/-- Settles O49: the halves of the search narrow to the last entry that starts at or below the page; an invalidation filters every
buffer; the granules of OWNCMD lose their copies tower by tower; and pages end or run again with no core that waits. -/
theorem translationRuns : Obligations.TranslationRuns := by
  unfold Obligations.TranslationRuns
  intro s
  refine ⟨?_, ?_, ?_, ?_, ?_, ?_, fun h => owncmdDone_spec h, ?_, ?_, ?_, ?_⟩
  · intro d base n e vp j hold hrise hj hle hlast
    exact search_ends hold hrise hj hle hlast
  · intro c i a ha hx hf hb hl
    exact ⟨_, execTableSearch_seq ha hx hf hb hl, onlyCore_setCore _ _ _, tget_tset_self ..⟩
  · intro c base n en md hf
    exact ⟨fun code cause s1 h => tableSearchDone_faults hf h, fun l x l' s1 s' h hx hc hr hp => tableSearchDone_fills hf h hx hc hr hp⟩
  · intro x view v hview hdone k w p hp
    have hd : isDriver s view = true := (isDriver_iff s view).2 hview
    obtain ⟨h31, hkeep, hinv⟩ := xctlWrite_spec s x.val p.2
    have hexec : exec p.1 s = .next (xctlWrite s x.val p.2) := by
      simp only [List.mem_cons, List.not_mem_nil, or_false] at hp
      obtain rfl | rfl := hp
      · exact execXctlEn_of hd hdone x v
      · exact execXctlInv_of hd hdone x
    refine ⟨_, hexec, h31, hkeep, fun h => ?_⟩
    obtain ⟨hb, h2, hdrop⟩ := hinv h
    exact ⟨hb, h2, fun h29 _ => hdrop h29⟩
  · intro x hbusy
    rw [execInvalidationDone_eq, hbusy]
    refine ⟨fun ho => ?_, fun ho h2 => ?_, fun ho h2 => ?_⟩
    · rw [ho]
      rfl
    · rw [ho, h2]
      exact ⟨_, rfl, setsCtx_setCtx ..⟩
    · rw [ho, h2]
      obtain ⟨_, hx, hi⟩ := invStart_spec (setCtx s x.val { getCtx s x.val with inv2 := false }) x.val
      refine ⟨_, rfl, ?_, ?_⟩
      · rw [hx]
        exact bt_sb _ _ _ (by omega)
      · rw [hi]
        exact congrArg Ctx.inv2 (tget_tset_self ..)
  · intro view v hview
    have hd : isDriver s view = true := (isDriver_iff s view).2 hview
    rw [execOwncmd_of hd]
    refine ⟨fun h => by rw [owncmdWrite_busy v h], fun h hv hb => by rw [owncmdWrite_bad h hv hb], fun h hv => ⟨_, rfl, owncmdWrite_taken h hv⟩⟩
  · intro off size bs c d s1 hopen hposted
    obtain ⟨hr1, hr2⟩ := bar2Read_spec hopen hposted off size c d s1
    obtain ⟨hw1, hw2⟩ := bar2Write_spec hopen hposted off size bs c d s1
    exact ⟨hr1, hr2, hw1, hw2⟩
  · intro off size bs hopen hposted
    exact ⟨_, execBar2Access_behind hopen hposted off size bs, rfl⟩
  · intro i m hi hact hlate
    exact ⟨fun code hno => migrationFail_spec hi hact hlate hno code, fun r d s1 hno hr => migrationComplete_spec hi hact hlate hno hr⟩
  · intro c o nc w p v s1 hf ho hr hv
    exact migratePendingRecheck_fetch hf ho hr hv

end Sys2Proof.Machine
end

section
/-!
PROOF. The HBM4 channels (R280 to R291): errors, row remaps, retirement with its spill, and recalibration.
-/

namespace Sys2Proof.Machine

/-! ## What a report leaves alone -/

section
variable {s t : State} (h : ReportSide s t)
include h

theorem ReportSide.hbm : t.hbm = s.hbm := by rw [h]
theorem ReportSide.memcfg : t.memcfg = s.memcfg := by rw [h]
theorem ReportSide.getHbm (c : Nat) : getHbm t c = getHbm s c := by rw [Machine.getHbm, h.hbm]; rfl

end

/-! ## A channel's record -/

theorem setsHbm_setHbm (s : State) (c : Nat) (k : HbmChan) : SetsHbm s (setHbm s c k) c k :=
  ⟨rfl, tget_tset_self .., fun _ hd => tget_tset_ne _ hd _⟩

section
variable {s : State} {ch : HCh}

theorem chanRuns_of (h : bf (getHbm s ch.val).stat 31 30 ≠ 1) : chanRuns s ch.val = true := decide_eq_true h

/-- A corrected error counts, up to the largest count of its field (Table 9.8). -/
theorem errorCounted (k : HbmChan) :
    sf k.stat 15 0 (satInc (BitVec.ofNat 16 (bf k.stat 15 0))).toNat = sf k.stat 15 0 (min (bf k.stat 15 0 + 1) 0xFFFF) := by
  rw [satInc_toNat _ (bf_lt k.stat 15 0)]

theorem histAdd_snd (l : List (Nat × Nat)) (r now span : Nat) : (histAdd l r now span).2 = countWithin l r now span := by
  rw [histAdd, countWithin]
  simp [List.filter_append, List.filter_filter, Bool.and_comm]

theorem rowNeeds_rest (k : HbmChan) (row : Nat) : (rowNeeds k row).stat = k.stat := by
  unfold rowNeeds
  split
  · rfl
  · split
    · rfl
    · rfl

theorem rowNeeds_due {h k : HbmChan} (hr : k.remaps = h.remaps) (hn : k.needRemap = h.needRemap) (row : Nat) : RowDue h (rowNeeds k row) row := by
  unfold rowNeeds
  rw [hr, hn]
  split
  · next hc =>
    have hmem : row ∈ h.needRemap := List.contains_iff_mem.1 hc
    exact ⟨fun _ => hn ▸ hmem, fun _ hno => absurd hmem hno⟩
  · split
    · next hfull => exact ⟨fun hlt => absurd hlt (by omega), fun _ _ => rfl⟩
    · next hfree => exact ⟨fun _ => by simp, fun hge => absurd hge hfree⟩

theorem RowDue.retire {h k : HbmChan} {row : Nat} (hd : RowDue h k row) : RowDue h { k with retireDue := true } row := ⟨hd.waits, fun _ _ => rfl⟩

/-! ## Errors (Table 9.8) -/

/-- A channel with one more corrected error counted. -/
def correctable (h : HbmChan) : HbmChan := { h with stat := sf h.stat 15 0 (min (bf h.stat 15 0 + 1) 0xFFFF) }

/-- A channel with the history of its rows' corrected errors. -/
def withRowErrs (h : HbmChan) (l : List (Nat × Nat)) : HbmChan := { h with rowErrs := l }

/-- A channel after a corrected error of row `r` on an activation of its own. -/
def rowError (h : HbmChan) (r now : Nat) : HbmChan :=
  if 3 ≤ (histAdd h.rowErrs r now 10000000000).2 then rowNeeds (withRowErrs (correctable h) (histAdd h.rowErrs r now 10000000000).1) r
  else withRowErrs (correctable h) (histAdd h.rowErrs r now 10000000000).1

theorem execHbmCorrectableRead_eq (hrun : bf (getHbm s ch.val).stat 31 30 ≠ 1) (y : Nat) (newAct : Bool) :
    exec (.hbmCorrectableRead ch ⟨y, newAct⟩) s = if !newAct ∧ ((getHbm s ch.val).rowErrs.any fun p => decide (p.1 = rowOf y)) = true then
      .next (setHbm s ch.val (correctable (getHbm s ch.val))) else .next (setHbm s ch.val (rowError (getHbm s ch.val) (rowOf y) s.now)) := by
  have hexec : exec (.hbmCorrectableRead ch ⟨y, newAct⟩) s = execHbmCorrectableRead ch ⟨y, newAct⟩ s := rfl
  rw [hexec, execHbmCorrectableRead, chanRuns_of hrun, if_neg (by decide)]
  dsimp only
  rw [errorCounted]
  rfl

theorem execHbmCorrectableRead_again (hrun : bf (getHbm s ch.val).stat 31 30 ≠ 1) {y : Nat} (h : ∃ e ∈ (getHbm s ch.val).rowErrs, e.1 = rowOf y) :
    exec (.hbmCorrectableRead ch ⟨y, false⟩) s = .next (setHbm s ch.val (correctable (getHbm s ch.val))) := by
  rw [execHbmCorrectableRead_eq hrun]
  obtain ⟨e, he, hrow⟩ := h
  exact if_pos ⟨rfl, List.any_eq_true.2 ⟨e, he, decide_eq_true hrow⟩⟩

theorem execHbmCorrectableRead_new (hrun : bf (getHbm s ch.val).stat 31 30 ≠ 1) {y : Nat} {newAct : Bool}
    (h : newAct = true ∨ ∀ e ∈ (getHbm s ch.val).rowErrs, e.1 ≠ rowOf y) :
    exec (.hbmCorrectableRead ch ⟨y, newAct⟩) s = .next (setHbm s ch.val (rowError (getHbm s ch.val) (rowOf y) s.now)) := by
  rw [execHbmCorrectableRead_eq hrun]
  refine if_neg fun hc => ?_
  obtain ⟨hold, hany⟩ := hc
  obtain ⟨e, he, hrow⟩ := List.any_eq_true.1 hany
  obtain h | h := h
  · rw [h] at hold
    exact absurd hold (by decide)
  · exact h e he (of_decide_eq_true hrow)

/-- A row's third activation with a corrected error within 10 s has it remapped. -/
theorem rowError_spec (h : HbmChan) (r now : Nat) : (rowError h r now).stat = sf h.stat 15 0 (min (bf h.stat 15 0 + 1) 0xFFFF) ∧
    (countWithin h.rowErrs r now 10000000000 < 3 → (rowError h r now).needRemap = h.needRemap ∧ (rowError h r now).retireDue = h.retireDue) ∧
    (3 ≤ countWithin h.rowErrs r now 10000000000 → RowDue h (rowError h r now) r) := by
  unfold rowError
  rw [histAdd_snd]
  split
  · next h3 => exact ⟨rowNeeds_rest .., fun hlt => absurd hlt (by omega), fun _ => rowNeeds_due (h := h) (k := withRowErrs (correctable h) (histAdd h.rowErrs r now 10000000000).1) rfl rfl r⟩
  · next h3 => exact ⟨rfl, fun _ => ⟨rfl, rfl⟩, fun hge => absurd hge h3⟩

/-- The history of the rows of a channel that no read recovered, with one more. -/
def uncHist (h : HbmChan) (r now : Nat) : List (Nat × Nat) := (h.uncErrs.filter fun e => decide (now < e.2 + 1000000000)) ++ [(r, now)]

/-- A channel with the history of its rows' uncorrected errors. -/
def withUncErrs (h : HbmChan) (l : List (Nat × Nat)) : HbmChan := { h with uncErrs := l }

/-- A channel that a threshold of Table 9.8 retires. -/
def retires (h : HbmChan) : HbmChan := { h with retireDue := true }

/-- A channel after a line of row `r` that no read recovered. -/
def lineLost (h : HbmChan) (r now : Nat) : HbmChan :=
  if 32 ≤ ((uncHist h r now).map Prod.fst).dedup.length then retires (rowNeeds (withUncErrs h (uncHist h r now)) r)
  else rowNeeds (withUncErrs h (uncHist h r now)) r

/-- The package with other markers of lost lines. -/
def withLost (s : State) (l : Tab (Option Lost)) : State := { s with lost := l }

theorem loseRowLine_lost (s : State) (c y : Nat) : loseRowLine s c y = withLost s (loseRowLine s c y).lost := by
  unfold loseRowLine
  split
  · rfl
  · rfl

theorem loseRowLine_hbm (s : State) (c y : Nat) : (loseRowLine s c y).hbm = s.hbm := by rw [loseRowLine_lost]; rfl

theorem loseRowLine_marks {s : State} {c y x : Nat} (h : lineAt s c y = some x) : tget none (loseRowLine s c y).lost (x / 64) = some .row := by
  unfold loseRowLine
  rw [h]
  exact tget_tset_self ..

theorem execHbmUncorrectableRead_of (hrun : bf (getHbm s ch.val).stat 31 30 ≠ 1) (y : Nat) :
    exec (.hbmUncorrectableRead ch y true) s =
      .next (setHbm (loseRowLine s ch.val y) ch.val (lineLost (getHbm s ch.val) (rowOf y) s.now)) := by
  have hexec : exec (.hbmUncorrectableRead ch y true) s = execHbmUncorrectableRead ch y true s := rfl
  have hget : getHbm (loseRowLine s ch.val y) ch.val = getHbm s ch.val := by rw [getHbm, loseRowLine_hbm]; rfl
  rw [hexec, execHbmUncorrectableRead, chanRuns_of hrun, if_neg (by decide)]
  dsimp only
  rw [hget]
  rfl

theorem execHbmUncorrectableRead_recovered (y : Nat) : exec (.hbmUncorrectableRead ch y false) s = .next s := by
  have hexec : exec (.hbmUncorrectableRead ch y false) s = execHbmUncorrectableRead ch y false s := rfl
  rw [hexec, execHbmUncorrectableRead, Bool.and_false]
  rfl

theorem lineLost_spec (h : HbmChan) (r now : Nat) : RowDue h (lineLost h r now) r ∧
    (32 ≤ ((uncHist h r now).map Prod.fst).dedup.length → (lineLost h r now).retireDue = true) := by
  have hdue : RowDue h (rowNeeds (withUncErrs h (uncHist h r now)) r) r := rowNeeds_due (h := h) (k := withUncErrs h (uncHist h r now)) rfl rfl r
  unfold lineLost
  split
  · exact ⟨hdue.retire, fun _ => rfl⟩
  · next h32 => exact ⟨hdue, fun hge => absurd hge h32⟩

theorem uncorrectable_spec (hrun : bf (getHbm s ch.val).stat 31 30 ≠ 1) (y : Nat) :
    ∃ t, exec (.hbmUncorrectableRead ch y true) s = .next t ∧ t = { s with hbm := t.hbm, lost := t.lost } ∧
      (∀ x, lineAt s ch.val y = some x → tget none t.lost (x / 64) = some .row) ∧ RowDue (getHbm s ch.val) (getHbm t ch.val) (rowOf y) ∧
      (32 ≤ ((uncHist (getHbm s ch.val) (rowOf y) s.now).map Prod.fst).dedup.length → (getHbm t ch.val).retireDue = true) := by
  obtain ⟨hdue, hretire⟩ := lineLost_spec (getHbm s ch.val) (rowOf y) s.now
  refine ⟨_, execHbmUncorrectableRead_of hrun y, ?_, fun x hx => loseRowLine_marks hx, ?_⟩
  · rw [loseRowLine_lost]
    rfl
  · rw [getHbm_setHbm_self]
    exact ⟨hdue, hretire⟩

/-! ## Link errors and retraining (Table 9.8) -/

theorem execHbmLinkError_of (hrun : bf (getHbm s ch.val).stat 31 30 ≠ 1) (hr : (getHbm s ch.val).retraining = false) (failed : Bool) :
    exec (.hbmLinkError ch failed) s = .next (setHbm s ch.val (
      let l := ((getHbm s ch.val).linkErrs.filter fun e => decide (s.now < e + 1000000000)) ++ [s.now]
      if failed = true ∨ 1024 ≤ l.length then { getHbm s ch.val with linkErrs := l, retraining := true, attempts := 0 }
      else { getHbm s ch.val with linkErrs := l })) := by
  have hexec : exec (.hbmLinkError ch failed) s = execHbmLinkError ch failed s := rfl
  have hgo : ¬ ((!chanRuns s ch.val) = true ∨ (getHbm s ch.val).retraining = true) := by
    rw [chanRuns_of hrun, hr]
    decide
  rw [hexec, execHbmLinkError]
  exact if_neg hgo

theorem execHbmRetrainDone_passes (hr : (getHbm s ch.val).retraining = true) :
    exec (.hbmRetrainDone ch true) s = .next (setHbm s ch.val { getHbm s ch.val with retraining := false, attempts := 0 }) := by
  have hexec : exec (.hbmRetrainDone ch true) s = execHbmRetrainDone ch true s := rfl
  rw [hexec, execHbmRetrainDone, hr]
  rfl

theorem execHbmRetrainDone_fails (hr : (getHbm s ch.val).retraining = true) : exec (.hbmRetrainDone ch false) s = .next (setHbm s ch.val
    (if (getHbm s ch.val).attempts < 2 then { getHbm s ch.val with attempts := (getHbm s ch.val).attempts + 1 }
     else { getHbm s ch.val with retraining := false, attempts := 0, retireDue := true })) := by
  have hexec : exec (.hbmRetrainDone ch false) s = execHbmRetrainDone ch false s := rfl
  have hgo : ¬ (!(getHbm s ch.val).retraining) = true := by
    rw [hr]
    decide
  rw [hexec, execHbmRetrainDone, if_neg hgo, if_neg (by decide)]
  split
  · rfl
  · rfl

/-! ## ROW_REMAP (R281) -/

theorem lineAt_congr {s t : State} (hh : t.hbm = s.hbm) (hm : t.memcfg = s.memcfg) (c y : Nat) : lineAt t c y = lineAt s c y := by
  unfold lineAt chState spanOf getHbm
  rw [hh, hm]

theorem forEach_loseRowLine {α : Type} (c : Nat) (f : α → Nat) : ∀ (l : List α) (s : State), ∃ m, (forEach s l fun s i => loseRowLine s c (f i)) = withLost s m ∧
    (∀ ln, tget none s.lost ln = some .row → tget none m ln = some .row) ∧ ∀ i ∈ l, ∀ x, lineAt s c (f i) = some x → tget none m (x / 64) = some .row
  | [], s => ⟨s.lost, rfl, fun _ h => h, fun _ hi => absurd hi (List.not_mem_nil)⟩
  | i :: l, s => by
    obtain ⟨m, hm, hkeep, hall⟩ := forEach_loseRowLine c f l (loseRowLine s c (f i))
    have hstep := loseRowLine_lost s c (f i)
    have hline : ∀ y, lineAt (loseRowLine s c (f i)) c y = lineAt s c y := fun y => by
      rw [hstep]
      exact lineAt_congr rfl rfl c y
    refine ⟨m, ?_, fun ln h => hkeep ln ?_, fun j hj x hx => ?_⟩
    · rw [forEach, hm, hstep]
      rfl
    · unfold loseRowLine
      split
      · exact h
      · next x hx =>
        by_cases hln : ln = x / 64
        · rw [hln]
          exact tget_tset_self ..
        · exact (tget_tset_ne _ hln _).trans h
    · obtain rfl | hj := List.mem_cons.1 hj
      · exact hkeep _ (loseRowLine_marks hx)
      · exact hall j hj x ((hline _).trans hx)

/-- A channel whose row is on a spare. -/
def remapped (h : HbmChan) (r : Remap) (key : Nat) : HbmChan :=
  { h with
    remaps := h.remaps ++ [r], stat := sf h.stat 23 16 (h.remaps ++ [r]).length, needRemap := h.needRemap.filter (· ≠ key),
    rowErrs := h.rowErrs.filter fun e => e.1 ≠ key }

/-- The lowest spare row that no remap uses. -/
theorem spare_find {h : HbmChan} {n : Nat} (hn : n < 64) (hfree : ∀ r ∈ h.remaps, r.spare ≠ n) (hleast : ∀ m < n, ∃ r ∈ h.remaps, r.spare = m) :
    ((List.range 64).find? fun n => h.remaps.all fun r => decide (r.spare ≠ n)) = some n := by
  rw [List.find?_range_eq_some]
  refine ⟨List.all_eq_true.2 fun r hr => decide_eq_true (hfree r hr), List.mem_range.2 hn, fun m hm => ?_⟩
  obtain ⟨r, hr, hs⟩ := hleast m hm
  rw [Bool.not_eq_true', List.all_eq_false]
  exact ⟨r, hr, by simp [hs]⟩

/-- The state of a row's remap before its record and its report. -/
def rowMoved (s : State) (ch : HCh) (pc : Fin 2) (bank : Fin 32) (row : Fin 18432) (bad : List (Fin 16)) (n : Nat) : State :=
  forEach (setHbm s ch.val (remapped (getHbm s ch.val) ⟨pc.val, bank.val, row.val, n⟩ (rowKey pc.val bank.val row.val))) bad
    fun s i => loseRowLine s ch.val (rowLine pc.val bank.val row.val i.val)

theorem rowMoved_rep (s : State) (ch : HCh) (pc : Fin 2) (bank : Fin 32) (row : Fin 18432) (bad : List (Fin 16)) (n : Nat)
    (hrun : bf (getHbm s ch.val).stat 31 30 ≠ 1) (hneed : rowKey pc.val bank.val row.val ∈ (getHbm s ch.val).needRemap)
    (hfind : ((List.range 64).find? fun n => (getHbm s ch.val).remaps.all fun r => decide (r.spare ≠ n)) = some n) :
    ∃ t, exec (.rowRemap ch pc bank row bad) s = .next t ∧ ReportSide (rowMoved s ch pc bank row bad n) t := by
  have hexec : exec (.rowRemap ch pc bank row bad) s = execRowRemap ch pc bank row bad s := rfl
  have hcont : (getHbm s ch.val).needRemap.contains (rowKey pc.val bank.val row.val) = true := List.contains_iff_mem.2 hneed
  rw [hexec, execRowRemap]
  dsimp only
  rw [chanRuns_of hrun, hcont, if_neg (by decide), hfind]
  exact ⟨_, rfl, report_rep (recUnits_rep (ReportSide.refl _))⟩

theorem rowRemap_spec (pc : Fin 2) (bank : Fin 32) (row : Fin 18432) (bad : List (Fin 16)) (n : Nat)
    (hrun : bf (getHbm s ch.val).stat 31 30 ≠ 1) (hneed : rowKey pc.val bank.val row.val ∈ (getHbm s ch.val).needRemap) (hn : n < 64)
    (hfree : ∀ r ∈ (getHbm s ch.val).remaps, r.spare ≠ n) (hleast : ∀ m < n, ∃ r ∈ (getHbm s ch.val).remaps, r.spare = m) :
    ∃ t s1, exec (.rowRemap ch pc bank row bad) s = .next t ∧ ReportSide s1 t ∧ s1 = { s with hbm := s1.hbm, lost := s1.lost } ∧
      (getHbm t ch.val).remaps = (getHbm s ch.val).remaps ++ [⟨pc.val, bank.val, row.val, n⟩] ∧
      bf (getHbm t ch.val).stat 23 16 = ((getHbm s ch.val).remaps.length + 1) % 256 ∧
      rowKey pc.val bank.val row.val ∉ (getHbm t ch.val).needRemap ∧
      ∀ i ∈ bad, ∀ x, lineAt s1 ch.val (rowLine pc.val bank.val row.val i.val) = some x → tget none s1.lost (x / 64) = some .row := by
  obtain ⟨t, ht, hrep⟩ := rowMoved_rep s ch pc bank row bad n hrun hneed (spare_find hn hfree hleast)
  obtain ⟨m, hm, _, hall⟩ := forEach_loseRowLine ch.val (fun i : Fin 16 => rowLine pc.val bank.val row.val i.val) bad
    (setHbm s ch.val (remapped (getHbm s ch.val) ⟨pc.val, bank.val, row.val, n⟩ (rowKey pc.val bank.val row.val)))
  have hmoved : rowMoved s ch pc bank row bad n = _ := hm
  have hget : getHbm t ch.val = remapped (getHbm s ch.val) ⟨pc.val, bank.val, row.val, n⟩ (rowKey pc.val bank.val row.val) := by
    rw [hrep.getHbm, hmoved]
    exact getHbm_setHbm_self ..
  refine ⟨t, _, ht, hrep, ?_, ?_, ?_, ?_, fun i hi x hx => ?_⟩
  · rw [hmoved]
    rfl
  · rw [hget]
    rfl
  · rw [hget, remapped, bf_sf_same _ _ _ _ (by decide), List.length_append]
    rfl
  · rw [hget, remapped]
    simp
  · rw [hmoved] at hx ⊢
    exact hall i hi x ((lineAt_congr rfl rfl _ _).symm.trans hx)

/-! ## CHANNEL_RETIRE (R285, R286, R289) -/

/-- A channel that no longer runs, waits or recalibrates. -/
def stopped (h : HbmChan) : HbmChan :=
  { h with
    stat := sb h.stat 26 false, retireDue := false, needRemap := [], retraining := false, attempts := 0, recal := 0, recalTry := 0,
    recalWait := false, offline := false }

/-- A returned channel that is RETIRED for good. -/
def final (h : HbmChan) : HbmChan := { h with stat := sb (sf h.stat 31 30 1) 25 true, winKept := true }

/-- The package before its channel stops: the span spilled, or the returned channel FINAL. -/
def chanLeaves (s : State) (c : Nat) : State := if chState s c = 0 then spillChannel s c true else setHbm s c (final (getHbm s c))

/-- The package whose channel has stopped. -/
def chanStopped (s : State) (c : Nat) : State := setHbm s c (stopped (getHbm s c))

theorem memcfgCount_rep {s u : State} (h : ReportSide s u) : ReportSide (memcfgCount s) (memcfgCount u) := by
  have hcfg : (memcfgCount u).memcfg = (memcfgCount s).memcfg := by
    unfold memcfgCount chState
    simp only [h.getHbm, h.memcfg]
  unfold ReportSide at *
  generalize hm : (memcfgCount u).memcfg = v at hcfg
  have hu : memcfgCount u = { u with memcfg := v } := by rw [← hm]; rfl
  have hs : memcfgCount s = { s with memcfg := v } := by rw [hcfg]; rfl
  rw [hu, hs]
  exact congrArg (fun r : State => { r with memcfg := v }) h

theorem execChannelRetire_rep (hdue : (getHbm s ch.val).retireDue = true) (hrun : bf (getHbm s ch.val).stat 31 30 ≠ 1) :
    ∃ t, exec (.channelRetire ch) s = .next t ∧ ReportSide (memcfgCount (chanStopped (chanLeaves s ch.val) ch.val)) t := by
  have hexec : exec (.channelRetire ch) s = execChannelRetire ch s := rfl
  rw [hexec, execChannelRetire, hdue, if_pos rfl]
  refine ⟨_, rfl, ?_⟩
  unfold retireChannel
  rw [if_neg (show ¬ chState s ch.val = 1 from hrun)]
  exact report_rep (memcfgCount_rep (recRetire_rep (ReportSide.refl _)))

/-- The channel of the interleave that `plan` spills. -/
def spilled (h : HbmChan) (plan : List Nat × Option Nat) : HbmChan :=
  match plan.2 with
  | some j => { h with stat := sf (sb (sf h.stat 31 30 1) 29 true) 28 27 j, targets := plan.1, runLost := true }
  | none => { h with stat := sf h.stat 31 30 1, noStore := true, runLost := true }

theorem spillChannel_chan (s : State) (c : Nat) : getHbm (spillChannel s c true) c = spilled (getHbm s c) (spillPlan s c) := getHbm_setHbm_self ..

/-- Of the package only the channels and the markers of lost lines are those of `u`. -/
def withChannels (s u : State) : State := { s with hbm := u.hbm, lost := u.lost, restored := u.restored }

theorem spillChannel_rest (s : State) (c : Nat) : spillChannel s c true = withChannels s (spillChannel s c true) ∧
    ∀ d, d ≠ c → getHbm (spillChannel s c true) d = getHbm s d := ⟨rfl, fun _ hd => getHbm_setHbm_ne _ _ hd⟩

theorem chanLeaves_rest (s : State) (c : Nat) : chanLeaves s c = withChannels s (chanLeaves s c) ∧
    ∀ d, d ≠ c → getHbm (chanLeaves s c) d = getHbm s d := by
  unfold chanLeaves
  split
  · exact spillChannel_rest s c
  · exact ⟨rfl, fun _ hd => getHbm_setHbm_ne _ _ hd⟩

theorem spilled_stat (h : HbmChan) (plan : List Nat × Option Nat) : bf (spilled h plan).stat 31 30 = 1 ∧
    (plan.2 = none → (spilled h plan).noStore = true) ∧ ∀ n < 4, plan.2 = some n → bt (spilled h plan).stat 29 = true ∧
      bf (spilled h plan).stat 28 27 = n ∧ (spilled h plan).targets = plan.1 := by
  unfold spilled
  split
  · next j hj =>
    refine ⟨?_, fun hc => absurd (hj.symm.trans hc) (by simp), fun n hn hp => ?_⟩
    · rw [bf_sf_out _ _ _ _ _ _ (by omega), bf_sb_out _ _ _ _ _ (by omega), bf_sf_same _ _ _ _ (by decide)]
      rfl
    · obtain rfl : j = n := Option.some.inj (hj.symm.trans hp)
      refine ⟨?_, ?_, rfl⟩
      · rw [bt_sf_out _ _ _ _ _ (by omega), bt_sb _ _ _ (by omega)]
      · rw [bf_sf_same _ _ _ _ (by decide)]
        omega
  · next hj => exact ⟨bf_sf_same _ _ _ _ (by decide), fun _ => rfl, fun n _ hp => absurd (hj.symm.trans hp) (by simp)⟩

/-- The channels and MEMCFG of `u` in the package `r`. -/
def withCounts (u r : State) : State := { r with hbm := u.hbm, memcfg := u.memcfg }

theorem chanStopped_rest {s u : State} {c : Nat} (h : u = withChannels s u) :
    memcfgCount (chanStopped u c) = withCounts (memcfgCount (chanStopped u c)) (withChannels s u) :=
  (show memcfgCount (chanStopped u c) = withCounts (memcfgCount (chanStopped u c)) u from rfl).trans (congrArg (withCounts _) h)

theorem chanLeaves_stat (s : State) (c : Nat) : bf (getHbm (chanLeaves s c) c).stat 31 30 = 1 ∧
    (bf (getHbm s c).stat 31 30 = 2 → bt (getHbm (chanLeaves s c) c).stat 25 = true) ∧
    (bf (getHbm s c).stat 31 30 = 0 → getHbm (chanLeaves s c) c = spilled (getHbm s c) (spillPlan s c)) := by
  unfold chanLeaves
  split
  · next h0 =>
    have h0' : bf (getHbm s c).stat 31 30 = 0 := h0
    rw [spillChannel_chan, h0']
    exact ⟨(spilled_stat _ _).1, fun hc => absurd hc (by decide), fun _ => rfl⟩
  · next h0 =>
    rw [getHbm_setHbm_self]
    refine ⟨?_, fun _ => bt_sb _ _ _ (by omega), fun hc => absurd hc h0⟩
    exact (bf_sb_out _ _ _ _ _ (by omega)).trans (bf_sf_same _ _ _ _ (by decide))

theorem stopped_stat (h : HbmChan) : bf (stopped h).stat 31 30 = bf h.stat 31 30 ∧ bt (stopped h).stat 25 = bt h.stat 25 ∧
    bt (stopped h).stat 29 = bt h.stat 29 ∧ bf (stopped h).stat 28 27 = bf h.stat 28 27 :=
  ⟨bf_sb_out _ _ _ _ _ (by omega), bt_sb_ne _ _ _ _ (by omega), bt_sb_ne _ _ _ _ (by omega), bf_sb_out _ _ _ _ _ (by omega)⟩

theorem channelRetire_spec (hdue : (getHbm s ch.val).retireDue = true) (hrun : bf (getHbm s ch.val).stat 31 30 ≠ 1) :
    ∃ t s1, exec (.channelRetire ch) s = .next t ∧ ReportSide s1 t ∧
      s1 = { s with hbm := s1.hbm, lost := s1.lost, restored := s1.restored, memcfg := s1.memcfg } ∧
      bf (getHbm t ch.val).stat 31 30 = 1 ∧ (getHbm t ch.val).retireDue = false ∧
      (∀ d, d ≠ ch.val → getHbm t d = getHbm s d) ∧
      (bf (getHbm s ch.val).stat 31 30 = 2 → bt (getHbm t ch.val).stat 25 = true) ∧
      (bf (getHbm s ch.val).stat 31 30 = 0 → ∀ ts j, spillPlan s ch.val = (ts, j) →
        (j = none → (getHbm t ch.val).noStore = true) ∧
        (∀ n < 4, j = some n → bt (getHbm t ch.val).stat 29 = true ∧ bf (getHbm t ch.val).stat 28 27 = n ∧ (getHbm t ch.val).targets = ts)) := by
  obtain ⟨t, ht, hrep⟩ := execChannelRetire_rep hdue hrun
  have hleaves := chanLeaves_rest s ch.val
  obtain ⟨hstat, hfinal, hspill⟩ := chanLeaves_stat s ch.val
  obtain ⟨hst, h25, h29, h28⟩ := stopped_stat (getHbm (chanLeaves s ch.val) ch.val)
  have hget : getHbm t ch.val = stopped (getHbm (chanLeaves s ch.val) ch.val) := (hrep.getHbm _).trans (getHbm_setHbm_self ..)
  refine ⟨t, _, ht, hrep, chanStopped_rest hleaves.1, ?_⟩
  rw [hget, hst, h25, h29, h28]
  refine ⟨hstat, rfl, fun d hd => ?_, hfinal, fun h0 ts j hplan => ?_⟩
  · exact ((hrep.getHbm d).trans (getHbm_setHbm_ne _ _ hd)).trans (hleaves.2 d hd)
  · obtain ⟨_, hnone, hsome⟩ := spilled_stat (getHbm s ch.val) (spillPlan s ch.val)
    rw [← hspill h0, hplan] at hnone hsome
    exact ⟨hnone, hsome⟩

/-! ## Recalibration (R291) -/

theorem recalStart_spec {why : RecalWhy} (hrun : bf (getHbm s ch.val).stat 31 30 ≠ 1) (h0 : (getHbm s ch.val).recal = 0)
    (hdue : recalDue s ch.val why = true) (hoff : (getHbm s ch.val).offline = false) : exec (.recalStart ch why) s = .next (setHbm s ch.val
      (if recalOf s (ch.val / 32) < 4 ∧ recalAll s < 64 then
        { getHbm s ch.val with recal := 128, recalTry := 0, recalWait := false, stat := sb (getHbm s ch.val).stat 26 true }
       else { getHbm s ch.val with recalWait := true })) := by
  have hexec : exec (.recalStart ch why) s = execRecalStart ch why s := rfl
  have hgo : ¬ (!(chanRuns s ch.val && decide ((getHbm s ch.val).recal = 0) && (recalDue s ch.val why || (getHbm s ch.val).recalWait) &&
      (!(getHbm s ch.val).offline || s.key.stopped))) = true := by
    rw [chanRuns_of hrun, decide_eq_true h0, hdue, hoff]
    simp
  have hfull : (if (getHbm s ch.val).offline = true then 1 else 128) = 128 := if_neg (by rw [hoff]; decide)
  rw [hexec, execRecalStart]
  dsimp only
  rw [if_neg hgo, hfull]
  split
  · next h => rw [if_neg (by omega)]
  · next h => rw [if_pos (by omega)]

/-- A channel after a step of its recalibration that passes. -/
def recalPassed (s : State) (c : Nat) (h : HbmChan) : HbmChan :=
  if 1 < h.recal then { h with recal := h.recal - 1, recalTry := 0 }
  else
    { h with
      recal := 0, recalTry := 0, offline := false, lastRecal := s.now, lastTemp := stackTemp s (c / 32), stat := sb h.stat 26 false }

theorem execRecalStep_passes (h : (getHbm s ch.val).recal ≠ 0) (hr : (getHbm s ch.val).retraining = false) :
    exec (.recalStep ch true) s = .next (setHbm s ch.val (recalPassed s ch.val (getHbm s ch.val))) := by
  have hexec : exec (.recalStep ch true) s = execRecalStep ch true s := rfl
  have hgo : ¬ ((getHbm s ch.val).recal = 0 ∨ (getHbm s ch.val).retraining = true) := by simp [h, hr]
  rw [hexec, execRecalStep, if_neg hgo, if_neg (by decide), recalPassed]
  split
  · rfl
  · rfl

theorem execRecalStep_fails (h : (getHbm s ch.val).recal ≠ 0) (hr : (getHbm s ch.val).retraining = false) :
    exec (.recalStep ch false) s = .next (setHbm s ch.val
      (if (getHbm s ch.val).recalTry < 2 then { getHbm s ch.val with recalTry := (getHbm s ch.val).recalTry + 1 }
       else { getHbm s ch.val with recal := 0, recalTry := 0, offline := false, retireDue := true, stat := sb (getHbm s ch.val).stat 26 false })) := by
  have hexec : exec (.recalStep ch false) s = execRecalStep ch false s := rfl
  have hgo : ¬ ((getHbm s ch.val).recal = 0 ∨ (getHbm s ch.val).retraining = true) := by simp [h, hr]
  rw [hexec, execRecalStep, if_neg hgo, if_pos (by decide)]

end

/-- Settles O50: each event of a channel sets that channel alone, by the record that Table 9.8 gives; the remap and the retirement
report on top of it, and reports leave the channels alone. -/
theorem hbmChannelsRun : Obligations.HbmChannelsRun := by
  unfold Obligations.HbmChannelsRun
  intro s ch h
  refine ⟨fun hrun y newAct => ⟨fun hold he => ?_, fun hnew => ?_, execHbmUncorrectableRead_recovered y, uncorrectable_spec hrun y⟩,
    fun hrun hr failed => ⟨_, execHbmLinkError_of hrun hr failed, setsHbm_setHbm ..⟩,
    fun hr => ⟨⟨_, execHbmRetrainDone_passes hr, setsHbm_setHbm ..⟩, _, execHbmRetrainDone_fails hr, setsHbm_setHbm ..⟩,
    fun pc bank row bad n hrun hneed hn hfree hleast => rowRemap_spec pc bank row bad n hrun hneed hn hfree hleast,
    ⟨fun hdue => ?_, fun hdue hrun => channelRetire_spec hdue hrun⟩,
    fun why hrun h0 hdue hoff => ⟨_, recalStart_spec hrun h0 hdue hoff, setsHbm_setHbm ..⟩,
    fun h0 hr => ⟨⟨_, execRecalStep_passes h0 hr, setsHbm_setHbm ..⟩, _, execRecalStep_fails h0 hr, setsHbm_setHbm ..⟩⟩
  · rw [hold]
    exact ⟨_, execHbmCorrectableRead_again hrun he, setsHbm_setHbm ..⟩
  · exact ⟨_, _, execHbmCorrectableRead_new hrun hnew, setsHbm_setHbm .., rowError_spec h (rowOf y) s.now⟩
  · have hexec : exec (.channelRetire ch) s = execChannelRetire ch s := rfl
    rw [hexec, execChannelRetire]
    exact if_neg (Bool.eq_false_iff.1 hdue)

end Sys2Proof.Machine
end

section
/-!
PROOF. The links between the dies and the caches (R24 to R31, R293 to R304): Mortar groups, Lintel lanes and Quarry units.
-/

namespace Sys2Proof.Machine

/-! ## What stands aside -/

theorem setsMortar_setMortar (s : State) (f : Nat) (k : Mortar) : SetsMortar s (setMortar s f k) f k :=
  ⟨rfl, tget_tset_self .., fun _ hd => tget_tset_ne _ hd _⟩

theorem setsLintel_setLintel (s : State) (l : Nat) (k : Lintel) : SetsLintel s (setLintel s l k) l k :=
  ⟨rfl, tget_tset_self .., fun _ hd => tget_tset_ne _ hd _⟩

theorem setsTower_setTower (s : State) (u : Nat) (k : TowerSt) : SetsTower s (setTower s u k) u k :=
  ⟨rfl, tget_tset_self .., fun _ hd => tget_tset_ne _ hd _⟩

theorem BlameSide.mortar {s t : State} (h : BlameSide s t) : t.mortar = s.mortar := by rw [h]

theorem ReportSide.cores {s t : State} (h : ReportSide s t) : t.cores = s.cores := by rw [h]

theorem ReportSide.mortar {s t : State} (h : ReportSide s t) : t.mortar = s.mortar := by rw [h]

theorem RasSide.towers {s t : State} (h : RasSide s t) : t.towers = s.towers := by rw [h]

/-! ## Cores that stay out of service -/

/-- The cores in service are those of `s`. -/
def KeepsRetired (s t : State) : Prop := ∀ c, (getCore t c).retired = (getCore s c).retired

theorem KeepsRetired.refl (s : State) : KeepsRetired s s := fun _ => rfl

theorem KeepsRetired.trans {s t u : State} (h : KeepsRetired s t) (g : KeepsRetired t u) : KeepsRetired s u := fun c => (g c).trans (h c)

theorem keepsRetired_of_cores {s t : State} (h : t.cores = s.cores) : KeepsRetired s t := fun c => by
  have hget : getCore t c = getCore s c := by
    unfold getCore
    rw [h]
  rw [hget]

theorem forEach_keepsRetired {α : Type} {f : State → α → State} (hf : ∀ s x, KeepsRetired s (f s x)) :
    ∀ (l : List α) (s : State), KeepsRetired s (forEach s l f)
  | [], s => KeepsRetired.refl s
  | x :: l, s => (hf s x).trans (forEach_keepsRetired hf l (f s x))

theorem keepsRetired_modCore (s : State) (c : Nat) {f : CoreSt → CoreSt} (hf : ∀ k, (f k).retired = k.retired) : KeepsRetired s (modCore s c f) := by
  intro d
  by_cases hd : d = c
  · rw [hd, getCore_modCore_self, hf]
  · rw [getCore_modCore_ne _ _ hd]

theorem forEach_coreFreed_retired : ∀ (l : List (Nat × Nat)) (s : State), KeepsRetired s (forEach s l fun s c => modCore s c.2 coreFreed) :=
  forEach_keepsRetired fun s c => keepsRetired_modCore s c.2 fun _ => rfl

theorem forEach_stopKernel_retired (code : Code) : ∀ (l : List (Nat × Nat)) (s : State),
    KeepsRetired s (forEach s l fun s c => modCore s c.2 fun k => stopKernel k code) :=
  forEach_keepsRetired fun s c => keepsRetired_modCore s c.2 fun _ => kernelFault_retired ..

theorem dropGang_retired (s : State) (x : Gang) : KeepsRetired s (dropGang s x) := by
  unfold dropGang
  extract_lets s1 s2
  have h2 : KeepsRetired s s2 := keepsRetired_of_cores rfl
  exact h2.trans (forEach_coreFreed_retired x.cores s2)

theorem stopGang_retired (s : State) (x : Gang) : KeepsRetired s (stopGang s x) := by
  unfold stopGang
  extract_lets held s1 s2
  split
  · exact dropGang_retired s x
  · have h1 : KeepsRetired s s1 := forEach_coreFreed_retired _ s
    have h2 : KeepsRetired s1 s2 := keepsRetired_of_cores rfl
    exact (h1.trans h2).trans (forEach_stopKernel_retired _ held s2)

theorem forEach_dropPoolReqs_cores (q : Nat) : ∀ (l : List Nat) (s : State), (forEach s l fun s p => dropPoolReqs s p q).cores = s.cores
  | [], _ => rfl
  | p :: l, s => (forEach_dropPoolReqs_cores q l (dropPoolReqs s p q)).trans rfl

theorem guilty_retired (s : State) (q : Nat) (code : Code) (f : Option EntryFault) (b : Bool) : KeepsRetired s (guilty s q code f b) := by
  unfold guilty
  extract_lets k s1 s2 s3
  split
  · exact KeepsRetired.refl s
  · have h1 : KeepsRetired s s2 := keepsRetired_of_cores (forEach_dropPoolReqs_cores q _ s1)
    have h2 : KeepsRetired s2 s3 := forEach_keepsRetired stopGang_retired _ s2
    exact (h1.trans h2).trans (keepsRetired_of_cores rfl)

theorem tooLarge_retired (s : State) : KeepsRetired s (tooLarge s) := by
  unfold tooLarge
  refine forEach_keepsRetired (fun s x => ?_) _ s
  split
  · exact guilty_retired _ _ _ _ _
  · exact guilty_retired _ _ _ _ _
  · exact guilty_retired _ _ _ _ _
  · exact guilty_retired _ _ _ _ _
  · exact KeepsRetired.refl s

/-- A core that retires is out of service, whatever becomes of the gangs. -/
theorem retireCore_retires (s : State) (c : Nat) (field : Bool) : (getCore (retireCore s c field) c).retired = true := by
  unfold retireCore
  extract_lets k x code owner u again s1 s2 s3
  split
  · next h => exact h
  · have h3 : ReportSide s1 s3 := report_rep (recRetire_rep (ReportSide.refl s1))
    have h1 : (getCore s1 c).retired = true := by rw [getCore_modCore_self]
    exact ((tooLarge_retired s3 c).trans (keepsRetired_of_cores h3.cores c)).trans h1

/-! ## Mortar (R24 to R26) -/

theorem forEach_mortar {α : Type} {f : State → α → State} (hf : ∀ s x, (f s x).mortar = s.mortar) : ∀ (l : List α) (s : State),
    (forEach s l f).mortar = s.mortar
  | [], _ => rfl
  | x :: l, s => (forEach_mortar hf l (f s x)).trans (hf s x)

theorem retireTower_mortar (s : State) (t : Nat) (order : Option Nat) : (retireTower s t order).mortar = s.mortar := by
  unfold retireTower
  split
  · rfl
  · extract_lets homed xs s1 s2 s3 s4 s5
    have h2 : s2.mortar = s1.mortar := forEach_mortar (fun s c => by split <;> [rfl; split <;> rfl]) _ s1
    have h5 : BlameSide (memcfgCount s2) s5 := guiltyAll_blame (report_blame (recRetire_blame (BlameSide.refl _)))
    have h6 : ∀ u : State, (forEach u (towerCores t) fun s c => retireCore s c true).mortar = u.mortar :=
      fun u => forEach_mortar (fun s c => BlameSide.mortar (retireCore_blame (BlameSide.refl s))) _ u
    exact (h6 s5).trans (h5.mortar.trans h2)

theorem forEach_mortarGone_retired : ∀ (l : List Nat) (s : State),
    KeepsRetired s (forEach s l fun s c => modCore s c fun k => { k with mortarGone := true }) :=
  forEach_keepsRetired fun s c => keepsRetired_modCore s c fun _ => rfl

theorem forEach_mortarGone_mortar : ∀ (l : List Nat) (s : State),
    (forEach s l fun s c => modCore s c fun k => { k with mortarGone := true }).mortar = s.mortar :=
  forEach_mortar fun _ _ => rfl

/-- A Mortar field that has left service. -/
def fieldLeft (m : Mortar) : Mortar := { m with gone := true, steering := none }

theorem fieldGone_mortar (s : State) (f : Nat) : (fieldGone s f).mortar = (setMortar s f (fieldLeft (getMortar s f))).mortar := by
  unfold fieldGone
  extract_lets m s1 s2
  have h1 : ReportSide (setMortar s f (fieldLeft (getMortar s f))) s1 := recRetire_rep (ReportSide.refl _)
  have h2 : s2.mortar = s1.mortar := by
    simp only [s2]
    split
    · exact BlameSide.mortar (retireCore_blame (BlameSide.refl s1))
    · exact retireTower_mortar ..
  exact (forEach_mortarGone_mortar _ s2).trans (h2.trans h1.mortar)

theorem fieldGone_spec (s : State) (f : Nat) : (getMortar (fieldGone s f) f).gone = true ∧
    (∀ d, d ≠ f → getMortar (fieldGone s f) d = getMortar s d) ∧ (f < 256 → (getCore (fieldGone s f) f).retired = true) := by
  have hget : ∀ d, getMortar (fieldGone s f) d = getMortar (setMortar s f (fieldLeft (getMortar s f))) d := fun d => by
    unfold getMortar
    rw [fieldGone_mortar]
    rfl
  refine ⟨?_, fun d hd => ?_, fun hf => ?_⟩
  · rw [hget]
    exact congrArg Mortar.gone (tget_tset_self ..)
  · rw [hget]
    exact tget_tset_ne _ hd _
  · unfold fieldGone
    extract_lets m s1 s2
    have h2 : (getCore s2 f).retired = true := by
      simp only [s2]
      rw [if_pos hf]
      exact retireCore_retires ..
    exact (forEach_mortarGone_retired _ s2 f).trans h2

section
variable {s : State} {f : Fin 264} {grp : Nat}

/-- A field with one more failure of a group in its history. -/
def groupFailed (m : Mortar) (grp now : Nat) : Mortar := { m with fails := (histAdd m.fails grp now 1000000).1 }

theorem execMortarCrcFail_of (hgone : (getMortar s f.val).gone = false) (hst : (getMortar s f.val).steering = none)
    (hc : mortarCarries f.val (getMortar s f.val) grp = true) (failed : Bool) : exec (.mortarCrcFail f grp failed) s =
      .next (if failed = true ∨ 32 ≤ countWithin (getMortar s f.val).fails grp s.now 1000000 then
        mortarBad (setMortar s f.val (groupFailed (getMortar s f.val) grp s.now)) f.val grp
      else setMortar s f.val (groupFailed (getMortar s f.val) grp s.now)) := by
  have hexec : exec (.mortarCrcFail f grp failed) s = execMortarCrcFail f grp failed s := rfl
  have hgo : ¬ ((getMortar s f.val).gone = true ∨ (getMortar s f.val).steering ≠ none ∨ (!mortarCarries f.val (getMortar s f.val) grp) = true) := by
    rw [hgone, hst, hc]
    decide
  rw [hexec, execMortarCrcFail]
  dsimp only
  rw [if_neg hgo, ← histAdd_snd]
  rfl

theorem mortarCrcFail_spec (failed : Bool) (hgone : (getMortar s f.val).gone = false) (hst : (getMortar s f.val).steering = none)
    (hc : mortarCarries f.val (getMortar s f.val) grp = true) :
    let m := getMortar s f.val
    let n := countWithin m.fails grp s.now 1000000
    (failed = false → n < 32 → ∃ t m', exec (.mortarCrcFail f grp failed) s = .next t ∧ SetsMortar s t f.val m' ∧
      m' = { m with fails := m'.fails } ∧ (m'.fails.filter fun e => e.1 = grp).length = n) ∧
    (failed = true ∨ 32 ≤ n → (∀ sp, mortarFree f.val m = some sp → ∃ t m', exec (.mortarCrcFail f grp failed) s = .next t ∧
        SetsMortar s t f.val m' ∧ m'.steering = some grp ∧ m'.steered = m.steered ∧ m'.gone = false) ∧
      (mortarFree f.val m = none → ∃ t, exec (.mortarCrcFail f grp failed) s = .next t ∧ (getMortar t f.val).gone = true ∧
        (∀ d, d ≠ f.val → getMortar t d = getMortar s d) ∧ (f.val < 256 → (getCore t f.val).retired = true))) := by
  intro m n
  have hexec := execMortarCrcFail_of hgone hst hc failed
  have hget : getMortar (setMortar s f.val (groupFailed m grp s.now)) f.val = groupFailed m grp s.now := tget_tset_self ..
  refine ⟨fun hf hn => ?_, fun hbad => ?_⟩
  · have hno : ¬ (failed = true ∨ 32 ≤ countWithin (getMortar s f.val).fails grp s.now 1000000) := by
      rw [hf]
      rintro (h | h)
      · exact absurd h (by decide)
      · exact absurd hn (Nat.not_lt.2 h)
    rw [if_neg hno] at hexec
    exact ⟨_, _, hexec, setsMortar_setMortar .., rfl, histAdd_snd ..⟩
  · rw [if_pos hbad] at hexec
    refine ⟨fun sp hfree => ?_, fun hfree => ?_⟩
    · have hbadEq : mortarBad (setMortar s f.val (groupFailed m grp s.now)) f.val grp =
          setMortar (setMortar s f.val (groupFailed m grp s.now)) f.val { groupFailed m grp s.now with steering := some grp } := by
        unfold mortarBad
        rw [hget, show mortarFree f.val (groupFailed m grp s.now) = some sp from hfree]
      rw [hbadEq] at hexec
      refine ⟨_, _, hexec, ⟨rfl, tget_tset_self .., fun d hd => ?_⟩, rfl, rfl, hgone⟩
      exact (tget_tset_ne _ hd _).trans (tget_tset_ne _ hd _)
    · have hbadEq : mortarBad (setMortar s f.val (groupFailed m grp s.now)) f.val grp =
          fieldGone (setMortar s f.val (groupFailed m grp s.now)) f.val := by
        unfold mortarBad
        rw [hget, show mortarFree f.val (groupFailed m grp s.now) = none from hfree]
      rw [hbadEq] at hexec
      obtain ⟨h1, h2, h3⟩ := fieldGone_spec (setMortar s f.val (groupFailed m grp s.now)) f.val
      exact ⟨_, hexec, h1, fun d hd => (h2 d hd).trans (tget_tset_ne _ hd _), h3⟩

theorem mortarSteerDone_spec {g sp : Nat} (hst : (getMortar s f.val).steering = some g) (hfree : mortarFree f.val (getMortar s f.val) = some sp) :
    ∃ t, exec (.mortarSteerDone f) s = .next t ∧ ∃ s1 m', SetsMortar s s1 f.val m' ∧ ReportSide s1 t ∧ m'.steering = none ∧
      m'.steered = (getMortar s f.val).steered ++ [(g, sp)] := by
  have hexec : exec (.mortarSteerDone f) s = execMortarSteerDone f s := rfl
  rw [hexec, execMortarSteerDone]
  dsimp only
  rw [hst, hfree]
  exact ⟨_, rfl, _, _, setsMortar_setMortar .., report_rep (recUnits_rep (ReportSide.refl _)), rfl, rfl⟩

end

/-! ## Lintel (R27 to R31) -/

section
variable {s : State} {l : Fin 24} {lane : Fin 18}

/-- A link with one more bad lane. -/
def laneLost (k : Lintel) (lane : Nat) : Lintel :=
  { k with bad := lane :: k.bad, pendRemap := k.pendRemap ++ [lane], holding := !k.retraining, errs := k.errs.filter fun e => e.1 ≠ lane }

theorem laneBad_of {s : State} {l lane : Nat} (hr : (getLintel s l).retired = false) (hb : lane ∉ (getLintel s l).bad) :
    laneBad s l lane = setLintel s l (laneLost (getLintel s l) lane) := by
  have hno : ¬ ((getLintel s l).retired = true ∨ (getLintel s l).bad.contains lane = true) := by
    rw [hr, List.contains_iff_mem]
    simp [hb]
  unfold laneBad
  exact if_neg hno

theorem execLintelClockLockLoss_of (hr : (getLintel s l.val).retired = false) (hb : lane.val ∉ (getLintel s l.val).bad) :
    exec (.lintelClockLockLoss l lane) s = .next (setLintel s l.val (laneLost (getLintel s l.val) lane.val)) := by
  have hexec : exec (.lintelClockLockLoss l lane) s = execLintelClockLockLoss l lane s := rfl
  rw [hexec, execLintelClockLockLoss, laneBad_of hr hb]

theorem lintel_idle {k : Lintel} (hr : k.retired = false) (ht : k.retraining = false) (hh : k.holding = false) :
    ¬ (k.retired = true ∨ k.retraining = true ∨ k.holding = true) := by
  rw [hr, ht, hh]
  decide

theorem execLintelFlitCrcFail_replays (hr : (getLintel s l.val).retired = false) (ht : (getLintel s l.val).retraining = false)
    (hh : (getLintel s l.val).holding = false) :
    exec (.lintelFlitCrcFail l none true) s = .next (setLintel s l.val { getLintel s l.val with retraining := true }) := by
  have hexec : exec (.lintelFlitCrcFail l none true) s = execLintelFlitCrcFail l none true s := rfl
  rw [hexec, execLintelFlitCrcFail]
  exact if_neg (lintel_idle hr ht hh)

/-- A link with one more error of a lane in its history. -/
def laneErr (k : Lintel) (lane now : Nat) : Lintel := { k with errs := (histAdd k.errs lane now 100000000).1 }

theorem execLintelFlitCrcFail_lane (hr : (getLintel s l.val).retired = false) (ht : (getLintel s l.val).retraining = false)
    (hh : (getLintel s l.val).holding = false) (hc : (lintelCarries (getLintel s l.val) lane.val).isSome = true)
    (hb : lane.val ∉ (getLintel s l.val).bad) : exec (.lintelFlitCrcFail l (some lane) false) s =
      .next (if 32 ≤ countWithin (getLintel s l.val).errs lane.val s.now 100000000 then
        laneBad (setLintel s l.val (laneErr (getLintel s l.val) lane.val s.now)) l.val lane.val
      else setLintel s l.val (laneErr (getLintel s l.val) lane.val s.now)) := by
  have hexec : exec (.lintelFlitCrcFail l (some lane) false) s = execLintelFlitCrcFail l (some lane) false s := rfl
  have hno : ¬ ((lintelCarries (getLintel s l.val) lane.val).isNone = true ∨ (getLintel s l.val).bad.contains lane.val = true) := by
    rw [List.contains_iff_mem, Option.isNone_iff_eq_none]
    rintro (h | h)
    · rw [h] at hc
      exact absurd hc (by decide)
    · exact hb h
  rw [hexec, execLintelFlitCrcFail]
  dsimp only
  rw [if_neg (lintel_idle hr ht hh), if_neg hno, ← histAdd_snd]
  rfl

theorem lintelFlitCrcFail_spec (hr : (getLintel s l.val).retired = false) (ht : (getLintel s l.val).retraining = false)
    (hh : (getLintel s l.val).holding = false) (hc : (lintelCarries (getLintel s l.val) lane.val).isSome = true)
    (hb : lane.val ∉ (getLintel s l.val).bad) :
    let k := getLintel s l.val
    ∃ t k', exec (.lintelFlitCrcFail l (some lane) false) s = .next t ∧ SetsLintel s t l.val k' ∧
      (countWithin k.errs lane.val s.now 100000000 < 32 → k' = { k with errs := k'.errs }) ∧
      (32 ≤ countWithin k.errs lane.val s.now 100000000 → k'.bad = lane.val :: k.bad ∧ k'.pendRemap = k.pendRemap ++ [lane.val] ∧ k'.holding = true) := by
  intro k
  have hexec := execLintelFlitCrcFail_lane hr ht hh hc hb
  by_cases h32 : 32 ≤ countWithin k.errs lane.val s.now 100000000
  · have hget : getLintel (setLintel s l.val (laneErr k lane.val s.now)) l.val = laneErr k lane.val s.now := tget_tset_self ..
    rw [if_pos h32, laneBad_of (by rw [hget]; exact hr) (by rw [hget]; exact hb), hget] at hexec
    refine ⟨_, _, hexec, ⟨rfl, tget_tset_self .., fun d hd => ?_⟩, fun hlt => absurd hlt (Nat.not_lt.2 h32), fun _ => ⟨rfl, rfl, ?_⟩⟩
    · exact (tget_tset_ne _ hd _).trans (tget_tset_ne _ hd _)
    · exact congrArg (!·) ht
  · rw [if_neg h32] at hexec
    exact ⟨_, _, hexec, setsLintel_setLintel .., fun _ => rfl, fun hge => absurd hge h32⟩

theorem execLintelRetrainDone_none (ht : (getLintel s l.val).retraining = true) : exec (.lintelRetrainDone l []) s =
    .next (setLintel s l.val { getLintel s l.val with retraining := false, holding := decide ((getLintel s l.val).pendRemap ≠ []) }) := by
  have hexec : exec (.lintelRetrainDone l []) s = execLintelRetrainDone l [] s := rfl
  have hno : ¬ (!(getLintel s l.val).retraining) = true := by
    rw [ht]
    decide
  rw [hexec, execLintelRetrainDone]
  exact if_neg hno

theorem recLane_rep {a s : State} {u : Nat} {order : Option Nat} (h : ReportSide a s) : ReportSide a (recLane s u order) := by
  unfold recLane
  extract_lets p s1
  have h1 : ReportSide a s1 := withStore_rep h
  exact ite_rep (recUnits_rep h1) h1

/-- A link whose hold is over. -/
def holdOver (k : Lintel) : Lintel := { k with holding := false, pendRemap := [] }

/-- A link whose data lane `d` is on the spare `sp`, or that runs at half width. -/
def laneMoved (k : Lintel) (d : Nat) (spare : Option Nat) : Lintel :=
  match spare with
  | some sp => { holdOver k with mapped := k.mapped.filter (fun p => p.1 ≠ d) ++ [(d, sp)] }
  | none => { holdOver k with mapped := k.mapped.filter (fun p => p.1 ≠ d), half := true }

theorem lintelRemapDone_spec {d : Nat} (hh : (getLintel s l.val).holding = true) (hp : (getLintel s l.val).pendRemap = [lane.val])
    (hc : lintelCarries (getLintel s l.val) lane.val = some d)
    (hok : ¬ ((laneMoved (getLintel s l.val) d (lintelSpare (getLintel s l.val))).half = true ∧ lintelGood (getLintel s l.val) < 8)) :
    ∃ t s1, exec (.lintelRemapDone l) s = .next t ∧ ReportSide s1 t ∧
      SetsLintel s s1 l.val (laneMoved (getLintel s l.val) d (lintelSpare (getLintel s l.val))) := by
  have hexec : exec (.lintelRemapDone l) s = execLintelRemapDone l s := rfl
  have hno : ¬ (!(getLintel s l.val).holding) = true := by
    rw [hh]
    decide
  have hget : getLintel (setLintel s l.val (holdOver (getLintel s l.val))) l.val = holdOver (getLintel s l.val) := tget_tset_self ..
  have hcarry : lintelCarries (holdOver (getLintel s l.val)) lane.val = some d := hc
  rw [hexec, execLintelRemapDone]
  dsimp only
  rw [if_neg hno, hp]
  refine ⟨_, setLintel (setLintel s l.val (holdOver (getLintel s l.val))) l.val (laneMoved (getLintel s l.val) d (lintelSpare (getLintel s l.val))),
    rfl, ?_, ⟨rfl, tget_tset_self .., fun c hd => (tget_tset_ne _ hd _).trans (tget_tset_ne _ hd _)⟩⟩
  rw [forEach, forEach]
  show ReportSide _ (remapLane (setLintel s l.val (holdOver (getLintel s l.val))) l.val lane.val)
  have hgood : lintelGood (laneMoved (getLintel s l.val) d (lintelSpare (getLintel s l.val))) = lintelGood (getLintel s l.val) := by
    unfold laneMoved
    split <;> rfl
  rw [← hgood] at hok
  unfold remapLane
  rw [hget]
  dsimp only
  rw [hcarry]
  dsimp only
  cases hsp : lintelSpare (getLintel s l.val) with
  | some sp =>
    rw [hsp] at hok
    rw [show lintelSpare (holdOver (getLintel s l.val)) = some sp from hsp]
    refine (show ReportSide _ _ = ReportSide _ _ from congrArg _ (if_neg hok)).mpr ?_
    exact report_rep (recLane_rep (report_rep (ReportSide.refl _)))
  | none =>
    rw [hsp] at hok
    rw [show lintelSpare (holdOver (getLintel s l.val)) = none from hsp]
    refine (show ReportSide _ _ = ReportSide _ _ from congrArg _ (if_neg hok)).mpr ?_
    exact report_rep (recLane_rep (report_rep (ReportSide.refl _)))

end

end Sys2Proof.Machine
end

section
/-!
PROOF. Quarry and the Remote Line Cache (R293 to R304), and the release flush (R303, R358).
-/

namespace Sys2Proof.Machine

/-! ## Quarry units (R293 to R298) -/

/-- The package with another power state. -/
def powered (s : State) (p : PowerSt) : State := { s with power := p }

theorem halfFollow_power {s : State} {h : Nat} (hh : h < 40) : ∃ p, halfFollow s h = powered s p := by
  unfold halfFollow
  extract_lets k s1
  have hs1 : ∃ p, s1 = powered s p := ⟨_, rfl⟩
  obtain ⟨p, hp⟩ := hs1
  rw [hp]
  have hdown : ∃ p', startDown (powered s p) (64 + h) = powered s p' := by
    unfold startDown
    extract_lets k s2
    rw [if_pos (by omega)]
    exact ⟨_, rfl⟩
  unfold domAdvance
  dsimp only
  cases (getDom (powered s p) (64 + h)).st with
  | off =>
    cases (getDom (powered s p) (64 + h)).target with
    | true => exact ⟨_, rfl⟩
    | false => exact ⟨_, rfl⟩
  | on =>
    cases (getDom (powered s p) (64 + h)).target with
    | true => exact ⟨_, rfl⟩
    | false =>
      dsimp only
      split
      · exact hdown
      · exact ⟨_, rfl⟩
  | waiting =>
    cases (getDom (powered s p) (64 + h)).target with
    | true =>
      dsimp only
      rw [if_neg (by omega)]
      exact ⟨_, rfl⟩
    | false =>
      dsimp only
      split
      · exact hdown
      · exact ⟨_, rfl⟩
  | poweringUp => exact ⟨_, rfl⟩
  | poweringDown => exact ⟨_, rfl⟩

theorem halfOf_lt (u : Tower) (v : Fin 8) : halfOf u.val v.val < 40 := by
  have hu := u.isLt
  have hv := v.isLt
  unfold halfOf
  omega

theorem tget_of_no_key {α : Type} (d : α) : ∀ (t : Tab α) (a : Nat), (∀ e ∈ t, e.1 ≠ a) → tget d t a = d
  | [], _, _ => rfl
  | (j, x) :: t, a, h => by
    have hj : a ≠ j := fun hc => h _ (List.mem_cons_self ..) hc.symm
    rw [tget, if_neg hj, tget_of_no_key d t a fun e he => h e (List.mem_cons_of_mem _ he), ite_self]

theorem tget_tclear_in {α : Type} (d : α) (t : Tab α) {lo n a : Nat} (h : lo ≤ a ∧ a < lo + n) : tget d (tclear lo n t) a = d := by
  refine tget_of_no_key d _ a fun e he => ?_
  obtain ⟨_, hout⟩ := List.mem_filter.1 he
  have hout := of_decide_eq_true hout
  omega

theorem forEach_homeLeave_tower (s : State) (l : List QLine) (u : Nat) : getTower (forEach s l homeLeave) u = getTower s u := by
  unfold getTower
  rw [(forEach_homeLeave_span l s).1]

/-- A tower whose HOME units are empty. -/
def homeEmpty (w : TowerSt) : TowerSt := { w with home := [] }

theorem homeDropAll_tower (s : State) (u : Nat) : getTower (homeDropAll s u) u = homeEmpty (getTower s u) := by
  unfold homeDropAll
  exact (forEach_homeLeave_tower ..).trans (tget_tset_self ..)

/-- A fresh window reads 0, without markers, and no context owns it. -/
theorem freshWindow_clean (s : State) {k a : Nat} (ha : 0xC000000000 + k * 0x2000000 ≤ a ∧ a < 0xC000000000 + k * 0x2000000 + 0x2000000) :
    rd8 (freshWindow s (0xC000000000 + k * 0x2000000) 0x2000000).mem a = 0 ∧
      tget none (freshWindow s (0xC000000000 + k * 0x2000000) 0x2000000).lost (a / 64) = none ∧
      tget 0 (freshWindow s (0xC000000000 + k * 0x2000000) 0x2000000).owner (a / 0x200000) = 0 :=
  ⟨tget_tclear_in _ _ ha, tget_tclear_in _ _ (by omega), tget_tclear_in _ _ (by omega)⟩

/-- What the end of a unit's change of kind leaves of its tower. -/
def kindChanged (v kind old : Nat) (rest : List (Nat × Nat)) (w : TowerSt) : TowerSt :=
  { w with part := sf w.part (2 * v + 1) (2 * v) kind, changing := rest, victim := if old = 1 then [] else w.victim }

/-- The package before its tower changes the kind of a unit. -/
def kindCleared (s : State) (u v kind old : Nat) : State :=
  let s1 := if old = 0 ∨ kind = 0 then homeDropAll s u else s
  if kind = 2 ∨ old = 2 then freshWindow s1 (quarryWindow u v) 0x2000000 else s1

theorem kindCleared_tower (s : State) (u v kind old : Nat) : (getTower (kindCleared s u v kind old) u).part = (getTower s u).part ∧
    (getTower (kindCleared s u v kind old) u).rlc = (getTower s u).rlc := by
  unfold kindCleared
  extract_lets s1
  have h1 : (getTower s1 u).part = (getTower s u).part ∧ (getTower s1 u).rlc = (getTower s u).rlc := by
    simp only [s1]
    split
    · rw [homeDropAll_tower]
      exact ⟨rfl, rfl⟩
    · exact ⟨rfl, rfl⟩
  split
  · exact h1
  · exact h1

section
variable {s : State} {u : Tower} {v : Fin 8}

theorem execQuarryKindChange_of {kind : Nat} {rest : List (Nat × Nat)} (hch : (getTower s u.val).changing = (v.val, kind) :: rest)
    (hown : bt s.ownCmd 62 = false) (hon : kind = 3 ∨ (getDom s (64 + halfOf u.val v.val)).st = .on) :
    ∃ p, exec (.quarryKindChange u v) s = .next (powered (modTower
      (kindCleared s u.val v.val kind (bf (getTower s u.val).part (2 * v.val + 1) (2 * v.val))) u.val
      (kindChanged v.val kind (bf (getTower s u.val).part (2 * v.val + 1) (2 * v.val)) rest)) p) := by
  have hexec : exec (.quarryKindChange u v) s = execQuarryKindChange u v s := rfl
  have hno : ¬ (v.val ≠ v.val ∨ bt s.ownCmd 62 = true ∨ (kind ≠ 3 ∧ (getDom s (64 + halfOf u.val v.val)).st ≠ .on)) := by
    rw [hown]
    rintro (h | h | ⟨h1, h2⟩)
    · exact h rfl
    · exact absurd h (by decide)
    · exact hon.elim h1 h2
  obtain ⟨p, hp⟩ := halfFollow_power (s := modTower
    (kindCleared s u.val v.val kind (bf (getTower s u.val).part (2 * v.val + 1) (2 * v.val))) u.val
    (kindChanged v.val kind (bf (getTower s u.val).part (2 * v.val + 1) (2 * v.val)) rest)) (halfOf_lt u v)
  refine ⟨p, ?_⟩
  rw [hexec, execQuarryKindChange, hch]
  dsimp only
  rw [if_neg hno]
  exact congrArg _ hp

theorem quarryKindChange_spec {kind : Nat} {rest : List (Nat × Nat)} (hch : (getTower s u.val).changing = (v.val, kind) :: rest)
    (hown : bt s.ownCmd 62 = false) (hk : kind < 4) (hon : kind = 3 ∨ (getDom s (64 + (2 * u.val + v.val / 4))).st = .on) :
    ∃ t, exec (.quarryKindChange u v) s = .next t ∧ bf (getTower t u.val).part (2 * v.val + 1) (2 * v.val) = kind ∧
      (getTower t u.val).changing = rest ∧ (getTower t u.val).rlc = (getTower s u.val).rlc ∧
      (kind = 2 → ∀ a, 0xC000000000 + (8 * u.val + v.val) * 0x2000000 ≤ a → a < 0xC000000000 + (8 * u.val + v.val) * 0x2000000 + 0x2000000 →
        rd8 t.mem a = 0 ∧ tget none t.lost (a / 64) = none ∧ tget 0 t.owner (a / 0x200000) = 0) := by
  obtain ⟨p, hexec⟩ := execQuarryKindChange_of hch hown hon
  generalize hold : bf (getTower s u.val).part (2 * v.val + 1) (2 * v.val) = old at hexec
  obtain ⟨_, hrlc⟩ := kindCleared_tower s u.val v.val kind old
  have hv := v.isLt
  refine ⟨_, hexec, ?_⟩
  have hget : getTower (powered (modTower (kindCleared s u.val v.val kind old) u.val (kindChanged v.val kind old rest)) p) u.val =
      kindChanged v.val kind old rest (getTower (kindCleared s u.val v.val kind old) u.val) := tget_tset_self ..
  rw [hget]
  refine ⟨?_, rfl, hrlc, fun h2 a hlo hhi => ?_⟩
  · rw [kindChanged, bf_sf_same _ _ _ _ (by omega), show 2 * v.val + 1 + 1 - 2 * v.val = 2 by omega]
    exact Nat.mod_eq_of_lt hk
  · have hmem : kindCleared s u.val v.val kind old =
        freshWindow (if old = 0 ∨ kind = 0 then homeDropAll s u.val else s) (quarryWindow u.val v.val) 0x2000000 := if_pos (Or.inl h2)
    rw [hmem]
    exact freshWindow_clean _ ⟨hlo, hhi⟩

/-- A tower with one more corrected error of a unit in its history. -/
def unitErr (w : TowerSt) (v now : Nat) : TowerSt := { w with unitErrs := (histAdd w.unitErrs v now 1000000000).1 }

/-- A HOME unit that leaves service: it is OFF, and the HOME units of its tower are empty. -/
theorem retireQuarry_home {s : State} {u v : Nat} (hk : qKind s u v = 0) (order : Option Nat) :
    bt (getTower (retireQuarry s u v order) u).part (16 + v) = bt (sb (getTower s u).part (16 + v) true) (16 + v) ∧
      (getTower (retireQuarry s u v order) u).home = [] := by
  have hpart : ¬ bt (getTower s u).part (16 + v) = true := by
    intro h
    rw [qKind, h, if_pos rfl] at hk
    exact absurd hk (by decide)
  unfold retireQuarry
  rw [if_neg hpart]
  extract_lets kind xs s1 s2 s3
  have hkind : kind = 0 := hk
  have h3 : RasSide s1 s3 := by
    simp only [s3, hkind]
    exact rasTo_ras (recRetire_ras (RasSide.refl s1))
  have hget : getTower s3 u = getTower s1 u := by
    unfold getTower
    rw [h3.towers]
  have hdrop : (if kind = 0 then homeDropAll s u else s) = homeDropAll s u := if_pos hkind
  rw [if_neg (by rw [hkind]; decide), hget]
  simp only [s1, hdrop]
  rw [show getTower (modTower (homeDropAll s u) u _) u = _ from tget_tset_self .., homeDropAll_tower]
  exact ⟨rfl, rfl⟩

theorem execQuarryEccError_double (hk : qKind s u.val v.val = 0) (line : Nat) : exec (.quarryEccError u v true line) s =
    .next (setTower s u.val { getTower s u.val with home := (getTower s u.val).home.filter fun l => l.line.toNat ≠ line }) := by
  have hexec : exec (.quarryEccError u v true line) s = execQuarryEccError u v true line s := rfl
  rw [hexec, execQuarryEccError]
  dsimp only
  rw [hk]
  rfl

theorem execQuarryEccError_corrected (hk : qKind s u.val v.val = 0) (line : Nat) : exec (.quarryEccError u v false line) s =
    .next (if 16 ≤ countWithin (getTower s u.val).unitErrs v.val s.now 1000000000 then
      halfFollow (retireQuarry (setTower s u.val (unitErr (getTower s u.val) v.val s.now)) u.val v.val none) (halfOf u.val v.val)
      else setTower s u.val (unitErr (getTower s u.val) v.val s.now)) := by
  have hexec : exec (.quarryEccError u v false line) s = execQuarryEccError u v false line s := rfl
  rw [hexec, execQuarryEccError]
  dsimp only
  rw [hk, ← histAdd_snd]
  rfl

theorem quarryEccError_spec (hk : qKind s u.val v.val = 0) (line : Nat) :
    (∃ t, exec (.quarryEccError u v true line) s = .next t ∧ SetsTower s t u.val { getTower s u.val with
      home := (getTower s u.val).home.filter fun l => l.line.toNat ≠ line }) ∧
    (countWithin (getTower s u.val).unitErrs v.val s.now 1000000000 < 16 → ∃ t w, exec (.quarryEccError u v false line) s = .next t ∧
      SetsTower s t u.val w ∧ w = { getTower s u.val with unitErrs := w.unitErrs }) ∧
    (16 ≤ countWithin (getTower s u.val).unitErrs v.val s.now 1000000000 → ∃ t, exec (.quarryEccError u v false line) s = .next t ∧
      bt (getTower t u.val).part (16 + v.val) = true ∧ (getTower t u.val).home = []) := by
  have hexec := execQuarryEccError_corrected hk line
  refine ⟨⟨_, execQuarryEccError_double hk line, setsTower_setTower ..⟩, fun hlt => ?_, fun hge => ?_⟩
  · rw [if_neg (Nat.not_le.2 hlt)] at hexec
    exact ⟨_, _, hexec, setsTower_setTower .., rfl⟩
  · rw [if_pos hge] at hexec
    have hget : getTower (setTower s u.val (unitErr (getTower s u.val) v.val s.now)) u.val = unitErr (getTower s u.val) v.val s.now := tget_tset_self ..
    have hk1 : qKind (setTower s u.val (unitErr (getTower s u.val) v.val s.now)) u.val v.val = 0 := by
      rw [qKind, hget]
      exact hk
    obtain ⟨hpart, hhome⟩ := retireQuarry_home hk1 none
    obtain ⟨p, hp⟩ := halfFollow_power (s := retireQuarry (setTower s u.val (unitErr (getTower s u.val) v.val s.now)) u.val v.val none) (halfOf_lt u v)
    rw [hp] at hexec
    have hv := v.isLt
    exact ⟨_, hexec, hpart.trans (bt_sb _ _ _ (by omega)), hhome⟩

end

/-! ## Hits of the Remote Line Cache (R299 to R301) -/

section
variable {s : State} {u : Tower} {rq : RlcUser} {key : BitVec 64} {x : Nat} {nc : Bool} {l : RlcLine}
  (halloc : allocatable s u.val key rq nc = true) (hlost : keyLost s key = false) (hfind : rlcFind s u.val key = some l)
  (hserves : copyServes l.own l.ctx x = true)
include halloc hlost hfind hserves

omit halloc hlost in
theorem rlcHit_of : rlcHit s u.val key x = some l := by
  rw [rlcHit, hfind]
  exact Option.filter_some_pos hserves

omit hlost in
theorem copyHere_of : copyHere s u.val rq key x nc = true := by
  rw [copyHere, halloc, rlcHit_of hfind hserves]
  rfl

/-- A tower whose line `key` was used last, in the place of `l`. -/
def lineFirst (key : BitVec 64) (l : RlcLine) (w : TowerSt) : TowerSt := { w with rlc := l :: w.rlc.filter fun y => y.line ≠ key }

/-- A line as a read leaves it. -/
def lineRead (l : RlcLine) : RlcLine := { l with pf := false }

/-- A line as a write of a context leaves it. -/
def lineWritten (l : RlcLine) (x off : Nat) (bs : List Byte) : RlcLine :=
  { l with
    data := mergeLine l.data off bs, dirty := true, pf := false, ctx := x,
    lost := if decide (off = 0 ∧ bs.length = 64) then none else l.lost }

theorem rlcRead_hit (ext ext2 : Option (BitVec 512)) :
    (rlcRead s u.val rq key x nc ext ext2).2.2 = setTower s u.val (lineFirst key (lineRead l) (getTower s u.val)) := by
  unfold rlcRead
  dsimp only
  rw [hlost, halloc, rlcHit_of hfind hserves, if_neg (by decide), if_neg (by decide)]
  dsimp only
  split
  · rfl
  · rfl

theorem rlcTryWrite_hit (hhere : keyHere s key = false) (run off : Nat) (bs : List Byte) (ext : Option (BitVec 512)) :
    rlcTryWrite s u.val run rq key x nc off bs ext = some (St.ok, modTower s u.val (lineFirst key (lineWritten l x off bs))) := by
  unfold rlcTryWrite
  dsimp only
  rw [hlost, halloc, rlcHit_of hfind hserves, if_neg (by decide), if_neg (by decide)]
  dsimp only
  rw [hhere, if_neg (by decide)]
  rfl

end

theorem streamStep_cores (s : State) (rq : RlcUser) (key : BitVec 64) : ∃ cs run, streamStep s rq key = (setCores s cs, run) := by
  unfold streamStep
  split
  · exact ⟨s.cores, 0, rfl⟩
  · dsimp only
    split
    · exact ⟨s.cores, _, rfl⟩
    · exact ⟨_, _, rfl⟩

section
variable {s : State} {u : Tower} {rq : RlcUser} {a : BitVec 64} {x : CtxId} {nc : Bool} {l : RlcLine}
  (halloc : allocatable s u.val (a &&& ~~~63) rq nc = true) (hlost : keyLost s (a &&& ~~~63) = false)
  (hfind : rlcFind s u.val (a &&& ~~~63) = some l) (hserves : copyServes l.own l.ctx x.val = true)
include halloc hlost hfind hserves

theorem execRlcRead_hit (e1 e2 : Option (BitVec 512)) : exec (.rlcRead u rq a x nc e1 e2) s =
    .next (setTower s u.val (lineFirst (a &&& ~~~63) (lineRead l) (getTower s u.val))) := by
  have hexec : exec (.rlcRead u rq a x nc e1 e2) s = execRlcRead u rq a x nc e1 e2 s := rfl
  rw [hexec, execRlcRead]
  dsimp only
  rw [copyHere_of halloc hfind hserves, if_pos rfl]
  exact congrArg _ (rlcRead_hit halloc hlost hfind hserves _ _)

theorem execRlcWrite_hit {off : Nat} {bs : List Byte} (e1 : Option (BitVec 512)) (hoff : off < 64) (hlen : bs.length ≤ 64 - off)
    (hhere : keyHere s (a &&& ~~~63) = false) : ∃ cs, exec (.rlcWrite u rq a x nc off bs e1) s =
      .next (modTower (setCores s cs) u.val (lineFirst (a &&& ~~~63) (lineWritten l x.val off bs))) := by
  have hexec : exec (.rlcWrite u rq a x nc off bs e1) s = execRlcWrite u rq a x nc off bs e1 s := rfl
  obtain ⟨cs, run, hstream⟩ := streamStep_cores s rq (a &&& ~~~63)
  have htry := rlcTryWrite_hit (s := setCores s cs) halloc hlost hfind hserves hhere run off bs none
  refine ⟨cs, ?_⟩
  rw [hexec, execRlcWrite]
  dsimp only
  rw [copyHere_of halloc hfind hserves, if_pos rfl]
  dsimp only
  rw [Nat.mod_eq_of_lt hoff, List.take_of_length_le hlen, rlcWrite, hstream]
  dsimp only
  rw [htry]

end

/-! ## The release flush (R303, R358) -/

/-- The RLCs stand. -/
structure KeepsRlc (s t : State) : Prop where
  rlc : ∀ u, (getTower t u).rlc = (getTower s u).rlc

theorem KeepsRlc.refl (s : State) : KeepsRlc s s := ⟨fun _ => rfl⟩

theorem KeepsRlc.trans {s t u : State} (h : KeepsRlc s t) (g : KeepsRlc t u) : KeepsRlc s u := ⟨fun d => (g.rlc d).trans (h.rlc d)⟩

theorem keepsRlc_of_towers {s t : State} (h : t.towers = s.towers) : KeepsRlc s t := ⟨fun u => by
  unfold getTower
  rw [h]⟩

theorem keepsRlc_setTower {s : State} {u : Nat} {k : TowerSt} (h : k.rlc = (getTower s u).rlc) : KeepsRlc s (setTower s u k) := ⟨fun d => by
  by_cases hd : d = u
  · have hget : getTower (setTower s u k) u = k := tget_tset_self ..
    rw [hd, hget, h]
  · exact congrArg TowerSt.rlc (tget_tset_ne _ hd _)⟩

theorem homeLeave_rlc (s : State) (v : QLine) : KeepsRlc s (homeLeave s v) := keepsRlc_of_towers (homeLeave_span s v).1

theorem homePlace_rlc (s : State) (x : Nat) (l : QLine) : KeepsRlc s (homePlace s x l) := by
  unfold homePlace
  dsimp only
  with_reducible split
  · exact KeepsRlc.refl s
  · with_reducible split
    · exact keepsRlc_setTower rfl
    · refine KeepsRlc.trans ?_ (homeLeave_rlc _ _)
      exact keepsRlc_setTower rfl

theorem homeUpdate_rlc (s : State) (ctx x : Nat) (bs : List Byte) (whole nc : Bool) : KeepsRlc s (homeUpdate s ctx x bs whole nc) := by
  unfold homeUpdate
  with_reducible split
  · exact homePlace_rlc ..
  · with_reducible split
    · exact homePlace_rlc ..
    · exact KeepsRlc.refl s

theorem keepsRlc_withMem (s : State) (m : List Host.Cell) : KeepsRlc s (withMem s m) := keepsRlc_of_towers rfl

theorem clearMarker_rlc (s : State) (x : Nat) : KeepsRlc s (clearMarker s x) := keepsRlc_of_towers rfl

theorem homeWrite_rlc (s : State) (sys : Bool) (ctx x : Nat) (bs : List Byte) (nc : Bool) : KeepsRlc s (homeWrite s sys ctx x bs nc).2 := by
  unfold homeWrite
  dsimp only
  with_reducible split
  · exact KeepsRlc.refl s
  · with_reducible split
    · exact KeepsRlc.refl s
    · dsimp only
      refine KeepsRlc.trans ?_ (homeUpdate_rlc ..)
      refine KeepsRlc.trans ?_ (keepsRlc_withMem ..)
      with_reducible split
      · exact clearMarker_rlc s x
      · exact KeepsRlc.refl s

theorem remoteSend_rlc (s : State) (user : RemUser) (op : BitVec 8) (ga ctx n func : Nat) (asz : Bool) (data : List Byte) :
    KeepsRlc s (remoteSend s user op ga ctx n func asz data) := keepsRlc_of_towers rfl

theorem writeBack_rlc (s : State) (l : RlcLine) : KeepsRlc s (writeBack s l) := by
  unfold writeBack
  dsimp only
  with_reducible split
  · with_reducible split
    · exact KeepsRlc.refl s
    · exact homeWrite_rlc ..
  · exact remoteSend_rlc ..

theorem forEach_writeBack_rlc : ∀ (l : List RlcLine) (s : State), KeepsRlc s (forEach s l writeBack)
  | [], s => KeepsRlc.refl s
  | r :: l, s => (writeBack_rlc s r).trans (forEach_writeBack_rlc l (writeBack s r))

/-- A tower whose lines of context `x` are clean. -/
def flushed (x : Nat) (w : TowerSt) : TowerSt := { w with rlc := w.rlc.map fun l => if l.ctx = x then { l with dirty := false } else l }

/-- One tower of a flush pass. -/
def towerFlush (x : Nat) (s : State) (t : Nat) : State :=
  modTower (forEach s ((getTower s t).rlc.filter fun l => l.dirty && decide (l.ctx = x)) writeBack) t (flushed x)

theorem flushPass_eq (s : State) (x : Nat) : flushPass s x = forEach s (List.range 8) (towerFlush x) := rfl

/-- The lines of context `x` in the RLC of tower `u` are clean. -/
def CleanAt (s : State) (x u : Nat) : Prop := ∀ l ∈ (getTower s u).rlc, l.ctx = x → l.dirty = false

theorem flushed_clean {x : Nat} {w : TowerSt} {l : RlcLine} (h : l ∈ (flushed x w).rlc) (hx : l.ctx = x) : l.dirty = false := by
  obtain ⟨k, _, rfl⟩ := List.mem_map.1 h
  by_cases hk : k.ctx = x
  · rw [if_pos hk]
  · rw [if_neg hk] at hx
    exact absurd hx hk

theorem towerFlush_self (x : Nat) (s : State) (t : Nat) : CleanAt (towerFlush x s t) x t := by
  intro l hl hx
  rw [towerFlush, show getTower (modTower _ t (flushed x)) t = _ from tget_tset_self ..] at hl
  exact flushed_clean hl hx

theorem towerFlush_keeps {x u : Nat} {s : State} (t : Nat) (h : CleanAt s x u) : CleanAt (towerFlush x s t) x u := by
  by_cases hu : u = t
  · rw [hu]
    exact towerFlush_self x s t
  · intro l hl
    rw [towerFlush, show getTower (modTower _ t (flushed x)) u = _ from tget_tset_ne _ hu _] at hl
    rw [show (tget {} (forEach s ((getTower s t).rlc.filter fun l => l.dirty && decide (l.ctx = x)) writeBack).towers u).rlc = (getTower s u).rlc from
      (forEach_writeBack_rlc _ s).rlc u] at hl
    exact h l hl

theorem forEach_towerFlush_keeps {x u : Nat} : ∀ (l : List Nat) {s : State}, CleanAt s x u → CleanAt (forEach s l (towerFlush x)) x u
  | [], _, h => h
  | t :: l, _, h => forEach_towerFlush_keeps l (towerFlush_keeps t h)

theorem forEach_towerFlush_clean {x u : Nat} : ∀ (l : List Nat) (s : State), u ∈ l → CleanAt (forEach s l (towerFlush x)) x u
  | [], _, h => absurd h List.not_mem_nil
  | t :: l, s, h => by
    rw [show forEach s (t :: l) (towerFlush x) = forEach (towerFlush x s t) l (towerFlush x) from rfl]
    by_cases hl : u ∈ l
    · exact forEach_towerFlush_clean l (towerFlush x s t) hl
    · obtain rfl : u = t := (List.mem_cons.1 h).resolve_right hl
      exact forEach_towerFlush_keeps l (towerFlush_self x s u)

theorem flushPass_flushed (s : State) (x : Nat) : Flushed (flushPass s x) x := fun u hu => by
  rw [flushPass_eq]
  exact forEach_towerFlush_clean _ s (List.mem_range.2 hu)

theorem MemorySide.flush {s t : State} (h : MemorySide s t) : t.flush = s.flush := by rw [h]

/-- The package with other flush passes. -/
def withFlush (s : State) (l : List (Nat × Bool)) : State := { s with flush := l }

theorem Flushed.withFlush {s : State} {x : Nat} (h : Flushed s x) (l : List (Nat × Bool)) : Flushed (withFlush s l) x := h

theorem withFlush_same {s t : State} (h : MemorySide s t) (l : List (Nat × Bool)) : withFlush (withFlush t l) s.flush = t := by
  rw [← h.flush]
  rfl

theorem releaseFlush_spec (s : State) (x : CtxId) :
    ((∀ f ∈ s.flush, f.1 ≠ x.val) → ∃ t, exec (.releaseFlush x) s = .next t ∧ Flushed t x.val ∧ t.flush = s.flush ++ [(x.val, false)] ∧
      MemorySide s (withFlush t s.flush)) ∧
    ((∃ f ∈ s.flush, f.1 = x.val) → ∃ t, exec (.releaseFlush x) s = .next t ∧
      t = withFlush s (s.flush.map fun f => if f.1 = x.val then (f.1, true) else f)) := by
  have hexec : exec (.releaseFlush x) s = execReleaseFlush x s := rfl
  have hside : MemorySide s (flushPass s x.val) := flushPass_side (MemorySide.refl s)
  rw [hexec, execReleaseFlush]
  refine ⟨fun hno => ?_, fun ⟨f, hf, hx⟩ => ?_⟩
  · rw [if_neg fun hany => ?_]
    · refine ⟨withFlush (flushPass s x.val) _, rfl, (flushPass_flushed s x.val).withFlush _, rfl, ?_⟩
      rw [withFlush_same hside]
      exact hside
    · obtain ⟨f, hf, hx⟩ := List.any_eq_true.1 hany
      exact hno f hf (of_decide_eq_true hx)
  · rw [if_pos (List.any_eq_true.2 ⟨f, hf, decide_eq_true hx⟩)]
    exact ⟨_, rfl, rfl⟩

theorem releaseFlushDone_spec (s : State) (x : CtxId) :
    (s.flush.find? (fun f => f.1 = x.val) = some (x.val, false) → ∃ t, exec (.releaseFlushDone x) s = .next t ∧
      t = withFlush s (s.flush.filter fun f => f.1 ≠ x.val)) ∧
    (s.flush.find? (fun f => f.1 = x.val) = some (x.val, true) → ∃ t, exec (.releaseFlushDone x) s = .next t ∧ Flushed t x.val ∧
      t.flush = s.flush.map fun f => if f.1 = x.val then (f.1, false) else f) := by
  have hexec : exec (.releaseFlushDone x) s = execReleaseFlushDone x s := rfl
  rw [hexec, execReleaseFlushDone]
  refine ⟨fun h => ?_, fun h => ?_⟩
  · rw [h]
    exact ⟨_, rfl, rfl⟩
  · rw [h]
    exact ⟨withFlush (flushPass s x.val) _, rfl, (flushPass_flushed s x.val).withFlush _, rfl⟩

/-! ## Errors of the Remote Line Cache (R304) -/

/-- Every queue stands, or resets. -/
def QueuesReset (s t : State) : Prop := ∀ q, (getQueue t q).resetting = true ∨ getQueue t q = getQueue s q

theorem QueuesReset.refl (s : State) : QueuesReset s s := fun _ => Or.inr rfl

theorem QueuesReset.trans {s t u : State} (h : QueuesReset s t) (g : QueuesReset t u) : QueuesReset s u := fun q => by
  obtain hg | hg := g q
  · exact Or.inl hg
  · rw [hg]
    exact h q

theorem guilty_resets (s : State) (q : Nat) (code : Code) (f : Option EntryFault) (b : Bool) :
    QueuesReset s (guilty s q code f b) ∧ (getQueue (guilty s q code f b) q).resetting = true := by
  by_cases h : (getQueue s q).resetting = true
  · have hsame : guilty s q code f b = s := by
      unfold guilty
      exact if_pos h
    rw [hsame]
    exact ⟨QueuesReset.refl s, h⟩
  · have hg := guilty_turns (f := f) (b := b) (code := code) (Bool.eq_false_iff.2 h)
    refine ⟨fun d => ?_, hg.queue.2.1⟩
    by_cases hd : d = q
    · rw [hd]
      exact Or.inl hg.queue.2.1
    · exact Or.inr (hg.others d hd)

theorem forEach_guilty_resets (code : Code) (f : Option EntryFault) (b : Bool) : ∀ (l : List Nat) (s : State),
    QueuesReset s (forEach s l fun s q => guilty s q code f b) ∧
      ∀ q ∈ l, (getQueue (forEach s l fun s q => guilty s q code f b) q).resetting = true
  | [], s => ⟨QueuesReset.refl s, fun _ h => absurd h List.not_mem_nil⟩
  | q :: l, s => by
    obtain ⟨h1, hq⟩ := guilty_resets s q code f b
    obtain ⟨h2, hl⟩ := forEach_guilty_resets code f b l (guilty s q code f b)
    refine ⟨h1.trans h2, fun d hd => ?_⟩
    obtain rfl | hd := List.mem_cons.1 hd
    · obtain h | h := h2 d
      · exact h
      · exact (congrArg Queue.resetting h).trans hq
    · exact hl d hd

theorem guiltyCtx_resets (s : State) (x : Nat) : QueuesReset s (guiltyCtx s x) ∧
    ∀ q, getQueue s q ≠ {} → bf (getQueue s q).ctl 23 12 = x → (getQueue (guiltyCtx s x) q).resetting = true := by
  obtain ⟨h, hl⟩ := forEach_guilty_resets St.queueGuilty (some ⟨St.queueGuilty, 0xFFFF, 0xFFFFFFFF, 0, []⟩) false
    ((s.queues.filter fun q => decide (bf q.2.ctl 23 12 = x)).map Prod.fst) s
  refine ⟨h, fun q hne hx => hl q (List.mem_map.2 ⟨(q, getQueue s q), List.mem_filter.2 ⟨mem_of_tget hne, decide_eq_true hx⟩, rfl⟩)⟩

theorem guiltyAll_resets : ∀ (xs : List Nat) (s : State), QueuesReset s (guiltyAll s xs) ∧
    ∀ x ∈ xs, ∀ q, getQueue s q ≠ {} → bf (getQueue s q).ctl 23 12 = x → (getQueue (guiltyAll s xs) q).resetting = true
  | [], s => ⟨QueuesReset.refl s, fun _ h => absurd h List.not_mem_nil⟩
  | y :: xs, s => by
    obtain ⟨h1, hy⟩ := guiltyCtx_resets s y
    obtain ⟨h2, hxs⟩ := guiltyAll_resets xs (guiltyCtx s y)
    refine ⟨h1.trans h2, fun x hx q hne hq => ?_⟩
    have hkept : (getQueue (guiltyCtx s y) q).resetting = true → (getQueue (guiltyAll (guiltyCtx s y) xs) q).resetting = true := fun h => by
      obtain hr | hr := h2 q
      · exact hr
      · exact (congrArg Queue.resetting hr).trans h
    obtain rfl | hx := List.mem_cons.1 hx
    · exact hkept (hy q hne hq)
    · obtain hr | hr := h1 q
      · exact hkept hr
      · exact hxs x hx q (by rw [hr]; exact hne) (by rw [hr]; exact hq)

/-- A tower that has lost the line `l`. -/
def lineGone (l : RlcLine) (w : TowerSt) : TowerSt := { w with rlc := w.rlc.filter fun y => y.line ≠ l.line }

/-- The contexts that a dirty line lost concerns (R304). -/
def lostCtxs (s : State) (l : RlcLine) : List Nat :=
  if keyHere s l.line && decide (bf (ownEntry s (l.line.toNat % 2 ^ 41)) 15 14 = 2) then (l.ctx :: enabledCtxs s).dedup else [l.ctx]

theorem mem_lostCtxs (s : State) (l : RlcLine) : l.ctx ∈ lostCtxs s l := by
  unfold lostCtxs
  generalize (keyHere s l.line && decide (bf (ownEntry s (l.line.toNat % 2 ^ 41)) 15 14 = 2)) = b
  cases b with
  | true => exact List.mem_dedup.2 (List.mem_cons_self ..)
  | false => exact List.mem_singleton.2 rfl

section
variable {s : State} {u : Tower} {way : Fin 16} {l : RlcLine} (hoff : way.val ∉ (getTower s u.val).waysOff)
include hoff

theorem execRlcEccError_double {key : BitVec 64} (hfind : rlcFind s u.val key = some l) : exec (.rlcEccError u way true (some key)) s =
    .next (if l.dirty then guiltyAll (setTower s u.val (lineGone l (getTower s u.val))) (lostCtxs s l)
      else setTower s u.val (lineGone l (getTower s u.val))) := by
  have hexec : exec (.rlcEccError u way true (some key)) s = execRlcEccError u way true (some key) s := rfl
  have hno : ¬ (getTower s u.val).waysOff.contains way.val = true := by
    rw [List.contains_iff_mem]
    exact hoff
  rw [hexec, execRlcEccError]
  dsimp only
  rw [if_neg hno, if_pos rfl, Option.bind_some, hfind]
  dsimp only
  cases l.dirty with
  | true => rfl
  | false => rfl

/-- A tower with one more corrected error of a way in its history. -/
def wayErr (w : TowerSt) (way now : Nat) : TowerSt := { w with wayErrs := (histAdd w.wayErrs way now 1000000000).1 }

theorem execRlcEccError_corrected (h : countWithin (getTower s u.val).wayErrs way.val s.now 1000000000 < 16) :
    exec (.rlcEccError u way false none) s = .next (setTower s u.val (wayErr (getTower s u.val) way.val s.now)) := by
  have hexec : exec (.rlcEccError u way false none) s = execRlcEccError u way false none s := rfl
  have hno : ¬ (getTower s u.val).waysOff.contains way.val = true := by
    rw [List.contains_iff_mem]
    exact hoff
  have h16 : ¬ 16 ≤ (histAdd (getTower s u.val).wayErrs way.val s.now 1000000000).2 := by
    rw [histAdd_snd]
    exact Nat.not_le.2 h
  rw [hexec, execRlcEccError]
  dsimp only
  rw [if_neg hno, if_neg (by decide)]
  exact congrArg _ (if_neg h16)

end

/-- Settles O51: Mortar groups and Lintel lanes are counted, steered and remapped in their own records; the lines of a tower are kept,
flushed and dropped in its RLC alone; and guilt reaches every queue of the context that loses a line. -/
theorem linksAndCachesRun : Obligations.LinksAndCachesRun := by
  unfold Obligations.LinksAndCachesRun
  intro s
  refine ⟨?_, ?_, ?_, ?_, ?_, ?_, ?_, ?_⟩
  · intro f grp failed hgone hst hc
    exact mortarCrcFail_spec failed hgone hst hc
  · intro f g sp hst hfree
    exact mortarSteerDone_spec hst hfree
  · intro l lane hr k
    refine ⟨fun ht hh => ⟨⟨_, execLintelFlitCrcFail_replays hr ht hh, setsLintel_setLintel ..⟩, fun hc hb => lintelFlitCrcFail_spec hr ht hh hc hb⟩,
      fun hb => ⟨_, execLintelClockLockLoss_of hr hb, setsLintel_setLintel ..⟩,
      fun ht => ⟨_, execLintelRetrainDone_none ht, setsLintel_setLintel ..⟩,
      fun d hh hhalf hp hc => ⟨fun sp hsp => ?_, fun hsp hgood => ?_⟩⟩
    · have h := lintelRemapDone_spec hh hp hc
      rw [show lintelSpare (getLintel s l.val) = some sp from hsp] at h
      exact h fun hbad => absurd (hhalf.symm.trans hbad.1) (by decide)
    · have h := lintelRemapDone_spec hh hp hc
      rw [show lintelSpare (getLintel s l.val) = none from hsp] at h
      exact h fun hbad => absurd hbad.2 (Nat.not_lt.2 hgood)
  · intro u v kind rest hch hown hk hon
    exact quarryKindChange_spec hch hown hk hon
  · intro u v line hk
    exact quarryEccError_spec hk line
  · intro u rq a x nc e1 e2 l halloc hlost hfind hserves
    refine ⟨⟨_, execRlcRead_hit halloc hlost hfind hserves e1 e2, setsTower_setTower ..⟩, fun off bs hoff hlen hhere => ?_⟩
    obtain ⟨cs, hexec⟩ := execRlcWrite_hit halloc hlost hfind hserves e1 hoff hlen hhere
    have hget : getTower (modTower (setCores s cs) u.val (lineFirst (a &&& ~~~63) (lineWritten l x.val off bs))) u.val =
        lineFirst (a &&& ~~~63) (lineWritten l x.val off bs) (getTower s u.val) := tget_tset_self ..
    refine ⟨_, _, hexec, rfl, congrArg TowerSt.rlc hget, rfl, rfl, rfl, rfl⟩
  · intro x
    obtain ⟨h1, h2⟩ := releaseFlush_spec s x
    obtain ⟨h3, h4⟩ := releaseFlushDone_spec s x
    exact ⟨h1, h2, h3, h4⟩
  · intro u way key l hoff hfind
    have hexec := execRlcEccError_double hoff hfind
    refine ⟨fun hd => ?_, fun hd => ?_, fun hlt => ⟨_, _, execRlcEccError_corrected hoff hlt, setsTower_setTower .., rfl⟩⟩
    · rw [hd] at hexec
      exact ⟨_, hexec, setsTower_setTower ..⟩
    · rw [hd] at hexec
      refine ⟨_, hexec, guiltyAll_blame (BlameSide.refl _), fun q hne hx => ?_⟩
      exact (guiltyAll_resets (lostCtxs s l) _).2 l.ctx (mem_lostCtxs s l) q hne hx

end Sys2Proof.Machine
end

section
/-!
PROOF. Span ports and lanes (R311 to R321, R328, R338): what a port sends, the width that its lanes form, holds, retraining, training,
flits and COMMIT.
-/

namespace Sys2Proof.Machine

/-! ## What a change of one port leaves alone -/

theorem setsPort_setPort (s : State) (p : Nat) (k : PortSt) : SetsPort s (setPort s p k) p k :=
  ⟨rfl, tget_tset_self .., fun _ hq => tget_tset_ne _ hq _⟩

theorem PortSide.refl (s : State) (p : Nat) : PortSide s s p := ⟨rfl, fun _ _ => rfl⟩

/-- What a port side changes of the package is taken from `u`. -/
def portParts (u r : State) : State :=
  { r with span := { r.span with ports := u.span.ports }, plumb := u.plumb, host := u.host, store := u.store, key := u.key, pins := u.pins }

theorem PortSide.trans {s t u : State} {p : Nat} (h : PortSide s t p) (g : PortSide t u p) : PortSide s u p := by
  have hp := congrArg (portParts u) h.package
  exact ⟨g.package.trans hp, fun q hq => (g.others q hq).trans (h.others q hq)⟩

theorem portSide_setPort (s : State) (p : Nat) (k : PortSt) : PortSide s (setPort s p k) p := ⟨rfl, fun _ hq => tget_tset_ne _ hq _⟩

theorem portSide_withPlumb (s : State) (p : Nat) (k : PlumbSt) : PortSide s (withPlumb s k) p := ⟨rfl, fun _ _ => rfl⟩

theorem RasSide.span {s t : State} (h : RasSide s t) : t.span = s.span := by rw [h]

theorem RasSide.plumb {s t : State} (h : RasSide s t) : t.plumb = s.plumb := by rw [h]

theorem RasSide.getPort {s t : State} (h : RasSide s t) (q : Nat) : getPort t q = getPort s q := by
  rw [Machine.getPort, h.span]
  rfl

theorem RasSide.portSide {s t : State} (h : RasSide s t) (p : Nat) : PortSide s t p := by
  refine ⟨?_, fun q _ => h.getPort q⟩
  unfold RasSide at h
  have hs := congrArg (portParts t) h
  exact hs

/-- The look for the source of the count changes neither the count nor its configuration. -/
theorem plumbCheck_plumb (s : State) : ∃ k, plumbCheck s = withPlumb s k ∧ k.count = s.plumb.count ∧ k.cfg = s.plumb.cfg ∧ k.cfgShadow = s.plumb.cfgShadow := by
  unfold plumbCheck
  extract_lets k
  split
  · exact ⟨s.plumb, rfl, rfl, rfl, rfl⟩
  · split
    · exact ⟨_, rfl, rfl, rfl, rfl⟩
    · split
      · exact ⟨_, rfl, rfl, rfl, rfl⟩
      · exact ⟨_, rfl, rfl, rfl, rfl⟩

theorem putPort_spec (s : State) (p : Nat) (k : PortSt) : PortSide s (putPort s p k) p ∧ getPort (putPort s p k) p = k ∧
    (putPort s p k).plumb.count = s.plumb.count := by
  obtain ⟨m, hm, hcount, _⟩ := plumbCheck_plumb (setPort s p k)
  rw [putPort, hm]
  exact ⟨(portSide_setPort s p k).trans (portSide_withPlumb _ p m), tget_tset_self .., hcount⟩

theorem report_none_ras {a s : State} {code : Code} {kind : Nat} {unit : BitVec 32} {detail : Nat} (h : RasSide a s) :
    RasSide a (report s [] code kind unit detail) := rasTo_ras h

/-! ## What a port sends (R313 to R316) -/

/-- The flits that left a port, and what it still owes of credits, from `o`. -/
def sentParts (o k : PortSt) : PortSt := { k with sent := o.sent, owed := o.owed }

theorem sendFlits_sent (cnt : BitVec 64) : ∀ (fs : List Flit) (k : PortSt), sendFlits cnt k fs = sentParts (sendFlits cnt k fs) k
  | [], _ => rfl
  | f :: fs, k => sendFlits_sent cnt fs (sendFlit cnt k f.seq false f.body)

theorem sendEmpty_sent (cnt : BitVec 64) (k : PortSt) : sendEmpty cnt k = sentParts (sendEmpty cnt k) k := rfl

/-- What an output that sends packets changes of its port, from `o`. -/
def pumpedParts (o k : PortSt) : PortSt :=
  { k with
    outq := o.outq, rr := o.rr, credits := o.credits, sent := o.sent, owed := o.owed, txNext := o.txNext, retry := o.retry }

theorem gather_parts : ∀ (f : Nat) (k : PortSt) (n : Nat) (ps : List SpanPkt), (gather f k n ps).1 = pumpedParts (gather f k n ps).1 k
  | 0, _, _, _ => rfl
  | f + 1, k, n, ps => by
    rw [gather]
    split
    · rfl
    · split
      · rfl
      · exact gather_parts f _ _ _

theorem transmit_parts (cnt : BitVec 64) (k : PortSt) (ps : List SpanPkt) : transmit cnt k ps = pumpedParts (transmit cnt k ps) k := by
  unfold transmit
  extract_lets fs k1
  have h1 : k1 = sentParts k1 k := sendFlits_sent cnt fs k
  rw [h1]
  rfl

theorem pump_parts (cnt : BitVec 64) (k : PortSt) : pump cnt k = pumpedParts (pump cnt k) k := by
  unfold pump
  have hg := gather_parts k.outq.length k 0 []
  split
  next k1 ps hk =>
    rw [hk] at hg
    have ht := transmit_parts cnt k1 ps
    have hp := congrArg (pumpedParts (transmit cnt k1 ps)) hg
    exact ht.trans hp

theorem transmit_none (cnt : BitVec 64) (k : PortSt) : transmit cnt k [] = k := by
  have hfs : flitsOf k.txNext [] = [] := rfl
  unfold transmit
  rw [hfs]
  simp [sendFlits]

theorem nextOut_stopped {k : PortSt} (h : k.st ≠ .up) (n : Nat) : nextOut k n = none := by
  have hno : ∀ p, maySend k n p = false := fun p => by
    unfold maySend
    rw [decide_eq_false h]
    simp
  unfold nextOut
  rw [List.find?_eq_none]
  intro i _
  cases hi : k.outq[i]? with
  | none => simp
  | some e => simp [hno]

/-- An output that is not UP sends nothing. -/
theorem pump_stopped {k : PortSt} (h : k.st ≠ .up) (cnt : BitVec 64) : pump cnt k = k := by
  have hg : ∀ f, gather f k 0 [] = (k, []) := fun f => by
    cases f with
    | zero => rfl
    | succ f => rw [gather, nextOut_stopped h]
  unfold pump
  rw [hg]
  exact transmit_none cnt k

theorem pumpPort_self (s : State) (p : Nat) : getPort (pumpPort s p) p = pump s.plumb.count (getPort s p) := tget_tset_self ..

theorem portSide_pumpPort (s : State) (p : Nat) : PortSide s (pumpPort s p) p := portSide_setPort ..

/-! ## The width that lanes form (R311) -/

/-- The lanes that pass `q`, the lowest first. -/
def lanesThat (q : Nat → Bool) : List Nat := (List.range 8).filter q

theorem mem_take_filter_range (q : Nat → Bool) (n m : Nat) : ∀ N : Nat,
    m ∈ ((List.range N).filter q).take n ↔ m < N ∧ q m = true ∧ ((List.range m).filter q).length < n
  | 0 => by simp
  | N + 1 => by
    rw [List.range_succ, List.filter_append, List.take_append, List.mem_append, mem_take_filter_range q n m N]
    by_cases hm : m = N
    · subst hm
      by_cases hq : q m = true
      · rw [List.filter_cons_of_pos hq, List.filter_nil]
        by_cases hn : ((List.range m).filter q).length < n
        · obtain ⟨j, hj⟩ : ∃ j, n - ((List.range m).filter q).length = j + 1 := ⟨n - ((List.range m).filter q).length - 1, by omega⟩
          rw [hj]
          simp [hq, hn]
        · rw [show n - ((List.range m).filter q).length = 0 by omega]
          simp [hn]
      · rw [List.filter_cons_of_neg hq]
        simp [hq]
    · have hnot : m ∉ ([N].filter q).take (n - ((List.range N).filter q).length) := fun hc =>
        hm (List.mem_singleton.1 (List.mem_filter.1 (List.mem_of_mem_take hc)).1)
      simp only [hnot, or_false]
      constructor
      · rintro ⟨h1, h2⟩
        exact ⟨by omega, h2⟩
      · rintro ⟨h1, h2⟩
        exact ⟨by omega, h2⟩

theorem laneOf_setLane (k : PortSt) (l m : Nat) (v : LaneSt) : laneOf (setLane k l v) m = if m = l then v else laneOf k m := by
  split
  · next h =>
    rw [h]
    exact tget_tset_self ..
  · next h => exact tget_tset_ne _ h _

/-- The lanes of a port are those of `o`. -/
def withLanes (o k : PortSt) : PortSt := { k with lanes := o.lanes }

theorem foldl_setLane (f : Nat → LaneSt) : ∀ (ls : List Nat) (k : PortSt), ls.foldl (fun o l => setLane o l (f l)) k = withLanes (ls.foldl (fun o l => setLane o l (f l)) k) k ∧
    ∀ m, laneOf (ls.foldl (fun o l => setLane o l (f l)) k) m = if m ∈ ls then f m else laneOf k m
  | [], _ => ⟨rfl, fun _ => by simp⟩
  | l :: ls, k => by
    obtain ⟨h1, h2⟩ := foldl_setLane f ls (setLane k l (f l))
    refine ⟨h1, fun m => ?_⟩
    rw [List.foldl_cons, h2, laneOf_setLane]
    by_cases hm : m = l
    · subst hm
      simp
    · simp [hm]

theorem goodLanes_eq (k : PortSt) : goodLanes k = lanesThat fun m => laneGood (laneOf k m) := by
  unfold goodLanes lanesThat
  congr 1
  funext l
  cases laneOf k l <;> rfl

theorem bothGood_eq (k : PortSt) : bothGood k = lanesThat fun m => laneGood (laneOf k m) && peerGood k m := by
  unfold bothGood
  rw [goodLanes_eq, lanesThat, lanesThat, List.filter_filter]
  congr 1
  funext l
  exact Bool.and_comm _ _

/-- The port with width `w`, before its lanes. -/
def withWidth (w : Nat) (k : PortSt) : PortSt := { k with width := BitVec.ofNat 2 w }

theorem atWidth_rest (k : PortSt) (w : Nat) : atWidth k w = withLanes (atWidth k w) (withWidth w k) := (foldl_setLane _ _ _).1

theorem atWidth_lanes (k : PortSt) (w m : Nat) (hm : m < 8) : laneOf (atWidth k w) m = if laneGood (laneOf k m) then
    (if peerGood k m = true ∧ ((List.range m).filter fun i => laneGood (laneOf k i) && peerGood k i).length < 8 / 2 ^ w then .active else .idle)
    else laneOf k m := by
  have h := (foldl_setLane (fun l => if ((bothGood k).take (lanesOf w)).contains l then .active else .idle) (goodLanes k) (withWidth w k)).2 m
  refine (show laneOf (atWidth k w) m = _ from h).trans ?_
  rw [goodLanes_eq, bothGood_eq, lanesThat, lanesThat]
  simp only [List.contains_iff_mem, mem_take_filter_range, List.mem_filter, List.mem_range, hm, true_and, lanesOf]
  split
  · next hg => simp [hg]
  · rfl

end Sys2Proof.Machine
end

section
/-!
PROOF. Span ports and lanes (R311 to R321, R328, R338), the commands: holds, retraining, training, flits and COMMIT.
-/

namespace Sys2Proof.Machine

/-! ## The width -/

theorem find_first4 (q : Nat → Bool) (h3 : q 3 = true) : ∃ w < 4, [0, 1, 2, 3].find? q = some w ∧ q w = true ∧ ∀ v < w, q v = false := by
  cases h0 : q 0 with
  | true => exact ⟨0, by omega, by simp [h0], h0, fun v hv => absurd hv (by omega)⟩
  | false =>
    cases h1 : q 1 with
    | true => exact ⟨1, by omega, by simp [h0, h1], h1, fun v hv => by rw [show v = 0 by omega, h0]⟩
    | false =>
      cases h2 : q 2 with
      | true =>
        refine ⟨2, by omega, by simp [h0, h1, h2], h2, fun v hv => ?_⟩
        rcases (show v = 0 ∨ v = 1 by omega) with rfl | rfl <;> assumption
      | false =>
        refine ⟨3, by omega, by simp [h0, h1, h2, h3], h3, fun v hv => ?_⟩
        rcases (show v = 0 ∨ v = 1 ∨ v = 2 by omega) with rfl | rfl | rfl <;> assumption

theorem maxCode_lt (k : PortSt) : maxCode k < 4 := by
  unfold maxCode
  have h1 : bf k.cfg 30 29 < 4 := bf_lt k.cfg 30 29
  cases k.peer with
  | none => exact Nat.max_lt.2 ⟨h1, by decide⟩
  | some x => exact Nat.max_lt.2 ⟨h1, x.maxw.isLt⟩

/-- A port with a lane that is good at both ends forms a width (R311). -/
theorem formWidth_formed (k : PortSt) (f : Nat → LaneSt) (hf : ∀ m < 8, laneOf k m = f m)
    (h : 1 ≤ ((List.range 8).filter fun m => laneGood (f m) && peerGood k m).length) :
    ∃ w, formWidth k = some w ∧ FormedAt f (peerGood k) (maxCode k) w (atWidth k w) := by
  have hsame : ∀ n ≤ 8, (List.range n).filter (fun m => laneGood (laneOf k m) && peerGood k m) =
      (List.range n).filter fun m => laneGood (f m) && peerGood k m := fun n hn =>
    List.filter_congr fun m hm => by rw [hf m (Nat.lt_of_lt_of_le (List.mem_range.1 hm) hn)]
  have hboth : bothGood k = (List.range 8).filter fun m => laneGood (f m) && peerGood k m :=
    (bothGood_eq k).trans (hsame 8 (Nat.le_refl 8))
  have hmax := maxCode_lt k
  obtain ⟨w, hw4, hfind, hw, hbelow⟩ := find_first4 (fun w => decide (maxCode k ≤ w ∧ lanesOf w ≤ (bothGood k).length))
    (decide_eq_true ⟨by omega, by rw [hboth]; exact h⟩)
  have hq := of_decide_eq_true hw
  rw [hboth] at hq
  refine ⟨w, hfind, ⟨hq.1, hw4⟩, hq.2, fun v hv hlt => ?_, ?_, fun m hm => ?_⟩
  · have hno := of_decide_eq_false (hbelow v hlt)
    rw [hboth] at hno
    exact Nat.lt_of_not_le fun hle => hno ⟨hv, hle⟩
  · rw [atWidth_rest]
    exact (BitVec.toNat_ofNat _ _).trans (Nat.mod_eq_of_lt hw4)
  · rw [atWidth_lanes k w m hm, hsame m (Nat.le_of_lt hm), hf m hm]

/-- How lanes have formed depends on the lanes and the width alone. -/
theorem FormedAt.congr {f : Nat → LaneSt} {g : Nat → Bool} {maxw w : Nat} {k o : PortSt} (h : FormedAt f g maxw w k) (hl : o.lanes = k.lanes)
    (hw : o.width = k.width) : FormedAt f g maxw w o := by
  refine ⟨h.code, h.enough, h.widest, hw ▸ h.width, fun m hm => ?_⟩
  rw [laneOf, hl]
  exact h.lanes m hm

theorem atWidth_st (k : PortSt) (w : Nat) : (atWidth k w).st = k.st := by
  rw [atWidth_rest]
  rfl

theorem atWidth_fields (k : PortSt) (w : Nat) : (atWidth k w).retry = k.retry ∧ (atWidth k w).replays = k.replays ∧
    (atWidth k w).holding = k.holding ∧ (atWidth k w).leaving = k.leaving ∧ (atWidth k w).pendLeave = k.pendLeave ∧
    (atWidth k w).attempts = k.attempts ∧ (atWidth k w).peer = k.peer ∧ (atWidth k w).pver = k.pver ∧ (atWidth k w).rxNext = k.rxNext ∧
    (atWidth k w).txNext = k.txNext := by
  rw [atWidth_rest]
  exact ⟨rfl, rfl, rfl, rfl, rfl, rfl, rfl, rfl, rfl, rfl⟩

theorem portLive_iff (s : State) (p : Nat) : portLive s p = true ↔ (getPort s p).st = .held ∨ (getPort s p).st = .up := by
  unfold portLive
  cases (getPort s p).st <;> simp

theorem portLive_congr {s t : State} {p : Nat} (h : (getPort t p).st = (getPort s p).st) : portLive t p = portLive s p := by
  unfold portLive
  rw [h]

/-- The width formed again from lanes that suffice. -/
theorem reform_spec (s : State) (p : Nat) (f : Nat → LaneSt) (hf : ∀ m < 8, laneOf (getPort s p) m = f m)
    (h : 1 ≤ ((List.range 8).filter fun m => laneGood (f m) && peerGood (getPort s p) m).length) :
    ∃ w, PortSide s (reform s p) p ∧ (reform s p).plumb = s.plumb ∧ getPort (reform s p) p = atWidth (getPort s p) w ∧
      FormedAt f (peerGood (getPort s p)) (maxCode (getPort s p)) w (atWidth (getPort s p) w) := by
  obtain ⟨w, hw, hform⟩ := formWidth_formed _ f hf h
  have hport := portSide_setPort s p (atWidth (getPort s p) w)
  have hras := report_none_ras (code := St.linkDegraded) (kind := 3) (unit := unitId (setPort s p (atWidth (getPort s p) w)) 0xB p)
    (detail := 0) (RasSide.refl (setPort s p (atWidth (getPort s p) w)))
  refine ⟨w, ?_⟩
  unfold reform
  dsimp only
  rw [hw]
  dsimp only
  split
  · exact ⟨hport.trans (hras.portSide p), hras.plumb, (hras.getPort p).trans (tget_tset_self ..), hform⟩
  · exact ⟨hport, rfl, tget_tset_self .., hform⟩

/-! ## Lanes that leave, and their retirement -/

theorem retireLane_spec (s : State) (p l : Nat) (o : Option Nat) (h : laneOf (getPort s p) l ≠ .retired) :
    RasSide (setPort s p (setLane (getPort s p) l .retired)) (retireLane s p l o) := by
  unfold retireLane
  rw [if_neg h]
  exact report_none_ras (recUnits_ras (withStore_ras (RasSide.refl _)))

/-- What a lane that leaves changes of its port is taken from `o`. -/
def laneParts (o k : PortSt) : PortSt := { k with lanes := o.lanes, leaves := o.leaves }

/-- A port whose lane `l` has begun to retrain, with the history of its lanes' leaves. -/
def leftLane (k : PortSt) (h : List (Nat × Nat)) (l : Nat) : PortSt := setLane { k with leaves := h } l (.retrain 0)

theorem leftLane_lanes (k : PortSt) (h : List (Nat × Nat)) (l m : Nat) : laneOf (leftLane k h l) m = if m = l then .retrain 0 else laneOf k m :=
  laneOf_setLane ..

/-- A lane that leaves goes into RETRAIN, or is RETIRED on its fourth leave within 1 s (R317, R318). -/
theorem laneGoes_spec (s : State) (p l : Nat) : PortSide s (laneGoes s p l) p ∧ (laneGoes s p l).plumb = s.plumb ∧
    getPort (laneGoes s p l) p = laneParts (getPort (laneGoes s p l) p) (getPort s p) ∧
    ∀ m, laneOf (getPort (laneGoes s p l) p) m = if m = l then
      (if 4 ≤ countWithin (getPort s p).leaves l s.now 1000000000 then .retired else .retrain 0) else laneOf (getPort s p) m := by
  obtain ⟨h, hgo⟩ : ∃ h, laneGoes s p l = if 4 ≤ countWithin (getPort s p).leaves l s.now 1000000000 then
      retireLane (setPort s p (leftLane (getPort s p) h l)) p l none else setPort s p (leftLane (getPort s p) h l) :=
    ⟨(histAdd (getPort s p).leaves l s.now 1000000000).1, by rw [← histAdd_snd]; rfl⟩
  rw [hgo]
  have hport := portSide_setPort s p (leftLane (getPort s p) h l)
  have hget : getPort (setPort s p (leftLane (getPort s p) h l)) p = leftLane (getPort s p) h l := tget_tset_self ..
  have hplumb : (setPort s p (leftLane (getPort s p) h l)).plumb = s.plumb := rfl
  generalize setPort s p (leftLane (getPort s p) h l) = s1 at hport hget hplumb
  split
  · have hnot : laneOf (getPort s1 p) l ≠ .retired := by
      rw [hget, leftLane_lanes, if_pos rfl]
      exact LaneSt.noConfusion
    have hras := retireLane_spec s1 p l none hnot
    have hgot : getPort (retireLane s1 p l none) p = setLane (leftLane (getPort s p) h l) l .retired := (hras.getPort p).trans (by
      rw [hget]
      exact tget_tset_self ..)
    refine ⟨hport.trans ((portSide_setPort ..).trans (hras.portSide p)), hras.plumb.trans hplumb, by rw [hgot]; rfl, fun m => ?_⟩
    rw [hgot, laneOf_setLane, leftLane_lanes]
    split <;> rfl
  · exact ⟨hport, hplumb, by rw [hget]; rfl, fun m => by rw [hget, leftLane_lanes]⟩

/-- The end of training and of a retraining brings the lanes in RETRAIN back (R319). -/
def backLane (k : PortSt) (l : Nat) : PortSt := match laneOf k l with
  | .retrain _ => setLane k l .idle
  | .active | .idle | .retired => k

theorem backLane_spec (k : PortSt) (l : Nat) : backLane k l = withLanes (backLane k l) k ∧
    ∀ m, laneOf (backLane k l) m = if m = l then lanesBack k m else laneOf k m := by
  have hkeep : ∀ v, laneOf k l = v → (∀ n, v ≠ .retrain n) → ∀ m, laneOf k m = if m = l then lanesBack k m else laneOf k m := by
    intro v hv hno m
    split
    · next hm =>
      subst hm
      unfold lanesBack
      cases hl : laneOf k m with
      | retrain n => exact absurd (hv.symm.trans hl) (hno n)
      | active | idle | retired => rfl
    · rfl
  unfold backLane
  cases hl : laneOf k l with
  | retrain n =>
    refine ⟨rfl, fun m => ?_⟩
    rw [laneOf_setLane]
    split
    · next hm => rw [hm, lanesBack, hl]
    · rfl
  | active => exact ⟨rfl, hkeep _ hl (by simp)⟩
  | idle => exact ⟨rfl, hkeep _ hl (by simp)⟩
  | retired => exact ⟨rfl, hkeep _ hl (by simp)⟩

theorem foldl_backLane : ∀ (ls : List Nat) (k : PortSt), ls.foldl backLane k = withLanes (ls.foldl backLane k) k ∧
    ∀ m, laneOf (ls.foldl backLane k) m = if m ∈ ls then lanesBack k m else laneOf k m
  | [], _ => ⟨rfl, fun _ => by simp⟩
  | l :: ls, k => by
    obtain ⟨h1, h2⟩ := foldl_backLane ls (backLane k l)
    obtain ⟨g1, g2⟩ := backLane_spec k l
    refine ⟨?_, fun m => ?_⟩
    · have hp := congrArg (withLanes (ls.foldl backLane (backLane k l))) g1
      exact h1.trans hp
    · rw [List.foldl_cons, h2]
      by_cases hm : m = l
      · subst hm
        have hb : laneOf (backLane k m) m = lanesBack k m := by rw [g2, if_pos rfl]
        have hbb : lanesBack (backLane k m) m = lanesBack k m := by
          rw [lanesBack, hb, lanesBack]
          cases laneOf k m <;> rfl
        rw [hb, hbb]
        simp
      · have hb : laneOf (backLane k l) m = laneOf k m := by rw [g2, if_neg hm]
        have hbb : lanesBack (backLane k l) m = lanesBack k m := by rw [lanesBack, hb, lanesBack]
        rw [hb, hbb]
        simp [hm]

/-! ## Replay, and the port that carries on -/

theorem replay_parts (cnt : BitVec 64) (k : PortSt) : (replay cnt k).retry = (k.retry.map fun f => { f with resent := f.resent + 1 }) ∧
    (replay cnt k).replays.toNat = min 65535 (k.replays.toNat + k.retry.length) ∧ (replay cnt k).lanes = k.lanes ∧
    (replay cnt k).width = k.width ∧ (replay cnt k).holding = k.holding ∧ (replay cnt k).leaving = k.leaving ∧
    (replay cnt k).pendLeave = k.pendLeave ∧ (replay cnt k).st = k.st ∧ (replay cnt k).attempts = k.attempts := by
  unfold replay
  rw [sendFlits_sent]
  refine ⟨rfl, ?_, rfl, rfl, rfl, rfl, rfl, rfl, rfl⟩
  exact (BitVec.toNat_ofNat _ _).trans (Nat.mod_eq_of_lt (by omega))

theorem replayed_spec (s : State) (p : Nat) (cnt : BitVec 64) (h : s.plumb.count = cnt) : PortSide s (pumpPort (modPort s p (replay cnt)) p) p ∧
    getPort (pumpPort (modPort s p (replay cnt)) p) p = pump cnt (replay cnt (getPort s p)) := by
  refine ⟨(portSide_setPort ..).trans (portSide_pumpPort ..), ?_⟩
  rw [pumpPort_self]
  have hget : getPort (modPort s p (replay cnt)) p = replay cnt (getPort s p) := tget_tset_self ..
  rw [hget]
  exact congrArg (fun c => pump c _) h

theorem forEach_laneGoes (p : Nat) : ∀ (ls : List Nat) (s : State), PortSide s (forEach s ls fun s l => laneGoes s p l) p ∧
    (forEach s ls fun s l => laneGoes s p l).plumb = s.plumb ∧
    getPort (forEach s ls fun s l => laneGoes s p l) p = laneParts (getPort (forEach s ls fun s l => laneGoes s p l) p) (getPort s p)
  | [], s => ⟨.refl s p, rfl, rfl⟩
  | l :: ls, s => by
    obtain ⟨h1, h2, h3, _⟩ := laneGoes_spec s p l
    obtain ⟨g1, g2, g3⟩ := forEach_laneGoes p ls (laneGoes s p l)
    have hp := congrArg (laneParts (getPort (forEach (laneGoes s p l) ls fun s l => laneGoes s p l) p)) h3
    exact ⟨h1.trans g1, g2.trans h2, g3.trans hp⟩

theorem portRetrain_spec (s : State) (p : Nat) : PortSide s (portRetrain s p) p ∧ (getPort (portRetrain s p) p).st = .retrain ∧
    (getPort (portRetrain s p) p).attempts = 0 ∧ (getPort (portRetrain s p) p).holding = false ∧
    (getPort (portRetrain s p) p).wasHeld = decide ((getPort s p).st = .held) := by
  obtain ⟨h1, h2, _⟩ := putPort_spec s p { getPort s p with st := .retrain, attempts := 0, wasHeld := decide ((getPort s p).st = .held), holding := false, leaving := [], pendLeave := [] }
  unfold portRetrain
  rw [h2]
  exact ⟨h1, rfl, rfl, rfl, rfl⟩

/-! ## Holds (R317) -/

theorem laneLeave_runs {s : State} {p : Port} {l : Fin 8} {why : LaneWhy} (hlive : portLive s p.val = true) (hact : laneOf (getPort s p.val) l.val = .active)
    (hl : l.val ∉ (getPort s p.val).leaving) (hp : l.val ∉ (getPort s p.val).pendLeave) :
    ∃ t, exec (.laneLeave p l why) s = .next t ∧ SetsPort s t p.val
      (if (getPort s p.val).holding ∧ (getPort s p.val).holdAt ≠ s.now then
        { getPort s p.val with pendLeave := (getPort s p.val).pendLeave ++ [l.val] }
      else { getPort s p.val with holding := true, holdAt := s.now, leaving := (getPort s p.val).leaving ++ [l.val] }) := by
  have hgo : ¬ ((!portLive s p.val) = true ∨ laneOf (getPort s p.val) l.val ≠ .active ∨ (getPort s p.val).leaving.contains l.val = true ∨
      (getPort s p.val).pendLeave.contains l.val = true) := by simp [hlive, hact, hl, hp]
  have hexec : exec (.laneLeave p l why) s = execLaneLeave p l why s := rfl
  rw [hexec, execLaneLeave, if_neg hgo]
  split
  · exact ⟨_, rfl, setsPort_setPort ..⟩
  · exact ⟨_, rfl, setsPort_setPort ..⟩

theorem portHoldEnd_retrains {s : State} {p : Port} (hh : (getPort s p.val).holding = true) (hlive : portLive s p.val = true)
    (hlt : (activeLanes (getPort s p.val)).length < 2 * (getPort s p.val).leaving.length) :
    ∃ t, exec (.portHoldEnd p) s = .next t ∧ PortSide s t p.val ∧ (getPort t p.val).st = .retrain ∧ (getPort t p.val).attempts = 0 ∧
      (getPort t p.val).holding = false ∧ (getPort t p.val).wasHeld = decide ((getPort s p.val).st = .held) := by
  have hexec : exec (.portHoldEnd p) s = execPortHoldEnd p s := rfl
  have hgo : ¬ (!((getPort s p.val).holding && portLive s p.val)) = true := by simp [hh, hlive]
  rw [hexec, execPortHoldEnd, if_neg hgo, if_pos hlt]
  obtain ⟨h1, _, h3⟩ := forEach_laneGoes p.val (getPort s p.val).leaving s
  obtain ⟨g1, g2, g3, g4, g5⟩ := portRetrain_spec (forEach s (getPort s p.val).leaving fun s l => laneGoes s p.val l) p.val
  rw [h3] at g5
  exact ⟨_, rfl, h1.trans g1, g2, g3, g4, g5⟩

/-- A port whose hold for the lanes that leave now ends, the next of those that wait beginning one of its own. -/
def holdNext (k : PortSt) (now : Nat) : PortSt :=
  { k with holding := decide (k.pendLeave ≠ []), holdAt := now, leaving := k.pendLeave.take 1, pendLeave := k.pendLeave.drop 1 }

/-- The hold of one lane ends: the width is formed again without it and the retry buffer replays. -/
theorem portHoldEnd_reforms {s : State} {p : Port} {l : Fin 8} (hh : (getPort s p.val).holding = true) (hlive : portLive s p.val = true)
    (hone : (getPort s p.val).leaving = [l.val]) (hact : 2 ≤ (activeLanes (getPort s p.val)).length)
    (hm : ∃ m < 8, m ≠ l.val ∧ laneGood (laneOf (getPort s p.val) m) = true ∧ peerGood (getPort s p.val) m = true) :
    ∃ t o w, exec (.portHoldEnd p) s = .next t ∧ PortSide s t p.val ∧ getPort t p.val = pump s.plumb.count (replay s.plumb.count o) ∧
      FormedAt (fun m => if m = l.val then (if 4 ≤ countWithin (getPort s p.val).leaves l.val s.now 1000000000 then .retired else .retrain 0)
        else laneOf (getPort s p.val) m) (peerGood (getPort s p.val)) (maxCode (getPort s p.val)) w o ∧
      o.retry = (getPort s p.val).retry ∧ o.replays = (getPort s p.val).replays ∧ o.holding = decide ((getPort s p.val).pendLeave ≠ []) ∧
      o.leaving = (getPort s p.val).pendLeave.take 1 ∧ o.pendLeave = (getPort s p.val).pendLeave.drop 1 := by
  have hexec : exec (.portHoldEnd p) s = execPortHoldEnd p s := rfl
  have hgo : ¬ (!((getPort s p.val).holding && portLive s p.val)) = true := by simp [hh, hlive]
  have hge : ¬ (activeLanes (getPort s p.val)).length < 2 * (getPort s p.val).leaving.length := by
    rw [hone]
    exact Nat.not_lt.2 hact
  rw [hexec, execPortHoldEnd, if_neg hgo, if_neg hge, hone]
  obtain ⟨a1, a2, a3, a4⟩ := laneGoes_spec (setPort s p.val (holdNext (getPort s p.val) s.now)) p.val l.val
  have hget : getPort (setPort s p.val (holdNext (getPort s p.val) s.now)) p.val = holdNext (getPort s p.val) s.now := tget_tset_self ..
  rw [hget] at a3 a4
  have hpeer : peerGood (getPort (laneGoes (setPort s p.val (holdNext (getPort s p.val) s.now)) p.val l.val) p.val) = peerGood (getPort s p.val) := by
    rw [a3]
    rfl
  obtain ⟨m, hm8, hml, hgood, hpg⟩ := hm
  obtain ⟨w, b1, b2, b3, b4⟩ := reform_spec (laneGoes (setPort s p.val (holdNext (getPort s p.val) s.now)) p.val l.val) p.val _ (fun m _ => a4 m)
    (List.length_pos_iff_exists_mem.2 ⟨m, List.mem_filter.2 ⟨List.mem_range.2 hm8, by
      rw [if_neg hml, hpeer, hpg, Bool.and_true]
      exact hgood⟩⟩)
  have hst : (getPort (reform (laneGoes (setPort s p.val (holdNext (getPort s p.val) s.now)) p.val l.val) p.val) p.val).st = (getPort s p.val).st := by
    rw [b3, atWidth_st, a3]
    rfl
  have hlast := (portLive_congr hst).trans hlive
  obtain ⟨c1, c2⟩ := replayed_spec (reform (laneGoes (setPort s p.val (holdNext (getPort s p.val) s.now)) p.val l.val) p.val) p.val s.plumb.count
    (congrArg PlumbSt.count (b2.trans a2))
  rw [b3] at c2
  refine ⟨_, atWidth (getPort (laneGoes (setPort s p.val (holdNext (getPort s p.val) s.now)) p.val l.val) p.val) w, w,
    if_neg fun hc => Bool.false_ne_true ((congrArg not hlast).symm.trans hc), ((portSide_setPort ..).trans a1).trans (b1.trans c1), c2, ?_, ?_⟩
  · have hmax : maxCode (getPort (laneGoes (setPort s p.val (holdNext (getPort s p.val) s.now)) p.val l.val) p.val) = maxCode (getPort s p.val) := by
      rw [a3]
      rfl
    rw [hpeer, hmax] at b4
    exact b4
  · obtain ⟨d1, d2, d3, d4, d5, _⟩ := atWidth_fields (getPort (laneGoes (setPort s p.val (holdNext (getPort s p.val) s.now)) p.val l.val) p.val) w
    exact ⟨d1.trans (congrArg PortSt.retry a3 :), d2.trans (congrArg PortSt.replays a3 :), d3.trans (congrArg PortSt.holding a3 :),
      d4.trans (congrArg PortSt.leaving a3 :), d5.trans (congrArg PortSt.pendLeave a3 :)⟩

/-- A lane that is RETIRED before the width is formed stays so. -/
theorem formed_retired {f : Nat → LaneSt} {g : Nat → Bool} {maxw w l : Nat} {k : PortSt} (h : FormedAt f g maxw w k) (hl : l < 8)
    (hf : f l = .retired) : laneOf k l = .retired := by
  rw [h.lanes l hl, hf]
  rfl

theorem pump_lanes (cnt : BitVec 64) (k : PortSt) (l : Nat) : laneOf (pump cnt k) l = laneOf k l := by
  rw [pump_parts]
  rfl

/-! ## Retraining of lanes and ports (R318 to R320) -/

theorem laneRetrainAttemptEnd_passes {s : State} {p : Port} {l : Fin 8} {n : Nat} (hl : laneOf (getPort s p.val) l.val = .retrain n)
    (hlive : portLive s p.val = true) : ∃ t, exec (.laneRetrainAttemptEnd p l true) s = .next t ∧
      SetsPort s t p.val { setLane (getPort s p.val) l.val .idle with
        holding := true, holdAt := if (getPort s p.val).holding then (getPort s p.val).holdAt else s.now } := by
  have hexec : exec (.laneRetrainAttemptEnd p l true) s = execLaneRetrainAttemptEnd p l true s := rfl
  rw [hexec, execLaneRetrainAttemptEnd, hl]
  dsimp only
  rw [if_neg (by simp [hlive]), if_pos rfl]
  exact ⟨_, rfl, setsPort_setPort ..⟩

theorem laneRetrainAttemptEnd_fails {s : State} {p : Port} {l : Fin 8} {n : Nat} (hl : laneOf (getPort s p.val) l.val = .retrain n)
    (hlive : portLive s p.val = true) :
    (n < 2 → ∃ t, exec (.laneRetrainAttemptEnd p l false) s = .next t ∧ SetsPort s t p.val (setLane (getPort s p.val) l.val (.retrain (n + 1)))) ∧
    (2 ≤ n → ∃ t s1, exec (.laneRetrainAttemptEnd p l false) s = .next t ∧ SetsPort s s1 p.val (setLane (getPort s p.val) l.val .retired) ∧
      RasSide s1 t) := by
  have hexec : exec (.laneRetrainAttemptEnd p l false) s = execLaneRetrainAttemptEnd p l false s := rfl
  rw [hexec, execLaneRetrainAttemptEnd, hl]
  dsimp only
  rw [if_neg (by simp [hlive]), if_neg Bool.false_ne_true]
  constructor
  · intro hn
    rw [if_pos hn]
    exact ⟨_, rfl, setsPort_setPort ..⟩
  · intro hn
    rw [if_neg (Nat.not_lt.2 hn)]
    exact ⟨_, _, rfl, setsPort_setPort .., retireLane_spec s p.val l.val none (by rw [hl]; exact LaneSt.noConfusion)⟩

/-- The lanes and the state of a port that passes its retraining. -/
def backPort (k : PortSt) : PortSt := (List.range 8).foldl backLane { k with st := if k.wasHeld then .held else .up, attempts := 0 }

theorem backPort_spec (k : PortSt) : (backPort k).st = (if k.wasHeld then .held else .up) ∧ (backPort k).attempts = 0 ∧
    (backPort k).retry = k.retry ∧ peerGood (backPort k) = peerGood k ∧ maxCode (backPort k) = maxCode k ∧
    ∀ m < 8, laneOf (backPort k) m = lanesBack k m := by
  obtain ⟨a1, a2⟩ := foldl_backLane (List.range 8) { k with st := if k.wasHeld then .held else .up, attempts := 0 }
  have hrest : backPort k = withLanes (backPort k) { k with st := if k.wasHeld then .held else .up, attempts := 0 } := a1
  refine ⟨(congrArg PortSt.st hrest :), (congrArg PortSt.attempts hrest :), (congrArg PortSt.retry hrest :), (congrArg peerGood hrest :), (congrArg maxCode hrest :), fun m hm => ?_⟩
  have hlane := a2 m
  rw [if_pos (List.mem_range.2 hm)] at hlane
  exact hlane

theorem portRetrain_run {s : State} {p : Port} (hst : (getPort s p.val).st = .retrain) :
    exec (.portRetrainAttemptEnd p true []) s =
      if (!portLive (reform (putPort s p.val (backPort (getPort s p.val))) p.val) p.val) = true then .next (reform (putPort s p.val (backPort (getPort s p.val))) p.val)
      else .next (pumpPort (modPort (reform (putPort s p.val (backPort (getPort s p.val))) p.val) p.val (replay s.plumb.count)) p.val) := by
  have hexec : exec (.portRetrainAttemptEnd p true []) s = execPortRetrainAttemptEnd p true [] s := rfl
  have hgo : ¬ ((getPort s p.val).st ≠ .retrain ∧ ¬ ((getPort s p.val).st = .training ∧ true = false)) := fun h => h.1 hst
  rw [hexec, execPortRetrainAttemptEnd, if_neg hgo, if_neg (by decide)]
  rfl

/-- A port that passes its whole-port retraining carries on as before it (R320). -/
theorem portRetrain_passes {s : State} {p : Port} (hst : (getPort s p.val).st = .retrain)
    (hgood : 1 ≤ ((List.range 8).filter fun m => laneGood (lanesBack (getPort s p.val) m) && peerGood (getPort s p.val) m).length) :
    ∃ t o w, exec (.portRetrainAttemptEnd p true []) s = .next t ∧ PortSide s t p.val ∧ getPort t p.val = pump s.plumb.count o ∧
      o.st = (if (getPort s p.val).wasHeld then .held else .up) ∧ o.attempts = 0 ∧
      FormedAt (lanesBack (getPort s p.val)) (peerGood (getPort s p.val)) (maxCode (getPort s p.val)) w o ∧
      o.retry = (getPort s p.val).retry.map fun f => { f with resent := f.resent + 1 } := by
  rw [portRetrain_run hst]
  obtain ⟨a1, a2, a3, a4, a5, a6⟩ := backPort_spec (getPort s p.val)
  obtain ⟨b1, b2, b3⟩ := putPort_spec s p.val (backPort (getPort s p.val))
  rw [← b2] at a1 a2 a3 a4 a5 a6
  rw [← a4] at hgood
  obtain ⟨w, c1, c2, c3, c4⟩ := reform_spec (putPort s p.val (backPort (getPort s p.val))) p.val _ a6 hgood
  rw [← a4, ← a5, ← a1, ← a3]
  have hlast : portLive (reform (putPort s p.val (backPort (getPort s p.val))) p.val) p.val = true := by
    rw [portLive_iff, c3, atWidth_st, a1]
    cases (getPort s p.val).wasHeld <;> simp
  obtain ⟨d1, d2⟩ := replayed_spec (reform (putPort s p.val (backPort (getPort s p.val))) p.val) p.val s.plumb.count
    ((congrArg PlumbSt.count c2).trans b3)
  rw [c3] at d2
  obtain ⟨e1, _, e3, e4, _, _, _, e8, e9⟩ := replay_parts s.plumb.count (atWidth (getPort (putPort s p.val (backPort (getPort s p.val))) p.val) w)
  obtain ⟨f1, _, _, _, _, f6, _⟩ := atWidth_fields (getPort (putPort s p.val (backPort (getPort s p.val))) p.val) w
  exact ⟨_, replay s.plumb.count (atWidth (getPort (putPort s p.val (backPort (getPort s p.val))) p.val) w), w,
    if_neg fun hc => Bool.false_ne_true ((congrArg not hlast).symm.trans hc), b1.trans (c1.trans d1), d2, e8.trans (atWidth_st ..),
    e9.trans (f6.trans a2), c4.congr e3 e4, by rw [e1, f1]⟩

end Sys2Proof.Machine
end

section
/-!
PROOF. Span ports (R311 to R321, R328, R338): ports that fail or stop, training, flits and COMMIT.
-/

namespace Sys2Proof.Machine

/-! ## What a port that stops sends on (R328) -/

/-- What packets that come to a port's output change of it, from `o`. -/
def carriedParts (o k : PortSt) : PortSt :=
  { k with
    outq := o.outq, rr := o.rr, credits := o.credits, sent := o.sent, owed := o.owed, txNext := o.txNext, retry := o.retry, drops := o.drops }

/-- Port `p` is as it was but for the packets that came to its output; power and the shadow of PLUMB_CFG stand. -/
structure CarriesPort (s t : State) (p : Nat) : Prop where
  power : t.power = s.power
  now : t.now = s.now
  shadow : t.plumb.cfgShadow = s.plumb.cfgShadow
  port : getPort t p = carriedParts (getPort t p) (getPort s p)
  stopped : (getPort s p).st ≠ .up → (getPort t p).retry = (getPort s p).retry

theorem CarriesPort.refl (s : State) (p : Nat) : CarriesPort s s p := ⟨rfl, rfl, rfl, rfl, fun _ => rfl⟩

theorem CarriesPort.st {s t : State} {p : Nat} (h : CarriesPort s t p) : (getPort t p).st = (getPort s p).st := (congrArg PortSt.st h.port :)
theorem CarriesPort.cfg {s t : State} {p : Nat} (h : CarriesPort s t p) : (getPort t p).cfg = (getPort s p).cfg := (congrArg PortSt.cfg h.port :)
theorem CarriesPort.cfgShadow {s t : State} {p : Nat} (h : CarriesPort s t p) : (getPort t p).cfgShadow = (getPort s p).cfgShadow :=
  (congrArg PortSt.cfgShadow h.port :)
theorem CarriesPort.dcause {s t : State} {p : Nat} (h : CarriesPort s t p) : (getPort t p).dcause = (getPort s p).dcause :=
  (congrArg PortSt.dcause h.port :)
theorem CarriesPort.downAt {s t : State} {p : Nat} (h : CarriesPort s t p) : (getPort t p).downAt = (getPort s p).downAt :=
  (congrArg PortSt.downAt h.port :)
theorem CarriesPort.holding {s t : State} {p : Nat} (h : CarriesPort s t p) : (getPort t p).holding = (getPort s p).holding :=
  (congrArg PortSt.holding h.port :)

theorem CarriesPort.trans {s t u : State} {p : Nat} (h : CarriesPort s t p) (g : CarriesPort t u p) : CarriesPort s u p := by
  have hp := congrArg (carriedParts (getPort u p)) h.port
  exact ⟨g.power.trans h.power, g.now.trans h.now, g.shadow.trans h.shadow, g.port.trans hp, fun hst =>
    (g.stopped (h.st ▸ hst)).trans (h.stopped hst)⟩

theorem forEach_carries {α : Type} {f : State → α → State} {p : Nat} (hf : ∀ s x, CarriesPort s (f s x) p) :
    ∀ (l : List α) (s : State), CarriesPort s (forEach s l f) p
  | [], s => .refl s p
  | x :: l, s => (hf s x).trans (forEach_carries hf l (f s x))

/-- A change of another port leaves port `p`. -/
theorem setPort_carries {q p : Nat} (h : p ≠ q) (s : State) (k : PortSt) : CarriesPort s (setPort s q k) p := by
  have hget : getPort (setPort s q k) p = getPort s p := tget_tset_ne _ h _
  exact ⟨rfl, rfl, rfl, by rw [hget]; rfl, fun _ => by rw [hget]⟩

theorem modPort_carries {s : State} {q p : Nat} {f : PortSt → PortSt} (hf : ∀ k, f k = carriedParts (f k) k) (hr : ∀ k, k.st ≠ .up → (f k).retry = k.retry) :
    CarriesPort s (modPort s q f) p := by
  by_cases h : p = q
  · subst h
    have hget : getPort (modPort s p f) p = f (getPort s p) := tget_tset_self ..
    exact ⟨rfl, rfl, rfl, by rw [hget]; exact hf _, fun hst => by rw [hget]; exact hr _ hst⟩
  · exact setPort_carries h s _

theorem pumpPort_carries (s : State) (q p : Nat) : CarriesPort s (pumpPort s q) p :=
  modPort_carries (fun k => (pump_parts _ k).trans (by rw [pump_parts]; rfl)) fun k hst => by rw [pump_stopped hst]

theorem enqueueOn_carries (s : State) (q : Nat) (x : SpanPkt) (τ i p : Nat) : CarriesPort s (enqueueOn s q x τ i) p := by
  have h : CarriesPort s (modPort s q fun o => { o with outq := o.outq ++ [(x, τ, i)] }) p := modPort_carries (fun _ => rfl) fun _ _ => rfl
  exact h.trans (pumpPort_carries ..)

theorem rasSide_carries {s t : State} (h : RasSide s t) (p : Nat) : CarriesPort s t p := by
  have hpow : t.power = s.power := by rw [h]
  have hnow : t.now = s.now := by rw [h]
  have hget := h.getPort p
  exact ⟨hpow, hnow, by rw [h.plumb], by rw [hget]; rfl, fun _ => by rw [hget]⟩

theorem plumbCheck_carries (s : State) (p : Nat) : CarriesPort s (plumbCheck s) p := by
  obtain ⟨m, hm, _, _, hshadow⟩ := plumbCheck_plumb s
  rw [hm]
  exact ⟨rfl, rfl, hshadow, rfl, fun _ => rfl⟩

theorem putPort_carries {q p : Nat} (h : p ≠ q) (s : State) (k : PortSt) : CarriesPort s (putPort s q k) p :=
  (setPort_carries h s k).trans (plumbCheck_carries ..)

/-- The port that has left UP, its own packets taken out. -/
def emptied (k : PortSt) : PortSt := { k with retry := [], outq := [], holding := false, leaving := [], pendLeave := [] }

/-- What a packet of a port that has left UP becomes. -/
def sendOn (p : Nat) (s : State) (e : SpanPkt × Nat × Nat) : State :=
  match routeOf s e.1 with
  | .out q up => enqueueOn s q (raiseVc e.1 up) e.2.1 e.2.2
  | .drop => countDrops s p 1
  | .none => modPort s p fun o => { o with outq := o.outq ++ [e] }
  | .deliver => withSpan s { s.span with delivered := s.span.delivered ++ [e.1] }

theorem sendOn_carries (q p : Nat) (s : State) (e : SpanPkt × Nat × Nat) : CarriesPort s (sendOn q s e) p := by
  unfold sendOn
  cases routeOf s e.1 with
  | out q up => exact enqueueOn_carries ..
  | drop => exact modPort_carries (fun _ => rfl) fun _ _ => rfl
  | none => exact modPort_carries (fun _ => rfl) fun _ _ => rfl
  | deliver => exact ⟨rfl, rfl, rfl, rfl, fun _ => rfl⟩

/-- The packets that a port which has left UP still holds. -/
def heldPackets (k : PortSt) (now : Nat) : List (SpanPkt × Nat × Nat) :=
  ((k.retry.flatMap fun f => f.pkts).filter fun x => decide (x.op ≠ 0x11)).map (fun x => (x, now, 18)) ++ k.outq

theorem leaveUp_sends (s : State) (p : Nat) :
    RasSide (forEach (setPort s p (emptied (getPort s p))) (heldPackets (getPort s p) s.now) (sendOn p)) (leaveUp s p) :=
  ras_ras (RasSide.refl _)

theorem leaveUp_carries {q p : Nat} (h : p ≠ q) (s : State) : CarriesPort s (leaveUp s q) p :=
  ((setPort_carries h s _).trans (forEach_carries (fun s e => sendOn_carries q p s e) _ _)).trans (rasSide_carries (leaveUp_sends s q) p)

theorem leaveUp_carries_emptied (s : State) (p : Nat) : CarriesPort (setPort s p (emptied (getPort s p))) (leaveUp s p) p :=
  (forEach_carries (fun s e => sendOn_carries p p s e) _ _).trans (rasSide_carries (leaveUp_sends s p) p)

/-- The port that stops, before what it held is sent on. -/
def stopParts (k : PortSt) (st : PortState) (cause : BitVec 3) (now : Nat) (was : Bool) : PortSt :=
  { k with
    st := st, dcause := cause, downAt := now, peer := none, holding := false, leaving := [], pendLeave := [],
    retry := if was then k.retry else [] }

/-- Whether a port was UP, or was retraining from UP. -/
def wasUp (k : PortSt) : Bool := decide (k.st = .up) || (decide (k.st = .retrain) && !k.wasHeld)

theorem portStop_eq (s : State) (p : Nat) (st : PortState) (c : BitVec 3) : portStop s p st c =
    if wasUp (getPort s p) then leaveUp (putPort s p (stopParts (getPort s p) st c s.now (wasUp (getPort s p)))) p
    else putPort s p (stopParts (getPort s p) st c s.now (wasUp (getPort s p))) := rfl

theorem portStop_carries {q p : Nat} (h : p ≠ q) (s : State) (st : PortState) (c : BitVec 3) : CarriesPort s (portStop s q st c) p := by
  rw [portStop_eq]
  split
  · exact (putPort_carries h ..).trans (leaveUp_carries h _)
  · exact putPort_carries h ..

/-- A port in its new state after a stop, whatever it sent on. -/
structure Stopped (s t : State) (p : Nat) (st : PortState) (c : BitVec 3) : Prop where
  power : t.power = s.power
  shadow : t.plumb.cfgShadow = s.plumb.cfgShadow
  st : (getPort t p).st = st
  dcause : (getPort t p).dcause = c
  downAt : (getPort t p).downAt = s.now
  cfg : (getPort t p).cfg = (getPort s p).cfg
  retry : (getPort t p).retry = []

theorem putPort_frame (s : State) (p : Nat) (k : PortSt) : (putPort s p k).power = s.power ∧ (putPort s p k).now = s.now ∧
    (putPort s p k).plumb.cfgShadow = s.plumb.cfgShadow := by
  have h := plumbCheck_carries (setPort s p k) p
  exact ⟨h.power, h.now, h.shadow⟩

theorem portStop_stops (s : State) (p : Nat) {st : PortState} (hst : st ≠ .up) (c : BitVec 3) : Stopped s (portStop s p st c) p st c := by
  obtain ⟨_, hget, _⟩ := putPort_spec s p (stopParts (getPort s p) st c s.now (wasUp (getPort s p)))
  obtain ⟨hpow, hnow, hshadow⟩ := putPort_frame s p (stopParts (getPort s p) st c s.now (wasUp (getPort s p)))
  rw [portStop_eq]
  split
  · have h := leaveUp_carries_emptied (putPort s p (stopParts (getPort s p) st c s.now (wasUp (getPort s p)))) p
    have hself : getPort (setPort (putPort s p (stopParts (getPort s p) st c s.now (wasUp (getPort s p)))) p
        (emptied (getPort (putPort s p (stopParts (getPort s p) st c s.now (wasUp (getPort s p)))) p))) p =
        emptied (stopParts (getPort s p) st c s.now (wasUp (getPort s p))) := (tget_tset_self ..).trans (congrArg emptied hget)
    refine ⟨h.power.trans hpow, h.shadow.trans hshadow, h.st.trans ?_, h.dcause.trans ?_, h.downAt.trans ?_, h.cfg.trans ?_, (h.stopped ?_).trans ?_⟩
    · rw [hself]; rfl
    · rw [hself]; rfl
    · rw [hself]; rfl
    · rw [hself]; rfl
    · rw [hself]; exact hst
    · rw [hself]; rfl
  · next hwas =>
    refine ⟨hpow, hshadow, ?_, ?_, ?_, ?_, ?_⟩
    · rw [hget]; rfl
    · rw [hget]; rfl
    · rw [hget]; rfl
    · rw [hget]; rfl
    · rw [hget]; exact if_neg hwas

/-- A port that was not UP has no packets to send on. -/
theorem portStop_quiet {s : State} {p : Nat} (h : wasUp (getPort s p) = false) (st : PortState) (c : BitVec 3) :
    PortSide s (portStop s p st c) p := by
  rw [portStop_eq, h]
  exact (putPort_spec ..).1

/-- The Span with the ports taken out. -/
def portless (s : State) : SpanSt := { s.span with ports := [] }

theorem PortSide.portless {s t : State} {p : Nat} (h : PortSide s t p) : portless t = portless s :=
  (congrArg Machine.portless h.package :)

/-- The route of a packet depends on the Span's tables and on which ports are UP. -/
theorem routeOf_congr {s t : State} (h : portless t = portless s) (hst : ∀ q, (getPort t q).st = (getPort s q).st) (x : SpanPkt) :
    routeOf t x = routeOf s x := by
  have hactep : t.span.actep = s.span.actep := (congrArg SpanSt.actep h :)
  have hpend : t.span.pend = s.span.pend := (congrArg SpanSt.pend h :)
  have hdrain : t.span.drainFrom = s.span.drainFrom := (congrArg SpanSt.drainFrom h :)
  have hid : t.span.id = s.span.id := (congrArg SpanSt.id h :)
  have hd : t.span.droute = s.span.droute := (congrArg SpanSt.droute h :)
  have hh : t.span.hroute = s.span.hroute := (congrArg SpanSt.hroute h :)
  have hup : ∀ q, isUp t q = isUp s q := fun q => by rw [isUp, hst, isUp]
  unfold routeOf bankIdle ownDomain ownPackage drouteAt hrouteAt
  simp only [hactep, hpend, hdrain, hid, hd, hh, hup]

/-- The one packet of a port that fails goes into the output that its route now names (R328). -/
theorem portStop_reroutes {s : State} {p q : Nat} {x : SpanPkt} {τ inp : Nat} {up : Bool} (c : BitVec 3) (hwas : wasUp (getPort s p) = true)
    (hretry : (getPort s p).retry = []) (houtq : (getPort s p).outq = [(x, τ, inp)])
    (hroute : routeOf (setPort s p { getPort s p with st := .down }) x = .out q up) (hq : q ≠ p) :
    getPort (portStop s p .down c) q = pump s.plumb.count { getPort s q with outq := (getPort s q).outq ++ [(raiseVc x up, τ, inp)] } := by
  obtain ⟨a1, a2, a3⟩ := putPort_spec s p (stopParts (getPort s p) .down c s.now (wasUp (getPort s p)))
  rw [portStop_eq, if_pos hwas]
  generalize putPort s p (stopParts (getPort s p) .down c s.now (wasUp (getPort s p))) = s1 at a1 a2 a3
  have hsend := leaveUp_sends s1 p
  have hheld : heldPackets (getPort s1 p) s1.now = [(x, τ, inp)] := by
    have hr : (getPort s1 p).retry = [] := by
      rw [a2]
      exact (if_pos hwas).trans hretry
    have ho : (getPort s1 p).outq = [(x, τ, inp)] := by
      rw [a2]
      exact houtq
    rw [heldPackets, hr, ho]
    rfl
  have hother : getPort (setPort s1 p (emptied (getPort s1 p))) q = getPort s q := (tget_tset_ne _ hq _).trans (a1.others q hq)
  have hsame : routeOf (setPort s1 p (emptied (getPort s1 p))) x = .out q up := by
    rw [← hroute]
    refine routeOf_congr ((a1.trans (portSide_setPort ..)).portless.trans (portSide_setPort s p _).portless.symm) (fun r => ?_) x
    by_cases hr : r = p
    · subst hr
      have h1 : getPort (setPort s1 r (emptied (getPort s1 r))) r = emptied (getPort s1 r) := tget_tset_self ..
      have h2 : getPort (setPort s r { getPort s r with st := .down }) r = { getPort s r with st := .down } := tget_tset_self ..
      rw [h1, h2, a2]
      rfl
    · have h1 : getPort (setPort s1 p (emptied (getPort s1 p))) r = getPort s1 r := tget_tset_ne _ hr _
      have h2 : getPort (setPort s p { getPort s p with st := .down }) r = getPort s r := tget_tset_ne _ hr _
      rw [h1, h2, a1.others r hr]
  rw [hheld] at hsend
  have hgo : forEach (setPort s1 p (emptied (getPort s1 p))) [(x, τ, inp)] (sendOn p) =
      enqueueOn (setPort s1 p (emptied (getPort s1 p))) q (raiseVc x up) τ inp := by
    show sendOn p (setPort s1 p (emptied (getPort s1 p))) (x, τ, inp) = _
    rw [sendOn]
    dsimp only
    rw [hsame]
  rw [hgo] at hsend
  rw [hsend.getPort, enqueueOn, pumpPort_self]
  have hget : getPort (modPort (setPort s1 p (emptied (getPort s1 p))) q fun o => { o with outq := o.outq ++ [(raiseVc x up, τ, inp)] }) q =
    { getPort (setPort s1 p (emptied (getPort s1 p))) q with outq := (getPort (setPort s1 p (emptied (getPort s1 p))) q).outq ++ [(raiseVc x up, τ, inp)] } :=
    tget_tset_self ..
  rw [hget, hother]
  exact congrArg (fun c => pump c _) a3

/-! ## Attempts that fail, and ports that start (R320) -/

theorem portRetrainAttemptEnd_counts {s : State} {p : Port} (hst : (getPort s p.val).st = .retrain ∨ (getPort s p.val).st = .training)
    (h : (getPort s p.val).attempts < 2) : ∃ t, exec (.portRetrainAttemptEnd p false []) s = .next t ∧
      SetsPort s t p.val { getPort s p.val with attempts := (getPort s p.val).attempts + 1 } := by
  have hexec : exec (.portRetrainAttemptEnd p false []) s = execPortRetrainAttemptEnd p false [] s := rfl
  have hgo : ¬ ((getPort s p.val).st ≠ .retrain ∧ ¬ ((getPort s p.val).st = .training ∧ false = false)) := fun h => hst.elim h.1 fun g => h.2 ⟨g, rfl⟩
  rw [hexec, execPortRetrainAttemptEnd, if_neg hgo, if_pos (by decide), if_pos h]
  exact ⟨_, rfl, setsPort_setPort ..⟩

theorem portRetrainAttemptEnd_stops {s : State} {p : Port} (hst : (getPort s p.val).st = .retrain ∨ (getPort s p.val).st = .training)
    (h : 2 ≤ (getPort s p.val).attempts) : exec (.portRetrainAttemptEnd p false []) s = .next (portStop s p.val .down 1) := by
  have hexec : exec (.portRetrainAttemptEnd p false []) s = execPortRetrainAttemptEnd p false [] s := rfl
  have hgo : ¬ ((getPort s p.val).st ≠ .retrain ∧ ¬ ((getPort s p.val).st = .training ∧ false = false)) := fun h => hst.elim h.1 fun g => h.2 ⟨g, rfl⟩
  rw [hexec, execPortRetrainAttemptEnd, if_neg hgo, if_pos (by decide), if_neg (Nat.not_lt.2 h)]

theorem portStart_trains {s : State} {p : Nat} (hen : bt (getPort s p).cfg 31 = true) (hdom : portDomOn s p = true) (hmod : moduleOn s p = true) :
    portStart s p = putPort s p { getPort s p with st := .training, dcause := 0, wasHeld := false, attempts := 0 } := by
  rw [portStart, if_neg (by simp [hen, hdom]), if_pos hmod]

theorem portStart_unpowered {s : State} {p : Nat} (hen : bt (getPort s p).cfg 31 = true) (hdom : portDomOn s p = true) (hmod : moduleOn s p = false) :
    portStart s p = portStop s p .down 3 := by
  rw [portStart, if_neg (by simp [hen, hdom]), if_neg (by simp [hmod])]

theorem portDownRetry_early {s : State} {p : Port} (hc : (getPort s p.val).dcause ≠ 3) (hlt : s.now < (getPort s p.val).downAt + 1000000000) :
    exec (.portDownRetry p) s = .next s :=
  if_neg fun h => h.2.2.elim hc fun hle => Nat.not_lt.2 hle hlt

theorem portDownRetry_trains {s : State} {p : Port} (hst : (getPort s p.val).st = .down)
    (hwhen : (getPort s p.val).dcause = 3 ∨ (getPort s p.val).downAt + 1000000000 ≤ s.now) (hen : bt (getPort s p.val).cfg 31 = true)
    (hdom : portDomOn s p.val = true) (hmod : moduleOn s p.val = true) : ∃ t, exec (.portDownRetry p) s = .next t ∧ PortSide s t p.val ∧
      getPort t p.val = { getPort s p.val with st := .training, dcause := 0, wasHeld := false, attempts := 0 } := by
  have hexec : exec (.portDownRetry p) s = .next (portStart s p.val) := if_pos ⟨hst, hmod, hwhen⟩
  rw [portStart_trains hen hdom hmod] at hexec
  obtain ⟨h1, h2, _⟩ := putPort_spec s p.val { getPort s p.val with st := .training, dcause := 0, wasHeld := false, attempts := 0 }
  exact ⟨_, hexec, h1, h2⟩

end Sys2Proof.Machine
end

section
/-!
PROOF. Span ports (R311 to R316, R338): training, flits and COMMIT, and the obligation about ports.
-/

namespace Sys2Proof.Machine

/-! ## The end of training (R311, R338) -/

/-- A port whose training has learned the other end. -/
def knownPort (k : PortSt) (peer : PeerInfo) : PortSt := (List.range 8).foldl backLane { k with
  peer := some peer, rxNext := 0, rxNak := false, txNext := 0, retry := [], credits := [], owed := [], holding := false, leaving := [],
  pendLeave := [], stampSum := 0, stampCnt := 0 }

theorem knownPort_spec (k : PortSt) (peer : PeerInfo) : (knownPort k peer).peer = some peer ∧ (knownPort k peer).rxNext = 0 ∧
    (knownPort k peer).txNext = 0 ∧ (knownPort k peer).retry = [] ∧ (knownPort k peer).cfg = k.cfg ∧
    ∀ m < 8, laneOf (knownPort k peer) m = lanesBack k m := by
  obtain ⟨a1, a2⟩ := foldl_backLane (List.range 8) { k with
    peer := some peer, rxNext := 0, rxNak := false, txNext := 0, retry := [], credits := [], owed := [], holding := false, leaving := [],
    pendLeave := [], stampSum := 0, stampCnt := 0 }
  refine ⟨(congrArg PortSt.peer a1 :), (congrArg PortSt.rxNext a1 :), (congrArg PortSt.txNext a1 :), (congrArg PortSt.retry a1 :),
    (congrArg PortSt.cfg a1 :), fun m hm => ?_⟩
  have hlane := a2 m
  rw [if_pos (List.mem_range.2 hm)] at hlane
  exact hlane

/-- The port HELD with the smaller of the two versions. -/
def heldPort (k : PortSt) (v : Nat) : PortSt := { k with st := .held, pver := BitVec.ofNat 8 v }

/-- The port that ends training with the other version too far from its own. -/
def mismatched (k : PortSt) : PortSt := { k with st := .mismatch }

/-- The count of a port that is HELD for the first time. -/
def firstHeld (s : State) : State :=
  withPlumb s { s.plumb with firstHeld := match s.plumb.firstHeld with
    | some t => some t
    | none => some s.now }

theorem portTrained_run {s : State} {p : Port} {peer : PeerInfo} (hst : (getPort s p.val).st = .training) :
    exec (.portTrained p peer []) s =
      if s.span.protoImpl.toNat > peer.impl.toNat + 1 ∨ peer.impl.toNat > s.span.protoImpl.toNat + 1 then
        .next (portReport (putPort s p.val (mismatched (knownPort (getPort s p.val) peer))) p.val)
      else if (!portLive (reform (putPort s p.val (heldPort (knownPort (getPort s p.val) peer) (min s.span.protoImpl.toNat peer.impl.toNat))) p.val) p.val) = true then
        .next (reform (putPort s p.val (heldPort (knownPort (getPort s p.val) peer) (min s.span.protoImpl.toNat peer.impl.toNat))) p.val)
      else .next (rootTakes (firstHeld (reform (putPort s p.val (heldPort (knownPort (getPort s p.val) peer) (min s.span.protoImpl.toNat peer.impl.toNat))) p.val)) peer.locked peer.plumb) := by
  have hexec : exec (.portTrained p peer []) s = execPortTrained p peer [] s := rfl
  have hgo : ¬ (getPort s p.val).st ≠ .training := fun h => h hst
  rw [hexec, execPortTrained, if_neg hgo]
  rfl

theorem rootTakes_plumb (s : State) (l : Bool) (c : BitVec 64) : ∃ k, rootTakes s l c = withPlumb s k := by
  unfold rootTakes
  split
  · exact ⟨_, rfl⟩
  · exact ⟨s.plumb, rfl⟩

theorem portTrained_mismatch {s : State} {p : Port} {peer : PeerInfo} (hst : (getPort s p.val).st = .training)
    (h : s.span.protoImpl.toNat > peer.impl.toNat + 1 ∨ peer.impl.toNat > s.span.protoImpl.toNat + 1) :
    ∃ t, exec (.portTrained p peer []) s = .next t ∧ PortSide s t p.val ∧ (getPort t p.val).st = .mismatch := by
  rw [portTrained_run hst, if_pos h]
  obtain ⟨a1, a2, _⟩ := putPort_spec s p.val (mismatched (knownPort (getPort s p.val) peer))
  have hras : RasSide (putPort s p.val (mismatched (knownPort (getPort s p.val) peer)))
    (portReport (putPort s p.val (mismatched (knownPort (getPort s p.val) peer))) p.val) := report_none_ras (RasSide.refl _)
  refine ⟨_, rfl, a1.trans (hras.portSide p.val), ?_⟩
  rw [hras.getPort, a2]
  rfl

/-- The port HELD after training, at the width that its lanes form. -/
structure HeldAs (k : PortSt) (v w : Nat) (o : PortSt) : Prop where
  st : o.st = .held
  peer : o.peer = k.peer
  pver : o.pver = BitVec.ofNat 8 v
  rxNext : o.rxNext = k.rxNext
  txNext : o.txNext = k.txNext
  retry : o.retry = k.retry
  lanes : o.lanes = (atWidth (heldPort k v) w).lanes
  width : o.width = (atWidth (heldPort k v) w).width

theorem atWidth_held (k : PortSt) (v w : Nat) : HeldAs k v w (atWidth (heldPort k v) w) := by
  obtain ⟨f1, _, _, _, _, _, f7, f8, f9, f10⟩ := atWidth_fields (heldPort k v) w
  exact ⟨atWidth_st .., f7, f8, f9, f10, f1, rfl, rfl⟩

/-- The width of a port that becomes HELD, formed on the state `s1` that has it. -/
theorem reform_held {s1 : State} {p : Nat} {k : PortSt} {v : Nat} {f : Nat → LaneSt} (hk : getPort s1 p = heldPort k v)
    (hf : ∀ m < 8, laneOf k m = f m) (h : 1 ≤ ((List.range 8).filter fun m => laneGood (f m) && peerGood k m).length) :
    ∃ w, PortSide s1 (reform s1 p) p ∧ HeldAs k v w (getPort (reform s1 p) p) ∧ FormedAt f (peerGood k) (maxCode k) w (getPort (reform s1 p) p) := by
  have hpeer : peerGood (getPort s1 p) = peerGood k := by
    rw [hk]
    rfl
  have hmax : maxCode (getPort s1 p) = maxCode k := by
    rw [hk]
    rfl
  have hlanes : ∀ m < 8, laneOf (getPort s1 p) m = f m := by
    rw [hk]
    exact hf
  rw [← hpeer] at h
  obtain ⟨w, b1, _, b3, b4⟩ := reform_spec s1 p f hlanes h
  rw [hpeer, hmax, ← b3] at b4
  rw [hk] at b3
  exact ⟨w, b1, b3 ▸ atWidth_held k v w, b4⟩

theorem knownPort_peer (k : PortSt) (peer : PeerInfo) : peerGood (knownPort k peer) = (fun m => bt peer.good m) ∧
    maxCode (knownPort k peer) = max (bf k.cfg 30 29) peer.maxw.toNat := by
  obtain ⟨k1, _, _, _, k5, _⟩ := knownPort_spec k peer
  refine ⟨funext fun m => ?_, ?_⟩
  · rw [peerGood, k1]
    rfl
  · rw [maxCode, k1, k5]
    rfl

/-- A port that is trained with a version next to its own is HELD at the width that its lanes form. -/
theorem portTrained_held {s : State} {p : Port} {peer : PeerInfo} (hst : (getPort s p.val).st = .training)
    (h1 : s.span.protoImpl.toNat ≤ peer.impl.toNat + 1) (h2 : peer.impl.toNat ≤ s.span.protoImpl.toNat + 1)
    (hgood : 1 ≤ ((List.range 8).filter fun m => laneGood (lanesBack (getPort s p.val) m) && bt peer.good m).length) :
    ∃ t w, exec (.portTrained p peer []) s = .next t ∧ PortSide s t p.val ∧ (getPort t p.val).st = .held ∧ (getPort t p.val).peer = some peer ∧
      (getPort t p.val).pver.toNat = min s.span.protoImpl.toNat peer.impl.toNat ∧ (getPort t p.val).rxNext = 0 ∧
      (getPort t p.val).txNext = 0 ∧ (getPort t p.val).retry = [] ∧
      FormedAt (lanesBack (getPort s p.val)) (fun m => bt peer.good m) (max (bf (getPort s p.val).cfg 30 29) peer.maxw.toNat) w (getPort t p.val) := by
  obtain ⟨k1, k2, k3, k4, _, k6⟩ := knownPort_spec (getPort s p.val) peer
  obtain ⟨kp, km⟩ := knownPort_peer (getPort s p.val) peer
  obtain ⟨a1, a2, _⟩ := putPort_spec s p.val (heldPort (knownPort (getPort s p.val) peer) (min s.span.protoImpl.toNat peer.impl.toNat))
  obtain ⟨w, b1, b2, b3⟩ := reform_held a2 k6 (by rw [kp]; exact hgood)
  rw [kp, km] at b3
  rw [portTrained_run hst, if_neg (by omega)]
  have hmin : min s.span.protoImpl.toNat peer.impl.toNat < 2 ^ 8 := Nat.lt_of_le_of_lt (Nat.min_le_left ..) s.span.protoImpl.isLt
  have hpver := (BitVec.toNat_ofNat (min s.span.protoImpl.toNat peer.impl.toNat) 8).trans (Nat.mod_eq_of_lt hmin)
  generalize putPort s p.val (heldPort (knownPort (getPort s p.val) peer) (min s.span.protoImpl.toNat peer.impl.toNat)) = s1 at a1 b1 b2 b3 ⊢
  generalize reform s1 p.val = s2 at b1 b2 b3 ⊢
  have hlive := (portLive_iff ..).2 (Or.inl b2.st)
  obtain ⟨m, hm⟩ := rootTakes_plumb (firstHeld s2) peer.locked peer.plumb
  rw [hlive, if_neg (by decide), hm]
  exact ⟨_, w, rfl, (a1.trans b1).trans ((portSide_withPlumb ..).trans (portSide_withPlumb ..)), b2.st, b2.peer.trans k1,
    (congrArg BitVec.toNat b2.pver).trans hpver, b2.rxNext.trans k2, b2.txNext.trans k3, b2.retry.trans k4, b3⟩

/-! ## Flits (R313 to R316) -/

theorem flitReceive_run {s : State} {p : Port} (hlive : portLive s p.val = true) (h : BitVec 64) (ok : Bool) (body : List SpanPkt) (a : Arrival) :
    exec (.flitReceive p h ok body a) s =
      if (getPort s p.val).holding = true then .next (if ok then setPort s p.val (learn (getPort s p.val) a.told) else s)
      else if (!ok) = true then .next (setPort s p.val (sendEmpty s.plumb.count { getPort s p.val with uncorr := satInc (getPort s p.val).uncorr, rxNak := true }))
      else if (bt h 31 && (takeFlit s (learn (getPort s p.val) a.told) h body a.sub.val).retry.any fun f => decide (8 ≤ f.resent)) = true then
        .next (portRetrain (setPort s p.val (takeFlit s (learn (getPort s p.val) a.told) h body a.sub.val)) p.val)
      else .next (setPort s p.val (sendEmpty s.plumb.count (pump s.plumb.count (if bt h 31 then replay s.plumb.count (takeFlit s (learn (getPort s p.val) a.told) h body a.sub.val)
        else takeFlit s (learn (getPort s p.val) a.told) h body a.sub.val)))) := by
  have hexec : exec (.flitReceive p h ok body a) s = execFlitReceive p h ok body a s := rfl
  rw [hexec, execFlitReceive, if_neg (by simp [hlive])]

/-- What a flit that passes takes of a port: acknowledged flits leave the retry buffer, credits come back, and a body in sequence is
received (R314, R315). -/
structure TakenFlit (now : Nat) (h : BitVec 64) (body : List SpanPkt) (k o : PortSt) : Prop where
  retry : o.retry = k.retry.filter fun f => decide (0 < (f.seq - BitVec.ofNat 16 (bf h 47 32)).toInt)
  credits : tget 512 o.credits (bf h 29 27) = min 512 (tget 512 k.credits (bf h 29 27) + bf h 26 24)
  inSeq : bt h 30 = false → BitVec.ofNat 16 (bf h 63 48) = k.rxNext → o.rxNext = k.rxNext + 1 ∧ o.rxNak = false ∧
    o.inbox = k.inbox ++ (body.filter fun x => decide (x.op ≠ 0x11)).map fun x => (x, now)
  noBody : bt h 30 = true ∨ BitVec.ofNat 16 (bf h 63 48) ≠ k.rxNext → o.rxNext = k.rxNext ∧ o.inbox = k.inbox
  ahead : bt h 30 = false → 0 < (BitVec.ofNat 16 (bf h 63 48) - k.rxNext).toInt → o.rxNak = true

theorem takeFlit_takes (s : State) (k : PortSt) (h : BitVec 64) (body : List SpanPkt) (sub : Nat) :
    TakenFlit s.now h body k (takeFlit s k h body sub) := by
  unfold takeFlit
  extract_lets k1 vc k2 seq
  have hcred : tget 512 k2.credits (bf h 29 27) = min 512 (tget 512 k.credits (bf h 29 27) + bf h 26 24) := tget_tset_self ..
  cases h30 : bt h 30 with
  | true => exact ⟨rfl, hcred, fun h0 => absurd (h30.symm.trans h0) (by decide), fun _ => ⟨rfl, rfl⟩, fun h0 => absurd (h30.symm.trans h0) (by decide)⟩
  | false =>
    rw [if_neg Bool.false_ne_true]
    split
    · next hseq =>
      refine ⟨rfl, hcred, fun _ _ => ⟨rfl, rfl, rfl⟩, fun hor => (hor.elim (fun h0 => absurd (h30.symm.trans h0) (by decide)) fun hne => absurd hseq hne), fun _ hpos => ?_⟩
      have hz : seq - k.rxNext = 0 := by
        rw [hseq]
        exact BitVec.sub_self _
      rw [show BitVec.ofNat 16 (bf h 63 48) - k.rxNext = 0 from hz] at hpos
      exact absurd hpos (by decide)
    · next hseq =>
      split
      · exact ⟨rfl, hcred, fun _ he => absurd he hseq, fun _ => ⟨rfl, rfl⟩, fun _ _ => rfl⟩
      · next hle => exact ⟨rfl, hcred, fun _ he => absurd he hseq, fun _ => ⟨rfl, rfl⟩, fun _ hpos => absurd hpos hle⟩

theorem learn_peer (k : PortSt) (told : Option PeerInfo) : ∃ peer, learn k told = { k with peer := peer } := by
  unfold learn
  split
  · exact ⟨_, rfl⟩
  · exact ⟨k.peer, rfl⟩

theorem takeFlit_learn (s : State) (k : PortSt) (h : BitVec 64) (body : List SpanPkt) (sub : Nat) (told : Option PeerInfo) :
    TakenFlit s.now h body k (takeFlit s (learn k told) h body sub) := by
  have ht := takeFlit_takes s (learn k told) h body sub
  obtain ⟨peer, hp⟩ := learn_peer k told
  generalize takeFlit s (learn k told) h body sub = o at ht
  rw [hp] at ht
  exact ⟨ht.retry, ht.credits, ht.inSeq, ht.noBody, ht.ahead⟩

theorem flitReceive_held {s : State} {p : Port} (hlive : portLive s p.val = true) (hh : (getPort s p.val).holding = true) (h : BitVec 64)
    (body : List SpanPkt) (a : Arrival) :
    ∃ t, exec (.flitReceive p h true body a) s = .next t ∧ SetsPort s t p.val (learn (getPort s p.val) a.told) := by
  rw [flitReceive_run hlive, if_pos hh, if_pos rfl]
  exact ⟨_, rfl, setsPort_setPort ..⟩

theorem flitReceive_broken {s : State} {p : Port} (hlive : portLive s p.val = true) (hh : (getPort s p.val).holding = false) (h : BitVec 64)
    (body : List SpanPkt) (a : Arrival) : ∃ t, exec (.flitReceive p h false body a) s = .next t ∧
      SetsPort s t p.val (sendEmpty s.plumb.count { getPort s p.val with uncorr := satInc (getPort s p.val).uncorr, rxNak := true }) := by
  rw [flitReceive_run hlive, if_neg (by simp [hh]), if_pos (by decide)]
  exact ⟨_, rfl, setsPort_setPort ..⟩

/-- A flit that passes and asks for no replay is answered by what the port may send. -/
theorem flitReceive_passes {s : State} {p : Port} (hlive : portLive s p.val = true) (hh : (getPort s p.val).holding = false) {h : BitVec 64}
    (h31 : bt h 31 = false) (body : List SpanPkt) (a : Arrival) : ∃ t o, exec (.flitReceive p h true body a) s = .next t ∧
      SetsPort s t p.val (sendEmpty s.plumb.count (pump s.plumb.count o)) ∧ TakenFlit s.now h body (getPort s p.val) o := by
  rw [flitReceive_run hlive, if_neg (by simp [hh]), if_neg (by decide), h31, if_neg (by simp), if_neg Bool.false_ne_true]
  exact ⟨_, _, rfl, setsPort_setPort .., takeFlit_learn ..⟩

/-- A NAK replays the retry buffer, what it acknowledges taken out; a flit that has been sent nine times retrains the port (R315). -/
theorem flitReceive_nak {s : State} {p : Port} (hlive : portLive s p.val = true) (hh : (getPort s p.val).holding = false) {h : BitVec 64}
    (h31 : bt h 31 = true) (body : List SpanPkt) (a : Arrival) {kept : List Flit}
    (hkept : kept = (getPort s p.val).retry.filter fun f => decide (0 < (f.seq - BitVec.ofNat 16 (bf h 47 32)).toInt)) :
    ((∀ f ∈ kept, f.resent < 8) → ∃ t o, exec (.flitReceive p h true body a) s = .next t ∧
      SetsPort s t p.val (sendEmpty s.plumb.count (pump s.plumb.count o)) ∧ o.retry = kept.map fun f => { f with resent := f.resent + 1 }) ∧
    ((∃ f ∈ kept, 8 ≤ f.resent) → ∃ t, exec (.flitReceive p h true body a) s = .next t ∧ PortSide s t p.val ∧
      (getPort t p.val).st = .retrain) := by
  have hretry := (takeFlit_learn s (getPort s p.val) h body a.sub.val a.told).retry
  rw [← hkept] at hretry
  rw [flitReceive_run hlive, if_neg (by simp [hh]), if_neg (by decide), h31, if_pos rfl, Bool.true_and, hretry]
  constructor
  · intro hall
    rw [if_neg]
    · exact ⟨_, _, rfl, setsPort_setPort .., (replay_parts ..).1.trans (by rw [hretry])⟩
    · rw [List.any_eq_true]
      rintro ⟨f, hf, hge⟩
      exact Nat.not_lt.2 (of_decide_eq_true hge) (hall f hf)
  · rintro ⟨f, hf, hge⟩
    rw [if_pos (List.any_eq_true.2 ⟨f, hf, decide_eq_true hge⟩)]
    obtain ⟨g1, g2, _⟩ := portRetrain_spec (setPort s p.val (takeFlit s (learn (getPort s p.val) a.told) h body a.sub.val)) p.val
    exact ⟨_, rfl, (portSide_setPort ..).trans g1, g2⟩

/-! ## COMMIT (R312) -/

theorem portStart_carries {q p : Nat} (h : p ≠ q) (s : State) : CarriesPort s (portStart s q) p := by
  unfold portStart
  split
  · exact .refl s p
  · split
    · exact putPort_carries h ..
    · exact portStop_carries h ..

theorem commitPort_carries {q p : Nat} (h : p ≠ q) (s : State) : CarriesPort s (commitPort s q) p := by
  have hset := setPort_carries h s { getPort s q with cfg := (getPort s q).cfgShadow }
  unfold commitPort
  dsimp only
  split
  · exact hset.trans (portStart_carries h _)
  · split
    · exact hset.trans (portStop_carries h ..)
    · split
      · exact hset.trans (setPort_carries h ..)
      · exact hset

/-- Port `p` once its shadow is active: started, stopped, or as it was (R312). -/
structure Committed (s t : State) (p : Nat) : Prop where
  shadow : t.plumb.cfgShadow = s.plumb.cfgShadow
  cfg : (getPort t p).cfg = (getPort s p).cfgShadow
  off : bt (getPort s p).cfg 31 = true → bt (getPort s p).cfgShadow 31 = false → (getPort t p).st = .disabled
  on : bt (getPort s p).cfg 31 = false → bt (getPort s p).cfgShadow 31 = true → portDomOn s p = true →
    (moduleOn s p = true → (getPort t p).st = .training) ∧ (moduleOn s p = false → (getPort t p).st = .down ∧ (getPort t p).dcause = 3)
  same : bt (getPort s p).cfg 31 = bt (getPort s p).cfgShadow 31 → (getPort t p).st = (getPort s p).st ∧
    (bf (getPort s p).cfg 30 29 ≠ bf (getPort s p).cfgShadow 30 29 → bt (getPort s p).cfg 31 = true → portLive s p = true →
      (getPort t p).holding = true)

/-- The port with its shadow active. -/
def active (k : PortSt) : PortSt := { k with cfg := k.cfgShadow }

theorem commitPort_starts {s : State} {p : Nat} (h0 : bt (getPort s p).cfg 31 = false) (h1 : bt (getPort s p).cfgShadow 31 = true) :
    Committed s (commitPort s p) p := by
  have hgo : commitPort s p = portStart (setPort s p (active (getPort s p))) p := if_pos ⟨h1, by rw [h0]; decide⟩
  have hget : getPort (setPort s p (active (getPort s p))) p = active (getPort s p) := tget_tset_self ..
  have hen : bt (getPort (setPort s p (active (getPort s p))) p).cfg 31 = true := by
    rw [hget]
    exact h1
  have hno : ∀ {P : Prop}, bt (getPort s p).cfg 31 = true → P := fun h => absurd (h0.symm.trans h) (by decide)
  have hne : ∀ {P : Prop}, bt (getPort s p).cfg 31 = bt (getPort s p).cfgShadow 31 → P := fun h => absurd ((h0.symm.trans h).trans h1) (by decide)
  cases hdom : portDomOn s p with
  | false =>
    have hstart : portStart (setPort s p (active (getPort s p))) p = setPort s p (active (getPort s p)) :=
      if_pos ((congrArg (fun d => !bt (getPort (setPort s p (active (getPort s p))) p).cfg 31 || !d) hdom).trans (Bool.or_true _))
    rw [hgo, hstart]
    exact ⟨rfl, by rw [hget]; rfl, fun h => hno h, fun _ _ hd => absurd (hdom.symm.trans hd) (by decide), fun h => hne h⟩
  | true =>
    cases hmod : moduleOn s p with
    | true =>
      rw [hgo, portStart_trains hen hdom hmod]
      obtain ⟨_, g2, _⟩ := putPort_spec (setPort s p (active (getPort s p))) p { getPort (setPort s p (active (getPort s p))) p with st := .training, dcause := 0, wasHeld := false, attempts := 0 }
      obtain ⟨_, _, g3⟩ := putPort_frame (setPort s p (active (getPort s p))) p { getPort (setPort s p (active (getPort s p))) p with st := .training, dcause := 0, wasHeld := false, attempts := 0 }
      refine ⟨g3, ?_, fun h => hno h, fun _ _ _ => ⟨fun _ => by rw [g2], fun hm => absurd (hmod.symm.trans hm) (by decide)⟩, fun h => hne h⟩
      rw [g2]
      exact congrArg PortSt.cfg hget
    | false =>
      rw [hgo, portStart_unpowered hen hdom hmod]
      have hs := portStop_stops (setPort s p (active (getPort s p))) p (st := .down) PortState.noConfusion 3
      exact ⟨hs.shadow, hs.cfg.trans (congrArg PortSt.cfg hget), fun h => hno h,
        fun _ _ _ => ⟨fun hm => absurd (hmod.symm.trans hm) (by decide), fun _ => ⟨hs.st, hs.dcause⟩⟩, fun h => hne h⟩

theorem commitPort_disables {s : State} {p : Nat} (h0 : bt (getPort s p).cfg 31 = true) (h1 : bt (getPort s p).cfgShadow 31 = false) :
    Committed s (commitPort s p) p := by
  have hgo : commitPort s p = portStop (setPort s p (active (getPort s p))) p .disabled 0 := by
    rw [commitPort, if_neg (fun h => absurd (h1.symm.trans h.1) (by decide)), if_pos ⟨h0, by rw [h1]; rfl⟩]
    rfl
  have hget : getPort (setPort s p (active (getPort s p))) p = active (getPort s p) := tget_tset_self ..
  rw [hgo]
  have hs := portStop_stops (setPort s p (active (getPort s p))) p (st := .disabled) PortState.noConfusion 0
  exact ⟨hs.shadow, hs.cfg.trans (congrArg PortSt.cfg hget), fun _ _ => hs.st, fun h => absurd (h0.symm.trans h) (by decide),
    fun h => absurd ((h0.symm.trans h).trans h1) (by decide)⟩

theorem commitPort_stands {s : State} {p : Nat} (h : bt (getPort s p).cfg 31 = bt (getPort s p).cfgShadow 31) : Committed s (commitPort s p) p := by
  have hget : getPort (setPort s p (active (getPort s p))) p = active (getPort s p) := tget_tset_self ..
  have hlive : portLive (setPort s p (active (getPort s p))) p = portLive s p := portLive_congr (congrArg PortSt.st hget :)
  have hoff : ∀ {P : Prop}, bt (getPort s p).cfg 31 = true → bt (getPort s p).cfgShadow 31 = false → P :=
    fun h0 h1 => absurd ((h0.symm.trans h).trans h1) (by decide)
  have hon : ∀ {P : Prop}, bt (getPort s p).cfg 31 = false → bt (getPort s p).cfgShadow 31 = true → P :=
    fun h0 h1 => absurd ((h0.symm.trans h).trans h1) (by decide)
  have hgo : commitPort s p = if bf (getPort s p).cfg 30 29 ≠ bf (getPort s p).cfgShadow 30 29 ∧ portLive s p = true then
      modPort (setPort s p (active (getPort s p))) p fun k => { k with holding := true, holdAt := if k.holding then k.holdAt else s.now }
      else setPort s p (active (getPort s p)) := by
    rw [commitPort, if_neg, if_neg]
    · rfl
    · rintro ⟨h0, h1⟩
      rw [← h, h0] at h1
      exact absurd h1 (by decide)
    · rintro ⟨h1, h0⟩
      rw [h, h1] at h0
      exact absurd h0 (by decide)
  rw [hgo]
  split
  · have hmod : getPort (modPort (setPort s p (active (getPort s p))) p fun k => { k with holding := true, holdAt := if k.holding then k.holdAt else s.now }) p =
      (fun k : PortSt => { k with holding := true, holdAt := if k.holding then k.holdAt else s.now }) (active (getPort s p)) :=
      (tget_tset_self ..).trans (by rw [hget])
    refine ⟨rfl, ?_, fun h0 h1 => hoff h0 h1, fun h0 h1 => hon h0 h1, fun _ => ⟨?_, fun _ _ _ => ?_⟩⟩
    · rw [hmod]; rfl
    · rw [hmod]; rfl
    · rw [hmod]
  · next hno =>
    refine ⟨rfl, ?_, fun h0 h1 => hoff h0 h1, fun h0 h1 => hon h0 h1, fun _ => ⟨?_, fun hne _ hl => absurd ⟨hne, hl⟩ hno⟩⟩
    · rw [hget]; rfl
    · rw [hget]; rfl

theorem commitPort_commits (s : State) (p : Nat) : Committed s (commitPort s p) p := by
  cases h0 : bt (getPort s p).cfg 31 with
  | true =>
    cases h1 : bt (getPort s p).cfgShadow 31 with
    | true => exact commitPort_stands (h0.trans h1.symm)
    | false => exact commitPort_disables h0 h1
  | false =>
    cases h1 : bt (getPort s p).cfgShadow 31 with
    | true => exact commitPort_starts h0 h1
    | false => exact commitPort_stands (h0.trans h1.symm)

theorem CarriesPort.portLive {s t : State} {p : Nat} (h : CarriesPort s t p) : portLive t p = portLive s p := portLive_congr h.st

theorem CarriesPort.moduleOn {s t : State} {p : Nat} (h : CarriesPort s t p) : moduleOn t p = moduleOn s p := by
  unfold Machine.moduleOn getMod
  rw [h.power]

theorem CarriesPort.portDomOn {s t : State} {p : Nat} (h : CarriesPort s t p) : portDomOn t p = portDomOn s p := by
  unfold Machine.portDomOn getDom
  rw [h.power]

theorem Committed.before {s s1 t : State} {p : Nat} (h : CarriesPort s s1 p) (g : Committed s1 t p) : Committed s t p := by
  obtain ⟨g1, g2, g3, g4, g5⟩ := g
  rw [h.cfg, h.cfgShadow] at g3
  rw [h.cfg, h.cfgShadow, h.portDomOn, h.moduleOn] at g4
  rw [h.cfg, h.cfgShadow, h.st, h.portLive] at g5
  exact ⟨g1.trans h.shadow, g2.trans h.cfgShadow, g3, g4, g5⟩

theorem Committed.after {s t u : State} {p : Nat} (g : Committed s t p) (h : CarriesPort t u p) : Committed s u p := by
  obtain ⟨g1, g2, g3, g4, g5⟩ := g
  refine ⟨h.shadow.trans g1, h.cfg.trans g2, fun a b => h.st.trans (g3 a b), fun a b d => ?_, fun a => ?_⟩
  · obtain ⟨x, y⟩ := g4 a b d
    exact ⟨fun hm => h.st.trans (x hm), fun hm => ⟨h.st.trans (y hm).1, h.dcause.trans (y hm).2⟩⟩
  · obtain ⟨x, y⟩ := g5 a
    exact ⟨h.st.trans x, fun c d e => h.holding.trans (y c d e)⟩

theorem forEach_commitPort_carries {p : Nat} : ∀ (l : List Nat) (s : State), p ∉ l → CarriesPort s (forEach s l commitPort) p
  | [], s, _ => .refl s p
  | q :: l, s, h => by
    have hne : p ≠ q := fun hq => h (List.mem_cons.2 (.inl hq))
    have hl : p ∉ l := fun hm => h (List.mem_cons_of_mem _ hm)
    exact (commitPort_carries hne s).trans (forEach_commitPort_carries l (commitPort s q) hl)

/-- Every port among those that COMMIT takes, each once, is committed. -/
theorem forEach_commitPort_commits {p : Nat} : ∀ (l : List Nat) (s : State), l.Nodup → p ∈ l → Committed s (forEach s l commitPort) p
  | [], _, _, hp => absurd hp List.not_mem_nil
  | q :: l, s, hnd, hp => by
    have hstep : forEach s (q :: l) commitPort = forEach (commitPort s q) l commitPort := rfl
    rw [hstep]
    obtain ⟨hq, hl⟩ := List.nodup_cons.1 hnd
    rcases List.mem_cons.1 hp with heq | hmem
    · subst heq
      exact (commitPort_commits s p).after (forEach_commitPort_carries l _ hq)
    · have hne : p ≠ q := fun he => hq (he ▸ hmem)
      exact (forEach_commitPort_commits l (commitPort s q) hl hmem).before (commitPort_carries hne s)

theorem spanCommitAll_commits (s : State) (p : Port) : (spanCommitAll s).plumb.cfg = s.plumb.cfgShadow ∧ Committed s (spanCommitAll s) p.val := by
  have h := forEach_commitPort_commits (List.range 18) s List.nodup_range (List.mem_range.2 p.isLt)
  unfold spanCommitAll
  generalize forEach s (List.range 18) commitPort = s1 at h
  have hcarry : CarriesPort s1 (withPlumb s1 { s1.plumb with cfg := s1.plumb.cfgShadow }) p.val := ⟨rfl, rfl, rfl, rfl, fun _ => rfl⟩
  obtain ⟨m, hm, _, hcfg, _⟩ := plumbCheck_plumb (withPlumb s1 { s1.plumb with cfg := s1.plumb.cfgShadow })
  refine ⟨?_, (h.after hcarry).after (plumbCheck_carries ..)⟩
  dsimp only
  rw [hm]
  exact hcfg.trans h.shadow

/-! ## The obligation -/

/-- Settles O52: each command on a port or a lane by what it does to that port; a port that fails sends on what it held before anything else
changes, and COMMIT takes each port once, the commits of the other ports only putting packets into its output. -/
theorem spanPortsRun : Obligations.SpanPortsRun := by
  intro s p k cnt
  refine ⟨fun l why hlive hact hl hp => laneLeave_runs hlive hact hl hp, fun hh hlive => ⟨portHoldEnd_retrains hh hlive, fun l hone hact hlane hm => ?_⟩,
    fun l n hl hlive => ⟨laneRetrainAttemptEnd_passes hl hlive, laneRetrainAttemptEnd_fails hl hlive⟩, fun hst => ⟨portRetrainAttemptEnd_counts (.inl hst), fun ha => ?_, portRetrain_passes hst⟩,
    fun hst => ⟨portRetrainAttemptEnd_counts (.inr hst), fun ha => ?_⟩, fun hst => ⟨portDownRetry_early, portDownRetry_trains hst⟩,
    fun peer hst => ⟨portTrained_mismatch hst, portTrained_held hst⟩, fun h body sub told hlive => ⟨fun hh => flitReceive_held hlive hh h body ⟨sub, told⟩,
      fun hh => flitReceive_broken hlive hh h body ⟨sub, told⟩, fun hh => ⟨fun h31 => ?_, fun h31 => (flitReceive_nak hlive hh h31 body ⟨sub, told⟩ rfl).1,
        fun h31 => (flitReceive_nak hlive hh h31 body ⟨sub, told⟩ rfl).2⟩⟩, fun view => ⟨fun hv => ?_, fun hv => ?_⟩⟩
  · obtain ⟨t, o, w, a1, a2, a3, a4, a5, a6, a7, a8, a9⟩ := portHoldEnd_reforms hh hlive hone hact hm
    obtain ⟨b1, b2, b3, b4, b5, b6, b7, _⟩ := replay_parts s.plumb.count o
    refine ⟨fun hn => ⟨t, replay s.plumb.count o, w, a1, a2, a3, ?_, b1.trans (by rw [a5]), b2.trans (by rw [a5, a6]), b5.trans a7, b6.trans a8, b7.trans a9⟩,
      fun hn => ⟨t, a1, a2, ?_⟩⟩
    · rw [if_neg (Nat.not_le.2 hn)] at a4
      exact a4.congr b3 b4
    · rw [if_pos hn] at a4
      rw [a3, pump_lanes]
      exact formed_retired (a4.congr b3 b4) l.isLt (if_pos rfl)
  · have hs := portStop_stops s p.val (st := .down) PortState.noConfusion 1
    refine ⟨_, portRetrainAttemptEnd_stops (.inl hst) ha, hs.st, hs.dcause, hs.downAt, hs.retry, fun hheld => portStop_quiet ?_ _ _, ?_⟩
    · rw [wasUp, hst, hheld]
      rfl
    · intro x τ inp q up hheld hretry houtq hroute hq
      refine portStop_reroutes 1 ?_ hretry houtq hroute hq
      rw [wasUp, hst, hheld]
      rfl
  · have hs := portStop_stops s p.val (st := .down) PortState.noConfusion 1
    refine ⟨_, portRetrainAttemptEnd_stops (.inr hst) ha, portStop_quiet ?_ _ _, hs.st, hs.dcause, hs.downAt⟩
    rw [wasUp, hst]
    rfl
  · obtain ⟨t, o, c1, c2, c3⟩ := flitReceive_passes hlive hh h31 body ⟨sub, told⟩
    exact ⟨t, o, c1, c2, c3.retry, c3.credits, c3.inSeq, c3.noBody, c3.ahead⟩
  · exact congrArg Host.Outcome.next (if_neg (by rw [hv]; decide))
  · obtain ⟨h1, h2⟩ := spanCommitAll_commits s p
    exact ⟨_, congrArg Host.Outcome.next (if_pos hv), h1, h2.cfg, h2.off, h2.on, h2.same⟩

end Sys2Proof.Machine
end

section
/-!
PROOF. Span routing (R306, R307, R322 to R332): the registers that the driver writes, the switch, and packets that are routed or dropped.
-/

namespace Sys2Proof.Machine

/-! ## Changes of the ports alone -/

/-- Of the package only the Span's ports differ. -/
def PortsSide (s t : State) : Prop := t = { s with span := { s.span with ports := t.span.ports } }

theorem PortsSide.refl (s : State) : PortsSide s s := rfl

theorem PortsSide.trans {s t u : State} (h : PortsSide s t) (g : PortsSide t u) : PortsSide s u := by
  unfold PortsSide at h g ⊢
  rw [g, h]

theorem PortsSide.plumb {s t : State} (h : PortsSide s t) : t.plumb = s.plumb := by rw [h]

theorem PortsSide.portless {s t : State} (h : PortsSide s t) : portless t = portless s := by
  unfold PortsSide at h
  exact (congrArg Machine.portless h :)

theorem portsSide_setPort (s : State) (p : Nat) (k : PortSt) : PortsSide s (setPort s p k) := rfl

/-- A change of one port alone, which takes it as `R` says. -/
structure OnePort (R : PortSt → PortSt → Prop) (s t : State) (p : Nat) : Prop where
  package : PortsSide s t
  others : ∀ q, q ≠ p → getPort t q = getPort s q
  port : R (getPort s p) (getPort t p)

theorem onePort_setPort {R : PortSt → PortSt → Prop} {s : State} {p : Nat} {k : PortSt} (h : R (getPort s p) k) : OnePort R s (setPort s p k) p :=
  ⟨rfl, fun _ hq => tget_tset_ne _ hq _, by
    have hget : getPort (setPort s p k) p = k := tget_tset_self ..
    rw [hget]
    exact h⟩

theorem OnePort.refl {R : PortSt → PortSt → Prop} {s : State} {p : Nat} (h : R (getPort s p) (getPort s p)) : OnePort R s s p :=
  ⟨rfl, fun _ _ => rfl, h⟩

theorem OnePort.trans {R Q P : PortSt → PortSt → Prop} {s t u : State} {p : Nat} (h : OnePort R s t p) (g : OnePort Q t u p)
    (hp : ∀ a b c, R a b → Q b c → P a c) : OnePort P s u p :=
  ⟨h.package.trans g.package, fun q hq => (g.others q hq).trans (h.others q hq), hp _ _ _ h.port g.port⟩

/-- Each port of a list is taken once as `R` says, no other changes, and the package changes as `S` says. -/
theorem forEach_eachPort {S : State → State → Prop} (hrefl : ∀ s, S s s) (htrans : ∀ {s t u}, S s t → S t u → S s u) {R : PortSt → PortSt → Prop}
    {f : State → Nat → State} (hf : ∀ s p, S s (f s p) ∧ (∀ q, q ≠ p → getPort (f s p) q = getPort s q) ∧ R (getPort s p) (getPort (f s p) p)) :
    ∀ (l : List Nat) (s : State), l.Nodup → S s (forEach s l f) ∧ (∀ q, q ∉ l → getPort (forEach s l f) q = getPort s q) ∧
      ∀ q ∈ l, R (getPort s q) (getPort (forEach s l f) q)
  | [], s, _ => ⟨hrefl s, fun _ _ => rfl, fun _ hq => absurd hq List.not_mem_nil⟩
  | p :: l, s, hnd => by
    have hstep : forEach s (p :: l) f = forEach (f s p) l f := rfl
    obtain ⟨hp, hl⟩ := List.nodup_cons.1 hnd
    obtain ⟨g1, g2, g3⟩ := forEach_eachPort hrefl htrans hf l (f s p) hl
    obtain ⟨h1, h2, h3⟩ := hf s p
    rw [hstep]
    refine ⟨htrans h1 g1, fun q hq => ?_, fun q hq => ?_⟩
    · have hne : q ≠ p := fun he => hq (List.mem_cons.2 (.inl he))
      rw [g2 q (fun hm => hq (List.mem_cons_of_mem _ hm)), h2 q hne]
    · by_cases he : q = p
      · subst he
        rw [g2 q hp]
        exact h3
      · have hm := (List.mem_cons.1 hq).resolve_left he
        rw [← h2 q he]
        exact g3 q hm

theorem forEach_ports {R : PortSt → PortSt → Prop} {f : State → Nat → State} (hf : ∀ s p, OnePort R s (f s p) p) (l : List Nat) (s : State) (h : l.Nodup) :
    PortsSide s (forEach s l f) ∧ (∀ q, q ∉ l → getPort (forEach s l f) q = getPort s q) ∧ ∀ q ∈ l, R (getPort s q) (getPort (forEach s l f) q) :=
  forEach_eachPort .refl .trans (fun s p => ⟨(hf s p).package, (hf s p).others, (hf s p).port⟩) l s h

theorem mem_ports {q : Nat} (h : q < 18) : q ∈ List.range 18 := List.mem_range.2 h

/-! ## The driver's registers and the switch (R307, R329 to R332) -/

/-- A HELD port becomes UP, any other keeps its state. -/
def Joins (k o : PortSt) : Prop := o.st = if k.st = .held then .up else k.st

theorem joinPort_joins (s : State) (p : Nat) : OnePort Joins s
    (if (getPort s p).st = .held then pumpPort (modPort s p fun k => { k with st := .up }) p else s) p := by
  split
  · next hheld =>
    refine (onePort_setPort (R := fun k o => k.st = .held ∧ o.st = .up) ⟨hheld, rfl⟩).trans (onePort_setPort (R := fun k o => o.st = k.st) ?_)
      (fun a b c h1 h2 => (h2.trans h1.2).trans (if_pos h1.1).symm)
    rw [pump_parts]
    rfl
  · next hnot => exact .refl (if_neg hnot).symm

theorem joinPorts_joins (s : State) : PortsSide s (joinPorts s) ∧ ∀ q < 18, Joins (getPort s q) (getPort (joinPorts s) q) := by
  obtain ⟨h1, _, h3⟩ := forEach_ports joinPort_joins (List.range 18) s List.nodup_range
  exact ⟨h1, fun q hq => h3 q (mem_ports hq)⟩

/-- The Span right after the switch, before its HELD ports are UP. -/
def turned (s : State) : State := withSpan s { s.span with actep := !s.span.actep, pend := false, rtbusy := true, drainFrom := some s.now }

theorem joinPorts_switches (s : State) : Switched s (joinPorts (turned s)) := by
  obtain ⟨h1, h2⟩ := joinPorts_joins (turned s)
  generalize joinPorts (turned s) = t at h1 h2
  exact ⟨h1, h2⟩

theorem switchRoutes_switches {s : State} (h : s.span.rtbusy = true) : Switched s (switchRoutes s) := by
  have hturn : withSpan s { s.span with actep := !s.span.actep, pend := false, drainFrom := some s.now } = turned s :=
    congrArg (fun b => withSpan s { s.span with actep := !s.span.actep, pend := false, rtbusy := b, drainFrom := some s.now }) h
  rw [switchRoutes, hturn]
  exact joinPorts_switches s

theorem routeGoWrite_waits {s : State} (hb : s.span.rtbusy = false) (h : s.plumb.count < s.span.rat) :
    routeGoWrite s = { s with span := { s.span with pend := true, rtbusy := true } } := by
  rw [routeGoWrite, if_neg (by rw [hb]; decide)]
  exact if_neg (BitVec.not_le.2 h)

theorem routeGoWrite_switches {s : State} (hb : s.span.rtbusy = false) (h : s.span.rat ≤ s.plumb.count) : Switched s (routeGoWrite s) := by
  have hgo : routeGoWrite s = joinPorts (turned s) := by
    rw [routeGoWrite, if_neg (by rw [hb]; decide)]
    exact if_pos h
  rw [hgo]
  exact joinPorts_switches s

/-- What a credit that goes back changes of a port is taken from `o`. -/
def creditParts (o k : PortSt) : PortSt := { k with owed := o.owed, sent := o.sent }

def CreditSide (k o : PortSt) : Prop := o = creditParts o k

theorem CreditSide.refl (k : PortSt) : CreditSide k k := rfl

theorem CreditSide.trans {a b c : PortSt} (h : CreditSide a b) (g : CreditSide b c) : CreditSide a c := by
  unfold CreditSide at h g ⊢
  have hp := congrArg (creditParts c) h
  exact g.trans hp

theorem creditBack_credits (s : State) (p : Nat) (k : SpanPkt) : OnePort CreditSide s (creditBack s p k) p := by
  refine onePort_setPort ?_
  dsimp only
  have hsend : ∀ o : PortSt, CreditSide { o with owed := tset 0 o.owed k.vc.toNat (tget 0 o.owed k.vc.toNat + pktCredits k) }
      (sendEmpty s.plumb.count { o with owed := tset 0 o.owed k.vc.toNat (tget 0 o.owed k.vc.toNat + pktCredits k) }) := fun o => by
    rw [CreditSide, sendEmpty_sent]
    rfl
  split
  · split
    · rfl
    · exact CreditSide.trans (b := { getPort s p with owed := tset 0 (getPort s p).owed k.vc.toNat (tget 0 (getPort s p).owed k.vc.toNat + pktCredits k) }) rfl (hsend _)
  · split
    · rfl
    · exact CreditSide.trans (b := { getPort s p with owed := tset 0 (getPort s p).owed k.vc.toNat (tget 0 (getPort s p).owed k.vc.toNat + pktCredits k) }) rfl (hsend _)
  · rfl

theorem forEach_creditBack (p : Nat) : ∀ (ks : List SpanPkt) (s : State), OnePort CreditSide s (forEach s ks fun s k => creditBack s p k) p
  | [], _ => .refl rfl
  | k :: ks, s => (creditBack_credits s p k).trans (forEach_creditBack p ks (creditBack s p k)) fun _ _ _ => CreditSide.trans

/-- What the end of ROUTE_EN makes of a port: its queued packets are dropped and counted (R331). -/
def Emptied (k o : PortSt) : Prop :=
  o.outq = [] ∧ o.inbox = [] ∧ o.st = k.st ∧ o.drops = BitVec.ofNat 8 (min 255 (k.drops.toNat + (k.outq.length + k.inbox.length))) ∧
    (k.inbox = [] → o = { k with outq := [], inbox := [], drops := BitVec.ofNat 8 (min 255 (k.drops.toNat + (k.outq.length + k.inbox.length))) })

theorem emptyPort_empties (s : State) (p : Nat) : OnePort Emptied s
    (countDrops (modPort (forEach s ((getPort s p).inbox.map Prod.fst) fun s k => creditBack s p k) p fun k => { k with outq := [], inbox := [] }) p
      ((getPort s p).outq.length + (getPort s p).inbox.length)) p := by
  have hback := forEach_creditBack p ((getPort s p).inbox.map Prod.fst) s
  have hnone : (getPort s p).inbox = [] → forEach s ((getPort s p).inbox.map Prod.fst) (fun s k => creditBack s p k) = s := fun h => by
    rw [h]
    rfl
  generalize forEach s ((getPort s p).inbox.map Prod.fst) (fun s k => creditBack s p k) = s1 at hback hnone
  have hget : getPort (countDrops (modPort s1 p fun k => { k with outq := [], inbox := [] }) p ((getPort s p).outq.length + (getPort s p).inbox.length)) p =
      { getPort s1 p with outq := [], inbox := [], drops := BitVec.ofNat 8 (min 255 ((getPort s1 p).drops.toNat + ((getPort s p).outq.length + (getPort s p).inbox.length))) } := by
    have h1 : getPort (modPort s1 p fun k => { k with outq := [], inbox := [] }) p = { getPort s1 p with outq := [], inbox := [] } := tget_tset_self ..
    refine (tget_tset_self ..).trans ?_
    rw [h1]
  refine ⟨hback.package.trans rfl, fun q hq => ?_, ?_⟩
  · exact (tget_tset_ne _ hq _).trans ((tget_tset_ne _ hq _).trans (hback.others q hq))
  · rw [hget]
    have hst : (getPort s1 p).st = (getPort s p).st := (congrArg PortSt.st hback.port :)
    have hdrops : (getPort s1 p).drops = (getPort s p).drops := (congrArg PortSt.drops hback.port :)
    refine ⟨rfl, rfl, hst, by rw [hdrops], fun hi => ?_⟩
    rw [hnone hi]

theorem routeEnSet_off {s : State} (h : s.span.routeEn = true) : routeEnSet s false = { s with span := { s.span with routeEn := false, ports := (routeEnSet s false).span.ports } } ∧
    ∀ q < 18, Emptied (getPort s q) (getPort (routeEnSet s false) q) := by
  obtain ⟨h1, _, h3⟩ := forEach_ports emptyPort_empties (List.range 18) (withSpan s { s.span with routeEn := false }) List.nodup_range
  have hgo : routeEnSet s false = forEach (withSpan s { s.span with routeEn := false }) (List.range 18) fun s p =>
      countDrops (modPort (forEach s ((getPort s p).inbox.map Prod.fst) fun s k => creditBack s p k) p fun k => { k with outq := [], inbox := [] }) p
        ((getPort s p).outq.length + (getPort s p).inbox.length) := by
    rw [routeEnSet, if_neg (by rw [h]; decide), if_neg Bool.false_ne_true]
  rw [hgo]
  exact ⟨h1, fun q hq => h3 q (mem_ports hq)⟩

theorem routeEnSet_on {s : State} (h : s.span.routeEn = false) (hid : bt s.span.id 31 = true) :
    routeEnSet s true = { s with span := { s.span with routeEn := true, ports := (routeEnSet s true).span.ports } } ∧
    ∀ q < 18, Joins (getPort s q) (getPort (routeEnSet s true) q) := by
  have hgo : routeEnSet s true = joinPorts (withSpan s { s.span with routeEn := true }) := by
    rw [routeEnSet, if_neg (by rw [h]; decide), if_pos rfl, if_pos hid]
  rw [hgo]
  exact joinPorts_joins (withSpan s { s.span with routeEn := true })

theorem spanIdSet_writes {s : State} (h : s.span.routeEn = false) (v : BitVec 32) : spanIdSet s v = { s with span := { s.span with id := (spanIdSet s v).span.id } } ∧
    bt (spanIdSet s v).span.id 31 = bt v 31 ∧ bf (spanIdSet s v).span.id 24 16 = bf v 24 16 ∧ bf (spanIdSet s v).span.id 7 0 = bf v 7 0 ∧
    bf (spanIdSet s v).span.id 30 25 = 0 ∧ bf (spanIdSet s v).span.id 15 8 = 0 := by
  have hmask : v &&& 0x81FF00FF = mergeMask 0x81FF00FF 0 v := by simp [mergeMask]
  have hgo : spanIdSet s v = withSpan s { s.span with id := mergeMask 0x81FF00FF 0 v } := by
    rw [spanIdSet, if_neg (by rw [h]; decide), hmask]
  rw [hgo]
  exact ⟨rfl, bt_mergeMask_in _ _ (by decide), bf_mergeMask_in _ _ (by decide), bf_mergeMask_in _ _ (by decide),
    bf_mergeMask_out _ _ (by decide), bf_mergeMask_out _ _ (by decide)⟩

/-! ## Packets that a port received (R316, R323, R324) -/

/-- The state once a received packet has left its buffer, whose credits go back. -/
def unboxed (s : State) (p : Nat) (e : SpanPkt × Nat) : State := creditBack (modPort s p fun o => { o with inbox := o.inbox.erase e }) p e.1

/-- A packet that left the buffer of its port changes that port's buffer and what it owes and sends. -/
def Unboxed (e : SpanPkt × Nat) (k o : PortSt) : Prop := o = creditParts o { k with inbox := k.inbox.erase e }

theorem unboxed_port (s : State) (p : Nat) (e : SpanPkt × Nat) : OnePort (Unboxed e) s (unboxed s p e) p :=
  (onePort_setPort (R := fun k o => o = { k with inbox := k.inbox.erase e }) rfl).trans (creditBack_credits _ p e.1)
    fun a b c h g => by
      have hp := congrArg (creditParts c) h
      exact (show c = creditParts c b from g).trans hp

theorem unboxed_routeOf (s : State) (p : Nat) (e : SpanPkt × Nat) (x : SpanPkt) : routeOf (unboxed s p e) x = routeOf s x := by
  have h := unboxed_port s p e
  refine routeOf_congr h.package.portless (fun q => ?_) x
  by_cases hq : q = p
  · subst hq
    exact (congrArg PortSt.st h.port :)
  · rw [h.others q hq]

theorem unboxed_isolated (s : State) (p : Nat) (e : SpanPkt × Nat) : (unboxed s p e).key = s.key := by
  have h : PortsSide s (unboxed s p e) := (unboxed_port s p e).package
  rw [h]

theorem packetRoute_forwards {s : State} {p : Port} {e : SpanPkt × Nat} (h : (getPort s p.val).inbox.find? (fun x => decide (x.1 = e.1)) = some e) :
    exec (.packetRoute (some p) e.1) s = .next (forward s p.val e) := by
  have hexec : exec (.packetRoute (some p) e.1) s = execPacketRoute (some p) e.1 s := rfl
  rw [hexec, execPacketRoute, h]

theorem countDrops_one {s s0 : State} {p : Nat} (h : (getPort s p).drops = (getPort s0 p).drops) : SetsPort s (countDrops s p 1) p { getPort s p with
    drops := BitVec.ofNat 8 (min 255 ((getPort s0 p).drops.toNat + 1)) } := by
  rw [← h]
  exact setsPort_setPort ..

/-- A received packet that no route takes is dropped and counted. -/
theorem forward_drops {s : State} {p : Nat} {e : SpanPkt × Nat} (h : s.span.routeEn = false ∨ (pktIsReq e.1 = false ∧ pktIsResp e.1 = false) ∨
    routeOf s e.1 = .drop ∨ routeOf s e.1 = .none ∨ (routeOf s e.1 = .deliver ∧ s.key.hubIsolated = true)) :
    forward s p e = countDrops (unboxed s p e) p 1 := by
  have hroute := unboxed_routeOf s p e e.1
  have hkey := unboxed_isolated s p e
  have hgo : forward s p e = if (!(s.span.routeEn && (pktIsReq e.1 || pktIsResp e.1))) = true then countDrops (unboxed s p e) p 1 else
      match routeOf (unboxed s p e) e.1 with
      | .deliver => if (unboxed s p e).key.hubIsolated then countDrops (unboxed s p e) p 1
        else withSpan (unboxed s p e) { (unboxed s p e).span with delivered := (unboxed s p e).span.delivered ++ [e.1] }
      | .drop | .none => countDrops (unboxed s p e) p 1
      | .out q up => enqueueOn (unboxed s p e) q (raiseVc e.1 up) e.2 p := rfl
  rw [hgo, hroute, hkey]
  split
  · rfl
  · next hno =>
    rcases h with h | ⟨h1, h2⟩ | h | h | ⟨h, hk⟩
    · exact absurd (by rw [h]; rfl) hno
    · exact absurd (by rw [h1, h2]; simp) hno
    · rw [h]
    · rw [h]
    · rw [h]
      exact if_pos hk

theorem forward_routes {s : State} {p : Nat} {e : SpanPkt × Nat} (hen : s.span.routeEn = true) (hk : pktIsReq e.1 = true ∨ pktIsResp e.1 = true) :
    (routeOf s e.1 = .deliver → s.key.hubIsolated = false → forward s p e =
      { unboxed s p e with span := { (unboxed s p e).span with delivered := (unboxed s p e).span.delivered ++ [e.1] } }) ∧
    ∀ q up, routeOf s e.1 = .out q up → forward s p e = enqueueOn (unboxed s p e) q (raiseVc e.1 up) e.2 p := by
  have hroute := unboxed_routeOf s p e e.1
  have hkey := unboxed_isolated s p e
  have hgo : forward s p e = if (!(s.span.routeEn && (pktIsReq e.1 || pktIsResp e.1))) = true then countDrops (unboxed s p e) p 1 else
      match routeOf (unboxed s p e) e.1 with
      | .deliver => if (unboxed s p e).key.hubIsolated then countDrops (unboxed s p e) p 1
        else withSpan (unboxed s p e) { (unboxed s p e).span with delivered := (unboxed s p e).span.delivered ++ [e.1] }
      | .drop | .none => countDrops (unboxed s p e) p 1
      | .out q up => enqueueOn (unboxed s p e) q (raiseVc e.1 up) e.2 p := rfl
  have hpass : ¬ (!(s.span.routeEn && (pktIsReq e.1 || pktIsResp e.1))) = true := by
    rcases hk with h | h <;> simp [hen, h]
  rw [hgo, hroute, hkey, if_neg hpass]
  refine ⟨fun h hi => ?_, fun q up h => ?_⟩
  · rw [h]
    exact if_neg (by rw [hi]; decide)
  · rw [h]

theorem enqueueOn_queued (s : State) (q : Nat) (x : SpanPkt) (τ i : Nat) : PortsSide s (enqueueOn s q x τ i) ∧ QueuedOn s (enqueueOn s q x τ i) q x τ i := by
  have hget : getPort (modPort s q fun o => { o with outq := o.outq ++ [(x, τ, i)] }) q = { getPort s q with outq := (getPort s q).outq ++ [(x, τ, i)] } :=
    tget_tset_self ..
  refine ⟨rfl, ?_, fun r hr => (tget_tset_ne _ hr _).trans (tget_tset_ne _ hr _)⟩
  rw [enqueueOn, pumpPort_self, hget]
  rfl

/-! ## Packets of this package (R324, R326, R327, R335) -/

theorem packetRoute_injects {s : State} {e : SpanPkt × Nat} (h : s.span.sent.find? (fun x => decide (x.1 = e.1)) = some e) :
    exec (.packetRoute none e.1) s = .next (inject s e) := by
  have hexec : exec (.packetRoute none e.1) s = execPacketRoute none e.1 s := rfl
  rw [hexec, execPacketRoute, h]

theorem inject_waits {s : State} {e : SpanPkt × Nat} (h : s.span.routeEn = false ∨ bt s.span.id 31 = false ∨ s.key.hubIsolated = true ∨ behind s e.1 = true) :
    inject s e = s := by
  refine if_pos ?_
  rcases h with h | h | h | h <;> rw [h] <;> simp

/-- A packet as it is injected: of the active bank and by the way chosen for it. -/
def injected (s : State) (k : SpanPkt) : SpanPkt := { k with ep := s.span.actep, path := choosePath s k }

/-- The request of a packet that is injected on port `q` remembers how it left. -/
def markReq (k k1 : SpanPkt) (q : Nat) (r : RemReq) : RemReq := if r.tag = k.tag ∧ pktIsReq k = true then { r with pkt := k1, port := some q } else r

/-- The Span once packet `e` has left the list of those that wait, its request marked. -/
def injectedOn (s : State) (e : SpanPkt × Nat) (k1 : SpanPkt) (q : Nat) : State :=
  withSpan s { s.span with sent := s.span.sent.erase e, reqs := s.span.reqs.map (markReq e.1 k1 q) }

theorem inject_routes {s : State} {e : SpanPkt × Nat} (hen : s.span.routeEn = true) (hid : bt s.span.id 31 = true) (hiso : s.key.hubIsolated = false)
    (hb : behind s e.1 = false) :
    (routeOf s (injected s e.1) = .deliver → inject s e =
      { s with span := { s.span with sent := s.span.sent.erase e, delivered := s.span.delivered ++ [injected s e.1] } }) ∧
    (routeOf s (injected s e.1) = .none → inject s e = s) ∧
    ∀ q up, routeOf s (injected s e.1) = .out q up → (routeHeld s (injected s e.1) q = true → inject s e = s) ∧
      (routeHeld s (injected s e.1) q = false → inject s e = enqueueOn (injectedOn s e (injected s e.1) q) q (raiseVc (injected s e.1) up) e.2 18) := by
  have hgo : ¬ (!(s.span.routeEn && bt s.span.id 31 && !s.key.hubIsolated) || behind s e.1) = true := by simp [hen, hid, hiso, hb]
  have hrun : inject s e = match routeOf s (injected s e.1) with
      | .deliver => { s with span := { s.span with sent := s.span.sent.erase e, delivered := s.span.delivered ++ [injected s e.1] } }
      | .none | .drop => s
      | .out q up => if routeHeld s (injected s e.1) q then s
        else enqueueOn (injectedOn s e (injected s e.1) q) q (raiseVc (injected s e.1) up) e.2 18 := by
    rw [inject, if_neg hgo]
    rfl
  rw [hrun]
  refine ⟨fun h => by rw [h], fun h => by rw [h], fun q up h => ⟨fun hh => ?_, fun hh => ?_⟩⟩
  · rw [h]
    exact if_pos hh
  · rw [h]
    exact if_neg (by rw [hh]; decide)

theorem choosePath_near {s : State} {k : SpanPkt} (h : (pktDest k).1 = ownDomain s) : choosePath s k = 0 := by
  unfold choosePath
  cases hd : pktDest k with
  | mk d p =>
    rw [hd] at h
    exact if_pos h

/-! ## Packets that have waited too long (R325) -/

theorem staleOut {s : State} {p : Port} {i : Nat} {e : SpanPkt × Nat × Nat} (h : (getPort s p.val).outq[i]? = some e) :
    exec (.packetStaleDrop (.out p) i) s = if e.2.1 + 5000000 < s.now then
      .next (countDrops (modPort s p.val fun k => { k with outq := k.outq.eraseIdx i }) p.val 1) else .next s := by
  have hexec : exec (.packetStaleDrop (.out p) i) s = execPacketStaleDrop (.out p) i s := rfl
  rw [hexec, execPacketStaleDrop, h]

theorem staleInbox {s : State} {p : Port} {i : Nat} {e : SpanPkt × Nat} (h : (getPort s p.val).inbox[i]? = some e) :
    exec (.packetStaleDrop (.inbox p) i) s = if e.2 + 5000000 < s.now then
      .next (countDrops (creditBack (modPort s p.val fun k => { k with inbox := k.inbox.eraseIdx i }) p.val e.1) p.val 1) else .next s := by
  have hexec : exec (.packetStaleDrop (.inbox p) i) s = execPacketStaleDrop (.inbox p) i s := rfl
  rw [hexec, execPacketStaleDrop, h]

theorem staleSource {s : State} {i : Nat} {e : SpanPkt × Nat} (h : s.span.sent[i]? = some e) :
    exec (.packetStaleDrop .source i) s = if e.2 + 5000000 < s.now then .next (unsent s e) else .next s := by
  have hexec : exec (.packetStaleDrop .source i) s = execPacketStaleDrop .source i s := rfl
  rw [hexec, execPacketStaleDrop, h]

theorem staleOut_drops (s : State) (p i : Nat) : SetsPort s (countDrops (modPort s p fun k => { k with outq := k.outq.eraseIdx i }) p 1) p { getPort s p with
    outq := (getPort s p).outq.eraseIdx i, drops := BitVec.ofNat 8 (min 255 ((getPort s p).drops.toNat + 1)) } := by
  have hget : getPort (modPort s p fun k => { k with outq := k.outq.eraseIdx i }) p = { getPort s p with outq := (getPort s p).outq.eraseIdx i } := tget_tset_self ..
  refine ⟨rfl, (tget_tset_self ..).trans ?_, fun q hq => (tget_tset_ne _ hq _).trans (tget_tset_ne _ hq _)⟩
  rw [hget]

theorem staleInbox_drops (s : State) (p i : Nat) (k : SpanPkt) :
    ∃ o, SetsPort s (countDrops (creditBack (modPort s p fun k => { k with inbox := k.inbox.eraseIdx i }) p k) p 1) p o ∧
      o.inbox = (getPort s p).inbox.eraseIdx i ∧ o.outq = (getPort s p).outq ∧ o.drops = BitVec.ofNat 8 (min 255 ((getPort s p).drops.toNat + 1)) := by
  have h1 : OnePort (fun k o => o = { k with inbox := k.inbox.eraseIdx i }) s (modPort s p fun k => { k with inbox := k.inbox.eraseIdx i }) p := onePort_setPort rfl
  have h2 := creditBack_credits (modPort s p fun k => { k with inbox := k.inbox.eraseIdx i }) p k
  have hport := h2.port
  rw [h1.port] at hport
  generalize creditBack (modPort s p fun k => { k with inbox := k.inbox.eraseIdx i }) p k = s1 at h2 hport
  have hp : PortsSide s s1 := h1.package.trans h2.package
  have hset := setsPort_setPort s1 p { getPort s1 p with drops := BitVec.ofNat 8 (min 255 ((getPort s1 p).drops.toNat + 1)) }
  refine ⟨_, ⟨hp.trans (u := countDrops s1 p 1) hset.package, hset.port, fun q hq => ?_⟩, (congrArg PortSt.inbox hport :), (congrArg PortSt.outq hport :), ?_⟩
  · exact (hset.others q hq).trans ((h2.others q hq).trans (h1.others q hq))
  · have hd : (getPort s1 p).drops = (getPort s p).drops := (congrArg PortSt.drops hport :)
    show BitVec.ofNat 8 (min 255 ((getPort s1 p).drops.toNat + 1)) = _
    rw [hd]

end Sys2Proof.Machine
end

section
/-!
PROOF. Span requests between packages and the Plumb count (R333 to R342), and the obligation about routing.
-/

namespace Sys2Proof.Machine

/-! ## Service at the home (R337) -/

theorem pieces_line {f a n : Nat} (hn : n ≠ 0) (h : a % 64 + n ≤ 64) : pieces 64 (f + 2) a n = [(a, n)] := by
  have hmin : min n (64 - a % 64) = n := by omega
  rw [pieces, if_neg hn, hmin]
  dsimp only
  rw [Nat.sub_self, pieces, if_pos rfl]

theorem serveCheck_line {s : State} {x o n : Nat} (hn : n ≠ 0) (h : o % 64 + n ≤ 64) : serveCheck s x o n = hereCheck s hubDie false x o := by
  rw [serveCheck, pieces_line hn h, List.find?_cons]
  by_cases hc : hereCheck s hubDie false x o = St.ok
  · rw [decide_eq_false (not_not.2 hc), hc]
    rfl
  · rw [decide_eq_true hc]

theorem serve_read {s z : State} {k : SpanPkt} {c : Code} {d : List Byte} (hop : k.op = 0x01)
    (hline : bf k.addr 40 0 % 64 + (k.lenM1.toNat + 1) ≤ 64)
    (hread : hereRead s hubDie false k.ctx.toNat (bf k.addr 40 0) (k.lenM1.toNat + 1) false = (c, d, z)) :
    (hereCheck s hubDie false k.ctx.toNat (bf k.addr 40 0) = St.ok → serve s k = (c, if c = St.ok then d else [], z)) ∧
    (hereCheck s hubDie false k.ctx.toNat (bf k.addr 40 0) ≠ St.ok → serve s k = (hereCheck s hubDie false k.ctx.toNat (bf k.addr 40 0), [], s)) := by
  have hn : k.lenM1.toNat + 1 ≠ 0 := Nat.succ_ne_zero _
  rw [serve, if_pos hop]
  dsimp only
  rw [serveCheck_line hn hline, pieces_line hn hline]
  refine ⟨fun hc => ?_, fun hc => if_pos hc⟩
  rw [if_neg (not_not.2 hc), serveRead, hread]
  dsimp only
  split
  · rfl
  · next heq =>
    have hok : c = St.ok := not_not.1 heq
    rw [if_pos hok, serveRead, hok]
    rfl

theorem serve_write {s z : State} {k : SpanPkt} {c : Code} (hop : k.op = 0x02) (hdata : k.data ≠ [])
    (hline : bf k.addr 40 0 % 64 + k.data.length ≤ 64)
    (hwrite : hereWrite s hubDie false k.ctx.toNat (bf k.addr 40 0) k.data false = (c, z)) :
    (hereCheck s hubDie false k.ctx.toNat (bf k.addr 40 0) = St.ok → serve s k = (c, [], z)) ∧
    (hereCheck s hubDie false k.ctx.toNat (bf k.addr 40 0) ≠ St.ok → serve s k = (hereCheck s hubDie false k.ctx.toNat (bf k.addr 40 0), [], s)) := by
  have hn : k.data.length ≠ 0 := fun h => hdata (List.length_eq_zero_iff.1 h)
  rw [serve, if_neg (by rw [hop]; decide), if_pos hop]
  dsimp only
  rw [serveCheck_line hn hline, pieces_line hn hline]
  refine ⟨fun hc => ?_, fun hc => if_pos hc⟩
  rw [if_neg (not_not.2 hc), serveWrite, List.take_length, hwrite]
  dsimp only
  split
  · rfl
  · next heq =>
    have hok : c = St.ok := not_not.1 heq
    rw [serveWrite, hok]

theorem serve_atomic {s z : State} {k : SpanPkt} {c : Code} {old : Nat} (hop : k.op = 0x03)
    (hat : hereAtomic s hubDie k.ctx.toNat (bf k.addr 40 0) (if k.asz then 8 else 4) k.func.toNat (fieldLe k.data 0 (if k.asz then 8 else 4))
      (fieldLe k.data 8 (if k.asz then 8 else 4)) false = (c, old, z)) : serve s k = (c, if c = St.ok then toLe 8 old else [], z) := by
  rw [serve, if_neg (by rw [hop]; decide), if_neg (by rw [hop]; decide)]
  dsimp only
  rw [hat]
  dsimp only
  split <;> rfl

theorem remoteRequestServe_waits {s : State} {k : SpanPkt} (h : servedAfter s k = true ∨ chanHeld s (bf k.addr 40 0) = true) :
    exec (.remoteRequestServe k) s = .next s := by
  refine if_pos ?_
  rcases h with h | h <;> rw [h] <;> simp

theorem remoteRequestServe_serves {s z : State} {k : SpanPkt} {c : Code} {d : List Byte} (hk : k ∈ s.span.delivered)
    (hop : k.op = 0x01 ∨ k.op = 0x02 ∨ k.op = 0x03) (hafter : servedAfter s k = false) (hheld : chanHeld s (bf k.addr 40 0) = false)
    (hserve : serve (takeDelivered s k) k = (c, d, z)) : exec (.remoteRequestServe k) s = .next (respond z k c d) := by
  have hexec : exec (.remoteRequestServe k) s = execRemoteRequestServe k s := rfl
  have hask : asksHome k = true := decide_eq_true hop
  have hgo : ¬ (!(s.span.delivered.contains k && asksHome k) || servedAfter s k || chanHeld s (bf k.addr 40 0)) = true := by
    simp [hk, hask, hafter, hheld]
  rw [hexec, execRemoteRequestServe, if_neg hgo, hserve]

/-! ## Responses and timeouts (R336, R337) -/

theorem completeRemote_answered (s : State) (r : RemReq) (code : Code) (data : List Byte) : Answered s (completeRemote s r code data) r code data := by
  have hgo : completeRemote s r code data = completeUser (withoutReq s r) r.user true code data := rfl
  rw [hgo]
  generalize hz : withoutReq s r = z
  refine ⟨fun hq => ?_, fun c id a hu hfind => ?_, fun a hu => ?_, fun c ch va hu hok => ?_⟩
  · rw [hz]
    cases hu : r.user with
    | seq c id => rw [hu] at hq; exact absurd hq Bool.false_ne_true
    | send m => rw [hu] at hq; exact absurd hq Bool.false_ne_true
    | store c pc va =>
      rw [hu] at hq
      rw [completeUser, if_pos (of_decide_eq_true hq)]
    | dma c ch va =>
      rw [hu] at hq
      rw [completeUser, if_pos (of_decide_eq_true hq)]
    | mason w a =>
      cases w with
      | true =>
        rw [hu] at hq
        rw [completeUser, if_pos rfl, if_pos (of_decide_eq_true hq)]
      | false => rfl
    | wback x => rfl
    | answered => rfl
  · have hcore : getCore z c.val = getCore s c.val := by
      rw [← hz]
      rfl
    rw [hu, completeUser, hcore, hfind]
    dsimp only
    rw [hz]
  · rw [hu]
    exact ⟨rfl, rfl⟩
  · have hcores : z.cores = s.cores := by
      rw [← hz]
      rfl
    rw [hu, completeUser, if_pos hok, hcores]

theorem remoteResponse_takes {s : State} {k : SpanPkt} (hk : k ∈ s.span.delivered) (hresp : pktIsResp k = true) :
    ((∀ r ∈ s.span.reqs, r.tag ≠ k.tag) → exec (.remoteResponse k) s = .next (takeDelivered s k)) ∧
    ∀ r, s.span.reqs.find? (fun r => r.tag = k.tag) = some r →
      (statusKnown k.status = false → exec (.remoteResponse k) s = .next (takeDelivered s k)) ∧
      (statusKnown k.status = true → ∃ t, exec (.remoteResponse k) s = .next t ∧ Answered (takeDelivered s k) t r k.status k.data) := by
  have hexec : exec (.remoteResponse k) s = execRemoteResponse k s := rfl
  have hgo : ¬ (!(s.span.delivered.contains k && pktIsResp k)) = true := by simp [hk, hresp]
  have hreqs : (takeDelivered s k).span.reqs = s.span.reqs := rfl
  rw [hexec, execRemoteResponse, if_neg hgo]
  dsimp only
  rw [hreqs]
  refine ⟨fun hnone => ?_, fun r hr => ?_⟩
  · have hfind : s.span.reqs.find? (fun r => decide (r.tag = k.tag)) = none := List.find?_eq_none.2 fun r hr => by simp [hnone r hr]
    rw [hfind]
  · rw [hr]
    dsimp only
    refine ⟨fun hno => by rw [hno]; rfl, fun hyes => ⟨completeRemote (takeDelivered s k) r k.status k.data, by rw [hyes]; rfl, completeRemote_answered ..⟩⟩

theorem remoteTimeout_answers {s : State} {tag : BitVec 18} {r : RemReq} (h : s.span.reqs.find? (fun r => r.tag = tag) = some r) :
    (s.now < r.issued + (if r.hall then 20000000 else 2000000) → exec (.remoteTimeout tag) s = .next s) ∧
    (r.issued + (if r.hall then 20000000 else 2000000) ≤ s.now → ∃ t, exec (.remoteTimeout tag) s = .next t ∧ Answered s t r St.remoteTimeout []) := by
  have hexec : exec (.remoteTimeout tag) s = execRemoteTimeout tag s := rfl
  have hlevel : levelTimeout r.hall = if r.hall then 20000000 else 2000000 := rfl
  rw [hexec, execRemoteTimeout, h]
  dsimp only
  rw [hlevel]
  exact ⟨fun hlt => if_neg (Nat.not_le.2 hlt), fun hle => ⟨_, if_pos hle, completeRemote_answered ..⟩⟩

/-! ## The Plumb count (R340 to R342) -/

/-- Of the package only the Span's ports and the free choices taken differ. -/
def FreePorts (s t : State) : Prop := t = { s with free := t.free, span := { s.span with ports := t.span.ports } }

theorem FreePorts.trans {s t u : State} (h : FreePorts s t) (g : FreePorts t u) : FreePorts s u := by
  unfold FreePorts at h g ⊢
  rw [g, h]

/-- What new flits change of a port is taken from `o`. -/
def newFlits (o k : PortSt) : PortSt := { k with sent := o.sent, owed := o.owed, txNext := o.txNext, retry := o.retry }

theorem transmit_newFlits (cnt : BitVec 64) (k : PortSt) (ps : List SpanPkt) : transmit cnt k ps = newFlits (transmit cnt k ps) k := by
  unfold transmit
  extract_lets fs k1
  have h1 : k1 = sentParts k1 k := sendFlits_sent cnt fs k
  rw [h1]
  rfl

/-- A port whose interval has ended begins a new mean; its state and its queues stand. -/
def NewMean (k o : PortSt) : Prop := o.stampSum = 0 ∧ o.stampCnt = 0 ∧ o.st = k.st ∧ o.inbox = k.inbox ∧ o.outq = k.outq

theorem meanOut_ends (s : State) (p : Nat) : FreePorts s (meanOut s p) ∧ (∀ q, q ≠ p → getPort (meanOut s p) q = getPort s q) ∧
    NewMean (getPort s p) (getPort (meanOut s p) p) := by
  unfold meanOut
  dsimp only
  split
  · exact ⟨rfl, fun _ hq => tget_tset_ne _ hq _, by
      have hget : getPort (setPort s p { getPort s p with stampSum := 0, stampCnt := 0 }) p = { getPort s p with stampSum := 0, stampCnt := 0 } := tget_tset_self ..
      rw [hget]
      exact ⟨rfl, rfl, rfl, rfl, rfl⟩⟩
  · refine ⟨rfl, fun _ hq => tget_tset_ne _ hq _, ?_⟩
    have hget : ∀ (u : State) (k : PortSt), getPort (setPort u p k) p = k := fun u k => tget_tset_self ..
    rw [hget, transmit_newFlits]
    exact ⟨rfl, rfl, rfl, rfl, rfl⟩

theorem forEach_meanOut (s : State) : IntervalEnds s (forEach s (List.range 18) meanOut) := by
  obtain ⟨h1, _, h3⟩ := forEach_eachPort (S := FreePorts) (fun _ => rfl) FreePorts.trans meanOut_ends (List.range 18) s List.nodup_range
  exact ⟨h1, fun q hq => h3 q (mem_ports hq)⟩

theorem plumbInterval_runs {s : State} (h : s.plumb.running = true) (d2 : Int) (n : BitVec 64) (lk : Bool) :
    exec (.plumbInterval d2 n lk) s = .next (forEach (plumbTakes s d2 n lk) (List.range 18) meanOut) := by
  have hexec : exec (.plumbInterval d2 n lk) s = execPlumbInterval d2 n lk s := rfl
  rw [hexec, execPlumbInterval, if_neg (by rw [h]; decide)]

theorem plumbTakes_root {s : State} (hrun : s.plumb.running = true) (hroot : plumbRoot s = true) (d2 : Int) (n : BitVec 64) :
    (∀ q < 18, portLive s q = true → s.plumb.locked = false →
      plumbTakes s d2 n true = { s with plumb := { s.plumb with count := n, locked := true, everLocked := true } }) ∧
    (s.plumb.locked = true → plumbTakes s d2 n true = s) := by
  refine ⟨fun q hq hlive hl => ?_, fun hl => ?_⟩
  · have hany : (List.range 18).any (portLive s) = true := List.any_eq_true.2 ⟨q, mem_ports hq, hlive⟩
    rw [plumbTakes, if_pos hroot, if_pos hany, rootTakes]
    exact if_pos (by simp [hroot, hrun, hl])
  · rw [plumbTakes, if_pos hroot]
    split
    · exact if_neg (by simp [hl])
    · rfl

theorem plumbRootLockTimeout_locks {s : State} {τ : Nat} (hrun : s.plumb.running = true) (hroot : plumbRoot s = true) (hl : s.plumb.locked = false)
    (hwhen : s.plumb.firstHeld = some τ ∨ (s.plumb.firstHeld = none ∧ s.plumb.step8 = some τ)) :
    (s.now < τ + 100000000 → exec .plumbRootLockTimeout s = .next s) ∧
    (τ + 100000000 ≤ s.now → ∃ t, exec .plumbRootLockTimeout s = .next t ∧ t = { s with plumb := { s.plumb with locked := true, everLocked := true } }) := by
  have hgo : exec .plumbRootLockTimeout s = if decide (τ + 100000000 ≤ s.now) = true then
      .next (withPlumb s { s.plumb with locked := true, everLocked := true }) else .next s := by
    have hexec : exec .plumbRootLockTimeout s = execPlumbRootLockTimeout s := rfl
    rw [hexec, execPlumbRootLockTimeout]
    dsimp only
    rcases hwhen with h | ⟨h1, h2⟩
    · rw [h, hroot, hrun, hl]
      simp only [Bool.not_false, Bool.true_and]
    · rw [h1, h2, hroot, hrun, hl]
      simp only [Bool.not_false, Bool.true_and]
  rw [hgo]
  exact ⟨fun hlt => if_neg fun h => Nat.not_le.2 hlt (of_decide_eq_true h), fun hle => ⟨_, if_pos (decide_eq_true hle), rfl⟩⟩

theorem lockStep_keeps (k : PlumbSt) (θ : Rat) (now : Nat) : (lockStep k θ now).count = k.count ∧ (lockStep k θ now).rate = k.rate ∧
    (lockStep k θ now).stepped = k.stepped ∧ (lockStep k θ now).holdover = k.holdover ∧ (lockStep k θ now).stuck = k.stuck := by
  refine iteInduction (motive := fun o : PlumbSt => o.count = k.count ∧ o.rate = k.rate ∧ o.stepped = k.stepped ∧ o.holdover = k.holdover ∧
    o.stuck = k.stuck) (fun _ => ⟨rfl, rfl, rfl, rfl, rfl⟩) fun _ => ?_
  exact iteInduction (motive := fun o : PlumbSt => o.count = k.count ∧ o.rate = k.rate ∧ o.stepped = k.stepped ∧ o.holdover = k.holdover ∧
    o.stuck = k.stuck) (fun _ => ⟨rfl, rfl, rfl, rfl, rfl⟩) fun _ => ⟨rfl, rfl, rfl, rfl, rfl⟩

/-- What a following package makes of an offset, from its Plumb state `k` to `o`, its neighbour's count being `n` (R341). -/
structure Follows (k o : PlumbSt) (n : BitVec 64) : Prop where
  first : k.everLocked = false → o.count = n
  steps : k.everLocked = true → 1000 < (n - k.count).toInt → o.count = n ∧ o.stepped = true
  sticks : k.everLocked = true → (n - k.count).toInt < -1000 → o.count = k.count ∧ o.stuck = true ∧ o.holdover = true ∧ o.locked = false
  steers : k.everLocked = true → (n - k.count).toInt ≤ 1000 → -1000 ≤ (n - k.count).toInt → o.count = k.count ∧ -200 ≤ o.rate ∧ o.rate ≤ 200 ∧
    o.stepped = k.stepped ∧ o.holdover = k.holdover

/-- The Plumb state with the offset that it shows. -/
def showsOffset (k : PlumbSt) (θ : Rat) : PlumbSt := { k with offset := offsetField θ }

/-- The steering rate of an offset, at most 200 parts either way. -/
def steered (θ : Rat) : Int := max (-200) (min 200 (Config.plumbSteer θ))

theorem steered_bounds (θ : Rat) : -200 ≤ steered θ ∧ steered θ ≤ 200 := by
  unfold steered
  omega

theorem plumbFollow_eq (s : State) (θ : Rat) (n : BitVec 64) : plumbFollow s θ n =
    if (!s.plumb.everLocked) = true then withPlumb s (lockStep (if n = s.plumb.count then { showsOffset s.plumb θ with rate := steered θ }
      else { showsOffset s.plumb θ with count := n, rate := 0 }) θ s.now)
    else if 1000 < (n - s.plumb.count).toInt then withPlumb s { lockStep (showsOffset s.plumb θ) θ s.now with count := n, stepped := true, rate := 0 }
    else if (n - s.plumb.count).toInt < -1000 then plumbCheck (withPlumb s { showsOffset s.plumb θ with stuck := true })
    else withPlumb s { lockStep (showsOffset s.plumb θ) θ s.now with rate := steered θ } := rfl

/-- A running package that is stuck and is no root has no source: it is in HOLDOVER. -/
theorem plumbCheck_stuck {s : State} (hrun : s.plumb.running = true) (hroot : plumbRoot s = false) (hstuck : s.plumb.stuck = true) :
    plumbCheck s = withPlumb s { s.plumb with holdover := true, locked := false, rate := 0, goodSince := none, badSince := none } := by
  rw [plumbCheck, hroot]
  dsimp only
  rw [hrun, hstuck]
  rfl

theorem plumbFollow_follows (s : State) (hrun : s.plumb.running = true) (hroot : plumbRoot s = false) (θ : Rat) (n : BitVec 64) :
    ∃ k, plumbFollow s θ n = withPlumb s k ∧ Follows s.plumb k n := by
  obtain ⟨l1, _, l3, l4, _⟩ := lockStep_keeps (showsOffset s.plumb θ) θ s.now
  rw [plumbFollow_eq]
  cases hever : s.plumb.everLocked with
  | false =>
    have hno : ∀ {P : Prop}, s.plumb.everLocked = true → P := fun h => absurd (hever.symm.trans h) (by decide)
    rw [if_pos (by decide)]
    refine ⟨_, rfl, fun _ => ?_, fun h => hno h, fun h => hno h, fun h => hno h⟩
    split
    · next heq => exact (lockStep_keeps ..).1.trans heq.symm
    · exact (lockStep_keeps ..).1
  | true =>
    have hno : ∀ {P : Prop}, s.plumb.everLocked = false → P := fun h => absurd (hever.symm.trans h) (by decide)
    rw [if_neg (by decide)]
    by_cases hgt : 1000 < (n - s.plumb.count).toInt
    · rw [if_pos hgt]
      exact ⟨_, rfl, fun h => hno h, fun _ _ => ⟨rfl, rfl⟩, fun _ hlt => by omega, fun _ hle _ => by omega⟩
    · rw [if_neg hgt]
      by_cases hlt : (n - s.plumb.count).toInt < -1000
      · rw [if_pos hlt]
        have hstick := plumbCheck_stuck (s := withPlumb s { showsOffset s.plumb θ with stuck := true }) hrun hroot rfl
        exact ⟨_, hstick, fun h => hno h, fun _ h => absurd h hgt, fun _ _ => ⟨rfl, rfl, rfl, rfl⟩, fun _ _ hge => by omega⟩
      · rw [if_neg hlt]
        obtain ⟨b1, b2⟩ := steered_bounds θ
        exact ⟨_, rfl, fun h => hno h, fun _ h => absurd h hgt, fun _ h => absurd h hlt, fun _ _ _ => ⟨l1, b1, b2, l3, l4⟩⟩

/-- The Plumb state of a package that follows port `x`. -/
def followsPort (k : PlumbSt) (x : Nat) : PlumbSt := { k with holdover := false, src := decide (x ≠ bf k.cfg 30 26) }

theorem plumbCheck_source {s : State} {x : Nat} (hrun : s.plumb.running = true) (hroot : plumbRoot s = false) (hstuck : s.plumb.stuck = false)
    (hx : plumbPort s = some x) : plumbCheck s = withPlumb s (followsPort s.plumb x) := by
  have hgo : ¬ (!s.plumb.running) = true := fun h => Bool.false_ne_true ((congrArg not hrun).symm.trans h)
  have hsrc : (if s.plumb.stuck = true then none else plumbPort s) = some x := (if_neg (by rw [hstuck]; decide)).trans hx
  rw [plumbCheck, if_neg hgo, if_neg (by rw [hroot]; decide), hsrc]
  rfl

/-- A following package takes the means of its port. -/
theorem plumbTakes_follows {s : State} {x : Nat} (hrun : s.plumb.running = true) (hroot : plumbRoot s = false) (hstuck : s.plumb.stuck = false)
    (hx : plumbPort s = some x) (hcnt : (getPort s x).stampCnt ≠ 0) (d2 : Int) (n : BitVec 64) (lk : Bool) :
    ∃ k, plumbTakes s d2 n lk = withPlumb s k ∧ Follows (followsPort s.plumb x) k n := by
  have hsource : plumbSource (withPlumb s (followsPort s.plumb x)) = some x := by
    have hs : (withPlumb s (followsPort s.plumb x)).plumb.stuck = false := hstuck
    rw [plumbSource, hs, if_neg Bool.false_ne_true]
    exact hx
  obtain ⟨k, hk, hf⟩ := plumbFollow_follows (withPlumb s (followsPort s.plumb x)) hrun hroot
    (((getPort s x).stampSum / (getPort s x).stampCnt - d2 - (getPort s x).asym.toInt) / 2) n
  refine ⟨k, ?_, hf⟩
  rw [plumbTakes, if_neg (by rw [hroot]; decide), plumbCheck_source hrun hroot hstuck hx]
  dsimp only
  rw [hsource]
  exact (if_neg hcnt).trans hk

/-! ## The obligation -/

theorem portsSide_span {s t : State} (h : PortsSide s t) : t.span = { s.span with ports := t.span.ports } := by
  unfold PortsSide at h
  exact (congrArg State.span h :)

theorem spanSide_ports {s t : State} (h : PortsSide s t) : SpanSide s t := by
  unfold PortsSide at h
  rw [h]
  rfl

theorem spanSide_injected {s t : State} {e : SpanPkt × Nat} {k : SpanPkt} {q : Nat} (h : PortsSide (injectedOn s e k q) t) : SpanSide s t := by
  unfold PortsSide at h
  rw [h]
  rfl

/-- Settles O53: the registers and the switch by what they do to every port, a packet by the branch of the routing procedure that takes it,
a request by the one line that it touches at its home, and an interval by the branch of R341 that the offset chooses. -/
theorem spanRoutesRun : Obligations.SpanRoutesRun := by
  intro s
  refine ⟨fun view hv => ⟨fun en hen => ?_, fun hen hid => ?_, fun hen hid => ?_, fun hen => ?_, fun v => ⟨fun h => ?_, fun h1 h2 => ?_⟩,
      fun v => ⟨fun hen => ?_, fun hen => ?_⟩, fun hb => ?_, fun hb hlt => ?_, fun hb hle => ?_⟩, fun view hv => ⟨fun en => ?_, fun v => ?_, fun v => ?_, ?_⟩,
    fun hpend => ⟨fun hlt => ?_, fun hle hb => ?_⟩, fun τ hd => ?_, fun p e he => ?_, fun e he => ?_, fun p i x τ inp he => ?_, fun p i x τ he => ?_,
    fun i x τ he => ?_, fun k hk => ?_, fun tag r hr => remoteTimeout_answers hr, fun hrun hroot => ?_, fun d2 n lk x hrun hroot hstuck hx hcnt => ?_⟩
  · exact congrArg Host.Outcome.next ((if_pos hv).trans (if_pos hen))
  · exact congrArg Host.Outcome.next ((if_pos hv).trans ((if_neg (by rw [hen]; decide)).trans ((if_pos rfl).trans (if_neg (by rw [hid]; decide)))))
  · obtain ⟨h1, h2⟩ := routeEnSet_on hen hid
    exact ⟨_, congrArg Host.Outcome.next (if_pos hv), h1, h2⟩
  · obtain ⟨h1, h2⟩ := routeEnSet_off hen
    exact ⟨_, congrArg Host.Outcome.next (if_pos hv), h1, h2⟩
  · exact ⟨_, congrArg Host.Outcome.next ((if_pos hv).trans (if_pos h)), rfl⟩
  · exact congrArg Host.Outcome.next ((if_pos hv).trans (if_neg (not_or.2 ⟨h1, h2⟩)))
  · exact congrArg Host.Outcome.next ((if_pos hv).trans (if_pos hen))
  · exact ⟨_, congrArg Host.Outcome.next (if_pos hv), spanIdSet_writes hen v⟩
  · exact congrArg Host.Outcome.next ((if_pos hv).trans (if_pos hb))
  · exact ⟨_, congrArg Host.Outcome.next (if_pos hv), routeGoWrite_waits hb hlt⟩
  · exact ⟨_, congrArg Host.Outcome.next (if_pos hv), routeGoWrite_switches hb hle⟩
  · exact congrArg Host.Outcome.next (if_neg (by rw [hv]; decide))
  · exact congrArg Host.Outcome.next (if_neg (by rw [hv]; decide))
  · exact congrArg Host.Outcome.next (if_neg (by rw [hv]; decide))
  · exact congrArg Host.Outcome.next (if_neg (by rw [hv]; decide))
  · exact congrArg Host.Outcome.next (if_neg fun h => BitVec.not_le.2 hlt h.2)
  · exact ⟨_, congrArg Host.Outcome.next (if_pos ⟨hpend, hle⟩), switchRoutes_switches hb⟩
  · have hexec : exec .routeDrainEnd s = execRouteDrainEnd s := rfl
    rw [hexec, execRouteDrainEnd, hd]
    exact ⟨fun hlt => if_neg (Nat.not_le.2 hlt), fun hle => ⟨_, if_pos hle, rfl⟩⟩
  · intro k s1
    have h1 := (unboxed_port s p.val e).port
    have hdrops : (getPort s1 p.val).drops = (getPort s p.val).drops := (congrArg PortSt.drops h1 :)
    refine ⟨(congrArg PortSt.inbox h1 :), (congrArg PortSt.outq h1 :), fun h => ⟨_, packetRoute_forwards he, ?_⟩, fun hen hk => ⟨fun hdel hiso => ⟨_, packetRoute_forwards he, ?_⟩, fun q up ho => ⟨_, packetRoute_forwards he, ?_⟩⟩⟩
    · rw [forward_drops h]
      exact countDrops_one hdrops
    · exact (forward_routes hen hk).1 hdel hiso
    · rw [(forward_routes hen hk).2 q up ho]
      obtain ⟨g1, g2⟩ := enqueueOn_queued (unboxed s p.val e) q (raiseVc e.1 up) e.2 p.val
      have hall : PortsSide s (enqueueOn (unboxed s p.val e) q (raiseVc e.1 up) e.2 p.val) := (unboxed_port s p.val e).package.trans g1
      exact ⟨spanSide_ports hall, g2⟩
  · intro k
    refine ⟨fun h => (packetRoute_injects he).trans (congrArg Host.Outcome.next (inject_waits h)), fun hen hid hiso hb => ?_⟩
    have hexec := packetRoute_injects he
    obtain ⟨hdel, hnone, hout⟩ := inject_routes hen hid hiso hb
    refine ⟨choosePath_near, fun h => ⟨_, hexec, hdel h⟩, fun h => hexec.trans (congrArg _ (hnone h)),
      fun q up h hh => hexec.trans (congrArg _ ((hout q up h).1 hh)), fun q up h hh => ?_⟩
    obtain ⟨g1, g2⟩ := enqueueOn_queued (injectedOn s e (injected s e.1) q) q (raiseVc (injected s e.1) up) e.2 18
    have hgo := (hout q up h).2 hh
    generalize enqueueOn (injectedOn s e (injected s e.1) q) q (raiseVc (injected s e.1) up) e.2 18 = t at g1 g2 hgo
    exact ⟨t, hexec.trans (congrArg _ hgo), spanSide_injected g1, (congrArg SpanSt.sent (portsSide_span g1) :), g2,
      (congrArg SpanSt.reqs (portsSide_span g1) :)⟩
  · rw [staleOut he]
    exact ⟨fun hle => if_neg (Nat.not_lt.2 hle), fun hlt => ⟨_, if_pos hlt, staleOut_drops s p.val i⟩⟩
  · rw [staleInbox he]
    obtain ⟨o, h1, h2⟩ := staleInbox_drops s p.val i x
    exact ⟨fun hle => if_neg (Nat.not_lt.2 hle), fun hlt => ⟨_, o, if_pos hlt, h1, h2⟩⟩
  · rw [staleSource he]
    exact ⟨fun hle => if_neg (Nat.not_lt.2 hle), fun hlt => ⟨_, if_pos hlt, rfl⟩⟩
  · intro s1 o
    refine ⟨remoteRequestServe_waits, fun hafter hheld => ⟨fun c d z hop hline hread => ?_, fun c z hop hdata hline hwrite => ?_, fun c old z hop hat => ?_⟩,
      fun hresp => remoteResponse_takes hk hresp⟩
    · obtain ⟨h1, h2⟩ := serve_read hop hline hread
      by_cases hc : hereCheck (takeDelivered s k) hubDie false k.ctx.toNat (bf k.addr 40 0) = St.ok
      · exact ⟨_, remoteRequestServe_serves hk (.inl hop) hafter hheld (h1 hc), fun _ => rfl, fun hne => absurd hc hne⟩
      · exact ⟨_, remoteRequestServe_serves hk (.inl hop) hafter hheld (h2 hc), fun hok => absurd hok hc, fun _ => rfl⟩
    · obtain ⟨h1, h2⟩ := serve_write hop hdata hline hwrite
      by_cases hc : hereCheck (takeDelivered s k) hubDie false k.ctx.toNat (bf k.addr 40 0) = St.ok
      · exact ⟨_, remoteRequestServe_serves hk (.inr (.inl hop)) hafter hheld (h1 hc), fun _ => rfl, fun hne => absurd hc hne⟩
      · exact ⟨_, remoteRequestServe_serves hk (.inr (.inl hop)) hafter hheld (h2 hc), fun hok => absurd hok hc, fun _ => rfl⟩
    · exact ⟨_, remoteRequestServe_serves hk (.inr (.inr hop)) hafter hheld (serve_atomic hop hat), rfl⟩
  · refine ⟨fun d2 n q hq hlive hl => ⟨_, plumbInterval_runs hrun d2 n true, ?_⟩, fun d2 n hl => ⟨_, plumbInterval_runs hrun d2 n true, ?_⟩,
      fun hl τ hwhen => plumbRootLockTimeout_locks hrun hroot hl hwhen⟩
    · rw [(plumbTakes_root hrun hroot d2 n).1 q hq hlive hl]
      exact forEach_meanOut _
    · rw [(plumbTakes_root hrun hroot d2 n).2 hl]
      exact forEach_meanOut s
  · obtain ⟨k, hk, hf⟩ := plumbTakes_follows hrun hroot hstuck hx hcnt d2 n lk
    have hexec := plumbInterval_runs hrun d2 n lk
    rw [hk] at hexec
    have hends := forEach_meanOut (withPlumb s k)
    generalize forEach (withPlumb s k) (List.range 18) meanOut = t at hexec hends
    have hplumb : t.plumb = k := by rw [hends.package]; rfl
    refine ⟨t, hexec, ?_, ?_⟩
    · rw [hplumb]; exact hends
    · rw [hplumb]
      exact ⟨hf.first, hf.steps, hf.sticks, hf.steers⟩

end Sys2Proof.Machine
end

section
/-!
PROOF. Mailbox pages and records (R400, R404, R406, R421): what a page keeps, RAS records in the rings, orders that are taken and answered.
-/

namespace Sys2Proof.Machine

/-! ## Pages -/

theorem setsMbox_setMbox (s : State) (m : Nat) (k : Mbox) : SetsMbox s (setMbox s m k) m k :=
  ⟨rfl, getMbox_setMbox_self .., fun _ hi => getMbox_setMbox_ne _ _ hi⟩

theorem getMbox_of_key {s t : State} (h : t.key.mb = s.key.mb) (m : Nat) : getMbox t m = getMbox s m := by
  rw [getMbox, h, getMbox]

/-! ## RAS records (R14, R421) -/

/-- A page whose ring has taken record `r`, or has counted it as lost. -/
def ringed (k : Mbox) (r : List Byte) : Mbox :=
  if (bf k.ras 31 16 + 65536 - bf k.ras 15 0) % 65536 ≥ 32 then
    { k with rasx := sb (sf k.rasx 15 0 (satInc (BitVec.ofNat 16 (bf k.rasx 15 0))).toNat) 31 true }
  else { k with page := wrN k.page (0xC00 + 32 * (bf k.ras 31 16 % 32)) r, ras := sf k.ras 31 16 (bf k.ras 31 16 + 1) }

theorem rasToRing_pages (s : State) (m : Nat) (r : List Byte) : getMbox (rasToRing s m r) m = ringed (getMbox s m) r ∧
    (∀ i, i ≠ m → getMbox (rasToRing s m r) i = getMbox s i) ∧ (rasToRing s m r).key.rseq = s.key.rseq := by
  unfold rasToRing ringed
  dsimp only
  split
  · exact ⟨getMbox_setMbox_self .., fun i hi => getMbox_setMbox_ne _ _ hi, rfl⟩
  · refine ⟨?_, fun i hi => ?_, ?_⟩
    · rw [getMbox_of_key (congrArg KeySt.mb (mbIrq_key ..))]
      exact getMbox_setMbox_self ..
    · rw [getMbox_of_key (congrArg KeySt.mb (mbIrq_key ..))]
      exact getMbox_setMbox_ne _ _ hi
    · rw [mbIrq_key]
      rfl

theorem forEach_rasToRing (r : List Byte) : ∀ (l : List Nat) (s : State), l.Nodup →
    (∀ m ∈ l, getMbox (forEach s l fun s m => rasToRing s m r) m = ringed (getMbox s m) r) ∧
    (∀ m, m ∉ l → getMbox (forEach s l fun s m => rasToRing s m r) m = getMbox s m) ∧
    (forEach s l fun s m => rasToRing s m r).key.rseq = s.key.rseq
  | [], _, _ => ⟨fun _ hm => absurd hm List.not_mem_nil, fun _ _ => rfl, rfl⟩
  | m :: l, s, hnd => by
    have hstep : (forEach s (m :: l) fun s m => rasToRing s m r) = forEach (rasToRing s m r) l fun s m => rasToRing s m r := rfl
    obtain ⟨hm, hl⟩ := List.nodup_cons.1 hnd
    obtain ⟨h1, h2, h3⟩ := rasToRing_pages s m r
    obtain ⟨g1, g2, g3⟩ := forEach_rasToRing r l (rasToRing s m r) hl
    rw [hstep]
    refine ⟨fun i hi => ?_, fun i hi => ?_, g3.trans h3⟩
    · by_cases he : i = m
      · subst he
        rw [g2 i hm, h1]
      · rw [g1 i ((List.mem_cons.1 hi).resolve_left he), h2 i he]
    · have hne : i ≠ m := fun he => hi (List.mem_cons.2 (.inl he))
      rw [g2 i (fun hh => hi (List.mem_cons_of_mem _ hh)), h2 i hne]

/-- A record to the four mailboxes reaches each ring (R421). -/
theorem ras_reported (s : State) (code : Code) (kind : Nat) (unit : BitVec 32) (detail : Nat) :
    RasReported s (ras s code kind unit detail) code kind unit detail := by
  obtain ⟨h1, _, h3⟩ := forEach_rasToRing (rasBytes s code kind 0xFFFF unit 0xFFFF detail) [0, 1, 2, 3] s (by decide)
  have hpage : ∀ m < 4, getMbox (ras s code kind unit detail) m = ringed (getMbox s m) (rasBytes s code kind 0xFFFF unit 0xFFFF detail) := fun m hm => by
    have hmem : m ∈ [0, 1, 2, 3] := by
      simp only [List.mem_cons, List.not_mem_nil]
      omega
    exact h1 m hmem
  refine ⟨ras_ras (RasSide.refl s), fun m hm => ?_, fun m hm => ?_, ?_⟩
  · intro k hroom
    rw [hpage m hm, ringed, if_neg (Nat.not_le.2 hroom)]
  · intro k hfull
    rw [hpage m hm, ringed, if_pos hfull, satInc_toNat _ (bf_lt _ 15 0), Nat.min_comm]
  · exact congrArg (· + 1) h3

/-! ## Bytes of a field -/

theorem leNat_byte : ∀ (bs : List Byte) (j : Nat), BitVec.ofNat 8 (leNat bs / 256 ^ j) = bs.getD j 0
  | [], j => by simp [leNat]
  | b :: bs, 0 => by
    have hb : b.toNat < 256 := b.isLt
    refine BitVec.eq_of_toNat_eq ?_
    rw [leNat, Nat.pow_zero, Nat.div_one, BitVec.toNat_ofNat]
    show (b.toNat + 256 * leNat bs) % 256 = b.toNat
    omega
  | b :: bs, j + 1 => by
    have hb : b.toNat < 256 := b.isLt
    have hdiv : (b.toNat + 256 * leNat bs) / 256 = leNat bs := by omega
    rw [leNat, Nat.pow_succ, Nat.mul_comm (256 ^ j) 256, ← Nat.div_div_eq_div_mul, hdiv, leNat_byte bs j]
    rfl

theorem slice_getD (bs : List Byte) (o n j : Nat) (h : j < n) : (slice bs o n).getD j 0 = bs.getD (o + j) 0 := by
  unfold slice
  rw [List.getD_eq_getElem?_getD, List.getD_eq_getElem?_getD, List.getElem?_append]
  split
  · rw [List.getElem?_take_of_lt h, List.getElem?_drop]
  · next hlen =>
    have hout : bs.length ≤ o + j := by
      rw [List.length_take, List.length_drop] at hlen
      omega
    rw [List.getElem?_eq_none hout, List.getElem?_replicate]
    split <;> rfl

/-- Byte `j` of a little-endian field. -/
theorem fieldLe_byte (bs : List Byte) (o n j : Nat) (h : j < n) : BitVec.ofNat 8 (fieldLe bs o n / 256 ^ j) = bs.getD (o + j) 0 := by
  rw [fieldLe, leNat_byte, slice_getD bs o n j h]

theorem slice_drop (bs : List Byte) (d o n : Nat) : slice (bs.drop d) o n = slice bs (d + o) n := by
  rw [slice, slice, List.drop_drop]

/-! ## Writes of a page -/

theorem mbWrite4_page {k : Mbox} {o : Nat} {v : BitVec 32} (h1 : 0x040 ≤ o) (h2 : o < 0x400) :
    mbWrite4 k o v = { k with page := wrN k.page o (toLe 4 v.toNat) } := by
  unfold mbWrite4
  split
  · omega
  · omega
  · omega
  · omega
  · omega
  · exact if_pos ⟨h1, h2⟩

/-- An 8-byte write of ARG writes its eight bytes. -/
theorem mbWrite8_bytes {k : Mbox} {o : Nat} {v : BitVec 64} (h1 : 0x040 ≤ o) (h2 : o + 8 ≤ 0x400) :
    mbWrite8 k o v = { k with page := (mbWrite8 k o v).page } ∧
      ∀ a, rd8 (mbWrite8 k o v).page a = if o ≤ a ∧ a < o + 8 then BitVec.ofNat 8 (v.toNat / 256 ^ (a - o)) else rd8 k.page a := by
  have hw : mbWrite8 k o v = { k with page := wrN (wrN k.page o (toLe 4 (BitVec.ofNat 32 (bf v 31 0)).toNat)) (o + 4) (toLe 4 (BitVec.ofNat 32 (bf v 63 32)).toNat) } := by
    rw [mbWrite8, if_neg (by omega), mbWrite4_page h1 (by omega), mbWrite4_page (by omega) (by omega)]
  have hv : v.toNat < 2 ^ 64 := v.isLt
  refine ⟨by rw [hw], fun a => ?_⟩
  rw [hw]
  dsimp only
  by_cases hhi : o + 4 ≤ a ∧ a < o + 8
  · obtain ⟨j, hj⟩ : ∃ j, a = o + 4 + j := ⟨a - (o + 4), by omega⟩
    subst hj
    have hlen : j < (toLe 4 (BitVec.ofNat 32 (bf v 63 32)).toNat).length := by
      rw [toLe_length]
      omega
    rw [rd8_wrN_in _ _ _ _ hlen, toLe_getElem, if_pos (by omega)]
    have hidx : o + 4 + j - o = 4 + j := by omega
    have hbf : (BitVec.ofNat 32 (bf v 63 32)).toNat = v.toNat / 256 ^ 4 := by
      rw [BitVec.toNat_ofNat, bf]
      omega
    rw [hidx, hbf, Nat.div_div_eq_div_mul, ← Nat.pow_add]
  · rw [rd8_wrN_out _ _ _ (by rw [toLe_length]; omega)]
    by_cases hlo : o ≤ a ∧ a < o + 4
    · obtain ⟨j, hj⟩ : ∃ j, a = o + j := ⟨a - o, by omega⟩
      subst hj
      have hlen : j < (toLe 4 (BitVec.ofNat 32 (bf v 31 0)).toNat).length := by
        rw [toLe_length]
        omega
      rw [rd8_wrN_in _ _ _ _ hlen, toLe_getElem, if_pos (by omega)]
      have hidx : o + j - o = j := by omega
      rw [hidx]
      refine BitVec.eq_of_toNat_eq ?_
      rw [BitVec.toNat_ofNat, BitVec.toNat_ofNat, BitVec.toNat_ofNat, bf]
      rcases (show j = 0 ∨ j = 1 ∨ j = 2 ∨ j = 3 by omega) with rfl | rfl | rfl | rfl <;> omega
    · rw [rd8_wrN_out _ _ _ (by rw [toLe_length]; omega), if_neg (by omega)]

/-- The words of a MGMT write to ARG, the first of them of number `i`. -/
theorem mgmtWrite_bytes {off : Nat} (d : List Byte) (h1 : 0x040 ≤ off) : ∀ (m i : Nat) (k : Mbox), off + 8 * (i + m) ≤ 0x400 →
    mgmtWrite k off (List.range' i m) d = { k with page := (mgmtWrite k off (List.range' i m) d).page } ∧
      ∀ a, rd8 (mgmtWrite k off (List.range' i m) d).page a = if off + 8 * i ≤ a ∧ a < off + 8 * (i + m) then d.getD (a - off) 0 else rd8 k.page a
  | 0, i, k, _ => ⟨rfl, fun a => (if_neg (by omega)).symm⟩
  | m + 1, i, k, h2 => by
    have hstep : mgmtWrite k off (List.range' i (m + 1)) d =
      mgmtWrite (mbWrite8 k (off + 8 * i) (BitVec.ofNat 64 (fieldLe d (8 * i) 8))) off (List.range' (i + 1) m) d := rfl
    obtain ⟨w1, w2⟩ := mbWrite8_bytes (k := k) (o := off + 8 * i) (v := BitVec.ofNat 64 (fieldLe d (8 * i) 8)) (by omega) (by omega)
    obtain ⟨g1, g2⟩ := mgmtWrite_bytes d h1 m (i + 1) (mbWrite8 k (off + 8 * i) (BitVec.ofNat 64 (fieldLe d (8 * i) 8))) (by omega)
    rw [hstep]
    refine ⟨?_, fun a => ?_⟩
    · rw [g1, w1]
    · rw [g2, w2]
      have hfield : (BitVec.ofNat 64 (fieldLe d (8 * i) 8)).toNat = fieldLe d (8 * i) 8 := by
        have hlt : fieldLe d (8 * i) 8 < 256 ^ 8 := fieldLe_lt ..
        rw [BitVec.toNat_ofNat]
        omega
      by_cases ha : off + 8 * (i + 1) ≤ a ∧ a < off + 8 * (i + 1 + m)
      · rw [if_pos ha, if_pos (by omega)]
      · rw [if_neg ha]
        by_cases hb : off + 8 * i ≤ a ∧ a < off + 8 * i + 8
        · rw [if_pos hb, if_pos (by omega), hfield, fieldLe_byte d (8 * i) 8 _ (by omega)]
          congr 1
          omega
        · rw [if_neg hb, if_neg (by omega)]

end Sys2Proof.Machine
end

section
/-!
PROOF. Orders that are taken, MGMT packets and updates of the store (R394, R395, R399, R400, R404, R406).
-/

namespace Sys2Proof.Machine

/-! ## GO and the read pointer of a ring (R399, R421) -/

theorem mbGo_early {s : State} {m : Mb} {v : BitVec 64} (h : s.rst.stage < 1) : exec (.mbGo m v) s = .next s :=
  congrArg Host.Outcome.next (if_neg (Nat.not_le.2 h))

theorem mbGo_writes {s : State} (h : 1 ≤ s.rst.stage) (m : Mb) (v : BitVec 64) :
    exec (.mbGo m v) s = .next (setMbox s m.val (mbCmdWrite (getMbox s m.val) v)) := congrArg Host.Outcome.next (if_pos h)

theorem mbCmdWrite_waits {k : Mbox} {v : BitVec 64} (hgo : bt v 0 = true) (h : bt k.rsp 2 = true ∨ bt k.rsp 1 = true) : mbCmdWrite k v = k := by
  have hw : mbWaits k = true := by
    rw [mbWaits]
    rcases h with h | h <;> simp [h]
  rw [mbCmdWrite, if_neg (by rw [hgo]; decide), if_pos hw]

theorem mbCmdWrite_submits {k : Mbox} {v : BitVec 64} (hgo : bt v 0 = true) (h2 : bt k.rsp 2 = false) (h1 : bt k.rsp 1 = false) :
    mbCmdWrite k v = { k with cmd := sb v 0 false, rsp := sb k.rsp 2 true, snap := k.page } := by
  have hw : mbWaits k = false := by rw [mbWaits, h2, h1]; rfl
  rw [mbCmdWrite, if_neg (by rw [hgo]; decide), if_neg (by rw [hw]; decide)]

theorem mbRasRptrWrite_writes {s : State} (h : 1 ≤ s.rst.stage) (m : Mb) (v : BitVec 16) :
    ∃ t, exec (.mbRasRptrWrite m v) s = .next t ∧ SetsMbox s t m.val
      (if (bf (getMbox s m.val).ras 31 16 + 65536 - v.toNat) % 65536 ≤ 32 then
        { getMbox s m.val with ras := sf (getMbox s m.val).ras 15 0 v.toNat } else getMbox s m.val) := by
  have hmod : v.toNat % 65536 = v.toNat := Nat.mod_eq_of_lt v.isLt
  have hw : rptrWrite (getMbox s m.val) v.toNat = if (bf (getMbox s m.val).ras 31 16 + 65536 - v.toNat) % 65536 ≤ 32 then
      { getMbox s m.val with ras := sf (getMbox s m.val).ras 15 0 v.toNat } else getMbox s m.val := by
    rw [rptrWrite, hmod]
  refine ⟨_, congrArg Host.Outcome.next (if_pos h), ?_⟩
  rw [hw]
  exact setsMbox_setMbox ..

/-! ## The arbitration slot (R400, R404) -/

/-- The order that is taken from a page. -/
def takenOrder (s : State) (m : Nat) : Order :=
  { mb := m, group := BitVec.ofNat 8 (bf (getMbox s m).cmd 63 56), verb := BitVec.ofNat 8 (bf (getMbox s m).cmd 55 48),
    persist := bt (getMbox s m).cmd 47, offline := bt (getMbox s m).cmd 46, seq := BitVec.ofNat 16 (bf (getMbox s m).cmd 31 16),
    args := argCopy s (getMbox s m) (bf (getMbox s m).cmd 43 32), busy := false, started := false, since := s.now,
    code := if orderDecodes (getMbox s m).cmd then St.ok else St.unsupported, refuse := 0, res := [], wrote := [] }

theorem takeOrder_batch (s : State) (m : Nat) : (takeOrder s m).key.batch = s.key.batch ++ [takenOrder s m] := rfl

/-- What taking orders changes of the package. -/
def TakeSide (s t : State) : Prop := t = { s with free := t.free, key := { s.key with mb := t.key.mb, batch := t.key.batch } }

theorem TakeSide.trans {s t u : State} (h : TakeSide s t) (g : TakeSide t u) : TakeSide s u := by
  unfold TakeSide at h g ⊢
  rw [g, h]

theorem takeOrder_side (s : State) (m : Nat) : TakeSide s (takeOrder s m) := rfl

theorem takeOrder_page (s : State) (m : Nat) :
    getMbox (takeOrder s m) m = { getMbox s m with rsp := sb (sf (getMbox s m).rsp 2 0 0) 1 true } := tget_tset_self ..

theorem takeOrder_others (s : State) {m i : Nat} (h : i ≠ m) : getMbox (takeOrder s m) i = getMbox s i := tget_tset_ne _ h _

theorem field_toNat {w : Nat} (x : BitVec w) (hi lo n : Nat) (h : hi + 1 - lo ≤ n) : (BitVec.ofNat n (bf x hi lo)).toNat = bf x hi lo := by
  rw [BitVec.toNat_ofNat]
  exact Nat.mod_eq_of_lt (Nat.lt_of_lt_of_le (bf_lt x hi lo) (Nat.pow_le_pow_right (by decide) h))

/-- Each byte of the copy stands on the page now, or stood there when GO was written. -/
theorem argCopy_bytes (s : State) (k : Mbox) (n i : Nat) (h : i < (argCopy s k n).length) :
    (argCopy s k n)[i] = mbByte k (0x040 + i) ∨ (argCopy s k n)[i] = mbByte { k with page := k.snap } (0x040 + i) := by
  revert h
  unfold argCopy
  intro h
  rw [List.getElem_map, List.getElem_range]
  dsimp only
  split
  · exact .inl rfl
  · split
    · exact .inl rfl
    · exact .inr rfl

theorem takenFrom_takeOrder (s : State) (m : Nat) : TakenFrom s (takeOrder s m) m (takenOrder s m) := by
  refine ⟨takeOrder_page s m, ⟨rfl, ?_, ?_, rfl, rfl, ?_⟩, ?_, fun i h => argCopy_bytes _ _ _ i h⟩
  · exact field_toNat _ 63 56 8 (by decide)
  · exact field_toNat _ 55 48 8 (by decide)
  · exact field_toNat _ 31 16 16 (by decide)
  · show (argCopy s (getMbox s m) (bf (getMbox s m).cmd 43 32)).length = _
    rw [argCopy, List.length_map, List.length_range]

theorem TakenFrom.congr {s t s' t' : State} {m : Nat} {o : Order} (h : TakenFrom s t m o) (hs : getMbox s' m = getMbox s m)
    (ht : getMbox t' m = getMbox t m) : TakenFrom s' t' m o := by
  obtain ⟨h1, h2, h3, h4⟩ := h
  rw [← hs] at h1 h2 h3 h4
  exact ⟨ht.trans h1, h2, h3, h4⟩

/-- The orders that a slot takes, one from each page of a list. -/
theorem forEach_takeOrder : ∀ (l : List Nat) (s : State), l.Nodup → ∃ os, TakeSide s (forEach s l takeOrder) ∧
    (forEach s l takeOrder).key.batch = s.key.batch ++ os ∧ os.map (fun o => o.mb) = l ∧
    (∀ o ∈ os, TakenFrom s (forEach s l takeOrder) o.mb o ∧ o.busy = false ∧
      o.code = if orderDecodes (getMbox s o.mb).cmd then St.ok else St.unsupported) ∧
    ∀ m, m ∉ l → getMbox (forEach s l takeOrder) m = getMbox s m
  | [], s, _ => ⟨[], rfl, (List.append_nil _).symm, rfl, fun _ h => absurd h List.not_mem_nil, fun _ _ => rfl⟩
  | m :: l, s, hnd => by
    have hstep : forEach s (m :: l) takeOrder = forEach (takeOrder s m) l takeOrder := rfl
    obtain ⟨hm, hl⟩ := List.nodup_cons.1 hnd
    obtain ⟨os, g1, g2, g3, g4, g5⟩ := forEach_takeOrder l (takeOrder s m) hl
    rw [hstep]
    refine ⟨takenOrder s m :: os, (takeOrder_side s m).trans g1, ?_, ?_, fun o ho => ?_, fun i hi => ?_⟩
    · rw [g2, takeOrder_batch, List.append_assoc]
      rfl
    · rw [List.map_cons, g3]
      rfl
    · rcases List.mem_cons.1 ho with rfl | hmem
      · exact ⟨(takenFrom_takeOrder s m).congr rfl (g5 m hm), rfl, rfl⟩
      · obtain ⟨a1, a2, a3⟩ := g4 o hmem
        have hne : o.mb ≠ m := fun he => hm (he ▸ g3 ▸ List.mem_map_of_mem hmem)
        rw [takeOrder_others s hne] at a3
        exact ⟨a1.congr (takeOrder_others s hne).symm rfl, a2, a3⟩
    · have hne : i ≠ m := fun he => hi (List.mem_cons.2 (.inl he))
      rw [g5 i (fun h => hi (List.mem_cons_of_mem _ h)), takeOrder_others s hne]

/-- A batch whose orders all decode waits for its first order. -/
theorem settleBatch_decoded {s : State} (hne : s.key.batch ≠ []) (h : ∀ o ∈ s.key.batch, o.code ≠ St.unsupported) : settleBatch s = s := by
  have hbad : s.key.batch.takeWhile (fun o => decide (o.code = St.unsupported)) = [] := by
    cases hb : s.key.batch with
    | nil => rfl
    | cons o os =>
      rw [hb] at h
      rw [List.takeWhile_cons, decide_eq_false (h o List.mem_cons_self)]
      rfl
  have hstand : withKey s { s.key with batch := s.key.batch.drop 0, batchDone := s.key.batchDone ++ [] } = s := by
    rw [List.append_nil]
    rfl
  unfold settleBatch
  rw [hbad]
  dsimp only
  rw [List.length_nil, hstand, if_pos hne]

/-- A batch of one order that did not decode is answered at once. -/
theorem settleBatch_undecoded {s : State} {o : Order} (hb : s.key.batch = [o]) (hd : s.key.batchDone = []) (hc : o.code = St.unsupported)
    (hst : o.started = false) : (settleBatch s).key.batch = [] ∧ AnsweredWith (settleBatch s) o St.unsupported o.refuse o.res := by
  have hgo : settleBatch s = (let s2 := answerAll [o] (withKey s { s.key with batch := [], batchDone := [] })
      if handoverDue s2 then withKey s2 { s2.key with handover := true } else s2) := by
    unfold settleBatch
    rw [hb, hd, List.takeWhile_cons, decide_eq_true hc]
    exact if_neg fun h => h rfl
  have ha := answered_write (withKey s { s.key with batch := [], batchDone := [] }) o
  rw [hc] at ha
  have hk := (writeAnswer_key (withKey s { s.key with batch := [], batchDone := [] }) o).1
  rw [hgo, answerAll_one _ _ hst]
  dsimp only
  split
  · exact ⟨hk, ha.same rfl⟩
  · exact ⟨hk, ha⟩

theorem arbitrationSlot_early {s : State} {τ : Nat} (h : s.key.slotAt = some τ) (hlate : s.now ≤ τ ∨ (s.now - τ) % 10000 ≠ 0) :
    exec .arbitrationSlot s = .next s := by
  have hdue : slotDue s = false := by
    rw [slotDue, h]
    rcases hlate with h | h
    · simp [Nat.not_lt.2 h]
    · simp [h]
  refine if_pos (.inr (.inr (.inr ?_)))
  rw [hdue]
  rfl

theorem arbitrationSlot_runs {s : State} (hst : 1 ≤ s.rst.stage) (hh : s.key.halted = false) (ho : s.key.handover = false) (hb : s.key.batch = [])
    (hdue : ∀ τ, s.key.slotAt = some τ → τ < s.now ∧ (s.now - τ) % 10000 = 0) : exec .arbitrationSlot s =
      if takenNext s = [] then .next s else .next (settleBatch (forEach (withKey s { s.key with slotAt := some s.now }) (takenNext s) takeOrder)) := by
  have hslot : slotDue s = true := by
    rw [slotDue]
    cases hat : s.key.slotAt with
    | none => rfl
    | some τ =>
      obtain ⟨h1, h2⟩ := hdue τ hat
      simp [h1, h2]
  have hruns : keystoneRuns s = true := by simp [keystoneRuns, hst, hh]
  refine if_neg ?_
  rw [hruns, ho, hb, hslot]
  simp

theorem takenNext_nodup (s : State) : (takenNext s).Nodup := List.Nodup.filter _ (by decide)

/-- A slot takes the orders that may be taken, all of which decode. -/
theorem arbitrationSlot_takes {s : State} (hb : s.key.batch = []) (hne : takenNext s ≠ [])
    (hdec : ∀ m ∈ takenNext s, orderDecodes (getMbox s m).cmd = true) :
    ∃ t, settleBatch (forEach (withKey s { s.key with slotAt := some s.now }) (takenNext s) takeOrder) = t ∧
      t = { s with free := t.free, key := { s.key with mb := t.key.mb, batch := t.key.batch, slotAt := some s.now } } ∧
      t.key.batch.map (fun o => o.mb) = takenNext s ∧ (∀ o ∈ t.key.batch, TakenFrom s t o.mb o ∧ o.busy = false ∧ o.code = St.ok) ∧
      ∀ m, m ∉ takenNext s → getMbox t m = getMbox s m := by
  obtain ⟨os, g1, g2, g3, g4, g5⟩ := forEach_takeOrder (takenNext s) (withKey s { s.key with slotAt := some s.now }) (takenNext_nodup s)
  have hbatch : (forEach (withKey s { s.key with slotAt := some s.now }) (takenNext s) takeOrder).key.batch = os := by
    rw [g2]
    exact congrArg (· ++ os) hb
  generalize forEach (withKey s { s.key with slotAt := some s.now }) (takenNext s) takeOrder = t at g1 g2 g4 g5 hbatch
  have hos : os ≠ [] := fun he => hne (by rw [← g3, he]; rfl)
  have hok : ∀ o ∈ os, o.code = St.ok := fun o ho => by
    have hmem : o.mb ∈ takenNext s := g3 ▸ List.mem_map_of_mem ho
    have hd : orderDecodes (getMbox (withKey s { s.key with slotAt := some s.now }) o.mb).cmd = true := hdec o.mb hmem
    rw [(g4 o ho).2.2, if_pos hd]
  have hsettle : settleBatch t = t := by
    refine settleBatch_decoded (by rw [hbatch]; exact hos) fun o ho => ?_
    rw [hbatch] at ho
    rw [hok o ho]
    decide
  refine ⟨t, hsettle, g1, by rw [hbatch]; exact g3, fun o ho => ?_, g5⟩
  rw [hbatch] at ho
  exact ⟨(g4 o ho).1.congr rfl rfl, (g4 o ho).2.1, hok o ho⟩

/-! ## MGMT packets (R406) -/

theorem mgmtAccess_runs {s : State} {k : SpanPkt} (hk : firstMgmt s = some k) (hst : 1 ≤ s.rst.stage) (hh : s.key.halted = false) :
    exec (.mgmtAccess k) s =
      if 1 < fieldLe k.data 2 1 ∨ fieldLe k.data 3 1 = 0 ∨ 31 < fieldLe k.data 3 1 ∨ 0x1000 < fieldLe k.data 0 2 + 8 * fieldLe k.data 3 1 ∨
        fieldLe k.data 0 2 % 8 ≠ 0 then .next (respond (takeDelivered s k) k St.unsupported [])
      else if fieldLe k.data 2 1 = 0 then
        .next (respond (takeDelivered s k) k St.ok (mbRead (getMbox s 3) (fieldLe k.data 0 2) (8 * fieldLe k.data 3 1)))
      else .next (respond (setMbox (takeDelivered s k) 3 (mgmtWrite (getMbox s 3) (fieldLe k.data 0 2) (List.range (fieldLe k.data 3 1)) (k.data.drop 8))) k St.ok []) := by
  have hruns : keystoneRuns s = true := by simp [keystoneRuns, hst, hh]
  exact if_neg (by rw [hk, hruns]; simp)

theorem mbRead_bytes (k : Mbox) (off n : Nat) : (mbRead k off n).length = n ∧ ∀ i, (h : i < (mbRead k off n).length) →
    (mbRead k off n)[i] = mbByte k (off + i) := by
  refine ⟨by rw [mbRead, List.length_map, List.length_range], fun i => ?_⟩
  unfold mbRead
  intro h
  rw [List.getElem_map, List.getElem_range]

/-- A MGMT write of one word at offset 0 is a write of MB_CMD. -/
theorem mgmtWrite_cmd (k : Mbox) (d : List Byte) : mgmtWrite k 0 (List.range 1) (d.drop 8) = mbCmdWrite k (BitVec.ofNat 64 (fieldLe d 8 8)) := by
  have hone : mgmtWrite k 0 (List.range 1) (d.drop 8) = mbWrite8 k 0 (BitVec.ofNat 64 (fieldLe (d.drop 8) 0 8)) := rfl
  have hfield : fieldLe (d.drop 8) 0 8 = fieldLe d 8 8 := by rw [fieldLe, slice_drop, fieldLe]
  rw [hone, hfield]
  exact if_pos rfl

/-- A MGMT write to ARG writes its words there. -/
theorem mgmtWrite_args {k : Mbox} {off n : Nat} {d : List Byte} (h1 : 0x040 ≤ off) (h2 : off + 8 * n ≤ 0x400) :
    mgmtWrite k off (List.range n) (d.drop 8) = { k with page := (mgmtWrite k off (List.range n) (d.drop 8)).page } ∧
    ∀ a, rd8 (mgmtWrite k off (List.range n) (d.drop 8)).page a = if off ≤ a ∧ a < off + 8 * n then d.getD (8 + (a - off)) 0 else rd8 k.page a := by
  obtain ⟨g1, g2⟩ := mgmtWrite_bytes (d.drop 8) h1 n 0 k (by rw [Nat.zero_add]; exact h2)
  rw [← List.range_eq_range'] at g1 g2
  refine ⟨g1, fun a => ?_⟩
  rw [g2, Nat.mul_zero, Nat.add_zero, Nat.zero_add, List.getD_eq_getElem?_getD, List.getElem?_drop, List.getD_eq_getElem?_getD]

/-! ## Updates of the persistent store (R394, R395) -/

theorem newest_fillCopy {α : Type} (t : TwoCopy α) (v : α) (h : t.a = none ∨ t.b = none) : newest (fillCopy t v) = some v := by
  have hnext : ∀ x : BitVec 32, ¬ (x + 1 - x).toInt < 0 ∧ (x - (x + 1)).toInt < 0 := fun x => by
    have h1 : x + 1 - x = 1 := by rw [BitVec.add_comm, BitVec.add_sub_cancel]
    have h2 : x - (x + 1) = -1 := by
      rw [← BitVec.sub_sub, BitVec.sub_self, BitVec.zero_sub]
    rw [h1, h2]
    decide
  obtain ⟨a, b⟩ := t
  cases a with
  | none =>
    cases b with
    | none => rfl
    | some y =>
      show some (if (y.1 + 1 - y.1).toInt < 0 then y.2 else v) = some v
      rw [if_neg (hnext y.1).1]
  | some x =>
    cases b with
    | none =>
      show some (if (x.1 - (x.1 + 1)).toInt < 0 then v else x.2) = some v
      rw [if_pos (hnext x.1).2]
    | some y => exact absurd h (by simp)

theorem storeUpdateDone_idle {s : State} (h : s.store.pend = []) (ok : Bool) : exec (.storeUpdateDone ok) s = .next s := by
  have hexec : exec (.storeUpdateDone ok) s = execStoreUpdateDone ok s := rfl
  rw [hexec, execStoreUpdateDone, h]

/-- The store once the first of its updates has ended. -/
def storeNext (s : State) (ok : Bool) (u : StoreUpd) (rest : List StoreUpd) : State :=
  withStore s (storeBegin { (if ok then storeWrite s.store u.op else s.store) with pend := rest })

theorem storeUpdateDone_fails {s : State} {u : StoreUpd} {rest : List StoreUpd} (h : s.store.pend = u :: rest) :
    exec (.storeUpdateDone false) s = .next (match u.order with
      | some m => orderStored (storeNext s false u rest) m false
      | none => ras (storeNext s false u rest) St.ok 6 (unitId (storeNext s false u rest) 0 0) (storeOffset u.op)) := by
  have hexec : exec (.storeUpdateDone false) s = execStoreUpdateDone false s := rfl
  rw [hexec, execStoreUpdateDone, h]
  rfl

theorem storeUpdateDone_cal {s : State} {c : UserCal} (h : s.store.pend = [⟨.cal c, none⟩]) (hroom : s.store.cal.a = none ∨ s.store.cal.b = none) :
    ∃ t, exec (.storeUpdateDone true) s = .next t ∧ newest t.store.cal = some c ∧ t = { s with store := { s.store with cal := t.store.cal, pend := [] } } := by
  have hexec : exec (.storeUpdateDone true) s = execStoreUpdateDone true s := rfl
  rw [hexec, execStoreUpdateDone, h]
  exact ⟨_, rfl, newest_fillCopy _ _ hroom, rfl⟩

theorem storeUpdateDone_calFails {s : State} {c : UserCal} (h : s.store.pend = [⟨.cal c, none⟩]) :
    ∃ t, exec (.storeUpdateDone false) s = .next t ∧
      RasReported { s with store := { s.store with pend := [] } } t St.ok 6 (unitId s 0 0) 0x20A0000 :=
  ⟨_, storeUpdateDone_fails h, ras_reported _ St.ok 6 (unitId s 0 0) 0x20A0000⟩

/-- The update that the one order of a batch waited for has ended: the order is answered. -/
theorem orderStored_answers {z : State} {o : Order} (ok : Bool) (hb : z.key.batch = [o]) (hd : z.key.batchDone = []) (hbusy : o.busy = true)
    (hst : o.started = false) (hreset : o.group = 1 → o.verb ≠ 3) :
    (orderStored z o.mb ok).key.batch = [] ∧
      AnsweredWith (orderStored z o.mb ok) o (if ok then o.code else St.ok) (if ok then o.refuse else 6) o.res := by
  have hgo : orderStored z o.mb ok = finishHead z { o with busy := false, refuse := if ok then o.refuse else 6, code := if ok then o.code else St.ok } := by
    rw [orderStored, hb]
    exact if_pos ⟨rfl, hbusy⟩
  have hends := finish_one z o { o with busy := false, refuse := if ok then o.refuse else 6, code := if ok then o.code else St.ok } ⟨rfl, rfl, rfl, rfl⟩
    (by rw [hb]; rfl) hd hst fun hr => hreset hr.1 hr.2.1
  rw [hgo]
  exact ⟨by rw [hends.side], hends.answer⟩

theorem storeUpdateDone_answers {s : State} {u : UnitRecs} {o : Order} (ok : Bool) (h : s.store.pend = [⟨.units u, some o.mb⟩]) (hb : s.key.batch = [o])
    (hd : s.key.batchDone = []) (hbusy : o.busy = true) (hst : o.started = false) (hg : o.group ≠ 7) (hreset : o.group = 1 → o.verb ≠ 3) :
    ∃ t, exec (.storeUpdateDone ok) s = .next t ∧ t.key.batch = [] ∧
      AnsweredWith t o (if ok then o.code else St.ok) (if ok then o.refuse else 6) o.res := by
  have hgo : exec (.storeUpdateDone ok) s = .next (orderStored (storeNext s ok ⟨.units u, some o.mb⟩ []) o.mb ok) := by
    cases ok with
    | false => exact storeUpdateDone_fails h
    | true =>
      have hexec : exec (.storeUpdateDone true) s = execStoreUpdateDone true s := rfl
      have hupd : orderOfUpdate (storeNext s true ⟨.units u, some o.mb⟩ []) (some o.mb) = orderStored (storeNext s true ⟨.units u, some o.mb⟩ []) o.mb true := by
        have hbatch : (storeNext s true ⟨.units u, some o.mb⟩ []).key.batch = [o] := hb
        rw [orderOfUpdate, hbatch]
        exact if_neg fun hc => hg hc.2.2.1
      rw [hexec, execStoreUpdateDone, h]
      exact congrArg Host.Outcome.next hupd
  exact ⟨_, hgo, orderStored_answers (z := storeNext s ok ⟨.units u, some o.mb⟩ []) ok hb hd hbusy hst hreset⟩

end Sys2Proof.Machine
end

section
/-!
PROOF. The host port and the Mason cores (R345 to R356): completions, the link, configuration, vectors, Mason accesses and register writes.
-/

namespace Sys2Proof.Machine

/-! ## Outbound requests (R353) -/

theorem outboundCompletion_unknown {s : State} {id : Nat} (h : ∀ r ∈ s.host.outs, r.id ≠ id) (oc : OutOutcome) :
    exec (.outboundCompletion id oc) s = .next s := by
  have hexec : exec (.outboundCompletion id oc) s = execOutboundCompletion id oc s := rfl
  have hfind : s.host.outs.find? (fun r => decide (r.id = id)) = none := List.find?_eq_none.2 fun r hr => by simp [h r hr]
  rw [hexec, execOutboundCompletion, hfind]

theorem ctoOver_early {s : State} {r : OutReq} (h : s.host.cfg.ctoOff = true ∨ (s.host.cfg.cto = 0 ∧ s.now < r.issued + 50000000)) :
    ctoOver s r = false := by
  rcases h with h | ⟨h1, h2⟩
  · rw [ctoOver, h]
    rfl
  · have hns : ctoNs s.host.cfg.cto = 50000000 := by
      rw [h1]
      rfl
    rw [ctoOver, hns, decide_eq_false (Nat.not_le.2 h2), Bool.and_false]

theorem outboundCompletion_early {s : State} {id : Nat} {r : OutReq} (hr : s.host.outs.find? (fun r => r.id = id) = some r)
    (h : s.host.cfg.ctoOff = true ∨ (s.host.cfg.cto = 0 ∧ s.now < r.issued + 50000000)) :
    exec (.outboundCompletion id .timeout) s = .next s := by
  have hexec : exec (.outboundCompletion id .timeout) s = execOutboundCompletion id .timeout s := rfl
  rw [hexec, execOutboundCompletion, hr]
  exact if_pos ⟨rfl, ctoOver_early h⟩

/-- The host port once an outbound request has left it; a completion timeout is recorded. -/
def outDone (s : State) (id : Nat) (oc : OutOutcome) : State :=
  { s with host := { s.host with
    outs := s.host.outs.filter fun x => x.id ≠ id
    cfg := { s.host.cfg with uncStat := if oc = .timeout then sb s.host.cfg.uncStat 14 true else s.host.cfg.uncStat } } }

/-- The code of an outcome, and the data that come with it. -/
def outCode (oc : OutOutcome) : Code := match oc with
  | .success _ => St.ok
  | .refused => St.ctxDenied
  | .timeout => St.remoteTimeout

def outData (oc : OutOutcome) : List Byte := match oc with
  | .success d => d
  | .refused | .timeout => []

theorem outboundCompletion_completes {s : State} {id : Nat} {oc : OutOutcome} {r : OutReq} (hr : s.host.outs.find? (fun r => r.id = id) = some r)
    (ho : oc = .timeout → ctoOver s r = true) :
    exec (.outboundCompletion id oc) s = .next (completeUser (outDone s id oc) r.user false (outCode oc) (outData oc)) := by
  have hexec : exec (.outboundCompletion id oc) s = execOutboundCompletion id oc s := rfl
  have hgo : ¬ (oc = .timeout ∧ ctoOver s r = false) := fun h => absurd ((ho h.1).symm.trans h.2) (by decide)
  rw [hexec, execOutboundCompletion, hr]
  dsimp only
  rw [if_neg hgo]
  cases oc <;> rfl

theorem completeUser_seq {s : State} {c : Core} {i : Nat} {a : Access} (span : Bool) (code : Code) (data : List Byte)
    (h : (getCore s c.val).accs.find? (fun a => a.id = i) = some a) :
    completeUser s (.seq c i) span code data = completeAcc s c.val a (if code = St.ok then .ok data else .fail code) := by
  rw [completeUser, h]

/-- The end of a request of a quiet user with OK leaves the outbound requests and the cores. -/
theorem completeUser_quiet {s : State} {u : RemUser} (h : quietUser u true = true) (span : Bool) (d : List Byte) :
    (completeUser s u span St.ok d).host.outs = s.host.outs ∧ (completeUser s u span St.ok d).cores = s.cores := by
  cases u with
  | seq c id => exact absurd h Bool.false_ne_true
  | send m => exact absurd h Bool.false_ne_true
  | store c pc va =>
    rw [completeUser, if_pos rfl]
    exact ⟨rfl, rfl⟩
  | dma c ch va =>
    rw [completeUser, if_pos rfl]
    exact ⟨rfl, rfl⟩
  | mason w a =>
    cases w with
    | true =>
      rw [completeUser, if_pos rfl, if_pos rfl]
      exact ⟨rfl, rfl⟩
    | false => exact ⟨rfl, rfl⟩
  | wback x => exact ⟨rfl, rfl⟩
  | answered => exact ⟨rfl, rfl⟩

/-! ## The link and the configuration space (R345, R354) -/

/-- The host port's PCIe state right after a reset of the link. -/
def linkReset (s : State) : State := withHost s { s.host with link := false, cfg := {}, msix := [], pba := [], outs := [], posted := [] }

theorem pcieLinkReset_runs (s : State) : exec .pcieLinkReset s =
    .next (forEach (linkReset s) s.host.outs fun s r => completeUser s r.user false St.remoteTimeout []) := rfl

theorem pcieConfigWrite_closed {s : State} (w : PcieCfg) (h : ¬ (s.host.link = true ∧ s.host.cfgReady = true)) :
    exec (.pcieConfigWrite w.toPcieCmd w.toPcieDev w.toPcieCap w.toPcieAer) s = .next s := if_neg h

theorem pcieConfigWrite_writes {s : State} (w : PcieCfg) (hl : s.host.link = true) (hr : s.host.cfgReady = true) (hp : ∀ p ∈ s.host.pba, p.2 = false) :
    exec (.pcieConfigWrite w.toPcieCmd w.toPcieDev w.toPcieCap w.toPcieAer) s = .next (withHost s { s.host with cfg := cfgWritten s.host.cfg w }) := by
  have hnone : (s.host.pba.filter fun p => p.2) = [] := List.filter_eq_nil_iff.2 fun p hm => by rw [hp p hm]; decide
  have hsend : sendPending (withHost s { s.host with cfg := cfgWritten s.host.cfg w }) = withHost s { s.host with cfg := cfgWritten s.host.cfg w } := by
    show forEach _ ((s.host.pba.filter fun p => p.2).map Prod.fst) unmaskSend = _
    rw [hnone]
    rfl
  exact (if_pos ⟨hl, hr⟩).trans (congrArg Host.Outcome.next hsend)

theorem bt_andNot {w : Nat} (x y : BitVec w) {i : Nat} (h : i < w) : bt (x &&& ~~~ y) i = (bt x i && !bt y i) := by
  unfold bt
  rw [BitVec.getLsbD_and, BitVec.getLsbD_not, decide_eq_true h, Bool.true_and]

/-! ## Vectors (R351) -/

/-- The host port once the mask bit of vector `v` is clear. -/
def unmasked (s : State) (v : Nat) : State :=
  withHost s { s.host with msix := tset vecReset s.host.msix v (sb (tget vecReset s.host.msix v) 96 false) }

/-- Whether messages can be sent. -/
def msgOpen (s : State) : Bool := s.host.cfg.msixEn && s.host.link && s.host.cfg.bme && !s.host.cfg.d3

theorem msixUnmask_runs {s : State} {v : Fin 2048} (h : v.val < 1024) : exec (.msixUnmask v) s = .next (unmaskSend (unmasked s v.val) v.val) := by
  have hexec : exec (.msixUnmask v) s = execMsixUnmask v s := rfl
  rw [hexec, execMsixUnmask, if_pos h, vecSet, if_pos h]
  rfl

theorem unmasked_entry (s : State) (v : Nat) : tget vecReset (unmasked s v).host.msix v = sb (tget vecReset s.host.msix v) 96 false := tget_tset_self ..

/-- The message of a vector whose mask bit was cleared, with its pending bit off. -/
def unmaskSent (s : State) (v : Nat) : State :=
  sendMsg (withHost (unmasked s v) { (unmasked s v).host with pba := tset false s.host.pba v false }) v (sb (tget vecReset s.host.msix v) 96 false)

theorem unmaskSend_unmasked {s : State} {v : Nat} (h : v < 1024) : unmaskSend (unmasked s v) v =
    if tget false s.host.pba v = true ∧ msgOpen s = true then unmaskSent s v else unmasked s v := by
  have hbit : bt (tget vecReset (unmasked s v).host.msix v) 96 = false := by
    rw [unmasked_entry]
    exact bt_sb _ _ _ (by decide)
  have hgo : unmaskSend (unmasked s v) v = if tget false s.host.pba v = true ∧ (!bt (tget vecReset (unmasked s v).host.msix v) 96) = true ∧ msgOpen s = true then
      interrupt (withHost (unmasked s v) { (unmasked s v).host with pba := tset false s.host.pba v false }) v else unmasked s v := if_pos h
  rw [hgo, hbit]
  by_cases hc : tget false s.host.pba v = true ∧ msgOpen s = true
  · rw [if_pos hc, if_pos ⟨hc.1, rfl, hc.2⟩]
    have hsend : interrupt (withHost (unmasked s v) { (unmasked s v).host with pba := tset false s.host.pba v false }) v =
        if bt (tget vecReset (unmasked s v).host.msix v) 96 = true then
          withHost (withHost (unmasked s v) { (unmasked s v).host with pba := tset false s.host.pba v false }) { (unmasked s v).host with pba := tset false (tset false s.host.pba v false) v true }
        else sendMsg (withHost (unmasked s v) { (unmasked s v).host with pba := tset false s.host.pba v false }) v (tget vecReset (unmasked s v).host.msix v) :=
      (if_pos h).trans (if_pos hc.2)
    rw [hsend, hbit, if_neg Bool.false_ne_true, unmasked_entry]
    rfl
  · rw [if_neg hc, if_neg fun h3 => hc ⟨h3.1, h3.2.2⟩]

/-! ## Mason accesses (Table 11.5, R355, R356) -/

section
variable {s : State} {c : Fin 144} {k : MasonKind} {addr size : Nat} {wr : List Byte}

theorem masonAccess_off (h : s.rst.stage < 9 ∨ s.key.masonGone.contains (c.val / 72) = true ∨ clusterOn s c.val k = false) :
    exec (.masonAccess addr size ⟨c, k⟩ wr) s = .next s :=
  if_pos (h.elim .inl fun h => .inr (h.elim .inl fun h => .inr (.inl h)))

/-- A Mason core whose access its cluster, its die and the ways to it let through. -/
structure MasonRuns (s : State) (c : Fin 144) (k : MasonKind) (addr : Nat) : Prop where
  stage : 9 ≤ s.rst.stage
  die : s.key.masonGone.contains (c.val / 72) = false
  cluster : clusterOn s c.val k = true
  held : masonHeld s (9 + c.val / 72) addr = false

theorem MasonRuns.passes (h : MasonRuns s c k addr) : ¬ (s.rst.stage < 9 ∨ s.key.masonGone.contains (c.val / 72) = true ∨ clusterOn s c.val k = false ∨
    masonHeld s (masonDie c.val) addr = true) := by
  rintro (h1 | h1 | h1 | h1)
  · exact Nat.not_le.2 h1 h.stage
  · exact absurd (h.die.symm.trans h1) (by decide)
  · exact absurd (h1.symm.trans h.cluster) (by decide)
  · exact absurd (h.held.symm.trans h1) (by decide)

theorem masonAccess_local (h : MasonRuns s c k addr) (ha : addr < 0x20000000000) : exec (.masonAccess addr size ⟨c, k⟩ wr) s =
    .next (if masonReads k then masonLoad (9 + c.val / 72) (pieces 64 (size + 1) addr size) s []
      else masonStore (9 + c.val / 72) (pieces 64 (wr.length + 1) addr wr.length) s wr) :=
  (if_neg h.passes).trans (if_pos ha)

theorem masonAccess_hub (h : MasonRuns s c k addr) (ha : onHub addr = true) : exec (.masonAccess addr size ⟨c, k⟩ wr) s =
    .next (if routed s (9 + c.val / 72) hubDie then masonHub s addr size (masonReads k) wr else masonLost s (masonReads k) addr) := by
  have hge : ¬ addr < 0x20000000000 := fun hlt => by
    rw [onHub, decide_eq_false (fun hh => Nat.not_lt.2 hh.1 hlt), decide_eq_false (fun hh => Nat.not_lt.2 hh.1 (Nat.lt_trans hlt (by decide)))] at ha
    exact absurd ha (by decide)
  exact (if_neg h.passes).trans ((if_neg hge).trans (if_pos ha))

/-- An address outside Table 11.5 raises an access fault on the core. -/
theorem masonAccess_faults (hst : 9 ≤ s.rst.stage) (hdie : s.key.masonGone.contains (c.val / 72) = false) (hcl : clusterOn s c.val k = true)
    (ha : (0x20004000000 ≤ addr ∧ addr < 0x30000000000) ∨ (0x30001000000 ≤ addr ∧ addr < 0x40000000000) ∨ 0x80000000000 ≤ addr) :
    exec (.masonAccess addr size ⟨c, k⟩ wr) s = .next (masonFaults s) := by
  have hge : ¬ addr < 0x20000000000 := by omega
  have hhub : onHub addr = false := by
    rw [onHub, decide_eq_false (show ¬ (0x20000000000 ≤ addr ∧ addr < 0x20004000000) by omega),
      decide_eq_false (show ¬ (0x40000000000 ≤ addr ∧ addr < 0x80000000000) by omega)]
    rfl
  have hirq : inImsic addr = false := decide_eq_false (by omega)
  have hheld : masonHeld s (9 + c.val / 72) addr = false := by
    rw [masonHeld, if_neg hge, hhub]
    rfl
  exact (if_neg (MasonRuns.passes ⟨hst, hdie, hcl, hheld⟩)).trans ((if_neg hge).trans ((if_neg (by rw [hhub]; decide)).trans (if_neg (by rw [hirq]; decide))))

theorem masonHeld_local (ha : addr < 0x20000000000) (hr : routeHolds s (9 + c.val / 72) (homeTower s addr) = false) (hc : chanHeld s addr = false) :
    masonHeld s (9 + c.val / 72) addr = false := by
  rw [masonHeld, if_pos ha, hr, hc]
  rfl

theorem masonHeld_hub (ha : onHub addr = true) (hr : routeHolds s (9 + c.val / 72) hubDie = false) : masonHeld s (9 + c.val / 72) addr = false := by
  have hge : ¬ addr < 0x20000000000 := fun hlt => by
    rw [onHub, decide_eq_false (fun hh => Nat.not_lt.2 hh.1 hlt), decide_eq_false (fun hh => Nat.not_lt.2 hh.1 (Nat.lt_trans hlt (by decide)))] at ha
    exact absurd ha (by decide)
  rw [masonHeld, if_neg hge, hr]
  exact Bool.and_false _

theorem masonReads_load (h : k = .load ∨ k = .ifetch) : masonReads k = true := by
  rcases h with rfl | rfl <;> rfl

theorem masonReads_store (h : k = .store ∨ k = .writeback) : masonReads k = false := by
  rcases h with rfl | rfl <;> rfl

/-- A Mason load from one line of local memory. -/
theorem masonLoad_line {d a n : Nat} (hn : 1 ≤ n) (hline : a % 64 + n ≤ 64) :
    (masonCode s d a ≠ St.ok → masonLoad d (pieces 64 (n + 1) a n) s [] = masonFaults s) ∧
    (masonCode s d a = St.ok → ∀ code bs z, homeRead s true 0 a n false = (code, bs, z) → masonLoad d (pieces 64 (n + 1) a n) s [] =
      { z with host := { z.host with masonData := if code = St.ok then bs else [], masonFault := decide (code ≠ St.ok) } }) := by
  obtain ⟨f, rfl⟩ : ∃ f, n = f + 1 := ⟨n - 1, by omega⟩
  rw [pieces_line (Nat.succ_ne_zero f) hline, masonLoad]
  refine ⟨fun h => if_pos h, fun h code bs z hz => ?_⟩
  rw [if_neg (not_not.2 h), hz]
  dsimp only
  by_cases hc : code = St.ok
  · rw [if_pos hc, if_pos hc, decide_eq_false (not_not.2 hc)]
    rfl
  · rw [if_neg hc, if_neg hc, decide_eq_true hc]
    rfl

/-- A Mason store to one line of local memory; one that fails is reported. -/
theorem masonStore_line {d a : Nat} {code : Code} {z : State} (hw : wr ≠ []) (hline : a % 64 + wr.length ≤ 64) (hz : hereWrite s d true 0 a wr false = (code, z)) :
    masonStore d (pieces 64 (wr.length + 1) a wr.length) s wr = if code = St.ok then z else ras z code 5 (unitId z 0 0) a := by
  obtain ⟨f, hf⟩ : ∃ f, wr.length = f + 1 := ⟨wr.length - 1, by have := List.length_pos_iff.2 hw; omega⟩
  have hp : pieces 64 (wr.length + 1) a wr.length = [(a, wr.length)] := by
    rw [hf] at hline ⊢
    exact pieces_line (Nat.succ_ne_zero f) hline
  rw [hp, masonStore, List.take_length, hz]
  rfl

end

/-! ## Register writes (R7, R8, R347 to R350) -/

theorem hubRegWrite_odd {s : State} (view : View) {off size : Nat} (v : BitVec 64) (h : (size ≠ 4 ∧ size ≠ 8) ∨ off % size ≠ 0) :
    hubRegWrite s view off size v = s := by
  unfold hubRegWrite
  split
  · rfl
  · have h4 : ¬ (size = 4 ∧ off % 4 = 0) := by
      rintro ⟨h1, h2⟩
      subst h1
      exact h.elim (fun h => h.1 rfl) fun h => h h2
    have h8 : ¬ (size = 8 ∧ off % 8 = 0) := by
      rintro ⟨h1, h2⟩
      subst h1
      exact h.elim (fun h => h.2 rfl) fun h => h h2
    rw [if_neg h4, if_neg h8]

theorem hubRegWrite_four {s : State} {view : View} {off : Nat} {v : BitVec 64} (h : hubWrite4 s view off (BitVec.ofNat 32 (bf v 31 0)) = s) :
    hubRegWrite s view off 4 v = s := by
  unfold hubRegWrite
  split
  · rfl
  · split
    · exact h
    · exact if_neg fun h => absurd h.1 (by decide)

theorem hubRegWrite_eight {s : State} {view : View} {off : Nat} (v : BitVec 64) (hst : 2 ≤ s.rst.stage) (hoff : off + 8 ≤ 0x4000000) (hal : off % 8 = 0) :
    hubRegWrite s view off 8 v = hubWrite8 s view off v := by
  rw [hubRegWrite, if_neg (by omega), if_neg (by omega), if_pos ⟨rfl, hal⟩]

theorem hubWrite4_denied {s : State} {view : View} {off : Nat} (v : BitVec 32) (hv : isDriver s view = false) (hoff : driverOnly off = true) :
    hubWrite4 s view off v = s := if_pos (by rw [hoff, hv]; rfl)

/-- A 4-byte write of the driver to the package block. -/
theorem hubWrite4_package {s : State} {view : View} {o : Nat} (v : BitVec 32) (hv : isDriver s view = true) (ho : o < 0x40) :
    hubWrite4 s view (0x1100000 + o) v = packageWrite s o v := by
  have hsub : 0x1100000 + o - 0x1100000 = o := by omega
  rw [hubWrite4, if_neg (by rw [hv]; simp), if_neg (by omega), if_neg (by omega), if_neg (by omega), if_neg (by omega), if_neg (by omega), if_neg (by omega),
    if_pos (by omega), hsub]

theorem hubWrite8_window {s : State} {view : View} (v : BitVec 64) (hv : isDriver s view = true) :
    hubWrite8 s view 0x1100038 v = withHost s { s.host with win := mergeMask (maskOf 64 63 20 ||| 0xFFF) 0 v } := by
  have hmask : v &&& (maskOf 64 63 20 ||| 0xFFF) = mergeMask (maskOf 64 63 20 ||| 0xFFF) 0 v := by simp [mergeMask]
  rw [hubWrite8]
  dsimp only
  rw [if_neg (by rw [hv]; simp), if_neg (by omega), if_neg (by omega), if_neg (by omega), if_pos rfl, hmask]

theorem getLsbD_setHalf (x : BitVec 64) (i : Nat) (v : BitVec 32) (j : Nat) :
    (setHalf x i v).getLsbD j = if 32 * i ≤ j ∧ j < 32 * i + 32 then (decide (j < 64) && v.getLsbD (j - 32 * i)) else x.getLsbD j := by
  rw [setHalf, getLsbD_sf]
  rfl

/-- The two halves of a 64-bit word, written one after the other. -/
theorem setHalf_both (x v : BitVec 64) : setHalf (setHalf x 0 (BitVec.ofNat 32 (bf v 31 0))) 1 (BitVec.ofNat 32 (bf v 63 32)) = v := by
  refine BitVec.eq_of_getLsbD_eq fun j hj => ?_
  rw [getLsbD_setHalf]
  by_cases h : 32 ≤ j
  · rw [if_pos (by omega), BitVec.getLsbD_ofNat, testBit_bf, decide_eq_true hj, decide_eq_true (by omega)]
    have hidx : 32 + (j - 32 * 1) = j := by omega
    rw [hidx]
    rfl
  · rw [if_neg (by omega), getLsbD_setHalf, if_pos (by omega), BitVec.getLsbD_ofNat, testBit_bf, decide_eq_true hj, decide_eq_true (by omega)]
    have hidx : 0 + (j - 32 * 0) = j := by omega
    rw [hidx]
    rfl

theorem hubWrite8_switchTime {s : State} {view : View} (v : BitVec 64) (hv : isDriver s view = true) :
    hubWrite8 s view 0x1100020 v = withSpan s { s.span with rat := v } := by
  have hlo : hubWrite4 s view 0x1100020 (BitVec.ofNat 32 (bf v 31 0)) = withSpan s { s.span with rat := setHalf s.span.rat 0 (BitVec.ofNat 32 (bf v 31 0)) } :=
    hubWrite4_package (o := 0x20) _ hv (by decide)
  have hhi := hubWrite4_package (s := withSpan s { s.span with rat := setHalf s.span.rat 0 (BitVec.ofNat 32 (bf v 31 0)) }) (view := view) (o := 0x24)
    (BitVec.ofNat 32 (bf v 63 32)) hv (by decide)
  rw [hubWrite8]
  dsimp only
  rw [if_neg (by rw [hv]; simp), if_neg (by omega), if_neg (by omega), if_neg (by omega), if_neg (by omega), if_neg (by omega), if_neg (by omega), hlo]
  refine hhi.trans ?_
  show withSpan s { s.span with rat := setHalf (setHalf s.span.rat 0 (BitVec.ofNat 32 (bf v 31 0))) 1 (BitVec.ofNat 32 (bf v 63 32)) } = _
  rw [setHalf_both]

theorem registerWrite_runs {s : State} {view : View} (h : view = .pcie → barOpen s = true ∧ s.host.posted = []) (off size : Nat) (v : BitVec 64) :
    exec (.registerWrite (.hub view off) size v) s = .next (hubRegWrite s view off size v) := by
  cases view with
  | mason => rfl
  | pcie =>
    obtain ⟨h1, h2⟩ := h rfl
    exact congrArg Host.Outcome.next ((if_neg (by rw [h1]; decide)).trans (if_pos h2))

theorem bf_low (v : BitVec 64) (hi lo : Nat) (h : hi < 32) : bf (BitVec.ofNat 32 (bf v 31 0)) hi lo = bf v hi lo := by
  apply Nat.eq_of_testBit_eq
  intro i
  rw [testBit_bf, testBit_bf, BitVec.getLsbD_ofNat, testBit_bf]
  by_cases hi' : i < hi + 1 - lo
  · rw [decide_eq_true (show lo + i < 32 by omega), Nat.zero_add]
    simp
  · simp [hi']

theorem pwrFreq_writes {s : State} (h : 2 ≤ s.rst.stage) (v : BitVec 64) : ∃ t, exec (.registerWrite (.key .pwrFreq) 4 v) s = .next t ∧
    t = { s with power := { s.power with freqNext := t.power.freqNext } } ∧
    ((56 < bf v 13 8 ∨ bf v 13 8 < bf v 5 0) → t.power.freqNext = s.power.freqNext) ∧
    (bf v 13 8 ≤ 56 → bf v 5 0 ≤ bf v 13 8 → bf t.power.freqNext 13 8 = bf v 13 8 ∧ bf t.power.freqNext 5 0 = bf v 5 0) := by
  have h13 := bf_low v 13 8 (by decide)
  have h5 := bf_low v 5 0 (by decide)
  refine ⟨_, congrArg Host.Outcome.next (if_pos ⟨h, rfl⟩), rfl, fun hbad => ?_, fun h1 h2 => ?_⟩
  · show freqNew s.power.freqNext (BitVec.ofNat 32 (bf v 31 0)) = _
    rw [freqNew, h13, h5]
    exact if_pos hbad
  · have hnew : freqNew s.power.freqNext (BitVec.ofNat 32 (bf v 31 0)) = mergeMask 0x3F3F 0 (BitVec.ofNat 32 (bf v 31 0)) := by
      rw [freqNew, h13, h5, if_neg (by omega)]
      simp [mergeMask]
    show bf (freqNew s.power.freqNext (BitVec.ofNat 32 (bf v 31 0))) 13 8 = _ ∧ bf (freqNew s.power.freqNext (BitVec.ofNat 32 (bf v 31 0))) 5 0 = _
    rw [hnew]
    exact ⟨(bf_mergeMask_in _ _ (by decide)).trans h13, (bf_mergeMask_in _ _ (by decide)).trans h5⟩

end Sys2Proof.Machine
end

section
/-!
PROOF. The obligation about pages, the store, the host port and the Mason cores (O54).
-/

namespace Sys2Proof.Machine

theorem linkReset_idle {s : State} (h : s.host.outs = []) : linkReset s = { s with host := { s.host with
    link := false, cfg := {}, msix := [], pba := [], posted := [] } } :=
  congrArg (fun o => withHost s { s.host with link := false, cfg := {}, msix := [], pba := [], outs := o, posted := [] }) h.symm

theorem pcieLinkUp_trains {s : State} (h : 3 ≤ s.rst.stage) : exec .pcieLinkUp s = .next (withHost s { s.host with link := true }) :=
  congrArg Host.Outcome.next (if_pos h)

/-- Settles O54: pages, orders, MGMT packets and the store by what each command writes; the host port and the Mason cores by the branch of
the command that the address and the state of the port choose. -/
theorem pagesAndPortsRun : Obligations.PagesAndPortsRun := by
  intro s
  refine ⟨fun m v => ⟨mbGo_early, fun hst => ⟨fun hgo hw => ⟨_, mbGo_writes hst m v, ?_⟩, fun hgo h2 h1 => ⟨_, mbGo_writes hst m v, ?_⟩⟩⟩,
    fun m v hst => mbRasRptrWrite_writes hst m v, fun τ hat hl => arbitrationSlot_early hat hl, fun hst hh ho hb hdue => ⟨fun hnone => ?_, fun hne hdec => ?_, fun m hone hno hd => ?_⟩,
    fun k hk hst hh => ?_, fun ok => ⟨fun hp => storeUpdateDone_idle hp ok, fun c hp hroom => ⟨fun hok => ?_, fun hok => ?_⟩,
      fun u o hp hb hd hbusy _ hg hreset _ hst _ => storeUpdateDone_answers ok hp hb hd hbusy hst hg hreset⟩,
    fun id oc => ⟨fun hno => outboundCompletion_unknown hno oc, fun r hr ho h => ?_, fun r hr ho => ?_⟩, ⟨fun hidle => ?_, fun r c i a hone hu hf => ?_⟩,
    ⟨fun hst => ⟨_, pcieLinkUp_trains hst, rfl⟩, fun hst => congrArg Host.Outcome.next (if_neg (Nat.not_le.2 hst))⟩,
    fun w => ⟨pcieConfigWrite_closed w, fun hl hr hp => ⟨_, pcieConfigWrite_writes w hl hr hp, rfl, rfl, fun i hi => ⟨bt_andNot _ _ hi, bt_andNot _ _ hi⟩⟩⟩,
    fun v hv => ?_, fun c addr size wr k => ?_, fun view off size v hst hopen => ?_, fun off size v hopen hp => ?_, fun v hst => pwrFreq_writes hst v⟩
  · rw [mbCmdWrite_waits hgo hw]
    exact setsMbox_setMbox ..
  · rw [mbCmdWrite_submits hgo h2 h1]
    exact setsMbox_setMbox ..
  · rw [arbitrationSlot_runs hst hh ho hb hdue, if_pos hnone]
  · obtain ⟨t, h1, h2⟩ := arbitrationSlot_takes hb hne hdec
    rw [arbitrationSlot_runs hst hh ho hb hdue, if_neg hne]
    exact ⟨t, congrArg Host.Outcome.next h1, h2⟩
  · have hbatch : (takeOrder (withKey s { s.key with slotAt := some s.now }) m).key.batch = [takenOrder s m] := by
      rw [takeOrder_batch]
      exact congrArg (· ++ [takenOrder s m]) hb
    have hcode : (takenOrder s m).code = St.unsupported := if_neg (by rw [hno]; decide)
    obtain ⟨h1, h2⟩ := settleBatch_undecoded hbatch hd hcode rfl
    refine ⟨_, takenOrder s m, ?_, h1, takenFrom_takeOrder s m, h2⟩
    rw [arbitrationSlot_runs hst hh ho hb hdue, hone]
    rfl
  · intro s1 off n
    have hrun := mgmtAccess_runs hk hst hh
    refine ⟨fun hbad => ⟨_, hrun.trans (if_pos (hbad.imp_right fun h => h.imp_right fun h => h.imp_right .inl)), rfl⟩, fun h1 h31 hend hal => ?_⟩
    have hgo : 1 < fieldLe k.data 2 1 ∨ ¬ (1 < fieldLe k.data 2 1 ∨ fieldLe k.data 3 1 = 0 ∨ 31 < fieldLe k.data 3 1 ∨
        0x1000 < fieldLe k.data 0 2 + 8 * fieldLe k.data 3 1 ∨ fieldLe k.data 0 2 % 8 ≠ 0) := by
      simp only [n, off] at h1 h31 hend hal
      omega
    have hpass : ∀ i < 2, fieldLe k.data 2 1 = i → ¬ (1 < fieldLe k.data 2 1 ∨ fieldLe k.data 3 1 = 0 ∨ 31 < fieldLe k.data 3 1 ∨
        0x1000 < fieldLe k.data 0 2 + 8 * fieldLe k.data 3 1 ∨ fieldLe k.data 0 2 % 8 ≠ 0) := fun i hi hop => hgo.resolve_left (by omega)
    have hwrite := fun hop : fieldLe k.data 2 1 = 1 =>
      hrun.trans ((if_neg (hpass 1 (by decide) hop)).trans (if_neg (by rw [hop]; decide)))
    refine ⟨fun hop => ?_, fun hop hn hoff => ?_, fun hop hlo hhi hlen => ?_⟩
    · obtain ⟨r1, r2⟩ := mbRead_bytes (getMbox s 3) off (8 * n)
      exact ⟨_, _, hrun.trans ((if_neg (hpass 0 (by decide) hop)).trans (if_pos hop)), rfl, r1, r2⟩
    · refine ⟨_, _, mbGo_writes (s := s1) hst 3 _, hwrite hop, ?_⟩
      have hn' : fieldLe k.data 3 1 = 1 := hn
      have hoff' : fieldLe k.data 0 2 = 0 := hoff
      rw [hn', hoff', mgmtWrite_cmd]
      rfl
    · obtain ⟨w1, w2⟩ := mgmtWrite_args (k := getMbox s 3) (d := k.data) hlo hhi
      have hset := setsMbox_setMbox s1 3 (mgmtWrite (getMbox s 3) off (List.range n) (k.data.drop 8))
      refine ⟨setMbox s1 3 (mgmtWrite (getMbox s 3) off (List.range n) (k.data.drop 8)), _, hwrite hop, rfl, ?_, fun a => ?_⟩
      · rw [hset.page, ← w1]
        exact hset
      · rw [hset.page]
        exact w2 a
  · subst hok
    exact storeUpdateDone_cal hp hroom
  · subst hok
    exact storeUpdateDone_calFails hp
  · subst ho
    exact outboundCompletion_early hr h
  · intro s1
    have hrun := outboundCompletion_completes hr ho
    refine ⟨fun c i a hu hf => ⟨_, hrun, ?_⟩, fun a hu => ⟨_, hrun, ?_⟩, fun d hq hoc => ⟨_, hrun, ?_⟩⟩
    · rw [hu, completeUser_seq (s := outDone s id oc) false _ _ hf]
      cases oc <;> rfl
    · rw [hu]
      cases oc <;> rfl
    · subst hoc
      exact completeUser_quiet hq false d
  · refine ⟨_, pcieLinkReset_runs s, ?_⟩
    rw [hidle]
    exact linkReset_idle hidle
  · refine ⟨_, _, pcieLinkReset_runs _, pcieLinkReset_runs s, ?_⟩
    rw [hone]
    show completeUser (linkReset s) r.user false St.remoteTimeout [] = _
    rw [hu, completeUser_seq (s := linkReset s) false _ _ hf]
    rfl
  · refine ⟨_, msixUnmask_runs hv, ?_⟩
    have hself := unmasked_entry s v.val
    have hbits : ∀ t : State, t.host.msix = (unmasked s v.val).host.msix → bt (tget vecReset t.host.msix v.val) 96 = false ∧
        (∀ i, i ≠ 96 → bt (tget vecReset t.host.msix v.val) i = bt (tget vecReset s.host.msix v.val) i) ∧
        ∀ i, i ≠ v.val → tget vecReset t.host.msix i = tget vecReset s.host.msix i := fun t ht => by
      rw [ht, hself]
      exact ⟨bt_sb _ _ _ (by decide), fun i hi => bt_sb_ne _ _ _ _ hi, fun i hi => tget_tset_ne _ hi _⟩
    rw [unmaskSend_unmasked hv]
    by_cases hc : tget false s.host.pba v.val = true ∧ msgOpen s = true
    · rw [if_pos hc]
      obtain ⟨b1, b2, b3⟩ := hbits (unmaskSent s v.val) rfl
      refine ⟨b1, b2, fun i hi => ⟨b3 i hi, tget_tset_ne _ hi _⟩, rfl, fun hp => absurd (hp.symm.trans hc.1) (by decide), fun _ _ _ _ _ => ⟨tget_tset_self .., _, _, rfl, ?_, ?_⟩⟩
      · refine (field_toNat _ 63 0 64 (by decide)).trans ?_
        exact bf_sb_out _ _ _ _ _ (.inl (by decide))
      · refine (field_toNat _ 95 64 32 (by decide)).trans ?_
        exact bf_sb_out _ _ _ _ _ (.inl (by decide))
    · rw [if_neg hc]
      obtain ⟨b1, b2, b3⟩ := hbits (unmasked s v.val) rfl
      refine ⟨b1, b2, fun i hi => ⟨b3 i hi, rfl⟩, rfl, fun _ => rfl, fun hp h1 h2 h3 h4 => absurd ⟨hp, ?_⟩ hc⟩
      rw [msgOpen, h1, h2, h3, h4]
      rfl
  · refine ⟨masonAccess_off, fun hst hdie hcl => ⟨fun ha => ⟨_, masonAccess_faults hst hdie hcl ha, rfl⟩, fun ha hr hh => ?_, fun ha hr hroute => ?_, fun hlo hhi hr hroute hk => ?_,
      fun hlo hhi hr hroute hk => ?_⟩⟩
    · have hrun := masonAccess_local (size := size) (wr := wr) ⟨hst, hdie, hcl, masonHeld_local ha hr hh⟩ ha
      refine ⟨fun hk hline hn => ?_, fun hk hline hw code z hz => ?_⟩
      · rw [masonReads_load hk, if_pos rfl] at hrun
        obtain ⟨l1, l2⟩ := masonLoad_line (s := s) (d := 9 + c.val / 72) hn hline
        exact ⟨fun hc => ⟨_, hrun, l1 hc⟩, fun hc code bs z hz => ⟨_, hrun, l2 hc code bs z hz⟩⟩
      · rw [masonReads_store hk, if_neg Bool.false_ne_true, masonStore_line hw hline hz] at hrun
        refine ⟨_, hrun, fun hc => if_pos hc, fun hc => ?_⟩
        rw [if_neg hc]
        exact ras_reported ..
    · have hrun := masonAccess_hub (size := size) (wr := wr) ⟨hst, hdie, hcl, masonHeld_hub ha hr⟩ ha
      rw [show routed s (9 + c.val / 72) hubDie = false from hroute, if_neg Bool.false_ne_true] at hrun
      refine ⟨fun hk => ⟨_, hrun, ?_⟩, fun hk => ⟨_, hrun, ?_⟩⟩
      · rw [masonReads_load hk]
        rfl
      · rw [masonReads_store hk]
        exact ras_reported ..
    · have ha : onHub addr = true := by
        rw [onHub, decide_eq_true (show 0x20000000000 ≤ addr ∧ addr < 0x20004000000 from ⟨hlo, hhi⟩)]
        rfl
      have hrun := masonAccess_hub (size := size) (wr := wr) ⟨hst, hdie, hcl, masonHeld_hub ha hr⟩ ha
      rw [show routed s (9 + c.val / 72) hubDie = true from hroute, if_pos rfl, masonReads_store hk, masonHub, if_pos hhi] at hrun
      exact hrun
    · have ha : onHub addr = true := by
        rw [onHub, decide_eq_true (show 0x40000000000 ≤ addr ∧ addr < 0x80000000000 from ⟨hlo, hhi⟩)]
        exact Bool.or_true _
      have hge : ¬ addr < 0x20004000000 := by omega
      have hrun := masonAccess_hub (size := size) (wr := wr) ⟨hst, hdie, hcl, masonHeld_hub ha hr⟩ ha
      rw [show routed s (9 + c.val / 72) hubDie = true from hroute, if_pos rfl, masonReads_load (.inl hk), masonHub, if_neg hge] at hrun
      refine ⟨fun hout => ⟨_, hrun, ?_⟩, fun hno => ⟨_, hrun, ?_⟩⟩
      · rw [masonBus]
        exact if_pos hout
      · have hnot : outReady s = false := by
          rw [outReady]
          rcases hno with h | h <;> rw [h] <;> simp
        rw [masonBus]
        exact if_neg (by rw [hnot]; decide)
  · have hrun := registerWrite_runs hopen off size v
    refine ⟨fun hodd => hrun.trans (congrArg _ (hubRegWrite_odd view v hodd)), fun hdrv hoff h4 => ?_, fun hdrv h4 hoff => ?_, fun hdrv h8 hoff => ?_, fun hdrv h8 hoff => ?_⟩
    · subst h4
      exact hrun.trans (congrArg _ (hubRegWrite_four (hubWrite4_denied _ hdrv hoff)))
    · subst h4
      refine hrun.trans (congrArg _ (hubRegWrite_four ?_))
      rcases hoff with rfl | rfl
      · exact hubWrite4_package (o := 0x38) _ hdrv (by decide)
      · exact hubWrite4_package (o := 0x3C) _ hdrv (by decide)
    · subst h8 hoff
      rw [hubRegWrite_eight v hst (by decide) (by decide), hubWrite8_window v hdrv] at hrun
      exact ⟨_, hrun, rfl, bf_mergeMask_in _ _ (by decide), bf_mergeMask_in _ _ (by decide), bf_mergeMask_out _ _ (by decide)⟩
    · subst h8 hoff
      rw [hubRegWrite_eight v hst (by decide) (by decide), hubWrite8_switchTime v hdrv] at hrun
      exact ⟨_, hrun, rfl⟩
  · exact ⟨_, congrArg Host.Outcome.next ((if_neg (by rw [hopen]; decide)).trans (if_neg hp)), rfl⟩

end Sys2Proof.Machine
end

section
/-!
PROOF. Power domains, clocks and Buttress (R363 to R368, R373 to R376).
-/

namespace Sys2Proof.Machine

/-- Each entry of a list is taken once as `R` says, no other changes, and `I` is kept. -/
theorem forEach_each {κ : Type} {get : State → Nat → κ} {I : State → Prop} {R : Nat → κ → κ → Prop} {f : State → Nat → State}
    (hf : ∀ s p, I s → I (f s p) ∧ (∀ q, q ≠ p → get (f s p) q = get s q) ∧ R p (get s p) (get (f s p) p)) : ∀ (l : List Nat) (s : State),
    l.Nodup → I s → I (forEach s l f) ∧ (∀ q, q ∉ l → get (forEach s l f) q = get s q) ∧ ∀ q ∈ l, R q (get s q) (get (forEach s l f) q)
  | [], s, _, hs => ⟨hs, fun _ _ => rfl, fun _ hq => absurd hq List.not_mem_nil⟩
  | p :: l, s, hnd, hs => by
    have hstep : forEach s (p :: l) f = forEach (f s p) l f := rfl
    obtain ⟨hp, hl⟩ := List.nodup_cons.1 hnd
    obtain ⟨h1, h2, h3⟩ := hf s p hs
    obtain ⟨g1, g2, g3⟩ := forEach_each hf l (f s p) hl h1
    rw [hstep]
    refine ⟨g1, fun q hq => ?_, fun q hq => ?_⟩
    · have hne : q ≠ p := fun he => hq (List.mem_cons.2 (.inl he))
      rw [g2 q (fun hm => hq (List.mem_cons_of_mem _ hm)), h2 q hne]
    · by_cases he : q = p
      · subst he
        rw [g2 q hp]
        exact h3
      · have hm := (List.mem_cons.1 hq).resolve_left he
        rw [← h2 q he]
        exact g3 q hm

/-- A predicate that each step keeps. -/
theorem forEach_invariant {α : Type} {I : State → Prop} {f : State → α → State} (hf : ∀ s x, I s → I (f s x)) : ∀ (l : List α) (s : State),
    I s → I (forEach s l f)
  | [], _, hs => hs
  | x :: l, s, hs => forEach_invariant hf l (f s x) (hf s x hs)

/-! ## Power domains (Tables 12.2, 12.3) -/

theorem setsDom_of_doms {s t : State} {d : Nat} {k : Dom} (hp : t.power = { s.power with doms := t.power.doms, groups := t.power.groups })
    (hd : t.power.doms = tset {} s.power.doms d k) : SetsDom s t d k := by
  refine ⟨hp, ?_, fun i hi => ?_⟩
  · rw [getDom, hd]
    exact tget_tset_self ..
  · rw [getDom, hd]
    exact tget_tset_ne _ hi _

theorem setsDom_of_power {s t : State} {d : Nat} {k : Dom} (h : t.power = (setDom s d k).power) : SetsDom s t d k :=
  setsDom_of_doms (by rw [h]; rfl) (by rw [h]; rfl)

/-- A domain that stands at its target does not move. -/
theorem domAdvance_stands {s : State} {d : Nat} (h : ((getDom s d).st = .off ∧ (getDom s d).target = false) ∨ ((getDom s d).st = .on ∧ (getDom s d).target = true)) :
    domAdvance s d = s := by
  unfold domAdvance
  rcases h with ⟨h1, h2⟩ | ⟨h1, h2⟩ <;> simp only [h1, h2]

/-- A domain that is off and shall be on powers up. -/
theorem domAdvance_rises {s : State} {d : Nat} (h1 : (getDom s d).st = .off) (h2 : (getDom s d).target = true) :
    domAdvance s d = setDom s d { getDom s d with st := .poweringUp } := by
  unfold domAdvance
  simp only [h1, h2]

/-- A domain whose power-down is over, with what it saved. -/
def domDown (k : Dom) (saved : List (BitVec 32)) : Dom := { k with st := .off, count := satInc k.count, saved := saved }

theorem groupCores_nodup (d : Nat) : ((List.range 4).map fun i => 4 * d + i).Nodup :=
  List.Nodup.map (fun a b h => by
    have h : 4 * d + a = 4 * d + b := h
    omega) List.nodup_range

theorem mem_groupCores {d c : Nat} : c ∈ (List.range 4).map (fun i => 4 * d + i) ↔ c / 4 = d := by
  rw [List.mem_map]
  constructor
  · rintro ⟨i, hi, rfl⟩
    have hi := List.mem_range.1 hi
    omega
  · intro h
    exact ⟨c % 4, List.mem_range.2 (by omega), by omega⟩

/-- The cores of a group whose power-down is over. -/
theorem downDone_group {s : State} {d : Nat} (hd : d < 64) : (downDone s d).power = (setDom s d (domDown (getDom s d) (groupSave s d))).power ∧
    (∀ c, c / 4 = d → getCore (downDone s d) c = coreUnpowered (getCore s c)) ∧ ∀ c, c / 4 ≠ d → getCore (downDone s d) c = getCore s c := by
  obtain ⟨h1, h2, h3⟩ := forEach_each (get := getCore) (I := fun t => t.power = (setDom s d (domDown (getDom s d) (groupSave s d))).power)
    (R := fun _ k o => o = coreUnpowered k) (f := fun s c => modCore s c coreUnpowered)
    (fun u c hu => ⟨hu, fun q hq => tget_tset_ne _ hq _, tget_tset_self ..⟩) _ (setDom s d (domDown (getDom s d) (groupSave s d))) (groupCores_nodup d) rfl
  have hgo : downDone s d = forEach (setDom s d (domDown (getDom s d) (groupSave s d))) ((List.range 4).map fun i => 4 * d + i) fun s c => modCore s c coreUnpowered :=
    if_pos hd
  rw [hgo]
  exact ⟨h1, fun c hc => h3 c (mem_groupCores.2 hc), fun c hc => h2 c fun hm => hc (mem_groupCores.1 hm)⟩

/-- The channels of a stack, whose counts are saved. -/
def stackChans (d : Nat) : List Nat := (List.range 32).map fun i => 32 * (d - 80) + i

def stackSave (s : State) (d : Nat) : List (BitVec 32) := (stackChans d).map fun c => BitVec.ofNat 32 (bf (getHbm s c).stat 15 0)

theorem forEach_setHbm_power {α : Type} {P : PowerSt} (g : α → Nat) (k : State → α → HbmChan) (l : List α) (s : State) (h : s.power = P) :
    (forEach s l fun s c => setHbm s (g c) (k s c)).power = P :=
  forEach_invariant (I := fun t => t.power = P) (f := fun s c => setHbm s (g c) (k s c)) (fun _ _ hu => hu) l s h

theorem downDone_stack {s : State} {d : Nat} (h1 : 80 ≤ d) (h2 : d < 96) :
    (downDone s d).power = (setDom s d (domDown (getDom s d) (stackSave s d))).power := by
  have hgo : downDone s d = forEach (setDom s d (domDown (getDom s d) (stackSave s d))) (stackChans d)
      fun s c => setHbm s c { getHbm s c with stat := sf (getHbm s c).stat 15 0 0 } := (if_neg (by omega)).trans (if_pos ⟨h1, h2⟩)
  rw [hgo]
  exact forEach_setHbm_power (fun c => c) _ _ _ rfl

theorem downDone_other {s : State} {d : Nat} (h1 : 64 ≤ d) (h2 : ¬ (80 ≤ d ∧ d < 96)) :
    downDone s d = setDom s d (domDown (getDom s d) (getDom s d).saved) := (if_neg (by omega)).trans (if_neg h2)

/-- Every power-down ends with the domain off. -/
theorem downDone_dom (s : State) (d : Nat) : ∃ saved, (downDone s d).power = (setDom s d (domDown (getDom s d) saved)).power := by
  by_cases h1 : d < 64
  · exact ⟨_, (downDone_group h1).1⟩
  · by_cases h2 : 80 ≤ d ∧ d < 96
    · exact ⟨_, downDone_stack h2.1 h2.2⟩
    · exact ⟨_, congrArg State.power (downDone_other (by omega) h2)⟩

theorem getD_map_range {α : Type} (f : Nat → α) (n i : Nat) (a : α) (h : i < n) : ((List.range n).map f).getD i a = f i := by
  rw [List.getD_eq_getElem?_getD, List.getElem?_map, List.getElem?_range h]
  rfl

theorem length_flatMap_six {α : Type} (f : Nat → List α) (h : ∀ i, (f i).length = 6) : ∀ n, ((List.range n).flatMap f).length = 6 * n
  | 0 => rfl
  | n + 1 => by
    rw [List.range_succ, List.flatMap_append, List.length_append, length_flatMap_six f h n, List.flatMap_cons, List.flatMap_nil, List.append_nil, h]
    rfl

theorem getD_flatMap_six {α : Type} (f : Nat → List α) (h : ∀ i, (f i).length = 6) (a : α) {i e : Nat} (he : e < 6) : ∀ n, i < n →
    ((List.range n).flatMap f).getD (6 * i + e) a = (f i).getD e a
  | 0, hi => absurd hi (Nat.not_lt_zero i)
  | n + 1, hi => by
    have hlen := length_flatMap_six f h n
    rw [List.range_succ, List.flatMap_append, List.flatMap_cons, List.flatMap_nil, List.append_nil, List.getD_eq_getElem?_getD, List.getElem?_append]
    by_cases hlt : i < n
    · rw [if_pos (by omega), ← List.getD_eq_getElem?_getD, getD_flatMap_six f h a he n hlt]
    · have hin : i = n := by omega
      subst hin
      have hidx : 6 * i + e - 6 * i = e := by omega
      rw [if_neg (by omega), hlen, hidx, ← List.getD_eq_getElem?_getD]

/-- The six counts that core `c` saves. -/
def coreCounts (s : State) (c : Nat) : List (BitVec 32) :=
  ((List.range 4).map fun e => tget 0 (getCore s c).cr.ashErr e) ++ [(getCore s c).cr.chsErr, (getCore s c).cr.spadErr]

theorem groupSave_counts (s : State) (d : Nat) {i e : Nat} (hi : i < 4) (he : e < 6) :
    (groupSave s d).getD (6 * i + e) 0 = (coreCounts s (4 * d + i)).getD e 0 := by
  have hsave : groupSave s d = (List.range 4).flatMap fun i => coreCounts s (4 * d + i) := rfl
  rw [hsave]
  exact getD_flatMap_six _ (fun _ => rfl) 0 he 4 hi

theorem coreCounts_ash (s : State) (c : Nat) {e : Nat} (he : e < 4) : (coreCounts s c).getD e 0 = tget 0 (getCore s c).cr.ashErr e := by
  have hlen : ((List.range 4).map fun e => tget 0 (getCore s c).cr.ashErr e).length = 4 := by rw [List.length_map, List.length_range]
  rw [coreCounts, List.getD_eq_getElem?_getD, List.getElem?_append_left (by omega), ← List.getD_eq_getElem?_getD, getD_map_range _ _ _ _ he]

theorem stackSave_counts (s : State) (d : Nat) {i : Nat} (hi : i < 32) :
    ((stackSave s d).getD i 0).toNat = bf (getHbm s (32 * (d - 80) + i)).stat 15 0 := by
  have hmap : stackSave s d = (List.range 32).map fun i => BitVec.ofNat 32 (bf (getHbm s (32 * (d - 80) + i)).stat 15 0) := by
    rw [stackSave, stackChans, List.map_map]
    rfl
  rw [hmap, getD_map_range _ _ _ _ hi]
  exact field_toNat _ 15 0 32 (by decide)

/-- The end of a power-down whose domain stays down (R364). -/
theorem domainTransitionDone_down (s : State) (d : Fin 108) (h1 : (getDom s d.val).st = .poweringDown) (h2 : (getDom s d.val).target = false) :
    exec (.domainTransitionDone d) s = .next (downDone s d.val) := by
  have hexec : exec (.domainTransitionDone d) s = execDomainTransitionDone d s := rfl
  obtain ⟨saved, hp⟩ := downDone_dom s d.val
  have hdom : getDom (downDone s d.val) d.val = domDown (getDom s d.val) saved := (setsDom_of_power hp).dom
  rw [hexec, execDomainTransitionDone]
  simp only [h1]
  rw [domAdvance_stands]
  rw [hdom]
  exact .inl ⟨rfl, h2⟩

/-- A domain that shall be up again at the end of its power-down rises at once (R364). -/
theorem domainTransitionDone_rises (s : State) (d : Fin 108) (h1 : (getDom s d.val).st = .poweringDown) (h2 : (getDom s d.val).target = true) :
    ∃ t, exec (.domainTransitionDone d) s = .next t ∧ (getDom t d.val).st = .poweringUp := by
  have hexec : exec (.domainTransitionDone d) s = execDomainTransitionDone d s := rfl
  obtain ⟨saved, hp⟩ := downDone_dom s d.val
  have hdom : getDom (downDone s d.val) d.val = domDown (getDom s d.val) saved := (setsDom_of_power hp).dom
  have hrise : domAdvance (downDone s d.val) d.val = setDom (downDone s d.val) d.val { getDom (downDone s d.val) d.val with st := .poweringUp } :=
    domAdvance_rises (by rw [hdom]; rfl) (by rw [hdom]; exact h2)
  refine ⟨domAdvance (downDone s d.val) d.val, ?_, ?_⟩
  · rw [hexec, execDomainTransitionDone]
    simp only [h1]
  · rw [hrise, getDom_setDom_self]

theorem coreDark_of_unpowered {s t : State} {c : Nat} (h : getCore t c = coreUnpowered (getCore s c)) : coreDark s t c := by
  unfold coreDark
  rw [h]
  exact ⟨rfl, rfl, rfl, rfl, rfl⟩

/-- A domain whose power-up is over. -/
def domUp (k : Dom) : Dom := { k with st := .on, count := satInc k.count, saved := [] }

theorem foldl_tset_tget (v : Nat → BitVec 32) : ∀ (l : List Nat) (t : Tab (BitVec 32)) (e : Nat), e ∈ l →
    tget 0 (l.foldl (fun t e => tset 0 t e (v e)) t) e = v e := by
  intro l
  induction l using List.reverseRecOn with
  | nil => exact fun _ _ h => absurd h List.not_mem_nil
  | append_singleton l x ih =>
    intro t e he
    rw [List.foldl_append, List.foldl_cons, List.foldl_nil]
    by_cases hx : e = x
    · subst hx
      exact tget_tset_self ..
    · rw [tget_tset_ne _ hx]
      exact ih t e ((List.mem_append.1 he).resolve_right fun h => hx (List.mem_singleton.1 h))

/-- The cores and the clock of a group whose power-up is over (R365). -/
theorem upDone_group {s : State} {d : Nat} (hd : d < 64) : (upDone s d).power = (setGroup (setDom s d (domUp (getDom s d))) d {}).power ∧
    ∀ i < 4, getCore (upDone s d) (4 * d + i) = coreRestored (getCore s (4 * d + i)) (getDom s d).saved i := by
  have hgo : upDone s d = forEach (setGroup (setDom s d (domUp (getDom s d))) d {}) (List.range 4) fun u i =>
      modCore u (4 * d + i) fun c => coreRestored c (getDom s d).saved i := if_pos hd
  obtain ⟨h1, _, h3⟩ := forEach_each (get := fun t i => getCore t (4 * d + i)) (I := fun t => t.power = (setGroup (setDom s d (domUp (getDom s d))) d {}).power)
    (R := fun i k o => o = coreRestored k (getDom s d).saved i) (f := fun u i => modCore u (4 * d + i) fun c => coreRestored c (getDom s d).saved i)
    (fun u i hu => ⟨hu, fun q hq => tget_tset_ne _ (by omega) _, tget_tset_self ..⟩) (List.range 4) (setGroup (setDom s d (domUp (getDom s d))) d {})
    List.nodup_range rfl
  rw [hgo]
  exact ⟨h1, fun i hi => h3 i (List.mem_range.2 hi)⟩

theorem upDone_stack {s : State} {d : Nat} (h1 : 80 ≤ d) (h2 : d < 96) : (upDone s d).power = (setDom s d (domUp (getDom s d))).power ∧
    ∀ i < 32, getHbm (upDone s d) (32 * (d - 80) + i) =
      { getHbm s (32 * (d - 80) + i) with stat := sf (getHbm s (32 * (d - 80) + i)).stat 15 0 ((getDom s d).saved.getD i 0).toNat } := by
  have hgo : upDone s d = forEach (setDom s d (domUp (getDom s d))) (List.range 32) fun u i =>
      setHbm u (32 * (d - 80) + i) { getHbm u (32 * (d - 80) + i) with stat := sf (getHbm u (32 * (d - 80) + i)).stat 15 0 ((getDom s d).saved.getD i 0).toNat } :=
    (if_neg (by omega)).trans (if_pos ⟨h1, h2⟩)
  obtain ⟨-, -, g3⟩ := forEach_each (get := fun t i => getHbm t (32 * (d - 80) + i)) (I := fun _ => True)
    (R := fun i k o => o = { k with stat := sf k.stat 15 0 ((getDom s d).saved.getD i 0).toNat })
    (f := fun u i => setHbm u (32 * (d - 80) + i) { getHbm u (32 * (d - 80) + i) with stat := sf (getHbm u (32 * (d - 80) + i)).stat 15 0 ((getDom s d).saved.getD i 0).toNat })
    (fun u i _ => ⟨trivial, fun q hq => tget_tset_ne _ (by omega) _, tget_tset_self ..⟩) (List.range 32) (setDom s d (domUp (getDom s d)))
    List.nodup_range trivial
  rw [hgo]
  exact ⟨forEach_setHbm_power _ _ _ _ rfl, fun i hi => g3 i (List.mem_range.2 hi)⟩

theorem upDone_dom {s : State} {d : Nat} (hd : d < 104) : SetsDom s (upDone s d) d (domUp (getDom s d)) := by
  by_cases h1 : d < 64
  · obtain ⟨hp, -⟩ := upDone_group (s := s) h1
    exact setsDom_of_doms (by rw [hp]; rfl) (by rw [hp]; rfl)
  · by_cases h2 : 80 ≤ d ∧ d < 96
    · exact setsDom_of_power (upDone_stack h2.1 h2.2).1
    · have hgo : upDone s d = setDom s d (domUp (getDom s d)) := ((if_neg h1).trans (if_neg h2)).trans (if_neg (by omega))
      rw [hgo]
      exact setsDom_of_power rfl

/-- The end of a power-up whose domain stays up (R364). -/
theorem domainTransitionDone_up (s : State) (d : Fin 108) (hd : d.val < 104) (h1 : (getDom s d.val).st = .poweringUp) (h2 : (getDom s d.val).target = true) :
    exec (.domainTransitionDone d) s = .next (upDone s d.val) := by
  have hexec : exec (.domainTransitionDone d) s = execDomainTransitionDone d s := rfl
  have hdom : getDom (upDone s d.val) d.val = domUp (getDom s d.val) := (upDone_dom hd).dom
  rw [hexec, execDomainTransitionDone]
  simp only [h1]
  rw [domAdvance_stands]
  rw [hdom]
  exact .inr ⟨rfl, h2⟩

theorem stackSave_restored {h : HbmChan} {v : Nat} : bf (sf h.stat 15 0 v) 15 0 = v % 65536 := bf_sf_same _ _ _ _ (by decide)

theorem domainDone_down (s : State) (d : Fin 108) (h1 : (getDom s d.val).st = .poweringDown) (h2 : (getDom s d.val).target = false) :
    ∃ t, exec (.domainTransitionDone d) s = .next t ∧
      SetsDom s t d.val { getDom s d.val with st := .off, count := satInc (getDom s d.val).count, saved := (getDom t d.val).saved } ∧
      (d.val < 64 → (∀ i < 4, coreDark s t (4 * d.val + i)) ∧
        (∀ i < 4, (∀ e < 4, (getDom t d.val).saved.getD (6 * i + e) 0 = tget 0 (getCore s (4 * d.val + i)).cr.ashErr e) ∧
          (getDom t d.val).saved.getD (6 * i + 4) 0 = (getCore s (4 * d.val + i)).cr.chsErr ∧
          (getDom t d.val).saved.getD (6 * i + 5) 0 = (getCore s (4 * d.val + i)).cr.spadErr) ∧
        ∀ c, c / 4 ≠ d.val → getCore t c = getCore s c) ∧
      (80 ≤ d.val → d.val < 96 → ∀ i < 32, ((getDom t d.val).saved.getD i 0).toNat = bf (getHbm s (32 * (d.val - 80) + i)).stat 15 0) := by
  refine ⟨_, domainTransitionDone_down s d h1 h2, ?_, fun hd => ?_, fun ha hb => ?_⟩
  · obtain ⟨saved, hp⟩ := downDone_dom s d.val
    have hset := setsDom_of_power hp
    rw [hset.dom]
    exact hset
  · obtain ⟨hp, hcore, hother⟩ := downDone_group (s := s) hd
    rw [(setsDom_of_power hp).dom]
    refine ⟨fun i hi => coreDark_of_unpowered (hcore _ (by omega)), fun i hi => ⟨fun e he => ?_, ?_, ?_⟩, hother⟩
    · exact (groupSave_counts s d.val hi (by omega)).trans (coreCounts_ash s _ he)
    · exact groupSave_counts s d.val hi (by decide)
    · exact groupSave_counts s d.val hi (by decide)
  · rw [(setsDom_of_power (downDone_stack ha hb)).dom]
    exact fun i hi => stackSave_counts s d.val hi

theorem domainDone_up (s : State) (d : Fin 108) (h1 : (getDom s d.val).st = .poweringUp) (h2 : (getDom s d.val).target = true) :
    ∃ t, exec (.domainTransitionDone d) s = .next t ∧
      (d.val < 104 → SetsDom s t d.val { getDom s d.val with st := .on, count := satInc (getDom s d.val).count, saved := [] }) ∧
      (d.val < 64 → getGroup t d.val = {} ∧ (∀ i < 4, (getCore t (4 * d.val + i)).phase = .returning ∧
          (∀ e < 4, tget 0 (getCore t (4 * d.val + i)).cr.ashErr e = (getDom s d.val).saved.getD (6 * i + e) 0) ∧
          (getCore t (4 * d.val + i)).cr.chsErr = (getDom s d.val).saved.getD (6 * i + 4) 0 ∧
          (getCore t (4 * d.val + i)).cr.spadErr = (getDom s d.val).saved.getD (6 * i + 5) 0)) ∧
      (80 ≤ d.val → d.val < 96 → ∀ i < 32, chState t (32 * (d.val - 80) + i) = chState s (32 * (d.val - 80) + i) ∧
        bf (getHbm t (32 * (d.val - 80) + i)).stat 15 0 = ((getDom s d.val).saved.getD i 0).toNat % 65536) := by
  by_cases hlt : d.val < 104
  · refine ⟨_, domainTransitionDone_up s d hlt h1 h2, fun _ => upDone_dom hlt, fun hd => ?_, fun ha hb i hi => ?_⟩
    · obtain ⟨hp, hcore⟩ := upDone_group (s := s) hd
      refine ⟨?_, fun i hi => ?_⟩
      · rw [getGroup, hp]
        exact getGroup_setGroup_self (s := setDom s d.val (domUp (getDom s d.val))) ..
      · rw [hcore i hi]
        exact ⟨rfl, fun e he => foldl_tset_tget _ _ _ e (List.mem_range.2 he), rfl, rfl⟩
    · have hh := (upDone_stack (s := s) ha hb).2 i hi
      rw [chState, hh, chState]
      exact ⟨bf_sf_out _ _ _ _ _ _ (.inr (by decide)), stackSave_restored⟩
  · have hexec : exec (.domainTransitionDone d) s = .next (domAdvance (upDone s d.val) d.val) := by
      have hexec : exec (.domainTransitionDone d) s = execDomainTransitionDone d s := rfl
      rw [hexec, execDomainTransitionDone]
      simp only [h1]
    exact ⟨_, hexec, fun h => absurd h hlt, fun h => absurd (by omega) hlt, fun _ h => absurd (by omega) hlt⟩

theorem domainDone_rest (s : State) (d : Fin 108) (h : (getDom s d.val).st = .off ∨ (getDom s d.val).st = .on ∨ (getDom s d.val).st = .waiting) :
    exec (.domainTransitionDone d) s = .next s := by
  have hexec : exec (.domainTransitionDone d) s = execDomainTransitionDone d s := rfl
  rw [hexec, execDomainTransitionDone]
  rcases h with h | h | h <;> simp only [h]

end Sys2Proof.Machine
end

section
/-!
PROOF. Core clocks, set points and Buttress (R367, R368, R373, R374, R428).
-/

namespace Sys2Proof.Machine

/-! ## Mason clusters (R363) -/

theorem masonStops_waiting (s : State) (m : Fin 8) (h : (getDom s (96 + m.val)).st = .waiting) : ∃ t, exec (.masonHartsStopped m) s = .next t ∧
    SetsDom s t (96 + m.val) { getDom s (96 + m.val) with st := .poweringDown } := by
  have hdown : startDown s (96 + m.val) = setDom s (96 + m.val) { getDom s (96 + m.val) with st := .poweringDown } := if_pos (by omega)
  exact ⟨startDown s (96 + m.val), if_pos h, setsDom_of_power (congrArg State.power hdown)⟩

/-! ## Clocks (R368) -/

theorem towerStep_congr {s t : State} (h : t.power.groups = s.power.groups) (u : Nat) : towerStep t u = towerStep s u := by
  unfold towerStep getGroup
  rw [h]

theorem setPoint_congr {s t : State} (h : t.key = s.key) (u n : Nat) : setPoint t u n = setPoint s u n := by
  unfold setPoint factoryOffset
  rw [h]

/-- A group whose clock has moved to its target. -/
def clockMoved (now : Nat) (k : GroupClk) : GroupClk := { k with step := k.target, blocked := false, lastChange := some now }

theorem applyClock_sets (s : State) (g : Nat) : SetsGroup s (applyClock s g) g (clockMoved s.now (getGroup s g)) ∧
    (getTower (applyClock s g) (g / 8)).vtarget = setPoint s (g / 8) (towerStep (applyClock s g) (g / 8)) ∧
    ∀ u, u ≠ g / 8 → getTower (applyClock s g) u = getTower s u := by
  have hgo : applyClock s g = moveVcore (setGroup s g (clockMoved s.now (getGroup s g))) (g / 8) := rfl
  have hgroups : (applyClock s g).power.groups = (setGroup s g (clockMoved s.now (getGroup s g))).power.groups := rfl
  refine ⟨⟨rfl, getGroup_setGroup_self .., fun i hi => getGroup_setGroup_ne _ _ hi⟩, ?_, fun u hu => ?_⟩
  · rw [towerStep_congr hgroups, hgo, moveVcore, getTower_modTower_self]
    exact setPoint_congr rfl ..
  · rw [hgo, moveVcore, getTower_modTower_ne _ _ hu]
    rfl

/-- Whether a group's clock moved within the last 50 µs (R368). -/
def movedSoon (s : State) (g : Nat) : Bool :=
  match (getGroup s g).lastChange with
  | some t => decide (s.now < t + 50000)
  | none => false

theorem clockChangeApply_eq (s : State) (g : Fin 64) : exec (.clockChangeApply g) s =
    if (getGroup s g.val).blocked && !groupBusy s g.val && (s.power.buttress || !movedSoon s g.val) then .next (applyClock s g.val) else .next s := rfl

theorem movedSoon_of_lt {s : State} {g τ : Nat} (h : (getGroup s g).lastChange = some τ) (hlt : s.now < τ + 50000) : movedSoon s g = true := by
  rw [movedSoon, h]
  exact decide_eq_true hlt

theorem movedSoon_of_le {s : State} {g : Nat} (h : ∀ τ, (getGroup s g).lastChange = some τ → τ + 50000 ≤ s.now) : movedSoon s g = false := by
  unfold movedSoon
  cases hl : (getGroup s g).lastChange with
  | none => rfl
  | some τ => exact decide_eq_false (Nat.not_lt.2 (h τ hl))

theorem clockChange_runs (s : State) (g : Fin 64) :
    (((getGroup s g.val).blocked = false ∨ groupBusy s g.val = true) → exec (.clockChangeApply g) s = .next s) ∧
    (∀ τ, s.power.buttress = false → (getGroup s g.val).lastChange = some τ → s.now < τ + 50000 → exec (.clockChangeApply g) s = .next s) ∧
    ((getGroup s g.val).blocked = true → groupBusy s g.val = false →
      (s.power.buttress = true ∨ ∀ τ, (getGroup s g.val).lastChange = some τ → τ + 50000 ≤ s.now) →
      ∃ t, exec (.clockChangeApply g) s = .next t ∧
        SetsGroup s t g.val { getGroup s g.val with step := (getGroup s g.val).target, blocked := false, lastChange := some s.now } ∧
        (getTower t (g.val / 8)).vtarget = setPoint s (g.val / 8) (towerStep t (g.val / 8)) ∧
        ∀ u, u ≠ g.val / 8 → getTower t u = getTower s u) := by
  rw [clockChangeApply_eq]
  refine ⟨fun h => if_neg fun hc => ?_, fun τ hb hl hlt => if_neg fun hc => ?_, fun hb hi hs => ⟨applyClock s g.val, if_pos ?_, applyClock_sets s g.val⟩⟩
  · obtain ⟨⟨hc1, hc2⟩, -⟩ := by simpa only [Bool.and_eq_true] using hc
    rcases h with h | h
    · exact Bool.false_ne_true (h.symm.trans hc1)
    · rw [h] at hc2
      exact Bool.false_ne_true hc2
  · rw [hb, movedSoon_of_lt hl hlt] at hc
    simp at hc
  · rw [hb, hi]
    rcases hs with hs | hs
    · rw [hs]
      rfl
    · rw [movedSoon_of_le hs]
      simp

/-! ## Regulators (R361, R428) -/

/-- A group that waited for its set point, which tower `u` has now reached, holds its slots. -/
def groupSettled (s : State) (v u : Nat) (k : GroupClk) : GroupClk :=
  if k.step < k.target ∧ setPoint s u k.target ≤ v then { k with blocked := true } else k

def settleGroup (u : Nat) (s : State) (g : Nat) : State :=
  if (getGroup s g).step < (getGroup s g).target ∧ setPoint s u (getGroup s g).target ≤ (getTower s u).vset then
    setGroup s g { getGroup s g with blocked := true } else s

/-- The core groups of a tower. -/
def towerGroups (u : Nat) : List Nat := (List.range 8).map fun i => 8 * u + i

theorem towerGroups_nodup (u : Nat) : (towerGroups u).Nodup :=
  List.Nodup.map (fun a b h => by
    have h : 8 * u + a = 8 * u + b := h
    omega) List.nodup_range

theorem mem_towerGroups {u g : Nat} : g ∈ towerGroups u ↔ g / 8 = u := by
  rw [towerGroups, List.mem_map]
  constructor
  · rintro ⟨i, hi, rfl⟩
    have hi := List.mem_range.1 hi
    omega
  · intro h
    exact ⟨g % 8, List.mem_range.2 (by omega), by omega⟩

/-- Of the package only core group clocks differ. -/
def GroupsOnly (s t : State) : Prop := t = { s with power := { s.power with groups := t.power.groups } }

theorem groupsOnly_setGroup {s t : State} (h : GroupsOnly s t) (g : Nat) (k : GroupClk) : GroupsOnly s (setGroup t g k) := by
  unfold GroupsOnly at *
  rw [h]
  rfl

theorem settleGroup_groups {a s : State} (u g : Nat) (h : GroupsOnly a s) : GroupsOnly a (settleGroup u s g) ∧
    (∀ q, q ≠ g → getGroup (settleGroup u s g) q = getGroup s q) ∧
    getGroup (settleGroup u s g) g = groupSettled a (getTower a u).vset u (getGroup s g) := by
  have htower : getTower s u = getTower a u := (congrArg (fun t : State => getTower t u) h :)
  have hpoint : setPoint s u (getGroup s g).target = setPoint a u (getGroup s g).target := setPoint_congr (congrArg State.key h :) ..
  unfold settleGroup groupSettled
  rw [htower, hpoint]
  by_cases hc : (getGroup s g).step < (getGroup s g).target ∧ setPoint a u (getGroup s g).target ≤ (getTower a u).vset
  · rw [if_pos hc, if_pos hc]
    exact ⟨groupsOnly_setGroup h .., fun q hq => getGroup_setGroup_ne _ _ hq, getGroup_setGroup_self ..⟩
  · rw [if_neg hc, if_neg hc]
    exact ⟨h, fun _ _ => rfl, rfl⟩

/-- Tower `u`'s regulator stands at its set point. -/
def regulated (s : State) (u : Nat) : State := modTower s u fun w => { w with vset := w.vtarget, silent := false }

def regulatorDone (s : State) (u : Nat) : State := forEach (regulated s u) (towerGroups u) (settleGroup u)

theorem regulatorSettled_eq (s : State) (u : Tower) : exec (.regulatorSettled u) s =
    .next (if (regulatorDone s u.val).power.buttress then buttressTimer (regulatorDone s u.val) else regulatorDone s u.val) := by
  have hdone : regulatorDone s u.val = forEach (modTower s u.val fun w => { w with vset := w.vtarget, silent := false }) ((List.range 8).map fun i => 8 * u.val + i)
      fun s g => if (getGroup s g).step < (getGroup s g).target ∧ setPoint s u.val (getGroup s g).target ≤ (getTower s u.val).vset then
        setGroup s g { getGroup s g with blocked := true } else s := rfl
  have hexec : exec (.regulatorSettled u) s = execRegulatorSettled u s := rfl
  rw [hexec, hdone, execRegulatorSettled]

theorem forEach_settleGroup (a : State) (u : Nat) (l : List Nat) (hl : l.Nodup) : GroupsOnly a (forEach a l (settleGroup u)) ∧
    (∀ g, g ∉ l → getGroup (forEach a l (settleGroup u)) g = getGroup a g) ∧
    ∀ g ∈ l, getGroup (forEach a l (settleGroup u)) g = groupSettled a (getTower a u).vset u (getGroup a g) :=
  forEach_each (get := getGroup) (I := GroupsOnly a) (R := fun _ k o => o = groupSettled a (getTower a u).vset u k) (f := settleGroup u)
    (fun _ g hv => settleGroup_groups u g hv) l a hl rfl

theorem groupSettled_regulated (s : State) (u : Nat) (k : GroupClk) :
    groupSettled (regulated s u) (getTower (regulated s u) u).vset u k = groupSettled s (getTower s u).vtarget u k := by
  have hvset : (getTower (regulated s u) u).vset = (getTower s u).vtarget := congrArg TowerSt.vset (getTower_modTower_self ..)
  have hpoint : setPoint (regulated s u) u k.target = setPoint s u k.target := setPoint_congr rfl ..
  rw [groupSettled, groupSettled, hvset, hpoint]

theorem regulatorDone_groups (s : State) (u : Nat) : GroupsOnly (regulated s u) (regulatorDone s u) ∧
    ∀ g, getGroup (regulatorDone s u) g = if g / 8 = u then groupSettled s (getTower s u).vtarget u (getGroup s g) else getGroup s g := by
  obtain ⟨hside, hother, hgroup⟩ := forEach_settleGroup (regulated s u) u (towerGroups u) (towerGroups_nodup u)
  refine ⟨hside, fun g => ?_⟩
  by_cases hg : g / 8 = u
  · rw [if_pos hg, ← groupSettled_regulated]
    exact hgroup g (mem_towerGroups.2 hg)
  · rw [if_neg hg]
    exact hother g fun hm => hg (mem_towerGroups.1 hm)

theorem regulated_rest {s t : State} {u : Nat} (h : GroupsOnly (regulated s u) t) :
    t = { s with towers := t.towers, power := { s.power with groups := t.power.groups } } ∧
    SetsTower s { t with power := s.power } u { getTower s u with vset := (getTower s u).vtarget, silent := false } ∧ t.power.buttress = s.power.buttress := by
  have htow : t.towers = (regulated s u).towers := (congrArg State.towers h :)
  have hget (i : Nat) : getTower t i = getTower (regulated s u) i := by rw [getTower, htow, getTower]
  refine ⟨?_, ⟨?_, (hget u).trans (getTower_modTower_self ..), fun d hd => (hget d).trans (getTower_modTower_ne _ _ hd)⟩, (congrArg (fun v : State => v.power.buttress) h :)⟩
  · rw [htow]
    exact h
  · exact (congrArg (fun v : State => { v with power := s.power, towers := t.towers }) h :)

/-- REGULATOR_SETTLED outside Buttress. -/
theorem regulatorSettled_runs (s : State) (u : Tower) (hb : s.power.buttress = false) : ∃ t, exec (.regulatorSettled u) s = .next t ∧
    t = { s with towers := t.towers, power := { s.power with groups := t.power.groups } } ∧
    SetsTower s { t with power := s.power } u.val { getTower s u.val with vset := (getTower s u.val).vtarget, silent := false } ∧
    ∀ g, getGroup t g = if g / 8 = u.val ∧ (getGroup s g).step < (getGroup s g).target ∧
      setPoint s u.val (getGroup s g).target ≤ (getTower s u.val).vtarget then { getGroup s g with blocked := true } else getGroup s g := by
  obtain ⟨hside, hgroup⟩ := regulatorDone_groups s u.val
  obtain ⟨hrest, htower, hbut⟩ := regulated_rest hside
  rw [regulatorSettled_eq, if_neg (by rw [hbut, hb]; decide)]
  refine ⟨regulatorDone s u.val, rfl, hrest, htower, fun g => ?_⟩
  · rw [hgroup g, groupSettled]
    by_cases hg : g / 8 = u.val
    · simp only [hg, true_and, if_true]
    · rw [if_neg hg, if_neg fun h => hg h.1]

/-! ## Buttress (R373, R374) -/

/-- Only core clocks and set points differ. -/
structure ClockSide (a t : State) : Prop where
  rest : t = { a with towers := t.towers, power := { a.power with groups := t.power.groups } }
  tower : ∀ u, getTower t u = { getTower a u with vtarget := (getTower t u).vtarget }

theorem ClockSide.refl (s : State) : ClockSide s s := ⟨rfl, fun _ => rfl⟩

theorem ClockSide.trans {a s t : State} (h : ClockSide a s) (g : ClockSide s t) : ClockSide a t := by
  refine ⟨?_, fun u => ?_⟩
  · rw [g.rest, h.rest]
  · rw [g.tower u, h.tower u]

theorem clockSide_setGroup (s : State) (g : Nat) (k : GroupClk) : ClockSide s (setGroup s g k) := ⟨rfl, fun _ => rfl⟩

theorem clockSide_moveVcore (s : State) (u : Nat) : ClockSide s (moveVcore s u) := by
  refine ⟨rfl, fun v => ?_⟩
  by_cases hv : v = u
  · subst hv
    rw [moveVcore, getTower_modTower_self]
  · rw [moveVcore, getTower_modTower_ne _ _ hv]

theorem clockSide_applyClock (s : State) (g : Nat) : ClockSide s (applyClock s g) :=
  (clockSide_setGroup s g (clockMoved s.now (getGroup s g))).trans (clockSide_moveVcore ..)

theorem ClockSide.core {a t : State} (h : ClockSide a t) (c : Nat) : getCore t c = getCore a c := (congrArg (fun v : State => getCore v c) h.rest :)

theorem ClockSide.busy {a t : State} (h : ClockSide a t) (g : Nat) : groupBusy t g = groupBusy a g := (congrArg (fun v : State => groupBusy v g) h.rest :)

/-- A group as Buttress leaves it. -/
def groupForced (a : State) (g : Nat) (k : GroupClk) : GroupClk :=
  if groupBusy a g then { k with target := 0, blocked := true } else clockMoved a.now { k with target := 0 }

def forceGroup (s : State) (g : Nat) : State :=
  if groupBusy s g then setGroup s g { getGroup s g with target := 0, blocked := true } else applyClock (setGroup s g { getGroup s g with target := 0 }) g

theorem forceGroup_clock {a s : State} (g : Nat) (h : ClockSide a s) : ClockSide a (forceGroup s g) ∧
    (∀ q, q ≠ g → getGroup (forceGroup s g) q = getGroup s q) ∧ getGroup (forceGroup s g) g = groupForced a g (getGroup s g) := by
  have hnow : s.now = a.now := (congrArg State.now h.rest :)
  unfold forceGroup groupForced
  rw [h.busy g]
  by_cases hb : groupBusy a g = true
  · rw [if_pos hb, if_pos hb]
    exact ⟨h.trans (clockSide_setGroup ..), fun q hq => getGroup_setGroup_ne _ _ hq, getGroup_setGroup_self ..⟩
  · rw [if_neg hb, if_neg hb]
    obtain ⟨⟨-, hself, hother⟩, -⟩ := applyClock_sets (setGroup s g { getGroup s g with target := 0 }) g
    refine ⟨h.trans ((clockSide_setGroup ..).trans (clockSide_applyClock ..)), fun q hq => (hother q hq).trans (getGroup_setGroup_ne _ _ hq), ?_⟩
    rw [hself, getGroup_setGroup_self, ← hnow]
    rfl

/-- The package with the flags of Buttress, before its clocks fall. -/
def buttressFlags (s : State) : State :=
  withPower s { s.power with buttress := true, masonSlow := true, hbmSlow := true, highSince := none }

/-- The package in Buttress before its entry is reported. -/
def buttressed (s : State) : State := forEach (buttressFlags s) (List.range 64) forceGroup

theorem buttressed_clocks (s : State) : ClockSide (buttressFlags s) (buttressed s) ∧ ∀ g < 64, getGroup (buttressed s) g = groupForced s g (getGroup s g) := by
  obtain ⟨h1, -, h3⟩ := forEach_each (get := getGroup) (I := ClockSide (buttressFlags s)) (R := fun g k o => o = groupForced (buttressFlags s) g k) (f := forceGroup)
    (fun v g hv => forceGroup_clock g hv) (List.range 64) (buttressFlags s) List.nodup_range (.refl _)
  exact ⟨h1, fun g hg => h3 g (List.mem_range.2 hg)⟩

theorem clockSide_flags {s t : State} (h : ClockSide (buttressFlags s) t) : t = { s with towers := t.towers, power := t.power } :=
  (congrArg (fun v : State => { v with power := t.power }) h.rest :)

theorem forceButtress_held {s : State} (h : s.power.buttress = true) : forceButtress s = withPower s { s.power with highSince := none } := if_pos h

theorem forceButtress_enters {s : State} (h : s.power.buttress = false) :
    forceButtress s = ras (buttressed s) St.buttressEntered 6 (unitId (buttressed s) 0 0) 0 := if_neg (by rw [h]; decide)

theorem RasSide.power {s t : State} (h : RasSide s t) : t.power = s.power := by
  rw [h]

theorem forceButtress_side {s : State} (h : s.power.buttress = false) : RasSide (buttressed s) (forceButtress s) := by
  rw [forceButtress_enters h]
  exact ras_ras (.refl _)

theorem rasToRing_butLow (s : State) (m : Nat) (r : List Byte) : (rasToRing s m r).pins.butLow = s.pins.butLow := by
  have hm0 (s : State) (b : Byte) : (m0Irq s b).pins.butLow = s.pins.butLow := by
    unfold m0Irq
    split <;> rfl
  unfold rasToRing mbIrq
  dsimp only
  split
  · rfl
  · split
    · split
      · exact hm0 ..
      · split
        · rfl
        · rw [interrupt_frame]
          rfl
    · rfl

theorem ras_butLow (s : State) (code : Code) (kind : Nat) (unit : BitVec 32) (detail : Nat) : (ras s code kind unit detail).pins.butLow = s.pins.butLow :=
  forEach_invariant (I := fun t => t.pins.butLow = s.pins.butLow) (f := fun t m => rasToRing t m (rasBytes s code kind 0xFFFF unit 0xFFFF detail))
    (fun t m ht => (rasToRing_butLow t m _).trans ht) [0, 1, 2, 3] s rfl

/-- What the entry into Buttress keeps. -/
theorem forceButtress_stands (s : State) : (forceButtress s).power.trips = s.power.trips ∧ (forceButtress s).power.alert = s.power.alert ∧
    (forceButtress s).pins.butLow = s.pins.butLow ∧ ∀ u, (getTower (forceButtress s) u).silent = (getTower s u).silent := by
  cases hb : s.power.buttress with
  | true =>
    rw [forceButtress_held hb]
    exact ⟨rfl, rfl, rfl, fun _ => rfl⟩
  | false =>
    have hpow := (forceButtress_side hb).power
    have htow := (forceButtress_side hb).towers
    obtain ⟨⟨hrest, htower⟩, -⟩ := buttressed_clocks s
    refine ⟨?_, ?_, ?_, fun u => ?_⟩
    · rw [hpow]
      exact (congrArg (fun v : State => v.power.trips) hrest :)
    · rw [hpow]
      exact (congrArg (fun v : State => v.power.alert) hrest :)
    · rw [forceButtress_enters hb, ras_butLow]
      exact (congrArg (fun v : State => v.pins.butLow) hrest :)
    · have hget : getTower (forceButtress s) u = getTower (buttressed s) u := by rw [getTower, htow, getTower]
      rw [hget, htower u]
      rfl

theorem forceButtress_entersButtress {s : State} (hb : s.power.buttress = false) : EntersButtress s (forceButtress s) := by
  have hrep := ras_reported (buttressed s) St.buttressEntered 6 (unitId (buttressed s) 0 0) 0
  have hpow := (forceButtress_side hb).power
  obtain ⟨⟨hrest, -⟩, hgroup⟩ := buttressed_clocks s
  have hget (g : Nat) (hg : g < 64) : getGroup (forceButtress s) g = groupForced s g (getGroup s g) := by
    rw [getGroup, hpow]
    exact hgroup g hg
  have hunit : unitId (buttressed s) 0 0 = unitId s 0 0 := by
    unfold unitId ownDomain ownPackage
    rw [hrest]
    rfl
  refine ⟨?_, fun g hg hbusy => ?_, fun g hg hbusy => ?_, buttressed s, ?_, ?_⟩
  · rw [hpow, hrest]
    exact ⟨rfl, rfl, rfl, rfl⟩
  · rw [hget g hg, groupForced, hbusy]
    exact ⟨rfl, rfl, rfl⟩
  · rw [hget g hg, groupForced, hbusy]
    rfl
  · exact clockSide_flags (buttressed_clocks s).1
  · rw [forceButtress_enters hb, ← hunit]
    exact hrep

end Sys2Proof.Machine
end

section
/-!
PROOF. Entry into Buttress and its end, thermal trips and the shutdown (R373 to R376, R428).
-/

namespace Sys2Proof.Machine

/-! ## Silent regulators (R428) -/

/-- Tower `u`'s regulator is silent. -/
def silenced (s : State) (u : Nat) : State := modTower s u fun w => { w with silent := true }

theorem avsSilent_eq (s : State) (u : Tower) (h : 2 ≤ s.rst.stage) : exec (.avsSilent u) s = .next (forceButtress (silenced s u.val)) :=
  if_neg (Nat.not_lt.2 h)

theorem EntersButtress.silenced {s t : State} {u : Nat} (h : EntersButtress (silenced s u) t) : EntersButtress s t := by
  obtain ⟨hflags, hidle, hbusy, z, hz, hrep⟩ := h
  exact ⟨hflags, hidle, hbusy, z, hz, hrep⟩

theorem avsSilent_runs (s : State) (u : Tower) (h : 2 ≤ s.rst.stage) : ∃ t, exec (.avsSilent u) s = .next t ∧ (getTower t u.val).silent = true ∧
    (s.power.buttress = true → t = { s with towers := t.towers, power := { s.power with highSince := none } }) ∧
    (s.power.buttress = false → EntersButtress s t) := by
  obtain ⟨-, -, -, hsilent⟩ := forceButtress_stands (silenced s u.val)
  refine ⟨_, avsSilent_eq s u h, ?_, fun hb => ?_, fun hb => (forceButtress_entersButtress (s := silenced s u.val) hb).silenced⟩
  · rw [hsilent u.val, silenced, getTower_modTower_self]
  · rw [forceButtress_held (s := silenced s u.val) hb]
    rfl

/-! ## The pin buttress_n (R373, R374) -/

/-- The pin buttress_n is low. -/
def pinLow (s : State) : State := withPins s { s.pins with butLow := true }

def pinAlert (s : State) : State := withPower (pinLow s) { s.power with alert := true }

theorem buttressEntered_runs (s : State) : ∃ t, exec .buttressEntered s = .next t ∧ t.pins.butLow = true ∧
    (s.rst.stage < 7 → t = { s with pins := { s.pins with butLow := true } }) ∧
    (7 ≤ s.rst.stage → t.power.alert = true ∧ (s.power.buttress = false →
      EntersButtress { s with pins := { s.pins with butLow := true }, power := { s.power with alert := true } } t)) := by
  have hexec : exec .buttressEntered s = if s.rst.stage < 7 then .next (pinLow s) else .next (forceButtress (pinAlert s)) := rfl
  by_cases h : s.rst.stage < 7
  · rw [hexec, if_pos h]
    exact ⟨pinLow s, rfl, rfl, fun _ => rfl, fun h' => absurd h (Nat.not_lt.2 h')⟩
  · obtain ⟨-, halert, hlow, -⟩ := forceButtress_stands (pinAlert s)
    rw [hexec, if_neg h]
    exact ⟨forceButtress (pinAlert s), rfl, hlow, fun h' => absurd h' h, fun _ => ⟨halert, fun hb => forceButtress_entersButtress (s := pinAlert s) hb⟩⟩

theorem buttressTimer_power (s : State) : buttressTimer s = { s with power := { s.power with highSince := (buttressTimer s).power.highSince } } := by
  unfold buttressTimer
  split <;> rfl

theorem buttressTimer_runs {s : State} (h : buttressHeld s = false) : (buttressTimer s).power.highSince = some (s.power.highSince.getD s.now) := by
  unfold buttressTimer
  rw [h]
  rfl

theorem buttressTimer_stops {s : State} (h : buttressHeld s = true) : (buttressTimer s).power.highSince = none := by
  unfold buttressTimer
  rw [h]
  rfl

/-- The pin buttress_n is high. -/
def pinHigh (s : State) : State := withPower (withPins s { s.pins with butLow := false }) { s.power with alert := false }

theorem pinHigh_held (s : State) : buttressHeld (pinHigh s) = true ↔ (∃ u < 8, (getTower s u).silent = true) ∨ sensorTripped s = true := by
  have hheld : buttressHeld (pinHigh s) = ((List.range 8).any (fun t => (getTower s t).silent) || sensorTripped s) := by
    rw [buttressHeld]
    exact Bool.false_or _
  rw [hheld, Bool.or_eq_true, List.any_eq_true]
  simp only [List.mem_range]

theorem buttressRise_runs (s : State) : ∃ t, exec .buttressNRise s = .next t ∧ t = { s with
      pins := { s.pins with butLow := false }
      power := { s.power with alert := false, highSince := t.power.highSince } } ∧
    ((∀ u < 8, (getTower s u).silent = false) → sensorTripped s = false → t.power.highSince = some (s.power.highSince.getD s.now)) ∧
    ((∃ u < 8, (getTower s u).silent = true) ∨ sensorTripped s = true → t.power.highSince = none) := by
  refine ⟨buttressTimer (pinHigh s), rfl, buttressTimer_power _, fun hs hx => ?_, fun h => buttressTimer_stops ((pinHigh_held s).2 h)⟩
  refine buttressTimer_runs (s := pinHigh s) (Bool.eq_false_iff.2 fun hh => ?_)
  rcases (pinHigh_held s).1 hh with ⟨u, hu, ht⟩ | ht
  · exact Bool.false_ne_true ((hs u hu).symm.trans ht)
  · exact Bool.false_ne_true (hx.symm.trans ht)

/-! ## The end of Buttress (R374) -/

/-- The package outside Buttress, before its groups rise softly. -/
def buttressOver (s : State) : State := withPower s { s.power with buttress := false, masonSlow := false, hbmSlow := false, highSince := none }

theorem buttressEnd_none {s : State} (h : s.power.highSince = none) : exec .buttressEnd s = .next s := by
  have hexec : exec .buttressEnd s = execButtressEnd s := rfl
  rw [hexec, execButtressEnd, h]

theorem buttressEnd_early {s : State} {τ : Nat} (h : s.power.highSince = some τ) (hlt : s.now < τ + 1000000) : exec .buttressEnd s = .next s := by
  have hexec : exec .buttressEnd s = execButtressEnd s := rfl
  have hnot : decide (τ + 1000000 ≤ s.now) = false := decide_eq_false (Nat.not_le.2 hlt)
  rw [hexec, execButtressEnd, h]
  dsimp only
  rw [hnot, Bool.and_false]
  rfl

theorem forEach_setGroup (a : State) (f : GroupClk → GroupClk) (l : List Nat) (hl : l.Nodup) :
    GroupsOnly a (forEach a l fun s g => setGroup s g (f (getGroup s g))) ∧
    ∀ g ∈ l, getGroup (forEach a l fun s g => setGroup s g (f (getGroup s g))) g = f (getGroup a g) := by
  obtain ⟨h1, -, h3⟩ := forEach_each (get := getGroup) (I := GroupsOnly a) (R := fun _ k o => o = f k) (f := fun s g => setGroup s g (f (getGroup s g)))
    (fun s g hs => ⟨groupsOnly_setGroup hs .., fun q hq => getGroup_setGroup_ne _ _ hq, getGroup_setGroup_self ..⟩) l a hl rfl
  exact ⟨h1, h3⟩

theorem buttressEnd_runs {s : State} {τ : Nat} (h : s.power.highSince = some τ) (hle : τ + 1000000 ≤ s.now) (hb : s.power.buttress = true)
    (hheld : buttressHeld s = false) : ∃ t, exec .buttressEnd s = .next t ∧ t = { s with power := { s.power with
        buttress := false, masonSlow := false, hbmSlow := false, highSince := none, groups := t.power.groups } } ∧
      ∀ g < 64, getGroup t g = { getGroup s g with soft := true } := by
  have hexec : exec .buttressEnd s = execButtressEnd s := rfl
  have hyes : decide (τ + 1000000 ≤ s.now) = true := decide_eq_true hle
  have hgo : exec .buttressEnd s = .next (forEach (buttressOver s) (List.range 64) fun s g => setGroup s g { getGroup s g with soft := true }) := by
    rw [hexec, execButtressEnd, h]
    dsimp only
    rw [if_pos (by rw [hb, hheld, hyes]; rfl)]
    rfl
  obtain ⟨h1, h2⟩ := forEach_setGroup (buttressOver s) (fun k => { k with soft := true }) (List.range 64) List.nodup_range
  exact ⟨_, hgo, h1, fun g hg => h2 g (List.mem_range.2 hg)⟩

/-! ## Temperature (R375, R376) -/

/-- A sensor stands at its trip limit. -/
def tripped (s : State) (x : Nat) : State :=
  withPower s { s.power with trips := if s.power.trips.any (fun p => decide (p.1 = x)) then s.power.trips else s.power.trips ++ [(x, s.now)] }

theorem thermalTrip_runs (s : State) (x : Fin 74) : ∃ t, exec (.thermalTrip x) s = .next t ∧
    t.power.trips = (if s.power.trips.any (fun p => decide (p.1 = x.val)) then s.power.trips else s.power.trips ++ [(x.val, s.now)]) ∧
    (s.power.buttress = false → EntersButtress { s with power := { s.power with trips := t.power.trips } } t) := by
  have htrips : (forceButtress (tripped s x.val)).power.trips = (tripped s x.val).power.trips := (forceButtress_stands (tripped s x.val)).1
  refine ⟨forceButtress (tripped s x.val), rfl, htrips, fun hb => ?_⟩
  rw [htrips]
  exact forceButtress_entersButtress (s := tripped s x.val) hb

theorem coolantStale_runs (s : State) : (s.now ≤ s.power.coolantAt + 5000000000 → exec .coolantStale s = .next s) ∧
    (s.power.coolantAt + 5000000000 < s.now → ∃ t, exec .coolantStale s = .next t ∧
      t = { s with power := { s.power with stale := true, inlet := 45 * 16, flow := 300 } }) := by
  have hexec : exec .coolantStale s = execCoolantStale s := rfl
  rw [hexec, execCoolantStale]
  exact ⟨fun h => if_neg (Nat.not_lt.2 h), fun h => ⟨_, if_pos h, rfl⟩⟩

end Sys2Proof.Machine
end

section
/-!
PROOF. What a module channel that turns off changes beyond itself (R328, R377, R379): its port, and the pauses of its group.
-/

namespace Sys2Proof.Machine

/-! ## Ports that stop -/

/-- Beside the Span only reports have changed what `s` holds; records and identity stand. -/
structure LinkSide (s t : State) : Prop where
  rest : t = { s with span := t.span, plumb := t.plumb, host := t.host, store := t.store, key := t.key, pins := t.pins }
  recs : t.key.recs = s.key.recs
  id : t.span.id = s.span.id

theorem LinkSide.refl (s : State) : LinkSide s s := ⟨rfl, rfl, rfl⟩

theorem LinkSide.trans {a s t : State} (h : LinkSide a s) (g : LinkSide s t) : LinkSide a t :=
  ⟨by rw [g.rest, h.rest], g.recs.trans h.recs, g.id.trans h.id⟩

theorem forEach_link {α : Type} {f : State → α → State} (hf : ∀ s x, LinkSide s (f s x)) (l : List α) (s : State) : LinkSide s (forEach s l f) :=
  forEach_invariant (I := LinkSide s) (fun u x hu => hu.trans (hf u x)) l s (.refl s)

theorem modPort_link (s : State) (p : Nat) (f : PortSt → PortSt) : LinkSide s (modPort s p f) := ⟨rfl, rfl, rfl⟩

theorem setPort_link (s : State) (p : Nat) (k : PortSt) : LinkSide s (setPort s p k) := ⟨rfl, rfl, rfl⟩

theorem plumbCheck_link (s : State) : LinkSide s (plumbCheck s) := by
  obtain ⟨k, hk, -⟩ := plumbCheck_plumb s
  rw [hk]
  exact ⟨rfl, rfl, rfl⟩

theorem putPort_link (s : State) (p : Nat) (k : PortSt) : LinkSide s (putPort s p k) := (setPort_link s p k).trans (plumbCheck_link _)

theorem enqueueOn_link (s : State) (q : Nat) (x : SpanPkt) (τ i : Nat) : LinkSide s (enqueueOn s q x τ i) :=
  (modPort_link s q _).trans (modPort_link _ q _)

theorem sendOn_link (p : Nat) (s : State) (e : SpanPkt × Nat × Nat) : LinkSide s (sendOn p s e) := by
  unfold sendOn
  cases routeOf s e.1 with
  | out q up => exact enqueueOn_link ..
  | drop => exact modPort_link ..
  | none => exact modPort_link ..
  | deliver => exact ⟨rfl, rfl, rfl⟩

theorem rasToRing_recs (s : State) (m : Nat) (r : List Byte) : (rasToRing s m r).key.recs = s.key.recs := by
  unfold rasToRing
  dsimp only
  split
  · rfl
  · rw [mbIrq_key]
    rfl

theorem rasTo_recs (s : State) (ms : List Nat) (code : Code) (kind queue : Nat) (unit : BitVec 32) (ctx detail : Nat) :
    (rasTo s ms code kind queue unit ctx detail).key.recs = s.key.recs :=
  forEach_invariant (I := fun t => t.key.recs = s.key.recs) (f := fun t m => rasToRing t m (rasBytes s code kind queue unit ctx detail))
    (fun t m ht => (rasToRing_recs t m _).trans ht) ms s rfl

theorem ras_link (s : State) (code : Code) (kind : Nat) (unit : BitVec 32) (detail : Nat) : LinkSide s (ras s code kind unit detail) := by
  have h : RasSide s (ras s code kind unit detail) := ras_ras (.refl s)
  refine ⟨?_, rasTo_recs .., congrArg SpanSt.id h.span⟩
  rw [h.span, h.plumb]
  exact h

theorem leaveUp_link (s : State) (p : Nat) : LinkSide s (leaveUp s p) :=
  ((setPort_link s p _).trans (forEach_link (fun s e => sendOn_link p s e) _ _)).trans (ras_link ..)

theorem portStop_link (s : State) (p : Nat) (st : PortState) (c : BitVec 3) : LinkSide s (portStop s p st c) := by
  rw [portStop_eq]
  split
  · exact (putPort_link ..).trans (leaveUp_link ..)
  · exact putPort_link ..

theorem portUnpowered_link (s : State) (p : Nat) : LinkSide s (portUnpowered s p) := by
  unfold portUnpowered
  cases (getPort s p).st
  case disabled => exact .refl s
  case down => exact modPort_link ..
  all_goals exact portStop_link ..

/-! ## Channels that turn off -/

/-- Beside the module channels and the Span only reports have changed what `s` holds; records and identity stand. -/
structure ModSide (s t : State) : Prop where
  rest : t = { s with span := t.span, plumb := t.plumb, host := t.host, store := t.store, key := t.key, pins := t.pins,
                      power := { s.power with mods := t.power.mods } }
  recs : t.key.recs = s.key.recs
  id : t.span.id = s.span.id

theorem ModSide.refl (s : State) : ModSide s s := ⟨rfl, rfl, rfl⟩

theorem ModSide.trans {a s t : State} (h : ModSide a s) (g : ModSide s t) : ModSide a t :=
  ⟨by rw [g.rest, h.rest], g.recs.trans h.recs, g.id.trans h.id⟩

theorem LinkSide.power {s t : State} (h : LinkSide s t) : t.power = s.power := by
  rw [h.rest]

theorem LinkSide.now {s t : State} (h : LinkSide s t) : t.now = s.now := by
  rw [h.rest]

theorem LinkSide.getMod {s t : State} (h : LinkSide s t) (k : Nat) : getMod t k = getMod s k := by
  rw [Machine.getMod, h.power, Machine.getMod]

theorem LinkSide.mods {s t : State} (h : LinkSide s t) : ModSide s t := by
  refine ⟨?_, h.recs, h.id⟩
  rw [h.power]
  exact h.rest

theorem modSide_setMod (s : State) (k : Nat) (m : Mod) : ModSide s (setMod s k m) := ⟨rfl, rfl, rfl⟩

/-- Of the package only module channels differ. -/
def ModsOnly (s t : State) : Prop := t = { s with power := { s.power with mods := t.power.mods } }

theorem ModsOnly.side {s t : State} (h : ModsOnly s t) : ModSide s t := by
  refine ⟨?_, (congrArg (fun v : State => v.key.recs) h :), (congrArg (fun v : State => v.span.id) h :)⟩
  have hspan : t.span = s.span := (congrArg State.span h :)
  have hplumb : t.plumb = s.plumb := (congrArg State.plumb h :)
  have hhost : t.host = s.host := (congrArg State.host h :)
  have hstore : t.store = s.store := (congrArg State.store h :)
  have hkey : t.key = s.key := (congrArg State.key h :)
  have hpins : t.pins = s.pins := (congrArg State.pins h :)
  rw [hspan, hplumb, hhost, hstore, hkey, hpins]
  exact h

theorem modsOnly_setMod {s t : State} (h : ModsOnly s t) (k : Nat) (m : Mod) : ModsOnly s (setMod t k m) := by
  unfold ModsOnly at *
  rw [h]
  rfl

theorem ModsOnly.now {s t : State} (h : ModsOnly s t) : t.now = s.now := (congrArg State.now h :)

/-- A channel whose pause ends. -/
def modResumed (now : Nat) (m : Mod) : Mod :=
  if m.paused then { m with paused := false, windowEnd := min (m.windowEnd + (now - m.pausedAt)) (m.rampAt + 5000000) } else m

def resumeMod (s : State) (j : Nat) : State :=
  if (getMod s j).paused then
    setMod s j { getMod s j with paused := false, windowEnd := min ((getMod s j).windowEnd + (s.now - (getMod s j).pausedAt)) ((getMod s j).rampAt + 5000000) }
  else s

theorem getMod_setMod_same (s : State) (k : Nat) (m : Mod) : getMod (setMod s k m) k = m := tget_tset_self ..

theorem getMod_setMod_other (s : State) {i k : Nat} (m : Mod) (h : i ≠ k) : getMod (setMod s k m) i = getMod s i := tget_tset_ne _ h _

theorem resumeMod_mods {a s : State} (j : Nat) (h : ModsOnly a s) : ModsOnly a (resumeMod s j) ∧
    (∀ q, q ≠ j → getMod (resumeMod s j) q = getMod s q) ∧ getMod (resumeMod s j) j = modResumed a.now (getMod s j) := by
  unfold resumeMod modResumed
  by_cases hp : (getMod s j).paused = true
  · rw [if_pos hp, if_pos hp, h.now]
    exact ⟨modsOnly_setMod h .., fun q hq => getMod_setMod_other _ _ hq, getMod_setMod_same ..⟩
  · rw [if_neg hp, if_neg hp]
    exact ⟨h, fun _ _ => rfl, rfl⟩

/-- The channels of the group of `k`. -/
def groupAll (k : Nat) : List Nat := k :: groupOthers k

theorem groupAll_nodup (k : Nat) : (groupAll k).Nodup := by
  refine List.nodup_cons.2 ⟨fun h => ?_, List.nodup_range.filter _⟩
  have h2 := (List.mem_filter.1 h).2
  simp at h2

theorem resumeGroup_eq (s : State) (k : Nat) : resumeGroup s k =
    if (groupAll k).any fun j => holdsReserve (getMod s j) then s else forEach s (groupAll k) resumeMod := rfl

theorem forEach_resumeMod (s : State) (l : List Nat) (hl : l.Nodup) : ModsOnly s (forEach s l resumeMod) ∧
    (∀ q, q ∉ l → getMod (forEach s l resumeMod) q = getMod s q) ∧ ∀ q ∈ l, getMod (forEach s l resumeMod) q = modResumed s.now (getMod s q) :=
  forEach_each (get := getMod) (I := ModsOnly s) (R := fun _ m o => o = modResumed s.now m) (f := resumeMod)
    (fun _ j hu => resumeMod_mods j hu) l s hl rfl

theorem modResumed_parts (now : Nat) (m : Mod) : modResumed now m = { m with paused := (modResumed now m).paused, windowEnd := (modResumed now m).windowEnd } := by
  unfold modResumed
  split <;> rfl

/-- The end of a pause changes nothing but pauses and windows. -/
theorem resumeGroup_parts (s : State) (k : Nat) : ModsOnly s (resumeGroup s k) ∧ (∀ q, getMod (resumeGroup s k) q =
      { getMod s q with paused := (getMod (resumeGroup s k) q).paused, windowEnd := (getMod (resumeGroup s k) q).windowEnd }) ∧
    ((getMod s k).paused = false → getMod (resumeGroup s k) k = getMod s k) := by
  rw [resumeGroup_eq]
  split
  · exact ⟨rfl, fun _ => rfl, fun _ => rfl⟩
  · obtain ⟨h1, h2, h3⟩ := forEach_resumeMod s (groupAll k) (groupAll_nodup k)
    refine ⟨h1, fun q => ?_, fun hp => ?_⟩
    · by_cases hq : q ∈ groupAll k
      · rw [h3 q hq]
        exact modResumed_parts ..
      · rw [h2 q hq]
    · rw [h3 k (List.mem_cons.2 (.inl rfl)), modResumed, hp]
      rfl

/-- A channel whose gate is off, in a state. -/
def modDark (m : Mod) (st : ModState) : Mod := { m with st := st, paused := false, inLimit := false, extended := false }

/-- Channel `k` turns off: no other channel changes but for the end of a pause. -/
structure TurnsOff (s t : State) (k : Nat) (st : ModState) : Prop where
  side : ModSide s t
  self : getMod t k = modDark (getMod s k) st
  others : ∀ i, i ≠ k → getMod t i = { getMod s i with paused := (getMod t i).paused, windowEnd := (getMod t i).windowEnd }

/-- The channel is off, and its port has lost its module. -/
def modCut (s : State) (k : Nat) (st : ModState) : State :=
  if (getMod s k).st = .on then portUnpowered (setMod s k (modDark (getMod s k) st)) k else setMod s k (modDark (getMod s k) st)

theorem modOff_eq (s : State) (k : Nat) (st : ModState) : modOff s k st = resumeGroup (modCut s k st) k := rfl

theorem modCut_link (s : State) (k : Nat) (st : ModState) : LinkSide (setMod s k (modDark (getMod s k) st)) (modCut s k st) := by
  unfold modCut
  split
  · exact portUnpowered_link ..
  · exact .refl _

theorem modOff_turnsOff (s : State) (k : Nat) (st : ModState) : TurnsOff s (modOff s k st) k st := by
  have hcut := modCut_link s k st
  obtain ⟨hmods, hparts, hself⟩ := resumeGroup_parts (modCut s k st) k
  have hk : getMod (modCut s k st) k = modDark (getMod s k) st := (hcut.getMod k).trans (getMod_setMod_same ..)
  rw [modOff_eq]
  refine ⟨((modSide_setMod ..).trans hcut.mods).trans hmods.side, (hself ?_).trans hk, fun i hi => ?_⟩
  · rw [hk]
    rfl
  · have hget : getMod (modCut s k st) i = getMod s i := (hcut.getMod i).trans (getMod_setMod_other _ _ hi)
    rw [hparts i, hget]

end Sys2Proof.Machine
end

section
/-!
PROOF. The thermal shutdown (R375, R386).
-/

namespace Sys2Proof.Machine

/-! ## The shutdown (R375) -/

/-- A channel turns off and its port is disabled. -/
def shutChannel (s : State) (k : Nat) : State :=
  if (getPort (if (getMod s k).st = .retired then s else modOff s k .off) k).st = .disabled then (if (getMod s k).st = .retired then s else modOff s k .off)
  else portStop (if (getMod s k).st = .retired then s else modOff s k .off) k .disabled 0

theorem ite_portStop_link {c : Prop} [Decidable c] (s : State) (k : Nat) (st : PortState) (x : BitVec 3) : LinkSide s (if c then s else portStop s k st x) := by
  split
  · exact .refl s
  · exact portStop_link ..

theorem shutChannel_mods {a s : State} (k : Nat) (h : ModSide a s) : ModSide a (shutChannel s k) ∧
    (∀ q, q ≠ k → (getMod (shutChannel s k) q).st = (getMod s q).st) ∧ ((getMod s k).st ≠ .retired → (getMod (shutChannel s k) k).st = .off) := by
  have hport : LinkSide (if (getMod s k).st = .retired then s else modOff s k .off) (shutChannel s k) := ite_portStop_link ..
  by_cases hr : (getMod s k).st = .retired
  · rw [if_pos hr] at hport
    exact ⟨h.trans hport.mods, fun q _ => congrArg Mod.st (hport.getMod q), fun hn => absurd hr hn⟩
  · rw [if_neg hr] at hport
    obtain ⟨hside, hself, hother⟩ := modOff_turnsOff s k .off
    refine ⟨(h.trans hside).trans hport.mods, fun q hq => ?_, fun _ => ?_⟩
    · rw [hport.getMod, hother q hq]
    · rw [hport.getMod, hself]
      rfl

def channelsShut (s : State) : State := forEach s (List.range 18) shutChannel

theorem channelsShut_mods (s : State) : ModSide s (channelsShut s) ∧ ∀ k < 18, (getMod s k).st ≠ .retired → (getMod (channelsShut s) k).st = .off := by
  obtain ⟨h1, -, h3⟩ := forEach_each (get := fun t k => (getMod t k).st) (I := ModSide s) (R := fun _ m o => m ≠ .retired → o = .off) (f := shutChannel)
    (fun _ k hu => shutChannel_mods k hu) (List.range 18) s List.nodup_range (.refl s)
  exact ⟨h1, fun k hk => h3 k (List.mem_range.2 hk)⟩

/-- Of the package only power domains differ. -/
def DomsOnly (s t : State) : Prop := t = { s with power := { s.power with doms := t.power.doms } }

def domDark (s : State) (d : Nat) : State := setDom s d { getDom s d with st := .off, target := false }

def domsDark (s : State) : State := forEach s (List.range 108) domDark

theorem forEach_domDark (a : State) (l : List Nat) (hl : l.Nodup) : DomsOnly a (forEach a l domDark) ∧
    ∀ d ∈ l, (getDom (forEach a l domDark) d).st = .off ∧ (getDom (forEach a l domDark) d).target = false := by
  obtain ⟨h1, -, h3⟩ := forEach_each (get := getDom) (I := DomsOnly a) (R := fun _ _ o => o.st = .off ∧ o.target = false) (f := domDark)
    (fun s d hs => by
      have hget : getDom (domDark s d) d = { getDom s d with st := .off, target := false } := getDom_setDom_self ..
      refine ⟨?_, fun q hq => getDom_setDom_ne _ _ hq, by rw [hget]; exact ⟨rfl, rfl⟩⟩
      unfold DomsOnly at *
      rw [hs]
      rfl) l a hl rfl
  exact ⟨h1, h3⟩

/-- Of the package only cores differ. -/
def CoresOnly (s t : State) : Prop := t = { s with cores := t.cores }

def coresDark (s : State) : State := forEach s (List.range 256) fun s c => modCore s c coreUnpowered

theorem forEach_coreDark (a : State) (l : List Nat) (hl : l.Nodup) : CoresOnly a (forEach a l fun s c => modCore s c coreUnpowered) ∧
    ∀ c ∈ l, getCore (forEach a l fun s c => modCore s c coreUnpowered) c = coreUnpowered (getCore a c) := by
  obtain ⟨h1, -, h3⟩ := forEach_each (get := getCore) (I := CoresOnly a) (R := fun _ k o => o = coreUnpowered k) (f := fun s c => modCore s c coreUnpowered)
    (fun s c hs => by
      refine ⟨?_, fun q hq => getCore_setCore_ne _ _ hq, getCore_setCore_self ..⟩
      unfold CoresOnly at *
      rw [hs]
      rfl) l a hl rfl
  exact ⟨h1, h3⟩

/-- The package after its shutdown, before the shutdown is reported. -/
def shutOff (s : State) : State :=
  let s1 := withRst { s with gangs := [] } { s.rst with off := true, cause1 := sb s.rst.cause1 19 true }
  withKey s1 { s1.key with stopped := true, stopHeld := true }

def allShut (s : State) : State := shutOff (coresDark (domsDark (channelsShut s)))

theorem thermalShutdown_eq (s : State) : exec .thermalShutdown s =
    if !(s.power.trips.any fun p => decide (p.2 + 10000000 ≤ s.now)) ∨ s.rst.off then .next s
    else .next (rasTo (allShut s) [0] St.ok 6 0xFFFF (unitId (allShut s) 0 0) 0xFFFF 0) := by
  have hexec : exec .thermalShutdown s = execThermalShutdown s := rfl
  have hchan : shutChannel = fun s k => let s := if (getMod s k).st = .retired then s else modOff s k .off
      if (getPort s k).st = .disabled then s else portStop s k .disabled 0 := rfl
  have hdom : domDark = fun s d => setDom s d { getDom s d with st := .off, target := false } := rfl
  rw [hexec, execThermalShutdown, allShut, shutOff, coresDark, domsDark, channelsShut, hchan, hdom]

theorem shutOff_of {s a b c t : State} (h1 : ModSide s a) (h2 : DomsOnly a b) (h3 : CoresOnly b c) (h4 : RasSide (shutOff c) t) :
    t.rst = { s.rst with off := true, cause1 := t.rst.cause1 } ∧ bt t.rst.cause1 19 = true ∧ t.gangs = [] ∧
    (∀ d, getDom t d = getDom b d) ∧ (∀ k, getMod t k = getMod a k) ∧ (∀ i, getCore t i = getCore c i) ∧ ∀ i, getCore b i = getCore s i := by
  have hrst : c.rst = s.rst := (congrArg State.rst h3 :).trans ((congrArg State.rst h2 :).trans (congrArg State.rst h1.rest :))
  have hdoms : c.power.doms = b.power.doms := (congrArg (fun v : State => v.power.doms) h3 :)
  have hmods : c.power.mods = a.power.mods := (congrArg (fun v : State => v.power.mods) h3 :).trans (congrArg (fun v : State => v.power.mods) h2 :)
  have hcores : b.cores = s.cores := (congrArg State.cores h2 :).trans (congrArg State.cores h1.rest :)
  have htrst : t.rst = (shutOff c).rst := (congrArg State.rst h4 :)
  have htpow : t.power = c.power := h4.power
  have htcores : t.cores = c.cores := (congrArg State.cores h4 :)
  refine ⟨?_, ?_, (congrArg State.gangs h4 :), fun d => ?_, fun k => ?_, fun i => ?_, fun i => ?_⟩
  · rw [htrst]
    exact congrArg (fun r : ResetSt => { r with off := true, cause1 := (shutOff c).rst.cause1 }) hrst
  · rw [htrst]
    exact bt_sb (w := 32) _ 19 true (by decide)
  · rw [getDom, htpow, hdoms, getDom]
  · rw [getMod, htpow, hmods, getMod]
  · rw [getCore, htcores, getCore]
  · rw [getCore, hcores, getCore]

theorem domsDark_doms (s : State) : DomsOnly s (domsDark s) ∧ ∀ d < 108, (getDom (domsDark s) d).st = .off ∧ (getDom (domsDark s) d).target = false := by
  obtain ⟨h1, h2⟩ := forEach_domDark s (List.range 108) List.nodup_range
  exact ⟨h1, fun d hd => h2 d (List.mem_range.2 hd)⟩

theorem coresDark_cores (s : State) : CoresOnly s (coresDark s) ∧ ∀ c < 256, getCore (coresDark s) c = coreUnpowered (getCore s c) := by
  obtain ⟨h1, h2⟩ := forEach_coreDark s (List.range 256) List.nodup_range
  exact ⟨h1, fun c hc => h2 c (List.mem_range.2 hc)⟩

theorem thermalShutdown_runs (s : State) : ((s.rst.off = true ∨ ∀ p ∈ s.power.trips, s.now < p.2 + 10000000) → exec .thermalShutdown s = .next s) ∧
    (s.rst.off = false → (∃ p ∈ s.power.trips, p.2 + 10000000 ≤ s.now) → ∃ t, exec .thermalShutdown s = .next t ∧
      t.rst = { s.rst with off := true, cause1 := t.rst.cause1 } ∧ bt t.rst.cause1 19 = true ∧ t.gangs = [] ∧
      (∀ d < 108, (getDom t d).st = .off ∧ (getDom t d).target = false) ∧
      (∀ k < 18, (getMod s k).st ≠ .retired → (getMod t k).st = .off) ∧ (∀ c < 256, coreDark s t c)) := by
  have hany : (s.power.trips.any fun p => decide (p.2 + 10000000 ≤ s.now)) = true ↔ ∃ p ∈ s.power.trips, p.2 + 10000000 ≤ s.now := by
    simp only [List.any_eq_true, decide_eq_true_eq]
  rw [thermalShutdown_eq]
  refine ⟨fun h => if_pos ?_, fun hoff hlate => ?_⟩
  · rcases h with h | h
    · exact .inr h
    · refine .inl (Bool.not_eq_true' _ ▸ Bool.eq_false_iff.2 fun ht => ?_)
      obtain ⟨p, hp, hle⟩ := hany.1 ht
      exact absurd (h p hp) (Nat.not_lt.2 hle)
  · obtain ⟨hside, hmods⟩ := channelsShut_mods s
    obtain ⟨hdomSide, hdoms⟩ := domsDark_doms (channelsShut s)
    obtain ⟨hcoreSide, hcores⟩ := coresDark_cores (domsDark (channelsShut s))
    obtain ⟨hrst, hbit, hgangs, hdomEq, hmodEq, hcoreEq, hcore0⟩ := shutOff_of hside hdomSide hcoreSide (rasTo_ras (.refl (allShut s)))
    refine ⟨_, if_neg ?_, hrst, hbit, hgangs, fun d hd => ?_, fun k hk hn => ?_, fun c hc => coreDark_of_unpowered ?_⟩
    · rintro (h | h)
      · rw [hany.2 hlate] at h
        exact Bool.noConfusion h
      · exact Bool.false_ne_true (hoff.symm.trans h)
    · rw [hdomEq]
      exact hdoms d hd
    · rw [hmodEq]
      exact hmods k hk hn
    · rw [hcoreEq, hcores c hc, hcore0]

end Sys2Proof.Machine
end

section
/-!
PROOF. Power intervals and frequency steps (R369 to R372, R375).
-/

namespace Sys2Proof.Machine

/-! ## Budgets (R370, R372) -/

/-- The budgets before one of them is shifted. -/
def scaledBudgets (b bOld : Rat) (old : Nat → Rat) (t : Nat) : Rat := if bOld = 0 then b / 8 else if b = bOld then old t else old t * b / bOld

/-- Budgets with a step moved from one tower to another. -/
def movedBudgets (v : Nat → Rat) (step : Rat) (d r t : Nat) : Rat := if t = d then v t - step else if t = r then v t + step else v t

theorem pickTower_mem (v : Nat → Rat) (up : Bool) : ∀ (l : List Nat) (t : Nat), pickTower v up l = some t → t ∈ l := by
  intro l
  induction l using List.reverseRecOn with
  | nil => exact fun t h => absurd h.symm (Option.some_ne_none t)
  | append_singleton l x ih =>
    intro t h
    have hstep : pickTower v up (l ++ [x]) = match pickTower v up l with
      | none => some x
      | some u => if (if up then v u < v x else v x < v u) then some x else some u := by
      unfold pickTower
      rw [List.foldl_append]
      rfl
    rw [hstep] at h
    cases hp : pickTower v up l with
    | none =>
      rw [hp] at h
      have hx : x = t := Option.some.inj h
      exact hx ▸ List.mem_append_right _ (List.mem_singleton.2 rfl)
    | some u =>
      rw [hp] at h
      dsimp only at h
      by_cases hc : (if up then v u < v x else v x < v u)
      · rw [if_pos hc] at h
        have hx : x = t := Option.some.inj h
        exact hx ▸ List.mem_append_right _ (List.mem_singleton.2 rfl)
      · rw [if_neg hc] at h
        exact List.mem_append_left _ (ih t (hp.trans h))

/-- Shifted budgets are equal shares, the scaled ones, or those with one step moved between two towers that allow it (R372). -/
theorem shiftBudgets_cases (shift : Bool) (b bOld : Rat) (old w : Nat → Rat) :
    (shift = false ∧ shiftBudgets shift b bOld old w = fun _ => b / 8) ∨
    shift = true ∧ (shiftBudgets shift b bOld old w = scaledBudgets b bOld old ∨ ∃ d r, d < 8 ∧ r < 8 ∧ d ≠ r ∧
      b / 16 ≤ scaledBudgets b bOld old d - b / 256 ∧ scaledBudgets b bOld old r + b / 256 ≤ 3 * b / 16 ∧
      shiftBudgets shift b bOld old w = movedBudgets (scaledBudgets b bOld old) (b / 256) d r) := by
  cases shift with
  | false => exact .inl ⟨rfl, rfl⟩
  | true =>
    refine .inr ⟨rfl, ?_⟩
    have hgo : shiftBudgets true b bOld old w = match
        pickTower w true ((List.range 8).filter fun t => decide (b / 16 ≤ scaledBudgets b bOld old t - b / 256)),
        pickTower w false ((List.range 8).filter fun t => decide (scaledBudgets b bOld old t + b / 256 ≤ 3 * b / 16)) with
      | some d, some r => if d ≠ r ∧ 1 / 64 ≤ w d - w r then movedBudgets (scaledBudgets b bOld old) (b / 256) d r else scaledBudgets b bOld old
      | _, _ => scaledBudgets b bOld old := rfl
    rw [hgo]
    split
    · next d r hd hr =>
      by_cases hc : d ≠ r ∧ 1 / 64 ≤ w d - w r
      · rw [if_pos hc]
        obtain ⟨hd8, hdb⟩ := List.mem_filter.1 (pickTower_mem _ _ _ _ hd)
        obtain ⟨hr8, hrb⟩ := List.mem_filter.1 (pickTower_mem _ _ _ _ hr)
        exact .inr ⟨d, r, List.mem_range.1 hd8, List.mem_range.1 hr8, hc.1, of_decide_eq_true hdb, of_decide_eq_true hrb, rfl⟩
      · rw [if_neg hc]
        exact .inl rfl
    · exact .inl rfl

/-- The sum over the eight towers. -/
def towerSum (v : Nat → Rat) : Rat := ((List.range 8).map v).sum

theorem towerSum_eq (v : Nat → Rat) : towerSum v = ∑ t ∈ Finset.range 8, v t := rfl

theorem scaledBudgets_sum {b bOld : Rat} {old : Nat → Rat} (h0 : bOld ≠ 0) (hsum : towerSum old = bOld) : towerSum (scaledBudgets b bOld old) = b := by
  by_cases hb : b = bOld
  · have hv : scaledBudgets b bOld old = old := funext fun t => (if_neg h0).trans (if_pos hb)
    rw [hv, hsum, hb]
  · have hv : scaledBudgets b bOld old = fun t => old t * (b / bOld) := funext fun t => ((if_neg h0).trans (if_neg hb)).trans (mul_div_assoc ..)
    rw [hv, towerSum_eq, ← Finset.sum_mul, ← towerSum_eq, hsum, mul_div_cancel₀ _ h0]

theorem movedBudgets_sum (v : Nat → Rat) (step : Rat) {d r : Nat} (hd : d < 8) (hr : r < 8) (hne : d ≠ r) : towerSum (movedBudgets v step d r) = towerSum v := by
  have hv (t : Nat) : movedBudgets v step d r t = v t + ((if t = r then step else 0) - if t = d then step else 0) := by
    unfold movedBudgets
    by_cases htd : t = d
    · have htr : t ≠ r := fun h => hne (htd.symm.trans h)
      rw [if_pos htd, if_neg htr, if_pos htd]
      ring
    · rw [if_neg htd, if_neg htd]
      by_cases htr : t = r
      · rw [if_pos htr, if_pos htr]
        ring
      · rw [if_neg htr, if_neg htr]
        ring
  simp only [towerSum_eq, hv, Finset.sum_add_distrib, Finset.sum_sub_distrib, Finset.sum_ite_eq', Finset.mem_range, hd, hr, if_true, sub_self, add_zero]

theorem shiftBudgets_sum {shift : Bool} {b bOld : Rat} {old w : Nat → Rat} (h0 : bOld ≠ 0) (hsum : towerSum old = bOld) :
    towerSum (shiftBudgets shift b bOld old w) = b := by
  rcases shiftBudgets_cases shift b bOld old w with ⟨-, hv⟩ | ⟨-, hv | ⟨d, r, hd, hr, hne, -, -, hv⟩⟩
  · rw [hv, towerSum_eq, Finset.sum_const, Finset.card_range]
    ring
  · rw [hv, scaledBudgets_sum h0 hsum]
  · rw [hv, movedBudgets_sum _ _ hd hr hne, scaledBudgets_sum h0 hsum]

/-- A sixteenth and three sixteenths of the compute budget bound a tower's budget (R372). -/
def Bounded (b x : Rat) : Prop := b / 16 ≤ x ∧ x ≤ 3 * b / 16

theorem scaledBudgets_bounded {b bOld : Rat} {old : Nat → Rat} (hb : 0 < b) (h0 : 0 < bOld) {t : Nat} (h : Bounded bOld (old t)) :
    Bounded b (scaledBudgets b bOld old t) := by
  have hne : bOld ≠ 0 := ne_of_gt h0
  obtain ⟨hlow, hhigh⟩ := h
  rw [scaledBudgets, if_neg hne]
  by_cases he : b = bOld
  · rw [if_pos he, he]
    exact ⟨hlow, hhigh⟩
  · rw [if_neg he]
    refine ⟨(le_div_iff₀ h0).2 ?_, (div_le_iff₀ h0).2 ?_⟩
    · nlinarith
    · nlinarith

theorem shiftBudgets_bounded {shift : Bool} {b bOld : Rat} {old w : Nat → Rat} (hb : 0 < b) (h0 : 0 < bOld) (h : ∀ t < 8, Bounded bOld (old t)) :
    ∀ t < 8, Bounded b (shiftBudgets shift b bOld old w t) := by
  intro t ht
  have hs := scaledBudgets_bounded hb h0 (h t ht)
  rcases shiftBudgets_cases shift b bOld old w with ⟨-, hv⟩ | ⟨-, hv | ⟨d, r, -, -, hne, hlow, hhigh, hv⟩⟩
  · rw [hv]
    constructor <;> linarith
  · rw [hv]
    exact hs
  · obtain ⟨h1, h2⟩ := hs
    rw [hv, movedBudgets]
    by_cases htd : t = d
    · rw [if_pos htd]
      subst htd
      exact ⟨hlow, by linarith⟩
    · rw [if_neg htd]
      by_cases htr : t = r
      · rw [if_pos htr]
        subst htr
        exact ⟨by linarith, hhigh⟩
      · rw [if_neg htr]
        exact ⟨h1, h2⟩

/-! ## POWER_INTERVAL (R369, R370, R372, R375) -/

/-- The compute budget of an interval (R370). -/
def intervalBudget (s : State) (m : PowerMeas) : Rat := (bf s.power.capNext 31 20 : Rat) - m.pRest

def intervalBudgets (s : State) (m : PowerMeas) : Nat → Rat :=
  shiftBudgets (bt s.power.capNext 11) (intervalBudget s m) s.power.budgetOld (fun t => (getTower s t).budget) (waitShare s)

/-- What an interval makes of tower `t`, whose prediction allows `limit`. -/
def towerInterval (s : State) (m : PowerMeas) (limit : Rat) (t : Nat) (k : TowerSt) : TowerSt :=
  { k with
    budget := intervalBudgets s m t, waitReg := BitVec.ofNat 10 (min 0x3FF (waitShare s t * 1024).floor.toNat),
    throttle := throttleStep m.sensors (towerSensors t ++ hubSensors) k.throttle,
    limit := limit, coreCyc := 0, busyCyc := 0 }

def intervalTowers (s : State) (m : PowerMeas) (ahead : Rat) : State :=
  forEach s (List.range 8) fun u t => modTower u t (towerInterval s m (thermalLimit u m.pkgW ahead t) t)

/-- The efficiency of the Mason dies after an interval. -/
def masonEffAfter (s : State) (m : PowerMeas) : Rat :=
  min (bf s.power.capNext 19 12 : Rat) ((bf s.power.capNext 19 12 : Rat) *
    throttleStep m.sensors masonSensors (if s.power.masonEff < (bf s.power.capNext 19 12 : Rat) then s.power.masonEff / (bf s.power.capNext 19 12 : Rat) else 1))

/-- Whether temperature lowers a budget. -/
def budgetLowered (s : State) : Bool :=
  (List.range 8).any fun t => decide ((getTower s t).throttle < 1) || decide ((getTower s t).limit < (getTower s t).budget)

/-- Whether a stack stands above 85 °C. -/
def stackHot (m : PowerMeas) : Bool := (List.range 16).any fun i => decide (85 * 16 < m.sensors.getD (48 + i) 0)

/-- The power controller after an interval whose towers stand in `s1`. -/
def intervalPower (s s1 : State) (m : PowerMeas) (plate : Rat) : State :=
  withPower s1 { s1.power with
    cap := s.power.capNext, freq := s.power.freqNext, pkgW := BitVec.ofNat 16 (min 65535 m.pkgW), budgetOld := intervalBudget s m, masonEff := masonEffAfter s m,
    throttle := budgetLowered s1 || decide (masonEffAfter s m < (bf s.power.capNext 19 12 : Rat)), plate := plate, sensors := m.sensors,
    trips := s1.power.trips.filter fun p => decide (tripLimit p.1 ≤ m.sensors.getD p.1 0) }

def intervalDone (s : State) (m : PowerMeas) (x : Rat × Rat) : State :=
  { intervalPower s (intervalTowers s m x.2) m x.1 with memcfg := sb (intervalPower s (intervalTowers s m x.2) m x.1).memcfg 29 (stackHot m) }

def heldTimer (s : State) : State := if s.power.buttress then buttressTimer s else s

theorem powerInterval_eq (s : State) (m : PowerMeas) : exec (.powerInterval m) s = .next (heldTimer (intervalDone s m (platePair s m.pkgW m.sensors))) := by
  have hexec : exec (.powerInterval m) s = execPowerInterval m s := rfl
  rw [hexec, execPowerInterval]
  generalize platePair s m.pkgW m.sensors = x
  obtain ⟨plate, ahead⟩ := x
  have htow : intervalTowers s m ahead = forEach s (List.range 8) fun u t => modTower u t fun k => { k with
      budget := shiftBudgets (bt s.power.capNext 11) ((bf s.power.capNext 31 20 : Rat) - m.pRest) s.power.budgetOld (fun t => (getTower s t).budget) (waitShare s) t,
      waitReg := BitVec.ofNat 10 (min 0x3FF (waitShare s t * 1024).floor.toNat),
      throttle := throttleStep m.sensors (towerSensors t ++ hubSensors) k.throttle,
      limit := thermalLimit u m.pkgW ahead t, coreCyc := 0, busyCyc := 0 } := rfl
  rw [heldTimer, intervalDone, intervalPower, htow, budgetLowered, stackHot, masonEffAfter, intervalBudget]

/-- Of the package only towers differ. -/
def TowersOnly (s t : State) : Prop := t = { s with towers := t.towers }

theorem intervalTowers_towers (s : State) (m : PowerMeas) (ahead : Rat) : TowersOnly s (intervalTowers s m ahead) ∧
    ∀ t < 8, ∃ limit, getTower (intervalTowers s m ahead) t = towerInterval s m limit t (getTower s t) := by
  obtain ⟨h1, -, h3⟩ := forEach_each (get := getTower) (I := TowersOnly s) (R := fun t k o => ∃ limit, o = towerInterval s m limit t k)
    (f := fun u t => modTower u t (towerInterval s m (thermalLimit u m.pkgW ahead t) t))
    (fun u t hu => by
      refine ⟨?_, fun q hq => getTower_modTower_ne _ _ hq, _, getTower_modTower_self ..⟩
      unfold TowersOnly at *
      rw [hu]
      rfl) (List.range 8) s List.nodup_range rfl
  exact ⟨h1, fun t ht => h3 t (List.mem_range.2 ht)⟩

theorem heldTimer_stands (s : State) : heldTimer s = { s with power := { s.power with highSince := (heldTimer s).power.highSince } } := by
  unfold heldTimer
  split
  · exact buttressTimer_power s
  · rfl

theorem stackHot_iff (m : PowerMeas) : stackHot m = true ↔ ∃ i < 16, 85 * 16 < m.sensors.getD (48 + i) 0 := by
  unfold stackHot
  simp only [List.any_eq_true, List.mem_range, decide_eq_true_eq]

theorem mem_towerSensors {u i : Nat} (h : i < 4) : 4 * u + i ∈ towerSensors u ++ hubSensors :=
  List.mem_append_left _ (List.mem_append_left _ (List.mem_map.2 ⟨i, List.mem_range.2 h, rfl⟩))

theorem throttleStep_hot {v : List Int} {is : List Nat} {i : Nat} (hi : i ∈ is) (h : 95 * 16 ≤ v.getD i 0) (f : Rat) : throttleStep v is f = f * 95 / 100 := by
  have hany : ((is.map fun i => v.getD i 0).any fun x => decide (95 * 16 ≤ x)) = true :=
    List.any_eq_true.2 ⟨v.getD i 0, List.mem_map.2 ⟨i, hi, rfl⟩, decide_eq_true h⟩
  exact if_pos hany

theorem intervalDone_parts {s s1 t : State} {m : PowerMeas} {plate : Rat} (h : TowersOnly s s1)
    (ht : t = { intervalPower s s1 m plate with
      memcfg := sb (intervalPower s s1 m plate).memcfg 29 (stackHot m)
      power := { (intervalPower s s1 m plate).power with highSince := t.power.highSince } }) :
    t.power.cap = s.power.capNext ∧ t.power.freq = s.power.freqNext ∧ t.power.sensors = m.sensors ∧ t.power.budgetOld = intervalBudget s m ∧ t.cores = s.cores ∧
      t.power.groups = s.power.groups ∧ bt t.memcfg 29 = stackHot m ∧ ∀ u, getTower t u = getTower s1 u := by
  have hpow := (congrArg State.power ht :)
  have hmem := (congrArg State.memcfg ht :)
  have htow := (congrArg State.towers ht :)
  refine ⟨?_, ?_, ?_, ?_, (congrArg State.cores ht :).trans (congrArg State.cores h :), ?_, ?_, fun u => ?_⟩
  · rw [hpow]; rfl
  · rw [hpow]; rfl
  · rw [hpow]; rfl
  · rw [hpow]; rfl
  · rw [hpow]
    exact (congrArg (fun v : State => v.power.groups) h :)
  · rw [hmem]
    exact bt_sb _ _ _ (by decide)
  · rw [getTower, htow, getTower]
    rfl

theorem powerInterval_runs (s : State) (m : PowerMeas) : let B : Rat := (bf s.power.capNext 31 20 : Rat) - m.pRest
    ∃ t, exec (.powerInterval m) s = .next t ∧ t.power.cap = s.power.capNext ∧ t.power.freq = s.power.freqNext ∧
      t.power.sensors = m.sensors ∧ t.power.budgetOld = B ∧ t.cores = s.cores ∧ t.power.groups = s.power.groups ∧
      (bt t.memcfg 29 = true ↔ ∃ i < 16, 85 * 16 < m.sensors.getD (48 + i) 0) ∧
      (bt s.power.capNext 11 = false → ∀ u < 8, (getTower t u).budget = B / 8) ∧
      (s.power.budgetOld ≠ 0 → budgetSum s = s.power.budgetOld → budgetSum t = B) ∧
      (0 < B → 0 < s.power.budgetOld →
        (∀ u < 8, s.power.budgetOld / 16 ≤ (getTower s u).budget ∧ (getTower s u).budget ≤ 3 * s.power.budgetOld / 16) →
        ∀ u < 8, B / 16 ≤ (getTower t u).budget ∧ (getTower t u).budget ≤ 3 * B / 16) ∧
      (∀ u < 8, ∀ i < 4, 95 * 16 ≤ m.sensors.getD (4 * u + i) 0 → (getTower t u).throttle = (getTower s u).throttle * 95 / 100) := by
  intro B
  generalize hx : platePair s m.pkgW m.sensors = x
  obtain ⟨hside, htowers⟩ := intervalTowers_towers s m x.2
  obtain ⟨hcap, hfreq, hsens, hold, hcores, hgroups, hbit, hget⟩ := intervalDone_parts hside (heldTimer_stands (intervalDone s m x))
  have htower (u : Nat) (hu : u < 8) : ∃ limit, getTower (heldTimer (intervalDone s m x)) u = towerInterval s m limit u (getTower s u) := by
    rw [hget u]
    exact htowers u hu
  have hbudget (u : Nat) (hu : u < 8) : (getTower (heldTimer (intervalDone s m x)) u).budget = intervalBudgets s m u := by
    obtain ⟨limit, h⟩ := htower u hu
    rw [h]
    rfl
  have hexec : exec (.powerInterval m) s = .next (heldTimer (intervalDone s m x)) := hx ▸ powerInterval_eq s m
  refine ⟨_, hexec, hcap, hfreq, hsens, hold, hcores, hgroups, ?_, fun h11 u hu => ?_, fun h0 hsum => ?_, fun hB h0 hb u hu => ?_, fun u hu i hi hhot => ?_⟩
  · rw [hbit]
    exact stackHot_iff m
  · rw [hbudget u hu, intervalBudgets, h11]
    rfl
  · have hmap : (List.range 8).map (fun t => (getTower (heldTimer (intervalDone s m x)) t).budget) = (List.range 8).map (intervalBudgets s m) :=
      List.map_congr_left fun u hu => hbudget u (List.mem_range.1 hu)
    rw [budgetSum, hmap]
    exact shiftBudgets_sum h0 hsum
  · rw [hbudget u hu]
    exact shiftBudgets_bounded hB h0 hb u hu
  · obtain ⟨limit, h⟩ := htower u hu
    rw [h]
    exact throttleStep_hot (mem_towerSensors hi) hhot _

/-! ## GROUP_FREQ_STEP (R368, R371, R374) -/

/-- A new target changes only the group's target and its hold, and set points. -/
theorem groupRetarget_clock (s : State) (g n : Nat) : ClockSide s (groupRetarget s g n) ∧ (∀ q, q ≠ g → getGroup (groupRetarget s g n) q = getGroup s q) ∧
    (getGroup (groupRetarget s g n) g).step = (getGroup s g).step ∧ (getGroup (groupRetarget s g n) g).target = n := by
  unfold groupRetarget
  dsimp only
  by_cases hn : n = (getGroup s g).target
  · rw [if_pos hn]
    exact ⟨.refl s, fun _ _ => rfl, rfl, hn.symm⟩
  · rw [if_neg hn]
    have hself : getGroup (moveVcore (setGroup s g { getGroup s g with target := n }) (g / 8)) g = { getGroup s g with target := n } := getGroup_setGroup_self ..
    rw [hself]
    refine ⟨((clockSide_setGroup ..).trans (clockSide_moveVcore ..)).trans (clockSide_setGroup ..), fun q hq => ?_, ?_, ?_⟩
    · rw [getGroup_setGroup_ne _ _ hq]
      exact getGroup_setGroup_ne _ _ hq
    · rw [getGroup_setGroup_self]
    · rw [getGroup_setGroup_self]

/-- Whether a core of the group holds a kernel. -/
def groupHeld (s : State) (g : Nat) : Bool := (List.range 4).any fun i => holdsKernel (getCore s (4 * g + i))

/-- The step that follows step `n` at mean power `p` (R371). -/
def stepAfter (s : State) (g n : Nat) (p : Rat) : Nat :=
  min (if groupHeld s g ∧ p ≤ groupShare s g then max (if !groupHeld s g then 0
    else if 105 * groupShare s g < 100 * p then n - 4
    else if groupShare s g < p then n - 1
    else if 100 * p < 97 * groupShare s g then n + 1
    else n) (fMin s)
  else if !groupHeld s g then 0
    else if 105 * groupShare s g < 100 * p then n - 4
    else if groupShare s g < p then n - 1
    else if 100 * p < 97 * groupShare s g then n + 1
    else n) (fMax s)

theorem nextStep_eq (s : State) (g : Nat) (p : Rat) : nextStep s g p = stepAfter s g (getGroup s g).target p := rfl

theorem stepAfter_congr {a s : State} (h : ClockSide a s) (g n : Nat) (p : Rat) : stepAfter s g n p = stepAfter a g n p := by
  have hheld : groupHeld s g = groupHeld a g := (congrArg (fun v : State => groupHeld v g) h.rest :)
  have hfreq : s.power.freq = a.power.freq := (congrArg (fun v : State => v.power.freq) h.rest :)
  have hkey : s.key = a.key := (congrArg State.key h.rest :)
  have hmin : fMin s = fMin a := by rw [fMin, hfreq, fMin]
  have hmax : fMax s = fMax a := by rw [fMax, hfreq, hkey, fMax]
  have hshare : groupShare s g = groupShare a g := by
    rw [groupShare, budgetNow, h.tower (g / 8), groupShare, budgetNow]
  unfold stepAfter
  rw [hheld, hmin, hmax, hshare]

/-- A group's frequency step. -/
def stepGroup (p : List Nat) (s : State) (g : Nat) : State :=
  groupRetarget (setGroup s g { getGroup s g with soft := (getGroup s g).soft && decide ((getGroup s g).target + 4 < nextStep s g (p.getD g 0 : Nat)) }) g
    (if (getGroup s g).soft then min (nextStep s g (p.getD g 0 : Nat)) ((getGroup s g).target + 4) else nextStep s g (p.getD g 0 : Nat))

theorem stepGroup_clock {a s : State} (p : List Nat) (g : Nat) (h : ClockSide a s) : ClockSide a (stepGroup p s g) ∧
    (∀ q, q ≠ g → getGroup (stepGroup p s g) q = getGroup s q) ∧ ((getGroup s g).soft = false →
      (getGroup (stepGroup p s g) g).step = (getGroup s g).step ∧
      (getGroup (stepGroup p s g) g).target = stepAfter a g (getGroup s g).target (p.getD g 0 : Nat)) := by
  obtain ⟨h1, h2, h3, h4⟩ := groupRetarget_clock
    (setGroup s g { getGroup s g with soft := (getGroup s g).soft && decide ((getGroup s g).target + 4 < nextStep s g (p.getD g 0 : Nat)) }) g
    (if (getGroup s g).soft then min (nextStep s g (p.getD g 0 : Nat)) ((getGroup s g).target + 4) else nextStep s g (p.getD g 0 : Nat))
  refine ⟨h.trans ((clockSide_setGroup ..).trans h1), fun q hq => (h2 q hq).trans (getGroup_setGroup_ne _ _ hq), fun hsoft => ⟨h3.trans ?_, h4.trans ?_⟩⟩
  · rw [getGroup_setGroup_self]
  · rw [hsoft, if_neg Bool.false_ne_true, nextStep_eq, stepAfter_congr h]

/-- R371 for a group of four idle cores. -/
theorem stepAfter_idle {s : State} {g : Nat} (h : groupHeld s g = false) (n : Nat) (p : Rat) : stepAfter s g n p = 0 := by
  unfold stepAfter
  rw [h]
  simp

/-- R371 for a group that holds a kernel. -/
theorem stepAfter_held {s : State} {g n : Nat} {p : Rat} (h : groupHeld s g = true) (hp : 0 ≤ p) (hn : n ≤ fMax s) (hf : fMin s ≤ fMax s) :
    (105 / 100 * groupShare s g < p → groupShare s g < p → stepAfter s g n p = n - 4) ∧
    (groupShare s g < p → p ≤ 105 / 100 * groupShare s g → stepAfter s g n p = n - 1) ∧
    (p < 97 / 100 * groupShare s g → p ≤ groupShare s g → stepAfter s g n p = max (fMin s) (min (n + 1) (fMax s))) ∧
    (97 / 100 * groupShare s g ≤ p → p ≤ groupShare s g → p ≤ 105 / 100 * groupShare s g → stepAfter s g n p = max (fMin s) n) := by
  unfold stepAfter
  rw [h]
  generalize groupShare s g = S
  simp only [Bool.not_true, true_and, if_neg Bool.false_ne_true]
  refine ⟨fun h1 h2 => ?_, fun h1 h2 => ?_, fun h1 h2 => ?_, fun h1 h2 h3 => ?_⟩
  · have hfar : 105 * S < 100 * p := by linarith
    rw [if_neg (not_le.2 h2), if_pos hfar]
    omega
  · have hfar : ¬ 105 * S < 100 * p := by linarith
    rw [if_neg (not_le.2 h1), if_neg hfar, if_pos h1]
    omega
  · have hfar : ¬ 105 * S < 100 * p := by linarith
    have hlow : 100 * p < 97 * S := by linarith
    rw [if_pos h2, if_neg hfar, if_neg (not_lt.2 h2), if_pos hlow]
    omega
  · have hfar : ¬ 105 * S < 100 * p := by linarith
    have hlow : ¬ 100 * p < 97 * S := by linarith
    rw [if_pos h2, if_neg hfar, if_neg (not_lt.2 h2), if_neg hlow]
    omega

theorem groupHeld_false {s : State} {g : Nat} (h : ∀ i < 4, holdsKernel (getCore s (4 * g + i)) = false) : groupHeld s g = false := by
  refine Bool.eq_false_iff.2 fun ht => ?_
  obtain ⟨i, hi, hk⟩ := List.any_eq_true.1 ht
  exact Bool.false_ne_true ((h i (List.mem_range.1 hi)).symm.trans hk)

theorem groupHeld_true {s : State} {g : Nat} (h : ∃ i < 4, holdsKernel (getCore s (4 * g + i)) = true) : groupHeld s g = true := by
  obtain ⟨i, hi, hk⟩ := h
  exact List.any_eq_true.2 ⟨i, List.mem_range.2 hi, hk⟩

theorem groupFreqStep_eq (p : List Nat) (s : State) : exec (.groupFreqStep p) s =
    if s.power.buttress ∨ s.rst.stage < 7 then .next s else .next (forEach s (List.range 64) (stepGroup p)) := by
  have hstep : stepGroup p = fun s g =>
      groupRetarget (setGroup s g { getGroup s g with soft := (getGroup s g).soft && decide ((getGroup s g).target + 4 < nextStep s g (p.getD g 0 : Nat)) }) g
        (if (getGroup s g).soft then min (nextStep s g (p.getD g 0 : Nat)) ((getGroup s g).target + 4) else nextStep s g (p.getD g 0 : Nat)) := rfl
  have hexec : exec (.groupFreqStep p) s = execGroupFreqStep p s := rfl
  rw [hexec, hstep, execGroupFreqStep]

theorem stepGroups_clock (p : List Nat) (s : State) : ClockSide s (forEach s (List.range 64) (stepGroup p)) ∧ ∀ g < 64, (getGroup s g).soft = false →
    (getGroup (forEach s (List.range 64) (stepGroup p)) g).step = (getGroup s g).step ∧
    (getGroup (forEach s (List.range 64) (stepGroup p)) g).target = stepAfter s g (getGroup s g).target (p.getD g 0 : Nat) := by
  obtain ⟨h1, -, h3⟩ := forEach_each (get := getGroup) (I := ClockSide s)
    (R := fun g k o => k.soft = false → o.step = k.step ∧ o.target = stepAfter s g k.target (p.getD g 0 : Nat)) (f := stepGroup p)
    (fun _ g hu => stepGroup_clock p g hu) (List.range 64) s List.nodup_range (.refl s)
  exact ⟨h1, fun g hg => h3 g (List.mem_range.2 hg)⟩

theorem groupFreqStep_runs (s : State) (p : List Nat) : ((s.power.buttress = true ∨ s.rst.stage < 7) → exec (.groupFreqStep p) s = .next s) ∧
    (s.power.buttress = false → 7 ≤ s.rst.stage → ∃ t, exec (.groupFreqStep p) s = .next t ∧
      t = { s with towers := t.towers, power := { s.power with groups := t.power.groups } } ∧
      ∀ g < 64, (getGroup s g).soft = false → (getGroup t g).step = (getGroup s g).step ∧
        (let k := getGroup s g
         let P : Rat := (p.getD g 0 : Nat)
         let S := budgetNow s (g / 8) * 125
         (((∀ i < 4, holdsKernel (getCore s (4 * g + i)) = false) → (getGroup t g).target = 0) ∧
          ((∃ i < 4, holdsKernel (getCore s (4 * g + i)) = true) → k.target ≤ fMax s → fMin s ≤ fMax s →
            (105 / 100 * S < P → (S < P) → (getGroup t g).target = k.target - 4) ∧
            (S < P → P ≤ 105 / 100 * S → (getGroup t g).target = k.target - 1) ∧
            (P < 97 / 100 * S → P ≤ S → (getGroup t g).target = max (fMin s) (min (k.target + 1) (fMax s))) ∧
            (97 / 100 * S ≤ P → P ≤ S → P ≤ 105 / 100 * S → (getGroup t g).target = max (fMin s) k.target))))) := by
  rw [groupFreqStep_eq]
  refine ⟨fun h => if_pos h, fun hb hst => ?_⟩
  obtain ⟨hclock, hgroup⟩ := stepGroups_clock p s
  generalize forEach s (List.range 64) (stepGroup p) = t at *
  refine ⟨t, if_neg ?_, hclock.rest, fun g hg hsoft => ?_⟩
  · rintro (h | h)
    · exact Bool.false_ne_true (hb.symm.trans h)
    · omega
  · obtain ⟨hstep, htarget⟩ := hgroup g hg hsoft
    refine ⟨hstep, fun hidle => ?_, fun hheld hmax hf => ?_⟩
    · rw [htarget, stepAfter_idle (groupHeld_false hidle)]
    · rw [htarget]
      exact stepAfter_held (groupHeld_true hheld) (Nat.cast_nonneg _) hmax hf

/-- Settles O55: the loops over groups, towers and cores are taken element by element (`forEach_each`), with the frame of each step. -/
theorem powerRuns : Obligations.PowerRuns := by
  unfold Obligations.PowerRuns
  intro s
  refine ⟨fun d => ⟨domainDone_rest s d, domainDone_down s d, domainDone_up s d, fun _ => domainTransitionDone_rises s d⟩,
    fun m => ⟨masonStops_waiting s m, fun h => if_neg h⟩, fun g => clockChange_runs s g, regulatorSettled_runs s, fun u h => if_pos h, avsSilent_runs s,
    buttressEntered_runs s, buttressRise_runs s, ⟨buttressEnd_none, fun τ => buttressEnd_early, fun τ => buttressEnd_runs⟩, thermalTrip_runs s,
    thermalShutdown_runs s, coolantStale_runs s, powerInterval_runs s, groupFreqStep_runs s⟩

end Sys2Proof.Machine
end

section
/-!
PROOF. Module power channels from QUEUED to ON, latched and retired (R362, R377 to R380).
-/

namespace Sys2Proof.Machine

theorem setsMod_setMod (s : State) (k : Nat) (m : Mod) : SetsMod s (setMod s k m) k m :=
  ⟨rfl, getMod_setMod_same .., fun _ hi => getMod_setMod_other _ _ hi⟩

/-! ## VMOD (R362) -/

/-- VMOD is lost or has returned. -/
def vmodIs (s : State) (ok : Bool) : State := withPower s { s.power with vmodOk := ok }

def loseChannel (s : State) (k : Nat) : State := if (getMod s k).st = .retired then s else modOff s k .off

/-- What the loss of VMOD does to a channel. -/
structure LostVmod (m o : Mod) : Prop where
  st : o.st = if m.st = .retired then .retired else .off
  en : o.en = m.en
  cause : o.cause = m.cause
  retries : o.retries = m.retries

/-- The parts of a channel that the end of a pause leaves. -/
def modCore4 (m : Mod) : ModState × Bool × BitVec 2 × Nat := (m.st, m.en, m.cause, m.retries)

theorem TurnsOff.core4 {s t : State} {k : Nat} {st : ModState} (h : TurnsOff s t k st) {i : Nat} (hi : i ≠ k) : modCore4 (getMod t i) = modCore4 (getMod s i) := by
  rw [h.others i hi]
  rfl

theorem loseChannel_mods {a s : State} (k : Nat) (h : ModSide a s) : ModSide a (loseChannel s k) ∧
    (∀ q, q ≠ k → modCore4 (getMod (loseChannel s k) q) = modCore4 (getMod s q)) ∧
    modCore4 (getMod (loseChannel s k) k) = modCore4 { getMod s k with st := if (getMod s k).st = .retired then .retired else .off } := by
  unfold loseChannel
  by_cases hr : (getMod s k).st = .retired
  · rw [if_pos hr, if_pos hr]
    exact ⟨h, fun _ _ => rfl, by rw [← hr]⟩
  · rw [if_neg hr, if_neg hr]
    have hoff := modOff_turnsOff s k .off
    refine ⟨h.trans hoff.side, fun q hq => hoff.core4 hq, ?_⟩
    rw [hoff.self]
    rfl

theorem lostVmod_of_core4 {m o : Mod} (h : modCore4 o = modCore4 { m with st := if m.st = .retired then .retired else .off }) : LostVmod m o :=
  ⟨(congrArg (fun x => x.1) h :), (congrArg (fun x => x.2.1) h :), (congrArg (fun x => x.2.2.1) h :), (congrArg (fun x => x.2.2.2) h :)⟩

theorem vmodLoss_runs (s : State) : ∃ t, exec .vmodLoss s = .next t ∧ t.power.vmodOk = false ∧ ∀ k < 18,
    (getMod t k).st = (if (getMod s k).st = .retired then .retired else .off) ∧ (getMod t k).en = (getMod s k).en ∧
      (getMod t k).cause = (getMod s k).cause ∧ (getMod t k).retries = (getMod s k).retries := by
  have hexec : exec .vmodLoss s = .next (forEach (vmodIs s false) (List.range 18) loseChannel) := rfl
  obtain ⟨h1, -, h3⟩ := forEach_each (get := fun t k => modCore4 (getMod t k)) (I := ModSide (vmodIs s false))
    (R := fun _ m o => o = (if m.1 = .retired then .retired else .off, m.2)) (f := loseChannel)
    (fun _ k hu => loseChannel_mods k hu) (List.range 18) (vmodIs s false) List.nodup_range (.refl _)
  refine ⟨_, hexec, (congrArg (fun v : State => v.power.vmodOk) h1.rest :), fun k hk => ?_⟩
  obtain ⟨hst, hen, hcause, hretries⟩ := lostVmod_of_core4 (m := getMod s k) (h3 k (List.mem_range.2 hk))
  exact ⟨hst, hen, hcause, hretries⟩

/-- A channel whose VMOD has returned. -/
def modBack (off : Bool) (m : Mod) : Mod := if m.en = true ∧ m.st = .off ∧ off = false then { m with st := .queued } else m

def wakeChannel (s : State) (k : Nat) : State :=
  if (getMod s k).en ∧ (getMod s k).st = .off ∧ s.rst.off = false then setMod s k { getMod s k with st := .queued } else s

theorem wakeChannel_mods {a s : State} (k : Nat) (h : ModsOnly a s) : ModsOnly a (wakeChannel s k) ∧
    (∀ q, q ≠ k → getMod (wakeChannel s k) q = getMod s q) ∧ getMod (wakeChannel s k) k = modBack a.rst.off (getMod s k) := by
  have hrst : s.rst.off = a.rst.off := (congrArg (fun v : State => v.rst.off) h :)
  unfold wakeChannel modBack
  rw [hrst]
  split
  · exact ⟨modsOnly_setMod h .., fun q hq => getMod_setMod_other _ _ hq, getMod_setMod_same ..⟩
  · exact ⟨h, fun _ _ => rfl, rfl⟩

theorem vmodReturn_runs (s : State) : ∃ t, exec .vmodReturn s = .next t ∧ t = { s with power := { s.power with vmodOk := true, mods := t.power.mods } } ∧
    ∀ k < 18, getMod t k = if (getMod s k).en = true ∧ (getMod s k).st = .off ∧ s.rst.off = false then { getMod s k with st := .queued } else getMod s k := by
  have hexec : exec .vmodReturn s = .next (forEach (vmodIs s true) (List.range 18) wakeChannel) := rfl
  obtain ⟨h1, -, h3⟩ := forEach_each (get := getMod) (I := ModsOnly (vmodIs s true)) (R := fun _ m o => o = modBack s.rst.off m) (f := wakeChannel)
    (fun _ k hu => wakeChannel_mods k hu) (List.range 18) (vmodIs s true) List.nodup_range rfl
  exact ⟨_, hexec, h1, fun k hk => h3 k (List.mem_range.2 hk)⟩

/-! ## EN (R377, R380) -/

theorem modEnWrite_eq (k : Port) (en : Bool) (s : State) : exec (.modEnWrite k en) s = .next (modEnSet s k.val en) := rfl

/-- The gate of a channel whose EN has cleared. -/
def modDisabled (s : State) (k : Nat) : State := setMod (modOff s k .off) k { getMod (modOff s k .off) k with en := false, retries := 0 }

theorem modDisabled_channel (s : State) (k : Nat) :
    (getMod (modDisabled s k) k).st = .off ∧ (getMod (modDisabled s k) k).en = false ∧ (getMod (modDisabled s k) k).retries = 0 := by
  rw [modDisabled, getMod_setMod_same, (modOff_turnsOff s k .off).self]
  exact ⟨rfl, rfl, rfl⟩

theorem modEnWrite_runs (s : State) (k : Port) : (∀ en, ((getMod s k.val).st = .retired ∨ en = (getMod s k.val).en) → exec (.modEnWrite k en) s = .next s) ∧
    ((getMod s k.val).st ≠ .retired → (getMod s k.val).en = false → ∃ t, exec (.modEnWrite k true) s = .next t ∧
      SetsMod s t k.val { getMod s k.val with en := true, st := if s.power.vmodOk = true ∧ s.rst.off = false then .queued else .off }) ∧
    ((getMod s k.val).st ≠ .retired → (getMod s k.val).en = true → ∃ t, exec (.modEnWrite k false) s = .next t ∧ (getMod t k.val).st = .off ∧
      (getMod t k.val).en = false ∧ (getMod t k.val).retries = 0) := by
  refine ⟨fun en h => ?_, fun hr hen => ⟨_, ?_, setsMod_setMod ..⟩, fun hr hen => ⟨modDisabled s k.val, ?_, modDisabled_channel s k.val⟩⟩
  · rw [modEnWrite_eq, modEnSet, if_pos h]
  · have hcond : (s.power.vmodOk && !s.rst.off) = true ↔ s.power.vmodOk = true ∧ s.rst.off = false := by
      rw [Bool.and_eq_true, Bool.not_eq_true']
    rw [modEnWrite_eq, modEnSet, if_neg (by rw [hen]; exact fun h => h.elim hr (fun h => Bool.noConfusion h)), if_pos rfl]
    simp only [hcond]
  · rw [modEnWrite_eq, modEnSet, if_neg (by rw [hen]; exact fun h => h.elim hr (fun h => Bool.noConfusion h)), if_neg Bool.false_ne_true]
    rfl

/-! ## Soft start (R377, R379) -/

theorem rampsBeside_limit (s : State) (k : Nat) :
    ((rampsBeside s k).any fun j => holdsReserve (getMod s j)) = (rampsBeside s k).any fun j => (getMod s j).inLimit := by
  have hp : (fun j => decide ((getMod s j).st = .ramp) && holdsReserve (getMod s j)) = fun j => decide ((getMod s j).st = .ramp) && (getMod s j).inLimit :=
    funext fun j => by rw [holdsReserve, ← Bool.and_assoc, Bool.and_self]
  rw [rampsBeside, List.any_filter, List.any_filter, hp]

theorem modRampStart_eq (s : State) (k : Port) : exec (.modRampStart k) s =
    if (getMod s k.val).st ≠ .queued ∨ 2 ≤ (rampsBeside s k.val).length ∨
        ((groupOthers k.val).any fun j => decide (j < k.val) && decide ((getMod s j).st = .queued)) ∨ !s.power.vmodOk then .next s
    else .next (setMod s k.val { getMod s k.val with
      st := .ramp, rampAt := s.now, windowEnd := s.now + 2000000, extended := false, inLimit := false, driven := true,
      paused := (rampsBeside s k.val).any fun j => holdsReserve (getMod s j), pausedAt := s.now }) := rfl

theorem lowerQueued_iff (s : State) (k : Nat) : ((groupOthers k).any fun j => decide (j < k) && decide ((getMod s j).st = .queued)) = true ↔
    ∃ j ∈ groupOthers k, j < k ∧ (getMod s j).st = .queued := by
  simp only [List.any_eq_true, Bool.and_eq_true, decide_eq_true_eq]

theorem modRampStart_runs (s : State) (k : Port) :
    (((getMod s k.val).st ≠ .queued ∨ 2 ≤ (rampsBeside s k.val).length ∨ (∃ j ∈ groupOthers k.val, j < k.val ∧ (getMod s j).st = .queued)) →
      exec (.modRampStart k) s = .next s) ∧
    ((getMod s k.val).st = .queued → (rampsBeside s k.val).length ≤ 1 → (∀ j ∈ groupOthers k.val, j < k.val → (getMod s j).st ≠ .queued) →
      s.power.vmodOk = true → ∃ t, exec (.modRampStart k) s = .next t ∧ SetsMod s t k.val { getMod s k.val with
        st := .ramp, rampAt := s.now, windowEnd := s.now + 2000000, extended := false, inLimit := false, driven := true,
        paused := (rampsBeside s k.val).any (fun j => (getMod s j).inLimit), pausedAt := s.now }) := by
  rw [modRampStart_eq]
  refine ⟨fun h => if_pos ?_, fun hq hlen hlow hv => ⟨_, if_neg ?_, ?_⟩⟩
  · exact h.imp_right fun h => h.imp_right fun h => .inl ((lowerQueued_iff ..).2 h)
  · rintro (h | h | h | h)
    · exact h hq
    · omega
    · obtain ⟨j, hj, hlt, hst⟩ := (lowerQueued_iff ..).1 h
      exact hlow j hj hlt hst
    · rw [hv] at h
      exact Bool.noConfusion h
  · rw [rampsBeside_limit]
    exact setsMod_setMod ..

theorem modOn_runs (s : State) (k : Port) :
    ((getMod s k.val).st = .ramp → (getMod s k.val).paused = false → (getMod s k.val).inLimit = false → ∃ t, exec (.modOn k) s = .next t ∧
      SetsMod s t k.val { getMod s k.val with st := .on, onAt := s.now, extended := false }) ∧
    (((getMod s k.val).paused = true ∨ (getMod s k.val).inLimit = true) → exec (.modOn k) s = .next s) := by
  have hexec : exec (.modOn k) s = if (getMod s k.val).st = .ramp ∧ !(getMod s k.val).paused ∧ !(getMod s k.val).inLimit then
      .next (setMod s k.val { getMod s k.val with st := .on, onAt := s.now, extended := false }) else .next s := rfl
  rw [hexec]
  refine ⟨fun hst hp hl => ⟨_, if_pos ⟨hst, by rw [hp]; rfl, by rw [hl]; rfl⟩, setsMod_setMod ..⟩, fun h => if_neg ?_⟩
  rintro ⟨-, hp, hl⟩
  rcases h with h | h
  · rw [h] at hp
    exact Bool.noConfusion hp
  · rw [h] at hl
    exact Bool.noConfusion hl

/-! ## Latches (R378) -/

/-- A channel whose gate a latch has turned off, before the latch is reported. -/
def modLatched (s : State) (k : Nat) (cause : BitVec 2) : State :=
  setMod (modOff s k .latched) k { getMod (modOff s k .latched) k with cause := cause, latchedAt := s.now }

/-- A latch that has been reported. -/
def latchReported (s : State) (k : Nat) (cause : BitVec 2) : State :=
  ras (modLatched s k cause) St.modShort 6 (unitId (modLatched s k cause) 0xD k) 0

theorem modLatch_eq (s : State) (k : Nat) (cause : BitVec 2) : modLatch s k cause =
    if 3 ≤ (getMod s k).retries then modRetire (latchReported s k cause) k none else latchReported s k cause := rfl

theorem unitId_of_id {s t : State} (h : t.span.id = s.span.id) (cls i : Nat) : unitId t cls i = unitId s cls i := by
  unfold unitId ownDomain ownPackage
  rw [h]

theorem modLatched_side (s : State) (k : Nat) (cause : BitVec 2) : ModSide s (modLatched s k cause) :=
  (modOff_turnsOff s k .latched).side.trans (modSide_setMod ..)

theorem latchReported_side (s : State) (k : Nat) (cause : BitVec 2) : ModSide s (latchReported s k cause) :=
  (modLatched_side ..).trans (ras_link ..).mods

theorem latchReported_latches (s : State) (k : Nat) (cause : BitVec 2) : Latches s (latchReported s k cause) k cause := by
  have hoff := modOff_turnsOff s k .latched
  have hget (i : Nat) : getMod (latchReported s k cause) i = getMod (modLatched s k cause) i := (ras_link ..).getMod i
  refine ⟨?_, fun i _ hi => ?_, modLatched s k cause, ?_⟩
  · rw [hget, modLatched, getMod_setMod_same, hoff.self]
    rfl
  · rw [hget, modLatched, getMod_setMod_other _ _ hi, hoff.others i hi]
    exact ⟨rfl, rfl, rfl, rfl⟩
  · rw [← unitId_of_id (modLatched_side s k cause).id]
    exact ras_reported ..

theorem modLatch_latches {s : State} {k : Nat} (cause : BitVec 2) (h : (getMod s k).retries < 3) : Latches s (modLatch s k cause) k cause := by
  rw [modLatch_eq, if_neg (Nat.not_le.2 h)]
  exact latchReported_latches ..

theorem recRetire_parts (s : State) (u : Nat) (order : Option Nat) : (recRetire s u order).power = s.power ∧ (recRetire s u order).span = s.span ∧
    (recRetire s u order).key.recs.retired = s.key.recs.retired ++ [u] := ⟨rfl, rfl, rfl⟩

/-- A channel that retires is off for good, recorded and reported. -/
theorem modRetire_retires (s : State) (k : Nat) (order : Option Nat) : (getMod (modRetire s k order) k).st = .retired ∧
    (modRetire s k order).key.recs.retired = s.key.recs.retired ++ [unitCode 0xD k] ∧
    ∃ z, RasReported z (modRetire s k order) St.modRetired 1 (unitId s 0xD k) 0 := by
  have hoff := modOff_turnsOff s k .retired
  obtain ⟨hpow, hspan, hrecs⟩ := recRetire_parts (modOff s k .retired) (unitCode 0xD k) order
  have heq : modRetire s k order = ras (recRetire (modOff s k .retired) (unitCode 0xD k) order) St.modRetired 1
      (unitId (recRetire (modOff s k .retired) (unitCode 0xD k) order) 0xD k) 0 := rfl
  have hunit : unitId (recRetire (modOff s k .retired) (unitCode 0xD k) order) 0xD k = unitId s 0xD k :=
    unitId_of_id ((congrArg SpanSt.id hspan).trans hoff.side.id) ..
  have hlink := ras_link (recRetire (modOff s k .retired) (unitCode 0xD k) order) St.modRetired 1 (unitId s 0xD k) 0
  rw [heq, hunit]
  refine ⟨?_, ?_, _, ras_reported ..⟩
  · rw [hlink.getMod, getMod, hpow, ← getMod, hoff.self]
    rfl
  · rw [hlink.recs, hrecs, hoff.side.recs]

theorem modLatch_retires {s : State} {k : Nat} (cause : BitVec 2) (h : 3 ≤ (getMod s k).retries) : (getMod (modLatch s k cause) k).st = .retired ∧
    (modLatch s k cause).key.recs.retired = s.key.recs.retired ++ [unitCode 0xD k] ∧
    ∃ z, RasReported z (modLatch s k cause) St.modRetired 1 (unitId s 0xD k) 0 := by
  have hside := latchReported_side s k cause
  obtain ⟨h1, h2, z, h3⟩ := modRetire_retires (latchReported s k cause) k none
  rw [modLatch_eq, if_pos h]
  rw [hside.recs] at h2
  rw [unitId_of_id hside.id] at h3
  exact ⟨h1, h2, z, h3⟩

theorem modWindowEnd_eq (s : State) (k : Port) (v : BitVec 12) : exec (.modWindowEnd k v) s =
    if (getMod s k.val).st ≠ .ramp then .next s
    else if (getMod s k.val).paused then
      if (getMod s k.val).rampAt + 5000000 ≤ s.now then
        .next (setMod s k.val { getMod s k.val with rampAt := s.now, windowEnd := s.now + 2000000, extended := false, pausedAt := s.now })
      else .next s
    else if s.now < (getMod s k.val).windowEnd then .next s
    else if v.toNat < 120 ∧ !(getMod s k.val).extended then .next (modLatch s k.val 1)
    else if (getMod s k.val).rampAt + 5000000 ≤ s.now then .next (modLatch s k.val 2)
    else .next (setMod s k.val { getMod s k.val with windowEnd := (getMod s k.val).rampAt + 5000000, extended := true }) := rfl

theorem modWindowEnd_runs (s : State) (k : Port) (v : BitVec 12) (hst : (getMod s k.val).st = .ramp) :
    ((getMod s k.val).paused = true → (getMod s k.val).rampAt + 5000000 ≤ s.now → ∃ t, exec (.modWindowEnd k v) s = .next t ∧
      SetsMod s t k.val { getMod s k.val with rampAt := s.now, windowEnd := s.now + 2000000, extended := false, pausedAt := s.now }) ∧
    ((getMod s k.val).paused = false → s.now < (getMod s k.val).windowEnd → exec (.modWindowEnd k v) s = .next s) ∧
    ((getMod s k.val).paused = false → (getMod s k.val).windowEnd ≤ s.now →
      (v.toNat < 120 → (getMod s k.val).extended = false → (getMod s k.val).retries < 3 → ∃ t, exec (.modWindowEnd k v) s = .next t ∧ Latches s t k.val 1) ∧
      (120 ≤ v.toNat → (getMod s k.val).rampAt + 5000000 ≤ s.now → (getMod s k.val).retries < 3 → ∃ t, exec (.modWindowEnd k v) s = .next t ∧
        Latches s t k.val 2) ∧
      (120 ≤ v.toNat → s.now < (getMod s k.val).rampAt + 5000000 → ∃ t, exec (.modWindowEnd k v) s = .next t ∧
        SetsMod s t k.val { getMod s k.val with windowEnd := (getMod s k.val).rampAt + 5000000, extended := true })) := by
  rw [modWindowEnd_eq, if_neg (not_not.2 hst)]
  refine ⟨fun hp hle => ?_, fun hp hlt => ?_, fun hp hle => ?_⟩
  · rw [if_pos hp, if_pos hle]
    exact ⟨_, rfl, setsMod_setMod ..⟩
  · rw [if_neg (by rw [hp]; exact Bool.false_ne_true), if_pos hlt]
  · rw [if_neg (by rw [hp]; exact Bool.false_ne_true), if_neg (Nat.not_lt.2 hle)]
    refine ⟨fun hv hx hret => ?_, fun hv hlate hret => ?_, fun hv hearly => ?_⟩
    · rw [if_pos ⟨hv, by rw [hx]; rfl⟩]
      exact ⟨_, rfl, modLatch_latches 1 hret⟩
    · rw [if_neg (fun h => absurd h.1 (Nat.not_lt.2 hv)), if_pos hlate]
      exact ⟨_, rfl, modLatch_latches 2 hret⟩
    · rw [if_neg (fun h => absurd h.1 (Nat.not_lt.2 hv)), if_neg (Nat.not_le.2 hearly)]
      exact ⟨_, rfl, setsMod_setMod ..⟩

theorem modLimitLatch_eq (s : State) (k : Port) : exec (.modLimitLatch k) s =
    if decide ((getMod s k.val).st = .ramp ∨ (getMod s k.val).st = .on) && (getMod s k.val).inLimit && decide ((getMod s k.val).limitSince + 1000000 ≤ s.now) then
      .next (modLatch s k.val 3) else .next s := rfl

theorem modLimitLatch_runs (s : State) (k : Port) :
    ((getMod s k.val).inLimit = false ∨ s.now < (getMod s k.val).limitSince + 1000000 → exec (.modLimitLatch k) s = .next s) ∧
    (((getMod s k.val).st = .ramp ∨ (getMod s k.val).st = .on) → (getMod s k.val).inLimit = true → (getMod s k.val).limitSince + 1000000 ≤ s.now →
      ((getMod s k.val).retries < 3 → ∃ t, exec (.modLimitLatch k) s = .next t ∧ Latches s t k.val 3) ∧
      (3 ≤ (getMod s k.val).retries → ∃ t, exec (.modLimitLatch k) s = .next t ∧ (getMod t k.val).st = .retired ∧
        t.key.recs.retired = s.key.recs.retired ++ [unitCode 0xD k.val] ∧ ∃ z, RasReported z t St.modRetired 1 (unitId s 0xD k.val) 0)) := by
  rw [modLimitLatch_eq]
  refine ⟨fun h => if_neg fun hc => ?_, fun hst hl hle => ?_⟩
  · obtain ⟨⟨-, hl⟩, hle⟩ := by simpa only [Bool.and_eq_true, decide_eq_true_eq] using hc
    rcases h with h | h
    · exact Bool.false_ne_true (h.symm.trans hl)
    · omega
  · rw [if_pos (by rw [decide_eq_true hst, hl, decide_eq_true hle]; rfl)]
    exact ⟨fun hret => ⟨_, rfl, modLatch_latches 3 hret⟩, fun hret => ⟨_, rfl, modLatch_retires 3 hret⟩⟩

/-! ## Current limit (R379) -/

/-- A channel that ramps beside one in limit pauses. -/
def modPaused (now : Nat) (m : Mod) : Mod := if m.st = .ramp ∧ !m.inLimit ∧ !m.paused then { m with paused := true, pausedAt := now } else m

def pauseMod (s : State) (j : Nat) : State :=
  if (getMod s j).st = .ramp ∧ !(getMod s j).inLimit ∧ !(getMod s j).paused then setMod s j { getMod s j with paused := true, pausedAt := s.now } else s

theorem pauseMod_mods {a s : State} (j : Nat) (h : ModsOnly a s) : ModsOnly a (pauseMod s j) ∧
    (∀ q, q ≠ j → getMod (pauseMod s j) q = getMod s q) ∧ getMod (pauseMod s j) j = modPaused a.now (getMod s j) := by
  unfold pauseMod modPaused
  rw [h.now]
  split
  · exact ⟨modsOnly_setMod h .., fun q hq => getMod_setMod_other _ _ hq, getMod_setMod_same ..⟩
  · exact ⟨h, fun _ _ => rfl, rfl⟩

theorem forEach_pauseMod (s : State) (l : List Nat) (hl : l.Nodup) : ModsOnly s (forEach s l pauseMod) ∧
    (∀ q, q ∉ l → getMod (forEach s l pauseMod) q = getMod s q) ∧ ∀ q ∈ l, getMod (forEach s l pauseMod) q = modPaused s.now (getMod s q) :=
  forEach_each (get := getMod) (I := ModsOnly s) (R := fun _ m o => o = modPaused s.now m) (f := pauseMod) (fun _ j hu => pauseMod_mods j hu) l s hl rfl

/-- Channel `k` has entered current limit. -/
def limited (s : State) (k : Nat) : State := setMod s k { getMod s k with inLimit := true, limitSince := s.now }

theorem modCurrentLimit_eq (s : State) (k : Port) (enter : Bool) : exec (.modCurrentLimit k enter) s =
    if !(decide ((getMod s k.val).st = .ramp ∨ (getMod s k.val).st = .on) && !(getMod s k.val).paused) ∨ enter = (getMod s k.val).inLimit then .next s
    else if enter then
      if (getMod s k.val).st = .on then .next (limited s k.val) else .next (forEach (limited s k.val) (groupOthers k.val) pauseMod)
    else .next (resumeGroup (setMod s k.val { getMod s k.val with inLimit := false }) k.val) := rfl

/-- Only a channel in RAMP or ON that does not pause enters or leaves limit. -/
theorem modCurrentLimit_moves {s : State} {k : Port} {enter : Bool} (hst : (getMod s k.val).st = .ramp ∨ (getMod s k.val).st = .on)
    (hp : (getMod s k.val).paused = false) (hl : (getMod s k.val).inLimit = !enter) : exec (.modCurrentLimit k enter) s =
    if enter then
      if (getMod s k.val).st = .on then .next (limited s k.val) else .next (forEach (limited s k.val) (groupOthers k.val) pauseMod)
    else .next (resumeGroup (setMod s k.val { getMod s k.val with inLimit := false }) k.val) := by
  rw [modCurrentLimit_eq, if_neg]
  rw [decide_eq_true hst, hp, hl]
  cases enter <;> decide

theorem not_mem_groupOthers (k : Nat) : k ∉ groupOthers k := (List.nodup_cons.1 (groupAll_nodup k)).1

theorem mem_rampsBeside {s : State} {j k : Nat} : j ∈ rampsBeside s k ↔ j ∈ groupOthers k ∧ (getMod s j).st = .ramp := by
  rw [rampsBeside, List.mem_filter, decide_eq_true_eq]

theorem limited_pauses (s : State) (k : Nat) : ModsOnly s (forEach (limited s k) (groupOthers k) pauseMod) ∧
    getMod (forEach (limited s k) (groupOthers k) pauseMod) k = { getMod s k with inLimit := true, limitSince := s.now } ∧
    (∀ j, j ≠ k → j ∉ groupOthers k → getMod (forEach (limited s k) (groupOthers k) pauseMod) j = getMod s j) ∧
    ∀ j ∈ groupOthers k, getMod (forEach (limited s k) (groupOthers k) pauseMod) j = modPaused s.now (getMod s j) := by
  obtain ⟨h1, h2, h3⟩ := forEach_pauseMod (limited s k) (groupOthers k) (List.nodup_range.filter _)
  refine ⟨h1, ?_, fun j hj hm => ?_, fun j hm => ?_⟩
  · rw [h2 k (not_mem_groupOthers k)]
    exact getMod_setMod_same ..
  · rw [h2 j hm]
    exact getMod_setMod_other _ _ hj
  · have hne : j ≠ k := fun he => not_mem_groupOthers k (he ▸ hm)
    have hget : getMod (limited s k) j = getMod s j := getMod_setMod_other _ _ hne
    rw [h3 j hm, hget]
    rfl

theorem limitEntered_ramp (s : State) (k : Port) (hst : (getMod s k.val).st = .ramp) (hp : (getMod s k.val).paused = false)
    (hl : (getMod s k.val).inLimit = false) : ∃ t, exec (.modCurrentLimit k true) s = .next t ∧
      t = { s with power := { s.power with mods := t.power.mods } } ∧
      getMod t k.val = { getMod s k.val with inLimit := true, limitSince := s.now } ∧
      (∀ j ∈ rampsBeside s k.val, (getMod s j).inLimit = false → (getMod s j).paused = false →
        getMod t j = { getMod s j with paused := true, pausedAt := s.now }) ∧
      ∀ j, j ≠ k.val → (j ∉ rampsBeside s k.val ∨ (getMod s j).inLimit = true) → getMod t j = getMod s j := by
  have hon : (getMod s k.val).st ≠ .on := by
    rw [hst]
    decide
  obtain ⟨h1, h2, h3, h4⟩ := limited_pauses s k.val
  rw [modCurrentLimit_moves (enter := true) (.inl hst) hp hl, if_pos rfl, if_neg hon]
  refine ⟨_, rfl, h1, h2, fun j hj hjl hjp => ?_, fun j hj hbeside => ?_⟩
  · obtain ⟨hm, hramp⟩ := mem_rampsBeside.1 hj
    rw [h4 j hm, modPaused, if_pos ⟨hramp, by rw [hjl]; rfl, by rw [hjp]; rfl⟩]
  · by_cases hm : j ∈ groupOthers k.val
    · rw [h4 j hm, modPaused, if_neg]
      rintro ⟨hramp, hlim, -⟩
      rcases hbeside with hb | hb
      · exact hb (mem_rampsBeside.2 ⟨hm, hramp⟩)
      · rw [hb] at hlim
        exact Bool.noConfusion hlim
    · exact h3 j hj hm

theorem limitEntered_on (s : State) (k : Port) (hst : (getMod s k.val).st = .on) (hp : (getMod s k.val).paused = false)
    (hl : (getMod s k.val).inLimit = false) : ∃ t, exec (.modCurrentLimit k true) s = .next t ∧
      SetsMod s t k.val { getMod s k.val with inLimit := true, limitSince := s.now } := by
  rw [modCurrentLimit_moves (enter := true) (.inr hst) hp hl, if_pos rfl, if_pos hst]
  exact ⟨_, rfl, setsMod_setMod ..⟩

theorem limitLeft_ramp (s : State) (k : Port) (hst : (getMod s k.val).st = .ramp) (hp : (getMod s k.val).paused = false)
    (hl : (getMod s k.val).inLimit = true) (hfree : ∀ j ∈ rampsBeside s k.val, (getMod s j).inLimit = false) :
    ∃ t, exec (.modCurrentLimit k false) s = .next t ∧ (getMod t k.val).inLimit = false ∧
      ∀ j ∈ rampsBeside s k.val, (getMod s j).paused = true → getMod t j = { getMod s j with
        paused := false, windowEnd := min ((getMod s j).windowEnd + (s.now - (getMod s j).pausedAt)) ((getMod s j).rampAt + 5000000) } := by
  rw [modCurrentLimit_moves (enter := false) (.inl hst) hp hl, if_neg Bool.false_ne_true]
  have hself : getMod (setMod s k.val { getMod s k.val with inLimit := false }) k.val = { getMod s k.val with inLimit := false } := getMod_setMod_same ..
  have hother (j : Nat) (hj : j ∈ groupOthers k.val) : getMod (setMod s k.val { getMod s k.val with inLimit := false }) j = getMod s j :=
    getMod_setMod_other _ _ fun he => not_mem_groupOthers k.val (he ▸ hj)
  have hnone : ((groupAll k.val).any fun j => holdsReserve (getMod (setMod s k.val { getMod s k.val with inLimit := false }) j)) = false := by
    refine List.any_eq_false.2 fun j hj ht => ?_
    rcases List.mem_cons.1 hj with he | hm
    · subst he
      rw [hself, holdsReserve, Bool.and_false] at ht
      exact Bool.false_ne_true ht
    · rw [hother j hm, holdsReserve, Bool.and_eq_true, decide_eq_true_eq] at ht
      exact Bool.false_ne_true ((hfree j (mem_rampsBeside.2 ⟨hm, ht.1⟩)).symm.trans ht.2)
  have hresume : resumeGroup (setMod s k.val { getMod s k.val with inLimit := false }) k.val =
      forEach (setMod s k.val { getMod s k.val with inLimit := false }) (groupAll k.val) resumeMod := by
    rw [resumeGroup_eq, if_neg (by rw [hnone]; exact Bool.false_ne_true)]
  obtain ⟨-, -, h3⟩ := forEach_resumeMod (setMod s k.val { getMod s k.val with inLimit := false }) (groupAll k.val) (groupAll_nodup _)
  rw [hresume]
  refine ⟨_, rfl, ?_, fun j hj hjp => ?_⟩
  · rw [h3 _ (List.mem_cons.2 (.inl rfl)), modResumed_parts, hself]
  · have hm := (mem_rampsBeside.1 hj).1
    rw [h3 _ (List.mem_cons.2 (.inr hm)), hother j hm, modResumed, if_pos hjp]
    rfl

/-! ## Retries (R378, R380) -/

theorem modRetry_runs (s : State) (k : Port) :
    ((getMod s k.val).st ≠ .latched ∨ s.now < (getMod s k.val).latchedAt + 100000000 → exec (.modRetry k) s = .next s) ∧
    ((getMod s k.val).st = .latched → (getMod s k.val).latchedAt + 100000000 ≤ s.now → ∃ t, exec (.modRetry k) s = .next t ∧
      SetsMod s t k.val { getMod s k.val with st := .queued, retries := (getMod s k.val).retries + 1 }) := by
  have hexec : exec (.modRetry k) s = if (getMod s k.val).st = .latched ∧ (getMod s k.val).latchedAt + 100000000 ≤ s.now then
      .next (setMod s k.val { getMod s k.val with st := .queued, retries := (getMod s k.val).retries + 1 }) else .next s := rfl
  rw [hexec]
  exact ⟨fun h => if_neg fun hc => h.elim (fun h => h hc.1) (fun h => absurd hc.2 (Nat.not_le.2 h)), fun hst hle => ⟨_, if_pos ⟨hst, hle⟩, setsMod_setMod ..⟩⟩

theorem modRetriesClear_runs (s : State) (k : Port) :
    ((getMod s k.val).st ≠ .on ∨ s.now < (getMod s k.val).onAt + 10000000000 → exec (.modRetriesClear k) s = .next s) ∧
    ((getMod s k.val).st = .on → (getMod s k.val).onAt + 10000000000 ≤ s.now → ∃ t, exec (.modRetriesClear k) s = .next t ∧
      SetsMod s t k.val { getMod s k.val with retries := 0 }) := by
  have hexec : exec (.modRetriesClear k) s = if (getMod s k.val).st = .on ∧ (getMod s k.val).onAt + 10000000000 ≤ s.now then
      .next (setMod s k.val { getMod s k.val with retries := 0 }) else .next s := rfl
  rw [hexec]
  exact ⟨fun h => if_neg fun hc => h.elim (fun h => h hc.1) (fun h => absurd hc.2 (Nat.not_le.2 h)), fun hst hle => ⟨_, if_pos ⟨hst, hle⟩, setsMod_setMod ..⟩⟩

theorem modDisabled_recs (s : State) (k : Nat) : (modDisabled s k).key.recs = s.key.recs :=
  ((modOff_turnsOff s k .off).side.trans (modSide_setMod ..)).recs

theorem modCtlClr_runs (s : State) (k : Port) : ∃ t, exec (.modCtlClr k) s = .next t ∧ (getMod t k.val).st = .off ∧ (getMod t k.val).en = false ∧
    (getMod t k.val).retries = 0 ∧ t.key.recs.retired = s.key.recs.retired.filter (fun u => decide (u ≠ unitCode 0xD k.val)) := by
  have hexec : exec (.modCtlClr k) s =
      .next (recUnits (modDisabled s k.val) (fun r => { r with retired := r.retired.filter fun u => u ≠ unitCode 0xD k.val }) none) := rfl
  have hparts (t : State) : (recUnits t (fun r => { r with retired := r.retired.filter fun u => u ≠ unitCode 0xD k.val }) none).power = t.power ∧
      (recUnits t (fun r => { r with retired := r.retired.filter fun u => u ≠ unitCode 0xD k.val }) none).key.recs.retired =
        t.key.recs.retired.filter fun u => u ≠ unitCode 0xD k.val := ⟨rfl, rfl⟩
  obtain ⟨hpow, hrecs⟩ := hparts (modDisabled s k.val)
  obtain ⟨h1, h2, h3⟩ := modDisabled_channel s k.val
  refine ⟨_, hexec, ?_, ?_, ?_, ?_⟩
  · rw [getMod, hpow, ← getMod, h1]
  · rw [getMod, hpow, ← getMod, h2]
  · rw [getMod, hpow, ← getMod, h3]
  · rw [hrecs, modDisabled_recs]

/-- Settles O56: a channel that turns off leaves the others but for their pauses (`modOff_turnsOff`), and each command is one case of it or one write. -/
theorem moduleChannelsRun : Obligations.ModuleChannelsRun := by
  unfold Obligations.ModuleChannelsRun
  intro s
  exact ⟨vmodLoss_runs s, vmodReturn_runs s, fun k => ⟨modEnWrite_runs s k, modRampStart_runs s k, modOn_runs s k, modWindowEnd_runs s k,
    ⟨limitEntered_ramp s k, limitEntered_on s k, limitLeft_ramp s k⟩, modLimitLatch_runs s k, modRetry_runs s k, modRetriesClear_runs s k, modCtlClr_runs s k⟩⟩

end Sys2Proof.Machine
end

section
/-!
PROOF. The sources of reset and the record of them (R381 to R386).
-/

namespace Sys2Proof.Machine

/-! ## The package in reset (R383, R384, R394) -/

theorem foldl_tset_get {α : Type} [DecidableEq α] (d : α) (v : Nat → α) : ∀ (l : List Nat) (t : Tab α) (e : Nat), e ∈ l →
    tget d (l.foldl (fun t e => tset d t e (v e)) t) e = v e := by
  intro l
  induction l using List.reverseRecOn with
  | nil => exact fun _ _ h => absurd h List.not_mem_nil
  | append_singleton l x ih =>
    intro t e he
    rw [List.foldl_append, List.foldl_cons, List.foldl_nil]
    by_cases hx : e = x
    · subst hx
      exact tget_tset_self ..
    · rw [tget_tset_ne _ hx]
      exact ih t e ((List.mem_append.1 he).resolve_right fun h => hx (List.mem_singleton.1 h))

/-- The package in reset with the towers `T`. -/
def resetOver (s : State) (T : Tab TowerSt) : State :=
  { State.reset with
    now := s.now, free := s.free, pending := s.pending, store := { s.store with pend := [] },
    rst := { cause0 := s.rst.cause0, cause1 := s.rst.cause1, active := s.rst.active, since := s.rst.since, railsUp := s.rst.railsUp },
    towers := T, power := { vmodOk := s.power.vmodOk },
    pins := { dbgEn := s.pins.dbgEn, i3cStrap := s.pins.i3cStrap, butLow := s.pins.butLow, resetLow := s.pins.resetLow } }

theorem inReset_over (s : State) : ∃ T, inReset s = resetOver s T ∧ ∀ u < 8, (tget {} T u).vset = (getTower s u).vset := by
  refine ⟨_, rfl, fun u hu => ?_⟩
  refine (congrArg TowerSt.vset (foldl_tset_get {} (fun n => { vset := (getTower s n).vset, vtarget := (getTower s n).vset : TowerSt }) (List.range 8) [] u
    (List.mem_range.2 hu)) :).trans rfl

/-- Whatever the record becomes, reset is held. -/
theorem resetOver_held (s : State) (T : Tab TowerSt) (n : Tab Nat) (r : ResetSt)
    (h : r.stage = 0 ∧ r.done = false ∧ r.memDone = false ∧ r.recovery = false ∧ r.off = false ∧ r.softDue = none) :
    ResetHeld s (withRst (withStore (resetOver s T) { s.store with pend := [], sincePwr := n }) r) := ⟨rfl, h, rfl, rfl, rfl⟩

/-- The package at power-on. -/
def poweredOn (s : State) : State := withRst (withStore (inReset s) { (inReset s).store with sincePwr := [] }) { active := [0] }

/-- The package without power. -/
def powerLost (s : State) : State := withRst (withStore (vcoreLost (inReset s)) { (inReset s).store with sincePwr := [] }) { active := [0], railsUp := false }

theorem poweredOn_held (s : State) : ResetHeld s (poweredOn s) := by
  obtain ⟨T, hT, -⟩ := inReset_over s
  rw [poweredOn, hT]
  exact resetOver_held s T [] { active := [0] } ⟨rfl, rfl, rfl, rfl, rfl, rfl⟩

theorem powerLost_held (s : State) : ResetHeld s (powerLost s) := by
  obtain ⟨T, hT, -⟩ := inReset_over s
  rw [powerLost, hT]
  exact resetOver_held s [] [] { active := [0], railsUp := false } ⟨rfl, rfl, rfl, rfl, rfl, rfl⟩

theorem powerOn_held (s : State) : ∃ t, exec .powerOnReset s = .next t ∧ ResetHeld s t ∧ t.rst.active = [0] ∧ t.rst.cause0 = 0x01000001 ∧ t.rst.cause1 = 0 ∧
    t.store.sincePwr = [] ∧ t.rst.railsUp = true :=
  ⟨poweredOn s, rfl, poweredOn_held s, rfl, rfl, rfl, rfl, rfl⟩

theorem powerLoss_held (s : State) : ∃ t, exec .powerLoss s = .next t ∧ ResetHeld s t ∧ t.rst.railsUp = false ∧ t.store.sincePwr = [] ∧ t.towers = [] :=
  ⟨powerLost s, rfl, powerLost_held s, rfl, rfl, rfl⟩

/-! ## The record of a source (R385) -/

theorem satInc_byte (x : Nat) (h : x < 256) : (satInc (BitVec.ofNat 8 x)).toNat = min 255 (x + 1) := by
  have hv : (BitVec.ofNat 8 x).toNat = x := by rw [BitVec.toNat_ofNat, Nat.mod_eq_of_lt h]
  rw [satInc]
  by_cases hmax : x = 255
  · subst hmax
    decide
  · have hne : BitVec.ofNat 8 x ≠ BitVec.allOnes 8 := fun he => hmax (hv.symm.trans (congrArg BitVec.toNat he))
    have hone : (1 : BitVec 8).toNat = 1 := rfl
    rw [if_neg hne, BitVec.toNat_add, hv, hone]
    omega

theorem causeSame_fields (c : BitVec 32) {src : Nat} (h : src < 8) : bf (causeSame c src) 31 24 = bf c 31 24 ∧
    bf (causeSame c src) 23 20 = min src (bf c 23 20) ∧ ∀ i < 8, bt (causeSame c src) i = (decide (i = src) || bt c i) := by
  unfold causeSame
  refine ⟨?_, ?_, fun i hi => ?_⟩
  · rw [bf_sb_out _ _ _ _ _ (by omega), bf_sf_out _ _ _ _ _ _ (by omega)]
  · rw [bf_sb_out _ _ _ _ _ (by omega), bf_sf_same _ _ _ _ (by decide)]
    omega
  · by_cases he : i = src
    · rw [he, bt_sb _ _ _ (by omega), decide_eq_true rfl, Bool.true_or]
    · rw [bt_sb_ne _ _ _ _ he, bt_sf_out _ _ _ _ _ (by omega), decide_eq_false he, Bool.false_or]

theorem causeNext_fields (c : BitVec 32) {src : Nat} (h : src < 8) : bf (causeNext c src) 31 24 = min 255 (bf c 31 24 + 1) ∧
    bf (causeNext c src) 23 20 = src ∧ ∀ i < 8, bt (causeNext c src) i = (decide (i = src) || bt c i) := by
  have hcount : bf c 31 24 < 256 := bf_lt ..
  unfold causeNext
  rw [satInc_byte _ hcount]
  refine ⟨?_, ?_, fun i hi => ?_⟩
  · rw [bf_sb_out _ _ _ _ _ (by omega), bf_sf_out _ _ _ _ _ _ (by omega), bf_sf_same _ _ _ _ (by decide)]
    omega
  · rw [bf_sb_out _ _ _ _ _ (by omega), bf_sf_same _ _ _ _ (by decide)]
    omega
  · by_cases he : i = src
    · rw [he, bt_sb _ _ _ (by omega), decide_eq_true rfl, Bool.true_or]
    · rw [bt_sb_ne _ _ _ _ he, bt_sf_out _ _ _ _ _ (by omega), bt_sf_out _ _ _ _ _ (by omega), decide_eq_false he, Bool.false_or]

/-- A recognised source asserts reset and stands in the record. -/
theorem recognise_recognised (s : State) {src : Nat} (h : src < 8) (f : BitVec 32 → BitVec 32) (hf : ∀ c, bf (f c) 23 20 = bf c 23 20) :
    Recognised s (recognise s src f) src := by
  have hcause : (recognise s src f).rst.cause0 = if sameCycle s then causeSame s.rst.cause0 src else causeNext s.rst.cause0 src := rfl
  have hstage : (recognise s src f).rst.cause1 = f (if sameCycle s then s.rst.cause1 else sf s.rst.cause1 23 20 s.rst.stage) := rfl
  have hactive : (recognise s src f).rst.active = if s.rst.active.contains src then s.rst.active else s.rst.active ++ [src] := rfl
  obtain ⟨s1, s2, s3⟩ := causeSame_fields s.rst.cause0 h
  obtain ⟨n1, n2, n3⟩ := causeNext_fields s.rst.cause0 h
  obtain ⟨T, hT, hvset⟩ := inReset_over s
  have hheld : ResetHeld s (recognise s src f) := by
    rw [recognise, hT]
    exact resetOver_held s T s.store.sincePwr _ ⟨rfl, rfl, rfl, rfl, rfl, rfl⟩
  have htower (u : Nat) (hu : u < 8) : (getTower (recognise s src f) u).vset = (getTower s u).vset := by
    rw [recognise, hT]
    exact hvset u hu
  refine ⟨hheld, htower, ?_, ?_, ?_, fun i hi => ?_, ?_, rfl, rfl⟩
  · rw [hactive]
    split
    · next hc => exact ⟨List.contains_iff_mem.1 hc, fun a ha => ha⟩
    · exact ⟨List.mem_append_right _ (List.mem_singleton.2 rfl), fun a ha => List.mem_append_left _ ha⟩
  · rw [hcause]
    split
    · exact s1
    · exact n1
  · rw [hcause]
    split
    · exact s2
    · exact n2
  · rw [hcause]
    split
    · exact s3 i hi
    · exact n3 i hi
  · rw [hstage, hf]
    split
    · rfl
    · exact bf_sf_same _ _ _ _ (by decide)

/-- RST_CAUSE1 after a source whose bits `f` writes. -/
theorem recognise_cause1 (s : State) (src : Nat) (f : BitVec 32 → BitVec 32) :
    ∃ c, (recognise s src f).rst.cause1 = f c := ⟨_, rfl⟩

theorem source_up {s : State} (h : s.rst.railsUp = true) (src : Nat) (f : BitVec 32 → BitVec 32) : source s src f = recognise s src f := if_pos h

theorem brownOut_runs {s : State} (h : s.rst.railsUp = true) (rail : Fin 14) : ∃ t, exec (.brownOutReset rail) s = .next t ∧ Recognised s t 1 ∧
    bf t.rst.cause1 31 27 = rail.val := by
  refine ⟨_, congrArg Host.Outcome.next (source_up h ..), recognise_recognised s (by decide) _ fun c => bf_sf_out _ _ _ _ _ _ (.inl (by decide)), ?_⟩
  obtain ⟨c, hc⟩ := recognise_cause1 s 1 fun c => sf c 31 27 rail.val
  rw [hc, bf_sf_same _ _ _ _ (by decide)]
  exact Nat.mod_eq_of_lt (by omega)

/-- The pin reset_n is low. -/
def resetPinLow (s : State) : State := withPins s { s.pins with resetLow := true }

theorem pinReset_runs {s : State} (h : s.rst.railsUp = true) : ∃ t, exec .pinReset s = .next t ∧
    Recognised { s with pins := { s.pins with resetLow := true } } t 2 ∧ bt t.rst.cause1 19 = false := by
  have hgo : exec .pinReset s = .next (recognise (resetPinLow s) 2 fun c => sb c 19 false) :=
    congrArg Host.Outcome.next ((if_pos h).trans (source_up (s := resetPinLow s) h ..))
  refine ⟨_, hgo, recognise_recognised (resetPinLow s) (by decide) _ fun c => bf_sb_out _ _ _ _ _ (.inr (by decide)), ?_⟩
  obtain ⟨c, hc⟩ := recognise_cause1 (resetPinLow s) 2 fun c => sb c 19 false
  rw [hc]
  exact bt_sb _ _ _ (by decide)

theorem keystoneRuns_of {s : State} (h1 : 1 ≤ s.rst.stage) (h2 : s.key.halted = false) : keystoneRuns s = true := by
  rw [keystoneRuns, decide_eq_true h1, h2]
  rfl

theorem watchdog_runs {s : State} (h : s.rst.railsUp = true) (h1 : 1 ≤ s.rst.stage) (h2 : s.key.halted = false) : ∃ t, exec .watchdogReset s = .next t ∧
    Recognised s t 3 :=
  ⟨_, congrArg Host.Outcome.next ((if_pos (keystoneRuns_of h1 h2)).trans (source_up h ..)), recognise_recognised s (by decide) id fun _ => rfl⟩

theorem watchdog_halted {s : State} (h : s.key.halted = true) : exec .watchdogReset s = .next s := by
  refine congrArg Host.Outcome.next (if_neg ?_)
  rw [keystoneRuns, h, Bool.not_true, Bool.and_false]
  exact Bool.false_ne_true

theorem softwareReset_none {s : State} (h : s.rst.softDue = none) : exec .softwareReset s = .next s := by
  have hexec : exec .softwareReset s = execSoftwareReset s := rfl
  rw [hexec, execSoftwareReset, h]

theorem softwareReset_early {s : State} {τ : Nat} (h : s.rst.softDue = some τ) (hlt : s.now < τ) : exec .softwareReset s = .next s := by
  have hexec : exec .softwareReset s = execSoftwareReset s := rfl
  rw [hexec, execSoftwareReset, h]
  exact congrArg Host.Outcome.next (if_neg (Nat.not_le.2 hlt))

theorem softwareReset_runs {s : State} (h : s.rst.railsUp = true) {τ : Nat} (hdue : s.rst.softDue = some τ) (hle : τ ≤ s.now) (hmb : s.rst.softMb < 4) :
    ∃ t, exec .softwareReset s = .next t ∧ Recognised s t 4 ∧ bf t.rst.cause1 26 25 = s.rst.softMb := by
  have hexec : exec .softwareReset s = execSoftwareReset s := rfl
  have hgo : exec .softwareReset s = .next (recognise s 4 fun c => sf c 26 25 s.rst.softMb) := by
    rw [hexec, execSoftwareReset, hdue]
    exact congrArg Host.Outcome.next ((if_pos hle).trans (source_up h ..))
  refine ⟨_, hgo, recognise_recognised s (by decide) _ fun c => bf_sf_out _ _ _ _ _ _ (.inl (by decide)), ?_⟩
  obtain ⟨c, hc⟩ := recognise_cause1 s 4 fun c => sf c 26 25 s.rst.softMb
  rw [hc, bf_sf_same _ _ _ _ (by decide)]
  exact Nat.mod_eq_of_lt hmb

theorem debugReset_runs {s : State} (h : s.rst.railsUp = true) (hdbg : s.pins.dbgEn = true) (hact : s.rst.active = []) :
    ∃ t, exec .debugReset s = .next t ∧ Recognised s t 5 :=
  ⟨_, congrArg Host.Outcome.next ((if_pos ⟨hdbg, hact⟩).trans (source_up h ..)), recognise_recognised s (by decide) id fun _ => rfl⟩

theorem debugReset_ignored {s : State} (h : s.pins.dbgEn = false ∨ s.rst.active ≠ []) : exec .debugReset s = .next s := by
  refine congrArg Host.Outcome.next (if_neg ?_)
  rintro ⟨hd, ha⟩
  exact h.elim (fun h => Bool.false_ne_true (h.symm.trans hd)) fun h => h ha

theorem refclkFailure_runs {s : State} (h : s.rst.railsUp = true) : ∃ t, exec .refclkFailureReset s = .next t ∧ Recognised s t 6 :=
  ⟨_, congrArg Host.Outcome.next (source_up h ..), recognise_recognised s (by decide) id fun _ => rfl⟩

theorem lockup_runs {s : State} (h : s.rst.railsUp = true) (h1 : 1 ≤ s.rst.stage) (b : Bool) : ∃ t, exec (.keystoneLockupReset b) s = .next t ∧
    Recognised s t 7 ∧ bt t.rst.cause1 24 = b := by
  refine ⟨_, congrArg Host.Outcome.next ((if_pos h1).trans (source_up h ..)), recognise_recognised s (by decide) _ fun c => bf_sb_out _ _ _ _ _ (.inl (by decide)), ?_⟩
  obtain ⟨c, hc⟩ := recognise_cause1 s 7 fun c => sb c 24 b
  rw [hc]
  exact bt_sb _ _ _ (by decide)

/-! ## The end of a source (R386) -/

theorem sourceLength_eq (k : Nat) : sourceLength k = if k ∈ [3, 4, 5, 7] then 10000 else if k = 6 then 1000000 else 0 := by
  unfold sourceLength
  split
  case h_6 k h3 h4 h5 h7 h6 =>
    rw [if_neg (by simp only [List.mem_cons, List.not_mem_nil, or_false]; rintro (h | h | h | h) <;> contradiction), if_neg h6]
  all_goals rfl

theorem sourceOver_iff (s : State) (k : Nat) : sourceOver s k = true ↔ ∀ τ, (k, τ) ∈ s.rst.since → τ + sourceLength k ≤ s.now := by
  unfold sourceOver
  rw [List.all_eq_true]
  simp only [Bool.or_eq_true, decide_eq_true_eq]
  refine ⟨fun h τ hm => (h (k, τ) hm).resolve_left fun hn => hn rfl, fun h p hp => ?_⟩
  obtain ⟨a, τ⟩ := p
  by_cases he : a = k
  · subst he
    exact .inr (h τ hp)
  · exact .inl he

theorem resetSourceEnd_runs {s : State} (hup : s.rst.railsUp = true) (k : Fin 8) :
    (∀ τ, (k.val, τ) ∈ s.rst.since → k.val ∈ [3, 4, 5, 7] → s.now < τ + 10000 → exec (.resetSourceEnd k) s = .next s) ∧
    ((∀ τ, (k.val, τ) ∈ s.rst.since → τ + (if k.val ∈ [3, 4, 5, 7] then 10000 else if k.val = 6 then 1000000 else 0) ≤ s.now) →
      ∃ t, exec (.resetSourceEnd k) s = .next t ∧
        t.rst = { s.rst with active := s.rst.active.filter fun a => decide (a ≠ k.val) } ∧ (k.val ≠ 2 → t.pins = s.pins)) := by
  have hexec : exec (.resetSourceEnd k) s = execResetSourceEnd k s := rfl
  rw [hexec]
  unfold execResetSourceEnd
  refine ⟨fun τ hm hk hlt => if_pos (Bool.eq_false_iff.2 fun ho => ?_), fun h => ?_⟩
  · have hle := (sourceOver_iff s k.val).1 ho τ hm
    rw [sourceLength_eq, if_pos hk] at hle
    omega
  · have ho : sourceOver s k.val = true := (sourceOver_iff s k.val).2 fun τ hm => by
      rw [sourceLength_eq]
      exact h τ hm
    rw [if_neg (by rw [ho]; decide)]
    refine ⟨_, congrArg Host.Outcome.next (if_pos hup), ?_, fun h2 => ?_⟩
    · by_cases h2 : k.val = 2
      · rw [if_pos h2]
        rfl
      · rw [if_neg h2]
        rfl
    · rw [if_neg h2]
      rfl

end Sys2Proof.Machine
end

section
/-!
PROOF. The release of reset, steps 1 to 3 (R387 to R389, R395, R396).
-/

namespace Sys2Proof.Machine

/-! ## The steps -/

/-- The step that follows stage `n`. -/
def releaseStep (s : State) (b : BootRead) : Nat → State
  | 0 => stepOne s b
  | 1 => stepTwo s
  | 2 => stepThree s b
  | 3 => if mayFour s then stepFour s else s
  | 4 => stepFive s b
  | 5 => withRst s { s.rst with stage := 6 }
  | 6 => stepSeven s
  | 7 => stepEight s
  | 8 => if s.rst.memDone then withRst s { s.rst with stage := 9 } else s
  | _ => s

/-- No source is active, the rails are up and no shutdown is latched. -/
structure MayRelease (s : State) : Prop where
  active : s.rst.active = []
  rails : s.rst.railsUp = true
  on : s.rst.off = false

theorem resetReleaseStep_eq {s : State} (h : MayRelease s) (b : BootRead) : exec (.resetReleaseStep b) s = .next (releaseStep s b s.rst.stage) := by
  have hexec : exec (.resetReleaseStep b) s = execResetReleaseStep b s := rfl
  have hgo : ¬ (s.rst.active ≠ [] ∨ (!s.rst.railsUp) = true ∨ s.rst.off = true) := by
    rw [h.rails, h.on]
    rintro (h1 | h1 | h1)
    · exact h1 h.active
    · exact Bool.noConfusion h1
    · exact Bool.noConfusion h1
  rw [hexec]
  unfold execResetReleaseStep releaseStep
  rw [if_neg hgo]
  match s.rst.stage with
  | 0 | 1 | 2 | 3 | 4 | 5 | 6 | 7 | 8 => rfl
  | _ + 9 => rfl

theorem resetReleaseStep_at {s : State} (h : MayRelease s) (b : BootRead) {n : Nat} (hn : s.rst.stage = n) :
    exec (.resetReleaseStep b) s = .next (releaseStep s b n) := hn ▸ resetReleaseStep_eq h b

theorem resetReleaseStep_waits {s : State} (b : BootRead) (h : s.rst.active ≠ [] ∨ s.rst.railsUp = false ∨ s.rst.off = true) :
    exec (.resetReleaseStep b) s = .next s :=
  if_pos (h.imp_right fun h => h.imp_left fun h => by rw [h]; rfl)

/-! ## Steps 1 and 2 (R342, R387, R396) -/

theorem rasTo_page0 (s : State) (code : Code) (kind queue : Nat) (unit : BitVec 32) (ctx detail : Nat) :
    ∀ m, m ≠ 0 → getMbox (rasTo s [0] code kind queue unit ctx detail) m = getMbox s m := by
  intro m hm
  obtain ⟨-, h2, -⟩ := forEach_rasToRing (rasBytes s code kind queue unit ctx detail) [0] s (by decide)
  exact h2 m fun h => hm (List.mem_singleton.1 h)

theorem stepOne_boots {s : State} {b : BootRead} (hf : b.flash = true) (hj : b.journal = true) (ht : (journalOf s).trial = none)
    (hs : slotSealed (slotOf s (journalOf s).committed) = true) : stepOne s b = { s with
      store := { s.store with flashOk := true }
      rst := { s.rst with stage := 1, slot := (journalOf s).committed }
      key := { s.key with trial := false } } := by
  have hjournal : journalOf (withStore s { s.store with flashOk := b.flash }) = journalOf s := rfl
  have hboot : bootSlot (withStore s { s.store with flashOk := b.flash }) (journalOf s) = some ((journalOf s).committed, false) := by
    rw [bootSlot, ht]
    exact if_pos hs
  unfold stepOne
  dsimp only
  rw [hjournal, hboot, hf, hj]
  rfl

theorem stepOne_recovers {s : State} {b : BootRead} (h : b.flash = false ∨ b.journal = false) : (stepOne s b).rst.stage = 1 ∧
    (stepOne s b).rst.recovery = true ∧ ∀ m, m ≠ 0 → getMbox (stepOne s b) m = getMbox s m := by
  have hboth : (b.flash && b.journal) = false := by
    rcases h with h | h
    · rw [h, Bool.false_and]
    · rw [h, Bool.and_false]
  have hgo : stepOne s b = rasTo (withRst (withStore s { s.store with flashOk := b.flash }) { s.rst with stage := 1, recovery := true }) [0] St.ok 6 0xFFFF
      (unitId (withRst (withStore s { s.store with flashOk := b.flash }) { s.rst with stage := 1, recovery := true }) 0 0) 0xFFFF 0 := by
    unfold stepOne
    dsimp only
    rw [hboth]
    rfl
  have hrst (t : State) (u : BitVec 32) : (rasTo t [0] St.ok 6 0xFFFF u 0xFFFF 0).rst = t.rst := by
    have h : RasSide t (rasTo t [0] St.ok 6 0xFFFF u 0xFFFF 0) := rasTo_ras (.refl t)
    rw [h]
  rw [hgo, hrst]
  exact ⟨rfl, rfl, rasTo_page0 _ _ _ _ _ _ _⟩

/-- The Plumb count right after its start. -/
def plumbStarted (s : State) : State := withPlumb (withRst s { s.rst with stage := 2 }) { s.plumb with running := true, count := 0 }

theorem plumbCheck_sourceless {s : State} (hrun : s.plumb.running = true) (hroot : plumbRoot s = false) (hport : plumbPort s = none) :
    plumbCheck s = withPlumb s { s.plumb with holdover := true, locked := false, rate := 0, goodSince := none, badSince := none } := by
  have hgo : ¬ (!s.plumb.running) = true := fun h => Bool.false_ne_true ((congrArg not hrun).symm.trans h)
  have hsrc : (if s.plumb.stuck = true then none else plumbPort s) = none := by
    rw [hport, ite_self]
  rw [plumbCheck, if_neg hgo, if_neg (by rw [hroot]; decide), hsrc]

theorem plumbCheck_running (s : State) : (plumbCheck s).plumb.running = s.plumb.running := by
  unfold plumbCheck
  dsimp only
  split
  · rfl
  · split
    · rfl
    · split <;> rfl

theorem stepTwo_starts (s : State) : stepTwo s = { s with rst := { s.rst with stage := 2 }, plumb := (stepTwo s).plumb } ∧
    (stepTwo s).plumb.running = true ∧ (stepTwo s).plumb.count = 0 ∧ (stepTwo s).plumb.cfg = s.plumb.cfg ∧
    (plumbRoot s = false → plumbPort s = none → (stepTwo s).plumb.holdover = true ∧ (stepTwo s).plumb.locked = false) := by
  have heq : stepTwo s = plumbCheck (plumbStarted s) := rfl
  obtain ⟨k, hk, hcount, hcfg, -⟩ := plumbCheck_plumb (plumbStarted s)
  rw [heq]
  refine ⟨?_, plumbCheck_running _, ?_, ?_, fun hroot hport => ?_⟩
  · rw [hk]
    rfl
  · rw [hk]
    exact hcount
  · rw [hk]
    exact hcfg
  · have hp : plumbPort (plumbStarted s) = none := hport
    rw [plumbCheck_sourceless (s := plumbStarted s) rfl hroot hp]
    exact ⟨rfl, rfl⟩

/-! ## What step 3 keeps out of service (R389) -/

/-- A lane that a link leaves out. -/
def LaneOut (k : Lintel) (n : Nat) : Prop := k.retired = true ∨ n ∈ k.bad

/-- Units may leave service, and none returns; nothing else of the package changes but the settings of towers and ports. -/
structure UnitSide (a t : State) : Prop where
  rest : t = { a with
    hbm := t.hbm, towers := t.towers, cores := t.cores, lintel := t.lintel, mortar := t.mortar, span := t.span
    power := { a.power with mods := t.power.mods, doms := t.power.doms }
    key := { a.key with masonGone := t.key.masonGone } }
  core : ∀ c, (getCore a c).retired = true → (getCore t c).retired = true
  channel : ∀ k, (getMod a k).st = .retired → (getMod t k).st = .retired
  lane : ∀ l n, LaneOut (getLintel a l) n → LaneOut (getLintel t l) n

theorem UnitSide.refl (s : State) : UnitSide s s := ⟨rfl, fun _ h => h, fun _ h => h, fun _ _ h => h⟩

theorem UnitSide.trans {a s t : State} (h : UnitSide a s) (g : UnitSide s t) : UnitSide a t :=
  ⟨by rw [g.rest, h.rest], fun c hc => g.core c (h.core c hc), fun k hk => g.channel k (h.channel k hk), fun l n hl => g.lane l n (h.lane l n hl)⟩

theorem forEach_unitSide {α : Type} {f : State → α → State} (hf : ∀ s x, UnitSide s (f s x)) (l : List α) (s : State) : UnitSide s (forEach s l f) :=
  forEach_invariant (I := UnitSide s) (fun u x hu => hu.trans (hf u x)) l s (.refl s)

theorem unitSide_ite {c : Prop} [Decidable c] {a s t : State} (h : UnitSide a s) (g : UnitSide a t) : UnitSide a (if c then s else t) := by
  split
  · exact h
  · exact g

theorem unitSide_modTower (s : State) (u : Nat) (f : TowerSt → TowerSt) : UnitSide s (modTower s u f) := ⟨rfl, fun _ h => h, fun _ h => h, fun _ _ h => h⟩

theorem unitSide_setHbm (s : State) (c : Nat) (k : HbmChan) : UnitSide s (setHbm s c k) := ⟨rfl, fun _ h => h, fun _ h => h, fun _ _ h => h⟩

theorem unitSide_modPort (s : State) (p : Nat) (f : PortSt → PortSt) : UnitSide s (modPort s p f) := ⟨rfl, fun _ h => h, fun _ h => h, fun _ _ h => h⟩

theorem unitSide_setMortar (s : State) (f : Nat) (k : Mortar) : UnitSide s (setMortar s f k) := ⟨rfl, fun _ h => h, fun _ h => h, fun _ _ h => h⟩

theorem unitSide_setDom (s : State) (d : Nat) (k : Dom) : UnitSide s (setDom s d k) := ⟨rfl, fun _ h => h, fun _ h => h, fun _ _ h => h⟩

theorem unitSide_modCore (s : State) (i : Nat) {f : CoreSt → CoreSt} (hf : ∀ k, k.retired = true → (f k).retired = true) : UnitSide s (modCore s i f) := by
  refine ⟨rfl, fun c hc => ?_, fun _ h => h, fun _ _ h => h⟩
  by_cases he : c = i
  · subst he
    rw [modCore, getCore_setCore_self]
    exact hf _ hc
  · rw [modCore, getCore_setCore_ne _ _ he]
    exact hc

theorem unitSide_setMod (s : State) (i : Nat) {m : Mod} (hm : m.st = .retired) : UnitSide s (setMod s i m) := by
  refine ⟨rfl, fun _ h => h, fun k hk => ?_, fun _ _ h => h⟩
  by_cases he : k = i
  · subst he
    rw [getMod_setMod_same]
    exact hm
  · rw [getMod_setMod_other _ _ he]
    exact hk

theorem unitSide_setLintel (s : State) (i : Nat) {k : Lintel} (hk : ∀ n, LaneOut (getLintel s i) n → LaneOut k n) : UnitSide s (setLintel s i k) := by
  refine ⟨rfl, fun _ h => h, fun _ h => h, fun l n hl => ?_⟩
  by_cases he : l = i
  · subst he
    have hget : getLintel (setLintel s l k) l = k := tget_tset_self ..
    rw [hget]
    exact hk n hl
  · have hget : getLintel (setLintel s i k) l = getLintel s l := tget_tset_ne _ he _
    rw [hget]
    exact hl

theorem unitSide_masonGone (s : State) (m : List Nat) : UnitSide s (withKey s { s.key with masonGone := m }) := ⟨rfl, fun _ h => h, fun _ h => h, fun _ _ h => h⟩

theorem applyRetired_unitSide (s : State) (u : Nat) : UnitSide s (applyRetired s u) := by
  unfold applyRetired
  dsimp only
  split
  · exact (unitSide_modTower ..).trans (forEach_unitSide (fun s c => unitSide_setHbm s c _) _ _)
  · exact unitSide_modCore _ _ fun _ _ => rfl
  · exact unitSide_ite (.refl s) (unitSide_setHbm ..)
  · exact unitSide_modTower ..
  · exact unitSide_setLintel _ _ fun _ _ => .inl rfl
  · exact unitSide_setLintel _ _ fun _ h => h.imp_right (List.mem_cons_of_mem _)
  · exact (unitSide_setMortar ..).trans (forEach_unitSide (fun s c => unitSide_modCore s c (f := fun k => { k with mortarGone := true }) fun _ h => h) _ _)
  · exact unitSide_ite (unitSide_modPort ..) (.refl s)
  · exact unitSide_ite (.refl s) (unitSide_masonGone ..)
  · exact unitSide_setMod _ _ rfl
  · exact unitSide_modTower ..
  · exact .refl s

theorem applyRetired_core (s : State) {c : Nat} (hc : c < 2048) : (getCore (applyRetired s (unitCode 2 c)) c).retired = true := by
  have hi : unitCode 2 c % 2048 = c := by
    unfold unitCode
    omega
  have hq : unitCode 2 c / 2048 = 2 := by
    unfold unitCode
    omega
  unfold applyRetired
  rw [hi, hq]
  exact congrArg CoreSt.retired (getCore_setCore_self ..)

theorem applyRetired_channel (s : State) {k : Nat} (hk : k < 2048) : (getMod (applyRetired s (unitCode 13 k)) k).st = .retired := by
  have hi : unitCode 13 k % 2048 = k := by
    unfold unitCode
    omega
  have hq : unitCode 13 k / 2048 = 13 := by
    unfold unitCode
    omega
  unfold applyRetired
  rw [hi, hq]
  exact congrArg Mod.st (getMod_setMod_same ..)

/-- What the step of one entry reaches and every step keeps stands after the list. -/
theorem forEach_covers {α : Type} {f : State → α → State} {Q : State → Prop} {x : α} (hx : ∀ s, Q (f s x)) (hkeep : ∀ s y, Q s → Q (f s y)) :
    ∀ (l : List α) (s : State), x ∈ l → Q (forEach s l f)
  | [], _, h => absurd h List.not_mem_nil
  | y :: l, s, h => by
    rcases List.mem_cons.1 h with he | hm
    · subst he
      exact forEach_invariant (I := Q) hkeep l (f s x) (hx s)
    · exact forEach_covers hx hkeep l (f s y) hm

/-! ## Step 3 (R388) -/

/-- The settings in force stand in the registers that R388 names. -/
structure SettingsIn (t : State) : Prop where
  drv : t.host.drv = t.key.sets.drv
  cap : t.power.cap = t.key.sets.cap
  freq : t.power.freq = t.key.sets.freq
  plumb : t.plumb.cfg = t.key.sets.plumb
  tower : bf t.memcfg 31 30 = bit t.key.sets.tower

theorem SettingsIn.units {s t : State} (h : SettingsIn s) (g : UnitSide s t) : SettingsIn t := by
  rw [g.rest]
  exact ⟨h.drv, h.cap, h.freq, h.plumb, h.tower⟩

/-- The registers of Span identity and Plumb are written. -/
def settingsSpan (s : State) : State :=
  let impl := BitVec.ofNat 8 (hdrProto (headerOf s s.rst.slot))
  let s1 := withSpan s { s.span with id := s.key.sets.spanId &&& 0x81FF00FF, protoImpl := impl, protoAct := protoStart impl s.key.sets.proto }
  withPlumb s1 { s1.plumb with cfg := s.key.sets.plumb, cfgShadow := s.key.sets.plumb }

/-- The registers of the host port, of memory and of power are written. -/
def settingsPower (v : Settings) (s : State) : State :=
  let s3 := { withHost s { s.host with drv := v.drv } with memcfg := sf s.memcfg 31 30 (bit v.tower) }
  withPower s3 { s3.power with cap := v.cap, capNext := v.cap, freq := v.freq, freqNext := v.freq }

/-- The settings of Quarry units and the asymmetries of ports are written. -/
def settingsUnits (s u : State) : State :=
  let u1 := forEach u (List.range 8) fun u t => modTower u t fun w => { w with part := sf w.part 15 0 (tget 0x5000 s.key.sets.kinds t).toNat }
  forEach u1 (List.range 18) fun u p => modPort u p fun k => { k with asym := tget 0 u.key.cal.asym p }

theorem writeSettings_eq (s : State) : writeSettings s = settingsUnits s (settingsPower s.key.sets (plumbCheck (settingsSpan s))) := by
  rw [writeSettings, settingsUnits, settingsPower, settingsSpan]

theorem settingsUnits_units (s u : State) : UnitSide u (settingsUnits s u) :=
  (forEach_unitSide (fun s t => unitSide_modTower s t _) _ _).trans (forEach_unitSide (fun s p => unitSide_modPort s p _) _ _)

theorem bit_lt (b : Bool) : bit b < 2 := by
  cases b <;> decide

theorem settingsPower_sets {v : Settings} {s : State} (hkey : s.key.sets = v) (hcfg : s.plumb.cfg = v.plumb) : SettingsIn (settingsPower v s) := by
  have hbit := bit_lt v.tower
  subst hkey
  exact ⟨rfl, rfl, rfl, hcfg, (bf_sf_same _ _ _ _ (by decide)).trans (Nat.mod_eq_of_lt (by omega))⟩

theorem plumbCheck_settingsSpan (s : State) : (plumbCheck (settingsSpan s)).key = s.key ∧ (plumbCheck (settingsSpan s)).rst = s.rst ∧
    (plumbCheck (settingsSpan s)).plumb.cfg = s.key.sets.plumb := by
  obtain ⟨k, hk, -, hcfg, -⟩ := plumbCheck_plumb (settingsSpan s)
  rw [hk]
  exact ⟨rfl, rfl, hcfg⟩

theorem writeSettings_sets (s : State) : SettingsIn (writeSettings s) ∧ (writeSettings s).rst = s.rst := by
  obtain ⟨hkey, hrst, hcfg⟩ := plumbCheck_settingsSpan s
  rw [writeSettings_eq]
  generalize plumbCheck (settingsSpan s) = u at *
  have hunits := settingsUnits_units s (settingsPower s.key.sets u)
  refine ⟨(settingsPower_sets (congrArg KeySt.sets hkey) hcfg).units hunits, ?_⟩
  rw [hunits.rest]
  exact hrst

theorem readSettings_stage (s : State) (b : BootRead) : (readSettings s b).rst.stage = s.rst.stage := by
  unfold readSettings
  dsimp only
  split
  · rfl
  · split <;> rfl

/-- What Shuchaz has read and written before it keeps units out. -/
def settledIn (s : State) (b : BootRead) : State :=
  writeSettings (readSettings (withKey (readAreas s b) { (readAreas s b).key with
    cal := (newest (readAreas s b).store.cal).getD {}, recs := (newest (readAreas s b).store.units).getD {}, calDefault := !b.factory }) b)

theorem settledIn_sets (s : State) (b : BootRead) : SettingsIn (settledIn s b) ∧ (settledIn s b).rst.stage = s.rst.stage := by
  obtain ⟨h1, h2⟩ := writeSettings_sets (readSettings (withKey (readAreas s b) { (readAreas s b).key with
    cal := (newest (readAreas s b).store.cal).getD {}, recs := (newest (readAreas s b).store.units).getD {}, calDefault := !b.factory }) b)
  refine ⟨h1, ?_⟩
  rw [settledIn, h2, readSettings_stage]
  rfl

/-- The units that are recorded out of service are kept out. -/
def keptOut (s : State) : State := forEach s s.key.recs.retired.dedup applyRetired

/-- Half-slices without units go off, and set points move. -/
def halvesOff (s : State) : State :=
  forEach (forEach s (List.range 16) fun s h => if halfOff s h then setDom s (64 + h) { getDom s (64 + h) with st := .off, target := false } else s)
    (List.range 8) moveVcore

theorem prepare_eq (s : State) (b : BootRead) : prepare s b = halvesOff (keptOut (settledIn s b)) := rfl

theorem halvesOff_units (s : State) : UnitSide s (halvesOff s) :=
  (forEach_unitSide (fun s _ => unitSide_ite (unitSide_setDom ..) (.refl s)) _ _).trans (forEach_unitSide (fun s u => unitSide_modTower s u _) _ _)

theorem keptOut_units (s : State) : UnitSide s (keptOut s) := forEach_unitSide applyRetired_unitSide _ _

theorem UnitSide.recs {s t : State} (h : UnitSide s t) : t.key.recs = s.key.recs := by
  rw [h.rest]

theorem UnitSide.stage {s t : State} (h : UnitSide s t) : t.rst = s.rst := by
  rw [h.rest]

theorem keptOut_core (s : State) {c : Nat} (hc : c < 2048) (h : unitCode 2 c ∈ s.key.recs.retired) : (getCore (keptOut s) c).retired = true :=
  forEach_covers (Q := fun t => (getCore t c).retired = true) (fun t => applyRetired_core t hc) (fun t u hq => (applyRetired_unitSide t u).core c hq)
    _ _ (List.mem_dedup.2 h)

theorem keptOut_channel (s : State) {k : Nat} (hk : k < 2048) (h : unitCode 13 k ∈ s.key.recs.retired) : (getMod (keptOut s) k).st = .retired :=
  forEach_covers (Q := fun t => (getMod t k).st = .retired) (fun t => applyRetired_channel t hk) (fun t u hq => (applyRetired_unitSide t u).channel k hq)
    _ _ (List.mem_dedup.2 h)

theorem prepare_prepares (s : State) (b : BootRead) : SettingsIn (prepare s b) ∧ (prepare s b).rst.stage = s.rst.stage ∧
    (∀ c < 256, unitCode 2 c ∈ (prepare s b).key.recs.retired → (getCore (prepare s b) c).retired = true) ∧
    ∀ k < 18, unitCode 13 k ∈ (prepare s b).key.recs.retired → (getMod (prepare s b) k).st = .retired := by
  obtain ⟨hsets, hstage⟩ := settledIn_sets s b
  rw [prepare_eq]
  generalize settledIn s b = u at *
  have hout := keptOut_units u
  have hoff := halvesOff_units (keptOut u)
  have hall := hout.trans hoff
  refine ⟨hsets.units hall, ?_, fun c hc h => ?_, fun k hk h => ?_⟩
  · rw [hall.stage, hstage]
  · rw [hall.recs] at h
    exact hoff.core c (keptOut_core u (by omega) h)
  · rw [hall.recs] at h
    exact hoff.channel k (keptOut_channel u (by omega) h)

/-- Stage 3 is reached. -/
def atThree (s : State) : State := withRst s { s.rst with stage := 3 }

theorem stepThree_shut {s : State} (b : BootRead) (h : bt s.rst.cause1 19 = true) : RasSide { s with rst := { s.rst with stage := 3 } } (stepThree s b) ∧
    ∀ m, m ≠ 0 → getMbox (stepThree s b) m = getMbox s m := by
  have hgo : stepThree s b = rasTo (atThree s) [0] St.ok 6 0xFFFF (unitId (atThree s) 0 0) 0xFFFF 0 := if_pos h
  rw [hgo]
  exact ⟨rasTo_ras (.refl (atThree s)), rasTo_page0 _ _ _ _ _ _ _⟩

theorem stepThree_prepares {s : State} (b : BootRead) (h : bt s.rst.cause1 19 = false) (hr : s.rst.recovery = false) : stepThree s b = prepare (atThree s) b := by
  have hshut : ¬ shutDown (atThree s) = true := fun ht => Bool.false_ne_true (h.symm.trans ht)
  exact (if_neg hshut).trans (if_neg (fun ht => Bool.false_ne_true (hr.symm.trans ht)))

end Sys2Proof.Machine
end

section
/-!
PROOF. The release of reset, steps 4 to 9, the memory steps and DONE (R282, R289 to R293, R390 to R393).
-/

namespace Sys2Proof.Machine

/-! ## Step 4 -/

theorem mayFour_false {s : State} (h : m0Only s = true ∨ ∃ u < 8, (getTower s u).vset ≠ (getTower s u).vtarget) : mayFour s = false := by
  unfold mayFour
  rcases h with h | ⟨u, hu, hne⟩
  · rw [h]
    rfl
  · have hall : ((List.range 8).all fun t => decide ((getTower s t).vset = (getTower s t).vtarget)) = false := by
      refine List.all_eq_false.2 ⟨u, List.mem_range.2 hu, ?_⟩
      rw [decide_eq_true_eq]
      exact hne
    rw [hall, Bool.and_false]

theorem forEach_setMortar_stands {α : Type} {f : State → α → Nat} {k : State → α → Mortar} (l : List α) (s : State) :
    (forEach s l fun s x => setMortar s (f s x) (k s x)).rst = s.rst ∧ (forEach s l fun s x => setMortar s (f s x) (k s x)).host = s.host :=
  forEach_invariant (I := fun t => t.rst = s.rst ∧ t.host = s.host) (f := fun s x => setMortar s (f s x) (k s x)) (fun _ _ h => h) l s ⟨rfl, rfl⟩

theorem stepFour_serves (s : State) : (stepFour s).rst = { s.rst with stage := 4 } ∧ (stepFour s).host = { s.host with cfgReady := true } := by
  obtain ⟨h1, h2⟩ := forEach_setMortar_stands (f := fun _ r => r.1) (k := fun s r => { getMortar s r.1 with steered := (getMortar s r.1).steered ++ [(r.2.1, r.2.2)] })
    s.key.recs.steered s
  unfold stepFour
  dsimp only
  generalize (forEach s s.key.recs.steered fun s r => setMortar s r.1 { getMortar s r.1 with steered := (getMortar s r.1).steered ++ [(r.2.1, r.2.2)] }) = u at *
  exact ⟨congrArg (fun r : ResetSt => { r with stage := 4 }) h1, congrArg (fun r : HostSt => { r with cfgReady := true }) h2⟩

/-! ## Step 5 (R28, R29, R31, R390) -/

/-- Reports may wait, and a lane that is out stays out. -/
structure LaneSide (a t : State) : Prop where
  rst : t.rst = { a.rst with late := t.rst.late }
  lane : ∀ l n, LaneOut (getLintel a l) n → LaneOut (getLintel t l) n

theorem LaneSide.refl (s : State) : LaneSide s s := ⟨rfl, fun _ _ h => h⟩

theorem LaneSide.trans {a s t : State} (h : LaneSide a s) (g : LaneSide s t) : LaneSide a t :=
  ⟨by rw [g.rst, h.rst], fun l n hl => g.lane l n (h.lane l n hl)⟩

theorem forEach_laneSide {α : Type} {f : State → α → State} (hf : ∀ s x, LaneSide s (f s x)) (l : List α) (s : State) : LaneSide s (forEach s l f) :=
  forEach_invariant (I := LaneSide s) (fun u x hu => hu.trans (hf u x)) l s (.refl s)

theorem UnitSide.laneSide {s t : State} (h : UnitSide s t) : LaneSide s t := by
  refine ⟨?_, h.lane⟩
  rw [h.stage]

theorem laneSide_of {s t : State} (hr : t.rst = s.rst) (hl : t.lintel = s.lintel) : LaneSide s t := by
  refine ⟨by rw [hr], fun l n h => ?_⟩
  rw [getLintel, hl]
  exact h

theorem reportLate_laneSide (s : State) (code : Code) (kind : Nat) (unit : BitVec 32) (detail : Nat) : LaneSide s (reportLate s code kind unit detail) :=
  ⟨rfl, fun _ _ h => h⟩

theorem recLane_laneSide (s : State) (u : Nat) (order : Option Nat) : LaneSide s (recLane s u order) := by
  unfold recLane
  dsimp only
  split
  · exact laneSide_of rfl rfl
  · exact laneSide_of rfl rfl

theorem recUnits_laneSide (s : State) (f : UnitRecs → UnitRecs) (order : Option Nat) : LaneSide s (recUnits s f order) := laneSide_of rfl rfl

theorem recRetire_laneSide (s : State) (u : Nat) (order : Option Nat) : LaneSide s (recRetire s u order) := laneSide_of rfl rfl

theorem getLintel_setLintel_same (s : State) (l : Nat) (k : Lintel) : getLintel (setLintel s l k) l = k := tget_tset_self ..

theorem laneSide_ite {c : Prop} [Decidable c] {a s t : State} (h : LaneSide a s) (g : LaneSide a t) : LaneSide a (if c then s else t) := by
  split
  · exact h
  · exact g

/-- The lane is among those that its link leaves out. -/
def laneDropped (s : State) (l lane : Nat) : State := setLintel s l { getLintel s l with bad := lane :: (getLintel s l).bad }

/-- What follows the drop of a lane. -/
def laneReported (s : State) (l lane : Nat) : State :=
  let s1 := recLane s (unitCode 9 (18 * l + lane)) none
  let s2 := reportLate s1 St.laneRetired 1 (unitId s1 9 (18 * l + lane)) lane
  if lane < 16 then reportLate s2 St.linkDegraded 3 (unitId s2 8 l) 0 else s2

theorem laneFails_eq (s : State) (l lane : Nat) : laneFails s l lane =
    if (getLintel s l).retired ∨ (getLintel s l).bad.contains lane then s else laneReported (laneDropped s l lane) l lane := rfl

theorem laneReported_laneSide (s : State) (l lane : Nat) : LaneSide s (laneReported s l lane) := by
  have h := (recLane_laneSide s (unitCode 9 (18 * l + lane)) none).trans
    (reportLate_laneSide _ St.laneRetired 1 (unitId (recLane s (unitCode 9 (18 * l + lane)) none) 9 (18 * l + lane)) lane)
  exact laneSide_ite (h.trans (reportLate_laneSide ..)) h

theorem laneDropped_laneSide (s : State) (l lane : Nat) : LaneSide s (laneDropped s l lane) :=
  (unitSide_setLintel s l (k := { getLintel s l with bad := lane :: (getLintel s l).bad }) fun _ h => h.imp_right (List.mem_cons_of_mem _)).laneSide

theorem laneFails_laneSide (s : State) (l lane : Nat) : LaneSide s (laneFails s l lane) := by
  rw [laneFails_eq]
  exact laneSide_ite (.refl s) ((laneDropped_laneSide ..).trans (laneReported_laneSide ..))

theorem laneFails_out (s : State) (l lane : Nat) : LaneOut (getLintel (laneFails s l lane) l) lane := by
  rw [laneFails_eq]
  split
  · next h => exact h.imp_right List.contains_iff_mem.1
  · refine (laneReported_laneSide (laneDropped s l lane) l lane).lane l lane (.inr ?_)
    rw [laneDropped, getLintel_setLintel_same]
    exact List.mem_cons.2 (.inl rfl)

/-- One step of the training of a link. -/
def trainOne (k : Lintel) (n : Nat) : Lintel :=
  match lintelSpare k with
  | some p => { k with mapped := k.mapped ++ [(n, p)] }
  | none => { k with half := true }

theorem trainOne_keeps (k : Lintel) (n : Nat) : trainOne k n = { k with mapped := (trainOne k n).mapped, half := (trainOne k n).half } := by
  unfold trainOne
  split <;> rfl

theorem foldl_trainOne_keeps : ∀ (l : List Nat) (k : Lintel),
    l.foldl trainOne k = { k with mapped := (l.foldl trainOne k).mapped, half := (l.foldl trainOne k).half }
  | [], _ => rfl
  | n :: l, k => by
    rw [List.foldl_cons, foldl_trainOne_keeps l (trainOne k n)]
    have h := congrArg (fun x : Lintel => { x with mapped := (l.foldl trainOne (trainOne k n)).mapped, half := (l.foldl trainOne (trainOne k n)).half }) (trainOne_keeps k n)
    exact h

/-- A link as its training begins. -/
def trainStart (k : Lintel) : Lintel := { k with mapped := [], half := false }

theorem trainLink_eq (k : Lintel) : trainLink k = ((List.range 16).filter fun n => k.bad.contains n).foldl trainOne (trainStart k) := rfl

/-- Training changes the mapping and the width of a link only. -/
theorem trainLink_keeps (k : Lintel) : trainLink k = { k with mapped := (trainLink k).mapped, half := (trainLink k).half } := by
  rw [trainLink_eq]
  exact (foldl_trainOne_keeps ..)

theorem trainLink_retired (k : Lintel) : (trainLink k).retired = k.retired := by
  rw [trainLink_keeps]

theorem trainLink_bad (k : Lintel) : (trainLink k).bad = k.bad := by
  rw [trainLink_keeps]

theorem trainLink_again (k : Lintel) : trainLink (trainLink k) = trainLink k := by
  have hstart : trainStart (trainLink k) = trainStart k := (congrArg trainStart (trainLink_keeps k) :)
  rw [trainLink_eq (trainLink k), trainLink_bad, hstart, ← trainLink_eq]

theorem lintelGood_trainLink (k : Lintel) : lintelGood (trainLink k) = lintelGood k := by
  rw [lintelGood, trainLink_bad, lintelGood]

theorem trainLink_laneOut {k : Lintel} {n : Nat} (h : LaneOut k n) : LaneOut (trainLink k) n := by
  unfold LaneOut
  rw [trainLink_retired, trainLink_bad]
  exact h

theorem linkTrained_laneSide (s : State) (l : Nat) : LaneSide s (linkTrained s l) := by
  have hset : LaneSide s (setLintel s l (trainLink (getLintel s l))) := (unitSide_setLintel s l fun _ h => trainLink_laneOut h).laneSide
  have hgone : LaneSide s (setLintel s l { trainLink (getLintel s l) with retired := true }) := (unitSide_setLintel s l fun _ _ => .inl rfl).laneSide
  exact laneSide_ite hset ((hgone.trans (recRetire_laneSide ..)).trans (reportLate_laneSide ..))

theorem hubGone_laneSide (s : State) : LaneSide s (hubGone s) := by
  unfold hubGone
  refine laneSide_ite (.refl s) ?_
  have h : RasSide (withKey s { s.key with hubIsolated := true })
      (rasTo (withKey s { s.key with hubIsolated := true }) [0] St.linkDegraded 1 0xFFFF (unitId s 0 0) 0xFFFF 0) := rasTo_ras (.refl _)
  generalize rasTo (withKey s { s.key with hubIsolated := true }) [0] St.linkDegraded 1 0xFFFF (unitId s 0 0) 0xFFFF 0 = t at *
  exact laneSide_of (congrArg State.rst h :) (congrArg State.lintel h :)

theorem applyRetired_all_laneSide (us : List Nat) (s : State) : LaneSide s (forEach s us applyRetired) := (forEach_unitSide applyRetired_unitSide us s).laneSide

theorem isolatedAtStart_laneSide (s : State) (d : Nat) : LaneSide s (isolatedAtStart s d) := by
  unfold isolatedAtStart
  refine laneSide_ite (.refl s) (laneSide_ite (laneSide_ite (.refl s) ?_) (laneSide_ite (hubGone_laneSide s) (laneSide_ite (.refl s) ?_)))
  · exact ((applyRetired_all_laneSide ..).trans (recUnits_laneSide ..)).trans (reportLate_laneSide ..)
  · exact ((applyRetired_all_laneSide ..).trans (recUnits_laneSide ..)).trans (forEach_laneSide (fun s c => reportLate_laneSide ..) _ _)

/-- The failed lanes are out. -/
def lanesFailed (s : State) (ls : List (Fin 24 × Fin 18)) : State := forEach s ls fun s p => laneFails s p.1.val p.2.val

def linksTrained (s : State) : State := forEach s (s.lintel.map Prod.fst) linkTrained

def diesIsolated (s : State) : State := forEach s (List.range 11) isolatedAtStart

/-- Stage 5 is reached. -/
def atFive (s : State) : State := withRst s { s.rst with stage := 5 }

theorem stepFive_eq (s : State) (b : BootRead) : stepFive s b = atFive (diesIsolated (linksTrained (lanesFailed s b.lanes))) := by
  rw [stepFive, atFive, diesIsolated, linksTrained, lanesFailed]

theorem stepFive_lanes (s : State) (b : BootRead) : (stepFive s b).rst = { s.rst with stage := 5, late := (stepFive s b).rst.late } ∧
    ∀ p ∈ b.lanes, (getLintel (stepFive s b) p.1.val).retired = true ∨ p.2.val ∈ (getLintel (stepFive s b) p.1.val).bad := by
  have h1 : LaneSide s (lanesFailed s b.lanes) := forEach_laneSide (fun s p => laneFails_laneSide ..) _ _
  have hout (p : Fin 24 × Fin 18) (hp : p ∈ b.lanes) : LaneOut (getLintel (lanesFailed s b.lanes) p.1.val) p.2.val :=
    forEach_covers (f := fun s (p : Fin 24 × Fin 18) => laneFails s p.1.val p.2.val) (Q := fun t => LaneOut (getLintel t p.1.val) p.2.val) (fun t => laneFails_out t p.1.val p.2.val)
      (fun t q hq => (laneFails_laneSide t q.1.val q.2.val).lane _ _ hq) _ _ hp
  rw [stepFive_eq]
  generalize lanesFailed s b.lanes = u at *
  have h2 : LaneSide u (diesIsolated (linksTrained u)) :=
    (forEach_laneSide (fun s l => linkTrained_laneSide s l) _ _).trans (forEach_laneSide (fun s d => isolatedAtStart_laneSide s d) _ _)
  generalize diesIsolated (linksTrained u) = t at *
  refine ⟨?_, fun p hp => h2.lane _ _ (hout p hp)⟩
  exact congrArg (fun r : ResetSt => { r with stage := 5 }) (h1.trans h2).rst

/-- Of the package only links differ, each as it was or trained. -/
structure Training (s u : State) : Prop where
  rest : u = { s with lintel := u.lintel }
  link : ∀ l, getLintel u l = getLintel s l ∨ getLintel u l = trainLink (getLintel s l)

theorem linkTrained_stays {s u : State} {l : Nat} (hu : Training s u) (h : (trainLink (getLintel s l)).half = true → 8 ≤ lintelGood (getLintel s l)) :
    linkTrained u l = setLintel u l (trainLink (getLintel s l)) := by
  have htrain : trainLink (getLintel u l) = trainLink (getLintel s l) := by
    rcases hu.link l with he | he
    · rw [he]
    · rw [he, trainLink_again]
  unfold linkTrained
  dsimp only
  rw [htrain]
  refine if_pos ?_
  cases hh : (trainLink (getLintel s l)).half with
  | false => exact .inr (.inl rfl)
  | true =>
    refine .inr (.inr ?_)
    rw [lintelGood_trainLink]
    exact h hh

theorem linkTrained_training {s u : State} {l : Nat} (hu : Training s u) (h : (trainLink (getLintel s l)).half = true → 8 ≤ lintelGood (getLintel s l)) :
    Training s (linkTrained u l) ∧ getLintel (linkTrained u l) l = trainLink (getLintel s l) ∧
    ∀ q, getLintel u q = trainLink (getLintel s q) → getLintel (linkTrained u l) q = trainLink (getLintel s q) := by
  rw [linkTrained_stays hu h]
  have hself := getLintel_setLintel_same u l (trainLink (getLintel s l))
  have hother (q : Nat) (hq : q ≠ l) : getLintel (setLintel u l (trainLink (getLintel s l))) q = getLintel u q := tget_tset_ne _ hq _
  refine ⟨⟨?_, fun q => ?_⟩, hself, fun q hq => ?_⟩
  · rw [hu.rest]
    rfl
  · by_cases he : q = l
    · subst he
      exact .inr hself
    · rw [hother q he]
      exact hu.link q
  · by_cases he : q = l
    · subst he
      exact hself
    · rw [hother q he]
      exact hq

theorem forEach_linkTrained {s : State} (h : ∀ l, (trainLink (getLintel s l)).half = true → 8 ≤ lintelGood (getLintel s l)) : ∀ (l : List Nat) (u : State),
    Training s u → Training s (forEach u l linkTrained) ∧ (∀ q ∈ l, getLintel (forEach u l linkTrained) q = trainLink (getLintel s q)) ∧
    ∀ q, getLintel u q = trainLink (getLintel s q) → getLintel (forEach u l linkTrained) q = trainLink (getLintel s q)
  | [], _, hu => ⟨hu, fun _ hq => absurd hq List.not_mem_nil, fun _ hq => hq⟩
  | x :: l, u, hu => by
    obtain ⟨h1, h2, h3⟩ := linkTrained_training hu (h x)
    obtain ⟨g1, g2, g3⟩ := forEach_linkTrained h l (linkTrained u x) h1
    refine ⟨g1, fun q hq => ?_, fun q hq => g3 q (h3 q hq)⟩
    rcases List.mem_cons.1 hq with he | hm
    · subst he
      exact g3 _ h2
    · exact g2 q hm

theorem tget_not_mem {α : Type} (d : α) : ∀ (t : Tab α) (k : Nat), k ∉ t.map Prod.fst → tget d t k = d
  | [], _, _ => rfl
  | (j, x) :: t, k, h => by
    have hj : k ≠ j := fun he => h (List.mem_cons.2 (.inl he))
    rw [tget, if_neg hj]
    split
    · rfl
    · exact tget_not_mem d t k fun hm => h (List.mem_cons_of_mem _ hm)

theorem trainLink_default : trainLink {} = {} := by
  decide

theorem linksTrained_training {s : State} (h : ∀ l, (trainLink (getLintel s l)).half = true → 8 ≤ lintelGood (getLintel s l)) :
    linksTrained s = { s with lintel := (linksTrained s).lintel } ∧ ∀ l, getLintel (linksTrained s) l = trainLink (getLintel s l) := by
  obtain ⟨h1, h2, h3⟩ := forEach_linkTrained h (s.lintel.map Prod.fst) s ⟨rfl, fun _ => .inl rfl⟩
  refine ⟨h1.rest, fun l => ?_⟩
  by_cases hl : l ∈ s.lintel.map Prod.fst
  · exact h2 l hl
  · have hd : getLintel s l = {} := tget_not_mem ({} : Lintel) s.lintel l hl
    refine h3 l ?_
    rw [hd, trainLink_default]

theorem diesIsolated_routed {s : State} (h : ∀ d < 11, dieRouted s d = true) : diesIsolated s = s := by
  have hstep : ∀ (l : List Nat), (∀ d ∈ l, dieRouted s d = true) → forEach s l isolatedAtStart = s := by
    intro l
    induction l with
    | nil => exact fun _ => rfl
    | cons d l ih =>
      intro hl
      have hd : isolatedAtStart s d = s := if_pos (hl d (List.mem_cons.2 (.inl rfl)))
      have hcons : forEach s (d :: l) isolatedAtStart = forEach (isolatedAtStart s d) l isolatedAtStart := rfl
      rw [hcons, hd]
      exact ih fun x hx => hl x (List.mem_cons_of_mem _ hx)
  exact hstep _ fun d hd => h d (List.mem_range.1 hd)

theorem stepFive_trains {s : State} {b : BootRead} (hb : b.lanes = []) (h : ∀ l, (trainLink (getLintel s l)).half = true → 8 ≤ lintelGood (getLintel s l))
    (hr : ∀ d < 11, dieRouted s d = true) : stepFive s b = { s with lintel := (stepFive s b).lintel, rst := { s.rst with stage := 5 } } ∧
      ∀ l, getLintel (stepFive s b) l = trainLink (getLintel s l) := by
  obtain ⟨h1, h2⟩ := linksTrained_training h
  have hrouted (d : Nat) (hd : d < 11) : dieRouted (linksTrained s) d = true := by
    rw [← hr d hd]
    unfold dieRouted
    simp only [h2, trainLink_retired]
  have hgo : stepFive s b = atFive (linksTrained s) := by
    rw [stepFive_eq, hb]
    exact congrArg atFive (diesIsolated_routed hrouted)
  rw [hgo]
  generalize linksTrained s = t at *
  exact ⟨(congrArg (fun v : State => atFive v) h1 :), h2⟩

end Sys2Proof.Machine
end

section
/-!
PROOF. The release of reset, steps 7 and 8, the memory steps and DONE (R276, R282, R289, R391 to R393).
-/

namespace Sys2Proof.Machine

/-! ## Step 7 -/

/-- A core in service joins the free pool at the next epoch. -/
def coreJoins (k : CoreSt) : CoreSt := if k.retired then k else { k with phase := .returning }

def joinCore (s : State) (c : Nat) : State := if (getCore s c).retired then s else modCore s c fun k => { k with phase := .returning }

theorem joinCore_cores {a s : State} (c : Nat) (h : CoresOnly a s) : CoresOnly a (joinCore s c) ∧ (∀ q, q ≠ c → getCore (joinCore s c) q = getCore s q) ∧
    getCore (joinCore s c) c = coreJoins (getCore s c) := by
  unfold joinCore coreJoins
  split
  · exact ⟨h, fun _ _ => rfl, rfl⟩
  · refine ⟨?_, fun q hq => getCore_setCore_ne _ _ hq, getCore_setCore_self ..⟩
    unfold CoresOnly at *
    rw [h]
    rfl

def coresJoined (s : State) : State := forEach s (List.range 256) joinCore

theorem coresJoined_cores (s : State) : CoresOnly s (coresJoined s) ∧ ∀ c < 256, getCore (coresJoined s) c = coreJoins (getCore s c) := by
  obtain ⟨h1, -, h3⟩ := forEach_each (get := getCore) (I := CoresOnly s) (R := fun _ k o => o = coreJoins k) (f := joinCore)
    (fun _ c hu => joinCore_cores c hu) (List.range 256) s List.nodup_range rfl
  exact ⟨h1, fun c hc => h3 c (List.mem_range.2 hc)⟩

/-- Of the package only memory differs. -/
def MemOnly (s t : State) : Prop := t = { s with mem := t.mem, lost := t.lost, owner := t.owner, restored := t.restored }

def freshUnit (s : State) (i : Nat) : State := if qKind s (i / 8) (i % 8) = 2 then freshWindow s (quarryWindow (i / 8) (i % 8)) 0x2000000 else s

theorem freshUnit_mem {a s : State} (i : Nat) (h : MemOnly a s) : MemOnly a (freshUnit s i) := by
  unfold freshUnit
  split
  · unfold MemOnly at *
    rw [h]
    rfl
  · exact h

def unitsFresh (s : State) : State := forEach s (List.range 64) freshUnit

theorem unitsFresh_mem (s : State) : MemOnly s (unitsFresh s) :=
  forEach_invariant (I := MemOnly s) (fun _ i hu => freshUnit_mem i hu) _ s rfl

/-- Stage 7 is reached. -/
def atSeven (s : State) : State := withRst s { s.rst with stage := 7 }

/-- The pin is taken as an alert when it is low. -/
def pinTaken (s : State) : State := if s.pins.butLow then forceButtress (withPower s { s.power with alert := true }) else s

theorem stepSeven_eq (s : State) : stepSeven s = pinTaken (atSeven (unitsFresh (coresJoined s))) := by
  have hjoin : joinCore = fun s c => if (getCore s c).retired then s else modCore s c fun k => { k with phase := .returning } := rfl
  have hfresh : freshUnit = fun s i => if qKind s (i / 8) (i % 8) = 2 then freshWindow s (quarryWindow (i / 8) (i % 8)) 0x2000000 else s := rfl
  rw [stepSeven, pinTaken, atSeven, unitsFresh, coresJoined, hjoin, hfresh]

theorem ClockSide.stands {a t : State} (h : ClockSide a t) : t.rst = a.rst ∧ t.cores = a.cores ∧ t.power.buttress = a.power.buttress := by
  rw [h.rest]
  exact ⟨rfl, rfl, rfl⟩

theorem forceButtress_frame (s : State) : (forceButtress s).rst = s.rst ∧ (forceButtress s).cores = s.cores ∧ (forceButtress s).power.buttress = true := by
  cases hb : s.power.buttress with
  | true =>
    rw [forceButtress_held hb]
    exact ⟨rfl, rfl, hb⟩
  | false =>
    have hside := forceButtress_side hb
    obtain ⟨h1, h2, h3⟩ := (buttressed_clocks s).1.stands
    have hpow := hside.power
    have hrst : (forceButtress s).rst = (buttressed s).rst := by rw [hside]
    have hcores : (forceButtress s).cores = (buttressed s).cores := by rw [hside]
    exact ⟨hrst.trans h1, hcores.trans h2, (congrArg PowerSt.buttress hpow).trans h3⟩

theorem pinTaken_frame (s : State) : (pinTaken s).rst = s.rst ∧ (pinTaken s).cores = s.cores ∧ (s.pins.butLow = true → (pinTaken s).power.buttress = true) ∧
    (s.pins.butLow = false → (pinTaken s).power.buttress = s.power.buttress) := by
  unfold pinTaken
  cases hb : s.pins.butLow with
  | true =>
    obtain ⟨h1, h2, h3⟩ := forceButtress_frame (withPower s { s.power with alert := true })
    exact ⟨h1, h2, fun _ => h3, fun h => Bool.noConfusion h⟩
  | false => exact ⟨rfl, rfl, fun h => Bool.noConfusion h, fun _ => rfl⟩

theorem stepSeven_joins (s : State) : (stepSeven s).rst = { s.rst with stage := 7 } ∧
    (∀ c < 256, (getCore s c).retired = false → (getCore (stepSeven s) c).phase = .returning) ∧
    (∀ c < 256, (getCore s c).retired = true → getCore (stepSeven s) c = getCore s c) ∧
    (s.pins.butLow = true → (stepSeven s).power.buttress = true) ∧ (s.pins.butLow = false → (stepSeven s).power.buttress = s.power.buttress) := by
  obtain ⟨hcores, hjoin⟩ := coresJoined_cores s
  have hmem := unitsFresh_mem (coresJoined s)
  obtain ⟨h1, h2, h3, h4⟩ := pinTaken_frame (atSeven (unitsFresh (coresJoined s)))
  rw [stepSeven_eq]
  generalize coresJoined s = u at *
  generalize unitsFresh u = v at *
  generalize pinTaken (atSeven v) = t at *
  have hrst : v.rst = s.rst := (congrArg State.rst hmem :).trans (congrArg State.rst hcores :)
  have hpins : v.pins = s.pins := (congrArg State.pins hmem :).trans (congrArg State.pins hcores :)
  have hpow : v.power = s.power := (congrArg State.power hmem :).trans (congrArg State.power hcores :)
  have hvcores : t.cores = u.cores := h2.trans (congrArg State.cores hmem :)
  have hget (c : Nat) (hc : c < 256) : getCore t c = coreJoins (getCore s c) := by
    rw [getCore, hvcores]
    exact hjoin c hc
  refine ⟨h1.trans (congrArg (fun r : ResetSt => { r with stage := 7 }) hrst), fun c hc hr => ?_, fun c hc hr => ?_, fun hl => h3 ?_, fun hl => (h4 ?_).trans ?_⟩
  · rw [hget c hc, coreJoins, hr]
    rfl
  · rw [hget c hc, coreJoins, hr]
    rfl
  · exact (congrArg PinSt.butLow hpins).trans hl
  · exact (congrArg PinSt.butLow hpins).trans hl
  · exact congrArg PowerSt.buttress hpow

/-! ## Step 8 -/

/-- A channel takes EN and ILIM from the settings. -/
def settleChannel (v : Settings) (s : State) (k : Nat) : State :=
  let m := tget 0x178 v.mods k
  modEnSet (modIlimSet s k (BitVec.ofNat 8 (bf m 7 0))) k (bt m 8)

theorem modSide_modIlimSet (s : State) (k : Nat) (v : BitVec 8) : ModSide s (modIlimSet s k v) ∧ ∀ q, modCore4 (getMod (modIlimSet s k v) q) = modCore4 (getMod s q) := by
  unfold modIlimSet
  split
  · refine ⟨modSide_setMod .., fun q => ?_⟩
    by_cases hq : q = k
    · subst hq
      rw [getMod_setMod_same]
      rfl
    · rw [getMod_setMod_other _ _ hq]
  · exact ⟨.refl s, fun _ => rfl⟩

theorem modEnSet_side (s : State) (k : Nat) (en : Bool) : ModSide s (modEnSet s k en) ∧ (∀ q, q ≠ k → modCore4 (getMod (modEnSet s k en) q) = modCore4 (getMod s q)) ∧
    ((getMod s k).st ≠ .retired → (getMod (modEnSet s k en) k).en = en) := by
  unfold modEnSet
  dsimp only
  by_cases hskip : (getMod s k).st = .retired ∨ en = (getMod s k).en
  · rw [if_pos hskip]
    exact ⟨.refl s, fun _ _ => rfl, fun hr => (hskip.resolve_left hr).symm⟩
  · rw [if_neg hskip]
    cases en with
    | true =>
      refine ⟨modSide_setMod .., fun q hq => ?_, fun _ => ?_⟩
      · rw [if_pos rfl, getMod_setMod_other _ _ hq]
      · rw [if_pos rfl, getMod_setMod_same]
    | false =>
      have hoff := modOff_turnsOff s k .off
      refine ⟨hoff.side.trans (modSide_setMod ..), fun q hq => ?_, fun _ => ?_⟩
      · rw [if_neg Bool.false_ne_true, getMod_setMod_other _ _ hq]
        exact hoff.core4 hq
      · rw [if_neg Bool.false_ne_true, getMod_setMod_same]

theorem settleChannel_mods {a s : State} (v : Settings) (k : Nat) (h : ModSide a s) : ModSide a (settleChannel v s k) ∧
    (∀ q, q ≠ k → modCore4 (getMod (settleChannel v s k) q) = modCore4 (getMod s q)) ∧
    ((modCore4 (getMod s k)).1 ≠ .retired → (modCore4 (getMod (settleChannel v s k) k)).2.1 = bt (tget 0x178 v.mods k) 8) := by
  obtain ⟨i1, i2⟩ := modSide_modIlimSet s k (BitVec.ofNat 8 (bf (tget 0x178 v.mods k) 7 0))
  obtain ⟨e1, e2, e3⟩ := modEnSet_side (modIlimSet s k (BitVec.ofNat 8 (bf (tget 0x178 v.mods k) 7 0))) k (bt (tget 0x178 v.mods k) 8)
  have hst : (getMod (modIlimSet s k (BitVec.ofNat 8 (bf (tget 0x178 v.mods k) 7 0))) k).st = (getMod s k).st := congrArg (fun x => x.1) (i2 k)
  refine ⟨(h.trans i1).trans e1, fun q hq => (e2 q hq).trans (i2 q), fun hr => e3 ?_⟩
  rw [hst]
  exact hr

def channelsSettled (s : State) : State := forEach s (List.range 18) (settleChannel s.key.sets)

theorem channelsSettled_mods (s : State) : ModSide s (channelsSettled s) ∧
    ∀ k < 18, (getMod s k).st ≠ .retired → (getMod (channelsSettled s) k).en = bt (tget 0x178 s.key.sets.mods k) 8 := by
  obtain ⟨h1, -, h3⟩ := forEach_each (get := fun t k => modCore4 (getMod t k)) (I := ModSide s)
    (R := fun k m o => m.1 ≠ .retired → o.2.1 = bt (tget 0x178 s.key.sets.mods k) 8) (f := settleChannel s.key.sets)
    (fun _ k hu => settleChannel_mods s.key.sets k hu) (List.range 18) s List.nodup_range (.refl s)
  exact ⟨h1, fun k hk => h3 k (List.mem_range.2 hk)⟩

/-- A port takes its configuration from the settings, and starts. -/
def settlePort (v : Settings) (s : State) (p : Nat) : State :=
  let c := tget 0x80 v.ports p
  let w := fields [(bf c 7 7, 31), (bf c 1 0, 29)]
  portStart (modPort s p fun k => { k with cfg := w, cfgShadow := w }) p

theorem portStart_link (s : State) (p : Nat) : LinkSide s (portStart s p) := by
  unfold portStart
  split
  · exact .refl s
  · split
    · exact putPort_link ..
    · exact portStop_link ..

theorem settlePort_link (v : Settings) (s : State) (p : Nat) : LinkSide s (settlePort v s p) := (modPort_link ..).trans (portStart_link ..)

def portsSettled (v : Settings) (s : State) : State := forEach s (List.range 18) (settlePort v)

/-- Stage 8 is reached. -/
def atEight (s : State) : State := let s1 := withRst s { s.rst with stage := 8 }; withPlumb s1 { s.plumb with step8 := some s.now }

theorem stepEight_eq (s : State) : stepEight s = atEight (portsSettled s.key.sets (channelsSettled s)) := by
  have hchan : settleChannel s.key.sets = fun u k => modEnSet (modIlimSet u k (BitVec.ofNat 8 (bf (tget 0x178 s.key.sets.mods k) 7 0))) k (bt (tget 0x178 s.key.sets.mods k) 8) := rfl
  have hport : settlePort s.key.sets = fun u p => portStart (modPort u p fun k => { k with
      cfg := fields [(bf (tget 0x80 s.key.sets.ports p) 7 7, 31), (bf (tget 0x80 s.key.sets.ports p) 1 0, 29)]
      cfgShadow := fields [(bf (tget 0x80 s.key.sets.ports p) 7 7, 31), (bf (tget 0x80 s.key.sets.ports p) 1 0, 29)] }) p := rfl
  rw [stepEight, atEight, portsSettled, channelsSettled, hchan, hport]

theorem ModSide.stands {s t : State} (h : ModSide s t) : t.rst = s.rst ∧ t.now = s.now := by
  rw [h.rest]
  exact ⟨rfl, rfl⟩

theorem stepEight_settles (s : State) : (stepEight s).rst = { s.rst with stage := 8 } ∧ (stepEight s).plumb.step8 = some s.now ∧
    ∀ k < 18, (getMod s k).st ≠ .retired → (getMod (stepEight s) k).en = bt (tget 0x178 s.key.sets.mods k) 8 := by
  obtain ⟨hmods, hen⟩ := channelsSettled_mods s
  have hports : LinkSide (channelsSettled s) (portsSettled s.key.sets (channelsSettled s)) := forEach_link (fun u p => settlePort_link ..) _ _
  rw [stepEight_eq]
  generalize channelsSettled s = u at *
  generalize portsSettled s.key.sets u = t at *
  obtain ⟨hrst, hnow⟩ := (hmods.trans hports.mods).stands
  refine ⟨congrArg (fun r : ResetSt => { r with stage := 8 }) hrst, congrArg some hnow, fun k hk hr => ?_⟩
  have hget : getMod (atEight t) k = getMod t k := rfl
  rw [hget, hports.getMod]
  exact hen k hk hr

/-! ## The memory steps (R276, R282, R289, R390, R391) -/

/-- The stage stands, and a retired channel stays retired. -/
structure ChanSide (a t : State) : Prop where
  stage : t.rst.stage = a.rst.stage
  retired : ∀ c, chState a c = 1 → chState t c = 1

theorem ChanSide.refl (s : State) : ChanSide s s := ⟨rfl, fun _ h => h⟩

theorem ChanSide.trans {a s t : State} (h : ChanSide a s) (g : ChanSide s t) : ChanSide a t :=
  ⟨g.stage.trans h.stage, fun c hc => g.retired c (h.retired c hc)⟩

theorem forEach_chanSide {α : Type} {f : State → α → State} (hf : ∀ s x, ChanSide s (f s x)) (l : List α) (s : State) : ChanSide s (forEach s l f) :=
  forEach_invariant (I := ChanSide s) (fun u x hu => hu.trans (hf u x)) l s (.refl s)

theorem chanSide_ite {c : Prop} [Decidable c] {a s t : State} (h : ChanSide a s) (g : ChanSide a t) : ChanSide a (if c then s else t) := by
  split
  · exact h
  · exact g

theorem chanSide_recUnits (s : State) (f : UnitRecs → UnitRecs) (order : Option Nat) : ChanSide s (recUnits s f order) := ⟨rfl, fun _ h => h⟩

theorem chanSide_recRetire (s : State) (u : Nat) (order : Option Nat) : ChanSide s (recRetire s u order) := ⟨rfl, fun _ h => h⟩

theorem chState_setHbm_same (s : State) (c : Nat) (k : HbmChan) : chState (setHbm s c k) c = bf k.stat 31 30 := by
  rw [chState, getHbm_setHbm_self]

theorem chanSide_setHbm (s : State) (c : Nat) {k : HbmChan} (hk : chState s c = 1 → bf k.stat 31 30 = 1) : ChanSide s (setHbm s c k) := by
  refine ⟨rfl, fun d hd => ?_⟩
  by_cases he : d = c
  · subst he
    rw [chState_setHbm_same]
    exact hk hd
  · rw [chState, getHbm_setHbm_ne _ _ he]
    exact hd

theorem rejoin_chanSide (s : State) : ChanSide s (rejoin s) := chanSide_ite (.refl s) (chanSide_recUnits ..)

theorem retiredStat (x : BitVec 32) : bf (sf x 31 30 1) 31 30 = 1 := bf_sf_same _ _ _ _ (by decide)

theorem failTraining_chanSide (s : State) (c : Nat) : ChanSide s (failTraining s c) ∧ chState (failTraining s c) c = 1 := by
  unfold failTraining
  by_cases h : chState s c = 1
  · rw [if_pos h]
    exact ⟨.refl s, h⟩
  · rw [if_neg h]
    have hset := chanSide_setHbm s c (k := { getHbm s c with stat := sf (getHbm s c).stat 31 30 1 }) fun _ => retiredStat _
    have hnow : chState (setHbm s c { getHbm s c with stat := sf (getHbm s c).stat 31 30 1 }) c = 1 := (chState_setHbm_same ..).trans (retiredStat _)
    generalize setHbm s c { getHbm s c with stat := sf (getHbm s c).stat 31 30 1 } = u at *
    have htail := chanSide_recRetire u (unitCode 5 c) none
    exact ⟨hset.trans ⟨htail.stage, htail.retired⟩, htail.retired c hnow⟩

theorem loadRemaps_chanSide (s : State) (repaired : List (HCh × Nat)) : ChanSide s (loadRemaps s repaired) := by
  unfold loadRemaps
  refine (chanSide_ite (chanSide_recUnits ..) (.refl s)).trans (forEach_chanSide (fun u p => ?_) _ _)
  refine chanSide_setHbm u p.1 fun h => ?_
  rw [bf_sf_out _ _ _ _ _ _ (.inr (by decide))]
  exact h

/-- A channel that spills before the package runs. -/
def spilledEarly (h : HbmChan) (ts : List Nat) (slot : Option Nat) : HbmChan :=
  match slot with
  | some j => { h with stat := sf (sb (sf h.stat 31 30 1) 29 true) 28 27 j, targets := ts, runLost := false }
  | none => { h with stat := sf h.stat 31 30 1, noStore := true, runLost := false }

theorem spilledEarly_retired (h : HbmChan) (ts : List Nat) (slot : Option Nat) : bf (spilledEarly h ts slot).stat 31 30 = 1 := by
  cases slot with
  | none => exact retiredStat _
  | some j =>
    have hj : bf (sf (sb (sf h.stat 31 30 1) 29 true) 28 27 j) 31 30 = 1 := by
      rw [bf_sf_out _ _ _ _ _ _ (by omega), bf_sb_out _ _ _ _ _ (by omega), retiredStat]
    exact hj

/-- The package whose lines behind channel `c` are fresh. -/
theorem spillChannel_early (s : State) (c : Nat) : ∃ l r, spillChannel s c false =
    setHbm { s with lost := l, restored := r } c (spilledEarly (getHbm s c) (spillPlan s c).1 (spillPlan s c).2) := ⟨_, _, rfl⟩

theorem spillChannel_chanSide (s : State) (c : Nat) : ChanSide s (spillChannel s c false) := by
  obtain ⟨l, r, hgo⟩ := spillChannel_early s c
  rw [hgo]
  have h := chanSide_setHbm { s with lost := l, restored := r } c (k := spilledEarly (getHbm s c) (spillPlan s c).1 (spillPlan s c).2)
    fun _ => spilledEarly_retired ..
  exact ⟨h.stage, h.retired⟩

theorem spillRetired_chanSide (s : State) : ChanSide s (spillRetired s) :=
  forEach_chanSide (fun u c => chanSide_ite (.refl u) (spillChannel_chanSide u c)) _ _

/-- The channels that failed training are retired. -/
def trainingFailed (s : State) (failed : List HCh) : State := forEach s failed fun s c => failTraining s c.val

theorem trainingFailed_chanSide (s : State) (failed : List HCh) : ChanSide s (trainingFailed s failed) ∧
    ∀ c ∈ failed, chState (trainingFailed s failed) c.val = 1 :=
  ⟨forEach_chanSide (f := fun s (c : HCh) => failTraining s c.val) (fun u c => (failTraining_chanSide u c.val).1) _ _, fun c hc =>
    forEach_covers (f := fun s (c : HCh) => failTraining s c.val) (Q := fun t => chState t c.val = 1) (fun t => (failTraining_chanSide t c.val).2)
      (fun t d hq => (failTraining_chanSide t d.val).1.retired _ hq) _ _ hc⟩

/-- The memory steps are over. -/
def memoryOver (s : State) : State := let s1 := memcfgCount (cleared s); withRst s1 { s1.rst with memDone := true }

theorem memoryStepsDone_runs {s : State} (failed : List HCh) (repaired : List (HCh × Nat)) (h1 : 6 ≤ s.rst.stage) (h2 : s.rst.memDone = false)
    (h3 : s.rst.active = []) : ∃ t, exec (.memoryStepsDone failed repaired) s = .next t ∧
      t.rst.memDone = true ∧ t.rst.stage = s.rst.stage ∧ t.mem = [] ∧ t.lost = [] ∧ ∀ c ∈ failed, chState t c.val = 1 := by
  have hexec : exec (.memoryStepsDone failed repaired) s = if s.rst.stage < 6 ∨ s.rst.memDone ∨ s.rst.active ≠ [] then .next s
      else .next (memoryOver (spillRetired (loadRemaps (trainingFailed (rejoin s) failed) repaired))) := by
    have hexec : exec (.memoryStepsDone failed repaired) s = execMemoryStepsDone failed repaired s := rfl
    rw [hexec, execMemoryStepsDone, memoryOver, trainingFailed]
  obtain ⟨hfail, hretired⟩ := trainingFailed_chanSide (rejoin s) failed
  have hrest := (loadRemaps_chanSide (trainingFailed (rejoin s) failed) repaired).trans (spillRetired_chanSide _)
  have hall := ((rejoin_chanSide s).trans hfail).trans hrest
  rw [hexec, if_neg]
  · generalize spillRetired (loadRemaps (trainingFailed (rejoin s) failed) repaired) = u at *
    exact ⟨memoryOver u, rfl, rfl, hall.stage, rfl, rfl, fun c hc => hrest.retired _ (hretired c hc)⟩
  · rintro (h | h | h)
    · omega
    · exact Bool.false_ne_true (h2.symm.trans h)
    · exact h h3

theorem memoryStepsDone_waits {s : State} (failed : List HCh) (repaired : List (HCh × Nat))
    (h : s.rst.stage < 6 ∨ s.rst.memDone = true ∨ s.rst.active ≠ []) : exec (.memoryStepsDone failed repaired) s = .next s := if_pos h

/-! ## DONE (R392) -/

/-- DONE is set, and every waiting report has gone out. -/
def doneSet (s : State) : State := withRst s { s.rst with done := true, late := [] }

def keystoneReady (s : State) : State := withKey s { s.key with
  autoAt := if s.key.trial && (journalOf s).auto then some s.now else none,
  test := { s.key.test with due := s.now + s.key.test.period * 1000000 } }

theorem startupDone_waits {s : State} (h : s.rst.stage ≠ 9 ∨ s.rst.memDone = false ∨ s.rst.done = true) : exec .startupDone s = .next s :=
  if_pos (h.imp_right fun h => h.imp_left fun h => by rw [h]; rfl)

theorem startupDone_runs {s : State} (h1 : s.rst.stage = 9) (h2 : s.rst.memDone = true) (h3 : s.rst.done = false) (h4 : s.rst.late = []) :
    ∃ z t, exec .startupDone s = .next t ∧ RasReported { s with rst := { s.rst with done := true } } z St.ok 6 (unitId s 0 0) 0 ∧
      t = { z with key := { z.key with autoAt := t.key.autoAt, test := t.key.test } } := by
  have hexec : exec .startupDone s = if s.rst.stage ≠ 9 ∨ (!s.rst.memDone) = true ∨ s.rst.done = true then .next s
      else .next (keystoneReady (ras (forEach (doneSet s) s.rst.late fun s r => ras s r.1 r.2.1 r.2.2.1 r.2.2.2) St.ok 6
        (unitId (forEach (doneSet s) s.rst.late fun s r => ras s r.1 r.2.1 r.2.2.1 r.2.2.2) 0 0) 0)) := rfl
  have hset : doneSet s = { s with rst := { s.rst with done := true } } :=
    congrArg (fun l => withRst s { s.rst with done := true, late := l }) h4.symm
  have hnone : (forEach (doneSet s) s.rst.late fun s r => ras s r.1 r.2.1 r.2.2.1 r.2.2.2) = doneSet s := by rw [h4]; rfl
  have hunit : unitId (doneSet s) 0 0 = unitId s 0 0 := unitId_of_id rfl ..
  rw [hexec, if_neg, hnone, hunit, hset]
  · exact ⟨_, _, rfl, ras_reported .., rfl⟩
  · rw [h2, h3]
    rintro (h | h | h)
    · exact h h1
    · exact Bool.noConfusion h
    · exact Bool.noConfusion h

/-! ## The obligation -/

theorem release_one {s : State} (h : MayRelease s) (b : BootRead) :
    (s.rst.stage = 0 → b.flash = true → b.journal = true → (journalOf s).trial = none →
      slotSealed (slotOf s (journalOf s).committed) = true → ∃ t, exec (.resetReleaseStep b) s = .next t ∧ t = { s with
        store := { s.store with flashOk := true }
        rst := { s.rst with stage := 1, slot := (journalOf s).committed }
        key := { s.key with trial := false } }) ∧
    (s.rst.stage = 0 → (b.flash = false ∨ b.journal = false) → ∃ t, exec (.resetReleaseStep b) s = .next t ∧ t.rst.stage = 1 ∧
      t.rst.recovery = true ∧ ∀ m, m ≠ 0 → getMbox t m = getMbox s m) :=
  ⟨fun h0 hf hj ht hs => ⟨_, resetReleaseStep_at h b h0, stepOne_boots hf hj ht hs⟩, fun h0 hr => ⟨_, resetReleaseStep_at h b h0, stepOne_recovers hr⟩⟩

theorem release_three {s : State} (h : MayRelease s) (b : BootRead) (h2 : s.rst.stage = 2) (hs : bt s.rst.cause1 19 = false) (hr : s.rst.recovery = false) :
    ∃ t, exec (.resetReleaseStep b) s = .next t ∧ t.rst.stage = 3 ∧ t.host.drv = t.key.sets.drv ∧ t.power.cap = t.key.sets.cap ∧ t.power.freq = t.key.sets.freq ∧
      t.plumb.cfg = t.key.sets.plumb ∧ bf t.memcfg 31 30 = bit t.key.sets.tower ∧
      (∀ c < 256, unitCode 2 c ∈ t.key.recs.retired → (getCore t c).retired = true) ∧
      ∀ k < 18, unitCode 13 k ∈ t.key.recs.retired → (getMod t k).st = .retired := by
  obtain ⟨⟨hdrv, hcap, hfreq, hplumb, htower⟩, hstage, hcore, hmod⟩ := prepare_prepares (atThree s) b
  have hgo : exec (.resetReleaseStep b) s = .next (prepare (atThree s) b) :=
    (resetReleaseStep_at h b h2).trans (congrArg Host.Outcome.next (stepThree_prepares b hs hr))
  exact ⟨_, hgo, hstage, hdrv, hcap, hfreq, hplumb, htower, hcore, hmod⟩

theorem release_four {s : State} (h : MayRelease s) (b : BootRead) (h3 : s.rst.stage = 3) :
    ((m0Only s = true ∨ ∃ u < 8, (getTower s u).vset ≠ (getTower s u).vtarget) → exec (.resetReleaseStep b) s = .next s) ∧
    (mayFour s = true → ∃ t, exec (.resetReleaseStep b) s = .next t ∧ t.rst = { s.rst with stage := 4 } ∧ t.host = { s.host with cfgReady := true }) := by
  have hgo : exec (.resetReleaseStep b) s = .next (if mayFour s then stepFour s else s) := resetReleaseStep_at h b h3
  rw [hgo]
  refine ⟨fun hw => ?_, fun hm => ?_⟩
  · rw [mayFour_false hw]
    rfl
  · rw [hm]
    exact ⟨stepFour s, rfl, stepFour_serves s⟩

theorem release_five {s : State} (h : MayRelease s) (b : BootRead) (h4 : s.rst.stage = 4) :
    ∃ t, exec (.resetReleaseStep b) s = .next t ∧ t.rst = { s.rst with stage := 5, late := t.rst.late } ∧
      (∀ p ∈ b.lanes, (getLintel t p.1.val).retired = true ∨ p.2.val ∈ (getLintel t p.1.val).bad) ∧
      (b.lanes = [] → (∀ l, (trainLink (getLintel s l)).half = true → 8 ≤ lintelGood (getLintel s l)) →
        (∀ d < 11, dieRouted s d = true) →
        t = { s with lintel := t.lintel, rst := { s.rst with stage := 5 } } ∧ ∀ l, getLintel t l = trainLink (getLintel s l)) := by
  obtain ⟨h1, h2⟩ := stepFive_lanes s b
  have h3 := stepFive_trains (s := s) (b := b)
  have hgo : exec (.resetReleaseStep b) s = .next (stepFive s b) := by rw [resetReleaseStep_at h b h4, releaseStep]
  generalize stepFive s b = t at *
  exact ⟨t, hgo, h1, h2, h3⟩

theorem release_nine {s : State} (h : MayRelease s) (b : BootRead) (h8 : s.rst.stage = 8) :
    (s.rst.memDone = false → exec (.resetReleaseStep b) s = .next s) ∧
    (s.rst.memDone = true → ∃ t, exec (.resetReleaseStep b) s = .next t ∧ t = { s with rst := { s.rst with stage := 9 } }) := by
  have hgo : exec (.resetReleaseStep b) s = .next (if s.rst.memDone then withRst s { s.rst with stage := 9 } else s) := resetReleaseStep_at h b h8
  rw [hgo]
  refine ⟨fun hm => ?_, fun hm => ?_⟩
  · rw [hm]
    rfl
  · rw [hm]
    exact ⟨_, rfl, rfl⟩

theorem release_over {s : State} (h : MayRelease s) (b : BootRead) (h9 : 9 ≤ s.rst.stage) : exec (.resetReleaseStep b) s = .next s := by
  obtain ⟨n, hn⟩ := Nat.exists_eq_add_of_le' h9
  exact resetReleaseStep_at h b hn

/-- Settles O57: every source leaves the one reset state (`resetOver_held`), and each release step is one lemma about its loops over units. -/
theorem resetsAndReleaseRun : Obligations.ResetsAndReleaseRun := by
  unfold Obligations.ResetsAndReleaseRun
  intro s
  refine ⟨⟨powerOn_held s, powerLoss_held s⟩, fun hup => ⟨brownOut_runs hup, pinReset_runs hup, watchdog_runs hup, fun τ => softwareReset_runs hup,
    debugReset_runs hup, refclkFailure_runs hup, lockup_runs hup, resetSourceEnd_runs hup⟩,
    ⟨watchdog_halted, softwareReset_none, fun τ => softwareReset_early, debugReset_ignored⟩, fun b => ⟨resetReleaseStep_waits b, fun ha hr ho => ?_⟩,
    fun failed repaired => ⟨memoryStepsDone_waits failed repaired, memoryStepsDone_runs failed repaired⟩, startupDone_waits, startupDone_runs⟩
  have h : MayRelease s := ⟨ha, hr, ho⟩
  obtain ⟨hone, hone'⟩ := release_one h b
  exact ⟨hone, hone', fun h1 => ⟨_, resetReleaseStep_at h b h1, stepTwo_starts s⟩, fun h2 hs => ⟨_, resetReleaseStep_at h b h2, stepThree_shut b hs⟩,
    release_three h b, fun h3 => (release_four h b h3).1, fun h3 => (release_four h b h3).2, release_five h b,
    fun h5 => ⟨_, resetReleaseStep_at h b h5, rfl⟩, fun h6 => ⟨_, resetReleaseStep_at h b h6, stepSeven_joins s⟩,
    fun h7 => ⟨_, resetReleaseStep_at h b h7, stepEight_settles s⟩, release_nine h b, release_over h b⟩

end Sys2Proof.Machine
end

section
/-!
PROOF. The I3C target of M0 and the debug port (R430, R431, R434).
-/

namespace Sys2Proof.Machine

/-! ## Accesses of an I3C write -/

theorem i3cWords_nil (n off : Nat) (k : Mbox) : i3cWords n off [] k = k := by
  cases n with
  | zero => rfl
  | succ n => rw [i3cWords, if_pos (.inl rfl)]

/-- Fewer than four bytes cover no aligned word. -/
theorem i3cWords_short : ∀ (n off : Nat) (d : List Byte) (k : Mbox), d.length < 4 → i3cWords n off d k = k
  | 0, _, _, _, _ => rfl
  | n + 1, off, d, k, h => by
    rw [i3cWords, if_pos h]
    split
    · rfl
    · split
      · exact i3cWords_short n _ _ k (by rw [List.length_drop]; omega)
      · rfl

theorem i3cWords_word (n : Nat) {off : Nat} {d : List Byte} (k : Mbox) (ha : off % 4 = 0) (h0 : 0 < off) (h1 : off < 0x1000)
    (hd : d.length = 4) : i3cWords (n + 1) off d k = mbWrite4 k off (BitVec.ofNat 32 (leNat d)) := by
  have hne : d ≠ [] := List.ne_nil_of_length_pos (by omega)
  rw [i3cWords, if_neg (by simp only [hne, false_or]; omega), if_neg (by omega), if_neg (by omega), if_neg (by omega),
    List.drop_eq_nil_of_le (by omega), i3cWords_nil, List.take_of_length_le (by omega)]

theorem i3cWords_cmd (n : Nat) {d : List Byte} (k : Mbox) (hd : d.length = 8) :
    i3cWords (n + 1) 0 d k = mbCmdWrite k (BitVec.ofNat 64 (leNat d)) := by
  have hne : d ≠ [] := List.ne_nil_of_length_pos (by omega)
  rw [i3cWords, if_neg (by simp [hne]), if_neg (by omega), if_neg (by omega), if_pos (by omega), List.drop_eq_nil_of_le (by omega),
    i3cWords_nil, List.take_of_length_le (by omega), mbWrite8, if_pos rfl]

/-! ## Bytes of a page after a 4-byte write -/

theorem mbByte_page {k : Mbox} {m : List Host.Cell} {x : Nat} (h : x < 0x040 ∨ rd8 m x = rd8 k.page x) :
    mbByte { k with page := m } x = mbByte k x := by
  unfold mbByte
  dsimp only
  rcases h with h | h
  · rw [if_pos h, if_pos h]
  · rw [h]

theorem mbByte_area {k : Mbox} {x : Nat} (h1 : 0x040 ≤ x) (h2 : x < 0x1000) : mbByte k x = rd8 k.page x := by
  unfold mbByte
  rw [if_neg (by omega), if_neg (by omega), if_neg (by omega), if_neg (by omega), if_neg (by omega), if_neg (by omega), if_pos h2]

/-- A 4-byte write of the argument area writes its four bytes and no other. -/
theorem mbByte_mbWrite4 {k : Mbox} {off : Nat} {d : List Byte} (h1 : 0x040 ≤ off) (h2 : off + 4 ≤ 0x400) (hd : d.length = 4) :
    (∀ i < 4, mbByte (mbWrite4 k off (BitVec.ofNat 32 (leNat d))) (off + i) = d.getD i 0) ∧
      ∀ x, (x < off ∨ off + 4 ≤ x) → mbByte (mbWrite4 k off (BitVec.ofNat 32 (leNat d))) x = mbByte k x := by
  have hlt : leNat d < 2 ^ 32 := by
    have hle := leNat_lt d
    rw [hd] at hle
    exact hle
  rw [mbWrite4_page h1 (by omega), BitVec.toNat_ofNat, Nat.mod_eq_of_lt hlt]
  refine ⟨fun i hi => ?_, fun x hx => ?_⟩
  · have hlen : i < (toLe 4 (leNat d)).length := by
      rw [toLe_length]
      exact hi
    rw [mbByte_area (by omega) (by omega)]
    dsimp only
    rw [rd8_wrN_in _ _ _ _ hlen, toLe_getElem, leNat_byte]
  · exact mbByte_page (.inr (rd8_wrN_out _ _ _ (by rw [toLe_length]; exact hx)))

/-! ## I3C transfers -/

theorem i3cPrivateWrite_stands {s : State} {d : List Byte} (h : s.rst.stage = 0 ∨ d.length < 2) :
    exec (.i3cPrivateWrite d) s = .next s := by
  show execI3cPrivateWrite d s = _
  rw [execI3cPrivateWrite, if_pos (by omega)]

/-- An I3C write after release step 1: the offset moves, the interrupts are taken, and only M0's page takes the accesses. -/
theorem i3cPrivateWrite_runs {s : State} {d : List Byte} (h1 : 1 ≤ s.rst.stage) (h2 : 2 ≤ d.length) :
    ∃ t, exec (.i3cPrivateWrite d) s = .next t ∧
      t = { s with
        pins := { s.pins with ibi := [], i3cOff := leNat (d.take 2) + (d.length - 2) }
        key := { s.key with mb := t.key.mb } } ∧
      (∀ m, m ≠ 0 → getMbox t m = getMbox s m) ∧
      getMbox t 0 = i3cWords (d.length - 2 + 1) (leNat (d.take 2)) (d.drop 2) (getMbox s 0) := by
  refine ⟨_, if_neg (by omega), ?_, fun m hm => getMbox_setMbox_ne _ _ hm, ?_⟩
  · rw [List.length_drop]
    rfl
  · refine (getMbox_setMbox_self ..).trans ?_
    rw [List.length_drop]
    rfl

/-- What follows the offset of an I3C write. -/
theorem i3cPrivateWrite_at {s : State} (off : Nat) {d : List Byte} (h1 : 1 ≤ s.rst.stage) (ho : off < 65536) :
    ∃ t, exec (.i3cPrivateWrite (toLe 2 off ++ d)) s = .next t ∧ getMbox t 0 = i3cWords (d.length + 1) off d (getMbox s 0) := by
  have hlen : (toLe 2 off).length = 2 := toLe_length 2 off
  obtain ⟨t, hx, _, _, h0⟩ := i3cPrivateWrite_runs (d := toLe 2 off ++ d) h1 (by rw [List.length_append]; omega)
  rw [List.take_left' hlen, List.drop_left' hlen, leNat_toLe, Nat.mod_eq_of_lt (by simpa using ho), List.length_append, hlen,
    Nat.add_sub_cancel_left] at h0
  exact ⟨t, hx, h0⟩

/-- MB_GO over I3C: PEND is set with the words of MB_CMD, unless an order waits or runs (R399, R400). -/
theorem mbCmdWrite_go {k : Mbox} {v : BitVec 64} (hv : bt v 0 = true) :
    (bt k.rsp 2 = false → bt k.rsp 1 = false → bt (mbCmdWrite k v).rsp 2 = true ∧
      (∀ i, 1 ≤ i → i < 64 → bt (mbCmdWrite k v).cmd i = bt v i) ∧ bt (mbCmdWrite k v).cmd 0 = false) ∧
    ((bt k.rsp 2 = true ∨ bt k.rsp 1 = true) → mbCmdWrite k v = k) := by
  have hgo : ¬ (!bt v 0) = true := by
    rw [hv]
    decide
  refine ⟨fun hp hb => ?_, fun hw => ?_⟩
  · have hk : mbCmdWrite k v = { k with cmd := sb v 0 false, rsp := sb k.rsp 2 true, snap := k.page } := by
      rw [mbCmdWrite, if_neg hgo, if_neg (by rw [mbWaits, hp, hb]; decide)]
    rw [hk]
    exact ⟨bt_sb _ _ _ (by decide), fun i hi _ => bt_sb_ne _ _ _ _ (by omega), bt_sb _ _ _ (by decide)⟩
  · rw [mbCmdWrite, if_neg hgo, if_pos (by rw [mbWaits, Bool.or_eq_true]; exact hw)]

theorem i3cPrivateRead_runs {s : State} (n : Nat) (h : 1 ≤ s.rst.stage) : ∃ t, exec (.i3cPrivateRead n) s = .next t ∧
    t = { s with pins := { s.pins with ibi := [], i3cOut := t.pins.i3cOut, i3cOff := s.pins.i3cOff + n } } ∧
    t.pins.i3cOut.length = n ∧ ∀ i < n, t.pins.i3cOut.getD i 0 = mbByte (getMbox s 0) (s.pins.i3cOff + i) := by
  obtain ⟨hlen, hbyte⟩ := mbRead_bytes (getMbox s 0) s.pins.i3cOff n
  refine ⟨_, congrArg Host.Outcome.next (if_neg (by omega)), rfl, hlen, fun i hi => ?_⟩
  have hi' : i < (mbRead (getMbox s 0) s.pins.i3cOff n).length := by
    rw [hlen]
    exact hi
  exact (List.getD_eq_getElem _ _ hi').trans (hbyte i hi')

/-! ## The debug port -/

theorem idcode_loads (s : State) : ∃ t, exec .idcode s = .next t ∧
    t = { s with pins := { s.pins with jtagIr := 1, jtagOut := t.pins.jtagOut } } ∧ t.pins.jtagOut.length = 32 ∧
    t.pins.jtagOut.getD 0 false = true ∧ ∀ i, 1 ≤ i → i < 32 → t.pins.jtagOut.getD i false = bt Config.idcode i := by
  refine ⟨_, rfl, rfl, ?_, rfl, fun i h1 h2 => ?_⟩
  · show (true :: (List.range 31).map fun i => bt Config.idcode (i + 1)).length = 32
    rw [List.length_cons, List.length_map, List.length_range]
  · obtain ⟨j, rfl⟩ : ∃ j, i = j + 1 := ⟨i - 1, by omega⟩
    show (true :: (List.range 31).map fun i => bt Config.idcode (i + 1)).getD (j + 1) false = _
    rw [List.getD_cons_succ, List.getD_eq_getElem _ _ (by rw [List.length_map, List.length_range]; omega), List.getElem_map, List.getElem_range]

theorem sample_loads (s : State) : ∃ t, exec .sample s = .next t ∧ t.pins.jtagOut.length = 136 ∧
    t = { s with free := t.free, pins := { s.pins with jtagIr := 2, jtagOut := t.pins.jtagOut } } := by
  refine ⟨_, rfl, ?_, rfl⟩
  show ((List.range 136).map fun i => bt (freshBits s 136).1 i).length = 136
  rw [List.length_map, List.length_range]

theorem dbgHalt_halts {s : State} (h : s.pins.dbgEn = true) : ∃ t, exec .dbgHalt s = .next t ∧
    t = { s with key := { s.key with halted := true } } ∧ keystoneRuns t = false :=
  ⟨_, congrArg Host.Outcome.next (if_pos h), rfl, Bool.and_false _⟩

/-- Settles O60, by the accesses that an I3C write makes and one equation per instruction of the debug port. -/
theorem sidebandAndDebugRun : Obligations.SidebandAndDebugRun := by
  unfold Obligations.SidebandAndDebugRun
  intro s
  refine ⟨fun a => ⟨fun h => congrArg Host.Outcome.next (if_neg (by omega)), fun h => ⟨_, congrArg Host.Outcome.next (if_pos h), rfl⟩⟩,
    fun d => ⟨i3cPrivateWrite_stands, fun h1 h2 => ?_⟩, fun off d h1 ha hlo hhi hd => ?_, fun v h1 hv => ?_,
    fun n => ⟨fun h => congrArg Host.Outcome.next (if_pos (by omega)), i3cPrivateRead_runs n⟩, idcode_loads s, ⟨_, rfl, rfl⟩,
    sample_loads s, fun pads => ⟨fun h => congrArg Host.Outcome.next (if_neg (by rw [h]; exact Bool.false_ne_true)),
      fun h => ⟨_, congrArg Host.Outcome.next (if_pos h), rfl⟩⟩,
    ⟨fun h => congrArg Host.Outcome.next (if_neg (by rw [h]; exact Bool.false_ne_true)), dbgHalt_halts⟩, ⟨_, rfl, rfl⟩, ⟨_, rfl, rfl⟩⟩
  · obtain ⟨t, hx, hside, hothers, hpage⟩ := i3cPrivateWrite_runs h1 h2
    refine ⟨t, hx, hside, hothers, fun hlen => ?_⟩
    rw [hpage, i3cWords_short _ _ _ _ (by rw [List.length_drop]; omega)]
  · obtain ⟨t, hx, hpage⟩ := i3cPrivateWrite_at off (d := d) h1 (by omega)
    rw [i3cWords_word _ _ ha (by omega) (by omega) hd] at hpage
    exact ⟨t, hx, by rw [hpage]; exact mbByte_mbWrite4 hlo hhi hd⟩
  · obtain ⟨t, hx, hpage⟩ := i3cPrivateWrite_at 0 (d := toLe 8 v.toNat) h1 (by decide)
    have hval : BitVec.ofNat 64 (leNat (toLe 8 v.toNat)) = v := by
      rw [leNat_toLe, Nat.mod_eq_of_lt (by simpa using v.isLt), BitVec.ofNat_toNat, BitVec.setWidth_eq]
    rw [i3cWords_cmd _ _ (toLe_length ..), hval] at hpage
    refine ⟨t, hx, ?_⟩
    rw [hpage]
    exact mbCmdWrite_go hv
end Sys2Proof.Machine
end

section
/-!
PROOF. The run of an order (R401, R404, R410): the verbs of Tables 14.10 to 14.19, and what the order of a batch ends with by its fate.
-/

namespace Sys2Proof.Machine

/-! ## What an order that passes its checks comes to -/

section
variable {s : State} {o : Order} {g v : Nat} {right : Right} {rangeOk stateOk : Order → Bool} {body : State → Order → Ran}

theorem run_done (h : Sole s o g v right) (hg : ¬ (g = 1 ∧ v = 3)) (hr : rangeOk o = true) (hs : stateOk o = true) {z : State}
    {res : List Byte} (hz : (body s o).s = z) (hfate : (body s o).fate = .done St.ok res) (hb : z.key.batch = s.key.batch)
    (hd : z.key.batchDone = s.key.batchDone) : Ends z (runOrder s g v right rangeOk stateOk body) o St.ok 0 res := by
  have hbody : body s o = ⟨z, .done St.ok res, (body s o).wrote⟩ := by rw [← hz, ← hfate]
  rw [run_sole h hr hs, hbody]
  exact done_ends h hg z hb hd _ _ _

/-- An order that only reads is answered with its result, and the state stands. -/
theorem run_reads (h : Sole s o g v right) (hg : ¬ (g = 1 ∧ v = 3)) (hr : rangeOk o = true) (hs : stateOk o = true) {res : List Byte}
    (hbody : body s o = ranRead s res) : Ends s (runOrder s g v right rangeOk stateOk body) o St.ok 0 res :=
  run_done h hg hr hs (by rw [hbody]; rfl) (by rw [hbody]; rfl) rfl rfl

theorem run_ok (h : Sole s o g v right) (hg : ¬ (g = 1 ∧ v = 3)) (hr : rangeOk o = true) (hs : stateOk o = true) {z : State}
    {w : List (Nat × Nat)} (hbody : body s o = ranOk z w) (hb : z.key.batch = s.key.batch) (hd : z.key.batchDone = s.key.batchDone) :
    Ends z (runOrder s g v right rangeOk stateOk body) o St.ok 0 [] :=
  run_done h hg hr hs (by rw [hbody]; rfl) (by rw [hbody]; rfl) hb hd

theorem run_persists (h : Sole s o g v right) (hg : ¬ (g = 1 ∧ v = 3)) (hr : rangeOk o = true) (hs : stateOk o = true) {z : State}
    {f : Settings → Settings} {w : List (Nat × Nat)} (hbody : body s o = endPersist z o f w) (hb : z.key.batch = s.key.batch)
    (hd : z.key.batchDone = s.key.batchDone) : Settles z (runOrder s g v right rangeOk stateOk body) o (f z.key.sets) := by
  rw [run_sole h hr hs, hbody]
  exact persist_settles h hg z hb hd f w

/-- An order whose package stop has still to end stays at the head (R411). -/
theorem run_later (h : Sole s o g v right) (hr : rangeOk o = true) (hs : stateOk o = true) {z : State}
    (hbody : body s o = ⟨z, .later, []⟩) : runOrder s g v right rangeOk stateOk body = z := by
  rw [run_sole h hr hs, hbody]
  rfl

end

theorem beginStop_begins {s : State} (h : s.key.stopping = false) :
    beginStop s = { s with key := { s.key with stopping := true, stopSince := s.now } } := by
  rw [beginStop, if_neg (by rw [h]; decide)]
  rfl

theorem endStored_waits {s z : State} {o : Order} {w : List (Nat × Nat)} (h : s.store.pend.length < z.store.pend.length) :
    endStored s z o w = ⟨withStore z { z.store with pend := z.store.pend.dropLast ++ (z.store.pend.getLast?.map fun u => { u with order := some o.mb }).toList },
      .busy St.ok [], w⟩ := by
  rw [endStored, if_neg (by omega)]

/-- An order whose change pushed one update onto the store waits for it (R395). -/
theorem endStored_stores {s z : State} {o : Order} {g v : Nat} {right : Right} (h : Sole s o g v right) (op : StoreOp)
    (hb : z.key.batch = s.key.batch) (hp : z.store.pend = s.store.pend) (w : List (Nat × Nat)) :
    Stores z (settleOrder o (endStored s (storePush z op none) o w)) o op := by
  have hpend : (storePush z op none).store.pend = z.store.pend ++ [⟨op, none⟩] := storePush_pend ..
  rw [endStored_waits (by rw [hpend, hp, List.length_append]; exact Nat.lt_succ_self _)]
  refine busy_stores h z op hb w _ ?_ ⟨?_, ?_⟩
  · rfl
  · show ((storePush z op none).store.pend.dropLast ++ _).map _ = _
    rw [hpend, List.dropLast_concat, List.getLast?_concat, List.map_append]
    rfl
  · show ((storePush z op none).store.pend.dropLast ++ _).getLast?.map _ = _
    rw [hpend, List.getLast?_concat]
    exact (congrArg (Option.map _) List.getLast?_concat).trans rfl

/-! ## The rows of the command tables -/

/-- The command of a row runs the order of its GROUP and VERB under its Access column; SYS.CAUSE, which may need W, has the weaker R. -/
def RunsRow (s : State) (r : Instr × Nat × Nat × Right) : Prop :=
  ∃ right rangeOk stateOk body, exec r.1 s = .next (runOrder s r.2.1 r.2.2.1 right rangeOk stateOk body) ∧ (right = r.2.2.2 ∨ r.2.2.2 = .r)

theorem rowsOrder_run (s : State) : ∀ r ∈ rowsOrder, RunsRow s r := by
  unfold rowsOrder
  simp only [List.forall_mem_append, List.forall_mem_cons, List.not_mem_nil, false_implies, implies_true, and_true]
  refine ⟨⟨⟨⟨?_, ⟨_, _, _, _, rfl, .inr rfl⟩, ?_⟩, ?_⟩, ?_⟩, ?_⟩
  all_goals repeat' apply And.intro
  all_goals exact ⟨_, _, _, _, rfl, .inl rfl⟩

/-- A row's command with no order, another order, an order in progress, or Keystone halted. -/
theorem RunsRow.stands {s : State} {r : Instr × Nat × Nat × Right} (h : RunsRow s r) :
    (s.key.batch = [] → exec r.1 s = .next s) ∧
      ∀ o l, s.key.batch = o :: l → (o.busy = true ∨ s.key.halted = true ∨ o.group.toNat ≠ r.2.1 ∨ o.verb.toNat ≠ r.2.2.1) →
        exec r.1 s = .next s := by
  obtain ⟨right, rangeOk, stateOk, body, hx, -⟩ := h
  rw [hx]
  refine ⟨fun hb => ?_, fun o l hb hc => ?_⟩
  · rw [runOrder, hb]
  · rw [runOrder, hb]
    exact congrArg Host.Outcome.next (if_pos hc)

/-- Check 2 of R401 refuses with reason 1. -/
theorem RunsRow.refuses {s : State} {r : Instr × Nat × Nat × Right} (h : RunsRow s r) {o : Order} (hb : s.key.batch = [o])
    (hd : s.key.batchDone = []) (h1 : o.busy = false) (h2 : o.started = false) (h3 : o.code = St.ok) (h4 : o.res = [])
    (h5 : s.key.halted = false) (h6 : o.group.toNat = r.2.1) (h7 : o.verb.toNat = r.2.2.1) (hp : permitted s o.mb r.2.2.2 = false) :
    ∃ t, exec r.1 s = .next t ∧ Ends s t o St.ok 1 [] := by
  obtain ⟨right, rangeOk, stateOk, body, hx, hright⟩ := h
  have hw : permitted s o.mb right = false := by
    rcases hright with he | he
    · rw [he]
      exact hp
    · rw [he] at hp
      exact absurd hp.symm Bool.false_ne_true
  have hgo : runOrder s r.2.1 r.2.2.1 right rangeOk stateOk body = finishHead s { o with refuse := 1 } := by
    rw [runOrder, hb]
    dsimp only
    rw [if_neg (by simp [h1, h5, h6, h7]), if_pos (by rw [hw]; rfl)]
    rfl
  refine ⟨_, hx, ?_⟩
  rw [hgo]
  exact (finish_one s o { o with refuse := 1 } ⟨rfl, rfl, rfl, rfl⟩ (by rw [hb]; rfl) hd h2
    (fun hr => absurd (show (1 : BitVec 8) = 0 from hr.2.2.1) (by decide))).same h3 rfl h4

end Sys2Proof.Machine
end

section
/-!
PROOF. The orders of the group SYS and the package stop (R382, R401, R402, R410, R411).
-/

namespace Sys2Proof.Machine

/-! ## Arguments and registers -/

theorem alen_eq {o : Order} {n : Nat} (h : o.args.length = n) : alen o n = true := decide_eq_true h

theorem alen_nil {o : Order} (h : o.args = []) : alen o 0 = true := alen_eq (by rw [h]; rfl)

theorem alen_one {o : Order} {b : Byte} (h : o.args = [b]) : alen o 1 = true := alen_eq (by rw [h]; rfl)

theorem arg_nil {o : Order} (h : o.args = []) : arg o 0 1 = 0 := by
  rw [arg, h]
  rfl

theorem arg_one {o : Order} {b : Byte} (h : o.args = [b]) : arg o 0 1 = b.toNat := by
  rw [arg, h]
  exact Nat.add_zero _

theorem arg_one_eq {o : Order} {b : Byte} (h : o.args = [b]) : decide (arg o 0 1 = 1) = decide (b = 1) := by
  rw [arg_one h]
  exact decide_eq_decide.2 ⟨fun hb => BitVec.eq_of_toNat_eq hb, fun hb => by rw [hb]; rfl⟩

/-- The range check of an order with one argument byte of 0 or 1. -/
theorem flag_range {o : Order} {b : Byte} (h : o.args = [b]) (hb : b.toNat ≤ 1) : (alen o 1 && decide (arg o 0 1 ≤ 1)) = true := by
  rw [alen_one h, arg_one h, decide_eq_true hb]
  rfl

theorem arg_lt (o : Order) (i n : Nat) : arg o i n < 256 ^ n := by
  have h := leNat_lt (slice o.args i n)
  have hlen : (slice o.args i n).length = n := by
    rw [slice, List.length_append, List.length_replicate, List.length_take]
    omega
  rw [hlen] at h
  exact h

theorem laid_length (g v : Nat) (vals : List Nat) (n : Nat) : (laid g v vals n).length = n := by
  rw [laid, List.length_map, List.length_range]

theorem laidFree_length (g v : Nat) (vals : List Nat) : (laidFree g v vals).length ≤ 2048 := by
  rw [laidFree, laid_length]
  exact Nat.min_le_left ..

/-! ## SYS.INFO and SYS.CAUSE -/

section
variable {s : State} {o : Order}

theorem sysInfo_runs (h : Sole s o 1 1 .r) (ha : o.args = []) :
    ∃ t d, exec .sysInfo s = .next t ∧ d.length = 64 ∧ Ends s t o St.ok 0 d := by
  refine ⟨_, _, rfl, ?_, run_reads h (by decide) (alen_nil ha) rfl rfl⟩
  exact laid_length ..

theorem clearsSeen_eq {right : Right} (h : Sole s o 1 2 right) : clearsSeen s = decide (arg o 0 1 ≠ 0) := by
  rw [clearsSeen, h.batch.1]

theorem sysCause_reads (h : Sole s o 1 2 .r) (ha : o.args = []) : ∃ t, exec .sysCause s = .next t ∧
    Ends s t o St.ok 0 (toLe 4 s.rst.cause0.toNat ++ toLe 4 s.rst.cause1.toNat) := by
  have hright : (if clearsSeen s then Right.w else Right.r) = .r := by
    rw [clearsSeen_eq h, arg_nil ha]
    rfl
  refine ⟨_, rfl, ?_⟩
  rw [hright]
  have hrange : (alen o 0 || alen o 1) = true := by rw [alen_nil ha, Bool.true_or]
  refine Ends.same (run_done h (by decide) hrange rfl (res := words [s.rst.cause0, s.rst.cause1]) (z := s) ?_ rfl rfl rfl) rfl rfl ?_
  · have hstand : w1c s.rst.cause0 (BitVec.ofNat 32 (arg o 0 1)) 0xFF = s.rst.cause0 := by
      rw [arg_nil ha]
      exact BitVec.and_allOnes
    dsimp only
    rw [hstand]
    rfl
  · exact congrArg _ (List.append_nil _)

/-- The record without the SEEN bits that the order clears. -/
theorem bt_w1c_seen (x : BitVec 32) (b : Byte) {i : Nat} (h : i < 32) :
    bt (w1c x (BitVec.ofNat 32 b.toNat) 0xFF) i = (bt x i && !(decide (i < 8) && bt b i)) := by
  have hmask : (0xFF : BitVec 32).getLsbD i = decide (i < 8) := by
    revert i
    decide
  rw [w1c, bt_andNot _ _ h]
  congr 2
  rw [bt, BitVec.getLsbD_and, hmask, Bool.and_comm, BitVec.getLsbD_ofNat, decide_eq_true h]
  rfl

theorem sysCause_clears {b : Byte} (h : Sole s o 1 2 .w) (ha : o.args = [b]) (hb : b ≠ 0) : ∃ z t, exec .sysCause s = .next t ∧
    Ends z t o St.ok 0 (toLe 4 s.rst.cause0.toNat ++ toLe 4 s.rst.cause1.toNat) ∧
    z = { s with rst := { s.rst with cause0 := z.rst.cause0 } } ∧
    ∀ i < 32, bt z.rst.cause0 i = (bt s.rst.cause0 i && !(decide (i < 8) && bt b i)) := by
  have hne : b.toNat ≠ 0 := fun he => hb (BitVec.eq_of_toNat_eq he)
  have hright : (if clearsSeen s then Right.w else Right.r) = .w := by
    rw [clearsSeen_eq h, arg_one ha, decide_eq_true hne]
    rfl
  refine ⟨withRst s { s.rst with cause0 := w1c s.rst.cause0 (BitVec.ofNat 32 b.toNat) 0xFF }, _, rfl, ?_, rfl, fun i hi => bt_w1c_seen _ _ hi⟩
  rw [hright]
  have hrange : (alen o 0 || alen o 1) = true := by rw [alen_one ha, Bool.or_true]
  refine Ends.same (run_done h (by decide) hrange rfl (res := words [s.rst.cause0, s.rst.cause1]) ?_ rfl rfl rfl) rfl rfl ?_
  · dsimp only
    rw [arg_one ha]
  · exact congrArg _ (List.append_nil _)

/-! ## SYS.RESET -/

/-- An answer of SYS.RESET starts the 10 µs of R382; the rest is that of any answer. -/
theorem writeAnswer_resets (s : State) (o : Order) (h : resetAnswer o) :
    writeAnswer s o = { s with
      host := (writeAnswer s o).host
      pins := (writeAnswer s o).pins
      rst := { s.rst with softDue := some (s.rst.softDue.getD (s.now + 10000)), softMb := o.mb }
      key := { s.key with mb := (writeAnswer s o).key.mb } } := by
  unfold writeAnswer
  dsimp only
  rw [if_pos (show o.group = 1 ∧ o.verb = 3 ∧ o.refuse = 0 ∧ o.code ≠ St.unsupported from h)]
  generalize BitVec.ofNat 64 _ = w
  rw [mbIrq_frame]
  rfl

/-- The state of a batch of which nothing is left. -/
def batchOver (z : State) : State := withKey z { z.key with batch := [], batchDone := [] }

theorem finishHead_resets {z : State} {p : Order} (hb : z.key.batch.tail = []) (hd : z.key.batchDone = []) (hs : p.started = false)
    (hr : resetAnswer p) :
    Ends { z with rst := { z.rst with softDue := some (z.rst.softDue.getD (z.now + 10000)), softMb := p.mb } } (finishHead z p) p p.code p.refuse p.res := by
  have hf := writeAnswer_resets (batchOver z) p hr
  have ha := answered_write (batchOver z) p
  have ho := writeAnswer_others (batchOver z) p
  have hgo : finishHead z p = if handoverDue (writeAnswer (batchOver z) p) then
      withKey (writeAnswer (batchOver z) p) { (writeAnswer (batchOver z) p).key with handover := true } else writeAnswer (batchOver z) p := by
    rw [finishHead, settle_last _ p hb (show z.key.batchDone ++ [p] = [p] by rw [hd]; rfl), answerAll_one _ _ hs]
    rfl
  rw [hgo]
  generalize writeAnswer (batchOver z) p = t at *
  have hkey : t.key.handover = z.key.handover := (congrArg (fun v : State => v.key.handover) hf :)
  split
  · refine ⟨ha.same rfl, ?_, ho⟩
    exact (congrArg (fun x : State => withKey x { x.key with handover := true }) hf).trans rfl
  · refine ⟨ha, ?_, ho⟩
    rw [hkey]
    exact hf

theorem sysReset_runs (h : Sole s o 1 3 .w) (ha : o.args = []) : ∃ t, exec .sysReset s = .next t ∧
    Ends { s with rst := { s.rst with softDue := some (s.rst.softDue.getD (s.now + 10000)), softMb := o.mb } } t o St.ok 0 [] := by
  refine ⟨_, rfl, ?_⟩
  rw [run_sole h (alen_nil ha) rfl]
  obtain ⟨⟨hb, hd⟩, ⟨_, h2, h3, h4, h5⟩, _, ⟨h7, h8⟩, _⟩ := h
  have hreset : resetAnswer { o with code := St.ok, res := [], wrote := [] } :=
    ⟨BitVec.eq_of_toNat_eq h7, BitVec.eq_of_toNat_eq h8, h4, show St.ok ≠ St.unsupported by decide⟩
  have hend := finishHead_resets (z := s) (p := { o with code := St.ok, res := [], wrote := [] }) (by rw [hb]; rfl) hd h2 hreset
  obtain ⟨hans, hside, hothers⟩ := hend
  exact ⟨by rw [← h4]; exact hans.order ⟨rfl, rfl, rfl, rfl⟩, hside, hothers⟩

/-! ## SYS.OFFLINE and the package stop -/

theorem sysOffline_holds (h : Sole s o 1 4 .w) (ha : o.args = [1]) (hs : s.key.stopped = true) : ∃ t, exec .sysOffline s = .next t ∧
    Ends { s with key := { s.key with stopHeld := true } } t o St.ok 0 [] := by
  have harg : arg o 0 1 = 1 := arg_one ha
  refine ⟨_, rfl, run_ok h (by decide) (flag_range ha (by decide)) rfl (w := [(tgt 4 0, 1)]) ?_ rfl rfl⟩
  dsimp only
  rw [if_pos harg, if_pos hs]
  rfl

theorem sysOffline_stops (h : Sole s o 1 4 .w) (ha : o.args = [1]) (hs : s.key.stopped = false) (hg : s.key.stopping = false) :
    ∃ t, exec .sysOffline s = .next t ∧ t = { s with key := { s.key with stopping := true, stopSince := s.now } } := by
  have harg : arg o 0 1 = 1 := arg_one ha
  refine ⟨_, rfl, run_later h (flag_range ha (by decide)) rfl ?_⟩
  dsimp only
  rw [if_pos harg, if_neg (by rw [hs]; exact Bool.false_ne_true), beginStop_begins hg]

theorem sysOffline_resumes (h : Sole s o 1 4 .w) (ha : o.args = [0]) (hp : ∀ p ∈ s.key.pending, p.offline = false) :
    ∃ t, exec .sysOffline s = .next t ∧ Ends { s with key := { s.key with stopHeld := false, stopped := false } } t o St.ok 0 [] := by
  have harg : arg o 0 1 ≠ 1 := by
    rw [arg_one ha]
    decide
  have hany : (s.key.pending.any fun p => p.offline) = false := by
    rw [List.any_eq_false]
    exact fun p hm => by rw [hp p hm]; exact Bool.false_ne_true
  refine ⟨_, rfl, run_ok h (by decide) (flag_range ha (by decide)) rfl (w := [(tgt 4 0, 0)]) ?_ rfl rfl⟩
  dsimp only
  rw [if_neg harg, hany, Bool.and_false]
  rfl

theorem forEach_key {α : Type} {f : State → α → State} (hf : ∀ s x, (f s x).key = s.key) (l : List α) (s : State) :
    (forEach s l f).key = s.key :=
  forEach_invariant (I := fun t => t.key = s.key) (f := f) (fun t x ht => (hf t x).trans ht) l s rfl

theorem dropGang_key (s : State) (x : Gang) : (dropGang s x).key = s.key :=
  (forEach_key (f := fun s (c : Nat × Nat) => modCore s c.2 coreFreed) (fun _ _ => rfl) _ _).trans rfl

theorem stopGang_key (s : State) (x : Gang) : (stopGang s x).key = s.key := by
  unfold stopGang
  extract_lets held s1 s2
  split
  · exact dropGang_key s x
  · have h1 : s1.key = s.key := forEach_key (f := fun s (c : Nat × Nat) => modCore s c.2 coreFreed) (fun _ _ => rfl) _ s
    have h2 : s2.key = s1.key := rfl
    exact (forEach_key (f := fun s (c : Nat × Nat) => modCore s c.2 fun k => stopKernel k St.queueGuilty) (fun _ _ => rfl) held s2).trans (h2.trans h1)

theorem guilty_key (s : State) (q : Nat) (code : Code) (f : Option EntryFault) (b : Bool) : (guilty s q code f b).key = s.key := by
  unfold guilty
  extract_lets k s1 s2 s3
  split
  · rfl
  · have h2 : s2.key = s1.key := forEach_key (f := fun s p => dropPoolReqs s p q) (fun _ _ => rfl) _ s1
    have h3 : s3.key = s2.key := forEach_key stopGang_key _ s2
    exact h3.trans h2

/-- The queues with an entry that runs. -/
def runningQueues (s : State) : List Nat := (s.queues.filter fun q => q.2.run.isSome).map Prod.fst

theorem execPackageStop_eq (s : State) : exec .packageStop s = (if !s.key.stopping then .next s
    else if runningQueues s = [] then .next (withKey s { s.key with stopping := false, stopped := true })
    else if s.key.stopSince + 100000000 ≤ s.now then
      .next (forEach s (runningQueues s) fun s q => guilty s q St.queueGuilty (noPacket St.queueGuilty) false)
    else .next s) := rfl

theorem mem_runningQueues {e : Nat × Queue} (he : e ∈ s.queues) (hr : e.2.run.isSome = true) : e.1 ∈ runningQueues s :=
  List.mem_map_of_mem (List.mem_filter.2 ⟨he, hr⟩)

theorem packageStop_ends (hs : s.key.stopping = true) (hq : ∀ e ∈ s.queues, e.2.run = none) : ∃ t, exec .packageStop s = .next t ∧
    t = { s with key := { s.key with stopping := false, stopped := true } } := by
  have hnone : runningQueues s = [] := by
    rw [runningQueues, List.map_eq_nil_iff, List.filter_eq_nil_iff]
    exact fun e he => by rw [hq e he]; exact Bool.false_ne_true
  rw [execPackageStop_eq, if_neg (by rw [hs]; decide), if_pos hnone]
  exact ⟨_, rfl, rfl⟩

theorem packageStop_waits (hs : s.key.stopping = true) (hq : ∃ e ∈ s.queues, e.2.run.isSome = true) :
    (s.now < s.key.stopSince + 100000000 → exec .packageStop s = .next s) ∧
    (s.key.stopSince + 100000000 ≤ s.now → ∃ t, exec .packageStop s = .next t ∧ t.key.stopping = true ∧
      ∀ e ∈ s.queues, e.2.run.isSome = true → (getQueue t e.1).resetting = true) := by
  obtain ⟨e, he, hr⟩ := hq
  have hsome : runningQueues s ≠ [] := List.ne_nil_of_mem (mem_runningQueues he hr)
  rw [execPackageStop_eq, if_neg (by rw [hs]; decide), if_neg hsome]
  refine ⟨fun hlt => if_neg (by omega), fun hle => ⟨_, if_pos hle, ?_⟩⟩
  have hkey := forEach_key (fun u q => guilty_key u q St.queueGuilty (noPacket St.queueGuilty) false) (runningQueues s) s
  obtain ⟨-, hall⟩ := forEach_guilty_resets St.queueGuilty (noPacket St.queueGuilty) false (runningQueues s) s
  exact ⟨by rw [hkey]; exact hs, fun e he hr => hall e.1 (mem_runningQueues he hr)⟩

/-! ## SYS.DRV, SYS.M3 and SYS.SETREAD -/

theorem sysDrv_runs {b : Byte} (h : Sole s o 1 5 .w0) (hb : b.toNat ≤ 1) (ha : o.args = [b]) :
    (o.persist = false → ∃ t, exec .sysDrv s = .next t ∧ Ends s t o St.ok 3 []) ∧
    (o.persist = true → ∃ t, exec .sysDrv s = .next t ∧ Settles s t o { s.key.sets with drv := decide (b = 1) }) := by
  refine ⟨fun hp => ⟨_, rfl, run_state h (flag_range ha hb) hp⟩, fun hp => ⟨_, rfl, ?_⟩⟩
  rw [← arg_one_eq ha]
  exact run_persists h (by decide) (flag_range ha hb) hp (f := fun r => { r with drv := decide (arg o 0 1 = 1) }) rfl rfl rfl

theorem sysM3_runs {b : Byte} (h : Sole s o 1 6 .w0) (hb : b.toNat ≤ 1) (ha : o.args = [b]) : ∃ t, exec .sysM3 s = .next t ∧
    Settles { s with key := { s.key with m3w := decide (b = 1) } } t o { s.key.sets with m3w := decide (b = 1) } := by
  refine ⟨_, rfl, ?_⟩
  rw [← arg_one_eq ha]
  exact run_persists h (by decide) (flag_range ha hb) rfl (f := fun r => { r with m3w := decide (arg o 0 1 = 1) }) rfl rfl rfl

/-- The result of SYS.SETREAD. -/
def setread (s : State) (o : Order) : List Byte :=
  match newest (areaOf s (s.rst.slot ^^ decide (arg o 0 1 = 1))) with
  | none => []
  | some r => laidFree 1 7 (settingsVals r)

theorem setread_length (s : State) (o : Order) : (setread s o).length ≤ 2048 := by
  unfold setread
  split
  · exact Nat.zero_le _
  · exact laidFree_length ..

theorem sysSetread_runs {b : Byte} (h : Sole s o 1 7 .r) (hb : b.toNat ≤ 1) (ha : o.args = [b]) : ∃ t d, exec .sysSetread s = .next t ∧
    Ends s t o St.ok 0 d ∧ d.length ≤ 2048 ∧ (newest (areaOf s (s.rst.slot ^^ decide (b = 1))) = none → d = []) := by
  refine ⟨_, setread s o, rfl, run_reads h (by decide) (flag_range ha hb) rfl rfl, setread_length s o, fun hn => ?_⟩
  rw [setread, arg_one_eq ha, hn]

end

end Sys2Proof.Machine
end

section
/-!
PROOF. The orders of the groups PWR, THM and MEM (R297, R363, R401, R410).
-/

namespace Sys2Proof.Machine

/-! ## Registers from their fields -/

theorem fields_toNat {l : List (Nat × Nat)} {n : Nat} (hl : (l.map fun p => p.1 * 2 ^ p.2).sum = n) (hn : n < 2 ^ 32) : (fields l).toNat = n := by
  rw [fields, hl, BitVec.toNat_ofNat, Nat.mod_eq_of_lt hn]

/-- Bits of a register whose value is known. -/
theorem bf_of_toNat {x : BitVec 32} {n : Nat} (h : x.toNat = n) (hi lo : Nat) : bf x hi lo = n / 2 ^ lo % 2 ^ (hi + 1 - lo) := by
  rw [bf, h]

/-! ## PWR.CAP and PWR.FREQ -/

section
variable {s : State} {o : Order}

/-- PWR_CAP with the three values of PWR.CAP. -/
def capWord (o : Order) : BitVec 32 := fields [(arg o 0 2, 20), (arg o 2 2, 12), (arg o 4 1, 11)]

theorem capWord_fields (h1 : arg o 0 2 ≤ 3000) (h2 : arg o 2 2 ≤ 220) (h3 : arg o 4 1 ≤ 1) :
    bf (capWord o) 31 20 = arg o 0 2 ∧ bf (capWord o) 19 12 = arg o 2 2 ∧ bf (capWord o) 11 11 = arg o 4 1 := by
  have hval : (capWord o).toNat = arg o 0 2 * 2 ^ 20 + arg o 2 2 * 2 ^ 12 + arg o 4 1 * 2 ^ 11 :=
    fields_toNat (by simp only [List.map_cons, List.map_nil, List.sum_cons, List.sum_nil]; omega) (by omega)
  refine ⟨?_, ?_, ?_⟩
  · rw [bf_of_toNat hval]
    omega
  · rw [bf_of_toNat hval]
    omega
  · rw [bf_of_toNat hval]
    omega

theorem pwrCap_runs (h : Sole s o 2 1 .w) (ha : o.args.length = 5) :
    ((arg o 0 2 < 1200 ∨ 3000 < arg o 0 2 ∨ arg o 2 2 < 60 ∨ 220 < arg o 2 2 ∨ 1 < arg o 4 1) →
      ∃ t, exec .pwrCap s = .next t ∧ Ends s t o St.ok 2 []) ∧
    (1200 ≤ arg o 0 2 → arg o 0 2 ≤ 3000 → 60 ≤ arg o 2 2 → arg o 2 2 ≤ 220 → arg o 4 1 ≤ 1 → ∃ t v, exec .pwrCap s = .next t ∧
      bf v 31 20 = arg o 0 2 ∧ bf v 19 12 = arg o 2 2 ∧ bf v 11 11 = arg o 4 1 ∧
      Settles { s with power := { s.power with capNext := v } } t o { s.key.sets with cap := v }) := by
  refine ⟨fun hbad => ⟨_, rfl, run_range h ?_⟩, fun h1 h2 h3 h4 h5 => ?_⟩
  · rw [decide_eq_false (by omega), Bool.and_false]
  · obtain ⟨f1, f2, f3⟩ := capWord_fields h2 h4 h5
    refine ⟨_, capWord o, rfl, f1, f2, f3, ?_⟩
    exact run_persists h (by decide) (by rw [alen_eq ha, decide_eq_true ⟨h1, h2, h3, h4, h5⟩]; rfl) rfl
      (f := fun r => { r with cap := capWord o }) rfl rfl rfl

/-- PWR_FREQ with the two values of PWR.FREQ. -/
def freqWord (o : Order) : BitVec 32 := fields [(arg o 1 1, 8), (arg o 0 1, 0)]

theorem freqWord_fields (h1 : arg o 1 1 ≤ 56) (h2 : arg o 0 1 ≤ arg o 1 1) :
    bf (freqWord o) 13 8 = arg o 1 1 ∧ bf (freqWord o) 5 0 = arg o 0 1 := by
  have hval : (freqWord o).toNat = arg o 1 1 * 2 ^ 8 + arg o 0 1 :=
    fields_toNat (by simp only [List.map_cons, List.map_nil, List.sum_cons, List.sum_nil]; omega) (by omega)
  refine ⟨?_, ?_⟩
  · rw [bf_of_toNat hval]
    omega
  · rw [bf_of_toNat hval]
    omega

theorem pwrFreqOrder_runs (h : Sole s o 2 2 .w) (ha : o.args.length = 2) :
    ((56 < arg o 1 1 ∨ arg o 1 1 < arg o 0 1) → ∃ t, exec .pwrFreq s = .next t ∧ Ends s t o St.ok 2 []) ∧
    (arg o 1 1 ≤ 56 → arg o 0 1 ≤ arg o 1 1 → ∃ t v, exec .pwrFreq s = .next t ∧ bf v 13 8 = arg o 1 1 ∧ bf v 5 0 = arg o 0 1 ∧
      Settles { s with power := { s.power with freqNext := v } } t o { s.key.sets with freq := v }) := by
  refine ⟨fun hbad => ⟨_, rfl, run_range h ?_⟩, fun h1 h2 => ?_⟩
  · rw [decide_eq_false (by omega), Bool.and_false]
  · obtain ⟨f1, f2⟩ := freqWord_fields h1 h2
    refine ⟨_, freqWord o, rfl, f1, f2, ?_⟩
    exact run_persists h (by decide) (by rw [alen_eq ha, decide_eq_true ⟨h1, h2⟩]; rfl) rfl (f := fun r => { r with freq := freqWord o }) rfl rfl rfl

/-! ## PWR.DOMAIN -/

/-- What the move of a domain other than a port group's toward its target does (R363): its own state, and the claims of its cores. -/
structure DomMoves (s t : State) (d : Nat) : Prop where
  key : t.key = s.key
  target : (getDom t d).target = (getDom s d).target

/-- The cores of a group that the power controller had claimed go back. -/
def unclaimed (k : CoreSt) : CoreSt := if k.phase = .powerClaimed then { k with phase := .returning } else k

theorem domAdvance_moves {d : Nat} (hd : d < 104) (s : State) : DomMoves s (domAdvance s d) d := by
  have hset : ∀ v : DomState, DomMoves s (setDom s d { getDom s d with st := v }) d := fun v => ⟨rfl, by rw [getDom_setDom_self]⟩
  have hdown : DomMoves s (startDown s d) d := by
    rw [startDown, if_pos hd]
    exact hset _
  unfold domAdvance
  extract_lets k s1
  split
  · exact hset _
  · split
    · exact hdown
    · exact hset _
  · split
    · exact hdown
    · exact ⟨rfl, rfl⟩
  · split
    · refine forEach_invariant (I := fun t => DomMoves s t d) (f := fun s c => modCore s c unclaimed) (fun t c ht => ⟨ht.key, ht.target⟩) _ s1 (hset _)
    · exact hset _
  all_goals exact ⟨rfl, rfl⟩

/-- The states to which a domain of cores moves with its new target (R363). -/
theorem domAdvance_group {d : Nat} (hd : d < 64) (s : State) :
    ((getDom s d).target = false → (getDom s d).st = .on → (getDom (domAdvance s d) d).st = if groupClaimed s d then .poweringDown else .waiting) ∧
    ((getDom s d).target = true → (getDom s d).st = .off → (getDom (domAdvance s d) d).st = .poweringUp) ∧
    ((getDom s d).target = true → (getDom s d).st = .waiting → (getDom (domAdvance s d) d).st = .on) ∧
    ((getDom s d).st = .poweringUp ∨ (getDom s d).st = .poweringDown → (getDom (domAdvance s d) d).st = (getDom s d).st) := by
  refine ⟨fun ht hst => ?_, fun ht hst => ?_, fun ht hst => ?_, fun hst => ?_⟩
  · have hmay : mayPowerDown s d = groupClaimed s d := if_pos hd
    have hgo : domAdvance s d = if mayPowerDown s d then startDown s d else setDom s d { getDom s d with st := .waiting } := by
      unfold domAdvance
      dsimp only
      rw [hst, ht]
    rw [hgo, hmay]
    split
    · rw [startDown, if_pos (show d < 104 by omega), getDom_setDom_self]
    · rw [getDom_setDom_self]
  · rw [domAdvance_rises hst ht, getDom_setDom_self]
  · have hgo : domAdvance s d = forEach (setDom s d { getDom s d with st := .on }) ((List.range 4).map fun i => 4 * d + i) fun s c => modCore s c unclaimed := by
      unfold domAdvance
      dsimp only
      rw [hst, ht]
      exact if_pos hd
    rw [hgo]
    refine forEach_invariant (I := fun t => (getDom t d).st = .on) (f := fun s c => modCore s c unclaimed) (fun _ _ hu => hu) _ _ ?_
    rw [getDom_setDom_self]
  · unfold domAdvance
    dsimp only
    rcases hst with hst | hst
    · rw [hst]
      exact hst
    · rw [hst]
      exact hst

theorem domTarget_key {d : Nat} (hd : d < 104) (s : State) (on : Bool) : (domTarget s d on).key = s.key :=
  (domAdvance_moves hd _).key

theorem domTarget_target {d : Nat} (hd : d < 104) (s : State) (on : Bool) : (getDom (domTarget s d on) d).target = on := by
  have h := (domAdvance_moves hd (setDom s d { getDom s d with target := on })).target
  rw [getDom_setDom_self] at h
  exact h

theorem domTarget_group {d : Nat} (hd : d < 64) (s : State) (on : Bool) :
    (on = false → (getDom s d).st = .on → (getDom (domTarget s d on) d).st = if groupClaimed s d then .poweringDown else .waiting) ∧
    (on = true → (getDom s d).st = .off → (getDom (domTarget s d on) d).st = .poweringUp) ∧
    (on = true → (getDom s d).st = .waiting → (getDom (domTarget s d on) d).st = .on) ∧
    ((getDom s d).st = .poweringUp ∨ (getDom s d).st = .poweringDown → (getDom (domTarget s d on) d).st = (getDom s d).st) := by
  have h := domAdvance_group hd (setDom s d { getDom s d with target := on })
  rw [getDom_setDom_self] at h
  exact h

/-- The state check of PWR.DOMAIN (R363). -/
theorem pwrDomain_refused (h : Sole s o 2 3 .w) (ha : o.args.length = 2) (h1 : arg o 0 1 ≤ 107) (h2 : arg o 1 1 ≤ 1)
    (hbad : (64 ≤ arg o 0 1 ∧ arg o 0 1 < 80) ∨ (80 ≤ arg o 0 1 ∧ arg o 0 1 < 96 ∧ arg o 1 1 = 0 ∧ stackRetired s (arg o 0 1 - 80) = false)) :
    ∃ t, exec .pwrDomain s = .next t ∧ Ends s t o St.ok 3 [] := by
  refine ⟨_, rfl, run_state h (by rw [alen_eq ha, decide_eq_true ⟨h1, h2⟩]; rfl) ?_⟩
  dsimp only
  rcases hbad with hq | ⟨g1, g2, g3, g4⟩
  · rw [decide_eq_true hq]
    rfl
  · rw [decide_eq_true (show 80 ≤ arg o 0 1 ∧ arg o 0 1 < 96 ∧ arg o 1 1 = 0 from ⟨g1, g2, g3⟩), g4]
    exact Bool.and_false _

theorem pwrDomain_moves (h : Sole s o 2 3 .w) (ha : o.args.length = 2) (h2 : arg o 1 1 ≤ 1) (hd : arg o 0 1 < 64) :
    ∃ z t, exec .pwrDomain s = .next t ∧ Ends z t o St.ok 0 [] ∧ (getDom z (arg o 0 1)).target = decide (arg o 1 1 = 1) ∧
      (arg o 1 1 = 0 → (getDom s (arg o 0 1)).st = .on → (getDom z (arg o 0 1)).st =
        if groupClaimed s (arg o 0 1) then .poweringDown else .waiting) ∧
      (arg o 1 1 = 1 → (getDom s (arg o 0 1)).st = .off → (getDom z (arg o 0 1)).st = .poweringUp) ∧
      (arg o 1 1 = 1 → (getDom s (arg o 0 1)).st = .waiting → (getDom z (arg o 0 1)).st = .on) ∧
      ((getDom s (arg o 0 1)).st = .poweringUp ∨ (getDom s (arg o 0 1)).st = .poweringDown →
        (getDom z (arg o 0 1)).st = (getDom s (arg o 0 1)).st) := by
  have hkey := domTarget_key (show arg o 0 1 < 104 by omega) s (decide (arg o 1 1 = 1))
  obtain ⟨g1, g2, g3, g4⟩ := domTarget_group hd s (decide (arg o 1 1 = 1))
  have hstate : (!(decide (64 ≤ arg o 0 1 ∧ arg o 0 1 < 80)) && (!(decide (80 ≤ arg o 0 1 ∧ arg o 0 1 < 96 ∧ arg o 1 1 = 0)) ||
      stackRetired s (arg o 0 1 - 80))) = true := by
    rw [decide_eq_false (by omega), decide_eq_false (by omega)]
    rfl
  refine ⟨domTarget s (arg o 0 1) (decide (arg o 1 1 = 1)), _, rfl, ?_, domTarget_target (by omega) s _, fun h0 => g1 (decide_eq_false (by omega)),
    fun h1 => g2 (decide_eq_true h1), fun h1 => g3 (decide_eq_true h1), g4⟩
  exact run_ok h (by decide) (by rw [alen_eq ha, decide_eq_true (show arg o 0 1 ≤ 107 ∧ arg o 1 1 ≤ 1 by omega)]; rfl) hstate rfl
    (by rw [hkey]) (by rw [hkey])

/-! ## PWR.STATUS, THM.COOLANT and THM.STATUS -/

theorem pwrStatus_runs (h : Sole s o 2 4 .r) (ha : o.args = []) : ∃ t, exec .pwrStatus s = .next t ∧ Ends s t o St.ok 0
    (([pwrStat s, s.power.capNext, s.power.freqNext] ++ (List.range 8).map (pwrTwr s) ++ (List.range 108).map (domStat s)).flatMap
      fun w => toLe 4 w.toNat) :=
  ⟨_, rfl, run_reads h (by decide) (alen_nil ha) rfl rfl⟩

theorem thmCoolant_runs (h : Sole s o 3 1 .w) (ha : o.args.length = 4) : ∃ t, exec .thmCoolant s = .next t ∧
    Ends { s with power := { s.power with inlet := arg o 0 2, flow := arg o 2 2, coolantAt := s.now, stale := false } } t o St.ok 0 [] :=
  ⟨_, rfl, run_ok h (by decide) (alen_eq ha) rfl rfl rfl rfl⟩

theorem length_flatMap_const {α : Type} (f : Nat → List α) {k : Nat} (h : ∀ i, (f i).length = k) : ∀ n, ((List.range n).flatMap f).length = k * n
  | 0 => rfl
  | n + 1 => by
    rw [List.range_succ, List.flatMap_append, List.length_append, length_flatMap_const f h n, List.flatMap_cons, List.flatMap_nil, List.append_nil, h,
      Nat.mul_succ]

/-- A part of a result that lists `n` parts of `k` bytes. -/
theorem slice_flatMap (f : Nat → List Byte) {k : Nat} (h : ∀ i, (f i).length = k) (tail : List Byte) {n i : Nat} (hi : i < n) :
    slice ((List.range n).flatMap f ++ tail) (k * i) k = f i := by
  have hsplit : List.range n = List.range i ++ (i :: (List.range (n - (i + 1))).map (i + 1 + ·)) := by
    conv_lhs => rw [show n = (i + 1) + (n - (i + 1)) by omega, List.range_add, List.range_succ]
    rw [List.append_assoc]
    rfl
  rw [hsplit, List.flatMap_append, List.flatMap_cons, List.append_assoc, List.append_assoc, slice, List.drop_left' (length_flatMap_const f h i),
    List.take_left' (h i), h, Nat.sub_self]
  exact List.append_nil _

/-- The temperatures of THM.STATUS. -/
def sensorBytes (s : State) : List Byte := (List.range 74).flatMap fun i => toLe 2 (BitVec.ofInt 16 (s.power.sensors.getD i 0)).toNat

/-- The coolant words of THM.STATUS. -/
def coolantBytes (s : State) : List Byte := toLe 2 s.power.inlet ++ (toLe 2 s.power.flow ++ toLe 2 (min 65535 ((s.now - s.power.coolantAt) / 1000000)))

theorem thmStatus_runs (h : Sole s o 3 2 .r) (ha : o.args = []) : ∃ t d, exec .thmStatus s = .next t ∧ Ends s t o St.ok 0 d ∧ d.length = 154 ∧
    ∀ i < 74, fieldLe d (2 * i) 2 = (BitVec.ofInt 16 (s.power.sensors.getD i 0)).toNat := by
  have hbody : sensorBytes s ++ toLe 2 s.power.inlet ++ toLe 2 s.power.flow ++ toLe 2 (min 65535 ((s.now - s.power.coolantAt) / 1000000)) =
      sensorBytes s ++ coolantBytes s := by
    rw [coolantBytes, List.append_assoc, List.append_assoc]
  refine ⟨_, sensorBytes s ++ coolantBytes s, rfl, run_reads h (by decide) (alen_nil ha) rfl (congrArg (ranRead s) hbody), ?_, fun i hi => ?_⟩
  · rw [List.length_append, sensorBytes, length_flatMap_const _ (k := 2) (fun _ => toLe_length ..), coolantBytes, List.length_append, List.length_append,
      toLe_length, toLe_length, toLe_length]
  · rw [fieldLe, sensorBytes, slice_flatMap _ (fun _ => toLe_length ..) _ hi, leNat_toLe]
    exact Nat.mod_eq_of_lt (BitVec.isLt _)

/-! ## MEM -/

theorem memIntlv_runs {b : Byte} (h : Sole s o 4 1 .w) (hb : b.toNat ≤ 1) (ha : o.args = [b]) :
    (o.persist = false → ∃ t, exec .memIntlv s = .next t ∧ Ends s t o St.ok 3 []) ∧
    (o.persist = true → ∃ t, exec .memIntlv s = .next t ∧ Settles s t o { s.key.sets with tower := decide (b = 1) }) := by
  refine ⟨fun hp => ⟨_, rfl, run_state h (flag_range ha hb) hp⟩, fun hp => ⟨_, rfl, ?_⟩⟩
  rw [← arg_one_eq ha]
  exact run_persists h (by decide) (flag_range ha hb) hp (f := fun r => { r with tower := decide (arg o 0 1 = 1) }) rfl rfl rfl

theorem qkind_range (ha : o.args.length = 3) (h1 : arg o 0 1 ≤ 7) (h2 : arg o 1 1 ≤ 7) (h3 : arg o 2 1 ≤ 3) :
    (alen o 3 && decide (arg o 0 1 ≤ 7 ∧ arg o 1 1 ≤ 7 ∧ arg o 2 1 ≤ 3)) = true := by
  rw [alen_eq ha, decide_eq_true ⟨h1, h2, h3⟩]
  rfl

theorem memQkind_refused (h : Sole s o 4 2 .w) (ha : o.args.length = 3) (h1 : arg o 0 1 ≤ 7) (h2 : arg o 1 1 ≤ 7) (h3 : arg o 2 1 ≤ 3)
    (hret : bt (getTower s (arg o 0 1)).part (16 + arg o 1 1) = true) : ∃ t, exec .memQkind s = .next t ∧ Ends s t o St.ok 3 [] := by
  refine ⟨_, rfl, run_state h (qkind_range ha h1 h2 h3) ?_⟩
  dsimp only
  rw [hret]
  rfl

/-- The tower once a change of kind waits there. -/
def kindAsked (s : State) (o : Order) : State :=
  modTower s (arg o 0 1) fun w => { w with changing := w.changing ++ [(arg o 1 1, arg o 2 1)] }

/-- The half-slice of the unit gets its power unless the unit is to be OFF (R293). -/
def kindPowered (s : State) (o : Order) : State :=
  if arg o 2 1 = 3 then kindAsked s o else domTarget (kindAsked s o) (64 + halfOf (arg o 0 1) (arg o 1 1)) true

/-- A domain beyond the groups that is to be on changes only its own state. -/
theorem domAdvance_rising {d : Nat} (hd : 64 ≤ d) {s : State} (ht : (getDom s d).target = true) : ∃ p, domAdvance s d = withPower s p := by
  unfold domAdvance
  dsimp only
  rw [ht]
  cases (getDom s d).st
  case waiting => exact ⟨_, if_neg (Nat.not_lt.2 hd)⟩
  case off => exact ⟨_, rfl⟩
  all_goals exact ⟨s.power, rfl⟩

theorem kindPowered_side (s : State) (o : Order) : kindPowered s o = { s with towers := (kindPowered s o).towers, power := (kindPowered s o).power } ∧
    (kindPowered s o).towers = (kindAsked s o).towers := by
  unfold kindPowered
  split
  · exact ⟨rfl, rfl⟩
  · obtain ⟨p, hp⟩ := domAdvance_rising (d := 64 + halfOf (arg o 0 1) (arg o 1 1)) (Nat.le_add_right ..)
      (s := setDom (kindAsked s o) (64 + halfOf (arg o 0 1) (arg o 1 1)) { getDom (kindAsked s o) (64 + halfOf (arg o 0 1) (arg o 1 1)) with target := true })
      (by rw [getDom_setDom_self])
    rw [domTarget, hp]
    exact ⟨rfl, rfl⟩

theorem memQkind_waits (h : Sole s o 4 2 .w) (ha : o.args.length = 3) (h1 : arg o 0 1 ≤ 7) (h2 : arg o 1 1 ≤ 7) (h3 : arg o 2 1 ≤ 3)
    (hret : bt (getTower s (arg o 0 1)).part (16 + arg o 1 1) = false) (hk : qKind s (arg o 0 1) (arg o 1 1) ≠ 2) (hp : o.persist = false) :
    ∃ z t, exec .memQkind s = .next t ∧ Ends z t o St.ok 0 [] ∧ z = { s with towers := z.towers, power := z.power } ∧
      (getTower z (arg o 0 1)).changing = (getTower s (arg o 0 1)).changing ++ [(arg o 1 1, arg o 2 1)] ∧
      (arg o 2 1 = 3 → z.power = s.power) ∧
      (arg o 2 1 ≠ 3 → (getDom z (64 + halfOf (arg o 0 1) (arg o 1 1))).target = true) := by
  obtain ⟨hside, htowers⟩ := kindPowered_side s o
  have hkey : (kindPowered s o).key = s.key := (congrArg State.key hside :)
  have hstate : (!bt (getTower s (arg o 0 1)).part (16 + arg o 1 1) && (decide (qKind s (arg o 0 1) (arg o 1 1) ≠ 2) ||
      (entriesOf s (windowGranule (arg o 0 1) (arg o 1 1))).all fun e => decide (bf e 15 14 = 0))) = true := by
    rw [hret, decide_eq_true hk]
    rfl
  refine ⟨kindPowered s o, _, rfl, ?_, hside, ?_, fun h3 => ?_, fun h3 => ?_⟩
  · exact (run_persists h (by decide) (qkind_range ha h1 h2 h3) hstate (z := kindPowered s o)
      (f := fun r => { r with kinds := tset 0x5000 r.kinds (arg o 0 1) (sf (tget 0x5000 r.kinds (arg o 0 1)) (2 * arg o 1 1 + 1) (2 * arg o 1 1) (arg o 2 1)) })
      rfl (by rw [hkey]) (by rw [hkey])).1 hp
  · have hget : getTower (kindPowered s o) (arg o 0 1) = getTower (kindAsked s o) (arg o 0 1) := by
      rw [getTower, htowers]
      rfl
    rw [hget, kindAsked, getTower_modTower_self]
  · rw [kindPowered, if_pos h3]
    rfl
  · have hhalf : 64 + halfOf (arg o 0 1) (arg o 1 1) < 104 := by
      rw [halfOf]
      omega
    rw [kindPowered, if_neg h3]
    exact domTarget_target hhalf _ true

theorem memStatus_runs (h : Sole s o 4 3 .r) (ha : o.args.length = 4) (h1 : 1 ≤ arg o 2 2) (h2 : arg o 2 2 ≤ 500) (h3 : arg o 0 2 + arg o 2 2 ≤ 512) :
    ∃ t, exec .memStatus s = .next t ∧ Ends s t o St.ok 0 (([s.memcfg] ++ (List.range 8).map (qryPart s)
      ++ (List.range (arg o 2 2)).map fun i => (getHbm s (arg o 0 2 + i)).stat).flatMap fun w => toLe 4 w.toNat) :=
  ⟨_, rfl, run_reads h (by decide) (by rw [alen_eq ha, decide_eq_true ⟨h1, h2, h3⟩]; rfl) rfl rfl⟩

end

end Sys2Proof.Machine
end

section
/-!
PROOF. What reports leave of Keystone (R14, R218, R421): its batch, its started orders, its settings and its self-test stand.
-/

namespace Sys2Proof.Machine

/-- Of Keystone only the pages of the mailboxes, the number of the latest record and the unit records differ. -/
def Mailed (s t : State) : Prop := t.key = { s.key with mb := t.key.mb, rseq := t.key.rseq, recs := t.key.recs }

theorem mailed_of_key {s t : State} (h : t.key = s.key) : Mailed s t := by
  unfold Mailed
  rw [h]

theorem Mailed.refl (s : State) : Mailed s s := rfl

theorem Mailed.trans {a s t : State} (h : Mailed a s) (g : Mailed s t) : Mailed a t := by
  unfold Mailed at *
  rw [g, h]

section
variable {s t : State}

theorem Mailed.batch (h : Mailed s t) : t.key.batch = s.key.batch := (congrArg KeySt.batch h :)
theorem Mailed.batchDone (h : Mailed s t) : t.key.batchDone = s.key.batchDone := (congrArg KeySt.batchDone h :)
theorem Mailed.waits (h : Mailed s t) : t.key.pending = s.key.pending := (congrArg KeySt.pending h :)
theorem Mailed.sets (h : Mailed s t) : t.key.sets = s.key.sets := (congrArg KeySt.sets h :)
theorem Mailed.test (h : Mailed s t) : t.key.test = s.key.test := (congrArg KeySt.test h :)

end

theorem forEach_mailed {α : Type} {f : State → α → State} (hf : ∀ s x, Mailed s (f s x)) (l : List α) (s : State) : Mailed s (forEach s l f) :=
  forEach_invariant (I := Mailed s) (fun u x hu => hu.trans (hf u x)) l s (.refl s)

/-! ## Records and events -/

theorem rasToRing_mailed (s : State) (m : Nat) (r : List Byte) : Mailed s (rasToRing s m r) := by
  unfold rasToRing
  dsimp only
  split
  · rfl
  · refine Mailed.trans (s := setMbox s m { getMbox s m with page := wrN (getMbox s m).page (0xC00 + 32 * (bf (getMbox s m).ras 31 16 % 32)) r, ras := sf (getMbox s m).ras 31 16 (bf (getMbox s m).ras 31 16 + 1) }) rfl ?_
    exact mailed_of_key (mbIrq_key ..)

theorem rasTo_mailed (s : State) (ms : List Nat) (code : Code) (kind queue : Nat) (unit : BitVec 32) (ctx detail : Nat) :
    Mailed s (rasTo s ms code kind queue unit ctx detail) :=
  (forEach_mailed (f := fun t m => rasToRing t m (rasBytes s code kind queue unit ctx detail)) (fun t m => rasToRing_mailed t m _) ms s).trans rfl

theorem ras_mailed (s : State) (code : Code) (kind : Nat) (unit : BitVec 32) (detail : Nat) : Mailed s (ras s code kind unit detail) :=
  rasTo_mailed ..

theorem eventTry_key {s t : State} {x : Nat} {r : List Byte} (h : eventTry s x r = some t) : t.key = s.key := by
  unfold eventTry at h
  extract_lets k a at h
  split at h
  · rw [← Option.some.inj h]
    rfl
  · have hw : (hubWrite s x 2 (BitVec.ofNat 64 a) .write r .home).s.key = s.key := (congrArg State.key (hubWrite_side (MemorySide.refl s)) :)
    generalize hubWrite s x 2 (BitVec.ofNat 64 a) .write r .home = w at h hw
    obtain ⟨c, y, s1⟩ := w
    dsimp only at h hw
    split at h
    · exact absurd h (by simp)
    · split at h
      · rw [← Option.some.inj h]
        exact hw
      · rw [← Option.some.inj h]
        split
        · exact (interrupt_key ..).trans hw
        · exact hw

theorem event_key (s : State) (x : Nat) (r : List Byte) : (event s x r).key = s.key := by
  unfold event
  extract_lets wait
  split
  · rfl
  · split
    · next h => exact eventTry_key h
    · rfl

theorem report_mailed (s : State) (xs : List Nat) (code : Code) (kind : Nat) (unit : BitVec 32) (detail : Nat) :
    Mailed s (report s xs code kind unit detail) := by
  have hev : (forEach s xs fun s x => rasCtx s x code 0xFFFF unit).key = s.key := forEach_key (f := fun s x => rasCtx s x code 0xFFFF unit) (fun _ _ => event_key ..) xs s
  exact (mailed_of_key hev).trans (rasTo_mailed ..)

theorem recUnits_mailed (s : State) (f : UnitRecs → UnitRecs) (order : Option Nat) : Mailed s (recUnits s f order) := by
  unfold Mailed recUnits
  rw [storePush_key]
  rfl

theorem recRetire_mailed (s : State) (u : Nat) (order : Option Nat) : Mailed s (recRetire s u order) :=
  Mailed.trans (s := withStore s { s.store with sincePwr := tset 0 s.store.sincePwr u (tget 0 s.store.sincePwr u + 1) }) rfl (recUnits_mailed ..)

/-! ## Ports -/

theorem plumbCheck_key (s : State) : (plumbCheck s).key = s.key := by
  obtain ⟨k, hk, -⟩ := plumbCheck_plumb s
  rw [hk]
  rfl

theorem putPort_key (s : State) (p : Nat) (k : PortSt) : (putPort s p k).key = s.key := plumbCheck_key _

theorem sendOn_key (p : Nat) (s : State) (e : SpanPkt × Nat × Nat) : (sendOn p s e).key = s.key := by
  unfold sendOn
  cases routeOf s e.1 <;> rfl

theorem leaveUp_mailed (s : State) (p : Nat) : Mailed s (leaveUp s p) := by
  have hsend : (forEach (setPort s p (emptied (getPort s p))) (heldPackets (getPort s p) s.now) (sendOn p)).key = s.key :=
    (forEach_key (sendOn_key p) _ _).trans rfl
  exact (mailed_of_key hsend).trans (ras_mailed ..)

theorem portStop_mailed (s : State) (p : Nat) (st : PortState) (c : BitVec 3) : Mailed s (portStop s p st c) := by
  rw [portStop_eq]
  split
  · exact (mailed_of_key (putPort_key ..)).trans (leaveUp_mailed ..)
  · exact mailed_of_key (putPort_key ..)

theorem portStart_mailed (s : State) (p : Nat) : Mailed s (portStart s p) := by
  unfold portStart
  split
  · rfl
  · split
    · exact mailed_of_key (putPort_key ..)
    · exact portStop_mailed ..

theorem commitPort_mailed (s : State) (p : Nat) : Mailed s (commitPort s p) := by
  unfold commitPort
  extract_lets k old s1
  have h1 : Mailed s s1 := rfl
  split
  · exact h1.trans (portStart_mailed ..)
  · split
    · exact h1.trans (portStop_mailed ..)
    · split
      · exact h1.trans rfl
      · exact h1

theorem spanCommitAll_mailed (s : State) : Mailed s (spanCommitAll s) := by
  unfold spanCommitAll
  extract_lets s1
  have h1 : Mailed s s1 := forEach_mailed commitPort_mailed _ s
  exact h1.trans (mailed_of_key (plumbCheck_key _))

end Sys2Proof.Machine
end

section
/-!
PROOF. The orders of the group SPAN (R307, R329, R331, R407, R410).
-/

namespace Sys2Proof.Machine

/-! ## Orders that only start (R404) -/

/-- An order that started at `now`. -/
def startedOrder (o : Order) (now : Nat) (w : List (Nat × Nat)) : Order := { o with started := true, busy := false, since := now, wrote := w }

theorem answerAll_started {y : State} {p : Order} {ps : List Order} (hs : p.started = true) (hy : y.key.pending = ps ++ [p])
    (hne : ∀ q ∈ ps, q.mb ≠ p.mb) : answerAll [p] y = y := by
  have hsup : supersede p [] = p := by
    rw [supersede, if_neg]
    rintro ⟨hc, -⟩
    simp [contradicted] at hc
  have hold : ps.map (fun q => if q.mb = p.mb then { q with code := p.code } else q) = ps := by
    refine (List.map_congr_left fun q hq => if_neg (hne q hq)).trans (List.map_id _)
  have hmap : y.key.pending.map (fun q => if q.mb = p.mb then { q with code := p.code } else q) = y.key.pending := by
    rw [hy, List.map_append, hold, List.map_cons, List.map_nil, if_pos rfl]
  unfold answerAll
  dsimp only
  rw [hsup, if_pos hs, hmap]
  rfl

/-- The package once an order has started and its batch is over. -/
def begun (z : State) (o : Order) (w : List (Nat × Nat)) : State :=
  withKey z { z.key with batch := [], batchDone := [], pending := z.key.pending ++ [startedOrder o z.now w] }

theorem begun_waits (z : State) {o : Order} (w : List (Nat × Nat)) (h : o.code = St.ok) : ∃ p, (begun z o w).key.pending = z.key.pending ++ [p] ∧
    p.mb = o.mb ∧ p.group = o.group ∧ p.verb = o.verb ∧ p.seq = o.seq ∧ p.args = o.args ∧ p.offline = o.offline ∧ p.started = true ∧
    p.busy = false ∧ p.since = z.now ∧ p.code = St.ok :=
  ⟨startedOrder o z.now w, rfl, rfl, rfl, rfl, rfl, rfl, rfl, rfl, rfl, rfl, h⟩

/-- The one order of a batch that only starts: it waits among the started orders, and the batch is over. -/
theorem started_begins {s : State} {o : Order} {g v : Nat} {right : Right} (h : Sole s o g v right) (z : State)
    (hb : z.key.batch = s.key.batch) (hd : z.key.batchDone = s.key.batchDone) (hp : ∀ p ∈ z.key.pending, p.mb ≠ o.mb) (w : List (Nat × Nat)) :
    Begins z (settleOrder o ⟨z, .started false, w⟩) o := by
  obtain ⟨⟨k1, k2⟩, ⟨h1, h2, h3, h4, h5⟩, -⟩ := h
  rw [k1] at hb
  rw [k2] at hd
  have hgo : settleOrder o ⟨z, .started false, w⟩ = settleBatch (withKey (begun z o w) { (begun z o w).key with batchDone := [startedOrder o z.now w] }) := by
    unfold settleOrder finishHead
    show settleBatch (withKey z { z.key with batch := z.key.batch.tail, batchDone := z.key.batchDone ++ [startedOrder o z.now w], pending := z.key.pending ++ [startedOrder o z.now w] }) = _
    rw [hb, hd]
    rfl
  have hans : answerAll [startedOrder o z.now w] (begun z o w) = begun z o w := answerAll_started rfl rfl hp
  have hend : settleBatch (withKey (begun z o w) { (begun z o w).key with batchDone := [startedOrder o z.now w] }) =
      if handoverDue (begun z o w) then withKey (begun z o w) { (begun z o w).key with handover := true } else begun z o w := by
    conv_rhs => rw [← hans]
    exact settle_last _ _ rfl rfl
  have hwaits := begun_waits z w h3
  rw [hgo, hend]
  split
  · exact ⟨rfl, hwaits⟩
  · exact ⟨rfl, hwaits⟩

/-! ## SPAN.ID, SPAN.PORTS and SPAN.PLUMB -/

section
variable {s : State} {o : Order}

/-- SPAN_ID as SPAN.ID writes it: every bit that is written lies in a field of the register. -/
def idWord (o : Order) : BitVec 32 := fields [(1, 31), (arg o 0 2, 16), (arg o 2 1, 0)]

theorem idWord_toNat (h : arg o 0 2 ≤ 511) : (idWord o).toNat = 2 ^ 31 + arg o 0 2 * 2 ^ 16 + arg o 2 1 := by
  have hlt := arg_lt o 2 1
  exact fields_toNat (by simp only [List.map_cons, List.map_nil, List.sum_cons, List.sum_nil]; omega) (by omega)

theorem bt_of_bf {x : BitVec 32} {i b : Nat} (h : bf x i i = b) : bt x i = decide (b = 1) := by
  rw [← h, bt, ← BitVec.testBit_toNat, Nat.testBit_eq_decide_div_mod_eq, bf, show i + 1 - i = 1 by omega]
  rfl

theorem idWord_fields (h : arg o 0 2 ≤ 511) : bt (idWord o) 31 = true ∧ bf (idWord o) 24 16 = arg o 0 2 ∧ bf (idWord o) 7 0 = arg o 2 1 ∧
    bf (idWord o) 30 25 = 0 ∧ bf (idWord o) 15 8 = 0 := by
  have hval := idWord_toNat h
  have hlt := arg_lt o 2 1
  have hbit : bf (idWord o) 31 31 = 1 := by
    rw [bf_of_toNat hval]
    omega
  refine ⟨bt_of_bf hbit, ?_, ?_, ?_, ?_⟩
  all_goals
    rw [bf_of_toNat hval]
    omega

theorem idWord_masked (h : arg o 0 2 ≤ 511) : idWord o &&& 0x81FF00FF = idWord o := by
  obtain ⟨-, -, -, h1, h2⟩ := idWord_fields h
  have hout : ∀ hi lo i, bf (idWord o) hi lo = 0 → lo ≤ i → i ≤ hi → (idWord o).getLsbD i = false := fun hi lo i h0 hl hh => by
    have ht := testBit_bf (idWord o) hi lo (i - lo)
    rw [h0, Nat.zero_testBit, show lo + (i - lo) = i by omega, decide_eq_true (show i - lo < hi + 1 - lo by omega)] at ht
    exact ht.symm
  apply BitVec.eq_of_getLsbD_eq
  intro i hi
  rw [BitVec.getLsbD_and]
  by_cases hin : (25 ≤ i ∧ i ≤ 30) ∨ (8 ≤ i ∧ i ≤ 15)
  · rcases hin with ⟨a, b⟩ | ⟨a, b⟩
    · rw [hout 30 25 i h1 a b, Bool.false_and]
    · rw [hout 15 8 i h2 a b, Bool.false_and]
  · have hmask : (0x81FF00FF : BitVec 32).getLsbD i = true := by
      revert hin
      revert i
      decide
    rw [hmask, Bool.and_true]

theorem spanId_runs (h : Sole s o 5 1 .w) (ha : o.args.length = 3) (h1 : arg o 0 2 ≤ 511) :
    (s.span.routeEn = true → ∃ t, exec .spanId s = .next t ∧ Ends s t o St.ok 3 []) ∧
    (s.span.routeEn = false → ∃ t v, exec .spanId s = .next t ∧ bt v 31 = true ∧ bf v 24 16 = arg o 0 2 ∧ bf v 7 0 = arg o 2 1 ∧
      Settles { s with span := { s.span with id := v } } t o { s.key.sets with spanId := v }) := by
  have hrange : (alen o 3 && decide (arg o 0 2 ≤ 511)) = true := by
    rw [alen_eq ha, decide_eq_true h1]
    rfl
  refine ⟨fun hen => ⟨_, rfl, run_state h hrange (by rw [hen]; rfl)⟩, fun hen => ?_⟩
  obtain ⟨f1, f2, f3, -, -⟩ := idWord_fields h1
  have hset : spanIdSet s (idWord o) = { s with span := { s.span with id := idWord o } } := by
    rw [spanIdSet, if_neg (by rw [hen]; exact Bool.false_ne_true), idWord_masked h1]
    rfl
  refine ⟨_, idWord o, rfl, f1, f2, f3, ?_⟩
  exact run_persists h (by decide) hrange (by rw [hen]; rfl) (z := { s with span := { s.span with id := idWord o } })
    (f := fun r => { r with spanId := idWord o }) (w := [(tgt 15 0, (idWord o).toNat)])
    (congrArg (fun z => endPersist z o (fun r => { r with spanId := idWord o }) [(tgt 15 0, (idWord o).toNat)]) hset) rfl rfl

theorem spanCommit_driver {view : View} {x : State} (hv : isDriver x view = true) : exec (.spanCommit view) x = .next (spanCommitAll x) :=
  congrArg Host.Outcome.next (if_pos hv)

/-- A port's shadow from the byte of SPAN.PORTS. -/
def shadowWord (n : Nat) : BitVec 32 := fields [(n / 128, 31), (n % 4, 29)]

def portAsked (o : Order) (p : Nat) (k : PortSt) : PortSt := { k with cfgShadow := shadowWord (arg o p 1) }

/-- The shadows that SPAN.PORTS writes. -/
def portsAsked (s : State) (o : Order) : State := forEach s (List.range 18) fun s p => modPort s p (portAsked o p)

theorem shadowWord_fields {n : Nat} (h : n < 256) : bt (shadowWord n) 31 = decide (128 ≤ n) ∧ bf (shadowWord n) 30 29 = n % 4 := by
  have hall : ∀ q < 2, ∀ r < 4, bt (fields [(q, 31), (r, 29)]) 31 = decide (q = 1) ∧ bf (fields [(q, 31), (r, 29)]) 30 29 = r := by decide
  obtain ⟨h31, h30⟩ := hall (n / 128) (by omega) (n % 4) (by omega)
  have hone : n / 128 = 1 ↔ 128 ≤ n := by omega
  exact ⟨h31.trans (decide_eq_decide.2 hone), h30⟩

theorem PortsSide.keystone {s t : State} (h : PortsSide s t) : t.key = s.key := by rw [h]

theorem portsAsked_each (s : State) (o : Order) : PortsSide s (portsAsked s o) ∧
    ∀ p < 18, getPort (portsAsked s o) p = portAsked o p (getPort s p) := by
  obtain ⟨h1, -, h3⟩ := forEach_each (get := getPort) (I := PortsSide s) (R := fun p k m => m = portAsked o p k) (f := fun s p => modPort s p (portAsked o p))
    (fun t p ht => ⟨ht.trans (portsSide_setPort ..), fun q hq => getPort_setPort_ne _ _ hq, getPort_setPort_self ..⟩) (List.range 18) s List.nodup_range (.refl s)
  exact ⟨h1, fun p hp => h3 p (mem_ports hp)⟩

theorem spanPorts_runs (h : Sole s o 5 2 .w) (ha : o.args.length = 18) (hz : ∀ b ∈ o.args, b &&& 0x7C = 0) {view : View} (hv : isDriver s view = true) :
    ∃ x z t, exec .spanPorts s = .next t ∧ exec (.spanCommit view) x = .next z ∧ x = { s with span := { s.span with ports := x.span.ports } } ∧
      (∀ p < 18, bt (getPort x p).cfgShadow 31 = decide (128 ≤ arg o p 1) ∧ bf (getPort x p).cfgShadow 30 29 = arg o p 1 % 4 ∧
        getPort x p = { getPort s p with cfgShadow := (getPort x p).cfgShadow }) ∧
      (o.persist = false → Ends z t o St.ok 0 []) := by
  obtain ⟨hside, hports⟩ := portsAsked_each s o
  have hhost : isDriver (portsAsked s o) view = true := by
    rw [isDriver_iff] at hv ⊢
    exact hv.trans (congrArg (fun v : State => if v.host.drv then View.pcie else View.mason) hside :).symm
  have hrange : (alen o 18 && o.args.all fun b => decide (b &&& 0x7C = 0)) = true := by
    rw [alen_eq ha, Bool.true_and, List.all_eq_true]
    exact fun b hb => decide_eq_true (hz b hb)
  have hkey : Mailed s (spanCommitAll (portsAsked s o)) := (mailed_of_key hside.keystone).trans (spanCommitAll_mailed _)
  refine ⟨portsAsked s o, spanCommitAll (portsAsked s o), _, rfl, spanCommit_driver hhost, hside, fun p hp => ?_, fun hp => ?_⟩
  · obtain ⟨f1, f2⟩ := shadowWord_fields (arg_lt o p 1)
    rw [hports p hp]
    exact ⟨f1, f2, rfl⟩
  · exact (run_persists h (by decide) hrange rfl (z := spanCommitAll (portsAsked s o))
      (f := fun r => { r with ports := (List.range 18).foldl (fun t p => tset 0x80 t p (BitVec.ofNat 8 (arg o p 1))) r.ports })
      (w := (List.range 18).map fun p => (tgt 16 p, arg o p 1)) rfl hkey.batch hkey.batchDone).1 hp

theorem plumbWord_fields (o : Order) : bf (BitVec.ofNat 32 (arg o 0 4) &&& 0xFFE00000) 31 21 = arg o 0 4 / 2 ^ 21 ∧
    bf (BitVec.ofNat 32 (arg o 0 4) &&& 0xFFE00000) 20 0 = 0 := by
  have hmask : BitVec.ofNat 32 (arg o 0 4) &&& 0xFFE00000 = mergeMask 0xFFE00000 0 (BitVec.ofNat 32 (arg o 0 4)) := by simp [mergeMask]
  have hlt := arg_lt o 0 4
  rw [hmask]
  refine ⟨(bf_mergeMask_in _ _ (by decide)).trans ?_, bf_mergeMask_out _ _ (by decide)⟩
  rw [bf, BitVec.toNat_ofNat]
  omega

theorem spanPlumb_runs (h : Sole s o 5 3 .w) (ha : o.args.length = 4) {view : View} (hv : isDriver s view = true) :
    ∃ z t v, exec .spanPlumb s = .next t ∧ bf v 31 21 = arg o 0 4 / 2 ^ 21 ∧ bf v 20 0 = 0 ∧
      exec (.spanCommit view) { s with plumb := { s.plumb with cfgShadow := v } } = .next z ∧ (o.persist = false → Ends z t o St.ok 0 []) := by
  obtain ⟨f1, f2⟩ := plumbWord_fields o
  generalize hword : BitVec.ofNat 32 (arg o 0 4) &&& 0xFFE00000 = v at f1 f2
  have hkey : Mailed s (spanCommitAll (withPlumb s { s.plumb with cfgShadow := v })) := Mailed.trans (s := withPlumb s { s.plumb with cfgShadow := v }) rfl (spanCommitAll_mailed _)
  refine ⟨spanCommitAll (withPlumb s { s.plumb with cfgShadow := v }), _, v, rfl, f1, f2, spanCommit_driver hv, fun hp => ?_⟩
  exact (run_persists h (by decide) (alen_eq ha) rfl (z := spanCommitAll (withPlumb s { s.plumb with cfgShadow := v }))
    (f := fun r => { r with plumb := v }) (w := [(tgt 17 0, v.toNat)]) (by rw [← hword]) hkey.batch hkey.batchDone).1 hp

/-! ## SPAN.PORTCLR and SPAN.SEND -/

/-- The lanes of a port as unit codes. -/
def portLanes (p : Nat) : List Nat := (List.range 8).map fun l => unitCode 0xC (8 * p + l)

theorem portLanes_contains (p u : Nat) : (portLanes p).contains u = (List.range 8).any fun l => decide (u = unitCode 0xC (8 * p + l)) := by
  rw [portLanes, Bool.eq_iff_iff, List.contains_iff_mem, List.mem_map, List.any_eq_true]
  exact exists_congr fun l => and_congr_right fun _ => by rw [decide_eq_true_eq]; exact eq_comm

/-- The records of the lanes of a port are gone (R321). -/
def lanesCleared (s : State) (p : Nat) : State :=
  withKey (withStore s { s.store with sincePwr := (portLanes p).foldl (fun t u => tset 0 t u 0) s.store.sincePwr })
    { s.key with recs := { s.key.recs with retired := s.key.recs.retired.filter fun u => !(portLanes p).contains u } }

theorem spanPortclr_runs (h : Sole s o 5 4 .w) (ha : o.args.length = 1) (h1 : arg o 0 1 ≤ 17) : ∃ z t, exec .spanPortclr s = .next t ∧
    Stores z t o (.units z.key.recs) ∧
    z = { s with store := { s.store with sincePwr := z.store.sincePwr }, key := { s.key with recs := z.key.recs } } ∧
    z.key.recs = { s.key.recs with
      retired := s.key.recs.retired.filter fun u => !((List.range 8).any fun l => decide (u = unitCode 0xC (8 * arg o 0 1 + l))) } ∧
    ∀ l < 8, tget 0 z.store.sincePwr (unitCode 0xC (8 * arg o 0 1 + l)) = 0 := by
  refine ⟨lanesCleared s (arg o 0 1), _, rfl, ?_, rfl, ?_, fun l hl => ?_⟩
  · rw [run_sole h (by rw [alen_eq ha, decide_eq_true h1]; rfl) rfl]
    exact endStored_stores h (z := lanesCleared s (arg o 0 1)) _ rfl rfl _
  · have hfilter : (fun u => !(portLanes (arg o 0 1)).contains u) = fun u => !((List.range 8).any fun l => decide (u = unitCode 0xC (8 * arg o 0 1 + l))) :=
      funext fun u => by rw [portLanes_contains]
    rw [← hfilter]
    rfl
  · exact foldl_tset_get 0 (fun _ => 0) _ _ _ (List.mem_map_of_mem (List.mem_range.2 hl))

theorem slice_zero (h : arg o 3 1 = 0) : slice o.args 3 1 = [0] := by
  obtain ⟨b, hb⟩ := List.length_eq_one_iff.1 (slice_length o.args 3 1)
  rw [arg, fieldLe, hb] at h
  have hz : b = 0 := BitVec.eq_of_toNat_eq (by simpa [leNat] using h)
  rw [hb, hz]

/-- The packet of SPAN.SEND. -/
def mgmtPkt (s : State) (o : Order) : SpanPkt :=
  requestPkt s 0x10 (arg o 0 2 * 2 ^ 49 + arg o 2 1 * 2 ^ 41) 0
    (slice o.args 4 2 ++ slice o.args 3 1 ++ slice o.args 6 1 ++ List.replicate 4 0 ++ o.args.drop 8).length 0 false
    (slice o.args 4 2 ++ slice o.args 3 1 ++ slice o.args 6 1 ++ List.replicate 4 0 ++ o.args.drop 8)

/-- The package with the packet of SPAN.SEND sent. -/
def mgmtSent (s : State) (o : Order) : State :=
  remoteSend s (.send o.mb) 0x10 (arg o 0 2 * 2 ^ 49 + arg o 2 1 * 2 ^ 41) 0
    (slice o.args 4 2 ++ slice o.args 3 1 ++ slice o.args 6 1 ++ List.replicate 4 0 ++ o.args.drop 8).length 0 false
    (slice o.args 4 2 ++ slice o.args 3 1 ++ slice o.args 6 1 ++ List.replicate 4 0 ++ o.args.drop 8)

theorem mgmtPkt_dest (h : arg o 0 2 ≤ 511) : pktDest (mgmtPkt s o) = (arg o 0 2, arg o 2 1) := by
  have hlt := arg_lt o 2 1
  have hresp : pktIsResp (mgmtPkt s o) = false := rfl
  have hval : (mgmtPkt s o).addr.toNat = arg o 0 2 * 2 ^ 49 + arg o 2 1 * 2 ^ 41 := by
    show (BitVec.ofNat 64 (arg o 0 2 * 2 ^ 49 + arg o 2 1 * 2 ^ 41)).toNat = _
    rw [BitVec.toNat_ofNat]
    omega
  rw [pktDest, hresp, if_neg Bool.false_ne_true, bf, bf, hval]
  refine Prod.ext ?_ ?_
  · show (arg o 0 2 * 2 ^ 49 + arg o 2 1 * 2 ^ 41) / 2 ^ 49 % 2 ^ (57 + 1 - 49) = arg o 0 2
    omega
  · show (arg o 0 2 * 2 ^ 49 + arg o 2 1 * 2 ^ 41) / 2 ^ 41 % 2 ^ (48 + 1 - 41) = arg o 2 1
    omega

theorem spanSend_runs (h : Sole s o 5 5 .w0) (hp : ∀ p ∈ s.key.pending, p.mb ≠ o.mb) (h1 : arg o 0 2 ≤ 511) (h2 : arg o 7 1 = 0)
    (h3 : arg o 3 1 = 0) (ha : o.args.length = 8) :
    ∃ t k, exec .spanSend s = .next t ∧ t.span.sent = s.span.sent ++ [(k, s.now)] ∧ k.op = 0x10 ∧ pktDest k = (arg o 0 2, arg o 2 1) ∧
      k.data = slice o.args 4 2 ++ [0] ++ slice o.args 6 1 ++ [0, 0, 0, 0] ∧
      (∃ r, t.span.reqs = s.span.reqs ++ [r] ∧ r.user = .send o.mb ∧ r.tag = k.tag ∧ r.pkt = k) ∧
      (∃ p, t.key.pending = s.key.pending ++ [p] ∧ p.mb = o.mb ∧ p.group = o.group ∧ p.verb = o.verb) ∧
      getMbox t o.mb = getMbox s o.mb := by
  have hrange : (alen o (8 + 8 * (if arg o 3 1 = 1 then arg o 6 1 else 0)) && decide ((if arg o 3 1 = 1 then arg o 6 1 else 0) ≤ 31 ∧ arg o 0 2 ≤ 511 ∧ arg o 7 1 = 0)) = true := by
    rw [if_neg (by rw [h3]; decide), alen_eq ha, decide_eq_true ⟨Nat.zero_le _, h1, h2⟩]
    rfl
  have hbeg := started_begins h (mgmtSent s o) rfl rfl hp []
  have hexec : exec .spanSend s = .next (settleOrder o ⟨mgmtSent s o, .started false, []⟩) := congrArg Host.Outcome.next (run_sole h hrange rfl)
  generalize settleOrder o ⟨mgmtSent s o, .started false, []⟩ = t at hbeg hexec
  obtain ⟨hside, p, hpend, p1, p2, p3, -⟩ := hbeg
  have hspan : t.span = (mgmtSent s o).span := (congrArg State.span hside :)
  have hmb : t.key.mb = s.key.mb := (congrArg (fun v : State => v.key.mb) hside :)
  refine ⟨t, mgmtPkt s o, hexec, by rw [hspan]; rfl, rfl, mgmtPkt_dest h1, ?_, ⟨_, by rw [hspan]; rfl, rfl, rfl, rfl⟩, ⟨p, hpend, p1, p2, p3⟩, getMbox_of_key hmb _⟩
  show slice o.args 4 2 ++ slice o.args 3 1 ++ slice o.args 6 1 ++ List.replicate 4 0 ++ o.args.drop 8 = _
  rw [slice_zero h3, List.drop_of_length_le (by omega), List.append_nil]
  rfl

end

end Sys2Proof.Machine
end

section
/-!
PROOF. The orders of the group SPAN on routes and their switch (R329, R331, R332), and the obligation on the orders of the first groups.
-/

namespace Sys2Proof.Machine

section
variable {s : State} {o : Order}

/-! ## SPAN.ROUTE -/

/-- The check of a SPAN.ROUTE order's arguments. -/
theorem route_range (h1 : arg o 0 1 ≤ 1) (h2 : arg o 1 1 ≤ 1) (h3 : 1 ≤ arg o 4 2) (h4 : arg o 4 2 ≤ 224) (h5 : arg o 6 2 = 0)
    (h6 : arg o 2 2 + arg o 4 2 ≤ 256 * (arg o 0 1 + 1)) (ha : o.args.length = 8 + 4 * arg o 4 2) :
    (decide (8 ≤ o.args.length ∧ arg o 0 1 ≤ 1 ∧ arg o 1 1 ≤ 1 ∧ 1 ≤ arg o 4 2 ∧ arg o 4 2 ≤ 224 ∧ arg o 6 2 = 0
      ∧ arg o 2 2 + arg o 4 2 ≤ 256 * (arg o 0 1 + 1)) && alen o (8 + 4 * arg o 4 2)) = true := by
  rw [alen_eq ha, decide_eq_true ⟨by omega, h1, h2, h3, h4, h5, h6⟩]
  rfl

/-- The word of entry `i` of a SPAN.ROUTE order. -/
def routeWord (o : Order) (i : Nat) : BitVec 32 := BitVec.ofNat 32 (arg o (8 + 4 * i) 4)

theorem routeWord_toNat (o : Order) (i : Nat) : (routeWord o i).toNat = arg o (8 + 4 * i) 4 := by
  rw [routeWord, BitVec.toNat_ofNat]
  exact Nat.mod_eq_of_lt (arg_lt o (8 + 4 * i) 4)

/-- A table with entries written from `base` on. -/
def routesAt (o : Order) (base : Nat) (t : Tab (BitVec 32)) : Tab (BitVec 32) :=
  (List.range (arg o 4 2)).foldl (fun t i => tset 0 t (base + i) (routeWord o i)) t

theorem foldl_tset_shift (base : Nat) (v : Nat → BitVec 32) : ∀ (l : List Nat) (t : Tab (BitVec 32)) (e : Nat), e ∈ l →
    tget 0 (l.foldl (fun t i => tset 0 t (base + i) (v i)) t) (base + e) = v e := by
  intro l
  induction l using List.reverseRecOn with
  | nil => exact fun _ _ h => absurd h List.not_mem_nil
  | append_singleton l x ih =>
    intro t e he
    rw [List.foldl_append, List.foldl_cons, List.foldl_nil]
    by_cases hx : e = x
    · rw [hx]
      exact tget_tset_self ..
    · rw [tget_tset_ne _ (by omega)]
      exact ih t e ((List.mem_append.1 he).resolve_right fun hm => hx (List.mem_singleton.1 hm))

theorem routesAt_get {i : Nat} (base : Nat) (t : Tab (BitVec 32)) (hi : i < arg o 4 2) : (tget 0 (routesAt o base t) (base + i)).toNat = arg o (8 + 4 * i) 4 := by
  rw [routesAt, foldl_tset_shift base (routeWord o) _ _ _ (List.mem_range.2 hi), routeWord_toNat]

theorem spanRoute_refused (h : Sole s o 5 6 .w) (h1 : arg o 0 1 ≤ 1) (h2 : arg o 1 1 ≤ 1) (h3 : 1 ≤ arg o 4 2) (h4 : arg o 4 2 ≤ 224)
    (h5 : arg o 6 2 = 0) (h6 : arg o 2 2 + arg o 4 2 ≤ 256 * (arg o 0 1 + 1)) (ha : o.args.length = 8 + 4 * arg o 4 2)
    (hbad : s.span.rtbusy = true ∨ s.span.actep = decide (arg o 1 1 = 1)) : ∃ t, exec .spanRoute s = .next t ∧ Ends s t o St.ok 3 [] := by
  refine ⟨_, rfl, run_state h (route_range h1 h2 h3 h4 h5 h6 ha) ?_⟩
  rcases hbad with hb | hb
  · rw [hb]
    rfl
  · rw [decide_eq_true hb.symm, Bool.or_true]
    rfl

theorem spanRoute_writes (h : Sole s o 5 6 .w) (h1 : arg o 0 1 ≤ 1) (h2 : arg o 1 1 ≤ 1) (h3 : 1 ≤ arg o 4 2) (h4 : arg o 4 2 ≤ 224)
    (h5 : arg o 6 2 = 0) (h6 : arg o 2 2 + arg o 4 2 ≤ 256 * (arg o 0 1 + 1)) (ha : o.args.length = 8 + 4 * arg o 4 2)
    (hb : s.span.rtbusy = false) (he : s.span.actep ≠ decide (arg o 1 1 = 1)) : ∃ z t, exec .spanRoute s = .next t ∧ Ends z t o St.ok 0 [] ∧
      z = { s with span := { s.span with droute := z.span.droute, hroute := z.span.hroute } } ∧
      (arg o 0 1 = 0 → z.span.hroute = s.span.hroute ∧ ∀ i < arg o 4 2,
        (tget 0 z.span.droute (arg o 1 1 * 256 + arg o 2 2 + i)).toNat = arg o (8 + 4 * i) 4) ∧
      (arg o 0 1 = 1 → z.span.droute = s.span.droute ∧ ∀ i < arg o 4 2,
        (tget 0 z.span.hroute (arg o 1 1 * 512 + arg o 2 2 + i)).toNat = arg o (8 + 4 * i) 4) := by
  have hstate : (!(s.span.rtbusy || decide (decide (arg o 1 1 = 1) = s.span.actep))) = true := by
    rw [hb, decide_eq_false fun hc => he hc.symm]
    rfl
  have hrange := route_range h1 h2 h3 h4 h5 h6 ha
  by_cases hall : arg o 0 1 = 1
  · refine ⟨withSpan s { s.span with hroute := routesAt o (arg o 1 1 * 512 + arg o 2 2) s.span.hroute }, _, rfl, ?_, rfl,
      fun h0 => by omega, fun _ => ⟨rfl, fun i hi => routesAt_get _ _ hi⟩⟩
    refine run_done h (by decide) hrange hstate ?_ rfl rfl rfl
    dsimp only
    rw [decide_eq_true hall]
    rfl
  · refine ⟨withSpan s { s.span with droute := routesAt o (arg o 1 1 * 256 + arg o 2 2) s.span.droute }, _, rfl, ?_, rfl,
      fun _ => ⟨rfl, fun i hi => routesAt_get _ _ hi⟩, fun h0 => absurd h0 hall⟩
    refine run_done h (by decide) hrange hstate ?_ rfl rfl rfl
    dsimp only
    rw [decide_eq_false hall]
    rfl

/-! ## SPAN.SWITCH, SPAN.CTL and SPAN.STATUS -/

theorem Switched.keystone {s t : State} (h : Switched s t) : t.key = s.key := (congrArg State.key h.package :)

theorem routeGoWrite_key {s : State} (hb : s.span.rtbusy = false) : (routeGoWrite s).key = s.key := by
  by_cases h : s.span.rat ≤ s.plumb.count
  · exact (routeGoWrite_switches hb h).keystone
  · rw [routeGoWrite_waits hb (BitVec.not_le.1 h)]

/-- The package with the instant of SPAN.SWITCH in SPAN_RAT. -/
def ratWritten (s : State) (o : Order) : State := withSpan s { s.span with rat := BitVec.ofNat 64 (arg o 0 8) }

theorem spanSwitch_runs (h : Sole s o 5 7 .w) (ha : o.args.length = 8) :
    (s.span.rtbusy = true → ∃ t, exec .spanSwitch s = .next t ∧ Ends s t o St.ok 3 []) ∧
    (∀ view, s.span.rtbusy = false → isDriver s view = true → ∃ z t, exec .spanSwitch s = .next t ∧
      exec (.routeGo view) { s with span := { s.span with rat := BitVec.ofNat 64 (arg o 0 8) } } = .next z ∧ Ends z t o St.ok 0 []) := by
  refine ⟨fun hb => ⟨_, rfl, run_state h (alen_eq ha) (by rw [hb]; rfl)⟩, fun view hb hv => ?_⟩
  have hkey := routeGoWrite_key (s := ratWritten s o) hb
  refine ⟨routeGoWrite (ratWritten s o), _, rfl, congrArg Host.Outcome.next (if_pos hv), ?_⟩
  exact run_ok h (by decide) (alen_eq ha) (by rw [hb]; rfl) (w := [(tgt 20 0, arg o 0 8)]) rfl (by rw [hkey]; rfl) (by rw [hkey]; rfl)

theorem routeEnSet_key (s : State) (en : Bool) : (routeEnSet s en).key = s.key := by
  cases en with
  | false =>
    cases hr : s.span.routeEn with
    | false => rw [routeEnSet, if_pos hr.symm]
    | true => exact (congrArg State.key (routeEnSet_off hr).1 :)
  | true =>
    cases hr : s.span.routeEn with
    | true => rw [routeEnSet, if_pos hr.symm]
    | false =>
      cases hid : bt s.span.id 31 with
      | true => exact (congrArg State.key (routeEnSet_on hr hid).1 :)
      | false => rw [routeEnSet, if_neg (by rw [hr]; decide), if_pos rfl, if_neg (by rw [hid]; exact Bool.false_ne_true)]

/-- The package with the protocol version of SPAN.CTL active. -/
def protoTaken (s : State) (o : Order) : State := withSpan s { s.span with protoAct := BitVec.ofNat 8 (arg o 1 1) }

theorem ctl_range (ha : o.args.length = 2) (h1 : arg o 0 1 ≤ 1)
    (hp : BitVec.ofNat 8 (arg o 1 1) = s.span.protoImpl ∨ BitVec.ofNat 8 (arg o 1 1) = s.span.protoImpl - 1) :
    (alen o 2 && decide (arg o 0 1 ≤ 1) && decide (BitVec.ofNat 8 (arg o 1 1) = s.span.protoImpl ∨
      BitVec.ofNat 8 (arg o 1 1) = s.span.protoImpl - 1)) = true := by
  rw [alen_eq ha, decide_eq_true h1, decide_eq_true hp]
  rfl

theorem spanCtl_runs (h : Sole s o 5 8 .w) (ha : o.args.length = 2) (h1 : arg o 0 1 ≤ 1) :
    ((BitVec.ofNat 8 (arg o 1 1) ≠ s.span.protoImpl ∧ BitVec.ofNat 8 (arg o 1 1) ≠ s.span.protoImpl - 1) →
      ∃ t, exec .spanCtl s = .next t ∧ Ends s t o St.ok 2 []) ∧
    (∀ view, isDriver s view = true → (BitVec.ofNat 8 (arg o 1 1) = s.span.protoImpl ∨ BitVec.ofNat 8 (arg o 1 1) = s.span.protoImpl - 1) →
      (arg o 0 1 = 1 → bt s.span.id 31 = false → ∃ t, exec .spanCtl s = .next t ∧ Ends s t o St.ok 3 []) ∧
      ((arg o 0 1 = 0 ∨ bt s.span.id 31 = true) → ∃ z t, exec .spanCtl s = .next t ∧
        exec (.routeEnWrite view (decide (arg o 0 1 = 1))) { s with span := { s.span with protoAct := BitVec.ofNat 8 (arg o 1 1) } } = .next z ∧
        Settles z t o { s.key.sets with proto := some (BitVec.ofNat 8 (arg o 1 1)) })) := by
  refine ⟨fun ⟨g1, g2⟩ => ⟨_, rfl, run_range h ?_⟩, fun view hv hp => ⟨fun g1 g2 => ⟨_, rfl, run_state h (ctl_range ha h1 hp) ?_⟩, fun hok => ?_⟩⟩
  · rw [decide_eq_false (not_or.2 ⟨g1, g2⟩), Bool.and_false]
  · rw [g2, decide_eq_false (by omega)]
    rfl
  · have hkey := routeEnSet_key (protoTaken s o) (decide (arg o 0 1 = 1))
    have hset : protoSet s (BitVec.ofNat 8 (arg o 1 1)) = protoTaken s o := if_pos hp
    have hstate : (decide (arg o 0 1 = 0) || bt s.span.id 31) = true := by
      rcases hok with h0 | hid
      · rw [decide_eq_true h0, Bool.true_or]
      · rw [hid, Bool.or_true]
    have hsets : (routeEnSet (protoTaken s o) (decide (arg o 0 1 = 1))).key.sets = s.key.sets := by
      rw [hkey]
      rfl
    refine ⟨routeEnSet (protoTaken s o) (decide (arg o 0 1 = 1)), _, rfl, congrArg Host.Outcome.next (if_pos hv), ?_⟩
    rw [← hsets]
    exact run_persists h (by decide) (ctl_range ha h1 hp) hstate (f := fun r => { r with proto := some (BitVec.ofNat 8 (arg o 1 1)) })
      (w := [(tgt 22 0, arg o 0 1), (tgt 23 0, arg o 1 1)]) (by dsimp only; rw [hset]) (by rw [hkey]; rfl) (by rw [hkey]; rfl)

theorem spanStatus_runs (h : Sole s o 5 9 .r) (ha : o.args = []) : ∃ t, exec .spanStatus s = .next t ∧ Ends s t o St.ok 0
    (([s.span.id, spanCtl s, spanRctl s, plumbStat s] ++ (List.range 18).flatMap fun p => [portStat s p, portNbr s p, portErr s p]).flatMap
      fun w => toLe 4 w.toNat) :=
  ⟨_, rfl, run_reads h (by decide) (alen_nil ha) rfl rfl⟩

end

/-! ## The obligation -/

/-- Settles O58: each order by what it comes to once its checks have passed or refused it. -/
theorem systemOrdersRun : Obligations.SystemOrdersRun := by
  unfold Obligations.SystemOrdersRun
  intro s
  have hrow := rowsOrder_run s
  refine ⟨fun r hr => ⟨(hrow r hr).stands.1, (hrow r hr).stands.2, fun o hb hd h1 h2 h3 h4 _ h5 h6 h7 hp => (hrow r hr).refuses hb hd h1 h2 h3 h4 h5 h6 h7 hp⟩,
    fun o => sysInfo_runs, fun o => ⟨sysCause_reads, fun b => sysCause_clears⟩, fun o => sysReset_runs,
    fun o h => ⟨sysOffline_holds h, sysOffline_stops h, sysOffline_resumes h⟩, ⟨fun h => ?_, packageStop_ends, packageStop_waits⟩,
    fun o h b => sysDrv_runs h, fun o h b => sysM3_runs h, fun o h b => sysSetread_runs h, fun o => pwrCap_runs, fun o => pwrFreqOrder_runs,
    fun o h ha h1 h2 => ⟨pwrDomain_refused h ha h1 h2, pwrDomain_moves h ha h2⟩, fun o => pwrStatus_runs, fun o => thmCoolant_runs,
    fun o => thmStatus_runs, fun o h b => memIntlv_runs h, fun o h ha h1 h2 h3 => ⟨memQkind_refused h ha h1 h2 h3, memQkind_waits h ha h1 h2 h3⟩,
    fun o => memStatus_runs, fun o => spanId_runs, fun o h ha hz view => spanPorts_runs h ha hz, fun o h ha view => spanPlumb_runs h ha,
    fun o => spanPortclr_runs, fun o => spanSend_runs,
    fun o h h1 h2 h3 h4 h5 h6 ha => ⟨spanRoute_refused h h1 h2 h3 h4 h5 h6 ha, spanRoute_writes h h1 h2 h3 h4 h5 h6 ha⟩,
    fun o => spanSwitch_runs, fun o => spanCtl_runs, fun o => spanStatus_runs⟩
  rw [execPackageStop_eq, if_pos (by rw [h]; rfl)]

end Sys2Proof.Machine
end

section
/-!
PROOF. The orders of the groups CAL, FW, RAS, TEST and MOD: MOD.SET in a package whose thermal shutdown holds the module channels off
(R375, R377, R408).
-/

namespace Sys2Proof.Machine

/-- MOD.SET of channel 0 by the service controller: EN = 1 with a limit of 0x14. -/
def enableOrder : Order where
  mb := 0
  group := 10
  verb := 1
  persist := false
  offline := false
  seq := 0
  args := [0, 1, 0x14]
  busy := false
  started := false
  since := 0
  code := St.ok
  refuse := 0
  res := []
  wrote := []

/-- A package whose VMOD is good and whose channels are held off by RST.OFF, with SHUTDOWN not among the causes, and the order at the head. -/
def heldOff : State := { State.reset with
  rst := { State.reset.rst with off := true }
  key := { State.reset.key with batch := [enableOrder] } }

theorem heldOff_sole : Sole heldOff enableOrder 10 1 .w where
  batch := ⟨rfl, rfl⟩
  fresh := ⟨rfl, rfl, rfl, rfl, rfl⟩
  runs := rfl
  verb := ⟨rfl, rfl⟩
  right := rfl
  state := ⟨by decide, fun h => absurd h Bool.false_ne_true⟩

/-- After the order channel 0 is enabled and OFF, for it waits in OFF while RST.OFF holds (R375). -/
theorem heldOff_modSet : (getMod (modEnSet (modIlimSet heldOff 0 0x14) 0 true) 0).st = .off := by decide

/-- The module channels after the order are those of its change: an answer leaves them. -/
theorem heldOff_answered : ∃ t, exec .modSet heldOff = .next t ∧ (getMod t 0).st = .off := by
  have hend := (run_persists heldOff_sole (by decide)
    (rangeOk := fun o => alen o 3 && decide (arg o 0 1 ≤ 17 ∧ arg o 1 1 ≤ 1 ∧ 0x14 ≤ arg o 2 1 ∧ arg o 2 1 ≤ 0xC8))
    (stateOk := fun o => decide ((getMod heldOff (arg o 0 1)).st ≠ .retired))
    (body := fun s o => endPersist (modEnSet (modIlimSet s (arg o 0 1) (BitVec.ofNat 8 (arg o 2 1))) (arg o 0 1) (decide (arg o 1 1 = 1))) o
      (fun r => { r with mods := tset 0x178 r.mods (arg o 0 1) (BitVec.ofNat 16 (256 * arg o 1 1 + arg o 2 1)) })
      [(tgt 30 (arg o 0 1), arg o 1 1), (tgt 31 (arg o 0 1), arg o 2 1)])
    (by decide) (by decide) rfl (by decide) (by decide)).1 rfl
  have hpower := (congrArg State.power hend.side :)
  refine ⟨_, rfl, ?_⟩
  rw [getMod, hpower]
  exact heldOff_modSet

/-- Refutes O59: MOD.SET with EN = 1 on a channel that was disabled must leave it QUEUED wherever VMOD is good, but while RST.OFF holds
(the thermal shutdown of R375) the model leaves it OFF; the state has RST.OFF without the SHUTDOWN cause, so the order is not refused. -/
theorem not_maintenanceOrdersRun : ¬ Obligations.MaintenanceOrdersRun := by
  unfold Obligations.MaintenanceOrdersRun
  intro h
  obtain ⟨-, -, -, -, -, -, -, -, -, -, -, -, -, -, -, -, -, -, -, -, -, hset, -⟩ := h heldOff
  obtain ⟨z, t, v, hx, hends, -, -, -, -, hqueued, -⟩ :=
    (hset enableOrder heldOff_sole rfl).2 (by decide) (by decide) (by decide) (by decide) |>.2 (by decide)
  obtain ⟨t', hx', hoff⟩ := heldOff_answered
  have ht : t = t' := Host.Outcome.next.inj (hx.symm.trans hx')
  have hpower : t.power = z.power := (congrArg State.power (hends.1 rfl).side :)
  have hst : (getMod z 0).st = .queued := hqueued (by decide) (by decide)
  have hsame : getMod t 0 = getMod z 0 := by rw [getMod, hpower, getMod]
  rw [← hsame, ht, hoff] at hst
  exact absurd hst (by decide)

end Sys2Proof.Machine
end
